-- ==== Sys2Proof/Word.lean ====
section
/-! DEFINITION. The plain words of the CVX6400 model: bytes, 32-bit registers, byte strings, and sparse tables. -/
namespace Sys2Proof

/-- One byte of memory, of a packet or of a frame. -/
abbrev Byte := BitVec 8
/-- One register word (R14: registers are 32 bits wide unless their table states 64). -/
abbrev Word := BitVec 32
/-- A string of bytes, lowest address first (R5: little-endian). -/
abbrev Bytes := List Byte
/-- A sparse table from a number to a value. It lists keys in rising order and lists no entry whose value is
the table's default; `Machine.twf` says so, and the operations of `Machine/Bits.lean` keep it. -/
abbrev Tbl (α : Type) := List (Nat × α)

/-- The two worlds of R16. -/
inductive World where
  | s | n
  deriving DecidableEq, Repr

/-- The requester identity that the hardware of a source unit attaches to every request (R36): a world bit,
a 4-bit tenant number and a source-unit number. -/
structure Requester where
  world  : World
  tenant : Nat
  unit   : Nat
  deriving DecidableEq, Repr

/-- A request at a strata bank in a cycle (R159, R160): its class 1 to 6, its source number within the class, the cycles it has
waited, the line, and a write's byte offset in the line and its bytes. -/
structure BankReq where
  cls    : Nat
  src    : Nat
  waited : Nat
  line   : Nat
  store  : Option (Nat × Bytes)
  deriving DecidableEq, Repr

/-- A transfer unit of a request that crosses a die-to-die bridge with wrong symbols (R23): whether it carries the response, its place
among the 32-byte units of the request's data, and how many of its symbols are wrong. -/
structure BridgeErr where
  back  : Bool
  unit  : Nat
  wrong : Nat
  deriving DecidableEq, Repr

/-- A request on the on-package fabric as it leaves its source (R36): the identity that the source's hardware attaches, what a register write
makes the device read (the cable record of a seam link), and the transfer units with wrong symbols. -/
structure FabricReq where
  who   : Requester
  ext   : Bytes
  errs  : List BridgeErr
  table : Nat
  deriving DecidableEq, Repr

/-- A firmware processor whose watchdog expires, and the tick at which its firmware last restarted the watchdog's count (R242). -/
structure Watchdog where
  proc   : Nat
  kicked : Nat
  deriving DecidableEq, Repr

/-- A firmware processor that is back from its restart: whether the copy of its image in the firmware image store was uncorrectable as it
was read (R243). -/
structure FwBack where
  proc : Nat
  bad  : Bool
  deriving DecidableEq, Repr

/-- A host function or a drive whose packet arrives, and how many packets its PCIe link has sent again since the last such event (R249). -/
structure Replayed where
  inst    : Nat
  replays : Nat
  deriving DecidableEq, Repr

/-- Wrong symbols that a codeword of a line holds as an access begins, and those that the second read of R307 meets, where they differ
from those of the first. -/
structure Upset where
  half  : Bool
  wrong : Nat
  again : Option Nat
  deriving DecidableEq, Repr

/-- An access to a 64-byte line of HBM or LPDDR5X, and the upsets that its codewords have met before it (R298, R306). -/
structure LineAccess where
  addr   : Nat
  upsets : List Upset
  deriving DecidableEq, Repr

/-- What a module slot's SPD hub reports (R299): whether it is an LPCAMM2 module, its GiB, its width in bits and its rate in MT/s. -/
structure Spd where
  lpcamm2 : Bool
  gib     : Nat
  bits    : Nat
  rate    : Nat
  deriving DecidableEq, Repr

/-- What the identity scan finds (R485, R486): the SPD of each module slot, none where it is empty; the masks of Ethernet modules refused
and accepted; and the mask of regulators that do not answer. -/
structure Scan where
  spds    : List (Option Spd)
  ethBad  : Nat
  ethGood : Nat
  noVr    : Nat
  deriving DecidableEq, Repr

/-- The enqueues of one cycle at an engine or a lode's mover queue (R82, R83, R169), and the descriptor that the lode's control core offers
in it, if any. -/
structure Enqueue where
  unit : Nat
  ctl  : Option Bytes
  deriving DecidableEq, Repr

/-- A drive's map of one volume (R401, R402): the volume's drive mask and blocks, the physical units reserved for its share as runs
(start, length), and the entries that differ from "unmapped at the reserved unit", as 2 × physical unit + mapped, plus one. -/
structure DVol where
  mask   : Nat
  blocks : Nat
  ext    : List (Nat × Nat)
  map    : Tbl Nat
  deriving DecidableEq, Repr

/-- A drive's map (R402): its volumes, the runs of free physical units, the spare pool, and the number of the last journal record it
holds. -/
structure DMap where
  vols  : Tbl DVol
  free  : List (Nat × Nat)
  spare : List Nat
  seq   : Nat
  deriving DecidableEq, Repr

/-- A change of a drive's map that a journal record describes (R402, R403). -/
inductive JRec where
  | create (v mask blocks : Nat) (ext : List (Nat × Nat))
  | delete (v : Nat)
  | map (v u new : Nat)
  | unmap (v u : Nat)
  deriving DecidableEq, Repr

/-- What the service reads from a drive that shows presence (R399, R403): whether the port trains and an NVMe class code answers,
whether namespace 1 has a 4,096-byte format without metadata, its blocks, whether the drive supports what R399 asks, the
link's width and speed code, the identify data, the map copy where the metadata area holds one, and the journal records newer
than it in sequence order, each none where its CRC fails. -/
structure DriveId where
  nvme    : Bool
  format  : Bool
  blocks  : Nat
  feats   : Bool
  width   : Nat
  speed   : Nat
  ident   : Bytes
  copy    : Option DMap
  journal : List (Option JRec)
  deriving DecidableEq, Repr

/-- A part of what a rank contributes to a collective or a MOVE (R259, R264, R291, R341): tenant, communicator, rank, the number of the
operation on the communicator, the signature's parameters in order, the offset of the part and its data, and the destination bases
of a MOVE. -/
structure Contrib where
  tenant : Nat
  comm   : Nat
  rank   : Nat
  op     : Nat
  params : List Nat
  off    : Nat
  data   : Bytes
  bases  : List Nat
  deriving DecidableEq, Repr

/-- A transaction on the seams (R338, R340): a remote signal, a RESHARD write, collective engine traffic, a fabric transport packet of
an off-board link, or the acknowledgement of a transaction with its status (R327). -/
inductive SeamMsg where
  | signal (ctr val tenant : Nat)
  | write (tenant addr : Nat) (bytes : Bytes)
  | coll (c : Contrib)
  | packet (bytes : Bytes)
  | ack (seq st : Nat)
  deriving DecidableEq, Repr

/-- A CTRL flit of the peer (R319, R320, R337): whether it passes FEC and CRC, its header word, the last DATA SEQ received in order, the SEQ
a NAK names, the credits of the three channels, and in units of 2^-16 ns when the last CTRL flit of this device arrived there and when
this one left. -/
structure CtrlFlit where
  fec     : Bool
  crc     : Bool
  head    : Nat
  ack     : Nat
  nak     : Option Nat
  credits : List Nat
  arrived : Nat
  left    : Nat
  deriving DecidableEq, Repr

/-- What the peer sends in CHECK (R332, R335): the board serial number, position and link of an on-board peer; the FDID, cable serial
and end of an off-board one. -/
structure SeamIdent where
  serial : Nat
  pos    : Nat
  link   : Nat
  fdid   : Nat
  cable  : Nat
  tip    : Nat
  deriving DecidableEq, Repr

/-- An entry of the initial assignment list, or what ASSIGN asks for (R441, R442): kind, world, index, tenant, and the run of blocks of
kind 3. -/
structure Assignment where
  kind   : Nat
  world  : Nat
  index  : Nat
  tenant : Nat
  first  : Nat
  count  : Nat
  deriving DecidableEq, Repr

/-- What the security core reads from an image slot (R450, R451): the bundle's version, security version, Irorn key index, whether that
key's digest is one of the four held in ROM, whether the bundle's signature verifies, its header and section digests, whether every
section's digest matches; the owner block, its security version, owner key 0 and whether the block's signature verifies under it, the
owner keys (KEY_ID, permission bits, public key), the board keys, what the key capsules hold by slot, and the initial assignments. -/
structure BootImage where
  version   : Nat
  secVer    : Nat
  irornIdx  : Nat
  irornOk   : Bool
  signed    : Bool
  header    : Bytes
  digestsOk : Bool
  owner     : Bytes
  ownerVer  : Nat
  ownerKey  : Bytes
  ownerOk   : Bool
  keys      : List (Nat × Nat × Bytes)
  boardKeys : List (Nat × Bytes)
  capsules  : List (Nat × Bytes)
  assigns   : List Assignment
  deriving DecidableEq, Repr, Inhabited

end Sys2Proof
end

