-- ==== Sys2Proof/Syntax.lean ====
section
/-! DEFINITION. The commands of the block, one constructor per row of spec/opcode_table.json, with the row's operands. -/
namespace Sys2Proof

/-- The commands and events of the part. Each constructor's comment gives the rule its row cites. -/
inductive Instr where
  /-- REGISTER_WRITE (R11). -/
  | registerWrite (who : Nat) (off : Nat) (val : Word) (ext : Bytes)
  /-- FABRIC_REQUEST (R36). -/
  | fabricRequest (req : FabricReq) (addr : Nat) (len : Nat) (wr : Bool) (data : Bytes)
  /-- DEVICE_REGISTER_ACCESS (R528). -/
  | deviceRegisterAccess (req : Requester) (addr : Nat) (len : Nat) (wr : Bool) (val : Word) (ext : Bytes)
  /-- TB_EVENT_FIRE (R32). -/
  | tbEventFire
  /-- TB_STEP (R33). -/
  | tbStep (who : Nat) (hi : Bool) (val : Word)
  /-- TB_ADJ_WRITE (R30). -/
  | tbAdjWrite (who : Nat) (val : Word)
  /-- TB_SYNCIN_EDGE (R478). -/
  | tbSyncinEdge
  /-- TB_SYNCIN_LOAD (R478). -/
  | tbSyncinLoad
  /-- MOD_ENQUEUE (R83). -/
  | modEnqueue (n : Enqueue)
  /-- MOD_NOP (R87). -/
  | modNop (n : Nat)
  /-- MATMUL (R95). -/
  | matmul (n : Nat)
  /-- GROUPED (R100). -/
  | grouped (n : Nat)
  /-- RANGE_SCAN (R102). -/
  | rangeScan (n : Nat)
  /-- TRANSPOSE_LOAD (R103). -/
  | transposeLoad (n : Nat)
  /-- ENGINE_DRAIN_START (R110). -/
  | engineDrainStart (n : Nat)
  /-- ENGINE_OP_COMPLETE (R108). -/
  | engineOpComplete (n : Nat) (cycles : Nat)
  /-- ENGINE_OPERAND_UE (R111). -/
  | engineOperandUe (n : Nat) (rows : Nat)
  /-- ENGINE_RMW_UE (R111). -/
  | engineRmwUe (n : Nat)
  /-- QUIESCE_WRITE (R110). -/
  | quiesceWrite (who : Nat) (n : Nat) (val : Word)
  /-- DROP_RESIDENT (R98). -/
  | dropResident (who : Nat) (n : Nat) (val : Word)
  /-- BUNDLE_ISSUE (R115). -/
  | bundleIssue (k : Nat) (late : Bool)
  /-- CTL_NOP (R120). -/
  | ctlNop (k : Nat)
  /-- REPEAT (R141). -/
  | repeatCtl (k : Nat) (late : Bool)
  /-- HALT (R120). -/
  | halt (k : Nat)
  /-- HALT_COMPLETE (R120). -/
  | haltComplete (k : Nat)
  /-- UNIT_RESULT_VISIBLE (R137). -/
  | unitResultVisible (k : Nat)
  /-- LOAD_DATA_ARRIVAL (R138). -/
  | loadDataArrival (k : Nat)
  /-- DELAYED_UNCORRECTABLE (R146). -/
  | delayedUncorrectable (k : Nat)
  /-- BC_HOLD_WRITE (R143). -/
  | bcHoldWrite (who : Nat) (k : Nat) (val : Word)
  /-- CORE_HOLD_TAKEN (R143). -/
  | coreHoldTaken (k : Nat)
  /-- CORE_START (R151). -/
  | coreStart (who : Nat) (k : Nat) (val : Word)
  /-- CORE_CLEAR (R152). -/
  | coreClear (who : Nat) (k : Nat) (val : Word)
  /-- IMEM_WRITE (R150). -/
  | imemWrite (req : Requester) (k : Nat) (off : Nat) (data : Bytes)
  /-- STRATA_BANK_ACCESS (R160). -/
  | strataBankAccess (n : Nat) (bank : Nat) (reqs : List BankReq)
  /-- STRATA_SCRUB_READ (R167). -/
  | strataScrubRead (n : Nat)
  /-- LODE_ZEROING_DONE (R168). -/
  | lodeZeroingDone (n : Nat)
  /-- MOVE_ENQUEUE (R169). -/
  | moveEnqueue (n : Enqueue)
  /-- MOVE_NOP (R171). -/
  | moveNop (n : Nat)
  /-- MOVE_COPY (R171). -/
  | moveCopy (n : Nat)
  /-- MOVE_FILL (R171). -/
  | moveFill (n : Nat)
  /-- MOVE_SOURCE_UE (R171). -/
  | moveSourceUe (n : Nat) (m : Nat)
  /-- MOVE_COMPLETE (R172). -/
  | moveComplete (n : Nat) (m : Nat)
  /-- LODE_CTRL_RESET (R112). -/
  | lodeCtrlReset (who : Nat) (n : Nat) (val : Word)
  /-- LODE_CTRL_HOLD (R176). -/
  | lodeCtrlHold (who : Nat) (n : Nat) (val : Word)
  /-- LOCK_GROUP_START (R175). -/
  | lockGroupStart (g : Nat)
  /-- SQ_TAIL_WRITE (R186). -/
  | sqTailWrite (p : Nat) (v : Nat) (q : Nat) (val : Word)
  /-- CQ_HEAD_WRITE (R186). -/
  | cqHeadWrite (p : Nat) (v : Nat) (q : Nat) (val : Word)
  /-- ADMQ_ENABLE (R217). -/
  | admqEnable (who : Nat) (i : Nat) (val : Word)
  /-- SUBMISSION_FETCH (R191). -/
  | submissionFetch
  /-- COMMAND_DISPATCH (R240). -/
  | commandDispatch (id : Nat)
  /-- REPLY_WRITE (R197). -/
  | replyWrite (id : Nat)
  /-- HELLO (R205). -/
  | hello (id : Nat)
  /-- IDENTIFY (R208). -/
  | identify (id : Nat)
  /-- FW_UPDATE (R452). -/
  | fwUpdate (id : Nat)
  /-- QP_CREATE (R210). -/
  | qpCreate (id : Nat)
  /-- QP_DELETE (R217). -/
  | qpDelete (id : Nat)
  /-- ABORT (R210). -/
  | abort (id : Nat)
  /-- HEARTBEAT (R434). -/
  | heartbeat (id : Nat)
  /-- GOODBYE (R205). -/
  | goodbye (id : Nat)
  /-- REGION_CREATE (R313). -/
  | regionCreate (id : Nat)
  /-- REGION_REVOKE (R395). -/
  | regionRevoke (id : Nat)
  /-- REGION_DRAIN_END (R395). -/
  | regionDrainEnd (e : Nat)
  /-- COPY (R211). -/
  | copy (id : Nat)
  /-- FILL (R211). -/
  | fill (id : Nat)
  /-- WINDOW_MAP (R211). -/
  | windowMap (id : Nat)
  /-- CRYPT (R459). -/
  | crypt (id : Nat)
  /-- CIPHER_OP_COMPLETE (R461). -/
  | cipherOpComplete (i : Nat)
  /-- IMEM_LOAD (R212). -/
  | imemLoad (id : Nat)
  /-- CORES_RUN (R212). -/
  | coresRun (id : Nat)
  /-- MOD_CHAIN (R109). -/
  | modChain (id : Nat)
  /-- MOVE_CHAIN (R212). -/
  | moveChain (id : Nat)
  /-- LOCK_FORM (R174). -/
  | lockForm (id : Nat)
  /-- LOCK_START (R175). -/
  | lockStart (id : Nat)
  /-- LOCK_DISSOLVE (R178). -/
  | lockDissolve (id : Nat)
  /-- LODE_RESET (R212). -/
  | lodeReset (id : Nat)
  /-- LODE_HOLD (R212). -/
  | lodeHold (id : Nat)
  /-- SYNC_SIGNAL (R213). -/
  | syncSignal (id : Nat)
  /-- SYNC_WAIT (R213). -/
  | syncWait (id : Nat)
  /-- SYNC_READ (R228). -/
  | syncRead (id : Nat)
  /-- SYNC_SET (R228). -/
  | syncSet (id : Nat)
  /-- SYNC_EPOCH (R232). -/
  | syncEpoch (id : Nat)
  /-- EPOCH_REBASE (R233). -/
  | epochRebase (id : Nat)
  /-- EPOCH_TIMEOUT (R233). -/
  | epochTimeout (id : Nat)
  /-- VMAP (R235). -/
  | vmap (id : Nat)
  /-- COMM_CREATE (R258). -/
  | commCreate (id : Nat)
  /-- COMM_DESTROY (R213). -/
  | commDestroy (id : Nat)
  /-- ALL_REDUCE (R260). -/
  | allReduce (id : Nat)
  /-- REDUCE_SCATTER (R259). -/
  | reduceScatter (id : Nat)
  /-- ALL_GATHER (R259). -/
  | allGather (id : Nat)
  /-- BROADCAST (R259). -/
  | broadcast (id : Nat)
  /-- ALL_TO_ALL (R259). -/
  | allToAll (id : Nat)
  /-- COLLECTIVE_CONTRIBUTION (R264). -/
  | collectiveContribution (c : Contrib)
  /-- PORT_MODE (R344). -/
  | portMode (id : Nat)
  /-- RULES_COMMIT (R355). -/
  | rulesCommit (id : Nat)
  /-- RULES_COMMIT_APPLY (R355). -/
  | rulesCommitApply (id : Nat)
  /-- RULE_VERSION_RETIRE (R355). -/
  | ruleVersionRetire (ver : Nat)
  /-- PATTERNS_LOAD (R356). -/
  | patternsLoad (id : Nat)
  /-- STREAM_OPEN (R361). -/
  | streamOpen (id : Nat)
  /-- STREAM_CLOSE (R364). -/
  | streamClose (id : Nat)
  /-- GATES_LOAD (R368). -/
  | gatesLoad (id : Nat)
  /-- SHAPER_SET (R367). -/
  | shaperSet (id : Nat)
  /-- POLICER_SET (R349). -/
  | policerSet (id : Nat)
  /-- FT_RING_CREATE (R376). -/
  | ftRingCreate (id : Nat)
  /-- FT_RING_DELETE (R376). -/
  | ftRingDelete (id : Nat)
  /-- FT_RQ_BIND (R376). -/
  | ftRqBind (id : Nat)
  /-- FT_RQ_UNBIND (R376). -/
  | ftRqUnbind (id : Nat)
  /-- SQ_CREATE (R404). -/
  | sqCreate (id : Nat)
  /-- SQ_DELETE (R214). -/
  | sqDelete (id : Nat)
  /-- VOL_CREATE (R401). -/
  | volCreate (id : Nat)
  /-- VOL_DELETE (R214). -/
  | volDelete (id : Nat)
  /-- VOL_BIND (R214). -/
  | volBind (id : Nat)
  /-- DRIVE_INFO (R214). -/
  | driveInfo (id : Nat)
  /-- POOL_ADD (R274). -/
  | poolAdd (id : Nat)
  /-- SAVE (R279). -/
  | save (id : Nat)
  /-- SAVE_STEP_DONE (R279). -/
  | saveStepDone (id : Nat)
  /-- RESTORE (R284). -/
  | restore (id : Nat)
  /-- RESTORE_STAGE_DONE (R284). -/
  | restoreStageDone (id : Nat)
  /-- DRAIN (R282). -/
  | drain (id : Nat)
  /-- DRAIN_DONE (R282). -/
  | drainDone (id : Nat)
  /-- SLOT_STATUS (R214). -/
  | slotStatus (id : Nat)
  /-- RANK_TAKE (R287). -/
  | rankTake (id : Nat)
  /-- RANK_TAKE_DISCOVERED (R288). -/
  | rankTakeDiscovered (id : Nat)
  /-- STAGE_WRITE (R292). -/
  | stageWrite (who : Nat) (t : Nat) (off : Nat) (val : Word)
  /-- LAYOUT_DEFINE (R289). -/
  | layoutDefine (id : Nat)
  /-- LAYOUT_DROP (R215). -/
  | layoutDrop (id : Nat)
  /-- RESHARD_MOVE (R291). -/
  | reshardMove (id : Nat)
  /-- ASSIGN (R441). -/
  | assign (id : Nat)
  /-- KEY_LOAD (R456). -/
  | keyLoad (id : Nat)
  /-- KEY_ERASE (R457). -/
  | keyErase (id : Nat)
  /-- ATTEST (R454). -/
  | attest (id : Nat)
  /-- DEBUG_UNLOCK (R465). -/
  | debugUnlock (id : Nat)
  /-- COUNTERS_READ (R509). -/
  | countersRead (id : Nat)
  /-- ERRORS_READ (R501). -/
  | errorsRead (id : Nat)
  /-- ERRORS_CLEAR (R495). -/
  | errorsClear (id : Nat)
  /-- LOG_RING (R498). -/
  | logRing (id : Nat)
  /-- TRACE_SET (R507). -/
  | traceSet (id : Nat)
  /-- OP_POINT (R472). -/
  | opPoint (id : Nat)
  /-- LODE_POWER (R487). -/
  | lodePower (id : Nat)
  /-- CLOCK_LOCK (R477). -/
  | clockLock (id : Nat)
  /-- CLOCK_LOCK_DONE (R477). -/
  | clockLockDone
  /-- TB_ADJ (R215). -/
  | tbAdj (id : Nat)
  /-- TB_SYNC_ARM (R478). -/
  | tbSyncArm (id : Nat)
  /-- DEEP (R488). -/
  | deep (id : Nat)
  /-- DEEP_ENTRY_DONE (R488). -/
  | deepEntryDone
  /-- DEEP_EXIT_DONE (R488). -/
  | deepExitDone
  /-- LIMITS_READ (R475). -/
  | limitsRead (id : Nat)
  /-- SIGNAL_ARRIVAL (R222). -/
  | signalArrival (p : Nat) (srcs : List Nat)
  /-- WAITER_JOIN (R223). -/
  | waiterJoin (p : Nat) (srcs : List Nat)
  /-- PASS_NOTICE (R227). -/
  | passNotice (i : Nat)
  /-- WAIT_TIMEOUT (R231). -/
  | waitTimeout (p : Nat) (i : Nat)
  /-- REMOTE_SIGNAL_SEND (R238). -/
  | remoteSignalSend
  /-- CORE_CTX_WRITE (R237). -/
  | coreCtxWrite (who : Nat) (k : Nat) (val : Word)
  /-- FN_CTX_WRITE (R237). -/
  | fnCtxWrite (who : Nat) (i : Nat) (val : Word)
  /-- WATCHDOG_EXPIRY (R242). -/
  | watchdogExpiry (p : Watchdog)
  /-- FW_CRASH (R243). -/
  | fwCrash (p : Nat) (cause : Nat)
  /-- FW_RESTART_DONE (R244). -/
  | fwRestartDone (p : FwBack)
  /-- CONTROL_CORE_NOT_RECOVERED (R244). -/
  | controlCoreNotRecovered (n : Nat)
  /-- STRICT_WRITE (R254). -/
  | strictWrite (who : Nat) (t : Nat) (val : Word)
  /-- STRICT_LOCK_WRITE (R255). -/
  | strictLockWrite (who : Nat) (t : Nat) (val : Word)
  /-- MEMORY_ACCESS (R298). -/
  | memoryAccess (addr : LineAccess) (data : Bytes)
  /-- REFRESH_SLOT (R302). -/
  | refreshSlot (c : Nat) (ch : Nat)
  /-- RECALIBRATION (R303). -/
  | recalibration (c : Nat) (ch : Nat) (low : Bool) (failedLane : Bool) (trained : Bool)
  /-- MEMORY_SCRUB_READ (R310). -/
  | memoryScrubRead (c : Nat)
  /-- STACK_TEMPERATURE_REPORT (R302). -/
  | stackTemperatureReport (h : Nat) (hot : Bool)
  /-- SEG_MODE_WRITE (R297). -/
  | segModeWrite (who : Nat) (sg : Nat) (val : Word)
  /-- SEGMENT_FILL_DONE (R297). -/
  | segmentFillDone (sg : Nat)
  /-- BLOCK_ZERO_FILL_DONE (R311). -/
  | blockZeroFillDone (blk : Nat)
  /-- INJECT_ARM (R306). -/
  | injectArm (who : Nat) (c : Nat) (val : Word)
  /-- REGION_SHARE_WRITE (R313). -/
  | regionShareWrite (who : Nat) (e : Nat) (val : Word)
  /-- SEAM_DATA_FLIT (R321). -/
  | seamDataFlit (l : Nat) (fec : Bool) (flit : Bytes)
  /-- SEAM_CTRL_FLIT (R320). -/
  | seamCtrlFlit (l : Nat) (flit : CtrlFlit)
  /-- SEAM_ACK_TIMEOUT (R322). -/
  | seamAckTimeout (l : Nat)
  /-- SEAM_LANE_FAULT (R323). -/
  | seamLaneFault (l : Nat)
  /-- SEAM_SER_WINDOW (R323). -/
  | seamSerWindow (l : Nat)
  /-- SEAM_RETRAIN_WRITE (R323). -/
  | seamRetrainWrite (who : Nat) (l : Nat) (val : Word)
  /-- SEAM_REWIDEN_WRITE (R323). -/
  | seamRewidenWrite (who : Nat) (l : Nat) (val : Word)
  /-- SEAM_ENABLE_WRITE (R325). -/
  | seamEnableWrite (who : Nat) (l : Nat) (val : Word) (cable : Bytes)
  /-- SEAM_TRAINED (R325). -/
  | seamTrained (l : Nat) (lanes : Nat)
  /-- SEAM_CHECK_DONE (R332). -/
  | seamCheckDone (l : Nat) (peer : SeamIdent)
  /-- SEAM_TRAIN_TIMEOUT (R325). -/
  | seamTrainTimeout (l : Nat)
  /-- SEAM_RETRAIN_TIMEOUT (R324). -/
  | seamRetrainTimeout (l : Nat)
  /-- SEAM_RETRY_INTERVAL (R324). -/
  | seamRetryInterval (l : Nat) (cable : Bytes)
  /-- SEAM_TRANSACTION (R340). -/
  | seamTransaction (l : Nat) (seq : Nat) (m : SeamMsg)
  /-- SEAM_TRANSACTION_ACK (R327). -/
  | seamTransactionAck (peer : Nat) (seq : Nat) (st : Nat)
  /-- SEAM_BUNDLE_TIMEOUT (R341). -/
  | seamBundleTimeout (peer : Nat)
  /-- TB_SKEW_SAMPLE (R337). -/
  | tbSkewSample (l : Nat)
  /-- FRAME_RECEIVE (R348). -/
  | frameReceive (m : Nat) (frame : Bytes)
  /-- POLICER_REFILL (R349). -/
  | policerRefill
  /-- PTP_MESSAGE (R480). -/
  | ptpMessage
  /-- PARSE_HANDOFF (R350). -/
  | parseHandoff
  /-- REORDER_RELEASE (R350). -/
  | reorderRelease (m : Nat)
  /-- STREAM_PLACE (R362). -/
  | streamPlace (st : Nat)
  /-- STREAM_RECORD_COMPLETE (R362). -/
  | streamRecordComplete (st : Nat)
  /-- CONSUMED_WRITE (R362). -/
  | consumedWrite (who : Nat) (st : Nat) (val : BitVec 64)
  /-- TENANT_MAP_WRITE (R355). -/
  | tenantMapWrite (who : Nat) (idx : Nat) (val : Word)
  /-- PROFILE_WRITE (R353). -/
  | profileWrite (who : Nat) (prof : Nat) (word : Nat) (val : Word)
  /-- ETH_ENABLE_WRITE (R346). -/
  | ethEnableWrite (who : Nat) (p : Nat) (val : Word) (moduleOk : Bool)
  /-- MAC_LINK_CHANGE (R345). -/
  | macLinkChange (m : Nat) (up : Bool)
  /-- FRAME_TRANSMIT (R366). -/
  | frameTransmit (m : Nat)
  /-- SHAPER_REFILL (R367). -/
  | shaperRefill (m : Nat)
  /-- GATE_INTERVAL_END (R368). -/
  | gateIntervalEnd (m : Nat)
  /-- FT_WRITE (R379). -/
  | ftWrite
  /-- FT_READ (R385). -/
  | ftRead
  /-- FT_SEND (R387). -/
  | ftSend
  /-- FT_ATOMIC (R386). -/
  | ftAtomic
  /-- FT_SIGNAL (R388). -/
  | ftSignal
  /-- FT_PACKET_SEND (R382). -/
  | ftPacketSend (m : Nat)
  /-- FT_RX_WRITE (R384). -/
  | ftRxWrite
  /-- FT_RX_READ (R385). -/
  | ftRxRead
  /-- FT_RX_READ_RESP (R385). -/
  | ftRxReadResp
  /-- FT_RX_SEND (R387). -/
  | ftRxSend
  /-- FT_RX_ATOMIC (R386). -/
  | ftRxAtomic
  /-- FT_RX_ATOMIC_RESP (R386). -/
  | ftRxAtomicResp
  /-- FT_RX_ACK (R389). -/
  | ftRxAck
  /-- FT_RX_NAK (R390). -/
  | ftRxNak
  /-- FT_RX_CLOSE (R392). -/
  | ftRxClose
  /-- FT_RX_SIGNAL (R388). -/
  | ftRxSignal
  /-- FT_ACK_TIMER (R389). -/
  | ftAckTimer (src : Nat) (msg : Nat)
  /-- FT_RTO_EXPIRY (R390). -/
  | ftRtoExpiry (m : Nat) (pkt : Nat)
  /-- FT_RETRY_LIMIT (R391). -/
  | ftRetryLimit (m : Nat)
  /-- FT_ENTRY_IDLE_ABORT (R392). -/
  | ftEntryIdleAbort (src : Nat) (msg : Nat)
  /-- FT_ENTRY_LINGER (R392). -/
  | ftEntryLinger (src : Nat) (msg : Nat)
  /-- FT_CLOSE_AGE_EXPIRY (R392). -/
  | ftCloseAgeExpiry (src : Nat) (msg : Nat)
  /-- FT_RATE_INCREASE (R394). -/
  | ftRateIncrease (b : Nat)
  /-- FT_BUCKET_IDLE (R394). -/
  | ftBucketIdle (b : Nat)
  /-- STO_DOORBELL_WRITE (R404). -/
  | stoDoorbellWrite (who : Nat) (qi : Nat) (word : Nat) (val : Word)
  /-- STO_READ (R410). -/
  | stoRead
  /-- STO_WRITE (R411). -/
  | stoWrite
  /-- STO_FLUSH (R410). -/
  | stoFlush
  /-- STO_TRIM (R410). -/
  | stoTrim
  /-- STO_ATOMIC_WRITE (R412). -/
  | stoAtomicWrite
  /-- STO_SELF_TEST (R414). -/
  | stoSelfTest
  /-- STO_POWER (R416). -/
  | stoPower
  /-- NVME_COMMAND_COMPLETE (R410). -/
  | nvmeCommandComplete (d : Replayed) (cid : Nat) (status : Nat) (data : Bytes)
  /-- NVME_COMMAND_TIMEOUT (R400). -/
  | nvmeCommandTimeout (d : Nat) (cid : Nat)
  /-- DRIVE_READY_TIMEOUT (R400). -/
  | driveReadyTimeout (d : Nat)
  /-- DRIVE_PRESENCE_CHANGE (R399). -/
  | drivePresenceChange (d : Nat) (ident : Option DriveId)
  /-- SELF_TEST_RESTART (R415). -/
  | selfTestRestart (d : Nat)
  /-- SELF_TEST_LIMIT (R415). -/
  | selfTestLimit (take : Nat)
  /-- APST_WRITE (R416). -/
  | apstWrite (who : Nat) (d : Nat) (val : Word)
  /-- BAR2_READ (R428). -/
  | bar2Read (p : Nat) (v : Nat) (off : Nat) (len : Nat)
  /-- BAR2_WRITE (R428). -/
  | bar2Write (p : Nat) (v : Nat) (off : Nat) (data : Bytes)
  /-- XLAT_ENTRY_WRITE (R427). -/
  | xlatEntryWrite (who : Nat) (i : Nat) (e : Nat) (val : BitVec 64)
  /-- BUS_MASTER_ENABLE_CHANGE (R430). -/
  | busMasterEnableChange (i : Nat) (on : Bool)
  /-- MEMORY_SPACE_ENABLE_CHANGE (R430). -/
  | memorySpaceEnableChange (i : Nat) (on : Bool)
  /-- UPSTREAM_COMPLETION (R430). -/
  | upstreamCompletion (i : Replayed) (addr : Nat) (data : Bytes) (ok : Bool)
  /-- UPSTREAM_TIMEOUT (R430). -/
  | upstreamTimeout (i : Nat) (addr : Nat) (len : Nat)
  /-- FUNCTION_LEVEL_RESET (R431). -/
  | functionLevelReset (i : Nat)
  /-- HOST_PORT_RESET (R432). -/
  | hostPortReset (p : Nat)
  /-- DL_DOWN (R432). -/
  | dlDown (p : Nat)
  /-- PCIE_CONFIG_REQUEST (R422). -/
  | pcieConfigRequest (p : Nat)
  /-- PERST_CHANGE (R515). -/
  | perstChange (p : Nat) (high : Bool)
  /-- TEN_PORT_WRITE (R437). -/
  | tenPortWrite (who : Nat) (val : Word)
  /-- HEARTBEAT_EXPIRY (R434). -/
  | heartbeatExpiry (i : Nat)
  /-- SECURITY_ALARM (R464). -/
  | securityAlarm (cause : Nat)
  /-- RNG_HEALTH_FAIL (R448). -/
  | rngHealthFail
  /-- JTAG_TAP_ACCESS (R465). -/
  | jtagTapAccess (idcode : Bool)
  /-- COLD_RESET (R481). -/
  | coldReset (pin : Nat)
  /-- STARTUP_STEP_DONE (R484). -/
  | startupStepDone (ok : Bool) (straps : Nat) (board : Bytes) (fitted : Scan) (idents : List Bytes) (cables : List Bytes) (trained : Nat) (drives : List (Option DriveId))
  /-- POWER_GOOD_FALL (R469). -/
  | powerGoodFall
  /-- WARM_RESET (R483). -/
  | warmReset (src : Nat)
  /-- PM_SAMPLE (R473). -/
  | pmSample (watts : Nat) (cd0 : Int) (cd1 : Int) (idc : Int)
  /-- FREQUENCY_SWITCH (R472). -/
  | frequencySwitch (mhz : Nat) (mv : Nat) (ack : Bool)
  /-- THERMAL_CLAMP (R473). -/
  | thermalClamp (deg : Int)
  /-- CLAMP_RELEASE (R473). -/
  | clampRelease (cool : Nat)
  /-- THERMAL_TRIP (R473). -/
  | thermalTrip (deg : Int)
  /-- LODE_IDLE_EXIT (R487). -/
  | lodeIdleExit (n : Nat)
  /-- LOG_RING_WRITE (R498). -/
  | logRingWrite (i : Nat)
  /-- LOG_HEAD_WRITE (R498). -/
  | logHeadWrite (who : Nat) (i : Nat) (val : Word)
  /-- SIDEBAND_RECORD_READ (R499). -/
  | sidebandRecordRead (off : Nat)
  /-- EXPORT_PACKET_SEND (R500). -/
  | exportPacketSend
  /-- MSI_X_UNMASK (R188). -/
  | msiXUnmask (i : Nat) (vec : Nat)
  /-- PCIE_LINK_UP (R484). -/
  | pcieLinkUp (p : Nat) (speed : Nat) (width : Nat)
  /-- ENTROPY_START_UP_TESTS_PASS (R448). -/
  | entropyStartUpTestsPass
  /-- ENTROPY_WAIT_TIMEOUT (R448). -/
  | entropyWaitTimeout (id : Nat)
  /-- DEVICE_SELF_TEST_COMPLETE (R410). -/
  | deviceSelfTestComplete (d : Nat) (result : Nat)
  /-- DRIVE_READY (R400). -/
  | driveReady (d : Nat)
  deriving DecidableEq, Repr

end Sys2Proof
end

