-- ==== Sys2Proof/Decode.lean ====
section
/-! DEFINITION. The table of commands gives no row any bits: commands are operations and events, not encoded words. -/
namespace Sys2Proof

/-- The command that a word spells by the bits spec/opcode_table.json gives. It gives none to any row. -/
def decodeTableWord (_nbits _w : Nat) : Option Instr := none

end Sys2Proof
end

