-- ==== Sys2Proof/Machine/Bits.lean ====
section
/-! DEFINITION. Bit fields, byte order (R4, R5), sign extension and the sparse tables' operations. -/
namespace Sys2Proof.Machine

/-- The value a table holds at a key; `d` where it lists none. -/
def tget {α : Type} (d : α) : Tbl α → Nat → α
  | [], _ => d
  | (k0, v0) :: t, k => if k = k0 then v0 else tget d t k

/-- Drop a key from a table. -/
def tdel {α : Type} (t : Tbl α) (k : Nat) : Tbl α := t.filter (fun e => e.1 ≠ k)

/-- Insert an entry before the first greater key. -/
def tins {α : Type} : Tbl α → Nat → α → Tbl α
  | [], k, v => [(k, v)]
  | (k0, v0) :: t, k, v => if k < k0 then (k, v) :: (k0, v0) :: t else (k0, v0) :: tins t k v

/-- Store a value at a key, keeping the table's canonical form: storing the default removes the entry. -/
def tput {α : Type} [DecidableEq α] (d : α) (t : Tbl α) (k : Nat) (v : α) : Tbl α :=
  if v = d then tdel t k else tins (tdel t k) k v

/-- Change the value at a key by a function. -/
def tmod {α : Type} [DecidableEq α] (d : α) (t : Tbl α) (k : Nat) (f : α → α) : Tbl α :=
  tput d t k (f (tget d t k))

/-- Drop every entry whose key satisfies `p`: those keys then read as the default. -/
def tdrop {α : Type} (t : Tbl α) (p : Nat → Bool) : Tbl α := t.filter (fun e => !p e.1)

/-- The canonical form: keys at `lo` or above, strictly rising, no entry equal to the default. -/
def twf {α : Type} [DecidableEq α] (d : α) : Nat → Tbl α → Bool
  | _, [] => true
  | lo, (k, v) :: t => decide (lo ≤ k) && decide (v ≠ d) && twf d (k + 1) t

/-- Bits `h` down to `l` of a number (R4). -/
def bits (x h l : Nat) : Nat := (x >>> l) % 2 ^ (h + 1 - l)

/-- Bit `i` of a number (R4). -/
def bit (x i : Nat) : Bool := (x >>> i) % 2 == 1

/-- A number with bits `h` down to `l` replaced by `v`. -/
def putBits (x h l v : Nat) : Nat :=
  x - bits x h l * 2 ^ l + (v % 2 ^ (h + 1 - l)) * 2 ^ l

/-- The number that a string of bytes holds, little-endian (R5). -/
def leNat : Bytes → Nat
  | [] => 0
  | b :: t => b.toNat + 256 * leNat t

/-- The big-endian reading, for the fields of published wire formats (R5). -/
def beNat (bs : Bytes) : Nat := leNat bs.reverse

/-- `n` bytes of a number, little-endian (R5). -/
def leBytes : Nat → Nat → Bytes
  | 0, _ => []
  | n + 1, v => BitVec.ofNat 8 v :: leBytes n (v / 256)

/-- `n` bytes of a number, big-endian. -/
def beBytes (n v : Nat) : Bytes := (leBytes n v).reverse

/-- `n` zero bytes. -/
def zeros (n : Nat) : Bytes := List.replicate n 0

/-- `n` bytes of a string from offset `o`; bytes past the end read zero. -/
def slice (bs : Bytes) (o n : Nat) : Bytes :=
  let r := (bs.drop o).take n
  r ++ zeros (n - r.length)

/-- The little-endian field of `n` bytes at offset `o` of a structure. -/
def fld (bs : Bytes) (o n : Nat) : Nat := leNat (slice bs o n)

/-- A string of exactly `n` bytes: cut or padded with zeros. -/
def fit (n : Nat) (bs : Bytes) : Bytes := slice bs 0 n

/-- Every byte of the string is zero. -/
def allZero (bs : Bytes) : Bool := bs.all (· == 0)

/-- Replace the bytes at offset `o`. -/
def splice (bs : Bytes) (o : Nat) (v : Bytes) : Bytes := bs.take o ++ v ++ bs.drop (o + v.length)

/-- The signed value of the low `w` bits. -/
def sext (w x : Nat) : Int :=
  let y := x % 2 ^ w
  if y < 2 ^ (w - 1) then (y : Int) else (y : Int) - (2 ^ w : Nat)

/-- The low `w` bits of a two's complement integer. -/
def wrapInt (w : Nat) (x : Int) : Nat := (x % ((2 ^ w : Nat) : Int)).toNat

/-- A count that stops at `max`. -/
def satAdd (max x n : Nat) : Nat := if x + n > max then max else x + n

/-- A value forced into a range. -/
def clampNat (lo hi x : Nat) : Nat := if x < lo then lo else if x > hi then hi else x

def clampInt (lo hi x : Int) : Int := if x < lo then lo else if x > hi then hi else x

/-- Round a quotient up. -/
def ceilDiv (a b : Nat) : Nat := (a + b - 1) / b

/-- The position of the highest set bit plus one; 0 of zero. -/
def bitLen (x : Nat) : Nat := if x = 0 then 0 else Nat.log2 x + 1

/-- Rotate the low 32 bits left. -/
def rotl32 (x n : Nat) : Nat :=
  let y := x % 2 ^ 32
  ((y <<< n) ||| (y >>> (32 - n))) % 2 ^ 32

/-- The bytes of memory at an address, an unlisted byte reading `0`. -/
def memRead (m : Tbl Byte) (a n : Nat) : Bytes := (List.range n).map fun i => tget 0 m (a + i)

/-- Store bytes at an address. -/
def memWrite : Tbl Byte → Nat → Bytes → Tbl Byte
  | m, _, [] => m
  | m, a, b :: t => memWrite (tput 0 m a b) (a + 1) t

/-- Zero a range of memory. -/
def memZero (m : Tbl Byte) (a n : Nat) : Tbl Byte := tdrop m fun k => a ≤ k && k < a + n

/-- One step of a reflected CRC over one byte. -/
def crcByte (poly : Nat) (c : Nat) (b : Byte) : Nat :=
  (List.range 8).foldl (fun c _ => if c % 2 = 1 then (c / 2) ^^^ poly else c / 2) (c ^^^ b.toNat)

/-- CRC-32C (Castagnoli), reflected, initial value and final XOR all ones. -/
def crc32c (bs : Bytes) : Nat := (bs.foldl (crcByte 0x82F63B78) 0xFFFFFFFF) ^^^ 0xFFFFFFFF

/-- CRC-32 of IEEE 802.3, reflected, initial value and final XOR all ones. -/
def crc32 (bs : Bytes) : Nat := (bs.foldl (crcByte 0xEDB88320) 0xFFFFFFFF) ^^^ 0xFFFFFFFF

/-- Replace the element at a position of a list; no change past its end. -/
def lset {α : Type} (l : List α) (i : Nat) (v : α) : List α := l.set i v

/-- The first element a test accepts with its place taken out: the element and the rest. -/
def takeFirst {α : Type} (p : α → Bool) : List α → Option (α × List α)
  | [] => none
  | x :: t => if p x then some (x, t) else (takeFirst p t).map fun (y, r) => (y, x :: r)

/-- Replace every element a test accepts by a function of it. -/
def lmod {α : Type} (p : α → Bool) (f : α → α) (l : List α) : List α := l.map fun x => if p x then f x else x

end Sys2Proof.Machine
end

