-- ==== Sys2Proof/Machine/Grains.lean ====
section
/-! DEFINITION. Number formats, grain sums, tallies, conversions and the counter-based generator (chapter 02, R46 to R74). All
arithmetic is exact: a finite value is an integer times a power of two. -/
namespace Sys2Proof.Machine

open Sys2Proof

/-- A decoded element: a finite value `m × 2^e`, an infinity, or a NaN (R49, R54). -/
inductive El where
  | fin (m e : Int) | inf (neg : Bool) | nan
  deriving DecidableEq, Repr

/-- A floating-point element layout (R49, R54): exponent width, mantissa width, bias. -/
structure Lay where
  ew   : Nat
  mw   : Nat
  bias : Nat
  deriving DecidableEq, Repr

def layE4M3 : Lay := ⟨4, 3, 7⟩
def layE5M2 : Lay := ⟨5, 2, 15⟩
def layE2M3 : Lay := ⟨2, 3, 1⟩
def layE3M2 : Lay := ⟨3, 2, 3⟩
def layE2M1 : Lay := ⟨2, 1, 1⟩
def layBF16 : Lay := ⟨8, 7, 127⟩
def layFP16 : Lay := ⟨5, 10, 15⟩
def layFP32 : Lay := ⟨8, 23, 127⟩

/-- The value of a finite code (R50): `m × 2^e` with the exponents kept as they stand. -/
def layVal (l : Lay) (x : Nat) : El :=
  let m := x % 2 ^ l.mw
  let ex := (x >>> l.mw) % 2 ^ l.ew
  let neg := bit x (l.ew + l.mw)
  let mag : Nat := if ex = 0 then m else 2 ^ l.mw + m
  let e : Int := (if ex = 0 then 1 else (ex : Int)) - l.bias - l.mw
  .fin (if neg then -(mag : Int) else mag) e

/-- An IEEE-style code: the top exponent holds infinities and NaNs (E5M2, BF16, FP16, FP32). -/
def ieeeVal (l : Lay) (x : Nat) : El :=
  if (x >>> l.mw) % 2 ^ l.ew = 2 ^ l.ew - 1 then
    if x % 2 ^ l.mw = 0 then .inf (bit x (l.ew + l.mw)) else .nan
  else layVal l x

/-- Format codes of R46. -/
def fmtWidth (f : Nat) : Nat :=
  match f with
  | 0 | 1 | 6 | 8 => 8
  | 2 | 3 => 6
  | 4 | 5 | 7 => 4
  | 9 | 10 => 16
  | 11 => 32
  | _ => 128

/-- A format with grain scales (R46). -/
def isGrain (f : Nat) : Bool := decide (f ≤ 7)

/-- A grain format that may be an output (R46: every one but G4F). -/
def isGrainOut (f : Nat) : Bool := isGrain f && f != 5

/-- Legal as A or B input, and legal as output (R46). -/
def fmtIn (f : Nat) : Bool := decide (f ≤ 11)
def fmtOut (f : Nat) : Bool := decide (f ≤ 12) && f != 5 && f != 8

/-- Bytes of a grain of 32 elements, and of a scale-array entry (R52, R53). -/
def grainBytes (f : Nat) : Nat := 4 * fmtWidth f
def scaleBytes (f : Nat) : Nat := if f = 5 then 4 else if isGrain f then 1 else 0

/-- An element's value before its scale (R49 to R51, R54). -/
def elemVal (f x : Nat) : El :=
  match f with
  | 0 => if x % 128 = 127 then .nan else layVal layE4M3 x
  | 1 => ieeeVal layE5M2 x
  | 2 => layVal layE2M3 x
  | 3 => layVal layE3M2 x
  | 4 | 5 => layVal layE2M1 x
  | 6 | 8 => .fin (sext 8 x) 0
  | 7 => .fin (sext 4 x) 0
  | 9 => ieeeVal layBF16 x
  | 10 => ieeeVal layFP16 x
  | _ => ieeeVal layFP32 x

/-- Apply a power of two. -/
def El.scale (k : Int) : El → El
  | .fin m e => .fin m (e + k)
  | x => x

/-- The elements of a grain (R47, R48, R51, R53): packed bits and its scale entry, as 32 values. -/
def grainVals (f : Nat) (blk sc : Bytes) : List El :=
  let v := leNat blk
  let w := fmtWidth f
  let e := fld sc 0 1
  (List.range 32).map fun i =>
    let x := (v >>> (i * w)) % 2 ^ w
    if isGrain f then
      if e = 255 then .nan
      else (elemVal f x).scale ((e : Int) - 127 - if f = 5 then (bits (leNat sc) (8 + 4 * (i / 8) + 3) (8 + 4 * (i / 8)) : Int) else 0)
    else elemVal f x

/-- The tag bits of R59. -/
def tagNan : Nat := 1
def tagPinf : Nat := 2
def tagNinf : Nat := 4
def tagSat : Nat := 8

/-- Exact addition of `m × 2^e` values. -/
def dyAdd (a b : Int × Int) : Int × Int :=
  if a.1 = 0 then b else if b.1 = 0 then a
  else
    let e := min a.2 b.2
    (a.1 * 2 ^ (a.2 - e).toNat + b.1 * 2 ^ (b.2 - e).toNat, e)

/-- One product: its exact value and its tag bits (R56, R59). -/
def prodEl (a b : El) : (Int × Int) × Nat :=
  match a, b with
  | .nan, _ | _, .nan => ((0, 0), tagNan)
  | .fin m e, .fin n f => ((m * n, e + f), 0)
  | .inf s, .inf t => ((0, 0), if s = t then tagPinf else tagNinf)
  | .inf s, .fin m _ | .fin m _, .inf s =>
    ((0, 0), if m = 0 then tagNan else if s = decide (m < 0) then tagPinf else tagNinf)

/-- The grain sum G and the tag bits of its 32 products (R56, R59). -/
def grainSum (a b : List El) : (Int × Int) × Nat :=
  (a.zip b).foldl (fun (g, t) (x, y) => let (v, k) := prodEl x y; (dyAdd g v, t ||| k)) ((0, 0), 0)

/-- `n / 2^k` rounded to the nearest integer, a tie to even. -/
def rneNat (n k : Nat) : Nat :=
  let q := n >>> k
  let r := n % 2 ^ k
  if k = 0 then n else if 2 * r > 2 ^ k then q + 1 else if 2 * r = 2 ^ k then q + q % 2 else q

/-- The magnitude `n × 2^s` as an integer rounded by a function of the discarded part. -/
def rneInt (m : Int) (s : Int) : Int :=
  let n := m.natAbs
  let r : Nat := if s ≥ 0 then n * 2 ^ s.toNat else rneNat n (-s).toNat
  if m < 0 then -(r : Int) else r

/-- The term of R57: G rounded to an integer multiple of 2^a, and whether bits were discarded. -/
def term (g : Int × Int) (a : Int) : Int × Bool :=
  let s := g.2 - a
  (rneInt g.1 s, decide (s < 0) && decide (g.1.natAbs % 2 ^ (-s).toNat ≠ 0))

/-- A tally with its tag (R58, R59). -/
structure Tally where
  v   : BitVec 128 := 0
  tag : BitVec 4 := 0
  deriving DecidableEq, Repr

/-- Saturate an integer to a two's complement range of `w` bits: the value, and whether it left the range. -/
def satInt (w : Nat) (x : Int) : Int × Bool :=
  let hi : Int := (2 ^ (w - 1) : Nat) - 1
  let lo : Int := -(2 ^ (w - 1) : Nat)
  if x > hi then (hi, true) else if x < lo then (lo, true) else (x, false)

/-- Add an integer to a tally (R58, R60): out of range it saturates, sets SAT and stays. -/
def Tally.add (t : Tally) (x : Int) : Tally :=
  if t.tag.getLsbD 3 then t
  else
    let (v, o) := satInt 128 (t.v.toInt + x)
    { v := BitVec.ofInt 128 v, tag := if o then t.tag ||| 8 else t.tag }

def Tally.orTag (t : Tally) (k : Nat) : Tally := { t with tag := t.tag ||| BitVec.ofNat 4 k }

/-- The class of a tally's value (R59): NaN, an infinity, or the finite T × 2^a. -/
def Tally.el (t : Tally) (a : Int) : El :=
  if t.tag.getLsbD 0 || (t.tag.getLsbD 1 && t.tag.getLsbD 2) then .nan
  else if t.tag.getLsbD 1 then .inf false
  else if t.tag.getLsbD 2 then .inf true
  else .fin t.v.toInt a

/-! ### Conversions (R67 to R73) -/

/-- Rounding of a magnitude `n × 2^(-k)`: half to even, or the upper neighbour when the draw is below the fraction
(R72). -/
inductive Rnd where
  | even | stoch (r : Nat)
  deriving DecidableEq, Repr

def rndNat (md : Rnd) (n k : Nat) : Nat :=
  match md with
  | .even => rneNat n k
  | .stoch r => (n >>> k) + if r < (n % 2 ^ k) * 2 ^ 32 / 2 ^ k then 1 else 0

/-- The magnitude `n × 2^e` rounded to an integer. -/
def rndMag (md : Rnd) (n : Nat) (e : Int) : Nat := if e ≥ 0 then n * 2 ^ e.toNat else rndNat md n (-e).toNat

/-- A finite magnitude on a layout's grid, its exponent unbounded above: significand k and the exponent of its unit. -/
def gridRound (l : Lay) (md : Rnd) (n : Nat) (e : Int) : Nat × Int :=
  let emin : Int := 1 - (l.bias : Int)
  let top : Int := (bitLen n : Int) - 1 + e
  let q := max top emin - l.mw
  (rndMag md n (e - q), q)

/-- The code of `k × 2^q` on a layout's grid, and whether its exponent is above the layout's top. -/
def gridCode (l : Lay) (k : Nat) (q : Int) : Nat × Bool :=
  if k < 2 ^ l.mw then (k, false)
  else
    let (k, q) := if k = 2 ^ (l.mw + 1) then (2 ^ l.mw, q + 1) else (k, q)
    let ex := (q + l.mw + l.bias).toNat
    (ex * 2 ^ l.mw + (k - 2 ^ l.mw), decide (2 ^ l.ew ≤ ex))

/-- The flags of a conversion: OUT_SAT, SCALE_CLAMP (R67, R68). -/
structure CFlags where
  outSat : Bool := false
  clamp  : Bool := false
  deriving DecidableEq, Repr

def CFlags.or (a b : CFlags) : CFlags := ⟨a.outSat || b.outSat, a.clamp || b.clamp⟩

/-- Convert a value to FP32, BF16 or FP16 (R67, R69). -/
def toIeee (l : Lay) (nanCode : Nat) (sat : Bool) (md : Rnd) (x : El) : Nat × Bool :=
  let inf := (2 ^ l.ew - 1) * 2 ^ l.mw
  let sgn (neg : Bool) : Nat := if neg then 2 ^ (l.ew + l.mw) else 0
  match x with
  | .nan => (nanCode, false)
  | .inf neg => (sgn neg + inf, false)
  | .fin m e =>
    if m = 0 then (0, false)
    else
      let neg := decide (m < 0)
      let (k, q) := gridRound l md m.natAbs e
      let (c, big) := gridCode l k q
      if big || decide (inf ≤ c) then (sgn neg + (if sat then inf - 1 else inf), true) else (sgn neg + c, false)

/-- Convert to an IEEE-style format code: FP32, BF16 or FP16. -/
def toFmt (f : Nat) (sat : Bool) (md : Rnd) (x : El) : Nat × Bool :=
  match f with
  | 9 => toIeee layBF16 0x7FC0 sat md x
  | 10 => toIeee layFP16 0x7E00 sat md x
  | _ => toIeee layFP32 0x7FC00000 sat md x

/-- Emax of a grain format's elements (R49, R68). -/
def grainEmax (f : Nat) : Int :=
  match f with
  | 0 => 8 | 1 => 15 | 2 => 2 | 3 => 4 | 4 => 2 | 6 => 6 | _ => 2

/-- The largest code magnitude of a floating-point grain element (R49). -/
def grainMaxCode (f : Nat) : Nat :=
  match f with
  | 0 => 0x7E | 1 => 0x7B | 2 => 0x1F | 3 => 0x1F | _ => 0x7

def grainLay (f : Nat) : Lay :=
  match f with
  | 0 => layE4M3 | 1 => layE5M2 | 2 => layE2M3 | 3 => layE3M2 | _ => layE2M1

/-- One element of a grain output: the value over the scale, rounded, limited (R68 steps 4 and 5). -/
def grainElem (f : Nat) (md : Rnd) (m : Int) (e : Int) : Nat × Bool :=
  if m = 0 then (0, false)
  else
    let neg := decide (m < 0)
    if f = 6 || f = 7 then
      let w := fmtWidth f
      let r : Int := rndMag md m.natAbs e
      let v := if neg then -r else r
      let (v, o) := satInt w v
      (wrapInt w v, o)
    else
      let l := grainLay f
      let (k, q) := gridRound l md m.natAbs e
      let (c, big) := gridCode l k q
      let o := big || decide (grainMaxCode f < c)
      let c := if o then grainMaxCode f else c
      (if c = 0 then 0 else c + if neg then 2 ^ (l.ew + l.mw) else 0, o)

/-- floor(log2) of a nonzero magnitude `n × 2^e`. -/
def floorLog2 (n : Nat) (e : Int) : Int := (bitLen n : Int) - 1 + e

/-- The larger of two magnitudes `n × 2^e`. -/
def magMax (a b : Nat × Int) : Nat × Int :=
  if a.1 = 0 then b else if b.1 = 0 then a
  else
    let e := min a.2 b.2
    if a.1 * 2 ^ (a.2 - e).toNat ≥ b.1 * 2 ^ (b.2 - e).toNat then a else b

/-- Pack 32 element codes of width w (R52). -/
def packCodes (w : Nat) (cs : List Nat) : Bytes :=
  leBytes (4 * w) ((cs.zipIdx).foldl (fun v (c, i) => v + c * 2 ^ (i * w)) 0)

/-- Convert 32 values to a grain: the scale byte, the block, and the flags (R68, R69). -/
def toGrain (f : Nat) (mds : List Rnd) (xs : List El) : Nat × Bytes × CFlags :=
  let w := fmtWidth f
  if xs.any (fun x => match x with | .fin _ _ => false | _ => true) then (255, zeros (4 * w), {})
  else
    let vals := xs.map fun x => match x with | .fin m e => (m, e) | _ => (0, 0)
    let top := (vals.map fun (m, e) => (m.natAbs, e)).foldl magMax (0, 0)
    if top.1 = 0 then (127, zeros (4 * w), {})
    else
      let s0 := floorLog2 top.1 top.2 - grainEmax f + 127
      let s := clampInt 0 254 s0
      let r := (vals.zip mds).map fun ((m, e), md) => grainElem f md m (e - (s - 127))
      (s.toNat, packCodes w (r.map (·.1)), ⟨r.any (·.2), decide (s ≠ s0)⟩)

/-- Narrow a tally to 64 bits under a higher anchor (R71). -/
def narrow (t : Tally) (shift : Nat) : Tally :=
  if t.tag.getLsbD 3 then { t with v := BitVec.ofInt 128 (satInt 64 (rneInt t.v.toInt (-(shift : Int)))).1 }
  else
    let (v, o) := satInt 64 (rneInt t.v.toInt (-(shift : Int)))
    { v := BitVec.ofInt 128 v, tag := if o then t.tag ||| 8 else t.tag }

/-! ### The generator (R74) -/

def mul32hi (a b : Nat) : Nat := (a * b) / 2 ^ 32 % 2 ^ 32
def mul32lo (a b : Nat) : Nat := (a * b) % 2 ^ 32

structure Crng where
  x0 : Nat
  x1 : Nat
  x2 : Nat
  x3 : Nat
  k0 : Nat
  k1 : Nat
  deriving DecidableEq, Repr

def crngRound (c : Crng) : Crng :=
  let a := (c.x0 + c.k0) % 2 ^ 32
  let b := c.x2 ^^^ c.k1
  let p := a * 0x6C8E9CF5
  let q := b * 0xA3B19535
  { x0 := rotl32 (c.x1 ^^^ (q / 2 ^ 32)) 11
    x1 := q % 2 ^ 32
    x2 := rotl32 (c.x3 ^^^ (p / 2 ^ 32)) 19
    x3 := p % 2 ^ 32
    k0 := (c.k0 + 0x5C3D8E27) % 2 ^ 32
    k1 := rotl32 c.k1 7 ^^^ 0x3A916BD3 }

def crngRounds : Nat → Crng → Crng
  | 0, c => c
  | n + 1, c => crngRounds n (crngRound c)

/-- The counter-based generator of R74: a 64-bit key and a 128-bit counter to 128 bits. -/
def crng (key ctr : Nat) : Nat :=
  let c := crngRounds 10 ⟨bits ctr 31 0, bits ctr 63 32, bits ctr 95 64, bits ctr 127 96, bits key 31 0, bits key 63 32⟩
  c.x0 + c.x1 * 2 ^ 32 + c.x2 * 2 ^ 64 + c.x3 * 2 ^ 96

/-- The draw of the output element at row i and column j, from the seed record (R73). -/
def drawAt (seed : Bytes) (i j : Nat) : Nat :=
  let row := (fld seed 16 4 + i) % 2 ^ 32
  let col := (fld seed 20 4 + j) % 2 ^ 32
  let v := crng (fld seed 0 8) (fld seed 8 8 * 2 ^ 64 + row * 2 ^ 32 + col / 4)
  bits v (32 * (col % 4) + 31) (32 * (col % 4))

/-! ### RANGE_SCAN (R64, R65) -/

/-- The bound exponent c of a grain format. -/
def boundExp (f : Nat) : Int :=
  match f with
  | 0 => 9 | 1 => 16 | 2 => 3 | 3 => 5 | 4 | 5 => 3 | 6 => 7 | _ => 3

/-- What a scan of one side finds: the largest scale other than 0xFF, the bound, and whether a NaN or an infinity was
seen. -/
structure ScanSide where
  smax  : Nat := 0
  bound : Int := -32768
  nan   : Bool := false
  inf   : Bool := false
  deriving DecidableEq, Repr

/-- Scan a grain side: its scale bytes. -/
def scanScales (f : Nat) (scs : List Nat) : ScanSide :=
  let live := scs.filter (· ≠ 255)
  let nan := decide (live.length ≠ scs.length)
  match live with
  | [] => { nan := nan }
  | _ => let m := live.foldl max 0
         { smax := m, bound := boundExp f + m - 127, nan := nan }

/-- Scan an IEEE side: x + 1 with x the largest unbiased exponent of a finite nonzero element, a subnormal at the
smallest normal exponent. -/
def scanElems (l : Lay) (xs : List Nat) : ScanSide :=
  xs.foldl (fun r x =>
    let ex := (x >>> l.mw) % 2 ^ l.ew
    let m := x % 2 ^ l.mw
    if ex = 2 ^ l.ew - 1 then (if m = 0 then { r with inf := true } else { r with nan := true })
    else if ex = 0 ∧ m = 0 then r
    else { r with bound := max r.bound ((if ex = 0 then 1 else (ex : Int)) - l.bias + 1) }) {}

/-- ceil(log2 n) for n at least 1. -/
def ceilLog2 (n : Nat) : Nat := bitLen (n - 1)

/-- The 16-byte result record of R65. -/
def scanRecord (kTotal : Nat) (a b : ScanSide) : Bytes :=
  let zero := decide (a.bound = -32768) || decide (b.bound = -32768)
  let e : Int := (ceilLog2 kTotal : Int) + a.bound + b.bound
  leBytes 2 (if zero then 0 else wrapInt 16 (e - 126)) ++ leBytes 2 (if zero then 0 else wrapInt 16 e)
    ++ leBytes 1 a.smax ++ leBytes 1 b.smax
    ++ leBytes 1 ((if a.nan || b.nan then 1 else 0) + (if a.inf || b.inf then 2 else 0) + (if zero then 4 else 0)) ++ zeros 1
    ++ leBytes 2 (wrapInt 16 a.bound) ++ leBytes 2 (wrapInt 16 b.bound) ++ zeros 4

end Sys2Proof.Machine
end

