-- ==== Sys2Proof/Machine/BeadUnits.lean ====
section
/-! DEFINITION. The functional units of a bead core as functions of their operands: ALU, MUL, VPU, SFU and CVT (R124, R125, R129 to
R132), with the flags each reports. -/
namespace Sys2Proof.Machine

open Sys2Proof

/-- The lanes of a vector register, lane 0 in the low bits. -/
def lanes (w n v : Nat) : List Nat := (List.range n).map fun i => (v >>> (w * i)) % 2 ^ w

/-- Lanes packed into a vector register. -/
def joinLanes (w : Nat) : List Nat → Nat
  | [] => 0
  | x :: t => x % 2 ^ w + 2 ^ w * joinLanes w t

/-! ### ALU and MUL (R124, R125) -/

/-- The ALU's result; none for an operation outside 0x0 to 0xF. -/
def aluOp (op a t : Nat) : Option Nat :=
  let sa := sext 32 a
  let st := sext 32 t
  let sh := t % 32
  match op with
  | 0x0 => some ((a + t) % 2 ^ 32)
  | 0x1 => some ((a + 2 ^ 32 - t) % 2 ^ 32)
  | 0x2 => some (a &&& t)
  | 0x3 => some (a ||| t)
  | 0x4 => some (a ^^^ t)
  | 0x5 => some (a &&& (t ^^^ 0xFFFFFFFF))
  | 0x6 => some ((a <<< sh) % 2 ^ 32)
  | 0x7 => some (a >>> sh)
  | 0x8 => some (wrapInt 32 (sa / (2 ^ sh : Nat)))
  | 0x9 => some (rotl32 a sh)
  | 0xA => some (if a = t then 1 else 0)
  | 0xB => some (if sa < st then 1 else 0)
  | 0xC => some (if a < t then 1 else 0)
  | 0xD => some (if sa < st then a else t)
  | 0xE => some (if sa < st then t else a)
  | 0xF => some t
  | _ => none

/-- The 64-bit product; none for an undefined operation. -/
def mulOp (op a t : Nat) : Option Nat :=
  match op with
  | 0 => some (a * t)
  | 1 => some (wrapInt 64 (sext 32 a * sext 32 t))
  | 2 => some (wrapInt 64 (sext 32 a * t))
  | _ => none

/-! ### Floating-point lanes with signed zeros (R130) -/

/-- A lane: its value, and its sign, which tells +0 from −0. -/
abbrev FLane := El × Bool

def laneLay (bf : Bool) : Lay := if bf then layBF16 else layFP32
def laneNan (bf : Bool) : Nat := if bf then 0x7FC0 else 0x7FC00000

def laneOf (bf : Bool) (x : Nat) : FLane := (ieeeVal (laneLay bf) x, bit x (if bf then 15 else 31))

/-- Round a lane once, half-to-even, keeping the sign of a zero. -/
def laneEnc (bf : Bool) (v : FLane) : Nat :=
  match v with
  | (.fin m e, n) => if m = 0 then (if n then 2 ^ (if bf then 15 else 31) else 0) else (toIeee (laneLay bf) (laneNan bf) false .even (.fin m e)).1
  | (x, _) => (toIeee (laneLay bf) (laneNan bf) false .even x).1

def laneSign (v : FLane) : Bool :=
  match v with
  | (.fin m _, n) => if m = 0 then n else decide (m < 0)
  | (.inf n, _) => n
  | (.nan, _) => false

def laneNeg (v : FLane) : FLane :=
  match v with
  | (.fin m e, n) => (.fin (-m) e, !n)
  | (.inf n, s) => (.inf (!n), !s)
  | x => x

/-- The sum: an exact zero is +0 unless both operands are −0. -/
def laneAdd (x y : FLane) : FLane :=
  match x, y with
  | (.nan, _), _ | _, (.nan, _) => (.nan, false)
  | (.inf a, _), (.inf b, _) => if a = b then (.inf a, a) else (.nan, false)
  | (.inf a, _), _ | _, (.inf a, _) => (.inf a, a)
  | (.fin m e, a), (.fin n f, b) =>
    let s := dyAdd (m, e) (n, f)
    (.fin s.1 s.2, decide (m = 0) && decide (n = 0) && a && b)

def laneMul (x y : FLane) : FLane :=
  let neg := laneSign x != laneSign y
  match x, y with
  | (.nan, _), _ | _, (.nan, _) => (.nan, false)
  | (.fin m e, _), (.fin n f, _) => (.fin (m * n) (e + f), neg)
  | (.fin m _, _), (.inf _, _) | (.inf _, _), (.fin m _, _) => if m = 0 then (.nan, false) else (.inf neg, neg)
  | (.inf _, _), (.inf _, _) => (.inf neg, neg)

/-- `x ≤ y` in the order in which +0 is larger than −0. -/
def laneLe (x y : FLane) : Bool :=
  match x, y with
  | (.inf true, _), _ => true
  | _, (.inf true, _) => false
  | _, (.inf false, _) => true
  | (.inf false, _), _ => false
  | (.fin m e, a), (.fin n f, b) =>
    if m = 0 ∧ n = 0 then a || !b else decide (0 ≤ (dyAdd (n, f) (-m, e)).1)
  | _, _ => true

def laneIsNan (v : FLane) : Bool := v.1 == .nan

def laneMax (x y : FLane) : FLane := if laneIsNan x || laneIsNan y then (.nan, false) else if laneLe x y then y else x
def laneMin (x y : FLane) : FLane := if laneIsNan x || laneIsNan y then (.nan, false) else if laneLe x y then x else y
def laneAbs (x : FLane) : FLane := if laneSign x then laneNeg x else x

/-- NAN_IN (2) and INF_IN (4) of BC[k].ARITH_STS for the values read. -/
def inFlags (xs : List El) : Nat :=
  (if xs.any (· == .nan) then 2 else 0) + if xs.any (fun x => match x with | .inf _ => true | _ => false) then 4 else 0

/-- The widest exponent layout result of a bead core unit: vector result, scalar result, flags. -/
structure UOut where
  v     : Option Nat := none
  s     : Option Nat := none
  flags : Nat := 0
  deriving DecidableEq, Repr

/-- Add neighbours, rounding each sum to FP32 (R130). -/
def pairSums : List FLane → List FLane
  | x :: y :: t => laneOf false (laneEnc false (laneAdd x y)) :: pairSums t
  | l => l

def treeSum : Nat → List FLane → List FLane
  | 0, l => l
  | n + 1, l => if l.length ≤ 1 then l else treeSum n (pairSums l)

/-- The VPU on 64 signed bytes. -/
def vpuI8 (op va vt : Nat) : UOut :=
  let a := (lanes 8 64 va).map (sext 8)
  let t := (lanes 8 64 vt).map (sext 8)
  let out (f : Int → Int → Int) : UOut :=
    { v := some (joinLanes 8 ((a.zip t).map fun (x, y) => wrapInt 8 (clampInt (-128) 127 (f x y)))) }
  match op with
  | 0 => out (· + ·)
  | 1 => out (· - ·)
  | 2 => out (· * ·)
  | 4 => out max
  | 5 => out min
  | 6 => out fun _ y => y.natAbs
  | 7 => { s := some (wrapInt 32 t.sum) }
  | _ => { s := some (wrapInt 32 (t.foldl max (-128))) }

/-- The VPU on floating-point lanes. -/
def vpuFloat (bf : Bool) (op va vc vt : Nat) : UOut :=
  let w := if bf then 16 else 32
  let n := 512 / w
  let t := (lanes w n vt).map (laneOf bf)
  let a := (lanes w n va).map (laneOf bf)
  let c := (lanes w n vc).map (laneOf bf)
  let seen := (if op = 3 then c else []) ++ (if op ≤ 5 then a else []) ++ t
  let fl := inFlags (seen.map (·.1))
  let out (f : FLane → FLane → FLane) : UOut :=
    { v := some (joinLanes w ((a.zip t).map fun (x, y) => laneEnc bf (f x y))), flags := fl }
  match op with
  | 0 => out laneAdd
  | 1 => out fun x y => laneAdd x (laneNeg y)
  | 2 => out laneMul
  | 3 => { v := some (joinLanes w (((a.zip t).zip c).map fun ((x, y), z) => laneEnc bf (laneAdd (laneMul x y) z))), flags := fl }
  | 4 => out laneMax
  | 5 => out laneMin
  | 6 => out fun _ y => laneAbs y
  | 7 => { s := some (laneEnc false ((treeSum 5 t).headD (.fin 0 0, false))), flags := fl }
  | _ => { s := some (laneEnc false (t.foldl laneMax (.inf true, true))), flags := fl }

/-- The VPU (R129, R130); none where VPU.OP raises BAD_OP. -/
def vpuOp (opw va vc vt : Nat) : Option UOut :=
  let op := opw % 16
  let ty := bits opw 5 4
  if opw >>> 6 ≠ 0 ∨ ty = 3 ∨ 12 ≤ op ∨ (op = 3 ∧ ty = 2) then none
  else match op with
    | 9 => some { v := some (va &&& vt) }
    | 10 => some { v := some (va ||| vt) }
    | 11 => some { v := some (va ^^^ vt) }
    | _ => some (if ty = 2 then vpuI8 op va vt else vpuFloat (ty == 1) op va vc vt)

/-! ### SFU (R131). EXP2 and LOG2 are computed to 128 bits and more below the result's leading bit, far beyond what any FP32
argument needs to decide the rounding (DEDUCED, log entry 10). -/

/-- The integer square root of a number below 4^b, bit by bit. -/
def isqrt (b n : Nat) : Nat :=
  (List.range b).reverse.foldl (fun r i => if (r + 2 ^ i) * (r + 2 ^ i) ≤ n then r + 2 ^ i else r) 0

/-- A value in [r, r + 1) × 2^e as an exact stand-in: r itself, or a point above it that rounds as the value does. -/
def stickyEl (r : Nat) (exact : Bool) (e : Int) : El := if exact then .fin r e else .fin (2 * r + 1) (e - 1)

/-- ln 2 in units of 2^-176. -/
def ln2Fix : Nat := ((List.range 200).map fun k => 2 ^ 200 / ((k + 1) * 2 ^ (k + 1))).sum / 2 ^ 24

/-- e^(y / 2^176) in units of 2^-176, by its series. (DEDUCED, log entry 10.) -/
def expFix (y : Nat) : Nat :=
  ((List.range 60).foldl (fun (s, t) k => let t := t * y / ((k + 1) * 2 ^ 176); (s + t, t)) (2 ^ 176, 2 ^ 176)).1

/-- 2^(m × 2^e). (DEDUCED, log entry 10.) -/
def exp2El (m e : Int) : El :=
  let x : Int := if e ≥ 0 then m * 2 ^ e.toNat else m
  let k : Nat := if e ≥ 0 then 0 else (-e).toNat
  let n : Int := x / (2 ^ k : Nat)
  let f : Nat := (x - n * (2 ^ k : Nat)).toNat
  if f = 0 then .fin 1 n else stickyEl (expFix (f * ln2Fix / 2 ^ k)) false (n - 176)

/-- The fraction bits of log2 of a number in [1, 2) in units of 2^-300, by repeated squaring. (DEDUCED, log entry 10.) -/
def log2Bits : Nat → Nat → Nat → Nat
  | 0, _, a => a
  | n + 1, y, a =>
    let z := y * y / 2 ^ 300
    if 2 ^ 301 ≤ z then log2Bits n (z / 2) (2 * a + 1) else log2Bits n z (2 * a)

/-- log2 of a positive m × 2^e. (DEDUCED, log entry 10.) -/
def log2El (m : Nat) (e : Int) : El :=
  let k := bitLen m - 1
  let c : Int := k + e
  if m = 2 ^ k then .fin c 0
  else
    let v : Int := c * (2 ^ 140 : Nat) + log2Bits 140 (m * 2 ^ (300 - k)) 0
    .fin (2 * v + 1) (-141)

/-- One SFU function of an FP32 code (R131). -/
def sfuOne (op x : Nat) : Nat :=
  let l := laneOf false x
  let enc (v : El) : Nat := (toIeee layFP32 0x7FC00000 false .even v).1
  match l.1 with
  | .nan => 0x7FC00000
  | .inf neg =>
    match op with
    | 0 => if neg then 0 else 0x7F800000
    | 1 => if neg then 0x7FC00000 else 0x7F800000
    | 2 => if neg then 0x80000000 else 0
    | _ => if neg then 0x7FC00000 else 0
  | .fin m e =>
    match op with
    | 0 =>
      if m = 0 then 0x3F800000
      else if floorLog2 m.natAbs e ≥ 8 then (if m < 0 then 0 else 0x7F800000)
      else enc (exp2El m e)
    | 1 => if m = 0 then 0xFF800000 else if m < 0 then 0x7FC00000 else enc (log2El m.natAbs e)
    | 2 =>
      if m = 0 then (if l.2 then 0xFF800000 else 0x7F800000)
      else
        let q := 2 ^ 80 / m.natAbs
        match stickyEl q (2 ^ 80 % m.natAbs == 0) (-80 - e) with
        | .fin r f => enc (.fin (if m < 0 then -r else r) f)
        | y => enc y
    | _ =>
      if m = 0 then (if l.2 then 0xFF800000 else 0x7F800000)
      else if m < 0 then 0x7FC00000
      else
        let (n, f) : Nat × Int := if e % 2 = 0 then (m.natAbs, e) else (2 * m.natAbs, e - 1)
        let q := 2 ^ 160 / n
        let r := isqrt 81 q
        enc (stickyEl r (r * r * n == 2 ^ 160) (-80 - f / 2))

/-- The SFU on a list of FP32 codes: results and flags; none for an undefined operation. -/
def sfuOp (op : Nat) (xs : List Nat) : Option (List Nat × Nat) :=
  if op ≤ 3 then some (xs.map (sfuOne op), inFlags (xs.map fun x => ieeeVal layFP32 x)) else none

/-! ### CVT (R132) -/

structure CvtOut where
  vq    : Nat
  vq2   : Nat
  sq    : Nat
  flags : Nat
  deriving DecidableEq, Repr

/-- CVT: its three results and its flags; none where CVT.OP raises BAD_OP. -/
def cvtOp (opw va sa ra rb vt : Nat) : Option CvtOut :=
  let fs := opw % 16
  let fd := bits opw 7 4
  let rnd := bits opw 9 8
  let sat := bit opw 10
  let ieee (f : Nat) : Bool := f == 9 || f == 10 || f == 11
  let legal := (ieee fs && (ieee fd || isGrainOut fd)) || ((isGrain fs || fs == 8) && ieee fd)
  if opw >>> 11 ≠ 0 ∨ 1 < rnd ∨ legal = false then none
  else
    let raws := if fs = 11 then lanes 32 16 va ++ lanes 32 16 vt else lanes 16 32 vt
    let vals : List El := if ieee fs then raws.map (elemVal fs)
      else grainVals fs (leBytes (grainBytes fs) vt) (leBytes (scaleBytes fs) sa)
    let fl := inFlags vals
    let rw := lanes 32 16 ra ++ lanes 32 16 rb
    let mds : List Rnd := if rnd = 1 then rw.map .stoch else vals.map fun _ => .even
    let place (f : Nat) (cs : List Nat) : Nat × Nat :=
      if f = 11 then (joinLanes 32 (cs.take 16), joinLanes 32 (cs.drop 16)) else (joinLanes 16 cs, 0)
    if fs = fd then
      let cs := (raws.zip vals).map fun (r, x) => if x = .nan then (toFmt fd false .even .nan).1 else r
      let (a, b) := place fd cs
      some ⟨a, b, 0, fl⟩
    else if isGrainOut fd then
      let (sc, blk, f) := toGrain fd mds vals
      some ⟨leNat blk, 0, sc, fl + (if f.outSat then 8 else 0) + if f.clamp then 16 else 0⟩
    else
      let cs := (vals.zip mds).map fun (x, md) => toFmt fd sat md x
      let (a, b) := place fd (cs.map (·.1))
      some ⟨a, b, 0, fl + if cs.any (·.2) then 8 else 0⟩

end Sys2Proof.Machine
end

