-- ==== Sys2Proof/Config.lean ====
section
/-! DEFINITION. What the spec leaves open, as constants with no body: values per part, free values, and the signature
function of a standard that the spec names and does not give. A statement holds whatever they are. -/
namespace Sys2Proof.Config

/-- GLB.PART_ID.SCREEN, per part: false the standard screen, true the extended screen (R1, R3). -/
opaque extendedScreen : Bool
/-- DEVICE_ID, per part: 128 bits (R446). -/
opaque deviceId : BitVec 128
/-- A byte of host memory that no completion has delivered: the host's, not the part's (R41). (DESIGN CHOICE, log entry 69.) -/
opaque hostByte : Nat → Byte
/-- A random value: draw number `n`, as a number (R448). (DESIGN CHOICE, log entry 114.) -/
opaque random : Nat → Nat
/-- A value the spec leaves open, by draw number. -/
opaque free : Nat → Nat
/-- The part's own PTP port identity of 10 bytes (R480). -/
opaque ptpIdentity : Bytes
/-- The outcome of a codeword with three or more wrong symbols, by draw number: 0 detected, 1 corrected to other data,
2 taken as a valid codeword (R306). (DESIGN CHOICE, log entry 83.) -/
opaque tripleOutcome : Nat → Nat
/-- The data such a codeword yields when it is not detected (R306). (DESIGN CHOICE, log entry 83.) -/
opaque tripleData : Nat → Bytes

/-- The hash of a source unit and a target page that deals transactions to links (R326). (DESIGN CHOICE, log entry 38.) -/
opaque seamHash : Nat → Nat → Nat
/-- The credits that a link grants its peer on a virtual channel: the depth of its receive buffers, which the spec does not give (R320,
R339). (DESIGN CHOICE, log entry 38.) -/
opaque seamCredit : Nat → Nat
/-- The key, the generation and the base address under which an engine names memory of a peer device where its command gives none, by
FDID and key or address (R274, R291). (DESIGN CHOICE, log entry 38.) -/
opaque peerKey : Nat → Nat → Nat
/-- The generation. (DESIGN CHOICE, log entry 38.) -/
opaque peerGen : Nat → Nat → Nat
/-- The base address. (DESIGN CHOICE, log entry 38.) -/
opaque peerBase : Nat → Nat → Nat

/-- What the security core reads from the bytes of an image slot, whose layout the spec does not give (R450, R451). (DESIGN CHOICE, log entry 90.) -/
opaque bootImage : Bytes → BootImage
/-- The boot flash as the board maker leaves it: the image slots, the active slot, the counters, the digest of owner key 0, the helper
record (R447, R449). -/
opaque flashImage : Nat → Bytes
opaque flashActive : Nat
opaque flashCounter : Nat → Nat
opaque flashOwner : Option Bytes
opaque helperRecord : Bytes
/-- The helper record that the part writes where it enrols itself afresh, by the draw that gives its seed (R447). -/
opaque enrolRecord : Nat → Bytes
/-- What a firmware processor's SRAMs hold once it has loaded its part of an image, whose layout the spec does not give (R242, R243).
(DESIGN CHOICE, log entry 90.) -/
opaque fwPart : Bytes → Nat → Bytes
/-- The digest of the security core's ROM (R453) and the part's identity public key of 2,592 bytes (R446, R454). -/
opaque romDigest : Bytes
opaque identityKey : Bytes

/-- ML-DSA-87 (FIPS 204): whether a signature of a message verifies under a public key, and the identity key's signature. (DESIGN CHOICE, log entry 114.) -/
opaque dsaOk : Bytes → Bytes → Bytes → Bool
opaque dsaSign : Bytes → Bytes

end Sys2Proof.Config
end

