-- ==== Sys2Proof/Machine/RegTable.lean ====
section
/-! DEFINITION. The register map: every register of the chapters' tables as one row, with its place, its access
types (R11) and its reset value, and the addresses of R39, R44, R79, R155, R182 and the chapters' bases. -/
namespace Sys2Proof.Machine

/-- The register blocks of R44, an instance list each (R10). -/
inductive Blk where
  | glb | hif | hifPort | hifFn | cmd | ckp | ckpIv | sync | pwr | clk | tb | tel | memc | hbmG | seam | seamG | eth | prs | tsc
  | ft | ftTen | ftBkt | drive | stoG | stoTen | stoVol | lode | me | bc
  deriving DecidableEq, Repr

/-- The registers, named block first. `mem…` is HBM[h] for instances 0 to 7 and LPX[m] for 8 + m (R317). -/
inductive Reg where
  | glbAlive | glbPartId | glbFwSts | glbFwRestarts | glbFwCause | glbSecSts | glbDeviceId | glbBootNonce
  | glbTokenSeq | glbTokenFail | glbBootSts | glbReset | hifCfg | hifTenPort | hifView | hifErr | hifPortSts
  | hifPortLinkDowns | hifPortReplay | hifSts | hifFnErr | hifApBase | hifWinEn | hifHb | hifFlrAborted
  | hifQp | cmdSession | cmdAdmq | cmdAdmqSq | cmdAdmqCq | cmdQerr | cmdErr | cmdErrQueue | cmdDevRange
  | cmdBundle | cmdWeight | ckpSts | ckpRank | ckpStepA | ckpStepB | ckpStageBase | ckpStageBytes | ckpErr
  | ckpIvTb | syncErr | syncDefTmo | syncEpoch | syncCtx | syncCtxLen | syncCtxTmo | syncCoreCtx | syncFnCtx
  | syncCnt | pwrSts | pwrErr | pwrLimit | pwrPower | pwrTemp | clkSts | tbCtrl | tbAdj | tbSts | tbNow
  | tbFrac | tbSyncLoad | tbStep | tbPtpOffset | errGlbSts | errFirst | errFirstCtl | errAlert | errFault
  | errBridgeCe | errBridgeUe | errPathSts | errPathDrop | errPathMerged | errPathAlarm | errTenFirst
  | errTenCtl | detCtrl | detSts | detVar | detRefusals | telTv | exportCtl | exportDip | exportPort
  | exportDmac | exportSmac | sidebandCtl | logHead | logTail | logClasses | memSts | memErr | memCe | memUe
  | memRetry | memUeAddr | memScrub | memRecal | memCeThresh | memInject | memRefresh | memRecalCount
  | segMode | hbmGerr | regionWin | seamCtrl | seamSts | seamPeerFdid | seamErr | seamReplay | seamRetrain
  | seamSkew | seamCrc | seamBoard | seamFdid | seamTbLimit | ethCtrl | ethSts | ethErr | ethRxDrop
  | ethErrCount | ethNoTenant | ethTxDenied | prsTmap | prsUntagged | prsProfile0 | prsProfile1 | prsProfileF
  | prsVersion | prsRxBase | prsRxSlots | prsRxDone | prsNomatch | prsRed | prsRxDrop | prsSlowDrop
  | strmSync | strmSts | strmOffset | strmRecords | strmConsumed | strmErr | strmDrops | tscQuantum | tscRate
  | tscBurst | tscGateSts | ftCtrl | ftUdpPort | ftPrefix6 | ftPrefix4 | ftMaxAge | ftRto | ftCc | ftRmin
  | ftSendUsed | ftRecvUsed | ftErr | ftRetx | ftRnr | ftRxBad | ftStale | ftCe | ftPath | ftDmac | ftSmac
  | ftTenCtrl | ftTenSts | ftBucket | driveCtrl | driveSts | driveErr | driveApstIdle | driveStRestarts
  | driveMedia | stoCtrl | stoSqTail | stoCqHead | stoTenSts | stoTenErr | volSts | volBlocks | lodeCtrl
  | lodeSts | lodeLock | lodeLockTb | lodeGcyc | lodeMvSts | lodeMvErr | strErr | strCe | strUeAddr
  | strConflict | strScrub | meCtrl | meSts | meLastSts | meErr | meBusy | meOpsDone | meArith
  | meLastInexact | meLastZero | bcCtrl | bcSts | bcStartPc | bcExcPc | bcExcInfo | bcExcAddr | bcErr
  | bcArith | bcIssue | bcStall
  deriving DecidableEq, Repr

/-- One row of the register map: the offset in its block, the stride and number of its copies, its width in words, the
masks of its RW, RW1C, RW1S and WO bits (R11), its reset value, and whether a read of bits [31:0] latches the
upper half (R14). Every other bit is RO or RSV. -/
structure RegRow where
  blk    : Blk
  off    : Nat
  stride : Nat
  count  : Nat
  words  : Nat
  rw     : Nat
  w1c    : Nat
  w1s    : Nat
  wo     : Nat
  reset  : Nat
  latch  : Bool
  deriving DecidableEq, Repr

/-- Block bases in BAR0 (R44, R79, R154, R155, R182, R189, R293, R317, R343, R370, R397, R420, R438, R490, R511). -/
def blkBase (b : Blk) (i : Nat) : Nat :=
  match b with
  | .glb => 0
  | .hif => 0x100000
  | .hifPort => 0x100100 + 0x40 * i
  | .hifFn => 0x101000 + 0x1000 * i
  | .cmd => 0x200000 + 0x1000 * i
  | .ckp => 0x240000 + 0x1000 * i
  | .ckpIv => 0x250000
  | .sync => 0x300000
  | .pwr => 0x400000
  | .clk => 0x401000
  | .tb => 0x402000
  | .tel => 0x500000
  | .memc => if i < 8 then 0x800000 + 0x10000 * i else 0x900000 + 0x1000 * (i - 8)
  | .hbmG => 0x880000
  | .seam => 0xA00000 + 0x1000 * i
  | .seamG => 0xA20000
  | .eth => 0xC00000 + 0x1000 * i
  | .prs => 0xC10000
  | .tsc => 0xC20000 + 0x1000 * i
  | .ft => 0xC80000
  | .ftTen => 0xC90000 + 0x1000 * i
  | .ftBkt => 0xCA0000
  | .drive => 0xE00000 + 0x1000 * i
  | .stoG => 0xE04000
  | .stoTen => 0xE10000 + 0x1000 * i
  | .stoVol => 0xE20000 + 16 * i
  | .lode => 0x1000000 + 0x40000 * i
  | .me => 0x1010000 + 0x40000 * (i / 2) + 0x1000 * (i % 2)
  | .bc => if i < 256 then 0x1020000 + 0x40000 * (i / 8) + 0x1000 * (i % 8) else 0x280000 + 0x1000 * (i - 256)

/-- The block, instance and inner offset that a BAR0 offset names; none where no block lies. -/
def blkOf (a : Nat) : Option (Blk × Nat × Nat) :=
  let inst (b : Blk) (base stride n : Nat) : Option (Blk × Nat × Nat) :=
    let i := (a - base) / stride
    if base ≤ a ∧ i < n then some (b, i, (a - base) % stride) else none
  if a < 0x100000 then some (.glb, 0, a)
  else if a < 0x200000 then
    (inst .hifPort 0x100100 0x40 2) <|> (inst .hifFn 0x101000 0x1000 18)
      <|> (if a < 0x100100 then some (.hif, 0, a - 0x100000) else none)
  else if a < 0x300000 then
    (inst .cmd 0x200000 0x1000 18) <|> (inst .ckp 0x240000 0x1000 16)
      <|> (if 0x250000 ≤ a ∧ a < 0x251000 then some (.ckpIv, 0, a - 0x250000) else none)
      <|> ((inst .bc 0x280000 0x1000 16).map fun (b, i, o) => (b, i + 256, o))
  else if a < 0x400000 then some (.sync, 0, a - 0x300000)
  else if a < 0x401000 then some (.pwr, 0, a - 0x400000)
  else if a < 0x402000 then some (.clk, 0, a - 0x401000)
  else if a < 0x500000 then some (.tb, 0, a - 0x402000)
  else if a < 0x600000 then some (.tel, 0, a - 0x500000)
  else if a < 0x800000 then none
  else if a < 0x880000 then inst .memc 0x800000 0x10000 8
  else if a < 0x900000 then some (.hbmG, 0, a - 0x880000)
  else if a < 0xA00000 then (inst .memc 0x900000 0x1000 4).map fun (b, i, o) => (b, i + 8, o)
  else if a < 0xC00000 then
    (inst .seam 0xA00000 0x1000 24) <|> (if 0xA20000 ≤ a then some (.seamG, 0, a - 0xA20000) else none)
  else if a < 0xC10000 then inst .eth 0xC00000 0x1000 8
  else if a < 0xC20000 then some (.prs, 0, a - 0xC10000)
  else if a < 0xC80000 then inst .tsc 0xC20000 0x1000 32
  else if a < 0xC90000 then some (.ft, 0, a - 0xC80000)
  else if a < 0xCA0000 then inst .ftTen 0xC90000 0x1000 16
  else if a < 0xE00000 then some (.ftBkt, 0, a - 0xCA0000)
  else if a < 0xE04000 then inst .drive 0xE00000 0x1000 4
  else if a < 0xE10000 then some (.stoG, 0, a - 0xE04000)
  else if a < 0xE20000 then inst .stoTen 0xE10000 0x1000 16
  else if a < 0x1000000 then inst .stoVol 0xE20000 16 1024
  else if a < 0x1800000 then
    let n := (a - 0x1000000) / 0x40000
    let o := (a - 0x1000000) % 0x40000
    if o < 0x10000 then some (.lode, n, o)
    else if o < 0x12000 then some (.me, 2 * n + (o - 0x10000) / 0x1000, o % 0x1000)
    else if 0x20000 ≤ o ∧ o < 0x28000 then some (.bc, 8 * n + (o - 0x20000) / 0x1000, o % 0x1000)
    else none
  else none

/-- The register tables of the chapters, one row per register. -/
def regRow : Reg → RegRow
  | .glbAlive => ⟨.glb, 0, 0, 1, 1, 0, 0, 0, 0, 0, false⟩  -- R3
  | .glbPartId => ⟨.glb, 4, 0, 1, 1, 0, 0, 0, 0, 0, false⟩  -- R3
  | .glbFwSts => ⟨.glb, 0x100, 0, 1, 1, 0, 0, 0, 0, 0, false⟩  -- R242
  | .glbFwRestarts => ⟨.glb, 0x104, 0, 1, 1, 0, 0, 0, 0, 0, false⟩  -- R243
  | .glbFwCause => ⟨.glb, 0x108, 0, 1, 1, 0, 0x80000000, 0, 0, 0, false⟩  -- R243
  | .glbSecSts => ⟨.glb, 0x200, 0, 1, 1, 0, 0x2001, 0, 0, 0, false⟩  -- R467
  | .glbDeviceId => ⟨.glb, 0x210, 4, 4, 1, 0, 0, 0, 0, 0, false⟩  -- R467
  | .glbBootNonce => ⟨.glb, 0x220, 0, 1, 2, 0, 0, 0, 0, 0, true⟩  -- R467
  | .glbTokenSeq => ⟨.glb, 0x228, 0, 1, 2, 0, 0, 0, 0, 0, true⟩  -- R467
  | .glbTokenFail => ⟨.glb, 0x230, 0, 1, 1, 0, 0, 0, 0, 0, false⟩  -- R467
  | .glbBootSts => ⟨.glb, 0x300, 0, 1, 1, 0, 0, 0, 0, 0, false⟩  -- R490
  | .glbReset => ⟨.glb, 0x304, 0, 1, 1, 0, 0, 0, 1, 0, false⟩  -- R490
  | .hifCfg => ⟨.hif, 0, 0, 1, 1, 0, 0, 0, 0, 0, false⟩  -- R438
  | .hifTenPort => ⟨.hif, 4, 0, 1, 1, 0xffff, 0, 0, 0, 0, false⟩  -- R438
  | .hifView => ⟨.hif, 8, 0, 1, 1, 0x1f, 0, 0, 0, 0, false⟩  -- R438
  | .hifErr => ⟨.hif, 0xc, 0, 1, 1, 0, 1, 0, 0, 0, false⟩  -- R438
  | .hifPortSts => ⟨.hifPort, 0, 0, 1, 1, 0, 0, 0, 0, 0, false⟩  -- R438
  | .hifPortLinkDowns => ⟨.hifPort, 4, 0, 1, 1, 0, 0, 0, 0, 0, false⟩  -- R438
  | .hifPortReplay => ⟨.hifPort, 8, 0, 1, 1, 0, 0, 0, 0, 0, false⟩  -- R438
  | .hifSts => ⟨.hifFn, 0, 0, 1, 1, 0, 0, 0, 0, 0, false⟩  -- R438
  | .hifFnErr => ⟨.hifFn, 4, 0, 1, 1, 0, 0x1f, 0, 0, 0, false⟩  -- R438
  | .hifApBase => ⟨.hifFn, 8, 0, 1, 2, 0xfffffc0000000, 0, 0, 0, 0, true⟩  -- R438
  | .hifWinEn => ⟨.hifFn, 0x10, 0, 1, 1, 0xffff, 0, 0, 0, 0, false⟩  -- R438
  | .hifHb => ⟨.hifFn, 0x14, 0, 1, 1, 0, 0, 0, 0, 0, false⟩  -- R438
  | .hifFlrAborted => ⟨.hifFn, 0x18, 0, 1, 1, 0, 0, 0, 0, 0, false⟩  -- R438
  | .hifQp => ⟨.hifFn, 0x100, 4, 64, 1, 0, 0, 0, 0, 0, false⟩  -- R438
  | .cmdSession => ⟨.cmd, 0, 0, 1, 1, 0, 0, 0, 0, 0, false⟩  -- R189
  | .cmdAdmq => ⟨.cmd, 4, 0, 1, 1, 0x7ff00f1, 0, 0, 0, 0x40, false⟩  -- R189
  | .cmdAdmqSq => ⟨.cmd, 8, 0, 1, 2, 0x3fffffffff000, 0, 0, 0, 0, false⟩  -- R189
  | .cmdAdmqCq => ⟨.cmd, 0x10, 0, 1, 2, 0x3fffffffff000, 0, 0, 0, 0, false⟩  -- R189
  | .cmdQerr => ⟨.cmd, 0x20, 0, 1, 2, 0, 0, 0, 0, 0, true⟩  -- R189
  | .cmdErr => ⟨.cmd, 0x28, 0, 1, 1, 0, 0x1f, 0, 0, 0, false⟩  -- R189
  | .cmdErrQueue => ⟨.cmd, 0x2c, 0, 1, 1, 0, 0x80000000, 0, 0, 0, false⟩  -- R189
  | .cmdDevRange => ⟨.cmd, 0x30, 0, 1, 1, 0, 0, 0, 0, 0x1000100, false⟩  -- R189
  | .cmdBundle => ⟨.cmd, 0x34, 0, 1, 1, 0, 0, 0, 0, 0, false⟩  -- R189
  | .cmdWeight => ⟨.cmd, 0x38, 0, 1, 1, 0xff, 0, 0, 0, 1, false⟩  -- R240
  | .ckpSts => ⟨.ckp, 0, 0, 1, 1, 0, 0, 0, 0, 0, false⟩  -- R293
  | .ckpRank => ⟨.ckp, 4, 0, 1, 1, 0, 0, 0, 0, 0, false⟩  -- R293
  | .ckpStepA => ⟨.ckp, 8, 0, 1, 2, 0, 0, 0, 0, 0, true⟩  -- R293
  | .ckpStepB => ⟨.ckp, 0x10, 0, 1, 2, 0, 0, 0, 0, 0, true⟩  -- R293
  | .ckpStageBase => ⟨.ckp, 0x18, 0, 1, 2, 0xfffffffe00000, 0, 0, 0, 0, false⟩  -- R293
  | .ckpStageBytes => ⟨.ckp, 0x20, 0, 1, 2, 0x3ffffe00000, 0, 0, 0, 0, false⟩  -- R293
  | .ckpErr => ⟨.ckp, 0x28, 0, 1, 1, 0, 0x3f, 0, 0, 0, false⟩  -- R293
  | .ckpIvTb => ⟨.ckpIv, 0, 0, 1, 2, 0, 0, 0, 0, 0, true⟩  -- R293
  | .syncErr => ⟨.sync, 0, 0, 1, 1, 0, 0x3f, 0, 0, 0, false⟩  -- R238
  | .syncDefTmo => ⟨.sync, 0x100, 0x10, 16, 1, 0xffffffff, 0, 0, 0, 0xf4240, false⟩  -- R230
  | .syncEpoch => ⟨.sync, 0x104, 0x10, 16, 1, 0, 0, 0, 0, 0, false⟩  -- R233
  | .syncCtx => ⟨.sync, 0x1000, 0x10, 256, 1, 0, 0, 0, 0, 0, false⟩  -- R235
  | .syncCtxLen => ⟨.sync, 0x1004, 0x10, 256, 1, 0, 0, 0, 0, 0, false⟩  -- R235
  | .syncCtxTmo => ⟨.sync, 0x1008, 0x10, 256, 1, 0xffffffff, 0, 0, 0, 0, false⟩  -- R235
  | .syncCoreCtx => ⟨.sync, 0x2000, 4, 272, 1, 0x1ff, 0, 0, 0, 0, false⟩  -- R237
  | .syncFnCtx => ⟨.sync, 0x2800, 4, 18, 1, 0x1ff, 0, 0, 0, 0, false⟩  -- R237
  | .syncCnt => ⟨.sync, 0x10000, 4, 17408, 1, 0, 0, 0, 0, 0, false⟩  -- R219
  | .pwrSts => ⟨.pwr, 0, 0, 1, 1, 0, 0, 0, 0, 0x5dc, false⟩  -- R490
  | .pwrErr => ⟨.pwr, 4, 0, 1, 1, 0, 0xf, 0, 0, 0, false⟩  -- R490
  | .pwrLimit => ⟨.pwr, 8, 0, 1, 1, 0x7ff, 0, 0, 0, 0x708, false⟩  -- R490
  | .pwrPower => ⟨.pwr, 0xc, 0, 1, 1, 0, 0, 0, 0, 0, false⟩  -- R490
  | .pwrTemp => ⟨.pwr, 0x10, 0, 1, 1, 0, 0, 0, 0, 0, false⟩  -- R490
  | .clkSts => ⟨.clk, 0, 0, 1, 1, 0, 0, 0, 0, 0, false⟩  -- R490
  | .tbCtrl => ⟨.tb, 0, 0, 1, 1, 0x3fff, 0, 0, 0, 0, false⟩  -- R490
  | .tbAdj => ⟨.tb, 4, 0, 1, 1, 0xff, 0, 0, 0, 0, false⟩  -- R490
  | .tbSts => ⟨.tb, 8, 0, 1, 1, 0, 0x1e, 0, 0, 0, false⟩  -- R490
  | .tbNow => ⟨.tb, 0x10, 0, 1, 2, 0, 0, 0, 0, 0, true⟩  -- R490
  | .tbFrac => ⟨.tb, 0x18, 0, 1, 1, 0, 0, 0, 0, 0, false⟩  -- R490
  | .tbSyncLoad => ⟨.tb, 0x20, 0, 1, 2, 0xffffffffffffffff, 0, 0, 0, 0, false⟩  -- R490
  | .tbStep => ⟨.tb, 0x28, 0, 1, 2, 0, 0, 0, 0xffffffffffffffff, 0, false⟩  -- R490
  | .tbPtpOffset => ⟨.tb, 0x30, 0, 1, 1, 0, 0, 0, 0, 0, false⟩  -- R490
  | .errGlbSts => ⟨.tel, 0, 0, 1, 1, 0, 3, 0, 0, 0, false⟩  -- R511
  | .errFirst => ⟨.tel, 0x40, 0, 1, 16, 0, 0, 0, 0, 0, false⟩  -- R511
  | .errFirstCtl => ⟨.tel, 0x80, 0, 1, 1, 0, 1, 0, 0, 0, false⟩  -- R511
  | .errAlert => ⟨.tel, 0x90, 0, 1, 1, 0x3800, 0, 0, 0, 0x3800, false⟩  -- R511
  | .errFault => ⟨.tel, 0x94, 0, 1, 1, 0, 0, 0, 0, 0, false⟩  -- R511
  | .errBridgeCe => ⟨.tel, 0x100, 0x10, 6, 1, 0, 0, 0, 0, 0, false⟩  -- R511
  | .errBridgeUe => ⟨.tel, 0x104, 0x10, 6, 1, 0, 0, 0, 0, 0, false⟩  -- R511
  | .errPathSts => ⟨.tel, 0x200, 0x20, 21, 1, 0, 0x2000, 0, 0, 0, false⟩  -- R511
  | .errPathDrop => ⟨.tel, 0x204, 0x20, 21, 1, 0, 0, 0, 0, 0, false⟩  -- R511
  | .errPathMerged => ⟨.tel, 0x208, 0x20, 21, 1, 0, 0, 0, 0, 0, false⟩  -- R511
  | .errPathAlarm => ⟨.tel, 0x20c, 0x20, 21, 1, 0, 0, 0, 0, 0, false⟩  -- R511
  | .errTenFirst => ⟨.tel, 0x1000, 0x100, 16, 16, 0, 0, 0, 0, 0, false⟩  -- R511
  | .errTenCtl => ⟨.tel, 0x1040, 0x100, 16, 1, 0, 1, 0, 0, 0, false⟩  -- R511
  | .detCtrl => ⟨.tel, 0x2000, 0x40, 16, 1, 1, 0, 2, 0, 0, false⟩  -- R269
  | .detSts => ⟨.tel, 0x2004, 0x40, 16, 1, 0, 0x3f, 0, 0, 0, false⟩  -- R269
  | .detVar => ⟨.tel, 0x2008, 0x40, 16, 2, 0, 0, 0, 0, 0, true⟩  -- R269
  | .detRefusals => ⟨.tel, 0x2010, 0x40, 16, 1, 0, 0, 0, 0, 0, false⟩  -- R269
  | .telTv => ⟨.tel, 0x2400, 8, 8, 2, 0, 0, 0, 0, 0, true⟩  -- R269
  | .exportCtl => ⟨.tel, 0x3000, 0, 1, 1, 0x1fffffff, 0, 0, 0, 0xc8e00, false⟩  -- R511
  | .exportDip => ⟨.tel, 0x3010, 0, 1, 4, 0xffffffffffffffffffffffffffffffff, 0, 0, 0, 0, false⟩  -- R511
  | .exportPort => ⟨.tel, 0x3020, 0, 1, 1, 0xffff, 0, 0, 0, 0x1c7c, false⟩  -- R511
  | .exportDmac => ⟨.tel, 0x3028, 0, 1, 2, 0xffffffffffff, 0, 0, 0, 0, true⟩  -- R511
  | .exportSmac => ⟨.tel, 0x3030, 0, 1, 2, 0xffffffffffff, 0, 0, 0, 0, true⟩  -- R511
  | .sidebandCtl => ⟨.tel, 0x3100, 0, 1, 1, 1, 0, 0, 0, 0, false⟩  -- R511
  | .logHead => ⟨.tel, 0x4000, 0x20, 18, 1, 0, 0, 0, 0xffff, 0, false⟩  -- R511
  | .logTail => ⟨.tel, 0x4004, 0x20, 18, 1, 0, 0, 0, 0, 0, false⟩  -- R511
  | .logClasses => ⟨.tel, 0x4008, 0x20, 18, 1, 0xf, 0, 0, 0, 3, false⟩  -- R511
  | .memSts => ⟨.memc, 0, 0, 1, 1, 0, 0, 0, 0, 0, false⟩  -- R317
  | .memErr => ⟨.memc, 4, 0, 1, 1, 0, 0x7f, 0, 0, 0, false⟩  -- R317
  | .memCe => ⟨.memc, 8, 0, 1, 1, 0, 0, 0, 0, 0, false⟩  -- R317
  | .memUe => ⟨.memc, 0xc, 0, 1, 1, 0, 0, 0, 0, 0, false⟩  -- R317
  | .memRetry => ⟨.memc, 0x10, 0, 1, 1, 0, 0, 0, 0, 0, false⟩  -- R317
  | .memUeAddr => ⟨.memc, 0x18, 0, 1, 2, 0, 0x8000000000000000, 0, 0, 0, true⟩  -- R317
  | .memScrub => ⟨.memc, 0x20, 0, 1, 1, 0x1ff, 0, 0, 0, 0x31, false⟩  -- R317
  | .memRecal => ⟨.memc, 0x24, 0, 1, 1, 0x3ff, 0, 0, 0, 0x64, false⟩  -- R317
  | .memCeThresh => ⟨.memc, 0x28, 0, 1, 1, 0xffff, 0, 0, 0, 0x400, false⟩  -- R317
  | .memInject => ⟨.memc, 0x2c, 0, 1, 1, 0xfe, 0, 1, 0, 2, false⟩  -- R317
  | .memRefresh => ⟨.memc, 0x30, 0, 1, 1, 0, 0, 0, 0, 0, false⟩  -- R317
  | .memRecalCount => ⟨.memc, 0x34, 0, 1, 1, 0, 0, 0, 0, 0, false⟩  -- R317
  | .segMode => ⟨.hbmG, 0x40000, 4, 64, 1, 3, 0, 0, 0, 0, false⟩  -- R317
  | .hbmGerr => ⟨.hbmG, 0x40100, 0, 1, 1, 0, 3, 0, 0, 0, false⟩  -- R317
  | .regionWin => ⟨.hbmG, 0, 0x20, 8192, 8, 0, 0, 0, 0, 0, false⟩  -- R317
  | .seamCtrl => ⟨.seam, 0, 0, 1, 1, 1, 0, 0, 6, 1, false⟩  -- R343
  | .seamSts => ⟨.seam, 4, 0, 1, 1, 0, 0, 0, 0, 0, false⟩  -- R343
  | .seamPeerFdid => ⟨.seam, 8, 0, 1, 1, 0, 0, 0, 0, 0xfffff, false⟩  -- R343
  | .seamErr => ⟨.seam, 0xc, 0, 1, 1, 0, 0x1f, 0, 0, 0, false⟩  -- R343
  | .seamReplay => ⟨.seam, 0x10, 0, 1, 1, 0, 0, 0, 0, 0, false⟩  -- R343
  | .seamRetrain => ⟨.seam, 0x14, 0, 1, 1, 0, 0, 0, 0, 0, false⟩  -- R343
  | .seamSkew => ⟨.seam, 0x18, 0, 1, 1, 0, 0, 0, 0, 0, false⟩  -- R343
  | .seamCrc => ⟨.seam, 0x1c, 0, 1, 1, 0, 0, 0, 0, 0, false⟩  -- R343
  | .seamBoard => ⟨.seamG, 0, 0, 1, 1, 0, 0, 0, 0, 0, false⟩  -- R343
  | .seamFdid => ⟨.seamG, 4, 0, 1, 1, 0, 0, 0, 0, 0xfffff, false⟩  -- R343
  | .seamTbLimit => ⟨.seamG, 8, 0, 1, 1, 0xffff, 0, 0, 0, 0x32, false⟩  -- R343
  | .ethCtrl => ⟨.eth, 0, 0, 1, 1, 0x3fffff0f, 0, 0, 0, 0x5ee0000, false⟩  -- R370
  | .ethSts => ⟨.eth, 4, 0, 1, 1, 0, 0, 0, 0, 0, false⟩  -- R370
  | .ethErr => ⟨.eth, 8, 0, 1, 1, 0, 3, 0, 0, 0, false⟩  -- R370
  | .ethRxDrop => ⟨.eth, 0x10, 0, 1, 1, 0, 0, 0, 0, 0, false⟩  -- R370
  | .ethErrCount => ⟨.eth, 0x14, 0, 1, 1, 0, 0, 0, 0, 0, false⟩  -- R370
  | .ethNoTenant => ⟨.eth, 0x18, 0, 1, 1, 0, 0, 0, 0, 0, false⟩  -- R370
  | .ethTxDenied => ⟨.eth, 0x1c, 0, 1, 1, 0, 0, 0, 0, 0, false⟩  -- R370
  | .prsTmap => ⟨.prs, 0, 4, 4096, 1, 0x1f, 0, 0, 0, 0, false⟩  -- R370
  | .prsUntagged => ⟨.prs, 0x4000, 4, 32, 1, 0x1f, 0, 0, 0, 0, false⟩  -- R370
  | .prsProfile0 => ⟨.prs, 0x8000, 0x40, 64, 1, 0xfffffff, 0, 0, 0, 0, false⟩  -- R370
  | .prsProfile1 => ⟨.prs, 0x8004, 0x40, 64, 1, 0xffff, 0, 0, 0, 0, false⟩  -- R370
  | .prsProfileF => ⟨.prs, 0x8008, 0x40, 64, 8, 0xffffffffffffffffffffffffffffffffffffffffffffffffffffffffffffffff, 0, 0, 0, 0, false⟩  -- R370
  | .prsVersion => ⟨.prs, 0xa000, 0, 1, 1, 0, 0, 0, 0, 0, false⟩  -- R355
  | .prsRxBase => ⟨.prs, 0xb000, 0x40, 16, 2, 0xffffffffffffc000, 0, 0, 0, 0, true⟩  -- R370
  | .prsRxSlots => ⟨.prs, 0xb008, 0x40, 16, 1, 0xffff, 0, 0, 0, 0, false⟩  -- R370
  | .prsRxDone => ⟨.prs, 0xb00c, 0x40, 16, 1, 0xffffffff, 0, 0, 0, 0, false⟩  -- R370
  | .prsNomatch => ⟨.prs, 0xb010, 0x40, 16, 1, 0, 0, 0, 0, 0, false⟩  -- R370
  | .prsRed => ⟨.prs, 0xb014, 0x40, 16, 1, 0, 0, 0, 0, 0, false⟩  -- R370
  | .prsRxDrop => ⟨.prs, 0xb018, 0x40, 16, 1, 0, 0, 0, 0, 0, false⟩  -- R370
  | .prsSlowDrop => ⟨.prs, 0xb01c, 0x40, 16, 1, 0, 0, 0, 0, 0, false⟩  -- R370
  | .strmSync => ⟨.prs, 0xc000, 0x40, 256, 1, 0xffffffff, 0, 0, 0, 0, false⟩  -- R370
  | .strmSts => ⟨.prs, 0xc004, 0x40, 256, 1, 0, 0, 0, 0, 0, false⟩  -- R370
  | .strmOffset => ⟨.prs, 0xc008, 0x40, 256, 2, 0, 0, 0, 0, 0, true⟩  -- R370
  | .strmRecords => ⟨.prs, 0xc010, 0x40, 256, 2, 0, 0, 0, 0, 0, true⟩  -- R370
  | .strmConsumed => ⟨.prs, 0xc018, 0x40, 256, 2, 0xffffffffffffffff, 0, 0, 0, 0, true⟩  -- R370
  | .strmErr => ⟨.prs, 0xc020, 0x40, 256, 1, 0, 0xf, 0, 0, 0, false⟩  -- R370
  | .strmDrops => ⟨.prs, 0xc024, 0x40, 256, 1, 0, 0, 0, 0, 0, false⟩  -- R370
  | .tscQuantum => ⟨.tsc, 0, 4, 128, 1, 0x1fffff, 0, 0, 0, 0x2400, false⟩  -- R370
  | .tscRate => ⟨.tsc, 0x200, 0x10, 8, 2, 0xffffffffffffffff, 0, 0, 0, 0, true⟩  -- R370
  | .tscBurst => ⟨.tsc, 0x208, 0x10, 8, 1, 0x1ffffff, 0, 0, 0, 0x40000, false⟩  -- R370
  | .tscGateSts => ⟨.tsc, 0x300, 0, 1, 1, 0, 0x40000, 0, 0, 0xff, false⟩  -- R370
  | .ftCtrl => ⟨.ft, 0, 0, 1, 1, 0x3f, 0, 0, 0, 0x32, false⟩  -- R397
  | .ftUdpPort => ⟨.ft, 4, 0, 1, 1, 0xffff, 0, 0, 0, 0x1c7b, false⟩  -- R397
  | .ftPrefix6 => ⟨.ft, 0x10, 0, 1, 4, 0xfffffffffffffffffffffffffff00000, 0, 0, 0, 0, false⟩  -- R397
  | .ftPrefix4 => ⟨.ft, 0x20, 0, 1, 1, 0xfffe0000, 0, 0, 0, 0, false⟩  -- R397
  | .ftMaxAge => ⟨.ft, 0x24, 0, 1, 1, 0xfffff, 0, 0, 0, 0x3e8, false⟩  -- R397
  | .ftRto => ⟨.ft, 0x28, 0, 1, 1, 0xffff, 0, 0, 0, 0x28, false⟩  -- R397
  | .ftCc => ⟨.ft, 0x2c, 0, 1, 1, 0xffffffff, 0, 0, 0, 0x5100840, false⟩  -- R397
  | .ftRmin => ⟨.ft, 0x30, 0, 1, 1, 0x3ff, 0, 0, 0, 1, false⟩  -- R397
  | .ftSendUsed => ⟨.ft, 0x34, 0, 1, 1, 0, 0, 0, 0, 0, false⟩  -- R397
  | .ftRecvUsed => ⟨.ft, 0x38, 0, 1, 1, 0, 0, 0, 0, 0, false⟩  -- R397
  | .ftErr => ⟨.ft, 0x40, 0, 1, 1, 0, 0x1f, 0, 0, 0, false⟩  -- R397
  | .ftRetx => ⟨.ft, 0x50, 0, 1, 1, 0, 0, 0, 0, 0, false⟩  -- R397
  | .ftRnr => ⟨.ft, 0x54, 0, 1, 1, 0, 0, 0, 0, 0, false⟩  -- R397
  | .ftRxBad => ⟨.ft, 0x58, 0, 1, 1, 0, 0, 0, 0, 0, false⟩  -- R397
  | .ftStale => ⟨.ft, 0x5c, 0, 1, 1, 0, 0, 0, 0, 0, false⟩  -- R397
  | .ftCe => ⟨.ft, 0x60, 0, 1, 1, 0, 0, 0, 0, 0, false⟩  -- R397
  | .ftPath => ⟨.ft, 0x100, 0x20, 8, 1, 0xffff003f, 0, 0, 0, 0, false⟩  -- R397
  | .ftDmac => ⟨.ft, 0x108, 0x20, 8, 2, 0xffffffffffff, 0, 0, 0, 0, true⟩  -- R397
  | .ftSmac => ⟨.ft, 0x110, 0x20, 8, 2, 0xffffffffffff, 0, 0, 0, 0, true⟩  -- R397
  | .ftTenCtrl => ⟨.ftTen, 0, 0, 1, 1, 0x1fff, 0, 0, 0, 0, false⟩  -- R397
  | .ftTenSts => ⟨.ftTen, 4, 0, 1, 1, 0, 0, 0, 0, 0, false⟩  -- R397
  | .ftBucket => ⟨.ftBkt, 0, 4, 4096, 1, 0, 0, 0, 0, 0, false⟩  -- R397
  | .driveCtrl => ⟨.drive, 0, 0, 1, 1, 1, 0, 0, 0, 1, false⟩  -- R420
  | .driveSts => ⟨.drive, 4, 0, 1, 1, 0, 0, 0, 0, 0, false⟩  -- R420
  | .driveErr => ⟨.drive, 8, 0, 1, 1, 0, 0xf, 0, 0, 0, false⟩  -- R420
  | .driveApstIdle => ⟨.drive, 0xc, 0, 1, 1, 0xffff, 0, 0, 0, 0x64, false⟩  -- R420
  | .driveStRestarts => ⟨.drive, 0x10, 0, 1, 1, 0, 0, 0, 0, 0, false⟩  -- R420
  | .driveMedia => ⟨.drive, 0x14, 0, 1, 1, 0, 0, 0, 0, 0, false⟩  -- R420
  | .stoCtrl => ⟨.stoG, 0, 0, 1, 1, 0xffffff, 0, 0, 0, 0x6408, false⟩  -- R420
  | .stoSqTail => ⟨.stoTen, 0, 8, 16, 1, 0, 0, 0, 0xffffffff, 0, false⟩  -- R420
  | .stoCqHead => ⟨.stoTen, 4, 8, 16, 1, 0, 0, 0, 0xffffffff, 0, false⟩  -- R420
  | .stoTenSts => ⟨.stoTen, 0x100, 0, 1, 1, 0, 0, 0, 0, 0, false⟩  -- R420
  | .stoTenErr => ⟨.stoTen, 0x104, 0, 1, 1, 0, 3, 0, 0, 0, false⟩  -- R420
  | .volSts => ⟨.stoVol, 0, 0, 1, 1, 0, 0, 0, 0, 0, false⟩  -- R420
  | .volBlocks => ⟨.stoVol, 8, 0, 1, 2, 0, 0, 0, 0, 0, true⟩  -- R420
  | .lodeCtrl => ⟨.lode, 0, 0, 1, 1, 2, 0, 0, 1, 0, false⟩  -- R182
  | .lodeSts => ⟨.lode, 4, 0, 1, 1, 0, 0, 0, 0, 0, false⟩  -- R182
  | .lodeLock => ⟨.lode, 0x10, 0, 1, 1, 0, 0x600, 0, 0, 0, false⟩  -- R182
  | .lodeLockTb => ⟨.lode, 0x18, 0, 1, 2, 0, 0, 0, 0, 0, true⟩  -- R182
  | .lodeGcyc => ⟨.lode, 0x20, 0, 1, 2, 0, 0, 0, 0, 0, true⟩  -- R182
  | .lodeMvSts => ⟨.lode, 0x30, 0, 1, 1, 0, 0, 0, 0, 0, false⟩  -- R182
  | .lodeMvErr => ⟨.lode, 0x34, 0, 1, 1, 0, 7, 0, 0, 0, false⟩  -- R182
  | .strErr => ⟨.lode, 0x8000, 0, 1, 1, 0, 0xf, 0, 0, 0, false⟩  -- R182
  | .strCe => ⟨.lode, 0x8004, 0, 1, 1, 0, 0, 0, 0, 0, false⟩  -- R182
  | .strUeAddr => ⟨.lode, 0x8008, 0, 1, 1, 0, 0x80000000, 0, 0, 0, false⟩  -- R182
  | .strConflict => ⟨.lode, 0x8010, 0, 1, 2, 0, 0, 0, 0, 0, true⟩  -- R182
  | .strScrub => ⟨.lode, 0x8020, 0, 1, 1, 0xff, 0, 0, 0, 0x21, false⟩  -- R182
  | .meCtrl => ⟨.me, 0, 0, 1, 1, 1, 0, 0, 2, 0, false⟩  -- R110
  | .meSts => ⟨.me, 4, 0, 1, 1, 0, 0, 0, 0, 0, false⟩  -- R110
  | .meLastSts => ⟨.me, 8, 0, 1, 1, 0, 0, 0, 0, 0, false⟩  -- R108
  | .meErr => ⟨.me, 0xc, 0, 1, 1, 0, 0xf, 0, 0, 0, false⟩  -- R110
  | .meBusy => ⟨.me, 0x20, 0, 1, 2, 0, 0, 0, 0, 0, true⟩  -- R110
  | .meOpsDone => ⟨.me, 0x28, 0, 1, 2, 0, 0, 0, 0, 0, true⟩  -- R108
  | .meArith => ⟨.me, 0x40, 0, 1, 1, 0, 0x1f, 0, 0, 0, false⟩  -- R76
  | .meLastInexact => ⟨.me, 0x44, 0, 1, 1, 0, 0, 0, 0, 0, false⟩  -- R76
  | .meLastZero => ⟨.me, 0x48, 0, 1, 1, 0, 0, 0, 0, 0, false⟩  -- R76
  | .bcCtrl => ⟨.bc, 0, 0, 1, 1, 2, 0, 0, 5, 0, false⟩  -- R155
  | .bcSts => ⟨.bc, 4, 0, 1, 1, 0, 0, 0, 0, 0, false⟩  -- R155
  | .bcStartPc => ⟨.bc, 8, 0, 1, 1, 0xfffc, 0, 0, 0, 0, false⟩  -- R155
  | .bcExcPc => ⟨.bc, 0xc, 0, 1, 1, 0, 0, 0, 0, 0, false⟩  -- R155
  | .bcExcInfo => ⟨.bc, 0x10, 0, 1, 1, 0, 0, 0, 0, 0, false⟩  -- R155
  | .bcExcAddr => ⟨.bc, 0x14, 0, 1, 1, 0, 0, 0, 0, 0, false⟩  -- R155
  | .bcErr => ⟨.bc, 0x18, 0, 1, 1, 0, 0x1f, 0, 0, 0, false⟩  -- R155
  | .bcArith => ⟨.bc, 0x1c, 0, 1, 1, 0, 0x1e, 0, 0, 0, false⟩  -- R155
  | .bcIssue => ⟨.bc, 0x20, 0, 1, 2, 0, 0, 0, 0, 0, true⟩  -- R155
  | .bcStall => ⟨.bc, 0x28, 0, 1, 2, 0, 0, 0, 0, 0, true⟩  -- R155

/-- The registers of each block, for finding the register at an offset. -/
def blkRegs : Blk → List Reg
  | .glb => [.glbAlive, .glbPartId, .glbFwSts, .glbFwRestarts, .glbFwCause, .glbSecSts, .glbDeviceId, .glbBootNonce, .glbTokenSeq, .glbTokenFail, .glbBootSts, .glbReset]
  | .hif => [.hifCfg, .hifTenPort, .hifView, .hifErr]
  | .hifPort => [.hifPortSts, .hifPortLinkDowns, .hifPortReplay]
  | .hifFn => [.hifSts, .hifFnErr, .hifApBase, .hifWinEn, .hifHb, .hifFlrAborted, .hifQp]
  | .cmd => [.cmdSession, .cmdAdmq, .cmdAdmqSq, .cmdAdmqCq, .cmdQerr, .cmdErr, .cmdErrQueue, .cmdDevRange, .cmdBundle, .cmdWeight]
  | .ckp => [.ckpSts, .ckpRank, .ckpStepA, .ckpStepB, .ckpStageBase, .ckpStageBytes, .ckpErr]
  | .ckpIv => [.ckpIvTb]
  | .sync => [.syncErr, .syncDefTmo, .syncEpoch, .syncCtx, .syncCtxLen, .syncCtxTmo, .syncCoreCtx, .syncFnCtx, .syncCnt]
  | .pwr => [.pwrSts, .pwrErr, .pwrLimit, .pwrPower, .pwrTemp]
  | .clk => [.clkSts]
  | .tb => [.tbCtrl, .tbAdj, .tbSts, .tbNow, .tbFrac, .tbSyncLoad, .tbStep, .tbPtpOffset]
  | .tel => [.errGlbSts, .errFirst, .errFirstCtl, .errAlert, .errFault, .errBridgeCe, .errBridgeUe, .errPathSts, .errPathDrop, .errPathMerged, .errPathAlarm, .errTenFirst, .errTenCtl, .detCtrl, .detSts, .detVar, .detRefusals, .telTv, .exportCtl, .exportDip, .exportPort, .exportDmac, .exportSmac, .sidebandCtl, .logHead, .logTail, .logClasses]
  | .memc => [.memSts, .memErr, .memCe, .memUe, .memRetry, .memUeAddr, .memScrub, .memRecal, .memCeThresh, .memInject, .memRefresh, .memRecalCount]
  | .hbmG => [.segMode, .hbmGerr, .regionWin]
  | .seam => [.seamCtrl, .seamSts, .seamPeerFdid, .seamErr, .seamReplay, .seamRetrain, .seamSkew, .seamCrc]
  | .seamG => [.seamBoard, .seamFdid, .seamTbLimit]
  | .eth => [.ethCtrl, .ethSts, .ethErr, .ethRxDrop, .ethErrCount, .ethNoTenant, .ethTxDenied]
  | .prs => [.prsTmap, .prsUntagged, .prsProfile0, .prsProfile1, .prsProfileF, .prsVersion, .prsRxBase, .prsRxSlots, .prsRxDone, .prsNomatch, .prsRed, .prsRxDrop, .prsSlowDrop, .strmSync, .strmSts, .strmOffset, .strmRecords, .strmConsumed, .strmErr, .strmDrops]
  | .tsc => [.tscQuantum, .tscRate, .tscBurst, .tscGateSts]
  | .ft => [.ftCtrl, .ftUdpPort, .ftPrefix6, .ftPrefix4, .ftMaxAge, .ftRto, .ftCc, .ftRmin, .ftSendUsed, .ftRecvUsed, .ftErr, .ftRetx, .ftRnr, .ftRxBad, .ftStale, .ftCe, .ftPath, .ftDmac, .ftSmac]
  | .ftTen => [.ftTenCtrl, .ftTenSts]
  | .ftBkt => [.ftBucket]
  | .drive => [.driveCtrl, .driveSts, .driveErr, .driveApstIdle, .driveStRestarts, .driveMedia]
  | .stoG => [.stoCtrl]
  | .stoTen => [.stoSqTail, .stoCqHead, .stoTenSts, .stoTenErr]
  | .stoVol => [.volSts, .volBlocks]
  | .lode => [.lodeCtrl, .lodeSts, .lodeLock, .lodeLockTb, .lodeGcyc, .lodeMvSts, .lodeMvErr, .strErr, .strCe, .strUeAddr, .strConflict, .strScrub]
  | .me => [.meCtrl, .meSts, .meLastSts, .meErr, .meBusy, .meOpsDone, .meArith, .meLastInexact, .meLastZero]
  | .bc => [.bcCtrl, .bcSts, .bcStartPc, .bcExcPc, .bcExcInfo, .bcExcAddr, .bcErr, .bcArith, .bcIssue, .bcStall]

/-- The BAR0 offset of word `w` of copy `j` of a register of block instance `i`. -/
def regAddr (r : Reg) (i j w : Nat) : Nat :=
  blkBase (regRow r).blk i + (regRow r).off + (regRow r).stride * j + 4 * w

/-- The reset value of a register (R13). FT.PATH[p].SPORT resets to 0xC000 + p (R397). (DESIGN CHOICE, log entry 3; DEDUCED, log entry 72; DEDUCED, log entry 79.) -/
def regReset (r : Reg) (_i j : Nat) : Nat :=
  match r with
  | .ftPath => (0xC000 + j) * 2 ^ 16
  | r => (regRow r).reset

/-- The register, block instance, copy and word at an offset within a block. -/
def regIn (b : Blk) (i o : Nat) : List Reg → Option (Reg × Nat × Nat × Nat)
  | [] => none
  | r :: t =>
    let row := regRow r
    let j := if row.stride = 0 then 0 else (o - row.off) / row.stride
    let x := if row.stride = 0 then o - row.off else (o - row.off) % row.stride
    if row.off ≤ o ∧ j < row.count ∧ x < 4 * row.words ∧ row.blk = b then some (r, i, j, x / 4) else regIn b i o t

/-- The register word at an aligned BAR0 offset: register, block instance, copy, word. -/
def regOf (a : Nat) : Option (Reg × Nat × Nat × Nat) :=
  match blkOf a with
  | some (b, i, o) => regIn b i o (blkRegs b)
  | none => none

/-- The reset value of the register word at an offset; 0 where no register lies. (DESIGN CHOICE, log entry 3.) -/
def resetWord (a : Nat) : Word :=
  match regOf a with
  | some (r, i, j, w) => BitVec.ofNat 32 (regReset r i j >>> (32 * w))
  | none => 0

end Sys2Proof.Machine
end

