-- ==== Sys2Proof/Machine/State.lean ====
section
/-! DEFINITION. The state of the CVX6400 as a block: every register, table, queue and pin the spec gives it, the queue of
waiting commands, and what right after reset each holds. -/
namespace Sys2Proof.Machine

/-- No command of the block stops it with a fault: the spec reports every failure in a status, a sticky bit or a
record, and the part goes on. The type therefore has no constructor: no fault can be raised. Safe. -/
inductive Fault where
  deriving DecidableEq, Repr

/-- Why a command has no meaning. -/
inductive Refusal where
  /-- Raised by `exec` for a row of the table whose meaning is not written. Safe: the run stops. -/
  | notModelled (mnemonic : String)
  /-- Raised by every meaning whose operand names an instance the part does not hold, such as lode 32 (R19).
  Safe: no such command can reach the part. -/
  | noSuchInstance
  deriving DecidableEq, Repr

/-! ### Time base, clocks, power and pins (chapters 01, 17, 19) -/

/-- Who armed an event on the time base (R32): a lock group (R175), a TIMED command by its take number (R193), or
a gate list of a MAC (R368). -/
inductive EvOwner where
  | lock (g : Nat) | timed (id : Nat) | gate (m : Nat)
  deriving DecidableEq, Repr

/-- An armed event: its owner, its target in time base nanoseconds, whether it will fire late because a load or a
step passed it over or it was armed at or after its target, and the first tick at which it may fire: the tick after the one in which
it was armed, or in which a load or step reached it (R33, R526). -/
structure ArmedEv where
  owner  : EvOwner
  target : Nat
  late   : Bool
  start  : Nat
  deriving DecidableEq, Repr

/-- What the PTP servo holds (R480): the data set of the best Announce message with its sender and the tick at which it is no longer
heard, the sequence number and arrival of a two-step Sync that waits for its Follow_Up with its correction, the difference from
the transmitter to the receiver and the mean path delay, both in units of 2^-16 ns, and the last Delay_Req: its sequence number
and departure. -/
structure Servo where
  best  : Option (Bytes × Bytes × Nat) := none
  sync  : Option (Nat × Int) := none
  diff  : Option Int := none
  delay : Int := 0
  reqNo : Nat := 0
  reqAt : Option Int := none
  deriving DecidableEq, Repr

/-- The master counter of R30 (bits [79:16] nanoseconds, bits [15:0] the fraction), the TBCLK ticks since cold reset
that timeouts count (R34), the armed events, the tick at which a sampled TB_SYNCIN edge loads (R478), the latched
fraction, the software half of TB.STEP, the tick since which the servo offset has stayed within 100 ns, the tick in which
TB_SYNC_ARM armed, the tick of the last TB_SYNCIN load (R33), and the servo (R480). -/
structure TimeBase where
  master    : BitVec 80 := 0
  ticks     : Nat := 0
  armed     : List ArmedEv := []
  edge      : Option Nat := none
  stepLow   : Word := 0
  fracLatch : BitVec 16 := 0
  calmSince : Option Nat := none
  armTick   : Nat := 0
  loadTick  : Option Nat := none
  servo     : Servo := {}
  deriving DecidableEq, Repr

/-- Device power states of R488, in the order of their codes. -/
inductive DState where
  | on | entering | deep | exiting
  deriving DecidableEq, Repr

/-- Power, clocks and the start-up sequencer (R468 to R488). `running` says that clocks run: PWR_GOOD is high, no trip
has stopped the PLLs and COLD_RESET_N does not hold the part. `point` is the operating point code, `wantPoint` the one OP_POINT asked
for, `vcd0` and `vcd1` the voltages last commanded in mV, `vrAck` whether both regulators acknowledged; `change` the frequency in
MHz the PM core is moving to, `opCmds` the OP_POINT commands not yet replied; `safePending` a safe point that waits for the clamp
(R489); `locking` the CLOCK_LOCK under way and whether it locks; the deep state with its ENTER 1 and ENTER 0 commands; whether the
part runs without firmware, whether no session is possible (R486), whether it runs in a warm reset, or one is due; the last ten power samples in W, the tick of the next sample,
and whether the power loop has lowered CCLK. -/
structure Power where
  running     : Bool := true
  tripped     : Bool := false
  point       : Nat := 0
  wantPoint   : Nat := 0
  vcd0        : Nat := 700
  vcd1        : Nat := 700
  vrAck       : Bool := true
  change      : Option Nat := none
  opCmds      : List Nat := []
  safePending : Bool := false
  locking     : Option (Nat × Bool) := none
  dstate      : DState := .on
  deepCmd     : Option Nat := none
  exitCmds    : List Nat := []
  noFirmware  : Bool := true
  noSession   : Bool := false
  warm        : Bool := false
  samples     : List Nat := []
  sampleDue   : Nat := 0
  powLow      : Bool := false
  hotAt       : Nat := 0
  deriving DecidableEq, Repr

/-- The low-speed pins (R512, R515, R516, R513) and the JTAG instruction register (R520). Inputs as last seen after the
filter; THERMTRIP_N holds once asserted. ALERT_N and FAULT_N follow registers (R506) and are computed. -/
structure Pins where
  pwrGood   : Bool := true
  coldN     : Bool := true
  warmN     : Bool := true
  perst0N   : Bool := true
  perst1N   : Bool := true
  posId     : Nat := 0
  apMode    : Nat := 0
  thermTrip : Bool := false
  tapBypass : Bool := false
  tapOut    : Nat := 0
  deriving DecidableEq, Repr

/-! ### Telemetry (chapter 18) -/

/-- A record of R491: class 0 to 3, the tenant where TVALID is set, the reporting register's offset, the sequence
number, creation time, count, kind, and body bytes 31:2. -/
structure Rec where
  cls    : Nat
  tenant : Option Nat
  source : Nat
  seq    : Nat
  time   : Nat
  count  : Nat
  kind   : Nat
  body   : Bytes
  deriving DecidableEq, Repr

/-- A MORE or GAP accumulator of a path (R502, R503): the count, and the first and last SEQ. -/
structure Acc where
  count : Nat
  first : Nat
  last  : Nat
  deriving DecidableEq, Repr

/-- A path's queue, oldest first, each record with the tick at which it entered, its pending ALARM records, and its
accumulators (R502). -/
structure Path where
  queue  : List (Rec × Nat) := []
  alarms : List Rec := []
  more   : Option Acc := none
  gap    : Option Acc := none
  deriving DecidableEq, Repr

/-- A host log ring (R498): whether set, its base, size exponent and vector, tail and head indices, and PHASE. -/
structure LogRing where
  on     : Bool := false
  base   : Nat := 0
  log2   : Nat := 4
  vector : Nat := 0xFFFF
  tail   : Nat := 0
  used   : Nat := 0
  head   : Nat := 0
  phase  : Bool := true
  deriving DecidableEq, Repr

/-- A tenant's trace configuration (R507) and its hit counters, keyed by point × 2^16 + unit. -/
structure Trace where
  points : Nat := 0
  lodes  : Nat := 0
  divide : Nat := 1
  dest   : Nat := 0
  hits   : Tbl Nat := []
  deriving DecidableEq, Repr

/-- The telemetry logic: the next SEQ (R493), the 21 path queues, the log rings, traces, the export's packet number and
the packets of the present millisecond, and the in-band interrupts raised (R499). -/
structure Telemetry where
  nextSeq   : Nat := 1
  paths     : Tbl Path := []
  rings     : Tbl LogRing := []
  traces    : Tbl Trace := []
  exportNo  : Nat := 0
  exportMs  : Nat := 0
  exportCnt : Nat := 0
  ibis      : Nat := 0
  deriving DecidableEq, Repr

/-! ### Host interface (chapter 15) -/

/-- A byte of host memory as the device has seen it: not yet delivered, delivered, or one whose access fails (completer abort, poisoned
data, or a completion timeout, R217, R430). -/
inductive HCell where
  | unknown | val (b : Byte) | bad
  deriving DecidableEq, Repr

/-- An MSI-X table entry of a function and its pending bit. -/
structure Msix where
  addr    : Nat := 0
  data    : Nat := 0
  masked  : Bool := true
  pending : Bool := false
  deriving DecidableEq, Repr

/-- One host function (R183, R423 to R436): Bus Master and Memory Space Enable, its translation table, MSI-X table and function mask,
the upstream reads outstanding (address, bytes, the tick of issue), the tick at which the heartbeat expires, HB_LOST, the device hold
with the mask of the lodes that take it, whether takes stop, and whether a quiesce still waits for sync points. -/
structure HostFn where
  bme       : Bool := false
  mse       : Bool := false
  xlat      : Tbl Nat := []
  msix      : Tbl Msix := []
  funcMask  : Bool := false
  reads     : List (Nat × Nat × Nat) := []
  hbDue     : Option Nat := none
  hbLost    : Bool := false
  jobHeld   : Bool := false
  heldLodes : Nat := 0
  noTakes   : Bool := false
  quiescing : Bool := false
  deriving DecidableEq, Repr

/-- A host port (R421, R422, R432): whether configuration requests are answered normally, NumVFs and the VF BAR2 size. -/
structure HostPort where
  up     : Bool := false
  numVfs : Nat := 16
  bar2   : Nat := 0x40000000
  deriving DecidableEq, Repr

/-- What leaves the part at its pins and links, newest first: the model's own trace of outward messages. -/
inductive Sent where
  | msix (fn vec : Nat)
  | frame (mac : Nat) (bytes : Bytes)
  | exported (mac cls dmac smac : Nat) (src dst : Bytes) (port : Nat) (payload : Bytes)
  | packet (path : Nat) (bytes : Bytes)
  | flit (link head : Nat) (msg : SeamMsg)
  | flitAgain (link head : Nat)
  | ctrl (link ack : Nat) (nak : Option Nat) (credits : List Nat) (left : Nat) (arrived : Option Nat)
  | idleFlit (link : Nat)
  | ident (link : Nat) (id : SeamIdent)
  | nvme (drive cid : Nat) (code : Nat) (lba blocks : Nat) (data : Bytes)
  | journal (drive cid seq : Nat) (rec : JRec)
  | pause (mac cls : Nat) (on : Bool)
  | delayReq (mac : Nat) (bytes : Bytes)
  | vout (addr mv : Nat)
  | config (port : Nat) (retry : Bool)
  | bar2 (fn : Nat) (data : Option Bytes)
  | sideband (bytes : Bytes)
  deriving DecidableEq, Repr

/-! ### The command engine (chapter 06) -/

/-- A queue pair (R184 to R187, R217): state code 0 ABSENT, 1 ACTIVE, 2 ERROR; ring exponent, PRIO, vector, ring
addresses, the engine's submission head, the host's tail, the completion tail and PHASE, the host's head, replies
written and not yet freed, and the takes left in its round (R201). -/
structure QPair where
  st     : Nat := 0
  log2   : Nat := 4
  prio   : Nat := 0
  vector : Nat := 0xFFFF
  sq     : Nat := 0
  cq     : Nat := 0
  head   : Nat := 0
  tail   : Nat := 0
  cqTail : Nat := 0
  cqHead : Nat := 0
  cqUsed : Nat := 0
  phase  : Bool := true
  credit : Nat := 0
  deriving DecidableEq, Repr

/-- How far a taken command is: waiting for its release time (R193), in the dispatch list (R239), ready to
start, started and waiting for its work, or ended with its reply due. -/
inductive CPhase where
  | timed | listed | ready | working | done
  deriving DecidableEq, Repr

/-- A taken command that has not replied (R187, R195): take number, function and queue pair, submission head after
the take, its bytes, phase, LATE, status, result words, the variance count on its behalf, and its
place in the order in which commands ended (R197). -/
structure Cmd where
  id     : Nat
  fn     : Nat
  q      : Nat
  head   : Nat
  bytes  : Bytes
  phase  : CPhase
  late   : Bool := false
  status : Nat := 0
  w0     : Nat := 0
  w1     : Nat := 0
  w2     : Nat := 0
  w3     : Nat := 0
  varD   : Nat := 0
  doneNo : Nat := 0
  deriving DecidableEq, Repr

/-- The heartbeat of a session (R434): its interval in milliseconds and its policy; state and version stand in CMD[i].SESSION. -/
structure Session where
  hbMs   : Nat := 0
  policy : Nat := 0
  deriving DecidableEq, Repr

/-- The command engine (R183 to R218): queue pairs keyed by function × 64 + number, the taken commands in take order, the
next take number, the number of commands ended so far, the function that took last (R201), the sessions. -/
structure CmdEng where
  qps      : Tbl QPair := []
  cmds     : List Cmd := []
  nextId   : Nat := 0
  ended    : Nat := 0
  lastFn   : Nat := 17
  sessions : Tbl Session := []
  deriving DecidableEq, Repr

/-! ### Sync counters and firmware processors (chapter 07) -/

/-- A waiter on a counter (R223, R230, R231): source number, target, the tick at which its timeout expires, the
identifier as issued, its context of translation (0xFFFF physical), the timeout applied in µs, its tenant, its place
among the four counters of a SYN.ANY, and a tag: the take number of a SYNC WAIT command, the ring of a doorbell wait. -/
structure Waiter where
  src      : Nat
  target   : Nat
  deadline : Option Nat
  ident    : Nat
  ctx      : Nat
  tmo      : Nat
  tenant   : Nat
  any      : Option Nat
  tag      : Option Nat
  deriving DecidableEq, Repr

/-- A pass notice on its way to the waiting unit (R227): source, index among four counters, counter, tag. -/
structure Notice where
  src : Nat
  idx : Nat
  ctr : Nat
  tag : Option Nat
  deriving DecidableEq, Repr

/-- A sync counter (R219). -/
structure Counter where
  count   : BitVec 24 := 0
  sat     : Bool := false
  waiters : List Waiter := []
  deriving DecidableEq, Repr

/-- A signal on its way to a counter (R222, R226), and the SYNC SIGNAL command that sent it. -/
structure Sig where
  src : Nat
  ctr : Nat
  val : Nat
  cmd : Option Nat
  deriving DecidableEq, Repr

/-- A remote signal waiting to be sent or acknowledged (R238). -/
structure RemoteSig where
  src    : Nat
  ctr    : Nat
  fdid   : Nat
  val    : Nat
  tenant : Nat
  deriving DecidableEq, Repr

/-- An EPOCH command under way (R232 to R234). -/
structure Epoch where
  id       : Nat
  tenant   : Nat
  number   : Nat
  entries  : List (Nat × Nat)
  deadline : Option Nat
  w2       : Nat
  deriving DecidableEq, Repr

/-- The sync counter fabric: counters, signals and joining waiters under way, pass notices,
translation memory of 65,536 entries and its uncorrectable words, epochs, and remote signals. -/
structure Sync where
  counters : Tbl Counter := []
  flight   : List Sig := []
  joining  : List (Nat × Waiter) := []
  notices  : List Notice := []
  xmem     : Tbl Nat := []
  xbad     : List Nat := []
  epochs   : List Epoch := []
  remote   : List RemoteSig := []
  deriving DecidableEq, Repr

/-- A firmware processor (R242 to R244): running, restarting, not recovered, or halted by an alarm. -/
inductive FwSt where
  | running | restarting | lost | halted
  deriving DecidableEq, Repr

/-- The tick of its first crash, the tick at which its watchdog count last started, and what its SRAMs were loaded with (R242 to R244). -/
structure Fw where
  st    : FwSt := .running
  first : Nat := 0
  wd    : Nat := 0
  sram  : Bytes := []
  deriving DecidableEq, Repr

/-! ### Memory ownership (chapters 01, 10) -/

/-- An entry of the region table (R312). `st`: 0 ABSENT, 1 ACTIVE, 2 DRAINING. `world`: false S, true N. `uses` counts the
remote requests still using it while it drains (R395), `cmd` the revocation's command. -/
structure Region where
  base   : Nat := 0
  bytes  : Nat := 0
  key    : Nat := 0
  gen    : Nat := 0
  rights : Nat := 0
  ilv    : Nat := 0
  st     : Nat := 0
  tenant : Nat := 0
  world  : Bool := false
  share  : Nat := 0
  uses   : Nat := 0
  cmd    : Option Nat := none
  deriving DecidableEq, Repr

/-- Owners of the assignable instances (R35, R37, R440): 0 is world S, t + 1 is tenant t in world N. Blocks are keyed by
device address / 2 MiB (R311); device blocks by BAR0 base bits [27:20], 1 for world N. `fills` are blocks that zero-fill
with the owner that takes effect afterwards (R311); `segFill` the segments that zero-fill and their new mode (R297);
`tableBad` the wrong symbols in table codewords: entry e of the region table, or 8192 and a block of the owner table (R306, R317). -/
structure Owners where
  lodes    : Tbl Nat := []
  ibcs     : Tbl Nat := []
  blocks   : Tbl Nat := []
  devs     : Tbl Nat := []
  regions  : Tbl Region := []
  fills    : Tbl Nat := []
  segFill  : Tbl Nat := []
  zeroing  : Tbl Nat := []
  tableBad : Tbl Nat := []
  deriving DecidableEq, Repr

/-- One memory controller: HBM[h] for 0 to 7, LPX[m] for 8 + m: spare lanes left, the channels that keep a
failed lane, the next codeword to scrub and the tick at which it is due, by channel the tick at which its refresh slot ends, the channels
recalibrated in that slot, and by channel the ticks at which its next slot and its next scheduled recalibration fall due (R302 to R305,
R310). -/
structure MemCtl where
  spares  : Nat := 1
  dead    : List Nat := []
  scrub   : Nat := 0
  scrubAt : Nat := 0
  slot    : Tbl Nat := []
  long    : List Nat := []
  due    : Tbl Nat := []
  recal  : Tbl Nat := []
  deriving DecidableEq, Repr

/-! ### Matrix engines (chapter 03) -/

/-- What an identifier names (R220, R235, R236): a counter of this device, one of another device, nothing, or an entry
whose translation word is uncorrectable. -/
inductive Xl where
  | phys (p : Nat) | remote (p fdid : Nat) | none | ue
  deriving DecidableEq, Repr

/-- Who issued a descriptor: a bead core or IBC by number, a command of a function, or the lode's control core (R82, R169, R237). -/
inductive Issuer where
  | core (k : Nat) | fn (i : Nat) | ctl
  deriving DecidableEq, Repr

/-- A matrix operation descriptor in a queue entry (R82, R85): its 64 bytes, its position among the sources (R83), its issuer,
and the chain it belongs to with its index there. -/
structure Mod where
  bytes  : Bytes
  pos    : Nat
  issuer : Issuer
  chain  : Option (Nat × Nat)
  deriving DecidableEq, Repr

/-- One finished row of an output tile: the row of the whole output, the N tile, its 32 tallies (R95). -/
structure TRow where
  row : Nat
  n   : Nat
  ts  : List Tally
  deriving DecidableEq, Repr

/-- The operation in execution (R84, R107): descriptor, status and FAULT so far, where its record and its signal go, its
counts and arithmetic events, whether a check refused it (R89, R100), the tile rows not yet written, how many of them are surely written
when an operand read fails (R96), the failing codeword, the seed record, and the writes of RANGE_SCAN and TRANSPOSE_LOAD; the tiles of
its groups, N tile by N tile, each with whether the group reads B (R106). -/
structure EngOp where
  mod     : Mod
  status  : Nat := 0
  fault   : Nat := 0
  recAt   : Option Nat := none
  sig     : Option (Xl × Nat) := none
  inexact : Nat := 0
  zero    : Nat := 0
  arith   : Nat := 0
  refused : Bool := false
  rows    : List TRow := []
  sure    : Nat := 0
  groups  : List (Nat × Bool) := []
  ue      : Option Nat := none
  rmw     : Option Nat := none
  seed    : Bytes := []
  writes  : List (Nat × Bytes) := []
  resFlag : Bool := false
  deriving DecidableEq, Repr

/-- Engine phases of R110; HELD is IDLE under a hold. -/
inductive EngPhase where
  | idle | running | draining
  deriving DecidableEq, Repr

/-- A matrix engine (R78, R82, R83, R98): queue of at most 8 descriptors, offers that wait for room, the round-robin
pointer, phase, operation in execution, the tally store (slot × 1024 + row × 32 + column), the resident shape, and the operand buffer:
the grains of B of the current N tile in order, each as the byte strings of its reads (R97). -/
structure Eng where
  queue  : List Mod := []
  offers : List Mod := []
  rr     : Nat := 0
  phase  : EngPhase := .idle
  op     : Option EngOp := none
  store  : Tbl Tally := []
  shape  : Option (Nat × Nat) := none
  buf    : List (List Bytes) := []
  deriving DecidableEq, Repr

/-- A chain of descriptors under way from a command (R109, R212): take number, engine or lode, count, strata offset of the
first, the next to offer, how many have completed, whether it is a chain of moves, and, once it is to end early, the status, the index and
W2 of its reply, which follows when nothing of it is queued or in execution any more (R109, R111, R212). -/
structure Chain where
  id    : Nat
  unit  : Nat
  count : Nat
  base  : Nat
  next  : Nat
  ended : Nat
  moves : Bool
  stop  : Option (Nat × Nat × Nat) := none
  deriving DecidableEq, Repr


/-! ### Bead cores (chapter 04) -/

/-- Core states of R152, in the order of their codes. -/
inductive CoreSt where
  | halted | running | held | faulted
  deriving DecidableEq, Repr

/-- Where an exception or a delayed access came from: bundle address, slot, port, address (R146, R155). -/
structure Site where
  pc   : Nat
  slot : Nat
  port : Nat
  addr : Nat
  deriving DecidableEq, Repr

/-- Results in flight (R137): the issue cycle in which they become visible, the result ports and values, whether the data has
not arrived (R138), the access that failed (R146), and the lode that holds the data. -/
structure Flight where
  due  : Nat
  outs : List (Nat × Nat)
  late : Bool := false
  ue   : Option Site := none
  lode : Option Nat := none
  deriving DecidableEq, Repr

/-- A repeat in progress or saved (R141): address of the repeated bundle and of the bundle after it, iterations in all, iterations
issued, and INT. -/
structure Rep where
  pc    : Nat
  next  : Nat
  total : Nat
  done  : Nat
  intr  : Bool
  deriving DecidableEq, Repr

/-- A descriptor offer of the bundle at the program counter (R133): not made, made and waiting for a queue entry, accepted. -/
inductive Offer where
  | none | waiting | accepted
  deriving DecidableEq, Repr

/-- A bead core or IBC (R113): state, program counter, ports by number, results in flight, issue cycles since the start,
idle cycles left of a NOP, repeat, taken branch with its target and the delay bundles left, HALT issued, the pending wait (any-of
or not) with its identifier and the µs·1000 of timeout left while held, the offers of the bundle that waits, the issue cycle in
which the store channel is still busy, exception fields, FW_LOST, the stall cause shown, and the command that started it. -/
structure Core where
  st      : CoreSt := .halted
  pc      : Nat := 0
  ports   : Tbl Nat := []
  flight  : List Flight := []
  cyc     : Nat := 0
  nop     : Nat := 0
  rep     : Option Rep := none
  branch  : Option (Nat × Nat) := none
  halting : Bool := false
  wait    : Option (Bool × Nat) := none
  paused  : Option Nat := none
  mop     : Offer := .none
  dmv     : Offer := .none
  busy    : Option Nat := none
  exc     : Nat := 0
  fwLost  : Bool := false
  repLeft : Nat := 0
  why     : Nat := 0
  stall   : Bool := false
  cmd     : Option Nat := none
  deriving DecidableEq, Repr

/-! ### Strata memory, movers and lock groups (chapter 05) -/

/-- A move descriptor in a queue (R169, R170): its bytes, its issuer, and the chain it belongs to with its index there. -/
structure Move where
  bytes  : Bytes
  issuer : Issuer
  chain  : Option (Nat × Nat)
  deriving DecidableEq, Repr

/-- A move in a mover (R171, R172): its descriptor, its place in dispatch order, its status, the bytes written, where
its signal goes, whether its record may be written, and the failing codeword of an uncorrectable read not yet taken. -/
structure MoveOp where
  mv     : Move
  seq    : Nat
  status : Nat := 0
  bytes  : Nat := 0
  sig    : Option (Xl × Nat) := none
  recOk  : Bool := false
  ue     : Option Nat := none
  deriving DecidableEq, Repr

/-- A lode (R156 to R172, R487): the mover queue of at most 16 entries, the offers that wait for room, the movers' work by mover
number, the next dispatch number, the next line the scrubber reads and the tick at which it is due, corrected codewords waiting for
write-back, the round-robin pointers of the banks by bank × 8 + class (R160), the banks in the second cycle of a partial write (R161),
and whether the lode is idle with its clock gated, waking at a tick. -/
structure Lode where
  queue  : List Move := []
  offers : List Move := []
  movers : Tbl (Option MoveOp) := []
  seq    : Nat := 0
  scrub  : Nat := 0
  scrubDue : Nat := 0
  wb     : List Nat := []
  rr     : Tbl Nat := []
  rmw    : List Nat := []
  idle   : Bool := false
  wake   : Option Nat := none
  deriving DecidableEq, Repr

/-- Lock group states of R180, in the order of their codes. -/
inductive GrpSt where
  | free | formed | armed | running | held
  deriving DecidableEq, Repr

/-- A lock group (R173 to R180): state, members, tenant, armed target, whether the start is late, the tick at which the start event
fired, the LOCK_START that waits, the group cycles up to a tick and that tick. -/
structure Grp where
  st      : GrpSt := .free
  members : List Nat := []
  tenant  : Nat := 0
  target  : Nat := 0
  late    : Bool := false
  fired   : Option Nat := none
  cmd     : Option Nat := none
  cycles  : Nat := 0
  since   : Nat := 0
  deriving DecidableEq, Repr


/-! ### The frame path (chapter 12) -/

/-- An entry of a work queue (R358 to R360, R404): its bytes, and where its signal goes once it has been served. -/
structure WqE where
  bytes : Bytes
  sig   : Option (Xl × Nat) := none
  deriving DecidableEq, Repr

/-- What becomes of a parsed frame (R352, R354): the fabric transport, no tenant, no matching rule, DROP, a receive queue and the
deciding rule, a stream and its rule, or the slow path with its cause and rule. -/
inductive Verdict where
  | transport | noTenant | noMatch | drop | queue (k rule : Nat) | stream (st rule : Nat) | slow (cause rule : Nat)
  deriving DecidableEq, Repr

/-- A frame in the ingress buffer, the pipelines or the reorder buffer (R347 to R350), FCS removed: MAC, bytes, time stamp, class,
colour (0 green, 1 yellow), tenant, whether it has entered a pipeline, its entry version, profile and verdict, and whether
it was released and waits for its stream. -/
structure Frame where
  mac     : Nat
  bytes   : Bytes
  time    : Nat
  cls     : Nat
  colour  : Nat := 0
  tenant  : Nat := 0
  ft      : Bool := false
  piped   : Bool := false
  version : Nat := 0
  profile : Nat := 0xFF
  verdict : Verdict := .drop
  waiting : Bool := false
  deriving DecidableEq, Repr

/-- A tenant's rule set as one rule version (R354, R355): its rules of 64 bytes, SLOW_PORTS, the patterns, and the version that
replaced it, if any. -/
structure RuleSet where
  tenant  : Nat
  version : Nat
  rules   : List Bytes
  slow    : Nat
  pats    : Tbl Bytes
  until_  : Option Nat
  deriving DecidableEq, Repr

/-- A RULES_COMMIT that waits for room (R355). -/
structure Commit where
  id     : Nat
  tenant : Nat
  rules  : List Bytes
  slow   : Nat
  deriving DecidableEq, Repr

/-- An ingest stream (R361 to R364): owner code, open, ring, pattern entry and its index, held by a capture, the last PARTIAL bytes, records whose
RECORDS and signal are still to come, and the STREAM_CLOSE that waits. OFFSET, RECORDS and CONSUMED are its registers. -/
structure Stream where
  owner   : Option Nat := none
  isOpen  : Bool := false
  dst     : Nat := 0
  bytes   : Nat := 0
  pat     : Bytes := []
  pidx    : Nat := 0
  held    : Bool := false
  tail    : Bytes := []
  recs    : Nat := 0
  closing : Option Nat := none
  deriving DecidableEq, Repr

/-- A gate list: states and intervals, and its base (R368). -/
structure GateL where
  entries : List (Nat × Nat)
  base    : Nat
  deriving DecidableEq, Repr

/-- A token bucket (R367, R349): tokens in units of 1/8,000,000 byte for shapers and 1/1,000,000 byte for policers, rate and burst in
force, and new values that the next refill takes. -/
structure Bucket where
  level : Int := 0
  rate  : Nat := 0
  burst : Nat := 0x40000
  next  : Option (Nat × Nat) := none
  deriving DecidableEq, Repr

/-- A tenant's policer (R349). -/
structure Policer where
  aware : Bool := false
  c     : Bucket := {}
  p     : Bucket := {}
  next  : Option Bool := none
  deriving DecidableEq, Repr

/-- A MAC's scheduler (R347, R366 to R368): gate lists in force and pending, current entry, the round's position and whether its
queue has had its quantum, deficits, the queue and class buckets, the tick of the next refill, the classes it has paused, and the
tick until which the peer has paused each class. -/
structure Mac where
  gates   : Option GateL := none
  pend    : Option GateL := none
  entry   : Nat := 0
  ptr     : Nat := 0
  visit   : Bool := false
  deficit : Tbl Nat := []
  qb      : Tbl Bucket := []
  cb      : Tbl Bucket := []
  due     : Nat := 0
  paused  : Tbl Bool := []
  peer    : Tbl Nat := []
  deriving DecidableEq, Repr

/-- A PTP message for the servo (R349, R480). -/
structure PtpMsg where
  mac   : Nat
  bytes : Bytes
  time  : Nat
  deriving DecidableEq, Repr

/-- The frame path. `wq` holds the work queues by number; `txq` the frames of other sources by MAC × 128 + queue; `ftIn` the packets
for the fabric transport; `rxSeq` the deliveries of each tenant. -/
structure Net where
  wq       : Tbl (List WqE) := []
  frames   : List Frame := []
  pipe     : Nat := 0
  sets     : List RuleSet := []
  commits  : List Commit := []
  staged   : Tbl Bytes := []
  patOwner : Tbl Nat := []
  streams  : Tbl Stream := []
  macs     : Tbl Mac := []
  policers : Tbl Policer := []
  polDue   : Nat := 0
  rxSeq    : Tbl Nat := []
  txq      : Tbl (List Bytes) := []
  ptp      : List PtpMsg := []
  ftIn     : List Frame := []
  deriving DecidableEq, Repr


/-! ### Storage (chapter 14) -/

/-- What the service asks of a part of a storage command on one unit (R410, R412): read blocks from the medium, write blocks in place,
replace the unit through a spare unit, unmap it, or write zeros in place. -/
inductive UKind where
  | read | write | atomic | unmap | zero
  deriving DecidableEq, Repr

/-- How far that part is: waiting for its turn, waiting for a spare unit, reading old blocks, writing the new unit, writing the journal
record, reading or writing in place, performed, or given up after an error. -/
inductive UPhase where
  | wait | spare | oldRead | newWrite | journal | inPlace | done | stopped
  deriving DecidableEq, Repr

/-- A part of a storage command: the logical unit, its first block and blocks within the unit, their place in the command, the physical
unit it reads or writes, the spare unit it fills, and the old blocks that it keeps. -/
structure UOp where
  kind  : UKind
  unit  : Nat
  lo    : Nat
  n     : Nat
  off   : Nat
  phase : UPhase := .wait
  phys  : Nat := 0
  fill  : Nat := 0
  old   : Bytes := []
  deriving DecidableEq, Repr

/-- Whom a storage command serves: queue 16t + q, the DRAIN command with a take number (R282), or a command that
a tenant reset ended while its drive commands run to their end (R418). -/
inductive StoFor where
  | queue (i : Nat) | drain (id : Nat) | gone
  deriving DecidableEq, Repr

/-- A taken storage command (R406, R407): take number, whom it serves, whether it holds a tag, its entry, the data in the write buffer
(R413), its parts, its status and results so far, where its signal goes, the tick at which LIMIT passes, and whether it has ended
and only its completion is due. -/
structure StoOp where
  take  : Nat
  for_  : StoFor
  held  : Bool
  op    : Nat
  tag   : Nat := 0
  vol   : Nat := 0
  lba   : Nat := 0
  count : Nat := 0
  buf   : Nat := 0
  data  : Bytes := []
  parts : List UOp := []
  st    : Nat := 0
  r0    : Nat := 0
  r1    : Nat := 0
  sig   : Option (Xl × Nat) := none
  limit : Option Nat := none
  restarts : Nat := 0
  ended : Bool := false
  deriving DecidableEq, Repr

/-- A storage queue (R404): ACTIVE, whether it is IBC-fed, its ring addresses, its completion work queue number, vector, the indices
of both rings, replies not yet freed, PHASE, and whether a fetch or a completion write failed. -/
structure StoQ where
  active : Bool := false
  ibc    : Bool := false
  sq     : Nat := 0
  cq     : Nat := 0
  k      : Nat := 0
  vector : Nat := 0xFFFF
  head   : Nat := 0
  tail   : Nat := 0
  cqTail : Nat := 0
  used   : Nat := 0
  phase  : Bool := true
  failed : Bool := false
  deriving DecidableEq, Repr

/-- A volume (R401): its object state 0 ABSENT, 1 UNBOUND, 2 BOUND, the tenant, drive mask, blocks, and its power request. -/
structure Vol where
  st     : Nat := 0
  tenant : Nat := 0
  mask   : Nat := 0
  blocks : Nat := 0
  preq   : Option Nat := none
  deriving DecidableEq, Repr

/-- Why an NVMe command was issued: part i of the storage command with a take number; the journal record of a VOL_CREATE or VOL_DELETE
command; a power state (R416); autonomous transitions; a deallocation of a unit, which then returns to the spare pool or not. -/
inductive NFor where
  | part (take i : Nat) | vol (id : Nat) (rec : JRec) | power (ps : Nat) | apst | dealloc (phys : Nat) (pool : Bool)
  deriving DecidableEq, Repr

/-- An NVMe command that a drive has not answered, with the tick at which its time limit passes (R400). -/
structure NCmd where
  cid : Nat
  why : NFor
  due : Nat
  deriving DecidableEq, Repr

/-- A Device Self-test of a drive (R414, R415): its kind, whether the drive runs it, whether it has run before, and the commands that
wait on it. -/
structure Test where
  kind : Nat
  on   : Bool
  ran  : Bool
  for_ : List Nat
  deriving DecidableEq, Repr

/-- A drive (R398 to R400, R416): present with its identity, accepted, FAILED, the first failing condition, its power state, its map, the
units to deallocate, commands not answered and not issued yet, the next command identifier, the tick of the last command, the
self-test, and the tick at which a reset of its controller times out. -/
structure Drive where
  id       : Option DriveId := none
  accepted : Bool := false
  failed   : Bool := false
  refuse   : Nat := 0
  ps       : Nat := 0
  dm       : DMap := ⟨[], [], [], 0⟩
  old      : List (Nat × Bool) := []
  cmds     : List NCmd := []
  todo     : List NFor := []
  cid      : Nat := 0
  last     : Nat := 0
  test     : Option Test := none
  resetDue : Option Nat := none
  deriving DecidableEq, Repr

/-- A VOL_CREATE or VOL_DELETE whose journal records are being written (R401, R403). -/
structure VolJob where
  id     : Nat
  vol    : Nat
  mask   : Nat
  blocks : Nat
  make   : Bool
  left   : Nat
  failed : Bool := false
  deriving DecidableEq, Repr

/-- The storage service. -/
structure Storage where
  drives  : Tbl Drive := []
  vols    : Tbl Vol := []
  queues  : Tbl StoQ := []
  ops     : List StoOp := []
  take    : Nat := 0
  lastQ   : Nat := 255
  jobs    : List VolJob := []
  deriving DecidableEq, Repr


/-! ### Seam links (chapter 11) -/

/-- Link states of R325, in the order of their codes. -/
inductive LinkSt where
  | disabled | down | training | check | up | retrain
  deriving DecidableEq, Repr

/-- A DATA flit in the replay buffer (R321): its sequence number, its virtual channel and how often it was sent. -/
structure Flit where
  seq   : Nat
  vc    : Nat
  sends : Nat
  deriving DecidableEq, Repr

/-- A seam link (R318 to R325): state, lanes in use (mask), lanes that are healthy, the tick of the cause of a retrain and of the present
attempt, the tick at which a DOWN link tries again, the next SEQ to send and to accept, the replay buffer, the tick of the last
acknowledgement, credits of the three channels, the cable record, whether it has been UP, the peer's last offset with the tick of its next
sample, what waits for a slot and whether VC 0 has the next turn (R339), whether a retrain may restore x4 (R323), the dealing before it
left UP (R327), when its last CTRL flit left and the peer's last one arrived (R337), the flits since, the tick and the number of CTRL
flits (R320). -/
structure Link where
  st      : LinkSt := .disabled
  lanes   : Nat := 0xF
  cause   : Nat := 0
  attempt : Nat := 0
  retry   : Nat := 0
  txSeq   : Nat := 0
  rxSeq   : Nat := 0
  buf     : List Flit := []
  acked   : Nat := 0
  credits : List Nat := []
  cable   : Bytes := []
  wasUp   : Bool := false
  skew    : Option Int := none
  sample  : Nat := 0
  wait    : List SeamMsg := []
  turn    : Bool := false
  widen   : Bool := false
  deal    : List Nat := []
  t1      : Option Nat := none
  t4      : Option Nat := none
  slot    : Nat := 0
  ctrlAt  : Nat := 0
  ctrls   : Nat := 0
  deriving DecidableEq, Repr

/-- A remote signal's or a command's claim on a transaction: none for a contribution that nothing waits on. -/
inductive SeamFor where
  | signal (g : RemoteSig) | work (id : Nat)
  deriving DecidableEq, Repr

/-- A transaction to a peer (R326, R327): bundle sequence number once sent, source unit, page hash, the link it travels on, the lost
link after which it was sent again, the tick at which it was first sent, the message, and whom it serves. -/
structure SeamTx where
  seq    : Option Nat := none
  unit   : Nat
  hash   : Nat
  link   : Nat := 0
  resent : Option Nat := none
  since  : Nat := 0
  msg    : SeamMsg
  for_   : SeamFor
  deriving DecidableEq, Repr

/-- A bundle (R326, R327, R341): transactions waiting or not acknowledged, oldest first, the next sequence number, the sequence numbers
and statuses of the last transactions received, for each lost link the dealing in force before with that link and the link that carries
on (24 while there is none), and the tick at which its last link went DOWN. -/
structure Bundle where
  txs    : List SeamTx := []
  next   : Nat := 0
  seen   : List (Nat × Nat) := []
  lost   : List (List Nat × Nat × Nat) := []
  downAt : Option Nat := none
  deriving DecidableEq, Repr

/-- The seam: links, bundles by peer position, and the accepted board record. -/
structure Seam where
  links   : Tbl Link := []
  bundles : Tbl Bundle := []
  board   : Bytes := []
  deriving DecidableEq, Repr

/-! ### The fabric transport (chapter 13) -/

/-- A send ring (R376, R377, R379): size exponent, doorbell counter, bases, the next entry to take, completions written, and the entries
that doorbell passes entitle it to take. -/
structure FtRing where
  log2   : Nat
  ctr    : Nat
  base   : Nat
  cq     : Nat
  next   : Nat := 0
  done   : Nat := 0
  credit : Nat := 0
  deriving DecidableEq, Repr

/-- A receive queue (R376, R387): size and slot exponents, SOURCE, SYNC, bases, the address of D, and the next message number. -/
structure FtRq where
  log2 : Nat
  slot : Nat
  src  : Nat
  sync : Nat
  base : Nat
  cq   : Nat
  done : Nat
  next : Nat := 0
  seen : Option Nat := none
  deriving DecidableEq, Repr

/-- Who issued a message: ring 16t + r with its entry number, a remote signal, or a command of the device's engines and a number of its
own. -/
inductive FtFrom where
  | ring (i n : Nat) | signal (g : RemoteSig) | work (id part : Nat)
  deriving DecidableEq, Repr

/-- A packet of a message at its sender (R390): times sent, the tick at which its timeout expires, the timeout, its last path, bucket,
whether it is to be sent again, and whether a NAK of reason RNR started the timeout. -/
structure FtPkt where
  sent  : Nat
  due   : Nat
  rto   : Nat
  path  : Nat
  bkt   : Option Nat
  again : Bool
  rnr   : Bool := false
  deriving DecidableEq, Repr

/-- A message in the sender table (R381): generation, order of its take, issuer, tenant, the fields of its entry, packet size exponent,
the engine's own data (where it does not come from memory), the lowest packet not acknowledged (or, of a READ, not placed), those
acknowledged above it, packets sent, the next packet never sent, the tick of the last progress, retransmissions, and the data of an
engine's READ. -/
structure FtMsg where
  gen     : Nat
  take    : Nat
  from_   : FtFrom
  tenant  : Nat
  op      : Nat
  ord     : Bool
  cls     : Nat
  aop     : Nat := 0
  dst     : Nat
  key     : Nat := 0
  kgen    : Nat := 0
  laddr   : Nat := 0
  raddr   : Nat
  len     : Nat
  operand : Nat := 0
  cmp     : Nat := 0
  sig     : Option (Xl × Nat) := none
  mtu     : Nat
  data    : Option Bytes := none
  cum     : Nat := 0
  held    : List Nat := []
  pk      : Tbl (Option FtPkt) := []
  next    : Nat := 0
  moved   : Nat
  retx    : Nat := 0
  got     : Tbl Bytes := []
  deriving DecidableEq, Repr

/-- States of a receive entry (R392). -/
inductive FtRxSt where
  | active | done | aborted
  deriving DecidableEq, Repr

/-- A receive entry (R383, R384, R389, R392): sender and message, tenant, type, region entry, target address, length, packet size exponent,
class, the packets held, state, the path of the latest packet (a link as 64 + l), packets received since the last ACK and the tick
at which one is due, marks, the ticks of the last packet and of its present state, the time at which a CLOSE frees it, the saved
response of an ATOMIC, and the queue with the message number of a SEND. -/
structure FtRx where
  src    : Nat
  msg    : Nat
  tenant : Nat
  op     : Nat
  region : Option Nat
  addr   : Nat
  len    : Nat
  mtu    : Nat
  cls    : Nat
  held   : List Nat := []
  st     : FtRxSt := .active
  path   : Nat
  count  : Nat := 0
  ackDue : Option Nat := none
  marks  : Nat := 0
  last   : Nat
  since  : Nat
  close  : Option Nat := none
  resp   : Option (Nat × Nat) := none
  rq     : Option (Nat × Nat) := none
  deriving DecidableEq, Repr

/-- A path bucket (R394): rate in Mb/s, tokens in eighths of a byte, the tick up to which they count, the ticks of the last use and cut,
the start of the present interval, and whether it sent and met a mark in it. -/
structure FtBkt where
  rate  : Nat
  level : Int
  upto  : Nat
  used  : Nat
  cut   : Option Nat
  start : Nat
  sent  : Bool
  mark  : Bool
  deriving DecidableEq, Repr

/-- The end of a message of one of the device's engines: its command, its number, status and data. -/
structure FtEnd where
  id   : Nat
  part : Nat
  st   : Nat
  data : Bytes
  deriving DecidableEq, Repr

/-- The fabric transport. `wait` holds engines' messages that the full sender table keeps waiting. `msgs` is the sender table by index, `gens` the generations of its indices; `rings` and `rqs` are keyed by
16 × tenant + number. -/
structure Ft where
  rings : Tbl (Option FtRing) := []
  rqs   : Tbl (Option FtRq) := []
  msgs  : Tbl (Option FtMsg) := []
  gens  : Tbl Nat := []
  rx    : List FtRx := []
  bkts  : Tbl (Option FtBkt) := []
  last  : Nat := 255
  take  : Nat := 0
  wait  : List FtMsg := []
  ends  : List FtEnd := []
  deriving DecidableEq, Repr


/-! ### Collectives (chapter 08) -/

/-- A communicator (R258): ranks, this device's rank, the rank table's address, the number of the next operation, the parts of
contributions that have arrived, and the operations under way or waiting, in take order. -/
structure Comm where
  ranks : Nat
  rank  : Nat
  map   : Nat
  next  : Nat := 0
  parts : List Contrib := []
  jobs  : List Nat := []
  deriving DecidableEq, Repr

/-- A collective or a MOVE under way (R259, R291): take number, tenant, communicator, whether it has begun and with what operation number,
transfers not yet acknowledged, where its signal goes, elements whose conversion was inexact (R265); of a MOVE its LIST, whether
signatures are compared, and the bytes still to arrive in DST; once it has failed, the status and W0, W1 of its reply, which
follows the last of its transfers. -/
structure CollJob where
  id     : Nat
  tenant : Nat
  comm   : Nat
  begun  : Option Nat := none
  left   : Nat := 0
  sig    : Option (Xl × Nat) := none
  inex   : Nat := 0
  list   : Bytes := []
  agreed : Bool := false
  need   : Nat := 0
  span   : Nat := 0
  fail   : Option (Nat × Nat × Nat) := none
  deriving DecidableEq, Repr

/-! ### Checkpoints (chapter 09) -/

/-- A checkpoint slot (R281): state code, step, pools, manifest, the class of its save's traffic, and whether a drain runs. -/
structure CkSlot where
  st       : Nat := 0
  step     : Nat := 0
  pools    : Nat := 0
  man      : Bytes := []
  cls      : Nat := 0
  draining : Bool := false
  deriving DecidableEq, Repr

/-- A registered pool region (R274). -/
structure Pool where
  fdid  : Nat
  key   : Nat
  bytes : Nat
  deriving DecidableEq, Repr

/-- A shard (R272, R275): list entry, offset in it, plaintext bytes, pool and offset in the slot area, plaintext once captured, digest. -/
structure Shard where
  entry  : Nat
  off    : Nat
  bytes  : Nat
  pool   : Nat
  at_    : Nat
  plain  : Bytes := []
  digest : Bytes := []
  deriving DecidableEq, Repr

/-- A save under way (R279): take number, tenant, slot, step of R279, messages not yet ended, the list, STEP, IV time, shards, position
records by entry, where CAPTURE_SYNC goes, the manifest, pools whose commit copy is still to be written and copies acknowledged; once
it has failed, the status of its reply, which follows the last of its messages. -/
structure Save where
  id      : Nat
  tenant  : Nat
  slot    : Nat
  phase   : Nat
  left    : Nat
  list    : Bytes
  step    : Nat
  iv      : Nat
  shards  : List Shard
  pos     : Tbl Bytes := []
  sig     : Option (Xl × Nat) := none
  man     : Bytes := []
  todo    : List Nat := []
  acked   : Nat := 0
  fail    : Option Nat := none
  deriving DecidableEq, Repr

/-- A restore under way (R284): phase 0 reads the commit record and 1 the manifest of the first of the pools still to try, 2 reads shard
`next`, 3 has staged everything. -/
structure Restore where
  id     : Nat
  tenant : Nat
  slot   : Nat
  phase  : Nat
  step   : Nat
  sig    : Bytes
  cand   : List Nat
  com    : Bytes := []
  man    : Bytes := []
  next   : Nat := 0
  deriving DecidableEq, Repr

/-- A piece of a drain (R282): pool, offset in its slot area, bytes, offset in the image, and the bytes to write where they are known; a
commit record is read and held first (`hold`), and written once all are (`fin`). -/
structure Piece where
  pool  : Nat
  off   : Nat
  bytes : Nat
  image : Nat
  data  : Option Bytes := none
  hold  : Bool := false
  fin   : Bool := false
  deriving DecidableEq, Repr

/-- A drain under way: its pieces, the first the one under way, whether that one is being written, the commit records held by pool, the
pools whose commit record is written, and its status so far. -/
structure DrainJob where
  id     : Nat
  tenant : Nat
  slot   : Nat
  vol    : Nat
  todo   : List Piece
  write  : Option Nat := none
  com    : Tbl Bytes := []
  fin    : List Nat := []
  st     : Nat := 0
  r0     : Nat := 0
  r1     : Nat := 0
  deriving DecidableEq, Repr

/-- A RANK_TAKE under way (R287, R288): phase 0 reads commit records, 1 manifests; what has been read, keyed by slot × 64 + pool. -/
structure TakeJob where
  id     : Nat
  tenant : Nat
  rank   : Nat
  sig    : Bytes
  phase  : Nat
  left   : Nat
  com    : Tbl Bytes := []
  man    : Tbl Bytes := []
  st     : Nat := 0
  deriving DecidableEq, Repr

/-- The checkpoint engine: slots keyed by 2 × tenant + slot, pools, ranks and shape signatures by tenant, resume positions by stream,
layouts keyed by 256 × tenant + number, and the work under way. -/
structure Ckpt where
  slots   : Tbl CkSlot := []
  pools   : Tbl (List Pool) := []
  ranks   : Tbl (Option Nat) := []
  sigs    : Tbl Bytes := []
  layouts : Tbl Bytes := []
  saves   : List Save := []
  rests   : List Restore := []
  drains  : List DrainJob := []
  takes   : List TakeJob := []
  comms   : Tbl (Option Comm) := []
  colls   : List CollJob := []
  deriving DecidableEq, Repr

/-! ### Security (chapter 16) -/

/-- A key slot (R455): MODE 0 EMPTY, 1 GCM, 2 XTS, 3 KEK; the tenant mask, the S bit, the key. -/
structure KeySlot where
  mode  : Nat := 0
  grant : Nat := 0
  forS  : Bool := false
  key   : Bytes := []
  deriving DecidableEq, Repr

/-- A cipher operation in a context (R458, R459): take number, tenant, mode, key slot, extents, the descriptor and its address, the key
copied at the start, and where its signal goes. -/
structure CipherOp where
  id     : Nat
  tenant : Nat
  mode   : Nat
  slot   : Nat
  src    : Nat
  dst    : Nat
  bytes  : Nat
  desc   : Bytes
  descAt : Nat
  key    : Bytes
  sig    : Option (Xl × Nat)
  deriving DecidableEq, Repr

/-- The security core (R443 to R466): measurements M0 to M7, the boot flash as it has changed since manufacture (image slots, the mask of
slots marked unusable, the active slot, counters, the digest of owner key 0), the running image, whether counters wait to be raised
(R452), whether the entropy source fails, since which tick, and the REGION_CREATE commands that wait for it with the ticks at which they end
(R448), the helper record that the part has written (R447), whether keys have been derived from the root secret (R445), the cipher
contexts in use, the CRYPT commands that found none free, and the tenant that got the last one (R458). -/
structure Sec where
  meas     : Tbl Bytes := []
  images   : Tbl (Option Bytes) := []
  unusable : Nat := 0
  active   : Option Nat := none
  counters : Tbl (Option Nat) := []
  owner0   : Option Bytes := none
  image    : Option BootImage := none
  store    : Bytes := []
  toRaise  : Bool := false
  rngFail  : Bool := false
  rngSince : Nat := 0
  rngWait  : List (Nat × Nat) := []
  helper   : Bytes := []
  derived  : Bool := false
  ctxs     : List CipherOp := []
  ctxWait  : List Nat := []
  ctxLast  : Nat := 0
  deriving DecidableEq, Repr


/-- The whole machine. -/
structure State where
  regs    : Tbl Nat := []
  latch   : Tbl Nat := []
  resp    : Option Nat := none
  ended   : Option Nat := none
  fresh   : Nat := 0
  tb      : TimeBase := {}
  power   : Power := {}
  pins    : Pins := {}
  tel     : Telemetry := {}
  mem     : Tbl Byte := []
  bad     : Tbl Nat := []
  again   : Tbl Nat := []
  own     : Owners := {}
  memctl  : Tbl MemCtl := []
  hostMem : Tbl HCell := []
  hosts   : Tbl HostFn := []
  ports   : Tbl HostPort := []
  wire    : List Sent := []
  cmd     : CmdEng := {}
  sync    : Sync := {}
  fw      : Tbl Fw := []
  eng     : Tbl Eng := []
  chains  : List Chain := []
  cores   : Tbl Core := []
  lodes   : Tbl Lode := []
  groups  : Tbl Grp := []
  net     : Net := {}
  sto     : Storage := {}
  seam    : Seam := {}
  ft      : Ft := {}
  ckpt    : Ckpt := {}
  keys    : Tbl KeySlot := []
  sec     : Sec := {}
  pending : List Instr := []
  deriving DecidableEq, Repr

/-- The machine right after reset: every register at the reset value of its table, no memory written (memory reads zero,
R168, R311), every queue and table empty. (DESIGN CHOICE, log entry 3.) -/
def State.reset : State := {}

end Sys2Proof.Machine
end

