-- ==== Sys2Proof/Machine/Ops.lean ====
section
/-! DEFINITION. The operations every meaning is built from: outcomes, registers, time, memory and its code, requester checks,
records and sticky bits. -/
namespace Sys2Proof.Machine

open Sys2Proof

/-- What a meaning answers. -/
abbrev Res := Host.Outcome State Fault Refusal

/-- Do `f` where the operands name instances that exist and clocks run; with the clocks stopped nothing happens (R469,
R473, R474). (DEDUCED, log entry 1; DEDUCED, log entry 81.) -/
def run (ok : Bool) (s : State) (f : State → State) : Res :=
  if ok then .next (if s.power.running then f s else s) else .refused .noSuchInstance

/-- Do `f` where a condition holds; otherwise the event does not happen and nothing changes (log entry 1). -/
def onlyIf (c : Bool) (f : State → State) (s : State) : State := if c then f s else s

/-! ### Registers -/

/-- The value of a register (R11: the reset value until something writes it). -/
def State.reg (s : State) (r : Reg) (i : Nat := 0) (j : Nat := 0) : Nat :=
  tget (regReset r i j) s.regs (regAddr r i j 0)

/-- Give a register a value, cut to its width. -/
def State.setReg (s : State) (r : Reg) (i j v : Nat) : State :=
  { s with regs := tput (regReset r i j) s.regs (regAddr r i j 0) (v % 2 ^ (32 * (regRow r).words)) }

/-- Set bits of a register without reporting them. -/
def State.orReg (s : State) (r : Reg) (i j m : Nat) : State := s.setReg r i j (s.reg r i j ||| m)

/-- Replace a field of a register. -/
def State.setField (s : State) (r : Reg) (i j h l v : Nat) : State := s.setReg r i j (putBits (s.reg r i j) h l v)

/-- Count events in a register: a 32-bit count saturates, a 64-bit count wraps. -/
def State.count (s : State) (r : Reg) (i j n : Nat) : State :=
  if (regRow r).words = 1 then s.setReg r i j (satAdd 0xFFFFFFFF (s.reg r i j) n)
  else s.setReg r i j (s.reg r i j + n)

/-- The timing-variation counters TEL.TV (R249). -/
def State.countTv (s : State) (c n : Nat) : State := s.count .telTv 0 c n

/-! ### Time -/

/-- The time base in nanoseconds (R30). -/
def State.now (s : State) : Nat := s.tb.master.toNat / 2 ^ 16

/-- TB.ADJ as a signed rate (R30). -/
def tbAdjOf (s : State) : Int := sext 8 (s.reg .tbAdj)

/-- One TBCLK tick: the master counter adds 1 ns plus TB.ADJ (R30), and timeouts count it (R34). (DESIGN CHOICE, log entry 2.) -/
def tick (s : State) : State :=
  { s with tb := { s.tb with
      master := s.tb.master + BitVec.ofInt 80 (2 ^ 16 + tbAdjOf s)
      ticks := s.tb.ticks + 1 } }

/-- Ticks in a microsecond and in a millisecond (TBCLK is 1 GHz, R26). -/
def usTicks : Nat := 1000
def msTicks : Nat := 1000000

/-- Arm an event on the time base (R32): a target already reached is accepted and fires late, at the next tick (R526). -/
def arm (o : EvOwner) (target : Nat) (s : State) : State :=
  { s with tb := { s.tb with armed := s.tb.armed ++ [⟨o, target, decide (target ≤ s.now), s.tb.ticks + 1⟩] } }

/-- An armed event of an owner goes (R32). -/
def disarm (o : EvOwner) (s : State) : State := { s with tb := { s.tb with armed := s.tb.armed.filter fun e => e.owner != o } }

/-- An armed event fires in this tick: the time base has reached its target, and the tick is one at which it may fire (R32, R33). -/
def ArmedEv.due (e : ArmedEv) (s : State) : Bool := decide (e.target ≤ s.now) && decide (e.start ≤ s.tb.ticks)

/-- A draw of a value the spec leaves open: the draw's number, and the state with the draw spent. -/
def draw (s : State) : Nat × State := (s.fresh, { s with fresh := s.fresh + 1 })

/-- Something leaves the part. (DESIGN CHOICE, log entry 97.) -/
def send (m : Sent) (s : State) : State := { s with wire := m :: s.wire }

/-! ### Records, paths and captures (R491 to R504) -/

/-- The bytes of a record (R491), with PHASE in bit 7 of byte 0. -/
def recBytes (phase : Bool) (r : Rec) : Bytes :=
  fit 64 (leBytes 1 (r.cls + if phase then 128 else 0)
    ++ leBytes 1 (match r.tenant with | some t => t + 16 | none => 0) ++ zeros 2
    ++ leBytes 4 r.source ++ leBytes 8 r.seq ++ leBytes 8 r.time ++ leBytes 4 r.count ++ zeros 4
    ++ leBytes 2 r.kind ++ r.body)

/-- Queue entries Q and the entries reserved for ALARM, A, of a path (R497). -/
def pathQ (p : Nat) : Nat := if p < 18 then 128 else if p = 18 then 64 else if p = 19 then 256 else 1024
def pathA (p : Nat) : Nat := if p = 20 then 16 else 8

def accAdd (a : Option Acc) (n seq : Nat) : Option Acc :=
  match a with
  | none => some ⟨n, seq, seq⟩
  | some x => some ⟨satAdd 0xFFFFFFFF x.count n, x.first, seq⟩

def State.path (s : State) (p : Nat) : Path := tget {} s.tel.paths p
def State.setPath (s : State) (p : Nat) (x : Path) : State :=
  { s with tel := { s.tel with paths := tput {} s.tel.paths p x } }

/-- The record of a MORE or GAP accumulator, with a new SEQ (R492, R503). -/
def accRec (s : State) (p : Nat) (a : Acc) (more : Bool) : Rec :=
  { cls := if more then 1 else 2, tenant := none, source := regAddr .errPathSts 0 p 0, seq := s.tel.nextSeq, time := s.now,
    count := a.count, kind := if more then 0x800B else 0x800C,
    body := zeros 6 ++ leBytes 8 a.first ++ leBytes 8 a.last }

/-- Put a record at the end of a path's queue. The sideband raises an in-band interrupt when its queue leaves empty and
when an ALARM enters a queue that holds a record (R499). -/
def enqueue (p : Nat) (r : Rec) (s : State) : State :=
  let x := s.path p
  let s := if p = 18 ∧ (x.queue = [] ∨ r.cls = 0) then { s with tel := { s.tel with ibis := s.tel.ibis + 1 } } else s
  s.setPath p { x with queue := x.queue ++ [(r, s.tb.ticks)] }

/-- Enter one pending ALARM record, as soon as the queue has an entry. -/
def flushAlarm (p : Nat) (s : State) : State :=
  match (s.path p).alarms with
  | [] => s
  | r :: t =>
    if (s.path p).queue.length < pathQ p then enqueue p r (s.setPath p { s.path p with alarms := t }) else s

/-- Enter the pending MORE record once the occupancy is below Q - A (R502). -/
def flushMore (p : Nat) (s : State) : State :=
  match (s.path p).more with
  | some a =>
    if (s.path p).queue.length < pathQ p - pathA p then
      enqueue p (accRec s p a true)
        (({ s with tel := { s.tel with nextSeq := s.tel.nextSeq + 1 } } : State).setPath p { s.path p with more := none })
    else s
  | none => s

/-- Enter the pending GAP record once that leaves the occupancy below 3Q/4 (R503). -/
def flushGap (p : Nat) (s : State) : State :=
  match (s.path p).gap with
  | some a =>
    if (s.path p).queue.length + 1 < 3 * pathQ p / 4 then
      enqueue p (accRec s p a false)
        (({ s with tel := { s.tel with nextSeq := s.tel.nextSeq + 1 } } : State).setPath p { s.path p with gap := none })
    else s
  | none => s

/-- Enter the pending records that the path's occupancy now lets in: ALARM, then MORE, then GAP (R502, R503). -/
def flushPath (p : Nat) (s : State) : State :=
  flushGap p (flushMore p ((s.path p).alarms.foldl (fun s _ => flushAlarm p s) s))

/-- Hold an ALARM record pending: one per KIND and SOURCE, the latest record, its COUNT accumulated (R502). -/
def holdAlarm (l : List Rec) (r : Rec) : List Rec :=
  match takeFirst (fun x => x.kind == r.kind && x.source == r.source) l with
  | some (x, _) => lmod (fun y => y.kind == r.kind && y.source == r.source)
      (fun _ => { r with count := satAdd 0xFFFFFFFF x.count r.count }) l
  | none => l ++ [r]

/-- Offer a record to a path that selects it (R502). -/
def admitIn (p : Nat) (r : Rec) (s : State) : State :=
  let x := s.path p
  let n := x.queue.length
  let s :=
    if r.cls = 0 then
      if n < pathQ p then enqueue p r s
      else (s.setPath p { x with alarms := holdAlarm x.alarms r }).count .errPathAlarm 0 p 1
    else if r.cls = 1 then
      if n < pathQ p - pathA p then enqueue p r s
      else (s.setPath p { x with more := accAdd x.more r.count r.seq }).count .errPathMerged 0 p 1
    else if n < (if r.cls = 2 then 3 * pathQ p / 4 else pathQ p / 2) then enqueue p r s
    else (s.setPath p { x with gap := accAdd x.gap r.count r.seq }).count .errPathDrop 0 p 1
  flushPath p s

/-- Whether a path selects a record (R497). A TRACE record goes to a tenant's ring and to the export only where its
configuration's DEST names them (R507; DEDUCED, log entry 9). -/
def selects (s : State) (p : Nat) (r : Rec) : Bool :=
  let cfg := match r.tenant with | some t => (tget {} s.tel.traces t).dest | none => 3
  if p < 18 then
    bit (s.reg .logClasses 0 p) r.cls
      && (decide (16 ≤ p) || (r.tenant == some p && (decide (r.cls ≠ 3) || bit cfg 0)))
  else if p = 18 then decide (r.cls < 2) || (r.cls == 2 && bit (s.reg .sidebandCtl) 0)
  else if p = 19 then bit (bits (s.reg .exportCtl) 12 9) r.cls && (decide (r.cls ≠ 3) || bit cfg 1)
  else decide (r.cls < 2)

/-- Capture the first ERROR or ALARM record (R495). -/
def capture (r : Rec) (s : State) : State :=
  if r.cls ≤ 1 then
    let s := if bit (s.reg .errFirstCtl) 0 then s
      else (s.setReg .errFirst 0 0 (leNat (recBytes false r))).setReg .errFirstCtl 0 0 1
    match r.tenant with
    | some t => if bit (s.reg .errTenCtl 0 t) 0 then s
      else (s.setReg .errTenFirst 0 t (leNat (recBytes false r))).setReg .errTenCtl 0 t 1
    | none => s
  else s

/-- Create a record: number it, capture it, and offer it to every path that selects it (R493, R495, R497). (DESIGN CHOICE, log entry 82.) -/
def raise (cls : Nat) (tenant : Option Nat) (source kind : Nat) (body : Bytes) (s : State) : State :=
  let r : Rec := ⟨cls, tenant, source, s.tel.nextSeq, s.now, 1, kind, fit 30 body⟩
  let s := capture r { s with tel := { s.tel with nextSeq := s.tel.nextSeq + 1 } }
  (List.range 21).foldl (fun s p => if selects s p r then admitIn p r s else s) s

/-- Set sticky bits that feed error reporting: the bits that go from 0 to 1 raise one REGISTER record (R494), with the
capture that accompanies them in body bytes 15:8. -/
def stickyRec (cls : Nat) (ten : Option Nat) (cap : Nat) (r : Reg) (i j m : Nat) (s : State) : State :=
  let new := m &&& ((s.reg r i j) ^^^ m)
  let s := s.orReg r i j m
  if new = 0 then s else raise cls ten (regAddr r i j 0) 0x8001 (zeros 2 ++ leBytes 4 new ++ leBytes 8 cap) s

def sticky (ten : Option Nat) (r : Reg) (i j m : Nat) (s : State) : State := stickyRec 1 ten 0 r i j m s

/-- A trace hit (R507, R508): where the tenant traces the point in that lode, every DIVIDE-th hit of the point in that
unit makes a TRACE record. `lode` is none for a point of no lode. -/
def traceHit (ten point unit status arg gcyc : Nat) (lode : Option Nat) (s : State) : State :=
  let c := tget {} s.tel.traces ten
  let inLode := match lode with | some n => bit c.lodes n | none => true
  if bit c.points point && inLode then
    let k := point * 2 ^ 16 + unit
    let h := tget 0 c.hits k + 1
    let full := decide (c.divide ≤ h)
    let s := { s with tel := { s.tel with
      traces := tput {} s.tel.traces ten { c with hits := tput 0 c.hits k (if full then 0 else h) } } }
    if full then raise 3 (some ten) (regAddr .detCtrl 0 ten 0) 0x800D
      (leBytes 2 point ++ leBytes 4 unit ++ leBytes 2 status ++ zeros 2 ++ leBytes 4 arg ++ leBytes 8 gcyc) s
    else s
  else s

/-! ### The address map (R39, R40, R296, R300) -/

/-- What lies at a device address. -/
inductive Place where
  | hbm | lpx | strata (n : Nat) | imem (core : Nat) | regs | host | nothing
  deriving DecidableEq, Repr

def hbmBytes : Nat := 0x8000000000
def lpxBase : Nat := 0x20000000000
def strataBase : Nat := 0x30000000000
def imemBase : Nat := 0x30400000000
def regBase : Nat := 0x40000000000
def hostBase : Nat := 0x8000000000000

/-- Modules in use, in ascending slot order (R40, R299): LPX[m].STS.FITTED. -/
def modules (s : State) : List Nat := (List.range 4).filter fun m => bit (s.reg .memSts (8 + m)) 5

/-- The range of R39 an address lies in, and the end of that range. -/
def place (s : State) (a : Nat) : Place × Nat :=
  if a < hbmBytes then (.hbm, hbmBytes)
  else if lpxBase ≤ a ∧ a < lpxBase + (modules s).length * 56 * 2 ^ 30 then
    (.lpx, lpxBase + (modules s).length * 56 * 2 ^ 30)
  else if strataBase ≤ a ∧ a < strataBase + 0x20000000 then
    let n := (a - strataBase) / 0x1000000
    (.strata n, strataBase + (n + 1) * 0x1000000)
  else if imemBase ≤ a ∧ a < imemBase + 0x1100000 then
    let k := (a - imemBase) / 0x10000
    (.imem k, imemBase + (k + 1) * 0x10000)
  else if regBase ≤ a ∧ a < regBase + 0x4000000 then (.regs, regBase + 0x4000000)
  else if hostBase ≤ a ∧ a < 2 * hostBase then (.host, 2 * hostBase)
  else (.nothing, 0)

/-- The end of the contiguous range of R39 that holds an address (strata memory and instruction memory as whole
ranges). -/
def rangeEnd (s : State) (a : Nat) : Nat :=
  match place s a with
  | (.strata _, _) => strataBase + 0x20000000
  | (.imem k, _) => if k < 256 then imemBase + 0x1000000 else imemBase + 0x1100000
  | (_, e) => e

/-- The stack, pseudo-channel and chunk rest of an offset in a segment (R296). -/
def hbmMap (mode o : Nat) : Nat × Nat × Nat :=
  match mode with
  | 1 => let c := bits o 31 8
         (4 * bits o 32 32 + ((c % 4) ^^^ bits c 9 8), bits c 6 2 ^^^ bits c 14 10, c >>> 7)
  | 2 => let c := bits o 29 8
         (bits o 32 30, bits c 4 0 ^^^ bits c 12 8, c >>> 5)
  | _ => let c := bits o 32 8
         ((c % 8) ^^^ bits c 10 8, bits c 7 3 ^^^ bits c 15 11, c >>> 8)

/-- The controller instance and channel that serve an HBM or LPDDR5X address (R20, R296, R300): stacks 0 to 7, LPX[m]
as 8 + m. -/
def controller (s : State) (a : Nat) : Nat × Nat :=
  if a < hbmBytes then
    let (h, pc, _) := hbmMap (s.reg .segMode 0 (a / 2 ^ 33) % 4) (a % 2 ^ 33)
    (h, pc)
  else
    let ms := modules s
    (8 + ms.getD (((a - lpxBase) / 256) % ms.length) 0, 0)

/-! ### The symbol code (R165, R166, R306 to R309) -/

/-- What reading a stored codeword meets. -/
inductive CwSt where
  | clean | corrected | wrong | uncorrectable
  deriving DecidableEq, Repr

/-- The outcome of reading a codeword with `n` wrong symbols: one is corrected, two detected, three or more open within
R306's bounds. `wrong` is a one-symbol correction to other data. (DESIGN CHOICE, log entry 83.) -/
def cwOutcome (cw n : Nat) : CwSt :=
  match n with
  | 0 => .clean
  | 1 => .corrected
  | 2 => .uncorrectable
  | _ => match Config.tripleOutcome cw % 3 with
    | 0 => .uncorrectable
    | 1 => .wrong
    | _ => .clean

def State.memc (s : State) (c : Nat) : MemCtl := tget {} s.memctl c
def State.setMemc (s : State) (c : Nat) (x : MemCtl) : State := { s with memctl := tput {} s.memctl c x }

/-- A failed lane that no spare replaces damages two symbols of every codeword of its pseudo-channel (R305, R306). -/
def laneDamage (s : State) (cw : Nat) : Nat :=
  if cw * 32 < hbmBytes then let (c, ch) := controller s (cw * 32); if (s.memc c).dead.contains ch then 2 else 0 else 0

/-- Wrong symbols of a codeword as a read meets it. -/
def damage (s : State) (cw : Nat) : Nat := tget 0 s.bad cw + laneDamage s cw

/-- What the first read of a codeword meets. -/
def cwSt (s : State) (cw : Nat) : CwSt := cwOutcome cw (damage s cw)

/-- The second read of a corrected codeword of HBM or LPDDR5X is uncorrectable or corrects to other data (R307); it meets the same symbols
unless the damage changes between the two. (DESIGN CHOICE, log entry 83.) -/
def retryFails (s : State) (cw : Nat) : Bool :=
  match tget 0 s.again cw, (place s (cw * 32)).1 with
  | k + 1, .hbm | k + 1, .lpx =>
    let b := cwOutcome cw (k + laneDamage s cw)
    b == .uncorrectable || (b != .clean && b != cwSt s cw)
  | _, _ => false

/-- A read of the codeword is uncorrectable (R307, R308). -/
def unreadable (s : State) (cw : Nat) : Bool :=
  match cwSt s cw with
  | .clean => false
  | .uncorrectable => true
  | _ => retryFails s cw

/-- A byte as a read delivers it. (DESIGN CHOICE, log entry 71.) -/
def memByte (s : State) (a : Nat) : Byte :=
  if tget 0 s.bad (a / 32) ≠ 0 ∧ damage s (a / 32) ≥ 3 then (fit 32 (Config.tripleData (a / 32))).getD (a % 32) 0 else tget 0 s.mem a

def memBytes (s : State) (a n : Nat) : Bytes := (List.range n).map fun i => memByte s (a + i)

/-- Raise a CE_THRESH record when CE_COUNT passes a multiple of CE_THRESH (R310). -/
def ceThresh (c ch : Nat) (s : State) : State :=
  let t := s.reg .memCeThresh c
  let n := s.reg .memCe c
  if t ≠ 0 ∧ n % t = 0 then
    raise 2 none (regAddr .memCe c 0 0) 0x8007 (zeros 2 ++ leBytes 4 (if c < 8 then ch else c - 8) ++ leBytes 4 n) s
  else s

def State.lode (s : State) (n : Nat) : Lode := tget {} s.lodes n
def State.setLode (s : State) (n : Nat) (l : Lode) : State := { s with lodes := tput {} s.lodes n l }
def State.core (s : State) (k : Nat) : Core := tget {} s.cores k
def State.setCore (s : State) (k : Nat) (c : Core) : State := { s with cores := tput {} s.cores k c }
def State.engine (s : State) (n : Nat) : Eng := tget {} s.eng n
def State.setEngine (s : State) (n : Nat) (e : Eng) : State := { s with eng := tput {} s.eng n e }
def State.grp (s : State) (g : Nat) : Grp := tget {} s.groups g
def State.setGrp (s : State) (g : Nat) (x : Grp) : State := { s with groups := tput {} s.groups g x }
def State.fwp (s : State) (p : Nat) : Fw := tget {} s.fw p
def State.setFw (s : State) (p : Nat) (x : Fw) : State := { s with fw := tput {} s.fw p x }

/-- Write a codeword back as its read delivered it (R307). -/
def writeBack (cw : Nat) (s : State) : State :=
  { s with
    mem := if tget 0 s.bad cw ≠ 0 ∧ damage s cw ≥ 3 then memWrite s.mem (cw * 32) (fit 32 (Config.tripleData cw)) else s.mem
    bad := tdel s.bad cw
    again := tdel s.again cw }

/-- A corrected read of a codeword: in strata memory counted and left for the scrubber's write-back (R165); in HBM and
LPDDR5X read again, written back and counted (R307). -/
def corrected (s : State) (cw : Nat) : State :=
  let a := cw * 32
  match (place s a).1 with
  | .strata n =>
    let s := (s.count .strCe n 0 1).orReg .strErr n 0 1
    let l := s.lode n
    if l.wb.contains cw then s else s.setLode n { l with wb := l.wb ++ [cw] }
  | .imem k => s.orReg .bcErr k 0 8
  | .hbm | .lpx =>
    let (c, ch) := controller s a
    let full := s.reg .memCe c == 0xFFFFFFFF
    let s := (((((writeBack cw s).count .memRetry c 0 1).countTv 6 1).count .memCe c 0 1).orReg .memErr c 0 1)
    if full then s else ceThresh c ch s
  | _ => s

/-- Keep the first uncorrectable codeword of a controller or lode. -/
def captureUe (r : Reg) (i vbit v : Nat) (s : State) : State :=
  if bit (s.reg r i) vbit then s else s.setReg r i 0 (v + 2 ^ vbit)

/-- An uncorrectable codeword met by a read (`k` the sticky bits: 2 UE, 4 RMW_UE, 8 SCRUB_UE, and 16 RETRY_UE with one of them). -/
def uncorrectable (s : State) (cw k : Nat) : State :=
  let a := cw * 32
  let m := k % 16
  match (place s a).1 with
  | .strata n =>
    let s := if m = 4 then s else captureUe .strUeAddr n 31 (a % 0x1000000) s
    stickyRec 1 none a .strErr n 0 m s
  | .imem k => s.orReg .bcErr k 0 16
  | .hbm | .lpx =>
    let (c, _) := controller s a
    let s := if m = 2 then s.count .memUe c 0 1 else s
    let s := if m = 4 then s else captureUe .memUeAddr c 63 a s
    stickyRec 1 none a .memErr c 0 k s
  | _ => s

/-- Read a codeword on behalf of a requester (2), a partial write (4) or the scrubber (8): the state with its error counted, and whether
its data is returned. A codeword whose retry fails is uncorrectable from then on (R307, R308). -/
def cwReadAs (m : Nat) (s : State) (cw : Nat) : State × Bool :=
  match cwSt s cw with
  | .clean => (s, true)
  | .uncorrectable => (uncorrectable s cw m, false)
  | _ =>
    if retryFails s cw then (uncorrectable { s with bad := tput 0 s.bad cw 2, again := tdel s.again cw } cw (m + 16), false)
    else (corrected s cw, true)

/-- Read a codeword: the state with its error counted, and whether its data is returned. -/
def cwRead (s : State) (cw : Nat) : State × Bool := cwReadAs 2 s cw

/-- Read codewords in address order until one is uncorrectable: that codeword's address. -/
def cwReads (s : State) : List Nat → State × Option Nat
  | [] => (s, none)
  | cw :: t => match cwRead s cw with
    | (s, true) => cwReads s t
    | (s, false) => (s, some (cw * 32))

/-- The codewords that a range touches. -/
def cwsOf (a n : Nat) : List Nat := if n = 0 then [] else (List.range ((a + n - 1) / 32 - a / 32 + 1)).map (· + a / 32)

/-- The other codewords of the first and the last line of a range: HBM and LPDDR5X are read in whole lines (R295). -/
def lineMates (s : State) (a n : Nat) : List Nat × List Nat :=
  match (place s a).1 with
  | .hbm | .lpx =>
    if n = 0 then ([], [])
    else (if a / 32 % 2 = 1 then [a / 32 - 1] else [], if (a + n - 1) / 32 % 2 = 0 then [(a + n - 1) / 32 + 1] else [])
  | _ => ([], [])

/-- Codewords that are read beside those asked for: their errors count and are captured, and end no request. (DESIGN CHOICE, log entry 83.) -/
def readBeside (l : List Nat) (s : State) : State := l.foldl (fun s cw => (cwRead s cw).1) s

/-- Read memory: the bytes, or the address of the first uncorrectable codeword. -/
def readMem (s : State) (a n : Nat) : State × Except Nat Bytes :=
  let d := memBytes s a n
  let mates := lineMates s a n
  match cwReads (readBeside mates.1 s) (cwsOf a n) with
  | (s, none) => (readBeside mates.2 s, .ok d)
  | (s, some e) => (s, .error e)

/-- Fault injection on the next whole-codeword write to the armed channel (R317): the symbols the codeword is stored
with inverted. -/
def injected (s : State) (a : Nat) : Nat × State :=
  match (place s a).1 with
  | .hbm | .lpx =>
    let (c, ch) := controller s a
    let v := s.reg .memInject c
    let n := bits v 2 1
    if bit v 0 && (n == 1 || n == 2) && (decide (8 ≤ c) || bits v 7 3 == ch) then
      (n, s.setField .memInject c 0 0 0 0)
    else (0, s)
  | _ => (0, s)

/-- Write the part of one codeword: whole, it replaces the codeword (R308, R309); in part, it is a read-modify-write
that writes nothing over an uncorrectable codeword. The error address where it failed. -/
def cwWrite (s : State) (a : Nat) (bs : Bytes) : State × Option Nat :=
  let cw := a / 32
  if bs.length = 32 then
    let (n, s) := injected s a
    ({ s with mem := memWrite s.mem a bs, bad := tput 0 s.bad cw n, again := tdel s.again cw }, none)
  else if damage s cw = 0 then ({ s with mem := memWrite s.mem a bs }, none)
  else
    match cwReadAs 4 s cw with
    | (s, false) => (s, some (cw * 32))
    | (s, true) =>
      let s := writeBack cw s
      ({ s with mem := memWrite s.mem a bs }, none)

/-- Cut bytes at codeword boundaries: each part with its address. -/
def cwSplit : Nat → Nat → Bytes → List (Nat × Bytes)
  | 0, _, _ => []
  | f + 1, a, bs =>
    if bs.isEmpty then [] else
      let k := 32 - a % 32
      (a, bs.take k) :: cwSplit f (a + k) (bs.drop k)

def cwWrites (s : State) : List (Nat × Bytes) → State × Option Nat
  | [] => (s, none)
  | (a, bs) :: t => match cwWrite s a bs with
    | (s, none) => cwWrites s t
    | r => r

/-- Write memory, codeword by codeword in address order, stopping at a codeword that cannot be written. -/
def writeMem (s : State) (a : Nat) (bs : Bytes) : State × Option Nat :=
  cwWrites s (cwSplit (bs.length + 1) a bs)

/-- Write up to a line whole or not at all: a partial write over an uncorrectable codeword writes nothing (R128, R146, R172, R308). -/
def storeWhole (s : State) (a : Nat) (bs : Bytes) : State × Option Nat :=
  match (cwSplit (bs.length + 1) a bs).find? fun (p, b) => b.length < 32 && unreadable s (p / 32) with
  | some (p, _) => ((cwReadAs 4 s (p / 32)).1, some (p / 32 * 32))
  | none => writeMem s a bs

/-- Zero memory with valid check bits (R168, R297, R311). -/
def zeroMem (s : State) (a n : Nat) : State :=
  { s with mem := memZero s.mem a n, bad := tdrop s.bad fun cw => decide (a ≤ cw * 32) && decide (cw * 32 < a + n)
           again := tdrop s.again fun cw => decide (a ≤ cw * 32) && decide (cw * 32 < a + n) }

/-! ### Who may reach what (R36 to R42, R312, R527) -/

/-- The owner code of a lode, an IBC or a core: 0 world S, t + 1 tenant t. -/
def lodeOwner (s : State) (n : Nat) : Nat := tget 0 s.own.lodes n
def coreOwner (s : State) (k : Nat) : Nat := if k < 256 then lodeOwner s (k / 8) else tget 0 s.own.ibcs (k - 256)

def State.region (s : State) (e : Nat) : Region := tget {} s.own.regions e
def State.setRegion (s : State) (e : Nat) (r : Region) : State :=
  { s with own := { s.own with regions := tput {} s.own.regions e r } }

/-- A word of the region or owner table that no read can deliver (R306, R317). (DESIGN CHOICE, log entry 80.) -/
def tableWordUe (s : State) (w : Nat) : Bool := cwOutcome (2 ^ 60 + w) (tget 0 s.own.tableBad w) == .uncorrectable

/-- The entry that holds a range whole, and is not ABSENT. (DESIGN CHOICE, log entry 80.) -/
def regionAt (s : State) (a n : Nat) : Option (Nat × Region) :=
  s.own.regions.find? fun e => decide (e.2.st ≠ 0) && decide (e.2.base ≤ a) && decide (a + n ≤ e.2.base + e.2.bytes)

/-- The first entry, not ABSENT, that touches a range. -/
def regionTouch (s : State) (a n : Nat) : Option (Nat × Region) :=
  s.own.regions.find? fun e => decide (e.2.st ≠ 0) && decide (e.2.base < a + n) && decide (a < e.2.base + e.2.bytes)

/-- The tenant of a world-N requester as an owner code. -/
def ownerOf (r : Requester) : Nat := match r.world with | .s => 0 | .n => r.tenant + 1

/-- A tenant's own request from one of its units or commands. -/
def tenReq (t unit : Nat) : Requester := ⟨.n, t, unit⟩

/-- The identity of the units of a lode or an IBC, by their owner code. -/
def ownReq (o unit : Nat) : Requester := if o = 0 then ⟨.s, 0, unit⟩ else ⟨.n, o - 1, unit⟩

/-- Whether the local rights of a region give a tenant an access (R312). (DEDUCED, log entry 5.) -/
def regionGrants (r : Region) (t : Nat) (wr : Bool) : Bool :=
  r.st == 1 && ((r.world && r.tenant == t) || bit r.share t) && bit r.rights (if wr then 1 else 0)

/-- Every byte of an instruction memory range lies in the memory of cores of this owner (R312). -/
def imemOwned (s : State) (o a n : Nat) : Bool :=
  (List.range ((a + n - 1 - imemBase) / 0x10000 - (a - imemBase) / 0x10000 + 1)).all fun i =>
    coreOwner s ((a - imemBase) / 0x10000 + i) == o

/-- Where the grant that holds an address ends: memory of the tenant's own lodes, or the region entry that holds the address and
grants the access (R312). (DEDUCED, log entry 5.) -/
def grantEnd (s : State) (r : Requester) (wr : Bool) (p : Nat) : Option Nat :=
  match (place s p).1 with
  | .strata k => if lodeOwner s k = ownerOf r then some (strataBase + (k + 1) * 0x1000000) else byRegion
  | _ => byRegion
where
  byRegion : Option Nat :=
    match regionAt s p 1 with
    | some (e, g) => if !tableWordUe s e && regionGrants g r.tenant wr then some (g.base + g.bytes) else none
    | none => none

/-- Every address from p up to e lies in a grant; the grants may be several that adjoin (R42, R312). (DEDUCED, log entry 5.) -/
def granted (s : State) (r : Requester) (wr : Bool) (e : Nat) : Nat → Nat → Bool
  | 0, p => decide (e ≤ p)
  | f + 1, p => decide (e ≤ p) || match grantEnd s r wr p with
    | some q => granted s r wr e f q
    | none => false

/-- Whether a request is permitted (R42, R312, R527): one whole range of the map, and for world N regions that grant
it, or memory of the tenant's own lodes and IBC. The host window is governed by the host interface. -/
def permits (s : State) (r : Requester) (a n : Nat) (wr : Bool) : Bool :=
  match (place s a).1 with
  | .nothing | .regs | .host => false
  | p =>
    decide (a + n ≤ rangeEnd s a) &&
    match r.world with
    | .s => true
    | .n =>
      match p with
      | .imem _ => imemOwned s (ownerOf r) a n
      | _ => granted s r wr (a + n) (s.own.regions.length + 33) a

/-- Whether every row of a strided extent is permitted. -/
def permitsRows (s : State) (r : Requester) (a step rows n : Nat) (wr : Bool) : Bool :=
  permits s r a ((rows - 1) * step + n) wr || (List.range rows).all fun i => permits s r (a + i * step) n wr

/-- The requester identity as the ADDR_DENIED capture holds it: world [16], tenant [15:12], source unit [11:0] (R492). -/
def reqCode (r : Requester) : Nat :=
  (if r.world = .n then 2 ^ 16 else 0) + (r.tenant % 16) * 2 ^ 12 + r.unit % 2 ^ 12

/-- A refused request sets ERR.GLB_STS.ADDR_DENIED and captures the requester identity (R42). (DEDUCED, log entry 84.) -/
def addrDenied (r : Requester) (s : State) : State :=
  stickyRec 1 (if r.world = .n then some r.tenant else none) (reqCode r) .errGlbSts 0 0 1 s

/-- A request meets a region entry that cannot be read: it ends with UNCORRECTABLE (R317). (DESIGN CHOICE, log entry 80.) -/
def tableUe (s : State) (r : Requester) (a n : Nat) : Bool :=
  r.world == .n && n != 0 && s.own.tableBad.any fun (e, _) =>
    decide (e < 8192) && tableWordUe s e && (let g := s.region e; g.st != 0 && decide (g.base < a + n) && decide (a < g.base + g.bytes))

def tableErr (s : State) : State := sticky none .hbmGerr 0 0 2 s

/-- Report a request that `permits` refuses: by the table's fault or by R42. -/
def refuse (r : Requester) (a n : Nat) (s : State) : State := if tableUe s r a n then tableErr s else addrDenied r s

/-- A write of a register of an assignable instance of an owner code by a function, or by world S (18): in world S the instance
ignores a world-N write, which sets GLB.SEC_STS.N_ACCESS (R440); another tenant's instance ignores a tenant's write (R45). -/
def instWrite (who owner : Nat) (f : State → State) (s : State) : State :=
  if who = 18 then f s
  else if owner = 0 then sticky none .glbSecSts 0 0 1 s
  else if 16 ≤ who ∨ owner = who + 1 then f s
  else s

/-- A write of a register of an assignable device block, by BAR0 base bits [27:20]: while the block stands in world S a world-N write is
ignored and sets GLB.SEC_STS.N_ACCESS (R440, R441). -/
def devInst (who d : Nat) (f : State → State) (s : State) : State :=
  if who ≠ 18 ∧ tget 0 s.own.devs d = 0 then sticky none .glbSecSts 0 0 1 s else f s

/-- A request needs memory or a lode in the deep state: its exit begins, and an ENTER 1 under way ends with ABORTED_RESET (R488). (DEDUCED, log entry 29.) -/
def wakeDeep (s : State) : State :=
  match s.power.dstate, s.power.deepCmd with
  | .on, _ => s
  | _, some id => { s with
      power := { s.power with dstate := .exiting, deepCmd := none }
      cmd := { s.cmd with
        cmds := lmod (fun c => c.id == id) (fun c => { c with phase := .done, status := 0x0701, doneNo := s.cmd.ended }) s.cmd.cmds
        ended := s.cmd.ended + 1 } }
  | _, none => { s with power := { s.power with dstate := .exiting } }

/-- A request needs an idle lode: its exit begins (R487). -/
def wakeLode (n : Nat) (s : State) : State :=
  let l := s.lode n
  if s.power.dstate ≠ .on then wakeDeep s
  else if l.idle ∧ l.wake = none then s.setLode n { l with wake := some (s.tb.ticks + 200 * usTicks) } else s

/-- An access wakes the idle lode that holds the address, or the part from the deep state. -/
def wakeAt (a : Nat) (s : State) : State :=
  match (place s a).1 with
  | .strata n => wakeLode n s
  | .hbm | .lpx => wakeDeep s
  | _ => s

/-- A lode begins to zero-fill for a new owner: no request sees old data, and those that meet the fill wait for its end (R168). -/
def startZeroing (n o : Nat) (s : State) : State :=
  let s := zeroMem s (strataBase + n * 0x1000000) 0x1000000
  let s := s.setLode n { s.lode n with wb := [] }
  { s with own := { s.own with zeroing := tput 0 s.own.zeroing n (o + 1) } }

/-- A request within one line whose channel is in its refresh slot waits in the controller's queue (R302, R316); of a longer operation the
slots change the timing alone. (DESIGN CHOICE, log entry 108.) -/
def slotWaits (s : State) (a n : Nat) : Bool :=
  a / 64 == (a + n - 1) / 64 && (let (c, ch) := controller s a; decide (s.tb.ticks < tget 0 (s.memc c).slot ch))

/-- Memory that no access may reach yet: a lode that zero-fills (R168) or is idle (R487), a segment or a block that zero-fills (R297,
R311), a refresh slot, or the deep state (R488). Such an access waits. -/
def memWaits (s : State) (a n : Nat) : Bool :=
  match (place s a).1 with
  | .strata k =>
    let waits (j : Nat) : Bool := tget 0 s.own.zeroing j != 0 || (s.lode j).idle
    (List.range (min 31 ((a + n - 1 - strataBase) / 0x1000000) - k + 1)).any fun i => waits (k + i)
  | .hbm => decide (s.power.dstate ≠ .on) || slotWaits s a n || (s.own.segFill.any fun e => decide (a / 2 ^ 33 ≤ e.1) && decide (e.1 ≤ (a + n - 1) / 2 ^ 33))
      || s.own.fills.any fun e => decide (a / 2 ^ 21 ≤ e.1) && decide (e.1 ≤ (a + n - 1) / 2 ^ 21)
  | .lpx => decide (s.power.dstate ≠ .on) || slotWaits s a n || s.own.fills.any fun e => decide (a / 2 ^ 21 ≤ e.1) && decide (e.1 ≤ (a + n - 1) / 2 ^ 21)
  | _ => false

/-- The lodes and the memory that an access of `n` bytes meets wake. -/
def wakeSpan (a n : Nat) (s : State) : State :=
  match (place s a).1 with
  | .strata k => (List.range (min 31 ((a + n - 1 - strataBase) / 0x1000000) - k + 1)).foldl (fun s i => wakeLode (k + i) s) s
  | _ => wakeAt a s

end Sys2Proof.Machine
end

