-- ==== Sys2Proof/Machine/HostOps.lean ====
section
/-! DEFINITION. Host memory as the device reaches it, MSI-X, and who a host function is (R41, R183, R188, R423, R424, R430). -/
namespace Sys2Proof.Machine

open Sys2Proof

def State.host (s : State) (fn : Nat) : HostFn := tget {} s.hosts fn
def State.setHost (s : State) (fn : Nat) (h : HostFn) : State := { s with hosts := tput {} s.hosts fn h }

/-- The host port that carries a function (R423): HIF.TEN_PORT for a tenant, its own port for a management function. (DEDUCED, log entry 79.) -/
def fnPort (s : State) (fn : Nat) : Nat :=
  if fn < 16 then bits (s.reg .hifTenPort) fn fn else if fn = 16 then 0 else 1

/-- The function as a requester: tenant t's VF acts for tenant t in world N; a management function is a world-N
requester without a tenant (R440). -/
def fnReq (fn : Nat) : Requester := ⟨.n, if fn < 16 then fn else 0, 0x200⟩

/-- The key of a host byte: the port and the host bus address. -/
def hostKey (port a : Nat) : Nat := port * 2 ^ 50 + a % 2 ^ 50

/-- What is known of the bytes of a port's memory. (DESIGN CHOICE, log entry 69.) -/
def hostCells (s : State) (port a n : Nat) : List HCell := (List.range n).map fun i => tget .unknown s.hostMem (hostKey port (a + i))

/-- The bytes of host memory at an address, those never delivered free. -/
def hostBytes (s : State) (port a n : Nat) : Bytes :=
  (List.range n).map fun i => match tget .unknown s.hostMem (hostKey port (a + i)) with
    | .val b => b
    | _ => Config.hostByte (hostKey port (a + i))

/-- Why an upstream request gave nothing: Bus Master Enable is clear, the read or write ended with an error (R430), or the read waits for
its completion. -/
inductive HErr where
  | off | failed | wait
  deriving DecidableEq, Repr

/-- Whether the port's link carries requests of the function: Bus Master Enable set and the link not down (R430, R432). -/
def fnBme (s : State) (fn : Nat) : Bool := (s.host fn).bme

/-- The device need not wait for a range: completions have delivered it, a read of it fails, or no request may be issued. -/
def hostKnown (s : State) (fn a n : Nat) : Bool :=
  let cs := hostCells s (fnPort s fn) a n
  !fnBme s fn || cs.contains .bad || !cs.contains .unknown

/-- An upstream read is issued for a range that is not known, once, and is outstanding from then on (R430). (DESIGN CHOICE, log entry 69.) -/
def hostAsk (fn a n : Nat) (s : State) : State :=
  let h := s.host fn
  if hostKnown s fn a n || h.reads.any (fun r => r.1 == a && r.2.1 == n) then s
  else s.setHost fn { h with reads := h.reads ++ [(a, n, s.tb.ticks)] }

/-- An upstream read for a function: its data once completions have delivered it, else the read is issued and the operation waits. A failed
read sets HIF[i].ERR.UPSTREAM (R430). (DESIGN CHOICE, log entry 69.) -/
def hostRead (s : State) (fn a n : Nat) : State × Except HErr Bytes :=
  if !fnBme s fn then (s, .error .off)
  else if (hostCells s (fnPort s fn) a n).contains .bad then
    (sticky (if fn < 16 then some fn else none) .hifFnErr fn 0 4 s, .error .failed)
  else if hostKnown s fn a n then (s, .ok (hostBytes s (fnPort s fn) a n))
  else (hostAsk fn a n s, .error .wait)

/-- Bytes written upstream, as the host then holds them. -/
def hostPut : Tbl HCell → Nat → Nat → Bytes → Tbl HCell
  | m, _, _, [] => m
  | m, port, a, b :: t => hostPut (tput .unknown m (hostKey port a) (.val b)) port (a + 1) t

/-- An upstream write for a function. -/
def hostWrite (s : State) (fn a : Nat) (bs : Bytes) : State × Except HErr Unit :=
  if !fnBme s fn then (s, .error .off)
  else if (hostCells s (fnPort s fn) a bs.length).contains .bad then (s, .error .failed)
  else ({ s with hostMem := hostPut s.hostMem (fnPort s fn) a bs }, .ok ())

/-- Signal an MSI-X vector (R188, R430): the message leaves unless the vector is 0xFFFF; a masked vector or a clear
Bus Master Enable leaves it pending, and one pending message covers every later one. -/
def signalVector (fn vec : Nat) (s : State) : State :=
  if vec = 0xFFFF then s else
    let h := s.host fn
    let e := tget {} h.msix vec
    if e.masked || h.funcMask || !h.bme then
      s.setHost fn { h with msix := tput {} h.msix vec { e with pending := true } }
    else send (.msix fn vec) s

/-- A host window address names the port of bit 50 (R41); a tenant's must name the port that carries its VF (R424). (DEDUCED, log entry 79.) -/
def winPort (a : Nat) : Nat := bits a 50 50

/-- Whether an `addr` parameter lies in the host window. -/
def isHost (a : Nat) : Bool := decide (hostBase ≤ a) && decide (a < 2 * hostBase)

/-- Read an `addr` range for a function's command: device memory, or host memory through the window. -/
inductive RdErr where
  | ue (a : Nat) | host | wait
  deriving DecidableEq, Repr

def readAddr (s : State) (fn a n : Nat) : State × Except RdErr Bytes :=
  if isHost a then
    match hostRead s fn (a % 2 ^ 50) n with
    | (s, .ok b) => (s, .ok b)
    | (s, .error .wait) => (s, .error .wait)
    | (s, .error _) => (s, .error .host)
  else
    match readMem s a n with
    | (s, .ok b) => (s, .ok b)
    | (s, .error e) => (s, .error (.ue e))

def writeAddr (s : State) (fn a : Nat) (bs : Bytes) : State × Except RdErr Unit :=
  if isHost a then
    match hostWrite s fn (a % 2 ^ 50) bs with
    | (s, .ok _) => (s, .ok ())
    | (s, .error _) => (s, .error .host)
  else
    match writeMem s a bs with
    | (s, none) => (s, .ok ())
    | (s, some e) => (s, .error (.ue e))

/-- Whether a tenant function may reach an `addr` range: device memory by its rights (R42), or host memory through the window of
the port that carries its VF (R41, R424). A refusal is reported. -/
def mayReach (fn a n : Nat) (wr : Bool) (unit : Nat) (s : State) : Bool × State :=
  if isHost a then
    if a % 2 ^ 50 + n > 2 ^ 50 then (false, addrDenied (tenReq fn unit) s)
    else if winPort a = fnPort s fn then (true, s)
    else (false, sticky (some fn) .hifFnErr fn 0 8 (addrDenied (tenReq fn unit) s))
  else if permits s (tenReq fn unit) a n wr then (true, s)
  else (false, refuse (tenReq fn unit) a n s)

end Sys2Proof.Machine
end

