-- ==== Sys2Proof/Machine/CmdTable.lean ====
section
/-! DEFINITION. The Efesh operation tables (R209 to R215, R376, R459), the layout of a command's parameters (R190 to R193),
status values (R198), and the operations over taken commands: start, finish, conflict. -/
namespace Sys2Proof.Machine

open Sys2Proof

/-- The Efesh operations (R210 to R215, R376, R459). -/
inductive Op where
  | hello | identify | fwUpdate | qpCreate | qpDelete | abort | heartbeat | goodbye | regionCreate
  | regionRevoke | copy | fill | windowMap | crypt | imemLoad | coresRun | modChain | moveChain | lockForm
  | lockStart | lockDissolve | lodeReset | lodeHold | syncSignal | syncWait | syncRead | syncSet | syncEpoch
  | vmap | commCreate | commDestroy | allReduce | reduceScatter | allGather | broadcast | allToAll | portMode
  | rulesCommit | patternsLoad | streamOpen | streamClose | gatesLoad | shaperSet | policerSet | ftRingCreate
  | ftRingDelete | ftRqBind | ftRqUnbind | sqCreate | sqDelete | volCreate | volDelete | volBind | driveInfo
  | poolAdd | save | restore | drain | slotStatus | rankTake | layoutDefine | layoutDrop | reshardMove
  | assign | keyLoad | keyErase | attest | debugUnlock | countersRead | errorsRead | errorsClear | logRing
  | traceSet | opPoint | lodePower | clockLock | tbAdj | tbSyncArm | deep | limitsRead
  deriving DecidableEq, Repr

/-- Parameter types of R192. -/
inductive PTy where
  | u8 | u16 | u32 | u64 | i16 | haddr | daddr | addr
  deriving DecidableEq, Repr

/-- Who may issue a command (R206). -/
inductive From where
  | any | mgmt | tenant
  deriving DecidableEq, Repr

/-- A row of the operation tables: CLASS, OP, who may issue it, whether HOLD accepts it, whether it enters a dispatch
list (R239), its parameters. -/
structure OpRow where
  cls    : Nat
  code   : Nat
  issuer : From
  inHold : Bool
  listed : Bool
  params : List PTy
  deriving DecidableEq, Repr

def opRow : Op → OpRow
  | .hello => ⟨1, 1, .any, true, false, [.u16, .u16, .u32, .u32, .u8]⟩
  | .identify => ⟨1, 2, .any, true, false, [.u8, .haddr]⟩
  | .fwUpdate => ⟨1, 3, .mgmt, true, false, [.haddr, .u32, .u8]⟩
  | .qpCreate => ⟨1, 4, .any, false, false, [.u16, .u8, .u8, .u16, .haddr, .haddr]⟩
  | .qpDelete => ⟨1, 5, .any, false, false, [.u16]⟩
  | .abort => ⟨1, 6, .any, false, false, [.u16, .u16]⟩
  | .heartbeat => ⟨1, 7, .any, false, false, []⟩
  | .goodbye => ⟨1, 8, .any, false, false, []⟩
  | .regionCreate => ⟨2, 1, .tenant, false, false, [.daddr, .u64, .u8, .u8]⟩
  | .regionRevoke => ⟨2, 2, .tenant, false, false, [.u32]⟩
  | .copy => ⟨2, 3, .tenant, false, true, [.addr, .addr, .u64]⟩
  | .fill => ⟨2, 4, .tenant, false, true, [.daddr, .u64, .u32]⟩
  | .windowMap => ⟨2, 5, .any, false, false, [.u16, .u16, .daddr]⟩
  | .crypt => ⟨2, 6, .tenant, false, true, [.u8, .u16, .daddr, .daddr, .u64, .daddr, .u32]⟩
  | .imemLoad => ⟨3, 1, .tenant, false, true, [.u16, .u32, .u32, .addr]⟩
  | .coresRun => ⟨3, 2, .tenant, false, true, [.u8, .u16]⟩
  | .modChain => ⟨3, 3, .tenant, false, true, [.u8, .u8, .u32]⟩
  | .moveChain => ⟨3, 4, .tenant, false, true, [.u8, .u8, .u32]⟩
  | .lockForm => ⟨3, 5, .tenant, false, true, [.u8, .u32]⟩
  | .lockStart => ⟨3, 6, .tenant, false, true, [.u8, .u64]⟩
  | .lockDissolve => ⟨3, 7, .tenant, false, true, [.u8]⟩
  | .lodeReset => ⟨3, 8, .tenant, false, true, [.u8]⟩
  | .lodeHold => ⟨3, 9, .tenant, false, true, [.u8, .u8]⟩
  | .syncSignal => ⟨4, 1, .tenant, false, false, [.u32, .u32]⟩
  | .syncWait => ⟨4, 2, .tenant, false, false, [.u32, .u32, .u32]⟩
  | .syncRead => ⟨4, 3, .tenant, false, false, [.u32]⟩
  | .syncSet => ⟨4, 4, .tenant, false, false, [.u32, .u32]⟩
  | .syncEpoch => ⟨4, 5, .tenant, false, false, [.daddr]⟩
  | .vmap => ⟨4, 6, .tenant, false, false, [.u16, .u16, .daddr]⟩
  | .commCreate => ⟨5, 1, .tenant, false, true, [.u16, .u32, .u32, .daddr]⟩
  | .commDestroy => ⟨5, 2, .tenant, false, true, [.u16]⟩
  | .allReduce => ⟨5, 3, .tenant, false, true, [.u16, .u8, .u8, .u8, .i16, .daddr, .daddr, .u64, .u32]⟩
  | .reduceScatter => ⟨5, 4, .tenant, false, true, [.u16, .u8, .u8, .u8, .i16, .daddr, .daddr, .u64, .u32]⟩
  | .allGather => ⟨5, 5, .tenant, false, true, [.u16, .daddr, .daddr, .u64, .u32]⟩
  | .broadcast => ⟨5, 6, .tenant, false, true, [.u16, .u32, .daddr, .daddr, .u64, .u32]⟩
  | .allToAll => ⟨5, 7, .tenant, false, true, [.u16, .daddr, .daddr, .u64, .u32]⟩
  | .portMode => ⟨6, 1, .mgmt, false, false, [.u8, .u8]⟩
  | .rulesCommit => ⟨6, 2, .tenant, false, false, [.u16, .daddr]⟩
  | .patternsLoad => ⟨6, 3, .tenant, false, false, [.u8, .u16, .daddr]⟩
  | .streamOpen => ⟨6, 4, .tenant, false, false, [.u16, .u8, .daddr, .u64]⟩
  | .streamClose => ⟨6, 5, .tenant, false, false, [.u16]⟩
  | .gatesLoad => ⟨6, 6, .mgmt, false, false, [.u8, .u16, .daddr, .u64]⟩
  | .shaperSet => ⟨6, 7, .tenant, false, false, [.u8, .u8, .u32, .u64]⟩
  | .policerSet => ⟨6, 8, .mgmt, false, false, [.u8, .u8, .u32, .u64, .u64, .u32]⟩
  | .ftRingCreate => ⟨6, 9, .tenant, false, false, [.u8, .u8, .u32, .daddr, .daddr]⟩
  | .ftRingDelete => ⟨6, 10, .tenant, false, false, [.u8]⟩
  | .ftRqBind => ⟨6, 11, .tenant, false, false, [.u8, .u8, .u8, .u32, .u32, .daddr, .daddr, .daddr]⟩
  | .ftRqUnbind => ⟨6, 12, .tenant, false, false, [.u8]⟩
  | .sqCreate => ⟨7, 1, .tenant, false, false, [.u16, .u16, .haddr, .haddr]⟩
  | .sqDelete => ⟨7, 2, .tenant, false, false, [.u16]⟩
  | .volCreate => ⟨7, 3, .mgmt, false, false, [.u16, .u8, .u64]⟩
  | .volDelete => ⟨7, 4, .mgmt, false, false, [.u16]⟩
  | .volBind => ⟨7, 5, .mgmt, false, false, [.u16, .u8]⟩
  | .driveInfo => ⟨7, 6, .mgmt, false, false, [.u8, .haddr]⟩
  | .poolAdd => ⟨8, 1, .tenant, false, true, [.u32, .u32, .u64]⟩
  | .save => ⟨8, 2, .tenant, false, true, [.u8, .u32, .u64, .daddr]⟩
  | .restore => ⟨8, 3, .tenant, false, true, [.u8, .u64, .daddr]⟩
  | .drain => ⟨8, 4, .tenant, false, true, [.u8, .u16]⟩
  | .slotStatus => ⟨8, 5, .tenant, false, true, [.u8]⟩
  | .rankTake => ⟨8, 6, .tenant, false, true, [.u32, .daddr]⟩
  | .layoutDefine => ⟨9, 1, .tenant, false, true, [.u16, .daddr]⟩
  | .layoutDrop => ⟨9, 2, .tenant, false, true, [.u16]⟩
  | .reshardMove => ⟨9, 3, .tenant, false, true, [.u16, .u16, .u32, .daddr, .u32]⟩
  | .assign => ⟨10, 1, .mgmt, false, false, [.u8, .u8, .u16, .u8, .haddr]⟩
  | .keyLoad => ⟨10, 2, .mgmt, false, false, [.u16, .haddr]⟩
  | .keyErase => ⟨10, 3, .mgmt, false, false, [.u16, .haddr]⟩
  | .attest => ⟨10, 4, .mgmt, false, false, [.haddr, .haddr]⟩
  | .debugUnlock => ⟨10, 5, .mgmt, false, false, [.haddr]⟩
  | .countersRead => ⟨11, 1, .any, true, false, [.u16, .haddr]⟩
  | .errorsRead => ⟨11, 2, .any, true, false, [.u16, .haddr]⟩
  | .errorsClear => ⟨11, 3, .mgmt, false, false, []⟩
  | .logRing => ⟨11, 4, .any, false, false, [.u8, .u16, .haddr]⟩
  | .traceSet => ⟨11, 5, .tenant, false, false, [.daddr]⟩
  | .opPoint => ⟨12, 1, .mgmt, false, false, [.u8]⟩
  | .lodePower => ⟨12, 2, .tenant, false, false, [.u8, .u8]⟩
  | .clockLock => ⟨12, 3, .mgmt, false, false, [.u8]⟩
  | .tbAdj => ⟨12, 4, .mgmt, false, false, [.i16]⟩
  | .tbSyncArm => ⟨12, 5, .mgmt, false, false, [.u64]⟩
  | .deep => ⟨12, 6, .mgmt, false, false, [.u8]⟩
  | .limitsRead => ⟨12, 7, .any, false, false, [.haddr]⟩

/-- Every operation, in table order. -/
def allOps : List Op :=
  [.hello, .identify, .fwUpdate, .qpCreate, .qpDelete, .abort, .heartbeat, .goodbye, .regionCreate, .regionRevoke] ++
  [.copy, .fill, .windowMap, .crypt, .imemLoad, .coresRun, .modChain, .moveChain, .lockForm, .lockStart] ++
  [.lockDissolve, .lodeReset, .lodeHold, .syncSignal, .syncWait, .syncRead, .syncSet, .syncEpoch, .vmap, .commCreate] ++
  [.commDestroy, .allReduce, .reduceScatter, .allGather, .broadcast, .allToAll, .portMode, .rulesCommit, .patternsLoad, .streamOpen] ++
  [.streamClose, .gatesLoad, .shaperSet, .policerSet, .ftRingCreate, .ftRingDelete, .ftRqBind, .ftRqUnbind, .sqCreate, .sqDelete] ++
  [.volCreate, .volDelete, .volBind, .driveInfo, .poolAdd, .save, .restore, .drain, .slotStatus, .rankTake] ++
  [.layoutDefine, .layoutDrop, .reshardMove, .assign, .keyLoad, .keyErase, .attest, .debugUnlock, .countersRead, .errorsRead] ++
  [.errorsClear, .logRing, .traceSet, .opPoint, .lodePower, .clockLock, .tbAdj, .tbSyncArm, .deep, .limitsRead]

/-- Status values (R198). -/
def stOk : Nat := 0x0000
def stBadOpcode : Nat := 0x0101
def stReserved : Nat := 0x0102
def stInvalid : Nat := 0x0103
def stCoreException : Nat := 0x0104
def stDetRefused : Nat := 0x0105
def stConflict : Nat := 0x0201
def stVersionHold : Nat := 0x0202
def stShape : Nat := 0x0203
def stNoResource : Nat := 0x0301
def stTimeout : Nat := 0x0302
def stUncorr : Nat := 0x0401
def stTallyRange : Nat := 0x0402
def stMedia : Nat := 0x0403
def stMixed : Nat := 0x0404
def stDenied : Nat := 0x0501
def stAuth : Nat := 0x0502
def stRevoked : Nat := 0x0503
def stHostOff : Nat := 0x0601
def stPeer : Nat := 0x0602
def stAborted : Nat := 0x0701
def stFwRestart : Nat := 0x0702

/-- The size of a parameter (R192). -/
def PTy.size : PTy → Nat
  | .u8 => 1
  | .u16 => 2
  | .i16 => 2
  | .u32 => 4
  | _ => 8

/-- The offsets of a parameter list in the parameter area: each at the next multiple of its size (R192). -/
def paramOffs : Nat → List PTy → List Nat
  | _, [] => []
  | o, t :: r =>
    let a := (o + t.size - 1) / t.size * t.size
    a :: paramOffs (a + t.size) r

/-- The first byte after a parameter list. -/
def paramEnd : Nat → List PTy → Nat
  | o, [] => o
  | o, t :: r => paramEnd ((o + t.size - 1) / t.size * t.size + t.size) r

/-- The operation that CLASS and OP name (R209). -/
def opOf (cls code : Nat) : Option Op := allOps.find? fun o => (opRow o).cls == cls && (opRow o).code == code

/-- A field of a command packet's header (R190). -/
def Cmd.u (c : Cmd) (o n : Nat) : Nat := fld c.bytes o n

def cmdOp (c : Cmd) : Option Op := opOf (c.u 0 1) (c.u 1 1)

/-- The byte offset, within the command, of parameter k. -/
def paramOff (o : Op) (k : Nat) : Nat := 16 + (paramOffs 0 (opRow o).params).getD k 0

/-- Parameter k of a command with operation `o`. -/
def paramIn (bs : Bytes) (o : Op) (k : Nat) : Nat :=
  fld bs (paramOff o k) ((opRow o).params.getD k .u8).size

def Cmd.p (c : Cmd) (k : Nat) : Nat :=
  match cmdOp c with
  | some o => paramIn c.bytes o k
  | none => 0

def Cmd.tag (c : Cmd) : Nat := c.u 10 2

/-- The command with a take number. -/
def findCmd (s : State) (id : Nat) : Option Cmd := s.cmd.cmds.find? fun c => c.id == id

/-- Change the command with a take number. -/
def modCmd (id : Nat) (f : Cmd → Cmd) (s : State) : State :=
  { s with cmd := { s.cmd with cmds := lmod (fun c => c.id == id) f s.cmd.cmds } }

def dropCmds (p : Cmd → Bool) (s : State) : State :=
  { s with cmd := { s.cmd with cmds := s.cmd.cmds.filter fun c => !p c } }

/-- A command ends: its status and result words stand in its reply (R195), which REPLY_WRITE writes. -/
def finish (id st w0 w1 w2 w3 : Nat) (s : State) : State :=
  modCmd id (fun c => { c with
    phase := .done, status := st, w0 := w0 % 2 ^ 32, w1 := w1 % 2 ^ 32, w2 := w2 % 2 ^ 32, w3 := w3 % 2 ^ 32, doneNo := s.cmd.ended })
    { s with cmd := { s.cmd with ended := s.cmd.ended + 1 } }

/-- A command ends with a status and no result words. -/
def finish0 (id st : Nat) (s : State) : State := finish id st 0 0 0 0 s

/-- STATE_CONFLICT with the object's type and index in W0, its state code in W1 and W2 (R196, R216). -/
def conflict (id ty idx code w2 : Nat) (s : State) : State := finish id stConflict (ty + idx * 256) code w2 0 s

/-- The status of a failed access to memory or to the host: UNCORRECTABLE with the failing address (R308), or
HOST_ACCESS_OFF (R430). A command whose upstream read has not completed stays as it is. -/
def failAddr (id : Nat) (e : RdErr) (s : State) : State :=
  match e with
  | .ue a => finish id stUncorr (a % 2 ^ 32) (a / 2 ^ 32) 0 0 s
  | .host => finish0 id stHostOff s
  | .wait => s

/-- HOST_ACCESS_OFF; a command whose upstream read has not completed stays as it is (R430). -/
def failHost (id : Nat) (e : HErr) (s : State) : State := if e = .wait then s else finish0 id stHostOff s

/-- A command has started and waits for its work. -/
def working (id : Nat) (s : State) : State := modCmd id (fun c => { c with phase := .working }) s

/-- The device addresses a command names as parameters. -/
def devParams (o : Op) (c : Cmd) : List Nat :=
  (List.range (opRow o).params.length).filterMap fun k =>
    match (opRow o).params.getD k .u8 with
    | .daddr => some (c.p k)
    | .addr => if isHost (c.p k) then none else some (c.p k)
    | _ => none

/-- Operations that name device addresses and touch no memory themselves. -/
def namesOnly (o : Op) : Bool := [Op.windowMap, .regionCreate, .ftRingCreate, .ftRqBind, .streamOpen].contains o

/-- Whether a command needs memory or a lode (R488): it names a device address it touches, or it is a command of the COMP class. -/
def needsMem (o : Op) (c : Cmd) : Bool := (!namesOnly o && devParams o c != []) || (opRow o).cls == 3

/-- The cores that CORES_RUN names. -/
def runCores (c : Cmd) : List Nat :=
  if c.p 0 = 0x80 then ((List.range 16).filter (bit (c.p 1))).map (256 + ·) else ((List.range 8).filter (bit (c.p 1))).map (8 * c.p 0 + ·)

/-- The units that a command names, each as a kind and a number: 1 engine, 2 mover queue, 3 lode or IBC, 5 lock group, 6 communicator, 7
checkpoint slot, 8 layout. (DEDUCED, log entry 58.) -/
def unitsOf (c : Cmd) : List (Nat × Nat) :=
  match cmdOp c with
  | some .modChain => [(1, c.p 0)]
  | some .moveChain => [(2, c.p 0)]
  | some .imemLoad => [(3, if c.p 0 < 256 then c.p 0 / 8 else c.p 0)]
  | some .coresRun => if c.p 0 = 0x80 then (runCores c).map fun k => (3, k) else [(3, c.p 0)]
  | some .lodeReset => [(3, c.p 0)]
  | some .lodeHold => [(3, c.p 0)]
  | some .lockForm => (5, c.p 0) :: ((List.range 32).filter (bit (c.p 1))).map fun n => (3, n)
  | some .lockStart => [(5, c.p 0)]
  | some .lockDissolve => [(5, c.p 0)]
  | some .commCreate => [(6, c.p 0)]
  | some .commDestroy => [(6, c.p 0)]
  | some .allReduce => [(6, c.p 0)]
  | some .reduceScatter => [(6, c.p 0)]
  | some .allGather => [(6, c.p 0)]
  | some .broadcast => [(6, c.p 0)]
  | some .allToAll => [(6, c.p 0)]
  | some .save => [(7, c.p 0)]
  | some .restore => [(7, c.p 0)]
  | some .drain => [(7, c.p 0)]
  | some .slotStatus => [(7, c.p 0)]
  | some .layoutDefine => [(8, c.p 0)]
  | some .layoutDrop => [(8, c.p 0)]
  | some .reshardMove => [(8, c.p 0), (8, c.p 1)]
  | _ => []

/-- An earlier command of the function that has not started yet names a unit that this one names too: the two reach it in take order
(R200). -/
def unitTurn (s : State) (c : Cmd) : Bool :=
  s.cmd.cmds.all fun d => !(d.fn == c.fn && decide (d.id < c.id) && d.phase == .ready && (unitsOf d).any fun u => (unitsOf c).contains u)

/-- Start a command: it must be a taken command of this operation that is ready to start (R199), in its turn at the units it names (R200). One that needs memory waits while that
memory cannot be reached, and starts the exit that ends the wait (R168, R297, R311, R487, R488). Its body makes checks 6 and 7 and does
the work. -/
def startOp (o : Op) (id : Nat) (f : Cmd → State → State) (s : State) : State :=
  match findCmd s id with
  | some c =>
    if cmdOp c = some o ∧ c.phase = .ready ∧ unitTurn s c then
      if needsMem o c && s.power.dstate != .on then wakeDeep s
      else match (devParams o c).find? fun a => !namesOnly o && memWaits s a 1 with
        | some a => wakeAt a s
        | none => f c s
    else s
  | none => s

/-- Check 6, then the rest: `ok` or STATE_CONFLICT with the object's type, index and code. -/
def need6 (ok : Bool) (c : Cmd) (ty idx code : Nat) (k : State → State) (s : State) : State :=
  if ok then k s else conflict c.id ty idx code 0 s

/-- Check 7: `ok` or NO_RESOURCE. -/
def need7 (ok : Bool) (c : Cmd) (k : State → State) (s : State) : State := if ok then k s else finish0 c.id stNoResource s

/-- A check of a structure the command names: the status with the byte offset of the failing field. -/
def failAt (c : Cmd) (st : Nat) (o : Op) (k : Nat) (s : State) : State := finish c.id st (paramOff o k) 0 0 0 s

end Sys2Proof.Machine
end

