-- ==== Sys2Proof/Machine/SyncOps.lean ====
section
/-! DEFINITION. Sync counters: names, translation, signals, waiters and the counter cycle (R219 to R234). -/
namespace Sys2Proof.Machine

open Sys2Proof

/-- The status of a request that `permits` refuses: UNCORRECTABLE where a word of the region table could not be read (R317). -/
def refusedSt (s : State) (r : Requester) (a n : Nat) : Nat := if tableUe s r a n then stUncorr else stDenied

/-- The same over extents. -/
def refusedOf (s : State) (r : Requester) (l : List (Nat × Nat)) : Nat := if l.any fun e => tableUe s r e.1 e.2 then stUncorr else stDenied

/-- Report a refusal over extents by its status. -/
def refuseOf (s : State) (r : Requester) (l : List (Nat × Nat)) : State := if l.any fun e => tableUe s r e.1 e.2 then tableErr s else addrDenied r s


def maxCount : Nat := 2 ^ 24 - 1

def State.ctr (s : State) (p : Nat) : Counter := tget {} s.sync.counters p
def State.setCtr (s : State) (p : Nat) (c : Counter) : State :=
  { s with sync := { s.sync with counters := tput {} s.sync.counters p c } }

/-- The owner code of a counter: that of its core (R219). -/
def ctrOwner (s : State) (p : Nat) : Nat := coreOwner s (p / 64)

/-- The tenant of a unit of an owner code in waiters and signals: 0xFF for world S, which is no tenant. (DEDUCED, log entry 106.) -/
def ownTen (o : Nat) : Nat := if o = 0 then 0xFF else o - 1

/-- The context a unit's binding register names: none with VIRT clear (R237). -/
def bindOf (v : Nat) : Option Nat := if bit v 8 then some (v % 256) else none
def coreBind (s : State) (k : Nat) : Option Nat := bindOf (s.reg .syncCoreCtx 0 k)
def fnBind (s : State) (fn : Nat) : Option Nat := bindOf (s.reg .syncFnCtx 0 fn)

/-- Translate an entry of the translation memory (R236). -/
def xlEntry (w : Nat) : Xl :=
  if !bit w 63 || bits w 62 36 ≠ 0 then .none
  else if bit w 15 then .remote (bits w 14 0) (bits w 35 16)
  else if bits w 35 16 ≠ 0 || decide (17408 ≤ bits w 14 0) then .none
  else .phys (bits w 14 0)

/-- Translate an identifier of 24 bits in a unit's context (R220, R236, R237). -/
def translate (s : State) (ctx : Option Nat) (ident : Nat) : Xl :=
  let v := ident % 2 ^ 23
  if bit ident 23 then
    match ctx with
    | none => .none
    | some c =>
      let w := s.reg .syncCtx 0 c
      if bit w 4 && decide (v < s.reg .syncCtxLen 0 c) then
        let e := bits w 31 16 + v
        if s.sync.xbad.contains e then .ue else xlEntry (tget 0 s.sync.xmem e)
      else .none
  else if v < 17408 then .phys v else .none

/-- Translation for a unit of an owner: a local counter of another owner does not do (R220). -/
def translateFor (s : State) (owner : Nat) (ctx : Option Nat) (ident : Nat) : Xl :=
  match translate s ctx ident with
  | .phys p => if ctrOwner s p = owner then .phys p else .none
  | x => x

/-- The default timeout of a wait, in µs (R230). -/
def defaultTmo (s : State) (tenant : Nat) (ctx : Option Nat) (ident : Nat) : Nat :=
  let t := s.reg .syncDefTmo 0 tenant
  match ctx with
  | some c => if bit ident 23 && s.reg .syncCtxTmo 0 c ≠ 0 then s.reg .syncCtxTmo 0 c else t
  | none => t

def tmoOf (s : State) (tenant : Nat) (ctx : Option Nat) (ident tmo : Nat) : Nat :=
  if tmo = 0 then defaultTmo s tenant ctx ident else tmo

/-- The tick at which a timeout that starts now expires: none for a wait without limit. -/
def deadlineOf (s : State) (tmo : Nat) : Option Nat :=
  if tmo = 0xFFFFFFFF then none else some (s.tb.ticks + tmo * usTicks)

def expired (s : State) (d : Option Nat) : Bool := match d with | some t => decide (t ≤ s.tb.ticks) | none => false

/-- A unit sends a signal to a translated counter (R222, R238). -/
def sendSig (src : Nat) (tenant : Nat) (x : Xl) (val : Nat) (cmd : Option Nat) (s : State) : State :=
  match x with
  | .phys p => { s with sync := { s.sync with flight := s.sync.flight ++ [⟨src, p, val, cmd⟩] } }
  | .remote p f => { s with sync := { s.sync with remote := s.sync.remote ++ [⟨src, p, f, val, tenant⟩] } }
  | _ => s

/-- Deliver a SYNC field or parameter (R85, R207): identifier in bits [23:0], increment in [31:24]; zero delivers nothing. (DEDUCED, log entry 22.) -/
def sendSync (src tenant : Nat) (x : Xl) (sync : Nat) (s : State) : State :=
  if sync = 0 then s else sendSig src tenant x (bits sync 31 24) none s

/-- Whether a source's signal may reach a counter next: those of a matrix engine reach their counters in acceptance order, whichever
counters they name (R108); those of another source in issue order at each counter (R226). -/
def sigTurn (p a : Nat) (l : List Sig) : Bool :=
  a < 0x300 || 0x340 ≤ a || match l.find? (·.src == a) with | some g => g.ctr == p | none => false

/-- Take from the signals under way the first one of each named source to a counter. -/
def takeSigs (p : Nat) : List Nat → List Sig → List Sig × List Sig
  | [], l => ([], l)
  | a :: r, l => match if sigTurn p a l then takeFirst (fun g => g.src == a && g.ctr == p) l else none with
    | some (g, l) => let (t, l) := takeSigs p r l; (g :: t, l)
    | none => takeSigs p r l

/-- SYNC SIGNAL commands of a cycle's signals end (R229). -/
def endSigs (st p : Nat) (gs : List Sig) (s : State) : State :=
  gs.foldl (fun s g => match g.cmd with
    | some id => finish id st (if st = stOk then 0 else p) 0 0 0 s
    | none => s) s

/-- Add the signals of one counter cycle (R222, R224, R229). -/
def addSigs (p : Nat) (gs : List Sig) (s : State) : State :=
  let c := s.ctr p
  if gs = [] then s
  else if c.sat then endSigs stNoResource p gs s
  else
    let sum := c.count.toNat + (gs.map (·.val)).sum
    if sum ≤ maxCount then endSigs stOk p gs (s.setCtr p { c with count := BitVec.ofNat 24 sum })
    else
      let s := s.setCtr p { c with count := BitVec.ofNat 24 maxCount, sat := true }
      let s := s.orReg .syncErr 0 0 1
      let o := ctrOwner s p
      let s := raise 1 (if o = 0 then none else some (o - 1)) (regAddr .syncErr 0 0 0) 0x8003
        (zeros 2 ++ leBytes 4 p ++ leBytes 4 ((gs.map (·.src)).foldl max 0)) s
      endSigs stNoResource p gs s

/-- Drop a SYN.ANY waiter's other entries, listed or still joining (R225). -/
def dropAny (src : Nat) (s : State) : State :=
  { s with sync := { s.sync with
      counters := s.sync.counters.filterMap fun (k, c) =>
        let c := { c with waiters := c.waiters.filter fun w => !(w.src == src && w.any.isSome) }
        if c = {} then none else some (k, c)
      joining := s.sync.joining.filter fun (_, w) => !(w.src == src && w.any.isSome) } }

/-- The counters that list a waiter of a source. -/
def listedOn (src : Nat) (s : State) : List Nat :=
  (s.sync.counters.filter fun (_, c) => c.waiters.any (·.src == src)).map (·.1)

/-- The head waiter of a counter, where it passes: SAT clear and the count at least its target (R223). -/
def passes (s : State) (p : Nat) : Option Waiter :=
  let c := s.ctr p
  match c.waiters with
  | w :: _ => if !c.sat && decide (w.target ≤ c.count.toNat) then some w else none
  | [] => none

/-- The counter on which a waiter passes that passes at `p`: of a SYN.ANY, the one of lowest index that passes it (R225). -/
def winner (s : State) (p : Nat) (w : Waiter) : Nat :=
  match w.any with
  | none => p
  | some i => ((listedOn w.src s).foldl (fun (b : Nat × Nat) q => match passes s q with
      | some x => if x.src = w.src ∧ x.any.getD i < b.1 then (x.any.getD i, q) else b
      | none => b) (i, p)).2

/-- The head waiter of a counter passes: the target is subtracted and a notice leaves, and a SYN.ANY leaves its other lists (R223, R225,
R227). Answers the counters to test next. -/
def passHead (p : Nat) (s : State) : List Nat × State :=
  let c := s.ctr p
  match c.waiters with
  | [] => ([], s)
  | w :: rest =>
    let s := s.setCtr p { c with count := c.count - BitVec.ofNat 24 w.target, waiters := rest }
    let s := { s with sync := { s.sync with notices := s.sync.notices ++ [⟨w.src, w.any.getD 0, p, w.tag⟩] } }
    match w.any with
    | some _ => (p :: listedOn w.src s, dropAny w.src s)
    | none => ([p], s)

/-- The counter whose head passes next among those listed: waits on one counter before those on any of four. -/
def headTurn (s : State) (ps : List Nat) : Option Nat :=
  let one (any : Bool) (p : Nat) : Bool := match passes s p with | some w => w.any.isSome == any | none => false
  ((ps.find? (one false)).or (ps.find? (one true))).map fun p => match passes s p with | some w => winner s p w | none => p

/-- Pass heads of the listed counters until none passes. -/
def settleN : Nat → List Nat → State → State
  | 0, _, s => s
  | f + 1, ps, s => match headTurn s ps with
    | none => s
    | some p => settleN f (ps ++ (passHead p s).1) (passHead p s).2

def settle (ps : List Nat) (s : State) : State :=
  settleN (6 * (s.sync.counters.map fun (_, c) => c.waiters.length).sum + 1) ps s

/-- Test every counter that lists a waiter. -/
def settleAll (s : State) : State := settle (s.sync.counters.map (·.1)) s

/-- The listed counters of an epoch all stand at their BASE or above with SAT clear (R233). -/
def epochMet (s : State) (e : Epoch) : Bool :=
  e.entries.all fun (p, b) => decide (b ≤ (s.ctr p).count.toNat) && !(s.ctr p).sat

/-- Epoch re-basing in one cycle: subtract each BASE, record the epoch, reply, then test the waiters (R233, R234). -/
def rebase (e : Epoch) (s : State) : State :=
  let s := e.entries.foldl (fun s (p, b) => s.setCtr p { s.ctr p with count := (s.ctr p).count - BitVec.ofNat 24 b }) s
  let s := { s with sync := { s.sync with epochs := s.sync.epochs.filter fun x => x.id != e.id } }
  let s := s.setReg .syncEpoch 0 e.tenant e.number
  finish e.id stOk e.number 0 e.w2 0 s

/-- The epochs whose condition holds are re-based, in take order (R224, R233). -/
def rebaseReady (p : Nat) (s : State) : List Nat × State :=
  s.sync.epochs.foldl (fun (ps, s) e =>
    if e.entries.any (·.1 == p) && epochMet s e then (ps ++ e.entries.map (·.1), rebase e s) else (ps, s)) ([], s)

/-- One counter cycle (R224): add the signals that arrive, apply epoch re-basing, test the waiters. -/
def counterCycle (p : Nat) (srcs : List Nat) (s : State) : State :=
  let (gs, rest) := takeSigs p srcs s.sync.flight
  let s := addSigs p gs { s with sync := { s.sync with flight := rest } }
  let (ps, s) := rebaseReady p s
  settle (p :: ps) s

/-- A unit issues a wait: it travels to its counter and joins there (R223). -/
def sendWait (p : Nat) (w : Waiter) (s : State) : State :=
  { s with sync := { s.sync with joining := s.sync.joining ++ [(p, w)] } }

/-- A source's waiters leave every list and what is under way (R221, R231). -/
def unlist (src : Nat) (tag : Option Nat) (s : State) : State :=
  let hit (w : Waiter) : Bool := w.src == src && w.tag == tag
  { s with sync := { s.sync with
      counters := s.sync.counters.filterMap fun (k, c) =>
        let c := { c with waiters := c.waiters.filter fun w => !hit w }
        if c = {} then none else some (k, c)
      joining := s.sync.joining.filter fun (_, w) => !hit w
      notices := s.sync.notices.filter fun n => !(n.src == src && n.tag == tag) } }

/-- A source's waiters leave every list, and the counters they left are tested. -/
def withdraw (src : Nat) (tag : Option Nat) (s : State) : State :=
  settle ((s.sync.counters.filter fun (_, c) => c.waiters.any fun w => w.src == src && w.tag == tag).map (·.1)) (unlist src tag s)

/-- Counters of an instance to count 0 with SAT clear; listed waiters stay listed (R221). -/
def zeroCounters (own : Nat → Bool) (s : State) : State :=
  { s with sync := { s.sync with counters := s.sync.counters.filterMap fun (k, c) =>
      let c := if own k then { c with count := 0, sat := false } else c
      if c = {} then none else some (k, c) } }

/-- Every wait of a tenant leaves every list (R221). -/
def dropTenantWaits (t : Nat) (s : State) : State :=
  { s with sync := { s.sync with
      counters := s.sync.counters.filterMap fun (k, c) =>
        let c := { c with waiters := c.waiters.filter fun w => w.tenant != t }
        if c = {} then none else some (k, c)
      joining := s.sync.joining.filter fun (_, w) => w.tenant != t
      epochs := s.sync.epochs.filter fun e => e.tenant != t } }

/-- The SYNC_TIMEOUT record of R231, from byte 2 of its body. -/
def timeoutBody (s : State) (kind : Nat) (w : Waiter) (unit p : Nat) : Bytes :=
  leBytes 1 kind ++ leBytes 1 w.tenant ++ leBytes 4 unit ++ leBytes 4 (w.ident % 2 ^ 24) ++ leBytes 4 p
    ++ leBytes 4 w.target ++ leBytes 4 (s.ctr p).count.toNat ++ leBytes 2 w.ctx
    ++ leBytes 1 ((if w.any.isSome then 1 else 0) + (if (s.ctr p).sat then 2 else 0)) ++ zeros 1 ++ leBytes 4 w.tmo

end Sys2Proof.Machine
end

