-- ==== Sys2Proof/Machine/EngineOps.lean ====
section
/-! DEFINITION. Matrix operation descriptors: fields, checks, layouts, sums and output (R85 to R103, R106, R107). -/
namespace Sys2Proof.Machine

open Sys2Proof

/-- The fields of a descriptor (R85, R86). -/
structure MF where
  op     : Nat
  ctrl   : Nat
  fa     : Nat
  fb     : Nat
  fo     : Nat
  group  : Nat
  mt     : Nat
  nt     : Nat
  kg     : Nat
  anchor : Nat
  a      : Nat
  b      : Nat
  c      : Nat
  acc    : Nat
  sa     : Nat
  sb     : Nat
  sc     : Nat
  tagA   : Nat
  aux    : Nat
  as     : Nat
  bs     : Nat
  cs     : Nat
  accs   : Nat
  sync   : Nat
  compl  : Nat
  deriving DecidableEq, Repr

def modFields (d : Bytes) : MF :=
  { op := fld d 0 1, ctrl := fld d 1 1, fa := fld d 2 1 % 16, fb := fld d 2 1 / 16, fo := fld d 3 1 % 16,
    group := fld d 3 1 / 16, mt := fld d 4 2, nt := fld d 6 2, kg := fld d 8 2, anchor := fld d 10 2, a := fld d 12 4,
    b := fld d 16 4, c := fld d 20 4, acc := fld d 24 4, sa := fld d 28 4, sb := fld d 32 4, sc := fld d 36 4,
    tagA := fld d 40 4, aux := fld d 44 4, as := fld d 48 2, bs := fld d 50 2, cs := fld d 52 2, accs := fld d 54 2,
    sync := fld d 56 4, compl := fld d 60 4 }

def MF.isAcc (m : MF) : Bool := bit m.ctrl 0
def MF.isCont (m : MF) : Bool := bit m.ctrl 1
def MF.isKeep (m : MF) : Bool := bit m.ctrl 2
def MF.sat (m : MF) : Bool := bit m.ctrl 3
def MF.rnd (m : MF) : Nat := bits m.ctrl 5 4
def MF.isRec (m : MF) : Bool := bit m.ctrl 6
def MF.trb (m : MF) : Bool := bit m.ctrl 7

def isIeee (f : Nat) : Bool := f == 9 || f == 10 || f == 11

/-- Grain bytes of R91: 32 elements of the format; 512 for TALLY128. -/
def gb (f : Nat) : Nat := grainBytes f

/-- The operation has output to write: MATMUL without KEEP, and GROUPED (R88 (b)). -/
def MF.hasOut (m : MF) : Bool := (m.op == 1 && !m.isKeep) || m.op == 2 || m.op == 4

/-- Check 2 of R89: the fields that the operation does not use, and reserved bits, are zero (R85, R88). -/
def MF.reservedOk (m : MF) : Bool :=
  let z (used : Bool) (v : Nat) : Bool := used || v == 0
  let mm := m.op == 1
  let gr := m.op == 2
  let rs := m.op == 3
  let tl := m.op == 4
  let mg := mm || gr
  let keep := mm && m.isKeep
  let out := m.hasOut
  let stoch := m.rnd == 1
  let hi (v : Nat) : Bool := v >>> 29 == 0
  z mg (m.ctrl % 2) && z mm (bits m.ctrl 1 1) && z mm (bits m.ctrl 2 2) && z mg (bits m.ctrl 7 7)
    && z (out && isIeee m.fo) (bits m.ctrl 3 3) && z (out && m.fo != 12) m.rnd
    && z (decide (1 ≤ m.op)) m.fa && z (mg || rs) m.fb && z out m.fo && z (mg && !keep) m.group
    && z (decide (1 ≤ m.op)) m.mt && z (mg || rs) m.nt && z (decide (1 ≤ m.op)) m.kg && z (mg || rs) m.anchor
    && z (mg || tl || (rs && isIeee m.fa)) m.a && z (mm || (rs && isIeee m.fb)) m.b && z out m.c
    && z (mg && m.isAcc) m.acc && z ((mg || rs) && isGrain m.fa) m.sa && z ((mm || rs) && isGrain m.fb) m.sb
    && z (out && isGrain m.fo) m.sc && z (mg && (m.isAcc || (m.fo == 12 && out))) m.tagA
    && z (gr || rs || ((mm || tl) && stoch)) m.aux
    && z (decide (1 ≤ m.op)) m.as && z (mg || rs) m.bs && z out m.cs && z (mg && m.isAcc) m.accs
    && z m.isRec m.compl && z (decide (bits m.sync 31 24 ≠ 0)) (bits m.sync 23 0)
    && hi m.a && hi m.b && hi m.c && hi m.acc && hi m.sa && hi m.sb && hi m.sc && hi m.tagA && hi m.aux && hi m.compl

/-- A strided extent: the offset of the descriptor field that names it, its base, the bytes between rows, rows, bytes per row. -/
structure Ext where
  off  : Nat
  base : Nat
  step : Nat
  rows : Nat
  len  : Nat
  deriving DecidableEq, Repr

/-- Memory of some row of an extent of device addresses cannot be reached yet. -/
def rowsWait (s : State) (x : Ext) : Bool := (List.range x.rows).any fun i => memWaits s (x.base + i * x.step) x.len

/-- What the rows of an extent wait for wakes. -/
def wakeRows (x : Ext) (s : State) : State :=
  (List.range x.rows).foldl (fun s i =>
    let a := x.base + i * x.step
    if memWaits s a x.len then wakeSpan a x.len s else s) s

/-- The bytes from the first to the last byte of a strided extent. -/
def span (rows stride w : Nat) : Nat := if rows = 0 then 0 else (rows - 1) * stride + w

def overlaps (a n b k : Nat) : Bool := decide (0 < n) && decide (0 < k) && decide (a < b + k) && decide (b < a + n)

/-- Some row of an extent shares a byte with n bytes at a: the first row that ends after a starts before a + n. -/
def Ext.rowHit (x : Ext) (a n : Nat) : Bool :=
  let k := if a < x.base + x.len ∨ x.step = 0 then 0 else (a - x.base - x.len) / x.step + 1
  decide (k < x.rows) && overlaps (x.base + k * x.step) x.len a n

/-- Two strided extents share a byte (R91, R93). (DEDUCED, log entry 4.) -/
def Ext.hits (x y : Ext) : Bool :=
  overlaps x.base (span x.rows x.step x.len) y.base (span y.rows y.step y.len)
    && if x.rows ≤ y.rows then (List.range x.rows).any fun i => y.rowHit (x.base + i * x.step) x.len
       else (List.range y.rows).any fun i => x.rowHit (y.base + i * y.step) y.len

/-- A scale array: `rows` rows of `k` entries (R91). -/
def scaleExt (off f base stride rows k : Nat) : Ext := ⟨off, base, stride * 64 / gb f * scaleBytes f, rows, k * scaleBytes f⟩

/-- Row bytes of B: K_G grains of a column, or N_T × 32 elements of a row under TRB (R91). -/
def MF.bRows (m : MF) : Nat := if m.trb then m.kg * 32 else m.nt * 32
def MF.bRowBytes (m : MF) : Nat := if m.trb then m.nt * gb m.fb else m.kg * gb m.fb

/-- The output's rows and row bytes: N_T × 32 elements; for TRANSPOSE_LOAD the transpose (R91, R103). -/
def MF.oRows (m : MF) : Nat := if m.op = 4 then m.kg * 32 else m.mt * 32
def MF.oTiles (m : MF) : Nat := if m.op = 4 then m.mt else m.nt

/-- Row bytes of A: K_G grains; TRANSPOSE_LOAD reads K_G × 32 columns, which is as many bytes. -/
def MF.aRowBytes (m : MF) : Nat := m.kg * gb m.fa

/-- The tag plane's row stride in bytes (R91). -/
def MF.tagStride (m : MF) : Nat := 4 * if m.isAcc then m.accs else m.cs

/-- The extents the operation reads, but for what a slice table names (R91, R99). (DEDUCED, log entry 4.) -/
def MF.reads (m : MF) : List Ext :=
  let mg := m.op == 1 || m.op == 2
  let rs := m.op == 3
  let a := if mg || m.op == 4 || (rs && isIeee m.fa) then [⟨12, m.a, m.as * 64, m.mt * 32, m.aRowBytes⟩] else []
  let b := if m.op == 1 || (rs && isIeee m.fb) then [⟨16, m.b, m.bs * 64, m.bRows, m.bRowBytes⟩] else []
  let acc := if mg && m.isAcc then
      [⟨24, m.acc, m.accs * 64, m.mt * 32, m.nt * 512⟩, ⟨40, m.tagA, m.tagStride, m.mt * 32, m.nt * 32⟩]
    else []
  let sa := if (mg || rs) && isGrain m.fa then [scaleExt 28 m.fa m.sa m.as (m.mt * 32) m.kg] else []
  let sb := if (m.op == 1 || rs) && isGrain m.fb then [scaleExt 32 m.fb m.sb m.bs (m.nt * 32) m.kg] else []
  let aux := if m.op == 2 then [⟨44, m.aux, 16, 1, 16⟩]
    else if (m.op == 1 || m.op == 4) && m.rnd == 1 then [⟨44, m.aux, 24, 1, 24⟩] else []
  a ++ b ++ acc ++ sa ++ sb ++ aux

/-- Extents the operation writes. (DEDUCED, log entry 4.) -/
def MF.writes (m : MF) : List Ext :=
  let out := m.hasOut
  (if out then [⟨20, m.c, m.cs * 64, m.oRows, m.oTiles * gb m.fo⟩] else [])
    ++ (if out && isGrainOut m.fo then [scaleExt 36 m.fo m.sc m.cs m.oRows m.oTiles] else [])
    ++ (if out && m.fo == 12 && m.op != 4 then [⟨40, m.tagA, m.tagStride, m.mt * 32, m.nt * 32⟩] else [])
    ++ (if m.op == 3 then [⟨44, m.aux, 16, 1, 16⟩] else [])
    ++ (if m.isRec then [⟨60, m.compl, 32, 1, 32⟩] else [])

/-- In-place accumulation (R93). -/
def MF.inPlace (m : MF) : Bool :=
  (m.op == 1 || m.op == 2) && m.isAcc && m.hasOut && m.fo == 12 && m.acc == m.c && m.accs == m.cs

/-- A written and a read extent that are one array: the tag plane, and under in-place accumulation the output (R93). -/
def MF.oneArray (m : MF) (w r : Nat) : Bool := (w == 40 && r == 40) || (m.inPlace && w == 20 && r == 24)

/-- The FAULT offsets of the overlaps of R93, against further read extents. (DEDUCED, log entry 4.) -/
def MF.overlapped (m : MF) (more : List Ext) : List Nat :=
  let ws := m.writes
  let wr := ws.flatMap fun w => ((m.reads ++ more).filter fun r => !m.oneArray w.off r.off && w.hits r).map fun _ => w.off
  let ww := ws.flatMap fun w => (ws.filter fun v => decide (w.off < v.off) && w.hits v).map fun _ => w.off
  wr ++ ww

/-- The fields of check 3 in descriptor order: offset, and whether the value is legal (R90 to R92). (DEDUCED, log entry 6.) -/
def MF.fieldChecks (m : MF) : List (Nat × Bool) :=
  let mm := m.op == 1
  let mg := mm || m.op == 2
  let rs := m.op == 3
  let tl := m.op == 4
  let out := m.hasOut
  let any := decide (1 ≤ m.op)
  let trbOk := !(mg && m.trb) || isIeee m.fb
  let al (used : Bool) (v n : Nat) : Bool := !used || v % n == 0
  let fit (used : Bool) (w st : Nat) : Bool := !used || decide (w ≤ st * 64)
  let ex (used : Bool) (f st : Nat) : Bool := !used || st * 64 % gb f == 0
  [(1, !(m.isAcc && m.isCont) && (!(m.isKeep || m.isCont) || decide (m.mt * m.nt ≤ 16)) && decide (m.rnd < 2)),
   (2, (!any || fmtIn m.fa) && (!tl || isIeee m.fa) && (!(mg || rs) || fmtIn m.fb) && trbOk),
   (3, !out || (fmtOut m.fo && (!tl || m.fo != 12))),
   (4, !any || m.mt != 0), (6, !(mg || rs) || m.nt != 0), (8, !any || m.kg != 0),
   (10, !rs || decide (m.kg ≤ m.anchor)),
   (12, al (mg || tl || (rs && isIeee m.fa)) m.a (gb m.fa)), (16, al (mm || (rs && isIeee m.fb)) m.b (gb m.fb)),
   (20, al out m.c (gb m.fo)), (24, al (mg && m.isAcc) m.acc 512),
   (28, al ((mg || rs) && m.fa == 5) m.sa 4), (32, al ((mm || rs) && m.fb == 5) m.sb 4),
   (40, al (mg && (m.isAcc || (out && m.fo == 12))) m.tagA 32), (44, al (m.aux != 0) m.aux 32),
   (48, fit any m.aRowBytes m.as && ex ((mg || rs) && isGrain m.fa) m.fa m.as),
   (50, fit (mg || rs) m.bRowBytes m.bs && ex ((mg || rs) && isGrain m.fb) m.fb m.bs),
   (52, fit out (m.oTiles * gb m.fo) m.cs && ex (out && isGrainOut m.fo) m.fo m.cs),
   (54, fit (mg && m.isAcc) (m.nt * 512) m.accs
      && (!(mg && m.isAcc && out && m.fo == 12 && m.acc != m.c) || m.accs == m.cs)),
   (60, al m.isRec m.compl 32)]

/-- Check 3 of R89: the lowest offset of a field that fails, an overlap's field included (R93, R107). (DEDUCED, log entry 6.) -/
def MF.check3 (m : MF) : Option Nat :=
  ((m.fieldChecks.filter fun x => !x.2).map (·.1) ++ m.overlapped []).min?

/-! ### A slice table (R99, R100) -/

structure Slice where
  b    : Nat
  sb   : Nat
  row0 : Nat
  rows : Nat
  deriving DecidableEq, Repr

def sliceAt (t : Bytes) (i : Nat) : Slice := ⟨fld t (16 * i) 4, fld t (16 * i + 4) 4, fld t (16 * i + 8) 4, fld t (16 * i + 12) 4⟩

/-- The extents that a slice table names: B and its scales of every slice (R91, R93, R99). (DEDUCED, log entry 7.) -/
def sliceExts (m : MF) (es : List Slice) : List Ext :=
  es.flatMap fun e =>
    ⟨44, e.b, m.bs * 64, m.bRows, m.bRowBytes⟩
      :: if isGrain m.fb then [scaleExt 44 m.fb e.sb m.bs (m.nt * 32) m.kg] else []

/-- The failing fields of one entry under step 5 of R100, as table byte offsets: B and SB misaligned, rows past the last or
shared with an earlier slice at ROW0, ROWS outside its range. A slice with no rows covers none. (DEDUCED, log entry 7.) -/
def sliceBad (m : MF) (es : List Slice) (i : Nat) (e : Slice) : List Nat :=
  let o := 16 + 16 * i
  let most := m.mt * 32
  (if e.b % gb m.fb ≠ 0 then [o] else []) ++ (if m.fb = 5 ∧ e.sb % 4 ≠ 0 then [o + 4] else [])
    ++ (if e.rows ≠ 0 ∧ e.rows ≤ most ∧ most < e.row0 + e.rows then [o + 8] else [])
    ++ (if (es.take i).any fun x => overlaps x.row0 x.rows e.row0 e.rows then [o + 8] else [])
    ++ (if most < e.rows then [o + 12] else [])

/-- FAULT of step 5 of R100: the offset R93 gives for an overlap with the table or with what it names, else 0x1000 plus the
first failing field's table byte offset. (DEDUCED, log entry 6; DEDUCED, log entry 7.) -/
def sliceFault (m : MF) (es : List Slice) (more : List Ext) : Option Nat :=
  (m.overlapped (more ++ sliceExts m es) ++ (es.zipIdx.flatMap fun (e, i) => sliceBad m es i e).map (0x1000 + ·)).min?

/-! ### Sums (R55 to R60, R91, R95) -/

/-- Bytes of strata memory at an offset, as reads deliver them. -/
def strataBytes (s : State) (o n : Nat) : Bytes := memBytes s (strataBase + o) n

/-- The strata ranges that one row's grain and scale entry occupy. -/
def grainPieces (f base stride sbase r g : Nat) : List (Nat × Nat) :=
  (base + r * stride * 64 + g * gb f, gb f)
    :: if isGrain f then [(sbase + (r * stride * 64 / gb f + g) * scaleBytes f, scaleBytes f)] else []

/-- The rows of 32 elements in the bytes that reading `grainPieces` of some rows delivered. -/
def grainRows (f : Nat) : List Bytes → List (List El)
  | b :: sc :: t => if isGrain f then grainVals f b sc :: grainRows f t else grainVals f b [] :: grainRows f (sc :: t)
  | [b] => if isGrain f then [] else [grainVals f b []]
  | [] => []

/-- A running sum: tally, counts, tag bits and infinities seen, whether an addition saturated it. -/
structure Dot where
  t       : Tally := {}
  inexact : Nat := 0
  zero    : Nat := 0
  tags    : Nat := 0
  inf     : Bool := false
  sat     : Bool := false
  deriving DecidableEq, Repr

def isInf : El → Bool
  | .inf _ => true
  | _ => false

/-- Add the term of one grain pair (R56 to R61). -/
def dotStep (a : Int) (d : Dot) (x y : List El) : Dot :=
  let (g, k) := grainSum x y
  let (v, ix) := term g a
  let t := d.t.add v
  { t := t.orTag k
    inexact := d.inexact + if ix then 1 else 0
    zero := d.zero + if g.1 ≠ 0 ∧ v = 0 then 1 else 0
    tags := d.tags ||| k
    inf := d.inf || x.any isInf || y.any isInf
    sat := d.sat || (t.tag.getLsbD 3 && !d.t.tag.getLsbD 3) }

/-- A tile to compute: its rows, its N tile, B and its scales, the slot of resident tallies it starts from, its place among the M tiles
that share an N tile. -/
structure Tile where
  rows : List Nat
  n    : Nat
  b    : Nat
  sb   : Nat
  slot : Nat
  idx  : Nat
  deriving DecidableEq, Repr

/-- Split a list into groups of at most n. -/
def chunks {α : Type} (n : Nat) : Nat → List α → List (List α)
  | 0, _ => []
  | f + 1, l => if l.isEmpty then [] else l.take n :: chunks n f (l.drop n)

/-- The walk of R95: N tiles outermost, groups of GROUP + 1 M tiles. -/
def walkOf (group nt b sb : Nat) (mtiles : List (List Nat)) : List (List Tile) :=
  (List.range nt).flatMap fun n =>
    chunks (min (group + 1) mtiles.length) mtiles.length
      ((mtiles.zipIdx).map fun (rows, i) => ⟨rows, n, b, sb, n * mtiles.length + i, i⟩)

/-- The walk of a MATMUL, or of a GROUPED's slices in table order (R95, R100, R101). -/
def walk (m : MF) (es : List Slice) : List (List Tile) :=
  if m.op = 2 then
    es.flatMap fun e => walkOf m.group m.nt e.b e.sb (chunks 32 (e.rows + 1) ((List.range e.rows).map (· + e.row0)))
  else walkOf m.group m.nt m.b m.sb ((List.range m.mt).map fun i => (List.range 32).map (· + 32 * i))

/-- Read ranges of strata memory in order: their bytes, up to the first uncorrectable codeword. -/
def readStrata (s : State) : List (Nat × Nat) → State × List Bytes × Option Nat
  | [] => (s, [], none)
  | (o, n) :: t =>
    let d := strataBytes s o n
    match cwReads s (cwsOf (strataBase + o) n) with
    | (s, none) => let (s, ds, e) := readStrata s t; (s, d :: ds, e)
    | (s, some e) => (s, [], some (e - strataBase))

/-- The accumulate source of a tile, its tallies and tags row by row (R105). -/
def accPieces (m : MF) (t : Tile) : List (Nat × Nat) :=
  t.rows.flatMap fun r => [(m.acc + r * m.accs * 64 + t.n * 512, 512), (m.tagA + r * m.tagStride + t.n * 32, 32)]

/-- The rows of tallies in the bytes that reading `accPieces` delivered (R70). -/
def accRows : List Bytes → List (List Dot)
  | v :: g :: t => ((List.range 32).map fun j =>
      ({ t := { v := BitVec.ofNat 128 (fld v (16 * j) 16), tag := BitVec.ofNat 4 (fld g j 1) } } : Dot)) :: accRows t
  | _ => []

/-- Grain g of B for the 32 columns of an N tile, with its scale entries; under TRB the parts of 32 rows of B (R91, R97). -/
def bPieces (m : MF) (t : Tile) (g : Nat) : List (Nat × Nat) :=
  if m.trb then
    let es := fmtWidth m.fb / 8
    (List.range 32).map fun k => (t.b + (32 * g + k) * m.bs * 64 + t.n * 32 * es, 32 * es)
  else (List.range 32).flatMap fun i => grainPieces m.fb t.b m.bs t.sb (t.n * 32 + i) g

/-- The 32 columns of 32 elements in the bytes of a grain of B, transposed on loading under TRB. -/
def bCols (m : MF) (ps : List Bytes) : List (List El) :=
  if m.trb then
    let es := fmtWidth m.fb / 8
    (List.range 32).map fun i => ps.map fun p => elemVal m.fb (fld p (i * es) es)
  else grainRows m.fb ps

/-- A step: the term of one grain pair for every element of a tile (R80). -/
def stepTile (a : Int) (xs ys : List (List El)) (ds : List (List Dot)) : List (List Dot) :=
  (xs.zip ds).map fun (x, r) => (ys.zip r).map fun (y, d) => dotStep a d x y

/-- Step the tiles of a group in turn for one grain, until an operand read of A is uncorrectable (R95, R111). -/
def stepTiles (m : MF) (ys : List (List El)) (g : Nat) : List (Tile × List (List Dot)) → State → State × List (Tile × List (List Dot)) × Option Nat
  | [], s => (s, [], none)
  | (t, ds) :: rest, s =>
    match readStrata s (t.rows.flatMap fun r => grainPieces m.fa m.a m.as m.sa r g) with
    | (s, _, some cw) => (s, (t, ds) :: rest, some cw)
    | (s, ps, none) =>
      let (s, out, e) := stepTiles m ys g rest s
      (s, (t, stepTile (sext 16 m.anchor) (grainRows m.fa ps) ys ds) :: out, e)

/-- Step a group through grains in order. A grain of B that the buffer holds is not read again (R97). Answers the buffer, the tiles and
the first uncorrectable codeword. -/
def stepGrains (m : MF) (held : List (List Bytes)) : List Nat → List (List Bytes) → List (Tile × List (List Dot)) → State →
    State × List (List Bytes) × List (Tile × List (List Dot)) × Option Nat
  | [], buf, ts, s => (s, buf, ts, none)
  | g :: gs, buf, ts, s =>
    let (s, ps, e) := match held[g]?, ts with
      | some ps, _ => (s, ps, none)
      | none, (t, _) :: _ => readStrata s (bPieces m t g)
      | none, [] => (s, [], none)
    match e with
    | some cw => (s, buf, ts, some cw)
    | none =>
      match stepTiles m (bCols m ps) g ts s with
      | (s, ts, none) => stepGrains m held gs (buf ++ [ps]) ts s
      | (s, ts, some cw) => (s, buf ++ [ps], ts, some cw)

/-- The tallies that a tile starts from (R86, R98): the accumulate source, the resident slot, or zero; and the first uncorrectable
codeword. -/
def startTiles (m : MF) (e : Eng) : List Tile → State → State × List (Tile × List (List Dot)) × Option Nat
  | [], s => (s, [], none)
  | t :: rest, s =>
    if m.isAcc then
      match readStrata s (accPieces m t) with
      | (s, _, some cw) => (s, [], some cw)
      | (s, ps, none) => let (s, out, e) := startTiles m e rest s; (s, (t, accRows ps) :: out, e)
    else
      let ds : List (List Dot) := t.rows.zipIdx.map fun (_, i) => (List.range 32).map fun j =>
        if m.isCont then { t := tget {} e.store (t.slot * 1024 + i * 32 + j) } else {}
      let (s, out, e) := startTiles m e rest s
      (s, (t, ds) :: out, e)

/-- Bytes of one grain of B for an N tile (R97, R106), and whether B for the whole K does not fit the operand buffer. -/
def MF.bBytes (m : MF) : Nat := 32 * (gb m.fb + scaleBytes m.fb)
def MF.bBig (m : MF) : Bool := decide (262144 < m.kg * m.bBytes)

/-- What the walk gathers: finished rows, how many there were at the end of each finished group (latest first), the counts and
events of every term added, the operand buffer, each group with whether it reads B, and the first uncorrectable codeword. -/
structure WalkR where
  rows    : List TRow := []
  marks   : List Nat := []
  inexact : Nat := 0
  zero    : Nat := 0
  tags    : Nat := 0
  inf     : Bool := false
  sat     : Bool := false
  buf     : List (List Bytes) := []
  ue      : Option Nat := none
  deriving DecidableEq, Repr

/-- Count the terms added to tiles, finished or not (R61, R77). -/
def WalkR.count (w : WalkR) (ts : List (Tile × List (List Dot))) : WalkR :=
  let ds := ts.flatMap fun t => t.2.flatten
  { w with
    inexact := w.inexact + (ds.map (·.inexact)).sum
    zero := w.zero + (ds.map (·.zero)).sum
    tags := ds.foldl (fun k d => k ||| d.tags) w.tags
    inf := w.inf || ds.any (·.inf)
    sat := w.sat || ds.any (·.sat) }

/-- Step one group (R95): its sums are complete, or an operand read was uncorrectable and the terms added before it count. -/
def runGroup (m : MF) (e : Eng) (ts : List Tile) (w : WalkR) (s : State) : State × WalkR :=
  let held := if m.bBig || ts.any (fun t => t.idx == 0) then [] else w.buf
  match startTiles m e ts s with
  | (s, _, some cw) => (s, { w with ue := some cw })
  | (s, st, none) =>
    let (s, buf, st, ue) := stepGrains m held (List.range m.kg) [] st s
    let w := { w.count st with buf := buf.take (262144 / m.bBytes), ue := ue }
    let rows := st.flatMap fun (t, ds) => (t.rows.zip ds).map fun (r, d) => (⟨r, t.n, d.map (·.t)⟩ : TRow)
    (s, if ue.isSome then w else { w with rows := w.rows ++ rows, marks := (w.rows.length + rows.length) :: w.marks })

/-- Step every group of the walk until an operand read is uncorrectable (R95, R111). -/
def runWalk (m : MF) (e : Eng) : List (List Tile) → WalkR → State → State × WalkR
  | [], w, s => (s, w)
  | ts :: rest, w, s =>
    match runGroup m e ts w s with
    | (s, w) => if w.ue.isSome then (s, w) else runWalk m e rest w s

/-- Rows that are written before the group under way begins its sums (R96): every earlier group's, or with groups of at most 8 tiles those
of the groups before the last, which may still drain. -/
def sureRows (m : MF) (marks : List Nat) : Nat :=
  if min (m.group + 1) m.mt ≤ 8 then marks.getD 1 0 else marks.headD 0

/-! ### Output (R67 to R73, R91) -/

/-- The rounding of an output element (R72, R73). -/
def rndAt (m : MF) (seed : Bytes) (i j : Nat) : Rnd := if m.rnd = 1 then .stoch (drawAt seed i j) else .even

/-- The writes of one output row of 32 elements, and its arithmetic events (R67 to R70, R91). -/
def outRow (m : MF) (seed : Bytes) (r n : Nat) (xs : List El) (ts : List Tally) : List (Nat × Bytes) × Nat :=
  let at_ := m.c + r * m.cs * 64 + n * gb m.fo
  if m.fo = 12 then
    ([(at_, ts.flatMap fun t => leBytes 16 t.v.toNat), (m.tagA + r * m.tagStride + n * 32, ts.map fun t => BitVec.ofNat 8 t.tag.toNat)], 0)
  else
    let mds := (List.range 32).map fun j => rndAt m seed r (n * 32 + j)
    if isGrainOut m.fo then
      let (sc, blk, fl) := toGrain m.fo mds xs
      ([(at_, blk), (m.sc + (r * m.cs * 64 / gb m.fo + n), leBytes 1 sc)],
        (if fl.outSat then 8 else 0) + if fl.clamp then 16 else 0)
    else
      let cs := (xs.zip mds).map fun (x, md) => toFmt m.fo m.sat md x
      ([(at_, cs.flatMap fun (c, _) => leBytes (fmtWidth m.fo / 8) c)], if cs.any (·.2) then 8 else 0)

/-- Perform writes to strata memory in order until one finds an uncorrectable codeword (R111). -/
def writePieces (s : State) : List (Nat × Bytes) → State × Option Nat
  | [] => (s, none)
  | (o, bs) :: t => match writeMem s (strataBase + o) bs with
    | (s, none) => writePieces s t
    | r => r

/-- Block k of column block c of a TRANSPOSE_LOAD, 32 rows of the source (R103). -/
def transPieces (m : MF) (c k : Nat) : List (Nat × Nat) :=
  (List.range 32).map fun i => (m.a + (32 * k + i) * m.as * 64 + c * gb m.fa, gb m.fa)

/-- Column i of a block that was read: a row of 32 elements of the transpose. -/
def transEls (m : MF) (ps : List Bytes) (i : Nat) : List El :=
  let es := fmtWidth m.fa / 8
  ps.map fun p => elemVal m.fa (fld p (i * es) es)

/-- NAN_IN and INF_IN of elements read (R77). -/
def elFlags (xs : List El) : Nat := (if xs.any (· == .nan) then 2 else 0) + if xs.any isInf then 4 else 0

/-- The rows of the transpose that the blocks give, block by block and row by row within each (R103): their writes, their events, and the
first uncorrectable codeword. (DESIGN CHOICE, log entry 12.) -/
def transRun (m : MF) (seed : Bytes) : List (Nat × Nat) → State → State × List (List (Nat × Bytes)) × Nat × Option Nat
  | [], s => (s, [], 0, none)
  | (c, k) :: rest, s =>
    match readStrata s (transPieces m c k) with
    | (s, _, some cw) => (s, [], 0, some cw)
    | (s, ps, none) =>
      let outs := (List.range 32).map fun i =>
        let xs := transEls m ps i
        let (w, f) := outRow m seed (32 * c + i) k xs []
        (w, f ||| elFlags xs)
      let (s, more, fl, e) := transRun m seed rest s
      (s, outs.map (·.1) ++ more, outs.foldl (fun f x => f ||| x.2) fl, e)

/-! ### Cycle counts the spec fixes (R102, R106) -/

/-- Twice the cycles one grain takes at a format's rate, and the rate class as steps per two cycles (R80). -/
def halfCycles (f : Nat) : Nat :=
  match f with
  | 4 | 5 | 7 => 1
  | 9 | 10 => 4
  | 11 => 16
  | _ => 2

/-- ceil(K_G / S) of R106: the slower format's rate. -/
def stepCycles (m : MF) : Nat := ceilDiv (m.kg * max (halfCycles m.fa) (halfCycles m.fb)) 2

/-- The groups of an operation in order: the tiles of each, and whether it reads B (R97, R106). -/
def groupsOf (m : MF) (es : List Slice) : List (Nat × Bool) :=
  (walk m es).map fun ts => (ts.length, m.bBig || ts.any (fun t => t.idx == 0))

/-- The cycles of R106 from acceptance to the last output write, with local operands. -/
def mmCycles (m : MF) (groups : List (Nat × Bool)) : Nat :=
  let per (t : Nat) (rd : Bool) : Nat :=
    (if m.isAcc then 16 * t else 0) + max (t * stepCycles m) (if rd then ceilDiv (m.kg * m.bBytes) 256 else 0)
  let drain (t : Nat) : Nat := 32 * t + 8
  let last := match groups.getLast? with | some (t, _) => drain t | none => 0
  12 + (groups.map fun (t, rd) => per t rd).sum
    + (if m.isKeep then 0 else if min (m.group + 1) m.mt ≤ 8 then last else (groups.map fun (t, _) => drain t).sum)

/-- The cycles of R102 of a RANGE_SCAN with local operands. -/
def scanCycles (m : MF) : Nat :=
  let side (f rows : Nat) : Nat × Nat := if isGrain f then (rows * m.kg * scaleBytes f, 0)
    else if isIeee f then (0, rows * m.kg * gb f) else (0, 0)
  let (sa, ea) := side m.fa (m.mt * 32)
  let (sb, eb) := side m.fb (m.nt * 32)
  12 + max (ceilDiv (sa + sb) 256) (ceilDiv (ea + eb) 1024)

/-- The cycles in which a TRANSPOSE_LOAD moves its blocks (R103). -/
def transCycles (m : MF) : Nat := 32 * (m.mt * m.kg)

end Sys2Proof.Machine
end

