-- ==== Sys2Proof/Machine/LodeOps.lean ====
section
/-! DEFINITION. Lodes as units: their holds, lock groups, group cycles, and the determinism page of a tenant (R143, R173 to R180,
R244, R251 to R254, R435). -/
namespace Sys2Proof.Machine

open Sys2Proof

/-! ### Determinism page (R251 to R254, R269) -/

def strict (s : State) (t : Nat) : Bool := bit (s.reg .detCtrl 0 t) 0

/-- A timing-dependent operation is counted (R253), on behalf of a command where one caused it (R195). -/
def varCount (t : Nat) (cmd : Option Nat) (s : State) : State :=
  let s := s.count .detVar 0 t 1
  match cmd with
  | some id => modCmd id (fun c => { c with varD := c.varD + 1 }) s
  | none => s

/-- A timing-dependent operation is refused in strict mode (R254). -/
def varRefuse (t : Nat) (s : State) : State := (s.count .detRefusals 0 t 1).orReg .detSts 0 t 0x20

/-! ### Groups (R173 to R180) -/

/-- The group number and group that holds a lode. -/
def groupOf (s : State) (n : Nat) : Option (Nat × Grp) := s.groups.find? fun e => e.2.st ≠ .free && e.2.members.contains n

/-- CCLK of a die in MHz (R26, R468): the frequency of PWR.STS of the die. The clock of CD1 follows CD0's where locked. -/
def cclkMhz (s : State) : Nat := bits (s.reg .pwrSts) 10 0

/-- Group cycles counted so far (R173): counted while the group runs, at the rate of CCLK. -/
def groupCycles (s : State) (g : Grp) : Nat :=
  if g.st = .running then g.cycles + (s.tb.ticks - g.since) * cclkMhz s / 1000 else g.cycles

/-- LODE[n].GCYC. -/
def gcycOf (s : State) (n : Nat) : Nat :=
  match groupOf s n with
  | some (_, g) => if g.st = .running ∨ g.st = .held then groupCycles s g else s.reg .lodeGcyc n
  | none => s.reg .lodeGcyc n

/-- Group cycles are counted up to now. -/
def foldCycles (s : State) (g : Grp) : Grp := { g with cycles := groupCycles s g, since := s.tb.ticks }

/-- GCYC for a trace record: that of a lode in a running group (R508). -/
def traceGcyc (s : State) (n : Nat) : Nat :=
  match groupOf s n with
  | some (_, g) => if g.st = .running then groupCycles s g else 0
  | none => 0

/-- A trace hit at a unit of a lode (R507, R508). World-S units belong to no tenant and are not traced. -/
def lodeTrace (n point unit status arg : Nat) (s : State) : State :=
  let o := lodeOwner s n
  if o = 0 then s else traceHit (o - 1) point unit status arg (traceGcyc s n) (some n) s

/-! ### Holds (R110, R143, R176, R244, R435) -/

/-- An alarm halts the secure world: the lodes and IBCs of owner 0 are held (R244, R464). (DEDUCED, log entry 92.) -/
def worldHalted (s : State) (owner : Nat) : Bool := owner == 0 && (s.fwp 34).st == .halted

/-- A hold of the lode's own: CTRL.HOLD, its control core not running, the secure world halted, or the device hold of its tenant. -/
def lodeHeldOwn (s : State) (n : Nat) : Bool :=
  bit (s.reg .lodeCtrl n) 1 || (s.fwp n).st != .running || worldHalted s (lodeOwner s n)
    || (let o := lodeOwner s n; decide (0 < o) && bit (s.host (o - 1)).heldLodes n)

/-- A hold request on the lode: its own, or that of any member of its running group. -/
def lodeHold (s : State) (n : Nat) : Bool :=
  lodeHeldOwn s n || match groupOf s n with
    | some (_, g) => (g.st == .running || g.st == .held) && g.members.any (lodeHeldOwn s)
    | none => false

/-- A hold request on a core (R143): its CTRL.HOLD, or the hold of its lode. -/
def coreHold (s : State) (k : Nat) : Bool :=
  bit (s.reg .bcCtrl k) 1 || (if k < 256 then lodeHold s (k / 8) else worldHalted s (tget 0 s.own.ibcs (k - 256)))

/-- Set LAPSE in every member and GROUP_LAPSE of the tenant (R176, R251). (DEDUCED, log entry 28; DEDUCED, log entry 65.) -/
def groupLapse (g : Grp) (s : State) : State :=
  (g.members.foldl (fun s n => s.orReg .lodeLock n 0 0x400) s).orReg .detSts 0 g.tenant 8

/-- A running group that a hold reaches becomes HELD, and a held group whose holds are withdrawn runs again, where CCLK is off the
deterministic point with NOT_DOP set (R180, R251, R252). -/
def syncGroups (s : State) : State :=
  s.groups.foldl (fun s (i, _) =>
    let g := s.grp i
    let h := g.members.any (lodeHeldOwn s)
    if g.st = .running ∧ h then groupLapse g (s.setGrp i { foldCycles s g with st := .held })
    else if g.st = .held ∧ h = false then
      let s := if cclkMhz s ≠ 1500 then s.orReg .detSts 0 g.tenant 4 else s
      s.setGrp i { g with st := .running, since := s.tb.ticks }
    else s) s

/-- The waiter of a source whose timeout counts: its one wait, or the SYN.ID entry of its SYN.ANY (R230). -/
def timedWaiter (src : Nat) (w : Waiter) : Bool := w.src == src && w.any.getD 0 == 0

/-- That waiter, where it has joined its counter. -/
def listedWaiter (s : State) (src : Nat) : Option Waiter := (s.sync.counters.flatMap fun (_, c) => c.waiters).find? (timedWaiter src)

/-- A source's wait has a timeout that has expired (R231). -/
def waitExpired (s : State) (src : Nat) : Bool := match listedWaiter s src with | some w => expired s w.deadline | none => false

/-- Give the listed waiter of a source another deadline. -/
def setDeadline (src : Nat) (d : Option Nat) (s : State) : State :=
  { s with sync := { s.sync with counters := s.sync.counters.map fun (p, c) =>
      (p, { c with waiters := c.waiters.map fun w => if timedWaiter src w then { w with deadline := d } else w }) } }

/-- The timeout of a source's wait stops, answering the ticks left (R144). -/
def pauseWaits (src : Nat) (s : State) : State × Option Nat :=
  (setDeadline src none s, (listedWaiter s src).bind fun w => w.deadline.map (· - s.tb.ticks))

/-- The timeout goes on from the count it had reached (R144). -/
def resumeWaits (src : Nat) (left : Option Nat) (s : State) : State :=
  match left with
  | none => s
  | some d => setDeadline src (some (s.tb.ticks + d)) s

/-- A held core with no hold request resumes at its boundary, and a saved repeat goes on (R143, R152, R155). -/
def releaseCore (k : Nat) (s : State) : State :=
  let c := s.core k
  if c.st = .held ∧ coreHold s k = false then
    resumeWaits k c.paused (s.setCore k { c with st := .running, paused := none, repLeft := 0 })
  else s

/-- An engine's state as ME[n].STS shows it is IDLE: under QUIESCE or a hold it is HELD (R110). -/
def engIdle (s : State) (n : Nat) : Bool := (s.engine n).phase == .idle && !bit (s.reg .meCtrl n) 0 && !lodeHold s (n / 2)

/-- A lode is idle in the sense of R174: cores HALTED, engines IDLE with empty queues, mover queue empty. -/
def lodeIdle (s : State) (n : Nat) : Bool :=
  ((List.range 8).all fun c => (s.core (8 * n + c)).st == .halted)
    && ((List.range 2).all fun e => engIdle s (2 * n + e) && (s.engine (2 * n + e)).queue == []) && (s.lode n).queue == []

/-- Every unit of the lode has taken the hold (R182 HELD). -/
def lodeStopped (s : State) (n : Nat) : Bool :=
  ((List.range 8).all fun c => (s.core (8 * n + c)).st != .running)
    && ((List.range 2).all fun e => (s.engine (2 * n + e)).phase == .idle)
    && ((List.range 4).all fun m => (tget none (s.lode n).movers m).isNone)

def lodeHeld (s : State) (n : Nat) : Bool := lodeHold s n && lodeStopped s n

/-- A lode's state code (R216): 0 IDLE, 1 BUSY, 2 HELD, 3 ZEROING. -/
def lodeCode (s : State) (n : Nat) : Nat :=
  if tget 0 s.own.zeroing n ≠ 0 then 3 else if lodeHeld s n then 2 else if lodeIdle s n then 0 else 1

/-- LODE_HOLD commands whose lode is now held reply, and LODE_RESET commands whose lode is now IDLE (R212). -/
def holdReplies (s : State) : State :=
  s.cmd.cmds.foldl (fun s c =>
    if c.phase = .working ∧ ((cmdOp c = some .lodeHold ∧ lodeHeld s (c.p 0)) ∨ (cmdOp c = some .lodeReset ∧ lodeCode s (c.p 0) = 0))
    then finish0 c.id stOk s else s) s

/-- After a change of a hold: groups change state, held cores without a request resume, and LODE_HOLD replies. -/
def holdsChanged (s : State) : State :=
  let s := syncGroups s
  let s := s.cores.foldl (fun s (k, _) => releaseCore k s) s
  holdReplies s

/-- The lodes that a hold of lode `n` reaches: the members of its running group, or the lode alone (R176). (DEDUCED, log entry 65.) -/
def holdMask (s : State) (n : Nat) : Nat :=
  match groupOf s n with
  | some (_, g) => if g.st = .running ∨ g.st = .held then (g.members.map (2 ^ ·)).sum else 2 ^ n
  | none => 2 ^ n

/-- The device hold of R435 reaches lodes of a tenant. (DEDUCED, log entry 65.) -/
def deviceHold (t mask : Nat) (s : State) : State :=
  let h := s.host t
  holdsChanged (s.setHost t { h with jobHeld := true, heldLodes := h.heldLodes ||| mask })

/-- A core of lode `n` waits on a counter: while its tenant quiesces, that is the lode's sync point (R435). -/
def syncPoint (n : Nat) (s : State) : State :=
  let o := lodeOwner s n
  if 0 < o ∧ (s.host (o - 1)).quiescing then deviceHold (o - 1) (holdMask s n) s else s

/-- A lode that is clocked (R487). -/
def awake (s : State) (n : Nat) : Bool := !(s.lode n).idle

end Sys2Proof.Machine
end

