-- ==== Sys2Proof/Machine/Engine.lean ====
section
/-! DEFINITION. Matrix engines: the descriptor queue, acceptance with the checks of R89 and R100, the operations, output, completion and
chains (R78 to R112). -/
namespace Sys2Proof.Machine

open Sys2Proof

/-! ### The queue (R82, R83) -/

/-- The identity of an engine's requests: the tenant of its lode (R37). -/
def engReq (s : State) (n : Nat) : Requester := ownReq (lodeOwner s (n / 2)) (0x300 + n)

/-- The context in which an issuer's identifiers translate (R94, R237): a control core has none, so that it names physical counters. (DESIGN CHOICE, log entry 23.) -/
def issuerCtx (s : State) : Issuer → Option Nat
  | .core k => coreBind s k
  | .fn i => fnBind s i
  | .ctl => none

/-- The strata offset of a chain's descriptor i. -/
def chainOff (c : Chain) (i : Nat) : Nat := c.base + 64 * i

def modChainBy (id : Nat) (f : Chain → Chain) (s : State) : State :=
  { s with chains := lmod (fun c => c.id == id) f s.chains }

def dropChain (id : Nat) (s : State) : State := { s with chains := s.chains.filter fun c => c.id != id }

def cmdFn (s : State) (id : Nat) : Nat := match findCmd s id with | some c => c.fn | none => 0

/-- Whether a descriptor belongs to a chain. -/
def ofChain (id : Nat) (x : Option (Nat × Nat)) : Bool := match x with | some (i, _) => i == id | none => false

/-- The waiting descriptors of a chain leave queue and offers. -/
def dropQueued (c : Chain) (s : State) : State :=
  if c.moves then
    let l := s.lode c.unit
    s.setLode c.unit { l with queue := l.queue.filter fun m => !ofChain c.id m.chain, offers := l.offers.filter fun m => !ofChain c.id m.chain }
  else
    let e := s.engine c.unit
    s.setEngine c.unit { e with queue := e.queue.filter fun m => !ofChain c.id m.chain, offers := e.offers.filter fun m => !ofChain c.id m.chain }

/-- Something of a chain is offered, queued or in execution. -/
def chainOut (s : State) (c : Chain) : Bool :=
  if c.moves then
    let l := s.lode c.unit
    (l.queue.any fun m => ofChain c.id m.chain) || (l.offers.any fun m => ofChain c.id m.chain)
      || l.movers.any fun (_, o) => match o with | some o => ofChain c.id o.mv.chain | none => false
  else
    let e := s.engine c.unit
    (e.queue.any fun m => ofChain c.id m.chain) || (e.offers.any fun m => ofChain c.id m.chain)
      || match e.op with | some o => ofChain c.id o.mod.chain | none => false

/-- A chain ends before it is done: its waiting descriptors leave queue and offers, and the command replies with the status, the
index and the number executed (R111, R112, R217). -/
def endChain (id st idx done w2 : Nat) (s : State) : State :=
  match s.chains.find? (·.id == id) with
  | none => s
  | some c => finish id st idx done w2 0 (dropChain id (dropQueued c s))

/-- A chain is to end early: the lowest index counts (R109, R212). (DESIGN CHOICE, log entry 103.) -/
def stopChain (id st idx w2 : Nat) (s : State) : State :=
  modChainBy id (fun c => { c with stop := match c.stop with
    | some (st', i, w) => if i ≤ idx then some (st', i, w) else some (st, idx, w2)
    | none => some (st, idx, w2) }) s

/-- A chain whose last descriptor has completed OK, or that is to end early and has nothing left in execution, replies (R109, R212). (DESIGN CHOICE, log entry 103.) -/
def settleChain (id : Nat) (s : State) : State :=
  match s.chains.find? (·.id == id) with
  | none => s
  | some c => match c.stop with
    | some (st, i, w2) => if chainOut s c then s else finish id st i c.ended w2 0 (dropChain id s)
    | none => if c.ended = c.count then finish id stOk 0xFFFFFFFF c.count 0 0 (dropChain id s) else s

/-- Some chain's offer waits at a unit. -/
def chainOffered (moves : Bool) (unit : Nat) (s : State) : Bool :=
  if moves then (s.lode unit).offers.any fun m => m.chain.isSome else (s.engine unit).offers.any fun m => m.chain.isSome

/-- The next descriptor of the earliest chain to a unit that has one to offer is read and offered (R82, R109, R200, R212); a chain whose
descriptor cannot be read stops there. (DESIGN CHOICE, log entry 103.) -/
def offerNext (moves : Bool) (unit : Nat) (s : State) : State :=
  if chainOffered moves unit s then s
  else match s.chains.find? fun c => c.moves == moves && c.unit == unit && decide (c.next < c.count) && c.stop.isNone with
    | none => s
    | some c =>
      match readMem s (strataBase + chainOff c c.next) 64 with
      | (s, .error _) => settleChain c.id (stopChain c.id stUncorr c.next 0 s)
      | (s, .ok d) =>
        let ch := some (c.id, c.next)
        let who := Issuer.fn (cmdFn s c.id)
        let s := modChainBy c.id (fun c => { c with next := c.next + 1 }) s
        if moves then
          let l := s.lode unit
          s.setLode unit { l with offers := l.offers ++ [⟨d, who, ch⟩] }
        else
          let e := s.engine unit
          s.setEngine unit { e with offers := e.offers ++ [⟨d, 8, who, ch⟩] }

/-- The chains to a unit offer what they may: at most one descriptor stands offered at a time (R200). -/
def offerChains (moves : Bool) (unit : Nat) (s : State) : State :=
  s.chains.foldl (fun s _ => offerNext moves unit s) s

/-- A core's offer is accepted: its bundle may issue (R133). -/
def offerTaken (k : Nat) (dmv : Bool) (s : State) : State :=
  let c := s.core k
  s.setCore k (if dmv then { c with dmv := .accepted } else { c with mop := .accepted })

/-- Enqueue the offer of one position (R83). -/
def enqueueAt (n pos : Nat) (s : State) : State :=
  let e := s.engine n
  if e.queue.length < 8 then
    match takeFirst (fun m => m.pos == pos) e.offers with
    | some (m, rest) =>
      let s := s.setEngine n { e with offers := rest, queue := e.queue ++ [m], rr := (pos + 1) % 10 }
      match m.issuer with
      | .core k => offerTaken k false s
      | .fn _ => offerChains false n s
      | .ctl => s
    | none => s
  else s

/-- The lode's control core offers a descriptor, while it runs and none of its own waits (R82). (DESIGN CHOICE, log entry 23.) -/
def ctlOffer (n : Nat) (d : Option Bytes) (s : State) : State :=
  let e := s.engine n
  match d with
  | some b => if (s.fwp (n / 2)).st = .running ∧ e.offers.all (fun m => m.pos != 9) then
      s.setEngine n { e with offers := e.offers ++ [⟨fit 64 b, 9, .ctl, none⟩] } else s
  | none => s

/-- One cycle's enqueues, upward from the pointer, of all that has been offered (R83). -/
def execModEnqueue (q : Enqueue) (s : State) : Res :=
  run (q.unit < 64) s fun s =>
    let s := ctlOffer q.unit q.ctl s
    let rr := (s.engine q.unit).rr
    (List.range 10).foldl (fun s i => enqueueAt q.unit ((rr + i) % 10) s) s

/-! ### Acceptance (R84, R89) -/

/-- Every byte of an extent lies in strata memory and is granted (R89 check 4). -/
def strataGranted (s : State) (r : Requester) (o n : Nat) (wr : Bool) : Bool :=
  decide (o + n ≤ 2 ^ 29) && permits s r (strataBase + o) n wr

/-- Every byte of a strided extent lies in strata memory and is granted (R89 check 4, R91). -/
def extGranted (s : State) (r : Requester) (wr : Bool) (x : Ext) : Bool :=
  decide (x.base + span x.rows x.step x.len ≤ 2 ^ 29) && permitsRows s r (strataBase + x.base) x.step x.rows x.len wr

/-- The translation of a SYNC field for a unit of an owner, none where the increment is zero (R85). (DEDUCED, log entry 20.) -/
def syncXl (s : State) (o : Nat) (ctx : Option Nat) (sync : Nat) : Option Xl :=
  if bits sync 31 24 = 0 then none else some (translateFor s o ctx (bits sync 23 0))

def xlOk : Option Xl → Bool
  | some .none => false
  | some .ue => false
  | _ => true

/-- Where the completion record goes when its address passes on its own (R89). -/
def recPlace (s : State) (n : Nat) (m : MF) : Option Nat :=
  if m.isRec && m.compl % 32 == 0 && m.compl >>> 29 == 0 && strataGranted s (engReq s n) m.compl 32 true then some m.compl else none

/-- The signal of a SYNC field that passes on its own (R89). -/
def sigPlace (x : Option Xl) (sync : Nat) : Option (Xl × Nat) :=
  match x with
  | some (.phys p) => some (.phys p, bits sync 31 24)
  | some (.remote p f) => some (.remote p f, bits sync 31 24)
  | _ => none

/-- The device addresses that an extent spans. -/
def extRange (x : Ext) : Nat × Nat := (strataBase + x.base, span x.rows x.step x.len)

/-- Checks 1 to 4 of R89: status and FAULT. -/
def modCheck (s : State) (n : Nat) (m : MF) (x : Option Xl) : Option (Nat × Nat) :=
  if 4 < m.op then some (stBadOpcode, 0)
  else if !m.reservedOk then some (stReserved, 0)
  else match m.check3 with
    | some f => some (stInvalid, f)
    | none =>
      let r := engReq s n
      if !(m.reads.all (extGranted s r false)) || !(m.writes.all (extGranted s r true)) then
        some (refusedOf s r ((m.reads ++ m.writes).map extRange), 0)
      else if x = some .ue then some (stUncorr, 0)
      else if !xlOk x then some (stDenied, 0)
      else none

/-- Check 5 of R89: the resident state matches (R98). -/
def contOk (e : Eng) (m : MF) : Bool := !(m.op == 1 && m.isCont) || e.shape == some (m.mt, m.nt)

/-- The slice table: its entries and the seed record's offset, or the status and FAULT of R100. -/
def readSlices (s : State) (n : Nat) (m : MF) : State × Except (Nat × Nat) (List Slice × Nat) :=
  let r := engReq s n
  match readMem s (strataBase + m.aux) 16 with
  | (s, .error a) => (s, .error (stUncorr, a - strataBase))
  | (s, .ok h) =>
    let seed := fld h 4 4
    let cnt := fld h 0 1
    if !allZero (slice h 1 3) || !allZero (slice h 8 8) || seed >>> 29 ≠ 0 || (m.rnd = 0 && seed ≠ 0) then (s, .error (stReserved, 0))
    else if cnt = 0 || 64 < cnt then (s, .error (stInvalid, 0x1000))
    else if m.rnd = 1 && seed % 32 ≠ 0 then (s, .error (stInvalid, 0x1004))
    else if !strataGranted s r (m.aux + 16) (16 * cnt) false || (m.rnd = 1 && !strataGranted s r seed 32 false) then (s, .error (stDenied, 0))
    else match readMem s (strataBase + m.aux + 16) (16 * cnt) with
      | (s, .error a) => (s, .error (stUncorr, a - strataBase))
      | (s, .ok t) =>
        let es := (List.range cnt).map (sliceAt t)
        if es.any fun e => e.b >>> 29 ≠ 0 || e.sb >>> 29 ≠ 0 || (!isGrain m.fb && e.sb ≠ 0) then (s, .error (stReserved, 0))
        else
          match sliceFault m es (⟨44, m.aux, 16, 1, 16 * cnt + 16⟩ :: if m.rnd = 1 then [⟨44, seed, 24, 1, 24⟩] else []) with
          | some f => (s, .error (stInvalid, f))
          | none => if (sliceExts m es).all (extGranted s r false) then (s, .ok (es, seed)) else (s, .error (refusedOf s r ((sliceExts m es).map extRange), 0))

/-- The extents, as device addresses, that an operation reads and writes, those of its slices among them. -/
def opExts (s : State) (n : Nat) (m : MF) : List Ext :=
  let more := if m.op = 2 then match (readSlices s n m).2 with | .ok (es, _) => sliceExts m es | .error _ => [] else []
  (m.reads ++ m.writes ++ more).map fun x => { x with base := strataBase + x.base }

/-- The engine may accept a descriptor: idle, clocked, not held (R110, R487). (DEDUCED, log entry 8.) -/
def engFree (s : State) (n : Nat) : Bool :=
  let e := s.engine n
  e.phase == .idle && e.op.isNone && !bit (s.reg .meCtrl n) 0 && !lodeHold s (n / 2) && awake s (n / 2)

/-- The accumulator fields of ARITH of one operation (R76). -/
def arithOf (w : WalkR) : Nat :=
  (if w.sat then 1 else 0) + (if bit w.tags 0 then 2 else 0) + if w.inf then 4 else 0

/-- The seed record of a stochastic operation (R73): none where its read is uncorrectable. -/
def seedOf (s : State) (need : Bool) (o : Nat) : State × Except Nat Bytes :=
  if need then readMem s (strataBase + o) 32 else (s, .ok [])

/-- Events reach ME[n].ARITH_STS as they occur (R60, R76, R77). -/
def arithEv (n fl : Nat) (s : State) : State := if fl = 0 then s else s.orReg .meArith n 0 fl

/-- The engine is in execution of an operation. -/
def runOp (n : Nat) (o : EngOp) (s : State) : State := s.setEngine n { s.engine n with phase := .running, op := some o }

/-- Begin a MATMUL or GROUPED that passed its checks: every group's sums, in walk order, until an operand read is
uncorrectable (R95, R100, R104, R111). -/
def beginSums (n : Nat) (m : MF) (es : List Slice) (seedAt : Nat) (o : EngOp) (s : State) : State :=
  match seedOf s (m.rnd == 1) seedAt with
  | (s, .error a) => runOp n { o with ue := some (a - strataBase) } s
  | (s, .ok seed) =>
    let (s, w) := runWalk m (s.engine n) (walk m es) {} s
    let s := s.setEngine n { s.engine n with buf := w.buf }
    runOp n { o with
      inexact := w.inexact, zero := w.zero, arith := arithOf w, rows := w.rows, sure := sureRows m w.marks, seed := seed, ue := w.ue
      groups := groupsOf m es, status := if w.sat then stTallyRange else stOk } (arithEv n (arithOf w) s)

/-- What RANGE_SCAN sees in a side's scale entries or elements (R64, R65). -/
def scanSide (f : Nat) (ps : List Bytes) : ScanSide :=
  let lay := if f = 9 then layBF16 else if f = 10 then layFP16 else layFP32
  if isGrain f then scanScales f (ps.map fun b => fld b 0 1)
  else if isIeee f then
    let w := fmtWidth f / 8
    scanElems lay (ps.flatMap fun b => (List.range (b.length / w)).map fun i => fld b (i * w) w)
  else { bound := 7 }

/-- What RANGE_SCAN reads of a side: its scale entries, or its IEEE elements (R64, R91, R102). -/
def scanPieces (f a sa st rows kg : Nat) : List (Nat × Nat) :=
  let idx : List (Nat × Nat) := (List.range rows).flatMap fun r => (List.range kg).map fun g => (r, g)
  if isGrain f then idx.map fun (r, g) => (sa + (r * st * 64 / gb f + g) * scaleBytes f, scaleBytes f)
  else if isIeee f then idx.map fun (r, g) => (a + r * st * 64 + g * gb f, gb f)
  else []

/-- Begin a RANGE_SCAN: the record of R65 to write (R64, R102). Of two uncorrectable codewords that its ports meet, A's counts.
(DESIGN CHOICE, log entry 12.) -/
def beginScan (n : Nat) (m : MF) (o : EngOp) (s : State) : State :=
  let (s, pa, ea) := readStrata s (scanPieces m.fa m.a m.sa m.as (m.mt * 32) m.kg)
  let (s, pb, eb) := if ea.isSome then (s, [], none) else readStrata s (scanPieces m.fb m.b m.sb m.bs (m.nt * 32) m.kg)
  let a := scanSide m.fa pa
  let b := scanSide m.fb pb
  let fl := (if a.nan || b.nan then 2 else 0) + if a.inf || b.inf then 4 else 0
  let ue := if ea.isSome then ea else eb
  runOp n { o with arith := fl, ue := ue, writes := if ue.isSome then [] else [(m.aux, scanRecord (m.anchor * 32) a b)] } (arithEv n fl s)

/-- Begin a TRANSPOSE_LOAD: the converted rows to write, block by block (R103). (DESIGN CHOICE, log entry 12.) -/
def beginTrans (n : Nat) (m : MF) (o : EngOp) (s : State) : State :=
  match seedOf s (m.rnd == 1) m.aux with
  | (s, .error a) => runOp n { o with ue := some (a - strataBase) } s
  | (s, .ok seed) =>
    let (s, rows, fl, ue) := transRun m seed ((List.range m.kg).flatMap fun c => (List.range m.mt).map fun k => (c, k)) s
    runOp n { o with arith := fl, ue := ue, writes := rows.flatten } (arithEv n fl s)

/-- The translation of the SYNC field of a descriptor in the queue of an engine (R85). -/
def modXl (s : State) (n : Nat) (d : Mod) : Option Xl :=
  syncXl s (lodeOwner s (n / 2)) (issuerCtx s d.issuer) (modFields d.bytes).sync

/-- The head descriptor leaves the queue; an uncorrectable translation word sets SYNC.ERR, and the acceptance is a trace point. -/
def takeHead (n : Nat) (d : Mod) (rest : List Mod) (s : State) : State :=
  let x := modXl s n d
  let s := s.setEngine n { s.engine n with queue := rest }
  lodeTrace (n / 2) 2 n 0 (modFields d.bytes).op (if x = some .ue then s.orReg .syncErr 0 0 0x10 else s)

/-- The operation of an accepted descriptor, with where its record and its signal go. -/
def opOfMod (n : Nat) (d : Mod) (x : Option Xl) (s : State) : EngOp :=
  { mod := d, recAt := recPlace s n (modFields d.bytes), sig := sigPlace x (modFields d.bytes).sync }

/-- A descriptor that fails a check runs no further and completes with its status, with no effect on memory or on the tally store (R89,
R100). (DEDUCED, log entry 8.) -/
def failOp (n : Nat) (o : EngOp) (st f : Nat) (s : State) : State :=
  let table := st == stUncorr && (opExts s n (modFields o.mod.bytes)).any fun x => tableUe s (engReq s n) x.base (span x.rows x.step x.len)
  runOp n { o with status := st, fault := f, refused := true }
    (if st = stDenied then addrDenied (engReq s n) s else if table then tableErr s else s)

/-- An operation that passed its checks and starts sums afresh ends what is resident (R98). -/
def endKept (n : Nat) (m : MF) (s : State) : State :=
  if (m.op = 1 && !m.isCont) || m.op = 2 then s.setEngine n { s.engine n with shape := none, store := [] } else s

/-- Begin an operation that passed its checks. -/
def beginOp (n : Nat) (m : MF) (o : EngOp) (s : State) : State :=
  match m.op with
  | 1 => beginSums n m [] m.aux o (endKept n m s)
  | 2 => match readSlices s n m with
    | (s, .ok (es, seed)) => beginSums n m (es.filter (·.rows ≠ 0)) seed o (endKept n m s)
    | (s, .error (st, f)) => failOp n o st f s
  | 3 => beginScan n m o s
  | 4 => beginTrans n m o s
  | _ => runOp n o s

/-- A descriptor that passes its checks waits, at the head of the queue, for memory that zero-fills or is idle (R168, R487). (DEDUCED, log entry 8.) -/
def modWaits (s : State) (n : Nat) (m : MF) (x : Option Xl) : Bool :=
  (modCheck s n m x).isNone && contOk (s.engine n) m && (opExts s n m).any (rowsWait s)

/-- Accept the head descriptor where its operation is one of those a row of the table names, check it and begin it (R84, R89). (DEDUCED, log entry 8.) -/
def acceptHead (n : Nat) (mine : Nat → Bool) (s : State) : State :=
  match (s.engine n).queue with
  | [] => s
  | d :: rest =>
    let m := modFields d.bytes
    if engFree s n && mine m.op then
      let x := modXl s n d
      let e := s.engine n
      if modWaits s n m x then (opExts s n m).foldl (fun s x => wakeRows x s) s else
      let s := takeHead n d rest s
      let o := opOfMod n d x s
      match modCheck s n m x with
      | some (st, f) => failOp n o st f s
      | none => if !contOk e m then failOp n o stConflict 0 s else beginOp n m o s
    else s

/-- NOP, and every undefined OP, which completes with BAD_OPCODE (R87). -/
def execModNop (n : Nat) (s : State) : Res := run (n < 64) s (acceptHead n fun op => op == 0 || decide (4 < op))
def execMatmul (n : Nat) (s : State) : Res := run (n < 64) s (acceptHead n (· == 1))
def execGrouped (n : Nat) (s : State) : Res := run (n < 64) s (acceptHead n (· == 2))
def execRangeScan (n : Nat) (s : State) : Res := run (n < 64) s (acceptHead n (· == 3))
def execTransposeLoad (n : Nat) (s : State) : Res := run (n < 64) s (acceptHead n (· == 4))

/-! ### Output and completion (R95, R98, R108 to R111) -/

/-- Write output rows in order until a partial write finds its codeword uncorrectable. -/
def writeRows (m : MF) (seed : Bytes) : List TRow → Nat → State → State × Nat × Option Nat
  | [], fl, s => (s, fl, none)
  | r :: t, fl, s =>
    let a := sext 16 m.anchor
    let (ws, f) := outRow m seed r.row r.n (r.ts.map (·.el a)) r.ts
    match writePieces s ws with
    | (s, none) => writeRows m seed t (fl ||| f) s
    | (s, some e) => (s, fl ||| f, some e)

/-- An operation ends for an uncorrectable codeword (R98, R111): resident state ends, and nothing more of it is written. -/
def endUe (n : Nat) (o : EngOp) (cw : Nat) (s : State) : State :=
  s.setEngine n { s.engine n with
    shape := none, store := [],
    op := some { o with status := stUncorr, fault := cw, ue := none, rmw := none, rows := [], writes := [], resFlag := false } }

/-- DRAINING: convert and write the tiles of an operation with output whose sums are complete (R95, R110). -/
def execEngineDrainStart (n : Nat) (s : State) : Res :=
  run (n < 64) s fun s =>
    let e := s.engine n
    match e.op with
    | some o =>
      let m := modFields o.mod.bytes
      if e.phase = .running ∧ o.fault = 0 ∧ (o.status = stOk ∨ o.status = stTallyRange) ∧ o.ue = none
          ∧ (m.op = 1 ∨ m.op = 2) ∧ m.isKeep = false then
        match writeRows m o.seed o.rows 0 s with
        | (s, fl, none) =>
          let e := s.engine n
          arithEv n fl (s.setEngine n { e with phase := .draining, op := some { o with rows := [], arith := o.arith ||| fl, resFlag := true } })
        | (s, fl, some a) =>
          let e := s.engine n
          arithEv n fl (s.setEngine n { e with phase := .draining, op := some { o with rows := [], arith := o.arith ||| fl, rmw := some (a - strataBase) } })
      else s
    | none => s

/-- The writes of each output row of a TRANSPOSE_LOAD: its elements and, of a grain output, its scale entry. -/
def MF.rowWrites (m : MF) : Nat := if isGrainOut m.fo then 2 else 1

/-- An uncorrectable operand read returns (R111): `rows` of the output rows whose sums were complete have been written, those of groups
that end before the group under way begins among them (R96); no further row is written, and the operation ends UNCORRECTABLE. (DESIGN CHOICE, log entry 12.) -/
def execEngineOperandUe (n rows : Nat) (s : State) : Res :=
  run (n < 64) s fun s =>
    let e := s.engine n
    match e.op with
    | some o =>
      match o.ue with
      | some cw =>
        let m := modFields o.mod.bytes
        if m.op = 4 then
          match writePieces s (o.writes.take (rows * m.rowWrites)) with
          | (s, some a) => endUe n o (a - strataBase) s
          | (s, none) => endUe n o cw s
        else
          match writeRows m o.seed (if m.isKeep then [] else o.rows.take (max rows o.sure)) 0 s with
          | (s, fl, some a) => endUe n { o with arith := o.arith ||| fl } (a - strataBase) (arithEv n fl s)
          | (s, fl, none) => endUe n { o with arith := o.arith ||| fl } cw (arithEv n fl s)
      | none => s
    | none => s

/-- A partial output write found its codeword uncorrectable (R111). -/
def execEngineRmwUe (n : Nat) (s : State) : Res :=
  run (n < 64) s fun s =>
    match (s.engine n).op with
    | some o => match o.rmw with
      | some cw => endUe n o cw s
      | none => s
    | none => s

/-- The tallies an operation with KEEP leaves resident: slot n × M_T + m, its 1,024 elements (R98). -/
def keepStore (m : MF) (rows : List TRow) : Tbl Tally :=
  rows.foldl (fun t r => (r.ts.zipIdx).foldl (fun t (x, j) =>
    tput {} t ((r.n * m.mt + r.row / 32) * 1024 + r.row % 32 * 32 + j) x) t) []

/-- The cycles an operation takes at the least, where nothing has gone wrong (R102, R103, R106): the spec's counts for operands in the
engine's own lode. -/
def leastCycles (m : MF) (o : EngOp) : Nat :=
  if o.status = stOk ∨ o.status = stTallyRange then
    match m.op with
    | 1 | 2 => mmCycles m o.groups
    | 3 => scanCycles m
    | 4 => transCycles m
    | _ => 0
  else 0

/-- The completion record of R107. -/
def modRecord (n : Nat) (o : EngOp) (cycles now : Nat) : Bytes :=
  fit 32 (leBytes 2 o.status ++ leBytes 1 (fld o.mod.bytes 0 1) ++ leBytes 1 n ++ leBytes 4 (min o.inexact 0xFFFFFFFF)
    ++ leBytes 4 (min o.zero 0xFFFFFFFF) ++ leBytes 4 (min cycles 0xFFFFFFFF) ++ leBytes 8 now ++ leBytes 4 o.fault ++ leBytes 1 o.arith)

/-- Count an ended descriptor of a chain: a failure discards the rest of it, and it replies when its last has completed OK, or when
nothing of it is in execution any more (R109, R212). A chain of the same unit may then offer (R200). (DESIGN CHOICE, log entry 103.) -/
def chainStep (ch : Option (Nat × Nat)) (st shape : Nat) (s : State) : State :=
  match ch with
  | none => s
  | some (id, i) =>
    match s.chains.find? (·.id == id) with
    | none => s
    | some c =>
      let s := modChainBy id (fun c => { c with ended := c.ended + 1 }) s
      let s := if st = stOk then s else dropQueued c (stopChain id st i shape s)
      offerChains c.moves c.unit (settleChain id s)

/-- Set ME[n].ERR for an ended operation: OP_FAIL, UNCORR and DENIED feed error reporting (R110). UNCORR stands for every UNCORRECTABLE
end. (DEDUCED, log entry 104.) -/
def engErr (n st : Nat) (s : State) : State :=
  if st = stOk then s
  else
    let t := lodeOwner s (n / 2)
    let m := 1 + (if st = stUncorr then 4 else 0) + if st = stDenied then 8 else 0
    let s := if st = stBadOpcode ∨ st = stReserved ∨ st = stInvalid then s.orReg .meErr n 0 2 else s
    sticky (if t = 0 then none else some (t - 1)) .meErr n 0 m s

/-- Whether the operation has nothing left to do but complete. -/
def opDone (e : Eng) (o : EngOp) : Bool :=
  let m := modFields o.mod.bytes
  o.ue.isNone && o.rmw.isNone &&
    (decide (o.status ≠ stOk ∧ o.status ≠ stTallyRange) || !(m.op == 1 || m.op == 2) || m.isKeep || e.phase == .draining)

/-- The engine after an operation: idle, with what the operation leaves resident (R98). (DEDUCED, log entry 8.) -/
def engAfter (o : EngOp) (e : Eng) : Eng :=
  let m := modFields o.mod.bytes
  let e := if o.refused then e
    else if m.op = 1 ∧ m.isKeep ∧ o.status = stOk then { e with shape := some (m.mt, m.nt), store := keepStore m o.rows }
    else if o.status ≠ stOk ∨ m.op = 1 ∨ m.op = 2 then { e with shape := none, store := [] } else e
  { e with phase := .idle, op := none }

/-- The registers of a completed operation (R108, R110): LAST_STS, LAST_INEXACT, LAST_ZERO, OPS_DONE and BUSY. -/
def engRegs (n : Nat) (o : EngOp) (cycles : Nat) (s : State) : State :=
  let s := (s.setReg .meLastSts n 0 (o.status + (modFields o.mod.bytes).op * 65536)).setReg .meLastInexact n 0 (min o.inexact 0xFFFFFFFF)
  let s := s.setReg .meLastZero n 0 (min o.zero 0xFFFFFFFF)
  (s.count .meOpsDone n 0 1).count .meBusy n 0 cycles

/-- The completion record, where one is written (R107, R108). -/
def engRecord (n : Nat) (o : EngOp) (cycles : Nat) (s : State) : State :=
  match o.recAt with
  | some a => (writeMem s (strataBase + a) (modRecord n o cycles s.now)).1
  | none => s

/-- The operation completes: its record, its registers, then its signal, then its chain (R98, R108, R109). -/
def completeOp (n : Nat) (o : EngOp) (cycles : Nat) (s : State) : State :=
  let shape := match (s.engine n).shape with | some (a, b) => a + b * 65536 | none => 0
  let s := engRegs n o cycles (engErr n o.status (engRecord n o cycles (s.setEngine n (engAfter o (s.engine n)))))
  let s := match o.sig with
    | some (x, v) => sendSig (0x300 + n) (ownTen (lodeOwner s (n / 2))) x v none s
    | none => s
  holdReplies (chainStep o.mod.chain o.status (if o.status = stConflict then shape else 0)
    (lodeTrace (n / 2) 3 n o.status (min cycles 0xFFFFFFFF) s))

/-- The operation completes after its last writes (R98, R108). `cycles` is what the operation took from acceptance; no fewer than the
spec's count. (DESIGN CHOICE, log entry 98.) -/
def execEngineOpComplete (n cycles : Nat) (s : State) : Res :=
  run (n < 64) s fun s =>
    match (s.engine n).op with
    | none => s
    | some o =>
      if !opDone (s.engine n) o || cycles < leastCycles (modFields o.mod.bytes) o then s
      else
        match writePieces s o.writes with
        | (s, some a) => s.setEngine n { s.engine n with op := some { o with writes := [], rmw := some (a - strataBase) } }
        | (s, none) => completeOp n o cycles s

/-! ### Register writes of their own (R98, R110) -/

/-- A write of ME[n].CTRL: QUIESCE holds or resumes the engine, a 1 in DROP_RESIDENT ends the resident state, but not the tallies that an
operation with CONT in execution took at its acceptance. (DESIGN CHOICE, log entry 113.) -/
def meCtrlWrite (who n val : Nat) (s : State) : State :=
  instWrite who (lodeOwner s (n / 2)) (fun s =>
    let s := s.setField .meCtrl n 0 0 0 val
    holdReplies (if bit val 1 then s.setEngine n { s.engine n with shape := none, store := [] } else s)) s

def execQuiesceWrite (who n : Nat) (val : Word) (s : State) : Res :=
  run (who < 19 && n < 64) s (meCtrlWrite who n val.toNat)

def execDropResident (who n : Nat) (val : Word) (s : State) : Res :=
  run (who < 19 && n < 64) s (onlyIf (val.getLsbD 1) (meCtrlWrite who n val.toNat))

end Sys2Proof.Machine
end

