-- ==== Sys2Proof/Machine/Mover.lean ====
section
/-! DEFINITION. Writes by device address, and the movers (R149, R150, R169 to R172). -/
namespace Sys2Proof.Machine

open Sys2Proof

/-! ### Writes by device address, instruction memory included (R149, R150) -/

/-- Why a write by device address stopped. -/
inductive WErr where
  | ue (a : Nat) | running
  deriving DecidableEq, Repr

/-- The state code of a core (R152). -/
def coreCode (s : State) (k : Nat) : Nat :=
  match (s.core k).st with | .halted => 0 | .running => 1 | .held => 2 | .faulted => 3

/-- Whether a core's instruction memory may be written (R150). -/
def imemOpen (s : State) (k : Nat) : Bool := (s.core k).st == .halted || (s.core k).st == .faulted

/-- Writes to instruction memory, codeword by codeword: a refused one sets ERR.IMEM_RUN (R150). -/
def imemWrites : List (Nat × Bytes) → State → State × Option WErr
  | [], s => (s, none)
  | (a, bs) :: t, s =>
    let k := (a - imemBase) / 0x10000
    if imemOpen s k then
      match cwWrite s a bs with
      | (s, none) => imemWrites t s
      | (s, some e) => (s, some (.ue e))
    else (s.orReg .bcErr k 0 4, some .running)

/-- Write bytes at a device address. -/
def devWrite (a : Nat) (bs : Bytes) (s : State) : State × Option WErr :=
  match (place s a).1 with
  | .imem _ => imemWrites (cwSplit (bs.length + 1) a bs) s
  | _ => match writeMem s a bs with
    | (s, none) => (s, none)
    | (s, some e) => (s, some (.ue e))

/-- Write the bytes of one line whole or not at all (R171, R172). -/
def lineWrite (a : Nat) (bs : Bytes) (s : State) : State × Option WErr :=
  let bad := (cwSplit (bs.length + 1) a bs).find? fun (p, b) => b.length < 32 && unreadable s (p / 32)
  match (place s a).1, bad with
  | .imem k, some (p, _) => if imemOpen s k then ((cwReadAs 4 s (p / 32)).1, some (.ue (p / 32 * 32))) else devWrite a bs s
  | _, some (p, _) => ((cwReadAs 4 s (p / 32)).1, some (.ue (p / 32 * 32)))
  | _, none => devWrite a bs s

/-! ### Descriptors (R170, R171) -/

structure MvF where
  op    : Nat
  flags : Nat
  rows  : Nat
  len   : Nat
  src   : Nat
  dst   : Nat
  ss    : Nat
  ds    : Nat
  pat   : Nat
  sync  : Nat
  compl : Nat
  deriving DecidableEq, Repr

def mvFields (d : Bytes) : MvF :=
  { op := fld d 0 1, flags := fld d 1 1, rows := fld d 4 4, len := fld d 8 4, src := fld d 12 8, dst := fld d 20 8, ss := fld d 28 4,
    ds := fld d 32 4, pat := fld d 36 4, sync := fld d 40 4, compl := fld d 44 4 }

def MvF.isFence (m : MvF) : Bool := bit m.flags 0
def MvF.isRec (m : MvF) : Bool := bit m.flags 1

/-- Check 2 of R171: reserved and unused fields are zero. -/
def mvReservedOk (d : Bytes) (m : MvF) : Bool :=
  let cp := m.op == 1
  let mv := cp || m.op == 2
  m.flags >>> 2 == 0 && fld d 2 2 == 0 && allZero (slice d 48 16) && m.src >>> 52 == 0 && m.dst >>> 52 == 0
    && (mv || (m.rows == 0 && m.len == 0 && m.dst == 0 && m.ds == 0)) && (cp || (m.src == 0 && m.ss == 0))
    && (m.op == 2 || m.pat == 0) && (m.isRec || m.compl == 0) && (bits m.sync 31 24 != 0 || m.sync == 0)

/-- The strided extents of a move (R170). -/
def MvF.srcExt (m : MvF) : Ext := ⟨12, m.src, m.ss, m.rows, m.len⟩
def MvF.dstExt (m : MvF) : Ext := ⟨20, m.dst, m.ds, m.rows, m.len⟩

/-- The ranges a move may touch (R170). -/
def mvRange (s : State) (a : Nat) : Bool :=
  match (place s a).1 with
  | .hbm | .lpx | .strata _ | .imem _ => true
  | _ => false

/-- Every row of a strided extent lies in the ranges a move may touch: each range is wider than a row, and no two adjoin. -/
def mvRowsIn (s : State) (x : Ext) : Bool :=
  (mvRange s x.base && decide (x.base + span x.rows x.step x.len ≤ rangeEnd s x.base))
    || (List.range x.rows).all fun i => let a := x.base + i * x.step; mvRange s a && decide (a + x.len ≤ rangeEnd s a)

/-- Check 3 of R171. -/
def mvLegal (s : State) (m : MvF) : Bool :=
  (m.op == 0 ||
    (decide (1 ≤ m.rows ∧ m.rows ≤ 1048576 ∧ 1 ≤ m.len ∧ m.len ≤ 16777216) && (m.rows == 1 || decide (m.len ≤ m.ds))
      && mvRowsIn s m.dstExt
      && (m.op == 2 || ((m.rows == 1 || decide (m.len ≤ m.ss)) && mvRowsIn s m.srcExt
        && !m.srcExt.hits m.dstExt))))
    && (!m.isRec || (m.compl % 16 == 0 && decide (m.compl < 2 ^ 29)))

/-- The device addresses that a descriptor's source, destination and record span. -/
def mvRanges (m : MvF) : List (Nat × Nat) :=
  [(m.src, if m.op = 1 then (m.rows - 1) * m.ss + m.len else 0), (m.dst, if m.op = 0 then 0 else (m.rows - 1) * m.ds + m.len),
   (strataBase + m.compl, if m.isRec then 16 else 0)]

/-- Check 4 of R171. -/
def mvGranted (s : State) (r : Requester) (m : MvF) : Bool :=
  (m.op == 0 || permitsRows s r m.dst m.ds m.rows m.len true)
    && (m.op != 1 || permitsRows s r m.src m.ss m.rows m.len false)
    && (!m.isRec || strataGranted s r m.compl 16 true)

/-- Bytes written per line, row by row and in address order within a row, until one cannot be read or written. A line of a row
ends where the destination's 64-byte line ends. -/
structure MvR where
  n    : Nat := 0
  stop : Option (Nat × Option Nat) := none
  deriving DecidableEq, Repr

/-- The bytes of a row from offset o: read from the source, or the pattern (R170). -/
def mvData (m : MvF) (row o k : Nat) (s : State) : State × Except Nat Bytes :=
  if m.op = 1 then readMem s (m.src + row * m.ss + o) k
  else (s, .ok ((List.range k).map fun i => BitVec.ofNat 8 (m.pat >>> (8 * ((o + i) % 4)))))

/-- Move from row `row`, offset `o` on. `stop` holds the status, and the failing codeword of a source read. -/
def mvRun (m : MvF) : Nat → Nat → Nat → Nat → State → State × MvR
  | 0, _, _, n, s => (s, { n := n })
  | f + 1, row, o, n, s =>
    if m.rows ≤ row then (s, { n := n })
    else if m.len ≤ o then mvRun m f (row + 1) 0 n s
    else
      let a := m.dst + row * m.ds + o
      let k := min (m.len - o) (64 - a % 64)
      match mvData m row o k s with
      | (s, .error cw) => (s, { n := n, stop := some (stUncorr, some cw) })
      | (s, .ok bs) =>
        match lineWrite a bs s with
        | (s, none) => mvRun m f row (o + k) (n + k) s
        | (s, some .running) => (s, { n := n, stop := some (stConflict, none) })
        | (s, some (.ue _)) => (s, { n := n, stop := some (stUncorr, none) })

/-! ### The queue and dispatch (R169) -/

def moverReq (s : State) (n m : Nat) : Requester := ownReq (lodeOwner s n) (0x400 + 4 * n + m)

def mover (s : State) (n m : Nat) : Option MoveOp := tget none (s.lode n).movers m
def setMover (n m : Nat) (o : Option MoveOp) (s : State) : State :=
  let l := s.lode n
  s.setLode n { l with movers := tput none l.movers m o }

/-- The lode's control core offers a move descriptor, while it runs and none of its own waits (R169). (DESIGN CHOICE, log entry 23.) -/
def ctlMove (n : Nat) (d : Option Bytes) (s : State) : State :=
  let l := s.lode n
  match d with
  | some b => if (s.fwp n).st = .running ∧ l.offers.all (fun m => m.issuer != .ctl) then
      s.setLode n { l with offers := l.offers ++ [⟨fit 64 b, .ctl, none⟩] } else s
  | none => s

/-- The first waiting offer enters the mover queue where it has room (R169). (DESIGN CHOICE, log entry 105.) -/
def moveIn (n : Nat) (s : State) : State :=
  let l := s.lode n
  match l.offers with
  | [] => s
  | d :: rest =>
    if l.queue.length < 16 then
      let s := s.setLode n { l with offers := rest, queue := l.queue ++ [d] }
      match d.issuer with
      | .core k => offerTaken k true s
      | .fn _ => offerChains true n s
      | .ctl => s
    else s

/-- One cycle's enqueues at a mover queue: the control core's offer joins those that wait, and the first enters. -/
def execMoveEnqueue (q : Enqueue) (s : State) : Res :=
  run (q.unit < 32) s fun s => moveIn q.unit (ctlMove q.unit q.ctl s)

/-- The lowest-numbered free mover. -/
def freeMover (s : State) (n : Nat) : Option Nat := (List.range 4).find? fun m => (mover s n m).isNone

/-- The translation of the SYNC field of a move (R170). -/
def mvXl (s : State) (n : Nat) (d : Move) : Option Xl := syncXl s (lodeOwner s n) (issuerCtx s d.issuer) (mvFields d.bytes).sync

/-- The head entry leaves the queue; an uncorrectable translation word sets SYNC.ERR. -/
def takeMove (n : Nat) (d : Move) (rest : List Move) (s : State) : State :=
  let y := mvXl s n d
  let s := if y = some .ue then s.orReg .syncErr 0 0 0x10 else s
  s.setLode n { s.lode n with queue := rest, seq := (s.lode n).seq + 1 }

/-- A dispatched move in mover `m`: its place in dispatch order, where its signal goes, whether its record may be written. -/
def moveOpOf (n m seq : Nat) (d : Move) (y : Option Xl) (s : State) : MoveOp :=
  let x := mvFields d.bytes
  { mv := d, seq := seq, sig := sigPlace y x.sync
    recOk := x.isRec && x.compl % 16 == 0 && decide (x.compl < 2 ^ 29) && strataGranted s (moverReq s n m) x.compl 16 true }

/-- The checks of a move in order (R171): the status of the first that fails, and whether it is a refused access. -/
def mvCheck (s : State) (n m : Nat) (d : Move) (y : Option Xl) : Option (Nat × Bool) :=
  let x := mvFields d.bytes
  if 2 < x.op then some (stBadOpcode, false)
  else if !mvReservedOk d.bytes x then some (stReserved, false)
  else if !mvLegal s x then some (stInvalid, false)
  else if !mvGranted s (moverReq s n m) x then some (refusedOf s (moverReq s n m) (mvRanges x), true)
  else if y = some .ue then some (stUncorr, false)
  else if !xlOk y then some (stDenied, false)
  else none

/-- Move the bytes of a COPY or FILL: every row in order, stopping at a byte that cannot be read or written (R171). -/
def runMove (n m : Nat) (o : MoveOp) (s : State) : State :=
  let x := mvFields o.mv.bytes
  let (s, w) := mvRun x (x.rows * (x.len / 64 + 3)) 0 0 0 s
  match w.stop with
  | none => setMover n m (some { o with bytes := w.n }) s
  | some (_, some cw) => setMover n m (some { o with bytes := w.n, ue := some cw }) s
  | some (st, none) => setMover n m (some { o with bytes := w.n, status := st }) s

/-- Whether the head entry may be dispatched: the fence it asks for, no hold, a clocked lode, and no memory it waits for (R168, R169,
R487). -/
def mvReady (s : State) (n : Nat) (x : MvF) : Bool :=
  (!x.isFence || (List.range 4).all fun i => (mover s n i).isNone) && !lodeHold s n && awake s n && tget 0 s.own.zeroing n == 0

/-- A move waits for memory that it touches (R168, R297, R311, R487, R488). -/
def mvWaits (s : State) (x : MvF) : Bool := x.op != 0 && (rowsWait s x.dstExt || (x.op == 1 && rowsWait s x.srcExt))

/-- Dispatch the head entry where its operation is the row's, check it and move (R169, R171). -/
def dispatchMove (n : Nat) (mine : Nat → Bool) (s : State) : State :=
  match (s.lode n).queue, freeMover s n with
  | d :: rest, some m =>
    let x := mvFields d.bytes
    if mine x.op && mvReady s n x && !mvWaits s x then
      let y := mvXl s n d
      let seq := (s.lode n).seq
      let s := takeMove n d rest s
      let o := moveOpOf n m seq d y s
      match mvCheck s n m d y with
      | some (st, deny) => setMover n m (some { o with status := st }) (if deny then refuseOf s (moverReq s n m) (mvRanges x) else s)
      | none => if x.op = 0 then setMover n m (some o) s else runMove n m o s
    else if mine x.op && mvWaits s x then (if x.op = 1 then wakeRows x.srcExt (wakeRows x.dstExt s) else wakeRows x.dstExt s)
    else s
  | _, _ => s

/-- NOP, and every undefined OP, which completes with BAD_OPCODE (R171). -/
def execMoveNop (n : Nat) (s : State) : Res := run (n < 32) s (dispatchMove n fun op => op == 0 || decide (2 < op))
def execMoveCopy (n : Nat) (s : State) : Res := run (n < 32) s (dispatchMove n (· == 1))
def execMoveFill (n : Nat) (s : State) : Res := run (n < 32) s (dispatchMove n (· == 2))

/-- The uncorrectable source read of a move ends it with UNCORRECTABLE; lines already written stay (R171). -/
def execMoveSourceUe (n m : Nat) (s : State) : Res :=
  run (n < 32 && m < 4) s fun s =>
    match mover s n m with
    | some o => if o.ue.isSome then setMover n m (some { o with status := stUncorr, ue := none }) s else s
    | none => s

/-- LODE[n].MV_ERR (R172, R182). -/
def mvErr (n st : Nat) (s : State) : State :=
  let t := lodeOwner s n
  let m := if st = stBadOpcode ∨ st = stReserved ∨ st = stInvalid then 1 else if st = stDenied then 2 else if st = stUncorr then 4 else 0
  sticky (if t = 0 then none else some (t - 1)) .lodeMvErr n 0 m s

/-- The completion record of R172. -/
def mvRecord (n m : Nat) (o : MoveOp) (now : Nat) : Bytes :=
  leBytes 2 o.status ++ leBytes 1 (fld o.mv.bytes 0 1) ++ leBytes 1 (4 * n + m) ++ leBytes 4 (min o.bytes 0xFFFFFFFF) ++ leBytes 8 now

/-- A completed move: its record, MV_ERR, then its signal, then its chain (R172). -/
def completeMove (n m : Nat) (o : MoveOp) (s : State) : State :=
  let s := setMover n m none s
  let s := if o.recOk then (writeMem s (strataBase + (mvFields o.mv.bytes).compl) (mvRecord n m o s.now)).1 else s
  let s := mvErr n o.status s
  let s := match o.sig with
    | some (y, v) => sendSig (0x400 + 4 * n + m) (ownTen (lodeOwner s n)) y v none s
    | none => s
  holdReplies (chainStep o.mv.chain o.status 0 (lodeTrace n 4 (4 * n + m) o.status (min o.bytes 0xFFFFFFFF) s))

/-- A mover completes its descriptor, once a failed source read has been taken. -/
def execMoveComplete (n m : Nat) (s : State) : Res :=
  run (n < 32 && m < 4) s fun s =>
    match mover s n m with
    | none => s
    | some o => if o.ue.isSome then s else completeMove n m o s

end Sys2Proof.Machine
end

