-- ==== Sys2Proof/Machine/Crypto.lean ====
section
/-! DEFINITION. The published standards that the spec names and whose results a rule fixes: SHA3-512 (FIPS 202), AES-256 in GCM (SP 800-38D)
and in XTS (IEEE 1619), for R273, R277, R286, R443, R453, R458 and R460. -/
namespace Sys2Proof.Machine

open Sys2Proof

/-! ### SHA3-512 -/

/-- A lane of 64 bits turned left. -/
def rotl64 (x r : Nat) : Nat := (x <<< r ||| x >>> (64 - r)) % 2 ^ 64

/-- The rotation of lane x + 5y. -/
def rhoOf (i : Nat) : Nat :=
  [0, 1, 62, 28, 27, 36, 44, 6, 55, 20, 3, 10, 43, 25, 39, 41, 45, 15, 21, 8, 18, 2, 61, 56, 14].getD i 0

/-- The round constants. -/
def roundConst : List Nat :=
  [0x0000000000000001, 0x0000000000008082, 0x800000000000808A, 0x8000000080008000, 0x000000000000808B, 0x0000000080000001] ++
  [0x8000000080008081, 0x8000000000008009, 0x000000000000008A, 0x0000000000000088, 0x0000000080008009, 0x000000008000000A] ++
  [0x000000008000808B, 0x800000000000008B, 0x8000000000008089, 0x8000000000008003, 0x8000000000008002, 0x8000000000000080] ++
  [0x000000000000800A, 0x800000008000000A, 0x8000000080008081, 0x8000000000008080, 0x0000000080000001, 0x8000000080008008]

/-- One round on the 25 lanes: theta, rho and pi, chi, iota. (PRESUMED, log entry 96.) -/
def keccakRound (a : List Nat) (rc : Nat) : List Nat :=
  let at_ (l : List Nat) (i : Nat) : Nat := l.getD i 0
  let c := (List.range 5).map fun x => at_ a x ^^^ at_ a (x + 5) ^^^ at_ a (x + 10) ^^^ at_ a (x + 15) ^^^ at_ a (x + 20)
  let d := (List.range 5).map fun x => at_ c ((x + 4) % 5) ^^^ rotl64 (at_ c ((x + 1) % 5)) 1
  let a := a.zipIdx.map fun (v, i) => rotl64 (v ^^^ at_ d (i % 5)) (rhoOf i)
  let b := (List.range 25).map fun i => let (x, y) := (i % 5, i / 5); at_ a ((x + 3 * y) % 5 + 5 * x)
  let a := (List.range 25).map fun i =>
    let r := i / 5 * 5
    at_ b i ^^^ ((2 ^ 64 - 1 - at_ b ((i + 1) % 5 + r)) &&& at_ b ((i + 2) % 5 + r))
  a.modify 0 (· ^^^ rc)

def keccakF (a : List Nat) : List Nat := roundConst.foldl keccakRound a

/-- Absorb blocks of 72 bytes. -/
def absorb : Nat → Bytes → List Nat → List Nat
  | 0, _, a => a
  | f + 1, b, a =>
    if b.isEmpty then a
    else absorb f (b.drop 72) (keccakF (a.zipIdx.map fun (v, i) => if i < 9 then v ^^^ fld b (8 * i) 8 else v))

/-- SHA3-512: 64 bytes. (PRESUMED, log entry 96.) -/
@[irreducible] def sha3 (b : Bytes) : Bytes :=
  let n := 71 - b.length % 72
  let m := b ++ (if n = 0 then leBytes 1 0x86 else leBytes 1 6 ++ zeros (n - 1) ++ leBytes 1 0x80)
  ((absorb (m.length / 72) m (List.replicate 25 0)).take 8).flatMap (leBytes 8)

/-! ### AES-256 -/

/-- Multiplication in GF(2^8) modulo x^8 + x^4 + x^3 + x + 1. -/
def gmul8 : Nat → Nat → Nat → Nat
  | 0, _, _ => 0
  | f + 1, a, b => (if b % 2 = 1 then a else 0) ^^^ gmul8 f (if a < 128 then 2 * a else (2 * a) ^^^ 0x11B) (b / 2)

def mul8 (a b : Nat) : Nat := gmul8 8 a b

/-- The inverse in GF(2^8), 0 for 0: the power 254. -/
def inv8 (x : Nat) : Nat :=
  let x2 := mul8 x x
  let x4 := mul8 x2 x2
  let x8 := mul8 x4 x4
  let x16 := mul8 x8 x8
  let x32 := mul8 x16 x16
  let x64 := mul8 x32 x32
  mul8 (mul8 (mul8 x2 x4) (mul8 x8 x16)) (mul8 (mul8 x32 x64) (mul8 x64 x64))

def rotl8 (x r : Nat) : Nat := (x <<< r ||| x >>> (8 - r)) % 256

/-- The substitution table, by its definition, and its inverse. -/
def subByte (x : Nat) : Nat := let y := inv8 x; y ^^^ rotl8 y 1 ^^^ rotl8 y 2 ^^^ rotl8 y 3 ^^^ rotl8 y 4 ^^^ 0x63
def invSubByte (x : Nat) : Nat := inv8 (rotl8 x 1 ^^^ rotl8 x 3 ^^^ rotl8 x 6 ^^^ 5)

def xorL (a b : List Nat) : List Nat := List.zipWith (· ^^^ ·) a b

/-- The key schedule, four bytes a word: from the last eight words, newest first, `n` more with their numbers from `i` on. -/
def keyWords : Nat → Nat → List (List Nat) → List (List Nat)
  | 0, _, w => w
  | n + 1, i, w =>
    let last := w.headD []
    let t := if i % 8 = 0 then xorL (((last.drop 1) ++ last.take 1).map subByte) [2 ^ (i / 8 - 1), 0, 0, 0]
      else if i % 8 = 4 then last.map subByte else last
    keyWords n (i + 1) (xorL (w.getD 7 []) t :: w)

/-- The 15 round keys of 16 bytes. -/
def roundKeys (key : Bytes) : List (List Nat) :=
  let k := (fit 32 key).map (·.toNat)
  let w := (keyWords 52 8 ((List.range 8).map fun i => (k.drop (4 * i)).take 4).reverse).reverse
  (List.range 15).map fun r => ((w.drop (4 * r)).take 4).flatten

/-- Rows turned left by `k` times their number. -/
def shiftRows (k : Nat) (s : List Nat) : List Nat := (List.range 16).map fun i => s.getD ((i + 4 * k * (i % 4)) % 16) 0

/-- Columns times the circulant of four coefficients. -/
def mixCols (c : List Nat) (s : List Nat) : List Nat :=
  (List.range 16).map fun i =>
    let o := i / 4 * 4
    (List.range 4).foldl (fun a j => a ^^^ mul8 (c.getD ((j + 4 - i % 4) % 4) 0) (s.getD (o + j) 0)) 0

/-- AES on a block of 16 bytes: encryption under round keys. (PRESUMED, log entry 96.) -/
def aesEnc (ks : List (List Nat)) (b : List Nat) : List Nat :=
  let s := ((List.range 13).foldl (fun s r => xorL (mixCols [2, 3, 1, 1] (shiftRows 1 (s.map subByte))) (ks.getD (r + 1) [])) (xorL b (ks.getD 0 [])))
  xorL (shiftRows 1 (s.map subByte)) (ks.getD 14 [])

/-- Its inverse. (PRESUMED, log entry 96.) -/
def aesDec (ks : List (List Nat)) (b : List Nat) : List Nat :=
  let s := ((List.range 13).foldl (fun s r => mixCols [14, 11, 13, 9] (xorL ((shiftRows 3 s).map invSubByte) (ks.getD (13 - r) [])))
    (xorL b (ks.getD 14 [])))
  xorL ((shiftRows 3 s).map invSubByte) (ks.getD 0 [])

def natsOf (b : Bytes) : List Nat := b.map (·.toNat)
def bytesOf (l : List Nat) : Bytes := l.map (BitVec.ofNat 8)

/-- A block of 16 bytes as a number, first byte highest. -/
def blockNat (l : List Nat) : Nat := l.foldl (fun a x => a * 256 + x) 0
def natBlock (n : Nat) : List Nat := (List.range 16).map fun i => n / 256 ^ (15 - i) % 256

/-- Blocks of 16 bytes, the last one short or not. -/
def blocks16 : Nat → List Nat → List (List Nat)
  | 0, _ => []
  | f + 1, l => if l.isEmpty then [] else l.take 16 :: blocks16 f (l.drop 16)

def pad16 (l : List Nat) : List Nat := l ++ List.replicate (16 - l.length) 0

/-! ### GCM -/

/-- Multiplication in the field of GHASH, its bits counted from the top. -/
def gmul128 : Nat → Nat → Nat → Nat → Nat
  | 0, _, _, z => z
  | f + 1, x, v, z =>
    gmul128 f x (if v % 2 = 1 then (v / 2) ^^^ (0xE1 * 2 ^ 120) else v / 2) (if x.testBit f then z ^^^ v else z)

/-- GHASH of blocks under H. -/
def ghash (h : Nat) (bs : List (List Nat)) : Nat := bs.foldl (fun y b => gmul128 128 (y ^^^ blockNat (pad16 b)) h 0) 0

/-- Counter mode from a 96-bit IV: text and ciphertext turn into each other. (PRESUMED, log entry 96.) -/
@[irreducible] def gcmCrypt (key iv text : Bytes) : Bytes :=
  let ks := roundKeys key
  let v := natsOf (fit 12 iv)
  bytesOf ((blocks16 text.length (natsOf text)).zipIdx.flatMap fun (b, i) =>
    xorL b (aesEnc ks (v ++ ((List.range 4).map fun k => (i + 2) / 256 ^ (3 - k) % 256))))

/-- The tag over additional data and ciphertext. (PRESUMED, log entry 96.) -/
@[irreducible] def gcmTag (key iv aad ct : Bytes) : Bytes :=
  let ks := roundKeys key
  let h := blockNat (aesEnc ks (List.replicate 16 0))
  let s := ghash h (blocks16 aad.length (natsOf aad) ++ blocks16 ct.length (natsOf ct) ++ [natBlock (aad.length * 8 * 2 ^ 64 + ct.length * 8)])
  bytesOf (natBlock (s ^^^ blockNat (aesEnc ks (natsOf (fit 12 iv) ++ [0, 0, 0, 1]))))

/-! ### XTS -/

/-- The next tweak: times x, the first byte lowest. -/
def xtsNext (t : Nat) : Nat := let d := 2 * t; if d < 2 ^ 128 then d else (d - 2 ^ 128) ^^^ 0x87

/-- A block under a tweak. -/
def xtsBlock (f : List Nat → List Nat) (t : Nat) (b : List Nat) : List Nat :=
  let w := (List.range 16).map fun i => t / 256 ^ i % 256
  xorL (f (xorL b w)) w

/-- The blocks of a data unit, the last two with ciphertext stealing where the last is short. -/
def xtsBlocks (enc : Bool) (f : List Nat → List Nat) : Nat → List (List Nat) → List Nat
  | _, [] => []
  | t, [a] => xtsBlock f t a
  | t, [a, b] =>
    if b.length = 16 then xtsBlock f t a ++ xtsBlock f (xtsNext t) b
    else
      let (t1, t2) := if enc then (t, xtsNext t) else (xtsNext t, t)
      let x := xtsBlock f t1 a
      xtsBlock f t2 (b ++ x.drop b.length) ++ x.take b.length
  | t, a :: r => xtsBlock f t a ++ xtsBlocks enc f (xtsNext t) r

/-- AES-256-XTS on one data unit. (PRESUMED, log entry 96.) -/
@[irreducible] def xtsUnit (enc : Bool) (key : Bytes) (dun : Nat) (b : Bytes) : Bytes :=
  let k1 := roundKeys (key.take 32)
  let k2 := roundKeys (key.drop 32)
  let t := (aesEnc k2 ((List.range 16).map fun i => dun / 256 ^ i % 256)).reverse.foldl (fun a x => a * 256 + x) 0
  bytesOf (xtsBlocks enc (if enc then aesEnc k1 else aesDec k1) t (blocks16 b.length (natsOf b)))

end Sys2Proof.Machine
end

