-- ==== Sys2Proof/Machine/Strata.lean ====
section
/-! DEFINITION. Strata banks: arbitration, line accesses and scrubbing (R156 to R167, R173). -/
namespace Sys2Proof.Machine

open Sys2Proof

/-- The bank of a line (R157). -/
def bankOf (line : Nat) : Nat := (line + 13 * (line / 48)) % 48

/-- The sources of a class at a lode's banks (R159): two write ports; the load and store channels of eight cores, core by core; two read
ports of each engine; four movers; of remote requests the lodes by number, then the ID (32) and the control core (33); the scrubber.
(DESIGN CHOICE, log entry 108.) -/
def classSources (cls : Nat) : Nat := [0, 2, 16, 4, 4, 34, 1].getD cls 0

/-- Whether a source is of a running group that a lode belongs to (R173): the lode's own cores, engines and movers, and other members. -/
def insideGroup (g : Grp) (cls src : Nat) : Bool :=
  decide (1 ≤ cls ∧ cls ≤ 4) || (cls == 5 && g.members.contains src)

/-- The slot rule of R173: in a running group's cycles with GCYC mod 8 = 7 only requesters outside the group, in the others only
its own. -/
def slotAdmits (s : State) (n cls src : Nat) : Bool :=
  match groupOf s n with
  | some (_, g) => g.st != .running || (insideGroup g cls src != (groupCycles s g % 8 == 7))
  | none => true

/-- The better of two by a key, the first where equal. -/
def bestBy (lt : BankReq → BankReq → Bool) : List BankReq → Option BankReq
  | [] => none
  | x :: t => match bestBy lt t with
    | some y => if lt y x then some y else some x
    | none => some x

/-- Oldest first, then lowest class, then lowest source (R160 step 2). -/
def agedLt (x y : BankReq) : Bool :=
  decide (y.waited < x.waited) || (x.waited == y.waited && (decide (x.cls < y.cls) || (x.cls == y.cls && decide (x.src < y.src))))

/-- Lowest class, then the first source from the class's pointer upward, round to 0 (R160 step 3). -/
def turnLt (ptr : Nat → Nat) (x y : BankReq) : Bool :=
  let late (r : BankReq) : Bool := decide (r.src < ptr r.cls)
  decide (x.cls < y.cls) || (x.cls == y.cls && ((!late x && late y) || (late x == late y && decide (x.src < y.src))))

/-- The request a bank grants in a cycle (R160). -/
def grantOf (s : State) (n bank : Nat) (reqs : List BankReq) : Option BankReq :=
  let rs := reqs.filter fun r => slotAdmits s n r.cls r.src
  match bestBy agedLt (rs.filter fun r => 8 ≤ r.waited) with
  | some r => some r
  | none => bestBy (turnLt fun c => tget 0 (s.lode n).rr (bank * 8 + c)) rs

/-- The device address of a line of a lode (R39). -/
def lineAddr (n line : Nat) : Nat := strataBase + n * 0x1000000 + line * 64

/-- The granted request reaches its line: a read answers it, an uncorrectable line answers nothing (R166), a write stores its
bytes. -/
def lineAccess (n : Nat) (r : BankReq) (s : State) : State :=
  match r.store with
  | none => match readMem s (lineAddr n r.line) 64 with
    | (s, .ok d) => { s with resp := some (leNat d) }
    | (s, .error _) => { s with resp := none }
  | some (o, bs) => if o + bs.length ≤ 64 then (writeMem s (lineAddr n r.line + o) bs).1 else s

/-- The requests that meet in a bank (R157, R159). -/
def bankReqs (bank : Nat) (reqs : List BankReq) : List BankReq :=
  reqs.filter fun r => bankOf r.line == bank && decide (r.line < 262144) && decide (r.src < classSources r.cls)

/-- A write that covers part of a codeword only: it holds its bank for a second cycle (R161). -/
def partialWrite (r : BankReq) : Bool :=
  match r.store with
  | some (o, bs) => o % 32 != 0 || bs.length % 32 != 0
  | none => false

/-- A cycle of a bank: one request is granted, the others wait, counted in STR[n].CONFLICT; in the second cycle of a partial write none is.
The class's pointer advances by one source after a grant (R160, R161). -/
def bankServe (n bank : Nat) (rs : List BankReq) (s : State) : State :=
  let l := s.lode n
  if l.rmw.contains bank then (s.count .strConflict n 0 rs.length).setLode n { l with rmw := l.rmw.filter (· != bank) }
  else match grantOf s n bank rs with
    | none => s.count .strConflict n 0 rs.length
    | some r =>
      let k := bank * 8 + r.cls
      let l := { l with
        rr := tput 0 l.rr k ((tget 0 l.rr k + 1) % classSources r.cls)
        rmw := if partialWrite r then bank :: l.rmw else l.rmw }
      lineAccess n r ((s.count .strConflict n 0 (rs.length - 1)).setLode n l)

/-- One cycle of a bank of a lode that does not zero-fill (R160, R168). -/
def execStrataBankAccess (n bank : Nat) (reqs : List BankReq) (s : State) : Res :=
  run (n < 32 && bank < 48) s fun s => if tget 0 s.own.zeroing n != 0 then s else bankServe n bank (bankReqs bank reqs) s

/-- Rewrite a codeword with its corrected data (R165, R167). -/
def rewrite (cw : Nat) (s : State) : State :=
  match cwSt s cw with
  | .corrected => { s with bad := tdel s.bad cw }
  | .wrong => { s with mem := memWrite s.mem (cw * 32) (memBytes s (cw * 32) 32), bad := tdel s.bad cw }
  | _ => s

/-- The scrubber reads one codeword (R167). -/
def scrubCw (cw : Nat) (s : State) : State :=
  match cwSt s cw with
  | .clean => s
  | .uncorrectable => uncorrectable s cw 8
  | _ => rewrite cw (corrected s cw)

/-- Ticks between two lines of a patrol pass (R167). (DESIGN CHOICE, log entry 93.) -/
def strScrubStep (s : State) (n : Nat) : Nat := bits (s.reg .strScrub n) 7 1 * 1000 * msTicks / 262144

/-- The scrubber reads the next line of a pass. -/
def patrolLine (n : Nat) (s : State) : State :=
  let l := s.lode n
  let cw := (strataBase + n * 0x1000000 + l.scrub * 64) / 32
  let s := s.setLode n { l with scrub := (l.scrub + 1) % 262144, scrubDue := l.scrubDue + strScrubStep s n }
  let s := scrubCw (cw + 1) (scrubCw cw s)
  let l := s.lode n
  s.setLode n { l with wb := l.wb.filter fun x => x != cw && x != cw + 1 }

/-- The scrubber is granted a bank, in a running group in an outside slot only: it performs one queued write-back, else reads the next line
where patrol scrubbing is on and the line is due (R165, R167, R173, R181). -/
def execStrataScrubRead (n : Nat) (s : State) : Res :=
  run (n < 32) s fun s =>
    let l := s.lode n
    if !slotAdmits s n 6 0 || tget 0 s.own.zeroing n != 0 then s
    else match l.wb with
      | cw :: t => rewrite cw (s.setLode n { l with wb := t })
      | [] => if bit (s.reg .strScrub n) 0 && decide (l.scrubDue ≤ s.tb.ticks) then patrolLine n s else s

end Sys2Proof.Machine
end

