-- ==== Sys2Proof/Machine/NetOps.lean ====
section
/-! DEFINITION. The frame path's operations: MACs, parsing, classification, work queues, streams and buckets (R344 to R368). -/
namespace Sys2Proof.Machine

open Sys2Proof

/-! ### MACs (R344, R346) -/

def portMode (s : State) (p : Nat) : Nat := bits (s.reg .ethSts p) 1 0

/-- The MACs that a port's mode uses (R344). -/
def modeMacs (mode p : Nat) : List Nat :=
  match mode with
  | 0 => [4 * p]
  | 1 => [4 * p, 4 * p + 2]
  | _ => [4 * p, 4 * p + 1, 4 * p + 2, 4 * p + 3]

def macUsed (s : State) (m : Nat) : Bool := (modeMacs (portMode s (m / 4)) (m / 4)).contains m

def macOn (s : State) (m : Nat) : Bool := macUsed s m && bit (s.reg .ethCtrl (m / 4)) (m % 4)

/-- The MAC has link. -/
def macUp (s : State) (m : Nat) : Bool := macOn s m && bit (s.reg .ethSts (m / 4)) (2 + m % 4)

def maxFrame (s : State) (p : Nat) : Nat := bits (s.reg .ethCtrl p) 29 16

/-- A MAC's rate in bits per nanosecond (R344). -/
def macRate (s : State) (m : Nat) : Nat :=
  match portMode s (m / 4) with
  | 0 => 800
  | 1 => 400
  | _ => 200

def State.mac (s : State) (m : Nat) : Mac := tget {} s.net.macs m
def State.setMac (s : State) (m : Nat) (x : Mac) : State := { s with net := { s.net with macs := tput {} s.net.macs m x } }
def State.stream (s : State) (st : Nat) : Stream := tget {} s.net.streams st
def State.setStream (s : State) (st : Nat) (x : Stream) : State :=
  { s with net := { s.net with streams := tput {} s.net.streams st x } }

/-! ### Work queues (R358, R404) -/

def State.wq (s : State) (q : Nat) : List WqE := tget [] s.net.wq q
def State.setWq (s : State) (q : Nat) (l : List WqE) : State := { s with net := { s.net with wq := tput [] s.net.wq q l } }

/-- The tenant that a work queue belongs to, its entry size, and how many entries it holds; none for a number without a
queue. -/
def wqOf (q : Nat) : Option (Nat × Nat × Nat) :=
  if q < 128 then some (q / 8, 32, 1024)
  else if q < 256 then some ((q - 128) / 8, 32, 1024)
  else if q < 512 then some ((q - 256) / 16, 64, 32)
  else if q < 768 then some ((q - 512) / 16, 32, 1024)
  else none

/-! ### Reading a frame (R351, R352) -/

def be16 (f : Bytes) (o : Nat) : Nat := beNat (slice f o 2)

def isTag (f : Bytes) (o : Nat) : Bool := be16 f o == 0x8100 || be16 f o == 0x88A8

/-- The number of VLAN tags. -/
def tagCount : Nat → Bytes → Nat → Nat
  | 0, _, _ => 0
  | n + 1, f, o => if isTag f o then 1 + tagCount n f (o + 4) else 0

/-- What the parser reads of a frame: tags, EtherType after them, L3, L4 and P where defined, the IP protocol, the UDP
destination port. -/
structure Parsed where
  tags  : Nat
  etype : Nat
  l3    : Nat
  l4    : Option Nat
  p     : Option Nat
  proto : Option Nat
  dport : Option Nat
  deriving DecidableEq, Repr

def parse (f : Bytes) : Parsed :=
  let t := tagCount 8 f 12
  let et := be16 f (12 + 4 * t)
  let l3 := 14 + 4 * t
  let proto := if et = 0x0800 then some (fld f (l3 + 9) 1) else if et = 0x86DD then some (fld f (l3 + 6) 1) else none
  let l4 := if et = 0x0800 then some (l3 + 20) else if et = 0x86DD then some (l3 + 40) else none
  let udp := proto == some 17
  { tags := t, etype := et, l3 := l3, l4 := l4, p := l4.map (· + if udp then 8 else 0), proto := proto
    dport := if udp then l4.map fun o => be16 f (o + 2) else none }

/-- Causes 0x01 to 0x04 of R352. -/
def earlyCause (f : Bytes) (x : Parsed) : Option Nat :=
  if 2 < x.tags then some 1
  else if x.etype = 0x0800 ∧ be16 f (x.l3 + 6) % 0x4000 ≠ 0 then some 2
  else if x.etype = 0x0800 ∧ fld f x.l3 1 % 16 ≠ 5 then some 3
  else if x.etype = 0x86DD ∧ [0, 43, 44, 50, 51, 60, 135, 139, 140, 253, 254].contains (fld f (x.l3 + 6) 1) then some 4
  else none

/-- A profile matches (R353). -/
def profileHits (s : State) (x : Parsed) (i : Nat) : Bool :=
  let w := s.reg .prsProfile0 0 i
  bit w 27 && (!bit w 24 || x.etype == bits w 15 0) && (!bit w 25 || x.proto == some (bits w 23 16))
    && (!bit w 26 || x.dport == some (s.reg .prsProfile1 0 i % 65536))

def profileOf (s : State) (x : Parsed) : Option Nat := (List.range 64).find? (profileHits s x)

/-- Field i of a profile: offset, base, width code (R370). -/
def profField (s : State) (prof i : Nat) : Nat × Nat × Nat :=
  let v := bits (s.reg .prsProfileF 0 prof) (16 * i + 15) (16 * i)
  (bits v 9 0, bits v 11 10, bits v 13 12)

def baseOf (x : Parsed) : Nat → Option Nat
  | 0 => some 0
  | 1 => some x.l3
  | 2 => x.l4
  | _ => x.p

/-- The extracted fields: none for an unused one; no list where one lies beyond the frame or uses an undefined base
(R352 cause 0x06, R353). -/
def extract (s : State) (f : Bytes) (x : Parsed) (prof : Nat) : Option (List (Option Nat)) :=
  (List.range 16).foldr (fun i acc =>
    match acc with
    | none => none
    | some l =>
      let (o, b, w) := profField s prof i
      if w = 3 then some (none :: l)
      else match baseOf x b with
        | none => none
        | some a => if a + o + 2 ^ w ≤ f.length then some (some (beNat (slice f (a + o) (2 ^ w))) :: l) else none) (some [])

/-- A pattern entry matches a run of bytes at its start (R356). -/
def patAt (pat bs : Bytes) : Bool :=
  let n := fld pat 0 1
  decide (n ≤ bs.length) && (List.range n).all fun i => !bit (fld pat 4 4) i || bs.getD i 0 == pat.getD (16 + i) 0

/-- A pattern is found: at a position that starts within the first 4,096 bytes from P (R356). -/
def patFound (pat f : Bytes) (x : Parsed) : Bool :=
  match x.p with
  | none => false
  | some p => let b := f.drop p; (List.range (min 4096 b.length)).any fun i => patAt pat (b.drop i)

/-- A rule matches a frame of a MAC with a profile and its fields (R354). -/
def ruleHits (rs : RuleSet) (rule f : Bytes) (x : Parsed) (mac prof : Nat) (fs : List (Option Nat)) : Bool :=
  let pat := fld rule 6 1
  fld rule 0 1 == prof && bit (fld rule 1 1) (mac / 4)
    && ((List.range (fld rule 3 1)).all fun i =>
      match fs.getD (bits (fld rule 8 4) (4 * i + 3) (4 * i)) none with
      | some v => (v ^^^ fld rule (16 + 8 * i) 4) &&& fld rule (20 + 8 * i) 4 == 0
      | none => false)
    && (pat == 0xFF || patFound (tget [] rs.pats pat) f x == (fld rule 7 1 == 1))

/-- The tenant's current rule set (R355). -/
def ruleSet (s : State) (t : Nat) : RuleSet :=
  match s.net.sets.find? fun r => r.tenant == t && r.until_.isNone with
  | some r => r
  | none => ⟨t, 0, [], 0, [], none⟩

/-- A tenant's rule set at a version, under which the frames that entered at it are treated (R355). -/
def ruleSetAt (s : State) (t v : Nat) : RuleSet :=
  match s.net.sets.find? fun r => r.tenant == t && decide (r.version ≤ v) && (match r.until_ with | some u => decide (v < u) | none => true) with
  | some r => r
  | none => ⟨t, 0, [], 0, [], none⟩

/-- The tenant that the tenant map gives a frame (R349). -/
def mapTenant (s : State) (m : Nat) (f : Bytes) : Option Nat :=
  let v := if isTag f 12 then s.reg .prsTmap 0 (be16 f 14 % 4096) else s.reg .prsUntagged 0 m
  if bit v 4 then some (v % 16) else none

/-- The verdict on a frame entering a pipeline now (R350 to R354), with its profile. -/
def judge (s : State) (t mac : Nat) (f : Bytes) : Nat × Verdict :=
  let x := parse f
  match earlyCause f x with
  | some c => (0xFF, .slow c 0xFFFF)
  | none =>
    match profileOf s x with
    | none => (0xFF, .slow 5 0xFFFF)
    | some prof =>
      match extract s f x prof with
      | none => (prof, .slow 6 0xFFFF)
      | some fs =>
        let rs := ruleSet s t
        match (rs.rules.zipIdx).find? fun (r, _) => ruleHits rs r f x mac prof fs with
        | none => (prof, .noMatch)
        | some (r, i) =>
          match fld r 2 1 with
          | 0 => (prof, .drop)
          | 1 => (prof, .queue (fld r 4 2) i)
          | 2 => match x.p with
            | none => (prof, .slow 6 i)
            | some p => if f.length - p > 4096 then (prof, .slow 7 i) else (prof, .stream (fld r 4 2) i)
          | _ => (prof, .slow 8 i)

/-- The stream of a frame that cause 0x07 sends to the slow path. -/
def longStream (s : State) (f : Frame) (i : Nat) : Nat := fld ((ruleSetAt s f.tenant f.version).rules.getD i []) 4 2

/-! ### Sources on more than one MAC (R357) -/

/-- The MACs of a PORTS mask. -/
def maskMacs (s : State) (mask : Nat) : Nat :=
  ((List.range 8).map fun p => if bit mask p then (modeMacs (portMode s p) p).length else 0).sum

/-- The PORTS of every rule of a set that delivers to a queue (action 1) or stream (action 2). -/
def srcMask (rules : List Bytes) (act arg : Nat) : Nat :=
  rules.foldl (fun m r => if fld r 2 1 = act ∧ fld r 4 2 = arg then m ||| fld r 1 1 else m) 0

/-- The masks of a rule set's destinations: its slow path, and each queue and stream its rules deliver to. -/
def destMasks (rules : List Bytes) (slow : Nat) : List Nat :=
  slow :: (rules.filter fun r => fld r 2 1 == 1 || fld r 2 1 == 2).map fun r => srcMask rules (fld r 2 1) (fld r 4 2)

/-- A rule set gives some queue, stream or the slow path sources on more than one MAC. -/
def rulesMulti (s : State) (rules : List Bytes) (slow : Nat) : Bool :=
  (destMasks rules slow).any fun m => decide (1 < maskMacs s m)

def streamMulti (s : State) (st : Nat) : Bool :=
  match (s.stream st).owner with
  | some t => decide (1 < maskMacs s (srcMask (ruleSet s t).rules 2 st))
  | none => false

/-- A receive or slow-path work queue has sources on more than one MAC. -/
def rxMulti (s : State) (q : Nat) : Bool :=
  let rs := ruleSet s (q / 8)
  decide (1 < maskMacs s (if q % 8 = 0 then rs.slow else srcMask rs.rules 1 (q % 8)))

/-! ### The ingress buffer (R347, R349) -/

/-- A class's share of the ingress buffer: 4 MiB over the port's MACs and eight classes. -/
def classShare (s : State) (m : Nat) : Nat := 4194304 / (modeMacs (portMode s (m / 4)) (m / 4)).length / 8

/-- A frame still occupies the ingress buffer: not handed over, or waiting for its stream (R363). -/
def inBuffer (f : Frame) : Bool :=
  !f.piped || match f.verdict with | .stream _ _ => true | _ => false

def occupancy (s : State) (m c : Nat) : Nat :=
  ((s.net.frames.filter fun f => f.mac == m && f.cls == c && inBuffer f).map (·.bytes.length)).sum

/-- Send a PFC pause above 75 % of the share, a resume below 50 % (R347). -/
def pfc (m c : Nat) (s : State) : State :=
  let x := s.mac m
  let o := occupancy s m c
  let sh := classShare s m
  if tget false x.paused c then
    if 2 * o < sh then send (.pause m c false) (s.setMac m { x with paused := tput false x.paused c false }) else s
  else if 4 * o > 3 * sh ∧ bit (s.reg .ethCtrl (m / 4)) (8 + c) then
    send (.pause m c true) (s.setMac m { x with paused := tput false x.paused c true })
  else s

/-- The class of a frame: the priority of its outer tag, else 0 (R345). -/
def frameClass (f : Bytes) : Nat := if isTag f 12 then be16 f 14 / 8192 else 0

def State.policer (s : State) (t : Nat) : Policer := tget {} s.net.policers t
def State.setPolicer (s : State) (t : Nat) (x : Policer) : State :=
  { s with net := { s.net with policers := tput {} s.net.policers t x } }

/-- Colour a frame by RFC 2698 (R349): 0 green, 1 yellow, 2 red. -/
def police (t : Nat) (f : Bytes) (s : State) : State × Nat :=
  let x := s.policer t
  if x.c.rate = 0 ∧ x.p.rate = 0 then (s, 0)
  else
    let n : Int := f.length * 1000000
    let yellow := x.aware && isTag f 12 && bit (be16 f 14) 12
    if x.p.level < n then (s, 2)
    else if yellow || decide (x.c.level < n) then (s.setPolicer t { x with p := { x.p with level := x.p.level - n } }, 1)
    else (s.setPolicer t { x with p := { x.p with level := x.p.level - n }, c := { x.c with level := x.c.level - n } }, 0)

/-- One refill of a bucket: its gain up to its burst, then new values, which clamp it. `free`: rate 0 is no limit, and the bucket
is then full. -/
def refill (unit : Nat) (free : Bool) (b : Bucket) : Bucket :=
  let cap (n : Nat) (l : Int) : Int := if l > (n * unit : Nat) then (n * unit : Nat) else l
  let l := if free && b.rate == 0 then ((b.burst * unit : Nat) : Int) else cap b.burst (b.level + b.rate)
  match b.next with
  | some (r, n) => { level := cap n l, rate := r, burst := n }
  | none => { b with level := l }

/-! ### Streams (R362, R363) -/

/-- The length of the longest suffix of `bs`, shorter than LEN, that matches a prefix of the pattern under CARE. -/
def partialLen (pat bs : Bytes) : Nat :=
  let n := fld pat 0 1
  let ok (k : Nat) : Bool := k ≤ bs.length && (List.range k).all fun i => !bit (fld pat 4 4) i || (bs.drop (bs.length - k)).getD i 0 == pat.getD (16 + i) 0
  (List.range n).foldl (fun best k => if ok k then k else best) 0

/-- Run the matcher over bytes: the new tail and the records completed. -/
def matchRun (pat : Bytes) : Bytes → Bytes → Nat → Bytes × Nat
  | tail, [], n => (tail, n)
  | tail, b :: t, n =>
    let w := tail ++ [b]
    let full := decide (fld pat 0 1 ≤ w.length) && patAt pat (w.drop (w.length - fld pat 0 1))
    let k := partialLen pat w
    matchRun pat (w.drop (w.length - k)) t (if full then n + 1 else n)

/-- Bytes of a ring at stream offset x, cut where the ring wraps. -/
def ringWrite (dst size x : Nat) (bs : Bytes) (s : State) : State :=
  let o := x % size
  let k := size - o
  let s := (writeMem s (dst + o) (bs.take k)).1
  if bs.length ≤ k then s else (writeMem s dst (bs.drop k)).1

/-- A stream's error bits feed error reporting (R370). -/
def strmErrSet (st m : Nat) (s : State) : State := sticky (s.stream st).owner .strmErr 0 st m s

def strmDrop (st : Nat) (s : State) : State := s.count .strmDrops 0 st 1

/-- A released frame that waits for room in a stream's ring (R362). -/
def frameWaits (st : Nat) (f : Frame) : Bool := f.waiting && match f.verdict with | .stream x _ => x == st | _ => false

/-- Frames waiting for a stream are dropped and counted, as frames for a closed stream, and leave the ingress buffer (R347, R364). -/
def dropWaiting (st : Nat) (s : State) : State :=
  let mine := s.net.frames.filter (frameWaits st)
  let s := s.count .strmDrops 0 st mine.length
  mine.foldl (fun s f => pfc f.mac f.cls s) { s with net := { s.net with frames := s.net.frames.filter fun f => !frameWaits st f } }

/-- A stream closes: its position stays as the resume position (R364). -/
def closeStream (st : Nat) (s : State) : State :=
  dropWaiting st (s.setStream st { s.stream st with isOpen := false })

/-- The reply of a STREAM_CLOSE: OFFSET and the record count (R214, R364). -/
def closeReply (id st : Nat) (s : State) : State :=
  let o := s.reg .strmOffset 0 st
  finish id stOk (o % 2 ^ 32) (o / 2 ^ 32) (s.reg .strmRecords 0 st) 0 s

/-- A STREAM_CLOSE that waits closes the stream once it is released, and ends once its records are complete (R364, R369). -/
def closeReady (st : Nat) (s : State) : State :=
  let x := s.stream st
  match x.closing with
  | some id =>
    if x.held then s
    else
      let s := if x.isOpen then closeStream st s else s
      if x.recs = 0 then closeReply id st (s.setStream st { s.stream st with closing := none }) else s
  | none => s

end Sys2Proof.Machine
end

