-- ==== Sys2Proof/Machine/StoOps.lean ====
section
/-! DEFINITION. The storage service: drives and their maps, journal records, the parts of storage commands and their order, drive
commands, completions (R398 to R417). -/
namespace Sys2Proof.Machine

open Sys2Proof

def State.drive (s : State) (d : Nat) : Drive := tget {} s.sto.drives d
def State.setDrive (s : State) (d : Nat) (x : Drive) : State := { s with sto := { s.sto with drives := tput {} s.sto.drives d x } }
def State.vol (s : State) (v : Nat) : Vol := tget {} s.sto.vols v
def State.setVol (s : State) (v : Nat) (x : Vol) : State := { s with sto := { s.sto with vols := tput {} s.sto.vols v x } }
def State.stoQ (s : State) (i : Nat) : StoQ := tget {} s.sto.queues i
def State.setStoQ (s : State) (i : Nat) (x : StoQ) : State :=
  { s with sto := { s.sto with queues := tput {} s.sto.queues i x } }

/-! ### Volumes and maps (R401, R402) -/

/-- The drives of a mask in ascending port order. -/
def maskDrives (mask : Nat) : List Nat := (List.range 4).filter fun d => bit mask d

/-- The drive on which a unit of a volume lives. -/
def unitDrive (mask u : Nat) : Nat := (maskDrives mask).getD (u % (maskDrives mask).length) 0

/-- The units of a volume that live on the drive at a position of its list. -/
def shareOf (mask blocks d : Nat) : Nat :=
  let l := maskDrives mask
  let u := blocks / 64
  (u + l.length - 1 - l.idxOf d) / l.length

/-- Physical unit number `i` of a list of runs. -/
def extentAt : List (Nat × Nat) → Nat → Nat
  | [], _ => 0
  | (a, n) :: t, i => if i < n then a + i else extentAt t (i - n)

def extentLen (l : List (Nat × Nat)) : Nat := (l.map (·.2)).sum

/-- The first `n` units of a list of runs, and the rest. (DESIGN CHOICE, log entry 32.) -/
def takeUnits : Nat → List (Nat × Nat) → List (Nat × Nat) × List (Nat × Nat)
  | _, [] => ([], [])
  | n, (a, k) :: t =>
    if n = 0 then ([], (a, k) :: t)
    else if k ≤ n then let (x, r) := takeUnits (n - k) t; ((a, k) :: x, r)
    else ([(a, n)], (a + n, k - n) :: t)

/-- Where a drive's map has a unit of a volume: the physical unit, and whether it is mapped. -/
def mapAt (m : DMap) (v u : Nat) : Nat × Bool :=
  match m.vols.find? fun e => e.1 == v with
  | none => (0, false)
  | some (_, x) => match tget 0 x.map u with
    | 0 => (extentAt x.ext (u / (maskDrives x.mask).length), false)
    | k => ((k - 1) / 2, (k - 1) % 2 == 1)

def setMap (m : DMap) (v u phys : Nat) (on : Bool) : DMap :=
  { m with vols := m.vols.map fun (w, x) =>
      if w = v then (w, { x with map := tput 0 x.map u (2 * phys + (if on then 1 else 0) + 1) }) else (w, x) }

/-- Apply a journal record to a map: the map, and the units it gives up. -/
def applyRec (m : DMap) : JRec → DMap × List Nat
  | .create v mask blocks ext => ({ m with vols := tins (tdel m.vols v) v ⟨mask, blocks, ext, []⟩ }, [])
  | .delete v => match m.vols.find? fun e => e.1 == v with
    | none => (m, [])
    | some (_, x) =>
      let ext := x.ext.flatMap fun (a, n) => (List.range n).map (· + a)
      let moved := x.map.map fun (u, k) => ((k - 1) / 2, extentAt x.ext (u / (maskDrives x.mask).length))
      let keep := ext.filter fun p => !(moved.any (·.2 == p))
      ({ m with vols := tdel m.vols v, free := m.free ++ (keep ++ moved.map (·.1)).map fun p => (p, 1) }, [])
  | .map v u new => (setMap m v u new true, [(mapAt m v u).1])
  | .unmap v u => (setMap m v u (mapAt m v u).1 false, [])

/-- Replay journal records in sequence order; the first whose CRC fails ends the replay (R403). Answers whether one failed. -/
def replay : DMap → List (Option JRec) → DMap × Bool
  | m, [] => (m, false)
  | m, none :: _ => (m, true)
  | m, some r :: t =>
    let (m', old) := applyRec m r
    let new := match r with | .map _ _ n => [n] | _ => []
    replay { m' with spare := m'.spare.filter (fun p => !new.contains p) ++ old, seq := m.seq + 1 } t

/-- The map of a drive that holds none: 1 GiB of metadata, 1,024 spare units, the rest free (R402). (DESIGN CHOICE, log entry 32.) -/
def freshMap (blocks : Nat) : DMap :=
  ⟨[], [(5120, blocks / 64 - 5120)], (List.range 1024).map (· + 4096), 0⟩

/-- The first failing condition of R399; 0 for none. -/
def driveRefuse (i : DriveId) : Nat :=
  if !i.nvme then 1 else if !i.format then 2
  else if i.blocks < 2 ^ 31 / 4096 ∨ 2 ^ 46 / 4096 < i.blocks then 3
  else if !i.feats then 4 else 0

/-- The object state of type 0x15 (R408). -/
def driveCode (s : State) (d : Nat) : Nat :=
  let x := s.drive d
  if x.failed then 3 else if !x.accepted then 0 else if bit (s.reg .driveCtrl d) 0 then 1 else 2

/-- A drive of the volume is missing or FAILED (R403). -/
def degraded (s : State) (v : Nat) : Bool :=
  decide ((s.vol v).st ≠ 0) && (maskDrives (s.vol v).mask).any fun d => !(s.drive d).accepted || (s.drive d).failed

/-! ### Drive commands (R398, R400, R415 to R417) -/

/-- A drive that takes commands now: accepted, not FAILED, its controller not in reset. -/
def driveUp (x : Drive) : Bool := x.accepted && !x.failed && x.resetDue.isNone

/-- A power transition is under way (R417). -/
def driveMoves (x : Drive) : Bool := x.cmds.any fun c => match c.why with | .power _ => true | _ => false

/-- Issue a command to a drive: a running self-test is aborted first (R415), and the time limit starts (R400). In the message,
codes are 0 write with FUA, 1 read, 2 deallocate, 3 start a self-test, 4 abort it, 5 power state, 6 transition times, 7 reset
of the controller. -/
def nvme (d : Nat) (why : NFor) (code lba blocks : Nat) (data : Bytes) (s : State) : State :=
  let x := s.drive d
  let s := if x.test.any (·.on) then send (.nvme d x.cid 4 0 0 []) s else s
  let cid := x.cid + (if x.test.any (·.on) then 1 else 0)
  let tmo := max 1 (bits (s.reg .stoCtrl) 7 0)
  let s := s.setDrive d { x with
    cmds := x.cmds ++ [⟨cid, why, s.tb.ticks + tmo * 1000 * msTicks⟩]
    cid := cid + 1
    last := s.tb.ticks
    test := x.test.map fun t => { t with on := false } }
  match why with
  | .vol _ r => send (.journal d cid (x.dm.seq + 1) r) s
  | _ => send (.nvme d cid code lba blocks data) s

/-- Write a journal record for a part of a command. -/
def nvmeJournal (d take i : Nat) (r : JRec) (s : State) : State :=
  let x := s.drive d
  let s := nvme d (.part take i) 0 0 1 [] s
  send (.journal d x.cid (x.dm.seq + 1) r) s

/-- The state in which a COMMANDED drive belongs: the lowest requested by a volume on it, or 0 (R416). -/
def drivePs (s : State) (d : Nat) : Nat :=
  match (s.sto.vols.filterMap fun (_, v) => if bit v.mask d then v.preq else none) with
  | [] => 0
  | p :: t => t.foldl min p

/-- Move a COMMANDED drive to the state its requests give, unless it is there or on its way. -/
def drivePower (d : Nat) (s : State) : State :=
  let x := s.drive d
  let want := drivePs s d
  let going := (x.cmds.map (·.why) ++ x.todo).filterMap fun w => match w with | .power p => some p | _ => none
  if driveCode s d = 2 ∧ (going.getLast?.getD x.ps) ≠ want then s.setDrive d { x with todo := x.todo ++ [.power want] } else s

def allPower (s : State) : State := (List.range 4).foldl (fun s d => drivePower d s) s

/-! ### Ends and failures (R405, R409, R410) -/

def modOp (take : Nat) (f : StoOp → StoOp) (s : State) : State :=
  { s with sto := { s.sto with ops := lmod (fun o => o.take == take) f s.sto.ops } }

def setPart (take i : Nat) (f : UOp → UOp) (s : State) : State :=
  modOp take (fun o => { o with parts := o.parts.modify i f }) s

/-- A live part of a command, which still has a drive command to come or to answer. -/
def UOp.live (p : UOp) : Bool := p.phase != .done && p.phase != .stopped

/-- A command meets an error: its status and results stay those of the first, save that of several media errors the lowest LBA
counts; parts that wait are given up. -/
def stoFail (take st r0 r1 : Nat) (s : State) : State :=
  modOp take (fun o =>
    let o := if o.st = 0 ∨ (o.st = st ∧ st = stMedia ∧ r0 < 0xFFFE ∧ r1 < o.r1) then { o with st := st, r0 := r0, r1 := r1 } else o
    { o with parts := o.parts.map fun p => if p.phase == .wait || (p.phase == .spare && p.fill == 0) then { p with phase := .stopped } else p }) s

/-- A media error: the sticky bit and the count of the drive (R420), and the command's status. -/
def stoMedia (d take r0 r1 : Nat) (s : State) : State :=
  let s := (sticky none .driveErr d 0 1 s).count .driveMedia d 0 1
  stoFail take stMedia r0 r1 s

/-- A spare unit that a part held goes back to its pool, deallocated (R412). (DESIGN CHOICE, log entry 32.) -/
def giveBack (d : Nat) (p : UOp) (s : State) : State :=
  if p.fill = 0 then s else s.setDrive d { s.drive d with old := (s.drive d).old ++ [(p.fill, true)] }

/-- Give up a part. -/
def stopPart (d take i : Nat) (s : State) : State :=
  match (s.sto.ops.find? fun o => o.take == take) with
  | none => s
  | some o => match o.parts[i]? with
    | none => s
    | some p => setPart take i (fun p => { p with phase := .stopped, fill := 0 }) (giveBack d p s)

/-! ### Order (R413) -/

def UOp.isWrite (p : UOp) : Bool := p.kind != .read

def overlap (p q : UOp) : Bool := p.unit == q.unit && decide (p.lo < q.lo + q.n) && decide (q.lo < p.lo + p.n)

/-- Whether a live part of an earlier command makes a part of a later one wait (R413, R419). `mapped` says that the unit is mapped
now: a write to an unmapped unit replaces the whole unit (R410). (DEDUCED, log entry 36.) -/
def waitsFor (mapped : Bool) (p q : UOp) : Bool :=
  p.unit == q.unit && q.live &&
    match p.kind with
    | .read => false
    | .atomic => q.isWrite
    | .unmap => true
    | _ => if q.isWrite then overlap p q || q.kind == .atomic || q.kind == .unmap || !mapped else overlap p q

def partBlocked (s : State) (o : StoOp) (mapped : Bool) (p : UOp) : Bool :=
  s.sto.ops.any fun e => decide (e.take < o.take) && e.vol == o.vol && e.parts.any (waitsFor mapped p)

/-- Blocks of a command's data for a part. -/
def partData (o : StoOp) (p : UOp) : Bytes := slice o.data (p.off * 4096) (p.n * 4096)

/-- The new contents of a unit: the part's blocks over the old ones (R412, R410). -/
def unitData (o : StoOp) (p : UOp) : Bytes := splice (fit 0x40000 p.old) (p.lo * 4096) (partData o p)

/-- The unit of a volume as its drive maps it now. -/
def liveUnit (s : State) (o : StoOp) (p : UOp) : Nat × Nat × Bool :=
  let d := unitDrive (s.vol o.vol).mask p.unit
  let (phys, m) := mapAt (s.drive d).dm o.vol p.unit
  (d, phys, m)

/-- Write the new unit of a part that holds its spare unit and its old blocks. -/
def writeNew (d : Nat) (o : StoOp) (i : Nat) (p : UOp) (s : State) : State :=
  nvme d (.part o.take i) 0 (p.fill * 64) 64 (unitData o p) (setPart o.take i (fun _ => { p with phase := .newWrite }) s)

/-- A part that needs a spare unit takes one, or waits for one (R402, R411). -/
def partSpare (d take i phys : Nat) (mapped : Bool) (o : StoOp) (p : UOp) (s : State) : State :=
  let x := s.drive d
  match (if p.fill = 0 then x.dm.spare else [p.fill]) with
  | [] => setPart take i (fun p => { p with phase := .spare }) s
  | f :: rest =>
    let s := if p.fill = 0 then s.setDrive d { x with dm := { x.dm with spare := rest } } else s
    let p := { p with fill := f, phys := phys, old := [] }
    if mapped && p.n != 64 then
      nvme d (.part take i) 1 (phys * 64 + p.n) (64 - p.n) [] (setPart take i (fun _ => { p with phase := .oldRead }) s)
    else writeNew d o i p s

/-- A part begins its work on the drive. -/
def partBegin (d take i phys : Nat) (mapped : Bool) (o : StoOp) (p : UOp) (s : State) : State :=
  if p.phase == .wait && p.kind == .read then
    nvme d (.part take i) 1 (p.phys * 64 + p.lo) p.n [] (setPart take i (fun p => { p with phase := .inPlace }) s)
  else if p.phase == .wait && p.kind == .unmap then
    if mapped then nvmeJournal d take i (.unmap o.vol p.unit) (setPart take i (fun p => { p with phase := .journal, phys := phys }) s)
    else setPart take i (fun p => { p with phase := .done }) s
  else if p.phase == .wait && p.kind == .zero && !mapped then setPart take i (fun p => { p with phase := .done }) s
  else if p.phase == .wait && (p.kind == .zero || p.kind == .write) && mapped then
    nvme d (.part take i) 0 (phys * 64 + p.lo) p.n (if p.kind == .zero then zeros (p.n * 4096) else partData o p)
      (setPart take i (fun p => { p with phase := .inPlace, phys := phys }) s)
  else partSpare d take i phys mapped o p s

/-- Move a part on as far as it can go without an answer from a drive (R412, R413). (DESIGN CHOICE, log entry 32.) -/
def partGo (take i : Nat) (s : State) : State :=
  match s.sto.ops.find? fun o => o.take == take with
  | none => s
  | some o => match o.parts[i]? with
    | none => s
    | some p =>
      let (d, phys, mapped) := liveUnit s o p
      let x := s.drive d
      if !(p.phase == .wait || p.phase == .spare) then s
      else if !x.accepted || x.failed then
        stopPart d take i (stoMedia d take 0xFFFE ((o.lba + p.off) % 2 ^ 32) s)
      else if !driveUp x || driveMoves x then s
      else if p.phase == .spare || !partBlocked s o mapped p then partBegin d take i phys mapped o p s
      else s

/-- A command whose tests or power states are due (R410, R415, R416). -/
def opWaits (s : State) (o : StoOp) : Bool :=
  match o.op with
  | 3 => s.sto.ops.any fun e => decide (e.take < o.take) && e.vol == o.vol && !e.ended && (e.op == 2 || e.op == 4 || e.op == 5)
  | 6 => (maskDrives (s.vol o.vol).mask).any fun d => ((s.drive d).test.map (·.for_)).getD [] |>.contains o.take
  | 7 => (maskDrives (s.vol o.vol).mask).any fun d =>
      let x := s.drive d
      driveCode s d == 2 && (x.ps != drivePs s d || driveMoves x || x.todo.any fun w => match w with | .power _ => true | _ => false)
  | _ => o.parts.any UOp.live

/-- Blocks completed (R409). (DESIGN CHOICE, log entry 33; DEDUCED, log entry 36.) -/
def doneBlocks (o : StoOp) : Nat :=
  if o.st = 0 then (if o.op = 1 ∨ o.op = 2 ∨ o.op = 4 ∨ o.op = 5 then o.count else 0)
  else ((o.parts.filter fun p => p.phase == .done).map (·.n)).sum

/-- The completion entry (R409). (DEDUCED, log entry 35.) -/
def stoEntry (s : State) (o : StoOp) (phase : Bool) : Bytes :=
  leBytes 2 o.st ++ leBytes 1 o.tag ++ leBytes 1 (if phase then 1 else 0) ++ leBytes 1 o.op ++ zeros 3
    ++ leBytes 4 o.r0 ++ leBytes 4 o.r1 ++ leBytes 8 s.now ++ leBytes 4 (doneBlocks o) ++ zeros 4

def dropOp (take : Nat) (s : State) : State := { s with sto := { s.sto with ops := s.sto.ops.filter fun o => o.take != take } }

/-- The SYNC signal of a command, delivered last. -/
def stoSync (t : Nat) (o : StoOp) (s : State) : State :=
  match o.sig with
  | some (x, v) => sendSig 0x212 t x v none s
  | none => s

/-- The TRACE point of a storage command that completes: queue and tag, and DONE (R508). -/
def stoTrace (t i : Nat) (o : StoOp) (s : State) : State := traceHit t 8 (i % 16 * 32 + o.tag % 32) o.st (doneBlocks o) 0 none s

/-- Write the completion of an ended command when its turn comes (R405, R409, R418). -/
def deliver (o : StoOp) (s : State) : State :=
  if !o.ended then s else
  match o.for_ with
  | .drain _ => s
  | .gone => dropOp o.take s
  | .queue i =>
    let q := s.stoQ i
    let t := i / 16
    if q.ibc then
      if s.sto.ops.any fun e => decide (e.take < o.take) && e.for_ == .queue i then s
      else
        let w := 512 + 16 * t + q.k
        let s := stoTrace t i o s
        stoSync t o (dropOp o.take (s.setWq w (s.wq w ++ [{ bytes := stoEntry s o false }])))
    else if !fnBme s t then s
    else
      let s := stoTrace t i o s
      let (s, r) := hostWrite s t (q.cq + 32 * q.cqTail) (stoEntry s o q.phase)
      match r with
      | .ok _ =>
        let s := s.setStoQ i { q with cqTail := (q.cqTail + 1) % 32, used := q.used + 1, phase := if q.cqTail = 31 then !q.phase else q.phase }
        stoSync t o (dropOp o.take (signalVector t q.vector s))
      | .error _ =>
        let s := sticky (some t) .stoTenErr t 0 2 (s.setStoQ i { q with failed := true })
        stoSync t o (dropOp o.take s)

/-- Cut a block range at unit boundaries: unit, first block in it, blocks, offset in the range. -/
def unitCuts : Nat → Nat → Nat → Nat → List (Nat × Nat × Nat × Nat)
  | 0, _, _, _ => []
  | f + 1, lba, n, off =>
    if n = 0 then [] else
      let k := min n (64 - lba % 64)
      (lba / 64, lba % 64, k, off) :: unitCuts f (lba + k) (n - k) (off + k)

/-- The parts of a WRITE, ATOMIC_WRITE or TRIM (R410). -/
def writeParts (op lba n : Nat) : List UOp :=
  (unitCuts (n + 1) lba n 0).map fun (u, lo, k, off) =>
    { kind := if op = 5 then .atomic else if op = 2 then .write else if k = 64 then .unmap else .zero, unit := u, lo := lo, n := k, off := off }

/-- One command of the service goes on: its parts, then its end. -/
def opGo (take : Nat) (s : State) : State :=
  let s := match s.sto.ops.find? fun o => o.take == take with
    | some o => (List.range o.parts.length).foldl (fun s i => partGo take i s) s
    | none => s
  match s.sto.ops.find? fun o => o.take == take with
  | some o => if o.ended || opWaits s o then s else modOp take (fun o => { o with ended := true }) s
  | none => s

/-- The commands a drive has to be given issue, in order; a unit that no read uses any more is deallocated (R412). -/
def driveGo (d : Nat) (s : State) : State :=
  if !driveUp (s.drive d) then s else
  let s := (s.drive d).todo.foldl (fun s w =>
    if driveMoves (s.drive d) then s else
    let s := s.setDrive d { s.drive d with todo := (s.drive d).todo.drop 1 }
    match w with
    | .power p => nvme d w 5 p 0 [] s
    | .apst => nvme d w 6 (s.reg .driveApstIdle d) 0 [] s
    | w => nvme d w 0 0 1 [] s) s
  let used (p : Nat) : Bool := s.sto.ops.any fun o => o.parts.any fun q =>
    q.live && (q.kind == .read || q.phase == .oldRead) && q.phys == p && unitDrive (s.vol o.vol).mask q.unit == d
  let (now, later) := (s.drive d).old.partition fun e => !used e.1
  let s := s.setDrive d { s.drive d with old := later }
  now.foldl (fun s e => nvme d (.dealloc e.1 e.2) 2 (e.1 * 64) 64 [] s) s

/-- Everything the service can do without an answer from outside. (DESIGN CHOICE, log entry 23.) -/
def stoRun (s : State) : State :=
  let s := (List.range 4).foldl (fun s d => driveGo d s) s
  let s := (s.sto.ops.map (·.take)).foldl (fun s t => opGo t s) s
  s.sto.ops.foldl (fun s o => match s.sto.ops.find? (fun e => e.take == o.take) with | some o => deliver o s | none => s) s

end Sys2Proof.Machine
end

