-- ==== Sys2Proof/Machine/SeamOps.lean ====
section
/-! DEFINITION. Seam links and bundles: the link map, flits and their replay buffer, dealing, loss and return of links (R318 to R341). -/
namespace Sys2Proof.Machine

open Sys2Proof

def State.link (s : State) (l : Nat) : Link := tget {} s.seam.links l
def State.setLink (s : State) (l : Nat) (x : Link) : State := { s with seam := { s.seam with links := tput {} s.seam.links l x } }
def State.bundle (s : State) (q : Nat) : Bundle := tget {} s.seam.bundles q
def State.setBundle (s : State) (q : Nat) (x : Bundle) : State := { s with seam := { s.seam with bundles := tput {} s.seam.bundles q x } }

/-! ### The board record (R328 to R331) -/

def boardValid (s : State) : Bool := bit (s.reg .seamBoard) 8
def boardPos (s : State) : Nat := bits (s.reg .seamBoard) 2 0

/-- Devices of a topology (R328, R330). -/
def topoN (t : Nat) : Option Nat := if t = 1 then some 1 else if t = 4 then some 4 else if t = 8 then some 8 else none

/-- PEER and PEER_LINK of link k of position p. -/
def mapEntry (rec : Bytes) (p k : Nat) : Nat × Nat := (fld rec (64 + 2 * (24 * p + k)) 1, fld rec (65 + 2 * (24 * p + k)) 1)

/-- Every field of a board record is legal for a device at a position (R330, R331): magic, version, topology, FDID base, zero fields,
map entries, and the symmetry of the map. -/
def boardLegal (rec : Bytes) (pos : Nat) : Bool :=
  match topoN (fld rec 6 1) with
  | none => false
  | some n =>
    let pairs := (List.range 8).flatMap fun p => (List.range 24).map fun k => (p, k)
    fld rec 0 4 == 0x1AB00ADB && fld rec 4 2 == 1 && fld rec 7 1 == 0 && fld rec 8 4 % 8 == 0 && decide (fld rec 8 4 < 2 ^ 20)
      && allZero (slice rec 24 40) && fld rec 448 2 == 4627 && fld rec 450 2 == 0 && decide (pos < n)
      && pairs.all fun (p, k) =>
        let (q, j) := mapEntry rec p k
        if q < 8 then decide (q < n) && decide (p < n) && decide (j < 24) && mapEntry rec q j == (p, k)
        else (decide (0x80 ≤ q) && decide (q < 0xA0) || q == 0xFF) && j == 0

/-- PEER and PEER_LINK of this device's link. -/
def linkMap (s : State) (l : Nat) : Nat × Nat := mapEntry s.seam.board (boardPos s) l

def linkOff (s : State) (l : Nat) : Bool := boardValid s && decide (0x80 ≤ (linkMap s l).1) && (linkMap s l).1 != 0xFF
def linkOn (s : State) (l : Nat) : Bool := boardValid s && decide ((linkMap s l).1 < 8)

/-- Whether a cable record lets an off-board link train (R333, R334). -/
def cableOk (c : Bytes) : Bool :=
  c.length == 128 && fld c 0 2 == 0x5EA3 && fld c 2 1 == 1 && decide (1 ≤ fld c 3 1) && decide (fld c 3 1 ≤ 3)
    && decide (1 ≤ fld c 4 2) && decide (fld c 4 2 ≤ 10000) && fld c 6 1 == 4 && fld c 7 1 == 1 && decide (fld c 16 1 ≤ 1)
    && (if fld c 3 1 = 1 then decide (1 ≤ fld c 17 1) && decide (fld c 17 1 ≤ 250) else fld c 17 1 == 0)
    && allZero (slice c 18 106) && fld c 124 4 == crc32c (c.take 124)

/-! ### Flits (R319 to R322) -/

/-- The lanes a link runs on (R323): all four, a pair, or the lowest healthy one, as the mask of healthy lanes gives; `wide` is false
while a link below ×4 may not return to it. -/
def pickLanes (wide : Bool) (m : Nat) : Option Nat :=
  if m % 16 = 15 ∧ wide then some 15
  else if bits m 1 0 = 3 then some 3
  else if bits m 3 2 = 3 then some 12
  else ((List.range 4).find? (bit m)).map fun i => 2 ^ i

def laneCount (m : Nat) : Nat := ((List.range 4).filter (bit m)).length

/-- Flits a transaction takes, by its data bytes (log entry 37). -/
def flitsOf (m : SeamMsg) : Nat :=
  match m with
  | .signal _ _ _ | .ack _ _ => 1
  | .write _ _ b => max 1 (ceilDiv b.length 248)
  | .coll c => max 1 (ceilDiv c.data.length 248)
  | .packet b => max 1 (ceilDiv b.length 248)

/-- The virtual channel of a transaction (R339). -/
def vcOf (m : SeamMsg) : Nat := match m with | .signal _ _ _ => 2 | .ack _ _ => 1 | _ => 0

/-- The header word of a DATA flit (R319). -/
def flitHead (seq vc : Nat) : Nat := 1 + seq * 4 + vc * 2 ^ 14

/-- A CTRL flit leaves (R320, R337): the last SEQ received in order, with a NAK the SEQ expected next, the credits granted and the stamps;
after every 32nd an off-board link sends an IDLE flit. (DESIGN CHOICE, log entry 112.) -/
def sendCtrl (l : Nat) (nak : Bool) (s : State) : State :=
  let x := s.link l
  let now := s.tb.master.toNat
  let s := s.setLink l { x with t1 := some now, slot := 0, ctrlAt := s.tb.ticks, ctrls := x.ctrls + 1 }
  let s := send (.ctrl l ((x.rxSeq + 4095) % 4096) (if nak then some x.rxSeq else none) ((List.range 3).map Config.seamCredit) now x.t4) s
  if linkOff s l && (x.ctrls + 1) % 32 == 0 then send (.idleFlit l) s else s

/-- Every 64th slot of an UP link carries a CTRL flit: after 63 DATA flits, or once the time of 64 slots has passed (R320). (DESIGN CHOICE, log entry 112.) -/
def ctrlSlot (l : Nat) (s : State) : State :=
  let x := s.link l
  if x.st == .up && (decide (63 ≤ x.slot) || decide (x.ctrlAt + 653 / max 1 (laneCount x.lanes) ≤ s.tb.ticks)) then sendCtrl l false s else s

/-- The link takes a transaction now: UP, room in the replay buffer, credit on its channel. (DEDUCED, log entry 37.) -/
def linkRoom (s : State) (l : Nat) (m : SeamMsg) : Bool :=
  let x := s.link l
  x.st == .up && decide (x.buf.length + flitsOf m ≤ 512) && decide (flitsOf m ≤ x.credits.getD (vcOf m) 0)

/-- Send a transaction's flits on a link. (DEDUCED, log entry 37.) -/
def linkSend (l : Nat) (m : SeamMsg) (s : State) : State :=
  let x := s.link l
  let n := flitsOf m
  let seqs := (List.range n).map fun i => (x.txSeq + i) % 4096
  let s := s.setLink l { x with
    txSeq := (x.txSeq + n) % 4096
    buf := x.buf ++ seqs.map fun q => ⟨q, vcOf m, 1⟩
    acked := if x.buf = [] then s.tb.ticks else x.acked
    slot := x.slot + n
    credits := x.credits.modify (vcOf m) (· - n) }
  ctrlSlot l (seqs.foldl (fun s q => send (.flit l (flitHead q (vcOf m)) m) s) s)

/-- The waiting transaction that gets the next slots (R339): VC 2 first, then VC 1 and VC 0 in turn; a channel without credit blocks none. -/
def linkPick (s : State) (l : Nat) : Option Nat :=
  let x := s.link l
  (2 :: if x.turn then [0, 1] else [1, 0]).findSome? fun v =>
    match x.wait.findIdx? (fun m => vcOf m == v) with
    | some i => match x.wait[i]? with | some m => if linkRoom s l m then some i else none | none => none
    | none => none

/-- Send what waits for a link while it has room. -/
def linkGoN (l : Nat) : Nat → State → State
  | 0, s => s
  | n + 1, s =>
    match linkPick s l with
    | none => s
    | some i => match (s.link l).wait[i]? with
      | none => s
      | some m =>
        let x := s.link l
        linkGoN l n (linkSend l m (s.setLink l { x with wait := x.wait.eraseIdx i, turn := if vcOf m = 2 then x.turn else vcOf m == 1 }))

def linkGo (l : Nat) (s : State) : State := linkGoN l (s.link l).wait.length s

/-- Give a transaction to a link: its flits leave in their turn, held back while there is no room (R321, R339). -/
def linkOut (l : Nat) (m : SeamMsg) (s : State) : State :=
  let x := s.link l
  linkGo l (s.setLink l { x with wait := x.wait ++ [m] })

/-! ### Bundles (R326, R327, R341) -/

/-- The links to a peer position that are UP, ascending. -/
def upLinks (s : State) (q : Nat) : List Nat := (List.range 24).filter fun l => linkOn s l && (linkMap s l).1 == q && (s.link l).st == .up

/-- The values 0 to W - 1 dealt to the UP links, each as often as it has active lanes. -/
def dealing (s : State) (q : Nat) : List Nat := (upLinks s q).flatMap fun l => List.replicate (laneCount (s.link l).lanes) l

/-- The link on which a waiting transaction may go now (R326, R327): the dealt one where no transaction of its value is still
unacknowledged on another; a lost link's values go on where its transactions were sent again until those are acknowledged. -/
def txLink (b : Bundle) (deal : List Nat) (t : SeamTx) : Option Nat :=
  if deal = [] then none
  else
    let v := t.hash % deal.length
    let l := deal.getD v 0
    let out := b.txs.filter (·.seq.isSome)
    match b.lost.find? fun (old, gone, _) => out.any (·.resent == some gone) && old.getD (t.hash % max 1 old.length) 24 == gone with
    | some (_, _, via) => if deal.contains via then some via else none
    | none => if out.all fun u => u.hash % deal.length != v || u.link == l then some l else none

/-- Send what may be sent of a bundle, in order; a transaction held back holds later ones of its page back. -/
def bundleGoN (q : Nat) : Nat → List Nat → State → State
  | 0, _, s => s
  | n + 1, held, s =>
    let b := s.bundle q
    match (List.range b.txs.length).find? fun i =>
        match b.txs[i]? with | some t => t.seq.isNone && !held.contains t.hash | none => false with
    | none => s
    | some i => match b.txs[i]? with
      | none => s
      | some t =>
        match txLink b (dealing s q) t with
        | none => bundleGoN q n (t.hash :: held) s
        | some l =>
          if (b.txs.filter (·.seq.isSome)).length < 32768 then
            let s := s.setBundle q { b with
              next := (b.next + 1) % 2 ^ 32
              txs := b.txs.modify i fun t => { t with seq := some b.next, link := l, since := s.tb.ticks } }
            bundleGoN q n held (linkOut l t.msg s)
          else s

def bundleGo (q : Nat) (s : State) : State := bundleGoN q (2 * (s.bundle q).txs.length + 1) [] s

def bundlesGo (s : State) : State := (List.range 8).foldl (fun s q => bundleGo q s) s

/-- Give a transaction to a peer of the board (R326): dealt by its source unit and its target page. (DESIGN CHOICE, log entry 42.) -/
def seamSend (q unit page : Nat) (m : SeamMsg) (f : SeamFor) (s : State) : State :=
  let b := s.bundle q
  bundleGo q (s.setBundle q { b with txs := b.txs ++ [{ unit := unit, hash := Config.seamHash unit page, msg := m, for_ := f }] })

/-- Transactions that no UP link carries, sent on a lost link `l` (24: on any that were lost while none was UP), go again, in order, on the
lowest link of the bundle that is UP, and the values of those links with them (R327). -/
def rehome (q l : Nat) (s : State) : State :=
  match upLinks s q with
  | [] => s
  | via :: _ =>
    let b := s.bundle q
    let mine := b.txs.filter fun t => t.seq.isSome && t.link == l
    let s := s.setBundle q { b with
      lost := b.lost.map fun (old, gone, v) => (old, gone, if v = l ∨ gone = l then via else v)
      txs := b.txs.map fun t => if t.seq.isSome && t.link == l then { t with link := via } else t }
    mine.foldl (fun s t => linkOut via t.msg s) s

/-- A link has left UP or RETRAIN for DOWN or DISABLED (R325, R327): its transactions are marked and go again; what no link of the bundle
can carry yet waits at link 24, which is none. -/
def linkLost (l : Nat) (s : State) : State :=
  if linkOn s l then
    let q := (linkMap s l).1
    let b := s.bundle q
    let s := s.setBundle q { b with
      lost := b.lost ++ [((s.link l).deal, l, 24)]
      txs := b.txs.map fun t => if t.seq.isSome && t.link == l then { t with resent := some l } else t }
    let s := rehome q l s
    let s := s.setBundle q { s.bundle q with txs := (s.bundle q).txs.map fun t => if t.seq.isSome ∧ t.link = l then { t with link := 24 } else t }
    bundleGo q s
  else s

/-- A link is DOWN or DISABLED: where no link of its bundle can carry traffic any more, the bundle's limit of R341 counts from now. -/
def markDown (l : Nat) (s : State) : State :=
  if linkOn s l then
    let q := (linkMap s l).1
    let live := (List.range 24).any fun k => linkOn s k && (linkMap s k).1 == q && ((s.link k).st == .up || (s.link k).st == .retrain)
    if !live && (s.bundle q).downAt.isNone then s.setBundle q { s.bundle q with downAt := some s.tb.ticks } else s
  else s

/-- A link is UP: its bundle carries traffic again. -/
def markUp (l : Nat) (s : State) : State :=
  if linkOn s l then
    let q := (linkMap s l).1
    bundleGo q (rehome q 24 (s.setBundle q { s.bundle q with downAt := none }))
  else s

/-- A device of this board by its FDID: its position (R238, R331). -/
def boardPeer (s : State) (fdid : Nat) : Option Nat :=
  if boardValid s then
    match topoN (bits (s.reg .seamBoard) 7 4) with
    | some n =>
      let b := fld s.seam.board 8 4
      if b ≤ fdid ∧ fdid < b + n ∧ fdid ≠ s.reg .seamFdid then some (fdid - b) else none
    | none => none
  else none

/-! ### Remote signals (R229, R238) -/

/-- A remote signal arrives: it is applied in a counter cycle where the counter belongs to the sender's tenant, otherwise dropped. -/
def remoteApply (src from_ ctr val tenant : Nat) (s : State) : State × Bool :=
  if ctr < 17408 ∧ ctrOwner s ctr = tenant + 1 then
    (counterCycle ctr [src] { s with sync := { s.sync with flight := s.sync.flight ++ [⟨src, ctr, val, none⟩] } }, true)
  else
    (raise 1 (some tenant) (regAddr .syncErr 0 0 0) 0x8008 (zeros 2 ++ leBytes 4 from_ ++ leBytes 1 2 ++ zeros 3 ++ leBytes 4 ctr)
      (s.orReg .syncErr 0 0 4), false)

/-- A remote signal exceeds the retry limit of its path (R238). -/
def remoteLost (g : RemoteSig) (s : State) : State :=
  raise 1 (some g.tenant) (regAddr .syncErr 0 0 0) 0x8008 (zeros 2 ++ leBytes 4 g.fdid ++ leBytes 1 1 ++ zeros 3 ++ leBytes 4 g.ctr)
    (s.orReg .syncErr 0 0 8)

end Sys2Proof.Machine
end

