-- ==== Sys2Proof/Machine/FtOps.lean ====
section
/-! DEFINITION. The fabric transport's operations: packets and their encapsulation, paths and buckets, messages and their ends,
receive entries (R371 to R395). -/
namespace Sys2Proof.Machine

open Sys2Proof

def ftOn (s : State) : Bool := bit (s.reg .ftCtrl) 0
def ftV6 (s : State) : Bool := bit (s.reg .ftCtrl) 1
def ftMtu (s : State) : Nat := clampNat 10 13 (bits (s.reg .ftCtrl) 5 2)
def ftMaxAge (s : State) : Nat := clampNat 100 100000 (bits (s.reg .ftMaxAge) 19 0)
def ftRtoTicks (s : State) : Nat := clampNat 10 10000 (bits (s.reg .ftRto) 15 0) * usTicks
def myFdid (s : State) : Nat := s.reg .seamFdid

def State.ftMsg (s : State) (m : Nat) : Option FtMsg := tget none s.ft.msgs m
def State.setFtMsg (s : State) (m : Nat) (x : Option FtMsg) : State := { s with ft := { s.ft with msgs := tput none s.ft.msgs m x } }
def State.ftRing (s : State) (i : Nat) : Option FtRing := tget none s.ft.rings i
def State.setFtRing (s : State) (i : Nat) (x : Option FtRing) : State := { s with ft := { s.ft with rings := tput none s.ft.rings i x } }
def State.ftRq (s : State) (i : Nat) : Option FtRq := tget none s.ft.rqs i
def State.setFtRq (s : State) (i : Nat) (x : Option FtRq) : State := { s with ft := { s.ft with rqs := tput none s.ft.rqs i x } }

/-! ### Packets (R371 to R375) -/

/-- The header of R373, and whether the packet arrived marked (R393). -/
structure FtHdr where
  ver    : Nat := 1
  op     : Nat
  ord    : Bool := false
  retx   : Bool := false
  path   : Nat
  tenant : Nat
  src    : Nat
  dst    : Nat
  msg    : Nat
  pidx   : Nat := 0
  mlen   : Nat := 0
  time   : Nat
  key    : Nat := 0
  gen    : Nat := 0
  cls    : Nat
  mtu    : Nat
  plen   : Nat := 0
  raddr  : Nat := 0
  ce     : Bool := false
  deriving DecidableEq, Repr

/-- A packet from header to trailer: the CRC-32C is over header and payload (R371). -/
def ftPacket (h : FtHdr) (pay : Bytes) : Bytes :=
  let b := leBytes 1 h.ver ++ leBytes 1 h.op ++ leBytes 1 ((if h.ord then 1 else 0) + if h.retx then 2 else 0)
    ++ leBytes 1 (h.path % 8 + 8 * h.tenant) ++ leBytes 4 h.src ++ leBytes 4 h.dst ++ leBytes 4 h.msg ++ leBytes 4 h.pidx
    ++ leBytes 4 h.mlen ++ leBytes 8 h.time ++ leBytes 4 h.key ++ leBytes 1 h.gen ++ leBytes 1 (h.cls + 16 * h.mtu)
    ++ leBytes 2 pay.length ++ leBytes 8 h.raddr ++ pay
  b ++ leBytes 4 (crc32c b)

def ftHeader (b : Bytes) : FtHdr :=
  { ver := fld b 0 1 % 16, op := fld b 1 1, ord := bit (fld b 2 1) 0, retx := bit (fld b 2 1) 1, path := fld b 3 1 % 8
    tenant := bits (fld b 3 1) 6 3, src := fld b 4 4 % 2 ^ 20, dst := fld b 8 4 % 2 ^ 20, msg := fld b 12 4, pidx := fld b 16 4
    mlen := fld b 20 4, time := fld b 24 8, key := fld b 32 4, gen := fld b 36 1, cls := fld b 37 1 % 8, mtu := bits (fld b 37 1) 7 4
    plen := fld b 38 2, raddr := fld b 40 8 }

/-- The zero bits of the header and the fields that a type does not use (R373, R374). -/
def ftZeroOk (b : Bytes) : Bool :=
  let h := ftHeader b
  let keyed := h.op == 1 || h.op == 2 || h.op == 5
  let addressed := keyed || h.op == 4 || h.op == 0x0A
  let payed := !(h.op == 8 || h.op == 9)
  bits (fld b 0 1) 7 4 == 0 && bits (fld b 2 1) 7 2 == 0 && !bit (fld b 3 1) 7 && decide (fld b 4 4 < 2 ^ 20) && decide (fld b 8 4 < 2 ^ 20)
    && !bit (fld b 37 1) 3 && (keyed || (h.key == 0 && h.gen == 0)) && (addressed || h.raddr == 0) && (payed || h.plen == 0)
    && (match h.op with
      | 5 => h.pidx == 0
      | 6 => h.pidx == 0 && decide (h.mlen < 2 ^ 16)
      | 7 => decide (h.mlen < 2 ^ 9)
      | 8 => decide (h.mlen < 2 ^ 8)
      | 9 => h.pidx == 0 && decide (h.mlen < 2)
      | 0x0A => decide (h.raddr < 2 ^ 15)
      | _ => true)

/-- The payload of the types whose payload has one form: its length, and the zero bytes of a 4-byte ATOMIC (R374). The other bytes of an
ATOMIC's payload that the table does not name are not looked at. (DEDUCED, log entry 109.) -/
def ftFormOk (b : Bytes) : Bool :=
  let h := ftHeader b
  match h.op with
  | 2 => h.plen == 16
  | 5 => h.plen == 24 && (fld b 48 1 != 4 || fld b 60 4 == 0)
  | 6 => h.plen == 8
  | 7 => h.plen == 16 && !bit (fld b 48 1) 0
  | 0x0A => h.plen == 4
  | _ => true

/-- A packet fails one of the checks of R375 other than age. -/
def ftBad (s : State) (b : Bytes) : Bool :=
  let h := ftHeader b
  decide (b.length < 52) || fld b (b.length - 4) 4 != crc32c (b.take (b.length - 4)) || h.ver != 1 || h.op == 0 || decide (0x0A < h.op)
    || !ftZeroOk b || !ftFormOk b || h.dst != myFdid s || b.length != 52 + h.plen

def ftPayload (b : Bytes) : Bytes := slice b 48 (fld b 38 2)

/-- One's complement sum of the 16-bit words of a string, folded. -/
def sum16 (bs : Bytes) : Nat :=
  let t := ((List.range ((bs.length + 1) / 2)).map fun i => beNat (slice bs (2 * i) 2)).sum
  let f (x : Nat) : Nat := x % 65536 + x / 65536
  f (f (f t))

def ones16 (x : Nat) : Nat := 65535 - x % 65536

/-- An IP address of a device (R372): 16 bytes in IPv6 mode, 4 in IPv4 mode. -/
def ftAddr (s : State) (fdid : Nat) : Bytes :=
  if ftV6 s then beBytes 16 (s.reg .ftPrefix6 / 2 ^ 20 * 2 ^ 20 + fdid % 2 ^ 20)
  else beBytes 4 (s.reg .ftPrefix4 / 2 ^ 17 * 2 ^ 17 + fdid % 2 ^ 17)

/-- The Ethernet frame of a packet on path p (R371), FCS excluded. -/
def ftFrame (s : State) (p tenant cls dst : Nat) (pkt : Bytes) : Bytes :=
  let w := s.reg .ftPath 0 p
  let tc := s.reg .ftTenCtrl tenant
  let tag := if bit tc 12 then beBytes 2 0x8100 ++ beBytes 2 (cls * 8192 + bits tc 11 0) else []
  let src := ftAddr s (myFdid s)
  let dip := ftAddr s dst
  let tos := 32 * cls + 2
  let ulen := 8 + pkt.length
  let udp (ck : Nat) : Bytes := beBytes 2 (bits w 31 16) ++ beBytes 2 (s.reg .ftUdpPort) ++ beBytes 2 ulen ++ beBytes 2 ck
  let eth := beBytes 6 (s.reg .ftDmac 0 p) ++ beBytes 6 (s.reg .ftSmac 0 p) ++ tag
  if ftV6 s then
    let ck := ones16 (sum16 (src ++ dip ++ beBytes 4 ulen ++ beBytes 4 17 ++ udp 0 ++ pkt))
    eth ++ beBytes 2 0x86DD ++ beBytes 4 (6 * 2 ^ 28 + tos * 2 ^ 20) ++ beBytes 2 ulen ++ beBytes 1 17 ++ beBytes 1 64 ++ src ++ dip
      ++ udp (if ck = 0 then 0xFFFF else ck) ++ pkt
  else
    let ip (ck : Nat) : Bytes := beBytes 1 0x45 ++ beBytes 1 tos ++ beBytes 2 (20 + ulen) ++ beBytes 2 0 ++ beBytes 2 0x4000
      ++ beBytes 1 64 ++ beBytes 1 17 ++ beBytes 2 ck ++ src ++ dip
    eth ++ beBytes 2 0x0800 ++ ip (ones16 (sum16 (ip 0))) ++ udp 0 ++ pkt

/-- The UDP checksum of a received frame is zero or right (R375). -/
def udpOk (f : Bytes) (x : Parsed) : Bool :=
  match x.l4 with
  | none => false
  | some o =>
    let ulen := be16 f (o + 4)
    let (src, dip) := if x.etype = 0x0800 then (slice f (x.l3 + 12) 4, slice f (x.l3 + 16) 4) else (slice f (x.l3 + 8) 16, slice f (x.l3 + 24) 16)
    be16 f (o + 6) == 0 || sum16 (src ++ dip ++ beBytes 4 ulen ++ beBytes 4 17 ++ slice f o ulen) % 65535 == 0

/-- A received frame: its packet, whether it is marked (R393), and its UDP checksum. A frame of MAC 32 + l came over seam link l, as
the packet alone. -/
def ftIncoming (s : State) (fr : Frame) : Bytes × Bool × Bool :=
  if 32 ≤ fr.mac then (fr.bytes, false, true)
  else
    let x := parse fr.bytes
    let o := x.l4.getD 0
    let ecn := if x.etype = 0x0800 then fld fr.bytes (x.l3 + 1) 1 % 4 else be16 fr.bytes x.l3 / 16 % 4
    (slice fr.bytes (o + 8) (be16 fr.bytes (o + 4) - 8), ecn == 3 || decide (classShare s fr.mac < 2 * occupancy s fr.mac fr.cls), udpOk fr.bytes x)

/-! ### Paths and buckets (R382, R394) -/

/-- Off-board links to a device that are UP, lowest eight (R382). -/
def ftSeam (s : State) (dst : Nat) : List Nat :=
  ((List.range 24).filter fun l => linkOff s l && (s.link l).st == .up && s.reg .seamPeerFdid l == dst).take 8

/-- The paths to a device: path numbers, seam links first where there are any. -/
def ftPaths (s : State) (dst : Nat) : List Nat :=
  match ftSeam s dst with
  | [] => (List.range 8).filter fun p => bit (s.reg .ftPath 0 p) 5
  | l => List.range l.length

/-- The bucket of Ethernet path p to a device (R394). -/
def bktOf (dst p : Nat) : Nat := 8 * ((bits dst 8 0 ^^^ bits dst 17 9) ^^^ (bits dst 19 18 * 128)) + p

def pathMac (s : State) (p : Nat) : Nat := bits (s.reg .ftPath 0 p) 4 0

/-- The line rate of a path's MAC in Mb/s. -/
def lineRate (s : State) (p : Nat) : Nat := macRate s (pathMac s p) * 1000

/-- The token allowance: two packets of the largest size, in eighths of a byte. -/
def bktMax : Int := 2 * 8192 * 8

/-- A bucket now: an unused one is full and at line rate. (DEDUCED, log entry 40.) -/
def bktNow (s : State) (b : Nat) : FtBkt :=
  match tget none s.ft.bkts b with
  | none => ⟨lineRate s (b % 8), bktMax, s.tb.ticks, s.tb.ticks, none, s.tb.ticks, false, false⟩
  | some x =>
    let l := x.level + ((x.rate * (s.tb.ticks - x.upto) / 1000 : Nat) : Int)
    { x with level := if bktMax < l then bktMax else l, upto := s.tb.ticks }

/-- A bucket takes a value; none is an unused one. (DEDUCED, log entry 40.) -/
def setBkt (b : Nat) (x : Option FtBkt) (s : State) : State := { s with ft := { s.ft with bkts := tput none s.ft.bkts b x } }

def rateMin (s : State) : Nat := clampNat 1 800 (bits (s.reg .ftRmin) 9 0) * 1000

/-- Lower a bucket's rate. (DEDUCED, log entry 40.) -/
def cutRate (b : Nat) (f : Nat → Nat) (s : State) : State :=
  let x := bktNow s b
  setBkt b (some { x with rate := max (rateMin s) (f x.rate) }) s

/-- The path for a first transmission: the most tokens, the lowest number on a tie; of seam paths the most credit. -/
def bestPath (s : State) (dst : Nat) : Option Nat :=
  let seam := ftSeam s dst
  let weight (p : Nat) : Int := match seam with
    | [] => (bktNow s (bktOf dst p)).level
    | l => ((s.link (l.getD p 0)).credits.getD 0 0 : Nat)
  (ftPaths s dst).foldl (fun a p => match a with | none => some p | some q => if weight q < weight p then some p else some q) none

/-- The next path number in rotation after one. -/
def nextPath (s : State) (dst p : Nat) : Option Nat :=
  let l := ftPaths s dst
  match l.find? (fun q => decide (p < q)) with
  | some q => some q
  | none => l.head?

/-- A packet leaves on a path: on a seam link as one transaction, or in a frame queued at the path's MAC in its class. (DEDUCED, log entry 39.) -/
def ftOut (dst p tenant cls : Nat) (pkt : Bytes) (s : State) : State :=
  match (ftSeam s dst)[p]? with
  | some l => linkOut l (.packet pkt) s
  | none =>
    let k := pathMac s p * 128 + 16 * cls + tenant
    { s with net := { s.net with txq := tput [] s.net.txq k (tget [] s.net.txq k ++ [ftFrame s p tenant cls dst pkt]) } }

/-- Answer a packet on a path: a link as 64 + l, or an Ethernet path. (DEDUCED, log entry 39.) -/
def ftReply (path : Nat) (h : FtHdr) (pay : Bytes) (s : State) : State :=
  let pkt := ftPacket { h with path := if 64 ≤ path then 0 else path, time := s.now, src := myFdid s } pay
  if 64 ≤ path then (if (s.link (path - 64)).st == .up then linkOut (path - 64) (.packet pkt) s else s)
  else
    let k := pathMac s path * 128 + 16 * h.cls + h.tenant
    { s with net := { s.net with txq := tput [] s.net.txq k (tget [] s.net.txq k ++ [ftFrame s path h.tenant h.cls h.dst pkt]) } }

/-! ### Messages at the sender (R379 to R381) -/

def ftCount (len mtu : Nat) : Nat := ceilDiv len (2 ^ mtu)

/-- The number of packets of a message: an ATOMIC or a SIGNAL has one. -/
def FtMsg.pkts (m : FtMsg) : Nat := if m.op = 5 ∨ m.op = 0x0A then 1 else ftCount m.len m.mtu

def ftMsgId (m : FtMsg) (i : Nat) : Nat := i + 65536 * m.gen

/-- The header of a message's packets. -/
def msgHdr (s : State) (i : Nat) (m : FtMsg) : FtHdr :=
  { op := m.op, ord := m.ord, path := 0, tenant := m.tenant, src := myFdid s, dst := m.dst, msg := ftMsgId m i, time := s.now, cls := m.cls, mtu := m.mtu }

/-- Put a message into the sender table; an engine's message waits while the table is full. (DEDUCED, log entry 18.) -/
def ftStart (m : FtMsg) (s : State) : State :=
  match (List.range 65536).find? fun i => (s.ftMsg i).isNone with
  | some i =>
    let g := tget 0 s.ft.gens i
    { s with ft := { s.ft with
        msgs := tput none s.ft.msgs i (some { m with gen := g, take := s.ft.take })
        gens := tput 0 s.ft.gens i ((g + 1) % 65536)
        take := s.ft.take + 1 } }
  | none => { s with ft := { s.ft with wait := s.ft.wait ++ [m] } }

/-- The completion entry of a ring's message (R379). -/
def ftEntry (s : State) (st op entry res retx : Nat) (phase : Bool) : Bytes :=
  leBytes 2 st ++ leBytes 1 op ++ leBytes 1 (if phase then 1 else 0) ++ leBytes 4 entry ++ leBytes 8 res ++ leBytes 8 s.now ++ leBytes 4 retx ++ zeros 4

/-- The transport's write of a completion entry, under R42: a refused one writes nothing and is reported. -/
def ftPut (t a : Nat) (b : Bytes) (s : State) : State :=
  if permits s (tenReq t 0x202) a b.length true then (writeMem s a b).1 else refuse (tenReq t 0x202) a b.length s

/-- End a ring's message: the completion entry, then LSYNC (R379). -/
def ftRingEnd (i n st op res retx : Nat) (sig : Option (Xl × Nat)) (s : State) : State :=
  match s.ftRing i with
  | none => s
  | some r =>
    let size := 2 ^ r.log2
    let e := ftEntry s st op n res retx (r.done / size % 2 == 0)
    let s := ftPut (i / 16) (r.cq + r.done % size * 32) e s
    let s := traceHit (i / 16) 7 (i % 16) st n 0 none (s.setFtRing i (some { r with done := r.done + 1 }))
    match sig with
    | some (x, v) => sendSig 0x202 (i / 16) x v none s
    | none => s

/-- A message's end may let an ordered message of its ring begin (R380): the 50 ms without progress (R391) count from there. -/
def ftUnblock (m : FtMsg) (s : State) : State :=
  match m.from_ with
  | .ring k _ =>
    let upd : Nat × Option FtMsg → Nat × Option FtMsg
      | (j, some x) => match x.from_ with
        | .ring k' _ => (j, some (if k' = k ∧ x.ord ∧ x.next = 0 then { x with moved := s.tb.ticks } else x))
        | _ => (j, some x)
      | e => e
    { s with ft := { s.ft with msgs := s.ft.msgs.map upd } }
  | _ => s

/-- The engine behind an engine's message in a TRACE record: 0 the collective engine, 1 the checkpoint and move engines; a remote signal is
given as 2 (R508). (DESIGN CHOICE, log entry 111.) -/
def workEngine (s : State) (id : Nat) : Nat :=
  match findCmd s id with
  | some c => if c.u 0 1 = 5 then 0 else 1
  | none => 1

/-- A message ends with a status (R379, R391): its completion, its signal's fate, or its engine's notice; and the table's entry is free
again. (DEDUCED, log entry 13.) -/
def ftEndMsg (i st res : Nat) (s : State) : State :=
  match s.ftMsg i with
  | none => s
  | some m =>
    let s := ftUnblock m (s.setFtMsg i none)
    let s := match m.from_ with
      | .ring k n => ftRingEnd k n st m.op res m.retx m.sig s
      | .signal _ => traceHit m.tenant 7 0x102 st 0 0 none s
      | .work id part =>
        let s := traceHit m.tenant 7 (0x100 + workEngine s id) st part 0 none s
        let d := (List.range m.pkts).flatMap fun j => tget [] m.got j
        { s with ft := { s.ft with ends := s.ft.ends ++ [(⟨id, part, st, if m.op = 2 then d else []⟩ : FtEnd)] } }
    match s.ft.wait with
    | w :: rest => ftStart w { s with ft := { s.ft with wait := rest } }
    | [] => s

/-- Send a CLOSE (R392): on the message's last path, or the first. (DEDUCED, log entry 13.) -/
def ftClose (i : Nat) (m : FtMsg) (abort : Bool) (s : State) : State :=
  match ftPaths s m.dst with
  | [] => s
  | p :: _ => ftOut m.dst p m.tenant m.cls (ftPacket { msgHdr s i m with op := 9, ord := false, path := p, mlen := if abort then 1 else 0 } []) s

/-- A message ends for another reason than its receiver's FINAL (R392): a CLOSE with ABORT. (DEDUCED, log entry 13.) -/
def ftAbort (i st res : Nat) (s : State) : State :=
  match s.ftMsg i with
  | none => s
  | some m => ftEndMsg i st res (ftClose i m true s)

/-- The receiver's status reasons (R390). -/
def nakStatus (r : Nat) : Option Nat :=
  match r with
  | 1 => some stDenied
  | 2 => some stRevoked
  | 4 => some stUncorr
  | 5 => some stInvalid
  | 6 => some stPeer
  | _ => none

/-! ### Receive entries (R383 to R392) -/

def ftFind (s : State) (src msg : Nat) : Option FtRx := s.ft.rx.find? fun e => e.src == src && e.msg == msg
def modRx (src msg : Nat) (f : FtRx → FtRx) (s : State) : State :=
  { s with ft := { s.ft with rx := lmod (fun e => e.src == src && e.msg == msg) f s.ft.rx } }
def delRx (src msg : Nat) (s : State) : State :=
  { s with ft := { s.ft with rx := s.ft.rx.filter fun e => !(e.src == src && e.msg == msg) } }

/-- The region's admitted count loses one. -/
def ftRelease (e : FtRx) (s : State) : State :=
  match e.region with
  | some k => let g := s.region k; s.setRegion k { g with uses := g.uses - 1 }
  | none => s

def ftAnswer (e : FtRx) (op pidx mlen : Nat) (pay : Bytes) (s : State) : State :=
  ftReply e.path {
    op := op, path := 0, tenant := e.tenant, src := 0, dst := e.src, msg := e.msg, pidx := pidx, mlen := mlen, time := 0,
    cls := e.cls, mtu := e.mtu } pay s

/-- Packets of a receive entry. -/
def FtRx.pkts (e : FtRx) : Nat := if e.op = 5 ∨ e.op = 0x0A then 1 else ftCount e.len e.mtu

/-- CUM: the lowest packet not held. -/
def FtRx.cum (e : FtRx) : Nat := ((List.range (e.pkts + 1)).find? fun i => !e.held.contains i).getD e.pkts

/-- Send an ACK (R389). -/
def ftAck (src msg : Nat) (s : State) : State :=
  match ftFind s src msg with
  | none => s
  | some e =>
    let fin := e.st == .done
    let c := if fin then e.pkts else e.cum
    let sack := ((List.range 128).map fun i => if 0 < i && e.held.contains (c + i) then 2 ^ i else 0).sum
    let s := ftAnswer e 7 c (e.marks % 256 + if fin then 256 else 0) (leBytes 16 sack) s
    modRx src msg (fun e => { e with count := 0, ackDue := none, marks := 0 }) s

/-- Send a NAK for a packet (R390). -/
def ftNak (path : Nat) (h : FtHdr) (reason : Nat) (s : State) : State :=
  ftReply path {
    op := 8, path := 0, tenant := h.tenant, src := 0, dst := h.src, msg := h.msg, pidx := h.pidx, mlen := reason, time := 0,
    cls := h.cls, mtu := h.mtu } [] s

/-- A packet is discarded as bad (R375, R384). -/
def ftDiscard (s : State) : State := sticky none .ftErr 0 0 2 (s.count .ftRxBad 0 0 1)

/-- Checks 2 to 7 of R383: the region entry, or the reason of the NAK. -/
def ftRegion (s : State) (h : FtHdr) (right len align : Nat) : Except Nat Nat :=
  let k := h.key % 8192
  let g := s.region k
  if g.st = 0 ∨ g.gen ≠ h.gen then .error 2
  else if h.key / 8192 ≠ g.key / 8192 then .error 1
  else if g.st ≠ 1 then .error 2
  else if !((g.world && g.tenant == h.tenant) || bit g.share h.tenant) then .error 1
  else if !bit g.rights right then .error 1
  else if h.raddr < g.base ∨ g.base + g.bytes < h.raddr + len then .error 1
  else if h.raddr % align ≠ 0 then .error 5
  else .ok k

/-! ### Engine traffic -/

/-- An engine writes to memory of a peer device through the transport. -/
def ftWorkWrite (id part tenant cls dst key gen raddr : Nat) (data : Bytes) (s : State) : State :=
  ftStart {
    gen := 0, take := 0, from_ := .work id part, tenant := tenant, op := 1, ord := false, cls := cls, dst := dst, key := key, kgen := gen,
    raddr := raddr, len := data.length, mtu := ftMtu s, data := some data, moved := s.tb.ticks } s

/-- An engine reads memory of a peer device. -/
def ftWorkRead (id part tenant cls dst key gen raddr len : Nat) (s : State) : State :=
  ftStart {
    gen := 0, take := 0, from_ := .work id part, tenant := tenant, op := 2, ord := false, cls := cls, dst := dst, key := key, kgen := gen,
    raddr := raddr, len := len, mtu := ftMtu s, data := some [], moved := s.tb.ticks } s

end Sys2Proof.Machine
end

