-- ==== Sys2Proof/Machine/CollOps.lean ====
section
/-! DEFINITION. The collective engine: communicators, the canonical tree and the reductions on it, signatures, the layouts of MOVE
(R256 to R265, R289 to R291). -/
namespace Sys2Proof.Machine

open Sys2Proof

def State.comm (s : State) (k : Nat) : Option Comm := tget none s.ckpt.comms k
def State.setComm (s : State) (k : Nat) (c : Option Comm) : State := { s with ckpt := { s.ckpt with comms := tput none s.ckpt.comms k c } }

/-- The key of a tenant's communicator or layout. (DEDUCED, log entry 16.) -/
def tkey (t n : Nat) : Nat := 256 * t + n

def findColl (s : State) (id : Nat) : Option CollJob := s.ckpt.colls.find? fun j => j.id == id
def modColl (id : Nat) (f : CollJob → CollJob) (s : State) : State :=
  { s with ckpt := { s.ckpt with colls := lmod (fun j => j.id == id) f s.ckpt.colls } }

/-- The object state of a communicator (R216). -/
def commCode (s : State) (k : Nat) : Nat := match s.comm k with | none => 0 | some c => if c.jobs = [] then 1 else 2

/-- The device that holds a rank (R258): the table in memory, read as each collective needs it. -/
def rankFdid (s : State) (c : Comm) (r : Nat) : Nat := leNat (memBytes s (c.map + 8 * r) 4) % 2 ^ 20

/-! ### Elements and their combination (R256 to R263) -/

def elemSize (fmt : Nat) : Nat := if fmt = 11 then 4 else if fmt = 12 then 8 else 2

def fmtLay (fmt : Nat) : Lay := if fmt = 9 then layBF16 else if fmt = 10 then layFP16 else layFP32

/-- A float lane of FP32, BF16 or FP16. (DEDUCED, log entry 14.) -/
def redOf (fmt x : Nat) : FLane := (ieeeVal (fmtLay fmt) x, bit x (8 * elemSize fmt - 1))

def redEnc (fmt : Nat) (v : FLane) : Nat :=
  match v with
  | (.fin m e, n) => if m = 0 then (if n then 2 ^ (8 * elemSize fmt - 1) else 0) else (toFmt fmt false .even (.fin m e)).1
  | (x, _) => (toFmt fmt false .even x).1

/-- ⊕ of ORDERED and UNORDERED (R261): 0 sum, 1 maximum, 2 minimum, rounded to FMT. -/
def redFloat (fmt opn x y : Nat) : Nat :=
  let a := redOf fmt x
  let b := redOf fmt y
  redEnc fmt (if opn = 0 then laneAdd a b else if opn = 1 then laneMax a b else laneMin a b)

/-- A narrow tally with its tag byte (R71). -/
structure NTally where
  v   : Int
  tag : Nat
  deriving DecidableEq, Repr

/-- The term of an element at an anchor, and whether bits were discarded (R262). -/
def exactTerm (fmt x : Nat) (a : Int) : NTally × Bool :=
  match ieeeVal (fmtLay fmt) x with
  | .nan => (⟨0, tagNan⟩, false)
  | .inf n => (⟨0, if n then tagNinf else tagPinf⟩, false)
  | .fin m e =>
    let sh := e - a
    let r := rneInt m sh
    let (v, o) := satInt 64 r
    (⟨v, if o then tagSat else 0⟩, decide (sh < 0) && decide (m.natAbs % 2 ^ (-sh).toNat ≠ 0))

/-- ⊕ of EXACT: integer sum, maximum or minimum; a saturated sum stays; tags are ORed (R262). (DEDUCED, log entry 14.) -/
def redExact (opn : Nat) (x y : NTally) : NTally :=
  let tag := x.tag ||| y.tag
  if opn = 0 then
    if bit x.tag 3 then ⟨x.v, tag⟩
    else if bit y.tag 3 then ⟨y.v, tag⟩
    else let (v, o) := satInt 64 (x.v + y.v); ⟨v, if o then tag ||| tagSat else tag⟩
  else if opn = 1 then ⟨max x.v y.v, tag⟩
  else ⟨min x.v y.v, tag⟩

/-- The result of EXACT in FMT (R262, R67, R69). -/
def exactOut (fmt : Nat) (a : Int) (x : NTally) : Nat :=
  (toFmt fmt false .even (Tally.el ⟨BitVec.ofInt 128 x.v, BitVec.ofNat 4 x.tag⟩ a)).1

/-- One level of the canonical tree: neighbours combine, the lower rank left; a rank with no partner passes its value up (R260). -/
def treeLevel {α : Type} (f : α → α → α) : List α → List α
  | x :: y :: t => f x y :: treeLevel f t
  | l => l

def treeRun {α : Type} (f : α → α → α) : Nat → List α → List α
  | 0, l => l
  | n + 1, l => if l.length ≤ 1 then l else treeRun f n (treeLevel f l)

/-- The canonical tree over the ranks' values (R260). (DEDUCED, log entry 14.) -/
def tree {α : Type} (d : α) (f : α → α → α) (l : List α) : α := (treeRun f l.length l).headD d

/-- UNORDERED: any two values combine, in an order and grouping that nothing states (R253): drawn. (DEDUCED, log entry 14.) -/
def freeTree {α : Type} (f : α → α → α) : Nat → Nat → List α → List α
  | 0, _, l => l
  | n + 1, k, l =>
    if l.length ≤ 1 then l else
      let i := Config.random k % l.length
      let rest := l.eraseIdx i
      let j := Config.random (k + 1) % rest.length
      match l[i]?, rest[j]? with
      | some x, some y => freeTree f n (k + 2) (f x y :: rest.eraseIdx j)
      | _, _ => l

/-! ### Contributions (R259, R264) -/

/-- Element i of an array of one operation's format: its code, or a narrow tally with its tag at the end of the array of `n`. -/
def elemAt (bs : Bytes) (fmt i : Nat) : Nat := fld bs (i * elemSize fmt) (elemSize fmt)

/-- A narrow tally as read: of its tag byte, bits 3:0 as R70 reads it (R71). (DEDUCED, log entry 14.) -/
def ntAt (bs : Bytes) (n i : Nat) : NTally := ⟨sext 64 (fld bs (8 * i) 8), fld bs (8 * n + i) 1 % 16⟩

/-- Bytes of `n` elements, tags included. -/
def arrBytes (fmt n : Nat) : Nat := if fmt = 12 then 9 * n else elemSize fmt * n

/-- Block q of `n` elements of an array of `ranks` blocks. -/
def blockOf (bs : Bytes) (fmt ranks n q : Nat) : Bytes :=
  if fmt = 12 then slice bs (8 * n * q) (8 * n) ++ slice bs (8 * n * ranks + n * q) n else slice bs (elemSize fmt * n * q) (elemSize fmt * n)

/-- The extents that a collective reads and writes on this rank (R259). -/
def collSrc (c : Cmd) (o : Op) (cm : Comm) : Nat × Nat :=
  match o with
  | .allReduce => (c.p 5, arrBytes (c.p 2) (c.p 7))
  | .reduceScatter => (c.p 5, arrBytes (c.p 2) (c.p 7) * cm.ranks)
  | .allGather => (c.p 1, c.p 3)
  | .broadcast => (c.p 2, if c.p 1 = cm.rank then c.p 4 else 0)
  | _ => (c.p 1, c.p 3 * cm.ranks)

def collDst (c : Cmd) (o : Op) (cm : Comm) : Nat × Nat :=
  match o with
  | .allReduce | .reduceScatter => (c.p 6, arrBytes (c.p 2) (c.p 7))
  | .allGather => (c.p 2, c.p 3 * cm.ranks)
  | .broadcast => (c.p 3, c.p 4)
  | _ => (c.p 2, c.p 3 * cm.ranks)

/-- SRC and DST overlap in a way that R259 does not except. -/
def collOverlap (c : Cmd) (o : Op) (cm : Comm) : Bool :=
  let (a, n) := collSrc c o cm
  let (b, k) := collDst c o cm
  overlaps a n b k && !(match o with
    | .allReduce => a == b
    | .allGather => a == b + cm.rank * c.p 3
    | .broadcast => a == b
    | _ => false)

/-- The parameters that a reduction's signature holds, in the order of the command, and their indices there (R264). -/
def sigParams (c : Cmd) : List Nat := [c.p 0, c.p 1, c.p 2, c.p 3, c.p 4, c.p 7]
def sigIndex (i : Nat) : Nat := [0, 1, 2, 3, 4, 7].getD i 0

def isReduction (o : Op) : Bool := o == .allReduce || o == .reduceScatter

/-- What this rank sends to rank q (R259): of an EXACT REDUCE_SCATTER every block, since its status counts the saturations of all (R265).
(DESIGN CHOICE, log entry 15.) -/
def partFor (c : Cmd) (o : Op) (cm : Comm) (src : Bytes) (q : Nat) : Bytes :=
  match o with
  | .reduceScatter => if c.p 1 = 0 then src else blockOf src (c.p 2) cm.ranks (c.p 7) q
  | .allToAll => slice src (q * c.p 3) (c.p 3)
  | _ => src

/-- The ranks whose contribution this rank needs, with its length. (DESIGN CHOICE, log entry 15.) -/
def needs (c : Cmd) (o : Op) (cm : Comm) : List (Nat × Nat) :=
  let all (n : Nat) : List (Nat × Nat) := ((List.range cm.ranks).filter (· != cm.rank)).map fun r => (r, n)
  match o with
  | .allReduce => all (arrBytes (c.p 2) (c.p 7))
  | .reduceScatter => all (if c.p 1 = 0 then arrBytes (c.p 2) (c.p 7) * cm.ranks else arrBytes (c.p 2) (c.p 7))
  | .broadcast => if c.p 1 = cm.rank then [] else [(c.p 1, c.p 4)]
  | _ => all (c.p 3)

/-- The parts of a rank's contribution to an operation. (DESIGN CHOICE, log entry 15.) -/
def partsOf (cm : Comm) (n r : Nat) : List Contrib := cm.parts.filter fun p => p.op == n && p.rank == r

/-- A contribution is whole, or its signature differs from this rank's. -/
def arrived (cm : Comm) (n r len : Nat) (ps : Option (List Nat)) : Bool :=
  match partsOf cm n r with
  | [] => false
  | p :: t => decide (len ≤ ((p :: t).map fun x => x.data.length).sum) || (match ps with | some q => p.params != q | none => false)

def dataOf (cm : Comm) (n r len : Nat) : Bytes :=
  (partsOf cm n r).foldl (fun d p => splice d p.off p.data) (zeros len)

/-- A contribution as the fabric transport carries it: the sender's rank, operation and offset, the signature (R264) and the bases of a MOVE
before the data. (DESIGN CHOICE, log entry 15.) -/
def contribBytes (p : Contrib) : Bytes :=
  leBytes 4 p.rank ++ leBytes 4 p.op ++ leBytes 8 p.off ++ leBytes 4 p.params.length ++ leBytes 4 p.bases.length
    ++ (p.params ++ p.bases).flatMap (leBytes 8) ++ p.data

/-- Send a part to the device of a rank: over the seam on the same board, over the fabric transport otherwise (R258), cut at 4 KiB
(R341). (DESIGN CHOICE, log entry 15.) -/
def contribute (id : Nat) (cm : Comm) (p : Contrib) (r : Nat) (s : State) : State :=
  let f := rankFdid s cm r
  match boardPeer s f with
  | some q =>
    let n := max 1 (ceilDiv p.data.length 4096)
    let s := modColl id (fun j => { j with left := j.left + n }) s
    (List.range n).foldl (fun s i => seamSend q 0x210 i (.coll { p with off := i * 4096, data := (p.data.drop (i * 4096)).take 4096 }) (.work id) s) s
  | none =>
    let s := modColl id (fun j => { j with left := j.left + 1 }) s
    ftWorkWrite id r p.tenant 0 f (Config.peerKey f p.comm) (Config.peerGen f p.comm) (Config.peerBase f p.comm) (contribBytes p) s

/-- The job leaves its communicator. -/
def leaveComm (j : CollJob) (s : State) : State :=
  let k := tkey j.tenant j.comm
  let s := { s with ckpt := { s.ckpt with colls := s.ckpt.colls.filter fun x => x.id != j.id } }
  match s.comm k with
  | some c => s.setComm k (some { c with
      jobs := c.jobs.filter (· != j.id)
      parts := match j.begun with | some n => c.parts.filter fun p => decide (n < p.op) | none => c.parts })
  | none => s

/-- A collective or a MOVE ends: its signal, then its reply (R207). -/
def endColl (j : CollJob) (st w0 w1 w2 : Nat) (s : State) : State :=
  let s := match j.sig with
    | some (x, v) => sendSig 0x210 j.tenant x v none s
    | none => s
  finish j.id st w0 w1 w2 0 (leaveComm j s)

/-! ### Layouts (R289, R290) -/

/-- A layout's fields. -/
structure Layout where
  ndimT : Nat
  ndimM : Nat
  fmt   : Nat
  comm  : Nat
  ext   : List Nat
  blk   : List Nat
  axis  : List Nat
  mesh  : List Nat
  deriving DecidableEq, Repr

def layoutOf (b : Bytes) : Layout :=
  { ndimT := fld b 0 1, ndimM := fld b 1 1, fmt := fld b 2 1, comm := fld b 4 2
    ext := (List.range 4).map fun i => fld b (8 + 4 * i) 4
    blk := (List.range 4).map fun i => fld b (24 + 4 * i) 4
    axis := (List.range 4).map fun i => fld b (40 + i) 1
    mesh := (List.range 4).map fun i => fld b (44 + 2 * i) 2 }

/-- A descriptor of R289: 0 legal, 1 a zero field that is not zero, 2 an illegal field. The communicator's ranks are given where it is
READY. (DEDUCED, log entry 63.) -/
def layoutBad (b : Bytes) (ranks : Option Nat) : Nat :=
  let l := layoutOf b
  let ax := (List.range 4).map fun d => (d, l.axis.getD d 0)
  if fld b 3 1 ≠ 0 ∨ fld b 6 2 ≠ 0 ∨ !allZero (slice b 52 12) then 1
  else if l.ndimT = 0 ∨ 4 < l.ndimT ∨ l.ndimM = 0 ∨ 4 < l.ndimM ∨ ¬(l.fmt = 8 ∨ l.fmt = 9 ∨ l.fmt = 10 ∨ l.fmt = 11) then 2
  else if (List.range 4).any fun d =>
      let e := l.ext.getD d 0
      let k := l.blk.getD d 0
      if d < l.ndimT then e == 0 || k == 0 || decide (e < k) else e != 0 || k != 0 then 2
  else if ax.any fun (d, a) => if d < l.ndimT then decide (l.ndimM ≤ a) && a != 0xFF else a != 0xFF then 2
  else if ax.any fun (d, a) => a != 0xFF && ax.any fun (e, c) => d != e && a == c then 2
  else if (List.range 4).any fun k => decide (k < l.ndimM) && l.mesh.getD k 0 == 0 then 2
  else match ranks with
    | none => 2
    | some n => if (l.mesh.take l.ndimM).foldl (· * ·) 1 = n then 0 else 2

/-- Mesh coordinate k of a rank. -/
def meshCoord (l : Layout) (r k : Nat) : Nat :=
  let p := (l.mesh.take k).foldl (· * ·) 1
  r / p % max 1 (l.mesh.getD k 1)

/-- Dimension d on a rank: parts of the mesh axis and the rank's coordinate on it. -/
def dimOwn (l : Layout) (r d : Nat) : Nat × Nat :=
  let a := l.axis.getD d 0xFF
  if a = 0xFF then (1, 0) else (l.mesh.getD a 1, meshCoord l r a)

/-- The local extent of a dimension on a rank: the sizes of the blocks it owns. -/
def localExt (l : Layout) (r d : Nat) : Nat :=
  let e := l.ext.getD d 1
  if d ≥ l.ndimT then 1
  else if l.axis.getD d 0xFF = 0xFF then e
  else
    let b := l.blk.getD d 1
    let (p, c) := dimOwn l r d
    (((List.range (ceilDiv e b)).filter fun k => k % p == c).map fun k => min b (e - k * b)).sum

/-- Elements of the local array. -/
def localCount (l : Layout) (r : Nat) : Nat := ((List.range 4).map (localExt l r)).foldl (· * ·) 1

/-- The global index of local index i of a dimension on a rank. -/
def globalIdx (l : Layout) (r d i : Nat) : Nat :=
  if l.axis.getD d 0xFF = 0xFF then i
  else
    let b := l.blk.getD d 1
    let (p, c) := dimOwn l r d
    (i / b * p + c) * b + i % b

/-- The local index of a global index, and the coordinate that owns it. -/
def localIdx (l : Layout) (d i : Nat) : Nat × Nat :=
  if l.axis.getD d 0xFF = 0xFF then (i, 0)
  else
    let b := l.blk.getD d 1
    let p := l.mesh.getD (l.axis.getD d 0) 1
    (i / b / p * b + i % b, i / b % p)

/-- The indices of a row-major element number under given extents. -/
def unrow : List Nat → Nat → List Nat
  | [], _ => []
  | _ :: t, n =>
    let k := t.foldl (· * ·) 1
    n / max 1 k :: unrow t (n % max 1 k)

def row : List Nat → List Nat → Nat
  | _ :: es, i :: is => i * es.foldl (· * ·) 1 + row es is
  | _, _ => 0

/-- Whether a rank's copy is the one that is read: coordinate 0 on the axes no dimension names (R290). -/
def isSource (l : Layout) (r : Nat) : Bool :=
  (List.range l.ndimM).all fun k => l.axis.contains k || meshCoord l r k == 0

/-- The places of an element on the target side: each rank that holds it, with the element's number in its local array. -/
def targets (l : Layout) (ranks : Nat) (idx : List Nat) : List (Nat × Nat) :=
  (List.range ranks).filterMap fun r =>
    let loc := (List.range 4).map fun d => if d < l.ndimT then localIdx l d (idx.getD d 0) else (0, 0)
    if (List.range l.ndimT).all fun d => (dimOwn l r d).2 == (loc.getD d (0, 0)).2 then
      some (r, row ((List.range 4).map (localExt l r)) (loc.map (·.1)))
    else none

/-- Copies of a MOVE from this rank: target rank, offset above its base, bytes, joined where they run on, cut at the target's pages (R326, R341). -/
def joinRun (l : List (Nat × Nat × Bytes)) (base r o : Nat) (b : Bytes) : List (Nat × Nat × Bytes) :=
  match l with
  | (r0, o0, b0) :: t => if r0 = r ∧ o0 + b0.length = o ∧ (base + o) % 4096 ≠ 0 then (r0, o0, b0 ++ b) :: t else (r, o, b) :: l
  | [] => [(r, o, b)]

/-- What a MOVE copies from this rank: for each run the target rank, the offset above its base and the bytes, in the order of the destination placement
(R290, R291). (DESIGN CHOICE, log entry 17.) -/
def moveRuns (a b : Layout) (ranks rank : Nat) (base : Nat → Nat) (src : Bytes) : List (Nat × Nat × Bytes) :=
  let sz := if a.fmt = 8 then 1 else elemSize a.fmt
  let exts := (List.range 4).map (localExt a rank)
  ((List.range ranks).flatMap fun r =>
    ((List.range (localCount a rank)).foldl (fun acc n =>
      let idx := ((unrow exts n).zipIdx).map fun (i, d) => globalIdx a rank d i
      match (targets b ranks idx).find? fun e => e.1 == r with
      | some (_, m) => joinRun acc (base r) r (m * sz) (slice src (n * sz) sz)
      | none => acc) []).reverse)

end Sys2Proof.Machine
end

