-- ==== Sys2Proof/Machine/CkptOps.lean ====
section
/-! DEFINITION. The checkpoint engine: save lists, shards, manifests, commit records, saves, restores, drains and rank takes as far as
they go by themselves, and the progress of collectives and moves (R259 to R265, R270 to R291). -/
namespace Sys2Proof.Machine

open Sys2Proof

def State.ckSlot (s : State) (t k : Nat) : CkSlot := tget {} s.ckpt.slots (2 * t + k)
def State.setCkSlot (s : State) (t k : Nat) (x : CkSlot) : State :=
  { s with ckpt := { s.ckpt with slots := tput {} s.ckpt.slots (2 * t + k) x } }
def poolsOf (s : State) (t : Nat) : List Pool := tget [] s.ckpt.pools t

/-- The pool indices of a mask, ascending. -/
def maskPools (m : Nat) : List Nat := (List.range 64).filter fun i => bit m i

def roundUp (n k : Nat) : Nat := ceilDiv n k * k

/-! ### Lists, shards, manifests (R270 to R277) -/

/-- Entry i of a save list. -/
def listEntry (l : Bytes) (i : Nat) : Bytes := slice l (64 + 32 * i) 32
def listCount (l : Bytes) : Nat := (l.length - 64) / 32

/-- Plaintext bytes of an entry. -/
def entryBytes (e : Bytes) : Nat := if fld e 0 1 = 3 then 64 else fld e 16 8

/-- The shards of an entry: offset and bytes (R272). -/
def entryShards (e : Bytes) : List (Nat × Nat) :=
  let n := entryBytes e
  if fld e 0 1 = 1 then (List.range (ceilDiv n 0x10000000)).map fun i => (i * 0x10000000, min 0x10000000 (n - i * 0x10000000))
  else [(0, n)]

/-- Place shards in the pools of a save (R275): in turn over the pools, consecutive in each, at 4 KiB boundaries. -/
def placeShards (pools : List Nat) (l : Bytes) : List Shard :=
  let raw := (List.range (listCount l)).flatMap fun i => (entryShards (listEntry l i)).map fun (o, n) => (i, o, n)
  ((raw.zipIdx).foldl (fun (acc : List Shard × Tbl Nat) ((i, o, n), j) =>
    let p := pools.getD (j % max 1 pools.length) 0
    let at_ := tget 0x100000 acc.2 p
    (acc.1 ++ [{ entry := i, off := o, bytes := n, pool := p, at_ := at_ }], tput 0x100000 acc.2 p (at_ + roundUp (64 + n) 4096))) ([], [])).1

/-- Every pool has room for its shards. -/
def shardsFit (s : State) (t : Nat) (l : List Shard) : Bool :=
  l.all fun x => decide (x.at_ + 64 + x.bytes ≤ ((poolsOf s t)[x.pool]?.map (·.bytes)).getD 0 / 2)

/-- The header of a shard, TAG given (R273). -/
def shardHead (step rank j : Nat) (x : Shard) (iv : Nat) (tag : Bytes) : Bytes :=
  leBytes 8 step ++ leBytes 4 rank ++ leBytes 4 j ++ leBytes 4 x.entry ++ leBytes 4 x.bytes ++ leBytes 4 j ++ leBytes 8 iv ++ zeros 4
    ++ fit 16 tag ++ zeros 8

/-- The initialisation vector: the shard number below the IV time. -/
def shardIv (j iv : Nat) : Bytes := leBytes 4 j ++ leBytes 8 iv

/-- The shard as it goes to its pool. -/
def shardOut (key : Bytes) (step rank j : Nat) (x : Shard) (iv : Nat) : Bytes :=
  let aad := (shardHead step rank j x iv []).take 40
  let ct := gcmCrypt key (shardIv j iv) (fit x.bytes x.plain)
  shardHead step rank j x iv (gcmTag key (shardIv j iv) aad ct) ++ ct

/-- The manifest (R276). -/
def manifest (slot rank step iv keySlot pools : Nat) (sig list : Bytes) (shards : List Shard) : Bytes :=
  leBytes 2 1 ++ leBytes 1 slot ++ zeros 1 ++ leBytes 4 rank ++ leBytes 8 step ++ leBytes 8 iv ++ leBytes 4 shards.length
    ++ leBytes 4 (listCount list) ++ leBytes 2 keySlot ++ zeros 6 ++ leBytes 8 pools ++ zeros 16 ++ fit 64 sig ++ zeros 128
    ++ list.drop 64
    ++ shards.flatMap fun x => leBytes 1 x.pool ++ zeros 3 ++ leBytes 4 x.entry ++ leBytes 8 x.at_ ++ leBytes 8 x.off ++ leBytes 4 x.bytes
      ++ zeros 4 ++ fit 64 x.digest

/-- The commit record (R277). -/
def commitRec (slot state rank step iv shards : Nat) (man : Bytes) : Bytes :=
  let b := leBytes 2 1 ++ leBytes 1 slot ++ leBytes 1 state ++ leBytes 4 rank ++ leBytes 8 step ++ leBytes 8 iv ++ leBytes 4 shards
    ++ leBytes 4 man.length ++ fit 64 (sha3 man)
  b ++ fit 32 (sha3 b)

/-- The commit record with STATE 0x00 that opens a save or a drain (log entry 48). -/
def commitVoid (slot : Nat) : Bytes := fit 128 (leBytes 2 1 ++ leBytes 1 slot)

def commitValid (b : Bytes) : Bool := fld b 3 1 == 1 && slice b 96 32 == fit 32 (sha3 (slice b 0 96))

/-- Fields of a manifest. -/
def manShards (m : Bytes) : Nat := fld m 24 4
def manEntries (m : Bytes) : Nat := fld m 28 4
def manList (m : Bytes) : Bytes := zeros 64 ++ slice m 256 (32 * manEntries m)
def manShard (m : Bytes) (j : Nat) : Shard :=
  let b := slice m (256 + 32 * manEntries m + 96 * j) 96
  { entry := fld b 4 4, off := fld b 16 8, bytes := fld b 24 4, pool := fld b 0 1, at_ := fld b 8 8, digest := slice b 32 64 }

/-- Offset of each shard in the staging area, each rounded up to 4 KiB (R283). -/
def stageOff (sizes : List Nat) (j : Nat) : Nat := ((sizes.take j).map fun n => roundUp n 4096).sum

def stageNeed (sizes : List Nat) : Nat := (sizes.map fun n => roundUp n 4096).sum
def stageBase (s : State) (t : Nat) : Nat := s.reg .ckpStageBase t
def stageSize (s : State) (t : Nat) : Nat := s.reg .ckpStageBytes t

/-- Whether a tenant may use a slot in a mode: none, or the slot's state code (R455). -/
def slotNo (s : State) (t slot mode : Nat) : Option Nat :=
  let k := tget {} s.keys slot
  if k.mode = 0 then some 0 else if k.mode = mode ∧ bit k.grant t then none else some 1

/-- Whether a save or a restore of a tenant may use a slot: LOADED with a GCM key and granted to it (R270, R455), and no debug port open
since the cold reset (R465); else the slot's state code. (DEDUCED, log entry 89.) -/
def ckptKeyNo (s : State) (t slot : Nat) : Option Nat :=
  if bit (s.reg .glbSecSts) 6 then some (if (tget {} s.keys slot).mode = 0 then 0 else 1) else slotNo s t slot 1

/-- A key slot serves the saves and restores of a tenant. -/
def keyServes (s : State) (t n : Nat) : Bool := (ckptKeyNo s t n).isNone

/-! ### Pool traffic (R274, R275) -/

def poolAt (s : State) (t p : Nat) : Pool := (poolsOf s t).getD p ⟨0, 0, 0⟩

/-- The address of an offset in a slot area, at the peer. -/
def poolAddr (s : State) (t p slot off : Nat) : Nat :=
  let x := poolAt s t p
  Config.peerBase x.fdid x.key + slot * (x.bytes / 2) + off

def poolWrite (id part t cls p slot off : Nat) (b : Bytes) (s : State) : State :=
  let x := poolAt s t p
  ftWorkWrite id part t cls x.fdid x.key (Config.peerGen x.fdid x.key % 256) (poolAddr s t p slot off) b s

def poolRead (id part t cls p slot off n : Nat) (s : State) : State :=
  let x := poolAt s t p
  ftWorkRead id part t cls x.fdid x.key (Config.peerGen x.fdid x.key % 256) (poolAddr s t p slot off) n s

/-! ### Saves (R278 to R280) -/

def findSave (s : State) (id : Nat) : Option Save := s.ckpt.saves.find? fun x => x.id == id
def modSave (id : Nat) (f : Save → Save) (s : State) : State := { s with ckpt := { s.ckpt with saves := lmod (fun x => x.id == id) f s.ckpt.saves } }

def ckptErr (t m : Nat) (s : State) : State := sticky (some t) .ckpErr t 0 m s

/-- The streams a save list names. -/
def listStreams (l : Bytes) : List Nat :=
  (List.range (listCount l)).filterMap fun i => let e := listEntry l i; if fld e 0 1 = 3 then some (fld e 2 2 % 256) else none

/-- Streams that a capture held deliver again (R363). -/
def resumeStreams (l : List Nat) (s : State) : State :=
  l.foldl (fun s st => closeReady st (s.setStream st { s.stream st with held := false })) s

/-- A save stops (R280): its slot becomes EMPTY. -/
def saveStop (x : Save) (st w0 w1 : Nat) (s : State) : State :=
  let s := { s with ckpt := { s.ckpt with saves := s.ckpt.saves.filter fun y => y.id != x.id } }
  let s := if x.phase = 3 then resumeStreams (listStreams x.list) s else s
  let s := ckptErr x.tenant 1 (s.setCkSlot x.tenant x.slot {})
  finish x.id st w0 w1 0 0 s

/-- Write the commit record of the next pool (step 6). -/
def saveCommit (x : Save) (s : State) : State :=
  match x.todo with
  | [] => s
  | p :: rest =>
    let r := (tget none s.ckpt.ranks x.tenant).getD 0
    poolWrite x.id p x.tenant (fld x.list 2 1) p x.slot 0 (commitRec x.slot 1 r x.step x.iv x.shards.length x.man)
      (modSave x.id (fun y => { y with todo := rest, left := 1 }) s)

/-- A message of a save ends: one that fails stops the save, once no other message of it is under way (R197, R280). -/
def saveEnd (x : Save) (e : FtEnd) (s : State) : State :=
  if x.phase = 6 then
    if e.st = stOk then saveCommit x (modSave x.id (fun y => { y with left := 0, acked := y.acked + 1 }) s)
    else if x.acked = 0 then saveStop x e.st 0 0 s
    else ckptErr x.tenant 4 (modSave x.id (fun y => { y with left := 0, todo := [] }) s)
  else
    let st := x.fail.getD e.st
    if st = stOk then modSave x.id (fun y => { y with left := y.left - 1 }) s
    else if x.left ≤ 1 then saveStop x st 0 0 s
    else modSave x.id (fun y => { y with left := y.left - 1, fail := some st }) s

/-! ### Restores (R283 to R285) -/

def findRest (s : State) (id : Nat) : Option Restore := s.ckpt.rests.find? fun x => x.id == id
def modRest (id : Nat) (f : Restore → Restore) (s : State) : State := { s with ckpt := { s.ckpt with rests := lmod (fun x => x.id == id) f s.ckpt.rests } }

/-- A restore ends: the slot is VALID again, or DRAINING (R281). -/
def restEnd (x : Restore) (st w0 w1 w2 : Nat) (s : State) : State :=
  let k := s.ckSlot x.tenant x.slot
  let s := { s with ckpt := { s.ckpt with rests := s.ckpt.rests.filter fun y => y.id != x.id } }
  let s := s.setCkSlot x.tenant x.slot { k with st := if k.draining then 4 else 2 }
  finish x.id st w0 w1 w2 0 (if st = stOk then s else ckptErr x.tenant 2 s)

/-- The staging area, or so much of it: tenant memory of HBM or LPDDR5X (R42, R283). -/
def stageGranted (s : State) (t n : Nat) : Bool :=
  n == 0 || ((match (place s (stageBase s t)).1 with | .hbm | .lpx => true | _ => false)
    && permits s (tenReq t 0x211) (stageBase s t) n true && permits s (tenReq t 0x211) (stageBase s t) n false)

/-- The destinations of a save list are the tenant's to write (R42, R284, R361). -/
def listGranted (s : State) (t : Nat) (l : Bytes) : Bool :=
  (List.range (listCount l)).all fun i =>
    let e := listEntry l i
    if fld e 0 1 = 3 then (match (s.stream (fld e 2 2 % 256)).owner with | some x => x == t | none => true)
    else entryBytes e == 0 || permits s (tenReq t 0x211) (fld e 8 8) (entryBytes e) true

/-- What a restore's destinations or its staging area are refused with. -/
def restRefused (s : State) (t n : Nat) (l : Bytes) : List (Nat × Nat) :=
  (stageBase s t, n) :: (List.range (listCount l)).map fun i => (fld (listEntry l i) 8 8, if fld (listEntry l i) 0 1 = 3 then 0 else entryBytes (listEntry l i))

/-- An OPEN stream that a save list names. -/
def listOpen (s : State) (l : Bytes) : Option Nat := (listStreams l).find? fun st => (s.stream st).isOpen

def manSizes (m : Bytes) : List Nat := (List.range (manShards m)).map fun j => (manShard m j).bytes

/-- Read the commit record of the next pool (step 1); with none left no copy has matched (step 2). -/
def restTry (x : Restore) (s : State) : State :=
  match x.cand with
  | [] => restEnd x stAuth 0xFFFFFFFF 0 0 s
  | p :: _ =>
    let x := { x with phase := 0 }
    poolRead x.id p x.tenant 0 p x.slot 0 128 (modRest x.id (fun _ => x) s)

/-- Read the next shard, in shard order; after the last everything is staged. -/
def restShard (x : Restore) (s : State) : State :=
  if manShards x.man ≤ x.next then modRest x.id (fun _ => { x with phase := 3 }) s
  else
    let h := manShard x.man x.next
    poolRead x.id x.next x.tenant 0 h.pool x.slot h.at_ (64 + h.bytes) (modRest x.id (fun _ => x) s)

/-- The manifest of a copy matches (steps 3 and 4): what it names is tested again where it is not what the slot holds, and its shards are read. (DEDUCED, log entry 49.) -/
def restPlan (x : Restore) (s : State) : State :=
  let l := manList x.man
  let no := ckptKeyNo s x.tenant (fld x.man 32 2)
  if fld x.com 8 8 ≠ x.step then restEnd x stMixed 0xFFFFFFFF 0 0 s
  else if x.sig ≠ slice x.man 64 64 ∨ x.sig ≠ tget [] s.ckpt.sigs x.tenant then restEnd x stShape 0 0 0 s
  else if !listGranted s x.tenant l then
    let e := restRefused s x.tenant 0 l
    restEnd x (refusedOf s (tenReq x.tenant 0x211) e) 0 0 0 (refuseOf s (tenReq x.tenant 0x211) e)
  else match no, listOpen s l with
    | some w1, _ => restEnd x stDenied 0 w1 0 s
    | none, some st => restEnd x stConflict (0x0A + st * 256) 1 0 s
    | none, none =>
      if stageSize s x.tenant < stageNeed (manSizes x.man) then restEnd x stNoResource 0 0 0 s
      else if !stageGranted s x.tenant (stageNeed (manSizes x.man)) then
        let e := restRefused s x.tenant (stageNeed (manSizes x.man)) []
        restEnd x (refusedOf s (tenReq x.tenant 0x211) e) 0 0 0 (refuseOf s (tenReq x.tenant 0x211) e)
      else restShard { x with phase := 2, next := 0 } s

/-- A shard is checked and its plaintext written to the staging area (step 5); one of more than 64 KiB whose tag fails leaves zeros there
(R461). -/
def restStage (x : Restore) (b : Bytes) (s : State) : State :=
  let j := x.next
  let sh := manShard x.man j
  let key := (tget {} s.keys (fld x.man 32 2)).key
  let at_ := stageBase s x.tenant + stageOff (manSizes x.man) j
  let aad := b.take 40
  let plain := fit sh.bytes (gcmCrypt key (slice b 24 12) (b.drop 64))
  if fld b 0 8 ≠ x.step then restEnd x stMixed j 0 0 s
  else if sha3 b ≠ sh.digest then restEnd x stAuth j 0 0 s
  else if gcmTag key (slice b 24 12) aad (fit sh.bytes (b.drop 64)) ≠ slice b 40 16 then
    restEnd x stAuth j 0 0 (if 65536 < sh.bytes then (writeMem s at_ (zeros sh.bytes)).1 else s)
  else match writeMem s at_ plain with
    | (s, none) => restShard { x with next := j + 1 } s
    | (s, some a) => restEnd x stUncorr (a % 2 ^ 32) (a / 2 ^ 32) 0 s

/-- A pool read of a restore has ended. -/
def restGot (x : Restore) (e : FtEnd) (s : State) : State :=
  if e.st ≠ stOk then restEnd x e.st 0 0 0 s
  else match x.phase with
    | 0 =>
      if commitValid e.data then
        let x := { x with phase := 1, com := e.data }
        poolRead x.id e.part x.tenant 0 e.part x.slot 0x1000 (max 1 (fld e.data 28 4)) (modRest x.id (fun _ => x) s)
      else restTry { x with cand := x.cand.drop 1 } s
    | 1 =>
      if sha3 e.data = slice x.com 32 64 then restPlan { x with man := e.data } s else restTry { x with cand := x.cand.drop 1 } s
    | 2 => restStage x e.data s
    | _ => s

/-! ### Drains (R282) -/

def modDrain (id : Nat) (f : DrainJob → DrainJob) (s : State) : State := { s with ckpt := { s.ckpt with drains := lmod (fun x => x.id == id) f s.ckpt.drains } }

/-- The void commit record of a pool in a drain's image. -/
def voidPiece (slot p image : Nat) : Piece := { pool := p, off := 0, bytes := 4096, image := image, data := some (fit 4096 (commitVoid slot)) }

/-- Where a pool's area lies in a drain's image. -/
def imageOf (s : State) (t : Nat) (k : CkSlot) (p : Nat) : Nat :=
  (((maskPools k.pools).takeWhile (· != p)).map fun q => (poolAt s t q).bytes / 2).sum

/-- The pieces of a drain: every commit position with STATE 0x00, then manifests and shards in whole blocks, then the commit
records, read first and written last. -/
def drainPieces (s : State) (t slot : Nat) (k : CkSlot) : List Piece :=
  let ps := maskPools k.pools
  let img (p : Nat) : Nat := imageOf s t k p
  let shards := (List.range (manShards k.man)).map (manShard k.man)
  (ps.map fun p => voidPiece slot p (img p))
    ++ (ps.map fun p => { pool := p, off := 0x1000, bytes := roundUp k.man.length 4096, image := img p + 0x1000 })
    ++ (shards.map fun x => { pool := x.pool, off := x.at_, bytes := roundUp (64 + x.bytes) 4096, image := img x.pool + x.at_ })
    ++ (ps.map fun p => { pool := p, off := 0, bytes := 4096, image := img p, hold := true })
    ++ (ps.map fun p => { pool := p, off := 0, bytes := 4096, image := img p, fin := true })

/-- Write a piece to the volume as a command of the storage service (R413). -/
def drainWrite (x : DrainJob) (p : Piece) (b : Bytes) (s : State) : State :=
  let n := s.sto.take
  let o : StoOp := { take := n, for_ := .drain x.id, held := true, op := 2, vol := x.vol, lba := p.image / 4096, count := p.bytes / 4096, data := fit p.bytes b,
                     parts := writeParts 2 (p.image / 4096) (p.bytes / 4096) }
  let s := { s with sto := { s.sto with take := n + 1, ops := s.sto.ops ++ [o] } }
  stoRun (modDrain x.id (fun y => { y with write := some n }) s)

/-- Begin the first piece of a drain. -/
def drainNext (x : DrainJob) (s : State) : State :=
  match x.todo with
  | [] => s
  | p :: _ =>
    if p.fin then drainWrite x p (tget [] x.com p.pool) s
    else match p.data with
      | some b => drainWrite x p b s
      | none => poolRead x.id p.pool x.tenant (s.ckSlot x.tenant x.slot).cls p.pool x.slot p.off p.bytes s

/-- A drain goes on as given. -/
def drainOn (x : DrainJob) (s : State) : State := drainNext x (modDrain x.id (fun _ => x) s)

/-- A piece of a drain fails: it copies no more, and voids the commit records it has written (R282). -/
def drainFail (x : DrainJob) (st r0 r1 : Nat) (s : State) : State :=
  if x.st ≠ stOk then drainOn { x with todo := x.todo.drop 1, write := none } s
  else drainOn { x with
    st := st, r0 := r0, r1 := r1, write := none
    todo := x.fin.map fun p => voidPiece x.slot p (imageOf s x.tenant (s.ckSlot x.tenant x.slot) p) } s

/-- A piece of a drain has been written, or has failed. -/
def drainGo (s : State) (x : DrainJob) : State :=
  match x.write with
  | none => s
  | some n => match s.sto.ops.find? fun o => o.take == n with
    | none => s
    | some o =>
      if !o.ended then s
      else if o.st ≠ 0 then drainFail x o.st o.r0 o.r1 (dropOp n s)
      else
        let fin := match x.todo with | p :: _ => if p.fin then p.pool :: x.fin else x.fin | [] => x.fin
        drainOn { x with todo := x.todo.drop 1, write := none, fin := fin } (dropOp n s)

/-- A pool read of a drain has ended. -/
def drainGot (x : DrainJob) (e : FtEnd) (s : State) : State :=
  if e.st ≠ stOk then drainFail x e.st 0 0 s
  else match x.todo with
    | p :: _ => if p.hold then drainOn { x with todo := x.todo.drop 1, com := tput [] x.com p.pool e.data } s else drainWrite x p e.data s
    | [] => s

/-! ### Rank takes (R287, R288) -/

def modTake (id : Nat) (f : TakeJob → TakeJob) (s : State) : State := { s with ckpt := { s.ckpt with takes := lmod (fun x => x.id == id) f s.ckpt.takes } }

/-- The commit records that carry the rank: slot × 64 + pool. -/
def takeFound (x : TakeJob) : List Nat := (x.com.filter fun (_, b) => commitValid b && fld b 4 4 == x.rank).map (·.1)

def takeGot (x : TakeJob) (e : FtEnd) (s : State) : State :=
  let x := { x with left := x.left - 1 }
  let x := if e.st ≠ stOk then { x with st := e.st }
    else if x.phase = 0 then { x with com := tput [] x.com e.part e.data } else { x with man := tput [] x.man e.part e.data }
  let l := if x.left = 0 ∧ x.phase = 0 then takeFound x else []
  let x := if x.left = 0 ∧ x.phase = 0 then { x with phase := 1, left := l.length } else x
  l.foldl (fun s k => poolRead x.id k x.tenant 0 (k % 64) (k / 64) 0x1000 (max 1 (fld (tget [] x.com k) 28 4)) s) (modTake x.id (fun _ => x) s)

/-! ### Collectives and moves (R259 to R265, R291) -/

/-- A collective or a MOVE has failed: the first failure stands, and the reply follows once no transfer of it is under way (R197). -/
def collFail (id st w0 w1 : Nat) (s : State) : State := modColl id (fun j => { j with fail := some (j.fail.getD (st, w0, w1)) }) s

/-- Begin a collective: its source is read and its contributions leave. -/
def collBegin (j : CollJob) (c : Cmd) (o : Op) (k : Nat) (cm : Comm) (s : State) : State :=
  let (a, n) := collSrc c o cm
  match readMem s a n with
  | (s, .error e) => collFail j.id stUncorr (e % 2 ^ 32) (e / 2 ^ 32) s
  | (s, .ok src) =>
    let fmt := c.p 2
    let inex := if isReduction o ∧ c.p 1 = 0 ∧ fmt ≠ 12 then
        ((List.range (n / elemSize fmt)).filter fun i => (exactTerm fmt (elemAt src fmt i) (sext 16 (c.p 4))).2).length else 0
    let s := s.setComm k (some { cm with next := cm.next + 1 })
    let s := modColl j.id (fun j => { j with begun := some cm.next, inex := min inex 0xFFFFFFFF }) s
    let dest := if o = .broadcast ∧ c.p 1 ≠ cm.rank then [] else (List.range cm.ranks).filter (· != cm.rank)
    dest.foldl (fun s r => contribute j.id cm
      ⟨j.tenant, j.comm, cm.rank, cm.next, if isReduction o then sigParams c else [], 0, partFor c o cm src r, []⟩ r s) s

/-- The values of an element at every rank, in rank order. -/
def rankData (s : State) (c : Cmd) (o : Op) (cm : Comm) (n : Nat) : List Bytes :=
  let (a, len) := collSrc c o cm
  let mine := partFor c o cm (memBytes s a len) cm.rank
  (List.range cm.ranks).map fun r =>
    if r = cm.rank then mine else dataOf cm n r (((needs c o cm).find? fun e => e.1 == r).map (·.2) |>.getD 0)

/-- The result of a reduction of `n` elements and the number of saturated elements (R260 to R262). -/
def reduce (c : Cmd) (n : Nat) (ds : List Bytes) (draw : Nat) : Bytes × Nat :=
  let fmt := c.p 2
  let opn := c.p 3
  let a := sext 16 (c.p 4)
  if c.p 1 = 0 then
    let el (b : Bytes) (i : Nat) : NTally := if fmt = 12 then ntAt b n i else (exactTerm fmt (elemAt b fmt i) a).1
    let r := (List.range n).map fun i => tree ⟨0, 0⟩ (redExact opn) (ds.map fun b => el b i)
    let sat := (r.filter fun x => bit x.tag 3).length
    if fmt = 12 then ((r.flatMap fun x => leBytes 8 (wrapInt 64 x.v)) ++ r.flatMap fun x => leBytes 1 x.tag, sat)
    else (r.flatMap fun x => leBytes (elemSize fmt) (exactOut fmt a x), sat)
  else
    let f := redFloat fmt opn
    ((List.range n).flatMap fun i =>
      let vs := ds.map fun b => elemAt b fmt i
      leBytes (elemSize fmt) (if c.p 1 = 1 then tree 0 f vs else (freeTree f vs.length (draw + 2 * vs.length * i) vs).headD 0), 0)

/-- The signatures that reached this rank, in rank order. -/
def signatures (cm : Comm) (n : Nat) (mine : List Nat) : List (List Nat) :=
  (List.range cm.ranks).map fun r => if r = cm.rank then mine else ((partsOf cm n r).head?.map (·.params)).getD mine

/-- The lowest rank whose signature differs from rank 0's, and the first parameter that does (R264). -/
def mismatch (sigs : List (List Nat)) : Option (Nat × Nat) :=
  let z := sigs.headD []
  (sigs.zipIdx.find? fun e => e.1 != z).map fun (p, r) =>
    (r, ((List.range (max p.length z.length)).find? fun i => p.getD i 0 != z.getD i 0 || decide (min p.length z.length ≤ i)).getD 0)

/-- What this rank writes of a reduction's result: all, or its block. -/
def resultPart (c : Cmd) (o : Op) (cm : Comm) (out : Bytes) : Bytes :=
  if o = .reduceScatter ∧ c.p 1 = 0 then blockOf out (c.p 2) cm.ranks (c.p 7) cm.rank else out

/-- Elements that this rank reduces: in EXACT mode every block, so that every rank meets every saturation (R265). (DESIGN CHOICE, log entry 15.) -/
def reduceCount (c : Cmd) (o : Op) (cm : Comm) : Nat := if o = .reduceScatter ∧ c.p 1 = 0 then cm.ranks * c.p 7 else c.p 7

/-- Write a collective's result and end it. -/
def collWrite (j : CollJob) (c : Cmd) (o : Op) (cm : Comm) (n : Nat) (s : State) : State :=
  let (b, len) := collDst c o cm
  let put (bs : Bytes) (k : State → State) : State := match writeMem s b bs with
    | (s, none) => k s
    | (s, some a) => endColl j stUncorr (a % 2 ^ 32) (a / 2 ^ 32) 0 s
  let ds := rankData s c o cm n
  match o with
  | .allReduce | .reduceScatter =>
    match mismatch (signatures cm n (sigParams c)) with
    | some (r, i) => endColl j stInvalid (paramOff o (sigIndex i)) r 0 s
    | none =>
      let (out, sat) := reduce c (reduceCount c o cm) ds s.fresh
      put (resultPart c o cm out) fun s =>
        let s := if c.p 1 = 2 then { s with fresh := s.fresh + 2 * cm.ranks * c.p 7 } else s
        if sat = 0 then endColl j stOk j.inex 0 0 s else endColl j stTallyRange j.inex (min sat 0xFFFFFFFF) 0 s
  | .broadcast =>
    put (if c.p 1 = cm.rank then memBytes s (c.p 2) len else ds.getD (c.p 1) []) fun s => endColl j stOk 0 0 0 s
  | _ => put (ds.flatMap id) fun s => endColl j stOk 0 0 0 s

/-- An entry of a MOVE's LIST: SRC, DST, TENSOR. -/
def moveEntry (l : Bytes) (i : Nat) : Nat × Nat × Nat := (fld l (32 * i) 8, fld l (32 * i + 8) 8, fld l (32 * i + 16) 4)
def moveCount (l : Bytes) : Nat := l.length / 32

/-- A tenant's layout by number (R289). (DEDUCED, log entry 16.) -/
def layoutAt (s : State) (t n : Nat) : Layout := layoutOf (tget [] s.ckpt.layouts (tkey t n))
def layBytes (l : Layout) (r : Nat) : Nat := localCount l r * if l.fmt = 8 then 1 else elemSize l.fmt

/-- The parameters that ranks compare before a MOVE writes (R291). -/
def moveParams (c : Cmd) (l : Bytes) : List Nat := [c.p 0, c.p 1, c.p 2] ++ (List.range (moveCount l)).map fun i => (moveEntry l i).2.2

def moveBases (l : Bytes) : List Nat := (List.range (moveCount l)).map fun i => (moveEntry l i).2.1

/-- Begin a MOVE: the signature and this rank's destinations go to every rank. -/
def moveBegin (j : CollJob) (c : Cmd) (k : Nat) (cm : Comm) (s : State) : State :=
  let dest := layoutAt s j.tenant (c.p 1)
  let s := s.setComm k (some { cm with next := cm.next + 1 })
  let s := modColl j.id (fun j => { j with begun := some cm.next, need := layBytes dest cm.rank * moveCount j.list, span := layBytes dest cm.rank }) s
  ((List.range cm.ranks).filter (· != cm.rank)).foldl (fun s r => contribute j.id cm
    ⟨j.tenant, j.comm, cm.rank, cm.next, moveParams c j.list, 0, [], moveBases j.list⟩ r s) s

/-- One run of a MOVE's copies: a local one is written at once, another goes to its rank's device. -/
def moveRun (j : CollJob) (cm : Comm) (dst base r o : Nat) (d : Bytes) (s : State) : State :=
  if r = cm.rank then
    match writeMem s (dst + o) d with
    | (s, none) => modColl j.id (fun j => { j with need := j.need - d.length }) s
    | (s, some a) => collFail j.id stUncorr (a % 2 ^ 32) (a / 2 ^ 32) s
  else
    let f := rankFdid s cm r
    let s := modColl j.id (fun j => { j with left := j.left + 1 }) s
    match boardPeer s f with
    | some q => seamSend q 0x211 ((base + o) / 4096) (.write j.tenant (base + o) d) (.work j.id) s
    | none => ftWorkWrite j.id r j.tenant 0 f (Config.peerKey f (base + o)) (Config.peerGen f (base + o)) (base + o) d s

/-- A MOVE's copies leave, entry by entry, while none has failed; only the copy with coordinate 0 is read (R290, R291). (DESIGN CHOICE, log entry 17.) -/
def moveCopies (j : CollJob) (c : Cmd) (cm : Comm) (n : Nat) (s : State) : State :=
  let a := layoutAt s j.tenant (c.p 0)
  let b := layoutAt s j.tenant (c.p 1)
  if !isSource a cm.rank then s
  else (List.range (moveCount j.list)).foldl (fun s i =>
    let (src, dst, _) := moveEntry j.list i
    let base (r : Nat) : Nat := if r = cm.rank then dst else (((partsOf cm n r).head?.map (·.bases)).getD []).getD i 0
    if ((findColl s j.id).bind (·.fail)).isSome then s else
    match readMem s src (layBytes a cm.rank) with
    | (s, .error e) => collFail j.id stUncorr (e % 2 ^ 32) (e / 2 ^ 32) s
    | (s, .ok bs) => (moveRuns a b cm.ranks cm.rank base bs).foldl (fun s (r, o, d) => moveRun j cm dst (base r) r o d s) s) s

/-- A write from a peer has landed in memory: a MOVE of the tenant whose destination it reaches counts it (R291). (DESIGN CHOICE, log entry 17.) -/
def moveLanded (t a n : Nat) (s : State) : State :=
  { s with ckpt := { s.ckpt with colls := s.ckpt.colls.map fun j =>
      if j.tenant = t ∧ (moveBases j.list).any (fun b => decide (b ≤ a) && decide (a < b + j.span)) then { j with need := j.need - n } else j } }

/-- The operation at the head of a communicator goes on (R216, R259, R264, R291). -/
def collStep (k : Nat) (s : State) : State :=
  match s.comm k with
  | none => s
  | some cm => match cm.jobs with
    | [] => s
    | id :: _ => match findColl s id, findCmd s id with
      | some j, some c => match cmdOp c with
        | none => s
        | some o => match j.fail, j.begun with
          | some (st, w0, w1), _ => if j.left = 0 then endColl j st w0 w1 0 (if o = .reshardMove then ckptErr j.tenant 16 s else s) else s
          | none, none => if o = .reshardMove then moveBegin j c k cm s else collBegin j c o k cm s
          | none, some n =>
            if o = .reshardMove then
              if !j.agreed then
                if ((List.range cm.ranks).filter (· != cm.rank)).all fun r => partsOf cm n r != [] then
                  match mismatch (signatures cm n (moveParams c j.list)) with
                  | some (r, i) => collFail id stInvalid (paramOff o (min i 3)) r s
                  | none => moveCopies j c cm n (modColl id (fun j => { j with agreed := true }) s)
                else s
              else if j.left = 0 ∧ j.need = 0 then endColl j stOk 0 0 0 s else s
            else if j.left = 0 ∧ (needs c o cm).all fun (r, len) => arrived cm n r len (if isReduction o then some (sigParams c) else none) then
              collWrite j c o cm n s
            else s
      | _, _ => s

/-- Take collectives and moves forward, up to so many of them, until none can go on. (DESIGN CHOICE, log entry 15.) -/
def collRun (k : Nat) : Nat → State → State
  | 0, s => s
  | n + 1, s => collRun k n (collStep k s)

/-- Every communicator goes on as far as it can. -/
def collsGo (s : State) : State :=
  s.ckpt.comms.foldl (fun s (k, c) => match c with | some c => collRun k (4 * c.jobs.length + 1) s | none => s) s

/-- A transfer of a collective or a MOVE ends. -/
def collEnd (j : CollJob) (e : FtEnd) (s : State) : State :=
  let s := modColl j.id (fun j => { j with left := j.left - 1 }) s
  if e.st = stOk then s else collFail j.id e.st 0 0 s

/-! ### Progress -/

/-- A transfer of one of the device's engines has ended: its command takes it up. -/
def workEnd (e : FtEnd) (s : State) : State :=
  match findColl s e.id with
  | some j => collEnd j e s
  | none => match findSave s e.id with
    | some x => saveEnd x e s
    | none => match findRest s e.id with
      | some x => restGot x e s
      | none => match s.ckpt.drains.find? fun x => x.id == e.id with
        | some x => drainGot x e s
        | none => match s.ckpt.takes.find? fun x => x.id == e.id with
          | some x => takeGot x e s
          | none => s

/-- Take up every transfer that has ended, and let drains and communicators go on. (DEDUCED, log entry 18.) -/
def workGo (s : State) : State :=
  let l := s.ft.ends
  let s := l.foldl (fun s e => workEnd e s) { s with ft := { s.ft with ends := [] } }
  let s := s.ckpt.drains.foldl drainGo s
  collsGo s

end Sys2Proof.Machine
end

