-- ==== Sys2Proof/Machine/Storage.lean ====
section
/-! DEFINITION. Storage commands, what drives answer, and the operations on queues and volumes (R398 to R420, R214). -/
namespace Sys2Proof.Machine

open Sys2Proof

/-! ### Doorbells and takes (R404 to R408) -/

/-- A write of a storage doorbell (R420): word 0 SQ_TAIL, word 1 CQ_HEAD. -/
def execStoDoorbellWrite (who qi word : Nat) (val : Word) (s : State) : Res :=
  run (who < 19 && qi < 256 && word < 2) s (devInst who 0x0E <| onlyIf (16 ≤ who || who == qi / 16) fun s =>
    let q := s.stoQ qi
    let v := val.toNat
    if 32 ≤ v ∨ q.active = false ∨ q.ibc then sticky (some (qi / 16)) .stoTenErr (qi / 16) 0 1 s
    else if word = 0 then s.setStoQ qi { q with tail := v }
    else stoRun (s.setStoQ qi { q with used := (q.cqTail + 32 - v) % 32 }))

/-- The entry at the head of a queue, as memory holds it. (DEDUCED, log entry 19; DEDUCED, log entry 35.) -/
def headEntry (s : State) (i : Nat) : Bytes :=
  let q := s.stoQ i
  if q.ibc then (match s.wq (256 + i) with | [] => [] | e :: _ => fit 64 e.bytes)
  else hostBytes s (fnPort s (i / 16)) (q.sq + 64 * q.head) 64

def stoTags (s : State) (i : Nat) : List StoOp := s.sto.ops.filter fun o => o.for_ == .queue i

/-- Bytes of the write buffer in use (R413). (DESIGN CHOICE, log entry 33.) -/
def bufUsed (s : State) : Nat := (s.sto.ops.map fun o => o.data.length).sum

/-- The upstream reads that the entry at the head of a queue needs have completed: of the entry, and of the data of a write. -/
def stoKnown (s : State) (i : Nat) (e : Bytes) : Bool :=
  !(fld e 0 1 == 2 || fld e 0 1 == 5) || decide (65536 < fld e 16 4) || hostKnown s (i / 16) (fld e 24 8 % 2 ^ 50) (fld e 16 4 * 4096)

def entryKnown (s : State) (i : Nat) : Bool :=
  let q := s.stoQ i
  q.ibc || hostKnown s (i / 16) (q.sq + 64 * q.head) 64

/-- The service issues the upstream reads that the entries at the heads of its queues need (R405, R430). -/
def stoAsk (s : State) : State :=
  s.sto.queues.foldl (fun s (i, q) =>
    let e := headEntry s i
    if !q.active || q.failed then s
    else if !q.ibc && q.head != q.tail && !entryKnown s i then hostAsk (i / 16) (q.sq + 64 * q.head) 64 s
    else if (if q.ibc then s.wq (256 + i) != [] else q.head != q.tail) && isHost (fld e 24 8) && !stoKnown s i e then
      hostAsk (i / 16) (fld e 24 8 % 2 ^ 50) (fld e 16 4 * 4096) s
    else s) s

/-- The BUF of an entry that has one lies in memory that cannot be reached yet. -/
def bufWaits (s : State) (e : Bytes) : Bool :=
  (fld e 0 1 == 1 || fld e 0 1 == 2 || fld e 0 1 == 5) && decide (1 ≤ fld e 16 4) && decide (fld e 16 4 ≤ 65536)
    && !isHost (fld e 24 8) && memWaits s (fld e 24 8) (fld e 16 4 * 4096)

/-- The queue has an entry and may give it up (R405, R413, R418): a free tag, a reserved completion slot or room in the completion work
queue, room in the write buffer for a write, and memory that is not being zeroed. (DEDUCED, log entry 19.) -/
def stoReady (s : State) (i : Nat) : Bool :=
  let q := s.stoQ i
  let mine := stoTags s i
  let e := headEntry s i
  let n := fld e 16 4 * 4096
  let t := i / 16
  q.active && !q.failed && decide ((mine.filter (·.held)).length < 32)
    && (if q.ibc then
          (s.wq (256 + i)) != [] && decide ((s.wq (512 + 16 * t + q.k)).length
            + (s.sto.ops.filter fun o => match o.for_ with
                | .queue j => j / 16 == t && (s.stoQ j).ibc && (s.stoQ j).k == q.k
                | _ => false).length < 1024)
        else fnBme s t && q.head != q.tail && entryKnown s i && decide (q.used + mine.length < 32))
    && (!(fld e 0 1 == 2 || fld e 0 1 == 5) || decide (65536 < fld e 16 4) || decide (bufUsed s + n ≤ 2 ^ 31))
    && (if isHost (fld e 24 8) then stoKnown s i e else !bufWaits s e)

/-- Commands at the heads of queues that wait for memory start the exit that ends the wait (R487, R488). -/
def stoWake (s : State) : State :=
  (List.range 256).foldl (fun s i =>
    let q := s.stoQ i
    let e := headEntry s i
    if q.active && !q.failed && (if q.ibc then (s.wq (256 + i)) != [] else q.head != q.tail) && bufWaits s e then
      wakeSpan (fld e 24 8) (fld e 16 4 * 4096) s
    else s) s

/-- The queue that the round robin takes from next (R406). -/
def stoNext (s : State) : Option Nat := ((List.range 256).map fun i => (s.sto.lastQ + 1 + i) % 256).find? (stoReady s)

/-- Checks 2 and 3 of R408 on an entry of a defined OP: a zero field that is not zero, or the offset of the first illegal field. -/
def stoForm (s : State) (e : Bytes) : Option (Nat × Nat) :=
  let op := fld e 0 1
  let io := op = 1 ∨ op = 2 ∨ op = 4 ∨ op = 5
  let buf := op = 1 ∨ op = 2 ∨ op = 5
  let n := fld e 16 4
  let lba := fld e 8 8
  let blocks := (s.vol (fld e 4 2)).blocks
  if fld e 1 1 ≠ 0 ∨ fld e 3 1 ≠ 0 ∨ fld e 6 2 ≠ 0 ∨ !allZero (slice e 34 30)
      ∨ (¬io ∧ (lba ≠ 0 ∨ n ≠ 0)) ∨ (¬buf ∧ fld e 24 8 ≠ 0) ∨ (op ≠ 6 ∧ op ≠ 7 ∧ fld e 32 1 ≠ 0) ∨ (op ≠ 6 ∧ fld e 33 1 ≠ 0) then
    some (stReserved, 0)
  else if 31 < fld e 2 1 then some (stInvalid, 2)
  else if 1023 < fld e 4 2 then some (stInvalid, 4)
  else if io ∧ (blocks < lba + n ∨ (op = 5 ∧ lba % 64 ≠ 0)) then some (stInvalid, 8)
  else if io ∧ (n = 0 ∨ (if op = 5 then 64 else 65536) < n) then some (stInvalid, 16)
  else if buf ∧ fld e 24 8 % 4096 ≠ 0 then some (stInvalid, 24)
  else if (op = 6 ∧ 1 < fld e 32 1) ∨ (op = 7 ∧ 31 < fld e 32 1 ∧ fld e 32 1 ≠ 0xFF) then some (stInvalid, 32)
  else none

/-- Where a READ finds a block (R413): the data of the latest earlier write that has not completed, zeros, or the medium. -/
inductive Found where
  | data (b : Bytes) | medium
  deriving DecidableEq, Repr

def findBlock (s : State) (v b : Nat) : Found :=
  let covers (o : StoOp) : Bool := o.vol == v && !o.ended && (o.op == 2 || o.op == 4 || o.op == 5) && decide (o.lba ≤ b) && decide (b < o.lba + o.count)
  match s.sto.ops.reverse.find? covers with
  | some o => .data (if o.op = 4 then zeros 4096 else slice o.data ((b - o.lba) * 4096) 4096)
  | none =>
    let d := unitDrive (s.vol v).mask (b / 64)
    if (s.drive d).accepted && !(s.drive d).failed && (mapAt (s.drive d).dm v (b / 64)).2 = false then .data (zeros 4096) else .medium

/-- The parts of a READ: runs of blocks of one unit that come from the medium. -/
def readParts (s : State) (v lba : Nat) : List (Nat × Found) → List UOp
  | [] => []
  | (_, .data _) :: t => readParts s v lba t
  | (i, .medium) :: t =>
    let b := lba + i
    match readParts s v lba t with
    | p :: r => if p.off = i + 1 ∧ p.unit = b / 64 then { p with lo := b % 64, n := p.n + 1, off := i } :: r
      else { kind := .read, unit := b / 64, lo := b % 64, n := 1, off := i, phys := (mapAt (s.drive (unitDrive (s.vol v).mask (b / 64))).dm v (b / 64)).1 } :: p :: r
    | [] => [{ kind := .read, unit := b / 64, lo := b % 64, n := 1, off := i, phys := (mapAt (s.drive (unitDrive (s.vol v).mask (b / 64))).dm v (b / 64)).1 }]

/-- What a failed access of BUF ends a command with (R308, R430). -/
def bufFail (take : Nat) (e : RdErr) (s : State) : State :=
  match e with
  | .ue a => stoFail take stUncorr (a % 2 ^ 32) (a / 2 ^ 32 % 2 ^ 32) s
  | .host => stoFail take stHostOff 0 0 s
  | .wait => s

/-- Start a READ: blocks from the write buffer and zeros go to BUF at once (R413). -/
def startRead (t : Nat) (o : StoOp) (s : State) : State :=
  let found := (List.range o.count).map fun i => (i, findBlock s o.vol (o.lba + i))
  let s := modOp o.take (fun x => { x with parts := readParts s o.vol o.lba found }) s
  found.foldl (fun s (i, f) => match f with
    | .data b => match writeAddr s t (o.buf + i * 4096) b with
      | (s, .ok _) => s
      | (s, .error e) => bufFail o.take e s
    | .medium => s) s

/-- Start a WRITE or an ATOMIC_WRITE: its data goes to the write buffer (R410, R413). (DESIGN CHOICE, log entry 33.) -/
def startWrite (t : Nat) (o : StoOp) (s : State) : State :=
  match readAddr s t o.buf (o.count * 4096) with
  | (s, .ok b) => modOp o.take (fun x => { x with data := b, parts := writeParts o.op o.lba o.count }) s
  | (s, .error e) => bufFail o.take e s

/-- Start or join a self-test on a drive of the volume (R414); a test gives way to the drive's commands (R415). -/
def joinTest (take kind d : Nat) (s : State) : State :=
  let x := s.drive d
  if !x.accepted || x.failed then stoMedia d take 0xFFFE 0 s
  else match x.test with
    | some t => s.setDrive d { x with test := some { t with for_ := t.for_ ++ [take] } }
    | none =>
      let free := x.cmds.isEmpty && x.todo.isEmpty && x.resetDue.isNone
      let s := s.setDrive d { x with test := some ⟨kind, free, free, [take]⟩, last := s.tb.ticks }
      if free then send (.nvme d x.cid 3 kind 0 []) (s.setDrive d { s.drive d with cid := x.cid + 1 }) else s

/-- Start a checked command (R410). -/
def stoStart (t : Nat) (o : StoOp) (e : Bytes) (s : State) : State :=
  let ds := maskDrives (s.vol o.vol).mask
  match o.op with
  | 1 => startRead t o s
  | 2 => startWrite t o s
  | 5 => startWrite t o s
  | 4 => modOp o.take (fun x => { x with parts := writeParts 4 o.lba o.count }) s
  | 6 =>
    let s := modOp o.take (fun x => { x with
      limit := if fld e 33 1 = 0 then none else some (s.tb.ticks + fld e 33 1 * 60000 * msTicks)
      r0 := ((List.range 4).map fun d => if ds.contains d then 0 else 0xF * 16 ^ d).sum }) s
    ds.foldl (fun s d => joinTest o.take (fld e 32 1) d s) s
  | 7 =>
    match ds.find? fun d => driveCode s d ≠ 2 with
    | some d => stoFail o.take stConflict (0x15 + d * 256) (driveCode s d) s
    | none =>
      let p := fld e 32 1
      allPower (s.setVol o.vol { s.vol o.vol with preq := if p = 0xFF then none else some p })
  | _ => s

/-- A command that was taken joins the commands of the service. -/
def stoAdd (o : StoOp) (s : State) : State := { s with sto := { s.sto with ops := s.sto.ops ++ [o] } }

/-- Take the entry of a queue (R406): the checks of R408, then the command starts. -/
def stoTakeEntry (i : Nat) (e : Bytes) (s : State) : State :=
  let t := i / 16
  let n := s.sto.take
  let s := { s with sto := { s.sto with take := n + 1, lastQ := i } }
  let o : StoOp := { take := n, for_ := .queue i, held := false, op := fld e 0 1, tag := fld e 2 1, ended := true }
  let op := fld e 0 1
  let sync := fld e 20 4
  let vol := fld e 4 2
  if op = 0 ∨ 7 < op then stoAdd { o with st := stBadOpcode } s
  else match stoForm s e with
    | some (st, r0) => stoAdd { o with st := st, r0 := r0 } s
    | none =>
      let buf := fld e 24 8
      let len := fld e 16 4 * 4096
      let bound := (s.vol vol).st == 2 && (s.vol vol).tenant == t
      let (ok, s) := if !bound then (false, addrDenied (tenReq t 0x212) s)
        else if op = 1 ∨ op = 2 ∨ op = 5 then mayReach t buf len (op == 1) 0x212 s else (true, s)
      let xl := translateFor s (t + 1) (fnBind s t) (bits sync 23 0)
      let okSync : Bool := sync == 0 || xl != .none
      if !ok then stoAdd { o with st := if bound then refusedSt s (tenReq t 0x212) buf len else stDenied } s
      else if !okSync then stoAdd { o with st := stDenied } (addrDenied (tenReq t 0x212) s)
      else if (stoTags s i).any fun x => x.held && x.tag == o.tag then
        stoAdd { o with st := stConflict, r0 := 0x14 + o.tag * 256, r1 := 1 } s
      else if sync ≠ 0 ∧ xl = .ue then stoAdd { o with st := stUncorr } (s.orReg .syncErr 0 0 16)
      else
        let o := { o with
          held := true, ended := false, vol := vol, lba := fld e 8 8, count := fld e 16 4, buf := buf,
          sig := if sync = 0 then none else some (xl, bits sync 31 24) }
        stoStart t o e (stoAdd o s)

/-- The next take, where its entry has this OP; an undefined OP is taken by any of the rows (log entry 31). (DEDUCED, log entry 19.) -/
def stoTake (op : Nat) (s : State) : State :=
  let s := stoAsk s
  match stoNext s with
  | none => stoWake s
  | some i =>
    let q := s.stoQ i
    let e := headEntry s i
    let code := fld e 0 1
    if code = op ∨ code = 0 ∨ 7 < code then
      if q.ibc then stoRun (stoTakeEntry i e (s.setWq (256 + i) ((s.wq (256 + i)).drop 1)))
      else if (hostCells s (fnPort s (i / 16)) (q.sq + 64 * q.head) 64).contains .bad then
        sticky (some (i / 16)) .stoTenErr (i / 16) 0 2 (s.setStoQ i { q with failed := true })
      else stoRun (stoTakeEntry i e (s.setStoQ i { q with head := (q.head + 1) % 32 }))
    else s

/-- READ (R410, R413). -/
def execStoRead (s : State) : Res := run true s (stoTake 1)
/-- WRITE (R410, R411). -/
def execStoWrite (s : State) : Res := run true s (stoTake 2)
/-- FLUSH (R410). -/
def execStoFlush (s : State) : Res := run true s (stoTake 3)
/-- TRIM (R410). -/
def execStoTrim (s : State) : Res := run true s (stoTake 4)
/-- ATOMIC_WRITE (R412). -/
def execStoAtomicWrite (s : State) : Res := run true s (stoTake 5)
/-- SELF_TEST (R414). -/
def execStoSelfTest (s : State) : Res := run true s (stoTake 6)
/-- POWER (R416). -/
def execStoPower (s : State) : Res := run true s (stoTake 7)

/-! ### What drives answer -/

/-- A VOL_CREATE or VOL_DELETE whose records are all answered ends (R401, R403, R214). -/
def endJob (id : Nat) (s : State) : State :=
  match s.sto.jobs.find? fun j => j.id == id with
  | none => s
  | some j =>
    if j.left ≠ 0 then s
    else
      let s := { s with sto := { s.sto with jobs := s.sto.jobs.filter fun x => x.id != id } }
      if j.failed then finish0 id stMedia s
      else finish0 id stOk (s.setVol j.vol (if j.make then { st := 1, mask := j.mask, blocks := j.blocks } else {}))

/-- A drive's journal record of such a command is on its medium, or failed; what a failed VOL_CREATE reserved is free again. -/
def jobAnswer (d id : Nat) (r : JRec) (ok : Bool) (s : State) : State :=
  let x := s.drive d
  let s := if ok then s.setDrive d { x with dm := { (applyRec x.dm r).1 with seq := x.dm.seq + 1 } }
    else match r with
      | .create _ _ _ ext => s.setDrive d { x with dm := { x.dm with free := ext ++ x.dm.free } }
      | _ => s
  let s := if ok then s else (sticky none .driveErr d 0 1 s).count .driveMedia d 0 1
  let s := { s with sto := { s.sto with jobs := s.sto.jobs.map fun j =>
      if j.id = id then { j with left := j.left - 1, failed := j.failed || !ok } else j } }
  endJob id s

/-- A part's command ended well: the next step of R412, or its data goes to BUF. -/
def partAnswer (d take i : Nat) (data : Bytes) (s : State) : State :=
  match s.sto.ops.find? fun o => o.take == take with
  | none => s
  | some o => match o.parts[i]? with
    | none => s
    | some p =>
      let gone := o.for_ == .gone || (o.st != 0 && p.phase != .journal && p.phase != .inPlace)
      let done (s : State) : State := setPart take i (fun p => { p with phase := .done, fill := 0 }) s
      match p.phase with
      | .inPlace =>
        match p.kind, o.for_ with
        | .read, .queue q => match writeAddr s (q / 16) (o.buf + p.off * 4096) (fit (p.n * 4096) data) with
          | (s, .ok _) => done s
          | (s, .error e) => bufFail take e (stopPart d take i s)
        | _, _ => done s
      | .oldRead =>
        if gone then stopPart d take i s
        else writeNew d o i { p with old := zeros (p.n * 4096) ++ fit ((64 - p.n) * 4096) data } s
      | .newWrite =>
        if gone then stopPart d take i s
        else nvmeJournal d take i (.map o.vol p.unit p.fill) (setPart take i (fun p => { p with phase := .journal }) s)
      | .journal =>
        let x := s.drive d
        let (r, pool) : JRec × Bool := if p.kind = .unmap then (.unmap o.vol p.unit, false) else (.map o.vol p.unit p.fill, true)
        let (m, _) := applyRec x.dm r
        done (s.setDrive d { x with dm := { m with seq := x.dm.seq + 1 }, old := x.old ++ [(p.phys, pool)] })
      | _ => s

/-- What the answer of a drive's command ends, by what the command was issued for: an error status is MEDIA_ERROR (R400, R408). -/
def nvmeEnd (d status : Nat) (data : Bytes) (why : NFor) (s : State) : State :=
  match why with
  | .part take i =>
    if status ≠ 0 then
      let lba := match s.sto.ops.find? fun o => o.take == take with
        | some o => o.lba + (match o.parts[i]? with | some p => p.off | none => 0)
        | none => 0
      stopPart d take i (stoMedia d take (d + status * 256) (lba % 2 ^ 32) s)
    else partAnswer d take i data s
  | .vol id r => jobAnswer d id r (decide (status = 0)) s
  | .power p => if status ≠ 0 then s else drivePower d (s.setDrive d { s.drive d with ps := p })
  | .apst => s
  | .dealloc p pool =>
    if pool then s.setDrive d { s.drive d with dm := { (s.drive d).dm with spare := (s.drive d).dm.spare ++ [p] } } else s

/-- A drive answers a command: NVMe status 0 is success, and a read brings its data (R410); the replays of its link are counted (R249).
(DESIGN CHOICE, log entry 108.) -/
def execNvmeCommandComplete (d : Replayed) (cid status : Nat) (data : Bytes) (s : State) : Res :=
  run (d.inst < 4) s fun s =>
    let s := s.countTv 5 d.replays
    let d := d.inst
    let x := s.drive d
    match takeFirst (fun c => c.cid == cid) x.cmds with
    | none => s
    | some (c, rest) =>
      let s := s.setDrive d { x with cmds := rest, last := s.tb.ticks }
      workGo <| stoRun (nvmeEnd d (status % 2 ^ 16) data c.why s)

/-- A part whose drive command a controller reset lost starts it again. (DEDUCED, log entry 34.) -/
def partAgain (take i : Nat) (s : State) : State :=
  setPart take i (fun p => { p with phase := if p.fill = 0 then .wait else .spare }) s

/-- What a controller reset leaves to be issued again of the commands it lost, the parts apart. -/
def nvmeKept (l : List NCmd) : List NFor := l.filterMap fun c => match c.why with | .part _ _ => none | w => some w

/-- The parts whose drive commands a controller reset lost start them again. -/
def nvmeRedo (l : List NCmd) (s : State) : State := l.foldl (fun s c => match c.why with | .part take i => partAgain take i s | _ => s) s

/-- What a drive's command that exceeded its time limit ends: the storage command or the volume's record; another is issued again (R400). -/
def nvmeLate (d : Nat) (why : NFor) (s : State) : State :=
  match why with
  | .part take i => stopPart d take i (stoMedia d take 0xFFFF 0 s)
  | .vol id r => jobAnswer d id r false s
  | w => s.setDrive d { s.drive d with todo := w :: (s.drive d).todo }

/-- A drive command exceeds its time limit (R400): it is aborted, the controller reset, and the storage commands that wait on it
end; commands of the drive that the reset lost are issued again once it is ready. -/
def execNvmeCommandTimeout (d cid : Nat) (s : State) : Res :=
  run (d < 4) s fun s =>
    let x := s.drive d
    match takeFirst (fun c => c.cid == cid) x.cmds with
    | none => s
    | some (c, rest) =>
      if s.tb.ticks < c.due then s
      else
        let s := sticky none .driveErr d 0 2 s
        let s := send (.nvme d x.cid 7 0 0 []) (s.setDrive d { x with
          cmds := [], cid := x.cid + 1, todo := nvmeKept rest ++ x.todo, last := s.tb.ticks, resetDue := some (s.tb.ticks + 10000 * msTicks),
          test := x.test.map fun t => { t with on := false } })
        workGo <| stoRun (nvmeLate d c.why (nvmeRedo rest s))

/-- The reset controller is ready and the drive returns to service (R400). (DEDUCED, log entry 34.) -/
def execDriveReady (d : Nat) (s : State) : Res :=
  run (d < 4) s (onlyIf ((s.drive d).resetDue.isSome && !(s.drive d).failed) fun s =>
    stoRun (s.setDrive d { s.drive d with resetDue := none, last := s.tb.ticks }))

/-- A drive becomes FAILED (R400): commands that need it end, and what it still owed is lost. -/
def driveFail (d : Nat) (s : State) : State :=
  let x := s.drive d
  let s := sticky none .driveErr d 0 4 (s.setDrive d { x with failed := true, cmds := [], todo := [], resetDue := none, test := none })
  let s := x.cmds.foldl (fun s c => match c.why with
    | .part take i => stopPart d take i (stoMedia d take 0xFFFE 0 s)
    | .vol id r => jobAnswer d id r false s
    | _ => s) s
  let s := x.todo.foldl (fun s w => match w with | .vol id r => jobAnswer d id r false s | _ => s) s
  let tests := match x.test with | some t => t.for_ | none => []
  workGo <| stoRun (tests.foldl (fun s t => stoMedia d t 0xFFFE 0 s) s)

/-- A drive is not ready within 10 s of the reset (R400). -/
def execDriveReadyTimeout (d : Nat) (s : State) : Res :=
  run (d < 4) s (onlyIf (expired s (s.drive d).resetDue && (s.drive d).resetDue.isSome) (driveFail d))

/-- Identify and accept a drive (R399), and replay its journal (R403): its volumes come back UNBOUND. -/
def driveAccept (d : Nat) (i : DriveId) (s : State) : State :=
  let r := driveRefuse i
  if r ≠ 0 then s.setDrive d { id := some i, refuse := r, cid := (s.drive d).cid }
  else
    let (m, torn) := match i.copy with | some m => replay m i.journal | none => (freshMap i.blocks, false)
    let s := s.setDrive d { id := some i, accepted := true, dm := m, last := s.tb.ticks, cid := (s.drive d).cid, todo := (if bit (s.reg .driveCtrl d) 0 then [.apst] else []) }
    let s := if torn then sticky none .driveErr d 0 8 s else s
    let s := m.vols.foldl (fun s (v, x) => if (s.vol v).st = 0 then s.setVol v { st := 1, mask := x.mask, blocks := x.blocks } else s) s
    stoRun (drivePower d s)

/-- A port's presence changes (R399, R400): a drive that appears is identified, one that leaves becomes FAILED where it was in
use. -/
def execDrivePresenceChange (d : Nat) (ident : Option DriveId) (s : State) : Res :=
  run (d < 4) s fun s =>
    match ident with
    | some i => driveAccept d i (if (s.drive d).accepted && !(s.drive d).failed then driveFail d s else s)
    | none =>
      let x := s.drive d
      if x.accepted then
        let s := s.setDrive d { x with id := none }
        if x.failed then s else driveFail d s
      else s.setDrive d { cid := x.cid }

/-! ### Self-tests and power (R414 to R416) -/

/-- A Device Self-test finishes with a result (R410). -/
def execDeviceSelfTestComplete (d result : Nat) (s : State) : Res :=
  run (d < 4) s fun s =>
    match (s.drive d).test with
    | some t =>
      if t.on then
        let s := s.setDrive d { s.drive d with test := none }
        stoRun (t.for_.foldl (fun s k => modOp k (fun o => { o with r0 := putBits o.r0 (4 * d + 3) (4 * d) result }) s) s)
      else s
    | none => s

/-- A drive that has received no command for ST_IDLE_MS starts its test again from the beginning (R415). -/
def execSelfTestRestart (d : Nat) (s : State) : Res :=
  run (d < 4) s fun s =>
    let x := s.drive d
    match x.test with
    | some t =>
      let idle := max 1 (bits (s.reg .stoCtrl) 23 8)
      if !t.on && driveUp x && x.cmds.isEmpty && x.todo.isEmpty && decide (x.last + idle * msTicks ≤ s.tb.ticks) then
        let s := send (.nvme d x.cid 3 t.kind 0 []) (s.setDrive d { x with test := some { t with on := true, ran := true }, cid := x.cid + 1 })
        if t.ran then
          t.for_.foldl (fun s k => modOp k (fun o => { o with restarts := o.restarts + 1 }) s) (s.count .driveStRestarts d 0 1)
        else s
      else s
    | none => s

/-- Take a command off a drive's test; a test that nothing waits on is aborted (R415). -/
def leaveTest (take d : Nat) (s : State) : State :=
  let x := s.drive d
  match x.test with
  | some t =>
    let l := t.for_.filter (· != take)
    if !t.for_.contains take then s
    else if l = [] then
      let s := if t.on then send (.nvme d x.cid 4 0 0 []) s else s
      s.setDrive d { x with test := none, cid := x.cid + (if t.on then 1 else 0) }
    else s.setDrive d { x with test := some { t with for_ := l } }
  | none => s

/-- LIMIT minutes have passed since the take of a SELF_TEST (R415). (DEDUCED, log entry 36.) -/
def execSelfTestLimit (take : Nat) (s : State) : Res :=
  run true s fun s =>
    match s.sto.ops.find? fun o => o.take == take with
    | some o =>
      if o.op = 6 ∧ o.ended = false ∧ o.limit.isSome ∧ expired s o.limit then
        stoRun (modOp take (fun o => { o with st := stNoResource, r0 := 0, r1 := o.restarts })
          ((List.range 4).foldl (fun s d => leaveTest take d s) s))
      else s
    | none => s

/-- A write of STO.DRIVE[d].CTRL (R416): the drive becomes AUTONOMOUS or COMMANDED. -/
def execApstWrite (who d : Nat) (val : Word) (s : State) : Res :=
  run (who < 19 && d < 4) s (devInst who 0x0E <| onlyIf (16 ≤ who) fun s =>
    let s := s.setReg .driveCtrl d 0 (bits val.toNat 0 0)
    let x := s.drive d
    if !x.accepted || x.failed then s
    else if bit val.toNat 0 then stoRun (s.setDrive d { x with todo := x.todo ++ [.apst] })
    else stoRun (drivePower d s))

/-! ### Efesh commands (R214, R401, R404) -/

/-- Whether SQ_CREATE names one of the two forms of R404: its first illegal parameter. -/
def sqForm (q vector sq cq : Nat) : Option Nat :=
  if 15 < q then some 0
  else if sq ≠ 0 then
    if 2047 < vector ∧ vector ≠ 0xFFFF then some 1
    else if sq % 4096 ≠ 0 ∨ 2 ^ 50 ≤ sq then some 2
    else if cq % 4096 ≠ 0 ∨ 2 ^ 50 ≤ cq then some 3 else none
  else if vector ≠ 0xFFFF then some 1
  else if 15 < cq then some 3 else none

/-- SQ_CREATE (R404, R405). -/
def execSqCreate (id : Nat) (s : State) : Res :=
  run true s (startOp .sqCreate id fun c =>
    let i := 16 * c.fn + c.p 0
    fun s => need6 (!(s.stoQ i).active) c 0x0C (c.p 0) 1 (fun s =>
      let k := c.p 3
      let taken := (List.range 16).any fun j => let q := s.stoQ (16 * c.fn + j); q.active && q.ibc && q.k == k
      if c.p 2 = 0 then
        if taken && strict s c.fn then finish0 id stDetRefused (varRefuse c.fn s)
        else finish0 id stOk (s.setStoQ i { active := true, ibc := true, k := k })
      else finish0 id stOk (s.setStoQ i { active := true, sq := c.p 2, cq := c.p 3, vector := c.p 1 })) s)

/-- SQ_DELETE (R214, R216). -/
def execSqDelete (id : Nat) (s : State) : Res :=
  run true s (startOp .sqDelete id fun c =>
    let i := 16 * c.fn + c.p 0
    fun s => need6 ((s.stoQ i).active && !(stoTags s i).any (·.held)) c 0x0C (c.p 0) (if (s.stoQ i).active then 1 else 0) (fun s =>
      finish0 id stOk { s with
        sto := { s.sto with queues := tdel s.sto.queues i, ops := s.sto.ops.filter fun o => o.for_ != .queue i }
        net := { s.net with wq := tdel s.net.wq (256 + i) } }) s)

/-- A drive's share of a new volume is reserved, and its record is to be written (R401, R403). -/
def volTake (id v mask blocks d : Nat) (s : State) : State :=
  let x := s.drive d
  let (ext, rest) := takeUnits (shareOf mask blocks d) x.dm.free
  s.setDrive d { x with dm := { x.dm with free := rest }, todo := x.todo ++ [.vol id (.create v mask blocks ext)] }

/-- VOL_CREATE (R401, R403): the units are reserved, and the volume exists once every drive's record is on its medium. -/
def execVolCreate (id : Nat) (s : State) : Res :=
  run true s (startOp .volCreate id fun c =>
    let v := c.p 0
    let mask := c.p 1
    let blocks := c.p 2
    let ds := maskDrives mask
    fun s => need6 ((s.vol v).st == 0 && !(s.sto.jobs.any (·.vol == v))) c 0x0D v (s.vol v).st (need7
      (ds.all fun d => (s.drive d).accepted && !(s.drive d).failed && decide (shareOf mask blocks d ≤ extentLen (s.drive d).dm.free)) c fun s =>
        let s := { s with sto := { s.sto with jobs := s.sto.jobs ++ [⟨id, v, mask, blocks, true, ds.length, false⟩] } }
        stoRun (working id (ds.foldl (fun s d => volTake id v mask blocks d s) s))) s)

/-- VOL_DELETE (R214): the deletion is journaled on every drive of the volume that is in use. -/
def execVolDelete (id : Nat) (s : State) : Res :=
  run true s (startOp .volDelete id fun c =>
    let v := c.p 0
    fun s => need6 ((s.vol v).st == 1 && !(s.sto.jobs.any (·.vol == v))) c 0x0D v (s.vol v).st (fun s =>
      let x := s.vol v
      let ds := (maskDrives x.mask).filter fun d => (s.drive d).accepted && !(s.drive d).failed
      let s := { s with sto := { s.sto with jobs := s.sto.jobs ++ [⟨id, v, x.mask, x.blocks, false, ds.length, false⟩] } }
      let s := working id (ds.foldl (fun s d => s.setDrive d { s.drive d with todo := (s.drive d).todo ++ [.vol id (.delete v)] }) s)
      endJob id (stoRun s)) s)

/-- A tag of the volume is outstanding. -/
def volBusy (s : State) (v : Nat) : Bool := s.sto.ops.any fun o => o.vol == v && o.held && o.for_ != .gone

/-- VOL_BIND (R214, R216): bind an UNBOUND volume to a tenant, or unbind it. -/
def execVolBind (id : Nat) (s : State) : Res :=
  run true s (startOp .volBind id fun c =>
    let v := c.p 0
    let t := c.p 1
    fun s =>
      let x := s.vol v
      if t = 0xFF then need6 (x.st == 2 && !volBusy s v) c 0x0D v x.st (fun s =>
        finish0 id stOk (stoRun (allPower (s.setVol v { x with st := 1, tenant := 0, preq := none })))) s
      else need6 (x.st == 1 && !(s.sto.jobs.any (·.vol == v))) c 0x0D v x.st (fun s =>
        finish0 id stOk (stoRun (allPower (s.setVol v { x with st := 2, tenant := t, preq := none })))) s)

/-- DRIVE_INFO (R214): the identify data of a drive that is present goes to host memory. (DEDUCED, log entry 43.) -/
def execDriveInfo (id : Nat) (s : State) : Res :=
  run true s (startOp .driveInfo id fun c s =>
    match (s.drive (c.p 0)).id with
    | none => conflict id 0x15 (c.p 0) (driveCode s (c.p 0)) 0 s
    | some i => match hostWrite s c.fn (c.p 1) (fit 4096 i.ident) with
      | (s, .ok _) => finish0 id stOk s
      | (s, .error e) => failHost id e s)

/-- The tenant reset of the storage service (R418): every outstanding command of the tenant ends, drive commands already issued run to
their end, queues go, power requests are withdrawn. -/
def stoTenantReset (t : Nat) (s : State) : State :=
  let mine (o : StoOp) : Bool := match o.for_ with | .queue i => i / 16 == t | _ => false
  let s := s.sto.ops.foldl (fun s o => if mine o then (List.range 4).foldl (fun s d => leaveTest o.take d s) s else s) s
  let s := { s with
    sto := { s.sto with
      ops := s.sto.ops.map fun o => if mine o then { o with
        for_ := .gone, st := if o.st = 0 then stAborted else o.st, sig := none
        parts := o.parts.map fun p => if p.phase == .wait || (p.phase == .spare && p.fill == 0) then { p with phase := .stopped } else p } else o
      queues := tdrop s.sto.queues fun i => i / 16 == t
      vols := s.sto.vols.map fun (v, x) => if x.st = 2 ∧ x.tenant = t then (v, { x with preq := none }) else (v, x) }
    net := { s.net with wq := tdrop s.net.wq fun q => decide (256 ≤ q) && decide (q < 768) && (if q < 512 then (q - 256) / 16 == t else (q - 512) / 16 == t) } }
  stoRun (allPower s)

end Sys2Proof.Machine
end

