-- ==== Sys2Proof/Machine/BeadCore.lean ====
section
/-! DEFINITION. Bead cores and IBC: ports, bundles, triggers, exceptions, repeats and holds (R113 to R155). -/
namespace Sys2Proof.Machine

open Sys2Proof

/-! ### Ports (R121, R122) -/

/-- A port: its width, whether a move may read it and write it; none for a reserved address. IBC differ in MOP and IBC ports. -/
def portInfo (ibc : Bool) (p : Nat) : Option (Nat × Bool × Bool) :=
  if p < 0x40 then some (32, true, true)
  else if p < 0x50 then some (512, true, true)
  else if 0x50 ≤ p ∧ p < 0x58 then some (1, true, true)
  else match p with
  | 0x080 | 0x081 | 0x082 | 0x088 | 0x089 | 0x08A | 0x090 | 0x091 | 0x092 => some (32, false, true)
  | 0x083 | 0x08B | 0x093 | 0x094 => some (32, true, false)
  | 0x0A0 | 0x0A1 | 0x0A2 | 0x0A3 | 0x0A6 | 0x0A7 | 0x0A8 | 0x0A9 | 0x0AA | 0x0AC => some (32, false, true)
  | 0x0AB => some (512, false, true)
  | 0x0A4 => some (32, true, false)
  | 0x0A5 => some (512, true, false)
  | 0x0B0 | 0x0B1 | 0x0B3 => some (512, false, true)
  | 0x0B2 => some (32, false, true)
  | 0x0B4 => some (512, true, false)
  | 0x0B5 => some (32, true, false)
  | 0x0C0 | 0x0C1 => some (32, false, true)
  | 0x0C2 => some (512, false, true)
  | 0x0C3 => some (32, true, false)
  | 0x0C4 => some (512, true, false)
  | 0x0D0 | 0x0D2 | 0x0D3 | 0x0D5 => some (512, false, true)
  | 0x0D1 | 0x0D4 => some (32, false, true)
  | 0x0D6 | 0x0D7 => some (512, true, false)
  | 0x0D8 => some (32, true, false)
  | 0x0E0 | 0x0E1 => some (32, false, true)
  | 0x0E2 => some (32, true, false)
  | 0x0F0 | 0x0F1 | 0x0F2 | 0x0F3 | 0x0F4 | 0x0F5 | 0x0F6 | 0x0F7 => some (32, false, true)
  | 0x0F8 => some (32, true, false)
  | 0x100 => some (32, false, true)
  | 0x108 | 0x109 => if ibc then none else some (32, false, true)
  | 0x110 | 0x111 | 0x112 | 0x113 | 0x114 | 0x115 | 0x116 | 0x117 | 0x118 => some (32, true, false)
  | 0x180 | 0x181 | 0x182 => if ibc then some (32, false, true) else none
  | 0x183 => if ibc then some (32, true, false) else none
  | _ => none

/-- The value a move delivers to a destination of another width (R122); a 512-bit source reaches only a 512-bit destination. -/
def convert (sw dw v : Nat) : Option Nat :=
  if sw = 512 then (if dw = 512 then some v else none)
  else if dw = 512 then some (joinLanes 32 (List.replicate 16 v))
  else if dw = 1 then some (v % 2)
  else some v

/-- The trigger ports of one unit bear one number (R123); 0 for no trigger. -/
def unitOf (p : Nat) : Nat :=
  match p with
  | 0x082 => 1 | 0x08A => 2 | 0x092 => 3 | 0x0A3 => 4 | 0x0AC => 5 | 0x0B3 => 6
  | 0x0C1 | 0x0C2 => 7
  | 0x0D5 => 8
  | 0x0E0 | 0x0E1 => 9
  | 0x0F5 | 0x0F6 | 0x0F7 => 10
  | 0x100 => 11 | 0x109 => 12
  | 0x181 | 0x182 => 13
  | _ => 0

/-! ### Bundles (R116 to R120) -/

/-- Exception codes (R145). -/
def exSlot : Nat := 0x01
def exPort : Nat := 0x02
def exMulti : Nat := 0x03
def exBadOp : Nat := 0x04
def exAlign : Nat := 0x05
def exDenied : Nat := 0x06
def exUncorr : Nat := 0x07
def exFetch : Nat := 0x08
def exTarget : Nat := 0x09
def exDelay : Nat := 0x0A
def exRepeat : Nat := 0x0B
def exCount : Nat := 0x0C
def exEnd : Nat := 0x0D
def exTimeout : Nat := 0x0E
def exDet : Nat := 0x0F

/-- The source of a move: a port or an immediate. -/
inductive MvSrc where
  | port (p : Nat) | imm (v : Nat)
  deriving DecidableEq, Repr

/-- A move slot: its place in the bundle, its guard (none when always enabled; else predicate and SENSE), destination, source. -/
structure MoveSlot where
  slot  : Nat
  guard : Option (Nat × Bool)
  dst   : Nat
  src   : MvSrc
  deriving DecidableEq, Repr

/-- A control slot's operation. -/
inductive Ctl where
  | nop (n : Nat) | rep (intr : Bool) (reg : Option Nat) (count : Nat) | halt
  deriving DecidableEq, Repr

/-- A decoded bundle, or the exception that decoding raises with its slot and the port the slot names (0 for none). -/
inductive Bun where
  | moves (l : List MoveSlot) (bytes : Nat) | ctl (c : Ctl) | bad (code slot port : Nat)
  deriving DecidableEq, Repr

/-- Decode a control slot; none where it is illegal (R120). (DEDUCED, log entry 11.) -/
def ctlOf (w : Nat) : Option Ctl :=
  let op := bits w 28 24
  let cnt := bits w 11 0
  let greg := bits w 17 12
  if !bit w 31 || bits w 21 18 ≠ 0 then none
  else match op with
    | 0 => if bits w 23 12 = 0 then some (.nop (cnt + 1)) else none
    | 1 =>
      if bit w 22 then (if cnt = 0 then some (.rep (bit w 23) (some greg) 0) else none)
      else (if greg = 0 then some (.rep (bit w 23) none (cnt + 1)) else none)
    | 2 => if bits w 23 0 = 0 then some .halt else none
    | _ => none

/-- The guard of a move slot. -/
def guardOf (w : Nat) : Option (Nat × Bool) := if bit w 28 then some (bits w 26 24, bit w 27) else none

/-- Decode from slot `i` on: `w` gives the word at a slot, none past the end of instruction memory; `long` is a long immediate that waits
for its continuation. -/
def decodeFrom (w : Nat → Option Nat) : Nat → Nat → Option MoveSlot → List MoveSlot → Bun
  | 0, _, _, _ => .bad exSlot 3 0
  | f + 1, i, long, acc =>
    match w i with
    | none => .bad exEnd i 0
    | some x =>
      let next (m : MoveSlot) : Bun :=
        if bit x 31 then .moves (acc ++ [m]) (4 * (i + 1)) else decodeFrom w f (i + 1) none (acc ++ [m])
      match long with
      | some m =>
        if bits x 30 17 ≠ 0 then .bad exSlot i m.dst
        else next { m with src := match m.src with | .imm lo => .imm (lo + 2 ^ 15 * bits x 16 0) | p => p }
      | none =>
        let m (s : MvSrc) : MoveSlot := ⟨i, guardOf x, bits x 23 15, s⟩
        match bits x 30 29 with
        | 0 => if bits x 5 0 = 0 then next (m (.port (bits x 14 6))) else .bad exSlot i (bits x 23 15)
        | 1 => next (m (.imm (wrapInt 32 (sext 15 (bits x 14 0)))))
        | 2 => if bit x 31 || i == 3 then .bad exSlot i (bits x 23 15) else decodeFrom w f (i + 1) (some (m (.imm (bits x 14 0)))) acc
        | _ => if i = 0 then (match ctlOf x with | some c => .ctl c | none => .bad exSlot 0 0) else .bad exSlot i 0

/-- The word at a byte address of a core's instruction memory. -/
def imemWord (s : State) (k a : Nat) : Option Nat :=
  if a + 4 ≤ 0x10000 then some (leNat (memBytes s (imemBase + k * 0x10000 + a) 4)) else none

/-- The bundle at an address, errors of the memory aside. -/
def bundleAt (s : State) (k pc : Nat) : Bun := decodeFrom (fun i => imemWord s k (pc + 4 * i)) 4 0 none []

/-- Bytes that the fetch of a bundle reads. -/
def Bun.bytes : Bun → Nat
  | .moves _ n => n
  | .ctl _ => 4
  | .bad code i _ => if code = exEnd then 4 * i else 4 * (i + 1)

/-- Fetch a bundle: corrections are counted, an uncorrectable word raises IFETCH_UNCORR at its slot (R149). -/
def fetch (s : State) (k pc : Nat) : State × Bun :=
  let b := bundleAt s k pc
  match readMem s (imemBase + k * 0x10000 + pc) b.bytes with
  | (s, .ok _) => (s, b)
  | (s, .error a) => (s, .bad exFetch ((a - (imemBase + k * 0x10000 + pc)) / 4) 0)

/-! ### Exceptions (R145 to R148) -/

/-- An exception: its code, slot, port and address. -/
structure Exc where
  code : Nat
  slot : Nat := 0
  port : Nat := 0
  addr : Nat := 0
  deriving DecidableEq, Repr

/-- The status of a command whose core faulted (R148). -/
def excStatus (code : Nat) : Nat :=
  if code = exDenied then stDenied
  else if code = exUncorr ∨ code = exFetch then stUncorr
  else if code = exTimeout then stTimeout
  else if code = exDet then stDetRefused
  else stCoreException

/-- Cores that a CORES_RUN command still waits on no longer do. -/
def freeCores (id : Nat) (s : State) : State :=
  { s with cores := s.cores.map fun (k, c) => (k, if c.cmd = some id then { c with cmd := none } else c) }

/-- A core that a CORES_RUN command started has halted or faulted: the reply follows the last halt, or the first fault (R212). -/
def coresReply (id k : Nat) (fault : Option (Nat × Nat)) (s : State) : State :=
  match fault with
  | some (code, pc) => finish id (excStatus code) code pc k 0 (freeCores id s)
  | none => if s.cores.any fun (_, c) => c.cmd == some id then s else finish0 id stOk s

/-- Whether an offer is a core's own. -/
def coreOffer (k : Nat) (i : Issuer) (ch : Option (Nat × Nat)) : Bool := i == .core k && ch.isNone

def engWithout (k : Nat) (e : Eng) : Eng := { e with offers := e.offers.filter fun m => !coreOffer k m.issuer m.chain }
def lodeWithout (k : Nat) (l : Lode) : Lode := { l with offers := l.offers.filter fun m => !coreOffer k m.issuer m.chain }

/-- An offer of a core stands at a mover queue (`dmv`) or at an engine. -/
def offerStands (s : State) (k : Nat) (dmv : Bool) : Bool :=
  if dmv then s.lodes.any fun (_, l) => l.offers.any fun m => coreOffer k m.issuer m.chain
  else s.eng.any fun (_, e) => e.offers.any fun m => coreOffer k m.issuer m.chain

/-- A core whose waiting offer a lode's reset or loss has discarded offers it again (R82: no descriptor is lost). -/
def reoffer (s : State) : State :=
  s.cores.foldl (fun s (k, _) =>
    let c := s.core k
    let f (o : Offer) (dmv : Bool) : Offer := if o = .waiting ∧ !offerStands s k dmv then .none else o
    s.setCore k { c with mop := f c.mop false, dmv := f c.dmv true }) s

/-- Offers that a core has made and no queue has taken are withdrawn (R143). -/
def withdrawOffers (k : Nat) (s : State) : State :=
  let c := s.core k
  let s := { s with
    eng := s.eng.filterMap fun (n, e) => if engWithout k e = ({} : Eng) then none else some (n, engWithout k e)
    lodes := s.lodes.filterMap fun (n, l) => if lodeWithout k l = ({} : Lode) then none else some (n, lodeWithout k l) }
  let f (o : Offer) : Offer := if o = .waiting then .none else o
  s.setCore k { c with mop := f c.mop, dmv := f c.dmv }

/-- Take an exception (R147). EXC_PC holds bits 15:0 of the address, the record and the reply the whole of it. (DEDUCED, log entry 11;
DEDUCED, log entry 106.) -/
def takeExc (k : Nat) (e : Exc) (pc : Nat) (delayed : Bool) (s : State) : State :=
  let s := withdraw k none (withdrawOffers k s)
  let c := s.core k
  let left := match c.rep with | some r => r.total - r.done | none => 0
  let o := coreOwner s k
  let s := s.setCore k { c with
    st := .faulted, flight := [], wait := none, paused := none, exc := e.code, repLeft := left, stall := false, why := 0, cmd := none, mop := .none, dmv := .none
    nop := 0, halting := false }
  let s := ((s.setReg .bcExcPc k 0 (pc % 2 ^ 16)).setReg .bcExcInfo k 0 (e.slot + (if delayed then 4 else 0) + 8 * e.port)).setReg .bcExcAddr k 0 e.addr
  let s := raise 1 (if o = 0 then none else some (o - 1)) (regAddr .bcSts k 0 0) 0x8002
    (zeros 1 ++ leBytes 1 e.code ++ leBytes 4 k ++ leBytes 4 pc ++ leBytes 4 e.addr) (s.orReg .bcErr k 0 1)
  match c.cmd with
  | some id => coresReply id k (some (e.code, pc)) s
  | none => s

/-! ### Boundaries between issue cycles (R114, R137, R138, R143, R146) -/

def Flight.isDue (c : Core) (f : Flight) : Bool := decide (f.due ≤ c.cyc)

/-- Results due become visible on their ports, in the order of their triggers (R136, R137). -/
def applyDue (k : Nat) (s : State) : State :=
  let c := s.core k
  let now (f : Flight) : Bool := Flight.isDue c f && !f.late && f.ue.isNone
  let outs := (c.flight.filter now).flatMap (·.outs)
  s.setCore k { c with
    ports := outs.foldl (fun t (p, v) => tput 0 t p v) c.ports, flight := c.flight.filter fun f => !now f }

/-- A load due now whose data has not arrived. -/
def lateDue (c : Core) : Bool := c.flight.any fun f => Flight.isDue c f && f.late

/-- A delayed UNCORRECTABLE that is due. -/
def ueDue (c : Core) : Option Site := (c.flight.find? fun f => Flight.isDue c f && !f.late && f.ue.isSome).bind (·.ue)

/-- The boundary qualifies for a hold (R143); that a bundle waits on a full descriptor queue lets no hold in between a taken branch and its
target, or inside a repeat that is not interruptible. (DEDUCED, log entry 107.) -/
def holdPoint (c : Core) : Bool :=
  c.branch.isNone && !lateDue c && match c.rep with
    | some r => r.intr || r.done == 0
    | none => true

/-- A stall cycle with its cause; the store channel is free after it (R127). -/
def stallCycle (k why : Nat) (s : State) : State :=
  (s.count .bcStall k 0 1).setCore k { s.core k with stall := true, why := why, busy := none }

/-- A core that is clocked: its lode is not idle (R487) and not zero-filling. -/
def coreClocked (s : State) (k : Nat) : Bool := decide (256 ≤ k) || (awake s (k / 8) && tget 0 s.own.zeroing (k / 8) == 0)

/-- The boundary before an issue cycle: a delayed exception is taken, a stall counts, a requested hold keeps the core from issuing; otherwise
the results due are visible, and the core may issue. (DEDUCED, log entry 107.) -/
def coreBegin (k : Nat) (s : State) : State × Bool :=
  let c := s.core k
  if c.st ≠ .running ∨ c.halting ∨ !coreClocked s k then (s, false)
  else if lateDue c then (stallCycle k 1 s, false)
  else match ueDue c with
    | some e => (takeExc k { code := exUncorr, slot := e.slot, port := e.port, addr := e.addr } e.pc true s, false)
    | none =>
      if coreHold s k && holdPoint c then (s, false)
      else if c.wait.isSome then (stallCycle k 3 s, false)
      else (applyDue k s, true)

/-- The address the next issue cycle takes its bundle from. -/
def nextPc (c : Core) : Nat := match c.rep with | some r => r.pc | none => c.pc

/-- An issue cycle has passed: the program counter, the branch and the repeat go on (R139, R141). `len` is the bundle's length. -/
def coreNext (k len : Nat) (taken : Option Nat) (s : State) : State :=
  let c := s.core k
  let c := { c with cyc := c.cyc + 1, stall := false, why := 0, mop := .none, dmv := .none }
  let c := match c.rep with
    | some r => if r.done + 1 ≥ r.total then { c with rep := none, pc := r.next } else { c with rep := some { r with done := r.done + 1 } }
    | none =>
      match taken, c.branch with
      | some t, _ => { c with pc := c.pc + len, branch := some (t, 2) }
      | none, some (t, n + 2) => { c with pc := c.pc + len, branch := some (t, n + 1) }
      | none, some (t, _) => { c with pc := t, branch := none }
      | none, none => { c with pc := c.pc + len }
  (s.count .bcIssue k 0 1).setCore k c

/-! ### Moves (R115, R119, R122, R123) -/

/-- The value a port reads (R121). -/
def portValue (s : State) (k p : Nat) : Nat :=
  let c := s.core k
  match p with
  | 0x110 => 0
  | 0x111 => k
  | 0x112 => let o := coreOwner s k; if o = 0 then 0xFFFFFFFF else o - 1
  | 0x113 => c.cyc % 2 ^ 32
  | 0x115 => s.now % 2 ^ 32
  | 0x117 => match c.rep with | some r => r.done | none => 0
  | 0x118 => 0xFFFFFFFF
  | _ => tget 0 c.ports p

def enabled (c : Core) (m : MoveSlot) : Bool :=
  match m.guard with
  | none => true
  | some (p, sense) => (tget 0 c.ports (0x50 + p) == 1) != sense

/-- The first move whose ports break R122: its slot and the port, its source before its destination; the destination where the
widths do not fit. (DEDUCED, log entry 11; DEDUCED, log entry 50.) -/
def portFault (ibc : Bool) : List MoveSlot → Option (Nat × Nat)
  | [] => none
  | m :: t =>
    let wide : Option Bool := match m.src with
      | .imm _ => some false
      | .port p => match portInfo ibc p with
        | some (sw, true, _) => some (sw == 512)
        | _ => none
    match wide with
    | none => some (m.slot, match m.src with | .port p => p | .imm _ => m.dst)
    | some wide => match portInfo ibc m.dst with
      | some (dw, _, true) => if wide && dw != 512 then some (m.slot, m.dst) else portFault ibc t
      | _ => some (m.slot, m.dst)

/-- The first enabled move that breaks R123: its slot and port. (DEDUCED, log entry 50.) -/
def multiFault : List MoveSlot → List MoveSlot → Option (Nat × Nat)
  | _, [] => none
  | seen, m :: t =>
    if seen.any fun x => x.dst == m.dst || (unitOf m.dst != 0 && unitOf x.dst == unitOf m.dst) then some (m.slot, m.dst)
    else multiFault (seen ++ [m]) t

/-- The value a move carries to its destination. -/
def moveValue (s : State) (k : Nat) (m : MoveSlot) : Nat :=
  let ibc := decide (256 ≤ k)
  let dw := match portInfo ibc m.dst with | some (w, _, _) => w | none => 32
  let (sw, v) : Nat × Nat := match m.src with
    | .imm v => (32, v)
    | .port p => (match portInfo ibc p with | some (w, _, _) => w | none => 32, portValue s k p)
  (convert sw dw v).getD 0

/-- Write the destinations: the ports as triggers see them (R115 steps 3 and 4), with the latches that reads of CORE.CYC and CORE.TBL
leave. -/
def movePorts (s : State) (k : Nat) (ms : List MoveSlot) : Tbl Nat :=
  let c := s.core k
  let vs := ms.map fun m => (m.dst, moveValue s k m)
  let reads (p : Nat) : Bool := ms.any fun m => m.src == .port p
  let t := vs.foldl (fun t (p, v) => tput 0 t p v) c.ports
  let t := if reads 0x113 then tput 0 t 0x114 (c.cyc / 2 ^ 32 % 2 ^ 32) else t
  if reads 0x115 then tput 0 t 0x116 (s.now / 2 ^ 32 % 2 ^ 32) else t

/-! ### Triggers: their checks (R124 to R134, R139, R154) -/

/-- What a trigger needs: the core, its slot, its port and value, and the operand ports as it sees them. -/
structure Trig where
  k    : Nat
  slot : Nat
  port : Nat
  v    : Nat
  ops  : Tbl Nat
  deriving DecidableEq, Repr

def Trig.op (t : Trig) (p : Nat) : Nat := tget 0 t.ops p
def Trig.exc (t : Trig) (code addr : Nat) : Exc := ⟨code, t.slot, t.port, addr⟩

def coreReq (s : State) (k : Nat) : Requester := ownReq (coreOwner s k) k

/-- The ACCESS_DENIED of R126: an extent outside strata memory, or not granted. -/
def strataBad (s : State) (k a n : Nat) (wr : Bool) : Bool :=
  decide (2 ^ 29 < a + n) || !permits s (coreReq s k) (strataBase + a) n wr

/-- The exception of an access refused by the region table: ACCESS_DENIED, or UNCORRECTABLE where its entry cannot be read (R317). -/
def refusedExc (s : State) (k a n : Nat) : Nat := if tableUe s (coreReq s k) (strataBase + a) n then exUncorr else exDenied

/-- Bytes and alignment of a load, and of a store with its length; none for an undefined operation (R127). -/
def loadForm (lop : Nat) : Option (Nat × Nat) :=
  match lop with
  | 0 | 1 => some (1, 1)
  | 2 | 3 => some (2, 2)
  | 4 => some (4, 4)
  | 5 => some (64, 64)
  | _ => none

def storeForm (sop len : Nat) : Option (Nat × Nat) :=
  match sop with
  | 0 => some (1, 1)
  | 1 => some (2, 2)
  | 2 => some (4, 4)
  | 3 => some (64, 64)
  | 4 => if 1 ≤ len ∧ len ≤ 64 then some (len, 1) else none
  | _ => none

def Trig.loadAt (t : Trig) : Nat := (t.op 0x0A0 + t.v) % 2 ^ 32
def Trig.storeAt (t : Trig) : Nat := (t.op 0x0A6 + t.v) % 2 ^ 32

/-- An access's exception (R126, R127). -/
def accessExc (s : State) (t : Trig) (form : Option (Nat × Nat)) (a : Nat) (wr : Bool) : Option Exc :=
  match form with
  | none => some (t.exc exBadOp 0)
  | some (n, al) =>
    if a % al ≠ 0 then some (t.exc exAlign a)
    else if strataBad s t.k a n wr then some (t.exc (refusedExc s t.k a n) a)
    else none

/-- The lode whose mover queue a DMV offer of a core reaches (R133, R154). -/
def dmvLode (k a : Nat) : Nat := if k < 256 then k / 8 else bits a 28 24

/-- A descriptor offer's exception (R133). -/
def offerExc (s : State) (t : Trig) : Option Exc :=
  if t.port = 0x109 ∧ 1 < t.op 0x108 then some (t.exc exBadOp 0)
  else if t.v % 64 ≠ 0 then some (t.exc exAlign t.v)
  else if strataBad s t.k t.v 64 false then some (t.exc (refusedExc s t.k t.v 64) t.v)
  else if t.port = 0x100 ∧ 256 ≤ t.k ∧ lodeOwner s (dmvLode t.k t.v) ≠ coreOwner s t.k then some (t.exc exDenied t.v)
  else none

/-- The tenant of a core as an argument of tenant pages. -/
def coreTen (s : State) (k : Nat) : Nat := coreOwner s k - 1

def coreXl (s : State) (k ident : Nat) : Xl := translateFor s (coreOwner s k) (coreBind s k) ident

/-- Identifiers a sync trigger names, in order: their bits [31:24] are checked at that trigger (R134). (DEDUCED, log entry 106.) -/
def Trig.idents (t : Trig) : List Nat := if t.port = 0x0F7 then [t.op 0x0F0, t.op 0x0F1, t.op 0x0F2, t.op 0x0F3] else [t.op 0x0F0]

/-- A sync trigger's exception (R134, R236, R238, R254). (DEDUCED, log entry 21.) -/
def syncExc (s : State) (t : Trig) : Option Exc :=
  if 2 ^ 24 ≤ t.v ∨ t.v = 0 ∨ t.idents.any (fun i => decide (2 ^ 24 ≤ i)) then some (t.exc exBadOp 0)
  else
    let bad (i : Nat) : Option Exc := match coreXl s t.k i with
      | .phys _ => none
      | .remote _ _ => if t.port = 0x0F5 then none else some (t.exc exDenied i)
      | .none => some (t.exc exDenied i)
      | .ue => some (t.exc exUncorr i)
    match t.idents.findSome? bad with
    | some e => some e
    | none => if t.port = 0x0F7 ∧ 0 < coreOwner s t.k ∧ strict s (coreTen s t.k) then some (t.exc exDet 0) else none

/-- A transmit entry's exception (R360, R42). -/
def txExc (s : State) (t : Trig) (e : Bytes) : Option Exc :=
  let len := fld e 0 2
  let mac := fld e 2 1
  if 32 ≤ mac ∨ !macUsed s mac ∨ len < 60 ∨ maxFrame s (mac / 4) < len + 4 ∨ fld e 3 1 ≠ 0 ∨ !allZero (slice e 16 16) then some (t.exc exBadOp 0)
  else if !permits s (coreReq s t.k) (fld e 8 8) len false then some (t.exc exDenied t.v)
  else if fld e 4 4 ≠ 0 then match coreXl s t.k (fld e 4 4 % 2 ^ 24) with
    | .none => some (t.exc exDenied t.v)
    | .ue => some (t.exc exUncorr t.v)
    | _ => none
  else none

/-- Whether a storage submission work queue belongs to an IBC-fed queue (R404). -/
def ibcFed (s : State) (q : Nat) : Bool := (s.stoQ (q - 256)).active && (s.stoQ (q - 256)).ibc

/-- An IBC queue trigger's exception (R154, R358, R360, R404). (DEDUCED, log entry 20.) -/
def queueExc (s : State) (t : Trig) : Option Exc :=
  let q := t.op 0x180
  match wqOf q with
  | none => some (t.exc exBadOp 0)
  | some (ten, size, _) =>
    if coreOwner s t.k ≠ ten + 1 then some (t.exc exDenied t.v)
    else if strataBad s t.k t.v size (t.port == 0x181) then some (t.exc (refusedExc s t.k t.v size) t.v)
    else if t.port = 0x182 ∧ 256 ≤ q ∧ q < 512 ∧ !ibcFed s q then some (t.exc exDenied t.v)
    else if t.port = 0x182 ∧ 128 ≤ q ∧ q < 256 then txExc s t (strataBytes s t.v 32)
    else none

/-- The exception a trigger raises, if any. (DEDUCED, log entry 50.) -/
def trigExc (s : State) (t : Trig) : Option Exc :=
  let badOp (ok : Bool) : Option Exc := if ok then none else some (t.exc exBadOp 0)
  match t.port with
  | 0x082 => badOp (aluOp (t.op 0x081) (t.op 0x080) t.v).isSome
  | 0x08A => badOp (aluOp (t.op 0x089) (t.op 0x088) t.v).isSome
  | 0x092 => badOp (mulOp (t.op 0x091) (t.op 0x090) t.v).isSome
  | 0x0A3 => accessExc s t (loadForm (t.op 0x0A2)) t.loadAt false
  | 0x0AC => accessExc s t (storeForm (t.op 0x0A8) (t.op 0x0A9)) t.storeAt true
  | 0x0B3 => badOp (vpuOp (t.op 0x0B2) 0 0 0).isSome
  | 0x0C1 | 0x0C2 => badOp (decide (t.op 0x0C0 ≤ 3))
  | 0x0D5 => badOp (cvtOp (t.op 0x0D4) 0 0 0 0 0).isSome
  | 0x0E0 | 0x0E1 => if t.v % 4 ≠ 0 ∨ 2 ^ 16 ≤ t.v then some (t.exc exTarget t.v) else none
  | 0x0F5 | 0x0F6 | 0x0F7 => syncExc s t
  | 0x100 | 0x109 => offerExc s t
  | 0x181 | 0x182 => queueExc s t
  | _ => none

/-- An exception by R42 is reported as a refused request too. -/
def reportDenied (s : State) (k : Nat) (e : Exc) : State :=
  if e.code = exDenied ∧ (e.port = 0x0A3 ∨ e.port = 0x0AC ∨ e.port = 0x100 ∨ e.port = 0x109 ∨ e.port = 0x181 ∨ e.port = 0x182) then
    addrDenied (coreReq s k) s
  else if e.code = exUncorr ∧ tableUe s (coreReq s k) (strataBase + e.addr) 64 then tableErr s
  else s

/-! ### Triggers: their effects -/

/-- Put a result in flight from the present issue cycle. -/
def fly (k lat : Nat) (outs : List (Nat × Nat)) (late : Bool) (ue : Option Site) (s : State) : State :=
  let c := s.core k
  s.setCore k { c with flight := c.flight ++ [⟨c.cyc + lat, outs, late, ue, none⟩] }

def setPort (k p v : Nat) (s : State) : State :=
  let c := s.core k
  s.setCore k { c with ports := tput 0 c.ports p v }

def Trig.site (t : Trig) (s : State) (a : Nat) : Site := ⟨nextPc (s.core t.k), t.slot, t.port, a⟩

/-- Data of another lode, and all data of an IBC, arrive by an event of their own (R138, R154). (DEDUCED, log entry 21.) -/
def farLoad (k a : Nat) : Bool := decide (256 ≤ k) || decide (a / 2 ^ 24 ≠ k / 8)

/-- A load: LSU.A gains its increment, the data are read at the trigger (R126, R128). One of another lode reads the whole line (R164). -/
def doLoad (t : Trig) (late : Bool) (s : State) : State :=
  let a := t.loadAt
  let lop := t.op 0x0A2
  let n := match loadForm lop with | some (n, _) => n | none => 0
  let far := farLoad t.k a
  let s := wakeAt (strataBase + a) (setPort t.k 0x0A0 ((t.op 0x0A0 + t.op 0x0A1) % 2 ^ 32) s)
  let b := memBytes s (strataBase + a) n
  let v := leNat b
  let v := if lop = 1 then wrapInt 32 (sext 8 v) else if lop = 3 then wrapInt 32 (sext 16 v) else v
  let (s, e) := if far then cwReads s (cwsOf (strataBase + a / 64 * 64) 64) else cwReads s (cwsOf (strataBase + a) n)
  let c := s.core t.k
  s.setCore t.k { c with flight := c.flight ++ [{
    due := c.cyc + 4, late := late || far, lode := some (a / 2 ^ 24)
    outs := if e.isSome then [] else [(if lop = 5 then 0x0A5 else 0x0A4, v)]
    ue := if e.isSome then some (t.site s a) else none }] }

/-- A store: LSU.S gains its increment. -/
def doStore (t : Trig) (s : State) : State :=
  let a := t.storeAt
  let sop := t.op 0x0A8
  let n := match storeForm sop (t.op 0x0A9) with | some (n, _) => n | none => 0
  let d := if sop ≤ 2 then t.op 0x0AA else t.op 0x0AB
  let s := wakeAt (strataBase + a) (setPort t.k 0x0A6 ((t.op 0x0A6 + t.op 0x0A7) % 2 ^ 32) s)
  let c := s.core t.k
  let s := s.setCore t.k { c with busy := if a / 64 ≠ (a + n - 1) / 64 then some (c.cyc + 1) else c.busy }
  match storeWhole s (strataBase + a) (leBytes n d) with
  | (s, none) => s
  | (s, some _) => fly t.k 4 [] false (some (t.site s a)) s

/-- A sync trigger: a signal leaves (R135), or the wait travels to its counters. -/
def doSync (t : Trig) (s : State) : State :=
  let o := coreOwner s t.k
  let ten := coreTen s t.k
  let ctx := coreBind s t.k
  if t.port = 0x0F5 then sendSig t.k (ownTen o) (coreXl s t.k (t.op 0x0F0)) t.v none s
  else
    let any := t.port == 0x0F7
    let s := if any ∧ 0 < o then varCount ten (s.core t.k).cmd s else s
    let tmo := tmoOf s ten ctx (t.op 0x0F0) (t.op 0x0F4)
    let s := (t.idents.zipIdx).foldl (fun s (i, j) =>
      match coreXl s t.k i with
      | .phys p => sendWait p ⟨t.k, t.v, none, i, if bit i 23 then ctx.getD 0xFFFF else 0xFFFF, tmo, ownTen o, if any then some j else none, none⟩ s
      | _ => s) s
    let s := s.setCore t.k { s.core t.k with wait := some (any, t.op 0x0F0) }
    if t.k < 256 then syncPoint (t.k / 8) s else s

/-- Whether pops of a work queue depend on arrival order (R253, R357, R405). -/
def popCounted (s : State) (q : Nat) : Bool :=
  if q < 128 then rxMulti s q
  else if 512 ≤ q ∧ q < 768 then
    decide (1 < (s.sto.queues.filter fun (i, x) => x.active && x.ibc && i / 16 == (q - 512) / 16 && x.k == q % 16).length)
  else false

/-- QPOP: the next entry is copied and the result is 1; an empty queue gives 0 (R154). (DEDUCED, log entry 20.) -/
def doPop (t : Trig) (s : State) : State :=
  let q := t.op 0x180
  match s.wq q with
  | [] => fly t.k 4 [(0x183, 0)] false none s
  | e :: rest =>
    let size := match wqOf q with | some (_, n, _) => n | none => 0
    match storeWhole s (strataBase + t.v) (fit size e.bytes) with
    | (s, some _) => fly t.k 4 [] false (some (t.site s t.v)) s
    | (s, none) =>
      let s := s.setWq q rest
      let s := if popCounted s q then varCount (coreTen s t.k) (s.core t.k).cmd s else s
      fly t.k 4 [(0x183, 1)] false none s

/-- QPUSH: the entry is posted and the result is 1; a full queue gives 0. (DEDUCED, log entry 20.) -/
def doPush (t : Trig) (s : State) : State :=
  let q := t.op 0x180
  let (size, cap) := match wqOf q with | some (_, n, m) => (n, m) | none => (0, 0)
  if cap ≤ (s.wq q).length then fly t.k 4 [(0x183, 0)] false none s
  else match readMem s (strataBase + t.v) size with
    | (s, .error _) => fly t.k 4 [] false (some (t.site s t.v)) s
    | (s, .ok b) =>
      let y := fld b 4 4
      let sig := if 128 ≤ q ∧ q < 256 ∧ y ≠ 0 then some (coreXl s t.k (y % 2 ^ 24), y / 2 ^ 24) else none
      fly t.k 4 [(0x183, 1)] false none (s.setWq q (s.wq q ++ [{ bytes := b, sig := sig }]))

/-- A unit that computes: its results fly, its flags are reported. -/
def doUnit (t : Trig) (s : State) : State :=
  let flags (m : Nat) (s : State) : State := if m = 0 then s else s.orReg .bcArith t.k 0 m
  match t.port with
  | 0x082 => fly t.k 1 [(0x083, (aluOp (t.op 0x081) (t.op 0x080) t.v).getD 0)] false none s
  | 0x08A => fly t.k 1 [(0x08B, (aluOp (t.op 0x089) (t.op 0x088) t.v).getD 0)] false none s
  | 0x092 =>
    let p := (mulOp (t.op 0x091) (t.op 0x090) t.v).getD 0
    fly t.k 3 [(0x093, p % 2 ^ 32), (0x094, p / 2 ^ 32)] false none s
  | 0x0B3 => match vpuOp (t.op 0x0B2) (t.op 0x0B0) (t.op 0x0B1) t.v with
    | some r => flags r.flags (fly t.k 4 ((match r.v with | some v => [(0x0B4, v)] | none => []) ++ match r.s with | some v => [(0x0B5, v)] | none => []) false none s)
    | none => s
  | 0x0C1 => match sfuOp (t.op 0x0C0) [t.v] with
    | some (l, f) => flags f (fly t.k 8 [(0x0C3, l.headD 0)] false none s)
    | none => s
  | 0x0C2 => match sfuOp (t.op 0x0C0) (lanes 32 16 t.v) with
    | some (l, f) => flags f (fly t.k 8 [(0x0C4, joinLanes 32 l)] false none s)
    | none => s
  | 0x0D5 => match cvtOp (t.op 0x0D4) (t.op 0x0D0) (t.op 0x0D1) (t.op 0x0D2) (t.op 0x0D3) t.v with
    | some r => flags r.flags (fly t.k 4 [(0x0D6, r.vq), (0x0D7, r.vq2), (0x0D8, r.sq)] false none s)
    | none => s
  | _ => s

/-- BR.LINK of a call (R139): the address of the bundle at the third issue cycle, or of a delay bundle that cannot be decoded. One whose
fetch is uncorrectable counts by the bytes stored. (DEDUCED, log entry 106.) -/
def linkAt (s : State) (k pc len : Nat) : Nat :=
  let a := pc + len
  match bundleAt s k a with
  | .bad _ _ _ => a
  | b => match bundleAt s k (a + b.bytes) with
    | .bad _ _ _ => a + b.bytes
    | d => a + b.bytes + d.bytes

/-- The effect of a trigger. -/
def doTrig (late : Bool) (len : Nat) (t : Trig) (s : State) : State :=
  match t.port with
  | 0x0A3 => doLoad t late s
  | 0x0AC => doStore t s
  | 0x0E1 => setPort t.k 0x0E2 (linkAt s t.k (s.core t.k).pc len) s
  | 0x0F5 | 0x0F6 | 0x0F7 => doSync t s
  | 0x181 => doPop t s
  | 0x182 => doPush t s
  | _ => doUnit t s

/-! ### Descriptor offers (R82, R133) -/

/-- How far the offer of a trigger is. -/
def Trig.offer (t : Trig) (c : Core) : Offer := if t.port = 0x100 then c.dmv else c.mop

/-- Make an offer that has not been made: the descriptor's read may meet an uncorrectable codeword. -/
def makeOffer (t : Trig) (s : State) : State × Option Exc :=
  let k := t.k
  let dmv := t.port == 0x100
  let c := s.core k
  if t.offer c = .none then
    match readMem s (strataBase + t.v) 64 with
    | (s, .error _) => (s, some (t.exc exUncorr t.v))
    | (s, .ok d) =>
      if dmv then
        let n := dmvLode k t.v
        let l := s.lode n
        let s := s.setLode n { l with offers := l.offers ++ [⟨d, .core k, none⟩] }
        (s.setCore k { s.core k with dmv := .waiting }, none)
      else
        let n := 2 * (k / 8) + t.op 0x108
        let e := s.engine n
        let s := s.setEngine n { e with offers := e.offers ++ [⟨d, k % 8, .core k, none⟩] }
        (s.setCore k { s.core k with mop := .waiting }, none)
  else (s, none)

/-- Make the offers of a bundle, up to an exception. -/
def makeOffers : List Trig → State → State × Option Exc
  | [], s => (s, none)
  | t :: r, s => match makeOffer t s with
    | (s, some e) => (s, some e)
    | (s, none) => makeOffers r s

/-! ### Issue -/

/-- Issue a bundle of moves of `len` bytes at `pc` (R115). The checks come first, in the order of log entry 50: ports, double writes, delay
position, triggers in slot order; a bundle that fails one has no effect. A bundle with descriptors first offers them, and its cycle goes
on once MOD_ENQUEUE and MOVE_ENQUEUE have made the enqueues of that cycle: it issues where they were taken, else it stalls (R83, R133).
One of two descriptors may be taken while the other waits. (DESIGN CHOICE, log entry 105.) -/
def issueMoves (k : Nat) (late : Bool) (ms : List MoveSlot) (pc len : Nat) (s : State) : State :=
  let c := s.core k
  let fault (e : Exc) (s : State) : State := takeExc k e pc false (reportDenied s k e)
  match portFault (decide (256 ≤ k)) ms with
  | some (sl, p) => fault ⟨exPort, sl, p, 0⟩ s
  | none =>
    let en := ms.filter (enabled c)
    match multiFault [] en with
    | some (sl, p) => fault ⟨exMulti, sl, p, 0⟩ s
    | none =>
      let ports := movePorts s k en
      let trigs := (en.filter fun m => unitOf m.dst != 0).map fun m => (⟨k, m.slot, m.dst, moveValue s k m, ports⟩ : Trig)
      let isBr (t : Trig) : Bool := t.port == 0x0E0 || t.port == 0x0E1
      match (if c.branch.isSome then trigs.find? isBr else none) with
      | some t => fault ⟨exDelay, t.slot, t.port, 0⟩ s
      | none =>
        match trigs.findSome? (trigExc s) with
        | some e => fault e (if e.code = exDet then varRefuse (coreTen s k) s else if e.code = exUncorr then s.orReg .syncErr 0 0 0x10 else s)
        | none =>
          if c.busy = some c.cyc ∧ trigs.any (fun t => t.port == 0x0AC) then stallCycle k 0 s
          else
            let offers := trigs.filter fun t => t.port == 0x100 || t.port == 0x109
            if offers.any (fun t => t.offer c = .none) then
              match makeOffers offers s with
              | (s, some e) => fault e (withdrawOffers k s)
              | (s, none) => s
            else
              if c.mop = .waiting ∨ c.dmv = .waiting then stallCycle k 2 s
              else
                let s := s.setCore k { c with ports := ports }
                let first := trigs.filter fun t => t.port == 0x0A3
                let rest := trigs.filter fun t => t.port != 0x0A3
                let s := (first ++ rest).foldl (fun s t => doTrig late len t s) s
                coreNext k len ((trigs.find? isBr).map (·.v)) s

/-- One clock cycle of a core that has a bundle of moves to issue, an iteration of a repeat, or a bundle that cannot be decoded. -/
def issueCycle (k : Nat) (late : Bool) (s : State) : State :=
  match coreBegin k s with
  | (s, false) => s
  | (s, true) =>
    let c := s.core k
    let pc := nextPc c
    if c.nop ≠ 0 then s
    else match fetch s k pc with
      | (s, .bad code sl p) => takeExc k { code := code, slot := sl, port := p } pc false s
      | (s, .moves ms len) => issueMoves k late ms pc len s
      | (s, .ctl _) => s

/-- A clock cycle of a core with a bundle of moves to issue (R115). -/
def execBundleIssue (k : Nat) (late : Bool) (s : State) : Res := run (k < 272) s (issueCycle k late)

/-- An idle issue cycle of a NOP with `n` of them left. -/
def nopCycle (k n : Nat) (s : State) : State :=
  let c := s.core k
  if n = 1 then coreNext k 4 none (s.setCore k { c with nop := 0 })
  else (s.count .bcIssue k 0 1).setCore k { c with nop := n - 1, cyc := c.cyc + 1, stall := false, why := 0 }

/-- One clock cycle of a NOP: its first idle cycle, or the next one. -/
def nopStep (k : Nat) (s : State) : State × Bool :=
  match coreBegin k s with
  | (s, false) => (s, false)
  | (s, true) =>
    let c := s.core k
    if c.nop ≠ 0 then (nopCycle k c.nop s, decide (1 < c.nop))
    else if c.rep.isSome then (s, false)
    else match fetch s k c.pc with
      | (s, .ctl (.nop n)) =>
        if c.branch.isSome ∧ n ≠ 1 then (takeExc k { code := exDelay } c.pc false s, false) else (nopCycle k n s, decide (1 < n))
      | (s, _) => (s, false)

def nopRun (k : Nat) : Nat → State → State
  | 0, s => s
  | f + 1, s => match nopStep k s with
    | (s, true) => nopRun k f s
    | (s, false) => s

/-- A NOP bundle: its idle issue cycles, up to the first at which the core stalls, is held or faults (R120). -/
def execCtlNop (k : Nat) (s : State) : Res := run (k < 272) s (nopRun k 4096)

/-- Whether the bundle after a REPEAT may follow it (R142). (DEDUCED, log entry 11.) -/
def repeatable (intr : Bool) (b : Bun) : Bool :=
  match b with
  | .moves ms _ => ms.all fun m => m.dst != 0x0E0 && m.dst != 0x0E1 && (intr || (m.dst != 0x0F6 && m.dst != 0x0F7))
  | _ => false

/-- Reach a REPEAT prefix (R141, R142): check it and begin; a count of 0 takes one issue cycle and skips the bundle. Answers whether
iterations remain to issue. -/
def beginRepeat (k : Nat) (intr : Bool) (reg : Option Nat) (count : Nat) (s : State) : State × Bool :=
  let c := s.core k
  let n := match reg with | some g => tget 0 c.ports g | none => count
  let bad (code addr pc : Nat) (s : State) : State × Bool := (takeExc k { code := code, addr := addr } pc false s, false)
  if c.branch.isSome then bad exDelay 0 c.pc s
  else match fetch s k (c.pc + 4) with
    | (s, .bad code sl p) => (takeExc k { code := code, slot := sl, port := p } (c.pc + 4) false s, false)
    | (s, b) =>
      if !repeatable intr b then bad exRepeat 0 c.pc s
      else if 4096 < n then bad exCount n c.pc s
      else if n = 0 then (coreNext k (4 + b.bytes) none s, false)
      else (s.setCore k { c with rep := some ⟨c.pc + 4, c.pc + 4 + b.bytes, n, 0, intr⟩ }, true)

/-- Issue iterations until the repeat ends or the core stalls, is held or faults. -/
def repeatRun (k : Nat) (late : Bool) : Nat → State → State
  | 0, s => s
  | f + 1, s =>
    match (s.core k).rep with
    | none => s
    | some r =>
      let s := issueCycle k late s
      match (s.core k).rep with
      | none => s
      | some r' => if r'.done = r.done then s else repeatRun k late f s

/-- REPEAT: the prefix is reached, or an interrupted repeat goes on (R141). -/
def execRepeatCtl (k : Nat) (late : Bool) (s : State) : Res :=
  run (k < 272) s fun s =>
    if (s.core k).rep.isSome then repeatRun k late 4096 s
    else match coreBegin k s with
      | (s, false) => s
      | (s, true) =>
        if (s.core k).nop ≠ 0 then s
        else match fetch s k (s.core k).pc with
          | (s, .ctl (.rep intr reg count)) =>
            match beginRepeat k intr reg count s with
            | (s, true) => repeatRun k late 4096 s
            | (s, false) => s
          | (s, _) => s

/-- HALT: one issue cycle, and the program ends (R120). -/
def execHalt (k : Nat) (s : State) : Res :=
  run (k < 272) s fun s =>
    match coreBegin k s with
    | (s, false) => s
    | (s, true) =>
      let c := s.core k
      if c.nop ≠ 0 ∨ c.rep.isSome then s
      else match fetch s k c.pc with
        | (s, .ctl .halt) =>
          if c.branch.isSome then takeExc k { code := exDelay } c.pc false s
          else
            let s := coreNext k 4 none s
            s.setCore k { s.core k with halting := true }
        | (s, _) => s

/-- Results of a halting core become visible in order as if issue went on (R120); answers whether all are. -/
def drainFlights (k : Nat) : Nat → State → State
  | 0, s => s
  | f + 1, s =>
    let c := s.core k
    match c.flight with
    | [] => s
    | _ =>
      if lateDue c then s
      else match ueDue c with
        | some e => takeExc k { code := exUncorr, slot := e.slot, port := e.port, addr := e.addr } e.pc true s
        | none =>
          let s := applyDue k s
          let c := s.core k
          if c.flight = [] then s else drainFlights k f (s.setCore k { c with cyc := c.cyc + 1 })

/-- A halting core becomes HALTED once every result in flight is visible; a delayed UNCORRECTABLE that falls due leaves it FAULTED (R120,
R152). -/
def execHaltComplete (k : Nat) (s : State) : Res :=
  run (k < 272) s (onlyIf ((s.core k).halting && (s.core k).st == .running) fun s =>
    let s := drainFlights k 16 s
    let c := s.core k
    if c.st = .running ∧ c.flight = [] then
      let s := s.setCore k { c with st := .halted, halting := false, stall := false, why := 0, cmd := none }
      match c.cmd with
      | some id => coresReply id k none s
      | none => s
    else s)

/-- A result that is due becomes visible on its port (R137). -/
def execUnitResultVisible (k : Nat) (s : State) : Res :=
  run (k < 272) s (onlyIf ((s.core k).st == .running || (s.core k).st == .held) (applyDue k))

/-- The data of a late load may arrive: its lode is clocked and does not zero-fill (R168, R487). -/
def dataReady (s : State) (f : Flight) : Bool :=
  match f.lode with | some n => awake s n && tget 0 s.own.zeroing n == 0 | none => true

/-- The data of the oldest late load arrive, and a stall on them ends (R138). (DEDUCED, log entry 21.) -/
def execLoadDataArrival (k : Nat) (s : State) : Res :=
  run (k < 272) s fun s =>
    let c := s.core k
    match takeFirst (fun f => f.late) c.flight with
    | none => s
    | some (f, _) =>
      if !dataReady s f then s
      else
      let rec go : List Flight → List Flight
        | [] => []
        | f :: t => if f.late then { f with late := false } :: t else f :: go t
      s.setCore k { c with flight := go c.flight, stall := if c.why = 1 then false else c.stall, why := if c.why = 1 then 0 else c.why }

/-- A delayed UNCORRECTABLE is taken at the boundary at which the access would have become visible (R146). (DEDUCED, log entry 20.) -/
def execDelayedUncorrectable (k : Nat) (s : State) : Res :=
  run (k < 272) s (onlyIf ((s.core k).st == .running && !lateDue (s.core k)) fun s =>
    match ueDue (s.core k) with
    | some e => takeExc k { code := exUncorr, slot := e.slot, port := e.port, addr := e.addr } e.pc true s
    | none => s)

/-! ### Holds and starts (R143, R144, R150 to R152) -/

/-- A requested hold is taken: the wait's timeout pauses, an offer that waits is withdrawn, the repeat count is saved (R143, R144). -/
def holdCore (k : Nat) (s : State) : State :=
  let (s, left) := pauseWaits k (withdrawOffers k s)
  let c := s.core k
  holdReplies (s.setCore k { c with
    st := .held, paused := left, stall := false, why := 0, busy := none
    repLeft := match c.rep with | some r => r.total - r.done | none => c.repLeft })

/-- A core takes a hold that is requested at a boundary that qualifies, unless an exception is due there: a delayed UNCORRECTABLE, or the
SYNC_TIMEOUT of a wait that has expired (R143, R153). (DEDUCED, log entry 107.) -/
def execCoreHoldTaken (k : Nat) (s : State) : Res :=
  run (k < 272) s (onlyIf
    ((s.core k).st == .running && !(s.core k).halting && coreHold s k && holdPoint (s.core k) && (ueDue (s.core k)).isNone && !waitExpired s k && coreClocked s k)
    (holdCore k))

/-- Start a HALTED core at START_PC for the command that starts it, if any (R151); the exception fields are cleared. -/
def startCore (k : Nat) (cmd : Option Nat) (s : State) : State :=
  let c := s.core k
  let s := ((s.setReg .bcExcPc k 0 0).setReg .bcExcInfo k 0 0).setReg .bcExcAddr k 0 0
  s.setCore k { c with
    st := .running, pc := s.reg .bcStartPc k % 2 ^ 16, cyc := 0, flight := [], nop := 0, rep := none, branch := none, halting := false
    wait := none, mop := .none, dmv := .none, busy := none, exc := 0, fwLost := false, repLeft := 0, why := 0, stall := false, cmd := cmd }

/-- A write of BC[k].CTRL (R155): HOLD is held, START acts on a HALTED core and is otherwise ignored, CLEAR acts on a FAULTED one. -/
def bcCtrlWrite (who k v : Nat) (s : State) : State :=
  instWrite who (coreOwner s k) (fun s =>
    let st := (s.core k).st
    let s := s.setField .bcCtrl k 0 1 1 (bits v 1 1)
    let s := if bit v 0 then (if st = .halted then startCore k none s else s.orReg .bcErr k 0 2) else s
    let s := if bit v 2 ∧ st = .faulted then s.setCore k { s.core k with st := .halted } else s
    holdsChanged s) s

/-- A write of BC[k].CTRL as a hold, a start and a clear: the register is one. -/
def execBcHoldWrite (who k : Nat) (val : Word) (s : State) : Res := run (who < 19 && k < 272) s (bcCtrlWrite who k val.toNat)
def execCoreStart (who k : Nat) (val : Word) (s : State) : Res := run (who < 19 && k < 272) s (bcCtrlWrite who k val.toNat)
def execCoreClear (who k : Nat) (val : Word) (s : State) : Res := run (who < 19 && k < 272) s (bcCtrlWrite who k val.toNat)

/-- A write to a core's instruction memory, at a byte offset in it (R149, R150). -/
def execImemWrite (req : Requester) (k off : Nat) (data : Bytes) (s : State) : Res :=
  run (k < 272 && decide (off + data.length ≤ 0x10000)) s fun s =>
    let a := imemBase + k * 0x10000 + off
    if data = [] then s
    else if permits s req a data.length true then (imemWrites (cwSplit (data.length + 1) a data) s).1
    else addrDenied req s

end Sys2Proof.Machine
end

