-- ==== Sys2Proof/Machine/Coll.lean ====
section
/-! DEFINITION. The commands of communicators, collectives, layouts and MOVE (R213, R215, R258 to R265, R289 to R291). -/
namespace Sys2Proof.Machine

open Sys2Proof

/-- The signal of a SYNC parameter: the counter it names and its increment; none where the parameter is zero (R207). -/
def syncOf (s : State) (c : Cmd) (v : Nat) : Option (Xl × Nat) :=
  if v = 0 then none else some (translateFor s (c.fn + 1) (fnBind s c.fn) (bits v 23 0), bits v 31 24)

/-- The parameters SRC, DST and SYNC of a collective. -/
def collParams (o : Op) : Nat × Nat × Nat :=
  match o with
  | .allReduce | .reduceScatter => (5, 6, 8)
  | .broadcast => (2, 3, 5)
  | _ => (1, 2, 4)

/-- The first parameter of a collective whose extent the tenant may not reach (R42, R259). (DEDUCED, log entry 16.) -/
def collDenied (s : State) (c : Cmd) (o : Op) (cm : Comm) : Option Nat :=
  let (i, j, _) := collParams o
  let ok (e : Nat × Nat) (wr : Bool) : Bool := e.2 == 0 || permits s (tenReq c.fn 0x210) e.1 e.2 wr
  if !ok (collSrc c o cm) false then some i else if !ok (collDst c o cm) true then some j else none

/-- A collective joins its communicator's operations, which run in take order (R216, R265). -/
def collJoin (c : Cmd) (comm : Nat) (j : CollJob) (s : State) : State :=
  let k := tkey c.fn comm
  match s.comm k with
  | none => s
  | some cm =>
    let s := s.setComm k (some { cm with jobs := cm.jobs ++ [c.id] })
    collsGo (working c.id { s with ckpt := { s.ckpt with colls := s.ckpt.colls ++ [j] } })

/-- Start a collective: check 6, the tests that need the communicator, and the strict-mode test of MODE 2 (R216, R253, R254, R259). -/
def collStart (o : Op) (id : Nat) (s : State) : State :=
  startOp o id (fun c s =>
    match s.comm (tkey c.fn (c.p 0)) with
    | none => conflict id 0x09 (c.p 0) 0 0 s
    | some cm =>
      let (i, _, y) := collParams o
      if o = .broadcast ∧ cm.ranks ≤ c.p 1 then failAt c stInvalid o 1 s
      else if collOverlap c o cm then failAt c stInvalid o i s
      else match collDenied s c o cm with
        | some k =>
          let l := [collSrc c o cm, collDst c o cm]
          failAt c (refusedOf s (tenReq c.fn 0x210) l) o k (refuseOf s (tenReq c.fn 0x210) l)
        | none =>
          if isReduction o ∧ c.p 1 = 2 ∧ strict s c.fn then finish0 id stDetRefused (varRefuse c.fn s)
          else
            let s := if isReduction o ∧ c.p 1 = 2 then varCount c.fn (some id) s else s
            collJoin c (c.p 0) { id := id, tenant := c.fn, comm := c.p 0, sig := syncOf s c (c.p y) } s) s

/-- COMM_CREATE (R258): the rank table, checked at the take, is read whole; the communicator becomes READY. -/
def execCommCreate (id : Nat) (s : State) : Res :=
  run true s (startOp .commCreate id fun c =>
    let k := tkey c.fn (c.p 0)
    fun s => need6 (s.comm k).isNone c 0x09 (c.p 0) (commCode s k) (fun s => match readMem s (c.p 3) (8 * c.p 1) with
      | (s, .error a) => failAddr id (.ue a) s
      | (s, .ok _) => finish0 id stOk (s.setComm k (some { ranks := c.p 1, rank := c.p 2, map := c.p 3 }))) s)

/-- COMM_DESTROY: a READY communicator becomes ABSENT (R216). -/
def execCommDestroy (id : Nat) (s : State) : Res :=
  run true s (startOp .commDestroy id fun c =>
    let k := tkey c.fn (c.p 0)
    fun s => need6 (commCode s k == 1) c 0x09 (c.p 0) (commCode s k) (fun s => finish0 id stOk (s.setComm k none)) s)

/-- ALL_REDUCE (R260 to R265). -/
def execAllReduce (id : Nat) (s : State) : Res := run true s (collStart .allReduce id)

/-- REDUCE_SCATTER (R259, R260). -/
def execReduceScatter (id : Nat) (s : State) : Res := run true s (collStart .reduceScatter id)

/-- ALL_GATHER (R259). -/
def execAllGather (id : Nat) (s : State) : Res := run true s (collStart .allGather id)

/-- BROADCAST (R259). -/
def execBroadcast (id : Nat) (s : State) : Res := run true s (collStart .broadcast id)

/-- ALL_TO_ALL (R259). -/
def execAllToAll (id : Nat) (s : State) : Res := run true s (collStart .allToAll id)

/-! ### Layouts and MOVE -/

/-- The state code of a layout (R216): 0 ABSENT, 1 DEFINED, 2 IN_USE while a MOVE names it. (DEDUCED, log entry 63.) -/
def layoutCode (s : State) (t n : Nat) : Nat :=
  if tget [] s.ckpt.layouts (tkey t n) = [] then 0
  else if s.ckpt.colls.any fun j => j.tenant == t && (match findCmd s j.id with
      | some c => cmdOp c == some .reshardMove && (c.p 0 == n || c.p 1 == n)
      | none => false) then 2
  else 1

/-- LAYOUT_DEFINE (R289): the descriptor was checked; the layout becomes DEFINED. -/
def execLayoutDefine (id : Nat) (s : State) : Res :=
  run true s (startOp .layoutDefine id fun c =>
    let k := tkey c.fn (c.p 0)
    fun s => need6 (layoutCode s c.fn (c.p 0) == 0) c 0x0F (c.p 0) (layoutCode s c.fn (c.p 0)) (fun s =>
      match readMem s (c.p 1) 64 with
      | (s, .error a) => failAddr id (.ue a) s
      | (s, .ok b) => finish0 id stOk { s with ckpt := { s.ckpt with layouts := tput [] s.ckpt.layouts k b } }) s)

/-- LAYOUT_DROP: a DEFINED layout becomes ABSENT (R216). -/
def execLayoutDrop (id : Nat) (s : State) : Res :=
  run true s (startOp .layoutDrop id fun c =>
    fun s => need6 (layoutCode s c.fn (c.p 0) == 1) c 0x0F (c.p 0) (layoutCode s c.fn (c.p 0))
      (fun s => finish0 id stOk { s with ckpt := { s.ckpt with layouts := tput [] s.ckpt.layouts (tkey c.fn (c.p 0)) [] } }) s)

/-- Two layouts that MOVE may join: one communicator, equal NDIM_T, EXT and FMT (R291). -/
def layoutsMatch (a b : Layout) : Bool := a.comm == b.comm && a.ndimT == b.ndimT && a.ext == b.ext && a.fmt == b.fmt

/-- The local extents of a MOVE on a rank: for each entry its source and its destination (R291). -/
def moveExtents (a b : Layout) (rank : Nat) (l : Bytes) : List (Nat × Nat) × List (Nat × Nat) :=
  ((List.range (moveCount l)).map fun i => ((moveEntry l i).1, layBytes a rank),
   (List.range (moveCount l)).map fun i => ((moveEntry l i).2.1, layBytes b rank))

/-- Some two of a list of extents overlap. -/
def anyOverlap : List (Nat × Nat) → Bool
  | [] => false
  | (a, n) :: t => (t.any fun e => overlaps a n e.1 e.2) || anyOverlap t

/-- What stops a MOVE whose layouts exist: the status and the parameter (R291, R42). -/
def moveBad (s : State) (c : Cmd) (l : Bytes) (cm : Comm) : Option (Nat × Nat) :=
  let a := layoutAt s c.fn (c.p 0)
  let b := layoutAt s c.fn (c.p 1)
  let (src, dst) := moveExtents a b cm.rank l
  let ok (wr : Bool) (e : Nat × Nat) : Bool := e.2 == 0 || permits s (tenReq c.fn 0x211) e.1 e.2 wr
  if !layoutsMatch a b then some (stInvalid, 1)
  else if anyOverlap (src ++ dst) then some (stInvalid, 3)
  else if src.all (ok false) && dst.all (ok true) then none else some (refusedOf s (tenReq c.fn 0x211) (src ++ dst), 3)

/-- RESHARD MOVE (R291): both layouts DEFINED or IN_USE; it runs as an operation of their communicator. -/
def execReshardMove (id : Nat) (s : State) : Res :=
  run true s (startOp .reshardMove id fun c =>
    let code (s : State) (i : Nat) : Nat := layoutCode s c.fn (c.p i)
    fun s => need6 (code s 0 != 0) c 0x0F (c.p 0) 0 (need6 (code s 1 != 0) c 0x0F (c.p 1) 0 fun s =>
      let comm := (layoutAt s c.fn (c.p 0)).comm
      match s.comm (tkey c.fn comm) with
      | none => conflict id 0x09 comm 0 0 s
      | some cm =>
        match readMem s (c.p 3) (32 * c.p 2) with
        | (s, .error a) =>
          ckptErr c.fn 16 (endColl { id := id, tenant := c.fn, comm := comm, sig := syncOf s c (c.p 4) } stUncorr (a % 2 ^ 32) (a / 2 ^ 32) 0 s)
        | (s, .ok l) => match moveBad s c l cm with
          | some (st, k) => failAt c st .reshardMove k
              (if st = stDenied then addrDenied (tenReq c.fn 0x211) s else if st = stUncorr then tableErr s else s)
          | none => collJoin c comm { id := id, tenant := c.fn, comm := comm, sig := syncOf s c (c.p 4), list := l } s) s)

end Sys2Proof.Machine
end

