-- ==== Sys2Proof/Machine/Ckpt.lean ====
section
/-! DEFINITION. The commands of the checkpoint engine: pools, saves, restores, drains, rank takes and the staging registers (R214, R270 to
R288, R292, R293). -/
namespace Sys2Proof.Machine

open Sys2Proof

/-- POOL_ADD (R274): at most 64 pools. -/
def execPoolAdd (id : Nat) (s : State) : Res :=
  run true s (startOp .poolAdd id fun c =>
    fun s => need7 (decide ((poolsOf s c.fn).length < 64)) c (fun s =>
      let l := poolsOf s c.fn
      finish id stOk l.length 0 0 0
        { s with ckpt := { s.ckpt with pools := tput [] s.ckpt.pools c.fn (l ++ [⟨c.p 0, c.p 1, c.p 2⟩]) } }) s)

/-! ### SAVE (R278, R279) -/

/-- A stream that the tenant has opened at some time. -/
def everOpened (s : State) (t st : Nat) : Bool := (s.stream st).owner == some t

/-- Why a save does not start: the first check of R270, R216 and R278 that fails. -/
inductive SaveNo where
  | slot | rank | stream (n : Nat) | key | room | ok
  deriving DecidableEq, Repr

def saveNo (s : State) (c : Cmd) (l : Bytes) (sh : List Shard) : SaveNo :=
  let k := s.ckSlot c.fn (c.p 0)
  let other := s.ckSlot c.fn (1 - c.p 0)
  if !keyServes s c.fn (fld l 0 2) then .key
  else if (k.st != 0 && k.st != 2) || other.st == 1 then .slot
  else if (tget none s.ckpt.ranks c.fn).isNone then .rank
  else match (listStreams l).find? fun st => !everOpened s c.fn st with
    | some st => .stream st
    | none => if sh.length ≤ 4096 ∧ shardsFit s c.fn sh then .ok else .room

/-- Trace point 9: a step of a save has ended (R508). -/
def ckptTrace (x : Save) (n : Nat) (s : State) : State := traceHit x.tenant 9 x.slot 0 n 0 none s

/-- SAVE, steps 1 and 2 (R279): the slot is SAVING, IV time and placement are fixed, and every pool's commit record is voided. -/
def execSave (id : Nat) (s : State) : Res :=
  run true s (startOp .save id fun c s =>
    let slot := c.p 0
    match readMem s (c.p 3) (64 + 32 * c.p 1) with
    | (s, .error a) => failAddr id (.ue a) s
    | (s, .ok l) =>
      let ps := maskPools (fld l 8 8)
      let sh := placeShards ps l
      let k := s.ckSlot c.fn slot
      match saveNo s c l sh with
      | .slot =>
        if k.st != 0 && k.st != 2 then conflict id 0x0E slot k.st 0 s
        else conflict id 0x0E (1 - slot) (s.ckSlot c.fn (1 - slot)).st 0 s
      | .rank => finish0 id stShape s
      | .stream n => conflict id 0x0A n (if (s.stream n).isOpen then 1 else 0) 0 s
      | .key => finish id stDenied (paramOff .save 3) ((ckptKeyNo s c.fn (fld l 0 2)).getD 0) 0 0 s
      | .room => finish0 id stNoResource s
      | .ok =>
        let iv := max s.now (s.reg .ckpIvTb + 1)
        let s := s.setReg .ckpIvTb 0 0 iv
        let s := s.setCkSlot c.fn slot { st := 1, step := 0, pools := fld l 8 8, man := [], cls := fld l 2 1, draining := false }
        let x : Save :=
          { id := id, tenant := c.fn, slot := slot, phase := 2, left := ps.length, list := l, step := c.p 2, iv := iv, shards := sh
            sig := syncOf s c (fld l 4 4) }
        let s := ckptTrace x 1 (working id { s with ckpt := { s.ckpt with saves := s.ckpt.saves ++ [x] } })
        ps.foldl (fun s p => poolWrite id p c.fn (fld l 2 1) p slot 0 (commitVoid slot) s) s)

/-- The position record of a stream (R271): RECORDS counts every record whose bytes OFFSET holds, those not yet counted in the register
too (R363). -/
def positionRec (s : State) (st : Nat) : Bytes :=
  let x := s.stream st
  fit 64 (leBytes 8 (s.reg .strmOffset 0 st) ++ leBytes 8 (s.reg .strmRecords 0 st + x.recs) ++ leBytes 1 x.pidx
    ++ leBytes 1 x.tail.length ++ zeros 2 ++ fit 32 x.tail)

/-- Step 3: the open listed streams hold delivery and every listed stream's position record is taken. -/
def saveHold (x : Save) (s : State) : State :=
  (List.range (listCount x.list)).foldl (fun s i =>
    let e := listEntry x.list i
    if fld e 0 1 = 3 then
      let st := fld e 2 2 % 256
      let s := modSave x.id (fun y => { y with pos := tput [] y.pos i (positionRec s st) }) s
      if (s.stream st).isOpen then s.setStream st { s.stream st with held := true } else s
    else s) (modSave x.id (fun y => { y with phase := 3, left := 0 }) s)

/-- Whether the plaintext of a save fits the staging area (R279). -/
def saveStaged (s : State) (x : Save) : Bool :=
  let n := stageNeed (x.shards.map (·.bytes))
  decide (n ≤ stageSize s x.tenant) && stageGranted s x.tenant n

/-- Read the sources in list order: the shards with their plaintext, or the failing address. A plaintext that fits the staging area is
written there. -/
def saveRead (x : Save) : List (Shard × Nat) → State → State × Option Nat
  | [], s => (s, none)
  | (h, j) :: t, s =>
    let e := listEntry x.list h.entry
    let put (bs : Bytes) (s : State) : State × Option Nat :=
      let s := modSave x.id (fun y => { y with shards := y.shards.modify j fun h => { h with plain := bs } }) s
      if saveStaged s x then
        match writeMem s (stageBase s x.tenant + stageOff (x.shards.map (·.bytes)) j) bs with
        | (s, none) => saveRead x t s
        | r => r
      else saveRead x t s
    if fld e 0 1 = 3 then put (tget [] x.pos h.entry) s
    else match readMem s (fld e 8 8 + h.off) h.bytes with
      | (s, .error a) => (s, some a)
      | (s, .ok bs) => put bs s

/-- Step 3 ends: the streams resume, CAPTURE_SYNC is delivered; and step 4: shards are encrypted, digested and written. -/
def saveCapture (x : Save) (s : State) : State :=
  match saveRead x x.shards.zipIdx s with
  | (s, some a) => saveStop x stUncorr (a % 2 ^ 32) (a / 2 ^ 32) s
  | (s, none) =>
    let s := resumeStreams (listStreams x.list) s
    let s := match x.sig with
      | some (xl, v) => sendSig 0x211 x.tenant xl v none s
      | none => s
    let s := ckptTrace x 3 s
    let key := (tget {} s.keys (fld x.list 0 2)).key
    let r := (tget none s.ckpt.ranks x.tenant).getD 0
    let sh := ((findSave s x.id).map (·.shards)).getD []
    let outs := (sh.zipIdx).map fun (h, j) => shardOut key x.step r j h x.iv
    let s := modSave x.id (fun y => { y with
      phase := 4, left := sh.length, shards := ((sh.zip outs).map fun (h, o) => { h with plain := [], digest := sha3 o }) }) s
    ((sh.zip outs).zipIdx).foldl (fun s ((h, o), j) => poolWrite x.id j x.tenant (fld x.list 2 1) h.pool x.slot h.at_ o s) s

/-- Step 5: the manifest goes to every pool. -/
def saveManifest (x : Save) (s : State) : State :=
  let ps := maskPools (fld x.list 8 8)
  let r := (tget none s.ckpt.ranks x.tenant).getD 0
  let m := manifest x.slot r x.step x.iv (fld x.list 0 2) (fld x.list 8 8) (tget [] s.ckpt.sigs x.tenant) x.list x.shards
  let s := modSave x.id (fun y => { y with phase := 5, left := ps.length, man := m }) s
  ps.foldl (fun s p => poolWrite x.id p x.tenant (fld x.list 2 1) p x.slot 0x1000 m s) s

/-- Step 7: the slot is VALID, its step shows, and the command replies. -/
def saveDone (x : Save) (s : State) : State :=
  let n := (x.shards.map (·.bytes)).sum
  let k := s.ckSlot x.tenant x.slot
  let s := s.setCkSlot x.tenant x.slot { k with st := 2, step := x.step, man := x.man }
  let s := s.setReg (if x.slot = 0 then .ckpStepA else .ckpStepB) x.tenant 0 x.step
  let s := { s with ckpt := { s.ckpt with saves := s.ckpt.saves.filter fun y => y.id != x.id } }
  finish x.id stOk (n % 2 ^ 32) (n / 2 ^ 32) x.shards.length 0 s

/-- The writes of a save's step are all acknowledged: the next step runs (R279). A key slot that has been erased stops it (R280). -/
def execSaveStepDone (id : Nat) (s : State) : Res :=
  run true s fun s =>
    match findSave s id with
    | none => s
    | some x =>
      if x.left ≠ 0 ∨ x.fail.isSome then s
      else if x.phase = 2 then saveHold x (ckptTrace x 2 s)
      else if x.phase = 6 then (if x.todo = [] then ckptTrace x 7 (saveDone x (ckptTrace x 6 s)) else s)
      else if !keyServes s x.tenant (fld x.list 0 2) then saveStop x stDenied 0 0 s
      else match x.phase with
        | 3 => saveCapture x s
        | 4 => saveManifest x (ckptTrace x 4 s)
        | 5 =>
          let ps := maskPools (fld x.list 8 8)
          let s := modSave id (fun y => { y with phase := 6, todo := ps }) (ckptTrace x 5 s)
          saveCommit { x with phase := 6, todo := ps } s
        | _ => s

/-! ### RESTORE (R283 to R285) -/

/-- The shape record's signature (R286): the record is read and digested. -/
def shapeLen (s : State) (a : Nat) : Nat := 32 + 4 * leNat (memBytes s a 4)

/-- RESTORE: the destinations, the slot's state, then the tests of R283, on the manifest that the slot holds (log entry 49); then commit
records are read, lowest pool first (R284 step 1). -/
def execRestore (id : Nat) (s : State) : Res :=
  run true s (startOp .restore id fun c s =>
    let slot := c.p 0
    let k := s.ckSlot c.fn slot
    let l := manList k.man
    let n := stageNeed (manSizes k.man)
    if !listGranted s c.fn l ∨ (n ≤ stageSize s c.fn ∧ stageGranted s c.fn n = false) then
      let e := restRefused s c.fn (if n ≤ stageSize s c.fn then n else 0) l
      failAt c (refusedOf s (tenReq c.fn 0x211) e) .restore 0 (refuseOf s (tenReq c.fn 0x211) e)
    else if k.st ≠ 2 ∧ k.st ≠ 4 then conflict id 0x0E slot k.st 0 s
    else match listOpen s l with
      | some st => conflict id 0x0A st 1 0 s
      | none =>
        if stageSize s c.fn < n then finish0 id stNoResource s
        else match readMem s (c.p 2) (shapeLen s (c.p 2)) with
          | (s, .error a) => failAddr id (.ue a) s
          | (s, .ok b) =>
            let s := s.setCkSlot c.fn slot { k with st := 3 }
            let x : Restore := { id := id, tenant := c.fn, slot := slot, phase := 0, step := c.p 1, sig := sha3 b, cand := maskPools k.pools }
            restTry x (working id { s with ckpt := { s.ckpt with rests := s.ckpt.rests ++ [x] } }))

/-- Write entries back from the staging area, in list order (step 6): how many were written whole, and the failing address. -/
def restWrite (x : Restore) (l : Bytes) (sizes : List Nat) : List Nat → Nat → State → State × Nat × Option Nat
  | [], n, s => (s, n, none)
  | i :: t, n, s =>
    let e := listEntry l i
    let js := (List.range (manShards x.man)).filter fun j => (manShard x.man j).entry == i
    let r := js.foldl (fun (acc : State × Option Nat) j =>
      match acc.2 with
      | some _ => acc
      | none =>
        let h := manShard x.man j
        match readMem acc.1 (stageBase acc.1 x.tenant + stageOff sizes j) h.bytes with
        | (s, .error a) => (s, some a)
        | (s, .ok bs) =>
          if fld e 0 1 = 3 then
            let st := fld e 2 2 % 256
            let s := ((s.setReg .strmOffset 0 st (fld bs 0 8)).setReg .strmConsumed 0 st (fld bs 0 8)).setReg .strmRecords 0 st (fld bs 8 8)
            (s.setStream st { s.stream st with pidx := fld bs 16 1, tail := slice bs 20 (min 31 (fld bs 17 1)) }, none)
          else writeMem s (fld e 8 8 + h.off) bs) (s, none)
    match r with
    | (s, none) => restWrite x l sizes t (n + 1) s
    | (s, some a) => (s, n, some a)

/-- Every shard is staged and verified: the entries are written back and the restore replies (R284 steps 6 and 7, R285). -/
def execRestoreStageDone (id : Nat) (s : State) : Res :=
  run true s fun s =>
    match findRest s id with
    | none => s
    | some x =>
      if x.phase ≠ 3 then s
      else
        let l := manList x.man
        match restWrite x l (manSizes x.man) (List.range (listCount l)) 0 s with
        | (s, n, some _) => restEnd x stUncorr n 0 0 s
        | (s, _, none) => restEnd x stOk (manShards x.man) (x.step % 2 ^ 32) (x.step / 2 ^ 32) s

/-! ### DRAIN (R282) -/

/-- Bytes of a drain's image. -/
def drainBytes (s : State) (t : Nat) (k : CkSlot) : Nat := ((maskPools k.pools).map fun p => (poolAt s t p).bytes / 2).sum

/-- DRAIN: a VALID slot and a volume bound to the caller that holds the image. -/
def execDrain (id : Nat) (s : State) : Res :=
  run true s (startOp .drain id fun c s =>
    let slot := c.p 0
    let k := s.ckSlot c.fn slot
    let v := s.vol (c.p 1)
    if k.st ≠ 2 then conflict id 0x0E slot k.st 0 s
    else if v.st ≠ 2 ∨ v.tenant ≠ c.fn then conflict id 0x0D (c.p 1) v.st 0 s
    else if v.blocks * 4096 < drainBytes s c.fn k then finish0 id stNoResource s
    else
      let x : DrainJob := { id := id, tenant := c.fn, slot := slot, vol := c.p 1, todo := drainPieces s c.fn slot k }
      let s := s.setCkSlot c.fn slot { k with st := 4, draining := true }
      drainNext x (working id { s with ckpt := { s.ckpt with drains := s.ckpt.drains ++ [x] } }))

/-- A drain has written its last piece, or has stopped: the slot is VALID again and the command replies (R281, R282). -/
def execDrainDone (id : Nat) (s : State) : Res :=
  run true s fun s =>
    match s.ckpt.drains.find? fun x => x.id == id with
    | none => s
    | some x =>
      if x.todo ≠ [] ∨ x.write.isSome then s
      else
        let k := s.ckSlot x.tenant x.slot
        let s := { s with ckpt := { s.ckpt with drains := s.ckpt.drains.filter fun y => y.id != id } }
        let s := s.setCkSlot x.tenant x.slot { k with st := if k.st = 4 then 2 else k.st, draining := false }
        let s := if x.st = stOk then s else ckptErr x.tenant 8 s
        finish id x.st x.r0 x.r1 0 0 s

/-- SLOT_STATUS: the slot's state code and step (R214). -/
def execSlotStatus (id : Nat) (s : State) : Res :=
  run true s (startOp .slotStatus id fun c s =>
    let k := s.ckSlot c.fn (c.p 0)
    finish id stOk k.st (k.step % 2 ^ 32) (k.step / 2 ^ 32) 0 s)

/-! ### RANK_TAKE (R287, R288) -/

/-- RANK_TAKE: the device holds the rank under the shape; the commit records of both slots of every pool are read. -/
def execRankTake (id : Nat) (s : State) : Res :=
  run true s (startOp .rankTake id fun c s =>
    let busy (k : CkSlot) : Bool := k.st == 1 || k.st == 3 || k.st == 4
    let a := s.ckSlot c.fn 0
    let b := s.ckSlot c.fn 1
    if busy a then conflict id 0x0E 0 a.st 0 s
    else if busy b then conflict id 0x0E 1 b.st 0 s
    else match readMem s (c.p 1) (shapeLen s (c.p 1)) with
      | (s, .error e) => failAddr id (.ue e) s
      | (s, .ok rec) =>
        let g := sha3 rec
        let s := { s with ckpt := { s.ckpt with
          ranks := tput none s.ckpt.ranks c.fn (some (c.p 0)), sigs := tput [] s.ckpt.sigs c.fn g } }
        let s := s.setReg .ckpRank c.fn 0 (c.p 0)
        let n := (poolsOf s c.fn).length
        let x : TakeJob := { id := id, tenant := c.fn, rank := c.p 0, sig := g, phase := if n = 0 then 1 else 0, left := 2 * n }
        let s := working id { s with ckpt := { s.ckpt with takes := s.ckpt.takes ++ [x] } }
        (List.range 2).foldl (fun s slot => (List.range n).foldl (fun s p =>
          poolRead id (slot * 64 + p) c.fn 0 p slot 0 128 s) s) s)

/-- The commit records that a slot may adopt: valid, of the rank, with a manifest that matches MDIGEST and SHAPE_SIG. -/
def adoptable (x : TakeJob) (slot : Nat) : List (Bytes × Bytes) :=
  ((takeFound x).filter fun k => k / 64 == slot).filterMap fun k =>
    let b := tget [] x.com k
    let m := tget [] x.man k
    if m ≠ [] ∧ sha3 m = slice b 32 64 ∧ slice m 64 64 = x.sig then some (b, m) else none

/-- The one with the highest IVTIME. -/
def newest : List (Bytes × Bytes) → Option (Bytes × Bytes)
  | [] => none
  | p :: t => match newest t with
    | none => some p
    | some q => if fld p.1 16 8 < fld q.1 16 8 then some q else some p

/-- The pool reads of a RANK_TAKE have ended: it adopts slots and replies (R288). -/
def execRankTakeDiscovered (id : Nat) (s : State) : Res :=
  run true s fun s =>
    match s.ckpt.takes.find? fun x => x.id == id with
    | none => s
    | some x =>
      if x.phase ≠ 1 ∨ x.left ≠ 0 then s
      else
        let s := { s with ckpt := { s.ckpt with takes := s.ckpt.takes.filter fun y => y.id != id } }
        if x.st ≠ stOk then finish0 id x.st s
        else
          let got := (List.range 2).map fun slot => newest (adoptable x slot)
          let s := (got.zipIdx).foldl (fun s (g, slot) =>
            let r : Reg := if slot = 0 then .ckpStepA else .ckpStepB
            match g with
            | some (b, m) =>
              (s.setCkSlot x.tenant slot { st := 2, step := fld b 8 8, pools := fld m 40 8, man := m, cls := 0, draining := false }).setReg r x.tenant 0 (fld b 8 8)
            | none => (s.setCkSlot x.tenant slot {}).setReg r x.tenant 0 0) s
          let mask := (if (got.getD 0 none).isSome then 1 else 0) + (if (got.getD 1 none).isSome then 2 else 0)
          if takeFound x ≠ [] ∧ (takeFound x).all (fun k => slice (tget [] x.man k) 64 64 != x.sig) then finish0 id stShape s
          else
            let top := (got.filterMap fun g => g.map fun p => fld p.1 8 8).foldl max 0
            finish id stOk mask (top % 2 ^ 32) (top / 2 ^ 32) 0 s

/-! ### Staging registers (R292, R293) -/

/-- A write of a word of CKP[t].STAGE_BASE (offsets 0x18, 0x1C) or STAGE_BYTES (0x20, 0x24); ignored, with STAGE_BUSY, while a slot of
the tenant is SAVING or RESTORING. A tenant function reaches its own page alone. -/
def execStageWrite (who t off : Nat) (val : Word) (s : State) : Res :=
  run (who < 19 && t < 16 && (off == 0x18 || off == 0x1C || off == 0x20 || off == 0x24)) s (onlyIf (who == t || decide (16 ≤ who)) fun s =>
    let busy (k : CkSlot) : Bool := k.st == 1 || k.st == 3
    if busy (s.ckSlot t 0) || busy (s.ckSlot t 1) then ckptErr t 32 s
    else
      let r : Reg := if off < 0x20 then .ckpStageBase else .ckpStageBytes
      let top := if off < 0x20 then 51 else 41
      if off % 8 = 0 then s.setField r t 0 31 21 (val.toNat / 2 ^ 21)
      else s.setField r t 0 top 32 val.toNat)

end Sys2Proof.Machine
end

