-- ==== Sys2Proof/Machine/Lode.lean ====
section
/-! DEFINITION. Lodes: chains, core loads and starts by command, holds, resets, lock groups, zero-fill and lode idle (R109, R112, R150,
R151, R168, R172 to R182, R212, R487). -/
namespace Sys2Proof.Machine

open Sys2Proof

/-- A command that needs an idle lode starts its exit and waits for it (R487). (DEDUCED, log entry 29.) -/
def needLode (n : Nat) (f : State → State) (s : State) : State := if awake s n then f s else wakeLode n s

/-! ### Chains (R109, R212) -/

/-- MOD_CHAIN: the chain's descriptors enter the engine's queue in order. -/
def execModChain (id : Nat) (s : State) : Res :=
  run true s (startOp .modChain id fun c => needLode (c.p 0 / 2) fun s =>
    let s := working id { s with chains := s.chains ++ [(⟨id, c.p 0, c.p 1, c.p 2, 0, 0, false, none⟩ : Chain)] }
    offerChains false (c.p 0) s)

/-- MOVE_CHAIN: the same for move descriptors in the lode's mover queue. -/
def execMoveChain (id : Nat) (s : State) : Res :=
  run true s (startOp .moveChain id fun c => needLode (c.p 0) fun s =>
    let s := working id { s with chains := s.chains ++ [(⟨id, c.p 0, c.p 1, c.p 2, 0, 0, true, none⟩ : Chain)] }
    offerChains true (c.p 0) s)

/-! ### Instruction memory and cores by command (R150, R151, R212) -/

/-- IMEM_LOAD: bytes from device or host memory into a HALTED or FAULTED core's instruction memory. -/
def execImemLoad (id : Nat) (s : State) : Res :=
  run true s (startOp .imemLoad id fun c =>
    let k := c.p 0
    let body : State → State := fun s =>
      if !imemOpen s k then conflict id 0x04 k (coreCode s k) 0 s
      else match readAddr s c.fn (c.p 3) (c.p 1) with
        | (s, .error e) => failAddr id e s
        | (s, .ok bs) =>
          match imemWrites (cwSplit (bs.length + 1) (imemBase + k * 0x10000 + c.p 2) bs) s with
          | (s, none) => finish0 id stOk s
          | (s, some (.ue a)) => failAddr id (.ue a) s
          | (s, some .running) => conflict id 0x04 k 1 0 s
    if k < 256 then needLode (k / 8) body else body)

/-- CORES_RUN: every named core HALTED; each starts, and the reply follows the last halt or the first fault. -/
def execCoresRun (id : Nat) (s : State) : Res :=
  run true s (startOp .coresRun id fun c =>
    let ks := runCores c
    let body : State → State := fun s =>
      match ks.find? fun k => (s.core k).st != .halted with
      | some k => conflict id 0x04 k (coreCode s k) 0 s
      | none => if ks = [] then finish0 id stOk s else ks.foldl (fun s k => startCore k (some id) s) (working id s)
    if c.p 0 = 0x80 then body else needLode (c.p 0) body)

/-! ### Lock groups (R173 to R181) -/

def clocksLocked (s : State) : Bool := bit (s.reg .clkSts) 0

/-- Whether a group has members on both compute dies. -/
def crossDie (ms : List Nat) : Bool := ms.any (· < 16) && ms.any (16 ≤ ·)

/-- A group becomes FREE: its event is disarmed, a LOCK_START that waits ends with ABORTED_RESET, and GCYC holds its value (R178, R180). -/
def freeGroup (g : Nat) (s : State) : State :=
  let x := s.grp g
  let n := groupCycles s x
  let s := if x.st = .running ∨ x.st = .held then x.members.foldl (fun s m => s.setReg .lodeGcyc m 0 n) s else s
  let s := match x.cmd with
    | some id => finish0 id stAborted s
    | none => s
  (disarm (.lock g) s).setGrp g {}

/-- The state code of a lock group (R180, R216). (DEDUCED, log entry 51.) -/
def grpCode (x : Grp) : Nat := match x.st with | .free => 0 | .formed => 1 | .armed => 2 | .running => 3 | .held => 4

/-- LOCK_FORM: the conditions of R174, in the order of its table (log entry 51). (DEDUCED, log entry 46.) -/
def execLockForm (id : Nat) (s : State) : Res :=
  run true s (startOp .lockForm id fun c s =>
    let g := c.p 0
    let ms := (List.range 32).filter (bit (c.p 1))
    match ms.find? fun n => !awake s n with
    | some n => wakeLode n s
    | none =>
      if ms.any fun n => lodeOwner s n != c.fn + 1 then failAt c stDenied .lockForm 1 s
      else
        let x := s.grp g
        if x.st ≠ .free then conflict id 0x06 g (grpCode x) 0 s
        else match ms.findSome? (groupOf s) with
          | some (h, x) => conflict id 0x06 h (grpCode x) 0 s
          | none => match ms.find? fun n => !lodeIdle s n with
            | some n => conflict id 0x03 n (lodeCode s n) 0 s
            | none =>
              if crossDie ms && !clocksLocked s then conflict id 0x10 0 0 0 s
              else match ms.find? fun n => tget 0 s.own.zeroing n != 0 with
                | some n => conflict id 0x03 n 3 0 s
                | none => finish0 id stOk (s.setGrp g { st := .formed, members := ms, tenant := c.fn }))

/-- LOCK_START: a FORMED group's start is armed; a target already reached fires late at the next tick (R175, R526). -/
def execLockStart (id : Nat) (s : State) : Res :=
  run true s (startOp .lockStart id fun c s =>
    let g := c.p 0
    let x := s.grp g
    if x.st ≠ .formed ∨ x.tenant ≠ c.fn then conflict id 0x06 g (grpCode x) 0 s
    else
      let s := s.setGrp g { x with st := .armed, target := c.p 1, late := false, fired := none, cmd := some id }
      let s := arm (.lock g) (c.p 1) s
      working id s)

/-- Every core of a member starts, its group cycle counter at zero; a core that cannot start records it (R151, R175). -/
def startMember (late : Bool) (n : Nat) (s : State) : State :=
  let s := s.setReg .lodeGcyc n 0 0
  let s := if late then s.orReg .lodeLock n 0 0x200 else s
  (List.range 8).foldl (fun s i =>
    let k := 8 * n + i
    if (s.core k).st = .halted then startCore k none s else s.orReg .bcErr k 0 2) s

/-- A group starts: every member, the late and the operating point marks of its tenant, its own cycle count, its LOCK_START's reply. -/
def startGroup (g : Nat) (s : State) : State :=
  let x := s.grp g
  let s := x.members.foldl (fun s n => startMember x.late n s) s
  let s := if x.late then s.orReg .detSts 0 x.tenant 0x10 else s
  let s := if cclkMhz s ≠ 1500 then s.orReg .detSts 0 x.tenant 4 else s
  let s := s.setGrp g { x with st := .running, fired := none, cmd := none, cycles := 0, since := s.tb.ticks }
  let s := traceHit x.tenant 6 g 0 (if x.late then 1 else 0) 0 none s
  let s := match x.cmd with
    | some id => finish0 id stOk s
    | none => s
  holdsChanged s

/-- In the first CCLK cycle at least 10 ns after the start event, every core of every member starts (R175). -/
def execLockGroupStart (g : Nat) (s : State) : Res :=
  run (g < 32) s fun s =>
    match (s.grp g).fired with
    | none => s
    | some t => if (s.grp g).st ≠ .armed ∨ s.tb.ticks < t + 10 then s else startGroup g s

/-- LOCK_DISSOLVE: a group whose members are idle becomes FREE (R178, R180). -/
def execLockDissolve (id : Nat) (s : State) : Res :=
  run true s (startOp .lockDissolve id fun c s =>
    let g := c.p 0
    let x := s.grp g
    if (x.st = .formed ∨ x.st = .armed ∨ x.st = .running) ∧ x.tenant = c.fn ∧ x.members.all (lodeIdle s) then
      finish0 id stOk (freeGroup g s)
    else conflict id 0x06 g (grpCode x) 0 s)

/-! ### Holds (R176, R212) -/

/-- LODE_HOLD: HOLD 1 replies when the lode is HELD, HOLD 0 at once. -/
def execLodeHold (id : Nat) (s : State) : Res :=
  run true s (startOp .lodeHold id fun c => needLode (c.p 0) fun s =>
    let n := c.p 0
    if tget 0 s.own.zeroing n ≠ 0 then conflict id 0x03 n 3 0 s
    else if c.p 1 = 0 then finish0 id stOk (holdsChanged (s.setField .lodeCtrl n 0 1 1 0))
    else holdsChanged (working id (s.setField .lodeCtrl n 0 1 1 1)))

/-! ### Lode reset (R112, R172, R177, R221, R482) -/

/-- The chains of a lode end with ABORTED_RESET. -/
def abortChains (n : Nat) (s : State) : State :=
  s.chains.foldl (fun s c =>
    if (if c.moves then c.unit else c.unit / 2) = n then endChain c.id stAborted c.ended c.ended 0 s else s) s

/-- A core returns to HALTED with all state cleared, and the command that started it ends; its waits are withdrawn (R152, R221). -/
def resetCore (k : Nat) (s : State) : State :=
  let s := unlist k none s
  match (s.core k).cmd with
  | some id => (finish0 id stAborted (freeCores id s)).setCore k {}
  | none => s.setCore k {}

/-- Registers in a range of BAR0 return to their reset values (R482). (DEDUCED, log entry 24.) -/
def resetRegs (lo hi : Nat) (s : State) : State :=
  { s with regs := tdrop s.regs fun a => decide (lo ≤ a) && decide (a < hi), latch := tdrop s.latch fun a => decide (lo ≤ a) && decide (a < hi) }

/-- One lode resets: engines, movers, cores and counters; strata memory stays (R168). (DEDUCED, log entry 24.) -/
def resetOneLode (n : Nat) (s : State) : State :=
  let s := abortChains n s
  let s := (List.range 8).foldl (fun s i => resetCore (8 * n + i) s) s
  let s := (s.setEngine (2 * n) {}).setEngine (2 * n + 1) {}
  let l := s.lode n
  let s := s.setLode n { scrub := l.scrub, wb := l.wb, idle := l.idle, wake := l.wake }
  let s := zeroCounters (fun p => p / 512 == n) s
  resetRegs (0x1000000 + n * 0x40000) (0x1000000 + (n + 1) * 0x40000) s

/-- A lode reset is applied to every member of the lode's group, which dissolves (R177). Waits listed behind withdrawn ones are tested on
the counts that it leaves (R221, R245). -/
def resetLode (n : Nat) (s : State) : State :=
  match groupOf s n with
  | some (g, x) => holdsChanged (reoffer (settleAll (x.members.foldl (fun s m => resetOneLode m s) (freeGroup g s))))
  | none => holdsChanged (reoffer (settleAll (resetOneLode n s)))

/-- A write of LODE[n].CTRL (R182): HOLD is held, RESET resets the lode, which clears HOLD too. -/
def lodeCtrlWrite (who n v : Nat) (s : State) : State :=
  instWrite who (lodeOwner s n) (fun s =>
    let s := holdsChanged (s.setField .lodeCtrl n 0 1 1 (bits v 1 1))
    if bit v 0 then resetLode n s else s) s

def execLodeCtrlHold (who n : Nat) (val : Word) (s : State) : Res := run (who < 19 && n < 32) s (lodeCtrlWrite who n val.toNat)
def execLodeCtrlReset (who n : Nat) (val : Word) (s : State) : Res := run (who < 19 && n < 32) s (lodeCtrlWrite who n val.toNat)

/-- LODE_RESET: the reply follows when the lode is IDLE (R212). -/
def execLodeReset (id : Nat) (s : State) : Res :=
  run true s (startOp .lodeReset id fun c => needLode (c.p 0) fun s => resetLode (c.p 0) (working id s))

/-! ### Zero-fill and idle (R168, R487) -/

/-- A lode's zero-fill has ended: it belongs to its new owner (R168). -/
def lodeZeroed (n o : Nat) (s : State) : State :=
  { s with own := { s.own with zeroing := tput 0 s.own.zeroing n 0, lodes := tput 0 s.own.lodes n o } }

/-- A lode's zero-fill ends: the new assignment takes effect and waiting requests proceed. -/
def execLodeZeroingDone (n : Nat) (s : State) : Res :=
  run (n < 32) s fun s =>
    match tget 0 s.own.zeroing n with
    | 0 => s
    | o + 1 => holdReplies (lodeZeroed n o s)

/-- LODE_POWER: an IDLE lode of no group goes idle; a wake replies after the exit latency (R487). -/
def execLodePower (id : Nat) (s : State) : Res :=
  run true s (startOp .lodePower id fun c s =>
    let n := c.p 0
    let l := s.lode n
    if c.p 1 = 1 then
      if lodeCode s n ≠ 0 then conflict id 0x03 n (lodeCode s n) 0 s
      else match groupOf s n with
        | some (g, x) => conflict id 0x06 g (grpCode x) 0 s
        | none => finish0 id stOk (s.setLode n { l with idle := true, wake := none })
    else if l.idle then wakeLode n (working id s) else finish0 id stOk s)

/-- 200 µs after a request needs an idle lode, it is clocked again; waking commands reply (R487). -/
def execLodeIdleExit (n : Nat) (s : State) : Res :=
  run (n < 32) s fun s =>
    let l := s.lode n
    match l.wake with
    | none => s
    | some t =>
      if s.tb.ticks < t then s
      else
        let s := s.setLode n { l with idle := false, wake := none }
        s.cmd.cmds.foldl (fun s c =>
          if c.phase = .working ∧ cmdOp c = some .lodePower ∧ c.p 0 = n then finish0 c.id stOk s else s) s

end Sys2Proof.Machine
end

