-- ==== Sys2Proof/Machine/Net.lean ====
section
/-! DEFINITION. The frame path's commands and events: ports, reception, parsing, delivery, rules, streams and egress (R344 to R369). -/
namespace Sys2Proof.Machine

open Sys2Proof

/-! ### Ports (R344 to R346) -/

/-- A port is DOWN while ENABLE of each of its MACs is 0 (R346). -/
def portDown (s : State) (p : Nat) : Bool := (modeMacs (portMode s p) p).all fun m => !bit (s.reg .ethCtrl p) (m % 4)

/-- A mode that would give a strict tenant's queue, stream or slow path several MACs that has one, by its current rules or by a commit
that waits (R357). -/
def modeRefused (s : State) (p mode : Nat) : Option Nat :=
  let t := s.setField .ethSts p 0 1 0 mode
  let gives (l : List Nat) : Bool := l.any fun m => decide (maskMacs s m ≤ 1) && decide (1 < maskMacs t m)
  (List.range 16).find? fun k => strict s k && (gives (destMasks (ruleSet s k).rules (ruleSet s k).slow)
    || s.net.commits.any fun c => c.tenant == k && gives (destMasks c.rules c.slow))

/-- PORT_MODE (R344, R357, R369). -/
def execPortMode (id : Nat) (s : State) : Res :=
  run true s (startOp .portMode id fun c =>
    let p := c.p 0
    fun s => need6 (portDown s p) c 0x0B p 1 (fun s =>
      match modeRefused s p (c.p 1) with
      | some t => finish0 id stDetRefused (varRefuse t s)
      | none => finish0 id stOk (s.setField .ethSts p 0 1 0 (c.p 1))) s)

/-- A write of ETH[p].CTRL (R346, R370): management functions and world S only. Enabling a MAC reads the module; `moduleOk` says
whether its memory is readable and advertises the mode's application. -/
def execEthEnableWrite (who p : Nat) (val : Word) (moduleOk : Bool) (s : State) : Res :=
  run (who < 19 && p < 8) s (devInst who 0x0C <| onlyIf (decide (16 ≤ who)) fun s =>
    let v := val.toNat
    let old := s.reg .ethCtrl p
    let used (x : Nat) : Nat := ((modeMacs (portMode s p) p).map fun m => if bit x (m % 4) then 2 ^ (m % 4) else 0).sum
    let mf := if used old ≠ 0 then bits old 29 16 else clampNat 1518 9216 (bits v 29 16)
    let s := s.setReg .ethCtrl p 0 (v % 16 + bits v 15 8 * 256 + mf * 65536)
    let s := s.setField .ethSts p 0 5 2 (bits (s.reg .ethSts p) 5 2 &&& used v)
    if used v &&& (used v ^^^ used old) ≠ 0 then
      let s := s.setField .ethSts p 0 6 6 (if moduleOk then 1 else 0)
      if moduleOk then s else sticky none .ethErr p 0 1 (s.setField .ethSts p 0 5 2 0)
    else s)

/-- A MAC gains or loses link (R345): it gains it only while enabled with an accepted module. -/
def execMacLinkChange (m : Nat) (up : Bool) (s : State) : Res :=
  run (m < 32) s fun s =>
    let p := m / 4
    let b := 2 + m % 4
    if up then
      if macOn s m && bit (s.reg .ethSts p) 6 then s.orReg .ethSts p 0 (2 ^ b) else s
    else if bit (s.reg .ethSts p) b then sticky none .ethErr p 0 2 (s.setField .ethSts p 0 b b 0)
    else s

/-! ### Reception (R347 to R349) -/

/-- A received PFC frame pauses its classes for its quanta of 512 bit times. -/
def pfcReceive (m : Nat) (f : Bytes) (s : State) : State :=
  let vec := be16 f 16
  let x := s.mac m
  let peer := (List.range 8).foldl (fun t c =>
    if bit vec c then tput 0 t c (s.tb.ticks + be16 f (18 + 2 * c) * 512 / macRate s m) else t) x.peer
  s.setMac m { x with peer := peer }

/-- Whether a UDP message is one of the servo's (R349). -/
def isPtp (x : Parsed) : Bool := x.etype == 0x88F7 || x.dport == some 319 || x.dport == some 320

/-- A frame that the ingress buffer drops: counted, and a gap for the stream it would have reached (R347, R363). -/
def ingressDrop (t m : Nat) (ft : Bool) (f : Bytes) (s : State) : State :=
  let s := s.count .ethRxDrop (m / 4) 0 1
  if ft then s
  else match (judge s t m f).2 with
    | .stream st _ => if (s.stream st).isOpen then strmErrSet st 1 (strmDrop st s) else s
    | _ => s

/-- A MAC receives a frame, FCS included (R348, R349): checked, stamped, sorted, policed, and buffered. -/
def execFrameReceive (m : Nat) (frame : Bytes) (s : State) : Res :=
  run (m < 32) s (onlyIf (macUp s m) fun s =>
    let p := m / 4
    let n := frame.length
    let f := frame.take (n - 4)
    let bad := n < 64 || maxFrame s p < n || leNat (frame.drop (n - 4)) != crc32 f
    let ctl := be16 f 12 == 0x8808
    if bad || (ctl && be16 f 14 == 1) then s.count .ethErrCount p 0 1
    else if ctl && be16 f 14 == 0x0101 then pfcReceive m f s
    else
      let x := parse f
      if isPtp x then { s with net := { s.net with ptp := s.net.ptp ++ [⟨m, f, s.now⟩] } }
      else
        let ft := x.dport == some (s.reg .ftUdpPort % 65536)
        let c := frameClass f
        match (if ft then some 0 else mapTenant s m f) with
        | none => s.count .ethNoTenant p 0 1
        | some t =>
          let (s, colour) := if ft then (s, 0) else police t f s
          if colour = 2 then s.count .prsRed 0 t 1
          else
            let o := occupancy s m c + f.length
            let sh := classShare s m
            if sh < o || (colour = 1 && 3 * sh < 4 * occupancy s m c) then ingressDrop t m ft f s
            else
              let fr : Frame := { mac := m, bytes := f, time := s.now, cls := c, colour := colour, tenant := t, ft := ft }
              pfc m c { s with net := { s.net with frames := s.net.frames ++ [fr] } })

/-- A policer that is turned on begins with full buckets (RFC 2698, R349). -/
def fillIf (off : Bool) (b : Bucket) : Bucket := if off then { b with level := ((b.burst * 1000000 : Nat) : Int) } else b

/-- The policers refill every microsecond (R349). -/
def execPolicerRefill (s : State) : Res :=
  run true s (onlyIf (decide (s.net.polDue ≤ s.tb.ticks)) fun s =>
    let one (x : Policer) : Policer :=
      let off := x.c.rate == 0 && x.p.rate == 0
      { aware := x.next.getD x.aware, next := none, c := fillIf off (refill 1000000 false x.c), p := fillIf off (refill 1000000 false x.p) }
    let s := s.net.policers.foldl (fun s (t, x) => s.setPolicer t (one x)) s
    { s with net := { s.net with polDue := max (s.net.polDue + usTicks) (s.tb.ticks + 1) } })

/-- POLICER_SET (R349): new values at the next refill. -/
def execPolicerSet (id : Nat) (s : State) : Res :=
  run true s (startOp .policerSet id fun c s =>
    let t := c.p 0
    let x := s.policer t
    finish0 id stOk (s.setPolicer t { x with
      next := some (c.p 1 == 1), c := { x.c with next := some (c.p 3, c.p 2) }, p := { x.p with next := some (c.p 4, c.p 5) } }))

/-! ### Parsing and delivery (R350 to R354, R359) -/

/-- Frames handed over and not yet released. -/
def inPipes (f : Frame) : Bool := f.piped && !f.waiting

/-- The distributor hands the oldest buffered frame to the next pipeline while the reorder buffer has room; the frame is
judged by the tables current in this cycle (R350). -/
def execParseHandoff (s : State) : Res :=
  run true s fun s =>
    if (s.net.frames.filter inPipes).length < 1024 then
      match takeFirst (fun f => !f.piped) s.net.frames with
      | none => s
      | some (f, rest) =>
        let (prof, v, t) : Nat × Verdict × Nat :=
          if f.ft then (0xFF, .transport, 0)
          else match mapTenant s f.mac f.bytes with
            | none => (0xFF, .noTenant, 0)
            | some t => let (p, v) := judge s t f.mac f.bytes; (p, v, t)
        let f := { f with piped := true, version := s.reg .prsVersion, profile := prof, verdict := v, tenant := t }
        let s := { s with net := { s.net with frames := rest ++ [f], pipe := (s.net.pipe + 1) % 8 } }
        pfc f.mac f.cls s
    else s

/-- The 32-byte receive entry of R359. -/
def rxEntry (f : Frame) (cause rule addr : Nat) : Bytes :=
  fit 32 (leBytes 2 f.bytes.length ++ leBytes 1 f.mac ++ leBytes 1 cause ++ leBytes 4 f.version ++ leBytes 8 f.time ++ leBytes 8 addr
    ++ leBytes 1 f.profile ++ leBytes 1 f.colour ++ leBytes 2 rule)

/-- Deliver a frame to a receive or slow-path queue (R359). -/
def rxDeliver (f : Frame) (q cause rule : Nat) (s : State) : State :=
  let t := f.tenant
  let n := tget 0 s.net.rxSeq t
  let slots := s.reg .prsRxSlots 0 t
  let behind := (n + 2 ^ 32 - s.reg .prsRxDone 0 t) % 2 ^ 32
  if slots ≤ behind ∨ 1024 ≤ (s.wq q).length then s.count .prsRxDrop 0 t 1
  else
    let a := s.reg .prsRxBase 0 t + n % slots * 16384
    if permits s (tenReq t 0x213) a f.bytes.length true then
      let s := (writeMem s a f.bytes).1
      let s := { s with net := { s.net with rxSeq := tput 0 s.net.rxSeq t ((n + 1) % 2 ^ 32) } }
      s.setWq q (s.wq q ++ [{ bytes := rxEntry f cause rule a }])
    else refuse (tenReq t 0x213) a f.bytes.length (s.count .prsRxDrop 0 t 1)

/-- The slow path of a port that the tenant's commit names; other ports' frames are dropped (R352, R355, R357). -/
def slowDeliver (f : Frame) (cause rule : Nat) (s : State) : State :=
  if bit (ruleSetAt s f.tenant f.version).slow (f.mac / 4) then rxDeliver f (8 * f.tenant) cause rule s else s.count .prsSlowDrop 0 f.tenant 1

/-- The reorder buffer releases the oldest frame of a MAC to its destination (R350, R354). -/
def execReorderRelease (m : Nat) (s : State) : Res :=
  run (m < 32) s fun s =>
    match takeFirst (fun f => f.mac == m && inPipes f) s.net.frames with
    | none => s
    | some (f, rest) =>
      let s := { s with net := { s.net with frames := rest } }
      match f.verdict with
      | .transport => { s with net := { s.net with ftIn := s.net.ftIn ++ [f] } }
      | .noTenant => s.count .ethNoTenant (m / 4) 0 1
      | .noMatch => s.count .prsNomatch 0 f.tenant 1
      | .drop => s
      | .queue k rule => rxDeliver f (8 * f.tenant + k) 0 rule s
      | .slow c rule =>
        let s := if c = 7 then strmErrSet (longStream s f rule) 8 s else s
        slowDeliver f c rule s
      | .stream st _ =>
        if (s.stream st).isOpen then { s with net := { s.net with frames := s.net.frames ++ [{ f with waiting := true }] } }
        else pfc m f.cls (strmDrop st s)

/-! ### Streams (R361 to R364) -/

/-- A stream places its next frame's payload, when its last byte falls below CONSUMED + BYTES (R362, R363). A ring whose region no
longer grants it closes the stream (R364). -/
def execStreamPlace (st : Nat) (s : State) : Res :=
  run (st < 256) s fun s =>
    let x := s.stream st
    match x.owner, takeFirst (frameWaits st) s.net.frames with
    | some t, some (f, rest) =>
      let o := s.reg .strmOffset 0 st
      let pay := f.bytes.drop ((parse f.bytes).p.getD 0)
      if !x.isOpen || x.held || x.closing.isSome then s
      else if !permits s (tenReq t 0x213) x.dst x.bytes true then
        strmErrSet st 2 (closeStream st (if tableUe s (tenReq t 0x213) x.dst x.bytes then tableErr s else s))
      else if o + pay.length ≤ s.reg .strmConsumed 0 st + x.bytes then
        let s := { s with net := { s.net with frames := rest } }
        let s := if streamMulti s st then varCount t none s else s
        let s := ringWrite x.dst x.bytes o pay s
        let (tail, n) := matchRun x.pat x.tail pay 0
        let s := (s.setReg .strmOffset 0 st (o + pay.length)).setStream st { x with tail := tail, recs := x.recs + n }
        pfc f.mac f.cls s
      else s
    | _, _ => s

/-- The signal of a register or binding of a tenant's function (R237). -/
def tenSync (t src sync : Nat) (s : State) : State :=
  if bits sync 31 24 = 0 then s
  else sendSig src t (translateFor s (t + 1) (fnBind s t) (bits sync 23 0)) (bits sync 31 24) none s

/-- A record's writes are performed: RECORDS counts it and the stream's signal is delivered (R362). -/
def execStreamRecordComplete (st : Nat) (s : State) : Res :=
  run (st < 256) s fun s =>
    let x := s.stream st
    match x.owner with
    | some t =>
      if x.recs = 0 then s
      else
        let s := (s.setStream st { x with recs := x.recs - 1 }).count .strmRecords 0 st 1
        closeReady st (tenSync t 0x213 (s.reg .strmSync 0 st) s)
    | none => s

/-- A tenant sees the streams it owns; a management function and world S see all (R45, R370). -/
def ownsStream (s : State) (who st : Nat) : Bool := decide (16 ≤ who) || (s.stream st).owner == some who

/-- A write of CONSUMED (R362): backwards or beyond OFFSET it is ignored. (DEDUCED, log entry 77.) -/
def execConsumedWrite (who st : Nat) (val : BitVec 64) (s : State) : Res :=
  run (who < 19 && st < 256) s (devInst who 0x0C <| onlyIf (ownsStream s who st) fun s =>
    let v := val.toNat
    if s.reg .strmConsumed 0 st ≤ v ∧ v ≤ s.reg .strmOffset 0 st then s.setReg .strmConsumed 0 st v else strmErrSet st 4 s)

/-- STREAM_OPEN (R361): the stream opens at its resume position with a copy of the tenant's current pattern. -/
def execStreamOpen (id : Nat) (s : State) : Res :=
  run true s (startOp .streamOpen id fun c =>
    let st := c.p 0
    fun s => need6 (!(s.stream st).isOpen) c 0x0A st 1 (fun s =>
      let x := s.stream st
      let s := s.setStream st { x with
        owner := some c.fn, isOpen := true, dst := c.p 2, bytes := c.p 3, pat := tget [] (ruleSet s c.fn).pats (c.p 1), pidx := c.p 1 }
      finish0 id stOk (s.setReg .strmConsumed 0 st (s.reg .strmOffset 0 st))) s)

/-- STREAM_CLOSE (R364): placement stops; the close waits for a capture to release the stream (R369), and the reply comes once the stream
is closed and its writes are performed. -/
def execStreamClose (id : Nat) (s : State) : Res :=
  run true s (startOp .streamClose id fun c =>
    let st := c.p 0
    fun s => need6 ((s.stream st).isOpen && !((s.stream st).held && (s.stream st).closing.isSome)) c 0x0A st 0 (fun s =>
      let s := if (s.stream st).held then s else closeStream st s
      closeReady st (working id (s.setStream st { s.stream st with closing := some id }))) s)

/-! ### Rules, patterns, tables (R353 to R356) -/

/-- The byte offset, in the table, of a rule's first illegal field (R354). -/
def ruleBad (r : Bytes) : Option Nat :=
  let act := fld r 2 1
  let arg := fld r 4 2
  let pat := fld r 6 1
  ([(0, decide (64 ≤ fld r 0 1)), (2, decide (3 < act)), (3, decide (6 < fld r 3 1)),
    (4, (act == 1 && !(1 ≤ arg && arg ≤ 7)) || (act == 2 && decide (256 ≤ arg)) || ((act == 0 || act == 3) && arg != 0)),
    (7, decide (1 < fld r 7 1) || (pat == 0xFF && fld r 7 1 != 0)), (8, fld r 8 4 >>> 24 != 0), (12, fld r 12 4 != 0)].find? (·.2)).map (·.1)

/-- The tenant has loaded a pattern: in its current version, or staged for the next (R354, R356). -/
def patLoaded (s : State) (t i : Nat) : Bool :=
  match tget [] s.net.staged (t * 256 + i) with
  | [] => tget [] (ruleSet s t).pats i != []
  | e => fld e 0 1 != 0

/-- The rules and SLOW_PORTS of a commit's table. -/
def tableRules (s : State) (a n : Nat) : List Bytes := (List.range n).map fun i => memBytes s (a + 16 + 64 * i) 64

/-- The rules that the other tenants' current sets hold or come to hold: of each the largest of its current set and of its commits that
wait (R355). -/
def rulesElse (s : State) (t : Nat) : Nat :=
  ((List.range 16).map fun k => if k = t then 0
    else (s.net.commits.filter fun c => c.tenant == k).foldl (fun n c => max n c.rules.length) (ruleSet s k).rules.length).sum

/-- RULES_COMMIT (R354, R355, R357): the table is checked at the take; the strict-mode test and check 7 follow here, and the commit
waits for room. -/
def execRulesCommit (id : Nat) (s : State) : Res :=
  run true s (startOp .rulesCommit id fun c s =>
    let t := c.fn
    let n := c.p 0
    match readMem s (c.p 1) (16 + 64 * n) with
    | (s, .error a) => failAddr id (.ue a) s
    | (s, .ok d) =>
      let rules := (List.range n).map fun i => slice d (16 + 64 * i) 64
      if strict s t && rulesMulti s rules (fld d 0 1) then finish0 id stDetRefused (varRefuse t s)
      else
        need7 (decide (rulesElse s t + n ≤ 16384)) c (fun s =>
          working id { s with net := { s.net with commits := s.net.commits ++ [⟨id, t, rules, fld d 0 1⟩] } }) s)

/-- A commit's staged patterns over the current ones. -/
def commitPats (s : State) (t : Nat) : Tbl Bytes :=
  (List.range 256).foldl (fun p i => match tget [] s.net.staged (t * 256 + i) with
    | [] => p
    | e => tput [] p i (if fld e 0 1 = 0 then [] else e)) (ruleSet s t).pats

/-- The rule memory has room: the commit's rules and staged patterns become the tenant's current set under the next version, and
the command replies (R355); where strict mode has come to refuse them meanwhile, nothing changes (R357). -/
def execRulesCommitApply (id : Nat) (s : State) : Res :=
  run true s fun s =>
    match takeFirst (fun c => c.id == id) s.net.commits with
    | none => s
    | some (c, rest) =>
      let first := (s.net.commits.find? fun x => x.tenant == c.tenant).map (·.id) == some id
      if first && strict s c.tenant && rulesMulti s c.rules c.slow then
        finish0 id stDetRefused (varRefuse c.tenant { s with net := { s.net with commits := rest } })
      else if first && decide (((s.net.sets.map (·.rules.length)).sum + c.rules.length) ≤ 32768) then
        let v := (s.reg .prsVersion + 1) % 2 ^ 32
        let pats := commitPats s c.tenant
        let freed (i : Nat) : Bool := match tget [] s.net.staged (c.tenant * 256 + i) with | [] => false | e => fld e 0 1 == 0
        let sets := s.net.sets.map fun r => if r.tenant = c.tenant ∧ r.until_ = none then { r with until_ := some v } else r
        let s := { s with net := { s.net with
          commits := rest
          sets := sets ++ [(⟨c.tenant, v, c.rules, c.slow, pats, none⟩ : RuleSet)]
          patOwner := s.net.patOwner.filter fun (i, o) => !(o == c.tenant + 1 && freed i)
          staged := tdrop s.net.staged fun k => k / 256 == c.tenant } }
        finish id stOk v 0 0 0 (s.setReg .prsVersion 0 0 v)
      else s

/-- A replaced version that no frame in the pipelines or the reorder buffer carries retires and frees its memory (R355). -/
def execRuleVersionRetire (ver : Nat) (s : State) : Res :=
  run true s fun s =>
    let carried (r : RuleSet) : Bool := s.net.frames.any fun f =>
      inPipes f && f.tenant == r.tenant && decide (r.version ≤ f.version) && match r.until_ with | some u => decide (f.version < u) | none => true
    { s with net := { s.net with sets := s.net.sets.filter fun r => !(r.version == ver && r.until_.isSome && !carried r) } }

/-- PATTERNS_LOAD (R356): entries into the tenant's staged copy; a first load gives the entry to the tenant. -/
def execPatternsLoad (id : Nat) (s : State) : Res :=
  run true s (startOp .patternsLoad id fun c s =>
    let t := c.fn
    match readMem s (c.p 2) (64 * c.p 1) with
    | (s, .error a) => failAddr id (.ue a) s
    | (s, .ok d) =>
      finish0 id stOk ((List.range (c.p 1)).foldl (fun s i =>
        let k := c.p 0 + i
        { s with net := { s.net with
          staged := tput [] s.net.staged (t * 256 + k) (slice d (64 * i) 64)
          patOwner := if tget 0 s.net.patOwner k = 0 then tput 0 s.net.patOwner k (t + 1) else s.net.patOwner } }) s))

/-- A write that changes the tenant map increments PRS.VERSION (R355, R370): TMAP[idx], or UNTAGGED[idx − 4096]. -/
def execTenantMapWrite (who idx : Nat) (val : Word) (s : State) : Res :=
  run (who < 19 && idx < 4128) s (devInst who 0x0C <| onlyIf (decide (16 ≤ who)) fun s =>
    let r : Reg := if idx < 4096 then .prsTmap else .prsUntagged
    let j := if idx < 4096 then idx else idx - 4096
    let v := val.toNat % 32
    if v = s.reg r 0 j then s else (s.setReg r 0 j v).setReg .prsVersion 0 0 (s.reg .prsVersion + 1))

/-- A write of word `word` of a parse profile (R353, R355, R370). -/
def execProfileWrite (who prof word : Nat) (val : Word) (s : State) : Res :=
  run (who < 19 && prof < 64 && word < 10) s (devInst who 0x0C <| onlyIf (decide (16 ≤ who)) fun s =>
    let v := val.toNat
    let bump (t : State) : State := if t.regs = s.regs then t else t.setReg .prsVersion 0 0 (t.reg .prsVersion + 1)
    if word = 0 then bump (s.setReg .prsProfile0 0 prof (v % 2 ^ 28))
    else if bit (s.reg .prsProfile0 0 prof) 27 then s
    else if word = 1 then bump (s.setReg .prsProfile1 0 prof (v % 65536))
    else bump (s.setField .prsProfileF 0 prof (32 * (word - 2) + 31) (32 * (word - 2)) (v &&& 0x3FFF3FFF)))

/-! ### Egress (R360, R365 to R368) -/

/-- The position of a list at a time: entry and the nanoseconds left of its interval. -/
def gateAt (g : GateL) (now : Nat) : Nat × Nat :=
  let cyc := (g.entries.map (·.2)).sum
  let ph := if now < g.base then 0 else (now - g.base) % cyc
  let rec go : List (Nat × Nat) → Nat → Nat → Nat × Nat
    | [], i, _ => (i, 0)
    | (_, d) :: t, i, ph => if ph < d then (i, d - ph) else go t (i + 1) (ph - d)
  go g.entries 0 ph

/-- Nanoseconds for which the gate of class c stays open from now under a list; none where it never closes. -/
def openFor (g : GateL) (now c : Nat) : Option Nat :=
  let (i, left) := gateAt g now
  let st (k : Nat) : Bool := bit (g.entries.getD (k % g.entries.length) (0, 0)).1 c
  let rec go : Nat → Nat → Nat → Option Nat
    | 0, _, _ => none
    | f + 1, k, acc => if st k then go f (k + 1) (acc + (g.entries.getD (k % g.entries.length) (0, 1)).2) else some acc
  if st i then go g.entries.length (i + 1) left else some 0

/-- The gate of a class is open, and stays open for the guard band, the take-over by a pending list included (R368). -/
def gateOpen (s : State) (m c : Nat) : Bool :=
  let x := s.mac m
  let guard := ceilDiv ((maxFrame s (m / 4) + 20) * 8) (macRate s m)
  (match x.gates with
    | none => true
    | some g => bit (g.entries.getD x.entry (0, 0)).1 c && match openFor g s.now c with | some n => decide (guard ≤ n) | none => true)
  && match x.pend with
    | some g => bit (g.entries.getD 0 (0, 0)).1 c || decide (s.now + guard ≤ g.base)
    | none => true

/-- The bucket of queue q, and of class c, of a MAC. -/
def qBucket (s : State) (m q : Nat) : Bucket := tget {} (s.mac m).qb q
def cBucket (s : State) (m c : Nat) : Bucket := tget {} (s.mac m).cb c

def hasTokens (b : Bucket) : Bool := b.rate == 0 || decide (0 < b.level)

/-- The transmit entries of MAC m in tenant t's work queue of class c. -/
def txEntries (s : State) (m q : Nat) : List WqE :=
  (s.wq (128 + 8 * (q % 16) + q / 16)).filter fun e => fld e.bytes 2 1 == m

/-- The length, FCS included, of the head frame of queue q of a MAC: frames of the ID engines first, then transmit entries. -/
def headLen (s : State) (m q : Nat) : Option Nat :=
  match tget [] s.net.txq (m * 128 + q), txEntries s m q with
  | f :: _, _ => some (f.length + 4)
  | [], e :: _ => some (fld e.bytes 0 2 + 4)
  | [], [] => none

/-- A queue is eligible (R365): non-empty, its gate open, tokens in both buckets, its class not paused by the peer (R345). -/
def eligible (s : State) (m q : Nat) : Bool :=
  (headLen s m q).isSome && gateOpen s m (q / 16) && hasTokens (qBucket s m q) && hasTokens (cBucket s m (q / 16))
    && decide (tget 0 (s.mac m).peer (q / 16) ≤ s.tb.ticks)

/-- Deficit round robin (R366): from queue `q`, adding the quantum where the visit begins, to the first queue whose head fits its
deficit. Answers that queue and the deficits. -/
def drr (s : State) (m : Nat) : Nat → Nat → Bool → Tbl Nat → Option (Nat × Tbl Nat)
  | 0, _, _, _ => none
  | f + 1, q, visited, d =>
    let nxt := (q + 1) % 128
    if eligible s m q then
      let d := if visited then d else tput 0 d q (tget 0 d q + s.reg .tscQuantum m q)
      match headLen s m q with
      | some n => if n ≤ tget 0 d q then some (q, d) else drr s m f nxt false d
      | none => drr s m f nxt false d
    else drr s m f nxt false (if (headLen s m q).isNone then tput 0 d q 0 else d)

/-- A frame with its FCS. -/
def withFcs (f : Bytes) : Bytes := f ++ leBytes 4 (crc32 f)

/-- A transmit entry is dequeued: its frame read and sent, or discarded as TX_DENIED, and its SYNC delivered (R360). -/
def txDequeue (m q : Nat) (s : State) : State :=
  let t := q % 16
  let w := 128 + 8 * t + q / 16
  match takeFirst (fun (e : WqE) => fld e.bytes 2 1 == m) (s.wq w) with
  | none => s
  | some (e, rest) =>
    let s := s.setWq w rest
    let s := match readMem s (fld e.bytes 8 8) (fld e.bytes 0 2) with
      | (s, .error _) => s
      | (s, .ok f) => if mapTenant s m f = some t then send (.frame m (withFcs f)) s else s.count .ethTxDenied (m / 4) 0 1
    match e.sig with
    | some (x, v) => sendSig 0x213 t x v none s
    | none => s

/-- A MAC sends the next frame (R365, R366): its length plus 20 bytes leaves both buckets. -/
def execFrameTransmit (m : Nat) (s : State) : Res :=
  run (m < 32) s (onlyIf (macUp s m) fun s =>
    let x := s.mac m
    if (List.range 128).any (eligible s m) then
      match drr s m 32768 x.ptr x.visit x.deficit with
      | none => s
      | some (q, d) =>
        let n := (headLen s m q).getD 0
        let pay (b : Bucket) : Bucket := { b with level := b.level - (((n + 20) * 8000000 : Nat) : Int) }
        let s := s.setMac m { x with
          ptr := q, visit := true, deficit := tput 0 d q (tget 0 d q - n)
          qb := tput {} x.qb q (pay (tget {} x.qb q)), cb := tput {} x.cb (q / 16) (pay (tget {} x.cb (q / 16))) }
        let s := match tget [] s.net.txq (m * 128 + q) with
          | f :: rest => send (.frame m (withFcs f)) { s with net := { s.net with txq := tput [] s.net.txq (m * 128 + q) rest } }
          | [] => txDequeue m q s
        if (headLen s m q).isNone then
          let x := s.mac m
          s.setMac m { x with deficit := tput 0 x.deficit q 0, ptr := (q + 1) % 128, visit := false }
        else s
    else s)

/-- The queue and class buckets refill every microsecond by the values in force, and then take new ones (R367, R369). -/
def execShaperRefill (m : Nat) (s : State) : Res :=
  run (m < 32) s (onlyIf (decide ((s.mac m).due ≤ s.tb.ticks)) fun s =>
    let x := s.mac m
    let qb := x.qb.foldl (fun t (q, b) => tput {} t q (refill 8000000 true b)) []
    let cb := (List.range 8).foldl (fun t c =>
      tput {} t c { refill 8000000 true { tget {} t c with next := some (s.reg .tscRate m c, s.reg .tscBurst m c) } with next := none }) x.cb
    s.setMac m { x with qb := qb, cb := cb, due := max (x.due + usTicks) (s.tb.ticks + 1) })

/-- SHAPER_SET (R367): the tenant's own queue of a class; new values at the next refill. -/
def execShaperSet (id : Nat) (s : State) : Res :=
  run true s (startOp .shaperSet id fun c s =>
    let m := c.p 0
    let x := s.mac m
    let q := 16 * c.p 1 + c.fn
    finish0 id stOk (s.setMac m { x with qb := tput {} x.qb q { tget {} x.qb q with next := some (c.p 3, c.p 2) } }))

/-- The list of GATES_LOAD as its bytes give it (R368). -/
def gateEntries (d : Bytes) (n : Nat) : List (Nat × Nat) := (List.range n).map fun i => (fld d (8 * i) 1, fld d (8 * i + 4) 4)

/-- GATES_LOAD (R368): the list is armed on BASE, replacing a pending one, and the command replies. -/
def execGatesLoad (id : Nat) (s : State) : Res :=
  run true s (startOp .gatesLoad id fun c s =>
    let m := c.p 0
    match readMem s (c.p 2) (8 * c.p 1) with
    | (s, .error a) => failAddr id (.ue a) s
    | (s, .ok d) =>
      let base := c.p 3
      let s := s.setMac m { s.mac m with pend := some ⟨gateEntries d (c.p 1), base⟩ }
      finish0 id stOk (arm (.gate m) base (disarm (.gate m) s)))

/-- An armed list takes effect, at the phase it holds from BASE (R368). -/
def gateTakes (m : Nat) (late : Bool) (s : State) : State :=
  let x := s.mac m
  match x.pend with
  | some g =>
    let s := s.setMac m { x with gates := some g, pend := none, entry := (gateAt g s.now).1 }
    if late then s.orReg .tscGateSts m 0 0x40000 else s
  | none => s

/-- An interval of a list ends and the entry of the present phase takes effect (R368, R369). -/
def execGateIntervalEnd (m : Nat) (s : State) : Res :=
  run (m < 32) s fun s =>
    let x := s.mac m
    match x.gates with
    | some g => s.setMac m { x with entry := (gateAt g s.now).1 }
    | none => s

end Sys2Proof.Machine
end

