-- ==== Sys2Proof/Machine/TimeBase.lean ====
section
/-! DEFINITION. The time base: armed events, loads, steps, the rate correction, TB_SYNCIN and the PTP servo (R30 to R34, R478 to R480,
R526). -/
namespace Sys2Proof.Machine

open Sys2Proof

/-! ### Loads and steps (R33) -/

/-- Bits of TB.STS. -/
def tbArmed : Nat := 1
def tbSyncDone : Nat := 2
def tbLateFire : Nat := 4
def tbBackRefused : Nat := 8
def tbStepLost : Nat := 16

def servoOn (s : State) : Bool := bit (s.reg .tbCtrl) 0

/-- An event is armed: one that waits, or the next cycle start of a gate list that runs (R32, R369). -/
def tbHeld (s : State) : Bool := !s.tb.armed.isEmpty || s.net.macs.any fun (_, x) => x.gates.isSome

/-- A load or step gives the master counter a value, in units of 2^-16 ns: refused backward while an event is armed; forward it marks late
every target strictly below the value, and an event it reaches fires at the next tick. Answers whether the counter took it. (DEDUCED,
log entry 100.) -/
def tbTake (v : Nat) (s : State) : Bool × State :=
  let cur := s.tb.master.toNat
  if v < cur ∧ tbHeld s then (false, s.orReg .tbSts 0 0 tbBackRefused)
  else
    let passed (e : ArmedEv) : Bool := decide (cur < v) && decide (e.target * 2 ^ 16 < v)
    let reached (e : ArmedEv) : Bool := decide (cur < e.target * 2 ^ 16) && decide (e.target * 2 ^ 16 ≤ v)
    let t := s.tb
    let s' := if t.armed.any passed then s.orReg .tbSts 0 0 tbLateFire else s
    (true, { s' with tb := { t with
      master := BitVec.ofNat 80 v
      armed := t.armed.map fun e => { e with late := e.late || passed e, start := if reached e then t.ticks + 1 else e.start } } })

/-- A step by a signed amount in units of 2^-16 ns: a result below zero is refused whole, and the counter never wraps (R33). (DESIGN CHOICE, log entry 25.) -/
def tbStepBy (d : Int) (s : State) : Bool × State :=
  let v := (s.tb.master.toNat : Int) + d
  if v < 0 then (false, s.orReg .tbSts 0 0 tbBackRefused)
  else if 2 ^ 80 ≤ v then (false, s)
  else tbTake v.toNat s

/-- The step in units of 2^-16 ns that the two halves of TB.STEP ask for (R33). -/
def tbStepWord (hi lo : Word) : Int := sext 64 (hi.toNat * 2 ^ 32 + lo.toNat) * 2 ^ 16

/-- The load of a sampled TB_SYNCIN edge is due (R478). -/
def edgeDue (s : State) : Bool := match s.tb.edge with | some d => decide (d ≤ s.tb.ticks) | none => false

/-- A TB_SYNCIN load falls in this tick: it is due, or it has taken place (R33). -/
def loadHere (s : State) : Bool := edgeDue s || s.tb.loadTick == some s.tb.ticks

/-- A step in the tick of a TB_SYNCIN load is discarded with STEP_LOST; else it steps the counter (R33). Answers whether the counter took it. -/
def tbStepOr (d : Int) (s : State) : Bool × State :=
  if loadHere s then (false, s.orReg .tbSts 0 0 tbStepLost) else tbStepBy d s

/-- The upper half steps the counter, unless a TB_SYNCIN load falls in the same tick (R33, R478). -/
def tbStepHi (val : Word) (s : State) : State := (tbStepOr (tbStepWord val s.tb.stepLow) s).2

def tbStepLo (val : Word) (s : State) : State := { s with tb := { s.tb with stepLow := val } }

def tbStepWrite (hi : Bool) (val : Word) (s : State) : State := if hi then tbStepHi val s else tbStepLo val s

/-- TB.STEP (R33, R490): a write of the upper half steps the counter; in the cycle of a TB_SYNCIN load the step is lost. Management
functions and world S write it, and not while the servo steers. -/
def execTbStep (who : Nat) (hi : Bool) (val : Word) (s : State) : Res :=
  run (who < 19) s (onlyIf (decide (16 ≤ who) && !servoOn s) (tbStepWrite hi val))

/-- The rate correction that a write gives: clamped to ±65 (R30). -/
def clampAdj (x : Int) : Nat := wrapInt 8 (clampInt (-65) 65 x)

/-- A write of TB.ADJ, ignored while the servo steers (R30, R480). -/
def execTbAdjWrite (who : Nat) (val : Word) (s : State) : Res :=
  run (who < 19) s (onlyIf (decide (16 ≤ who) && !servoOn s) fun s => s.setReg .tbAdj 0 0 (clampAdj (sext 8 val.toNat)))

/-- TB_ADJ: STATE_CONFLICT with object type 0x17 while the servo is ON (R215, R480). -/
def execTbAdj (id : Nat) (s : State) : Res :=
  run true s (startOp .tbAdj id fun c s =>
    if servoOn s then conflict id 0x17 0 1 0 s
    else finish0 id stOk (s.setReg .tbAdj 0 0 (clampAdj (sext 16 (c.p 0)))))

/-! ### TB_SYNCIN (R478) -/

/-- TB_SYNC_ARM writes TB.SYNC_LOAD and arms. -/
def execTbSyncArm (id : Nat) (s : State) : Res :=
  run true s (startOp .tbSyncArm id fun c s =>
    if servoOn s then conflict id 0x17 0 1 0 s
    else
      let s := (s.setReg .tbSyncLoad 0 0 (c.p 0)).orReg .tbSts 0 0 tbArmed
      finish0 id stOk { s with tb := { s.tb with edge := none, armTick := s.tb.ticks } })

/-- A rising edge of TB_SYNCIN: sampled while armed, but not in the cycle that arms (R478, R489). -/
def execTbSyncinEdge (s : State) : Res :=
  run true s (onlyIf (bit (s.reg .tbSts) 0 && s.tb.edge.isNone && s.tb.ticks != s.tb.armTick) fun s =>
    { s with tb := { s.tb with edge := some (s.tb.ticks + 2) } })

/-- Two ticks later the counter takes SYNC_LOAD with a zero fraction (R478). -/
def execTbSyncinLoad (s : State) : Res :=
  run true s fun s =>
    match s.tb.edge with
    | none => s
    | some d =>
      if s.tb.ticks < d then s
      else
        let (ok, s) := tbTake (s.reg .tbSyncLoad * 2 ^ 16) s
        let s := s.setField .tbSts 0 0 0 0 0
        let s := if ok then s.orReg .tbSts 0 0 tbSyncDone else s
        { s with tb := { s.tb with edge := none, loadTick := some s.tb.ticks } }

/-! ### Armed events (R32, R526) -/

/-- The armed event with the least target. -/
def leastEvent : List ArmedEv → Option ArmedEv
  | [] => none
  | e :: t => match leastEvent t with
    | none => some e
    | some x => some (if e.target ≤ x.target then e else x)

/-! ### The servo (R480) -/

/-- A timestamp of a PTP message in units of 2^-16 ns. (PRESUMED, log entry 53.) -/
def ptpStamp (b : Bytes) (o : Nat) : Int := ((beNat (slice b o 6) * 10 ^ 9 + beNat (slice b (o + 6) 4)) * 2 ^ 16 : Nat)

/-- The correction field, in units of 2^-16 ns. (PRESUMED, log entry 53.) -/
def ptpCorr (b : Bytes) : Int := sext 64 (beNat (slice b 8 8))

/-- The data set that the default selection compares, in its order, with the sender last. (PRESUMED, log entry 53.) -/
def ptpData (b : Bytes) : Bytes := slice b 47 16 ++ slice b 20 10

/-- The servo acts on a new difference to the transmitter: the offset is shown, the counter is stepped beyond 1 µs, and TB.ADJ is
written. What TB.ADJ takes is the servo's: a free value within the limits. (DESIGN CHOICE, log entry 25.) -/
def servoAct (diff : Int) (s : State) : State :=
  let off := diff - s.tb.servo.delay
  let ns := off / 2 ^ 16
  let (n, s) := draw s
  let big : Bool := decide (ns < -(2 ^ 31 : Int)) || decide ((2 ^ 31 : Int) ≤ ns)
  let s := s.setReg .tbPtpOffset 0 0 (if big then Config.free n else wrapInt 32 ns)
  let calm := if off.natAbs ≤ 100 * 2 ^ 16 then some (s.tb.calmSince.getD s.tb.ticks) else none
  let s := { s with tb := { s.tb with calmSince := calm, servo := { s.tb.servo with diff := some diff } } }
  let (k, s) := draw s
  let adj := clampAdj ((Config.free k % 131 : Nat) - 65 : Int)
  if 1000 * 2 ^ 16 < off.natAbs then
    let (ok, s) := tbStepOr (-off) s
    if ok then s.setReg .tbAdj 0 0 adj else s.setReg .tbAdj 0 0 (clampAdj (-65))
  else s.setReg .tbAdj 0 0 adj

/-- A Delay_Req message (R480). (PRESUMED, log entry 53.) -/
def delayReq (s : State) : Bytes :=
  beBytes 1 1 ++ beBytes 1 2 ++ beBytes 2 44 ++ beBytes 1 (bits (s.reg .tbCtrl) 13 6) ++ zeros 15 ++ fit 10 Config.ptpIdentity
    ++ beBytes 2 ((s.tb.servo.reqNo + 1) % 65536) ++ beBytes 1 1 ++ beBytes 1 0x7F ++ zeros 10

/-- A Delay_Req leaves and its departure is kept. -/
def servoAsk (m : Nat) (s : State) : State :=
  let v := s.tb.servo
  send (.delayReq m (delayReq s)) { s with tb := { s.tb with servo := { v with reqNo := v.reqNo + 1, reqAt := some s.tb.master.toNat } } }

/-- A PTP message reaches the servo (R480). Message layouts and the default selection are those of IEEE 1588-2019 (PRESUMED, log entry
53). -/
def execPtpMessage (s : State) : Res :=
  run true s fun s =>
    match s.net.ptp with
    | [] => s
    | p :: rest =>
      let s := { s with net := { s.net with ptp := rest } }
      let x := parse p.bytes
      let b := p.bytes.drop (if x.etype = 0x88F7 then x.l3 else x.p.getD 0)
      let v := s.tb.servo
      if !servoOn s || p.mac != bits (s.reg .tbCtrl) 5 1 || fld b 1 1 % 16 != 2 || fld b 4 1 != bits (s.reg .tbCtrl) 13 6 then s
      else
        let sender := slice b 20 10
        let ours := match v.best with | some (_, k, due) => k == sender && decide (s.tb.ticks < due) | none => false
        let seq := beNat (slice b 30 2)
        let t2 : Int := (p.time * 2 ^ 16 : Nat)
        match fld b 0 1 % 16 with
        | 0xB =>
          let d := ptpData b
          let e := sext 8 (fld b 33 1)
          let due := s.tb.ticks + (if 0 ≤ e then 3 * 10 ^ 9 * 2 ^ e.toNat else 3 * 10 ^ 9 / 2 ^ (-e).toNat)
          let take := match v.best with
            | none => true
            | some (q, k, t) => decide (t ≤ s.tb.ticks) || k == sender || decide (beNat d < beNat q)
          if take then { s with tb := { s.tb with servo := { v with best := some (d, sender, due) } } } else s
        | 0 =>
          if !ours then s
          else if bit (fld b 6 1) 1 then { s with tb := { s.tb with servo := { v with sync := some (seq, t2 - ptpCorr b) } } }
          else servoAsk p.mac (servoAct (t2 - ptpStamp b 34 - ptpCorr b) s)
        | 8 =>
          match v.sync with
          | some (q, t) =>
            if ours && q == seq then
              servoAsk p.mac (servoAct (t - ptpStamp b 34 - ptpCorr b) { s with tb := { s.tb with servo := { v with sync := none } } })
            else s
          | none => s
        | 9 =>
          match v.reqAt, v.diff with
          | some t3, some d =>
            if ours && slice b 44 10 == Config.ptpIdentity && seq == v.reqNo % 65536 then
              { s with tb := { s.tb with servo := { v with delay := (d + (ptpStamp b 34 - ptpCorr b - t3)) / 2, reqAt := none } } }
            else s
          | _, _ => s
        | _ => s

end Sys2Proof.Machine
end

