-- ==== Sys2Proof/Machine/Power.lean ====
section
/-! DEFINITION. Power: operating points, the PM core's loops and the hardware limits below them, the clock lock, the deep state (R468 to
R477, R487 to R489). -/
namespace Sys2Proof.Machine

open Sys2Proof

/-! ### Frequency (R471, R472) -/

/-- A change of CCLK takes effect: group cycles counted so far stay, and a group that runs at another point than DOP is marked (R181,
R251, R472). (DEDUCED, log entry 27.) -/
def setMhz (mhz : Nat) (s : State) : State :=
  let s := s.groups.foldl (fun s (i, _) => let g := s.grp i; if g.st = .running then s.setGrp i (foldCycles s g) else s) s
  let s := s.setField .pwrSts 0 0 10 0 mhz
  if mhz = 1500 then s
  else s.groups.foldl (fun s (_, g) => if g.st = .running then s.orReg .detSts 0 g.tenant 4 else s) s

/-- The lowest VDD_CD in mV at which a frequency may run (R471). -/
def vcdMin (mhz : Nat) : Nat := if mhz ≤ 750 then 600 else if mhz ≤ 1000 then 640 else if mhz ≤ 1500 then 700 else 720

/-- The frequency a point asks for: for boost the lowest one, above which the PM core chooses. -/
def pointMhz (p : Nat) : Nat := if p = 1 then 1525 else 1500

/-- The frequency is one of the point's. -/
def atPoint (p mhz : Nat) : Bool := if p = 1 then decide (1525 ≤ mhz) && decide (mhz ≤ 1650) && mhz % 25 == 0 else mhz == 1500

def clamped (s : State) : Bool := bit (s.reg .pwrSts) 11
def safeHeld (s : State) : Bool := bit (s.reg .pwrSts) 12
def throttled (s : State) : Bool := bit (s.reg .pwrSts) 13
def pmRuns (s : State) : Bool := (s.fwp 33).st == .running && !s.power.noFirmware

/-- The PM core asks for the operating point again (R244, R489). -/
def wantPoint (s : State) : State :=
  if clamped s || !pmRuns s then s
  else if cclkMhz s < pointMhz s.power.wantPoint ∧ (throttled s ∨ s.power.powLow) then s
  else if atPoint s.power.wantPoint (cclkMhz s) then { s with power := { s.power with change := some (cclkMhz s) } }
  else { s with power := { s.power with change := some (pointMhz s.power.wantPoint) } }

/-- OP_POINT: recorded, asked for where the limits allow, and replied once the frequency has taken effect (R472, R489). -/
def execOpPoint (id : Nat) (s : State) : Res :=
  run true s (startOp .opPoint id fun c s =>
    let p := c.p 0
    let s := { s with power := { s.power with wantPoint := p } }
    if s.power.point = p ∧ atPoint p (cclkMhz s) ∧ s.power.change = none then finish0 id stOk s
    else wantPoint (working id { s with power := { s.power with opCmds := s.power.opCmds ++ [id] } }))

/-- The point that OP_POINT asked for has been reached. (DEDUCED, log entry 26.) -/
def pointReached (s : State) : State :=
  if atPoint s.power.wantPoint (cclkMhz s) then
    let s := { s with power := { s.power with point := s.power.wantPoint, powLow := false } }
    s.power.opCmds.foldl (fun s id => finish0 id stOk s) { s with power := { s.power with opCmds := [] } }
  else s

/-- VOUT_COMMAND to both compute rail regulators, which POS addresses (R470). -/
def vouts (mv : Nat) (s : State) : State := send (.vout (0x41 + 2 * s.pins.posId) mv) (send (.vout (0x40 + 2 * s.pins.posId) mv) s)

/-- The PM core sends `mv` to both regulators. A regulator that does not acknowledge keeps its level and sets VR_NAK (R470, R473). -/
def railsSet (mv : Nat) (ack : Bool) (s : State) : State :=
  let s := vouts mv s
  let s := { s with power := { s.power with vrAck := ack } }
  if ack then { s with power := { s.power with vcd0 := mv, vcd1 := mv } } else sticky none .pwrErr 0 0 4 s

/-- CCLK takes the new frequency: the change and the safe point are over (R472, R489). -/
def frequencyTaken (mhz : Nat) (s : State) : State :=
  let s := (setMhz mhz { s with power := { s.power with change := none } }).setField .pwrSts 0 0 12 12 0
  pointReached (if s.power.point = 2 then { s with power := { s.power with point := s.power.wantPoint } } else s)

/-- A frequency change takes effect (R470, R472, R473): the PM core asks for `mhz` at `mv` on both compute rails, and `ack` says whether
both regulators acknowledge. The hardware ceilings refuse a request above them. A raise needs the voltage first. (DEDUCED, log entry 26.) -/
def execFrequencySwitch (mhz mv : Nat) (ack : Bool) (s : State) : Res :=
  run true s (onlyIf (pmRuns s) fun s =>
    if 1650 < mhz ∨ 800 < mv then s.orReg .pwrErr 0 0 8
    else match s.power.change with
      | none => s
      | some want =>
        let ok := mhz == want || (s.power.wantPoint == 1 && atPoint 1 mhz && atPoint 1 want)
        if clamped s || !ok || decide (mv < vcdMin mhz) then s
        else
          let s := railsSet mv ack s
          if !ack && decide (cclkMhz s < mhz) then s else frequencyTaken mhz s)

/-! ### Loops and limits (R473) -/

/-- The power that the limit is held to: the mean of the last ten samples (R473). -/
def pmMean (watts : Nat) (s : State) : Nat :=
  let l := (watts :: s.power.samples).take 10
  l.sum / l.length

/-- The PM core records a sample: PWR.POWER, PWR.TEMP, THROTTLE with its hysteresis, and whether power has been above the limit and not yet
below 95 % of it (R473). (DEDUCED, log entry 27.) -/
def pmRecord (watts : Nat) (cd0 cd1 idc : Int) (s : State) : State :=
  let avg := pmMean watts s
  let lim := s.reg .pwrLimit
  let hottest := max cd0 (max cd1 idc)
  let hot := decide (100 ≤ hottest)
  let s := { s with power := { s.power with
    samples := (watts :: s.power.samples).take 10, sampleDue := s.tb.ticks + 100 * usTicks, hotAt := if hot then s.tb.ticks else s.power.hotAt
    powLow := decide (lim < avg) || (s.power.powLow && decide (lim * 95 < avg * 100)) } }
  let s := (s.setReg .pwrPower 0 0 (min avg 2047)).setReg .pwrTemp 0 0 (wrapInt 8 cd0 + wrapInt 8 cd1 * 256 + wrapInt 8 idc * 65536)
  if hot then s.setField .pwrSts 0 0 13 13 1 else if hottest < 98 then s.setField .pwrSts 0 0 13 13 0 else s

/-- What the loops ask for next: a step down while `down`, a step up towards the point once neither holds back (R473). -/
def pmAct (down : Bool) (s : State) : State :=
  let mhz := cclkMhz s
  if clamped s || safeHeld s then s
  else if down then
    if 750 < mhz then { s with power := { s.power with change := some (max 750 (mhz - 25)) } } else s
  else if throttled s || s.power.powLow then s
  else if mhz < pointMhz s.power.wantPoint then { s with power := { s.power with change := some (mhz + 25) } }
  else s

/-- The PM core samples sensors and power every 100 µs and runs its loops: power and the hottest sensor of CD0, CD1 and the ID. (DEDUCED, log entry 27; DESIGN CHOICE, log entry 98.) -/
def execPmSample (watts : Nat) (cd0 cd1 idc : Int) (s : State) : Res :=
  run true s (onlyIf (pmRuns s && decide (s.power.sampleDue ≤ s.tb.ticks)) fun s =>
    pmAct (decide (100 ≤ max cd0 (max cd1 idc)) || decide (s.reg .pwrLimit < pmMean watts s)) (pmRecord watts cd0 cd1 idc s))

/-- The body of a LIMIT record (R492). -/
def limitRec (cause : Nat) (s : State) : State := raise 0 none (regAddr .pwrErr 0 0 0) 0x8005 (leBytes 1 cause) s

/-- A timing lapse reaches every tenant (R251). -/
def lapseAll (m : Nat) (s : State) : State := (List.range 16).foldl (fun s t => s.orReg .detSts 0 t m) s

/-- The clamp takes the lowest point, and a safe point that held waits for its release (R473, R489). -/
def clampPoint (s : State) : State :=
  let s := (setMhz 750 (s.orReg .pwrSts 0 0 0x800)).orReg .pwrErr 0 0 1
  let s := { s with power := { s.power with point := 3, change := none, safePending := s.power.safePending || safeHeld s, hotAt := s.tb.ticks } }
  s.setField .pwrSts 0 0 12 12 0

/-- A sensor reaches 105 °C: the lowest point, CLAMP, the lapse of every tenant, TEL.TV[7] and a LIMIT record (R251, R252, R473). -/
def execThermalClamp (deg : Int) (s : State) : Res :=
  run true s (onlyIf (decide (105 ≤ deg) && !clamped s) fun s =>
    limitRec 0 ((lapseAll 1 (clampPoint s)).countTv 7 1))

/-- The safe point by hardware (R244, R471). (DEDUCED, log entry 27.) -/
def goSafe (s : State) : State :=
  let s := setMhz 1000 (s.orReg .pwrSts 0 0 0x1000)
  { s with power := { s.power with point := 2, change := none, safePending := false } }

/-- Every sensor has been below 100 °C for `cool` ticks, 10 ms or more, which began after the last reading that the part met at or above
it: the clamp releases, and what waited for it applies (R473, R489). -/
def execClampRelease (cool : Nat) (s : State) : Res :=
  run true s (onlyIf (decide (10 * msTicks ≤ cool) && decide (s.power.hotAt + cool ≤ s.tb.ticks) && clamped s) fun s =>
    let s := s.setField .pwrSts 0 0 11 11 0
    if s.power.safePending then
      let s := goSafe s
      if pmRuns s then wantPoint s else s
    else { s with power := { s.power with point := s.power.wantPoint } })

/-- A sensor reaches 115 °C: THERMTRIP_N asserts and every PLL stops (R473, R474). -/
def execThermalTrip (deg : Int) (s : State) : Res :=
  run true s (onlyIf (decide (115 ≤ deg)) fun s =>
    { s with power := { s.power with running := false, tripped := true }, pins := { s.pins with thermTrip := true } })

/-- PWR_GOOD falls: every clock stops and every output takes its reset state (R469). -/
def execPowerGoodFall (s : State) : Res :=
  .next { s with power := { s.power with running := false }, pins := { s.pins with pwrGood := false } }

/-! ### LIMITS_READ (R475) -/

/-- The envelope record. -/
def limitsRecord (s : State) : Bytes :=
  let sts := s.reg .pwrSts
  let err := s.reg .pwrErr
  let boost := s.power.vrAck && !clamped s && !safeHeld s
  fit 64 (leBytes 2 1 ++ leBytes 2 1800 ++ leBytes 2 (s.reg .pwrLimit) ++ leBytes 2 750 ++ leBytes 2 1500 ++ leBytes 2 1650 ++ leBytes 2 1000
    ++ leBytes 2 25 ++ leBytes 2 600 ++ leBytes 2 700 ++ leBytes 2 800 ++ leBytes 2 s.power.vcd0 ++ leBytes 2 s.power.vcd1
    ++ leBytes 1 100 ++ leBytes 1 98 ++ leBytes 1 105 ++ leBytes 1 100 ++ leBytes 1 115 ++ leBytes 1 (wrapInt 8 (-30))
    ++ leBytes 2 (bits sts 10 0) ++ leBytes 1 s.power.point
    ++ leBytes 1 ((if boost then 1 else 0) + bits sts 11 11 * 2 + bits sts 12 12 * 4 + bits err 2 2 * 8))

/-- LIMITS_READ writes the envelope record to host memory. -/
def execLimitsRead (id : Nat) (s : State) : Res :=
  run true s (startOp .limitsRead id fun c s =>
    match hostWrite s c.fn (c.p 0) (limitsRecord s) with
    | (s, .ok _) => finish0 id stOk s
    | (s, .error e) => failHost id e s)

/-! ### The clock lock (R28, R181, R477) -/

/-- A lock group spans both dies. -/
def crossGroup (s : State) : Bool := s.groups.any fun (_, g) => g.st != .free && crossDie g.members

/-- CLOCK_LOCK: at once where nothing changes; a second one waits for the sequence under way. -/
def execClockLock (id : Nat) (s : State) : Res :=
  run true s (startOp .clockLock id fun c s =>
    let lock := c.p 0 == 1
    if s.power.locking.isSome then s
    else if clocksLocked s = lock then finish0 id stOk s
    else if !lock && crossGroup s then conflict id 0x10 0 1 0 s
    else working id { (s.orReg .clkSts 0 0 2) with power := { s.power with locking := some (id, lock) } })

/-- The sequence ends, once no frequency change is due (R489): every running group has been held for it, and LOCKED shows the new state. (DEDUCED, log entry 28.) -/
def execClockLockDone (s : State) : Res :=
  run true s fun s =>
    match s.power.locking with
    | none => s
    | some (id, lock) =>
      if s.power.change.isSome && !clamped s then s
      else
        let s := { (s.setField .clkSts 0 0 1 1 0) with power := { s.power with locking := none } }
        if !lock && crossGroup s then conflict id 0x10 0 1 0 s
        else
          let s := s.groups.foldl (fun s (_, g) => if g.st = .running then groupLapse g s else s) s
          finish0 id stOk (s.setField .clkSts 0 0 0 0 (if lock then 1 else 0))

/-! ### The deep state (R488) -/

def dCode (d : DState) : Nat := match d with | .on => 0 | .entering => 1 | .deep => 2 | .exiting => 3

/-- The deep state is legal. -/
def deepLegal (s : State) : Bool :=
  s.power.dstate == .on
    && (List.range 32).all (fun n => (s.lode n).idle || lodeCode s n == 0)
    && s.groups.all (fun (_, g) => g.st == .free)
    && s.ckpt.slots.all (fun (_, k) => k.st != 1 && k.st != 3 && k.st != 4)
    && s.net.streams.all (fun (_, x) => !x.isOpen)
    && !bit (s.reg .ftCtrl) 0

/-- DEEP: ENTER 1 starts the entry; ENTER 0 starts the exit and replies at its end, at once while ON. (DEDUCED, log entry 29.) -/
def execDeep (id : Nat) (s : State) : Res :=
  run true s (startOp .deep id fun c s =>
    if c.p 0 = 1 then
      if deepLegal s then
        let s := working id { s with power := { s.power with dstate := .entering, deepCmd := some id } }
        (List.range 32).foldl (fun s n => s.setLode n { s.lode n with idle := true, wake := none }) s
      else conflict id 0x18 0 (dCode s.power.dstate) 0 s
    else if s.power.dstate = .on then finish0 id stOk s
    else
      let s := wakeDeep (working id s)
      { s with power := { s.power with exitCmds := s.power.exitCmds ++ [id] } })

/-- Every memory is in self-refresh: DEEP, and the reply to ENTER. -/
def execDeepEntryDone (s : State) : Res :=
  run true s (onlyIf (s.power.dstate == .entering) fun s =>
    let c := s.power.deepCmd
    let s := { s with power := { s.power with dstate := .deep, deepCmd := none } }
    let s := (List.range 12).foldl (fun s c => s.setMemc c { s.memc c with slot := [], long := [] }) s
    match c with
    | some id => finish0 id stOk s
    | none => s)

/-- The first slots after self-refresh recalibrate every channel of a controller that has not been yet (R305). -/
def recalRest (c : Nat) (s : State) : State :=
  let x := s.memc c
  let todo := (List.range (if c < 8 then 32 else 1)).filter fun ch => !x.long.contains ch
  if 8 ≤ c ∧ bit (s.reg .memSts c) 5 = false then s
  else
    let s := s.setMemc c { x with long := [], recal := todo.foldl (fun t ch => tput 0 t ch (s.tb.ticks + s.reg .memRecal c * msTicks)) x.recal }
    (s.count .memRecalCount c 0 todo.length).countTv (if c < 8 then 1 else 2) todo.length

/-- Every channel is recalibrated and every lode clocked: ON, and what waited proceeds. (DESIGN CHOICE, log entry 108.) -/
def execDeepExitDone (s : State) : Res :=
  run true s (onlyIf (s.power.dstate == .exiting) fun s =>
    let ids := s.power.exitCmds
    let s := { s with power := { s.power with dstate := .on, exitCmds := [] } }
    let s := (List.range 12).foldl (fun s c => recalRest c s) s
    let s := (List.range 32).foldl (fun s n => s.setLode n { s.lode n with idle := false, wake := none }) s
    let s := s.cmd.cmds.foldl (fun s c => if c.phase = .working ∧ cmdOp c = some .lodePower then finish0 c.id stOk s else s) s
    ids.foldl (fun s id => finish0 id stOk s) s)

end Sys2Proof.Machine
end

