-- ==== Sys2Proof/Machine/Telemetry.lean ====
section
/-! DEFINITION. The telemetry paths: host log rings, sideband, export, error log, pins, counters and trace (R494 to R511). -/
namespace Sys2Proof.Machine

open Sys2Proof

/-! ### Pins (R505, R506) -/

/-- Some record of a class is queued on the sideband. -/
def sidebandHas (s : State) (c : Nat) : Bool := (s.path 18).queue.any fun (r, _) => r.cls == c

/-- ERR.ALERT.SRC. -/
def alertSrc (s : State) : Nat :=
  let b (c : Bool) (i : Nat) : Nat := if c then 2 ^ i else 0
  b (bit (s.reg .glbSecSts) 7) 0 + b (clamped s) 1 + b (sidebandHas s 0 || (s.path 18).alarms != []) 2 + b (sidebandHas s 1) 3
    + b (bit (s.reg .errFirstCtl) 0) 4 + b (sidebandHas s 2) 5

/-- ERR.FAULT.SRC. -/
def faultSrc (s : State) : Nat :=
  let b (c : Bool) (i : Nat) : Nat := if c then 2 ^ i else 0
  let f := bits (s.reg .glbBootSts) 11 4
  b ((s.fwp 34).st == .halted) 0 + b (f == 1 || f == 2 || f == 4 || f == 7) 1 + b (bit (s.reg .pwrErr) 2) 2
    + b ((List.range 32).any fun n => (s.fwp n).st == .lost) 3

/-- ALERT_N and FAULT_N are asserted. -/
def alertPin (s : State) : Bool := (alertSrc s &&& (7 ||| bits (s.reg .errAlert) 13 8)) != 0
def faultPin (s : State) : Bool := faultSrc s != 0

/-! ### Host log rings (R498) -/

def State.logRing (s : State) (i : Nat) : LogRing := tget {} s.tel.rings i
def State.setLogRing (s : State) (i : Nat) (r : LogRing) : State := { s with tel := { s.tel with rings := tput {} s.tel.rings i r } }

/-- LOG_RING sets or replaces the caller's ring. -/
def execLogRing (id : Nat) (s : State) : Res :=
  run true s (startOp .logRing id fun c s =>
    finish0 id stOk (s.setLogRing c.fn { on := true, base := c.p 2, log2 := c.p 0, vector := c.p 1 }))

/-- The path writes its oldest record at the ring's tail and signals the vector. -/
def execLogRingWrite (i : Nat) (s : State) : Res :=
  run (i < 18) s fun s =>
    let g := s.logRing i
    match (s.path i).queue with
    | [] => s
    | (r, _) :: rest =>
      if !g.on || !fnBme s i || decide (2 ^ g.log2 ≤ g.used) then s
      else
        let s := (hostWrite s i (g.base + 64 * g.tail) (recBytes g.phase r)).1
        let wrap := g.tail + 1 = 2 ^ g.log2
        let s := s.setLogRing i { g with tail := if wrap then 0 else g.tail + 1, used := g.used + 1, phase := if wrap then !g.phase else g.phase }
        signalVector i g.vector (flushPath i (s.setPath i { s.path i with queue := rest }))

/-- A write of TEL.LOG[i].HEAD frees entries; past the tail it is ignored and sets HEAD_BAD (R498, R510). (DEDUCED, log entry 86.) -/
def execLogHeadWrite (who i : Nat) (val : Word) (s : State) : Res :=
  run (who < 19 && i < 18) s (onlyIf (who == i || decide (16 ≤ who)) fun s =>
    let g := s.logRing i
    let h := val.toNat % 65536
    let n := (h + 2 ^ g.log2 - g.head) % 2 ^ g.log2
    if 2 ^ g.log2 ≤ h ∨ g.used < n then s.orReg .errPathSts 0 i 0x2000
    else s.setLogRing i { g with head := h, used := g.used - n })

/-! ### The sideband (R499) -/

/-- The board management controller reads the target port: the status word, the first capture, or the oldest record, which is removed. -/
def execSidebandRecordRead (off : Nat) (s : State) : Res :=
  run true s fun s =>
    match off with
    | 0 =>
      let n := (s.path 18).queue.length
      let b (c : Bool) (i : Nat) : Nat := if c then 2 ^ i else 0
      send (.sideband (leBytes 4 (n + b (sidebandHas s 0) 8 + b (alertPin s) 9 + b (faultPin s) 10))) s
    | 4 => send (.sideband (if bit (s.reg .errFirstCtl) 0 then leBytes 64 (s.reg .errFirst) else zeros 64)) s
    | 0x44 =>
      match (s.path 18).queue with
      | [] => send (.sideband (zeros 64)) s
      | (r, _) :: rest => flushPath 18 (send (.sideband (recBytes false r)) (s.setPath 18 { s.path 18 with queue := rest }))
    | _ => s

/-! ### The export (R500) -/

/-- The payload of an export packet: its header and the records (R500). -/
def exportPayload (s : State) (rs : List (Rec × Nat)) : Bytes :=
  leBytes 4 0x7E1E0E10 ++ leBytes 4 (s.reg .seamFdid) ++ leBytes 4 s.tel.exportNo ++ leBytes 1 rs.length ++ zeros 3
    ++ rs.flatMap fun (r, _) => recBytes false r

/-- The export path sends a packet: 22 records queued, or 10 µs after the oldest entered, within PPS packets per millisecond. (DEDUCED, log entry 30.) -/
def execExportPacketSend (s : State) : Res :=
  run true s fun s =>
    let w := s.reg .exportCtl
    let q := (s.path 19).queue
    let ms := s.tb.ticks / msTicks
    let cnt := if s.tel.exportMs = ms then s.tel.exportCnt else 0
    let due := match q with
      | [] => false
      | (_, t) :: _ => decide (22 ≤ q.length) || decide (t + 10 * usTicks ≤ s.tb.ticks)
    if !bit w 0 || !macUp s (bits w 5 1) || !due || decide (bits w 28 13 ≤ cnt) then s
    else
      let pay := exportPayload s (q.take 22)
      let dip := s.reg .exportDip
      let s := { s with tel := { s.tel with exportNo := (s.tel.exportNo + 1) % 2 ^ 32, exportMs := ms, exportCnt := cnt + 1 } }
      let s := send (.exported (bits w 5 1) (bits w 8 6) (s.reg .exportDmac) (s.reg .exportSmac) (ftAddr s (myFdid s))
        (if ftV6 s then beBytes 16 dip else beBytes 4 dip) (s.reg .exportPort) pay) s
      flushPath 19 (s.setPath 19 { s.path 19 with queue := q.drop 22 })

/-! ### Commands (R495, R501, R507, R509) -/

/-- The counters of a set, as a function reads it. -/
def counterSet (s : State) (fn set : Nat) : List Nat :=
  let det (t : Nat) : List Nat := [s.reg .detVar 0 t, s.reg .detRefusals 0 t]
  if set = 0 then (List.range 8).map fun k => s.reg .telTv 0 k
  else if set = 1 then det fn
  else if set = 2 then (List.range 21).flatMap fun p => [s.reg .errPathDrop 0 p, s.reg .errPathMerged 0 p, s.reg .errPathAlarm 0 p]
  else if set = 3 then (List.range 6).flatMap fun b => [s.reg .errBridgeCe 0 b, s.reg .errBridgeUe 0 b]
  else det (set - 16)

/-- COUNTERS_READ writes a header and the set's counters. -/
def execCountersRead (id : Nat) (s : State) : Res :=
  run true s (startOp .countersRead id fun c s =>
    let cs := counterSet s c.fn (c.p 0)
    match hostWrite s c.fn (c.p 1) (leBytes 2 (c.p 0) ++ leBytes 2 cs.length ++ zeros 4 ++ cs.flatMap (leBytes 8)) with
    | (s, .ok _) => finish0 id stOk s
    | (s, .error e) => failHost id e s)

/-- The first capture as a function reads it: the device's for functions 16 and 17, its own for a tenant. It reads zeros while nothing is held. -/
def firstCapture (s : State) (fn : Nat) : Bytes :=
  if 16 ≤ fn then (if bit (s.reg .errFirstCtl) 0 then leBytes 64 (s.reg .errFirst) else zeros 64)
  else if bit (s.reg .errTenCtl 0 fn) 0 then leBytes 64 (s.reg .errTenFirst 0 fn) else zeros 64

/-- The error-log records a function may read: all for functions 16 and 17, its own for a tenant. -/
def errorLogOf (s : State) (fn : Nat) : List Rec :=
  ((s.path 20).queue.map (·.1)).filter fun r => decide (16 ≤ fn) || r.tenant == some fn

/-- ERRORS_READ writes the caller's capture and then error-log records, oldest first. -/
def execErrorsRead (id : Nat) (s : State) : Res :=
  run true s (startOp .errorsRead id fun c s =>
    let n := c.p 0
    if n = 0 then finish0 id stOk s
    else
      let rs := (errorLogOf s c.fn).take (n - 1)
      match hostWrite s c.fn (c.p 1) (firstCapture s c.fn ++ rs.flatMap (recBytes false)) with
      | (s, .ok _) => finish id stOk (1 + rs.length) ((rs.filter (·.kind == 0x800B)).map (·.count)).sum 0 0 s
      | (s, .error e) => failHost id e s)

/-- ERRORS_CLEAR re-arms the first capture and empties the error log. -/
def execErrorsClear (id : Nat) (s : State) : Res :=
  run true s (startOp .errorsClear id fun _ s =>
    let s := s.setReg .errFirstCtl 0 0 0
    finish0 id stOk (flushPath 20 (s.setPath 20 { s.path 20 with queue := [] })))

/-- TRACE_SET: the configuration takes the place of the tenant's old one. (DESIGN CHOICE, log entry 93.) -/
def execTraceSet (id : Nat) (s : State) : Res :=
  run true s (startOp .traceSet id fun c s =>
    match readMem s (c.p 0) 64 with
    | (s, .error a) => failAddr id (.ue a) s
    | (s, .ok b) =>
      let t : Trace := { points := fld b 0 4, lodes := fld b 4 4, divide := fld b 8 2, dest := fld b 10 1 }
      finish0 id stOk { s with tel := { s.tel with traces := tput {} s.tel.traces c.fn t } })

end Sys2Proof.Machine
end

