-- ==== Sys2Proof/Machine/Memory.lean ====
section
/-! DEFINITION. Memory controllers, interleave modes, block owners, the region table, COPY and FILL, and the entropy source that draws
region keys (R294 to R317, R395, R448). -/
namespace Sys2Proof.Machine

open Sys2Proof

/-! ### Controllers (R298 to R310) -/

/-- The controller serves memory: HBM always, a module only while it is in use. -/
def ctlOn (s : State) (c : Nat) : Bool := s.power.dstate == .on && (decide (c < 8) || bit (s.reg .memSts c) 5)

/-- Upsets of a line's codewords: the first and the second read's wrong symbols (R306, R307). -/
def upsetLine (line : Nat) (l : List Upset) (s : State) : State :=
  l.foldl (fun s u =>
    let cw := 2 * line + if u.half then 1 else 0
    { s with bad := tput 0 s.bad cw u.wrong, again := tput 0 s.again cw (match u.again with | some k => k + 1 | none => 0) }) s

/-- A controller serves a 64-byte line: a read delivers it, a write stores bytes within it. Accesses are served one after the other, so a
read after a write of the line returns what was written (R298). (DESIGN CHOICE, log entry 83; DESIGN CHOICE, log entry 110.) -/
def execMemoryAccess (addr : LineAccess) (data : Bytes) (s : State) : Res :=
  run true s fun s =>
    let ups := addr.upsets
    let addr := addr.addr
    match (place s addr).1 with
    | .hbm | .lpx =>
      let s := upsetLine (addr / 64) ups s
      if 64 < addr % 64 + data.length then s
      else if memWaits s addr 1 then wakeAt addr s
      else if data = [] then
        match readMem s (addr / 64 * 64) 64 with
        | (s, .ok b) => { s with resp := some (leNat b) }
        | (s, .error _) => { s with resp := none }
      else (writeMem s addr data).1
    | _ => s

/-- The channels of a controller that are in a refresh slot. -/
def inSlots (s : State) (c : Nat) : Nat := ((s.memc c).slot.filter fun e => decide (s.tb.ticks < e.2)).length

/-- A slot may begin: the channel's own is due, and of a stack fewer than 4 of the 32 pseudo-channels are in one, 8 while it is hot (R302). -/
def slotOpens (s : State) (c ch : Nat) : Bool :=
  ctlOn s c && (decide (c < 8) || ch == 0) && decide (tget 0 (s.memc c).due ch ≤ s.tb.ticks)
    && (decide (8 ≤ c) || decide (inSlots s c < if bit (s.reg .memSts c) 2 then 8 else 4))

/-- A channel's refresh slot begins, every 3.9 µs, or 1.95 µs while the stack is hot, for 350 ns, or 280 ns in a module; counted (R302,
R304). -/
def execRefreshSlot (c ch : Nat) (s : State) : Res :=
  run (c < 12 && ch < 32) s (onlyIf (slotOpens s c ch) fun s =>
    let x := s.memc c
    let s := s.setMemc c { x with
      due := tput 0 x.due ch (s.tb.ticks + if bit (s.reg .memSts c) 2 then 1950 else 3900)
      slot := tput 0 (x.slot.filter fun e => decide (s.tb.ticks < e.2)) ch (s.tb.ticks + if c < 8 then 350 else 280)
      long := x.long.filter (· != ch) }
    (s.count .memRefresh c 0 1).countTv (if c < 8 then 0 else 2) 1)

/-- A failed lane is remapped to the stack's spare lane; with none left its pseudo-channel goes on with it (R305). -/
def laneFails (c ch : Nat) (s : State) : State :=
  let x := s.memc c
  if 0 < x.spares then (s.setMemc c { x with spares := x.spares - 1 }).orReg .memErr c 0 0x20
  else (s.setMemc c { x with dead := ch :: x.dead.filter (· != ch) }).orReg .memSts c 0 8

/-- A channel may be retrained: inside its slot, once, at its interval or because its margin is `low`; or as the part leaves the deep
state (R303, R305). -/
def recalOpens (s : State) (c ch : Nat) (low : Bool) : Bool :=
  (decide (c < 8) || (ch == 0 && bit (s.reg .memSts c) 5)) && !(s.memc c).long.contains ch
    && (s.power.dstate == .exiting || (s.power.dstate == .on && decide (s.tb.ticks < tget 0 (s.memc c).slot ch)
      && (low || decide (tget 0 (s.memc c).recal ch ≤ s.tb.ticks))))

/-- A channel is retrained inside its slot, which grows by up to 1.2 µs: counted, a failed lane remapped to the spare, a failed training
reported (R303 to R305, R316). (DESIGN CHOICE, log entry 108.) -/
def execRecalibration (c ch : Nat) (low failedLane trained : Bool) (s : State) : Res :=
  run (c < 12 && ch < 32) s (onlyIf (recalOpens s c ch low) fun s =>
    let (k, s) := draw s
    let x := s.memc c
    let s := s.setMemc c { x with
      recal := tput 0 x.recal ch (s.tb.ticks + s.reg .memRecal c * msTicks)
      slot := tput 0 x.slot ch (max s.tb.ticks (tget 0 x.slot ch) + Config.free k % 1201)
      long := ch :: x.long }
    let s := (s.count .memRecalCount c 0 1).countTv (if c < 8 then 1 else 2) 1
    let s := if failedLane && decide (c < 8) then laneFails c ch s else s
    if trained then s else stickyRec 0 none 0 .memErr c 0 0x40 s)

/-- The device address of codeword `i` of a controller's memory, the inverse of R296 and R300. (DESIGN CHOICE, log entry 93.) -/
def scrubAddr (s : State) (c i : Nat) : Nat :=
  if c < 8 then
    let sg := i / 2 ^ 25
    let u := i / 8 % 2 ^ 22
    let lo := i % 8 * 32
    sg * 2 ^ 33 + lo + match s.reg .segMode 0 sg % 4 with
      | 1 => c / 4 * 2 ^ 32 + (u * 4 + ((c % 4) ^^^ bits u 7 6)) * 256
      | 2 => c * 2 ^ 30 + u * 256
      | _ => (u * 8 + (c ^^^ bits u 7 5)) * 256
  else
    let ms := modules s
    lpxBase + (i / 8 * ms.length + ((ms.zipIdx.find? fun (m, _) => m == c - 8).map (·.2)).getD 0) * 256 + i % 8 * 32

/-- Codewords of a controller's memory: 64 GiB of a stack, 56 GiB of a module. (DESIGN CHOICE, log entry 93.) -/
def scrubLen (c : Nat) : Nat := if c < 8 then 2 ^ 31 else 56 * 2 ^ 25

/-- Ticks between two codewords of a pass of PASS_H hours (R310). (DESIGN CHOICE, log entry 93.) -/
def scrubStep (s : State) (c : Nat) : Nat := bits (s.reg .memScrub c) 8 1 * 3600 * 1000 * msTicks / scrubLen c

/-- The controller's scrubber reads its next codeword once that is due and no slot is under way: a correction is written back, an
uncorrectable one is captured (R310). -/
def execMemoryScrubRead (c : Nat) (s : State) : Res :=
  run (c < 12) s (onlyIf (ctlOn s c && bit (s.reg .memScrub c) 0 && decide ((s.memc c).scrubAt ≤ s.tb.ticks)) fun s =>
    let x := s.memc c
    let a := scrubAddr s c x.scrub
    if slotWaits s a 1 then s
    else
      let s := s.setMemc c { x with scrub := (x.scrub + 1) % scrubLen c, scrubAt := x.scrubAt + scrubStep s c }
      (cwReadAs 8 s (a / 32)).1)

/-- A stack's temperature readout crosses 85 °C: the refresh interval is halved or restored (R302). -/
def execStackTemperatureReport (h : Nat) (hot : Bool) (s : State) : Res :=
  run (h < 8) s fun s => s.setField .memSts h 0 2 2 (if hot then 1 else 0)

/-- A write of INJECT: world S only; ARM is set by a 1 and cleared by the write it acts on (R317). -/
def execInjectArm (who c : Nat) (val : Word) (s : State) : Res :=
  run (who < 19 && c < 12) s (onlyIf (who == 18) fun s =>
    s.setReg .memInject c 0 ((s.reg .memInject c % 2 ||| val.toNat % 2) + bits val.toNat 7 1 * 2))

/-! ### Interleave modes (R297) -/

/-- Every block of the segment belongs to world S, and none is on its way out of it. -/
def segInS (s : State) (g : Nat) : Bool :=
  (s.own.blocks.all fun (b, o) => b / 4096 != g || o == 0) && s.own.fills.all fun (b, o) => b / 4096 != g || o == 1

/-- A write of HBM.SEG_MODE[s]: world S, with every block of the segment in world S; a change of mode zero-fills the segment first. -/
def execSegModeWrite (who sg : Nat) (val : Word) (s : State) : Res :=
  run (who < 19 && sg < 64) s fun s =>
    let m := val.toNat % 4
    if who ≠ 18 ∨ segInS s sg = false then s.orReg .hbmGerr 0 0 1
    else if m = 3 then s
    else
      let now := match tget 0 s.own.segFill sg with | 0 => s.reg .segMode 0 sg % 4 | k + 1 => k
      if m = now then s else { s with own := { s.own with segFill := tput 0 s.own.segFill sg (m + 1) } }

/-- The fill ends: the segment reads zero with valid check bits and the new mode takes effect. -/
def execSegmentFillDone (sg : Nat) (s : State) : Res :=
  run (sg < 64) s fun s =>
    match tget 0 s.own.segFill sg with
    | 0 => s
    | m + 1 =>
      let s := zeroMem s (sg * 2 ^ 33) (2 ^ 33)
      { s.setReg .segMode 0 sg m with own := { s.own with segFill := tput 0 s.own.segFill sg 0 } }

/-- A reassigned block has been zero-filled and its new owner takes effect (R311). -/
def execBlockZeroFillDone (blk : Nat) (s : State) : Res :=
  run true s fun s =>
    match tget 0 s.own.fills blk with
    | 0 => s
    | o + 1 =>
      let s := zeroMem s (blk * 2 ^ 21) (2 ^ 21)
      { s with own := { s.own with fills := tput 0 s.own.fills blk 0, blocks := tput 0 s.own.blocks blk o } }

/-! ### The region table (R312 to R315, R395) -/

/-- The first parameter of REGION_CREATE that is illegal (R313): BASE 0, BYTES 1, RIGHTS 2, ILV 3. -/
def regionBad (s : State) (base bytes rights ilv : Nat) : Option Nat :=
  let kind := (place s base).1
  let segs := (List.range ((base + bytes - 1) / 2 ^ 33 - base / 2 ^ 33 + 1)).map (· + base / 2 ^ 33)
  if base % 4096 ≠ 0 then some 0
  else if !(match kind with | .hbm | .lpx | .strata _ => true | _ => false) then some 0
  else if bytes % 4096 ≠ 0 ∨ bytes = 0 ∨ 2 ^ 40 < bytes ∨ (place s base).2 < base + bytes then some 1
  else if rights % 256 ≥ 128 then some 2
  else if (match kind with | .hbm => segs.any fun g => s.reg .segMode 0 g % 4 != ilv | _ => ilv != 0) then some 3
  else none

/-- Every block of the range, or the lode, belongs to the tenant. -/
def rangeOwned (s : State) (t base bytes : Nat) : Bool :=
  match (place s base).1 with
  | .strata n => lodeOwner s n == t + 1 && tget 0 s.own.zeroing n == 0
  | _ => (List.range ((base + bytes - 1) / 2 ^ 21 - base / 2 ^ 21 + 1)).all fun i =>
      tget 0 s.own.blocks (base / 2 ^ 21 + i) == t + 1 && tget 0 s.own.fills (base / 2 ^ 21 + i) == 0

/-- A word of the owner table under the range cannot be read (R317). -/
def ownerUe (s : State) (base bytes : Nat) : Bool :=
  match (place s base).1 with
  | .strata _ => false
  | _ => (List.range ((base + bytes - 1) / 2 ^ 21 - base / 2 ^ 21 + 1)).any fun i => tableWordUe s (8192 + base / 2 ^ 21 + i)

/-- The lowest ABSENT entry. (DESIGN CHOICE, log entry 88.) -/
def freeEntry (s : State) : Option Nat := (List.range 8192).find? fun e => (s.region e).st == 0

/-- Enter a region: a key with a fresh random part; the generation counts the entry's uses. -/
def enterRegion (c : Cmd) (e : Nat) (s : State) : State :=
  let (n, s) := draw s
  let g := s.region e
  let key := e + Config.random n % 2 ^ 19 * 2 ^ 13
  let s := { s with own := { s.own with tableBad := tdel s.own.tableBad e } }
  let s := s.setRegion e { base := c.p 0, bytes := c.p 1, key := key, gen := g.gen, rights := c.p 2, ilv := c.p 3, st := 1, tenant := c.fn, world := true }
  finish c.id stOk key g.gen 0 0 s

/-- REGION_CREATE: the conditions of R313 as they stand at its start; it waits for the entropy source where that delivers nothing
(R448). (DESIGN CHOICE, log entry 88.) -/
def createRegion (c : Cmd) (s : State) : State :=
  match regionBad s (c.p 0) (c.p 1) (c.p 2) (c.p 3) with
  | some k => failAt c stInvalid .regionCreate k s
  | none =>
    if ownerUe s (c.p 0) (c.p 1) then finish c.id stUncorr (c.p 0 % 2 ^ 32) (c.p 0 / 2 ^ 32) 0 0 (tableErr s)
    else if !rangeOwned s c.fn (c.p 0) (c.p 1) then failAt c stDenied .regionCreate 0 (addrDenied (fnReq c.fn) s)
    else match regionTouch s (c.p 0) (c.p 1) with
      | some (e, g) => conflict c.id 0x07 e g.st 0 s
      | none => match freeEntry s with
        | none => finish0 c.id stNoResource s
        | some e =>
          if s.sec.rngFail then
            working c.id { s with sec := { s.sec with rngWait := s.sec.rngWait ++ [(c.id, s.tb.ticks + 10 * msTicks)] } }
          else enterRegion c e s

def execRegionCreate (id : Nat) (s : State) : Res := run true s (startOp .regionCreate id createRegion)

/-- The entry that a key names. -/
def keyEntry (key : Nat) : Nat := key % 8192

/-- REGION_REVOKE: the entry becomes DRAINING; the reply follows the drain (R314, R395). -/
def execRegionRevoke (id : Nat) (s : State) : Res :=
  run true s (startOp .regionRevoke id fun c s =>
    let e := keyEntry (c.p 0)
    let g := s.region e
    if g.st ≠ 1 ∨ g.key ≠ c.p 0 ∨ g.tenant ≠ c.fn then conflict id 0x07 e (if g.key = c.p 0 ∧ g.tenant = c.fn then g.st else 0) 0 s
    else working id (s.setRegion e { g with st := 2, cmd := some id }))

/-- A write of an entry's SHARE word from world S (R313, R317). -/
def execRegionShareWrite (who e : Nat) (val : Word) (s : State) : Res :=
  run (who < 19 && e < 8192) s (onlyIf (who == 18) fun s =>
    let g := s.region e
    if g.st = 0 then s else s.setRegion e { g with share := bits val.toNat 31 16 })

/-! ### The entropy source (R448) -/

/-- A health test fails: nothing is delivered until start-up tests pass. -/
def execRngHealthFail (s : State) : Res :=
  run true s fun s => sticky none .glbSecSts 0 0 0x2000
    { s with sec := { s.sec with rngFail := true, rngSince := if s.sec.rngFail then s.sec.rngSince else s.tb.ticks } }

/-- The start-up tests pass: the requesters that wait proceed. -/
def execEntropyStartUpTestsPass (s : State) : Res :=
  run true s (onlyIf s.sec.rngFail fun s =>
    let ws := s.sec.rngWait
    let s := { s with sec := { s.sec with rngFail := false, rngWait := [] } }
    ws.foldl (fun s (id, _) => match findCmd s id with
      | some c => createRegion c s
      | none => s) s)

/-- A REGION_CREATE has waited more than 10 ms. -/
def execEntropyWaitTimeout (id : Nat) (s : State) : Res :=
  run true s fun s =>
    match s.sec.rngWait.find? fun e => e.1 == id with
    | some (_, due) =>
      if due < s.tb.ticks then finish0 id stNoResource { s with sec := { s.sec with rngWait := s.sec.rngWait.filter fun e => e.1 != id } } else s
    | none => s

/-! ### COPY and FILL (R211) -/

/-- Bytes of a range that can be read before the first failure, and that failure. -/
def readPart (s : State) (fn a n : Nat) : State × Bytes × Option RdErr :=
  match readAddr s fn a n with
  | (s, .ok b) => (s, b, none)
  | (s, .error (.ue e)) => (s, memBytes s a (e - a), some (.ue e))
  | (s, .error .wait) => (s, [], some .wait)
  | (s, .error .host) =>
    if fnBme s fn then
      let k := ((hostCells s (fnPort s fn) (a % 2 ^ 50) n).takeWhile (· != .bad)).length
      (s, hostBytes s (fnPort s fn) (a % 2 ^ 50) k, some .host)
    else (s, [], some .host)

/-- Write bytes to device or host memory, and end the command: the status and the bytes written before a stop. (DESIGN CHOICE, log entry 87.) -/
def copyOut (c : Cmd) (dst : Nat) (bs : Bytes) (stop : Option RdErr) (s : State) : State :=
  let done (n st : Nat) (s : State) : State := finish c.id st (n % 2 ^ 32) (n / 2 ^ 32) 0 0 s
  let ending (n : Nat) (s : State) : State := match stop with
    | none => done n stOk s
    | some (.ue _) => done n stUncorr s
    | some .host => done n stHostOff s
    | some .wait => s
  if isHost dst then
    match hostWrite s c.fn (dst % 2 ^ 50) bs with
    | (s, .ok _) => ending bs.length s
    | (s, .error _) => done 0 stHostOff s
  else match devWrite dst bs s with
    | (s, none) => ending bs.length s
    | (s, some (.ue e)) => done (e - dst) stUncorr s
    | (s, some .running) =>
      let ks := (List.range ((dst + bs.length - 1 - imemBase) / 0x10000 - (dst - imemBase) / 0x10000 + 1)).map (· + (dst - imemBase) / 0x10000)
      let k := ((ks.find? fun k => !imemOpen s k)).getD 0
      conflict c.id 0x04 k (coreCode s k) 0 s

/-- Memory that a range needs cannot be reached yet (R168, R297, R311, R487). -/
def rangeWaits (s : State) (a n : Nat) : Bool :=
  !isHost a && memWaits s a n

/-- The lodes of a range are woken. -/
def wakeRange (s : State) (a n : Nat) : State :=
  if isHost a then s else wakeSpan a n s

/-- COPY: bytes of SRC to DST. Where the two overlap, the bytes whose source the copy itself writes are open: free values. (DESIGN CHOICE, log entry 87.) -/
def execCopy (id : Nat) (s : State) : Res :=
  run true s (startOp .copy id fun c s =>
    let (src, dst, n) := (c.p 0, c.p 1, c.p 2)
    if rangeWaits s src n || rangeWaits s dst n then wakeRange (wakeRange s src n) dst n
    else
      let (ok1, s) := mayReach c.fn src n false 0x200 s
      if !ok1 then failAt c (refusedSt s (tenReq c.fn 0x200) src n) .copy 0 s
      else
        let (ok2, s) := mayReach c.fn dst n true 0x200 s
        if !ok2 then failAt c (refusedSt s (tenReq c.fn 0x200) dst n) .copy 1 s
        else
          let (s, bs, stop) := readPart s c.fn src n
          if stop = some .wait then s else
          let (k, s) := draw s
          let bs := if overlaps src n dst n && src != dst then
              bs.zipIdx.map fun (b, i) => if dst ≤ src + i ∧ src + i < dst + n then BitVec.ofNat 8 (Config.free k / 256 ^ i) else b
            else bs
          copyOut c dst bs stop s)

/-- FILL: the 32-bit pattern over DST. -/
def execFill (id : Nat) (s : State) : Res :=
  run true s (startOp .fill id fun c s =>
    let (dst, n) := (c.p 0, c.p 1)
    if rangeWaits s dst n then wakeRange s dst n
    else
      let (ok, s) := mayReach c.fn dst n true 0x200 s
      if !ok then failAt c (refusedSt s (tenReq c.fn 0x200) dst n) .fill 0 s
      else copyOut c dst ((List.range n).map fun i => (leBytes 4 (c.p 2)).getD (i % 4) 0) none s)

end Sys2Proof.Machine
end

