-- ==== Sys2Proof/Machine/Security.lean ====
section
/-! DEFINITION. The security core: tokens, assignments, keys, the cipher engine, measurements, boot images, attestation, alarms and JTAG
(R439 to R467, R520). -/
namespace Sys2Proof.Machine

open Sys2Proof

/-! ### The security core at work (R444, R453, R464) -/

/-- An alarm has halted the security core. -/
def secHalted (s : State) : Bool := (s.fwp 34).st == .halted

/-- A command that needs the security core ends with ACCESS_DENIED once an alarm has halted it (R244, R464). -/
def needSec (c : Cmd) (f : State → State) (s : State) : State := if secHalted s then finish0 c.id stDenied s else f s

def measOf (s : State) (i : Nat) : Bytes := fit 64 (tget [] s.sec.meas i)

/-- Extend a measurement register with a digest (R453). (DESIGN CHOICE, log entry 90.) -/
def extend (i : Nat) (d : Bytes) (s : State) : State :=
  { s with sec := { s.sec with meas := tput [] s.sec.meas i (sha3 (measOf s i ++ d)) } }

/-- DEVICE_ID as 16 bytes. -/
def deviceIdBytes : Bytes := leBytes 16 Config.deviceId.toNat

/-! ### Tokens (R443, R444) -/

/-- The permission bit of an owner key for a command's OP (R450). -/
def tokenPerm (op : Nat) : Nat := if op = 1 then 0 else if op = 3 then 1 else 2

/-- The parameter area of a command with its TOKEN field, parameter k, taken as zero. -/
def paramArea (c : Cmd) (o : Op) (k : Nat) : Bytes := (splice c.bytes (paramOff o k) (zeros 8)).drop 16

/-- ARG of a token is legal: for ASSIGN of memory blocks FIRST and COUNT, otherwise zero. -/
def argOk (b : Bytes) (blocks : Bool) : Bool :=
  if blocks then decide (1 ≤ fld b 108 4) && decide (fld b 108 4 ≤ 262144) && allZero (slice b 112 56) else allZero (slice b 104 64)

/-- A token proves the authority for a command. -/
def tokenOk (s : State) (c : Cmd) (o : Op) (k : Nat) (blocks : Bool) (b : Bytes) : Bool :=
  let op := c.u 1 1
  fld b 0 4 == 0x70C35EC0 && fld b 4 1 == 1 && fld b 5 1 == 0x0A && fld b 6 1 == op && fld b 7 1 == 0
    && slice b 8 16 == deviceIdBytes && fld b 24 8 == s.reg .glbBootNonce && decide (s.reg .glbTokenSeq < fld b 32 8)
    && slice b 40 64 == sha3 (paramArea c o k) && argOk b blocks && fld b 172 4 == 0 && fld b 176 2 == 4627 && fld b 178 6 == 0
    && match s.sec.image with
      | some m => m.keys.any fun (i, perm, pub) => i == fld b 168 4 && bit perm (tokenPerm op) && Config.dsaOk pub (b.take 184) (slice b 184 4627)
      | none => false

/-- Read and test the command's token, parameter k; a good one is spent before the command acts. (DEDUCED, log entry 89.) -/
def withToken (c : Cmd) (o : Op) (k : Nat) (blocks : Bool) (f : Bytes → State → State) (s : State) : State :=
  match hostRead s c.fn (c.p k) 4811 with
  | (s, .error e) => failHost c.id e s
  | (s, .ok b) =>
    if tokenOk s c o k blocks b then f b (s.setReg .glbTokenSeq 0 0 (fld b 32 8))
    else finish0 c.id stAuth (s.count .glbTokenFail 0 0 1)

/-! ### Assignment (R38, R311, R315, R437, R441, R442) -/

/-- Why an assignment does not take place: STATE_CONFLICT with type, index and code; or a block outside memory. -/
inductive AssignNo where
  | conflict (ty idx code : Nat) | denied
  deriving DecidableEq, Repr

/-- The blocks of an assignment of kind 3. -/
def runBlocks (a : Assignment) : List Nat := (List.range a.count).map (· + a.first)

/-- A tenant's object of a device block that is ACTIVE or OPEN (R441): type, index and code. -/
def devObject (s : State) (b : Nat) : Option (Nat × Nat × Nat) :=
  if b = 0x0C then
    ((s.net.streams.find? fun (_, x) => x.isOpen).map fun (i, _) => (0x0A, i, 1))
      <|> ((s.ft.rings.find? fun (_, r) => r.isSome).map fun (i, _) => (0x12, i, 1))
      <|> ((s.ft.rqs.find? fun (_, r) => r.isSome).map fun (i, _) => (0x13, i, 1))
  else if b = 0x0E then
    (s.sto.queues.find? fun (_, q) => q.active).map fun (i, _) => (0x0C, i, 1)
  else if b = 0x09 then
    (s.own.regions.find? fun (_, g) => g.st == 1 && g.world && (place s g.base).1 == .lpx).map fun (e, g) => (0x07, e, g.st)
  else none

/-- Work queues of a tenant's IBCs hold entries of it. -/
def ibcBusy (s : State) (i : Nat) : Bool := (s.core (256 + i)).st != .halted

/-- The conditions of R441. -/
def assignNo (s : State) (a : Assignment) : Option AssignNo :=
  match a.kind with
  | 1 =>
    match groupOf s a.index with
    | some (g, x) => some (.conflict 0x06 g (grpCode x))
    | none => if lodeCode s a.index = 0 ∧ s.chains.all (fun c => (if c.moves then c.unit else c.unit / 2) != a.index) then none
              else some (.conflict 0x03 a.index (lodeCode s a.index))
  | 2 => if ibcBusy s a.index then some (.conflict 0x04 (256 + a.index) (coreCode s (256 + a.index))) else none
  | 3 =>
    let lo := a.first * 2 ^ 21
    let n := a.count * 2 ^ 21
    if !(match (place s lo).1 with | .hbm | .lpx => decide (lo + n ≤ (place s lo).2) | _ => false) then some .denied
    else (regionTouch s lo n).map fun (e, g) => .conflict 0x07 e g.st
  | 4 => if bit (s.reg .cmdSession a.tenant) 0 then some (.conflict 0x01 a.tenant 1) else none
  | _ => (devObject s a.index).map fun (ty, i, st) => .conflict ty i st

/-- The owner code an assignment gives. -/
def assignOwner (a : Assignment) : Nat := if a.world = 0 then 0 else a.tenant + 1

/-- An assignment takes place. -/
def assign (a : Assignment) (s : State) : State :=
  let o := assignOwner a
  match a.kind with
  | 1 =>
    startZeroing a.index o (settleAll (zeroCounters (fun p => p / 512 == a.index) s))
  | 2 =>
    let k := 256 + a.index
    let s := zeroMem (settleAll (zeroCounters (fun p => p / 64 == k) (unlist k none s))) (imemBase + k * 0x10000) 0x10000
    { s with own := { s.own with ibcs := tput 0 s.own.ibcs a.index o } }
  | 3 => (runBlocks a).foldl (fun s b =>
      if tget 0 s.own.blocks b = o ∧ tget 0 s.own.fills b = 0 then s
      else { s with own := { s.own with fills := tput 0 s.own.fills b (o + 1) } }) s
  | 4 => s.setField .hifTenPort 0 0 a.tenant a.tenant a.index
  | _ => { s with own := { s.own with devs := tput 0 s.own.devs a.index a.world } }

/-- What measurement M6 takes for an ASSIGN (R441, R453). (DESIGN CHOICE, log entry 90.) -/
def assignDigest (a : Assignment) (arg : Bytes) : Bytes :=
  sha3 (leBytes 1 a.kind ++ leBytes 1 a.world ++ leBytes 2 a.index ++ leBytes 1 a.tenant ++ arg)

/-- ASSIGN. -/
def execAssign (id : Nat) (s : State) : Res :=
  run true s (startOp .assign id fun c => needSec c fun s =>
    withToken c .assign 4 (c.p 0 == 3) (fun b s =>
      let a : Assignment := ⟨c.p 0, c.p 1, c.p 2, c.p 3, fld b 104 4, fld b 108 4⟩
      match assignNo s a with
      | some (.conflict ty i code) => conflict c.id ty i code 0 s
      | some .denied => finish0 c.id stDenied s
      | none => finish0 c.id stOk (extend 6 (assignDigest a (slice b 104 64)) (assign a s))) s)

/-! ### The cipher engine (R458 to R462) -/

/-- The key mode of a CRYPT mode. -/
def cryptMode (m : Nat) : Nat := if m < 2 then 1 else 2

/-- A cipher operation ends: its signal, then its reply (R207). -/
def cipherEnd (o : CipherOp) (st w0 w1 w2 : Nat) (s : State) : State :=
  let s := { s with sec := { s.sec with ctxs := s.sec.ctxs.filter fun x => x.id != o.id } }
  let s := match o.sig with
    | some (x, v) => sendSig 0x214 o.tenant x v none s
    | none => s
  finish o.id st w0 w1 w2 0 s

/-- The turn of a CRYPT among the commands that wait for a context: round robin over the tenants after the one that got the last, and of
one tenant's the one taken first (R458). -/
def ctxTurn (s : State) (c : Cmd) : Bool :=
  let far (d : Cmd) : Nat := (d.fn + 16 - (s.sec.ctxLast + 1) % 16) % 16
  s.sec.ctxWait.all fun k => match findCmd s k with
    | some d => k == c.id || !(cmdOp d == some .crypt && d.phase == .ready) || decide (far c < far d) || (far c == far d && decide (c.id < d.id))
    | none => true

/-- CRYPT: the operation enters a context with a copy of its key; with 16 in use it waits (R458, R459). -/
def execCrypt (id : Nat) (s : State) : Res :=
  run true s (startOp .crypt id fun c => needSec c fun s =>
    let (mode, slot, src, dst, n, at_) := (c.p 0, c.p 1, c.p 2, c.p 3, c.p 4, c.p 5)
    if 16 ≤ s.sec.ctxs.length ∨ !ctxTurn s c then
      { s with sec := { s.sec with ctxWait := if s.sec.ctxWait.contains id then s.sec.ctxWait else s.sec.ctxWait ++ [id] } }
    else if rangeWaits s src n || rangeWaits s dst n then wakeRange (wakeRange s src n) dst n
    else match slotNo s c.fn slot (cryptMode mode) with
      | some w1 => finish id stDenied (paramOff .crypt 1) w1 0 0 s
      | none =>
        let (ok1, s) := if n = 0 then (true, s) else mayReach c.fn src n false 0x214 s
        let (ok2, s) := if n = 0 then (true, s) else mayReach c.fn dst n true 0x214 s
        let (ok3, s) := mayReach c.fn at_ 64 false 0x214 s
        if !ok1 then failAt c (refusedSt s (tenReq c.fn 0x214) src n) .crypt 2 s
        else if !ok2 then failAt c (refusedSt s (tenReq c.fn 0x214) dst n) .crypt 3 s
        else if !ok3 then failAt c (refusedSt s (tenReq c.fn 0x214) at_ 64) .crypt 5 s
        else
          let op : CipherOp := ⟨id, c.fn, mode, slot, src, dst, n, [], at_, (tget {} s.keys slot).key, syncOf s c (c.p 6)⟩
          match readMem s at_ 64 with
          | (s, .error e) => cipherEnd op stUncorr (e % 2 ^ 32) (e / 2 ^ 32) 0 s
          | (s, .ok d) =>
            working id { s with sec := { s.sec with
              ctxs := s.sec.ctxs ++ [{ op with desc := d }], ctxLast := c.fn, ctxWait := s.sec.ctxWait.filter fun k => k != id } })

/-- An operation stops: what it wrote so far, an open number of bytes, is zeroed, and W2 counts it (R461, R462). Output that stays in the
context counts none. (DEDUCED, log entry 91.) -/
def cipherStop (o : CipherOp) (st w0 w1 : Nat) (s : State) : State :=
  let (k, s) := draw s
  let n := if o.mode = 1 ∧ o.bytes ≤ 65536 then 0 else Config.free k % (o.bytes + 1)
  let s := if n = 0 then s else (writeMem s o.dst (zeros n)).1
  cipherEnd o st w0 w1 n s

/-- Data of a GCM operation's AAD and text, or the codeword that could not be read. -/
def cipherRead (o : CipherOp) (s : State) : State × Except Nat (Bytes × Bytes) :=
  let readZ (s : State) (a n : Nat) : State × Except Nat Bytes := if n = 0 then (s, .ok []) else readMem s a n
  match readZ s (fld o.desc 16 8) (if o.mode < 2 then fld o.desc 24 8 else 0) with
  | (s, .error e) => (s, .error e)
  | (s, .ok aad) => match readZ s o.src o.bytes with
    | (s, .error e) => (s, .error e)
    | (s, .ok t) => (s, .ok (aad, t))

/-- XTS over data units of `u` bytes from data-unit number `dun` (R460). -/
def xtsRun (enc : Bool) (key : Bytes) (u : Nat) : Nat → Nat → Bytes → Bytes
  | 0, _, _ => []
  | f + 1, dun, b =>
    if b = [] then [] else
      let x := b.take u
      xtsUnit enc key dun x ++ xtsRun enc key u f ((dun + 1) % 2 ^ 128) (b.drop u)

/-- A cipher operation ends by itself: output written, with the tag of an encryption; a decryption whose tag fails leaves none of its
output (R459 to R462). (DEDUCED, log entry 91.) -/
def execCipherOpComplete (i : Nat) (s : State) : Res :=
  run true s fun s =>
    match s.sec.ctxs[i]? with
    | none => s
    | some o =>
      match cipherRead o s with
      | (s, .error e) => cipherStop o stUncorr (e % 2 ^ 32) (e / 2 ^ 32) s
      | (s, .ok (aad, t)) =>
        let iv := slice o.desc 0 12
        let out := if o.mode ≤ 1 then gcmCrypt o.key iv t
          else xtsRun (o.mode == 2) o.key (fld o.desc 16 4) (o.bytes + 1) (fld o.desc 0 16) t
        if o.mode = 1 ∧ gcmTag o.key iv aad t ≠ slice o.desc 32 16 then
          if o.bytes ≤ 65536 then cipherEnd o stAuth 0 0 0 s
          else cipherEnd o stAuth 0 0 o.bytes (writeMem s o.dst (zeros o.bytes)).1
        else match (if out = [] then (s, none) else writeMem s o.dst out) with
          | (s, some e) => cipherStop o stUncorr (e % 2 ^ 32) (e / 2 ^ 32) s
          | (s, none) =>
            let done := cipherEnd o stOk (o.bytes % 2 ^ 32) (o.bytes / 2 ^ 32) 0
            if o.mode = 0 then
              match writeMem s (o.descAt + 32) (gcmTag o.key iv aad out) with
              | (s, none) => done s
              | (s, some e) => cipherStop o stUncorr (e % 2 ^ 32) (e / 2 ^ 32) s
            else done s

/-! ### Key slots (R455 to R457) -/

/-- Empty slots: every context holding their keys is cleared, and saves and restores that use them stop (R280, R457, R462). -/
def eraseSlots (p : Nat → Bool) (s : State) : State :=
  let s := { s with keys := tdrop s.keys p }
  let s := s.sec.ctxs.foldl (fun s o => if p o.slot then cipherStop o stDenied 0 0 s else s) s
  let s := s.ckpt.saves.foldl (fun s x => if p (fld x.list 0 2) then saveStop x stDenied 0 0 s else s) s
  s.ckpt.rests.foldl (fun s x => if x.phase = 2 ∧ p (fld x.man 32 2) then restEnd x stDenied 0 0 0 s else s) s

/-- The slot that a wrapped key gives, or none where a field, the tag or the key is not right (R456). -/
def unwrapKey (s : State) (slot : Nat) (b : Bytes) : Option KeySlot :=
  let mode := fld b 5 1
  let kek := tget {} s.keys (fld b 6 2)
  let kekSlot := decide (1016 ≤ slot)
  let fields := fld b 0 4 == 0x4B3E0B10 && fld b 4 1 == 1 && decide (1 ≤ mode) && decide (mode ≤ 3) && (mode == 3) == kekSlot
    && decide (1016 ≤ fld b 6 2) && decide (fld b 6 2 ≤ 1023) && kek.mode == 3 && fld b 8 2 == slot && (mode != 3 || fld b 10 2 == 0)
    && decide (fld b 12 1 < 2) && allZero (slice b 13 3) && allZero (slice b 108 20)
  let iv := slice b 16 12
  let aad := b.take 16 ++ deviceIdBytes
  let key := gcmCrypt kek.key iv (slice b 28 64)
  let good := gcmTag kek.key iv aad (slice b 28 64) == slice b 92 16
    && (if mode == 2 then slice key 0 32 != slice key 32 32 else allZero (slice key 32 32))
  if fields && good then
    some { mode := mode, grant := fld b 10 2, forS := fld b 12 1 == 1, key := if mode = 2 then key else slice key 0 32 }
  else none

/-- KEY_LOAD: a wrapped key into an EMPTY slot. (DEDUCED, log entry 89.) -/
def execKeyLoad (id : Nat) (s : State) : Res :=
  run true s (startOp .keyLoad id fun c => needSec c fun s =>
    if (tget {} s.keys (c.p 0)).mode ≠ 0 then conflict id 0x11 (c.p 0) 1 0 s
    else match hostRead s c.fn (c.p 1) 128 with
      | (s, .error e) => failHost id e s
      | (s, .ok b) => match unwrapKey s (c.p 0) b with
        | some k => finish0 id stOk { s with keys := tput {} s.keys (c.p 0) k }
        | none => finish0 id stAuth (s.count .glbTokenFail 0 0 1))

/-- KEY_ERASE: the slot becomes EMPTY, whatever its state. -/
def execKeyErase (id : Nat) (s : State) : Res :=
  run true s (startOp .keyErase id fun c => needSec c fun s =>
    withToken c .keyErase 1 false (fun _ s => finish0 c.id stOk (eraseSlots (· == c.p 0) s)) s)

/-! ### Boot images (R449 to R452) -/

def flashCounter (s : State) (i : Nat) : Nat := (tget none s.sec.counters i).getD (Config.flashCounter i % 2 ^ 32)
def setFlashCounter (i v : Nat) (s : State) : State := { s with sec := { s.sec with counters := tput none s.sec.counters i (some v) } }
def slotImage (s : State) (k : Nat) : Bytes := (tget none s.sec.images k).getD (Config.flashImage k)
def ownerDigest (s : State) : Option Bytes := s.sec.owner0 <|> Config.flashOwner

/-- An image verifies by R451, against the current counters; where the record holds no owner digest yet, the image's own binds (R450). -/
def imageOk (s : State) (m : BootImage) : Bool :=
  decide (flashCounter s 2 ≤ m.irornIdx) && m.irornOk && m.signed && decide (flashCounter s 0 ≤ m.secVer) && m.ownerOk
    && (match ownerDigest s with | some d => sha3 m.ownerKey == d | none => true)
    && decide (flashCounter s 1 ≤ m.ownerVer) && m.digestsOk

/-- The slot that the running image was not booted from. (DEDUCED, log entry 91.) -/
def inactiveSlot (s : State) : Nat := 1 - bits (s.reg .glbSecSts) 5 5

/-- The leading bytes of a host range that completions have delivered. -/
def hostArrived (s : State) (fn a n : Nat) : Bytes :=
  hostBytes s (fnPort s fn) a ((hostCells s (fnPort s fn) a n).takeWhile (· != .unknown)).length

/-- FW_UPDATE: the image goes to the inactive slot as it is read, which marks the slot unusable from its first byte on, and is verified
there (R452). (DEDUCED, log entry 91.) -/
def execFwUpdate (id : Nat) (s : State) : Res :=
  run true s (startOp .fwUpdate id fun c => needSec c fun s =>
    let k := inactiveSlot s
    let (s, b, stop) := readPart s c.fn (hostBase + c.p 0) (c.p 1)
    let b := if stop = some .wait then hostArrived s c.fn (c.p 0) (c.p 1) else b
    let s := if b = [] then s
      else { s with sec := { s.sec with images := tput none s.sec.images k (some b), unusable := s.sec.unusable ||| 2 ^ k } }
    match stop with
    | some .wait => s
    | some e => failAddr id e s
    | none =>
      let m := Config.bootImage b
      if imageOk s m then
        let s := { s with sec := { s.sec with unusable := s.sec.unusable &&& (3 - 2 ^ k), active := if c.p 2 = 1 then some k else s.sec.active } }
        finish id stOk m.version 0 0 0 s
      else finish0 id stAuth s)

/-- A management session opens on a booted image: its security versions are raised into the counters (R452). -/
def raiseCounters (s : State) : State :=
  match s.sec.image with
  | some m =>
    if s.sec.toRaise then
      let s := setFlashCounter 0 (max (flashCounter s 0) m.secVer) (setFlashCounter 1 (max (flashCounter s 1) m.ownerVer) s)
      { s with sec := { s.sec with toRaise := false } }
    else s
  | none => s

/-! ### Attestation (R454) -/

/-- The lodes in world N, as a mask. -/
def lodesN (s : State) : Nat := ((List.range 32).map fun n => if lodeOwner s n ≠ 0 then 2 ^ n else 0).sum

/-- GLB.PART_ID (R3): part 0x6400, generation 1, the screen per part, stepping 0xA1. -/
def partId : Nat := 0xA1016400 + if Config.extendedScreen then 2 ^ 20 else 0

/-- The report before its signature. -/
def attestBody (s : State) (nonce : Bytes) : Bytes :=
  let w := s.reg .glbSecSts
  fit 3256 (leBytes 4 0x1A77E500 ++ leBytes 2 1 ++ zeros 2 ++ leBytes 4 partId ++ leBytes 4 (s.reg .seamFdid % 2 ^ 20) ++ deviceIdBytes
    ++ fit 64 nonce ++ leBytes 8 (s.reg .glbBootNonce) ++ leBytes 8 s.now ++ (List.range 4).flatMap (fun i => leBytes 4 (flashCounter s i))
    ++ (List.range 8).flatMap (measOf s)
    ++ leBytes 4 (bits w 3 3 + bits w 4 4 * 2 + bits w 6 6 * 4 + bits w 1 1 * 8) ++ leBytes 4 (lodesN s)
    ++ leBytes 4 s.keys.length ++ zeros 4 ++ fit 2592 Config.identityKey ++ leBytes 2 4627)

/-- ATTEST: a signed report over the nonce; it waits for the entropy source that signing draws on (R448, R454). -/
def execAttest (id : Nat) (s : State) : Res :=
  run true s (startOp .attest id fun c => needSec c fun s =>
    if s.sec.rngFail then s
    else match hostRead s c.fn (c.p 0) 64 with
      | (s, .error e) => failHost id e s
      | (s, .ok nonce) =>
        let b := attestBody s nonce
        match hostWrite s c.fn (c.p 1) (b ++ fit 4627 (Config.dsaSign b)) with
        | (s, .ok _) => finish0 id stOk s
        | (s, .error e) => failHost id e s)

/-! ### Debug (R465, R520) -/

/-- DEBUG_UNLOCK: every slot is erased, M7 extended, and JTAG opens for the epoch; again it has no further effect. (DEDUCED, log entry 89.) -/
def execDebugUnlock (id : Nat) (s : State) : Res :=
  run true s (startOp .debugUnlock id fun c => needSec c fun s =>
    withToken c .debugUnlock 0 false (fun b s =>
      if bit (s.reg .glbSecSts) 6 then finish0 c.id stOk s
      else finish0 c.id stOk ((extend 7 (sha3 b) (eraseSlots (fun _ => true) s)).orReg .glbSecSts 0 0 0x40)) s)

/-- A JTAG instruction: IDCODE answers the identity; while the port is closed every other one acts as BYPASS. What the open port's other
instructions do is the debug unit's (log entry 54). -/
def execJtagTapAccess (idcode : Bool) (s : State) : Res :=
  run true s fun s =>
    { s with pins := { s.pins with
        tapBypass := !idcode && !bit (s.reg .glbSecSts) 6
        tapOut := if idcode then 0x16400A6B else s.pins.tapOut } }

/-! ### Alarms (R463, R464) -/

/-- An alarm with its causes: keys and contexts erased, the security core and the secure world halted, the ALARM recorded. (DEDUCED, log entry 86.) -/
def alarm (cause : Nat) (s : State) : State :=
  let s := eraseSlots (fun _ => true) s
  let s := holdsChanged (s.setFw 34 { s.fwp 34 with st := .halted })
  let first := !bit (s.reg .glbSecSts) 7
  let s := s.orReg .glbSecSts 0 0 (0x80 + cause % 32 * 256)
  if first then raise 0 none (regAddr .glbSecSts 0 0 0) 0x8006 (zeros 2 ++ leBytes 4 (bits (s.reg .glbSecSts) 12 8)) s else s

/-- An alarm sensor trips: rail, clock, low temperature, tamper or security core crash, as a mask. It acts with the clocks stopped too
(R463). (DEDUCED, log entry 81.) -/
def execSecurityAlarm (cause : Nat) (s : State) : Res :=
  if cause < 32 then .next (onlyIf (cause != 0) (alarm cause) s) else .refused .noSuchInstance

end Sys2Proof.Machine
end

