-- ==== Sys2Proof/Machine/Firmware.lean ====
section
/-! DEFINITION. Firmware processors: crashes, watchdogs, restarts and what running work meets (R242 to R244). -/
namespace Sys2Proof.Machine

open Sys2Proof

/-- Count a restart in a field of GLB.FW_RESTARTS, saturating at 0xFF. (DEDUCED, log entry 92.) -/
def countRestart (p : Nat) (s : State) : State :=
  let o := if p < 32 then 16 else if p = 32 then 0 else 8
  s.setField .glbFwRestarts 0 0 (o + 7) o (min 0xFF (bits (s.reg .glbFwRestarts) (o + 7) o + 1))

/-- A firmware processor crashes (R243, R244): cause captured and recorded; a control core's lode is held, the PM core's loss moves every
die to the safe point, the security core's is an alarm. A crash during the restart begins it again. -/
def crash (p cause : Nat) (s : State) : State :=
  let x := s.fwp p
  if x.st = .halted then s
  else
    let s := if bit (s.reg .glbFwCause) 31 then s else s.setReg .glbFwCause 0 0 (p + cause * 64 + 2 ^ 31)
    let s := raise (if p = 34 then 0 else 1) none (regAddr .glbFwCause 0 0 0) 0x8004 (leBytes 1 p ++ leBytes 1 cause) s
    if p = 34 then alarm 16 s
    else
      let s := countRestart p (s.setFw p (if x.st = .running then { x with st := .restarting, first := s.tb.ticks } else x))
      if p < 32 then holdsChanged s
      else if p = 33 then
        let s := limitRec 1 (lapseAll 2 (s.orReg .pwrErr 0 0 2))
        if clamped s then { s with power := { s.power with safePending := true, change := none } } else goSafe s
      else s

/-- The fixed period of a processor's watchdog in ticks: 10 ms for a control core, 20 ms for the scheduler core, 2 ms for the PM core,
50 ms for the security core (R242). -/
def wdPeriod (p : Nat) : Nat := (if p < 32 then 10 else if p = 32 then 20 else if p = 33 then 2 else 50) * msTicks

/-- The watchdog of `p` has counted its period since its processor last restarted the count, which was not before it started. -/
def wdExpired (s : State) (p : Watchdog) : Bool :=
  decide ((s.fwp p.proc).wd ≤ p.kicked) && decide (p.kicked + wdPeriod p.proc ≤ s.tb.ticks)

/-- A processor's watchdog expires: that counts as a crash. (DESIGN CHOICE, log entry 102.) -/
def execWatchdogExpiry (p : Watchdog) (s : State) : Res := run (p.proc < 35) s (onlyIf (wdExpired s p) (crash p.proc 0))

/-- A processor fetches an illegal instruction (1), leaves its map (2) or reads an uncorrectable word (3). -/
def execFwCrash (p cause : Nat) (s : State) : Res := run (p < 35) s (onlyIf (decide (1 ≤ cause) && decide (cause ≤ 3)) (crash p cause))

/-- The security core refills the firmware image store from the boot flash and verifies it again (R243); no image where it is halted or
the image does not verify. -/
def refillStore (s : State) : Option State :=
  let b := slotImage s (bits (s.reg .glbSecSts) 5 5)
  if !secHalted s && imageOk s (Config.bootImage b) then some { s with sec := { s.sec with store := b } } else none

/-- A processor loads its image from the store and runs: a control core's hold is withdrawn, the PM core asks for the operating point
again. -/
def fwRestart (p : Nat) (s : State) : State :=
  let s := s.setFw p { wd := s.tb.ticks, sram := Config.fwPart s.sec.store p }
  if p < 32 then holdsChanged s else if p = 33 then wantPoint s else s

/-- A processor ends its restart; one whose image the store no longer holds waits for the refill, and goes on restarting where that gives
no image. (DESIGN CHOICE, log entry 102.) -/
def execFwRestartDone (p : FwBack) (s : State) : Res :=
  run (p.proc < 35) s fun s =>
    let x := s.fwp p.proc
    if x.st = .restarting ∨ x.st = .lost then
      if p.bad then (match refillStore s with | some s => fwRestart p.proc s | none => s) else fwRestart p.proc s
    else s

/-- The index of a chain's first descriptor that has not been dispatched: those in queue and offers, and those not read yet, follow it. -/
def chainLost (s : State) (c : Chain) : Nat :=
  let waiting : Nat := if c.moves then
      let l := s.lode c.unit
      (l.queue.filter fun m => ofChain c.id m.chain).length + (l.offers.filter fun m => ofChain c.id m.chain).length
    else
      let e := s.engine c.unit
      (e.queue.filter fun m => ofChain c.id m.chain).length + (e.offers.filter fun m => ofChain c.id m.chain).length
  c.next - waiting

/-- The tenant work of a lode ends with FW_RESTART (R111, R152, R244): held cores fault with FW_LOST, queues are discarded, chains reply
once what they have in execution has completed. (DEDUCED, log entry 92.) -/
def loseLode (n : Nat) (s : State) : State :=
  let s := s.chains.foldl (fun s c =>
    if (if c.moves then c.unit else c.unit / 2) ≠ n then s
    else
      let k := chainLost s c
      if c.count ≤ k then s else settleChain c.id (dropQueued c (stopChain c.id stFwRestart k 0 s))) s
  let s := (List.range 2).foldl (fun s i => let e := s.engine (2 * n + i); s.setEngine (2 * n + i) { e with queue := [], offers := [] }) s
  let l := s.lode n
  let s := reoffer (s.setLode n { l with queue := [], offers := [] })
  (List.range 8).foldl (fun s i =>
    let k := 8 * n + i
    let c := s.core k
    if c.st = .held then
      let s := withdraw k none s
      let s := s.setCore k { s.core k with st := .faulted, exc := 0, fwLost := true, wait := none, paused := none, cmd := none, mop := .none, dmv := .none }
      match c.cmd with
      | some id => finish0 id stFwRestart (freeCores id s)
      | none => s
    else s) s

/-- 500 ms after its first crash a control core has not recovered: the work of its lode, or of every member of its group, is lost and the
group dissolved (R177, R244). (DEDUCED, log entry 92.) -/
def execControlCoreNotRecovered (n : Nat) (s : State) : Res :=
  run (n < 32) s fun s =>
    let x := s.fwp n
    if x.st ≠ .restarting ∨ s.tb.ticks < x.first + 500 * msTicks then s
    else
      let s := s.setFw n { x with st := .lost }
      match groupOf s n with
      | some (g, y) =>
        let s := match y.cmd with
          | some id => finish0 id stFwRestart (s.setGrp g { y with cmd := none })
          | none => s
        y.members.foldl (fun s m => loseLode m s) (freeGroup g s)
      | none => loseLode n s

end Sys2Proof.Machine
end

