-- ==== Sys2Proof/Machine/Ft.lean ====
section
/-! DEFINITION. The fabric transport's events: takes, packets sent and received, timers, and its Efesh operations (R371 to R397). -/
namespace Sys2Proof.Machine

open Sys2Proof

/-! ### Takes (R377 to R381, R386) -/

/-- The ring that the round robin serves next (R381). -/
def ftNext (s : State) : Option (Nat × FtRing) :=
  if !ftOn s || (s.ft.msgs.length == 65536) then none
  else ((List.range 256).map fun i => (s.ft.last + 1 + i) % 256).findSome? fun i => match s.ftRing i with
    | some r => if 0 < r.credit then some (i, r) else none
    | none => none

/-- AOPs that return the prior value, and those that are variance-counted (R386). -/
def aopFetch (a : Nat) : Bool := a == 2 || a == 5 || a == 6
def aopCounted (a : Nat) : Bool := a == 2 || a == 4 || a == 5 || a == 6
def aopSize (a : Nat) : Nat := if a = 4 then 4 else 8

/-- Zero fields of a work entry (R378). -/
def entryZeroOk (e : Bytes) : Bool :=
  let op := fld e 0 1
  let aop := fld e 3 1
  let keyed := op == 1 || op == 2 || op == 5
  let local_ := op == 1 || op == 2 || op == 4 || (op == 5 && aopFetch aop)
  bits (fld e 1 1) 7 1 == 0 && (op == 5 || aop == 0) && (keyed || (fld e 8 4 == 0 && fld e 12 1 == 0)) && allZero (slice e 13 3)
    && (local_ || fld e 16 8 == 0)
    && (if op = 5 then aop != 4 || fld e 40 4 == 0 else if op = 0x0A then fld e 36 8 / 2 ^ 24 == 0 else fld e 36 8 == 0)
    && ((op == 5 && aop == 5) || fld e 44 8 == 0) && allZero (slice e 56 8)

/-- Legal values of a work entry (R378). -/
def entryLegal (s : State) (e : Bytes) : Bool :=
  let op := fld e 0 1
  let aop := fld e 3 1
  let dst := fld e 4 4
  let n := fld e 32 4
  decide (fld e 2 1 ≤ 7) && (op != 5 || (decide (1 ≤ aop) && decide (aop ≤ 6))) && dst != myFdid s && decide (dst < 2 ^ (if ftV6 s then 20 else 17))
    && (op != 4 || decide (fld e 24 8 ≤ 15)) && (op != 0x0A || (decide (fld e 24 8 ≤ 17407) && decide (1 ≤ fld e 36 3)))
    && (if op = 5 then n == aopSize aop else if op = 0x0A then n == 4 else decide (1 ≤ n) && decide (n ≤ 2 ^ 30))

/-- Take an entry (R379): its checks in order, then a message, or a completion with the status of the check. (DEDUCED, log entry 31.) -/
def ftTakeEntry (i : Nat) (r : FtRing) (e : Bytes) (s : State) : State :=
  let t := i / 16
  let n := r.next
  let op := fld e 0 1
  let aop := fld e 3 1
  let len := fld e 32 4
  let sync := fld e 52 4
  let xl := translateFor s (t + 1) (fnBind s t) (bits sync 23 0)
  let sig := if sync = 0 then none else match xl with | .phys _ | .remote _ _ => some (xl, bits sync 31 24) | _ => none
  let fail (st : Nat) (s : State) : State := ftRingEnd i n st op 0 0 sig s
  if !(op == 1 || op == 2 || op == 4 || op == 5 || op == 0x0A) then fail stBadOpcode s
  else if !entryZeroOk e then fail stReserved s
  else if !entryLegal s e then fail stInvalid s
  else
    let ext := if op = 5 then (if aopFetch aop then 8 else 0) else if op = 0x0A then 0 else len
    let okMem := ext == 0 || permits s (tenReq t 0x202) (fld e 16 8) ext (op == 2 || op == 5)
    if !okMem then fail (refusedSt s (tenReq t 0x202) (fld e 16 8) ext) (refuse (tenReq t 0x202) (fld e 16 8) ext s)
    else if sync ≠ 0 ∧ xl = .none then fail stDenied (addrDenied (tenReq t 0x202) s)
    else if sync ≠ 0 ∧ xl = .ue then fail stUncorr (s.orReg .syncErr 0 0 16)
    else if op = 5 ∧ aopCounted aop ∧ strict s t then fail stDetRefused (varRefuse t s)
    else
      let s := if op = 5 ∧ aopCounted aop then varCount t none s else s
      ftStart {
        gen := 0, take := 0, from_ := .ring i n, tenant := t, op := op, ord := bit (fld e 1 1) 0, cls := fld e 2 1, aop := aop, dst := fld e 4 4
        key := fld e 8 4, kgen := fld e 12 1, laddr := fld e 16 8, raddr := fld e 24 8, len := len, operand := fld e 36 8, cmp := fld e 44 8
        sig := sig, mtu := ftMtu s, moved := s.tb.ticks } s

/-- The next entry of the ring whose turn it is, where its OP is this row's; an undefined OP is taken by any of the rows (log entry
31). -/
def ftTake (op : Nat) (s : State) : State :=
  match ftNext s with
  | none => s
  | some (i, r) =>
    let a := r.base + r.next % 2 ^ r.log2 * 64
    let code := (memByte s a).toNat
    if memWaits s a 64 then wakeSpan a 64 s
    else if code = op ∨ !(code == 1 || code == 2 || code == 4 || code == 5 || code == 0x0A) then
      let s := s.setFtRing i (some { r with next := (r.next + 1) % 2 ^ 32, credit := r.credit - 1 })
      let s := { s with ft := { s.ft with last := i } }
      if !permits s (tenReq (i / 16) 0x202) a 64 false then
        ftRingEnd i r.next (refusedSt s (tenReq (i / 16) 0x202) a 64) code 0 0 none (refuse (tenReq (i / 16) 0x202) a 64 s)
      else match readMem s a 64 with
      | (s, .ok e) => ftTakeEntry i r e s
      | (s, .error _) => ftRingEnd i r.next stUncorr code 0 0 none s
    else s

/-- WRITE (R379). -/
def execFtWrite (s : State) : Res := run true s (ftTake 1)
/-- READ (R385). -/
def execFtRead (s : State) : Res := run true s (ftTake 2)
/-- SEND (R387). -/
def execFtSend (s : State) : Res := run true s (ftTake 4)
/-- ATOMIC (R386). -/
def execFtAtomic (s : State) : Res := run true s (ftTake 5)
/-- SIGNAL (R388). -/
def execFtSignal (s : State) : Res := run true s (ftTake 0x0A)

/-! ### Sending (R380, R382, R385, R390, R394) -/

/-- An ordered message waits for every message taken earlier from its ring (R380). -/
def ordWaits (s : State) (m : FtMsg) : Bool :=
  m.ord && s.ft.msgs.any fun (_, x) => match x with
    | some x => decide (x.take < m.take) && (match x.from_, m.from_ with | .ring a _, .ring b _ => a == b | _, _ => false)
    | none => false

def FtMsg.pkt (m : FtMsg) (i : Nat) : Option FtPkt := tget none m.pk i

/-- The next packet to send: the lowest to be sent again, else the next within 128 of CUM (R389). -/
def nextPkt (m : FtMsg) : Option Nat :=
  match m.pk.find? fun (_, p) => match p with | some p => p.again | none => false with
  | some (i, _) => some i
  | none => if m.next < m.pkts ∧ m.next < m.cum + 128 then some m.next else none

/-- Payload and header fields of packet `i` of a message; a READ asks for the packets of `want`. -/
def pktOf (s : State) (idx : Nat) (m : FtMsg) (i : Nat) (want : List Nat) : State × Except Nat (FtHdr × Bytes) :=
  let h := msgHdr s idx m
  let sz := 2 ^ m.mtu
  let off := i * sz
  let n := min sz (m.len - off)
  let body (k : Bytes → FtHdr × Bytes) : State × Except Nat (FtHdr × Bytes) :=
    match m.data with
    | some d => (s, .ok (k (slice d off n)))
    | none => match readMem s (m.laddr + off) n with
      | (s, .ok b) => (s, .ok (k b))
      | (s, .error e) => (s, .error e)
  match m.op with
  | 1 => body fun b => ({ h with pidx := i, mlen := m.len, key := m.key, gen := m.kgen, raddr := m.raddr }, b)
  | 4 => body fun b => ({ h with pidx := i, mlen := m.len, raddr := m.raddr }, b)
  | 2 => (s, .ok ({ h with pidx := i, mlen := m.len, key := m.key, gen := m.kgen, raddr := m.raddr }, leBytes 16 ((want.map fun j => 2 ^ (j - i)).sum)))
  | 5 => (s, .ok ({ h with mlen := m.len, key := m.key, gen := m.kgen, raddr := m.raddr },
      leBytes 1 m.aop ++ zeros 7 ++ leBytes 8 m.operand ++ leBytes 8 m.cmp))
  | _ => (s, .ok ({ h with mlen := 4, raddr := m.raddr }, leBytes 4 m.operand))

/-- The source of packet `i` of a message cannot be read yet. -/
def srcWaits (s : State) (m : FtMsg) (i : Nat) : Bool :=
  (m.op == 1 || m.op == 4) && m.data.isNone && memWaits s (m.laddr + i * 2 ^ m.mtu) (min (2 ^ m.mtu) (m.len - i * 2 ^ m.mtu))

/-- The packets that one packet of a message asks for or brings: of a READ every one within 128 of CUM that is to be sent or sent again (R385). -/
def ftWant (x : FtMsg) (i : Nat) : List Nat :=
  if x.op = 2 then (List.range 128).map (· + i) |>.filter fun j =>
    decide (j < x.pkts) && decide (j < x.cum + 128) && (match x.pkt j with | some q => q.again | none => decide (x.next ≤ j)) else [i]

/-- The path of a packet: the next in rotation for one sent before, else the best (R382). (DEDUCED, log entry 39.) -/
def ftPathOf (s : State) (x : FtMsg) (i : Nat) : Option Nat :=
  match x.pkt i with
  | some p => nextPath s x.dst p.path
  | none => bestPath s x.dst

/-- A packet leaves on path `p` where it has room: its bucket pays, its timeouts start, and packets sent before are counted (R382, R390, R394). (DEDUCED, log entry 39.) -/
def ftLaunch (m : Nat) (x : FtMsg) (p : Nat) (want : List Nat) (h : FtHdr) (b : Bytes) (s : State) : State :=
  let old := want.filter fun j => match x.pkt j with | some q => decide (0 < q.sent) | none => false
  let pkt := ftPacket { h with path := p, retx := !old.isEmpty, time := s.now } b
  let seam := (ftSeam s x.dst)[p]?
  let bk := bktOf x.dst p
  let k := bktNow s bk
  let room := match seam with | some l => linkRoom s l (.packet pkt) | none => decide (((8 * pkt.length : Nat) : Int) ≤ k.level)
  if !room then s
  else
    let s := match seam with
      | some _ => s
      | none => setBkt bk (some { k with level := k.level - ((8 * pkt.length : Nat) : Int), used := s.tb.ticks, sent := true }) s
    let note (x : FtMsg) (j : Nat) : FtMsg :=
      let (sent, rto) := match x.pkt j with | some q => (q.sent, q.rto) | none => (0, ftRtoTicks s)
      { x with
        pk := tput none x.pk j (some { sent := sent + 1, due := s.tb.ticks + rto, rto := rto, path := p,
                                       bkt := if seam.isSome then none else some bk, again := false, rnr := false })
        retx := if sent = 0 then x.retx else x.retx + 1
        next := max x.next (j + 1)
        moved := if x.next = 0 then s.tb.ticks else x.moved }
    let s := if old.isEmpty then s else (s.count .ftRetx 0 0 old.length).countTv 4 old.length
    ftOut x.dst p x.tenant x.cls pkt (s.setFtMsg m (some (want.foldl note x)))

/-- A packet of a message leaves (R382): on the path with most tokens, a retransmission on the next in rotation. -/
def execFtPacketSend (m : Nat) (s : State) : Res :=
  run (m < 65536) s (onlyIf (ftOn s) fun s =>
    match s.ftMsg m with
    | none => s
    | some x => match nextPkt x with
      | none => s
      | some i =>
        match ftPathOf s x i with
        | none => s
        | some p =>
          if ordWaits s x then s
          else if srcWaits s x i then wakeSpan (x.laddr + i * 2 ^ x.mtu) (2 ^ x.mtu) s
          else match pktOf s m x i (ftWant x i) with
            | (s, .error _) => workGo (ftAbort m stUncorr 0 s)
            | (s, .ok (h, b)) => ftLaunch m x p (ftWant x i) h b s)

/-! ### Timers of the sender (R390, R391, R394) -/

/-- A packet's timeout expires: it is to be sent again, its timeout doubles up to 10 ms, and its bucket halves (R390, R394). The interval
after a NAK of reason RNR is no timeout: neither of the two follows it. (DEDUCED, log entry 109.) -/
def execFtRtoExpiry (m pkt : Nat) (s : State) : Res :=
  run (m < 65536) s fun s =>
    match s.ftMsg m with
    | none => s
    | some x => match x.pkt pkt with
      | none => s
      | some p =>
        if p.again ∨ s.tb.ticks < p.due then s
        else
          let rto := if p.rnr then p.rto else min (2 * p.rto) (10 * msTicks)
          let s := s.setFtMsg m (some { x with pk := tput none x.pk pkt (some { p with again := true, rto := rto }) })
          match p.bkt with
          | some b => if p.rnr then s else cutRate b (· / 2) s
          | none => s

/-- The retry limit (R391): a packet retransmitted 12 times, or 50 ms without progress. -/
def execFtRetryLimit (m : Nat) (s : State) : Res :=
  run (m < 65536) s fun s =>
    match s.ftMsg m with
    | none => s
    | some x =>
      let many := x.pk.any fun (_, p) => match p with | some p => decide (13 ≤ p.sent) | none => false
      if many ∨ (!ordWaits s x ∧ x.moved + 50 * msTicks ≤ s.tb.ticks) then
        let who := match x.from_ with | .ring i _ => i % 16 | .signal g => g.src | .work _ _ => 0x210
        let s := raise 1 (some x.tenant) (regAddr .ftErr 0 0 0) 0x8008 (zeros 2 ++ leBytes 4 x.dst ++ zeros 4 ++ leBytes 4 who) (s.orReg .ftErr 0 0 1)
        let s := match x.from_ with | .signal g => remoteLost g s | _ => s
        workGo (ftAbort m stPeer 0 s)
      else s

/-- An interval in which a bucket sent and met no mark ends (R394). -/
def execFtRateIncrease (b : Nat) (s : State) : Res :=
  run (b < 4096) s fun s =>
    match tget none s.ft.bkts b with
    | none => s
    | some x =>
      if s.tb.ticks < x.start + bits (s.reg .ftCc) 23 16 * usTicks then s
      else
        let y := bktNow s b
        let up := if x.sent && !x.mark then min (lineRate s (b % 8)) (x.rate + bits (s.reg .ftCc) 31 24 * 1000) else x.rate
        setBkt b (some { y with rate := up, start := s.tb.ticks, sent := false, mark := false }) s

/-- A bucket unused for 1 ms returns to line rate (R394). -/
def execFtBucketIdle (b : Nat) (s : State) : Res :=
  run (b < 4096) s fun s =>
    match tget none s.ft.bkts b with
    | some x => if x.used + msTicks ≤ s.tb.ticks then setBkt b none s else s
    | none => s

/-! ### Receiving (R375, R383 to R393) -/

/-- The message that a packet answers: its table index and entry. -/
def ftMine (s : State) (h : FtHdr) : Option (Nat × FtMsg) :=
  match s.ftMsg (h.msg % 65536) with
  | some m => if m.gen = h.msg / 65536 ∧ m.dst = h.src then some (h.msg % 65536, m) else none
  | none => none

/-- The memory that a packet's handling reads or writes: a packet whose memory cannot be reached yet waits (R168, R297, R311, R487). -/
def ftTargets (s : State) (h : FtHdr) : List (Nat × Nat) :=
  let off := h.pidx * 2 ^ h.mtu
  match h.op with
  | 1 => [(h.raddr + off, max 1 h.plen)]
  | 2 => [(h.raddr + off, max 1 (min (128 * 2 ^ h.mtu) (h.mlen - off)))]
  | 3 => match ftMine s h with
    | some (_, m) => if m.data.isSome then [] else [(m.laddr + h.pidx * 2 ^ m.mtu, max 1 h.plen)]
    | none => []
  | 4 => match s.ftRq (16 * h.tenant + h.raddr % 16), ftFind s h.src h.msg with
    | _, some e => [(e.addr + off, max 1 h.plen)]
    | some r, none => [(r.done, 8), (r.base + r.next % 2 ^ r.log2 * 2 ^ r.slot + off, max 1 h.plen)]
    | none, none => []
  | 5 => [(h.raddr, 8)]
  | _ => []

/-- What a row does with the packet at the head of the transport's input: a packet that fails R375 is discarded and counted, one of this
row's OP is handled. -/
def ftRx (op : Nat) (f : Bytes → FtHdr → Nat → State → State) (s : State) : State :=
  if !ftOn s then s
  else match s.net.ftIn with
    | [] => s
    | fr :: rest =>
      let (b, marked, sum) := ftIncoming s fr
      let h := ftHeader b
      let bad := !sum || ftBad s b
      if !bad && h.op != op then s
      else if let some (a, n) := if bad then none else (ftTargets s h).find? fun e => memWaits s e.1 e.2 then wakeSpan a n s
      else
        let s := { s with net := { s.net with ftIn := rest } }
        if bad then ftDiscard s
        else if (Int.natAbs ((s.now : Int) - h.time)) > ftMaxAge s * 1000 then sticky none .ftErr 0 0 4 (s.count .ftStale 0 0 1)
        else
          let s := if marked then s.count .ftCe 0 0 1 else s
          let path := if 32 ≤ fr.mac then 64 + (fr.mac - 32) else h.path
          f (ftPayload b) { h with ce := marked } path s

/-- A receive entry ends well (R384, R392): what completes the message, then the final ACK. -/
def ftDone (src msg : Nat) (s : State) : State :=
  match ftFind s src msg with
  | none => s
  | some e =>
    let s := match e.rq with
      | none => s
      | some (q, m) => match s.ftRq q with
        | none => s
        | some r =>
          let size := 2 ^ r.log2
          let ent := leBytes 2 stOk ++ zeros 1 ++ leBytes 1 (if m / size % 2 = 0 then 1 else 0) ++ leBytes 8 m ++ leBytes 4 e.len
            ++ leBytes 4 e.src ++ leBytes 8 s.now ++ zeros 4
          let s := ftPut (q / 16) (r.cq + m % size * 32) ent s
          let s := if bits r.sync 31 24 = 0 then s
            else sendSig 0x202 (q / 16) (translateFor s (q / 16 + 1) (fnBind s (q / 16)) (bits r.sync 23 0)) (bits r.sync 31 24) none s
          if r.src = 0xFFFFFFFF then varCount (q / 16) none s else s
    let s := ftRelease e (modRx src msg (fun e => { e with st := .done, since := s.tb.ticks }) s)
    ftAck src msg s

/-- A packet of an ACTIVE entry: one that disagrees with it is discarded, one that is held is acknowledged again, another is placed (R384,
R389). -/
def ftGo (h : FtHdr) (path : Nat) (place : FtRx → State → State) (e : FtRx) (s : State) : State :=
  if h.mlen ≠ e.len ∨ h.mtu ≠ e.mtu ∨ h.op ≠ e.op ∨ (e.op ≠ 4 ∧ e.op ≠ 0x0A ∧ h.raddr ≠ e.addr) ∨ e.pkts ≤ h.pidx
      ∨ ((e.op = 1 ∨ e.op = 4) ∧ h.plen ≠ min (2 ^ e.mtu) (e.len - h.pidx * 2 ^ e.mtu)) ∨ e.cum + 127 < h.pidx then ftDiscard s
  else
    let s := modRx h.src h.msg (fun e => { e with path := path, last := s.tb.ticks, ackDue := some (s.tb.ticks + 2 * usTicks) }) s
    if e.held.contains h.pidx then ftAck h.src h.msg s else place e s

/-- A packet that met a mark is noted with its entry, by its path (R389, R393). -/
def ftMark (h : FtHdr) (s : State) : State :=
  if h.ce then modRx h.src h.msg (fun e => { e with marks := e.marks ||| 2 ^ h.path }) s else s

/-- An admitted message gets its entry, and its region counts it (R383). -/
def ftAdd (e : FtRx) (s : State) : State :=
  let s := { s with ft := { s.ft with rx := s.ft.rx ++ [e] } }
  match e.region with
  | some k => let g := s.region k; s.setRegion k { g with uses := g.uses + 1 }
  | none => s

/-- A packet of a message that has an entry, or of one that passes its admission (`admitIn`), is handled by `place` (R384, R389, R392). -/
def ftMessage (h : FtHdr) (path : Nat) (admitIn : State → State × Except Nat FtRx) (place : FtRx → State → State) (s : State) : State :=
  match ftFind s h.src h.msg with
  | some e =>
    let s := ftMark h s
    match e.st with
    | .active => ftGo h path place e s
    | .aborted => ftNak path h 6 s
    | .done =>
      let s := modRx h.src h.msg (fun e => { e with path := path }) s
      let s := match e.resp with
        | some (st, v) => ftAnswer { e with path := path } 6 0 st (leBytes 8 v) s
        | none => s
      ftAck h.src h.msg s
  | none =>
    if 65536 ≤ s.ft.rx.length then ftNak path h 3 (sticky none .ftErr 0 0 8 s)
    else match admitIn s with
      | (s, .error r) => ftNak path h r s
      | (s, .ok e) => ftGo h path place e (ftMark h (ftAdd e s))

/-- A new entry of a message. -/
def rxEntryOf (s : State) (h : FtHdr) (path : Nat) (region : Option Nat) (addr : Nat) : FtRx :=
  { src := h.src, msg := h.msg, tenant := h.tenant, op := h.op, region := region, addr := addr, len := h.mlen, mtu := h.mtu, cls := h.cls, path := path
    last := s.tb.ticks, since := s.tb.ticks }

/-- A packet is held: the ACK after 8 packets, or the end of the message (R384, R389). -/
def ftHold (h : FtHdr) (s : State) : State :=
  let s := modRx h.src h.msg (fun e => { e with held := e.held ++ [h.pidx], count := e.count + 1 }) s
  match ftFind s h.src h.msg with
  | none => s
  | some e =>
    if e.held.length = e.pkts then ftDone h.src h.msg s
    else if 8 ≤ e.count then ftAck h.src h.msg s
    else s

/-- Admission of a WRITE: its region with the right to write (R383). -/
def ftAdmitWrite (h : FtHdr) (path : Nat) (s : State) : State × Except Nat FtRx :=
  match ftRegion s h 3 h.mlen 1 with
  | .error r => (s, .error r)
  | .ok k => (s, .ok (rxEntryOf s h path (some k) h.raddr))

/-- WRITE packets (R383, R384). -/
def execFtRxWrite (s : State) : Res :=
  run true s (ftRx 1 fun pay h path =>
    ftMessage h path (ftAdmitWrite h path)
      (fun e s => match writeMem s (e.addr + h.pidx * 2 ^ e.mtu) pay with
        | (s, some _) => ftNak path h 4 s
        | (s, none) => workGo (moveLanded h.tenant (e.addr + h.pidx * 2 ^ e.mtu) pay.length (ftHold h s))))

/-- A receive queue has a slot for its next message, by the word at DONE as read last (R387). -/
def FtRq.room (r : FtRq) (d : Option Nat) : Bool := match d with | some d => decide ((r.next : Int) - d < (2 ^ r.log2 : Nat)) | none => false

/-- The message takes the next number of its queue and that number's slot (R387). (DEDUCED, log entry 109.) -/
def ftAdmitSlot (h : FtHdr) (path : Nat) (r : FtRq) (d : Option Nat) (s : State) : State × Except Nat FtRx :=
  let q := 16 * h.tenant + h.raddr % 16
  let a := r.base + r.next % 2 ^ r.log2 * 2 ^ r.slot
  if !permits s (tenReq h.tenant 0x202) a h.mlen true then (refuse (tenReq h.tenant 0x202) a h.mlen s, .error 1)
  else
    (s.setFtRq q (some { r with next := r.next + 1, seen := d }), .ok { rxEntryOf s h path none a with rq := some (q, r.next) })

/-- Admission of a SEND: a queue that is BOUND, its source, the slot size, and a slot that software has released by the word at DONE as
read last. The slot and the word are the receiving tenant's memory under R42 (R387). (DEDUCED, log entry 109.) -/
def ftAdmitSend (h : FtHdr) (path : Nat) (s : State) : State × Except Nat FtRx :=
  let q := 16 * h.tenant + h.raddr % 16
  match s.ftRq q with
  | none => (s, .error 1)
  | some r =>
    if 16 ≤ h.raddr ∨ (r.src ≠ 0xFFFFFFFF ∧ r.src ≠ h.src) then (s, .error 1)
    else if 2 ^ r.slot < h.mlen then (s, .error 5)
    else if r.room r.seen then ftAdmitSlot h path r r.seen s
    else if !permits s (tenReq h.tenant 0x202) r.done 8 false then (refuse (tenReq h.tenant 0x202) r.done 8 s, .error 1)
    else match readMem s r.done 8 with
      | (s, .error _) => (s, .error 4)
      | (s, .ok d) =>
        if r.room (some (leNat d)) then ftAdmitSlot h path r (some (leNat d)) s else (s.setFtRq q (some { r with seen := some (leNat d) }), .error 3)

/-- SEND packets (R387). -/
def execFtRxSend (s : State) : Res :=
  run true s (ftRx 4 fun pay h path =>
    ftMessage h path (ftAdmitSend h path)
      (fun e s => match writeMem s (e.addr + h.pidx * 2 ^ e.mtu) pay with
        | (s, some _) => ftNak path h 4 s
        | (s, none) => ftHold h s))

/-- The new value of an ATOMIC's target, and its status (R386). -/
def atomicOp (aop old operand cmp : Nat) : Nat × Nat :=
  match aop with
  | 3 =>
    let (v, o) := satInt 64 (sext 64 old + sext 64 operand)
    (wrapInt 64 v, if o then stTallyRange else stOk)
  | 4 => (redFloat 11 0 (old % 2 ^ 32) (operand % 2 ^ 32), stOk)
  | 5 => (if old = cmp then operand else old, stOk)
  | 6 => (operand, stOk)
  | _ => ((old + operand) % 2 ^ 64, stOk)

/-- Admission of an ATOMIC: a defined operation on an operand of its size, and its region with the right to it (R383, R386). -/
def ftAdmitAtomic (aop : Nat) (h : FtHdr) (path : Nat) (s : State) : State × Except Nat FtRx :=
  if aop = 0 ∨ 6 < aop ∨ h.mlen ≠ aopSize aop then (s, .error 5)
  else match ftRegion s h 4 h.mlen h.mlen with
    | .error r => (s, .error r)
    | .ok k => (s, .ok (rxEntryOf s h path (some k) h.raddr))

/-- An ATOMIC packet (R386): applied once, as one read-modify-write, and its response saved. -/
def execFtRxAtomic (s : State) : Res :=
  run true s (ftRx 5 fun pay h path =>
    let aop := fld pay 0 1
    ftMessage h path (ftAdmitAtomic aop h path)
      (fun e s =>
        match readMem s e.addr e.len with
        | (s, .error _) => ftNak path h 4 s
        | (s, .ok b) =>
          let old := leNat b
          let (v, st) := atomicOp aop old (fld pay 8 8) (fld pay 16 8)
          let (s, r) := writeMem s e.addr (leBytes e.len v)
          if r.isSome then ftNak path h 4 s
          else
            let res := if aopFetch aop then old else 0
            let s := modRx h.src h.msg (fun e => { e with resp := some (st, res) }) s
            ftHold h (ftAnswer { e with path := path } 6 0 st (leBytes 8 res) s)))

/-- Admission of a SIGNAL: a counter that its tenant owns (R388). -/
def ftAdmitSignal (h : FtHdr) (path : Nat) (s : State) : State × Except Nat FtRx :=
  if 17408 ≤ h.raddr ∨ ctrOwner s h.raddr ≠ h.tenant + 1 then ((remoteApply 0x203 h.src h.raddr 0 h.tenant s).1, .error 1)
  else (s, .ok (rxEntryOf s h path none h.raddr))

/-- A SIGNAL packet (R388): the counter takes the value, then the final ACK. -/
def execFtRxSignal (s : State) : Res :=
  run true s (ftRx 0x0A fun pay h path =>
    ftMessage h path (ftAdmitSignal h path)
      (fun _ s => ftHold h (remoteApply 0x203 h.src h.raddr (leNat pay % 2 ^ 24) h.tenant s).1))

/-- One packet that a READ asks for: it is read and answered, or answered with a NAK (R385). -/
def ftReadPkt (path : Nat) (h : FtHdr) (i : Nat) (s : State) : State :=
  match readMem s (h.raddr + (h.pidx + i) * 2 ^ h.mtu) (min (2 ^ h.mtu) (h.mlen - (h.pidx + i) * 2 ^ h.mtu)) with
  | (s, .error _) => ftNak path h 4 s
  | (s, .ok b) => ftReply path {
      op := 3, path := 0, tenant := h.tenant, src := 0, dst := h.src, msg := h.msg, pidx := h.pidx + i, mlen := h.mlen, time := 0, cls := h.cls
      mtu := h.mtu } b s

/-- A READ packet (R385): the responder keeps no state and sends the packets that the bitmap asks for. -/
def execFtRxRead (s : State) : Res :=
  run true s (ftRx 2 fun pay h path s =>
    match ftRegion s h 2 h.mlen 1 with
    | .error r => ftNak path h r s
    | .ok _ =>
      let map := leNat pay
      ((List.range 128).filter fun i => bit map i && decide (h.pidx + i < ftCount h.mlen h.mtu)).foldl (fun s i => ftReadPkt path h i s) s)

/-- Packet `i` needs no further sending. -/
def clearPkt (m : FtMsg) (i : Nat) : FtMsg := { m with pk := tput none m.pk i none }

/-- CUM moves past packets that are held. -/
def cumUp (m : FtMsg) : FtMsg :=
  let c := ((List.range (m.held.length + 1)).find? fun i => !m.held.contains (m.cum + i)).getD 0 + m.cum
  { m with cum := c, held := m.held.filter fun i => decide (c < i) }

/-- A READ_RESP (R385): placed at LADDR; the READ ends once every byte is placed. (DEDUCED, log entry 13.) -/
def execFtRxReadResp (s : State) : Res :=
  run true s (ftRx 3 fun pay h _ s =>
    match ftMine s h with
    | none => s
    | some (i, m) =>
      if m.op ≠ 2 ∨ m.pkts ≤ h.pidx ∨ h.pidx < m.cum ∨ m.held.contains h.pidx then s
      else if h.plen ≠ min (2 ^ m.mtu) (m.len - h.pidx * 2 ^ m.mtu) ∨ h.mlen ≠ m.len then ftDiscard s
      else
        let (s, bad) := match m.data with
          | some _ => (s, false)
          | none => let (s, r) := writeMem s (m.laddr + h.pidx * 2 ^ m.mtu) pay; (s, r.isSome)
        let m := { m with got := if m.data.isSome then tput [] m.got h.pidx pay else m.got }
        let m := cumUp (clearPkt { m with held := m.held ++ [h.pidx], moved := s.tb.ticks } h.pidx)
        let s := s.setFtMsg i (some m)
        if bad then workGo (ftAbort i stUncorr 0 s)
        else if m.pkts ≤ m.cum then workGo (ftEndMsg i stOk 0 s)
        else s)

/-- An ATOMIC_RESP (R386): it ends the message with the prior value. (DEDUCED, log entry 13.) -/
def execFtRxAtomicResp (s : State) : Res :=
  run true s (ftRx 6 fun pay h _ s =>
    match ftMine s h with
    | none => s
    | some (i, m) =>
      if m.op ≠ 5 then s
      else
        let v := leNat pay
        let (s, bad) := if aopFetch m.aop then (let (s, r) := writeMem s m.laddr (leBytes 8 v); (s, r.isSome)) else (s, false)
        workGo (ftEndMsg i (if bad then stUncorr else h.mlen % 65536) (if aopFetch m.aop then v else 0) (ftClose i m false s)))

/-- Cut the rate of the buckets whose packets met a mark (R394). -/
def ftCuts (m : FtMsg) (mask : Nat) (s : State) : State :=
  if (ftSeam s m.dst) ≠ [] then s else
  (List.range 8).foldl (fun s p =>
    let b := bktOf m.dst p
    match bit mask p, tget none s.ft.bkts b with
    | true, some x =>
      let free := match x.cut with | none => true | some t => decide (t + bits (s.reg .ftCc) 15 8 * usTicks ≤ s.tb.ticks)
      let s := setBkt b (some { x with mark := true }) s
      if free then
        let s := cutRate b (fun r => r - r * bits (s.reg .ftCc) 7 0 / 256) s
        match tget none s.ft.bkts b with | some y => setBkt b (some { y with cut := some s.tb.ticks }) s | none => s
      else s
    | _, _ => s) s

/-- A message after an ACK that does not end it: packets below CUM or in the bitmap are held and freed, and one with three held packets above it
is sent again (R389, R390). -/
def ftAcked (m : FtMsg) (pidx sack ticks : Nat) : FtMsg :=
  let got := ((List.range 128).filter fun k => decide (0 < k) && bit sack k).map (· + pidx)
  let fresh := decide (m.cum < pidx) || got.any fun k => decide (m.cum < k) && !m.held.contains k
  { m with
    cum := max m.cum pidx
    held := (m.held ++ got.filter fun k => !m.held.contains k).filter fun k => decide (max m.cum pidx < k)
    moved := if fresh then ticks else m.moved
    pk := (tdrop m.pk fun k => decide (k < pidx) || got.contains k).map fun (k, p) => match p with
      | some p => if 3 ≤ (got.filter fun g => decide (k < g)).length then (k, some { p with again := true }) else (k, some p)
      | none => (k, none) }

/-- An ACK (R389, R390): packets are freed, gaps below three held packets are sent again, marks cut the rate, FINAL ends the message. -/
def execFtRxAck (s : State) : Res :=
  run true s (ftRx 7 fun pay h _ s =>
    match ftMine s h with
    | none => s
    | some (i, m) =>
      if m.op = 2 then s
      else
        let s := ftCuts m (h.mlen % 256) s
        if m.op = 5 then s
        else if bit h.mlen 8 then workGo (ftEndMsg i stOk 0 (ftClose i m false s))
        else s.setFtMsg i (some (ftAcked m h.pidx (leNat pay) s.tb.ticks)))

/-- A NAK (R390): RNR retransmits one timeout later, any other reason ends the message. (DEDUCED, log entry 41.) -/
def execFtRxNak (s : State) : Res :=
  run true s (ftRx 8 fun _ h _ s =>
    if h.mlen = 0 ∨ 6 < h.mlen then ftDiscard s
    else match ftMine s h with
    | none => s
    | some (i, m) =>
      if h.mlen = 3 then
        let s := s.count .ftRnr 0 0 1
        match m.pkt h.pidx with
        | some p => s.setFtMsg i (some { m with pk := tput none m.pk h.pidx (some { p with due := s.tb.ticks + p.rto, again := false, rnr := true }) })
        | none => s
      else match nakStatus h.mlen with
        | some st => workGo (ftAbort i st 0 s)
        | none => s)

/-- A CLOSE (R392). -/
def execFtRxClose (s : State) : Res :=
  run true s (ftRx 9 fun _ h path s =>
    match ftFind s h.src h.msg with
    | none => s
    | some e => match e.st with
      | .active =>
        if bit h.mlen 0 then ftRelease e (modRx h.src h.msg (fun e => { e with st := .aborted, since := s.tb.ticks, ackDue := none }) s) else s
      | .done => modRx h.src h.msg (fun e => { e with close := some (h.time + ftMaxAge s * 1000) }) s
      | .aborted => ftNak path h 6 s)

/-! ### Timers of the receiver (R389, R392) -/

/-- 2 µs after the last unacknowledged packet (R389). -/
def execFtAckTimer (src msg : Nat) (s : State) : Res :=
  run true s fun s =>
    match ftFind s src msg with
    | some e => if e.ackDue.isSome ∧ 0 < e.count ∧ expired s e.ackDue then ftAck src msg s else s
    | none => s

/-- 50 ms without a packet: the entry is ABORTED (R392). -/
def execFtEntryIdleAbort (src msg : Nat) (s : State) : Res :=
  run true s fun s =>
    match ftFind s src msg with
    | some e =>
      if e.st = .active ∧ e.last + 50 * msTicks ≤ s.tb.ticks then
        sticky none .ftErr 0 0 16 (ftRelease e (modRx src msg (fun e => { e with st := .aborted, since := s.tb.ticks, ackDue := none }) s))
      else s
    | none => s

/-- LINGER after entry to DONE or ABORTED the entry is FREE (R392). -/
def execFtEntryLinger (src msg : Nat) (s : State) : Res :=
  run true s fun s =>
    match ftFind s src msg with
    | some e => if e.st ≠ .active ∧ e.since + 51 * msTicks + ftMaxAge s * usTicks ≤ s.tb.ticks then delRx src msg s else s
    | none => s

/-- A DONE entry that saw its CLOSE is FREE at CLOSE.TX_TIME + MAX_AGE (R392). -/
def execFtCloseAgeExpiry (src msg : Nat) (s : State) : Res :=
  run true s fun s =>
    match ftFind s src msg with
    | some e => match e.close with
      | some t => if e.st = .done ∧ t ≤ s.now then delRx src msg s else s
      | none => s
    | none => s

/-! ### Efesh operations (R376, R377) -/

/-- FT_RING_CREATE: the ring, and the transport's waiter on its doorbell counter (R376, R377). -/
def execFtRingCreate (id : Nat) (s : State) : Res :=
  run true s (startOp .ftRingCreate id fun c =>
    let i := 16 * c.fn + c.p 0
    fun s => need6 (s.ftRing i).isNone c 0x12 (c.p 0) 1 (fun s =>
      let ident := bits (c.p 2) 23 0
      match translateFor s (c.fn + 1) (fnBind s c.fn) ident with
      | .phys p =>
        let ctx := if bit ident 23 then (fnBind s c.fn).getD 0xFFFF else 0xFFFF
        let s := s.setFtRing i (some { log2 := c.p 1, ctr := p, base := c.p 3, cq := c.p 4 })
        finish0 id stOk (sendWait p ⟨0x202, 1, none, ident, ctx, 0xFFFFFFFF, c.fn, none, some i⟩ s)
      | .ue => failAt c stUncorr .ftRingCreate 2 s
      | _ => failAt c stDenied .ftRingCreate 2 s) s)

/-- FT_RING_DELETE: an ACTIVE ring with no message in flight; its waiter goes (R376). -/
def execFtRingDelete (id : Nat) (s : State) : Res :=
  run true s (startOp .ftRingDelete id fun c =>
    let i := 16 * c.fn + c.p 0
    fun s =>
      let busy := s.ft.msgs.any fun (_, m) => match m with | some m => (match m.from_ with | .ring k _ => k == i | _ => false) | none => false
      need6 ((s.ftRing i).isSome && !busy) c 0x12 (c.p 0) (if (s.ftRing i).isSome then 1 else 0) (fun s =>
        finish0 id stOk (withdraw 0x202 (some i) (s.setFtRing i none))) s)

/-- FT_RQ_BIND; in strict mode a queue for any sender is refused (R376, R253). -/
def execFtRqBind (id : Nat) (s : State) : Res :=
  run true s (startOp .ftRqBind id fun c =>
    let i := 16 * c.fn + c.p 0
    fun s => need6 (s.ftRq i).isNone c 0x13 (c.p 0) 1 (fun s =>
      if c.p 3 = 0xFFFFFFFF ∧ strict s c.fn then finish0 id stDetRefused (varRefuse c.fn s)
      else finish0 id stOk (s.setFtRq i (some
        { log2 := c.p 1, slot := c.p 2, src := c.p 3, sync := c.p 4, base := c.p 5, cq := c.p 6, done := c.p 7 }))) s)

/-- FT_RQ_UNBIND: a BOUND queue with no message admitted (R376). -/
def execFtRqUnbind (id : Nat) (s : State) : Res :=
  run true s (startOp .ftRqUnbind id fun c =>
    let i := 16 * c.fn + c.p 0
    fun s =>
      let busy := s.ft.rx.any fun e => e.st == .active && (match e.rq with | some (q, _) => q == i | none => false)
      need6 ((s.ftRq i).isSome && !busy) c 0x13 (c.p 0) (if (s.ftRq i).isSome then 1 else 0) (fun s => finish0 id stOk (s.setFtRq i none)) s)

/-- The tenant reset of the transport (R396): its messages end without packets, its rings and queues go, its receive entries abort. -/
def ftTenantReset (t : Nat) (s : State) : State :=
  let s := s.ft.msgs.foldl (fun s (i, m) => match m with
    | some m => if m.tenant = t then ftClose i m true (s.setFtMsg i none) else s
    | none => s) s
  let s := s.ft.rings.foldl (fun s (i, _) => if i / 16 = t then withdraw 0x202 (some i) s else s) s
  let mine (e : FtRx) : Bool := e.st == .active && (match e.region, e.rq with
    | some k, _ => (s.region k).tenant == t
    | none, some (q, _) => q / 16 == t
    | none, none => e.tenant == t)
  let s := (s.ft.rx.filter mine).foldl (fun s e => ftRelease e s) s
  { s with ft := { s.ft with
      rings := tdrop s.ft.rings fun i => i / 16 == t
      rqs := tdrop s.ft.rqs fun i => i / 16 == t
      wait := s.ft.wait.filter fun m => m.tenant != t
      rx := s.ft.rx.map fun e => if mine e then { e with st := .aborted, since := s.tb.ticks, ackDue := none } else e } }

end Sys2Proof.Machine
end

