-- ==== Sys2Proof/Machine/Sync.lean ====
section
/-! DEFINITION. The commands of the sync counter fabric: signals, waits, pass notices, timeouts, epochs, translation contexts (R219 to
R238). -/
namespace Sys2Proof.Machine

open Sys2Proof

/-! ### Counter cycles (R222 to R225) -/

/-- Signals of the listed sources, one each, arrive at a counter in one cycle (R224). (DESIGN CHOICE, log entry 98.) -/
def execSignalArrival (p : Nat) (srcs : List Nat) (s : State) : Res := run (p < 17408) s (counterCycle p srcs)

/-- Take from the waits under way the first one of each named source to a counter. -/
def takeJoins (p : Nat) : List Nat → List (Nat × Waiter) → List Waiter × List (Nat × Waiter)
  | [], l => ([], l)
  | a :: r, l => match takeFirst (fun (e : Nat × Waiter) => e.1 == p && e.2.src == a) l with
    | some (e, l) => let (t, l) := takeJoins p r l; (e.2 :: t, l)
    | none => takeJoins p r l

/-- Put a waiter in ascending source order, behind those of its own source. -/
def insWaiter (w : Waiter) : List Waiter → List Waiter
  | [] => [w]
  | x :: t => if w.src < x.src then w :: x :: t else x :: insWaiter w t

/-- A waiter's timeout starts as it joins (R230); that of a held core waits for its release (R144). -/
def startTimeout (w : Waiter) (s : State) : Waiter × State :=
  if w.src < 272 ∧ (s.core w.src).st = .held then
    let left := if w.tmo = 0xFFFFFFFF then none else some (w.tmo * usTicks)
    (w, if w.any.getD 0 = 0 then s.setCore w.src { s.core w.src with paused := left } else s)
  else ({ w with deadline := deadlineOf s w.tmo }, s)

/-- Waits of the listed sources arrive at a counter in one cycle, join its list in source order and are tested (R223, R224). -/
def execWaiterJoin (p : Nat) (srcs : List Nat) (s : State) : Res :=
  run (p < 17408) s fun s =>
    let (ws, rest) := takeJoins p srcs s.sync.joining
    let s := { s with sync := { s.sync with joining := rest } }
    let s := (ws.foldl (fun l w => insWaiter w l) []).foldl (fun s w =>
      let (w, s) := startTimeout w s
      s.setCtr p { s.ctr p with waiters := (s.ctr p).waiters ++ [w] }) s
    let (ps, s) := rebaseReady p s
    settle (p :: ps) s

/-- A pass notice reaches its unit (R227): a core goes on, with the index of a SYN.ANY in SYN.Q; a SYNC WAIT command replies; a ring's
doorbell entitles the transport to one more entry and its waiter is listed again (R377). -/
def execPassNotice (i : Nat) (s : State) : Res :=
  run true s fun s =>
    match s.sync.notices[i]? with
    | none => s
    | some n =>
      let s := { s with sync := { s.sync with notices := s.sync.notices.eraseIdx i } }
      if n.src < 272 then
        let c := s.core n.src
        match c.wait with
        | none => s
        | some (any, _) =>
          let c := { c with wait := none, paused := none, stall := if c.why = 3 then false else c.stall, why := if c.why = 3 then 0 else c.why }
          let s := s.setCore n.src (if any then { c with ports := tput 0 c.ports 0x0F8 n.idx } else c)
          let o := coreOwner s n.src
          if o = 0 then s
          else traceHit (o - 1) 5 n.src 0 n.ctr (if n.src < 256 then traceGcyc s (n.src / 8) else 0) (if n.src < 256 then some (n.src / 8) else none) s
      else match n.tag with
        | none => s
        | some t =>
          if n.src = 0x200 then finish0 t stOk s
          else match s.ftRing t with
            | none => s
            | some r =>
              let s := s.setFtRing t (some { r with credit := r.credit + 1 })
              sendWait n.ctr ⟨0x202, 1, none, n.ctr, 0xFFFF, 0xFFFFFFFF, t / 16, none, some t⟩ s

/-- The function and queue pair of a command as a unit number (R231). -/
def cmdUnit (s : State) (id : Nat) : Nat := match findCmd s id with | some c => c.fn * 64 + c.q | none => 0

/-- The timeout of waiter `i` of a counter has expired: it leaves its lists, the record is raised, and the core or the command ends its
wait (R231). A SYN.ANY waiter's timeout is that of its entry on the counter of SYN.ID. (DEDUCED, log entry 85.) -/
def execWaitTimeout (p i : Nat) (s : State) : Res :=
  run (p < 17408) s fun s =>
    match (s.ctr p).waiters[i]? with
    | none => s
    | some w =>
      if !expired s w.deadline ∨ 0 < w.any.getD 0 then s
      else
        let unit := if w.src < 272 then w.src else match w.tag with | some id => cmdUnit s id | none => 0
        let body := timeoutBody s (if w.src < 256 then 0 else if w.src < 272 then 1 else 2) w unit p
        let cnt := (s.ctr p).count.toNat
        let s := raise 1 (if w.tenant = 0xFF then none else some w.tenant) (regAddr .syncErr 0 0 0) 0x0302 body (s.orReg .syncErr 0 0 2)
        let s := withdraw w.src w.tag s
        if w.src < 272 then takeExc w.src { code := exTimeout, addr := w.ident } (nextPc (s.core w.src)) false s
        else match w.tag with
          | some id => finish id stTimeout w.ident p cnt 0 s
          | none => s

/-! ### Commands (R213, R228) -/

/-- The translation of a command's identifier at its start, or the status that ends it: ACCESS_DENIED with the parameter's offset,
UNCORRECTABLE with XLATE_UE set. -/
def cmdCounter (c : Cmd) (o : Op) (remote : Bool) (f : Xl → State → State) (s : State) : State :=
  match translateFor s (c.fn + 1) (fnBind s c.fn) (c.p 0) with
  | .none => failAt c stDenied o 0 s
  | .ue => finish0 c.id stUncorr (s.orReg .syncErr 0 0 0x10)
  | .remote p d => if remote then f (.remote p d) s else failAt c stDenied o 0 s
  | x => f x s

/-- SYNC SIGNAL: a local signal replies once its counter has taken it; a remote one is handed to its path (R213, R229, R238). (DEDUCED, log entry 22.) -/
def execSyncSignal (id : Nat) (s : State) : Res :=
  run true s (startOp .syncSignal id fun c => cmdCounter c .syncSignal true fun x s =>
    let s := sendSig 0x200 c.fn x (c.p 1) (some id) s
    match x with
    | .phys _ => working id s
    | _ => finish0 id stOk s)

/-- SYNC WAIT commands outstanding (R226). -/
def waitsOut (s : State) : Nat :=
  (s.sync.counters.map fun (_, c) => (c.waiters.filter (·.src == 0x200)).length).sum + (s.sync.joining.filter fun (_, w) => w.src == 0x200).length
    + (s.sync.notices.filter (·.src == 0x200)).length

/-- SYNC WAIT: at most 1,024 at once (R226, R230). -/
def execSyncWait (id : Nat) (s : State) : Res :=
  run true s (startOp .syncWait id fun c => cmdCounter c .syncWait false fun x => need7 true c fun s =>
    match x with
    | .phys p =>
      if 1024 ≤ waitsOut s then finish0 id stNoResource s
      else
        let ctx := fnBind s c.fn
        let ident := c.p 0
        working id (sendWait p ⟨0x200, c.p 1, none, ident, if bit ident 23 then ctx.getD 0xFFFF else 0xFFFF, tmoOf s c.fn ctx ident (c.p 2), c.fn, none, some id⟩ s)
    | _ => s)

/-- SYNC READ: the count (R228). -/
def execSyncRead (id : Nat) (s : State) : Res :=
  run true s (startOp .syncRead id fun c => cmdCounter c .syncRead false fun x s =>
    match x with
    | .phys p => finish id stOk (s.ctr p).count.toNat 0 0 0 s
    | _ => s)

/-- A counter has a waiter: listed, or a ring's doorbell wait that is always there (R216, R377). -/
def hasWaiter (s : State) (p : Nat) : Bool :=
  (s.ctr p).waiters != [] || s.ft.rings.any fun (_, r) => match r with | some r => r.ctr == p | none => false

/-- SYNC SET: the count is replaced and SAT cleared; epochs and waiters are tested in the same cycle (R224, R228). -/
def execSyncSet (id : Nat) (s : State) : Res :=
  run true s (startOp .syncSet id fun c => cmdCounter c .syncSet false fun x s =>
    match x with
    | .phys p =>
      if hasWaiter s p then conflict id 0x08 p 1 0 s
      else
        let s := finish0 id stOk (s.setCtr p { s.ctr p with count := BitVec.ofNat 24 (c.p 1), sat := false })
        let (ps, s) := rebaseReady p s
        settle (p :: ps) s
    | _ => s)

/-! ### Epochs (R232 to R234) -/

/-- An epoch record's entries as they translate: local counters with their BASE; the first entry that does not do. -/
def epochEntries (s : State) (fn : Nat) (b : Bytes) : Except Xl (List (Nat × Nat)) :=
  (List.range (fld b 4 2)).foldl (fun acc i =>
    match acc with
    | .error e => .error e
    | .ok l => match translateFor s (fn + 1) (fnBind s fn) (fld b (16 + 8 * i) 3) with
      | .phys p => .ok (l ++ [(p, fld b (20 + 8 * i) 4)])
      | x => .error x) (.ok [])

/-- The timeout of an EPOCH (R230). -/
def epochTmo (s : State) (fn tmo : Nat) : Nat :=
  if tmo ≠ 0 then tmo
  else match fnBind s fn with
    | some c => if s.reg .syncCtxTmo 0 c ≠ 0 then s.reg .syncCtxTmo 0 c else s.reg .syncDefTmo 0 fn
    | none => s.reg .syncDefTmo 0 fn

/-- SYNC EPOCH: the record's counters are tested from now on; a saturated one is cleared first (R233, R234). -/
def execSyncEpoch (id : Nat) (s : State) : Res :=
  run true s (startOp .syncEpoch id fun c s =>
    match readMem s (c.p 0) (16 + 8 * leNat (memBytes s (c.p 0 + 4) 2)) with
    | (s, .error a) => failAddr id (.ue a) s
    | (s, .ok b) =>
      match epochEntries s c.fn b with
      | .error (.remote _ _) => failAt c stInvalid .syncEpoch 0 s
      | .error .ue => finish0 id stUncorr (s.orReg .syncErr 0 0 0x10)
      | .error _ => failAt c stDenied .syncEpoch 0 s
      | .ok es =>
        let sat := es.filter fun (p, _) => (s.ctr p).sat
        let s := sat.foldl (fun s (p, _) => s.setCtr p { s.ctr p with count := 0, sat := false }) s
        let e : Epoch := ⟨id, c.fn, fld b 0 4, es, deadlineOf s (epochTmo s c.fn (fld b 8 4)), if sat = [] then 0 else 1⟩
        working id { s with sync := { s.sync with epochs := s.sync.epochs ++ [e] } })

/-- In the first counter cycle in which every listed count has reached its BASE, the epoch re-bases (R233). -/
def execEpochRebase (id : Nat) (s : State) : Res :=
  run true s fun s =>
    match s.sync.epochs.find? fun e => e.id == id with
    | none => s
    | some e => if epochMet s e then settle (e.entries.map (·.1)) (rebase e s) else s

/-- An epoch's timeout expires first (R233). -/
def execEpochTimeout (id : Nat) (s : State) : Res :=
  run true s fun s =>
    match s.sync.epochs.find? fun e => e.id == id with
    | none => s
    | some e =>
      if !expired s e.deadline || epochMet s e then s
      else
        let (p, i) := ((e.entries.zipIdx).find? fun ((p, b), _) => decide ((s.ctr p).count.toNat < b) || (s.ctr p).sat).map (fun ((p, _), i) => (p, i)) |>.getD (0, 0)
        let s := { s with sync := { s.sync with epochs := s.sync.epochs.filter fun x => x.id != id } }
        finish id stTimeout i (s.ctr p).count.toNat e.w2 0 s

/-! ### Contexts (R235 to R237) -/

/-- A run of entries that no context holds. (DESIGN CHOICE, log entry 52.) -/
def runFree (s : State) (base n : Nat) : Bool :=
  (List.range 256).all fun c =>
    let w := s.reg .syncCtx 0 c
    !bit w 4 || decide (bits w 31 16 + s.reg .syncCtxLen 0 c ≤ base) || decide (base + n ≤ bits w 31 16)

/-- The lowest free run of `n` entries: it begins at 0 or at the end of a context's run (log entry 52). -/
def findRun (s : State) (n : Nat) : Option Nat :=
  let starts := 0 :: ((List.range 256).filterMap fun c =>
    let w := s.reg .syncCtx 0 c
    if bit w 4 then some (bits w 31 16 + s.reg .syncCtxLen 0 c) else none)
  (starts.filter fun b => decide (b + n ≤ 65536) && runFree s b n).foldl (fun acc b => match acc with | none => some b | some a => some (min a b)) none

/-- VMAP: entries into a fresh run that becomes the context's in a single step; COUNT 0 frees the context (R235). -/
def execVmap (id : Nat) (s : State) : Res :=
  run true s (startOp .vmap id fun c s =>
    let x := c.p 0
    let n := c.p 1
    if n = 0 then finish0 id stOk ((s.setReg .syncCtx 0 x 0).setReg .syncCtxLen 0 x 0)
    else match findRun s n with
      | none => finish0 id stNoResource s
      | some b => match readMem s (c.p 2) (8 * n) with
        | (s, .error a) => failAddr id (.ue a) s
        | (s, .ok d) =>
          let s := { s with sync := { s.sync with
            xmem := (List.range n).foldl (fun t i => tput 0 t (b + i) (fld d (8 * i) 8)) s.sync.xmem
            xbad := s.sync.xbad.filter fun e => !(decide (b ≤ e) && decide (e < b + n)) } }
          finish0 id stOk ((s.setReg .syncCtx 0 x (c.fn + 16 + b * 65536)).setReg .syncCtxLen 0 x n))

/-- The context belongs to a tenant other than `t`. -/
def ctxForeign (s : State) (ctx t : Nat) : Bool := let w := s.reg .syncCtx 0 ctx; bit w 4 && bits w 3 0 != t

/-- A write of SYNC.CORE_CTX[k]: refused on another tenant's context, or unless the core is HALTED or FAULTED (R237). -/
def execCoreCtxWrite (who k : Nat) (val : Word) (s : State) : Res :=
  run (who < 19 && k < 272) s fun s =>
    let o := coreOwner s k
    instWrite who o (fun s =>
      let v := val.toNat % 512
      if (o ≠ 0 && ctxForeign s (v % 256) (o - 1)) || !imemOpen s k then s.orReg .syncErr 0 0 0x20
      else s.setReg .syncCoreCtx 0 k v) s

/-- A write of SYNC.FN_CTX[i]: refused on another tenant's context (R237). -/
def execFnCtxWrite (who i : Nat) (val : Word) (s : State) : Res :=
  run (who < 19 && i < 18) s (onlyIf (who == i || decide (16 ≤ who)) fun s =>
    let v := val.toNat % 512
    if i < 16 && ctxForeign s (v % 256) i then s.orReg .syncErr 0 0 0x20 else s.setReg .syncFnCtx 0 i v)

end Sys2Proof.Machine
end

