-- ==== Sys2Proof/Machine/CmdChecks.lean ====
section
/-! DEFINITION. The checks of a command at its take: defined, accepted in HOLD, reserved bytes, legal parameters, who issues it and what it
names (R190 to R199, R206, R207, and the parameter columns of R210 to R215, R376, R441, R459). -/
namespace Sys2Proof.Machine

open Sys2Proof

/-! ### Records in memory that a command names -/

/-- A record in device memory as the take reads it: none where the tenant may not read it or a codeword of it is uncorrectable; its content
is then left to the checks that follow. -/
def record (s : State) (c : Cmd) (unit a n : Nat) : Option Bytes :=
  if permits s (tenReq c.fn unit) a n false && (cwsOf a n).all (fun w => !unreadable s w)
  then some (memBytes s a n) else none

/-- A bundle's extents: parameter, address, bytes and direction of each device range that check 5 tests. -/
structure Extent where
  k    : Nat
  addr : Nat
  n    : Nat
  wr   : Bool
  deriving DecidableEq, Repr

def shapeBytes (s : State) (a : Nat) : Nat := 32 + 4 * min 131072 (fld (memBytes s a 4) 0 4)
def epochBytes (s : State) (a : Nat) : Nat := 16 + 8 * min 1024 (fld (memBytes s (a + 4) 2) 0 2)

/-- The unit that reads and writes for an operation (R224). -/
def opUnit (o : Op) : Nat :=
  match (opRow o).cls with
  | 5 => 0x210
  | 8 => 0x211
  | 9 => 0x211
  | 7 => 0x212
  | 6 => if (opRow o).code < 9 then 0x213 else 0x202
  | _ => if o = .crypt then 0x214 else 0x200

/-- The communicator that a collective names; an ALL_REDUCE's extents need none. -/
def commView (s : State) (c : Cmd) (o : Op) : Option Comm :=
  match s.comm (tkey c.fn (c.p 0)) with
  | some cm => some cm
  | none => if o = .allReduce then some { ranks := 1, rank := 0, map := 0 } else none

/-- SRC and DST of a collective whose communicator is there at the take (R259). -/
def collExts (s : State) (c : Cmd) (o : Op) : List Extent :=
  match commView s c o with
  | some cm =>
    let (i, j, _) := collParams o
    [⟨i, (collSrc c o cm).1, (collSrc c o cm).2, false⟩, ⟨j, (collDst c o cm).1, (collDst c o cm).2, true⟩]
  | none => []

/-- What is illegal of a collective whose communicator is there at the take: an overlap, or a ROOT that is no rank (R213, R259). -/
def collBad (s : State) (c : Cmd) (o : Op) : List (Nat × Bool) :=
  match commView s c o with
  | some cm => [((collParams o).1, collOverlap c o cm), (1, o == .broadcast && decide (cm.ranks ≤ c.p 1))]
  | none => []

/-- What stops a MOVE whose layouts and communicator are there at the take (R291): the status and the parameter. -/
def moveSeen (s : State) (c : Cmd) (l : Bytes) : Option (Nat × Nat) :=
  if layoutCode s c.fn (c.p 0) = 0 ∨ layoutCode s c.fn (c.p 1) = 0 then none
  else match s.comm (tkey c.fn (layoutAt s c.fn (c.p 0)).comm) with
    | some cm => moveBad s c l cm
    | none => none

/-- The records and extents whose addresses an operation's parameters give: every one is granted to the tenant or the command fails check
5 (R42, R199). -/
def extents (s : State) (c : Cmd) (o : Op) : List Extent :=
  let at_ (k n : Nat) (wr : Bool) : Extent := ⟨k, c.p k, n, wr⟩
  match o with
  | .copy => [at_ 0 (c.p 2) false, at_ 1 (c.p 2) true]
  | .fill => [at_ 0 (c.p 1) true]
  | .crypt => [at_ 2 (c.p 4) false, at_ 3 (c.p 4) true, at_ 5 64 (c.p 0 == 0)]
  | .imemLoad => [at_ 3 (c.p 1) false]
  | .modChain | .moveChain => [⟨2, strataBase + c.p 2, 64 * c.p 1, false⟩]
  | .syncEpoch => [at_ 0 (epochBytes s (c.p 0)) false]
  | .vmap => if c.p 1 = 0 then [] else [at_ 2 (8 * c.p 1) false]
  | .commCreate => [at_ 3 (8 * c.p 1) false]
  | .rulesCommit => [at_ 1 (16 + 64 * c.p 0) false]
  | .patternsLoad => if c.p 1 = 0 then [] else [at_ 2 (64 * c.p 1) false]
  | .streamOpen => [at_ 2 (c.p 3) true]
  | .ftRingCreate => [at_ 3 (64 * 2 ^ c.p 1) false, at_ 4 (32 * 2 ^ c.p 1) true]
  | .ftRqBind => [at_ 5 (2 ^ (c.p 1 + c.p 2)) true, at_ 6 (32 * 2 ^ c.p 1) true, at_ 7 8 false]
  | .save => [at_ 3 (64 + 32 * c.p 1) false]
  | .restore => [at_ 2 (shapeBytes s (c.p 2)) false]
  | .rankTake => [at_ 1 (shapeBytes s (c.p 1)) false]
  | .layoutDefine => [at_ 1 64 false]
  | .allReduce | .reduceScatter | .allGather | .broadcast | .allToAll => collExts s c o
  | .reshardMove => if c.p 2 = 0 then [] else [at_ 3 (32 * c.p 2) false]
  | .traceSet => [at_ 0 64 false]
  | _ => []

/-- The parameters that say where the record of an operation lies and how long it is. -/
def recKeys (o : Op) : List Nat :=
  match o with
  | .crypt => [5]
  | .syncEpoch | .traceSet => [0]
  | .commCreate => [1, 3]
  | .rulesCommit => [0, 1]
  | .patternsLoad => [0, 1, 2]
  | .gatesLoad => [1, 2]
  | .save => [1, 3]
  | .restore => [2]
  | .rankTake | .layoutDefine => [1]
  | .reshardMove => [2, 3]
  | _ => []

/-- The record that check 3 and check 4 look into: its parameter and its bytes. -/
def opRecord (s : State) (c : Cmd) (o : Op) : Option (Nat × Bytes) :=
  let get (k n : Nat) : Option (Nat × Bytes) := (record s c (opUnit o) (c.p k) n).map fun b => (k, b)
  match o with
  | .crypt => get 5 64
  | .syncEpoch => get 0 (epochBytes s (c.p 0))
  | .commCreate => get 3 (8 * c.p 1)
  | .rulesCommit => get 1 (16 + 64 * c.p 0)
  | .patternsLoad => get 2 (64 * c.p 1)
  | .gatesLoad => some (2, memBytes s (c.p 2) (8 * c.p 1))
  | .save => get 3 (64 + 32 * c.p 1)
  | .restore => get 2 (shapeBytes s (c.p 2))
  | .rankTake => get 1 (shapeBytes s (c.p 1))
  | .layoutDefine => get 1 64
  | .reshardMove => get 3 (32 * c.p 2)
  | .traceSet => get 0 64
  | _ => none

def allOf (n : Nat) (p : Nat → Bool) : Bool := (List.range n).all p
def anyOf (n : Nat) (p : Nat → Bool) : Bool := (List.range n).any p

/-- Entry r of a rank table has a nonzero reserved bit (R258). -/
def rankReserved (b : Bytes) (r : Nat) : Bool := decide (2 ^ 20 ≤ fld b (8 * r) 4) || fld b (8 * r + 4) 4 != 0

/-- Reserved bytes of an entry of a save list (R270). -/
def entryReserved (e : Bytes) : Bool :=
  let kind := fld e 0 1
  fld e 1 1 != 0 || fld e 26 6 != 0 || ((kind == 1 || kind == 2) && fld e 2 2 != 0)
    || (kind == 3 && (fld e 8 8 != 0 || fld e 16 8 != 0))

/-- A reserved field of the operation's record is not zero (check 3). (DEDUCED, log entry 47.) -/
def recReserved (c : Cmd) (o : Op) (b : Bytes) : Bool :=
  match o with
  | .crypt =>
    if c.p 0 < 2 then fld b 12 4 != 0 || !allZero (slice b 48 16) || decide (2 ^ 52 ≤ fld b 16 8)
    else fld b 20 4 != 0 || !allZero (slice b 24 40)
  | .syncEpoch => fld b 6 2 != 0 || fld b 12 4 != 0 || anyOf (fld b 4 2) fun i => fld b (19 + 8 * i) 1 != 0 || fld b (23 + 8 * i) 1 != 0
  | .commCreate => anyOf (c.p 1) (rankReserved b)
  | .rulesCommit => !allZero (slice b 1 15)
  | .patternsLoad => anyOf (c.p 1) fun i =>
      let e := slice b (64 * i) 64
      fld e 1 3 != 0 || !allZero (slice e 8 8) || !allZero (slice e 48 16)
  | .gatesLoad => anyOf (c.p 1) fun i => fld b (8 * i + 1) 3 != 0
  | .save => fld b 3 1 != 0 || !allZero (slice b 16 48) || anyOf (c.p 1) fun i => entryReserved (slice b (64 + 32 * i) 32)
  | .layoutDefine => fld b 3 1 != 0 || fld b 6 2 != 0 || !allZero (slice b 52 12)
  | .reshardMove => anyOf (c.p 2) fun i => !allZero (slice b (32 * i + 20) 12)
  | .traceSet => decide (2 ^ 10 ≤ fld b 0 4) || decide (4 ≤ fld b 10 1) || !allZero (slice b 11 53)
  | _ => false

/-- An entry of the pattern table is legal (R356): bits of CARE and BYTES at LEN and above are zero. -/
def patternLegal (e : Bytes) : Bool :=
  let n := fld e 0 1
  decide (n ≤ 32) && fld e 4 4 >>> n == 0 && allZero (slice e (16 + n) (32 - n))

/-- An entry of a save list is legal (R270). -/
def entryLegal270 (e : Bytes) : Bool :=
  let n := fld e 16 8
  match fld e 0 1 with
  | 1 => decide (1 ≤ n) && decide (n ≤ 2 ^ 40) && decide (fld e 8 8 < 2 ^ 52)
  | 2 => n % 32 == 0 && decide (n ≤ 2 ^ 20) && fld e 8 8 % 32 == 0 && fld e 24 2 == 0xFFFF && decide (fld e 8 8 < 2 ^ 52)
  | 3 => decide (fld e 2 2 < 256) && fld e 24 2 == 0xFFFF
  | _ => false

/-- A shape record is legal (R286): the axis sizes multiply to RANKS and the coordinates are a permutation. -/
def shapeLegal (b : Bytes) : Bool :=
  let n := fld b 0 4
  let d := fld b 4 1
  let axes := (List.range 4).map fun i => fld b (8 + 2 * i) 2
  decide (1 ≤ n) && decide (n ≤ 131072) && decide (1 ≤ d) && decide (d ≤ 4) && fld b 5 3 == 0 && allZero (slice b 16 16)
    && (axes.take d).foldl (· * ·) 1 == n && (axes.drop d).all (· == 0)
    && (let cs := (List.range n).map fun r => fld b (32 + 4 * r) 4
        cs.all (· < n) && allOf n fun x => cs.contains x)

/-- A layout descriptor is legal (R289): its communicator is READY and its mesh multiplies to the communicator's RANKS. -/
def layoutLegal (s : State) (t : Nat) (b : Bytes) : Bool :=
  let l := layoutOf b
  let comm := s.comm (tkey t l.comm)
  decide (1 ≤ l.ndimT) && decide (l.ndimT ≤ 4) && decide (1 ≤ l.ndimM) && decide (l.ndimM ≤ 4) && [8, 9, 10, 11].contains l.fmt
    && decide (l.comm < 256) && commCode s (tkey t l.comm) == 1
    && allOf 4 (fun d =>
      let (e, k, a) := (l.ext.getD d 0, l.blk.getD d 0, l.axis.getD d 0)
      if d < l.ndimT then decide (1 ≤ e) && decide (1 ≤ k) && decide (k ≤ e) && (a == 0xFF || (decide (a < l.ndimM)
          && allOf d fun j => l.axis.getD j 0 != a))
      else e == 0 && k == 0 && a == 0xFF)
    && allOf 4 (fun k => decide (l.ndimM ≤ k) || decide (1 ≤ l.mesh.getD k 0))
    && (match comm with | some m => (l.mesh.take l.ndimM).foldl (· * ·) 1 == m.ranks | none => false)

/-- The record breaks its table (check 4). (DEDUCED, log entry 47.) -/
def recBad (s : State) (c : Cmd) (o : Op) (b : Bytes) : Bool :=
  match o with
  | .crypt =>
    let u := fld b 16 4
    if c.p 0 < 2 then decide (2 ^ 32 ≤ fld b 24 8)
    else u % 16 != 0 || decide (u < 16) || decide (2 ^ 24 < u) || (c.p 4 % u != 0 && decide (c.p 4 % u < 16))
  | .syncEpoch =>
    let n := fld b 4 2
    let ids := (List.range n).map fun i => translate s (fnBind s c.fn) (fld b (16 + 8 * i) 3)
    fld b 0 4 != (s.reg .syncEpoch 0 c.fn + 1) % 2 ^ 32 || n == 0 || decide (1024 < n)
      || ids.any (fun x => match x with | .remote _ _ => true | _ => false)
      || anyOf n fun i => match ids.getD i .none with | .phys p => anyOf i fun j => ids.getD j .none == .phys p | _ => false
  | .commCreate => fld b (8 * c.p 2) 4 != myFdid s
  | .rulesCommit => anyOf (c.p 0) fun i => (ruleBad (slice b (16 + 64 * i) 64)).isSome
  | .patternsLoad => anyOf (c.p 1) fun i => !patternLegal (slice b (64 * i) 64)
  | .gatesLoad =>
    let es := gateEntries b (c.p 1)
    es.any (fun e => decide (e.2 < 100) || decide (10 ^ 9 < e.2)) || decide (10 ^ 9 < (es.map (·.2)).sum)
  | .save =>
    decide (1023 < fld b 0 2) || decide (7 < fld b 2 1) || fld b 8 8 == 0 || (maskPools (fld b 8 8)).any (fun p => decide ((poolsOf s c.fn).length ≤ p))
      || (anyOf (c.p 1) fun i => !entryLegal270 (slice b (64 + 32 * i) 32))
      || decide (4096 < ((List.range (c.p 1)).map fun i => (entryShards (slice b (64 + 32 * i) 32)).length).sum)
      || (decide (0 < fld b 4 4) && decide (fld b 4 4 < 2 ^ 24))
  | .restore => !shapeLegal b
  | .rankTake => !shapeLegal b
  | .layoutDefine => !layoutLegal s c.fn b
  | .traceSet => fld b 8 2 == 0
  | .reshardMove => (moveSeen s c b).any fun e => e.1 == stInvalid
  | _ => false

/-! ### Check 4: parameters -/

def rng (lo hi x : Nat) : Bool := decide (lo ≤ x) && decide (x ≤ hi)
def vecOk (v : Nat) : Bool := decide (v ≤ 2047) || v == 0xFFFF

/-- ASSIGN's fields (R441). (DEDUCED, log entry 89.) -/
def assignBad (c : Cmd) : List (Nat × Bool) :=
  let (kind, world, index, ten) := (c.p 0, c.p 1, c.p 2, c.p 3)
  [(0, !rng 1 5 kind), (1, decide (1 < world) || (kind == 4 && world == 0)),
   (2, match kind with
     | 1 => decide (31 < index)
     | 2 => decide (15 < index)
     | 3 => index != 0
     | 4 => decide (1 < index)
     | 5 => !([0x0C, 0x0A, 0x0E, 0x09].contains index)
     | _ => false),
   (3, if kind = 5 ∨ world = 0 then ten != 0xFF else decide (15 < ten))]

/-- SQ_CREATE's two forms (R404). -/
def sqBad (c : Cmd) : List (Nat × Bool) :=
  let host := c.p 2 != 0
  [(0, decide (15 < c.p 0)), (1, if host then !vecOk (c.p 1) else c.p 1 != 0xFFFF), (2, c.p 2 % 4096 != 0),
   (3, if host then c.p 3 % 4096 != 0 else decide (15 < c.p 3))]

/-- A reduction's fields (R213, R256). -/
def reduceBad (c : Cmd) : List (Nat × Bool) :=
  [(0, decide (255 < c.p 0)), (1, decide (2 < c.p 1)), (2, !([9, 10, 11].contains (c.p 2) || (c.p 2 == 12 && c.p 1 == 0))),
   (3, decide (2 < c.p 3)), (4, c.p 1 != 0 && c.p 4 != 0)]

/-- The parameters of an operation, by index, that lie outside the ranges its table names. (DEDUCED, log entry 44; DEDUCED, log entry 46.) -/
def paramBad (s : State) (c : Cmd) (o : Op) : List (Nat × Bool) :=
  let p := c.p
  let le (k hi : Nat) : Nat × Bool := (k, decide (hi < p k))
  let within (k lo hi : Nat) : Nat × Bool := (k, !rng lo hi (p k))
  let aligned (k n : Nat) : Nat × Bool := (k, p k % n != 0)
  let strata (k : Nat) : Nat × Bool := (k, p k % 64 != 0 || decide (2 ^ 29 ≤ p k))
  match o with
  | .hello => [within 3 1 60000, le 4 1]
  | .identify => [le 0 1]
  | .fwUpdate => [le 2 1]
  | .qpCreate => [within 0 1 (if 16 ≤ c.fn then 7 else 63), within 1 4 12, le 2 3, (3, !vecOk (p 3)), aligned 4 4096, aligned 5 4096]
  | .qpDelete => [(0, p 0 == 0)]
  | .regionCreate => match regionBad s (p 0) (p 1) (p 2) (p 3) with | some k => [(k, true)] | none => []
  | .copy => [within 2 1 (2 ^ 40)]
  | .fill => [within 1 1 (2 ^ 40)]
  | .windowMap => [le 0 4096, (1, decide (4096 < p 0 + p 1)), aligned 2 (2 ^ 21)]
  | .crypt =>
    [le 0 3, le 1 1023, (3, p 2 != p 3 && overlaps (p 2) (p 4) (p 3) (p 4)), (4, if p 0 < 2 then decide (2 ^ 36 - 32 < p 4) else p 4 == 0),
     aligned 5 32]
  | .imemLoad => [(0, decide (0x10F < p 0)), (1, decide (65536 < p 1)), (2, decide (65536 < p 1 + p 2))]
  | .coresRun => [(0, decide (31 < p 0) && p 0 != 0x80), (1, decide (p 0 ≤ 31) && decide (0xFF < p 1))]
  | .modChain => [le 0 63, within 1 1 255, strata 2]
  | .moveChain => [le 0 31, within 1 1 255, strata 2]
  | .lockForm => [le 0 31, (1, p 1 == 0)]
  | .lockStart => [le 0 31]
  | .lockDissolve => [le 0 31]
  | .lodeReset => [le 0 31]
  | .lodeHold => [le 0 31, le 1 1]
  | .syncSignal => [le 0 0xFFFFFF, within 1 1 0xFFFFFF]
  | .syncWait => [le 0 0xFFFFFF, within 1 1 0xFFFFFF]
  | .syncRead => [le 0 0xFFFFFF]
  | .syncSet => [le 0 0xFFFFFF, le 1 0xFFFFFE]
  | .vmap => [le 0 255]
  | .commCreate => [le 0 255, within 1 1 131072, (2, decide (p 1 ≤ p 2))]
  | .commDestroy => [le 0 255]
  | .allReduce | .reduceScatter => reduceBad c ++ collBad s c o
  | .allGather | .broadcast | .allToAll => le 0 255 :: collBad s c o
  | .portMode => [le 0 7, le 1 2]
  | .rulesCommit => [within 0 1 16384]
  | .patternsLoad => [(1, decide (256 < p 0 + p 1))]
  | .streamOpen => [le 0 255, aligned 2 4096, (3, p 3 % 4096 != 0 || decide (p 3 < 65536))]
  | .streamClose => [le 0 255]
  | .gatesLoad => [(0, decide (31 < p 0) || !macUsed s (p 0)), within 1 1 256]
  | .shaperSet => [(0, decide (31 < p 0) || !macUsed s (p 0)), le 1 7, within 2 64 16777216, (3, p 3 != 0 && !rng (10 ^ 6) (8 * 10 ^ 11) (p 3))]
  | .policerSet =>
    [le 0 15, le 1 1, within 2 9216 (2 ^ 31), le 3 (8 * 10 ^ 11), (4, decide (8 * 10 ^ 11 < p 4) || decide (p 4 < p 3)), within 5 9216 (2 ^ 31)]
  | .ftRingCreate => [le 0 15, within 1 4 12, le 2 0xFFFFFF, aligned 3 4096, aligned 4 4096]
  | .ftRingDelete => [le 0 15]
  | .ftRqBind => [le 0 15, within 1 1 12, within 2 12 20, (3, p 3 != 0xFFFFFFFF && decide (0xFFFFF < p 3)), aligned 7 8]
  | .ftRqUnbind => [le 0 15]
  | .sqCreate => sqBad c
  | .sqDelete => [le 0 15]
  | .volCreate => [le 0 1023, within 1 1 15, (2, p 2 == 0 || p 2 % 64 != 0)]
  | .volDelete => [le 0 1023]
  | .volBind => [le 0 1023, (1, decide (15 < p 1) && p 1 != 0xFF)]
  | .driveInfo => [le 0 3]
  | .poolAdd => [(0, p 0 == myFdid s || decide (0xFFFFF < p 0)), (2, p 2 % 2 ^ 22 != 0 || decide (p 2 < 2 ^ 23))]
  | .save => [le 0 1, within 1 1 16384]
  | .restore => [le 0 1]
  | .drain => [le 0 1, le 1 1023]
  | .slotStatus => [le 0 1]
  | .rankTake => [(0, match record s c 0x211 (p 1) 4 with | some b => decide (fld b 0 4 ≤ p 0) | none => false)]
  | .layoutDefine => [le 0 255]
  | .layoutDrop => [le 0 255]
  | .reshardMove => [le 0 255, le 1 255]
  | .assign => assignBad c
  | .keyLoad => [le 0 1023]
  | .keyErase => [le 0 1023]
  | .countersRead => [(0, decide (3 < p 0) && !rng 0x10 0x1F (p 0))]
  | .logRing => [within 0 4 16, (1, !vecOk (p 1)), aligned 2 4096]
  | .opPoint => [le 0 1]
  | .lodePower => [le 0 31, le 1 1]
  | .clockLock => [le 0 1]
  | .deep => [le 0 1]
  | _ => []

/-- Addresses cut to the widths of R192, and a SYNC parameter of the form of R85: an increment of zero only with the identifier zero. -/
def typeBad (c : Cmd) (o : Op) (k : Nat) : Bool :=
  match (opRow o).params.getD k .u8 with
  | .haddr => decide (2 ^ 50 ≤ c.p k)
  | .daddr => decide (2 ^ 52 ≤ c.p k)
  | .addr => decide (2 ^ 52 ≤ c.p k)
  | _ => false

/-- The index of an operation's SYNC parameter (R207). -/
def syncParam (o : Op) : Option Nat :=
  match o with
  | .crypt => some 6
  | .allReduce => some 8
  | .reduceScatter => some 8
  | .allGather => some 4
  | .broadcast => some 5
  | .allToAll => some 4
  | .reshardMove => some 4
  | .ftRqBind => some 4
  | _ => none

def syncBad (c : Cmd) (o : Op) : List (Nat × Bool) :=
  match syncParam o with
  | some k => [(k, decide (0 < c.p k) && decide (c.p k < 2 ^ 24))]
  | none => []

/-- The byte offsets within the command at which check 4 fails. (DEDUCED, log entry 44; DEDUCED, log entry 45.) -/
def check4 (s : State) (c : Cmd) (o : Op) : List Nat :=
  let sess := s.reg .cmdSession c.fn
  let body := c.bytes.length - (if bit (c.u 2 1) 1 then 8 else 0)
  let ps := (paramBad s c o ++ syncBad c o ++ (List.range (opRow o).params.length).map (fun k => (k, typeBad c o k))).filter (·.2)
  (if sess % 4 = 1 ∧ c.u 4 1 ≠ bits sess 15 8 then [4] else []) ++ (if sess % 4 = 1 ∧ c.u 5 1 ≠ bits sess 23 16 then [5] else [])
    ++ (if c.u 8 2 % 64 ≠ c.q then [8] else [])
    ++ (if c.bytes.length ≠ 64 * (c.u 3 1 % 64 + 1) ∨ body < 16 + paramEnd 0 (opRow o).params then [3] else [])
    ++ ps.map (fun (k, _) => paramOff o k)

/-- The lowest of some offsets. -/
def least : List Nat → Option Nat
  | [] => none
  | x :: t => match least t with | some y => some (min x y) | none => some x

/-! ### Check 3: reserved bytes -/

/-- A byte of the parameter area that some parameter covers. -/
def covered (o : Op) (i : Nat) : Bool :=
  let row := opRow o
  ((paramOffs 0 row.params).zip row.params).any fun (a, t) => decide (a ≤ i) && decide (i < a + t.size)

/-- The byte offsets within the command at which check 3 fails. -/
def check3 (c : Cmd) (o : Op) : List Nat :=
  let nz (i m : Nat) : List Nat := if c.u i 1 &&& m ≠ 0 then [i] else []
  let stop := c.bytes.length - (if bit (c.u 2 1) 1 then 8 else 0)
  nz 2 0xFC ++ nz 3 0xC0 ++ nz 6 0xF0 ++ nz 7 0xFF ++ nz 8 0xC0 ++ nz 9 0xFF ++ nz 12 0xFF ++ nz 13 0xFF ++ nz 14 0xFF ++ nz 15 0xFF
    ++ (List.range (stop - 16)).filterMap fun i => if !covered o i && c.u (16 + i) 1 != 0 then some (16 + i) else none

/-! ### Check 5: who may issue it, and what it names -/

/-- The function may issue the operation (R206). -/
def issuerOk (o : Op) (fn : Nat) : Bool :=
  match (opRow o).issuer with
  | .any => true
  | .mgmt => decide (16 ≤ fn)
  | .tenant => decide (fn < 16)

/-- The device block whose registers and commands an ASSIGN may take from world N (R441). -/
def blockShut (s : State) (o : Op) : Bool :=
  match (opRow o).cls with
  | 6 => tget 0 s.own.devs 0x0C == 0
  | 7 => tget 0 s.own.devs 0x0E == 0
  | _ => false

/-- A group that another tenant formed. -/
def grpForeign (s : State) (g t : Nat) : Bool := (s.grp g).st != .free && (s.grp g).tenant != t

def streamForeign (s : State) (st t : Nat) : Bool := match (s.stream st).owner with | some x => x != t | none => false

/-- The tenant may load an entry of the pattern table (R356). -/
def patForeign (s : State) (i t : Nat) : Bool := let o := tget 0 s.net.patOwner i; o != 0 && o != t + 1

/-- Counters that a command names by a COUNTER parameter, and whether a remote one serves. -/
def counterParam (o : Op) : Option (Nat × Bool) :=
  match o with
  | .syncSignal => some (0, true)
  | .syncWait => some (0, false)
  | .syncRead => some (0, false)
  | .syncSet => some (0, false)
  | .ftRingCreate => some (2, false)
  | _ => none

def xlDenied (x : Xl) (remote : Bool) : Bool :=
  match x with
  | .none => true
  | .remote _ _ => !remote
  | _ => false

/-- Objects of an operation that do not belong to the tenant: the parameter that names the first. -/
def objDenied (s : State) (c : Cmd) (o : Op) : List (Nat × Bool) :=
  let mine (n : Nat) : Bool := lodeOwner s n == c.fn + 1
  match o with
  | .regionCreate => [(0, !rangeOwned s c.fn (c.p 0) (c.p 1))]
  | .regionRevoke => let g := s.region (keyEntry (c.p 0)); [(0, g.st != 0 && g.key == c.p 0 && !(g.world && g.tenant == c.fn))]
  | .imemLoad => [(0, coreOwner s (c.p 0) != c.fn + 1)]
  | .coresRun => if c.p 0 = 0x80 then [(1, (runCores c).any fun k => coreOwner s k != c.fn + 1)] else [(0, !mine (c.p 0))]
  | .crypt => [(1, (slotNo s c.fn (c.p 1) (cryptMode (c.p 0))).isSome)]
  | .modChain => [(0, !mine (c.p 0 / 2))]
  | .moveChain => [(0, !mine (c.p 0))]
  | .lockForm => [(1, anyOf 32 fun n => bit (c.p 1) n && !mine n)]
  | .lockStart => [(0, grpForeign s (c.p 0) c.fn)]
  | .lockDissolve => [(0, grpForeign s (c.p 0) c.fn)]
  | .lodeReset => [(0, !mine (c.p 0))]
  | .lodeHold => [(0, !mine (c.p 0))]
  | .lodePower => [(0, !mine (c.p 0))]
  | .vmap => [(0, ctxForeign s (c.p 0) c.fn)]
  | .streamOpen => [(0, streamForeign s (c.p 0) c.fn)]
  | .streamClose => [(0, streamForeign s (c.p 0) c.fn)]
  | .patternsLoad => [(0, anyOf (c.p 1) fun i => patForeign s (c.p 0 + i) c.fn)]
  | .countersRead => [(0, match c.p 0 with | 0 => false | 1 => decide (16 ≤ c.fn) | _ => decide (c.fn < 16))]
  | _ => []

/-- What the records of an operation name that is not the tenant's. (DEDUCED, log entry 47.) -/
def recDenied (s : State) (c : Cmd) (o : Op) (b : Bytes) : Bool :=
  match o with
  | .rulesCommit => anyOf (c.p 0) fun i =>
      let r := slice b (16 + 64 * i) 64
      (fld r 2 1 == 2 && (s.stream (fld r 4 2)).owner != some c.fn) || (fld r 6 1 != 0xFF && !patLoaded s c.fn (fld r 6 1))
  | .syncEpoch => anyOf (fld b 4 2) fun i => match translateFor s (c.fn + 1) (fnBind s c.fn) (fld b (16 + 8 * i) 3) with
      | .none => true
      | _ => false
  | .save => !keyServes s c.fn (fld b 0 2)
      || (fld b 4 4 != 0 && xlDenied (translateFor s (c.fn + 1) (fnBind s c.fn) (fld b 4 3)) true)
      || anyOf (c.p 1) fun i =>
      let e := slice b (64 + 32 * i) 32
      (fld e 0 1 == 3 && streamForeign s (fld e 2 2) c.fn)
        || (fld e 0 1 != 3 && fld e 16 8 != 0 && !permits s (tenReq c.fn 0x211) (fld e 8 8) (fld e 16 8) false)
  | .traceSet => anyOf 32 fun n => bit (fld b 4 4) n && lodeOwner s n != c.fn + 1
  | .reshardMove => (moveSeen s c b).any fun e => e.1 == stDenied
  | _ => false

/-- The signals of an operation that do not translate (R220). -/
def syncDenied (s : State) (c : Cmd) (o : Op) : List (Nat × Bool) :=
  (match syncParam o with
    | some k => [(k, c.p k != 0 && xlDenied (translateFor s (c.fn + 1) (fnBind s c.fn) (bits (c.p k) 23 0)) true)]
    | none => [])
  ++ (match counterParam o with
    | some (k, r) => [(k, xlDenied (translateFor s (c.fn + 1) (fnBind s c.fn) (c.p k)) r)]
    | none => [])

/-- Test the extents in parameter order; a refusal is reported (R42, R424). (DEDUCED, log entry 70.) -/
def extentsOk (c : Cmd) (o : Op) : List Extent → State → Option Nat × State
  | [], s => (none, s)
  | e :: t, s =>
    if e.n = 0 then extentsOk c o t s
    else match mayReach c.fn e.addr e.n e.wr (opUnit o) s with
      | (true, s) => extentsOk c o t s
      | (false, s) => (some (paramOff o e.k), s)

/-- Check 5: the byte offset of the failing field, 0 for TENANT, the function or the block. -/
def check5 (c : Cmd) (o : Op) (s : State) : Option Nat × State :=
  if c.u 6 1 ≠ (if c.fn < 16 then c.fn else 0) ∨ !issuerOk o c.fn ∨ blockShut s o then (some 0, s)
  else
    let named := (objDenied s c o ++ syncDenied s c o).filter (·.2)
    match least (named.map fun (k, _) => paramOff o k) with
    | some w => (some w, s)
    | none =>
      match extentsOk c o (extents s c o) s with
      | (some w, s) => (some w, s)
      | (none, s) => match opRecord s c o with
        | some (k, b) => if recDenied s c o b then (some (paramOff o k), s) else (none, s)
        | none => (none, s)

/-! ### The end of a region's drain (R314, R395) -/

/-- Device addresses that a started command uses until it ends: a collective's and a MOVE's extents. -/
def jobRanges (s : State) (j : CollJob) : List (Nat × Nat) :=
  match findCmd s j.id, s.comm (tkey j.tenant j.comm) with
  | some c, some cm => match cmdOp c with
    | some .reshardMove =>
      let (src, dst) := moveExtents (layoutAt s c.fn (c.p 0)) (layoutAt s c.fn (c.p 1)) cm.rank j.list
      src ++ dst
    | some o => [collSrc c o cm, collDst c o cm]
    | none => []
  | _, _ => []

/-- Those of a save, and of a restore with its staging area. -/
def saveRanges (s : State) (t : Nat) (l : Bytes) (stage : Nat) : List (Nat × Nat) := restRefused s t stage l

/-- Local operations accepted under a region that have not completed (R314): engine, mover and cipher operations, collectives, moves of
shards, saves, restores, storage commands and messages being sent, whose extents touch it. (DESIGN CHOICE, log entry 88.) -/
def regionBusy (s : State) (g : Region) : Bool :=
  let hits (a n : Nat) : Bool := overlaps a n g.base g.bytes
  let any_ (l : List (Nat × Nat)) : Bool := l.any fun e => e.2 != 0 && hits e.1 e.2
  (s.eng.any fun (n, e) => match e.op with
    | some o => !o.refused && (opExts s n (modFields o.mod.bytes)).any fun x => x.rowHit g.base g.bytes
    | none => false)
  || s.lodes.any (fun (_, l) => l.movers.any fun (_, m) => match m with
      | some o => let x := mvFields o.mv.bytes; (x.op != 0 && x.dstExt.rowHit g.base g.bytes) || (x.op == 1 && x.srcExt.rowHit g.base g.bytes)
      | none => false)
  || s.sec.ctxs.any (fun o => any_ [(o.src, o.bytes), (o.dst, o.bytes), (o.descAt, 64)])
  || s.ckpt.colls.any (fun j => any_ (jobRanges s j))
  || s.ckpt.saves.any (fun x => any_ (saveRanges s x.tenant x.list (stageNeed (x.shards.map (·.bytes)))))
  || s.ckpt.rests.any (fun x => any_ (saveRanges s x.tenant (manList x.man) (stageNeed (manSizes x.man))))
  || s.sto.ops.any (fun o => !o.ended && !isHost o.buf && hits o.buf (o.count * 4096))
  || s.ft.msgs.any (fun (_, m) => match m with | some m => m.data.isNone && hits m.laddr m.len | none => false)

/-- The drain ends: no admitted message and no local operation is left; the entry becomes ABSENT and the revoke replies (R395). -/
def execRegionDrainEnd (e : Nat) (s : State) : Res :=
  run (e < 8192) s fun s =>
    let g := s.region e
    if g.st ≠ 2 ∨ g.uses ≠ 0 ∨ regionBusy s g then s
    else
      let s := { s with own := { s.own with tableBad := tdel s.own.tableBad e } }.setRegion e { gen := (g.gen + 1) % 256 }
      match g.cmd with
      | some id => finish0 id stOk s
      | none => s

/-- The result words of a failing rank table: the parameter and the rank of the failing entry (R258). -/
def rankWord (c : Cmd) (o : Op) (b : Bytes) (res : Bool) : Nat :=
  if o = .commCreate then (if res then ((List.range (c.p 1)).find? (rankReserved b)).getD 0 else c.p 2) else 0

/-- W1 of a command refused for the key slot it names: the slot's state code (R455). -/
def keyWord (s : State) (c : Cmd) (o : Op) (w : Nat) : Nat :=
  match o with
  | .crypt => if w = paramOff o 1 then (slotNo s c.fn (c.p 1) (cryptMode (c.p 0))).getD 0 else 0
  | .save => if w = paramOff o 3 then (ckptKeyNo s c.fn (fld (memBytes s (c.p 3) 2) 0 2)).getD 0 else 0
  | _ => 0

/-- CMD[i].BUNDLE: the running bundle's version; 0 with no firmware or where no session is possible (R189, R484, R486). -/
def bundleNow (s : State) : Nat :=
  if s.power.noFirmware || s.power.noSession then 0 else match s.sec.image with | some m => m.version % 2 ^ 32 | none => 0

/-- Checks 1 to 5 of R199: none where they pass, or the status with W0 and W1. (DEDUCED, log entry 70.) -/
def takeCheck (c : Cmd) (s : State) : Option (Nat × Nat × Nat) × State :=
  match cmdOp c with
  | none => (some (stBadOpcode, 0, 0), s)
  | some o =>
    let sess := s.reg .cmdSession c.fn
    if sess % 4 ≠ 1 ∧ !(opRow o).inHold then (some (stVersionHold, s.reg .cmdDevRange c.fn, bundleNow s), s)
    else
      let bad := (paramBad s c o ++ (recKeys o).map fun k => (k, typeBad c o k)).filter (·.2)
      let rec_ := if (recKeys o).all fun k => bad.all fun e => e.1 != k then opRecord s c o else none
      let off := match rec_ with | some (k, _) => paramOff o k | none => 0
      let recIs (p : Bytes → Bool) : List Nat := match rec_ with | some (_, b) => if p b then [off] else [] | none => []
      let word (w : Nat) (res : Bool) : Nat := match rec_ with | some (_, b) => if w = off then rankWord c o b res else 0 | none => 0
      match least (check3 c o ++ recIs (recReserved c o)) with
      | some w => (some (stReserved, w, word w true), s)
      | none =>
        match least (check4 s c o ++ recIs (recBad s c o)) with
        | some w => (some (stInvalid, w, word w false), s)
        | none => match check5 c o s with
          | (some w, s) =>
            match (extents s c o).find? fun e => e.n != 0 && paramOff o e.k == w && tableUe s (tenReq c.fn (opUnit o)) e.addr e.n with
            | some e => (some (stUncorr, e.addr % 2 ^ 32, e.addr / 2 ^ 32), s)
            | none => (some (stDenied, w, keyWord s c o w), s)
          | (none, s) => (none, s)

end Sys2Proof.Machine
end

