-- ==== Sys2Proof/Machine/Efesh.lean ====
section
/-! DEFINITION. The command engine: queue pairs, doorbells, takes, dispatch, replies and the ADMIN commands (R183 to R218, R239 to R241,
R434 to R436). -/
namespace Sys2Proof.Machine

open Sys2Proof

def State.qp (s : State) (fn q : Nat) : QPair := if q < 64 then tget {} s.cmd.qps (fn * 64 + q) else {}
def State.setQp (s : State) (fn q : Nat) (x : QPair) : State :=
  { s with cmd := { s.cmd with qps := tput {} s.cmd.qps (fn * 64 + q) x } }

/-- The session of a function is OPEN (R205). -/
def sessOpen (s : State) (fn : Nat) : Bool := s.reg .cmdSession fn % 4 == 1

/-- The version of a function's session: minor at bits [7:0], major at [15:8]. -/
def sessVer (s : State) (fn : Nat) : Nat := bits (s.reg .cmdSession fn) 23 8

/-- The heartbeat interval of an OPEN session begins again (R434). -/
def restartHb (fn : Nat) (s : State) : State :=
  if sessOpen s fn then s.setHost fn { s.host fn with hbDue := some (s.tb.ticks + (tget {} s.cmd.sessions fn).hbMs * msTicks) } else s

/-- Commands of a queue pair that have not replied. -/
def unreplied (s : State) (fn q : Nat) : List Cmd := s.cmd.cmds.filter fun c => c.fn == fn && c.q == q

/-- A completion slot is free beyond the replies written and the commands taken (R187). (DEDUCED, log entry 56.) -/
def slotFree (s : State) (fn q : Nat) : Bool := decide ((s.qp fn q).cqUsed + (unreplied s fn q).length < 2 ^ (s.qp fn q).log2)

/-- A queue pair moves to ERROR: recorded in CMD[i].ERR, and in ERR_QUEUE where no capture is held (R217). (DEDUCED, log entry 59; DEDUCED, log entry 61.) -/
def qpError (fn q bitNo : Nat) (s : State) : State :=
  let s := (s.setQp fn q { s.qp fn q with st := 2 }).orReg .cmdErr fn 0 (2 ^ bitNo)
  if bit (s.reg .cmdErrQueue fn) 31 then s else s.setReg .cmdErrQueue fn 0 (q + 2 ^ 31)

/-- Under the continue policy, once the heartbeat is lost, a completion ring without a free slot places the device hold on every lode of
the tenant (R435). -/
def continueHold (fn : Nat) (s : State) : State :=
  let h := s.host fn
  if fn < 16 ∧ h.hbLost ∧ !h.jobHeld ∧ (tget {} s.cmd.sessions fn).policy = 0
      ∧ (List.range 64).any (fun q => (s.qp fn q).st != 0 && !slotFree s fn q) then
    deviceHold fn (((List.range 32).filter fun n => lodeOwner s n == fn + 1).map (2 ^ ·)).sum s
  else s

/-! ### Doorbells (R185, R186, R217) -/

/-- The function that port p reaches as its function v: 0 the management function, t + 1 the virtual function of TEN[t], which is inert
on the port that does not carry it and absent beyond NumVFs (R423). -/
def portFn (s : State) (p v : Nat) : Option Nat :=
  if v = 0 then some (16 + p)
  else if fnPort s (v - 1) = p ∧ v ≤ (tget {} s.ports p).numVfs then some (v - 1) else none

/-- A BAR access acts where the function is there and its Memory Space Enable is set (R423, R430). (DESIGN CHOICE, log entry 68.) -/
def barFn (s : State) (p v : Nat) : Option Nat :=
  match portFn s p v with
  | some fn => if (s.host fn).mse then some fn else none
  | none => none

/-- SQ_TAIL: entries posted, or ERROR (R217). (DEDUCED, log entry 61.) -/
def sqTail (fn q v : Nat) (s : State) : State :=
  let x := s.qp fn q
  if x.st = 0 then s
  else
    let s := restartHb fn s
    if x.st ≠ 1 then s
    else if 2 ^ x.log2 ≤ v then qpError fn q 0 s
    else s.setQp fn q { x with tail := v }

/-- CQ_HEAD: slots freed, or ERROR (R217). (DEDUCED, log entry 61.) -/
def cqHead (fn q v : Nat) (s : State) : State :=
  let x := s.qp fn q
  if x.st = 0 then s
  else
    let s := restartHb fn s
    let n := (v + 2 ^ x.log2 - x.cqHead) % 2 ^ x.log2
    if 2 ^ x.log2 ≤ v ∨ x.cqUsed < n then (if x.st = 1 then qpError fn q 4 s else s)
    else s.setQp fn q { x with cqHead := v, cqUsed := x.cqUsed - n }

def execSqTailWrite (p v q : Nat) (val : Word) (s : State) : Res :=
  run (p < 2 && v < 17) s fun s => match barFn s p v with
    | some fn => sqTail fn q val.toNat s
    | none => s

def execCqHeadWrite (p v q : Nat) (val : Word) (s : State) : Res :=
  run (p < 2 && v < 17) s fun s => match barFn s p v with
    | some fn => cqHead fn q val.toNat s
    | none => s

/-! ### Ending commands (R200, R210, R217) -/

/-- A command that waits for an event: for its release, on a counter, on an epoch, or on a lock group's start (R200). (DEDUCED, log entry 60.) -/
def waits (c : Cmd) : Bool :=
  c.phase == .timed || (c.phase == .working && (match cmdOp c with
    | some .syncWait => true
    | some .syncEpoch => true
    | some .lockStart => true
    | _ => false))

/-- What a command still does ends with it: a wait is withdrawn, an armed event disarmed, a group returns to FORMED, a chain discards what
has not started, a save or a restore stops, a cipher operation stops. Other work runs to its end. (DEDUCED, log entry 60.) -/
def cancelCmd (c : Cmd) (s : State) : State :=
  if c.phase = .timed then disarm (.timed c.id) s
  else if c.phase ≠ .working then s
  else match cmdOp c with
    | some .syncWait => withdraw 0x200 (some c.id) s
    | some .syncEpoch => { s with sync := { s.sync with epochs := s.sync.epochs.filter fun e => e.id != c.id } }
    | some .lockStart =>
      let g := c.p 0
      let x := s.grp g
      if x.cmd = some c.id then (disarm (.lock g) s).setGrp g { x with st := .formed, fired := none, cmd := none } else s
    | some .modChain => match s.chains.find? (·.id == c.id) with | some x => offerChains false x.unit (endChain c.id stAborted x.ended x.ended 0 s) | none => s
    | some .moveChain => match s.chains.find? (·.id == c.id) with | some x => offerChains true x.unit (endChain c.id stAborted x.ended x.ended 0 s) | none => s
    | some .coresRun => freeCores c.id s
    | some .rulesCommit => { s with net := { s.net with commits := s.net.commits.filter fun x => x.id != c.id } }
    | some .regionCreate => { s with sec := { s.sec with rngWait := s.sec.rngWait.filter fun x => x.1 != c.id } }
    | some .opPoint => { s with power := { s.power with opCmds := s.power.opCmds.filter (· != c.id) } }
    | some .save => match findSave s c.id with | some x => saveStop x stAborted 0 0 s | none => s
    | some .restore => match s.ckpt.rests.find? (·.id == c.id) with | some x => restEnd x stAborted 0 0 0 s | none => s
    | some .crypt => match s.sec.ctxs.find? (·.id == c.id) with | some x => cipherStop x stAborted 0 0 s | none => s
    | _ => s

/-- A queue pair goes: its commands that have not replied end, and their replies are not written (R217). (DEDUCED, log entry 60.) -/
def removeQp (fn q : Nat) (s : State) : State :=
  let s := (unreplied s fn q).foldl (fun s c => cancelCmd c s) s
  (dropCmds (fun c => c.fn == fn && c.q == q) s).setQp fn q {}

/-- QP_DELETE, or ENABLE cleared, is legal: ACTIVE with no command unreplied but the deleting one, or ERROR (R216, R217). -/
def mayDelete (s : State) (fn q : Nat) (self : Option Nat) : Bool :=
  match (s.qp fn q).st with
  | 1 => (unreplied s fn q).all fun c => some c.id == self
  | 2 => true
  | _ => false

/-- A write of CMD[i].ADMQ (R189, R217): ENABLE activates the admin queue pair with the addresses of ADMQ_SQ and ADMQ_CQ, or removes it;
LOG2 stands while it is enabled. (DEDUCED, log entry 59.) -/
def admqWrite (i v : Nat) (s : State) : State :=
  let old := s.reg .cmdAdmq i
  let s := s.setField .cmdAdmq i 0 26 16 (bits v 26 16)
  if bit old 0 then
    if bit v 0 || !mayDelete s i 0 none then s
    else (removeQp i 0 s).setField .cmdAdmq i 0 0 0 0
  else
    let k := bits v 7 4
    let s := s.setField .cmdAdmq i 0 7 4 k
    if !bit v 0 then s
    else if k < 4 ∨ 12 < k then s.orReg .cmdErr i 0 8
    else (s.setField .cmdAdmq i 0 0 0 1).setQp i 0
      { st := 1, log2 := k, sq := s.reg .cmdAdmqSq i, cq := s.reg .cmdAdmqCq i }

/-- A function writes its own page; management functions and world S write every page (R45, R189). -/
def execAdmqEnable (who i : Nat) (val : Word) (s : State) : Res :=
  run (who < 19 && i < 18) s (onlyIf (who == i || decide (16 ≤ who)) (admqWrite i val.toNat))

/-! ### What may be taken (R187, R191, R193, R194, R201) -/

/-- Submission entries of a ring from an index on, wrapping. -/
def ringRead (fn : Nat) (x : QPair) : Nat → Nat → State → State × Except HErr Bytes
  | 0, _, s => (s, .ok [])
  | n + 1, i, s =>
    match hostRead s fn (x.sq + 64 * (i % 2 ^ x.log2)) 64 with
    | (s, .error e) => (s, .error e)
    | (s, .ok b) => match ringRead fn x n (i + 1) s with
      | (s, .error e) => (s, .error e)
      | (s, .ok r) => (s, .ok (b ++ r))

/-- Entries that the command at the head occupies; a LENGTH beyond the ring takes one entry, and fails check 4. (DEDUCED, log entry 56.) -/
def spanOf (x : QPair) (b3 : Nat) : Nat := let n := b3 % 64 + 1; if n ≤ 2 ^ x.log2 - 1 then n else 1

/-- The command with these first bytes enters the dispatch list (R239). -/
def needsList (b : Bytes) : Bool := match opOf (fld b 0 1) (fld b 1 1) with | some o => (opRow o).listed | none => false

def isListed (c : Cmd) : Bool := match cmdOp c with | some o => (opRow o).listed | none => false

/-- Entries of the dispatch lists. -/
def listLen (s : State) : Nat := (s.cmd.cmds.filter fun c => c.phase == .listed || (c.phase == .timed && isListed c)).length

/-- The addresses of the entries of the command at the head of a ring, once its first entry is known. -/
def headEntries (s : State) (fn : Nat) (x : QPair) : List Nat :=
  let n := if hostKnown s fn (x.sq + 64 * x.head) 64 then spanOf x (fld (hostBytes s (fnPort s fn) (x.sq + 64 * x.head) 4) 3 1) else 1
  (List.range n).map fun i => x.sq + 64 * ((x.head + i) % 2 ^ x.log2)

/-- The reads of the command at the head have completed. -/
def ringKnown (s : State) (fn : Nat) (x : QPair) : Bool := (headEntries s fn x).all fun a => hostKnown s fn a 64

/-- The engine issues the upstream reads of the entries at the heads of ACTIVE rings that hold some (R191, R430). -/
def askRings (s : State) : State :=
  s.cmd.qps.foldl (fun s (k, x) =>
    if x.st = 1 ∧ x.head ≠ x.tail then (headEntries s (k / 64) x).foldl (fun s a => hostAsk (k / 64) a 64 s) s else s) s

/-- The engine may take the next command of a queue pair. (DEDUCED, log entry 56.) -/
def takeable (s : State) (fn q : Nat) : Bool :=
  let x := s.qp fn q
  let avail := (x.tail + 2 ^ x.log2 - x.head) % 2 ^ x.log2
  x.st == 1 && fnBme s fn && !(s.host fn).noTakes && decide (0 < avail) && slotFree s fn q && ringKnown s fn x &&
    (let cells := hostCells s (fnPort s fn) (x.sq + 64 * x.head) 4
     cells.contains .bad ||
       (let b := hostBytes s (fnPort s fn) (x.sq + 64 * x.head) 4
        decide (spanOf x (fld b 3 1) ≤ avail) && (!bit (fld b 2 1) 0 || unreplied s fn q == [])
          && (!needsList b || decide (listLen s < 4096))))

/-- The weight of a queue pair: 8, 4, 2 or 1 by PRIO; 8 for the admin queue (R201). (DEDUCED, log entry 57.) -/
def qpWeight (q : Nat) (x : QPair) : Nat := if q = 0 then 8 else 8 / 2 ^ x.prio

/-- The queue pair of a function that takes next: the lowest-numbered takeable one with takes left in its round; a new round begins when
none has any. (DEDUCED, log entry 57.) -/
def pickQp (fn : Nat) (qs : List Nat) (s : State) : Nat × State :=
  match qs.find? fun q => decide (0 < (s.qp fn q).credit) with
  | some q => (q, s)
  | none =>
    let s := (List.range 64).foldl (fun s q => let x := s.qp fn q; if x.st = 0 then s else s.setQp fn q { x with credit := qpWeight q x }) s
    (qs.headD 0, s)

/-- Functions in round-robin order after the one that took last. -/
def fnOrder (s : State) : List Nat := (List.range 18).map fun k => (s.cmd.lastFn + 1 + k) % 18

/-- The queue pairs of a function from which a command can be taken. -/
def takeQps (s : State) (fn : Nat) : List Nat := (List.range 64).filter (takeable s fn)

/-- TIMED commands armed (R193). -/
def timedArmed (s : State) : Nat := (s.cmd.cmds.filter fun c => c.phase == .timed).length

/-! ### Dispatch (R239, R240) -/

/-- No earlier command in its function's list names a unit that this one names (R240). (DEDUCED, log entry 58.) -/
def cmdEligible (s : State) (c : Cmd) : Bool :=
  s.cmd.cmds.all fun d => !(d.fn == c.fn && decide (d.id < c.id) && (d.phase == .listed || (d.phase == .timed && isListed d))
    && (unitsOf d).any fun u => (unitsOf c).contains u)

/-- The scheduler core chooses a command; hardware dispatches it where it is eligible (R240, R244). (DEDUCED, log entry 57.) -/
def execCommandDispatch (id : Nat) (s : State) : Res :=
  run true s fun s =>
    match findCmd s id with
    | none => s
    | some c =>
      if c.phase = .listed ∧ (s.fwp 32).st = .running ∧ cmdEligible s c then modCmd id (fun c => { c with phase := .ready }) s else s

/-! ### Replies (R187, R188, R195, R197) -/

/-- The reply of a command (R195). -/
def replyBytes (c : Cmd) (phase : Bool) (now : Nat) : Bytes :=
  leBytes 2 c.tag ++ leBytes 2 c.status ++ leBytes 2 (c.head % 4096 + (if c.late then 2 ^ 14 else 0) + (if phase then 2 ^ 15 else 0))
    ++ leBytes 2 (min 0xFFFF c.varD) ++ leBytes 8 now ++ leBytes 4 c.w0 ++ leBytes 4 c.w1 ++ leBytes 4 c.w2 ++ leBytes 4 c.w3

/-- The command that ended first among those of its queue pair whose replies are due. -/
def replyNext (s : State) (c : Cmd) : Bool :=
  c.phase == .done && s.cmd.cmds.all fun d => !(d.fn == c.fn && d.q == c.q && d.phase == .done && decide (d.doneNo < c.doneNo))

/-- The vector of a queue pair: the admin queue's stands in CMD[i].ADMQ. -/
def qpVector (s : State) (fn q : Nat) : Nat := if q = 0 then bits (s.reg .cmdAdmq fn) 26 16 else (s.qp fn q).vector

/-- The engine writes the reply of an ended command and signals the vector. With Bus Master Enable clear it is held (R430); a write that
fails puts the queue pair in ERROR, and the command's work stands. (DEDUCED, log entry 59.) -/
def replyWrite (id : Nat) (s : State) : State :=
  match findCmd s id with
  | none => s
  | some c =>
    let x := s.qp c.fn c.q
    if !replyNext s c || x.st == 0 || !fnBme s c.fn then s
    else match hostWrite s c.fn (x.cq + 32 * x.cqTail) (replyBytes c x.phase s.now) with
      | (s, .error _) => qpError c.fn c.q 2 (dropCmds (fun d => d.id == id) s)
      | (s, .ok _) =>
        let wrap := x.cqTail + 1 = 2 ^ x.log2
        let s := s.setQp c.fn c.q { x with
          cqTail := if wrap then 0 else x.cqTail + 1, phase := if wrap then !x.phase else x.phase, cqUsed := x.cqUsed + 1 }
        let s := if c.fn < 16 then traceHit c.fn 1 (c.fn * 64 + c.q) c.status c.tag 0 none s else s
        signalVector c.fn (qpVector s c.fn c.q) (dropCmds (fun d => d.id == id) s)

def execReplyWrite (id : Nat) (s : State) : Res := run true s (replyWrite id)

/-! ### ADMIN commands (R202 to R208, R210, R434 to R436) -/

/-- The bundle condition of R202. -/
def bundleOk (s : State) (bmin : Nat) : Bool :=
  let b := bundleNow s
  b != 0 && (bmin == 0 || (b / 2 ^ 24 == bmin / 2 ^ 24 && decide (bmin ≤ b)))

/-- The device's version: that of the OPEN sessions (R202). (DEDUCED, log entry 62.) -/
def deviceVer (s : State) : Option Nat := ((List.range 18).find? (sessOpen s)).map (sessVer s)

/-- The version at which a HELLO in HOLD opens the session (R202, R203, R218). (DEDUCED, log entry 62.) -/
def helloVer (s : State) (fn lo hi bmin : Nat) : Option Nat :=
  if !bundleOk s bmin then none
  else match deviceVer s with
    | some v => if lo ≤ v ∧ v ≤ hi ∧ (16 ≤ fn ∨ sessOpen s 16 ∨ sessOpen s 17) then some v else none
    | none =>
      let r := s.reg .cmdDevRange fn
      let top := min hi (bits r 31 16)
      if 16 ≤ fn ∧ max lo (bits r 15 0) ≤ top then some top else none

/-- The heartbeat of a session begins with HELLO: HB_LOST, the device hold and a quiesce are withdrawn and takes resume (R434, R436). -/
def beginHb (fn ms policy : Nat) (s : State) : State :=
  let s := { s with cmd := { s.cmd with sessions := tput {} s.cmd.sessions fn { hbMs := ms, policy := policy } } }
  let h := s.host fn
  let s := s.setHost fn { h with hbLost := false, jobHeld := false, heldLodes := 0, noTakes := false, quiescing := false }
  restartHb fn (holdsChanged s)

/-- HELLO (R202 to R205). (DEDUCED, log entry 62.) -/
def execHello (id : Nat) (s : State) : Res :=
  run true s (startOp .hello id fun c s =>
    let fn := c.fn
    let range := s.reg .cmdDevRange fn
    if sessOpen s fn then
      let v := sessVer s fn
      if bundleOk s (c.p 2) ∧ c.p 0 ≤ v ∧ v ≤ c.p 1 then finish id stOk v (bundleNow s) range 1 (beginHb fn (c.p 3) (c.p 4) s)
      else conflict id 0x01 fn 1 v s
    else match helloVer s fn (c.p 0) (c.p 1) (c.p 2) with
      | none => finish id stVersionHold range (bundleNow s) 0 0 s
      | some v =>
        let s := beginHb fn (c.p 3) (c.p 4) (s.setReg .cmdSession fn 0 (1 + v * 256))
        finish id stOk v (bundleNow s) range 0 (if 16 ≤ fn then raiseCounters s else s))

/-- A set of numbers as a mask. -/
def maskOf (n : Nat) (p : Nat → Bool) : Nat := (((List.range n).filter p).map (2 ^ ·)).sum

/-- The words of an identity page (R208). (DEDUCED, log entry 64.) -/
def identifyWords (s : State) (fn page : Nat) : List Nat :=
  if page = 0 then
    [partId, bundleNow s, s.reg .cmdDevRange fn, s.reg .seamFdid % 2 ^ 20, (modules s).length, s.pins.posId % 8, lodesN s,
     maskOf 16 fun t => decide (t < (tget {} s.ports (fnPort s t)).numVfs)]
  else if fn < 16 then
    [fn, maskOf 32 fun n => lodeOwner s n == fn + 1, maskOf 16 fun i => tget 0 s.own.ibcs i == fn + 1, 64, 16,
     (s.sto.vols.filter fun e => e.2.st == 2 && e.2.tenant == fn).length]
  else [0xFF, 0, 0, 8, 0, 0]

/-- IDENTIFY writes a page to host memory. -/
def execIdentify (id : Nat) (s : State) : Res :=
  run true s (startOp .identify id fun c s =>
    match hostWrite s c.fn (c.p 1) (fit 4096 ((identifyWords s c.fn (c.p 0)).flatMap (leBytes 4))) with
    | (s, .ok _) => finish id stOk partId 0 0 0 s
    | (s, .error e) => failHost id e s)

/-- QP_CREATE: an ABSENT queue pair becomes ACTIVE (R216, R217). -/
def execQpCreate (id : Nat) (s : State) : Res :=
  run true s (startOp .qpCreate id fun c s =>
    let x := s.qp c.fn (c.p 0)
    if x.st ≠ 0 then conflict id 0x02 (c.p 0) x.st 0 s
    else finish0 id stOk (s.setQp c.fn (c.p 0) { st := 1, log2 := c.p 1, prio := c.p 2, vector := c.p 3, sq := c.p 4, cq := c.p 5 }))

/-- QP_DELETE (R216, R217). (DEDUCED, log entry 45.) -/
def execQpDelete (id : Nat) (s : State) : Res :=
  run true s (startOp .qpDelete id fun c s =>
    if mayDelete s c.fn (c.p 0) none then finish0 id stOk (removeQp c.fn (c.p 0) s)
    else conflict id 0x02 (c.p 0) (s.qp c.fn (c.p 0)).st 0 s)

/-- What a command waits for has come in this cycle or before it: its event is due or has fired, or its pass notice is on its way. -/
def released (s : State) (d : Cmd) : Bool :=
  match cmdOp d with
  | some .lockStart => (s.grp (d.p 0)).fired.isSome || s.tb.armed.any fun e => e.due s && (e.owner == .lock (d.p 0) || e.owner == .timed d.id)
  | some .syncWait => (s.sync.notices.any fun x => x.src == 0x200 && x.tag == some d.id) || s.tb.armed.any fun e => e.due s && e.owner == .timed d.id
  | _ => s.tb.armed.any fun e => e.due s && e.owner == .timed d.id

/-- ABORT ends the earliest waiting command with TAG in QUEUE; a release in the same cycle wins (R218). (DEDUCED, log entry 45.) -/
def execAbort (id : Nat) (s : State) : Res :=
  run true s (startOp .abort id fun c s =>
    match s.cmd.cmds.find? fun d => d.fn == c.fn && d.q == c.p 0 && d.tag == c.p 1 && waits d && !released s d with
    | some d => finish id stOk 1 0 0 0 (finish0 d.id stAborted (cancelCmd d s))
    | none => finish0 id stOk s)

/-- HEARTBEAT restarts the interval (R434). -/
def execHeartbeat (id : Nat) (s : State) : Res := run true s (startOp .heartbeat id fun c s => finish0 id stOk (restartHb c.fn s))

/-- The heartbeat of a function ends (R434). -/
def endHb (fn : Nat) (s : State) : State :=
  let s := { s with cmd := { s.cmd with sessions := tput {} s.cmd.sessions fn {} } }
  let h := s.host fn
  holdsChanged (s.setHost fn { h with hbDue := none, hbLost := false, jobHeld := false, heldLodes := 0, noTakes := false, quiescing := false })

/-- GOODBYE returns the session to HOLD (R205). -/
def execGoodbye (id : Nat) (s : State) : Res :=
  run true s (startOp .goodbye id fun c s =>
    let fn := c.fn
    let busy := (List.range 63).any fun q => (s.qp fn (q + 1)).st != 0
    let others := decide (16 ≤ fn) && (List.range 18).any fun i => i != fn && sessOpen s i
    if busy || others then conflict id 0x01 fn 1 0 s
    else finish0 id stOk (endHb fn (s.setReg .cmdSession fn 0 0)))

/-- WINDOW_MAP writes translation entries to consecutive blocks (R211, R427). (DEDUCED, log entry 95.) -/
def execWindowMap (id : Nat) (s : State) : Res :=
  run true s (startOp .windowMap id fun c s =>
    if s.reg .hifCfg % 2 ≠ 1 then conflict id 0x16 0 0 0 s
    else
      let h := s.host c.fn
      let x := (List.range (c.p 1)).foldl (fun t i => tput 0 t (c.p 0 + i) (1 + (c.p 2 + i * 2 ^ 21) % 2 ^ 52)) h.xlat
      finish0 id stOk (s.setHost c.fn { h with xlat := x }))

/-- A heartbeat interval expires: HB_LOST, an EVENT record and the policy (R434, R435). -/
def execHeartbeatExpiry (i : Nat) (s : State) : Res :=
  run (i < 18) s fun s =>
    let h := s.host i
    match h.hbDue with
    | none => s
    | some t =>
      if s.tb.ticks < t then s
      else
        let quiet : Bool := (tget {} s.cmd.sessions i).policy == 1
        let s := s.setHost i { h with hbDue := none, hbLost := true, noTakes := h.noTakes || quiet, quiescing := h.quiescing || (quiet && decide (i < 16)) }
        let s := raise 2 (if i < 16 then some i else none) (regAddr .hifSts i 0 0) 0x8009 (zeros 2 ++ leBytes 4 i) s
        if quiet then
          (List.range 32).foldl (fun s n => if (List.range 8).any fun c => (s.core (8 * n + c)).wait.isSome then
            (if i < 16 ∧ lodeOwner s n = i + 1 then syncPoint n s else s) else s) s
        else continueHold i s

/-! ### Starts and takes (R187, R191, R193, R194, R199, R201) -/

/-- The row of an operation, run on a command with a take number. -/
def startRow (o : Op) (id : Nat) (s : State) : Res :=
  match o with
  | .hello => execHello id s
  | .identify => execIdentify id s
  | .fwUpdate => execFwUpdate id s
  | .qpCreate => execQpCreate id s
  | .qpDelete => execQpDelete id s
  | .abort => execAbort id s
  | .heartbeat => execHeartbeat id s
  | .goodbye => execGoodbye id s
  | .regionCreate => execRegionCreate id s
  | .regionRevoke => execRegionRevoke id s
  | .copy => execCopy id s
  | .fill => execFill id s
  | .windowMap => execWindowMap id s
  | .crypt => execCrypt id s
  | .imemLoad => execImemLoad id s
  | .coresRun => execCoresRun id s
  | .modChain => execModChain id s
  | .moveChain => execMoveChain id s
  | .lockForm => execLockForm id s
  | .lockStart => execLockStart id s
  | .lockDissolve => execLockDissolve id s
  | .lodeReset => execLodeReset id s
  | .lodeHold => execLodeHold id s
  | .syncSignal => execSyncSignal id s
  | .syncWait => execSyncWait id s
  | .syncRead => execSyncRead id s
  | .syncSet => execSyncSet id s
  | .syncEpoch => execSyncEpoch id s
  | .vmap => execVmap id s
  | .commCreate => execCommCreate id s
  | .commDestroy => execCommDestroy id s
  | .allReduce => execAllReduce id s
  | .reduceScatter => execReduceScatter id s
  | .allGather => execAllGather id s
  | .broadcast => execBroadcast id s
  | .allToAll => execAllToAll id s
  | .portMode => execPortMode id s
  | .rulesCommit => execRulesCommit id s
  | .patternsLoad => execPatternsLoad id s
  | .streamOpen => execStreamOpen id s
  | .streamClose => execStreamClose id s
  | .gatesLoad => execGatesLoad id s
  | .shaperSet => execShaperSet id s
  | .policerSet => execPolicerSet id s
  | .ftRingCreate => execFtRingCreate id s
  | .ftRingDelete => execFtRingDelete id s
  | .ftRqBind => execFtRqBind id s
  | .ftRqUnbind => execFtRqUnbind id s
  | .sqCreate => execSqCreate id s
  | .sqDelete => execSqDelete id s
  | .volCreate => execVolCreate id s
  | .volDelete => execVolDelete id s
  | .volBind => execVolBind id s
  | .driveInfo => execDriveInfo id s
  | .poolAdd => execPoolAdd id s
  | .save => execSave id s
  | .restore => execRestore id s
  | .drain => execDrain id s
  | .slotStatus => execSlotStatus id s
  | .rankTake => execRankTake id s
  | .layoutDefine => execLayoutDefine id s
  | .layoutDrop => execLayoutDrop id s
  | .reshardMove => execReshardMove id s
  | .assign => execAssign id s
  | .keyLoad => execKeyLoad id s
  | .keyErase => execKeyErase id s
  | .attest => execAttest id s
  | .debugUnlock => execDebugUnlock id s
  | .countersRead => execCountersRead id s
  | .errorsRead => execErrorsRead id s
  | .errorsClear => execErrorsClear id s
  | .logRing => execLogRing id s
  | .traceSet => execTraceSet id s
  | .opPoint => execOpPoint id s
  | .lodePower => execLodePower id s
  | .clockLock => execClockLock id s
  | .tbAdj => execTbAdj id s
  | .tbSyncArm => execTbSyncArm id s
  | .deep => execDeep id s
  | .limitsRead => execLimitsRead id s

/-- Checks 6 and 7 at a command's start, which is its take or its release (R199): where its row would end it with STATE_CONFLICT or
NO_RESOURCE, it ends so at once. They are left to the row behind a command that has not begun, whose effect they must see (R201), and in
COPY and FILL, which name no object. (DESIGN CHOICE, log entry 94; DEDUCED, log entry 70.) -/
def startCheck (id : Nat) (s : State) : State :=
  match findCmd s id with
  | none => s
  | some c => match cmdOp c with
    | none => s
    | some o =>
      if o = .copy ∨ o = .fill ∨ s.cmd.cmds.any fun d => d.id != id && (d.phase == .ready || d.phase == .listed) then s
      else match startRow o id (modCmd id (fun c => { c with phase := .ready }) s) with
        | .next t => match findCmd t id with
          | some d => if d.phase = .done ∧ (d.status = stConflict ∨ d.status = stNoResource) then finish id d.status d.w0 d.w1 d.w2 0 s else s
          | none => s
        | _ => s

/-- A taken command passes its checks at the take, or ends; a TIMED one is armed, one that needs dispatch enters its list, any other may
start (R193, R199, R239). (DESIGN CHOICE, log entry 94.) -/
def admitCmd (c : Cmd) (s : State) : State :=
  let add (c : Cmd) (s : State) : State := { s with cmd := { s.cmd with cmds := s.cmd.cmds ++ [c] } }
  match takeCheck c s with
  | (some (st, w0, w1), s) => finish c.id st w0 w1 0 0 (add c s)
  | (none, s) =>
    if bit (c.u 2 1) 1 then
      if 256 ≤ timedArmed s then finish0 c.id stNoResource (add c s)
      else
        let t := fld c.bytes (c.bytes.length - 8) 8
        let s := add { c with phase := .timed } s
        arm (.timed c.id) t s
    else startCheck c.id (add { c with phase := if isListed c then .listed else .ready } s)

/-- Take the command at the head of a queue pair. -/
def takeFrom (fn q : Nat) (s : State) : State :=
  let x := s.qp fn q
  let s := { s with cmd := { s.cmd with lastFn := fn } }
  match hostRead s fn (x.sq + 64 * x.head) 64 with
  | (s, .error _) => qpError fn q 1 s
  | (s, .ok b) => match ringRead fn x (spanOf x (fld b 3 1)) x.head s with
    | (s, .error _) => qpError fn q 1 s
    | (s, .ok bs) =>
      let head := (x.head + spanOf x (fld b 3 1)) % 2 ^ x.log2
      let x := s.qp fn q
      let s := s.setQp fn q { x with head := head, credit := x.credit - 1 }
      let id := s.cmd.nextId
      let s := restartHb fn { s with cmd := { s.cmd with nextId := id + 1 } }
      let s := if fn < 16 then traceHit fn 0 (fn * 64 + q) 0 (fld bs 10 2) 0 none s else s
      continueHold fn (admitCmd { id := id, fn := fn, q := q, head := head, bytes := bs, phase := .ready } s)

/-- The engine takes the next command: functions in round robin, queue pairs of one function by weight (R201). (DESIGN CHOICE, log entry 94.) -/
def execSubmissionFetch (s : State) : Res :=
  run true s fun s =>
    let s := askRings s
    match (fnOrder s).find? fun fn => takeQps s fn != [] with
    | none => s
    | some fn => let (q, s) := pickQp fn (takeQps s fn) s; takeFrom fn q s

/-- A TIMED command is released and starts; late too while the scheduler restarts (R193, R239, R244). -/
def release (id : Nat) (late : Bool) (s : State) : State :=
  startCheck id (modCmd id (fun c => { c with
    late := c.late || late || (isListed c && (s.fwp 32).st != .running)
    phase := if c.phase = .timed then (if isListed c then .listed else .ready) else c.phase }) s)

/-- The due event with the least target fires: a group start (R175), a TIMED command's release (R193, R239; late while the scheduler
restarts, R244), a gate list (R368). -/
def execTbEventFire (s : State) : Res :=
  run true s fun s =>
    match leastEvent (s.tb.armed.filter fun e => e.due s) with
    | none => s
    | some e =>
      let s := { s with tb := { s.tb with armed := s.tb.armed.erase e } }
      match e.owner with
      | .lock g => let x := s.grp g; s.setGrp g { x with fired := some s.tb.ticks, late := x.late || e.late }
      | .timed id => release id e.late s
      | .gate m => gateTakes m e.late s

end Sys2Proof.Machine
end

