-- ==== Sys2Proof/Machine/HostIf.lean ====
section
/-! DEFINITION. The host interface: the BAR2 aperture, MSI-X, Bus Master and Memory Space Enable, upstream completions, links, PERST and the
binding of tenants to ports (R421 to R430, R432, R437). -/
namespace Sys2Proof.Machine

open Sys2Proof

/-! ### The aperture (R425 to R429) -/

/-- A part of a BAR2 access: the device address it maps to, none where unmapped, its bytes, and whether its entry is read-only. -/
structure ApPart where
  addr : Option Nat
  n    : Nat
  ro   : Bool
  deriving DecidableEq, Repr

/-- The translation entry of an offset, where it is VALID and its window enabled (R426, R427). (DEDUCED, log entry 95.) -/
def apEntry (s : State) (fn off n : Nat) : ApPart :=
  let e := tget 0 (s.host fn).xlat (off / 2 ^ 21)
  if bit e 0 && bit (s.reg .hifWinEn fn) (off / 2 ^ 29) && decide (off < 2 ^ 33) then ⟨some (bits e 51 21 * 2 ^ 21 + off % 2 ^ 21), n, bit e 1⟩
  else ⟨none, n, false⟩

/-- Cut an access at the blocks of 2 MiB that the entries map. -/
def apSplit (s : State) (fn : Nat) : Nat → Nat → Nat → List ApPart
  | 0, _, _ => []
  | f + 1, off, n =>
    if n = 0 then [] else
      let k := min n (2 ^ 21 - off % 2 ^ 21)
      apEntry s fn off k :: apSplit s fn f (off + k) (n - k)

/-- The parts of a BAR2 access of a tenant function in the mode of HIF.CFG. (DEDUCED, log entry 66.) -/
def apParts (s : State) (fn off n : Nat) : List ApPart :=
  if bit (s.reg .hifCfg) 0 then apSplit s fn (n / 2 ^ 21 + 2) off n
  else
    let size := (tget {} s.ports (fnPort s fn)).bar2
    let base := s.reg .hifApBase fn / size * size
    [⟨if off + n ≤ size then some (base + off) else none, n, false⟩]

/-- A part passes R428: one ACTIVE region holds it whole, of the tenant or shared with it, with HOST and the access's right. -/
def apOk (s : State) (fn : Nat) (p : ApPart) (wr : Bool) : Bool :=
  match p.addr with
  | none => false
  | some a =>
    (match (place s a).1 with | .hbm => true | .lpx => true | .strata _ => true | _ => false) &&
    match regionAt s a p.n with
    | some (_, g) =>
      g.st == 1 && ((g.world && g.tenant == fn) || bit g.share fn) && bit g.rights 5 && bit g.rights (if wr then 1 else 0) && !(wr && p.ro)
    | none => false

/-- A part that must wait for its memory: it starts the exit that ends the wait (R487, R488), and the host's access comes again after it.
(DESIGN CHOICE, log entry 110.) -/
def apWaits (s : State) (fn : Nat) (wr : Bool) (p : ApPart) : Option (Nat × Nat) :=
  match p.addr with
  | some a => if apOk s fn p wr && (memWaits s a p.n) then some (a, p.n) else none
  | none => none

/-- Answer a read part by part: data, all ones with AP_DENIED, or a completer abort with AP_UE. (DEDUCED, log entry 66.) -/
def apRead (fn : Nat) : List ApPart → State → State
  | [], s => s
  | p :: t, s =>
    let s := match p.addr, apOk s fn p false with
      | some a, true =>
        match readMem s a p.n with
        | (s, .ok b) => send (.bar2 fn (some b)) s
        | (s, .error _) => send (.bar2 fn none) (sticky (some fn) .hifFnErr fn 0 2 s)
      | _, _ => send (.bar2 fn (some (List.replicate p.n 0xFF))) (s.orReg .hifFnErr fn 0 1)
    apRead fn t s

/-- Write bytes line by line, each line whole or not at all (R428). -/
def putLines : Nat → Nat → Bytes → State → State
  | 0, _, _, s => s
  | f + 1, a, bs, s => if bs = [] then s else
      let k := 64 - a % 64
      putLines f (a + k) (bs.drop k) (storeWhole s a (bs.take k)).1

/-- Perform a write part by part; a refused part is discarded with AP_DENIED. -/
def apWrite (fn : Nat) : List ApPart → Bytes → State → State
  | [], _, s => s
  | p :: t, bs, s =>
    let s := match p.addr, apOk s fn p true with
      | some a, true => putLines (p.n / 64 + 2) a (bs.take p.n) s
      | _, _ => s.orReg .hifFnErr fn 0 1
    apWrite fn t (bs.drop p.n) s

/-- A host read through BAR2. An inert virtual function reads zero (R423); a management function has no BAR2 (R425). -/
def execBar2Read (p v off len : Nat) (s : State) : Res :=
  run (p < 2 && v < 17) s fun s =>
    if v = 0 ∨ (tget {} s.ports p).numVfs < v ∨ len = 0 then s
    else match barFn s p v with
      | none => if portFn s p v = none then send (.bar2 (v - 1) (some (zeros len))) s else s
      | some fn =>
        let ps := apParts s fn off len
        match ps.findSome? (apWaits s fn false) with
        | some (a, n) => wakeSpan a n s
        | none => apRead fn ps s

/-- A host write through BAR2. -/
def execBar2Write (p v off : Nat) (data : Bytes) (s : State) : Res :=
  run (p < 2 && v < 17) s fun s =>
    if v = 0 ∨ data = [] then s
    else match barFn s p v with
      | none => s
      | some fn =>
        let ps := apParts s fn off data.length
        match ps.findSome? (apWaits s fn true) with
        | some (a, n) => wakeSpan a n s
        | none => apWrite fn ps data s

/-- A write of a translation entry; a nonzero zero field makes it ignored (R427). -/
def xlatWrite (i e v : Nat) (s : State) : State :=
  if bits v 20 2 ≠ 0 ∨ bits v 63 52 ≠ 0 then s.orReg .hifFnErr i 0 0x10
  else let h := s.host i; s.setHost i { h with xlat := tput 0 h.xlat e v }

/-- A function writes the table in its own BAR0; world S that of the function HIF.VIEW selects (R425). -/
def ownTable (s : State) (who i : Nat) : Bool := if who = 18 then s.reg .hifView % 32 == i else who == i

def execXlatEntryWrite (who i e : Nat) (val : BitVec 64) (s : State) : Res :=
  run (who < 19 && i < 18 && e < 4096) s fun s => onlyIf (ownTable s who i) (xlatWrite i e val.toNat) s

/-! ### MSI-X (R188, R430) -/

/-- Send every pending message that nothing holds any more, in ascending vector order. -/
def flushMsix (fn : Nat) (s : State) : State :=
  let h := s.host fn
  if h.funcMask || !h.bme then s
  else
    let due := (h.msix.filter fun e => e.2.pending && !e.2.masked).map (·.1)
    due.foldl (fun s v => send (.msix fn v) s)
      (s.setHost fn { h with msix := due.foldl (fun t v => tmod {} t v fun e => { e with pending := false }) h.msix })

/-- The host clears the mask of a vector, or the function's mask (2,048). -/
def execMsiXUnmask (i vec : Nat) (s : State) : Res :=
  run (i < 18 && vec < 2049) s fun s =>
    let h := s.host i
    let h := if vec = 2048 then { h with funcMask := false } else { h with msix := tmod {} h.msix vec fun e => { e with masked := false } }
    flushMsix i (s.setHost i h)

/-! ### Enables and upstream reads (R430) -/

/-- Bus Master Enable: with it clear the function issues no upstream request; set again, pending messages leave and held replies may be
written. -/
def execBusMasterEnableChange (i : Nat) (on : Bool) (s : State) : Res :=
  run (i < 18) s fun s => flushMsix i (s.setHost i { s.host i with bme := on })

def execMemorySpaceEnableChange (i : Nat) (on : Bool) (s : State) : Res :=
  run (i < 18) s fun s => s.setHost i { s.host i with mse := on }

/-- Cells of host memory of the port that carries a function take a value. -/
def setCells (port a : Nat) : List HCell → State → State
  | [], s => s
  | c :: t, s => setCells port (a + 1) t { s with hostMem := tput .unknown s.hostMem (hostKey port a) c }

/-- A completion of an upstream read delivers data, or ends the read with an error; with Bus Master Enable clear it is discarded. The
replays of its port's link are counted (R422). (DEDUCED, log entry 95; DESIGN CHOICE, log entry 108; DESIGN CHOICE, log entry 69.) -/
def execUpstreamCompletion (i : Replayed) (addr : Nat) (data : Bytes) (ok : Bool) (s : State) : Res :=
  run (i.inst < 18) s fun s =>
    let s := (s.count .hifPortReplay (fnPort s i.inst) 0 i.replays).countTv 5 i.replays
    let i := i.inst
    let off := !fnBme s i
    let s := if off then s else setCells (fnPort s i) addr (data.map fun b => if ok then .val b else .bad) s
    let h := s.host i
    s.setHost i { h with reads := h.reads.filter fun r =>
      if off then !overlaps r.1 r.2.1 addr data.length else (hostCells s (fnPort s i) r.1 r.2.1).contains .unknown }

/-- An upstream read has got no completion for 10 ms and ends with an error (R430); with Bus Master Enable clear it is only dropped. (DESIGN CHOICE, log entry 69.) -/
def execUpstreamTimeout (i addr len : Nat) (s : State) : Res :=
  run (i < 18) s fun s =>
    let h := s.host i
    match h.reads.find? fun r => r.1 == addr && r.2.1 == len with
    | none => s
    | some r =>
      if s.tb.ticks < r.2.2 + 10 * msTicks then s
      else
        let s := s.setHost i { h with reads := h.reads.filter fun x => x != r }
        if fnBme s i then setCells (fnPort s i) addr ((hostCells s (fnPort s i) addr len).map fun c => if c = .unknown then .bad else c) s else s

/-! ### Links (R421, R422, R432, R484, R515) -/

/-- The functions of a port: its management function and the tenants bound to it (R423). -/
def portFns (s : State) (p : Nat) : List Nat := (16 + p) :: (List.range 16).filter fun t => fnPort s t == p

/-- The PCIe configuration state of a function returns to its reset state. -/
def configReset (fn : Nat) (s : State) : State := s.setHost fn { s.host fn with bme := false, mse := false, msix := [], funcMask := false, reads := [] }

/-- The link of a port is lost: the configuration state of its functions is reset, and each acts as with Bus Master Enable clear. (DEDUCED, log entry 67.) -/
def hostLinkLost (p : Nat) (s : State) : State :=
  (portFns s p).foldl (fun s fn => configReset fn s) ((s.count .hifPortLinkDowns p 0 1).setReg .hifPortSts p 0 0)

def linkUp (s : State) (p : Nat) : Bool := bit (s.reg .hifPortSts p) 0

def execDlDown (p : Nat) (s : State) : Res := run (p < 2) s fun s => onlyIf (linkUp s p) (hostLinkLost p) s

/-- The start-up step reached (R484). -/
def bootStep (s : State) : Nat := bits (s.reg .glbBootSts) 3 0

/-- A port may train: start-up has reached step 9 since the cold reset and PERSTn_N is deasserted. -/
def mayTrain (s : State) (p : Nat) : Bool :=
  (decide (9 ≤ bootStep s) || s.power.warm || (tget {} s.ports p).up) && (if p = 0 then s.pins.perst0N else s.pins.perst1N)

/-- A port's link completes training at a rate code 1 to 6 and a width (R421, R484). -/
def execPcieLinkUp (p speed width : Nat) (s : State) : Res :=
  run (p < 2) s fun s =>
    onlyIf (mayTrain s p && !linkUp s p && decide (1 ≤ speed) && decide (speed ≤ 6) && [1, 2, 4, 8, 16].contains width)
      (fun s => s.setReg .hifPortSts p 0 (1 + speed * 2 + width * 16)) s

/-- A configuration request is answered with Request Retry Status until start-up has reached HOLD (R422). (DESIGN CHOICE, log entry 68.) -/
def execPcieConfigRequest (p : Nat) (s : State) : Res :=
  run (p < 2) s fun s => onlyIf (linkUp s p) (send (.config p !(tget {} s.ports p).up)) s

/-- PERSTn_N: asserted, the port's link is held out of training (R515). (DEDUCED, log entry 67.) -/
def execPerstChange (p : Nat) (high : Bool) (s : State) : Res :=
  run (p < 2) s fun s =>
    let s := { s with pins := if p = 0 then { s.pins with perst0N := high } else { s.pins with perst1N := high } }
    if !high && linkUp s p then hostLinkLost p s else s

/-! ### Binding (R423, R437) -/

/-- A write of HIF.TEN_PORT from world S; it is ignored where it moves a tenant whose session is OPEN. (DEDUCED, log entry 66.) -/
def tenPortWrite (v : Nat) (s : State) : State :=
  let old := s.reg .hifTenPort
  if (List.range 16).any fun t => bit old t != bit v t && sessOpen s t then s.orReg .hifErr 0 0 1
  else s.setReg .hifTenPort 0 0 (v % 65536)

def execTenPortWrite (who : Nat) (val : Word) (s : State) : Res :=
  run (who < 19) s (onlyIf (who == 18) (tenPortWrite val.toNat))

end Sys2Proof.Machine
end

