-- ==== Sys2Proof/Machine/Determinism.lean ====
section
/-! DEFINITION. Strict mode (R254, R255, R269). -/
namespace Sys2Proof.Machine

open Sys2Proof

/-- A write of TEL.DET[t].CTRL: STRICT stands while STRICT_LOCK is set; STRICT_LOCK is set by management functions and world S only. A write
that sets the lock still writes STRICT, which was not locked. -/
def detWrite (who t v : Nat) (s : State) : State :=
  let locked := bit (s.reg .detCtrl 0 t) 1
  let s := if locked then s else s.setField .detCtrl 0 t 0 0 (bits v 0 0)
  if 16 ≤ who ∧ bit v 1 then s.setField .detCtrl 0 t 1 1 1 else s

/-- A tenant writes its own page, management functions and world S every page (R45, R269). -/
def execStrictWrite (who t : Nat) (val : Word) (s : State) : Res :=
  run (who < 19 && t < 16) s (onlyIf (who == t || decide (16 ≤ who)) (detWrite who t val.toNat))

def execStrictLockWrite (who t : Nat) (val : Word) (s : State) : Res :=
  run (who < 19 && t < 16) s (onlyIf (who == t || decide (16 ≤ who)) (detWrite who t val.toNat))

end Sys2Proof.Machine
end

