-- ==== Sys2Proof/Machine/Seam.lean ====
section
/-! DEFINITION. Seam link events: flits, replay, retraining, identity, transactions between devices of a board, time stamps (R318 to
R343). -/
namespace Sys2Proof.Machine

open Sys2Proof

/-! ### Flits (R319 to R322) -/

/-- A flit passes its FEC decode, its CRC, and its TYPE and zero fields (R319). -/
def flitGood (fec : Bool) (flit : Bytes) : Bool :=
  let h := fld flit 0 4
  fec && flit.length == 256 && fld flit 252 4 == crc32c (flit.take 252) && h % 4 != 3 && bits h 31 16 == 0 && (h % 4 == 1 || h / 4 == 0)

/-- A flit arrives in a slot that carries no CTRL flit (R319, R321): a DATA flit is accepted where its SEQ is the one expected, discarded
silently where it was accepted before, answered with a NAK otherwise or where it is discarded; an IDLE flit is dropped, and one whose zero
fields are not zero is counted. What cannot be read counts as a DATA flit. (DESIGN CHOICE, log entry 112.) -/
def execSeamDataFlit (l : Nat) (fec : Bool) (flit : Bytes) (s : State) : Res :=
  run (l < 24) s (onlyIf ((s.link l).st == .up) fun s =>
    let x := s.link l
    let h := fld flit 0 4
    let readable := fec && flit.length == 256 && fld flit 252 4 == crc32c (flit.take 252)
    let seq := bits h 13 2
    if readable && (h % 4 == 0 || h % 4 == 2) then (if flitGood fec flit then s else s.count .seamCrc l 0 1)
    else if flitGood fec flit && seq == x.rxSeq then ctrlSlot l (s.setLink l { x with rxSeq := (x.rxSeq + 1) % 4096 })
    else if flitGood fec flit && decide ((x.rxSeq + 4096 - seq) % 4096 ≤ 512) then s
    else sendCtrl l true s)

/-- Start a retrain (R323): the whole episode counts as one replay and one retrain, the replay buffer is kept, and the values of its bundle
are dealt again (R326). -/
def startRetrain (l : Nat) (s : State) : State :=
  let s := ((s.count .seamReplay l 0 1).countTv 3 1).count .seamRetrain l 0 1
  let s := s.setLink l { s.link l with st := .retrain, cause := s.tb.ticks, attempt := s.tb.ticks, deal := dealing s (linkMap s l).1 }
  if linkOn s l then bundleGo (linkMap s l).1 s else s

/-- Send again every flit from a SEQ onward (R321). -/
def resend (l seq : Nat) (s : State) : State :=
  let x := s.link l
  let old := x.buf.takeWhile fun f => f.seq != seq
  let again := x.buf.drop old.length
  let s := s.setLink l { x with buf := old ++ again.map fun f => { f with sends := f.sends + 1 } }
  again.foldl (fun s f => send (.flitAgain l (flitHead f.seq f.vc)) s) s

/-- Flits acknowledged up to a SEQ leave the replay buffer. -/
def ackFlits (l seq : Nat) (s : State) : State :=
  let x := s.link l
  if x.buf.any fun f => f.seq == seq then
    s.setLink l { x with buf := (x.buf.dropWhile fun f => f.seq != seq).drop 1, acked := s.tb.ticks }
  else s

/-- A CTRL flit passes its FEC decode and CRC, and its header names CTRL and is zero otherwise (R319). -/
def ctrlOk (f : CtrlFlit) : Bool := f.fec && f.crc && f.head == 2

/-- The peer's offset from the four stamps (R337): this device's last CTRL flit left at t1 and arrived at t2, the peer's left at t3 and
arrived at t4. (DEDUCED, log entry 37.) -/
def skewOf (t1 t2 t3 t4 : Nat) : Int := (((t2 : Int) - t1) - ((t4 : Int) - t3)) / 2

/-- A CTRL flit (R320, R322, R337): acknowledgement, credits, the peer's offset, and a NAK, which starts a resend. -/
def execSeamCtrlFlit (l : Nat) (flit : CtrlFlit) (s : State) : Res :=
  run (l < 24) s (onlyIf ((s.link l).st == .up) fun s =>
    if !ctrlOk flit then s.count .seamCrc l 0 1
    else
      let s := ackFlits l flit.ack s
      let t4 := s.tb.master.toNat
      let x := s.link l
      let s := s.setLink l { x with
        credits := flit.credits.take 3
        skew := x.t1.elim x.skew fun t1 => some (skewOf t1 flit.arrived flit.left t4)
        t4 := some t4 }
      let s := match flit.nak with
        | none => s
        | some q =>
          if (s.link l).buf.any fun f => f.seq == q then
            let s := ackFlits l ((q + 4095) % 4096) s
            if (s.link l).buf.any fun f => decide (16 ≤ f.sends) then startRetrain l s
            else resend l q ((s.count .seamReplay l 0 1).countTv 3 1)
          else s
      bundlesGo (ctrlSlot l (linkGo l s)))

/-- No acknowledgement for 100 µs while DATA flits are outstanding (R322). -/
def execSeamAckTimeout (l : Nat) (s : State) : Res :=
  run (l < 24) s (onlyIf ((s.link l).st == .up && (s.link l).buf != [] && decide ((s.link l).acked + 100 * usTicks ≤ s.tb.ticks)) (startRetrain l))

/-- A lane loses lock (R323). -/
def execSeamLaneFault (l : Nat) (s : State) : Res := run (l < 24) s (onlyIf ((s.link l).st == .up) (startRetrain l))

/-- A 1 ms window of a lane ends above 10^-4 (R323). -/
def execSeamSerWindow (l : Nat) (s : State) : Res := run (l < 24) s (onlyIf ((s.link l).st == .up) (startRetrain l))

/-! ### Link states (R323 to R325) -/

/-- Management functions and world S write the seam registers (R343). -/
def seamWriter (who : Nat) : Bool := decide (16 ≤ who)

/-- A write of CTRL.RETRAIN (R323). -/
def execSeamRetrainWrite (who l : Nat) (val : Word) (s : State) : Res :=
  run (who < 19 && l < 24) s (devInst who 0x0A <| onlyIf (seamWriter who && bit val.toNat 1 && (s.link l).st == .up) (startRetrain l))

/-- Retrain to restore ×4 (R323). -/
def rewiden (l : Nat) (s : State) : State := let s := startRetrain l s; s.setLink l { s.link l with widen := true }

/-- A write of CTRL.REWIDEN (R323). -/
def execSeamRewidenWrite (who l : Nat) (val : Word) (s : State) : Res :=
  run (who < 19 && l < 24) s (devInst who 0x0A <| onlyIf (seamWriter who && bit val.toNat 2 && (s.link l).st == .up) (rewiden l))

/-- A link from DISABLED or DOWN starts training, an off-board one after its cable record is checked (R325, R334). -/
def startTraining (l : Nat) (cable : Bytes) (s : State) : State :=
  let x := s.link l
  if linkOff s l ∧ cableOk cable = false then
    sticky none .seamErr l 0 8 (s.setLink l { x with st := .down, retry := s.tb.ticks + 100 * msTicks })
  else if linkOff s l ∨ linkOn s l then s.setLink l { x with st := .training, attempt := s.tb.ticks, cable := cable, lanes := 0xF, widen := true }
  else s

/-- A link leaves for DOWN or DISABLED: what waits on it goes, and from UP or RETRAIN its transactions move to the bundle (R325, R327). -/
def linkStop (l : Nat) (st : LinkSt) (s : State) : State :=
  let x := s.link l
  let up := x.st == .up || x.st == .retrain
  let deal := if x.st = .up then dealing s (linkMap s l).1 else x.deal
  let s := s.setLink l { x with st := st, wait := [], deal := deal }
  let s := s.setReg .seamPeerFdid l 0 0xFFFFF
  markDown l (if up then linkLost l s else s)

/-- A write of CTRL.ENABLE (R325). -/
def execSeamEnableWrite (who l : Nat) (val : Word) (cable : Bytes) (s : State) : Res :=
  run (who < 19 && l < 24) s (devInst who 0x0A <| onlyIf (seamWriter who) fun s =>
    let s := s.setReg .seamCtrl l 0 (bits val.toNat 0 0)
    let x := s.link l
    if bit val.toNat 0 then (if x.st == .disabled then startTraining l cable s else s)
    else
      linkStop l .disabled s)

/-- A link goes DOWN; from UP or RETRAIN it sets ERR.DOWN and its transactions move to the bundle (R324, R325). -/
def linkDown (l : Nat) (s : State) : State :=
  let up := (s.link l).st == .up || (s.link l).st == .retrain
  let s := linkStop l .down (if up then sticky none .seamErr l 0 2 s else s)
  s.setLink l { s.link l with retry := s.tb.ticks + (if linkOff s l then 100 else 1000) * msTicks }

/-- The link's width as its lanes give it: set, and LANE_FAIL below ×4 (R323, R343). -/
def setLanes (l m : Nat) (s : State) : State :=
  let s := s.setLink l { s.link l with lanes := m, widen := false }
  if m = 15 then s else s.orReg .seamErr l 0 1

/-- What this device sends of itself in CHECK (R332, R335). -/
def myIdent (s : State) (l : Nat) : SeamIdent :=
  { serial := fld s.seam.board 12 8, pos := boardPos s, link := l, fdid := myFdid s, cable := fld (s.link l).cable 8 8, tip := fld (s.link l).cable 16 1 }

/-- The lanes finish training (R323, R325): to CHECK, where the device sends its identity, or back to UP with a resend from the first
unacknowledged flit. -/
def execSeamTrained (l lanes : Nat) (s : State) : Res :=
  run (l < 24) s fun s =>
    let x := s.link l
    match pickLanes (x.widen || x.lanes == 15) lanes with
    | none => s
    | some m =>
      if x.st = .training then send (.ident l (myIdent s l)) (setLanes l m (s.setLink l { x with st := .check }))
      else if x.st = .retrain ∧ s.tb.ticks < x.cause + 50 * msTicks then
        let s := setLanes l m (s.setLink l { x with st := .up, acked := s.tb.ticks })
        let s := match (s.link l).buf with | f :: _ => resend l f.seq s | [] => s
        bundlesGo (markUp l (linkGo l s))
      else s

/-- The identity exchange ends (R332, R335). -/
def execSeamCheckDone (l : Nat) (peer : SeamIdent) (s : State) : Res :=
  run (l < 24) s (onlyIf ((s.link l).st == .check) fun s =>
    let x := s.link l
    let (q, k) := linkMap s l
    let same := if linkOn s l then peer.serial == fld s.seam.board 12 8 && peer.pos == q && peer.link == k
      else peer.cable == fld x.cable 8 8 && peer.tip != fld x.cable 16 1 && (boardPeer s peer.fdid).isNone && peer.fdid != myFdid s
    if same then
      let s := s.setLink l { x with
        st := .up, wasUp := true, acked := s.tb.ticks, credits := []
        txSeq := if x.wasUp then x.txSeq else 0, rxSeq := if x.wasUp then x.rxSeq else 0, buf := []
        wait := [], t1 := none, t4 := none, skew := none, slot := 0, ctrlAt := s.tb.ticks }
      markUp l (if linkOff s l then s.setReg .seamPeerFdid l 0 peer.fdid else s)
    else linkDown l (sticky none .seamErr l 0 4 s))

/-- No lane trains within 10 ms (R325); of a retrain, a new attempt begins while 50 ms have not passed (R323, R324). -/
def execSeamTrainTimeout (l : Nat) (s : State) : Res :=
  run (l < 24) s (onlyIf (decide ((s.link l).attempt + 10 * msTicks ≤ s.tb.ticks)) fun s =>
    let x := s.link l
    if x.st = .training then linkDown l s
    else if x.st = .retrain then s.setLink l { x with attempt := s.tb.ticks }
    else s)

/-- A link is not UP within 50 ms of the cause of its retrain (R324). -/
def execSeamRetrainTimeout (l : Nat) (s : State) : Res :=
  run (l < 24) s (onlyIf ((s.link l).st == .retrain && decide ((s.link l).cause + 50 * msTicks ≤ s.tb.ticks)) (linkDown l))

/-- The retry interval of a DOWN link expires (R324, R334). -/
def execSeamRetryInterval (l : Nat) (cable : Bytes) (s : State) : Res :=
  run (l < 24) s (onlyIf ((s.link l).st == .down && bit (s.reg .seamCtrl l) 0 && decide ((s.link l).retry ≤ s.tb.ticks)) (startTraining l cable))

/-! ### Transactions (R327, R340, R341) -/

/-- The check of a RESHARD write at its target (R340): the status that the acknowledgement carries. -/
def seamWriteCheck (s : State) (t a n : Nat) : Nat :=
  match regionAt s a n with
  | none => stDenied
  | some (_, g) =>
    if !((g.world && g.tenant == t) || bit g.share t) || !bit g.rights 6 then stDenied
    else if g.st = 2 then stRevoked else stOk

/-- A communicator of this device that answers collective traffic (R258). -/
def contribReady (s : State) (c : Contrib) : Bool :=
  match s.comm (tkey c.tenant c.comm) with
  | some x => decide (c.rank < x.ranks) && c.rank != x.rank
  | none => false

/-- A part of a contribution lands in the collective engine's buffers; a part already there stands, and so does what
an ended operation has combined. -/
def contribLand (c : Contrib) (s : State) : State :=
  let k := tkey c.tenant c.comm
  match s.comm k with
  | some x =>
    let running := s.ckpt.colls.any fun j => j.tenant == c.tenant && j.comm == c.comm && j.begun == some c.op
    if (decide (c.op < x.next) && !running) || x.parts.any fun p => p.rank == c.rank && p.op == c.op && p.off == c.off then s
    else workGo (s.setComm k (some { x with parts := x.parts ++ [c] }))
  | none => s

/-- A transaction arrives (R327, R338, R340): a repeat is acknowledged again with its status and not performed; collective traffic that no
communicator takes yet is not acknowledged, and its path retries it. On an off-board link it is a packet of the fabric transport. (DESIGN CHOICE, log entry 42.) -/
def execSeamTransaction (l seq : Nat) (m : SeamMsg) (s : State) : Res :=
  run (l < 24) s (onlyIf ((s.link l).st == .up) fun s =>
    if s.power.dstate ≠ .on then wakeDeep s else
    match m with
    | .packet b =>
      if linkOff s l then
        { s with net := { s.net with ftIn := s.net.ftIn ++ [{ mac := 32 + l, bytes := b, time := s.now, cls := 0, ft := true }] } }
      else s
    | m =>
      if !linkOn s l then s else
      let q := (linkMap s l).1
      let b := s.bundle q
      match b.seen.find? fun e => e.1 == seq with
      | some (_, st) => linkOut l (.ack seq st) s
      | none =>
        let note (st : Nat) (s : State) : State :=
          let b := s.bundle q
          linkOut l (.ack seq st) (s.setBundle q { b with seen := ((seq, st) :: b.seen).take 65536 })
        match m with
        | .signal ctr val t => note stOk (remoteApply 0x204 (fld s.seam.board 8 4 + q) ctr val t s).1
        | .write t a d =>
          let st := seamWriteCheck s t a d.length
          if st = stOk ∧ memWaits s a d.length then wakeSpan a d.length s
          else if st = stOk then
            let (s, r) := writeMem s a d
            let s := note (if r.isSome then stUncorr else stOk) s
            workGo (moveLanded t a d.length s)
          else note st s
        | .coll c => if contribReady s c then contribLand c (note stOk s) else s
        | .packet _ | .ack _ _ => s)

/-- An acknowledgement arrives (R327): the transaction is free, its command goes on, and held values may be dealt again. -/
def execSeamTransactionAck (peer seq st : Nat) (s : State) : Res :=
  run (peer < 8) s fun s =>
    let b := s.bundle peer
    match takeFirst (fun (t : SeamTx) => t.seq == some seq) b.txs with
    | none => s
    | some (t, rest) =>
      let lost := b.lost.filter fun (_, gone, _) => rest.any fun t => t.seq.isSome && t.resent == some gone
      let s := bundleGo peer (s.setBundle peer { b with txs := rest, lost := lost })
      match t.for_ with
      | .signal _ => s
      | .work id => workGo { s with ft := { s.ft with ends := s.ft.ends ++ [⟨id, 0, st, []⟩] } }

/-- Transactions end unacknowledged: signals are dropped and commands end with PEER_UNREACHABLE (R238, R341). -/
def txsLost (l : List SeamTx) (s : State) : State :=
  workGo (l.foldl (fun s t => match t.for_ with
    | .signal g => remoteLost g s
    | .work id => { s with ft := { s.ft with ends := s.ft.ends ++ [⟨id, 0, stPeer, []⟩] } }) s)

/-- 50 ms after a bundle's last link went DOWN its traffic reaches the retry limit (R341). Collective traffic that the peer of an UP
bundle has not taken for 50 ms reaches it too: its communicator is not there (R258). (DESIGN CHOICE, log entry 42.) -/
def execSeamBundleTimeout (peer : Nat) (s : State) : Res :=
  run (peer < 8) s fun s =>
    let b := s.bundle peer
    let down := match b.downAt with | some d => upLinks s peer == [] && decide (d + 50 * msTicks ≤ s.tb.ticks) | none => false
    if down then txsLost b.txs (s.setBundle peer { b with txs := [], lost := [] })
    else
      let late (t : SeamTx) : Bool := t.seq.isSome && decide (t.since + 50 * msTicks ≤ s.tb.ticks) && match t.msg with | .coll _ => true | _ => false
      if upLinks s peer = [] then s
      else txsLost (b.txs.filter late) (bundleGo peer (s.setBundle peer { b with txs := b.txs.filter fun t => !late t }))

/-- A contribution of a peer arrives at the collective engine (R258, R264). -/
def execCollectiveContribution (c : Contrib) (s : State) : Res :=
  run true s (onlyIf (contribReady s c) (contribLand c))

/-! ### Time stamps (R337) -/

/-- Once per millisecond an UP link writes the peer offset to TB_SKEW and flags an excess. -/
def execTbSkewSample (l : Nat) (s : State) : Res :=
  run (l < 24) s (onlyIf ((s.link l).st == .up && decide ((s.link l).sample ≤ s.tb.ticks)) fun s =>
    let x := s.link l
    let s := s.setLink l { x with sample := s.tb.ticks + msTicks }
    match x.skew with
    | none => s
    | some d =>
      let s := s.setReg .seamSkew l 0 (wrapInt 32 d)
      let lim := s.reg .seamTbLimit % 65536 * 65536
      if lim ≠ 0 ∧ lim < d.natAbs then
        raise 2 none (regAddr .seamSkew l 0 0) 0x800A (zeros 2 ++ leBytes 4 l ++ leBytes 4 (wrapInt 32 d)) (s.orReg .seamErr l 0 16)
      else s)

/-! ### Remote signals (R238) -/

/-- The writes of the signalling unit to the device are all acknowledged. -/
def unitWritesDone (s : State) (g : RemoteSig) : Bool :=
  (match boardPeer s g.fdid with
    | some q => (s.bundle q).txs.all fun t => match t.msg with | .write _ _ _ | .coll _ => t.unit != g.src | _ => true
    | none => true)
  && s.ft.msgs.all fun (_, m) => match m with
    | some m => m.op != 1 || m.dst != g.fdid || (match m.from_ with | .ring _ _ => g.src != 0x202 | .work _ _ => g.src != 0x210 && g.src != 0x211 | _ => true)
    | none => true

/-- A remote signal leaves, once earlier writes of its unit to that device are acknowledged: over a seam link on the same board, over
the fabric transport otherwise (R238, R388). -/
def execRemoteSignalSend (s : State) : Res :=
  run true s fun s =>
    match takeFirst (unitWritesDone s) s.sync.remote with
    | none => s
    | some (g, rest) =>
      let s := { s with sync := { s.sync with remote := rest } }
      match boardPeer s g.fdid with
      | some q => seamSend q g.src (g.ctr / 1024) (.signal g.ctr g.val g.tenant) (.signal g) s
      | none => ftStart {
          gen := 0, take := 0, from_ := .signal g, tenant := g.tenant, op := 0x0A, ord := true, cls := 0, dst := g.fdid, raddr := g.ctr, len := 4
          operand := g.val, mtu := ftMtu s, moved := s.tb.ticks } s

end Sys2Proof.Machine
end

