-- ==== Sys2Proof/Machine/Reset.lean ====
section
/-! DEFINITION. The reset levels and the start-up sequence (R431, R432, R481 to R486, R510). -/
namespace Sys2Proof.Machine

open Sys2Proof

/-! ### What a level resets (R482) -/

/-- The registers that a predicate on register, instance and copy selects return to their reset values. (DEDUCED, log entry 79.) -/
def resetWhere (p : Reg → Nat → Nat → Bool) (s : State) : State :=
  let hit (a : Nat) : Bool := match regOf a with | some (r, i, j, _) => p r i j | none => false
  { s with regs := tdrop s.regs hit, latch := tdrop s.latch hit }

/-- Counts that their meanings keep since cold reset. -/
def sinceCold (r : Reg) : Bool :=
  [Reg.memCe, .memUe, .memRetry, .memRefresh, .memRecalCount, .seamReplay, .seamRetrain, .seamCrc, .ethRxDrop, .ethErrCount,
   .ethNoTenant, .ethTxDenied, .ftRetx, .ftRnr, .ftRxBad, .ftStale, .ftCe, .driveStRestarts, .driveMedia, .hifFlrAborted].contains r

/-- The pages of a function: CMD[i] and HIF[i]. -/
def fnPage (i : Nat) (r : Reg) (k : Nat) : Bool := ((regRow r).blk == .cmd || (regRow r).blk == .hifFn) && k == i && !sinceCold r

/-- The pages of a tenant: SYNC with the contexts it owns, CKP, TEL.DET, FT.TEN, STO.TEN, PRS.TEN and the streams it owns. -/
def tenantPage (s : State) (t : Nat) (r : Reg) (i j : Nat) : Bool :=
  let ctxOf (c : Nat) : Bool := let w := s.reg .syncCtx 0 c; bit w 4 && bits w 3 0 == t
  match r with
  | .syncDefTmo | .syncEpoch | .syncFnCtx => j == t
  | .syncCtx | .syncCtxLen | .syncCtxTmo => ctxOf j
  | .syncCoreCtx => coreOwner s j == t + 1
  | .ckpSts | .ckpRank | .ckpStepA | .ckpStepB | .ckpStageBase | .ckpStageBytes | .ckpErr => i == t
  | .detCtrl | .detSts | .detVar | .detRefusals => j == t
  | .ftTenCtrl | .ftTenSts => i == t
  | .stoSqTail | .stoCqHead | .stoTenSts | .stoTenErr => i == t
  | .prsRxBase | .prsRxSlots | .prsRxDone | .prsNomatch | .prsRed | .prsRxDrop | .prsSlowDrop => j == t
  | .strmSync | .strmSts | .strmOffset | .strmRecords | .strmConsumed | .strmErr | .strmDrops => (s.stream j).owner == some t
  | _ => false

/-- The blocks that a warm reset reaches. (DEDUCED, log entry 72.) -/
def warmBlk (r : Reg) : Bool :=
  !sinceCold r && match r with
  | .seamBoard => false
  | .telTv | .detCtrl | .detSts | .detVar | .detRefusals => true
  | r => match (regRow r).blk with
    | .memc | .hbmG | .seam | .seamG | .eth | .prs | .tsc | .ft | .ftTen | .ftBkt | .drive | .stoG | .stoTen | .stoVol
    | .cmd | .hifFn | .sync | .ckp | .lode | .me | .bc => true
    | _ => false

/-! ### Tenant reset (R431 step 3) -/

/-- A path's queue is emptied with its records counted in DROP (R510). -/
def emptyPath (p : Nat) (s : State) : State :=
  let x := s.path p
  flushPath p ((s.setPath p { x with queue := [] }).count .errPathDrop 0 p x.queue.length)

/-- The frame path at a tenant reset (R369). -/
def netTenantReset (t : Nat) (s : State) : State :=
  let mine := (s.net.streams.filter fun e => e.2.owner == some t).map (·.1)
  let s := mine.foldl (fun s st => dropWaiting st s) s
  let mineQ (q : Nat) : Bool := decide (8 * t ≤ q) && decide (q < 8 * t + 8) || decide (128 + 8 * t ≤ q) && decide (q < 128 + 8 * t + 8)
  { s with net := { s.net with
      sets := s.net.sets.filter fun r => r.tenant != t
      commits := s.net.commits.filter fun c => c.tenant != t
      staged := tdrop s.net.staged fun k => k / 256 == t
      patOwner := s.net.patOwner.filter fun e => e.2 != t + 1
      streams := tdrop s.net.streams mine.contains
      wq := tdrop s.net.wq mineQ
      rxSeq := tdrop s.net.rxSeq (· == t) } }

/-- Checkpoints, collectives and moves at a tenant reset (R258, R280, R281). A drain's storage command runs its drive writes to their end. (DEDUCED, log entry 73.) -/
def ckptTenantReset (t : Nat) (s : State) : State :=
  let ds := (s.ckpt.drains.filter fun d => d.tenant == t).map (·.id)
  let stop (o : StoOp) : StoOp := match o.for_ with
    | .drain id => if ds.contains id then { o with
        for_ := .gone, sig := none
        parts := o.parts.map fun p => if p.phase == .wait || (p.phase == .spare && p.fill == 0) then { p with phase := .stopped } else p } else o
    | _ => o
  { s with
    sto := { s.sto with ops := s.sto.ops.map stop }
    ckpt := { s.ckpt with
      slots := tdrop s.ckpt.slots fun k => k / 2 == t
      pools := tdrop s.ckpt.pools (· == t)
      ranks := tdrop s.ckpt.ranks (· == t)
      sigs := tdrop s.ckpt.sigs (· == t)
      layouts := tdrop s.ckpt.layouts fun k => k / 256 == t
      comms := tdrop s.ckpt.comms fun k => k / 256 == t
      saves := s.ckpt.saves.filter fun x => x.tenant != t
      rests := s.ckpt.rests.filter fun x => x.tenant != t
      drains := s.ckpt.drains.filter fun x => x.tenant != t
      takes := s.ckpt.takes.filter fun x => x.tenant != t
      colls := s.ckpt.colls.filter fun x => x.tenant != t } }

/-- Every subsystem of a tenant resets: lodes and groups, IBC, counters and waits, regions, transport, frame path, storage, checkpoints,
pages, log ring and trace. Assignments stay. (DEDUCED, log entry 73.) -/
def tenantReset (t : Nat) (s : State) : State :=
  let s := (List.range 32).foldl (fun s n => if lodeOwner s n = t + 1 then resetLode n s else s) s
  let s := s.groups.foldl (fun s (g, x) => if x.st ≠ .free ∧ x.tenant = t then freeGroup g s else s) s
  let s := (List.range 16).foldl (fun s i =>
    if tget 0 s.own.ibcs i = t + 1 then resetRegs (0x280000 + 0x1000 * i) (0x281000 + 0x1000 * i) (resetCore (256 + i) s) else s) s
  let s := settleAll (zeroCounters (fun p => ctrOwner s p == t + 1) (dropTenantWaits t s))
  let s := { s with
    sync := { s.sync with remote := s.sync.remote.filter fun g => g.tenant != t }
    own := { s.own with regions := s.own.regions.map fun (e, g) =>
      if g.st = 1 ∧ g.world ∧ g.tenant = t then (e, { g with st := 2, cmd := none }) else (e, if g.world ∧ g.tenant = t then { g with cmd := none } else g) } }
  let s := ckptTenantReset t s
  let s := netTenantReset t (resetWhere (tenantPage s t) (stoTenantReset t (ftTenantReset t s)))
  let s := { s with sec := { s.sec with ctxs := s.sec.ctxs.filter fun o => o.tenant != t } }
  emptyPath t { s with tel := { s.tel with rings := tdrop s.tel.rings (· == t), traces := tdrop s.tel.traces (· == t) } }

/-! ### Function-level and port reset (R431, R432) -/

/-- Steps 1 and 2 of R431 for a function: its commands end, counted in FLR_ABORTED where a function-level reset does it. -/
def fnEnd (i : Nat) (warm : Bool) (s : State) : State :=
  let mine := s.cmd.cmds.filter fun c => c.fn == i
  let live := (mine.filter fun c => c.phase != .done).length
  let s := mine.foldl (fun s c => cancelCmd c s) s
  let s := dropCmds (fun c => c.fn == i) s
  if warm then s else s.count .hifFlrAborted i 0 live

/-- Step 4 of R431: the session is in HOLD, every queue pair ABSENT, translation, heartbeat and pages are cleared, and the PCIe
configuration state unless a warm reset keeps it. -/
def fnHold (i : Nat) (warm : Bool) (s : State) : State :=
  let s := { s with cmd := { s.cmd with qps := tdrop s.cmd.qps fun k => k / 64 == i, sessions := tdrop s.cmd.sessions (· == i) } }
  let s := resetWhere (fun r k _ => fnPage i r k) s
  let h := s.host i
  let s := s.setHost i { bme := h.bme, mse := h.mse, msix := h.msix, funcMask := h.funcMask }
  let s := if warm then s else configReset i s
  if i < 16 then s else { s with tel := { s.tel with rings := if warm then s.tel.rings else tdrop s.tel.rings (· == i) } }

/-- A function-level reset: of a tenant's function a tenant reset, of function 0 the management function alone. -/
def functionReset (i : Nat) (s : State) : State :=
  let s := fnEnd i false s
  if i < 16 then holdsChanged (fnHold i false (tenantReset i s)) else emptyPath i (fnHold i false s)

def execFunctionLevelReset (i : Nat) (s : State) : Res := run (i < 18) s (functionReset i)

/-- A Hot Reset or Link Disable of a port. -/
def execHostPortReset (p : Nat) (s : State) : Res :=
  run (p < 2) s fun s =>
    let s := (portFns s p).foldl (fun s fn => functionReset fn s) s
    s.setReg .hifPortSts p 0 0

/-! ### Warm reset (R481 to R483, R510, R515) -/

/-- A warm reset leaves a path's queued and pending ALARM records; the others are counted in DROP and in the GAP accumulator. (DEDUCED, log entry 73.) -/
def warmPath (s : State) (p : Nat) : State :=
  let x := s.path p
  let lost := (x.queue.filter fun (r, _) => r.cls != 0).map (·.1)
  let n (r : Rec) : Nat := r.count
  let s := s.count .errPathDrop 0 p (lost.map n).sum
  flushPath p (s.setPath p { x with
    queue := x.queue.filter fun (r, _) => r.cls == 0
    gap := lost.foldl (fun g r => accAdd g r.count r.seq) x.gap })

/-- The part returns to start-up step 4: commands, tenants, sessions, assignments, segments, tables. (DEDUCED, log entry 55; DEDUCED, log entry 72.) -/
def warmReset (s : State) : State :=
  let s := (List.range 18).foldl (fun s i => fnEnd i true s) s
  let s := (List.range 16).foldl (fun s t => tenantReset t s) s
  let s := (List.range 18).foldl (fun s i => fnHold i true s) s
  let s := (List.range 20).foldl warmPath s
  let s := resetWhere (fun r _ _ => warmBlk r) s
  let halted := (s.fwp 34).st == .halted
  { s with
    tb := { s.tb with armed := [] }
    power := { s.power with opCmds := [], deepCmd := none, exitCmds := [], dstate := .on, noFirmware := true, noSession := false, warm := true }
    cmd := { nextId := s.cmd.nextId, ended := s.cmd.ended }
    sync := {}
    fw := if halted then tput {} [] 34 { st := .halted } else []
    own := { regions := s.own.regions.filterMap fun ((e, g) : Nat × Region) =>
      let k := if g.st = 0 then g.gen else (g.gen + 1) % 256
      if k = 0 then none else some (e, { gen := k }) }
    eng := []
    chains := []
    cores := []
    lodes := []
    groups := []
    net := {}
    sto := {}
    seam := { board := s.seam.board }
    ft := { gens := s.ft.gens }
    ckpt := {}
    keys := []
    sec := { s.sec with image := none, toRaise := false, rngWait := [], ctxs := [] } }.setField .glbBootSts 0 0 3 0 4

/-- Requests for a warm reset: GLB.RESET from a management function or world S (0 to 18), WARM_RESET_N asserted (19) and deasserted (21),
the sideband (20). One runs at a time, and none before start-up has reached HOLD (log entry 55). -/
def execWarmReset (src : Nat) (s : State) : Res :=
  run (src < 22) s fun s =>
    let s := if src = 19 then { s with pins := { s.pins with warmN := false } }
      else if src = 21 then { s with pins := { s.pins with warmN := true } } else s
    if src < 16 ∨ src = 21 ∨ s.power.warm ∨ (tget {} s.ports 0).up = false then s else warmReset s

/-! ### Cold reset (R469, R481, R515) -/

/-- Every state is reset; what stands outside the part, in its boot flash and on its pins stays. BOOT_NONCE is drawn, and start-up is in
step 1. (DESIGN CHOICE, log entry 71.) -/
def coldReset (s : State) : State :=
  let s := { State.reset with
    fresh := s.fresh
    pins := { s.pins with pwrGood := true, posId := 0, apMode := 0, thermTrip := false, tapBypass := false, tapOut := 0 }
    hostMem := s.hostMem
    wire := s.wire
    sec := { images := s.sec.images, unusable := s.sec.unusable, active := s.sec.active, counters := s.sec.counters, owner0 := s.sec.owner0, helper := s.sec.helper }
    pending := s.pending }
  let (k, s) := draw s
  (s.setReg .glbBootNonce 0 0 (Config.random k)).setField .glbBootSts 0 0 3 0 1

/-- PWR_GOOD rises (0), COLD_RESET_N asserts (1) or deasserts (2). COLD_RESET_N acts while PWR_GOOD is high;
after a thermal trip only the next power-up does, before which the rails have been off (R474, R516). (DESIGN CHOICE, log entry 71; DEDUCED, log entry 81.) -/
def execColdReset (pin : Nat) (s : State) : Res :=
  .next <|
    if pin = 0 then coldReset s
    else if pin = 1 then
      let s := { s with pins := { s.pins with coldN := false } }
      if s.pins.pwrGood ∧ s.power.tripped = false then coldReset s else s
    else if pin = 2 then { s with pins := { s.pins with coldN := true } }
    else s

/-! ### Start-up (R484 to R486) -/

def setStep (n : Nat) (s : State) : State := s.setField .glbBootSts 0 0 3 0 n

/-- A failure code: the first one stays in BOOT_STS.FAIL and is recorded; 0x07 is an ALARM (R494). -/
def bootFail (code : Nat) (s : State) : State :=
  if bits (s.reg .glbBootSts) 11 4 ≠ 0 then s
  else raise (if code = 7 then 0 else 1) none (regAddr .glbBootSts 0 0 0) 0x8001 (zeros 2 ++ leBytes 4 (code * 16) ++ zeros 8)
    (s.setField .glbBootSts 0 0 11 4 code)

/-- An image slot that a boot may take: usable, and its image verifies (R451, R452). -/
def slotBoots (s : State) (k : Nat) : Option BootImage :=
  let m := Config.bootImage (slotImage s k)
  if !bit s.sec.unusable k && imageOk s m then some m else none

/-- The image of a slot is taken: the owner key is bound on the first boot that finds none, and M2 and M3 are extended (R450, R451, R453). -/
def takeImage (k : Nat) (m : BootImage) (s : State) : State :=
  let s := { s with sec := { s.sec with
    image := some m, toRaise := true, active := some k
    owner0 := match ownerDigest s with | some d => some d | none => some (sha3 m.ownerKey) } }
  extend 3 (sha3 m.owner) (extend 2 (sha3 m.header) (s.setField .glbSecSts 0 0 5 5 k))

/-- Step 4: the active slot's image, or else the other slot's (R451). An alarm leaves the part without firmware (R464, R483),
and so does a root secret that no cold reset has given it (R445). -/
def bootImages (s : State) : State :=
  let k := s.sec.active.getD Config.flashActive % 2
  if secHalted s || !s.sec.derived then setStep 6 s
  else match slotBoots s k with
    | some m => setStep 5 (takeImage k m s)
    | none => match slotBoots s (1 - k) with
      | some m => setStep 5 (takeImage (1 - k) m (s.orReg .glbSecSts 0 0 0x10))
      | none => setStep 6 (bootFail 4 s)

/-- Step 5: the security core fills the firmware image store with the verified image, firmware runs, and the key capsules open into
their slots (R243). (DEDUCED, log entry 74.) -/
def bootFirmware (s : State) : State :=
  let s := { s with power := { s.power with noFirmware := false }, sec := { s.sec with store := slotImage s (bits (s.reg .glbSecSts) 5 5) } }
  let s := (List.range 35).foldl (fun s p =>
    if (s.fwp p).st = .running then s.setFw p { wd := s.tb.ticks, sram := Config.fwPart s.sec.store p } else s) s
  match s.sec.image with
  | some m => m.capsules.foldl (fun s (k, key) =>
      if 1016 ≤ k ∧ k < 1024 then { s with keys := tput {} s.keys k { mode := 3, key := key } } else s) s
  | none => s

/-- The board record is taken or refused (R331). (DESIGN CHOICE, log entry 75; DESIGN CHOICE, log entry 76.) -/
def bootBoard (rec : Bytes) (s : State) : State :=
  let pos := s.pins.posId
  let sig := match s.sec.image with
    | some m => m.boardKeys.any fun (i, pub) => i == fld rec 20 4 && Config.dsaOk pub (slice rec 0 452) (slice rec 452 4627)
    | none => false
  let legal := boardLegal rec pos
  if sig && legal then
    let s := s.setReg .seamBoard 0 0 (pos + fld rec 6 1 % 16 * 16 + 0x100)
    let s := s.setReg .seamFdid 0 0 (fld rec 8 4 + pos)
    extend 4 (sha3 rec) { s with seam := { s.seam with board := rec } }
  else
    let s := (s.setReg .seamBoard 0 0 pos).setReg .seamFdid 0 0 0xFFFFF
    sticky none .seamBoard 0 0 ((if sig then 0 else 0x200) + if legal then 0 else 0x400) { s with seam := { s.seam with board := [] } }

/-- LPX[m].STS.FITTED stays 0 where it should not (R486): an EVENT record. (DEDUCED, log entry 74.) -/
def notFitted (m : Nat) (s : State) : State :=
  raise 2 none (regAddr .memSts (8 + m) 0 0) 0x8001 (zeros 2 ++ leBytes 4 0x20 ++ zeros 8) s

/-- A module that the device uses (R299): LPCAMM2, 64 GiB, 128 bits wide, 9,600 MT/s or faster. -/
def spdOk (x : Spd) : Bool := x.lpcamm2 && x.gib == 64 && x.bits == 128 && decide (9600 ≤ x.rate)

/-- Step 6, the identity scan: the board record, the modules, the Ethernet modules and the regulators; `idents` are the identities of what
is accepted. (DESIGN CHOICE, log entry 75.) -/
def bootScan (straps : Nat) (board : Bytes) (scan : Scan) (idents : List Bytes) (s : State) : State :=
  let s := bootBoard board s
  let s := (List.range 4).foldl (fun s m =>
    match (scan.spds.getD m none) with
    | some x => if spdOk x then s.setField .memSts (8 + m) 0 5 5 1 else notFitted m (s.setField .memSts (8 + m) 0 5 5 0)
    | none => s.setField .memSts (8 + m) 0 5 5 0) s
  let s := if modules s = [] then notFitted 0 s else s
  let s := (List.range 8).foldl (fun s p =>
    if bit scan.ethGood p then s.orReg .ethSts p 0 0x40 else if bit scan.ethBad p then sticky none .ethErr p 0 1 s else s) s
  let s := if scan.noVr % 4 = 0 then { s with power := { s.power with vrAck := true } }
    else sticky none .pwrErr 0 0 4 { s with power := { s.power with vrAck := false } }
  let s := idents.foldl (fun s d => extend 4 (sha3 d) s) s
  extend 5 (sha3 (leBytes 1 straps ++ leBytes 4 partId)) s

/-- Step 7: `trained` says which stacks (bits 7:0) and modules (11:8) trained. (DEDUCED, log entry 74.) -/
def bootTrain (trained : Nat) (s : State) : State :=
  let s := (List.range 8).foldl (fun s h => s.setField .memSts h 0 0 0 (if bit trained h then 1 else 0)) s
  let s := (modules s).foldl (fun s m =>
    if bit trained (8 + m) then s.orReg .memSts (8 + m) 0 1
    else stickyRec 0 none 0 .memErr (8 + m) 0 0x40 (s.setField .memSts (8 + m) 0 5 5 0)) s
  if trained % 256 = 255 then s else bootFail 7 { s with power := { s.power with noSession := true } }

/-- Step 8: enabled seam links train, and the drives that show presence are identified. -/
def bootSerdes (cables : List Bytes) (drives : List (Option DriveId)) (s : State) : State :=
  let s := (List.range 24).foldl (fun s l =>
    if bit (s.reg .seamCtrl l) 0 && (s.link l).st == .disabled then startTraining l (cables.getD l []) s else s) s
  (drives.take 4).zipIdx.foldl (fun s (d, k) => match d with | some i => driveAccept k i s | none => s) s

/-- A world-S region of the part's own (R301, R402): the first ABSENT entry. (DESIGN CHOICE, log entry 76.) -/
def ownRegion (base n : Nat) (s : State) : State :=
  let (k, s) := draw s
  let e := freeEntry s
  let e := e.getD 8191
  let g := s.region e
  s.setRegion e { base := base, bytes := n, key := e + Config.random k % 2 ^ 19 * 2 ^ 13, gen := g.gen, rights := 3, st := 1 }

/-- HOLD is reached: both ports answer configuration requests normally (R422). -/
def portsUp (s : State) : State :=
  let up (t : Tbl HostPort) (p : Nat) : Tbl HostPort := tmod {} t p fun x => { x with up := true }
  { s with power := { s.power with warm := false }, ports := up (up s.ports 1) 0 }

/-- Step 10 begins: every lode zero-fills its strata memory (R168). -/
def bootZero (s : State) : State := setStep 10 ((List.range 32).foldl (fun s n => startZeroing n 0 s) s)

/-- Step 10 ends once no lode zero-fills: the write buffer and below it the storage map are placed, and the initial assignments applied. -/
def bootHold (s : State) : State :=
  let f := (modules s).length
  let top := if f = 0 then hbmBytes else lpxBase + f * 56 * 2 ^ 30
  let s := ownRegion (top - 2 ^ 31) (2 ^ 31) s
  let units := (s.sto.drives.map fun (_, d) => match d.id with | some i => if d.accepted then i.blocks / 64 else 0 | none => 0).sum
  let s := if units = 0 then s else ownRegion (top - 2 ^ 31 - ceilDiv (4 * units) 4096 * 4096) (ceilDiv (4 * units) 4096 * 4096) s
  let l := match s.sec.image with | some m => if s.power.noFirmware then [] else m.assigns | none => []
  let s := l.foldl (fun s a => match assignNo s a with
    | some _ => s.orReg .glbSecSts 0 0 2
    | none => assign a s) s
  let s := if l = [] then s else extend 6 (sha3 (l.flatMap fun a =>
    leBytes 1 a.kind ++ leBytes 1 a.world ++ leBytes 2 a.index ++ leBytes 1 a.tenant ++ leBytes 4 a.first ++ leBytes 4 a.count)) s
  portsUp s

/-- The helper record in the boot flash: the board maker's, or the one that the part wrote when it enrolled itself (R447). -/
def helper (s : State) : Bytes := if Config.helperRecord.isEmpty then s.sec.helper else Config.helperRecord

/-- The start-up step that runs ends. In step 1 `straps` holds POS_ID in bits 2:0 and AP_MODE in bit 3; in step 5, where firmware
processors do not start, `straps` is their mask. While COLD_RESET_N is asserted the part stays in step 1. (DEDUCED, log entry 72; DESIGN CHOICE, log entry 75.) -/
def execStartupStepDone (ok : Bool) (straps : Nat) (board : Bytes) (fitted : Scan) (idents cables : List Bytes) (trained : Nat)
    (drives : List (Option DriveId)) (s : State) : Res :=
  run true s fun s =>
    match bootStep s with
    | 0 | 1 =>
      if !s.pins.coldN then s
      else if ok then
        let s := { s with pins := { s.pins with posId := straps % 8, apMode := bits straps 3 3 } }
        setStep 2 ((s.setReg .hifCfg 0 0 (bits straps 3 3)).setReg .seamBoard 0 0 (straps % 8))
      else setStep 1 (bootFail 1 s)
    | 2 =>
      if !ok || (s.sec.rngFail && decide (s.sec.rngSince + 10 * msTicks ≤ s.tb.ticks)) then setStep 6 (bootFail 2 s)
      else if s.sec.rngFail then s
      else setStep 3 (extend 0 (fit 64 Config.romDigest) s)
    | 3 =>
      if ok then
        let s := { s with sec := { s.sec with derived := true } }
        if helper s = [] then
          let (k, s) := draw s
          let s := { s with sec := { s.sec with helper := Config.enrolRecord k } }
          setStep 4 (extend 1 (sha3 (helper s)) (s.orReg .glbSecSts 0 0 8))
        else setStep 4 (extend 1 (sha3 (helper s)) s)
      else setStep 6 (s.orReg .glbSecSts 0 0 4)
    | 4 => if ok then bootImages s else setStep 6 (bootFail 4 s)
    | 5 =>
      let s := bootFirmware s
      setStep 6 (if ok then s else (List.range 34).foldl (fun s p => if bit straps p then crash p 0 s else s) (bootFail 5 s))
    | 6 => setStep 7 (bootScan (s.pins.posId + s.pins.apMode * 8) board fitted idents s)
    | 7 => setStep 8 (bootTrain trained s)
    | 8 => let s := bootSerdes cables drives s; if s.power.warm then bootZero s else setStep 9 s
    | 9 => bootZero s
    | _ => if (s.power.warm || !(tget {} s.ports 0).up) && (List.range 32).all (fun n => tget 0 s.own.zeroing n == 0) then bootHold s else s

end Sys2Proof.Machine
end

