-- ==== Sys2Proof/Machine/RegMap.lean ====
section
/-! DEFINITION. The register space: what each requester sees, the live value of every register, writes by access type with each register's own
behaviour, and requests by device address (R11, R14, R36, R42, R44, R45, R425, R440, R528). -/
namespace Sys2Proof.Machine

open Sys2Proof

/-! ### Who sees a register (R45, R440) -/

/-- Assignable instances: the owner code of a lode's or an IBC's register, or the device block by BAR0 base bits [27:20]. -/
inductive Inst where
  | free | owned (o : Nat) | dev (d : Nat)
  deriving DecidableEq, Repr

def instOf (s : State) (r : Reg) (i : Nat) : Inst :=
  match (regRow r).blk with
  | .lode => .owned (lodeOwner s i)
  | .me => .owned (lodeOwner s (i / 2))
  | .bc => .owned (coreOwner s i)
  | .memc => if i < 8 then .free else .dev 0x09
  | .seam | .seamG => .dev 0x0A
  | .eth | .prs | .tsc | .ft | .ftTen | .ftBkt => .dev 0x0C
  | .drive | .stoG | .stoTen | .stoVol => .dev 0x0E
  | _ => .free

/-- The instance stands in world S. -/
def instInS (s : State) (r : Reg) (i : Nat) : Bool :=
  match instOf s r i with
  | .free => false
  | .owned o => o == 0
  | .dev d => tget 0 s.own.devs d == 0

/-- The registers that a tenant's BAR0 shows: its own pages and instances, and those that every function reads. (DEDUCED, log entry 77.) -/
def tenantSees (s : State) (t : Nat) (r : Reg) (i j : Nat) : Bool :=
  match instOf s r i with
  | .owned o => o == t + 1
  | _ => match r with
    | .glbAlive | .glbPartId | .telTv | .tbNow | .tbFrac => true
    | .errTenFirst | .errTenCtl | .logHead | .logTail | .logClasses => j == t
    | .syncCnt => ctrOwner s j == t + 1
    | .regionWin => (s.region j).world && (s.region j).tenant == t
    | .volSts | .volBlocks => (s.vol i).st == 2 && (s.vol i).tenant == t
    | _ => match (regRow r).blk with
      | .cmd | .hifFn => i == t
      | _ => tenantPage s t r i j

/-- Registers of world S only, whole or for writing (R297, R317, R438). -/
def onlyS (r : Reg) : Bool := r == .memInject
def writeS (r : Reg) : Bool := r == .memInject || r == .segMode || r == .regionWin || r == .hifTenPort || r == .hifView

/-- Registers that tenants see and do not write. -/
def tenantKeeps (r : Reg) : Bool := r == .cmdWeight || r == .ftTenCtrl

/-- Function `who`, or world S as 18, reads a register's value; otherwise it reads zero. (DEDUCED, log entry 77.) -/
def regSeen (s : State) (who : Nat) (r : Reg) (i j : Nat) : Bool :=
  who == 18 || (!instInS s r i && !onlyS r && (decide (16 ≤ who) || tenantSees s who r i j))

def regTakes (s : State) (who : Nat) (r : Reg) (i j : Nat) : Bool :=
  who == 18 || (regSeen s who r i j && !writeS r && (decide (16 ≤ who) || !tenantKeeps r))

/-! ### Live values -/

def flag (c : Bool) (i : Nat) : Nat := if c then 2 ^ i else 0

/-- The region table window's entry (R312). -/
def regionWord (g : Region) : Nat :=
  leNat (leBytes 8 g.base ++ leBytes 8 g.bytes ++ leBytes 4 g.key ++ leBytes 1 g.gen ++ leBytes 1 g.rights ++ leBytes 1 g.ilv ++ leBytes 1 g.st
    ++ leBytes 1 (g.tenant % 16 + flag g.world 4) ++ zeros 1 ++ leBytes 2 g.share)

def seamStsOf (s : State) (l : Nat) : Nat :=
  let x := s.link l
  let st := match x.st with | .disabled => 0 | .down => 1 | .training => 2 | .check => 3 | .up => 4 | .retrain => 5
  let (w, lane) := match x.lanes with | 15 => (0, 0) | 3 => (1, 0) | 12 => (2, 0) | 1 => (3, 0) | 2 => (3, 1) | 4 => (3, 2) | 8 => (3, 3) | _ => (0, 0)
  let (q, k) := linkMap s l
  st + w * 8 + lane * 32 + flag (linkOff s l) 7 + (if linkOn s l then q % 8 * 256 + k % 32 * 2048 else 0)

def meStsOf (s : State) (n : Nat) : Nat :=
  let e := s.engine n
  let held := e.phase == .idle && (bit (s.reg .meCtrl n) 0 || lodeHold s (n / 2))
  let st := if held then 3 else match e.phase with | .idle => 0 | .running => 1 | .draining => 2
  st + e.queue.length * 4 + (match e.shape with | some (m, k) => 64 + m * k % 32 * 128 | none => 0)

def bcStsOf (s : State) (k : Nat) : Nat :=
  let c := s.core k
  coreCode s k + flag c.stall 3 + (if c.stall then c.why % 4 * 16 else 0) + flag c.rep.isSome 6 + flag c.fwLost 7 + c.exc % 256 * 256
    + c.repLeft % 8192 * 65536

def lodeLockOf (s : State) (n : Nat) : Nat :=
  s.reg .lodeLock n + match groupOf s n with | some (g, x) => g + 32 + grpCode x * 64 | none => 0

def lodeStsOf (s : State) (n : Nat) : Nat :=
  let o := lodeOwner s n
  let cc := match (s.fwp n).st with | .running => 0 | .restarting => 1 | .lost => 2 | .halted => 0
  (if o = 0 then 0 else o - 1 + 16 + 32) + cc * 64 + flag (tget 0 s.own.zeroing n != 0) 8 + flag (lodeHeld s n) 9

def ckpStsOf (s : State) (t : Nat) : Nat :=
  (s.ckSlot t 0).st + (s.ckSlot t 1).st * 8 + flag (tget none s.ckpt.ranks t).isSome 6 + flag (s.ckpt.saves.any fun x => x.tenant == t && x.phase == 3) 7

def strmStsOf (s : State) (st : Nat) : Nat :=
  let x := s.stream st
  flag x.isOpen 0 + (match x.owner with | some t => 2 + t * 4 | none => 0) + flag x.held 6 + flag (streamMulti s st) 7 + x.tail.length % 32 * 256

def gateStsOf (s : State) (m : Nat) : Nat :=
  let x := s.mac m
  (match x.gates with | some g => (g.entries.getD x.entry (0, 0)).1 % 256 + x.entry % 256 * 256 | none => 255) + flag x.gates.isSome 16
    + flag x.pend.isSome 17 + flag (bit (s.reg .tscGateSts m) 18) 18

def driveStsOf (s : State) (d : Nat) : Nat :=
  let x := s.drive d
  flag x.accepted 0 + x.refuse % 8 * 2 + driveCode s d * 16 + x.ps % 32 * 64
    + flag (match x.test with | some t => t.on | none => false) 11 + match x.id with | some i => i.width % 16 * 4096 + i.speed % 8 * 65536 | none => 0

def volStsOf (s : State) (v : Nat) : Nat :=
  let x := s.vol v
  x.st + (if x.st = 2 then x.tenant * 4 else 0) + x.mask % 16 * 64 + flag (x.st != 0 && degraded s v) 10
    + match x.preq with | some p => p % 32 * 2048 + 65536 | none => 0

/-- HIF[i].STS as read (R420). (DEDUCED, log entry 67.) -/
def hifStsOf (s : State) (i : Nat) : Nat :=
  let h := s.host i
  let held := if h.bme then 0 else (s.cmd.cmds.filter fun c => c.fn == i && c.phase == .done).length
  flag h.bme 0 + flag h.mse 1 + flag (h.reads != []) 2 + flag h.hbLost 4 + flag h.jobHeld 5 + min 4095 held * 64

/-- A set of numbers below `n` as a mask. -/
def setMask (n : Nat) (p : Nat → Bool) : Nat := ((List.range n).map fun k => flag (p k) k).sum

/-- The value a register shows: what is stored, or what it reflects. -/
def regLive (s : State) (r : Reg) (i j : Nat) : Nat :=
  match r with
  | .glbAlive => 0x1AC05EED
  | .glbPartId => partId
  | .glbDeviceId => bits Config.deviceId.toNat (32 * j + 31) (32 * j)
  | .glbFwSts => flag ((s.fwp 32).st != .running) 0 + flag ((s.fwp 33).st != .running) 2 + flag ((s.fwp 34).st == .halted) 5
  | .hifSts => hifStsOf s i
  | .hifHb => if sessOpen s i then (tget {} s.cmd.sessions i).hbMs + (tget {} s.cmd.sessions i).policy * 65536 else 0
  | .hifQp => let x := s.qp i j; if x.st = 0 then 0 else x.head + x.cqTail * 4096 + flag x.phase 24 + x.st * 2 ^ 25
  | .cmdQerr => setMask 64 fun q => (s.qp i q).st == 2
  | .cmdBundle => bundleNow s
  | .ckpSts => ckpStsOf s i
  | .syncCnt => let c := s.ctr j; c.count.toNat + flag (c.waiters != []) 24 + flag c.sat 25
  | .pwrSts => s.reg .pwrSts + dCode s.power.dstate * 2 ^ 14
  | .tbSts => s.reg .tbSts + flag (match s.tb.calmSince with | some t => decide (t + 10 ^ 9 ≤ s.tb.ticks) | none => false) 5
  | .tbNow => s.now % 2 ^ 64
  | .tbFrac => s.tb.fracLatch.toNat
  | .errAlert => s.reg .errAlert + alertSrc s
  | .errFault => faultSrc s
  | .errPathSts => (s.path j).queue.length + flag (s.path j).more.isSome 11 + flag (s.path j).gap.isSome 12 + flag (bit (s.reg .errPathSts 0 j) 13) 13
  | .logTail => let g := s.logRing j; if g.on then g.tail + flag g.phase 16 else 0
  | .memSts => (s.reg .memSts i ||| flag (decide (i < 8)) 5) + flag (s.power.dstate == .deep) 4
      + flag ((s.memc i).long.any fun ch => decide (s.tb.ticks < tget 0 (s.memc i).slot ch)) 1
  | .segMode => s.reg .segMode 0 j % 4 + flag (tget 0 s.own.segFill j != 0) 2
  | .regionWin => regionWord (s.region j)
  | .seamSts => seamStsOf s i
  | .seamSkew => if (s.link i).st = .up then s.reg .seamSkew i else 0
  | .seamPeerFdid => if (s.link i).st = .up then s.reg .seamPeerFdid i else 0xFFFFF
  | .strmSts => strmStsOf s j
  | .tscGateSts => gateStsOf s i
  | .ftSendUsed => (s.ft.msgs.filter fun e => e.2.isSome).length
  | .ftRecvUsed => s.ft.rx.length
  | .ftTenSts => setMask 16 (fun r => (s.ftRing (16 * i + r)).isSome) + setMask 16 (fun q => (s.ftRq (16 * i + q)).isSome) * 65536
  | .ftBucket => match tget none s.ft.bkts j with | some b => b.rate / 1000 | none => 0
  | .driveSts => driveStsOf s i
  | .stoTenSts => setMask 16 (fun q => (s.stoQ (16 * i + q)).active) + setMask 16 (fun q => (s.stoQ (16 * i + q)).active && (s.stoQ (16 * i + q)).ibc) * 65536
  | .volSts => volStsOf s i
  | .volBlocks => (s.vol i).blocks
  | .lodeSts => lodeStsOf s i
  | .lodeLock => lodeLockOf s i
  | .lodeLockTb => match groupOf s i with | some (_, x) => x.target % 2 ^ 64 | none => 0
  | .lodeGcyc => gcycOf s i
  | .lodeMvSts => (s.lode i).queue.length + setMask 4 (fun m => (tget none (s.lode i).movers m).isSome) * 32
  | .meSts => meStsOf s i
  | .bcSts => bcStsOf s i
  | r => s.reg r i j

/-! ### Reads (R14, R44) -/

/-- A table window's function: the reader's own, or for world S the one HIF.VIEW selects (R425). -/
def viewFn (s : State) (who : Nat) : Nat := if who = 18 then s.reg .hifView % 32 else who

/-- A word of the tables at 0x140000 to 0x150100: translation entries, MSI-X entries, pending bits. -/
def tableWord (s : State) (fn a : Nat) : Nat :=
  let h := s.host fn
  if a < 0x148000 then bits (tget 0 h.xlat ((a - 0x140000) / 8)) (if a % 8 = 0 then 31 else 63) (if a % 8 = 0 then 0 else 32)
  else if a < 0x150000 then
    let m := tget {} h.msix ((a - 0x148000) / 16)
    match a % 16 / 4 with
    | 0 => m.addr % 2 ^ 32
    | 1 => m.addr / 2 ^ 32 % 2 ^ 32
    | 2 => m.data
    | _ => flag m.masked 0
  else setMask 32 fun k => (tget {} h.msix ((a - 0x150000) * 8 + k)).pending

/-- A read of the aligned register word at a BAR0 offset by a function or world S: the word, and the state with a latched upper half. A
world-N read of an instance in world S reads zero and sets N_ACCESS. -/
def readReg (who a : Nat) (s : State) : Nat × State :=
  if 0x140000 ≤ a ∧ a < 0x150100 then (if viewFn s who < 18 then tableWord s (viewFn s who) a else 0, s)
  else match regOf a with
  | none => (0, s)
  | some (r, i, j, w) =>
    if !regSeen s who r i j then (0, if who ≠ 18 ∧ instInS s r i then sticky none .glbSecSts 0 0 1 s else s)
    else
      let v := regLive s r i j
      if (regRow r).latch ∧ w = 0 then
        let s := { s with latch := tput 0 s.latch (regAddr r i j 0) (v / 2 ^ 32) }
        (v % 2 ^ 32, if r = .tbNow then { s with tb := { s.tb with fracLatch := BitVec.ofNat 16 s.tb.master.toNat } } else s)
      else if (regRow r).latch then (tget 0 s.latch (regAddr r i j 0), s)
      else (v / 2 ^ (32 * w) % 2 ^ 32, s)

/-! ### Writes (R11) -/

/-- A word of a register written by access type: RW bits take the value, RW1C bits that are written 1 clear, RW1S bits set. -/
def accessWrite (r : Reg) (old w val : Nat) : Nat :=
  let row := regRow r
  let v := val * 2 ^ (32 * w)
  let m := (2 ^ 32 - 1) * 2 ^ (32 * w)
  let rw := row.rw &&& m
  let keep := old - (old &&& (rw ||| (row.w1c &&& v)))
  keep ||| (v &&& rw) ||| (v &&& row.w1s)

/-- A field of a register's new value kept within its legal range. -/
def clampField (v h l lo hi : Nat) : Nat := putBits v h l (clampNat lo hi (bits v h l))

/-- A register's new value as its meaning limits it: clamped fields, writes that are ignored. -/
def regLimit (s : State) (r : Reg) (i j : Nat) (old v : Nat) : Nat :=
  match r with
  | .cmdWeight => if v % 256 = 0 then old else v
  | .cmdAdmqSq | .cmdAdmqCq => if bit (s.reg .cmdAdmq i) 0 then old else v
  | .syncDefTmo => max 1 v
  | .pwrLimit => clampField v 10 0 600 1800
  | .tbCtrl => if bit old 0 then putBits v 5 1 (bits old 5 1) else v
  | .exportCtl => clampField v 28 13 1 65535
  | .memScrub => clampField v 8 1 1 255
  | .memRecal => clampField v 9 0 10 1000
  | .strScrub => clampField v 7 1 1 127
  | .strmSync => if (s.stream j).isOpen then old else v
  | .tscQuantum => clampField v 20 0 64 1048576
  | .tscBurst => clampField v 24 0 64 16777216
  | .ftCtrl => clampField (if bit old 0 then putBits v 5 1 (bits old 5 1) else v) 5 2 10 13
  | .ftUdpPort => if v = 0 ∨ v = 319 ∨ v = 320 then old else v
  | .ftMaxAge => clampField v 19 0 100 100000
  | .ftRto => clampField v 15 0 10 10000
  | .ftRmin => clampField v 9 0 1 800
  | .stoCtrl => clampField (clampField v 7 0 1 255) 23 8 1 65535
  | _ => v

/-- A meaning's next state. (DEDUCED, log entry 77.) -/
def nextOf (r : Res) (s : State) : State := match r with | .next t => t | _ => s

/-- A write of a table word (R425, R427): a half of a translation entry, or a word of an MSI-X entry. -/
def tableWrite (fn a val : Nat) (s : State) : State :=
  if a < 0x148000 then
    let e := (a - 0x140000) / 8
    let old := tget 0 (s.host fn).xlat e
    xlatWrite fn e (if a % 8 = 0 then putBits old 31 0 val else putBits old 63 32 val) s
  else if a < 0x150000 then
    let h := s.host fn
    let k := (a - 0x148000) / 16
    let f (m : Msix) : Msix := match a % 16 / 4 with
      | 0 => { m with addr := putBits m.addr 31 0 (val - val % 4) }
      | 1 => { m with addr := putBits m.addr 63 32 val }
      | 2 => { m with data := val }
      | _ => { m with masked := bit val 0 }
    flushMsix fn (s.setHost fn { h with msix := tmod {} h.msix k f })
  else s

/-- A write of a register word by a requester that may write it: registers with a behaviour of their own act as their commands do, any
other takes the value by access type. `ext` is what the write makes the device read: the cable record of a link, or a byte that is
nonzero where the module of a port is accepted. -/
def regWrite (who : Nat) (r : Reg) (i j w : Nat) (val : Word) (ext : Bytes) (s : State) : State :=
  let v := val.toNat
  match r with
  | .tbStep => nextOf (execTbStep who (w == 1) val s) s
  | .tbAdj => nextOf (execTbAdjWrite who val s) s
  | .hifTenPort => tenPortWrite v s
  | .cmdAdmq => admqWrite i v s
  | .ckpStageBase => nextOf (execStageWrite who i (0x18 + 4 * w) val s) s
  | .ckpStageBytes => nextOf (execStageWrite who i (0x20 + 4 * w) val s) s
  | .syncCoreCtx => nextOf (execCoreCtxWrite who j val s) s
  | .syncFnCtx => nextOf (execFnCtxWrite who j val s) s
  | .detCtrl => detWrite who j v s
  | .logHead => nextOf (execLogHeadWrite who j val s) s
  | .memInject => nextOf (execInjectArm who i val s) s
  | .segMode => nextOf (execSegModeWrite who j val s) s
  | .regionWin => if w = 6 then nextOf (execRegionShareWrite who j val s) s else s
  | .seamCtrl =>
    let s := nextOf (execSeamEnableWrite who i val ext s) s
    if (bit v 1 || bit v 2) && (s.link i).st == .up then (if bit v 2 then rewiden i s else startRetrain i s) else s
  | .ethCtrl => nextOf (execEthEnableWrite who i val (!allZero ext) s) s
  | .prsTmap => nextOf (execTenantMapWrite who j val s) s
  | .prsUntagged => nextOf (execTenantMapWrite who (4096 + j) val s) s
  | .prsProfile0 => nextOf (execProfileWrite who j 0 val s) s
  | .prsProfile1 => nextOf (execProfileWrite who j 1 val s) s
  | .prsProfileF => nextOf (execProfileWrite who j (2 + w) val s) s
  | .strmConsumed => nextOf (execConsumedWrite who j (BitVec.ofNat 64 (accessWrite r (s.reg r i j) w v)) s) s
  | .driveCtrl => nextOf (execApstWrite who i val s) s
  | .stoSqTail => nextOf (execStoDoorbellWrite who (16 * i + j) 0 val s) s
  | .stoCqHead => nextOf (execStoDoorbellWrite who (16 * i + j) 1 val s) s
  | .lodeCtrl => lodeCtrlWrite who i v s
  | .meCtrl => meCtrlWrite who i v s
  | .bcCtrl => bcCtrlWrite who i v s
  | .glbReset => if bit v 0 then nextOf (execWarmReset who s) s else s
  | r =>
    let old := s.reg r i j
    s.setReg r i j (regLimit s r i j old (accessWrite r old w v))

/-- A write of the aligned register word at a BAR0 offset. A world-N write of an instance in world S sets N_ACCESS, and of SEG_MODE
sets SEG_REFUSED (R297). -/
def writeReg (who a : Nat) (val : Word) (ext : Bytes) (s : State) : State :=
  if 0x140000 ≤ a ∧ a < 0x150100 then (if viewFn s who < 18 then tableWrite (viewFn s who) a val.toNat s else s)
  else match regOf a with
  | none => s
  | some (r, i, j, w) =>
    if regTakes s who r i j then regWrite who r i j w val ext s
    else if who ≠ 18 ∧ instInS s r i then sticky none .glbSecSts 0 0 1 s
    else if r = .segMode then s.orReg .hbmGerr 0 0 1
    else s

/-- A software write through BAR0 at an aligned offset. -/
def execRegisterWrite (who off : Nat) (val : Word) (ext : Bytes) (s : State) : Res :=
  run (who < 19) s (onlyIf (off % 4 == 0) (writeReg who off val ext))

/-! ### Requests by device address (R36, R42, R528) -/

/-- The function as which a requester meets registers: its tenant's, or world S. -/
def reqWho (r : Requester) : Nat := match r.world with | .s => 18 | .n => r.tenant % 16

/-- A request to the register space: an aligned 4-byte access to one word, or refused whole. The half of the space that R44 reserves
reads zero and ignores writes. (DESIGN CHOICE, log entry 101.) -/
def deviceReg (req : Requester) (addr len : Nat) (wr : Bool) (val : Word) (ext : Bytes) (s : State) : State :=
  if len = 4 ∧ addr % 4 = 0 then
    let s := { s with ended := some stOk }
    if wr then writeReg (reqWho req) (addr - regBase) val ext s
    else let (v, s) := readReg (reqWho req) (addr - regBase) s; { s with resp := some v }
  else addrDenied req { s with resp := none, ended := some stDenied }

/-- A request to the register space alone, with the identity that its source attaches (R36, R44). (DESIGN CHOICE, log entry 78.) -/
def execDeviceRegisterAccess (req : Requester) (addr len : Nat) (wr : Bool) (val : Word) (ext : Bytes) (s : State) : Res :=
  run true s fun s => if (place s addr).1 = .regs then deviceReg req addr len wr val ext s else s

/-- The function under whose requester identifier a host window request leaves (R424): the tenant's, or for world S function 0 of the
port that the address selects. -/
def windowFn (req : Requester) (addr : Nat) : Nat := match req.world with | .s => 16 + winPort addr | .n => req.tenant % 16

/-! ### The die-to-die bridges (R20 to R23, R496) -/

/-- The die of a source unit: 0 CD0, 1 CD1, 2 ID. Lode units are numbered as cores, engines and movers; any other unit is on the ID (R19).
(DESIGN CHOICE, log entry 78.) -/
def unitDie (u : Nat) : Nat :=
  if u < 256 then u / 128
  else if 0x300 ≤ u ∧ u < 0x340 then (u - 0x300) / 32
  else if 0x400 ≤ u ∧ u < 0x480 then (u - 0x400) / 64
  else 2

/-- The die whose units serve an address (R19, R20, R39, R44). -/
def addrDie (s : State) (a : Nat) : Nat :=
  match (place s a).1 with
  | .hbm => (controller s a).1 / 4
  | .strata n => n / 16
  | .imem k => if k < 256 then k / 128 else 2
  | .regs =>
    let o := a - regBase
    if 0x1000000 ≤ o ∧ o < 0x1800000 then (o - 0x1000000) / 0x40000 / 16
    else if 0x800000 ≤ o ∧ o < 0x880000 then (o - 0x800000) / 0x10000 / 4 else 2
  | _ => 2

/-- The direction of R496 in which traffic from one die to another crosses, always by the two dies' own bridge (R22). -/
def bridgeDir (a b : Nat) : Option Nat :=
  match a, b with
  | 0, 1 => some 0
  | 1, 0 => some 1
  | 0, 2 => some 2
  | 2, 0 => some 3
  | 1, 2 => some 4
  | 2, 1 => some 5
  | _, _ => none

/-- A transfer unit crosses (R23, R496): corrected and counted, or uncorrectable, counted and reported, and then no data is delivered;
three or more wrong symbols end as R306 leaves open. Answers the data delivered. (DESIGN CHOICE, log entry 83.) -/
def bridgeUnit (d : Nat) (e : BridgeErr) (x : State × Option Bytes) : State × Option Bytes :=
  let (k, s) := draw x.1
  let other := x.2.map fun b => fit b.length (splice b (32 * e.unit) (fit 32 (Config.tripleData k)))
  match cwOutcome k e.wrong with
  | .clean => (s, if e.wrong = 0 then x.2 else other)
  | .corrected => (s.count .errBridgeCe 0 d 1, x.2)
  | .wrong => (s.count .errBridgeCe 0 d 1, other)
  | .uncorrectable => (stickyRec 1 none d .errGlbSts 0 0 2 (s.count .errBridgeUe 0 d 1), none)

/-- The units of a request, or of its response, cross from one die to another: the data delivered, none where a unit was uncorrectable. -/
def bridgeCross (src dst : Nat) (back : Bool) (errs : List BridgeErr) (data : Bytes) (s : State) : State × Option Bytes :=
  match bridgeDir src dst with
  | none => (s, some data)
  | some d => (errs.filter fun e => e.back == back).foldl (fun x e => bridgeUnit d e x) (s, some data)

/-! ### Requests on the fabric -/

/-- A request at its target, which checks the identity before it acts: registers, host memory, or device memory. A read's data is the
response; a request that is refused, fails or must wait has no effect on its target. (DESIGN CHOICE, log entry 78; DESIGN CHOICE, log entry 110.) -/
def fabricServe (req : Requester) (addr n : Nat) (wr : Bool) (data ext : Bytes) (s : State) : State :=
  let fin (st : Nat) (s : State) : State := { s with ended := some st }
  match (place s addr).1 with
  | .regs => deviceReg req addr n wr (BitVec.ofNat 32 (leNat data)) ext s
  | .host =>
    let fn := windowFn req addr
    if addr % 2 ^ 50 + n > 2 ^ 50 then fin stDenied (addrDenied req s)
    else if winPort addr ≠ fnPort s fn then fin stDenied (sticky (some fn) .hifFnErr fn 0 8 (addrDenied req s))
    else if wr then match hostWrite s fn (addr % 2 ^ 50) data with
      | (s, .ok _) => fin stOk s
      | (s, .error _) => fin stHostOff s
    else match hostRead s fn (addr % 2 ^ 50) n with
      | (s, .ok b) => fin stOk { s with resp := some (leNat b) }
      | (s, .error .wait) => s
      | (s, .error _) => fin stHostOff s
  | _ =>
    if !permits s req addr n wr then fin (refusedSt s req addr n) (refuse req addr n s)
    else if rangeWaits s addr n then wakeRange s addr n
    else if wr then match devWrite addr data s with
      | (s, none) => fin stOk s
      | (s, some (.ue _)) => fin stUncorr s
      | (s, some .running) => fin stConflict s
    else match readMem s addr n with
      | (s, .ok b) => fin stOk { s with resp := some (leNat b) }
      | (s, .error _) => fin stUncorr s

/-- Wrong symbols that the region entry of a world-N request's address has met before the request (R306, R317). (DESIGN CHOICE, log entry 80.) -/
def tableUpset (req : FabricReq) (addr : Nat) (s : State) : State :=
  if req.table = 0 then s else match regionAt s addr 1 with
    | some (e, _) => { s with own := { s.own with tableBad := tput 0 s.own.tableBad e req.table } }
    | none => s

/-- A request on the fabric crosses to its target's die, is served there, and its response crosses back; an uncorrectable transfer unit ends
it with UNCORRECTABLE (R23, R36). (DESIGN CHOICE, log entry 78.) -/
def execFabricRequest (req : FabricReq) (addr len : Nat) (wr : Bool) (data : Bytes) (s : State) : Res :=
  run true s fun s =>
    let n := if wr then data.length else len
    let s := { s with resp := none, ended := none }
    if n = 0 then s
    else
      let src := unitDie req.who.unit
      let dst := addrDie s addr
      match bridgeCross src dst false req.errs data s with
      | (s, none) => { s with ended := some stUncorr }
      | (s, some data) =>
        let s := fabricServe req.who addr n wr data req.ext (tableUpset req addr s)
        match bridgeCross dst src true req.errs (leBytes n (s.resp.getD 0)) s with
        | (s, none) => { s with resp := none, ended := some stUncorr }
        | (s, some b) => if s.resp.isSome then { s with resp := some (leNat b) } else s

end Sys2Proof.Machine
end

