-- ==== Sys2Proof/Machine/Dispatch.lean ====
section
/-! DEFINITION. Which meaning each command has, one arm per constructor. -/
namespace Sys2Proof.Machine

open Sys2Proof

/-- The command's effect on everything but the queue. -/
def exec (i : Instr) (s : State) : Host.Outcome State Fault Refusal :=
  match i with
  | .registerWrite who off val ext => Sys2Proof.Machine.execRegisterWrite who off val ext s
  | .fabricRequest req addr len wr data => Sys2Proof.Machine.execFabricRequest req addr len wr data s
  | .deviceRegisterAccess req addr len wr val ext => Sys2Proof.Machine.execDeviceRegisterAccess req addr len wr val ext s
  | .tbEventFire => Sys2Proof.Machine.execTbEventFire s
  | .tbStep who hi val => Sys2Proof.Machine.execTbStep who hi val s
  | .tbAdjWrite who val => Sys2Proof.Machine.execTbAdjWrite who val s
  | .tbSyncinEdge => Sys2Proof.Machine.execTbSyncinEdge s
  | .tbSyncinLoad => Sys2Proof.Machine.execTbSyncinLoad s
  | .modEnqueue n => Sys2Proof.Machine.execModEnqueue n s
  | .modNop n => Sys2Proof.Machine.execModNop n s
  | .matmul n => Sys2Proof.Machine.execMatmul n s
  | .grouped n => Sys2Proof.Machine.execGrouped n s
  | .rangeScan n => Sys2Proof.Machine.execRangeScan n s
  | .transposeLoad n => Sys2Proof.Machine.execTransposeLoad n s
  | .engineDrainStart n => Sys2Proof.Machine.execEngineDrainStart n s
  | .engineOpComplete n cycles => Sys2Proof.Machine.execEngineOpComplete n cycles s
  | .engineOperandUe n rows => Sys2Proof.Machine.execEngineOperandUe n rows s
  | .engineRmwUe n => Sys2Proof.Machine.execEngineRmwUe n s
  | .quiesceWrite who n val => Sys2Proof.Machine.execQuiesceWrite who n val s
  | .dropResident who n val => Sys2Proof.Machine.execDropResident who n val s
  | .bundleIssue k late => Sys2Proof.Machine.execBundleIssue k late s
  | .ctlNop k => Sys2Proof.Machine.execCtlNop k s
  | .repeatCtl k late => Sys2Proof.Machine.execRepeatCtl k late s
  | .halt k => Sys2Proof.Machine.execHalt k s
  | .haltComplete k => Sys2Proof.Machine.execHaltComplete k s
  | .unitResultVisible k => Sys2Proof.Machine.execUnitResultVisible k s
  | .loadDataArrival k => Sys2Proof.Machine.execLoadDataArrival k s
  | .delayedUncorrectable k => Sys2Proof.Machine.execDelayedUncorrectable k s
  | .bcHoldWrite who k val => Sys2Proof.Machine.execBcHoldWrite who k val s
  | .coreHoldTaken k => Sys2Proof.Machine.execCoreHoldTaken k s
  | .coreStart who k val => Sys2Proof.Machine.execCoreStart who k val s
  | .coreClear who k val => Sys2Proof.Machine.execCoreClear who k val s
  | .imemWrite req k off data => Sys2Proof.Machine.execImemWrite req k off data s
  | .strataBankAccess n bank reqs => Sys2Proof.Machine.execStrataBankAccess n bank reqs s
  | .strataScrubRead n => Sys2Proof.Machine.execStrataScrubRead n s
  | .lodeZeroingDone n => Sys2Proof.Machine.execLodeZeroingDone n s
  | .moveEnqueue n => Sys2Proof.Machine.execMoveEnqueue n s
  | .moveNop n => Sys2Proof.Machine.execMoveNop n s
  | .moveCopy n => Sys2Proof.Machine.execMoveCopy n s
  | .moveFill n => Sys2Proof.Machine.execMoveFill n s
  | .moveSourceUe n m => Sys2Proof.Machine.execMoveSourceUe n m s
  | .moveComplete n m => Sys2Proof.Machine.execMoveComplete n m s
  | .lodeCtrlReset who n val => Sys2Proof.Machine.execLodeCtrlReset who n val s
  | .lodeCtrlHold who n val => Sys2Proof.Machine.execLodeCtrlHold who n val s
  | .lockGroupStart g => Sys2Proof.Machine.execLockGroupStart g s
  | .sqTailWrite p v q val => Sys2Proof.Machine.execSqTailWrite p v q val s
  | .cqHeadWrite p v q val => Sys2Proof.Machine.execCqHeadWrite p v q val s
  | .admqEnable who fn val => Sys2Proof.Machine.execAdmqEnable who fn val s
  | .submissionFetch => Sys2Proof.Machine.execSubmissionFetch s
  | .commandDispatch id => Sys2Proof.Machine.execCommandDispatch id s
  | .replyWrite id => Sys2Proof.Machine.execReplyWrite id s
  | .hello id => Sys2Proof.Machine.execHello id s
  | .identify id => Sys2Proof.Machine.execIdentify id s
  | .fwUpdate id => Sys2Proof.Machine.execFwUpdate id s
  | .qpCreate id => Sys2Proof.Machine.execQpCreate id s
  | .qpDelete id => Sys2Proof.Machine.execQpDelete id s
  | .abort id => Sys2Proof.Machine.execAbort id s
  | .heartbeat id => Sys2Proof.Machine.execHeartbeat id s
  | .goodbye id => Sys2Proof.Machine.execGoodbye id s
  | .regionCreate id => Sys2Proof.Machine.execRegionCreate id s
  | .regionRevoke id => Sys2Proof.Machine.execRegionRevoke id s
  | .regionDrainEnd e => Sys2Proof.Machine.execRegionDrainEnd e s
  | .copy id => Sys2Proof.Machine.execCopy id s
  | .fill id => Sys2Proof.Machine.execFill id s
  | .windowMap id => Sys2Proof.Machine.execWindowMap id s
  | .crypt id => Sys2Proof.Machine.execCrypt id s
  | .cipherOpComplete k => Sys2Proof.Machine.execCipherOpComplete k s
  | .imemLoad id => Sys2Proof.Machine.execImemLoad id s
  | .coresRun id => Sys2Proof.Machine.execCoresRun id s
  | .modChain id => Sys2Proof.Machine.execModChain id s
  | .moveChain id => Sys2Proof.Machine.execMoveChain id s
  | .lockForm id => Sys2Proof.Machine.execLockForm id s
  | .lockStart id => Sys2Proof.Machine.execLockStart id s
  | .lockDissolve id => Sys2Proof.Machine.execLockDissolve id s
  | .lodeReset id => Sys2Proof.Machine.execLodeReset id s
  | .lodeHold id => Sys2Proof.Machine.execLodeHold id s
  | .syncSignal id => Sys2Proof.Machine.execSyncSignal id s
  | .syncWait id => Sys2Proof.Machine.execSyncWait id s
  | .syncRead id => Sys2Proof.Machine.execSyncRead id s
  | .syncSet id => Sys2Proof.Machine.execSyncSet id s
  | .syncEpoch id => Sys2Proof.Machine.execSyncEpoch id s
  | .epochRebase id => Sys2Proof.Machine.execEpochRebase id s
  | .epochTimeout id => Sys2Proof.Machine.execEpochTimeout id s
  | .vmap id => Sys2Proof.Machine.execVmap id s
  | .commCreate id => Sys2Proof.Machine.execCommCreate id s
  | .commDestroy id => Sys2Proof.Machine.execCommDestroy id s
  | .allReduce id => Sys2Proof.Machine.execAllReduce id s
  | .reduceScatter id => Sys2Proof.Machine.execReduceScatter id s
  | .allGather id => Sys2Proof.Machine.execAllGather id s
  | .broadcast id => Sys2Proof.Machine.execBroadcast id s
  | .allToAll id => Sys2Proof.Machine.execAllToAll id s
  | .collectiveContribution c => Sys2Proof.Machine.execCollectiveContribution c s
  | .portMode id => Sys2Proof.Machine.execPortMode id s
  | .rulesCommit id => Sys2Proof.Machine.execRulesCommit id s
  | .rulesCommitApply id => Sys2Proof.Machine.execRulesCommitApply id s
  | .ruleVersionRetire ver => Sys2Proof.Machine.execRuleVersionRetire ver s
  | .patternsLoad id => Sys2Proof.Machine.execPatternsLoad id s
  | .streamOpen id => Sys2Proof.Machine.execStreamOpen id s
  | .streamClose id => Sys2Proof.Machine.execStreamClose id s
  | .gatesLoad id => Sys2Proof.Machine.execGatesLoad id s
  | .shaperSet id => Sys2Proof.Machine.execShaperSet id s
  | .policerSet id => Sys2Proof.Machine.execPolicerSet id s
  | .ftRingCreate id => Sys2Proof.Machine.execFtRingCreate id s
  | .ftRingDelete id => Sys2Proof.Machine.execFtRingDelete id s
  | .ftRqBind id => Sys2Proof.Machine.execFtRqBind id s
  | .ftRqUnbind id => Sys2Proof.Machine.execFtRqUnbind id s
  | .sqCreate id => Sys2Proof.Machine.execSqCreate id s
  | .sqDelete id => Sys2Proof.Machine.execSqDelete id s
  | .volCreate id => Sys2Proof.Machine.execVolCreate id s
  | .volDelete id => Sys2Proof.Machine.execVolDelete id s
  | .volBind id => Sys2Proof.Machine.execVolBind id s
  | .driveInfo id => Sys2Proof.Machine.execDriveInfo id s
  | .poolAdd id => Sys2Proof.Machine.execPoolAdd id s
  | .save id => Sys2Proof.Machine.execSave id s
  | .saveStepDone id => Sys2Proof.Machine.execSaveStepDone id s
  | .restore id => Sys2Proof.Machine.execRestore id s
  | .restoreStageDone id => Sys2Proof.Machine.execRestoreStageDone id s
  | .drain id => Sys2Proof.Machine.execDrain id s
  | .drainDone id => Sys2Proof.Machine.execDrainDone id s
  | .slotStatus id => Sys2Proof.Machine.execSlotStatus id s
  | .rankTake id => Sys2Proof.Machine.execRankTake id s
  | .rankTakeDiscovered id => Sys2Proof.Machine.execRankTakeDiscovered id s
  | .stageWrite who t off val => Sys2Proof.Machine.execStageWrite who t off val s
  | .layoutDefine id => Sys2Proof.Machine.execLayoutDefine id s
  | .layoutDrop id => Sys2Proof.Machine.execLayoutDrop id s
  | .reshardMove id => Sys2Proof.Machine.execReshardMove id s
  | .assign id => Sys2Proof.Machine.execAssign id s
  | .keyLoad id => Sys2Proof.Machine.execKeyLoad id s
  | .keyErase id => Sys2Proof.Machine.execKeyErase id s
  | .attest id => Sys2Proof.Machine.execAttest id s
  | .debugUnlock id => Sys2Proof.Machine.execDebugUnlock id s
  | .countersRead id => Sys2Proof.Machine.execCountersRead id s
  | .errorsRead id => Sys2Proof.Machine.execErrorsRead id s
  | .errorsClear id => Sys2Proof.Machine.execErrorsClear id s
  | .logRing id => Sys2Proof.Machine.execLogRing id s
  | .traceSet id => Sys2Proof.Machine.execTraceSet id s
  | .opPoint id => Sys2Proof.Machine.execOpPoint id s
  | .lodePower id => Sys2Proof.Machine.execLodePower id s
  | .clockLock id => Sys2Proof.Machine.execClockLock id s
  | .clockLockDone => Sys2Proof.Machine.execClockLockDone s
  | .tbAdj id => Sys2Proof.Machine.execTbAdj id s
  | .tbSyncArm id => Sys2Proof.Machine.execTbSyncArm id s
  | .deep id => Sys2Proof.Machine.execDeep id s
  | .deepEntryDone => Sys2Proof.Machine.execDeepEntryDone s
  | .deepExitDone => Sys2Proof.Machine.execDeepExitDone s
  | .limitsRead id => Sys2Proof.Machine.execLimitsRead id s
  | .signalArrival p srcs => Sys2Proof.Machine.execSignalArrival p srcs s
  | .waiterJoin p srcs => Sys2Proof.Machine.execWaiterJoin p srcs s
  | .passNotice k => Sys2Proof.Machine.execPassNotice k s
  | .waitTimeout p k => Sys2Proof.Machine.execWaitTimeout p k s
  | .remoteSignalSend => Sys2Proof.Machine.execRemoteSignalSend s
  | .coreCtxWrite who k val => Sys2Proof.Machine.execCoreCtxWrite who k val s
  | .fnCtxWrite who k val => Sys2Proof.Machine.execFnCtxWrite who k val s
  | .watchdogExpiry p => Sys2Proof.Machine.execWatchdogExpiry p s
  | .fwCrash p cause => Sys2Proof.Machine.execFwCrash p cause s
  | .fwRestartDone p => Sys2Proof.Machine.execFwRestartDone p s
  | .controlCoreNotRecovered n => Sys2Proof.Machine.execControlCoreNotRecovered n s
  | .strictWrite who t val => Sys2Proof.Machine.execStrictWrite who t val s
  | .strictLockWrite who t val => Sys2Proof.Machine.execStrictLockWrite who t val s
  | .memoryAccess addr data => Sys2Proof.Machine.execMemoryAccess addr data s
  | .refreshSlot c ch => Sys2Proof.Machine.execRefreshSlot c ch s
  | .recalibration c ch low failedLane trained => Sys2Proof.Machine.execRecalibration c ch low failedLane trained s
  | .memoryScrubRead c => Sys2Proof.Machine.execMemoryScrubRead c s
  | .stackTemperatureReport h hot => Sys2Proof.Machine.execStackTemperatureReport h hot s
  | .segModeWrite who sg val => Sys2Proof.Machine.execSegModeWrite who sg val s
  | .segmentFillDone sg => Sys2Proof.Machine.execSegmentFillDone sg s
  | .blockZeroFillDone blk => Sys2Proof.Machine.execBlockZeroFillDone blk s
  | .injectArm who c val => Sys2Proof.Machine.execInjectArm who c val s
  | .regionShareWrite who e val => Sys2Proof.Machine.execRegionShareWrite who e val s
  | .seamDataFlit l fec flit => Sys2Proof.Machine.execSeamDataFlit l fec flit s
  | .seamCtrlFlit l flit => Sys2Proof.Machine.execSeamCtrlFlit l flit s
  | .seamAckTimeout l => Sys2Proof.Machine.execSeamAckTimeout l s
  | .seamLaneFault l => Sys2Proof.Machine.execSeamLaneFault l s
  | .seamSerWindow l => Sys2Proof.Machine.execSeamSerWindow l s
  | .seamRetrainWrite who l val => Sys2Proof.Machine.execSeamRetrainWrite who l val s
  | .seamRewidenWrite who l val => Sys2Proof.Machine.execSeamRewidenWrite who l val s
  | .seamEnableWrite who l val cable => Sys2Proof.Machine.execSeamEnableWrite who l val cable s
  | .seamTrained l lanes => Sys2Proof.Machine.execSeamTrained l lanes s
  | .seamCheckDone l peer => Sys2Proof.Machine.execSeamCheckDone l peer s
  | .seamTrainTimeout l => Sys2Proof.Machine.execSeamTrainTimeout l s
  | .seamRetrainTimeout l => Sys2Proof.Machine.execSeamRetrainTimeout l s
  | .seamRetryInterval l cable => Sys2Proof.Machine.execSeamRetryInterval l cable s
  | .seamTransaction l seq m => Sys2Proof.Machine.execSeamTransaction l seq m s
  | .seamTransactionAck peer seq st => Sys2Proof.Machine.execSeamTransactionAck peer seq st s
  | .seamBundleTimeout peer => Sys2Proof.Machine.execSeamBundleTimeout peer s
  | .tbSkewSample l => Sys2Proof.Machine.execTbSkewSample l s
  | .frameReceive m frame => Sys2Proof.Machine.execFrameReceive m frame s
  | .policerRefill => Sys2Proof.Machine.execPolicerRefill s
  | .ptpMessage => Sys2Proof.Machine.execPtpMessage s
  | .parseHandoff => Sys2Proof.Machine.execParseHandoff s
  | .reorderRelease m => Sys2Proof.Machine.execReorderRelease m s
  | .streamPlace st => Sys2Proof.Machine.execStreamPlace st s
  | .streamRecordComplete st => Sys2Proof.Machine.execStreamRecordComplete st s
  | .consumedWrite who st val => Sys2Proof.Machine.execConsumedWrite who st val s
  | .tenantMapWrite who idx val => Sys2Proof.Machine.execTenantMapWrite who idx val s
  | .profileWrite who prof word val => Sys2Proof.Machine.execProfileWrite who prof word val s
  | .ethEnableWrite who p val moduleOk => Sys2Proof.Machine.execEthEnableWrite who p val moduleOk s
  | .macLinkChange m up => Sys2Proof.Machine.execMacLinkChange m up s
  | .frameTransmit m => Sys2Proof.Machine.execFrameTransmit m s
  | .shaperRefill m => Sys2Proof.Machine.execShaperRefill m s
  | .gateIntervalEnd m => Sys2Proof.Machine.execGateIntervalEnd m s
  | .ftWrite => Sys2Proof.Machine.execFtWrite s
  | .ftRead => Sys2Proof.Machine.execFtRead s
  | .ftSend => Sys2Proof.Machine.execFtSend s
  | .ftAtomic => Sys2Proof.Machine.execFtAtomic s
  | .ftSignal => Sys2Proof.Machine.execFtSignal s
  | .ftPacketSend m => Sys2Proof.Machine.execFtPacketSend m s
  | .ftRxWrite => Sys2Proof.Machine.execFtRxWrite s
  | .ftRxRead => Sys2Proof.Machine.execFtRxRead s
  | .ftRxReadResp => Sys2Proof.Machine.execFtRxReadResp s
  | .ftRxSend => Sys2Proof.Machine.execFtRxSend s
  | .ftRxAtomic => Sys2Proof.Machine.execFtRxAtomic s
  | .ftRxAtomicResp => Sys2Proof.Machine.execFtRxAtomicResp s
  | .ftRxAck => Sys2Proof.Machine.execFtRxAck s
  | .ftRxNak => Sys2Proof.Machine.execFtRxNak s
  | .ftRxClose => Sys2Proof.Machine.execFtRxClose s
  | .ftRxSignal => Sys2Proof.Machine.execFtRxSignal s
  | .ftAckTimer src msg => Sys2Proof.Machine.execFtAckTimer src msg s
  | .ftRtoExpiry m pkt => Sys2Proof.Machine.execFtRtoExpiry m pkt s
  | .ftRetryLimit m => Sys2Proof.Machine.execFtRetryLimit m s
  | .ftEntryIdleAbort src msg => Sys2Proof.Machine.execFtEntryIdleAbort src msg s
  | .ftEntryLinger src msg => Sys2Proof.Machine.execFtEntryLinger src msg s
  | .ftCloseAgeExpiry src msg => Sys2Proof.Machine.execFtCloseAgeExpiry src msg s
  | .ftRateIncrease b => Sys2Proof.Machine.execFtRateIncrease b s
  | .ftBucketIdle b => Sys2Proof.Machine.execFtBucketIdle b s
  | .stoDoorbellWrite who qi word val => Sys2Proof.Machine.execStoDoorbellWrite who qi word val s
  | .stoRead => Sys2Proof.Machine.execStoRead s
  | .stoWrite => Sys2Proof.Machine.execStoWrite s
  | .stoFlush => Sys2Proof.Machine.execStoFlush s
  | .stoTrim => Sys2Proof.Machine.execStoTrim s
  | .stoAtomicWrite => Sys2Proof.Machine.execStoAtomicWrite s
  | .stoSelfTest => Sys2Proof.Machine.execStoSelfTest s
  | .stoPower => Sys2Proof.Machine.execStoPower s
  | .nvmeCommandComplete d cid status data => Sys2Proof.Machine.execNvmeCommandComplete d cid status data s
  | .nvmeCommandTimeout d cid => Sys2Proof.Machine.execNvmeCommandTimeout d cid s
  | .driveReadyTimeout d => Sys2Proof.Machine.execDriveReadyTimeout d s
  | .drivePresenceChange d ident => Sys2Proof.Machine.execDrivePresenceChange d ident s
  | .selfTestRestart d => Sys2Proof.Machine.execSelfTestRestart d s
  | .selfTestLimit take => Sys2Proof.Machine.execSelfTestLimit take s
  | .apstWrite who d val => Sys2Proof.Machine.execApstWrite who d val s
  | .bar2Read p v off len => Sys2Proof.Machine.execBar2Read p v off len s
  | .bar2Write p v off data => Sys2Proof.Machine.execBar2Write p v off data s
  | .xlatEntryWrite who k e val => Sys2Proof.Machine.execXlatEntryWrite who k e val s
  | .busMasterEnableChange k on => Sys2Proof.Machine.execBusMasterEnableChange k on s
  | .memorySpaceEnableChange k on => Sys2Proof.Machine.execMemorySpaceEnableChange k on s
  | .upstreamCompletion k addr data ok => Sys2Proof.Machine.execUpstreamCompletion k addr data ok s
  | .upstreamTimeout k addr len => Sys2Proof.Machine.execUpstreamTimeout k addr len s
  | .functionLevelReset k => Sys2Proof.Machine.execFunctionLevelReset k s
  | .hostPortReset p => Sys2Proof.Machine.execHostPortReset p s
  | .dlDown p => Sys2Proof.Machine.execDlDown p s
  | .pcieConfigRequest p => Sys2Proof.Machine.execPcieConfigRequest p s
  | .perstChange p high => Sys2Proof.Machine.execPerstChange p high s
  | .tenPortWrite who val => Sys2Proof.Machine.execTenPortWrite who val s
  | .heartbeatExpiry k => Sys2Proof.Machine.execHeartbeatExpiry k s
  | .securityAlarm cause => Sys2Proof.Machine.execSecurityAlarm cause s
  | .rngHealthFail => Sys2Proof.Machine.execRngHealthFail s
  | .jtagTapAccess idcode => Sys2Proof.Machine.execJtagTapAccess idcode s
  | .coldReset pin => Sys2Proof.Machine.execColdReset pin s
  | .startupStepDone ok straps board fitted idents cables trained drives => Sys2Proof.Machine.execStartupStepDone ok straps board fitted idents cables trained drives s
  | .powerGoodFall => Sys2Proof.Machine.execPowerGoodFall s
  | .warmReset src => Sys2Proof.Machine.execWarmReset src s
  | .pmSample watts cd0 cd1 idc => Sys2Proof.Machine.execPmSample watts cd0 cd1 idc s
  | .frequencySwitch mhz mv ack => Sys2Proof.Machine.execFrequencySwitch mhz mv ack s
  | .thermalClamp deg => Sys2Proof.Machine.execThermalClamp deg s
  | .clampRelease cool => Sys2Proof.Machine.execClampRelease cool s
  | .thermalTrip deg => Sys2Proof.Machine.execThermalTrip deg s
  | .lodeIdleExit n => Sys2Proof.Machine.execLodeIdleExit n s
  | .logRingWrite k => Sys2Proof.Machine.execLogRingWrite k s
  | .logHeadWrite who k val => Sys2Proof.Machine.execLogHeadWrite who k val s
  | .sidebandRecordRead off => Sys2Proof.Machine.execSidebandRecordRead off s
  | .exportPacketSend => Sys2Proof.Machine.execExportPacketSend s
  | .msiXUnmask k vec => Sys2Proof.Machine.execMsiXUnmask k vec s
  | .pcieLinkUp p speed width => Sys2Proof.Machine.execPcieLinkUp p speed width s
  | .entropyStartUpTestsPass => Sys2Proof.Machine.execEntropyStartUpTestsPass s
  | .entropyWaitTimeout id => Sys2Proof.Machine.execEntropyWaitTimeout id s
  | .deviceSelfTestComplete d result => Sys2Proof.Machine.execDeviceSelfTestComplete d result s
  | .driveReady d => Sys2Proof.Machine.execDriveReady d s

end Sys2Proof.Machine
end

