-- ==== Sys2Proof/WellFormed.lean ====
section
/-! DEFINITION. Which commands can reach the part: every operand that names an instance names one the part holds (R19, R183, R219). -/
namespace Sys2Proof

/-- The command names only instances that exist. -/
def Instr.wf : Instr → Bool
  | .registerWrite who _ _ _ => decide (who < 19)
  | .fabricRequest _ _ _ _ _ => true
  | .deviceRegisterAccess _ _ _ _ _ _ => true
  | .tbEventFire => true
  | .tbStep who _ _ => decide (who < 19)
  | .tbAdjWrite who _ => decide (who < 19)
  | .tbSyncinEdge => true
  | .tbSyncinLoad => true
  | .modEnqueue n => decide (n.unit < 64)
  | .modNop n => decide (n < 64)
  | .matmul n => decide (n < 64)
  | .grouped n => decide (n < 64)
  | .rangeScan n => decide (n < 64)
  | .transposeLoad n => decide (n < 64)
  | .engineDrainStart n => decide (n < 64)
  | .engineOpComplete n _ => decide (n < 64)
  | .engineOperandUe n _ => decide (n < 64)
  | .engineRmwUe n => decide (n < 64)
  | .quiesceWrite who n _ => decide (who < 19) && decide (n < 64)
  | .dropResident who n _ => decide (who < 19) && decide (n < 64)
  | .bundleIssue k _ => decide (k < 272)
  | .ctlNop k => decide (k < 272)
  | .repeatCtl k _ => decide (k < 272)
  | .halt k => decide (k < 272)
  | .haltComplete k => decide (k < 272)
  | .unitResultVisible k => decide (k < 272)
  | .loadDataArrival k => decide (k < 272)
  | .delayedUncorrectable k => decide (k < 272)
  | .bcHoldWrite who k _ => decide (who < 19) && decide (k < 272)
  | .coreHoldTaken k => decide (k < 272)
  | .coreStart who k _ => decide (who < 19) && decide (k < 272)
  | .coreClear who k _ => decide (who < 19) && decide (k < 272)
  | .imemWrite _ k off data => decide (k < 272) && decide (off + data.length ≤ 0x10000)
  | .strataBankAccess n bank _ => decide (n < 32) && decide (bank < 48)
  | .strataScrubRead n => decide (n < 32)
  | .lodeZeroingDone n => decide (n < 32)
  | .moveEnqueue n => decide (n.unit < 32)
  | .moveNop n => decide (n < 32)
  | .moveCopy n => decide (n < 32)
  | .moveFill n => decide (n < 32)
  | .moveSourceUe n m => decide (n < 32) && decide (m < 4)
  | .moveComplete n m => decide (n < 32) && decide (m < 4)
  | .lodeCtrlReset who n _ => decide (who < 19) && decide (n < 32)
  | .lodeCtrlHold who n _ => decide (who < 19) && decide (n < 32)
  | .lockGroupStart g => decide (g < 32)
  | .sqTailWrite p v _ _ => decide (p < 2) && decide (v < 17)
  | .cqHeadWrite p v _ _ => decide (p < 2) && decide (v < 17)
  | .admqEnable who i _ => decide (who < 19) && decide (i < 18)
  | .submissionFetch => true
  | .commandDispatch _ => true
  | .replyWrite _ => true
  | .hello _ => true
  | .identify _ => true
  | .fwUpdate _ => true
  | .qpCreate _ => true
  | .qpDelete _ => true
  | .abort _ => true
  | .heartbeat _ => true
  | .goodbye _ => true
  | .regionCreate _ => true
  | .regionRevoke _ => true
  | .regionDrainEnd e => decide (e < 8192)
  | .copy _ => true
  | .fill _ => true
  | .windowMap _ => true
  | .crypt _ => true
  | .cipherOpComplete _ => true
  | .imemLoad _ => true
  | .coresRun _ => true
  | .modChain _ => true
  | .moveChain _ => true
  | .lockForm _ => true
  | .lockStart _ => true
  | .lockDissolve _ => true
  | .lodeReset _ => true
  | .lodeHold _ => true
  | .syncSignal _ => true
  | .syncWait _ => true
  | .syncRead _ => true
  | .syncSet _ => true
  | .syncEpoch _ => true
  | .epochRebase _ => true
  | .epochTimeout _ => true
  | .vmap _ => true
  | .commCreate _ => true
  | .commDestroy _ => true
  | .allReduce _ => true
  | .reduceScatter _ => true
  | .allGather _ => true
  | .broadcast _ => true
  | .allToAll _ => true
  | .collectiveContribution _ => true
  | .portMode _ => true
  | .rulesCommit _ => true
  | .rulesCommitApply _ => true
  | .ruleVersionRetire _ => true
  | .patternsLoad _ => true
  | .streamOpen _ => true
  | .streamClose _ => true
  | .gatesLoad _ => true
  | .shaperSet _ => true
  | .policerSet _ => true
  | .ftRingCreate _ => true
  | .ftRingDelete _ => true
  | .ftRqBind _ => true
  | .ftRqUnbind _ => true
  | .sqCreate _ => true
  | .sqDelete _ => true
  | .volCreate _ => true
  | .volDelete _ => true
  | .volBind _ => true
  | .driveInfo _ => true
  | .poolAdd _ => true
  | .save _ => true
  | .saveStepDone _ => true
  | .restore _ => true
  | .restoreStageDone _ => true
  | .drain _ => true
  | .drainDone _ => true
  | .slotStatus _ => true
  | .rankTake _ => true
  | .rankTakeDiscovered _ => true
  | .stageWrite who t off _ => decide (who < 19) && decide (t < 16) && (off == 0x18 || off == 0x1C || off == 0x20 || off == 0x24)
  | .layoutDefine _ => true
  | .layoutDrop _ => true
  | .reshardMove _ => true
  | .assign _ => true
  | .keyLoad _ => true
  | .keyErase _ => true
  | .attest _ => true
  | .debugUnlock _ => true
  | .countersRead _ => true
  | .errorsRead _ => true
  | .errorsClear _ => true
  | .logRing _ => true
  | .traceSet _ => true
  | .opPoint _ => true
  | .lodePower _ => true
  | .clockLock _ => true
  | .clockLockDone => true
  | .tbAdj _ => true
  | .tbSyncArm _ => true
  | .deep _ => true
  | .deepEntryDone => true
  | .deepExitDone => true
  | .limitsRead _ => true
  | .signalArrival p _ => decide (p < 17408)
  | .waiterJoin p _ => decide (p < 17408)
  | .passNotice _ => true
  | .waitTimeout p _ => decide (p < 17408)
  | .remoteSignalSend => true
  | .coreCtxWrite who k _ => decide (who < 19) && decide (k < 272)
  | .fnCtxWrite who i _ => decide (who < 19) && decide (i < 18)
  | .watchdogExpiry p => decide (p.proc < 35)
  | .fwCrash p _ => decide (p < 35)
  | .fwRestartDone p => decide (p.proc < 35)
  | .controlCoreNotRecovered n => decide (n < 32)
  | .strictWrite who t _ => decide (who < 19) && decide (t < 16)
  | .strictLockWrite who t _ => decide (who < 19) && decide (t < 16)
  | .memoryAccess _ _ => true
  | .refreshSlot c ch => decide (c < 12) && decide (ch < 32)
  | .recalibration c ch _ _ _ => decide (c < 12) && decide (ch < 32)
  | .memoryScrubRead c => decide (c < 12)
  | .stackTemperatureReport h _ => decide (h < 8)
  | .segModeWrite who sg _ => decide (who < 19) && decide (sg < 64)
  | .segmentFillDone sg => decide (sg < 64)
  | .blockZeroFillDone _ => true
  | .injectArm who c _ => decide (who < 19) && decide (c < 12)
  | .regionShareWrite who e _ => decide (who < 19) && decide (e < 8192)
  | .seamDataFlit l _ _ => decide (l < 24)
  | .seamCtrlFlit l _ => decide (l < 24)
  | .seamAckTimeout l => decide (l < 24)
  | .seamLaneFault l => decide (l < 24)
  | .seamSerWindow l => decide (l < 24)
  | .seamRetrainWrite who l _ => decide (who < 19) && decide (l < 24)
  | .seamRewidenWrite who l _ => decide (who < 19) && decide (l < 24)
  | .seamEnableWrite who l _ _ => decide (who < 19) && decide (l < 24)
  | .seamTrained l _ => decide (l < 24)
  | .seamCheckDone l _ => decide (l < 24)
  | .seamTrainTimeout l => decide (l < 24)
  | .seamRetrainTimeout l => decide (l < 24)
  | .seamRetryInterval l _ => decide (l < 24)
  | .seamTransaction l _ _ => decide (l < 24)
  | .seamTransactionAck peer _ _ => decide (peer < 8)
  | .seamBundleTimeout peer => decide (peer < 8)
  | .tbSkewSample l => decide (l < 24)
  | .frameReceive m _ => decide (m < 32)
  | .policerRefill => true
  | .ptpMessage => true
  | .parseHandoff => true
  | .reorderRelease m => decide (m < 32)
  | .streamPlace st => decide (st < 256)
  | .streamRecordComplete st => decide (st < 256)
  | .consumedWrite who st _ => decide (who < 19) && decide (st < 256)
  | .tenantMapWrite who idx _ => decide (who < 19) && decide (idx < 4128)
  | .profileWrite who prof word _ => decide (who < 19) && decide (prof < 64) && decide (word < 10)
  | .ethEnableWrite who p _ _ => decide (who < 19) && decide (p < 8)
  | .macLinkChange m _ => decide (m < 32)
  | .frameTransmit m => decide (m < 32)
  | .shaperRefill m => decide (m < 32)
  | .gateIntervalEnd m => decide (m < 32)
  | .ftWrite => true
  | .ftRead => true
  | .ftSend => true
  | .ftAtomic => true
  | .ftSignal => true
  | .ftPacketSend m => decide (m < 65536)
  | .ftRxWrite => true
  | .ftRxRead => true
  | .ftRxReadResp => true
  | .ftRxSend => true
  | .ftRxAtomic => true
  | .ftRxAtomicResp => true
  | .ftRxAck => true
  | .ftRxNak => true
  | .ftRxClose => true
  | .ftRxSignal => true
  | .ftAckTimer _ _ => true
  | .ftRtoExpiry m _ => decide (m < 65536)
  | .ftRetryLimit m => decide (m < 65536)
  | .ftEntryIdleAbort _ _ => true
  | .ftEntryLinger _ _ => true
  | .ftCloseAgeExpiry _ _ => true
  | .ftRateIncrease b => decide (b < 4096)
  | .ftBucketIdle b => decide (b < 4096)
  | .stoDoorbellWrite who qi word _ => decide (who < 19) && decide (qi < 256) && decide (word < 2)
  | .stoRead => true
  | .stoWrite => true
  | .stoFlush => true
  | .stoTrim => true
  | .stoAtomicWrite => true
  | .stoSelfTest => true
  | .stoPower => true
  | .nvmeCommandComplete d _ _ _ => decide (d.inst < 4)
  | .nvmeCommandTimeout d _ => decide (d < 4)
  | .driveReadyTimeout d => decide (d < 4)
  | .drivePresenceChange d _ => decide (d < 4)
  | .selfTestRestart d => decide (d < 4)
  | .selfTestLimit _ => true
  | .apstWrite who d _ => decide (who < 19) && decide (d < 4)
  | .bar2Read p v _ _ => decide (p < 2) && decide (v < 17)
  | .bar2Write p v _ _ => decide (p < 2) && decide (v < 17)
  | .xlatEntryWrite who i e _ => decide (who < 19) && decide (i < 18) && decide (e < 4096)
  | .busMasterEnableChange i _ => decide (i < 18)
  | .memorySpaceEnableChange i _ => decide (i < 18)
  | .upstreamCompletion i _ _ _ => decide (i.inst < 18)
  | .upstreamTimeout i _ _ => decide (i < 18)
  | .functionLevelReset i => decide (i < 18)
  | .hostPortReset p => decide (p < 2)
  | .dlDown p => decide (p < 2)
  | .pcieConfigRequest p => decide (p < 2)
  | .perstChange p _ => decide (p < 2)
  | .tenPortWrite who _ => decide (who < 19)
  | .heartbeatExpiry i => decide (i < 18)
  | .securityAlarm cause => decide (cause < 32)
  | .rngHealthFail => true
  | .jtagTapAccess _ => true
  | .coldReset _ => true
  | .startupStepDone _ _ _ _ _ _ _ _ => true
  | .powerGoodFall => true
  | .warmReset src => decide (src < 22)
  | .pmSample _ _ _ _ => true
  | .frequencySwitch _ _ _ => true
  | .thermalClamp _ => true
  | .clampRelease _ => true
  | .thermalTrip _ => true
  | .lodeIdleExit n => decide (n < 32)
  | .logRingWrite i => decide (i < 18)
  | .logHeadWrite who i _ => decide (who < 19) && decide (i < 18)
  | .sidebandRecordRead _ => true
  | .exportPacketSend => true
  | .msiXUnmask i vec => decide (i < 18) && decide (vec < 2049)
  | .pcieLinkUp p _ _ => decide (p < 2)
  | .entropyStartUpTestsPass => true
  | .entropyWaitTimeout _ => true
  | .deviceSelfTestComplete d _ => decide (d < 4)
  | .driveReady d => decide (d < 4)

end Sys2Proof
end

