-- ==== Sys2Proof/Safety.lean ====
section
/-! DEFINITION. What a sound state of the block is, and what no command may do to it: the terms the statements use. -/
namespace Sys2Proof.Machine

open Sys2Proof

/-- The keys of a table rise strictly from `lo` on: every key stands for one value. -/
def tkeys {α : Type} : Nat → Tbl α → Bool
  | _, [] => true
  | lo, (k, _) :: t => decide (lo ≤ k) && tkeys (k + 1) t

/-- Device memory and the marks of its codewords are in canonical form. -/
def State.memWf (s : State) : Bool := twf (0 : Byte) 0 s.mem && twf 0 0 s.bad

/-- Host memory as the part has seen it is in canonical form. -/
def State.hostWf (s : State) : Bool := twf HCell.unknown 0 s.hostMem

/-- Every register has one value. -/
def State.regsWf (s : State) : Bool := tkeys 0 s.regs

/-- No record path holds more records than its queue has entries (R497). -/
def State.pathsOk (s : State) : Bool := s.tel.paths.all fun e => decide (e.2.queue.length ≤ pathQ e.1)

/-- A sound state. -/
structure State.Sound (s : State) : Prop where
  mem   : s.memWf = true
  host  : s.hostWf = true
  regs  : s.regsWf = true
  paths : s.pathsOk = true

/-- What every command does to the state it meets: it keeps it sound, leaves the queue of waiting commands alone, spends draws and never
returns one, and takes back nothing that has left the part. -/
structure Keeps (a s : State) : Prop where
  sound   : a.Sound → s.Sound
  pending : s.pending = a.pending
  fresh   : a.fresh ≤ s.fresh
  wire    : a.wire <:+ s.wire

/-- A taken command of operation `o` that is ready to start, with clocks running, in its turn at the units that it names, and nothing that
it needs waiting (R199, R200, R488). -/
structure Ready (s : State) (o : Op) (id : Nat) (c : Cmd) : Prop where
  running : s.power.running = true
  found   : findCmd s id = some c
  op      : cmdOp c = some o
  phase   : c.phase = .ready
  turn    : unitTurn s c = true
  on      : s.power.dstate = .on
  reach   : ∀ a ∈ devParams o c, memWaits s a 1 = false

/-- A command has ended with a status and result words (R195); its reply is due. -/
def Ended (s : State) (id st w0 w1 w2 w3 : Nat) : Prop :=
  ∃ d, findCmd s id = some d ∧ d.phase = .done ∧ d.status = st ∧ d.w0 = w0 ∧ d.w1 = w1 ∧ d.w2 = w2 ∧ d.w3 = w3

/-- The number of instances of a register block (R10, R44). -/
def blkCount : Blk → Nat
  | .hifPort => 2
  | .hifFn => 18
  | .cmd => 18
  | .ckp => 16
  | .memc => 12
  | .seam => 24
  | .eth => 8
  | .tsc => 32
  | .ftTen => 16
  | .drive => 4
  | .stoTen => 16
  | .stoVol => 1024
  | .lode => 32
  | .me => 64
  | .bc => 272
  | _ => 1

/-- The registers whose tables give a reset value other than 0, and that value (R110 to R511); FT.PATH[p] stands apart (R397). -/
def resetNonzero : List (Reg × Nat) :=
  [
    (.cmdAdmq, 0x40), (.cmdDevRange, 0x1000100), (.cmdWeight, 1), (.syncDefTmo, 0xf4240), (.pwrSts, 0x5dc), (.pwrLimit, 0x708),
    (.errAlert, 0x3800), (.exportCtl, 0xc8e00), (.exportPort, 0x1c7c), (.logClasses, 3), (.memScrub, 0x31), (.memRecal, 0x64),
    (.memCeThresh, 0x400), (.memInject, 2), (.seamCtrl, 1), (.seamPeerFdid, 0xfffff), (.seamFdid, 0xfffff), (.seamTbLimit, 0x32),
    (.ethCtrl, 0x5ee0000), (.tscQuantum, 0x2400), (.tscBurst, 0x40000), (.tscGateSts, 0xff), (.ftCtrl, 0x32), (.ftUdpPort, 0x1c7b),
    (.ftMaxAge, 0x3e8), (.ftRto, 0x28), (.ftCc, 0x5100840), (.ftRmin, 1), (.driveCtrl, 1), (.driveApstIdle, 0x64), (.stoCtrl, 0x6408),
    (.strScrub, 0x21)]

end Sys2Proof.Machine
end

