-- ==== Sys2Proof/Certificates/Slice0/Obligations.lean ====
section
/-! DEFINITION. The statements for the provers. -/
namespace Sys2Proof.Machine

open Sys2Proof

end Sys2Proof.Machine

open Sys2Proof Sys2Proof.Machine

/-- A step takes the command at the front of the queue and runs it with the queue's rest. -/
def Obligations.Step_RunsFront : Prop :=
  ∀ (c : Instr) (rest : List Instr) (s : State),
    Machine.step { s with pending := c :: rest } = Machine.exec c { s with pending := rest }

/-- On an empty queue one TBCLK tick passes: R30's counter adds 1 ns plus TB.ADJ (in 2^-16 ns), timeouts count the tick (R34), and
nothing else changes. That a step on an empty queue is a tick is the model's choice (log entry 2). -/
def Obligations.Step_IdleTicks : Prop :=
  ∀ s : State, s.pending = [] → Machine.step s = .next { s with tb := { s.tb with
    master := s.tb.master + BitVec.ofInt 80 (2 ^ 16 + tbAdjOf s), ticks := s.tb.ticks + 1 } }

/-- Every step keeps a sound state sound: memory and its marks, host memory and the registers stay in canonical form, and no record path
holds more records than its queue has entries (R497). -/
def Obligations.Step_KeepsSound : Prop :=
  ∀ s t : State, s.Sound → Machine.step s = .next t → t.Sound

/-- The state after reset is sound and its queue is empty; each register of `resetNonzero` has the reset value of its table (R189, R230, R240, R317, R343, R370,
R397, R420, R490, R511), FT.PATH[p].SPORT has 0xC000 + p (R397), every other register is 0. That a register the tables give no number (per
part, per strap, a measurement) holds 0 is the model's choice (log entry 3). -/
def Obligations.Reset_State : Prop :=
  State.reset.Sound ∧ State.reset.pending = [] ∧
  (∀ (r : Reg) (v i j : Nat), (r, v) ∈ resetNonzero → State.reset.reg r i j = v) ∧
  (∀ i p, State.reset.reg .ftPath i p = (0xC000 + p) * 2 ^ 16) ∧
  (∀ (r : Reg) (i j : Nat), r ≠ .ftPath → r ∉ resetNonzero.map Prod.fst → State.reset.reg r i j = 0)

/-- Every step takes exactly the front of the queue, returns no draw of a free value, and takes back nothing that has left the part. -/
def Obligations.Step_QueueAndWire : Prop :=
  ∀ s t : State, Machine.step s = .next t → t.pending = s.pending.tail ∧ s.fresh ≤ t.fresh ∧ s.wire <:+ t.wire

/-- Every command that names instances the part holds answers a next state, from every state; any other is refused by name, and no
command is refused for another reason or faults. -/
def Obligations.Exec_Total : Prop :=
  ∀ (c : Instr) (s : State),
    (c.wf = true → ∃ t, Machine.exec c s = .next t) ∧ (c.wf = false → Machine.exec c s = .refused .noSuchInstance)

/-- With the clocks stopped nothing happens at any command but the three that act without clocks: an alarm of the security core, the fall of
PWR_GOOD, and the cold reset pins (R469, R473, R474). -/
def Obligations.Exec_ClocksStopped : Prop :=
  ∀ (c : Instr) (s : State), c.wf = true → s.power.running = false →
    (∀ cause, c ≠ .securityAlarm cause) → c ≠ .powerGoodFall → (∀ pin, c ≠ .coldReset pin) → Machine.exec c s = .next s

/-- SESSION commands: HELLO opens the session at the version that the range, the bundle and the sessions of others allow, and its reply holds
the version, the bundle and the range (R203, R205); HEARTBEAT restarts the interval (R434); GOODBYE of a function with no queue pair but its
admin queue, of a management function while no other session is open, returns the session to HOLD. Each ends with OK. -/
def Obligations.Session_Commands : Prop :=
  ∀ (s : State) (id : Nat) (c : Cmd),
    (∀ v, Ready s .hello id c → c.fn < 16 → sessOpen s c.fn = false → helloVer s c.fn (c.p 0) (c.p 1) (c.p 2) = some v →
      let t := beginHb c.fn (c.p 3) (c.p 4) (s.setReg .cmdSession c.fn 0 (1 + v * 256))
      Machine.exec (.hello id) s = .next (finish id 0x0000 v (bundleNow t) (s.reg .cmdDevRange c.fn) 0 t)) ∧
    (Ready s .heartbeat id c → sessOpen s c.fn = true →
      Machine.exec (.heartbeat id) s = .next (finish0 id 0x0000 (s.setHost c.fn { s.host c.fn with
        hbDue := some (s.tb.ticks + (tget {} s.cmd.sessions c.fn).hbMs * 1000000) }))) ∧
    (Ready s .goodbye id c → (∀ q, 0 < q → q < 64 → (s.qp c.fn q).st = 0) →
      (16 ≤ c.fn → ∀ i, i < 18 → i ≠ c.fn → sessOpen s i = false) →
      Machine.exec (.goodbye id) s = .next (finish0 id 0x0000 (endHb c.fn (s.setReg .cmdSession c.fn 0 0))))

/-- QUEUE commands: QP_CREATE makes an ABSENT queue pair ACTIVE with its parameters, and of one that stands answers STATE_CONFLICT with its
state (R216, R217); QP_DELETE of a queue pair in ERROR removes it; ABORT ends the waiting command with its TAG with ABORTED, unless what that one waits
for comes in the same cycle (R218), and its own reply says 1; IDENTIFY writes the identity page to host memory; WINDOW_MAP, in the translated mode, writes one translation entry for
each block (R211, R427). -/
def Obligations.Queue_Commands : Prop :=
  ∀ (s : State) (id : Nat) (c : Cmd),
    (Ready s .qpCreate id c → (s.qp c.fn (c.p 0)).st = 0 →
      Machine.exec (.qpCreate id) s = .next (finish0 id 0x0000 (s.setQp c.fn (c.p 0)
        { st := 1, log2 := c.p 1, prio := c.p 2, vector := c.p 3, sq := c.p 4, cq := c.p 5 }))) ∧
    (Ready s .qpCreate id c → (s.qp c.fn (c.p 0)).st ≠ 0 →
      Machine.exec (.qpCreate id) s = .next (finish id 0x0201 (0x02 + c.p 0 * 256) (s.qp c.fn (c.p 0)).st 0 0 s)) ∧
    (Ready s .qpDelete id c → (s.qp c.fn (c.p 0)).st = 2 →
      Machine.exec (.qpDelete id) s = .next (finish0 id 0x0000 (removeQp c.fn (c.p 0) s))) ∧
    (∀ d, Ready s .abort id c → (s.cmd.cmds.find? fun d => d.fn == c.fn && d.q == c.p 0 && d.tag == c.p 1 && waits d && !released s d) = some d →
      Machine.exec (.abort id) s = .next (finish id 0x0000 1 0 0 0 (finish0 d.id 0x0701 (cancelCmd d s)))) ∧
    (Ready s .abort id c → (s.cmd.cmds.find? fun d => d.fn == c.fn && d.q == c.p 0 && d.tag == c.p 1 && waits d && !released s d) = none →
      Machine.exec (.abort id) s = .next (finish0 id 0x0000 s)) ∧
    (Ready s .identify id c → (s.host c.fn).bme = true → (∀ i, i < 4096 → tget .unknown s.hostMem (hostKey (fnPort s c.fn) (c.p 1 + i)) ≠ .bad) →
      Machine.exec (.identify id) s = .next (finish id 0x0000 partId 0 0 0 { s with
        hostMem := hostPut s.hostMem (fnPort s c.fn) (c.p 1) (fit 4096 ((identifyWords s c.fn (c.p 0)).flatMap (leBytes 4))) })) ∧
    (Ready s .windowMap id c → s.reg .hifCfg % 2 = 1 →
      ∃ t, Machine.exec (.windowMap id) s = .next (finish0 id 0x0000 t) ∧ (∀ fn, fn ≠ c.fn → t.host fn = s.host fn) ∧
        ∀ b, tget 0 (t.host c.fn).xlat b =
          if c.p 0 ≤ b ∧ b < c.p 0 + c.p 1 then 1 + (c.p 2 + (b - c.p 0) * 0x200000) % 0x10000000000000 else tget 0 (s.host c.fn).xlat b)

/-- Doorbells and the admin queue (R186, R189, R217): a write of SQ_TAIL below the ring's size to an ACTIVE queue pair whose session is not
open posts entries; one at or beyond it puts the queue pair in ERROR and sets CMD[i].ERR bit 0; a write of CQ_HEAD frees the slots up to
it; ENABLE with a legal LOG2 makes queue 0 ACTIVE over the rings of ADMQ_SQ and ADMQ_CQ. -/
def Obligations.Doorbells : Prop :=
  ∀ (s : State) (p v q fn : Nat) (val : Word), s.power.running = true → p < 2 → v < 17 → barFn s p v = some fn → sessOpen s fn = false →
    (s.qp fn q).st = 1 →
    (val.toNat < 2 ^ (s.qp fn q).log2 →
      Machine.exec (.sqTailWrite p v q val) s = .next (s.setQp fn q { s.qp fn q with tail := val.toNat })) ∧
    (2 ^ (s.qp fn q).log2 ≤ val.toNat →
      ∃ t, Machine.exec (.sqTailWrite p v q val) s = .next t ∧ (q < 64 → (t.qp fn q).st = 2) ∧ bit (t.reg .cmdErr fn) 0 = true) ∧
    (let n := (val.toNat + 2 ^ (s.qp fn q).log2 - (s.qp fn q).cqHead) % 2 ^ (s.qp fn q).log2
     val.toNat < 2 ^ (s.qp fn q).log2 → n ≤ (s.qp fn q).cqUsed →
      Machine.exec (.cqHeadWrite p v q val) s = .next (s.setQp fn q { s.qp fn q with cqHead := val.toNat, cqUsed := (s.qp fn q).cqUsed - n })) ∧
    (∀ (w : Word) (k : Nat), k = bits w.toNat 7 4 → bit (s.reg .cmdAdmq fn) 0 = false → bit w.toNat 0 = true → 4 ≤ k → k ≤ 12 → fn < 18 →
      ∃ t, Machine.exec (.admqEnable 18 fn w) s = .next t ∧
        t.qp fn 0 = { st := 1, log2 := k, sq := s.reg .cmdAdmqSq fn, cq := s.reg .cmdAdmqCq fn })

/-- Takes, dispatch and replies: the engine asks the host for ring entries that it has not
read, and takes from the function next in round robin that has a command to take, and from the queue pair
that its weights pick (R191, R201): the command's entries leave the ring, and it enters under the next take number; the scheduler's choice
becomes ready where no earlier command of its list names a unit it names (R240); a reply that is due is written in the completion ring's
next slot with PHASE, the slot counts as used, the command is gone and the vector is signalled (R187, R188, R195). -/
def Obligations.Take_Dispatch_Reply : Prop :=
  ∀ s : State, s.power.running = true →
    (∀ fn q t, let u := askRings s
      (fnOrder u).find? (fun fn => takeQps u fn != []) = some fn → pickQp fn (takeQps u fn) u = (q, t) →
      Machine.exec .submissionFetch s = .next (takeFrom fn q t)) ∧
    (∀ fn q b bs, hostRead { s with cmd := { s.cmd with lastFn := fn } } fn ((s.qp fn q).sq + 64 * (s.qp fn q).head) 64 =
        ({ s with cmd := { s.cmd with lastFn := fn } }, .ok b) →
      ringRead fn (s.qp fn q) (spanOf (s.qp fn q) (fld b 3 1)) (s.qp fn q).head { s with cmd := { s.cmd with lastFn := fn } } =
        ({ s with cmd := { s.cmd with lastFn := fn } }, .ok bs) → 16 ≤ fn →
      let head := ((s.qp fn q).head + spanOf (s.qp fn q) (fld b 3 1)) % 2 ^ (s.qp fn q).log2
      let t := ({ s with cmd := { s.cmd with lastFn := fn } } : State).setQp fn q { s.qp fn q with head := head, credit := (s.qp fn q).credit - 1 }
      takeFrom fn q s = continueHold fn (admitCmd { id := s.cmd.nextId, fn := fn, q := q, head := head, bytes := bs, phase := .ready }
        (restartHb fn { t with cmd := { t.cmd with nextId := s.cmd.nextId + 1 } }))) ∧
    (∀ id c, findCmd s id = some c → c.phase = .listed → (s.fwp 32).st = .running → cmdEligible s c = true →
      Machine.exec (.commandDispatch id) s = .next (modCmd id (fun c => { c with phase := .ready }) s)) ∧
    (∀ id c, let x := s.qp c.fn c.q
      findCmd s id = some c → replyNext s c = true → x.st ≠ 0 → (s.host c.fn).bme = true → 16 ≤ c.fn →
      (∀ i, i < (replyBytes c x.phase s.now).length → tget .unknown s.hostMem (hostKey (fnPort s c.fn) (x.cq + 32 * x.cqTail + i)) ≠ .bad) →
      let wrap := x.cqTail + 1 = 2 ^ x.log2
      let t := ({ s with hostMem := hostPut s.hostMem (fnPort s c.fn) (x.cq + 32 * x.cqTail) (replyBytes c x.phase s.now) } : State).setQp c.fn c.q
        { x with cqTail := if wrap then 0 else x.cqTail + 1, phase := if wrap then !x.phase else x.phase, cqUsed := x.cqUsed + 1 }
      Machine.exec (.replyWrite id) s = .next (signalVector c.fn (qpVector t c.fn c.q) (dropCmds (fun d => d.id == id) t))) ∧
    (∀ i due, i < 16 → (s.host i).hbDue = some due → due ≤ s.tb.ticks → (tget {} s.cmd.sessions i).policy = 0 →
      Machine.exec (.heartbeatExpiry i) s = .next (continueHold i (raise 2 (some i) (regAddr .hifSts i 0 0) 0x8009 (zeros 2 ++ leBytes 4 i)
        (s.setHost i { s.host i with hbDue := none, hbLost := true }))))

/-- Engines take descriptors: the offer at the round-robin pointer enters a queue with room, the pointer moves past it, and a core that offered
it may issue its bundle; a full queue takes nothing; the lode's control core offers at position 9 (R82, R83). An engine
that may accept takes the head of its queue once none of the memory that it touches zero-fills or is idle, and a descriptor that passes every check of R89 begins the operation its OP names (R84, R95,
R100, R102, R103), the NOP doing nothing but complete (R87); one that fails a check runs no further and carries the check's status. -/
def Obligations.Engine_Accepts : Prop :=
  ∀ (s : State) (n : Nat), s.power.running = true → n < 64 →
    (∀ m, (s.engine n).offers = [m] → m.pos = (s.engine n).rr → m.pos < 10 → (∀ c, c ∈ s.chains → c.count ≤ c.next) →
      (s.engine n).queue.length < 8 →
      let t := s.setEngine n { s.engine n with offers := [], queue := (s.engine n).queue ++ [m], rr := (m.pos + 1) % 10 }
      Machine.exec (.modEnqueue ⟨n, none⟩) s = .next (match m.issuer with | .core k => offerTaken k false t | _ => t)) ∧
    (8 ≤ (s.engine n).queue.length → Machine.exec (.modEnqueue ⟨n, none⟩) s = .next s) ∧
    (∀ b, (s.fwp (n / 2)).st = .running → (s.engine n).offers = [] → (s.engine n).rr < 10 → (s.engine n).queue.length < 8 →
      Machine.exec (.modEnqueue ⟨n, some b⟩) s = .next ((s.setEngine n { s.engine n with offers := [⟨fit 64 b, 9, .ctl, none⟩] }).setEngine n
        { s.engine n with queue := (s.engine n).queue ++ [⟨fit 64 b, 9, .ctl, none⟩], rr := 0 })) ∧
    (∀ d rest, (s.engine n).queue = d :: rest → engFree s n = true →
      let m := modFields d.bytes
      let t := takeHead n d rest s
      let o := opOfMod n d (modXl s n d) t
      (modCheck s n m (modXl s n d) = none → modCheck t n m (modXl s n d) = none → contOk (s.engine n) m = true →
        (∀ x, x ∈ opExts s n m → rowsWait s x = false) →
        (m.op = 0 → Machine.exec (.modNop n) s = .next (runOp n o t)) ∧
        (m.op = 1 → Machine.exec (.matmul n) s = .next (beginSums n m [] m.aux o (endKept n m t))) ∧
        (∀ u es seed, m.op = 2 → readSlices t n m = (u, .ok (es, seed)) →
          Machine.exec (.grouped n) s = .next (beginSums n m (es.filter (·.rows ≠ 0)) seed o (endKept n m u))) ∧
        (m.op = 3 → Machine.exec (.rangeScan n) s = .next (beginScan n m o t)) ∧
        (m.op = 4 → Machine.exec (.transposeLoad n) s = .next (beginTrans n m o t))) ∧
      (∀ st f, modCheck s n m (modXl s n d) = some (st, f) → modCheck t n m (modXl s n d) = some (st, f) → m.op = 1 →
        Machine.exec (.matmul n) s = .next (failOp n o st f t)))

/-- Engines produce and end: output tiles whose sums are complete are converted and written and the engine is DRAINING (R95, R110); an
uncorrectable operand or output codeword ends the operation with UNCORRECTABLE and its FAULT, and ends what is resident (R98, R111); an
operation with nothing left to do completes, no sooner than its cycles (R106, R108); QUIESCE and DROP_RESIDENT of the instance's own
tenant take effect (R98, R110). -/
def Obligations.Engine_Ends : Prop :=
  ∀ (s : State) (n : Nat), s.power.running = true → n < 64 →
    (∀ o u fl, (s.engine n).op = some o → (s.engine n).phase = .running → o.fault = 0 → o.status = 0x0000 → o.ue = none →
      ((modFields o.mod.bytes).op = 1 ∨ (modFields o.mod.bytes).op = 2) → (modFields o.mod.bytes).isKeep = false →
      writeRows (modFields o.mod.bytes) o.seed o.rows 0 s = (u, fl, none) →
      Machine.exec (.engineDrainStart n) s = .next (arithEv n fl (u.setEngine n { u.engine n with
        phase := .draining, op := some { o with rows := [], arith := o.arith ||| fl, resFlag := true } }))) ∧
    (∀ o cw rows u, (s.engine n).op = some o → o.ue = some cw →
      (if (modFields o.mod.bytes).op = 4 then writePieces s (o.writes.take (rows * (modFields o.mod.bytes).rowWrites)) = (u, none)
       else ∃ fl, writeRows (modFields o.mod.bytes) o.seed (if (modFields o.mod.bytes).isKeep then [] else o.rows.take (max rows o.sure)) 0 s =
         (u, fl, none)) →
      ∃ t, Machine.exec (.engineOperandUe n rows) s = .next t ∧ (t.engine n).shape = none ∧ (t.engine n).store = [] ∧
        ∃ o', (t.engine n).op = some o' ∧ o'.status = 0x0401 ∧ o'.fault = cw) ∧
    (∀ o cw, (s.engine n).op = some o → o.rmw = some cw →
      ∃ t, Machine.exec (.engineRmwUe n) s = .next t ∧ (t.engine n).shape = none ∧ (t.engine n).store = [] ∧
        ∃ o', (t.engine n).op = some o' ∧ o'.status = 0x0401 ∧ o'.fault = cw) ∧
    (∀ o cycles u, (s.engine n).op = some o → opDone (s.engine n) o = true → leastCycles (modFields o.mod.bytes) o ≤ cycles →
      writePieces s o.writes = (u, none) → Machine.exec (.engineOpComplete n cycles) s = .next (completeOp n o cycles u)) ∧
    (∀ o cycles, (s.engine n).op = some o → cycles < leastCycles (modFields o.mod.bytes) o →
      Machine.exec (.engineOpComplete n cycles) s = .next s) ∧
    (∀ t (val : Word), t < 16 → lodeOwner s (n / 2) = t + 1 → val.getLsbD 1 = false →
      Machine.exec (.quiesceWrite t n val) s = .next (holdReplies (s.setField .meCtrl n 0 0 0 val.toNat))) ∧
    (∀ t (val : Word), t < 16 → lodeOwner s (n / 2) = t + 1 → val.getLsbD 1 = true →
      let u := s.setField .meCtrl n 0 0 0 val.toNat
      Machine.exec (.dropResident t n val) s = .next (holdReplies (u.setEngine n { u.engine n with shape := none, store := [] })))

/-- Movers: the first waiting offer enters a queue of fewer than 16 entries, and a core that offered it may issue its bundle; a full queue takes
none; the lode's control core offers too (R169). The head entry that may be dispatched takes the lowest-numbered free mover; one that
fails a check of R171 carries the check's status and moves nothing; one that passes begins: a NOP has nothing to move, a COPY or FILL moves
its rows. A row within one line is copied, or filled with the pattern, whole, and the mover holds its length as the bytes written; an
uncorrectable source byte leaves the line unwritten (R171). The failed read then ends the move with UNCORRECTABLE; a mover with no failed
read completes (R172). -/
def Obligations.Movers : Prop :=
  ∀ (s : State) (n m : Nat), s.power.running = true → n < 32 → m < 4 →
    (∀ d rest, (s.lode n).offers = d :: rest → (s.lode n).queue.length < 16 → (∀ c, c ∈ s.chains → c.count ≤ c.next) →
      let t := s.setLode n { s.lode n with offers := rest, queue := (s.lode n).queue ++ [d] }
      Machine.exec (.moveEnqueue ⟨n, none⟩) s = .next (match d.issuer with | .core k => offerTaken k true t | _ => t)) ∧
    (16 ≤ (s.lode n).queue.length → Machine.exec (.moveEnqueue ⟨n, none⟩) s = .next s) ∧
    (∀ b, (s.fwp n).st = .running → (s.lode n).offers = [] → (s.lode n).queue.length < 16 →
      Machine.exec (.moveEnqueue ⟨n, some b⟩) s = .next ((s.setLode n { s.lode n with offers := [⟨fit 64 b, .ctl, none⟩] }).setLode n
        { s.lode n with queue := (s.lode n).queue ++ [⟨fit 64 b, .ctl, none⟩] })) ∧
    (∀ d rest, (s.lode n).queue = d :: rest → freeMover s n = some m →
      let x := mvFields d.bytes
      let t := takeMove n d rest s
      let o := moveOpOf n m (s.lode n).seq d (mvXl s n d) t
      mvReady s n x = true → mvWaits s x = false →
        (∀ st deny, mvCheck t n m d (mvXl s n d) = some (st, deny) →
          let u := setMover n m (some { o with status := st }) (if deny then refuseOf t (moverReq t n m) (mvRanges x) else t)
          ((x.op = 0 ∨ 2 < x.op) → Machine.exec (.moveNop n) s = .next u) ∧
          (x.op = 1 → Machine.exec (.moveCopy n) s = .next u) ∧ (x.op = 2 → Machine.exec (.moveFill n) s = .next u)) ∧
        (mvCheck t n m d (mvXl s n d) = none →
          (x.op = 0 → Machine.exec (.moveNop n) s = .next (setMover n m (some o) t)) ∧
          (x.op = 1 → Machine.exec (.moveCopy n) s = .next (runMove n m o t)) ∧
          (x.op = 2 → Machine.exec (.moveFill n) s = .next (runMove n m o t)) ∧
          (x.rows = 1 → 0 < x.len → x.len ≤ 64 - x.dst % 64 →
            (∀ u v bs, x.op = 1 → readMem t x.src x.len = (v, .ok bs) → lineWrite x.dst bs v = (u, none) →
              Machine.exec (.moveCopy n) s = .next (setMover n m (some { o with bytes := x.len }) u)) ∧
            (∀ v cw, x.op = 1 → readMem t x.src x.len = (v, .error cw) →
              Machine.exec (.moveCopy n) s = .next (setMover n m (some { o with bytes := 0, ue := some cw }) v)) ∧
            (∀ u, x.op = 2 → lineWrite x.dst ((List.range x.len).map fun i => BitVec.ofNat 8 (x.pat >>> (8 * (i % 4)))) t = (u, none) →
              Machine.exec (.moveFill n) s = .next (setMover n m (some { o with bytes := x.len }) u))))) ∧
    (∀ o cw, mover s n m = some o → o.ue = some cw →
      Machine.exec (.moveSourceUe n m) s = .next (setMover n m (some { o with status := 0x0401, ue := none }) s)) ∧
    (∀ o, mover s n m = some o → o.ue = none → Machine.exec (.moveComplete n m) s = .next (completeMove n m o s))

/-- Strata memory: a bank that is not in the second cycle of a partial write grants one request of a cycle; each other one counts in
STR[n].CONFLICT, the pointer of the granted one's class advances by one source, and a partial write holds the bank for its next cycle, in
which nothing is granted (R158 to R161); a read answers its line, a write stores its bytes; the scrubber, outside a running group's
slots of its own, performs a queued write-back before it reads on (R165, R167, R173); once a lode's zero-fill has ended the lode belongs
to its new owner (R168). -/
def Obligations.Strata_Access : Prop :=
  ∀ (s : State) (n : Nat), s.power.running = true → n < 32 →
    (∀ bank reqs r, bank < 48 → tget 0 s.own.zeroing n = 0 → (s.lode n).rmw.contains bank = false →
      grantOf s n bank (bankReqs bank reqs) = some r →
      let k := bank * 8 + r.cls
      Machine.exec (.strataBankAccess n bank reqs) s =
        .next (lineAccess n r ((s.count .strConflict n 0 ((bankReqs bank reqs).length - 1)).setLode n { s.lode n with
          rr := tput 0 (s.lode n).rr k ((tget 0 (s.lode n).rr k + 1) % classSources r.cls)
          rmw := if partialWrite r then bank :: (s.lode n).rmw else (s.lode n).rmw }))) ∧
    (∀ bank reqs, bank < 48 → tget 0 s.own.zeroing n = 0 → (s.lode n).rmw.contains bank = true →
      Machine.exec (.strataBankAccess n bank reqs) s = .next ((s.count .strConflict n 0 (bankReqs bank reqs).length).setLode n
        { s.lode n with rmw := (s.lode n).rmw.filter (· != bank) })) ∧
    (∀ r t d, r.store = none → readMem s (lineAddr n r.line) 64 = (t, .ok d) → lineAccess n r s = { t with resp := some (leNat d) }) ∧
    (∀ r o bs, r.store = some (o, bs) → o + bs.length ≤ 64 → lineAccess n r s = (writeMem s (lineAddr n r.line + o) bs).1) ∧
    (∀ cw rest, slotAdmits s n 6 0 = true → tget 0 s.own.zeroing n = 0 → (s.lode n).wb = cw :: rest →
      Machine.exec (.strataScrubRead n) s = .next (rewrite cw (s.setLode n { s.lode n with wb := rest }))) ∧
    (slotAdmits s n 6 0 = false → Machine.exec (.strataScrubRead n) s = .next s) ∧
    (slotAdmits s n 6 0 = true → tget 0 s.own.zeroing n = 0 → (s.lode n).wb = [] → bit (s.reg .strScrub n) 0 = true →
      (s.lode n).scrubDue ≤ s.tb.ticks → Machine.exec (.strataScrubRead n) s = .next (patrolLine n s)) ∧
    (∀ o, tget 0 s.own.zeroing n = o + 1 →
      Machine.exec (.lodeZeroingDone n) s = .next (holdReplies (lodeZeroed n o s)) ∧
      tget 0 (lodeZeroed n o s).own.zeroing n = 0 ∧ tget 0 (lodeZeroed n o s).own.lodes n = o)
/-- COMP commands that load and run: MOD_CHAIN and MOVE_CHAIN of an awake lode start a chain, and where no other chain runs its first descriptor is read and offered (R109, R212);
IMEM_LOAD puts the bytes it read into the core's instruction memory and ends with OK, and of a core that is not HALTED or FAULTED answers
STATE_CONFLICT; CORES_RUN starts every core it names, all HALTED, and answers STATE_CONFLICT of the first that is not (R151, R212). -/
def Obligations.Chain_And_Load_Commands : Prop :=
  ∀ (s : State) (id : Nat) (c : Cmd),
    (Ready s .modChain id c → awake s (c.p 0 / 2) = true →
      Machine.exec (.modChain id) s = .next (offerChains false (c.p 0)
        (working id { s with chains := s.chains ++ [⟨id, c.p 0, c.p 1, c.p 2, 0, 0, false, none⟩] }))) ∧
    (∀ t d, let ch : Chain := ⟨id, c.p 0, c.p 1, c.p 2, 0, 0, false, none⟩
      Ready s .modChain id c → awake s (c.p 0 / 2) = true → s.chains = [] → (s.engine (c.p 0)).offers = [] → 0 < c.p 1 →
      readMem (working id { s with chains := [ch] }) (strataBase + c.p 2) 64 = (t, .ok d) →
      let u := modChainBy id (fun c => { c with next := c.next + 1 }) t
      Machine.exec (.modChain id) s = .next (u.setEngine (c.p 0) { u.engine (c.p 0) with
        offers := (u.engine (c.p 0)).offers ++ [⟨d, 8, .fn (cmdFn t id), some (id, 0)⟩] })) ∧
    (Ready s .moveChain id c → awake s (c.p 0) = true →
      Machine.exec (.moveChain id) s = .next (offerChains true (c.p 0)
        (working id { s with chains := s.chains ++ [⟨id, c.p 0, c.p 1, c.p 2, 0, 0, true, none⟩] }))) ∧
    (∀ t d, let ch : Chain := ⟨id, c.p 0, c.p 1, c.p 2, 0, 0, true, none⟩
      Ready s .moveChain id c → awake s (c.p 0) = true → s.chains = [] → (s.lode (c.p 0)).offers = [] → 0 < c.p 1 →
      readMem (working id { s with chains := [ch] }) (strataBase + c.p 2) 64 = (t, .ok d) →
      let u := modChainBy id (fun c => { c with next := c.next + 1 }) t
      Machine.exec (.moveChain id) s = .next (u.setLode (c.p 0) { u.lode (c.p 0) with
        offers := (u.lode (c.p 0)).offers ++ [⟨d, .fn (cmdFn t id), some (id, 0)⟩] })) ∧
    (∀ t bs u, Ready s .imemLoad id c → (c.p 0 < 256 → awake s (c.p 0 / 8) = true) → imemOpen s (c.p 0) = true →
      readAddr s c.fn (c.p 3) (c.p 1) = (t, .ok bs) → imemWrites (cwSplit (bs.length + 1) (imemBase + c.p 0 * 0x10000 + c.p 2) bs) t = (u, none) →
      Machine.exec (.imemLoad id) s = .next (finish0 id 0x0000 u)) ∧
    (Ready s .imemLoad id c → (c.p 0 < 256 → awake s (c.p 0 / 8) = true) → (s.core (c.p 0)).st = .running → imemOpen s (c.p 0) = false →
      Machine.exec (.imemLoad id) s = .next (finish id 0x0201 (0x04 + c.p 0 * 256) 1 0 0 s)) ∧
    (Ready s .coresRun id c → (c.p 0 ≠ 0x80 → awake s (c.p 0) = true) → runCores c ≠ [] → (∀ k, k ∈ runCores c → (s.core k).st = .halted) →
      Machine.exec (.coresRun id) s = .next ((runCores c).foldl (fun s k => startCore k (some id) s) (working id s))) ∧
    (∀ k, Ready s .coresRun id c → (c.p 0 ≠ 0x80 → awake s (c.p 0) = true) → (runCores c).find? (fun k => (s.core k).st != .halted) = some k →
      Machine.exec (.coresRun id) s = .next (finish id 0x0201 (0x04 + k * 256) (coreCode s k) 0 0 s))

/-- Lock groups: LOCK_FORM of awake lodes of the tenant that are IDLE and in no group makes a FREE group FORMED over them (R174), and refuses a
lode of another owner with ACCESS_DENIED; LOCK_START of the tenant's FORMED group arms its start at TARGET, one already reached being
late, and it fires at the next tick at the earliest (R175); 10 ns after the event the group starts; LOCK_DISSOLVE of a group whose members are idle frees it (R178). -/
def Obligations.Lock_Groups : Prop :=
  ∀ (s : State) (id : Nat) (c : Cmd),
    (let ms := (List.range 32).filter (bit (c.p 1))
     Ready s .lockForm id c → (∀ n, n ∈ ms → awake s n = true ∧ lodeOwner s n = c.fn + 1 ∧ groupOf s n = none ∧ lodeIdle s n = true ∧
        tget 0 s.own.zeroing n = 0) → (s.grp (c.p 0)).st = .free → (crossDie ms = true → clocksLocked s = true) →
      Machine.exec (.lockForm id) s = .next (finish0 id 0x0000 (s.setGrp (c.p 0) { st := .formed, members := ms, tenant := c.fn }))) ∧
    (let ms := (List.range 32).filter (bit (c.p 1))
     Ready s .lockForm id c → (∀ n, n ∈ ms → awake s n = true) → (∃ n, n ∈ ms ∧ lodeOwner s n ≠ c.fn + 1) →
      Machine.exec (.lockForm id) s = .next (finish id 0x0501 20 0 0 0 s)) ∧
    (Ready s .lockStart id c → (s.grp (c.p 0)).st = .formed → (s.grp (c.p 0)).tenant = c.fn →
      let t := s.setGrp (c.p 0) { s.grp (c.p 0) with st := .armed, target := c.p 1, late := false, fired := none, cmd := some id }
      Machine.exec (.lockStart id) s = .next (working id { t with tb := { s.tb with
        armed := s.tb.armed ++ [⟨.lock (c.p 0), c.p 1, decide (c.p 1 ≤ s.now), s.tb.ticks + 1⟩] } })) ∧
    (∀ g t, s.power.running = true → g < 32 → (s.grp g).fired = some t → (s.grp g).st = .armed → t + 10 ≤ s.tb.ticks →
      Machine.exec (.lockGroupStart g) s = .next (startGroup g s)) ∧
    (∀ g t, s.power.running = true → g < 32 → (s.grp g).fired = some t → s.tb.ticks < t + 10 → Machine.exec (.lockGroupStart g) s = .next s) ∧
    (Ready s .lockDissolve id c → (s.grp (c.p 0)).st = .formed → (s.grp (c.p 0)).tenant = c.fn →
      (∀ n, n ∈ (s.grp (c.p 0)).members → lodeIdle s n = true) → (s.grp (c.p 0)).cmd = none →
      Machine.exec (.lockDissolve id) s = .next (finish0 id 0x0000
        { s.setGrp (c.p 0) {} with tb := { s.tb with armed := s.tb.armed.filter fun e => e.owner != .lock (c.p 0) } }))

/-- Holds, resets and idle lodes (R177, R182, R212, R487): LODE_HOLD sets or clears LODE[n].CTRL.HOLD, at once with OK where it clears it; a write of
CTRL by the lode's tenant sets HOLD and, with RESET, resets it; LODE_RESET resets the lode and replies when it is IDLE. A reset clears
CTRL, both engines and the mover queue and movers. LODE_POWER puts an IDLE lode of no group into idle and answers OK, and answers
STATE_CONFLICT of one that is not IDLE; a request for an idle lode starts its exit, and the exit ends 200 µs later. -/
def Obligations.Lode_States : Prop :=
  ∀ (s : State) (id : Nat) (c : Cmd),
    ((Ready s .lodeHold id c → awake s (c.p 0) = true → tget 0 s.own.zeroing (c.p 0) = 0 →
        (c.p 1 = 0 → Machine.exec (.lodeHold id) s = .next (finish0 id 0x0000 (holdsChanged (s.setField .lodeCtrl (c.p 0) 0 1 1 0)))) ∧
        (c.p 1 ≠ 0 → Machine.exec (.lodeHold id) s = .next (holdsChanged (working id (s.setField .lodeCtrl (c.p 0) 0 1 1 1))))) ∧
      (∀ t n (val : Word), s.power.running = true → t < 16 → n < 32 → lodeOwner s n = t + 1 → bit val.toNat 0 = false →
        Machine.exec (.lodeCtrlHold t n val) s = .next (holdsChanged (s.setField .lodeCtrl n 0 1 1 (bits val.toNat 1 1)))) ∧
      (∀ t n (val : Word), s.power.running = true → t < 16 → n < 32 → lodeOwner s n = t + 1 → bit val.toNat 0 = true →
        Machine.exec (.lodeCtrlReset t n val) s = .next (resetLode n (holdsChanged (s.setField .lodeCtrl n 0 1 1 (bits val.toNat 1 1))))) ∧
      (∀ t n (val : Word), s.power.running = true → t < 16 → n < 32 → lodeOwner s n ≠ 0 → lodeOwner s n ≠ t + 1 →
        Machine.exec (.lodeCtrlHold t n val) s = .next s ∧ Machine.exec (.lodeCtrlReset t n val) s = .next s) ∧
      (Ready s .lodeReset id c → awake s (c.p 0) = true →
        Machine.exec (.lodeReset id) s = .next (resetLode (c.p 0) (working id s))) ∧
      (∀ n, n < 32 → (resetOneLode n s).reg .lodeCtrl n = 0 ∧ (resetOneLode n s).engine (2 * n) = {} ∧
        (resetOneLode n s).engine (2 * n + 1) = {} ∧ ((resetOneLode n s).lode n).queue = [] ∧ ((resetOneLode n s).lode n).movers = [])) ∧
    ((Ready s .lodePower id c → c.p 1 = 1 → groupOf s (c.p 0) = none → lodeCode s (c.p 0) = 0 →
        Machine.exec (.lodePower id) s = .next (finish0 id 0x0000 (s.setLode (c.p 0) { s.lode (c.p 0) with idle := true, wake := none }))) ∧
      (Ready s .lodePower id c → c.p 1 = 1 → groupOf s (c.p 0) = none → lodeCode s (c.p 0) ≠ 0 →
        Machine.exec (.lodePower id) s = .next (finish id 0x0201 (0x03 + c.p 0 * 256) (lodeCode s (c.p 0)) 0 0 s)) ∧
      (Ready s .lodePower id c → c.p 1 = 0 → (s.lode (c.p 0)).idle = true → (s.lode (c.p 0)).wake = none →
        let t := working id s
        Machine.exec (.lodePower id) s = .next (t.setLode (c.p 0) { t.lode (c.p 0) with wake := some (s.tb.ticks + 200000) })) ∧
      (Ready s .lodePower id c → c.p 1 = 0 → (s.lode (c.p 0)).idle = false →
        Machine.exec (.lodePower id) s = .next (finish0 id 0x0000 s)) ∧
      (∀ n t, s.power.running = true → n < 32 → (s.lode n).wake = some t → t ≤ s.tb.ticks →
        ∃ u, Machine.exec (.lodeIdleExit n) s = .next u ∧ (u.lode n).idle = false ∧ (u.lode n).wake = none) ∧
      (∀ n t, s.power.running = true → n < 32 → (s.lode n).wake = some t → s.tb.ticks < t → Machine.exec (.lodeIdleExit n) s = .next s))

/-- Bead cores issue: a bundle of moves is fetched at the core's next address and issued whole (R115): the enabled moves write their
destinations together, results go on, and the program counter moves past the bundle; a port that cannot be read or written is ILLEGAL_PORT, a
port or unit written twice is MULTI_WRITE, and neither has an effect
beyond the exception (R122, R123, R145). With GE clear a move is always enabled; with GE set and SENSE 0 it is enabled when the
predicate PRED is 1, with SENSE 1 when it is 0 (R119). -/
def Obligations.Core_Issue : Prop :=
  ∀ (s t : State) (k : Nat) (late : Bool), s.power.running = true → k < 272 → coreBegin k s = (t, true) → (t.core k).nop = 0 →
    (∀ u ms len, fetch t k (nextPc (t.core k)) = (u, .moves ms len) →
      Machine.exec (.bundleIssue k late) s = .next (issueMoves k late ms (nextPc (t.core k)) len u)) ∧
    (∀ u code sl p, fetch t k (nextPc (t.core k)) = (u, .bad code sl p) →
      Machine.exec (.bundleIssue k late) s = .next (takeExc k ⟨code, sl, p, 0⟩ (nextPc (t.core k)) false u)) ∧
    (∀ (u : State) (ms : List MoveSlot) (pc len : Nat), (u.core k).mop ≠ .waiting → (u.core k).dmv ≠ .waiting →
      let en := ms.filter (enabled (u.core k))
      (portFault (decide (256 ≤ k)) ms = none → multiFault [] en = none → (∀ m, m ∈ en → unitOf m.dst = 0) →
        issueMoves k late ms pc len u = coreNext k len none (u.setCore k { u.core k with ports := movePorts u k en })) ∧
      (∀ sl p, portFault (decide (256 ≤ k)) ms = some (sl, p) → issueMoves k late ms pc len u = takeExc k ⟨0x02, sl, p, 0⟩ pc false u) ∧
      (∀ sl p, portFault (decide (256 ≤ k)) ms = none → multiFault [] en = some (sl, p) →
        issueMoves k late ms pc len u = takeExc k ⟨0x03, sl, p, 0⟩ pc false u)) ∧
    (∀ (w p : Nat) (m : MoveSlot) (x : Core),
      (bit w 28 = false → guardOf w = none) ∧
      (bit w 28 = true → guardOf w = some (bits w 26 24, bit w 27)) ∧
      (m.guard = none → enabled x m = true) ∧
      (m.guard = some (p, false) → (enabled x m = true ↔ tget 0 x.ports (0x50 + p) = 1)) ∧
      (m.guard = some (p, true) → (enabled x m = true ↔ tget 0 x.ports (0x50 + p) ≠ 1)))

/-- Control bundles: a NOP of one cycle only moves on (R120); HALT moves on and leaves the core halting, and it is HALTED once no result is in
flight (R120); REPEAT with a count of zero skips the bundle after it, with a larger one begins its iterations, and with one over 4096 is
REPEAT_COUNT (R141, R142). -/
def Obligations.Core_Control : Prop :=
  ∀ (s t : State) (k : Nat), s.power.running = true → k < 272 →
    (∀ u, coreBegin k s = (t, true) → (t.core k).nop = 0 → (t.core k).rep = none → fetch t k (t.core k).pc = (u, .ctl (.nop 1)) →
      Machine.exec (.ctlNop k) s = .next (coreNext k 4 none (u.setCore k { u.core k with nop := 0 }))) ∧
    (∀ u, coreBegin k s = (t, true) → (t.core k).nop = 0 → (t.core k).rep = none → fetch t k (t.core k).pc = (u, .ctl .halt) →
      (t.core k).branch = none →
      let v := coreNext k 4 none u
      Machine.exec (.halt k) s = .next (v.setCore k { v.core k with halting := true })) ∧
    ((s.core k).halting = true → (s.core k).st = .running → (s.core k).flight = [] → (s.core k).cmd = none →
      Machine.exec (.haltComplete k) s = .next (s.setCore k { s.core k with st := .halted, halting := false, stall := false, why := 0, cmd := none })) ∧
    (∀ late u v intr reg count ms len, coreBegin k s = (t, true) → (s.core k).rep = none → (t.core k).nop = 0 →
      fetch t k (t.core k).pc = (u, .ctl (.rep intr reg count)) → (u.core k).branch = none →
      fetch u k ((u.core k).pc + 4) = (v, .moves ms len) → repeatable intr (.moves ms len) = true →
      let n := match reg with | some g => tget 0 (u.core k).ports g | none => count
      (n = 0 → Machine.exec (.repeatCtl k late) s = .next (coreNext k (4 + len) none v)) ∧
      (0 < n → n ≤ 4096 → Machine.exec (.repeatCtl k late) s = .next (repeatRun k late 4096 (v.setCore k
        { u.core k with rep := some ⟨(u.core k).pc + 4, (u.core k).pc + 4 + len, n, 0, intr⟩ }))) ∧
      (4096 < n → Machine.exec (.repeatCtl k late) s = .next (takeExc k ⟨0x0C, 0, 0, n⟩ (u.core k).pc false v)))

/-- Results and exceptions of bead cores: a result that is due shows on its port (R137); late data of a lode that may answer end the stall they caused (R138); a delayed
UNCORRECTABLE is taken once it is due (R146); an exception leaves the core FAULTED with nothing in flight, its ports as they are, its code
kept, EXC_PC, EXC_INFO and EXC_ADDR naming it, and ERR.EXC set (R145, R147). -/
def Obligations.Core_Results : Prop :=
  ∀ (s : State) (k : Nat), s.power.running = true → k < 272 →
    (∀ f p v, (s.core k).st = .running → (s.core k).flight = [f] → f.due ≤ (s.core k).cyc → f.late = false → f.ue = none → f.outs = [(p, v)] →
      ∃ t, Machine.exec (.unitResultVisible k) s = .next t ∧ (t.core k).flight = [] ∧
        ∀ q, tget 0 (t.core k).ports q = if q = p then v else tget 0 (s.core k).ports q) ∧
    (∀ f rest, (s.core k).flight = f :: rest → f.late = true → dataReady s f = true → (s.core k).why = 1 →
      Machine.exec (.loadDataArrival k) s = .next (s.setCore k { s.core k with flight := { f with late := false } :: rest, stall := false, why := 0 })) ∧
    (∀ e, (s.core k).st = .running → lateDue (s.core k) = false → ueDue (s.core k) = some e →
      Machine.exec (.delayedUncorrectable k) s = .next (takeExc k ⟨0x07, e.slot, e.port, e.addr⟩ e.pc true s)) ∧
    (∀ e pc delayed, coreOwner s k ≤ 16 →
      let t := takeExc k e pc delayed s
      (t.core k).st = .faulted ∧ (t.core k).flight = [] ∧ (t.core k).ports = (s.core k).ports ∧ (t.core k).exc = e.code ∧
      t.reg .bcExcPc k = pc % 2 ^ 16 ∧ t.reg .bcExcInfo k = (e.slot + (if delayed then 4 else 0) + 8 * e.port) % 2 ^ 32 ∧
      t.reg .bcExcAddr k = e.addr % 2 ^ 32 ∧ bit (t.reg .bcErr k) 0 = true)

/-- Starts, holds and loads of bead cores: BC[k].CTRL.START of the core's tenant starts a HALTED core at START_PC with CORE.CYC zero and its
ports as they were (R151); of another core it sets ERR.START_ILLEGAL; CLEAR makes a FAULTED core HALTED; HOLD asks for a hold (R143), which is
taken at the next boundary that qualifies; a write to the instruction memory of a core that is not HALTED or FAULTED sets ERR.IMEM_RUN and
stores nothing (R150). -/
def Obligations.Core_Run_Control : Prop :=
  ∀ (s : State) (k t : Nat) (val : Word), s.power.running = true → k < 272 → t < 16 → coreOwner s k = t + 1 →
    let u := s.setField .bcCtrl k 0 1 1 (bits val.toNat 1 1)
    (val.toNat % 8 = 1 → (s.core k).st = .halted →
      Machine.exec (.coreStart t k val) s = .next (holdsChanged (startCore k none u))) ∧
    (val.toNat % 8 = 1 → (s.core k).st ≠ .halted →
      Machine.exec (.coreStart t k val) s = .next (holdsChanged (u.orReg .bcErr k 0 2))) ∧
    (val.toNat % 8 = 4 → (s.core k).st = .faulted →
      Machine.exec (.coreClear t k val) s = .next (holdsChanged (u.setCore k { s.core k with st := .halted }))) ∧
    (val.toNat % 8 < 4 → bit val.toNat 0 = false → Machine.exec (.bcHoldWrite t k val) s = .next (holdsChanged u)) ∧
    (∀ cmd, let v := startCore k cmd s
      (v.core k).st = .running ∧ (v.core k).pc = s.reg .bcStartPc k % 2 ^ 16 ∧ (v.core k).cyc = 0 ∧ (v.core k).ports = (s.core k).ports) ∧
    ((s.core k).st = .running → (s.core k).halting = false → coreHold s k = true → holdPoint (s.core k) = true → ueDue (s.core k) = none →
      waitExpired s k = false → coreClocked s k = true → Machine.exec (.coreHoldTaken k) s = .next (holdCore k s)) ∧
    (∀ req off data, data ≠ [] → off + data.length ≤ 0x10000 →
      let a := imemBase + k * 0x10000 + off
      (permits s req a data.length true = true →
        Machine.exec (.imemWrite req k off data) s = .next (imemWrites (cwSplit (data.length + 1) a data) s).1) ∧
      (permits s req a data.length true = false → Machine.exec (.imemWrite req k off data) s = .next (addrDenied req s))) ∧
    (∀ a bs rest, (a - imemBase) / 0x10000 = k → imemOpen s k = false → imemWrites ((a, bs) :: rest) s = (s.orReg .bcErr k 0 4, some .running))

/-- Firmware processors: a watchdog that has counted its period since its processor last restarted it, or a crash of a RUNNING control core or
of the command processor, captures its cause, raises a record, counts the restart and leaves it RESTARTING, that of a control core also
asks every unit of its lode to hold (R242 to R244); before its period a watchdog does nothing. A restart that ends makes the processor RUNNING with its
part of the image store, which is refilled first where it no longer holds the image (R243); a control core that has not recovered 500 ms
after its first crash is lost with the work of its lode (R244). -/
def Obligations.Firmware_Restarts : Prop :=
  ∀ (s : State) (p : Nat), s.power.running = true → p < 33 →
    (∀ cause t u v, (s.fwp p).st = .running → bit (s.reg .glbFwCause) 31 = false → cause ≤ 3 →
      t = raise 1 none (regAddr .glbFwCause 0 0 0) 0x8004 (leBytes 1 p ++ leBytes 1 cause) (s.setReg .glbFwCause 0 0 (p + cause * 64 + 2 ^ 31)) →
      u = countRestart p (t.setFw p { s.fwp p with st := .restarting, first := s.tb.ticks }) → v = (if p < 32 then holdsChanged u else u) →
      (∀ kicked, cause = 0 → wdExpired s ⟨p, kicked⟩ = true → Machine.exec (.watchdogExpiry ⟨p, kicked⟩) s = .next v) ∧
      (0 < cause → Machine.exec (.fwCrash p cause) s = .next v)) ∧
    (∀ kicked, (s.fwp p).wd ≤ kicked → kicked + wdPeriod p ≤ s.tb.ticks → wdExpired s ⟨p, kicked⟩ = true) ∧
    (∀ kicked, s.tb.ticks < kicked + wdPeriod p → Machine.exec (.watchdogExpiry ⟨p, kicked⟩) s = .next s) ∧
    ((s.fwp p).st = .restarting →
      (let t := s.setFw p { wd := s.tb.ticks, sram := Config.fwPart s.sec.store p }
       Machine.exec (.fwRestartDone ⟨p, false⟩) s = .next (if p < 32 then holdsChanged t else t)) ∧
      (∀ u, refillStore s = some u → let t := u.setFw p { wd := s.tb.ticks, sram := Config.fwPart u.sec.store p }
        Machine.exec (.fwRestartDone ⟨p, true⟩) s = .next (if p < 32 then holdsChanged t else t)) ∧
      (refillStore s = none → Machine.exec (.fwRestartDone ⟨p, true⟩) s = .next s)) ∧
    (∀ bad, (s.fwp p).st = .running → Machine.exec (.fwRestartDone ⟨p, bad⟩) s = .next s) ∧
    (p < 32 → (s.fwp p).st = .restarting → (s.fwp p).first + 500 * msTicks ≤ s.tb.ticks → groupOf s p = none →
      Machine.exec (.controlCoreNotRecovered p) s = .next (loseLode p (s.setFw p { s.fwp p with st := .lost }))) ∧
    (p < 32 → (s.fwp p).st = .restarting → s.tb.ticks < (s.fwp p).first + 500 * msTicks → Machine.exec (.controlCoreNotRecovered p) s = .next s)

/-- Strict mode (R269): a tenant's write of TEL.DET[t].CTRL gives STRICT while STRICT_LOCK is clear and changes nothing while it is set; a
management function sets STRICT_LOCK; neither clears it, and another tenant's write has no effect. -/
def Obligations.Strict_Mode : Prop :=
  ∀ (s : State) (t : Nat) (val : Word), s.power.running = true → t < 16 →
    (bit (s.reg .detCtrl 0 t) 1 = false →
      Machine.exec (.strictWrite t t val) s = .next (s.setField .detCtrl 0 t 0 0 (bits val.toNat 0 0))) ∧
    (bit (s.reg .detCtrl 0 t) 1 = true →
      Machine.exec (.strictWrite t t val) s = .next s ∧ Machine.exec (.strictLockWrite t t val) s = .next s) ∧
    (∀ m, m = 16 ∨ m = 17 → bit (s.reg .detCtrl 0 t) 1 = false → bit val.toNat 1 = true →
      ∃ u, Machine.exec (.strictLockWrite m t val) s = .next u ∧ bit (u.reg .detCtrl 0 t) 1 = true ∧
        bit (u.reg .detCtrl 0 t) 0 = bit val.toNat 0) ∧
    (∀ o, o < 16 → o ≠ t → Machine.exec (.strictWrite o t val) s = .next s ∧ Machine.exec (.strictLockWrite o t val) s = .next s)

/-- Loads and writes of the time base (R30, R33, R478, R480): the load of a TB_SYNCIN edge and a step by TB.STEP give the counter its value and
mark late, with LATE_FIRE, the armed events whose target the counter passes, strictly below the value that it takes, and an event whose target
it reaches fires at the next tick at the earliest; backward with an event armed or a gate list running, or below zero, they are refused with BACK_REFUSED; a step
in the tick of a load is lost with STEP_LOST; a load clears ARMED.
TB.ADJ takes the rate clamped to -65 to 65; TB.STEP's lower half is kept and its upper half steps the counter; TB_ADJ sets the rate and TB_SYNC_ARM arms
the load by command. With the servo ON the writes have no effect and the commands answer STATE_CONFLICT. -/
def Obligations.TimeBase_Writes : Prop :=
  ∀ (s : State) (val : Word) (id : Nat) (c : Cmd) (passed : Nat → ArmedEv → Bool) (moved : Nat → ArmedEv → ArmedEv), s.power.running = true →
    passed = (fun v e => decide (s.tb.master.toNat < v) && decide (e.target * 2 ^ 16 < v)) →
    moved = (fun v e => { e with
      late := e.late || passed v e
      start := if s.tb.master.toNat < e.target * 2 ^ 16 ∧ e.target * 2 ^ 16 ≤ v then s.tb.ticks + 1 else e.start }) →
    (∀ v d, v = s.reg .tbSyncLoad * 2 ^ 16 → s.tb.edge = some d → d ≤ s.tb.ticks →
      (v < s.tb.master.toNat → tbHeld s = true → ∃ u, Machine.exec .tbSyncinLoad s = .next u ∧ u.tb = { s.tb with edge := none, loadTick := some s.tb.ticks } ∧
        bit (u.reg .tbSts) 3 = true ∧ bit (u.reg .tbSts) 0 = false) ∧
      (s.tb.master.toNat ≤ v ∨ tbHeld s = false → ∃ u, Machine.exec .tbSyncinLoad s = .next u ∧ u.tb.master = BitVec.ofNat 80 v ∧
        u.tb.armed = s.tb.armed.map (moved v) ∧ u.tb.edge = none ∧
        bit (u.reg .tbSts) 2 = (bit (s.reg .tbSts) 2 || s.tb.armed.any (passed v)) ∧ bit (u.reg .tbSts) 0 = false ∧ bit (u.reg .tbSts) 1 = true)) ∧
    (servoOn s = false →
      Machine.exec (.tbAdjWrite 16 val) s = .next (s.setReg .tbAdj 0 0 (wrapInt 8 (clampInt (-65) 65 (sext 8 val.toNat)))) ∧
      Machine.exec (.tbStep 16 false val) s = .next { s with tb := { s.tb with stepLow := val } } ∧
      (loadHere s = false → (s.tb.master.toNat : Int) + tbStepWord val s.tb.stepLow < 0 → Machine.exec (.tbStep 16 true val) s = .next (s.orReg .tbSts 0 0 8)) ∧
      (∀ v : Nat, loadHere s = false → (s.tb.master.toNat : Int) + tbStepWord val s.tb.stepLow = v → v < 2 ^ 80 →
        (v < s.tb.master.toNat → tbHeld s = true → Machine.exec (.tbStep 16 true val) s = .next (s.orReg .tbSts 0 0 8)) ∧
        (s.tb.master.toNat ≤ v ∨ tbHeld s = false → ∃ u, Machine.exec (.tbStep 16 true val) s = .next u ∧ u.tb.master = BitVec.ofNat 80 v ∧
          u.tb.armed = s.tb.armed.map (moved v) ∧
          bit (u.reg .tbSts) 2 = (bit (s.reg .tbSts) 2 || s.tb.armed.any (passed v)) ∧
          (s.tb.armed = [] → u = { s with tb := { s.tb with master := BitVec.ofNat 80 v } }))) ∧
      (loadHere s = true → Machine.exec (.tbStep 16 true val) s = .next (s.orReg .tbSts 0 0 16)) ∧
      (Ready s .tbAdj id c →
        Machine.exec (.tbAdj id) s = .next (finish0 id 0x0000 (s.setReg .tbAdj 0 0 (wrapInt 8 (clampInt (-65) 65 (sext 16 (c.p 0))))))) ∧
      (Ready s .tbSyncArm id c → let u := (s.setReg .tbSyncLoad 0 0 (c.p 0)).orReg .tbSts 0 0 1
        Machine.exec (.tbSyncArm id) s = .next (finish0 id 0x0000 { u with tb := { s.tb with edge := none, armTick := s.tb.ticks } }))) ∧
    (servoOn s = true →
      Machine.exec (.tbAdjWrite 16 val) s = .next s ∧ Machine.exec (.tbStep 16 true val) s = .next s ∧
      (Ready s .tbAdj id c → Machine.exec (.tbAdj id) s = .next (finish id 0x0201 0x17 1 0 0 s)) ∧
      (Ready s .tbSyncArm id c → Machine.exec (.tbSyncArm id) s = .next (finish id 0x0201 0x17 1 0 0 s)))

/-- Events of the time base (R32, R175, R478, R480): the armed event with the least target that is reached fires in the first tick in which it may: a group's start is
marked, a TIMED command is released, a gate list takes effect; an edge of TB_SYNCIN while armed loads SYNC_LOAD two ticks later, clears ARMED and sets DONE; a Sync
message of two steps from the servo's sender is kept until its Follow_Up. -/
def Obligations.TimeBase_Events : Prop :=
  ∀ (s : State), s.power.running = true →
    (∀ e g, leastEvent (s.tb.armed.filter fun e => e.due s) = some e → e.owner = .lock g →
      let t : State := { s with tb := { s.tb with armed := s.tb.armed.erase e } }
      Machine.exec .tbEventFire s = .next (t.setGrp g { s.grp g with fired := some s.tb.ticks, late := (s.grp g).late || e.late })) ∧
    (∀ e id, leastEvent (s.tb.armed.filter fun e => e.due s) = some e → e.owner = .timed id →
      Machine.exec .tbEventFire s = .next (release id e.late { s with tb := { s.tb with armed := s.tb.armed.erase e } })) ∧
    (∀ e m, leastEvent (s.tb.armed.filter fun e => e.due s) = some e → e.owner = .gate m →
      Machine.exec .tbEventFire s = .next (gateTakes m e.late { s with tb := { s.tb with armed := s.tb.armed.erase e } })) ∧
    ((∀ e, e ∈ s.tb.armed → s.now < e.target ∨ s.tb.ticks < e.start) → Machine.exec .tbEventFire s = .next s) ∧
    (bit (s.reg .tbSts) 0 = true → s.tb.edge = none → s.tb.ticks ≠ s.tb.armTick →
      Machine.exec .tbSyncinEdge s = .next { s with tb := { s.tb with edge := some (s.tb.ticks + 2) } }) ∧
    (∀ d, s.tb.edge = some d → d ≤ s.tb.ticks → tbHeld s = false →
      ∃ t, Machine.exec .tbSyncinLoad s = .next t ∧ t.tb.master = BitVec.ofNat 80 (s.reg .tbSyncLoad * 2 ^ 16) ∧ t.tb.edge = none ∧
        bit (t.reg .tbSts) 0 = false ∧ bit (t.reg .tbSts) 1 = true) ∧
    (∀ p rest q due, s.net.ptp = p :: rest →
      let b := p.bytes.drop (if (parse p.bytes).etype = 0x88F7 then (parse p.bytes).l3 else (parse p.bytes).p.getD 0)
      servoOn s = true → p.mac = bits (s.reg .tbCtrl) 5 1 → fld b 1 1 % 16 = 2 → fld b 4 1 = bits (s.reg .tbCtrl) 13 6 →
      s.tb.servo.best = some (q, slice b 20 10, due) → s.tb.ticks < due → fld b 0 1 % 16 = 0 → bit (fld b 6 1) 1 = true →
      Machine.exec .ptpMessage s = .next { s with net := { s.net with ptp := rest }, tb := { s.tb with servo := { s.tb.servo with
        sync := some (beNat (slice b 30 2), ((p.time * 2 ^ 16 : Nat) : Int) - ptpCorr b) } } })

/-- The arithmetic of a dot product (R56, R57, R58, R60, R63): a grain sum is the exact sum of its products; a term is the grain sum rounded to the
nearest multiple of 2^a, a tie to the even one, alike for both signs, and it is marked where bits were discarded; a tally adds each term
exactly while the result lies from -2^127 to 2^127 - 1, and its value is T × 2^a; beyond that it holds the nearest end, sets SAT, and stays.
So while no sum leaves the range, the tally, its tag and the counts are the same in every order of the grains, and a sum divided at grain
boundaries and continued from the partial tally is the whole sum. -/
def Obligations.Tally_Sums : Prop :=
  ∀ (a : Int) (t : Tally) (w : List El × List El → Int) (run : Tally → List (List El × List El) → Dot), w = (fun p => (term (grainSum p.1 p.2).1 a).1) →
    run = (fun t ps => ps.foldl (fun d p => dotStep a d p.1 p.2) { t := t }) →
    (∀ (l : List ((Int × Int) × (Int × Int))) (k : Int), (∀ q ∈ l, k ≤ q.1.2 + q.2.2) →
      ∃ m e, grainSum (l.map fun q => .fin q.1.1 q.1.2) (l.map fun q => .fin q.2.1 q.2.2) = ((m, e), 0) ∧ (m = 0 ∨ k ≤ e) ∧
        m * 2 ^ (e - k).toNat = (l.map fun q => q.1.1 * q.2.1 * 2 ^ (q.1.2 + q.2.2 - k).toNat).sum) ∧
    (∀ (m e : Int), (a ≤ e → term (m, e) a = (m * 2 ^ (e - a).toNat, false)) ∧
      (e < a → ∃ n, n = (term (m, e) a).1 ∧ 2 * (n * 2 ^ (a - e).toNat - m).natAbs ≤ 2 ^ (a - e).toNat ∧
        (2 * (n * 2 ^ (a - e).toNat - m).natAbs = 2 ^ (a - e).toNat → n % 2 = 0) ∧ term (-m, e) a = (-n, (term (m, e) a).2) ∧
        ((term (m, e) a).2 = true ↔ n * 2 ^ (a - e).toNat ≠ m))) ∧
    (∀ x : Int, t.tag.getLsbD 3 = false →
      (-2 ^ 127 ≤ t.v.toInt + x → t.v.toInt + x ≤ 2 ^ 127 - 1 → (t.add x).v.toInt = t.v.toInt + x ∧ (t.add x).tag = t.tag) ∧
      (2 ^ 127 ≤ t.v.toInt + x → (t.add x).v.toInt = 2 ^ 127 - 1 ∧ (t.add x).tag = t.tag ||| 8) ∧
      (t.v.toInt + x < -2 ^ 127 → (t.add x).v.toInt = -2 ^ 127 ∧ (t.add x).tag = t.tag ||| 8)) ∧
    (∀ x : Int, t.tag.getLsbD 3 = true → t.add x = t) ∧
    (t.tag &&& 7 = 0 → t.el a = .fin t.v.toInt a) ∧
    (∀ ps qs : List (List El × List El), qs.Perm ps → t.tag.getLsbD 3 = false →
      (∀ n, -2 ^ 127 ≤ t.v.toInt + ((ps.map w).take n).sum ∧ t.v.toInt + ((ps.map w).take n).sum ≤ 2 ^ 127 - 1) →
      (∀ n, -2 ^ 127 ≤ t.v.toInt + ((qs.map w).take n).sum ∧ t.v.toInt + ((qs.map w).take n).sum ≤ 2 ^ 127 - 1) →
      run t qs = run t ps ∧
      (run t ps).t.v.toInt = t.v.toInt + (ps.map w).sum ∧
      (run t ps).sat = false) ∧
    (∀ ps qs : List (List El × List El),
      (run t (ps ++ qs)).t =
        (run (run t ps).t qs).t)

/-- Counter cycles (R222 to R227, R231): with no epoch outstanding and no waiter listed, a signal adds its value to its counter; a sum beyond
2^24 - 1 leaves that value with SAT set and sets SYNC.ERR bit 0; a saturated counter discards it; a waiter whose target the count has reached
passes at once, the target is subtracted and a notice leaves, another stays listed with its timeout begun; a notice ends a SYNC WAIT with OK;
a wait whose timeout expires leaves the list and its command ends with TIMEOUT. -/
def Obligations.Counter_Cycles : Prop :=
  ∀ (s : State) (p : Nat), s.power.running = true → p < 17408 →
    (∀ a v t, s.sync.epochs = [] → (s.ctr p).waiters = [] → s.sync.flight = [⟨a, p, v, none⟩] → t = { s with sync := { s.sync with flight := [] } } →
      ((s.ctr p).sat = false → (s.ctr p).count.toNat + v ≤ 0xFFFFFF →
        Machine.exec (.signalArrival p [a]) s = .next (t.setCtr p { s.ctr p with count := BitVec.ofNat 24 ((s.ctr p).count.toNat + v) })) ∧
      ((s.ctr p).sat = false → 0xFFFFFF < (s.ctr p).count.toNat + v → ctrOwner s p ≤ 16 →
        ∃ u, Machine.exec (.signalArrival p [a]) s = .next u ∧ u.ctr p = { count := 0xFFFFFF, sat := true } ∧ bit (u.reg .syncErr) 0 = true) ∧
      ((s.ctr p).sat = true → Machine.exec (.signalArrival p [a]) s = .next t)) ∧
    (∀ w t, s.sync.epochs = [] → (s.ctr p).waiters = [] → s.sync.joining = [(p, w)] → 272 ≤ w.src → w.any = none →
      t = { s with sync := { s.sync with joining := [] } } →
      ((s.ctr p).sat = false → w.target ≤ (s.ctr p).count.toNat →
        ∃ u, Machine.exec (.waiterJoin p [w.src]) s = .next u ∧ u.ctr p = { s.ctr p with count := (s.ctr p).count - BitVec.ofNat 24 w.target } ∧
          u.sync.notices = s.sync.notices ++ [⟨w.src, 0, p, w.tag⟩]) ∧
      ((s.ctr p).count.toNat < w.target → Machine.exec (.waiterJoin p [w.src]) s =
        .next (t.setCtr p { s.ctr p with waiters := [{ w with deadline := deadlineOf s w.tmo }] }))) ∧
    (∀ i n id, s.sync.notices[i]? = some n → n.src = 0x200 → n.tag = some id →
      Machine.exec (.passNotice i) s = .next (finish0 id 0x0000 { s with sync := { s.sync with notices := s.sync.notices.eraseIdx i } })) ∧
    (∀ i w d id, (s.ctr p).waiters[i]? = some w → w.deadline = some d → d ≤ s.tb.ticks → w.any = none → 272 ≤ w.src → w.tag = some id →
      Machine.exec (.waitTimeout p i) s = .next (finish id 0x0302 w.ident p (s.ctr p).count.toNat 0 (withdraw w.src w.tag
        (raise 1 (if w.tenant = 0xFF then none else some w.tenant) (regAddr .syncErr 0 0 0) 0x0302 (timeoutBody s 2 w (cmdUnit s id) p) (s.orReg .syncErr 0 0 2))))) ∧
    (∀ i w, (s.ctr p).waiters[i]? = some w → expired s w.deadline = false → Machine.exec (.waitTimeout p i) s = .next s)

/-- SYNC commands (R213, R228, R230, R233): SYNC SIGNAL sends its signal to its counter and waits until that is taken; SYNC WAIT joins the
counter's list; SYNC READ answers the count; SYNC SET of a counter that nothing waits on replaces the count, clears SAT and tests; SYNC
EPOCH keeps its record, which re-bases once every count has reached its BASE, each BASE subtracted and SYNC.EPOCH written, or ends with
TIMEOUT. An identifier that does not translate is ACCESS_DENIED. -/
def Obligations.Sync_Commands : Prop :=
  ∀ (s : State) (id : Nat) (c : Cmd) (p : Nat),
    (translateFor s (c.fn + 1) (fnBind s c.fn) (c.p 0) = .phys p →
      (Ready s .syncSignal id c → Machine.exec (.syncSignal id) s =
        .next (working id { s with sync := { s.sync with flight := s.sync.flight ++ [⟨0x200, p, c.p 1, some id⟩] } })) ∧
      (∀ w, Ready s .syncWait id c → waitsOut s < 1024 →
        w = ⟨0x200, c.p 1, none, c.p 0, if bit (c.p 0) 23 then (fnBind s c.fn).getD 0xFFFF else 0xFFFF,
          tmoOf s c.fn (fnBind s c.fn) (c.p 0) (c.p 2), c.fn, none, some id⟩ →
        Machine.exec (.syncWait id) s = .next (working id { s with sync := { s.sync with joining := s.sync.joining ++ [(p, w)] } })) ∧
      (Ready s .syncWait id c → 1024 ≤ waitsOut s → Machine.exec (.syncWait id) s = .next (finish0 id 0x0301 s)) ∧
      (Ready s .syncRead id c → Machine.exec (.syncRead id) s = .next (finish id 0x0000 (s.ctr p).count.toNat 0 0 0 s)) ∧
      (Ready s .syncSet id c → hasWaiter s p = false → s.sync.epochs = [] → Machine.exec (.syncSet id) s =
        .next ((finish0 id 0x0000 (s.setCtr p { s.ctr p with count := BitVec.ofNat 24 (c.p 1), sat := false })))) ∧
      (Ready s .syncSet id c → hasWaiter s p = true → Machine.exec (.syncSet id) s = .next (finish id 0x0201 (0x08 + p * 256) 1 0 0 s))) ∧
    (translateFor s (c.fn + 1) (fnBind s c.fn) (c.p 0) = .none → Ready s .syncRead id c →
      Machine.exec (.syncRead id) s = .next (finish id 0x0501 16 0 0 0 s)) ∧
    (∀ t b es, Ready s .syncEpoch id c → readMem s (c.p 0) (16 + 8 * leNat (memBytes s (c.p 0 + 4) 2)) = (t, .ok b) →
      epochEntries t c.fn b = .ok es → (es.filter fun e => (t.ctr e.1).sat) = [] →
      Machine.exec (.syncEpoch id) s = .next (working id { t with sync := { t.sync with
        epochs := t.sync.epochs ++ [⟨id, c.fn, fld b 0 4, es, deadlineOf t (epochTmo t c.fn (fld b 8 4)), 0⟩] } })) ∧
    (∀ e q b, s.power.running = true → (s.sync.epochs.find? fun e => e.id == id) = some e → e.entries = [(q, b)] → (s.ctr q).waiters = [] →
      (epochMet s e = true → e.tenant < 16 →
        ∃ t, Machine.exec (.epochRebase id) s = .next t ∧ (t.ctr q).count = (s.ctr q).count - BitVec.ofNat 24 b ∧
          t.reg .syncEpoch 0 e.tenant = e.number % 2 ^ 32 ∧ (∀ d, findCmd s e.id = some d → Ended t e.id 0x0000 (e.number % 2 ^ 32) 0 (e.w2 % 2 ^ 32) 0)) ∧
      (epochMet s e = false → Machine.exec (.epochRebase id) s = .next s) ∧
      (epochMet s e = false → expired s e.deadline = true → (s.ctr q).count.toNat < b →
        Machine.exec (.epochTimeout id) s = .next (finish id 0x0302 0 (s.ctr q).count.toNat e.w2 0
          { s with sync := { s.sync with epochs := s.sync.epochs.filter fun x => x.id != id } })))

/-- Translation contexts (R235 to R237): VMAP of no entries frees its context; with entries it takes a run that no context holds, whose
entries stand in translation memory before the context names it; a binding register takes a context that no other tenant holds, that of a
core only while the core is HALTED or FAULTED, and SYNC.ERR bit 5 is set where it does not. -/
def Obligations.Sync_Contexts : Prop :=
  ∀ (s : State) (id : Nat) (c : Cmd) (k t : Nat) (val : Word),
    (Ready s .vmap id c → c.p 1 = 0 →
      Machine.exec (.vmap id) s = .next (finish0 id 0x0000 ((s.setReg .syncCtx 0 (c.p 0) 0).setReg .syncCtxLen 0 (c.p 0) 0))) ∧
    (∀ (b : Nat) (u : State) (d : Bytes), Ready s .vmap id c → c.p 1 ≠ 0 → findRun s (c.p 1) = some b → readMem s (c.p 2) (8 * c.p 1) = (u, .ok d) →
      ∃ v : State, Machine.exec (.vmap id) s = .next (finish0 id 0x0000 ((v.setReg .syncCtx 0 (c.p 0) (c.fn + 16 + b * 65536)).setReg .syncCtxLen 0 (c.p 0) (c.p 1))) ∧
        v.regs = u.regs ∧ ∀ e, tget 0 v.sync.xmem e = if b ≤ e ∧ e < b + c.p 1 then fld d (8 * (e - b)) 8 else tget 0 u.sync.xmem e) ∧
    (Ready s .vmap id c → c.p 1 ≠ 0 → findRun s (c.p 1) = none → Machine.exec (.vmap id) s = .next (finish0 id 0x0301 s)) ∧
    (s.power.running = true → t < 16 → k < 272 → coreOwner s k = t + 1 →
      (imemOpen s k = true → ctxForeign s (val.toNat % 256) t = false →
        Machine.exec (.coreCtxWrite t k val) s = .next (s.setReg .syncCoreCtx 0 k (val.toNat % 512))) ∧
      ((imemOpen s k = false ∨ ctxForeign s (val.toNat % 256) t = true) →
        Machine.exec (.coreCtxWrite t k val) s = .next (s.orReg .syncErr 0 0 0x20))) ∧
    (s.power.running = true → t < 16 →
      (ctxForeign s (val.toNat % 256) t = false → Machine.exec (.fnCtxWrite t t val) s = .next (s.setReg .syncFnCtx 0 t (val.toNat % 512))) ∧
      (ctxForeign s (val.toNat % 256) t = true → Machine.exec (.fnCtxWrite t t val) s = .next (s.orReg .syncErr 0 0 0x20)))

/-- Memory holds what was written (R298, R308): with no lane failed and over codewords without an error a store of any length and alignment puts
its bytes at their addresses and leaves every other byte as it was, and a read returns the bytes that stand there and changes nothing. -/
def Obligations.Memory_ReadBack : Prop :=
  (∀ (s : State) (a : Nat) (bs : Bytes), (∀ h, (s.memc h).dead = []) → (∀ cw, a / 32 ≤ cw → tget 0 s.bad cw = 0) →
    (writeMem s a bs).2 = none ∧
    ∀ k, tget 0 (writeMem s a bs).1.mem k = if a ≤ k ∧ k < a + bs.length then bs.getD (k - a) 0 else tget 0 s.mem k) ∧
  (∀ (s : State) (a n : Nat), (∀ h, (s.memc h).dead = []) → (∀ cw, a / 64 * 2 ≤ cw → tget 0 s.bad cw = 0) →
    readMem s a n = (s, .ok ((List.range n).map fun i => tget 0 s.mem (a + i))))

/-- Memory controllers (R298, R302 to R305, R310, R317): a read of a line of HBM or LPDDR5X that can be reached answers the line's 64 bytes, or
nothing where a codeword of it is uncorrectable, and a store within the line writes memory, each after the upsets that come with it; an access
that must wait wakes the memory and has no other effect; a refresh slot that is due opens for 350 ns, 280 ns in a module, counts, and sets
the next, 3.9 µs on, or 1.95 µs while the stack is hot; a recalibration that is due inside its slot counts, and one that fails sets ERR bit 6;
the scrubber reads the codeword that is due and goes on; a temperature report sets STS bit 2; INJECT is armed from world S only. By how
much a recalibration lengthens its slot, up to 1.2 µs, is left open. -/
def Obligations.Memory_Control : Prop :=
  ∀ (s : State) (c ch : Nat), s.power.running = true → c < 12 → ch < 32 →
    (∀ a ups, let t := upsetLine (a / 64) ups s
      (place s a).1 = .hbm ∨ (place s a).1 = .lpx →
      (memWaits t a 1 = false →
        (∀ u b, readMem t (a / 64 * 64) 64 = (u, .ok b) → Machine.exec (.memoryAccess ⟨a, ups⟩ []) s = .next { u with resp := some (leNat b) }) ∧
        (∀ u e, readMem t (a / 64 * 64) 64 = (u, .error e) → Machine.exec (.memoryAccess ⟨a, ups⟩ []) s = .next { u with resp := none }) ∧
        (∀ bs, bs ≠ [] → a % 64 + bs.length ≤ 64 → Machine.exec (.memoryAccess ⟨a, ups⟩ bs) s = .next (writeMem t a bs).1)) ∧
      (∀ bs, memWaits t a 1 = true → a % 64 + bs.length ≤ 64 → Machine.exec (.memoryAccess ⟨a, ups⟩ bs) s = .next (wakeAt a t))) ∧
    (∀ t, slotOpens s c ch = true →
      t = s.setMemc c { s.memc c with
        due := tput 0 (s.memc c).due ch (s.tb.ticks + if bit (s.reg .memSts c) 2 then 1950 else 3900)
        slot := tput 0 ((s.memc c).slot.filter fun e => decide (s.tb.ticks < e.2)) ch (s.tb.ticks + if c < 8 then 350 else 280)
        long := (s.memc c).long.filter (· != ch) } →
      Machine.exec (.refreshSlot c ch) s = .next ((t.count .memRefresh c 0 1).countTv (if c < 8 then 0 else 2) 1)) ∧
    (slotOpens s c ch = false → Machine.exec (.refreshSlot c ch) s = .next s) ∧
    (∀ low failed t u, recalOpens s c ch low = true →
      t = (draw s).2.setMemc c { s.memc c with
        recal := tput 0 (s.memc c).recal ch (s.tb.ticks + s.reg .memRecal c * msTicks)
        slot := tput 0 (s.memc c).slot ch (max s.tb.ticks (tget 0 (s.memc c).slot ch) + Config.free s.fresh % 1201)
        long := ch :: (s.memc c).long } →
      u = (t.count .memRecalCount c 0 1).countTv (if c < 8 then 1 else 2) 1 →
      let v := if failed = true ∧ c < 8 then laneFails c ch u else u
      Machine.exec (.recalibration c ch low failed true) s = .next v ∧
      Machine.exec (.recalibration c ch low failed false) s = .next (stickyRec 0 none 0 .memErr c 0 0x40 v)) ∧
    (∀ low failed ok, recalOpens s c ch low = false → Machine.exec (.recalibration c ch low failed ok) s = .next s) ∧
    (∀ t, let a := scrubAddr s c (s.memc c).scrub
      ctlOn s c = true → bit (s.reg .memScrub c) 0 = true → (s.memc c).scrubAt ≤ s.tb.ticks → slotWaits s a 1 = false →
      t = s.setMemc c { s.memc c with scrub := ((s.memc c).scrub + 1) % scrubLen c, scrubAt := (s.memc c).scrubAt + scrubStep s c } →
      Machine.exec (.memoryScrubRead c) s = .next (cwReadAs 8 t (a / 32)).1 ∧
      (damage t (a / 32) = 0 → (cwReadAs 8 t (a / 32)).1 = t) ∧
      (damage t (a / 32) = 2 → (cwReadAs 8 t (a / 32)).1 = uncorrectable t (a / 32) 8)) ∧
    (s.tb.ticks < (s.memc c).scrubAt → Machine.exec (.memoryScrubRead c) s = .next s) ∧
    (∀ hot, c < 8 → Machine.exec (.stackTemperatureReport c hot) s = .next (s.setField .memSts c 0 2 2 (if hot then 1 else 0))) ∧
    (∀ who (val : Word), who < 19 →
      (who = 18 → Machine.exec (.injectArm who c val) s =
        .next (s.setReg .memInject c 0 ((s.reg .memInject c % 2 ||| val.toNat % 2) + bits val.toNat 7 1 * 2))) ∧
      (who ≠ 18 → Machine.exec (.injectArm who c val) s = .next s))

/-- Modes and owners change over zeroed memory (R297, R311): a new SEG_MODE of a segment that is all world S starts its fill, any other
write of it is refused and sets HBM.GERR bit 0; a fill that ends leaves the segment, or the block, reading zero and nothing outside it
changed, and the mode, or the owner, takes effect. -/
def Obligations.Memory_Fills : Prop :=
  ∀ (s : State) (g : Nat), s.power.running = true → g < 64 →
    (∀ val : Word, segInS s g = true → val.toNat % 4 ≠ 3 → tget 0 s.own.segFill g = 0 → val.toNat % 4 ≠ s.reg .segMode 0 g % 4 →
      Machine.exec (.segModeWrite 18 g val) s = .next { s with own := { s.own with segFill := tput 0 s.own.segFill g (val.toNat % 4 + 1) } }) ∧
    (∀ who (val : Word), who < 19 → (who ≠ 18 ∨ segInS s g = false) → Machine.exec (.segModeWrite who g val) s = .next (s.orReg .hbmGerr 0 0 1)) ∧
    (∀ m, tget 0 s.own.segFill g = m + 1 →
      ∃ t, Machine.exec (.segmentFillDone g) s = .next t ∧ t.reg .segMode 0 g = m % 2 ^ 32 ∧ tget 0 t.own.segFill g = 0 ∧
        ∀ a, tget 0 t.mem a = if g * 2 ^ 33 ≤ a ∧ a < g * 2 ^ 33 + 2 ^ 33 then 0 else tget 0 s.mem a) ∧
    (∀ b o, tget 0 s.own.fills b = o + 1 →
      ∃ t, Machine.exec (.blockZeroFillDone b) s = .next t ∧ tget 0 t.own.blocks b = o ∧ tget 0 t.own.fills b = 0 ∧
        ∀ a, tget 0 t.mem a = if b * 2 ^ 21 ≤ a ∧ a < b * 2 ^ 21 + 2 ^ 21 then 0 else tget 0 s.mem a)

/-- Regions and entropy (R312 to R314, R395, R448): REGION_CREATE of a legal range the tenant owns takes an ABSENT entry and its reply is
the entry's key, whose low 13 bits name the entry, and GEN; REGION_REVOKE of the tenant's ACTIVE entry makes it DRAINING; a drain with nothing
left makes it ABSENT, GEN one on, and the revoke replies; SHARE is written from world S; with the entropy source failed a REGION_CREATE waits,
at most 10 ms, until start-up tests pass. Which ABSENT entry is taken is the model's choice, the lowest. -/
def Obligations.Regions : Prop :=
  ∀ (s : State) (id : Nat) (c : Cmd) (e : Nat),
    (Ready s .regionCreate id c → regionBad s (c.p 0) (c.p 1) (c.p 2) (c.p 3) = none → rangeOwned s c.fn (c.p 0) (c.p 1) = true →
      ownerUe s (c.p 0) (c.p 1) = false → regionTouch s (c.p 0) (c.p 1) = none → freeEntry s = some e →
      (s.sec.rngFail = false → ∃ key, key % 8192 = e ∧ key < 2 ^ 32 ∧ Machine.exec (.regionCreate id) s = .next (finish id 0x0000 key (s.region e).gen 0 0
        (State.setRegion { s with fresh := s.fresh + 1, own := { s.own with tableBad := tdel s.own.tableBad e } } e { base := c.p 0, bytes := c.p 1, key := key, gen := (s.region e).gen, rights := c.p 2, ilv := c.p 3, st := 1, tenant := c.fn, world := true }))) ∧
      (s.sec.rngFail = true → Machine.exec (.regionCreate id) s =
        .next (working id { s with sec := { s.sec with rngWait := s.sec.rngWait ++ [(id, s.tb.ticks + 10 * msTicks)] } }))) ∧
    (Ready s .regionRevoke id c → e = c.p 0 % 8192 → (s.region e).st = 1 → (s.region e).key = c.p 0 → (s.region e).tenant = c.fn →
      Machine.exec (.regionRevoke id) s = .next (working id (s.setRegion e { s.region e with st := 2, cmd := some id }))) ∧
    (Ready s .regionRevoke id c → e = c.p 0 % 8192 → (s.region e).key ≠ c.p 0 →
      Machine.exec (.regionRevoke id) s = .next (finish id 0x0201 (0x07 + e * 256) 0 0 0 s)) ∧
    (s.power.running = true → e < 8192 →
      (∀ id, (s.region e).st = 2 → (s.region e).uses = 0 → regionBusy s (s.region e) = false → (s.region e).cmd = some id →
        Machine.exec (.regionDrainEnd e) s = .next (finish0 id 0x0000 (State.setRegion { s with own := { s.own with tableBad := tdel s.own.tableBad e } } e { gen := ((s.region e).gen + 1) % 256 }))) ∧
      ((s.region e).st ≠ 2 → Machine.exec (.regionDrainEnd e) s = .next s) ∧
      ((s.region e).uses ≠ 0 → Machine.exec (.regionDrainEnd e) s = .next s) ∧
      (∀ val : Word, (s.region e).st ≠ 0 →
        Machine.exec (.regionShareWrite 18 e val) s = .next (s.setRegion e { s.region e with share := bits val.toNat 31 16 })) ∧
      (∀ who (val : Word), who < 18 → Machine.exec (.regionShareWrite who e val) s = .next s) ∧
      Machine.exec .rngHealthFail s = .next (sticky none .glbSecSts 0 0 0x2000
        { s with sec := { s.sec with rngFail := true, rngSince := if s.sec.rngFail then s.sec.rngSince else s.tb.ticks } }) ∧
      (s.sec.rngFail = true → s.sec.rngWait = [] → Machine.exec .entropyStartUpTestsPass s = .next { s with sec := { s.sec with rngFail := false } }) ∧
      (∀ due, (s.sec.rngWait.find? fun e => e.1 == id) = some (id, due) →
        (due < s.tb.ticks → Machine.exec (.entropyWaitTimeout id) s =
          .next (finish0 id 0x0301 { s with sec := { s.sec with rngWait := s.sec.rngWait.filter fun e => e.1 != id } })) ∧
        (s.tb.ticks ≤ due → Machine.exec (.entropyWaitTimeout id) s = .next s)))

/-- COPY and FILL (R211): over ranges that the function may reach, COPY writes the bytes it reads to the destination and FILL the pattern, byte
by byte in little-endian order; a range that it may not reach is ACCESS_DENIED with the offset of the parameter, and a
write that stops at an uncorrectable codeword UNCORRECTABLE with the bytes before it. -/
def Obligations.Copy_And_Fill : Prop :=
  ∀ (s t u : State) (id : Nat) (c : Cmd),
    (Ready s .copy id c → rangeWaits s (c.p 0) (c.p 2) = false → rangeWaits s (c.p 1) (c.p 2) = false →
      (∀ bs, mayReach c.fn (c.p 0) (c.p 2) false 0x200 s = (true, s) → mayReach c.fn (c.p 1) (c.p 2) true 0x200 s = (true, s) →
        readPart s c.fn (c.p 0) (c.p 2) = (t, bs, none) → (overlaps (c.p 0) (c.p 2) (c.p 1) (c.p 2) = false ∨ c.p 0 = c.p 1) →
        Machine.exec (.copy id) s = .next (copyOut c (c.p 1) bs none { t with fresh := t.fresh + 1 })) ∧
      (mayReach c.fn (c.p 0) (c.p 2) false 0x200 s = (false, t) → tableUe t (tenReq c.fn 0x200) (c.p 0) (c.p 2) = false →
        Machine.exec (.copy id) s = .next (finish id 0x0501 16 0 0 0 t)) ∧
      (mayReach c.fn (c.p 0) (c.p 2) false 0x200 s = (true, s) → mayReach c.fn (c.p 1) (c.p 2) true 0x200 s = (false, t) →
        tableUe t (tenReq c.fn 0x200) (c.p 1) (c.p 2) = false → Machine.exec (.copy id) s = .next (finish id 0x0501 24 0 0 0 t))) ∧
    (Ready s .fill id c → rangeWaits s (c.p 0) (c.p 1) = false →
      (mayReach c.fn (c.p 0) (c.p 1) true 0x200 s = (true, s) → Machine.exec (.fill id) s =
        .next (copyOut c (c.p 0) ((List.range (c.p 1)).map fun i => (leBytes 4 (c.p 2)).getD (i % 4) 0) none s)) ∧
      (mayReach c.fn (c.p 0) (c.p 1) true 0x200 s = (false, t) → tableUe t (tenReq c.fn 0x200) (c.p 0) (c.p 1) = false →
        Machine.exec (.fill id) s = .next (finish id 0x0501 16 0 0 0 t))) ∧
    (∀ dst bs, isHost dst = false → devWrite dst bs s = (u, none) →
      copyOut c dst bs none s = finish c.id 0x0000 (bs.length % 2 ^ 32) (bs.length / 2 ^ 32) 0 0 u) ∧
    (∀ dst bs e, isHost dst = false → devWrite dst bs s = (u, some (.ue e)) →
      copyOut c dst bs none s = finish c.id 0x0401 ((e - dst) % 2 ^ 32) ((e - dst) / 2 ^ 32) 0 0 u)

/-- Commands of the security core (R441, R444, R452, R454, R456, R457, R465): a command whose token proves its authority spends the token before
it acts, and an ASSIGN whose token does not adds 1 to GLB.TOKEN_FAIL and ends with AUTH_FAILED; ASSIGN gives what it names to its new world and
tenant and extends M6, or answers STATE_CONFLICT with the object in its way; KEY_LOAD fills an EMPTY slot with the unwrapped key; KEY_ERASE
empties a slot; ATTEST writes the report and its signature, and waits while the entropy source has failed; DEBUG_UNLOCK empties every slot,
extends M7 and opens JTAG, and again has no further effect. The security core runs. -/
def Obligations.Security_Commands : Prop :=
  ∀ (s t u : State) (id : Nat) (c : Cmd) (b : Bytes), (s.fwp 34).st = .running →
    (∀ a : Assignment, Ready s .assign id c → a = ⟨c.p 0, c.p 1, c.p 2, c.p 3, fld b 104 4, fld b 108 4⟩ →
      hostRead s c.fn (c.p 4) 4811 = (t, .ok b) → tokenOk t c .assign 4 (c.p 0 == 3) b = true → u = t.setReg .glbTokenSeq 0 0 (fld b 32 8) →
      (assignNo u a = none → Machine.exec (.assign id) s = .next (finish0 id 0x0000 (extend 6 (assignDigest a (slice b 104 64)) (assign a u)))) ∧
      (∀ ty i code, assignNo u a = some (.conflict ty i code) → Machine.exec (.assign id) s = .next (finish id 0x0201 (ty + i * 256) code 0 0 u)) ∧
      (assignNo u a = some .denied → Machine.exec (.assign id) s = .next (finish0 id 0x0501 u)) ∧
      (a.kind = 4 → assign a u = u.setField .hifTenPort 0 0 a.tenant a.tenant a.index) ∧
      (a.kind = 5 → assign a u = { u with own := { u.own with devs := tput 0 u.own.devs a.index a.world } })) ∧
    (Ready s .assign id c → hostRead s c.fn (c.p 4) 4811 = (t, .ok b) → tokenOk t c .assign 4 (c.p 0 == 3) b = false →
      Machine.exec (.assign id) s = .next (finish0 id 0x0502 (t.count .glbTokenFail 0 0 1))) ∧
    (∀ k, Ready s .keyLoad id c → (tget {} s.keys (c.p 0)).mode = 0 → hostRead s c.fn (c.p 1) 128 = (t, .ok b) → unwrapKey t (c.p 0) b = some k →
      Machine.exec (.keyLoad id) s = .next (finish0 id 0x0000 { t with keys := tput {} t.keys (c.p 0) k })) ∧
    (Ready s .keyLoad id c → (tget {} s.keys (c.p 0)).mode ≠ 0 →
      Machine.exec (.keyLoad id) s = .next (finish id 0x0201 (0x11 + c.p 0 * 256) 1 0 0 s)) ∧
    (Ready s .keyLoad id c → (tget {} s.keys (c.p 0)).mode = 0 → hostRead s c.fn (c.p 1) 128 = (t, .ok b) → unwrapKey t (c.p 0) b = none →
      Machine.exec (.keyLoad id) s = .next (finish0 id 0x0502 (t.count .glbTokenFail 0 0 1))) ∧
    (Ready s .keyErase id c → hostRead s c.fn (c.p 1) 4811 = (t, .ok b) → tokenOk t c .keyErase 1 false b = true →
      u = t.setReg .glbTokenSeq 0 0 (fld b 32 8) →
      Machine.exec (.keyErase id) s = .next (finish0 id 0x0000 (eraseSlots (· == c.p 0) u)) ∧
      (t.sec.ctxs = [] → t.ckpt.saves = [] → t.ckpt.rests = [] → eraseSlots (· == c.p 0) u = { u with keys := tdrop t.keys (· == c.p 0) })) ∧
    (Ready s .attest id c → s.sec.rngFail = false → hostRead s c.fn (c.p 0) 64 = (t, .ok b) →
      hostWrite t c.fn (c.p 1) (attestBody t b ++ fit 4627 (Config.dsaSign (attestBody t b))) = (u, .ok ()) →
      Machine.exec (.attest id) s = .next (finish0 id 0x0000 u)) ∧
    (Ready s .attest id c → s.sec.rngFail = true → Machine.exec (.attest id) s = .next s) ∧
    (Ready s .debugUnlock id c → hostRead s c.fn (c.p 0) 4811 = (t, .ok b) → tokenOk t c .debugUnlock 0 false b = true →
      u = t.setReg .glbTokenSeq 0 0 (fld b 32 8) →
      (bit (u.reg .glbSecSts) 6 = false → Machine.exec (.debugUnlock id) s = .next (finish0 id 0x0000
        ((extend 7 (sha3 b) (eraseSlots (fun _ => true) u)).orReg .glbSecSts 0 0 0x40))) ∧
      (bit (u.reg .glbSecSts) 6 = true → Machine.exec (.debugUnlock id) s = .next (finish0 id 0x0000 u)) ∧
      (t.sec.ctxs = [] → t.ckpt.saves = [] → t.ckpt.rests = [] → eraseSlots (fun _ => true) u = { u with keys := [] }))

/-- The cipher engine, images, alarms and the test port (R449, R451, R458 to R464, R520): CRYPT with a key the tenant may use enters one
of the 16 contexts, and waits while all are in use; the operation that ends by itself has its output written, an encryption's tag beside it; a
decryption whose tag fails leaves none of its output and answers AUTH_FAILED; FW_UPDATE puts the image it read into the inactive slot and
answers its version where it verifies; an alarm with no operation under way empties every key slot, halts the security core and sets ALARM;
IDCODE answers the identity and a closed port bypasses. -/
def Obligations.Security_Engine : Prop :=
  ∀ (s t u : State) (id : Nat) (c : Cmd) (b : Bytes),
    (Ready s .crypt id c → (s.fwp 34).st = .running → s.sec.ctxs.length < 16 → ctxTurn s c = true → rangeWaits s (c.p 2) (c.p 4) = false →
      rangeWaits s (c.p 3) (c.p 4) = false →
      (slotNo s c.fn (c.p 1) (cryptMode (c.p 0)) = none → (0 < c.p 4 → mayReach c.fn (c.p 2) (c.p 4) false 0x214 s = (true, s)) →
        (0 < c.p 4 → mayReach c.fn (c.p 3) (c.p 4) true 0x214 s = (true, s)) → mayReach c.fn (c.p 5) 64 false 0x214 s = (true, s) →
        readMem s (c.p 5) 64 = (t, .ok b) →
        Machine.exec (.crypt id) s = .next (working id { t with sec := { t.sec with
          ctxs := t.sec.ctxs ++ [⟨id, c.fn, c.p 0, c.p 1, c.p 2, c.p 3, c.p 4, b, c.p 5, (tget {} s.keys (c.p 1)).key, syncOf s c (c.p 6)⟩]
          ctxLast := c.fn, ctxWait := t.sec.ctxWait.filter fun k => k != id } })) ∧
      (∀ w, slotNo s c.fn (c.p 1) (cryptMode (c.p 0)) = some w → Machine.exec (.crypt id) s = .next (finish id 0x0501 (paramOff .crypt 1) w 0 0 s))) ∧
    (Ready s .crypt id c → (s.fwp 34).st = .running → 16 ≤ s.sec.ctxs.length → s.sec.ctxWait.contains id = false →
      Machine.exec (.crypt id) s = .next { s with sec := { s.sec with ctxWait := s.sec.ctxWait ++ [id] } }) ∧
    (s.power.running = true →
      (∀ i o aad x, s.sec.ctxs[i]? = some o → cipherRead o s = (t, .ok (aad, x)) →
        (∀ out, out = (if o.mode ≤ 1 then gcmCrypt o.key (slice o.desc 0 12) x
            else xtsRun (o.mode == 2) o.key (fld o.desc 16 4) (o.bytes + 1) (fld o.desc 0 16) x) →
          writeMem t o.dst out = (u, none) → out ≠ [] →
          (o.mode ≠ 0 → (o.mode = 1 → gcmTag o.key (slice o.desc 0 12) aad x = slice o.desc 32 16) →
            Machine.exec (.cipherOpComplete i) s = .next (cipherEnd o 0x0000 (o.bytes % 2 ^ 32) (o.bytes / 2 ^ 32) 0 u)) ∧
          (∀ v, o.mode = 0 → writeMem u (o.descAt + 32) (gcmTag o.key (slice o.desc 0 12) aad out) = (v, none) →
            Machine.exec (.cipherOpComplete i) s = .next (cipherEnd o 0x0000 (o.bytes % 2 ^ 32) (o.bytes / 2 ^ 32) 0 v))) ∧
        (o.mode = 1 → gcmTag o.key (slice o.desc 0 12) aad x ≠ slice o.desc 32 16 →
          (o.bytes ≤ 65536 → Machine.exec (.cipherOpComplete i) s = .next (cipherEnd o 0x0502 0 0 0 t)) ∧
          (65536 < o.bytes → Machine.exec (.cipherOpComplete i) s =
            .next (cipherEnd o 0x0502 0 0 o.bytes (writeMem t o.dst (zeros o.bytes)).1)))) ∧
      (∀ i o e, s.sec.ctxs[i]? = some o → cipherRead o s = (t, .error e) →
        Machine.exec (.cipherOpComplete i) s = .next (cipherStop o 0x0401 (e % 2 ^ 32) (e / 2 ^ 32) t)) ∧
      (Machine.exec (.jtagTapAccess true) s = .next { s with pins := { s.pins with tapBypass := false, tapOut := 0x16400A6B } }) ∧
      (bit (s.reg .glbSecSts) 6 = false → Machine.exec (.jtagTapAccess false) s = .next { s with pins := { s.pins with tapBypass := true } })) ∧
    (bit (s.reg .glbSecSts) 6 = true → s.power.running = true →
      Machine.exec (.jtagTapAccess false) s = .next { s with pins := { s.pins with tapBypass := false } }) ∧
    (∀ k, Ready s .fwUpdate id c → (s.fwp 34).st = .running → k = inactiveSlot s → readPart s c.fn (hostBase + c.p 0) (c.p 1) = (t, b, none) → b ≠ [] →
      u = { t with sec := { t.sec with images := tput none t.sec.images k (some b), unusable := t.sec.unusable ||| 2 ^ k } } →
      (imageOk u (Config.bootImage b) = true → Machine.exec (.fwUpdate id) s = .next (finish id 0x0000 (Config.bootImage b).version 0 0 0
        { u with sec := { u.sec with unusable := u.sec.unusable &&& (3 - 2 ^ k), active := if c.p 2 = 1 then some k else u.sec.active } })) ∧
      (imageOk u (Config.bootImage b) = false → Machine.exec (.fwUpdate id) s = .next (finish0 id 0x0502 u))) ∧
    (∀ cause, 0 < cause → cause < 32 → Machine.exec (.securityAlarm cause) s = .next (alarm cause s) ∧
      (s.sec.ctxs = [] → s.ckpt.saves = [] → s.ckpt.rests = [] →
        (alarm cause s).keys = [] ∧ ((alarm cause s).fwp 34).st = .halted ∧ bit ((alarm cause s).reg .glbSecSts) 7 = true)) ∧
    (Machine.exec (.securityAlarm 0) s = .next s)
/-- Communicators, collectives and layouts (R216, R254, R258, R259, R265, R289, R291): COMM_CREATE makes an ABSENT communicator READY and
COMM_DESTROY a READY one ABSENT; a collective over a communicator that there is, whose extents do not overlap and may be reached, joins the
communicator's operations in take order, and one over none is STATE_CONFLICT; a reduction of MODE 2 in strict mode is refused and counted;
LAYOUT_DEFINE keeps the descriptor, LAYOUT_DROP forgets it, and MOVE between layouts that match joins their communicator. -/
def Obligations.Collectives : Prop :=
  ∀ (s t : State) (id : Nat) (c : Cmd) (cm : Comm),
    (∀ b, Ready s .commCreate id c → s.comm (tkey c.fn (c.p 0)) = none → readMem s (c.p 3) (8 * c.p 1) = (t, .ok b) → Machine.exec (.commCreate id) s =
      .next (finish0 id 0x0000 (t.setComm (tkey c.fn (c.p 0)) (some { ranks := c.p 1, rank := c.p 2, map := c.p 3 })))) ∧
    (Ready s .commDestroy id c → commCode s (tkey c.fn (c.p 0)) = 1 → Machine.exec (.commDestroy id) s =
      .next (finish0 id 0x0000 (s.setComm (tkey c.fn (c.p 0)) none))) ∧
    (∀ o i, (o = .allReduce ∧ i = .allReduce id ∨ o = .reduceScatter ∧ i = .reduceScatter id ∨ o = .allGather ∧ i = .allGather id ∨
        o = .broadcast ∧ i = .broadcast id ∨ o = .allToAll ∧ i = .allToAll id) → Ready s o id c →
      (s.comm (tkey c.fn (c.p 0)) = none → Machine.exec i s = .next (finish id 0x0201 (0x09 + c.p 0 * 256) 0 0 0 s)) ∧
      (s.comm (tkey c.fn (c.p 0)) = some cm → (o = .broadcast → c.p 1 < cm.ranks) → collOverlap c o cm = false → collDenied s c o cm = none →
        (isReduction o = true → c.p 1 = 2 → strict s c.fn = false → Machine.exec i s = .next (collJoin c (c.p 0)
          { id := id, tenant := c.fn, comm := c.p 0, sig := syncOf (varCount c.fn (some id) s) c (c.p (collParams o).2.2) } (varCount c.fn (some id) s))) ∧
        (¬ (isReduction o ∧ c.p 1 = 2) → Machine.exec i s = .next (collJoin c (c.p 0)
          { id := id, tenant := c.fn, comm := c.p 0, sig := syncOf s c (c.p (collParams o).2.2) } s)) ∧
        (isReduction o = true → c.p 1 = 2 → strict s c.fn = true → Machine.exec i s =
          .next (finish0 id 0x0105 (varRefuse c.fn s)))) ∧
      (∀ cm, s.comm (tkey c.fn (c.p 0)) = some cm → (o = .broadcast → c.p 1 < cm.ranks) → collOverlap c o cm = true →
        Machine.exec i s = .next (finish id 0x0103 (paramOff o (collParams o).1) 0 0 0 s))) ∧
    (∀ b, Ready s .layoutDefine id c → layoutCode s c.fn (c.p 0) = 0 → readMem s (c.p 1) 64 = (t, .ok b) → Machine.exec (.layoutDefine id) s =
      .next (finish0 id 0x0000 { t with ckpt := { t.ckpt with layouts := tput [] t.ckpt.layouts (tkey c.fn (c.p 0)) b } })) ∧
    (Ready s .layoutDrop id c → layoutCode s c.fn (c.p 0) = 1 → Machine.exec (.layoutDrop id) s =
      .next (finish0 id 0x0000 { s with ckpt := { s.ckpt with layouts := tput [] s.ckpt.layouts (tkey c.fn (c.p 0)) [] } })) ∧
    (∀ l, Ready s .reshardMove id c → layoutCode s c.fn (c.p 0) ≠ 0 → layoutCode s c.fn (c.p 1) ≠ 0 →
      s.comm (tkey c.fn (layoutAt s c.fn (c.p 0)).comm) = some cm → readMem s (c.p 3) (32 * c.p 2) = (t, .ok l) → moveBad t c l cm = none →
      Machine.exec (.reshardMove id) s = .next (collJoin c (layoutAt s c.fn (c.p 0)).comm
        { id := id, tenant := c.fn, comm := (layoutAt s c.fn (c.p 0)).comm, sig := syncOf t c (c.p 4), list := l } t)) ∧
    (∀ comm j, s.comm (tkey c.fn comm) = some cm → collJoin c comm j s = collsGo (working c.id
      (let u := s.setComm (tkey c.fn comm) (some { cm with jobs := cm.jobs ++ [c.id] })
       { u with ckpt := { u.ckpt with colls := u.ckpt.colls ++ [j] } })))

/-- Checkpoint commands (R214, R274, R278, R279, R282, R284, R287, R288, R292): POOL_ADD takes the next of 64 pool indices; SAVE whose tests pass
makes its slot SAVING and fixes its IV time above every earlier one; a step of a save whose writes are acknowledged gives way to the next;
RESTORE of a VALID or DRAINING slot makes it RESTORING and reads commit records; a staged restore replies once its entries are written, or
with UNCORRECTABLE where one could not be read; DRAIN makes a VALID slot DRAINING and ends with it VALID; SLOT_STATUS answers state and step; RANK_TAKE writes CKP[t].RANK and ends with the slots it adopted; a staging register
is written while no slot is SAVING or RESTORING, and sets STAGE_BUSY otherwise. -/
def Obligations.Checkpoints : Prop :=
  ∀ (s t : State) (id : Nat) (c : Cmd) (b : Bytes),
    (Ready s .poolAdd id c → (poolsOf s c.fn).length < 64 → Machine.exec (.poolAdd id) s = .next (finish id 0x0000 (poolsOf s c.fn).length 0 0 0
      { s with ckpt := { s.ckpt with pools := tput [] s.ckpt.pools c.fn (poolsOf s c.fn ++ [⟨c.p 0, c.p 1, c.p 2⟩]) } })) ∧
    (Ready s .poolAdd id c → 64 ≤ (poolsOf s c.fn).length → Machine.exec (.poolAdd id) s = .next (finish0 id 0x0301 s)) ∧
    (Ready s .save id c → readMem s (c.p 3) (64 + 32 * c.p 1) = (t, .ok b) →
      (∀ u x iv, saveNo t c b (placeShards (maskPools (fld b 8 8)) b) = .ok → iv = max t.now (t.reg .ckpIvTb + 1) →
        u = (t.setReg .ckpIvTb 0 0 iv).setCkSlot c.fn (c.p 0) { st := 1, step := 0, pools := fld b 8 8, man := [], cls := fld b 2 1, draining := false } →
        x = { id := id, tenant := c.fn, slot := c.p 0, phase := 2, left := (maskPools (fld b 8 8)).length, list := b, step := c.p 2, iv := iv, shards := placeShards (maskPools (fld b 8 8)) b, sig := syncOf u c (fld b 4 4) } →
        Machine.exec (.save id) s = .next ((maskPools (fld b 8 8)).foldl (fun s p => poolWrite id p c.fn (fld b 2 1) p (c.p 0) 0 (commitVoid (c.p 0)) s)
          (ckptTrace x 1 (working id { u with ckpt := { u.ckpt with saves := u.ckpt.saves ++ [x] } })))) ∧
      (saveNo t c b (placeShards (maskPools (fld b 8 8)) b) = .rank → Machine.exec (.save id) s = .next (finish0 id 0x0203 t)) ∧
      (saveNo t c b (placeShards (maskPools (fld b 8 8)) b) = .room → Machine.exec (.save id) s = .next (finish0 id 0x0301 t))) ∧
    (s.power.running = true →
      (∀ x, findSave s id = some x → (x.left ≠ 0 ∨ x.fail.isSome = true) → Machine.exec (.saveStepDone id) s = .next s) ∧
      (∀ x, findSave s id = some x → x.left = 0 → x.fail = none → x.phase = 2 → Machine.exec (.saveStepDone id) s = .next (saveHold x (ckptTrace x 2 s))) ∧
      (∀ x, findSave s id = some x → x.left = 0 → x.fail = none → x.phase = 6 → x.todo = [] →
        Machine.exec (.saveStepDone id) s = .next (ckptTrace x 7 (saveDone x (ckptTrace x 6 s)))) ∧
      (∀ x, findSave s id = some x → x.left = 0 → x.fail = none → keyServes s x.tenant (fld x.list 0 2) = true →
        (x.phase = 3 → Machine.exec (.saveStepDone id) s = .next (saveCapture x s)) ∧
        (x.phase = 4 → Machine.exec (.saveStepDone id) s = .next (saveManifest x (ckptTrace x 4 s)))) ∧
      (∀ x, findSave s id = some x → x.left = 0 → x.fail = none → x.phase = 3 ∨ x.phase = 4 ∨ x.phase = 5 → keyServes s x.tenant (fld x.list 0 2) = false →
        Machine.exec (.saveStepDone id) s = .next (saveStop x 0x0501 0 0 s)) ∧
      (∀ x n, findRest s id = some x → x.phase = 3 →
        restWrite x (manList x.man) (manSizes x.man) (List.range (listCount (manList x.man))) 0 s = (t, n, none) →
        Machine.exec (.restoreStageDone id) s = .next (restEnd x 0x0000 (manShards x.man) (x.step % 2 ^ 32) (x.step / 2 ^ 32) t)) ∧
      (∀ x n a, findRest s id = some x → x.phase = 3 →
        restWrite x (manList x.man) (manSizes x.man) (List.range (listCount (manList x.man))) 0 s = (t, n, some a) →
        Machine.exec (.restoreStageDone id) s = .next (restEnd x 0x0401 n 0 0 t)) ∧
      (∀ x, (s.ckpt.drains.find? fun x => x.id == id) = some x → x.todo = [] → x.write = none →
        x.st = 0x0000 → (s.ckSlot x.tenant x.slot).st = 4 → Machine.exec (.drainDone id) s = .next (finish id 0x0000 x.r0 x.r1 0 0
          ((({ s with ckpt := { s.ckpt with drains := s.ckpt.drains.filter fun y => y.id != id } } : State)).setCkSlot x.tenant x.slot
            { s.ckSlot x.tenant x.slot with st := 2, draining := false }))) ∧
      (∀ x u, (s.ckpt.takes.find? fun x => x.id == id) = some x → x.phase = 1 → x.left = 0 →
        u = { s with ckpt := { s.ckpt with takes := s.ckpt.takes.filter fun y => y.id != id } } →
        (x.st ≠ 0x0000 → Machine.exec (.rankTakeDiscovered id) s = .next (finish0 id x.st u)) ∧
        (x.st = 0x0000 → takeFound x = [] → Machine.exec (.rankTakeDiscovered id) s = .next (finish id 0x0000 0 0 0 0
          ((((u.setCkSlot x.tenant 0 {}).setReg .ckpStepA x.tenant 0 0).setCkSlot x.tenant 1 {}).setReg .ckpStepB x.tenant 0 0))) ∧
        (∀ p, x.st = 0x0000 → newest (adoptable x 0) = some p → newest (adoptable x 1) = none →
          (takeFound x).all (fun k => slice (tget [] x.man k) 64 64 != x.sig) = false →
          Machine.exec (.rankTakeDiscovered id) s = .next (finish id 0x0000 1 (fld p.1 8 8 % 2 ^ 32) (fld p.1 8 8 / 2 ^ 32) 0
            ((((u.setCkSlot x.tenant 0 { st := 2, step := fld p.1 8 8, pools := fld p.2 40 8, man := p.2, cls := 0, draining := false }).setReg .ckpStepA
              x.tenant 0 (fld p.1 8 8)).setCkSlot x.tenant 1 {}).setReg .ckpStepB x.tenant 0 0)))) ∧
      (∀ who tn (val : Word), who < 19 → tn < 16 → (who = tn ∨ 16 ≤ who) → (s.ckSlot tn 0).st = 0 → (s.ckSlot tn 1).st = 0 →
        Machine.exec (.stageWrite who tn 0x18 val) s = .next (s.setField .ckpStageBase tn 0 31 21 (val.toNat / 2 ^ 21)) ∧
        Machine.exec (.stageWrite who tn 0x24 val) s = .next (s.setField .ckpStageBytes tn 0 41 32 val.toNat)) ∧
      (∀ who tn (val : Word), who < 19 → tn < 16 → (who = tn ∨ 16 ≤ who) → (s.ckSlot tn 0).st = 1 →
        Machine.exec (.stageWrite who tn 0x18 val) s = .next (stickyRec 1 (some tn) 0 .ckpErr tn 0 32 s))) ∧
    (Ready s .restore id c → (s.ckSlot c.fn (c.p 0)).st ≠ 2 → (s.ckSlot c.fn (c.p 0)).st ≠ 4 →
      listGranted s c.fn (manList (s.ckSlot c.fn (c.p 0)).man) = true →
      (stageNeed (manSizes (s.ckSlot c.fn (c.p 0)).man) ≤ stageSize s c.fn → stageGranted s c.fn (stageNeed (manSizes (s.ckSlot c.fn (c.p 0)).man)) = true) →
      Machine.exec (.restore id) s = .next (finish id 0x0201 (0x0E + c.p 0 * 256) (s.ckSlot c.fn (c.p 0)).st 0 0 s)) ∧
    (∀ u x l, Ready s .restore id c → (s.ckSlot c.fn (c.p 0)).st = 2 ∨ (s.ckSlot c.fn (c.p 0)).st = 4 → l = manList (s.ckSlot c.fn (c.p 0)).man →
      listGranted s c.fn l = true → listOpen s l = none → stageNeed (manSizes (s.ckSlot c.fn (c.p 0)).man) ≤ stageSize s c.fn →
      stageGranted s c.fn (stageNeed (manSizes (s.ckSlot c.fn (c.p 0)).man)) = true →
      readMem s (c.p 2) (shapeLen s (c.p 2)) = (t, .ok b) → u = t.setCkSlot c.fn (c.p 0) { s.ckSlot c.fn (c.p 0) with st := 3 } →
      x = { id := id, tenant := c.fn, slot := c.p 0, phase := 0, step := c.p 1, sig := sha3 b, cand := maskPools (s.ckSlot c.fn (c.p 0)).pools } →
      Machine.exec (.restore id) s = .next (restTry x (working id { u with ckpt := { u.ckpt with rests := u.ckpt.rests ++ [x] } }))) ∧
    (∀ x, Ready s .drain id c → (s.ckSlot c.fn (c.p 0)).st = 2 → (s.vol (c.p 1)).st = 2 → (s.vol (c.p 1)).tenant = c.fn →
      drainBytes s c.fn (s.ckSlot c.fn (c.p 0)) ≤ (s.vol (c.p 1)).blocks * 4096 →
      x = { id := id, tenant := c.fn, slot := c.p 0, vol := c.p 1, todo := drainPieces s c.fn (c.p 0) (s.ckSlot c.fn (c.p 0)) } →
      Machine.exec (.drain id) s = .next (drainNext x (working id (let u := s.setCkSlot c.fn (c.p 0) { s.ckSlot c.fn (c.p 0) with st := 4, draining := true }
        { u with ckpt := { u.ckpt with drains := u.ckpt.drains ++ [x] } })))) ∧
    (Ready s .slotStatus id c → Machine.exec (.slotStatus id) s =
      .next (finish id 0x0000 (s.ckSlot c.fn (c.p 0)).st ((s.ckSlot c.fn (c.p 0)).step % 2 ^ 32) ((s.ckSlot c.fn (c.p 0)).step / 2 ^ 32) 0 s)) ∧
    (∀ u n x, Ready s .rankTake id c → (s.ckSlot c.fn 0).st = 0 → (s.ckSlot c.fn 1).st = 0 → readMem s (c.p 1) (shapeLen s (c.p 1)) = (t, .ok b) →
      u = ({ t with ckpt := { t.ckpt with ranks := tput none t.ckpt.ranks c.fn (some (c.p 0)), sigs := tput [] t.ckpt.sigs c.fn (sha3 b) } } : State).setReg .ckpRank c.fn 0 (c.p 0) →
      n = (poolsOf t c.fn).length → x = { id := id, tenant := c.fn, rank := c.p 0, sig := sha3 b, phase := if n = 0 then 1 else 0, left := 2 * n } →
      Machine.exec (.rankTake id) s = .next ((List.range 2).foldl (fun s slot => (List.range n).foldl (fun s p =>
        poolRead id (slot * 64 + p) c.fn 0 p slot 0 128 s) s) (working id { u with ckpt := { u.ckpt with takes := u.ckpt.takes ++ [x] } })))

/-- Seam flits (R319 to R323): on an UP link a good DATA flit with the SEQ expected is accepted and the next is expected, one accepted before is
discarded silently, any other and one that its FEC cannot correct is answered with a NAK; an IDLE flit is dropped; a CTRL flit takes the flits it
acknowledges out of the replay buffer and gives credits, one that is bad counts in CRC, and one with a NAK of a flit in the buffer starts a
resend, counted as one replay; no acknowledgement for 100 µs, a lane that loses lock, a window above the limit, and a write of RETRAIN or
REWIDEN by a management function or world S each begin a retrain, counted as one replay and one retrain. -/
def Obligations.Seam_Flits : Prop :=
  ∀ (s u : State) (l : Nat) (x : Link), s.power.running = true → l < 24 → x = s.link l → x.st = .up →
    (∀ flit : Bytes, flitGood true flit = true → fld flit 0 4 % 4 = 1 →
      (bits (fld flit 0 4) 13 2 = x.rxSeq → Machine.exec (.seamDataFlit l true flit) s =
        .next (ctrlSlot l (s.setLink l { x with rxSeq := (x.rxSeq + 1) % 4096 }))) ∧
      (bits (fld flit 0 4) 13 2 ≠ x.rxSeq → (x.rxSeq + 4096 - bits (fld flit 0 4) 13 2) % 4096 ≤ 512 → Machine.exec (.seamDataFlit l true flit) s = .next s) ∧
      (bits (fld flit 0 4) 13 2 ≠ x.rxSeq → 512 < (x.rxSeq + 4096 - bits (fld flit 0 4) 13 2) % 4096 →
        Machine.exec (.seamDataFlit l true flit) s = .next (sendCtrl l true s))) ∧
    (∀ flit : Bytes, flitGood true flit = true → fld flit 0 4 % 4 = 0 → Machine.exec (.seamDataFlit l true flit) s = .next s) ∧
    (∀ flit, Machine.exec (.seamDataFlit l false flit) s = .next (sendCtrl l true s)) ∧
    (∀ flit : CtrlFlit, ctrlOk flit = false → Machine.exec (.seamCtrlFlit l flit) s = .next (s.count .seamCrc l 0 1)) ∧
    (∀ (flit : CtrlFlit) v, ctrlOk flit = true → u = ackFlits l flit.ack s →
      v = u.setLink l { u.link l with
        credits := flit.credits.take 3
        skew := (u.link l).t1.elim (u.link l).skew fun t1 => some (skewOf t1 flit.arrived flit.left u.tb.master.toNat)
        t4 := some u.tb.master.toNat } →
      (flit.nak = none → Machine.exec (.seamCtrlFlit l flit) s = .next (bundlesGo (ctrlSlot l (linkGo l v)))) ∧
      (∀ n w, flit.nak = some n → (v.link l).buf.any (fun f => f.seq == n) = true → w = ackFlits l ((n + 4095) % 4096) v →
        (w.link l).buf.any (fun f => decide (16 ≤ f.sends)) = false → Machine.exec (.seamCtrlFlit l flit) s =
          .next (bundlesGo (ctrlSlot l (linkGo l (resend l n ((w.count .seamReplay l 0 1).countTv 3 1))))))) ∧
    (x.buf ≠ [] → x.acked + 100 * usTicks ≤ s.tb.ticks → Machine.exec (.seamAckTimeout l) s = .next (startRetrain l s)) ∧
    (x.buf = [] → Machine.exec (.seamAckTimeout l) s = .next s) ∧
    (s.tb.ticks < x.acked + 100 * usTicks → Machine.exec (.seamAckTimeout l) s = .next s) ∧
    Machine.exec (.seamLaneFault l) s = .next (startRetrain l s) ∧
    Machine.exec (.seamSerWindow l) s = .next (startRetrain l s) ∧
    (∀ (who : Nat) (val : Word), who = 18 ∨ (16 ≤ who ∧ who < 18 ∧ tget 0 s.own.devs 0x0A ≠ 0) →
      (bit val.toNat 1 = true → Machine.exec (.seamRetrainWrite who l val) s = .next (startRetrain l s)) ∧
      (bit val.toNat 2 = true → Machine.exec (.seamRewidenWrite who l val) s =
        .next ((startRetrain l s).setLink l { (startRetrain l s).link l with widen := true }))) ∧
    (∀ (who : Nat) (val : Word), who < 16 → tget 0 s.own.devs 0x0A ≠ 0 →
      Machine.exec (.seamRetrainWrite who l val) s = .next s ∧ Machine.exec (.seamRewidenWrite who l val) s = .next s) ∧
    (u = ((s.count .seamReplay l 0 1).countTv 3 1).count .seamRetrain l 0 1 → linkOn u l = false →
      startRetrain l s = u.setLink l { x with st := .retrain, cause := s.tb.ticks, attempt := s.tb.ticks, deal := dealing u (linkMap u l).1 })

/-- Seam link states (R323 to R325, R332, R335, R337): a write of ENABLE starts the training of a DISABLED link of the board and stops any
that it disables; lanes that train bring the link to CHECK, where the device sends its identity, a retrain in time back to UP; the peer that
the record names makes it UP, another board's serial sets ERR bit 2 and takes it DOWN; a training or a retrain that takes too long takes it
DOWN; a DOWN link that is enabled trains again after its interval; once a millisecond the offset to the peer goes to TB_SKEW. -/
def Obligations.Seam_Links : Prop :=
  ∀ (s u v : State) (l : Nat) (x : Link), s.power.running = true → l < 24 → x = s.link l →
    (∀ val cable, x.st = .disabled → bit val.toNat 0 = true → Machine.exec (.seamEnableWrite 18 l val cable) s =
      .next (startTraining l cable (s.setReg .seamCtrl l 0 (bits val.toNat 0 0)))) ∧
    (∀ val cable, bit val.toNat 0 = false → Machine.exec (.seamEnableWrite 18 l val cable) s =
      .next (linkStop l .disabled (s.setReg .seamCtrl l 0 (bits val.toNat 0 0)))) ∧
    (∀ cable, linkOn s l = true ∨ linkOff s l = true → (linkOff s l = true → cableOk cable = true) →
      startTraining l cable s = s.setLink l { x with st := .training, attempt := s.tb.ticks, cable := cable, lanes := 0xF, widen := true }) ∧
    (∀ cable, linkOff s l = true → cableOk cable = false → startTraining l cable s =
      stickyRec 1 none 0 .seamErr l 0 8 (s.setLink l { x with st := .down, retry := s.tb.ticks + 100 * msTicks })) ∧
    (∀ lanes m, pickLanes (x.widen || x.lanes == 15) lanes = some m →
      (x.st = .training → v = s.setLink l { x with st := .check, lanes := m, widen := false } → u = (if m = 15 then v else v.orReg .seamErr l 0 1) →
        Machine.exec (.seamTrained l lanes) s = .next { u with wire := .ident l (myIdent s l) :: u.wire }) ∧
      (x.st = .retrain → s.tb.ticks < x.cause + 50 * msTicks → v = s.setLink l { x with st := .up, acked := s.tb.ticks, lanes := m, widen := false } →
        u = (if m = 15 then v else v.orReg .seamErr l 0 1) →
        (x.buf = [] → Machine.exec (.seamTrained l lanes) s = .next (bundlesGo (markUp l (linkGo l u)))) ∧
        (∀ f r, x.buf = f :: r → Machine.exec (.seamTrained l lanes) s = .next (bundlesGo (markUp l (linkGo l (resend l f.seq u))))))) ∧
    (∀ p : SeamIdent, x.st = .check →
      (linkOn s l = true ∧ p.serial = fld s.seam.board 12 8 ∧ p.pos = (linkMap s l).1 ∧ p.link = (linkMap s l).2) ∨
        (linkOn s l = false ∧ p.cable = fld x.cable 8 8 ∧ p.tip ≠ fld x.cable 16 1 ∧ boardPeer s p.fdid = none ∧ p.fdid ≠ myFdid s) →
      u = s.setLink l { x with
        st := .up, wasUp := true, acked := s.tb.ticks, credits := []
        txSeq := if x.wasUp then x.txSeq else 0, rxSeq := if x.wasUp then x.rxSeq else 0, buf := []
        wait := [], t1 := none, t4 := none, skew := none, slot := 0, ctrlAt := s.tb.ticks } →
      Machine.exec (.seamCheckDone l p) s = .next (markUp l (if linkOff s l then u.setReg .seamPeerFdid l 0 p.fdid else u))) ∧
    (∀ p : SeamIdent, x.st = .check → linkOn s l = true → p.serial ≠ fld s.seam.board 12 8 →
      Machine.exec (.seamCheckDone l p) s = .next (linkDown l (stickyRec 1 none 0 .seamErr l 0 4 s))) ∧
    (x.st = .training → x.attempt + 10 * msTicks ≤ s.tb.ticks → Machine.exec (.seamTrainTimeout l) s = .next (linkDown l s)) ∧
    (s.tb.ticks < x.attempt + 10 * msTicks → Machine.exec (.seamTrainTimeout l) s = .next s) ∧
    (x.st = .retrain → x.cause + 50 * msTicks ≤ s.tb.ticks → Machine.exec (.seamRetrainTimeout l) s = .next (linkDown l s)) ∧
    (s.tb.ticks < x.cause + 50 * msTicks → Machine.exec (.seamRetrainTimeout l) s = .next s) ∧
    (∀ cable, x.st = .down → bit (s.reg .seamCtrl l) 0 = true → x.retry ≤ s.tb.ticks →
      Machine.exec (.seamRetryInterval l cable) s = .next (startTraining l cable s)) ∧
    (∀ cable, x.st = .down → s.tb.ticks < x.retry → Machine.exec (.seamRetryInterval l cable) s = .next s) ∧
    (∀ d, x.st = .up → x.sample ≤ s.tb.ticks → x.skew = some d → s.reg .seamTbLimit = 0 → Machine.exec (.tbSkewSample l) s =
      .next ((s.setLink l { x with sample := s.tb.ticks + msTicks }).setReg .seamSkew l 0 (wrapInt 32 d))) ∧
    (x.st = .up → x.sample ≤ s.tb.ticks → x.skew = none → Machine.exec (.tbSkewSample l) s =
      .next (s.setLink l { x with sample := s.tb.ticks + msTicks }))

/-- Seam traffic (R238, R258, R327, R338, R340, R341): a transaction seen before is acknowledged again with its status and not performed; a
signal is applied and acknowledged; a write is performed where the region, its owner or share, its rights and its state allow it, and is
acknowledged with the status of that test otherwise; collective traffic waits for its communicator; a packet of an off-board link goes to the
fabric transport; an acknowledgement frees its transaction and its command goes on; 50 ms after a bundle's last link went DOWN its
traffic ends; a contribution that a communicator takes lands in it; a remote signal leaves over the bundle to its device, or as a packet
of the fabric transport. -/
def Obligations.Seam_Traffic : Prop :=
  ∀ (s t : State) (l q seq : Nat), s.power.running = true → l < 24 → q < 8 →
    ((s.link l).st = .up → s.power.dstate = .on → linkOn s l = true → q = (linkMap s l).1 →
      (∀ e m, (s.bundle q).seen.find? (fun e => e.1 == seq) = some e → (∀ b, m ≠ .packet b) →
        Machine.exec (.seamTransaction l seq m) s = .next (linkOut l (.ack seq e.2) s)) ∧
      ((s.bundle q).seen.find? (fun e => e.1 == seq) = none →
        (∀ ctr val tn, t = (remoteApply 0x204 (fld s.seam.board 8 4 + q) ctr val tn s).1 → Machine.exec (.seamTransaction l seq (.signal ctr val tn)) s =
          .next (linkOut l (.ack seq 0x0000) (t.setBundle q { t.bundle q with seen := ((seq, 0x0000) :: (t.bundle q).seen).take 65536 }))) ∧
        (∀ tn a d st, seamWriteCheck s tn a d.length = st → st ≠ 0x0000 → Machine.exec (.seamTransaction l seq (.write tn a d)) s =
          .next (linkOut l (.ack seq st) (s.setBundle q { s.bundle q with seen := ((seq, st) :: (s.bundle q).seen).take 65536 }))) ∧
        (∀ tn a d, seamWriteCheck s tn a d.length = 0x0000 → memWaits s a d.length = false → writeMem s a d = (t, none) →
          Machine.exec (.seamTransaction l seq (.write tn a d)) s = .next (workGo (moveLanded tn a d.length
            (linkOut l (.ack seq 0x0000) (t.setBundle q { t.bundle q with seen := ((seq, 0x0000) :: (t.bundle q).seen).take 65536 }))))) ∧
        (∀ tn a d, seamWriteCheck s tn a d.length = 0x0000 → memWaits s a d.length = true →
          Machine.exec (.seamTransaction l seq (.write tn a d)) s = .next (wakeSpan a d.length s)) ∧
        (∀ p, (contribReady s p = false → Machine.exec (.seamTransaction l seq (.coll p)) s = .next s) ∧
          (contribReady s p = true → Machine.exec (.seamTransaction l seq (.coll p)) s = .next (contribLand p
            (linkOut l (.ack seq 0x0000) (s.setBundle q { s.bundle q with seen := ((seq, 0x0000) :: (s.bundle q).seen).take 65536 }))))))) ∧
    (∀ b, (s.link l).st = .up → s.power.dstate = .on → linkOff s l = true → Machine.exec (.seamTransaction l seq (.packet b)) s =
      .next { s with net := { s.net with ftIn := s.net.ftIn ++ [{ mac := 32 + l, bytes := b, time := s.now, cls := 0, ft := true }] } }) ∧
    (∀ st x rest, takeFirst (fun (t : SeamTx) => t.seq == some seq) (s.bundle q).txs = some (x, rest) →
      t = bundleGo q (s.setBundle q { s.bundle q with
        txs := rest, lost := (s.bundle q).lost.filter fun (_, gone, _) => rest.any fun t => t.seq.isSome && t.resent == some gone }) →
      (∀ g, x.for_ = .signal g → Machine.exec (.seamTransactionAck q seq st) s = .next t) ∧
      (∀ id, x.for_ = .work id → Machine.exec (.seamTransactionAck q seq st) s =
        .next (workGo { t with ft := { t.ft with ends := t.ft.ends ++ [⟨id, 0, st, []⟩] } }))) ∧
    (∀ d, (s.bundle q).downAt = some d → upLinks s q = [] →
      (d + 50 * msTicks ≤ s.tb.ticks → Machine.exec (.seamBundleTimeout q) s =
        .next (txsLost (s.bundle q).txs (s.setBundle q { s.bundle q with txs := [], lost := [] }))) ∧
      (s.tb.ticks < d + 50 * msTicks → Machine.exec (.seamBundleTimeout q) s = .next s)) ∧
    (∀ p x, contribReady s p = true → s.comm (tkey p.tenant p.comm) = some x →
      x.next ≤ p.op ∨ (s.ckpt.colls.any fun j => j.tenant == p.tenant && j.comm == p.comm && j.begun == some p.op) = true →
      (x.parts.any fun y => y.rank == p.rank && y.op == p.op && y.off == p.off) = false →
      Machine.exec (.collectiveContribution p) s = .next (workGo (s.setComm (tkey p.tenant p.comm) (some { x with parts := x.parts ++ [p] })))) ∧
    (∀ p, contribReady s p = false → Machine.exec (.collectiveContribution p) s = .next s) ∧
    (∀ g rest, takeFirst (unitWritesDone s) s.sync.remote = some (g, rest) → t = { s with sync := { s.sync with remote := rest } } →
      (∀ p, boardPeer t g.fdid = some p →
        Machine.exec .remoteSignalSend s = .next (seamSend p g.src (g.ctr / 1024) (.signal g.ctr g.val g.tenant) (.signal g) t)) ∧
      (boardPeer t g.fdid = none → Machine.exec .remoteSignalSend s = .next (ftStart {
        gen := 0, take := 0, from_ := .signal g, tenant := g.tenant, op := 0x0A, ord := true, cls := 0, dst := g.fdid, raddr := g.ctr, len := 4
        operand := g.val, mtu := ftMtu t, moved := t.tb.ticks } t))) ∧
    (takeFirst (unitWritesDone s) s.sync.remote = none → Machine.exec .remoteSignalSend s = .next s)

/-- Frame path configuration (R344, R346, R349, R354 to R357, R361, R364, R367 to R370): PORT_MODE sets the mode of a DOWN port, and of another
answers STATE_CONFLICT;
RULES_COMMIT waits for room and then makes its rules, the staged patterns and SLOW_PORTS the tenant's set under the next
version, which its reply holds, and in strict mode is refused where a queue would take frames of several MACs; PATTERNS_LOAD stages its entries; STREAM_OPEN opens the stream at its resume position, of one that is open answers
STATE_CONFLICT; STREAM_CLOSE of a released stream without unfinished records replies with its position; POLICER_SET and SHAPER_SET leave new values
for the next refill; GATES_LOAD arms its list on BASE; management writes of the tenant map and the profiles change the rule version too. -/
def Obligations.Net_Commands : Prop :=
  ∀ (s : State) (id : Nat) (c : Cmd) (t m st : Nat),
    (Ready s .portMode id c → portDown s (c.p 0) = true → modeRefused s (c.p 0) (c.p 1) = none →
      Machine.exec (.portMode id) s = .next (finish0 id 0x0000 (s.setField .ethSts (c.p 0) 0 1 0 (c.p 1)))) ∧
    (Ready s .portMode id c → portDown s (c.p 0) = false →
      Machine.exec (.portMode id) s = .next (finish id 0x0201 (0x0B + c.p 0 * 256) 1 0 0 s)) ∧
    (Ready s .portMode id c → portDown s (c.p 0) = true → modeRefused s (c.p 0) (c.p 1) = some t →
      Machine.exec (.portMode id) s = .next (finish0 id 0x0105 (varRefuse t s))) ∧
    (∀ d u rules, Ready s .rulesCommit id c → readMem s (c.p 1) (16 + 64 * c.p 0) = (u, .ok d) → rules = (List.range (c.p 0)).map (fun i => slice d (16 + 64 * i) 64) →
      ((strict u c.fn && rulesMulti u rules (fld d 0 1)) = false →
        (rulesElse u c.fn + c.p 0 ≤ 16384 → Machine.exec (.rulesCommit id) s = .next (working id { u with net := { u.net with commits := u.net.commits ++
          [⟨id, c.fn, rules, fld d 0 1⟩] } })) ∧
        (16384 < rulesElse u c.fn + c.p 0 → Machine.exec (.rulesCommit id) s = .next (finish0 id 0x0301 u))) ∧
      (strict u c.fn = true → rulesMulti u rules (fld d 0 1) = true → Machine.exec (.rulesCommit id) s = .next (finish0 id 0x0105 (varRefuse c.fn u)))) ∧
    (∀ rules slow, s.power.running = true → s.net.commits = [⟨id, t, rules, slow⟩] →
      (strict s t = true → rulesMulti s rules slow = true → Machine.exec (.rulesCommitApply id) s =
        .next (finish0 id 0x0105 (varRefuse t { s with net := { s.net with commits := [] } }))) ∧
      ((strict s t && rulesMulti s rules slow) = false → (s.net.sets.map (·.rules.length)).sum + rules.length ≤ 32768 →
        ∃ u v, v = (s.reg .prsVersion + 1) % 2 ^ 32 ∧ Machine.exec (.rulesCommitApply id) s = .next (finish id 0x0000 v 0 0 0 u) ∧
          u.reg .prsVersion = v ∧ ruleSet u t = ⟨t, v, rules, slow, commitPats s t, none⟩ ∧ (∀ k, k ≠ t → ruleSet u k = ruleSet s k) ∧
          u.net.commits = [] ∧ ∀ i, i < 256 → tget [] u.net.staged (t * 256 + i) = []) ∧
      ((strict s t && rulesMulti s rules slow) = false → 32768 < (s.net.sets.map (·.rules.length)).sum + rules.length → Machine.exec (.rulesCommitApply id) s = .next s)) ∧
    (∀ d r, Ready s .patternsLoad id c → readMem s (c.p 2) (64 * c.p 1) = (r, .ok d) →
      ∃ u, Machine.exec (.patternsLoad id) s = .next (finish0 id 0x0000 u) ∧
        (∀ i, i < c.p 1 → tget [] u.net.staged (c.fn * 256 + (c.p 0 + i)) = slice d (64 * i) 64 ∧
          tget 0 u.net.patOwner (c.p 0 + i) = if tget 0 r.net.patOwner (c.p 0 + i) = 0 then c.fn + 1 else tget 0 r.net.patOwner (c.p 0 + i)) ∧
        (∀ k, (∀ i, i < c.p 1 → k ≠ c.fn * 256 + (c.p 0 + i)) → tget [] u.net.staged k = tget [] r.net.staged k) ∧ u.mem = r.mem) ∧
    (Ready s .streamOpen id c → st = c.p 0 → (s.stream st).isOpen = false →
      Machine.exec (.streamOpen id) s = .next (finish0 id 0x0000 ((s.setStream st { s.stream st with
        owner := some c.fn, isOpen := true, dst := c.p 2, bytes := c.p 3, pat := tget [] (ruleSet s c.fn).pats (c.p 1), pidx := c.p 1 }).setReg
          .strmConsumed 0 st (s.reg .strmOffset 0 st)))) ∧
    (Ready s .streamOpen id c → st = c.p 0 → (s.stream st).isOpen = true →
      Machine.exec (.streamOpen id) s = .next (finish id 0x0201 (0x0A + st * 256) 1 0 0 s)) ∧
    (Ready s .streamClose id c → st = c.p 0 → (s.stream st).isOpen = true → (s.stream st).held = false → (s.stream st).recs = 0 →
      ∃ u, Machine.exec (.streamClose id) s = .next (finish id 0x0000 (s.reg .strmOffset 0 st % 2 ^ 32) (s.reg .strmOffset 0 st / 2 ^ 32)
        (s.reg .strmRecords 0 st) 0 u) ∧ u.stream st = { s.stream st with isOpen := false, closing := none } ∧
          ∀ i, u.reg .strmOffset 0 i = s.reg .strmOffset 0 i) ∧
    (Ready s .policerSet id c → Machine.exec (.policerSet id) s = .next (finish0 id 0x0000 (s.setPolicer (c.p 0) { s.policer (c.p 0) with
      next := some (c.p 1 == 1)
      c := { (s.policer (c.p 0)).c with next := some (c.p 3, c.p 2) }, p := { (s.policer (c.p 0)).p with next := some (c.p 4, c.p 5) } }))) ∧
    (Ready s .shaperSet id c → Machine.exec (.shaperSet id) s = .next (finish0 id 0x0000 (s.setMac (c.p 0) { s.mac (c.p 0) with
      qb := tput {} (s.mac (c.p 0)).qb (16 * c.p 1 + c.fn) { tget {} (s.mac (c.p 0)).qb (16 * c.p 1 + c.fn) with next := some (c.p 3, c.p 2) } }))) ∧
    (∀ d r u, Ready s .gatesLoad id c → readMem s (c.p 2) (8 * c.p 1) = (r, .ok d) →
      u = r.setMac (c.p 0) { r.mac (c.p 0) with pend := some ⟨gateEntries d (c.p 1), c.p 3⟩ } →
      Machine.exec (.gatesLoad id) s = .next (finish0 id 0x0000 { u with tb := { u.tb with
        armed := (r.tb.armed.filter fun e => e.owner != .gate (c.p 0)) ++ [⟨.gate (c.p 0), c.p 3, decide (c.p 3 ≤ r.now), r.tb.ticks + 1⟩] } })) ∧
    (∀ (who k : Nat) (val : Word), s.power.running = true → who = 16 ∨ who = 17 → tget 0 s.own.devs 0x0C ≠ 0 →
      (k < 4096 → val.toNat % 32 ≠ s.reg .prsTmap 0 k → Machine.exec (.tenantMapWrite who k val) s =
        .next ((s.setReg .prsTmap 0 k (val.toNat % 32)).setReg .prsVersion 0 0 (s.reg .prsVersion + 1))) ∧
      (k < 4096 → val.toNat % 32 = s.reg .prsTmap 0 k → Machine.exec (.tenantMapWrite who k val) s = .next s) ∧
      (∀ w, k < 64 → 0 < w → w < 10 → bit (s.reg .prsProfile0 0 k) 27 = true → Machine.exec (.profileWrite who k w val) s = .next s) ∧
      (k < 64 → bit (s.reg .prsProfile0 0 k) 27 = false → val.toNat % 65536 ≠ s.reg .prsProfile1 0 k → Machine.exec (.profileWrite who k 1 val) s =
        .next ((s.setReg .prsProfile1 0 k (val.toNat % 65536)).setReg .prsVersion 0 0 (s.reg .prsVersion + 1)))) ∧
    (∀ (k : Nat) (val : Word), s.power.running = true → t < 16 → tget 0 s.own.devs 0x0C ≠ 0 →
      (k < 4128 → Machine.exec (.tenantMapWrite t k val) s = .next s) ∧
      (∀ w, k < 64 → w < 10 → Machine.exec (.profileWrite t k w val) s = .next s) ∧
      (∀ ok, m < 8 → Machine.exec (.ethEnableWrite t m val ok) s = .next s))

/-- Ports and reception (R345 to R349, R357, R363): a MAC that is enabled with an accepted module gains link, and one that loses it sets ETH.ERR
bit 1; enabling a MAC whose module cannot be used sets bit 0 and accepts no module; a frame with a bad FCS or of a length outside the limits is counted
in ERR_COUNT, a servo message joins the servo's queue with its arrival time, a frame with no tenant is counted in NO_TENANT, a red one in
RED; another frame of a tenant, or a datagram of the transport, is buffered with its arrival time while its class is within its share, a yellow
one while that stands at three quarters at most, and is dropped and counted otherwise; a PFC frame pauses its classes; the policers refill when
their microsecond is over, with new values after it. -/
def Obligations.Net_Reception : Prop :=
  ∀ (s u : State) (m : Nat), s.power.running = true → m < 32 →
    (macOn s m = true → bit (s.reg .ethSts (m / 4)) 6 = true →
      Machine.exec (.macLinkChange m true) s = .next (s.orReg .ethSts (m / 4) 0 (2 ^ (2 + m % 4)))) ∧
    (macOn s m = false → Machine.exec (.macLinkChange m true) s = .next s) ∧
    (bit (s.reg .ethSts (m / 4)) (2 + m % 4) = true → Machine.exec (.macLinkChange m false) s =
      .next (stickyRec 1 none 0 .ethErr (m / 4) 0 2 (s.setField .ethSts (m / 4) 0 (2 + m % 4) (2 + m % 4) 0))) ∧
    (∀ val : Word, m < 8 → portMode s m = 0 → s.reg .ethCtrl m % 16 = 0 → bit val.toNat 0 = true → bits val.toNat 29 16 = 1518 →
      u = (s.setReg .ethCtrl m 0 (val.toNat % 16 + bits val.toNat 15 8 * 256 + 1518 * 65536)).setField .ethSts m 0 5 2
        (bits (s.reg .ethSts m) 5 2 &&& 1) →
      Machine.exec (.ethEnableWrite 18 m val true) s = .next (u.setField .ethSts m 0 6 6 1) ∧
      Machine.exec (.ethEnableWrite 18 m val false) s =
        .next (stickyRec 1 none 0 .ethErr m 0 1 ((u.setField .ethSts m 0 6 6 0).setField .ethSts m 0 5 2 0))) ∧
    (∀ f, macUp s m = false → Machine.exec (.frameReceive m f) s = .next s) ∧
    (∀ f, macUp s m = true → f.length < 64 ∨ maxFrame s (m / 4) < f.length ∨ leNat (f.drop (f.length - 4)) ≠ crc32 (f.take (f.length - 4)) →
      Machine.exec (.frameReceive m f) s = .next (s.count .ethErrCount (m / 4) 0 1)) ∧
    (∀ f g : Bytes, macUp s m = true → 64 ≤ f.length → f.length ≤ maxFrame s (m / 4) → g = f.take (f.length - 4) →
      leNat (f.drop (f.length - 4)) = crc32 g →
      (be16 g 12 = 0x8808 → be16 g 14 = 1 → Machine.exec (.frameReceive m f) s = .next (s.count .ethErrCount (m / 4) 0 1)) ∧
      (be16 g 12 = 0x8808 → be16 g 14 = 0x0101 → Machine.exec (.frameReceive m f) s = .next (pfcReceive m g s)) ∧
      (be16 g 12 ≠ 0x8808 →
        (isPtp (parse g) = true → Machine.exec (.frameReceive m f) s =
          .next { s with net := { s.net with ptp := s.net.ptp ++ [⟨m, g, s.tb.master.toNat / 2 ^ 16⟩] } }) ∧
        (isPtp (parse g) = false → (parse g).dport = some (s.reg .ftUdpPort % 65536) →
          (occupancy s m (frameClass g) + g.length ≤ classShare s m → Machine.exec (.frameReceive m f) s =
            .next (pfc m (frameClass g) { s with net := { s.net with frames := s.net.frames ++
              [{ mac := m, bytes := g, time := s.tb.master.toNat / 2 ^ 16, cls := frameClass g, colour := 0, tenant := 0, ft := true }] } })) ∧
          (classShare s m < occupancy s m (frameClass g) + g.length → Machine.exec (.frameReceive m f) s = .next (s.count .ethRxDrop (m / 4) 0 1))) ∧
        (isPtp (parse g) = false → (parse g).dport ≠ some (s.reg .ftUdpPort % 65536) →
          (mapTenant s m g = none → Machine.exec (.frameReceive m f) s = .next (s.count .ethNoTenant (m / 4) 0 1)) ∧
          (∀ t, mapTenant s m g = some t →
            (police t g s = (u, 2) → Machine.exec (.frameReceive m f) s = .next (u.count .prsRed 0 t 1)) ∧
            (∀ col, police t g s = (u, col) → col ≠ 2 →
              (occupancy u m (frameClass g) + g.length ≤ classShare u m → (col = 1 → 4 * occupancy u m (frameClass g) ≤ 3 * classShare u m) →
                Machine.exec (.frameReceive m f) s = .next (pfc m (frameClass g) { u with net := { u.net with frames := u.net.frames ++
                  [{ mac := m, bytes := g, time := u.tb.master.toNat / 2 ^ 16, cls := frameClass g, colour := col, tenant := t }] } })) ∧
              (classShare u m < occupancy u m (frameClass g) + g.length ∨ (col = 1 ∧ 3 * classShare u m < 4 * occupancy u m (frameClass g)) →
                Machine.exec (.frameReceive m f) s = .next (ingressDrop t m false g u))))))) ∧
    (s.tb.ticks < s.net.polDue → Machine.exec .policerRefill s = .next s) ∧
    (∀ t x off, s.net.polDue ≤ s.tb.ticks → s.net.policers = [(t, x)] → off = (x.c.rate == 0 && x.p.rate == 0) →
      ∃ v, Machine.exec .policerRefill s = .next v ∧
        v.policer t = { aware := x.next.getD x.aware, next := none, c := fillIf off (refill 1000000 false x.c), p := fillIf off (refill 1000000 false x.p) } ∧
        s.tb.ticks < v.net.polDue)

/-- Frames on their way (R350, R354, R355, R359, R360, R362, R365 to R368): the oldest buffered frame enters a pipeline while fewer than 1,024 are
there, judged by the tables then current; each is released in the order of its MAC and goes where its verdict says; a stream places a payload below
CONSUMED + BYTES and not before; a completed record counts and signals; CONSUMED moves forward up to OFFSET only; a version that nothing
carries retires; the gates follow their list; a MAC with no eligible queue sends nothing, and another sends the head that the deficit round robin
picks and pays for it from both buckets. -/
def Obligations.Net_Frames : Prop :=
  ∀ (s u : State) (m st t : Nat) (f : Frame) (rest : List Frame), s.power.running = true → m < 32 → st < 256 →
    (takeFirst (fun f => !f.piped) s.net.frames = some (f, rest) → (s.net.frames.filter inPipes).length < 1024 → f.ft = false → mapTenant s f.mac f.bytes = some t →
      u = { s with net := { s.net with
        frames := rest ++ [{ f with
          piped := true, version := s.reg .prsVersion, tenant := t
          profile := (judge s t f.mac f.bytes).1, verdict := (judge s t f.mac f.bytes).2 }]
        pipe := (s.net.pipe + 1) % 8 } } →
      Machine.exec .parseHandoff s = .next (pfc f.mac f.cls u)) ∧
    (takeFirst (fun f => !f.piped) s.net.frames = some (f, rest) → (s.net.frames.filter inPipes).length < 1024 → f.ft = true →
      u = { s with net := { s.net with
        frames := rest ++ [{ f with piped := true, version := s.reg .prsVersion, tenant := 0, profile := 0xFF, verdict := .transport }]
        pipe := (s.net.pipe + 1) % 8 } } →
      Machine.exec .parseHandoff s = .next (pfc f.mac f.cls u)) ∧
    (1024 ≤ (s.net.frames.filter inPipes).length → Machine.exec .parseHandoff s = .next s) ∧
    (takeFirst (fun f => f.mac == m && inPipes f) s.net.frames = some (f, rest) → u = { s with net := { s.net with frames := rest } } →
      (f.verdict = .transport → Machine.exec (.reorderRelease m) s = .next { u with net := { u.net with ftIn := s.net.ftIn ++ [f] } }) ∧
      (f.verdict = .noTenant → Machine.exec (.reorderRelease m) s = .next (u.count .ethNoTenant (m / 4) 0 1)) ∧
      (f.verdict = .noMatch → Machine.exec (.reorderRelease m) s = .next (u.count .prsNomatch 0 f.tenant 1)) ∧
      (f.verdict = .drop → Machine.exec (.reorderRelease m) s = .next u) ∧
      (∀ k rule, f.verdict = .queue k rule → Machine.exec (.reorderRelease m) s = .next (rxDeliver f (8 * f.tenant + k) 0 rule u)) ∧
      (∀ cause rule, f.verdict = .slow cause rule → cause ≠ 7 → Machine.exec (.reorderRelease m) s = .next (slowDeliver f cause rule u)) ∧
      (∀ rule, f.verdict = .slow 7 rule → Machine.exec (.reorderRelease m) s = .next (slowDeliver f 7 rule (strmErrSet (longStream u f rule) 8 u))) ∧
      (∀ x rule, f.verdict = .stream x rule → (s.stream x).isOpen = true →
        Machine.exec (.reorderRelease m) s = .next { u with net := { u.net with frames := rest ++ [{ f with waiting := true }] } }) ∧
      (∀ x rule, f.verdict = .stream x rule → (s.stream x).isOpen = false → Machine.exec (.reorderRelease m) s = .next (pfc m f.cls (strmDrop x u)))) ∧
    (∀ x pay, takeFirst (frameWaits st) s.net.frames = some (f, rest) → x = s.stream st → x.owner = some t → x.isOpen = true → x.held = false → x.closing = none →
      pay = f.bytes.drop ((parse f.bytes).p.getD 0) →
      (permits s (tenReq t 0x213) x.dst x.bytes true = true →
        (s.reg .strmConsumed 0 st + x.bytes < s.reg .strmOffset 0 st + pay.length → Machine.exec (.streamPlace st) s = .next s) ∧
        (s.reg .strmOffset 0 st + pay.length ≤ s.reg .strmConsumed 0 st + x.bytes → ∀ v, v = { s with net := { s.net with frames := rest } } →
          u = ringWrite x.dst x.bytes (s.reg .strmOffset 0 st) pay (if streamMulti v st then varCount t none v else v) →
          Machine.exec (.streamPlace st) s = .next (pfc f.mac f.cls ((u.setReg .strmOffset 0 st (s.reg .strmOffset 0 st + pay.length)).setStream st { x with
            tail := (matchRun x.pat x.tail pay 0).1, recs := x.recs + (matchRun x.pat x.tail pay 0).2 })))) ∧
      (permits s (tenReq t 0x213) x.dst x.bytes true = false → tableUe s (tenReq t 0x213) x.dst x.bytes = false →
        Machine.exec (.streamPlace st) s = .next (strmErrSet st 2 (closeStream st s)))) ∧
    ((s.stream st).owner = some t → 0 < (s.stream st).recs →
      u = (s.setStream st { s.stream st with recs := (s.stream st).recs - 1 }).count .strmRecords 0 st 1 →
      Machine.exec (.streamRecordComplete st) s = .next (closeReady st (tenSync t 0x213 (u.reg .strmSync 0 st) u)) ∧
      (bits (s.reg .strmSync 0 st) 31 24 = 0 → (s.stream st).closing = none → closeReady st (tenSync t 0x213 (u.reg .strmSync 0 st) u) = u)) ∧
    (∀ (who : Nat) (val : BitVec 64), who < 19 → tget 0 s.own.devs 0x0C ≠ 0 →
      (16 ≤ who ∨ (s.stream st).owner = some who →
        (s.reg .strmConsumed 0 st ≤ val.toNat → val.toNat ≤ s.reg .strmOffset 0 st →
          Machine.exec (.consumedWrite who st val) s = .next (s.setReg .strmConsumed 0 st val.toNat)) ∧
        (val.toNat < s.reg .strmConsumed 0 st ∨ s.reg .strmOffset 0 st < val.toNat →
          Machine.exec (.consumedWrite who st val) s = .next (strmErrSet st 4 s))) ∧
      (who < 16 → (s.stream st).owner ≠ some who → Machine.exec (.consumedWrite who st val) s = .next s)) ∧
    (∀ ver, (∀ g, g ∈ s.net.frames → inPipes g = false) → Machine.exec (.ruleVersionRetire ver) s = .next
      { s with net := { s.net with sets := s.net.sets.filter fun r => !(r.version == ver && r.until_.isSome) } }) ∧
    (∀ g, (s.mac m).gates = some g → Machine.exec (.gateIntervalEnd m) s = .next (s.setMac m { s.mac m with entry := (gateAt g s.now).1 })) ∧
    ((s.mac m).gates = none → Machine.exec (.gateIntervalEnd m) s = .next s) ∧
    (s.tb.ticks < (s.mac m).due → Machine.exec (.shaperRefill m) s = .next s) ∧
    (∀ q b, (s.mac m).due ≤ s.tb.ticks → (s.mac m).qb = [(q, b)] → b.next = none → b.rate = 0 → b.level ≠ (b.burst * 8000000 : Nat) →
      ∃ v, Machine.exec (.shaperRefill m) s = .next v ∧ (tget {} (v.mac m).qb q).level = (b.burst * 8000000 : Nat) ∧ s.tb.ticks < (v.mac m).due) ∧
    (macUp s m = true → (List.range 128).any (eligible s m) = false → Machine.exec (.frameTransmit m) s = .next s) ∧
    (macUp s m = false → Machine.exec (.frameTransmit m) s = .next s) ∧
    (∀ x q d n v w, x = s.mac m → macUp s m = true → (List.range 128).any (eligible s m) = true → drr s m 32768 x.ptr x.visit x.deficit = some (q, d) →
      headLen s m q = some n →
      v = s.setMac m { x with
        ptr := q, visit := true, deficit := tput 0 d q (tget 0 d q - n)
        qb := tput {} x.qb q { tget {} x.qb q with level := (tget {} x.qb q).level - (((n + 20) * 8000000 : Nat) : Int) }
        cb := tput {} x.cb (q / 16) { tget {} x.cb (q / 16) with level := (tget {} x.cb (q / 16)).level - (((n + 20) * 8000000 : Nat) : Int) } } →
      (tget [] s.net.txq (m * 128 + q) = [] ∧ w = txDequeue m q v) ∨
        (∃ fr more, tget [] s.net.txq (m * 128 + q) = fr :: more ∧
          w = { v with wire := .frame m (withFcs fr) :: v.wire, net := { v.net with txq := tput [] v.net.txq (m * 128 + q) more } }) →
      (headLen w m q ≠ none → Machine.exec (.frameTransmit m) s = .next w) ∧
      (headLen w m q = none → Machine.exec (.frameTransmit m) s = .next (w.setMac m { w.mac m with
        deficit := tput 0 (w.mac m).deficit q 0, ptr := (q + 1) % 128, visit := false })))
/-- Telemetry (R492, R498 to R503, R507, R509, R510): COUNTERS_READ writes its header and the set's counters to host memory; ERRORS_READ of no
records reads nothing, and of some writes the caller's capture first; ERRORS_CLEAR ends the first capture; TRACE_SET takes its configuration from
memory; LOG_RING sets the ring; the oldest record of a path goes to the ring's tail with its PHASE, unless the ring is full, and the queue that it
leaves takes in what was held; HEAD frees what the host has read, and a HEAD past the tail is ignored with HEAD_BAD; the sideband's read of
offset 0 gives the status word, of 4 the first capture, of 0x44 the oldest record, which is removed, or zeros; the export sends up to 22 records
once they are due, within PPS, and nothing while off. -/
def Obligations.Telemetry_Paths : Prop :=
  ∀ (s : State) (id : Nat) (c : Cmd) (i : Nat) (r : Rec) (k : Nat) (x : Path),
    (∀ l : List Nat, Ready s .countersRead id c → l = counterSet s c.fn (c.p 0) → (s.host c.fn).bme = true →
      (∀ j, j < 8 + 8 * l.length → tget .unknown s.hostMem (hostKey (fnPort s c.fn) (c.p 1 + j)) ≠ .bad) →
      Machine.exec (.countersRead id) s = .next (finish0 id 0x0000
        { s with hostMem := hostPut s.hostMem (fnPort s c.fn) (c.p 1) (leBytes 2 (c.p 0) ++ leBytes 2 l.length ++ zeros 4 ++ l.flatMap (leBytes 8)) })) ∧
    (Ready s .countersRead id c → (s.host c.fn).bme = false → Machine.exec (.countersRead id) s = .next (finish0 id 0x0601 s)) ∧
    (Ready s .errorsRead id c → c.p 0 = 0 → Machine.exec (.errorsRead id) s = .next (finish0 id 0x0000 s)) ∧
    (∀ l, Ready s .errorsRead id c → c.p 0 ≠ 0 → l = (errorLogOf s c.fn).take (c.p 0 - 1) → (s.host c.fn).bme = true →
      (∀ j, j < (firstCapture s c.fn ++ l.flatMap (recBytes false)).length → tget .unknown s.hostMem (hostKey (fnPort s c.fn) (c.p 1 + j)) ≠ .bad) →
      Machine.exec (.errorsRead id) s = .next (finish id 0x0000 (1 + l.length) ((l.filter (·.kind == 0x800B)).map (·.count)).sum 0 0
        { s with hostMem := hostPut s.hostMem (fnPort s c.fn) (c.p 1) (firstCapture s c.fn ++ l.flatMap (recBytes false)) })) ∧
    (Ready s .errorsRead id c → c.p 0 ≠ 0 → (s.host c.fn).bme = false → Machine.exec (.errorsRead id) s = .next (finish0 id 0x0601 s)) ∧
    (Ready s .errorsClear id c → ∃ t, Machine.exec (.errorsClear id) s = .next (finish0 id 0x0000 (flushPath 20 t)) ∧ t.reg .errFirstCtl = 0 ∧
      t.path 20 = { s.path 20 with queue := [] }) ∧
    (∀ t a, Ready s .traceSet id c → readMem s (c.p 0) 64 = (t, .error a) → Machine.exec (.traceSet id) s = .next (failAddr id (.ue a) t)) ∧
    (∀ t b, Ready s .traceSet id c → readMem s (c.p 0) 64 = (t, .ok b) → Machine.exec (.traceSet id) s = .next (finish0 id 0x0000 { t with tel := { t.tel with
      traces := tput {} t.tel.traces c.fn { points := fld b 0 4, lodes := fld b 4 4, divide := fld b 8 2, dest := fld b 10 1 } } })) ∧
    (Ready s .logRing id c → Machine.exec (.logRing id) s = .next (finish0 id 0x0000 { s with tel := { s.tel with
      rings := tput {} s.tel.rings c.fn { on := true, base := c.p 2, log2 := c.p 0, vector := c.p 1 } } })) ∧
    (s.power.running = true → i < 18 → x = s.path i →
      (∀ g rest, g = s.logRing i → x.queue = (r, k) :: rest → g.on = true → (s.host i).bme = true → g.used < 2 ^ g.log2 →
        (∀ j, j < 64 → tget .unknown s.hostMem (hostKey (fnPort s i) (g.base + 64 * g.tail + j)) ≠ .bad) →
        Machine.exec (.logRingWrite i) s = .next (signalVector i g.vector (flushPath i { s with
          hostMem := hostPut s.hostMem (fnPort s i) (g.base + 64 * g.tail) (recBytes g.phase r)
          tel := { s.tel with
            rings := tput {} s.tel.rings i { g with
              tail := if g.tail + 1 = 2 ^ g.log2 then 0 else g.tail + 1, used := g.used + 1, phase := if g.tail + 1 = 2 ^ g.log2 then !g.phase else g.phase }
            paths := tput {} s.tel.paths i { x with queue := rest } } }))) ∧
      (x.queue = [] → Machine.exec (.logRingWrite i) s = .next s) ∧
      ((s.logRing i).on = true → 2 ^ (s.logRing i).log2 ≤ (s.logRing i).used → Machine.exec (.logRingWrite i) s = .next s) ∧
      (∀ (val : Word) (h : Nat), h = val.toNat % 65536 →
        (∀ n, n = (h + 2 ^ (s.logRing i).log2 - (s.logRing i).head) % 2 ^ (s.logRing i).log2 → h < 2 ^ (s.logRing i).log2 → n ≤ (s.logRing i).used →
          Machine.exec (.logHeadWrite i i val) s = .next (s.setLogRing i { s.logRing i with head := h, used := (s.logRing i).used - n })) ∧
        (2 ^ (s.logRing i).log2 ≤ h → Machine.exec (.logHeadWrite i i val) s = .next (s.orReg .errPathSts 0 i 0x2000)) ∧
        (∀ who, who < 16 → who ≠ i → Machine.exec (.logHeadWrite who i val) s = .next s))) ∧
    (s.power.running = true → x = s.path 18 →
      (∀ rest, x.queue = (r, k) :: rest → Machine.exec (.sidebandRecordRead 0x44) s = .next (flushPath 18 { s with
        wire := .sideband (recBytes false r) :: s.wire, tel := { s.tel with paths := tput {} s.tel.paths 18 { x with queue := rest } } })) ∧
      (x.queue = [] → Machine.exec (.sidebandRecordRead 0x44) s = .next { s with wire := .sideband (zeros 64) :: s.wire }) ∧
      Machine.exec (.sidebandRecordRead 4) s = .next { s with wire := .sideband (firstCapture s 16) :: s.wire } ∧
      Machine.exec (.sidebandRecordRead 0) s = .next { s with wire := .sideband (leBytes 4 (x.queue.length + (if sidebandHas s 0 then 256 else 0) +
        (if alertPin s then 512 else 0) + (if faultPin s then 1024 else 0))) :: s.wire }) ∧
    (s.power.running = true → bit (s.reg .exportCtl) 0 = false → Machine.exec .exportPacketSend s = .next s) ∧
    (∀ q n, s.power.running = true → bit (s.reg .exportCtl) 0 = true → macUp s (bits (s.reg .exportCtl) 5 1) = true → q = (s.path 19).queue →
      (22 ≤ q.length ∨ ∃ r k rest, q = (r, k) :: rest ∧ k + 10 * usTicks ≤ s.tb.ticks) →
      n = (if s.tel.exportMs = s.tb.ticks / msTicks then s.tel.exportCnt else 0) → n < bits (s.reg .exportCtl) 28 13 →
      ∃ t, Machine.exec .exportPacketSend s = .next (flushPath 19 t) ∧ t.path 19 = { s.path 19 with queue := q.drop 22 } ∧
        t.tel.exportNo = (s.tel.exportNo + 1) % 2 ^ 32 ∧ t.tel.exportMs = s.tb.ticks / msTicks ∧ t.tel.exportCnt = n + 1 ∧
        t.wire = .exported (bits (s.reg .exportCtl) 5 1) (bits (s.reg .exportCtl) 8 6) (s.reg .exportDmac) (s.reg .exportSmac) (ftAddr s (s.reg .seamFdid))
          (if ftV6 s then beBytes 16 (s.reg .exportDip) else beBytes 4 (s.reg .exportDip)) (s.reg .exportPort) (exportPayload s (q.take 22)) :: s.wire)

/-- Admission (R502), for each of the 21 paths with its Q entries, A of them reserved, and n occupied: an ALARM enters while n < Q, an ERROR
while n < Q - A, an EVENT while n < 3Q/4 and a TRACE while n < Q/2. Beyond that an ALARM is held pending and counted, one pending record per
KIND and SOURCE, the latest record with the COUNT accumulated, and it enters as soon as n < Q, ahead of the pending MORE and GAP records (the
operation flushPath, which every removal from a queue ends with); an ERROR is merged into the MORE accumulator and counted in MERGED; an EVENT
or TRACE is added to the GAP accumulator and counted in DROP, and where n + 1 < 3Q/4 the GAP record enters at once (R503). The premises on the
pending records say what R502 and R503 let a state hold; counts stop at their greatest value. -/
def Obligations.Record_Admission : Prop :=
  ∀ (s : State) (p n Q A : Nat) (r : Rec) (x : Path),
    (p < 18 ∧ Q = 128 ∧ A = 8 ∨ p = 18 ∧ Q = 64 ∧ A = 8 ∨ p = 19 ∧ Q = 256 ∧ A = 8 ∨ p = 20 ∧ Q = 1024 ∧ A = 16) →
    x = s.path p → n = x.queue.length →
    ((n < Q → x.alarms = []) → (n < Q - A → x.more = none) → (n + 1 < 3 * Q / 4 → x.gap = none) →
      ((r.cls = 0 ∧ n < Q ∨ r.cls = 1 ∧ n < Q - A ∨ r.cls = 2 ∧ n < 3 * Q / 4 ∨ r.cls = 3 ∧ n < Q / 2) →
        (admitIn p r s).path p = { x with queue := x.queue ++ [(r, s.tb.ticks)] }) ∧
      (r.cls = 0 → Q ≤ n →
        (admitIn p r s).reg .errPathAlarm 0 p = satAdd 0xFFFFFFFF (s.reg .errPathAlarm 0 p) 1 ∧
        ((∀ z ∈ x.alarms, z.kind ≠ r.kind ∨ z.source ≠ r.source) → (admitIn p r s).path p = { x with alarms := x.alarms ++ [r] }) ∧
        (∀ a y b, x.alarms = a ++ y :: b → y.kind = r.kind → y.source = r.source →
          (∀ z ∈ a ++ b, z.kind ≠ r.kind ∨ z.source ≠ r.source) →
          (admitIn p r s).path p = { x with alarms := a ++ { r with count := satAdd 0xFFFFFFFF y.count r.count } :: b })) ∧
      (r.cls = 1 → Q - A ≤ n →
        (admitIn p r s).reg .errPathMerged 0 p = satAdd 0xFFFFFFFF (s.reg .errPathMerged 0 p) 1 ∧
        (x.more = none → (admitIn p r s).path p = { x with more := some ⟨r.count, r.seq, r.seq⟩ }) ∧
        (∀ a, x.more = some a → (admitIn p r s).path p = { x with more := some ⟨satAdd 0xFFFFFFFF a.count r.count, a.first, r.seq⟩ })) ∧
      (r.cls = 2 ∧ 3 * Q / 4 ≤ n ∨ r.cls = 3 ∧ Q / 2 ≤ n →
        (admitIn p r s).reg .errPathDrop 0 p = satAdd 0xFFFFFFFF (s.reg .errPathDrop 0 p) 1 ∧
        (3 * Q / 4 ≤ n + 1 → x.gap = none → (admitIn p r s).path p = { x with gap := some ⟨r.count, r.seq, r.seq⟩ }) ∧
        (∀ a, x.gap = some a → (admitIn p r s).path p = { x with gap := some ⟨satAdd 0xFFFFFFFF a.count r.count, a.first, r.seq⟩ }) ∧
        (n + 1 < 3 * Q / 4 → (admitIn p r s).path p =
          { x with queue := x.queue ++ [(accRec s p ⟨r.count, r.seq, r.seq⟩ false, s.tb.ticks)] }))) ∧
    (∀ y l, x.alarms = y :: l → n + 1 = Q → (flushPath p s).path p = { x with queue := x.queue ++ [(y, s.tb.ticks)], alarms := l })

/-- Power (R470 to R475, R477, R487 to R489): OP_POINT replies at once where the point already holds and no change is under way, and otherwise once it
is reached; a request above 1.65 GHz or 0.80 V is not applied and sets VLIMIT, any other takes effect unless the clamp holds or a regulator that
must raise its voltage does not acknowledge; the PM core's sample records power, temperatures and throttling; at 105 °C the clamp takes the
lowest point, at 115 °C every clock stops; the clamp releases after 10 ms below 100 °C, and a safe point that waited is taken then; CLOCK_LOCK
replies at once where nothing changes, and its sequence ends with LOCKED, the lapse of each running group and the reply; LIMITS_READ writes the
envelope record; DEEP is refused where the state is not legal, and its entry and exit end with their replies; with PWR_GOOD low every clock
stops. -/
def Obligations.Power_Commands : Prop :=
  ∀ (s t : State) (id : Nat) (c : Cmd),
    (∀ p, Ready s .opPoint id c → c.p 0 = p → t = { s with power := { s.power with wantPoint := p } } →
      (s.power.point = p ∧ atPoint p (cclkMhz s) = true ∧ s.power.change = none → Machine.exec (.opPoint id) s = .next (finish0 id 0x0000 t)) ∧
      (¬ (s.power.point = p ∧ atPoint p (cclkMhz s) = true ∧ s.power.change = none) → Machine.exec (.opPoint id) s =
        .next (wantPoint (working id { t with power := { t.power with opCmds := s.power.opCmds ++ [id] } })))) ∧
    (Ready s .clockLock id c →
      (s.power.locking ≠ none → Machine.exec (.clockLock id) s = .next s) ∧
      (s.power.locking = none → clocksLocked s = (c.p 0 == 1) → Machine.exec (.clockLock id) s = .next (finish0 id 0x0000 s)) ∧
      (s.power.locking = none → clocksLocked s = false → c.p 0 = 1 → Machine.exec (.clockLock id) s =
        .next (working id { (s.orReg .clkSts 0 0 2) with power := { s.power with locking := some (id, true) } })) ∧
      (s.power.locking = none → clocksLocked s = true → c.p 0 = 0 → crossGroup s = false → Machine.exec (.clockLock id) s =
        .next (working id { (s.orReg .clkSts 0 0 2) with power := { s.power with locking := some (id, false) } })) ∧
      (s.power.locking = none → clocksLocked s = true → c.p 0 = 0 → crossGroup s = true →
        Machine.exec (.clockLock id) s = .next (finish id 0x0201 0x10 1 0 0 s))) ∧
    (Ready s .limitsRead id c → (s.host c.fn).bme = true → (∀ i, i < 64 → tget .unknown s.hostMem (hostKey (fnPort s c.fn) (c.p 0 + i)) ≠ .bad) →
      Machine.exec (.limitsRead id) s =
        .next (finish0 id 0x0000 { s with hostMem := hostPut s.hostMem (fnPort s c.fn) (c.p 0) (limitsRecord s) })) ∧
    (Ready s .limitsRead id c → (s.host c.fn).bme = false → Machine.exec (.limitsRead id) s = .next (finish0 id 0x0601 s)) ∧
    (Ready s .deep id c → c.p 0 = 1 → deepLegal s = false → Machine.exec (.deep id) s = .next (finish id 0x0201 0x18 0 0 0 s)) ∧
    (Ready s .deep id c → c.p 0 = 1 → deepLegal s = true → ∃ u, Machine.exec (.deep id) s = .next u ∧ u.power.dstate = .entering ∧
      u.power.deepCmd = some id ∧ ∀ n, n < 32 → u.lode n = { s.lode n with idle := true, wake := none }) ∧
    (Ready s .deep id c → c.p 0 ≠ 1 → Machine.exec (.deep id) s = .next (finish0 id 0x0000 s)) ∧
    (s.power.running = true → findCmd s id = some c → cmdOp c = some .deep → c.phase = .ready → unitTurn s c = true → s.power.dstate ≠ .on →
      (c.p 0 = 1 → Machine.exec (.deep id) s = .next (conflict id 0x18 0 (dCode s.power.dstate) 0 s)) ∧
      (c.p 0 ≠ 1 → t = wakeDeep (working id s) →
        Machine.exec (.deep id) s = .next { t with power := { t.power with exitCmds := t.power.exitCmds ++ [id] } })) ∧
    (s.power.running = true →
      (s.power.dstate = .entering → (∃ u, u.power.dstate = .deep ∧ u.power.deepCmd = none ∧ (∀ n, n < 12 → u.memc n = { s.memc n with slot := [], long := [] }) ∧
        (s.power.deepCmd = some id → Machine.exec .deepEntryDone s = .next (finish0 id 0x0000 u)) ∧
        (s.power.deepCmd = none → Machine.exec .deepEntryDone s = .next u))) ∧
      (s.power.dstate ≠ .entering → Machine.exec .deepEntryDone s = .next s) ∧
      (∀ u, s.power.dstate = .exiting → u = (List.range 12).foldl (fun s c => recalRest c s) { s with power := { s.power with dstate := .on, exitCmds := [] } } →
        ∃ v, Machine.exec .deepExitDone s = .next (s.power.exitCmds.foldl (fun s id => finish0 id 0x0000 s)
            (s.cmd.cmds.foldl (fun s c => if c.phase = .working ∧ cmdOp c = some .lodePower then finish0 c.id 0x0000 s else s) v)) ∧
          v.memctl = u.memctl ∧ v.regs = u.regs ∧ v.power.dstate = .on ∧ v.power.exitCmds = [] ∧
          ∀ n, n < 32 → v.lode n = { s.lode n with idle := false, wake := none }) ∧
      (s.power.dstate ≠ .exiting → Machine.exec .deepExitDone s = .next s) ∧
      (s.power.locking = none → Machine.exec .clockLockDone s = .next s) ∧
      (∀ lock, s.power.locking = some (id, lock) → t = { (s.setField .clkSts 0 0 1 1 0) with power := { s.power with locking := none } } →
        (s.power.change ≠ none → clamped s = false → Machine.exec .clockLockDone s = .next s) ∧
        (s.power.change = none ∨ clamped s = true → (lock = false ∧ crossGroup t = true → Machine.exec .clockLockDone s = .next (finish id 0x0201 0x10 1 0 0 t)) ∧
          (lock = true ∨ crossGroup t = false → Machine.exec .clockLockDone s = .next (finish0 id 0x0000
            ((t.groups.foldl (fun s (_, g) => if g.st = .running then groupLapse g s else s) t).setField .clkSts 0 0 0 0 (if lock then 1 else 0)))))) ∧
      (∀ mhz mv ack, pmRuns s = true →
        (1650 < mhz ∨ 800 < mv → Machine.exec (.frequencySwitch mhz mv ack) s = .next (s.orReg .pwrErr 0 0 8)) ∧
        (mhz ≤ 1650 → mv ≤ 800 → s.power.change = none → Machine.exec (.frequencySwitch mhz mv ack) s = .next s) ∧
        (∀ want, s.power.change = some want → mhz ≤ 1650 → mv ≤ 800 → mhz = want ∨ (s.power.wantPoint = 1 ∧ atPoint 1 mhz = true ∧ atPoint 1 want = true) →
          clamped s = false → vcdMin mhz ≤ mv → t = railsSet mv ack s →
          (ack = true ∨ mhz ≤ cclkMhz t → Machine.exec (.frequencySwitch mhz mv ack) s = .next (frequencyTaken mhz t)) ∧
          (ack = false → cclkMhz t < mhz → Machine.exec (.frequencySwitch mhz mv ack) s = .next t))) ∧
      (s.power.change = some 1500 → pmRuns s = true → clamped s = false → s.groups = [] → s.power.point = 0 → s.power.wantPoint = 0 → s.power.opCmds = [id] →
        ∃ u, Machine.exec (.frequencySwitch 1500 700 true) s = .next (finish0 id 0x0000 u) ∧ cclkMhz u = 1500 ∧ u.power.vcd0 = 700 ∧ u.power.vcd1 = 700 ∧
          u.power.change = none ∧ u.power.opCmds = [] ∧ u.power.point = 0) ∧
      (∀ w a b d avg l, pmRuns s = true → s.power.sampleDue ≤ s.tb.ticks → l = (w :: s.power.samples).take 10 → avg = pmMean w s →
        ∃ u, Machine.exec (.pmSample w a b d) s = .next u ∧ u.reg .pwrPower = min avg 2047 ∧
          u.power.samples = l ∧ u.power.sampleDue = s.tb.ticks + 100 * usTicks ∧
          (100 ≤ max a (max b d) → u.power.hotAt = s.tb.ticks ∧ throttled u = true) ∧ (max a (max b d) < 98 → throttled u = false) ∧
          (98 ≤ max a (max b d) → max a (max b d) < 100 → throttled u = throttled s) ∧
          (clamped s = true ∨ safeHeld s = true → u.power.change = s.power.change) ∧
          (clamped s = false → safeHeld s = false → 100 ≤ max a (max b d) ∨ s.reg .pwrLimit < avg → 750 < cclkMhz s →
            u.power.change = some (max 750 (cclkMhz s - 25)))) ∧
      (∀ w a b d, s.tb.ticks < s.power.sampleDue → Machine.exec (.pmSample w a b d) s = .next s) ∧
      (∀ deg : Int, 105 ≤ deg → clamped s = false →
        Machine.exec (.thermalClamp deg) s = .next (limitRec 0 ((lapseAll 1 (clampPoint s)).countTv 7 1)) ∧
        (s.groups = [] → ∃ u, Machine.exec (.thermalClamp deg) s = .next u ∧ u.power.point = 3 ∧
          cclkMhz u = 750 ∧ clamped u = true ∧ bit (u.reg .pwrErr) 0 = true ∧ u.power.change = none ∧ u.power.hotAt = s.tb.ticks)) ∧
      (∀ deg : Int, deg < 105 ∨ clamped s = true → Machine.exec (.thermalClamp deg) s = .next s) ∧
      (∀ cool, 10 * msTicks ≤ cool → s.power.hotAt + cool ≤ s.tb.ticks → clamped s = true → t = s.setField .pwrSts 0 0 11 11 0 →
        (s.power.safePending = false → Machine.exec (.clampRelease cool) s = .next { t with power := { s.power with point := s.power.wantPoint } }) ∧
        (s.power.safePending = true → pmRuns s = true → Machine.exec (.clampRelease cool) s = .next (wantPoint (goSafe t))) ∧
        (s.power.safePending = true → pmRuns s = false → Machine.exec (.clampRelease cool) s = .next (goSafe t))) ∧
      (∀ cool, cool < 10 * msTicks ∨ s.tb.ticks < s.power.hotAt + cool ∨ clamped s = false → Machine.exec (.clampRelease cool) s = .next s) ∧
      (∀ deg : Int, 115 ≤ deg → Machine.exec (.thermalTrip deg) s =
        .next { s with power := { s.power with running := false, tripped := true }, pins := { s.pins with thermTrip := true } }) ∧
      (∀ deg : Int, deg < 115 → Machine.exec (.thermalTrip deg) s = .next s)) ∧
    Machine.exec .powerGoodFall s = .next { s with power := { s.power with running := false }, pins := { s.pins with pwrGood := false } }
/-- BAR2 and translation (R425 to R430): a read that the entry, the window and the region allow returns the bytes, one that no entry maps or no
region allows all ones and sets ERR bit 0; a write likewise is performed or discarded, line by line; a read of a codeword that is uncorrectable is a completer abort and sets ERR bit 1; an
access of several parts takes them in turn, and one that must wait for its memory wakes it; an inert virtual function reads zeros; a translation
entry is written from the function's own table, and one with a nonzero zero field is ignored and sets ERR bit 4. -/
def Obligations.Host_Aperture : Prop :=
  ∀ (s t : State) (p v off : Nat), s.power.running = true → p < 2 → 0 < v → v < 17 →
    (∀ fn len, v ≤ (tget {} s.ports p).numVfs → barFn s p v = some fn → 0 < len →
      (∀ a n, (apParts s fn off len).findSome? (apWaits s fn false) = some (a, n) → Machine.exec (.bar2Read p v off len) s = .next (wakeSpan a n s)) ∧
      ((apParts s fn off len).findSome? (apWaits s fn false) = none → Machine.exec (.bar2Read p v off len) s = .next (apRead fn (apParts s fn off len) s))) ∧
    (∀ fn data, barFn s p v = some fn → data ≠ [] →
      (∀ a n, (apParts s fn off data.length).findSome? (apWaits s fn true) = some (a, n) → Machine.exec (.bar2Write p v off data) s = .next (wakeSpan a n s)) ∧
      ((apParts s fn off data.length).findSome? (apWaits s fn true) = none →
        Machine.exec (.bar2Write p v off data) s = .next (apWrite fn (apParts s fn off data.length) data s))) ∧
    (∀ fn a len b, v ≤ (tget {} s.ports p).numVfs → barFn s p v = some fn → 0 < len → apParts s fn off len = [⟨some a, len, false⟩] → apOk s fn ⟨some a, len, false⟩ false = true →
      memWaits s a len = false → readMem s a len = (t, .ok b) →
      Machine.exec (.bar2Read p v off len) s = .next { t with wire := .bar2 fn (some b) :: t.wire }) ∧
    (∀ fn a len e, v ≤ (tget {} s.ports p).numVfs → barFn s p v = some fn → 0 < len → apParts s fn off len = [⟨some a, len, false⟩] →
      apOk s fn ⟨some a, len, false⟩ false = true → memWaits s a len = false → readMem s a len = (t, .error e) →
      Machine.exec (.bar2Read p v off len) s = .next (send (.bar2 fn none) (sticky (some fn) .hifFnErr fn 0 2 t))) ∧
    (∀ fn ad len, v ≤ (tget {} s.ports p).numVfs → barFn s p v = some fn → 0 < len → apParts s fn off len = [⟨ad, len, false⟩] → apOk s fn ⟨ad, len, false⟩ false = false →
      Machine.exec (.bar2Read p v off len) s = .next (send (.bar2 fn (some (List.replicate len 0xFF))) (s.orReg .hifFnErr fn 0 1))) ∧
    (∀ len, v ≤ (tget {} s.ports p).numVfs → portFn s p v = none → 0 < len → Machine.exec (.bar2Read p v off len) s = .next { s with wire := .bar2 (v - 1) (some (zeros len)) :: s.wire }) ∧
    (∀ fn a data, barFn s p v = some fn → data ≠ [] → apParts s fn off data.length = [⟨some a, data.length, false⟩] →
      apOk s fn ⟨some a, data.length, false⟩ true = true → memWaits s a data.length = false →
      Machine.exec (.bar2Write p v off data) s = .next (putLines (data.length / 64 + 2) a data s)) ∧
    (∀ fn ad ro data, barFn s p v = some fn → data ≠ [] → apParts s fn off data.length = [⟨ad, data.length, ro⟩] →
      apOk s fn ⟨ad, data.length, ro⟩ true = false → Machine.exec (.bar2Write p v off data) s = .next (s.orReg .hifFnErr fn 0 1)) ∧
    (∀ fn x len, bit (s.reg .hifCfg) 0 = true → 0 < len → off % 2 ^ 21 + len ≤ 2 ^ 21 → off < 2 ^ 33 → x = tget 0 (s.host fn).xlat (off / 2 ^ 21) →
      bit (s.reg .hifWinEn fn) (off / 2 ^ 29) = true → bit x 0 = true →
      apParts s fn off len = [⟨some (bits x 51 21 * 2 ^ 21 + off % 2 ^ 21), len, bit x 1⟩]) ∧
    (∀ (who i e : Nat) (val : BitVec 64), who < 19 → i < 18 → e < 4096 →
      (ownTable s who i = true → bits val.toNat 20 2 = 0 → bits val.toNat 63 52 = 0 →
        Machine.exec (.xlatEntryWrite who i e val) s = .next (s.setHost i { s.host i with xlat := tput 0 (s.host i).xlat e val.toNat })) ∧
      (ownTable s who i = true → bits val.toNat 20 2 ≠ 0 ∨ bits val.toNat 63 52 ≠ 0 →
        Machine.exec (.xlatEntryWrite who i e val) s = .next (s.orReg .hifFnErr i 0 0x10)) ∧
      (ownTable s who i = false → Machine.exec (.xlatEntryWrite who i e val) s = .next s))

/-- Ports and enables (R188, R421 to R424, R430, R432, R437, R484, R515): with Bus Master Enable clear nothing is sent; unmasking a vector whose message
is pending sends it; an upstream completion delivers its bytes and counts the link's replays, a timeout after 10 ms ends the read with an error; a link that goes down resets the PCIe configuration state of the port's
functions and is counted; a port trains from start-up step 9 with PERST deasserted; a configuration request before HOLD is answered with a retry;
a write of TEN_PORT that moves a tenant whose session is OPEN is ignored and sets HIF.ERR bit 0. -/
def Obligations.Host_Ports : Prop :=
  ∀ (s : State) (i p : Nat), s.power.running = true → i < 18 → p < 2 →
    Machine.exec (.busMasterEnableChange i false) s = .next (s.setHost i { s.host i with bme := false }) ∧
    (∀ on, Machine.exec (.busMasterEnableChange i on) s = .next (flushMsix i (s.setHost i { s.host i with bme := on }))) ∧
    (∀ on, Machine.exec (.memorySpaceEnableChange i on) s = .next (s.setHost i { s.host i with mse := on })) ∧
    (∀ vec, vec < 2048 → Machine.exec (.msiXUnmask i vec) s =
      .next (flushMsix i (s.setHost i { s.host i with msix := tmod {} (s.host i).msix vec fun e => { e with masked := false } }))) ∧
    Machine.exec (.msiXUnmask i 2048) s = .next (flushMsix i (s.setHost i { s.host i with funcMask := false })) ∧
    (∀ vec e, vec < 2048 → (s.host i).msix = [(vec, e)] → e.pending = true → (s.host i).funcMask = false → (s.host i).bme = true →
      Machine.exec (.msiXUnmask i vec) s = .next { s.setHost i { s.host i with
        msix := tput {} [(vec, { e with masked := false })] vec { e with masked := false, pending := false } } with wire := .msix i vec :: s.wire }) ∧
    (∀ n a data ok, (s.host i).bme = true → a + data.length ≤ 2 ^ 50 → ∃ u, Machine.exec (.upstreamCompletion ⟨i, n⟩ a data ok) s = .next u ∧
      (∀ k, k < data.length → tget .unknown u.hostMem (hostKey (fnPort s i) (a + k)) = if ok then .val (data.getD k 0) else .bad) ∧
      (u.host i).reads = (s.host i).reads.filter (fun r => (hostCells u (fnPort s i) r.1 r.2.1).contains .unknown) ∧
      u.regs = ((s.count .hifPortReplay (fnPort s i) 0 n).countTv 5 n).regs ∧ u.mem = s.mem ∧ u.cmd = s.cmd) ∧
    (∀ n a data ok, (s.host i).bme = false → ∃ u, Machine.exec (.upstreamCompletion ⟨i, n⟩ a data ok) s = .next u ∧ u.hostMem = s.hostMem ∧
      (u.host i).reads = (s.host i).reads.filter (fun r => !overlaps r.1 r.2.1 a data.length) ∧ u.mem = s.mem ∧ u.cmd = s.cmd) ∧
    (∀ a len, (s.host i).reads.find? (fun r => r.1 == a && r.2.1 == len) = none → Machine.exec (.upstreamTimeout i a len) s = .next s) ∧
    (∀ a len r, (s.host i).reads.find? (fun r => r.1 == a && r.2.1 == len) = some r →
      (s.tb.ticks < r.2.2 + 10 * msTicks → Machine.exec (.upstreamTimeout i a len) s = .next s) ∧
      (r.2.2 + 10 * msTicks ≤ s.tb.ticks → (s.host i).bme = false → Machine.exec (.upstreamTimeout i a len) s =
        .next (s.setHost i { s.host i with reads := (s.host i).reads.filter fun x => x != r })) ∧
      (r.2.2 + 10 * msTicks ≤ s.tb.ticks → (s.host i).bme = true → a + len ≤ 2 ^ 50 → ∃ u, Machine.exec (.upstreamTimeout i a len) s = .next u ∧
        u.host i = { s.host i with reads := (s.host i).reads.filter fun x => x != r } ∧
        ∀ k, k < len → tget .unknown u.hostMem (hostKey (fnPort s i) (a + k)) =
          if tget .unknown s.hostMem (hostKey (fnPort s i) (a + k)) = .unknown then .bad else tget .unknown s.hostMem (hostKey (fnPort s i) (a + k)))) ∧
    (linkUp s p = true → ∃ t, Machine.exec (.dlDown p) s = .next t ∧ t.reg .hifPortSts p = 0 ∧
      t.reg .hifPortLinkDowns p = satAdd 0xFFFFFFFF (s.reg .hifPortLinkDowns p) 1 ∧ t.mem = s.mem ∧ t.cmd = s.cmd ∧ t.cores = s.cores ∧
      ∀ fn, fn < 18 → fn ≠ 16 + (1 - p) → fnPort s fn = p → (t.host fn).bme = false ∧ (t.host fn).mse = false ∧ (t.host fn).msix = [] ∧ (t.host fn).reads = [] ∧
        (t.host fn).xlat = (s.host fn).xlat) ∧
    (linkUp s p = false → Machine.exec (.dlDown p) s = .next s) ∧
    (linkUp s p = true → Machine.exec (.pcieConfigRequest p) s = .next { s with wire := .config p (!(tget {} s.ports p).up) :: s.wire }) ∧
    (linkUp s p = false → Machine.exec (.pcieConfigRequest p) s = .next s) ∧
    (∀ speed width, mayTrain s p = true → linkUp s p = false → 1 ≤ speed → speed ≤ 6 → width ∈ [1, 2, 4, 8, 16] →
      Machine.exec (.pcieLinkUp p speed width) s = .next (s.setReg .hifPortSts p 0 (1 + speed * 2 + width * 16))) ∧
    (∀ speed width, mayTrain s p = false ∨ linkUp s p = true → Machine.exec (.pcieLinkUp p speed width) s = .next s) ∧
    (∀ high t, t = { s with pins := if p = 0 then { s.pins with perst0N := high } else { s.pins with perst1N := high } } →
      (high = true ∨ linkUp s p = false → Machine.exec (.perstChange p high) s = .next t) ∧
      (high = false → linkUp s p = true → Machine.exec (.perstChange p high) s = .next (hostLinkLost p t))) ∧
    (∀ val : Word, val.toNat < 65536 →
      ((∀ t, t < 16 → sessOpen s t = false) → Machine.exec (.tenPortWrite 18 val) s = .next (s.setReg .hifTenPort 0 0 val.toNat)) ∧
      (∀ t, t < 16 → sessOpen s t = true → bit (s.reg .hifTenPort) t ≠ bit val.toNat t → Machine.exec (.tenPortWrite 18 val) s = .next (s.orReg .hifErr 0 0 1)) ∧
      (∀ who, who < 18 → Machine.exec (.tenPortWrite who val) s = .next s))

/-- Resets (R431, R432, R469, R481 to R483): a function-level reset of a tenant's function is a tenant reset, which leaves it no session, queue pair,
stream, work queue entry, log ring or cipher context, and its function with Bus Master Enable clear; of a management function it leaves
every lode, memory and tenant alone; a warm reset starts again at step 4 with no session, no group, no region and every counter zero, and keeps
the time base, the host functions' configuration and the flash; a cold reset clears memory, counters and queues, draws a BOOT_NONCE and starts at
step 1, and keeps what stands outside the part. Memory that reads zero after it is the model's choice. -/
def Obligations.Resets : Prop :=
  ∀ (s : State) (i p : Nat), p < 2 →
    (s.power.running = true → i < 16 → ∃ u, Machine.exec (.functionLevelReset i) s = .next (holdsChanged u) ∧ (∀ q, q < 64 → (u.qp i q).st = 0) ∧
      tget {} u.cmd.sessions i = {} ∧ u.host i = {} ∧ u.reg .cmdSession i = 0 ∧ u.reg .hifApBase i = 0 ∧ (∀ st, (u.stream st).owner ≠ some i) ∧
      (∀ q, 8 * i ≤ q → q < 8 * i + 8 → u.wq q = []) ∧ (∀ x, x ∈ u.net.sets → x.tenant ≠ i) ∧ (∀ x, x ∈ u.sec.ctxs → x.tenant ≠ i) ∧
      u.logRing i = {} ∧ tget {} u.tel.traces i = {}) ∧
    (s.power.running = true → i = 16 ∨ i = 17 → (∀ c, c ∈ s.cmd.cmds → c.fn ≠ i) → ∃ u, Machine.exec (.functionLevelReset i) s = .next u ∧
      u.host i = {} ∧ (∀ fn, fn ≠ i → u.host fn = s.host fn) ∧ (∀ q, q < 64 → (u.qp i q).st = 0) ∧ u.mem = s.mem ∧ u.lodes = s.lodes ∧ u.cores = s.cores ∧
      u.eng = s.eng ∧ u.own = s.own ∧ u.sync = s.sync ∧ u.net = s.net ∧ u.sto = s.sto ∧ u.ft = s.ft ∧ u.ckpt = s.ckpt ∧ u.cmd.cmds = s.cmd.cmds) ∧
    (s.power.running = true → i < 18 → Machine.exec (.functionLevelReset i) s = .next (functionReset i s)) ∧
    (s.power.running = true → Machine.exec (.hostPortReset p) s =
      .next (((portFns s p).foldl (fun s fn => functionReset fn s) s).setReg .hifPortSts p 0 0)) ∧
    (s.power.running = true → (∀ fn, fn < 16 → fnPort s fn ≠ p) → (∀ c, c ∈ s.cmd.cmds → c.fn ≠ 16 + p) → ∃ u, Machine.exec (.hostPortReset p) s = .next u ∧
      u.host (16 + p) = {} ∧ (u.reg .hifPortSts p = 0) ∧ u.mem = s.mem ∧ u.lodes = s.lodes ∧ u.own = s.own) ∧
    (s.power.running = true → s.power.warm = false → (tget {} s.ports 0).up = true → 16 ≤ i → i < 21 → ∃ u, Machine.exec (.warmReset i) s = .next u ∧
      bootStep u = 4 ∧ u.power.warm = true ∧ u.power.noFirmware = true ∧ (∀ fn, tget {} u.cmd.sessions fn = {}) ∧ u.cmd.cmds = [] ∧ u.cmd.qps = [] ∧
      u.groups = [] ∧ u.lodes = [] ∧ u.cores = [] ∧ u.eng = [] ∧ u.sync = {} ∧ u.net = {} ∧ u.sto = {} ∧ u.keys = [] ∧ u.own.lodes = [] ∧ u.own.blocks = [] ∧
      u.tb.armed = [] ∧ ∀ e, (u.region e).st = 0) ∧
    (s.power.running = true → Machine.exec (.warmReset 21) s = .next { s with pins := { s.pins with warmN := true } }) ∧
    (s.power.running = true → s.power.warm = true ∨ (tget {} s.ports 0).up = false →
      Machine.exec (.warmReset 19) s = .next { s with pins := { s.pins with warmN := false } }) ∧
    (s.power.running = true → i < 16 ∨ s.power.warm = true ∨ (tget {} s.ports 0).up = false → i < 21 → i ≠ 19 → Machine.exec (.warmReset i) s = .next s) ∧
    (∃ u, Machine.exec (.coldReset 0) s = .next u ∧ bootStep u = 1 ∧ u.mem = [] ∧ u.cmd = {} ∧ u.sync = {} ∧ u.lodes = [] ∧ u.cores = [] ∧ u.groups = [] ∧
      u.own = {} ∧ u.power.running = true ∧ u.tb = {} ∧ u.tel = {} ∧ u.sec.images = s.sec.images ∧ u.sec.counters = s.sec.counters ∧ u.hostMem = s.hostMem ∧
      u.wire = s.wire ∧ u.fresh = s.fresh + 1 ∧ u.reg .glbBootNonce = Config.random s.fresh % 2 ^ 64) ∧
    (∀ t, t = { s with pins := { s.pins with coldN := false } } → s.pins.pwrGood = true → s.power.tripped = false →
      Machine.exec (.coldReset 1) s = .next (coldReset t)) ∧
    (s.pins.pwrGood = false ∨ s.power.tripped = true → Machine.exec (.coldReset 1) s = .next { s with pins := { s.pins with coldN := false } }) ∧
    Machine.exec (.coldReset 2) s = .next { s with pins := { s.pins with coldN := true } }

/-- Start-up (R484 to R486): each step that ends leads to the next; a PLL that does not lock leaves the part in step 1 with FAIL 1; known-answer tests
that fail, a PUF that fails and a boot with no image lead to step 6 with no firmware and FAIL 2, PUF_FAIL and FAIL 4; step 5 starts the firmware;
processors that do not start crash with FAIL 5; a stack that does not train leaves the part without sessions and FAIL 7; every lode zero-fills in step 10; HOLD is reached after step 10 and both ports then answer configuration
requests. How the operands spell what a step finds is the model's choice. -/
def Obligations.Start_Up : Prop :=
  ∀ (s : State) (ok : Bool) (straps trained : Nat) (scan : Scan) (board : Bytes) (idents cables : List Bytes) (drives : List (Option DriveId)),
    s.power.running = true →
    let i := Instr.startupStepDone ok straps board scan idents cables trained drives
    (bootStep s ≤ 1 → s.pins.coldN = false → Machine.exec i s = .next s) ∧
    (bootStep s ≤ 1 → s.pins.coldN = true → ok = true → ∃ t, Machine.exec i s = .next t ∧ bootStep t = 2 ∧ t.pins.posId = straps % 8 ∧
      t.reg .hifCfg = bits straps 3 3) ∧
    (bootStep s ≤ 1 → s.pins.coldN = true → ok = false → bits (s.reg .glbBootSts) 11 4 = 0 → ∃ t, Machine.exec i s = .next t ∧ bootStep t = 1 ∧
      bits (t.reg .glbBootSts) 11 4 = 1 ∧ t.mem = s.mem) ∧
    (bootStep s = 2 → ok = true → s.sec.rngFail = false → ∃ t, Machine.exec i s = .next t ∧ bootStep t = 3) ∧
    (bootStep s = 2 → ok = true → s.sec.rngFail = true → s.tb.ticks < s.sec.rngSince + 10 * msTicks → Machine.exec i s = .next s) ∧
    (bootStep s = 2 → ok = false ∨ (s.sec.rngFail = true ∧ s.sec.rngSince + 10 * msTicks ≤ s.tb.ticks) → bits (s.reg .glbBootSts) 11 4 = 0 → ∃ t, Machine.exec i s = .next t ∧ bootStep t = 6 ∧
      bits (t.reg .glbBootSts) 11 4 = 2 ∧ t.power.noFirmware = s.power.noFirmware) ∧
    (bootStep s = 3 → ok = true → ∃ t, Machine.exec i s = .next t ∧ bootStep t = 4 ∧ t.sec.derived = true) ∧
    (bootStep s = 3 → ok = false → ∃ t, Machine.exec i s = .next t ∧ bootStep t = 6 ∧ bit (t.reg .glbSecSts) 2 = true) ∧
    (bootStep s = 4 → ok = false → bits (s.reg .glbBootSts) 11 4 = 0 → ∃ t, Machine.exec i s = .next t ∧ bootStep t = 6 ∧
      bits (t.reg .glbBootSts) 11 4 = 4 ∧ t.power.noFirmware = s.power.noFirmware) ∧
    (bootStep s = 4 → ok = true → Machine.exec i s = .next (bootImages s)) ∧
    (∀ m k, bootStep s = 4 → ok = true → secHalted s = false → s.sec.derived = true → k = s.sec.active.getD Config.flashActive % 2 → slotBoots s k = some m →
      ∃ t, Machine.exec i s = .next t ∧ bootStep t = 5 ∧ t.power = s.power) ∧
    (bootStep s = 4 → ok = true → secHalted s = true → ∃ t, Machine.exec i s = .next t ∧ bootStep t = 6 ∧ t.power = s.power) ∧
    (bootStep s = 5 → ok = true → ∃ t, Machine.exec i s = .next t ∧ bootStep t = 6 ∧ t.power.noFirmware = false) ∧
    (bootStep s = 5 → ok = false → Machine.exec i s =
      .next (setStep 6 ((List.range 34).foldl (fun s p => if bit straps p then crash p 0 s else s) (bootFail 5 (bootFirmware s))))) ∧
    (bootStep s = 6 → ∃ t, Machine.exec i s = .next t ∧ bootStep t = 7) ∧
    (bootStep s = 7 → ∃ t, Machine.exec i s = .next t ∧ bootStep t = 8 ∧ (trained % 256 ≠ 255 → t.power.noSession = true)) ∧
    (∀ t, bootStep s = 8 → t = bootSerdes cables drives s → (t.power.warm = false → ∃ u, Machine.exec i s = .next u ∧ bootStep u = 9 ∧ u.seam = t.seam ∧ u.sto = t.sto) ∧
      (t.power.warm = true → Machine.exec i s = .next (bootZero t))) ∧
    (bootStep s = 9 → Machine.exec i s = .next (bootZero s) ∧ bootStep (bootZero s) = 10) ∧
    (10 ≤ bootStep s → s.power.warm = true ∨ (tget {} s.ports 0).up = false → (∀ n, n < 32 → tget 0 s.own.zeroing n = 0) → ∃ t, Machine.exec i s = .next t ∧ (tget {} t.ports 0).up = true ∧ (tget {} t.ports 1).up = true ∧
      t.power.warm = false) ∧
    (10 ≤ bootStep s → ((tget {} s.ports 0).up = true ∧ s.power.warm = false) ∨ (∃ n, n < 32 ∧ tget 0 s.own.zeroing n ≠ 0) → Machine.exec i s = .next s)

/-- Register writes (R11, R13, R42, R45, R440): software writes whole aligned words; the bits of a register take the word by their access types,
within the limits of their fields, and every other register stays; a register that the writer may not write, and an offset where none lies, ignore
it; a world-N write of an instance in world S sets GLB.SEC_STS.N_ACCESS; a device access that is not 4 aligned bytes is denied, and a read
that is answers the register's word. RW1C bits clear where a 1 is
written and keep their value where a 0 is, write-one-set bits set, read-only and reserved bits keep theirs, RW bits take the value;
PWR.LIMIT.WATTS is kept from 600 to 1,800 (R473). -/
def Obligations.Register_Writes : Prop :=
  (∀ (s : State) (who off i j w : Nat) (r : Reg) (val : Word) (ext : Bytes), s.power.running = true → who < 19 →
      (off % 4 ≠ 0 → Machine.exec (.registerWrite who off val ext) s = .next s) ∧
      (off % 4 = 0 → 0x140000 ≤ off → off < 0x150100 →
        (viewFn s who < 18 → Machine.exec (.registerWrite who off val ext) s = .next (tableWrite (viewFn s who) off val.toNat s)) ∧
        (18 ≤ viewFn s who → Machine.exec (.registerWrite who off val ext) s = .next s)) ∧
      (off % 4 = 0 → off < 0x140000 ∨ 0x150100 ≤ off →
        (regOf off = some (r, i, j, w) → regTakes s who r i j = true → Machine.exec (.registerWrite who off val ext) s = .next (regWrite who r i j w val ext s)) ∧
        (regOf off = none → Machine.exec (.registerWrite who off val ext) s = .next s) ∧
        (regOf off = some (r, i, j, w) → regTakes s who r i j = true →
          r ∉ [.tbStep, .tbAdj, .hifTenPort, .cmdAdmq, .ckpStageBase, .ckpStageBytes, .syncCoreCtx, .syncFnCtx, .detCtrl, .logHead, .memInject, .segMode,
            .regionWin, .seamCtrl, .ethCtrl, .prsTmap, .prsUntagged, .prsProfile0, .prsProfile1, .prsProfileF, .strmConsumed, .driveCtrl, .stoSqTail,
            .stoCqHead, .lodeCtrl, .meCtrl, .bcCtrl, .glbReset] →
          Machine.exec (.registerWrite who off val ext) s =
            .next (s.setReg r i j (regLimit s r i j (s.reg r i j) (accessWrite r (s.reg r i j) w val.toNat)))) ∧
        (regOf off = some (r, i, j, w) → regTakes s who r i j = false → who = 18 ∨ instInS s r i = false → r ≠ .segMode →
          Machine.exec (.registerWrite who off val ext) s = .next s) ∧
        (regOf off = some (r, i, j, w) → who ≠ 18 → regTakes s who r i j = false → instInS s r i = true →
          Machine.exec (.registerWrite who off val ext) s = .next (stickyRec 1 none 0 .glbSecSts 0 0 1 s))) ∧
      (∀ (req : Requester) (len : Nat) (wr : Bool), len ≠ 4 ∨ off % 4 ≠ 0 → off < 0x4000000 →
        Machine.exec (.deviceRegisterAccess req (regBase + off) len wr val ext) s = .next (addrDenied req { s with resp := none, ended := some 0x0501 })) ∧
      (∀ req : Requester, off % 4 = 0 → off < 0x4000000 → Machine.exec (.deviceRegisterAccess req (regBase + off) 4 true val ext) s =
        .next (writeReg (reqWho req) off val ext { s with ended := some 0x0000 })) ∧
      (∀ (req : Requester) (a len : Nat) (wr : Bool), (place s a).1 ≠ .regs → Machine.exec (.deviceRegisterAccess req a len wr val ext) s = .next s) ∧
      (∀ (req : Requester) (t : State), t = { s with ended := some 0x0000 } → req.world = .s → off % 4 = 0 → off < 0x140000 → regOf off = some (r, i, j, w) → (regRow r).latch = false →
        Machine.exec (.deviceRegisterAccess req (regBase + off) 4 false val ext) s = .next { t with resp := some (regLive t r i j / 2 ^ (32 * w) % 2 ^ 32) })) ∧
  (∀ (r : Reg) (old val k : Nat), (regRow r).words = 1 → k < 32 →
    (bit (regRow r).w1s k = false → bit (accessWrite r old 0 val) k =
      if bit (regRow r).rw k then bit val k else if bit (regRow r).w1c k then bit old k && !bit val k else bit old k) ∧
    (bit (regRow r).w1s k = true → bit (regRow r).rw k = false → bit (regRow r).w1c k = false → bit (accessWrite r old 0 val) k = (bit old k || bit val k))) ∧
  (∀ (s : State) (val : Word) (ext : Bytes), s.power.running = true → ∃ t, Machine.exec (.registerWrite 16 0x400008 val ext) s = .next t ∧
    bits (t.reg .pwrLimit) 10 0 = max 600 (min 1800 (val.toNat % 2 ^ 11)) ∧ t.mem = s.mem ∧ t.cmd = s.cmd)

/-- Requests on the fabric (R23, R36, R42, R297, R308, R527): the target checks the requester before it acts: a range of memory that the
requester may not reach is refused and left as it was; a permitted read answers the bytes, a permitted write stores them; one that must wait for its
memory wakes it; a request for registers is one aligned word or denied. A transfer unit with two wrong symbols ends the request UNCORRECTABLE with
no data, and with no effect on the target where it is on the way there, counts ERR.BRIDGE UE and sets BRIDGE_UE. A request of no bytes does nothing. -/
def Obligations.Fabric_Requests : Prop :=
  ∀ (s t z : State) (q : FabricReq) (a n : Nat) (wr : Bool) (d b : Bytes), s.power.running = true → z = { s with resp := none, ended := none } →
    (Machine.exec (.fabricRequest q a 0 false d) s = .next z ∧ Machine.exec (.fabricRequest q a n true []) s = .next z) ∧
    (q.errs = [] → q.table = 0 → 0 < n → (place s a).1 ≠ .regs → (place s a).1 ≠ .host →
      (permits s q.who a n false = false → Machine.exec (.fabricRequest q a n false d) s =
        .next { refuse q.who a n z with ended := some (refusedSt z q.who a n) }) ∧
      (permits s q.who a n false = true → rangeWaits s a n = true → ∃ u, Machine.exec (.fabricRequest q a n false d) s = .next u ∧ u = wakeRange z a n) ∧
      (permits s q.who a n false = true → rangeWaits s a n = false → readMem z a n = (t, .ok b) →
        Machine.exec (.fabricRequest q a n false d) s = .next { t with resp := some (leNat b), ended := some 0x0000 })) ∧
    (q.errs = [] → q.table = 0 → d ≠ [] → (place s a).1 ≠ .regs → (place s a).1 ≠ .host →
      (permits s q.who a d.length true = false → Machine.exec (.fabricRequest q a n true d) s =
        .next { refuse q.who a d.length z with ended := some (refusedSt z q.who a d.length) }) ∧
      (permits s q.who a d.length true = true → rangeWaits s a d.length = false → devWrite a d z = (t, none) → t.resp = none →
        Machine.exec (.fabricRequest q a n true d) s = .next { t with ended := some 0x0000 })) ∧
    (∀ k v, bridgeDir (unitDie q.who.unit) (addrDie s a) = some k → k < 6 → q.errs = [⟨false, v, 2⟩] → 0 < (if wr then d.length else n) →
      Machine.exec (.fabricRequest q a n wr d) s = .next { stickyRec 1 none k .errGlbSts 0 0 2 ((draw z).2.count .errBridgeUe 0 k 1) with ended := some 0x0401 } ∧
      (stickyRec 1 none k .errGlbSts 0 0 2 ((draw z).2.count .errBridgeUe 0 k 1)).resp = none)
/-- Rings, receive queues and takes of the fabric transport (R376 to R379, R381, R386): FT_RING_CREATE of an ABSENT ring makes it and lists its
waiter on the doorbell counter, or is denied where the counter does not translate; FT_RING_DELETE of an ACTIVE one with nothing in flight
removes both, FT_RQ_BIND and FT_RQ_UNBIND bind and unbind a queue; each answers STATE_CONFLICT with the object's state otherwise, and strict mode
refuses a queue for any sender. A take removes one entry of the ring whose turn it is; an entry that cannot be reached yet is woken, one that
the ring's tenant may not read or that is uncorrectable ends with that status; one that fails a check sends nothing and ends with that check's
status, in the order of R379; any other becomes a message in the first free place of the sender table. -/
def Obligations.Transport_Takes : Prop :=
  ∀ (s u : State) (id : Nat) (c : Cmd) (i : Nat),
    (i = 16 * c.fn + c.p 0 →
      (∀ p ctx, Ready s .ftRingCreate id c → s.ftRing i = none → translateFor s (c.fn + 1) (fnBind s c.fn) (bits (c.p 2) 23 0) = .phys p →
        ctx = (if bit (bits (c.p 2) 23 0) 23 then (fnBind s c.fn).getD 0xFFFF else 0xFFFF) →
        Machine.exec (.ftRingCreate id) s = .next (finish0 id 0x0000 (sendWait p ⟨0x202, 1, none, bits (c.p 2) 23 0, ctx, 0xFFFFFFFF, c.fn, none, some i⟩
          (s.setFtRing i (some { log2 := c.p 1, ctr := p, base := c.p 3, cq := c.p 4, next := 0, done := 0, credit := 0 }))))) ∧
      (∀ x, Ready s .ftRingCreate id c → s.ftRing i = none → translateFor s (c.fn + 1) (fnBind s c.fn) (bits (c.p 2) 23 0) = x →
        (x = .ue → Machine.exec (.ftRingCreate id) s = .next (failAt c 0x0401 .ftRingCreate 2 s)) ∧
        ((x = .none ∨ ∃ d k, x = .remote d k) → Machine.exec (.ftRingCreate id) s = .next (failAt c 0x0501 .ftRingCreate 2 s))) ∧
      (Ready s .ftRingCreate id c → (s.ftRing i).isSome = true →
        Machine.exec (.ftRingCreate id) s = .next (finish id 0x0201 (0x12 + c.p 0 * 256) 1 0 0 s)) ∧
      (∀ r, Ready s .ftRingDelete id c → s.ftRing i = some r → (∀ k m n, (k, some m) ∈ s.ft.msgs → m.from_ ≠ .ring i n) →
        Machine.exec (.ftRingDelete id) s = .next (finish0 id 0x0000 (withdraw 0x202 (some i) (s.setFtRing i none)))) ∧
      (Ready s .ftRingDelete id c → s.ftRing i = none →
        Machine.exec (.ftRingDelete id) s = .next (finish id 0x0201 (0x12 + c.p 0 * 256) 0 0 0 s)) ∧
      (∀ r k m n, Ready s .ftRingDelete id c → s.ftRing i = some r → (k, some m) ∈ s.ft.msgs → m.from_ = .ring i n →
        Machine.exec (.ftRingDelete id) s = .next (finish id 0x0201 (0x12 + c.p 0 * 256) 1 0 0 s)) ∧
      (Ready s .ftRqBind id c → s.ftRq i = none → c.p 3 ≠ 0xFFFFFFFF ∨ strict s c.fn = false →
        Machine.exec (.ftRqBind id) s = .next (finish0 id 0x0000 (s.setFtRq i (some
          { log2 := c.p 1, slot := c.p 2, src := c.p 3, sync := c.p 4, base := c.p 5, cq := c.p 6, done := c.p 7, next := 0 })))) ∧
      (Ready s .ftRqBind id c → s.ftRq i = none → c.p 3 = 0xFFFFFFFF → strict s c.fn = true →
        Machine.exec (.ftRqBind id) s = .next (finish0 id 0x0105 (varRefuse c.fn s))) ∧
      (Ready s .ftRqBind id c → (s.ftRq i).isSome = true →
        Machine.exec (.ftRqBind id) s = .next (finish id 0x0201 (0x13 + c.p 0 * 256) 1 0 0 s)) ∧
      (∀ r, Ready s .ftRqUnbind id c → s.ftRq i = some r → (∀ e ∈ s.ft.rx, e.st = .active → ∀ q, e.rq = some q → q.1 ≠ i) →
        Machine.exec (.ftRqUnbind id) s = .next (finish0 id 0x0000 (s.setFtRq i none))) ∧
      (∀ r e q, Ready s .ftRqUnbind id c → s.ftRq i = some r → e ∈ s.ft.rx → e.st = .active → e.rq = some (i, q) →
        Machine.exec (.ftRqUnbind id) s = .next (finish id 0x0201 (0x13 + c.p 0 * 256) 1 0 0 s)) ∧
      (Ready s .ftRqUnbind id c → s.ftRq i = none →
        Machine.exec (.ftRqUnbind id) s = .next (finish id 0x0201 (0x13 + c.p 0 * 256) 0 0 0 s))) ∧
    (∀ (cmd : Instr) (op : Nat), (cmd, op) ∈ [(Instr.ftWrite, 1), (.ftRead, 2), (.ftSend, 4), (.ftAtomic, 5), (.ftSignal, 0x0A)] →
      s.power.running = true →
      (ftNext s = none → Machine.exec cmd s = .next s) ∧
      (∀ (r : FtRing) (a : Nat), ftNext s = some (i, r) → a = r.base + r.next % 2 ^ r.log2 * 64 →
        u = { s with ft := { s.ft with
          last := i, rings := tput none s.ft.rings i (some { r with next := (r.next + 1) % 2 ^ 32, credit := r.credit - 1 }) } } →
        (memWaits s a 64 = true → Machine.exec cmd s = .next (wakeSpan a 64 s)) ∧
        (memWaits s a 64 = false → (memByte s a).toNat ≠ op → (memByte s a).toNat ∈ [1, 2, 4, 5, 0x0A] → Machine.exec cmd s = .next s) ∧
        (∀ code, memWaits s a 64 = false → code = (memByte s a).toNat → code = op ∨ code ∉ [1, 2, 4, 5, 0x0A] →
          (permits u (tenReq (i / 16) 0x202) a 64 false = false → Machine.exec cmd s =
            .next (ftRingEnd i r.next (refusedSt u (tenReq (i / 16) 0x202) a 64) code 0 0 none (refuse (tenReq (i / 16) 0x202) a 64 u))) ∧
          (∀ v x, permits u (tenReq (i / 16) 0x202) a 64 false = true → readMem u a 64 = (v, .error x) →
            Machine.exec cmd s = .next (ftRingEnd i r.next 0x0401 code 0 0 none v)) ∧
          (∀ v e, permits u (tenReq (i / 16) 0x202) a 64 false = true → readMem u a 64 = (v, .ok e) →
            Machine.exec cmd s = .next (ftTakeEntry i r e v))))) ∧
    (∀ (r : FtRing) (e : Bytes) (op aop t : Nat), t = i / 16 → op = fld e 0 1 → aop = fld e 3 1 → fld e 52 4 = 0 →
      (op ∉ [1, 2, 4, 5, 0x0A] → ftTakeEntry i r e u = ftRingEnd i r.next 0x0101 op 0 0 none u) ∧
      (op ∈ [1, 2, 4, 5, 0x0A] →
        (entryZeroOk e = false → ftTakeEntry i r e u = ftRingEnd i r.next 0x0102 op 0 0 none u) ∧
        (entryZeroOk e = true → entryLegal u e = false → ftTakeEntry i r e u = ftRingEnd i r.next 0x0103 op 0 0 none u) ∧
        (entryZeroOk e = true → entryLegal u e = true → op = 1 ∨ op = 2 ∨ op = 4 → fld e 32 4 ≠ 0 →
          permits u (tenReq t 0x202) (fld e 16 8) (fld e 32 4) (op == 2) = false → ftTakeEntry i r e u =
          ftRingEnd i r.next (refusedSt u (tenReq t 0x202) (fld e 16 8) (fld e 32 4)) op 0 0 none (refuse (tenReq t 0x202) (fld e 16 8) (fld e 32 4) u)) ∧
        (entryZeroOk e = true → entryLegal u e = true → op = 5 → aopFetch aop = false ∨ permits u (tenReq t 0x202) (fld e 16 8) 8 true = true →
          aopCounted aop = true → strict u t = true → ftTakeEntry i r e u = ftRingEnd i r.next 0x0105 op 0 0 none (varRefuse t u)) ∧
        (∀ v j, entryZeroOk e = true → entryLegal u e = true →
          ((op = 1 ∨ op = 2 ∨ op = 4 → permits u (tenReq t 0x202) (fld e 16 8) (fld e 32 4) (op == 2) = true) ∧
            (op = 5 → aopFetch aop = true → permits u (tenReq t 0x202) (fld e 16 8) 8 true = true) ∧ (op = 5 → aopCounted aop = true → strict u t = false)) →
          v = (if op = 5 ∧ aopCounted aop = true then varCount t none u else u) → (List.range 65536).find? (fun k => (v.ftMsg k).isNone) = some j →
          ftTakeEntry i r e u = { v with ft := { v.ft with
              msgs := tput none v.ft.msgs j (some {
                gen := tget 0 v.ft.gens j, take := v.ft.take, from_ := .ring i r.next, tenant := t, op := op, ord := bit (fld e 1 1) 0, cls := fld e 2 1
                aop := aop, dst := fld e 4 4, key := fld e 8 4, kgen := fld e 12 1, laddr := fld e 16 8, raddr := fld e 24 8, len := fld e 32 4
                operand := fld e 36 8, cmp := fld e 44 8, sig := none, mtu := ftMtu v, moved := v.tb.ticks })
              gens := tput 0 v.ft.gens j ((tget 0 v.ft.gens j + 1) % 65536), take := v.ft.take + 1 } })))
/-- The sender's packets and timers (R380 to R382, R385, R390, R391, R394): nothing leaves while the transport is off, while an ordered message
waits, or while the path's bucket holds too few tokens; a source that cannot be reached yet is woken, one that cannot be read ends the message
with UNCORRECTABLE; a first transmission takes the best path, costs its bucket 8 times its bytes in eighths and starts its timeout; a
retransmission takes the next path, has RETX set and counts; over a seam link the packet is one transaction. A timeout marks the packet, doubles
up to 10 ms and halves its bucket's rate, but the interval after an RNR does neither; 12 retransmissions, or 50 ms without progress of a message
that does not wait, end the message with PEER_UNREACHABLE and a record; at an interval's end a bucket with traffic and no mark in it raises its
rate; a bucket unused for 1 ms returns to its first state. -/
def Obligations.Transport_Sending : Prop :=
  ∀ (s u : State) (m i p : Nat) (x : FtMsg), s.power.running = true → m < 65536 →
    (ftOn s = false → Machine.exec (.ftPacketSend m) s = .next s) ∧
    (s.ftMsg m = none → Machine.exec (.ftPacketSend m) s = .next s ∧ Machine.exec (.ftRtoExpiry m i) s = .next s ∧
      Machine.exec (.ftRetryLimit m) s = .next s) ∧
    (ftOn s = true → s.ftMsg m = some x →
      (nextPkt x = none → Machine.exec (.ftPacketSend m) s = .next s) ∧
      (ordWaits s x = true → Machine.exec (.ftPacketSend m) s = .next s) ∧
      (nextPkt x = some i → ftPathOf s x i = none → Machine.exec (.ftPacketSend m) s = .next s) ∧
      (nextPkt x = some i → ftPathOf s x i = some p → ordWaits s x = false →
        (srcWaits s x i = true → Machine.exec (.ftPacketSend m) s = .next (wakeSpan (x.laddr + i * 2 ^ x.mtu) (2 ^ x.mtu) s)) ∧
        (∀ a, srcWaits s x i = false → pktOf s m x i (ftWant x i) = (u, .error a) →
          Machine.exec (.ftPacketSend m) s = .next (workGo (ftAbort m 0x0401 0 u))) ∧
        (∀ h b, srcWaits s x i = false → pktOf s m x i (ftWant x i) = (u, .ok (h, b)) →
          Machine.exec (.ftPacketSend m) s = .next (ftLaunch m x p (ftWant x i) h b u)))) ∧
    (x.op ≠ 2 → ftWant x i = [i]) ∧
    (∀ h b pkt,
        (x.pkt i = none → pkt = ftPacket { h with path := p, retx := false, time := s.now } b →
          (∀ l, (ftSeam s x.dst)[p]? = some l → linkRoom s l (.packet pkt) = false → ftLaunch m x p [i] h b s = s) ∧
          (∀ l, (ftSeam s x.dst)[p]? = some l → linkRoom s l (.packet pkt) = true →
            u = s.setFtMsg m (some { x with
              pk := tput none x.pk i (some ⟨1, s.tb.ticks + ftRtoTicks s, ftRtoTicks s, p, none, false, false⟩), next := max x.next (i + 1)
              moved := if x.next = 0 then s.tb.ticks else x.moved }) →
            ftLaunch m x p [i] h b s = ftOut x.dst p x.tenant x.cls pkt u) ∧
          (∀ k v, (ftSeam s x.dst)[p]? = none → k = bktOf x.dst p → v = bktNow s k →
            (v.level < (8 * pkt.length : Nat) → ftLaunch m x p [i] h b s = s) ∧
            ((8 * pkt.length : Nat) ≤ v.level →
              u = (setBkt k (some { v with level := v.level - (8 * pkt.length : Nat), used := s.tb.ticks, sent := true }) s).setFtMsg m (some { x with
                pk := tput none x.pk i (some ⟨1, s.tb.ticks + ftRtoTicks s, ftRtoTicks s, p, some k, false, false⟩), next := max x.next (i + 1)
                moved := if x.next = 0 then s.tb.ticks else x.moved }) →
              ftLaunch m x p [i] h b s = ftOut x.dst p x.tenant x.cls pkt u))) ∧
        (∀ q k v, x.pkt i = some q → 0 < q.sent → (ftSeam s x.dst)[p]? = none →
          pkt = ftPacket { h with path := p, retx := true, time := s.now } b → k = bktOf x.dst p → v = bktNow s k → (8 * pkt.length : Nat) ≤ v.level →
          u = (((setBkt k (some { v with level := v.level - (8 * pkt.length : Nat), used := s.tb.ticks, sent := true }) s).count .ftRetx 0 0 1).countTv 4 1).setFtMsg
            m (some { x with
              pk := tput none x.pk i (some ⟨q.sent + 1, s.tb.ticks + q.rto, q.rto, p, some k, false, false⟩), next := max x.next (i + 1)
              retx := x.retx + 1, moved := if x.next = 0 then s.tb.ticks else x.moved }) →
          ftLaunch m x p [i] h b s = ftOut x.dst p x.tenant x.cls pkt u)) ∧
    (∀ q, s.ftMsg m = some x → x.pkt i = some q →
      (q.again = true ∨ s.tb.ticks < q.due → Machine.exec (.ftRtoExpiry m i) s = .next s) ∧
      (q.again = false → q.due ≤ s.tb.ticks → q.rnr = true → Machine.exec (.ftRtoExpiry m i) s =
        .next (s.setFtMsg m (some { x with pk := tput none x.pk i (some { q with again := true }) }))) ∧
      (q.again = false → q.due ≤ s.tb.ticks → q.rnr = false →
        u = s.setFtMsg m (some { x with pk := tput none x.pk i (some { q with again := true, rto := min (2 * q.rto) 10000000 }) }) →
        (q.bkt = none → Machine.exec (.ftRtoExpiry m i) s = .next u) ∧
        (∀ k, q.bkt = some k → Machine.exec (.ftRtoExpiry m i) s =
          .next (setBkt k (some { bktNow u k with rate := max (rateMin u) ((bktNow u k).rate / 2) }) u)))) ∧
    (∀ q, s.ftMsg m = some x →
      (((i, some q) ∈ x.pk ∧ 13 ≤ q.sent) ∨ (ordWaits s x = false ∧ x.moved + 50000000 ≤ s.tb.ticks) →
        (∀ r n w, x.from_ = .ring r n ∨ (∃ a b, x.from_ = .work a b) → w = (if x.from_ = .ring r n then r % 16 else 0x210) → Machine.exec (.ftRetryLimit m) s =
          .next (workGo (ftAbort m 0x0602 0 (raise 1 (some x.tenant) (regAddr .ftErr 0 0 0) 0x8008
            (zeros 2 ++ leBytes 4 x.dst ++ zeros 4 ++ leBytes 4 w) (s.orReg .ftErr 0 0 1))))) ∧
        (∀ g, x.from_ = .signal g → Machine.exec (.ftRetryLimit m) s =
          .next (workGo (ftAbort m 0x0602 0 (remoteLost g (raise 1 (some x.tenant) (regAddr .ftErr 0 0 0) 0x8008
            (zeros 2 ++ leBytes 4 x.dst ++ zeros 4 ++ leBytes 4 g.src) (s.orReg .ftErr 0 0 1))))))) ∧
      ((∀ j y, (j, some y) ∈ x.pk → y.sent < 13) → ordWaits s x = true ∨ s.tb.ticks < x.moved + 50000000 → Machine.exec (.ftRetryLimit m) s = .next s)) ∧
    (∀ k y v, k < 4096 → tget none s.ft.bkts k = some y → v = bktNow s k →
      (s.tb.ticks < y.start + bits (s.reg .ftCc) 23 16 * 1000 → Machine.exec (.ftRateIncrease k) s = .next s) ∧
      (y.start + bits (s.reg .ftCc) 23 16 * 1000 ≤ s.tb.ticks → y.sent = true → y.mark = false → Machine.exec (.ftRateIncrease k) s =
        .next (setBkt k (some { v with
          rate := min (lineRate s (k % 8)) (y.rate + bits (s.reg .ftCc) 31 24 * 1000), start := s.tb.ticks, sent := false, mark := false }) s)) ∧
      (y.start + bits (s.reg .ftCc) 23 16 * 1000 ≤ s.tb.ticks → y.sent = false ∨ y.mark = true → Machine.exec (.ftRateIncrease k) s =
        .next (setBkt k (some { v with rate := y.rate, start := s.tb.ticks, sent := false, mark := false }) s)) ∧
      (y.used + 1000000 ≤ s.tb.ticks → Machine.exec (.ftBucketIdle k) s = .next (setBkt k none s)) ∧
      (s.tb.ticks < y.used + 1000000 → Machine.exec (.ftBucketIdle k) s = .next s)) ∧
    (∀ k, k < 4096 → tget none s.ft.bkts k = none → Machine.exec (.ftRateIncrease k) s = .next s ∧ Machine.exec (.ftBucketIdle k) s = .next s)
/-- The receiver, and what the sender does with answers (R374, R375, R383 to R390, R392): a packet that fails a check is discarded and counted,
one of another type waits for its own row, one whose memory cannot be reached wakes it, a stale one is counted apart. A message whose admission
fails is answered with the NAK of its reason, a full table with RNR; an ABORTED entry answers NAK ABORTED and a DONE one its saved response and
final ACK; a packet of an ACTIVE or a new entry that disagrees is discarded, one that is held is only acknowledged, another is placed (WRITE,
SEND), applied once and answered (ATOMIC), or added (SIGNAL), and a failed access answers NAK UNCORRECTABLE. A READ is answered with what its
bitmap asks for. READ_RESP, ATOMIC_RESP, ACK and NAK advance or end their message, CLOSE aborts or ages its entry, and the entry's timers
acknowledge, abort and free it. -/
def Obligations.Transport_Reception : Prop :=
  (∀ (s p u : State) (fr : Frame) (rest : List Frame) (b pay : Bytes) (h : FtHdr) (path : Nat) (marked sum : Bool), s.power.running = true →
    ftOn s = true → s.net.ftIn = fr :: rest → ftIncoming s fr = (b, marked, sum) → h = { ftHeader b with ce := marked } → pay = ftPayload b →
    path = (if 32 ≤ fr.mac then 64 + (fr.mac - 32) else h.path) → p = { s with net := { s.net with ftIn := rest } } →
    u = (if marked then p.count .ftCe 0 0 1 else p) →
    (∀ cmd op, (cmd, op) ∈ [(Instr.ftRxWrite, 1), (.ftRxRead, 2), (.ftRxReadResp, 3), (.ftRxSend, 4), (.ftRxAtomic, 5), (.ftRxAtomicResp, 6),
        (.ftRxAck, 7), (.ftRxNak, 8), (.ftRxClose, 9), (.ftRxSignal, 0x0A)] →
      (sum = false ∨ ftBad s b = true → Machine.exec cmd s = .next (ftDiscard p)) ∧
      (sum = true → ftBad s b = false → h.op ≠ op → Machine.exec cmd s = .next s) ∧
      (∀ a n, sum = true → ftBad s b = false → h.op = op → (ftTargets s (ftHeader b)).find? (fun e => memWaits s e.1 e.2) = some (a, n) →
        Machine.exec cmd s = .next (wakeSpan a n s)) ∧
      (sum = true → ftBad s b = false → h.op = op → (ftTargets s (ftHeader b)).find? (fun e => memWaits s e.1 e.2) = none →
        ftMaxAge s * 1000 < Int.natAbs ((s.now : Int) - h.time) → Machine.exec cmd s = .next (sticky none .ftErr 0 0 4 (p.count .ftStale 0 0 1)))) ∧
    (sum = true → ftBad s b = false → (ftTargets s (ftHeader b)).find? (fun e => memWaits s e.1 e.2) = none →
      Int.natAbs ((s.now : Int) - h.time) ≤ ftMaxAge s * 1000 →
      (∀ cmd op, (cmd, op) ∈ [(Instr.ftRxWrite, 1), (.ftRxSend, 4), (.ftRxAtomic, 5), (.ftRxSignal, 0x0A)] → h.op = op →
        (ftFind u h.src h.msg = none → 65536 ≤ u.ft.rx.length → Machine.exec cmd s = .next (ftNak path h 3 (sticky none .ftErr 0 0 8 u))) ∧
        (∀ e, ftFind u h.src h.msg = some e → e.st = .aborted → Machine.exec cmd s = .next (ftNak path h 6 (ftMark h u))) ∧
        (∀ e, ftFind u h.src h.msg = some e → e.st = .done → e.resp = none →
          Machine.exec cmd s = .next (ftAck h.src h.msg (modRx h.src h.msg (fun e => { e with path := path }) (ftMark h u)))) ∧
        (∀ e st v, ftFind u h.src h.msg = some e → e.st = .done → e.resp = some (st, v) →
          Machine.exec cmd s = .next (ftAck h.src h.msg (ftAnswer { e with path := path } 6 0 st (leBytes 8 v)
            (modRx h.src h.msg (fun e => { e with path := path }) (ftMark h u))))) ∧
        (∀ e y v, (ftFind u h.src h.msg = some e ∧ e.st = .active ∧ y = ftMark h u) ∨
            (ftFind u h.src h.msg = none ∧ u.ft.rx.length < 65536 ∧ ∃ w, y = ftMark h (ftAdd e w) ∧
              ((op = 1 ∧ ftAdmitWrite h path u = (w, .ok e)) ∨ (op = 4 ∧ ftAdmitSend h path u = (w, .ok e)) ∨
                (op = 5 ∧ ftAdmitAtomic (fld pay 0 1) h path u = (w, .ok e)) ∨ (op = 0x0A ∧ ftAdmitSignal h path u = (w, .ok e)))) →
          v = modRx h.src h.msg (fun e => { e with path := path, last := y.tb.ticks, ackDue := some (y.tb.ticks + 2000) }) y →
          (h.mlen ≠ e.len ∨ h.mtu ≠ e.mtu ∨ e.op ≠ op ∨ ((op = 1 ∨ op = 5) ∧ h.raddr ≠ e.addr) ∨ e.pkts ≤ h.pidx ∨
              ((op = 1 ∨ op = 4) ∧ h.plen ≠ min (2 ^ e.mtu) (e.len - h.pidx * 2 ^ e.mtu)) ∨ e.cum + 127 < h.pidx →
            Machine.exec cmd s = .next (ftDiscard y)) ∧
          (h.mlen = e.len → h.mtu = e.mtu → e.op = op → (op = 1 ∨ op = 5 → h.raddr = e.addr) → h.pidx < e.pkts →
            (op = 1 ∨ op = 4 → h.plen = min (2 ^ e.mtu) (e.len - h.pidx * 2 ^ e.mtu)) → h.pidx ≤ e.cum + 127 →
            (e.held.contains h.pidx = true → Machine.exec cmd s = .next (ftAck h.src h.msg v)) ∧
            (∀ w a d x c, e.held.contains h.pidx = false → a = e.addr + h.pidx * 2 ^ e.mtu →
              (op = 1 → writeMem v a pay = (w, none) → Machine.exec cmd s = .next (workGo (moveLanded h.tenant a pay.length (ftHold h w)))) ∧
              (op = 4 → writeMem v a pay = (w, none) → Machine.exec cmd s = .next (ftHold h w)) ∧
              (op = 1 ∨ op = 4 → writeMem v a pay = (w, some c) → Machine.exec cmd s = .next (ftNak path h 4 w)) ∧
              (op = 5 → readMem v e.addr e.len = (w, .error c) → Machine.exec cmd s = .next (ftNak path h 4 w)) ∧
              (op = 5 → readMem v e.addr e.len = (w, .ok d) →
                writeMem w e.addr (leBytes e.len (atomicOp (fld pay 0 1) (leNat d) (fld pay 8 8) (fld pay 16 8)).1) = (x, none) →
                Machine.exec cmd s = .next (ftHold h (ftAnswer { e with path := path } 6 0 (atomicOp (fld pay 0 1) (leNat d) (fld pay 8 8) (fld pay 16 8)).2
                  (leBytes 8 (if aopFetch (fld pay 0 1) then leNat d else 0)) (modRx h.src h.msg (fun e => { e with
                    resp := some ((atomicOp (fld pay 0 1) (leNat d) (fld pay 8 8) (fld pay 16 8)).2, if aopFetch (fld pay 0 1) then leNat d else 0) }) x)))) ∧
              (op = 0x0A → Machine.exec cmd s = .next (ftHold h (remoteApply 0x203 h.src h.raddr (leNat pay % 2 ^ 24) h.tenant v).1)))))) ∧
      (ftFind u h.src h.msg = none → u.ft.rx.length < 65536 →
        (∀ r, h.op = 1 → ftRegion u h 3 h.mlen 1 = .error r → Machine.exec .ftRxWrite s = .next (ftNak path h r u)) ∧
        (∀ k, ftRegion u h 3 h.mlen 1 = .ok k → ftAdmitWrite h path u = (u, .ok (rxEntryOf u h path (some k) h.raddr))) ∧
        (h.op = 4 → u.ftRq (16 * h.tenant + h.raddr % 16) = none → Machine.exec .ftRxSend s = .next (ftNak path h 1 u)) ∧
        (h.op = 4 → 16 ≤ h.raddr → Machine.exec .ftRxSend s = .next (ftNak path h 1 u)) ∧
        (∀ r, h.raddr < 16 → u.ftRq (16 * h.tenant + h.raddr) = some r →
          (h.op = 4 → r.src ≠ 0xFFFFFFFF → r.src ≠ h.src → Machine.exec .ftRxSend s = .next (ftNak path h 1 u)) ∧
          (r.src = 0xFFFFFFFF ∨ r.src = h.src →
            (h.op = 4 → 2 ^ r.slot < h.mlen → Machine.exec .ftRxSend s = .next (ftNak path h 5 u)) ∧
            (h.mlen ≤ 2 ^ r.slot →
              (∀ a d, a = r.base + r.next % 2 ^ r.log2 * 2 ^ r.slot → r.seen = some d → (r.next : Int) - d < (2 ^ r.log2 : Nat) →
                (h.op = 4 → permits u (tenReq h.tenant 0x202) a h.mlen true = false →
                  Machine.exec .ftRxSend s = .next (ftNak path h 1 (refuse (tenReq h.tenant 0x202) a h.mlen u))) ∧
                (permits u (tenReq h.tenant 0x202) a h.mlen true = true → ftAdmitSend h path u =
                  (u.setFtRq (16 * h.tenant + h.raddr) (some { r with next := r.next + 1, seen := some d }),
                    .ok { rxEntryOf u h path none a with rq := some (16 * h.tenant + h.raddr, r.next) }))) ∧
              (r.seen = none ∨ (∃ d, r.seen = some d ∧ (2 ^ r.log2 : Nat) ≤ (r.next : Int) - d) →
                (h.op = 4 → permits u (tenReq h.tenant 0x202) r.done 8 false = false →
                  Machine.exec .ftRxSend s = .next (ftNak path h 1 (refuse (tenReq h.tenant 0x202) r.done 8 u))) ∧
                (permits u (tenReq h.tenant 0x202) r.done 8 false = true →
                  (∀ w c, h.op = 4 → readMem u r.done 8 = (w, .error c) → Machine.exec .ftRxSend s = .next (ftNak path h 4 w)) ∧
                  (∀ w d, h.op = 4 → readMem u r.done 8 = (w, .ok d) → (2 ^ r.log2 : Nat) ≤ (r.next : Int) - leNat d →
                    Machine.exec .ftRxSend s = .next (ftNak path h 3 (w.setFtRq (16 * h.tenant + h.raddr) (some { r with seen := some (leNat d) })))) ∧
                  (∀ w d a, readMem u r.done 8 = (w, .ok d) → (r.next : Int) - leNat d < (2 ^ r.log2 : Nat) →
                    a = r.base + r.next % 2 ^ r.log2 * 2 ^ r.slot → permits w (tenReq h.tenant 0x202) a h.mlen true = true →
                    ftAdmitSend h path u = (w.setFtRq (16 * h.tenant + h.raddr) (some { r with next := r.next + 1, seen := some (leNat d) }),
                      .ok { rxEntryOf w h path none a with rq := some (16 * h.tenant + h.raddr, r.next) }))))))) ∧
        (h.op = 5 → fld pay 0 1 = 0 ∨ 6 < fld pay 0 1 ∨ h.mlen ≠ aopSize (fld pay 0 1) → Machine.exec .ftRxAtomic s = .next (ftNak path h 5 u)) ∧
        (1 ≤ fld pay 0 1 → fld pay 0 1 ≤ 6 → h.mlen = aopSize (fld pay 0 1) →
          (∀ r, h.op = 5 → ftRegion u h 4 h.mlen h.mlen = .error r → Machine.exec .ftRxAtomic s = .next (ftNak path h r u)) ∧
          (∀ k, ftRegion u h 4 h.mlen h.mlen = .ok k →
            ftAdmitAtomic (fld pay 0 1) h path u = (u, .ok (rxEntryOf u h path (some k) h.raddr)))) ∧
        (h.op = 0x0A → 17408 ≤ h.raddr ∨ ctrOwner u h.raddr ≠ h.tenant + 1 →
          Machine.exec .ftRxSignal s = .next (ftNak path h 1 (remoteApply 0x203 h.src h.raddr 0 h.tenant u).1)) ∧
        (h.raddr < 17408 → ctrOwner u h.raddr = h.tenant + 1 → ftAdmitSignal h path u = (u, .ok (rxEntryOf u h path none h.raddr)))) ∧
      (∀ r, h.op = 2 → ftRegion u h 2 h.mlen 1 = .error r → Machine.exec .ftRxRead s = .next (ftNak path h r u)) ∧
      (∀ k, h.op = 2 → ftRegion u h 2 h.mlen 1 = .ok k → Machine.exec .ftRxRead s = .next (((List.range 128).filter fun i =>
        bit (leNat pay) i && decide (h.pidx + i < ftCount h.mlen h.mtu)).foldl (fun s i => ftReadPkt path h i s) u)) ∧
      (∀ cmd op, (cmd, op) ∈ [(Instr.ftRxReadResp, 3), (.ftRxAtomicResp, 6), (.ftRxAck, 7)] → h.op = op → ftMine u h = none →
        Machine.exec cmd s = .next u) ∧
      (h.op = 8 → h.mlen = 0 ∨ 7 ≤ h.mlen → Machine.exec .ftRxNak s = .next (ftDiscard u)) ∧
      (h.op = 8 → 1 ≤ h.mlen → h.mlen ≤ 6 → ftMine u h = none → Machine.exec .ftRxNak s = .next u) ∧
      (∀ i m, ftMine u h = some (i, m) →
        (h.op = 3 → m.op ≠ 2 ∨ m.pkts ≤ h.pidx ∨ h.pidx < m.cum ∨ m.held.contains h.pidx = true → Machine.exec .ftRxReadResp s = .next u) ∧
        (h.op = 3 → m.op = 2 → h.pidx < m.pkts → m.cum ≤ h.pidx → m.held.contains h.pidx = false →
          (h.plen ≠ min (2 ^ m.mtu) (m.len - h.pidx * 2 ^ m.mtu) ∨ h.mlen ≠ m.len → Machine.exec .ftRxReadResp s = .next (ftDiscard u)) ∧
          (∀ w x r, h.plen = min (2 ^ m.mtu) (m.len - h.pidx * 2 ^ m.mtu) → h.mlen = m.len →
            (m.data = none ∧ writeMem u (m.laddr + h.pidx * 2 ^ m.mtu) pay = (w, r) ∧
                x = cumUp (clearPkt { m with held := m.held ++ [h.pidx], moved := w.tb.ticks } h.pidx)) ∨
              ((∃ d, m.data = some d) ∧ w = u ∧ r = none ∧ x = cumUp (clearPkt
                { m with got := tput [] m.got h.pidx pay, held := m.held ++ [h.pidx], moved := w.tb.ticks } h.pidx)) →
            (r.isSome = true → Machine.exec .ftRxReadResp s = .next (workGo (ftAbort i 0x0401 0 (w.setFtMsg i (some x))))) ∧
            (r = none → m.pkts ≤ x.cum → Machine.exec .ftRxReadResp s = .next (workGo (ftEndMsg i 0x0000 0 (w.setFtMsg i (some x))))) ∧
            (r = none → x.cum < m.pkts → Machine.exec .ftRxReadResp s = .next (w.setFtMsg i (some x))))) ∧
        (h.op = 6 → m.op ≠ 5 → Machine.exec .ftRxAtomicResp s = .next u) ∧
        (h.op = 6 → m.op = 5 → aopFetch m.aop = false →
          Machine.exec .ftRxAtomicResp s = .next (workGo (ftEndMsg i (h.mlen % 65536) 0 (ftClose i m false u)))) ∧
        (∀ w, h.op = 6 → m.op = 5 → aopFetch m.aop = true → writeMem u m.laddr (leBytes 8 (leNat pay)) = (w, none) →
          Machine.exec .ftRxAtomicResp s = .next (workGo (ftEndMsg i (h.mlen % 65536) (leNat pay) (ftClose i m false w)))) ∧
        (∀ w r, h.op = 6 → m.op = 5 → aopFetch m.aop = true → writeMem u m.laddr (leBytes 8 (leNat pay)) = (w, some r) →
          Machine.exec .ftRxAtomicResp s = .next (workGo (ftEndMsg i 0x0401 (leNat pay) (ftClose i m false w)))) ∧
        (h.op = 7 → m.op = 2 → Machine.exec .ftRxAck s = .next u) ∧
        (h.op = 7 → m.op = 5 → Machine.exec .ftRxAck s = .next (ftCuts m (h.mlen % 256) u)) ∧
        (∀ w, h.op = 7 → m.op ≠ 2 → m.op ≠ 5 → w = ftCuts m (h.mlen % 256) u →
          (bit h.mlen 8 = true → Machine.exec .ftRxAck s = .next (workGo (ftEndMsg i 0x0000 0 (ftClose i m false w)))) ∧
          (bit h.mlen 8 = false → Machine.exec .ftRxAck s = .next (w.setFtMsg i (some (ftAcked m h.pidx (leNat pay) w.tb.ticks))))) ∧
        (∀ q, h.op = 8 → h.mlen = 3 → m.pkt h.pidx = some q → Machine.exec .ftRxNak s = .next ((u.count .ftRnr 0 0 1).setFtMsg i (some { m with
          pk := tput none m.pk h.pidx (some { q with due := (u.count .ftRnr 0 0 1).tb.ticks + q.rto, again := false, rnr := true }) }))) ∧
        (h.op = 8 → h.mlen = 3 → m.pkt h.pidx = none → Machine.exec .ftRxNak s = .next (u.count .ftRnr 0 0 1)) ∧
        (h.op = 8 → ∀ st, (h.mlen, st) ∈ [(1, 0x0501), (2, 0x0503), (4, 0x0401), (5, 0x0103), (6, 0x0602)] →
          Machine.exec .ftRxNak s = .next (workGo (ftAbort i st 0 u)))) ∧
      (h.op = 9 → ftFind u h.src h.msg = none → Machine.exec .ftRxClose s = .next u) ∧
      (∀ e, h.op = 9 → ftFind u h.src h.msg = some e →
        (e.st = .active → bit h.mlen 0 = true → Machine.exec .ftRxClose s = .next (ftRelease e (modRx h.src h.msg (fun e => { e with
          st := .aborted, since := u.tb.ticks, ackDue := none }) u))) ∧
        (e.st = .active → bit h.mlen 0 = false → Machine.exec .ftRxClose s = .next u) ∧
        (e.st = .done → Machine.exec .ftRxClose s = .next (modRx h.src h.msg (fun e => { e with close := some (h.time + ftMaxAge u * 1000) }) u)) ∧
        (e.st = .aborted → Machine.exec .ftRxClose s = .next (ftNak path h 6 u))))) ∧
  (∀ (m : FtMsg) (pidx sack ticks : Nat), (ftAcked m pidx sack ticks).cum = max m.cum pidx ∧
    (∀ k, k ∈ (ftAcked m pidx sack ticks).held ↔ max m.cum pidx < k ∧ (k ∈ m.held ∨ (pidx < k ∧ k < pidx + 128 ∧ bit sack (k - pidx) = true)))) ∧
  (∀ (s : State) (src msg : Nat) (e : FtRx), s.power.running = true → ftFind s src msg = some e →
    (∀ t, e.ackDue = some t → 0 < e.count → t ≤ s.tb.ticks → Machine.exec (.ftAckTimer src msg) s = .next (ftAck src msg s)) ∧
    (∀ t, e.ackDue = some t → s.tb.ticks < t → Machine.exec (.ftAckTimer src msg) s = .next s) ∧
    (e.st = .active → e.last + 50000000 ≤ s.tb.ticks → Machine.exec (.ftEntryIdleAbort src msg) s = .next (sticky none .ftErr 0 0 16 (ftRelease e
      (modRx src msg (fun e => { e with st := .aborted, since := s.tb.ticks, ackDue := none }) s)))) ∧
    (s.tb.ticks < e.last + 50000000 → Machine.exec (.ftEntryIdleAbort src msg) s = .next s) ∧
    (e.st = .done ∨ e.st = .aborted → e.since + 51000000 + ftMaxAge s * 1000 ≤ s.tb.ticks →
      Machine.exec (.ftEntryLinger src msg) s = .next (delRx src msg s)) ∧
    (e.st = .active → Machine.exec (.ftEntryLinger src msg) s = .next s ∧ Machine.exec (.ftCloseAgeExpiry src msg) s = .next s) ∧
    (∀ t, e.st = .done → e.close = some t → t ≤ s.now → Machine.exec (.ftCloseAgeExpiry src msg) s = .next (delRx src msg s)) ∧
    (∀ t, e.close = some t → s.now < t → Machine.exec (.ftCloseAgeExpiry src msg) s = .next s))
/-- Storage queues, volumes and drives under command (R214, R216, R401, R403, R404, R416, R420): SQ_CREATE makes an ABSENT queue of the form its SQ
chooses, and strict mode refuses a shared completion work queue; SQ_DELETE removes a queue without outstanding tags; VOL_CREATE waits for its
journal records, of a drive that is missing it answers NO_RESOURCE; VOL_DELETE journals the deletion; VOL_BIND binds and unbinds; DRIVE_INFO writes the
identify data of a present drive; each answers STATE_CONFLICT in another state. A doorbell moves its index, a bad one sets the tenant's error;
a drive's CTRL makes it AUTONOMOUS or COMMANDED, and tenants cannot write it. -/
def Obligations.Storage_Control : Prop :=
  ∀ (s u : State) (id : Nat) (c : Cmd) (i : Nat) (q : StoQ) (v : Vol),
    (i = 16 * c.fn + c.p 0 →
      (Ready s .sqCreate id c → (s.stoQ i).active = false → c.p 2 ≠ 0 → Machine.exec (.sqCreate id) s = .next (finish0 id 0x0000 (s.setStoQ i
        { active := true, ibc := false, sq := c.p 2, cq := c.p 3, k := 0, vector := c.p 1, head := 0, tail := 0, cqTail := 0, used := 0, phase := true, failed := false }))) ∧
      (Ready s .sqCreate id c → (s.stoQ i).active = false → c.p 2 = 0 → strict s c.fn = false ∨ (∀ j, j < 16 → ¬ ((s.stoQ (16 * c.fn + j)).active = true ∧
          (s.stoQ (16 * c.fn + j)).ibc = true ∧ (s.stoQ (16 * c.fn + j)).k = c.p 3)) →
        Machine.exec (.sqCreate id) s = .next (finish0 id 0x0000 (s.setStoQ i
          { active := true, ibc := true, sq := 0, cq := 0, k := c.p 3, vector := 0xFFFF, head := 0, tail := 0, cqTail := 0, used := 0, phase := true, failed := false }))) ∧
      (∀ j, Ready s .sqCreate id c → (s.stoQ i).active = false → c.p 2 = 0 → strict s c.fn = true → j < 16 → q = s.stoQ (16 * c.fn + j) →
        q.active = true → q.ibc = true → q.k = c.p 3 → Machine.exec (.sqCreate id) s = .next (finish0 id 0x0105 (varRefuse c.fn s))) ∧
      (Ready s .sqCreate id c → (s.stoQ i).active = true →
        Machine.exec (.sqCreate id) s = .next (finish id 0x0201 (0x0C + c.p 0 * 256) 1 0 0 s)) ∧
      (Ready s .sqDelete id c → (s.stoQ i).active = true → (∀ o ∈ s.sto.ops, o.for_ = .queue i → o.held = false) →
        Machine.exec (.sqDelete id) s = .next (finish0 id 0x0000 { s with
          sto := { s.sto with queues := tdel s.sto.queues i, ops := s.sto.ops.filter fun o => o.for_ != .queue i }
          net := { s.net with wq := tdel s.net.wq (256 + i) } })) ∧
      (∀ o, Ready s .sqDelete id c → (s.stoQ i).active = true → o ∈ s.sto.ops → o.for_ = .queue i → o.held = true →
        Machine.exec (.sqDelete id) s = .next (finish id 0x0201 (0x0C + c.p 0 * 256) 1 0 0 s)) ∧
      (Ready s .sqDelete id c → (s.stoQ i).active = false →
        Machine.exec (.sqDelete id) s = .next (finish id 0x0201 (0x0C + c.p 0 * 256) 0 0 0 s))) ∧
    (∀ ds, ds = maskDrives (c.p 1) → Ready s .volCreate id c → (s.vol (c.p 0)).st = 0 → (∀ j ∈ s.sto.jobs, j.vol ≠ c.p 0) →
      ((∀ d ∈ ds, (s.drive d).accepted = true ∧ (s.drive d).failed = false ∧ shareOf (c.p 1) (c.p 2) d ≤ extentLen (s.drive d).dm.free) →
        u = { s with sto := { s.sto with jobs := s.sto.jobs ++ [⟨id, c.p 0, c.p 1, c.p 2, true, ds.length, false⟩] } } →
        Machine.exec (.volCreate id) s = .next (stoRun (working id (ds.foldl (fun s d => volTake id (c.p 0) (c.p 1) (c.p 2) d s) u)))) ∧
      (∀ d ∈ ds, (s.drive d).accepted = false ∨ (s.drive d).failed = true ∨ extentLen (s.drive d).dm.free < shareOf (c.p 1) (c.p 2) d →
        Machine.exec (.volCreate id) s = .next (finish0 id 0x0301 s))) ∧
    (∀ d n x rest ext, x = s.drive d → takeUnits (shareOf (c.p 1) n d) x.dm.free = (ext, rest) → volTake id (c.p 0) (c.p 1) n d s =
      s.setDrive d { x with dm := { x.dm with free := rest }, todo := x.todo ++ [.vol id (.create (c.p 0) (c.p 1) n ext)] }) ∧
    (v = s.vol (c.p 0) →
      (Ready s .volCreate id c → v.st ≠ 0 ∨ (∃ j ∈ s.sto.jobs, j.vol = c.p 0) →
        Machine.exec (.volCreate id) s = .next (finish id 0x0201 (0x0D + c.p 0 * 256) v.st 0 0 s)) ∧
      (Ready s .volDelete id c → v.st ≠ 1 ∨ (∃ j ∈ s.sto.jobs, j.vol = c.p 0) →
        Machine.exec (.volDelete id) s = .next (finish id 0x0201 (0x0D + c.p 0 * 256) v.st 0 0 s)) ∧
      (∀ ds, Ready s .volDelete id c → v.st = 1 → (∀ j ∈ s.sto.jobs, j.vol ≠ c.p 0) →
        ds = (maskDrives v.mask).filter (fun d => (s.drive d).accepted && !(s.drive d).failed) →
        u = { s with sto := { s.sto with jobs := s.sto.jobs ++ [⟨id, c.p 0, v.mask, v.blocks, false, ds.length, false⟩] } } →
        Machine.exec (.volDelete id) s = .next (endJob id (stoRun (working id (ds.foldl (fun s d =>
          s.setDrive d { s.drive d with todo := (s.drive d).todo ++ [.vol id (.delete (c.p 0))] }) u))))) ∧
      (Ready s .volBind id c → c.p 1 ≠ 0xFF → v.st = 1 → (∀ j ∈ s.sto.jobs, j.vol ≠ c.p 0) → Machine.exec (.volBind id) s =
        .next (finish0 id 0x0000 (stoRun (allPower (s.setVol (c.p 0) { v with st := 2, tenant := c.p 1, preq := none }))))) ∧
      (Ready s .volBind id c → c.p 1 ≠ 0xFF → v.st ≠ 1 ∨ (∃ j ∈ s.sto.jobs, j.vol = c.p 0) →
        Machine.exec (.volBind id) s = .next (finish id 0x0201 (0x0D + c.p 0 * 256) v.st 0 0 s)) ∧
      (Ready s .volBind id c → c.p 1 = 0xFF → v.st = 2 → (∀ o ∈ s.sto.ops, o.vol = c.p 0 → o.held = true → o.for_ = .gone) →
        Machine.exec (.volBind id) s = .next (finish0 id 0x0000 (stoRun (allPower (s.setVol (c.p 0) { v with st := 1, tenant := 0, preq := none }))))) ∧
      (Ready s .volBind id c → c.p 1 = 0xFF → v.st ≠ 2 ∨ (∃ o ∈ s.sto.ops, o.vol = c.p 0 ∧ o.held = true ∧ o.for_ ≠ .gone) →
        Machine.exec (.volBind id) s = .next (finish id 0x0201 (0x0D + c.p 0 * 256) v.st 0 0 s))) ∧
    (Ready s .driveInfo id c → (s.drive (c.p 0)).id = none →
      Machine.exec (.driveInfo id) s = .next (finish id 0x0201 (0x15 + c.p 0 * 256) (driveCode s (c.p 0)) 0 0 s)) ∧
    (∀ x, Ready s .driveInfo id c → (s.drive (c.p 0)).id = some x →
      (∀ r, hostWrite s c.fn (c.p 1) (fit 4096 x.ident) = (u, .ok r) → Machine.exec (.driveInfo id) s = .next (finish0 id 0x0000 u)) ∧
      (∀ r, hostWrite s c.fn (c.p 1) (fit 4096 x.ident) = (u, .error r) → Machine.exec (.driveInfo id) s =
        .next (if r = .wait then u else finish0 id 0x0601 u))) ∧
    (∀ (who k : Nat) (val : Word), s.power.running = true → tget 0 s.own.devs 0x0E ≠ 0 → who < 18 → k < 256 → q = s.stoQ k →
      (who = k / 16 ∨ 16 ≤ who → q.active = true → q.ibc = false → val.toNat < 32 →
        Machine.exec (.stoDoorbellWrite who k 0 val) s = .next (s.setStoQ k { q with tail := val.toNat }) ∧
        Machine.exec (.stoDoorbellWrite who k 1 val) s = .next (stoRun (s.setStoQ k { q with used := (q.cqTail + 32 - val.toNat) % 32 }))) ∧
      (∀ w, w < 2 → who = k / 16 ∨ 16 ≤ who → q.active = false ∨ q.ibc = true ∨ 32 ≤ val.toNat →
        Machine.exec (.stoDoorbellWrite who k w val) s = .next (sticky (some (k / 16)) .stoTenErr (k / 16) 0 1 s)) ∧
      (∀ w, w < 2 → who < 16 → who ≠ k / 16 → Machine.exec (.stoDoorbellWrite who k w val) s = .next s)) ∧
    (∀ (who d : Nat) (val : Word), s.power.running = true → tget 0 s.own.devs 0x0E ≠ 0 → who < 18 → d < 4 →
      (16 ≤ who → u = s.setReg .driveCtrl d 0 (bits val.toNat 0 0) →
        ((s.drive d).accepted = false ∨ (s.drive d).failed = true → Machine.exec (.apstWrite who d val) s = .next u) ∧
        ((s.drive d).accepted = true → (s.drive d).failed = false → bit val.toNat 0 = true →
          Machine.exec (.apstWrite who d val) s = .next (stoRun (u.setDrive d { s.drive d with todo := (s.drive d).todo ++ [.apst] }))) ∧
        ((s.drive d).accepted = true → (s.drive d).failed = false → bit val.toNat 0 = false →
          Machine.exec (.apstWrite who d val) s = .next (stoRun (drivePower d u)))) ∧
      (who < 16 → Machine.exec (.apstWrite who d val) s = .next s))
/-- The storage service at work (R399, R400, R405, R406, R408, R410, R415): the service issues the upstream reads its queues need, and a take
removes the entry of the queue whose turn it is; an entry that fails a check takes no tag and its completion carries that check's status; a good
one starts, FLUSH waiting for earlier writes only and TRIM becoming its parts. What a drive answers ends what the command was issued for, an error
status as MEDIA_ERROR; a time limit resets the controller and sets the drive's error, a drive that is not ready or leaves becomes FAILED, one that
appears is accepted or refused with the first failing condition; tests start again after the idle time, end with their result in RESULT0, or at
LIMIT with NO_RESOURCE. -/
def Obligations.Storage_Service : Prop :=
  ∀ (s u : State), s.power.running = true →
    (∀ (cmd : Instr) (op i : Nat) (e : Bytes) (q : StoQ),
      (cmd, op) ∈ [(Instr.stoRead, 1), (.stoWrite, 2), (.stoFlush, 3), (.stoTrim, 4), (.stoAtomicWrite, 5), (.stoSelfTest, 6), (.stoPower, 7)] →
      u = stoAsk s →
      (stoNext u = none → Machine.exec cmd s = .next (stoWake u)) ∧
      (stoNext u = some i → q = u.stoQ i → e = headEntry u i →
        (fld e 0 1 ≠ op → 1 ≤ fld e 0 1 → fld e 0 1 ≤ 7 → Machine.exec cmd s = .next u) ∧
        (fld e 0 1 = op ∨ fld e 0 1 = 0 ∨ 7 < fld e 0 1 →
          (q.ibc = true → Machine.exec cmd s = .next (stoRun (stoTakeEntry i e (u.setWq (256 + i) ((u.wq (256 + i)).drop 1))))) ∧
          (q.ibc = false → .bad ∈ hostCells u (fnPort u (i / 16)) (q.sq + 64 * q.head) 64 →
            Machine.exec cmd s = .next (sticky (some (i / 16)) .stoTenErr (i / 16) 0 2 (u.setStoQ i { q with failed := true }))) ∧
          (q.ibc = false → .bad ∉ hostCells u (fnPort u (i / 16)) (q.sq + 64 * q.head) 64 →
            Machine.exec cmd s = .next (stoRun (stoTakeEntry i e (u.setStoQ i { q with head := (q.head + 1) % 32 }))))))) ∧
    (∀ (i : Nat) (e : Bytes) (y : State) (o : StoOp), y = { s with sto := { s.sto with take := s.sto.take + 1, lastQ := i } } →
      o = { take := s.sto.take, for_ := .queue i, held := false, op := fld e 0 1, tag := fld e 2 1, ended := true } →
      (fld e 0 1 = 0 ∨ 7 < fld e 0 1 → stoTakeEntry i e s = stoAdd { o with st := 0x0101 } y) ∧
      (1 ≤ fld e 0 1 → fld e 0 1 ≤ 7 →
        (∀ st r0, stoForm y e = some (st, r0) → stoTakeEntry i e s = stoAdd { o with st := st, r0 := r0 } y) ∧
        (∀ v, stoForm y e = none → v = y.vol (fld e 4 2) →
          (v.st ≠ 2 ∨ v.tenant ≠ i / 16 → stoTakeEntry i e s = stoAdd { o with st := 0x0501 } (addrDenied (tenReq (i / 16) 0x212) y)) ∧
          (v.st = 2 → v.tenant = i / 16 → ∀ ok z, (if fld e 0 1 = 1 ∨ fld e 0 1 = 2 ∨ fld e 0 1 = 5 then
              mayReach (i / 16) (fld e 24 8) (fld e 16 4 * 4096) (fld e 0 1 == 1) 0x212 y else (true, y)) = (ok, z) →
            (ok = false → stoTakeEntry i e s = stoAdd { o with st := refusedSt z (tenReq (i / 16) 0x212) (fld e 24 8) (fld e 16 4 * 4096) } z) ∧
            (∀ xl, ok = true → xl = translateFor z (i / 16 + 1) (fnBind z (i / 16)) (bits (fld e 20 4) 23 0) →
              (fld e 20 4 ≠ 0 → xl = .none → stoTakeEntry i e s = stoAdd { o with st := 0x0501 } (addrDenied (tenReq (i / 16) 0x212) z)) ∧
              (fld e 20 4 = 0 ∨ xl ≠ .none →
                (∀ x ∈ z.sto.ops, x.for_ = .queue i → x.held = true → x.tag = fld e 2 1 →
                  stoTakeEntry i e s = stoAdd { o with st := 0x0201, r0 := 0x14 + o.tag * 256, r1 := 1 } z) ∧
                ((∀ x ∈ z.sto.ops, x.for_ = .queue i → x.held = true → x.tag ≠ fld e 2 1) →
                  (fld e 20 4 ≠ 0 → xl = .ue → stoTakeEntry i e s = stoAdd { o with st := 0x0401 } (z.orReg .syncErr 0 0 16)) ∧
                  (∀ p : StoOp, fld e 20 4 = 0 ∨ xl ≠ .ue → p = { o with
                      held := true, ended := false, vol := fld e 4 2, lba := fld e 8 8, count := fld e 16 4, buf := fld e 24 8
                      sig := if fld e 20 4 = 0 then none else some (xl, bits (fld e 20 4) 31 24) } →
                    stoTakeEntry i e s = stoStart (i / 16) p e (stoAdd p z) ∧
                    (p.op = 3 → stoTakeEntry i e s = stoAdd p z) ∧
                    (p.op = 4 → stoTakeEntry i e s =
                      modOp p.take (fun x => { x with parts := writeParts 4 (fld e 8 8) (fld e 16 4) }) (stoAdd p z)))))))))) ∧
    (∀ (d cid status : Nat) (data : Bytes) (x : Drive) (y : NCmd) (rest : List NCmd), d < 4 → x = s.drive d →
      (∀ n, n < 2 ^ 16 → takeFirst (fun c => c.cid == cid) x.cmds = none →
        Machine.exec (.nvmeCommandComplete ⟨d, n⟩ cid status data) s = .next (s.countTv 5 n) ∧ Machine.exec (.nvmeCommandTimeout d cid) s = .next s) ∧
      (∀ n, takeFirst (fun c => c.cid == cid) x.cmds = some (y, rest) →
        u = (s.countTv 5 n).setDrive d { x with cmds := rest, last := (s.countTv 5 n).tb.ticks } →
        Machine.exec (.nvmeCommandComplete ⟨d, n⟩ cid status data) s = .next (workGo (stoRun (nvmeEnd d (status % 2 ^ 16) data y.why u)))) ∧
      (∀ take i, nvmeEnd d 0 data (.part take i) s = partAnswer d take i data s) ∧
      (∀ take i o p n, n ≠ 0 → s.sto.ops.find? (fun o => o.take == take) = some o → o.parts[i]? = some p →
        nvmeEnd d n data (.part take i) s = stopPart d take i (stoMedia d take (d + n * 256) ((o.lba + p.off) % 2 ^ 32) s)) ∧
      (∀ id r n, nvmeEnd d n data (.vol id r) s = jobAnswer d id r (decide (n = 0)) s) ∧
      (∀ p, nvmeEnd d 0 data (.power p) s = drivePower d (s.setDrive d { x with ps := p })) ∧
      (takeFirst (fun c => c.cid == cid) x.cmds = some (y, rest) →
        (s.tb.ticks < y.due → Machine.exec (.nvmeCommandTimeout d cid) s = .next s) ∧
        (y.due ≤ s.tb.ticks →
          u = send (.nvme d x.cid 7 0 0 []) ((sticky none .driveErr d 0 2 s).setDrive d { x with
            cmds := [], cid := x.cid + 1, todo := nvmeKept rest ++ x.todo, last := (sticky none .driveErr d 0 2 s).tb.ticks
            resetDue := some ((sticky none .driveErr d 0 2 s).tb.ticks + 10000000000), test := x.test.map fun t => { t with on := false } }) →
          Machine.exec (.nvmeCommandTimeout d cid) s = .next (workGo (stoRun (nvmeLate d y.why (nvmeRedo rest u)))))) ∧
      (∀ take i, nvmeLate d (.part take i) s = stopPart d take i (stoMedia d take 0xFFFF 0 s)) ∧
      (∀ id r, nvmeLate d (.vol id r) s = jobAnswer d id r false s) ∧
      (∀ t, x.resetDue = some t →
        (x.failed = false → Machine.exec (.driveReady d) s = .next (stoRun (s.setDrive d { x with resetDue := none, last := s.tb.ticks }))) ∧
        (x.failed = true → Machine.exec (.driveReady d) s = .next s) ∧
        (t ≤ s.tb.ticks → Machine.exec (.driveReadyTimeout d) s = .next (driveFail d s)) ∧
        (s.tb.ticks < t → Machine.exec (.driveReadyTimeout d) s = .next s)) ∧
      (x.resetDue = none → Machine.exec (.driveReady d) s = .next s ∧ Machine.exec (.driveReadyTimeout d) s = .next s) ∧
      (∀ ident, x.accepted = true → x.failed = false →
        Machine.exec (.drivePresenceChange d (some ident)) s = .next (driveAccept d ident (driveFail d s))) ∧
      (x.accepted = true → x.failed = true → Machine.exec (.drivePresenceChange d none) s = .next (s.setDrive d { x with id := none })) ∧
      (x.accepted = false → Machine.exec (.drivePresenceChange d none) s = .next (s.setDrive d
        { id := none, accepted := false, failed := false, refuse := 0, ps := 0, dm := ⟨[], [], [], 0⟩, old := [], cmds := [], todo := [], cid := x.cid
          last := 0, test := none, resetDue := none })) ∧
      (∀ ident r, x.accepted = false ∨ x.failed = true → r = driveRefuse ident →
        (r ≠ 0 → Machine.exec (.drivePresenceChange d (some ident)) s = .next (s.setDrive d
          { id := some ident, accepted := false, failed := false, refuse := r, ps := 0, dm := ⟨[], [], [], 0⟩, old := [], cmds := [], todo := [], cid := x.cid
            last := 0, test := none, resetDue := none })) ∧
        (r = 0 → Machine.exec (.drivePresenceChange d (some ident)) s = .next (driveAccept d ident s))) ∧
      (x.accepted = true → x.failed = false →
        Machine.exec (.drivePresenceChange d none) s = .next (driveFail d (s.setDrive d { x with id := none }))) ∧
      (∀ t result, x.test = some t → t.on = true → u = s.setDrive d { x with test := none } → Machine.exec (.deviceSelfTestComplete d result) s =
        .next (stoRun (t.for_.foldl (fun s k => modOp k (fun o => { o with r0 := putBits o.r0 (4 * d + 3) (4 * d) result }) s) u))) ∧
      (x.test = none → ∀ result, Machine.exec (.deviceSelfTestComplete d result) s = .next s ∧ Machine.exec (.selfTestRestart d) s = .next s) ∧
      (∀ t result, x.test = some t → t.on = false → Machine.exec (.deviceSelfTestComplete d result) s = .next s) ∧
      (∀ t, x.test = some t → t.on = false → t.ran = false → driveUp x = true → x.cmds = [] → x.todo = [] →
        x.last + max 1 (bits (s.reg .stoCtrl) 23 8) * 1000000 ≤ s.tb.ticks → Machine.exec (.selfTestRestart d) s =
          .next (send (.nvme d x.cid 3 t.kind 0 []) (s.setDrive d { x with test := some { t with on := true, ran := true }, cid := x.cid + 1 }))) ∧
      (∀ t, x.test = some t → t.on = false → t.ran = true → driveUp x = true → x.cmds = [] → x.todo = [] →
        x.last + max 1 (bits (s.reg .stoCtrl) 23 8) * 1000000 ≤ s.tb.ticks →
        u = send (.nvme d x.cid 3 t.kind 0 []) (s.setDrive d { x with test := some { t with on := true, ran := true }, cid := x.cid + 1 }) →
        Machine.exec (.selfTestRestart d) s =
          .next (t.for_.foldl (fun s k => modOp k (fun o => { o with restarts := o.restarts + 1 }) s) (u.count .driveStRestarts d 0 1))) ∧
      (∀ t, x.test = some t → t.on = true ∨ driveUp x = false ∨ x.cmds ≠ [] ∨ x.todo ≠ [] ∨
          s.tb.ticks < x.last + max 1 (bits (s.reg .stoCtrl) 23 8) * 1000000 → Machine.exec (.selfTestRestart d) s = .next s)) ∧
    (∀ (take t : Nat) (o : StoOp), s.sto.ops.find? (fun o => o.take == take) = some o → o.op = 6 → o.ended = false → o.limit = some t →
      (t ≤ s.tb.ticks → Machine.exec (.selfTestLimit take) s = .next (stoRun (modOp take (fun o => { o with st := 0x0301, r0 := 0, r1 := o.restarts })
        ((List.range 4).foldl (fun s d => leaveTest take d s) s)))) ∧
      (s.tb.ticks < t → Machine.exec (.selfTestLimit take) s = .next s))
/-- The register map names every register word once (R9, R10, R14, R44): the offset of word `w` of copy `j` of a register of block instance `i`
leads back to exactly that register, instance, copy and word, for every register and every index that its block, row and width have. So
no two registers share an address. The block of engine e of lode n, ME[2n + e], begins at 0x0100_0000 + n × 0x4_0000 + 0x1_0000 + e × 0x1000,
and its registers lie in the 4 KiB from there (R79). -/
def Obligations.RegisterMap_RoundTrip : Prop :=
  ∀ (r : Reg) (i j w : Nat), i < blkCount (regRow r).blk → j < (regRow r).count → w < (regRow r).words →
    regOf (regAddr r i j w) = some (r, i, j, w) ∧
    (∀ n e, (regRow r).blk = .me → i = 2 * n + e → e < 2 →
      blkBase .me i = 0x1000000 + n * 0x40000 + 0x10000 + e * 0x1000 ∧
      0x1000000 + n * 0x40000 + 0x10000 + e * 0x1000 ≤ regAddr r i j w ∧
      regAddr r i j w + 4 ≤ 0x1000000 + n * 0x40000 + 0x10000 + e * 0x1000 + 0x1000)
end

