-- ==== Sys2Proof/Laws/Tbl.lean ====
section
/-! SUPPORT. The laws of the sparse tables: what a store reads back as, and that every operation keeps the canonical form. -/
namespace Sys2Proof.Machine

open Sys2Proof

section
variable {α : Type}

theorem tget_tdel_same (d : α) (t : Tbl α) (k : Nat) : tget d (tdel t k) k = d := by
  induction t with
  | nil => rfl
  | cons e t ih =>
    obtain ⟨k0, v0⟩ := e
    by_cases h : k0 = k
    · simpa [tdel, h] using ih
    · have : ¬ k = k0 := fun x => h x.symm
      simpa [tdel, h, tget, this] using ih

theorem tget_tdel_other (d : α) (t : Tbl α) {k j : Nat} (h : j ≠ k) : tget d (tdel t k) j = tget d t j := by
  induction t with
  | nil => rfl
  | cons e t ih =>
    obtain ⟨k0, v0⟩ := e
    by_cases h0 : k0 = k
    · have : ¬ j = k0 := by omega
      simpa [tdel, h0, tget, show ¬ j = k from h] using ih
    · have ih' : tget d (t.filter fun e => e.1 ≠ k) j = tget d t j := ih
      simp [tdel, h0, tget]
      simpa using congrArg (fun x => if j = k0 then v0 else x) ih'

theorem tget_tins_same (d : α) (t : Tbl α) (k : Nat) (v : α) (h : ∀ e ∈ t, e.1 ≠ k) : tget d (tins t k v) k = v := by
  induction t with
  | nil => simp [tins, tget]
  | cons e t ih =>
    obtain ⟨k0, v0⟩ := e
    have h0 : k0 ≠ k := h (k0, v0) (by simp)
    have ih' := ih fun e he => h e (by simp [he])
    by_cases c : k < k0
    · simp [tins, c, tget]
    · simp [tins, c, tget, ih', Ne.symm h0]

theorem tget_tins_other (d : α) (t : Tbl α) {k j : Nat} (v : α) (h : j ≠ k) : tget d (tins t k v) j = tget d t j := by
  induction t with
  | nil => simp [tins, tget, h]
  | cons e t ih =>
    obtain ⟨k0, v0⟩ := e
    by_cases c : k < k0
    · simp [tins, c, tget, h]
    · simp [tins, c, tget, ih]

/-- A store reads back. -/
@[simp] theorem tget_tput_same [DecidableEq α] (d : α) (t : Tbl α) (k : Nat) (v : α) : tget d (tput d t k v) k = v := by
  unfold tput
  split
  · next h => rw [tget_tdel_same, h]
  · exact tget_tins_same d _ k v (by simp [tdel])

/-- A store leaves every other key alone. -/
theorem tget_tput_other [DecidableEq α] (d : α) (t : Tbl α) {k j : Nat} (v : α) (h : j ≠ k) {d' : α} :
    tget d' (tput d t k v) j = tget d' t j := by
  unfold tput
  split
  · exact tget_tdel_other d' t h
  · rw [tget_tins_other d' _ v h, tget_tdel_other d' t h]

theorem tkeys_mono {lo lo' : Nat} (h : lo' ≤ lo) : ∀ {t : Tbl α}, tkeys lo t = true → tkeys lo' t = true
  | [], _ => rfl
  | (k, v) :: t, ht => by
    simp [tkeys] at *
    exact ⟨by omega, ht.2⟩

theorem tkeys_filter (p : Nat × α → Bool) : ∀ {lo : Nat} {t : Tbl α}, tkeys lo t = true → tkeys lo (t.filter p) = true
  | _, [], _ => rfl
  | lo, (k, v) :: t, ht => by
    simp [tkeys] at ht
    have ih := tkeys_filter p ht.2
    by_cases c : p (k, v)
    · simp [List.filter, c, tkeys, ih, ht.1]
    · simp [List.filter, c]
      exact tkeys_mono (by omega) ih

theorem tkeys_tins (k : Nat) (v : α) : ∀ {lo : Nat} {t : Tbl α}, lo ≤ k → (∀ e ∈ t, e.1 ≠ k) → tkeys lo t = true →
    tkeys lo (tins t k v) = true
  | lo, [], hk, _, _ => by simp [tins, tkeys, hk]
  | lo, (k0, v0) :: t, hk, hn, ht => by
    simp [tkeys] at ht
    have h0 : k0 ≠ k := hn (k0, v0) (by simp)
    by_cases c : k < k0
    · simp [tins, c, tkeys, hk, ht.2] <;> omega
    · have := tkeys_tins k v (lo := k0 + 1) (t := t) (by omega) (fun e he => hn e (by simp [he])) ht.2
      simp [tins, c, tkeys, ht.1, this]

theorem tkeys_tput [DecidableEq α] (d : α) (k : Nat) (v : α) {t : Tbl α} (h : tkeys 0 t = true) : tkeys 0 (tput d t k v) = true := by
  unfold tput
  split
  · exact tkeys_filter _ h
  · exact tkeys_tins k v (by omega) (by simp [tdel]) (tkeys_filter _ h)

variable [DecidableEq α]

/-- The canonical form is rising keys and no entry equal to the default. -/
theorem twf_iff (d : α) : ∀ {lo : Nat} {t : Tbl α}, twf d lo t = true ↔ tkeys lo t = true ∧ ∀ e ∈ t, e.2 ≠ d
  | _, [] => by simp [twf, tkeys]
  | lo, (k, v) :: t => by
    simp [twf, tkeys, twf_iff d (lo := k + 1) (t := t), and_assoc]
    grind

theorem twf_filter (d : α) (p : Nat × α → Bool) {lo : Nat} {t : Tbl α} (h : twf d lo t = true) : twf d lo (t.filter p) = true := by
  rw [twf_iff] at *
  exact ⟨tkeys_filter p h.1, fun e he => h.2 e (List.mem_filter.mp he).1⟩

theorem mem_tins {e : Nat × α} (k : Nat) (v : α) : ∀ {t : Tbl α}, e ∈ tins t k v → e = (k, v) ∨ e ∈ t
  | [], h => by simpa [tins] using h
  | (k0, v0) :: t, h => by
    by_cases c : k < k0
    · simpa [tins, c] using h
    · simp [tins, c] at h
      rcases h with h | h
      · simp [h]
      · rcases mem_tins k v h with h | h <;> simp [h]

/-- Every entry after a store is the stored one or an old one. -/
theorem mem_tput {e : Nat × α} (d : α) (k : Nat) (v : α) {t : Tbl α} (h : e ∈ tput d t k v) : e = (k, v) ∨ e ∈ t := by
  unfold tput at h
  split at h
  · exact .inr (List.mem_filter.mp h).1
  · rcases mem_tins k v h with h | h
    · exact .inl h
    · exact .inr (List.mem_filter.mp h).1

/-- A store keeps the canonical form. -/
theorem twf_tput (d : α) (k : Nat) (v : α) {t : Tbl α} (h : twf d 0 t = true) : twf d 0 (tput d t k v) = true := by
  rw [twf_iff] at *
  refine ⟨tkeys_tput d k v h.1, fun e he => ?_⟩
  unfold tput at he
  split at he
  · exact h.2 e (List.mem_filter.mp he).1
  · next hv =>
    rcases mem_tins k v he with rfl | he
    · exact hv
    · exact h.2 e (List.mem_filter.mp he).1

end

theorem twf_memWrite : ∀ (bs : Bytes) (a : Nat) {m : Tbl Byte}, twf (0 : Byte) 0 m = true → twf (0 : Byte) 0 (memWrite m a bs) = true
  | [], _, _, h => h
  | b :: t, a, _, h => twf_memWrite t (a + 1) (twf_tput 0 a b h)

theorem twf_memZero (a n : Nat) {m : Tbl Byte} (h : twf (0 : Byte) 0 m = true) : twf (0 : Byte) 0 (memZero m a n) = true :=
  twf_filter 0 _ h

theorem twf_tdrop {α : Type} [DecidableEq α] (d : α) (p : Nat → Bool) {t : Tbl α} (h : twf d 0 t = true) : twf d 0 (tdrop t p) = true :=
  twf_filter d _ h

theorem twf_tdel {α : Type} [DecidableEq α] (d : α) (k : Nat) {t : Tbl α} (h : twf d 0 t = true) : twf d 0 (tdel t k) = true :=
  twf_filter d _ h

/-- A byte of a write reads back; every other byte is as it was. -/
theorem tget_memWrite : ∀ (bs : Bytes) (a : Nat) (m : Tbl Byte) (x : Nat),
    tget 0 (memWrite m a bs) x = if h : a ≤ x ∧ x < a + bs.length then bs[x - a]'(by omega) else tget 0 m x
  | [], a, m, x => by
    rw [dif_neg (by simp)]
    rfl
  | b :: t, a, m, x => by
    rw [memWrite, tget_memWrite t (a + 1) (tput 0 m a b) x]
    by_cases h1 : a + 1 ≤ x ∧ x < a + 1 + t.length
    · have h2 : a ≤ x ∧ x < a + (b :: t).length := by simp; omega
      rw [dif_pos h1, dif_pos h2]
      have : x - a = (x - (a + 1)) + 1 := by omega
      simp [this]
    · rw [dif_neg h1]
      by_cases h3 : x = a
      · subst h3
        simp
      · have h2 : ¬ (a ≤ x ∧ x < a + (b :: t).length) := by simp; omega
        rw [dif_neg h2, tget_tput_other 0 m b h3]

/-- Reading a table from which keys have been left out. -/
theorem tget_filter {α : Type} (d : α) (p : Nat → Bool) : ∀ (t : Tbl α) (k : Nat), tget d (t.filter fun e => p e.1) k = if p k then tget d t k else d
  | [], k => by simp [tget]
  | (k0, v0) :: t, k => by
    have ih := tget_filter d p t k
    by_cases h : p k0
    · rw [List.filter_cons_of_pos (by simpa using h)]
      unfold tget
      rw [ih]
      by_cases e : k = k0
      · subst e; simp [h]
      · simp [e]
    · rw [List.filter_cons_of_neg (by simpa using h), ih]
      by_cases e : k = k0
      · subst e; simp [h]
      · conv => rhs; unfold tget
        simp [e]

theorem tget_tdrop {α : Type} (d : α) (p : Nat → Bool) (t : Tbl α) (k : Nat) : tget d (tdrop t p) k = if p k then d else tget d t k := by
  unfold tdrop
  rw [tget_filter d (fun k => !p k)]
  cases p k <;> simp

/-- A range of memory that reads zero after a fill, and all that lies outside it. -/
theorem tget_memZero (m : Tbl Byte) (b len a : Nat) : tget 0 (memZero m b len) a = if b ≤ a ∧ a < b + len then 0 else tget 0 m a := by
  unfold memZero
  rw [tget_tdrop]
  by_cases h : b ≤ a <;> by_cases h' : a < b + len <;> simp [h, h']

theorem tdel_idem {α : Type} (t : Tbl α) (k : Nat) : tdel (tdel t k) k = tdel t k := by
  unfold tdel; simp

theorem tdel_tins {α : Type} (k : Nat) (v : α) : ∀ (t : Tbl α), tdel (tins t k v) k = tdel t k
  | [] => by simp [tins, tdel]
  | (k0, v0) :: t => by
    have ih := tdel_tins k v t
    unfold tdel at *
    unfold tins
    by_cases h : k < k0
    · simp [h]
    · by_cases e : k0 = k
      · subst e; simpa using ih
      · simpa [h, e] using ih

/-- The later of two stores at a key stands. -/
@[simp] theorem tput_tput {α : Type} [DecidableEq α] (d : α) (t : Tbl α) (k : Nat) (x y : α) : tput d (tput d t k x) k y = tput d t k y := by
  have e : tdel (tput d t k x) k = tdel t k := by
    unfold tput
    split
    · exact tdel_idem t k
    · rw [tdel_tins, tdel_idem]
  unfold tput at e ⊢
  rw [e]

end Sys2Proof.Machine
end

