-- ==== Sys2Proof/Laws/Commands.lean ====
section
/-! SUPPORT. The laws of the operations that every meaning is built from: `run`, `startOp`, `finish`, registers. -/
namespace Sys2Proof.Machine

open Sys2Proof

/-- A meaning whose operands name instances that exist does its work while clocks run. -/
theorem run_next {ok : Bool} {s : State} {f : State → State} (h : ok = true) (hr : s.power.running = true) : run ok s f = .next (f s) := by
  simp [run, h, hr]

/-- With the clocks stopped it changes nothing. -/
theorem run_stopped {ok : Bool} {s : State} {f : State → State} (h : ok = true) (hr : s.power.running = false) : run ok s f = .next s := by
  simp [run, h, hr]

theorem onlyIf_true {c : Bool} {f : State → State} {s : State} (h : c = true) : onlyIf c f s = f s := by simp [onlyIf, h]

theorem onlyIf_false {c : Bool} {f : State → State} {s : State} (h : c = false) : onlyIf c f s = s := by simp [onlyIf, h]

/-- A command that is ready does what its operation does. -/
theorem Ready.start {s : State} {o : Op} {id : Nat} {c : Cmd} (h : Ready s o id c) (f : Cmd → State → State) : startOp o id f s = f c s := by
  have hf : (devParams o c).find? (fun a => !namesOnly o && memWaits s a 1) = none := by
    rw [List.find?_eq_none]
    intro a ha
    simp [h.reach a ha]
  simp [startOp, h.found, h.op, h.phase, h.turn, h.on, hf]

/-- The command found under a take number is the one with that number. -/
theorem Ready.id_eq {s : State} {o : Op} {id : Nat} {c : Cmd} (h : Ready s o id c) : c.id = id := by
  simpa using List.find?_some h.found

theorem Ready.exec {s : State} {o : Op} {id : Nat} {c : Cmd} (h : Ready s o id c) (f : Cmd → State → State) :
    run true s (startOp o id f) = .next (f c s) := by
  rw [run_next rfl h.running, h.start]

@[simp] theorem need6_true {c : Cmd} {ty idx code : Nat} {k : State → State} {s : State} : need6 true c ty idx code k s = k s := rfl

@[simp] theorem need7_true {c : Cmd} {k : State → State} {s : State} : need7 true c k s = k s := rfl

/-- A register reads back what was written, cut to its width (R14). -/
@[simp] theorem reg_setReg (s : State) (r : Reg) (i j v : Nat) : (s.setReg r i j v).reg r i j = v % 2 ^ (32 * (regRow r).words) := by
  unfold State.reg State.setReg
  exact tget_tput_same _ _ _ _

theorem find_lmod (id : Nat) (f : Cmd → Cmd) (hf : ∀ c, (f c).id = c.id) : ∀ (l : List Cmd),
    (lmod (fun c => c.id == id) f l).find? (fun c => c.id == id) = (l.find? fun c => c.id == id).map f
  | [] => rfl
  | x :: t => by
    have ih := find_lmod id f hf t
    unfold lmod at ih ⊢
    rw [List.map_cons, List.find?_cons, List.find?_cons]
    by_cases e : x.id == id
    · simp [e, hf]
    · simp [e]
      simpa using ih

/-- Ending a command changes its record. -/
theorem findCmd_finish (s : State) (id st w0 w1 w2 w3 : Nat) :
    findCmd (finish id st w0 w1 w2 w3 s) id = (findCmd s id).map fun c => { c with
      phase := .done, status := st, w0 := w0 % 2 ^ 32, w1 := w1 % 2 ^ 32, w2 := w2 % 2 ^ 32, w3 := w3 % 2 ^ 32, doneNo := s.cmd.ended } :=
  find_lmod id (fun c => { c with
    phase := .done, status := st, w0 := w0 % 2 ^ 32, w1 := w1 % 2 ^ 32, w2 := w2 % 2 ^ 32, w3 := w3 % 2 ^ 32, doneNo := s.cmd.ended })
    (fun _ => rfl) s.cmd.cmds

end Sys2Proof.Machine
end

