-- ==== Sys2Proof/Laws/State.lean ====
section
/-! SUPPORT. What each update of the state leaves alone, field by field, and what each accessor reads after it. -/
namespace Sys2Proof.Machine

open Sys2Proof

@[simp] theorem setReg_latch (s : State) (r : Reg) (i j v : Nat) : (s.setReg r i j v).latch = s.latch := rfl
@[simp] theorem setReg_resp (s : State) (r : Reg) (i j v : Nat) : (s.setReg r i j v).resp = s.resp := rfl
@[simp] theorem setReg_ended (s : State) (r : Reg) (i j v : Nat) : (s.setReg r i j v).ended = s.ended := rfl
@[simp] theorem setReg_fresh (s : State) (r : Reg) (i j v : Nat) : (s.setReg r i j v).fresh = s.fresh := rfl
@[simp] theorem setReg_tb (s : State) (r : Reg) (i j v : Nat) : (s.setReg r i j v).tb = s.tb := rfl
@[simp] theorem setReg_power (s : State) (r : Reg) (i j v : Nat) : (s.setReg r i j v).power = s.power := rfl
@[simp] theorem setReg_pins (s : State) (r : Reg) (i j v : Nat) : (s.setReg r i j v).pins = s.pins := rfl
@[simp] theorem setReg_tel (s : State) (r : Reg) (i j v : Nat) : (s.setReg r i j v).tel = s.tel := rfl
@[simp] theorem setReg_mem (s : State) (r : Reg) (i j v : Nat) : (s.setReg r i j v).mem = s.mem := rfl
@[simp] theorem setReg_bad (s : State) (r : Reg) (i j v : Nat) : (s.setReg r i j v).bad = s.bad := rfl
@[simp] theorem setReg_again (s : State) (r : Reg) (i j v : Nat) : (s.setReg r i j v).again = s.again := rfl
@[simp] theorem setReg_own (s : State) (r : Reg) (i j v : Nat) : (s.setReg r i j v).own = s.own := rfl
@[simp] theorem setReg_memctl (s : State) (r : Reg) (i j v : Nat) : (s.setReg r i j v).memctl = s.memctl := rfl
@[simp] theorem setReg_hostMem (s : State) (r : Reg) (i j v : Nat) : (s.setReg r i j v).hostMem = s.hostMem := rfl
@[simp] theorem setReg_hosts (s : State) (r : Reg) (i j v : Nat) : (s.setReg r i j v).hosts = s.hosts := rfl
@[simp] theorem setReg_ports (s : State) (r : Reg) (i j v : Nat) : (s.setReg r i j v).ports = s.ports := rfl
@[simp] theorem setReg_wire (s : State) (r : Reg) (i j v : Nat) : (s.setReg r i j v).wire = s.wire := rfl
@[simp] theorem setReg_cmd (s : State) (r : Reg) (i j v : Nat) : (s.setReg r i j v).cmd = s.cmd := rfl
@[simp] theorem setReg_sync (s : State) (r : Reg) (i j v : Nat) : (s.setReg r i j v).sync = s.sync := rfl
@[simp] theorem setReg_fw (s : State) (r : Reg) (i j v : Nat) : (s.setReg r i j v).fw = s.fw := rfl
@[simp] theorem setReg_eng (s : State) (r : Reg) (i j v : Nat) : (s.setReg r i j v).eng = s.eng := rfl
@[simp] theorem setReg_chains (s : State) (r : Reg) (i j v : Nat) : (s.setReg r i j v).chains = s.chains := rfl
@[simp] theorem setReg_cores (s : State) (r : Reg) (i j v : Nat) : (s.setReg r i j v).cores = s.cores := rfl
@[simp] theorem setReg_lodes (s : State) (r : Reg) (i j v : Nat) : (s.setReg r i j v).lodes = s.lodes := rfl
@[simp] theorem setReg_groups (s : State) (r : Reg) (i j v : Nat) : (s.setReg r i j v).groups = s.groups := rfl
@[simp] theorem setReg_net (s : State) (r : Reg) (i j v : Nat) : (s.setReg r i j v).net = s.net := rfl
@[simp] theorem setReg_sto (s : State) (r : Reg) (i j v : Nat) : (s.setReg r i j v).sto = s.sto := rfl
@[simp] theorem setReg_seam (s : State) (r : Reg) (i j v : Nat) : (s.setReg r i j v).seam = s.seam := rfl
@[simp] theorem setReg_ft (s : State) (r : Reg) (i j v : Nat) : (s.setReg r i j v).ft = s.ft := rfl
@[simp] theorem setReg_ckpt (s : State) (r : Reg) (i j v : Nat) : (s.setReg r i j v).ckpt = s.ckpt := rfl
@[simp] theorem setReg_keys (s : State) (r : Reg) (i j v : Nat) : (s.setReg r i j v).keys = s.keys := rfl
@[simp] theorem setReg_sec (s : State) (r : Reg) (i j v : Nat) : (s.setReg r i j v).sec = s.sec := rfl
@[simp] theorem setReg_pending (s : State) (r : Reg) (i j v : Nat) : (s.setReg r i j v).pending = s.pending := rfl

@[simp] theorem orReg_latch (s : State) (r : Reg) (i j m : Nat) : (s.orReg r i j m).latch = s.latch := rfl
@[simp] theorem orReg_resp (s : State) (r : Reg) (i j m : Nat) : (s.orReg r i j m).resp = s.resp := rfl
@[simp] theorem orReg_ended (s : State) (r : Reg) (i j m : Nat) : (s.orReg r i j m).ended = s.ended := rfl
@[simp] theorem orReg_fresh (s : State) (r : Reg) (i j m : Nat) : (s.orReg r i j m).fresh = s.fresh := rfl
@[simp] theorem orReg_tb (s : State) (r : Reg) (i j m : Nat) : (s.orReg r i j m).tb = s.tb := rfl
@[simp] theorem orReg_power (s : State) (r : Reg) (i j m : Nat) : (s.orReg r i j m).power = s.power := rfl
@[simp] theorem orReg_pins (s : State) (r : Reg) (i j m : Nat) : (s.orReg r i j m).pins = s.pins := rfl
@[simp] theorem orReg_tel (s : State) (r : Reg) (i j m : Nat) : (s.orReg r i j m).tel = s.tel := rfl
@[simp] theorem orReg_mem (s : State) (r : Reg) (i j m : Nat) : (s.orReg r i j m).mem = s.mem := rfl
@[simp] theorem orReg_bad (s : State) (r : Reg) (i j m : Nat) : (s.orReg r i j m).bad = s.bad := rfl
@[simp] theorem orReg_again (s : State) (r : Reg) (i j m : Nat) : (s.orReg r i j m).again = s.again := rfl
@[simp] theorem orReg_own (s : State) (r : Reg) (i j m : Nat) : (s.orReg r i j m).own = s.own := rfl
@[simp] theorem orReg_memctl (s : State) (r : Reg) (i j m : Nat) : (s.orReg r i j m).memctl = s.memctl := rfl
@[simp] theorem orReg_hostMem (s : State) (r : Reg) (i j m : Nat) : (s.orReg r i j m).hostMem = s.hostMem := rfl
@[simp] theorem orReg_hosts (s : State) (r : Reg) (i j m : Nat) : (s.orReg r i j m).hosts = s.hosts := rfl
@[simp] theorem orReg_ports (s : State) (r : Reg) (i j m : Nat) : (s.orReg r i j m).ports = s.ports := rfl
@[simp] theorem orReg_wire (s : State) (r : Reg) (i j m : Nat) : (s.orReg r i j m).wire = s.wire := rfl
@[simp] theorem orReg_cmd (s : State) (r : Reg) (i j m : Nat) : (s.orReg r i j m).cmd = s.cmd := rfl
@[simp] theorem orReg_sync (s : State) (r : Reg) (i j m : Nat) : (s.orReg r i j m).sync = s.sync := rfl
@[simp] theorem orReg_fw (s : State) (r : Reg) (i j m : Nat) : (s.orReg r i j m).fw = s.fw := rfl
@[simp] theorem orReg_eng (s : State) (r : Reg) (i j m : Nat) : (s.orReg r i j m).eng = s.eng := rfl
@[simp] theorem orReg_chains (s : State) (r : Reg) (i j m : Nat) : (s.orReg r i j m).chains = s.chains := rfl
@[simp] theorem orReg_cores (s : State) (r : Reg) (i j m : Nat) : (s.orReg r i j m).cores = s.cores := rfl
@[simp] theorem orReg_lodes (s : State) (r : Reg) (i j m : Nat) : (s.orReg r i j m).lodes = s.lodes := rfl
@[simp] theorem orReg_groups (s : State) (r : Reg) (i j m : Nat) : (s.orReg r i j m).groups = s.groups := rfl
@[simp] theorem orReg_net (s : State) (r : Reg) (i j m : Nat) : (s.orReg r i j m).net = s.net := rfl
@[simp] theorem orReg_sto (s : State) (r : Reg) (i j m : Nat) : (s.orReg r i j m).sto = s.sto := rfl
@[simp] theorem orReg_seam (s : State) (r : Reg) (i j m : Nat) : (s.orReg r i j m).seam = s.seam := rfl
@[simp] theorem orReg_ft (s : State) (r : Reg) (i j m : Nat) : (s.orReg r i j m).ft = s.ft := rfl
@[simp] theorem orReg_ckpt (s : State) (r : Reg) (i j m : Nat) : (s.orReg r i j m).ckpt = s.ckpt := rfl
@[simp] theorem orReg_keys (s : State) (r : Reg) (i j m : Nat) : (s.orReg r i j m).keys = s.keys := rfl
@[simp] theorem orReg_sec (s : State) (r : Reg) (i j m : Nat) : (s.orReg r i j m).sec = s.sec := rfl
@[simp] theorem orReg_pending (s : State) (r : Reg) (i j m : Nat) : (s.orReg r i j m).pending = s.pending := rfl

@[simp] theorem setField_latch (s : State) (r : Reg) (i j h l v : Nat) : (s.setField r i j h l v).latch = s.latch := rfl
@[simp] theorem setField_resp (s : State) (r : Reg) (i j h l v : Nat) : (s.setField r i j h l v).resp = s.resp := rfl
@[simp] theorem setField_ended (s : State) (r : Reg) (i j h l v : Nat) : (s.setField r i j h l v).ended = s.ended := rfl
@[simp] theorem setField_fresh (s : State) (r : Reg) (i j h l v : Nat) : (s.setField r i j h l v).fresh = s.fresh := rfl
@[simp] theorem setField_tb (s : State) (r : Reg) (i j h l v : Nat) : (s.setField r i j h l v).tb = s.tb := rfl
@[simp] theorem setField_power (s : State) (r : Reg) (i j h l v : Nat) : (s.setField r i j h l v).power = s.power := rfl
@[simp] theorem setField_pins (s : State) (r : Reg) (i j h l v : Nat) : (s.setField r i j h l v).pins = s.pins := rfl
@[simp] theorem setField_tel (s : State) (r : Reg) (i j h l v : Nat) : (s.setField r i j h l v).tel = s.tel := rfl
@[simp] theorem setField_mem (s : State) (r : Reg) (i j h l v : Nat) : (s.setField r i j h l v).mem = s.mem := rfl
@[simp] theorem setField_bad (s : State) (r : Reg) (i j h l v : Nat) : (s.setField r i j h l v).bad = s.bad := rfl
@[simp] theorem setField_again (s : State) (r : Reg) (i j h l v : Nat) : (s.setField r i j h l v).again = s.again := rfl
@[simp] theorem setField_own (s : State) (r : Reg) (i j h l v : Nat) : (s.setField r i j h l v).own = s.own := rfl
@[simp] theorem setField_memctl (s : State) (r : Reg) (i j h l v : Nat) : (s.setField r i j h l v).memctl = s.memctl := rfl
@[simp] theorem setField_hostMem (s : State) (r : Reg) (i j h l v : Nat) : (s.setField r i j h l v).hostMem = s.hostMem := rfl
@[simp] theorem setField_hosts (s : State) (r : Reg) (i j h l v : Nat) : (s.setField r i j h l v).hosts = s.hosts := rfl
@[simp] theorem setField_ports (s : State) (r : Reg) (i j h l v : Nat) : (s.setField r i j h l v).ports = s.ports := rfl
@[simp] theorem setField_wire (s : State) (r : Reg) (i j h l v : Nat) : (s.setField r i j h l v).wire = s.wire := rfl
@[simp] theorem setField_cmd (s : State) (r : Reg) (i j h l v : Nat) : (s.setField r i j h l v).cmd = s.cmd := rfl
@[simp] theorem setField_sync (s : State) (r : Reg) (i j h l v : Nat) : (s.setField r i j h l v).sync = s.sync := rfl
@[simp] theorem setField_fw (s : State) (r : Reg) (i j h l v : Nat) : (s.setField r i j h l v).fw = s.fw := rfl
@[simp] theorem setField_eng (s : State) (r : Reg) (i j h l v : Nat) : (s.setField r i j h l v).eng = s.eng := rfl
@[simp] theorem setField_chains (s : State) (r : Reg) (i j h l v : Nat) : (s.setField r i j h l v).chains = s.chains := rfl
@[simp] theorem setField_cores (s : State) (r : Reg) (i j h l v : Nat) : (s.setField r i j h l v).cores = s.cores := rfl
@[simp] theorem setField_lodes (s : State) (r : Reg) (i j h l v : Nat) : (s.setField r i j h l v).lodes = s.lodes := rfl
@[simp] theorem setField_groups (s : State) (r : Reg) (i j h l v : Nat) : (s.setField r i j h l v).groups = s.groups := rfl
@[simp] theorem setField_net (s : State) (r : Reg) (i j h l v : Nat) : (s.setField r i j h l v).net = s.net := rfl
@[simp] theorem setField_sto (s : State) (r : Reg) (i j h l v : Nat) : (s.setField r i j h l v).sto = s.sto := rfl
@[simp] theorem setField_seam (s : State) (r : Reg) (i j h l v : Nat) : (s.setField r i j h l v).seam = s.seam := rfl
@[simp] theorem setField_ft (s : State) (r : Reg) (i j h l v : Nat) : (s.setField r i j h l v).ft = s.ft := rfl
@[simp] theorem setField_ckpt (s : State) (r : Reg) (i j h l v : Nat) : (s.setField r i j h l v).ckpt = s.ckpt := rfl
@[simp] theorem setField_keys (s : State) (r : Reg) (i j h l v : Nat) : (s.setField r i j h l v).keys = s.keys := rfl
@[simp] theorem setField_sec (s : State) (r : Reg) (i j h l v : Nat) : (s.setField r i j h l v).sec = s.sec := rfl
@[simp] theorem setField_pending (s : State) (r : Reg) (i j h l v : Nat) : (s.setField r i j h l v).pending = s.pending := rfl

@[simp] theorem setPath_regs (s : State) (p : Nat) (x : Path) : (s.setPath p x).regs = s.regs := rfl
@[simp] theorem setPath_latch (s : State) (p : Nat) (x : Path) : (s.setPath p x).latch = s.latch := rfl
@[simp] theorem setPath_resp (s : State) (p : Nat) (x : Path) : (s.setPath p x).resp = s.resp := rfl
@[simp] theorem setPath_ended (s : State) (p : Nat) (x : Path) : (s.setPath p x).ended = s.ended := rfl
@[simp] theorem setPath_fresh (s : State) (p : Nat) (x : Path) : (s.setPath p x).fresh = s.fresh := rfl
@[simp] theorem setPath_tb (s : State) (p : Nat) (x : Path) : (s.setPath p x).tb = s.tb := rfl
@[simp] theorem setPath_power (s : State) (p : Nat) (x : Path) : (s.setPath p x).power = s.power := rfl
@[simp] theorem setPath_pins (s : State) (p : Nat) (x : Path) : (s.setPath p x).pins = s.pins := rfl
@[simp] theorem setPath_mem (s : State) (p : Nat) (x : Path) : (s.setPath p x).mem = s.mem := rfl
@[simp] theorem setPath_bad (s : State) (p : Nat) (x : Path) : (s.setPath p x).bad = s.bad := rfl
@[simp] theorem setPath_again (s : State) (p : Nat) (x : Path) : (s.setPath p x).again = s.again := rfl
@[simp] theorem setPath_own (s : State) (p : Nat) (x : Path) : (s.setPath p x).own = s.own := rfl
@[simp] theorem setPath_memctl (s : State) (p : Nat) (x : Path) : (s.setPath p x).memctl = s.memctl := rfl
@[simp] theorem setPath_hostMem (s : State) (p : Nat) (x : Path) : (s.setPath p x).hostMem = s.hostMem := rfl
@[simp] theorem setPath_hosts (s : State) (p : Nat) (x : Path) : (s.setPath p x).hosts = s.hosts := rfl
@[simp] theorem setPath_ports (s : State) (p : Nat) (x : Path) : (s.setPath p x).ports = s.ports := rfl
@[simp] theorem setPath_wire (s : State) (p : Nat) (x : Path) : (s.setPath p x).wire = s.wire := rfl
@[simp] theorem setPath_cmd (s : State) (p : Nat) (x : Path) : (s.setPath p x).cmd = s.cmd := rfl
@[simp] theorem setPath_sync (s : State) (p : Nat) (x : Path) : (s.setPath p x).sync = s.sync := rfl
@[simp] theorem setPath_fw (s : State) (p : Nat) (x : Path) : (s.setPath p x).fw = s.fw := rfl
@[simp] theorem setPath_eng (s : State) (p : Nat) (x : Path) : (s.setPath p x).eng = s.eng := rfl
@[simp] theorem setPath_chains (s : State) (p : Nat) (x : Path) : (s.setPath p x).chains = s.chains := rfl
@[simp] theorem setPath_cores (s : State) (p : Nat) (x : Path) : (s.setPath p x).cores = s.cores := rfl
@[simp] theorem setPath_lodes (s : State) (p : Nat) (x : Path) : (s.setPath p x).lodes = s.lodes := rfl
@[simp] theorem setPath_groups (s : State) (p : Nat) (x : Path) : (s.setPath p x).groups = s.groups := rfl
@[simp] theorem setPath_net (s : State) (p : Nat) (x : Path) : (s.setPath p x).net = s.net := rfl
@[simp] theorem setPath_sto (s : State) (p : Nat) (x : Path) : (s.setPath p x).sto = s.sto := rfl
@[simp] theorem setPath_seam (s : State) (p : Nat) (x : Path) : (s.setPath p x).seam = s.seam := rfl
@[simp] theorem setPath_ft (s : State) (p : Nat) (x : Path) : (s.setPath p x).ft = s.ft := rfl
@[simp] theorem setPath_ckpt (s : State) (p : Nat) (x : Path) : (s.setPath p x).ckpt = s.ckpt := rfl
@[simp] theorem setPath_keys (s : State) (p : Nat) (x : Path) : (s.setPath p x).keys = s.keys := rfl
@[simp] theorem setPath_sec (s : State) (p : Nat) (x : Path) : (s.setPath p x).sec = s.sec := rfl
@[simp] theorem setPath_pending (s : State) (p : Nat) (x : Path) : (s.setPath p x).pending = s.pending := rfl

@[simp] theorem setLode_regs (s : State) (n : Nat) (x : Lode) : (s.setLode n x).regs = s.regs := rfl
@[simp] theorem setLode_latch (s : State) (n : Nat) (x : Lode) : (s.setLode n x).latch = s.latch := rfl
@[simp] theorem setLode_resp (s : State) (n : Nat) (x : Lode) : (s.setLode n x).resp = s.resp := rfl
@[simp] theorem setLode_ended (s : State) (n : Nat) (x : Lode) : (s.setLode n x).ended = s.ended := rfl
@[simp] theorem setLode_fresh (s : State) (n : Nat) (x : Lode) : (s.setLode n x).fresh = s.fresh := rfl
@[simp] theorem setLode_tb (s : State) (n : Nat) (x : Lode) : (s.setLode n x).tb = s.tb := rfl
@[simp] theorem setLode_power (s : State) (n : Nat) (x : Lode) : (s.setLode n x).power = s.power := rfl
@[simp] theorem setLode_pins (s : State) (n : Nat) (x : Lode) : (s.setLode n x).pins = s.pins := rfl
@[simp] theorem setLode_tel (s : State) (n : Nat) (x : Lode) : (s.setLode n x).tel = s.tel := rfl
@[simp] theorem setLode_mem (s : State) (n : Nat) (x : Lode) : (s.setLode n x).mem = s.mem := rfl
@[simp] theorem setLode_bad (s : State) (n : Nat) (x : Lode) : (s.setLode n x).bad = s.bad := rfl
@[simp] theorem setLode_again (s : State) (n : Nat) (x : Lode) : (s.setLode n x).again = s.again := rfl
@[simp] theorem setLode_own (s : State) (n : Nat) (x : Lode) : (s.setLode n x).own = s.own := rfl
@[simp] theorem setLode_memctl (s : State) (n : Nat) (x : Lode) : (s.setLode n x).memctl = s.memctl := rfl
@[simp] theorem setLode_hostMem (s : State) (n : Nat) (x : Lode) : (s.setLode n x).hostMem = s.hostMem := rfl
@[simp] theorem setLode_hosts (s : State) (n : Nat) (x : Lode) : (s.setLode n x).hosts = s.hosts := rfl
@[simp] theorem setLode_ports (s : State) (n : Nat) (x : Lode) : (s.setLode n x).ports = s.ports := rfl
@[simp] theorem setLode_wire (s : State) (n : Nat) (x : Lode) : (s.setLode n x).wire = s.wire := rfl
@[simp] theorem setLode_cmd (s : State) (n : Nat) (x : Lode) : (s.setLode n x).cmd = s.cmd := rfl
@[simp] theorem setLode_sync (s : State) (n : Nat) (x : Lode) : (s.setLode n x).sync = s.sync := rfl
@[simp] theorem setLode_fw (s : State) (n : Nat) (x : Lode) : (s.setLode n x).fw = s.fw := rfl
@[simp] theorem setLode_eng (s : State) (n : Nat) (x : Lode) : (s.setLode n x).eng = s.eng := rfl
@[simp] theorem setLode_chains (s : State) (n : Nat) (x : Lode) : (s.setLode n x).chains = s.chains := rfl
@[simp] theorem setLode_cores (s : State) (n : Nat) (x : Lode) : (s.setLode n x).cores = s.cores := rfl
@[simp] theorem setLode_groups (s : State) (n : Nat) (x : Lode) : (s.setLode n x).groups = s.groups := rfl
@[simp] theorem setLode_net (s : State) (n : Nat) (x : Lode) : (s.setLode n x).net = s.net := rfl
@[simp] theorem setLode_sto (s : State) (n : Nat) (x : Lode) : (s.setLode n x).sto = s.sto := rfl
@[simp] theorem setLode_seam (s : State) (n : Nat) (x : Lode) : (s.setLode n x).seam = s.seam := rfl
@[simp] theorem setLode_ft (s : State) (n : Nat) (x : Lode) : (s.setLode n x).ft = s.ft := rfl
@[simp] theorem setLode_ckpt (s : State) (n : Nat) (x : Lode) : (s.setLode n x).ckpt = s.ckpt := rfl
@[simp] theorem setLode_keys (s : State) (n : Nat) (x : Lode) : (s.setLode n x).keys = s.keys := rfl
@[simp] theorem setLode_sec (s : State) (n : Nat) (x : Lode) : (s.setLode n x).sec = s.sec := rfl
@[simp] theorem setLode_pending (s : State) (n : Nat) (x : Lode) : (s.setLode n x).pending = s.pending := rfl
@[simp] theorem lode_setLode (s : State) (n : Nat) (x : Lode) : (s.setLode n x).lode n = x := by unfold State.setLode State.lode; exact tget_tput_same _ _ _ _
theorem lode_setLode_other (s : State) (n : Nat) (x : Lode) {m : Nat} (e : m ≠ n) : (s.setLode n x).lode m = s.lode m := by unfold State.setLode State.lode; exact tget_tput_other _ _ _ e

@[simp] theorem setCore_regs (s : State) (n : Nat) (x : Core) : (s.setCore n x).regs = s.regs := rfl
@[simp] theorem setCore_latch (s : State) (n : Nat) (x : Core) : (s.setCore n x).latch = s.latch := rfl
@[simp] theorem setCore_resp (s : State) (n : Nat) (x : Core) : (s.setCore n x).resp = s.resp := rfl
@[simp] theorem setCore_ended (s : State) (n : Nat) (x : Core) : (s.setCore n x).ended = s.ended := rfl
@[simp] theorem setCore_fresh (s : State) (n : Nat) (x : Core) : (s.setCore n x).fresh = s.fresh := rfl
@[simp] theorem setCore_tb (s : State) (n : Nat) (x : Core) : (s.setCore n x).tb = s.tb := rfl
@[simp] theorem setCore_power (s : State) (n : Nat) (x : Core) : (s.setCore n x).power = s.power := rfl
@[simp] theorem setCore_pins (s : State) (n : Nat) (x : Core) : (s.setCore n x).pins = s.pins := rfl
@[simp] theorem setCore_tel (s : State) (n : Nat) (x : Core) : (s.setCore n x).tel = s.tel := rfl
@[simp] theorem setCore_mem (s : State) (n : Nat) (x : Core) : (s.setCore n x).mem = s.mem := rfl
@[simp] theorem setCore_bad (s : State) (n : Nat) (x : Core) : (s.setCore n x).bad = s.bad := rfl
@[simp] theorem setCore_again (s : State) (n : Nat) (x : Core) : (s.setCore n x).again = s.again := rfl
@[simp] theorem setCore_own (s : State) (n : Nat) (x : Core) : (s.setCore n x).own = s.own := rfl
@[simp] theorem setCore_memctl (s : State) (n : Nat) (x : Core) : (s.setCore n x).memctl = s.memctl := rfl
@[simp] theorem setCore_hostMem (s : State) (n : Nat) (x : Core) : (s.setCore n x).hostMem = s.hostMem := rfl
@[simp] theorem setCore_hosts (s : State) (n : Nat) (x : Core) : (s.setCore n x).hosts = s.hosts := rfl
@[simp] theorem setCore_ports (s : State) (n : Nat) (x : Core) : (s.setCore n x).ports = s.ports := rfl
@[simp] theorem setCore_wire (s : State) (n : Nat) (x : Core) : (s.setCore n x).wire = s.wire := rfl
@[simp] theorem setCore_cmd (s : State) (n : Nat) (x : Core) : (s.setCore n x).cmd = s.cmd := rfl
@[simp] theorem setCore_sync (s : State) (n : Nat) (x : Core) : (s.setCore n x).sync = s.sync := rfl
@[simp] theorem setCore_fw (s : State) (n : Nat) (x : Core) : (s.setCore n x).fw = s.fw := rfl
@[simp] theorem setCore_eng (s : State) (n : Nat) (x : Core) : (s.setCore n x).eng = s.eng := rfl
@[simp] theorem setCore_chains (s : State) (n : Nat) (x : Core) : (s.setCore n x).chains = s.chains := rfl
@[simp] theorem setCore_lodes (s : State) (n : Nat) (x : Core) : (s.setCore n x).lodes = s.lodes := rfl
@[simp] theorem setCore_groups (s : State) (n : Nat) (x : Core) : (s.setCore n x).groups = s.groups := rfl
@[simp] theorem setCore_net (s : State) (n : Nat) (x : Core) : (s.setCore n x).net = s.net := rfl
@[simp] theorem setCore_sto (s : State) (n : Nat) (x : Core) : (s.setCore n x).sto = s.sto := rfl
@[simp] theorem setCore_seam (s : State) (n : Nat) (x : Core) : (s.setCore n x).seam = s.seam := rfl
@[simp] theorem setCore_ft (s : State) (n : Nat) (x : Core) : (s.setCore n x).ft = s.ft := rfl
@[simp] theorem setCore_ckpt (s : State) (n : Nat) (x : Core) : (s.setCore n x).ckpt = s.ckpt := rfl
@[simp] theorem setCore_keys (s : State) (n : Nat) (x : Core) : (s.setCore n x).keys = s.keys := rfl
@[simp] theorem setCore_sec (s : State) (n : Nat) (x : Core) : (s.setCore n x).sec = s.sec := rfl
@[simp] theorem setCore_pending (s : State) (n : Nat) (x : Core) : (s.setCore n x).pending = s.pending := rfl
@[simp] theorem core_setCore (s : State) (n : Nat) (x : Core) : (s.setCore n x).core n = x := by unfold State.setCore State.core; exact tget_tput_same _ _ _ _
theorem core_setCore_other (s : State) (n : Nat) (x : Core) {m : Nat} (e : m ≠ n) : (s.setCore n x).core m = s.core m := by unfold State.setCore State.core; exact tget_tput_other _ _ _ e

@[simp] theorem setEngine_regs (s : State) (n : Nat) (x : Eng) : (s.setEngine n x).regs = s.regs := rfl
@[simp] theorem setEngine_latch (s : State) (n : Nat) (x : Eng) : (s.setEngine n x).latch = s.latch := rfl
@[simp] theorem setEngine_resp (s : State) (n : Nat) (x : Eng) : (s.setEngine n x).resp = s.resp := rfl
@[simp] theorem setEngine_ended (s : State) (n : Nat) (x : Eng) : (s.setEngine n x).ended = s.ended := rfl
@[simp] theorem setEngine_fresh (s : State) (n : Nat) (x : Eng) : (s.setEngine n x).fresh = s.fresh := rfl
@[simp] theorem setEngine_tb (s : State) (n : Nat) (x : Eng) : (s.setEngine n x).tb = s.tb := rfl
@[simp] theorem setEngine_power (s : State) (n : Nat) (x : Eng) : (s.setEngine n x).power = s.power := rfl
@[simp] theorem setEngine_pins (s : State) (n : Nat) (x : Eng) : (s.setEngine n x).pins = s.pins := rfl
@[simp] theorem setEngine_tel (s : State) (n : Nat) (x : Eng) : (s.setEngine n x).tel = s.tel := rfl
@[simp] theorem setEngine_mem (s : State) (n : Nat) (x : Eng) : (s.setEngine n x).mem = s.mem := rfl
@[simp] theorem setEngine_bad (s : State) (n : Nat) (x : Eng) : (s.setEngine n x).bad = s.bad := rfl
@[simp] theorem setEngine_again (s : State) (n : Nat) (x : Eng) : (s.setEngine n x).again = s.again := rfl
@[simp] theorem setEngine_own (s : State) (n : Nat) (x : Eng) : (s.setEngine n x).own = s.own := rfl
@[simp] theorem setEngine_memctl (s : State) (n : Nat) (x : Eng) : (s.setEngine n x).memctl = s.memctl := rfl
@[simp] theorem setEngine_hostMem (s : State) (n : Nat) (x : Eng) : (s.setEngine n x).hostMem = s.hostMem := rfl
@[simp] theorem setEngine_hosts (s : State) (n : Nat) (x : Eng) : (s.setEngine n x).hosts = s.hosts := rfl
@[simp] theorem setEngine_ports (s : State) (n : Nat) (x : Eng) : (s.setEngine n x).ports = s.ports := rfl
@[simp] theorem setEngine_wire (s : State) (n : Nat) (x : Eng) : (s.setEngine n x).wire = s.wire := rfl
@[simp] theorem setEngine_cmd (s : State) (n : Nat) (x : Eng) : (s.setEngine n x).cmd = s.cmd := rfl
@[simp] theorem setEngine_sync (s : State) (n : Nat) (x : Eng) : (s.setEngine n x).sync = s.sync := rfl
@[simp] theorem setEngine_fw (s : State) (n : Nat) (x : Eng) : (s.setEngine n x).fw = s.fw := rfl
@[simp] theorem setEngine_chains (s : State) (n : Nat) (x : Eng) : (s.setEngine n x).chains = s.chains := rfl
@[simp] theorem setEngine_cores (s : State) (n : Nat) (x : Eng) : (s.setEngine n x).cores = s.cores := rfl
@[simp] theorem setEngine_lodes (s : State) (n : Nat) (x : Eng) : (s.setEngine n x).lodes = s.lodes := rfl
@[simp] theorem setEngine_groups (s : State) (n : Nat) (x : Eng) : (s.setEngine n x).groups = s.groups := rfl
@[simp] theorem setEngine_net (s : State) (n : Nat) (x : Eng) : (s.setEngine n x).net = s.net := rfl
@[simp] theorem setEngine_sto (s : State) (n : Nat) (x : Eng) : (s.setEngine n x).sto = s.sto := rfl
@[simp] theorem setEngine_seam (s : State) (n : Nat) (x : Eng) : (s.setEngine n x).seam = s.seam := rfl
@[simp] theorem setEngine_ft (s : State) (n : Nat) (x : Eng) : (s.setEngine n x).ft = s.ft := rfl
@[simp] theorem setEngine_ckpt (s : State) (n : Nat) (x : Eng) : (s.setEngine n x).ckpt = s.ckpt := rfl
@[simp] theorem setEngine_keys (s : State) (n : Nat) (x : Eng) : (s.setEngine n x).keys = s.keys := rfl
@[simp] theorem setEngine_sec (s : State) (n : Nat) (x : Eng) : (s.setEngine n x).sec = s.sec := rfl
@[simp] theorem setEngine_pending (s : State) (n : Nat) (x : Eng) : (s.setEngine n x).pending = s.pending := rfl
@[simp] theorem engine_setEngine (s : State) (n : Nat) (x : Eng) : (s.setEngine n x).engine n = x := by unfold State.setEngine State.engine; exact tget_tput_same _ _ _ _
theorem engine_setEngine_other (s : State) (n : Nat) (x : Eng) {m : Nat} (e : m ≠ n) : (s.setEngine n x).engine m = s.engine m := by unfold State.setEngine State.engine; exact tget_tput_other _ _ _ e

@[simp] theorem setGrp_regs (s : State) (n : Nat) (x : Grp) : (s.setGrp n x).regs = s.regs := rfl
@[simp] theorem setGrp_latch (s : State) (n : Nat) (x : Grp) : (s.setGrp n x).latch = s.latch := rfl
@[simp] theorem setGrp_resp (s : State) (n : Nat) (x : Grp) : (s.setGrp n x).resp = s.resp := rfl
@[simp] theorem setGrp_ended (s : State) (n : Nat) (x : Grp) : (s.setGrp n x).ended = s.ended := rfl
@[simp] theorem setGrp_fresh (s : State) (n : Nat) (x : Grp) : (s.setGrp n x).fresh = s.fresh := rfl
@[simp] theorem setGrp_tb (s : State) (n : Nat) (x : Grp) : (s.setGrp n x).tb = s.tb := rfl
@[simp] theorem setGrp_power (s : State) (n : Nat) (x : Grp) : (s.setGrp n x).power = s.power := rfl
@[simp] theorem setGrp_pins (s : State) (n : Nat) (x : Grp) : (s.setGrp n x).pins = s.pins := rfl
@[simp] theorem setGrp_tel (s : State) (n : Nat) (x : Grp) : (s.setGrp n x).tel = s.tel := rfl
@[simp] theorem setGrp_mem (s : State) (n : Nat) (x : Grp) : (s.setGrp n x).mem = s.mem := rfl
@[simp] theorem setGrp_bad (s : State) (n : Nat) (x : Grp) : (s.setGrp n x).bad = s.bad := rfl
@[simp] theorem setGrp_again (s : State) (n : Nat) (x : Grp) : (s.setGrp n x).again = s.again := rfl
@[simp] theorem setGrp_own (s : State) (n : Nat) (x : Grp) : (s.setGrp n x).own = s.own := rfl
@[simp] theorem setGrp_memctl (s : State) (n : Nat) (x : Grp) : (s.setGrp n x).memctl = s.memctl := rfl
@[simp] theorem setGrp_hostMem (s : State) (n : Nat) (x : Grp) : (s.setGrp n x).hostMem = s.hostMem := rfl
@[simp] theorem setGrp_hosts (s : State) (n : Nat) (x : Grp) : (s.setGrp n x).hosts = s.hosts := rfl
@[simp] theorem setGrp_ports (s : State) (n : Nat) (x : Grp) : (s.setGrp n x).ports = s.ports := rfl
@[simp] theorem setGrp_wire (s : State) (n : Nat) (x : Grp) : (s.setGrp n x).wire = s.wire := rfl
@[simp] theorem setGrp_cmd (s : State) (n : Nat) (x : Grp) : (s.setGrp n x).cmd = s.cmd := rfl
@[simp] theorem setGrp_sync (s : State) (n : Nat) (x : Grp) : (s.setGrp n x).sync = s.sync := rfl
@[simp] theorem setGrp_fw (s : State) (n : Nat) (x : Grp) : (s.setGrp n x).fw = s.fw := rfl
@[simp] theorem setGrp_eng (s : State) (n : Nat) (x : Grp) : (s.setGrp n x).eng = s.eng := rfl
@[simp] theorem setGrp_chains (s : State) (n : Nat) (x : Grp) : (s.setGrp n x).chains = s.chains := rfl
@[simp] theorem setGrp_cores (s : State) (n : Nat) (x : Grp) : (s.setGrp n x).cores = s.cores := rfl
@[simp] theorem setGrp_lodes (s : State) (n : Nat) (x : Grp) : (s.setGrp n x).lodes = s.lodes := rfl
@[simp] theorem setGrp_net (s : State) (n : Nat) (x : Grp) : (s.setGrp n x).net = s.net := rfl
@[simp] theorem setGrp_sto (s : State) (n : Nat) (x : Grp) : (s.setGrp n x).sto = s.sto := rfl
@[simp] theorem setGrp_seam (s : State) (n : Nat) (x : Grp) : (s.setGrp n x).seam = s.seam := rfl
@[simp] theorem setGrp_ft (s : State) (n : Nat) (x : Grp) : (s.setGrp n x).ft = s.ft := rfl
@[simp] theorem setGrp_ckpt (s : State) (n : Nat) (x : Grp) : (s.setGrp n x).ckpt = s.ckpt := rfl
@[simp] theorem setGrp_keys (s : State) (n : Nat) (x : Grp) : (s.setGrp n x).keys = s.keys := rfl
@[simp] theorem setGrp_sec (s : State) (n : Nat) (x : Grp) : (s.setGrp n x).sec = s.sec := rfl
@[simp] theorem setGrp_pending (s : State) (n : Nat) (x : Grp) : (s.setGrp n x).pending = s.pending := rfl
@[simp] theorem grp_setGrp (s : State) (n : Nat) (x : Grp) : (s.setGrp n x).grp n = x := by unfold State.setGrp State.grp; exact tget_tput_same _ _ _ _
theorem grp_setGrp_other (s : State) (n : Nat) (x : Grp) {m : Nat} (e : m ≠ n) : (s.setGrp n x).grp m = s.grp m := by unfold State.setGrp State.grp; exact tget_tput_other _ _ _ e

@[simp] theorem setFw_regs (s : State) (n : Nat) (x : Fw) : (s.setFw n x).regs = s.regs := rfl
@[simp] theorem setFw_latch (s : State) (n : Nat) (x : Fw) : (s.setFw n x).latch = s.latch := rfl
@[simp] theorem setFw_resp (s : State) (n : Nat) (x : Fw) : (s.setFw n x).resp = s.resp := rfl
@[simp] theorem setFw_ended (s : State) (n : Nat) (x : Fw) : (s.setFw n x).ended = s.ended := rfl
@[simp] theorem setFw_fresh (s : State) (n : Nat) (x : Fw) : (s.setFw n x).fresh = s.fresh := rfl
@[simp] theorem setFw_tb (s : State) (n : Nat) (x : Fw) : (s.setFw n x).tb = s.tb := rfl
@[simp] theorem setFw_power (s : State) (n : Nat) (x : Fw) : (s.setFw n x).power = s.power := rfl
@[simp] theorem setFw_pins (s : State) (n : Nat) (x : Fw) : (s.setFw n x).pins = s.pins := rfl
@[simp] theorem setFw_tel (s : State) (n : Nat) (x : Fw) : (s.setFw n x).tel = s.tel := rfl
@[simp] theorem setFw_mem (s : State) (n : Nat) (x : Fw) : (s.setFw n x).mem = s.mem := rfl
@[simp] theorem setFw_bad (s : State) (n : Nat) (x : Fw) : (s.setFw n x).bad = s.bad := rfl
@[simp] theorem setFw_again (s : State) (n : Nat) (x : Fw) : (s.setFw n x).again = s.again := rfl
@[simp] theorem setFw_own (s : State) (n : Nat) (x : Fw) : (s.setFw n x).own = s.own := rfl
@[simp] theorem setFw_memctl (s : State) (n : Nat) (x : Fw) : (s.setFw n x).memctl = s.memctl := rfl
@[simp] theorem setFw_hostMem (s : State) (n : Nat) (x : Fw) : (s.setFw n x).hostMem = s.hostMem := rfl
@[simp] theorem setFw_hosts (s : State) (n : Nat) (x : Fw) : (s.setFw n x).hosts = s.hosts := rfl
@[simp] theorem setFw_ports (s : State) (n : Nat) (x : Fw) : (s.setFw n x).ports = s.ports := rfl
@[simp] theorem setFw_wire (s : State) (n : Nat) (x : Fw) : (s.setFw n x).wire = s.wire := rfl
@[simp] theorem setFw_cmd (s : State) (n : Nat) (x : Fw) : (s.setFw n x).cmd = s.cmd := rfl
@[simp] theorem setFw_sync (s : State) (n : Nat) (x : Fw) : (s.setFw n x).sync = s.sync := rfl
@[simp] theorem setFw_eng (s : State) (n : Nat) (x : Fw) : (s.setFw n x).eng = s.eng := rfl
@[simp] theorem setFw_chains (s : State) (n : Nat) (x : Fw) : (s.setFw n x).chains = s.chains := rfl
@[simp] theorem setFw_cores (s : State) (n : Nat) (x : Fw) : (s.setFw n x).cores = s.cores := rfl
@[simp] theorem setFw_lodes (s : State) (n : Nat) (x : Fw) : (s.setFw n x).lodes = s.lodes := rfl
@[simp] theorem setFw_groups (s : State) (n : Nat) (x : Fw) : (s.setFw n x).groups = s.groups := rfl
@[simp] theorem setFw_net (s : State) (n : Nat) (x : Fw) : (s.setFw n x).net = s.net := rfl
@[simp] theorem setFw_sto (s : State) (n : Nat) (x : Fw) : (s.setFw n x).sto = s.sto := rfl
@[simp] theorem setFw_seam (s : State) (n : Nat) (x : Fw) : (s.setFw n x).seam = s.seam := rfl
@[simp] theorem setFw_ft (s : State) (n : Nat) (x : Fw) : (s.setFw n x).ft = s.ft := rfl
@[simp] theorem setFw_ckpt (s : State) (n : Nat) (x : Fw) : (s.setFw n x).ckpt = s.ckpt := rfl
@[simp] theorem setFw_keys (s : State) (n : Nat) (x : Fw) : (s.setFw n x).keys = s.keys := rfl
@[simp] theorem setFw_sec (s : State) (n : Nat) (x : Fw) : (s.setFw n x).sec = s.sec := rfl
@[simp] theorem setFw_pending (s : State) (n : Nat) (x : Fw) : (s.setFw n x).pending = s.pending := rfl
@[simp] theorem fwp_setFw (s : State) (n : Nat) (x : Fw) : (s.setFw n x).fwp n = x := by unfold State.setFw State.fwp; exact tget_tput_same _ _ _ _
theorem fwp_setFw_other (s : State) (n : Nat) (x : Fw) {m : Nat} (e : m ≠ n) : (s.setFw n x).fwp m = s.fwp m := by unfold State.setFw State.fwp; exact tget_tput_other _ _ _ e

@[simp] theorem setRegion_regs (s : State) (n : Nat) (x : Region) : (s.setRegion n x).regs = s.regs := rfl
@[simp] theorem setRegion_latch (s : State) (n : Nat) (x : Region) : (s.setRegion n x).latch = s.latch := rfl
@[simp] theorem setRegion_resp (s : State) (n : Nat) (x : Region) : (s.setRegion n x).resp = s.resp := rfl
@[simp] theorem setRegion_ended (s : State) (n : Nat) (x : Region) : (s.setRegion n x).ended = s.ended := rfl
@[simp] theorem setRegion_fresh (s : State) (n : Nat) (x : Region) : (s.setRegion n x).fresh = s.fresh := rfl
@[simp] theorem setRegion_tb (s : State) (n : Nat) (x : Region) : (s.setRegion n x).tb = s.tb := rfl
@[simp] theorem setRegion_power (s : State) (n : Nat) (x : Region) : (s.setRegion n x).power = s.power := rfl
@[simp] theorem setRegion_pins (s : State) (n : Nat) (x : Region) : (s.setRegion n x).pins = s.pins := rfl
@[simp] theorem setRegion_tel (s : State) (n : Nat) (x : Region) : (s.setRegion n x).tel = s.tel := rfl
@[simp] theorem setRegion_mem (s : State) (n : Nat) (x : Region) : (s.setRegion n x).mem = s.mem := rfl
@[simp] theorem setRegion_bad (s : State) (n : Nat) (x : Region) : (s.setRegion n x).bad = s.bad := rfl
@[simp] theorem setRegion_again (s : State) (n : Nat) (x : Region) : (s.setRegion n x).again = s.again := rfl
@[simp] theorem setRegion_memctl (s : State) (n : Nat) (x : Region) : (s.setRegion n x).memctl = s.memctl := rfl
@[simp] theorem setRegion_hostMem (s : State) (n : Nat) (x : Region) : (s.setRegion n x).hostMem = s.hostMem := rfl
@[simp] theorem setRegion_hosts (s : State) (n : Nat) (x : Region) : (s.setRegion n x).hosts = s.hosts := rfl
@[simp] theorem setRegion_ports (s : State) (n : Nat) (x : Region) : (s.setRegion n x).ports = s.ports := rfl
@[simp] theorem setRegion_wire (s : State) (n : Nat) (x : Region) : (s.setRegion n x).wire = s.wire := rfl
@[simp] theorem setRegion_cmd (s : State) (n : Nat) (x : Region) : (s.setRegion n x).cmd = s.cmd := rfl
@[simp] theorem setRegion_sync (s : State) (n : Nat) (x : Region) : (s.setRegion n x).sync = s.sync := rfl
@[simp] theorem setRegion_fw (s : State) (n : Nat) (x : Region) : (s.setRegion n x).fw = s.fw := rfl
@[simp] theorem setRegion_eng (s : State) (n : Nat) (x : Region) : (s.setRegion n x).eng = s.eng := rfl
@[simp] theorem setRegion_chains (s : State) (n : Nat) (x : Region) : (s.setRegion n x).chains = s.chains := rfl
@[simp] theorem setRegion_cores (s : State) (n : Nat) (x : Region) : (s.setRegion n x).cores = s.cores := rfl
@[simp] theorem setRegion_lodes (s : State) (n : Nat) (x : Region) : (s.setRegion n x).lodes = s.lodes := rfl
@[simp] theorem setRegion_groups (s : State) (n : Nat) (x : Region) : (s.setRegion n x).groups = s.groups := rfl
@[simp] theorem setRegion_net (s : State) (n : Nat) (x : Region) : (s.setRegion n x).net = s.net := rfl
@[simp] theorem setRegion_sto (s : State) (n : Nat) (x : Region) : (s.setRegion n x).sto = s.sto := rfl
@[simp] theorem setRegion_seam (s : State) (n : Nat) (x : Region) : (s.setRegion n x).seam = s.seam := rfl
@[simp] theorem setRegion_ft (s : State) (n : Nat) (x : Region) : (s.setRegion n x).ft = s.ft := rfl
@[simp] theorem setRegion_ckpt (s : State) (n : Nat) (x : Region) : (s.setRegion n x).ckpt = s.ckpt := rfl
@[simp] theorem setRegion_keys (s : State) (n : Nat) (x : Region) : (s.setRegion n x).keys = s.keys := rfl
@[simp] theorem setRegion_sec (s : State) (n : Nat) (x : Region) : (s.setRegion n x).sec = s.sec := rfl
@[simp] theorem setRegion_pending (s : State) (n : Nat) (x : Region) : (s.setRegion n x).pending = s.pending := rfl
@[simp] theorem region_setRegion (s : State) (n : Nat) (x : Region) : (s.setRegion n x).region n = x := by unfold State.setRegion State.region; exact tget_tput_same _ _ _ _
theorem region_setRegion_other (s : State) (n : Nat) (x : Region) {m : Nat} (e : m ≠ n) : (s.setRegion n x).region m = s.region m := by unfold State.setRegion State.region; exact tget_tput_other _ _ _ e

@[simp] theorem setHost_regs (s : State) (n : Nat) (x : HostFn) : (s.setHost n x).regs = s.regs := rfl
@[simp] theorem setHost_latch (s : State) (n : Nat) (x : HostFn) : (s.setHost n x).latch = s.latch := rfl
@[simp] theorem setHost_resp (s : State) (n : Nat) (x : HostFn) : (s.setHost n x).resp = s.resp := rfl
@[simp] theorem setHost_ended (s : State) (n : Nat) (x : HostFn) : (s.setHost n x).ended = s.ended := rfl
@[simp] theorem setHost_fresh (s : State) (n : Nat) (x : HostFn) : (s.setHost n x).fresh = s.fresh := rfl
@[simp] theorem setHost_tb (s : State) (n : Nat) (x : HostFn) : (s.setHost n x).tb = s.tb := rfl
@[simp] theorem setHost_power (s : State) (n : Nat) (x : HostFn) : (s.setHost n x).power = s.power := rfl
@[simp] theorem setHost_pins (s : State) (n : Nat) (x : HostFn) : (s.setHost n x).pins = s.pins := rfl
@[simp] theorem setHost_tel (s : State) (n : Nat) (x : HostFn) : (s.setHost n x).tel = s.tel := rfl
@[simp] theorem setHost_mem (s : State) (n : Nat) (x : HostFn) : (s.setHost n x).mem = s.mem := rfl
@[simp] theorem setHost_bad (s : State) (n : Nat) (x : HostFn) : (s.setHost n x).bad = s.bad := rfl
@[simp] theorem setHost_again (s : State) (n : Nat) (x : HostFn) : (s.setHost n x).again = s.again := rfl
@[simp] theorem setHost_own (s : State) (n : Nat) (x : HostFn) : (s.setHost n x).own = s.own := rfl
@[simp] theorem setHost_memctl (s : State) (n : Nat) (x : HostFn) : (s.setHost n x).memctl = s.memctl := rfl
@[simp] theorem setHost_hostMem (s : State) (n : Nat) (x : HostFn) : (s.setHost n x).hostMem = s.hostMem := rfl
@[simp] theorem setHost_ports (s : State) (n : Nat) (x : HostFn) : (s.setHost n x).ports = s.ports := rfl
@[simp] theorem setHost_wire (s : State) (n : Nat) (x : HostFn) : (s.setHost n x).wire = s.wire := rfl
@[simp] theorem setHost_cmd (s : State) (n : Nat) (x : HostFn) : (s.setHost n x).cmd = s.cmd := rfl
@[simp] theorem setHost_sync (s : State) (n : Nat) (x : HostFn) : (s.setHost n x).sync = s.sync := rfl
@[simp] theorem setHost_fw (s : State) (n : Nat) (x : HostFn) : (s.setHost n x).fw = s.fw := rfl
@[simp] theorem setHost_eng (s : State) (n : Nat) (x : HostFn) : (s.setHost n x).eng = s.eng := rfl
@[simp] theorem setHost_chains (s : State) (n : Nat) (x : HostFn) : (s.setHost n x).chains = s.chains := rfl
@[simp] theorem setHost_cores (s : State) (n : Nat) (x : HostFn) : (s.setHost n x).cores = s.cores := rfl
@[simp] theorem setHost_lodes (s : State) (n : Nat) (x : HostFn) : (s.setHost n x).lodes = s.lodes := rfl
@[simp] theorem setHost_groups (s : State) (n : Nat) (x : HostFn) : (s.setHost n x).groups = s.groups := rfl
@[simp] theorem setHost_net (s : State) (n : Nat) (x : HostFn) : (s.setHost n x).net = s.net := rfl
@[simp] theorem setHost_sto (s : State) (n : Nat) (x : HostFn) : (s.setHost n x).sto = s.sto := rfl
@[simp] theorem setHost_seam (s : State) (n : Nat) (x : HostFn) : (s.setHost n x).seam = s.seam := rfl
@[simp] theorem setHost_ft (s : State) (n : Nat) (x : HostFn) : (s.setHost n x).ft = s.ft := rfl
@[simp] theorem setHost_ckpt (s : State) (n : Nat) (x : HostFn) : (s.setHost n x).ckpt = s.ckpt := rfl
@[simp] theorem setHost_keys (s : State) (n : Nat) (x : HostFn) : (s.setHost n x).keys = s.keys := rfl
@[simp] theorem setHost_sec (s : State) (n : Nat) (x : HostFn) : (s.setHost n x).sec = s.sec := rfl
@[simp] theorem setHost_pending (s : State) (n : Nat) (x : HostFn) : (s.setHost n x).pending = s.pending := rfl
@[simp] theorem host_setHost (s : State) (n : Nat) (x : HostFn) : (s.setHost n x).host n = x := by unfold State.setHost State.host; exact tget_tput_same _ _ _ _
theorem host_setHost_other (s : State) (n : Nat) (x : HostFn) {m : Nat} (e : m ≠ n) : (s.setHost n x).host m = s.host m := by unfold State.setHost State.host; exact tget_tput_other _ _ _ e

@[simp] theorem setCtr_regs (s : State) (n : Nat) (x : Counter) : (s.setCtr n x).regs = s.regs := rfl
@[simp] theorem setCtr_latch (s : State) (n : Nat) (x : Counter) : (s.setCtr n x).latch = s.latch := rfl
@[simp] theorem setCtr_resp (s : State) (n : Nat) (x : Counter) : (s.setCtr n x).resp = s.resp := rfl
@[simp] theorem setCtr_ended (s : State) (n : Nat) (x : Counter) : (s.setCtr n x).ended = s.ended := rfl
@[simp] theorem setCtr_fresh (s : State) (n : Nat) (x : Counter) : (s.setCtr n x).fresh = s.fresh := rfl
@[simp] theorem setCtr_tb (s : State) (n : Nat) (x : Counter) : (s.setCtr n x).tb = s.tb := rfl
@[simp] theorem setCtr_power (s : State) (n : Nat) (x : Counter) : (s.setCtr n x).power = s.power := rfl
@[simp] theorem setCtr_pins (s : State) (n : Nat) (x : Counter) : (s.setCtr n x).pins = s.pins := rfl
@[simp] theorem setCtr_tel (s : State) (n : Nat) (x : Counter) : (s.setCtr n x).tel = s.tel := rfl
@[simp] theorem setCtr_mem (s : State) (n : Nat) (x : Counter) : (s.setCtr n x).mem = s.mem := rfl
@[simp] theorem setCtr_bad (s : State) (n : Nat) (x : Counter) : (s.setCtr n x).bad = s.bad := rfl
@[simp] theorem setCtr_again (s : State) (n : Nat) (x : Counter) : (s.setCtr n x).again = s.again := rfl
@[simp] theorem setCtr_own (s : State) (n : Nat) (x : Counter) : (s.setCtr n x).own = s.own := rfl
@[simp] theorem setCtr_memctl (s : State) (n : Nat) (x : Counter) : (s.setCtr n x).memctl = s.memctl := rfl
@[simp] theorem setCtr_hostMem (s : State) (n : Nat) (x : Counter) : (s.setCtr n x).hostMem = s.hostMem := rfl
@[simp] theorem setCtr_hosts (s : State) (n : Nat) (x : Counter) : (s.setCtr n x).hosts = s.hosts := rfl
@[simp] theorem setCtr_ports (s : State) (n : Nat) (x : Counter) : (s.setCtr n x).ports = s.ports := rfl
@[simp] theorem setCtr_wire (s : State) (n : Nat) (x : Counter) : (s.setCtr n x).wire = s.wire := rfl
@[simp] theorem setCtr_cmd (s : State) (n : Nat) (x : Counter) : (s.setCtr n x).cmd = s.cmd := rfl
@[simp] theorem setCtr_fw (s : State) (n : Nat) (x : Counter) : (s.setCtr n x).fw = s.fw := rfl
@[simp] theorem setCtr_eng (s : State) (n : Nat) (x : Counter) : (s.setCtr n x).eng = s.eng := rfl
@[simp] theorem setCtr_chains (s : State) (n : Nat) (x : Counter) : (s.setCtr n x).chains = s.chains := rfl
@[simp] theorem setCtr_cores (s : State) (n : Nat) (x : Counter) : (s.setCtr n x).cores = s.cores := rfl
@[simp] theorem setCtr_lodes (s : State) (n : Nat) (x : Counter) : (s.setCtr n x).lodes = s.lodes := rfl
@[simp] theorem setCtr_groups (s : State) (n : Nat) (x : Counter) : (s.setCtr n x).groups = s.groups := rfl
@[simp] theorem setCtr_net (s : State) (n : Nat) (x : Counter) : (s.setCtr n x).net = s.net := rfl
@[simp] theorem setCtr_sto (s : State) (n : Nat) (x : Counter) : (s.setCtr n x).sto = s.sto := rfl
@[simp] theorem setCtr_seam (s : State) (n : Nat) (x : Counter) : (s.setCtr n x).seam = s.seam := rfl
@[simp] theorem setCtr_ft (s : State) (n : Nat) (x : Counter) : (s.setCtr n x).ft = s.ft := rfl
@[simp] theorem setCtr_ckpt (s : State) (n : Nat) (x : Counter) : (s.setCtr n x).ckpt = s.ckpt := rfl
@[simp] theorem setCtr_keys (s : State) (n : Nat) (x : Counter) : (s.setCtr n x).keys = s.keys := rfl
@[simp] theorem setCtr_sec (s : State) (n : Nat) (x : Counter) : (s.setCtr n x).sec = s.sec := rfl
@[simp] theorem setCtr_pending (s : State) (n : Nat) (x : Counter) : (s.setCtr n x).pending = s.pending := rfl
@[simp] theorem ctr_setCtr (s : State) (n : Nat) (x : Counter) : (s.setCtr n x).ctr n = x := by unfold State.setCtr State.ctr; exact tget_tput_same _ _ _ _
theorem ctr_setCtr_other (s : State) (n : Nat) (x : Counter) {m : Nat} (e : m ≠ n) : (s.setCtr n x).ctr m = s.ctr m := by unfold State.setCtr State.ctr; exact tget_tput_other _ _ _ e

@[simp] theorem setQp_regs (s : State) (fn q : Nat) (x : QPair) : (s.setQp fn q x).regs = s.regs := rfl
@[simp] theorem setQp_latch (s : State) (fn q : Nat) (x : QPair) : (s.setQp fn q x).latch = s.latch := rfl
@[simp] theorem setQp_resp (s : State) (fn q : Nat) (x : QPair) : (s.setQp fn q x).resp = s.resp := rfl
@[simp] theorem setQp_ended (s : State) (fn q : Nat) (x : QPair) : (s.setQp fn q x).ended = s.ended := rfl
@[simp] theorem setQp_fresh (s : State) (fn q : Nat) (x : QPair) : (s.setQp fn q x).fresh = s.fresh := rfl
@[simp] theorem setQp_tb (s : State) (fn q : Nat) (x : QPair) : (s.setQp fn q x).tb = s.tb := rfl
@[simp] theorem setQp_power (s : State) (fn q : Nat) (x : QPair) : (s.setQp fn q x).power = s.power := rfl
@[simp] theorem setQp_pins (s : State) (fn q : Nat) (x : QPair) : (s.setQp fn q x).pins = s.pins := rfl
@[simp] theorem setQp_tel (s : State) (fn q : Nat) (x : QPair) : (s.setQp fn q x).tel = s.tel := rfl
@[simp] theorem setQp_mem (s : State) (fn q : Nat) (x : QPair) : (s.setQp fn q x).mem = s.mem := rfl
@[simp] theorem setQp_bad (s : State) (fn q : Nat) (x : QPair) : (s.setQp fn q x).bad = s.bad := rfl
@[simp] theorem setQp_again (s : State) (fn q : Nat) (x : QPair) : (s.setQp fn q x).again = s.again := rfl
@[simp] theorem setQp_own (s : State) (fn q : Nat) (x : QPair) : (s.setQp fn q x).own = s.own := rfl
@[simp] theorem setQp_memctl (s : State) (fn q : Nat) (x : QPair) : (s.setQp fn q x).memctl = s.memctl := rfl
@[simp] theorem setQp_hostMem (s : State) (fn q : Nat) (x : QPair) : (s.setQp fn q x).hostMem = s.hostMem := rfl
@[simp] theorem setQp_hosts (s : State) (fn q : Nat) (x : QPair) : (s.setQp fn q x).hosts = s.hosts := rfl
@[simp] theorem setQp_ports (s : State) (fn q : Nat) (x : QPair) : (s.setQp fn q x).ports = s.ports := rfl
@[simp] theorem setQp_wire (s : State) (fn q : Nat) (x : QPair) : (s.setQp fn q x).wire = s.wire := rfl
@[simp] theorem setQp_sync (s : State) (fn q : Nat) (x : QPair) : (s.setQp fn q x).sync = s.sync := rfl
@[simp] theorem setQp_fw (s : State) (fn q : Nat) (x : QPair) : (s.setQp fn q x).fw = s.fw := rfl
@[simp] theorem setQp_eng (s : State) (fn q : Nat) (x : QPair) : (s.setQp fn q x).eng = s.eng := rfl
@[simp] theorem setQp_chains (s : State) (fn q : Nat) (x : QPair) : (s.setQp fn q x).chains = s.chains := rfl
@[simp] theorem setQp_cores (s : State) (fn q : Nat) (x : QPair) : (s.setQp fn q x).cores = s.cores := rfl
@[simp] theorem setQp_lodes (s : State) (fn q : Nat) (x : QPair) : (s.setQp fn q x).lodes = s.lodes := rfl
@[simp] theorem setQp_groups (s : State) (fn q : Nat) (x : QPair) : (s.setQp fn q x).groups = s.groups := rfl
@[simp] theorem setQp_net (s : State) (fn q : Nat) (x : QPair) : (s.setQp fn q x).net = s.net := rfl
@[simp] theorem setQp_sto (s : State) (fn q : Nat) (x : QPair) : (s.setQp fn q x).sto = s.sto := rfl
@[simp] theorem setQp_seam (s : State) (fn q : Nat) (x : QPair) : (s.setQp fn q x).seam = s.seam := rfl
@[simp] theorem setQp_ft (s : State) (fn q : Nat) (x : QPair) : (s.setQp fn q x).ft = s.ft := rfl
@[simp] theorem setQp_ckpt (s : State) (fn q : Nat) (x : QPair) : (s.setQp fn q x).ckpt = s.ckpt := rfl
@[simp] theorem setQp_keys (s : State) (fn q : Nat) (x : QPair) : (s.setQp fn q x).keys = s.keys := rfl
@[simp] theorem setQp_sec (s : State) (fn q : Nat) (x : QPair) : (s.setQp fn q x).sec = s.sec := rfl
@[simp] theorem setQp_pending (s : State) (fn q : Nat) (x : QPair) : (s.setQp fn q x).pending = s.pending := rfl

@[simp] theorem setMac_regs (s : State) (n : Nat) (x : Mac) : (s.setMac n x).regs = s.regs := rfl
@[simp] theorem setMac_latch (s : State) (n : Nat) (x : Mac) : (s.setMac n x).latch = s.latch := rfl
@[simp] theorem setMac_resp (s : State) (n : Nat) (x : Mac) : (s.setMac n x).resp = s.resp := rfl
@[simp] theorem setMac_ended (s : State) (n : Nat) (x : Mac) : (s.setMac n x).ended = s.ended := rfl
@[simp] theorem setMac_fresh (s : State) (n : Nat) (x : Mac) : (s.setMac n x).fresh = s.fresh := rfl
@[simp] theorem setMac_tb (s : State) (n : Nat) (x : Mac) : (s.setMac n x).tb = s.tb := rfl
@[simp] theorem setMac_power (s : State) (n : Nat) (x : Mac) : (s.setMac n x).power = s.power := rfl
@[simp] theorem setMac_pins (s : State) (n : Nat) (x : Mac) : (s.setMac n x).pins = s.pins := rfl
@[simp] theorem setMac_tel (s : State) (n : Nat) (x : Mac) : (s.setMac n x).tel = s.tel := rfl
@[simp] theorem setMac_mem (s : State) (n : Nat) (x : Mac) : (s.setMac n x).mem = s.mem := rfl
@[simp] theorem setMac_bad (s : State) (n : Nat) (x : Mac) : (s.setMac n x).bad = s.bad := rfl
@[simp] theorem setMac_again (s : State) (n : Nat) (x : Mac) : (s.setMac n x).again = s.again := rfl
@[simp] theorem setMac_own (s : State) (n : Nat) (x : Mac) : (s.setMac n x).own = s.own := rfl
@[simp] theorem setMac_memctl (s : State) (n : Nat) (x : Mac) : (s.setMac n x).memctl = s.memctl := rfl
@[simp] theorem setMac_hostMem (s : State) (n : Nat) (x : Mac) : (s.setMac n x).hostMem = s.hostMem := rfl
@[simp] theorem setMac_hosts (s : State) (n : Nat) (x : Mac) : (s.setMac n x).hosts = s.hosts := rfl
@[simp] theorem setMac_ports (s : State) (n : Nat) (x : Mac) : (s.setMac n x).ports = s.ports := rfl
@[simp] theorem setMac_wire (s : State) (n : Nat) (x : Mac) : (s.setMac n x).wire = s.wire := rfl
@[simp] theorem setMac_cmd (s : State) (n : Nat) (x : Mac) : (s.setMac n x).cmd = s.cmd := rfl
@[simp] theorem setMac_sync (s : State) (n : Nat) (x : Mac) : (s.setMac n x).sync = s.sync := rfl
@[simp] theorem setMac_fw (s : State) (n : Nat) (x : Mac) : (s.setMac n x).fw = s.fw := rfl
@[simp] theorem setMac_eng (s : State) (n : Nat) (x : Mac) : (s.setMac n x).eng = s.eng := rfl
@[simp] theorem setMac_chains (s : State) (n : Nat) (x : Mac) : (s.setMac n x).chains = s.chains := rfl
@[simp] theorem setMac_cores (s : State) (n : Nat) (x : Mac) : (s.setMac n x).cores = s.cores := rfl
@[simp] theorem setMac_lodes (s : State) (n : Nat) (x : Mac) : (s.setMac n x).lodes = s.lodes := rfl
@[simp] theorem setMac_groups (s : State) (n : Nat) (x : Mac) : (s.setMac n x).groups = s.groups := rfl
@[simp] theorem setMac_sto (s : State) (n : Nat) (x : Mac) : (s.setMac n x).sto = s.sto := rfl
@[simp] theorem setMac_seam (s : State) (n : Nat) (x : Mac) : (s.setMac n x).seam = s.seam := rfl
@[simp] theorem setMac_ft (s : State) (n : Nat) (x : Mac) : (s.setMac n x).ft = s.ft := rfl
@[simp] theorem setMac_ckpt (s : State) (n : Nat) (x : Mac) : (s.setMac n x).ckpt = s.ckpt := rfl
@[simp] theorem setMac_keys (s : State) (n : Nat) (x : Mac) : (s.setMac n x).keys = s.keys := rfl
@[simp] theorem setMac_sec (s : State) (n : Nat) (x : Mac) : (s.setMac n x).sec = s.sec := rfl
@[simp] theorem setMac_pending (s : State) (n : Nat) (x : Mac) : (s.setMac n x).pending = s.pending := rfl
@[simp] theorem mac_setMac (s : State) (n : Nat) (x : Mac) : (s.setMac n x).mac n = x := by unfold State.setMac State.mac; exact tget_tput_same _ _ _ _
theorem mac_setMac_other (s : State) (n : Nat) (x : Mac) {m : Nat} (e : m ≠ n) : (s.setMac n x).mac m = s.mac m := by unfold State.setMac State.mac; exact tget_tput_other _ _ _ e

@[simp] theorem setStream_regs (s : State) (n : Nat) (x : Stream) : (s.setStream n x).regs = s.regs := rfl
@[simp] theorem setStream_latch (s : State) (n : Nat) (x : Stream) : (s.setStream n x).latch = s.latch := rfl
@[simp] theorem setStream_resp (s : State) (n : Nat) (x : Stream) : (s.setStream n x).resp = s.resp := rfl
@[simp] theorem setStream_ended (s : State) (n : Nat) (x : Stream) : (s.setStream n x).ended = s.ended := rfl
@[simp] theorem setStream_fresh (s : State) (n : Nat) (x : Stream) : (s.setStream n x).fresh = s.fresh := rfl
@[simp] theorem setStream_tb (s : State) (n : Nat) (x : Stream) : (s.setStream n x).tb = s.tb := rfl
@[simp] theorem setStream_power (s : State) (n : Nat) (x : Stream) : (s.setStream n x).power = s.power := rfl
@[simp] theorem setStream_pins (s : State) (n : Nat) (x : Stream) : (s.setStream n x).pins = s.pins := rfl
@[simp] theorem setStream_tel (s : State) (n : Nat) (x : Stream) : (s.setStream n x).tel = s.tel := rfl
@[simp] theorem setStream_mem (s : State) (n : Nat) (x : Stream) : (s.setStream n x).mem = s.mem := rfl
@[simp] theorem setStream_bad (s : State) (n : Nat) (x : Stream) : (s.setStream n x).bad = s.bad := rfl
@[simp] theorem setStream_again (s : State) (n : Nat) (x : Stream) : (s.setStream n x).again = s.again := rfl
@[simp] theorem setStream_own (s : State) (n : Nat) (x : Stream) : (s.setStream n x).own = s.own := rfl
@[simp] theorem setStream_memctl (s : State) (n : Nat) (x : Stream) : (s.setStream n x).memctl = s.memctl := rfl
@[simp] theorem setStream_hostMem (s : State) (n : Nat) (x : Stream) : (s.setStream n x).hostMem = s.hostMem := rfl
@[simp] theorem setStream_hosts (s : State) (n : Nat) (x : Stream) : (s.setStream n x).hosts = s.hosts := rfl
@[simp] theorem setStream_ports (s : State) (n : Nat) (x : Stream) : (s.setStream n x).ports = s.ports := rfl
@[simp] theorem setStream_wire (s : State) (n : Nat) (x : Stream) : (s.setStream n x).wire = s.wire := rfl
@[simp] theorem setStream_cmd (s : State) (n : Nat) (x : Stream) : (s.setStream n x).cmd = s.cmd := rfl
@[simp] theorem setStream_sync (s : State) (n : Nat) (x : Stream) : (s.setStream n x).sync = s.sync := rfl
@[simp] theorem setStream_fw (s : State) (n : Nat) (x : Stream) : (s.setStream n x).fw = s.fw := rfl
@[simp] theorem setStream_eng (s : State) (n : Nat) (x : Stream) : (s.setStream n x).eng = s.eng := rfl
@[simp] theorem setStream_chains (s : State) (n : Nat) (x : Stream) : (s.setStream n x).chains = s.chains := rfl
@[simp] theorem setStream_cores (s : State) (n : Nat) (x : Stream) : (s.setStream n x).cores = s.cores := rfl
@[simp] theorem setStream_lodes (s : State) (n : Nat) (x : Stream) : (s.setStream n x).lodes = s.lodes := rfl
@[simp] theorem setStream_groups (s : State) (n : Nat) (x : Stream) : (s.setStream n x).groups = s.groups := rfl
@[simp] theorem setStream_sto (s : State) (n : Nat) (x : Stream) : (s.setStream n x).sto = s.sto := rfl
@[simp] theorem setStream_seam (s : State) (n : Nat) (x : Stream) : (s.setStream n x).seam = s.seam := rfl
@[simp] theorem setStream_ft (s : State) (n : Nat) (x : Stream) : (s.setStream n x).ft = s.ft := rfl
@[simp] theorem setStream_ckpt (s : State) (n : Nat) (x : Stream) : (s.setStream n x).ckpt = s.ckpt := rfl
@[simp] theorem setStream_keys (s : State) (n : Nat) (x : Stream) : (s.setStream n x).keys = s.keys := rfl
@[simp] theorem setStream_sec (s : State) (n : Nat) (x : Stream) : (s.setStream n x).sec = s.sec := rfl
@[simp] theorem setStream_pending (s : State) (n : Nat) (x : Stream) : (s.setStream n x).pending = s.pending := rfl
@[simp] theorem stream_setStream (s : State) (n : Nat) (x : Stream) : (s.setStream n x).stream n = x := by unfold State.setStream State.stream; exact tget_tput_same _ _ _ _
theorem stream_setStream_other (s : State) (n : Nat) (x : Stream) {m : Nat} (e : m ≠ n) : (s.setStream n x).stream m = s.stream m := by unfold State.setStream State.stream; exact tget_tput_other _ _ _ e

@[simp] theorem setPolicer_regs (s : State) (n : Nat) (x : Policer) : (s.setPolicer n x).regs = s.regs := rfl
@[simp] theorem setPolicer_latch (s : State) (n : Nat) (x : Policer) : (s.setPolicer n x).latch = s.latch := rfl
@[simp] theorem setPolicer_resp (s : State) (n : Nat) (x : Policer) : (s.setPolicer n x).resp = s.resp := rfl
@[simp] theorem setPolicer_ended (s : State) (n : Nat) (x : Policer) : (s.setPolicer n x).ended = s.ended := rfl
@[simp] theorem setPolicer_fresh (s : State) (n : Nat) (x : Policer) : (s.setPolicer n x).fresh = s.fresh := rfl
@[simp] theorem setPolicer_tb (s : State) (n : Nat) (x : Policer) : (s.setPolicer n x).tb = s.tb := rfl
@[simp] theorem setPolicer_power (s : State) (n : Nat) (x : Policer) : (s.setPolicer n x).power = s.power := rfl
@[simp] theorem setPolicer_pins (s : State) (n : Nat) (x : Policer) : (s.setPolicer n x).pins = s.pins := rfl
@[simp] theorem setPolicer_tel (s : State) (n : Nat) (x : Policer) : (s.setPolicer n x).tel = s.tel := rfl
@[simp] theorem setPolicer_mem (s : State) (n : Nat) (x : Policer) : (s.setPolicer n x).mem = s.mem := rfl
@[simp] theorem setPolicer_bad (s : State) (n : Nat) (x : Policer) : (s.setPolicer n x).bad = s.bad := rfl
@[simp] theorem setPolicer_again (s : State) (n : Nat) (x : Policer) : (s.setPolicer n x).again = s.again := rfl
@[simp] theorem setPolicer_own (s : State) (n : Nat) (x : Policer) : (s.setPolicer n x).own = s.own := rfl
@[simp] theorem setPolicer_memctl (s : State) (n : Nat) (x : Policer) : (s.setPolicer n x).memctl = s.memctl := rfl
@[simp] theorem setPolicer_hostMem (s : State) (n : Nat) (x : Policer) : (s.setPolicer n x).hostMem = s.hostMem := rfl
@[simp] theorem setPolicer_hosts (s : State) (n : Nat) (x : Policer) : (s.setPolicer n x).hosts = s.hosts := rfl
@[simp] theorem setPolicer_ports (s : State) (n : Nat) (x : Policer) : (s.setPolicer n x).ports = s.ports := rfl
@[simp] theorem setPolicer_wire (s : State) (n : Nat) (x : Policer) : (s.setPolicer n x).wire = s.wire := rfl
@[simp] theorem setPolicer_cmd (s : State) (n : Nat) (x : Policer) : (s.setPolicer n x).cmd = s.cmd := rfl
@[simp] theorem setPolicer_sync (s : State) (n : Nat) (x : Policer) : (s.setPolicer n x).sync = s.sync := rfl
@[simp] theorem setPolicer_fw (s : State) (n : Nat) (x : Policer) : (s.setPolicer n x).fw = s.fw := rfl
@[simp] theorem setPolicer_eng (s : State) (n : Nat) (x : Policer) : (s.setPolicer n x).eng = s.eng := rfl
@[simp] theorem setPolicer_chains (s : State) (n : Nat) (x : Policer) : (s.setPolicer n x).chains = s.chains := rfl
@[simp] theorem setPolicer_cores (s : State) (n : Nat) (x : Policer) : (s.setPolicer n x).cores = s.cores := rfl
@[simp] theorem setPolicer_lodes (s : State) (n : Nat) (x : Policer) : (s.setPolicer n x).lodes = s.lodes := rfl
@[simp] theorem setPolicer_groups (s : State) (n : Nat) (x : Policer) : (s.setPolicer n x).groups = s.groups := rfl
@[simp] theorem setPolicer_sto (s : State) (n : Nat) (x : Policer) : (s.setPolicer n x).sto = s.sto := rfl
@[simp] theorem setPolicer_seam (s : State) (n : Nat) (x : Policer) : (s.setPolicer n x).seam = s.seam := rfl
@[simp] theorem setPolicer_ft (s : State) (n : Nat) (x : Policer) : (s.setPolicer n x).ft = s.ft := rfl
@[simp] theorem setPolicer_ckpt (s : State) (n : Nat) (x : Policer) : (s.setPolicer n x).ckpt = s.ckpt := rfl
@[simp] theorem setPolicer_keys (s : State) (n : Nat) (x : Policer) : (s.setPolicer n x).keys = s.keys := rfl
@[simp] theorem setPolicer_sec (s : State) (n : Nat) (x : Policer) : (s.setPolicer n x).sec = s.sec := rfl
@[simp] theorem setPolicer_pending (s : State) (n : Nat) (x : Policer) : (s.setPolicer n x).pending = s.pending := rfl
@[simp] theorem policer_setPolicer (s : State) (n : Nat) (x : Policer) : (s.setPolicer n x).policer n = x := by unfold State.setPolicer State.policer; exact tget_tput_same _ _ _ _
theorem policer_setPolicer_other (s : State) (n : Nat) (x : Policer) {m : Nat} (e : m ≠ n) : (s.setPolicer n x).policer m = s.policer m := by unfold State.setPolicer State.policer; exact tget_tput_other _ _ _ e

@[simp] theorem setDrive_regs (s : State) (n : Nat) (x : Drive) : (s.setDrive n x).regs = s.regs := rfl
@[simp] theorem setDrive_latch (s : State) (n : Nat) (x : Drive) : (s.setDrive n x).latch = s.latch := rfl
@[simp] theorem setDrive_resp (s : State) (n : Nat) (x : Drive) : (s.setDrive n x).resp = s.resp := rfl
@[simp] theorem setDrive_ended (s : State) (n : Nat) (x : Drive) : (s.setDrive n x).ended = s.ended := rfl
@[simp] theorem setDrive_fresh (s : State) (n : Nat) (x : Drive) : (s.setDrive n x).fresh = s.fresh := rfl
@[simp] theorem setDrive_tb (s : State) (n : Nat) (x : Drive) : (s.setDrive n x).tb = s.tb := rfl
@[simp] theorem setDrive_power (s : State) (n : Nat) (x : Drive) : (s.setDrive n x).power = s.power := rfl
@[simp] theorem setDrive_pins (s : State) (n : Nat) (x : Drive) : (s.setDrive n x).pins = s.pins := rfl
@[simp] theorem setDrive_tel (s : State) (n : Nat) (x : Drive) : (s.setDrive n x).tel = s.tel := rfl
@[simp] theorem setDrive_mem (s : State) (n : Nat) (x : Drive) : (s.setDrive n x).mem = s.mem := rfl
@[simp] theorem setDrive_bad (s : State) (n : Nat) (x : Drive) : (s.setDrive n x).bad = s.bad := rfl
@[simp] theorem setDrive_again (s : State) (n : Nat) (x : Drive) : (s.setDrive n x).again = s.again := rfl
@[simp] theorem setDrive_own (s : State) (n : Nat) (x : Drive) : (s.setDrive n x).own = s.own := rfl
@[simp] theorem setDrive_memctl (s : State) (n : Nat) (x : Drive) : (s.setDrive n x).memctl = s.memctl := rfl
@[simp] theorem setDrive_hostMem (s : State) (n : Nat) (x : Drive) : (s.setDrive n x).hostMem = s.hostMem := rfl
@[simp] theorem setDrive_hosts (s : State) (n : Nat) (x : Drive) : (s.setDrive n x).hosts = s.hosts := rfl
@[simp] theorem setDrive_ports (s : State) (n : Nat) (x : Drive) : (s.setDrive n x).ports = s.ports := rfl
@[simp] theorem setDrive_wire (s : State) (n : Nat) (x : Drive) : (s.setDrive n x).wire = s.wire := rfl
@[simp] theorem setDrive_cmd (s : State) (n : Nat) (x : Drive) : (s.setDrive n x).cmd = s.cmd := rfl
@[simp] theorem setDrive_sync (s : State) (n : Nat) (x : Drive) : (s.setDrive n x).sync = s.sync := rfl
@[simp] theorem setDrive_fw (s : State) (n : Nat) (x : Drive) : (s.setDrive n x).fw = s.fw := rfl
@[simp] theorem setDrive_eng (s : State) (n : Nat) (x : Drive) : (s.setDrive n x).eng = s.eng := rfl
@[simp] theorem setDrive_chains (s : State) (n : Nat) (x : Drive) : (s.setDrive n x).chains = s.chains := rfl
@[simp] theorem setDrive_cores (s : State) (n : Nat) (x : Drive) : (s.setDrive n x).cores = s.cores := rfl
@[simp] theorem setDrive_lodes (s : State) (n : Nat) (x : Drive) : (s.setDrive n x).lodes = s.lodes := rfl
@[simp] theorem setDrive_groups (s : State) (n : Nat) (x : Drive) : (s.setDrive n x).groups = s.groups := rfl
@[simp] theorem setDrive_net (s : State) (n : Nat) (x : Drive) : (s.setDrive n x).net = s.net := rfl
@[simp] theorem setDrive_seam (s : State) (n : Nat) (x : Drive) : (s.setDrive n x).seam = s.seam := rfl
@[simp] theorem setDrive_ft (s : State) (n : Nat) (x : Drive) : (s.setDrive n x).ft = s.ft := rfl
@[simp] theorem setDrive_ckpt (s : State) (n : Nat) (x : Drive) : (s.setDrive n x).ckpt = s.ckpt := rfl
@[simp] theorem setDrive_keys (s : State) (n : Nat) (x : Drive) : (s.setDrive n x).keys = s.keys := rfl
@[simp] theorem setDrive_sec (s : State) (n : Nat) (x : Drive) : (s.setDrive n x).sec = s.sec := rfl
@[simp] theorem setDrive_pending (s : State) (n : Nat) (x : Drive) : (s.setDrive n x).pending = s.pending := rfl
@[simp] theorem drive_setDrive (s : State) (n : Nat) (x : Drive) : (s.setDrive n x).drive n = x := by unfold State.setDrive State.drive; exact tget_tput_same _ _ _ _
theorem drive_setDrive_other (s : State) (n : Nat) (x : Drive) {m : Nat} (e : m ≠ n) : (s.setDrive n x).drive m = s.drive m := by unfold State.setDrive State.drive; exact tget_tput_other _ _ _ e

@[simp] theorem setVol_regs (s : State) (n : Nat) (x : Vol) : (s.setVol n x).regs = s.regs := rfl
@[simp] theorem setVol_latch (s : State) (n : Nat) (x : Vol) : (s.setVol n x).latch = s.latch := rfl
@[simp] theorem setVol_resp (s : State) (n : Nat) (x : Vol) : (s.setVol n x).resp = s.resp := rfl
@[simp] theorem setVol_ended (s : State) (n : Nat) (x : Vol) : (s.setVol n x).ended = s.ended := rfl
@[simp] theorem setVol_fresh (s : State) (n : Nat) (x : Vol) : (s.setVol n x).fresh = s.fresh := rfl
@[simp] theorem setVol_tb (s : State) (n : Nat) (x : Vol) : (s.setVol n x).tb = s.tb := rfl
@[simp] theorem setVol_power (s : State) (n : Nat) (x : Vol) : (s.setVol n x).power = s.power := rfl
@[simp] theorem setVol_pins (s : State) (n : Nat) (x : Vol) : (s.setVol n x).pins = s.pins := rfl
@[simp] theorem setVol_tel (s : State) (n : Nat) (x : Vol) : (s.setVol n x).tel = s.tel := rfl
@[simp] theorem setVol_mem (s : State) (n : Nat) (x : Vol) : (s.setVol n x).mem = s.mem := rfl
@[simp] theorem setVol_bad (s : State) (n : Nat) (x : Vol) : (s.setVol n x).bad = s.bad := rfl
@[simp] theorem setVol_again (s : State) (n : Nat) (x : Vol) : (s.setVol n x).again = s.again := rfl
@[simp] theorem setVol_own (s : State) (n : Nat) (x : Vol) : (s.setVol n x).own = s.own := rfl
@[simp] theorem setVol_memctl (s : State) (n : Nat) (x : Vol) : (s.setVol n x).memctl = s.memctl := rfl
@[simp] theorem setVol_hostMem (s : State) (n : Nat) (x : Vol) : (s.setVol n x).hostMem = s.hostMem := rfl
@[simp] theorem setVol_hosts (s : State) (n : Nat) (x : Vol) : (s.setVol n x).hosts = s.hosts := rfl
@[simp] theorem setVol_ports (s : State) (n : Nat) (x : Vol) : (s.setVol n x).ports = s.ports := rfl
@[simp] theorem setVol_wire (s : State) (n : Nat) (x : Vol) : (s.setVol n x).wire = s.wire := rfl
@[simp] theorem setVol_cmd (s : State) (n : Nat) (x : Vol) : (s.setVol n x).cmd = s.cmd := rfl
@[simp] theorem setVol_sync (s : State) (n : Nat) (x : Vol) : (s.setVol n x).sync = s.sync := rfl
@[simp] theorem setVol_fw (s : State) (n : Nat) (x : Vol) : (s.setVol n x).fw = s.fw := rfl
@[simp] theorem setVol_eng (s : State) (n : Nat) (x : Vol) : (s.setVol n x).eng = s.eng := rfl
@[simp] theorem setVol_chains (s : State) (n : Nat) (x : Vol) : (s.setVol n x).chains = s.chains := rfl
@[simp] theorem setVol_cores (s : State) (n : Nat) (x : Vol) : (s.setVol n x).cores = s.cores := rfl
@[simp] theorem setVol_lodes (s : State) (n : Nat) (x : Vol) : (s.setVol n x).lodes = s.lodes := rfl
@[simp] theorem setVol_groups (s : State) (n : Nat) (x : Vol) : (s.setVol n x).groups = s.groups := rfl
@[simp] theorem setVol_net (s : State) (n : Nat) (x : Vol) : (s.setVol n x).net = s.net := rfl
@[simp] theorem setVol_seam (s : State) (n : Nat) (x : Vol) : (s.setVol n x).seam = s.seam := rfl
@[simp] theorem setVol_ft (s : State) (n : Nat) (x : Vol) : (s.setVol n x).ft = s.ft := rfl
@[simp] theorem setVol_ckpt (s : State) (n : Nat) (x : Vol) : (s.setVol n x).ckpt = s.ckpt := rfl
@[simp] theorem setVol_keys (s : State) (n : Nat) (x : Vol) : (s.setVol n x).keys = s.keys := rfl
@[simp] theorem setVol_sec (s : State) (n : Nat) (x : Vol) : (s.setVol n x).sec = s.sec := rfl
@[simp] theorem setVol_pending (s : State) (n : Nat) (x : Vol) : (s.setVol n x).pending = s.pending := rfl
@[simp] theorem vol_setVol (s : State) (n : Nat) (x : Vol) : (s.setVol n x).vol n = x := by unfold State.setVol State.vol; exact tget_tput_same _ _ _ _
theorem vol_setVol_other (s : State) (n : Nat) (x : Vol) {m : Nat} (e : m ≠ n) : (s.setVol n x).vol m = s.vol m := by unfold State.setVol State.vol; exact tget_tput_other _ _ _ e

@[simp] theorem setStoQ_regs (s : State) (n : Nat) (x : StoQ) : (s.setStoQ n x).regs = s.regs := rfl
@[simp] theorem setStoQ_latch (s : State) (n : Nat) (x : StoQ) : (s.setStoQ n x).latch = s.latch := rfl
@[simp] theorem setStoQ_resp (s : State) (n : Nat) (x : StoQ) : (s.setStoQ n x).resp = s.resp := rfl
@[simp] theorem setStoQ_ended (s : State) (n : Nat) (x : StoQ) : (s.setStoQ n x).ended = s.ended := rfl
@[simp] theorem setStoQ_fresh (s : State) (n : Nat) (x : StoQ) : (s.setStoQ n x).fresh = s.fresh := rfl
@[simp] theorem setStoQ_tb (s : State) (n : Nat) (x : StoQ) : (s.setStoQ n x).tb = s.tb := rfl
@[simp] theorem setStoQ_power (s : State) (n : Nat) (x : StoQ) : (s.setStoQ n x).power = s.power := rfl
@[simp] theorem setStoQ_pins (s : State) (n : Nat) (x : StoQ) : (s.setStoQ n x).pins = s.pins := rfl
@[simp] theorem setStoQ_tel (s : State) (n : Nat) (x : StoQ) : (s.setStoQ n x).tel = s.tel := rfl
@[simp] theorem setStoQ_mem (s : State) (n : Nat) (x : StoQ) : (s.setStoQ n x).mem = s.mem := rfl
@[simp] theorem setStoQ_bad (s : State) (n : Nat) (x : StoQ) : (s.setStoQ n x).bad = s.bad := rfl
@[simp] theorem setStoQ_again (s : State) (n : Nat) (x : StoQ) : (s.setStoQ n x).again = s.again := rfl
@[simp] theorem setStoQ_own (s : State) (n : Nat) (x : StoQ) : (s.setStoQ n x).own = s.own := rfl
@[simp] theorem setStoQ_memctl (s : State) (n : Nat) (x : StoQ) : (s.setStoQ n x).memctl = s.memctl := rfl
@[simp] theorem setStoQ_hostMem (s : State) (n : Nat) (x : StoQ) : (s.setStoQ n x).hostMem = s.hostMem := rfl
@[simp] theorem setStoQ_hosts (s : State) (n : Nat) (x : StoQ) : (s.setStoQ n x).hosts = s.hosts := rfl
@[simp] theorem setStoQ_ports (s : State) (n : Nat) (x : StoQ) : (s.setStoQ n x).ports = s.ports := rfl
@[simp] theorem setStoQ_wire (s : State) (n : Nat) (x : StoQ) : (s.setStoQ n x).wire = s.wire := rfl
@[simp] theorem setStoQ_cmd (s : State) (n : Nat) (x : StoQ) : (s.setStoQ n x).cmd = s.cmd := rfl
@[simp] theorem setStoQ_sync (s : State) (n : Nat) (x : StoQ) : (s.setStoQ n x).sync = s.sync := rfl
@[simp] theorem setStoQ_fw (s : State) (n : Nat) (x : StoQ) : (s.setStoQ n x).fw = s.fw := rfl
@[simp] theorem setStoQ_eng (s : State) (n : Nat) (x : StoQ) : (s.setStoQ n x).eng = s.eng := rfl
@[simp] theorem setStoQ_chains (s : State) (n : Nat) (x : StoQ) : (s.setStoQ n x).chains = s.chains := rfl
@[simp] theorem setStoQ_cores (s : State) (n : Nat) (x : StoQ) : (s.setStoQ n x).cores = s.cores := rfl
@[simp] theorem setStoQ_lodes (s : State) (n : Nat) (x : StoQ) : (s.setStoQ n x).lodes = s.lodes := rfl
@[simp] theorem setStoQ_groups (s : State) (n : Nat) (x : StoQ) : (s.setStoQ n x).groups = s.groups := rfl
@[simp] theorem setStoQ_net (s : State) (n : Nat) (x : StoQ) : (s.setStoQ n x).net = s.net := rfl
@[simp] theorem setStoQ_seam (s : State) (n : Nat) (x : StoQ) : (s.setStoQ n x).seam = s.seam := rfl
@[simp] theorem setStoQ_ft (s : State) (n : Nat) (x : StoQ) : (s.setStoQ n x).ft = s.ft := rfl
@[simp] theorem setStoQ_ckpt (s : State) (n : Nat) (x : StoQ) : (s.setStoQ n x).ckpt = s.ckpt := rfl
@[simp] theorem setStoQ_keys (s : State) (n : Nat) (x : StoQ) : (s.setStoQ n x).keys = s.keys := rfl
@[simp] theorem setStoQ_sec (s : State) (n : Nat) (x : StoQ) : (s.setStoQ n x).sec = s.sec := rfl
@[simp] theorem setStoQ_pending (s : State) (n : Nat) (x : StoQ) : (s.setStoQ n x).pending = s.pending := rfl
@[simp] theorem stoQ_setStoQ (s : State) (n : Nat) (x : StoQ) : (s.setStoQ n x).stoQ n = x := by unfold State.setStoQ State.stoQ; exact tget_tput_same _ _ _ _
theorem stoQ_setStoQ_other (s : State) (n : Nat) (x : StoQ) {m : Nat} (e : m ≠ n) : (s.setStoQ n x).stoQ m = s.stoQ m := by unfold State.setStoQ State.stoQ; exact tget_tput_other _ _ _ e

@[simp] theorem setLink_regs (s : State) (n : Nat) (x : Link) : (s.setLink n x).regs = s.regs := rfl
@[simp] theorem setLink_latch (s : State) (n : Nat) (x : Link) : (s.setLink n x).latch = s.latch := rfl
@[simp] theorem setLink_resp (s : State) (n : Nat) (x : Link) : (s.setLink n x).resp = s.resp := rfl
@[simp] theorem setLink_ended (s : State) (n : Nat) (x : Link) : (s.setLink n x).ended = s.ended := rfl
@[simp] theorem setLink_fresh (s : State) (n : Nat) (x : Link) : (s.setLink n x).fresh = s.fresh := rfl
@[simp] theorem setLink_tb (s : State) (n : Nat) (x : Link) : (s.setLink n x).tb = s.tb := rfl
@[simp] theorem setLink_power (s : State) (n : Nat) (x : Link) : (s.setLink n x).power = s.power := rfl
@[simp] theorem setLink_pins (s : State) (n : Nat) (x : Link) : (s.setLink n x).pins = s.pins := rfl
@[simp] theorem setLink_tel (s : State) (n : Nat) (x : Link) : (s.setLink n x).tel = s.tel := rfl
@[simp] theorem setLink_mem (s : State) (n : Nat) (x : Link) : (s.setLink n x).mem = s.mem := rfl
@[simp] theorem setLink_bad (s : State) (n : Nat) (x : Link) : (s.setLink n x).bad = s.bad := rfl
@[simp] theorem setLink_again (s : State) (n : Nat) (x : Link) : (s.setLink n x).again = s.again := rfl
@[simp] theorem setLink_own (s : State) (n : Nat) (x : Link) : (s.setLink n x).own = s.own := rfl
@[simp] theorem setLink_memctl (s : State) (n : Nat) (x : Link) : (s.setLink n x).memctl = s.memctl := rfl
@[simp] theorem setLink_hostMem (s : State) (n : Nat) (x : Link) : (s.setLink n x).hostMem = s.hostMem := rfl
@[simp] theorem setLink_hosts (s : State) (n : Nat) (x : Link) : (s.setLink n x).hosts = s.hosts := rfl
@[simp] theorem setLink_ports (s : State) (n : Nat) (x : Link) : (s.setLink n x).ports = s.ports := rfl
@[simp] theorem setLink_wire (s : State) (n : Nat) (x : Link) : (s.setLink n x).wire = s.wire := rfl
@[simp] theorem setLink_cmd (s : State) (n : Nat) (x : Link) : (s.setLink n x).cmd = s.cmd := rfl
@[simp] theorem setLink_sync (s : State) (n : Nat) (x : Link) : (s.setLink n x).sync = s.sync := rfl
@[simp] theorem setLink_fw (s : State) (n : Nat) (x : Link) : (s.setLink n x).fw = s.fw := rfl
@[simp] theorem setLink_eng (s : State) (n : Nat) (x : Link) : (s.setLink n x).eng = s.eng := rfl
@[simp] theorem setLink_chains (s : State) (n : Nat) (x : Link) : (s.setLink n x).chains = s.chains := rfl
@[simp] theorem setLink_cores (s : State) (n : Nat) (x : Link) : (s.setLink n x).cores = s.cores := rfl
@[simp] theorem setLink_lodes (s : State) (n : Nat) (x : Link) : (s.setLink n x).lodes = s.lodes := rfl
@[simp] theorem setLink_groups (s : State) (n : Nat) (x : Link) : (s.setLink n x).groups = s.groups := rfl
@[simp] theorem setLink_net (s : State) (n : Nat) (x : Link) : (s.setLink n x).net = s.net := rfl
@[simp] theorem setLink_sto (s : State) (n : Nat) (x : Link) : (s.setLink n x).sto = s.sto := rfl
@[simp] theorem setLink_ft (s : State) (n : Nat) (x : Link) : (s.setLink n x).ft = s.ft := rfl
@[simp] theorem setLink_ckpt (s : State) (n : Nat) (x : Link) : (s.setLink n x).ckpt = s.ckpt := rfl
@[simp] theorem setLink_keys (s : State) (n : Nat) (x : Link) : (s.setLink n x).keys = s.keys := rfl
@[simp] theorem setLink_sec (s : State) (n : Nat) (x : Link) : (s.setLink n x).sec = s.sec := rfl
@[simp] theorem setLink_pending (s : State) (n : Nat) (x : Link) : (s.setLink n x).pending = s.pending := rfl
@[simp] theorem link_setLink (s : State) (n : Nat) (x : Link) : (s.setLink n x).link n = x := by unfold State.setLink State.link; exact tget_tput_same _ _ _ _
theorem link_setLink_other (s : State) (n : Nat) (x : Link) {m : Nat} (e : m ≠ n) : (s.setLink n x).link m = s.link m := by unfold State.setLink State.link; exact tget_tput_other _ _ _ e

@[simp] theorem setBundle_regs (s : State) (n : Nat) (x : Bundle) : (s.setBundle n x).regs = s.regs := rfl
@[simp] theorem setBundle_latch (s : State) (n : Nat) (x : Bundle) : (s.setBundle n x).latch = s.latch := rfl
@[simp] theorem setBundle_resp (s : State) (n : Nat) (x : Bundle) : (s.setBundle n x).resp = s.resp := rfl
@[simp] theorem setBundle_ended (s : State) (n : Nat) (x : Bundle) : (s.setBundle n x).ended = s.ended := rfl
@[simp] theorem setBundle_fresh (s : State) (n : Nat) (x : Bundle) : (s.setBundle n x).fresh = s.fresh := rfl
@[simp] theorem setBundle_tb (s : State) (n : Nat) (x : Bundle) : (s.setBundle n x).tb = s.tb := rfl
@[simp] theorem setBundle_power (s : State) (n : Nat) (x : Bundle) : (s.setBundle n x).power = s.power := rfl
@[simp] theorem setBundle_pins (s : State) (n : Nat) (x : Bundle) : (s.setBundle n x).pins = s.pins := rfl
@[simp] theorem setBundle_tel (s : State) (n : Nat) (x : Bundle) : (s.setBundle n x).tel = s.tel := rfl
@[simp] theorem setBundle_mem (s : State) (n : Nat) (x : Bundle) : (s.setBundle n x).mem = s.mem := rfl
@[simp] theorem setBundle_bad (s : State) (n : Nat) (x : Bundle) : (s.setBundle n x).bad = s.bad := rfl
@[simp] theorem setBundle_again (s : State) (n : Nat) (x : Bundle) : (s.setBundle n x).again = s.again := rfl
@[simp] theorem setBundle_own (s : State) (n : Nat) (x : Bundle) : (s.setBundle n x).own = s.own := rfl
@[simp] theorem setBundle_memctl (s : State) (n : Nat) (x : Bundle) : (s.setBundle n x).memctl = s.memctl := rfl
@[simp] theorem setBundle_hostMem (s : State) (n : Nat) (x : Bundle) : (s.setBundle n x).hostMem = s.hostMem := rfl
@[simp] theorem setBundle_hosts (s : State) (n : Nat) (x : Bundle) : (s.setBundle n x).hosts = s.hosts := rfl
@[simp] theorem setBundle_ports (s : State) (n : Nat) (x : Bundle) : (s.setBundle n x).ports = s.ports := rfl
@[simp] theorem setBundle_wire (s : State) (n : Nat) (x : Bundle) : (s.setBundle n x).wire = s.wire := rfl
@[simp] theorem setBundle_cmd (s : State) (n : Nat) (x : Bundle) : (s.setBundle n x).cmd = s.cmd := rfl
@[simp] theorem setBundle_sync (s : State) (n : Nat) (x : Bundle) : (s.setBundle n x).sync = s.sync := rfl
@[simp] theorem setBundle_fw (s : State) (n : Nat) (x : Bundle) : (s.setBundle n x).fw = s.fw := rfl
@[simp] theorem setBundle_eng (s : State) (n : Nat) (x : Bundle) : (s.setBundle n x).eng = s.eng := rfl
@[simp] theorem setBundle_chains (s : State) (n : Nat) (x : Bundle) : (s.setBundle n x).chains = s.chains := rfl
@[simp] theorem setBundle_cores (s : State) (n : Nat) (x : Bundle) : (s.setBundle n x).cores = s.cores := rfl
@[simp] theorem setBundle_lodes (s : State) (n : Nat) (x : Bundle) : (s.setBundle n x).lodes = s.lodes := rfl
@[simp] theorem setBundle_groups (s : State) (n : Nat) (x : Bundle) : (s.setBundle n x).groups = s.groups := rfl
@[simp] theorem setBundle_net (s : State) (n : Nat) (x : Bundle) : (s.setBundle n x).net = s.net := rfl
@[simp] theorem setBundle_sto (s : State) (n : Nat) (x : Bundle) : (s.setBundle n x).sto = s.sto := rfl
@[simp] theorem setBundle_ft (s : State) (n : Nat) (x : Bundle) : (s.setBundle n x).ft = s.ft := rfl
@[simp] theorem setBundle_ckpt (s : State) (n : Nat) (x : Bundle) : (s.setBundle n x).ckpt = s.ckpt := rfl
@[simp] theorem setBundle_keys (s : State) (n : Nat) (x : Bundle) : (s.setBundle n x).keys = s.keys := rfl
@[simp] theorem setBundle_sec (s : State) (n : Nat) (x : Bundle) : (s.setBundle n x).sec = s.sec := rfl
@[simp] theorem setBundle_pending (s : State) (n : Nat) (x : Bundle) : (s.setBundle n x).pending = s.pending := rfl
@[simp] theorem bundle_setBundle (s : State) (n : Nat) (x : Bundle) : (s.setBundle n x).bundle n = x := by unfold State.setBundle State.bundle; exact tget_tput_same _ _ _ _
theorem bundle_setBundle_other (s : State) (n : Nat) (x : Bundle) {m : Nat} (e : m ≠ n) : (s.setBundle n x).bundle m = s.bundle m := by unfold State.setBundle State.bundle; exact tget_tput_other _ _ _ e

@[simp] theorem setFtMsg_regs (s : State) (n : Nat) (x : Option FtMsg) : (s.setFtMsg n x).regs = s.regs := rfl
@[simp] theorem setFtMsg_latch (s : State) (n : Nat) (x : Option FtMsg) : (s.setFtMsg n x).latch = s.latch := rfl
@[simp] theorem setFtMsg_resp (s : State) (n : Nat) (x : Option FtMsg) : (s.setFtMsg n x).resp = s.resp := rfl
@[simp] theorem setFtMsg_ended (s : State) (n : Nat) (x : Option FtMsg) : (s.setFtMsg n x).ended = s.ended := rfl
@[simp] theorem setFtMsg_fresh (s : State) (n : Nat) (x : Option FtMsg) : (s.setFtMsg n x).fresh = s.fresh := rfl
@[simp] theorem setFtMsg_tb (s : State) (n : Nat) (x : Option FtMsg) : (s.setFtMsg n x).tb = s.tb := rfl
@[simp] theorem setFtMsg_power (s : State) (n : Nat) (x : Option FtMsg) : (s.setFtMsg n x).power = s.power := rfl
@[simp] theorem setFtMsg_pins (s : State) (n : Nat) (x : Option FtMsg) : (s.setFtMsg n x).pins = s.pins := rfl
@[simp] theorem setFtMsg_tel (s : State) (n : Nat) (x : Option FtMsg) : (s.setFtMsg n x).tel = s.tel := rfl
@[simp] theorem setFtMsg_mem (s : State) (n : Nat) (x : Option FtMsg) : (s.setFtMsg n x).mem = s.mem := rfl
@[simp] theorem setFtMsg_bad (s : State) (n : Nat) (x : Option FtMsg) : (s.setFtMsg n x).bad = s.bad := rfl
@[simp] theorem setFtMsg_again (s : State) (n : Nat) (x : Option FtMsg) : (s.setFtMsg n x).again = s.again := rfl
@[simp] theorem setFtMsg_own (s : State) (n : Nat) (x : Option FtMsg) : (s.setFtMsg n x).own = s.own := rfl
@[simp] theorem setFtMsg_memctl (s : State) (n : Nat) (x : Option FtMsg) : (s.setFtMsg n x).memctl = s.memctl := rfl
@[simp] theorem setFtMsg_hostMem (s : State) (n : Nat) (x : Option FtMsg) : (s.setFtMsg n x).hostMem = s.hostMem := rfl
@[simp] theorem setFtMsg_hosts (s : State) (n : Nat) (x : Option FtMsg) : (s.setFtMsg n x).hosts = s.hosts := rfl
@[simp] theorem setFtMsg_ports (s : State) (n : Nat) (x : Option FtMsg) : (s.setFtMsg n x).ports = s.ports := rfl
@[simp] theorem setFtMsg_wire (s : State) (n : Nat) (x : Option FtMsg) : (s.setFtMsg n x).wire = s.wire := rfl
@[simp] theorem setFtMsg_cmd (s : State) (n : Nat) (x : Option FtMsg) : (s.setFtMsg n x).cmd = s.cmd := rfl
@[simp] theorem setFtMsg_sync (s : State) (n : Nat) (x : Option FtMsg) : (s.setFtMsg n x).sync = s.sync := rfl
@[simp] theorem setFtMsg_fw (s : State) (n : Nat) (x : Option FtMsg) : (s.setFtMsg n x).fw = s.fw := rfl
@[simp] theorem setFtMsg_eng (s : State) (n : Nat) (x : Option FtMsg) : (s.setFtMsg n x).eng = s.eng := rfl
@[simp] theorem setFtMsg_chains (s : State) (n : Nat) (x : Option FtMsg) : (s.setFtMsg n x).chains = s.chains := rfl
@[simp] theorem setFtMsg_cores (s : State) (n : Nat) (x : Option FtMsg) : (s.setFtMsg n x).cores = s.cores := rfl
@[simp] theorem setFtMsg_lodes (s : State) (n : Nat) (x : Option FtMsg) : (s.setFtMsg n x).lodes = s.lodes := rfl
@[simp] theorem setFtMsg_groups (s : State) (n : Nat) (x : Option FtMsg) : (s.setFtMsg n x).groups = s.groups := rfl
@[simp] theorem setFtMsg_net (s : State) (n : Nat) (x : Option FtMsg) : (s.setFtMsg n x).net = s.net := rfl
@[simp] theorem setFtMsg_sto (s : State) (n : Nat) (x : Option FtMsg) : (s.setFtMsg n x).sto = s.sto := rfl
@[simp] theorem setFtMsg_seam (s : State) (n : Nat) (x : Option FtMsg) : (s.setFtMsg n x).seam = s.seam := rfl
@[simp] theorem setFtMsg_ckpt (s : State) (n : Nat) (x : Option FtMsg) : (s.setFtMsg n x).ckpt = s.ckpt := rfl
@[simp] theorem setFtMsg_keys (s : State) (n : Nat) (x : Option FtMsg) : (s.setFtMsg n x).keys = s.keys := rfl
@[simp] theorem setFtMsg_sec (s : State) (n : Nat) (x : Option FtMsg) : (s.setFtMsg n x).sec = s.sec := rfl
@[simp] theorem setFtMsg_pending (s : State) (n : Nat) (x : Option FtMsg) : (s.setFtMsg n x).pending = s.pending := rfl
@[simp] theorem ftMsg_setFtMsg (s : State) (n : Nat) (x : Option FtMsg) : (s.setFtMsg n x).ftMsg n = x := by unfold State.setFtMsg State.ftMsg; exact tget_tput_same _ _ _ _
theorem ftMsg_setFtMsg_other (s : State) (n : Nat) (x : Option FtMsg) {m : Nat} (e : m ≠ n) : (s.setFtMsg n x).ftMsg m = s.ftMsg m := by unfold State.setFtMsg State.ftMsg; exact tget_tput_other _ _ _ e

@[simp] theorem setFtRing_regs (s : State) (n : Nat) (x : Option FtRing) : (s.setFtRing n x).regs = s.regs := rfl
@[simp] theorem setFtRing_latch (s : State) (n : Nat) (x : Option FtRing) : (s.setFtRing n x).latch = s.latch := rfl
@[simp] theorem setFtRing_resp (s : State) (n : Nat) (x : Option FtRing) : (s.setFtRing n x).resp = s.resp := rfl
@[simp] theorem setFtRing_ended (s : State) (n : Nat) (x : Option FtRing) : (s.setFtRing n x).ended = s.ended := rfl
@[simp] theorem setFtRing_fresh (s : State) (n : Nat) (x : Option FtRing) : (s.setFtRing n x).fresh = s.fresh := rfl
@[simp] theorem setFtRing_tb (s : State) (n : Nat) (x : Option FtRing) : (s.setFtRing n x).tb = s.tb := rfl
@[simp] theorem setFtRing_power (s : State) (n : Nat) (x : Option FtRing) : (s.setFtRing n x).power = s.power := rfl
@[simp] theorem setFtRing_pins (s : State) (n : Nat) (x : Option FtRing) : (s.setFtRing n x).pins = s.pins := rfl
@[simp] theorem setFtRing_tel (s : State) (n : Nat) (x : Option FtRing) : (s.setFtRing n x).tel = s.tel := rfl
@[simp] theorem setFtRing_mem (s : State) (n : Nat) (x : Option FtRing) : (s.setFtRing n x).mem = s.mem := rfl
@[simp] theorem setFtRing_bad (s : State) (n : Nat) (x : Option FtRing) : (s.setFtRing n x).bad = s.bad := rfl
@[simp] theorem setFtRing_again (s : State) (n : Nat) (x : Option FtRing) : (s.setFtRing n x).again = s.again := rfl
@[simp] theorem setFtRing_own (s : State) (n : Nat) (x : Option FtRing) : (s.setFtRing n x).own = s.own := rfl
@[simp] theorem setFtRing_memctl (s : State) (n : Nat) (x : Option FtRing) : (s.setFtRing n x).memctl = s.memctl := rfl
@[simp] theorem setFtRing_hostMem (s : State) (n : Nat) (x : Option FtRing) : (s.setFtRing n x).hostMem = s.hostMem := rfl
@[simp] theorem setFtRing_hosts (s : State) (n : Nat) (x : Option FtRing) : (s.setFtRing n x).hosts = s.hosts := rfl
@[simp] theorem setFtRing_ports (s : State) (n : Nat) (x : Option FtRing) : (s.setFtRing n x).ports = s.ports := rfl
@[simp] theorem setFtRing_wire (s : State) (n : Nat) (x : Option FtRing) : (s.setFtRing n x).wire = s.wire := rfl
@[simp] theorem setFtRing_cmd (s : State) (n : Nat) (x : Option FtRing) : (s.setFtRing n x).cmd = s.cmd := rfl
@[simp] theorem setFtRing_sync (s : State) (n : Nat) (x : Option FtRing) : (s.setFtRing n x).sync = s.sync := rfl
@[simp] theorem setFtRing_fw (s : State) (n : Nat) (x : Option FtRing) : (s.setFtRing n x).fw = s.fw := rfl
@[simp] theorem setFtRing_eng (s : State) (n : Nat) (x : Option FtRing) : (s.setFtRing n x).eng = s.eng := rfl
@[simp] theorem setFtRing_chains (s : State) (n : Nat) (x : Option FtRing) : (s.setFtRing n x).chains = s.chains := rfl
@[simp] theorem setFtRing_cores (s : State) (n : Nat) (x : Option FtRing) : (s.setFtRing n x).cores = s.cores := rfl
@[simp] theorem setFtRing_lodes (s : State) (n : Nat) (x : Option FtRing) : (s.setFtRing n x).lodes = s.lodes := rfl
@[simp] theorem setFtRing_groups (s : State) (n : Nat) (x : Option FtRing) : (s.setFtRing n x).groups = s.groups := rfl
@[simp] theorem setFtRing_net (s : State) (n : Nat) (x : Option FtRing) : (s.setFtRing n x).net = s.net := rfl
@[simp] theorem setFtRing_sto (s : State) (n : Nat) (x : Option FtRing) : (s.setFtRing n x).sto = s.sto := rfl
@[simp] theorem setFtRing_seam (s : State) (n : Nat) (x : Option FtRing) : (s.setFtRing n x).seam = s.seam := rfl
@[simp] theorem setFtRing_ckpt (s : State) (n : Nat) (x : Option FtRing) : (s.setFtRing n x).ckpt = s.ckpt := rfl
@[simp] theorem setFtRing_keys (s : State) (n : Nat) (x : Option FtRing) : (s.setFtRing n x).keys = s.keys := rfl
@[simp] theorem setFtRing_sec (s : State) (n : Nat) (x : Option FtRing) : (s.setFtRing n x).sec = s.sec := rfl
@[simp] theorem setFtRing_pending (s : State) (n : Nat) (x : Option FtRing) : (s.setFtRing n x).pending = s.pending := rfl
@[simp] theorem ftRing_setFtRing (s : State) (n : Nat) (x : Option FtRing) : (s.setFtRing n x).ftRing n = x := by unfold State.setFtRing State.ftRing; exact tget_tput_same _ _ _ _
theorem ftRing_setFtRing_other (s : State) (n : Nat) (x : Option FtRing) {m : Nat} (e : m ≠ n) : (s.setFtRing n x).ftRing m = s.ftRing m := by unfold State.setFtRing State.ftRing; exact tget_tput_other _ _ _ e

@[simp] theorem setFtRq_regs (s : State) (n : Nat) (x : Option FtRq) : (s.setFtRq n x).regs = s.regs := rfl
@[simp] theorem setFtRq_latch (s : State) (n : Nat) (x : Option FtRq) : (s.setFtRq n x).latch = s.latch := rfl
@[simp] theorem setFtRq_resp (s : State) (n : Nat) (x : Option FtRq) : (s.setFtRq n x).resp = s.resp := rfl
@[simp] theorem setFtRq_ended (s : State) (n : Nat) (x : Option FtRq) : (s.setFtRq n x).ended = s.ended := rfl
@[simp] theorem setFtRq_fresh (s : State) (n : Nat) (x : Option FtRq) : (s.setFtRq n x).fresh = s.fresh := rfl
@[simp] theorem setFtRq_tb (s : State) (n : Nat) (x : Option FtRq) : (s.setFtRq n x).tb = s.tb := rfl
@[simp] theorem setFtRq_power (s : State) (n : Nat) (x : Option FtRq) : (s.setFtRq n x).power = s.power := rfl
@[simp] theorem setFtRq_pins (s : State) (n : Nat) (x : Option FtRq) : (s.setFtRq n x).pins = s.pins := rfl
@[simp] theorem setFtRq_tel (s : State) (n : Nat) (x : Option FtRq) : (s.setFtRq n x).tel = s.tel := rfl
@[simp] theorem setFtRq_mem (s : State) (n : Nat) (x : Option FtRq) : (s.setFtRq n x).mem = s.mem := rfl
@[simp] theorem setFtRq_bad (s : State) (n : Nat) (x : Option FtRq) : (s.setFtRq n x).bad = s.bad := rfl
@[simp] theorem setFtRq_again (s : State) (n : Nat) (x : Option FtRq) : (s.setFtRq n x).again = s.again := rfl
@[simp] theorem setFtRq_own (s : State) (n : Nat) (x : Option FtRq) : (s.setFtRq n x).own = s.own := rfl
@[simp] theorem setFtRq_memctl (s : State) (n : Nat) (x : Option FtRq) : (s.setFtRq n x).memctl = s.memctl := rfl
@[simp] theorem setFtRq_hostMem (s : State) (n : Nat) (x : Option FtRq) : (s.setFtRq n x).hostMem = s.hostMem := rfl
@[simp] theorem setFtRq_hosts (s : State) (n : Nat) (x : Option FtRq) : (s.setFtRq n x).hosts = s.hosts := rfl
@[simp] theorem setFtRq_ports (s : State) (n : Nat) (x : Option FtRq) : (s.setFtRq n x).ports = s.ports := rfl
@[simp] theorem setFtRq_wire (s : State) (n : Nat) (x : Option FtRq) : (s.setFtRq n x).wire = s.wire := rfl
@[simp] theorem setFtRq_cmd (s : State) (n : Nat) (x : Option FtRq) : (s.setFtRq n x).cmd = s.cmd := rfl
@[simp] theorem setFtRq_sync (s : State) (n : Nat) (x : Option FtRq) : (s.setFtRq n x).sync = s.sync := rfl
@[simp] theorem setFtRq_fw (s : State) (n : Nat) (x : Option FtRq) : (s.setFtRq n x).fw = s.fw := rfl
@[simp] theorem setFtRq_eng (s : State) (n : Nat) (x : Option FtRq) : (s.setFtRq n x).eng = s.eng := rfl
@[simp] theorem setFtRq_chains (s : State) (n : Nat) (x : Option FtRq) : (s.setFtRq n x).chains = s.chains := rfl
@[simp] theorem setFtRq_cores (s : State) (n : Nat) (x : Option FtRq) : (s.setFtRq n x).cores = s.cores := rfl
@[simp] theorem setFtRq_lodes (s : State) (n : Nat) (x : Option FtRq) : (s.setFtRq n x).lodes = s.lodes := rfl
@[simp] theorem setFtRq_groups (s : State) (n : Nat) (x : Option FtRq) : (s.setFtRq n x).groups = s.groups := rfl
@[simp] theorem setFtRq_net (s : State) (n : Nat) (x : Option FtRq) : (s.setFtRq n x).net = s.net := rfl
@[simp] theorem setFtRq_sto (s : State) (n : Nat) (x : Option FtRq) : (s.setFtRq n x).sto = s.sto := rfl
@[simp] theorem setFtRq_seam (s : State) (n : Nat) (x : Option FtRq) : (s.setFtRq n x).seam = s.seam := rfl
@[simp] theorem setFtRq_ckpt (s : State) (n : Nat) (x : Option FtRq) : (s.setFtRq n x).ckpt = s.ckpt := rfl
@[simp] theorem setFtRq_keys (s : State) (n : Nat) (x : Option FtRq) : (s.setFtRq n x).keys = s.keys := rfl
@[simp] theorem setFtRq_sec (s : State) (n : Nat) (x : Option FtRq) : (s.setFtRq n x).sec = s.sec := rfl
@[simp] theorem setFtRq_pending (s : State) (n : Nat) (x : Option FtRq) : (s.setFtRq n x).pending = s.pending := rfl
@[simp] theorem ftRq_setFtRq (s : State) (n : Nat) (x : Option FtRq) : (s.setFtRq n x).ftRq n = x := by unfold State.setFtRq State.ftRq; exact tget_tput_same _ _ _ _
theorem ftRq_setFtRq_other (s : State) (n : Nat) (x : Option FtRq) {m : Nat} (e : m ≠ n) : (s.setFtRq n x).ftRq m = s.ftRq m := by unfold State.setFtRq State.ftRq; exact tget_tput_other _ _ _ e

@[simp] theorem setComm_regs (s : State) (n : Nat) (x : Option Comm) : (s.setComm n x).regs = s.regs := rfl
@[simp] theorem setComm_latch (s : State) (n : Nat) (x : Option Comm) : (s.setComm n x).latch = s.latch := rfl
@[simp] theorem setComm_resp (s : State) (n : Nat) (x : Option Comm) : (s.setComm n x).resp = s.resp := rfl
@[simp] theorem setComm_ended (s : State) (n : Nat) (x : Option Comm) : (s.setComm n x).ended = s.ended := rfl
@[simp] theorem setComm_fresh (s : State) (n : Nat) (x : Option Comm) : (s.setComm n x).fresh = s.fresh := rfl
@[simp] theorem setComm_tb (s : State) (n : Nat) (x : Option Comm) : (s.setComm n x).tb = s.tb := rfl
@[simp] theorem setComm_power (s : State) (n : Nat) (x : Option Comm) : (s.setComm n x).power = s.power := rfl
@[simp] theorem setComm_pins (s : State) (n : Nat) (x : Option Comm) : (s.setComm n x).pins = s.pins := rfl
@[simp] theorem setComm_tel (s : State) (n : Nat) (x : Option Comm) : (s.setComm n x).tel = s.tel := rfl
@[simp] theorem setComm_mem (s : State) (n : Nat) (x : Option Comm) : (s.setComm n x).mem = s.mem := rfl
@[simp] theorem setComm_bad (s : State) (n : Nat) (x : Option Comm) : (s.setComm n x).bad = s.bad := rfl
@[simp] theorem setComm_again (s : State) (n : Nat) (x : Option Comm) : (s.setComm n x).again = s.again := rfl
@[simp] theorem setComm_own (s : State) (n : Nat) (x : Option Comm) : (s.setComm n x).own = s.own := rfl
@[simp] theorem setComm_memctl (s : State) (n : Nat) (x : Option Comm) : (s.setComm n x).memctl = s.memctl := rfl
@[simp] theorem setComm_hostMem (s : State) (n : Nat) (x : Option Comm) : (s.setComm n x).hostMem = s.hostMem := rfl
@[simp] theorem setComm_hosts (s : State) (n : Nat) (x : Option Comm) : (s.setComm n x).hosts = s.hosts := rfl
@[simp] theorem setComm_ports (s : State) (n : Nat) (x : Option Comm) : (s.setComm n x).ports = s.ports := rfl
@[simp] theorem setComm_wire (s : State) (n : Nat) (x : Option Comm) : (s.setComm n x).wire = s.wire := rfl
@[simp] theorem setComm_cmd (s : State) (n : Nat) (x : Option Comm) : (s.setComm n x).cmd = s.cmd := rfl
@[simp] theorem setComm_sync (s : State) (n : Nat) (x : Option Comm) : (s.setComm n x).sync = s.sync := rfl
@[simp] theorem setComm_fw (s : State) (n : Nat) (x : Option Comm) : (s.setComm n x).fw = s.fw := rfl
@[simp] theorem setComm_eng (s : State) (n : Nat) (x : Option Comm) : (s.setComm n x).eng = s.eng := rfl
@[simp] theorem setComm_chains (s : State) (n : Nat) (x : Option Comm) : (s.setComm n x).chains = s.chains := rfl
@[simp] theorem setComm_cores (s : State) (n : Nat) (x : Option Comm) : (s.setComm n x).cores = s.cores := rfl
@[simp] theorem setComm_lodes (s : State) (n : Nat) (x : Option Comm) : (s.setComm n x).lodes = s.lodes := rfl
@[simp] theorem setComm_groups (s : State) (n : Nat) (x : Option Comm) : (s.setComm n x).groups = s.groups := rfl
@[simp] theorem setComm_net (s : State) (n : Nat) (x : Option Comm) : (s.setComm n x).net = s.net := rfl
@[simp] theorem setComm_sto (s : State) (n : Nat) (x : Option Comm) : (s.setComm n x).sto = s.sto := rfl
@[simp] theorem setComm_seam (s : State) (n : Nat) (x : Option Comm) : (s.setComm n x).seam = s.seam := rfl
@[simp] theorem setComm_ft (s : State) (n : Nat) (x : Option Comm) : (s.setComm n x).ft = s.ft := rfl
@[simp] theorem setComm_keys (s : State) (n : Nat) (x : Option Comm) : (s.setComm n x).keys = s.keys := rfl
@[simp] theorem setComm_sec (s : State) (n : Nat) (x : Option Comm) : (s.setComm n x).sec = s.sec := rfl
@[simp] theorem setComm_pending (s : State) (n : Nat) (x : Option Comm) : (s.setComm n x).pending = s.pending := rfl
@[simp] theorem comm_setComm (s : State) (n : Nat) (x : Option Comm) : (s.setComm n x).comm n = x := by unfold State.setComm State.comm; exact tget_tput_same _ _ _ _
theorem comm_setComm_other (s : State) (n : Nat) (x : Option Comm) {m : Nat} (e : m ≠ n) : (s.setComm n x).comm m = s.comm m := by unfold State.setComm State.comm; exact tget_tput_other _ _ _ e

@[simp] theorem setCkSlot_regs (s : State) (t k : Nat) (x : CkSlot) : (s.setCkSlot t k x).regs = s.regs := rfl
@[simp] theorem setCkSlot_latch (s : State) (t k : Nat) (x : CkSlot) : (s.setCkSlot t k x).latch = s.latch := rfl
@[simp] theorem setCkSlot_resp (s : State) (t k : Nat) (x : CkSlot) : (s.setCkSlot t k x).resp = s.resp := rfl
@[simp] theorem setCkSlot_ended (s : State) (t k : Nat) (x : CkSlot) : (s.setCkSlot t k x).ended = s.ended := rfl
@[simp] theorem setCkSlot_fresh (s : State) (t k : Nat) (x : CkSlot) : (s.setCkSlot t k x).fresh = s.fresh := rfl
@[simp] theorem setCkSlot_tb (s : State) (t k : Nat) (x : CkSlot) : (s.setCkSlot t k x).tb = s.tb := rfl
@[simp] theorem setCkSlot_power (s : State) (t k : Nat) (x : CkSlot) : (s.setCkSlot t k x).power = s.power := rfl
@[simp] theorem setCkSlot_pins (s : State) (t k : Nat) (x : CkSlot) : (s.setCkSlot t k x).pins = s.pins := rfl
@[simp] theorem setCkSlot_tel (s : State) (t k : Nat) (x : CkSlot) : (s.setCkSlot t k x).tel = s.tel := rfl
@[simp] theorem setCkSlot_mem (s : State) (t k : Nat) (x : CkSlot) : (s.setCkSlot t k x).mem = s.mem := rfl
@[simp] theorem setCkSlot_bad (s : State) (t k : Nat) (x : CkSlot) : (s.setCkSlot t k x).bad = s.bad := rfl
@[simp] theorem setCkSlot_again (s : State) (t k : Nat) (x : CkSlot) : (s.setCkSlot t k x).again = s.again := rfl
@[simp] theorem setCkSlot_own (s : State) (t k : Nat) (x : CkSlot) : (s.setCkSlot t k x).own = s.own := rfl
@[simp] theorem setCkSlot_memctl (s : State) (t k : Nat) (x : CkSlot) : (s.setCkSlot t k x).memctl = s.memctl := rfl
@[simp] theorem setCkSlot_hostMem (s : State) (t k : Nat) (x : CkSlot) : (s.setCkSlot t k x).hostMem = s.hostMem := rfl
@[simp] theorem setCkSlot_hosts (s : State) (t k : Nat) (x : CkSlot) : (s.setCkSlot t k x).hosts = s.hosts := rfl
@[simp] theorem setCkSlot_ports (s : State) (t k : Nat) (x : CkSlot) : (s.setCkSlot t k x).ports = s.ports := rfl
@[simp] theorem setCkSlot_wire (s : State) (t k : Nat) (x : CkSlot) : (s.setCkSlot t k x).wire = s.wire := rfl
@[simp] theorem setCkSlot_cmd (s : State) (t k : Nat) (x : CkSlot) : (s.setCkSlot t k x).cmd = s.cmd := rfl
@[simp] theorem setCkSlot_sync (s : State) (t k : Nat) (x : CkSlot) : (s.setCkSlot t k x).sync = s.sync := rfl
@[simp] theorem setCkSlot_fw (s : State) (t k : Nat) (x : CkSlot) : (s.setCkSlot t k x).fw = s.fw := rfl
@[simp] theorem setCkSlot_eng (s : State) (t k : Nat) (x : CkSlot) : (s.setCkSlot t k x).eng = s.eng := rfl
@[simp] theorem setCkSlot_chains (s : State) (t k : Nat) (x : CkSlot) : (s.setCkSlot t k x).chains = s.chains := rfl
@[simp] theorem setCkSlot_cores (s : State) (t k : Nat) (x : CkSlot) : (s.setCkSlot t k x).cores = s.cores := rfl
@[simp] theorem setCkSlot_lodes (s : State) (t k : Nat) (x : CkSlot) : (s.setCkSlot t k x).lodes = s.lodes := rfl
@[simp] theorem setCkSlot_groups (s : State) (t k : Nat) (x : CkSlot) : (s.setCkSlot t k x).groups = s.groups := rfl
@[simp] theorem setCkSlot_net (s : State) (t k : Nat) (x : CkSlot) : (s.setCkSlot t k x).net = s.net := rfl
@[simp] theorem setCkSlot_sto (s : State) (t k : Nat) (x : CkSlot) : (s.setCkSlot t k x).sto = s.sto := rfl
@[simp] theorem setCkSlot_seam (s : State) (t k : Nat) (x : CkSlot) : (s.setCkSlot t k x).seam = s.seam := rfl
@[simp] theorem setCkSlot_ft (s : State) (t k : Nat) (x : CkSlot) : (s.setCkSlot t k x).ft = s.ft := rfl
@[simp] theorem setCkSlot_keys (s : State) (t k : Nat) (x : CkSlot) : (s.setCkSlot t k x).keys = s.keys := rfl
@[simp] theorem setCkSlot_sec (s : State) (t k : Nat) (x : CkSlot) : (s.setCkSlot t k x).sec = s.sec := rfl
@[simp] theorem setCkSlot_pending (s : State) (t k : Nat) (x : CkSlot) : (s.setCkSlot t k x).pending = s.pending := rfl

@[simp] theorem setMemc_regs (s : State) (n : Nat) (x : MemCtl) : (s.setMemc n x).regs = s.regs := rfl
@[simp] theorem setMemc_latch (s : State) (n : Nat) (x : MemCtl) : (s.setMemc n x).latch = s.latch := rfl
@[simp] theorem setMemc_resp (s : State) (n : Nat) (x : MemCtl) : (s.setMemc n x).resp = s.resp := rfl
@[simp] theorem setMemc_ended (s : State) (n : Nat) (x : MemCtl) : (s.setMemc n x).ended = s.ended := rfl
@[simp] theorem setMemc_fresh (s : State) (n : Nat) (x : MemCtl) : (s.setMemc n x).fresh = s.fresh := rfl
@[simp] theorem setMemc_tb (s : State) (n : Nat) (x : MemCtl) : (s.setMemc n x).tb = s.tb := rfl
@[simp] theorem setMemc_power (s : State) (n : Nat) (x : MemCtl) : (s.setMemc n x).power = s.power := rfl
@[simp] theorem setMemc_pins (s : State) (n : Nat) (x : MemCtl) : (s.setMemc n x).pins = s.pins := rfl
@[simp] theorem setMemc_tel (s : State) (n : Nat) (x : MemCtl) : (s.setMemc n x).tel = s.tel := rfl
@[simp] theorem setMemc_mem (s : State) (n : Nat) (x : MemCtl) : (s.setMemc n x).mem = s.mem := rfl
@[simp] theorem setMemc_bad (s : State) (n : Nat) (x : MemCtl) : (s.setMemc n x).bad = s.bad := rfl
@[simp] theorem setMemc_again (s : State) (n : Nat) (x : MemCtl) : (s.setMemc n x).again = s.again := rfl
@[simp] theorem setMemc_own (s : State) (n : Nat) (x : MemCtl) : (s.setMemc n x).own = s.own := rfl
@[simp] theorem setMemc_hostMem (s : State) (n : Nat) (x : MemCtl) : (s.setMemc n x).hostMem = s.hostMem := rfl
@[simp] theorem setMemc_hosts (s : State) (n : Nat) (x : MemCtl) : (s.setMemc n x).hosts = s.hosts := rfl
@[simp] theorem setMemc_ports (s : State) (n : Nat) (x : MemCtl) : (s.setMemc n x).ports = s.ports := rfl
@[simp] theorem setMemc_wire (s : State) (n : Nat) (x : MemCtl) : (s.setMemc n x).wire = s.wire := rfl
@[simp] theorem setMemc_cmd (s : State) (n : Nat) (x : MemCtl) : (s.setMemc n x).cmd = s.cmd := rfl
@[simp] theorem setMemc_sync (s : State) (n : Nat) (x : MemCtl) : (s.setMemc n x).sync = s.sync := rfl
@[simp] theorem setMemc_fw (s : State) (n : Nat) (x : MemCtl) : (s.setMemc n x).fw = s.fw := rfl
@[simp] theorem setMemc_eng (s : State) (n : Nat) (x : MemCtl) : (s.setMemc n x).eng = s.eng := rfl
@[simp] theorem setMemc_chains (s : State) (n : Nat) (x : MemCtl) : (s.setMemc n x).chains = s.chains := rfl
@[simp] theorem setMemc_cores (s : State) (n : Nat) (x : MemCtl) : (s.setMemc n x).cores = s.cores := rfl
@[simp] theorem setMemc_lodes (s : State) (n : Nat) (x : MemCtl) : (s.setMemc n x).lodes = s.lodes := rfl
@[simp] theorem setMemc_groups (s : State) (n : Nat) (x : MemCtl) : (s.setMemc n x).groups = s.groups := rfl
@[simp] theorem setMemc_net (s : State) (n : Nat) (x : MemCtl) : (s.setMemc n x).net = s.net := rfl
@[simp] theorem setMemc_sto (s : State) (n : Nat) (x : MemCtl) : (s.setMemc n x).sto = s.sto := rfl
@[simp] theorem setMemc_seam (s : State) (n : Nat) (x : MemCtl) : (s.setMemc n x).seam = s.seam := rfl
@[simp] theorem setMemc_ft (s : State) (n : Nat) (x : MemCtl) : (s.setMemc n x).ft = s.ft := rfl
@[simp] theorem setMemc_ckpt (s : State) (n : Nat) (x : MemCtl) : (s.setMemc n x).ckpt = s.ckpt := rfl
@[simp] theorem setMemc_keys (s : State) (n : Nat) (x : MemCtl) : (s.setMemc n x).keys = s.keys := rfl
@[simp] theorem setMemc_sec (s : State) (n : Nat) (x : MemCtl) : (s.setMemc n x).sec = s.sec := rfl
@[simp] theorem setMemc_pending (s : State) (n : Nat) (x : MemCtl) : (s.setMemc n x).pending = s.pending := rfl
@[simp] theorem memc_setMemc (s : State) (n : Nat) (x : MemCtl) : (s.setMemc n x).memc n = x := by unfold State.setMemc State.memc; exact tget_tput_same _ _ _ _
theorem memc_setMemc_other (s : State) (n : Nat) (x : MemCtl) {m : Nat} (e : m ≠ n) : (s.setMemc n x).memc m = s.memc m := by unfold State.setMemc State.memc; exact tget_tput_other _ _ _ e

@[simp] theorem setLogRing_regs (s : State) (n : Nat) (x : LogRing) : (s.setLogRing n x).regs = s.regs := rfl
@[simp] theorem setLogRing_latch (s : State) (n : Nat) (x : LogRing) : (s.setLogRing n x).latch = s.latch := rfl
@[simp] theorem setLogRing_resp (s : State) (n : Nat) (x : LogRing) : (s.setLogRing n x).resp = s.resp := rfl
@[simp] theorem setLogRing_ended (s : State) (n : Nat) (x : LogRing) : (s.setLogRing n x).ended = s.ended := rfl
@[simp] theorem setLogRing_fresh (s : State) (n : Nat) (x : LogRing) : (s.setLogRing n x).fresh = s.fresh := rfl
@[simp] theorem setLogRing_tb (s : State) (n : Nat) (x : LogRing) : (s.setLogRing n x).tb = s.tb := rfl
@[simp] theorem setLogRing_power (s : State) (n : Nat) (x : LogRing) : (s.setLogRing n x).power = s.power := rfl
@[simp] theorem setLogRing_pins (s : State) (n : Nat) (x : LogRing) : (s.setLogRing n x).pins = s.pins := rfl
@[simp] theorem setLogRing_mem (s : State) (n : Nat) (x : LogRing) : (s.setLogRing n x).mem = s.mem := rfl
@[simp] theorem setLogRing_bad (s : State) (n : Nat) (x : LogRing) : (s.setLogRing n x).bad = s.bad := rfl
@[simp] theorem setLogRing_again (s : State) (n : Nat) (x : LogRing) : (s.setLogRing n x).again = s.again := rfl
@[simp] theorem setLogRing_own (s : State) (n : Nat) (x : LogRing) : (s.setLogRing n x).own = s.own := rfl
@[simp] theorem setLogRing_memctl (s : State) (n : Nat) (x : LogRing) : (s.setLogRing n x).memctl = s.memctl := rfl
@[simp] theorem setLogRing_hostMem (s : State) (n : Nat) (x : LogRing) : (s.setLogRing n x).hostMem = s.hostMem := rfl
@[simp] theorem setLogRing_hosts (s : State) (n : Nat) (x : LogRing) : (s.setLogRing n x).hosts = s.hosts := rfl
@[simp] theorem setLogRing_ports (s : State) (n : Nat) (x : LogRing) : (s.setLogRing n x).ports = s.ports := rfl
@[simp] theorem setLogRing_wire (s : State) (n : Nat) (x : LogRing) : (s.setLogRing n x).wire = s.wire := rfl
@[simp] theorem setLogRing_cmd (s : State) (n : Nat) (x : LogRing) : (s.setLogRing n x).cmd = s.cmd := rfl
@[simp] theorem setLogRing_sync (s : State) (n : Nat) (x : LogRing) : (s.setLogRing n x).sync = s.sync := rfl
@[simp] theorem setLogRing_fw (s : State) (n : Nat) (x : LogRing) : (s.setLogRing n x).fw = s.fw := rfl
@[simp] theorem setLogRing_eng (s : State) (n : Nat) (x : LogRing) : (s.setLogRing n x).eng = s.eng := rfl
@[simp] theorem setLogRing_chains (s : State) (n : Nat) (x : LogRing) : (s.setLogRing n x).chains = s.chains := rfl
@[simp] theorem setLogRing_cores (s : State) (n : Nat) (x : LogRing) : (s.setLogRing n x).cores = s.cores := rfl
@[simp] theorem setLogRing_lodes (s : State) (n : Nat) (x : LogRing) : (s.setLogRing n x).lodes = s.lodes := rfl
@[simp] theorem setLogRing_groups (s : State) (n : Nat) (x : LogRing) : (s.setLogRing n x).groups = s.groups := rfl
@[simp] theorem setLogRing_net (s : State) (n : Nat) (x : LogRing) : (s.setLogRing n x).net = s.net := rfl
@[simp] theorem setLogRing_sto (s : State) (n : Nat) (x : LogRing) : (s.setLogRing n x).sto = s.sto := rfl
@[simp] theorem setLogRing_seam (s : State) (n : Nat) (x : LogRing) : (s.setLogRing n x).seam = s.seam := rfl
@[simp] theorem setLogRing_ft (s : State) (n : Nat) (x : LogRing) : (s.setLogRing n x).ft = s.ft := rfl
@[simp] theorem setLogRing_ckpt (s : State) (n : Nat) (x : LogRing) : (s.setLogRing n x).ckpt = s.ckpt := rfl
@[simp] theorem setLogRing_keys (s : State) (n : Nat) (x : LogRing) : (s.setLogRing n x).keys = s.keys := rfl
@[simp] theorem setLogRing_sec (s : State) (n : Nat) (x : LogRing) : (s.setLogRing n x).sec = s.sec := rfl
@[simp] theorem setLogRing_pending (s : State) (n : Nat) (x : LogRing) : (s.setLogRing n x).pending = s.pending := rfl
@[simp] theorem logRing_setLogRing (s : State) (n : Nat) (x : LogRing) : (s.setLogRing n x).logRing n = x := by unfold State.setLogRing State.logRing; exact tget_tput_same _ _ _ _
theorem logRing_setLogRing_other (s : State) (n : Nat) (x : LogRing) {m : Nat} (e : m ≠ n) : (s.setLogRing n x).logRing m = s.logRing m := by unfold State.setLogRing State.logRing; exact tget_tput_other _ _ _ e

@[simp] theorem send_regs (s : State) (m : Sent) : (send m s).regs = s.regs := rfl
@[simp] theorem send_latch (s : State) (m : Sent) : (send m s).latch = s.latch := rfl
@[simp] theorem send_resp (s : State) (m : Sent) : (send m s).resp = s.resp := rfl
@[simp] theorem send_ended (s : State) (m : Sent) : (send m s).ended = s.ended := rfl
@[simp] theorem send_fresh (s : State) (m : Sent) : (send m s).fresh = s.fresh := rfl
@[simp] theorem send_tb (s : State) (m : Sent) : (send m s).tb = s.tb := rfl
@[simp] theorem send_power (s : State) (m : Sent) : (send m s).power = s.power := rfl
@[simp] theorem send_pins (s : State) (m : Sent) : (send m s).pins = s.pins := rfl
@[simp] theorem send_tel (s : State) (m : Sent) : (send m s).tel = s.tel := rfl
@[simp] theorem send_mem (s : State) (m : Sent) : (send m s).mem = s.mem := rfl
@[simp] theorem send_bad (s : State) (m : Sent) : (send m s).bad = s.bad := rfl
@[simp] theorem send_again (s : State) (m : Sent) : (send m s).again = s.again := rfl
@[simp] theorem send_own (s : State) (m : Sent) : (send m s).own = s.own := rfl
@[simp] theorem send_memctl (s : State) (m : Sent) : (send m s).memctl = s.memctl := rfl
@[simp] theorem send_hostMem (s : State) (m : Sent) : (send m s).hostMem = s.hostMem := rfl
@[simp] theorem send_hosts (s : State) (m : Sent) : (send m s).hosts = s.hosts := rfl
@[simp] theorem send_ports (s : State) (m : Sent) : (send m s).ports = s.ports := rfl
@[simp] theorem send_cmd (s : State) (m : Sent) : (send m s).cmd = s.cmd := rfl
@[simp] theorem send_sync (s : State) (m : Sent) : (send m s).sync = s.sync := rfl
@[simp] theorem send_fw (s : State) (m : Sent) : (send m s).fw = s.fw := rfl
@[simp] theorem send_eng (s : State) (m : Sent) : (send m s).eng = s.eng := rfl
@[simp] theorem send_chains (s : State) (m : Sent) : (send m s).chains = s.chains := rfl
@[simp] theorem send_cores (s : State) (m : Sent) : (send m s).cores = s.cores := rfl
@[simp] theorem send_lodes (s : State) (m : Sent) : (send m s).lodes = s.lodes := rfl
@[simp] theorem send_groups (s : State) (m : Sent) : (send m s).groups = s.groups := rfl
@[simp] theorem send_net (s : State) (m : Sent) : (send m s).net = s.net := rfl
@[simp] theorem send_sto (s : State) (m : Sent) : (send m s).sto = s.sto := rfl
@[simp] theorem send_seam (s : State) (m : Sent) : (send m s).seam = s.seam := rfl
@[simp] theorem send_ft (s : State) (m : Sent) : (send m s).ft = s.ft := rfl
@[simp] theorem send_ckpt (s : State) (m : Sent) : (send m s).ckpt = s.ckpt := rfl
@[simp] theorem send_keys (s : State) (m : Sent) : (send m s).keys = s.keys := rfl
@[simp] theorem send_sec (s : State) (m : Sent) : (send m s).sec = s.sec := rfl
@[simp] theorem send_pending (s : State) (m : Sent) : (send m s).pending = s.pending := rfl

@[simp] theorem modCmd_regs (s : State) (id : Nat) (f : Cmd → Cmd) : (modCmd id f s).regs = s.regs := rfl
@[simp] theorem modCmd_latch (s : State) (id : Nat) (f : Cmd → Cmd) : (modCmd id f s).latch = s.latch := rfl
@[simp] theorem modCmd_resp (s : State) (id : Nat) (f : Cmd → Cmd) : (modCmd id f s).resp = s.resp := rfl
@[simp] theorem modCmd_ended (s : State) (id : Nat) (f : Cmd → Cmd) : (modCmd id f s).ended = s.ended := rfl
@[simp] theorem modCmd_fresh (s : State) (id : Nat) (f : Cmd → Cmd) : (modCmd id f s).fresh = s.fresh := rfl
@[simp] theorem modCmd_tb (s : State) (id : Nat) (f : Cmd → Cmd) : (modCmd id f s).tb = s.tb := rfl
@[simp] theorem modCmd_power (s : State) (id : Nat) (f : Cmd → Cmd) : (modCmd id f s).power = s.power := rfl
@[simp] theorem modCmd_pins (s : State) (id : Nat) (f : Cmd → Cmd) : (modCmd id f s).pins = s.pins := rfl
@[simp] theorem modCmd_tel (s : State) (id : Nat) (f : Cmd → Cmd) : (modCmd id f s).tel = s.tel := rfl
@[simp] theorem modCmd_mem (s : State) (id : Nat) (f : Cmd → Cmd) : (modCmd id f s).mem = s.mem := rfl
@[simp] theorem modCmd_bad (s : State) (id : Nat) (f : Cmd → Cmd) : (modCmd id f s).bad = s.bad := rfl
@[simp] theorem modCmd_again (s : State) (id : Nat) (f : Cmd → Cmd) : (modCmd id f s).again = s.again := rfl
@[simp] theorem modCmd_own (s : State) (id : Nat) (f : Cmd → Cmd) : (modCmd id f s).own = s.own := rfl
@[simp] theorem modCmd_memctl (s : State) (id : Nat) (f : Cmd → Cmd) : (modCmd id f s).memctl = s.memctl := rfl
@[simp] theorem modCmd_hostMem (s : State) (id : Nat) (f : Cmd → Cmd) : (modCmd id f s).hostMem = s.hostMem := rfl
@[simp] theorem modCmd_hosts (s : State) (id : Nat) (f : Cmd → Cmd) : (modCmd id f s).hosts = s.hosts := rfl
@[simp] theorem modCmd_ports (s : State) (id : Nat) (f : Cmd → Cmd) : (modCmd id f s).ports = s.ports := rfl
@[simp] theorem modCmd_wire (s : State) (id : Nat) (f : Cmd → Cmd) : (modCmd id f s).wire = s.wire := rfl
@[simp] theorem modCmd_sync (s : State) (id : Nat) (f : Cmd → Cmd) : (modCmd id f s).sync = s.sync := rfl
@[simp] theorem modCmd_fw (s : State) (id : Nat) (f : Cmd → Cmd) : (modCmd id f s).fw = s.fw := rfl
@[simp] theorem modCmd_eng (s : State) (id : Nat) (f : Cmd → Cmd) : (modCmd id f s).eng = s.eng := rfl
@[simp] theorem modCmd_chains (s : State) (id : Nat) (f : Cmd → Cmd) : (modCmd id f s).chains = s.chains := rfl
@[simp] theorem modCmd_cores (s : State) (id : Nat) (f : Cmd → Cmd) : (modCmd id f s).cores = s.cores := rfl
@[simp] theorem modCmd_lodes (s : State) (id : Nat) (f : Cmd → Cmd) : (modCmd id f s).lodes = s.lodes := rfl
@[simp] theorem modCmd_groups (s : State) (id : Nat) (f : Cmd → Cmd) : (modCmd id f s).groups = s.groups := rfl
@[simp] theorem modCmd_net (s : State) (id : Nat) (f : Cmd → Cmd) : (modCmd id f s).net = s.net := rfl
@[simp] theorem modCmd_sto (s : State) (id : Nat) (f : Cmd → Cmd) : (modCmd id f s).sto = s.sto := rfl
@[simp] theorem modCmd_seam (s : State) (id : Nat) (f : Cmd → Cmd) : (modCmd id f s).seam = s.seam := rfl
@[simp] theorem modCmd_ft (s : State) (id : Nat) (f : Cmd → Cmd) : (modCmd id f s).ft = s.ft := rfl
@[simp] theorem modCmd_ckpt (s : State) (id : Nat) (f : Cmd → Cmd) : (modCmd id f s).ckpt = s.ckpt := rfl
@[simp] theorem modCmd_keys (s : State) (id : Nat) (f : Cmd → Cmd) : (modCmd id f s).keys = s.keys := rfl
@[simp] theorem modCmd_sec (s : State) (id : Nat) (f : Cmd → Cmd) : (modCmd id f s).sec = s.sec := rfl
@[simp] theorem modCmd_pending (s : State) (id : Nat) (f : Cmd → Cmd) : (modCmd id f s).pending = s.pending := rfl

@[simp] theorem finish_regs (s : State) (id st w0 w1 w2 w3 : Nat) : (finish id st w0 w1 w2 w3 s).regs = s.regs := rfl
@[simp] theorem finish_latch (s : State) (id st w0 w1 w2 w3 : Nat) : (finish id st w0 w1 w2 w3 s).latch = s.latch := rfl
@[simp] theorem finish_resp (s : State) (id st w0 w1 w2 w3 : Nat) : (finish id st w0 w1 w2 w3 s).resp = s.resp := rfl
@[simp] theorem finish_ended (s : State) (id st w0 w1 w2 w3 : Nat) : (finish id st w0 w1 w2 w3 s).ended = s.ended := rfl
@[simp] theorem finish_fresh (s : State) (id st w0 w1 w2 w3 : Nat) : (finish id st w0 w1 w2 w3 s).fresh = s.fresh := rfl
@[simp] theorem finish_tb (s : State) (id st w0 w1 w2 w3 : Nat) : (finish id st w0 w1 w2 w3 s).tb = s.tb := rfl
@[simp] theorem finish_power (s : State) (id st w0 w1 w2 w3 : Nat) : (finish id st w0 w1 w2 w3 s).power = s.power := rfl
@[simp] theorem finish_pins (s : State) (id st w0 w1 w2 w3 : Nat) : (finish id st w0 w1 w2 w3 s).pins = s.pins := rfl
@[simp] theorem finish_tel (s : State) (id st w0 w1 w2 w3 : Nat) : (finish id st w0 w1 w2 w3 s).tel = s.tel := rfl
@[simp] theorem finish_mem (s : State) (id st w0 w1 w2 w3 : Nat) : (finish id st w0 w1 w2 w3 s).mem = s.mem := rfl
@[simp] theorem finish_bad (s : State) (id st w0 w1 w2 w3 : Nat) : (finish id st w0 w1 w2 w3 s).bad = s.bad := rfl
@[simp] theorem finish_again (s : State) (id st w0 w1 w2 w3 : Nat) : (finish id st w0 w1 w2 w3 s).again = s.again := rfl
@[simp] theorem finish_own (s : State) (id st w0 w1 w2 w3 : Nat) : (finish id st w0 w1 w2 w3 s).own = s.own := rfl
@[simp] theorem finish_memctl (s : State) (id st w0 w1 w2 w3 : Nat) : (finish id st w0 w1 w2 w3 s).memctl = s.memctl := rfl
@[simp] theorem finish_hostMem (s : State) (id st w0 w1 w2 w3 : Nat) : (finish id st w0 w1 w2 w3 s).hostMem = s.hostMem := rfl
@[simp] theorem finish_hosts (s : State) (id st w0 w1 w2 w3 : Nat) : (finish id st w0 w1 w2 w3 s).hosts = s.hosts := rfl
@[simp] theorem finish_ports (s : State) (id st w0 w1 w2 w3 : Nat) : (finish id st w0 w1 w2 w3 s).ports = s.ports := rfl
@[simp] theorem finish_wire (s : State) (id st w0 w1 w2 w3 : Nat) : (finish id st w0 w1 w2 w3 s).wire = s.wire := rfl
@[simp] theorem finish_sync (s : State) (id st w0 w1 w2 w3 : Nat) : (finish id st w0 w1 w2 w3 s).sync = s.sync := rfl
@[simp] theorem finish_fw (s : State) (id st w0 w1 w2 w3 : Nat) : (finish id st w0 w1 w2 w3 s).fw = s.fw := rfl
@[simp] theorem finish_eng (s : State) (id st w0 w1 w2 w3 : Nat) : (finish id st w0 w1 w2 w3 s).eng = s.eng := rfl
@[simp] theorem finish_chains (s : State) (id st w0 w1 w2 w3 : Nat) : (finish id st w0 w1 w2 w3 s).chains = s.chains := rfl
@[simp] theorem finish_cores (s : State) (id st w0 w1 w2 w3 : Nat) : (finish id st w0 w1 w2 w3 s).cores = s.cores := rfl
@[simp] theorem finish_lodes (s : State) (id st w0 w1 w2 w3 : Nat) : (finish id st w0 w1 w2 w3 s).lodes = s.lodes := rfl
@[simp] theorem finish_groups (s : State) (id st w0 w1 w2 w3 : Nat) : (finish id st w0 w1 w2 w3 s).groups = s.groups := rfl
@[simp] theorem finish_net (s : State) (id st w0 w1 w2 w3 : Nat) : (finish id st w0 w1 w2 w3 s).net = s.net := rfl
@[simp] theorem finish_sto (s : State) (id st w0 w1 w2 w3 : Nat) : (finish id st w0 w1 w2 w3 s).sto = s.sto := rfl
@[simp] theorem finish_seam (s : State) (id st w0 w1 w2 w3 : Nat) : (finish id st w0 w1 w2 w3 s).seam = s.seam := rfl
@[simp] theorem finish_ft (s : State) (id st w0 w1 w2 w3 : Nat) : (finish id st w0 w1 w2 w3 s).ft = s.ft := rfl
@[simp] theorem finish_ckpt (s : State) (id st w0 w1 w2 w3 : Nat) : (finish id st w0 w1 w2 w3 s).ckpt = s.ckpt := rfl
@[simp] theorem finish_keys (s : State) (id st w0 w1 w2 w3 : Nat) : (finish id st w0 w1 w2 w3 s).keys = s.keys := rfl
@[simp] theorem finish_sec (s : State) (id st w0 w1 w2 w3 : Nat) : (finish id st w0 w1 w2 w3 s).sec = s.sec := rfl
@[simp] theorem finish_pending (s : State) (id st w0 w1 w2 w3 : Nat) : (finish id st w0 w1 w2 w3 s).pending = s.pending := rfl

@[simp] theorem finish0_regs (s : State) (id st : Nat) : (finish0 id st s).regs = s.regs := rfl
@[simp] theorem finish0_latch (s : State) (id st : Nat) : (finish0 id st s).latch = s.latch := rfl
@[simp] theorem finish0_resp (s : State) (id st : Nat) : (finish0 id st s).resp = s.resp := rfl
@[simp] theorem finish0_ended (s : State) (id st : Nat) : (finish0 id st s).ended = s.ended := rfl
@[simp] theorem finish0_fresh (s : State) (id st : Nat) : (finish0 id st s).fresh = s.fresh := rfl
@[simp] theorem finish0_tb (s : State) (id st : Nat) : (finish0 id st s).tb = s.tb := rfl
@[simp] theorem finish0_power (s : State) (id st : Nat) : (finish0 id st s).power = s.power := rfl
@[simp] theorem finish0_pins (s : State) (id st : Nat) : (finish0 id st s).pins = s.pins := rfl
@[simp] theorem finish0_tel (s : State) (id st : Nat) : (finish0 id st s).tel = s.tel := rfl
@[simp] theorem finish0_mem (s : State) (id st : Nat) : (finish0 id st s).mem = s.mem := rfl
@[simp] theorem finish0_bad (s : State) (id st : Nat) : (finish0 id st s).bad = s.bad := rfl
@[simp] theorem finish0_again (s : State) (id st : Nat) : (finish0 id st s).again = s.again := rfl
@[simp] theorem finish0_own (s : State) (id st : Nat) : (finish0 id st s).own = s.own := rfl
@[simp] theorem finish0_memctl (s : State) (id st : Nat) : (finish0 id st s).memctl = s.memctl := rfl
@[simp] theorem finish0_hostMem (s : State) (id st : Nat) : (finish0 id st s).hostMem = s.hostMem := rfl
@[simp] theorem finish0_hosts (s : State) (id st : Nat) : (finish0 id st s).hosts = s.hosts := rfl
@[simp] theorem finish0_ports (s : State) (id st : Nat) : (finish0 id st s).ports = s.ports := rfl
@[simp] theorem finish0_wire (s : State) (id st : Nat) : (finish0 id st s).wire = s.wire := rfl
@[simp] theorem finish0_sync (s : State) (id st : Nat) : (finish0 id st s).sync = s.sync := rfl
@[simp] theorem finish0_fw (s : State) (id st : Nat) : (finish0 id st s).fw = s.fw := rfl
@[simp] theorem finish0_eng (s : State) (id st : Nat) : (finish0 id st s).eng = s.eng := rfl
@[simp] theorem finish0_chains (s : State) (id st : Nat) : (finish0 id st s).chains = s.chains := rfl
@[simp] theorem finish0_cores (s : State) (id st : Nat) : (finish0 id st s).cores = s.cores := rfl
@[simp] theorem finish0_lodes (s : State) (id st : Nat) : (finish0 id st s).lodes = s.lodes := rfl
@[simp] theorem finish0_groups (s : State) (id st : Nat) : (finish0 id st s).groups = s.groups := rfl
@[simp] theorem finish0_net (s : State) (id st : Nat) : (finish0 id st s).net = s.net := rfl
@[simp] theorem finish0_sto (s : State) (id st : Nat) : (finish0 id st s).sto = s.sto := rfl
@[simp] theorem finish0_seam (s : State) (id st : Nat) : (finish0 id st s).seam = s.seam := rfl
@[simp] theorem finish0_ft (s : State) (id st : Nat) : (finish0 id st s).ft = s.ft := rfl
@[simp] theorem finish0_ckpt (s : State) (id st : Nat) : (finish0 id st s).ckpt = s.ckpt := rfl
@[simp] theorem finish0_keys (s : State) (id st : Nat) : (finish0 id st s).keys = s.keys := rfl
@[simp] theorem finish0_sec (s : State) (id st : Nat) : (finish0 id st s).sec = s.sec := rfl
@[simp] theorem finish0_pending (s : State) (id st : Nat) : (finish0 id st s).pending = s.pending := rfl

@[simp] theorem working_regs (s : State) (id : Nat) : (working id s).regs = s.regs := rfl
@[simp] theorem working_latch (s : State) (id : Nat) : (working id s).latch = s.latch := rfl
@[simp] theorem working_resp (s : State) (id : Nat) : (working id s).resp = s.resp := rfl
@[simp] theorem working_ended (s : State) (id : Nat) : (working id s).ended = s.ended := rfl
@[simp] theorem working_fresh (s : State) (id : Nat) : (working id s).fresh = s.fresh := rfl
@[simp] theorem working_tb (s : State) (id : Nat) : (working id s).tb = s.tb := rfl
@[simp] theorem working_power (s : State) (id : Nat) : (working id s).power = s.power := rfl
@[simp] theorem working_pins (s : State) (id : Nat) : (working id s).pins = s.pins := rfl
@[simp] theorem working_tel (s : State) (id : Nat) : (working id s).tel = s.tel := rfl
@[simp] theorem working_mem (s : State) (id : Nat) : (working id s).mem = s.mem := rfl
@[simp] theorem working_bad (s : State) (id : Nat) : (working id s).bad = s.bad := rfl
@[simp] theorem working_again (s : State) (id : Nat) : (working id s).again = s.again := rfl
@[simp] theorem working_own (s : State) (id : Nat) : (working id s).own = s.own := rfl
@[simp] theorem working_memctl (s : State) (id : Nat) : (working id s).memctl = s.memctl := rfl
@[simp] theorem working_hostMem (s : State) (id : Nat) : (working id s).hostMem = s.hostMem := rfl
@[simp] theorem working_hosts (s : State) (id : Nat) : (working id s).hosts = s.hosts := rfl
@[simp] theorem working_ports (s : State) (id : Nat) : (working id s).ports = s.ports := rfl
@[simp] theorem working_wire (s : State) (id : Nat) : (working id s).wire = s.wire := rfl
@[simp] theorem working_sync (s : State) (id : Nat) : (working id s).sync = s.sync := rfl
@[simp] theorem working_fw (s : State) (id : Nat) : (working id s).fw = s.fw := rfl
@[simp] theorem working_eng (s : State) (id : Nat) : (working id s).eng = s.eng := rfl
@[simp] theorem working_chains (s : State) (id : Nat) : (working id s).chains = s.chains := rfl
@[simp] theorem working_cores (s : State) (id : Nat) : (working id s).cores = s.cores := rfl
@[simp] theorem working_lodes (s : State) (id : Nat) : (working id s).lodes = s.lodes := rfl
@[simp] theorem working_groups (s : State) (id : Nat) : (working id s).groups = s.groups := rfl
@[simp] theorem working_net (s : State) (id : Nat) : (working id s).net = s.net := rfl
@[simp] theorem working_sto (s : State) (id : Nat) : (working id s).sto = s.sto := rfl
@[simp] theorem working_seam (s : State) (id : Nat) : (working id s).seam = s.seam := rfl
@[simp] theorem working_ft (s : State) (id : Nat) : (working id s).ft = s.ft := rfl
@[simp] theorem working_ckpt (s : State) (id : Nat) : (working id s).ckpt = s.ckpt := rfl
@[simp] theorem working_keys (s : State) (id : Nat) : (working id s).keys = s.keys := rfl
@[simp] theorem working_sec (s : State) (id : Nat) : (working id s).sec = s.sec := rfl
@[simp] theorem working_pending (s : State) (id : Nat) : (working id s).pending = s.pending := rfl

@[simp] theorem qp_setQp (s : State) {fn q : Nat} (x : QPair) (h : q < 64) : (s.setQp fn q x).qp fn q = x := by
  simp [State.qp, State.setQp, h]

@[simp] theorem ckSlot_setCkSlot (s : State) (t k : Nat) (x : CkSlot) : (s.setCkSlot t k x).ckSlot t k = x := by
  simp [State.ckSlot, State.setCkSlot]

end Sys2Proof.Machine
end

