-- ==== Sys2Proof/Laws/Access.lean ====
section
/-! SUPPORT. What registers, bit fields and host memory read back after a write. -/
namespace Sys2Proof.Machine

open Sys2Proof

/-- A register keeps its value when another register is written. -/
theorem reg_setReg_other (s : State) {r r' : Reg} {i j i' j' : Nat} (v : Nat) (h : regAddr r' i' j' 0 ≠ regAddr r i j 0) :
    (s.setReg r i j v).reg r' i' j' = s.reg r' i' j' := by
  unfold State.reg State.setReg
  exact tget_tput_other _ _ _ h

@[simp] theorem reg_orReg (s : State) (r : Reg) (i j m : Nat) :
    (s.orReg r i j m).reg r i j = (s.reg r i j ||| m) % 2 ^ (32 * (regRow r).words) := reg_setReg _ _ _ _ _

theorem reg_orReg_other (s : State) {r r' : Reg} {i j i' j' : Nat} (m : Nat) (h : regAddr r' i' j' 0 ≠ regAddr r i j 0) :
    (s.orReg r i j m).reg r' i' j' = s.reg r' i' j' := reg_setReg_other _ _ h

@[simp] theorem reg_setField (s : State) (r : Reg) (i j h l v : Nat) :
    (s.setField r i j h l v).reg r i j = putBits (s.reg r i j) h l v % 2 ^ (32 * (regRow r).words) := reg_setReg _ _ _ _ _

theorem reg_setField_other (s : State) {r r' : Reg} {i j i' j' : Nat} (h l v : Nat) (e : regAddr r' i' j' 0 ≠ regAddr r i j 0) :
    (s.setField r i j h l v).reg r' i' j' = s.reg r' i' j' := reg_setReg_other _ _ e

/-- A state that differs elsewhere reads the same registers. -/
theorem reg_congr {s t : State} (h : t.regs = s.regs) (r : Reg) (i j : Nat) : t.reg r i j = s.reg r i j := by
  unfold State.reg
  rw [h]

theorem bit_testBit (x k : Nat) : bit x k = x.testBit k := by
  simp [bit, Nat.testBit, Nat.and_comm, Nat.and_one_is_mod]

/-- A bit of a number with a field replaced. -/
theorem bit_putBits (x h l v k : Nat) : bit (putBits x h l v) k = if l ≤ k ∧ k < h + 1 then bit v (k - l) else bit x k := by
  have e : putBits x h l v = 2 ^ l * (2 ^ (h + 1 - l) * (x / 2 ^ l / 2 ^ (h + 1 - l)) + v % 2 ^ (h + 1 - l)) + x % 2 ^ l := by
    unfold putBits bits
    rw [Nat.shiftRight_eq_div_pow]
    have h1 := Nat.div_add_mod x (2 ^ l)
    have h2 := Nat.div_add_mod (x / 2 ^ l) (2 ^ (h + 1 - l))
    generalize x / 2 ^ l / 2 ^ (h + 1 - l) = q at *
    generalize x / 2 ^ l % 2 ^ (h + 1 - l) = m at *
    generalize x / 2 ^ l = y at *
    generalize x % 2 ^ l = r at *
    generalize v % 2 ^ (h + 1 - l) = w
    have h3 : x = 2 ^ l * (2 ^ (h + 1 - l) * q) + 2 ^ l * m + r := by rw [← h1, ← h2, Nat.mul_add]
    rw [h3, Nat.mul_add, Nat.mul_comm m, Nat.mul_comm w]
    omega
  rw [bit_testBit, bit_testBit, bit_testBit, e, Nat.testBit_two_pow_mul_add _ (Nat.mod_lt _ (Nat.two_pow_pos _)),
    Nat.testBit_mod_two_pow, Nat.testBit_two_pow_mul_add _ (Nat.mod_lt _ (Nat.two_pow_pos _)), Nat.testBit_mod_two_pow,
    Nat.testBit_div_two_pow, Nat.testBit_div_two_pow]
  by_cases a : k < l
  · simp [a] <;> omega
  · by_cases b : k - l < h + 1 - l
    · have : l ≤ k ∧ k < h + 1 := by omega
      simp [a, b, this]
    · have c : ¬ (l ≤ k ∧ k < h + 1) := by omega
      have d : l + (h + 1 - l + (k - l - (h + 1 - l))) = k ∨ h + 1 ≤ l := by omega
      rcases d with d | d
      · simp [a, b, c]; grind
      · simp [a, b, c]; grind

/-- Bits below a cut stay. -/
theorem bit_mod (x n k : Nat) (h : k < n) : bit (x % 2 ^ n) k = bit x k := by
  have e : ∀ y, bit y k = y.testBit k := fun y => by simp [bit, Nat.testBit, Nat.and_comm, Nat.and_one_is_mod]
  rw [e, e, Nat.testBit_mod_two_pow]
  simp [h]

theorem bit_or (x k : Nat) : bit (x ||| 2 ^ k) k = true := by
  have e : ∀ y, bit y k = y.testBit k := fun y => by simp [bit, Nat.testBit, Nat.and_comm, Nat.and_one_is_mod]
  rw [e, Nat.testBit_or, Nat.testBit_two_pow_self]
  simp

theorem testBit_bits (x h l k : Nat) : (bits x h l).testBit k = (decide (k < h + 1 - l) && x.testBit (l + k)) := by
  unfold bits
  rw [Nat.testBit_mod_two_pow, Nat.testBit_shiftRight]

/-- A field depends on its own bits only. -/
theorem bits_congr {x y h l : Nat} (e : ∀ k, l ≤ k → k < h + 1 → bit x k = bit y k) : bits x h l = bits y h l := by
  apply Nat.eq_of_testBit_eq
  intro k
  rw [testBit_bits, testBit_bits]
  by_cases a : k < h + 1 - l
  · have := e (l + k) (by omega) (by omega)
    rw [bit_testBit, bit_testBit] at this
    rw [this]
  · simp [a]

/-- A field that was replaced reads as what replaced it. -/
theorem bits_putBits (x h l v : Nat) : bits (putBits x h l v) h l = v % 2 ^ (h + 1 - l) := by
  apply Nat.eq_of_testBit_eq
  intro k
  rw [testBit_bits, Nat.testBit_mod_two_pow, ← bit_testBit (putBits x h l v), bit_putBits]
  by_cases a : k < h + 1 - l
  · have b : l ≤ l + k ∧ l + k < h + 1 := by omega
    have c : l + k - l = k := by omega
    simp [a, b, c, bit_testBit]
  · simp [a]

/-- A field of a register after a write of that field, and of another one. -/
theorem bits_setField (s : State) (r : Reg) (i j h l v : Nat) (hw : h < 32 * (regRow r).words) :
    bits ((s.setField r i j h l v).reg r i j) h l = v % 2 ^ (h + 1 - l) := by
  rw [reg_setField, ← bits_putBits (s.reg r i j) h l v]
  exact bits_congr fun k _ hk => bit_mod _ _ _ (by omega)

theorem bits_setField_other (s : State) (r : Reg) (i j h l v h' l' : Nat) (hw : h' < 32 * (regRow r).words) (e : h < l' ∨ h' < l) :
    bits ((s.setField r i j h l v).reg r i j) h' l' = bits (s.reg r i j) h' l' := by
  rw [reg_setField]
  refine bits_congr fun k h1 h2 => ?_
  rw [bit_mod _ _ _ (by omega), bit_putBits, if_neg (by omega)]

theorem hostCells_ok {s : State} {p a n : Nat} (h : ∀ i, i < n → tget .unknown s.hostMem (hostKey p (a + i)) ≠ .bad) :
    (hostCells s p a n).contains .bad = false := by
  simp [hostCells]
  exact h

/-- An upstream write that may leave and that the host takes stores its bytes (R430). -/
theorem hostWrite_ok {s : State} {fn a : Nat} {bs : Bytes} (hb : (s.host fn).bme = true)
    (h : ∀ i, i < bs.length → tget .unknown s.hostMem (hostKey (fnPort s fn) (a + i)) ≠ .bad) :
    hostWrite s fn a bs = ({ s with hostMem := hostPut s.hostMem (fnPort s fn) a bs }, .ok ()) := by
  unfold hostWrite
  rw [hostCells_ok h]
  simp [fnBme, hb]

theorem hostCells_known {s : State} {p a n : Nat} (h : ∀ i, i < n → ∃ b, tget .unknown s.hostMem (hostKey p (a + i)) = .val b) :
    (hostCells s p a n).contains .unknown = false := by
  simp [hostCells]
  intro i hi e
  obtain ⟨b, g⟩ := h i hi
  rw [e] at g
  cases g

/-- An upstream read that may leave delivers the host's bytes once the host has delivered them (R430). -/
theorem hostRead_ok {s : State} {fn a n : Nat} (hb : (s.host fn).bme = true)
    (h : ∀ i, i < n → ∃ b, tget .unknown s.hostMem (hostKey (fnPort s fn) (a + i)) = .val b) :
    hostRead s fn a n = (s, .ok (hostBytes s (fnPort s fn) a n)) := by
  have g := hostCells_ok (s := s) (p := fnPort s fn) (a := a) (n := n) fun i hi e => by
    obtain ⟨b, g⟩ := h i hi
    rw [e] at g
    cases g
  unfold hostRead hostKnown
  simp only [g, hostCells_known h]
  simp [fnBme, hb]

@[simp] theorem length_slice (bs : Bytes) (o n : Nat) : (slice bs o n).length = n := by
  simp [slice, zeros] <;> omega

@[simp] theorem length_fit (bs : Bytes) (n : Nat) : (fit n bs).length = n := by
  simp [fit]

/-- Stores at consecutive keys. -/
theorem tget_fill {α : Type} [DecidableEq α] (b : Nat) (d : α) (f : Nat → α) : ∀ (n : Nat) (t : Tbl α) (k : Nat),
    tget d ((List.range n).foldl (fun t i => tput d t (b + i) (f i)) t) k = if b ≤ k ∧ k < b + n then f (k - b) else tget d t k
  | 0, t, k => by
    have : ¬ (b ≤ k ∧ k < b + 0) := by omega
    rw [if_neg this]
    rfl
  | n + 1, t, k => by
    rw [List.range_succ, List.foldl_append]
    simp only [List.foldl]
    by_cases e : k = b + n
    · subst e
      simp
    · rw [tget_tput_other _ _ _ e, tget_fill b d f n t k]
      by_cases g : b ≤ k ∧ k < b + n
      · rw [if_pos g, if_pos (by omega)]
      · rw [if_neg g, if_neg (by omega)]

/-! What a request may reach depends on the map, the owners and the region table alone. -/

theorem grantEnd_congr {s u : State} (ho : u.own = s.own) (hp : ∀ a, place u a = place s a) (r : Requester) (wr : Bool) (p : Nat) :
    grantEnd u r wr p = grantEnd s r wr p := by
  have hl : ∀ k, lodeOwner u k = lodeOwner s k := fun k => by rw [lodeOwner, lodeOwner, ho]
  have hr : regionAt u p 1 = regionAt s p 1 := by rw [regionAt, regionAt, ho]
  have ht : ∀ w, tableWordUe u w = tableWordUe s w := fun w => by rw [tableWordUe, tableWordUe, ho]
  unfold grantEnd grantEnd.byRegion
  simp only [hp, hr, ht]
  cases (place s p).1 <;> simp only [hl]

theorem granted_congr {s u : State} (ho : u.own = s.own) (hp : ∀ a, place u a = place s a) (r : Requester) (wr : Bool) (e : Nat) :
    ∀ f p, granted u r wr e f p = granted s r wr e f p
  | 0, _ => rfl
  | f + 1, p => by
    simp only [granted, grantEnd_congr ho hp, granted_congr ho hp r wr e f]

theorem permits_congr {s u : State} (ho : u.own = s.own) (hp : ∀ a, place u a = place s a) (r : Requester) (a n : Nat) (wr : Bool) :
    permits u r a n wr = permits s r a n wr := by
  have hc : ∀ k, coreOwner u k = coreOwner s k := fun k => by simp only [coreOwner, lodeOwner, ho]
  have hi : imemOwned u (ownerOf r) a n = imemOwned s (ownerOf r) a n := by simp only [imemOwned, hc]
  have he : rangeEnd u a = rangeEnd s a := by rw [rangeEnd, rangeEnd, hp]
  unfold permits
  rw [hp, he, ho, hi]
  cases (place s a).1 <;> simp only [granted_congr ho hp]

end Sys2Proof.Machine
end

