-- ==== Sys2Proof/Laws/Keep.lean ====
section
/-! SUPPORT. What every operation keeps (`Keeps`): the laws of the relation, and the operations that touch what it speaks of. -/
namespace Sys2Proof.Machine

open Sys2Proof

theorem Keeps.refl (s : State) : Keeps s s := ⟨id, rfl, Nat.le_refl _, List.suffix_refl _⟩

theorem Keeps.trans {a b c : State} (h : Keeps a b) (g : Keeps b c) : Keeps a c :=
  ⟨fun x => g.sound (h.sound x), g.pending.trans h.pending, Nat.le_trans h.fresh g.fresh, h.wire.trans g.wire⟩

/-- A change of any other field. -/
theorem Keeps.same {a s : State} {latch resp ended tb power pins tel again own memctl hosts ports cmd sync fw eng chains cores lodes groups net sto
    seam ft ckpt keys sec} (h : Keeps a s) (hp : tel.paths = s.tel.paths) :
    Keeps a (State.mk s.regs latch resp ended s.fresh tb power pins tel s.mem s.bad again own memctl s.hostMem hosts ports s.wire cmd sync fw eng
      chains cores lodes groups net sto seam ft ckpt keys sec s.pending) :=
  ⟨fun x => let y := h.sound x
    ⟨y.mem, y.host, y.regs, by have := y.paths; simpa [State.pathsOk, hp] using this⟩, h.pending, h.fresh, h.wire⟩

/-- A change of memory and its marks that keeps their form. -/
theorem Keeps.memory {a s : State} {mem : Tbl Byte} {bad again : Tbl Nat} (h : Keeps a s)
    (hm : twf (0 : Byte) 0 s.mem = true → twf 0 0 s.bad = true → twf (0 : Byte) 0 mem = true ∧ twf 0 0 bad = true) :
    Keeps a { s with mem := mem, bad := bad, again := again } :=
  ⟨fun x => by
    obtain ⟨y1, y2, y3, y4⟩ := h.sound x
    simp only [State.memWf, Bool.and_eq_true] at y1
    exact ⟨by simpa [State.memWf] using hm y1.1 y1.2, y2, y3, y4⟩, h.pending, h.fresh, h.wire⟩

/-- A change of what host memory holds that keeps its form. -/
theorem Keeps.hosted {a s : State} {m : Tbl HCell} (h : Keeps a s)
    (hm : twf HCell.unknown 0 s.hostMem = true → twf HCell.unknown 0 m = true) : Keeps a { s with hostMem := m } :=
  ⟨fun x => ⟨(h.sound x).mem, hm (h.sound x).host, (h.sound x).regs, (h.sound x).paths⟩, h.pending, h.fresh, h.wire⟩

/-- Registers that fall back to their reset values. -/
theorem Keeps.dropRegs {a s : State} {latch : Tbl Nat} (p : Nat × Nat → Bool) (h : Keeps a s) :
    Keeps a { s with regs := s.regs.filter p, latch := latch } :=
  ⟨fun x => ⟨(h.sound x).mem, (h.sound x).host, tkeys_filter _ (h.sound x).regs, (h.sound x).paths⟩, h.pending, h.fresh, h.wire⟩

/-- Draws spent. -/
theorem Keeps.spend {a s : State} {n : Nat} (h : Keeps a s) (hn : s.fresh ≤ n) : Keeps a { s with fresh := n } :=
  ⟨fun x => ⟨(h.sound x).mem, (h.sound x).host, (h.sound x).regs, (h.sound x).paths⟩, h.pending, Nat.le_trans h.fresh hn, h.wire⟩

theorem Keeps.foldl {α : Type} {a : State} {f : State → α → State} (hf : ∀ s x, Keeps a s → Keeps a (f s x)) :
    ∀ (l : List α) {s : State}, Keeps a s → Keeps a (l.foldl f s)
  | [], _, h => h
  | x :: l, s, h => Keeps.foldl hf l (hf s x h)

theorem keep_draw {a s : State} (h : Keeps a s) : Keeps a (draw s).2 :=
  ⟨fun x => ⟨(h.sound x).mem, (h.sound x).host, (h.sound x).regs, (h.sound x).paths⟩, h.pending, Nat.le_succ_of_le h.fresh, h.wire⟩

theorem keep_send (m : Sent) {a s : State} (h : Keeps a s) : Keeps a (send m s) :=
  ⟨fun x => ⟨(h.sound x).mem, (h.sound x).host, (h.sound x).regs, (h.sound x).paths⟩, h.pending, h.fresh,
    h.wire.trans (List.suffix_cons _ _)⟩

theorem keep_setReg (r : Reg) (i j v : Nat) {a s : State} (h : Keeps a s) : Keeps a (s.setReg r i j v) :=
  ⟨fun x => ⟨(h.sound x).mem, (h.sound x).host, tkeys_tput _ _ _ (h.sound x).regs, (h.sound x).paths⟩, h.pending, h.fresh, h.wire⟩

/-- A path's record queue that fits its entries may be stored. -/
theorem keep_setPath (p : Nat) (x : Path) {a s : State} (h : Keeps a s) (hx : a.Sound → x.queue.length ≤ pathQ p) :
    Keeps a (s.setPath p x) :=
  ⟨fun y => ⟨(h.sound y).mem, (h.sound y).host, (h.sound y).regs, by
    have hp := (h.sound y).paths
    simp only [State.pathsOk, State.setPath, List.all_eq_true, decide_eq_true_eq] at *
    intro e he
    rcases mem_tput _ _ _ he with rfl | he
    · exact hx y
    · exact hp e he⟩, h.pending, h.fresh, h.wire⟩

theorem path_len {a s : State} (h : Keeps a s) (p : Nat) (x : a.Sound) : (s.path p).queue.length ≤ pathQ p := by
  have hp := (h.sound x).paths
  simp only [State.pathsOk, List.all_eq_true, decide_eq_true_eq] at hp
  unfold State.path
  generalize s.tel.paths = t at hp
  induction t with
  | nil => simp [tget]
  | cons e t ih =>
    obtain ⟨k0, v0⟩ := e
    by_cases c : p = k0
    · subst c
      simpa [tget] using hp (p, v0) (by simp)
    · simpa [tget, c] using ih fun e he => hp e (by simp [he])

theorem keep_count (r : Reg) (i j n : Nat) {a s : State} (h : Keeps a s) : Keeps a (s.count r i j n) := by
  unfold State.count
  split <;> exact keep_setReg _ _ _ _ h

@[simp] theorem path_setPath (s : State) (p : Nat) (x : Path) : (s.setPath p x).path p = x := by
  simp [State.path, State.setPath]

theorem keep_enqueue (p : Nat) (r : Rec) {a s : State} (h : Keeps a s) (hx : a.Sound → (s.path p).queue.length < pathQ p) :
    Keeps a (enqueue p r s) := by
  unfold enqueue
  refine keep_setPath _ _ ?_ fun x => ?_
  · split
    · exact h.same rfl
    · exact h
  · have := hx x
    simp
    omega

theorem keep_flushAlarm (p : Nat) {a s : State} (h : Keeps a s) : Keeps a (flushAlarm p s) := by
  unfold flushAlarm
  split
  · exact h
  · split
    · next g => exact keep_enqueue _ _ (keep_setPath _ _ h fun x => path_len h p x) fun _ => by simpa using g
    · exact h

theorem keep_flushMore (p : Nat) {a s : State} (h : Keeps a s) : Keeps a (flushMore p s) := by
  unfold flushMore
  split
  · split
    · next g => exact keep_enqueue _ _ (keep_setPath _ _ (h.same rfl) fun x => path_len h p x) fun _ => by simp; omega
    · exact h
  · exact h

theorem keep_flushGap (p : Nat) {a s : State} (h : Keeps a s) : Keeps a (flushGap p s) := by
  unfold flushGap
  split
  · split
    · next g => exact keep_enqueue _ _ (keep_setPath _ _ (h.same rfl) fun x => path_len h p x) fun _ => by simp; omega
    · exact h
  · exact h

theorem keep_flushPath (p : Nat) {a s : State} (h : Keeps a s) : Keeps a (flushPath p s) := by
  unfold flushPath
  exact keep_flushGap p (keep_flushMore p (Keeps.foldl (fun s _ g => keep_flushAlarm p g) _ h))

theorem keep_admitIn (p : Nat) (r : Rec) {a s : State} (h : Keeps a s) : Keeps a (admitIn p r s) := by
  unfold admitIn
  refine keep_flushPath p ?_
  split
  · split
    · next g => exact keep_enqueue _ _ h fun _ => g
    · exact keep_count _ _ _ _ (keep_setPath _ _ h fun x => path_len h p x)
  · split
    · split
      · next g => exact keep_enqueue _ _ h fun _ => by omega
      · exact keep_count _ _ _ _ (keep_setPath _ _ h fun x => path_len h p x)
    · split
      · split
        · next g => exact keep_enqueue _ _ h fun _ => by omega
        · exact keep_count _ _ _ _ (keep_setPath _ _ h fun x => path_len h p x)
      · split
        · next g => exact keep_enqueue _ _ h fun _ => by omega
        · exact keep_count _ _ _ _ (keep_setPath _ _ h fun x => path_len h p x)

theorem Keeps.of1 {α : Type} {a s : State} {p : State × α} {x : α} (e : p = (s, x)) (h : Keeps a p.1) : Keeps a s := by
  rw [e] at h
  exact h

theorem Keeps.of2 {α : Type} {a s : State} {p : α × State} {x : α} (e : p = (x, s)) (h : Keeps a p.2) : Keeps a s := by
  rw [e] at h
  exact h

theorem keep_run {ok : Bool} {s t : State} {f : State → State} (hf : ∀ x, Keeps s x → Keeps s (f x)) (h : run ok s f = .next t) :
    Keeps s t := by
  unfold run at h
  split at h
  · cases h
    split
    · exact hf s (Keeps.refl s)
    · exact Keeps.refl s
  · cases h

/-- A fold whose accumulator carries the state second. -/
theorem Keeps.foldl2 {α β : Type} {a : State} {f : β × State → α → β × State} (hf : ∀ p x, Keeps a p.2 → Keeps a (f p x).2) :
    ∀ (l : List α) {p : β × State}, Keeps a p.2 → Keeps a (l.foldl f p).2
  | [], _, h => h
  | x :: l, p, h => Keeps.foldl2 hf l (hf p x h)

/-- A fold whose accumulator carries the state first. -/
theorem Keeps.foldl1 {α β : Type} {a : State} {f : State × β → α → State × β} (hf : ∀ p x, Keeps a p.1 → Keeps a (f p x).1) :
    ∀ (l : List α) {p : State × β}, Keeps a p.1 → Keeps a (l.foldl f p).1
  | [], _, h => h
  | x :: l, p, h => Keeps.foldl1 hf l (hf p x h)

end Sys2Proof.Machine
end

