-- ==== Sys2Proof/Laws/KeepBeadUnits.lean ====
section
/-! SUPPORT. What the operations of Machine/BeadUnits.lean keep: soundness, the queue, the draws, the wire. -/
namespace Sys2Proof.Machine

open Sys2Proof

end Sys2Proof.Machine
end

