-- ==== Sys2Proof/Laws/KeepOps.lean ====
section
/-! SUPPORT. What the operations of Machine/Ops.lean keep: soundness, the queue, the draws, the wire. -/
namespace Sys2Proof.Machine

open Sys2Proof

theorem keep_onlyIf (c : Bool) (f : State → State) {a s : State} (hf : ∀ (x0 : State), Keeps a x0 → Keeps a (f x0)) (h : Keeps a s) : Keeps a (onlyIf c f s) := by
  unfold onlyIf
  try dsimp only
  repeat' (first
    | with_reducible assumption
    | with_reducible refine hf _ ?_
    | with_reducible refine Keeps.of1 ‹_› ?_
    | with_reducible refine Keeps.of2 ‹_› ?_
    | split
    | with_reducible refine Keeps.same ?_ rfl
    | dsimp only)

theorem keep_orReg (r : Reg) (i : Nat) (j : Nat) (m : Nat) {a s : State} (h : Keeps a s) : Keeps a (State.orReg s r i j m) := by
  unfold State.orReg
  try dsimp only
  repeat' (first
    | with_reducible assumption
    | with_reducible refine keep_setReg _ _ _ _ ?_
    | with_reducible refine Keeps.of1 ‹_› ?_
    | with_reducible refine Keeps.of2 ‹_› ?_
    | split
    | with_reducible refine Keeps.same ?_ rfl
    | dsimp only)

theorem keep_setField (r : Reg) (i : Nat) (j : Nat) (h' : Nat) (l : Nat) (v : Nat) {a s : State} (h : Keeps a s) : Keeps a (State.setField s r i j h' l v) := by
  unfold State.setField
  try dsimp only
  repeat' (first
    | with_reducible assumption
    | with_reducible refine keep_setReg _ _ _ _ ?_
    | with_reducible refine Keeps.of1 ‹_› ?_
    | with_reducible refine Keeps.of2 ‹_› ?_
    | split
    | with_reducible refine Keeps.same ?_ rfl
    | dsimp only)

theorem keep_countTv (c : Nat) (n : Nat) {a s : State} (h : Keeps a s) : Keeps a (State.countTv s c n) := by
  unfold State.countTv
  try dsimp only
  repeat' (first
    | with_reducible assumption
    | with_reducible refine keep_count _ _ _ _ ?_
    | with_reducible refine Keeps.of1 ‹_› ?_
    | with_reducible refine Keeps.of2 ‹_› ?_
    | split
    | with_reducible refine Keeps.same ?_ rfl
    | dsimp only)

theorem keep_tick {a s : State} (h : Keeps a s) : Keeps a (tick s) := by
  unfold tick
  try dsimp only
  repeat' (first
    | with_reducible assumption
    | with_reducible refine Keeps.of1 ‹_› ?_
    | with_reducible refine Keeps.of2 ‹_› ?_
    | split
    | with_reducible refine Keeps.same ?_ rfl
    | dsimp only)

theorem keep_arm (o : EvOwner) (target : Nat) {a s : State} (h : Keeps a s) : Keeps a (arm o target s) := by
  unfold arm
  try dsimp only
  repeat' (first
    | with_reducible assumption
    | with_reducible refine Keeps.of1 ‹_› ?_
    | with_reducible refine Keeps.of2 ‹_› ?_
    | split
    | with_reducible refine Keeps.same ?_ rfl
    | dsimp only)

theorem keep_disarm (o : EvOwner) {a s : State} (h : Keeps a s) : Keeps a (disarm o s) := by
  unfold disarm
  try dsimp only
  repeat' (first
    | with_reducible assumption
    | with_reducible refine Keeps.of1 ‹_› ?_
    | with_reducible refine Keeps.of2 ‹_› ?_
    | split
    | with_reducible refine Keeps.same ?_ rfl
    | dsimp only)

theorem keep_capture (r : Rec) {a s : State} (h : Keeps a s) : Keeps a (capture r s) := by
  unfold capture
  try dsimp only
  repeat' (first
    | with_reducible assumption
    | with_reducible refine keep_setReg _ _ _ _ ?_
    | with_reducible refine Keeps.of1 ‹_› ?_
    | with_reducible refine Keeps.of2 ‹_› ?_
    | split
    | with_reducible refine Keeps.same ?_ rfl
    | dsimp only)

theorem keep_raise (cls : Nat) (tenant : Option Nat) (source : Nat) (kind : Nat) (body : Bytes) {a s : State} (h : Keeps a s) : Keeps a (raise cls tenant source kind body s) := by
  unfold raise
  try dsimp only
  repeat' (first
    | with_reducible assumption
    | with_reducible refine keep_admitIn _ _ ?_
    | with_reducible refine keep_capture _ ?_
    | with_reducible refine Keeps.foldl (fun s x h => ?_) _ ?_
    | with_reducible refine Keeps.of1 ‹_› ?_
    | with_reducible refine Keeps.of2 ‹_› ?_
    | split
    | with_reducible refine Keeps.same ?_ rfl
    | dsimp only)

theorem keep_stickyRec (cls : Nat) (ten : Option Nat) (cap : Nat) (r : Reg) (i : Nat) (j : Nat) (m : Nat) {a s : State} (h : Keeps a s) : Keeps a (stickyRec cls ten cap r i j m s) := by
  unfold stickyRec
  try dsimp only
  repeat' (first
    | with_reducible assumption
    | with_reducible refine keep_orReg _ _ _ _ ?_
    | with_reducible refine keep_raise _ _ _ _ _ ?_
    | with_reducible refine Keeps.of1 ‹_› ?_
    | with_reducible refine Keeps.of2 ‹_› ?_
    | split
    | with_reducible refine Keeps.same ?_ rfl
    | dsimp only)

theorem keep_sticky (ten : Option Nat) (r : Reg) (i : Nat) (j : Nat) (m : Nat) {a s : State} (h : Keeps a s) : Keeps a (sticky ten r i j m s) := by
  unfold sticky
  try dsimp only
  repeat' (first
    | with_reducible assumption
    | with_reducible refine keep_stickyRec _ _ _ _ _ _ _ ?_
    | with_reducible refine Keeps.of1 ‹_› ?_
    | with_reducible refine Keeps.of2 ‹_› ?_
    | split
    | with_reducible refine Keeps.same ?_ rfl
    | dsimp only)

theorem keep_traceHit (ten : Nat) (point : Nat) (unit : Nat) (status : Nat) (arg : Nat) (gcyc : Nat) (lode : Option Nat) {a s : State} (h : Keeps a s) : Keeps a (traceHit ten point unit status arg gcyc lode s) := by
  unfold traceHit
  try dsimp only
  repeat' (first
    | with_reducible assumption
    | with_reducible refine keep_raise _ _ _ _ _ ?_
    | with_reducible refine Keeps.of1 ‹_› ?_
    | with_reducible refine Keeps.of2 ‹_› ?_
    | split
    | with_reducible refine Keeps.same ?_ rfl
    | dsimp only)

theorem keep_setMemc (c : Nat) (x : MemCtl) {a s : State} (h : Keeps a s) : Keeps a (State.setMemc s c x) := by
  unfold State.setMemc
  try dsimp only
  repeat' (first
    | with_reducible assumption
    | with_reducible refine Keeps.of1 ‹_› ?_
    | with_reducible refine Keeps.of2 ‹_› ?_
    | split
    | with_reducible refine Keeps.same ?_ rfl
    | dsimp only)

theorem keep_ceThresh (c : Nat) (ch : Nat) {a s : State} (h : Keeps a s) : Keeps a (ceThresh c ch s) := by
  unfold ceThresh
  try dsimp only
  repeat' (first
    | with_reducible assumption
    | with_reducible refine keep_raise _ _ _ _ _ ?_
    | with_reducible refine Keeps.of1 ‹_› ?_
    | with_reducible refine Keeps.of2 ‹_› ?_
    | split
    | with_reducible refine Keeps.same ?_ rfl
    | dsimp only)

theorem keep_setLode (n : Nat) (l : Lode) {a s : State} (h : Keeps a s) : Keeps a (State.setLode s n l) := by
  unfold State.setLode
  try dsimp only
  repeat' (first
    | with_reducible assumption
    | with_reducible refine Keeps.of1 ‹_› ?_
    | with_reducible refine Keeps.of2 ‹_› ?_
    | split
    | with_reducible refine Keeps.same ?_ rfl
    | dsimp only)

theorem keep_setCore (k : Nat) (c : Core) {a s : State} (h : Keeps a s) : Keeps a (State.setCore s k c) := by
  unfold State.setCore
  try dsimp only
  repeat' (first
    | with_reducible assumption
    | with_reducible refine Keeps.of1 ‹_› ?_
    | with_reducible refine Keeps.of2 ‹_› ?_
    | split
    | with_reducible refine Keeps.same ?_ rfl
    | dsimp only)

theorem keep_setEngine (n : Nat) (e : Eng) {a s : State} (h : Keeps a s) : Keeps a (State.setEngine s n e) := by
  unfold State.setEngine
  try dsimp only
  repeat' (first
    | with_reducible assumption
    | with_reducible refine Keeps.of1 ‹_› ?_
    | with_reducible refine Keeps.of2 ‹_› ?_
    | split
    | with_reducible refine Keeps.same ?_ rfl
    | dsimp only)

theorem keep_setGrp (g : Nat) (x : Grp) {a s : State} (h : Keeps a s) : Keeps a (State.setGrp s g x) := by
  unfold State.setGrp
  try dsimp only
  repeat' (first
    | with_reducible assumption
    | with_reducible refine Keeps.of1 ‹_› ?_
    | with_reducible refine Keeps.of2 ‹_› ?_
    | split
    | with_reducible refine Keeps.same ?_ rfl
    | dsimp only)

theorem keep_setFw (p : Nat) (x : Fw) {a s : State} (h : Keeps a s) : Keeps a (State.setFw s p x) := by
  unfold State.setFw
  try dsimp only
  repeat' (first
    | with_reducible assumption
    | with_reducible refine Keeps.of1 ‹_› ?_
    | with_reducible refine Keeps.of2 ‹_› ?_
    | split
    | with_reducible refine Keeps.same ?_ rfl
    | dsimp only)

theorem keep_writeBack (cw : Nat) {a s : State} (h : Keeps a s) : Keeps a (writeBack cw s) :=
  h.memory fun m b => ⟨by split; exact twf_memWrite _ _ m; exact m, twf_tdel _ _ b⟩

theorem keep_corrected (cw : Nat) {a s : State} (h : Keeps a s) : Keeps a (corrected s cw) := by
  unfold corrected
  try dsimp only
  repeat' (first
    | with_reducible assumption
    | with_reducible refine keep_orReg _ _ _ _ ?_
    | with_reducible refine keep_count _ _ _ _ ?_
    | with_reducible refine keep_countTv _ _ ?_
    | with_reducible refine keep_ceThresh _ _ ?_
    | with_reducible refine keep_setLode _ _ ?_
    | with_reducible refine keep_writeBack _ ?_
    | with_reducible refine Keeps.of1 ‹_› ?_
    | with_reducible refine Keeps.of2 ‹_› ?_
    | split
    | with_reducible refine Keeps.same ?_ rfl
    | dsimp only)

theorem keep_captureUe (r : Reg) (i : Nat) (vbit : Nat) (v : Nat) {a s : State} (h : Keeps a s) : Keeps a (captureUe r i vbit v s) := by
  unfold captureUe
  try dsimp only
  repeat' (first
    | with_reducible assumption
    | with_reducible refine keep_setReg _ _ _ _ ?_
    | with_reducible refine Keeps.of1 ‹_› ?_
    | with_reducible refine Keeps.of2 ‹_› ?_
    | split
    | with_reducible refine Keeps.same ?_ rfl
    | dsimp only)

theorem keep_uncorrectable (cw : Nat) (k : Nat) {a s : State} (h : Keeps a s) : Keeps a (uncorrectable s cw k) := by
  unfold uncorrectable
  try dsimp only
  repeat' (first
    | with_reducible assumption
    | with_reducible refine keep_orReg _ _ _ _ ?_
    | with_reducible refine keep_count _ _ _ _ ?_
    | with_reducible refine keep_stickyRec _ _ _ _ _ _ _ ?_
    | with_reducible refine keep_captureUe _ _ _ _ ?_
    | with_reducible refine Keeps.of1 ‹_› ?_
    | with_reducible refine Keeps.of2 ‹_› ?_
    | split
    | with_reducible refine Keeps.same ?_ rfl
    | dsimp only)

theorem keep_cwReadAs (m : Nat) (cw : Nat) {a s : State} (h : Keeps a s) : Keeps a (cwReadAs m s cw).1 := by
  unfold cwReadAs
  split
  · exact h
  · exact keep_uncorrectable _ _ h
  · split
    · exact keep_uncorrectable _ _ (h.memory fun m b => ⟨m, twf_tput _ _ _ b⟩)
    · exact keep_corrected _ h

theorem keep_cwRead (cw : Nat) {a s : State} (h : Keeps a s) : Keeps a (cwRead s cw).1 := keep_cwReadAs _ _ h

theorem keep_cwReads {a : State} : ∀ (y0 : List Nat) {s : State}, Keeps a s → Keeps a (cwReads s y0).1
  | [], s, h => by
    unfold cwReads
    try dsimp only
    repeat' (first
      | with_reducible assumption
      | with_reducible refine keep_cwReads _ ?_
      | with_reducible refine keep_cwRead _ ?_
      | with_reducible refine Keeps.of1 ‹_› ?_
      | with_reducible refine Keeps.of2 ‹_› ?_
      | split
      | with_reducible refine Keeps.same ?_ rfl
      | dsimp only)
  | cw :: t, s, h => by
    unfold cwReads
    try dsimp only
    repeat' (first
      | with_reducible assumption
      | with_reducible refine keep_cwReads _ ?_
      | with_reducible refine keep_cwRead _ ?_
      | with_reducible refine Keeps.of1 ‹_› ?_
      | with_reducible refine Keeps.of2 ‹_› ?_
      | split
      | with_reducible refine Keeps.same ?_ rfl
      | dsimp only)

theorem keep_readBeside (l : List Nat) {a s : State} (h : Keeps a s) : Keeps a (readBeside l s) := by
  unfold readBeside
  try dsimp only
  repeat' (first
    | with_reducible assumption
    | with_reducible refine keep_cwRead _ ?_
    | with_reducible refine Keeps.foldl (fun s x h => ?_) _ ?_
    | with_reducible refine Keeps.of1 ‹_› ?_
    | with_reducible refine Keeps.of2 ‹_› ?_
    | split
    | with_reducible refine Keeps.same ?_ rfl
    | dsimp only)

theorem keep_readMem (a' : Nat) (n : Nat) {a s : State} (h : Keeps a s) : Keeps a (readMem s a' n).1 := by
  unfold readMem
  try dsimp only
  repeat' (first
    | with_reducible assumption
    | with_reducible refine keep_cwReads _ ?_
    | with_reducible refine keep_readBeside _ ?_
    | with_reducible refine Keeps.of1 ‹_› ?_
    | with_reducible refine Keeps.of2 ‹_› ?_
    | split
    | with_reducible refine Keeps.same ?_ rfl
    | dsimp only)

theorem keep_injected (a' : Nat) {a s : State} (h : Keeps a s) : Keeps a (injected s a').2 := by
  unfold injected
  try dsimp only
  repeat' (first
    | with_reducible assumption
    | with_reducible refine keep_setField _ _ _ _ _ _ ?_
    | with_reducible refine Keeps.of1 ‹_› ?_
    | with_reducible refine Keeps.of2 ‹_› ?_
    | split
    | with_reducible refine Keeps.same ?_ rfl
    | dsimp only)

theorem keep_cwWrite (a' : Nat) (bs : Bytes) {a s : State} (h : Keeps a s) : Keeps a (cwWrite s a' bs).1 := by
  unfold cwWrite
  dsimp only
  split
  · exact (keep_injected a' h).memory fun m b => ⟨twf_memWrite _ _ m, twf_tput _ _ _ b⟩
  · split
    · exact h.memory fun m b => ⟨twf_memWrite _ _ m, b⟩
    · split
      · next e => exact Keeps.of1 e (keep_cwReadAs _ _ h)
      · next e => exact (keep_writeBack _ (Keeps.of1 e (keep_cwReadAs _ _ h))).memory fun m b => ⟨twf_memWrite _ _ m, b⟩

theorem keep_cwWrites {a : State} : ∀ (y0 : List (Nat × Bytes)) {s : State}, Keeps a s → Keeps a (cwWrites s y0).1
  | [], s, h => by
    unfold cwWrites
    try dsimp only
    repeat' (first
      | with_reducible assumption
      | with_reducible refine keep_cwWrites _ ?_
      | with_reducible refine keep_cwWrite _ _ ?_
      | with_reducible refine Keeps.of1 ‹_› ?_
      | with_reducible refine Keeps.of2 ‹_› ?_
      | split
      | with_reducible refine Keeps.same ?_ rfl
      | dsimp only)
  | (a', bs) :: t, s, h => by
    unfold cwWrites
    try dsimp only
    repeat' (first
      | with_reducible assumption
      | with_reducible refine keep_cwWrites _ ?_
      | with_reducible refine keep_cwWrite _ _ ?_
      | with_reducible refine Keeps.of1 ‹_› ?_
      | with_reducible refine Keeps.of2 ‹_› ?_
      | split
      | with_reducible refine Keeps.same ?_ rfl
      | dsimp only)

theorem keep_writeMem (a' : Nat) (bs : Bytes) {a s : State} (h : Keeps a s) : Keeps a (writeMem s a' bs).1 := by
  unfold writeMem
  try dsimp only
  repeat' (first
    | with_reducible assumption
    | with_reducible refine keep_cwWrites _ ?_
    | with_reducible refine Keeps.of1 ‹_› ?_
    | with_reducible refine Keeps.of2 ‹_› ?_
    | split
    | with_reducible refine Keeps.same ?_ rfl
    | dsimp only)

theorem keep_storeWhole (a' : Nat) (bs : Bytes) {a s : State} (h : Keeps a s) : Keeps a (storeWhole s a' bs).1 := by
  unfold storeWhole
  try dsimp only
  repeat' (first
    | with_reducible assumption
    | with_reducible refine keep_cwReadAs _ _ ?_
    | with_reducible refine keep_writeMem _ _ ?_
    | with_reducible refine Keeps.of1 ‹_› ?_
    | with_reducible refine Keeps.of2 ‹_› ?_
    | split
    | with_reducible refine Keeps.same ?_ rfl
    | dsimp only)

theorem keep_zeroMem (a' : Nat) (n : Nat) {a s : State} (h : Keeps a s) : Keeps a (zeroMem s a' n) :=
  h.memory fun m b => ⟨twf_memZero _ _ m, twf_tdrop _ _ b⟩

theorem keep_setRegion (e : Nat) (r : Region) {a s : State} (h : Keeps a s) : Keeps a (State.setRegion s e r) := by
  unfold State.setRegion
  try dsimp only
  repeat' (first
    | with_reducible assumption
    | with_reducible refine Keeps.of1 ‹_› ?_
    | with_reducible refine Keeps.of2 ‹_› ?_
    | split
    | with_reducible refine Keeps.same ?_ rfl
    | dsimp only)

theorem keep_addrDenied (r : Requester) {a s : State} (h : Keeps a s) : Keeps a (addrDenied r s) := by
  unfold addrDenied
  try dsimp only
  repeat' (first
    | with_reducible assumption
    | with_reducible refine keep_stickyRec _ _ _ _ _ _ _ ?_
    | with_reducible refine Keeps.of1 ‹_› ?_
    | with_reducible refine Keeps.of2 ‹_› ?_
    | split
    | with_reducible refine Keeps.same ?_ rfl
    | dsimp only)

theorem keep_tableErr {a s : State} (h : Keeps a s) : Keeps a (tableErr s) := by
  unfold tableErr
  try dsimp only
  repeat' (first
    | with_reducible assumption
    | with_reducible refine keep_sticky _ _ _ _ _ ?_
    | with_reducible refine Keeps.of1 ‹_› ?_
    | with_reducible refine Keeps.of2 ‹_› ?_
    | split
    | with_reducible refine Keeps.same ?_ rfl
    | dsimp only)

theorem keep_refuse (r : Requester) (a' : Nat) (n : Nat) {a s : State} (h : Keeps a s) : Keeps a (refuse r a' n s) := by
  unfold refuse
  try dsimp only
  repeat' (first
    | with_reducible assumption
    | with_reducible refine keep_addrDenied _ ?_
    | with_reducible refine keep_tableErr ?_
    | with_reducible refine Keeps.of1 ‹_› ?_
    | with_reducible refine Keeps.of2 ‹_› ?_
    | split
    | with_reducible refine Keeps.same ?_ rfl
    | dsimp only)

theorem keep_instWrite (who : Nat) (owner : Nat) (f : State → State) {a s : State} (hf : ∀ (x0 : State), Keeps a x0 → Keeps a (f x0)) (h : Keeps a s) : Keeps a (instWrite who owner f s) := by
  unfold instWrite
  try dsimp only
  repeat' (first
    | with_reducible assumption
    | with_reducible refine keep_sticky _ _ _ _ _ ?_
    | with_reducible refine hf _ ?_
    | with_reducible refine Keeps.of1 ‹_› ?_
    | with_reducible refine Keeps.of2 ‹_› ?_
    | split
    | with_reducible refine Keeps.same ?_ rfl
    | dsimp only)

theorem keep_devInst (who : Nat) (d : Nat) (f : State → State) {a s : State} (hf : ∀ (x0 : State), Keeps a x0 → Keeps a (f x0)) (h : Keeps a s) : Keeps a (devInst who d f s) := by
  unfold devInst
  try dsimp only
  repeat' (first
    | with_reducible assumption
    | with_reducible refine keep_sticky _ _ _ _ _ ?_
    | with_reducible refine hf _ ?_
    | with_reducible refine Keeps.of1 ‹_› ?_
    | with_reducible refine Keeps.of2 ‹_› ?_
    | split
    | with_reducible refine Keeps.same ?_ rfl
    | dsimp only)

theorem keep_wakeDeep {a s : State} (h : Keeps a s) : Keeps a (wakeDeep s) := by
  unfold wakeDeep
  try dsimp only
  repeat' (first
    | with_reducible assumption
    | with_reducible refine Keeps.of1 ‹_› ?_
    | with_reducible refine Keeps.of2 ‹_› ?_
    | split
    | with_reducible refine Keeps.same ?_ rfl
    | dsimp only)

theorem keep_wakeLode (n : Nat) {a s : State} (h : Keeps a s) : Keeps a (wakeLode n s) := by
  unfold wakeLode
  try dsimp only
  repeat' (first
    | with_reducible assumption
    | with_reducible refine keep_setLode _ _ ?_
    | with_reducible refine keep_wakeDeep ?_
    | with_reducible refine Keeps.of1 ‹_› ?_
    | with_reducible refine Keeps.of2 ‹_› ?_
    | split
    | with_reducible refine Keeps.same ?_ rfl
    | dsimp only)

theorem keep_wakeAt (a' : Nat) {a s : State} (h : Keeps a s) : Keeps a (wakeAt a' s) := by
  unfold wakeAt
  try dsimp only
  repeat' (first
    | with_reducible assumption
    | with_reducible refine keep_wakeDeep ?_
    | with_reducible refine keep_wakeLode _ ?_
    | with_reducible refine Keeps.of1 ‹_› ?_
    | with_reducible refine Keeps.of2 ‹_› ?_
    | split
    | with_reducible refine Keeps.same ?_ rfl
    | dsimp only)

theorem keep_startZeroing (n : Nat) (o : Nat) {a s : State} (h : Keeps a s) : Keeps a (startZeroing n o s) := by
  unfold startZeroing
  try dsimp only
  repeat' (first
    | with_reducible assumption
    | with_reducible refine keep_setLode _ _ ?_
    | with_reducible refine keep_zeroMem _ _ ?_
    | with_reducible refine Keeps.of1 ‹_› ?_
    | with_reducible refine Keeps.of2 ‹_› ?_
    | split
    | with_reducible refine Keeps.same ?_ rfl
    | dsimp only)

theorem keep_wakeSpan (a' : Nat) (n : Nat) {a s : State} (h : Keeps a s) : Keeps a (wakeSpan a' n s) := by
  unfold wakeSpan
  try dsimp only
  repeat' (first
    | with_reducible assumption
    | with_reducible refine keep_wakeLode _ ?_
    | with_reducible refine keep_wakeAt _ ?_
    | with_reducible refine Keeps.foldl (fun s x h => ?_) _ ?_
    | with_reducible refine Keeps.of1 ‹_› ?_
    | with_reducible refine Keeps.of2 ‹_› ?_
    | split
    | with_reducible refine Keeps.same ?_ rfl
    | dsimp only)

end Sys2Proof.Machine
end

