-- ==== Sys2Proof/Laws/KeepHostOps.lean ====
section
/-! SUPPORT. What the operations of Machine/HostOps.lean keep: soundness, the queue, the draws, the wire. -/
namespace Sys2Proof.Machine

open Sys2Proof

theorem keep_setHost (fn : Nat) (h' : HostFn) {a s : State} (h : Keeps a s) : Keeps a (State.setHost s fn h') := by
  unfold State.setHost
  try dsimp only
  repeat' (first
    | with_reducible assumption
    | with_reducible refine Keeps.of1 ‹_› ?_
    | with_reducible refine Keeps.of2 ‹_› ?_
    | split
    | with_reducible refine Keeps.same ?_ rfl
    | dsimp only)

theorem keep_hostAsk (fn : Nat) (a' : Nat) (n : Nat) {a s : State} (h : Keeps a s) : Keeps a (hostAsk fn a' n s) := by
  unfold hostAsk
  try dsimp only
  repeat' (first
    | with_reducible assumption
    | with_reducible refine keep_setHost _ _ ?_
    | with_reducible refine Keeps.of1 ‹_› ?_
    | with_reducible refine Keeps.of2 ‹_› ?_
    | split
    | with_reducible refine Keeps.same ?_ rfl
    | dsimp only)

theorem keep_hostRead (fn : Nat) (a' : Nat) (n : Nat) {a s : State} (h : Keeps a s) : Keeps a (hostRead s fn a' n).1 := by
  unfold hostRead
  try dsimp only
  repeat' (first
    | with_reducible assumption
    | with_reducible refine keep_sticky _ _ _ _ _ ?_
    | with_reducible refine keep_hostAsk _ _ _ ?_
    | with_reducible refine Keeps.of1 ‹_› ?_
    | with_reducible refine Keeps.of2 ‹_› ?_
    | split
    | with_reducible refine Keeps.same ?_ rfl
    | dsimp only)

theorem twf_hostPut : ∀ (bs : Bytes) (port a : Nat) {m : Tbl HCell}, twf HCell.unknown 0 m = true →
    twf HCell.unknown 0 (hostPut m port a bs) = true
  | [], _, _, _, h => h
  | _ :: t, port, a, _, h => twf_hostPut t port (a + 1) (twf_tput _ _ _ h)

theorem keep_hostWrite (fn a' : Nat) (bs : Bytes) {a s : State} (h : Keeps a s) : Keeps a (hostWrite s fn a' bs).1 := by
  unfold hostWrite
  split
  · exact h
  · split
    · exact h
    · exact h.hosted (twf_hostPut _ _ _)

theorem keep_signalVector (fn : Nat) (vec : Nat) {a s : State} (h : Keeps a s) : Keeps a (signalVector fn vec s) := by
  unfold signalVector
  try dsimp only
  repeat' (first
    | with_reducible assumption
    | with_reducible refine keep_send _ ?_
    | with_reducible refine keep_setHost _ _ ?_
    | with_reducible refine Keeps.of1 ‹_› ?_
    | with_reducible refine Keeps.of2 ‹_› ?_
    | split
    | with_reducible refine Keeps.same ?_ rfl
    | dsimp only)

theorem keep_readAddr (fn : Nat) (a' : Nat) (n : Nat) {a s : State} (h : Keeps a s) : Keeps a (readAddr s fn a' n).1 := by
  unfold readAddr
  try dsimp only
  repeat' (first
    | with_reducible assumption
    | with_reducible refine keep_readMem _ _ ?_
    | with_reducible refine keep_hostRead _ _ _ ?_
    | with_reducible refine Keeps.of1 ‹_› ?_
    | with_reducible refine Keeps.of2 ‹_› ?_
    | split
    | with_reducible refine Keeps.same ?_ rfl
    | dsimp only)

theorem keep_writeAddr (fn : Nat) (a' : Nat) (bs : Bytes) {a s : State} (h : Keeps a s) : Keeps a (writeAddr s fn a' bs).1 := by
  unfold writeAddr
  try dsimp only
  repeat' (first
    | with_reducible assumption
    | with_reducible refine keep_writeMem _ _ ?_
    | with_reducible refine keep_hostWrite _ _ _ ?_
    | with_reducible refine Keeps.of1 ‹_› ?_
    | with_reducible refine Keeps.of2 ‹_› ?_
    | split
    | with_reducible refine Keeps.same ?_ rfl
    | dsimp only)

theorem keep_mayReach (fn : Nat) (a' : Nat) (n : Nat) (wr : Bool) (unit : Nat) {a s : State} (h : Keeps a s) : Keeps a (mayReach fn a' n wr unit s).2 := by
  unfold mayReach
  try dsimp only
  repeat' (first
    | with_reducible assumption
    | with_reducible refine keep_sticky _ _ _ _ _ ?_
    | with_reducible refine keep_addrDenied _ ?_
    | with_reducible refine keep_refuse _ _ _ ?_
    | with_reducible refine Keeps.of1 ‹_› ?_
    | with_reducible refine Keeps.of2 ‹_› ?_
    | split
    | with_reducible refine Keeps.same ?_ rfl
    | dsimp only)

end Sys2Proof.Machine
end

