-- ==== Sys2Proof/Laws/KeepCmdTable.lean ====
section
/-! SUPPORT. What the operations of Machine/CmdTable.lean keep: soundness, the queue, the draws, the wire. -/
namespace Sys2Proof.Machine

open Sys2Proof

theorem keep_modCmd (id : Nat) (f : Cmd → Cmd) {a s : State} (h : Keeps a s) : Keeps a (modCmd id f s) := by
  unfold modCmd
  try dsimp only
  repeat' (first
    | with_reducible assumption
    | with_reducible refine Keeps.of1 ‹_› ?_
    | with_reducible refine Keeps.of2 ‹_› ?_
    | split
    | with_reducible refine Keeps.same ?_ rfl
    | dsimp only)

theorem keep_dropCmds (p : Cmd → Bool) {a s : State} (h : Keeps a s) : Keeps a (dropCmds p s) := by
  unfold dropCmds
  try dsimp only
  repeat' (first
    | with_reducible assumption
    | with_reducible refine Keeps.of1 ‹_› ?_
    | with_reducible refine Keeps.of2 ‹_› ?_
    | split
    | with_reducible refine Keeps.same ?_ rfl
    | dsimp only)

theorem keep_finish (id : Nat) (st : Nat) (w0 : Nat) (w1 : Nat) (w2 : Nat) (w3 : Nat) {a s : State} (h : Keeps a s) : Keeps a (finish id st w0 w1 w2 w3 s) := by
  unfold finish
  try dsimp only
  repeat' (first
    | with_reducible assumption
    | with_reducible refine keep_modCmd _ _ ?_
    | with_reducible refine Keeps.of1 ‹_› ?_
    | with_reducible refine Keeps.of2 ‹_› ?_
    | split
    | with_reducible refine Keeps.same ?_ rfl
    | dsimp only)

theorem keep_finish0 (id : Nat) (st : Nat) {a s : State} (h : Keeps a s) : Keeps a (finish0 id st s) := by
  unfold finish0
  try dsimp only
  repeat' (first
    | with_reducible assumption
    | with_reducible refine keep_finish _ _ _ _ _ _ ?_
    | with_reducible refine Keeps.of1 ‹_› ?_
    | with_reducible refine Keeps.of2 ‹_› ?_
    | split
    | with_reducible refine Keeps.same ?_ rfl
    | dsimp only)

theorem keep_conflict (id : Nat) (ty : Nat) (idx : Nat) (code : Nat) (w2 : Nat) {a s : State} (h : Keeps a s) : Keeps a (conflict id ty idx code w2 s) := by
  unfold conflict
  try dsimp only
  repeat' (first
    | with_reducible assumption
    | with_reducible refine keep_finish _ _ _ _ _ _ ?_
    | with_reducible refine Keeps.of1 ‹_› ?_
    | with_reducible refine Keeps.of2 ‹_› ?_
    | split
    | with_reducible refine Keeps.same ?_ rfl
    | dsimp only)

theorem keep_failAddr (id : Nat) (e : RdErr) {a s : State} (h : Keeps a s) : Keeps a (failAddr id e s) := by
  unfold failAddr
  try dsimp only
  repeat' (first
    | with_reducible assumption
    | with_reducible refine keep_finish _ _ _ _ _ _ ?_
    | with_reducible refine keep_finish0 _ _ ?_
    | with_reducible refine Keeps.of1 ‹_› ?_
    | with_reducible refine Keeps.of2 ‹_› ?_
    | split
    | with_reducible refine Keeps.same ?_ rfl
    | dsimp only)

theorem keep_failHost (id : Nat) (e : HErr) {a s : State} (h : Keeps a s) : Keeps a (failHost id e s) := by
  unfold failHost
  try dsimp only
  repeat' (first
    | with_reducible assumption
    | with_reducible refine keep_finish0 _ _ ?_
    | with_reducible refine Keeps.of1 ‹_› ?_
    | with_reducible refine Keeps.of2 ‹_› ?_
    | split
    | with_reducible refine Keeps.same ?_ rfl
    | dsimp only)

theorem keep_working (id : Nat) {a s : State} (h : Keeps a s) : Keeps a (working id s) := by
  unfold working
  try dsimp only
  repeat' (first
    | with_reducible assumption
    | with_reducible refine keep_modCmd _ _ ?_
    | with_reducible refine Keeps.of1 ‹_› ?_
    | with_reducible refine Keeps.of2 ‹_› ?_
    | split
    | with_reducible refine Keeps.same ?_ rfl
    | dsimp only)

theorem keep_startOp (o : Op) (id : Nat) (f : Cmd → State → State) {a s : State} (hf : ∀ (x0 : Cmd) (x1 : State), Keeps a x1 → Keeps a (f x0 x1)) (h : Keeps a s) : Keeps a (startOp o id f s) := by
  unfold startOp
  try dsimp only
  repeat' (first
    | with_reducible assumption
    | with_reducible refine keep_wakeDeep ?_
    | with_reducible refine keep_wakeAt _ ?_
    | with_reducible refine hf _ _ ?_
    | with_reducible refine Keeps.of1 ‹_› ?_
    | with_reducible refine Keeps.of2 ‹_› ?_
    | split
    | with_reducible refine Keeps.same ?_ rfl
    | dsimp only)

theorem keep_need6 (ok : Bool) (c : Cmd) (ty : Nat) (idx : Nat) (code : Nat) (k : State → State) {a s : State} (hk : ∀ (x0 : State), Keeps a x0 → Keeps a (k x0)) (h : Keeps a s) : Keeps a (need6 ok c ty idx code k s) := by
  unfold need6
  try dsimp only
  repeat' (first
    | with_reducible assumption
    | with_reducible refine keep_conflict _ _ _ _ _ ?_
    | with_reducible refine hk _ ?_
    | with_reducible refine Keeps.of1 ‹_› ?_
    | with_reducible refine Keeps.of2 ‹_› ?_
    | split
    | with_reducible refine Keeps.same ?_ rfl
    | dsimp only)

theorem keep_need7 (ok : Bool) (c : Cmd) (k : State → State) {a s : State} (hk : ∀ (x0 : State), Keeps a x0 → Keeps a (k x0)) (h : Keeps a s) : Keeps a (need7 ok c k s) := by
  unfold need7
  try dsimp only
  repeat' (first
    | with_reducible assumption
    | with_reducible refine keep_finish0 _ _ ?_
    | with_reducible refine hk _ ?_
    | with_reducible refine Keeps.of1 ‹_› ?_
    | with_reducible refine Keeps.of2 ‹_› ?_
    | split
    | with_reducible refine Keeps.same ?_ rfl
    | dsimp only)

theorem keep_failAt (c : Cmd) (st : Nat) (o : Op) (k : Nat) {a s : State} (h : Keeps a s) : Keeps a (failAt c st o k s) := by
  unfold failAt
  try dsimp only
  repeat' (first
    | with_reducible assumption
    | with_reducible refine keep_finish _ _ _ _ _ _ ?_
    | with_reducible refine Keeps.of1 ‹_› ?_
    | with_reducible refine Keeps.of2 ‹_› ?_
    | split
    | with_reducible refine Keeps.same ?_ rfl
    | dsimp only)

end Sys2Proof.Machine
end

