-- ==== Sys2Proof/Laws/KeepSyncOps.lean ====
section
/-! SUPPORT. What the operations of Machine/SyncOps.lean keep: soundness, the queue, the draws, the wire. -/
namespace Sys2Proof.Machine

open Sys2Proof

theorem keep_refuseOf (r : Requester) (l : List (Nat × Nat)) {a s : State} (h : Keeps a s) : Keeps a (refuseOf s r l) := by
  unfold refuseOf
  try dsimp only
  repeat' (first
    | with_reducible assumption
    | with_reducible refine keep_addrDenied _ ?_
    | with_reducible refine keep_tableErr ?_
    | with_reducible refine Keeps.of1 ‹_› ?_
    | with_reducible refine Keeps.of2 ‹_› ?_
    | split
    | with_reducible refine Keeps.same ?_ rfl
    | dsimp only)

theorem keep_setCtr (p : Nat) (c : Counter) {a s : State} (h : Keeps a s) : Keeps a (State.setCtr s p c) := by
  unfold State.setCtr
  try dsimp only
  repeat' (first
    | with_reducible assumption
    | with_reducible refine Keeps.of1 ‹_› ?_
    | with_reducible refine Keeps.of2 ‹_› ?_
    | split
    | with_reducible refine Keeps.same ?_ rfl
    | dsimp only)

theorem keep_sendSig (src : Nat) (tenant : Nat) (x : Xl) (val : Nat) (cmd : Option Nat) {a s : State} (h : Keeps a s) : Keeps a (sendSig src tenant x val cmd s) := by
  unfold sendSig
  try dsimp only
  repeat' (first
    | with_reducible assumption
    | with_reducible refine Keeps.of1 ‹_› ?_
    | with_reducible refine Keeps.of2 ‹_› ?_
    | split
    | with_reducible refine Keeps.same ?_ rfl
    | dsimp only)

theorem keep_sendSync (src : Nat) (tenant : Nat) (x : Xl) (sync : Nat) {a s : State} (h : Keeps a s) : Keeps a (sendSync src tenant x sync s) := by
  unfold sendSync
  try dsimp only
  repeat' (first
    | with_reducible assumption
    | with_reducible refine keep_sendSig _ _ _ _ _ ?_
    | with_reducible refine Keeps.of1 ‹_› ?_
    | with_reducible refine Keeps.of2 ‹_› ?_
    | split
    | with_reducible refine Keeps.same ?_ rfl
    | dsimp only)

theorem keep_endSigs (st : Nat) (p : Nat) (gs : List Sig) {a s : State} (h : Keeps a s) : Keeps a (endSigs st p gs s) := by
  unfold endSigs
  try dsimp only
  repeat' (first
    | with_reducible assumption
    | with_reducible refine keep_finish _ _ _ _ _ _ ?_
    | with_reducible refine Keeps.foldl (fun s x h => ?_) _ ?_
    | with_reducible refine Keeps.of1 ‹_› ?_
    | with_reducible refine Keeps.of2 ‹_› ?_
    | split
    | with_reducible refine Keeps.same ?_ rfl
    | dsimp only)

theorem keep_addSigs (p : Nat) (gs : List Sig) {a s : State} (h : Keeps a s) : Keeps a (addSigs p gs s) := by
  unfold addSigs
  try dsimp only
  repeat' (first
    | with_reducible assumption
    | with_reducible refine keep_orReg _ _ _ _ ?_
    | with_reducible refine keep_count _ _ _ _ ?_
    | with_reducible refine keep_raise _ _ _ _ _ ?_
    | with_reducible refine keep_setCtr _ _ ?_
    | with_reducible refine keep_endSigs _ _ _ ?_
    | with_reducible refine Keeps.foldl (fun s x h => ?_) _ ?_
    | with_reducible refine Keeps.of1 ‹_› ?_
    | with_reducible refine Keeps.of2 ‹_› ?_
    | split
    | with_reducible refine Keeps.same ?_ rfl
    | dsimp only)

theorem keep_dropAny (src : Nat) {a s : State} (h : Keeps a s) : Keeps a (dropAny src s) := by
  unfold dropAny
  try dsimp only
  repeat' (first
    | with_reducible assumption
    | with_reducible refine Keeps.of1 ‹_› ?_
    | with_reducible refine Keeps.of2 ‹_› ?_
    | split
    | with_reducible refine Keeps.same ?_ rfl
    | dsimp only)

theorem keep_passHead (p : Nat) {a s : State} (h : Keeps a s) : Keeps a (passHead p s).2 := by
  unfold passHead
  try dsimp only
  repeat' (first
    | with_reducible assumption
    | with_reducible refine keep_count _ _ _ _ ?_
    | with_reducible refine keep_setCtr _ _ ?_
    | with_reducible refine keep_dropAny _ ?_
    | with_reducible refine Keeps.of1 ‹_› ?_
    | with_reducible refine Keeps.of2 ‹_› ?_
    | split
    | with_reducible refine Keeps.same ?_ rfl
    | dsimp only)

theorem keep_settleN {a : State} : ∀ (y0 : Nat) (y1 : List Nat) {s : State}, Keeps a s → Keeps a (settleN y0 y1 s)
  | 0, _, s, h => by
    unfold settleN
    try dsimp only
    repeat' (first
      | with_reducible assumption
      | with_reducible refine keep_settleN _ _ ?_
      | with_reducible refine keep_passHead _ ?_
      | with_reducible refine Keeps.of1 ‹_› ?_
      | with_reducible refine Keeps.of2 ‹_› ?_
      | split
      | with_reducible refine Keeps.same ?_ rfl
      | dsimp only)
  | f + 1, ps, s, h => by
    unfold settleN
    try dsimp only
    repeat' (first
      | with_reducible assumption
      | with_reducible refine keep_settleN _ _ ?_
      | with_reducible refine keep_passHead _ ?_
      | with_reducible refine Keeps.of1 ‹_› ?_
      | with_reducible refine Keeps.of2 ‹_› ?_
      | split
      | with_reducible refine Keeps.same ?_ rfl
      | dsimp only)

theorem keep_settle (ps : List Nat) {a s : State} (h : Keeps a s) : Keeps a (settle ps s) := by
  unfold settle
  try dsimp only
  repeat' (first
    | with_reducible assumption
    | with_reducible refine keep_settleN _ _ ?_
    | with_reducible refine Keeps.of1 ‹_› ?_
    | with_reducible refine Keeps.of2 ‹_› ?_
    | split
    | with_reducible refine Keeps.same ?_ rfl
    | dsimp only)

theorem keep_settleAll {a s : State} (h : Keeps a s) : Keeps a (settleAll s) := by
  unfold settleAll
  try dsimp only
  repeat' (first
    | with_reducible assumption
    | with_reducible refine keep_settle _ ?_
    | with_reducible refine Keeps.of1 ‹_› ?_
    | with_reducible refine Keeps.of2 ‹_› ?_
    | split
    | with_reducible refine Keeps.same ?_ rfl
    | dsimp only)

theorem keep_rebase (e : Epoch) {a s : State} (h : Keeps a s) : Keeps a (rebase e s) := by
  unfold rebase
  try dsimp only
  repeat' (first
    | with_reducible assumption
    | with_reducible refine keep_setReg _ _ _ _ ?_
    | with_reducible refine keep_count _ _ _ _ ?_
    | with_reducible refine keep_finish _ _ _ _ _ _ ?_
    | with_reducible refine keep_setCtr _ _ ?_
    | with_reducible refine Keeps.foldl (fun s x h => ?_) _ ?_
    | with_reducible refine Keeps.of1 ‹_› ?_
    | with_reducible refine Keeps.of2 ‹_› ?_
    | split
    | with_reducible refine Keeps.same ?_ rfl
    | dsimp only)

theorem keep_rebaseReady (p : Nat) {a s : State} (h : Keeps a s) : Keeps a (rebaseReady p s).2 := by
  unfold rebaseReady
  refine Keeps.foldl2 (fun q e h => ?_) _ h
  obtain ⟨ps, s⟩ := q
  dsimp only
  split
  · exact keep_rebase e h
  · exact h

theorem keep_counterCycle (p : Nat) (srcs : List Nat) {a s : State} (h : Keeps a s) : Keeps a (counterCycle p srcs s) := by
  unfold counterCycle
  try dsimp only
  repeat' (first
    | with_reducible assumption
    | with_reducible refine keep_addSigs _ _ ?_
    | with_reducible refine keep_settle _ ?_
    | with_reducible refine keep_rebaseReady _ ?_
    | with_reducible refine Keeps.of1 ‹_› ?_
    | with_reducible refine Keeps.of2 ‹_› ?_
    | split
    | with_reducible refine Keeps.same ?_ rfl
    | dsimp only)

theorem keep_sendWait (p : Nat) (w : Waiter) {a s : State} (h : Keeps a s) : Keeps a (sendWait p w s) := by
  unfold sendWait
  try dsimp only
  repeat' (first
    | with_reducible assumption
    | with_reducible refine Keeps.of1 ‹_› ?_
    | with_reducible refine Keeps.of2 ‹_› ?_
    | split
    | with_reducible refine Keeps.same ?_ rfl
    | dsimp only)

theorem keep_unlist (src : Nat) (tag : Option Nat) {a s : State} (h : Keeps a s) : Keeps a (unlist src tag s) := by
  unfold unlist
  try dsimp only
  repeat' (first
    | with_reducible assumption
    | with_reducible refine Keeps.of1 ‹_› ?_
    | with_reducible refine Keeps.of2 ‹_› ?_
    | split
    | with_reducible refine Keeps.same ?_ rfl
    | dsimp only)

theorem keep_withdraw (src : Nat) (tag : Option Nat) {a s : State} (h : Keeps a s) : Keeps a (withdraw src tag s) := by
  unfold withdraw
  try dsimp only
  repeat' (first
    | with_reducible assumption
    | with_reducible refine keep_settle _ ?_
    | with_reducible refine keep_unlist _ _ ?_
    | with_reducible refine Keeps.of1 ‹_› ?_
    | with_reducible refine Keeps.of2 ‹_› ?_
    | split
    | with_reducible refine Keeps.same ?_ rfl
    | dsimp only)

theorem keep_zeroCounters (own : Nat → Bool) {a s : State} (h : Keeps a s) : Keeps a (zeroCounters own s) := by
  unfold zeroCounters
  try dsimp only
  repeat' (first
    | with_reducible assumption
    | with_reducible refine keep_count _ _ _ _ ?_
    | with_reducible refine Keeps.of1 ‹_› ?_
    | with_reducible refine Keeps.of2 ‹_› ?_
    | split
    | with_reducible refine Keeps.same ?_ rfl
    | dsimp only)

theorem keep_dropTenantWaits (t : Nat) {a s : State} (h : Keeps a s) : Keeps a (dropTenantWaits t s) := by
  unfold dropTenantWaits
  try dsimp only
  repeat' (first
    | with_reducible assumption
    | with_reducible refine Keeps.of1 ‹_› ?_
    | with_reducible refine Keeps.of2 ‹_› ?_
    | split
    | with_reducible refine Keeps.same ?_ rfl
    | dsimp only)

end Sys2Proof.Machine
end

