-- ==== Sys2Proof/Laws/KeepEngineOps.lean ====
section
/-! SUPPORT. What the operations of Machine/EngineOps.lean keep: soundness, the queue, the draws, the wire. -/
namespace Sys2Proof.Machine

open Sys2Proof

theorem keep_wakeRows (x : Ext) {a s : State} (h : Keeps a s) : Keeps a (wakeRows x s) := by
  unfold wakeRows
  try dsimp only
  repeat' (first
    | with_reducible assumption
    | with_reducible refine keep_wakeSpan _ _ ?_
    | with_reducible refine Keeps.foldl (fun s x h => ?_) _ ?_
    | with_reducible refine Keeps.of1 ‹_› ?_
    | with_reducible refine Keeps.of2 ‹_› ?_
    | split
    | with_reducible refine Keeps.same ?_ rfl
    | dsimp only)

theorem keep_readStrata {a : State} : ∀ (y0 : List (Nat × Nat)) {s : State}, Keeps a s → Keeps a (readStrata s y0).1
  | [], s, h => by
    unfold readStrata
    try dsimp only
    repeat' (first
      | with_reducible assumption
      | with_reducible refine keep_readStrata _ ?_
      | with_reducible refine keep_cwReads _ ?_
      | with_reducible refine Keeps.of1 ‹_› ?_
      | with_reducible refine Keeps.of2 ‹_› ?_
      | split
      | with_reducible refine Keeps.same ?_ rfl
      | dsimp only)
  | (o, n) :: t, s, h => by
    unfold readStrata
    try dsimp only
    repeat' (first
      | with_reducible assumption
      | with_reducible refine keep_readStrata _ ?_
      | with_reducible refine keep_cwReads _ ?_
      | with_reducible refine Keeps.of1 ‹_› ?_
      | with_reducible refine Keeps.of2 ‹_› ?_
      | split
      | with_reducible refine Keeps.same ?_ rfl
      | dsimp only)

theorem keep_stepTiles (m : MF) (ys : List (List El)) (g : Nat) {a : State} : ∀ (y0 : List (Tile × List (List Dot))) {s : State}, Keeps a s → Keeps a (stepTiles m ys g y0 s).1
  | [], s, h => by
    unfold stepTiles
    try dsimp only
    repeat' (first
      | with_reducible assumption
      | with_reducible refine keep_stepTiles _ _ _ _ ?_
      | with_reducible refine keep_readStrata _ ?_
      | with_reducible refine Keeps.of1 ‹_› ?_
      | with_reducible refine Keeps.of2 ‹_› ?_
      | split
      | with_reducible refine Keeps.same ?_ rfl
      | dsimp only)
  | (t, ds) :: rest, s, h => by
    unfold stepTiles
    try dsimp only
    repeat' (first
      | with_reducible assumption
      | with_reducible refine keep_stepTiles _ _ _ _ ?_
      | with_reducible refine keep_readStrata _ ?_
      | with_reducible refine Keeps.of1 ‹_› ?_
      | with_reducible refine Keeps.of2 ‹_› ?_
      | split
      | with_reducible refine Keeps.same ?_ rfl
      | dsimp only)

theorem keep_stepGrains (m : MF) (held : List (List Bytes)) {a : State} : ∀ (y0 : List Nat) (y1 : List (List Bytes)) (y2 : List (Tile × List (List Dot))) {s : State}, Keeps a s → Keeps a (stepGrains m held y0 y1 y2 s).1
  | [], buf, ts, s, h => by
    unfold stepGrains
    try dsimp only
    repeat' (first
      | with_reducible assumption
      | with_reducible refine keep_stepGrains _ _ _ _ _ ?_
      | with_reducible refine keep_readStrata _ ?_
      | with_reducible refine keep_stepTiles _ _ _ _ ?_
      | with_reducible refine Keeps.of1 ‹_› ?_
      | with_reducible refine Keeps.of2 ‹_› ?_
      | split
      | with_reducible refine Keeps.same ?_ rfl
      | dsimp only)
  | g :: gs, buf, ts, s, h => by
    unfold stepGrains
    try dsimp only
    repeat' (first
      | with_reducible assumption
      | with_reducible refine keep_stepGrains _ _ _ _ _ ?_
      | with_reducible refine keep_readStrata _ ?_
      | with_reducible refine keep_stepTiles _ _ _ _ ?_
      | with_reducible refine Keeps.of1 ‹_› ?_
      | with_reducible refine Keeps.of2 ‹_› ?_
      | split
      | with_reducible refine Keeps.same ?_ rfl
      | dsimp only)

theorem keep_startTiles (m : MF) (e : Eng) {a : State} : ∀ (y0 : List Tile) {s : State}, Keeps a s → Keeps a (startTiles m e y0 s).1
  | [], s, h => by
    unfold startTiles
    try dsimp only
    repeat' (first
      | with_reducible assumption
      | with_reducible refine keep_startTiles _ _ _ ?_
      | with_reducible refine keep_readStrata _ ?_
      | with_reducible refine Keeps.of1 ‹_› ?_
      | with_reducible refine Keeps.of2 ‹_› ?_
      | split
      | with_reducible refine Keeps.same ?_ rfl
      | dsimp only)
  | t :: rest, s, h => by
    unfold startTiles
    try dsimp only
    repeat' (first
      | with_reducible assumption
      | with_reducible refine keep_startTiles _ _ _ ?_
      | with_reducible refine keep_readStrata _ ?_
      | with_reducible refine Keeps.of1 ‹_› ?_
      | with_reducible refine Keeps.of2 ‹_› ?_
      | split
      | with_reducible refine Keeps.same ?_ rfl
      | dsimp only)

theorem keep_runGroup (m : MF) (e : Eng) (ts : List Tile) (w : WalkR) {a s : State} (h : Keeps a s) : Keeps a (runGroup m e ts w s).1 := by
  unfold runGroup
  try dsimp only
  repeat' (first
    | with_reducible assumption
    | with_reducible refine keep_count _ _ _ _ ?_
    | with_reducible refine keep_stepGrains _ _ _ _ _ ?_
    | with_reducible refine keep_startTiles _ _ _ ?_
    | with_reducible refine Keeps.of1 ‹_› ?_
    | with_reducible refine Keeps.of2 ‹_› ?_
    | split
    | with_reducible refine Keeps.same ?_ rfl
    | dsimp only)

theorem keep_runWalk (m : MF) (e : Eng) {a : State} : ∀ (y0 : List (List Tile)) (y1 : WalkR) {s : State}, Keeps a s → Keeps a (runWalk m e y0 y1 s).1
  | [], w, s, h => by
    unfold runWalk
    try dsimp only
    repeat' (first
      | with_reducible assumption
      | with_reducible refine keep_runWalk _ _ _ _ ?_
      | with_reducible refine keep_runGroup _ _ _ _ ?_
      | with_reducible refine Keeps.of1 ‹_› ?_
      | with_reducible refine Keeps.of2 ‹_› ?_
      | split
      | with_reducible refine Keeps.same ?_ rfl
      | dsimp only)
  | ts :: rest, w, s, h => by
    unfold runWalk
    try dsimp only
    repeat' (first
      | with_reducible assumption
      | with_reducible refine keep_runWalk _ _ _ _ ?_
      | with_reducible refine keep_runGroup _ _ _ _ ?_
      | with_reducible refine Keeps.of1 ‹_› ?_
      | with_reducible refine Keeps.of2 ‹_› ?_
      | split
      | with_reducible refine Keeps.same ?_ rfl
      | dsimp only)

theorem keep_writePieces {a : State} : ∀ (y0 : List (Nat × Bytes)) {s : State}, Keeps a s → Keeps a (writePieces s y0).1
  | [], s, h => by
    unfold writePieces
    try dsimp only
    repeat' (first
      | with_reducible assumption
      | with_reducible refine keep_writePieces _ ?_
      | with_reducible refine keep_writeMem _ _ ?_
      | with_reducible refine Keeps.of1 ‹_› ?_
      | with_reducible refine Keeps.of2 ‹_› ?_
      | split
      | with_reducible refine Keeps.same ?_ rfl
      | dsimp only)
  | (o, bs) :: t, s, h => by
    unfold writePieces
    try dsimp only
    repeat' (first
      | with_reducible assumption
      | with_reducible refine keep_writePieces _ ?_
      | with_reducible refine keep_writeMem _ _ ?_
      | with_reducible refine Keeps.of1 ‹_› ?_
      | with_reducible refine Keeps.of2 ‹_› ?_
      | split
      | with_reducible refine Keeps.same ?_ rfl
      | dsimp only)

theorem keep_transRun (m : MF) (seed : Bytes) {a : State} : ∀ (y0 : List (Nat × Nat)) {s : State}, Keeps a s → Keeps a (transRun m seed y0 s).1
  | [], s, h => by
    unfold transRun
    try dsimp only
    repeat' (first
      | with_reducible assumption
      | with_reducible refine keep_transRun _ _ _ ?_
      | with_reducible refine keep_readStrata _ ?_
      | with_reducible refine Keeps.foldl (fun s x h => ?_) _ ?_
      | with_reducible refine Keeps.of1 ‹_› ?_
      | with_reducible refine Keeps.of2 ‹_› ?_
      | split
      | with_reducible refine Keeps.same ?_ rfl
      | dsimp only)
  | (c, k) :: rest, s, h => by
    unfold transRun
    try dsimp only
    repeat' (first
      | with_reducible assumption
      | with_reducible refine keep_transRun _ _ _ ?_
      | with_reducible refine keep_readStrata _ ?_
      | with_reducible refine Keeps.foldl (fun s x h => ?_) _ ?_
      | with_reducible refine Keeps.of1 ‹_› ?_
      | with_reducible refine Keeps.of2 ‹_› ?_
      | split
      | with_reducible refine Keeps.same ?_ rfl
      | dsimp only)

end Sys2Proof.Machine
end

