-- ==== Sys2Proof/Laws/KeepLodeOps.lean ====
section
/-! SUPPORT. What the operations of Machine/LodeOps.lean keep: soundness, the queue, the draws, the wire. -/
namespace Sys2Proof.Machine

open Sys2Proof

theorem keep_varCount (t : Nat) (cmd : Option Nat) {a s : State} (h : Keeps a s) : Keeps a (varCount t cmd s) := by
  unfold varCount
  try dsimp only
  repeat' (first
    | with_reducible assumption
    | with_reducible refine keep_count _ _ _ _ ?_
    | with_reducible refine keep_modCmd _ _ ?_
    | with_reducible refine Keeps.of1 ‹_› ?_
    | with_reducible refine Keeps.of2 ‹_› ?_
    | split
    | with_reducible refine Keeps.same ?_ rfl
    | dsimp only)

theorem keep_varRefuse (t : Nat) {a s : State} (h : Keeps a s) : Keeps a (varRefuse t s) := by
  unfold varRefuse
  try dsimp only
  repeat' (first
    | with_reducible assumption
    | with_reducible refine keep_orReg _ _ _ _ ?_
    | with_reducible refine keep_count _ _ _ _ ?_
    | with_reducible refine Keeps.of1 ‹_› ?_
    | with_reducible refine Keeps.of2 ‹_› ?_
    | split
    | with_reducible refine Keeps.same ?_ rfl
    | dsimp only)

theorem keep_lodeTrace (n : Nat) (point : Nat) (unit : Nat) (status : Nat) (arg : Nat) {a s : State} (h : Keeps a s) : Keeps a (lodeTrace n point unit status arg s) := by
  unfold lodeTrace
  try dsimp only
  repeat' (first
    | with_reducible assumption
    | with_reducible refine keep_traceHit _ _ _ _ _ _ _ ?_
    | with_reducible refine Keeps.of1 ‹_› ?_
    | with_reducible refine Keeps.of2 ‹_› ?_
    | split
    | with_reducible refine Keeps.same ?_ rfl
    | dsimp only)

theorem keep_groupLapse (g : Grp) {a s : State} (h : Keeps a s) : Keeps a (groupLapse g s) := by
  unfold groupLapse
  try dsimp only
  repeat' (first
    | with_reducible assumption
    | with_reducible refine keep_orReg _ _ _ _ ?_
    | with_reducible refine Keeps.foldl (fun s x h => ?_) _ ?_
    | with_reducible refine Keeps.of1 ‹_› ?_
    | with_reducible refine Keeps.of2 ‹_› ?_
    | split
    | with_reducible refine Keeps.same ?_ rfl
    | dsimp only)

theorem keep_syncGroups {a s : State} (h : Keeps a s) : Keeps a (syncGroups s) := by
  unfold syncGroups
  try dsimp only
  repeat' (first
    | with_reducible assumption
    | with_reducible refine keep_orReg _ _ _ _ ?_
    | with_reducible refine keep_setGrp _ _ ?_
    | with_reducible refine keep_groupLapse _ ?_
    | with_reducible refine Keeps.foldl (fun s x h => ?_) _ ?_
    | with_reducible refine Keeps.of1 ‹_› ?_
    | with_reducible refine Keeps.of2 ‹_› ?_
    | split
    | with_reducible refine Keeps.same ?_ rfl
    | dsimp only)

theorem keep_setDeadline (src : Nat) (d : Option Nat) {a s : State} (h : Keeps a s) : Keeps a (setDeadline src d s) := by
  unfold setDeadline
  try dsimp only
  repeat' (first
    | with_reducible assumption
    | with_reducible refine Keeps.of1 ‹_› ?_
    | with_reducible refine Keeps.of2 ‹_› ?_
    | split
    | with_reducible refine Keeps.same ?_ rfl
    | dsimp only)

theorem keep_pauseWaits (src : Nat) {a s : State} (h : Keeps a s) : Keeps a (pauseWaits src s).1 := by
  unfold pauseWaits
  try dsimp only
  repeat' (first
    | with_reducible assumption
    | with_reducible refine keep_setDeadline _ _ ?_
    | with_reducible refine Keeps.of1 ‹_› ?_
    | with_reducible refine Keeps.of2 ‹_› ?_
    | split
    | with_reducible refine Keeps.same ?_ rfl
    | dsimp only)

theorem keep_resumeWaits (src : Nat) (left : Option Nat) {a s : State} (h : Keeps a s) : Keeps a (resumeWaits src left s) := by
  unfold resumeWaits
  try dsimp only
  repeat' (first
    | with_reducible assumption
    | with_reducible refine keep_setDeadline _ _ ?_
    | with_reducible refine Keeps.of1 ‹_› ?_
    | with_reducible refine Keeps.of2 ‹_› ?_
    | split
    | with_reducible refine Keeps.same ?_ rfl
    | dsimp only)

theorem keep_releaseCore (k : Nat) {a s : State} (h : Keeps a s) : Keeps a (releaseCore k s) := by
  unfold releaseCore
  try dsimp only
  repeat' (first
    | with_reducible assumption
    | with_reducible refine keep_setCore _ _ ?_
    | with_reducible refine keep_resumeWaits _ _ ?_
    | with_reducible refine Keeps.of1 ‹_› ?_
    | with_reducible refine Keeps.of2 ‹_› ?_
    | split
    | with_reducible refine Keeps.same ?_ rfl
    | dsimp only)

theorem keep_holdReplies {a s : State} (h : Keeps a s) : Keeps a (holdReplies s) := by
  unfold holdReplies
  try dsimp only
  repeat' (first
    | with_reducible assumption
    | with_reducible refine keep_finish0 _ _ ?_
    | with_reducible refine keep_working _ ?_
    | with_reducible refine Keeps.foldl (fun s x h => ?_) _ ?_
    | with_reducible refine Keeps.of1 ‹_› ?_
    | with_reducible refine Keeps.of2 ‹_› ?_
    | split
    | with_reducible refine Keeps.same ?_ rfl
    | dsimp only)

theorem keep_holdsChanged {a s : State} (h : Keeps a s) : Keeps a (holdsChanged s) := by
  unfold holdsChanged
  try dsimp only
  repeat' (first
    | with_reducible assumption
    | with_reducible refine keep_syncGroups ?_
    | with_reducible refine keep_releaseCore _ ?_
    | with_reducible refine keep_holdReplies ?_
    | with_reducible refine Keeps.foldl (fun s x h => ?_) _ ?_
    | with_reducible refine Keeps.of1 ‹_› ?_
    | with_reducible refine Keeps.of2 ‹_› ?_
    | split
    | with_reducible refine Keeps.same ?_ rfl
    | dsimp only)

theorem keep_deviceHold (t : Nat) (mask : Nat) {a s : State} (h : Keeps a s) : Keeps a (deviceHold t mask s) := by
  unfold deviceHold
  try dsimp only
  repeat' (first
    | with_reducible assumption
    | with_reducible refine keep_setHost _ _ ?_
    | with_reducible refine keep_holdsChanged ?_
    | with_reducible refine Keeps.of1 ‹_› ?_
    | with_reducible refine Keeps.of2 ‹_› ?_
    | split
    | with_reducible refine Keeps.same ?_ rfl
    | dsimp only)

theorem keep_syncPoint (n : Nat) {a s : State} (h : Keeps a s) : Keeps a (syncPoint n s) := by
  unfold syncPoint
  try dsimp only
  repeat' (first
    | with_reducible assumption
    | with_reducible refine keep_deviceHold _ _ ?_
    | with_reducible refine Keeps.of1 ‹_› ?_
    | with_reducible refine Keeps.of2 ‹_› ?_
    | split
    | with_reducible refine Keeps.same ?_ rfl
    | dsimp only)

end Sys2Proof.Machine
end

