-- ==== Sys2Proof/Laws/KeepEngine.lean ====
section
/-! SUPPORT. What the operations of Machine/Engine.lean keep: soundness, the queue, the draws, the wire. -/
namespace Sys2Proof.Machine

open Sys2Proof

theorem keep_modChainBy (id : Nat) (f : Chain → Chain) {a s : State} (h : Keeps a s) : Keeps a (modChainBy id f s) := by
  unfold modChainBy
  try dsimp only
  repeat' (first
    | with_reducible assumption
    | with_reducible refine Keeps.of1 ‹_› ?_
    | with_reducible refine Keeps.of2 ‹_› ?_
    | split
    | with_reducible refine Keeps.same ?_ rfl
    | dsimp only)

theorem keep_dropChain (id : Nat) {a s : State} (h : Keeps a s) : Keeps a (dropChain id s) := by
  unfold dropChain
  try dsimp only
  repeat' (first
    | with_reducible assumption
    | with_reducible refine Keeps.of1 ‹_› ?_
    | with_reducible refine Keeps.of2 ‹_› ?_
    | split
    | with_reducible refine Keeps.same ?_ rfl
    | dsimp only)

theorem keep_dropQueued (c : Chain) {a s : State} (h : Keeps a s) : Keeps a (dropQueued c s) := by
  unfold dropQueued
  try dsimp only
  repeat' (first
    | with_reducible assumption
    | with_reducible refine keep_setLode _ _ ?_
    | with_reducible refine keep_setEngine _ _ ?_
    | with_reducible refine Keeps.of1 ‹_› ?_
    | with_reducible refine Keeps.of2 ‹_› ?_
    | split
    | with_reducible refine Keeps.same ?_ rfl
    | dsimp only)

theorem keep_endChain (id : Nat) (st : Nat) (idx : Nat) (done : Nat) (w2 : Nat) {a s : State} (h : Keeps a s) : Keeps a (endChain id st idx done w2 s) := by
  unfold endChain
  try dsimp only
  repeat' (first
    | with_reducible assumption
    | with_reducible refine keep_finish _ _ _ _ _ _ ?_
    | with_reducible refine keep_dropChain _ ?_
    | with_reducible refine keep_dropQueued _ ?_
    | with_reducible refine Keeps.of1 ‹_› ?_
    | with_reducible refine Keeps.of2 ‹_› ?_
    | split
    | with_reducible refine Keeps.same ?_ rfl
    | dsimp only)

theorem keep_stopChain (id : Nat) (st : Nat) (idx : Nat) (w2 : Nat) {a s : State} (h : Keeps a s) : Keeps a (stopChain id st idx w2 s) := by
  unfold stopChain
  try dsimp only
  repeat' (first
    | with_reducible assumption
    | with_reducible refine keep_modChainBy _ _ ?_
    | with_reducible refine Keeps.of1 ‹_› ?_
    | with_reducible refine Keeps.of2 ‹_› ?_
    | split
    | with_reducible refine Keeps.same ?_ rfl
    | dsimp only)

theorem keep_settleChain (id : Nat) {a s : State} (h : Keeps a s) : Keeps a (settleChain id s) := by
  unfold settleChain
  try dsimp only
  repeat' (first
    | with_reducible assumption
    | with_reducible refine keep_count _ _ _ _ ?_
    | with_reducible refine keep_finish _ _ _ _ _ _ ?_
    | with_reducible refine keep_dropChain _ ?_
    | with_reducible refine Keeps.of1 ‹_› ?_
    | with_reducible refine Keeps.of2 ‹_› ?_
    | split
    | with_reducible refine Keeps.same ?_ rfl
    | dsimp only)

theorem keep_offerNext (moves : Bool) (unit : Nat) {a s : State} (h : Keeps a s) : Keeps a (offerNext moves unit s) := by
  unfold offerNext
  try dsimp only
  repeat' (first
    | with_reducible assumption
    | with_reducible refine keep_count _ _ _ _ ?_
    | with_reducible refine keep_setLode _ _ ?_
    | with_reducible refine keep_setEngine _ _ ?_
    | with_reducible refine keep_readMem _ _ ?_
    | with_reducible refine keep_modChainBy _ _ ?_
    | with_reducible refine keep_stopChain _ _ _ _ ?_
    | with_reducible refine keep_settleChain _ ?_
    | with_reducible refine Keeps.of1 ‹_› ?_
    | with_reducible refine Keeps.of2 ‹_› ?_
    | split
    | with_reducible refine Keeps.same ?_ rfl
    | dsimp only)

theorem keep_offerChains (moves : Bool) (unit : Nat) {a s : State} (h : Keeps a s) : Keeps a (offerChains moves unit s) := by
  unfold offerChains
  try dsimp only
  repeat' (first
    | with_reducible assumption
    | with_reducible refine keep_offerNext _ _ ?_
    | with_reducible refine Keeps.foldl (fun s x h => ?_) _ ?_
    | with_reducible refine Keeps.of1 ‹_› ?_
    | with_reducible refine Keeps.of2 ‹_› ?_
    | split
    | with_reducible refine Keeps.same ?_ rfl
    | dsimp only)

theorem keep_offerTaken (k : Nat) (dmv : Bool) {a s : State} (h : Keeps a s) : Keeps a (offerTaken k dmv s) := by
  unfold offerTaken
  try dsimp only
  repeat' (first
    | with_reducible assumption
    | with_reducible refine keep_setCore _ _ ?_
    | with_reducible refine Keeps.of1 ‹_› ?_
    | with_reducible refine Keeps.of2 ‹_› ?_
    | split
    | with_reducible refine Keeps.same ?_ rfl
    | dsimp only)

theorem keep_enqueueAt (n : Nat) (pos : Nat) {a s : State} (h : Keeps a s) : Keeps a (enqueueAt n pos s) := by
  unfold enqueueAt
  try dsimp only
  repeat' (first
    | with_reducible assumption
    | with_reducible refine keep_setEngine _ _ ?_
    | with_reducible refine keep_offerChains _ _ ?_
    | with_reducible refine keep_offerTaken _ _ ?_
    | with_reducible refine Keeps.of1 ‹_› ?_
    | with_reducible refine Keeps.of2 ‹_› ?_
    | split
    | with_reducible refine Keeps.same ?_ rfl
    | dsimp only)

theorem keep_ctlOffer (n : Nat) (d : Option Bytes) {a s : State} (h : Keeps a s) : Keeps a (ctlOffer n d s) := by
  unfold ctlOffer
  try dsimp only
  repeat' (first
    | with_reducible assumption
    | with_reducible refine keep_setEngine _ _ ?_
    | with_reducible refine Keeps.of1 ‹_› ?_
    | with_reducible refine Keeps.of2 ‹_› ?_
    | split
    | with_reducible refine Keeps.same ?_ rfl
    | dsimp only)

theorem keep_execModEnqueue (q : Enqueue) {s s' : State} (h : execModEnqueue q s = .next s') : Keeps s s' := by
  unfold execModEnqueue at h
  refine keep_run (fun s h => ?_) h
  try dsimp only
  repeat' (first
    | with_reducible assumption
    | with_reducible refine keep_enqueueAt _ _ ?_
    | with_reducible refine keep_ctlOffer _ _ ?_
    | with_reducible refine Keeps.foldl (fun s x h => ?_) _ ?_
    | with_reducible refine Keeps.of1 ‹_› ?_
    | with_reducible refine Keeps.of2 ‹_› ?_
    | split
    | with_reducible refine Keeps.same ?_ rfl
    | dsimp only)

theorem keep_readSlices (n : Nat) (m : MF) {a s : State} (h : Keeps a s) : Keeps a (readSlices s n m).1 := by
  unfold readSlices
  try dsimp only
  repeat' (first
    | with_reducible assumption
    | with_reducible refine keep_readMem _ _ ?_
    | with_reducible refine Keeps.of1 ‹_› ?_
    | with_reducible refine Keeps.of2 ‹_› ?_
    | split
    | with_reducible refine Keeps.same ?_ rfl
    | dsimp only)

theorem keep_seedOf (need : Bool) (o : Nat) {a s : State} (h : Keeps a s) : Keeps a (seedOf s need o).1 := by
  unfold seedOf
  try dsimp only
  repeat' (first
    | with_reducible assumption
    | with_reducible refine keep_readMem _ _ ?_
    | with_reducible refine Keeps.of1 ‹_› ?_
    | with_reducible refine Keeps.of2 ‹_› ?_
    | split
    | with_reducible refine Keeps.same ?_ rfl
    | dsimp only)

theorem keep_arithEv (n : Nat) (fl : Nat) {a s : State} (h : Keeps a s) : Keeps a (arithEv n fl s) := by
  unfold arithEv
  try dsimp only
  repeat' (first
    | with_reducible assumption
    | with_reducible refine keep_orReg _ _ _ _ ?_
    | with_reducible refine Keeps.of1 ‹_› ?_
    | with_reducible refine Keeps.of2 ‹_› ?_
    | split
    | with_reducible refine Keeps.same ?_ rfl
    | dsimp only)

theorem keep_runOp (n : Nat) (o : EngOp) {a s : State} (h : Keeps a s) : Keeps a (runOp n o s) := by
  unfold runOp
  try dsimp only
  repeat' (first
    | with_reducible assumption
    | with_reducible refine keep_setEngine _ _ ?_
    | with_reducible refine Keeps.of1 ‹_› ?_
    | with_reducible refine Keeps.of2 ‹_› ?_
    | split
    | with_reducible refine Keeps.same ?_ rfl
    | dsimp only)

theorem keep_beginSums (n : Nat) (m : MF) (es : List Slice) (seedAt : Nat) (o : EngOp) {a s : State} (h : Keeps a s) : Keeps a (beginSums n m es seedAt o s) := by
  unfold beginSums
  try dsimp only
  repeat' (first
    | with_reducible assumption
    | with_reducible refine keep_setEngine _ _ ?_
    | with_reducible refine keep_runWalk _ _ _ _ ?_
    | with_reducible refine keep_seedOf _ _ ?_
    | with_reducible refine keep_arithEv _ _ ?_
    | with_reducible refine keep_runOp _ _ ?_
    | with_reducible refine Keeps.of1 ‹_› ?_
    | with_reducible refine Keeps.of2 ‹_› ?_
    | split
    | with_reducible refine Keeps.same ?_ rfl
    | dsimp only)

theorem keep_beginScan (n : Nat) (m : MF) (o : EngOp) {a s : State} (h : Keeps a s) : Keeps a (beginScan n m o s) := by
  unfold beginScan
  try dsimp only
  repeat' (first
    | with_reducible assumption
    | with_reducible refine keep_readStrata _ ?_
    | with_reducible refine keep_arithEv _ _ ?_
    | with_reducible refine keep_runOp _ _ ?_
    | with_reducible refine Keeps.of1 ‹_› ?_
    | with_reducible refine Keeps.of2 ‹_› ?_
    | split
    | with_reducible refine Keeps.same ?_ rfl
    | dsimp only)

theorem keep_beginTrans (n : Nat) (m : MF) (o : EngOp) {a s : State} (h : Keeps a s) : Keeps a (beginTrans n m o s) := by
  unfold beginTrans
  try dsimp only
  repeat' (first
    | with_reducible assumption
    | with_reducible refine keep_transRun _ _ _ ?_
    | with_reducible refine keep_seedOf _ _ ?_
    | with_reducible refine keep_arithEv _ _ ?_
    | with_reducible refine keep_runOp _ _ ?_
    | with_reducible refine Keeps.of1 ‹_› ?_
    | with_reducible refine Keeps.of2 ‹_› ?_
    | split
    | with_reducible refine Keeps.same ?_ rfl
    | dsimp only)

theorem keep_takeHead (n : Nat) (d : Mod) (rest : List Mod) {a s : State} (h : Keeps a s) : Keeps a (takeHead n d rest s) := by
  unfold takeHead
  try dsimp only
  repeat' (first
    | with_reducible assumption
    | with_reducible refine keep_orReg _ _ _ _ ?_
    | with_reducible refine keep_setEngine _ _ ?_
    | with_reducible refine keep_lodeTrace _ _ _ _ _ ?_
    | with_reducible refine Keeps.of1 ‹_› ?_
    | with_reducible refine Keeps.of2 ‹_› ?_
    | split
    | with_reducible refine Keeps.same ?_ rfl
    | dsimp only)

theorem keep_failOp (n : Nat) (o : EngOp) (st : Nat) (f : Nat) {a s : State} (h : Keeps a s) : Keeps a (failOp n o st f s) := by
  unfold failOp
  try dsimp only
  repeat' (first
    | with_reducible assumption
    | with_reducible refine keep_addrDenied _ ?_
    | with_reducible refine keep_tableErr ?_
    | with_reducible refine keep_runOp _ _ ?_
    | with_reducible refine Keeps.of1 ‹_› ?_
    | with_reducible refine Keeps.of2 ‹_› ?_
    | split
    | with_reducible refine Keeps.same ?_ rfl
    | dsimp only)

theorem keep_endKept (n : Nat) (m : MF) {a s : State} (h : Keeps a s) : Keeps a (endKept n m s) := by
  unfold endKept
  try dsimp only
  repeat' (first
    | with_reducible assumption
    | with_reducible refine keep_setEngine _ _ ?_
    | with_reducible refine Keeps.of1 ‹_› ?_
    | with_reducible refine Keeps.of2 ‹_› ?_
    | split
    | with_reducible refine Keeps.same ?_ rfl
    | dsimp only)

theorem keep_beginOp (n : Nat) (m : MF) (o : EngOp) {a s : State} (h : Keeps a s) : Keeps a (beginOp n m o s) := by
  unfold beginOp
  try dsimp only
  repeat' (first
    | with_reducible assumption
    | with_reducible refine keep_readSlices _ _ ?_
    | with_reducible refine keep_runOp _ _ ?_
    | with_reducible refine keep_beginSums _ _ _ _ _ ?_
    | with_reducible refine keep_beginScan _ _ _ ?_
    | with_reducible refine keep_beginTrans _ _ _ ?_
    | with_reducible refine keep_failOp _ _ _ _ ?_
    | with_reducible refine keep_endKept _ _ ?_
    | with_reducible refine Keeps.of1 ‹_› ?_
    | with_reducible refine Keeps.of2 ‹_› ?_
    | split
    | with_reducible refine Keeps.same ?_ rfl
    | dsimp only)

theorem keep_acceptHead (n : Nat) (mine : Nat → Bool) {a s : State} (h : Keeps a s) : Keeps a (acceptHead n mine s) := by
  unfold acceptHead
  try dsimp only
  repeat' (first
    | with_reducible assumption
    | with_reducible refine keep_wakeRows _ ?_
    | with_reducible refine keep_takeHead _ _ _ ?_
    | with_reducible refine keep_failOp _ _ _ _ ?_
    | with_reducible refine keep_beginOp _ _ _ ?_
    | with_reducible refine Keeps.foldl (fun s x h => ?_) _ ?_
    | with_reducible refine Keeps.of1 ‹_› ?_
    | with_reducible refine Keeps.of2 ‹_› ?_
    | split
    | with_reducible refine Keeps.same ?_ rfl
    | dsimp only)

theorem keep_execModNop (n : Nat) {s s' : State} (h : execModNop n s = .next s') : Keeps s s' := by
  unfold execModNop at h
  refine keep_run (fun s h => ?_) h
  try dsimp only
  repeat' (first
    | with_reducible assumption
    | with_reducible refine keep_acceptHead _ _ ?_
    | with_reducible refine Keeps.of1 ‹_› ?_
    | with_reducible refine Keeps.of2 ‹_› ?_
    | split
    | with_reducible refine Keeps.same ?_ rfl
    | dsimp only)

theorem keep_execMatmul (n : Nat) {s s' : State} (h : execMatmul n s = .next s') : Keeps s s' := by
  unfold execMatmul at h
  refine keep_run (fun s h => ?_) h
  try dsimp only
  repeat' (first
    | with_reducible assumption
    | with_reducible refine keep_acceptHead _ _ ?_
    | with_reducible refine Keeps.of1 ‹_› ?_
    | with_reducible refine Keeps.of2 ‹_› ?_
    | split
    | with_reducible refine Keeps.same ?_ rfl
    | dsimp only)

theorem keep_execGrouped (n : Nat) {s s' : State} (h : execGrouped n s = .next s') : Keeps s s' := by
  unfold execGrouped at h
  refine keep_run (fun s h => ?_) h
  try dsimp only
  repeat' (first
    | with_reducible assumption
    | with_reducible refine keep_acceptHead _ _ ?_
    | with_reducible refine Keeps.of1 ‹_› ?_
    | with_reducible refine Keeps.of2 ‹_› ?_
    | split
    | with_reducible refine Keeps.same ?_ rfl
    | dsimp only)

theorem keep_execRangeScan (n : Nat) {s s' : State} (h : execRangeScan n s = .next s') : Keeps s s' := by
  unfold execRangeScan at h
  refine keep_run (fun s h => ?_) h
  try dsimp only
  repeat' (first
    | with_reducible assumption
    | with_reducible refine keep_acceptHead _ _ ?_
    | with_reducible refine Keeps.of1 ‹_› ?_
    | with_reducible refine Keeps.of2 ‹_› ?_
    | split
    | with_reducible refine Keeps.same ?_ rfl
    | dsimp only)

theorem keep_execTransposeLoad (n : Nat) {s s' : State} (h : execTransposeLoad n s = .next s') : Keeps s s' := by
  unfold execTransposeLoad at h
  refine keep_run (fun s h => ?_) h
  try dsimp only
  repeat' (first
    | with_reducible assumption
    | with_reducible refine keep_acceptHead _ _ ?_
    | with_reducible refine Keeps.of1 ‹_› ?_
    | with_reducible refine Keeps.of2 ‹_› ?_
    | split
    | with_reducible refine Keeps.same ?_ rfl
    | dsimp only)

theorem keep_writeRows (m : MF) (seed : Bytes) {a : State} : ∀ (y0 : List TRow) (y1 : Nat) {s : State}, Keeps a s → Keeps a (writeRows m seed y0 y1 s).1
  | [], fl, s, h => by
    unfold writeRows
    try dsimp only
    repeat' (first
      | with_reducible assumption
      | with_reducible refine keep_writeRows _ _ _ _ ?_
      | with_reducible refine keep_writePieces _ ?_
      | with_reducible refine Keeps.of1 ‹_› ?_
      | with_reducible refine Keeps.of2 ‹_› ?_
      | split
      | with_reducible refine Keeps.same ?_ rfl
      | dsimp only)
  | r :: t, fl, s, h => by
    unfold writeRows
    try dsimp only
    repeat' (first
      | with_reducible assumption
      | with_reducible refine keep_writeRows _ _ _ _ ?_
      | with_reducible refine keep_writePieces _ ?_
      | with_reducible refine Keeps.of1 ‹_› ?_
      | with_reducible refine Keeps.of2 ‹_› ?_
      | split
      | with_reducible refine Keeps.same ?_ rfl
      | dsimp only)

theorem keep_endUe (n : Nat) (o : EngOp) (cw : Nat) {a s : State} (h : Keeps a s) : Keeps a (endUe n o cw s) := by
  unfold endUe
  try dsimp only
  repeat' (first
    | with_reducible assumption
    | with_reducible refine keep_setEngine _ _ ?_
    | with_reducible refine Keeps.of1 ‹_› ?_
    | with_reducible refine Keeps.of2 ‹_› ?_
    | split
    | with_reducible refine Keeps.same ?_ rfl
    | dsimp only)

theorem keep_execEngineDrainStart (n : Nat) {s s' : State} (h : execEngineDrainStart n s = .next s') : Keeps s s' := by
  unfold execEngineDrainStart at h
  refine keep_run (fun s h => ?_) h
  try dsimp only
  repeat' (first
    | with_reducible assumption
    | with_reducible refine keep_setEngine _ _ ?_
    | with_reducible refine keep_arithEv _ _ ?_
    | with_reducible refine keep_writeRows _ _ _ _ ?_
    | with_reducible refine Keeps.of1 ‹_› ?_
    | with_reducible refine Keeps.of2 ‹_› ?_
    | split
    | with_reducible refine Keeps.same ?_ rfl
    | dsimp only)

theorem keep_execEngineOperandUe (n : Nat) (rows : Nat) {s s' : State} (h : execEngineOperandUe n rows s = .next s') : Keeps s s' := by
  unfold execEngineOperandUe at h
  refine keep_run (fun s h => ?_) h
  try dsimp only
  repeat' (first
    | with_reducible assumption
    | with_reducible refine keep_writePieces _ ?_
    | with_reducible refine keep_arithEv _ _ ?_
    | with_reducible refine keep_writeRows _ _ _ _ ?_
    | with_reducible refine keep_endUe _ _ _ ?_
    | with_reducible refine Keeps.of1 ‹_› ?_
    | with_reducible refine Keeps.of2 ‹_› ?_
    | split
    | with_reducible refine Keeps.same ?_ rfl
    | dsimp only)

theorem keep_execEngineRmwUe (n : Nat) {s s' : State} (h : execEngineRmwUe n s = .next s') : Keeps s s' := by
  unfold execEngineRmwUe at h
  refine keep_run (fun s h => ?_) h
  try dsimp only
  repeat' (first
    | with_reducible assumption
    | with_reducible refine keep_endUe _ _ _ ?_
    | with_reducible refine Keeps.of1 ‹_› ?_
    | with_reducible refine Keeps.of2 ‹_› ?_
    | split
    | with_reducible refine Keeps.same ?_ rfl
    | dsimp only)

theorem keep_chainStep (ch : Option (Nat × Nat)) (st : Nat) (shape : Nat) {a s : State} (h : Keeps a s) : Keeps a (chainStep ch st shape s) := by
  unfold chainStep
  try dsimp only
  repeat' (first
    | with_reducible assumption
    | with_reducible refine keep_modChainBy _ _ ?_
    | with_reducible refine keep_dropQueued _ ?_
    | with_reducible refine keep_stopChain _ _ _ _ ?_
    | with_reducible refine keep_settleChain _ ?_
    | with_reducible refine keep_offerChains _ _ ?_
    | with_reducible refine Keeps.of1 ‹_› ?_
    | with_reducible refine Keeps.of2 ‹_› ?_
    | split
    | with_reducible refine Keeps.same ?_ rfl
    | dsimp only)

theorem keep_engErr (n : Nat) (st : Nat) {a s : State} (h : Keeps a s) : Keeps a (engErr n st s) := by
  unfold engErr
  try dsimp only
  repeat' (first
    | with_reducible assumption
    | with_reducible refine keep_orReg _ _ _ _ ?_
    | with_reducible refine keep_sticky _ _ _ _ _ ?_
    | with_reducible refine Keeps.of1 ‹_› ?_
    | with_reducible refine Keeps.of2 ‹_› ?_
    | split
    | with_reducible refine Keeps.same ?_ rfl
    | dsimp only)

theorem keep_engRegs (n : Nat) (o : EngOp) (cycles : Nat) {a s : State} (h : Keeps a s) : Keeps a (engRegs n o cycles s) := by
  unfold engRegs
  try dsimp only
  repeat' (first
    | with_reducible assumption
    | with_reducible refine keep_setReg _ _ _ _ ?_
    | with_reducible refine keep_count _ _ _ _ ?_
    | with_reducible refine Keeps.of1 ‹_› ?_
    | with_reducible refine Keeps.of2 ‹_› ?_
    | split
    | with_reducible refine Keeps.same ?_ rfl
    | dsimp only)

theorem keep_engRecord (n : Nat) (o : EngOp) (cycles : Nat) {a s : State} (h : Keeps a s) : Keeps a (engRecord n o cycles s) := by
  unfold engRecord
  try dsimp only
  repeat' (first
    | with_reducible assumption
    | with_reducible refine keep_writeMem _ _ ?_
    | with_reducible refine Keeps.of1 ‹_› ?_
    | with_reducible refine Keeps.of2 ‹_› ?_
    | split
    | with_reducible refine Keeps.same ?_ rfl
    | dsimp only)

theorem keep_completeOp (n : Nat) (o : EngOp) (cycles : Nat) {a s : State} (h : Keeps a s) : Keeps a (completeOp n o cycles s) := by
  unfold completeOp
  try dsimp only
  repeat' (first
    | with_reducible assumption
    | with_reducible refine keep_setEngine _ _ ?_
    | with_reducible refine keep_sendSig _ _ _ _ _ ?_
    | with_reducible refine keep_lodeTrace _ _ _ _ _ ?_
    | with_reducible refine keep_holdReplies ?_
    | with_reducible refine keep_chainStep _ _ _ ?_
    | with_reducible refine keep_engErr _ _ ?_
    | with_reducible refine keep_engRegs _ _ _ ?_
    | with_reducible refine keep_engRecord _ _ _ ?_
    | with_reducible refine Keeps.of1 ‹_› ?_
    | with_reducible refine Keeps.of2 ‹_› ?_
    | split
    | with_reducible refine Keeps.same ?_ rfl
    | dsimp only)

theorem keep_execEngineOpComplete (n : Nat) (cycles : Nat) {s s' : State} (h : execEngineOpComplete n cycles s = .next s') : Keeps s s' := by
  unfold execEngineOpComplete at h
  refine keep_run (fun s h => ?_) h
  try dsimp only
  repeat' (first
    | with_reducible assumption
    | with_reducible refine keep_setEngine _ _ ?_
    | with_reducible refine keep_writePieces _ ?_
    | with_reducible refine keep_completeOp _ _ _ ?_
    | with_reducible refine Keeps.of1 ‹_› ?_
    | with_reducible refine Keeps.of2 ‹_› ?_
    | split
    | with_reducible refine Keeps.same ?_ rfl
    | dsimp only)

theorem keep_meCtrlWrite (who : Nat) (n : Nat) (val : Nat) {a s : State} (h : Keeps a s) : Keeps a (meCtrlWrite who n val s) := by
  unfold meCtrlWrite
  try dsimp only
  repeat' (first
    | with_reducible assumption
    | with_reducible refine keep_setField _ _ _ _ _ _ ?_
    | with_reducible refine keep_setEngine _ _ ?_
    | with_reducible refine keep_instWrite _ _ _ (fun _ h => ?_) ?_
    | with_reducible refine keep_holdReplies ?_
    | with_reducible refine Keeps.of1 ‹_› ?_
    | with_reducible refine Keeps.of2 ‹_› ?_
    | split
    | with_reducible refine Keeps.same ?_ rfl
    | dsimp only)

theorem keep_execQuiesceWrite (who : Nat) (n : Nat) (val : Word) {s s' : State} (h : execQuiesceWrite who n val s = .next s') : Keeps s s' := by
  unfold execQuiesceWrite at h
  refine keep_run (fun s h => ?_) h
  try dsimp only
  repeat' (first
    | with_reducible assumption
    | with_reducible refine keep_meCtrlWrite _ _ _ ?_
    | with_reducible refine Keeps.of1 ‹_› ?_
    | with_reducible refine Keeps.of2 ‹_› ?_
    | split
    | with_reducible refine Keeps.same ?_ rfl
    | dsimp only)

theorem keep_execDropResident (who : Nat) (n : Nat) (val : Word) {s s' : State} (h : execDropResident who n val s = .next s') : Keeps s s' := by
  unfold execDropResident at h
  refine keep_run (fun s h => ?_) h
  try dsimp only
  repeat' (first
    | with_reducible assumption
    | with_reducible refine keep_onlyIf _ _ (fun _ h => ?_) ?_
    | with_reducible refine keep_meCtrlWrite _ _ _ ?_
    | with_reducible refine Keeps.of1 ‹_› ?_
    | with_reducible refine Keeps.of2 ‹_› ?_
    | split
    | with_reducible refine Keeps.same ?_ rfl
    | dsimp only)

end Sys2Proof.Machine
end

