-- ==== Sys2Proof/Laws/KeepMover.lean ====
section
/-! SUPPORT. What the operations of Machine/Mover.lean keep: soundness, the queue, the draws, the wire. -/
namespace Sys2Proof.Machine

open Sys2Proof

theorem keep_imemWrites {a : State} : ∀ (y0 : List (Nat × Bytes)) {s : State}, Keeps a s → Keeps a (imemWrites y0 s).1
  | [], s, h => by
    unfold imemWrites
    try dsimp only
    repeat' (first
      | with_reducible assumption
      | with_reducible refine keep_imemWrites _ ?_
      | with_reducible refine keep_orReg _ _ _ _ ?_
      | with_reducible refine keep_cwWrite _ _ ?_
      | with_reducible refine Keeps.of1 ‹_› ?_
      | with_reducible refine Keeps.of2 ‹_› ?_
      | split
      | with_reducible refine Keeps.same ?_ rfl
      | dsimp only)
  | (a', bs) :: t, s, h => by
    unfold imemWrites
    try dsimp only
    repeat' (first
      | with_reducible assumption
      | with_reducible refine keep_imemWrites _ ?_
      | with_reducible refine keep_orReg _ _ _ _ ?_
      | with_reducible refine keep_cwWrite _ _ ?_
      | with_reducible refine Keeps.of1 ‹_› ?_
      | with_reducible refine Keeps.of2 ‹_› ?_
      | split
      | with_reducible refine Keeps.same ?_ rfl
      | dsimp only)

theorem keep_devWrite (a' : Nat) (bs : Bytes) {a s : State} (h : Keeps a s) : Keeps a (devWrite a' bs s).1 := by
  unfold devWrite
  try dsimp only
  repeat' (first
    | with_reducible assumption
    | with_reducible refine keep_writeMem _ _ ?_
    | with_reducible refine keep_imemWrites _ ?_
    | with_reducible refine Keeps.of1 ‹_› ?_
    | with_reducible refine Keeps.of2 ‹_› ?_
    | split
    | with_reducible refine Keeps.same ?_ rfl
    | dsimp only)

theorem keep_lineWrite (a' : Nat) (bs : Bytes) {a s : State} (h : Keeps a s) : Keeps a (lineWrite a' bs s).1 := by
  unfold lineWrite
  try dsimp only
  repeat' (first
    | with_reducible assumption
    | with_reducible refine keep_cwReadAs _ _ ?_
    | with_reducible refine keep_devWrite _ _ ?_
    | with_reducible refine Keeps.of1 ‹_› ?_
    | with_reducible refine Keeps.of2 ‹_› ?_
    | split
    | with_reducible refine Keeps.same ?_ rfl
    | dsimp only)

theorem keep_mvData (m : MvF) (row : Nat) (o : Nat) (k : Nat) {a s : State} (h : Keeps a s) : Keeps a (mvData m row o k s).1 := by
  unfold mvData
  try dsimp only
  repeat' (first
    | with_reducible assumption
    | with_reducible refine keep_readMem _ _ ?_
    | with_reducible refine Keeps.of1 ‹_› ?_
    | with_reducible refine Keeps.of2 ‹_› ?_
    | split
    | with_reducible refine Keeps.same ?_ rfl
    | dsimp only)

theorem keep_mvRun (m : MvF) {a : State} : ∀ (y0 : Nat) (y1 : Nat) (y2 : Nat) (y3 : Nat) {s : State}, Keeps a s → Keeps a (mvRun m y0 y1 y2 y3 s).1
  | 0, _, _, n, s, h => by
    unfold mvRun
    try dsimp only
    repeat' (first
      | with_reducible assumption
      | with_reducible refine keep_mvRun _ _ _ _ _ ?_
      | with_reducible refine keep_lineWrite _ _ ?_
      | with_reducible refine keep_mvData _ _ _ _ ?_
      | with_reducible refine Keeps.of1 ‹_› ?_
      | with_reducible refine Keeps.of2 ‹_› ?_
      | split
      | with_reducible refine Keeps.same ?_ rfl
      | dsimp only)
  | f + 1, row, o, n, s, h => by
    unfold mvRun
    try dsimp only
    repeat' (first
      | with_reducible assumption
      | with_reducible refine keep_mvRun _ _ _ _ _ ?_
      | with_reducible refine keep_lineWrite _ _ ?_
      | with_reducible refine keep_mvData _ _ _ _ ?_
      | with_reducible refine Keeps.of1 ‹_› ?_
      | with_reducible refine Keeps.of2 ‹_› ?_
      | split
      | with_reducible refine Keeps.same ?_ rfl
      | dsimp only)

theorem keep_setMover (n : Nat) (m : Nat) (o : Option MoveOp) {a s : State} (h : Keeps a s) : Keeps a (setMover n m o s) := by
  unfold setMover
  try dsimp only
  repeat' (first
    | with_reducible assumption
    | with_reducible refine keep_setLode _ _ ?_
    | with_reducible refine Keeps.of1 ‹_› ?_
    | with_reducible refine Keeps.of2 ‹_› ?_
    | split
    | with_reducible refine Keeps.same ?_ rfl
    | dsimp only)

theorem keep_ctlMove (n : Nat) (d : Option Bytes) {a s : State} (h : Keeps a s) : Keeps a (ctlMove n d s) := by
  unfold ctlMove
  try dsimp only
  repeat' (first
    | with_reducible assumption
    | with_reducible refine keep_setLode _ _ ?_
    | with_reducible refine Keeps.of1 ‹_› ?_
    | with_reducible refine Keeps.of2 ‹_› ?_
    | split
    | with_reducible refine Keeps.same ?_ rfl
    | dsimp only)

theorem keep_moveIn (n : Nat) {a s : State} (h : Keeps a s) : Keeps a (moveIn n s) := by
  unfold moveIn
  try dsimp only
  repeat' (first
    | with_reducible assumption
    | with_reducible refine keep_setLode _ _ ?_
    | with_reducible refine keep_offerChains _ _ ?_
    | with_reducible refine keep_offerTaken _ _ ?_
    | with_reducible refine Keeps.of1 ‹_› ?_
    | with_reducible refine Keeps.of2 ‹_› ?_
    | split
    | with_reducible refine Keeps.same ?_ rfl
    | dsimp only)

theorem keep_execMoveEnqueue (q : Enqueue) {s s' : State} (h : execMoveEnqueue q s = .next s') : Keeps s s' := by
  unfold execMoveEnqueue at h
  refine keep_run (fun s h => ?_) h
  try dsimp only
  repeat' (first
    | with_reducible assumption
    | with_reducible refine keep_ctlMove _ _ ?_
    | with_reducible refine keep_moveIn _ ?_
    | with_reducible refine Keeps.of1 ‹_› ?_
    | with_reducible refine Keeps.of2 ‹_› ?_
    | split
    | with_reducible refine Keeps.same ?_ rfl
    | dsimp only)

theorem keep_takeMove (n : Nat) (d : Move) (rest : List Move) {a s : State} (h : Keeps a s) : Keeps a (takeMove n d rest s) := by
  unfold takeMove
  try dsimp only
  repeat' (first
    | with_reducible assumption
    | with_reducible refine keep_orReg _ _ _ _ ?_
    | with_reducible refine keep_setLode _ _ ?_
    | with_reducible refine Keeps.of1 ‹_› ?_
    | with_reducible refine Keeps.of2 ‹_› ?_
    | split
    | with_reducible refine Keeps.same ?_ rfl
    | dsimp only)

theorem keep_runMove (n : Nat) (m : Nat) (o : MoveOp) {a s : State} (h : Keeps a s) : Keeps a (runMove n m o s) := by
  unfold runMove
  try dsimp only
  repeat' (first
    | with_reducible assumption
    | with_reducible refine keep_mvRun _ _ _ _ _ ?_
    | with_reducible refine keep_setMover _ _ _ ?_
    | with_reducible refine Keeps.of1 ‹_› ?_
    | with_reducible refine Keeps.of2 ‹_› ?_
    | split
    | with_reducible refine Keeps.same ?_ rfl
    | dsimp only)

theorem keep_dispatchMove (n : Nat) (mine : Nat → Bool) {a s : State} (h : Keeps a s) : Keeps a (dispatchMove n mine s) := by
  unfold dispatchMove
  try dsimp only
  repeat' (first
    | with_reducible assumption
    | with_reducible refine keep_refuseOf _ _ ?_
    | with_reducible refine keep_wakeRows _ ?_
    | with_reducible refine keep_setMover _ _ _ ?_
    | with_reducible refine keep_takeMove _ _ _ ?_
    | with_reducible refine keep_runMove _ _ _ ?_
    | with_reducible refine Keeps.of1 ‹_› ?_
    | with_reducible refine Keeps.of2 ‹_› ?_
    | split
    | with_reducible refine Keeps.same ?_ rfl
    | dsimp only)

theorem keep_execMoveNop (n : Nat) {s s' : State} (h : execMoveNop n s = .next s') : Keeps s s' := by
  unfold execMoveNop at h
  refine keep_run (fun s h => ?_) h
  try dsimp only
  repeat' (first
    | with_reducible assumption
    | with_reducible refine keep_dispatchMove _ _ ?_
    | with_reducible refine Keeps.of1 ‹_› ?_
    | with_reducible refine Keeps.of2 ‹_› ?_
    | split
    | with_reducible refine Keeps.same ?_ rfl
    | dsimp only)

theorem keep_execMoveCopy (n : Nat) {s s' : State} (h : execMoveCopy n s = .next s') : Keeps s s' := by
  unfold execMoveCopy at h
  refine keep_run (fun s h => ?_) h
  try dsimp only
  repeat' (first
    | with_reducible assumption
    | with_reducible refine keep_dispatchMove _ _ ?_
    | with_reducible refine Keeps.of1 ‹_› ?_
    | with_reducible refine Keeps.of2 ‹_› ?_
    | split
    | with_reducible refine Keeps.same ?_ rfl
    | dsimp only)

theorem keep_execMoveFill (n : Nat) {s s' : State} (h : execMoveFill n s = .next s') : Keeps s s' := by
  unfold execMoveFill at h
  refine keep_run (fun s h => ?_) h
  try dsimp only
  repeat' (first
    | with_reducible assumption
    | with_reducible refine keep_dispatchMove _ _ ?_
    | with_reducible refine Keeps.of1 ‹_› ?_
    | with_reducible refine Keeps.of2 ‹_› ?_
    | split
    | with_reducible refine Keeps.same ?_ rfl
    | dsimp only)

theorem keep_execMoveSourceUe (n : Nat) (m : Nat) {s s' : State} (h : execMoveSourceUe n m s = .next s') : Keeps s s' := by
  unfold execMoveSourceUe at h
  refine keep_run (fun s h => ?_) h
  try dsimp only
  repeat' (first
    | with_reducible assumption
    | with_reducible refine keep_setMover _ _ _ ?_
    | with_reducible refine Keeps.of1 ‹_› ?_
    | with_reducible refine Keeps.of2 ‹_› ?_
    | split
    | with_reducible refine Keeps.same ?_ rfl
    | dsimp only)

theorem keep_mvErr (n : Nat) (st : Nat) {a s : State} (h : Keeps a s) : Keeps a (mvErr n st s) := by
  unfold mvErr
  try dsimp only
  repeat' (first
    | with_reducible assumption
    | with_reducible refine keep_sticky _ _ _ _ _ ?_
    | with_reducible refine Keeps.of1 ‹_› ?_
    | with_reducible refine Keeps.of2 ‹_› ?_
    | split
    | with_reducible refine Keeps.same ?_ rfl
    | dsimp only)

theorem keep_completeMove (n : Nat) (m : Nat) (o : MoveOp) {a s : State} (h : Keeps a s) : Keeps a (completeMove n m o s) := by
  unfold completeMove
  try dsimp only
  repeat' (first
    | with_reducible assumption
    | with_reducible refine keep_writeMem _ _ ?_
    | with_reducible refine keep_sendSig _ _ _ _ _ ?_
    | with_reducible refine keep_lodeTrace _ _ _ _ _ ?_
    | with_reducible refine keep_holdReplies ?_
    | with_reducible refine keep_chainStep _ _ _ ?_
    | with_reducible refine keep_setMover _ _ _ ?_
    | with_reducible refine keep_mvErr _ _ ?_
    | with_reducible refine Keeps.of1 ‹_› ?_
    | with_reducible refine Keeps.of2 ‹_› ?_
    | split
    | with_reducible refine Keeps.same ?_ rfl
    | dsimp only)

theorem keep_execMoveComplete (n : Nat) (m : Nat) {s s' : State} (h : execMoveComplete n m s = .next s') : Keeps s s' := by
  unfold execMoveComplete at h
  refine keep_run (fun s h => ?_) h
  try dsimp only
  repeat' (first
    | with_reducible assumption
    | with_reducible refine keep_completeMove _ _ _ ?_
    | with_reducible refine Keeps.of1 ‹_› ?_
    | with_reducible refine Keeps.of2 ‹_› ?_
    | split
    | with_reducible refine Keeps.same ?_ rfl
    | dsimp only)

end Sys2Proof.Machine
end

