-- ==== Sys2Proof/Laws/KeepStrata.lean ====
section
/-! SUPPORT. What the operations of Machine/Strata.lean keep: soundness, the queue, the draws, the wire. -/
namespace Sys2Proof.Machine

open Sys2Proof

theorem keep_lineAccess (n : Nat) (r : BankReq) {a s : State} (h : Keeps a s) : Keeps a (lineAccess n r s) := by
  unfold lineAccess
  have h2 := keep_readMem (lineAddr n r.line) 64 h
  generalize readMem s (lineAddr n r.line) 64 = q at h2
  obtain ⟨t, x⟩ := q
  generalize lineAddr n r.line = b
  split
  · cases x <;> exact h2.same rfl
  · split
    · exact keep_writeMem _ _ h
    · exact h

theorem keep_bankServe (n : Nat) (bank : Nat) (rs : List BankReq) {a s : State} (h : Keeps a s) : Keeps a (bankServe n bank rs s) := by
  unfold bankServe
  try dsimp only
  repeat' (first
    | with_reducible assumption
    | with_reducible refine keep_count _ _ _ _ ?_
    | with_reducible refine keep_setLode _ _ ?_
    | with_reducible refine keep_lineAccess _ _ ?_
    | with_reducible refine Keeps.of1 ‹_› ?_
    | with_reducible refine Keeps.of2 ‹_› ?_
    | split
    | with_reducible refine Keeps.same ?_ rfl
    | dsimp only)

theorem keep_execStrataBankAccess (n : Nat) (bank : Nat) (reqs : List BankReq) {s s' : State} (h : execStrataBankAccess n bank reqs s = .next s') : Keeps s s' := by
  unfold execStrataBankAccess at h
  refine keep_run (fun s h => ?_) h
  try dsimp only
  repeat' (first
    | with_reducible assumption
    | with_reducible refine keep_bankServe _ _ _ ?_
    | with_reducible refine Keeps.of1 ‹_› ?_
    | with_reducible refine Keeps.of2 ‹_› ?_
    | split
    | with_reducible refine Keeps.same ?_ rfl
    | dsimp only)

theorem keep_rewrite (cw : Nat) {a s : State} (h : Keeps a s) : Keeps a (rewrite cw s) := by
  unfold rewrite
  split
  · exact h.memory fun m b => ⟨m, twf_tdel _ _ b⟩
  · exact h.memory fun m b => ⟨twf_memWrite _ _ m, twf_tdel _ _ b⟩
  · exact h

theorem keep_scrubCw (cw : Nat) {a s : State} (h : Keeps a s) : Keeps a (scrubCw cw s) := by
  unfold scrubCw
  try dsimp only
  repeat' (first
    | with_reducible assumption
    | with_reducible refine keep_corrected _ ?_
    | with_reducible refine keep_uncorrectable _ _ ?_
    | with_reducible refine keep_rewrite _ ?_
    | with_reducible refine Keeps.of1 ‹_› ?_
    | with_reducible refine Keeps.of2 ‹_› ?_
    | split
    | with_reducible refine Keeps.same ?_ rfl
    | dsimp only)

theorem keep_patrolLine (n : Nat) {a s : State} (h : Keeps a s) : Keeps a (patrolLine n s) := by
  unfold patrolLine
  try dsimp only
  repeat' (first
    | with_reducible assumption
    | with_reducible refine keep_setLode _ _ ?_
    | with_reducible refine keep_scrubCw _ ?_
    | with_reducible refine Keeps.of1 ‹_› ?_
    | with_reducible refine Keeps.of2 ‹_› ?_
    | split
    | with_reducible refine Keeps.same ?_ rfl
    | dsimp only)

theorem keep_execStrataScrubRead (n : Nat) {s s' : State} (h : execStrataScrubRead n s = .next s') : Keeps s s' := by
  unfold execStrataScrubRead at h
  refine keep_run (fun s h => ?_) h
  try dsimp only
  repeat' (first
    | with_reducible assumption
    | with_reducible refine keep_setLode _ _ ?_
    | with_reducible refine keep_rewrite _ ?_
    | with_reducible refine keep_patrolLine _ ?_
    | with_reducible refine Keeps.of1 ‹_› ?_
    | with_reducible refine Keeps.of2 ‹_› ?_
    | split
    | with_reducible refine Keeps.same ?_ rfl
    | dsimp only)

end Sys2Proof.Machine
end

