-- ==== Sys2Proof/Laws/KeepNetOps.lean ====
section
/-! SUPPORT. What the operations of Machine/NetOps.lean keep: soundness, the queue, the draws, the wire. -/
namespace Sys2Proof.Machine

open Sys2Proof

theorem keep_setMac (m : Nat) (x : Mac) {a s : State} (h : Keeps a s) : Keeps a (State.setMac s m x) := by
  unfold State.setMac
  try dsimp only
  repeat' (first
    | with_reducible assumption
    | with_reducible refine Keeps.of1 ‹_› ?_
    | with_reducible refine Keeps.of2 ‹_› ?_
    | split
    | with_reducible refine Keeps.same ?_ rfl
    | dsimp only)

theorem keep_setStream (st : Nat) (x : Stream) {a s : State} (h : Keeps a s) : Keeps a (State.setStream s st x) := by
  unfold State.setStream
  try dsimp only
  repeat' (first
    | with_reducible assumption
    | with_reducible refine Keeps.of1 ‹_› ?_
    | with_reducible refine Keeps.of2 ‹_› ?_
    | split
    | with_reducible refine Keeps.same ?_ rfl
    | dsimp only)

theorem keep_setWq (q : Nat) (l : List WqE) {a s : State} (h : Keeps a s) : Keeps a (State.setWq s q l) := by
  unfold State.setWq
  try dsimp only
  repeat' (first
    | with_reducible assumption
    | with_reducible refine Keeps.of1 ‹_› ?_
    | with_reducible refine Keeps.of2 ‹_› ?_
    | split
    | with_reducible refine Keeps.same ?_ rfl
    | dsimp only)

theorem keep_pfc (m : Nat) (c : Nat) {a s : State} (h : Keeps a s) : Keeps a (pfc m c s) := by
  unfold pfc
  try dsimp only
  repeat' (first
    | with_reducible assumption
    | with_reducible refine keep_send _ ?_
    | with_reducible refine keep_setMac _ _ ?_
    | with_reducible refine Keeps.of1 ‹_› ?_
    | with_reducible refine Keeps.of2 ‹_› ?_
    | split
    | with_reducible refine Keeps.same ?_ rfl
    | dsimp only)

theorem keep_setPolicer (t : Nat) (x : Policer) {a s : State} (h : Keeps a s) : Keeps a (State.setPolicer s t x) := by
  unfold State.setPolicer
  try dsimp only
  repeat' (first
    | with_reducible assumption
    | with_reducible refine Keeps.of1 ‹_› ?_
    | with_reducible refine Keeps.of2 ‹_› ?_
    | split
    | with_reducible refine Keeps.same ?_ rfl
    | dsimp only)

theorem keep_police (t : Nat) (f : Bytes) {a s : State} (h : Keeps a s) : Keeps a (police t f s).1 := by
  unfold police
  try dsimp only
  repeat' (first
    | with_reducible assumption
    | with_reducible refine keep_setPolicer _ _ ?_
    | with_reducible refine Keeps.of1 ‹_› ?_
    | with_reducible refine Keeps.of2 ‹_› ?_
    | split
    | with_reducible refine Keeps.same ?_ rfl
    | dsimp only)

theorem keep_ringWrite (dst : Nat) (size : Nat) (x : Nat) (bs : Bytes) {a s : State} (h : Keeps a s) : Keeps a (ringWrite dst size x bs s) := by
  unfold ringWrite
  try dsimp only
  repeat' (first
    | with_reducible assumption
    | with_reducible refine keep_writeMem _ _ ?_
    | with_reducible refine Keeps.of1 ‹_› ?_
    | with_reducible refine Keeps.of2 ‹_› ?_
    | split
    | with_reducible refine Keeps.same ?_ rfl
    | dsimp only)

theorem keep_strmErrSet (st : Nat) (m : Nat) {a s : State} (h : Keeps a s) : Keeps a (strmErrSet st m s) := by
  unfold strmErrSet
  try dsimp only
  repeat' (first
    | with_reducible assumption
    | with_reducible refine keep_sticky _ _ _ _ _ ?_
    | with_reducible refine Keeps.of1 ‹_› ?_
    | with_reducible refine Keeps.of2 ‹_› ?_
    | split
    | with_reducible refine Keeps.same ?_ rfl
    | dsimp only)

theorem keep_strmDrop (st : Nat) {a s : State} (h : Keeps a s) : Keeps a (strmDrop st s) := by
  unfold strmDrop
  try dsimp only
  repeat' (first
    | with_reducible assumption
    | with_reducible refine keep_count _ _ _ _ ?_
    | with_reducible refine Keeps.of1 ‹_› ?_
    | with_reducible refine Keeps.of2 ‹_› ?_
    | split
    | with_reducible refine Keeps.same ?_ rfl
    | dsimp only)

theorem keep_dropWaiting (st : Nat) {a s : State} (h : Keeps a s) : Keeps a (dropWaiting st s) := by
  unfold dropWaiting
  try dsimp only
  repeat' (first
    | with_reducible assumption
    | with_reducible refine keep_count _ _ _ _ ?_
    | with_reducible refine keep_pfc _ _ ?_
    | with_reducible refine Keeps.foldl (fun s x h => ?_) _ ?_
    | with_reducible refine Keeps.of1 ‹_› ?_
    | with_reducible refine Keeps.of2 ‹_› ?_
    | split
    | with_reducible refine Keeps.same ?_ rfl
    | dsimp only)

theorem keep_closeStream (st : Nat) {a s : State} (h : Keeps a s) : Keeps a (closeStream st s) := by
  unfold closeStream
  try dsimp only
  repeat' (first
    | with_reducible assumption
    | with_reducible refine keep_setStream _ _ ?_
    | with_reducible refine keep_dropWaiting _ ?_
    | with_reducible refine Keeps.of1 ‹_› ?_
    | with_reducible refine Keeps.of2 ‹_› ?_
    | split
    | with_reducible refine Keeps.same ?_ rfl
    | dsimp only)

theorem keep_closeReply (id : Nat) (st : Nat) {a s : State} (h : Keeps a s) : Keeps a (closeReply id st s) := by
  unfold closeReply
  try dsimp only
  repeat' (first
    | with_reducible assumption
    | with_reducible refine keep_finish _ _ _ _ _ _ ?_
    | with_reducible refine Keeps.of1 ‹_› ?_
    | with_reducible refine Keeps.of2 ‹_› ?_
    | split
    | with_reducible refine Keeps.same ?_ rfl
    | dsimp only)

theorem keep_closeReady (st : Nat) {a s : State} (h : Keeps a s) : Keeps a (closeReady st s) := by
  unfold closeReady
  try dsimp only
  repeat' (first
    | with_reducible assumption
    | with_reducible refine keep_setStream _ _ ?_
    | with_reducible refine keep_closeStream _ ?_
    | with_reducible refine keep_closeReply _ _ ?_
    | with_reducible refine Keeps.of1 ‹_› ?_
    | with_reducible refine Keeps.of2 ‹_› ?_
    | split
    | with_reducible refine Keeps.same ?_ rfl
    | dsimp only)

end Sys2Proof.Machine
end

