-- ==== Sys2Proof/Laws/KeepStoOps.lean ====
section
/-! SUPPORT. What the operations of Machine/StoOps.lean keep: soundness, the queue, the draws, the wire. -/
namespace Sys2Proof.Machine

open Sys2Proof

theorem keep_setDrive (d : Nat) (x : Drive) {a s : State} (h : Keeps a s) : Keeps a (State.setDrive s d x) := by
  unfold State.setDrive
  try dsimp only
  repeat' (first
    | with_reducible assumption
    | with_reducible refine Keeps.of1 ‹_› ?_
    | with_reducible refine Keeps.of2 ‹_› ?_
    | split
    | with_reducible refine Keeps.same ?_ rfl
    | dsimp only)

theorem keep_setVol (v : Nat) (x : Vol) {a s : State} (h : Keeps a s) : Keeps a (State.setVol s v x) := by
  unfold State.setVol
  try dsimp only
  repeat' (first
    | with_reducible assumption
    | with_reducible refine Keeps.of1 ‹_› ?_
    | with_reducible refine Keeps.of2 ‹_› ?_
    | split
    | with_reducible refine Keeps.same ?_ rfl
    | dsimp only)

theorem keep_setStoQ (i : Nat) (x : StoQ) {a s : State} (h : Keeps a s) : Keeps a (State.setStoQ s i x) := by
  unfold State.setStoQ
  try dsimp only
  repeat' (first
    | with_reducible assumption
    | with_reducible refine Keeps.of1 ‹_› ?_
    | with_reducible refine Keeps.of2 ‹_› ?_
    | split
    | with_reducible refine Keeps.same ?_ rfl
    | dsimp only)

theorem keep_nvme (d : Nat) (why : NFor) (code : Nat) (lba : Nat) (blocks : Nat) (data : Bytes) {a s : State} (h : Keeps a s) : Keeps a (nvme d why code lba blocks data s) := by
  unfold nvme
  try dsimp only
  repeat' (first
    | with_reducible assumption
    | with_reducible refine keep_send _ ?_
    | with_reducible refine keep_setDrive _ _ ?_
    | with_reducible refine Keeps.of1 ‹_› ?_
    | with_reducible refine Keeps.of2 ‹_› ?_
    | split
    | with_reducible refine Keeps.same ?_ rfl
    | dsimp only)

theorem keep_nvmeJournal (d : Nat) (take : Nat) (i : Nat) (r : JRec) {a s : State} (h : Keeps a s) : Keeps a (nvmeJournal d take i r s) := by
  unfold nvmeJournal
  try dsimp only
  repeat' (first
    | with_reducible assumption
    | with_reducible refine keep_send _ ?_
    | with_reducible refine keep_nvme _ _ _ _ _ _ ?_
    | with_reducible refine Keeps.of1 ‹_› ?_
    | with_reducible refine Keeps.of2 ‹_› ?_
    | split
    | with_reducible refine Keeps.same ?_ rfl
    | dsimp only)

theorem keep_drivePower (d : Nat) {a s : State} (h : Keeps a s) : Keeps a (drivePower d s) := by
  unfold drivePower
  try dsimp only
  repeat' (first
    | with_reducible assumption
    | with_reducible refine keep_setDrive _ _ ?_
    | with_reducible refine Keeps.of1 ‹_› ?_
    | with_reducible refine Keeps.of2 ‹_› ?_
    | split
    | with_reducible refine Keeps.same ?_ rfl
    | dsimp only)

theorem keep_allPower {a s : State} (h : Keeps a s) : Keeps a (allPower s) := by
  unfold allPower
  try dsimp only
  repeat' (first
    | with_reducible assumption
    | with_reducible refine keep_drivePower _ ?_
    | with_reducible refine Keeps.foldl (fun s x h => ?_) _ ?_
    | with_reducible refine Keeps.of1 ‹_› ?_
    | with_reducible refine Keeps.of2 ‹_› ?_
    | split
    | with_reducible refine Keeps.same ?_ rfl
    | dsimp only)

theorem keep_modOp (take : Nat) (f : StoOp → StoOp) {a s : State} (h : Keeps a s) : Keeps a (modOp take f s) := by
  unfold modOp
  try dsimp only
  repeat' (first
    | with_reducible assumption
    | with_reducible refine Keeps.of1 ‹_› ?_
    | with_reducible refine Keeps.of2 ‹_› ?_
    | split
    | with_reducible refine Keeps.same ?_ rfl
    | dsimp only)

theorem keep_setPart (take : Nat) (i : Nat) (f : UOp → UOp) {a s : State} (h : Keeps a s) : Keeps a (setPart take i f s) := by
  unfold setPart
  try dsimp only
  repeat' (first
    | with_reducible assumption
    | with_reducible refine keep_modOp _ _ ?_
    | with_reducible refine Keeps.of1 ‹_› ?_
    | with_reducible refine Keeps.of2 ‹_› ?_
    | split
    | with_reducible refine Keeps.same ?_ rfl
    | dsimp only)

theorem keep_stoFail (take : Nat) (st : Nat) (r0 : Nat) (r1 : Nat) {a s : State} (h : Keeps a s) : Keeps a (stoFail take st r0 r1 s) := by
  unfold stoFail
  try dsimp only
  repeat' (first
    | with_reducible assumption
    | with_reducible refine keep_modOp _ _ ?_
    | with_reducible refine Keeps.of1 ‹_› ?_
    | with_reducible refine Keeps.of2 ‹_› ?_
    | split
    | with_reducible refine Keeps.same ?_ rfl
    | dsimp only)

theorem keep_stoMedia (d : Nat) (take : Nat) (r0 : Nat) (r1 : Nat) {a s : State} (h : Keeps a s) : Keeps a (stoMedia d take r0 r1 s) := by
  unfold stoMedia
  try dsimp only
  repeat' (first
    | with_reducible assumption
    | with_reducible refine keep_count _ _ _ _ ?_
    | with_reducible refine keep_sticky _ _ _ _ _ ?_
    | with_reducible refine keep_stoFail _ _ _ _ ?_
    | with_reducible refine Keeps.of1 ‹_› ?_
    | with_reducible refine Keeps.of2 ‹_› ?_
    | split
    | with_reducible refine Keeps.same ?_ rfl
    | dsimp only)

theorem keep_giveBack (d : Nat) (p : UOp) {a s : State} (h : Keeps a s) : Keeps a (giveBack d p s) := by
  unfold giveBack
  try dsimp only
  repeat' (first
    | with_reducible assumption
    | with_reducible refine keep_setDrive _ _ ?_
    | with_reducible refine Keeps.of1 ‹_› ?_
    | with_reducible refine Keeps.of2 ‹_› ?_
    | split
    | with_reducible refine Keeps.same ?_ rfl
    | dsimp only)

theorem keep_stopPart (d : Nat) (take : Nat) (i : Nat) {a s : State} (h : Keeps a s) : Keeps a (stopPart d take i s) := by
  unfold stopPart
  try dsimp only
  repeat' (first
    | with_reducible assumption
    | with_reducible refine keep_setPart _ _ _ ?_
    | with_reducible refine keep_giveBack _ _ ?_
    | with_reducible refine Keeps.of1 ‹_› ?_
    | with_reducible refine Keeps.of2 ‹_› ?_
    | split
    | with_reducible refine Keeps.same ?_ rfl
    | dsimp only)

theorem keep_writeNew (d : Nat) (o : StoOp) (i : Nat) (p : UOp) {a s : State} (h : Keeps a s) : Keeps a (writeNew d o i p s) := by
  unfold writeNew
  try dsimp only
  repeat' (first
    | with_reducible assumption
    | with_reducible refine keep_nvme _ _ _ _ _ _ ?_
    | with_reducible refine keep_setPart _ _ _ ?_
    | with_reducible refine Keeps.of1 ‹_› ?_
    | with_reducible refine Keeps.of2 ‹_› ?_
    | split
    | with_reducible refine Keeps.same ?_ rfl
    | dsimp only)

theorem keep_partSpare (d : Nat) (take : Nat) (i : Nat) (phys : Nat) (mapped : Bool) (o : StoOp) (p : UOp) {a s : State} (h : Keeps a s) : Keeps a (partSpare d take i phys mapped o p s) := by
  unfold partSpare
  try dsimp only
  repeat' (first
    | with_reducible assumption
    | with_reducible refine keep_setDrive _ _ ?_
    | with_reducible refine keep_nvme _ _ _ _ _ _ ?_
    | with_reducible refine keep_setPart _ _ _ ?_
    | with_reducible refine keep_writeNew _ _ _ _ ?_
    | with_reducible refine Keeps.of1 ‹_› ?_
    | with_reducible refine Keeps.of2 ‹_› ?_
    | split
    | with_reducible refine Keeps.same ?_ rfl
    | dsimp only)

theorem keep_partBegin (d : Nat) (take : Nat) (i : Nat) (phys : Nat) (mapped : Bool) (o : StoOp) (p : UOp) {a s : State} (h : Keeps a s) : Keeps a (partBegin d take i phys mapped o p s) := by
  unfold partBegin
  try dsimp only
  repeat' (first
    | with_reducible assumption
    | with_reducible refine keep_nvme _ _ _ _ _ _ ?_
    | with_reducible refine keep_nvmeJournal _ _ _ _ ?_
    | with_reducible refine keep_setPart _ _ _ ?_
    | with_reducible refine keep_partSpare _ _ _ _ _ _ _ ?_
    | with_reducible refine Keeps.of1 ‹_› ?_
    | with_reducible refine Keeps.of2 ‹_› ?_
    | split
    | with_reducible refine Keeps.same ?_ rfl
    | dsimp only)

theorem keep_partGo (take : Nat) (i : Nat) {a s : State} (h : Keeps a s) : Keeps a (partGo take i s) := by
  unfold partGo
  try dsimp only
  repeat' (first
    | with_reducible assumption
    | with_reducible refine keep_stoMedia _ _ _ _ ?_
    | with_reducible refine keep_stopPart _ _ _ ?_
    | with_reducible refine keep_partBegin _ _ _ _ _ _ _ ?_
    | with_reducible refine Keeps.of1 ‹_› ?_
    | with_reducible refine Keeps.of2 ‹_› ?_
    | split
    | with_reducible refine Keeps.same ?_ rfl
    | dsimp only)

theorem keep_dropOp (take : Nat) {a s : State} (h : Keeps a s) : Keeps a (dropOp take s) := by
  unfold dropOp
  try dsimp only
  repeat' (first
    | with_reducible assumption
    | with_reducible refine Keeps.of1 ‹_› ?_
    | with_reducible refine Keeps.of2 ‹_› ?_
    | split
    | with_reducible refine Keeps.same ?_ rfl
    | dsimp only)

theorem keep_stoSync (t : Nat) (o : StoOp) {a s : State} (h : Keeps a s) : Keeps a (stoSync t o s) := by
  unfold stoSync
  try dsimp only
  repeat' (first
    | with_reducible assumption
    | with_reducible refine keep_sendSig _ _ _ _ _ ?_
    | with_reducible refine Keeps.of1 ‹_› ?_
    | with_reducible refine Keeps.of2 ‹_› ?_
    | split
    | with_reducible refine Keeps.same ?_ rfl
    | dsimp only)

theorem keep_stoTrace (t : Nat) (i : Nat) (o : StoOp) {a s : State} (h : Keeps a s) : Keeps a (stoTrace t i o s) := by
  unfold stoTrace
  try dsimp only
  repeat' (first
    | with_reducible assumption
    | with_reducible refine keep_traceHit _ _ _ _ _ _ _ ?_
    | with_reducible refine Keeps.of1 ‹_› ?_
    | with_reducible refine Keeps.of2 ‹_› ?_
    | split
    | with_reducible refine Keeps.same ?_ rfl
    | dsimp only)

theorem keep_deliver (o : StoOp) {a s : State} (h : Keeps a s) : Keeps a (deliver o s) := by
  unfold deliver
  try dsimp only
  repeat' (first
    | with_reducible assumption
    | with_reducible refine keep_sticky _ _ _ _ _ ?_
    | with_reducible refine keep_hostWrite _ _ _ ?_
    | with_reducible refine keep_signalVector _ _ ?_
    | with_reducible refine keep_setWq _ _ ?_
    | with_reducible refine keep_setStoQ _ _ ?_
    | with_reducible refine keep_dropOp _ ?_
    | with_reducible refine keep_stoSync _ _ ?_
    | with_reducible refine keep_stoTrace _ _ _ ?_
    | with_reducible refine Keeps.of1 ‹_› ?_
    | with_reducible refine Keeps.of2 ‹_› ?_
    | split
    | with_reducible refine Keeps.same ?_ rfl
    | dsimp only)

theorem keep_opGo (take : Nat) {a s : State} (h : Keeps a s) : Keeps a (opGo take s) := by
  unfold opGo
  extract_lets s1
  have h1 : Keeps a s1 := by
    show Keeps a (match s.sto.ops.find? fun o => o.take == take with | some _ => _ | none => _)
    split
    · exact Keeps.foldl (fun s x h => keep_partGo _ _ h) _ h
    · exact h
  clear_value s1
  split
  · split
    · exact h1
    · exact keep_modOp _ _ h1
  · exact h1

theorem keep_driveGo (d : Nat) {a s : State} (h : Keeps a s) : Keeps a (driveGo d s) := by
  unfold driveGo
  try dsimp only
  repeat' (first
    | with_reducible assumption
    | with_reducible refine keep_setDrive _ _ ?_
    | with_reducible refine keep_nvme _ _ _ _ _ _ ?_
    | with_reducible refine Keeps.foldl (fun s x h => ?_) _ ?_
    | with_reducible refine Keeps.of1 ‹_› ?_
    | with_reducible refine Keeps.of2 ‹_› ?_
    | split
    | with_reducible refine Keeps.same ?_ rfl
    | dsimp only)

theorem keep_stoRun {a s : State} (h : Keeps a s) : Keeps a (stoRun s) := by
  unfold stoRun
  try dsimp only
  repeat' (first
    | with_reducible assumption
    | with_reducible refine keep_deliver _ ?_
    | with_reducible refine keep_opGo _ ?_
    | with_reducible refine keep_driveGo _ ?_
    | with_reducible refine Keeps.foldl (fun s x h => ?_) _ ?_
    | with_reducible refine Keeps.of1 ‹_› ?_
    | with_reducible refine Keeps.of2 ‹_› ?_
    | split
    | with_reducible refine Keeps.same ?_ rfl
    | dsimp only)

end Sys2Proof.Machine
end

