-- ==== Sys2Proof/Laws/KeepSeamOps.lean ====
section
/-! SUPPORT. What the operations of Machine/SeamOps.lean keep: soundness, the queue, the draws, the wire. -/
namespace Sys2Proof.Machine

open Sys2Proof

theorem keep_setLink (l : Nat) (x : Link) {a s : State} (h : Keeps a s) : Keeps a (State.setLink s l x) := by
  unfold State.setLink
  try dsimp only
  repeat' (first
    | with_reducible assumption
    | with_reducible refine Keeps.of1 ‹_› ?_
    | with_reducible refine Keeps.of2 ‹_› ?_
    | split
    | with_reducible refine Keeps.same ?_ rfl
    | dsimp only)

theorem keep_setBundle (q : Nat) (x : Bundle) {a s : State} (h : Keeps a s) : Keeps a (State.setBundle s q x) := by
  unfold State.setBundle
  try dsimp only
  repeat' (first
    | with_reducible assumption
    | with_reducible refine Keeps.of1 ‹_› ?_
    | with_reducible refine Keeps.of2 ‹_› ?_
    | split
    | with_reducible refine Keeps.same ?_ rfl
    | dsimp only)

theorem keep_sendCtrl (l : Nat) (nak : Bool) {a s : State} (h : Keeps a s) : Keeps a (sendCtrl l nak s) := by
  unfold sendCtrl
  try dsimp only
  repeat' (first
    | with_reducible assumption
    | with_reducible refine keep_send _ ?_
    | with_reducible refine keep_setLink _ _ ?_
    | with_reducible refine Keeps.of1 ‹_› ?_
    | with_reducible refine Keeps.of2 ‹_› ?_
    | split
    | with_reducible refine Keeps.same ?_ rfl
    | dsimp only)

theorem keep_ctrlSlot (l : Nat) {a s : State} (h : Keeps a s) : Keeps a (ctrlSlot l s) := by
  unfold ctrlSlot
  try dsimp only
  repeat' (first
    | with_reducible assumption
    | with_reducible refine keep_sendCtrl _ _ ?_
    | with_reducible refine Keeps.of1 ‹_› ?_
    | with_reducible refine Keeps.of2 ‹_› ?_
    | split
    | with_reducible refine Keeps.same ?_ rfl
    | dsimp only)

theorem keep_linkSend (l : Nat) (m : SeamMsg) {a s : State} (h : Keeps a s) : Keeps a (linkSend l m s) := by
  unfold linkSend
  try dsimp only
  repeat' (first
    | with_reducible assumption
    | with_reducible refine keep_send _ ?_
    | with_reducible refine keep_setLink _ _ ?_
    | with_reducible refine keep_ctrlSlot _ ?_
    | with_reducible refine Keeps.foldl (fun s x h => ?_) _ ?_
    | with_reducible refine Keeps.of1 ‹_› ?_
    | with_reducible refine Keeps.of2 ‹_› ?_
    | split
    | with_reducible refine Keeps.same ?_ rfl
    | dsimp only)

theorem keep_linkGoN (l : Nat) {a : State} : ∀ (y0 : Nat) {s : State}, Keeps a s → Keeps a (linkGoN l y0 s)
  | 0, s, h => by
    unfold linkGoN
    try dsimp only
    repeat' (first
      | with_reducible assumption
      | with_reducible refine keep_linkGoN _ _ ?_
      | with_reducible refine keep_setLink _ _ ?_
      | with_reducible refine keep_linkSend _ _ ?_
      | with_reducible refine Keeps.of1 ‹_› ?_
      | with_reducible refine Keeps.of2 ‹_› ?_
      | split
      | with_reducible refine Keeps.same ?_ rfl
      | dsimp only)
  | n + 1, s, h => by
    unfold linkGoN
    try dsimp only
    repeat' (first
      | with_reducible assumption
      | with_reducible refine keep_linkGoN _ _ ?_
      | with_reducible refine keep_setLink _ _ ?_
      | with_reducible refine keep_linkSend _ _ ?_
      | with_reducible refine Keeps.of1 ‹_› ?_
      | with_reducible refine Keeps.of2 ‹_› ?_
      | split
      | with_reducible refine Keeps.same ?_ rfl
      | dsimp only)

theorem keep_linkGo (l : Nat) {a s : State} (h : Keeps a s) : Keeps a (linkGo l s) := by
  unfold linkGo
  try dsimp only
  repeat' (first
    | with_reducible assumption
    | with_reducible refine keep_linkGoN _ _ ?_
    | with_reducible refine Keeps.of1 ‹_› ?_
    | with_reducible refine Keeps.of2 ‹_› ?_
    | split
    | with_reducible refine Keeps.same ?_ rfl
    | dsimp only)

theorem keep_linkOut (l : Nat) (m : SeamMsg) {a s : State} (h : Keeps a s) : Keeps a (linkOut l m s) := by
  unfold linkOut
  try dsimp only
  repeat' (first
    | with_reducible assumption
    | with_reducible refine keep_setLink _ _ ?_
    | with_reducible refine keep_linkGo _ ?_
    | with_reducible refine Keeps.of1 ‹_› ?_
    | with_reducible refine Keeps.of2 ‹_› ?_
    | split
    | with_reducible refine Keeps.same ?_ rfl
    | dsimp only)

theorem keep_bundleGoN (q : Nat) {a : State} : ∀ (y0 : Nat) (y1 : List Nat) {s : State}, Keeps a s → Keeps a (bundleGoN q y0 y1 s)
  | 0, _, s, h => by
    unfold bundleGoN
    try dsimp only
    repeat' (first
      | with_reducible assumption
      | with_reducible refine keep_bundleGoN _ _ _ ?_
      | with_reducible refine keep_setBundle _ _ ?_
      | with_reducible refine keep_linkOut _ _ ?_
      | with_reducible refine Keeps.of1 ‹_› ?_
      | with_reducible refine Keeps.of2 ‹_› ?_
      | split
      | with_reducible refine Keeps.same ?_ rfl
      | dsimp only)
  | n + 1, held, s, h => by
    unfold bundleGoN
    try dsimp only
    repeat' (first
      | with_reducible assumption
      | with_reducible refine keep_bundleGoN _ _ _ ?_
      | with_reducible refine keep_setBundle _ _ ?_
      | with_reducible refine keep_linkOut _ _ ?_
      | with_reducible refine Keeps.of1 ‹_› ?_
      | with_reducible refine Keeps.of2 ‹_› ?_
      | split
      | with_reducible refine Keeps.same ?_ rfl
      | dsimp only)

theorem keep_bundleGo (q : Nat) {a s : State} (h : Keeps a s) : Keeps a (bundleGo q s) := by
  unfold bundleGo
  try dsimp only
  repeat' (first
    | with_reducible assumption
    | with_reducible refine keep_bundleGoN _ _ _ ?_
    | with_reducible refine Keeps.of1 ‹_› ?_
    | with_reducible refine Keeps.of2 ‹_› ?_
    | split
    | with_reducible refine Keeps.same ?_ rfl
    | dsimp only)

theorem keep_bundlesGo {a s : State} (h : Keeps a s) : Keeps a (bundlesGo s) := by
  unfold bundlesGo
  try dsimp only
  repeat' (first
    | with_reducible assumption
    | with_reducible refine keep_bundleGo _ ?_
    | with_reducible refine Keeps.foldl (fun s x h => ?_) _ ?_
    | with_reducible refine Keeps.of1 ‹_› ?_
    | with_reducible refine Keeps.of2 ‹_› ?_
    | split
    | with_reducible refine Keeps.same ?_ rfl
    | dsimp only)

theorem keep_seamSend (q : Nat) (unit : Nat) (page : Nat) (m : SeamMsg) (f : SeamFor) {a s : State} (h : Keeps a s) : Keeps a (seamSend q unit page m f s) := by
  unfold seamSend
  try dsimp only
  repeat' (first
    | with_reducible assumption
    | with_reducible refine keep_setBundle _ _ ?_
    | with_reducible refine keep_bundleGo _ ?_
    | with_reducible refine Keeps.of1 ‹_› ?_
    | with_reducible refine Keeps.of2 ‹_› ?_
    | split
    | with_reducible refine Keeps.same ?_ rfl
    | dsimp only)

theorem keep_rehome (q : Nat) (l : Nat) {a s : State} (h : Keeps a s) : Keeps a (rehome q l s) := by
  unfold rehome
  try dsimp only
  repeat' (first
    | with_reducible assumption
    | with_reducible refine keep_setBundle _ _ ?_
    | with_reducible refine keep_linkOut _ _ ?_
    | with_reducible refine Keeps.foldl (fun s x h => ?_) _ ?_
    | with_reducible refine Keeps.of1 ‹_› ?_
    | with_reducible refine Keeps.of2 ‹_› ?_
    | split
    | with_reducible refine Keeps.same ?_ rfl
    | dsimp only)

theorem keep_linkLost (l : Nat) {a s : State} (h : Keeps a s) : Keeps a (linkLost l s) := by
  unfold linkLost
  try dsimp only
  repeat' (first
    | with_reducible assumption
    | with_reducible refine keep_setBundle _ _ ?_
    | with_reducible refine keep_bundleGo _ ?_
    | with_reducible refine keep_rehome _ _ ?_
    | with_reducible refine Keeps.of1 ‹_› ?_
    | with_reducible refine Keeps.of2 ‹_› ?_
    | split
    | with_reducible refine Keeps.same ?_ rfl
    | dsimp only)

theorem keep_markDown (l : Nat) {a s : State} (h : Keeps a s) : Keeps a (markDown l s) := by
  unfold markDown
  try dsimp only
  repeat' (first
    | with_reducible assumption
    | with_reducible refine keep_setBundle _ _ ?_
    | with_reducible refine Keeps.of1 ‹_› ?_
    | with_reducible refine Keeps.of2 ‹_› ?_
    | split
    | with_reducible refine Keeps.same ?_ rfl
    | dsimp only)

theorem keep_markUp (l : Nat) {a s : State} (h : Keeps a s) : Keeps a (markUp l s) := by
  unfold markUp
  try dsimp only
  repeat' (first
    | with_reducible assumption
    | with_reducible refine keep_setBundle _ _ ?_
    | with_reducible refine keep_bundleGo _ ?_
    | with_reducible refine keep_rehome _ _ ?_
    | with_reducible refine Keeps.of1 ‹_› ?_
    | with_reducible refine Keeps.of2 ‹_› ?_
    | split
    | with_reducible refine Keeps.same ?_ rfl
    | dsimp only)

theorem keep_remoteApply (src : Nat) (from_ : Nat) (ctr : Nat) (val : Nat) (tenant : Nat) {a s : State} (h : Keeps a s) : Keeps a (remoteApply src from_ ctr val tenant s).1 := by
  unfold remoteApply
  try dsimp only
  repeat' (first
    | with_reducible assumption
    | with_reducible refine keep_orReg _ _ _ _ ?_
    | with_reducible refine keep_raise _ _ _ _ _ ?_
    | with_reducible refine keep_counterCycle _ _ ?_
    | with_reducible refine Keeps.of1 ‹_› ?_
    | with_reducible refine Keeps.of2 ‹_› ?_
    | split
    | with_reducible refine Keeps.same ?_ rfl
    | dsimp only)

theorem keep_remoteLost (g : RemoteSig) {a s : State} (h : Keeps a s) : Keeps a (remoteLost g s) := by
  unfold remoteLost
  try dsimp only
  repeat' (first
    | with_reducible assumption
    | with_reducible refine keep_orReg _ _ _ _ ?_
    | with_reducible refine keep_raise _ _ _ _ _ ?_
    | with_reducible refine Keeps.of1 ‹_› ?_
    | with_reducible refine Keeps.of2 ‹_› ?_
    | split
    | with_reducible refine Keeps.same ?_ rfl
    | dsimp only)

end Sys2Proof.Machine
end

