-- ==== Sys2Proof/Laws/KeepFtOps.lean ====
section
/-! SUPPORT. What the operations of Machine/FtOps.lean keep: soundness, the queue, the draws, the wire. -/
namespace Sys2Proof.Machine

open Sys2Proof

theorem keep_setFtMsg (m : Nat) (x : Option FtMsg) {a s : State} (h : Keeps a s) : Keeps a (State.setFtMsg s m x) := by
  unfold State.setFtMsg
  try dsimp only
  repeat' (first
    | with_reducible assumption
    | with_reducible refine Keeps.of1 ‹_› ?_
    | with_reducible refine Keeps.of2 ‹_› ?_
    | split
    | with_reducible refine Keeps.same ?_ rfl
    | dsimp only)

theorem keep_setFtRing (i : Nat) (x : Option FtRing) {a s : State} (h : Keeps a s) : Keeps a (State.setFtRing s i x) := by
  unfold State.setFtRing
  try dsimp only
  repeat' (first
    | with_reducible assumption
    | with_reducible refine Keeps.of1 ‹_› ?_
    | with_reducible refine Keeps.of2 ‹_› ?_
    | split
    | with_reducible refine Keeps.same ?_ rfl
    | dsimp only)

theorem keep_setFtRq (i : Nat) (x : Option FtRq) {a s : State} (h : Keeps a s) : Keeps a (State.setFtRq s i x) := by
  unfold State.setFtRq
  try dsimp only
  repeat' (first
    | with_reducible assumption
    | with_reducible refine Keeps.of1 ‹_› ?_
    | with_reducible refine Keeps.of2 ‹_› ?_
    | split
    | with_reducible refine Keeps.same ?_ rfl
    | dsimp only)

theorem keep_setBkt (b : Nat) (x : Option FtBkt) {a s : State} (h : Keeps a s) : Keeps a (setBkt b x s) := by
  unfold setBkt
  try dsimp only
  repeat' (first
    | with_reducible assumption
    | with_reducible refine Keeps.of1 ‹_› ?_
    | with_reducible refine Keeps.of2 ‹_› ?_
    | split
    | with_reducible refine Keeps.same ?_ rfl
    | dsimp only)

theorem keep_cutRate (b : Nat) (f : Nat → Nat) {a s : State} (h : Keeps a s) : Keeps a (cutRate b f s) := by
  unfold cutRate
  try dsimp only
  repeat' (first
    | with_reducible assumption
    | with_reducible refine keep_setBkt _ _ ?_
    | with_reducible refine Keeps.of1 ‹_› ?_
    | with_reducible refine Keeps.of2 ‹_› ?_
    | split
    | with_reducible refine Keeps.same ?_ rfl
    | dsimp only)

theorem keep_ftOut (dst : Nat) (p : Nat) (tenant : Nat) (cls : Nat) (pkt : Bytes) {a s : State} (h : Keeps a s) : Keeps a (ftOut dst p tenant cls pkt s) := by
  unfold ftOut
  try dsimp only
  repeat' (first
    | with_reducible assumption
    | with_reducible refine keep_linkOut _ _ ?_
    | with_reducible refine Keeps.of1 ‹_› ?_
    | with_reducible refine Keeps.of2 ‹_› ?_
    | split
    | with_reducible refine Keeps.same ?_ rfl
    | dsimp only)

theorem keep_ftReply (path : Nat) (h' : FtHdr) (pay : Bytes) {a s : State} (h : Keeps a s) : Keeps a (ftReply path h' pay s) := by
  unfold ftReply
  try dsimp only
  repeat' (first
    | with_reducible assumption
    | with_reducible refine keep_linkOut _ _ ?_
    | with_reducible refine Keeps.of1 ‹_› ?_
    | with_reducible refine Keeps.of2 ‹_› ?_
    | split
    | with_reducible refine Keeps.same ?_ rfl
    | dsimp only)

theorem keep_ftStart (m : FtMsg) {a s : State} (h : Keeps a s) : Keeps a (ftStart m s) := by
  unfold ftStart
  try dsimp only
  repeat' (first
    | with_reducible assumption
    | with_reducible refine Keeps.of1 ‹_› ?_
    | with_reducible refine Keeps.of2 ‹_› ?_
    | split
    | with_reducible refine Keeps.same ?_ rfl
    | dsimp only)

theorem keep_ftPut (t : Nat) (a' : Nat) (b : Bytes) {a s : State} (h : Keeps a s) : Keeps a (ftPut t a' b s) := by
  unfold ftPut
  try dsimp only
  repeat' (first
    | with_reducible assumption
    | with_reducible refine keep_writeMem _ _ ?_
    | with_reducible refine keep_refuse _ _ _ ?_
    | with_reducible refine Keeps.of1 ‹_› ?_
    | with_reducible refine Keeps.of2 ‹_› ?_
    | split
    | with_reducible refine Keeps.same ?_ rfl
    | dsimp only)

theorem keep_ftRingEnd (i : Nat) (n : Nat) (st : Nat) (op : Nat) (res : Nat) (retx : Nat) (sig : Option (Xl × Nat)) {a s : State} (h : Keeps a s) : Keeps a (ftRingEnd i n st op res retx sig s) := by
  unfold ftRingEnd
  try dsimp only
  repeat' (first
    | with_reducible assumption
    | with_reducible refine keep_traceHit _ _ _ _ _ _ _ ?_
    | with_reducible refine keep_sendSig _ _ _ _ _ ?_
    | with_reducible refine keep_setFtRing _ _ ?_
    | with_reducible refine keep_ftPut _ _ _ ?_
    | with_reducible refine Keeps.of1 ‹_› ?_
    | with_reducible refine Keeps.of2 ‹_› ?_
    | split
    | with_reducible refine Keeps.same ?_ rfl
    | dsimp only)

theorem keep_ftUnblock (m : FtMsg) {a s : State} (h : Keeps a s) : Keeps a (ftUnblock m s) := by
  unfold ftUnblock
  try dsimp only
  repeat' (first
    | with_reducible assumption
    | with_reducible refine Keeps.of1 ‹_› ?_
    | with_reducible refine Keeps.of2 ‹_› ?_
    | split
    | with_reducible refine Keeps.same ?_ rfl
    | dsimp only)

theorem keep_ftEndMsg (i : Nat) (st : Nat) (res : Nat) {a s : State} (h : Keeps a s) : Keeps a (ftEndMsg i st res s) := by
  unfold ftEndMsg
  try dsimp only
  repeat' (first
    | with_reducible assumption
    | with_reducible refine keep_traceHit _ _ _ _ _ _ _ ?_
    | with_reducible refine keep_setFtMsg _ _ ?_
    | with_reducible refine keep_ftStart _ ?_
    | with_reducible refine keep_ftRingEnd _ _ _ _ _ _ _ ?_
    | with_reducible refine keep_ftUnblock _ ?_
    | with_reducible refine Keeps.of1 ‹_› ?_
    | with_reducible refine Keeps.of2 ‹_› ?_
    | split
    | with_reducible refine Keeps.same ?_ rfl
    | dsimp only)

theorem keep_ftClose (i : Nat) (m : FtMsg) (abort : Bool) {a s : State} (h : Keeps a s) : Keeps a (ftClose i m abort s) := by
  unfold ftClose
  try dsimp only
  repeat' (first
    | with_reducible assumption
    | with_reducible refine keep_ftOut _ _ _ _ _ ?_
    | with_reducible refine Keeps.of1 ‹_› ?_
    | with_reducible refine Keeps.of2 ‹_› ?_
    | split
    | with_reducible refine Keeps.same ?_ rfl
    | dsimp only)

theorem keep_ftAbort (i : Nat) (st : Nat) (res : Nat) {a s : State} (h : Keeps a s) : Keeps a (ftAbort i st res s) := by
  unfold ftAbort
  try dsimp only
  repeat' (first
    | with_reducible assumption
    | with_reducible refine keep_ftEndMsg _ _ _ ?_
    | with_reducible refine keep_ftClose _ _ _ ?_
    | with_reducible refine Keeps.of1 ‹_› ?_
    | with_reducible refine Keeps.of2 ‹_› ?_
    | split
    | with_reducible refine Keeps.same ?_ rfl
    | dsimp only)

theorem keep_modRx (src : Nat) (msg : Nat) (f : FtRx → FtRx) {a s : State} (h : Keeps a s) : Keeps a (modRx src msg f s) := by
  unfold modRx
  try dsimp only
  repeat' (first
    | with_reducible assumption
    | with_reducible refine Keeps.of1 ‹_› ?_
    | with_reducible refine Keeps.of2 ‹_› ?_
    | split
    | with_reducible refine Keeps.same ?_ rfl
    | dsimp only)

theorem keep_delRx (src : Nat) (msg : Nat) {a s : State} (h : Keeps a s) : Keeps a (delRx src msg s) := by
  unfold delRx
  try dsimp only
  repeat' (first
    | with_reducible assumption
    | with_reducible refine Keeps.of1 ‹_› ?_
    | with_reducible refine Keeps.of2 ‹_› ?_
    | split
    | with_reducible refine Keeps.same ?_ rfl
    | dsimp only)

theorem keep_ftRelease (e : FtRx) {a s : State} (h : Keeps a s) : Keeps a (ftRelease e s) := by
  unfold ftRelease
  try dsimp only
  repeat' (first
    | with_reducible assumption
    | with_reducible refine keep_setRegion _ _ ?_
    | with_reducible refine Keeps.of1 ‹_› ?_
    | with_reducible refine Keeps.of2 ‹_› ?_
    | split
    | with_reducible refine Keeps.same ?_ rfl
    | dsimp only)

theorem keep_ftAnswer (e : FtRx) (op : Nat) (pidx : Nat) (mlen : Nat) (pay : Bytes) {a s : State} (h : Keeps a s) : Keeps a (ftAnswer e op pidx mlen pay s) := by
  unfold ftAnswer
  try dsimp only
  repeat' (first
    | with_reducible assumption
    | with_reducible refine keep_ftReply _ _ _ ?_
    | with_reducible refine Keeps.of1 ‹_› ?_
    | with_reducible refine Keeps.of2 ‹_› ?_
    | split
    | with_reducible refine Keeps.same ?_ rfl
    | dsimp only)

theorem keep_ftAck (src : Nat) (msg : Nat) {a s : State} (h : Keeps a s) : Keeps a (ftAck src msg s) := by
  unfold ftAck
  try dsimp only
  repeat' (first
    | with_reducible assumption
    | with_reducible refine keep_count _ _ _ _ ?_
    | with_reducible refine keep_modRx _ _ _ ?_
    | with_reducible refine keep_ftAnswer _ _ _ _ _ ?_
    | with_reducible refine Keeps.of1 ‹_› ?_
    | with_reducible refine Keeps.of2 ‹_› ?_
    | split
    | with_reducible refine Keeps.same ?_ rfl
    | dsimp only)

theorem keep_ftNak (path : Nat) (h' : FtHdr) (reason : Nat) {a s : State} (h : Keeps a s) : Keeps a (ftNak path h' reason s) := by
  unfold ftNak
  try dsimp only
  repeat' (first
    | with_reducible assumption
    | with_reducible refine keep_ftReply _ _ _ ?_
    | with_reducible refine Keeps.of1 ‹_› ?_
    | with_reducible refine Keeps.of2 ‹_› ?_
    | split
    | with_reducible refine Keeps.same ?_ rfl
    | dsimp only)

theorem keep_ftDiscard {a s : State} (h : Keeps a s) : Keeps a (ftDiscard s) := by
  unfold ftDiscard
  try dsimp only
  repeat' (first
    | with_reducible assumption
    | with_reducible refine keep_count _ _ _ _ ?_
    | with_reducible refine keep_sticky _ _ _ _ _ ?_
    | with_reducible refine Keeps.of1 ‹_› ?_
    | with_reducible refine Keeps.of2 ‹_› ?_
    | split
    | with_reducible refine Keeps.same ?_ rfl
    | dsimp only)

theorem keep_ftWorkWrite (id : Nat) (part : Nat) (tenant : Nat) (cls : Nat) (dst : Nat) (key : Nat) (gen : Nat) (raddr : Nat) (data : Bytes) {a s : State} (h : Keeps a s) : Keeps a (ftWorkWrite id part tenant cls dst key gen raddr data s) := by
  unfold ftWorkWrite
  try dsimp only
  repeat' (first
    | with_reducible assumption
    | with_reducible refine keep_ftStart _ ?_
    | with_reducible refine Keeps.of1 ‹_› ?_
    | with_reducible refine Keeps.of2 ‹_› ?_
    | split
    | with_reducible refine Keeps.same ?_ rfl
    | dsimp only)

theorem keep_ftWorkRead (id : Nat) (part : Nat) (tenant : Nat) (cls : Nat) (dst : Nat) (key : Nat) (gen : Nat) (raddr : Nat) (len : Nat) {a s : State} (h : Keeps a s) : Keeps a (ftWorkRead id part tenant cls dst key gen raddr len s) := by
  unfold ftWorkRead
  try dsimp only
  repeat' (first
    | with_reducible assumption
    | with_reducible refine keep_ftStart _ ?_
    | with_reducible refine Keeps.of1 ‹_› ?_
    | with_reducible refine Keeps.of2 ‹_› ?_
    | split
    | with_reducible refine Keeps.same ?_ rfl
    | dsimp only)

end Sys2Proof.Machine
end

