-- ==== Sys2Proof/Laws/KeepCollOps.lean ====
section
/-! SUPPORT. What the operations of Machine/CollOps.lean keep: soundness, the queue, the draws, the wire. -/
namespace Sys2Proof.Machine

open Sys2Proof

theorem keep_setComm (k : Nat) (c : Option Comm) {a s : State} (h : Keeps a s) : Keeps a (State.setComm s k c) := by
  unfold State.setComm
  try dsimp only
  repeat' (first
    | with_reducible assumption
    | with_reducible refine Keeps.of1 ‹_› ?_
    | with_reducible refine Keeps.of2 ‹_› ?_
    | split
    | with_reducible refine Keeps.same ?_ rfl
    | dsimp only)

theorem keep_modColl (id : Nat) (f : CollJob → CollJob) {a s : State} (h : Keeps a s) : Keeps a (modColl id f s) := by
  unfold modColl
  try dsimp only
  repeat' (first
    | with_reducible assumption
    | with_reducible refine Keeps.of1 ‹_› ?_
    | with_reducible refine Keeps.of2 ‹_› ?_
    | split
    | with_reducible refine Keeps.same ?_ rfl
    | dsimp only)

theorem keep_contribute (id : Nat) (cm : Comm) (p : Contrib) (r : Nat) {a s : State} (h : Keeps a s) : Keeps a (contribute id cm p r s) := by
  unfold contribute
  try dsimp only
  repeat' (first
    | with_reducible assumption
    | with_reducible refine keep_seamSend _ _ _ _ _ ?_
    | with_reducible refine keep_ftWorkWrite _ _ _ _ _ _ _ _ _ ?_
    | with_reducible refine keep_modColl _ _ ?_
    | with_reducible refine Keeps.foldl (fun s x h => ?_) _ ?_
    | with_reducible refine Keeps.of1 ‹_› ?_
    | with_reducible refine Keeps.of2 ‹_› ?_
    | split
    | with_reducible refine Keeps.same ?_ rfl
    | dsimp only)

theorem keep_leaveComm (j : CollJob) {a s : State} (h : Keeps a s) : Keeps a (leaveComm j s) := by
  unfold leaveComm
  try dsimp only
  repeat' (first
    | with_reducible assumption
    | with_reducible refine keep_setComm _ _ ?_
    | with_reducible refine Keeps.of1 ‹_› ?_
    | with_reducible refine Keeps.of2 ‹_› ?_
    | split
    | with_reducible refine Keeps.same ?_ rfl
    | dsimp only)

theorem keep_endColl (j : CollJob) (st : Nat) (w0 : Nat) (w1 : Nat) (w2 : Nat) {a s : State} (h : Keeps a s) : Keeps a (endColl j st w0 w1 w2 s) := by
  unfold endColl
  try dsimp only
  repeat' (first
    | with_reducible assumption
    | with_reducible refine keep_finish _ _ _ _ _ _ ?_
    | with_reducible refine keep_sendSig _ _ _ _ _ ?_
    | with_reducible refine keep_leaveComm _ ?_
    | with_reducible refine Keeps.of1 ‹_› ?_
    | with_reducible refine Keeps.of2 ‹_› ?_
    | split
    | with_reducible refine Keeps.same ?_ rfl
    | dsimp only)

end Sys2Proof.Machine
end

