-- ==== Sys2Proof/Laws/KeepCkptOps.lean ====
section
/-! SUPPORT. What the operations of Machine/CkptOps.lean keep: soundness, the queue, the draws, the wire. -/
namespace Sys2Proof.Machine

open Sys2Proof

theorem keep_setCkSlot (t : Nat) (k : Nat) (x : CkSlot) {a s : State} (h : Keeps a s) : Keeps a (State.setCkSlot s t k x) := by
  unfold State.setCkSlot
  try dsimp only
  repeat' (first
    | with_reducible assumption
    | with_reducible refine Keeps.of1 ‹_› ?_
    | with_reducible refine Keeps.of2 ‹_› ?_
    | split
    | with_reducible refine Keeps.same ?_ rfl
    | dsimp only)

theorem keep_poolWrite (id : Nat) (part : Nat) (t : Nat) (cls : Nat) (p : Nat) (slot : Nat) (off : Nat) (b : Bytes) {a s : State} (h : Keeps a s) : Keeps a (poolWrite id part t cls p slot off b s) := by
  unfold poolWrite
  try dsimp only
  repeat' (first
    | with_reducible assumption
    | with_reducible refine keep_ftWorkWrite _ _ _ _ _ _ _ _ _ ?_
    | with_reducible refine Keeps.of1 ‹_› ?_
    | with_reducible refine Keeps.of2 ‹_› ?_
    | split
    | with_reducible refine Keeps.same ?_ rfl
    | dsimp only)

theorem keep_poolRead (id : Nat) (part : Nat) (t : Nat) (cls : Nat) (p : Nat) (slot : Nat) (off : Nat) (n : Nat) {a s : State} (h : Keeps a s) : Keeps a (poolRead id part t cls p slot off n s) := by
  unfold poolRead
  try dsimp only
  repeat' (first
    | with_reducible assumption
    | with_reducible refine keep_ftWorkRead _ _ _ _ _ _ _ _ _ ?_
    | with_reducible refine Keeps.of1 ‹_› ?_
    | with_reducible refine Keeps.of2 ‹_› ?_
    | split
    | with_reducible refine Keeps.same ?_ rfl
    | dsimp only)

theorem keep_modSave (id : Nat) (f : Save → Save) {a s : State} (h : Keeps a s) : Keeps a (modSave id f s) := by
  unfold modSave
  try dsimp only
  repeat' (first
    | with_reducible assumption
    | with_reducible refine Keeps.of1 ‹_› ?_
    | with_reducible refine Keeps.of2 ‹_› ?_
    | split
    | with_reducible refine Keeps.same ?_ rfl
    | dsimp only)

theorem keep_ckptErr (t : Nat) (m : Nat) {a s : State} (h : Keeps a s) : Keeps a (ckptErr t m s) := by
  unfold ckptErr
  try dsimp only
  repeat' (first
    | with_reducible assumption
    | with_reducible refine keep_sticky _ _ _ _ _ ?_
    | with_reducible refine Keeps.of1 ‹_› ?_
    | with_reducible refine Keeps.of2 ‹_› ?_
    | split
    | with_reducible refine Keeps.same ?_ rfl
    | dsimp only)

theorem keep_resumeStreams (l : List Nat) {a s : State} (h : Keeps a s) : Keeps a (resumeStreams l s) := by
  unfold resumeStreams
  try dsimp only
  repeat' (first
    | with_reducible assumption
    | with_reducible refine keep_setStream _ _ ?_
    | with_reducible refine keep_closeReady _ ?_
    | with_reducible refine Keeps.foldl (fun s x h => ?_) _ ?_
    | with_reducible refine Keeps.of1 ‹_› ?_
    | with_reducible refine Keeps.of2 ‹_› ?_
    | split
    | with_reducible refine Keeps.same ?_ rfl
    | dsimp only)

theorem keep_saveStop (x : Save) (st : Nat) (w0 : Nat) (w1 : Nat) {a s : State} (h : Keeps a s) : Keeps a (saveStop x st w0 w1 s) := by
  unfold saveStop
  try dsimp only
  repeat' (first
    | with_reducible assumption
    | with_reducible refine keep_finish _ _ _ _ _ _ ?_
    | with_reducible refine keep_setCkSlot _ _ _ ?_
    | with_reducible refine keep_ckptErr _ _ ?_
    | with_reducible refine keep_resumeStreams _ ?_
    | with_reducible refine Keeps.of1 ‹_› ?_
    | with_reducible refine Keeps.of2 ‹_› ?_
    | split
    | with_reducible refine Keeps.same ?_ rfl
    | dsimp only)

theorem keep_saveCommit (x : Save) {a s : State} (h : Keeps a s) : Keeps a (saveCommit x s) := by
  unfold saveCommit
  try dsimp only
  repeat' (first
    | with_reducible assumption
    | with_reducible refine keep_poolWrite _ _ _ _ _ _ _ _ ?_
    | with_reducible refine keep_modSave _ _ ?_
    | with_reducible refine Keeps.of1 ‹_› ?_
    | with_reducible refine Keeps.of2 ‹_› ?_
    | split
    | with_reducible refine Keeps.same ?_ rfl
    | dsimp only)

theorem keep_saveEnd (x : Save) (e : FtEnd) {a s : State} (h : Keeps a s) : Keeps a (saveEnd x e s) := by
  unfold saveEnd
  try dsimp only
  repeat' (first
    | with_reducible assumption
    | with_reducible refine keep_modSave _ _ ?_
    | with_reducible refine keep_ckptErr _ _ ?_
    | with_reducible refine keep_saveStop _ _ _ _ ?_
    | with_reducible refine keep_saveCommit _ ?_
    | with_reducible refine Keeps.of1 ‹_› ?_
    | with_reducible refine Keeps.of2 ‹_› ?_
    | split
    | with_reducible refine Keeps.same ?_ rfl
    | dsimp only)

theorem keep_modRest (id : Nat) (f : Restore → Restore) {a s : State} (h : Keeps a s) : Keeps a (modRest id f s) := by
  unfold modRest
  try dsimp only
  repeat' (first
    | with_reducible assumption
    | with_reducible refine Keeps.of1 ‹_› ?_
    | with_reducible refine Keeps.of2 ‹_› ?_
    | split
    | with_reducible refine Keeps.same ?_ rfl
    | dsimp only)

theorem keep_restEnd (x : Restore) (st : Nat) (w0 : Nat) (w1 : Nat) (w2 : Nat) {a s : State} (h : Keeps a s) : Keeps a (restEnd x st w0 w1 w2 s) := by
  unfold restEnd
  try dsimp only
  repeat' (first
    | with_reducible assumption
    | with_reducible refine keep_finish _ _ _ _ _ _ ?_
    | with_reducible refine keep_setCkSlot _ _ _ ?_
    | with_reducible refine keep_ckptErr _ _ ?_
    | with_reducible refine Keeps.of1 ‹_› ?_
    | with_reducible refine Keeps.of2 ‹_› ?_
    | split
    | with_reducible refine Keeps.same ?_ rfl
    | dsimp only)

theorem keep_restTry (x : Restore) {a s : State} (h : Keeps a s) : Keeps a (restTry x s) := by
  unfold restTry
  try dsimp only
  repeat' (first
    | with_reducible assumption
    | with_reducible refine keep_poolRead _ _ _ _ _ _ _ _ ?_
    | with_reducible refine keep_modRest _ _ ?_
    | with_reducible refine keep_restEnd _ _ _ _ _ ?_
    | with_reducible refine Keeps.of1 ‹_› ?_
    | with_reducible refine Keeps.of2 ‹_› ?_
    | split
    | with_reducible refine Keeps.same ?_ rfl
    | dsimp only)

theorem keep_restShard (x : Restore) {a s : State} (h : Keeps a s) : Keeps a (restShard x s) := by
  unfold restShard
  try dsimp only
  repeat' (first
    | with_reducible assumption
    | with_reducible refine keep_poolRead _ _ _ _ _ _ _ _ ?_
    | with_reducible refine keep_modRest _ _ ?_
    | with_reducible refine Keeps.of1 ‹_› ?_
    | with_reducible refine Keeps.of2 ‹_› ?_
    | split
    | with_reducible refine Keeps.same ?_ rfl
    | dsimp only)

theorem keep_restPlan (x : Restore) {a s : State} (h : Keeps a s) : Keeps a (restPlan x s) := by
  unfold restPlan
  try dsimp only
  repeat' (first
    | with_reducible assumption
    | with_reducible refine keep_refuseOf _ _ ?_
    | with_reducible refine keep_restEnd _ _ _ _ _ ?_
    | with_reducible refine keep_restShard _ ?_
    | with_reducible refine Keeps.of1 ‹_› ?_
    | with_reducible refine Keeps.of2 ‹_› ?_
    | split
    | with_reducible refine Keeps.same ?_ rfl
    | dsimp only)

theorem keep_restStage (x : Restore) (b : Bytes) {a s : State} (h : Keeps a s) : Keeps a (restStage x b s) := by
  unfold restStage
  try dsimp only
  repeat' (first
    | with_reducible assumption
    | with_reducible refine keep_writeMem _ _ ?_
    | with_reducible refine keep_restEnd _ _ _ _ _ ?_
    | with_reducible refine keep_restShard _ ?_
    | with_reducible refine Keeps.of1 ‹_› ?_
    | with_reducible refine Keeps.of2 ‹_› ?_
    | split
    | with_reducible refine Keeps.same ?_ rfl
    | dsimp only)

theorem keep_restGot (x : Restore) (e : FtEnd) {a s : State} (h : Keeps a s) : Keeps a (restGot x e s) := by
  unfold restGot
  try dsimp only
  repeat' (first
    | with_reducible assumption
    | with_reducible refine keep_poolRead _ _ _ _ _ _ _ _ ?_
    | with_reducible refine keep_modRest _ _ ?_
    | with_reducible refine keep_restEnd _ _ _ _ _ ?_
    | with_reducible refine keep_restTry _ ?_
    | with_reducible refine keep_restPlan _ ?_
    | with_reducible refine keep_restStage _ _ ?_
    | with_reducible refine Keeps.of1 ‹_› ?_
    | with_reducible refine Keeps.of2 ‹_› ?_
    | split
    | with_reducible refine Keeps.same ?_ rfl
    | dsimp only)

theorem keep_modDrain (id : Nat) (f : DrainJob → DrainJob) {a s : State} (h : Keeps a s) : Keeps a (modDrain id f s) := by
  unfold modDrain
  try dsimp only
  repeat' (first
    | with_reducible assumption
    | with_reducible refine Keeps.of1 ‹_› ?_
    | with_reducible refine Keeps.of2 ‹_› ?_
    | split
    | with_reducible refine Keeps.same ?_ rfl
    | dsimp only)

theorem keep_drainWrite (x : DrainJob) (p : Piece) (b : Bytes) {a s : State} (h : Keeps a s) : Keeps a (drainWrite x p b s) := by
  unfold drainWrite
  try dsimp only
  repeat' (first
    | with_reducible assumption
    | with_reducible refine keep_count _ _ _ _ ?_
    | with_reducible refine keep_stoRun ?_
    | with_reducible refine keep_modDrain _ _ ?_
    | with_reducible refine Keeps.of1 ‹_› ?_
    | with_reducible refine Keeps.of2 ‹_› ?_
    | split
    | with_reducible refine Keeps.same ?_ rfl
    | dsimp only)

theorem keep_drainNext (x : DrainJob) {a s : State} (h : Keeps a s) : Keeps a (drainNext x s) := by
  unfold drainNext
  try dsimp only
  repeat' (first
    | with_reducible assumption
    | with_reducible refine keep_poolRead _ _ _ _ _ _ _ _ ?_
    | with_reducible refine keep_drainWrite _ _ _ ?_
    | with_reducible refine Keeps.of1 ‹_› ?_
    | with_reducible refine Keeps.of2 ‹_› ?_
    | split
    | with_reducible refine Keeps.same ?_ rfl
    | dsimp only)

theorem keep_drainOn (x : DrainJob) {a s : State} (h : Keeps a s) : Keeps a (drainOn x s) := by
  unfold drainOn
  try dsimp only
  repeat' (first
    | with_reducible assumption
    | with_reducible refine keep_modDrain _ _ ?_
    | with_reducible refine keep_drainNext _ ?_
    | with_reducible refine Keeps.of1 ‹_› ?_
    | with_reducible refine Keeps.of2 ‹_› ?_
    | split
    | with_reducible refine Keeps.same ?_ rfl
    | dsimp only)

theorem keep_drainFail (x : DrainJob) (st : Nat) (r0 : Nat) (r1 : Nat) {a s : State} (h : Keeps a s) : Keeps a (drainFail x st r0 r1 s) := by
  unfold drainFail
  try dsimp only
  repeat' (first
    | with_reducible assumption
    | with_reducible refine keep_drainOn _ ?_
    | with_reducible refine Keeps.of1 ‹_› ?_
    | with_reducible refine Keeps.of2 ‹_› ?_
    | split
    | with_reducible refine Keeps.same ?_ rfl
    | dsimp only)

theorem keep_drainGo (x : DrainJob) {a s : State} (h : Keeps a s) : Keeps a (drainGo s x) := by
  unfold drainGo
  try dsimp only
  repeat' (first
    | with_reducible assumption
    | with_reducible refine keep_dropOp _ ?_
    | with_reducible refine keep_drainOn _ ?_
    | with_reducible refine keep_drainFail _ _ _ _ ?_
    | with_reducible refine Keeps.of1 ‹_› ?_
    | with_reducible refine Keeps.of2 ‹_› ?_
    | split
    | with_reducible refine Keeps.same ?_ rfl
    | dsimp only)

theorem keep_drainGot (x : DrainJob) (e : FtEnd) {a s : State} (h : Keeps a s) : Keeps a (drainGot x e s) := by
  unfold drainGot
  try dsimp only
  repeat' (first
    | with_reducible assumption
    | with_reducible refine keep_drainWrite _ _ _ ?_
    | with_reducible refine keep_drainOn _ ?_
    | with_reducible refine keep_drainFail _ _ _ _ ?_
    | with_reducible refine Keeps.of1 ‹_› ?_
    | with_reducible refine Keeps.of2 ‹_› ?_
    | split
    | with_reducible refine Keeps.same ?_ rfl
    | dsimp only)

theorem keep_modTake (id : Nat) (f : TakeJob → TakeJob) {a s : State} (h : Keeps a s) : Keeps a (modTake id f s) := by
  unfold modTake
  try dsimp only
  repeat' (first
    | with_reducible assumption
    | with_reducible refine Keeps.of1 ‹_› ?_
    | with_reducible refine Keeps.of2 ‹_› ?_
    | split
    | with_reducible refine Keeps.same ?_ rfl
    | dsimp only)

theorem keep_takeGot (x : TakeJob) (e : FtEnd) {a s : State} (h : Keeps a s) : Keeps a (takeGot x e s) := by
  unfold takeGot
  try dsimp only
  repeat' (first
    | with_reducible assumption
    | with_reducible refine keep_poolRead _ _ _ _ _ _ _ _ ?_
    | with_reducible refine keep_modTake _ _ ?_
    | with_reducible refine Keeps.foldl (fun s x h => ?_) _ ?_
    | with_reducible refine Keeps.of1 ‹_› ?_
    | with_reducible refine Keeps.of2 ‹_› ?_
    | split
    | with_reducible refine Keeps.same ?_ rfl
    | dsimp only)

theorem keep_collFail (id : Nat) (st : Nat) (w0 : Nat) (w1 : Nat) {a s : State} (h : Keeps a s) : Keeps a (collFail id st w0 w1 s) := by
  unfold collFail
  try dsimp only
  repeat' (first
    | with_reducible assumption
    | with_reducible refine keep_modColl _ _ ?_
    | with_reducible refine Keeps.of1 ‹_› ?_
    | with_reducible refine Keeps.of2 ‹_› ?_
    | split
    | with_reducible refine Keeps.same ?_ rfl
    | dsimp only)

theorem keep_collBegin (j : CollJob) (c : Cmd) (o : Op) (k : Nat) (cm : Comm) {a s : State} (h : Keeps a s) : Keeps a (collBegin j c o k cm s) := by
  unfold collBegin
  try dsimp only
  repeat' (first
    | with_reducible assumption
    | with_reducible refine keep_readMem _ _ ?_
    | with_reducible refine keep_setComm _ _ ?_
    | with_reducible refine keep_modColl _ _ ?_
    | with_reducible refine keep_contribute _ _ _ _ ?_
    | with_reducible refine keep_collFail _ _ _ _ ?_
    | with_reducible refine Keeps.foldl (fun s x h => ?_) _ ?_
    | with_reducible refine Keeps.of1 ‹_› ?_
    | with_reducible refine Keeps.of2 ‹_› ?_
    | split
    | with_reducible refine Keeps.same ?_ rfl
    | dsimp only)

theorem keep_collWrite (j : CollJob) (c : Cmd) (o : Op) (cm : Comm) (n : Nat) {a s : State} (h : Keeps a s) :
    Keeps a (collWrite j c o cm n s) := by
  have hp : ∀ (b : Nat) (bs : Bytes) (k : State → State), (∀ s, Keeps a s → Keeps a (k s)) → Keeps a
      (match writeMem s b bs with
       | (s, none) => k s
       | (s, some e) => endColl j stUncorr (e % 2 ^ 32) (e / 2 ^ 32) 0 s) := by
    intro b bs k hk
    have h2 := keep_writeMem b bs h
    split
    · next e => exact hk _ (.of1 e h2)
    · next e => exact keep_endColl _ _ _ _ _ (.of1 e h2)
  unfold collWrite
  generalize collDst c o cm = q
  obtain ⟨b, len⟩ := q
  dsimp only
  have hall : Keeps a (match mismatch (signatures cm n (sigParams c)) with
      | some (r, i) => endColl j stInvalid (paramOff o (sigIndex i)) r 0 s
      | none =>
        let (out, sat) := reduce c (reduceCount c o cm) (rankData s c o cm n) s.fresh
        match writeMem s b (resultPart c o cm out) with
        | (s, none) =>
          (fun s : State =>
            let s := if c.p 1 = 2 then { s with fresh := s.fresh + 2 * cm.ranks * c.p 7 } else s
            if sat = 0 then endColl j stOk j.inex 0 0 s else endColl j stTallyRange j.inex (min sat 0xFFFFFFFF) 0 s) s
        | (s, some e) => endColl j stUncorr (e % 2 ^ 32) (e / 2 ^ 32) 0 s) := by
    split
    · exact keep_endColl _ _ _ _ _ h
    · generalize reduce c (reduceCount c o cm) (rankData s c o cm n) s.fresh = q
      obtain ⟨out, sat⟩ := q
      refine hp b _ _ fun s h => ?_
      have h1 : Keeps a (if c.p 1 = 2 then ({ s with fresh := s.fresh + 2 * cm.ranks * c.p 7 } : State) else s) := by
        split
        · exact h.spend (Nat.le_add_right _ _)
        · exact h
      dsimp only
      split
      · exact keep_endColl _ _ _ _ _ h1
      · exact keep_endColl _ _ _ _ _ h1
  split
  · exact hall
  · exact hall
  · exact hp _ _ _ fun s h => keep_endColl _ _ _ _ _ h
  · exact hp _ _ _ fun s h => keep_endColl _ _ _ _ _ h

theorem keep_moveBegin (j : CollJob) (c : Cmd) (k : Nat) (cm : Comm) {a s : State} (h : Keeps a s) : Keeps a (moveBegin j c k cm s) := by
  unfold moveBegin
  try dsimp only
  repeat' (first
    | with_reducible assumption
    | with_reducible refine keep_setComm _ _ ?_
    | with_reducible refine keep_modColl _ _ ?_
    | with_reducible refine keep_contribute _ _ _ _ ?_
    | with_reducible refine Keeps.foldl (fun s x h => ?_) _ ?_
    | with_reducible refine Keeps.of1 ‹_› ?_
    | with_reducible refine Keeps.of2 ‹_› ?_
    | split
    | with_reducible refine Keeps.same ?_ rfl
    | dsimp only)

theorem keep_moveRun (j : CollJob) (cm : Comm) (dst : Nat) (base : Nat) (r : Nat) (o : Nat) (d : Bytes) {a s : State} (h : Keeps a s) : Keeps a (moveRun j cm dst base r o d s) := by
  unfold moveRun
  try dsimp only
  repeat' (first
    | with_reducible assumption
    | with_reducible refine keep_writeMem _ _ ?_
    | with_reducible refine keep_seamSend _ _ _ _ _ ?_
    | with_reducible refine keep_ftWorkWrite _ _ _ _ _ _ _ _ _ ?_
    | with_reducible refine keep_modColl _ _ ?_
    | with_reducible refine keep_collFail _ _ _ _ ?_
    | with_reducible refine Keeps.of1 ‹_› ?_
    | with_reducible refine Keeps.of2 ‹_› ?_
    | split
    | with_reducible refine Keeps.same ?_ rfl
    | dsimp only)

theorem keep_moveCopies (j : CollJob) (c : Cmd) (cm : Comm) (n : Nat) {a s : State} (h : Keeps a s) : Keeps a (moveCopies j c cm n s) := by
  unfold moveCopies
  try dsimp only
  repeat' (first
    | with_reducible assumption
    | with_reducible refine keep_readMem _ _ ?_
    | with_reducible refine keep_collFail _ _ _ _ ?_
    | with_reducible refine keep_moveRun _ _ _ _ _ _ _ ?_
    | with_reducible refine Keeps.foldl (fun s x h => ?_) _ ?_
    | with_reducible refine Keeps.of1 ‹_› ?_
    | with_reducible refine Keeps.of2 ‹_› ?_
    | split
    | with_reducible refine Keeps.same ?_ rfl
    | dsimp only)

theorem keep_moveLanded (t : Nat) (a' : Nat) (n : Nat) {a s : State} (h : Keeps a s) : Keeps a (moveLanded t a' n s) := by
  unfold moveLanded
  try dsimp only
  repeat' (first
    | with_reducible assumption
    | with_reducible refine Keeps.of1 ‹_› ?_
    | with_reducible refine Keeps.of2 ‹_› ?_
    | split
    | with_reducible refine Keeps.same ?_ rfl
    | dsimp only)

theorem keep_collStep (k : Nat) {a s : State} (h : Keeps a s) : Keeps a (collStep k s) := by
  unfold collStep
  try dsimp only
  repeat' (first
    | with_reducible assumption
    | with_reducible refine keep_modColl _ _ ?_
    | with_reducible refine keep_endColl _ _ _ _ _ ?_
    | with_reducible refine keep_ckptErr _ _ ?_
    | with_reducible refine keep_collFail _ _ _ _ ?_
    | with_reducible refine keep_collBegin _ _ _ _ _ ?_
    | with_reducible refine keep_collWrite _ _ _ _ _ ?_
    | with_reducible refine keep_moveBegin _ _ _ _ ?_
    | with_reducible refine keep_moveCopies _ _ _ _ ?_
    | with_reducible refine Keeps.of1 ‹_› ?_
    | with_reducible refine Keeps.of2 ‹_› ?_
    | split
    | with_reducible refine Keeps.same ?_ rfl
    | dsimp only)

theorem keep_collRun (k : Nat) {a : State} : ∀ (y0 : Nat) {s : State}, Keeps a s → Keeps a (collRun k y0 s)
  | 0, s, h => by
    unfold collRun
    try dsimp only
    repeat' (first
      | with_reducible assumption
      | with_reducible refine keep_collRun _ _ ?_
      | with_reducible refine keep_collStep _ ?_
      | with_reducible refine Keeps.of1 ‹_› ?_
      | with_reducible refine Keeps.of2 ‹_› ?_
      | split
      | with_reducible refine Keeps.same ?_ rfl
      | dsimp only)
  | n + 1, s, h => by
    unfold collRun
    try dsimp only
    repeat' (first
      | with_reducible assumption
      | with_reducible refine keep_collRun _ _ ?_
      | with_reducible refine keep_collStep _ ?_
      | with_reducible refine Keeps.of1 ‹_› ?_
      | with_reducible refine Keeps.of2 ‹_› ?_
      | split
      | with_reducible refine Keeps.same ?_ rfl
      | dsimp only)

theorem keep_collsGo {a s : State} (h : Keeps a s) : Keeps a (collsGo s) := by
  unfold collsGo
  try dsimp only
  repeat' (first
    | with_reducible assumption
    | with_reducible refine keep_collRun _ _ ?_
    | with_reducible refine Keeps.foldl (fun s x h => ?_) _ ?_
    | with_reducible refine Keeps.of1 ‹_› ?_
    | with_reducible refine Keeps.of2 ‹_› ?_
    | split
    | with_reducible refine Keeps.same ?_ rfl
    | dsimp only)

theorem keep_collEnd (j : CollJob) (e : FtEnd) {a s : State} (h : Keeps a s) : Keeps a (collEnd j e s) := by
  unfold collEnd
  try dsimp only
  repeat' (first
    | with_reducible assumption
    | with_reducible refine keep_modColl _ _ ?_
    | with_reducible refine keep_collFail _ _ _ _ ?_
    | with_reducible refine Keeps.of1 ‹_› ?_
    | with_reducible refine Keeps.of2 ‹_› ?_
    | split
    | with_reducible refine Keeps.same ?_ rfl
    | dsimp only)

theorem keep_workEnd (e : FtEnd) {a s : State} (h : Keeps a s) : Keeps a (workEnd e s) := by
  unfold workEnd
  try dsimp only
  repeat' (first
    | with_reducible assumption
    | with_reducible refine keep_saveEnd _ _ ?_
    | with_reducible refine keep_restGot _ _ ?_
    | with_reducible refine keep_drainGot _ _ ?_
    | with_reducible refine keep_takeGot _ _ ?_
    | with_reducible refine keep_collEnd _ _ ?_
    | with_reducible refine Keeps.of1 ‹_› ?_
    | with_reducible refine Keeps.of2 ‹_› ?_
    | split
    | with_reducible refine Keeps.same ?_ rfl
    | dsimp only)

theorem keep_workGo {a s : State} (h : Keeps a s) : Keeps a (workGo s) := by
  unfold workGo
  try dsimp only
  repeat' (first
    | with_reducible assumption
    | with_reducible refine keep_drainGo _ ?_
    | with_reducible refine keep_collsGo ?_
    | with_reducible refine keep_workEnd _ ?_
    | with_reducible refine Keeps.foldl (fun s x h => ?_) _ ?_
    | with_reducible refine Keeps.of1 ‹_› ?_
    | with_reducible refine Keeps.of2 ‹_› ?_
    | split
    | with_reducible refine Keeps.same ?_ rfl
    | dsimp only)

end Sys2Proof.Machine
end

