-- ==== Sys2Proof/Laws/KeepStorage.lean ====
section
/-! SUPPORT. What the operations of Machine/Storage.lean keep: soundness, the queue, the draws, the wire. -/
namespace Sys2Proof.Machine

open Sys2Proof

theorem keep_execStoDoorbellWrite (who : Nat) (qi : Nat) (word : Nat) (val : Word) {s s' : State} (h : execStoDoorbellWrite who qi word val s = .next s') : Keeps s s' := by
  unfold execStoDoorbellWrite at h
  refine keep_run (fun s h => ?_) h
  try dsimp only
  repeat' (first
    | with_reducible assumption
    | with_reducible refine keep_onlyIf _ _ (fun _ h => ?_) ?_
    | with_reducible refine keep_sticky _ _ _ _ _ ?_
    | with_reducible refine keep_devInst _ _ _ (fun _ h => ?_) ?_
    | with_reducible refine keep_setStoQ _ _ ?_
    | with_reducible refine keep_stoRun ?_
    | with_reducible refine Keeps.of1 ‹_› ?_
    | with_reducible refine Keeps.of2 ‹_› ?_
    | split
    | with_reducible refine Keeps.same ?_ rfl
    | dsimp only)

theorem keep_stoAsk {a s : State} (h : Keeps a s) : Keeps a (stoAsk s) := by
  unfold stoAsk
  try dsimp only
  repeat' (first
    | with_reducible assumption
    | with_reducible refine keep_hostAsk _ _ _ ?_
    | with_reducible refine Keeps.foldl (fun s x h => ?_) _ ?_
    | with_reducible refine Keeps.of1 ‹_› ?_
    | with_reducible refine Keeps.of2 ‹_› ?_
    | split
    | with_reducible refine Keeps.same ?_ rfl
    | dsimp only)

theorem keep_stoWake {a s : State} (h : Keeps a s) : Keeps a (stoWake s) := by
  unfold stoWake
  try dsimp only
  repeat' (first
    | with_reducible assumption
    | with_reducible refine keep_wakeSpan _ _ ?_
    | with_reducible refine Keeps.foldl (fun s x h => ?_) _ ?_
    | with_reducible refine Keeps.of1 ‹_› ?_
    | with_reducible refine Keeps.of2 ‹_› ?_
    | split
    | with_reducible refine Keeps.same ?_ rfl
    | dsimp only)

theorem keep_bufFail (take : Nat) (e : RdErr) {a s : State} (h : Keeps a s) : Keeps a (bufFail take e s) := by
  unfold bufFail
  try dsimp only
  repeat' (first
    | with_reducible assumption
    | with_reducible refine keep_stoFail _ _ _ _ ?_
    | with_reducible refine Keeps.of1 ‹_› ?_
    | with_reducible refine Keeps.of2 ‹_› ?_
    | split
    | with_reducible refine Keeps.same ?_ rfl
    | dsimp only)

theorem keep_startRead (t : Nat) (o : StoOp) {a s : State} (h : Keeps a s) : Keeps a (startRead t o s) := by
  unfold startRead
  try dsimp only
  repeat' (first
    | with_reducible assumption
    | with_reducible refine keep_count _ _ _ _ ?_
    | with_reducible refine keep_writeAddr _ _ _ ?_
    | with_reducible refine keep_modOp _ _ ?_
    | with_reducible refine keep_bufFail _ _ ?_
    | with_reducible refine Keeps.foldl (fun s x h => ?_) _ ?_
    | with_reducible refine Keeps.of1 ‹_› ?_
    | with_reducible refine Keeps.of2 ‹_› ?_
    | split
    | with_reducible refine Keeps.same ?_ rfl
    | dsimp only)

theorem keep_startWrite (t : Nat) (o : StoOp) {a s : State} (h : Keeps a s) : Keeps a (startWrite t o s) := by
  unfold startWrite
  try dsimp only
  repeat' (first
    | with_reducible assumption
    | with_reducible refine keep_count _ _ _ _ ?_
    | with_reducible refine keep_readAddr _ _ _ ?_
    | with_reducible refine keep_modOp _ _ ?_
    | with_reducible refine keep_bufFail _ _ ?_
    | with_reducible refine Keeps.of1 ‹_› ?_
    | with_reducible refine Keeps.of2 ‹_› ?_
    | split
    | with_reducible refine Keeps.same ?_ rfl
    | dsimp only)

theorem keep_joinTest (take : Nat) (kind : Nat) (d : Nat) {a s : State} (h : Keeps a s) : Keeps a (joinTest take kind d s) := by
  unfold joinTest
  try dsimp only
  repeat' (first
    | with_reducible assumption
    | with_reducible refine keep_send _ ?_
    | with_reducible refine keep_setDrive _ _ ?_
    | with_reducible refine keep_nvme _ _ _ _ _ _ ?_
    | with_reducible refine keep_stoMedia _ _ _ _ ?_
    | with_reducible refine Keeps.of1 ‹_› ?_
    | with_reducible refine Keeps.of2 ‹_› ?_
    | split
    | with_reducible refine Keeps.same ?_ rfl
    | dsimp only)

theorem keep_stoStart (t : Nat) (o : StoOp) (e : Bytes) {a s : State} (h : Keeps a s) : Keeps a (stoStart t o e s) := by
  unfold stoStart
  try dsimp only
  repeat' (first
    | with_reducible assumption
    | with_reducible refine keep_count _ _ _ _ ?_
    | with_reducible refine keep_setVol _ _ ?_
    | with_reducible refine keep_allPower ?_
    | with_reducible refine keep_modOp _ _ ?_
    | with_reducible refine keep_stoFail _ _ _ _ ?_
    | with_reducible refine keep_startRead _ _ ?_
    | with_reducible refine keep_startWrite _ _ ?_
    | with_reducible refine keep_joinTest _ _ _ ?_
    | with_reducible refine Keeps.foldl (fun s x h => ?_) _ ?_
    | with_reducible refine Keeps.of1 ‹_› ?_
    | with_reducible refine Keeps.of2 ‹_› ?_
    | split
    | with_reducible refine Keeps.same ?_ rfl
    | dsimp only)

theorem keep_stoAdd (o : StoOp) {a s : State} (h : Keeps a s) : Keeps a (stoAdd o s) := by
  unfold stoAdd
  try dsimp only
  repeat' (first
    | with_reducible assumption
    | with_reducible refine Keeps.of1 ‹_› ?_
    | with_reducible refine Keeps.of2 ‹_› ?_
    | split
    | with_reducible refine Keeps.same ?_ rfl
    | dsimp only)

theorem keep_stoReach (b : Bool) (op t buf len : Nat) {a s : State} (h : Keeps a s) :
    Keeps a (if !b then (false, addrDenied (tenReq t 0x212) s)
      else if op = 1 ∨ op = 2 ∨ op = 5 then mayReach t buf len (op == 1) 0x212 s else (true, s)).2 := by
  split
  · exact keep_addrDenied _ h
  · split
    · exact keep_mayReach _ _ _ _ _ h
    · exact h

theorem keep_stoTakeEntry (i : Nat) (e : Bytes) {a s : State} (h : Keeps a s) : Keeps a (stoTakeEntry i e s) := by
  unfold stoTakeEntry
  extract_lets t n s0 s1 o op sync vol buf len bound
  have h1 : Keeps a s1 := h.same rfl
  clear_value s1
  split
  · exact keep_stoAdd _ h1
  · split
    · exact keep_stoAdd _ h1
    · have h2 := keep_stoReach ((s1.vol vol).st == 2 && (s1.vol vol).tenant == t) op t buf len h1
      generalize (if !((s1.vol vol).st == 2 && (s1.vol vol).tenant == t) then (false, addrDenied (tenReq t 0x212) s1)
        else if op = 1 ∨ op = 2 ∨ op = 5 then mayReach t buf len (op == 1) 0x212 s1 else (true, s1)) = q at h2
      obtain ⟨ok, s2⟩ := q
      dsimp only at h2
      dsimp only
      split
      · exact keep_stoAdd _ h2
      · split
        · exact keep_stoAdd _ (keep_addrDenied _ h2)
        · split
          · exact keep_stoAdd _ h2
          · split
            · exact keep_stoAdd _ (keep_orReg _ _ _ _ h2)
            · exact keep_stoStart _ _ _ (keep_stoAdd _ h2)

theorem keep_stoTake (op : Nat) {a s : State} (h : Keeps a s) : Keeps a (stoTake op s) := by
  have h := keep_stoAsk h
  unfold stoTake
  extract_lets s1
  change Keeps a s1 at h
  clear_value s1
  split
  · exact keep_stoWake h
  · dsimp only
    split
    · split
      · exact keep_stoRun (keep_stoTakeEntry _ _ (keep_setWq _ _ h))
      · split
        · exact keep_sticky _ _ _ _ _ (keep_setStoQ _ _ h)
        · exact keep_stoRun (keep_stoTakeEntry _ _ (keep_setStoQ _ _ h))
    · exact h

theorem keep_execStoRead  {s s' : State} (h : execStoRead s = .next s') : Keeps s s' := by
  unfold execStoRead at h
  refine keep_run (fun s h => ?_) h
  try dsimp only
  repeat' (first
    | with_reducible assumption
    | with_reducible refine keep_stoTake _ ?_
    | with_reducible refine Keeps.of1 ‹_› ?_
    | with_reducible refine Keeps.of2 ‹_› ?_
    | split
    | with_reducible refine Keeps.same ?_ rfl
    | dsimp only)

theorem keep_execStoWrite  {s s' : State} (h : execStoWrite s = .next s') : Keeps s s' := by
  unfold execStoWrite at h
  refine keep_run (fun s h => ?_) h
  try dsimp only
  repeat' (first
    | with_reducible assumption
    | with_reducible refine keep_stoTake _ ?_
    | with_reducible refine Keeps.of1 ‹_› ?_
    | with_reducible refine Keeps.of2 ‹_› ?_
    | split
    | with_reducible refine Keeps.same ?_ rfl
    | dsimp only)

theorem keep_execStoFlush  {s s' : State} (h : execStoFlush s = .next s') : Keeps s s' := by
  unfold execStoFlush at h
  refine keep_run (fun s h => ?_) h
  try dsimp only
  repeat' (first
    | with_reducible assumption
    | with_reducible refine keep_stoTake _ ?_
    | with_reducible refine Keeps.of1 ‹_› ?_
    | with_reducible refine Keeps.of2 ‹_› ?_
    | split
    | with_reducible refine Keeps.same ?_ rfl
    | dsimp only)

theorem keep_execStoTrim  {s s' : State} (h : execStoTrim s = .next s') : Keeps s s' := by
  unfold execStoTrim at h
  refine keep_run (fun s h => ?_) h
  try dsimp only
  repeat' (first
    | with_reducible assumption
    | with_reducible refine keep_stoTake _ ?_
    | with_reducible refine Keeps.of1 ‹_› ?_
    | with_reducible refine Keeps.of2 ‹_› ?_
    | split
    | with_reducible refine Keeps.same ?_ rfl
    | dsimp only)

theorem keep_execStoAtomicWrite  {s s' : State} (h : execStoAtomicWrite s = .next s') : Keeps s s' := by
  unfold execStoAtomicWrite at h
  refine keep_run (fun s h => ?_) h
  try dsimp only
  repeat' (first
    | with_reducible assumption
    | with_reducible refine keep_stoTake _ ?_
    | with_reducible refine Keeps.of1 ‹_› ?_
    | with_reducible refine Keeps.of2 ‹_› ?_
    | split
    | with_reducible refine Keeps.same ?_ rfl
    | dsimp only)

theorem keep_execStoSelfTest  {s s' : State} (h : execStoSelfTest s = .next s') : Keeps s s' := by
  unfold execStoSelfTest at h
  refine keep_run (fun s h => ?_) h
  try dsimp only
  repeat' (first
    | with_reducible assumption
    | with_reducible refine keep_stoTake _ ?_
    | with_reducible refine Keeps.of1 ‹_› ?_
    | with_reducible refine Keeps.of2 ‹_› ?_
    | split
    | with_reducible refine Keeps.same ?_ rfl
    | dsimp only)

theorem keep_execStoPower  {s s' : State} (h : execStoPower s = .next s') : Keeps s s' := by
  unfold execStoPower at h
  refine keep_run (fun s h => ?_) h
  try dsimp only
  repeat' (first
    | with_reducible assumption
    | with_reducible refine keep_stoTake _ ?_
    | with_reducible refine Keeps.of1 ‹_› ?_
    | with_reducible refine Keeps.of2 ‹_› ?_
    | split
    | with_reducible refine Keeps.same ?_ rfl
    | dsimp only)

theorem keep_endJob (id : Nat) {a s : State} (h : Keeps a s) : Keeps a (endJob id s) := by
  unfold endJob
  try dsimp only
  repeat' (first
    | with_reducible assumption
    | with_reducible refine keep_finish0 _ _ ?_
    | with_reducible refine keep_setVol _ _ ?_
    | with_reducible refine Keeps.of1 ‹_› ?_
    | with_reducible refine Keeps.of2 ‹_› ?_
    | split
    | with_reducible refine Keeps.same ?_ rfl
    | dsimp only)

theorem keep_jobAnswer (d : Nat) (id : Nat) (r : JRec) (ok : Bool) {a s : State} (h : Keeps a s) : Keeps a (jobAnswer d id r ok s) := by
  unfold jobAnswer
  try dsimp only
  repeat' (first
    | with_reducible assumption
    | with_reducible refine keep_count _ _ _ _ ?_
    | with_reducible refine keep_sticky _ _ _ _ _ ?_
    | with_reducible refine keep_setDrive _ _ ?_
    | with_reducible refine keep_endJob _ ?_
    | with_reducible refine Keeps.of1 ‹_› ?_
    | with_reducible refine Keeps.of2 ‹_› ?_
    | split
    | with_reducible refine Keeps.same ?_ rfl
    | dsimp only)

theorem keep_partAnswer (d : Nat) (take : Nat) (i : Nat) (data : Bytes) {a s : State} (h : Keeps a s) : Keeps a (partAnswer d take i data s) := by
  unfold partAnswer
  try dsimp only
  repeat' (first
    | with_reducible assumption
    | with_reducible refine keep_writeAddr _ _ _ ?_
    | with_reducible refine keep_setDrive _ _ ?_
    | with_reducible refine keep_nvmeJournal _ _ _ _ ?_
    | with_reducible refine keep_setPart _ _ _ ?_
    | with_reducible refine keep_stopPart _ _ _ ?_
    | with_reducible refine keep_writeNew _ _ _ _ ?_
    | with_reducible refine keep_bufFail _ _ ?_
    | with_reducible refine Keeps.of1 ‹_› ?_
    | with_reducible refine Keeps.of2 ‹_› ?_
    | split
    | with_reducible refine Keeps.same ?_ rfl
    | dsimp only)

theorem keep_nvmeEnd (d : Nat) (status : Nat) (data : Bytes) (why : NFor) {a s : State} (h : Keeps a s) : Keeps a (nvmeEnd d status data why s) := by
  unfold nvmeEnd
  try dsimp only
  repeat' (first
    | with_reducible assumption
    | with_reducible refine keep_setDrive _ _ ?_
    | with_reducible refine keep_drivePower _ ?_
    | with_reducible refine keep_stoMedia _ _ _ _ ?_
    | with_reducible refine keep_stopPart _ _ _ ?_
    | with_reducible refine keep_jobAnswer _ _ _ _ ?_
    | with_reducible refine keep_partAnswer _ _ _ _ ?_
    | with_reducible refine Keeps.of1 ‹_› ?_
    | with_reducible refine Keeps.of2 ‹_› ?_
    | split
    | with_reducible refine Keeps.same ?_ rfl
    | dsimp only)

theorem keep_execNvmeCommandComplete (d : Replayed) (cid : Nat) (status : Nat) (data : Bytes) {s s' : State} (h : execNvmeCommandComplete d cid status data s = .next s') : Keeps s s' := by
  unfold execNvmeCommandComplete at h
  refine keep_run (fun s h => ?_) h
  try dsimp only
  repeat' (first
    | with_reducible assumption
    | with_reducible refine keep_countTv _ _ ?_
    | with_reducible refine keep_setDrive _ _ ?_
    | with_reducible refine keep_stoRun ?_
    | with_reducible refine keep_workGo ?_
    | with_reducible refine keep_nvmeEnd _ _ _ _ ?_
    | with_reducible refine Keeps.of1 ‹_› ?_
    | with_reducible refine Keeps.of2 ‹_› ?_
    | split
    | with_reducible refine Keeps.same ?_ rfl
    | dsimp only)

theorem keep_partAgain (take : Nat) (i : Nat) {a s : State} (h : Keeps a s) : Keeps a (partAgain take i s) := by
  unfold partAgain
  try dsimp only
  repeat' (first
    | with_reducible assumption
    | with_reducible refine keep_setPart _ _ _ ?_
    | with_reducible refine Keeps.of1 ‹_› ?_
    | with_reducible refine Keeps.of2 ‹_› ?_
    | split
    | with_reducible refine Keeps.same ?_ rfl
    | dsimp only)

theorem keep_nvmeRedo (l : List NCmd) {a s : State} (h : Keeps a s) : Keeps a (nvmeRedo l s) := by
  unfold nvmeRedo
  try dsimp only
  repeat' (first
    | with_reducible assumption
    | with_reducible refine keep_partAgain _ _ ?_
    | with_reducible refine Keeps.foldl (fun s x h => ?_) _ ?_
    | with_reducible refine Keeps.of1 ‹_› ?_
    | with_reducible refine Keeps.of2 ‹_› ?_
    | split
    | with_reducible refine Keeps.same ?_ rfl
    | dsimp only)

theorem keep_nvmeLate (d : Nat) (why : NFor) {a s : State} (h : Keeps a s) : Keeps a (nvmeLate d why s) := by
  unfold nvmeLate
  try dsimp only
  repeat' (first
    | with_reducible assumption
    | with_reducible refine keep_setDrive _ _ ?_
    | with_reducible refine keep_stoMedia _ _ _ _ ?_
    | with_reducible refine keep_stopPart _ _ _ ?_
    | with_reducible refine keep_jobAnswer _ _ _ _ ?_
    | with_reducible refine Keeps.of1 ‹_› ?_
    | with_reducible refine Keeps.of2 ‹_› ?_
    | split
    | with_reducible refine Keeps.same ?_ rfl
    | dsimp only)

theorem keep_execNvmeCommandTimeout (d : Nat) (cid : Nat) {s s' : State} (h : execNvmeCommandTimeout d cid s = .next s') : Keeps s s' := by
  unfold execNvmeCommandTimeout at h
  refine keep_run (fun s h => ?_) h
  try dsimp only
  repeat' (first
    | with_reducible assumption
    | with_reducible refine keep_send _ ?_
    | with_reducible refine keep_sticky _ _ _ _ _ ?_
    | with_reducible refine keep_setDrive _ _ ?_
    | with_reducible refine keep_nvme _ _ _ _ _ _ ?_
    | with_reducible refine keep_stoRun ?_
    | with_reducible refine keep_workGo ?_
    | with_reducible refine keep_nvmeRedo _ ?_
    | with_reducible refine keep_nvmeLate _ _ ?_
    | with_reducible refine Keeps.of1 ‹_› ?_
    | with_reducible refine Keeps.of2 ‹_› ?_
    | split
    | with_reducible refine Keeps.same ?_ rfl
    | dsimp only)

theorem keep_execDriveReady (d : Nat) {s s' : State} (h : execDriveReady d s = .next s') : Keeps s s' := by
  unfold execDriveReady at h
  refine keep_run (fun s h => ?_) h
  try dsimp only
  repeat' (first
    | with_reducible assumption
    | with_reducible refine keep_onlyIf _ _ (fun _ h => ?_) ?_
    | with_reducible refine keep_setDrive _ _ ?_
    | with_reducible refine keep_stoRun ?_
    | with_reducible refine Keeps.of1 ‹_› ?_
    | with_reducible refine Keeps.of2 ‹_› ?_
    | split
    | with_reducible refine Keeps.same ?_ rfl
    | dsimp only)

theorem keep_driveFail (d : Nat) {a s : State} (h : Keeps a s) : Keeps a (driveFail d s) := by
  unfold driveFail
  try dsimp only
  repeat' (first
    | with_reducible assumption
    | with_reducible refine keep_sticky _ _ _ _ _ ?_
    | with_reducible refine keep_setDrive _ _ ?_
    | with_reducible refine keep_stoMedia _ _ _ _ ?_
    | with_reducible refine keep_stopPart _ _ _ ?_
    | with_reducible refine keep_stoRun ?_
    | with_reducible refine keep_workGo ?_
    | with_reducible refine keep_jobAnswer _ _ _ _ ?_
    | with_reducible refine Keeps.foldl (fun s x h => ?_) _ ?_
    | with_reducible refine Keeps.of1 ‹_› ?_
    | with_reducible refine Keeps.of2 ‹_› ?_
    | split
    | with_reducible refine Keeps.same ?_ rfl
    | dsimp only)

theorem keep_execDriveReadyTimeout (d : Nat) {s s' : State} (h : execDriveReadyTimeout d s = .next s') : Keeps s s' := by
  unfold execDriveReadyTimeout at h
  refine keep_run (fun s h => ?_) h
  try dsimp only
  repeat' (first
    | with_reducible assumption
    | with_reducible refine keep_onlyIf _ _ (fun _ h => ?_) ?_
    | with_reducible refine keep_driveFail _ ?_
    | with_reducible refine Keeps.of1 ‹_› ?_
    | with_reducible refine Keeps.of2 ‹_› ?_
    | split
    | with_reducible refine Keeps.same ?_ rfl
    | dsimp only)

theorem keep_driveAccept (d : Nat) (i : DriveId) {a s : State} (h : Keeps a s) : Keeps a (driveAccept d i s) := by
  unfold driveAccept
  try dsimp only
  repeat' (first
    | with_reducible assumption
    | with_reducible refine keep_sticky _ _ _ _ _ ?_
    | with_reducible refine keep_refuse _ _ _ ?_
    | with_reducible refine keep_setDrive _ _ ?_
    | with_reducible refine keep_setVol _ _ ?_
    | with_reducible refine keep_drivePower _ ?_
    | with_reducible refine keep_stoRun ?_
    | with_reducible refine Keeps.foldl (fun s x h => ?_) _ ?_
    | with_reducible refine Keeps.of1 ‹_› ?_
    | with_reducible refine Keeps.of2 ‹_› ?_
    | split
    | with_reducible refine Keeps.same ?_ rfl
    | dsimp only)

theorem keep_execDrivePresenceChange (d : Nat) (ident : Option DriveId) {s s' : State} (h : execDrivePresenceChange d ident s = .next s') : Keeps s s' := by
  unfold execDrivePresenceChange at h
  refine keep_run (fun s h => ?_) h
  try dsimp only
  repeat' (first
    | with_reducible assumption
    | with_reducible refine keep_setDrive _ _ ?_
    | with_reducible refine keep_driveFail _ ?_
    | with_reducible refine keep_driveAccept _ _ ?_
    | with_reducible refine Keeps.of1 ‹_› ?_
    | with_reducible refine Keeps.of2 ‹_› ?_
    | split
    | with_reducible refine Keeps.same ?_ rfl
    | dsimp only)

theorem keep_execDeviceSelfTestComplete (d : Nat) (result : Nat) {s s' : State} (h : execDeviceSelfTestComplete d result s = .next s') : Keeps s s' := by
  unfold execDeviceSelfTestComplete at h
  refine keep_run (fun s h => ?_) h
  try dsimp only
  repeat' (first
    | with_reducible assumption
    | with_reducible refine keep_setDrive _ _ ?_
    | with_reducible refine keep_modOp _ _ ?_
    | with_reducible refine keep_stoRun ?_
    | with_reducible refine Keeps.foldl (fun s x h => ?_) _ ?_
    | with_reducible refine Keeps.of1 ‹_› ?_
    | with_reducible refine Keeps.of2 ‹_› ?_
    | split
    | with_reducible refine Keeps.same ?_ rfl
    | dsimp only)

theorem keep_execSelfTestRestart (d : Nat) {s s' : State} (h : execSelfTestRestart d s = .next s') : Keeps s s' := by
  unfold execSelfTestRestart at h
  refine keep_run (fun s h => ?_) h
  try dsimp only
  repeat' (first
    | with_reducible assumption
    | with_reducible refine keep_count _ _ _ _ ?_
    | with_reducible refine keep_send _ ?_
    | with_reducible refine keep_setDrive _ _ ?_
    | with_reducible refine keep_nvme _ _ _ _ _ _ ?_
    | with_reducible refine keep_modOp _ _ ?_
    | with_reducible refine Keeps.foldl (fun s x h => ?_) _ ?_
    | with_reducible refine Keeps.of1 ‹_› ?_
    | with_reducible refine Keeps.of2 ‹_› ?_
    | split
    | with_reducible refine Keeps.same ?_ rfl
    | dsimp only)

theorem keep_leaveTest (take : Nat) (d : Nat) {a s : State} (h : Keeps a s) : Keeps a (leaveTest take d s) := by
  unfold leaveTest
  try dsimp only
  repeat' (first
    | with_reducible assumption
    | with_reducible refine keep_send _ ?_
    | with_reducible refine keep_setDrive _ _ ?_
    | with_reducible refine keep_nvme _ _ _ _ _ _ ?_
    | with_reducible refine Keeps.of1 ‹_› ?_
    | with_reducible refine Keeps.of2 ‹_› ?_
    | split
    | with_reducible refine Keeps.same ?_ rfl
    | dsimp only)

theorem keep_execSelfTestLimit (take : Nat) {s s' : State} (h : execSelfTestLimit take s = .next s') : Keeps s s' := by
  unfold execSelfTestLimit at h
  refine keep_run (fun s h => ?_) h
  try dsimp only
  repeat' (first
    | with_reducible assumption
    | with_reducible refine keep_modOp _ _ ?_
    | with_reducible refine keep_stoRun ?_
    | with_reducible refine keep_leaveTest _ _ ?_
    | with_reducible refine Keeps.foldl (fun s x h => ?_) _ ?_
    | with_reducible refine Keeps.of1 ‹_› ?_
    | with_reducible refine Keeps.of2 ‹_› ?_
    | split
    | with_reducible refine Keeps.same ?_ rfl
    | dsimp only)

theorem keep_execApstWrite (who : Nat) (d : Nat) (val : Word) {s s' : State} (h : execApstWrite who d val s = .next s') : Keeps s s' := by
  unfold execApstWrite at h
  refine keep_run (fun s h => ?_) h
  try dsimp only
  repeat' (first
    | with_reducible assumption
    | with_reducible refine keep_onlyIf _ _ (fun _ h => ?_) ?_
    | with_reducible refine keep_setReg _ _ _ _ ?_
    | with_reducible refine keep_devInst _ _ _ (fun _ h => ?_) ?_
    | with_reducible refine keep_setDrive _ _ ?_
    | with_reducible refine keep_drivePower _ ?_
    | with_reducible refine keep_stoRun ?_
    | with_reducible refine Keeps.of1 ‹_› ?_
    | with_reducible refine Keeps.of2 ‹_› ?_
    | split
    | with_reducible refine Keeps.same ?_ rfl
    | dsimp only)

theorem keep_execSqCreate (id : Nat) {s s' : State} (h : execSqCreate id s = .next s') : Keeps s s' := by
  unfold execSqCreate at h
  refine keep_run (fun s h => ?_) h
  try dsimp only
  repeat' (first
    | with_reducible assumption
    | with_reducible refine keep_finish0 _ _ ?_
    | with_reducible refine keep_startOp _ _ _ (fun _ _ h => ?_) ?_
    | with_reducible refine keep_need6 _ _ _ _ _ _ (fun _ h => ?_) ?_
    | with_reducible refine keep_varRefuse _ ?_
    | with_reducible refine keep_setStoQ _ _ ?_
    | with_reducible refine Keeps.of1 ‹_› ?_
    | with_reducible refine Keeps.of2 ‹_› ?_
    | split
    | with_reducible refine Keeps.same ?_ rfl
    | dsimp only)

theorem keep_execSqDelete (id : Nat) {s s' : State} (h : execSqDelete id s = .next s') : Keeps s s' := by
  unfold execSqDelete at h
  refine keep_run (fun s h => ?_) h
  try dsimp only
  repeat' (first
    | with_reducible assumption
    | with_reducible refine keep_finish0 _ _ ?_
    | with_reducible refine keep_startOp _ _ _ (fun _ _ h => ?_) ?_
    | with_reducible refine keep_need6 _ _ _ _ _ _ (fun _ h => ?_) ?_
    | with_reducible refine Keeps.of1 ‹_› ?_
    | with_reducible refine Keeps.of2 ‹_› ?_
    | split
    | with_reducible refine Keeps.same ?_ rfl
    | dsimp only)

theorem keep_volTake (id : Nat) (v : Nat) (mask : Nat) (blocks : Nat) (d : Nat) {a s : State} (h : Keeps a s) : Keeps a (volTake id v mask blocks d s) := by
  unfold volTake
  try dsimp only
  repeat' (first
    | with_reducible assumption
    | with_reducible refine keep_setDrive _ _ ?_
    | with_reducible refine Keeps.of1 ‹_› ?_
    | with_reducible refine Keeps.of2 ‹_› ?_
    | split
    | with_reducible refine Keeps.same ?_ rfl
    | dsimp only)

theorem keep_execVolCreate (id : Nat) {s s' : State} (h : execVolCreate id s = .next s') : Keeps s s' := by
  unfold execVolCreate at h
  refine keep_run (fun s h => ?_) h
  try dsimp only
  repeat' (first
    | with_reducible assumption
    | with_reducible refine keep_working _ ?_
    | with_reducible refine keep_startOp _ _ _ (fun _ _ h => ?_) ?_
    | with_reducible refine keep_need6 _ _ _ _ _ _ (fun _ h => ?_) ?_
    | with_reducible refine keep_need7 _ _ _ (fun _ h => ?_) ?_
    | with_reducible refine keep_stoRun ?_
    | with_reducible refine keep_volTake _ _ _ _ _ ?_
    | with_reducible refine Keeps.foldl (fun s x h => ?_) _ ?_
    | with_reducible refine Keeps.of1 ‹_› ?_
    | with_reducible refine Keeps.of2 ‹_› ?_
    | split
    | with_reducible refine Keeps.same ?_ rfl
    | dsimp only)

theorem keep_execVolDelete (id : Nat) {s s' : State} (h : execVolDelete id s = .next s') : Keeps s s' := by
  unfold execVolDelete at h
  refine keep_run (fun s h => ?_) h
  try dsimp only
  repeat' (first
    | with_reducible assumption
    | with_reducible refine keep_working _ ?_
    | with_reducible refine keep_startOp _ _ _ (fun _ _ h => ?_) ?_
    | with_reducible refine keep_need6 _ _ _ _ _ _ (fun _ h => ?_) ?_
    | with_reducible refine keep_setDrive _ _ ?_
    | with_reducible refine keep_stoRun ?_
    | with_reducible refine keep_endJob _ ?_
    | with_reducible refine Keeps.foldl (fun s x h => ?_) _ ?_
    | with_reducible refine Keeps.of1 ‹_› ?_
    | with_reducible refine Keeps.of2 ‹_› ?_
    | split
    | with_reducible refine Keeps.same ?_ rfl
    | dsimp only)

theorem keep_execVolBind (id : Nat) {s s' : State} (h : execVolBind id s = .next s') : Keeps s s' := by
  unfold execVolBind at h
  refine keep_run (fun s h => ?_) h
  try dsimp only
  repeat' (first
    | with_reducible assumption
    | with_reducible refine keep_finish0 _ _ ?_
    | with_reducible refine keep_startOp _ _ _ (fun _ _ h => ?_) ?_
    | with_reducible refine keep_need6 _ _ _ _ _ _ (fun _ h => ?_) ?_
    | with_reducible refine keep_setVol _ _ ?_
    | with_reducible refine keep_allPower ?_
    | with_reducible refine keep_stoRun ?_
    | with_reducible refine Keeps.of1 ‹_› ?_
    | with_reducible refine Keeps.of2 ‹_› ?_
    | split
    | with_reducible refine Keeps.same ?_ rfl
    | dsimp only)

theorem keep_execDriveInfo (id : Nat) {s s' : State} (h : execDriveInfo id s = .next s') : Keeps s s' := by
  unfold execDriveInfo at h
  refine keep_run (fun s h => ?_) h
  try dsimp only
  repeat' (first
    | with_reducible assumption
    | with_reducible refine keep_hostWrite _ _ _ ?_
    | with_reducible refine keep_finish0 _ _ ?_
    | with_reducible refine keep_conflict _ _ _ _ _ ?_
    | with_reducible refine keep_failHost _ _ ?_
    | with_reducible refine keep_startOp _ _ _ (fun _ _ h => ?_) ?_
    | with_reducible refine Keeps.of1 ‹_› ?_
    | with_reducible refine Keeps.of2 ‹_› ?_
    | split
    | with_reducible refine Keeps.same ?_ rfl
    | dsimp only)

theorem keep_stoTenantReset (t : Nat) {a s : State} (h : Keeps a s) : Keeps a (stoTenantReset t s) := by
  unfold stoTenantReset
  try dsimp only
  repeat' (first
    | with_reducible assumption
    | with_reducible refine keep_allPower ?_
    | with_reducible refine keep_stoRun ?_
    | with_reducible refine keep_leaveTest _ _ ?_
    | with_reducible refine Keeps.foldl (fun s x h => ?_) _ ?_
    | with_reducible refine Keeps.of1 ‹_› ?_
    | with_reducible refine Keeps.of2 ‹_› ?_
    | split
    | with_reducible refine Keeps.same ?_ rfl
    | dsimp only)

end Sys2Proof.Machine
end

