-- ==== Sys2Proof/Laws/KeepBeadCore.lean ====
section
/-! SUPPORT. What the operations of Machine/BeadCore.lean keep: soundness, the queue, the draws, the wire. -/
namespace Sys2Proof.Machine

open Sys2Proof

theorem keep_fetch (k : Nat) (pc : Nat) {a s : State} (h : Keeps a s) : Keeps a (fetch s k pc).1 := by
  unfold fetch
  try dsimp only
  repeat' (first
    | with_reducible assumption
    | with_reducible refine keep_readMem _ _ ?_
    | with_reducible refine Keeps.of1 ‹_› ?_
    | with_reducible refine Keeps.of2 ‹_› ?_
    | split
    | with_reducible refine Keeps.same ?_ rfl
    | dsimp only)

theorem keep_freeCores (id : Nat) {a s : State} (h : Keeps a s) : Keeps a (freeCores id s) := by
  unfold freeCores
  try dsimp only
  repeat' (first
    | with_reducible assumption
    | with_reducible refine Keeps.of1 ‹_› ?_
    | with_reducible refine Keeps.of2 ‹_› ?_
    | split
    | with_reducible refine Keeps.same ?_ rfl
    | dsimp only)

theorem keep_coresReply (id : Nat) (k : Nat) (fault : Option (Nat × Nat)) {a s : State} (h : Keeps a s) : Keeps a (coresReply id k fault s) := by
  unfold coresReply
  try dsimp only
  repeat' (first
    | with_reducible assumption
    | with_reducible refine keep_finish _ _ _ _ _ _ ?_
    | with_reducible refine keep_finish0 _ _ ?_
    | with_reducible refine keep_freeCores _ ?_
    | with_reducible refine Keeps.of1 ‹_› ?_
    | with_reducible refine Keeps.of2 ‹_› ?_
    | split
    | with_reducible refine Keeps.same ?_ rfl
    | dsimp only)

theorem keep_reoffer {a s : State} (h : Keeps a s) : Keeps a (reoffer s) := by
  unfold reoffer
  try dsimp only
  repeat' (first
    | with_reducible assumption
    | with_reducible refine keep_setCore _ _ ?_
    | with_reducible refine Keeps.foldl (fun s x h => ?_) _ ?_
    | with_reducible refine Keeps.of1 ‹_› ?_
    | with_reducible refine Keeps.of2 ‹_› ?_
    | split
    | with_reducible refine Keeps.same ?_ rfl
    | dsimp only)

theorem keep_withdrawOffers (k : Nat) {a s : State} (h : Keeps a s) : Keeps a (withdrawOffers k s) := by
  unfold withdrawOffers
  try dsimp only
  repeat' (first
    | with_reducible assumption
    | with_reducible refine keep_setCore _ _ ?_
    | with_reducible refine Keeps.of1 ‹_› ?_
    | with_reducible refine Keeps.of2 ‹_› ?_
    | split
    | with_reducible refine Keeps.same ?_ rfl
    | dsimp only)

theorem keep_takeExc (k : Nat) (e : Exc) (pc : Nat) (delayed : Bool) {a s : State} (h : Keeps a s) : Keeps a (takeExc k e pc delayed s) := by
  unfold takeExc
  try dsimp only
  repeat' (first
    | with_reducible assumption
    | with_reducible refine keep_setReg _ _ _ _ ?_
    | with_reducible refine keep_orReg _ _ _ _ ?_
    | with_reducible refine keep_raise _ _ _ _ _ ?_
    | with_reducible refine keep_setCore _ _ ?_
    | with_reducible refine keep_withdraw _ _ ?_
    | with_reducible refine keep_coresReply _ _ _ ?_
    | with_reducible refine keep_withdrawOffers _ ?_
    | with_reducible refine Keeps.of1 ‹_› ?_
    | with_reducible refine Keeps.of2 ‹_› ?_
    | split
    | with_reducible refine Keeps.same ?_ rfl
    | dsimp only)

theorem keep_applyDue (k : Nat) {a s : State} (h : Keeps a s) : Keeps a (applyDue k s) := by
  unfold applyDue
  try dsimp only
  repeat' (first
    | with_reducible assumption
    | with_reducible refine keep_setCore _ _ ?_
    | with_reducible refine Keeps.foldl (fun s x h => ?_) _ ?_
    | with_reducible refine Keeps.of1 ‹_› ?_
    | with_reducible refine Keeps.of2 ‹_› ?_
    | split
    | with_reducible refine Keeps.same ?_ rfl
    | dsimp only)

theorem keep_stallCycle (k : Nat) (why : Nat) {a s : State} (h : Keeps a s) : Keeps a (stallCycle k why s) := by
  unfold stallCycle
  try dsimp only
  repeat' (first
    | with_reducible assumption
    | with_reducible refine keep_count _ _ _ _ ?_
    | with_reducible refine keep_setCore _ _ ?_
    | with_reducible refine Keeps.of1 ‹_› ?_
    | with_reducible refine Keeps.of2 ‹_› ?_
    | split
    | with_reducible refine Keeps.same ?_ rfl
    | dsimp only)

theorem keep_coreBegin (k : Nat) {a s : State} (h : Keeps a s) : Keeps a (coreBegin k s).1 := by
  unfold coreBegin
  try dsimp only
  repeat' (first
    | with_reducible assumption
    | with_reducible refine keep_takeExc _ _ _ _ ?_
    | with_reducible refine keep_applyDue _ ?_
    | with_reducible refine keep_stallCycle _ _ ?_
    | with_reducible refine Keeps.of1 ‹_› ?_
    | with_reducible refine Keeps.of2 ‹_› ?_
    | split
    | with_reducible refine Keeps.same ?_ rfl
    | dsimp only)

theorem keep_coreNext (k : Nat) (len : Nat) (taken : Option Nat) {a s : State} (h : Keeps a s) : Keeps a (coreNext k len taken s) := by
  unfold coreNext
  try dsimp only
  repeat' (first
    | with_reducible assumption
    | with_reducible refine keep_count _ _ _ _ ?_
    | with_reducible refine keep_setCore _ _ ?_
    | with_reducible refine Keeps.of1 ‹_› ?_
    | with_reducible refine Keeps.of2 ‹_› ?_
    | split
    | with_reducible refine Keeps.same ?_ rfl
    | dsimp only)

theorem keep_reportDenied (k : Nat) (e : Exc) {a s : State} (h : Keeps a s) : Keeps a (reportDenied s k e) := by
  unfold reportDenied
  try dsimp only
  repeat' (first
    | with_reducible assumption
    | with_reducible refine keep_addrDenied _ ?_
    | with_reducible refine keep_tableErr ?_
    | with_reducible refine Keeps.of1 ‹_› ?_
    | with_reducible refine Keeps.of2 ‹_› ?_
    | split
    | with_reducible refine Keeps.same ?_ rfl
    | dsimp only)

theorem keep_fly (k : Nat) (lat : Nat) (outs : List (Nat × Nat)) (late : Bool) (ue : Option Site) {a s : State} (h : Keeps a s) : Keeps a (fly k lat outs late ue s) := by
  unfold fly
  try dsimp only
  repeat' (first
    | with_reducible assumption
    | with_reducible refine keep_setCore _ _ ?_
    | with_reducible refine Keeps.of1 ‹_› ?_
    | with_reducible refine Keeps.of2 ‹_› ?_
    | split
    | with_reducible refine Keeps.same ?_ rfl
    | dsimp only)

theorem keep_setPort (k : Nat) (p : Nat) (v : Nat) {a s : State} (h : Keeps a s) : Keeps a (setPort k p v s) := by
  unfold setPort
  try dsimp only
  repeat' (first
    | with_reducible assumption
    | with_reducible refine keep_setCore _ _ ?_
    | with_reducible refine Keeps.of1 ‹_› ?_
    | with_reducible refine Keeps.of2 ‹_› ?_
    | split
    | with_reducible refine Keeps.same ?_ rfl
    | dsimp only)

theorem keep_doLoad (t : Trig) (late : Bool) {a s : State} (h : Keeps a s) : Keeps a (doLoad t late s) := by
  unfold doLoad
  try dsimp only
  repeat' (first
    | with_reducible assumption
    | with_reducible refine keep_setCore _ _ ?_
    | with_reducible refine keep_cwReads _ ?_
    | with_reducible refine keep_wakeAt _ ?_
    | with_reducible refine keep_setPort _ _ _ ?_
    | with_reducible refine Keeps.of1 ‹_› ?_
    | with_reducible refine Keeps.of2 ‹_› ?_
    | split
    | with_reducible refine Keeps.same ?_ rfl
    | dsimp only)

theorem keep_doStore (t : Trig) {a s : State} (h : Keeps a s) : Keeps a (doStore t s) := by
  unfold doStore
  try dsimp only
  repeat' (first
    | with_reducible assumption
    | with_reducible refine keep_setCore _ _ ?_
    | with_reducible refine keep_storeWhole _ _ ?_
    | with_reducible refine keep_wakeAt _ ?_
    | with_reducible refine keep_fly _ _ _ _ _ ?_
    | with_reducible refine keep_setPort _ _ _ ?_
    | with_reducible refine Keeps.of1 ‹_› ?_
    | with_reducible refine Keeps.of2 ‹_› ?_
    | split
    | with_reducible refine Keeps.same ?_ rfl
    | dsimp only)

theorem keep_doSync (t : Trig) {a s : State} (h : Keeps a s) : Keeps a (doSync t s) := by
  unfold doSync
  try dsimp only
  repeat' (first
    | with_reducible assumption
    | with_reducible refine keep_setCore _ _ ?_
    | with_reducible refine keep_sendSig _ _ _ _ _ ?_
    | with_reducible refine keep_sendWait _ _ ?_
    | with_reducible refine keep_varCount _ _ ?_
    | with_reducible refine keep_syncPoint _ ?_
    | with_reducible refine Keeps.foldl (fun s x h => ?_) _ ?_
    | with_reducible refine Keeps.of1 ‹_› ?_
    | with_reducible refine Keeps.of2 ‹_› ?_
    | split
    | with_reducible refine Keeps.same ?_ rfl
    | dsimp only)

theorem keep_doPop (t : Trig) {a s : State} (h : Keeps a s) : Keeps a (doPop t s) := by
  unfold doPop
  try dsimp only
  repeat' (first
    | with_reducible assumption
    | with_reducible refine keep_storeWhole _ _ ?_
    | with_reducible refine keep_varCount _ _ ?_
    | with_reducible refine keep_setWq _ _ ?_
    | with_reducible refine keep_fly _ _ _ _ _ ?_
    | with_reducible refine Keeps.of1 ‹_› ?_
    | with_reducible refine Keeps.of2 ‹_› ?_
    | split
    | with_reducible refine Keeps.same ?_ rfl
    | dsimp only)

theorem keep_doPush (t : Trig) {a s : State} (h : Keeps a s) : Keeps a (doPush t s) := by
  unfold doPush
  try dsimp only
  repeat' (first
    | with_reducible assumption
    | with_reducible refine keep_readMem _ _ ?_
    | with_reducible refine keep_setWq _ _ ?_
    | with_reducible refine keep_fly _ _ _ _ _ ?_
    | with_reducible refine Keeps.of1 ‹_› ?_
    | with_reducible refine Keeps.of2 ‹_› ?_
    | split
    | with_reducible refine Keeps.same ?_ rfl
    | dsimp only)

theorem keep_doUnit (t : Trig) {a s : State} (h : Keeps a s) : Keeps a (doUnit t s) := by
  unfold doUnit
  try dsimp only
  repeat' (first
    | with_reducible assumption
    | with_reducible refine keep_orReg _ _ _ _ ?_
    | with_reducible refine keep_fly _ _ _ _ _ ?_
    | with_reducible refine Keeps.of1 ‹_› ?_
    | with_reducible refine Keeps.of2 ‹_› ?_
    | split
    | with_reducible refine Keeps.same ?_ rfl
    | dsimp only)

theorem keep_doTrig (late : Bool) (len : Nat) (t : Trig) {a s : State} (h : Keeps a s) : Keeps a (doTrig late len t s) := by
  unfold doTrig
  try dsimp only
  repeat' (first
    | with_reducible assumption
    | with_reducible refine keep_setPort _ _ _ ?_
    | with_reducible refine keep_doLoad _ _ ?_
    | with_reducible refine keep_doStore _ ?_
    | with_reducible refine keep_doSync _ ?_
    | with_reducible refine keep_doPop _ ?_
    | with_reducible refine keep_doPush _ ?_
    | with_reducible refine keep_doUnit _ ?_
    | with_reducible refine Keeps.of1 ‹_› ?_
    | with_reducible refine Keeps.of2 ‹_› ?_
    | split
    | with_reducible refine Keeps.same ?_ rfl
    | dsimp only)

theorem keep_makeOffer (t : Trig) {a s : State} (h : Keeps a s) : Keeps a (makeOffer t s).1 := by
  unfold makeOffer
  try dsimp only
  repeat' (first
    | with_reducible assumption
    | with_reducible refine keep_setLode _ _ ?_
    | with_reducible refine keep_setCore _ _ ?_
    | with_reducible refine keep_setEngine _ _ ?_
    | with_reducible refine keep_readMem _ _ ?_
    | with_reducible refine Keeps.of1 ‹_› ?_
    | with_reducible refine Keeps.of2 ‹_› ?_
    | split
    | with_reducible refine Keeps.same ?_ rfl
    | dsimp only)

theorem keep_makeOffers {a : State} : ∀ (y0 : List Trig) {s : State}, Keeps a s → Keeps a (makeOffers y0 s).1
  | [], s, h => by
    unfold makeOffers
    try dsimp only
    repeat' (first
      | with_reducible assumption
      | with_reducible refine keep_makeOffers _ ?_
      | with_reducible refine keep_makeOffer _ ?_
      | with_reducible refine Keeps.of1 ‹_› ?_
      | with_reducible refine Keeps.of2 ‹_› ?_
      | split
      | with_reducible refine Keeps.same ?_ rfl
      | dsimp only)
  | t :: r, s, h => by
    unfold makeOffers
    try dsimp only
    repeat' (first
      | with_reducible assumption
      | with_reducible refine keep_makeOffers _ ?_
      | with_reducible refine keep_makeOffer _ ?_
      | with_reducible refine Keeps.of1 ‹_› ?_
      | with_reducible refine Keeps.of2 ‹_› ?_
      | split
      | with_reducible refine Keeps.same ?_ rfl
      | dsimp only)

theorem keep_issueMoves (k : Nat) (late : Bool) (ms : List MoveSlot) (pc : Nat) (len : Nat) {a s : State} (h : Keeps a s) : Keeps a (issueMoves k late ms pc len s) := by
  unfold issueMoves
  try dsimp only
  repeat' (first
    | with_reducible assumption
    | with_reducible refine keep_orReg _ _ _ _ ?_
    | with_reducible refine keep_setCore _ _ ?_
    | with_reducible refine keep_varRefuse _ ?_
    | with_reducible refine keep_withdrawOffers _ ?_
    | with_reducible refine keep_takeExc _ _ _ _ ?_
    | with_reducible refine keep_stallCycle _ _ ?_
    | with_reducible refine keep_coreNext _ _ _ ?_
    | with_reducible refine keep_reportDenied _ _ ?_
    | with_reducible refine keep_doTrig _ _ _ ?_
    | with_reducible refine keep_makeOffers _ ?_
    | with_reducible refine Keeps.foldl (fun s x h => ?_) _ ?_
    | with_reducible refine Keeps.of1 ‹_› ?_
    | with_reducible refine Keeps.of2 ‹_› ?_
    | split
    | with_reducible refine Keeps.same ?_ rfl
    | dsimp only)

theorem keep_issueCycle (k : Nat) (late : Bool) {a s : State} (h : Keeps a s) : Keeps a (issueCycle k late s) := by
  unfold issueCycle
  try dsimp only
  repeat' (first
    | with_reducible assumption
    | with_reducible refine keep_fetch _ _ ?_
    | with_reducible refine keep_takeExc _ _ _ _ ?_
    | with_reducible refine keep_coreBegin _ ?_
    | with_reducible refine keep_issueMoves _ _ _ _ _ ?_
    | with_reducible refine Keeps.of1 ‹_› ?_
    | with_reducible refine Keeps.of2 ‹_› ?_
    | split
    | with_reducible refine Keeps.same ?_ rfl
    | dsimp only)

theorem keep_execBundleIssue (k : Nat) (late : Bool) {s s' : State} (h : execBundleIssue k late s = .next s') : Keeps s s' := by
  unfold execBundleIssue at h
  refine keep_run (fun s h => ?_) h
  try dsimp only
  repeat' (first
    | with_reducible assumption
    | with_reducible refine keep_issueCycle _ _ ?_
    | with_reducible refine Keeps.of1 ‹_› ?_
    | with_reducible refine Keeps.of2 ‹_› ?_
    | split
    | with_reducible refine Keeps.same ?_ rfl
    | dsimp only)

theorem keep_nopCycle (k : Nat) (n : Nat) {a s : State} (h : Keeps a s) : Keeps a (nopCycle k n s) := by
  unfold nopCycle
  try dsimp only
  repeat' (first
    | with_reducible assumption
    | with_reducible refine keep_count _ _ _ _ ?_
    | with_reducible refine keep_setCore _ _ ?_
    | with_reducible refine keep_coreNext _ _ _ ?_
    | with_reducible refine Keeps.of1 ‹_› ?_
    | with_reducible refine Keeps.of2 ‹_› ?_
    | split
    | with_reducible refine Keeps.same ?_ rfl
    | dsimp only)

theorem keep_nopStep (k : Nat) {a s : State} (h : Keeps a s) : Keeps a (nopStep k s).1 := by
  unfold nopStep
  try dsimp only
  repeat' (first
    | with_reducible assumption
    | with_reducible refine keep_fetch _ _ ?_
    | with_reducible refine keep_takeExc _ _ _ _ ?_
    | with_reducible refine keep_coreBegin _ ?_
    | with_reducible refine keep_nopCycle _ _ ?_
    | with_reducible refine Keeps.of1 ‹_› ?_
    | with_reducible refine Keeps.of2 ‹_› ?_
    | split
    | with_reducible refine Keeps.same ?_ rfl
    | dsimp only)

theorem keep_nopRun (k : Nat) {a : State} : ∀ (y0 : Nat) {s : State}, Keeps a s → Keeps a (nopRun k y0 s)
  | 0, s, h => by
    unfold nopRun
    try dsimp only
    repeat' (first
      | with_reducible assumption
      | with_reducible refine keep_nopRun _ _ ?_
      | with_reducible refine keep_nopStep _ ?_
      | with_reducible refine Keeps.of1 ‹_› ?_
      | with_reducible refine Keeps.of2 ‹_› ?_
      | split
      | with_reducible refine Keeps.same ?_ rfl
      | dsimp only)
  | f + 1, s, h => by
    unfold nopRun
    try dsimp only
    repeat' (first
      | with_reducible assumption
      | with_reducible refine keep_nopRun _ _ ?_
      | with_reducible refine keep_nopStep _ ?_
      | with_reducible refine Keeps.of1 ‹_› ?_
      | with_reducible refine Keeps.of2 ‹_› ?_
      | split
      | with_reducible refine Keeps.same ?_ rfl
      | dsimp only)

theorem keep_execCtlNop (k : Nat) {s s' : State} (h : execCtlNop k s = .next s') : Keeps s s' := by
  unfold execCtlNop at h
  refine keep_run (fun s h => ?_) h
  try dsimp only
  repeat' (first
    | with_reducible assumption
    | with_reducible refine keep_nopRun _ _ ?_
    | with_reducible refine Keeps.of1 ‹_› ?_
    | with_reducible refine Keeps.of2 ‹_› ?_
    | split
    | with_reducible refine Keeps.same ?_ rfl
    | dsimp only)

theorem keep_beginRepeat (k : Nat) (intr : Bool) (reg : Option Nat) (count : Nat) {a s : State} (h : Keeps a s) : Keeps a (beginRepeat k intr reg count s).1 := by
  unfold beginRepeat
  try dsimp only
  repeat' (first
    | with_reducible assumption
    | with_reducible refine keep_count _ _ _ _ ?_
    | with_reducible refine keep_setCore _ _ ?_
    | with_reducible refine keep_fetch _ _ ?_
    | with_reducible refine keep_takeExc _ _ _ _ ?_
    | with_reducible refine keep_coreNext _ _ _ ?_
    | with_reducible refine Keeps.of1 ‹_› ?_
    | with_reducible refine Keeps.of2 ‹_› ?_
    | split
    | with_reducible refine Keeps.same ?_ rfl
    | dsimp only)

theorem keep_repeatRun (k : Nat) (late : Bool) {a : State} : ∀ (y0 : Nat) {s : State}, Keeps a s → Keeps a (repeatRun k late y0 s)
  | 0, s, h => by
    unfold repeatRun
    try dsimp only
    repeat' (first
      | with_reducible assumption
      | with_reducible refine keep_repeatRun _ _ _ ?_
      | with_reducible refine keep_issueCycle _ _ ?_
      | with_reducible refine Keeps.of1 ‹_› ?_
      | with_reducible refine Keeps.of2 ‹_› ?_
      | split
      | with_reducible refine Keeps.same ?_ rfl
      | dsimp only)
  | f + 1, s, h => by
    unfold repeatRun
    try dsimp only
    repeat' (first
      | with_reducible assumption
      | with_reducible refine keep_repeatRun _ _ _ ?_
      | with_reducible refine keep_issueCycle _ _ ?_
      | with_reducible refine Keeps.of1 ‹_› ?_
      | with_reducible refine Keeps.of2 ‹_› ?_
      | split
      | with_reducible refine Keeps.same ?_ rfl
      | dsimp only)

theorem keep_execRepeatCtl (k : Nat) (late : Bool) {s s' : State} (h : execRepeatCtl k late s = .next s') : Keeps s s' := by
  unfold execRepeatCtl at h
  refine keep_run (fun s h => ?_) h
  try dsimp only
  repeat' (first
    | with_reducible assumption
    | with_reducible refine keep_count _ _ _ _ ?_
    | with_reducible refine keep_fetch _ _ ?_
    | with_reducible refine keep_coreBegin _ ?_
    | with_reducible refine keep_beginRepeat _ _ _ _ ?_
    | with_reducible refine keep_repeatRun _ _ _ ?_
    | with_reducible refine Keeps.of1 ‹_› ?_
    | with_reducible refine Keeps.of2 ‹_› ?_
    | split
    | with_reducible refine Keeps.same ?_ rfl
    | dsimp only)

theorem keep_execHalt (k : Nat) {s s' : State} (h : execHalt k s = .next s') : Keeps s s' := by
  unfold execHalt at h
  refine keep_run (fun s h => ?_) h
  try dsimp only
  repeat' (first
    | with_reducible assumption
    | with_reducible refine keep_setCore _ _ ?_
    | with_reducible refine keep_fetch _ _ ?_
    | with_reducible refine keep_takeExc _ _ _ _ ?_
    | with_reducible refine keep_coreBegin _ ?_
    | with_reducible refine keep_coreNext _ _ _ ?_
    | with_reducible refine Keeps.of1 ‹_› ?_
    | with_reducible refine Keeps.of2 ‹_› ?_
    | split
    | with_reducible refine Keeps.same ?_ rfl
    | dsimp only)

theorem keep_drainFlights (k : Nat) {a : State} : ∀ (y0 : Nat) {s : State}, Keeps a s → Keeps a (drainFlights k y0 s)
  | 0, s, h => by
    unfold drainFlights
    try dsimp only
    repeat' (first
      | with_reducible assumption
      | with_reducible refine keep_drainFlights _ _ ?_
      | with_reducible refine keep_setCore _ _ ?_
      | with_reducible refine keep_takeExc _ _ _ _ ?_
      | with_reducible refine keep_applyDue _ ?_
      | with_reducible refine Keeps.of1 ‹_› ?_
      | with_reducible refine Keeps.of2 ‹_› ?_
      | split
      | with_reducible refine Keeps.same ?_ rfl
      | dsimp only)
  | f + 1, s, h => by
    unfold drainFlights
    try dsimp only
    repeat' (first
      | with_reducible assumption
      | with_reducible refine keep_drainFlights _ _ ?_
      | with_reducible refine keep_setCore _ _ ?_
      | with_reducible refine keep_takeExc _ _ _ _ ?_
      | with_reducible refine keep_applyDue _ ?_
      | with_reducible refine Keeps.of1 ‹_› ?_
      | with_reducible refine Keeps.of2 ‹_› ?_
      | split
      | with_reducible refine Keeps.same ?_ rfl
      | dsimp only)

theorem keep_execHaltComplete (k : Nat) {s s' : State} (h : execHaltComplete k s = .next s') : Keeps s s' := by
  unfold execHaltComplete at h
  refine keep_run (fun s h => ?_) h
  try dsimp only
  repeat' (first
    | with_reducible assumption
    | with_reducible refine keep_onlyIf _ _ (fun _ h => ?_) ?_
    | with_reducible refine keep_setCore _ _ ?_
    | with_reducible refine keep_coresReply _ _ _ ?_
    | with_reducible refine keep_drainFlights _ _ ?_
    | with_reducible refine Keeps.of1 ‹_› ?_
    | with_reducible refine Keeps.of2 ‹_› ?_
    | split
    | with_reducible refine Keeps.same ?_ rfl
    | dsimp only)

theorem keep_execUnitResultVisible (k : Nat) {s s' : State} (h : execUnitResultVisible k s = .next s') : Keeps s s' := by
  unfold execUnitResultVisible at h
  refine keep_run (fun s h => ?_) h
  try dsimp only
  repeat' (first
    | with_reducible assumption
    | with_reducible refine keep_onlyIf _ _ (fun _ h => ?_) ?_
    | with_reducible refine keep_applyDue _ ?_
    | with_reducible refine Keeps.of1 ‹_› ?_
    | with_reducible refine Keeps.of2 ‹_› ?_
    | split
    | with_reducible refine Keeps.same ?_ rfl
    | dsimp only)

theorem keep_execLoadDataArrival (k : Nat) {s s' : State} (h : execLoadDataArrival k s = .next s') : Keeps s s' := by
  unfold execLoadDataArrival at h
  refine keep_run (fun s h => ?_) h
  try dsimp only
  repeat' (first
    | with_reducible assumption
    | with_reducible refine keep_setCore _ _ ?_
    | with_reducible refine Keeps.of1 ‹_› ?_
    | with_reducible refine Keeps.of2 ‹_› ?_
    | split
    | with_reducible refine Keeps.same ?_ rfl
    | dsimp only)

theorem keep_execDelayedUncorrectable (k : Nat) {s s' : State} (h : execDelayedUncorrectable k s = .next s') : Keeps s s' := by
  unfold execDelayedUncorrectable at h
  refine keep_run (fun s h => ?_) h
  try dsimp only
  repeat' (first
    | with_reducible assumption
    | with_reducible refine keep_onlyIf _ _ (fun _ h => ?_) ?_
    | with_reducible refine keep_takeExc _ _ _ _ ?_
    | with_reducible refine Keeps.of1 ‹_› ?_
    | with_reducible refine Keeps.of2 ‹_› ?_
    | split
    | with_reducible refine Keeps.same ?_ rfl
    | dsimp only)

theorem keep_holdCore (k : Nat) {a s : State} (h : Keeps a s) : Keeps a (holdCore k s) := by
  unfold holdCore
  try dsimp only
  repeat' (first
    | with_reducible assumption
    | with_reducible refine keep_setCore _ _ ?_
    | with_reducible refine keep_pauseWaits _ ?_
    | with_reducible refine keep_holdReplies ?_
    | with_reducible refine keep_withdrawOffers _ ?_
    | with_reducible refine Keeps.of1 ‹_› ?_
    | with_reducible refine Keeps.of2 ‹_› ?_
    | split
    | with_reducible refine Keeps.same ?_ rfl
    | dsimp only)

theorem keep_execCoreHoldTaken (k : Nat) {s s' : State} (h : execCoreHoldTaken k s = .next s') : Keeps s s' := by
  unfold execCoreHoldTaken at h
  refine keep_run (fun s h => ?_) h
  try dsimp only
  repeat' (first
    | with_reducible assumption
    | with_reducible refine keep_onlyIf _ _ (fun _ h => ?_) ?_
    | with_reducible refine keep_holdCore _ ?_
    | with_reducible refine Keeps.of1 ‹_› ?_
    | with_reducible refine Keeps.of2 ‹_› ?_
    | split
    | with_reducible refine Keeps.same ?_ rfl
    | dsimp only)

theorem keep_startCore (k : Nat) (cmd : Option Nat) {a s : State} (h : Keeps a s) : Keeps a (startCore k cmd s) := by
  unfold startCore
  try dsimp only
  repeat' (first
    | with_reducible assumption
    | with_reducible refine keep_setReg _ _ _ _ ?_
    | with_reducible refine keep_setCore _ _ ?_
    | with_reducible refine Keeps.of1 ‹_› ?_
    | with_reducible refine Keeps.of2 ‹_› ?_
    | split
    | with_reducible refine Keeps.same ?_ rfl
    | dsimp only)

theorem keep_bcCtrlWrite (who : Nat) (k : Nat) (v : Nat) {a s : State} (h : Keeps a s) : Keeps a (bcCtrlWrite who k v s) := by
  unfold bcCtrlWrite
  try dsimp only
  repeat' (first
    | with_reducible assumption
    | with_reducible refine keep_orReg _ _ _ _ ?_
    | with_reducible refine keep_setField _ _ _ _ _ _ ?_
    | with_reducible refine keep_setCore _ _ ?_
    | with_reducible refine keep_instWrite _ _ _ (fun _ h => ?_) ?_
    | with_reducible refine keep_holdsChanged ?_
    | with_reducible refine keep_startCore _ _ ?_
    | with_reducible refine Keeps.of1 ‹_› ?_
    | with_reducible refine Keeps.of2 ‹_› ?_
    | split
    | with_reducible refine Keeps.same ?_ rfl
    | dsimp only)

theorem keep_execBcHoldWrite (who : Nat) (k : Nat) (val : Word) {s s' : State} (h : execBcHoldWrite who k val s = .next s') : Keeps s s' := by
  unfold execBcHoldWrite at h
  refine keep_run (fun s h => ?_) h
  try dsimp only
  repeat' (first
    | with_reducible assumption
    | with_reducible refine keep_bcCtrlWrite _ _ _ ?_
    | with_reducible refine Keeps.of1 ‹_› ?_
    | with_reducible refine Keeps.of2 ‹_› ?_
    | split
    | with_reducible refine Keeps.same ?_ rfl
    | dsimp only)

theorem keep_execCoreStart (who : Nat) (k : Nat) (val : Word) {s s' : State} (h : execCoreStart who k val s = .next s') : Keeps s s' := by
  unfold execCoreStart at h
  refine keep_run (fun s h => ?_) h
  try dsimp only
  repeat' (first
    | with_reducible assumption
    | with_reducible refine keep_bcCtrlWrite _ _ _ ?_
    | with_reducible refine Keeps.of1 ‹_› ?_
    | with_reducible refine Keeps.of2 ‹_› ?_
    | split
    | with_reducible refine Keeps.same ?_ rfl
    | dsimp only)

theorem keep_execCoreClear (who : Nat) (k : Nat) (val : Word) {s s' : State} (h : execCoreClear who k val s = .next s') : Keeps s s' := by
  unfold execCoreClear at h
  refine keep_run (fun s h => ?_) h
  try dsimp only
  repeat' (first
    | with_reducible assumption
    | with_reducible refine keep_bcCtrlWrite _ _ _ ?_
    | with_reducible refine Keeps.of1 ‹_› ?_
    | with_reducible refine Keeps.of2 ‹_› ?_
    | split
    | with_reducible refine Keeps.same ?_ rfl
    | dsimp only)

theorem keep_execImemWrite (req : Requester) (k : Nat) (off : Nat) (data : Bytes) {s s' : State} (h : execImemWrite req k off data s = .next s') : Keeps s s' := by
  unfold execImemWrite at h
  refine keep_run (fun s h => ?_) h
  try dsimp only
  repeat' (first
    | with_reducible assumption
    | with_reducible refine keep_addrDenied _ ?_
    | with_reducible refine keep_imemWrites _ ?_
    | with_reducible refine Keeps.of1 ‹_› ?_
    | with_reducible refine Keeps.of2 ‹_› ?_
    | split
    | with_reducible refine Keeps.same ?_ rfl
    | dsimp only)

end Sys2Proof.Machine
end

