-- ==== Sys2Proof/Laws/KeepColl.lean ====
section
/-! SUPPORT. What the operations of Machine/Coll.lean keep: soundness, the queue, the draws, the wire. -/
namespace Sys2Proof.Machine

open Sys2Proof

theorem keep_collJoin (c : Cmd) (comm : Nat) (j : CollJob) {a s : State} (h : Keeps a s) : Keeps a (collJoin c comm j s) := by
  unfold collJoin
  try dsimp only
  repeat' (first
    | with_reducible assumption
    | with_reducible refine keep_working _ ?_
    | with_reducible refine keep_setComm _ _ ?_
    | with_reducible refine keep_collsGo ?_
    | with_reducible refine Keeps.of1 ‹_› ?_
    | with_reducible refine Keeps.of2 ‹_› ?_
    | split
    | with_reducible refine Keeps.same ?_ rfl
    | dsimp only)

theorem keep_collStart (o : Op) (id : Nat) {a s : State} (h : Keeps a s) : Keeps a (collStart o id s) := by
  unfold collStart
  try dsimp only
  repeat' (first
    | with_reducible assumption
    | with_reducible refine keep_finish0 _ _ ?_
    | with_reducible refine keep_conflict _ _ _ _ _ ?_
    | with_reducible refine keep_startOp _ _ _ (fun _ _ h => ?_) ?_
    | with_reducible refine keep_failAt _ _ _ _ ?_
    | with_reducible refine keep_refuseOf _ _ ?_
    | with_reducible refine keep_varCount _ _ ?_
    | with_reducible refine keep_varRefuse _ ?_
    | with_reducible refine keep_collJoin _ _ _ ?_
    | with_reducible refine Keeps.of1 ‹_› ?_
    | with_reducible refine Keeps.of2 ‹_› ?_
    | split
    | with_reducible refine Keeps.same ?_ rfl
    | dsimp only)

theorem keep_execCommCreate (id : Nat) {s s' : State} (h : execCommCreate id s = .next s') : Keeps s s' := by
  unfold execCommCreate at h
  refine keep_run (fun s h => ?_) h
  try dsimp only
  repeat' (first
    | with_reducible assumption
    | with_reducible refine keep_readMem _ _ ?_
    | with_reducible refine keep_finish0 _ _ ?_
    | with_reducible refine keep_failAddr _ _ ?_
    | with_reducible refine keep_startOp _ _ _ (fun _ _ h => ?_) ?_
    | with_reducible refine keep_need6 _ _ _ _ _ _ (fun _ h => ?_) ?_
    | with_reducible refine keep_setComm _ _ ?_
    | with_reducible refine Keeps.of1 ‹_› ?_
    | with_reducible refine Keeps.of2 ‹_› ?_
    | split
    | with_reducible refine Keeps.same ?_ rfl
    | dsimp only)

theorem keep_execCommDestroy (id : Nat) {s s' : State} (h : execCommDestroy id s = .next s') : Keeps s s' := by
  unfold execCommDestroy at h
  refine keep_run (fun s h => ?_) h
  try dsimp only
  repeat' (first
    | with_reducible assumption
    | with_reducible refine keep_finish0 _ _ ?_
    | with_reducible refine keep_startOp _ _ _ (fun _ _ h => ?_) ?_
    | with_reducible refine keep_need6 _ _ _ _ _ _ (fun _ h => ?_) ?_
    | with_reducible refine keep_setComm _ _ ?_
    | with_reducible refine Keeps.of1 ‹_› ?_
    | with_reducible refine Keeps.of2 ‹_› ?_
    | split
    | with_reducible refine Keeps.same ?_ rfl
    | dsimp only)

theorem keep_execAllReduce (id : Nat) {s s' : State} (h : execAllReduce id s = .next s') : Keeps s s' := by
  unfold execAllReduce at h
  refine keep_run (fun s h => ?_) h
  try dsimp only
  repeat' (first
    | with_reducible assumption
    | with_reducible refine keep_collStart _ _ ?_
    | with_reducible refine Keeps.of1 ‹_› ?_
    | with_reducible refine Keeps.of2 ‹_› ?_
    | split
    | with_reducible refine Keeps.same ?_ rfl
    | dsimp only)

theorem keep_execReduceScatter (id : Nat) {s s' : State} (h : execReduceScatter id s = .next s') : Keeps s s' := by
  unfold execReduceScatter at h
  refine keep_run (fun s h => ?_) h
  try dsimp only
  repeat' (first
    | with_reducible assumption
    | with_reducible refine keep_collStart _ _ ?_
    | with_reducible refine Keeps.of1 ‹_› ?_
    | with_reducible refine Keeps.of2 ‹_› ?_
    | split
    | with_reducible refine Keeps.same ?_ rfl
    | dsimp only)

theorem keep_execAllGather (id : Nat) {s s' : State} (h : execAllGather id s = .next s') : Keeps s s' := by
  unfold execAllGather at h
  refine keep_run (fun s h => ?_) h
  try dsimp only
  repeat' (first
    | with_reducible assumption
    | with_reducible refine keep_collStart _ _ ?_
    | with_reducible refine Keeps.of1 ‹_› ?_
    | with_reducible refine Keeps.of2 ‹_› ?_
    | split
    | with_reducible refine Keeps.same ?_ rfl
    | dsimp only)

theorem keep_execBroadcast (id : Nat) {s s' : State} (h : execBroadcast id s = .next s') : Keeps s s' := by
  unfold execBroadcast at h
  refine keep_run (fun s h => ?_) h
  try dsimp only
  repeat' (first
    | with_reducible assumption
    | with_reducible refine keep_collStart _ _ ?_
    | with_reducible refine Keeps.of1 ‹_› ?_
    | with_reducible refine Keeps.of2 ‹_› ?_
    | split
    | with_reducible refine Keeps.same ?_ rfl
    | dsimp only)

theorem keep_execAllToAll (id : Nat) {s s' : State} (h : execAllToAll id s = .next s') : Keeps s s' := by
  unfold execAllToAll at h
  refine keep_run (fun s h => ?_) h
  try dsimp only
  repeat' (first
    | with_reducible assumption
    | with_reducible refine keep_collStart _ _ ?_
    | with_reducible refine Keeps.of1 ‹_› ?_
    | with_reducible refine Keeps.of2 ‹_› ?_
    | split
    | with_reducible refine Keeps.same ?_ rfl
    | dsimp only)

theorem keep_execLayoutDefine (id : Nat) {s s' : State} (h : execLayoutDefine id s = .next s') : Keeps s s' := by
  unfold execLayoutDefine at h
  refine keep_run (fun s h => ?_) h
  try dsimp only
  repeat' (first
    | with_reducible assumption
    | with_reducible refine keep_readMem _ _ ?_
    | with_reducible refine keep_finish0 _ _ ?_
    | with_reducible refine keep_failAddr _ _ ?_
    | with_reducible refine keep_startOp _ _ _ (fun _ _ h => ?_) ?_
    | with_reducible refine keep_need6 _ _ _ _ _ _ (fun _ h => ?_) ?_
    | with_reducible refine Keeps.of1 ‹_› ?_
    | with_reducible refine Keeps.of2 ‹_› ?_
    | split
    | with_reducible refine Keeps.same ?_ rfl
    | dsimp only)

theorem keep_execLayoutDrop (id : Nat) {s s' : State} (h : execLayoutDrop id s = .next s') : Keeps s s' := by
  unfold execLayoutDrop at h
  refine keep_run (fun s h => ?_) h
  try dsimp only
  repeat' (first
    | with_reducible assumption
    | with_reducible refine keep_finish0 _ _ ?_
    | with_reducible refine keep_startOp _ _ _ (fun _ _ h => ?_) ?_
    | with_reducible refine keep_need6 _ _ _ _ _ _ (fun _ h => ?_) ?_
    | with_reducible refine Keeps.of1 ‹_› ?_
    | with_reducible refine Keeps.of2 ‹_› ?_
    | split
    | with_reducible refine Keeps.same ?_ rfl
    | dsimp only)

theorem keep_execReshardMove (id : Nat) {s s' : State} (h : execReshardMove id s = .next s') : Keeps s s' := by
  unfold execReshardMove at h
  refine keep_run (fun s h => ?_) h
  try dsimp only
  repeat' (first
    | with_reducible assumption
    | with_reducible refine keep_readMem _ _ ?_
    | with_reducible refine keep_addrDenied _ ?_
    | with_reducible refine keep_tableErr ?_
    | with_reducible refine keep_conflict _ _ _ _ _ ?_
    | with_reducible refine keep_startOp _ _ _ (fun _ _ h => ?_) ?_
    | with_reducible refine keep_need6 _ _ _ _ _ _ (fun _ h => ?_) ?_
    | with_reducible refine keep_failAt _ _ _ _ ?_
    | with_reducible refine keep_endColl _ _ _ _ _ ?_
    | with_reducible refine keep_ckptErr _ _ ?_
    | with_reducible refine keep_collJoin _ _ _ ?_
    | with_reducible refine Keeps.of1 ‹_› ?_
    | with_reducible refine Keeps.of2 ‹_› ?_
    | split
    | with_reducible refine Keeps.same ?_ rfl
    | dsimp only)

end Sys2Proof.Machine
end

