-- ==== Sys2Proof/Laws/KeepCkpt.lean ====
section
/-! SUPPORT. What the operations of Machine/Ckpt.lean keep: soundness, the queue, the draws, the wire. -/
namespace Sys2Proof.Machine

open Sys2Proof

theorem keep_execPoolAdd (id : Nat) {s s' : State} (h : execPoolAdd id s = .next s') : Keeps s s' := by
  unfold execPoolAdd at h
  refine keep_run (fun s h => ?_) h
  try dsimp only
  repeat' (first
    | with_reducible assumption
    | with_reducible refine keep_finish _ _ _ _ _ _ ?_
    | with_reducible refine keep_startOp _ _ _ (fun _ _ h => ?_) ?_
    | with_reducible refine keep_need7 _ _ _ (fun _ h => ?_) ?_
    | with_reducible refine Keeps.of1 ‹_› ?_
    | with_reducible refine Keeps.of2 ‹_› ?_
    | split
    | with_reducible refine Keeps.same ?_ rfl
    | dsimp only)

theorem keep_ckptTrace (x : Save) (n : Nat) {a s : State} (h : Keeps a s) : Keeps a (ckptTrace x n s) := by
  unfold ckptTrace
  try dsimp only
  repeat' (first
    | with_reducible assumption
    | with_reducible refine keep_traceHit _ _ _ _ _ _ _ ?_
    | with_reducible refine Keeps.of1 ‹_› ?_
    | with_reducible refine Keeps.of2 ‹_› ?_
    | split
    | with_reducible refine Keeps.same ?_ rfl
    | dsimp only)

theorem keep_execSave (id : Nat) {s s' : State} (h : execSave id s = .next s') : Keeps s s' := by
  unfold execSave at h
  refine keep_run (fun s h => ?_) h
  try dsimp only
  repeat' (first
    | with_reducible assumption
    | with_reducible refine keep_setReg _ _ _ _ ?_
    | with_reducible refine keep_readMem _ _ ?_
    | with_reducible refine keep_finish _ _ _ _ _ _ ?_
    | with_reducible refine keep_finish0 _ _ ?_
    | with_reducible refine keep_conflict _ _ _ _ _ ?_
    | with_reducible refine keep_failAddr _ _ ?_
    | with_reducible refine keep_working _ ?_
    | with_reducible refine keep_startOp _ _ _ (fun _ _ h => ?_) ?_
    | with_reducible refine keep_setCkSlot _ _ _ ?_
    | with_reducible refine keep_poolWrite _ _ _ _ _ _ _ _ ?_
    | with_reducible refine keep_ckptTrace _ _ ?_
    | with_reducible refine Keeps.foldl (fun s x h => ?_) _ ?_
    | with_reducible refine Keeps.of1 ‹_› ?_
    | with_reducible refine Keeps.of2 ‹_› ?_
    | split
    | with_reducible refine Keeps.same ?_ rfl
    | dsimp only)

theorem keep_saveHold (x : Save) {a s : State} (h : Keeps a s) : Keeps a (saveHold x s) := by
  unfold saveHold
  try dsimp only
  repeat' (first
    | with_reducible assumption
    | with_reducible refine keep_setStream _ _ ?_
    | with_reducible refine keep_modSave _ _ ?_
    | with_reducible refine Keeps.foldl (fun s x h => ?_) _ ?_
    | with_reducible refine Keeps.of1 ‹_› ?_
    | with_reducible refine Keeps.of2 ‹_› ?_
    | split
    | with_reducible refine Keeps.same ?_ rfl
    | dsimp only)

theorem keep_saveRead (x : Save) {a : State} : ∀ (l : List (Shard × Nat)) {s : State}, Keeps a s → Keeps a (saveRead x l s).1
  | [], _, h => h
  | (d, j) :: t, s, h => by
    have hp : ∀ (bs : Bytes) {s : State}, Keeps a s → Keeps a
        (let s := modSave x.id (fun y => { y with shards := y.shards.modify j fun h => { h with plain := bs } }) s
         if saveStaged s x then
           match writeMem s (stageBase s x.tenant + stageOff (x.shards.map (·.bytes)) j) bs with
           | (s, none) => saveRead x t s
           | r => r
         else saveRead x t s).1 := by
      intro bs s h
      have h1 := keep_modSave x.id (fun y => { y with shards := y.shards.modify j fun h => { h with plain := bs } }) h
      dsimp only
      split
      · have h2 := keep_writeMem (stageBase (modSave x.id (fun y => { y with shards := y.shards.modify j fun h => { h with plain := bs } }) s)
          x.tenant + stageOff (x.shards.map (·.bytes)) j) bs h1
        split
        · next e => exact keep_saveRead x t (.of1 e h2)
        · exact h2
      · exact keep_saveRead x t h1
    unfold saveRead
    dsimp only
    split
    · exact hp _ h
    · split
      · next e => exact Keeps.of1 e (keep_readMem _ _ h)
      · next e => exact hp _ (Keeps.of1 e (keep_readMem _ _ h))

theorem keep_saveCapture (x : Save) {a s : State} (h : Keeps a s) : Keeps a (saveCapture x s) := by
  unfold saveCapture
  try dsimp only
  repeat' (first
    | with_reducible assumption
    | with_reducible refine keep_sendSig _ _ _ _ _ ?_
    | with_reducible refine keep_poolWrite _ _ _ _ _ _ _ _ ?_
    | with_reducible refine keep_modSave _ _ ?_
    | with_reducible refine keep_resumeStreams _ ?_
    | with_reducible refine keep_saveStop _ _ _ _ ?_
    | with_reducible refine keep_ckptTrace _ _ ?_
    | with_reducible refine keep_saveRead _ _ ?_
    | with_reducible refine Keeps.foldl (fun s x h => ?_) _ ?_
    | with_reducible refine Keeps.of1 ‹_› ?_
    | with_reducible refine Keeps.of2 ‹_› ?_
    | split
    | with_reducible refine Keeps.same ?_ rfl
    | dsimp only)

theorem keep_saveManifest (x : Save) {a s : State} (h : Keeps a s) : Keeps a (saveManifest x s) := by
  unfold saveManifest
  try dsimp only
  repeat' (first
    | with_reducible assumption
    | with_reducible refine keep_poolWrite _ _ _ _ _ _ _ _ ?_
    | with_reducible refine keep_modSave _ _ ?_
    | with_reducible refine Keeps.foldl (fun s x h => ?_) _ ?_
    | with_reducible refine Keeps.of1 ‹_› ?_
    | with_reducible refine Keeps.of2 ‹_› ?_
    | split
    | with_reducible refine Keeps.same ?_ rfl
    | dsimp only)

theorem keep_saveDone (x : Save) {a s : State} (h : Keeps a s) : Keeps a (saveDone x s) := by
  unfold saveDone
  try dsimp only
  repeat' (first
    | with_reducible assumption
    | with_reducible refine keep_setReg _ _ _ _ ?_
    | with_reducible refine keep_finish _ _ _ _ _ _ ?_
    | with_reducible refine keep_setCkSlot _ _ _ ?_
    | with_reducible refine Keeps.of1 ‹_› ?_
    | with_reducible refine Keeps.of2 ‹_› ?_
    | split
    | with_reducible refine Keeps.same ?_ rfl
    | dsimp only)

theorem keep_execSaveStepDone (id : Nat) {s s' : State} (h : execSaveStepDone id s = .next s') : Keeps s s' := by
  unfold execSaveStepDone at h
  refine keep_run (fun s h => ?_) h
  try dsimp only
  repeat' (first
    | with_reducible assumption
    | with_reducible refine keep_modSave _ _ ?_
    | with_reducible refine keep_saveStop _ _ _ _ ?_
    | with_reducible refine keep_saveCommit _ ?_
    | with_reducible refine keep_ckptTrace _ _ ?_
    | with_reducible refine keep_saveHold _ ?_
    | with_reducible refine keep_saveCapture _ ?_
    | with_reducible refine keep_saveManifest _ ?_
    | with_reducible refine keep_saveDone _ ?_
    | with_reducible refine Keeps.of1 ‹_› ?_
    | with_reducible refine Keeps.of2 ‹_› ?_
    | split
    | with_reducible refine Keeps.same ?_ rfl
    | dsimp only)

theorem keep_execRestore (id : Nat) {s s' : State} (h : execRestore id s = .next s') : Keeps s s' := by
  unfold execRestore at h
  refine keep_run (fun s h => ?_) h
  try dsimp only
  repeat' (first
    | with_reducible assumption
    | with_reducible refine keep_readMem _ _ ?_
    | with_reducible refine keep_finish0 _ _ ?_
    | with_reducible refine keep_conflict _ _ _ _ _ ?_
    | with_reducible refine keep_failAddr _ _ ?_
    | with_reducible refine keep_working _ ?_
    | with_reducible refine keep_startOp _ _ _ (fun _ _ h => ?_) ?_
    | with_reducible refine keep_failAt _ _ _ _ ?_
    | with_reducible refine keep_refuseOf _ _ ?_
    | with_reducible refine keep_setCkSlot _ _ _ ?_
    | with_reducible refine keep_restTry _ ?_
    | with_reducible refine Keeps.of1 ‹_› ?_
    | with_reducible refine Keeps.of2 ‹_› ?_
    | split
    | with_reducible refine Keeps.same ?_ rfl
    | dsimp only)

theorem keep_restWrite (x : Restore) (l : Bytes) (sizes : List Nat) {a : State} :
    ∀ (is : List Nat) (n : Nat) {s : State}, Keeps a s → Keeps a (restWrite x l sizes is n s).1
  | [], _, _, h => h
  | i :: t, n, s, h => by
    unfold restWrite
    extract_lets e js r0 r
    have hr : Keeps a r.1 := by
      refine Keeps.foldl1 (fun q j h => ?_) _ h
      obtain ⟨s, acc⟩ := q
      dsimp only at h ⊢
      split
      · exact h
      · have h2 := keep_readMem (stageBase s x.tenant + stageOff sizes j) (manShard x.man j).bytes h
        split
        · next e => exact .of1 e h2
        · next e =>
          have h3 := Keeps.of1 e h2
          split
          · exact keep_setStream _ _ (keep_setReg _ _ _ _ (keep_setReg _ _ _ _ (keep_setReg _ _ _ _ h3)))
          · exact keep_writeMem _ _ h3
    clear_value r
    obtain ⟨s, acc⟩ := r
    cases acc
    · exact keep_restWrite x l sizes t (n + 1) hr
    · exact hr

theorem keep_execRestoreStageDone (id : Nat) {s s' : State} (h : execRestoreStageDone id s = .next s') : Keeps s s' := by
  unfold execRestoreStageDone at h
  refine keep_run (fun s h => ?_) h
  try dsimp only
  repeat' (first
    | with_reducible assumption
    | with_reducible refine keep_restEnd _ _ _ _ _ ?_
    | with_reducible refine keep_restWrite _ _ _ _ _ ?_
    | with_reducible refine Keeps.of1 ‹_› ?_
    | with_reducible refine Keeps.of2 ‹_› ?_
    | split
    | with_reducible refine Keeps.same ?_ rfl
    | dsimp only)

theorem keep_execDrain (id : Nat) {s s' : State} (h : execDrain id s = .next s') : Keeps s s' := by
  unfold execDrain at h
  refine keep_run (fun s h => ?_) h
  try dsimp only
  repeat' (first
    | with_reducible assumption
    | with_reducible refine keep_finish0 _ _ ?_
    | with_reducible refine keep_conflict _ _ _ _ _ ?_
    | with_reducible refine keep_working _ ?_
    | with_reducible refine keep_startOp _ _ _ (fun _ _ h => ?_) ?_
    | with_reducible refine keep_setCkSlot _ _ _ ?_
    | with_reducible refine keep_drainNext _ ?_
    | with_reducible refine Keeps.of1 ‹_› ?_
    | with_reducible refine Keeps.of2 ‹_› ?_
    | split
    | with_reducible refine Keeps.same ?_ rfl
    | dsimp only)

theorem keep_execDrainDone (id : Nat) {s s' : State} (h : execDrainDone id s = .next s') : Keeps s s' := by
  unfold execDrainDone at h
  refine keep_run (fun s h => ?_) h
  try dsimp only
  repeat' (first
    | with_reducible assumption
    | with_reducible refine keep_finish _ _ _ _ _ _ ?_
    | with_reducible refine keep_setCkSlot _ _ _ ?_
    | with_reducible refine keep_ckptErr _ _ ?_
    | with_reducible refine Keeps.of1 ‹_› ?_
    | with_reducible refine Keeps.of2 ‹_› ?_
    | split
    | with_reducible refine Keeps.same ?_ rfl
    | dsimp only)

theorem keep_execSlotStatus (id : Nat) {s s' : State} (h : execSlotStatus id s = .next s') : Keeps s s' := by
  unfold execSlotStatus at h
  refine keep_run (fun s h => ?_) h
  try dsimp only
  repeat' (first
    | with_reducible assumption
    | with_reducible refine keep_finish _ _ _ _ _ _ ?_
    | with_reducible refine keep_startOp _ _ _ (fun _ _ h => ?_) ?_
    | with_reducible refine Keeps.of1 ‹_› ?_
    | with_reducible refine Keeps.of2 ‹_› ?_
    | split
    | with_reducible refine Keeps.same ?_ rfl
    | dsimp only)

theorem keep_execRankTake (id : Nat) {s s' : State} (h : execRankTake id s = .next s') : Keeps s s' := by
  unfold execRankTake at h
  refine keep_run (fun s h => ?_) h
  try dsimp only
  repeat' (first
    | with_reducible assumption
    | with_reducible refine keep_setReg _ _ _ _ ?_
    | with_reducible refine keep_readMem _ _ ?_
    | with_reducible refine keep_conflict _ _ _ _ _ ?_
    | with_reducible refine keep_failAddr _ _ ?_
    | with_reducible refine keep_working _ ?_
    | with_reducible refine keep_startOp _ _ _ (fun _ _ h => ?_) ?_
    | with_reducible refine keep_poolRead _ _ _ _ _ _ _ _ ?_
    | with_reducible refine Keeps.foldl (fun s x h => ?_) _ ?_
    | with_reducible refine Keeps.of1 ‹_› ?_
    | with_reducible refine Keeps.of2 ‹_› ?_
    | split
    | with_reducible refine Keeps.same ?_ rfl
    | dsimp only)

theorem keep_execRankTakeDiscovered (id : Nat) {s s' : State} (h : execRankTakeDiscovered id s = .next s') : Keeps s s' := by
  unfold execRankTakeDiscovered at h
  refine keep_run (fun s h => ?_) h
  try dsimp only
  repeat' (first
    | with_reducible assumption
    | with_reducible refine keep_setReg _ _ _ _ ?_
    | with_reducible refine keep_finish _ _ _ _ _ _ ?_
    | with_reducible refine keep_finish0 _ _ ?_
    | with_reducible refine keep_setCkSlot _ _ _ ?_
    | with_reducible refine Keeps.foldl (fun s x h => ?_) _ ?_
    | with_reducible refine Keeps.of1 ‹_› ?_
    | with_reducible refine Keeps.of2 ‹_› ?_
    | split
    | with_reducible refine Keeps.same ?_ rfl
    | dsimp only)

theorem keep_execStageWrite (who : Nat) (t : Nat) (off : Nat) (val : Word) {s s' : State} (h : execStageWrite who t off val s = .next s') : Keeps s s' := by
  unfold execStageWrite at h
  refine keep_run (fun s h => ?_) h
  try dsimp only
  repeat' (first
    | with_reducible assumption
    | with_reducible refine keep_onlyIf _ _ (fun _ h => ?_) ?_
    | with_reducible refine keep_setField _ _ _ _ _ _ ?_
    | with_reducible refine keep_ckptErr _ _ ?_
    | with_reducible refine Keeps.of1 ‹_› ?_
    | with_reducible refine Keeps.of2 ‹_› ?_
    | split
    | with_reducible refine Keeps.same ?_ rfl
    | dsimp only)

end Sys2Proof.Machine
end

