-- ==== Sys2Proof/Laws/KeepLode.lean ====
section
/-! SUPPORT. What the operations of Machine/Lode.lean keep: soundness, the queue, the draws, the wire. -/
namespace Sys2Proof.Machine

open Sys2Proof

theorem keep_needLode (n : Nat) (f : State → State) {a s : State} (hf : ∀ (x0 : State), Keeps a x0 → Keeps a (f x0)) (h : Keeps a s) : Keeps a (needLode n f s) := by
  unfold needLode
  try dsimp only
  repeat' (first
    | with_reducible assumption
    | with_reducible refine keep_wakeLode _ ?_
    | with_reducible refine hf _ ?_
    | with_reducible refine Keeps.of1 ‹_› ?_
    | with_reducible refine Keeps.of2 ‹_› ?_
    | split
    | with_reducible refine Keeps.same ?_ rfl
    | dsimp only)

theorem keep_execModChain (id : Nat) {s s' : State} (h : execModChain id s = .next s') : Keeps s s' := by
  unfold execModChain at h
  refine keep_run (fun s h => ?_) h
  try dsimp only
  repeat' (first
    | with_reducible assumption
    | with_reducible refine keep_working _ ?_
    | with_reducible refine keep_startOp _ _ _ (fun _ _ h => ?_) ?_
    | with_reducible refine keep_offerChains _ _ ?_
    | with_reducible refine keep_needLode _ _ (fun _ h => ?_) ?_
    | with_reducible refine Keeps.of1 ‹_› ?_
    | with_reducible refine Keeps.of2 ‹_› ?_
    | split
    | with_reducible refine Keeps.same ?_ rfl
    | dsimp only)

theorem keep_execMoveChain (id : Nat) {s s' : State} (h : execMoveChain id s = .next s') : Keeps s s' := by
  unfold execMoveChain at h
  refine keep_run (fun s h => ?_) h
  try dsimp only
  repeat' (first
    | with_reducible assumption
    | with_reducible refine keep_working _ ?_
    | with_reducible refine keep_startOp _ _ _ (fun _ _ h => ?_) ?_
    | with_reducible refine keep_offerChains _ _ ?_
    | with_reducible refine keep_needLode _ _ (fun _ h => ?_) ?_
    | with_reducible refine Keeps.of1 ‹_› ?_
    | with_reducible refine Keeps.of2 ‹_› ?_
    | split
    | with_reducible refine Keeps.same ?_ rfl
    | dsimp only)

theorem keep_execImemLoad (id : Nat) {s s' : State} (h : execImemLoad id s = .next s') : Keeps s s' := by
  unfold execImemLoad at h
  refine keep_run (fun s h => ?_) h
  try dsimp only
  repeat' (first
    | with_reducible assumption
    | with_reducible refine keep_readAddr _ _ _ ?_
    | with_reducible refine keep_finish0 _ _ ?_
    | with_reducible refine keep_conflict _ _ _ _ _ ?_
    | with_reducible refine keep_failAddr _ _ ?_
    | with_reducible refine keep_startOp _ _ _ (fun _ _ h => ?_) ?_
    | with_reducible refine keep_imemWrites _ ?_
    | with_reducible refine keep_needLode _ _ (fun _ h => ?_) ?_
    | with_reducible refine Keeps.of1 ‹_› ?_
    | with_reducible refine Keeps.of2 ‹_› ?_
    | split
    | with_reducible refine Keeps.same ?_ rfl
    | dsimp only)

theorem keep_execCoresRun (id : Nat) {s s' : State} (h : execCoresRun id s = .next s') : Keeps s s' := by
  unfold execCoresRun at h
  refine keep_run (fun s h => ?_) h
  try dsimp only
  repeat' (first
    | with_reducible assumption
    | with_reducible refine keep_finish0 _ _ ?_
    | with_reducible refine keep_conflict _ _ _ _ _ ?_
    | with_reducible refine keep_working _ ?_
    | with_reducible refine keep_startOp _ _ _ (fun _ _ h => ?_) ?_
    | with_reducible refine keep_startCore _ _ ?_
    | with_reducible refine keep_needLode _ _ (fun _ h => ?_) ?_
    | with_reducible refine Keeps.foldl (fun s x h => ?_) _ ?_
    | with_reducible refine Keeps.of1 ‹_› ?_
    | with_reducible refine Keeps.of2 ‹_› ?_
    | split
    | with_reducible refine Keeps.same ?_ rfl
    | dsimp only)

theorem keep_freeGroup (g : Nat) {a s : State} (h : Keeps a s) : Keeps a (freeGroup g s) := by
  unfold freeGroup
  try dsimp only
  repeat' (first
    | with_reducible assumption
    | with_reducible refine keep_setReg _ _ _ _ ?_
    | with_reducible refine keep_disarm _ ?_
    | with_reducible refine keep_setGrp _ _ ?_
    | with_reducible refine keep_finish0 _ _ ?_
    | with_reducible refine Keeps.foldl (fun s x h => ?_) _ ?_
    | with_reducible refine Keeps.of1 ‹_› ?_
    | with_reducible refine Keeps.of2 ‹_› ?_
    | split
    | with_reducible refine Keeps.same ?_ rfl
    | dsimp only)

theorem keep_execLockForm (id : Nat) {s s' : State} (h : execLockForm id s = .next s') : Keeps s s' := by
  unfold execLockForm at h
  refine keep_run (fun s h => ?_) h
  try dsimp only
  repeat' (first
    | with_reducible assumption
    | with_reducible refine keep_setGrp _ _ ?_
    | with_reducible refine keep_wakeLode _ ?_
    | with_reducible refine keep_finish0 _ _ ?_
    | with_reducible refine keep_conflict _ _ _ _ _ ?_
    | with_reducible refine keep_startOp _ _ _ (fun _ _ h => ?_) ?_
    | with_reducible refine keep_failAt _ _ _ _ ?_
    | with_reducible refine Keeps.of1 ‹_› ?_
    | with_reducible refine Keeps.of2 ‹_› ?_
    | split
    | with_reducible refine Keeps.same ?_ rfl
    | dsimp only)

theorem keep_execLockStart (id : Nat) {s s' : State} (h : execLockStart id s = .next s') : Keeps s s' := by
  unfold execLockStart at h
  refine keep_run (fun s h => ?_) h
  try dsimp only
  repeat' (first
    | with_reducible assumption
    | with_reducible refine keep_arm _ _ ?_
    | with_reducible refine keep_setGrp _ _ ?_
    | with_reducible refine keep_conflict _ _ _ _ _ ?_
    | with_reducible refine keep_working _ ?_
    | with_reducible refine keep_startOp _ _ _ (fun _ _ h => ?_) ?_
    | with_reducible refine Keeps.of1 ‹_› ?_
    | with_reducible refine Keeps.of2 ‹_› ?_
    | split
    | with_reducible refine Keeps.same ?_ rfl
    | dsimp only)

theorem keep_startMember (late : Bool) (n : Nat) {a s : State} (h : Keeps a s) : Keeps a (startMember late n s) := by
  unfold startMember
  try dsimp only
  repeat' (first
    | with_reducible assumption
    | with_reducible refine keep_setReg _ _ _ _ ?_
    | with_reducible refine keep_orReg _ _ _ _ ?_
    | with_reducible refine keep_startCore _ _ ?_
    | with_reducible refine Keeps.foldl (fun s x h => ?_) _ ?_
    | with_reducible refine Keeps.of1 ‹_› ?_
    | with_reducible refine Keeps.of2 ‹_› ?_
    | split
    | with_reducible refine Keeps.same ?_ rfl
    | dsimp only)

theorem keep_startGroup (g : Nat) {a s : State} (h : Keeps a s) : Keeps a (startGroup g s) := by
  unfold startGroup
  try dsimp only
  repeat' (first
    | with_reducible assumption
    | with_reducible refine keep_orReg _ _ _ _ ?_
    | with_reducible refine keep_traceHit _ _ _ _ _ _ _ ?_
    | with_reducible refine keep_setGrp _ _ ?_
    | with_reducible refine keep_finish0 _ _ ?_
    | with_reducible refine keep_holdsChanged ?_
    | with_reducible refine keep_startMember _ _ ?_
    | with_reducible refine Keeps.foldl (fun s x h => ?_) _ ?_
    | with_reducible refine Keeps.of1 ‹_› ?_
    | with_reducible refine Keeps.of2 ‹_› ?_
    | split
    | with_reducible refine Keeps.same ?_ rfl
    | dsimp only)

theorem keep_execLockGroupStart (g : Nat) {s s' : State} (h : execLockGroupStart g s = .next s') : Keeps s s' := by
  unfold execLockGroupStart at h
  refine keep_run (fun s h => ?_) h
  try dsimp only
  repeat' (first
    | with_reducible assumption
    | with_reducible refine keep_startGroup _ ?_
    | with_reducible refine Keeps.of1 ‹_› ?_
    | with_reducible refine Keeps.of2 ‹_› ?_
    | split
    | with_reducible refine Keeps.same ?_ rfl
    | dsimp only)

theorem keep_execLockDissolve (id : Nat) {s s' : State} (h : execLockDissolve id s = .next s') : Keeps s s' := by
  unfold execLockDissolve at h
  refine keep_run (fun s h => ?_) h
  try dsimp only
  repeat' (first
    | with_reducible assumption
    | with_reducible refine keep_finish0 _ _ ?_
    | with_reducible refine keep_conflict _ _ _ _ _ ?_
    | with_reducible refine keep_startOp _ _ _ (fun _ _ h => ?_) ?_
    | with_reducible refine keep_freeGroup _ ?_
    | with_reducible refine Keeps.of1 ‹_› ?_
    | with_reducible refine Keeps.of2 ‹_› ?_
    | split
    | with_reducible refine Keeps.same ?_ rfl
    | dsimp only)

theorem keep_execLodeHold (id : Nat) {s s' : State} (h : execLodeHold id s = .next s') : Keeps s s' := by
  unfold execLodeHold at h
  refine keep_run (fun s h => ?_) h
  try dsimp only
  repeat' (first
    | with_reducible assumption
    | with_reducible refine keep_setField _ _ _ _ _ _ ?_
    | with_reducible refine keep_finish0 _ _ ?_
    | with_reducible refine keep_conflict _ _ _ _ _ ?_
    | with_reducible refine keep_working _ ?_
    | with_reducible refine keep_startOp _ _ _ (fun _ _ h => ?_) ?_
    | with_reducible refine keep_holdsChanged ?_
    | with_reducible refine keep_needLode _ _ (fun _ h => ?_) ?_
    | with_reducible refine Keeps.of1 ‹_› ?_
    | with_reducible refine Keeps.of2 ‹_› ?_
    | split
    | with_reducible refine Keeps.same ?_ rfl
    | dsimp only)

theorem keep_abortChains (n : Nat) {a s : State} (h : Keeps a s) : Keeps a (abortChains n s) := by
  unfold abortChains
  try dsimp only
  repeat' (first
    | with_reducible assumption
    | with_reducible refine keep_endChain _ _ _ _ _ ?_
    | with_reducible refine Keeps.foldl (fun s x h => ?_) _ ?_
    | with_reducible refine Keeps.of1 ‹_› ?_
    | with_reducible refine Keeps.of2 ‹_› ?_
    | split
    | with_reducible refine Keeps.same ?_ rfl
    | dsimp only)

theorem keep_resetCore (k : Nat) {a s : State} (h : Keeps a s) : Keeps a (resetCore k s) := by
  unfold resetCore
  try dsimp only
  repeat' (first
    | with_reducible assumption
    | with_reducible refine keep_setCore _ _ ?_
    | with_reducible refine keep_finish0 _ _ ?_
    | with_reducible refine keep_unlist _ _ ?_
    | with_reducible refine keep_freeCores _ ?_
    | with_reducible refine Keeps.of1 ‹_› ?_
    | with_reducible refine Keeps.of2 ‹_› ?_
    | split
    | with_reducible refine Keeps.same ?_ rfl
    | dsimp only)

theorem keep_resetRegs (lo hi : Nat) {a s : State} (h : Keeps a s) : Keeps a (resetRegs lo hi s) := h.dropRegs _

theorem keep_resetOneLode (n : Nat) {a s : State} (h : Keeps a s) : Keeps a (resetOneLode n s) := by
  unfold resetOneLode
  try dsimp only
  repeat' (first
    | with_reducible assumption
    | with_reducible refine keep_setLode _ _ ?_
    | with_reducible refine keep_setEngine _ _ ?_
    | with_reducible refine keep_zeroCounters _ ?_
    | with_reducible refine keep_abortChains _ ?_
    | with_reducible refine keep_resetCore _ ?_
    | with_reducible refine keep_resetRegs _ _ ?_
    | with_reducible refine Keeps.foldl (fun s x h => ?_) _ ?_
    | with_reducible refine Keeps.of1 ‹_› ?_
    | with_reducible refine Keeps.of2 ‹_› ?_
    | split
    | with_reducible refine Keeps.same ?_ rfl
    | dsimp only)

theorem keep_resetLode (n : Nat) {a s : State} (h : Keeps a s) : Keeps a (resetLode n s) := by
  unfold resetLode
  try dsimp only
  repeat' (first
    | with_reducible assumption
    | with_reducible refine keep_settleAll ?_
    | with_reducible refine keep_holdsChanged ?_
    | with_reducible refine keep_reoffer ?_
    | with_reducible refine keep_freeGroup _ ?_
    | with_reducible refine keep_resetOneLode _ ?_
    | with_reducible refine Keeps.foldl (fun s x h => ?_) _ ?_
    | with_reducible refine Keeps.of1 ‹_› ?_
    | with_reducible refine Keeps.of2 ‹_› ?_
    | split
    | with_reducible refine Keeps.same ?_ rfl
    | dsimp only)

theorem keep_lodeCtrlWrite (who : Nat) (n : Nat) (v : Nat) {a s : State} (h : Keeps a s) : Keeps a (lodeCtrlWrite who n v s) := by
  unfold lodeCtrlWrite
  try dsimp only
  repeat' (first
    | with_reducible assumption
    | with_reducible refine keep_setField _ _ _ _ _ _ ?_
    | with_reducible refine keep_instWrite _ _ _ (fun _ h => ?_) ?_
    | with_reducible refine keep_holdsChanged ?_
    | with_reducible refine keep_resetLode _ ?_
    | with_reducible refine Keeps.of1 ‹_› ?_
    | with_reducible refine Keeps.of2 ‹_› ?_
    | split
    | with_reducible refine Keeps.same ?_ rfl
    | dsimp only)

theorem keep_execLodeCtrlHold (who : Nat) (n : Nat) (val : Word) {s s' : State} (h : execLodeCtrlHold who n val s = .next s') : Keeps s s' := by
  unfold execLodeCtrlHold at h
  refine keep_run (fun s h => ?_) h
  try dsimp only
  repeat' (first
    | with_reducible assumption
    | with_reducible refine keep_lodeCtrlWrite _ _ _ ?_
    | with_reducible refine Keeps.of1 ‹_› ?_
    | with_reducible refine Keeps.of2 ‹_› ?_
    | split
    | with_reducible refine Keeps.same ?_ rfl
    | dsimp only)

theorem keep_execLodeCtrlReset (who : Nat) (n : Nat) (val : Word) {s s' : State} (h : execLodeCtrlReset who n val s = .next s') : Keeps s s' := by
  unfold execLodeCtrlReset at h
  refine keep_run (fun s h => ?_) h
  try dsimp only
  repeat' (first
    | with_reducible assumption
    | with_reducible refine keep_lodeCtrlWrite _ _ _ ?_
    | with_reducible refine Keeps.of1 ‹_› ?_
    | with_reducible refine Keeps.of2 ‹_› ?_
    | split
    | with_reducible refine Keeps.same ?_ rfl
    | dsimp only)

theorem keep_execLodeReset (id : Nat) {s s' : State} (h : execLodeReset id s = .next s') : Keeps s s' := by
  unfold execLodeReset at h
  refine keep_run (fun s h => ?_) h
  try dsimp only
  repeat' (first
    | with_reducible assumption
    | with_reducible refine keep_working _ ?_
    | with_reducible refine keep_startOp _ _ _ (fun _ _ h => ?_) ?_
    | with_reducible refine keep_needLode _ _ (fun _ h => ?_) ?_
    | with_reducible refine keep_resetLode _ ?_
    | with_reducible refine Keeps.of1 ‹_› ?_
    | with_reducible refine Keeps.of2 ‹_› ?_
    | split
    | with_reducible refine Keeps.same ?_ rfl
    | dsimp only)

theorem keep_lodeZeroed (n : Nat) (o : Nat) {a s : State} (h : Keeps a s) : Keeps a (lodeZeroed n o s) := by
  unfold lodeZeroed
  try dsimp only
  repeat' (first
    | with_reducible assumption
    | with_reducible refine Keeps.of1 ‹_› ?_
    | with_reducible refine Keeps.of2 ‹_› ?_
    | split
    | with_reducible refine Keeps.same ?_ rfl
    | dsimp only)

theorem keep_execLodeZeroingDone (n : Nat) {s s' : State} (h : execLodeZeroingDone n s = .next s') : Keeps s s' := by
  unfold execLodeZeroingDone at h
  refine keep_run (fun s h => ?_) h
  try dsimp only
  repeat' (first
    | with_reducible assumption
    | with_reducible refine keep_holdReplies ?_
    | with_reducible refine keep_lodeZeroed _ _ ?_
    | with_reducible refine Keeps.of1 ‹_› ?_
    | with_reducible refine Keeps.of2 ‹_› ?_
    | split
    | with_reducible refine Keeps.same ?_ rfl
    | dsimp only)

theorem keep_execLodePower (id : Nat) {s s' : State} (h : execLodePower id s = .next s') : Keeps s s' := by
  unfold execLodePower at h
  refine keep_run (fun s h => ?_) h
  try dsimp only
  repeat' (first
    | with_reducible assumption
    | with_reducible refine keep_setLode _ _ ?_
    | with_reducible refine keep_wakeLode _ ?_
    | with_reducible refine keep_finish0 _ _ ?_
    | with_reducible refine keep_conflict _ _ _ _ _ ?_
    | with_reducible refine keep_working _ ?_
    | with_reducible refine keep_startOp _ _ _ (fun _ _ h => ?_) ?_
    | with_reducible refine Keeps.of1 ‹_› ?_
    | with_reducible refine Keeps.of2 ‹_› ?_
    | split
    | with_reducible refine Keeps.same ?_ rfl
    | dsimp only)

theorem keep_execLodeIdleExit (n : Nat) {s s' : State} (h : execLodeIdleExit n s = .next s') : Keeps s s' := by
  unfold execLodeIdleExit at h
  refine keep_run (fun s h => ?_) h
  try dsimp only
  repeat' (first
    | with_reducible assumption
    | with_reducible refine keep_setLode _ _ ?_
    | with_reducible refine keep_finish0 _ _ ?_
    | with_reducible refine keep_working _ ?_
    | with_reducible refine Keeps.foldl (fun s x h => ?_) _ ?_
    | with_reducible refine Keeps.of1 ‹_› ?_
    | with_reducible refine Keeps.of2 ‹_› ?_
    | split
    | with_reducible refine Keeps.same ?_ rfl
    | dsimp only)

end Sys2Proof.Machine
end

