-- ==== Sys2Proof/Laws/KeepNet.lean ====
section
/-! SUPPORT. What the operations of Machine/Net.lean keep: soundness, the queue, the draws, the wire. -/
namespace Sys2Proof.Machine

open Sys2Proof

theorem keep_execPortMode (id : Nat) {s s' : State} (h : execPortMode id s = .next s') : Keeps s s' := by
  unfold execPortMode at h
  refine keep_run (fun s h => ?_) h
  try dsimp only
  repeat' (first
    | with_reducible assumption
    | with_reducible refine keep_setField _ _ _ _ _ _ ?_
    | with_reducible refine keep_finish0 _ _ ?_
    | with_reducible refine keep_startOp _ _ _ (fun _ _ h => ?_) ?_
    | with_reducible refine keep_need6 _ _ _ _ _ _ (fun _ h => ?_) ?_
    | with_reducible refine keep_varRefuse _ ?_
    | with_reducible refine Keeps.of1 ‹_› ?_
    | with_reducible refine Keeps.of2 ‹_› ?_
    | split
    | with_reducible refine Keeps.same ?_ rfl
    | dsimp only)

theorem keep_execEthEnableWrite (who : Nat) (p : Nat) (val : Word) (moduleOk : Bool) {s s' : State} (h : execEthEnableWrite who p val moduleOk s = .next s') : Keeps s s' := by
  unfold execEthEnableWrite at h
  refine keep_run (fun s h => ?_) h
  try dsimp only
  repeat' (first
    | with_reducible assumption
    | with_reducible refine keep_onlyIf _ _ (fun _ h => ?_) ?_
    | with_reducible refine keep_setReg _ _ _ _ ?_
    | with_reducible refine keep_setField _ _ _ _ _ _ ?_
    | with_reducible refine keep_sticky _ _ _ _ _ ?_
    | with_reducible refine keep_devInst _ _ _ (fun _ h => ?_) ?_
    | with_reducible refine Keeps.of1 ‹_› ?_
    | with_reducible refine Keeps.of2 ‹_› ?_
    | split
    | with_reducible refine Keeps.same ?_ rfl
    | dsimp only)

theorem keep_execMacLinkChange (m : Nat) (up : Bool) {s s' : State} (h : execMacLinkChange m up s = .next s') : Keeps s s' := by
  unfold execMacLinkChange at h
  refine keep_run (fun s h => ?_) h
  try dsimp only
  repeat' (first
    | with_reducible assumption
    | with_reducible refine keep_orReg _ _ _ _ ?_
    | with_reducible refine keep_setField _ _ _ _ _ _ ?_
    | with_reducible refine keep_sticky _ _ _ _ _ ?_
    | with_reducible refine Keeps.of1 ‹_› ?_
    | with_reducible refine Keeps.of2 ‹_› ?_
    | split
    | with_reducible refine Keeps.same ?_ rfl
    | dsimp only)

theorem keep_pfcReceive (m : Nat) (f : Bytes) {a s : State} (h : Keeps a s) : Keeps a (pfcReceive m f s) := by
  unfold pfcReceive
  try dsimp only
  repeat' (first
    | with_reducible assumption
    | with_reducible refine keep_setMac _ _ ?_
    | with_reducible refine Keeps.foldl (fun s x h => ?_) _ ?_
    | with_reducible refine Keeps.of1 ‹_› ?_
    | with_reducible refine Keeps.of2 ‹_› ?_
    | split
    | with_reducible refine Keeps.same ?_ rfl
    | dsimp only)

theorem keep_ingressDrop (t : Nat) (m : Nat) (ft : Bool) (f : Bytes) {a s : State} (h : Keeps a s) : Keeps a (ingressDrop t m ft f s) := by
  unfold ingressDrop
  try dsimp only
  repeat' (first
    | with_reducible assumption
    | with_reducible refine keep_count _ _ _ _ ?_
    | with_reducible refine keep_strmErrSet _ _ ?_
    | with_reducible refine keep_strmDrop _ ?_
    | with_reducible refine Keeps.of1 ‹_› ?_
    | with_reducible refine Keeps.of2 ‹_› ?_
    | split
    | with_reducible refine Keeps.same ?_ rfl
    | dsimp only)

theorem keep_execFrameReceive (m : Nat) (frame : Bytes) {s s' : State} (h : execFrameReceive m frame s = .next s') : Keeps s s' := by
  unfold execFrameReceive at h
  refine keep_run (fun s h => ?_) h
  try dsimp only
  repeat' (first
    | with_reducible assumption
    | with_reducible refine keep_onlyIf _ _ (fun _ h => ?_) ?_
    | with_reducible refine keep_count _ _ _ _ ?_
    | with_reducible refine keep_pfc _ _ ?_
    | with_reducible refine keep_police _ _ ?_
    | with_reducible refine keep_pfcReceive _ _ ?_
    | with_reducible refine keep_ingressDrop _ _ _ _ ?_
    | with_reducible refine Keeps.of1 ‹_› ?_
    | with_reducible refine Keeps.of2 ‹_› ?_
    | split
    | with_reducible refine Keeps.same ?_ rfl
    | dsimp only)

theorem keep_execPolicerRefill  {s s' : State} (h : execPolicerRefill s = .next s') : Keeps s s' := by
  unfold execPolicerRefill at h
  refine keep_run (fun s h => ?_) h
  try dsimp only
  repeat' (first
    | with_reducible assumption
    | with_reducible refine keep_onlyIf _ _ (fun _ h => ?_) ?_
    | with_reducible refine keep_setPolicer _ _ ?_
    | with_reducible refine Keeps.foldl (fun s x h => ?_) _ ?_
    | with_reducible refine Keeps.of1 ‹_› ?_
    | with_reducible refine Keeps.of2 ‹_› ?_
    | split
    | with_reducible refine Keeps.same ?_ rfl
    | dsimp only)

theorem keep_execPolicerSet (id : Nat) {s s' : State} (h : execPolicerSet id s = .next s') : Keeps s s' := by
  unfold execPolicerSet at h
  refine keep_run (fun s h => ?_) h
  try dsimp only
  repeat' (first
    | with_reducible assumption
    | with_reducible refine keep_finish0 _ _ ?_
    | with_reducible refine keep_startOp _ _ _ (fun _ _ h => ?_) ?_
    | with_reducible refine keep_setPolicer _ _ ?_
    | with_reducible refine Keeps.of1 ‹_› ?_
    | with_reducible refine Keeps.of2 ‹_› ?_
    | split
    | with_reducible refine Keeps.same ?_ rfl
    | dsimp only)

theorem keep_execParseHandoff  {s s' : State} (h : execParseHandoff s = .next s') : Keeps s s' := by
  unfold execParseHandoff at h
  refine keep_run (fun s h => ?_) h
  try dsimp only
  repeat' (first
    | with_reducible assumption
    | with_reducible refine keep_pfc _ _ ?_
    | with_reducible refine Keeps.of1 ‹_› ?_
    | with_reducible refine Keeps.of2 ‹_› ?_
    | split
    | with_reducible refine Keeps.same ?_ rfl
    | dsimp only)

theorem keep_rxDeliver (f : Frame) (q : Nat) (cause : Nat) (rule : Nat) {a s : State} (h : Keeps a s) : Keeps a (rxDeliver f q cause rule s) := by
  unfold rxDeliver
  try dsimp only
  repeat' (first
    | with_reducible assumption
    | with_reducible refine keep_count _ _ _ _ ?_
    | with_reducible refine keep_writeMem _ _ ?_
    | with_reducible refine keep_refuse _ _ _ ?_
    | with_reducible refine keep_setWq _ _ ?_
    | with_reducible refine Keeps.of1 ‹_› ?_
    | with_reducible refine Keeps.of2 ‹_› ?_
    | split
    | with_reducible refine Keeps.same ?_ rfl
    | dsimp only)

theorem keep_slowDeliver (f : Frame) (cause : Nat) (rule : Nat) {a s : State} (h : Keeps a s) : Keeps a (slowDeliver f cause rule s) := by
  unfold slowDeliver
  try dsimp only
  repeat' (first
    | with_reducible assumption
    | with_reducible refine keep_count _ _ _ _ ?_
    | with_reducible refine keep_rxDeliver _ _ _ _ ?_
    | with_reducible refine Keeps.of1 ‹_› ?_
    | with_reducible refine Keeps.of2 ‹_› ?_
    | split
    | with_reducible refine Keeps.same ?_ rfl
    | dsimp only)

theorem keep_execReorderRelease (m : Nat) {s s' : State} (h : execReorderRelease m s = .next s') : Keeps s s' := by
  unfold execReorderRelease at h
  refine keep_run (fun s h => ?_) h
  try dsimp only
  repeat' (first
    | with_reducible assumption
    | with_reducible refine keep_count _ _ _ _ ?_
    | with_reducible refine keep_pfc _ _ ?_
    | with_reducible refine keep_strmErrSet _ _ ?_
    | with_reducible refine keep_strmDrop _ ?_
    | with_reducible refine keep_rxDeliver _ _ _ _ ?_
    | with_reducible refine keep_slowDeliver _ _ _ ?_
    | with_reducible refine Keeps.of1 ‹_› ?_
    | with_reducible refine Keeps.of2 ‹_› ?_
    | split
    | with_reducible refine Keeps.same ?_ rfl
    | dsimp only)

theorem keep_execStreamPlace (st : Nat) {s s' : State} (h : execStreamPlace st s = .next s') : Keeps s s' := by
  unfold execStreamPlace at h
  refine keep_run (fun s h => ?_) h
  try dsimp only
  repeat' (first
    | with_reducible assumption
    | with_reducible refine keep_setReg _ _ _ _ ?_
    | with_reducible refine keep_tableErr ?_
    | with_reducible refine keep_varCount _ _ ?_
    | with_reducible refine keep_setStream _ _ ?_
    | with_reducible refine keep_pfc _ _ ?_
    | with_reducible refine keep_ringWrite _ _ _ _ ?_
    | with_reducible refine keep_strmErrSet _ _ ?_
    | with_reducible refine keep_closeStream _ ?_
    | with_reducible refine Keeps.of1 ‹_› ?_
    | with_reducible refine Keeps.of2 ‹_› ?_
    | split
    | with_reducible refine Keeps.same ?_ rfl
    | dsimp only)

theorem keep_tenSync (t : Nat) (src : Nat) (sync : Nat) {a s : State} (h : Keeps a s) : Keeps a (tenSync t src sync s) := by
  unfold tenSync
  try dsimp only
  repeat' (first
    | with_reducible assumption
    | with_reducible refine keep_sendSig _ _ _ _ _ ?_
    | with_reducible refine Keeps.of1 ‹_› ?_
    | with_reducible refine Keeps.of2 ‹_› ?_
    | split
    | with_reducible refine Keeps.same ?_ rfl
    | dsimp only)

theorem keep_execStreamRecordComplete (st : Nat) {s s' : State} (h : execStreamRecordComplete st s = .next s') : Keeps s s' := by
  unfold execStreamRecordComplete at h
  refine keep_run (fun s h => ?_) h
  try dsimp only
  repeat' (first
    | with_reducible assumption
    | with_reducible refine keep_count _ _ _ _ ?_
    | with_reducible refine keep_setStream _ _ ?_
    | with_reducible refine keep_closeReady _ ?_
    | with_reducible refine keep_tenSync _ _ _ ?_
    | with_reducible refine Keeps.of1 ‹_› ?_
    | with_reducible refine Keeps.of2 ‹_› ?_
    | split
    | with_reducible refine Keeps.same ?_ rfl
    | dsimp only)

theorem keep_execConsumedWrite (who : Nat) (st : Nat) (val : BitVec 64) {s s' : State} (h : execConsumedWrite who st val s = .next s') : Keeps s s' := by
  unfold execConsumedWrite at h
  refine keep_run (fun s h => ?_) h
  try dsimp only
  repeat' (first
    | with_reducible assumption
    | with_reducible refine keep_onlyIf _ _ (fun _ h => ?_) ?_
    | with_reducible refine keep_setReg _ _ _ _ ?_
    | with_reducible refine keep_devInst _ _ _ (fun _ h => ?_) ?_
    | with_reducible refine keep_strmErrSet _ _ ?_
    | with_reducible refine Keeps.of1 ‹_› ?_
    | with_reducible refine Keeps.of2 ‹_› ?_
    | split
    | with_reducible refine Keeps.same ?_ rfl
    | dsimp only)

theorem keep_execStreamOpen (id : Nat) {s s' : State} (h : execStreamOpen id s = .next s') : Keeps s s' := by
  unfold execStreamOpen at h
  refine keep_run (fun s h => ?_) h
  try dsimp only
  repeat' (first
    | with_reducible assumption
    | with_reducible refine keep_setReg _ _ _ _ ?_
    | with_reducible refine keep_finish0 _ _ ?_
    | with_reducible refine keep_startOp _ _ _ (fun _ _ h => ?_) ?_
    | with_reducible refine keep_need6 _ _ _ _ _ _ (fun _ h => ?_) ?_
    | with_reducible refine keep_setStream _ _ ?_
    | with_reducible refine Keeps.of1 ‹_› ?_
    | with_reducible refine Keeps.of2 ‹_› ?_
    | split
    | with_reducible refine Keeps.same ?_ rfl
    | dsimp only)

theorem keep_execStreamClose (id : Nat) {s s' : State} (h : execStreamClose id s = .next s') : Keeps s s' := by
  unfold execStreamClose at h
  refine keep_run (fun s h => ?_) h
  try dsimp only
  repeat' (first
    | with_reducible assumption
    | with_reducible refine keep_working _ ?_
    | with_reducible refine keep_startOp _ _ _ (fun _ _ h => ?_) ?_
    | with_reducible refine keep_need6 _ _ _ _ _ _ (fun _ h => ?_) ?_
    | with_reducible refine keep_setStream _ _ ?_
    | with_reducible refine keep_closeStream _ ?_
    | with_reducible refine keep_closeReady _ ?_
    | with_reducible refine Keeps.of1 ‹_› ?_
    | with_reducible refine Keeps.of2 ‹_› ?_
    | split
    | with_reducible refine Keeps.same ?_ rfl
    | dsimp only)

theorem keep_execRulesCommit (id : Nat) {s s' : State} (h : execRulesCommit id s = .next s') : Keeps s s' := by
  unfold execRulesCommit at h
  refine keep_run (fun s h => ?_) h
  try dsimp only
  repeat' (first
    | with_reducible assumption
    | with_reducible refine keep_readMem _ _ ?_
    | with_reducible refine keep_finish0 _ _ ?_
    | with_reducible refine keep_failAddr _ _ ?_
    | with_reducible refine keep_working _ ?_
    | with_reducible refine keep_startOp _ _ _ (fun _ _ h => ?_) ?_
    | with_reducible refine keep_need7 _ _ _ (fun _ h => ?_) ?_
    | with_reducible refine keep_varRefuse _ ?_
    | with_reducible refine Keeps.of1 ‹_› ?_
    | with_reducible refine Keeps.of2 ‹_› ?_
    | split
    | with_reducible refine Keeps.same ?_ rfl
    | dsimp only)

theorem keep_execRulesCommitApply (id : Nat) {s s' : State} (h : execRulesCommitApply id s = .next s') : Keeps s s' := by
  unfold execRulesCommitApply at h
  refine keep_run (fun s h => ?_) h
  try dsimp only
  repeat' (first
    | with_reducible assumption
    | with_reducible refine keep_setReg _ _ _ _ ?_
    | with_reducible refine keep_finish _ _ _ _ _ _ ?_
    | with_reducible refine keep_finish0 _ _ ?_
    | with_reducible refine keep_varRefuse _ ?_
    | with_reducible refine Keeps.of1 ‹_› ?_
    | with_reducible refine Keeps.of2 ‹_› ?_
    | split
    | with_reducible refine Keeps.same ?_ rfl
    | dsimp only)

theorem keep_execRuleVersionRetire (ver : Nat) {s s' : State} (h : execRuleVersionRetire ver s = .next s') : Keeps s s' := by
  unfold execRuleVersionRetire at h
  refine keep_run (fun s h => ?_) h
  try dsimp only
  repeat' (first
    | with_reducible assumption
    | with_reducible refine Keeps.of1 ‹_› ?_
    | with_reducible refine Keeps.of2 ‹_› ?_
    | split
    | with_reducible refine Keeps.same ?_ rfl
    | dsimp only)

theorem keep_execPatternsLoad (id : Nat) {s s' : State} (h : execPatternsLoad id s = .next s') : Keeps s s' := by
  unfold execPatternsLoad at h
  refine keep_run (fun s h => ?_) h
  try dsimp only
  repeat' (first
    | with_reducible assumption
    | with_reducible refine keep_readMem _ _ ?_
    | with_reducible refine keep_finish0 _ _ ?_
    | with_reducible refine keep_failAddr _ _ ?_
    | with_reducible refine keep_startOp _ _ _ (fun _ _ h => ?_) ?_
    | with_reducible refine Keeps.foldl (fun s x h => ?_) _ ?_
    | with_reducible refine Keeps.of1 ‹_› ?_
    | with_reducible refine Keeps.of2 ‹_› ?_
    | split
    | with_reducible refine Keeps.same ?_ rfl
    | dsimp only)

theorem keep_execTenantMapWrite (who : Nat) (idx : Nat) (val : Word) {s s' : State} (h : execTenantMapWrite who idx val s = .next s') : Keeps s s' := by
  unfold execTenantMapWrite at h
  refine keep_run (fun s h => ?_) h
  try dsimp only
  repeat' (first
    | with_reducible assumption
    | with_reducible refine keep_onlyIf _ _ (fun _ h => ?_) ?_
    | with_reducible refine keep_setReg _ _ _ _ ?_
    | with_reducible refine keep_devInst _ _ _ (fun _ h => ?_) ?_
    | with_reducible refine Keeps.of1 ‹_› ?_
    | with_reducible refine Keeps.of2 ‹_› ?_
    | split
    | with_reducible refine Keeps.same ?_ rfl
    | dsimp only)

theorem keep_execProfileWrite (who : Nat) (prof : Nat) (word : Nat) (val : Word) {s s' : State} (h : execProfileWrite who prof word val s = .next s') : Keeps s s' := by
  unfold execProfileWrite at h
  refine keep_run (fun s h => ?_) h
  try dsimp only
  repeat' (first
    | with_reducible assumption
    | with_reducible refine keep_onlyIf _ _ (fun _ h => ?_) ?_
    | with_reducible refine keep_setReg _ _ _ _ ?_
    | with_reducible refine keep_setField _ _ _ _ _ _ ?_
    | with_reducible refine keep_devInst _ _ _ (fun _ h => ?_) ?_
    | with_reducible refine Keeps.of1 ‹_› ?_
    | with_reducible refine Keeps.of2 ‹_› ?_
    | split
    | with_reducible refine Keeps.same ?_ rfl
    | dsimp only)

theorem keep_txDequeue (m : Nat) (q : Nat) {a s : State} (h : Keeps a s) : Keeps a (txDequeue m q s) := by
  unfold txDequeue
  try dsimp only
  repeat' (first
    | with_reducible assumption
    | with_reducible refine keep_count _ _ _ _ ?_
    | with_reducible refine keep_send _ ?_
    | with_reducible refine keep_readMem _ _ ?_
    | with_reducible refine keep_sendSig _ _ _ _ _ ?_
    | with_reducible refine keep_setWq _ _ ?_
    | with_reducible refine Keeps.of1 ‹_› ?_
    | with_reducible refine Keeps.of2 ‹_› ?_
    | split
    | with_reducible refine Keeps.same ?_ rfl
    | dsimp only)

theorem keep_execFrameTransmit (m : Nat) {s s' : State} (h : execFrameTransmit m s = .next s') : Keeps s s' := by
  unfold execFrameTransmit at h
  refine keep_run (fun s h => ?_) h
  try dsimp only
  repeat' (first
    | with_reducible assumption
    | with_reducible refine keep_onlyIf _ _ (fun _ h => ?_) ?_
    | with_reducible refine keep_send _ ?_
    | with_reducible refine keep_setMac _ _ ?_
    | with_reducible refine keep_txDequeue _ _ ?_
    | with_reducible refine Keeps.of1 ‹_› ?_
    | with_reducible refine Keeps.of2 ‹_› ?_
    | split
    | with_reducible refine Keeps.same ?_ rfl
    | dsimp only)

theorem keep_execShaperRefill (m : Nat) {s s' : State} (h : execShaperRefill m s = .next s') : Keeps s s' := by
  unfold execShaperRefill at h
  refine keep_run (fun s h => ?_) h
  try dsimp only
  repeat' (first
    | with_reducible assumption
    | with_reducible refine keep_onlyIf _ _ (fun _ h => ?_) ?_
    | with_reducible refine keep_setMac _ _ ?_
    | with_reducible refine Keeps.foldl (fun s x h => ?_) _ ?_
    | with_reducible refine Keeps.of1 ‹_› ?_
    | with_reducible refine Keeps.of2 ‹_› ?_
    | split
    | with_reducible refine Keeps.same ?_ rfl
    | dsimp only)

theorem keep_execShaperSet (id : Nat) {s s' : State} (h : execShaperSet id s = .next s') : Keeps s s' := by
  unfold execShaperSet at h
  refine keep_run (fun s h => ?_) h
  try dsimp only
  repeat' (first
    | with_reducible assumption
    | with_reducible refine keep_finish0 _ _ ?_
    | with_reducible refine keep_startOp _ _ _ (fun _ _ h => ?_) ?_
    | with_reducible refine keep_setMac _ _ ?_
    | with_reducible refine Keeps.of1 ‹_› ?_
    | with_reducible refine Keeps.of2 ‹_› ?_
    | split
    | with_reducible refine Keeps.same ?_ rfl
    | dsimp only)

theorem keep_execGatesLoad (id : Nat) {s s' : State} (h : execGatesLoad id s = .next s') : Keeps s s' := by
  unfold execGatesLoad at h
  refine keep_run (fun s h => ?_) h
  try dsimp only
  repeat' (first
    | with_reducible assumption
    | with_reducible refine keep_arm _ _ ?_
    | with_reducible refine keep_disarm _ ?_
    | with_reducible refine keep_readMem _ _ ?_
    | with_reducible refine keep_finish0 _ _ ?_
    | with_reducible refine keep_failAddr _ _ ?_
    | with_reducible refine keep_startOp _ _ _ (fun _ _ h => ?_) ?_
    | with_reducible refine keep_setMac _ _ ?_
    | with_reducible refine Keeps.of1 ‹_› ?_
    | with_reducible refine Keeps.of2 ‹_› ?_
    | split
    | with_reducible refine Keeps.same ?_ rfl
    | dsimp only)

theorem keep_gateTakes (m : Nat) (late : Bool) {a s : State} (h : Keeps a s) : Keeps a (gateTakes m late s) := by
  unfold gateTakes
  try dsimp only
  repeat' (first
    | with_reducible assumption
    | with_reducible refine keep_orReg _ _ _ _ ?_
    | with_reducible refine keep_setMac _ _ ?_
    | with_reducible refine Keeps.of1 ‹_› ?_
    | with_reducible refine Keeps.of2 ‹_› ?_
    | split
    | with_reducible refine Keeps.same ?_ rfl
    | dsimp only)

theorem keep_execGateIntervalEnd (m : Nat) {s s' : State} (h : execGateIntervalEnd m s = .next s') : Keeps s s' := by
  unfold execGateIntervalEnd at h
  refine keep_run (fun s h => ?_) h
  try dsimp only
  repeat' (first
    | with_reducible assumption
    | with_reducible refine keep_setMac _ _ ?_
    | with_reducible refine Keeps.of1 ‹_› ?_
    | with_reducible refine Keeps.of2 ‹_› ?_
    | split
    | with_reducible refine Keeps.same ?_ rfl
    | dsimp only)

end Sys2Proof.Machine
end

