-- ==== Sys2Proof/Laws/KeepTelemetry.lean ====
section
/-! SUPPORT. What the operations of Machine/Telemetry.lean keep: soundness, the queue, the draws, the wire. -/
namespace Sys2Proof.Machine

open Sys2Proof

theorem keep_setLogRing (i : Nat) (r : LogRing) {a s : State} (h : Keeps a s) : Keeps a (State.setLogRing s i r) := by
  unfold State.setLogRing
  try dsimp only
  repeat' (first
    | with_reducible assumption
    | with_reducible refine Keeps.of1 ‹_› ?_
    | with_reducible refine Keeps.of2 ‹_› ?_
    | split
    | with_reducible refine Keeps.same ?_ rfl
    | dsimp only)

theorem keep_execLogRing (id : Nat) {s s' : State} (h : execLogRing id s = .next s') : Keeps s s' := by
  unfold execLogRing at h
  refine keep_run (fun s h => ?_) h
  try dsimp only
  repeat' (first
    | with_reducible assumption
    | with_reducible refine keep_finish0 _ _ ?_
    | with_reducible refine keep_startOp _ _ _ (fun _ _ h => ?_) ?_
    | with_reducible refine keep_setLogRing _ _ ?_
    | with_reducible refine Keeps.of1 ‹_› ?_
    | with_reducible refine Keeps.of2 ‹_› ?_
    | split
    | with_reducible refine Keeps.same ?_ rfl
    | dsimp only)

theorem keep_execLogRingWrite (i : Nat) {s s' : State} (h : execLogRingWrite i s = .next s') : Keeps s s' := by
  refine keep_run (fun x h => ?_) h
  extract_lets g
  split
  · exact h
  · next r t rest e =>
    split
    · exact h
    · have h1 := keep_setLogRing i { g with
        tail := if g.tail + 1 = 2 ^ g.log2 then 0 else g.tail + 1, used := g.used + 1
        phase := if g.tail + 1 = 2 ^ g.log2 then !g.phase else g.phase } (keep_hostWrite i (g.base + 64 * g.tail) (recBytes g.phase r) h)
      refine keep_signalVector _ _ (keep_flushPath _ (keep_setPath _ _ h1 fun y => ?_))
      have hq : ∀ (z : State), (∀ p, z.path p = x.path p) → (z.path i).queue.length = rest.length + 1 := by
        intro z hz
        rw [hz, e]
        rfl
      have := path_len h i y
      rw [e] at this
      exact Nat.le_of_succ_le this

theorem keep_execLogHeadWrite (who : Nat) (i : Nat) (val : Word) {s s' : State} (h : execLogHeadWrite who i val s = .next s') : Keeps s s' := by
  unfold execLogHeadWrite at h
  refine keep_run (fun s h => ?_) h
  try dsimp only
  repeat' (first
    | with_reducible assumption
    | with_reducible refine keep_onlyIf _ _ (fun _ h => ?_) ?_
    | with_reducible refine keep_orReg _ _ _ _ ?_
    | with_reducible refine keep_setLogRing _ _ ?_
    | with_reducible refine Keeps.of1 ‹_› ?_
    | with_reducible refine Keeps.of2 ‹_› ?_
    | split
    | with_reducible refine Keeps.same ?_ rfl
    | dsimp only)

theorem keep_execSidebandRecordRead (off : Nat) {s s' : State} (h : execSidebandRecordRead off s = .next s') : Keeps s s' := by
  refine keep_run (fun x g => ?_) h
  clear h
  have h := g
  split
  · exact keep_send _ h
  · exact keep_send _ h
  · split
    · exact keep_send _ h
    · next e =>
      refine keep_flushPath _ (keep_send _ (keep_setPath _ _ h fun y => ?_))
      have := path_len h 18 y
      rw [e] at this
      exact Nat.le_of_succ_le this
  · exact h

theorem keep_execExportPacketSend {s s' : State} (h : execExportPacketSend s = .next s') : Keeps s s' := by
  refine keep_run (fun x g => ?_) h
  clear h
  extract_lets w q ms cnt due
  clear_value due
  split
  · exact g
  · refine keep_flushPath _ (keep_setPath _ _ (keep_send _ (g.same rfl)) fun y => ?_)
    have := path_len g 19 y
    rw [List.length_drop]
    exact Nat.le_trans (Nat.sub_le _ _) this

theorem keep_execCountersRead (id : Nat) {s s' : State} (h : execCountersRead id s = .next s') : Keeps s s' := by
  unfold execCountersRead at h
  refine keep_run (fun s h => ?_) h
  try dsimp only
  repeat' (first
    | with_reducible assumption
    | with_reducible refine keep_hostWrite _ _ _ ?_
    | with_reducible refine keep_finish0 _ _ ?_
    | with_reducible refine keep_failHost _ _ ?_
    | with_reducible refine keep_startOp _ _ _ (fun _ _ h => ?_) ?_
    | with_reducible refine Keeps.of1 ‹_› ?_
    | with_reducible refine Keeps.of2 ‹_› ?_
    | split
    | with_reducible refine Keeps.same ?_ rfl
    | dsimp only)

theorem keep_execErrorsRead (id : Nat) {s s' : State} (h : execErrorsRead id s = .next s') : Keeps s s' := by
  unfold execErrorsRead at h
  refine keep_run (fun s h => ?_) h
  try dsimp only
  repeat' (first
    | with_reducible assumption
    | with_reducible refine keep_count _ _ _ _ ?_
    | with_reducible refine keep_hostWrite _ _ _ ?_
    | with_reducible refine keep_finish _ _ _ _ _ _ ?_
    | with_reducible refine keep_finish0 _ _ ?_
    | with_reducible refine keep_failHost _ _ ?_
    | with_reducible refine keep_startOp _ _ _ (fun _ _ h => ?_) ?_
    | with_reducible refine Keeps.of1 ‹_› ?_
    | with_reducible refine Keeps.of2 ‹_› ?_
    | split
    | with_reducible refine Keeps.same ?_ rfl
    | dsimp only)

theorem keep_execErrorsClear (id : Nat) {s s' : State} (h : execErrorsClear id s = .next s') : Keeps s s' := by
  refine keep_run (fun x h => keep_startOp _ _ _ (fun c x h => ?_) h) h
  exact keep_finish0 _ _ (keep_flushPath _ (keep_setPath _ _ (keep_setReg _ _ _ _ h) fun _ => Nat.zero_le _))

theorem keep_execTraceSet (id : Nat) {s s' : State} (h : execTraceSet id s = .next s') : Keeps s s' := by
  unfold execTraceSet at h
  refine keep_run (fun s h => ?_) h
  try dsimp only
  repeat' (first
    | with_reducible assumption
    | with_reducible refine keep_readMem _ _ ?_
    | with_reducible refine keep_finish0 _ _ ?_
    | with_reducible refine keep_failAddr _ _ ?_
    | with_reducible refine keep_startOp _ _ _ (fun _ _ h => ?_) ?_
    | with_reducible refine Keeps.of1 ‹_› ?_
    | with_reducible refine Keeps.of2 ‹_› ?_
    | split
    | with_reducible refine Keeps.same ?_ rfl
    | dsimp only)

end Sys2Proof.Machine
end

