-- ==== Sys2Proof/Laws/KeepMemory.lean ====
section
/-! SUPPORT. What the operations of Machine/Memory.lean keep: soundness, the queue, the draws, the wire. -/
namespace Sys2Proof.Machine

open Sys2Proof

theorem keep_upsetLine (line : Nat) (l : List Upset) {a s : State} (h : Keeps a s) : Keeps a (upsetLine line l s) :=
  Keeps.foldl (fun _ _ h => h.memory fun m b => ⟨m, twf_tput _ _ _ b⟩) l h

theorem keep_execMemoryAccess (addr : LineAccess) (data : Bytes) {s s' : State} (h : execMemoryAccess addr data s = .next s') : Keeps s s' := by
  unfold execMemoryAccess at h
  refine keep_run (fun s h => ?_) h
  try dsimp only
  repeat' (first
    | with_reducible assumption
    | with_reducible refine keep_readMem _ _ ?_
    | with_reducible refine keep_writeMem _ _ ?_
    | with_reducible refine keep_wakeAt _ ?_
    | with_reducible refine keep_upsetLine _ _ ?_
    | with_reducible refine Keeps.of1 ‹_› ?_
    | with_reducible refine Keeps.of2 ‹_› ?_
    | split
    | with_reducible refine Keeps.same ?_ rfl
    | dsimp only)

theorem keep_execRefreshSlot (c : Nat) (ch : Nat) {s s' : State} (h : execRefreshSlot c ch s = .next s') : Keeps s s' := by
  unfold execRefreshSlot at h
  refine keep_run (fun s h => ?_) h
  try dsimp only
  repeat' (first
    | with_reducible assumption
    | with_reducible refine keep_onlyIf _ _ (fun _ h => ?_) ?_
    | with_reducible refine keep_count _ _ _ _ ?_
    | with_reducible refine keep_countTv _ _ ?_
    | with_reducible refine keep_setMemc _ _ ?_
    | with_reducible refine Keeps.of1 ‹_› ?_
    | with_reducible refine Keeps.of2 ‹_› ?_
    | split
    | with_reducible refine Keeps.same ?_ rfl
    | dsimp only)

theorem keep_laneFails (c : Nat) (ch : Nat) {a s : State} (h : Keeps a s) : Keeps a (laneFails c ch s) := by
  unfold laneFails
  try dsimp only
  repeat' (first
    | with_reducible assumption
    | with_reducible refine keep_orReg _ _ _ _ ?_
    | with_reducible refine keep_setMemc _ _ ?_
    | with_reducible refine Keeps.of1 ‹_› ?_
    | with_reducible refine Keeps.of2 ‹_› ?_
    | split
    | with_reducible refine Keeps.same ?_ rfl
    | dsimp only)

theorem keep_execRecalibration (c : Nat) (ch : Nat) (low : Bool) (failedLane : Bool) (trained : Bool) {s s' : State} (h : execRecalibration c ch low failedLane trained s = .next s') : Keeps s s' := by
  unfold execRecalibration at h
  refine keep_run (fun s h => ?_) h
  try dsimp only
  repeat' (first
    | with_reducible assumption
    | with_reducible refine keep_onlyIf _ _ (fun _ h => ?_) ?_
    | with_reducible refine keep_count _ _ _ _ ?_
    | with_reducible refine keep_countTv _ _ ?_
    | with_reducible refine keep_draw ?_
    | with_reducible refine keep_stickyRec _ _ _ _ _ _ _ ?_
    | with_reducible refine keep_setMemc _ _ ?_
    | with_reducible refine keep_laneFails _ _ ?_
    | with_reducible refine Keeps.of1 ‹_› ?_
    | with_reducible refine Keeps.of2 ‹_› ?_
    | split
    | with_reducible refine Keeps.same ?_ rfl
    | dsimp only)

theorem keep_execMemoryScrubRead (c : Nat) {s s' : State} (h : execMemoryScrubRead c s = .next s') : Keeps s s' := by
  unfold execMemoryScrubRead at h
  refine keep_run (fun s h => ?_) h
  try dsimp only
  repeat' (first
    | with_reducible assumption
    | with_reducible refine keep_onlyIf _ _ (fun _ h => ?_) ?_
    | with_reducible refine keep_setMemc _ _ ?_
    | with_reducible refine keep_cwReadAs _ _ ?_
    | with_reducible refine Keeps.of1 ‹_› ?_
    | with_reducible refine Keeps.of2 ‹_› ?_
    | split
    | with_reducible refine Keeps.same ?_ rfl
    | dsimp only)

theorem keep_execStackTemperatureReport (h' : Nat) (hot : Bool) {s s' : State} (h : execStackTemperatureReport h' hot s = .next s') : Keeps s s' := by
  unfold execStackTemperatureReport at h
  refine keep_run (fun s h => ?_) h
  try dsimp only
  repeat' (first
    | with_reducible assumption
    | with_reducible refine keep_setField _ _ _ _ _ _ ?_
    | with_reducible refine Keeps.of1 ‹_› ?_
    | with_reducible refine Keeps.of2 ‹_› ?_
    | split
    | with_reducible refine Keeps.same ?_ rfl
    | dsimp only)

theorem keep_execInjectArm (who : Nat) (c : Nat) (val : Word) {s s' : State} (h : execInjectArm who c val s = .next s') : Keeps s s' := by
  unfold execInjectArm at h
  refine keep_run (fun s h => ?_) h
  try dsimp only
  repeat' (first
    | with_reducible assumption
    | with_reducible refine keep_onlyIf _ _ (fun _ h => ?_) ?_
    | with_reducible refine keep_setReg _ _ _ _ ?_
    | with_reducible refine Keeps.of1 ‹_› ?_
    | with_reducible refine Keeps.of2 ‹_› ?_
    | split
    | with_reducible refine Keeps.same ?_ rfl
    | dsimp only)

theorem keep_execSegModeWrite (who : Nat) (sg : Nat) (val : Word) {s s' : State} (h : execSegModeWrite who sg val s = .next s') : Keeps s s' := by
  unfold execSegModeWrite at h
  refine keep_run (fun s h => ?_) h
  try dsimp only
  repeat' (first
    | with_reducible assumption
    | with_reducible refine keep_orReg _ _ _ _ ?_
    | with_reducible refine Keeps.of1 ‹_› ?_
    | with_reducible refine Keeps.of2 ‹_› ?_
    | split
    | with_reducible refine Keeps.same ?_ rfl
    | dsimp only)

theorem keep_execSegmentFillDone (sg : Nat) {s s' : State} (h : execSegmentFillDone sg s = .next s') : Keeps s s' := by
  unfold execSegmentFillDone at h
  refine keep_run (fun s h => ?_) h
  try dsimp only
  repeat' (first
    | with_reducible assumption
    | with_reducible refine keep_setReg _ _ _ _ ?_
    | with_reducible refine keep_zeroMem _ _ ?_
    | with_reducible refine Keeps.of1 ‹_› ?_
    | with_reducible refine Keeps.of2 ‹_› ?_
    | split
    | with_reducible refine Keeps.same ?_ rfl
    | dsimp only)

theorem keep_execBlockZeroFillDone (blk : Nat) {s s' : State} (h : execBlockZeroFillDone blk s = .next s') : Keeps s s' := by
  unfold execBlockZeroFillDone at h
  refine keep_run (fun s h => ?_) h
  try dsimp only
  repeat' (first
    | with_reducible assumption
    | with_reducible refine keep_zeroMem _ _ ?_
    | with_reducible refine Keeps.of1 ‹_› ?_
    | with_reducible refine Keeps.of2 ‹_› ?_
    | split
    | with_reducible refine Keeps.same ?_ rfl
    | dsimp only)

theorem keep_enterRegion (c : Cmd) (e : Nat) {a s : State} (h : Keeps a s) : Keeps a (enterRegion c e s) := by
  unfold enterRegion
  try dsimp only
  repeat' (first
    | with_reducible assumption
    | with_reducible refine keep_draw ?_
    | with_reducible refine keep_setRegion _ _ ?_
    | with_reducible refine keep_finish _ _ _ _ _ _ ?_
    | with_reducible refine Keeps.of1 ‹_› ?_
    | with_reducible refine Keeps.of2 ‹_› ?_
    | split
    | with_reducible refine Keeps.same ?_ rfl
    | dsimp only)

theorem keep_createRegion (c : Cmd) {a s : State} (h : Keeps a s) : Keeps a (createRegion c s) := by
  unfold createRegion
  try dsimp only
  repeat' (first
    | with_reducible assumption
    | with_reducible refine keep_addrDenied _ ?_
    | with_reducible refine keep_tableErr ?_
    | with_reducible refine keep_finish _ _ _ _ _ _ ?_
    | with_reducible refine keep_finish0 _ _ ?_
    | with_reducible refine keep_conflict _ _ _ _ _ ?_
    | with_reducible refine keep_working _ ?_
    | with_reducible refine keep_failAt _ _ _ _ ?_
    | with_reducible refine keep_enterRegion _ _ ?_
    | with_reducible refine Keeps.of1 ‹_› ?_
    | with_reducible refine Keeps.of2 ‹_› ?_
    | split
    | with_reducible refine Keeps.same ?_ rfl
    | dsimp only)

theorem keep_execRegionCreate (id : Nat) {s s' : State} (h : execRegionCreate id s = .next s') : Keeps s s' := by
  unfold execRegionCreate at h
  refine keep_run (fun s h => ?_) h
  try dsimp only
  repeat' (first
    | with_reducible assumption
    | with_reducible refine keep_startOp _ _ _ (fun _ _ h => ?_) ?_
    | with_reducible refine keep_createRegion _ ?_
    | with_reducible refine Keeps.of1 ‹_› ?_
    | with_reducible refine Keeps.of2 ‹_› ?_
    | split
    | with_reducible refine Keeps.same ?_ rfl
    | dsimp only)

theorem keep_execRegionRevoke (id : Nat) {s s' : State} (h : execRegionRevoke id s = .next s') : Keeps s s' := by
  unfold execRegionRevoke at h
  refine keep_run (fun s h => ?_) h
  try dsimp only
  repeat' (first
    | with_reducible assumption
    | with_reducible refine keep_setRegion _ _ ?_
    | with_reducible refine keep_conflict _ _ _ _ _ ?_
    | with_reducible refine keep_working _ ?_
    | with_reducible refine keep_startOp _ _ _ (fun _ _ h => ?_) ?_
    | with_reducible refine Keeps.of1 ‹_› ?_
    | with_reducible refine Keeps.of2 ‹_› ?_
    | split
    | with_reducible refine Keeps.same ?_ rfl
    | dsimp only)

theorem keep_execRegionShareWrite (who : Nat) (e : Nat) (val : Word) {s s' : State} (h : execRegionShareWrite who e val s = .next s') : Keeps s s' := by
  unfold execRegionShareWrite at h
  refine keep_run (fun s h => ?_) h
  try dsimp only
  repeat' (first
    | with_reducible assumption
    | with_reducible refine keep_onlyIf _ _ (fun _ h => ?_) ?_
    | with_reducible refine keep_setRegion _ _ ?_
    | with_reducible refine Keeps.of1 ‹_› ?_
    | with_reducible refine Keeps.of2 ‹_› ?_
    | split
    | with_reducible refine Keeps.same ?_ rfl
    | dsimp only)

theorem keep_execRngHealthFail  {s s' : State} (h : execRngHealthFail s = .next s') : Keeps s s' := by
  unfold execRngHealthFail at h
  refine keep_run (fun s h => ?_) h
  try dsimp only
  repeat' (first
    | with_reducible assumption
    | with_reducible refine keep_sticky _ _ _ _ _ ?_
    | with_reducible refine Keeps.of1 ‹_› ?_
    | with_reducible refine Keeps.of2 ‹_› ?_
    | split
    | with_reducible refine Keeps.same ?_ rfl
    | dsimp only)

theorem keep_execEntropyStartUpTestsPass  {s s' : State} (h : execEntropyStartUpTestsPass s = .next s') : Keeps s s' := by
  unfold execEntropyStartUpTestsPass at h
  refine keep_run (fun s h => ?_) h
  try dsimp only
  repeat' (first
    | with_reducible assumption
    | with_reducible refine keep_onlyIf _ _ (fun _ h => ?_) ?_
    | with_reducible refine keep_createRegion _ ?_
    | with_reducible refine Keeps.foldl (fun s x h => ?_) _ ?_
    | with_reducible refine Keeps.of1 ‹_› ?_
    | with_reducible refine Keeps.of2 ‹_› ?_
    | split
    | with_reducible refine Keeps.same ?_ rfl
    | dsimp only)

theorem keep_execEntropyWaitTimeout (id : Nat) {s s' : State} (h : execEntropyWaitTimeout id s = .next s') : Keeps s s' := by
  unfold execEntropyWaitTimeout at h
  refine keep_run (fun s h => ?_) h
  try dsimp only
  repeat' (first
    | with_reducible assumption
    | with_reducible refine keep_finish0 _ _ ?_
    | with_reducible refine Keeps.of1 ‹_› ?_
    | with_reducible refine Keeps.of2 ‹_› ?_
    | split
    | with_reducible refine Keeps.same ?_ rfl
    | dsimp only)

theorem keep_readPart (fn : Nat) (a' : Nat) (n : Nat) {a s : State} (h : Keeps a s) : Keeps a (readPart s fn a' n).1 := by
  unfold readPart
  try dsimp only
  repeat' (first
    | with_reducible assumption
    | with_reducible refine keep_readAddr _ _ _ ?_
    | with_reducible refine Keeps.of1 ‹_› ?_
    | with_reducible refine Keeps.of2 ‹_› ?_
    | split
    | with_reducible refine Keeps.same ?_ rfl
    | dsimp only)

theorem keep_copyOut (c : Cmd) (dst : Nat) (bs : Bytes) (stop : Option RdErr) {a s : State} (h : Keeps a s) : Keeps a (copyOut c dst bs stop s) := by
  unfold copyOut
  try dsimp only
  repeat' (first
    | with_reducible assumption
    | with_reducible refine keep_hostWrite _ _ _ ?_
    | with_reducible refine keep_finish _ _ _ _ _ _ ?_
    | with_reducible refine keep_conflict _ _ _ _ _ ?_
    | with_reducible refine keep_devWrite _ _ ?_
    | with_reducible refine Keeps.of1 ‹_› ?_
    | with_reducible refine Keeps.of2 ‹_› ?_
    | split
    | with_reducible refine Keeps.same ?_ rfl
    | dsimp only)

theorem keep_wakeRange (a' : Nat) (n : Nat) {a s : State} (h : Keeps a s) : Keeps a (wakeRange s a' n) := by
  unfold wakeRange
  try dsimp only
  repeat' (first
    | with_reducible assumption
    | with_reducible refine keep_wakeSpan _ _ ?_
    | with_reducible refine Keeps.of1 ‹_› ?_
    | with_reducible refine Keeps.of2 ‹_› ?_
    | split
    | with_reducible refine Keeps.same ?_ rfl
    | dsimp only)

theorem keep_execCopy (id : Nat) {s s' : State} (h : execCopy id s = .next s') : Keeps s s' := by
  unfold execCopy at h
  refine keep_run (fun s h => ?_) h
  try dsimp only
  repeat' (first
    | with_reducible assumption
    | with_reducible refine keep_draw ?_
    | with_reducible refine keep_mayReach _ _ _ _ _ ?_
    | with_reducible refine keep_startOp _ _ _ (fun _ _ h => ?_) ?_
    | with_reducible refine keep_failAt _ _ _ _ ?_
    | with_reducible refine keep_readPart _ _ _ ?_
    | with_reducible refine keep_copyOut _ _ _ _ ?_
    | with_reducible refine keep_wakeRange _ _ ?_
    | with_reducible refine Keeps.of1 ‹_› ?_
    | with_reducible refine Keeps.of2 ‹_› ?_
    | split
    | with_reducible refine Keeps.same ?_ rfl
    | dsimp only)

theorem keep_execFill (id : Nat) {s s' : State} (h : execFill id s = .next s') : Keeps s s' := by
  unfold execFill at h
  refine keep_run (fun s h => ?_) h
  try dsimp only
  repeat' (first
    | with_reducible assumption
    | with_reducible refine keep_mayReach _ _ _ _ _ ?_
    | with_reducible refine keep_startOp _ _ _ (fun _ _ h => ?_) ?_
    | with_reducible refine keep_failAt _ _ _ _ ?_
    | with_reducible refine keep_copyOut _ _ _ _ ?_
    | with_reducible refine keep_wakeRange _ _ ?_
    | with_reducible refine Keeps.of1 ‹_› ?_
    | with_reducible refine Keeps.of2 ‹_› ?_
    | split
    | with_reducible refine Keeps.same ?_ rfl
    | dsimp only)

end Sys2Proof.Machine
end

