-- ==== Sys2Proof/Laws/KeepSecurity.lean ====
section
/-! SUPPORT. What the operations of Machine/Security.lean keep: soundness, the queue, the draws, the wire. -/
namespace Sys2Proof.Machine

open Sys2Proof

theorem keep_needSec (c : Cmd) (f : State → State) {a s : State} (hf : ∀ (x0 : State), Keeps a x0 → Keeps a (f x0)) (h : Keeps a s) : Keeps a (needSec c f s) := by
  unfold needSec
  try dsimp only
  repeat' (first
    | with_reducible assumption
    | with_reducible refine keep_finish0 _ _ ?_
    | with_reducible refine hf _ ?_
    | with_reducible refine Keeps.of1 ‹_› ?_
    | with_reducible refine Keeps.of2 ‹_› ?_
    | split
    | with_reducible refine Keeps.same ?_ rfl
    | dsimp only)

theorem keep_extend (i : Nat) (d : Bytes) {a s : State} (h : Keeps a s) : Keeps a (extend i d s) := by
  unfold extend
  try dsimp only
  repeat' (first
    | with_reducible assumption
    | with_reducible refine Keeps.of1 ‹_› ?_
    | with_reducible refine Keeps.of2 ‹_› ?_
    | split
    | with_reducible refine Keeps.same ?_ rfl
    | dsimp only)

theorem keep_withToken (c : Cmd) (o : Op) (k : Nat) (blocks : Bool) (f : Bytes → State → State) {a s : State} (hf : ∀ (x0 : Bytes) (x1 : State), Keeps a x1 → Keeps a (f x0 x1)) (h : Keeps a s) : Keeps a (withToken c o k blocks f s) := by
  unfold withToken
  try dsimp only
  repeat' (first
    | with_reducible assumption
    | with_reducible refine keep_setReg _ _ _ _ ?_
    | with_reducible refine keep_count _ _ _ _ ?_
    | with_reducible refine keep_hostRead _ _ _ ?_
    | with_reducible refine keep_finish0 _ _ ?_
    | with_reducible refine keep_failHost _ _ ?_
    | with_reducible refine hf _ _ ?_
    | with_reducible refine Keeps.of1 ‹_› ?_
    | with_reducible refine Keeps.of2 ‹_› ?_
    | split
    | with_reducible refine Keeps.same ?_ rfl
    | dsimp only)

theorem keep_assign (a' : Assignment) {a s : State} (h : Keeps a s) : Keeps a (assign a' s) := by
  unfold assign
  try dsimp only
  repeat' (first
    | with_reducible assumption
    | with_reducible refine keep_setField _ _ _ _ _ _ ?_
    | with_reducible refine keep_zeroMem _ _ ?_
    | with_reducible refine keep_startZeroing _ _ ?_
    | with_reducible refine keep_settleAll ?_
    | with_reducible refine keep_unlist _ _ ?_
    | with_reducible refine keep_zeroCounters _ ?_
    | with_reducible refine Keeps.foldl (fun s x h => ?_) _ ?_
    | with_reducible refine Keeps.of1 ‹_› ?_
    | with_reducible refine Keeps.of2 ‹_› ?_
    | split
    | with_reducible refine Keeps.same ?_ rfl
    | dsimp only)

theorem keep_execAssign (id : Nat) {s s' : State} (h : execAssign id s = .next s') : Keeps s s' := by
  unfold execAssign at h
  refine keep_run (fun s h => ?_) h
  try dsimp only
  repeat' (first
    | with_reducible assumption
    | with_reducible refine keep_finish0 _ _ ?_
    | with_reducible refine keep_conflict _ _ _ _ _ ?_
    | with_reducible refine keep_startOp _ _ _ (fun _ _ h => ?_) ?_
    | with_reducible refine keep_needSec _ _ (fun _ h => ?_) ?_
    | with_reducible refine keep_extend _ _ ?_
    | with_reducible refine keep_withToken _ _ _ _ _ (fun _ _ h => ?_) ?_
    | with_reducible refine keep_assign _ ?_
    | with_reducible refine Keeps.of1 ‹_› ?_
    | with_reducible refine Keeps.of2 ‹_› ?_
    | split
    | with_reducible refine Keeps.same ?_ rfl
    | dsimp only)

theorem keep_cipherEnd (o : CipherOp) (st : Nat) (w0 : Nat) (w1 : Nat) (w2 : Nat) {a s : State} (h : Keeps a s) : Keeps a (cipherEnd o st w0 w1 w2 s) := by
  unfold cipherEnd
  try dsimp only
  repeat' (first
    | with_reducible assumption
    | with_reducible refine keep_finish _ _ _ _ _ _ ?_
    | with_reducible refine keep_sendSig _ _ _ _ _ ?_
    | with_reducible refine Keeps.of1 ‹_› ?_
    | with_reducible refine Keeps.of2 ‹_› ?_
    | split
    | with_reducible refine Keeps.same ?_ rfl
    | dsimp only)

theorem keep_execCrypt (id : Nat) {s s' : State} (h : execCrypt id s = .next s') : Keeps s s' := by
  unfold execCrypt at h
  refine keep_run (fun s h => ?_) h
  try dsimp only
  repeat' (first
    | with_reducible assumption
    | with_reducible refine keep_readMem _ _ ?_
    | with_reducible refine keep_mayReach _ _ _ _ _ ?_
    | with_reducible refine keep_finish _ _ _ _ _ _ ?_
    | with_reducible refine keep_working _ ?_
    | with_reducible refine keep_startOp _ _ _ (fun _ _ h => ?_) ?_
    | with_reducible refine keep_failAt _ _ _ _ ?_
    | with_reducible refine keep_wakeRange _ _ ?_
    | with_reducible refine keep_needSec _ _ (fun _ h => ?_) ?_
    | with_reducible refine keep_cipherEnd _ _ _ _ _ ?_
    | with_reducible refine Keeps.of1 ‹_› ?_
    | with_reducible refine Keeps.of2 ‹_› ?_
    | split
    | with_reducible refine Keeps.same ?_ rfl
    | dsimp only)

theorem keep_cipherStop (o : CipherOp) (st : Nat) (w0 : Nat) (w1 : Nat) {a s : State} (h : Keeps a s) : Keeps a (cipherStop o st w0 w1 s) := by
  unfold cipherStop
  try dsimp only
  repeat' (first
    | with_reducible assumption
    | with_reducible refine keep_draw ?_
    | with_reducible refine keep_writeMem _ _ ?_
    | with_reducible refine keep_cipherEnd _ _ _ _ _ ?_
    | with_reducible refine Keeps.of1 ‹_› ?_
    | with_reducible refine Keeps.of2 ‹_› ?_
    | split
    | with_reducible refine Keeps.same ?_ rfl
    | dsimp only)

theorem keep_cipherRead (o : CipherOp) {a s : State} (h : Keeps a s) : Keeps a (cipherRead o s).1 := by
  unfold cipherRead
  try dsimp only
  repeat' (first
    | with_reducible assumption
    | with_reducible refine keep_readMem _ _ ?_
    | with_reducible refine Keeps.of1 ‹_› ?_
    | with_reducible refine Keeps.of2 ‹_› ?_
    | split
    | with_reducible refine Keeps.same ?_ rfl
    | dsimp only)

theorem keep_execCipherOpComplete (i : Nat) {s s' : State} (h : execCipherOpComplete i s = .next s') : Keeps s s' := by
  unfold execCipherOpComplete at h
  refine keep_run (fun s h => ?_) h
  try dsimp only
  repeat' (first
    | with_reducible assumption
    | with_reducible refine keep_writeMem _ _ ?_
    | with_reducible refine keep_cipherEnd _ _ _ _ _ ?_
    | with_reducible refine keep_cipherStop _ _ _ _ ?_
    | with_reducible refine keep_cipherRead _ ?_
    | with_reducible refine Keeps.of1 ‹_› ?_
    | with_reducible refine Keeps.of2 ‹_› ?_
    | split
    | with_reducible refine Keeps.same ?_ rfl
    | dsimp only)

theorem keep_eraseSlots (p : Nat → Bool) {a s : State} (h : Keeps a s) : Keeps a (eraseSlots p s) := by
  unfold eraseSlots
  try dsimp only
  repeat' (first
    | with_reducible assumption
    | with_reducible refine keep_saveStop _ _ _ _ ?_
    | with_reducible refine keep_restEnd _ _ _ _ _ ?_
    | with_reducible refine keep_cipherStop _ _ _ _ ?_
    | with_reducible refine Keeps.foldl (fun s x h => ?_) _ ?_
    | with_reducible refine Keeps.of1 ‹_› ?_
    | with_reducible refine Keeps.of2 ‹_› ?_
    | split
    | with_reducible refine Keeps.same ?_ rfl
    | dsimp only)

theorem keep_execKeyLoad (id : Nat) {s s' : State} (h : execKeyLoad id s = .next s') : Keeps s s' := by
  unfold execKeyLoad at h
  refine keep_run (fun s h => ?_) h
  try dsimp only
  repeat' (first
    | with_reducible assumption
    | with_reducible refine keep_count _ _ _ _ ?_
    | with_reducible refine keep_hostRead _ _ _ ?_
    | with_reducible refine keep_finish0 _ _ ?_
    | with_reducible refine keep_conflict _ _ _ _ _ ?_
    | with_reducible refine keep_failHost _ _ ?_
    | with_reducible refine keep_startOp _ _ _ (fun _ _ h => ?_) ?_
    | with_reducible refine keep_needSec _ _ (fun _ h => ?_) ?_
    | with_reducible refine Keeps.of1 ‹_› ?_
    | with_reducible refine Keeps.of2 ‹_› ?_
    | split
    | with_reducible refine Keeps.same ?_ rfl
    | dsimp only)

theorem keep_execKeyErase (id : Nat) {s s' : State} (h : execKeyErase id s = .next s') : Keeps s s' := by
  unfold execKeyErase at h
  refine keep_run (fun s h => ?_) h
  try dsimp only
  repeat' (first
    | with_reducible assumption
    | with_reducible refine keep_finish0 _ _ ?_
    | with_reducible refine keep_startOp _ _ _ (fun _ _ h => ?_) ?_
    | with_reducible refine keep_needSec _ _ (fun _ h => ?_) ?_
    | with_reducible refine keep_withToken _ _ _ _ _ (fun _ _ h => ?_) ?_
    | with_reducible refine keep_eraseSlots _ ?_
    | with_reducible refine Keeps.of1 ‹_› ?_
    | with_reducible refine Keeps.of2 ‹_› ?_
    | split
    | with_reducible refine Keeps.same ?_ rfl
    | dsimp only)

theorem keep_setFlashCounter (i : Nat) (v : Nat) {a s : State} (h : Keeps a s) : Keeps a (setFlashCounter i v s) := by
  unfold setFlashCounter
  try dsimp only
  repeat' (first
    | with_reducible assumption
    | with_reducible refine Keeps.of1 ‹_› ?_
    | with_reducible refine Keeps.of2 ‹_› ?_
    | split
    | with_reducible refine Keeps.same ?_ rfl
    | dsimp only)

theorem keep_execFwUpdate (id : Nat) {s s' : State} (h : execFwUpdate id s = .next s') : Keeps s s' := by
  unfold execFwUpdate at h
  refine keep_run (fun s h => ?_) h
  try dsimp only
  repeat' (first
    | with_reducible assumption
    | with_reducible refine keep_finish _ _ _ _ _ _ ?_
    | with_reducible refine keep_finish0 _ _ ?_
    | with_reducible refine keep_failAddr _ _ ?_
    | with_reducible refine keep_startOp _ _ _ (fun _ _ h => ?_) ?_
    | with_reducible refine keep_readPart _ _ _ ?_
    | with_reducible refine keep_needSec _ _ (fun _ h => ?_) ?_
    | with_reducible refine Keeps.of1 ‹_› ?_
    | with_reducible refine Keeps.of2 ‹_› ?_
    | split
    | with_reducible refine Keeps.same ?_ rfl
    | dsimp only)

theorem keep_raiseCounters {a s : State} (h : Keeps a s) : Keeps a (raiseCounters s) := by
  unfold raiseCounters
  try dsimp only
  repeat' (first
    | with_reducible assumption
    | with_reducible refine keep_setFlashCounter _ _ ?_
    | with_reducible refine Keeps.of1 ‹_› ?_
    | with_reducible refine Keeps.of2 ‹_› ?_
    | split
    | with_reducible refine Keeps.same ?_ rfl
    | dsimp only)

theorem keep_execAttest (id : Nat) {s s' : State} (h : execAttest id s = .next s') : Keeps s s' := by
  unfold execAttest at h
  refine keep_run (fun s h => ?_) h
  try dsimp only
  repeat' (first
    | with_reducible assumption
    | with_reducible refine keep_hostRead _ _ _ ?_
    | with_reducible refine keep_hostWrite _ _ _ ?_
    | with_reducible refine keep_finish0 _ _ ?_
    | with_reducible refine keep_failHost _ _ ?_
    | with_reducible refine keep_startOp _ _ _ (fun _ _ h => ?_) ?_
    | with_reducible refine keep_needSec _ _ (fun _ h => ?_) ?_
    | with_reducible refine Keeps.of1 ‹_› ?_
    | with_reducible refine Keeps.of2 ‹_› ?_
    | split
    | with_reducible refine Keeps.same ?_ rfl
    | dsimp only)

theorem keep_execDebugUnlock (id : Nat) {s s' : State} (h : execDebugUnlock id s = .next s') : Keeps s s' := by
  unfold execDebugUnlock at h
  refine keep_run (fun s h => ?_) h
  try dsimp only
  repeat' (first
    | with_reducible assumption
    | with_reducible refine keep_orReg _ _ _ _ ?_
    | with_reducible refine keep_finish0 _ _ ?_
    | with_reducible refine keep_startOp _ _ _ (fun _ _ h => ?_) ?_
    | with_reducible refine keep_needSec _ _ (fun _ h => ?_) ?_
    | with_reducible refine keep_extend _ _ ?_
    | with_reducible refine keep_withToken _ _ _ _ _ (fun _ _ h => ?_) ?_
    | with_reducible refine keep_eraseSlots _ ?_
    | with_reducible refine Keeps.of1 ‹_› ?_
    | with_reducible refine Keeps.of2 ‹_› ?_
    | split
    | with_reducible refine Keeps.same ?_ rfl
    | dsimp only)

theorem keep_execJtagTapAccess (idcode : Bool) {s s' : State} (h : execJtagTapAccess idcode s = .next s') : Keeps s s' := by
  unfold execJtagTapAccess at h
  refine keep_run (fun s h => ?_) h
  try dsimp only
  repeat' (first
    | with_reducible assumption
    | with_reducible refine Keeps.of1 ‹_› ?_
    | with_reducible refine Keeps.of2 ‹_› ?_
    | split
    | with_reducible refine Keeps.same ?_ rfl
    | dsimp only)

theorem keep_alarm (cause : Nat) {a s : State} (h : Keeps a s) : Keeps a (alarm cause s) := by
  unfold alarm
  try dsimp only
  repeat' (first
    | with_reducible assumption
    | with_reducible refine keep_orReg _ _ _ _ ?_
    | with_reducible refine keep_raise _ _ _ _ _ ?_
    | with_reducible refine keep_setFw _ _ ?_
    | with_reducible refine keep_holdsChanged ?_
    | with_reducible refine keep_eraseSlots _ ?_
    | with_reducible refine Keeps.of1 ‹_› ?_
    | with_reducible refine Keeps.of2 ‹_› ?_
    | split
    | with_reducible refine Keeps.same ?_ rfl
    | dsimp only)

theorem keep_execSecurityAlarm (cause : Nat) {s s' : State} (h : execSecurityAlarm cause s = .next s') : Keeps s s' := by
  unfold execSecurityAlarm at h
  split at h
  · cases h
    exact keep_onlyIf _ _ (fun _ h => keep_alarm _ h) (Keeps.refl s)
  · cases h

end Sys2Proof.Machine
end

