-- ==== Sys2Proof/Laws/KeepFirmware.lean ====
section
/-! SUPPORT. What the operations of Machine/Firmware.lean keep: soundness, the queue, the draws, the wire. -/
namespace Sys2Proof.Machine

open Sys2Proof

theorem keep_countRestart (p : Nat) {a s : State} (h : Keeps a s) : Keeps a (countRestart p s) := by
  unfold countRestart
  try dsimp only
  repeat' (first
    | with_reducible assumption
    | with_reducible refine keep_setField _ _ _ _ _ _ ?_
    | with_reducible refine Keeps.of1 ‹_› ?_
    | with_reducible refine Keeps.of2 ‹_› ?_
    | split
    | with_reducible refine Keeps.same ?_ rfl
    | dsimp only)

theorem keep_crash (p : Nat) (cause : Nat) {a s : State} (h : Keeps a s) : Keeps a (crash p cause s) := by
  unfold crash
  try dsimp only
  repeat' (first
    | with_reducible assumption
    | with_reducible refine keep_setReg _ _ _ _ ?_
    | with_reducible refine keep_orReg _ _ _ _ ?_
    | with_reducible refine keep_raise _ _ _ _ _ ?_
    | with_reducible refine keep_setFw _ _ ?_
    | with_reducible refine keep_holdsChanged ?_
    | with_reducible refine keep_limitRec _ ?_
    | with_reducible refine keep_lapseAll _ ?_
    | with_reducible refine keep_goSafe ?_
    | with_reducible refine keep_alarm _ ?_
    | with_reducible refine keep_countRestart _ ?_
    | with_reducible refine Keeps.of1 ‹_› ?_
    | with_reducible refine Keeps.of2 ‹_› ?_
    | split
    | with_reducible refine Keeps.same ?_ rfl
    | dsimp only)

theorem keep_execWatchdogExpiry (p : Watchdog) {s s' : State} (h : execWatchdogExpiry p s = .next s') : Keeps s s' := by
  unfold execWatchdogExpiry at h
  refine keep_run (fun s h => ?_) h
  try dsimp only
  repeat' (first
    | with_reducible assumption
    | with_reducible refine keep_onlyIf _ _ (fun _ h => ?_) ?_
    | with_reducible refine keep_crash _ _ ?_
    | with_reducible refine Keeps.of1 ‹_› ?_
    | with_reducible refine Keeps.of2 ‹_› ?_
    | split
    | with_reducible refine Keeps.same ?_ rfl
    | dsimp only)

theorem keep_execFwCrash (p : Nat) (cause : Nat) {s s' : State} (h : execFwCrash p cause s = .next s') : Keeps s s' := by
  unfold execFwCrash at h
  refine keep_run (fun s h => ?_) h
  try dsimp only
  repeat' (first
    | with_reducible assumption
    | with_reducible refine keep_onlyIf _ _ (fun _ h => ?_) ?_
    | with_reducible refine keep_crash _ _ ?_
    | with_reducible refine Keeps.of1 ‹_› ?_
    | with_reducible refine Keeps.of2 ‹_› ?_
    | split
    | with_reducible refine Keeps.same ?_ rfl
    | dsimp only)

theorem keep_fwRestart (p : Nat) {a s : State} (h : Keeps a s) : Keeps a (fwRestart p s) := by
  unfold fwRestart
  try dsimp only
  repeat' (first
    | with_reducible assumption
    | with_reducible refine keep_setFw _ _ ?_
    | with_reducible refine keep_holdsChanged ?_
    | with_reducible refine keep_wantPoint ?_
    | with_reducible refine Keeps.of1 ‹_› ?_
    | with_reducible refine Keeps.of2 ‹_› ?_
    | split
    | with_reducible refine Keeps.same ?_ rfl
    | dsimp only)

theorem keep_execFwRestartDone (p : FwBack) {s s' : State} (h : execFwRestartDone p s = .next s') : Keeps s s' := by
  refine keep_run (fun x h => ?_) h
  dsimp only
  split
  · split
    · split
      · next e =>
        unfold refillStore at e
        dsimp only at e
        split at e
        · cases e
          exact keep_fwRestart _ (h.same rfl)
        · cases e
      · exact h
    · exact keep_fwRestart _ h
  · exact h

theorem keep_loseLode (n : Nat) {a s : State} (h : Keeps a s) : Keeps a (loseLode n s) := by
  unfold loseLode
  try dsimp only
  repeat' (first
    | with_reducible assumption
    | with_reducible refine keep_count _ _ _ _ ?_
    | with_reducible refine keep_setLode _ _ ?_
    | with_reducible refine keep_setCore _ _ ?_
    | with_reducible refine keep_setEngine _ _ ?_
    | with_reducible refine keep_finish0 _ _ ?_
    | with_reducible refine keep_withdraw _ _ ?_
    | with_reducible refine keep_dropQueued _ ?_
    | with_reducible refine keep_stopChain _ _ _ _ ?_
    | with_reducible refine keep_settleChain _ ?_
    | with_reducible refine keep_freeCores _ ?_
    | with_reducible refine keep_reoffer ?_
    | with_reducible refine Keeps.foldl (fun s x h => ?_) _ ?_
    | with_reducible refine Keeps.of1 ‹_› ?_
    | with_reducible refine Keeps.of2 ‹_› ?_
    | split
    | with_reducible refine Keeps.same ?_ rfl
    | dsimp only)

theorem keep_execControlCoreNotRecovered (n : Nat) {s s' : State} (h : execControlCoreNotRecovered n s = .next s') : Keeps s s' := by
  unfold execControlCoreNotRecovered at h
  refine keep_run (fun s h => ?_) h
  try dsimp only
  repeat' (first
    | with_reducible assumption
    | with_reducible refine keep_setGrp _ _ ?_
    | with_reducible refine keep_setFw _ _ ?_
    | with_reducible refine keep_finish0 _ _ ?_
    | with_reducible refine keep_freeGroup _ ?_
    | with_reducible refine keep_loseLode _ ?_
    | with_reducible refine Keeps.foldl (fun s x h => ?_) _ ?_
    | with_reducible refine Keeps.of1 ‹_› ?_
    | with_reducible refine Keeps.of2 ‹_› ?_
    | split
    | with_reducible refine Keeps.same ?_ rfl
    | dsimp only)

end Sys2Proof.Machine
end

