-- ==== Sys2Proof/Laws/KeepFt.lean ====
section
/-! SUPPORT. What the operations of Machine/Ft.lean keep: soundness, the queue, the draws, the wire. -/
namespace Sys2Proof.Machine

open Sys2Proof

theorem keep_ftTakeEntry (i : Nat) (r : FtRing) (e : Bytes) {a s : State} (h : Keeps a s) : Keeps a (ftTakeEntry i r e s) := by
  unfold ftTakeEntry
  try dsimp only
  repeat' (first
    | with_reducible assumption
    | with_reducible refine keep_orReg _ _ _ _ ?_
    | with_reducible refine keep_addrDenied _ ?_
    | with_reducible refine keep_refuse _ _ _ ?_
    | with_reducible refine keep_varCount _ _ ?_
    | with_reducible refine keep_varRefuse _ ?_
    | with_reducible refine keep_ftStart _ ?_
    | with_reducible refine keep_ftRingEnd _ _ _ _ _ _ _ ?_
    | with_reducible refine Keeps.of1 ‹_› ?_
    | with_reducible refine Keeps.of2 ‹_› ?_
    | split
    | with_reducible refine Keeps.same ?_ rfl
    | dsimp only)

theorem keep_ftTake (op : Nat) {a s : State} (h : Keeps a s) : Keeps a (ftTake op s) := by
  unfold ftTake
  try dsimp only
  repeat' (first
    | with_reducible assumption
    | with_reducible refine keep_readMem _ _ ?_
    | with_reducible refine keep_refuse _ _ _ ?_
    | with_reducible refine keep_wakeSpan _ _ ?_
    | with_reducible refine keep_setFtRing _ _ ?_
    | with_reducible refine keep_ftRingEnd _ _ _ _ _ _ _ ?_
    | with_reducible refine keep_ftTakeEntry _ _ _ ?_
    | with_reducible refine Keeps.of1 ‹_› ?_
    | with_reducible refine Keeps.of2 ‹_› ?_
    | split
    | with_reducible refine Keeps.same ?_ rfl
    | dsimp only)

theorem keep_execFtWrite  {s s' : State} (h : execFtWrite s = .next s') : Keeps s s' := by
  unfold execFtWrite at h
  refine keep_run (fun s h => ?_) h
  try dsimp only
  repeat' (first
    | with_reducible assumption
    | with_reducible refine keep_ftTake _ ?_
    | with_reducible refine Keeps.of1 ‹_› ?_
    | with_reducible refine Keeps.of2 ‹_› ?_
    | split
    | with_reducible refine Keeps.same ?_ rfl
    | dsimp only)

theorem keep_execFtRead  {s s' : State} (h : execFtRead s = .next s') : Keeps s s' := by
  unfold execFtRead at h
  refine keep_run (fun s h => ?_) h
  try dsimp only
  repeat' (first
    | with_reducible assumption
    | with_reducible refine keep_ftTake _ ?_
    | with_reducible refine Keeps.of1 ‹_› ?_
    | with_reducible refine Keeps.of2 ‹_› ?_
    | split
    | with_reducible refine Keeps.same ?_ rfl
    | dsimp only)

theorem keep_execFtSend  {s s' : State} (h : execFtSend s = .next s') : Keeps s s' := by
  unfold execFtSend at h
  refine keep_run (fun s h => ?_) h
  try dsimp only
  repeat' (first
    | with_reducible assumption
    | with_reducible refine keep_ftTake _ ?_
    | with_reducible refine Keeps.of1 ‹_› ?_
    | with_reducible refine Keeps.of2 ‹_› ?_
    | split
    | with_reducible refine Keeps.same ?_ rfl
    | dsimp only)

theorem keep_execFtAtomic  {s s' : State} (h : execFtAtomic s = .next s') : Keeps s s' := by
  unfold execFtAtomic at h
  refine keep_run (fun s h => ?_) h
  try dsimp only
  repeat' (first
    | with_reducible assumption
    | with_reducible refine keep_ftTake _ ?_
    | with_reducible refine Keeps.of1 ‹_› ?_
    | with_reducible refine Keeps.of2 ‹_› ?_
    | split
    | with_reducible refine Keeps.same ?_ rfl
    | dsimp only)

theorem keep_execFtSignal  {s s' : State} (h : execFtSignal s = .next s') : Keeps s s' := by
  unfold execFtSignal at h
  refine keep_run (fun s h => ?_) h
  try dsimp only
  repeat' (first
    | with_reducible assumption
    | with_reducible refine keep_ftTake _ ?_
    | with_reducible refine Keeps.of1 ‹_› ?_
    | with_reducible refine Keeps.of2 ‹_› ?_
    | split
    | with_reducible refine Keeps.same ?_ rfl
    | dsimp only)

theorem keep_pktOf (idx : Nat) (m : FtMsg) (i : Nat) (want : List Nat) {a s : State} (h : Keeps a s) : Keeps a (pktOf s idx m i want).1 := by
  unfold pktOf
  try dsimp only
  repeat' (first
    | with_reducible assumption
    | with_reducible refine keep_readMem _ _ ?_
    | with_reducible refine Keeps.of1 ‹_› ?_
    | with_reducible refine Keeps.of2 ‹_› ?_
    | split
    | with_reducible refine Keeps.same ?_ rfl
    | dsimp only)

theorem keep_ftLaunch (m : Nat) (x : FtMsg) (p : Nat) (want : List Nat) (h' : FtHdr) (b : Bytes) {a s : State} (h : Keeps a s) : Keeps a (ftLaunch m x p want h' b s) := by
  unfold ftLaunch
  try dsimp only
  repeat' (first
    | with_reducible assumption
    | with_reducible refine keep_count _ _ _ _ ?_
    | with_reducible refine keep_countTv _ _ ?_
    | with_reducible refine keep_setFtMsg _ _ ?_
    | with_reducible refine keep_setBkt _ _ ?_
    | with_reducible refine keep_ftOut _ _ _ _ _ ?_
    | with_reducible refine Keeps.foldl (fun s x h => ?_) _ ?_
    | with_reducible refine Keeps.of1 ‹_› ?_
    | with_reducible refine Keeps.of2 ‹_› ?_
    | split
    | with_reducible refine Keeps.same ?_ rfl
    | dsimp only)

theorem keep_execFtPacketSend (m : Nat) {s s' : State} (h : execFtPacketSend m s = .next s') : Keeps s s' := by
  unfold execFtPacketSend at h
  refine keep_run (fun s h => ?_) h
  try dsimp only
  repeat' (first
    | with_reducible assumption
    | with_reducible refine keep_onlyIf _ _ (fun _ h => ?_) ?_
    | with_reducible refine keep_wakeSpan _ _ ?_
    | with_reducible refine keep_ftAbort _ _ _ ?_
    | with_reducible refine keep_workGo ?_
    | with_reducible refine keep_pktOf _ _ _ _ ?_
    | with_reducible refine keep_ftLaunch _ _ _ _ _ _ ?_
    | with_reducible refine Keeps.of1 ‹_› ?_
    | with_reducible refine Keeps.of2 ‹_› ?_
    | split
    | with_reducible refine Keeps.same ?_ rfl
    | dsimp only)

theorem keep_execFtRtoExpiry (m : Nat) (pkt : Nat) {s s' : State} (h : execFtRtoExpiry m pkt s = .next s') : Keeps s s' := by
  unfold execFtRtoExpiry at h
  refine keep_run (fun s h => ?_) h
  try dsimp only
  repeat' (first
    | with_reducible assumption
    | with_reducible refine keep_setFtMsg _ _ ?_
    | with_reducible refine keep_cutRate _ _ ?_
    | with_reducible refine Keeps.of1 ‹_› ?_
    | with_reducible refine Keeps.of2 ‹_› ?_
    | split
    | with_reducible refine Keeps.same ?_ rfl
    | dsimp only)

theorem keep_execFtRetryLimit (m : Nat) {s s' : State} (h : execFtRetryLimit m s = .next s') : Keeps s s' := by
  unfold execFtRetryLimit at h
  refine keep_run (fun s h => ?_) h
  try dsimp only
  repeat' (first
    | with_reducible assumption
    | with_reducible refine keep_orReg _ _ _ _ ?_
    | with_reducible refine keep_raise _ _ _ _ _ ?_
    | with_reducible refine keep_remoteLost _ ?_
    | with_reducible refine keep_ftAbort _ _ _ ?_
    | with_reducible refine keep_workGo ?_
    | with_reducible refine Keeps.of1 ‹_› ?_
    | with_reducible refine Keeps.of2 ‹_› ?_
    | split
    | with_reducible refine Keeps.same ?_ rfl
    | dsimp only)

theorem keep_execFtRateIncrease (b : Nat) {s s' : State} (h : execFtRateIncrease b s = .next s') : Keeps s s' := by
  unfold execFtRateIncrease at h
  refine keep_run (fun s h => ?_) h
  try dsimp only
  repeat' (first
    | with_reducible assumption
    | with_reducible refine keep_setBkt _ _ ?_
    | with_reducible refine Keeps.of1 ‹_› ?_
    | with_reducible refine Keeps.of2 ‹_› ?_
    | split
    | with_reducible refine Keeps.same ?_ rfl
    | dsimp only)

theorem keep_execFtBucketIdle (b : Nat) {s s' : State} (h : execFtBucketIdle b s = .next s') : Keeps s s' := by
  unfold execFtBucketIdle at h
  refine keep_run (fun s h => ?_) h
  try dsimp only
  repeat' (first
    | with_reducible assumption
    | with_reducible refine keep_setBkt _ _ ?_
    | with_reducible refine Keeps.of1 ‹_› ?_
    | with_reducible refine Keeps.of2 ‹_› ?_
    | split
    | with_reducible refine Keeps.same ?_ rfl
    | dsimp only)

theorem keep_ftRx (op : Nat) (f : Bytes → FtHdr → Nat → State → State) {a s : State} (hf : ∀ (x0 : Bytes) (x1 : FtHdr) (x2 : Nat) (x3 : State), Keeps a x3 → Keeps a (f x0 x1 x2 x3)) (h : Keeps a s) : Keeps a (ftRx op f s) := by
  unfold ftRx
  try dsimp only
  repeat' (first
    | with_reducible assumption
    | with_reducible refine keep_count _ _ _ _ ?_
    | with_reducible refine keep_sticky _ _ _ _ _ ?_
    | with_reducible refine keep_wakeSpan _ _ ?_
    | with_reducible refine keep_ftDiscard ?_
    | with_reducible refine hf _ _ _ _ ?_
    | with_reducible refine Keeps.of1 ‹_› ?_
    | with_reducible refine Keeps.of2 ‹_› ?_
    | split
    | with_reducible refine Keeps.same ?_ rfl
    | dsimp only)

theorem keep_ftDone (src : Nat) (msg : Nat) {a s : State} (h : Keeps a s) : Keeps a (ftDone src msg s) := by
  unfold ftDone
  try dsimp only
  repeat' (first
    | with_reducible assumption
    | with_reducible refine keep_sendSig _ _ _ _ _ ?_
    | with_reducible refine keep_varCount _ _ ?_
    | with_reducible refine keep_ftPut _ _ _ ?_
    | with_reducible refine keep_modRx _ _ _ ?_
    | with_reducible refine keep_ftRelease _ ?_
    | with_reducible refine keep_ftAck _ _ ?_
    | with_reducible refine Keeps.of1 ‹_› ?_
    | with_reducible refine Keeps.of2 ‹_› ?_
    | split
    | with_reducible refine Keeps.same ?_ rfl
    | dsimp only)

theorem keep_ftGo (h' : FtHdr) (path : Nat) (place : FtRx → State → State) (e : FtRx) {a s : State} (hplace : ∀ (x0 : FtRx) (x1 : State), Keeps a x1 → Keeps a (place x0 x1)) (h : Keeps a s) : Keeps a (ftGo h' path place e s) := by
  unfold ftGo
  try dsimp only
  repeat' (first
    | with_reducible assumption
    | with_reducible refine keep_modRx _ _ _ ?_
    | with_reducible refine keep_ftAck _ _ ?_
    | with_reducible refine keep_ftDiscard ?_
    | with_reducible refine hplace _ _ ?_
    | with_reducible refine Keeps.of1 ‹_› ?_
    | with_reducible refine Keeps.of2 ‹_› ?_
    | split
    | with_reducible refine Keeps.same ?_ rfl
    | dsimp only)

theorem keep_ftMark (h' : FtHdr) {a s : State} (h : Keeps a s) : Keeps a (ftMark h' s) := by
  unfold ftMark
  try dsimp only
  repeat' (first
    | with_reducible assumption
    | with_reducible refine keep_modRx _ _ _ ?_
    | with_reducible refine Keeps.of1 ‹_› ?_
    | with_reducible refine Keeps.of2 ‹_› ?_
    | split
    | with_reducible refine Keeps.same ?_ rfl
    | dsimp only)

theorem keep_ftAdd (e : FtRx) {a s : State} (h : Keeps a s) : Keeps a (ftAdd e s) := by
  unfold ftAdd
  try dsimp only
  repeat' (first
    | with_reducible assumption
    | with_reducible refine keep_setRegion _ _ ?_
    | with_reducible refine Keeps.of1 ‹_› ?_
    | with_reducible refine Keeps.of2 ‹_› ?_
    | split
    | with_reducible refine Keeps.same ?_ rfl
    | dsimp only)

theorem keep_ftMessage (h' : FtHdr) (path : Nat) (admitIn : State → State × Except Nat FtRx) (place : FtRx → State → State) {a s : State} (hadmitIn : ∀ (x0 : State), Keeps a x0 → Keeps a (admitIn x0).1) (hplace : ∀ (x0 : FtRx) (x1 : State), Keeps a x1 → Keeps a (place x0 x1)) (h : Keeps a s) : Keeps a (ftMessage h' path admitIn place s) := by
  unfold ftMessage
  try dsimp only
  repeat' (first
    | with_reducible assumption
    | with_reducible refine keep_admitIn _ _ ?_
    | with_reducible refine keep_sticky _ _ _ _ _ ?_
    | with_reducible refine keep_modRx _ _ _ ?_
    | with_reducible refine keep_ftAnswer _ _ _ _ _ ?_
    | with_reducible refine keep_ftAck _ _ ?_
    | with_reducible refine keep_ftNak _ _ _ ?_
    | with_reducible refine keep_ftGo _ _ _ _ (fun _ _ h => ?_) ?_
    | with_reducible refine keep_ftMark _ ?_
    | with_reducible refine keep_ftAdd _ ?_
    | with_reducible refine hadmitIn _ ?_
    | with_reducible refine hplace _ _ ?_
    | with_reducible refine Keeps.of1 ‹_› ?_
    | with_reducible refine Keeps.of2 ‹_› ?_
    | split
    | with_reducible refine Keeps.same ?_ rfl
    | dsimp only)

theorem keep_ftHold (h' : FtHdr) {a s : State} (h : Keeps a s) : Keeps a (ftHold h' s) := by
  unfold ftHold
  try dsimp only
  repeat' (first
    | with_reducible assumption
    | with_reducible refine keep_count _ _ _ _ ?_
    | with_reducible refine keep_modRx _ _ _ ?_
    | with_reducible refine keep_ftAck _ _ ?_
    | with_reducible refine keep_ftDone _ _ ?_
    | with_reducible refine Keeps.of1 ‹_› ?_
    | with_reducible refine Keeps.of2 ‹_› ?_
    | split
    | with_reducible refine Keeps.same ?_ rfl
    | dsimp only)

theorem keep_ftAdmitWrite (h' : FtHdr) (path : Nat) {a s : State} (h : Keeps a s) : Keeps a (ftAdmitWrite h' path s).1 := by
  unfold ftAdmitWrite
  try dsimp only
  repeat' (first
    | with_reducible assumption
    | with_reducible refine Keeps.of1 ‹_› ?_
    | with_reducible refine Keeps.of2 ‹_› ?_
    | split
    | with_reducible refine Keeps.same ?_ rfl
    | dsimp only)

theorem keep_execFtRxWrite  {s s' : State} (h : execFtRxWrite s = .next s') : Keeps s s' := by
  unfold execFtRxWrite at h
  refine keep_run (fun s h => ?_) h
  try dsimp only
  repeat' (first
    | with_reducible assumption
    | with_reducible refine keep_writeMem _ _ ?_
    | with_reducible refine keep_ftNak _ _ _ ?_
    | with_reducible refine keep_moveLanded _ _ _ ?_
    | with_reducible refine keep_workGo ?_
    | with_reducible refine keep_ftRx _ _ (fun _ _ _ _ h => ?_) ?_
    | with_reducible refine keep_ftMessage _ _ _ _ (fun _ h => ?_) (fun _ _ h => ?_) ?_
    | with_reducible refine keep_ftHold _ ?_
    | with_reducible refine keep_ftAdmitWrite _ _ ?_
    | with_reducible refine Keeps.of1 ‹_› ?_
    | with_reducible refine Keeps.of2 ‹_› ?_
    | split
    | with_reducible refine Keeps.same ?_ rfl
    | dsimp only)

theorem keep_ftAdmitSlot (h' : FtHdr) (path : Nat) (r : FtRq) (d : Option Nat) {a s : State} (h : Keeps a s) : Keeps a (ftAdmitSlot h' path r d s).1 := by
  unfold ftAdmitSlot
  try dsimp only
  repeat' (first
    | with_reducible assumption
    | with_reducible refine keep_refuse _ _ _ ?_
    | with_reducible refine keep_setFtRq _ _ ?_
    | with_reducible refine Keeps.of1 ‹_› ?_
    | with_reducible refine Keeps.of2 ‹_› ?_
    | split
    | with_reducible refine Keeps.same ?_ rfl
    | dsimp only)

theorem keep_ftAdmitSend (h' : FtHdr) (path : Nat) {a s : State} (h : Keeps a s) : Keeps a (ftAdmitSend h' path s).1 := by
  unfold ftAdmitSend
  try dsimp only
  repeat' (first
    | with_reducible assumption
    | with_reducible refine keep_readMem _ _ ?_
    | with_reducible refine keep_refuse _ _ _ ?_
    | with_reducible refine keep_setFtRq _ _ ?_
    | with_reducible refine keep_ftAdmitSlot _ _ _ _ ?_
    | with_reducible refine Keeps.of1 ‹_› ?_
    | with_reducible refine Keeps.of2 ‹_› ?_
    | split
    | with_reducible refine Keeps.same ?_ rfl
    | dsimp only)

theorem keep_execFtRxSend  {s s' : State} (h : execFtRxSend s = .next s') : Keeps s s' := by
  unfold execFtRxSend at h
  refine keep_run (fun s h => ?_) h
  try dsimp only
  repeat' (first
    | with_reducible assumption
    | with_reducible refine keep_writeMem _ _ ?_
    | with_reducible refine keep_ftNak _ _ _ ?_
    | with_reducible refine keep_ftRx _ _ (fun _ _ _ _ h => ?_) ?_
    | with_reducible refine keep_ftMessage _ _ _ _ (fun _ h => ?_) (fun _ _ h => ?_) ?_
    | with_reducible refine keep_ftHold _ ?_
    | with_reducible refine keep_ftAdmitSend _ _ ?_
    | with_reducible refine Keeps.of1 ‹_› ?_
    | with_reducible refine Keeps.of2 ‹_› ?_
    | split
    | with_reducible refine Keeps.same ?_ rfl
    | dsimp only)

theorem keep_ftAdmitAtomic (aop : Nat) (h' : FtHdr) (path : Nat) {a s : State} (h : Keeps a s) : Keeps a (ftAdmitAtomic aop h' path s).1 := by
  unfold ftAdmitAtomic
  try dsimp only
  repeat' (first
    | with_reducible assumption
    | with_reducible refine Keeps.of1 ‹_› ?_
    | with_reducible refine Keeps.of2 ‹_› ?_
    | split
    | with_reducible refine Keeps.same ?_ rfl
    | dsimp only)

theorem keep_execFtRxAtomic  {s s' : State} (h : execFtRxAtomic s = .next s') : Keeps s s' := by
  unfold execFtRxAtomic at h
  refine keep_run (fun s h => ?_) h
  try dsimp only
  repeat' (first
    | with_reducible assumption
    | with_reducible refine keep_readMem _ _ ?_
    | with_reducible refine keep_writeMem _ _ ?_
    | with_reducible refine keep_modRx _ _ _ ?_
    | with_reducible refine keep_ftAnswer _ _ _ _ _ ?_
    | with_reducible refine keep_ftNak _ _ _ ?_
    | with_reducible refine keep_ftRx _ _ (fun _ _ _ _ h => ?_) ?_
    | with_reducible refine keep_ftMessage _ _ _ _ (fun _ h => ?_) (fun _ _ h => ?_) ?_
    | with_reducible refine keep_ftHold _ ?_
    | with_reducible refine keep_ftAdmitAtomic _ _ _ ?_
    | with_reducible refine Keeps.of1 ‹_› ?_
    | with_reducible refine Keeps.of2 ‹_› ?_
    | split
    | with_reducible refine Keeps.same ?_ rfl
    | dsimp only)

theorem keep_ftAdmitSignal (h' : FtHdr) (path : Nat) {a s : State} (h : Keeps a s) : Keeps a (ftAdmitSignal h' path s).1 := by
  unfold ftAdmitSignal
  try dsimp only
  repeat' (first
    | with_reducible assumption
    | with_reducible refine keep_remoteApply _ _ _ _ _ ?_
    | with_reducible refine Keeps.of1 ‹_› ?_
    | with_reducible refine Keeps.of2 ‹_› ?_
    | split
    | with_reducible refine Keeps.same ?_ rfl
    | dsimp only)

theorem keep_execFtRxSignal  {s s' : State} (h : execFtRxSignal s = .next s') : Keeps s s' := by
  unfold execFtRxSignal at h
  refine keep_run (fun s h => ?_) h
  try dsimp only
  repeat' (first
    | with_reducible assumption
    | with_reducible refine keep_remoteApply _ _ _ _ _ ?_
    | with_reducible refine keep_ftRx _ _ (fun _ _ _ _ h => ?_) ?_
    | with_reducible refine keep_ftMessage _ _ _ _ (fun _ h => ?_) (fun _ _ h => ?_) ?_
    | with_reducible refine keep_ftHold _ ?_
    | with_reducible refine keep_ftAdmitSignal _ _ ?_
    | with_reducible refine Keeps.of1 ‹_› ?_
    | with_reducible refine Keeps.of2 ‹_› ?_
    | split
    | with_reducible refine Keeps.same ?_ rfl
    | dsimp only)

theorem keep_ftReadPkt (path : Nat) (h' : FtHdr) (i : Nat) {a s : State} (h : Keeps a s) : Keeps a (ftReadPkt path h' i s) := by
  unfold ftReadPkt
  try dsimp only
  repeat' (first
    | with_reducible assumption
    | with_reducible refine keep_readMem _ _ ?_
    | with_reducible refine keep_ftReply _ _ _ ?_
    | with_reducible refine keep_ftNak _ _ _ ?_
    | with_reducible refine Keeps.of1 ‹_› ?_
    | with_reducible refine Keeps.of2 ‹_› ?_
    | split
    | with_reducible refine Keeps.same ?_ rfl
    | dsimp only)

theorem keep_execFtRxRead  {s s' : State} (h : execFtRxRead s = .next s') : Keeps s s' := by
  unfold execFtRxRead at h
  refine keep_run (fun s h => ?_) h
  try dsimp only
  repeat' (first
    | with_reducible assumption
    | with_reducible refine keep_ftNak _ _ _ ?_
    | with_reducible refine keep_ftRx _ _ (fun _ _ _ _ h => ?_) ?_
    | with_reducible refine keep_ftReadPkt _ _ _ ?_
    | with_reducible refine Keeps.foldl (fun s x h => ?_) _ ?_
    | with_reducible refine Keeps.of1 ‹_› ?_
    | with_reducible refine Keeps.of2 ‹_› ?_
    | split
    | with_reducible refine Keeps.same ?_ rfl
    | dsimp only)

theorem keep_execFtRxReadResp  {s s' : State} (h : execFtRxReadResp s = .next s') : Keeps s s' := by
  unfold execFtRxReadResp at h
  refine keep_run (fun s h => ?_) h
  try dsimp only
  repeat' (first
    | with_reducible assumption
    | with_reducible refine keep_writeMem _ _ ?_
    | with_reducible refine keep_setFtMsg _ _ ?_
    | with_reducible refine keep_ftEndMsg _ _ _ ?_
    | with_reducible refine keep_ftAbort _ _ _ ?_
    | with_reducible refine keep_ftDiscard ?_
    | with_reducible refine keep_workGo ?_
    | with_reducible refine keep_ftRx _ _ (fun _ _ _ _ h => ?_) ?_
    | with_reducible refine Keeps.of1 ‹_› ?_
    | with_reducible refine Keeps.of2 ‹_› ?_
    | split
    | with_reducible refine Keeps.same ?_ rfl
    | dsimp only)

theorem keep_execFtRxAtomicResp  {s s' : State} (h : execFtRxAtomicResp s = .next s') : Keeps s s' := by
  unfold execFtRxAtomicResp at h
  refine keep_run (fun s h => ?_) h
  try dsimp only
  repeat' (first
    | with_reducible assumption
    | with_reducible refine keep_writeMem _ _ ?_
    | with_reducible refine keep_ftEndMsg _ _ _ ?_
    | with_reducible refine keep_ftClose _ _ _ ?_
    | with_reducible refine keep_workGo ?_
    | with_reducible refine keep_ftRx _ _ (fun _ _ _ _ h => ?_) ?_
    | with_reducible refine Keeps.of1 ‹_› ?_
    | with_reducible refine Keeps.of2 ‹_› ?_
    | split
    | with_reducible refine Keeps.same ?_ rfl
    | dsimp only)

theorem keep_ftCuts (m : FtMsg) (mask : Nat) {a s : State} (h : Keeps a s) : Keeps a (ftCuts m mask s) := by
  unfold ftCuts
  try dsimp only
  repeat' (first
    | with_reducible assumption
    | with_reducible refine keep_setBkt _ _ ?_
    | with_reducible refine keep_cutRate _ _ ?_
    | with_reducible refine Keeps.foldl (fun s x h => ?_) _ ?_
    | with_reducible refine Keeps.of1 ‹_› ?_
    | with_reducible refine Keeps.of2 ‹_› ?_
    | split
    | with_reducible refine Keeps.same ?_ rfl
    | dsimp only)

theorem keep_execFtRxAck  {s s' : State} (h : execFtRxAck s = .next s') : Keeps s s' := by
  unfold execFtRxAck at h
  refine keep_run (fun s h => ?_) h
  try dsimp only
  repeat' (first
    | with_reducible assumption
    | with_reducible refine keep_setFtMsg _ _ ?_
    | with_reducible refine keep_ftEndMsg _ _ _ ?_
    | with_reducible refine keep_ftClose _ _ _ ?_
    | with_reducible refine keep_workGo ?_
    | with_reducible refine keep_ftRx _ _ (fun _ _ _ _ h => ?_) ?_
    | with_reducible refine keep_ftCuts _ _ ?_
    | with_reducible refine Keeps.of1 ‹_› ?_
    | with_reducible refine Keeps.of2 ‹_› ?_
    | split
    | with_reducible refine Keeps.same ?_ rfl
    | dsimp only)

theorem keep_execFtRxNak  {s s' : State} (h : execFtRxNak s = .next s') : Keeps s s' := by
  unfold execFtRxNak at h
  refine keep_run (fun s h => ?_) h
  try dsimp only
  repeat' (first
    | with_reducible assumption
    | with_reducible refine keep_count _ _ _ _ ?_
    | with_reducible refine keep_setFtMsg _ _ ?_
    | with_reducible refine keep_ftAbort _ _ _ ?_
    | with_reducible refine keep_ftDiscard ?_
    | with_reducible refine keep_workGo ?_
    | with_reducible refine keep_ftRx _ _ (fun _ _ _ _ h => ?_) ?_
    | with_reducible refine Keeps.of1 ‹_› ?_
    | with_reducible refine Keeps.of2 ‹_› ?_
    | split
    | with_reducible refine Keeps.same ?_ rfl
    | dsimp only)

theorem keep_execFtRxClose  {s s' : State} (h : execFtRxClose s = .next s') : Keeps s s' := by
  unfold execFtRxClose at h
  refine keep_run (fun s h => ?_) h
  try dsimp only
  repeat' (first
    | with_reducible assumption
    | with_reducible refine keep_modRx _ _ _ ?_
    | with_reducible refine keep_ftRelease _ ?_
    | with_reducible refine keep_ftNak _ _ _ ?_
    | with_reducible refine keep_ftRx _ _ (fun _ _ _ _ h => ?_) ?_
    | with_reducible refine Keeps.of1 ‹_› ?_
    | with_reducible refine Keeps.of2 ‹_› ?_
    | split
    | with_reducible refine Keeps.same ?_ rfl
    | dsimp only)

theorem keep_execFtAckTimer (src : Nat) (msg : Nat) {s s' : State} (h : execFtAckTimer src msg s = .next s') : Keeps s s' := by
  unfold execFtAckTimer at h
  refine keep_run (fun s h => ?_) h
  try dsimp only
  repeat' (first
    | with_reducible assumption
    | with_reducible refine keep_count _ _ _ _ ?_
    | with_reducible refine keep_ftAck _ _ ?_
    | with_reducible refine Keeps.of1 ‹_› ?_
    | with_reducible refine Keeps.of2 ‹_› ?_
    | split
    | with_reducible refine Keeps.same ?_ rfl
    | dsimp only)

theorem keep_execFtEntryIdleAbort (src : Nat) (msg : Nat) {s s' : State} (h : execFtEntryIdleAbort src msg s = .next s') : Keeps s s' := by
  unfold execFtEntryIdleAbort at h
  refine keep_run (fun s h => ?_) h
  try dsimp only
  repeat' (first
    | with_reducible assumption
    | with_reducible refine keep_sticky _ _ _ _ _ ?_
    | with_reducible refine keep_modRx _ _ _ ?_
    | with_reducible refine keep_ftRelease _ ?_
    | with_reducible refine Keeps.of1 ‹_› ?_
    | with_reducible refine Keeps.of2 ‹_› ?_
    | split
    | with_reducible refine Keeps.same ?_ rfl
    | dsimp only)

theorem keep_execFtEntryLinger (src : Nat) (msg : Nat) {s s' : State} (h : execFtEntryLinger src msg s = .next s') : Keeps s s' := by
  unfold execFtEntryLinger at h
  refine keep_run (fun s h => ?_) h
  try dsimp only
  repeat' (first
    | with_reducible assumption
    | with_reducible refine keep_delRx _ _ ?_
    | with_reducible refine Keeps.of1 ‹_› ?_
    | with_reducible refine Keeps.of2 ‹_› ?_
    | split
    | with_reducible refine Keeps.same ?_ rfl
    | dsimp only)

theorem keep_execFtCloseAgeExpiry (src : Nat) (msg : Nat) {s s' : State} (h : execFtCloseAgeExpiry src msg s = .next s') : Keeps s s' := by
  unfold execFtCloseAgeExpiry at h
  refine keep_run (fun s h => ?_) h
  try dsimp only
  repeat' (first
    | with_reducible assumption
    | with_reducible refine keep_delRx _ _ ?_
    | with_reducible refine Keeps.of1 ‹_› ?_
    | with_reducible refine Keeps.of2 ‹_› ?_
    | split
    | with_reducible refine Keeps.same ?_ rfl
    | dsimp only)

theorem keep_execFtRingCreate (id : Nat) {s s' : State} (h : execFtRingCreate id s = .next s') : Keeps s s' := by
  unfold execFtRingCreate at h
  refine keep_run (fun s h => ?_) h
  try dsimp only
  repeat' (first
    | with_reducible assumption
    | with_reducible refine keep_finish0 _ _ ?_
    | with_reducible refine keep_startOp _ _ _ (fun _ _ h => ?_) ?_
    | with_reducible refine keep_need6 _ _ _ _ _ _ (fun _ h => ?_) ?_
    | with_reducible refine keep_failAt _ _ _ _ ?_
    | with_reducible refine keep_sendWait _ _ ?_
    | with_reducible refine keep_setFtRing _ _ ?_
    | with_reducible refine Keeps.of1 ‹_› ?_
    | with_reducible refine Keeps.of2 ‹_› ?_
    | split
    | with_reducible refine Keeps.same ?_ rfl
    | dsimp only)

theorem keep_execFtRingDelete (id : Nat) {s s' : State} (h : execFtRingDelete id s = .next s') : Keeps s s' := by
  unfold execFtRingDelete at h
  refine keep_run (fun s h => ?_) h
  try dsimp only
  repeat' (first
    | with_reducible assumption
    | with_reducible refine keep_finish0 _ _ ?_
    | with_reducible refine keep_startOp _ _ _ (fun _ _ h => ?_) ?_
    | with_reducible refine keep_need6 _ _ _ _ _ _ (fun _ h => ?_) ?_
    | with_reducible refine keep_withdraw _ _ ?_
    | with_reducible refine keep_setFtRing _ _ ?_
    | with_reducible refine Keeps.of1 ‹_› ?_
    | with_reducible refine Keeps.of2 ‹_› ?_
    | split
    | with_reducible refine Keeps.same ?_ rfl
    | dsimp only)

theorem keep_execFtRqBind (id : Nat) {s s' : State} (h : execFtRqBind id s = .next s') : Keeps s s' := by
  unfold execFtRqBind at h
  refine keep_run (fun s h => ?_) h
  try dsimp only
  repeat' (first
    | with_reducible assumption
    | with_reducible refine keep_finish0 _ _ ?_
    | with_reducible refine keep_startOp _ _ _ (fun _ _ h => ?_) ?_
    | with_reducible refine keep_need6 _ _ _ _ _ _ (fun _ h => ?_) ?_
    | with_reducible refine keep_varRefuse _ ?_
    | with_reducible refine keep_setFtRq _ _ ?_
    | with_reducible refine Keeps.of1 ‹_› ?_
    | with_reducible refine Keeps.of2 ‹_› ?_
    | split
    | with_reducible refine Keeps.same ?_ rfl
    | dsimp only)

theorem keep_execFtRqUnbind (id : Nat) {s s' : State} (h : execFtRqUnbind id s = .next s') : Keeps s s' := by
  unfold execFtRqUnbind at h
  refine keep_run (fun s h => ?_) h
  try dsimp only
  repeat' (first
    | with_reducible assumption
    | with_reducible refine keep_finish0 _ _ ?_
    | with_reducible refine keep_startOp _ _ _ (fun _ _ h => ?_) ?_
    | with_reducible refine keep_need6 _ _ _ _ _ _ (fun _ h => ?_) ?_
    | with_reducible refine keep_setFtRq _ _ ?_
    | with_reducible refine Keeps.of1 ‹_› ?_
    | with_reducible refine Keeps.of2 ‹_› ?_
    | split
    | with_reducible refine Keeps.same ?_ rfl
    | dsimp only)

theorem keep_ftTenantReset (t : Nat) {a s : State} (h : Keeps a s) : Keeps a (ftTenantReset t s) := by
  unfold ftTenantReset
  try dsimp only
  repeat' (first
    | with_reducible assumption
    | with_reducible refine keep_withdraw _ _ ?_
    | with_reducible refine keep_setFtMsg _ _ ?_
    | with_reducible refine keep_ftClose _ _ _ ?_
    | with_reducible refine keep_ftRelease _ ?_
    | with_reducible refine Keeps.foldl (fun s x h => ?_) _ ?_
    | with_reducible refine Keeps.of1 ‹_› ?_
    | with_reducible refine Keeps.of2 ‹_› ?_
    | split
    | with_reducible refine Keeps.same ?_ rfl
    | dsimp only)

end Sys2Proof.Machine
end

