-- ==== Sys2Proof/Laws/KeepSync.lean ====
section
/-! SUPPORT. What the operations of Machine/Sync.lean keep: soundness, the queue, the draws, the wire. -/
namespace Sys2Proof.Machine

open Sys2Proof

theorem keep_execSignalArrival (p : Nat) (srcs : List Nat) {s s' : State} (h : execSignalArrival p srcs s = .next s') : Keeps s s' := by
  unfold execSignalArrival at h
  refine keep_run (fun s h => ?_) h
  try dsimp only
  repeat' (first
    | with_reducible assumption
    | with_reducible refine keep_counterCycle _ _ ?_
    | with_reducible refine Keeps.of1 ‹_› ?_
    | with_reducible refine Keeps.of2 ‹_› ?_
    | split
    | with_reducible refine Keeps.same ?_ rfl
    | dsimp only)

theorem keep_startTimeout (w : Waiter) {a s : State} (h : Keeps a s) : Keeps a (startTimeout w s).2 := by
  unfold startTimeout
  try dsimp only
  repeat' (first
    | with_reducible assumption
    | with_reducible refine keep_setCore _ _ ?_
    | with_reducible refine Keeps.of1 ‹_› ?_
    | with_reducible refine Keeps.of2 ‹_› ?_
    | split
    | with_reducible refine Keeps.same ?_ rfl
    | dsimp only)

theorem keep_execWaiterJoin (p : Nat) (srcs : List Nat) {s s' : State} (h : execWaiterJoin p srcs s = .next s') : Keeps s s' := by
  unfold execWaiterJoin at h
  refine keep_run (fun s h => ?_) h
  try dsimp only
  repeat' (first
    | with_reducible assumption
    | with_reducible refine keep_setCtr _ _ ?_
    | with_reducible refine keep_settle _ ?_
    | with_reducible refine keep_rebaseReady _ ?_
    | with_reducible refine keep_startTimeout _ ?_
    | with_reducible refine Keeps.foldl (fun s x h => ?_) _ ?_
    | with_reducible refine Keeps.of1 ‹_› ?_
    | with_reducible refine Keeps.of2 ‹_› ?_
    | split
    | with_reducible refine Keeps.same ?_ rfl
    | dsimp only)

theorem keep_execPassNotice (i : Nat) {s s' : State} (h : execPassNotice i s = .next s') : Keeps s s' := by
  unfold execPassNotice at h
  refine keep_run (fun s h => ?_) h
  try dsimp only
  repeat' (first
    | with_reducible assumption
    | with_reducible refine keep_traceHit _ _ _ _ _ _ _ ?_
    | with_reducible refine keep_setCore _ _ ?_
    | with_reducible refine keep_finish0 _ _ ?_
    | with_reducible refine keep_sendWait _ _ ?_
    | with_reducible refine keep_setFtRing _ _ ?_
    | with_reducible refine Keeps.of1 ‹_› ?_
    | with_reducible refine Keeps.of2 ‹_› ?_
    | split
    | with_reducible refine Keeps.same ?_ rfl
    | dsimp only)

theorem keep_execWaitTimeout (p : Nat) (i : Nat) {s s' : State} (h : execWaitTimeout p i s = .next s') : Keeps s s' := by
  unfold execWaitTimeout at h
  refine keep_run (fun s h => ?_) h
  try dsimp only
  repeat' (first
    | with_reducible assumption
    | with_reducible refine keep_orReg _ _ _ _ ?_
    | with_reducible refine keep_raise _ _ _ _ _ ?_
    | with_reducible refine keep_finish _ _ _ _ _ _ ?_
    | with_reducible refine keep_withdraw _ _ ?_
    | with_reducible refine keep_takeExc _ _ _ _ ?_
    | with_reducible refine Keeps.of1 ‹_› ?_
    | with_reducible refine Keeps.of2 ‹_› ?_
    | split
    | with_reducible refine Keeps.same ?_ rfl
    | dsimp only)

theorem keep_cmdCounter (c : Cmd) (o : Op) (remote : Bool) (f : Xl → State → State) {a s : State} (hf : ∀ (x0 : Xl) (x1 : State), Keeps a x1 → Keeps a (f x0 x1)) (h : Keeps a s) : Keeps a (cmdCounter c o remote f s) := by
  unfold cmdCounter
  try dsimp only
  repeat' (first
    | with_reducible assumption
    | with_reducible refine keep_orReg _ _ _ _ ?_
    | with_reducible refine keep_finish0 _ _ ?_
    | with_reducible refine keep_failAt _ _ _ _ ?_
    | with_reducible refine hf _ _ ?_
    | with_reducible refine Keeps.of1 ‹_› ?_
    | with_reducible refine Keeps.of2 ‹_› ?_
    | split
    | with_reducible refine Keeps.same ?_ rfl
    | dsimp only)

theorem keep_execSyncSignal (id : Nat) {s s' : State} (h : execSyncSignal id s = .next s') : Keeps s s' := by
  unfold execSyncSignal at h
  refine keep_run (fun s h => ?_) h
  try dsimp only
  repeat' (first
    | with_reducible assumption
    | with_reducible refine keep_finish0 _ _ ?_
    | with_reducible refine keep_working _ ?_
    | with_reducible refine keep_startOp _ _ _ (fun _ _ h => ?_) ?_
    | with_reducible refine keep_sendSig _ _ _ _ _ ?_
    | with_reducible refine keep_cmdCounter _ _ _ _ (fun _ _ h => ?_) ?_
    | with_reducible refine Keeps.of1 ‹_› ?_
    | with_reducible refine Keeps.of2 ‹_› ?_
    | split
    | with_reducible refine Keeps.same ?_ rfl
    | dsimp only)

theorem keep_execSyncWait (id : Nat) {s s' : State} (h : execSyncWait id s = .next s') : Keeps s s' := by
  unfold execSyncWait at h
  refine keep_run (fun s h => ?_) h
  try dsimp only
  repeat' (first
    | with_reducible assumption
    | with_reducible refine keep_finish0 _ _ ?_
    | with_reducible refine keep_working _ ?_
    | with_reducible refine keep_startOp _ _ _ (fun _ _ h => ?_) ?_
    | with_reducible refine keep_need7 _ _ _ (fun _ h => ?_) ?_
    | with_reducible refine keep_sendWait _ _ ?_
    | with_reducible refine keep_cmdCounter _ _ _ _ (fun _ _ h => ?_) ?_
    | with_reducible refine Keeps.of1 ‹_› ?_
    | with_reducible refine Keeps.of2 ‹_› ?_
    | split
    | with_reducible refine Keeps.same ?_ rfl
    | dsimp only)

theorem keep_execSyncRead (id : Nat) {s s' : State} (h : execSyncRead id s = .next s') : Keeps s s' := by
  unfold execSyncRead at h
  refine keep_run (fun s h => ?_) h
  try dsimp only
  repeat' (first
    | with_reducible assumption
    | with_reducible refine keep_finish _ _ _ _ _ _ ?_
    | with_reducible refine keep_startOp _ _ _ (fun _ _ h => ?_) ?_
    | with_reducible refine keep_cmdCounter _ _ _ _ (fun _ _ h => ?_) ?_
    | with_reducible refine Keeps.of1 ‹_› ?_
    | with_reducible refine Keeps.of2 ‹_› ?_
    | split
    | with_reducible refine Keeps.same ?_ rfl
    | dsimp only)

theorem keep_execSyncSet (id : Nat) {s s' : State} (h : execSyncSet id s = .next s') : Keeps s s' := by
  unfold execSyncSet at h
  refine keep_run (fun s h => ?_) h
  try dsimp only
  repeat' (first
    | with_reducible assumption
    | with_reducible refine keep_count _ _ _ _ ?_
    | with_reducible refine keep_finish0 _ _ ?_
    | with_reducible refine keep_conflict _ _ _ _ _ ?_
    | with_reducible refine keep_startOp _ _ _ (fun _ _ h => ?_) ?_
    | with_reducible refine keep_setCtr _ _ ?_
    | with_reducible refine keep_settle _ ?_
    | with_reducible refine keep_rebaseReady _ ?_
    | with_reducible refine keep_cmdCounter _ _ _ _ (fun _ _ h => ?_) ?_
    | with_reducible refine Keeps.of1 ‹_› ?_
    | with_reducible refine Keeps.of2 ‹_› ?_
    | split
    | with_reducible refine Keeps.same ?_ rfl
    | dsimp only)

theorem keep_execSyncEpoch (id : Nat) {s s' : State} (h : execSyncEpoch id s = .next s') : Keeps s s' := by
  unfold execSyncEpoch at h
  refine keep_run (fun s h => ?_) h
  try dsimp only
  repeat' (first
    | with_reducible assumption
    | with_reducible refine keep_orReg _ _ _ _ ?_
    | with_reducible refine keep_count _ _ _ _ ?_
    | with_reducible refine keep_readMem _ _ ?_
    | with_reducible refine keep_finish0 _ _ ?_
    | with_reducible refine keep_failAddr _ _ ?_
    | with_reducible refine keep_working _ ?_
    | with_reducible refine keep_startOp _ _ _ (fun _ _ h => ?_) ?_
    | with_reducible refine keep_failAt _ _ _ _ ?_
    | with_reducible refine keep_setCtr _ _ ?_
    | with_reducible refine Keeps.foldl (fun s x h => ?_) _ ?_
    | with_reducible refine Keeps.of1 ‹_› ?_
    | with_reducible refine Keeps.of2 ‹_› ?_
    | split
    | with_reducible refine Keeps.same ?_ rfl
    | dsimp only)

theorem keep_execEpochRebase (id : Nat) {s s' : State} (h : execEpochRebase id s = .next s') : Keeps s s' := by
  unfold execEpochRebase at h
  refine keep_run (fun s h => ?_) h
  try dsimp only
  repeat' (first
    | with_reducible assumption
    | with_reducible refine keep_settle _ ?_
    | with_reducible refine keep_rebase _ ?_
    | with_reducible refine Keeps.of1 ‹_› ?_
    | with_reducible refine Keeps.of2 ‹_› ?_
    | split
    | with_reducible refine Keeps.same ?_ rfl
    | dsimp only)

theorem keep_execEpochTimeout (id : Nat) {s s' : State} (h : execEpochTimeout id s = .next s') : Keeps s s' := by
  unfold execEpochTimeout at h
  refine keep_run (fun s h => ?_) h
  try dsimp only
  repeat' (first
    | with_reducible assumption
    | with_reducible refine keep_finish _ _ _ _ _ _ ?_
    | with_reducible refine Keeps.of1 ‹_› ?_
    | with_reducible refine Keeps.of2 ‹_› ?_
    | split
    | with_reducible refine Keeps.same ?_ rfl
    | dsimp only)

theorem keep_execVmap (id : Nat) {s s' : State} (h : execVmap id s = .next s') : Keeps s s' := by
  unfold execVmap at h
  refine keep_run (fun s h => ?_) h
  try dsimp only
  repeat' (first
    | with_reducible assumption
    | with_reducible refine keep_setReg _ _ _ _ ?_
    | with_reducible refine keep_readMem _ _ ?_
    | with_reducible refine keep_finish0 _ _ ?_
    | with_reducible refine keep_failAddr _ _ ?_
    | with_reducible refine keep_startOp _ _ _ (fun _ _ h => ?_) ?_
    | with_reducible refine Keeps.foldl (fun s x h => ?_) _ ?_
    | with_reducible refine Keeps.of1 ‹_› ?_
    | with_reducible refine Keeps.of2 ‹_› ?_
    | split
    | with_reducible refine Keeps.same ?_ rfl
    | dsimp only)

theorem keep_execCoreCtxWrite (who : Nat) (k : Nat) (val : Word) {s s' : State} (h : execCoreCtxWrite who k val s = .next s') : Keeps s s' := by
  unfold execCoreCtxWrite at h
  refine keep_run (fun s h => ?_) h
  try dsimp only
  repeat' (first
    | with_reducible assumption
    | with_reducible refine keep_setReg _ _ _ _ ?_
    | with_reducible refine keep_orReg _ _ _ _ ?_
    | with_reducible refine keep_instWrite _ _ _ (fun _ h => ?_) ?_
    | with_reducible refine Keeps.of1 ‹_› ?_
    | with_reducible refine Keeps.of2 ‹_› ?_
    | split
    | with_reducible refine Keeps.same ?_ rfl
    | dsimp only)

theorem keep_execFnCtxWrite (who : Nat) (i : Nat) (val : Word) {s s' : State} (h : execFnCtxWrite who i val s = .next s') : Keeps s s' := by
  unfold execFnCtxWrite at h
  refine keep_run (fun s h => ?_) h
  try dsimp only
  repeat' (first
    | with_reducible assumption
    | with_reducible refine keep_onlyIf _ _ (fun _ h => ?_) ?_
    | with_reducible refine keep_setReg _ _ _ _ ?_
    | with_reducible refine keep_orReg _ _ _ _ ?_
    | with_reducible refine Keeps.of1 ‹_› ?_
    | with_reducible refine Keeps.of2 ‹_› ?_
    | split
    | with_reducible refine Keeps.same ?_ rfl
    | dsimp only)

end Sys2Proof.Machine
end

