-- ==== Sys2Proof/Laws/KeepCmdChecks.lean ====
section
/-! SUPPORT. What the operations of Machine/CmdChecks.lean keep: soundness, the queue, the draws, the wire. -/
namespace Sys2Proof.Machine

open Sys2Proof

theorem keep_extentsOk (c : Cmd) (o : Op) {a : State} : ∀ (y0 : List Extent) {s : State}, Keeps a s → Keeps a (extentsOk c o y0 s).2
  | [], s, h => by
    unfold extentsOk
    try dsimp only
    repeat' (first
      | with_reducible assumption
      | with_reducible refine keep_extentsOk _ _ _ ?_
      | with_reducible refine keep_mayReach _ _ _ _ _ ?_
      | with_reducible refine Keeps.of1 ‹_› ?_
      | with_reducible refine Keeps.of2 ‹_› ?_
      | split
      | with_reducible refine Keeps.same ?_ rfl
      | dsimp only)
  | e :: t, s, h => by
    unfold extentsOk
    try dsimp only
    repeat' (first
      | with_reducible assumption
      | with_reducible refine keep_extentsOk _ _ _ ?_
      | with_reducible refine keep_mayReach _ _ _ _ _ ?_
      | with_reducible refine Keeps.of1 ‹_› ?_
      | with_reducible refine Keeps.of2 ‹_› ?_
      | split
      | with_reducible refine Keeps.same ?_ rfl
      | dsimp only)

theorem keep_check5 (c : Cmd) (o : Op) {a s : State} (h : Keeps a s) : Keeps a (check5 c o s).2 := by
  unfold check5
  try dsimp only
  repeat' (first
    | with_reducible assumption
    | with_reducible refine keep_extentsOk _ _ _ ?_
    | with_reducible refine Keeps.of1 ‹_› ?_
    | with_reducible refine Keeps.of2 ‹_› ?_
    | split
    | with_reducible refine Keeps.same ?_ rfl
    | dsimp only)

theorem keep_execRegionDrainEnd (e : Nat) {s s' : State} (h : execRegionDrainEnd e s = .next s') : Keeps s s' := by
  unfold execRegionDrainEnd at h
  refine keep_run (fun s h => ?_) h
  try dsimp only
  repeat' (first
    | with_reducible assumption
    | with_reducible refine keep_setRegion _ _ ?_
    | with_reducible refine keep_finish0 _ _ ?_
    | with_reducible refine Keeps.of1 ‹_› ?_
    | with_reducible refine Keeps.of2 ‹_› ?_
    | split
    | with_reducible refine Keeps.same ?_ rfl
    | dsimp only)

theorem keep_takeCheck (c : Cmd) {a s : State} (h : Keeps a s) : Keeps a (takeCheck c s).2 := by
  unfold takeCheck
  try dsimp only
  repeat' (first
    | with_reducible assumption
    | with_reducible refine keep_check5 _ _ ?_
    | with_reducible refine Keeps.of1 ‹_› ?_
    | with_reducible refine Keeps.of2 ‹_› ?_
    | split
    | with_reducible refine Keeps.same ?_ rfl
    | dsimp only)

end Sys2Proof.Machine
end

