-- ==== Sys2Proof/Laws/KeepEfesh.lean ====
section
/-! SUPPORT. What the operations of Machine/Efesh.lean keep: soundness, the queue, the draws, the wire. -/
namespace Sys2Proof.Machine

open Sys2Proof

theorem keep_setQp (fn : Nat) (q : Nat) (x : QPair) {a s : State} (h : Keeps a s) : Keeps a (State.setQp s fn q x) := by
  unfold State.setQp
  try dsimp only
  repeat' (first
    | with_reducible assumption
    | with_reducible refine Keeps.of1 ‹_› ?_
    | with_reducible refine Keeps.of2 ‹_› ?_
    | split
    | with_reducible refine Keeps.same ?_ rfl
    | dsimp only)

theorem keep_restartHb (fn : Nat) {a s : State} (h : Keeps a s) : Keeps a (restartHb fn s) := by
  unfold restartHb
  try dsimp only
  repeat' (first
    | with_reducible assumption
    | with_reducible refine keep_setHost _ _ ?_
    | with_reducible refine Keeps.of1 ‹_› ?_
    | with_reducible refine Keeps.of2 ‹_› ?_
    | split
    | with_reducible refine Keeps.same ?_ rfl
    | dsimp only)

theorem keep_qpError (fn : Nat) (q : Nat) (bitNo : Nat) {a s : State} (h : Keeps a s) : Keeps a (qpError fn q bitNo s) := by
  unfold qpError
  try dsimp only
  repeat' (first
    | with_reducible assumption
    | with_reducible refine keep_setReg _ _ _ _ ?_
    | with_reducible refine keep_orReg _ _ _ _ ?_
    | with_reducible refine keep_setQp _ _ _ ?_
    | with_reducible refine Keeps.of1 ‹_› ?_
    | with_reducible refine Keeps.of2 ‹_› ?_
    | split
    | with_reducible refine Keeps.same ?_ rfl
    | dsimp only)

theorem keep_continueHold (fn : Nat) {a s : State} (h : Keeps a s) : Keeps a (continueHold fn s) := by
  unfold continueHold
  try dsimp only
  repeat' (first
    | with_reducible assumption
    | with_reducible refine keep_deviceHold _ _ ?_
    | with_reducible refine Keeps.of1 ‹_› ?_
    | with_reducible refine Keeps.of2 ‹_› ?_
    | split
    | with_reducible refine Keeps.same ?_ rfl
    | dsimp only)

theorem keep_sqTail (fn : Nat) (q : Nat) (v : Nat) {a s : State} (h : Keeps a s) : Keeps a (sqTail fn q v s) := by
  unfold sqTail
  try dsimp only
  repeat' (first
    | with_reducible assumption
    | with_reducible refine keep_setQp _ _ _ ?_
    | with_reducible refine keep_restartHb _ ?_
    | with_reducible refine keep_qpError _ _ _ ?_
    | with_reducible refine Keeps.of1 ‹_› ?_
    | with_reducible refine Keeps.of2 ‹_› ?_
    | split
    | with_reducible refine Keeps.same ?_ rfl
    | dsimp only)

theorem keep_cqHead (fn : Nat) (q : Nat) (v : Nat) {a s : State} (h : Keeps a s) : Keeps a (cqHead fn q v s) := by
  unfold cqHead
  try dsimp only
  repeat' (first
    | with_reducible assumption
    | with_reducible refine keep_setQp _ _ _ ?_
    | with_reducible refine keep_restartHb _ ?_
    | with_reducible refine keep_qpError _ _ _ ?_
    | with_reducible refine Keeps.of1 ‹_› ?_
    | with_reducible refine Keeps.of2 ‹_› ?_
    | split
    | with_reducible refine Keeps.same ?_ rfl
    | dsimp only)

theorem keep_execSqTailWrite (p : Nat) (v : Nat) (q : Nat) (val : Word) {s s' : State} (h : execSqTailWrite p v q val s = .next s') : Keeps s s' := by
  unfold execSqTailWrite at h
  refine keep_run (fun s h => ?_) h
  try dsimp only
  repeat' (first
    | with_reducible assumption
    | with_reducible refine keep_sqTail _ _ _ ?_
    | with_reducible refine Keeps.of1 ‹_› ?_
    | with_reducible refine Keeps.of2 ‹_› ?_
    | split
    | with_reducible refine Keeps.same ?_ rfl
    | dsimp only)

theorem keep_execCqHeadWrite (p : Nat) (v : Nat) (q : Nat) (val : Word) {s s' : State} (h : execCqHeadWrite p v q val s = .next s') : Keeps s s' := by
  unfold execCqHeadWrite at h
  refine keep_run (fun s h => ?_) h
  try dsimp only
  repeat' (first
    | with_reducible assumption
    | with_reducible refine keep_cqHead _ _ _ ?_
    | with_reducible refine Keeps.of1 ‹_› ?_
    | with_reducible refine Keeps.of2 ‹_› ?_
    | split
    | with_reducible refine Keeps.same ?_ rfl
    | dsimp only)

theorem keep_cancelCmd (c : Cmd) {a s : State} (h : Keeps a s) : Keeps a (cancelCmd c s) := by
  unfold cancelCmd
  try dsimp only
  repeat' (first
    | with_reducible assumption
    | with_reducible refine keep_disarm _ ?_
    | with_reducible refine keep_setGrp _ _ ?_
    | with_reducible refine keep_working _ ?_
    | with_reducible refine keep_withdraw _ _ ?_
    | with_reducible refine keep_endChain _ _ _ _ _ ?_
    | with_reducible refine keep_offerChains _ _ ?_
    | with_reducible refine keep_saveStop _ _ _ _ ?_
    | with_reducible refine keep_restEnd _ _ _ _ _ ?_
    | with_reducible refine keep_freeCores _ ?_
    | with_reducible refine keep_cipherStop _ _ _ _ ?_
    | with_reducible refine Keeps.of1 ‹_› ?_
    | with_reducible refine Keeps.of2 ‹_› ?_
    | split
    | with_reducible refine Keeps.same ?_ rfl
    | dsimp only)

theorem keep_removeQp (fn : Nat) (q : Nat) {a s : State} (h : Keeps a s) : Keeps a (removeQp fn q s) := by
  unfold removeQp
  try dsimp only
  repeat' (first
    | with_reducible assumption
    | with_reducible refine keep_dropCmds _ ?_
    | with_reducible refine keep_setQp _ _ _ ?_
    | with_reducible refine keep_cancelCmd _ ?_
    | with_reducible refine Keeps.foldl (fun s x h => ?_) _ ?_
    | with_reducible refine Keeps.of1 ‹_› ?_
    | with_reducible refine Keeps.of2 ‹_› ?_
    | split
    | with_reducible refine Keeps.same ?_ rfl
    | dsimp only)

theorem keep_admqWrite (i : Nat) (v : Nat) {a s : State} (h : Keeps a s) : Keeps a (admqWrite i v s) := by
  unfold admqWrite
  try dsimp only
  repeat' (first
    | with_reducible assumption
    | with_reducible refine keep_orReg _ _ _ _ ?_
    | with_reducible refine keep_setField _ _ _ _ _ _ ?_
    | with_reducible refine keep_setQp _ _ _ ?_
    | with_reducible refine keep_removeQp _ _ ?_
    | with_reducible refine Keeps.of1 ‹_› ?_
    | with_reducible refine Keeps.of2 ‹_› ?_
    | split
    | with_reducible refine Keeps.same ?_ rfl
    | dsimp only)

theorem keep_execAdmqEnable (who : Nat) (i : Nat) (val : Word) {s s' : State} (h : execAdmqEnable who i val s = .next s') : Keeps s s' := by
  unfold execAdmqEnable at h
  refine keep_run (fun s h => ?_) h
  try dsimp only
  repeat' (first
    | with_reducible assumption
    | with_reducible refine keep_onlyIf _ _ (fun _ h => ?_) ?_
    | with_reducible refine keep_admqWrite _ _ ?_
    | with_reducible refine Keeps.of1 ‹_› ?_
    | with_reducible refine Keeps.of2 ‹_› ?_
    | split
    | with_reducible refine Keeps.same ?_ rfl
    | dsimp only)

theorem keep_ringRead (fn : Nat) (x : QPair) {a : State} : ∀ (y0 : Nat) (y1 : Nat) {s : State}, Keeps a s → Keeps a (ringRead fn x y0 y1 s).1
  | 0, _, s, h => by
    unfold ringRead
    try dsimp only
    repeat' (first
      | with_reducible assumption
      | with_reducible refine keep_ringRead _ _ _ _ ?_
      | with_reducible refine keep_hostRead _ _ _ ?_
      | with_reducible refine Keeps.of1 ‹_› ?_
      | with_reducible refine Keeps.of2 ‹_› ?_
      | split
      | with_reducible refine Keeps.same ?_ rfl
      | dsimp only)
  | n + 1, i, s, h => by
    unfold ringRead
    try dsimp only
    repeat' (first
      | with_reducible assumption
      | with_reducible refine keep_ringRead _ _ _ _ ?_
      | with_reducible refine keep_hostRead _ _ _ ?_
      | with_reducible refine Keeps.of1 ‹_› ?_
      | with_reducible refine Keeps.of2 ‹_› ?_
      | split
      | with_reducible refine Keeps.same ?_ rfl
      | dsimp only)

theorem keep_askRings {a s : State} (h : Keeps a s) : Keeps a (askRings s) := by
  unfold askRings
  try dsimp only
  repeat' (first
    | with_reducible assumption
    | with_reducible refine keep_hostAsk _ _ _ ?_
    | with_reducible refine Keeps.foldl (fun s x h => ?_) _ ?_
    | with_reducible refine Keeps.of1 ‹_› ?_
    | with_reducible refine Keeps.of2 ‹_› ?_
    | split
    | with_reducible refine Keeps.same ?_ rfl
    | dsimp only)

theorem keep_pickQp (fn : Nat) (qs : List Nat) {a s : State} (h : Keeps a s) : Keeps a (pickQp fn qs s).2 := by
  unfold pickQp
  try dsimp only
  repeat' (first
    | with_reducible assumption
    | with_reducible refine keep_setQp _ _ _ ?_
    | with_reducible refine Keeps.foldl (fun s x h => ?_) _ ?_
    | with_reducible refine Keeps.of1 ‹_› ?_
    | with_reducible refine Keeps.of2 ‹_› ?_
    | split
    | with_reducible refine Keeps.same ?_ rfl
    | dsimp only)

theorem keep_execCommandDispatch (id : Nat) {s s' : State} (h : execCommandDispatch id s = .next s') : Keeps s s' := by
  unfold execCommandDispatch at h
  refine keep_run (fun s h => ?_) h
  try dsimp only
  repeat' (first
    | with_reducible assumption
    | with_reducible refine keep_modCmd _ _ ?_
    | with_reducible refine Keeps.of1 ‹_› ?_
    | with_reducible refine Keeps.of2 ‹_› ?_
    | split
    | with_reducible refine Keeps.same ?_ rfl
    | dsimp only)

theorem keep_replyWrite (id : Nat) {a s : State} (h : Keeps a s) : Keeps a (replyWrite id s) := by
  unfold replyWrite
  try dsimp only
  repeat' (first
    | with_reducible assumption
    | with_reducible refine keep_traceHit _ _ _ _ _ _ _ ?_
    | with_reducible refine keep_hostWrite _ _ _ ?_
    | with_reducible refine keep_signalVector _ _ ?_
    | with_reducible refine keep_dropCmds _ ?_
    | with_reducible refine keep_setQp _ _ _ ?_
    | with_reducible refine keep_qpError _ _ _ ?_
    | with_reducible refine Keeps.of1 ‹_› ?_
    | with_reducible refine Keeps.of2 ‹_› ?_
    | split
    | with_reducible refine Keeps.same ?_ rfl
    | dsimp only)

theorem keep_execReplyWrite (id : Nat) {s s' : State} (h : execReplyWrite id s = .next s') : Keeps s s' := by
  unfold execReplyWrite at h
  refine keep_run (fun s h => ?_) h
  try dsimp only
  repeat' (first
    | with_reducible assumption
    | with_reducible refine keep_replyWrite _ ?_
    | with_reducible refine Keeps.of1 ‹_› ?_
    | with_reducible refine Keeps.of2 ‹_› ?_
    | split
    | with_reducible refine Keeps.same ?_ rfl
    | dsimp only)

theorem keep_beginHb (fn : Nat) (ms : Nat) (policy : Nat) {a s : State} (h : Keeps a s) : Keeps a (beginHb fn ms policy s) := by
  unfold beginHb
  try dsimp only
  repeat' (first
    | with_reducible assumption
    | with_reducible refine keep_setHost _ _ ?_
    | with_reducible refine keep_holdsChanged ?_
    | with_reducible refine keep_restartHb _ ?_
    | with_reducible refine Keeps.of1 ‹_› ?_
    | with_reducible refine Keeps.of2 ‹_› ?_
    | split
    | with_reducible refine Keeps.same ?_ rfl
    | dsimp only)

theorem keep_execHello (id : Nat) {s s' : State} (h : execHello id s = .next s') : Keeps s s' := by
  unfold execHello at h
  refine keep_run (fun s h => ?_) h
  try dsimp only
  repeat' (first
    | with_reducible assumption
    | with_reducible refine keep_setReg _ _ _ _ ?_
    | with_reducible refine keep_finish _ _ _ _ _ _ ?_
    | with_reducible refine keep_conflict _ _ _ _ _ ?_
    | with_reducible refine keep_startOp _ _ _ (fun _ _ h => ?_) ?_
    | with_reducible refine keep_raiseCounters ?_
    | with_reducible refine keep_beginHb _ _ _ ?_
    | with_reducible refine Keeps.of1 ‹_› ?_
    | with_reducible refine Keeps.of2 ‹_› ?_
    | split
    | with_reducible refine Keeps.same ?_ rfl
    | dsimp only)

theorem keep_execIdentify (id : Nat) {s s' : State} (h : execIdentify id s = .next s') : Keeps s s' := by
  unfold execIdentify at h
  refine keep_run (fun s h => ?_) h
  try dsimp only
  repeat' (first
    | with_reducible assumption
    | with_reducible refine keep_hostWrite _ _ _ ?_
    | with_reducible refine keep_finish _ _ _ _ _ _ ?_
    | with_reducible refine keep_failHost _ _ ?_
    | with_reducible refine keep_startOp _ _ _ (fun _ _ h => ?_) ?_
    | with_reducible refine Keeps.of1 ‹_› ?_
    | with_reducible refine Keeps.of2 ‹_› ?_
    | split
    | with_reducible refine Keeps.same ?_ rfl
    | dsimp only)

theorem keep_execQpCreate (id : Nat) {s s' : State} (h : execQpCreate id s = .next s') : Keeps s s' := by
  unfold execQpCreate at h
  refine keep_run (fun s h => ?_) h
  try dsimp only
  repeat' (first
    | with_reducible assumption
    | with_reducible refine keep_finish0 _ _ ?_
    | with_reducible refine keep_conflict _ _ _ _ _ ?_
    | with_reducible refine keep_startOp _ _ _ (fun _ _ h => ?_) ?_
    | with_reducible refine keep_setQp _ _ _ ?_
    | with_reducible refine Keeps.of1 ‹_› ?_
    | with_reducible refine Keeps.of2 ‹_› ?_
    | split
    | with_reducible refine Keeps.same ?_ rfl
    | dsimp only)

theorem keep_execQpDelete (id : Nat) {s s' : State} (h : execQpDelete id s = .next s') : Keeps s s' := by
  unfold execQpDelete at h
  refine keep_run (fun s h => ?_) h
  try dsimp only
  repeat' (first
    | with_reducible assumption
    | with_reducible refine keep_finish0 _ _ ?_
    | with_reducible refine keep_conflict _ _ _ _ _ ?_
    | with_reducible refine keep_startOp _ _ _ (fun _ _ h => ?_) ?_
    | with_reducible refine keep_removeQp _ _ ?_
    | with_reducible refine Keeps.of1 ‹_› ?_
    | with_reducible refine Keeps.of2 ‹_› ?_
    | split
    | with_reducible refine Keeps.same ?_ rfl
    | dsimp only)

theorem keep_execAbort (id : Nat) {s s' : State} (h : execAbort id s = .next s') : Keeps s s' := by
  unfold execAbort at h
  refine keep_run (fun s h => ?_) h
  try dsimp only
  repeat' (first
    | with_reducible assumption
    | with_reducible refine keep_finish _ _ _ _ _ _ ?_
    | with_reducible refine keep_finish0 _ _ ?_
    | with_reducible refine keep_startOp _ _ _ (fun _ _ h => ?_) ?_
    | with_reducible refine keep_cancelCmd _ ?_
    | with_reducible refine Keeps.of1 ‹_› ?_
    | with_reducible refine Keeps.of2 ‹_› ?_
    | split
    | with_reducible refine Keeps.same ?_ rfl
    | dsimp only)

theorem keep_execHeartbeat (id : Nat) {s s' : State} (h : execHeartbeat id s = .next s') : Keeps s s' := by
  unfold execHeartbeat at h
  refine keep_run (fun s h => ?_) h
  try dsimp only
  repeat' (first
    | with_reducible assumption
    | with_reducible refine keep_finish0 _ _ ?_
    | with_reducible refine keep_startOp _ _ _ (fun _ _ h => ?_) ?_
    | with_reducible refine keep_restartHb _ ?_
    | with_reducible refine Keeps.of1 ‹_› ?_
    | with_reducible refine Keeps.of2 ‹_› ?_
    | split
    | with_reducible refine Keeps.same ?_ rfl
    | dsimp only)

theorem keep_endHb (fn : Nat) {a s : State} (h : Keeps a s) : Keeps a (endHb fn s) := by
  unfold endHb
  try dsimp only
  repeat' (first
    | with_reducible assumption
    | with_reducible refine keep_setHost _ _ ?_
    | with_reducible refine keep_holdsChanged ?_
    | with_reducible refine Keeps.of1 ‹_› ?_
    | with_reducible refine Keeps.of2 ‹_› ?_
    | split
    | with_reducible refine Keeps.same ?_ rfl
    | dsimp only)

theorem keep_execGoodbye (id : Nat) {s s' : State} (h : execGoodbye id s = .next s') : Keeps s s' := by
  unfold execGoodbye at h
  refine keep_run (fun s h => ?_) h
  try dsimp only
  repeat' (first
    | with_reducible assumption
    | with_reducible refine keep_setReg _ _ _ _ ?_
    | with_reducible refine keep_finish0 _ _ ?_
    | with_reducible refine keep_conflict _ _ _ _ _ ?_
    | with_reducible refine keep_startOp _ _ _ (fun _ _ h => ?_) ?_
    | with_reducible refine keep_endHb _ ?_
    | with_reducible refine Keeps.of1 ‹_› ?_
    | with_reducible refine Keeps.of2 ‹_› ?_
    | split
    | with_reducible refine Keeps.same ?_ rfl
    | dsimp only)

theorem keep_execWindowMap (id : Nat) {s s' : State} (h : execWindowMap id s = .next s') : Keeps s s' := by
  unfold execWindowMap at h
  refine keep_run (fun s h => ?_) h
  try dsimp only
  repeat' (first
    | with_reducible assumption
    | with_reducible refine keep_setHost _ _ ?_
    | with_reducible refine keep_finish0 _ _ ?_
    | with_reducible refine keep_conflict _ _ _ _ _ ?_
    | with_reducible refine keep_startOp _ _ _ (fun _ _ h => ?_) ?_
    | with_reducible refine Keeps.foldl (fun s x h => ?_) _ ?_
    | with_reducible refine Keeps.of1 ‹_› ?_
    | with_reducible refine Keeps.of2 ‹_› ?_
    | split
    | with_reducible refine Keeps.same ?_ rfl
    | dsimp only)

theorem keep_execHeartbeatExpiry (i : Nat) {s s' : State} (h : execHeartbeatExpiry i s = .next s') : Keeps s s' := by
  unfold execHeartbeatExpiry at h
  refine keep_run (fun s h => ?_) h
  try dsimp only
  repeat' (first
    | with_reducible assumption
    | with_reducible refine keep_raise _ _ _ _ _ ?_
    | with_reducible refine keep_setHost _ _ ?_
    | with_reducible refine keep_syncPoint _ ?_
    | with_reducible refine keep_continueHold _ ?_
    | with_reducible refine Keeps.foldl (fun s x h => ?_) _ ?_
    | with_reducible refine Keeps.of1 ‹_› ?_
    | with_reducible refine Keeps.of2 ‹_› ?_
    | split
    | with_reducible refine Keeps.same ?_ rfl
    | dsimp only)

theorem keep_startRow (o : Op) (id : Nat) {s s' : State} (h : startRow o id s = .next s') : Keeps s s' := by
  cases o
  case hello => exact keep_execHello id h
  case identify => exact keep_execIdentify id h
  case fwUpdate => exact keep_execFwUpdate id h
  case qpCreate => exact keep_execQpCreate id h
  case qpDelete => exact keep_execQpDelete id h
  case abort => exact keep_execAbort id h
  case heartbeat => exact keep_execHeartbeat id h
  case goodbye => exact keep_execGoodbye id h
  case regionCreate => exact keep_execRegionCreate id h
  case regionRevoke => exact keep_execRegionRevoke id h
  case copy => exact keep_execCopy id h
  case fill => exact keep_execFill id h
  case windowMap => exact keep_execWindowMap id h
  case crypt => exact keep_execCrypt id h
  case imemLoad => exact keep_execImemLoad id h
  case coresRun => exact keep_execCoresRun id h
  case modChain => exact keep_execModChain id h
  case moveChain => exact keep_execMoveChain id h
  case lockForm => exact keep_execLockForm id h
  case lockStart => exact keep_execLockStart id h
  case lockDissolve => exact keep_execLockDissolve id h
  case lodeReset => exact keep_execLodeReset id h
  case lodeHold => exact keep_execLodeHold id h
  case syncSignal => exact keep_execSyncSignal id h
  case syncWait => exact keep_execSyncWait id h
  case syncRead => exact keep_execSyncRead id h
  case syncSet => exact keep_execSyncSet id h
  case syncEpoch => exact keep_execSyncEpoch id h
  case vmap => exact keep_execVmap id h
  case commCreate => exact keep_execCommCreate id h
  case commDestroy => exact keep_execCommDestroy id h
  case allReduce => exact keep_execAllReduce id h
  case reduceScatter => exact keep_execReduceScatter id h
  case allGather => exact keep_execAllGather id h
  case broadcast => exact keep_execBroadcast id h
  case allToAll => exact keep_execAllToAll id h
  case portMode => exact keep_execPortMode id h
  case rulesCommit => exact keep_execRulesCommit id h
  case patternsLoad => exact keep_execPatternsLoad id h
  case streamOpen => exact keep_execStreamOpen id h
  case streamClose => exact keep_execStreamClose id h
  case gatesLoad => exact keep_execGatesLoad id h
  case shaperSet => exact keep_execShaperSet id h
  case policerSet => exact keep_execPolicerSet id h
  case ftRingCreate => exact keep_execFtRingCreate id h
  case ftRingDelete => exact keep_execFtRingDelete id h
  case ftRqBind => exact keep_execFtRqBind id h
  case ftRqUnbind => exact keep_execFtRqUnbind id h
  case sqCreate => exact keep_execSqCreate id h
  case sqDelete => exact keep_execSqDelete id h
  case volCreate => exact keep_execVolCreate id h
  case volDelete => exact keep_execVolDelete id h
  case volBind => exact keep_execVolBind id h
  case driveInfo => exact keep_execDriveInfo id h
  case poolAdd => exact keep_execPoolAdd id h
  case save => exact keep_execSave id h
  case restore => exact keep_execRestore id h
  case drain => exact keep_execDrain id h
  case slotStatus => exact keep_execSlotStatus id h
  case rankTake => exact keep_execRankTake id h
  case layoutDefine => exact keep_execLayoutDefine id h
  case layoutDrop => exact keep_execLayoutDrop id h
  case reshardMove => exact keep_execReshardMove id h
  case assign => exact keep_execAssign id h
  case keyLoad => exact keep_execKeyLoad id h
  case keyErase => exact keep_execKeyErase id h
  case attest => exact keep_execAttest id h
  case debugUnlock => exact keep_execDebugUnlock id h
  case countersRead => exact keep_execCountersRead id h
  case errorsRead => exact keep_execErrorsRead id h
  case errorsClear => exact keep_execErrorsClear id h
  case logRing => exact keep_execLogRing id h
  case traceSet => exact keep_execTraceSet id h
  case opPoint => exact keep_execOpPoint id h
  case lodePower => exact keep_execLodePower id h
  case clockLock => exact keep_execClockLock id h
  case tbAdj => exact keep_execTbAdj id h
  case tbSyncArm => exact keep_execTbSyncArm id h
  case deep => exact keep_execDeep id h
  case limitsRead => exact keep_execLimitsRead id h

theorem keep_startCheck (id : Nat) {a s : State} (h : Keeps a s) : Keeps a (startCheck id s) := by
  unfold startCheck
  try dsimp only
  repeat' (first
    | with_reducible assumption
    | with_reducible refine keep_modCmd _ _ ?_
    | with_reducible refine keep_finish _ _ _ _ _ _ ?_
    | with_reducible refine Keeps.of1 ‹_› ?_
    | with_reducible refine Keeps.of2 ‹_› ?_
    | split
    | with_reducible refine Keeps.same ?_ rfl
    | dsimp only)

theorem keep_admitCmd (c : Cmd) {a s : State} (h : Keeps a s) : Keeps a (admitCmd c s) := by
  unfold admitCmd
  try dsimp only
  repeat' (first
    | with_reducible assumption
    | with_reducible refine keep_arm _ _ ?_
    | with_reducible refine keep_finish _ _ _ _ _ _ ?_
    | with_reducible refine keep_finish0 _ _ ?_
    | with_reducible refine keep_takeCheck _ ?_
    | with_reducible refine keep_startCheck _ ?_
    | with_reducible refine Keeps.of1 ‹_› ?_
    | with_reducible refine Keeps.of2 ‹_› ?_
    | split
    | with_reducible refine Keeps.same ?_ rfl
    | dsimp only)

theorem keep_takeFrom (fn : Nat) (q : Nat) {a s : State} (h : Keeps a s) : Keeps a (takeFrom fn q s) := by
  unfold takeFrom
  try dsimp only
  repeat' (first
    | with_reducible assumption
    | with_reducible refine keep_traceHit _ _ _ _ _ _ _ ?_
    | with_reducible refine keep_hostRead _ _ _ ?_
    | with_reducible refine keep_setQp _ _ _ ?_
    | with_reducible refine keep_restartHb _ ?_
    | with_reducible refine keep_qpError _ _ _ ?_
    | with_reducible refine keep_continueHold _ ?_
    | with_reducible refine keep_ringRead _ _ _ _ ?_
    | with_reducible refine keep_admitCmd _ ?_
    | with_reducible refine Keeps.of1 ‹_› ?_
    | with_reducible refine Keeps.of2 ‹_› ?_
    | split
    | with_reducible refine Keeps.same ?_ rfl
    | dsimp only)

theorem keep_execSubmissionFetch  {s s' : State} (h : execSubmissionFetch s = .next s') : Keeps s s' := by
  unfold execSubmissionFetch at h
  refine keep_run (fun s h => ?_) h
  try dsimp only
  repeat' (first
    | with_reducible assumption
    | with_reducible refine keep_askRings ?_
    | with_reducible refine keep_pickQp _ _ ?_
    | with_reducible refine keep_takeFrom _ _ ?_
    | with_reducible refine Keeps.of1 ‹_› ?_
    | with_reducible refine Keeps.of2 ‹_› ?_
    | split
    | with_reducible refine Keeps.same ?_ rfl
    | dsimp only)

theorem keep_release (id : Nat) (late : Bool) {a s : State} (h : Keeps a s) : Keeps a (release id late s) := by
  unfold release
  try dsimp only
  repeat' (first
    | with_reducible assumption
    | with_reducible refine keep_modCmd _ _ ?_
    | with_reducible refine keep_startCheck _ ?_
    | with_reducible refine Keeps.of1 ‹_› ?_
    | with_reducible refine Keeps.of2 ‹_› ?_
    | split
    | with_reducible refine Keeps.same ?_ rfl
    | dsimp only)

theorem keep_execTbEventFire  {s s' : State} (h : execTbEventFire s = .next s') : Keeps s s' := by
  unfold execTbEventFire at h
  refine keep_run (fun s h => ?_) h
  try dsimp only
  repeat' (first
    | with_reducible assumption
    | with_reducible refine keep_setGrp _ _ ?_
    | with_reducible refine keep_gateTakes _ _ ?_
    | with_reducible refine keep_release _ _ ?_
    | with_reducible refine Keeps.of1 ‹_› ?_
    | with_reducible refine Keeps.of2 ‹_› ?_
    | split
    | with_reducible refine Keeps.same ?_ rfl
    | dsimp only)

end Sys2Proof.Machine
end

