-- ==== Sys2Proof/Laws/KeepHostIf.lean ====
section
/-! SUPPORT. What the operations of Machine/HostIf.lean keep: soundness, the queue, the draws, the wire. -/
namespace Sys2Proof.Machine

open Sys2Proof

theorem keep_apRead (fn : Nat) {a : State} : ∀ (y0 : List ApPart) {s : State}, Keeps a s → Keeps a (apRead fn y0 s)
  | [], s, h => by
    unfold apRead
    try dsimp only
    repeat' (first
      | with_reducible assumption
      | with_reducible refine keep_apRead _ _ ?_
      | with_reducible refine keep_orReg _ _ _ _ ?_
      | with_reducible refine keep_send _ ?_
      | with_reducible refine keep_sticky _ _ _ _ _ ?_
      | with_reducible refine keep_readMem _ _ ?_
      | with_reducible refine Keeps.of1 ‹_› ?_
      | with_reducible refine Keeps.of2 ‹_› ?_
      | split
      | with_reducible refine Keeps.same ?_ rfl
      | dsimp only)
  | p :: t, s, h => by
    unfold apRead
    try dsimp only
    repeat' (first
      | with_reducible assumption
      | with_reducible refine keep_apRead _ _ ?_
      | with_reducible refine keep_orReg _ _ _ _ ?_
      | with_reducible refine keep_send _ ?_
      | with_reducible refine keep_sticky _ _ _ _ _ ?_
      | with_reducible refine keep_readMem _ _ ?_
      | with_reducible refine Keeps.of1 ‹_› ?_
      | with_reducible refine Keeps.of2 ‹_› ?_
      | split
      | with_reducible refine Keeps.same ?_ rfl
      | dsimp only)

theorem keep_putLines {a : State} : ∀ (y0 : Nat) (y1 : Nat) (y2 : Bytes) {s : State}, Keeps a s → Keeps a (putLines y0 y1 y2 s)
  | 0, _, _, s, h => by
    unfold putLines
    try dsimp only
    repeat' (first
      | with_reducible assumption
      | with_reducible refine keep_putLines _ _ _ ?_
      | with_reducible refine keep_storeWhole _ _ ?_
      | with_reducible refine Keeps.of1 ‹_› ?_
      | with_reducible refine Keeps.of2 ‹_› ?_
      | split
      | with_reducible refine Keeps.same ?_ rfl
      | dsimp only)
  | f + 1, a', bs, s, h => by
    unfold putLines
    try dsimp only
    repeat' (first
      | with_reducible assumption
      | with_reducible refine keep_putLines _ _ _ ?_
      | with_reducible refine keep_storeWhole _ _ ?_
      | with_reducible refine Keeps.of1 ‹_› ?_
      | with_reducible refine Keeps.of2 ‹_› ?_
      | split
      | with_reducible refine Keeps.same ?_ rfl
      | dsimp only)

theorem keep_apWrite (fn : Nat) {a : State} : ∀ (y0 : List ApPart) (y1 : Bytes) {s : State}, Keeps a s → Keeps a (apWrite fn y0 y1 s)
  | [], _, s, h => by
    unfold apWrite
    try dsimp only
    repeat' (first
      | with_reducible assumption
      | with_reducible refine keep_apWrite _ _ _ ?_
      | with_reducible refine keep_orReg _ _ _ _ ?_
      | with_reducible refine keep_putLines _ _ _ ?_
      | with_reducible refine Keeps.of1 ‹_› ?_
      | with_reducible refine Keeps.of2 ‹_› ?_
      | split
      | with_reducible refine Keeps.same ?_ rfl
      | dsimp only)
  | p :: t, bs, s, h => by
    unfold apWrite
    try dsimp only
    repeat' (first
      | with_reducible assumption
      | with_reducible refine keep_apWrite _ _ _ ?_
      | with_reducible refine keep_orReg _ _ _ _ ?_
      | with_reducible refine keep_putLines _ _ _ ?_
      | with_reducible refine Keeps.of1 ‹_› ?_
      | with_reducible refine Keeps.of2 ‹_› ?_
      | split
      | with_reducible refine Keeps.same ?_ rfl
      | dsimp only)

theorem keep_execBar2Read (p : Nat) (v : Nat) (off : Nat) (len : Nat) {s s' : State} (h : execBar2Read p v off len s = .next s') : Keeps s s' := by
  unfold execBar2Read at h
  refine keep_run (fun s h => ?_) h
  try dsimp only
  repeat' (first
    | with_reducible assumption
    | with_reducible refine keep_send _ ?_
    | with_reducible refine keep_wakeSpan _ _ ?_
    | with_reducible refine keep_apRead _ _ ?_
    | with_reducible refine Keeps.of1 ‹_› ?_
    | with_reducible refine Keeps.of2 ‹_› ?_
    | split
    | with_reducible refine Keeps.same ?_ rfl
    | dsimp only)

theorem keep_execBar2Write (p : Nat) (v : Nat) (off : Nat) (data : Bytes) {s s' : State} (h : execBar2Write p v off data s = .next s') : Keeps s s' := by
  unfold execBar2Write at h
  refine keep_run (fun s h => ?_) h
  try dsimp only
  repeat' (first
    | with_reducible assumption
    | with_reducible refine keep_wakeSpan _ _ ?_
    | with_reducible refine keep_apWrite _ _ _ ?_
    | with_reducible refine Keeps.of1 ‹_› ?_
    | with_reducible refine Keeps.of2 ‹_› ?_
    | split
    | with_reducible refine Keeps.same ?_ rfl
    | dsimp only)

theorem keep_xlatWrite (i : Nat) (e : Nat) (v : Nat) {a s : State} (h : Keeps a s) : Keeps a (xlatWrite i e v s) := by
  unfold xlatWrite
  try dsimp only
  repeat' (first
    | with_reducible assumption
    | with_reducible refine keep_orReg _ _ _ _ ?_
    | with_reducible refine keep_setHost _ _ ?_
    | with_reducible refine Keeps.of1 ‹_› ?_
    | with_reducible refine Keeps.of2 ‹_› ?_
    | split
    | with_reducible refine Keeps.same ?_ rfl
    | dsimp only)

theorem keep_execXlatEntryWrite (who : Nat) (i : Nat) (e : Nat) (val : BitVec 64) {s s' : State} (h : execXlatEntryWrite who i e val s = .next s') : Keeps s s' := by
  unfold execXlatEntryWrite at h
  refine keep_run (fun s h => ?_) h
  try dsimp only
  repeat' (first
    | with_reducible assumption
    | with_reducible refine keep_onlyIf _ _ (fun _ h => ?_) ?_
    | with_reducible refine keep_xlatWrite _ _ _ ?_
    | with_reducible refine Keeps.of1 ‹_› ?_
    | with_reducible refine Keeps.of2 ‹_› ?_
    | split
    | with_reducible refine Keeps.same ?_ rfl
    | dsimp only)

theorem keep_flushMsix (fn : Nat) {a s : State} (h : Keeps a s) : Keeps a (flushMsix fn s) := by
  unfold flushMsix
  try dsimp only
  repeat' (first
    | with_reducible assumption
    | with_reducible refine keep_send _ ?_
    | with_reducible refine keep_setHost _ _ ?_
    | with_reducible refine Keeps.foldl (fun s x h => ?_) _ ?_
    | with_reducible refine Keeps.of1 ‹_› ?_
    | with_reducible refine Keeps.of2 ‹_› ?_
    | split
    | with_reducible refine Keeps.same ?_ rfl
    | dsimp only)

theorem keep_execMsiXUnmask (i : Nat) (vec : Nat) {s s' : State} (h : execMsiXUnmask i vec s = .next s') : Keeps s s' := by
  unfold execMsiXUnmask at h
  refine keep_run (fun s h => ?_) h
  try dsimp only
  repeat' (first
    | with_reducible assumption
    | with_reducible refine keep_setHost _ _ ?_
    | with_reducible refine keep_flushMsix _ ?_
    | with_reducible refine Keeps.of1 ‹_› ?_
    | with_reducible refine Keeps.of2 ‹_› ?_
    | split
    | with_reducible refine Keeps.same ?_ rfl
    | dsimp only)

theorem keep_execBusMasterEnableChange (i : Nat) (on : Bool) {s s' : State} (h : execBusMasterEnableChange i on s = .next s') : Keeps s s' := by
  unfold execBusMasterEnableChange at h
  refine keep_run (fun s h => ?_) h
  try dsimp only
  repeat' (first
    | with_reducible assumption
    | with_reducible refine keep_setHost _ _ ?_
    | with_reducible refine keep_flushMsix _ ?_
    | with_reducible refine Keeps.of1 ‹_› ?_
    | with_reducible refine Keeps.of2 ‹_› ?_
    | split
    | with_reducible refine Keeps.same ?_ rfl
    | dsimp only)

theorem keep_execMemorySpaceEnableChange (i : Nat) (on : Bool) {s s' : State} (h : execMemorySpaceEnableChange i on s = .next s') : Keeps s s' := by
  unfold execMemorySpaceEnableChange at h
  refine keep_run (fun s h => ?_) h
  try dsimp only
  repeat' (first
    | with_reducible assumption
    | with_reducible refine keep_setHost _ _ ?_
    | with_reducible refine Keeps.of1 ‹_› ?_
    | with_reducible refine Keeps.of2 ‹_› ?_
    | split
    | with_reducible refine Keeps.same ?_ rfl
    | dsimp only)

theorem keep_setCells (port : Nat) {a : State} : ∀ (a' : Nat) (l : List HCell) {s : State}, Keeps a s → Keeps a (setCells port a' l s)
  | _, [], _, h => h
  | a', c :: t, _, h => by
    unfold setCells
    exact keep_setCells port (a' + 1) t (h.hosted (twf_tput _ _ _))

theorem keep_execUpstreamCompletion (i : Replayed) (addr : Nat) (data : Bytes) (ok : Bool) {s s' : State} (h : execUpstreamCompletion i addr data ok s = .next s') : Keeps s s' := by
  unfold execUpstreamCompletion at h
  refine keep_run (fun s h => ?_) h
  try dsimp only
  repeat' (first
    | with_reducible assumption
    | with_reducible refine keep_count _ _ _ _ ?_
    | with_reducible refine keep_countTv _ _ ?_
    | with_reducible refine keep_setHost _ _ ?_
    | with_reducible refine keep_setCells _ _ _ ?_
    | with_reducible refine Keeps.of1 ‹_› ?_
    | with_reducible refine Keeps.of2 ‹_› ?_
    | split
    | with_reducible refine Keeps.same ?_ rfl
    | dsimp only)

theorem keep_execUpstreamTimeout (i : Nat) (addr : Nat) (len : Nat) {s s' : State} (h : execUpstreamTimeout i addr len s = .next s') : Keeps s s' := by
  unfold execUpstreamTimeout at h
  refine keep_run (fun s h => ?_) h
  try dsimp only
  repeat' (first
    | with_reducible assumption
    | with_reducible refine keep_setHost _ _ ?_
    | with_reducible refine keep_setCells _ _ _ ?_
    | with_reducible refine Keeps.of1 ‹_› ?_
    | with_reducible refine Keeps.of2 ‹_› ?_
    | split
    | with_reducible refine Keeps.same ?_ rfl
    | dsimp only)

theorem keep_configReset (fn : Nat) {a s : State} (h : Keeps a s) : Keeps a (configReset fn s) := by
  unfold configReset
  try dsimp only
  repeat' (first
    | with_reducible assumption
    | with_reducible refine keep_setHost _ _ ?_
    | with_reducible refine Keeps.of1 ‹_› ?_
    | with_reducible refine Keeps.of2 ‹_› ?_
    | split
    | with_reducible refine Keeps.same ?_ rfl
    | dsimp only)

theorem keep_hostLinkLost (p : Nat) {a s : State} (h : Keeps a s) : Keeps a (hostLinkLost p s) := by
  unfold hostLinkLost
  try dsimp only
  repeat' (first
    | with_reducible assumption
    | with_reducible refine keep_setReg _ _ _ _ ?_
    | with_reducible refine keep_count _ _ _ _ ?_
    | with_reducible refine keep_configReset _ ?_
    | with_reducible refine Keeps.foldl (fun s x h => ?_) _ ?_
    | with_reducible refine Keeps.of1 ‹_› ?_
    | with_reducible refine Keeps.of2 ‹_› ?_
    | split
    | with_reducible refine Keeps.same ?_ rfl
    | dsimp only)

theorem keep_execDlDown (p : Nat) {s s' : State} (h : execDlDown p s = .next s') : Keeps s s' := by
  unfold execDlDown at h
  refine keep_run (fun s h => ?_) h
  try dsimp only
  repeat' (first
    | with_reducible assumption
    | with_reducible refine keep_onlyIf _ _ (fun _ h => ?_) ?_
    | with_reducible refine keep_hostLinkLost _ ?_
    | with_reducible refine Keeps.of1 ‹_› ?_
    | with_reducible refine Keeps.of2 ‹_› ?_
    | split
    | with_reducible refine Keeps.same ?_ rfl
    | dsimp only)

theorem keep_execPcieLinkUp (p : Nat) (speed : Nat) (width : Nat) {s s' : State} (h : execPcieLinkUp p speed width s = .next s') : Keeps s s' := by
  unfold execPcieLinkUp at h
  refine keep_run (fun s h => ?_) h
  try dsimp only
  repeat' (first
    | with_reducible assumption
    | with_reducible refine keep_onlyIf _ _ (fun _ h => ?_) ?_
    | with_reducible refine keep_setReg _ _ _ _ ?_
    | with_reducible refine Keeps.of1 ‹_› ?_
    | with_reducible refine Keeps.of2 ‹_› ?_
    | split
    | with_reducible refine Keeps.same ?_ rfl
    | dsimp only)

theorem keep_execPcieConfigRequest (p : Nat) {s s' : State} (h : execPcieConfigRequest p s = .next s') : Keeps s s' := by
  unfold execPcieConfigRequest at h
  refine keep_run (fun s h => ?_) h
  try dsimp only
  repeat' (first
    | with_reducible assumption
    | with_reducible refine keep_onlyIf _ _ (fun _ h => ?_) ?_
    | with_reducible refine keep_send _ ?_
    | with_reducible refine Keeps.of1 ‹_› ?_
    | with_reducible refine Keeps.of2 ‹_› ?_
    | split
    | with_reducible refine Keeps.same ?_ rfl
    | dsimp only)

theorem keep_execPerstChange (p : Nat) (high : Bool) {s s' : State} (h : execPerstChange p high s = .next s') : Keeps s s' := by
  unfold execPerstChange at h
  refine keep_run (fun s h => ?_) h
  try dsimp only
  repeat' (first
    | with_reducible assumption
    | with_reducible refine keep_hostLinkLost _ ?_
    | with_reducible refine Keeps.of1 ‹_› ?_
    | with_reducible refine Keeps.of2 ‹_› ?_
    | split
    | with_reducible refine Keeps.same ?_ rfl
    | dsimp only)

theorem keep_tenPortWrite (v : Nat) {a s : State} (h : Keeps a s) : Keeps a (tenPortWrite v s) := by
  unfold tenPortWrite
  try dsimp only
  repeat' (first
    | with_reducible assumption
    | with_reducible refine keep_setReg _ _ _ _ ?_
    | with_reducible refine keep_orReg _ _ _ _ ?_
    | with_reducible refine Keeps.of1 ‹_› ?_
    | with_reducible refine Keeps.of2 ‹_› ?_
    | split
    | with_reducible refine Keeps.same ?_ rfl
    | dsimp only)

theorem keep_execTenPortWrite (who : Nat) (val : Word) {s s' : State} (h : execTenPortWrite who val s = .next s') : Keeps s s' := by
  unfold execTenPortWrite at h
  refine keep_run (fun s h => ?_) h
  try dsimp only
  repeat' (first
    | with_reducible assumption
    | with_reducible refine keep_onlyIf _ _ (fun _ h => ?_) ?_
    | with_reducible refine keep_tenPortWrite _ ?_
    | with_reducible refine Keeps.of1 ‹_› ?_
    | with_reducible refine Keeps.of2 ‹_› ?_
    | split
    | with_reducible refine Keeps.same ?_ rfl
    | dsimp only)

end Sys2Proof.Machine
end

