-- ==== Sys2Proof/Laws/KeepDeterminism.lean ====
section
/-! SUPPORT. What the operations of Machine/Determinism.lean keep: soundness, the queue, the draws, the wire. -/
namespace Sys2Proof.Machine

open Sys2Proof

theorem keep_detWrite (who : Nat) (t : Nat) (v : Nat) {a s : State} (h : Keeps a s) : Keeps a (detWrite who t v s) := by
  unfold detWrite
  try dsimp only
  repeat' (first
    | with_reducible assumption
    | with_reducible refine keep_setField _ _ _ _ _ _ ?_
    | with_reducible refine Keeps.of1 ‹_› ?_
    | with_reducible refine Keeps.of2 ‹_› ?_
    | split
    | with_reducible refine Keeps.same ?_ rfl
    | dsimp only)

theorem keep_execStrictWrite (who : Nat) (t : Nat) (val : Word) {s s' : State} (h : execStrictWrite who t val s = .next s') : Keeps s s' := by
  unfold execStrictWrite at h
  refine keep_run (fun s h => ?_) h
  try dsimp only
  repeat' (first
    | with_reducible assumption
    | with_reducible refine keep_onlyIf _ _ (fun _ h => ?_) ?_
    | with_reducible refine keep_detWrite _ _ _ ?_
    | with_reducible refine Keeps.of1 ‹_› ?_
    | with_reducible refine Keeps.of2 ‹_› ?_
    | split
    | with_reducible refine Keeps.same ?_ rfl
    | dsimp only)

theorem keep_execStrictLockWrite (who : Nat) (t : Nat) (val : Word) {s s' : State} (h : execStrictLockWrite who t val s = .next s') : Keeps s s' := by
  unfold execStrictLockWrite at h
  refine keep_run (fun s h => ?_) h
  try dsimp only
  repeat' (first
    | with_reducible assumption
    | with_reducible refine keep_onlyIf _ _ (fun _ h => ?_) ?_
    | with_reducible refine keep_detWrite _ _ _ ?_
    | with_reducible refine Keeps.of1 ‹_› ?_
    | with_reducible refine Keeps.of2 ‹_› ?_
    | split
    | with_reducible refine Keeps.same ?_ rfl
    | dsimp only)

end Sys2Proof.Machine
end

