-- ==== Sys2Proof/Laws/KeepSeam.lean ====
section
/-! SUPPORT. What the operations of Machine/Seam.lean keep: soundness, the queue, the draws, the wire. -/
namespace Sys2Proof.Machine

open Sys2Proof

theorem keep_execSeamDataFlit (l : Nat) (fec : Bool) (flit : Bytes) {s s' : State} (h : execSeamDataFlit l fec flit s = .next s') : Keeps s s' := by
  unfold execSeamDataFlit at h
  refine keep_run (fun s h => ?_) h
  try dsimp only
  repeat' (first
    | with_reducible assumption
    | with_reducible refine keep_onlyIf _ _ (fun _ h => ?_) ?_
    | with_reducible refine keep_count _ _ _ _ ?_
    | with_reducible refine keep_setLink _ _ ?_
    | with_reducible refine keep_sendCtrl _ _ ?_
    | with_reducible refine keep_ctrlSlot _ ?_
    | with_reducible refine Keeps.of1 ‹_› ?_
    | with_reducible refine Keeps.of2 ‹_› ?_
    | split
    | with_reducible refine Keeps.same ?_ rfl
    | dsimp only)

theorem keep_startRetrain (l : Nat) {a s : State} (h : Keeps a s) : Keeps a (startRetrain l s) := by
  unfold startRetrain
  try dsimp only
  repeat' (first
    | with_reducible assumption
    | with_reducible refine keep_count _ _ _ _ ?_
    | with_reducible refine keep_countTv _ _ ?_
    | with_reducible refine keep_setLink _ _ ?_
    | with_reducible refine keep_bundleGo _ ?_
    | with_reducible refine Keeps.of1 ‹_› ?_
    | with_reducible refine Keeps.of2 ‹_› ?_
    | split
    | with_reducible refine Keeps.same ?_ rfl
    | dsimp only)

theorem keep_resend (l : Nat) (seq : Nat) {a s : State} (h : Keeps a s) : Keeps a (resend l seq s) := by
  unfold resend
  try dsimp only
  repeat' (first
    | with_reducible assumption
    | with_reducible refine keep_send _ ?_
    | with_reducible refine keep_setLink _ _ ?_
    | with_reducible refine Keeps.foldl (fun s x h => ?_) _ ?_
    | with_reducible refine Keeps.of1 ‹_› ?_
    | with_reducible refine Keeps.of2 ‹_› ?_
    | split
    | with_reducible refine Keeps.same ?_ rfl
    | dsimp only)

theorem keep_ackFlits (l : Nat) (seq : Nat) {a s : State} (h : Keeps a s) : Keeps a (ackFlits l seq s) := by
  unfold ackFlits
  try dsimp only
  repeat' (first
    | with_reducible assumption
    | with_reducible refine keep_setLink _ _ ?_
    | with_reducible refine Keeps.of1 ‹_› ?_
    | with_reducible refine Keeps.of2 ‹_› ?_
    | split
    | with_reducible refine Keeps.same ?_ rfl
    | dsimp only)

theorem keep_execSeamCtrlFlit (l : Nat) (flit : CtrlFlit) {s s' : State} (h : execSeamCtrlFlit l flit s = .next s') : Keeps s s' := by
  unfold execSeamCtrlFlit at h
  refine keep_run (fun s h => ?_) h
  try dsimp only
  repeat' (first
    | with_reducible assumption
    | with_reducible refine keep_onlyIf _ _ (fun _ h => ?_) ?_
    | with_reducible refine keep_count _ _ _ _ ?_
    | with_reducible refine keep_countTv _ _ ?_
    | with_reducible refine keep_setLink _ _ ?_
    | with_reducible refine keep_ctrlSlot _ ?_
    | with_reducible refine keep_linkGo _ ?_
    | with_reducible refine keep_bundlesGo ?_
    | with_reducible refine keep_startRetrain _ ?_
    | with_reducible refine keep_resend _ _ ?_
    | with_reducible refine keep_ackFlits _ _ ?_
    | with_reducible refine Keeps.of1 ‹_› ?_
    | with_reducible refine Keeps.of2 ‹_› ?_
    | split
    | with_reducible refine Keeps.same ?_ rfl
    | dsimp only)

theorem keep_execSeamAckTimeout (l : Nat) {s s' : State} (h : execSeamAckTimeout l s = .next s') : Keeps s s' := by
  unfold execSeamAckTimeout at h
  refine keep_run (fun s h => ?_) h
  try dsimp only
  repeat' (first
    | with_reducible assumption
    | with_reducible refine keep_onlyIf _ _ (fun _ h => ?_) ?_
    | with_reducible refine keep_startRetrain _ ?_
    | with_reducible refine Keeps.of1 ‹_› ?_
    | with_reducible refine Keeps.of2 ‹_› ?_
    | split
    | with_reducible refine Keeps.same ?_ rfl
    | dsimp only)

theorem keep_execSeamLaneFault (l : Nat) {s s' : State} (h : execSeamLaneFault l s = .next s') : Keeps s s' := by
  unfold execSeamLaneFault at h
  refine keep_run (fun s h => ?_) h
  try dsimp only
  repeat' (first
    | with_reducible assumption
    | with_reducible refine keep_onlyIf _ _ (fun _ h => ?_) ?_
    | with_reducible refine keep_startRetrain _ ?_
    | with_reducible refine Keeps.of1 ‹_› ?_
    | with_reducible refine Keeps.of2 ‹_› ?_
    | split
    | with_reducible refine Keeps.same ?_ rfl
    | dsimp only)

theorem keep_execSeamSerWindow (l : Nat) {s s' : State} (h : execSeamSerWindow l s = .next s') : Keeps s s' := by
  unfold execSeamSerWindow at h
  refine keep_run (fun s h => ?_) h
  try dsimp only
  repeat' (first
    | with_reducible assumption
    | with_reducible refine keep_onlyIf _ _ (fun _ h => ?_) ?_
    | with_reducible refine keep_startRetrain _ ?_
    | with_reducible refine Keeps.of1 ‹_› ?_
    | with_reducible refine Keeps.of2 ‹_› ?_
    | split
    | with_reducible refine Keeps.same ?_ rfl
    | dsimp only)

theorem keep_execSeamRetrainWrite (who : Nat) (l : Nat) (val : Word) {s s' : State} (h : execSeamRetrainWrite who l val s = .next s') : Keeps s s' := by
  unfold execSeamRetrainWrite at h
  refine keep_run (fun s h => ?_) h
  try dsimp only
  repeat' (first
    | with_reducible assumption
    | with_reducible refine keep_onlyIf _ _ (fun _ h => ?_) ?_
    | with_reducible refine keep_devInst _ _ _ (fun _ h => ?_) ?_
    | with_reducible refine keep_startRetrain _ ?_
    | with_reducible refine Keeps.of1 ‹_› ?_
    | with_reducible refine Keeps.of2 ‹_› ?_
    | split
    | with_reducible refine Keeps.same ?_ rfl
    | dsimp only)

theorem keep_rewiden (l : Nat) {a s : State} (h : Keeps a s) : Keeps a (rewiden l s) := by
  unfold rewiden
  try dsimp only
  repeat' (first
    | with_reducible assumption
    | with_reducible refine keep_setLink _ _ ?_
    | with_reducible refine keep_startRetrain _ ?_
    | with_reducible refine Keeps.of1 ‹_› ?_
    | with_reducible refine Keeps.of2 ‹_› ?_
    | split
    | with_reducible refine Keeps.same ?_ rfl
    | dsimp only)

theorem keep_execSeamRewidenWrite (who : Nat) (l : Nat) (val : Word) {s s' : State} (h : execSeamRewidenWrite who l val s = .next s') : Keeps s s' := by
  unfold execSeamRewidenWrite at h
  refine keep_run (fun s h => ?_) h
  try dsimp only
  repeat' (first
    | with_reducible assumption
    | with_reducible refine keep_onlyIf _ _ (fun _ h => ?_) ?_
    | with_reducible refine keep_devInst _ _ _ (fun _ h => ?_) ?_
    | with_reducible refine keep_rewiden _ ?_
    | with_reducible refine Keeps.of1 ‹_› ?_
    | with_reducible refine Keeps.of2 ‹_› ?_
    | split
    | with_reducible refine Keeps.same ?_ rfl
    | dsimp only)

theorem keep_startTraining (l : Nat) (cable : Bytes) {a s : State} (h : Keeps a s) : Keeps a (startTraining l cable s) := by
  unfold startTraining
  try dsimp only
  repeat' (first
    | with_reducible assumption
    | with_reducible refine keep_sticky _ _ _ _ _ ?_
    | with_reducible refine keep_setLink _ _ ?_
    | with_reducible refine Keeps.of1 ‹_› ?_
    | with_reducible refine Keeps.of2 ‹_› ?_
    | split
    | with_reducible refine Keeps.same ?_ rfl
    | dsimp only)

theorem keep_linkStop (l : Nat) (st : LinkSt) {a s : State} (h : Keeps a s) : Keeps a (linkStop l st s) := by
  unfold linkStop
  try dsimp only
  repeat' (first
    | with_reducible assumption
    | with_reducible refine keep_setReg _ _ _ _ ?_
    | with_reducible refine keep_setLink _ _ ?_
    | with_reducible refine keep_linkLost _ ?_
    | with_reducible refine keep_markDown _ ?_
    | with_reducible refine Keeps.of1 ‹_› ?_
    | with_reducible refine Keeps.of2 ‹_› ?_
    | split
    | with_reducible refine Keeps.same ?_ rfl
    | dsimp only)

theorem keep_execSeamEnableWrite (who : Nat) (l : Nat) (val : Word) (cable : Bytes) {s s' : State} (h : execSeamEnableWrite who l val cable s = .next s') : Keeps s s' := by
  unfold execSeamEnableWrite at h
  refine keep_run (fun s h => ?_) h
  try dsimp only
  repeat' (first
    | with_reducible assumption
    | with_reducible refine keep_onlyIf _ _ (fun _ h => ?_) ?_
    | with_reducible refine keep_setReg _ _ _ _ ?_
    | with_reducible refine keep_devInst _ _ _ (fun _ h => ?_) ?_
    | with_reducible refine keep_startTraining _ _ ?_
    | with_reducible refine keep_linkStop _ _ ?_
    | with_reducible refine Keeps.of1 ‹_› ?_
    | with_reducible refine Keeps.of2 ‹_› ?_
    | split
    | with_reducible refine Keeps.same ?_ rfl
    | dsimp only)

theorem keep_linkDown (l : Nat) {a s : State} (h : Keeps a s) : Keeps a (linkDown l s) := by
  unfold linkDown
  try dsimp only
  repeat' (first
    | with_reducible assumption
    | with_reducible refine keep_sticky _ _ _ _ _ ?_
    | with_reducible refine keep_setLink _ _ ?_
    | with_reducible refine keep_linkStop _ _ ?_
    | with_reducible refine Keeps.of1 ‹_› ?_
    | with_reducible refine Keeps.of2 ‹_› ?_
    | split
    | with_reducible refine Keeps.same ?_ rfl
    | dsimp only)

theorem keep_setLanes (l : Nat) (m : Nat) {a s : State} (h : Keeps a s) : Keeps a (setLanes l m s) := by
  unfold setLanes
  try dsimp only
  repeat' (first
    | with_reducible assumption
    | with_reducible refine keep_orReg _ _ _ _ ?_
    | with_reducible refine keep_setLink _ _ ?_
    | with_reducible refine Keeps.of1 ‹_› ?_
    | with_reducible refine Keeps.of2 ‹_› ?_
    | split
    | with_reducible refine Keeps.same ?_ rfl
    | dsimp only)

theorem keep_execSeamTrained (l : Nat) (lanes : Nat) {s s' : State} (h : execSeamTrained l lanes s = .next s') : Keeps s s' := by
  unfold execSeamTrained at h
  refine keep_run (fun s h => ?_) h
  try dsimp only
  repeat' (first
    | with_reducible assumption
    | with_reducible refine keep_send _ ?_
    | with_reducible refine keep_setLink _ _ ?_
    | with_reducible refine keep_linkGo _ ?_
    | with_reducible refine keep_bundlesGo ?_
    | with_reducible refine keep_markUp _ ?_
    | with_reducible refine keep_resend _ _ ?_
    | with_reducible refine keep_setLanes _ _ ?_
    | with_reducible refine Keeps.of1 ‹_› ?_
    | with_reducible refine Keeps.of2 ‹_› ?_
    | split
    | with_reducible refine Keeps.same ?_ rfl
    | dsimp only)

theorem keep_execSeamCheckDone (l : Nat) (peer : SeamIdent) {s s' : State} (h : execSeamCheckDone l peer s = .next s') : Keeps s s' := by
  unfold execSeamCheckDone at h
  refine keep_run (fun s h => ?_) h
  try dsimp only
  repeat' (first
    | with_reducible assumption
    | with_reducible refine keep_onlyIf _ _ (fun _ h => ?_) ?_
    | with_reducible refine keep_setReg _ _ _ _ ?_
    | with_reducible refine keep_sticky _ _ _ _ _ ?_
    | with_reducible refine keep_setLink _ _ ?_
    | with_reducible refine keep_markUp _ ?_
    | with_reducible refine keep_linkDown _ ?_
    | with_reducible refine Keeps.of1 ‹_› ?_
    | with_reducible refine Keeps.of2 ‹_› ?_
    | split
    | with_reducible refine Keeps.same ?_ rfl
    | dsimp only)

theorem keep_execSeamTrainTimeout (l : Nat) {s s' : State} (h : execSeamTrainTimeout l s = .next s') : Keeps s s' := by
  unfold execSeamTrainTimeout at h
  refine keep_run (fun s h => ?_) h
  try dsimp only
  repeat' (first
    | with_reducible assumption
    | with_reducible refine keep_onlyIf _ _ (fun _ h => ?_) ?_
    | with_reducible refine keep_setLink _ _ ?_
    | with_reducible refine keep_linkDown _ ?_
    | with_reducible refine Keeps.of1 ‹_› ?_
    | with_reducible refine Keeps.of2 ‹_› ?_
    | split
    | with_reducible refine Keeps.same ?_ rfl
    | dsimp only)

theorem keep_execSeamRetrainTimeout (l : Nat) {s s' : State} (h : execSeamRetrainTimeout l s = .next s') : Keeps s s' := by
  unfold execSeamRetrainTimeout at h
  refine keep_run (fun s h => ?_) h
  try dsimp only
  repeat' (first
    | with_reducible assumption
    | with_reducible refine keep_onlyIf _ _ (fun _ h => ?_) ?_
    | with_reducible refine keep_linkDown _ ?_
    | with_reducible refine Keeps.of1 ‹_› ?_
    | with_reducible refine Keeps.of2 ‹_› ?_
    | split
    | with_reducible refine Keeps.same ?_ rfl
    | dsimp only)

theorem keep_execSeamRetryInterval (l : Nat) (cable : Bytes) {s s' : State} (h : execSeamRetryInterval l cable s = .next s') : Keeps s s' := by
  unfold execSeamRetryInterval at h
  refine keep_run (fun s h => ?_) h
  try dsimp only
  repeat' (first
    | with_reducible assumption
    | with_reducible refine keep_onlyIf _ _ (fun _ h => ?_) ?_
    | with_reducible refine keep_startTraining _ _ ?_
    | with_reducible refine Keeps.of1 ‹_› ?_
    | with_reducible refine Keeps.of2 ‹_› ?_
    | split
    | with_reducible refine Keeps.same ?_ rfl
    | dsimp only)

theorem keep_contribLand (c : Contrib) {a s : State} (h : Keeps a s) : Keeps a (contribLand c s) := by
  unfold contribLand
  try dsimp only
  repeat' (first
    | with_reducible assumption
    | with_reducible refine keep_setComm _ _ ?_
    | with_reducible refine keep_workGo ?_
    | with_reducible refine Keeps.of1 ‹_› ?_
    | with_reducible refine Keeps.of2 ‹_› ?_
    | split
    | with_reducible refine Keeps.same ?_ rfl
    | dsimp only)

theorem keep_execSeamTransaction (l : Nat) (seq : Nat) (m : SeamMsg) {s s' : State} (h : execSeamTransaction l seq m s = .next s') : Keeps s s' := by
  unfold execSeamTransaction at h
  refine keep_run (fun s h => ?_) h
  try dsimp only
  repeat' (first
    | with_reducible assumption
    | with_reducible refine keep_onlyIf _ _ (fun _ h => ?_) ?_
    | with_reducible refine keep_writeMem _ _ ?_
    | with_reducible refine keep_wakeDeep ?_
    | with_reducible refine keep_wakeSpan _ _ ?_
    | with_reducible refine keep_setBundle _ _ ?_
    | with_reducible refine keep_linkOut _ _ ?_
    | with_reducible refine keep_remoteApply _ _ _ _ _ ?_
    | with_reducible refine keep_moveLanded _ _ _ ?_
    | with_reducible refine keep_workGo ?_
    | with_reducible refine keep_contribLand _ ?_
    | with_reducible refine Keeps.of1 ‹_› ?_
    | with_reducible refine Keeps.of2 ‹_› ?_
    | split
    | with_reducible refine Keeps.same ?_ rfl
    | dsimp only)

theorem keep_execSeamTransactionAck (peer : Nat) (seq : Nat) (st : Nat) {s s' : State} (h : execSeamTransactionAck peer seq st s = .next s') : Keeps s s' := by
  unfold execSeamTransactionAck at h
  refine keep_run (fun s h => ?_) h
  try dsimp only
  repeat' (first
    | with_reducible assumption
    | with_reducible refine keep_setBundle _ _ ?_
    | with_reducible refine keep_bundleGo _ ?_
    | with_reducible refine keep_workGo ?_
    | with_reducible refine Keeps.of1 ‹_› ?_
    | with_reducible refine Keeps.of2 ‹_› ?_
    | split
    | with_reducible refine Keeps.same ?_ rfl
    | dsimp only)

theorem keep_txsLost (l : List SeamTx) {a s : State} (h : Keeps a s) : Keeps a (txsLost l s) := by
  unfold txsLost
  try dsimp only
  repeat' (first
    | with_reducible assumption
    | with_reducible refine keep_remoteLost _ ?_
    | with_reducible refine keep_workGo ?_
    | with_reducible refine Keeps.foldl (fun s x h => ?_) _ ?_
    | with_reducible refine Keeps.of1 ‹_› ?_
    | with_reducible refine Keeps.of2 ‹_› ?_
    | split
    | with_reducible refine Keeps.same ?_ rfl
    | dsimp only)

theorem keep_execSeamBundleTimeout (peer : Nat) {s s' : State} (h : execSeamBundleTimeout peer s = .next s') : Keeps s s' := by
  unfold execSeamBundleTimeout at h
  refine keep_run (fun s h => ?_) h
  try dsimp only
  repeat' (first
    | with_reducible assumption
    | with_reducible refine keep_setBundle _ _ ?_
    | with_reducible refine keep_bundleGo _ ?_
    | with_reducible refine keep_txsLost _ ?_
    | with_reducible refine Keeps.of1 ‹_› ?_
    | with_reducible refine Keeps.of2 ‹_› ?_
    | split
    | with_reducible refine Keeps.same ?_ rfl
    | dsimp only)

theorem keep_execCollectiveContribution (c : Contrib) {s s' : State} (h : execCollectiveContribution c s = .next s') : Keeps s s' := by
  unfold execCollectiveContribution at h
  refine keep_run (fun s h => ?_) h
  try dsimp only
  repeat' (first
    | with_reducible assumption
    | with_reducible refine keep_onlyIf _ _ (fun _ h => ?_) ?_
    | with_reducible refine keep_contribLand _ ?_
    | with_reducible refine Keeps.of1 ‹_› ?_
    | with_reducible refine Keeps.of2 ‹_› ?_
    | split
    | with_reducible refine Keeps.same ?_ rfl
    | dsimp only)

theorem keep_execTbSkewSample (l : Nat) {s s' : State} (h : execTbSkewSample l s = .next s') : Keeps s s' := by
  unfold execTbSkewSample at h
  refine keep_run (fun s h => ?_) h
  try dsimp only
  repeat' (first
    | with_reducible assumption
    | with_reducible refine keep_onlyIf _ _ (fun _ h => ?_) ?_
    | with_reducible refine keep_setReg _ _ _ _ ?_
    | with_reducible refine keep_orReg _ _ _ _ ?_
    | with_reducible refine keep_raise _ _ _ _ _ ?_
    | with_reducible refine keep_setLink _ _ ?_
    | with_reducible refine Keeps.of1 ‹_› ?_
    | with_reducible refine Keeps.of2 ‹_› ?_
    | split
    | with_reducible refine Keeps.same ?_ rfl
    | dsimp only)

theorem keep_execRemoteSignalSend  {s s' : State} (h : execRemoteSignalSend s = .next s') : Keeps s s' := by
  unfold execRemoteSignalSend at h
  refine keep_run (fun s h => ?_) h
  try dsimp only
  repeat' (first
    | with_reducible assumption
    | with_reducible refine keep_seamSend _ _ _ _ _ ?_
    | with_reducible refine keep_ftStart _ ?_
    | with_reducible refine Keeps.of1 ‹_› ?_
    | with_reducible refine Keeps.of2 ‹_› ?_
    | split
    | with_reducible refine Keeps.same ?_ rfl
    | dsimp only)

end Sys2Proof.Machine
end

