-- ==== Sys2Proof/Laws/KeepReset.lean ====
section
/-! SUPPORT. What the operations of Machine/Reset.lean keep: soundness, the queue, the draws, the wire. -/
namespace Sys2Proof.Machine

open Sys2Proof

theorem keep_resetWhere (p : Reg → Nat → Nat → Bool) {a s : State} (h : Keeps a s) : Keeps a (resetWhere p s) := h.dropRegs _

theorem keep_emptyPath (p : Nat) {a s : State} (h : Keeps a s) : Keeps a (emptyPath p s) := by
  unfold emptyPath
  exact keep_flushPath _ (keep_count _ _ _ _ (keep_setPath _ _ h fun _ => Nat.zero_le _))

theorem keep_netTenantReset (t : Nat) {a s : State} (h : Keeps a s) : Keeps a (netTenantReset t s) := by
  unfold netTenantReset
  try dsimp only
  repeat' (first
    | with_reducible assumption
    | with_reducible refine keep_dropWaiting _ ?_
    | with_reducible refine Keeps.foldl (fun s x h => ?_) _ ?_
    | with_reducible refine Keeps.of1 ‹_› ?_
    | with_reducible refine Keeps.of2 ‹_› ?_
    | split
    | with_reducible refine Keeps.same ?_ rfl
    | dsimp only)

theorem keep_ckptTenantReset (t : Nat) {a s : State} (h : Keeps a s) : Keeps a (ckptTenantReset t s) := by
  unfold ckptTenantReset
  try dsimp only
  repeat' (first
    | with_reducible assumption
    | with_reducible refine Keeps.of1 ‹_› ?_
    | with_reducible refine Keeps.of2 ‹_› ?_
    | split
    | with_reducible refine Keeps.same ?_ rfl
    | dsimp only)

theorem keep_tenantReset (t : Nat) {a s : State} (h : Keeps a s) : Keeps a (tenantReset t s) := by
  unfold tenantReset
  try dsimp only
  repeat' (first
    | with_reducible assumption
    | with_reducible refine keep_settleAll ?_
    | with_reducible refine keep_zeroCounters _ ?_
    | with_reducible refine keep_dropTenantWaits _ ?_
    | with_reducible refine keep_stoTenantReset _ ?_
    | with_reducible refine keep_ftTenantReset _ ?_
    | with_reducible refine keep_freeGroup _ ?_
    | with_reducible refine keep_resetCore _ ?_
    | with_reducible refine keep_resetRegs _ _ ?_
    | with_reducible refine keep_resetLode _ ?_
    | with_reducible refine keep_resetWhere _ ?_
    | with_reducible refine keep_emptyPath _ ?_
    | with_reducible refine keep_netTenantReset _ ?_
    | with_reducible refine keep_ckptTenantReset _ ?_
    | with_reducible refine Keeps.foldl (fun s x h => ?_) _ ?_
    | with_reducible refine Keeps.of1 ‹_› ?_
    | with_reducible refine Keeps.of2 ‹_› ?_
    | split
    | with_reducible refine Keeps.same ?_ rfl
    | dsimp only)

theorem keep_fnEnd (i : Nat) (warm : Bool) {a s : State} (h : Keeps a s) : Keeps a (fnEnd i warm s) := by
  unfold fnEnd
  try dsimp only
  repeat' (first
    | with_reducible assumption
    | with_reducible refine keep_count _ _ _ _ ?_
    | with_reducible refine keep_dropCmds _ ?_
    | with_reducible refine keep_cancelCmd _ ?_
    | with_reducible refine Keeps.foldl (fun s x h => ?_) _ ?_
    | with_reducible refine Keeps.of1 ‹_› ?_
    | with_reducible refine Keeps.of2 ‹_› ?_
    | split
    | with_reducible refine Keeps.same ?_ rfl
    | dsimp only)

theorem keep_fnHold (i : Nat) (warm : Bool) {a s : State} (h : Keeps a s) : Keeps a (fnHold i warm s) := by
  unfold fnHold
  try dsimp only
  repeat' (first
    | with_reducible assumption
    | with_reducible refine keep_setHost _ _ ?_
    | with_reducible refine keep_configReset _ ?_
    | with_reducible refine keep_resetWhere _ ?_
    | with_reducible refine Keeps.of1 ‹_› ?_
    | with_reducible refine Keeps.of2 ‹_› ?_
    | split
    | with_reducible refine Keeps.same ?_ rfl
    | dsimp only)

theorem keep_functionReset (i : Nat) {a s : State} (h : Keeps a s) : Keeps a (functionReset i s) := by
  unfold functionReset
  try dsimp only
  repeat' (first
    | with_reducible assumption
    | with_reducible refine keep_holdsChanged ?_
    | with_reducible refine keep_emptyPath _ ?_
    | with_reducible refine keep_tenantReset _ ?_
    | with_reducible refine keep_fnEnd _ _ ?_
    | with_reducible refine keep_fnHold _ _ ?_
    | with_reducible refine Keeps.of1 ‹_› ?_
    | with_reducible refine Keeps.of2 ‹_› ?_
    | split
    | with_reducible refine Keeps.same ?_ rfl
    | dsimp only)

theorem keep_execFunctionLevelReset (i : Nat) {s s' : State} (h : execFunctionLevelReset i s = .next s') : Keeps s s' := by
  unfold execFunctionLevelReset at h
  refine keep_run (fun s h => ?_) h
  try dsimp only
  repeat' (first
    | with_reducible assumption
    | with_reducible refine keep_functionReset _ ?_
    | with_reducible refine Keeps.of1 ‹_› ?_
    | with_reducible refine Keeps.of2 ‹_› ?_
    | split
    | with_reducible refine Keeps.same ?_ rfl
    | dsimp only)

theorem keep_execHostPortReset (p : Nat) {s s' : State} (h : execHostPortReset p s = .next s') : Keeps s s' := by
  unfold execHostPortReset at h
  refine keep_run (fun s h => ?_) h
  try dsimp only
  repeat' (first
    | with_reducible assumption
    | with_reducible refine keep_setReg _ _ _ _ ?_
    | with_reducible refine keep_functionReset _ ?_
    | with_reducible refine Keeps.foldl (fun s x h => ?_) _ ?_
    | with_reducible refine Keeps.of1 ‹_› ?_
    | with_reducible refine Keeps.of2 ‹_› ?_
    | split
    | with_reducible refine Keeps.same ?_ rfl
    | dsimp only)

theorem keep_warmPath (p : Nat) {a s : State} (h : Keeps a s) : Keeps a (warmPath s p) := by
  unfold warmPath
  refine keep_flushPath _ (keep_setPath _ _ (keep_count _ _ _ _ h) fun y => ?_)
  exact Nat.le_trans (List.length_filter_le _ _) (path_len h p y)

theorem keep_warmReset {a s : State} (h : Keeps a s) : Keeps a (warmReset s) := by
  unfold warmReset
  try dsimp only
  repeat' (first
    | with_reducible assumption
    | with_reducible refine keep_setField _ _ _ _ _ _ ?_
    | with_reducible refine keep_resetWhere _ ?_
    | with_reducible refine keep_tenantReset _ ?_
    | with_reducible refine keep_fnEnd _ _ ?_
    | with_reducible refine keep_fnHold _ _ ?_
    | with_reducible refine keep_warmPath _ ?_
    | with_reducible refine Keeps.foldl (fun s x h => ?_) _ ?_
    | with_reducible refine Keeps.of1 ‹_› ?_
    | with_reducible refine Keeps.of2 ‹_› ?_
    | split
    | with_reducible refine Keeps.same ?_ rfl
    | dsimp only)

theorem keep_execWarmReset (src : Nat) {s s' : State} (h : execWarmReset src s = .next s') : Keeps s s' := by
  unfold execWarmReset at h
  refine keep_run (fun s h => ?_) h
  try dsimp only
  repeat' (first
    | with_reducible assumption
    | with_reducible refine keep_warmReset ?_
    | with_reducible refine Keeps.of1 ‹_› ?_
    | with_reducible refine Keeps.of2 ‹_› ?_
    | split
    | with_reducible refine Keeps.same ?_ rfl
    | dsimp only)

theorem keep_coldReset {a s : State} (h : Keeps a s) : Keeps a (coldReset s) := by
  unfold coldReset
  refine keep_setField _ _ _ _ _ _ (keep_setReg _ _ _ _ (keep_draw ?_))
  exact ⟨fun x => ⟨rfl, (h.sound x).host, rfl, rfl⟩, h.pending, h.fresh, h.wire⟩

theorem keep_execColdReset (pin : Nat) {s s' : State} (h : execColdReset pin s = .next s') : Keeps s s' := by
  cases h
  split
  · exact keep_coldReset (Keeps.refl s)
  · split
    · dsimp only
      split
      · exact keep_coldReset ((Keeps.refl s).same rfl)
      · exact (Keeps.refl s).same rfl
    · split
      · exact (Keeps.refl s).same rfl
      · exact Keeps.refl s

theorem keep_setStep (n : Nat) {a s : State} (h : Keeps a s) : Keeps a (setStep n s) := by
  unfold setStep
  try dsimp only
  repeat' (first
    | with_reducible assumption
    | with_reducible refine keep_setField _ _ _ _ _ _ ?_
    | with_reducible refine Keeps.of1 ‹_› ?_
    | with_reducible refine Keeps.of2 ‹_› ?_
    | split
    | with_reducible refine Keeps.same ?_ rfl
    | dsimp only)

theorem keep_bootFail (code : Nat) {a s : State} (h : Keeps a s) : Keeps a (bootFail code s) := by
  unfold bootFail
  try dsimp only
  repeat' (first
    | with_reducible assumption
    | with_reducible refine keep_setField _ _ _ _ _ _ ?_
    | with_reducible refine keep_raise _ _ _ _ _ ?_
    | with_reducible refine Keeps.of1 ‹_› ?_
    | with_reducible refine Keeps.of2 ‹_› ?_
    | split
    | with_reducible refine Keeps.same ?_ rfl
    | dsimp only)

theorem keep_takeImage (k : Nat) (m : BootImage) {a s : State} (h : Keeps a s) : Keeps a (takeImage k m s) := by
  unfold takeImage
  try dsimp only
  repeat' (first
    | with_reducible assumption
    | with_reducible refine keep_setField _ _ _ _ _ _ ?_
    | with_reducible refine keep_extend _ _ ?_
    | with_reducible refine Keeps.of1 ‹_› ?_
    | with_reducible refine Keeps.of2 ‹_› ?_
    | split
    | with_reducible refine Keeps.same ?_ rfl
    | dsimp only)

theorem keep_bootImages {a s : State} (h : Keeps a s) : Keeps a (bootImages s) := by
  unfold bootImages
  try dsimp only
  repeat' (first
    | with_reducible assumption
    | with_reducible refine keep_orReg _ _ _ _ ?_
    | with_reducible refine keep_setStep _ ?_
    | with_reducible refine keep_bootFail _ ?_
    | with_reducible refine keep_takeImage _ _ ?_
    | with_reducible refine Keeps.of1 ‹_› ?_
    | with_reducible refine Keeps.of2 ‹_› ?_
    | split
    | with_reducible refine Keeps.same ?_ rfl
    | dsimp only)

theorem keep_bootFirmware {a s : State} (h : Keeps a s) : Keeps a (bootFirmware s) := by
  unfold bootFirmware
  try dsimp only
  repeat' (first
    | with_reducible assumption
    | with_reducible refine keep_setFw _ _ ?_
    | with_reducible refine Keeps.foldl (fun s x h => ?_) _ ?_
    | with_reducible refine Keeps.of1 ‹_› ?_
    | with_reducible refine Keeps.of2 ‹_› ?_
    | split
    | with_reducible refine Keeps.same ?_ rfl
    | dsimp only)

theorem keep_bootBoard (rec : Bytes) {a s : State} (h : Keeps a s) : Keeps a (bootBoard rec s) := by
  unfold bootBoard
  try dsimp only
  repeat' (first
    | with_reducible assumption
    | with_reducible refine keep_setReg _ _ _ _ ?_
    | with_reducible refine keep_sticky _ _ _ _ _ ?_
    | with_reducible refine keep_extend _ _ ?_
    | with_reducible refine Keeps.of1 ‹_› ?_
    | with_reducible refine Keeps.of2 ‹_› ?_
    | split
    | with_reducible refine Keeps.same ?_ rfl
    | dsimp only)

theorem keep_notFitted (m : Nat) {a s : State} (h : Keeps a s) : Keeps a (notFitted m s) := by
  unfold notFitted
  try dsimp only
  repeat' (first
    | with_reducible assumption
    | with_reducible refine keep_raise _ _ _ _ _ ?_
    | with_reducible refine Keeps.of1 ‹_› ?_
    | with_reducible refine Keeps.of2 ‹_› ?_
    | split
    | with_reducible refine Keeps.same ?_ rfl
    | dsimp only)

theorem keep_bootScan (straps : Nat) (board : Bytes) (scan : Scan) (idents : List Bytes) {a s : State} (h : Keeps a s) : Keeps a (bootScan straps board scan idents s) := by
  unfold bootScan
  try dsimp only
  repeat' (first
    | with_reducible assumption
    | with_reducible refine keep_orReg _ _ _ _ ?_
    | with_reducible refine keep_setField _ _ _ _ _ _ ?_
    | with_reducible refine keep_sticky _ _ _ _ _ ?_
    | with_reducible refine keep_extend _ _ ?_
    | with_reducible refine keep_bootBoard _ ?_
    | with_reducible refine keep_notFitted _ ?_
    | with_reducible refine Keeps.foldl (fun s x h => ?_) _ ?_
    | with_reducible refine Keeps.of1 ‹_› ?_
    | with_reducible refine Keeps.of2 ‹_› ?_
    | split
    | with_reducible refine Keeps.same ?_ rfl
    | dsimp only)

theorem keep_bootTrain (trained : Nat) {a s : State} (h : Keeps a s) : Keeps a (bootTrain trained s) := by
  unfold bootTrain
  try dsimp only
  repeat' (first
    | with_reducible assumption
    | with_reducible refine keep_orReg _ _ _ _ ?_
    | with_reducible refine keep_setField _ _ _ _ _ _ ?_
    | with_reducible refine keep_stickyRec _ _ _ _ _ _ _ ?_
    | with_reducible refine keep_bootFail _ ?_
    | with_reducible refine Keeps.foldl (fun s x h => ?_) _ ?_
    | with_reducible refine Keeps.of1 ‹_› ?_
    | with_reducible refine Keeps.of2 ‹_› ?_
    | split
    | with_reducible refine Keeps.same ?_ rfl
    | dsimp only)

theorem keep_bootSerdes (cables : List Bytes) (drives : List (Option DriveId)) {a s : State} (h : Keeps a s) : Keeps a (bootSerdes cables drives s) := by
  unfold bootSerdes
  try dsimp only
  repeat' (first
    | with_reducible assumption
    | with_reducible refine keep_driveAccept _ _ ?_
    | with_reducible refine keep_startTraining _ _ ?_
    | with_reducible refine Keeps.foldl (fun s x h => ?_) _ ?_
    | with_reducible refine Keeps.of1 ‹_› ?_
    | with_reducible refine Keeps.of2 ‹_› ?_
    | split
    | with_reducible refine Keeps.same ?_ rfl
    | dsimp only)

theorem keep_ownRegion (base : Nat) (n : Nat) {a s : State} (h : Keeps a s) : Keeps a (ownRegion base n s) := by
  unfold ownRegion
  try dsimp only
  repeat' (first
    | with_reducible assumption
    | with_reducible refine keep_draw ?_
    | with_reducible refine keep_setRegion _ _ ?_
    | with_reducible refine Keeps.of1 ‹_› ?_
    | with_reducible refine Keeps.of2 ‹_› ?_
    | split
    | with_reducible refine Keeps.same ?_ rfl
    | dsimp only)

theorem keep_portsUp {a s : State} (h : Keeps a s) : Keeps a (portsUp s) := by
  unfold portsUp
  try dsimp only
  repeat' (first
    | with_reducible assumption
    | with_reducible refine Keeps.of1 ‹_› ?_
    | with_reducible refine Keeps.of2 ‹_› ?_
    | split
    | with_reducible refine Keeps.same ?_ rfl
    | dsimp only)

theorem keep_bootZero {a s : State} (h : Keeps a s) : Keeps a (bootZero s) := by
  unfold bootZero
  try dsimp only
  repeat' (first
    | with_reducible assumption
    | with_reducible refine keep_startZeroing _ _ ?_
    | with_reducible refine keep_setStep _ ?_
    | with_reducible refine Keeps.foldl (fun s x h => ?_) _ ?_
    | with_reducible refine Keeps.of1 ‹_› ?_
    | with_reducible refine Keeps.of2 ‹_› ?_
    | split
    | with_reducible refine Keeps.same ?_ rfl
    | dsimp only)

theorem keep_bootHold {a s : State} (h : Keeps a s) : Keeps a (bootHold s) := by
  unfold bootHold
  try dsimp only
  repeat' (first
    | with_reducible assumption
    | with_reducible refine keep_orReg _ _ _ _ ?_
    | with_reducible refine keep_count _ _ _ _ ?_
    | with_reducible refine keep_extend _ _ ?_
    | with_reducible refine keep_assign _ ?_
    | with_reducible refine keep_ownRegion _ _ ?_
    | with_reducible refine keep_portsUp ?_
    | with_reducible refine Keeps.foldl (fun s x h => ?_) _ ?_
    | with_reducible refine Keeps.of1 ‹_› ?_
    | with_reducible refine Keeps.of2 ‹_› ?_
    | split
    | with_reducible refine Keeps.same ?_ rfl
    | dsimp only)

theorem keep_execStartupStepDone (ok : Bool) (straps : Nat) (board : Bytes) (fitted : Scan) (idents : List Bytes) (cables : List Bytes) (trained : Nat) (drives : List (Option DriveId)) {s s' : State} (h : execStartupStepDone ok straps board fitted idents cables trained drives s = .next s') : Keeps s s' := by
  unfold execStartupStepDone at h
  refine keep_run (fun s h => ?_) h
  try dsimp only
  repeat' (first
    | with_reducible assumption
    | with_reducible refine keep_setReg _ _ _ _ ?_
    | with_reducible refine keep_orReg _ _ _ _ ?_
    | with_reducible refine keep_draw ?_
    | with_reducible refine keep_extend _ _ ?_
    | with_reducible refine keep_crash _ _ ?_
    | with_reducible refine keep_setStep _ ?_
    | with_reducible refine keep_bootFail _ ?_
    | with_reducible refine keep_bootImages ?_
    | with_reducible refine keep_bootFirmware ?_
    | with_reducible refine keep_bootScan _ _ _ _ ?_
    | with_reducible refine keep_bootTrain _ ?_
    | with_reducible refine keep_bootSerdes _ _ ?_
    | with_reducible refine keep_bootZero ?_
    | with_reducible refine keep_bootHold ?_
    | with_reducible refine Keeps.foldl (fun s x h => ?_) _ ?_
    | with_reducible refine Keeps.of1 ‹_› ?_
    | with_reducible refine Keeps.of2 ‹_› ?_
    | split
    | with_reducible refine Keeps.same ?_ rfl
    | dsimp only)

end Sys2Proof.Machine
end

