-- ==== Sys2Proof/Laws/KeepRegMap.lean ====
section
/-! SUPPORT. What the operations of Machine/RegMap.lean keep: soundness, the queue, the draws, the wire. -/
namespace Sys2Proof.Machine

open Sys2Proof

theorem keep_readReg (who : Nat) (a' : Nat) {a s : State} (h : Keeps a s) : Keeps a (readReg who a' s).2 := by
  unfold readReg
  try dsimp only
  repeat' (first
    | with_reducible assumption
    | with_reducible refine keep_sticky _ _ _ _ _ ?_
    | with_reducible refine Keeps.of1 ‹_› ?_
    | with_reducible refine Keeps.of2 ‹_› ?_
    | split
    | with_reducible refine Keeps.same ?_ rfl
    | dsimp only)

theorem keep_nextOf {r : Res} {a s : State} (hr : ∀ t, r = .next t → Keeps a t) (h : Keeps a s) : Keeps a (nextOf r s) := by
  unfold nextOf
  split
  · exact hr _ rfl
  · exact h

theorem keep_tableWrite (fn : Nat) (a' : Nat) (val : Nat) {a s : State} (h : Keeps a s) : Keeps a (tableWrite fn a' val s) := by
  unfold tableWrite
  try dsimp only
  repeat' (first
    | with_reducible assumption
    | with_reducible refine keep_setHost _ _ ?_
    | with_reducible refine keep_xlatWrite _ _ _ ?_
    | with_reducible refine keep_flushMsix _ ?_
    | with_reducible refine Keeps.of1 ‹_› ?_
    | with_reducible refine Keeps.of2 ‹_› ?_
    | split
    | with_reducible refine Keeps.same ?_ rfl
    | dsimp only)

theorem keep_next {a s : State} {r : Res} (h : Keeps a s) (hr : ∀ {t}, r = .next t → Keeps s t) : Keeps a (nextOf r s) :=
  keep_nextOf (fun _ e => h.trans (hr e)) h

theorem keep_regWrite (who : Nat) (r : Reg) (i j w : Nat) (val : Word) (ext : Bytes) {a s : State} (h : Keeps a s) :
    Keeps a (regWrite who r i j w val ext s) := by
  unfold regWrite
  extract_lets v
  split
  · exact keep_next h fun e => keep_execTbStep _ _ _ e
  · exact keep_next h fun e => keep_execTbAdjWrite _ _ e
  · exact keep_tenPortWrite _ h
  · exact keep_admqWrite _ _ h
  · exact keep_next h fun e => keep_execStageWrite _ _ _ _ e
  · exact keep_next h fun e => keep_execStageWrite _ _ _ _ e
  · exact keep_next h fun e => keep_execCoreCtxWrite _ _ _ e
  · exact keep_next h fun e => keep_execFnCtxWrite _ _ _ e
  · exact keep_detWrite _ _ _ h
  · exact keep_next h fun e => keep_execLogHeadWrite _ _ _ e
  · exact keep_next h fun e => keep_execInjectArm _ _ _ e
  · exact keep_next h fun e => keep_execSegModeWrite _ _ _ e
  · split
    · exact keep_next h fun e => keep_execRegionShareWrite _ _ _ e
    · exact h
  · have h1 := keep_next h fun e => keep_execSeamEnableWrite who i val ext e
    split
    · split
      · exact keep_rewiden _ h1
      · exact keep_startRetrain _ h1
    · exact h1
  · exact keep_next h fun e => keep_execEthEnableWrite _ _ _ _ e
  · exact keep_next h fun e => keep_execTenantMapWrite _ _ _ e
  · exact keep_next h fun e => keep_execTenantMapWrite _ _ _ e
  · exact keep_next h fun e => keep_execProfileWrite _ _ _ _ e
  · exact keep_next h fun e => keep_execProfileWrite _ _ _ _ e
  · exact keep_next h fun e => keep_execProfileWrite _ _ _ _ e
  · exact keep_next h fun e => keep_execConsumedWrite _ _ _ e
  · exact keep_next h fun e => keep_execApstWrite _ _ _ e
  · exact keep_next h fun e => keep_execStoDoorbellWrite _ _ _ _ e
  · exact keep_next h fun e => keep_execStoDoorbellWrite _ _ _ _ e
  · exact keep_lodeCtrlWrite _ _ _ h
  · exact keep_meCtrlWrite _ _ _ h
  · exact keep_bcCtrlWrite _ _ _ h
  · split
    · exact keep_next h fun e => keep_execWarmReset _ e
    · exact h
  · exact keep_setReg _ _ _ _ h

theorem keep_writeReg (who : Nat) (a' : Nat) (val : Word) (ext : Bytes) {a s : State} (h : Keeps a s) : Keeps a (writeReg who a' val ext s) := by
  unfold writeReg
  try dsimp only
  repeat' (first
    | with_reducible assumption
    | with_reducible refine keep_orReg _ _ _ _ ?_
    | with_reducible refine keep_sticky _ _ _ _ _ ?_
    | with_reducible refine keep_tableWrite _ _ _ ?_
    | with_reducible refine keep_regWrite _ _ _ _ _ _ _ ?_
    | with_reducible refine Keeps.of1 ‹_› ?_
    | with_reducible refine Keeps.of2 ‹_› ?_
    | split
    | with_reducible refine Keeps.same ?_ rfl
    | dsimp only)

theorem keep_execRegisterWrite (who : Nat) (off : Nat) (val : Word) (ext : Bytes) {s s' : State} (h : execRegisterWrite who off val ext s = .next s') : Keeps s s' := by
  unfold execRegisterWrite at h
  refine keep_run (fun s h => ?_) h
  try dsimp only
  repeat' (first
    | with_reducible assumption
    | with_reducible refine keep_onlyIf _ _ (fun _ h => ?_) ?_
    | with_reducible refine keep_writeReg _ _ _ _ ?_
    | with_reducible refine Keeps.of1 ‹_› ?_
    | with_reducible refine Keeps.of2 ‹_› ?_
    | split
    | with_reducible refine Keeps.same ?_ rfl
    | dsimp only)

theorem keep_deviceReg (req : Requester) (addr len : Nat) (wr : Bool) (val : Word) (ext : Bytes) {a s : State} (h : Keeps a s) :
    Keeps a (deviceReg req addr len wr val ext s) := by
  unfold deviceReg
  split
  · extract_lets s1
    have h : Keeps a s1 := h.same rfl
    clear_value s1
    split
    · exact keep_writeReg _ _ _ _ h
    · have h1 := keep_readReg (reqWho req) (addr - regBase) h
      generalize readReg (reqWho req) (addr - regBase) s1 = q at h1
      obtain ⟨v, t⟩ := q
      exact h1.same rfl
  · exact keep_addrDenied _ (h.same rfl)

theorem keep_execDeviceRegisterAccess (req : Requester) (addr : Nat) (len : Nat) (wr : Bool) (val : Word) (ext : Bytes) {s s' : State} (h : execDeviceRegisterAccess req addr len wr val ext s = .next s') : Keeps s s' := by
  unfold execDeviceRegisterAccess at h
  refine keep_run (fun s h => ?_) h
  try dsimp only
  repeat' (first
    | with_reducible assumption
    | with_reducible refine keep_deviceReg _ _ _ _ _ _ ?_
    | with_reducible refine Keeps.of1 ‹_› ?_
    | with_reducible refine Keeps.of2 ‹_› ?_
    | split
    | with_reducible refine Keeps.same ?_ rfl
    | dsimp only)

theorem keep_bridgeUnit (d : Nat) (e : BridgeErr) {a : State} {x : State × Option Bytes} (h : Keeps a x.1) :
    Keeps a (bridgeUnit d e x).1 := by
  unfold bridgeUnit
  have h := keep_draw h
  generalize draw x.1 = q at h
  obtain ⟨k, s⟩ := q
  dsimp only at h ⊢
  split
  · exact h
  · exact keep_count .errBridgeCe 0 d 1 h
  · exact keep_count .errBridgeCe 0 d 1 h
  · exact keep_stickyRec _ _ _ _ _ _ _ (keep_count .errBridgeUe 0 d 1 h)

theorem keep_bridgeCross (src dst : Nat) (back : Bool) (errs : List BridgeErr) (data : Bytes) {a s : State} (h : Keeps a s) :
    Keeps a (bridgeCross src dst back errs data s).1 := by
  unfold bridgeCross
  split
  · exact h
  · exact Keeps.foldl1 (fun p x h => keep_bridgeUnit _ _ h) _ h

theorem keep_fabricServe (req : Requester) (addr : Nat) (n : Nat) (wr : Bool) (data : Bytes) (ext : Bytes) {a s : State} (h : Keeps a s) : Keeps a (fabricServe req addr n wr data ext s) := by
  unfold fabricServe
  try dsimp only
  repeat' (first
    | with_reducible assumption
    | with_reducible refine keep_sticky _ _ _ _ _ ?_
    | with_reducible refine keep_readMem _ _ ?_
    | with_reducible refine keep_addrDenied _ ?_
    | with_reducible refine keep_refuse _ _ _ ?_
    | with_reducible refine keep_hostRead _ _ _ ?_
    | with_reducible refine keep_hostWrite _ _ _ ?_
    | with_reducible refine keep_devWrite _ _ ?_
    | with_reducible refine keep_wakeRange _ _ ?_
    | with_reducible refine keep_deviceReg _ _ _ _ _ _ ?_
    | with_reducible refine Keeps.of1 ‹_› ?_
    | with_reducible refine Keeps.of2 ‹_› ?_
    | split
    | with_reducible refine Keeps.same ?_ rfl
    | dsimp only)

theorem keep_tableUpset (req : FabricReq) (addr : Nat) {a s : State} (h : Keeps a s) : Keeps a (tableUpset req addr s) := by
  unfold tableUpset
  try dsimp only
  repeat' (first
    | with_reducible assumption
    | with_reducible refine Keeps.of1 ‹_› ?_
    | with_reducible refine Keeps.of2 ‹_› ?_
    | split
    | with_reducible refine Keeps.same ?_ rfl
    | dsimp only)

theorem keep_execFabricRequest (req : FabricReq) (addr : Nat) (len : Nat) (wr : Bool) (data : Bytes) {s s' : State} (h : execFabricRequest req addr len wr data s = .next s') : Keeps s s' := by
  unfold execFabricRequest at h
  refine keep_run (fun s h => ?_) h
  try dsimp only
  repeat' (first
    | with_reducible assumption
    | with_reducible refine keep_bridgeCross _ _ _ _ _ ?_
    | with_reducible refine keep_fabricServe _ _ _ _ _ _ ?_
    | with_reducible refine keep_tableUpset _ _ ?_
    | with_reducible refine Keeps.of1 ‹_› ?_
    | with_reducible refine Keeps.of2 ‹_› ?_
    | split
    | with_reducible refine Keeps.same ?_ rfl
    | dsimp only)

end Sys2Proof.Machine
end

