-- ==== Sys2Proof/Laws/PerInstr.lean ====
section
/-! SUPPORT. Laws stated for every command, one lemma per constructor. -/
namespace Sys2Proof.Laws.Spelling

open Sys2Proof

/-- No word of the table spells the command: the table gives its rows no bits, and a command comes with its operands from outside. -/
def Statement (i : Instr) : Prop := ∀ nbits w : Nat, decodeTableWord nbits w ≠ some i

theorem registerWrite (who : Nat) (off : Nat) (val : Word) (ext : Bytes) : Statement (.registerWrite who off val ext) := fun _ _ h => nomatch h
theorem fabricRequest (req : FabricReq) (addr : Nat) (len : Nat) (wr : Bool) (data : Bytes) : Statement (.fabricRequest req addr len wr data) := fun _ _ h => nomatch h
theorem deviceRegisterAccess (req : Requester) (addr : Nat) (len : Nat) (wr : Bool) (val : Word) (ext : Bytes) : Statement (.deviceRegisterAccess req addr len wr val ext) := fun _ _ h => nomatch h
theorem tbEventFire : Statement (.tbEventFire) := fun _ _ h => nomatch h
theorem tbStep (who : Nat) (hi : Bool) (val : Word) : Statement (.tbStep who hi val) := fun _ _ h => nomatch h
theorem tbAdjWrite (who : Nat) (val : Word) : Statement (.tbAdjWrite who val) := fun _ _ h => nomatch h
theorem tbSyncinEdge : Statement (.tbSyncinEdge) := fun _ _ h => nomatch h
theorem tbSyncinLoad : Statement (.tbSyncinLoad) := fun _ _ h => nomatch h
theorem modEnqueue (n : Enqueue) : Statement (.modEnqueue n) := fun _ _ h => nomatch h
theorem modNop (n : Nat) : Statement (.modNop n) := fun _ _ h => nomatch h
theorem matmul (n : Nat) : Statement (.matmul n) := fun _ _ h => nomatch h
theorem grouped (n : Nat) : Statement (.grouped n) := fun _ _ h => nomatch h
theorem rangeScan (n : Nat) : Statement (.rangeScan n) := fun _ _ h => nomatch h
theorem transposeLoad (n : Nat) : Statement (.transposeLoad n) := fun _ _ h => nomatch h
theorem engineDrainStart (n : Nat) : Statement (.engineDrainStart n) := fun _ _ h => nomatch h
theorem engineOpComplete (n : Nat) (cycles : Nat) : Statement (.engineOpComplete n cycles) := fun _ _ h => nomatch h
theorem engineOperandUe (n : Nat) (rows : Nat) : Statement (.engineOperandUe n rows) := fun _ _ h => nomatch h
theorem engineRmwUe (n : Nat) : Statement (.engineRmwUe n) := fun _ _ h => nomatch h
theorem quiesceWrite (who : Nat) (n : Nat) (val : Word) : Statement (.quiesceWrite who n val) := fun _ _ h => nomatch h
theorem dropResident (who : Nat) (n : Nat) (val : Word) : Statement (.dropResident who n val) := fun _ _ h => nomatch h
theorem bundleIssue (k : Nat) (late : Bool) : Statement (.bundleIssue k late) := fun _ _ h => nomatch h
theorem ctlNop (k : Nat) : Statement (.ctlNop k) := fun _ _ h => nomatch h
theorem repeatCtl (k : Nat) (late : Bool) : Statement (.repeatCtl k late) := fun _ _ h => nomatch h
theorem halt (k : Nat) : Statement (.halt k) := fun _ _ h => nomatch h
theorem haltComplete (k : Nat) : Statement (.haltComplete k) := fun _ _ h => nomatch h
theorem unitResultVisible (k : Nat) : Statement (.unitResultVisible k) := fun _ _ h => nomatch h
theorem loadDataArrival (k : Nat) : Statement (.loadDataArrival k) := fun _ _ h => nomatch h
theorem delayedUncorrectable (k : Nat) : Statement (.delayedUncorrectable k) := fun _ _ h => nomatch h
theorem bcHoldWrite (who : Nat) (k : Nat) (val : Word) : Statement (.bcHoldWrite who k val) := fun _ _ h => nomatch h
theorem coreHoldTaken (k : Nat) : Statement (.coreHoldTaken k) := fun _ _ h => nomatch h
theorem coreStart (who : Nat) (k : Nat) (val : Word) : Statement (.coreStart who k val) := fun _ _ h => nomatch h
theorem coreClear (who : Nat) (k : Nat) (val : Word) : Statement (.coreClear who k val) := fun _ _ h => nomatch h
theorem imemWrite (req : Requester) (k : Nat) (off : Nat) (data : Bytes) : Statement (.imemWrite req k off data) := fun _ _ h => nomatch h
theorem strataBankAccess (n : Nat) (bank : Nat) (reqs : List BankReq) : Statement (.strataBankAccess n bank reqs) := fun _ _ h => nomatch h
theorem strataScrubRead (n : Nat) : Statement (.strataScrubRead n) := fun _ _ h => nomatch h
theorem lodeZeroingDone (n : Nat) : Statement (.lodeZeroingDone n) := fun _ _ h => nomatch h
theorem moveEnqueue (n : Enqueue) : Statement (.moveEnqueue n) := fun _ _ h => nomatch h
theorem moveNop (n : Nat) : Statement (.moveNop n) := fun _ _ h => nomatch h
theorem moveCopy (n : Nat) : Statement (.moveCopy n) := fun _ _ h => nomatch h
theorem moveFill (n : Nat) : Statement (.moveFill n) := fun _ _ h => nomatch h
theorem moveSourceUe (n : Nat) (m : Nat) : Statement (.moveSourceUe n m) := fun _ _ h => nomatch h
theorem moveComplete (n : Nat) (m : Nat) : Statement (.moveComplete n m) := fun _ _ h => nomatch h
theorem lodeCtrlReset (who : Nat) (n : Nat) (val : Word) : Statement (.lodeCtrlReset who n val) := fun _ _ h => nomatch h
theorem lodeCtrlHold (who : Nat) (n : Nat) (val : Word) : Statement (.lodeCtrlHold who n val) := fun _ _ h => nomatch h
theorem lockGroupStart (g : Nat) : Statement (.lockGroupStart g) := fun _ _ h => nomatch h
theorem sqTailWrite (p : Nat) (v : Nat) (q : Nat) (val : Word) : Statement (.sqTailWrite p v q val) := fun _ _ h => nomatch h
theorem cqHeadWrite (p : Nat) (v : Nat) (q : Nat) (val : Word) : Statement (.cqHeadWrite p v q val) := fun _ _ h => nomatch h
theorem admqEnable (who : Nat) (i : Nat) (val : Word) : Statement (.admqEnable who i val) := fun _ _ h => nomatch h
theorem submissionFetch : Statement (.submissionFetch) := fun _ _ h => nomatch h
theorem commandDispatch (id : Nat) : Statement (.commandDispatch id) := fun _ _ h => nomatch h
theorem replyWrite (id : Nat) : Statement (.replyWrite id) := fun _ _ h => nomatch h
theorem hello (id : Nat) : Statement (.hello id) := fun _ _ h => nomatch h
theorem identify (id : Nat) : Statement (.identify id) := fun _ _ h => nomatch h
theorem fwUpdate (id : Nat) : Statement (.fwUpdate id) := fun _ _ h => nomatch h
theorem qpCreate (id : Nat) : Statement (.qpCreate id) := fun _ _ h => nomatch h
theorem qpDelete (id : Nat) : Statement (.qpDelete id) := fun _ _ h => nomatch h
theorem abort (id : Nat) : Statement (.abort id) := fun _ _ h => nomatch h
theorem heartbeat (id : Nat) : Statement (.heartbeat id) := fun _ _ h => nomatch h
theorem goodbye (id : Nat) : Statement (.goodbye id) := fun _ _ h => nomatch h
theorem regionCreate (id : Nat) : Statement (.regionCreate id) := fun _ _ h => nomatch h
theorem regionRevoke (id : Nat) : Statement (.regionRevoke id) := fun _ _ h => nomatch h
theorem regionDrainEnd (e : Nat) : Statement (.regionDrainEnd e) := fun _ _ h => nomatch h
theorem copy (id : Nat) : Statement (.copy id) := fun _ _ h => nomatch h
theorem fill (id : Nat) : Statement (.fill id) := fun _ _ h => nomatch h
theorem windowMap (id : Nat) : Statement (.windowMap id) := fun _ _ h => nomatch h
theorem crypt (id : Nat) : Statement (.crypt id) := fun _ _ h => nomatch h
theorem cipherOpComplete (i : Nat) : Statement (.cipherOpComplete i) := fun _ _ h => nomatch h
theorem imemLoad (id : Nat) : Statement (.imemLoad id) := fun _ _ h => nomatch h
theorem coresRun (id : Nat) : Statement (.coresRun id) := fun _ _ h => nomatch h
theorem modChain (id : Nat) : Statement (.modChain id) := fun _ _ h => nomatch h
theorem moveChain (id : Nat) : Statement (.moveChain id) := fun _ _ h => nomatch h
theorem lockForm (id : Nat) : Statement (.lockForm id) := fun _ _ h => nomatch h
theorem lockStart (id : Nat) : Statement (.lockStart id) := fun _ _ h => nomatch h
theorem lockDissolve (id : Nat) : Statement (.lockDissolve id) := fun _ _ h => nomatch h
theorem lodeReset (id : Nat) : Statement (.lodeReset id) := fun _ _ h => nomatch h
theorem lodeHold (id : Nat) : Statement (.lodeHold id) := fun _ _ h => nomatch h
theorem syncSignal (id : Nat) : Statement (.syncSignal id) := fun _ _ h => nomatch h
theorem syncWait (id : Nat) : Statement (.syncWait id) := fun _ _ h => nomatch h
theorem syncRead (id : Nat) : Statement (.syncRead id) := fun _ _ h => nomatch h
theorem syncSet (id : Nat) : Statement (.syncSet id) := fun _ _ h => nomatch h
theorem syncEpoch (id : Nat) : Statement (.syncEpoch id) := fun _ _ h => nomatch h
theorem epochRebase (id : Nat) : Statement (.epochRebase id) := fun _ _ h => nomatch h
theorem epochTimeout (id : Nat) : Statement (.epochTimeout id) := fun _ _ h => nomatch h
theorem vmap (id : Nat) : Statement (.vmap id) := fun _ _ h => nomatch h
theorem commCreate (id : Nat) : Statement (.commCreate id) := fun _ _ h => nomatch h
theorem commDestroy (id : Nat) : Statement (.commDestroy id) := fun _ _ h => nomatch h
theorem allReduce (id : Nat) : Statement (.allReduce id) := fun _ _ h => nomatch h
theorem reduceScatter (id : Nat) : Statement (.reduceScatter id) := fun _ _ h => nomatch h
theorem allGather (id : Nat) : Statement (.allGather id) := fun _ _ h => nomatch h
theorem broadcast (id : Nat) : Statement (.broadcast id) := fun _ _ h => nomatch h
theorem allToAll (id : Nat) : Statement (.allToAll id) := fun _ _ h => nomatch h
theorem collectiveContribution (c : Contrib) : Statement (.collectiveContribution c) := fun _ _ h => nomatch h
theorem portMode (id : Nat) : Statement (.portMode id) := fun _ _ h => nomatch h
theorem rulesCommit (id : Nat) : Statement (.rulesCommit id) := fun _ _ h => nomatch h
theorem rulesCommitApply (id : Nat) : Statement (.rulesCommitApply id) := fun _ _ h => nomatch h
theorem ruleVersionRetire (ver : Nat) : Statement (.ruleVersionRetire ver) := fun _ _ h => nomatch h
theorem patternsLoad (id : Nat) : Statement (.patternsLoad id) := fun _ _ h => nomatch h
theorem streamOpen (id : Nat) : Statement (.streamOpen id) := fun _ _ h => nomatch h
theorem streamClose (id : Nat) : Statement (.streamClose id) := fun _ _ h => nomatch h
theorem gatesLoad (id : Nat) : Statement (.gatesLoad id) := fun _ _ h => nomatch h
theorem shaperSet (id : Nat) : Statement (.shaperSet id) := fun _ _ h => nomatch h
theorem policerSet (id : Nat) : Statement (.policerSet id) := fun _ _ h => nomatch h
theorem ftRingCreate (id : Nat) : Statement (.ftRingCreate id) := fun _ _ h => nomatch h
theorem ftRingDelete (id : Nat) : Statement (.ftRingDelete id) := fun _ _ h => nomatch h
theorem ftRqBind (id : Nat) : Statement (.ftRqBind id) := fun _ _ h => nomatch h
theorem ftRqUnbind (id : Nat) : Statement (.ftRqUnbind id) := fun _ _ h => nomatch h
theorem sqCreate (id : Nat) : Statement (.sqCreate id) := fun _ _ h => nomatch h
theorem sqDelete (id : Nat) : Statement (.sqDelete id) := fun _ _ h => nomatch h
theorem volCreate (id : Nat) : Statement (.volCreate id) := fun _ _ h => nomatch h
theorem volDelete (id : Nat) : Statement (.volDelete id) := fun _ _ h => nomatch h
theorem volBind (id : Nat) : Statement (.volBind id) := fun _ _ h => nomatch h
theorem driveInfo (id : Nat) : Statement (.driveInfo id) := fun _ _ h => nomatch h
theorem poolAdd (id : Nat) : Statement (.poolAdd id) := fun _ _ h => nomatch h
theorem save (id : Nat) : Statement (.save id) := fun _ _ h => nomatch h
theorem saveStepDone (id : Nat) : Statement (.saveStepDone id) := fun _ _ h => nomatch h
theorem restore (id : Nat) : Statement (.restore id) := fun _ _ h => nomatch h
theorem restoreStageDone (id : Nat) : Statement (.restoreStageDone id) := fun _ _ h => nomatch h
theorem drain (id : Nat) : Statement (.drain id) := fun _ _ h => nomatch h
theorem drainDone (id : Nat) : Statement (.drainDone id) := fun _ _ h => nomatch h
theorem slotStatus (id : Nat) : Statement (.slotStatus id) := fun _ _ h => nomatch h
theorem rankTake (id : Nat) : Statement (.rankTake id) := fun _ _ h => nomatch h
theorem rankTakeDiscovered (id : Nat) : Statement (.rankTakeDiscovered id) := fun _ _ h => nomatch h
theorem stageWrite (who : Nat) (t : Nat) (off : Nat) (val : Word) : Statement (.stageWrite who t off val) := fun _ _ h => nomatch h
theorem layoutDefine (id : Nat) : Statement (.layoutDefine id) := fun _ _ h => nomatch h
theorem layoutDrop (id : Nat) : Statement (.layoutDrop id) := fun _ _ h => nomatch h
theorem reshardMove (id : Nat) : Statement (.reshardMove id) := fun _ _ h => nomatch h
theorem assign (id : Nat) : Statement (.assign id) := fun _ _ h => nomatch h
theorem keyLoad (id : Nat) : Statement (.keyLoad id) := fun _ _ h => nomatch h
theorem keyErase (id : Nat) : Statement (.keyErase id) := fun _ _ h => nomatch h
theorem attest (id : Nat) : Statement (.attest id) := fun _ _ h => nomatch h
theorem debugUnlock (id : Nat) : Statement (.debugUnlock id) := fun _ _ h => nomatch h
theorem countersRead (id : Nat) : Statement (.countersRead id) := fun _ _ h => nomatch h
theorem errorsRead (id : Nat) : Statement (.errorsRead id) := fun _ _ h => nomatch h
theorem errorsClear (id : Nat) : Statement (.errorsClear id) := fun _ _ h => nomatch h
theorem logRing (id : Nat) : Statement (.logRing id) := fun _ _ h => nomatch h
theorem traceSet (id : Nat) : Statement (.traceSet id) := fun _ _ h => nomatch h
theorem opPoint (id : Nat) : Statement (.opPoint id) := fun _ _ h => nomatch h
theorem lodePower (id : Nat) : Statement (.lodePower id) := fun _ _ h => nomatch h
theorem clockLock (id : Nat) : Statement (.clockLock id) := fun _ _ h => nomatch h
theorem clockLockDone : Statement (.clockLockDone) := fun _ _ h => nomatch h
theorem tbAdj (id : Nat) : Statement (.tbAdj id) := fun _ _ h => nomatch h
theorem tbSyncArm (id : Nat) : Statement (.tbSyncArm id) := fun _ _ h => nomatch h
theorem deep (id : Nat) : Statement (.deep id) := fun _ _ h => nomatch h
theorem deepEntryDone : Statement (.deepEntryDone) := fun _ _ h => nomatch h
theorem deepExitDone : Statement (.deepExitDone) := fun _ _ h => nomatch h
theorem limitsRead (id : Nat) : Statement (.limitsRead id) := fun _ _ h => nomatch h
theorem signalArrival (p : Nat) (srcs : List Nat) : Statement (.signalArrival p srcs) := fun _ _ h => nomatch h
theorem waiterJoin (p : Nat) (srcs : List Nat) : Statement (.waiterJoin p srcs) := fun _ _ h => nomatch h
theorem passNotice (i : Nat) : Statement (.passNotice i) := fun _ _ h => nomatch h
theorem waitTimeout (p : Nat) (i : Nat) : Statement (.waitTimeout p i) := fun _ _ h => nomatch h
theorem remoteSignalSend : Statement (.remoteSignalSend) := fun _ _ h => nomatch h
theorem coreCtxWrite (who : Nat) (k : Nat) (val : Word) : Statement (.coreCtxWrite who k val) := fun _ _ h => nomatch h
theorem fnCtxWrite (who : Nat) (i : Nat) (val : Word) : Statement (.fnCtxWrite who i val) := fun _ _ h => nomatch h
theorem watchdogExpiry (p : Watchdog) : Statement (.watchdogExpiry p) := fun _ _ h => nomatch h
theorem fwCrash (p : Nat) (cause : Nat) : Statement (.fwCrash p cause) := fun _ _ h => nomatch h
theorem fwRestartDone (p : FwBack) : Statement (.fwRestartDone p) := fun _ _ h => nomatch h
theorem controlCoreNotRecovered (n : Nat) : Statement (.controlCoreNotRecovered n) := fun _ _ h => nomatch h
theorem strictWrite (who : Nat) (t : Nat) (val : Word) : Statement (.strictWrite who t val) := fun _ _ h => nomatch h
theorem strictLockWrite (who : Nat) (t : Nat) (val : Word) : Statement (.strictLockWrite who t val) := fun _ _ h => nomatch h
theorem memoryAccess (addr : LineAccess) (data : Bytes) : Statement (.memoryAccess addr data) := fun _ _ h => nomatch h
theorem refreshSlot (c : Nat) (ch : Nat) : Statement (.refreshSlot c ch) := fun _ _ h => nomatch h
theorem recalibration (c : Nat) (ch : Nat) (low : Bool) (failedLane : Bool) (trained : Bool) : Statement (.recalibration c ch low failedLane trained) := fun _ _ h => nomatch h
theorem memoryScrubRead (c : Nat) : Statement (.memoryScrubRead c) := fun _ _ h => nomatch h
theorem stackTemperatureReport (h : Nat) (hot : Bool) : Statement (.stackTemperatureReport h hot) := fun _ _ h => nomatch h
theorem segModeWrite (who : Nat) (sg : Nat) (val : Word) : Statement (.segModeWrite who sg val) := fun _ _ h => nomatch h
theorem segmentFillDone (sg : Nat) : Statement (.segmentFillDone sg) := fun _ _ h => nomatch h
theorem blockZeroFillDone (blk : Nat) : Statement (.blockZeroFillDone blk) := fun _ _ h => nomatch h
theorem injectArm (who : Nat) (c : Nat) (val : Word) : Statement (.injectArm who c val) := fun _ _ h => nomatch h
theorem regionShareWrite (who : Nat) (e : Nat) (val : Word) : Statement (.regionShareWrite who e val) := fun _ _ h => nomatch h
theorem seamDataFlit (l : Nat) (fec : Bool) (flit : Bytes) : Statement (.seamDataFlit l fec flit) := fun _ _ h => nomatch h
theorem seamCtrlFlit (l : Nat) (flit : CtrlFlit) : Statement (.seamCtrlFlit l flit) := fun _ _ h => nomatch h
theorem seamAckTimeout (l : Nat) : Statement (.seamAckTimeout l) := fun _ _ h => nomatch h
theorem seamLaneFault (l : Nat) : Statement (.seamLaneFault l) := fun _ _ h => nomatch h
theorem seamSerWindow (l : Nat) : Statement (.seamSerWindow l) := fun _ _ h => nomatch h
theorem seamRetrainWrite (who : Nat) (l : Nat) (val : Word) : Statement (.seamRetrainWrite who l val) := fun _ _ h => nomatch h
theorem seamRewidenWrite (who : Nat) (l : Nat) (val : Word) : Statement (.seamRewidenWrite who l val) := fun _ _ h => nomatch h
theorem seamEnableWrite (who : Nat) (l : Nat) (val : Word) (cable : Bytes) : Statement (.seamEnableWrite who l val cable) := fun _ _ h => nomatch h
theorem seamTrained (l : Nat) (lanes : Nat) : Statement (.seamTrained l lanes) := fun _ _ h => nomatch h
theorem seamCheckDone (l : Nat) (peer : SeamIdent) : Statement (.seamCheckDone l peer) := fun _ _ h => nomatch h
theorem seamTrainTimeout (l : Nat) : Statement (.seamTrainTimeout l) := fun _ _ h => nomatch h
theorem seamRetrainTimeout (l : Nat) : Statement (.seamRetrainTimeout l) := fun _ _ h => nomatch h
theorem seamRetryInterval (l : Nat) (cable : Bytes) : Statement (.seamRetryInterval l cable) := fun _ _ h => nomatch h
theorem seamTransaction (l : Nat) (seq : Nat) (m : SeamMsg) : Statement (.seamTransaction l seq m) := fun _ _ h => nomatch h
theorem seamTransactionAck (peer : Nat) (seq : Nat) (st : Nat) : Statement (.seamTransactionAck peer seq st) := fun _ _ h => nomatch h
theorem seamBundleTimeout (peer : Nat) : Statement (.seamBundleTimeout peer) := fun _ _ h => nomatch h
theorem tbSkewSample (l : Nat) : Statement (.tbSkewSample l) := fun _ _ h => nomatch h
theorem frameReceive (m : Nat) (frame : Bytes) : Statement (.frameReceive m frame) := fun _ _ h => nomatch h
theorem policerRefill : Statement (.policerRefill) := fun _ _ h => nomatch h
theorem ptpMessage : Statement (.ptpMessage) := fun _ _ h => nomatch h
theorem parseHandoff : Statement (.parseHandoff) := fun _ _ h => nomatch h
theorem reorderRelease (m : Nat) : Statement (.reorderRelease m) := fun _ _ h => nomatch h
theorem streamPlace (st : Nat) : Statement (.streamPlace st) := fun _ _ h => nomatch h
theorem streamRecordComplete (st : Nat) : Statement (.streamRecordComplete st) := fun _ _ h => nomatch h
theorem consumedWrite (who : Nat) (st : Nat) (val : BitVec 64) : Statement (.consumedWrite who st val) := fun _ _ h => nomatch h
theorem tenantMapWrite (who : Nat) (idx : Nat) (val : Word) : Statement (.tenantMapWrite who idx val) := fun _ _ h => nomatch h
theorem profileWrite (who : Nat) (prof : Nat) (word : Nat) (val : Word) : Statement (.profileWrite who prof word val) := fun _ _ h => nomatch h
theorem ethEnableWrite (who : Nat) (p : Nat) (val : Word) (moduleOk : Bool) : Statement (.ethEnableWrite who p val moduleOk) := fun _ _ h => nomatch h
theorem macLinkChange (m : Nat) (up : Bool) : Statement (.macLinkChange m up) := fun _ _ h => nomatch h
theorem frameTransmit (m : Nat) : Statement (.frameTransmit m) := fun _ _ h => nomatch h
theorem shaperRefill (m : Nat) : Statement (.shaperRefill m) := fun _ _ h => nomatch h
theorem gateIntervalEnd (m : Nat) : Statement (.gateIntervalEnd m) := fun _ _ h => nomatch h
theorem ftWrite : Statement (.ftWrite) := fun _ _ h => nomatch h
theorem ftRead : Statement (.ftRead) := fun _ _ h => nomatch h
theorem ftSend : Statement (.ftSend) := fun _ _ h => nomatch h
theorem ftAtomic : Statement (.ftAtomic) := fun _ _ h => nomatch h
theorem ftSignal : Statement (.ftSignal) := fun _ _ h => nomatch h
theorem ftPacketSend (m : Nat) : Statement (.ftPacketSend m) := fun _ _ h => nomatch h
theorem ftRxWrite : Statement (.ftRxWrite) := fun _ _ h => nomatch h
theorem ftRxRead : Statement (.ftRxRead) := fun _ _ h => nomatch h
theorem ftRxReadResp : Statement (.ftRxReadResp) := fun _ _ h => nomatch h
theorem ftRxSend : Statement (.ftRxSend) := fun _ _ h => nomatch h
theorem ftRxAtomic : Statement (.ftRxAtomic) := fun _ _ h => nomatch h
theorem ftRxAtomicResp : Statement (.ftRxAtomicResp) := fun _ _ h => nomatch h
theorem ftRxAck : Statement (.ftRxAck) := fun _ _ h => nomatch h
theorem ftRxNak : Statement (.ftRxNak) := fun _ _ h => nomatch h
theorem ftRxClose : Statement (.ftRxClose) := fun _ _ h => nomatch h
theorem ftRxSignal : Statement (.ftRxSignal) := fun _ _ h => nomatch h
theorem ftAckTimer (src : Nat) (msg : Nat) : Statement (.ftAckTimer src msg) := fun _ _ h => nomatch h
theorem ftRtoExpiry (m : Nat) (pkt : Nat) : Statement (.ftRtoExpiry m pkt) := fun _ _ h => nomatch h
theorem ftRetryLimit (m : Nat) : Statement (.ftRetryLimit m) := fun _ _ h => nomatch h
theorem ftEntryIdleAbort (src : Nat) (msg : Nat) : Statement (.ftEntryIdleAbort src msg) := fun _ _ h => nomatch h
theorem ftEntryLinger (src : Nat) (msg : Nat) : Statement (.ftEntryLinger src msg) := fun _ _ h => nomatch h
theorem ftCloseAgeExpiry (src : Nat) (msg : Nat) : Statement (.ftCloseAgeExpiry src msg) := fun _ _ h => nomatch h
theorem ftRateIncrease (b : Nat) : Statement (.ftRateIncrease b) := fun _ _ h => nomatch h
theorem ftBucketIdle (b : Nat) : Statement (.ftBucketIdle b) := fun _ _ h => nomatch h
theorem stoDoorbellWrite (who : Nat) (qi : Nat) (word : Nat) (val : Word) : Statement (.stoDoorbellWrite who qi word val) := fun _ _ h => nomatch h
theorem stoRead : Statement (.stoRead) := fun _ _ h => nomatch h
theorem stoWrite : Statement (.stoWrite) := fun _ _ h => nomatch h
theorem stoFlush : Statement (.stoFlush) := fun _ _ h => nomatch h
theorem stoTrim : Statement (.stoTrim) := fun _ _ h => nomatch h
theorem stoAtomicWrite : Statement (.stoAtomicWrite) := fun _ _ h => nomatch h
theorem stoSelfTest : Statement (.stoSelfTest) := fun _ _ h => nomatch h
theorem stoPower : Statement (.stoPower) := fun _ _ h => nomatch h
theorem nvmeCommandComplete (d : Replayed) (cid : Nat) (status : Nat) (data : Bytes) : Statement (.nvmeCommandComplete d cid status data) := fun _ _ h => nomatch h
theorem nvmeCommandTimeout (d : Nat) (cid : Nat) : Statement (.nvmeCommandTimeout d cid) := fun _ _ h => nomatch h
theorem driveReadyTimeout (d : Nat) : Statement (.driveReadyTimeout d) := fun _ _ h => nomatch h
theorem drivePresenceChange (d : Nat) (ident : Option DriveId) : Statement (.drivePresenceChange d ident) := fun _ _ h => nomatch h
theorem selfTestRestart (d : Nat) : Statement (.selfTestRestart d) := fun _ _ h => nomatch h
theorem selfTestLimit (take : Nat) : Statement (.selfTestLimit take) := fun _ _ h => nomatch h
theorem apstWrite (who : Nat) (d : Nat) (val : Word) : Statement (.apstWrite who d val) := fun _ _ h => nomatch h
theorem bar2Read (p : Nat) (v : Nat) (off : Nat) (len : Nat) : Statement (.bar2Read p v off len) := fun _ _ h => nomatch h
theorem bar2Write (p : Nat) (v : Nat) (off : Nat) (data : Bytes) : Statement (.bar2Write p v off data) := fun _ _ h => nomatch h
theorem xlatEntryWrite (who : Nat) (i : Nat) (e : Nat) (val : BitVec 64) : Statement (.xlatEntryWrite who i e val) := fun _ _ h => nomatch h
theorem busMasterEnableChange (i : Nat) (on : Bool) : Statement (.busMasterEnableChange i on) := fun _ _ h => nomatch h
theorem memorySpaceEnableChange (i : Nat) (on : Bool) : Statement (.memorySpaceEnableChange i on) := fun _ _ h => nomatch h
theorem upstreamCompletion (i : Replayed) (addr : Nat) (data : Bytes) (ok : Bool) : Statement (.upstreamCompletion i addr data ok) := fun _ _ h => nomatch h
theorem upstreamTimeout (i : Nat) (addr : Nat) (len : Nat) : Statement (.upstreamTimeout i addr len) := fun _ _ h => nomatch h
theorem functionLevelReset (i : Nat) : Statement (.functionLevelReset i) := fun _ _ h => nomatch h
theorem hostPortReset (p : Nat) : Statement (.hostPortReset p) := fun _ _ h => nomatch h
theorem dlDown (p : Nat) : Statement (.dlDown p) := fun _ _ h => nomatch h
theorem pcieConfigRequest (p : Nat) : Statement (.pcieConfigRequest p) := fun _ _ h => nomatch h
theorem perstChange (p : Nat) (high : Bool) : Statement (.perstChange p high) := fun _ _ h => nomatch h
theorem tenPortWrite (who : Nat) (val : Word) : Statement (.tenPortWrite who val) := fun _ _ h => nomatch h
theorem heartbeatExpiry (i : Nat) : Statement (.heartbeatExpiry i) := fun _ _ h => nomatch h
theorem securityAlarm (cause : Nat) : Statement (.securityAlarm cause) := fun _ _ h => nomatch h
theorem rngHealthFail : Statement (.rngHealthFail) := fun _ _ h => nomatch h
theorem jtagTapAccess (idcode : Bool) : Statement (.jtagTapAccess idcode) := fun _ _ h => nomatch h
theorem coldReset (pin : Nat) : Statement (.coldReset pin) := fun _ _ h => nomatch h
theorem startupStepDone (ok : Bool) (straps : Nat) (board : Bytes) (fitted : Scan) (idents : List Bytes) (cables : List Bytes) (trained : Nat) (drives : List (Option DriveId)) : Statement (.startupStepDone ok straps board fitted idents cables trained drives) := fun _ _ h => nomatch h
theorem powerGoodFall : Statement (.powerGoodFall) := fun _ _ h => nomatch h
theorem warmReset (src : Nat) : Statement (.warmReset src) := fun _ _ h => nomatch h
theorem pmSample (watts : Nat) (cd0 : Int) (cd1 : Int) (idc : Int) : Statement (.pmSample watts cd0 cd1 idc) := fun _ _ h => nomatch h
theorem frequencySwitch (mhz : Nat) (mv : Nat) (ack : Bool) : Statement (.frequencySwitch mhz mv ack) := fun _ _ h => nomatch h
theorem thermalClamp (deg : Int) : Statement (.thermalClamp deg) := fun _ _ h => nomatch h
theorem clampRelease (cool : Nat) : Statement (.clampRelease cool) := fun _ _ h => nomatch h
theorem thermalTrip (deg : Int) : Statement (.thermalTrip deg) := fun _ _ h => nomatch h
theorem lodeIdleExit (n : Nat) : Statement (.lodeIdleExit n) := fun _ _ h => nomatch h
theorem logRingWrite (i : Nat) : Statement (.logRingWrite i) := fun _ _ h => nomatch h
theorem logHeadWrite (who : Nat) (i : Nat) (val : Word) : Statement (.logHeadWrite who i val) := fun _ _ h => nomatch h
theorem sidebandRecordRead (off : Nat) : Statement (.sidebandRecordRead off) := fun _ _ h => nomatch h
theorem exportPacketSend : Statement (.exportPacketSend) := fun _ _ h => nomatch h
theorem msiXUnmask (i : Nat) (vec : Nat) : Statement (.msiXUnmask i vec) := fun _ _ h => nomatch h
theorem pcieLinkUp (p : Nat) (speed : Nat) (width : Nat) : Statement (.pcieLinkUp p speed width) := fun _ _ h => nomatch h
theorem entropyStartUpTestsPass : Statement (.entropyStartUpTestsPass) := fun _ _ h => nomatch h
theorem entropyWaitTimeout (id : Nat) : Statement (.entropyWaitTimeout id) := fun _ _ h => nomatch h
theorem deviceSelfTestComplete (d : Nat) (result : Nat) : Statement (.deviceSelfTestComplete d result) := fun _ _ h => nomatch h
theorem driveReady (d : Nat) : Statement (.driveReady d) := fun _ _ h => nomatch h

end Sys2Proof.Laws.Spelling
end

