-- ==== Sys2Proof/Laws/Raise.lean ====
section
/-! SUPPORT. What creating a record does: it changes the telemetry state and the registers of block TEL, and nothing else. -/
namespace Sys2Proof.Machine

open Sys2Proof

/-- `s` is `a` but for telemetry state and registers of block TEL. -/
structure Tells (a s : State) : Prop where
  rest : s = { a with regs := s.regs, tel := s.tel }
  regs : ∀ (d k : Nat), k < 0x500000 ∨ 0x600000 ≤ k → tget d s.regs k = tget d a.regs k

theorem Tells.refl (s : State) : Tells s s := ⟨rfl, fun _ _ _ => rfl⟩

theorem Tells.trans {a b c : State} (h : Tells a b) (g : Tells b c) : Tells a c :=
  ⟨by rw [g.rest, h.rest], fun d k e => (g.regs d k e).trans (h.regs d k e)⟩

theorem tells_tel (s : State) (t : Telemetry) : Tells s { s with tel := t } := ⟨rfl, fun _ _ _ => rfl⟩

theorem tells_setReg (s : State) (r : Reg) (i j v : Nat) (h : 0x500000 ≤ regAddr r i j 0 ∧ regAddr r i j 0 < 0x600000) :
    Tells s (s.setReg r i j v) :=
  ⟨rfl, fun d k e => by
    show tget d (tput _ s.regs _ _) k = _
    have g : k ≠ regAddr r i j 0 := by omega
    exact tget_tput_other _ _ _ g⟩

theorem Tells.foldl {α : Type} {f : State → α → State} (hf : ∀ s x, Tells s (f s x)) : ∀ (l : List α) (s : State), Tells s (l.foldl f s)
  | [], s => Tells.refl s
  | x :: l, s => (hf s x).trans (Tells.foldl hf l (f s x))

theorem Tells.foldlIn {α : Type} {f : State → α → State} {P : α → Prop} (hf : ∀ s x, P x → Tells s (f s x)) :
    ∀ (l : List α), (∀ x, x ∈ l → P x) → ∀ (s : State), Tells s (l.foldl f s)
  | [], _, s => Tells.refl s
  | x :: l, h, s => (hf s x (h x (List.mem_cons_self ..))).trans (Tells.foldlIn hf l (fun y g => h y (List.mem_cons_of_mem _ g)) (f s x))

theorem tells_enqueue (p : Nat) (r : Rec) (s : State) : Tells s (enqueue p r s) := by
  unfold enqueue
  dsimp only
  split
  · exact tells_tel s _
  · exact tells_tel s _

theorem tells_flushAlarm (p : Nat) (s : State) : Tells s (flushAlarm p s) := by
  unfold flushAlarm
  split
  · exact Tells.refl s
  · split
    · exact (tells_tel s _).trans (tells_enqueue _ _ _)
    · exact Tells.refl s

theorem tells_flushMore (p : Nat) (s : State) : Tells s (flushMore p s) := by
  unfold flushMore
  split
  · split
    · exact (tells_tel s _).trans (tells_enqueue _ _ _)
    · exact Tells.refl s
  · exact Tells.refl s

theorem tells_flushGap (p : Nat) (s : State) : Tells s (flushGap p s) := by
  unfold flushGap
  split
  · split
    · exact (tells_tel s _).trans (tells_enqueue _ _ _)
    · exact Tells.refl s
  · exact Tells.refl s

theorem tells_flushPath (p : Nat) (s : State) : Tells s (flushPath p s) := by
  unfold flushPath
  exact (Tells.foldl (fun s _ => tells_flushAlarm p s) _ s).trans ((tells_flushMore p _).trans (tells_flushGap p _))

theorem tells_countPath (s : State) (r : Reg) (p n : Nat) (hr : r = .errPathAlarm ∨ r = .errPathMerged ∨ r = .errPathDrop) (hp : p < 21) :
    Tells s (s.count r 0 p n) := by
  have h : 0x500000 ≤ regAddr r 0 p 0 ∧ regAddr r 0 p 0 < 0x600000 := by
    rcases hr with rfl | rfl | rfl <;> simp [regAddr, regRow, blkBase] <;> omega
  unfold State.count
  split <;> exact tells_setReg _ _ _ _ _ h

theorem tells_admit (p : Nat) (r : Rec) (s : State) (hp : p < 21) : Tells s (admitIn p r s) := by
  unfold admitIn
  dsimp only
  refine Tells.trans (b := _) ?_ (tells_flushPath p _)
  have q : ∀ (c : Prop) [Decidable c] (r' : Reg) (x : Path) (n : Nat), r' = .errPathAlarm ∨ r' = .errPathMerged ∨ r' = .errPathDrop →
      Tells s (if c then enqueue p r s else (s.setPath p x).count r' 0 p n) := by
    intro c _ r' x n h
    split
    · exact tells_enqueue _ _ _
    · exact (tells_tel s _).trans (tells_countPath _ _ _ _ h hp)
  split
  · exact q _ .errPathAlarm _ 1 (.inl rfl)
  · split
    · exact q _ .errPathMerged _ 1 (.inr (.inl rfl))
    · exact q _ .errPathDrop _ 1 (.inr (.inr rfl))

theorem tells_capture (r : Rec) (s : State) (ht : ∀ t, r.tenant = some t → t < 0xF00) : Tells s (capture r s) := by
  unfold capture
  split
  · dsimp only
    refine Tells.trans (b := if bit (s.reg .errFirstCtl) 0 then s
      else (s.setReg .errFirst 0 0 (leNat (recBytes false r))).setReg .errFirstCtl 0 0 1) ?_ ?_
    · split
      · exact Tells.refl s
      · exact (tells_setReg _ _ _ _ _ (by simp [regAddr, regRow, blkBase])).trans
          (tells_setReg _ _ _ _ _ (by simp [regAddr, regRow, blkBase]))
    · generalize (if bit (s.reg .errFirstCtl) 0 then s
        else (s.setReg .errFirst 0 0 (leNat (recBytes false r))).setReg .errFirstCtl 0 0 1) = u
      split
      · next t e =>
        have ht := ht t e
        split
        · exact Tells.refl u
        · exact (tells_setReg _ _ _ _ _ (by simp [regAddr, regRow, blkBase]; omega)).trans
            (tells_setReg _ _ _ _ _ (by simp [regAddr, regRow, blkBase]; omega))
      · exact Tells.refl u
  · exact Tells.refl s

/-- Creating a record of no tenant, or of one there is. -/
theorem tells_raise (cls : Nat) (ten : Option Nat) (source kind : Nat) (body : Bytes) (s : State) (ht : ∀ t, ten = some t → t < 0xF00) :
    Tells s (raise cls ten source kind body s) := by
  unfold raise
  dsimp only
  refine (tells_tel s _).trans ((tells_capture _ _ ht).trans (Tells.foldlIn (P := fun p => p < 21) (fun s p hp => ?_) _ (fun p hp => ?_) _))
  · split
    · exact tells_admit _ _ _ hp
    · exact Tells.refl s
  · simpa using hp

/-- A register outside block TEL reads as before a record. -/
theorem Tells.reg {a s : State} (h : Tells a s) {r : Reg} {i j : Nat} (e : regAddr r i j 0 < 0x500000 ∨ 0x600000 ≤ regAddr r i j 0) :
    s.reg r i j = a.reg r i j := h.regs _ _ e

theorem Tells.latch {a s : State} (h : Tells a s) : s.latch = a.latch := by rw [h.rest]
theorem Tells.resp {a s : State} (h : Tells a s) : s.resp = a.resp := by rw [h.rest]
theorem Tells.fresh {a s : State} (h : Tells a s) : s.fresh = a.fresh := by rw [h.rest]
theorem Tells.tb {a s : State} (h : Tells a s) : s.tb = a.tb := by rw [h.rest]
theorem Tells.power {a s : State} (h : Tells a s) : s.power = a.power := by rw [h.rest]
theorem Tells.pins {a s : State} (h : Tells a s) : s.pins = a.pins := by rw [h.rest]
theorem Tells.mem {a s : State} (h : Tells a s) : s.mem = a.mem := by rw [h.rest]
theorem Tells.bad {a s : State} (h : Tells a s) : s.bad = a.bad := by rw [h.rest]
theorem Tells.own {a s : State} (h : Tells a s) : s.own = a.own := by rw [h.rest]
theorem Tells.memctl {a s : State} (h : Tells a s) : s.memctl = a.memctl := by rw [h.rest]
theorem Tells.hostMem {a s : State} (h : Tells a s) : s.hostMem = a.hostMem := by rw [h.rest]
theorem Tells.hosts {a s : State} (h : Tells a s) : s.hosts = a.hosts := by rw [h.rest]
theorem Tells.ports {a s : State} (h : Tells a s) : s.ports = a.ports := by rw [h.rest]
theorem Tells.wire {a s : State} (h : Tells a s) : s.wire = a.wire := by rw [h.rest]
theorem Tells.cmd {a s : State} (h : Tells a s) : s.cmd = a.cmd := by rw [h.rest]
theorem Tells.sync {a s : State} (h : Tells a s) : s.sync = a.sync := by rw [h.rest]
theorem Tells.fw {a s : State} (h : Tells a s) : s.fw = a.fw := by rw [h.rest]
theorem Tells.eng {a s : State} (h : Tells a s) : s.eng = a.eng := by rw [h.rest]
theorem Tells.chains {a s : State} (h : Tells a s) : s.chains = a.chains := by rw [h.rest]
theorem Tells.cores {a s : State} (h : Tells a s) : s.cores = a.cores := by rw [h.rest]
theorem Tells.lodes {a s : State} (h : Tells a s) : s.lodes = a.lodes := by rw [h.rest]
theorem Tells.groups {a s : State} (h : Tells a s) : s.groups = a.groups := by rw [h.rest]
theorem Tells.net {a s : State} (h : Tells a s) : s.net = a.net := by rw [h.rest]
theorem Tells.sto {a s : State} (h : Tells a s) : s.sto = a.sto := by rw [h.rest]
theorem Tells.seam {a s : State} (h : Tells a s) : s.seam = a.seam := by rw [h.rest]
theorem Tells.ft {a s : State} (h : Tells a s) : s.ft = a.ft := by rw [h.rest]
theorem Tells.ckpt {a s : State} (h : Tells a s) : s.ckpt = a.ckpt := by rw [h.rest]
theorem Tells.keys {a s : State} (h : Tells a s) : s.keys = a.keys := by rw [h.rest]
theorem Tells.sec {a s : State} (h : Tells a s) : s.sec = a.sec := by rw [h.rest]
theorem Tells.pending {a s : State} (h : Tells a s) : s.pending = a.pending := by rw [h.rest]

/-! ### What entering and leaving a queue does -/

theorem enqueue_tel (p : Nat) (r : Rec) (s : State) : ∃ t, enqueue p r s = { s with tel := t } ∧ t.rings = s.tel.rings ∧ t.traces = s.tel.traces := by
  unfold enqueue
  dsimp only
  split <;> exact ⟨_, rfl, rfl, rfl⟩

theorem flushAlarm_tel (p : Nat) (s : State) : ∃ t, flushAlarm p s = { s with tel := t } ∧ t.rings = s.tel.rings ∧ t.traces = s.tel.traces := by
  unfold flushAlarm
  split
  · exact ⟨s.tel, rfl, rfl, rfl⟩
  · split
    · obtain ⟨t, e, f⟩ := enqueue_tel p _ (s.setPath p { s.path p with alarms := _ })
      exact ⟨t, e, f⟩
    · exact ⟨s.tel, rfl, rfl, rfl⟩

theorem flushMore_tel (p : Nat) (s : State) : ∃ t, flushMore p s = { s with tel := t } ∧ t.rings = s.tel.rings ∧ t.traces = s.tel.traces := by
  unfold flushMore
  split
  · split
    · obtain ⟨t, e, f⟩ := enqueue_tel p _ _
      exact ⟨t, e.trans rfl, f⟩
    · exact ⟨s.tel, rfl, rfl, rfl⟩
  · exact ⟨s.tel, rfl, rfl, rfl⟩

theorem flushGap_tel (p : Nat) (s : State) : ∃ t, flushGap p s = { s with tel := t } ∧ t.rings = s.tel.rings ∧ t.traces = s.tel.traces := by
  unfold flushGap
  split
  · split
    · obtain ⟨t, e, f⟩ := enqueue_tel p _ _
      exact ⟨t, e.trans rfl, f⟩
    · exact ⟨s.tel, rfl, rfl, rfl⟩
  · exact ⟨s.tel, rfl, rfl, rfl⟩

/-- Pending records that enter change paths only: rings and trace configurations stay. -/
theorem flushPath_tel (p : Nat) (s : State) : ∃ t, flushPath p s = { s with tel := t } ∧ t.rings = s.tel.rings ∧ t.traces = s.tel.traces := by
  unfold flushPath
  have f : ∀ (l : List Rec) (s : State), ∃ t, l.foldl (fun s _ => flushAlarm p s) s = { s with tel := t } ∧ t.rings = s.tel.rings ∧ t.traces = s.tel.traces := by
    intro l
    induction l with
    | nil => intro s; exact ⟨s.tel, rfl, rfl, rfl⟩
    | cons a l ih =>
      intro s
      obtain ⟨t, e, f⟩ := flushAlarm_tel p s
      obtain ⟨u, g, h⟩ := ih (flushAlarm p s)
      refine ⟨u, by rw [List.foldl_cons, g, e], h.1.trans ?_, h.2.trans ?_⟩
      · rw [e]; exact f.1
      · rw [e]; exact f.2
  obtain ⟨t, e, e'⟩ := f (s.path p).alarms s
  obtain ⟨u, g, g'⟩ := flushMore_tel p ((s.path p).alarms.foldl (fun s _ => flushAlarm p s) s)
  obtain ⟨v, h, h'⟩ := flushGap_tel p (flushMore p ((s.path p).alarms.foldl (fun s _ => flushAlarm p s) s))
  refine ⟨v, by rw [h, g, e], h'.1.trans ?_, h'.2.trans ?_⟩
  · rw [g]; exact g'.1.trans (by rw [e]; exact e'.1)
  · rw [g]; exact g'.2.trans (by rw [e]; exact e'.2)

/-- A path with nothing pending. -/
theorem flushPath_idle (s : State) (p : Nat) (h1 : (s.path p).alarms = []) (h2 : (s.path p).more = none) (h3 : (s.path p).gap = none) :
    flushPath p s = s := by
  unfold flushPath
  rw [h1]
  show flushGap p (flushMore p s) = s
  have e : flushMore p s = s := by unfold flushMore; simp only [h2]
  rw [e]; unfold flushGap; simp only [h3]

/-- A count of one word saturates. -/
theorem reg_count32 (s : State) (r : Reg) (i j n : Nat) (h : (regRow r).words = 1) : (s.count r i j n).reg r i j = satAdd 0xFFFFFFFF (s.reg r i j) n := by
  unfold State.count
  rw [if_pos h, reg_setReg, h]
  have : satAdd 0xFFFFFFFF (s.reg r i j) n ≤ 0xFFFFFFFF := by unfold satAdd; split <;> omega
  omega

end Sys2Proof.Machine
end

