-- ==== Sys2Proof/Laws/SyncCore.lean ====
section
/-! SUPPORT. What testing and withdrawing waiters changes: the state of the counters and nothing else. -/
namespace Sys2Proof.Machine

open Sys2Proof

theorem passHead_rest (p : Nat) (s : State) : (passHead p s).2 = { s with sync := (passHead p s).2.sync } := by
  unfold passHead
  dsimp only
  split
  · rfl
  · split <;> rfl

theorem settleN_rest : ∀ (f : Nat) (ps : List Nat) (s : State), settleN f ps s = { s with sync := (settleN f ps s).sync }
  | 0, _, _ => rfl
  | f + 1, ps, s => by
    unfold settleN
    split
    · rfl
    · next p _ => rw [settleN_rest f (ps ++ (passHead p s).1) (passHead p s).2, passHead_rest p s]

/-- Testing the waiters of counters changes nothing but the counters' state. -/
theorem settle_rest (ps : List Nat) (s : State) : settle ps s = { s with sync := (settle ps s).sync } := settleN_rest _ _ _

/-- Withdrawing a source's waits changes nothing but the counters' state. -/
theorem withdraw_rest (src : Nat) (tag : Option Nat) (s : State) : withdraw src tag s = { s with sync := (withdraw src tag s).sync } := by
  unfold withdraw
  exact settle_rest _ _

end Sys2Proof.Machine
end

