-- ==== Sys2Proof/Tests/Slice0.lean ====
section
/-! SUPPORT. The package's own tests: an ill-formed command for each check of `Instr.wf`, the spec's worked examples, and for every
statement with hypotheses states and operands that meet them, clause by clause (`witness_<statement>`). Where a hypothesis is about
a function that `Config` leaves without a body, the witness takes what that function answers as a hypothesis of its own. -/
namespace Sys2Proof.Tests

open Sys2Proof Sys2Proof.Machine

set_option Elab.async false

/-- Whether a command is `Ready`, as a test that runs. -/
def readyB (s : State) (o : Op) (id : Nat) (c : Cmd) : Bool :=
  s.power.running && decide (findCmd s id = some c) && decide (cmdOp c = some o) && decide (c.phase = .ready) && unitTurn s c && decide (s.power.dstate = .on) &&
    (devParams o c).all fun a => !memWaits s a 1

theorem rdy {s : State} {o : Op} {id : Nat} {c : Cmd} (h : readyB s o id c = true) : Ready s o id c := by
  simp only [readyB, Bool.and_eq_true, decide_eq_true_eq, List.all_eq_true, Bool.not_eq_true'] at h
  exact ⟨h.1.1.1.1.1.1, h.1.1.1.1.1.2, h.1.1.1.1.2, h.1.1.1.2, h.1.1.2, h.1.2, h.2⟩

/-- The first bytes of a command of R191 with its parameters at their offsets (R192). -/
def cmdBytes (o : Op) (ps : List Nat) : Bytes :=
  (ps.zipIdx).foldl (fun b e => splice b (paramOff o e.2) (leBytes ((opRow o).params.getD e.2 .u8).size e.1))
    (leBytes 1 (opRow o).cls ++ leBytes 1 (opRow o).code ++ zeros 126)

/-- A taken command of function `fn` that is ready to start, and a state in which it is the only one. -/
def cmdOf (o : Op) (fn : Nat) (ps : List Nat) : Cmd := { id := 1, fn := fn, q := 0, head := 1, bytes := cmdBytes o ps, phase := .ready }

def having (c : Cmd) (s : State) : State := { s with cmd := { s.cmd with cmds := [c] } }

/-- A record of `n` bytes from its fields, each an offset, a size and a value. -/
def rec_ (n : Nat) (fs : List (Nat × Nat × Nat)) : Bytes := fs.foldl (fun b f => splice b f.1 (leBytes f.2.1 f.2.2)) (zeros n)

/-- The bytes of an answered read. -/
def okBytes {ε : Type} (r : Except ε Bytes) : Bytes := match r with | .ok b => b | .error _ => []

/-- An answered read: the state it left and what it answered. -/
theorem okIs {ε β : Type} [DecidableEq β] {r : State × Except ε β} {b : β}
    (h : (match r.2 with | .ok x => decide (x = b) | .error _ => false) = true) : r = (r.1, .ok b) := by
  obtain ⟨t, e | x⟩ := r
  · cases h
  · simp only [decide_eq_true_eq] at h
    rw [h]

theorem okSame {ε β : Type} [DecidableEq β] {r : State × Except ε β} {b : β} {s : State} (k : r.1 = s)
    (h : (match r.2 with | .ok x => decide (x = b) | .error _ => false) = true) : r = (s, .ok b) := by
  rw [okIs h, k]

theorem errIs {ε β : Type} [DecidableEq ε] {r : State × Except ε β} {e : ε}
    (h : (match r.2 with | .error x => decide (x = e) | .ok _ => false) = true) : r = (r.1, .error e) := by
  obtain ⟨t, x | b⟩ := r
  · simp only [decide_eq_true_eq] at h
    rw [h]
  · cases h

theorem okSome {ε : Type} {r : State × Except ε Bytes} (h : (match r.2 with | .ok _ => true | .error _ => false) = true) :
    r = (r.1, .ok (okBytes r.2)) := by
  obtain ⟨t, e | b⟩ := r
  · cases h
  · rfl

/-- Lode `n` belongs to tenant `t`. -/
def owned (n t : Nat) (s : State) : State := { s with own := { s.own with lodes := tput 0 s.own.lodes n (t + 1) } }

theorem hwr {s : State} {fn a : Nat} {bs : Bytes} (h : fnBme s fn = true) (hm : ∀ e ∈ s.hostMem, e.2 ≠ .bad) :
    hostWrite s fn a bs = ({ s with hostMem := hostPut s.hostMem (fnPort s fn) a bs }, .ok ()) := by
  have hg : ∀ (l : Tbl HCell) k, (∀ e ∈ l, e.2 ≠ .bad) → tget .unknown l k ≠ .bad := fun l k hl => by
    induction l with
    | nil => simp [tget]
    | cons x t ih =>
      unfold tget
      split
      · exact hl x (by simp)
      · exact ih fun e he => hl e (List.mem_cons_of_mem _ he)
  have hc : (hostCells s (fnPort s fn) a bs.length).contains .bad = false := by
    simp only [hostCells, List.contains_eq_mem, List.mem_map, decide_eq_false_iff_not, not_exists, not_and]
    exact fun i _ => hg _ _ hm
  simp only [hostWrite, h, hc, Bool.not_true, Bool.false_eq_true, ↓reduceIte]

theorem find_first {p : Nat → Bool} (h : p 0 = true) : (List.range 65536).find? p = some 0 := by
  rw [show (65536 : Nat) = 65535 + 1 from rfl, List.range_succ_eq_map, List.find?_cons, h]

theorem wrOk {α ε : Type} {r : α × Option ε} (h : r.2 = none) : r = (r.1, none) := by
  rw [← h]

theorem find_replicate {α : Type} {p : α → Bool} {a : α} (h : p a = false) : ∀ n, (List.replicate n a).find? p = none
  | 0 => rfl
  | n + 1 => by rw [List.replicate_succ, List.find?_cons, h]; exact find_replicate h n

theorem takeTwo (x y : Int) (P : Int → Prop) (h0 : P 0) (h1 : P (x + 0)) (h2 : P (x + (y + 0))) : ∀ n, P ((List.take n [x, y]).sum)
  | 0 => h0
  | 1 => h1
  | _ + 2 => by rw [List.take_of_length_le (by simp)]; exact h2

theorem brIs {α β : Type} {r : α × β} {e : β} (h : r.2 = e) : r = (r.1, e) := by
  rw [← h]


theorem errAt {α β γ : Type} [DecidableEq β] [DecidableEq γ] {r : α × β × Option γ} {n : β} {a : γ} (h : r.2 = (n, some a)) :
    r = (r.1, n, some a) := by
  rw [← h]

/-- Port 0's memory holds the bytes `bs` from `a` on and no other. -/
@[irreducible] def cellsAt (a : Nat) (bs : Bytes) : Tbl HCell := (List.range bs.length).map fun i => (a + i, .val (bs.getD i 0))

def holding (a : Nat) (bs : Bytes) (s : State) : State := { s with hostMem := cellsAt a bs }

theorem tget_shifted {α : Type} {d : α} {a : Nat} {f : Nat → α} {i : Nat} : ∀ l : List Nat, i ∈ l → tget d (l.map fun j => (a + j, f j)) (a + i) = f i
  | j :: t, h => by
    simp only [List.map_cons, tget]
    split
    · rename_i e; rw [show j = i by omega]
    · rename_i e
      refine tget_shifted t ?_
      rcases List.mem_cons.1 h with rfl | h
      · exact absurd rfl e
      · exact h

/-- What a function reads of the bytes that port 0's memory holds. -/
theorem held {s : State} {fn b n : Nat} (a : Nat) (bs : Bytes) (hm : s.hostMem = cellsAt a bs) (hn : bs.length = n)
    (h : fnBme s fn = true ∧ fnPort s fn = 0 ∧ b = a ∧ a + n ≤ 2 ^ 50) : hostRead s fn b n = (s, .ok bs) := by
  obtain ⟨h, hp, rfl, ha⟩ := h
  subst hn
  have hc : ∀ i, i < bs.length → tget .unknown s.hostMem (hostKey 0 (b + i)) = .val (bs.getD i 0) := fun i hi => by
    rw [hm]; unfold cellsAt; rw [show hostKey 0 (b + i) = b + i by unfold hostKey; omega]
    exact tget_shifted _ (List.mem_range.2 hi)
  have hcs : hostCells s 0 b bs.length = (List.range bs.length).map fun i => .val (bs.getD i 0) :=
    List.map_congr_left fun i hi => hc i (List.mem_range.1 hi)
  have hb : hostBytes s 0 b bs.length = bs := by
    apply List.ext_getElem (by simp [hostBytes])
    intro i h1 h2
    simp [hostBytes, hc i h2, h2]
  simp [hostRead, hostKnown, h, hp, hcs, hb]

/-- A cipher operation of tenant 15 on `n` bytes with an empty key, and a state in which it is the only one. -/
def cipher (mode n : Nat) (desc : Bytes) : CipherOp := ⟨1, 15, mode, 1015, 0x1000, 0x1020, n, desc, 0x1040, [], none⟩

def ciphering (o : CipherOp) : State := { State.reset with sec := { State.reset.sec with ctxs := [o] } }

/-- Reading memory in which no codeword is damaged. -/
theorem read_clean {s : State} (h : ∀ cw, cwRead s cw = (s, true)) (a n : Nat) : readMem s a n = (s, .ok (memBytes s a n)) := by
  have hs : ∀ l, cwReads s l = (s, none) := fun l => by
    induction l with
    | nil => rfl
    | cons x t ih => simp only [cwReads, h, ih]
  have hb : ∀ l, readBeside l s = s := fun l => by
    induction l with
    | nil => rfl
    | cons x t ih => unfold readBeside at ih ⊢; rw [List.foldl_cons, h]; exact ih
  simp only [readMem, hb, hs]

theorem reads_clean (o : CipherOp) (cw : Nat) : cwRead (ciphering o) cw = (ciphering o, true) := by
  have : cwSt (ciphering o) cw = .clean := by 
    simp only [cwSt, damage, show laneDamage (ciphering o) cw = 0 by unfold laneDamage; split <;> rfl]; rfl
  simp only [cwRead, cwReadAs, this]

theorem cipher_reads {n : Nat} (hn : n ≠ 0) {d : Bytes} (hd : fld d 24 8 = 0) :
    cipherRead (cipher 1 n d) (ciphering (cipher 1 n d)) = (ciphering (cipher 1 n d), .ok ([], memBytes State.reset 0x1000 n)) := by
  simp only [cipherRead, cipher, hd, ite_self, ↓reduceIte, hn]
  rw [read_clean (reads_clean _)]
  rfl

/-- A descriptor without additional data whose TAG is wrong. -/
theorem tag_wrong (x : Bytes) : ∃ d : Bytes, fld d 24 8 = 0 ∧ gcmTag [] (slice d 0 12) [] x ≠ slice d 32 16 := by
  by_cases h : gcmTag [] (zeros 12) [] x = zeros 16
  · refine ⟨rec_ 64 [(32, 1, 1)], by decide +kernel, ?_⟩
    rw [show slice (rec_ 64 [(32, 1, 1)]) 0 12 = zeros 12 by decide +kernel, h]
    decide +kernel
  · refine ⟨zeros 64, by decide +kernel, ?_⟩
    rw [show slice (zeros 64) 0 12 = zeros 12 by decide +kernel]
    exact fun e => h (e.trans (by decide +kernel))

/-- A tenant's or a host's token without what its own fields add. -/
def token (fs : List (Nat × Nat × Nat)) : Bytes :=
  rec_ 184 ([(0, 4, 0x70C35EC0), (4, 1, 1), (5, 1, 0x0A), (32, 8, 1), (176, 2, 4627)] ++ fs) ++ zeros 4627

/-- A key wrapped for slot 1015 under the empty key of slot 1016. -/
def wrapHead : Bytes := rec_ 92 [(0, 4, 0x4B3E0B10), (4, 1, 1), (5, 1, 2), (6, 2, 1016), (8, 2, 1015), (10, 2, 0x8000)]

def wrapped : Bytes := wrapHead ++ gcmTag [] (zeros 12) (wrapHead.take 16 ++ deviceIdBytes) (zeros 64) ++ zeros 20

theorem tag_length (k iv a c : Bytes) : (gcmTag k iv a c).length = 16 := by unfold gcmTag; simp [bytesOf, natBlock]

theorem wrapped_tag : slice wrapped 92 16 = gcmTag [] (zeros 12) (wrapHead.take 16 ++ deviceIdBytes) (zeros 64) := by
  have h : wrapHead.length = 92 := by decide +kernel
  have t := tag_length [] (zeros 12) (wrapHead.take 16 ++ deviceIdBytes) (zeros 64)
  unfold slice wrapped
  rw [List.append_assoc, List.drop_append_of_le_length (Nat.le_of_eq h.symm), List.drop_of_length_le (Nat.le_of_eq h), List.nil_append,
    List.take_append_of_le_length (Nat.le_of_eq t.symm), List.take_of_length_le (Nat.le_of_eq t)]
  dsimp only
  rw [t]
  exact List.append_nil _

theorem wrapped_length : wrapped.length = 128 := by
  have h : wrapHead.length = 92 := by decide +kernel
  simp [wrapped, tag_length, h, zeros]

theorem unwraps {s : State} (h : tget {} s.keys 1016 = { mode := 3 }) : (unwrapKey s 1015 wrapped).isSome = true := by
  have e2 : fld wrapped 6 2 = 1016 := by decide +kernel
  have e3 : slice wrapped 16 12 = zeros 12 := by decide +kernel
  have e4 : slice wrapped 28 64 = zeros 64 := by decide +kernel
  have e5 : wrapped.take 16 = wrapHead.take 16 := by decide +kernel
  have e6 : fld wrapped 5 1 = 2 := by decide +kernel
  have e7 : (slice (gcmCrypt [] (zeros 12) (zeros 64)) 0 32 != slice (gcmCrypt [] (zeros 12) (zeros 64)) 32 32) = true := by decide +kernel
  have e8 : (fld wrapped 0 4 == 0x4B3E0B10 && fld wrapped 4 1 == 1 && fld wrapped 8 2 == 1015 && decide (fld wrapped 12 1 < 2)
    && allZero (slice wrapped 13 3) && allZero (slice wrapped 108 20)) = true := by decide +kernel
  simp only [Bool.and_eq_true] at e8
  unfold unwrapKey
  simp only [e2, e3, e4, e5, e6, h, wrapped_tag, beq_self_eq_true, e7, e8, Bool.true_and, Bool.and_true]
  rfl

theorem held_part {s : State} {fn b n : Nat} (a : Nat) (bs : Bytes) (hm : s.hostMem = cellsAt a bs) (hn : bs.length = n)
    (h : fnBme s fn = true ∧ fnPort s fn = 0 ∧ b % 2 ^ 50 = a ∧ a + n ≤ 2 ^ 50) (hb : isHost b = true) : readPart s fn b n = (s, bs, none) := by
  simp only [readPart, readAddr, hb, ↓reduceIte]
  rw [held (s := s) (fn := fn) (b := b % 2 ^ 50) a bs hm hn h]

theorem fstIs {α β : Type} {r : α × β} {a : α} (h : r.1 = a) : r = (a, r.2) := by
  rw [← h]
/-! ### Well-formed commands -/

/-- Each check of `Instr.wf` refuses a command that names an instance just past the last one, every other operand being legal. -/
theorem test_wf_refuses_1 :
    ([.registerWrite 19 0 0 [],
      .tbStep 19 false 0,
      .tbAdjWrite 19 0,
      .modEnqueue ⟨64, none⟩,
      .modNop 64,
      .matmul 64,
      .grouped 64,
      .rangeScan 64,
      .transposeLoad 64,
      .engineDrainStart 64,
      .engineOpComplete 64 0,
      .engineOperandUe 64 0,
      .engineRmwUe 64,
      .quiesceWrite 19 0 0,
      .quiesceWrite 0 64 0,
      .dropResident 19 0 0,
      .dropResident 0 64 0,
      .bundleIssue 272 false,
      .ctlNop 272,
      .repeatCtl 272 false,
      .halt 272,
      .haltComplete 272,
      .unitResultVisible 272,
      .loadDataArrival 272,
      .delayedUncorrectable 272,
      .bcHoldWrite 19 0 0,
      .bcHoldWrite 0 272 0,
      .coreHoldTaken 272,
      .coreStart 19 0 0,
      .coreStart 0 272 0,
      .coreClear 19 0 0,
      .coreClear 0 272 0,
      .imemWrite ⟨.s, 0, 0⟩ 272 0 [],
      .imemWrite ⟨.s, 0, 0⟩ 0 0xFFFF [0, 0],
      .strataBankAccess 32 0 [],
      .strataBankAccess 0 48 []] : List Instr).any Instr.wf = false := by decide +kernel

/-- Each check of `Instr.wf` refuses a command that names an instance just past the last one, every other operand being legal. -/
theorem test_wf_refuses_2 :
    ([.strataScrubRead 32,
      .lodeZeroingDone 32,
      .moveEnqueue ⟨32, none⟩,
      .moveNop 32,
      .moveCopy 32,
      .moveFill 32,
      .moveSourceUe 32 0,
      .moveSourceUe 0 4,
      .moveComplete 32 0,
      .moveComplete 0 4,
      .lodeCtrlReset 19 0 0,
      .lodeCtrlReset 0 32 0,
      .lodeCtrlHold 19 0 0,
      .lodeCtrlHold 0 32 0,
      .lockGroupStart 32,
      .sqTailWrite 2 0 0 0,
      .sqTailWrite 0 17 0 0,
      .cqHeadWrite 2 0 0 0,
      .cqHeadWrite 0 17 0 0,
      .admqEnable 19 0 0,
      .admqEnable 0 18 0,
      .regionDrainEnd 8192,
      .stageWrite 19 0 0x18 0,
      .stageWrite 0 16 0x18 0,
      .stageWrite 0 0 0x28 0,
      .stageWrite 0 0 0x19 0,
      .signalArrival 17408 [],
      .waiterJoin 17408 [],
      .waitTimeout 17408 0,
      .coreCtxWrite 19 0 0,
      .coreCtxWrite 0 272 0,
      .fnCtxWrite 19 0 0,
      .fnCtxWrite 0 18 0,
      .watchdogExpiry ⟨35, 0⟩,
      .fwCrash 35 0,
      .fwRestartDone ⟨35, false⟩] : List Instr).any Instr.wf = false := by decide +kernel

/-- Each check of `Instr.wf` refuses a command that names an instance just past the last one, every other operand being legal. -/
theorem test_wf_refuses_3 :
    ([.controlCoreNotRecovered 32,
      .strictWrite 19 0 0,
      .strictWrite 0 16 0,
      .strictLockWrite 19 0 0,
      .strictLockWrite 0 16 0,
      .refreshSlot 12 0,
      .refreshSlot 0 32,
      .recalibration 12 0 false false false,
      .recalibration 0 32 false false false,
      .memoryScrubRead 12,
      .stackTemperatureReport 8 false,
      .segModeWrite 19 0 0,
      .segModeWrite 0 64 0,
      .segmentFillDone 64,
      .injectArm 19 0 0,
      .injectArm 0 12 0,
      .regionShareWrite 19 0 0,
      .regionShareWrite 0 8192 0,
      .seamDataFlit 24 false [],
      .seamCtrlFlit 24 ⟨true, true, 0, 0, none, [], 0, 0⟩,
      .seamAckTimeout 24,
      .seamLaneFault 24,
      .seamSerWindow 24,
      .seamRetrainWrite 19 0 0,
      .seamRetrainWrite 0 24 0,
      .seamRewidenWrite 19 0 0,
      .seamRewidenWrite 0 24 0,
      .seamEnableWrite 19 0 0 [],
      .seamEnableWrite 0 24 0 [],
      .seamTrained 24 0,
      .seamCheckDone 24 ⟨0, 0, 0, 0, 0, 0⟩,
      .seamTrainTimeout 24,
      .seamRetrainTimeout 24,
      .seamRetryInterval 24 [],
      .seamTransaction 24 0 (.signal 0 0 0),
      .seamTransactionAck 8 0 0] : List Instr).any Instr.wf = false := by decide +kernel

/-- Each check of `Instr.wf` refuses a command that names an instance just past the last one, every other operand being legal. -/
theorem test_wf_refuses_4 :
    ([.seamBundleTimeout 8,
      .tbSkewSample 24,
      .frameReceive 32 [],
      .reorderRelease 32,
      .streamPlace 256,
      .streamRecordComplete 256,
      .consumedWrite 19 0 0,
      .consumedWrite 0 256 0,
      .tenantMapWrite 19 0 0,
      .tenantMapWrite 0 4128 0,
      .profileWrite 19 0 0 0,
      .profileWrite 0 64 0 0,
      .profileWrite 0 0 10 0,
      .ethEnableWrite 19 0 0 false,
      .ethEnableWrite 0 8 0 false,
      .macLinkChange 32 false,
      .frameTransmit 32,
      .shaperRefill 32,
      .gateIntervalEnd 32,
      .ftPacketSend 65536,
      .ftRtoExpiry 65536 0,
      .ftRetryLimit 65536,
      .ftRateIncrease 4096,
      .ftBucketIdle 4096,
      .stoDoorbellWrite 19 0 0 0,
      .stoDoorbellWrite 0 256 0 0,
      .stoDoorbellWrite 0 0 2 0,
      .nvmeCommandComplete ⟨4, 0⟩ 0 0 [],
      .nvmeCommandTimeout 4 0,
      .driveReadyTimeout 4,
      .drivePresenceChange 4 none,
      .selfTestRestart 4,
      .apstWrite 19 0 0,
      .apstWrite 0 4 0,
      .bar2Read 2 0 0 0,
      .bar2Read 0 17 0 0] : List Instr).any Instr.wf = false := by decide +kernel

/-- Each check of `Instr.wf` refuses a command that names an instance just past the last one, every other operand being legal. -/
theorem test_wf_refuses_5 :
    ([.bar2Write 2 0 0 [],
      .bar2Write 0 17 0 [],
      .xlatEntryWrite 19 0 0 0,
      .xlatEntryWrite 0 18 0 0,
      .xlatEntryWrite 0 0 4096 0,
      .busMasterEnableChange 18 false,
      .memorySpaceEnableChange 18 false,
      .upstreamCompletion ⟨18, 0⟩ 0 [] false,
      .upstreamTimeout 18 0 0,
      .functionLevelReset 18,
      .hostPortReset 2,
      .dlDown 2,
      .pcieConfigRequest 2,
      .perstChange 2 false,
      .tenPortWrite 19 0,
      .heartbeatExpiry 18,
      .securityAlarm 32,
      .warmReset 22,
      .lodeIdleExit 32,
      .logRingWrite 18,
      .logHeadWrite 19 0 0,
      .logHeadWrite 0 18 0,
      .msiXUnmask 18 0,
      .msiXUnmask 0 2049,
      .pcieLinkUp 2 0 0,
      .deviceSelfTestComplete 4 0,
      .driveReady 4] : List Instr).any Instr.wf = false := by decide +kernel

/-- The last instance of each kind is one that a command may name. -/
theorem test_wf_admitsLast_1 :
    ([.registerWrite (19 - 1) 0 0 [],
      .tbStep (19 - 1) false 0,
      .tbAdjWrite (19 - 1) 0,
      .modEnqueue ⟨(64 - 1), none⟩,
      .modNop (64 - 1),
      .matmul (64 - 1),
      .grouped (64 - 1),
      .rangeScan (64 - 1),
      .transposeLoad (64 - 1),
      .engineDrainStart (64 - 1),
      .engineOpComplete (64 - 1) 0,
      .engineOperandUe (64 - 1) 0,
      .engineRmwUe (64 - 1),
      .quiesceWrite (19 - 1) (64 - 1) 0,
      .dropResident (19 - 1) (64 - 1) 0,
      .bundleIssue (272 - 1) false,
      .ctlNop (272 - 1),
      .repeatCtl (272 - 1) false,
      .halt (272 - 1),
      .haltComplete (272 - 1),
      .unitResultVisible (272 - 1),
      .loadDataArrival (272 - 1),
      .delayedUncorrectable (272 - 1),
      .bcHoldWrite (19 - 1) (272 - 1) 0,
      .coreHoldTaken (272 - 1),
      .coreStart (19 - 1) (272 - 1) 0,
      .coreClear (19 - 1) (272 - 1) 0,
      .imemWrite ⟨.s, 0, 0⟩ (272 - 1) 0 [],
      .strataBankAccess (32 - 1) (48 - 1) [],
      .strataScrubRead (32 - 1),
      .lodeZeroingDone (32 - 1),
      .moveEnqueue ⟨(32 - 1), none⟩,
      .moveNop (32 - 1),
      .moveCopy (32 - 1),
      .moveFill (32 - 1),
      .moveSourceUe (32 - 1) (4 - 1)] : List Instr).all Instr.wf = true := by decide +kernel

/-- The last instance of each kind is one that a command may name. -/
theorem test_wf_admitsLast_2 :
    ([.moveComplete (32 - 1) (4 - 1),
      .lodeCtrlReset (19 - 1) (32 - 1) 0,
      .lodeCtrlHold (19 - 1) (32 - 1) 0,
      .lockGroupStart (32 - 1),
      .sqTailWrite (2 - 1) (17 - 1) 0 0,
      .cqHeadWrite (2 - 1) (17 - 1) 0 0,
      .admqEnable (19 - 1) (18 - 1) 0,
      .regionDrainEnd (8192 - 1),
      .stageWrite (19 - 1) (16 - 1) 0x18 0,
      .signalArrival (17408 - 1) [],
      .waiterJoin (17408 - 1) [],
      .waitTimeout (17408 - 1) 0,
      .coreCtxWrite (19 - 1) (272 - 1) 0,
      .fnCtxWrite (19 - 1) (18 - 1) 0,
      .watchdogExpiry ⟨(35 - 1), 0⟩,
      .fwCrash (35 - 1) 0,
      .fwRestartDone ⟨(35 - 1), false⟩,
      .controlCoreNotRecovered (32 - 1),
      .strictWrite (19 - 1) (16 - 1) 0,
      .strictLockWrite (19 - 1) (16 - 1) 0,
      .refreshSlot (12 - 1) (32 - 1),
      .recalibration (12 - 1) (32 - 1) false false false,
      .memoryScrubRead (12 - 1),
      .stackTemperatureReport (8 - 1) false,
      .segModeWrite (19 - 1) (64 - 1) 0,
      .segmentFillDone (64 - 1),
      .injectArm (19 - 1) (12 - 1) 0,
      .regionShareWrite (19 - 1) (8192 - 1) 0,
      .seamDataFlit (24 - 1) false [],
      .seamCtrlFlit (24 - 1) ⟨true, true, 0, 0, none, [], 0, 0⟩,
      .seamAckTimeout (24 - 1),
      .seamLaneFault (24 - 1),
      .seamSerWindow (24 - 1),
      .seamRetrainWrite (19 - 1) (24 - 1) 0,
      .seamRewidenWrite (19 - 1) (24 - 1) 0,
      .seamEnableWrite (19 - 1) (24 - 1) 0 []] : List Instr).all Instr.wf = true := by decide +kernel

/-- The last instance of each kind is one that a command may name. -/
theorem test_wf_admitsLast_3 :
    ([.seamTrained (24 - 1) 0,
      .seamCheckDone (24 - 1) ⟨0, 0, 0, 0, 0, 0⟩,
      .seamTrainTimeout (24 - 1),
      .seamRetrainTimeout (24 - 1),
      .seamRetryInterval (24 - 1) [],
      .seamTransaction (24 - 1) 0 (.signal 0 0 0),
      .seamTransactionAck (8 - 1) 0 0,
      .seamBundleTimeout (8 - 1),
      .tbSkewSample (24 - 1),
      .frameReceive (32 - 1) [],
      .reorderRelease (32 - 1),
      .streamPlace (256 - 1),
      .streamRecordComplete (256 - 1),
      .consumedWrite (19 - 1) (256 - 1) 0,
      .tenantMapWrite (19 - 1) (4128 - 1) 0,
      .profileWrite (19 - 1) (64 - 1) (10 - 1) 0,
      .ethEnableWrite (19 - 1) (8 - 1) 0 false,
      .macLinkChange (32 - 1) false,
      .frameTransmit (32 - 1),
      .shaperRefill (32 - 1),
      .gateIntervalEnd (32 - 1),
      .ftPacketSend (65536 - 1),
      .ftRtoExpiry (65536 - 1) 0,
      .ftRetryLimit (65536 - 1),
      .ftRateIncrease (4096 - 1),
      .ftBucketIdle (4096 - 1),
      .stoDoorbellWrite (19 - 1) (256 - 1) (2 - 1) 0,
      .nvmeCommandComplete ⟨(4 - 1), 0⟩ 0 0 [],
      .nvmeCommandTimeout (4 - 1) 0,
      .driveReadyTimeout (4 - 1),
      .drivePresenceChange (4 - 1) none,
      .selfTestRestart (4 - 1),
      .apstWrite (19 - 1) (4 - 1) 0,
      .bar2Read (2 - 1) (17 - 1) 0 0,
      .bar2Write (2 - 1) (17 - 1) 0 [],
      .xlatEntryWrite (19 - 1) (18 - 1) (4096 - 1) 0] : List Instr).all Instr.wf = true := by decide +kernel

/-- The last instance of each kind is one that a command may name. -/
theorem test_wf_admitsLast_4 :
    ([.busMasterEnableChange (18 - 1) false,
      .memorySpaceEnableChange (18 - 1) false,
      .upstreamCompletion ⟨(18 - 1), 0⟩ 0 [] false,
      .upstreamTimeout (18 - 1) 0 0,
      .functionLevelReset (18 - 1),
      .hostPortReset (2 - 1),
      .dlDown (2 - 1),
      .pcieConfigRequest (2 - 1),
      .perstChange (2 - 1) false,
      .tenPortWrite (19 - 1) 0,
      .heartbeatExpiry (18 - 1),
      .securityAlarm (32 - 1),
      .warmReset (22 - 1),
      .lodeIdleExit (32 - 1),
      .logRingWrite (18 - 1),
      .logHeadWrite (19 - 1) (18 - 1) 0,
      .msiXUnmask (18 - 1) (2049 - 1),
      .pcieLinkUp (2 - 1) 0 0,
      .deviceSelfTestComplete (4 - 1) 0,
      .driveReady (4 - 1)] : List Instr).all Instr.wf = true := by decide +kernel

/-! ### The spec's worked examples and tables -/

/-- The worked example of 00_scope.md: LODE[19].CTRL is at 0x014C_0000. -/
theorem test_lode19_ctrl : regOf 0x14C0000 = some (.lodeCtrl, 19, 0, 0) := by decide +kernel

/-- The worked example of 01_organisation.md: 0x0_0300_1300_2040 lies in the strata memory of lode 19. -/
theorem test_place_strata : (place State.reset 0x30013002040).1 = .strata 19 := by decide +kernel

/-- The worked example of 10_memory.md: the line at 0x12_3456_7A00 in PKG mode is in pseudo-channel 5 of H4, block 0x3456. -/
theorem test_hbm_map : controller State.reset 0x1234567A00 = (4, 5) ∧ hbmMap 0 (0x1234567A00 % 2 ^ 33) = (4, 5, 0x3456) := by decide +kernel

/-- The worked example of 02_grains_and_tally.md with anchor -4: 97/32, -45/32 and 3/32 become 48, -22 and 2, all inexact. -/
theorem test_terms : [97, -45, 3].map (fun m => term (m, -5) (-4)) = [(48, true), (-22, true), (2, true)] := by decide +kernel

/-- The same three sums with anchor -5 are exact. -/
theorem test_terms_exact : [97, -45, 3].map (fun m => term (m, -5) (-5)) = [(97, false), (-45, false), (3, false)] := by decide +kernel

/-- The second worked example of 02_grains_and_tally.md: K_total 11,520, largest scales 0x85 and 0x78 in G8E4: anchor -95, E 31, bounds 15 and 2. -/
theorem test_range_scan :
    scanRecord 11520 (scanScales 0 [0x6E, 0x85]) (scanScales 0 [0x78, 0x70]) = rec_ 16 [(0, 2, 0xFFA1), (2, 2, 31), (4, 1, 0x85), (5, 1, 0x78), (8, 2, 15), (10, 2, 2)] := by
  decide +kernel

/-- The third worked example of 02_grains_and_tally.md: 470 saturates to 0x7E, 300 is 0x79 and -0.7 is 0xB3, under scale 0x7F. -/
theorem test_grain_out :
    (fun r : Nat × Bytes × CFlags => (r.1, r.2.1.take 3, r.2.2)) (toGrain 0 [.even, .even, .even] [.fin 470 0, .fin 300 0, .fin (-11744051) (-24)])
      = (0x7F, [0x7E, 0x79, 0xB3], ⟨true, false⟩) := by
  decide +kernel

/-- The third worked example of 02_grains_and_tally.md: the tally 28 with anchor -4 is 0x3FE0 in BF16. -/
theorem test_bf16_out : toFmt 9 false .even (.fin 28 (-4)) = (0x3FE0, false) := by decide +kernel

/-- The worked example of 03_matrix_engines.md: T = 9·2^93 + 5·2^80 + 7 with anchor -95 is 0x4010 in BF16 and 0x4010_0280 in FP32. -/
theorem test_tally_out :
    toFmt 9 false .even (.fin (9 * 2 ^ 93 + 5 * 2 ^ 80 + 7) (-95)) = (0x4010, false) ∧
    toFmt 11 false .even (.fin (9 * 2 ^ 93 + 5 * 2 ^ 80 + 7) (-95)) = (0x40100280, false) := by
  decide +kernel

/-- The worked example of 03_matrix_engines.md: one up-projection takes 69,092 cycles with GROUP 15 and 63,636 with GROUP 7. -/
theorem test_matmul_cycles :
    [0xF9, 0x79].map (fun g => (fun m => mmCycles m (groupsOf m [])) (modFields (rec_ 64 [(0, 1, 1), (3, 1, g), (4, 2, 16), (6, 2, 11), (8, 2, 360)]))) =
      [69092, 63636] := by
  decide +kernel

/-- The first worked example of 04_bead_cores.md: `#12 -> ALU0.A ; ?!p2 g5 -> ALU0.T`. -/
theorem test_bundle :
    decodeFrom (fun i => [0x2040000C, 0x9A410140][i]?) 4 0 none [] = .moves [⟨0, none, 0x80, .imm 12⟩, ⟨1, some (2, true), 0x82, .port 5⟩] 8 := by
  decide +kernel

/-- The first worked example of 04_bead_cores.md: the long immediate `##0x3F80_0000 -> g5`. -/
theorem test_bundle_long :
    decodeFrom (fun i => [0x40028000, 0x80007F00][i]?) 4 0 none [] = .moves [⟨0, none, 5, .imm 0x3F800000⟩] 8 := by
  decide +kernel

/-- The last worked example of 04_bead_cores.md: a BF16 grain becomes scale 0x73 and bytes 0x7B, 0xDA and zeros. -/
theorem test_cvt_pack : cvtOp 0x09 0 0 0 0 (0x3DB0 + 0xBBA0 * 2 ^ 16 + 0x3480 * 2 ^ 32) = some ⟨0xDA7B, 0, 0x73, 0⟩ := by decide +kernel

/-- The first worked example of 05_strata_and_lodes.md: the banks of rows 0 to 31 of an operand with 180 lines a row, and of offset 0x2040. -/
theorem test_banks :
    (List.range 32).map (fun r => bankOf (180 * r)) =
      [0, 27, 19, 11, 3, 30, 22, 14, 6, 33, 25, 17, 9, 36, 28, 20, 12, 39, 31, 23, 15, 42, 34, 26, 18, 45, 37, 29, 21, 0, 40, 32] ∧
    bankOf (0x2040 / 64) = 11 := by
  decide +kernel

/-- The worked example of 06_efesh_commands.md: MOD_CHAIN for ME[38] with three descriptors puts 0x0000_0326 in word 4 and the chain in word 5. -/
theorem test_mod_chain_packet :
    (fld (cmdBytes .modChain [38, 3, 0x13004000]) 0 2, fld (cmdBytes .modChain [38, 3, 0x13004000]) 16 4,
      fld (cmdBytes .modChain [38, 3, 0x13004000]) 20 4) = (0x0303, 0x00000326, 0x13004000) := by
  decide +kernel

/-- The worked example of 08_determinism.md: ORDERED over 2^20, 1, -2^20, 1 gives 0 in BF16, and 2 when the ranks are permuted. -/
theorem test_ordered_sum :
    tree 0 (redFloat 9 0) [0x4980, 0x3F80, 0xC980, 0x3F80] = 0 ∧ tree 0 (redFloat 9 0) [0x4980, 0xC980, 0x3F80, 0x3F80] = 0x4000 := by
  decide +kernel

/-- The worked example of 08_determinism.md: EXACT under a' = -39 gives 2 in either order. -/
theorem test_exact_sum :
    [[0x4980, 0x3F80, 0xC980, 0x3F80], [0x4980, 0xC980, 0x3F80, 0x3F80]].map (fun l =>
      exactOut 9 (-39) (tree ⟨0, 0⟩ (redExact 0) (l.map fun x => (exactTerm 9 x (-39)).1))) = [0x4000, 0x4000] := by
  decide +kernel

/-- The second worked example of 08_determinism.md: both mappings draw row 100, column 7,000 from one counter. -/
theorem test_draw :
    drawAt (rec_ 32 [(0, 8, 0x1122334455667788), (8, 8, 0xA0F70003), (20, 4, 6688)]) 100 312 =
      bits (crng 0x1122334455667788 (0xA0F70003 * 2 ^ 64 + 0x64 * 2 ^ 32 + 0x6D6)) 31 0 ∧
    drawAt (rec_ 32 [(0, 8, 0x1122334455667788), (8, 8, 0xA0F70003), (20, 4, 6656)]) 100 344 =
      bits (crng 0x1122334455667788 (0xA0F70003 * 2 ^ 64 + 0x64 * 2 ^ 32 + 0x6D6)) 31 0 := by
  decide +kernel

/-- The worked example of 09_checkpoint_and_reshard.md, the source side: rows over eight ranks in blocks of 1,000. -/
def fromLayout : Layout := ⟨2, 1, 9, 0, [212000, 11520, 0, 0], [1000, 11520, 0, 0], [0, 0xFF, 0xFF, 0xFF], [8, 0, 0, 0]⟩

/-- The worked example of 09_checkpoint_and_reshard.md, the target side: a 4 by 2 mesh. -/
def toLayout : Layout := ⟨2, 2, 9, 0, [212000, 11520, 0, 0], [500, 5760, 0, 0], [0, 1, 0xFF, 0xFF], [4, 2, 0, 0]⟩

/-- The worked example of 09_checkpoint_and_reshard.md: row 123,456 belongs to rank 3 as its row 15,456 of 27,000. -/
theorem test_layout_source : localIdx fromLayout 0 123456 = (15456, 3) ∧ localExt fromLayout 3 0 = 27000 := by decide +kernel

/-- The worked example of 09_checkpoint_and_reshard.md: the element lands on rank 6, 356,615,600 bytes above its base. -/
theorem test_layout_target : targets toLayout 8 [123456, 7000, 0, 0] = [(6, 356615600 / 2)] := by decide +kernel

/-- The worked example of 12_network_frames.md: after 996 bytes of zeros and E7 1D E7 the longest match is 3. -/
theorem test_partial :
    partialLen (rec_ 32 [(0, 1, 4), (4, 4, 0xF), (16, 4, 0x1DE71DE7)]) [0, 0xE7, 0x1D, 0xE7] = 3 := by decide +kernel

/-- The same example: the byte 1D completes the second record. -/
theorem test_match :
    (matchRun (rec_ 32 [(0, 1, 4), (4, 4, 0xF), (16, 4, 0x1DE71DE7)]) [0xE7, 0x1D, 0xE7] [0x1D] 1).2 = 2 := by decide +kernel

/-- The worked example of 13_fabric_transport.md: device 0x0_2A03 uses buckets 176, 177 and 178, and 10,000 bytes make three packets. -/
theorem test_buckets : [0, 1, 2].map (bktOf 0x2A03) = [176, 177, 178] ∧ ftCount 10000 12 = 3 := by decide +kernel

/-- The worked example of 14_storage.md: unit 1,165 of a volume on SP1 and SP3 lives on SP3. -/
theorem test_unit_drive : unitDrive 0xA (74560 / 64) = 3 := by decide +kernel

/-- The worked example of 15_host_interface.md: BAR2 offset 0x4030_1234 maps to 0x1_4030_1234, and entry 520 is not VALID. -/
theorem test_aperture :
    (fun s : State => (apEntry s 3 0x40301234 64, (apEntry s 3 0x41000000 64).addr))
      ((State.reset.setReg .hifWinEn 3 0 4).setHost 3 { xlat := [(513, 0x140200001)] }) = (⟨some 0x140301234, 64, false⟩, none) := by
  decide +kernel


/-! ### Witnesses -/

def firmware : State :=
  { State.reset with power := { State.reset.power with noFirmware := false }, sec := { State.reset.sec with image := some { (default : BootImage) with version := 0x1000000 } } }

def abortSt : State :=
  { having (cmdOf .abort 0 [2, 7]) State.reset with cmd := { State.reset.cmd with cmds := [cmdOf .abort 0 [2, 7], { cmdOf .syncWait 0 [] with id := 2, q := 2, phase := .working, bytes := splice (cmdOf .syncWait 0 []).bytes 10 [7] }] } }

def oneQueue : State :=
  (State.reset.setHost 16 { mse := true, bme := true }).setQp 16 1 { st := 1, log2 := 4, cqUsed := 15 }

def posted : State :=
  { (State.reset.setHost 16 { bme := true }).setQp 16 0 { st := 1, tail := 1, credit := 1 } with
    hostMem := (List.range 64).map fun i => (i, .val (if i = 0 then 1 else if i = 1 then 8 else 0)) }

def taken : State :=
  { posted with cmd := { posted.cmd with lastFn := 16 } }

def listed : Cmd :=
  { cmdOf .copy 0 [] with phase := .listed }

def ended : Cmd :=
  { cmdOf .heartbeat 16 [] with phase := .done }

def modOf (fs : List (Nat × Nat × Nat)) : Mod :=
  ⟨rec_ 64 fs, 8, .fn 0, none⟩

def engAt (fs : List (Nat × Nat × Nat)) (s : State) : State :=
  s.setEngine 63 { queue := [modOf fs] }

def table : State :=
  engAt [(0, 1, 2), (2, 1, 0x88), (3, 1, 11), (4, 2, 1), (6, 2, 1), (8, 2, 1), (20, 4, 0x20000), (44, 4, 0x30000), (48, 2, 1), (50, 2, 1), (52, 2, 2)] (writeMem State.reset (strataBase + 0x30000) [1]).1

def engOp (fs : List (Nat × Nat × Nat)) : EngOp :=
  { mod := modOf fs }

def running (o : EngOp) : State :=
  State.reset.setEngine 63 { phase := .running, op := some o }

def mvOf (fs : List (Nat × Nat × Nat)) : Move :=
  ⟨rec_ 64 fs, .fn 0, none⟩

def busy3 : Tbl (Option MoveOp) :=
  [(0, some { mv := mvOf [], seq := 0 }), (1, some { mv := mvOf [], seq := 0 }), (2, some { mv := mvOf [], seq := 0 })]

def prog (k : Nat) (ws : List Nat) (c : Core) : State :=
  ((writeMem State.reset (imemBase + k * 0x10000) (ws.flatMap (leBytes 4))).1).setCore k { c with st := .running }

def dyn (p : Sync) : State :=
  { State.reset with sync := p }

def owner : BootImage :=
  ⟨0x1000000, 0, 0, true, true, [], true, [], 0, [], true, [(0, 0xF, [])], [], [], []⟩

def secured (c : Cmd) : State :=
  { having c (State.reset.setHost 16 { bme := true }) with sec := { State.reset.sec with image := some owner } }

def layoutBytes : Bytes :=
  rec_ 64 [(0, 1, 1), (1, 1, 1), (2, 1, 11), (4, 2, 255), (8, 4, 8), (24, 4, 4), (40, 4, 0xFFFFFF00), (44, 2, 2)]

def withBoard (fs : List (Nat × Nat × Nat)) (sm : Seam) : State :=
  ({ State.reset with seam := { sm with board := rec_ 452 fs } }).setReg .seamBoard 0 0 0x140

def ruled (sets : List RuleSet) : State :=
  { State.reset with net := { State.reset.net with sets := sets } }

def ringAt (fs : List (Nat × Nat × Nat)) : State :=
  { (writeMem State.reset (0x1000 + 15 * 64) (rec_ 64 fs)).1.setReg .ftCtrl 0 0 1 with
    own := { State.reset.own with ibcs := [(15, 16)], regions := [(0, { base := 0x8000, bytes := 0x1000, rights := 0x7F, st := 1, tenant := 15, world := true })] }
    ft := { rings := [(255, some { log2 := 4, ctr := 17407, base := 0x1000, cq := 0x2000, next := 0xFFFFFFFF, credit := 1 })] } }

def sending (x : FtMsg) : State :=
  ((State.reset.setReg .ftCtrl 0 0 1).setReg .ftPath 0 7 0x3F).setFtMsg 65535 (some x)

def frameOf (h : FtHdr) (pay : Bytes) : Frame :=
  { mac := 55, bytes := ftPacket h pay, time := 0, cls := 7 }

def recv (h : FtHdr) (pay : Bytes) (f : Ft) : State :=
  { State.reset.setReg .ftCtrl 0 0 1 with ft := f, net := { State.reset.net with ftIn := [frameOf h pay] } }

def hdrOf (op pidx mlen raddr : Nat) : FtHdr :=
  { op := op, path := 7, tenant := 15, src := 1, dst := 0xFFFFF, msg := 0x10005, pidx := pidx, mlen := mlen, time := 0, cls := 7, mtu := 10, raddr := raddr }

def queued (fs : List (Nat × Nat × Nat)) (ops : List StoOp) : State :=
  { State.reset.setHost 15 { bme := true } with
    hostMem := (rec_ 64 fs).zipIdx.map fun e => (e.2, .val e.1)
    sto := { queues := [(255, { active := true, tail := 1 })], vols := [(1023, { st := 2, tenant := 15, mask := 8, blocks := 65536 })], ops := ops } }

def noImage (p : Nat) : State :=
  (State.reset.setFw 34 { st := .halted }).setFw p { st := .restarting }

def refilling : State :=
  State.reset.setFw 32 { st := .restarting }

def bootStore : Bytes :=
  slotImage refilling (bits (refilling.reg .glbSecSts) 5 5)

def mine (b : Nat) : State :=
  { State.reset with own := { State.reset.own with blocks := [(0, 16)], regions := [(0, { base := 0x1000, bytes := b, rights := 0x7F, st := 1, tenant := 15, world := true })] } }

def table355 : State :=
  (writeMem State.reset 0x1000 (rec_ 80 [(17, 1, 0x80), (18, 1, 1), (20, 2, 1)])).1

def withFcs_ (g : Bytes) : Bytes :=
  g ++ leBytes 4 (crc32 g)

def bootFour : State :=
  { State.reset.setReg .glbBootSts 0 0 4 with sec := { State.reset.sec with active := some 0, derived := true } }

def unread : State :=
  { State.reset with bad := [(0, 2)], ckpt := { State.reset.ckpt with rests := [{ id := 1, tenant := 15, slot := 1, phase := 3, step := 9, sig := [], cand := [], man := rec_ 384 [(24, 4, 1), (28, 4, 1), (256 + 32 + 24, 4, 1)] }] } }

def manifest1 : Bytes :=
  rec_ 128 [(64, 1, 7)]

def commit1 : Bytes :=
  commitRec 0 1 0 9 1 1 manifest1

def updating : State :=
  holding 0x1000 [1, 2, 3, 4] (secured (cmdOf .fwUpdate 16 [0x1000, 4, 1]))

def updated : State :=
  { updating with sec := { updating.sec with images := tput none updating.sec.images (inactiveSlot updating) (some [1, 2, 3, 4]), unusable := updating.sec.unusable ||| 2 ^ inactiveSlot updating } }

def token_a5 : Bytes :=
  token [(6, 1, 1), (40, 64, 0xcbdda7bf2727fcf09e384db37df34a38abdd7261c53f433f5fbf7411ecd932fe25ec1bccbb7e20aa530609bf2369f68b325e3519b0780067f07c40318004d5a6)]

def tokenState_a5 (c : Cmd) : State :=
  holding 0x1000 token_a5 (secured c)

def token_a4 : Bytes :=
  token [(6, 1, 1), (40, 64, 0x85ebc656a3cc712aae3312ace536f0c88731d9ee673f7423451d9647d0165a117fdb66d368f3ff90a4497780e58856d8e9b82f275bf0aaa9af63c31dbaa70fec)]

def tokenState_a4 (c : Cmd) : State :=
  holding 0x1000 token_a4 (secured c)

def token_a3 : Bytes :=
  token [(6, 1, 1), (40, 64, 0x759d9bd5daac14b825e06870b768f746af7808c52ddea527c50e335118d785e101c94d61bc2fb253044e67f897868ee2817736a72a1a656505114122ad514891), (104, 4, 262144), (108, 4, 1)]

def tokenState_a3 (c : Cmd) : State :=
  holding 0x1000 token_a3 (secured c)

def token_ke : Bytes :=
  token [(6, 1, 3), (40, 64, 0x23a7b3892d060238c8d1d440944cc09b123fe6251c5ad8d31582bb79a23f7984ef8dbffc2f8ac62648f2855777e252236438bd56f268e8fa8ef331370f5f2371)]

def tokenState_ke (c : Cmd) : State :=
  holding 0x1000 token_ke (secured c)

def token_du : Bytes :=
  token [(6, 1, 5), (40, 64, 0x240fa1414650f9d92342584e9320261f4e6f16ab99e39befb015de5cec9ec7c2d31bf8305ea753b5b2ad6a387f86dd4ddb71a8519150f6482453056f3ed48baf)]

def tokenState_du (c : Cmd) : State :=
  holding 0x1000 token_du (secured c)

/-- States and operands that meet the hypotheses of `Step_IdleTicks`, clause by clause. -/
theorem witness_Step_IdleTicks :
    (∃ (s : State), s.pending = []) :=
  ⟨State.reset, by decide +kernel⟩

/-- States and operands that meet the hypotheses of `Step_KeepsSound`, clause by clause. -/
theorem witness_Step_KeepsSound :
    (∃ (s : State) (t : State), s.Sound ∧ Machine.step s = .next t) :=
  ⟨{ State.reset with pending := [.jtagTapAccess true] }, _, ⟨by decide +kernel, by decide +kernel, by decide +kernel, by decide +kernel⟩, rfl⟩

/-- States and operands that meet the hypotheses of `Reset_State`, clause by clause. -/
theorem witness_Reset_State :
    (∃ (r : Reg) (v : Nat), ((r, v) ∈ resetNonzero)) ∧
    (∃ (r : Reg), r ≠ .ftPath ∧ r ∉ resetNonzero.map Prod.fst) :=
  ⟨⟨.cmdAdmq, 0x40, by decide +kernel⟩,
  ⟨.glbBootSts, by decide +kernel⟩⟩

/-- States and operands that meet the hypotheses of `Step_QueueAndWire`, clause by clause. -/
theorem witness_Step_QueueAndWire :
    (∃ (s : State) (t : State), Machine.step s = .next t) :=
  ⟨{ State.reset with pending := [.jtagTapAccess true] }, _, rfl⟩

/-- States and operands that meet the hypotheses of `Exec_Total`, clause by clause. -/
theorem witness_Exec_Total :
    (∃ (c : Instr), c.wf = true) ∧
    (∃ (c : Instr), c.wf = false) :=
  ⟨⟨.lodeIdleExit 31, by decide +kernel⟩,
  ⟨.lodeIdleExit 32, by decide +kernel⟩⟩

/-- States and operands that meet the hypotheses of `Exec_ClocksStopped`, clause by clause. -/
theorem witness_Exec_ClocksStopped :
    (∃ (c : Instr) (s : State), (c.wf = true ∧ s.power.running = false) ∧ (∀ cause, c ≠ .securityAlarm cause) ∧ c ≠ .powerGoodFall ∧ (∀ pin,
      c ≠ .coldReset pin)) :=
  ⟨.lodeIdleExit 31, { State.reset with power := { State.reset.power with running := false } }, by decide +kernel, fun _ => Instr.noConfusion,
    Instr.noConfusion, fun _ => Instr.noConfusion⟩

/-- States and operands that meet the hypotheses of `Session_Commands`, clause by clause. -/
theorem witness_Session_Commands :
    (∃ (s : State) (id : Nat) (c : Cmd), ∃ (v : _), Ready s .hello id c ∧ c.fn < 16 ∧ sessOpen s c.fn = false ∧
      helloVer s c.fn (c.p 0) (c.p 1) (c.p 2) = some v) ∧
    (∃ (s : State) (id : Nat) (c : Cmd), Ready s .heartbeat id c ∧ sessOpen s c.fn = true) ∧
    (∃ (s : State) (id : Nat) (c : Cmd), Ready s .goodbye id c ∧ (∀ q, 0 < q → q < 64 → (s.qp c.fn q).st = 0) ∧ (16 ≤ c.fn → ∀ i,
      i < 18 → i ≠ c.fn → sessOpen s i = false)) :=
  ⟨⟨having (cmdOf .hello 0 [0x100, 0x100, 0, 0, 0]) ((firmware.setReg .cmdSession 16 0 (1 + 0x100 * 256))), 1,
    cmdOf .hello 0 [0x100, 0x100, 0, 0, 0], 0x100, rdy (by decide +kernel), by decide +kernel⟩,
  ⟨having (cmdOf .heartbeat 17 []) (State.reset.setReg .cmdSession 17 0 1), 1, cmdOf .heartbeat 17 [], rdy (by decide +kernel), by decide +kernel⟩,
  ⟨having (cmdOf .goodbye 16 []) State.reset, 1, cmdOf .goodbye 16 [], rdy (by decide +kernel),
    fun _ _ _ => by simp [State.qp, having, State.reset, tget]; try split <;> rfl, fun _ i h _ => (by decide +kernel : ∀ i,
    i < 18 → sessOpen (having (cmdOf .goodbye 16 []) State.reset) i = false) i h⟩⟩

/-- States and operands that meet the hypotheses of `Queue_Commands`, clause by clause. -/
theorem witness_Queue_Commands :
    (∃ (s : State) (id : Nat) (c : Cmd), Ready s .qpCreate id c ∧ (s.qp c.fn (c.p 0)).st = 0) ∧
    (∃ (s : State) (id : Nat) (c : Cmd), Ready s .qpCreate id c ∧ (s.qp c.fn (c.p 0)).st ≠ 0) ∧
    (∃ (s : State) (id : Nat) (c : Cmd), Ready s .qpDelete id c ∧ (s.qp c.fn (c.p 0)).st = 2) ∧
    (∃ (s : State) (id : Nat) (c : Cmd), ∃ (d : _), Ready s .abort id c ∧
      (s.cmd.cmds.find? fun d => d.fn == c.fn && d.q == c.p 0 && d.tag == c.p 1 && waits d && !released s d) = some d) ∧
    (∃ (s : State) (id : Nat) (c : Cmd), Ready s .abort id c ∧
      (s.cmd.cmds.find? fun d => d.fn == c.fn && d.q == c.p 0 && d.tag == c.p 1 && waits d && !released s d) = none) ∧
    (∃ (s : State) (id : Nat) (c : Cmd), Ready s .identify id c ∧ (s.host c.fn).bme = true ∧ (∀ i,
      i < 4096 → tget .unknown s.hostMem (hostKey (fnPort s c.fn) (c.p 1 + i)) ≠ .bad)) ∧
    (∃ (s : State) (id : Nat) (c : Cmd), Ready s .windowMap id c ∧ s.reg .hifCfg % 2 = 1) :=
  ⟨⟨having (cmdOf .qpCreate 15 [63, 12, 3, 0xFFFF, 0x1000, 0x2000]) State.reset, 1, cmdOf .qpCreate 15 [63, 12, 3, 0xFFFF, 0x1000, 0x2000],
    rdy (by decide +kernel), by decide +kernel⟩,
  ⟨having (cmdOf .qpCreate 15 [63, 12, 3, 0xFFFF, 0x1000, 0x2000]) (State.reset.setQp 15 63 { st := 1 }), 1,
    cmdOf .qpCreate 15 [63, 12, 3, 0xFFFF, 0x1000, 0x2000], rdy (by decide +kernel), by decide +kernel⟩,
  ⟨having (cmdOf .qpDelete 0 [1]) (State.reset.setQp 0 1 { st := 2 }), 1, cmdOf .qpDelete 0 [1], rdy (by decide +kernel), by decide +kernel⟩,
  ⟨abortSt, 1, cmdOf .abort 0 [2, 7],
    { cmdOf .syncWait 0 [] with id := 2, q := 2, phase := .working, bytes := splice (cmdOf .syncWait 0 []).bytes 10 [7] }, rdy (by decide +kernel),
    by decide +kernel⟩,
  ⟨having (cmdOf .abort 0 [2, 7]) State.reset, 1, cmdOf .abort 0 [2, 7], rdy (by decide +kernel), by decide +kernel⟩,
  ⟨having (cmdOf .identify 0 [0, 0x1000]) (State.reset.setHost 0 { bme := true }), 1, cmdOf .identify 0 [0, 0x1000], rdy (by decide +kernel),
    by decide +kernel, fun _ _ => (by decide : HCell.unknown ≠ .bad)⟩,
  ⟨having (cmdOf .windowMap 0 [0, 1, 0]) (State.reset.setReg .hifCfg 0 0 1), 1, cmdOf .windowMap 0 [0, 1, 0], rdy (by decide +kernel),
    by decide +kernel⟩⟩

/-- States and operands that meet the hypotheses of `Doorbells`, clause by clause. -/
theorem witness_Doorbells :
    (∃ (s : State) (p v q fn : Nat) (val : Word), s.power.running = true ∧ p < 2 ∧ v < 17 ∧ barFn s p v = some fn ∧ sessOpen s fn = false ∧
      (s.qp fn q).st = 1 ∧ 2 ^ (s.qp fn q).log2 ≤ val.toNat) ∧
    (∃ (s : State) (p v q fn : Nat) (val : Word), (s.power.running = true ∧ p < 2 ∧ v < 17 ∧ barFn s p v = some fn ∧ sessOpen s fn = false ∧
      (s.qp fn q).st = 1) ∧ ∃ (n : _), n = ((val.toNat + 2 ^ (s.qp fn q).log2 - (s.qp fn q).cqHead) % 2 ^ (s.qp fn q).log2) ∧
      val.toNat < 2 ^ (s.qp fn q).log2 ∧ n ≤ (s.qp fn q).cqUsed) ∧
    (∃ (s : State) (p v q fn : Nat), (s.power.running = true ∧ p < 2 ∧ v < 17 ∧ barFn s p v = some fn ∧ sessOpen s fn = false ∧ (s.qp fn q).st = 1) ∧
      ∃ (w : Word) (k : Nat), k = bits w.toNat 7 4 ∧ bit (s.reg .cmdAdmq fn) 0 = false ∧ bit w.toNat 0 = true ∧ 4 ≤ k ∧ k ≤ 12 ∧ fn < 18) :=
  ⟨⟨oneQueue, 0, 0, 1, 16, 16, by decide +kernel⟩,
  ⟨oneQueue, 0, 0, 1, 16, 15, by decide +kernel, _, rfl, by decide +kernel⟩,
  ⟨oneQueue, 0, 0, 1, 16, by decide +kernel, 0xC1, _, rfl, by decide +kernel⟩⟩

/-- States and operands that meet the hypotheses of `Take_Dispatch_Reply`, clause by clause. -/
theorem witness_Take_Dispatch_Reply :
    (∃ (s : State), s.power.running = true ∧ ∃ (fn : _) (q : _) (t : _), ∃ (u : _), u = (askRings s) ∧
      (fnOrder u).find? (fun fn => takeQps u fn != []) = some fn ∧ pickQp fn (takeQps u fn) u = (q, t)) ∧
    (∃ (s : State), s.power.running = true ∧ ∃ (fn : _) (q : _) (b : _) (bs : Bytes),
      hostRead { s with cmd := { s.cmd with lastFn := fn } } fn ((s.qp fn q).sq + 64 * (s.qp fn q).head) 64 = ({ s with cmd := { s.cmd with lastFn := fn } },
      .ok b) ∧ ringRead fn (s.qp fn q) (spanOf (s.qp fn q) (fld b 3 1)) (s.qp fn q).head { s with cmd := { s.cmd with lastFn := fn } } = ({ s with cmd := { s.cmd with lastFn := fn } }, .ok bs) ∧ 16 ≤ fn) ∧
    (∃ (s : State), s.power.running = true ∧ ∃ (id : Nat) (c : _), findCmd s id = some c ∧ c.phase = .listed ∧ (s.fwp 32).st = .running ∧
      cmdEligible s c = true) ∧
    (∃ (s : State), s.power.running = true ∧ ∃ (id : Nat) (c : _), ∃ (x : _), x = (s.qp c.fn c.q) ∧ findCmd s id = some c ∧ replyNext s c = true ∧
      x.st ≠ 0 ∧ (s.host c.fn).bme = true ∧ 16 ≤ c.fn ∧ (∀ i,
      i < (replyBytes c x.phase s.now).length → tget .unknown s.hostMem (hostKey (fnPort s c.fn) (x.cq + 32 * x.cqTail + i)) ≠ .bad)) ∧
    (∃ (s : State), s.power.running = true ∧ ∃ (i : Nat) (due : _), i < 16 ∧ (s.host i).hbDue = some due ∧ due ≤ s.tb.ticks ∧
      (tget {} s.cmd.sessions i).policy = 0) :=
  ⟨⟨posted, by decide +kernel, 16, _, _, _, rfl, by decide +kernel, rfl⟩,
  ⟨posted, by decide +kernel, 16, 0, hostBytes taken 0 0 64, hostBytes taken 0 0 64 ++ [], okSame (by decide +kernel) (by decide +kernel),
    okSame (by decide +kernel) (by decide +kernel), by decide +kernel⟩,
  ⟨having listed State.reset, by decide +kernel, 1, listed, by decide +kernel⟩,
  ⟨having ended posted, by decide +kernel, 1, ended, _, rfl, by decide +kernel⟩,
  ⟨State.reset.setHost 15 { hbDue := some 0 }, by decide +kernel, 15, 0, by decide +kernel⟩⟩

/-- States and operands that meet the hypotheses of `Engine_Accepts`, clause by clause. -/
theorem witness_Engine_Accepts :
    (∃ (s : State) (n : Nat), (s.power.running = true ∧ n < 64) ∧ ∃ (m : _), (s.engine n).offers = [m] ∧ m.pos = (s.engine n).rr ∧ m.pos < 10 ∧ (∀ c,
      c ∈ s.chains → c.count ≤ c.next) ∧ (s.engine n).queue.length < 8) ∧
    (∃ (s : State) (n : Nat), s.power.running = true ∧ n < 64 ∧ 8 ≤ (s.engine n).queue.length) ∧
    (∃ (s : State) (n : Nat), s.power.running = true ∧ n < 64 ∧ (s.fwp (n / 2)).st = .running ∧ (s.engine n).offers = [] ∧ (s.engine n).rr < 10 ∧
      (s.engine n).queue.length < 8) ∧
    (∃ (s : State) (n : Nat), (s.power.running = true ∧ n < 64) ∧ ∃ (d : _) (rest : _), ((s.engine n).queue = d :: rest ∧ engFree s n = true) ∧
      ∃ (m : _), m = (modFields d.bytes) ∧ ∃ (t : _), t = (takeHead n d rest s) ∧ ∃ (o : _), o = (opOfMod n d (modXl s n d) t) ∧
      modCheck s n m (modXl s n d) = none ∧ modCheck t n m (modXl s n d) = none ∧ contOk (s.engine n) m = true ∧ (∀ x,
      x ∈ opExts s n m → rowsWait s x = false) ∧ m.op = 0) ∧
    (∃ (s : State) (n : Nat), (s.power.running = true ∧ n < 64) ∧ ∃ (d : _) (rest : _), ((s.engine n).queue = d :: rest ∧ engFree s n = true) ∧
      ∃ (m : _), m = (modFields d.bytes) ∧ ∃ (t : _), t = (takeHead n d rest s) ∧ ∃ (o : _), o = (opOfMod n d (modXl s n d) t) ∧
      modCheck s n m (modXl s n d) = none ∧ modCheck t n m (modXl s n d) = none ∧ contOk (s.engine n) m = true ∧ (∀ x,
      x ∈ opExts s n m → rowsWait s x = false) ∧ m.op = 1) ∧
    (∃ (s : State) (n : Nat), (s.power.running = true ∧ n < 64) ∧ ∃ (d : _) (rest : _), ((s.engine n).queue = d :: rest ∧ engFree s n = true) ∧
      ∃ (m : _), m = (modFields d.bytes) ∧ ∃ (t : _), t = (takeHead n d rest s) ∧ ∃ (o : _), o = (opOfMod n d (modXl s n d) t) ∧
      (modCheck s n m (modXl s n d) = none ∧ modCheck t n m (modXl s n d) = none ∧ contOk (s.engine n) m = true ∧ (∀ x,
      x ∈ opExts s n m → rowsWait s x = false)) ∧ ∃ (u : _) (es : _) (seed : _), m.op = 2 ∧ readSlices t n m = (u, .ok (es, seed))) ∧
    (∃ (s : State) (n : Nat), (s.power.running = true ∧ n < 64) ∧ ∃ (d : _) (rest : _), ((s.engine n).queue = d :: rest ∧ engFree s n = true) ∧
      ∃ (m : _), m = (modFields d.bytes) ∧ ∃ (t : _), t = (takeHead n d rest s) ∧ ∃ (o : _), o = (opOfMod n d (modXl s n d) t) ∧
      modCheck s n m (modXl s n d) = none ∧ modCheck t n m (modXl s n d) = none ∧ contOk (s.engine n) m = true ∧ (∀ x,
      x ∈ opExts s n m → rowsWait s x = false) ∧ m.op = 3) ∧
    (∃ (s : State) (n : Nat), (s.power.running = true ∧ n < 64) ∧ ∃ (d : _) (rest : _), ((s.engine n).queue = d :: rest ∧ engFree s n = true) ∧
      ∃ (m : _), m = (modFields d.bytes) ∧ ∃ (t : _), t = (takeHead n d rest s) ∧ ∃ (o : _), o = (opOfMod n d (modXl s n d) t) ∧
      modCheck s n m (modXl s n d) = none ∧ modCheck t n m (modXl s n d) = none ∧ contOk (s.engine n) m = true ∧ (∀ x,
      x ∈ opExts s n m → rowsWait s x = false) ∧ m.op = 4) ∧
    (∃ (s : State) (n : Nat), (s.power.running = true ∧ n < 64) ∧ ∃ (d : _) (rest : _), ((s.engine n).queue = d :: rest ∧ engFree s n = true) ∧
      ∃ (m : _), m = (modFields d.bytes) ∧ ∃ (t : _), t = (takeHead n d rest s) ∧ ∃ (o : _), o = (opOfMod n d (modXl s n d) t) ∧ ∃ (st : _) (f : _),
      modCheck s n m (modXl s n d) = some (st, f) ∧ modCheck t n m (modXl s n d) = some (st, f) ∧ m.op = 1) :=
  ⟨⟨State.reset.setEngine 63 { offers := [⟨[], 8, .fn 0, none⟩], rr := 8 }, 63, by decide +kernel, ⟨[], 8, .fn 0, none⟩, by decide +kernel⟩,
  ⟨State.reset.setEngine 63 { queue := List.replicate 8 ⟨[], 8, .fn 0, none⟩ }, 63, by decide +kernel⟩,
  ⟨State.reset.setEngine 63 { queue := List.replicate 7 ⟨[], 8, .fn 0, none⟩ }, 63, by decide +kernel⟩,
  ⟨engAt [] State.reset, 63, by decide +kernel, modOf [], [], by decide +kernel, _, rfl, _, rfl, _, rfl, by decide +kernel⟩,
  ⟨engAt [(0, 1, 1), (1, 1, 4), (2, 1, 0x88), (4, 2, 1), (6, 2, 1), (8, 2, 1), (16, 4, 0x10000), (48, 2, 1), (50, 2, 1)] State.reset, 63,
    by decide +kernel, modOf [(0, 1, 1), (1, 1, 4), (2, 1, 0x88), (4, 2, 1), (6, 2, 1), (8, 2, 1), (16, 4, 0x10000), (48, 2, 1), (50, 2, 1)], [],
    by decide +kernel, _, rfl, _, rfl, _, rfl, by decide +kernel⟩,
  ⟨table, 63, by decide +kernel,
    modOf [(0, 1, 2), (2, 1, 0x88), (3, 1, 11), (4, 2, 1), (6, 2, 1), (8, 2, 1), (20, 4, 0x20000), (44, 4, 0x30000), (48, 2, 1), (50, 2, 1), (52, 2, 2)],
    [], by decide +kernel, _, rfl, _, rfl, _, rfl, by decide +kernel, _, [⟨0, 0, 0, 0⟩], 0, by decide +kernel, okIs (by decide +kernel)⟩,
  ⟨engAt [(0, 1, 3), (2, 1, 0x88), (4, 2, 1), (6, 2, 1), (8, 2, 1), (10, 2, 1), (44, 4, 0x30000), (48, 2, 1), (50, 2, 1)] State.reset, 63,
    by decide +kernel, modOf [(0, 1, 3), (2, 1, 0x88), (4, 2, 1), (6, 2, 1), (8, 2, 1), (10, 2, 1), (44, 4, 0x30000), (48, 2, 1), (50, 2, 1)], [],
    by decide +kernel, _, rfl, _, rfl, _, rfl, by decide +kernel⟩,
  ⟨engAt [(0, 1, 4), (2, 1, 9), (3, 1, 9), (4, 2, 1), (8, 2, 1), (20, 4, 0x20000), (48, 2, 1), (52, 2, 1)] State.reset, 63, by decide +kernel,
    modOf [(0, 1, 4), (2, 1, 9), (3, 1, 9), (4, 2, 1), (8, 2, 1), (20, 4, 0x20000), (48, 2, 1), (52, 2, 1)], [], by decide +kernel, _, rfl, _, rfl,
    _, rfl, by decide +kernel⟩,
  ⟨engAt [(0, 1, 1), (1, 1, 4), (2, 1, 0x88), (6, 2, 1), (8, 2, 1), (16, 4, 0x10000), (48, 2, 1), (50, 2, 1)] State.reset, 63, by decide +kernel,
    modOf [(0, 1, 1), (1, 1, 4), (2, 1, 0x88), (6, 2, 1), (8, 2, 1), (16, 4, 0x10000), (48, 2, 1), (50, 2, 1)], [], by decide +kernel, _, rfl, _,
    rfl, _, rfl, 0x0103, 4, by decide +kernel⟩⟩

/-- States and operands that meet the hypotheses of `Engine_Ends`, clause by clause. -/
theorem witness_Engine_Ends :
    (∃ (s : State) (n : Nat), (s.power.running = true ∧ n < 64) ∧ ∃ (o : _) (u : _) (fl : _), ((s.engine n).op = some o ∧
      (s.engine n).phase = .running ∧ o.fault = 0 ∧ o.status = 0x0000 ∧ o.ue = none ∧
      ((modFields o.mod.bytes).op = 1 ∨ (modFields o.mod.bytes).op = 2) ∧ (modFields o.mod.bytes).isKeep = false) ∧
      writeRows (modFields o.mod.bytes) o.seed o.rows 0 s = (u, fl, none)) ∧
    (∃ (s : State) (n : Nat), (s.power.running = true ∧ n < 64) ∧ ∃ (o : _) (cw : _) (rows : _) (u : _), ((s.engine n).op = some o ∧
      o.ue = some cw) ∧ (if (modFields o.mod.bytes).op = 4 then writePieces s (o.writes.take (rows * (modFields o.mod.bytes).rowWrites)) = (u,
      none) else ∃ fl,
      writeRows (modFields o.mod.bytes) o.seed (if (modFields o.mod.bytes).isKeep then [] else o.rows.take (max rows o.sure)) 0 s = (u, fl, none))) ∧
    (∃ (s : State) (n : Nat), (s.power.running = true ∧ n < 64) ∧ ∃ (o : _) (cw : _), (s.engine n).op = some o ∧ o.rmw = some cw) ∧
    (∃ (s : State) (n : Nat), (s.power.running = true ∧ n < 64) ∧ ∃ (o : _) (cycles : _) (u : _), ((s.engine n).op = some o ∧
      opDone (s.engine n) o = true ∧ leastCycles (modFields o.mod.bytes) o ≤ cycles) ∧ writePieces s o.writes = (u, none)) ∧
    (∃ (s : State) (n : Nat), (s.power.running = true ∧ n < 64) ∧ ∃ (o : _) (cycles : _), (s.engine n).op = some o ∧
      cycles < leastCycles (modFields o.mod.bytes) o) ∧
    (∃ (s : State) (n : Nat), (s.power.running = true ∧ n < 64) ∧ ∃ (t : _) (val : Word), t < 16 ∧ lodeOwner s (n / 2) = t + 1 ∧
      val.getLsbD 1 = false) ∧
    (∃ (s : State) (n : Nat), (s.power.running = true ∧ n < 64) ∧ ∃ (t : _) (val : Word), t < 16 ∧ lodeOwner s (n / 2) = t + 1 ∧
      val.getLsbD 1 = true) :=
  ⟨⟨running (engOp [(0, 1, 1), (2, 1, 0x88), (3, 1, 11), (4, 2, 1), (6, 2, 1), (8, 2, 1), (16, 4, 0x10000), (20, 4, 0x20000), (48, 2, 1), (50, 2, 1), (52, 2, 2)]),
    63, by decide +kernel,
    engOp [(0, 1, 1), (2, 1, 0x88), (3, 1, 11), (4, 2, 1), (6, 2, 1), (8, 2, 1), (16, 4, 0x10000), (20, 4, 0x20000), (48, 2, 1), (50, 2, 1), (52, 2, 2)],
    _, 0, by decide +kernel, brIs (by decide +kernel)⟩,
  ⟨running { engOp [(0, 1, 1), (2, 1, 0x88), (3, 1, 11), (4, 2, 1), (6, 2, 1), (8, 2, 1), (16, 4, 0x10000), (20, 4, 0x20000), (48, 2, 1), (50, 2, 1), (52, 2, 2)] with ue := some 5 },
    63, by decide +kernel,
    { engOp [(0, 1, 1), (2, 1, 0x88), (3, 1, 11), (4, 2, 1), (6, 2, 1), (8, 2, 1), (16, 4, 0x10000), (20, 4, 0x20000), (48, 2, 1), (50, 2, 1), (52, 2, 2)] with ue := some 5 },
    5, 1, _, by decide +kernel, by rw [if_neg (by decide +kernel)]; exact ⟨_, rfl⟩⟩,
  ⟨running { engOp [(0, 1, 1), (2, 1, 0x88), (3, 1, 11), (4, 2, 1), (6, 2, 1), (8, 2, 1), (16, 4, 0x10000), (20, 4, 0x20000), (48, 2, 1), (50, 2, 1), (52, 2, 2)] with rmw := some 5 },
    63, by decide +kernel,
    { engOp [(0, 1, 1), (2, 1, 0x88), (3, 1, 11), (4, 2, 1), (6, 2, 1), (8, 2, 1), (16, 4, 0x10000), (20, 4, 0x20000), (48, 2, 1), (50, 2, 1), (52, 2, 2)] with rmw := some 5 },
    5, by decide +kernel⟩,
  ⟨running (engOp [(0, 1, 1), (1, 1, 4), (2, 1, 0x88), (4, 2, 1), (6, 2, 1), (8, 2, 1), (16, 4, 0x10000), (48, 2, 1), (50, 2, 1)]), 63,
    by decide +kernel, engOp [(0, 1, 1), (1, 1, 4), (2, 1, 0x88), (4, 2, 1), (6, 2, 1), (8, 2, 1), (16, 4, 0x10000), (48, 2, 1), (50, 2, 1)], 100, _,
    by decide +kernel, brIs (by decide +kernel)⟩,
  ⟨running (engOp [(0, 1, 1), (1, 1, 4), (2, 1, 0x88), (4, 2, 1), (6, 2, 1), (8, 2, 1), (16, 4, 0x10000), (48, 2, 1), (50, 2, 1)]), 63,
    by decide +kernel, engOp [(0, 1, 1), (1, 1, 4), (2, 1, 0x88), (4, 2, 1), (6, 2, 1), (8, 2, 1), (16, 4, 0x10000), (48, 2, 1), (50, 2, 1)], 11,
    by decide +kernel⟩,
  ⟨owned 31 15 State.reset, 63, by decide +kernel, 15, 1, by decide +kernel⟩,
  ⟨owned 31 15 State.reset, 63, by decide +kernel, 15, 2, by decide +kernel⟩⟩

/-- States and operands that meet the hypotheses of `Movers`, clause by clause. -/
theorem witness_Movers :
    (∃ (s : State) (n m : Nat), (s.power.running = true ∧ n < 32 ∧ m < 4) ∧ ∃ (d : _) (rest : _), (s.lode n).offers = d :: rest ∧
      (s.lode n).queue.length < 16 ∧ (∀ c, c ∈ s.chains → c.count ≤ c.next)) ∧
    (∃ (s : State) (n m : Nat), s.power.running = true ∧ n < 32 ∧ m < 4 ∧ 16 ≤ (s.lode n).queue.length) ∧
    (∃ (s : State) (n m : Nat), s.power.running = true ∧ n < 32 ∧ m < 4 ∧ (s.fwp n).st = .running ∧ (s.lode n).offers = [] ∧
      (s.lode n).queue.length < 16) ∧
    (∃ (s : State) (n m : Nat), (s.power.running = true ∧ n < 32 ∧ m < 4) ∧ ∃ (d : _) (rest : _), ((s.lode n).queue = d :: rest ∧
      freeMover s n = some m) ∧ ∃ (x : _), x = (mvFields d.bytes) ∧ ∃ (t : _), t = (takeMove n d rest s) ∧ ∃ (o : _),
      o = (moveOpOf n m (s.lode n).seq d (mvXl s n d) t) ∧ (mvReady s n x = true ∧ mvWaits s x = false) ∧ ∃ (st : _) (deny : _),
      mvCheck t n m d (mvXl s n d) = some (st, deny) ∧ ∃ (u : _),
      u = (setMover n m (some { o with status := st }) (if deny then refuseOf t (moverReq t n m) (mvRanges x) else t)) ∧ (x.op = 0 ∨ 2 < x.op)) ∧
    (∃ (s : State) (n m : Nat), (s.power.running = true ∧ n < 32 ∧ m < 4) ∧ ∃ (d : _) (rest : _), ((s.lode n).queue = d :: rest ∧
      freeMover s n = some m) ∧ ∃ (x : _), x = (mvFields d.bytes) ∧ ∃ (t : _), t = (takeMove n d rest s) ∧ ∃ (o : _),
      o = (moveOpOf n m (s.lode n).seq d (mvXl s n d) t) ∧ (mvReady s n x = true ∧ mvWaits s x = false) ∧ ∃ (st : _) (deny : _),
      mvCheck t n m d (mvXl s n d) = some (st, deny) ∧ ∃ (u : _),
      u = (setMover n m (some { o with status := st }) (if deny then refuseOf t (moverReq t n m) (mvRanges x) else t)) ∧ x.op = 1) ∧
    (∃ (s : State) (n m : Nat), (s.power.running = true ∧ n < 32 ∧ m < 4) ∧ ∃ (d : _) (rest : _), ((s.lode n).queue = d :: rest ∧
      freeMover s n = some m) ∧ ∃ (x : _), x = (mvFields d.bytes) ∧ ∃ (t : _), t = (takeMove n d rest s) ∧ ∃ (o : _),
      o = (moveOpOf n m (s.lode n).seq d (mvXl s n d) t) ∧ (mvReady s n x = true ∧ mvWaits s x = false) ∧ ∃ (st : _) (deny : _),
      mvCheck t n m d (mvXl s n d) = some (st, deny) ∧ ∃ (u : _),
      u = (setMover n m (some { o with status := st }) (if deny then refuseOf t (moverReq t n m) (mvRanges x) else t)) ∧ x.op = 2) ∧
    (∃ (s : State) (n m : Nat), (s.power.running = true ∧ n < 32 ∧ m < 4) ∧ ∃ (d : _) (rest : _), ((s.lode n).queue = d :: rest ∧
      freeMover s n = some m) ∧ ∃ (x : _), x = (mvFields d.bytes) ∧ ∃ (t : _), t = (takeMove n d rest s) ∧ ∃ (o : _),
      o = (moveOpOf n m (s.lode n).seq d (mvXl s n d) t) ∧ mvReady s n x = true ∧ mvWaits s x = false ∧ mvCheck t n m d (mvXl s n d) = none ∧
      x.op = 0) ∧
    (∃ (s : State) (n m : Nat), (s.power.running = true ∧ n < 32 ∧ m < 4) ∧ ∃ (d : _) (rest : _), ((s.lode n).queue = d :: rest ∧
      freeMover s n = some m) ∧ ∃ (x : _), x = (mvFields d.bytes) ∧ ∃ (t : _), t = (takeMove n d rest s) ∧ ∃ (o : _),
      o = (moveOpOf n m (s.lode n).seq d (mvXl s n d) t) ∧ (mvReady s n x = true ∧ mvWaits s x = false ∧ mvCheck t n m d (mvXl s n d) = none ∧
      x.rows = 1 ∧ 0 < x.len ∧ x.len ≤ 64 - x.dst % 64) ∧ ∃ (u : _) (v : _) (bs : Bytes), x.op = 1 ∧ readMem t x.src x.len = (v, .ok bs) ∧
      lineWrite x.dst bs v = (u, none)) ∧
    (∃ (s : State) (n m : Nat), (s.power.running = true ∧ n < 32 ∧ m < 4) ∧ ∃ (d : _) (rest : _), ((s.lode n).queue = d :: rest ∧
      freeMover s n = some m) ∧ ∃ (x : _), x = (mvFields d.bytes) ∧ ∃ (t : _), t = (takeMove n d rest s) ∧ ∃ (o : _),
      o = (moveOpOf n m (s.lode n).seq d (mvXl s n d) t) ∧ (mvReady s n x = true ∧ mvWaits s x = false ∧ mvCheck t n m d (mvXl s n d) = none ∧
      x.rows = 1 ∧ 0 < x.len ∧ x.len ≤ 64 - x.dst % 64) ∧ ∃ (v : _) (cw : _), x.op = 1 ∧ readMem t x.src x.len = (v, .error cw)) ∧
    (∃ (s : State) (n m : Nat), (s.power.running = true ∧ n < 32 ∧ m < 4) ∧ ∃ (d : _) (rest : _), ((s.lode n).queue = d :: rest ∧
      freeMover s n = some m) ∧ ∃ (x : _), x = (mvFields d.bytes) ∧ ∃ (t : _), t = (takeMove n d rest s) ∧ ∃ (o : _),
      o = (moveOpOf n m (s.lode n).seq d (mvXl s n d) t) ∧ (mvReady s n x = true ∧ mvWaits s x = false ∧ mvCheck t n m d (mvXl s n d) = none ∧
      x.rows = 1 ∧ 0 < x.len ∧ x.len ≤ 64 - x.dst % 64) ∧ ∃ (u : _), x.op = 2 ∧
      lineWrite x.dst ((List.range x.len).map fun i => BitVec.ofNat 8 (x.pat >>> (8 * (i % 4)))) t = (u, none)) ∧
    (∃ (s : State) (n m : Nat), (s.power.running = true ∧ n < 32 ∧ m < 4) ∧ ∃ (o : _) (cw : _), mover s n m = some o ∧ o.ue = some cw) ∧
    (∃ (s : State) (n m : Nat), (s.power.running = true ∧ n < 32 ∧ m < 4) ∧ ∃ (o : _), mover s n m = some o ∧ o.ue = none) :=
  ⟨⟨State.reset.setLode 31 { offers := [mvOf []], queue := List.replicate 15 (mvOf []) }, 31, 3, by decide +kernel, mvOf [], [], by decide +kernel⟩,
  ⟨State.reset.setLode 31 { offers := [mvOf []], queue := List.replicate 16 (mvOf []) }, 31, 3, by decide +kernel⟩,
  ⟨State.reset.setLode 31 { queue := List.replicate 15 (mvOf []) }, 31, 3, by decide +kernel⟩,
  ⟨State.reset.setLode 31 { queue := [mvOf [(0, 1, 3), (4, 4, 1), (8, 4, 1), (20, 8, strataBase + 64)]], movers := busy3 }, 31, 3, by decide +kernel,
    mvOf [(0, 1, 3), (4, 4, 1), (8, 4, 1), (20, 8, strataBase + 64)], [], by decide +kernel, _, rfl, _, rfl, _, rfl, by decide +kernel, 0x0101,
    false, by decide +kernel, _, rfl, by decide +kernel⟩,
  ⟨State.reset.setLode 31 { queue := [mvOf [(0, 1, 1), (1, 1, 0x80), (4, 4, 1), (8, 4, 1), (12, 8, strataBase), (20, 8, strataBase + 64)]], movers := busy3 },
    31, 3, by decide +kernel, mvOf [(0, 1, 1), (1, 1, 0x80), (4, 4, 1), (8, 4, 1), (12, 8, strataBase), (20, 8, strataBase + 64)], [],
    by decide +kernel, _, rfl, _, rfl, _, rfl, by decide +kernel, 0x0102, false, by decide +kernel, _, rfl, by decide +kernel⟩,
  ⟨State.reset.setLode 31 { queue := [mvOf [(0, 1, 2), (1, 1, 0x80), (4, 4, 1), (8, 4, 1), (20, 8, strataBase + 64)]], movers := busy3 }, 31, 3,
    by decide +kernel, mvOf [(0, 1, 2), (1, 1, 0x80), (4, 4, 1), (8, 4, 1), (20, 8, strataBase + 64)], [], by decide +kernel, _, rfl, _, rfl, _, rfl,
    by decide +kernel, 0x0102, false, by decide +kernel, _, rfl, by decide +kernel⟩,
  ⟨State.reset.setLode 31 { queue := [mvOf []], movers := busy3 }, 31, 3, by decide +kernel, mvOf [], [], by decide +kernel, _, rfl, _, rfl, _, rfl,
    by decide +kernel⟩,
  ⟨State.reset.setLode 31 { queue := [mvOf [(0, 1, 1), (4, 4, 1), (8, 4, 1), (12, 8, strataBase), (20, 8, strataBase + 64)]], movers := busy3 }, 31,
    3, by decide +kernel, mvOf [(0, 1, 1), (4, 4, 1), (8, 4, 1), (12, 8, strataBase), (20, 8, strataBase + 64)], [], by decide +kernel, _, rfl, _,
    rfl, _, rfl, by decide +kernel, _, _, _, by decide +kernel, okSome (by decide +kernel), wrOk (by decide +kernel)⟩,
  ⟨{ State.reset.setLode 31 { queue := [mvOf [(0, 1, 1), (4, 4, 1), (8, 4, 1), (12, 8, strataBase), (20, 8, strataBase + 64)]], movers := busy3 } with bad := tput 0 [] (strataBase / 32) 2 },
    31, 3, by decide +kernel, mvOf [(0, 1, 1), (4, 4, 1), (8, 4, 1), (12, 8, strataBase), (20, 8, strataBase + 64)], [], by decide +kernel, _, rfl,
    _, rfl, _, rfl, by decide +kernel, _, strataBase, by decide +kernel, errIs (by decide +kernel)⟩,
  ⟨State.reset.setLode 31 { queue := [mvOf [(0, 1, 2), (4, 4, 1), (8, 4, 1), (20, 8, strataBase + 64)]], movers := busy3 }, 31, 3, by decide +kernel,
    mvOf [(0, 1, 2), (4, 4, 1), (8, 4, 1), (20, 8, strataBase + 64)], [], by decide +kernel, _, rfl, _, rfl, _, rfl, by decide +kernel, _,
    by decide +kernel, wrOk (by decide +kernel)⟩,
  ⟨State.reset.setLode 31 { movers := [(3, some { mv := mvOf [], seq := 0, ue := some 9 })] }, 31, 3, by decide +kernel,
    { mv := mvOf [], seq := 0, ue := some 9 }, 9, by decide +kernel⟩,
  ⟨State.reset.setLode 31 { movers := [(3, some { mv := mvOf [], seq := 0 })] }, 31, 3, by decide +kernel, { mv := mvOf [], seq := 0 },
    by decide +kernel⟩⟩

/-- States and operands that meet the hypotheses of `Strata_Access`, clause by clause. -/
theorem witness_Strata_Access :
    (∃ (s : State) (n : Nat), (s.power.running = true ∧ n < 32) ∧ ∃ (bank : _) (reqs : _) (r : _), bank < 48 ∧ tget 0 s.own.zeroing n = 0 ∧
      (s.lode n).rmw.contains bank = false ∧ grantOf s n bank (bankReqs bank reqs) = some r) ∧
    (∃ (s : State) (n : Nat), (s.power.running = true ∧ n < 32) ∧ ∃ (bank : _), bank < 48 ∧ tget 0 s.own.zeroing n = 0 ∧
      (s.lode n).rmw.contains bank = true) ∧
    (∃ (s : State) (n : Nat), (s.power.running = true ∧ n < 32) ∧ ∃ (r : BankReq) (t : _) (d : _), r.store = none ∧
      readMem s (lineAddr n r.line) 64 = (t, .ok d)) ∧
    (∃ (s : State) (n : Nat), (s.power.running = true ∧ n < 32) ∧ ∃ (r : BankReq) (o : _) (bs : Bytes), r.store = some (o, bs) ∧ o + bs.length ≤ 64) ∧
    (∃ (s : State) (n : Nat), (s.power.running = true ∧ n < 32) ∧ ∃ (cw : _) (rest : _), slotAdmits s n 6 0 = true ∧ tget 0 s.own.zeroing n = 0 ∧
      (s.lode n).wb = cw :: rest) ∧
    (∃ (s : State) (n : Nat), s.power.running = true ∧ n < 32 ∧ slotAdmits s n 6 0 = false) ∧
    (∃ (s : State) (n : Nat), s.power.running = true ∧ n < 32 ∧ slotAdmits s n 6 0 = true ∧ tget 0 s.own.zeroing n = 0 ∧ (s.lode n).wb = [] ∧
      bit (s.reg .strScrub n) 0 = true ∧ (s.lode n).scrubDue ≤ s.tb.ticks) ∧
    (∃ (s : State) (n : Nat), (s.power.running = true ∧ n < 32) ∧ ∃ (o : _), tget 0 s.own.zeroing n = o + 1) :=
  ⟨⟨State.reset, 31, by decide +kernel, 44, [⟨2, 5, 0, 44, none⟩, ⟨2, 7, 0, 44, none⟩], ⟨2, 5, 0, 44, none⟩, by decide +kernel⟩,
  ⟨State.reset.setLode 31 { rmw := [44] }, 31, by decide +kernel, 44, by decide +kernel⟩,
  ⟨State.reset, 31, by decide +kernel, ⟨0, 5, 0, 44, none⟩, _, zeros 64, by decide +kernel, okIs (by decide +kernel)⟩,
  ⟨State.reset, 31, by decide +kernel, ⟨0, 5, 0, 44, some (63, [1])⟩, 63, [1], by decide +kernel⟩,
  ⟨State.reset.setLode 31 { wb := [7] }, 31, by decide +kernel, 7, [], by decide +kernel⟩,
  ⟨{ State.reset.setLode 31 { wb := [7] } with groups := [(0, { st := .running, members := [31] })] }, 31, by decide +kernel⟩,
  ⟨State.reset.setReg .strScrub 31 0 1, 31, by decide +kernel⟩,
  ⟨{ State.reset with own := { State.reset.own with zeroing := [(31, 16)] } }, 31, by decide +kernel, 15, by decide +kernel⟩⟩

/-- States and operands that meet the hypotheses of `Chain_And_Load_Commands`, clause by clause. -/
theorem witness_Chain_And_Load_Commands :
    (∃ (s : State) (id : Nat) (c : Cmd), ∃ (t : _) (d : _), ∃ (ch : _), ch = (⟨id, c.p 0, c.p 1, c.p 2, 0, 0, false, none⟩ : Chain) ∧
      Ready s .modChain id c ∧ (awake s (c.p 0 / 2) = true ∧ s.chains = [] ∧ (s.engine (c.p 0)).offers = [] ∧ 0 < c.p 1) ∧
      readMem (working id { s with chains := [ch] }) (strataBase + c.p 2) 64 = (t, .ok d)) ∧
    (∃ (s : State) (id : Nat) (c : Cmd), ∃ (t : _) (d : _), ∃ (ch : _), ch = (⟨id, c.p 0, c.p 1, c.p 2, 0, 0, true, none⟩ : Chain) ∧
      Ready s .moveChain id c ∧ (awake s (c.p 0) = true ∧ s.chains = [] ∧ (s.lode (c.p 0)).offers = [] ∧ 0 < c.p 1) ∧
      readMem (working id { s with chains := [ch] }) (strataBase + c.p 2) 64 = (t, .ok d)) ∧
    (∃ (s : State) (id : Nat) (c : Cmd), ∃ (t : _) (bs : Bytes) (u : _), Ready s .imemLoad id c ∧ ((c.p 0 < 256 → awake s (c.p 0 / 8) = true) ∧
      imemOpen s (c.p 0) = true) ∧ readAddr s c.fn (c.p 3) (c.p 1) = (t, .ok bs) ∧
      imemWrites (cwSplit (bs.length + 1) (imemBase + c.p 0 * 0x10000 + c.p 2) bs) t = (u, none)) ∧
    (∃ (s : State) (id : Nat) (c : Cmd), Ready s .imemLoad id c ∧ (c.p 0 < 256 → awake s (c.p 0 / 8) = true) ∧ (s.core (c.p 0)).st = .running ∧
      imemOpen s (c.p 0) = false) ∧
    (∃ (s : State) (id : Nat) (c : Cmd), Ready s .coresRun id c ∧ (c.p 0 ≠ 0x80 → awake s (c.p 0) = true) ∧ runCores c ≠ [] ∧ (∀ k,
      k ∈ runCores c → (s.core k).st = .halted)) ∧
    (∃ (s : State) (id : Nat) (c : Cmd), ∃ (k : _), Ready s .coresRun id c ∧ (c.p 0 ≠ 0x80 → awake s (c.p 0) = true) ∧
      (runCores c).find? (fun k => (s.core k).st != .halted) = some k) :=
  ⟨⟨having (cmdOf .modChain 0 [63, 1, 0x0]) State.reset, 1, cmdOf .modChain 0 [63, 1, 0x0], _, _, _, rfl, rdy (by decide +kernel), by decide +kernel,
    okSome (by decide +kernel)⟩,
  ⟨having (cmdOf .moveChain 0 [31, 1, 0x0]) State.reset, 1, cmdOf .moveChain 0 [31, 1, 0x0], _, _, _, rfl, rdy (by decide +kernel),
    by decide +kernel, okSome (by decide +kernel)⟩,
  ⟨having (cmdOf .imemLoad 0 [271, 32, 0xFFE0, 0x30000000000]) (writeMem State.reset strataBase [1]).1, 1,
    cmdOf .imemLoad 0 [271, 32, 0xFFE0, 0x30000000000], _,
    okBytes (readAddr (having (cmdOf .imemLoad 0 [271, 32, 0xFFE0, 0x30000000000]) (writeMem State.reset strataBase [1]).1) 0 0x30000000000 32).2, _,
    rdy (by decide +kernel), by decide +kernel, okIs (by decide +kernel), brIs (by decide +kernel)⟩,
  ⟨having (cmdOf .imemLoad 0 [0, 32, 0xFFE0, 0x30000000000]) (State.reset.setCore 0 { st := .running }), 1,
    cmdOf .imemLoad 0 [0, 32, 0xFFE0, 0x30000000000], rdy (by decide +kernel), by decide +kernel⟩,
  ⟨having (cmdOf .coresRun 0 [31, 0x81]) State.reset, 1, cmdOf .coresRun 0 [31, 0x81], rdy (by decide +kernel), by decide +kernel, by decide +kernel,
    by decide +kernel⟩,
  ⟨having (cmdOf .coresRun 0 [0x80, 0x8001]) (State.reset.setCore 271 { st := .held }), 1, cmdOf .coresRun 0 [0x80, 0x8001], 271,
    rdy (by decide +kernel), by decide +kernel⟩⟩

/-- States and operands that meet the hypotheses of `Lock_Groups`, clause by clause. -/
theorem witness_Lock_Groups :
    (∃ (s : State) (id : Nat) (c : Cmd), ∃ (ms : _), ms = ((List.range 32).filter (bit (c.p 1))) ∧ Ready s .lockForm id c ∧ (∀ n,
      n ∈ ms → awake s n = true ∧ lodeOwner s n = c.fn + 1 ∧ groupOf s n = none ∧ lodeIdle s n = true ∧ tget 0 s.own.zeroing n = 0) ∧
      (s.grp (c.p 0)).st = .free ∧ (crossDie ms = true → clocksLocked s = true)) ∧
    (∃ (s : State) (id : Nat) (c : Cmd), ∃ (ms : _), ms = ((List.range 32).filter (bit (c.p 1))) ∧ Ready s .lockForm id c ∧ (∀ n,
      n ∈ ms → awake s n = true) ∧ (∃ n, n ∈ ms ∧ lodeOwner s n ≠ c.fn + 1)) ∧
    (∃ (s : State) (id : Nat) (c : Cmd), Ready s .lockStart id c ∧ (s.grp (c.p 0)).st = .formed ∧ (s.grp (c.p 0)).tenant = c.fn) ∧
    (∃ (s : State), ∃ (g : _) (t : _), s.power.running = true ∧ g < 32 ∧ (s.grp g).fired = some t ∧ (s.grp g).st = .armed ∧ t + 10 ≤ s.tb.ticks) ∧
    (∃ (s : State), ∃ (g : _) (t : _), s.power.running = true ∧ g < 32 ∧ (s.grp g).fired = some t ∧ s.tb.ticks < t + 10) ∧
    (∃ (s : State) (id : Nat) (c : Cmd), Ready s .lockDissolve id c ∧ (s.grp (c.p 0)).st = .formed ∧ (s.grp (c.p 0)).tenant = c.fn ∧ (∀ n,
      n ∈ (s.grp (c.p 0)).members → lodeIdle s n = true) ∧ (s.grp (c.p 0)).cmd = none) :=
  ⟨⟨having (cmdOf .lockForm 15 [31, 0x80000001]) (owned 0 15 (owned 31 15 (State.reset.setReg .clkSts 0 0 1))), 1,
    cmdOf .lockForm 15 [31, 0x80000001], _, rfl, rdy (by decide +kernel), by decide +kernel⟩,
  ⟨having (cmdOf .lockForm 15 [31, 0x80000001]) (owned 0 15 State.reset), 1, cmdOf .lockForm 15 [31, 0x80000001], _, rfl, rdy (by decide +kernel),
    by decide +kernel⟩,
  ⟨having (cmdOf .lockStart 15 [31, 1000]) (State.reset.setGrp 31 { st := .formed, members := [0], tenant := 15 }), 1,
    cmdOf .lockStart 15 [31, 1000], rdy (by decide +kernel), by decide +kernel⟩,
  ⟨{ State.reset with tb := { State.reset.tb with ticks := 10 } }.setGrp 31 { st := .armed, fired := some 0 }, 31, 0, by decide +kernel⟩,
  ⟨{ State.reset with tb := { State.reset.tb with ticks := 9 } }.setGrp 31 { st := .armed, fired := some 0 }, 31, 0, by decide +kernel⟩,
  ⟨having (cmdOf .lockDissolve 15 [31]) (State.reset.setGrp 31 { st := .formed, members := [0, 31], tenant := 15 }), 1, cmdOf .lockDissolve 15 [31],
    rdy (by decide +kernel), by decide +kernel⟩⟩

/-- States and operands that meet the hypotheses of `Lode_States`, clause by clause. -/
theorem witness_Lode_States :
    (∃ (s : State) (id : Nat) (c : Cmd), Ready s .lodeHold id c ∧ awake s (c.p 0) = true ∧ tget 0 s.own.zeroing (c.p 0) = 0 ∧ c.p 1 = 0) ∧
    (∃ (s : State) (id : Nat) (c : Cmd), Ready s .lodeHold id c ∧ awake s (c.p 0) = true ∧ tget 0 s.own.zeroing (c.p 0) = 0 ∧ c.p 1 ≠ 0) ∧
    (∃ (s : State), ∃ (t : _) (n : _) (val : Word), s.power.running = true ∧ t < 16 ∧ n < 32 ∧ lodeOwner s n = t + 1 ∧ bit val.toNat 0 = false) ∧
    (∃ (s : State), ∃ (t : _) (n : _) (val : Word), s.power.running = true ∧ t < 16 ∧ n < 32 ∧ lodeOwner s n = t + 1 ∧ bit val.toNat 0 = true) ∧
    (∃ (s : State), ∃ (t : _) (n : _), s.power.running = true ∧ t < 16 ∧ n < 32 ∧ lodeOwner s n ≠ 0 ∧ lodeOwner s n ≠ t + 1) ∧
    (∃ (s : State) (id : Nat) (c : Cmd), Ready s .lodeReset id c ∧ awake s (c.p 0) = true) ∧
    (∃ (n : _), n < 32) ∧
    (∃ (s : State) (id : Nat) (c : Cmd), Ready s .lodePower id c ∧ c.p 1 = 1 ∧ groupOf s (c.p 0) = none ∧ lodeCode s (c.p 0) = 0) ∧
    (∃ (s : State) (id : Nat) (c : Cmd), Ready s .lodePower id c ∧ c.p 1 = 1 ∧ groupOf s (c.p 0) = none ∧ lodeCode s (c.p 0) ≠ 0) ∧
    (∃ (s : State) (id : Nat) (c : Cmd), Ready s .lodePower id c ∧ c.p 1 = 0 ∧ (s.lode (c.p 0)).idle = true ∧ (s.lode (c.p 0)).wake = none) ∧
    (∃ (s : State) (id : Nat) (c : Cmd), Ready s .lodePower id c ∧ c.p 1 = 0 ∧ (s.lode (c.p 0)).idle = false) ∧
    (∃ (s : State), ∃ (n : _) (t : _), s.power.running = true ∧ n < 32 ∧ (s.lode n).wake = some t ∧ t ≤ s.tb.ticks) ∧
    (∃ (s : State), ∃ (n : _) (t : _), s.power.running = true ∧ n < 32 ∧ (s.lode n).wake = some t ∧ s.tb.ticks < t) :=
  ⟨⟨having (cmdOf .lodeHold 0 [31, 0]) State.reset, 1, cmdOf .lodeHold 0 [31, 0], rdy (by decide +kernel), by decide +kernel⟩,
  ⟨having (cmdOf .lodeHold 0 [31, 1]) State.reset, 1, cmdOf .lodeHold 0 [31, 1], rdy (by decide +kernel), by decide +kernel⟩,
  ⟨owned 31 15 State.reset, 15, 31, 2, by decide +kernel⟩,
  ⟨owned 31 15 State.reset, 15, 31, 3, by decide +kernel⟩,
  ⟨owned 31 15 State.reset, 14, 31, by decide +kernel⟩,
  ⟨having (cmdOf .lodeReset 0 [31]) State.reset, 1, cmdOf .lodeReset 0 [31], rdy (by decide +kernel), by decide +kernel⟩,
  ⟨31, by decide +kernel⟩,
  ⟨having (cmdOf .lodePower 0 [31, 1]) State.reset, 1, cmdOf .lodePower 0 [31, 1], rdy (by decide +kernel), by decide +kernel⟩,
  ⟨having (cmdOf .lodePower 0 [31, 1]) (State.reset.setCore 255 { st := .held }), 1, cmdOf .lodePower 0 [31, 1], rdy (by decide +kernel),
    by decide +kernel⟩,
  ⟨having (cmdOf .lodePower 0 [31, 0]) (State.reset.setLode 31 { idle := true }), 1, cmdOf .lodePower 0 [31, 0], rdy (by decide +kernel),
    by decide +kernel⟩,
  ⟨having (cmdOf .lodePower 0 [31, 0]) State.reset, 1, cmdOf .lodePower 0 [31, 0], rdy (by decide +kernel), by decide +kernel⟩,
  ⟨{ State.reset with tb := { State.reset.tb with ticks := 200000 } }.setLode 31 { idle := true, wake := some 200000 }, 31, 200000,
    by decide +kernel⟩,
  ⟨{ State.reset with tb := { State.reset.tb with ticks := 199999 } }.setLode 31 { idle := true, wake := some 200000 }, 31, 200000,
    by decide +kernel⟩⟩

/-- States and operands that meet the hypotheses of `Core_Issue`, clause by clause. -/
theorem witness_Core_Issue :
    (∃ (s t : State) (k : Nat), (s.power.running = true ∧ k < 272) ∧ coreBegin k s = (t, true) ∧ (t.core k).nop = 0 ∧
      ∃ (u : State) (ms : _) (len : _), fetch t k (nextPc (t.core k)) = (u, .moves ms len)) ∧
    (∃ (s t : State) (k : Nat), (s.power.running = true ∧ k < 272) ∧ coreBegin k s = (t, true) ∧ (t.core k).nop = 0 ∧
      ∃ (u : _) (code : _) (sl : _) (p : _), fetch t k (nextPc (t.core k)) = (u, .bad code sl p)) ∧
    (∃ (s t : State) (k : Nat), (s.power.running = true ∧ k < 272) ∧ coreBegin k s = (t, true) ∧ (t.core k).nop = 0 ∧
      ∃ (u : State) (ms : List MoveSlot), ((u.core k).mop ≠ .waiting ∧ (u.core k).dmv ≠ .waiting) ∧ ∃ (en : _),
      en = (ms.filter (enabled (u.core k))) ∧ portFault (decide (256 ≤ k)) ms = none ∧ multiFault [] en = none ∧ (∀ m, m ∈ en → unitOf m.dst = 0)) ∧
    (∃ (s t : State) (k : Nat), (s.power.running = true ∧ k < 272) ∧ coreBegin k s = (t, true) ∧ (t.core k).nop = 0 ∧
      ∃ (u : State) (ms : List MoveSlot), ((u.core k).mop ≠ .waiting ∧ (u.core k).dmv ≠ .waiting) ∧ ∃ (en : _),
      en = (ms.filter (enabled (u.core k))) ∧ ∃ (sl : _) (p : _), portFault (decide (256 ≤ k)) ms = some (sl, p)) ∧
    (∃ (s t : State) (k : Nat), (s.power.running = true ∧ k < 272) ∧ coreBegin k s = (t, true) ∧ (t.core k).nop = 0 ∧
      ∃ (u : State) (ms : List MoveSlot), ((u.core k).mop ≠ .waiting ∧ (u.core k).dmv ≠ .waiting) ∧ ∃ (en : _),
      en = (ms.filter (enabled (u.core k))) ∧ ∃ (sl : _) (p : _), portFault (decide (256 ≤ k)) ms = none ∧ multiFault [] en = some (sl, p)) ∧
    (∃ (s t : State) (k : Nat), (s.power.running = true ∧ k < 272) ∧ coreBegin k s = (t, true) ∧ (t.core k).nop = 0 ∧ ∃ (w : Nat), bit w 28 = false) ∧
    (∃ (s t : State) (k : Nat), (s.power.running = true ∧ k < 272) ∧ coreBegin k s = (t, true) ∧ (t.core k).nop = 0 ∧ ∃ (w : Nat), bit w 28 = true) ∧
    (∃ (s t : State) (k : Nat), (s.power.running = true ∧ k < 272) ∧ coreBegin k s = (t, true) ∧ (t.core k).nop = 0 ∧ ∃ (m : MoveSlot),
      m.guard = none) ∧
    (∃ (s t : State) (k : Nat), (s.power.running = true ∧ k < 272) ∧ coreBegin k s = (t, true) ∧ (t.core k).nop = 0 ∧ ∃ (p : Nat) (m : MoveSlot),
      m.guard = some (p, false)) ∧
    (∃ (s t : State) (k : Nat), (s.power.running = true ∧ k < 272) ∧ coreBegin k s = (t, true) ∧ (t.core k).nop = 0 ∧ ∃ (p : Nat) (m : MoveSlot),
      m.guard = some (p, true)) :=
  ⟨⟨prog 271 [0x2040000C, 0x9A410140] {}, _, 271, by decide +kernel, brIs (by decide +kernel), by decide +kernel, _,
    [⟨0, none, 0x080, .imm 12⟩, ⟨1, some (2, true), 0x082, .port 5⟩], 8, brIs (by decide +kernel)⟩,
  ⟨prog 271 [0x80000001] {}, _, 271, by decide +kernel, brIs (by decide +kernel), by decide +kernel, _, 1, 0, 0, brIs (by decide +kernel)⟩,
  ⟨prog 271 [0x2040000C, 0x9A410140] {}, _, 271, by decide +kernel, brIs (by decide +kernel), by decide +kernel, State.reset,
    [⟨0, none, 0x03F, .imm 12⟩, ⟨1, some (2, true), 0x040, .port 0x50⟩], by decide +kernel, _, rfl, by decide +kernel⟩,
  ⟨prog 271 [0x2040000C, 0x9A410140] {}, _, 271, by decide +kernel, brIs (by decide +kernel), by decide +kernel, State.reset,
    [⟨0, some (0, false), 0x083, .imm 12⟩], by decide +kernel, _, rfl, 0, 0x83, by decide +kernel⟩,
  ⟨prog 271 [0x2040000C, 0x9A410140] {}, _, 271, by decide +kernel, brIs (by decide +kernel), by decide +kernel, State.reset,
    [⟨0, none, 0x03F, .imm 12⟩, ⟨1, none, 0x03F, .imm 12⟩], by decide +kernel, _, rfl, 1, 0x3F, by decide +kernel⟩,
  ⟨prog 271 [0x80000001] {}, _, 271, by decide +kernel, brIs (by decide +kernel), by decide +kernel, 0, by decide +kernel⟩,
  ⟨prog 271 [0x80000001] {}, _, 271, by decide +kernel, brIs (by decide +kernel), by decide +kernel, 0x10000000, by decide +kernel⟩,
  ⟨prog 271 [0x80000001] {}, _, 271, by decide +kernel, brIs (by decide +kernel), by decide +kernel, ⟨0, none, 0, .imm 0⟩, by decide +kernel⟩,
  ⟨prog 271 [0x80000001] {}, _, 271, by decide +kernel, brIs (by decide +kernel), by decide +kernel, 3, ⟨0, some (3, false), 0, .imm 0⟩,
    by decide +kernel⟩,
  ⟨prog 271 [0x80000001] {}, _, 271, by decide +kernel, brIs (by decide +kernel), by decide +kernel, 3, ⟨0, some (3, true), 0, .imm 0⟩,
    by decide +kernel⟩⟩

/-- States and operands that meet the hypotheses of `Core_Control`, clause by clause. -/
theorem witness_Core_Control :
    (∃ (s t : State) (k : Nat), (s.power.running = true ∧ k < 272) ∧ ∃ (u : State), coreBegin k s = (t, true) ∧ ((t.core k).nop = 0 ∧
      (t.core k).rep = none) ∧ fetch t k (t.core k).pc = (u, .ctl (.nop 1))) ∧
    (∃ (s t : State) (k : Nat), (s.power.running = true ∧ k < 272) ∧ ∃ (u : State), coreBegin k s = (t, true) ∧ ((t.core k).nop = 0 ∧
      (t.core k).rep = none) ∧ fetch t k (t.core k).pc = (u, .ctl .halt) ∧ (t.core k).branch = none) ∧
    (∃ (s : State) (k : Nat), s.power.running = true ∧ k < 272 ∧ (s.core k).halting = true ∧ (s.core k).st = .running ∧ (s.core k).flight = [] ∧
      (s.core k).cmd = none) ∧
    (∃ (s t : State) (k : Nat), (s.power.running = true ∧ k < 272) ∧ ∃ (u : State) (v : State) (intr : _) (reg : _) (count : _) (ms : _) (len : _),
      coreBegin k s = (t, true) ∧ ((s.core k).rep = none ∧ (t.core k).nop = 0) ∧ fetch t k (t.core k).pc = (u, .ctl (.rep intr reg count)) ∧
      (u.core k).branch = none ∧ fetch u k ((u.core k).pc + 4) = (v, .moves ms len) ∧ repeatable intr (.moves ms len) = true ∧ ∃ (n : _),
      n = (match reg with | some g => tget 0 (u.core k).ports g | none => count) ∧ n = 0) ∧
    (∃ (s t : State) (k : Nat), (s.power.running = true ∧ k < 272) ∧ ∃ (u : State) (v : State) (intr : _) (reg : _) (count : _) (ms : _) (len : _),
      coreBegin k s = (t, true) ∧ ((s.core k).rep = none ∧ (t.core k).nop = 0) ∧ fetch t k (t.core k).pc = (u, .ctl (.rep intr reg count)) ∧
      (u.core k).branch = none ∧ fetch u k ((u.core k).pc + 4) = (v, .moves ms len) ∧ repeatable intr (.moves ms len) = true ∧ ∃ (n : _),
      n = (match reg with | some g => tget 0 (u.core k).ports g | none => count) ∧ 0 < n ∧ n ≤ 4096) ∧
    (∃ (s t : State) (k : Nat), (s.power.running = true ∧ k < 272) ∧ ∃ (u : State) (v : State) (intr : _) (reg : _) (count : _) (ms : _) (len : _),
      coreBegin k s = (t, true) ∧ ((s.core k).rep = none ∧ (t.core k).nop = 0) ∧ fetch t k (t.core k).pc = (u, .ctl (.rep intr reg count)) ∧
      (u.core k).branch = none ∧ fetch u k ((u.core k).pc + 4) = (v, .moves ms len) ∧ repeatable intr (.moves ms len) = true ∧ ∃ (n : _),
      n = (match reg with | some g => tget 0 (u.core k).ports g | none => count) ∧ 4096 < n) :=
  ⟨⟨prog 271 [0xE0000000] {}, _, 271, by decide +kernel, _, brIs (by decide +kernel), by decide +kernel, brIs (by decide +kernel)⟩,
  ⟨prog 271 [0xE2000000] {}, _, 271, by decide +kernel, _, brIs (by decide +kernel), by decide +kernel, brIs (by decide +kernel), by decide +kernel⟩,
  ⟨State.reset.setCore 271 { st := .running, halting := true }, 271, by decide +kernel⟩,
  ⟨prog 271 [0xE1403000, 0x80008000] { ports := [(3, 0)] }, _, 271, by decide +kernel, _, _, false, some 3, 0, [⟨0, none, 1, .port 0⟩], 4,
    brIs (by decide +kernel), by decide +kernel, brIs (by decide +kernel), by decide +kernel, brIs (by decide +kernel), by decide +kernel, _, rfl,
    by decide +kernel⟩,
  ⟨prog 271 [0xE1403000, 0x80008000] { ports := [(3, 4096)] }, _, 271, by decide +kernel, _, _, false, some 3, 0, [⟨0, none, 1, .port 0⟩], 4,
    brIs (by decide +kernel), by decide +kernel, brIs (by decide +kernel), by decide +kernel, brIs (by decide +kernel), by decide +kernel, _, rfl,
    by decide +kernel⟩,
  ⟨prog 271 [0xE1403000, 0x80008000] { ports := [(3, 4097)] }, _, 271, by decide +kernel, _, _, false, some 3, 0, [⟨0, none, 1, .port 0⟩], 4,
    brIs (by decide +kernel), by decide +kernel, brIs (by decide +kernel), by decide +kernel, brIs (by decide +kernel), by decide +kernel, _, rfl,
    by decide +kernel⟩⟩

/-- States and operands that meet the hypotheses of `Core_Results`, clause by clause. -/
theorem witness_Core_Results :
    (∃ (s : State) (k : Nat), (s.power.running = true ∧ k < 272) ∧ ∃ (f : Flight) (p : _) (v : _), (s.core k).st = .running ∧
      (s.core k).flight = [f] ∧ f.due ≤ (s.core k).cyc ∧ f.late = false ∧ f.ue = none ∧ f.outs = [(p, v)]) ∧
    (∃ (s : State) (k : Nat), (s.power.running = true ∧ k < 272) ∧ ∃ (f : Flight) (rest : _), (s.core k).flight = f :: rest ∧ f.late = true ∧
      dataReady s f = true ∧ (s.core k).why = 1) ∧
    (∃ (s : State) (k : Nat), (s.power.running = true ∧ k < 272) ∧ ∃ (e : _), (s.core k).st = .running ∧ lateDue (s.core k) = false ∧
      ueDue (s.core k) = some e) ∧
    (∃ (s : State) (k : Nat), s.power.running = true ∧ k < 272 ∧ coreOwner s k ≤ 16) :=
  ⟨⟨State.reset.setCore 271 { st := .running, cyc := 5, flight := [⟨5, [(0x83, 7)], false, none, none⟩] }, 271, by decide +kernel, ⟨5, [(0x83, 7)],
    false, none, none⟩, 0x83, 7, by decide +kernel⟩,
  ⟨State.reset.setCore 271 { st := .running, cyc := 5, why := 1, flight := [⟨5, [(0xA4, 7)], true, none, none⟩] }, 271, by decide +kernel, ⟨5,
    [(0xA4, 7)], true, none, none⟩, [], by decide +kernel⟩,
  ⟨State.reset.setCore 271 { st := .running, cyc := 5, flight := [⟨5, [], false, some ⟨0, 1, 0xA3, 64⟩, none⟩] }, 271, by decide +kernel, ⟨0, 1,
    0xA3, 64⟩, by decide +kernel⟩,
  ⟨State.reset, 271, by decide +kernel⟩⟩

/-- States and operands that meet the hypotheses of `Core_Run_Control`, clause by clause. -/
theorem witness_Core_Run_Control :
    (∃ (s : State) (k t : Nat) (val : Word), (s.power.running = true ∧ k < 272 ∧ t < 16 ∧ coreOwner s k = t + 1) ∧ ∃ (u : _),
      u = (s.setField .bcCtrl k 0 1 1 (bits val.toNat 1 1)) ∧ val.toNat % 8 = 1 ∧ (s.core k).st = .halted) ∧
    (∃ (s : State) (k t : Nat) (val : Word), (s.power.running = true ∧ k < 272 ∧ t < 16 ∧ coreOwner s k = t + 1) ∧ ∃ (u : _),
      u = (s.setField .bcCtrl k 0 1 1 (bits val.toNat 1 1)) ∧ val.toNat % 8 = 1 ∧ (s.core k).st ≠ .halted) ∧
    (∃ (s : State) (k t : Nat) (val : Word), (s.power.running = true ∧ k < 272 ∧ t < 16 ∧ coreOwner s k = t + 1) ∧ ∃ (u : _),
      u = (s.setField .bcCtrl k 0 1 1 (bits val.toNat 1 1)) ∧ val.toNat % 8 = 4 ∧ (s.core k).st = .faulted) ∧
    (∃ (s : State) (k t : Nat) (val : Word), (s.power.running = true ∧ k < 272 ∧ t < 16 ∧ coreOwner s k = t + 1) ∧ ∃ (u : _),
      u = (s.setField .bcCtrl k 0 1 1 (bits val.toNat 1 1)) ∧ val.toNat % 8 < 4 ∧ bit val.toNat 0 = false) ∧
    (∃ (s : State) (k t : Nat), s.power.running = true ∧ k < 272 ∧ t < 16 ∧ coreOwner s k = t + 1) ∧
    (∃ (s : State) (k t : Nat) (val : Word), (s.power.running = true ∧ k < 272 ∧ t < 16 ∧ coreOwner s k = t + 1) ∧ ∃ (u : _),
      u = (s.setField .bcCtrl k 0 1 1 (bits val.toNat 1 1)) ∧ (s.core k).st = .running ∧ (s.core k).halting = false ∧ coreHold s k = true ∧
      holdPoint (s.core k) = true ∧ ueDue (s.core k) = none ∧ waitExpired s k = false ∧ coreClocked s k = true) ∧
    (∃ (s : State) (k t : Nat) (val : Word), (s.power.running = true ∧ k < 272 ∧ t < 16 ∧ coreOwner s k = t + 1) ∧ ∃ (u : _),
      u = (s.setField .bcCtrl k 0 1 1 (bits val.toNat 1 1)) ∧ ∃ (req : _) (off : _) (data : Bytes), (data ≠ [] ∧ off + data.length ≤ 0x10000) ∧
      ∃ (a : _), a = (imemBase + k * 0x10000 + off) ∧ permits s req a data.length true = true) ∧
    (∃ (s : State) (k t : Nat) (val : Word), (s.power.running = true ∧ k < 272 ∧ t < 16 ∧ coreOwner s k = t + 1) ∧ ∃ (u : _),
      u = (s.setField .bcCtrl k 0 1 1 (bits val.toNat 1 1)) ∧ ∃ (req : _) (off : _) (data : Bytes), (data ≠ [] ∧ off + data.length ≤ 0x10000) ∧
      ∃ (a : _), a = (imemBase + k * 0x10000 + off) ∧ permits s req a data.length true = false) ∧
    (∃ (s : State) (k t : Nat) (val : Word), (s.power.running = true ∧ k < 272 ∧ t < 16 ∧ coreOwner s k = t + 1) ∧ ∃ (u : _),
      u = (s.setField .bcCtrl k 0 1 1 (bits val.toNat 1 1)) ∧ ∃ (a : _), (a - imemBase) / 0x10000 = k ∧ imemOpen s k = false) :=
  ⟨⟨{ State.reset with own := { State.reset.own with ibcs := [(15, 16)] } }, 271, 15, 1, by decide +kernel, _, rfl, by decide +kernel⟩,
  ⟨{ State.reset with own := { State.reset.own with ibcs := [(15, 16)] } }.setCore 271 { st := .faulted }, 271, 15, 1, by decide +kernel, _, rfl,
    by decide +kernel⟩,
  ⟨{ State.reset with own := { State.reset.own with ibcs := [(15, 16)] } }.setCore 271 { st := .faulted }, 271, 15, 4, by decide +kernel, _, rfl,
    by decide +kernel⟩,
  ⟨{ State.reset with own := { State.reset.own with ibcs := [(15, 16)] } }, 271, 15, 2, by decide +kernel, _, rfl, by decide +kernel⟩,
  ⟨{ State.reset with own := { State.reset.own with ibcs := [(15, 16)] } }, 271, 15, by decide +kernel⟩,
  ⟨({ State.reset with own := { State.reset.own with ibcs := [(15, 16)] } }.setCore 271 { st := .running }).setReg .bcCtrl 271 0 2, 271, 15, 0,
    by decide +kernel, _, rfl, by decide +kernel⟩,
  ⟨{ State.reset with own := { State.reset.own with ibcs := [(15, 16)] } }, 271, 15, 0, by decide +kernel, _, rfl, tenReq 15 0x200, 0xFFE0, zeros 32,
    by decide +kernel, _, rfl, by decide +kernel⟩,
  ⟨{ State.reset with own := { State.reset.own with ibcs := [(15, 16)] } }, 271, 15, 0, by decide +kernel, _, rfl, tenReq 14 0x200, 0xFFE0, zeros 32,
    by decide +kernel, _, rfl, by decide +kernel⟩,
  ⟨{ State.reset with own := { State.reset.own with ibcs := [(15, 16)] } }.setCore 271 { st := .running }, 271, 15, 0, by decide +kernel, _, rfl,
    imemBase + 271 * 0x10000 + 0xFFE0, by decide +kernel⟩⟩

/-- States and operands that meet the hypotheses of `Firmware_Restarts`, clause by clause. -/
theorem witness_Firmware_Restarts :
    (∃ (s : State) (p : Nat), (s.power.running = true ∧ p < 33) ∧ ∃ (cause : _) (t : _) (u : _) (v : _), ((s.fwp p).st = .running ∧
      bit (s.reg .glbFwCause) 31 = false ∧ cause ≤ 3) ∧
      t = raise 1 none (regAddr .glbFwCause 0 0 0) 0x8004 (leBytes 1 p ++ leBytes 1 cause) (s.setReg .glbFwCause 0 0 (p + cause * 64 + 2 ^ 31)) ∧
      u = countRestart p (t.setFw p { s.fwp p with st := .restarting, first := s.tb.ticks }) ∧ v = (if p < 32 then holdsChanged u else u) ∧
      ∃ (kicked : _), cause = 0 ∧ wdExpired s ⟨p, kicked⟩ = true) ∧
    (∃ (s : State) (p : Nat), (s.power.running = true ∧ p < 33) ∧ ∃ (cause : _) (t : _) (u : _) (v : _), ((s.fwp p).st = .running ∧
      bit (s.reg .glbFwCause) 31 = false ∧ cause ≤ 3) ∧
      t = raise 1 none (regAddr .glbFwCause 0 0 0) 0x8004 (leBytes 1 p ++ leBytes 1 cause) (s.setReg .glbFwCause 0 0 (p + cause * 64 + 2 ^ 31)) ∧
      u = countRestart p (t.setFw p { s.fwp p with st := .restarting, first := s.tb.ticks }) ∧ v = (if p < 32 then holdsChanged u else u) ∧
      0 < cause) ∧
    (∃ (s : State) (p : Nat), (s.power.running = true ∧ p < 33) ∧ ∃ (kicked : _), (s.fwp p).wd ≤ kicked ∧ kicked + wdPeriod p ≤ s.tb.ticks) ∧
    (∃ (s : State) (p : Nat), (s.power.running = true ∧ p < 33) ∧ ∃ (kicked : _), s.tb.ticks < kicked + wdPeriod p) ∧
    (∃ (s : State) (p : Nat), s.power.running = true ∧ p < 33 ∧ (s.fwp p).st = .restarting) ∧
    (imageOk refilling (Config.bootImage bootStore) = true → ∃ (s : State) (p : Nat), (s.power.running = true ∧ p < 33 ∧
      (s.fwp p).st = .restarting) ∧ ∃ (u : _), refillStore s = some u) ∧
    (∃ (s : State) (p : Nat), s.power.running = true ∧ p < 33 ∧ (s.fwp p).st = .restarting ∧ refillStore s = none) ∧
    (∃ (s : State) (p : Nat), s.power.running = true ∧ p < 33 ∧ (s.fwp p).st = .running) ∧
    (∃ (s : State) (p : Nat), s.power.running = true ∧ p < 33 ∧ p < 32 ∧ (s.fwp p).st = .restarting ∧ (s.fwp p).first + 500 * msTicks ≤ s.tb.ticks ∧
      groupOf s p = none) ∧
    (∃ (s : State) (p : Nat), s.power.running = true ∧ p < 33 ∧ p < 32 ∧ (s.fwp p).st = .restarting ∧ s.tb.ticks < (s.fwp p).first + 500 * msTicks) :=
  ⟨⟨{ State.reset with tb := { State.reset.tb with ticks := 20000000 } }, 31, by decide +kernel, 0, _, _, _, by decide +kernel, rfl, rfl, rfl, 0,
    by decide +kernel⟩,
  ⟨State.reset, 31, by decide +kernel, 3, _, _, _, by decide +kernel, rfl, rfl, rfl, by decide +kernel⟩,
  ⟨{ State.reset with tb := { State.reset.tb with ticks := 10000000 } }, 31, by decide +kernel, 0, by decide +kernel⟩,
  ⟨{ State.reset with tb := { State.reset.tb with ticks := 9999999 } }, 31, by decide +kernel, 0, by decide +kernel⟩,
  ⟨State.reset.setFw 32 { st := .restarting }, 32, by decide +kernel⟩,
  fun h => ⟨refilling, 32, by decide +kernel, { refilling with sec := { refilling.sec with store := bootStore } },
    by unfold refillStore; show (if (!secHalted refilling && imageOk refilling (Config.bootImage bootStore)) = true then _ else _) = _; rw [h]; rfl⟩,
  ⟨noImage 32, 32, by decide +kernel⟩,
  ⟨State.reset, 32, by decide +kernel⟩,
  ⟨{ State.reset.setFw 31 { st := .restarting } with tb := { State.reset.tb with ticks := 500000000 } }, 31, by decide +kernel⟩,
  ⟨{ State.reset.setFw 31 { st := .restarting } with tb := { State.reset.tb with ticks := 499999999 } }, 31, by decide +kernel⟩⟩

/-- States and operands that meet the hypotheses of `Strict_Mode`, clause by clause. -/
theorem witness_Strict_Mode :
    (∃ (s : State) (t : Nat), s.power.running = true ∧ t < 16 ∧ bit (s.reg .detCtrl 0 t) 1 = true) ∧
    (∃ (s : State) (t : Nat) (val : Word), (s.power.running = true ∧ t < 16) ∧ ∃ (m : _), (m = 16 ∨ m = 17) ∧ bit (s.reg .detCtrl 0 t) 1 = false ∧
      bit val.toNat 1 = true) ∧
    (∃ (s : State) (t : Nat), (s.power.running = true ∧ t < 16) ∧ ∃ (o : _), o < 16 ∧ o ≠ t) :=
  ⟨⟨State.reset.setReg .detCtrl 0 15 2, 15, by decide +kernel⟩,
  ⟨State.reset, 15, 3, by decide +kernel, 17, by decide +kernel⟩,
  ⟨State.reset, 15, by decide +kernel, 14, by decide +kernel⟩⟩

/-- States and operands that meet the hypotheses of `TimeBase_Writes`, clause by clause. -/
theorem witness_TimeBase_Writes :
    (∃ (s : State) (passed : Nat → ArmedEv → Bool) (moved : Nat → ArmedEv → ArmedEv), s.power.running = true ∧
      passed = (fun v e => decide (s.tb.master.toNat < v) && decide (e.target * 2 ^ 16 < v)) ∧
      moved = (fun v e => { e with late := e.late || passed v e, start := if s.tb.master.toNat < e.target * 2 ^ 16 ∧ e.target * 2 ^ 16 ≤ v then s.tb.ticks + 1 else e.start }) ∧
      ∃ (v : _) (d : _), v = s.reg .tbSyncLoad * 2 ^ 16 ∧ s.tb.edge = some d ∧ d ≤ s.tb.ticks ∧ v < s.tb.master.toNat ∧ tbHeld s = true) ∧
    (∃ (s : State) (passed : Nat → ArmedEv → Bool) (moved : Nat → ArmedEv → ArmedEv), s.power.running = true ∧
      passed = (fun v e => decide (s.tb.master.toNat < v) && decide (e.target * 2 ^ 16 < v)) ∧
      moved = (fun v e => { e with late := e.late || passed v e, start := if s.tb.master.toNat < e.target * 2 ^ 16 ∧ e.target * 2 ^ 16 ≤ v then s.tb.ticks + 1 else e.start }) ∧
      ∃ (v : _) (d : _), v = s.reg .tbSyncLoad * 2 ^ 16 ∧ (s.tb.edge = some d ∧ d ≤ s.tb.ticks) ∧ (s.tb.master.toNat ≤ v ∨ tbHeld s = false)) ∧
    (∃ (s : State) (val : Word) (passed : Nat → ArmedEv → Bool) (moved : Nat → ArmedEv → ArmedEv), s.power.running = true ∧
      passed = (fun v e => decide (s.tb.master.toNat < v) && decide (e.target * 2 ^ 16 < v)) ∧
      moved = (fun v e => { e with late := e.late || passed v e, start := if s.tb.master.toNat < e.target * 2 ^ 16 ∧ e.target * 2 ^ 16 ≤ v then s.tb.ticks + 1 else e.start }) ∧
      servoOn s = false ∧ loadHere s = false ∧ (s.tb.master.toNat : Int) + tbStepWord val s.tb.stepLow < 0) ∧
    (∃ (s : State) (val : Word) (passed : Nat → ArmedEv → Bool) (moved : Nat → ArmedEv → ArmedEv), s.power.running = true ∧
      passed = (fun v e => decide (s.tb.master.toNat < v) && decide (e.target * 2 ^ 16 < v)) ∧
      moved = (fun v e => { e with late := e.late || passed v e, start := if s.tb.master.toNat < e.target * 2 ^ 16 ∧ e.target * 2 ^ 16 ≤ v then s.tb.ticks + 1 else e.start }) ∧
      servoOn s = false ∧ ∃ (v : Nat), loadHere s = false ∧ (s.tb.master.toNat : Int) + tbStepWord val s.tb.stepLow = v ∧ v < 2 ^ 80 ∧
      v < s.tb.master.toNat ∧ tbHeld s = true) ∧
    (∃ (s : State) (val : Word) (passed : Nat → ArmedEv → Bool) (moved : Nat → ArmedEv → ArmedEv), s.power.running = true ∧
      passed = (fun v e => decide (s.tb.master.toNat < v) && decide (e.target * 2 ^ 16 < v)) ∧
      moved = (fun v e => { e with late := e.late || passed v e, start := if s.tb.master.toNat < e.target * 2 ^ 16 ∧ e.target * 2 ^ 16 ≤ v then s.tb.ticks + 1 else e.start }) ∧
      servoOn s = false ∧ ∃ (v : Nat), (loadHere s = false ∧ (s.tb.master.toNat : Int) + tbStepWord val s.tb.stepLow = v ∧ v < 2 ^ 80) ∧
      (s.tb.master.toNat ≤ v ∨ tbHeld s = false)) ∧
    (∃ (s : State) (passed : Nat → ArmedEv → Bool) (moved : Nat → ArmedEv → ArmedEv), s.power.running = true ∧
      passed = (fun v e => decide (s.tb.master.toNat < v) && decide (e.target * 2 ^ 16 < v)) ∧
      moved = (fun v e => { e with late := e.late || passed v e, start := if s.tb.master.toNat < e.target * 2 ^ 16 ∧ e.target * 2 ^ 16 ≤ v then s.tb.ticks + 1 else e.start }) ∧
      servoOn s = false ∧ loadHere s = true) ∧
    (∃ (s : State) (id : Nat) (c : Cmd) (passed : Nat → ArmedEv → Bool) (moved : Nat → ArmedEv → ArmedEv), s.power.running = true ∧
      passed = (fun v e => decide (s.tb.master.toNat < v) && decide (e.target * 2 ^ 16 < v)) ∧
      moved = (fun v e => { e with late := e.late || passed v e, start := if s.tb.master.toNat < e.target * 2 ^ 16 ∧ e.target * 2 ^ 16 ≤ v then s.tb.ticks + 1 else e.start }) ∧
      servoOn s = false ∧ Ready s .tbAdj id c) ∧
    (∃ (s : State) (id : Nat) (c : Cmd) (passed : Nat → ArmedEv → Bool) (moved : Nat → ArmedEv → ArmedEv), s.power.running = true ∧
      passed = (fun v e => decide (s.tb.master.toNat < v) && decide (e.target * 2 ^ 16 < v)) ∧
      moved = (fun v e => { e with late := e.late || passed v e, start := if s.tb.master.toNat < e.target * 2 ^ 16 ∧ e.target * 2 ^ 16 ≤ v then s.tb.ticks + 1 else e.start }) ∧
      servoOn s = false ∧ Ready s .tbSyncArm id c) ∧
    (∃ (s : State) (id : Nat) (c : Cmd) (passed : Nat → ArmedEv → Bool) (moved : Nat → ArmedEv → ArmedEv), s.power.running = true ∧
      passed = (fun v e => decide (s.tb.master.toNat < v) && decide (e.target * 2 ^ 16 < v)) ∧
      moved = (fun v e => { e with late := e.late || passed v e, start := if s.tb.master.toNat < e.target * 2 ^ 16 ∧ e.target * 2 ^ 16 ≤ v then s.tb.ticks + 1 else e.start }) ∧
      servoOn s = true ∧ Ready s .tbAdj id c) ∧
    (∃ (s : State) (id : Nat) (c : Cmd) (passed : Nat → ArmedEv → Bool) (moved : Nat → ArmedEv → ArmedEv), s.power.running = true ∧
      passed = (fun v e => decide (s.tb.master.toNat < v) && decide (e.target * 2 ^ 16 < v)) ∧
      moved = (fun v e => { e with late := e.late || passed v e, start := if s.tb.master.toNat < e.target * 2 ^ 16 ∧ e.target * 2 ^ 16 ≤ v then s.tb.ticks + 1 else e.start }) ∧
      servoOn s = true ∧ Ready s .tbSyncArm id c) :=
  ⟨⟨{ (State.reset.setReg .tbSyncLoad 0 0 1) with tb := { State.reset.tb with master := 0x20000, armed := [⟨.lock 0, 9, false, 0⟩], edge := some 0 } },
    _, _, by decide +kernel, rfl, rfl, _, 0, rfl, by decide +kernel⟩,
  ⟨{ (State.reset.setReg .tbSyncLoad 0 0 4) with tb := { State.reset.tb with master := 0x20000, armed := [⟨.lock 0, 3, false, 0⟩, ⟨.lock 1, 4, false, 0⟩], edge := some 0 } },
    _, _, by decide +kernel, rfl, rfl, _, 0, rfl, by decide +kernel, .inl (by decide +kernel)⟩,
  ⟨{ State.reset with tb := { State.reset.tb with master := 0x20000, armed := [⟨.lock 0, 9, false, 0⟩], stepLow := 0xFFFFFFFD } }, 0xFFFFFFFF, _, _,
    by decide +kernel, rfl, rfl, by decide +kernel⟩,
  ⟨{ State.reset with tb := { State.reset.tb with master := 0x20000, armed := [⟨.lock 0, 9, false, 0⟩], stepLow := 0xFFFFFFFF } }, 0xFFFFFFFF, _, _,
    by decide +kernel, rfl, rfl, by decide +kernel, 0x10000, by decide +kernel⟩,
  ⟨{ State.reset with tb := { State.reset.tb with master := 0x10000, armed := [⟨.lock 0, 2, false, 0⟩], stepLow := 1 } }, 0, _, _, by decide +kernel,
    rfl, rfl, by decide +kernel, 0x20000, by decide +kernel, .inl (by decide +kernel)⟩,
  ⟨{ (State.reset.setReg .tbSyncLoad 0 0 1) with tb := { State.reset.tb with loadTick := some 0 } }, _, _, by decide +kernel, rfl, rfl,
    by decide +kernel⟩,
  ⟨having (cmdOf .tbAdj 16 [0x8000]) State.reset, 1, cmdOf .tbAdj 16 [0x8000], _, _, by decide +kernel, rfl, rfl, by decide +kernel,
    rdy (by decide +kernel)⟩,
  ⟨having (cmdOf .tbSyncArm 16 [0x80]) State.reset, 1, cmdOf .tbSyncArm 16 [0x80], _, _, by decide +kernel, rfl, rfl, by decide +kernel,
    rdy (by decide +kernel)⟩,
  ⟨having (cmdOf .tbAdj 16 [0x8000]) (State.reset.setReg .tbCtrl 0 0 1), 1, cmdOf .tbAdj 16 [0x8000], _, _, by decide +kernel, rfl, rfl,
    by decide +kernel, rdy (by decide +kernel)⟩,
  ⟨having (cmdOf .tbSyncArm 16 [0x80]) (State.reset.setReg .tbCtrl 0 0 1), 1, cmdOf .tbSyncArm 16 [0x80], _, _, by decide +kernel, rfl, rfl,
    by decide +kernel, rdy (by decide +kernel)⟩⟩

/-- States and operands that meet the hypotheses of `TimeBase_Events`, clause by clause. -/
theorem witness_TimeBase_Events :
    (∃ (s : State), s.power.running = true ∧ ∃ (e : _) (g : _), leastEvent (s.tb.armed.filter fun e => e.due s) = some e ∧ e.owner = .lock g) ∧
    (∃ (s : State), s.power.running = true ∧ ∃ (e : _) (id : Nat), leastEvent (s.tb.armed.filter fun e => e.due s) = some e ∧ e.owner = .timed id) ∧
    (∃ (s : State), s.power.running = true ∧ ∃ (e : _) (m : _), leastEvent (s.tb.armed.filter fun e => e.due s) = some e ∧ e.owner = .gate m) ∧
    (∃ (s : State), s.power.running = true ∧ (∀ e, e ∈ s.tb.armed → s.now < e.target ∨ s.tb.ticks < e.start)) ∧
    (∃ (s : State), s.power.running = true ∧ bit (s.reg .tbSts) 0 = true ∧ s.tb.edge = none ∧ s.tb.ticks ≠ s.tb.armTick) ∧
    (∃ (s : State), s.power.running = true ∧ ∃ (d : _), s.tb.edge = some d ∧ d ≤ s.tb.ticks ∧ tbHeld s = false) ∧
    (∃ (s : State), s.power.running = true ∧ ∃ (p : _) (rest : _) (q : _) (due : _), s.net.ptp = p :: rest ∧ ∃ (b : _),
      b = (p.bytes.drop (if (parse p.bytes).etype = 0x88F7 then (parse p.bytes).l3 else (parse p.bytes).p.getD 0)) ∧ servoOn s = true ∧
      p.mac = bits (s.reg .tbCtrl) 5 1 ∧ fld b 1 1 % 16 = 2 ∧ fld b 4 1 = bits (s.reg .tbCtrl) 13 6 ∧ s.tb.servo.best = some (q, slice b 20 10,
      due) ∧ s.tb.ticks < due ∧ fld b 0 1 % 16 = 0 ∧ bit (fld b 6 1) 1 = true) :=
  ⟨⟨{ State.reset with tb := { State.reset.tb with armed := [⟨.lock 31, 0, false, 0⟩] } }, by decide +kernel, ⟨.lock 31, 0, false, 0⟩, 31,
    by decide +kernel⟩,
  ⟨having ({ cmdOf .syncSignal 0 [] with phase := .timed }) ({ State.reset with tb := { State.reset.tb with armed := [⟨.timed 1, 0, false, 0⟩] } }),
    by decide +kernel, ⟨.timed 1, 0, false, 0⟩, 1, by decide +kernel⟩,
  ⟨{ State.reset with tb := { State.reset.tb with armed := [⟨.gate 31, 0, false, 0⟩] } }, by decide +kernel, ⟨.gate 31, 0, false, 0⟩, 31,
    by decide +kernel⟩,
  ⟨{ State.reset with tb := { State.reset.tb with armed := [⟨.lock 31, 1, false, 0⟩] } }, by decide +kernel⟩,
  ⟨({ State.reset with tb := { State.reset.tb with ticks := 1 } }).setReg .tbSts 0 0 1, by decide +kernel⟩,
  ⟨{ State.reset with tb := { State.reset.tb with edge := some 2, ticks := 2 } }, by decide +kernel, 2, by decide +kernel⟩,
  ⟨({ { State.reset with tb := { State.reset.tb with servo := { best := some ([], zeros 10, 1) } } } with net := { State.reset.net with ptp := [{ mac := 0, bytes := rec_ 64 [(12, 2, 0xF788), (14, 2, 0x1200), (14, 1, 0), (15, 1, 2), (20, 1, 2)], time := 5 }] } }).setReg .tbCtrl 0 0 1,
    by decide +kernel, { mac := 0, bytes := rec_ 64 [(12, 2, 0xF788), (14, 2, 0x1200), (14, 1, 0), (15, 1, 2), (20, 1, 2)], time := 5 }, [], [], 1,
    by decide +kernel, _, rfl, by decide +kernel⟩⟩

/-- States and operands that meet the hypotheses of `Tally_Sums`, clause by clause. -/
theorem witness_Tally_Sums :
    (∃ (a : Int) (t : Tally) (w : List El × List El → Int) (run : Tally → List (List El × List El) → Dot),
      w = (fun p => (term (grainSum p.1 p.2).1 a).1) ∧ run = (fun t ps => ps.foldl (fun d p => dotStep a d p.1 p.2) { t := t }) ∧
      ∃ (l : List ((Int × Int) × (Int × Int))) (k : Int), (∀ q ∈ l, k ≤ q.1.2 + q.2.2)) ∧
    (∃ (a : Int) (t : Tally) (w : List El × List El → Int) (run : Tally → List (List El × List El) → Dot),
      w = (fun p => (term (grainSum p.1 p.2).1 a).1) ∧ run = (fun t ps => ps.foldl (fun d p => dotStep a d p.1 p.2) { t := t }) ∧ ∃ (e : Int),
      a ≤ e) ∧
    (∃ (a : Int) (t : Tally) (w : List El × List El → Int) (run : Tally → List (List El × List El) → Dot),
      w = (fun p => (term (grainSum p.1 p.2).1 a).1) ∧ run = (fun t ps => ps.foldl (fun d p => dotStep a d p.1 p.2) { t := t }) ∧ ∃ (e : Int),
      e < a) ∧
    (∃ (a : Int) (t : Tally) (w : List El × List El → Int) (run : Tally → List (List El × List El) → Dot),
      w = (fun p => (term (grainSum p.1 p.2).1 a).1) ∧ run = (fun t ps => ps.foldl (fun d p => dotStep a d p.1 p.2) { t := t }) ∧ ∃ (x : Int),
      t.tag.getLsbD 3 = false ∧ -2 ^ 127 ≤ t.v.toInt + x ∧ t.v.toInt + x ≤ 2 ^ 127 - 1) ∧
    (∃ (a : Int) (t : Tally) (w : List El × List El → Int) (run : Tally → List (List El × List El) → Dot),
      w = (fun p => (term (grainSum p.1 p.2).1 a).1) ∧ run = (fun t ps => ps.foldl (fun d p => dotStep a d p.1 p.2) { t := t }) ∧ ∃ (x : Int),
      t.tag.getLsbD 3 = false ∧ 2 ^ 127 ≤ t.v.toInt + x) ∧
    (∃ (a : Int) (t : Tally) (w : List El × List El → Int) (run : Tally → List (List El × List El) → Dot),
      w = (fun p => (term (grainSum p.1 p.2).1 a).1) ∧ run = (fun t ps => ps.foldl (fun d p => dotStep a d p.1 p.2) { t := t }) ∧ ∃ (x : Int),
      t.tag.getLsbD 3 = false ∧ t.v.toInt + x < -2 ^ 127) ∧
    (∃ (a : Int) (t : Tally) (w : List El × List El → Int) (run : Tally → List (List El × List El) → Dot),
      w = (fun p => (term (grainSum p.1 p.2).1 a).1) ∧ run = (fun t ps => ps.foldl (fun d p => dotStep a d p.1 p.2) { t := t }) ∧
      t.tag.getLsbD 3 = true) ∧
    (∃ (a : Int) (t : Tally) (w : List El × List El → Int) (run : Tally → List (List El × List El) → Dot),
      w = (fun p => (term (grainSum p.1 p.2).1 a).1) ∧ run = (fun t ps => ps.foldl (fun d p => dotStep a d p.1 p.2) { t := t }) ∧ t.tag &&& 7 = 0) ∧
    (∃ (a : Int) (t : Tally) (w : List El × List El → Int) (run : Tally → List (List El × List El) → Dot),
      w = (fun p => (term (grainSum p.1 p.2).1 a).1) ∧ run = (fun t ps => ps.foldl (fun d p => dotStep a d p.1 p.2) { t := t }) ∧
      ∃ (ps : List (List El × List El)) (qs : List (List El × List El)), qs.Perm ps ∧ t.tag.getLsbD 3 = false ∧ (∀ n,
      -2 ^ 127 ≤ t.v.toInt + ((ps.map w).take n).sum ∧ t.v.toInt + ((ps.map w).take n).sum ≤ 2 ^ 127 - 1) ∧ (∀ n,
      -2 ^ 127 ≤ t.v.toInt + ((qs.map w).take n).sum ∧ t.v.toInt + ((qs.map w).take n).sum ≤ 2 ^ 127 - 1)) :=
  ⟨⟨0, { v := 2 ^ 127 - 4 }, _, _, rfl, rfl, [((1, 0), (3, -1)), ((5, -7), (1, 6))], -1, by decide +kernel⟩,
  ⟨0, { v := 2 ^ 127 - 4 }, _, _, rfl, rfl, 0, by decide +kernel⟩,
  ⟨0, { v := 2 ^ 127 - 4 }, _, _, rfl, rfl, -1, by decide +kernel⟩,
  ⟨0, { v := 2 ^ 127 - 4 }, _, _, rfl, rfl, 3, by decide +kernel⟩,
  ⟨0, { v := 2 ^ 127 - 4 }, _, _, rfl, rfl, 4, by decide +kernel⟩,
  ⟨0, { v := 2 ^ 127 }, _, _, rfl, rfl, -1, by decide +kernel⟩,
  ⟨0, { tag := 8 }, _, _, rfl, rfl, by decide +kernel⟩,
  ⟨0, { tag := 8 }, _, _, rfl, rfl, by decide +kernel⟩,
  ⟨0, { v := 2 ^ 127 - 4 }, _, _, rfl, rfl, [([El.fin 1 0], [El.fin 1 0]), ([El.fin 3 (-1)], [El.fin 1 0])],
    [([El.fin 3 (-1)], [El.fin 1 0]), ([El.fin 1 0], [El.fin 1 0])], .swap _ _ _, by decide +kernel,
    takeTwo _ _ (fun z : Int => -2 ^ 127 ≤ (2 ^ 127 - 4 : BitVec 128).toInt + z ∧
    (2 ^ 127 - 4 : BitVec 128).toInt + z ≤ 2 ^ 127 - 1) (by decide +kernel) (by decide +kernel) (by decide +kernel),
    takeTwo _ _ (fun z : Int => -2 ^ 127 ≤ (2 ^ 127 - 4 : BitVec 128).toInt + z ∧
    (2 ^ 127 - 4 : BitVec 128).toInt + z ≤ 2 ^ 127 - 1) (by decide +kernel) (by decide +kernel) (by decide +kernel)⟩⟩

/-- States and operands that meet the hypotheses of `Counter_Cycles`, clause by clause. -/
theorem witness_Counter_Cycles :
    (∃ (s : State) (p : Nat), (s.power.running = true ∧ p < 17408) ∧ ∃ (a : _) (v : _) (t : _), (s.sync.epochs = [] ∧ (s.ctr p).waiters = [] ∧
      s.sync.flight = [⟨a, p, v, none⟩]) ∧ t = { s with sync := { s.sync with flight := [] } } ∧ (s.ctr p).sat = false ∧
      (s.ctr p).count.toNat + v ≤ 0xFFFFFF) ∧
    (∃ (s : State) (p : Nat), (s.power.running = true ∧ p < 17408) ∧ ∃ (a : _) (v : _) (t : _), (s.sync.epochs = [] ∧ (s.ctr p).waiters = [] ∧
      s.sync.flight = [⟨a, p, v, none⟩]) ∧ t = { s with sync := { s.sync with flight := [] } } ∧ (s.ctr p).sat = false ∧
      0xFFFFFF < (s.ctr p).count.toNat + v ∧ ctrOwner s p ≤ 16) ∧
    (∃ (s : State) (p : Nat), (s.power.running = true ∧ p < 17408) ∧ ∃ (a : _) (v : _) (t : _), (s.sync.epochs = [] ∧ (s.ctr p).waiters = [] ∧
      s.sync.flight = [⟨a, p, v, none⟩]) ∧ t = { s with sync := { s.sync with flight := [] } } ∧ (s.ctr p).sat = true) ∧
    (∃ (s : State) (p : Nat), (s.power.running = true ∧ p < 17408) ∧ ∃ (w : Waiter) (t : _), (s.sync.epochs = [] ∧ (s.ctr p).waiters = [] ∧
      s.sync.joining = [(p, w)] ∧ 272 ≤ w.src ∧ w.any = none) ∧ t = { s with sync := { s.sync with joining := [] } } ∧ (s.ctr p).sat = false ∧
      w.target ≤ (s.ctr p).count.toNat) ∧
    (∃ (s : State) (p : Nat), (s.power.running = true ∧ p < 17408) ∧ ∃ (w : Waiter) (t : _), (s.sync.epochs = [] ∧ (s.ctr p).waiters = [] ∧
      s.sync.joining = [(p, w)] ∧ 272 ≤ w.src ∧ w.any = none) ∧ t = { s with sync := { s.sync with joining := [] } } ∧
      (s.ctr p).count.toNat < w.target) ∧
    (∃ (s : State) (p : Nat), (s.power.running = true ∧ p < 17408) ∧ ∃ (i : Nat) (n : Notice) (id : Nat), s.sync.notices[i]? = some n ∧
      n.src = 0x200 ∧ n.tag = some id) ∧
    (∃ (s : State) (p : Nat), (s.power.running = true ∧ p < 17408) ∧ ∃ (i : Nat) (w : Waiter) (d : _) (id : Nat), (s.ctr p).waiters[i]? = some w ∧
      w.deadline = some d ∧ d ≤ s.tb.ticks ∧ w.any = none ∧ 272 ≤ w.src ∧ w.tag = some id) ∧
    (∃ (s : State) (p : Nat), (s.power.running = true ∧ p < 17408) ∧ ∃ (i : Nat) (w : Waiter), (s.ctr p).waiters[i]? = some w ∧
      expired s w.deadline = false) :=
  ⟨⟨dyn { counters := [(17407, { count := 0xFFFFFE })], flight := [⟨271, 17407, 1, none⟩] }, 17407, by decide +kernel, 271, 1, _, by decide +kernel,
    rfl, by decide +kernel⟩,
  ⟨dyn { counters := [(17407, { count := 0xFFFFFF })], flight := [⟨271, 17407, 1, none⟩] }, 17407, by decide +kernel, 271, 1, _, by decide +kernel,
    rfl, by decide +kernel⟩,
  ⟨dyn { counters := [(17407, { count := 0xFFFFFF, sat := true })], flight := [⟨271, 17407, 1, none⟩] }, 17407, by decide +kernel, 271, 1, _,
    by decide +kernel, rfl, by decide +kernel⟩,
  ⟨dyn { counters := [(17407, { count := 7 })], joining := [(17407, ⟨272, 7, none, 0, 0xFFFF, 9, 0, none, none⟩)] }, 17407, by decide +kernel, ⟨272,
    7, none, 0, 0xFFFF, 9, 0, none, none⟩, _, by decide +kernel, rfl, by decide +kernel⟩,
  ⟨dyn { counters := [(17407, { count := 6 })], joining := [(17407, ⟨272, 7, none, 0, 0xFFFF, 9, 0, none, none⟩)] }, 17407, by decide +kernel, ⟨272,
    7, none, 0, 0xFFFF, 9, 0, none, none⟩, _, by decide +kernel, rfl, by decide +kernel⟩,
  ⟨dyn { notices := [⟨0x200, 0, 0, some 1⟩] }, 0, by decide +kernel, 0, ⟨0x200, 0, 0, some 1⟩, 1, by decide +kernel⟩,
  ⟨{ (dyn { counters := [(17407, { waiters := [⟨0x200, 7, some 5, 0, 0xFFFF, 9, 0, none, some 1⟩] })] }) with tb := { State.reset.tb with ticks := 5 } },
    17407, by decide +kernel, 0, ⟨0x200, 7, some 5, 0, 0xFFFF, 9, 0, none, some 1⟩, 5, 1, by decide +kernel⟩,
  ⟨{ (dyn { counters := [(17407, { waiters := [⟨0x200, 7, some 5, 0, 0xFFFF, 9, 0, none, some 1⟩] })] }) with tb := { State.reset.tb with ticks := 4 } },
    17407, by decide +kernel, 0, ⟨0x200, 7, some 5, 0, 0xFFFF, 9, 0, none, some 1⟩, by decide +kernel⟩⟩

/-- States and operands that meet the hypotheses of `Sync_Commands`, clause by clause. -/
theorem witness_Sync_Commands :
    (∃ (s : State) (id : Nat) (c : Cmd) (p : Nat), translateFor s (c.fn + 1) (fnBind s c.fn) (c.p 0) = .phys p ∧ Ready s .syncSignal id c) ∧
    (∃ (s : State) (id : Nat) (c : Cmd) (p : Nat), translateFor s (c.fn + 1) (fnBind s c.fn) (c.p 0) = .phys p ∧ ∃ (w : Waiter),
      Ready s .syncWait id c ∧ waitsOut s < 1024 ∧ w = ⟨0x200, c.p 1, none, c.p 0, if bit (c.p 0) 23 then (fnBind s c.fn).getD 0xFFFF else 0xFFFF,
      tmoOf s c.fn (fnBind s c.fn) (c.p 0) (c.p 2), c.fn, none, some id⟩) ∧
    (∃ (s : State) (id : Nat) (c : Cmd) (p : Nat), translateFor s (c.fn + 1) (fnBind s c.fn) (c.p 0) = .phys p ∧ Ready s .syncWait id c ∧
      1024 ≤ waitsOut s) ∧
    (∃ (s : State) (id : Nat) (c : Cmd) (p : Nat), translateFor s (c.fn + 1) (fnBind s c.fn) (c.p 0) = .phys p ∧ Ready s .syncRead id c) ∧
    (∃ (s : State) (id : Nat) (c : Cmd) (p : Nat), translateFor s (c.fn + 1) (fnBind s c.fn) (c.p 0) = .phys p ∧ Ready s .syncSet id c ∧
      hasWaiter s p = false ∧ s.sync.epochs = []) ∧
    (∃ (s : State) (id : Nat) (c : Cmd) (p : Nat), translateFor s (c.fn + 1) (fnBind s c.fn) (c.p 0) = .phys p ∧ Ready s .syncSet id c ∧
      hasWaiter s p = true) ∧
    (∃ (s : State) (id : Nat) (c : Cmd), translateFor s (c.fn + 1) (fnBind s c.fn) (c.p 0) = .none ∧ Ready s .syncRead id c) ∧
    (∃ (s : State) (id : Nat) (c : Cmd), ∃ (t : _) (b : Bytes) (es : _), Ready s .syncEpoch id c ∧
      readMem s (c.p 0) (16 + 8 * leNat (memBytes s (c.p 0 + 4) 2)) = (t, .ok b) ∧ epochEntries t c.fn b = .ok es ∧
      (es.filter fun e => (t.ctr e.1).sat) = []) ∧
    (∃ (s : State) (id : Nat), ∃ (e : Epoch) (q : _) (b : _), s.power.running = true ∧ (s.sync.epochs.find? fun e => e.id == id) = some e ∧
      e.entries = [(q, b)] ∧ (s.ctr q).waiters = [] ∧ epochMet s e = true ∧ e.tenant < 16) ∧
    (∃ (s : State) (id : Nat), ∃ (e : Epoch) (q : _) (b : _), s.power.running = true ∧ (s.sync.epochs.find? fun e => e.id == id) = some e ∧
      e.entries = [(q, b)] ∧ (s.ctr q).waiters = [] ∧ epochMet s e = false ∧ expired s e.deadline = true ∧ (s.ctr q).count.toNat < b) :=
  ⟨⟨having (cmdOf .syncSignal 15 [17407, 1]) { dyn {} with own := { State.reset.own with ibcs := [(15, 16)] } }, 1, cmdOf .syncSignal 15 [17407, 1],
    17407, by decide +kernel, rdy (by decide +kernel)⟩,
  ⟨having (cmdOf .syncWait 15 [17407, 0xFFFFFF, 0]) { dyn {} with own := { State.reset.own with ibcs := [(15, 16)] } }, 1,
    cmdOf .syncWait 15 [17407, 0xFFFFFF, 0], 17407, by decide +kernel, _, rdy (by decide +kernel), by decide +kernel, rfl⟩,
  ⟨having (cmdOf .syncWait 15 [17407, 0xFFFFFF, 0]) { dyn { joining := List.replicate 1024 (17407, ⟨0x200, 7, none, 0, 0xFFFF, 9, 0, none, some 1⟩) } with own := { State.reset.own with ibcs := [(15, 16)] } },
    1, cmdOf .syncWait 15 [17407, 0xFFFFFF, 0], 17407, by decide +kernel, rdy (by decide +kernel), by decide +kernel⟩,
  ⟨having (cmdOf .syncRead 15 [17407]) { dyn {} with own := { State.reset.own with ibcs := [(15, 16)] } }, 1, cmdOf .syncRead 15 [17407], 17407,
    by decide +kernel, rdy (by decide +kernel)⟩,
  ⟨having (cmdOf .syncSet 15 [17407, 0xFFFFFF]) { dyn {} with own := { State.reset.own with ibcs := [(15, 16)] } }, 1,
    cmdOf .syncSet 15 [17407, 0xFFFFFF], 17407, by decide +kernel, rdy (by decide +kernel), by decide +kernel⟩,
  ⟨having (cmdOf .syncSet 15 [17407, 0xFFFFFF]) { dyn { counters := [(17407, { waiters := [⟨0x200, 7, none, 0, 0xFFFF, 9, 0, none, some 1⟩] })] } with own := { State.reset.own with ibcs := [(15, 16)] } },
    1, cmdOf .syncSet 15 [17407, 0xFFFFFF], 17407, by decide +kernel, rdy (by decide +kernel), by decide +kernel⟩,
  ⟨having (cmdOf .syncRead 15 [17408]) { dyn {} with own := { State.reset.own with ibcs := [(15, 16)] } }, 1, cmdOf .syncRead 15 [17408],
    by decide +kernel, rdy (by decide +kernel)⟩,
  ⟨having (cmdOf .syncEpoch 15 [0, 1, 0]) { (writeMem State.reset 0 (rec_ 32 [(4, 2, 1), (16, 4, 17407), (20, 4, 3)])).1 with own := { State.reset.own with ibcs := [(15, 16)] } },
    1, cmdOf .syncEpoch 15 [0, 1, 0], _,
    okBytes (readMem (having (cmdOf .syncEpoch 15 [0, 1, 0]) { (writeMem State.reset 0 (rec_ 32 [(4, 2, 1), (16, 4, 17407), (20, 4, 3)])).1 with own := { State.reset.own with ibcs := [(15, 16)] } }) 0 24).2,
    [(17407, 3)], rdy (by decide +kernel), okIs (by decide +kernel), by rfl, by decide +kernel⟩,
  ⟨having (cmdOf .syncEpoch 15 [0, 1, 0]) { dyn { counters := [(17407, { count := 3 })], epochs := [⟨1, 15, 9, [(17407, 3)], some 5, 0⟩] } with own := { State.reset.own with ibcs := [(15, 16)] }, tb := { State.reset.tb with ticks := 0 } },
    1, ⟨1, 15, 9, [(17407, 3)], some 5, 0⟩, 17407, 3, by decide +kernel⟩,
  ⟨having (cmdOf .syncEpoch 15 [0, 1, 0]) { dyn { counters := [(17407, { count := 2 })], epochs := [⟨1, 15, 9, [(17407, 3)], some 5, 0⟩] } with own := { State.reset.own with ibcs := [(15, 16)] }, tb := { State.reset.tb with ticks := 5 } },
    1, ⟨1, 15, 9, [(17407, 3)], some 5, 0⟩, 17407, 3, by decide +kernel⟩⟩

/-- States and operands that meet the hypotheses of `Sync_Contexts`, clause by clause. -/
theorem witness_Sync_Contexts :
    (∃ (s : State) (id : Nat) (c : Cmd), Ready s .vmap id c ∧ c.p 1 = 0) ∧
    (∃ (s : State) (id : Nat) (c : Cmd), ∃ (b : Nat) (u : State) (d : Bytes), Ready s .vmap id c ∧ (c.p 1 ≠ 0 ∧ findRun s (c.p 1) = some b) ∧
      readMem s (c.p 2) (8 * c.p 1) = (u, .ok d)) ∧
    (∃ (s : State) (id : Nat) (c : Cmd), Ready s .vmap id c ∧ c.p 1 ≠ 0 ∧ findRun s (c.p 1) = none) ∧
    (∃ (s : State) (k t : Nat) (val : Word), s.power.running = true ∧ t < 16 ∧ k < 272 ∧ coreOwner s k = t + 1 ∧ imemOpen s k = true ∧
      ctxForeign s (val.toNat % 256) t = false) ∧
    (∃ (s : State) (k t : Nat) (val : Word), s.power.running = true ∧ t < 16 ∧ k < 272 ∧ coreOwner s k = t + 1 ∧
      (imemOpen s k = false ∨ ctxForeign s (val.toNat % 256) t = true)) ∧
    (∃ (s : State) (t : Nat) (val : Word), s.power.running = true ∧ t < 16 ∧ ctxForeign s (val.toNat % 256) t = true) :=
  ⟨⟨having (cmdOf .vmap 15 [0, 0, 0]) (State.reset), 1, cmdOf .vmap 15 [0, 0, 0], rdy (by decide +kernel), by decide +kernel⟩,
  ⟨having (cmdOf .vmap 15 [0, 2, 0]) State.reset, 1, cmdOf .vmap 15 [0, 2, 0], 0, _,
    okBytes (readMem (having (cmdOf .vmap 15 [0, 2, 0]) State.reset) 0 16).2, rdy (by decide +kernel), by decide +kernel, okIs (by decide +kernel)⟩,
  ⟨having (cmdOf .vmap 15 [0, 1, 0]) ((State.reset.setReg .syncCtx 0 0 0x10).setReg .syncCtxLen 0 0 65536), 1, cmdOf .vmap 15 [0, 1, 0],
    rdy (by decide +kernel), by decide +kernel⟩,
  ⟨{ State.reset with own := { State.reset.own with ibcs := [(15, 16)] } }, 271, 15, 0x1FF, by decide +kernel⟩,
  ⟨{ State.reset with own := { State.reset.own with ibcs := [(15, 16)] } }.setCore 271 { st := .running }, 271, 15, 0x1FF, by decide +kernel⟩,
  ⟨{ State.reset with own := { State.reset.own with ibcs := [(15, 16)] } }.setReg .syncCtx 0 255 0x1E, 15, 0x1FF, by decide +kernel⟩⟩

/-- States and operands that meet the hypotheses of `Memory_ReadBack`, clause by clause. -/
theorem witness_Memory_ReadBack :
    (∃ (s : State) (a : Nat), (∀ h, (s.memc h).dead = []) ∧ (∀ cw, a / 32 ≤ cw → tget 0 s.bad cw = 0)) ∧
    (∃ (s : State) (a : Nat), (∀ h, (s.memc h).dead = []) ∧ (∀ cw, a / 64 * 2 ≤ cw → tget 0 s.bad cw = 0)) :=
  ⟨⟨State.reset, 31, fun h => by simp [State.memc, State.reset, tget], fun _ _ => rfl⟩,
  ⟨State.reset, 31, fun h => by simp [State.memc, State.reset, tget], fun _ _ => rfl⟩⟩

/-- States and operands that meet the hypotheses of `Memory_Control`, clause by clause. -/
theorem witness_Memory_Control :
    (∃ (s : State) (c ch : Nat), (s.power.running = true ∧ c < 12 ∧ ch < 32) ∧ ∃ (a : _) (ups : _), ∃ (t : _), t = (upsetLine (a / 64) ups s) ∧
      ((place s a).1 = .hbm ∨ (place s a).1 = .lpx) ∧ memWaits t a 1 = false ∧ ∃ (u : _) (b : _), readMem t (a / 64 * 64) 64 = (u, .ok b)) ∧
    (∃ (s : State) (c ch : Nat), (s.power.running = true ∧ c < 12 ∧ ch < 32) ∧ ∃ (a : _) (ups : _), ∃ (t : _), t = (upsetLine (a / 64) ups s) ∧
      ((place s a).1 = .hbm ∨ (place s a).1 = .lpx) ∧ memWaits t a 1 = false ∧ ∃ (u : _) (e : _), readMem t (a / 64 * 64) 64 = (u, .error e)) ∧
    (∃ (s : State) (c ch : Nat), (s.power.running = true ∧ c < 12 ∧ ch < 32) ∧ ∃ (a : _) (ups : _), ∃ (t : _), t = (upsetLine (a / 64) ups s) ∧
      ((place s a).1 = .hbm ∨ (place s a).1 = .lpx) ∧ memWaits t a 1 = false ∧ ∃ (bs : Bytes), bs ≠ [] ∧ a % 64 + bs.length ≤ 64) ∧
    (∃ (s : State) (c ch : Nat), (s.power.running = true ∧ c < 12 ∧ ch < 32) ∧ ∃ (a : _) (ups : _), ∃ (t : _), t = (upsetLine (a / 64) ups s) ∧
      ((place s a).1 = .hbm ∨ (place s a).1 = .lpx) ∧ ∃ (bs : Bytes), memWaits t a 1 = true ∧ a % 64 + bs.length ≤ 64) ∧
    (∃ (s : State) (c ch : Nat), (s.power.running = true ∧ c < 12 ∧ ch < 32) ∧ ∃ (t : _), slotOpens s c ch = true ∧
      t = s.setMemc c { s.memc c with due := tput 0 (s.memc c).due ch (s.tb.ticks + if bit (s.reg .memSts c) 2 then 1950 else 3900), slot := tput 0 ((s.memc c).slot.filter fun e => decide (s.tb.ticks < e.2)) ch (s.tb.ticks + if c < 8 then 350 else 280), long := (s.memc c).long.filter (· != ch) }) ∧
    (∃ (s : State) (c ch : Nat), s.power.running = true ∧ c < 12 ∧ ch < 32 ∧ slotOpens s c ch = false) ∧
    (∃ (s : State) (c ch : Nat), (s.power.running = true ∧ c < 12 ∧ ch < 32) ∧ ∃ (low : _) (t : _) (u : _), recalOpens s c ch low = true ∧
      t = (draw s).2.setMemc c { s.memc c with recal := tput 0 (s.memc c).recal ch (s.tb.ticks + s.reg .memRecal c * msTicks), slot := tput 0 (s.memc c).slot ch (max s.tb.ticks (tget 0 (s.memc c).slot ch) + Config.free s.fresh % 1201), long := ch :: (s.memc c).long } ∧
      u = (t.count .memRecalCount c 0 1).countTv (if c < 8 then 1 else 2) 1) ∧
    (∃ (s : State) (c ch : Nat), (s.power.running = true ∧ c < 12 ∧ ch < 32) ∧ ∃ (low : _), recalOpens s c ch low = false) ∧
    (∃ (s : State) (c ch : Nat), (s.power.running = true ∧ c < 12 ∧ ch < 32) ∧ ∃ (t : _), ∃ (a : _), a = (scrubAddr s c (s.memc c).scrub) ∧
      (ctlOn s c = true ∧ bit (s.reg .memScrub c) 0 = true ∧ (s.memc c).scrubAt ≤ s.tb.ticks ∧ slotWaits s a 1 = false) ∧
      t = s.setMemc c { s.memc c with scrub := ((s.memc c).scrub + 1) % scrubLen c, scrubAt := (s.memc c).scrubAt + scrubStep s c } ∧
      damage t (a / 32) = 0) ∧
    (∃ (s : State) (c ch : Nat), (s.power.running = true ∧ c < 12 ∧ ch < 32) ∧ ∃ (t : _), ∃ (a : _), a = (scrubAddr s c (s.memc c).scrub) ∧
      (ctlOn s c = true ∧ bit (s.reg .memScrub c) 0 = true ∧ (s.memc c).scrubAt ≤ s.tb.ticks ∧ slotWaits s a 1 = false) ∧
      t = s.setMemc c { s.memc c with scrub := ((s.memc c).scrub + 1) % scrubLen c, scrubAt := (s.memc c).scrubAt + scrubStep s c } ∧
      damage t (a / 32) = 2) ∧
    (∃ (s : State) (c ch : Nat), s.power.running = true ∧ c < 12 ∧ ch < 32 ∧ s.tb.ticks < (s.memc c).scrubAt) ∧
    (∃ (s : State) (c ch : Nat), s.power.running = true ∧ c < 12 ∧ ch < 32 ∧ c < 8) ∧
    (∃ (s : State) (c ch : Nat), (s.power.running = true ∧ c < 12 ∧ ch < 32) ∧ ∃ (who : _), who < 19 ∧ who = 18) ∧
    (∃ (s : State) (c ch : Nat), (s.power.running = true ∧ c < 12 ∧ ch < 32) ∧ ∃ (who : _), who < 19 ∧ who ≠ 18) :=
  ⟨⟨State.reset, 11, 31, by decide +kernel, 0x7FFFFFFFFF, [], _, rfl, .inl (by decide +kernel), by decide +kernel, _, _, okSome (by decide +kernel)⟩,
  ⟨State.reset, 11, 31, by decide +kernel, 0x7FFFFFFFFF, [⟨false, 2, none⟩], _, rfl, .inl (by decide +kernel), by decide +kernel, _, 0x7FFFFFFFC0,
    errIs (by decide +kernel)⟩,
  ⟨State.reset, 11, 31, by decide +kernel, 0x7FFFFFFFFF, [], _, rfl, .inl (by decide +kernel), by decide +kernel, [1], by decide +kernel⟩,
  ⟨{ State.reset with own := { State.reset.own with fills := [(0, 16)] } }, 11, 31, by decide +kernel, 63, [], _, rfl, .inl (by decide +kernel), [1],
    by decide +kernel⟩,
  ⟨State.reset, 7, 31, by decide +kernel, _, by decide +kernel, rfl⟩,
  ⟨State.reset.setMemc 7 { due := [(31, 1)] }, 7, 31, by decide +kernel⟩,
  ⟨State.reset.setMemc 7 { slot := [(31, 1)] }, 7, 31, by decide +kernel, true, _, _, by decide +kernel, rfl, rfl⟩,
  ⟨State.reset, 7, 31, by decide +kernel, false, by decide +kernel⟩,
  ⟨State.reset, 7, 31, by decide +kernel, _, _, rfl, by decide +kernel, rfl, by decide +kernel⟩,
  ⟨{ State.reset with bad := [(56, 2)] }, 7, 31, by decide +kernel, _, _, rfl, by decide +kernel, rfl, by decide +kernel⟩,
  ⟨State.reset.setMemc 7 { scrubAt := 1 }, 7, 31, by decide +kernel⟩,
  ⟨State.reset, 7, 31, by decide +kernel⟩,
  ⟨State.reset, 11, 31, by decide +kernel, 18, by decide +kernel⟩,
  ⟨State.reset, 11, 31, by decide +kernel, 17, by decide +kernel⟩⟩

/-- States and operands that meet the hypotheses of `Memory_Fills`, clause by clause. -/
theorem witness_Memory_Fills :
    (∃ (s : State) (g : Nat), (s.power.running = true ∧ g < 64) ∧ ∃ (val : Word), segInS s g = true ∧ val.toNat % 4 ≠ 3 ∧
      tget 0 s.own.segFill g = 0 ∧ val.toNat % 4 ≠ s.reg .segMode 0 g % 4) ∧
    (∃ (s : State) (g : Nat), (s.power.running = true ∧ g < 64) ∧ ∃ (who : _), who < 19 ∧ (who ≠ 18 ∨ segInS s g = false)) ∧
    (∃ (s : State) (g : Nat), (s.power.running = true ∧ g < 64) ∧ ∃ (m : Nat), tget 0 s.own.segFill g = m + 1) ∧
    (∃ (s : State) (g : Nat), (s.power.running = true ∧ g < 64) ∧ ∃ (b : Nat) (o : _), tget 0 s.own.fills b = o + 1) :=
  ⟨⟨State.reset, 63, by decide +kernel, 2, by decide +kernel⟩,
  ⟨State.reset, 63, by decide +kernel, 17, by decide +kernel, .inl (by decide)⟩,
  ⟨{ State.reset with own := { State.reset.own with segFill := [(63, 3)] } }, 63, by decide +kernel, 2, by decide +kernel⟩,
  ⟨{ State.reset with own := { State.reset.own with fills := [(0xC0000, 17)] } }, 63, by decide +kernel, 0xC0000, 16, by decide +kernel⟩⟩

/-- States and operands that meet the hypotheses of `Regions`, clause by clause. -/
theorem witness_Regions :
    (∃ (s : State) (id : Nat) (c : Cmd) (e : Nat), Ready s .regionCreate id c ∧ regionBad s (c.p 0) (c.p 1) (c.p 2) (c.p 3) = none ∧
      rangeOwned s c.fn (c.p 0) (c.p 1) = true ∧ ownerUe s (c.p 0) (c.p 1) = false ∧ regionTouch s (c.p 0) (c.p 1) = none ∧ freeEntry s = some e ∧
      s.sec.rngFail = false) ∧
    (∃ (s : State) (id : Nat) (c : Cmd) (e : Nat), Ready s .regionCreate id c ∧ regionBad s (c.p 0) (c.p 1) (c.p 2) (c.p 3) = none ∧
      rangeOwned s c.fn (c.p 0) (c.p 1) = true ∧ ownerUe s (c.p 0) (c.p 1) = false ∧ regionTouch s (c.p 0) (c.p 1) = none ∧ freeEntry s = some e ∧
      s.sec.rngFail = true) ∧
    (∃ (s : State) (id : Nat) (c : Cmd) (e : Nat), Ready s .regionRevoke id c ∧ e = c.p 0 % 8192 ∧ (s.region e).st = 1 ∧ (s.region e).key = c.p 0 ∧
      (s.region e).tenant = c.fn) ∧
    (∃ (s : State) (id : Nat) (c : Cmd) (e : Nat), Ready s .regionRevoke id c ∧ e = c.p 0 % 8192 ∧ (s.region e).key ≠ c.p 0) ∧
    (∃ (s : State) (id : Nat) (e : Nat), (s.power.running = true ∧ e < 8192) ∧ ∃ (id : Nat), (s.region e).st = 2 ∧ (s.region e).uses = 0 ∧
      regionBusy s (s.region e) = false ∧ (s.region e).cmd = some id) ∧
    (∃ (s : State) (e : Nat), s.power.running = true ∧ e < 8192 ∧ (s.region e).st ≠ 2) ∧
    (∃ (s : State) (e : Nat), s.power.running = true ∧ e < 8192 ∧ (s.region e).uses ≠ 0) ∧
    (∃ (s : State) (e : Nat), s.power.running = true ∧ e < 8192 ∧ (s.region e).st ≠ 0) ∧
    (∃ (s : State) (e : Nat), (s.power.running = true ∧ e < 8192) ∧ ∃ (who : _), who < 18) ∧
    (∃ (s : State) (e : Nat), s.power.running = true ∧ e < 8192 ∧ s.sec.rngFail = true ∧ s.sec.rngWait = []) ∧
    (∃ (s : State) (id : Nat) (e : Nat), (s.power.running = true ∧ e < 8192) ∧ ∃ (due : _), (s.sec.rngWait.find? fun e => e.1 == id) = some (id,
      due) ∧ due < s.tb.ticks) ∧
    (∃ (s : State) (id : Nat) (e : Nat), (s.power.running = true ∧ e < 8192) ∧ ∃ (due : _), (s.sec.rngWait.find? fun e => e.1 == id) = some (id,
      due) ∧ s.tb.ticks ≤ due) :=
  ⟨⟨having (cmdOf .regionCreate 15 [0x1000, 0x1000, 0x7F, 0]) { State.reset with own := { State.reset.own with blocks := [(0, 16)] } }, 1,
    cmdOf .regionCreate 15 [0x1000, 0x1000, 0x7F, 0], 0, rdy (by decide +kernel), by decide +kernel⟩,
  ⟨having (cmdOf .regionCreate 15 [0x1000, 0x1000, 0x7F, 0]) { State.reset with own := { State.reset.own with blocks := [(0, 16)] }, sec := { State.reset.sec with rngFail := true } },
    1, cmdOf .regionCreate 15 [0x1000, 0x1000, 0x7F, 0], 0, rdy (by decide +kernel), by decide +kernel⟩,
  ⟨having (cmdOf .regionRevoke 15 [0x3FFF]) (State.reset.setRegion 8191 { st := 1, key := 0x3FFF, tenant := 15 }), 1,
    cmdOf .regionRevoke 15 [0x3FFF], _, rdy (by decide +kernel), rfl, by decide +kernel⟩,
  ⟨having (cmdOf .regionRevoke 15 [0x3FFF]) (State.reset.setRegion 8191 { st := 1, key := 0x1FFF, tenant := 15 }), 1,
    cmdOf .regionRevoke 15 [0x3FFF], _, rdy (by decide +kernel), rfl, by decide +kernel⟩,
  ⟨State.reset.setRegion 8191 { st := 2, cmd := some 1 }, 1, 8191, by decide +kernel, 1, by decide +kernel⟩,
  ⟨State.reset, 8191, by decide +kernel⟩,
  ⟨State.reset.setRegion 8191 { st := 2, uses := 1 }, 8191, by decide +kernel⟩,
  ⟨State.reset.setRegion 8191 { st := 2 }, 8191, by decide +kernel⟩,
  ⟨State.reset, 8191, by decide +kernel, 17, by decide +kernel⟩,
  ⟨{ State.reset with sec := { State.reset.sec with rngFail := true } }, 8191, by decide +kernel⟩,
  ⟨{ State.reset with sec := { State.reset.sec with rngWait := [(1, 5)] }, tb := { State.reset.tb with ticks := 6 } }, 1, 8191, by decide +kernel, 5,
    by decide +kernel⟩,
  ⟨{ State.reset with sec := { State.reset.sec with rngWait := [(1, 5)] }, tb := { State.reset.tb with ticks := 5 } }, 1, 8191, by decide +kernel, 5,
    by decide +kernel⟩⟩

/-- States and operands that meet the hypotheses of `Copy_And_Fill`, clause by clause. -/
theorem witness_Copy_And_Fill :
    (∃ (s t : State) (id : Nat) (c : Cmd), Ready s .copy id c ∧ (rangeWaits s (c.p 0) (c.p 2) = false ∧ rangeWaits s (c.p 1) (c.p 2) = false) ∧
      ∃ (bs : Bytes), (mayReach c.fn (c.p 0) (c.p 2) false 0x200 s = (true, s) ∧ mayReach c.fn (c.p 1) (c.p 2) true 0x200 s = (true, s)) ∧
      readPart s c.fn (c.p 0) (c.p 2) = (t, bs, none) ∧ (overlaps (c.p 0) (c.p 2) (c.p 1) (c.p 2) = false ∨ c.p 0 = c.p 1)) ∧
    (∃ (s t : State) (id : Nat) (c : Cmd), Ready s .copy id c ∧ rangeWaits s (c.p 0) (c.p 2) = false ∧ rangeWaits s (c.p 1) (c.p 2) = false ∧
      mayReach c.fn (c.p 0) (c.p 2) false 0x200 s = (false, t) ∧ tableUe t (tenReq c.fn 0x200) (c.p 0) (c.p 2) = false) ∧
    (∃ (s t : State) (id : Nat) (c : Cmd), Ready s .copy id c ∧ (rangeWaits s (c.p 0) (c.p 2) = false ∧ rangeWaits s (c.p 1) (c.p 2) = false) ∧
      mayReach c.fn (c.p 0) (c.p 2) false 0x200 s = (true, s) ∧ mayReach c.fn (c.p 1) (c.p 2) true 0x200 s = (false, t) ∧
      tableUe t (tenReq c.fn 0x200) (c.p 1) (c.p 2) = false) ∧
    (∃ (s : State) (id : Nat) (c : Cmd), Ready s .fill id c ∧ rangeWaits s (c.p 0) (c.p 1) = false ∧
      mayReach c.fn (c.p 0) (c.p 1) true 0x200 s = (true, s)) ∧
    (∃ (s t : State) (id : Nat) (c : Cmd), Ready s .fill id c ∧ rangeWaits s (c.p 0) (c.p 1) = false ∧
      mayReach c.fn (c.p 0) (c.p 1) true 0x200 s = (false, t) ∧ tableUe t (tenReq c.fn 0x200) (c.p 0) (c.p 1) = false) ∧
    (∃ (s u : State), ∃ (dst : _) (bs : Bytes), isHost dst = false ∧ devWrite dst bs s = (u, none)) ∧
    (∃ (s u : State), ∃ (dst : _) (bs : Bytes) (e : _), isHost dst = false ∧ devWrite dst bs s = (u, some (.ue e))) :=
  ⟨⟨having (cmdOf .copy 15 [0x1000, 0x1020, 32]) { State.reset with own := { State.reset.own with blocks := [(0, 16)], regions := [(0, { base := 0x1000, bytes := 0x1000, rights := 0x7F, st := 1, tenant := 15, world := true })] } },
    _, 1, cmdOf .copy 15 [0x1000, 0x1020, 32], rdy (by decide +kernel), by decide +kernel,
    (readPart (having (cmdOf .copy 15 [0x1000, 0x1020, 32]) { State.reset with own := { State.reset.own with blocks := [(0, 16)], regions := [(0, { base := 0x1000, bytes := 0x1000, rights := 0x7F, st := 1, tenant := 15, world := true })] } }) 15 0x1000 32).2.1,
    by decide +kernel, brIs (by decide +kernel), by decide +kernel⟩,
  ⟨having (cmdOf .copy 15 [0x1000, 0x1020, 32]) State.reset,
    (mayReach 15 0x1000 32 false 0x200 (having (cmdOf .copy 15 [0x1000, 0x1020, 32]) State.reset)).2, 1, cmdOf .copy 15 [0x1000, 0x1020, 32],
    rdy (by decide +kernel), by decide +kernel⟩,
  ⟨having (cmdOf .copy 15 [0x1000, 0x2000, 32]) { State.reset with own := { State.reset.own with blocks := [(0, 16)], regions := [(0, { base := 0x1000, bytes := 0x1000, rights := 0x7F, st := 1, tenant := 15, world := true })] } },
    _, 1, cmdOf .copy 15 [0x1000, 0x2000, 32], rdy (by decide +kernel), by decide +kernel, rfl, rfl, by decide +kernel⟩,
  ⟨having (cmdOf .fill 15 [0x1000, 31, 0x01020304]) { State.reset with own := { State.reset.own with blocks := [(0, 16)], regions := [(0, { base := 0x1000, bytes := 0x1000, rights := 0x7F, st := 1, tenant := 15, world := true })] } },
    1, cmdOf .fill 15 [0x1000, 31, 0x01020304], rdy (by decide +kernel), by decide +kernel⟩,
  ⟨having (cmdOf .fill 15 [0x1000, 31, 0x01020304]) State.reset,
    (mayReach 15 0x1000 31 true 0x200 (having (cmdOf .fill 15 [0x1000, 31, 0x01020304]) State.reset)).2, 1, cmdOf .fill 15 [0x1000, 31, 0x01020304],
    rdy (by decide +kernel), by decide +kernel⟩,
  ⟨State.reset, _, 0x1FFF, [1], by decide +kernel, brIs (by decide +kernel)⟩,
  ⟨{ State.reset with bad := [(0xFF, 2)] }, _, 0x1FFF, [1], 0x1FE0, by decide +kernel, brIs (by decide +kernel)⟩⟩

/-- States and operands that meet the hypotheses of `Security_Commands`, clause by clause. -/
theorem witness_Security_Commands :
    (Config.deviceId = 0 → (∀ p m g, Config.dsaOk p m g = true) → ∃ (s t u : State) (id : Nat) (c : Cmd) (b : Bytes), (s.fwp 34).st = .running ∧
      ∃ (a : Assignment), Ready s .assign id c ∧ a = ⟨c.p 0, c.p 1, c.p 2, c.p 3, fld b 104 4, fld b 108 4⟩ ∧ hostRead s c.fn (c.p 4) 4811 = (t,
      .ok b) ∧ tokenOk t c .assign 4 (c.p 0 == 3) b = true ∧ u = t.setReg .glbTokenSeq 0 0 (fld b 32 8) ∧ assignNo u a = none) ∧
    (Config.deviceId = 0 → (∀ p m g, Config.dsaOk p m g = true) → ∃ (s t u : State) (id : Nat) (c : Cmd) (b : Bytes), (s.fwp 34).st = .running ∧
      ∃ (a : Assignment), Ready s .assign id c ∧ a = ⟨c.p 0, c.p 1, c.p 2, c.p 3, fld b 104 4, fld b 108 4⟩ ∧ hostRead s c.fn (c.p 4) 4811 = (t,
      .ok b) ∧ tokenOk t c .assign 4 (c.p 0 == 3) b = true ∧ u = t.setReg .glbTokenSeq 0 0 (fld b 32 8) ∧ ∃ (ty : _) (i : Nat) (code : _),
      assignNo u a = some (.conflict ty i code)) ∧
    (Config.deviceId = 0 → (∀ p m g, Config.dsaOk p m g = true) → ∃ (s t u : State) (id : Nat) (c : Cmd) (b : Bytes), (s.fwp 34).st = .running ∧
      ∃ (a : Assignment), Ready s .assign id c ∧ a = ⟨c.p 0, c.p 1, c.p 2, c.p 3, fld b 104 4, fld b 108 4⟩ ∧ hostRead s c.fn (c.p 4) 4811 = (t,
      .ok b) ∧ tokenOk t c .assign 4 (c.p 0 == 3) b = true ∧ u = t.setReg .glbTokenSeq 0 0 (fld b 32 8) ∧ assignNo u a = some .denied) ∧
    (Config.deviceId = 0 → (∀ p m g, Config.dsaOk p m g = true) → ∃ (s t u : State) (id : Nat) (c : Cmd) (b : Bytes), (s.fwp 34).st = .running ∧
      ∃ (a : Assignment), Ready s .assign id c ∧ a = ⟨c.p 0, c.p 1, c.p 2, c.p 3, fld b 104 4, fld b 108 4⟩ ∧ hostRead s c.fn (c.p 4) 4811 = (t,
      .ok b) ∧ tokenOk t c .assign 4 (c.p 0 == 3) b = true ∧ u = t.setReg .glbTokenSeq 0 0 (fld b 32 8) ∧ a.kind = 4) ∧
    (Config.deviceId = 0 → (∀ p m g, Config.dsaOk p m g = true) → ∃ (s t u : State) (id : Nat) (c : Cmd) (b : Bytes), (s.fwp 34).st = .running ∧
      ∃ (a : Assignment), Ready s .assign id c ∧ a = ⟨c.p 0, c.p 1, c.p 2, c.p 3, fld b 104 4, fld b 108 4⟩ ∧ hostRead s c.fn (c.p 4) 4811 = (t,
      .ok b) ∧ tokenOk t c .assign 4 (c.p 0 == 3) b = true ∧ u = t.setReg .glbTokenSeq 0 0 (fld b 32 8) ∧ a.kind = 5) ∧
    (∃ (s t : State) (id : Nat) (c : Cmd) (b : Bytes), (s.fwp 34).st = .running ∧ Ready s .assign id c ∧ hostRead s c.fn (c.p 4) 4811 = (t, .ok b) ∧
      tokenOk t c .assign 4 (c.p 0 == 3) b = false) ∧
    (∃ (s t : State) (id : Nat) (c : Cmd) (b : Bytes), (s.fwp 34).st = .running ∧ ∃ (k : _), Ready s .keyLoad id c ∧
      (tget {} s.keys (c.p 0)).mode = 0 ∧ hostRead s c.fn (c.p 1) 128 = (t, .ok b) ∧ unwrapKey t (c.p 0) b = some k) ∧
    (∃ (s : State) (id : Nat) (c : Cmd), (s.fwp 34).st = .running ∧ Ready s .keyLoad id c ∧ (tget {} s.keys (c.p 0)).mode ≠ 0) ∧
    (∃ (s t : State) (id : Nat) (c : Cmd) (b : Bytes), (s.fwp 34).st = .running ∧ Ready s .keyLoad id c ∧ (tget {} s.keys (c.p 0)).mode = 0 ∧
      hostRead s c.fn (c.p 1) 128 = (t, .ok b) ∧ unwrapKey t (c.p 0) b = none) ∧
    (Config.deviceId = 0 → (∀ p m g, Config.dsaOk p m g = true) → ∃ (s t u : State) (id : Nat) (c : Cmd) (b : Bytes), (s.fwp 34).st = .running ∧
      Ready s .keyErase id c ∧ hostRead s c.fn (c.p 1) 4811 = (t, .ok b) ∧ tokenOk t c .keyErase 1 false b = true ∧
      u = t.setReg .glbTokenSeq 0 0 (fld b 32 8) ∧ t.sec.ctxs = [] ∧ t.ckpt.saves = [] ∧ t.ckpt.rests = []) ∧
    (∃ (s t u : State) (id : Nat) (c : Cmd) (b : Bytes), (s.fwp 34).st = .running ∧ Ready s .attest id c ∧ s.sec.rngFail = false ∧
      hostRead s c.fn (c.p 0) 64 = (t, .ok b) ∧ hostWrite t c.fn (c.p 1) (attestBody t b ++ fit 4627 (Config.dsaSign (attestBody t b))) = (u,
      .ok ())) ∧
    (∃ (s : State) (id : Nat) (c : Cmd), (s.fwp 34).st = .running ∧ Ready s .attest id c ∧ s.sec.rngFail = true) ∧
    (Config.deviceId = 0 → (∀ p m g, Config.dsaOk p m g = true) → ∃ (s t u : State) (id : Nat) (c : Cmd) (b : Bytes), (s.fwp 34).st = .running ∧
      Ready s .debugUnlock id c ∧ hostRead s c.fn (c.p 0) 4811 = (t, .ok b) ∧ tokenOk t c .debugUnlock 0 false b = true ∧
      u = t.setReg .glbTokenSeq 0 0 (fld b 32 8) ∧ bit (u.reg .glbSecSts) 6 = false) ∧
    (Config.deviceId = 0 → (∀ p m g, Config.dsaOk p m g = true) → ∃ (s t u : State) (id : Nat) (c : Cmd) (b : Bytes), (s.fwp 34).st = .running ∧
      Ready s .debugUnlock id c ∧ hostRead s c.fn (c.p 0) 4811 = (t, .ok b) ∧ tokenOk t c .debugUnlock 0 false b = true ∧
      u = t.setReg .glbTokenSeq 0 0 (fld b 32 8) ∧ bit (u.reg .glbSecSts) 6 = true) ∧
    (Config.deviceId = 0 → (∀ p m g, Config.dsaOk p m g = true) → ∃ (s t u : State) (id : Nat) (c : Cmd) (b : Bytes), (s.fwp 34).st = .running ∧
      Ready s .debugUnlock id c ∧ hostRead s c.fn (c.p 0) 4811 = (t, .ok b) ∧ tokenOk t c .debugUnlock 0 false b = true ∧
      u = t.setReg .glbTokenSeq 0 0 (fld b 32 8) ∧ t.sec.ctxs = [] ∧ t.ckpt.saves = [] ∧ t.ckpt.rests = []) :=
  ⟨fun hd hv => ⟨tokenState_a5 (cmdOf .assign 16 [5, 1, 0x0C, 15, 0x1000]), _, _, 1, cmdOf .assign 16 [5, 1, 0x0C, 15, 0x1000], token_a5,
    by decide +kernel, _, rdy (by decide +kernel), rfl, held 0x1000 token_a5 rfl (by decide +kernel) (by decide +kernel),
    by simp only [tokenOk, deviceIdBytes, hd, hv]; decide +kernel, rfl, by decide +kernel⟩,
  fun hd hv => ⟨{ tokenState_a5 (cmdOf .assign 16 [5, 1, 0x0C, 15, 0x1000]) with net := { State.reset.net with streams := [(255, { isOpen := true })] } },
    _, _, 1, cmdOf .assign 16 [5, 1, 0x0C, 15, 0x1000], token_a5, by decide +kernel, _, rdy (by decide +kernel), rfl,
    held 0x1000 token_a5 rfl (by decide +kernel) (by decide +kernel), by simp only [tokenOk, deviceIdBytes, hd, hv]; decide +kernel, rfl, 0x0A, 255,
    1, by decide +kernel⟩,
  fun hd hv => ⟨tokenState_a3 (cmdOf .assign 16 [3, 1, 0, 15, 0x1000]), _, _, 1, cmdOf .assign 16 [3, 1, 0, 15, 0x1000], token_a3, by decide +kernel,
    _, rdy (by decide +kernel), rfl, held 0x1000 token_a3 rfl (by decide +kernel) (by decide +kernel),
    by simp only [tokenOk, deviceIdBytes, hd, hv]; decide +kernel, rfl, by decide +kernel⟩,
  fun hd hv => ⟨tokenState_a4 (cmdOf .assign 16 [4, 1, 0, 15, 0x1000]), _, _, 1, cmdOf .assign 16 [4, 1, 0, 15, 0x1000], token_a4, by decide +kernel,
    _, rdy (by decide +kernel), rfl, held 0x1000 token_a4 rfl (by decide +kernel) (by decide +kernel),
    by simp only [tokenOk, deviceIdBytes, hd, hv]; decide +kernel, rfl, by decide +kernel⟩,
  fun hd hv => ⟨tokenState_a5 (cmdOf .assign 16 [5, 1, 0x0C, 15, 0x1000]), _, _, 1, cmdOf .assign 16 [5, 1, 0x0C, 15, 0x1000], token_a5,
    by decide +kernel, _, rdy (by decide +kernel), rfl, held 0x1000 token_a5 rfl (by decide +kernel) (by decide +kernel),
    by simp only [tokenOk, deviceIdBytes, hd, hv]; decide +kernel, rfl, by decide +kernel⟩,
  ⟨holding 0x1000 (zeros 4811) (secured (cmdOf .assign 16 [5, 1, 0x0C, 15, 0x1000])), _, 1, cmdOf .assign 16 [5, 1, 0x0C, 15, 0x1000], zeros 4811,
    by decide +kernel, rdy (by decide +kernel), held 0x1000 (zeros 4811) rfl (List.length_replicate ..) (by decide +kernel), by decide +kernel⟩,
  ⟨{ holding 0x1000 wrapped (secured (cmdOf .keyLoad 16 [1015, 0x1000])) with keys := [(1016, { mode := 3 })] }, _, 1,
    cmdOf .keyLoad 16 [1015, 0x1000], wrapped, by decide +kernel, _, rdy (by decide +kernel), by decide +kernel,
    held 0x1000 wrapped rfl wrapped_length (by decide +kernel), (Option.some_get (unwraps rfl)).symm⟩,
  ⟨{ secured (cmdOf .keyLoad 16 [1023, 0x1000]) with keys := [(1023, { mode := 3 })] }, 1, cmdOf .keyLoad 16 [1023, 0x1000], by decide +kernel,
    rdy (by decide +kernel), by decide +kernel⟩,
  ⟨holding 0x1000 (zeros 128) (secured (cmdOf .keyLoad 16 [1023, 0x1000])), _, 1, cmdOf .keyLoad 16 [1023, 0x1000], zeros 128, by decide +kernel,
    rdy (by decide +kernel), by decide +kernel, held 0x1000 (zeros 128) rfl (List.length_replicate ..) (by decide +kernel), by decide +kernel⟩,
  fun hd hv => ⟨tokenState_ke (cmdOf .keyErase 16 [1023, 0x1000]), _, _, 1, cmdOf .keyErase 16 [1023, 0x1000], token_ke, by decide +kernel,
    rdy (by decide +kernel), held 0x1000 token_ke rfl (by decide +kernel) (by decide +kernel),
    by simp only [tokenOk, deviceIdBytes, hd, hv]; decide +kernel, rfl, by decide +kernel⟩,
  ⟨holding 0x1000 (zeros 64) (secured (cmdOf .attest 16 [0x1000, 0x2000])), _, _, 1, cmdOf .attest 16 [0x1000, 0x2000], zeros 64, by decide +kernel,
    rdy (by decide +kernel), by decide +kernel, held 0x1000 (zeros 64) rfl (List.length_replicate ..) (by decide +kernel),
    hwr (by decide +kernel) (by decide +kernel)⟩,
  ⟨{ secured (cmdOf .attest 16 [0x1000, 0x2000]) with sec := { (secured (cmdOf .attest 16 [0x1000, 0x2000])).sec with rngFail := true } }, 1,
    cmdOf .attest 16 [0x1000, 0x2000], by decide +kernel, rdy (by decide +kernel), by decide +kernel⟩,
  fun hd hv => ⟨tokenState_du (cmdOf .debugUnlock 16 [0x1000]), _, _, 1, cmdOf .debugUnlock 16 [0x1000], token_du, by decide +kernel,
    rdy (by decide +kernel), held 0x1000 token_du rfl (by decide +kernel) (by decide +kernel),
    by simp only [tokenOk, deviceIdBytes, hd, hv]; decide +kernel, rfl, by decide +kernel⟩,
  fun hd hv => ⟨(tokenState_du (cmdOf .debugUnlock 16 [0x1000])).setReg .glbSecSts 0 0 64, _, _, 1, cmdOf .debugUnlock 16 [0x1000], token_du,
    by decide +kernel, rdy (by decide +kernel), held 0x1000 token_du rfl (by decide +kernel) (by decide +kernel),
    by simp only [tokenOk, deviceIdBytes, hd, hv]; decide +kernel, rfl, by decide +kernel⟩,
  fun hd hv => ⟨tokenState_du (cmdOf .debugUnlock 16 [0x1000]), _, _, 1, cmdOf .debugUnlock 16 [0x1000], token_du, by decide +kernel,
    rdy (by decide +kernel), held 0x1000 token_du rfl (by decide +kernel) (by decide +kernel),
    by simp only [tokenOk, deviceIdBytes, hd, hv]; decide +kernel, rfl, by decide +kernel⟩⟩

/-- States and operands that meet the hypotheses of `Security_Engine`, clause by clause. -/
theorem witness_Security_Engine :
    (∃ (s t : State) (id : Nat) (c : Cmd) (b : Bytes), Ready s .crypt id c ∧ ((s.fwp 34).st = .running ∧ s.sec.ctxs.length < 16 ∧
      ctxTurn s c = true ∧ rangeWaits s (c.p 2) (c.p 4) = false ∧ rangeWaits s (c.p 3) (c.p 4) = false ∧
      slotNo s c.fn (c.p 1) (cryptMode (c.p 0)) = none ∧ (0 < c.p 4 → mayReach c.fn (c.p 2) (c.p 4) false 0x214 s = (true, s)) ∧
      (0 < c.p 4 → mayReach c.fn (c.p 3) (c.p 4) true 0x214 s = (true, s)) ∧ mayReach c.fn (c.p 5) 64 false 0x214 s = (true, s)) ∧
      readMem s (c.p 5) 64 = (t, .ok b)) ∧
    (∃ (s : State) (id : Nat) (c : Cmd), Ready s .crypt id c ∧ ((s.fwp 34).st = .running ∧ s.sec.ctxs.length < 16 ∧ ctxTurn s c = true ∧
      rangeWaits s (c.p 2) (c.p 4) = false ∧ rangeWaits s (c.p 3) (c.p 4) = false) ∧ ∃ (w : _), slotNo s c.fn (c.p 1) (cryptMode (c.p 0)) = some w) ∧
    (∃ (s : State) (id : Nat) (c : Cmd), Ready s .crypt id c ∧ (s.fwp 34).st = .running ∧ 16 ≤ s.sec.ctxs.length ∧
      s.sec.ctxWait.contains id = false) ∧
    (∃ (s t u : State), s.power.running = true ∧ ∃ (i : Nat) (o : CipherOp) (aad : Bytes) (x : Bytes), s.sec.ctxs[i]? = some o ∧ cipherRead o s = (t,
      .ok (aad, x)) ∧ ∃ (out : _),
      out = (if o.mode ≤ 1 then gcmCrypt o.key (slice o.desc 0 12) x else xtsRun (o.mode == 2) o.key (fld o.desc 16 4) (o.bytes + 1) (fld o.desc 0 16) x) ∧
      writeMem t o.dst out = (u, none) ∧ out ≠ [] ∧ o.mode ≠ 0 ∧ (o.mode = 1 → gcmTag o.key (slice o.desc 0 12) aad x = slice o.desc 32 16)) ∧
    (∃ (s t u : State), s.power.running = true ∧ ∃ (i : Nat) (o : CipherOp) (aad : Bytes) (x : Bytes), s.sec.ctxs[i]? = some o ∧ cipherRead o s = (t,
      .ok (aad, x)) ∧ ∃ (out : _),
      out = (if o.mode ≤ 1 then gcmCrypt o.key (slice o.desc 0 12) x else xtsRun (o.mode == 2) o.key (fld o.desc 16 4) (o.bytes + 1) (fld o.desc 0 16) x) ∧
      writeMem t o.dst out = (u, none) ∧ out ≠ [] ∧ ∃ (v : _), o.mode = 0 ∧
      writeMem u (o.descAt + 32) (gcmTag o.key (slice o.desc 0 12) aad out) = (v, none)) ∧
    (∃ (s t : State), s.power.running = true ∧ ∃ (i : Nat) (o : CipherOp) (aad : Bytes) (x : Bytes), s.sec.ctxs[i]? = some o ∧ cipherRead o s = (t,
      .ok (aad, x)) ∧ o.mode = 1 ∧ gcmTag o.key (slice o.desc 0 12) aad x ≠ slice o.desc 32 16 ∧ o.bytes ≤ 65536) ∧
    (∃ (s t : State), s.power.running = true ∧ ∃ (i : Nat) (o : CipherOp) (aad : Bytes) (x : Bytes), s.sec.ctxs[i]? = some o ∧ cipherRead o s = (t,
      .ok (aad, x)) ∧ o.mode = 1 ∧ gcmTag o.key (slice o.desc 0 12) aad x ≠ slice o.desc 32 16 ∧ 65536 < o.bytes) ∧
    (∃ (s t : State), s.power.running = true ∧ ∃ (i : Nat) (o : CipherOp) (e : _), s.sec.ctxs[i]? = some o ∧ cipherRead o s = (t, .error e)) ∧
    (∃ (s : State), s.power.running = true ∧ bit (s.reg .glbSecSts) 6 = false) ∧
    (∃ (s : State), bit (s.reg .glbSecSts) 6 = true ∧ s.power.running = true) ∧
    (imageOk updated (Config.bootImage [1, 2, 3, 4]) = true → ∃ (s t u : State) (id : Nat) (c : Cmd) (b : Bytes), ∃ (k : _), Ready s .fwUpdate id c ∧
      (s.fwp 34).st = .running ∧ k = inactiveSlot s ∧ readPart s c.fn (hostBase + c.p 0) (c.p 1) = (t, b, none) ∧ b ≠ [] ∧
      u = { t with sec := { t.sec with images := tput none t.sec.images k (some b), unusable := t.sec.unusable ||| 2 ^ k } } ∧
      imageOk u (Config.bootImage b) = true) ∧
    (imageOk updated (Config.bootImage [1, 2, 3, 4]) = false → ∃ (s t u : State) (id : Nat) (c : Cmd) (b : Bytes), ∃ (k : _),
      Ready s .fwUpdate id c ∧ (s.fwp 34).st = .running ∧ k = inactiveSlot s ∧ readPart s c.fn (hostBase + c.p 0) (c.p 1) = (t, b, none) ∧ b ≠ [] ∧
      u = { t with sec := { t.sec with images := tput none t.sec.images k (some b), unusable := t.sec.unusable ||| 2 ^ k } } ∧
      imageOk u (Config.bootImage b) = false) ∧
    (∃ (s : State), ∃ (cause : _), 0 < cause ∧ cause < 32 ∧ s.sec.ctxs = [] ∧ s.ckpt.saves = [] ∧ s.ckpt.rests = []) :=
  ⟨⟨having (cmdOf .crypt 15 [2, 1015, 0x1000, 0x1020, 32, 0x1040, 0]) { State.reset with own := { State.reset.own with blocks := [(0, 16)], regions := [(0, { base := 0x1000, bytes := 0x1000, rights := 0x7F, st := 1, tenant := 15, world := true })] }, keys := [(1015, { mode := 2, grant := 0x8000 })] },
    _, 1, cmdOf .crypt 15 [2, 1015, 0x1000, 0x1020, 32, 0x1040, 0],
    okBytes (readMem (having (cmdOf .crypt 15 [2, 1015, 0x1000, 0x1020, 32, 0x1040, 0]) { State.reset with own := { State.reset.own with blocks := [(0, 16)], regions := [(0, { base := 0x1000, bytes := 0x1000, rights := 0x7F, st := 1, tenant := 15, world := true })] }, keys := [(1015, { mode := 2, grant := 0x8000 })] }) 0x1040 64).2,
    rdy (by decide +kernel), by decide +kernel, okIs (by decide +kernel)⟩,
  ⟨having (cmdOf .crypt 15 [0, 1015, 0x1000, 0x1020, 32, 0x1040, 0]) { State.reset with own := { State.reset.own with blocks := [(0, 16)], regions := [(0, { base := 0x1000, bytes := 0x1000, rights := 0x7F, st := 1, tenant := 15, world := true })] }, keys := [(1015, { mode := 2, grant := 0x8000 })] },
    1, cmdOf .crypt 15 [0, 1015, 0x1000, 0x1020, 32, 0x1040, 0], rdy (by decide +kernel), by decide +kernel, 1, by decide +kernel⟩,
  ⟨having (cmdOf .crypt 15 [2, 1015, 0x1000, 0x1020, 32, 0x1040, 0]) { State.reset with sec := { State.reset.sec with ctxs := List.replicate 16 (cipher 1 32 []) } },
    1, cmdOf .crypt 15 [2, 1015, 0x1000, 0x1020, 32, 0x1040, 0], rdy (by decide +kernel), by decide +kernel⟩,
  ⟨ciphering (cipher 2 32 (rec_ 64 [(16, 4, 32)])), _, _, by decide +kernel, 0, cipher 2 32 (rec_ 64 [(16, 4, 32)]), [], zeros 32, rfl,
    okIs (by decide +kernel), _, rfl, brIs (by decide +kernel), by decide +kernel⟩,
  ⟨ciphering (cipher 0 32 (zeros 64)), _, _, by decide +kernel, 0, cipher 0 32 (zeros 64), [], zeros 32, rfl, okIs (by decide +kernel), _, rfl,
    brIs (by decide +kernel), by decide +kernel, _, by decide +kernel, brIs (by decide +kernel)⟩,
  (tag_wrong (memBytes State.reset 0x1000 32)).elim fun d h => ⟨ciphering (cipher 1 32 d), _, rfl, 0, cipher 1 32 d, [],
    memBytes State.reset 0x1000 32, rfl, cipher_reads (by decide) h.1, rfl, h.2, by show 32 ≤ 65536; decide⟩,
  (tag_wrong (memBytes State.reset 0x1000 65552)).elim fun d h => ⟨ciphering (cipher 1 65552 d), _, rfl, 0, cipher 1 65552 d, [],
    memBytes State.reset 0x1000 65552, rfl, cipher_reads (by decide) h.1, rfl, h.2, by show 65536 < 65552; decide⟩,
  ⟨{ ciphering (cipher 2 32 (zeros 64)) with bad := [(128, 2)] }, _, by decide +kernel, 0, cipher 2 32 (zeros 64), 0x1000, by decide +kernel,
    errIs (by decide +kernel)⟩,
  ⟨State.reset, by decide +kernel⟩,
  ⟨State.reset.setReg .glbSecSts 0 0 64, by decide +kernel⟩,
  fun h => ⟨updating, updating, _, 1, cmdOf .fwUpdate 16 [0x1000, 4, 1], [1, 2, 3, 4], _, rdy (by decide +kernel), by decide +kernel, rfl,
    held_part 0x1000 [1, 2, 3, 4] rfl rfl (by decide +kernel) (by decide +kernel), by decide +kernel, rfl, h⟩,
  fun h => ⟨updating, updating, _, 1, cmdOf .fwUpdate 16 [0x1000, 4, 1], [1, 2, 3, 4], _, rdy (by decide +kernel), by decide +kernel, rfl,
    held_part 0x1000 [1, 2, 3, 4] rfl rfl (by decide +kernel) (by decide +kernel), by decide +kernel, rfl, h⟩,
  ⟨State.reset, 31, by decide +kernel⟩⟩

/-- States and operands that meet the hypotheses of `Collectives`, clause by clause. -/
theorem witness_Collectives :
    (∃ (s t : State) (id : Nat) (c : Cmd), ∃ (b : _), Ready s .commCreate id c ∧ s.comm (tkey c.fn (c.p 0)) = none ∧
      readMem s (c.p 3) (8 * c.p 1) = (t, .ok b)) ∧
    (∃ (s : State) (id : Nat) (c : Cmd), Ready s .commDestroy id c ∧ commCode s (tkey c.fn (c.p 0)) = 1) ∧
    (∃ (s : State) (id : Nat) (c : Cmd), ∃ (o : Op) (i : Instr), (o = .allReduce ∧ i = .allReduce id ∨ o = .reduceScatter ∧
      i = .reduceScatter id ∨ o = .allGather ∧ i = .allGather id ∨ o = .broadcast ∧ i = .broadcast id ∨ o = .allToAll ∧ i = .allToAll id) ∧
      Ready s o id c ∧ s.comm (tkey c.fn (c.p 0)) = none) ∧
    (∃ (s : State) (id : Nat) (c : Cmd) (cm : Comm), ∃ (o : Op) (i : Instr), (o = .allReduce ∧ i = .allReduce id ∨ o = .reduceScatter ∧
      i = .reduceScatter id ∨ o = .allGather ∧ i = .allGather id ∨ o = .broadcast ∧ i = .broadcast id ∨ o = .allToAll ∧ i = .allToAll id) ∧
      Ready s o id c ∧ s.comm (tkey c.fn (c.p 0)) = some cm ∧ (o = .broadcast → c.p 1 < cm.ranks) ∧ collOverlap c o cm = false ∧
      collDenied s c o cm = none ∧ isReduction o = true ∧ c.p 1 = 2 ∧ strict s c.fn = false) ∧
    (∃ (s : State) (id : Nat) (c : Cmd) (cm : Comm), ∃ (o : Op) (i : Instr), (o = .allReduce ∧ i = .allReduce id ∨ o = .reduceScatter ∧
      i = .reduceScatter id ∨ o = .allGather ∧ i = .allGather id ∨ o = .broadcast ∧ i = .broadcast id ∨ o = .allToAll ∧ i = .allToAll id) ∧
      Ready s o id c ∧ s.comm (tkey c.fn (c.p 0)) = some cm ∧ (o = .broadcast → c.p 1 < cm.ranks) ∧ (collOverlap c o cm = false ∧
      collDenied s c o cm = none) ∧ (¬ (isReduction o ∧ c.p 1 = 2))) ∧
    (∃ (s : State) (id : Nat) (c : Cmd) (cm : Comm), ∃ (o : Op) (i : Instr), (o = .allReduce ∧ i = .allReduce id ∨ o = .reduceScatter ∧
      i = .reduceScatter id ∨ o = .allGather ∧ i = .allGather id ∨ o = .broadcast ∧ i = .broadcast id ∨ o = .allToAll ∧ i = .allToAll id) ∧
      Ready s o id c ∧ s.comm (tkey c.fn (c.p 0)) = some cm ∧ (o = .broadcast → c.p 1 < cm.ranks) ∧ collOverlap c o cm = false ∧
      collDenied s c o cm = none ∧ isReduction o = true ∧ c.p 1 = 2 ∧ strict s c.fn = true) ∧
    (∃ (s : State) (id : Nat) (c : Cmd) (cm : Comm), ∃ (o : Op) (i : Instr), (o = .allReduce ∧ i = .allReduce id ∨ o = .reduceScatter ∧
      i = .reduceScatter id ∨ o = .allGather ∧ i = .allGather id ∨ o = .broadcast ∧ i = .broadcast id ∨ o = .allToAll ∧ i = .allToAll id) ∧
      Ready s o id c ∧ ∃ (cm : _), s.comm (tkey c.fn (c.p 0)) = some cm ∧ (o = .broadcast → c.p 1 < cm.ranks) ∧ collOverlap c o cm = true) ∧
    (∃ (s t : State) (id : Nat) (c : Cmd), ∃ (b : _), Ready s .layoutDefine id c ∧ layoutCode s c.fn (c.p 0) = 0 ∧ readMem s (c.p 1) 64 = (t,
      .ok b)) ∧
    (∃ (s : State) (id : Nat) (c : Cmd), Ready s .layoutDrop id c ∧ layoutCode s c.fn (c.p 0) = 1) ∧
    (∃ (s t : State) (id : Nat) (c : Cmd) (cm : Comm), ∃ (l : _), Ready s .reshardMove id c ∧ (layoutCode s c.fn (c.p 0) ≠ 0 ∧
      layoutCode s c.fn (c.p 1) ≠ 0 ∧ s.comm (tkey c.fn (layoutAt s c.fn (c.p 0)).comm) = some cm) ∧ readMem s (c.p 3) (32 * c.p 2) = (t, .ok l) ∧
      moveBad t c l cm = none) ∧
    (∃ (s : State) (c : Cmd) (cm : Comm), ∃ (comm : _), s.comm (tkey c.fn comm) = some cm) :=
  ⟨⟨having (cmdOf .commCreate 15 [255, 2, 0, 0]) (State.reset), _, 1, cmdOf .commCreate 15 [255, 2, 0, 0], _, rdy (by decide +kernel),
    by decide +kernel, okSome (by decide +kernel)⟩,
  ⟨having (cmdOf .commDestroy 15 [255]) (State.reset.setComm (tkey 15 255) (some ⟨2, 0, 0x1000, 0, [], []⟩)), 1, cmdOf .commDestroy 15 [255],
    rdy (by decide +kernel), by decide +kernel⟩,
  ⟨having (cmdOf .allReduce 15 [255]) (State.reset), 1, cmdOf .allReduce 15 [255], .allReduce, .allReduce 1, .inl ⟨rfl, rfl⟩,
    rdy (by decide +kernel), by decide +kernel⟩,
  ⟨having (cmdOf .allReduce 15 [255, 2]) (State.reset.setComm (tkey 15 255) (some ⟨2, 0, 0x1000, 0, [], []⟩)), 1, cmdOf .allReduce 15 [255, 2], ⟨2,
    0, 0x1000, 0, [], []⟩, .allReduce, .allReduce 1, .inl ⟨rfl, rfl⟩, rdy (by decide +kernel), by decide +kernel, (fun h => by cases h),
    by decide +kernel⟩,
  ⟨having (cmdOf .allReduce 15 [255]) (State.reset.setComm (tkey 15 255) (some ⟨2, 0, 0x1000, 0, [], []⟩)), 1, cmdOf .allReduce 15 [255], ⟨2, 0,
    0x1000, 0, [], []⟩, .allReduce, .allReduce 1, .inl ⟨rfl, rfl⟩, rdy (by decide +kernel), by decide +kernel, fun _ => by decide +kernel,
    by decide +kernel, by rintro ⟨_, h⟩; exact absurd h (by decide +kernel)⟩,
  ⟨having (cmdOf .allReduce 15 [255, 2]) ((State.reset.setComm (tkey 15 255) (some ⟨2, 0, 0x1000, 0, [], []⟩)).setReg .detCtrl 0 15 1), 1,
    cmdOf .allReduce 15 [255, 2], ⟨2, 0, 0x1000, 0, [], []⟩, .allReduce, .allReduce 1, .inl ⟨rfl, rfl⟩, rdy (by decide +kernel), by decide +kernel,
    (fun h => by cases h), by decide +kernel⟩,
  ⟨having (cmdOf .allReduce 15 [255, 0, 11, 0, 0, 0x1000, 0x1004, 32]) (State.reset.setComm (tkey 15 255) (some ⟨2, 0, 0x1000, 0, [], []⟩)), 1,
    cmdOf .allReduce 15 [255, 0, 11, 0, 0, 0x1000, 0x1004, 32], ⟨2, 0, 0x1000, 0, [], []⟩, .allReduce, .allReduce 1, .inl ⟨rfl, rfl⟩,
    rdy (by decide +kernel), ⟨2, 0, 0x1000, 0, [], []⟩, by decide +kernel, fun _ => by decide +kernel, by decide +kernel⟩,
  ⟨having (cmdOf .layoutDefine 15 [255, 0x1000]) State.reset, _, 1, cmdOf .layoutDefine 15 [255, 0x1000],
    okBytes (readMem (having (cmdOf .layoutDefine 15 [255, 0x1000]) State.reset) 0x1000 64).2, rdy (by decide +kernel), by decide +kernel,
    okIs (by decide +kernel)⟩,
  ⟨having (cmdOf .layoutDrop 15 [255]) ({ State.reset with ckpt := { State.reset.ckpt with layouts := [(tkey 15 255, rec_ 64 [(0, 1, 11)])] } }), 1,
    cmdOf .layoutDrop 15 [255], rdy (by decide +kernel), by decide +kernel⟩,
  ⟨having (cmdOf .reshardMove 15 [254, 255, 1, 0x1000]) ({ (writeMem State.reset 0x1000 (rec_ 32 [(0, 8, 0x1100), (8, 8, 0x1140)])).1 with own := { State.reset.own with blocks := [(0, 16)], regions := [(0, { base := 0x1000, bytes := 0x1000, rights := 0x7F, st := 1, tenant := 15, world := true })] }, ckpt := { State.reset.ckpt with layouts := [(tkey 15 254, layoutBytes), (tkey 15 255, layoutBytes)] } }.setComm (tkey 15 255) (some ⟨2,
    0, 0x2000, 0, [], []⟩)), _, 1, cmdOf .reshardMove 15 [254, 255, 1, 0x1000], ⟨2, 0, 0x2000, 0, [], []⟩,
    okBytes (readMem (having (cmdOf .reshardMove 15 [254, 255, 1, 0x1000]) ({ (writeMem State.reset 0x1000 (rec_ 32 [(0, 8, 0x1100), (8, 8, 0x1140)])).1 with own := { State.reset.own with blocks := [(0, 16)], regions := [(0, { base := 0x1000, bytes := 0x1000, rights := 0x7F, st := 1, tenant := 15, world := true })] }, ckpt := { State.reset.ckpt with layouts := [(tkey 15 254, layoutBytes), (tkey 15 255, layoutBytes)] } }.setComm (tkey 15 255) (some ⟨2,
    0, 0x2000, 0, [], []⟩))) 0x1000 32).2, rdy (by decide +kernel), by decide +kernel, okIs (by decide +kernel), by decide +kernel⟩,
  ⟨having (cmdOf .allReduce 15 [255]) (State.reset.setComm (tkey 15 255) (some ⟨2, 0, 0x1000, 0, [], []⟩)), cmdOf .allReduce 15 [255], ⟨2, 0, 0x1000,
    0, [], []⟩, 255, by decide +kernel⟩⟩

/-- States and operands that meet the hypotheses of `Checkpoints`, clause by clause. -/
theorem witness_Checkpoints :
    (∃ (s : State) (id : Nat) (c : Cmd), Ready s .poolAdd id c ∧ (poolsOf s c.fn).length < 64) ∧
    (∃ (s : State) (id : Nat) (c : Cmd), Ready s .poolAdd id c ∧ 64 ≤ (poolsOf s c.fn).length) ∧
    (∃ (s t : State) (id : Nat) (c : Cmd) (b : Bytes), Ready s .save id c ∧ readMem s (c.p 3) (64 + 32 * c.p 1) = (t, .ok b) ∧
      ∃ (u : State) (x : Save) (iv : _), saveNo t c b (placeShards (maskPools (fld b 8 8)) b) = .ok ∧ iv = max t.now (t.reg .ckpIvTb + 1) ∧
      u = (t.setReg .ckpIvTb 0 0 iv).setCkSlot c.fn (c.p 0) { st := 1, step := 0, pools := fld b 8 8, man := [], cls := fld b 2 1, draining := false } ∧
      x = { id := id, tenant := c.fn, slot := c.p 0, phase := 2, left := (maskPools (fld b 8 8)).length, list := b, step := c.p 2, iv := iv, shards := placeShards (maskPools (fld b 8 8)) b, sig := syncOf u c (fld b 4 4) }) ∧
    (∃ (s t : State) (id : Nat) (c : Cmd) (b : Bytes), Ready s .save id c ∧ readMem s (c.p 3) (64 + 32 * c.p 1) = (t, .ok b) ∧
      saveNo t c b (placeShards (maskPools (fld b 8 8)) b) = .rank) ∧
    (∃ (s t : State) (id : Nat) (c : Cmd) (b : Bytes), Ready s .save id c ∧ readMem s (c.p 3) (64 + 32 * c.p 1) = (t, .ok b) ∧
      saveNo t c b (placeShards (maskPools (fld b 8 8)) b) = .room) ∧
    (∃ (s : State) (id : Nat), s.power.running = true ∧ ∃ (x : Save), findSave s id = some x ∧ (x.left ≠ 0 ∨ x.fail.isSome = true)) ∧
    (∃ (s : State) (id : Nat), s.power.running = true ∧ ∃ (x : Save), findSave s id = some x ∧ x.left = 0 ∧ x.fail = none ∧ x.phase = 2) ∧
    (∃ (s : State) (id : Nat), s.power.running = true ∧ ∃ (x : Save), findSave s id = some x ∧ x.left = 0 ∧ x.fail = none ∧ x.phase = 6 ∧
      x.todo = []) ∧
    (∃ (s : State) (id : Nat), s.power.running = true ∧ ∃ (x : Save), findSave s id = some x ∧ x.left = 0 ∧ x.fail = none ∧
      keyServes s x.tenant (fld x.list 0 2) = true ∧ x.phase = 3) ∧
    (∃ (s : State) (id : Nat), s.power.running = true ∧ ∃ (x : Save), findSave s id = some x ∧ x.left = 0 ∧ x.fail = none ∧
      keyServes s x.tenant (fld x.list 0 2) = true ∧ x.phase = 4) ∧
    (∃ (s : State) (id : Nat), s.power.running = true ∧ ∃ (x : Save), (findSave s id = some x ∧ x.left = 0 ∧ x.fail = none) ∧
      (x.phase = 3 ∨ x.phase = 4 ∨ x.phase = 5) ∧ keyServes s x.tenant (fld x.list 0 2) = false) ∧
    (∃ (s t : State) (id : Nat), s.power.running = true ∧ ∃ (x : Restore) (n : _), (findRest s id = some x ∧ x.phase = 3) ∧
      restWrite x (manList x.man) (manSizes x.man) (List.range (listCount (manList x.man))) 0 s = (t, n, none)) ∧
    (∃ (s t : State) (id : Nat), s.power.running = true ∧ ∃ (x : Restore) (n : _) (a : _), (findRest s id = some x ∧ x.phase = 3) ∧
      restWrite x (manList x.man) (manSizes x.man) (List.range (listCount (manList x.man))) 0 s = (t, n, some a)) ∧
    (∃ (s : State) (id : Nat), s.power.running = true ∧ ∃ (x : DrainJob), (s.ckpt.drains.find? fun x => x.id == id) = some x ∧ x.todo = [] ∧
      x.write = none ∧ x.st = 0x0000 ∧ (s.ckSlot x.tenant x.slot).st = 4) ∧
    (∃ (s : State) (id : Nat), s.power.running = true ∧ ∃ (x : TakeJob) (u : _), ((s.ckpt.takes.find? fun x => x.id == id) = some x ∧ x.phase = 1 ∧
      x.left = 0) ∧ u = { s with ckpt := { s.ckpt with takes := s.ckpt.takes.filter fun y => y.id != id } } ∧ x.st ≠ 0x0000) ∧
    (∃ (s : State) (id : Nat), s.power.running = true ∧ ∃ (x : TakeJob) (u : _), ((s.ckpt.takes.find? fun x => x.id == id) = some x ∧ x.phase = 1 ∧
      x.left = 0) ∧ u = { s with ckpt := { s.ckpt with takes := s.ckpt.takes.filter fun y => y.id != id } } ∧ x.st = 0x0000 ∧ takeFound x = []) ∧
    (∃ (s : State) (id : Nat), s.power.running = true ∧ ∃ (x : TakeJob) (u : _), ((s.ckpt.takes.find? fun x => x.id == id) = some x ∧ x.phase = 1 ∧
      x.left = 0) ∧ u = { s with ckpt := { s.ckpt with takes := s.ckpt.takes.filter fun y => y.id != id } } ∧ ∃ (p : _), x.st = 0x0000 ∧
      newest (adoptable x 0) = some p ∧ newest (adoptable x 1) = none ∧ (takeFound x).all (fun k => slice (tget [] x.man k) 64 64 != x.sig) = false) ∧
    (∃ (s : State), s.power.running = true ∧ ∃ (who : Nat) (tn : Nat), (who < 19 ∧ tn < 16) ∧ (who = tn ∨ 16 ≤ who) ∧ (s.ckSlot tn 0).st = 0 ∧
      (s.ckSlot tn 1).st = 0) ∧
    (∃ (s : State), s.power.running = true ∧ ∃ (who : Nat) (tn : Nat), (who < 19 ∧ tn < 16) ∧ (who = tn ∨ 16 ≤ who) ∧ (s.ckSlot tn 0).st = 1) ∧
    (∃ (s : State) (id : Nat) (c : Cmd), Ready s .restore id c ∧ (s.ckSlot c.fn (c.p 0)).st ≠ 2 ∧ (s.ckSlot c.fn (c.p 0)).st ≠ 4 ∧
      listGranted s c.fn (manList (s.ckSlot c.fn (c.p 0)).man) = true ∧
      (stageNeed (manSizes (s.ckSlot c.fn (c.p 0)).man) ≤ stageSize s c.fn → stageGranted s c.fn (stageNeed (manSizes (s.ckSlot c.fn (c.p 0)).man)) = true)) ∧
    (∃ (s t : State) (id : Nat) (c : Cmd) (b : Bytes), ∃ (u : State) (x : Restore) (l : _), Ready s .restore id c ∧
      ((s.ckSlot c.fn (c.p 0)).st = 2 ∨ (s.ckSlot c.fn (c.p 0)).st = 4) ∧ l = manList (s.ckSlot c.fn (c.p 0)).man ∧ (listGranted s c.fn l = true ∧
      listOpen s l = none ∧ stageNeed (manSizes (s.ckSlot c.fn (c.p 0)).man) ≤ stageSize s c.fn ∧
      stageGranted s c.fn (stageNeed (manSizes (s.ckSlot c.fn (c.p 0)).man)) = true) ∧ readMem s (c.p 2) (shapeLen s (c.p 2)) = (t, .ok b) ∧
      u = t.setCkSlot c.fn (c.p 0) { s.ckSlot c.fn (c.p 0) with st := 3 } ∧
      x = { id := id, tenant := c.fn, slot := c.p 0, phase := 0, step := c.p 1, sig := sha3 b, cand := maskPools (s.ckSlot c.fn (c.p 0)).pools }) ∧
    (∃ (s : State) (id : Nat) (c : Cmd), ∃ (x : DrainJob), Ready s .drain id c ∧ ((s.ckSlot c.fn (c.p 0)).st = 2 ∧ (s.vol (c.p 1)).st = 2 ∧
      (s.vol (c.p 1)).tenant = c.fn ∧ drainBytes s c.fn (s.ckSlot c.fn (c.p 0)) ≤ (s.vol (c.p 1)).blocks * 4096) ∧
      x = { id := id, tenant := c.fn, slot := c.p 0, vol := c.p 1, todo := drainPieces s c.fn (c.p 0) (s.ckSlot c.fn (c.p 0)) }) ∧
    (∃ (s : State) (id : Nat) (c : Cmd), Ready s .slotStatus id c) ∧
    (∃ (s t : State) (id : Nat) (c : Cmd) (b : Bytes), ∃ (u : State) (n : Nat) (x : TakeJob), Ready s .rankTake id c ∧ ((s.ckSlot c.fn 0).st = 0 ∧
      (s.ckSlot c.fn 1).st = 0) ∧ readMem s (c.p 1) (shapeLen s (c.p 1)) = (t, .ok b) ∧
      u = ({ t with ckpt := { t.ckpt with ranks := tput none t.ckpt.ranks c.fn (some (c.p 0)), sigs := tput [] t.ckpt.sigs c.fn (sha3 b) } } : State).setReg .ckpRank c.fn 0 (c.p 0) ∧
      n = (poolsOf t c.fn).length ∧ x = { id := id, tenant := c.fn, rank := c.p 0, sig := sha3 b, phase := if n = 0 then 1 else 0, left := 2 * n }) :=
  ⟨⟨having (cmdOf .poolAdd 15 [0xFFFFE, 0xFFFFFFFF, 0x10000000]) ({ State.reset with ckpt := { State.reset.ckpt with pools := [(15, List.replicate 63 ⟨0, 0, 0⟩)] } }),
    1, cmdOf .poolAdd 15 [0xFFFFE, 0xFFFFFFFF, 0x10000000], rdy (by decide +kernel), by decide +kernel⟩,
  ⟨having (cmdOf .poolAdd 15 [0xFFFFE, 0xFFFFFFFF, 0x10000000]) ({ State.reset with ckpt := { State.reset.ckpt with pools := [(15, List.replicate 64 ⟨0, 0, 0⟩)] } }),
    1, cmdOf .poolAdd 15 [0xFFFFE, 0xFFFFFFFF, 0x10000000], rdy (by decide +kernel), by decide +kernel⟩,
  ⟨having (cmdOf .save 15 [1, 1, 9, 0x1000]) { (writeMem State.reset 0x1000 (rec_ 96 [(0, 2, 5), (8, 8, 1), (64, 1, 1), (72, 8, 0x2000), (80, 8, 32)])).1 with keys := [(5, { mode := 1, grant := 0x8000 })], ckpt := { State.reset.ckpt with ranks := [(15, some 0)], pools := [(15, [⟨3, 0, 0x200200⟩])] } },
    _, 1, cmdOf .save 15 [1, 1, 9, 0x1000],
    okBytes (readMem (having (cmdOf .save 15 [1, 1, 9, 0x1000]) { (writeMem State.reset 0x1000 (rec_ 96 [(0, 2, 5), (8, 8, 1), (64, 1, 1), (72, 8, 0x2000), (80, 8, 32)])).1 with keys := [(5, { mode := 1, grant := 0x8000 })], ckpt := { State.reset.ckpt with ranks := [(15, some 0)], pools := [(15, [⟨3, 0, 0x200200⟩])] } }) 0x1000 96).2,
    rdy (by decide +kernel), okIs (by decide +kernel), _, _, _, by decide +kernel, rfl, rfl, rfl⟩,
  ⟨having (cmdOf .save 15 [1, 1, 9, 0x1000]) { (writeMem State.reset 0x1000 (rec_ 96 [(0, 2, 5), (8, 8, 1), (64, 1, 1), (72, 8, 0x2000), (80, 8, 32)])).1 with keys := [(5, { mode := 1, grant := 0x8000 })], ckpt := { State.reset.ckpt with pools := [(15, [⟨3, 0, 0x200200⟩])] } },
    _, 1, cmdOf .save 15 [1, 1, 9, 0x1000],
    okBytes (readMem (having (cmdOf .save 15 [1, 1, 9, 0x1000]) { (writeMem State.reset 0x1000 (rec_ 96 [(0, 2, 5), (8, 8, 1), (64, 1, 1), (72, 8, 0x2000), (80, 8, 32)])).1 with keys := [(5, { mode := 1, grant := 0x8000 })], ckpt := { State.reset.ckpt with pools := [(15, [⟨3, 0, 0x200200⟩])] } }) 0x1000 96).2,
    rdy (by decide +kernel), okIs (by decide +kernel), by decide +kernel⟩,
  ⟨having (cmdOf .save 15 [1, 1, 9, 0x1000]) { (writeMem State.reset 0x1000 (rec_ 96 [(0, 2, 5), (8, 8, 1), (64, 1, 1), (72, 8, 0x2000), (80, 8, 32)])).1 with keys := [(5, { mode := 1, grant := 0x8000 })], ckpt := { State.reset.ckpt with ranks := [(15, some 0)], pools := [(15, [⟨3, 0, 0x2000BE⟩])] } },
    _, 1, cmdOf .save 15 [1, 1, 9, 0x1000],
    okBytes (readMem (having (cmdOf .save 15 [1, 1, 9, 0x1000]) { (writeMem State.reset 0x1000 (rec_ 96 [(0, 2, 5), (8, 8, 1), (64, 1, 1), (72, 8, 0x2000), (80, 8, 32)])).1 with keys := [(5, { mode := 1, grant := 0x8000 })], ckpt := { State.reset.ckpt with ranks := [(15, some 0)], pools := [(15, [⟨3, 0, 0x2000BE⟩])] } }) 0x1000 96).2,
    rdy (by decide +kernel), okIs (by decide +kernel), by decide +kernel⟩,
  ⟨{ State.reset with ckpt := { State.reset.ckpt with saves := [{ id := 1, tenant := 15, slot := 1, list := zeros 64, step := 9, iv := 1, shards := [], phase := 2, left := 1 }] } },
    1, by decide +kernel, { id := 1, tenant := 15, slot := 1, list := zeros 64, step := 9, iv := 1, shards := [], phase := 2, left := 1 },
    by decide +kernel⟩,
  ⟨{ State.reset with ckpt := { State.reset.ckpt with saves := [{ id := 1, tenant := 15, slot := 1, list := zeros 64, step := 9, iv := 1, shards := [], phase := 2, left := 0 }] } },
    1, by decide +kernel, { id := 1, tenant := 15, slot := 1, list := zeros 64, step := 9, iv := 1, shards := [], phase := 2, left := 0 },
    by decide +kernel⟩,
  ⟨{ State.reset with ckpt := { State.reset.ckpt with saves := [{ id := 1, tenant := 15, slot := 1, list := zeros 64, step := 9, iv := 1, shards := [], phase := 6, left := 0 }] } },
    1, by decide +kernel, { id := 1, tenant := 15, slot := 1, list := zeros 64, step := 9, iv := 1, shards := [], phase := 6, left := 0 },
    by decide +kernel⟩,
  ⟨{ State.reset with keys := [(0, { mode := 1, grant := 0x8000 })], ckpt := { State.reset.ckpt with saves := [{ id := 1, tenant := 15, slot := 1, list := zeros 64, step := 9, iv := 1, shards := [], phase := 3, left := 0 }] } },
    1, by decide +kernel, { id := 1, tenant := 15, slot := 1, list := zeros 64, step := 9, iv := 1, shards := [], phase := 3, left := 0 },
    by decide +kernel⟩,
  ⟨{ State.reset with keys := [(0, { mode := 1, grant := 0x8000 })], ckpt := { State.reset.ckpt with saves := [{ id := 1, tenant := 15, slot := 1, list := zeros 64, step := 9, iv := 1, shards := [], phase := 4, left := 0 }] } },
    1, by decide +kernel, { id := 1, tenant := 15, slot := 1, list := zeros 64, step := 9, iv := 1, shards := [], phase := 4, left := 0 },
    by decide +kernel⟩,
  ⟨{ State.reset with ckpt := { State.reset.ckpt with saves := [{ id := 1, tenant := 15, slot := 1, list := zeros 64, step := 9, iv := 1, shards := [], phase := 5, left := 0 }] } },
    1, by decide +kernel, { id := 1, tenant := 15, slot := 1, list := zeros 64, step := 9, iv := 1, shards := [], phase := 5, left := 0 },
    by decide +kernel, .inr (.inr rfl), by decide +kernel⟩,
  ⟨{ State.reset with ckpt := { State.reset.ckpt with rests := [{ id := 1, tenant := 15, slot := 1, phase := 3, step := 9, sig := [], cand := [] }] } },
    _, 1, by decide +kernel, { id := 1, tenant := 15, slot := 1, phase := 3, step := 9, sig := [], cand := [] }, _, by decide +kernel, rfl⟩,
  ⟨unread, _, 1, by decide +kernel,
    { id := 1, tenant := 15, slot := 1, phase := 3, step := 9, sig := [], cand := [], man := rec_ 384 [(24, 4, 1), (28, 4, 1), (256 + 32 + 24, 4, 1)] },
    0, 0, by decide +kernel, errAt (by decide +kernel)⟩,
  ⟨{ State.reset with ckpt := { State.reset.ckpt with drains := [{ id := 1, tenant := 15, slot := 1, vol := 1023, todo := [] }], slots := [(31, { st := 4, draining := true })] } },
    1, by decide +kernel, { id := 1, tenant := 15, slot := 1, vol := 1023, todo := [] }, by decide +kernel⟩,
  ⟨{ State.reset with ckpt := { State.reset.ckpt with takes := [{ id := 1, tenant := 15, rank := 0, sig := [], phase := 1, left := 0, st := 0x0502 }] } },
    1, by decide +kernel, { id := 1, tenant := 15, rank := 0, sig := [], phase := 1, left := 0, st := 0x0502 }, _, by decide +kernel, rfl,
    by decide +kernel⟩,
  ⟨{ State.reset with ckpt := { State.reset.ckpt with takes := [{ id := 1, tenant := 15, rank := 0, sig := [], phase := 1, left := 0 }] } }, 1,
    by decide +kernel, { id := 1, tenant := 15, rank := 0, sig := [], phase := 1, left := 0 }, _, by decide +kernel, rfl, by decide +kernel⟩,
  ⟨{ State.reset with ckpt := { State.reset.ckpt with takes := [{ id := 1, tenant := 15, rank := 0, sig := slice manifest1 64 64, phase := 1, left := 0, com := [(0, commit1)], man := [(0, manifest1)] }] } },
    1, by decide +kernel,
    { id := 1, tenant := 15, rank := 0, sig := slice manifest1 64 64, phase := 1, left := 0, com := [(0, commit1)], man := [(0, manifest1)] }, _,
    by decide +kernel, rfl, (commit1, manifest1), by decide +kernel⟩,
  ⟨State.reset, by decide +kernel, 15, 15, by decide +kernel, .inl rfl, by decide +kernel⟩,
  ⟨{ State.reset with ckpt := { State.reset.ckpt with slots := [(30, { st := 1 })] } }, by decide +kernel, 15, 15, by decide +kernel, .inl rfl,
    by decide +kernel⟩,
  ⟨having (cmdOf .restore 15 [1, 9, 0x1000]) ({ State.reset with ckpt := { State.reset.ckpt with slots := [(31, { st := 3 })] } }), 1,
    cmdOf .restore 15 [1, 9, 0x1000], rdy (by decide +kernel), by decide +kernel⟩,
  ⟨having (cmdOf .restore 15 [1, 9, 0x1000]) { (writeMem State.reset 0x1000 (zeros 32)).1 with ckpt := { State.reset.ckpt with slots := [(31, { st := 2, pools := 1 })] } },
    _, 1, cmdOf .restore 15 [1, 9, 0x1000],
    okBytes (readMem (having (cmdOf .restore 15 [1, 9, 0x1000]) { (writeMem State.reset 0x1000 (zeros 32)).1 with ckpt := { State.reset.ckpt with slots := [(31, { st := 2, pools := 1 })] } }) 0x1000 32).2,
    _, _, _, rdy (by decide +kernel), by decide +kernel, rfl, by decide +kernel, okIs (by decide +kernel), rfl, rfl⟩,
  ⟨having (cmdOf .drain 15 [1, 1023]) { { State.reset with ckpt := { State.reset.ckpt with slots := [(31, { st := 2 })] } } with sto := { State.reset.sto with vols := [(1023, { st := 2, tenant := 15, blocks := 1 })] } },
    1, cmdOf .drain 15 [1, 1023], _, rdy (by decide +kernel), by decide +kernel, rfl⟩,
  ⟨having (cmdOf .slotStatus 15 [1]) State.reset, 1, cmdOf .slotStatus 15 [1], rdy (by decide +kernel)⟩,
  ⟨having (cmdOf .rankTake 15 [0xFFFFFFFF, 0x1000]) State.reset, _, 1, cmdOf .rankTake 15 [0xFFFFFFFF, 0x1000],
    okBytes (readMem (having (cmdOf .rankTake 15 [0xFFFFFFFF, 0x1000]) State.reset) 0x1000 32).2, _, _, _, rdy (by decide +kernel),
    by decide +kernel, okIs (by decide +kernel), rfl, rfl, rfl⟩⟩

/-- States and operands that meet the hypotheses of `Seam_Flits`, clause by clause. -/
theorem witness_Seam_Flits :
    (∃ (s : State) (l : Nat) (x : Link), (s.power.running = true ∧ l < 24) ∧ x = s.link l ∧ x.st = .up ∧ ∃ (flit : Bytes),
      flitGood true flit = true ∧ fld flit 0 4 % 4 = 1 ∧ bits (fld flit 0 4) 13 2 = x.rxSeq) ∧
    (∃ (s : State) (l : Nat) (x : Link), (s.power.running = true ∧ l < 24) ∧ x = s.link l ∧ x.st = .up ∧ ∃ (flit : Bytes),
      flitGood true flit = true ∧ fld flit 0 4 % 4 = 1 ∧ bits (fld flit 0 4) 13 2 ≠ x.rxSeq ∧
      (x.rxSeq + 4096 - bits (fld flit 0 4) 13 2) % 4096 ≤ 512) ∧
    (∃ (s : State) (l : Nat) (x : Link), (s.power.running = true ∧ l < 24) ∧ x = s.link l ∧ x.st = .up ∧ ∃ (flit : Bytes),
      flitGood true flit = true ∧ fld flit 0 4 % 4 = 1 ∧ bits (fld flit 0 4) 13 2 ≠ x.rxSeq ∧
      512 < (x.rxSeq + 4096 - bits (fld flit 0 4) 13 2) % 4096) ∧
    (∃ (s : State) (l : Nat) (x : Link), (s.power.running = true ∧ l < 24) ∧ x = s.link l ∧ x.st = .up ∧ ∃ (flit : Bytes),
      flitGood true flit = true ∧ fld flit 0 4 % 4 = 0) ∧
    (∃ (s : State) (l : Nat) (x : Link), (s.power.running = true ∧ l < 24) ∧ x = s.link l ∧ x.st = .up ∧ ∃ (flit : CtrlFlit), ctrlOk flit = false) ∧
    (∃ (s u : State) (l : Nat) (x : Link), (s.power.running = true ∧ l < 24) ∧ x = s.link l ∧ x.st = .up ∧ ∃ (flit : CtrlFlit) (v : _),
      ctrlOk flit = true ∧ u = ackFlits l flit.ack s ∧
      v = u.setLink l { u.link l with credits := flit.credits.take 3, skew := (u.link l).t1.elim (u.link l).skew fun t1 => some (skewOf t1 flit.arrived flit.left u.tb.master.toNat), t4 := some u.tb.master.toNat } ∧
      flit.nak = none) ∧
    (∃ (s u : State) (l : Nat) (x : Link), (s.power.running = true ∧ l < 24) ∧ x = s.link l ∧ x.st = .up ∧ ∃ (flit : CtrlFlit) (v : _),
      ctrlOk flit = true ∧ u = ackFlits l flit.ack s ∧
      v = u.setLink l { u.link l with credits := flit.credits.take 3, skew := (u.link l).t1.elim (u.link l).skew fun t1 => some (skewOf t1 flit.arrived flit.left u.tb.master.toNat), t4 := some u.tb.master.toNat } ∧
      ∃ (n : _) (w : _), (flit.nak = some n ∧ (v.link l).buf.any (fun f => f.seq == n) = true) ∧ w = ackFlits l ((n + 4095) % 4096) v ∧
      (w.link l).buf.any (fun f => decide (16 ≤ f.sends)) = false) ∧
    (∃ (s : State) (l : Nat) (x : Link), (s.power.running = true ∧ l < 24) ∧ x = s.link l ∧ x.st = .up ∧ x.buf ≠ [] ∧
      x.acked + 100 * usTicks ≤ s.tb.ticks) ∧
    (∃ (s : State) (l : Nat) (x : Link), (s.power.running = true ∧ l < 24) ∧ x = s.link l ∧ x.st = .up ∧ x.buf = []) ∧
    (∃ (s : State) (l : Nat) (x : Link), (s.power.running = true ∧ l < 24) ∧ x = s.link l ∧ x.st = .up ∧ s.tb.ticks < x.acked + 100 * usTicks) ∧
    (∃ (s : State) (l : Nat) (x : Link), (s.power.running = true ∧ l < 24) ∧ x = s.link l ∧ x.st = .up ∧ ∃ (who : Nat) (val : Word),
      (who = 18 ∨ (16 ≤ who ∧ who < 18 ∧ tget 0 s.own.devs 0x0A ≠ 0)) ∧ bit val.toNat 1 = true) ∧
    (∃ (s : State) (l : Nat) (x : Link), (s.power.running = true ∧ l < 24) ∧ x = s.link l ∧ x.st = .up ∧ ∃ (who : Nat) (val : Word),
      (who = 18 ∨ (16 ≤ who ∧ who < 18 ∧ tget 0 s.own.devs 0x0A ≠ 0)) ∧ bit val.toNat 2 = true) ∧
    (∃ (s : State) (l : Nat) (x : Link), (s.power.running = true ∧ l < 24) ∧ x = s.link l ∧ x.st = .up ∧ ∃ (who : Nat), who < 16 ∧
      tget 0 s.own.devs 0x0A ≠ 0) ∧
    (∃ (s u : State) (l : Nat) (x : Link), (s.power.running = true ∧ l < 24) ∧ x = s.link l ∧ x.st = .up ∧
      u = ((s.count .seamReplay l 0 1).countTv 3 1).count .seamRetrain l 0 1 ∧ linkOn u l = false) :=
  ⟨⟨State.reset.setLink 23 { st := .up, rxSeq := 4095 }, 23, _, by decide +kernel, rfl, by decide +kernel,
    (rec_ 252 [(0, 4, 1 + 4095 * 4)] ++ leBytes 4 (crc32c (rec_ 252 [(0, 4, 1 + 4095 * 4)]))), by decide +kernel⟩,
  ⟨State.reset.setLink 23 { st := .up, rxSeq := 4095 }, 23, _, by decide +kernel, rfl, by decide +kernel,
    (rec_ 252 [(0, 4, 1 + 3583 * 4)] ++ leBytes 4 (crc32c (rec_ 252 [(0, 4, 1 + 3583 * 4)]))), by decide +kernel⟩,
  ⟨State.reset.setLink 23 { st := .up, rxSeq := 4095 }, 23, _, by decide +kernel, rfl, by decide +kernel,
    (rec_ 252 [(0, 4, 1 + 3582 * 4)] ++ leBytes 4 (crc32c (rec_ 252 [(0, 4, 1 + 3582 * 4)]))), by decide +kernel⟩,
  ⟨State.reset.setLink 23 { st := .up, rxSeq := 4095 }, 23, _, by decide +kernel, rfl, by decide +kernel,
    (rec_ 252 [] ++ leBytes 4 (crc32c (rec_ 252 []))), by decide +kernel⟩,
  ⟨State.reset.setLink 23 { st := .up, rxSeq := 4095 }, 23, _, by decide +kernel, rfl, by decide +kernel, ⟨false, true, 2, 0, none, [], 0, 0⟩,
    by decide +kernel⟩,
  ⟨State.reset.setLink 23 { st := .up, rxSeq := 4095 }, _, 23, _, by decide +kernel, rfl, by decide +kernel, ⟨true, true, 2, 0, none, [9, 9, 9], 0,
    0⟩, _, by decide +kernel, rfl, rfl, by decide +kernel⟩,
  ⟨State.reset.setLink 23 { st := .up, txSeq := 1, buf := [⟨0, 0, 1⟩] }, _, 23, _, by decide +kernel, rfl, by decide +kernel, ⟨true, true, 2, 4095,
    some 0, [9, 9, 9], 0, 0⟩, _, by decide +kernel, rfl, rfl, 0, _, by decide +kernel, rfl, by decide +kernel⟩,
  ⟨{ State.reset.setLink 23 { st := .up, txSeq := 1, buf := [⟨0, 0, 1⟩] } with tb := { State.reset.tb with ticks := 100000 } }, 23, _,
    by decide +kernel, rfl, by decide +kernel⟩,
  ⟨State.reset.setLink 23 { st := .up, rxSeq := 4095 }, 23, _, by decide +kernel, rfl, by decide +kernel⟩,
  ⟨{ State.reset.setLink 23 { st := .up, txSeq := 1, buf := [⟨0, 0, 1⟩] } with tb := { State.reset.tb with ticks := 99999 } }, 23, _,
    by decide +kernel, rfl, by decide +kernel⟩,
  ⟨State.reset.setLink 23 { st := .up, rxSeq := 4095 }, 23, _, by decide +kernel, rfl, by decide +kernel, 18, 2, by decide +kernel⟩,
  ⟨State.reset.setLink 23 { st := .up, rxSeq := 4095 }, 23, _, by decide +kernel, rfl, by decide +kernel, 18, 4, by decide +kernel⟩,
  ⟨{ State.reset.setLink 23 { st := .up, rxSeq := 4095 } with own := { State.reset.own with devs := [(0x0A, 1)] } }, 23, _, by decide +kernel, rfl,
    by decide +kernel, 15, by decide +kernel⟩,
  ⟨State.reset.setLink 23 { st := .up, rxSeq := 4095 }, _, 23, _, by decide +kernel, rfl, by decide +kernel, rfl, by decide +kernel⟩⟩

/-- States and operands that meet the hypotheses of `Seam_Links`, clause by clause. -/
theorem witness_Seam_Links :
    (∃ (s : State) (l : Nat) (x : Link), (s.power.running = true ∧ l < 24) ∧ x = s.link l ∧ ∃ (val : Word), x.st = .disabled ∧
      bit val.toNat 0 = true) ∧
    (∃ (s : State) (l : Nat) (x : Link), (s.power.running = true ∧ l < 24) ∧ x = s.link l ∧ ∃ (val : Word), bit val.toNat 0 = false) ∧
    (∃ (s : State) (l : Nat) (x : Link), (s.power.running = true ∧ l < 24) ∧ x = s.link l ∧ ∃ (cable : Bytes),
      (linkOn s l = true ∨ linkOff s l = true) ∧ (linkOff s l = true → cableOk cable = true)) ∧
    (∃ (s : State) (l : Nat) (x : Link), (s.power.running = true ∧ l < 24) ∧ x = s.link l ∧ ∃ (cable : Bytes), linkOff s l = true ∧
      cableOk cable = false) ∧
    (∃ (s u v : State) (l : Nat) (x : Link), (s.power.running = true ∧ l < 24) ∧ x = s.link l ∧ ∃ (lanes : _) (m : _),
      (pickLanes (x.widen || x.lanes == 15) lanes = some m ∧ x.st = .training) ∧
      v = s.setLink l { x with st := .check, lanes := m, widen := false } ∧ u = (if m = 15 then v else v.orReg .seamErr l 0 1)) ∧
    (∃ (s u v : State) (l : Nat) (x : Link), (s.power.running = true ∧ l < 24) ∧ x = s.link l ∧ ∃ (lanes : _) (m : _),
      (pickLanes (x.widen || x.lanes == 15) lanes = some m ∧ x.st = .retrain ∧ s.tb.ticks < x.cause + 50 * msTicks) ∧
      v = s.setLink l { x with st := .up, acked := s.tb.ticks, lanes := m, widen := false } ∧ u = (if m = 15 then v else v.orReg .seamErr l 0 1) ∧
      x.buf = []) ∧
    (∃ (s u v : State) (l : Nat) (x : Link), (s.power.running = true ∧ l < 24) ∧ x = s.link l ∧ ∃ (lanes : _) (m : _),
      (pickLanes (x.widen || x.lanes == 15) lanes = some m ∧ x.st = .retrain ∧ s.tb.ticks < x.cause + 50 * msTicks) ∧
      v = s.setLink l { x with st := .up, acked := s.tb.ticks, lanes := m, widen := false } ∧ u = (if m = 15 then v else v.orReg .seamErr l 0 1) ∧
      ∃ (f : _) (r : _), x.buf = f :: r) ∧
    (∃ (s u : State) (l : Nat) (x : Link), (s.power.running = true ∧ l < 24) ∧ x = s.link l ∧ ∃ (p : SeamIdent), (x.st = .check ∧
      ((linkOn s l = true ∧ p.serial = fld s.seam.board 12 8 ∧ p.pos = (linkMap s l).1 ∧ p.link = (linkMap s l).2) ∨ (linkOn s l = false ∧
      p.cable = fld x.cable 8 8 ∧ p.tip ≠ fld x.cable 16 1 ∧ boardPeer s p.fdid = none ∧ p.fdid ≠ myFdid s))) ∧
      u = s.setLink l { x with st := .up, wasUp := true, acked := s.tb.ticks, credits := [], txSeq := if x.wasUp then x.txSeq else 0, rxSeq := if x.wasUp then x.rxSeq else 0, buf := [], wait := [], t1 := none, t4 := none, skew := none, slot := 0, ctrlAt := s.tb.ticks }) ∧
    (∃ (s : State) (l : Nat) (x : Link), (s.power.running = true ∧ l < 24) ∧ x = s.link l ∧ ∃ (p : SeamIdent), x.st = .check ∧ linkOn s l = true ∧
      p.serial ≠ fld s.seam.board 12 8) ∧
    (∃ (s : State) (l : Nat) (x : Link), (s.power.running = true ∧ l < 24) ∧ x = s.link l ∧ x.st = .training ∧
      x.attempt + 10 * msTicks ≤ s.tb.ticks) ∧
    (∃ (s : State) (l : Nat) (x : Link), (s.power.running = true ∧ l < 24) ∧ x = s.link l ∧ s.tb.ticks < x.attempt + 10 * msTicks) ∧
    (∃ (s : State) (l : Nat) (x : Link), (s.power.running = true ∧ l < 24) ∧ x = s.link l ∧ x.st = .retrain ∧ x.cause + 50 * msTicks ≤ s.tb.ticks) ∧
    (∃ (s : State) (l : Nat) (x : Link), (s.power.running = true ∧ l < 24) ∧ x = s.link l ∧ x.st = .down ∧ bit (s.reg .seamCtrl l) 0 = true ∧
      x.retry ≤ s.tb.ticks) ∧
    (∃ (s : State) (l : Nat) (x : Link), (s.power.running = true ∧ l < 24) ∧ x = s.link l ∧ x.st = .down ∧ s.tb.ticks < x.retry) ∧
    (∃ (s : State) (l : Nat) (x : Link), (s.power.running = true ∧ l < 24) ∧ x = s.link l ∧ ∃ (d : _), x.st = .up ∧ x.sample ≤ s.tb.ticks ∧
      x.skew = some d ∧ s.reg .seamTbLimit = 0) ∧
    (∃ (s : State) (l : Nat) (x : Link), (s.power.running = true ∧ l < 24) ∧ x = s.link l ∧ x.st = .up ∧ x.sample ≤ s.tb.ticks ∧ x.skew = none) :=
  ⟨⟨State.reset, 23, _, by decide +kernel, rfl, 1, by decide +kernel⟩,
  ⟨State.reset, 23, _, by decide +kernel, rfl, 0, by decide +kernel⟩,
  ⟨withBoard [(64 + 2 * 23, 1, 2), (8, 4, 0x10), (12, 8, 5)] {}, 23, _, by decide +kernel, rfl, [], by decide +kernel⟩,
  ⟨withBoard [(64 + 2 * 23, 1, 0x80), (8, 4, 0x10), (12, 8, 5)] {}, 23, _, by decide +kernel, rfl, [], by decide +kernel⟩,
  ⟨State.reset.setLink 23 { st := .training }, _, _, 23, _, by decide +kernel, rfl, 15, 15, by decide +kernel, rfl, rfl⟩,
  ⟨{ State.reset.setLink 23 { st := .retrain } with tb := { State.reset.tb with ticks := 49999999 } }, _, _, 23, _, by decide +kernel, rfl, 15, 15,
    by decide +kernel, rfl, rfl, by decide +kernel⟩,
  ⟨{ State.reset.setLink 23 { st := .retrain, buf := [⟨0, 0, 1⟩] } with tb := { State.reset.tb with ticks := 49999999 } }, _, _, 23, _,
    by decide +kernel, rfl, 15, 15, by decide +kernel, rfl, rfl, ⟨0, 0, 1⟩, [], by decide +kernel⟩,
  ⟨withBoard [(64 + 2 * 23, 1, 0x80), (8, 4, 0x10), (12, 8, 5)] { links := [(23, { st := .check, cable := (rec_ 124 [(0, 2, 0x5EA3), (2, 1, 1), (3, 1, 2), (4, 2, 1), (6, 1, 4), (7, 1, 1), (8, 8, 77)] ++ leBytes 4 (crc32c (rec_ 124 [(0, 2, 0x5EA3), (2, 1, 1), (3, 1, 2), (4, 2, 1), (6, 1, 4), (7, 1, 1), (8, 8, 77)]))) })] },
    _, 23, _, by decide +kernel, rfl, ⟨6, 0, 23, 0x20, 77, 1⟩, by decide +kernel, rfl⟩,
  ⟨withBoard [(64 + 2 * 23, 1, 2), (8, 4, 0x10), (12, 8, 5)] { links := [(23, { st := .check })] }, 23, _, by decide +kernel, rfl, ⟨6, 2, 23, 0x12,
    0, 0⟩, by decide +kernel⟩,
  ⟨{ State.reset.setLink 23 { st := .training } with tb := { State.reset.tb with ticks := 10000000 } }, 23, _, by decide +kernel, rfl,
    by decide +kernel⟩,
  ⟨{ State.reset.setLink 23 { st := .training } with tb := { State.reset.tb with ticks := 9999999 } }, 23, _, by decide +kernel, rfl,
    by decide +kernel⟩,
  ⟨{ State.reset.setLink 23 { st := .retrain } with tb := { State.reset.tb with ticks := 50000000 } }, 23, _, by decide +kernel, rfl,
    by decide +kernel⟩,
  ⟨{ State.reset.setLink 23 { st := .down, retry := 5 } with tb := { State.reset.tb with ticks := 5 } }, 23, _, by decide +kernel, rfl,
    by decide +kernel⟩,
  ⟨{ State.reset.setLink 23 { st := .down, retry := 5 } with tb := { State.reset.tb with ticks := 4 } }, 23, _, by decide +kernel, rfl,
    by decide +kernel⟩,
  ⟨(State.reset.setLink 23 { st := .up, skew := some 3 }).setReg .seamTbLimit 23 0 0, 23, _, by decide +kernel, rfl, 3, by decide +kernel⟩,
  ⟨State.reset.setLink 23 { st := .up }, 23, _, by decide +kernel, rfl, by decide +kernel⟩⟩

/-- States and operands that meet the hypotheses of `Seam_Traffic`, clause by clause. -/
theorem witness_Seam_Traffic :
    (∃ (s : State) (l q seq : Nat), (s.power.running = true ∧ l < 24 ∧ q < 8 ∧ (s.link l).st = .up ∧ s.power.dstate = .on ∧ linkOn s l = true) ∧
      q = (linkMap s l).1 ∧ ∃ (e : _) (m : SeamMsg), (s.bundle q).seen.find? (fun e => e.1 == seq) = some e ∧ (∀ b, m ≠ .packet b)) ∧
    (∃ (s t : State) (l q seq : Nat), (s.power.running = true ∧ l < 24 ∧ q < 8 ∧ (s.link l).st = .up ∧ s.power.dstate = .on ∧ linkOn s l = true) ∧
      q = (linkMap s l).1 ∧ (s.bundle q).seen.find? (fun e => e.1 == seq) = none ∧ ∃ (ctr : _) (val : _) (tn : _),
      t = (remoteApply 0x204 (fld s.seam.board 8 4 + q) ctr val tn s).1) ∧
    (∃ (s : State) (l q seq : Nat), (s.power.running = true ∧ l < 24 ∧ q < 8 ∧ (s.link l).st = .up ∧ s.power.dstate = .on ∧ linkOn s l = true) ∧
      q = (linkMap s l).1 ∧ (s.bundle q).seen.find? (fun e => e.1 == seq) = none ∧ ∃ (tn : Nat) (a : Nat) (d : Bytes) (st : _),
      seamWriteCheck s tn a d.length = st ∧ st ≠ 0x0000) ∧
    (∃ (s t : State) (l q seq : Nat), (s.power.running = true ∧ l < 24 ∧ q < 8 ∧ (s.link l).st = .up ∧ s.power.dstate = .on ∧ linkOn s l = true) ∧
      q = (linkMap s l).1 ∧ (s.bundle q).seen.find? (fun e => e.1 == seq) = none ∧ ∃ (tn : Nat) (a : Nat) (d : Bytes),
      (seamWriteCheck s tn a d.length = 0x0000 ∧ memWaits s a d.length = false) ∧ writeMem s a d = (t, none)) ∧
    (∃ (s : State) (l q seq : Nat), (s.power.running = true ∧ l < 24 ∧ q < 8 ∧ (s.link l).st = .up ∧ s.power.dstate = .on ∧ linkOn s l = true) ∧
      q = (linkMap s l).1 ∧ (s.bundle q).seen.find? (fun e => e.1 == seq) = none ∧ ∃ (tn : Nat) (a : Nat) (d : Bytes),
      seamWriteCheck s tn a d.length = 0x0000 ∧ memWaits s a d.length = true) ∧
    (∃ (s : State) (l q seq : Nat), (s.power.running = true ∧ l < 24 ∧ q < 8 ∧ (s.link l).st = .up ∧ s.power.dstate = .on ∧ linkOn s l = true) ∧
      q = (linkMap s l).1 ∧ (s.bundle q).seen.find? (fun e => e.1 == seq) = none ∧ ∃ (p : _), contribReady s p = false) ∧
    (∃ (s : State) (l q seq : Nat), (s.power.running = true ∧ l < 24 ∧ q < 8 ∧ (s.link l).st = .up ∧ s.power.dstate = .on ∧ linkOn s l = true) ∧
      q = (linkMap s l).1 ∧ (s.bundle q).seen.find? (fun e => e.1 == seq) = none ∧ ∃ (p : _), contribReady s p = true) ∧
    (∃ (s : State) (l q : Nat), s.power.running = true ∧ l < 24 ∧ q < 8 ∧ (s.link l).st = .up ∧ s.power.dstate = .on ∧ linkOff s l = true) ∧
    (∃ (s t : State) (l q seq : Nat), (s.power.running = true ∧ l < 24 ∧ q < 8) ∧ ∃ (x : SeamTx) (rest : _),
      takeFirst (fun (t : SeamTx) => t.seq == some seq) (s.bundle q).txs = some (x, rest) ∧
      t = bundleGo q (s.setBundle q { s.bundle q with txs := rest, lost := (s.bundle q).lost.filter fun (_, gone, _) => rest.any fun t => t.seq.isSome && t.resent == some gone }) ∧
      ∃ (g : _), x.for_ = .signal g) ∧
    (∃ (s t : State) (l q seq : Nat), (s.power.running = true ∧ l < 24 ∧ q < 8) ∧ ∃ (x : SeamTx) (rest : _),
      takeFirst (fun (t : SeamTx) => t.seq == some seq) (s.bundle q).txs = some (x, rest) ∧
      t = bundleGo q (s.setBundle q { s.bundle q with txs := rest, lost := (s.bundle q).lost.filter fun (_, gone, _) => rest.any fun t => t.seq.isSome && t.resent == some gone }) ∧
      ∃ (id : Nat), x.for_ = .work id) ∧
    (∃ (s : State) (l q : Nat), (s.power.running = true ∧ l < 24 ∧ q < 8) ∧ ∃ (d : _), (s.bundle q).downAt = some d ∧ upLinks s q = [] ∧
      d + 50 * msTicks ≤ s.tb.ticks) ∧
    (∃ (s : State) (l q : Nat), (s.power.running = true ∧ l < 24 ∧ q < 8) ∧ ∃ (d : _), (s.bundle q).downAt = some d ∧ upLinks s q = [] ∧
      s.tb.ticks < d + 50 * msTicks) ∧
    (∃ (s : State) (l q : Nat), (s.power.running = true ∧ l < 24 ∧ q < 8) ∧ ∃ (p : Contrib) (x : Comm), contribReady s p = true ∧
      s.comm (tkey p.tenant p.comm) = some x ∧
      (x.next ≤ p.op ∨ (s.ckpt.colls.any fun j => j.tenant == p.tenant && j.comm == p.comm && j.begun == some p.op) = true) ∧
      (x.parts.any fun y => y.rank == p.rank && y.op == p.op && y.off == p.off) = false) ∧
    (∃ (s t : State) (l q : Nat), (s.power.running = true ∧ l < 24 ∧ q < 8) ∧ ∃ (g : RemoteSig) (rest : _),
      takeFirst (unitWritesDone s) s.sync.remote = some (g, rest) ∧ t = { s with sync := { s.sync with remote := rest } } ∧ ∃ (p : _),
      boardPeer t g.fdid = some p) ∧
    (∃ (s t : State) (l q : Nat), (s.power.running = true ∧ l < 24 ∧ q < 8) ∧ ∃ (g : RemoteSig) (rest : _),
      takeFirst (unitWritesDone s) s.sync.remote = some (g, rest) ∧ t = { s with sync := { s.sync with remote := rest } } ∧
      boardPeer t g.fdid = none) ∧
    (∃ (s : State) (l q : Nat), s.power.running = true ∧ l < 24 ∧ q < 8 ∧ takeFirst (unitWritesDone s) s.sync.remote = none) :=
  ⟨⟨withBoard [(64 + 2 * 23, 1, 2), (8, 4, 0x10), (12, 8, 5)] { links := [(23, { st := .up })], bundles := [(2, { seen := [(9, 0)] })] }, 23, _, 9,
    by decide +kernel, rfl, (9, 0), .ack 9 0, by decide +kernel, fun _ h => by cases h⟩,
  ⟨withBoard [(64 + 2 * 23, 1, 2), (8, 4, 0x10), (12, 8, 5)] { links := [(23, { st := .up })], bundles := [(2, {})] }, _, 23, _, 9,
    by decide +kernel, rfl, by decide +kernel, 0, 0, 0, rfl⟩,
  ⟨withBoard [(64 + 2 * 23, 1, 2), (8, 4, 0x10), (12, 8, 5)] { links := [(23, { st := .up })], bundles := [(2, {})] }, 23, _, 9, by decide +kernel,
    rfl, by decide +kernel, 15, 0x1000, [1], 0x0501, by decide +kernel⟩,
  ⟨{ withBoard [(64 + 2 * 23, 1, 2), (8, 4, 0x10), (12, 8, 5)] { links := [(23, { st := .up })], bundles := [(2, {})] } with own := { State.reset.own with regions := [(0, { base := 0x1000, bytes := 0x1000, rights := 0x40, st := 1, tenant := 15, world := true })] } },
    _, 23, _, 9, by decide +kernel, rfl, by decide +kernel, 15, 0x1FFF, [1], by decide +kernel, wrOk (by decide +kernel)⟩,
  ⟨{ withBoard [(64 + 2 * 23, 1, 2), (8, 4, 0x10), (12, 8, 5)] { links := [(23, { st := .up })], bundles := [(2, {})] } with own := { State.reset.own with fills := [(0, 16)], regions := [(0, { base := 0x1000, bytes := 0x1000, rights := 0x40, st := 1, tenant := 15, world := true })] } },
    23, _, 9, by decide +kernel, rfl, by decide +kernel, 15, 0x1FFF, [1], by decide +kernel⟩,
  ⟨withBoard [(64 + 2 * 23, 1, 2), (8, 4, 0x10), (12, 8, 5)] { links := [(23, { st := .up })], bundles := [(2, {})] }, 23, _, 9, by decide +kernel,
    rfl, by decide +kernel, ⟨15, 255, 1, 0, [], 0, [], []⟩, by decide +kernel⟩,
  ⟨(withBoard [(64 + 2 * 23, 1, 2), (8, 4, 0x10), (12, 8, 5)] { links := [(23, { st := .up })], bundles := [(2, {})] }).setComm (tkey 15 255) (some ⟨2,
    0, 0x1000, 0, [], []⟩), 23, _, 9, by decide +kernel, rfl, by decide +kernel, ⟨15, 255, 1, 0, [], 0, [], []⟩, by decide +kernel⟩,
  ⟨withBoard [(64 + 2 * 23, 1, 128), (8, 4, 0x10), (12, 8, 5)] { links := [(23, { st := .up })], bundles := [(2, {})] }, 23, 2, by decide +kernel⟩,
  ⟨withBoard [(64 + 2 * 23, 1, 2), (8, 4, 0x10), (12, 8, 5)] { links := [(23, { st := .up })], bundles := [(2, { txs := [{ seq := some 9, unit := 0, hash := 0, msg := .signal 5 1 15, for_ := .signal ⟨0, 5, 0x12, 1, 15⟩ }] })] },
    _, 23, 2, 9, by decide +kernel, { seq := some 9, unit := 0, hash := 0, msg := .signal 5 1 15, for_ := .signal ⟨0, 5, 0x12, 1, 15⟩ }, [],
    by decide +kernel, rfl, ⟨0, 5, 0x12, 1, 15⟩, by decide +kernel⟩,
  ⟨withBoard [(64 + 2 * 23, 1, 2), (8, 4, 0x10), (12, 8, 5)] { links := [(23, { st := .up })], bundles := [(2, { txs := [{ seq := some 9, unit := 0, hash := 0, msg := .signal 5 1 15, for_ := .work 1 }] })] },
    _, 23, 2, 9, by decide +kernel, { seq := some 9, unit := 0, hash := 0, msg := .signal 5 1 15, for_ := .work 1 }, [], by decide +kernel, rfl, 1,
    by decide +kernel⟩,
  ⟨{ withBoard [(64 + 2 * 23, 1, 2), (8, 4, 0x10), (12, 8, 5)] { bundles := [(2, { downAt := some 0 })] } with tb := { State.reset.tb with ticks := 50000000 } },
    23, 2, by decide +kernel, 0, by decide +kernel⟩,
  ⟨{ withBoard [(64 + 2 * 23, 1, 2), (8, 4, 0x10), (12, 8, 5)] { bundles := [(2, { downAt := some 0 })] } with tb := { State.reset.tb with ticks := 49999999 } },
    23, 2, by decide +kernel, 0, by decide +kernel⟩,
  ⟨State.reset.setComm (tkey 15 255) (some { ranks := 2, rank := 0, map := 0 }), 23, 2, by decide +kernel, ⟨15, 255, 1, 0, [], 0, [], []⟩,
    { ranks := 2, rank := 0, map := 0 }, by decide +kernel⟩,
  ⟨{ withBoard [(64 + 2 * 23, 1, 2), (8, 4, 0x10), (12, 8, 5)] {} with sync := { remote := [⟨0, 5, 0x12, 1, 15⟩] } }, _, 23, 2, by decide +kernel,
    ⟨0, 5, 0x12, 1, 15⟩, [], by decide +kernel, rfl, 2, by decide +kernel⟩,
  ⟨{ withBoard [(64 + 2 * 23, 1, 2), (8, 4, 0x10), (12, 8, 5)] {} with sync := { remote := [⟨0, 5, 0x30, 1, 15⟩] } }, _, 23, 2, by decide +kernel,
    ⟨0, 5, 0x30, 1, 15⟩, [], by decide +kernel, rfl, by decide +kernel⟩,
  ⟨withBoard [(64 + 2 * 23, 1, 2), (8, 4, 0x10), (12, 8, 5)] {}, 23, 2, by decide +kernel⟩⟩

/-- States and operands that meet the hypotheses of `Net_Commands`, clause by clause. -/
theorem witness_Net_Commands :
    (∃ (s : State) (id : Nat) (c : Cmd), Ready s .portMode id c ∧ portDown s (c.p 0) = true ∧ modeRefused s (c.p 0) (c.p 1) = none) ∧
    (∃ (s : State) (id : Nat) (c : Cmd), Ready s .portMode id c ∧ portDown s (c.p 0) = false) ∧
    (∃ (s : State) (id : Nat) (c : Cmd) (t : Nat), Ready s .portMode id c ∧ portDown s (c.p 0) = true ∧ modeRefused s (c.p 0) (c.p 1) = some t) ∧
    (∃ (s : State) (id : Nat) (c : Cmd), ∃ (d : _) (u : _) (rules : _), Ready s .rulesCommit id c ∧ readMem s (c.p 1) (16 + 64 * c.p 0) = (u,
      .ok d) ∧ rules = (List.range (c.p 0)).map (fun i => slice d (16 + 64 * i) 64) ∧ (strict u c.fn && rulesMulti u rules (fld d 0 1)) = false ∧
      rulesElse u c.fn + c.p 0 ≤ 16384) ∧
    (∃ (s : State) (id : Nat) (c : Cmd), ∃ (d : _) (u : _) (rules : _), Ready s .rulesCommit id c ∧ readMem s (c.p 1) (16 + 64 * c.p 0) = (u,
      .ok d) ∧ rules = (List.range (c.p 0)).map (fun i => slice d (16 + 64 * i) 64) ∧ (strict u c.fn && rulesMulti u rules (fld d 0 1)) = false ∧
      16384 < rulesElse u c.fn + c.p 0) ∧
    (∃ (s : State) (id : Nat) (c : Cmd), ∃ (d : _) (u : _) (rules : _), Ready s .rulesCommit id c ∧ readMem s (c.p 1) (16 + 64 * c.p 0) = (u,
      .ok d) ∧ rules = (List.range (c.p 0)).map (fun i => slice d (16 + 64 * i) 64) ∧ strict u c.fn = true ∧ rulesMulti u rules (fld d 0 1) = true) ∧
    (∃ (s : State) (id : Nat) (t : Nat), ∃ (rules : List Bytes) (slow : _), s.power.running = true ∧ s.net.commits = [⟨id, t, rules, slow⟩] ∧
      strict s t = true ∧ rulesMulti s rules slow = true) ∧
    (∃ (s : State) (id : Nat) (t : Nat), ∃ (rules : List Bytes) (slow : _), s.power.running = true ∧ s.net.commits = [⟨id, t, rules, slow⟩] ∧
      (strict s t && rulesMulti s rules slow) = false ∧ (s.net.sets.map (·.rules.length)).sum + rules.length ≤ 32768) ∧
    (∃ (s : State) (id : Nat) (t : Nat), ∃ (rules : List Bytes) (slow : _), s.power.running = true ∧ s.net.commits = [⟨id, t, rules, slow⟩] ∧
      (strict s t && rulesMulti s rules slow) = false ∧ 32768 < (s.net.sets.map (·.rules.length)).sum + rules.length) ∧
    (∃ (s : State) (id : Nat) (c : Cmd), ∃ (d : _) (r : _), Ready s .patternsLoad id c ∧ readMem s (c.p 2) (64 * c.p 1) = (r, .ok d)) ∧
    (∃ (s : State) (id : Nat) (c : Cmd) (st : Nat), Ready s .streamOpen id c ∧ st = c.p 0 ∧ (s.stream st).isOpen = false) ∧
    (∃ (s : State) (id : Nat) (c : Cmd) (st : Nat), Ready s .streamOpen id c ∧ st = c.p 0 ∧ (s.stream st).isOpen = true) ∧
    (∃ (s : State) (id : Nat) (c : Cmd) (st : Nat), Ready s .streamClose id c ∧ st = c.p 0 ∧ (s.stream st).isOpen = true ∧
      (s.stream st).held = false ∧ (s.stream st).recs = 0) ∧
    (∃ (s : State) (id : Nat) (c : Cmd), Ready s .policerSet id c) ∧
    (∃ (s : State) (id : Nat) (c : Cmd), Ready s .shaperSet id c) ∧
    (∃ (s : State) (id : Nat) (c : Cmd), ∃ (d : _) (r : _) (u : State), Ready s .gatesLoad id c ∧ readMem s (c.p 2) (8 * c.p 1) = (r, .ok d) ∧
      u = r.setMac (c.p 0) { r.mac (c.p 0) with pend := some ⟨gateEntries d (c.p 1), c.p 3⟩ }) ∧
    (∃ (s : State), ∃ (who k : Nat) (val : Word), s.power.running = true ∧ (who = 16 ∨ who = 17) ∧ tget 0 s.own.devs 0x0C ≠ 0 ∧ k < 4096 ∧
      val.toNat % 32 ≠ s.reg .prsTmap 0 k) ∧
    (∃ (s : State), ∃ (who k : Nat) (val : Word), s.power.running = true ∧ (who = 16 ∨ who = 17) ∧ tget 0 s.own.devs 0x0C ≠ 0 ∧ k < 4096 ∧
      val.toNat % 32 = s.reg .prsTmap 0 k) ∧
    (∃ (s : State), ∃ (who k : Nat), s.power.running = true ∧ (who = 16 ∨ who = 17) ∧ tget 0 s.own.devs 0x0C ≠ 0 ∧ ∃ (w : Nat), k < 64 ∧ 0 < w ∧
      w < 10 ∧ bit (s.reg .prsProfile0 0 k) 27 = true) ∧
    (∃ (s : State), ∃ (who k : Nat) (val : Word), s.power.running = true ∧ (who = 16 ∨ who = 17) ∧ tget 0 s.own.devs 0x0C ≠ 0 ∧ k < 64 ∧
      bit (s.reg .prsProfile0 0 k) 27 = false ∧ val.toNat % 65536 ≠ s.reg .prsProfile1 0 k) ∧
    (∃ (s : State) (t : Nat), ∃ (k : Nat), s.power.running = true ∧ t < 16 ∧ tget 0 s.own.devs 0x0C ≠ 0 ∧ k < 4128) ∧
    (∃ (s : State) (t : Nat), ∃ (k : Nat), (s.power.running = true ∧ t < 16 ∧ tget 0 s.own.devs 0x0C ≠ 0) ∧ ∃ (w : Nat), k < 64 ∧ w < 10) ∧
    (∃ (s : State) (t m : Nat), s.power.running = true ∧ t < 16 ∧ tget 0 s.own.devs 0x0C ≠ 0 ∧ m < 8) :=
  ⟨⟨having (cmdOf .portMode 16 [7, 2]) (State.reset), 1, cmdOf .portMode 16 [7, 2], rdy (by decide +kernel), by decide +kernel⟩,
  ⟨having (cmdOf .portMode 16 [7, 2]) (State.reset.setReg .ethCtrl 7 0 1), 1, cmdOf .portMode 16 [7, 2], rdy (by decide +kernel), by decide +kernel⟩,
  ⟨having (cmdOf .portMode 16 [7, 2]) ((ruled [⟨0, 1, [rec_ 64 [(1, 1, 0x80), (2, 1, 1), (4, 2, 1)]], 0, [], none⟩]).setReg .detCtrl 0 0 1), 1,
    cmdOf .portMode 16 [7, 2], 0, rdy (by decide +kernel), by decide +kernel⟩,
  ⟨having (cmdOf .rulesCommit 15 [1, 0x1000]) State.reset, 1, cmdOf .rulesCommit 15 [1, 0x1000],
    okBytes (readMem (having (cmdOf .rulesCommit 15 [1, 0x1000]) State.reset) 0x1000 80).2, _, _, rdy (by decide +kernel), okIs (by decide +kernel),
    rfl, by decide +kernel⟩,
  ⟨having (cmdOf .rulesCommit 15 [1, 0x1000]) (ruled ((List.range 15).map fun k => ⟨k, 1, List.replicate 1093 [], 0, [], none⟩)), 1,
    cmdOf .rulesCommit 15 [1, 0x1000], okBytes (readMem (having (cmdOf .rulesCommit 15 [1, 0x1000]) State.reset) 0x1000 80).2, _, _,
    rdy (by decide +kernel), okIs (by decide +kernel), rfl, by decide +kernel⟩,
  ⟨having (cmdOf .rulesCommit 15 [1, 0x1000]) ((table355.setReg .detCtrl 0 15 1).setReg .ethSts 7 0 2), 1, cmdOf .rulesCommit 15 [1, 0x1000],
    okBytes (readMem table355 0x1000 80).2, _, _, rdy (by decide +kernel), okIs (by decide +kernel), rfl, by decide +kernel⟩,
  ⟨{ (State.reset.setReg .detCtrl 0 15 1).setReg .ethSts 7 0 2 with net := { State.reset.net with commits := [⟨1, 15, [rec_ 64 [(1, 1, 0x80), (2, 1, 1), (4, 2, 1)]], 0⟩] } },
    1, 15, [rec_ 64 [(1, 1, 0x80), (2, 1, 1), (4, 2, 1)]], 0, by decide +kernel⟩,
  ⟨{ State.reset with net := { State.reset.net with commits := [⟨1, 15, [[]], 0⟩] } }, 1, 15, [[]], 0, by decide +kernel⟩,
  ⟨{ ruled ((List.range 31).map fun k => ⟨k, 1, List.replicate 1058 [], 0, [], none⟩) with net := { (ruled ((List.range 31).map fun k => ⟨k, 1, List.replicate 1058 [], 0, [], none⟩)).net with commits := [⟨1, 15, [[]], 0⟩] } },
    1, 15, [[]], 0, by decide +kernel⟩,
  ⟨having (cmdOf .patternsLoad 15 [255, 1, 0x1000]) State.reset, 1, cmdOf .patternsLoad 15 [255, 1, 0x1000],
    okBytes (readMem (having (cmdOf .patternsLoad 15 [255, 1, 0x1000]) State.reset) 0x1000 64).2, _, rdy (by decide +kernel),
    okIs (by decide +kernel)⟩,
  ⟨having (cmdOf .streamOpen 15 [255, 255, 0x1000, 0x1000]) (State.reset), 1, cmdOf .streamOpen 15 [255, 255, 0x1000, 0x1000], _,
    rdy (by decide +kernel), rfl, by decide +kernel⟩,
  ⟨having (cmdOf .streamOpen 15 [255, 255, 0x1000, 0x1000]) (State.reset.setStream 255 { isOpen := true }), 1,
    cmdOf .streamOpen 15 [255, 255, 0x1000, 0x1000], _, rdy (by decide +kernel), rfl, by decide +kernel⟩,
  ⟨having (cmdOf .streamClose 15 [255]) (State.reset.setStream 255 { isOpen := true }), 1, cmdOf .streamClose 15 [255], _, rdy (by decide +kernel),
    rfl, by decide +kernel⟩,
  ⟨having (cmdOf .policerSet 16 [15, 1, 0, 1, 1]) State.reset, 1, cmdOf .policerSet 16 [15, 1, 0, 1, 1], rdy (by decide +kernel)⟩,
  ⟨having (cmdOf .shaperSet 15 [31, 7, 1, 1]) State.reset, 1, cmdOf .shaperSet 15 [31, 7, 1, 1], rdy (by decide +kernel)⟩,
  ⟨having (cmdOf .gatesLoad 16 [31, 1, 0x1000, 5]) State.reset, 1, cmdOf .gatesLoad 16 [31, 1, 0x1000, 5],
    okBytes (readMem (having (cmdOf .gatesLoad 16 [31, 1, 0x1000, 5]) State.reset) 0x1000 8).2, _, _, rdy (by decide +kernel),
    okIs (by decide +kernel), rfl⟩,
  ⟨{ State.reset with own := { State.reset.own with devs := [(0x0C, 1)] } }, 17, 4095, 0x1F, by decide +kernel, .inr rfl, by decide +kernel⟩,
  ⟨{ State.reset with own := { State.reset.own with devs := [(0x0C, 1)] } }, 16, 4095, 0, by decide +kernel, .inl rfl, by decide +kernel⟩,
  ⟨({ State.reset with own := { State.reset.own with devs := [(0x0C, 1)] } }).setReg .prsProfile0 0 63 0x8000000, 16, 63, by decide +kernel,
    .inl rfl, by decide +kernel, 9, by decide +kernel⟩,
  ⟨{ State.reset with own := { State.reset.own with devs := [(0x0C, 1)] } }, 16, 63, 1, by decide +kernel, .inl rfl, by decide +kernel⟩,
  ⟨{ State.reset with own := { State.reset.own with devs := [(0x0C, 1)] } }, 15, 4127, by decide +kernel⟩,
  ⟨{ State.reset with own := { State.reset.own with devs := [(0x0C, 1)] } }, 15, 63, by decide +kernel, 9, by decide +kernel⟩,
  ⟨{ State.reset with own := { State.reset.own with devs := [(0x0C, 1)] } }, 15, 7, by decide +kernel⟩⟩

/-- States and operands that meet the hypotheses of `Net_Reception`, clause by clause. -/
theorem witness_Net_Reception :
    (∃ (s : State) (m : Nat), s.power.running = true ∧ m < 32 ∧ macOn s m = true ∧ bit (s.reg .ethSts (m / 4)) 6 = true) ∧
    (∃ (s : State) (m : Nat), s.power.running = true ∧ m < 32 ∧ macOn s m = false) ∧
    (∃ (s : State) (m : Nat), s.power.running = true ∧ m < 32 ∧ bit (s.reg .ethSts (m / 4)) (2 + m % 4) = true) ∧
    (∃ (s u : State) (m : Nat), (s.power.running = true ∧ m < 32) ∧ ∃ (val : Word), (m < 8 ∧ portMode s m = 0 ∧ s.reg .ethCtrl m % 16 = 0 ∧
      bit val.toNat 0 = true ∧ bits val.toNat 29 16 = 1518) ∧
      u = (s.setReg .ethCtrl m 0 (val.toNat % 16 + bits val.toNat 15 8 * 256 + 1518 * 65536)).setField .ethSts m 0 5 2 (bits (s.reg .ethSts m) 5 2 &&& 1)) ∧
    (∃ (s : State) (m : Nat), s.power.running = true ∧ m < 32 ∧ macUp s m = false) ∧
    (∃ (s : State) (m : Nat), (s.power.running = true ∧ m < 32) ∧ ∃ (f : Bytes), macUp s m = true ∧
      (f.length < 64 ∨ maxFrame s (m / 4) < f.length ∨ leNat (f.drop (f.length - 4)) ≠ crc32 (f.take (f.length - 4)))) ∧
    (∃ (s : State) (m : Nat), (s.power.running = true ∧ m < 32) ∧ ∃ (f : Bytes) (g : Bytes), (macUp s m = true ∧ 64 ≤ f.length ∧
      f.length ≤ maxFrame s (m / 4)) ∧ g = f.take (f.length - 4) ∧ leNat (f.drop (f.length - 4)) = crc32 g ∧ be16 g 12 = 0x8808 ∧ be16 g 14 = 1) ∧
    (∃ (s : State) (m : Nat), (s.power.running = true ∧ m < 32) ∧ ∃ (f : Bytes) (g : Bytes), (macUp s m = true ∧ 64 ≤ f.length ∧
      f.length ≤ maxFrame s (m / 4)) ∧ g = f.take (f.length - 4) ∧ leNat (f.drop (f.length - 4)) = crc32 g ∧ be16 g 12 = 0x8808 ∧
      be16 g 14 = 0x0101) ∧
    (∃ (s : State) (m : Nat), (s.power.running = true ∧ m < 32) ∧ ∃ (f : Bytes) (g : Bytes), (macUp s m = true ∧ 64 ≤ f.length ∧
      f.length ≤ maxFrame s (m / 4)) ∧ g = f.take (f.length - 4) ∧ leNat (f.drop (f.length - 4)) = crc32 g ∧ be16 g 12 ≠ 0x8808 ∧
      isPtp (parse g) = true) ∧
    (∃ (s : State) (m : Nat), (s.power.running = true ∧ m < 32) ∧ ∃ (f : Bytes) (g : Bytes), (macUp s m = true ∧ 64 ≤ f.length ∧
      f.length ≤ maxFrame s (m / 4)) ∧ g = f.take (f.length - 4) ∧ leNat (f.drop (f.length - 4)) = crc32 g ∧ be16 g 12 ≠ 0x8808 ∧
      isPtp (parse g) = false ∧ (parse g).dport = some (s.reg .ftUdpPort % 65536) ∧ occupancy s m (frameClass g) + g.length ≤ classShare s m) ∧
    (∃ (s : State) (m : Nat), (s.power.running = true ∧ m < 32) ∧ ∃ (f : Bytes) (g : Bytes), (macUp s m = true ∧ 64 ≤ f.length ∧
      f.length ≤ maxFrame s (m / 4)) ∧ g = f.take (f.length - 4) ∧ leNat (f.drop (f.length - 4)) = crc32 g ∧ be16 g 12 ≠ 0x8808 ∧
      isPtp (parse g) = false ∧ (parse g).dport = some (s.reg .ftUdpPort % 65536) ∧ classShare s m < occupancy s m (frameClass g) + g.length) ∧
    (∃ (s : State) (m : Nat), (s.power.running = true ∧ m < 32) ∧ ∃ (f : Bytes) (g : Bytes), (macUp s m = true ∧ 64 ≤ f.length ∧
      f.length ≤ maxFrame s (m / 4)) ∧ g = f.take (f.length - 4) ∧ leNat (f.drop (f.length - 4)) = crc32 g ∧ be16 g 12 ≠ 0x8808 ∧
      isPtp (parse g) = false ∧ (parse g).dport ≠ some (s.reg .ftUdpPort % 65536) ∧ mapTenant s m g = none) ∧
    (∃ (s u : State) (m : Nat), (s.power.running = true ∧ m < 32) ∧ ∃ (f : Bytes) (g : Bytes), (macUp s m = true ∧ 64 ≤ f.length ∧
      f.length ≤ maxFrame s (m / 4)) ∧ g = f.take (f.length - 4) ∧ (leNat (f.drop (f.length - 4)) = crc32 g ∧ be16 g 12 ≠ 0x8808 ∧
      isPtp (parse g) = false ∧ (parse g).dport ≠ some (s.reg .ftUdpPort % 65536)) ∧ ∃ (t : _), mapTenant s m g = some t ∧ police t g s = (u, 2)) ∧
    (∃ (s u : State) (m : Nat), (s.power.running = true ∧ m < 32) ∧ ∃ (f : Bytes) (g : Bytes), (macUp s m = true ∧ 64 ≤ f.length ∧
      f.length ≤ maxFrame s (m / 4)) ∧ g = f.take (f.length - 4) ∧ (leNat (f.drop (f.length - 4)) = crc32 g ∧ be16 g 12 ≠ 0x8808 ∧
      isPtp (parse g) = false ∧ (parse g).dport ≠ some (s.reg .ftUdpPort % 65536)) ∧ ∃ (t : _), mapTenant s m g = some t ∧ ∃ (col : _),
      police t g s = (u, col) ∧ col ≠ 2 ∧ occupancy u m (frameClass g) + g.length ≤ classShare u m ∧
      (col = 1 → 4 * occupancy u m (frameClass g) ≤ 3 * classShare u m)) ∧
    (∃ (s u : State) (m : Nat), (s.power.running = true ∧ m < 32) ∧ ∃ (f : Bytes) (g : Bytes), (macUp s m = true ∧ 64 ≤ f.length ∧
      f.length ≤ maxFrame s (m / 4)) ∧ g = f.take (f.length - 4) ∧ (leNat (f.drop (f.length - 4)) = crc32 g ∧ be16 g 12 ≠ 0x8808 ∧
      isPtp (parse g) = false ∧ (parse g).dport ≠ some (s.reg .ftUdpPort % 65536)) ∧ ∃ (t : _), mapTenant s m g = some t ∧ ∃ (col : _),
      police t g s = (u, col) ∧ col ≠ 2 ∧ (classShare u m < occupancy u m (frameClass g) + g.length ∨ (col = 1 ∧
      3 * classShare u m < 4 * occupancy u m (frameClass g)))) ∧
    (∃ (s : State) (m : Nat), s.power.running = true ∧ m < 32 ∧ s.tb.ticks < s.net.polDue) ∧
    (∃ (s : State) (m : Nat), (s.power.running = true ∧ m < 32) ∧ ∃ (t : _) (x : _) (off : _), (s.net.polDue ≤ s.tb.ticks ∧
      s.net.policers = [(t, x)]) ∧ off = (x.c.rate == 0 && x.p.rate == 0)) :=
  ⟨⟨((State.reset.setReg .ethCtrl 7 0 (1 + 1518 * 65536)).setReg .ethSts 7 0 0x40), 28, by decide +kernel⟩,
  ⟨State.reset, 28, by decide +kernel⟩,
  ⟨((State.reset.setReg .ethCtrl 7 0 (1 + 1518 * 65536)).setReg .ethSts 7 0 0x44), 28, by decide +kernel⟩,
  ⟨State.reset, _, 7, by decide +kernel, (1 + 1518 * 65536 : Nat), by decide +kernel, rfl⟩,
  ⟨State.reset, 28, by decide +kernel⟩,
  ⟨((State.reset.setReg .ethCtrl 7 0 (1 + 1518 * 65536)).setReg .ethSts 7 0 0x44), 28, by decide +kernel, zeros 63, by decide +kernel,
    .inl (by decide +kernel)⟩,
  ⟨((State.reset.setReg .ethCtrl 7 0 (1 + 1518 * 65536)).setReg .ethSts 7 0 0x44), 28, by decide +kernel,
    withFcs_ (rec_ 60 [(12, 2, 0x0888), (14, 2, 0x0100)]), _, by decide +kernel, rfl, by decide +kernel⟩,
  ⟨((State.reset.setReg .ethCtrl 7 0 (1 + 1518 * 65536)).setReg .ethSts 7 0 0x44), 28, by decide +kernel,
    withFcs_ (rec_ 60 [(12, 2, 0x0888), (14, 2, 0x0101)]), _, by decide +kernel, rfl, by decide +kernel⟩,
  ⟨((State.reset.setReg .ethCtrl 7 0 (1 + 1518 * 65536)).setReg .ethSts 7 0 0x44), 28, by decide +kernel,
    (rec_ 60 [(12, 2, 0xF788)] ++ leBytes 4 (crc32 (rec_ 60 [(12, 2, 0xF788)]))), _, by decide +kernel, rfl, by decide +kernel⟩,
  ⟨((State.reset.setReg .ethCtrl 7 0 (1 + 1518 * 65536)).setReg .ethSts 7 0 0x44), 28, by decide +kernel,
    withFcs_ (rec_ 60 [(12, 2, 8), (14, 1, 0x45), (23, 1, 17), (36, 2, 0x7B1C)]), _, by decide +kernel, rfl, by decide +kernel⟩,
  ⟨{ ((State.reset.setReg .ethCtrl 7 0 (1 + 1518 * 65536)).setReg .ethSts 7 0 0x44).setReg .ethSts 7 0 0x46 with net := { State.reset.net with frames := List.replicate 132 { mac := 28, bytes := zeros 1000, time := 0, cls := 0 } } },
    28, by decide +kernel, withFcs_ (rec_ 60 [(12, 2, 8), (14, 1, 0x45), (23, 1, 17), (36, 2, 0x7B1C)]), _, by decide +kernel, rfl,
    by decide +kernel⟩,
  ⟨((State.reset.setReg .ethCtrl 7 0 (1 + 1518 * 65536)).setReg .ethSts 7 0 0x44), 28, by decide +kernel,
    (rec_ 60 [(12, 2, 1)] ++ leBytes 4 (crc32 (rec_ 60 [(12, 2, 1)]))), _, by decide +kernel, rfl, by decide +kernel⟩,
  ⟨((((State.reset.setReg .ethCtrl 7 0 (1 + 1518 * 65536)).setReg .ethSts 7 0 0x44).setReg .prsUntagged 0 28 0x1F).setPolicer 15 { c := { rate := 1 }, p := { rate := 1 } }),
    _, 28, by decide +kernel, (rec_ 60 [(12, 2, 1)] ++ leBytes 4 (crc32 (rec_ 60 [(12, 2, 1)]))), _, by decide +kernel, rfl, by decide +kernel, 15,
    by decide +kernel, brIs (by decide +kernel)⟩,
  ⟨(((State.reset.setReg .ethCtrl 7 0 (1 + 1518 * 65536)).setReg .ethSts 7 0 0x44).setReg .prsUntagged 0 28 0x1F), _, 28, by decide +kernel,
    (rec_ 60 [(12, 2, 1)] ++ leBytes 4 (crc32 (rec_ 60 [(12, 2, 1)]))), _, by decide +kernel, rfl, by decide +kernel, 15, by decide +kernel, _, rfl,
    by decide +kernel⟩,
  ⟨{ ((((State.reset.setReg .ethCtrl 7 0 (1 + 1518 * 65536)).setReg .ethSts 7 0 0x44).setReg .ethSts 7 0 0x46).setReg .prsUntagged 0 28 0x1F) with net := { State.reset.net with frames := List.replicate 132 { mac := 28, bytes := zeros 1000, time := 0, cls := 0 } } },
    _, 28, by decide +kernel, (rec_ 60 [(12, 2, 1)] ++ leBytes 4 (crc32 (rec_ 60 [(12, 2, 1)]))), _, by decide +kernel, rfl, by decide +kernel, 15,
    by decide +kernel, _, rfl, by decide +kernel⟩,
  ⟨{ State.reset with net := { State.reset.net with polDue := 1 } }, 28, by decide +kernel⟩,
  ⟨State.reset.setPolicer 15 { aware := true }, 28, by decide +kernel, 15, { aware := true }, _, by decide +kernel, rfl⟩⟩

/-- States and operands that meet the hypotheses of `Net_Frames`, clause by clause. -/
theorem witness_Net_Frames :
    (∃ (s u : State) (m st t : Nat) (f : Frame) (rest : List Frame), (s.power.running = true ∧ m < 32 ∧ st < 256 ∧
      takeFirst (fun f => !f.piped) s.net.frames = some (f, rest) ∧ (s.net.frames.filter inPipes).length < 1024 ∧ f.ft = false ∧
      mapTenant s f.mac f.bytes = some t) ∧
      u = { s with net := { s.net with frames := rest ++ [{ f with piped := true, version := s.reg .prsVersion, tenant := t, profile := (judge s t f.mac f.bytes).1, verdict := (judge s t f.mac f.bytes).2 }], pipe := (s.net.pipe + 1) % 8 } }) ∧
    (∃ (s u : State) (m st : Nat) (f : Frame) (rest : List Frame), (s.power.running = true ∧ m < 32 ∧ st < 256 ∧
      takeFirst (fun f => !f.piped) s.net.frames = some (f, rest) ∧ (s.net.frames.filter inPipes).length < 1024 ∧ f.ft = true) ∧
      u = { s with net := { s.net with frames := rest ++ [{ f with piped := true, version := s.reg .prsVersion, tenant := 0, profile := 0xFF, verdict := .transport }], pipe := (s.net.pipe + 1) % 8 } }) ∧
    (∃ (s : State) (m st : Nat), s.power.running = true ∧ m < 32 ∧ st < 256 ∧ 1024 ≤ (s.net.frames.filter inPipes).length) ∧
    (∃ (s u : State) (m st : Nat) (f : Frame) (rest : List Frame), (s.power.running = true ∧ m < 32 ∧ st < 256 ∧
      takeFirst (fun f => f.mac == m && inPipes f) s.net.frames = some (f, rest)) ∧ u = { s with net := { s.net with frames := rest } } ∧
      f.verdict = .transport) ∧
    (∃ (s u : State) (m st : Nat) (f : Frame) (rest : List Frame), (s.power.running = true ∧ m < 32 ∧ st < 256 ∧
      takeFirst (fun f => f.mac == m && inPipes f) s.net.frames = some (f, rest)) ∧ u = { s with net := { s.net with frames := rest } } ∧
      f.verdict = .noTenant) ∧
    (∃ (s u : State) (m st : Nat) (f : Frame) (rest : List Frame), (s.power.running = true ∧ m < 32 ∧ st < 256 ∧
      takeFirst (fun f => f.mac == m && inPipes f) s.net.frames = some (f, rest)) ∧ u = { s with net := { s.net with frames := rest } } ∧
      f.verdict = .noMatch) ∧
    (∃ (s u : State) (m st : Nat) (f : Frame) (rest : List Frame), (s.power.running = true ∧ m < 32 ∧ st < 256 ∧
      takeFirst (fun f => f.mac == m && inPipes f) s.net.frames = some (f, rest)) ∧ u = { s with net := { s.net with frames := rest } } ∧
      f.verdict = .drop) ∧
    (∃ (s u : State) (m st : Nat) (f : Frame) (rest : List Frame), (s.power.running = true ∧ m < 32 ∧ st < 256 ∧
      takeFirst (fun f => f.mac == m && inPipes f) s.net.frames = some (f, rest)) ∧ u = { s with net := { s.net with frames := rest } } ∧
      ∃ (k : Nat) (rule : Nat), f.verdict = .queue k rule) ∧
    (∃ (s u : State) (m st : Nat) (f : Frame) (rest : List Frame), (s.power.running = true ∧ m < 32 ∧ st < 256 ∧
      takeFirst (fun f => f.mac == m && inPipes f) s.net.frames = some (f, rest)) ∧ u = { s with net := { s.net with frames := rest } } ∧
      ∃ (cause : Nat) (rule : Nat), f.verdict = .slow cause rule ∧ cause ≠ 7) ∧
    (∃ (s u : State) (m st : Nat) (f : Frame) (rest : List Frame), (s.power.running = true ∧ m < 32 ∧ st < 256 ∧
      takeFirst (fun f => f.mac == m && inPipes f) s.net.frames = some (f, rest)) ∧ u = { s with net := { s.net with frames := rest } } ∧
      ∃ (rule : Nat), f.verdict = .slow 7 rule) ∧
    (∃ (s u : State) (m st : Nat) (f : Frame) (rest : List Frame), (s.power.running = true ∧ m < 32 ∧ st < 256 ∧
      takeFirst (fun f => f.mac == m && inPipes f) s.net.frames = some (f, rest)) ∧ u = { s with net := { s.net with frames := rest } } ∧
      ∃ (x : Nat) (rule : Nat), f.verdict = .stream x rule ∧ (s.stream x).isOpen = true) ∧
    (∃ (s u : State) (m st : Nat) (f : Frame) (rest : List Frame), (s.power.running = true ∧ m < 32 ∧ st < 256 ∧
      takeFirst (fun f => f.mac == m && inPipes f) s.net.frames = some (f, rest)) ∧ u = { s with net := { s.net with frames := rest } } ∧
      ∃ (x : Nat) (rule : Nat), f.verdict = .stream x rule ∧ (s.stream x).isOpen = false) ∧
    (∃ (s : State) (m st t : Nat) (f : Frame) (rest : List Frame), (s.power.running = true ∧ m < 32 ∧ st < 256) ∧ ∃ (x : Stream) (pay : _),
      takeFirst (frameWaits st) s.net.frames = some (f, rest) ∧ x = s.stream st ∧ (x.owner = some t ∧ x.isOpen = true ∧ x.held = false ∧
      x.closing = none) ∧ pay = f.bytes.drop ((parse f.bytes).p.getD 0) ∧ permits s (tenReq t 0x213) x.dst x.bytes true = true ∧
      s.reg .strmConsumed 0 st + x.bytes < s.reg .strmOffset 0 st + pay.length) ∧
    (∃ (s u : State) (m st t : Nat) (f : Frame) (rest : List Frame), (s.power.running = true ∧ m < 32 ∧ st < 256) ∧ ∃ (x : Stream) (pay : _),
      takeFirst (frameWaits st) s.net.frames = some (f, rest) ∧ x = s.stream st ∧ (x.owner = some t ∧ x.isOpen = true ∧ x.held = false ∧
      x.closing = none) ∧ pay = f.bytes.drop ((parse f.bytes).p.getD 0) ∧ (permits s (tenReq t 0x213) x.dst x.bytes true = true ∧
      s.reg .strmOffset 0 st + pay.length ≤ s.reg .strmConsumed 0 st + x.bytes) ∧ ∃ (v : _), v = { s with net := { s.net with frames := rest } } ∧
      u = ringWrite x.dst x.bytes (s.reg .strmOffset 0 st) pay (if streamMulti v st then varCount t none v else v)) ∧
    (∃ (s : State) (m st t : Nat) (f : Frame) (rest : List Frame), (s.power.running = true ∧ m < 32 ∧ st < 256) ∧ ∃ (x : Stream) (pay : _),
      takeFirst (frameWaits st) s.net.frames = some (f, rest) ∧ x = s.stream st ∧ (x.owner = some t ∧ x.isOpen = true ∧ x.held = false ∧
      x.closing = none) ∧ pay = f.bytes.drop ((parse f.bytes).p.getD 0) ∧ permits s (tenReq t 0x213) x.dst x.bytes true = false ∧
      tableUe s (tenReq t 0x213) x.dst x.bytes = false) ∧
    (∃ (s u : State) (m st t : Nat), (s.power.running = true ∧ m < 32 ∧ st < 256 ∧ (s.stream st).owner = some t ∧ 0 < (s.stream st).recs) ∧
      u = (s.setStream st { s.stream st with recs := (s.stream st).recs - 1 }).count .strmRecords 0 st 1 ∧ bits (s.reg .strmSync 0 st) 31 24 = 0 ∧
      (s.stream st).closing = none) ∧
    (∃ (s : State) (m st : Nat), (s.power.running = true ∧ m < 32 ∧ st < 256) ∧ ∃ (who : Nat) (val : BitVec 64), who < 19 ∧
      tget 0 s.own.devs 0x0C ≠ 0 ∧ (16 ≤ who ∨ (s.stream st).owner = some who) ∧ s.reg .strmConsumed 0 st ≤ val.toNat ∧
      val.toNat ≤ s.reg .strmOffset 0 st) ∧
    (∃ (s : State) (m st : Nat), (s.power.running = true ∧ m < 32 ∧ st < 256) ∧ ∃ (who : Nat) (val : BitVec 64), (who < 19 ∧
      tget 0 s.own.devs 0x0C ≠ 0 ∧ (16 ≤ who ∨ (s.stream st).owner = some who)) ∧
      (val.toNat < s.reg .strmConsumed 0 st ∨ s.reg .strmOffset 0 st < val.toNat)) ∧
    (∃ (s : State) (m st : Nat), (s.power.running = true ∧ m < 32 ∧ st < 256) ∧ ∃ (who : Nat), who < 19 ∧ tget 0 s.own.devs 0x0C ≠ 0 ∧ who < 16 ∧
      (s.stream st).owner ≠ some who) ∧
    (∃ (s : State) (m st : Nat), s.power.running = true ∧ m < 32 ∧ st < 256 ∧ (∀ g, g ∈ s.net.frames → inPipes g = false)) ∧
    (∃ (s : State) (m st : Nat), (s.power.running = true ∧ m < 32 ∧ st < 256) ∧ ∃ (g : GateL), (s.mac m).gates = some g) ∧
    (∃ (s : State) (m st : Nat), s.power.running = true ∧ m < 32 ∧ st < 256 ∧ (s.mac m).gates = none) ∧
    (∃ (s : State) (m st : Nat), s.power.running = true ∧ m < 32 ∧ st < 256 ∧ s.tb.ticks < (s.mac m).due) ∧
    (∃ (s : State) (m st : Nat), (s.power.running = true ∧ m < 32 ∧ st < 256) ∧ ∃ (q : _) (b : Bucket), (s.mac m).due ≤ s.tb.ticks ∧
      (s.mac m).qb = [(q, b)] ∧ b.next = none ∧ b.rate = 0 ∧ b.level ≠ (b.burst * 8000000 : Nat)) ∧
    (∃ (s : State) (m st : Nat), s.power.running = true ∧ m < 32 ∧ st < 256 ∧ macUp s m = true ∧ (List.range 128).any (eligible s m) = false) ∧
    (∃ (s : State) (m st : Nat), s.power.running = true ∧ m < 32 ∧ st < 256 ∧ macUp s m = false) ∧
    (∃ (s : State) (m st : Nat), (s.power.running = true ∧ m < 32 ∧ st < 256) ∧ ∃ (x : Mac) (q : Nat) (d : Tbl Nat) (n : _) (v : _) (w : _),
      x = s.mac m ∧ (macUp s m = true ∧ (List.range 128).any (eligible s m) = true ∧ drr s m 32768 x.ptr x.visit x.deficit = some (q, d) ∧
      headLen s m q = some n) ∧
      v = s.setMac m { x with ptr := q, visit := true, deficit := tput 0 d q (tget 0 d q - n), qb := tput {} x.qb q { tget {} x.qb q with level := (tget {} x.qb q).level - (((n + 20) * 8000000 : Nat) : Int) }, cb := tput {} x.cb (q / 16) { tget {} x.cb (q / 16) with level := (tget {} x.cb (q / 16)).level - (((n + 20) * 8000000 : Nat) : Int) } } ∧
      ((tget [] s.net.txq (m * 128 + q) = [] ∧ w = txDequeue m q v) ∨ (∃ fr more, tget [] s.net.txq (m * 128 + q) = fr :: more ∧
      w = { v with wire := .frame m (withFcs fr) :: v.wire, net := { v.net with txq := tput [] v.net.txq (m * 128 + q) more } })) ∧
      headLen w m q ≠ none) ∧
    (∃ (s : State) (m st : Nat), (s.power.running = true ∧ m < 32 ∧ st < 256) ∧ ∃ (x : Mac) (q : Nat) (d : Tbl Nat) (n : _) (v : _) (w : _),
      x = s.mac m ∧ (macUp s m = true ∧ (List.range 128).any (eligible s m) = true ∧ drr s m 32768 x.ptr x.visit x.deficit = some (q, d) ∧
      headLen s m q = some n) ∧
      v = s.setMac m { x with ptr := q, visit := true, deficit := tput 0 d q (tget 0 d q - n), qb := tput {} x.qb q { tget {} x.qb q with level := (tget {} x.qb q).level - (((n + 20) * 8000000 : Nat) : Int) }, cb := tput {} x.cb (q / 16) { tget {} x.cb (q / 16) with level := (tget {} x.cb (q / 16)).level - (((n + 20) * 8000000 : Nat) : Int) } } ∧
      ((tget [] s.net.txq (m * 128 + q) = [] ∧ w = txDequeue m q v) ∨ (∃ fr more, tget [] s.net.txq (m * 128 + q) = fr :: more ∧
      w = { v with wire := .frame m (withFcs fr) :: v.wire, net := { v.net with txq := tput [] v.net.txq (m * 128 + q) more } })) ∧
      headLen w m q = none) :=
  ⟨⟨{ State.reset.setReg .prsUntagged 0 31 0x1F with net := { State.reset.net with frames := [{ mac := 31, bytes := zeros 60, time := 0, cls := 0 }], pipe := 7 } },
    _, 31, 255, 15, { mac := 31, bytes := zeros 60, time := 0, cls := 0 }, [], by decide +kernel, rfl⟩,
  ⟨{ State.reset with net := { State.reset.net with frames := [{ mac := 31, bytes := zeros 60, time := 0, cls := 0, ft := true }], pipe := 7 } }, _,
    31, 255, { mac := 31, bytes := zeros 60, time := 0, cls := 0, ft := true }, [], by decide +kernel, rfl⟩,
  ⟨{ State.reset with net := { State.reset.net with frames := List.replicate 1024 { mac := 31, bytes := zeros 60, time := 0, cls := 0, piped := true } } },
    31, 255, by decide +kernel⟩,
  ⟨{ State.reset with net := { State.reset.net with frames := [{ mac := 31, bytes := zeros 60, time := 0, cls := 0, piped := true, tenant := 15, verdict := .transport }] } },
    _, 31, 255, { mac := 31, bytes := zeros 60, time := 0, cls := 0, piped := true, tenant := 15, verdict := .transport }, [], by decide +kernel,
    rfl, by decide +kernel⟩,
  ⟨{ State.reset with net := { State.reset.net with frames := [{ mac := 31, bytes := zeros 60, time := 0, cls := 0, piped := true, tenant := 15, verdict := .noTenant }] } },
    _, 31, 255, { mac := 31, bytes := zeros 60, time := 0, cls := 0, piped := true, tenant := 15, verdict := .noTenant }, [], by decide +kernel, rfl,
    by decide +kernel⟩,
  ⟨{ State.reset with net := { State.reset.net with frames := [{ mac := 31, bytes := zeros 60, time := 0, cls := 0, piped := true, tenant := 15, verdict := .noMatch }] } },
    _, 31, 255, { mac := 31, bytes := zeros 60, time := 0, cls := 0, piped := true, tenant := 15, verdict := .noMatch }, [], by decide +kernel, rfl,
    by decide +kernel⟩,
  ⟨{ State.reset with net := { State.reset.net with frames := [{ mac := 31, bytes := zeros 60, time := 0, cls := 0, piped := true, tenant := 15, verdict := .drop }] } },
    _, 31, 255, { mac := 31, bytes := zeros 60, time := 0, cls := 0, piped := true, tenant := 15, verdict := .drop }, [], by decide +kernel, rfl,
    by decide +kernel⟩,
  ⟨{ State.reset with net := { State.reset.net with frames := [{ mac := 31, bytes := zeros 60, time := 0, cls := 0, piped := true, tenant := 15, verdict := .queue 7 16383 }] } },
    _, 31, 255, { mac := 31, bytes := zeros 60, time := 0, cls := 0, piped := true, tenant := 15, verdict := .queue 7 16383 }, [], by decide +kernel,
    rfl, 7, 16383, by decide +kernel⟩,
  ⟨{ State.reset with net := { State.reset.net with frames := [{ mac := 31, bytes := zeros 60, time := 0, cls := 0, piped := true, tenant := 15, verdict := .slow 8 16383 }] } },
    _, 31, 255, { mac := 31, bytes := zeros 60, time := 0, cls := 0, piped := true, tenant := 15, verdict := .slow 8 16383 }, [], by decide +kernel,
    rfl, 8, 16383, by decide +kernel⟩,
  ⟨{ State.reset with net := { State.reset.net with frames := [{ mac := 31, bytes := zeros 60, time := 0, cls := 0, piped := true, tenant := 15, verdict := .slow 7 16383 }] } },
    _, 31, 255, { mac := 31, bytes := zeros 60, time := 0, cls := 0, piped := true, tenant := 15, verdict := .slow 7 16383 }, [], by decide +kernel,
    rfl, 16383, by decide +kernel⟩,
  ⟨{ State.reset with net := { State.reset.net with frames := [{ mac := 31, bytes := zeros 60, time := 0, cls := 0, piped := true, tenant := 15, verdict := .stream 255 16383 }], streams := [(255, { isOpen := true })] } },
    _, 31, 255, { mac := 31, bytes := zeros 60, time := 0, cls := 0, piped := true, tenant := 15, verdict := .stream 255 16383 }, [],
    by decide +kernel, rfl, 255, 16383, by decide +kernel⟩,
  ⟨{ State.reset with net := { State.reset.net with frames := [{ mac := 31, bytes := zeros 60, time := 0, cls := 0, piped := true, tenant := 15, verdict := .stream 255 16383 }] } },
    _, 31, 255, { mac := 31, bytes := zeros 60, time := 0, cls := 0, piped := true, tenant := 15, verdict := .stream 255 16383 }, [],
    by decide +kernel, rfl, 255, 16383, by decide +kernel⟩,
  ⟨{ (State.reset.setReg .strmOffset 0 255 (0x1000 - 25)) with own := { State.reset.own with lodes := [(31, 16)] }, net := { State.reset.net with frames := [{ mac := 31, bytes := rec_ 60 [(12, 2, 8), (14, 1, 0x45)], time := 0, cls := 0, piped := true, waiting := true, tenant := 15, verdict := .stream 255 0 }], streams := [(255, { owner := some 15, isOpen := true, dst := strataBase + 31 * 0x1000000, bytes := 0x1000 })] } },
    31, 255, 15,
    { mac := 31, bytes := rec_ 60 [(12, 2, 8), (14, 1, 0x45)], time := 0, cls := 0, piped := true, waiting := true, tenant := 15, verdict := .stream 255 0 },
    [], by decide +kernel, _, _, by decide +kernel, rfl, by decide +kernel, rfl, by decide +kernel⟩,
  ⟨{ (State.reset.setReg .strmOffset 0 255 (0x1000 - 26)) with own := { State.reset.own with lodes := [(31, 16)] }, net := { State.reset.net with frames := [{ mac := 31, bytes := rec_ 60 [(12, 2, 8), (14, 1, 0x45)], time := 0, cls := 0, piped := true, waiting := true, tenant := 15, verdict := .stream 255 0 }], streams := [(255, { owner := some 15, isOpen := true, dst := strataBase + 31 * 0x1000000, bytes := 0x1000 })] } },
    _, 31, 255, 15,
    { mac := 31, bytes := rec_ 60 [(12, 2, 8), (14, 1, 0x45)], time := 0, cls := 0, piped := true, waiting := true, tenant := 15, verdict := .stream 255 0 },
    [], by decide +kernel, _, _, by decide +kernel, rfl, by decide +kernel, rfl, by decide +kernel, _, rfl, rfl⟩,
  ⟨{ State.reset with net := { State.reset.net with frames := [{ mac := 31, bytes := rec_ 60 [(12, 2, 8), (14, 1, 0x45)], time := 0, cls := 0, piped := true, waiting := true, tenant := 15, verdict := .stream 255 0 }], streams := [(255, { owner := some 15, isOpen := true, dst := strataBase + 31 * 0x1000000, bytes := 0x1000 })] } },
    31, 255, 15,
    { mac := 31, bytes := rec_ 60 [(12, 2, 8), (14, 1, 0x45)], time := 0, cls := 0, piped := true, waiting := true, tenant := 15, verdict := .stream 255 0 },
    [], by decide +kernel, _, _, by decide +kernel, rfl, by decide +kernel, rfl, by decide +kernel⟩,
  ⟨{ State.reset with net := { State.reset.net with streams := [(255, { owner := some 15, recs := 1 })] } }, _, 31, 255, 15, by decide +kernel, rfl,
    by decide +kernel⟩,
  ⟨{ ({ State.reset with own := { State.reset.own with devs := [(0x0C, 1)] } }).setReg .strmOffset 0 255 100 with net := { State.reset.net with streams := [(255, { owner := some 15 })] } },
    31, 255, by decide +kernel, 15, 100, by decide +kernel⟩,
  ⟨{ ({ State.reset with own := { State.reset.own with devs := [(0x0C, 1)] } }).setReg .strmOffset 0 255 100 with net := { State.reset.net with streams := [(255, { owner := some 15 })] } },
    31, 255, by decide +kernel, 15, 101, by decide +kernel, .inr (by decide +kernel)⟩,
  ⟨{ ({ State.reset with own := { State.reset.own with devs := [(0x0C, 1)] } }).setReg .strmOffset 0 255 100 with net := { State.reset.net with streams := [(255, { owner := some 15 })] } },
    31, 255, by decide +kernel, 14, by decide +kernel⟩,
  ⟨State.reset, 31, 255, by decide +kernel⟩,
  ⟨{ State.reset with net := { State.reset.net with macs := [(31, { gates := some ⟨[(0xFF, 1000)], 0⟩ })] } }, 31, 255, by decide +kernel,
    ⟨[(0xFF, 1000)], 0⟩, by decide +kernel⟩,
  ⟨State.reset, 31, 255, by decide +kernel⟩,
  ⟨{ State.reset with net := { State.reset.net with macs := [(31, { due := 1 })] } }, 31, 255, by decide +kernel⟩,
  ⟨{ State.reset with net := { State.reset.net with macs := [(31, { qb := [(127, { level := 3 })] })] } }, 31, 255, by decide +kernel, 127,
    { level := 3 }, by decide +kernel⟩,
  ⟨((State.reset.setReg .ethCtrl 7 0 (1 + 1518 * 65536)).setReg .ethSts 7 0 0x44), 28, 255, by decide +kernel⟩,
  ⟨{ State.reset with net := { State.reset.net with txq := [(28 * 128 + 127, [zeros 60])] } }, 28, 255, by decide +kernel⟩,
  ⟨{ ((State.reset.setReg .ethCtrl 7 0 (1 + 1518 * 65536)).setReg .ethSts 7 0 0x44) with net := { State.reset.net with txq := [(28 * 128 + 127, [zeros 60, zeros 61])] } },
    28, 255, by decide +kernel, _, 127, [(127, 0x2400)], 64, _, _, rfl, by decide +kernel, rfl, .inr ⟨zeros 60, [zeros 61], by decide +kernel, rfl⟩,
    by decide +kernel⟩,
  ⟨{ ((State.reset.setReg .ethCtrl 7 0 (1 + 1518 * 65536)).setReg .ethSts 7 0 0x44) with net := { State.reset.net with txq := [(28 * 128 + 127, [zeros 60])] } },
    28, 255, by decide +kernel, _, 127, [(127, 0x2400)], 64, _, _, rfl, by decide +kernel, rfl, .inr ⟨zeros 60, [], by decide +kernel, rfl⟩,
    by decide +kernel⟩⟩

/-- States and operands that meet the hypotheses of `Telemetry_Paths`, clause by clause. -/
theorem witness_Telemetry_Paths :
    (∃ (s : State) (id : Nat) (c : Cmd), ∃ (l : List Nat), Ready s .countersRead id c ∧ l = counterSet s c.fn (c.p 0) ∧ (s.host c.fn).bme = true ∧
      (∀ j, j < 8 + 8 * l.length → tget .unknown s.hostMem (hostKey (fnPort s c.fn) (c.p 1 + j)) ≠ .bad)) ∧
    (∃ (s : State) (id : Nat) (c : Cmd), Ready s .countersRead id c ∧ (s.host c.fn).bme = false) ∧
    (∃ (s : State) (id : Nat) (c : Cmd), Ready s .errorsRead id c ∧ c.p 0 = 0) ∧
    (∃ (s : State) (id : Nat) (c : Cmd), ∃ (l : _), Ready s .errorsRead id c ∧ c.p 0 ≠ 0 ∧ l = (errorLogOf s c.fn).take (c.p 0 - 1) ∧
      (s.host c.fn).bme = true ∧ (∀ j,
      j < (firstCapture s c.fn ++ l.flatMap (recBytes false)).length → tget .unknown s.hostMem (hostKey (fnPort s c.fn) (c.p 1 + j)) ≠ .bad)) ∧
    (∃ (s : State) (id : Nat) (c : Cmd), Ready s .errorsRead id c ∧ c.p 0 ≠ 0 ∧ (s.host c.fn).bme = false) ∧
    (∃ (s : State) (id : Nat) (c : Cmd), Ready s .errorsClear id c) ∧
    (∃ (s : State) (id : Nat) (c : Cmd), ∃ (t : _) (a : _), Ready s .traceSet id c ∧ readMem s (c.p 0) 64 = (t, .error a)) ∧
    (∃ (s : State) (id : Nat) (c : Cmd), ∃ (t : _) (b : _), Ready s .traceSet id c ∧ readMem s (c.p 0) 64 = (t, .ok b)) ∧
    (∃ (s : State) (id : Nat) (c : Cmd), Ready s .logRing id c) ∧
    (∃ (s : State) (i : Nat) (r : Rec) (k : Nat) (x : Path), (s.power.running = true ∧ i < 18) ∧ x = s.path i ∧ ∃ (g : LogRing) (rest : _),
      g = s.logRing i ∧ (x.queue = (r, k) :: rest ∧ g.on = true ∧ (s.host i).bme = true ∧ g.used < 2 ^ g.log2) ∧ (∀ j,
      j < 64 → tget .unknown s.hostMem (hostKey (fnPort s i) (g.base + 64 * g.tail + j)) ≠ .bad)) ∧
    (∃ (s : State) (i : Nat) (x : Path), (s.power.running = true ∧ i < 18) ∧ x = s.path i ∧ x.queue = []) ∧
    (∃ (s : State) (i : Nat) (x : Path), (s.power.running = true ∧ i < 18) ∧ x = s.path i ∧ (s.logRing i).on = true ∧
      2 ^ (s.logRing i).log2 ≤ (s.logRing i).used) ∧
    (∃ (s : State) (i : Nat) (x : Path), (s.power.running = true ∧ i < 18) ∧ x = s.path i ∧ ∃ (val : Word) (h : Nat), h = val.toNat % 65536 ∧
      ∃ (n : _), n = (h + 2 ^ (s.logRing i).log2 - (s.logRing i).head) % 2 ^ (s.logRing i).log2 ∧ h < 2 ^ (s.logRing i).log2 ∧
      n ≤ (s.logRing i).used) ∧
    (∃ (s : State) (i : Nat) (x : Path), (s.power.running = true ∧ i < 18) ∧ x = s.path i ∧ ∃ (val : Word) (h : Nat), h = val.toNat % 65536 ∧
      2 ^ (s.logRing i).log2 ≤ h) ∧
    (∃ (s : State) (i : Nat) (x : Path), (s.power.running = true ∧ i < 18) ∧ x = s.path i ∧ ∃ (val : Word) (h : Nat), h = val.toNat % 65536 ∧
      ∃ (who : _), who < 16 ∧ who ≠ i) ∧
    (∃ (s : State) (r : Rec) (k : Nat) (x : Path), s.power.running = true ∧ x = s.path 18 ∧ ∃ (rest : _), x.queue = (r, k) :: rest) ∧
    (∃ (s : State) (x : Path), s.power.running = true ∧ x = s.path 18 ∧ x.queue = []) ∧
    (∃ (s : State), s.power.running = true ∧ bit (s.reg .exportCtl) 0 = false) ∧
    (∃ (s : State) (r : Rec) (k : Nat), ∃ (q : _) (n : _), (s.power.running = true ∧ bit (s.reg .exportCtl) 0 = true ∧
      macUp s (bits (s.reg .exportCtl) 5 1) = true) ∧ q = (s.path 19).queue ∧ (22 ≤ q.length ∨ ∃ r k rest, q = (r, k) :: rest ∧
      k + 10 * usTicks ≤ s.tb.ticks) ∧ n = (if s.tel.exportMs = s.tb.ticks / msTicks then s.tel.exportCnt else 0) ∧
      n < bits (s.reg .exportCtl) 28 13) :=
  ⟨⟨having (cmdOf .countersRead 16 [0, 0x1000]) (State.reset.setHost 16 { bme := true }), 1, cmdOf .countersRead 16 [0, 0x1000], _,
    rdy (by decide +kernel), rfl, by decide +kernel, fun _ _ => (by decide : HCell.unknown ≠ .bad)⟩,
  ⟨having (cmdOf .countersRead 16 [0, 0x1000]) State.reset, 1, cmdOf .countersRead 16 [0, 0x1000], rdy (by decide +kernel), by decide +kernel⟩,
  ⟨having (cmdOf .errorsRead 15 [0, 0x1000]) State.reset, 1, cmdOf .errorsRead 15 [0, 0x1000], rdy (by decide +kernel), by decide +kernel⟩,
  ⟨having (cmdOf .errorsRead 15 [1, 0x1000]) ((State.reset.setReg .errTenCtl 0 15 1).setHost 15 { bme := true }), 1,
    cmdOf .errorsRead 15 [1, 0x1000], _, rdy (by decide +kernel), by decide +kernel, rfl, by decide +kernel⟩,
  ⟨having (cmdOf .errorsRead 15 [1, 0x1000]) State.reset, 1, cmdOf .errorsRead 15 [1, 0x1000], rdy (by decide +kernel), by decide +kernel⟩,
  ⟨having (cmdOf .errorsClear 16 [0x1F]) State.reset, 1, cmdOf .errorsClear 16 [0x1F], rdy (by decide +kernel)⟩,
  ⟨having (cmdOf .traceSet 15 [0x1000]) { State.reset with bad := [(128, 2)] }, 1, cmdOf .traceSet 15 [0x1000], _, 0x1000, rdy (by decide +kernel),
    errIs (by decide +kernel)⟩,
  ⟨having (cmdOf .traceSet 15 [0x1000]) State.reset, 1, cmdOf .traceSet 15 [0x1000], _,
    okBytes (readMem (having (cmdOf .traceSet 15 [0x1000]) State.reset) 0x1000 64).2, rdy (by decide +kernel), okIs (by decide +kernel)⟩,
  ⟨having (cmdOf .logRing 15 [0, 4]) State.reset, 1, cmdOf .logRing 15 [0, 4], rdy (by decide +kernel)⟩,
  ⟨{ (State.reset.setHost 17 { bme := true }) with tel := { State.reset.tel with paths := [(17, { queue := [(⟨0, none, 0, 1, 0, 1, 0x8001, zeros 30⟩, 0)] })], rings := [(17, { on := true, log2 := 4, tail := 14, used := 15 })] } },
    17, ⟨0, none, 0, 1, 0, 1, 0x8001, zeros 30⟩, 0, _, by decide +kernel, rfl, _, [], rfl, by decide +kernel,
    fun _ _ => (by decide : HCell.unknown ≠ .bad)⟩,
  ⟨State.reset, 17, _, by decide +kernel, rfl, by decide +kernel⟩,
  ⟨{ State.reset with tel := { State.reset.tel with rings := [(17, { on := true, used := 16 })] } }, 17, _, by decide +kernel, rfl,
    by decide +kernel⟩,
  ⟨{ State.reset with tel := { State.reset.tel with rings := [(15, { on := true, used := 15 })] } }, 15, _, by decide +kernel, rfl, 15, _, rfl, _,
    rfl, by decide +kernel⟩,
  ⟨{ State.reset with tel := { State.reset.tel with rings := [(15, { on := true, used := 15 })] } }, 15, _, by decide +kernel, rfl, 16, _, rfl,
    by decide +kernel⟩,
  ⟨{ State.reset with tel := { State.reset.tel with rings := [(15, { on := true, used := 15 })] } }, 15, _, by decide +kernel, rfl, 0, _, rfl, 14,
    by decide +kernel⟩,
  ⟨{ State.reset with tel := { State.reset.tel with paths := [(18, { queue := [(⟨0, none, 0, 1, 0, 1, 0x8001, zeros 30⟩, 0)] })] } }, ⟨0, none, 0, 1,
    0, 1, 0x8001, zeros 30⟩, 0, _, by decide +kernel, rfl, [], by decide +kernel⟩,
  ⟨State.reset, _, by decide +kernel, rfl, by decide +kernel⟩,
  ⟨State.reset.setReg .exportCtl 0 0 0xC8E00, by decide +kernel⟩,
  ⟨{ ((((State.reset.setReg .ethCtrl 7 0 (1 + 1518 * 65536)).setReg .ethSts 7 0 0x44).setReg .exportCtl 0 0 (1 + 28 * 2 + 100 * 8192))) with tel := { State.reset.tel with paths := [(19, { queue := [(⟨0, none, 0, 1, 0, 1, 0x8001, zeros 30⟩, 0)] })] }, tb := { State.reset.tb with ticks := 1000000 } },
    ⟨0, none, 0, 1, 0, 1, 0x8001, zeros 30⟩, 0, _, _, by decide +kernel, rfl, .inr ⟨_, 0, [], rfl, by decide +kernel⟩, rfl, by decide +kernel⟩⟩

/-- States and operands that meet the hypotheses of `Record_Admission`, clause by clause. -/
theorem witness_Record_Admission :
    (∃ (s : State) (p n Q A : Nat) (r : Rec) (x : Path), (p < 18 ∧ Q = 128 ∧ A = 8 ∨ p = 18 ∧ Q = 64 ∧ A = 8 ∨ p = 19 ∧ Q = 256 ∧ A = 8 ∨ p = 20 ∧
      Q = 1024 ∧ A = 16) ∧ x = s.path p ∧ n = x.queue.length ∧ ((n < Q → x.alarms = []) ∧ (n < Q - A → x.more = none) ∧
      (n + 1 < 3 * Q / 4 → x.gap = none)) ∧ (r.cls = 0 ∧ n < Q ∨ r.cls = 1 ∧ n < Q - A ∨ r.cls = 2 ∧ n < 3 * Q / 4 ∨ r.cls = 3 ∧ n < Q / 2)) ∧
    (∃ (s : State) (p n Q A : Nat) (r : Rec) (x : Path), (p < 18 ∧ Q = 128 ∧ A = 8 ∨ p = 18 ∧ Q = 64 ∧ A = 8 ∨ p = 19 ∧ Q = 256 ∧ A = 8 ∨ p = 20 ∧
      Q = 1024 ∧ A = 16) ∧ x = s.path p ∧ n = x.queue.length ∧ (n < Q → x.alarms = []) ∧ (n < Q - A → x.more = none) ∧
      (n + 1 < 3 * Q / 4 → x.gap = none) ∧ r.cls = 0 ∧ Q ≤ n ∧ (∀ z ∈ x.alarms, z.kind ≠ r.kind ∨ z.source ≠ r.source)) ∧
    (∃ (s : State) (p n Q A : Nat) (r : Rec) (x : Path), (p < 18 ∧ Q = 128 ∧ A = 8 ∨ p = 18 ∧ Q = 64 ∧ A = 8 ∨ p = 19 ∧ Q = 256 ∧ A = 8 ∨ p = 20 ∧
      Q = 1024 ∧ A = 16) ∧ x = s.path p ∧ n = x.queue.length ∧ ((n < Q → x.alarms = []) ∧ (n < Q - A → x.more = none) ∧
      (n + 1 < 3 * Q / 4 → x.gap = none) ∧ r.cls = 0 ∧ Q ≤ n) ∧ ∃ (a : _) (y : _) (b : _), x.alarms = a ++ y :: b ∧ y.kind = r.kind ∧
      y.source = r.source ∧ (∀ z ∈ a ++ b, z.kind ≠ r.kind ∨ z.source ≠ r.source)) ∧
    (∃ (s : State) (p n Q A : Nat) (r : Rec) (x : Path), (p < 18 ∧ Q = 128 ∧ A = 8 ∨ p = 18 ∧ Q = 64 ∧ A = 8 ∨ p = 19 ∧ Q = 256 ∧ A = 8 ∨ p = 20 ∧
      Q = 1024 ∧ A = 16) ∧ x = s.path p ∧ n = x.queue.length ∧ (n < Q → x.alarms = []) ∧ (n < Q - A → x.more = none) ∧
      (n + 1 < 3 * Q / 4 → x.gap = none) ∧ r.cls = 1 ∧ Q - A ≤ n ∧ x.more = none) ∧
    (∃ (s : State) (p n Q A : Nat) (r : Rec) (x : Path), (p < 18 ∧ Q = 128 ∧ A = 8 ∨ p = 18 ∧ Q = 64 ∧ A = 8 ∨ p = 19 ∧ Q = 256 ∧ A = 8 ∨ p = 20 ∧
      Q = 1024 ∧ A = 16) ∧ x = s.path p ∧ n = x.queue.length ∧ ((n < Q → x.alarms = []) ∧ (n < Q - A → x.more = none) ∧
      (n + 1 < 3 * Q / 4 → x.gap = none) ∧ r.cls = 1 ∧ Q - A ≤ n) ∧ ∃ (a : _), x.more = some a) ∧
    (∃ (s : State) (p n Q A : Nat) (r : Rec) (x : Path), (p < 18 ∧ Q = 128 ∧ A = 8 ∨ p = 18 ∧ Q = 64 ∧ A = 8 ∨ p = 19 ∧ Q = 256 ∧ A = 8 ∨ p = 20 ∧
      Q = 1024 ∧ A = 16) ∧ x = s.path p ∧ n = x.queue.length ∧ ((n < Q → x.alarms = []) ∧ (n < Q - A → x.more = none) ∧
      (n + 1 < 3 * Q / 4 → x.gap = none)) ∧ (r.cls = 2 ∧ 3 * Q / 4 ≤ n ∨ r.cls = 3 ∧ Q / 2 ≤ n) ∧ 3 * Q / 4 ≤ n + 1 ∧ x.gap = none) ∧
    (∃ (s : State) (p n Q A : Nat) (r : Rec) (x : Path), (p < 18 ∧ Q = 128 ∧ A = 8 ∨ p = 18 ∧ Q = 64 ∧ A = 8 ∨ p = 19 ∧ Q = 256 ∧ A = 8 ∨ p = 20 ∧
      Q = 1024 ∧ A = 16) ∧ x = s.path p ∧ n = x.queue.length ∧ ((n < Q → x.alarms = []) ∧ (n < Q - A → x.more = none) ∧
      (n + 1 < 3 * Q / 4 → x.gap = none)) ∧ (r.cls = 2 ∧ 3 * Q / 4 ≤ n ∨ r.cls = 3 ∧ Q / 2 ≤ n) ∧ ∃ (a : _), x.gap = some a) ∧
    (∃ (s : State) (p n Q A : Nat) (r : Rec) (x : Path), (p < 18 ∧ Q = 128 ∧ A = 8 ∨ p = 18 ∧ Q = 64 ∧ A = 8 ∨ p = 19 ∧ Q = 256 ∧ A = 8 ∨ p = 20 ∧
      Q = 1024 ∧ A = 16) ∧ x = s.path p ∧ n = x.queue.length ∧ ((n < Q → x.alarms = []) ∧ (n < Q - A → x.more = none) ∧
      (n + 1 < 3 * Q / 4 → x.gap = none)) ∧ (r.cls = 2 ∧ 3 * Q / 4 ≤ n ∨ r.cls = 3 ∧ Q / 2 ≤ n) ∧ n + 1 < 3 * Q / 4) ∧
    (∃ (s : State) (p n Q A : Nat) (x : Path), (p < 18 ∧ Q = 128 ∧ A = 8 ∨ p = 18 ∧ Q = 64 ∧ A = 8 ∨ p = 19 ∧ Q = 256 ∧ A = 8 ∨ p = 20 ∧ Q = 1024 ∧
      A = 16) ∧ x = s.path p ∧ n = x.queue.length ∧ ∃ (y : _) (l : _), x.alarms = y :: l ∧ n + 1 = Q) :=
  ⟨⟨{ State.reset with tel := { State.reset.tel with paths := [(17, { queue := List.replicate 127 (⟨3, none, 0, 1, 0, 1, 0x8001, []⟩, 0) })] } }, 17,
    _, 128, 8, ⟨0, none, 0, 1, 0, 1, 0x8001, []⟩, _, .inl (by decide +kernel), rfl, rfl, by decide +kernel, .inl (by decide +kernel)⟩,
  ⟨{ State.reset with tel := { State.reset.tel with paths := [(17, { queue := List.replicate 128 (⟨3, none, 0, 1, 0, 1, 0x8001, []⟩, 0), alarms := [⟨0, none, 0, 1, 0, 1, 5, []⟩] })] } },
    17, _, 128, 8, ⟨0, none, 0, 1, 0, 1, 0x8001, []⟩, _, .inl (by decide +kernel), rfl, rfl, by decide +kernel⟩,
  ⟨{ State.reset with tel := { State.reset.tel with paths := [(17, { queue := List.replicate 128 (⟨3, none, 0, 1, 0, 1, 0x8001, []⟩, 0), alarms := [⟨0, none, 0, 1, 0, 1, 32769, []⟩] })] } },
    17, _, 128, 8, ⟨0, none, 0, 1, 0, 1, 0x8001, []⟩, _, .inl (by decide +kernel), rfl, rfl, by decide +kernel, [], ⟨0, none, 0, 1, 0, 1, 32769, []⟩,
    [], by decide +kernel⟩,
  ⟨{ State.reset with tel := { State.reset.tel with paths := [(17, { queue := List.replicate 120 (⟨3, none, 0, 1, 0, 1, 0x8001, []⟩, 0) })] } }, 17,
    _, 128, 8, ⟨1, none, 0, 1, 0, 1, 0x8001, []⟩, _, .inl (by decide +kernel), rfl, rfl, by decide +kernel⟩,
  ⟨{ State.reset with tel := { State.reset.tel with paths := [(18, { queue := List.replicate 56 (⟨3, none, 0, 1, 0, 1, 0x8001, []⟩, 0), more := some ⟨1, 2, 2⟩ })] } },
    18, _, 64, 8, ⟨1, none, 0, 1, 0, 1, 0x8001, []⟩, _, .inr <| .inl (by decide +kernel), rfl, rfl, by decide +kernel, ⟨1, 2, 2⟩, by decide +kernel⟩,
  ⟨{ State.reset with tel := { State.reset.tel with paths := [(17, { queue := List.replicate 96 (⟨3, none, 0, 1, 0, 1, 0x8001, []⟩, 0) })] } }, 17,
    _, 128, 8, ⟨2, none, 0, 1, 0, 1, 0x8001, []⟩, _, .inl (by decide +kernel), rfl, rfl, by decide +kernel, .inl (by decide +kernel),
    by decide +kernel⟩,
  ⟨{ State.reset with tel := { State.reset.tel with paths := [(19, { queue := List.replicate 191 (⟨3, none, 0, 1, 0, 1, 0x8001, []⟩, 0), gap := some ⟨1, 2, 2⟩ })] } },
    19, _, 256, 8, ⟨3, none, 0, 1, 0, 1, 0x8001, []⟩, _, .inr <| .inr <| .inl (by decide +kernel), rfl, rfl, by decide +kernel,
    .inr (by decide +kernel), ⟨1, 2, 2⟩, by decide +kernel⟩,
  ⟨{ State.reset with tel := { State.reset.tel with paths := [(17, { queue := List.replicate 64 (⟨3, none, 0, 1, 0, 1, 0x8001, []⟩, 0) })] } }, 17,
    _, 128, 8, ⟨3, none, 0, 1, 0, 1, 0x8001, []⟩, _, .inl (by decide +kernel), rfl, rfl, by decide +kernel, .inr (by decide +kernel),
    by decide +kernel⟩,
  ⟨{ State.reset with tel := { State.reset.tel with paths := [(20, { queue := List.replicate 1023 (⟨3, none, 0, 1, 0, 1, 0x8001, []⟩, 0), alarms := [⟨0, none, 0, 1, 0, 1, 7, []⟩] })] } },
    20, _, 1024, 16, _, .inr <| .inr <| .inr (by decide +kernel), rfl, rfl, ⟨0, none, 0, 1, 0, 1, 7, []⟩, [], by decide +kernel⟩⟩

/-- States and operands that meet the hypotheses of `Power_Commands`, clause by clause. -/
theorem witness_Power_Commands :
    (∃ (s t : State) (id : Nat) (c : Cmd), ∃ (p : _), Ready s .opPoint id c ∧ c.p 0 = p ∧ t = { s with power := { s.power with wantPoint := p } } ∧
      s.power.point = p ∧ atPoint p (cclkMhz s) = true ∧ s.power.change = none) ∧
    (∃ (s t : State) (id : Nat) (c : Cmd), ∃ (p : _), Ready s .opPoint id c ∧ c.p 0 = p ∧ t = { s with power := { s.power with wantPoint := p } } ∧
      (¬ (s.power.point = p ∧ atPoint p (cclkMhz s) = true ∧ s.power.change = none))) ∧
    (∃ (s : State) (id : Nat) (c : Cmd), Ready s .clockLock id c ∧ s.power.locking ≠ none) ∧
    (∃ (s : State) (id : Nat) (c : Cmd), Ready s .clockLock id c ∧ s.power.locking = none ∧ clocksLocked s = (c.p 0 == 1)) ∧
    (∃ (s : State) (id : Nat) (c : Cmd), Ready s .clockLock id c ∧ s.power.locking = none ∧ clocksLocked s = false ∧ c.p 0 = 1) ∧
    (∃ (s : State) (id : Nat) (c : Cmd), Ready s .clockLock id c ∧ s.power.locking = none ∧ clocksLocked s = true ∧ c.p 0 = 0 ∧
      crossGroup s = false) ∧
    (∃ (s : State) (id : Nat) (c : Cmd), Ready s .clockLock id c ∧ s.power.locking = none ∧ clocksLocked s = true ∧ c.p 0 = 0 ∧ crossGroup s = true) ∧
    (∃ (s : State) (id : Nat) (c : Cmd), Ready s .limitsRead id c ∧ (s.host c.fn).bme = true ∧ (∀ i,
      i < 64 → tget .unknown s.hostMem (hostKey (fnPort s c.fn) (c.p 0 + i)) ≠ .bad)) ∧
    (∃ (s : State) (id : Nat) (c : Cmd), Ready s .limitsRead id c ∧ (s.host c.fn).bme = false) ∧
    (∃ (s : State) (id : Nat) (c : Cmd), Ready s .deep id c ∧ c.p 0 = 1 ∧ deepLegal s = false) ∧
    (∃ (s : State) (id : Nat) (c : Cmd), Ready s .deep id c ∧ c.p 0 = 1 ∧ deepLegal s = true) ∧
    (∃ (s : State) (id : Nat) (c : Cmd), Ready s .deep id c ∧ c.p 0 ≠ 1) ∧
    (∃ (s : State) (id : Nat) (c : Cmd), s.power.running = true ∧ findCmd s id = some c ∧ cmdOp c = some .deep ∧ c.phase = .ready ∧
      unitTurn s c = true ∧ s.power.dstate ≠ .on ∧ c.p 0 = 1) ∧
    (∃ (s t : State) (id : Nat) (c : Cmd), (s.power.running = true ∧ findCmd s id = some c ∧ cmdOp c = some .deep ∧ c.phase = .ready ∧
      unitTurn s c = true ∧ s.power.dstate ≠ .on ∧ c.p 0 ≠ 1) ∧ t = wakeDeep (working id s)) ∧
    (∃ (s : State), s.power.running = true ∧ s.power.dstate = .entering) ∧
    (∃ (s : State), s.power.running = true ∧ s.power.dstate ≠ .entering) ∧
    (∃ (s : State) (c : Cmd), s.power.running = true ∧ ∃ (u : _), s.power.dstate = .exiting ∧
      u = (List.range 12).foldl (fun s c => recalRest c s) { s with power := { s.power with dstate := .on, exitCmds := [] } }) ∧
    (∃ (s : State), s.power.running = true ∧ s.power.dstate ≠ .exiting) ∧
    (∃ (s : State), s.power.running = true ∧ s.power.locking = none) ∧
    (∃ (s t : State) (id : Nat), s.power.running = true ∧ ∃ (lock : _), s.power.locking = some (id, lock) ∧
      t = { (s.setField .clkSts 0 0 1 1 0) with power := { s.power with locking := none } } ∧ s.power.change ≠ none ∧ clamped s = false) ∧
    (∃ (s t : State) (id : Nat), s.power.running = true ∧ ∃ (lock : _), s.power.locking = some (id, lock) ∧
      t = { (s.setField .clkSts 0 0 1 1 0) with power := { s.power with locking := none } } ∧ (s.power.change = none ∨ clamped s = true) ∧
      lock = false ∧ crossGroup t = true) ∧
    (∃ (s t : State) (id : Nat), s.power.running = true ∧ ∃ (lock : _), s.power.locking = some (id, lock) ∧
      t = { (s.setField .clkSts 0 0 1 1 0) with power := { s.power with locking := none } } ∧ (s.power.change = none ∨ clamped s = true) ∧
      (lock = true ∨ crossGroup t = false)) ∧
    (∃ (s : State), s.power.running = true ∧ ∃ (mhz : _) (mv : _), pmRuns s = true ∧ (1650 < mhz ∨ 800 < mv)) ∧
    (∃ (s : State), s.power.running = true ∧ ∃ (mhz : _) (mv : _), pmRuns s = true ∧ mhz ≤ 1650 ∧ mv ≤ 800 ∧ s.power.change = none) ∧
    (∃ (s t : State), s.power.running = true ∧ ∃ (mhz : _) (mv : _) (ack : _), pmRuns s = true ∧ ∃ (want : _), (s.power.change = some want ∧
      mhz ≤ 1650 ∧ mv ≤ 800 ∧ (mhz = want ∨ (s.power.wantPoint = 1 ∧ atPoint 1 mhz = true ∧ atPoint 1 want = true)) ∧ clamped s = false ∧
      vcdMin mhz ≤ mv) ∧ t = railsSet mv ack s ∧ (ack = true ∨ mhz ≤ cclkMhz t)) ∧
    (∃ (s t : State), s.power.running = true ∧ ∃ (mhz : _) (mv : _) (ack : _), pmRuns s = true ∧ ∃ (want : _), (s.power.change = some want ∧
      mhz ≤ 1650 ∧ mv ≤ 800 ∧ (mhz = want ∨ (s.power.wantPoint = 1 ∧ atPoint 1 mhz = true ∧ atPoint 1 want = true)) ∧ clamped s = false ∧
      vcdMin mhz ≤ mv) ∧ t = railsSet mv ack s ∧ ack = false ∧ cclkMhz t < mhz) ∧
    (∃ (s : State) (id : Nat), s.power.running = true ∧ s.power.change = some 1500 ∧ pmRuns s = true ∧ clamped s = false ∧ s.groups = [] ∧
      s.power.point = 0 ∧ s.power.wantPoint = 0 ∧ s.power.opCmds = [id]) ∧
    (∃ (s : State), s.power.running = true ∧ ∃ (w : Nat) (avg : _) (l : _), (pmRuns s = true ∧ s.power.sampleDue ≤ s.tb.ticks) ∧
      l = (w :: s.power.samples).take 10 ∧ avg = pmMean w s) ∧
    (∃ (s : State), s.power.running = true ∧ s.tb.ticks < s.power.sampleDue) ∧
    (∃ (s : State), s.power.running = true ∧ ∃ (deg : Int), 105 ≤ deg ∧ clamped s = false ∧ s.groups = []) ∧
    (∃ (s : State), s.power.running = true ∧ ∃ (deg : Int), (deg < 105 ∨ clamped s = true)) ∧
    (∃ (s t : State), s.power.running = true ∧ ∃ (cool : _), (10 * msTicks ≤ cool ∧ s.power.hotAt + cool ≤ s.tb.ticks ∧ clamped s = true) ∧
      t = s.setField .pwrSts 0 0 11 11 0 ∧ s.power.safePending = false) ∧
    (∃ (s t : State), s.power.running = true ∧ ∃ (cool : _), (10 * msTicks ≤ cool ∧ s.power.hotAt + cool ≤ s.tb.ticks ∧ clamped s = true) ∧
      t = s.setField .pwrSts 0 0 11 11 0 ∧ s.power.safePending = true ∧ pmRuns s = true) ∧
    (∃ (s t : State), s.power.running = true ∧ ∃ (cool : _), (10 * msTicks ≤ cool ∧ s.power.hotAt + cool ≤ s.tb.ticks ∧ clamped s = true) ∧
      t = s.setField .pwrSts 0 0 11 11 0 ∧ s.power.safePending = true ∧ pmRuns s = false) ∧
    (∃ (s : State), s.power.running = true ∧ ∃ (cool : _), (cool < 10 * msTicks ∨ s.tb.ticks < s.power.hotAt + cool ∨ clamped s = false)) ∧
    (∃ (s : State), s.power.running = true ∧ ∃ (deg : Int), 115 ≤ deg) ∧
    (∃ (s : State), s.power.running = true ∧ ∃ (deg : Int), deg < 115) :=
  ⟨⟨having (cmdOf .opPoint 15 [0]) (State.reset), _, 1, cmdOf .opPoint 15 [0], 0, rdy (by decide +kernel), by decide +kernel, rfl, by decide +kernel⟩,
  ⟨having (cmdOf .opPoint 15 [1]) State.reset, _, 1, cmdOf .opPoint 15 [1], 1, rdy (by decide +kernel), by decide +kernel, rfl, by decide +kernel⟩,
  ⟨having (cmdOf .clockLock 16 [0]) { State.reset with power := { State.reset.power with locking := some (2, true) } }, 1, cmdOf .clockLock 16 [0],
    rdy (by decide +kernel), by decide +kernel⟩,
  ⟨having (cmdOf .clockLock 16 [0]) (State.reset), 1, cmdOf .clockLock 16 [0], rdy (by decide +kernel), by decide +kernel⟩,
  ⟨having (cmdOf .clockLock 16 [1]) (State.reset), 1, cmdOf .clockLock 16 [1], rdy (by decide +kernel), by decide +kernel⟩,
  ⟨having (cmdOf .clockLock 16 [0]) (State.reset.setReg .clkSts 0 0 1), 1, cmdOf .clockLock 16 [0], rdy (by decide +kernel), by decide +kernel⟩,
  ⟨having (cmdOf .clockLock 16 [0]) ((State.reset.setReg .clkSts 0 0 1).setGrp 31 { st := .formed, members := [15, 16], tenant := 15 }), 1,
    cmdOf .clockLock 16 [0], rdy (by decide +kernel), by decide +kernel⟩,
  ⟨having (cmdOf .limitsRead 15 [0x1000]) (State.reset.setHost 15 { bme := true }), 1, cmdOf .limitsRead 15 [0x1000], rdy (by decide +kernel),
    by decide +kernel, fun _ _ => (by decide : HCell.unknown ≠ .bad)⟩,
  ⟨having (cmdOf .limitsRead 15 [0x1000]) (State.reset), 1, cmdOf .limitsRead 15 [0x1000], rdy (by decide +kernel), by decide +kernel⟩,
  ⟨having (cmdOf .deep 16 [1]) (State.reset.setCore 255 { st := .running }), 1, cmdOf .deep 16 [1], rdy (by decide +kernel), by decide +kernel⟩,
  ⟨having (cmdOf .deep 16 [1]) (State.reset), 1, cmdOf .deep 16 [1], rdy (by decide +kernel), by decide +kernel⟩,
  ⟨having (cmdOf .deep 16 [0]) State.reset, 1, cmdOf .deep 16 [0], rdy (by decide +kernel), by decide +kernel⟩,
  ⟨having (cmdOf .deep 16 [1]) { State.reset with power := { State.reset.power with dstate := .deep } }, 1, cmdOf .deep 16 [1], by decide +kernel⟩,
  ⟨having (cmdOf .deep 16 [0]) { State.reset with power := { State.reset.power with dstate := .deep } }, _, 1, cmdOf .deep 16 [0], by decide +kernel,
    rfl⟩,
  ⟨{ State.reset with power := { (State.reset).power with dstate := .entering, deepCmd := some 1 } }, by decide +kernel⟩,
  ⟨State.reset, by decide +kernel⟩,
  ⟨{ State.reset with power := { (State.reset).power with dstate := .exiting, exitCmds := [1] } }, cmdOf .hello 0 [], by decide +kernel, _,
    by decide +kernel, rfl⟩,
  ⟨State.reset, by decide +kernel⟩,
  ⟨State.reset, by decide +kernel⟩,
  ⟨{ State.reset with power := { State.reset.power with locking := some (1, false), change := some 100 } }, _, 1, by decide +kernel, false,
    by decide +kernel, rfl, by decide +kernel⟩,
  ⟨{ (State.reset.setReg .clkSts 0 0 1).setGrp 31 { st := .formed, members := [15, 16], tenant := 15 } with power := { State.reset.power with locking := some (1, false), change := none } },
    _, 1, by decide +kernel, false, by decide +kernel, rfl, by decide +kernel⟩,
  ⟨{ State.reset with power := { State.reset.power with locking := some (1, true), change := none } }, _, 1, by decide +kernel, true,
    by decide +kernel, rfl, by decide +kernel⟩,
  ⟨firmware, by decide +kernel, 1651, 800, by decide +kernel, .inl (by decide +kernel)⟩,
  ⟨firmware, by decide +kernel, 1650, 800, by decide +kernel⟩,
  ⟨{ firmware with power := { firmware.power with change := some 1650 } }, _, by decide +kernel, 1650, 800, true, by decide +kernel, 1650,
    by decide +kernel, rfl, by decide +kernel⟩,
  ⟨{ firmware with power := { firmware.power with change := some 1650 } }, _, by decide +kernel, 1650, 800, false, by decide +kernel, 1650,
    by decide +kernel, rfl, by decide +kernel⟩,
  ⟨{ firmware with power := { (firmware).power with change := some 1500, point := 0, wantPoint := 0, opCmds := [1] } }, 1, by decide +kernel⟩,
  ⟨firmware.setReg .pwrSts 0 0 (1000 + 2048), by decide +kernel, 1800, _, _, by decide +kernel, rfl, rfl⟩,
  ⟨{ firmware with power := { (firmware).power with sampleDue := 1 } }, by decide +kernel⟩,
  ⟨firmware, by decide +kernel, 105, by decide +kernel⟩,
  ⟨firmware, by decide +kernel, 104, by decide +kernel⟩,
  ⟨{ firmware.setReg .pwrSts 0 0 (1000 + 2048) with power := { firmware.power with safePending := false }, tb := { State.reset.tb with ticks := 10 * msTicks } },
    _, by decide +kernel, 10 * msTicks, by decide +kernel, rfl, by decide +kernel⟩,
  ⟨{ firmware.setReg .pwrSts 0 0 (1000 + 2048) with power := { firmware.power with safePending := true }, tb := { State.reset.tb with ticks := 10 * msTicks } },
    _, by decide +kernel, 10 * msTicks, by decide +kernel, rfl, by decide +kernel⟩,
  ⟨{ State.reset.setReg .pwrSts 0 0 (1000 + 2048) with power := { State.reset.power with safePending := true }, tb := { State.reset.tb with ticks := 10 * msTicks } },
    _, by decide +kernel, 10 * msTicks, by decide +kernel, rfl, by decide +kernel⟩,
  ⟨(firmware.setReg .pwrSts 0 0 (1000 + 2048)), by decide +kernel, 10 * msTicks, by decide +kernel⟩,
  ⟨firmware, by decide +kernel, 115, by decide +kernel⟩,
  ⟨firmware, by decide +kernel, 114, by decide +kernel⟩⟩

/-- States and operands that meet the hypotheses of `Host_Aperture`, clause by clause. -/
theorem witness_Host_Aperture :
    (∃ (s : State) (p v off : Nat), (s.power.running = true ∧ p < 2 ∧ 0 < v ∧ v < 17) ∧ ∃ (fn : _) (len : _), (v ≤ (tget {} s.ports p).numVfs ∧
      barFn s p v = some fn ∧ 0 < len) ∧ ∃ (a : _) (n : _), (apParts s fn off len).findSome? (apWaits s fn false) = some (a, n)) ∧
    (∃ (s : State) (p v off : Nat), (s.power.running = true ∧ p < 2 ∧ 0 < v ∧ v < 17) ∧ ∃ (fn : _) (len : _), v ≤ (tget {} s.ports p).numVfs ∧
      barFn s p v = some fn ∧ 0 < len ∧ (apParts s fn off len).findSome? (apWaits s fn false) = none) ∧
    (∃ (s : State) (p v off : Nat), (s.power.running = true ∧ p < 2 ∧ 0 < v ∧ v < 17) ∧ ∃ (fn : _) (data : Bytes), (barFn s p v = some fn ∧
      data ≠ []) ∧ ∃ (a : _) (n : _), (apParts s fn off data.length).findSome? (apWaits s fn true) = some (a, n)) ∧
    (∃ (s : State) (p v off : Nat), (s.power.running = true ∧ p < 2 ∧ 0 < v ∧ v < 17) ∧ ∃ (fn : _) (data : Bytes), barFn s p v = some fn ∧
      data ≠ [] ∧ (apParts s fn off data.length).findSome? (apWaits s fn true) = none) ∧
    (∃ (s t : State) (p v off : Nat), (s.power.running = true ∧ p < 2 ∧ 0 < v ∧ v < 17) ∧ ∃ (fn : _) (a : _) (len : _) (b : _),
      (v ≤ (tget {} s.ports p).numVfs ∧ barFn s p v = some fn ∧ 0 < len ∧ apParts s fn off len = [⟨some a, len, false⟩] ∧ apOk s fn ⟨some a, len,
      false⟩ false = true ∧ memWaits s a len = false) ∧ readMem s a len = (t, .ok b)) ∧
    (∃ (s t : State) (p v off : Nat), (s.power.running = true ∧ p < 2 ∧ 0 < v ∧ v < 17) ∧ ∃ (fn : _) (a : _) (len : _) (e : _),
      (v ≤ (tget {} s.ports p).numVfs ∧ barFn s p v = some fn ∧ 0 < len ∧ apParts s fn off len = [⟨some a, len, false⟩] ∧ apOk s fn ⟨some a, len,
      false⟩ false = true ∧ memWaits s a len = false) ∧ readMem s a len = (t, .error e)) ∧
    (∃ (s : State) (p v off : Nat), (s.power.running = true ∧ p < 2 ∧ 0 < v ∧ v < 17) ∧ ∃ (fn : _) (ad : Option Nat) (len : _),
      v ≤ (tget {} s.ports p).numVfs ∧ barFn s p v = some fn ∧ 0 < len ∧ apParts s fn off len = [⟨ad, len, false⟩] ∧ apOk s fn ⟨ad, len,
      false⟩ false = false) ∧
    (∃ (s : State) (p v : Nat), (s.power.running = true ∧ p < 2 ∧ 0 < v ∧ v < 17) ∧ ∃ (len : _), v ≤ (tget {} s.ports p).numVfs ∧
      portFn s p v = none ∧ 0 < len) ∧
    (∃ (s : State) (p v off : Nat), (s.power.running = true ∧ p < 2 ∧ 0 < v ∧ v < 17) ∧ ∃ (fn : _) (a : _) (data : Bytes), barFn s p v = some fn ∧
      data ≠ [] ∧ apParts s fn off data.length = [⟨some a, data.length, false⟩] ∧ apOk s fn ⟨some a, data.length, false⟩ true = true ∧
      memWaits s a data.length = false) ∧
    (∃ (s : State) (p v off : Nat), (s.power.running = true ∧ p < 2 ∧ 0 < v ∧ v < 17) ∧ ∃ (fn : _) (ad : Option Nat) (ro : Bool) (data : Bytes),
      barFn s p v = some fn ∧ data ≠ [] ∧ apParts s fn off data.length = [⟨ad, data.length, ro⟩] ∧ apOk s fn ⟨ad, data.length, ro⟩ true = false) ∧
    (∃ (s : State) (p v off : Nat), (s.power.running = true ∧ p < 2 ∧ 0 < v ∧ v < 17) ∧ ∃ (fn : _) (x : Nat) (len : _),
      (bit (s.reg .hifCfg) 0 = true ∧ 0 < len ∧ off % 2 ^ 21 + len ≤ 2 ^ 21 ∧ off < 2 ^ 33) ∧ x = tget 0 (s.host fn).xlat (off / 2 ^ 21) ∧
      bit (s.reg .hifWinEn fn) (off / 2 ^ 29) = true ∧ bit x 0 = true) ∧
    (∃ (s : State) (p v : Nat), (s.power.running = true ∧ p < 2 ∧ 0 < v ∧ v < 17) ∧ ∃ (who i e : Nat) (val : BitVec 64), who < 19 ∧ i < 18 ∧
      e < 4096 ∧ ownTable s who i = true ∧ bits val.toNat 20 2 = 0 ∧ bits val.toNat 63 52 = 0) ∧
    (∃ (s : State) (p v : Nat), (s.power.running = true ∧ p < 2 ∧ 0 < v ∧ v < 17) ∧ ∃ (who i e : Nat) (val : BitVec 64), (who < 19 ∧ i < 18 ∧
      e < 4096 ∧ ownTable s who i = true) ∧ (bits val.toNat 20 2 ≠ 0 ∨ bits val.toNat 63 52 ≠ 0)) ∧
    (∃ (s : State) (p v : Nat), (s.power.running = true ∧ p < 2 ∧ 0 < v ∧ v < 17) ∧ ∃ (who i e : Nat), who < 19 ∧ i < 18 ∧ e < 4096 ∧
      ownTable s who i = false) :=
  ⟨⟨{ (State.reset.setHost 15 { mse := true, bme := true }) with own := { State.reset.own with fills := [(0, 16)], regions := [(0, { base := 0x1000, bytes := 0x1000, rights := 0x7F, st := 1, tenant := 15, world := true })] } },
    0, 16, 0x1FFF, by decide +kernel, 15, 1, by decide +kernel, 0x1FFF, 1, by decide +kernel⟩,
  ⟨{ (State.reset.setHost 15 { mse := true, bme := true }) with own := { State.reset.own with regions := [(0, { base := 0x1000, bytes := 0x1000, rights := 0x7F, st := 1, tenant := 15, world := true })] } },
    0, 16, 0x1FFF, by decide +kernel, 15, 1, by decide +kernel⟩,
  ⟨{ (State.reset.setHost 15 { mse := true, bme := true }) with own := { State.reset.own with fills := [(0, 16)], regions := [(0, { base := 0x1000, bytes := 0x1000, rights := 0x7F, st := 1, tenant := 15, world := true })] } },
    0, 16, 0x1000, by decide +kernel, 15, [1, 2], by decide +kernel, 0x1000, 2, by decide +kernel⟩,
  ⟨{ (State.reset.setHost 15 { mse := true, bme := true }) with own := { State.reset.own with regions := [(0, { base := 0x1000, bytes := 0x1000, rights := 0x7F, st := 1, tenant := 15, world := true })] } },
    0, 16, 0x1000, by decide +kernel, 15, [1, 2], by decide +kernel⟩,
  ⟨{ (State.reset.setHost 15 { mse := true, bme := true }) with own := { State.reset.own with regions := [(0, { base := 0x1000, bytes := 0x1000, rights := 0x7F, st := 1, tenant := 15, world := true })] } },
    _, 0, 16, 0x1FFF, by decide +kernel, 15, 0x1FFF, 1,
    okBytes (readMem ({ (State.reset.setHost 15 { mse := true, bme := true }) with own := { State.reset.own with regions := [(0, { base := 0x1000, bytes := 0x1000, rights := 0x7F, st := 1, tenant := 15, world := true })] } }) 0x1FFF 1).2,
    by decide +kernel, okIs (by decide +kernel)⟩,
  ⟨{ (State.reset.setHost 15 { mse := true, bme := true }) with bad := [(0xFF, 2)], own := { State.reset.own with regions := [(0, { base := 0x1000, bytes := 0x1000, rights := 0x7F, st := 1, tenant := 15, world := true })] } },
    _, 0, 16, 0x1FFF, by decide +kernel, 15, 0x1FFF, 1, 0x1FE0, by decide +kernel, errIs (by decide +kernel)⟩,
  ⟨{ (State.reset.setHost 15 { mse := true, bme := true }) with own := { State.reset.own with regions := [(0, { base := 0x1000, bytes := 0x1000, rights := 0x7F, st := 1, tenant := 15, world := true })] } },
    0, 16, 0x1FFF, by decide +kernel, 15, some 0x1FFF, 2, by decide +kernel⟩,
  ⟨State.reset, 1, 16, by decide +kernel, 4, by decide +kernel⟩,
  ⟨{ (State.reset.setHost 15 { mse := true, bme := true }) with own := { State.reset.own with regions := [(0, { base := 0x1000, bytes := 0x1000, rights := 0x7F, st := 1, tenant := 15, world := true })] } },
    0, 16, 0x1000, by decide +kernel, 15, 0x1000, [1, 2], by decide +kernel⟩,
  ⟨{ (State.reset.setHost 15 { mse := true, bme := true }) with own := { State.reset.own with regions := [(0, { base := 0x1000, bytes := 0x1000, rights := 0x7F, st := 1, tenant := 15, world := true })] } },
    0, 16, 0x2000, by decide +kernel, 15, some 0x2000, false, [1], by decide +kernel⟩,
  ⟨((State.reset.setReg .hifCfg 0 0 1).setReg .hifWinEn 15 0 0x8000).setHost 15 { xlat := [(4095, 0x200001)] }, 0, 16, 4095 * 2 ^ 21 + 1,
    by decide +kernel, 15, _, 2 ^ 21 - 1, by decide +kernel, rfl, by decide +kernel⟩,
  ⟨State.reset, 0, 16, by decide +kernel, 17, 17, 4095, 0xFFFFFFFE00003, by decide +kernel⟩,
  ⟨State.reset, 0, 16, by decide +kernel, 17, 17, 4095, 4, by decide +kernel, .inl (by decide +kernel)⟩,
  ⟨State.reset, 0, 16, by decide +kernel, 16, 17, 4095, by decide +kernel⟩⟩

/-- States and operands that meet the hypotheses of `Host_Ports`, clause by clause. -/
theorem witness_Host_Ports :
    (∃ (s : State) (i p : Nat), s.power.running = true ∧ i < 18 ∧ p < 2) ∧
    (∃ (s : State) (i p : Nat), (s.power.running = true ∧ i < 18 ∧ p < 2) ∧ ∃ (vec : Nat), vec < 2048) ∧
    (∃ (s : State) (i p : Nat), (s.power.running = true ∧ i < 18 ∧ p < 2) ∧ ∃ (vec : Nat) (e : Msix), vec < 2048 ∧ (s.host i).msix = [(vec, e)] ∧
      e.pending = true ∧ (s.host i).funcMask = false ∧ (s.host i).bme = true) ∧
    (∃ (s : State) (i p : Nat), (s.power.running = true ∧ i < 18 ∧ p < 2) ∧ ∃ (a : _) (data : Bytes), (s.host i).bme = true ∧
      a + data.length ≤ 2 ^ 50) ∧
    (∃ (s : State) (i p : Nat), s.power.running = true ∧ i < 18 ∧ p < 2 ∧ (s.host i).bme = false) ∧
    (∃ (s : State) (i p : Nat), (s.power.running = true ∧ i < 18 ∧ p < 2) ∧ ∃ (a : _) (len : _),
      (s.host i).reads.find? (fun r => r.1 == a && r.2.1 == len) = none) ∧
    (∃ (s : State) (i p : Nat), (s.power.running = true ∧ i < 18 ∧ p < 2) ∧ ∃ (a : _) (len : _) (r : _),
      (s.host i).reads.find? (fun r => r.1 == a && r.2.1 == len) = some r ∧ s.tb.ticks < r.2.2 + 10 * msTicks) ∧
    (∃ (s : State) (i p : Nat), (s.power.running = true ∧ i < 18 ∧ p < 2) ∧ ∃ (a : _) (len : _) (r : _),
      (s.host i).reads.find? (fun r => r.1 == a && r.2.1 == len) = some r ∧ r.2.2 + 10 * msTicks ≤ s.tb.ticks ∧ (s.host i).bme = false) ∧
    (∃ (s : State) (i p : Nat), (s.power.running = true ∧ i < 18 ∧ p < 2) ∧ ∃ (a : _) (len : _) (r : _),
      (s.host i).reads.find? (fun r => r.1 == a && r.2.1 == len) = some r ∧ r.2.2 + 10 * msTicks ≤ s.tb.ticks ∧ (s.host i).bme = true ∧
      a + len ≤ 2 ^ 50) ∧
    (∃ (s : State) (i p : Nat), (s.power.running = true ∧ i < 18 ∧ p < 2) ∧ ∃ (speed : _) (width : _), mayTrain s p = true ∧ linkUp s p = false ∧
      1 ≤ speed ∧ speed ≤ 6 ∧ (width ∈ [1, 2, 4, 8, 16])) ∧
    (∃ (s : State) (i p : Nat), (s.power.running = true ∧ i < 18 ∧ p < 2) ∧ (mayTrain s p = false ∨ linkUp s p = true)) ∧
    (∃ (s : State) (i p : Nat), (s.power.running = true ∧ i < 18 ∧ p < 2) ∧ ∃ (high : _) (t : _),
      t = { s with pins := if p = 0 then { s.pins with perst0N := high } else { s.pins with perst1N := high } } ∧
      (high = true ∨ linkUp s p = false)) ∧
    (∃ (s : State) (i p : Nat), (s.power.running = true ∧ i < 18 ∧ p < 2) ∧ ∃ (high : _) (t : _),
      t = { s with pins := if p = 0 then { s.pins with perst0N := high } else { s.pins with perst1N := high } } ∧ high = false ∧ linkUp s p = true) ∧
    (∃ (s : State) (i p : Nat), (s.power.running = true ∧ i < 18 ∧ p < 2) ∧ ∃ (val : Word), val.toNat < 65536 ∧ (∀ t,
      t < 16 → sessOpen s t = false)) ∧
    (∃ (s : State) (i p : Nat), (s.power.running = true ∧ i < 18 ∧ p < 2) ∧ ∃ (val : Word), val.toNat < 65536 ∧ ∃ (t : _), t < 16 ∧
      sessOpen s t = true ∧ bit (s.reg .hifTenPort) t ≠ bit val.toNat t) ∧
    (∃ (s : State) (i p : Nat), (s.power.running = true ∧ i < 18 ∧ p < 2) ∧ ∃ (val : Word), val.toNat < 65536 ∧ ∃ (who : _), who < 18) :=
  ⟨⟨State.reset, 17, 1, by decide +kernel⟩,
  ⟨State.reset.setHost 17 { bme := true, funcMask := false, msix := [(2047, { addr := 0x1000, data := 7, pending := true })] }, 17, 1,
    by decide +kernel, 2047, by decide +kernel⟩,
  ⟨State.reset.setHost 17 { bme := true, funcMask := false, msix := [(2047, { addr := 0x1000, data := 7, pending := true })] }, 17, 1,
    by decide +kernel, 2047, { addr := 0x1000, data := 7, pending := true }, by decide +kernel⟩,
  ⟨State.reset.setHost 17 { bme := true }, 17, 1, by decide +kernel, 0x3FFFFFFFFFFFF, [1], by decide +kernel⟩,
  ⟨State.reset, 17, 1, by decide +kernel⟩,
  ⟨State.reset, 17, 1, by decide +kernel, 0, 4, by decide +kernel⟩,
  ⟨{ (State.reset.setHost 17 { bme := true, reads := [(0, 4, 0)] }) with tb := { State.reset.tb with ticks := 9999999 } }, 17, 1, by decide +kernel,
    0, 4, (0, 4, 0), by decide +kernel⟩,
  ⟨{ (State.reset.setHost 17 { bme := false, reads := [(0, 4, 0)] }) with tb := { State.reset.tb with ticks := 10000000 } }, 17, 1,
    by decide +kernel, 0, 4, (0, 4, 0), by decide +kernel⟩,
  ⟨{ (State.reset.setHost 17 { bme := true, reads := [(0, 4, 0)] }) with tb := { State.reset.tb with ticks := 10000000 } }, 17, 1, by decide +kernel,
    0, 4, (0, 4, 0), by decide +kernel⟩,
  ⟨{ State.reset with pins := { State.reset.pins with perst1N := true }, power := { State.reset.power with warm := true } }, 17, 1,
    by decide +kernel, 6, 16, by decide +kernel⟩,
  ⟨State.reset.setReg .hifPortSts 1 0 1, 17, 1, by decide +kernel, .inr (by decide +kernel)⟩,
  ⟨State.reset, 17, 1, by decide +kernel, true, _, rfl, .inl rfl⟩,
  ⟨State.reset.setReg .hifPortSts 1 0 1, 17, 1, by decide +kernel, false, _, rfl, by decide +kernel⟩,
  ⟨State.reset, 17, 1, by decide +kernel, 0xFFFF, by decide +kernel⟩,
  ⟨State.reset.setReg .cmdSession 15 0 1, 17, 1, by decide +kernel, 0x8000, by decide +kernel, 15, by decide +kernel⟩,
  ⟨State.reset, 17, 1, by decide +kernel, 0x8000, by decide +kernel, 17, by decide +kernel⟩⟩

/-- States and operands that meet the hypotheses of `Resets`, clause by clause. -/
theorem witness_Resets :
    (∃ (s : State) (i p : Nat), p < 2 ∧ s.power.running = true ∧ i < 16) ∧
    (∃ (s : State) (i p : Nat), (p < 2 ∧ s.power.running = true) ∧ (i = 16 ∨ i = 17) ∧ (∀ c, c ∈ s.cmd.cmds → c.fn ≠ i)) ∧
    (∃ (s : State) (i p : Nat), p < 2 ∧ s.power.running = true ∧ i < 18) ∧
    (∃ (s : State) (p : Nat), (p < 2 ∧ s.power.running = true) ∧ (∀ fn, fn < 16 → fnPort s fn ≠ p) ∧ (∀ c, c ∈ s.cmd.cmds → c.fn ≠ 16 + p)) ∧
    (∃ (s : State) (i p : Nat), p < 2 ∧ s.power.running = true ∧ s.power.warm = false ∧ (tget {} s.ports 0).up = true ∧ 16 ≤ i ∧ i < 21) ∧
    (∃ (s : State) (p : Nat), (p < 2 ∧ s.power.running = true) ∧ (s.power.warm = true ∨ (tget {} s.ports 0).up = false)) ∧
    (∃ (s : State) (i p : Nat), (p < 2 ∧ s.power.running = true) ∧ (i < 16 ∨ s.power.warm = true ∨ (tget {} s.ports 0).up = false) ∧ i < 21 ∧
      i ≠ 19) ∧
    (∃ (s : State) (p : Nat), p < 2 ∧ ∃ (t : _), t = { s with pins := { s.pins with coldN := false } } ∧ s.pins.pwrGood = true ∧
      s.power.tripped = false) ∧
    (∃ (s : State) (p : Nat), p < 2 ∧ (s.pins.pwrGood = false ∨ s.power.tripped = true)) :=
  ⟨⟨State.reset, 15, 1, by decide +kernel⟩,
  ⟨State.reset, 16, 1, by decide +kernel, .inl rfl, fun _ h => (nomatch h)⟩,
  ⟨State.reset, 15, 1, by decide +kernel⟩,
  ⟨State.reset, 1, by decide +kernel, by decide +kernel, fun _ h => (nomatch h)⟩,
  ⟨{ State.reset with ports := [(0, { up := true })] }, 16, 1, by decide +kernel⟩,
  ⟨{ State.reset with ports := [(0, { up := true })], power := { State.reset.power with warm := true } }, 1, by decide +kernel,
    .inl (by decide +kernel)⟩,
  ⟨{ State.reset with ports := [(0, { up := true })] }, 15, 1, by decide +kernel, .inl (by decide +kernel), by decide +kernel⟩,
  ⟨{ State.reset with pins := { State.reset.pins with pwrGood := true }, power := { State.reset.power with tripped := false } }, 1,
    by decide +kernel, _, rfl, by decide +kernel⟩,
  ⟨{ State.reset with pins := { State.reset.pins with pwrGood := false } }, 1, by decide +kernel⟩⟩

/-- States and operands that meet the hypotheses of `Start_Up`, clause by clause. -/
theorem witness_Start_Up :
    (∃ (s : State) (ok : Bool) (straps trained : Nat) (scan : Scan) (board : Bytes) (idents cables : List Bytes) (drives : List (Option DriveId)),
      s.power.running = true ∧ ∃ (i : _), i = (Instr.startupStepDone ok straps board scan idents cables trained drives) ∧ bootStep s ≤ 1 ∧
      s.pins.coldN = false) ∧
    (∃ (s : State) (ok : Bool) (straps trained : Nat) (scan : Scan) (board : Bytes) (idents cables : List Bytes) (drives : List (Option DriveId)),
      s.power.running = true ∧ ∃ (i : _), i = (Instr.startupStepDone ok straps board scan idents cables trained drives) ∧ bootStep s ≤ 1 ∧
      s.pins.coldN = true ∧ ok = true) ∧
    (∃ (s : State) (ok : Bool) (straps trained : Nat) (scan : Scan) (board : Bytes) (idents cables : List Bytes) (drives : List (Option DriveId)),
      s.power.running = true ∧ ∃ (i : _), i = (Instr.startupStepDone ok straps board scan idents cables trained drives) ∧ bootStep s ≤ 1 ∧
      s.pins.coldN = true ∧ ok = false ∧ bits (s.reg .glbBootSts) 11 4 = 0) ∧
    (∃ (s : State) (ok : Bool) (straps trained : Nat) (scan : Scan) (board : Bytes) (idents cables : List Bytes) (drives : List (Option DriveId)),
      s.power.running = true ∧ ∃ (i : _), i = (Instr.startupStepDone ok straps board scan idents cables trained drives) ∧ bootStep s = 2 ∧
      ok = true ∧ s.sec.rngFail = false) ∧
    (∃ (s : State) (ok : Bool) (straps trained : Nat) (scan : Scan) (board : Bytes) (idents cables : List Bytes) (drives : List (Option DriveId)),
      s.power.running = true ∧ ∃ (i : _), i = (Instr.startupStepDone ok straps board scan idents cables trained drives) ∧ bootStep s = 2 ∧
      ok = true ∧ s.sec.rngFail = true ∧ s.tb.ticks < s.sec.rngSince + 10 * msTicks) ∧
    (∃ (s : State) (ok : Bool) (straps trained : Nat) (scan : Scan) (board : Bytes) (idents cables : List Bytes) (drives : List (Option DriveId)),
      s.power.running = true ∧ ∃ (i : _), i = (Instr.startupStepDone ok straps board scan idents cables trained drives) ∧ bootStep s = 2 ∧
      (ok = false ∨ (s.sec.rngFail = true ∧ s.sec.rngSince + 10 * msTicks ≤ s.tb.ticks)) ∧ bits (s.reg .glbBootSts) 11 4 = 0) ∧
    (∃ (s : State) (ok : Bool) (straps trained : Nat) (scan : Scan) (board : Bytes) (idents cables : List Bytes) (drives : List (Option DriveId)),
      s.power.running = true ∧ ∃ (i : _), i = (Instr.startupStepDone ok straps board scan idents cables trained drives) ∧ bootStep s = 3 ∧
      ok = true) ∧
    (∃ (s : State) (ok : Bool) (straps trained : Nat) (scan : Scan) (board : Bytes) (idents cables : List Bytes) (drives : List (Option DriveId)),
      s.power.running = true ∧ ∃ (i : _), i = (Instr.startupStepDone ok straps board scan idents cables trained drives) ∧ bootStep s = 3 ∧
      ok = false) ∧
    (∃ (s : State) (ok : Bool) (straps trained : Nat) (scan : Scan) (board : Bytes) (idents cables : List Bytes) (drives : List (Option DriveId)),
      s.power.running = true ∧ ∃ (i : _), i = (Instr.startupStepDone ok straps board scan idents cables trained drives) ∧ bootStep s = 4 ∧
      ok = false ∧ bits (s.reg .glbBootSts) 11 4 = 0) ∧
    (∀ m, slotBoots bootFour 0 = some m → ∃ (s : State) (ok : Bool) (straps trained : Nat) (scan : Scan) (board : Bytes) (idents cables : List Bytes) (drives : List (Option DriveId)), s.power.running = true ∧ ∃ (i : _), i = (Instr.startupStepDone ok straps board scan idents cables trained drives) ∧ ∃ (m : _) (k : _), (bootStep s = 4 ∧ ok = true ∧ secHalted s = false ∧ s.sec.derived = true) ∧ k = s.sec.active.getD Config.flashActive % 2 ∧ slotBoots s k = some m) ∧
    (∃ (s : State) (ok : Bool) (straps trained : Nat) (scan : Scan) (board : Bytes) (idents cables : List Bytes) (drives : List (Option DriveId)),
      s.power.running = true ∧ ∃ (i : _), i = (Instr.startupStepDone ok straps board scan idents cables trained drives) ∧ bootStep s = 4 ∧
      ok = true ∧ secHalted s = true) ∧
    (∃ (s : State) (ok : Bool) (straps trained : Nat) (scan : Scan) (board : Bytes) (idents cables : List Bytes) (drives : List (Option DriveId)),
      s.power.running = true ∧ ∃ (i : _), i = (Instr.startupStepDone ok straps board scan idents cables trained drives) ∧ bootStep s = 5 ∧
      ok = true) ∧
    (∃ (s : State) (ok : Bool) (straps trained : Nat) (scan : Scan) (board : Bytes) (idents cables : List Bytes) (drives : List (Option DriveId)),
      s.power.running = true ∧ ∃ (i : _), i = (Instr.startupStepDone ok straps board scan idents cables trained drives) ∧ bootStep s = 5 ∧
      ok = false) ∧
    (∃ (s : State) (ok : Bool) (straps trained : Nat) (scan : Scan) (board : Bytes) (idents cables : List Bytes) (drives : List (Option DriveId)),
      s.power.running = true ∧ ∃ (i : _), i = (Instr.startupStepDone ok straps board scan idents cables trained drives) ∧ bootStep s = 6) ∧
    (∃ (s : State) (ok : Bool) (straps trained : Nat) (scan : Scan) (board : Bytes) (idents cables : List Bytes) (drives : List (Option DriveId)),
      s.power.running = true ∧ ∃ (i : _), i = (Instr.startupStepDone ok straps board scan idents cables trained drives) ∧ bootStep s = 7) ∧
    (∃ (s : State) (ok : Bool) (straps trained : Nat) (scan : Scan) (board : Bytes) (idents cables : List Bytes) (drives : List (Option DriveId)),
      s.power.running = true ∧ ∃ (i : _), i = (Instr.startupStepDone ok straps board scan idents cables trained drives) ∧ ∃ (t : _), bootStep s = 8 ∧
      t = bootSerdes cables drives s ∧ t.power.warm = false) ∧
    (∃ (s : State) (ok : Bool) (straps trained : Nat) (scan : Scan) (board : Bytes) (idents cables : List Bytes) (drives : List (Option DriveId)),
      s.power.running = true ∧ ∃ (i : _), i = (Instr.startupStepDone ok straps board scan idents cables trained drives) ∧ ∃ (t : _), bootStep s = 8 ∧
      t = bootSerdes cables drives s ∧ t.power.warm = true) ∧
    (∃ (s : State) (ok : Bool) (straps trained : Nat) (scan : Scan) (board : Bytes) (idents cables : List Bytes) (drives : List (Option DriveId)),
      s.power.running = true ∧ ∃ (i : _), i = (Instr.startupStepDone ok straps board scan idents cables trained drives) ∧ bootStep s = 9) ∧
    (∃ (s : State) (ok : Bool) (straps trained : Nat) (scan : Scan) (board : Bytes) (idents cables : List Bytes) (drives : List (Option DriveId)),
      s.power.running = true ∧ ∃ (i : _), i = (Instr.startupStepDone ok straps board scan idents cables trained drives) ∧ 10 ≤ bootStep s ∧
      (s.power.warm = true ∨ (tget {} s.ports 0).up = false) ∧ (∀ n, n < 32 → tget 0 s.own.zeroing n = 0)) ∧
    (∃ (s : State) (ok : Bool) (straps trained : Nat) (scan : Scan) (board : Bytes) (idents cables : List Bytes) (drives : List (Option DriveId)),
      s.power.running = true ∧ ∃ (i : _), i = (Instr.startupStepDone ok straps board scan idents cables trained drives) ∧ 10 ≤ bootStep s ∧
      (((tget {} s.ports 0).up = true ∧ s.power.warm = false) ∨ (∃ n, n < 32 ∧ tget 0 s.own.zeroing n ≠ 0))) :=
  ⟨⟨({ State.reset with pins := { State.reset.pins with coldN := false } }).setReg .glbBootSts 0 0 1, true, 0, 0, ⟨[], 1, 0, 0⟩, [], [], [], [],
    by decide +kernel, _, rfl, by decide +kernel⟩,
  ⟨(State.reset).setReg .glbBootSts 0 0 1, true, 0, 0, ⟨[], 1, 0, 0⟩, [], [], [], [], by decide +kernel, _, rfl, by decide +kernel⟩,
  ⟨(State.reset).setReg .glbBootSts 0 0 1, false, 0, 0, ⟨[], 1, 0, 0⟩, [], [], [], [], by decide +kernel, _, rfl, by decide +kernel⟩,
  ⟨(State.reset).setReg .glbBootSts 0 0 2, true, 0, 0, ⟨[], 1, 0, 0⟩, [], [], [], [], by decide +kernel, _, rfl, by decide +kernel⟩,
  ⟨{ State.reset.setReg .glbBootSts 0 0 2 with sec := { State.reset.sec with rngFail := true } }, true, 0, 0, ⟨[], 1, 0, 0⟩, [], [], [], [],
    by decide +kernel, _, rfl, by decide +kernel⟩,
  ⟨(State.reset).setReg .glbBootSts 0 0 2, false, 0, 0, ⟨[], 1, 0, 0⟩, [], [], [], [], by decide +kernel, _, rfl, by decide +kernel⟩,
  ⟨(State.reset).setReg .glbBootSts 0 0 3, true, 0, 0, ⟨[], 1, 0, 0⟩, [], [], [], [], by decide +kernel, _, rfl, by decide +kernel⟩,
  ⟨(State.reset).setReg .glbBootSts 0 0 3, false, 0, 0, ⟨[], 1, 0, 0⟩, [], [], [], [], by decide +kernel, _, rfl, by decide +kernel⟩,
  ⟨(State.reset).setReg .glbBootSts 0 0 4, false, 0, 0, ⟨[], 1, 0, 0⟩, [], [], [], [], by decide +kernel, _, rfl, by decide +kernel⟩,
  fun m h => ⟨bootFour, true, 0, 0, ⟨[], 1, 0, 0⟩, [], [], [], [], by decide +kernel, _, rfl, m, _, by decide +kernel, rfl, h⟩,
  ⟨(State.reset.setFw 34 { st := .halted }).setReg .glbBootSts 0 0 4, true, 0, 0, ⟨[], 1, 0, 0⟩, [], [], [], [], by decide +kernel, _, rfl,
    by decide +kernel⟩,
  ⟨(State.reset).setReg .glbBootSts 0 0 5, true, 0, 0, ⟨[], 1, 0, 0⟩, [], [], [], [], by decide +kernel, _, rfl, by decide +kernel⟩,
  ⟨State.reset.setReg .glbBootSts 0 0 5, false, 0, 0, ⟨[], 1, 0, 0⟩, [], [], [], [], by decide +kernel, _, rfl, by decide +kernel⟩,
  ⟨(State.reset).setReg .glbBootSts 0 0 6, true, 0, 0, ⟨[], 1, 0, 0⟩, [], [], [], [], by decide +kernel, _, rfl, by decide +kernel⟩,
  ⟨(State.reset).setReg .glbBootSts 0 0 7, true, 0, 0, ⟨[], 1, 0, 0⟩, [], [], [], [], by decide +kernel, _, rfl, by decide +kernel⟩,
  ⟨(State.reset).setReg .glbBootSts 0 0 8, true, 0, 0, ⟨[], 1, 0, 0⟩, [], [], [], [], by decide +kernel, _, rfl, _, by decide +kernel, rfl,
    by decide +kernel⟩,
  ⟨{ State.reset.setReg .glbBootSts 0 0 8 with power := { State.reset.power with warm := true } }, true, 0, 0, ⟨[], 1, 0, 0⟩, [], [], [], [],
    by decide +kernel, _, rfl, _, by decide +kernel, rfl, by decide +kernel⟩,
  ⟨(State.reset).setReg .glbBootSts 0 0 9, true, 0, 0, ⟨[], 1, 0, 0⟩, [], [], [], [], by decide +kernel, _, rfl, by decide +kernel⟩,
  ⟨State.reset.setReg .glbBootSts 0 0 15, true, 0, 0, ⟨[], 1, 0, 0⟩, [], [], [], [], by decide +kernel, _, rfl, by decide +kernel⟩,
  ⟨{ State.reset.setReg .glbBootSts 0 0 15 with own := { State.reset.own with zeroing := [(31, 1)] } }, true, 0, 0, ⟨[], 1, 0, 0⟩, [], [], [], [],
    by decide +kernel, _, rfl, by decide +kernel⟩⟩

/-- States and operands that meet the hypotheses of `Register_Writes`, clause by clause. -/
theorem witness_Register_Writes :
    (∃ (s : State) (who off : Nat), s.power.running = true ∧ who < 19 ∧ off % 4 ≠ 0) ∧
    (∃ (s : State) (who off : Nat), s.power.running = true ∧ who < 19 ∧ off % 4 = 0 ∧ 0x140000 ≤ off ∧ off < 0x150100 ∧ viewFn s who < 18) ∧
    (∃ (s : State) (who off : Nat), s.power.running = true ∧ who < 19 ∧ off % 4 = 0 ∧ 0x140000 ≤ off ∧ off < 0x150100 ∧ 18 ≤ viewFn s who) ∧
    (∃ (s : State) (who off : Nat), (s.power.running = true ∧ who < 19 ∧ off % 4 = 0) ∧ (off < 0x140000 ∨ 0x150100 ≤ off) ∧ regOf off = none) ∧
    (∃ (s : State) (who off i j w : Nat) (r : Reg), s.power.running = true ∧ who < 19 ∧ off % 4 = 0 ∧ (off < 0x140000 ∨ 0x150100 ≤ off) ∧
      regOf off = some (r, i, j, w) ∧ regTakes s who r i j = true ∧
      r ∉ [.tbStep, .tbAdj, .hifTenPort, .cmdAdmq, .ckpStageBase, .ckpStageBytes, .syncCoreCtx, .syncFnCtx, .detCtrl, .logHead, .memInject, .segMode, .regionWin, .seamCtrl, .ethCtrl, .prsTmap, .prsUntagged, .prsProfile0, .prsProfile1, .prsProfileF, .strmConsumed, .driveCtrl, .stoSqTail, .stoCqHead, .lodeCtrl, .meCtrl, .bcCtrl, .glbReset]) ∧
    (∃ (s : State) (who off i j w : Nat) (r : Reg), s.power.running = true ∧ who < 19 ∧ off % 4 = 0 ∧ (off < 0x140000 ∨ 0x150100 ≤ off) ∧
      regOf off = some (r, i, j, w) ∧ regTakes s who r i j = false ∧ (who = 18 ∨ instInS s r i = false) ∧ r ≠ .segMode) ∧
    (∃ (s : State) (who off i j w : Nat) (r : Reg), s.power.running = true ∧ who < 19 ∧ off % 4 = 0 ∧ (off < 0x140000 ∨ 0x150100 ≤ off) ∧
      regOf off = some (r, i, j, w) ∧ who ≠ 18 ∧ regTakes s who r i j = false ∧ instInS s r i = true) ∧
    (∃ (s : State) (who off : Nat), (s.power.running = true ∧ who < 19) ∧ ∃ (len : Nat), (len ≠ 4 ∨ off % 4 ≠ 0) ∧ off < 0x4000000) ∧
    (∃ (s : State) (who off : Nat), s.power.running = true ∧ who < 19 ∧ off % 4 = 0 ∧ off < 0x4000000) ∧
    (∃ (s : State) (who : Nat), (s.power.running = true ∧ who < 19) ∧ ∃ (a : Nat), (place s a).1 ≠ .regs) ∧
    (∃ (s : State) (who off i j w : Nat) (r : Reg), (s.power.running = true ∧ who < 19) ∧ ∃ (req : Requester) (t : State),
      t = { s with ended := some 0x0000 } ∧ req.world = .s ∧ off % 4 = 0 ∧ off < 0x140000 ∧ regOf off = some (r, i, j, w) ∧
      (regRow r).latch = false) ∧
    (∃ (r : Reg) (k : Nat), (regRow r).words = 1 ∧ k < 32 ∧ bit (regRow r).w1s k = false) ∧
    (∃ (r : Reg) (k : Nat), (regRow r).words = 1 ∧ k < 32 ∧ bit (regRow r).w1s k = true ∧ bit (regRow r).rw k = false ∧
      bit (regRow r).w1c k = false) ∧
    (∃ (s : State), s.power.running = true) :=
  ⟨⟨State.reset, 18, 0x3FFFFFF, by decide +kernel⟩,
  ⟨State.reset, 17, 0x1500FC, by decide +kernel⟩,
  ⟨State.reset.setReg .hifView 0 0 18, 18, 0x1500FC, by decide +kernel⟩,
  ⟨State.reset, 18, 0x3FFFFFC, by decide +kernel, .inr (by decide +kernel), by decide +kernel⟩,
  ⟨State.reset, 17, regAddr .exportCtl 0 0 0, 0, 0, 0, .exportCtl, by decide +kernel⟩,
  ⟨owned 31 4 State.reset, 3, regAddr .lodeMvErr 31 0 0, 31, 0, 0, .lodeMvErr, by decide +kernel⟩,
  ⟨State.reset, 17, regAddr .lodeMvErr 31 0 0, 31, 0, 0, .lodeMvErr, by decide +kernel⟩,
  ⟨State.reset, 18, 0x3FFFFFC, by decide +kernel, 8, .inl (by decide +kernel), by decide +kernel⟩,
  ⟨State.reset, 18, 0x3FFFFFC, by decide +kernel⟩,
  ⟨State.reset, 18, by decide +kernel, 0, by decide +kernel⟩,
  ⟨State.reset, 18, 4, 0, 0, 0, .glbPartId, by decide +kernel, ⟨.s, 0, 0⟩, _, rfl, by decide +kernel⟩,
  ⟨.exportCtl, 31, by decide +kernel⟩,
  ⟨.memInject, 0, by decide +kernel⟩,
  ⟨State.reset, by decide +kernel⟩⟩

/-- States and operands that meet the hypotheses of `Fabric_Requests`, clause by clause. -/
theorem witness_Fabric_Requests :
    (∃ (s z : State) (q : FabricReq) (a n : Nat), s.power.running = true ∧ z = { s with resp := none, ended := none } ∧ q.errs = [] ∧ q.table = 0 ∧
      0 < n ∧ (place s a).1 ≠ .regs ∧ (place s a).1 ≠ .host ∧ permits s q.who a n false = false) ∧
    (∃ (s z : State) (q : FabricReq) (a n : Nat), s.power.running = true ∧ z = { s with resp := none, ended := none } ∧ q.errs = [] ∧ q.table = 0 ∧
      0 < n ∧ (place s a).1 ≠ .regs ∧ (place s a).1 ≠ .host ∧ permits s q.who a n false = true ∧ rangeWaits s a n = true) ∧
    (∃ (s t z : State) (q : FabricReq) (a n : Nat) (b : Bytes), s.power.running = true ∧ z = { s with resp := none, ended := none } ∧ (q.errs = [] ∧
      q.table = 0 ∧ 0 < n ∧ (place s a).1 ≠ .regs ∧ (place s a).1 ≠ .host ∧ permits s q.who a n false = true ∧ rangeWaits s a n = false) ∧
      readMem z a n = (t, .ok b)) ∧
    (∃ (s z : State) (q : FabricReq) (a : Nat) (d : Bytes), s.power.running = true ∧ z = { s with resp := none, ended := none } ∧ q.errs = [] ∧
      q.table = 0 ∧ d ≠ [] ∧ (place s a).1 ≠ .regs ∧ (place s a).1 ≠ .host ∧ permits s q.who a d.length true = false) ∧
    (∃ (s t z : State) (q : FabricReq) (a : Nat) (d : Bytes), s.power.running = true ∧ z = { s with resp := none, ended := none } ∧ (q.errs = [] ∧
      q.table = 0 ∧ d ≠ [] ∧ (place s a).1 ≠ .regs ∧ (place s a).1 ≠ .host ∧ permits s q.who a d.length true = true ∧
      rangeWaits s a d.length = false) ∧ devWrite a d z = (t, none) ∧ t.resp = none) ∧
    (∃ (s z : State) (q : FabricReq) (a n : Nat) (wr : Bool) (d : Bytes), s.power.running = true ∧ z = { s with resp := none, ended := none } ∧
      ∃ (k : _) (v : _), bridgeDir (unitDie q.who.unit) (addrDie s a) = some k ∧ k < 6 ∧ q.errs = [⟨false, v, 2⟩] ∧
      0 < (if wr then d.length else n)) :=
  ⟨⟨mine 0x1000, _, ⟨tenReq 15 0, [], [], 0⟩, 0x1FFF, 2, by decide +kernel, rfl, by decide +kernel⟩,
  ⟨{ mine 0x1000 with own := { (mine 0x1000).own with fills := [(0, 16)] } }, _, ⟨tenReq 15 0, [], [], 0⟩, 0x1FFF, 1, by decide +kernel, rfl,
    by decide +kernel⟩,
  ⟨mine 0x1000, _, _, ⟨tenReq 15 0, [], [], 0⟩, 0x1FFF, 1, _, by decide +kernel, rfl, by decide +kernel, okSome (by decide +kernel)⟩,
  ⟨mine 0x1000, _, ⟨tenReq 15 0, [], [], 0⟩, 0x1FFF, [1, 2], by decide +kernel, rfl, by decide +kernel⟩,
  ⟨mine 0x1000, _, _, ⟨tenReq 15 0, [], [], 0⟩, 0x1FFF, [1], by decide +kernel, rfl, by decide +kernel, wrOk (by decide +kernel), by decide +kernel⟩,
  ⟨State.reset, _, ⟨tenReq 15 0, [], [⟨false, 31, 2⟩], 0⟩, strataBase + 0x10000000, 1, false, [1], by decide +kernel, rfl, 0, 31, by decide +kernel⟩⟩

/-- States and operands that meet the hypotheses of `Transport_Takes`, clause by clause. -/
theorem witness_Transport_Takes :
    (∃ (s : State) (id : Nat) (c : Cmd) (i : Nat), i = 16 * c.fn + c.p 0 ∧ ∃ (p : _) (ctx : _), Ready s .ftRingCreate id c ∧ (s.ftRing i = none ∧
      translateFor s (c.fn + 1) (fnBind s c.fn) (bits (c.p 2) 23 0) = .phys p) ∧
      ctx = (if bit (bits (c.p 2) 23 0) 23 then (fnBind s c.fn).getD 0xFFFF else 0xFFFF)) ∧
    (∃ (s : State) (id : Nat) (c : Cmd) (i : Nat), i = 16 * c.fn + c.p 0 ∧ ∃ (x : _), Ready s .ftRingCreate id c ∧ s.ftRing i = none ∧
      translateFor s (c.fn + 1) (fnBind s c.fn) (bits (c.p 2) 23 0) = x ∧ x = .ue) ∧
    (∃ (s : State) (id : Nat) (c : Cmd) (i : Nat), i = 16 * c.fn + c.p 0 ∧ ∃ (x : _), Ready s .ftRingCreate id c ∧ (s.ftRing i = none ∧
      translateFor s (c.fn + 1) (fnBind s c.fn) (bits (c.p 2) 23 0) = x) ∧ (x = .none ∨ ∃ d k, x = .remote d k)) ∧
    (∃ (s : State) (id : Nat) (c : Cmd) (i : Nat), i = 16 * c.fn + c.p 0 ∧ Ready s .ftRingCreate id c ∧ (s.ftRing i).isSome = true) ∧
    (∃ (s : State) (id : Nat) (c : Cmd) (i : Nat), i = 16 * c.fn + c.p 0 ∧ ∃ (r : FtRing), Ready s .ftRingDelete id c ∧ s.ftRing i = some r ∧
      (∀ k m n, (k, some m) ∈ s.ft.msgs → m.from_ ≠ .ring i n)) ∧
    (∃ (s : State) (id : Nat) (c : Cmd) (i : Nat), i = 16 * c.fn + c.p 0 ∧ Ready s .ftRingDelete id c ∧ s.ftRing i = none) ∧
    (∃ (s : State) (id : Nat) (c : Cmd) (i : Nat), i = 16 * c.fn + c.p 0 ∧ ∃ (r : FtRing) (k : Nat) (m : FtMsg) (n : Nat),
      Ready s .ftRingDelete id c ∧ s.ftRing i = some r ∧ ((k, some m) ∈ s.ft.msgs) ∧ m.from_ = .ring i n) ∧
    (∃ (s : State) (id : Nat) (c : Cmd) (i : Nat), i = 16 * c.fn + c.p 0 ∧ Ready s .ftRqBind id c ∧ s.ftRq i = none ∧
      (c.p 3 ≠ 0xFFFFFFFF ∨ strict s c.fn = false)) ∧
    (∃ (s : State) (id : Nat) (c : Cmd) (i : Nat), i = 16 * c.fn + c.p 0 ∧ Ready s .ftRqBind id c ∧ s.ftRq i = none ∧ c.p 3 = 0xFFFFFFFF ∧
      strict s c.fn = true) ∧
    (∃ (s : State) (id : Nat) (c : Cmd) (i : Nat), i = 16 * c.fn + c.p 0 ∧ Ready s .ftRqBind id c ∧ (s.ftRq i).isSome = true) ∧
    (∃ (s : State) (id : Nat) (c : Cmd) (i : Nat), i = 16 * c.fn + c.p 0 ∧ ∃ (r : FtRq), Ready s .ftRqUnbind id c ∧ s.ftRq i = some r ∧
      (∀ e ∈ s.ft.rx, e.st = .active → ∀ q, e.rq = some q → q.1 ≠ i)) ∧
    (∃ (s : State) (id : Nat) (c : Cmd) (i : Nat), i = 16 * c.fn + c.p 0 ∧ ∃ (r : FtRq) (e : _) (q : _), Ready s .ftRqUnbind id c ∧
      s.ftRq i = some r ∧ (e ∈ s.ft.rx) ∧ e.st = .active ∧ e.rq = some (i, q)) ∧
    (∃ (s : State) (id : Nat) (c : Cmd) (i : Nat), i = 16 * c.fn + c.p 0 ∧ Ready s .ftRqUnbind id c ∧ s.ftRq i = none) ∧
    (∃ (s : State), ∃ (cmd : Instr) (op : Nat), ((cmd, op) ∈ [(Instr.ftWrite, 1), (.ftRead, 2), (.ftSend, 4), (.ftAtomic, 5), (.ftSignal, 0x0A)]) ∧
      s.power.running = true ∧ ftNext s = none) ∧
    (∃ (s u : State) (i : Nat), ∃ (cmd : Instr) (op : Nat), (((cmd,
      op) ∈ [(Instr.ftWrite, 1), (.ftRead, 2), (.ftSend, 4), (.ftAtomic, 5), (.ftSignal, 0x0A)]) ∧ s.power.running = true) ∧
      ∃ (r : FtRing) (a : Nat), ftNext s = some (i, r) ∧ a = r.base + r.next % 2 ^ r.log2 * 64 ∧
      u = { s with ft := { s.ft with last := i, rings := tput none s.ft.rings i (some { r with next := (r.next + 1) % 2 ^ 32, credit := r.credit - 1 }) } } ∧
      memWaits s a 64 = true) ∧
    (∃ (s u : State) (i : Nat), ∃ (cmd : Instr) (op : Nat), (((cmd,
      op) ∈ [(Instr.ftWrite, 1), (.ftRead, 2), (.ftSend, 4), (.ftAtomic, 5), (.ftSignal, 0x0A)]) ∧ s.power.running = true) ∧
      ∃ (r : FtRing) (a : Nat), ftNext s = some (i, r) ∧ a = r.base + r.next % 2 ^ r.log2 * 64 ∧
      u = { s with ft := { s.ft with last := i, rings := tput none s.ft.rings i (some { r with next := (r.next + 1) % 2 ^ 32, credit := r.credit - 1 }) } } ∧
      memWaits s a 64 = false ∧ (memByte s a).toNat ≠ op ∧ ((memByte s a).toNat ∈ [1, 2, 4, 5, 0x0A])) ∧
    (∃ (s u : State) (i : Nat), ∃ (cmd : Instr) (op : Nat), (((cmd,
      op) ∈ [(Instr.ftWrite, 1), (.ftRead, 2), (.ftSend, 4), (.ftAtomic, 5), (.ftSignal, 0x0A)]) ∧ s.power.running = true) ∧
      ∃ (r : FtRing) (a : Nat), ftNext s = some (i, r) ∧ a = r.base + r.next % 2 ^ r.log2 * 64 ∧
      u = { s with ft := { s.ft with last := i, rings := tput none s.ft.rings i (some { r with next := (r.next + 1) % 2 ^ 32, credit := r.credit - 1 }) } } ∧
      ∃ (code : _), memWaits s a 64 = false ∧ code = (memByte s a).toNat ∧ (code = op ∨ code ∉ [1, 2, 4, 5, 0x0A]) ∧
      permits u (tenReq (i / 16) 0x202) a 64 false = false) ∧
    (∃ (s u : State) (i : Nat), ∃ (cmd : Instr) (op : Nat), (((cmd,
      op) ∈ [(Instr.ftWrite, 1), (.ftRead, 2), (.ftSend, 4), (.ftAtomic, 5), (.ftSignal, 0x0A)]) ∧ s.power.running = true) ∧
      ∃ (r : FtRing) (a : Nat), ftNext s = some (i, r) ∧ a = r.base + r.next % 2 ^ r.log2 * 64 ∧
      u = { s with ft := { s.ft with last := i, rings := tput none s.ft.rings i (some { r with next := (r.next + 1) % 2 ^ 32, credit := r.credit - 1 }) } } ∧
      ∃ (code : _), memWaits s a 64 = false ∧ code = (memByte s a).toNat ∧ (code = op ∨ code ∉ [1, 2, 4, 5, 0x0A]) ∧ ∃ (v : _) (x : _),
      permits u (tenReq (i / 16) 0x202) a 64 false = true ∧ readMem u a 64 = (v, .error x)) ∧
    (∃ (s u : State) (i : Nat), ∃ (cmd : Instr) (op : Nat), (((cmd,
      op) ∈ [(Instr.ftWrite, 1), (.ftRead, 2), (.ftSend, 4), (.ftAtomic, 5), (.ftSignal, 0x0A)]) ∧ s.power.running = true) ∧
      ∃ (r : FtRing) (a : Nat), ftNext s = some (i, r) ∧ a = r.base + r.next % 2 ^ r.log2 * 64 ∧
      u = { s with ft := { s.ft with last := i, rings := tput none s.ft.rings i (some { r with next := (r.next + 1) % 2 ^ 32, credit := r.credit - 1 }) } } ∧
      ∃ (code : _), memWaits s a 64 = false ∧ code = (memByte s a).toNat ∧ (code = op ∨ code ∉ [1, 2, 4, 5, 0x0A]) ∧ ∃ (v : _) (e : Bytes),
      permits u (tenReq (i / 16) 0x202) a 64 false = true ∧ readMem u a 64 = (v, .ok e)) ∧
    (∃ (i : Nat), ∃ (e : Bytes) (op aop t : Nat), t = i / 16 ∧ op = fld e 0 1 ∧ aop = fld e 3 1 ∧ fld e 52 4 = 0 ∧ op ∉ [1, 2, 4, 5, 0x0A]) ∧
    (∃ (i : Nat), ∃ (e : Bytes) (op aop t : Nat), t = i / 16 ∧ op = fld e 0 1 ∧ aop = fld e 3 1 ∧ fld e 52 4 = 0 ∧ (op ∈ [1, 2, 4, 5, 0x0A]) ∧
      entryZeroOk e = false) ∧
    (∃ (u : State) (i : Nat), ∃ (e : Bytes) (op aop t : Nat), t = i / 16 ∧ op = fld e 0 1 ∧ aop = fld e 3 1 ∧ fld e 52 4 = 0 ∧
      (op ∈ [1, 2, 4, 5, 0x0A]) ∧ entryZeroOk e = true ∧ entryLegal u e = false) ∧
    (∃ (u : State) (i : Nat), ∃ (e : Bytes) (op aop t : Nat), t = i / 16 ∧ op = fld e 0 1 ∧ aop = fld e 3 1 ∧ (fld e 52 4 = 0 ∧
      (op ∈ [1, 2, 4, 5, 0x0A]) ∧ entryZeroOk e = true ∧ entryLegal u e = true) ∧ (op = 1 ∨ op = 2 ∨ op = 4) ∧ fld e 32 4 ≠ 0 ∧
      permits u (tenReq t 0x202) (fld e 16 8) (fld e 32 4) (op == 2) = false) ∧
    (∃ (u : State) (i : Nat), ∃ (e : Bytes) (op aop t : Nat), t = i / 16 ∧ op = fld e 0 1 ∧ aop = fld e 3 1 ∧ fld e 52 4 = 0 ∧
      (op ∈ [1, 2, 4, 5, 0x0A]) ∧ entryZeroOk e = true ∧ entryLegal u e = true ∧ op = 5 ∧
      (aopFetch aop = false ∨ permits u (tenReq t 0x202) (fld e 16 8) 8 true = true) ∧ aopCounted aop = true ∧ strict u t = true) ∧
    (∃ (u : State) (i : Nat), ∃ (e : Bytes) (op aop t : Nat), t = i / 16 ∧ op = fld e 0 1 ∧ aop = fld e 3 1 ∧ (fld e 52 4 = 0 ∧
      (op ∈ [1, 2, 4, 5, 0x0A])) ∧ ∃ (v : _) (j : Nat), (entryZeroOk e = true ∧ entryLegal u e = true ∧
      ((op = 1 ∨ op = 2 ∨ op = 4 → permits u (tenReq t 0x202) (fld e 16 8) (fld e 32 4) (op == 2) = true) ∧
      (op = 5 → aopFetch aop = true → permits u (tenReq t 0x202) (fld e 16 8) 8 true = true) ∧
      (op = 5 → aopCounted aop = true → strict u t = false))) ∧ v = (if op = 5 ∧ aopCounted aop = true then varCount t none u else u) ∧
      (List.range 65536).find? (fun k => (v.ftMsg k).isNone) = some j) :=
  ⟨⟨having (cmdOf .ftRingCreate 15 [15, 12, 17407, 0x1000, 0x2000]) ({ State.reset with own := { State.reset.own with ibcs := [(15, 16)] } }), 1,
    cmdOf .ftRingCreate 15 [15, 12, 17407, 0x1000, 0x2000], _, rfl, 17407, 0xFFFF, rdy (by decide +kernel), by decide +kernel, by decide +kernel⟩,
  ⟨having (cmdOf .ftRingCreate 15 [15, 12, 0x800000, 0x1000, 0x2000]) { (((State.reset).setReg .syncCtx 0 7 0x10).setReg .syncCtxLen 0 7 1).setReg .syncFnCtx 0 15 263 with sync := { xbad := [0] } },
    1, cmdOf .ftRingCreate 15 [15, 12, 0x800000, 0x1000, 0x2000], _, rfl, .ue, rdy (by decide +kernel), by decide +kernel⟩,
  ⟨having (cmdOf .ftRingCreate 15 [15, 12, 17408, 0x1000, 0x2000]) State.reset, 1, cmdOf .ftRingCreate 15 [15, 12, 17408, 0x1000, 0x2000], _, rfl,
    .none, rdy (by decide +kernel), by decide +kernel, .inl rfl⟩,
  ⟨having (cmdOf .ftRingCreate 15 [15, 12, 17407, 0x1000, 0x2000]) ({ State.reset with own := { State.reset.own with ibcs := [(15, 16)] }, ft := { rings := [(255, some { log2 := 4, ctr := 17407, base := 0x1000, cq := 0x2000 })] } }),
    1, cmdOf .ftRingCreate 15 [15, 12, 17407, 0x1000, 0x2000], _, rfl, rdy (by decide +kernel), by decide +kernel⟩,
  ⟨having (cmdOf .ftRingDelete 15 [15]) ({ State.reset with own := { State.reset.own with ibcs := [(15, 16)] }, ft := { rings := [(255, some { log2 := 4, ctr := 17407, base := 0x1000, cq := 0x2000 })] } }),
    1, cmdOf .ftRingDelete 15 [15], _, rfl, { log2 := 4, ctr := 17407, base := 0x1000, cq := 0x2000 }, rdy (by decide +kernel), by decide +kernel,
    fun _ _ _ h => nomatch h⟩,
  ⟨having (cmdOf .ftRingDelete 15 [15]) (State.reset), 1, cmdOf .ftRingDelete 15 [15], _, rfl, rdy (by decide +kernel), by decide +kernel⟩,
  ⟨having (cmdOf .ftRingDelete 15 [15]) ({ State.reset with own := { State.reset.own with ibcs := [(15, 16)] }, ft := { rings := [(255, some { log2 := 4, ctr := 17407, base := 0x1000, cq := 0x2000 })], msgs := [(65535, some { gen := 0, take := 0, from_ := .ring 255 7, tenant := 15, op := 1, ord := false, cls := 0, dst := 1, raddr := 0, len := 1, mtu := 10, moved := 0 })] } }),
    1, cmdOf .ftRingDelete 15 [15], _, rfl, { log2 := 4, ctr := 17407, base := 0x1000, cq := 0x2000 }, 65535,
    { gen := 0, take := 0, from_ := .ring 255 7, tenant := 15, op := 1, ord := false, cls := 0, dst := 1, raddr := 0, len := 1, mtu := 10, moved := 0 },
    7, rdy (by decide +kernel), by decide +kernel⟩,
  ⟨having (cmdOf .ftRqBind 15 [15, 12, 12, 0xFFFFFFFF, 17407, 0x1000, 0x2000, 0x3000]) (State.reset), 1,
    cmdOf .ftRqBind 15 [15, 12, 12, 0xFFFFFFFF, 17407, 0x1000, 0x2000, 0x3000], _, rfl, rdy (by decide +kernel), by decide +kernel,
    .inr (by decide +kernel)⟩,
  ⟨having (cmdOf .ftRqBind 15 [15, 12, 12, 0xFFFFFFFF, 17407, 0x1000, 0x2000, 0x3000]) (State.reset.setReg .detCtrl 0 15 1), 1,
    cmdOf .ftRqBind 15 [15, 12, 12, 0xFFFFFFFF, 17407, 0x1000, 0x2000, 0x3000], _, rfl, rdy (by decide +kernel), by decide +kernel⟩,
  ⟨having (cmdOf .ftRqBind 15 [15, 12, 12, 0xFFFFFFFF, 17407, 0x1000, 0x2000, 0x3000]) ({ State.reset with ft := { rqs := [(255, some { log2 := 4, slot := 8, src := 1, sync := 0, base := 0x1000, cq := 0x2000, done := 0x3000 })] } }),
    1, cmdOf .ftRqBind 15 [15, 12, 12, 0xFFFFFFFF, 17407, 0x1000, 0x2000, 0x3000], _, rfl, rdy (by decide +kernel), by decide +kernel⟩,
  ⟨having (cmdOf .ftRqUnbind 15 [15]) ({ State.reset with ft := { rqs := [(255, some { log2 := 4, slot := 8, src := 1, sync := 0, base := 0x1000, cq := 0x2000, done := 0x3000 })] } }),
    1, cmdOf .ftRqUnbind 15 [15], _, rfl, { log2 := 4, slot := 8, src := 1, sync := 0, base := 0x1000, cq := 0x2000, done := 0x3000 },
    rdy (by decide +kernel), by decide +kernel, fun _ h => (nomatch h)⟩,
  ⟨having (cmdOf .ftRqUnbind 15 [15]) ({ State.reset with ft := { rqs := [(255, some { log2 := 4, slot := 8, src := 1, sync := 0, base := 0x1000, cq := 0x2000, done := 0x3000 })], rx := [{ src := 1, msg := 0x10005, tenant := 15, op := 4, region := none, addr := 0, len := 1, mtu := 10, cls := 7, st := .active, rq := some (255, 7), path := 0, last := 0, since := 0 }] } }),
    1, cmdOf .ftRqUnbind 15 [15], _, rfl, { log2 := 4, slot := 8, src := 1, sync := 0, base := 0x1000, cq := 0x2000, done := 0x3000 },
    { src := 1, msg := 0x10005, tenant := 15, op := 4, region := none, addr := 0, len := 1, mtu := 10, cls := 7, st := .active, rq := some (255, 7), path := 0, last := 0, since := 0 },
    7, rdy (by decide +kernel), by decide +kernel⟩,
  ⟨having (cmdOf .ftRqUnbind 15 [15]) (State.reset), 1, cmdOf .ftRqUnbind 15 [15], _, rfl, rdy (by decide +kernel), by decide +kernel⟩,
  ⟨State.reset, .ftWrite, 1, by decide +kernel⟩,
  ⟨{ ringAt [(0, 1, 2)] with own := { State.reset.own with fills := [(0, 16)] } }, _, 255, .ftWrite, 1, by decide +kernel,
    { log2 := 4, ctr := 17407, base := 0x1000, cq := 0x2000, next := 0xFFFFFFFF, credit := 1 }, _, by decide +kernel, rfl, rfl, by decide +kernel⟩,
  ⟨ringAt [(0, 1, 2)], _, 255, .ftWrite, 1, by decide +kernel,
    { log2 := 4, ctr := 17407, base := 0x1000, cq := 0x2000, next := 0xFFFFFFFF, credit := 1 }, _, by decide +kernel, rfl, rfl, by decide +kernel⟩,
  ⟨ringAt [(0, 1, 2)], _, 255, .ftRead, 2, by decide +kernel,
    { log2 := 4, ctr := 17407, base := 0x1000, cq := 0x2000, next := 0xFFFFFFFF, credit := 1 }, _, by decide +kernel, rfl, rfl, _, by decide +kernel,
    rfl, .inl (by decide +kernel), by decide +kernel⟩,
  ⟨{ ringAt [(0, 1, 2)] with own := { State.reset.own with ibcs := [(15, 16)], regions := [(0, { base := 0x1000, bytes := 0x1000, rights := 0x7F, st := 1, tenant := 15, world := true })] }, bad := [(158, 2)] },
    _, 255, .ftRead, 2, by decide +kernel, { log2 := 4, ctr := 17407, base := 0x1000, cq := 0x2000, next := 0xFFFFFFFF, credit := 1 }, _,
    by decide +kernel, rfl, rfl, _, by decide +kernel, rfl, .inl (by decide +kernel), _, 5056, by decide +kernel, errIs (by decide +kernel)⟩,
  ⟨{ ringAt [(0, 1, 1), (3, 1, 0), (4, 4, 1), (16, 8, 32768), (24, 8, 64), (32, 4, 16), (63, 1, 1)] with own := { State.reset.own with ibcs := [(15, 16)], regions := [(0, { base := 0x1000, bytes := 0x1000, rights := 0x7F, st := 1, tenant := 15, world := true })] } },
    _, 255, .ftWrite, 1, by decide +kernel, { log2 := 4, ctr := 17407, base := 0x1000, cq := 0x2000, next := 0xFFFFFFFF, credit := 1 }, _,
    by decide +kernel, rfl, rfl, _, by decide +kernel, rfl, .inl (by decide +kernel), _,
    rec_ 64 [(0, 1, 1), (3, 1, 0), (4, 4, 1), (16, 8, 32768), (24, 8, 64), (32, 4, 16), (63, 1, 1)], by decide +kernel, okIs (by decide +kernel)⟩,
  ⟨255, rec_ 64 [(0, 1, 3)], _, _, _, rfl, rfl, rfl, by decide +kernel⟩,
  ⟨255, rec_ 64 [(0, 1, 1), (3, 1, 0), (4, 4, 1), (16, 8, 32768), (24, 8, 64), (32, 4, 16), (63, 1, 1)], _, _, _, rfl, rfl, rfl, by decide +kernel⟩,
  ⟨ringAt [], 255, rec_ 64 [(0, 1, 2), (3, 1, 0), (4, 4, 1), (16, 8, 32768), (24, 8, 64), (32, 4, 0)], _, _, _, rfl, rfl, rfl, by decide +kernel⟩,
  ⟨ringAt [], 255, rec_ 64 [(0, 1, 1), (3, 1, 0), (4, 4, 1), (16, 8, 36849), (24, 8, 64), (32, 4, 16)], _, _, _, rfl, rfl, rfl, by decide +kernel,
    by decide +kernel, by decide +kernel⟩,
  ⟨(ringAt []).setReg .detCtrl 0 15 1, 255, rec_ 64 [(0, 1, 5), (3, 1, 4), (4, 4, 1), (32, 4, 4)], _, _, _, rfl, rfl, rfl, by decide +kernel⟩,
  ⟨ringAt [], 255, rec_ 64 [(0, 1, 1), (3, 1, 0), (4, 4, 1), (16, 8, 36848), (24, 8, 64), (32, 4, 16)], _, _, _, rfl, rfl, rfl, by decide +kernel, _,
    0, by decide +kernel, rfl, find_first (by decide +kernel)⟩⟩

/-- States and operands that meet the hypotheses of `Transport_Sending`, clause by clause. -/
theorem witness_Transport_Sending :
    (∃ (s : State) (m : Nat), s.power.running = true ∧ m < 65536 ∧ ftOn s = false) ∧
    (∃ (s : State) (m : Nat), s.power.running = true ∧ m < 65536 ∧ s.ftMsg m = none) ∧
    (∃ (s : State) (m : Nat) (x : FtMsg), s.power.running = true ∧ m < 65536 ∧ ftOn s = true ∧ s.ftMsg m = some x ∧ nextPkt x = none) ∧
    (∃ (s : State) (m : Nat) (x : FtMsg), s.power.running = true ∧ m < 65536 ∧ ftOn s = true ∧ s.ftMsg m = some x ∧ ordWaits s x = true) ∧
    (∃ (s : State) (m i : Nat) (x : FtMsg), s.power.running = true ∧ m < 65536 ∧ ftOn s = true ∧ s.ftMsg m = some x ∧ nextPkt x = some i ∧
      ftPathOf s x i = none) ∧
    (∃ (s : State) (m i p : Nat) (x : FtMsg), s.power.running = true ∧ m < 65536 ∧ ftOn s = true ∧ s.ftMsg m = some x ∧ nextPkt x = some i ∧
      ftPathOf s x i = some p ∧ ordWaits s x = false ∧ srcWaits s x i = true) ∧
    (∃ (s u : State) (m i p : Nat) (x : FtMsg), (s.power.running = true ∧ m < 65536 ∧ ftOn s = true ∧ s.ftMsg m = some x ∧ nextPkt x = some i ∧
      ftPathOf s x i = some p ∧ ordWaits s x = false) ∧ ∃ (a : Nat), srcWaits s x i = false ∧ pktOf s m x i (ftWant x i) = (u, .error a)) ∧
    (∃ (s u : State) (m i p : Nat) (x : FtMsg), (s.power.running = true ∧ m < 65536 ∧ ftOn s = true ∧ s.ftMsg m = some x ∧ nextPkt x = some i ∧
      ftPathOf s x i = some p ∧ ordWaits s x = false) ∧ ∃ (h : FtHdr) (b : Bytes), srcWaits s x i = false ∧ pktOf s m x i (ftWant x i) = (u, .ok (h,
      b))) ∧
    (∃ (s : State) (m : Nat) (x : FtMsg), s.power.running = true ∧ m < 65536 ∧ x.op ≠ 2) ∧
    (∃ (s : State) (m i p : Nat) (x : FtMsg), (s.power.running = true ∧ m < 65536) ∧ ∃ (h : FtHdr) (b : Bytes) (pkt : Bytes), x.pkt i = none ∧
      pkt = ftPacket { h with path := p, retx := false, time := s.now } b ∧ ∃ (l : Nat), (ftSeam s x.dst)[p]? = some l ∧
      linkRoom s l (.packet pkt) = false) ∧
    (∃ (s u : State) (m i p : Nat) (x : FtMsg), (s.power.running = true ∧ m < 65536) ∧ ∃ (h : FtHdr) (b : Bytes) (pkt : Bytes), x.pkt i = none ∧
      pkt = ftPacket { h with path := p, retx := false, time := s.now } b ∧ ∃ (l : Nat), ((ftSeam s x.dst)[p]? = some l ∧
      linkRoom s l (.packet pkt) = true) ∧
      u = s.setFtMsg m (some { x with pk := tput none x.pk i (some ⟨1, s.tb.ticks + ftRtoTicks s, ftRtoTicks s, p, none, false, false⟩), next := max x.next (i + 1), moved := if x.next = 0 then s.tb.ticks else x.moved })) ∧
    (∃ (s : State) (m i p : Nat) (x : FtMsg), (s.power.running = true ∧ m < 65536) ∧ ∃ (h : FtHdr) (b : Bytes) (pkt : Bytes), x.pkt i = none ∧
      pkt = ftPacket { h with path := p, retx := false, time := s.now } b ∧ ∃ (k : Nat) (v : FtBkt), (ftSeam s x.dst)[p]? = none ∧
      k = bktOf x.dst p ∧ v = bktNow s k ∧ v.level < (8 * pkt.length : Nat)) ∧
    (∃ (s u : State) (m i p : Nat) (x : FtMsg), (s.power.running = true ∧ m < 65536) ∧ ∃ (h : FtHdr) (b : Bytes) (pkt : Bytes), x.pkt i = none ∧
      pkt = ftPacket { h with path := p, retx := false, time := s.now } b ∧ ∃ (k : Nat) (v : FtBkt), (ftSeam s x.dst)[p]? = none ∧
      k = bktOf x.dst p ∧ v = bktNow s k ∧ (8 * pkt.length : Nat) ≤ v.level ∧
      u = (setBkt k (some { v with level := v.level - (8 * pkt.length : Nat), used := s.tb.ticks, sent := true }) s).setFtMsg m (some { x with pk := tput none x.pk i (some ⟨1, s.tb.ticks + ftRtoTicks s, ftRtoTicks s, p, some k, false, false⟩), next := max x.next (i + 1), moved := if x.next = 0 then s.tb.ticks else x.moved })) ∧
    (∃ (s u : State) (m i p : Nat) (x : FtMsg), (s.power.running = true ∧ m < 65536) ∧ ∃ (h : FtHdr) (b : Bytes) (pkt : Bytes),
      ∃ (q : FtPkt) (k : Nat) (v : FtBkt), (x.pkt i = some q ∧ 0 < q.sent ∧ (ftSeam s x.dst)[p]? = none) ∧
      pkt = ftPacket { h with path := p, retx := true, time := s.now } b ∧ k = bktOf x.dst p ∧ v = bktNow s k ∧ (8 * pkt.length : Nat) ≤ v.level ∧
      u = (((setBkt k (some { v with level := v.level - (8 * pkt.length : Nat), used := s.tb.ticks, sent := true }) s).count .ftRetx 0 0 1).countTv 4 1).setFtMsg m (some { x with pk := tput none x.pk i (some ⟨q.sent + 1, s.tb.ticks + q.rto, q.rto, p, some k, false, false⟩), next := max x.next (i + 1), retx := x.retx + 1, moved := if x.next = 0 then s.tb.ticks else x.moved })) ∧
    (∃ (s : State) (m i : Nat) (x : FtMsg), (s.power.running = true ∧ m < 65536) ∧ ∃ (q : FtPkt), (s.ftMsg m = some x ∧ x.pkt i = some q) ∧
      (q.again = true ∨ s.tb.ticks < q.due)) ∧
    (∃ (s : State) (m i : Nat) (x : FtMsg), (s.power.running = true ∧ m < 65536) ∧ ∃ (q : FtPkt), s.ftMsg m = some x ∧ x.pkt i = some q ∧
      q.again = false ∧ q.due ≤ s.tb.ticks ∧ q.rnr = true) ∧
    (∃ (s u : State) (m i : Nat) (x : FtMsg), (s.power.running = true ∧ m < 65536) ∧ ∃ (q : FtPkt), (s.ftMsg m = some x ∧ x.pkt i = some q ∧
      q.again = false ∧ q.due ≤ s.tb.ticks ∧ q.rnr = false) ∧
      u = s.setFtMsg m (some { x with pk := tput none x.pk i (some { q with again := true, rto := min (2 * q.rto) 10000000 }) }) ∧ q.bkt = none) ∧
    (∃ (s u : State) (m i : Nat) (x : FtMsg), (s.power.running = true ∧ m < 65536) ∧ ∃ (q : FtPkt), (s.ftMsg m = some x ∧ x.pkt i = some q ∧
      q.again = false ∧ q.due ≤ s.tb.ticks ∧ q.rnr = false) ∧
      u = s.setFtMsg m (some { x with pk := tput none x.pk i (some { q with again := true, rto := min (2 * q.rto) 10000000 }) }) ∧ ∃ (k : Nat),
      q.bkt = some k) ∧
    (∃ (s : State) (m i : Nat) (x : FtMsg), (s.power.running = true ∧ m < 65536) ∧ ∃ (q : FtPkt), s.ftMsg m = some x ∧ (((i, some q) ∈ x.pk ∧
      13 ≤ q.sent) ∨ (ordWaits s x = false ∧ x.moved + 50000000 ≤ s.tb.ticks)) ∧ ∃ (r : Nat) (n : Nat) (w : _), (x.from_ = .ring r n ∨ (∃ a b,
      x.from_ = .work a b)) ∧ w = (if x.from_ = .ring r n then r % 16 else 0x210)) ∧
    (∃ (s : State) (m i : Nat) (x : FtMsg), (s.power.running = true ∧ m < 65536) ∧ ∃ (q : FtPkt), s.ftMsg m = some x ∧ (((i, some q) ∈ x.pk ∧
      13 ≤ q.sent) ∨ (ordWaits s x = false ∧ x.moved + 50000000 ≤ s.tb.ticks)) ∧ ∃ (g : _), x.from_ = .signal g) ∧
    (∃ (s : State) (m : Nat) (x : FtMsg), (s.power.running = true ∧ m < 65536 ∧ s.ftMsg m = some x) ∧ (∀ j y, (j, some y) ∈ x.pk → y.sent < 13) ∧
      (ordWaits s x = true ∨ s.tb.ticks < x.moved + 50000000)) ∧
    (∃ (s : State) (m : Nat), (s.power.running = true ∧ m < 65536) ∧ ∃ (k : Nat) (y : FtBkt) (v : FtBkt), (k < 4096 ∧
      tget none s.ft.bkts k = some y) ∧ v = bktNow s k ∧ s.tb.ticks < y.start + bits (s.reg .ftCc) 23 16 * 1000) ∧
    (∃ (s : State) (m : Nat), (s.power.running = true ∧ m < 65536) ∧ ∃ (k : Nat) (y : FtBkt) (v : FtBkt), (k < 4096 ∧
      tget none s.ft.bkts k = some y) ∧ v = bktNow s k ∧ y.start + bits (s.reg .ftCc) 23 16 * 1000 ≤ s.tb.ticks ∧ y.sent = true ∧ y.mark = false) ∧
    (∃ (s : State) (m : Nat), (s.power.running = true ∧ m < 65536) ∧ ∃ (k : Nat) (y : FtBkt) (v : FtBkt), (k < 4096 ∧
      tget none s.ft.bkts k = some y) ∧ v = bktNow s k ∧ y.start + bits (s.reg .ftCc) 23 16 * 1000 ≤ s.tb.ticks ∧ (y.sent = false ∨ y.mark = true)) ∧
    (∃ (s : State) (m : Nat), (s.power.running = true ∧ m < 65536) ∧ ∃ (k : Nat) (y : FtBkt) (v : FtBkt), (k < 4096 ∧
      tget none s.ft.bkts k = some y) ∧ v = bktNow s k ∧ y.used + 1000000 ≤ s.tb.ticks) ∧
    (∃ (s : State) (m : Nat), (s.power.running = true ∧ m < 65536) ∧ ∃ (k : Nat) (y : FtBkt) (v : FtBkt), (k < 4096 ∧
      tget none s.ft.bkts k = some y) ∧ v = bktNow s k ∧ s.tb.ticks < y.used + 1000000) ∧
    (∃ (s : State) (m : Nat), (s.power.running = true ∧ m < 65536) ∧ ∃ (k : Nat), k < 4096 ∧ tget none s.ft.bkts k = none) :=
  ⟨⟨(sending { gen := 0, take := 0, from_ := .ring 255 7, tenant := 15, op := 1, ord := false, cls := 7, dst := 1, raddr := 0, len := 1, mtu := 10, moved := 0, data := some [1] }).setReg .ftCtrl 0 0 0,
    65535, by decide +kernel⟩,
  ⟨State.reset, 65535, by decide +kernel⟩,
  ⟨sending { gen := 0, take := 0, from_ := .ring 255 7, tenant := 15, op := 1, ord := false, cls := 7, dst := 1, raddr := 0, len := 1, mtu := 10, moved := 0, data := some [1], next := 1 },
    65535, { gen := 0, take := 0, from_ := .ring 255 7, tenant := 15, op := 1, ord := false, cls := 7, dst := 1, raddr := 0, len := 1, mtu := 10, moved := 0, data := some [1], next := 1 }, by decide +kernel⟩,
  ⟨(sending { gen := 0, from_ := .ring 255 7, tenant := 15, op := 1, cls := 7, dst := 1, raddr := 0, len := 1, mtu := 10, moved := 0, data := some [1], ord := true, take := 1 }).setFtMsg 0 (some { gen := 0, take := 0, from_ := .ring 255 7, tenant := 15, op := 1, ord := false, cls := 7, dst := 1, raddr := 0, len := 1, mtu := 10, moved := 0, data := some [1] }),
    65535, { gen := 0, from_ := .ring 255 7, tenant := 15, op := 1, cls := 7, dst := 1, raddr := 0, len := 1, mtu := 10, moved := 0, data := some [1], ord := true, take := 1 }, by decide +kernel⟩,
  ⟨(State.reset.setReg .ftCtrl 0 0 1).setFtMsg 65535 (some { gen := 0, take := 0, from_ := .ring 255 7, tenant := 15, op := 1, ord := false, cls := 7, dst := 1, raddr := 0, len := 1, mtu := 10, moved := 0, laddr := 0x1000 }),
    65535, 0, { gen := 0, take := 0, from_ := .ring 255 7, tenant := 15, op := 1, ord := false, cls := 7, dst := 1, raddr := 0, len := 1, mtu := 10, moved := 0, laddr := 0x1000 }, by decide +kernel⟩,
  ⟨{ sending { gen := 0, take := 0, from_ := .ring 255 7, tenant := 15, op := 1, ord := false, cls := 7, dst := 1, raddr := 0, len := 1, mtu := 10, moved := 0, laddr := 0x1000 } with own := { State.reset.own with fills := [(0, 16)] } },
    65535, 0, 7,
    { gen := 0, take := 0, from_ := .ring 255 7, tenant := 15, op := 1, ord := false, cls := 7, dst := 1, raddr := 0, len := 1, mtu := 10, moved := 0, laddr := 0x1000 },
    by decide +kernel⟩,
  ⟨{ sending { gen := 0, take := 0, from_ := .ring 255 7, tenant := 15, op := 1, ord := false, cls := 7, dst := 1, raddr := 0, len := 1, mtu := 10, moved := 0, laddr := 0x1000 } with bad := [(128, 2)] },
    _, 65535, 0, 7,
    { gen := 0, take := 0, from_ := .ring 255 7, tenant := 15, op := 1, ord := false, cls := 7, dst := 1, raddr := 0, len := 1, mtu := 10, moved := 0, laddr := 0x1000 },
    by decide +kernel, 0x1000, by decide +kernel, errIs (by decide +kernel)⟩,
  ⟨((withBoard [(64 + 2 * 23, 1, 0x80), (8, 4, 0x10), (12, 8, 5)] { links := [(23, { st := .up, credits := [9, 9, 9, 9, 9, 9, 9, 9] })] }).setReg .seamPeerFdid 23 0 1 |>.setReg .ftCtrl 0 0 1).setFtMsg 65535 (some { gen := 0, take := 0, from_ := .ring 255 7, tenant := 15, op := 1, ord := false, cls := 7, dst := 1, raddr := 0, len := 1, mtu := 10, moved := 0, data := some [1] }),
    _, 65535, 0, 0,
    { gen := 0, take := 0, from_ := .ring 255 7, tenant := 15, op := 1, ord := false, cls := 7, dst := 1, raddr := 0, len := 1, mtu := 10, moved := 0, data := some [1] },
    by decide +kernel,
    { msgHdr (((withBoard [(64 + 2 * 23, 1, 0x80), (8, 4, 0x10), (12, 8, 5)] { links := [(23, { st := .up, credits := [9, 9, 9, 9, 9, 9, 9, 9] })] }).setReg .seamPeerFdid 23 0 1 |>.setReg .ftCtrl 0 0 1).setFtMsg 65535 (some { gen := 0, take := 0, from_ := .ring 255 7, tenant := 15, op := 1, ord := false, cls := 7, dst := 1, raddr := 0, len := 1, mtu := 10, moved := 0, data := some [1] })) 65535 { gen := 0, take := 0, from_ := .ring 255 7, tenant := 15, op := 1, ord := false, cls := 7, dst := 1, raddr := 0, len := 1, mtu := 10, moved := 0, data := some [1] } with pidx := 0, mlen := 1, raddr := 0 },
    [1], by decide +kernel, okIs (by decide +kernel)⟩,
  ⟨{ sending { gen := 0, take := 0, from_ := .ring 255 7, tenant := 15, op := 1, ord := false, cls := 7, dst := 1, raddr := 0, len := 1, mtu := 10, moved := 0, laddr := 0x1000 } with bad := [(128, 2)] },
    65535, { gen := 0, take := 0, from_ := .ring 255 7, tenant := 15, op := 1, ord := false, cls := 7, dst := 1, raddr := 0, len := 1, mtu := 10, moved := 0, laddr := 0x1000 }, by decide +kernel⟩,
  ⟨((withBoard [(64 + 2 * 23, 1, 0x80), (8, 4, 0x10), (12, 8, 5)] { links := [(23, { st := .up })] }).setReg .seamPeerFdid 23 0 1 |>.setReg .ftCtrl 0 0 1).setFtMsg 65535 (some { gen := 0, take := 0, from_ := .ring 255 7, tenant := 15, op := 1, ord := false, cls := 7, dst := 1, raddr := 0, len := 1, mtu := 10, moved := 0, data := some [1] }),
    65535, 0, 0,
    { gen := 0, take := 0, from_ := .ring 255 7, tenant := 15, op := 1, ord := false, cls := 7, dst := 1, raddr := 0, len := 1, mtu := 10, moved := 0, data := some [1] },
    by decide +kernel,
    { msgHdr (((withBoard [(64 + 2 * 23, 1, 0x80), (8, 4, 0x10), (12, 8, 5)] { links := [(23, { st := .up })] }).setReg .seamPeerFdid 23 0 1 |>.setReg .ftCtrl 0 0 1).setFtMsg 65535 (some { gen := 0, take := 0, from_ := .ring 255 7, tenant := 15, op := 1, ord := false, cls := 7, dst := 1, raddr := 0, len := 1, mtu := 10, moved := 0, data := some [1] })) 65535 ({ gen := 0, take := 0, from_ := .ring 255 7, tenant := 15, op := 1, ord := false, cls := 7, dst := 1, raddr := 0, len := 1, mtu := 10, moved := 0, data := some [1] }) with pidx := 0, mlen := 1, raddr := 0 },
    [1], _, by decide +kernel, rfl, 23, by decide +kernel⟩,
  ⟨((withBoard [(64 + 2 * 23, 1, 0x80), (8, 4, 0x10), (12, 8, 5)] { links := [(23, { st := .up, credits := [9, 9, 9, 9, 9, 9, 9, 9] })] }).setReg .seamPeerFdid 23 0 1 |>.setReg .ftCtrl 0 0 1).setFtMsg 65535 (some { gen := 0, take := 0, from_ := .ring 255 7, tenant := 15, op := 1, ord := false, cls := 7, dst := 1, raddr := 0, len := 1, mtu := 10, moved := 0, data := some [1] }),
    _, 65535, 0, 0,
    { gen := 0, take := 0, from_ := .ring 255 7, tenant := 15, op := 1, ord := false, cls := 7, dst := 1, raddr := 0, len := 1, mtu := 10, moved := 0, data := some [1] },
    by decide +kernel,
    { msgHdr (((withBoard [(64 + 2 * 23, 1, 0x80), (8, 4, 0x10), (12, 8, 5)] { links := [(23, { st := .up, credits := [9, 9, 9, 9, 9, 9, 9, 9] })] }).setReg .seamPeerFdid 23 0 1 |>.setReg .ftCtrl 0 0 1).setFtMsg 65535 (some { gen := 0, take := 0, from_ := .ring 255 7, tenant := 15, op := 1, ord := false, cls := 7, dst := 1, raddr := 0, len := 1, mtu := 10, moved := 0, data := some [1] })) 65535 { gen := 0, take := 0, from_ := .ring 255 7, tenant := 15, op := 1, ord := false, cls := 7, dst := 1, raddr := 0, len := 1, mtu := 10, moved := 0, data := some [1] } with pidx := 0, mlen := 1, raddr := 0 },
    [1], _, by decide +kernel, rfl, 23, by decide +kernel, rfl⟩,
  ⟨setBkt 15 (some ⟨400000, 423, 0, 0, none, 0, false,
    false⟩) (sending { gen := 0, take := 0, from_ := .ring 255 7, tenant := 15, op := 1, ord := false, cls := 7, dst := 1, raddr := 0, len := 1, mtu := 10, moved := 0, data := some [1] }),
    65535, 0, 7,
    { gen := 0, take := 0, from_ := .ring 255 7, tenant := 15, op := 1, ord := false, cls := 7, dst := 1, raddr := 0, len := 1, mtu := 10, moved := 0, data := some [1] },
    by decide +kernel,
    { msgHdr (setBkt 15 (some ⟨400000, 423, 0, 0, none, 0, false, false⟩) (sending { gen := 0, take := 0, from_ := .ring 255 7, tenant := 15, op := 1, ord := false, cls := 7, dst := 1, raddr := 0, len := 1, mtu := 10, moved := 0, data := some [1] })) 65535 { gen := 0, take := 0, from_ := .ring 255 7, tenant := 15, op := 1, ord := false, cls := 7, dst := 1, raddr := 0, len := 1, mtu := 10, moved := 0, data := some [1] } with pidx := 0, mlen := 1, raddr := 0 },
    [1], _, by decide +kernel, rfl, _, _, by decide +kernel, rfl, rfl, by decide +kernel⟩,
  ⟨setBkt 15 (some ⟨400000, 424, 0, 0, none, 0, false,
    false⟩) (sending { gen := 0, take := 0, from_ := .ring 255 7, tenant := 15, op := 1, ord := false, cls := 7, dst := 1, raddr := 0, len := 1, mtu := 10, moved := 0, data := some [1] }),
    _, 65535, 0, 7,
    { gen := 0, take := 0, from_ := .ring 255 7, tenant := 15, op := 1, ord := false, cls := 7, dst := 1, raddr := 0, len := 1, mtu := 10, moved := 0, data := some [1] },
    by decide +kernel,
    { msgHdr (setBkt 15 (some ⟨400000, 424, 0, 0, none, 0, false, false⟩) (sending { gen := 0, take := 0, from_ := .ring 255 7, tenant := 15, op := 1, ord := false, cls := 7, dst := 1, raddr := 0, len := 1, mtu := 10, moved := 0, data := some [1] })) 65535 { gen := 0, take := 0, from_ := .ring 255 7, tenant := 15, op := 1, ord := false, cls := 7, dst := 1, raddr := 0, len := 1, mtu := 10, moved := 0, data := some [1] } with pidx := 0, mlen := 1, raddr := 0 },
    [1], _, by decide +kernel, rfl, _, _, by decide +kernel, rfl, rfl, by decide +kernel, rfl⟩,
  ⟨sending { gen := 0, take := 0, from_ := .ring 255 7, tenant := 15, op := 1, ord := false, cls := 7, dst := 1, raddr := 0, len := 1, mtu := 10, moved := 0, data := some [1], next := 1, pk := [(0, some ⟨1, 0, 10000, 7, some 15, true, false⟩)] },
    _, 65535, 0, 7,
    { gen := 0, take := 0, from_ := .ring 255 7, tenant := 15, op := 1, ord := false, cls := 7, dst := 1, raddr := 0, len := 1, mtu := 10, moved := 0, data := some [1], next := 1, pk := [(0, some ⟨1, 0, 10000, 7, some 15, true, false⟩)] },
    by decide +kernel,
    { msgHdr (sending { gen := 0, take := 0, from_ := .ring 255 7, tenant := 15, op := 1, ord := false, cls := 7, dst := 1, raddr := 0, len := 1, mtu := 10, moved := 0, data := some [1], next := 1, pk := [(0, some ⟨1, 0, 10000, 7, some 15, true, false⟩)] }) 65535 { gen := 0, take := 0, from_ := .ring 255 7, tenant := 15, op := 1, ord := false, cls := 7, dst := 1, raddr := 0, len := 1, mtu := 10, moved := 0, data := some [1], next := 1, pk := [(0, some ⟨1, 0, 10000, 7, some 15, true, false⟩)] } with pidx := 0, mlen := 1, raddr := 0 },
    [1], _, ⟨1, 0, 10000, 7, some 15, true, false⟩, _, _, by decide +kernel, rfl, rfl, rfl, by decide +kernel, rfl⟩,
  ⟨sending { gen := 0, take := 0, from_ := .ring 255 7, tenant := 15, op := 1, ord := false, cls := 7, dst := 1, raddr := 0, len := 1, mtu := 10, moved := 0, data := some [1], next := 1, pk := [(0, some ⟨1, 0, 10000, 7, some 15, true, false⟩)] },
    65535, 0, { gen := 0, take := 0, from_ := .ring 255 7, tenant := 15, op := 1, ord := false, cls := 7, dst := 1, raddr := 0, len := 1, mtu := 10, moved := 0, data := some [1], next := 1, pk := [(0, some ⟨1, 0, 10000, 7, some 15, true, false⟩)] }, by decide +kernel, ⟨1, 0, 10000, 7, some 15, true, false⟩, by decide +kernel, .inl (by decide +kernel)⟩,
  ⟨{ sending { gen := 0, take := 0, from_ := .ring 255 7, tenant := 15, op := 1, ord := false, cls := 7, dst := 1, raddr := 0, len := 1, mtu := 10, moved := 0, data := some [1], next := 1, pk := [(0, some ⟨1, 1, 10000, 7, none, false, true⟩)] } with tb := { State.reset.tb with ticks := 1 } },
    65535, 0, { gen := 0, take := 0, from_ := .ring 255 7, tenant := 15, op := 1, ord := false, cls := 7, dst := 1, raddr := 0, len := 1, mtu := 10, moved := 0, data := some [1], next := 1, pk := [(0, some ⟨1, 1, 10000, 7, none, false, true⟩)] }, by decide +kernel, ⟨1, 1, 10000, 7, none, false, true⟩, by decide +kernel⟩,
  ⟨{ sending { gen := 0, take := 0, from_ := .ring 255 7, tenant := 15, op := 1, ord := false, cls := 7, dst := 1, raddr := 0, len := 1, mtu := 10, moved := 0, data := some [1], next := 1, pk := [(0, some ⟨1, 1, 10000, 7, none, false, false⟩)] } with tb := { State.reset.tb with ticks := 1 } },
    _, 65535, 0,
    { gen := 0, take := 0, from_ := .ring 255 7, tenant := 15, op := 1, ord := false, cls := 7, dst := 1, raddr := 0, len := 1, mtu := 10, moved := 0, data := some [1], next := 1, pk := [(0, some ⟨1, 1, 10000, 7, none, false, false⟩)] },
    by decide +kernel, ⟨1, 1, 10000, 7, none, false, false⟩, by decide +kernel, rfl, by decide +kernel⟩,
  ⟨{ sending { gen := 0, take := 0, from_ := .ring 255 7, tenant := 15, op := 1, ord := false, cls := 7, dst := 1, raddr := 0, len := 1, mtu := 10, moved := 0, data := some [1], next := 1, pk := [(0, some ⟨1, 1, 10000, 7, some 15, false, false⟩)] } with tb := { State.reset.tb with ticks := 1 } },
    _, 65535, 0,
    { gen := 0, take := 0, from_ := .ring 255 7, tenant := 15, op := 1, ord := false, cls := 7, dst := 1, raddr := 0, len := 1, mtu := 10, moved := 0, data := some [1], next := 1, pk := [(0, some ⟨1, 1, 10000, 7, some 15, false, false⟩)] },
    by decide +kernel, ⟨1, 1, 10000, 7, some 15, false, false⟩, by decide +kernel, rfl, 15, by decide +kernel⟩,
  ⟨sending { gen := 0, take := 0, from_ := .ring 255 7, tenant := 15, op := 1, ord := false, cls := 7, dst := 1, raddr := 0, len := 1, mtu := 10, moved := 0, data := some [1], next := 1, pk := [(0, some ⟨13, 1, 10000, 7, none, false, false⟩)] },
    65535, 0, { gen := 0, take := 0, from_ := .ring 255 7, tenant := 15, op := 1, ord := false, cls := 7, dst := 1, raddr := 0, len := 1, mtu := 10, moved := 0, data := some [1], next := 1, pk := [(0, some ⟨13, 1, 10000, 7, none, false, false⟩)] }, by decide +kernel, ⟨13, 1, 10000, 7, none, false, false⟩, by decide +kernel, .inl (by decide +kernel), 255, 7, _, .inl rfl, rfl⟩,
  ⟨sending { gen := 0, take := 0, from_ := .signal ⟨0, 5, 0x12, 1, 15⟩, tenant := 15, op := 1, ord := false, cls := 7, dst := 1, raddr := 0, len := 1, mtu := 10, moved := 0, data := some [1], next := 1, pk := [(0, some ⟨13, 1, 10000, 7, none, false, false⟩)] },
    65535, 0, { gen := 0, take := 0, from_ := .signal ⟨0, 5, 0x12, 1, 15⟩, tenant := 15, op := 1, ord := false, cls := 7, dst := 1, raddr := 0, len := 1, mtu := 10, moved := 0, data := some [1], next := 1, pk := [(0, some ⟨13, 1, 10000, 7, none, false, false⟩)] }, by decide +kernel, ⟨13, 1, 10000, 7, none, false, false⟩, by decide +kernel, .inl (by decide +kernel), ⟨0, 5, 0x12, 1, 15⟩, by decide +kernel⟩,
  ⟨{ sending { gen := 0, take := 0, from_ := .ring 255 7, tenant := 15, op := 1, ord := false, cls := 7, dst := 1, raddr := 0, len := 1, mtu := 10, moved := 0, data := some [1], next := 1, pk := [(0, some ⟨12, 1, 10000, 7, none, false, false⟩)] } with tb := { State.reset.tb with ticks := 49999999 } },
    65535, { gen := 0, take := 0, from_ := .ring 255 7, tenant := 15, op := 1, ord := false, cls := 7, dst := 1, raddr := 0, len := 1, mtu := 10, moved := 0, data := some [1], next := 1, pk := [(0, some ⟨12, 1, 10000, 7, none, false, false⟩)] }, by decide +kernel, by simp, by decide +kernel⟩,
  ⟨{ setBkt 4095 (some ⟨400000, 5, 0, 0, none, 0, true, false⟩) ((State.reset).setReg .ftCc 0 0 (1 * 65536 + 2 ^ 24)) with tb := { State.reset.tb with ticks := 999 } },
    65535, by decide +kernel, 4095, ⟨400000, 5, 0, 0, none, 0, true, false⟩, _, by decide +kernel, rfl, by decide +kernel⟩,
  ⟨{ setBkt 4095 (some ⟨400000, 5, 0, 0, none, 0, true, false⟩) ((State.reset).setReg .ftCc 0 0 (1 * 65536 + 2 ^ 24)) with tb := { State.reset.tb with ticks := 1000 } },
    65535, by decide +kernel, 4095, ⟨400000, 5, 0, 0, none, 0, true, false⟩, _, by decide +kernel, rfl, by decide +kernel⟩,
  ⟨{ setBkt 4095 (some ⟨400000, 5, 0, 0, none, 0, true, true⟩) (State.reset.setReg .ftCc 0 0 (1 * 65536 + 2 ^ 24)) with tb := { State.reset.tb with ticks := 1000 } },
    65535, by decide +kernel, 4095, ⟨400000, 5, 0, 0, none, 0, true, true⟩, _, by decide +kernel, rfl, by decide +kernel⟩,
  ⟨{ setBkt 4095 (some ⟨400000, 5, 0, 0, none, 0, true, false⟩) ((State.reset).setReg .ftCc 0 0 (1 * 65536 + 2 ^ 24)) with tb := { State.reset.tb with ticks := 1000000 } },
    65535, by decide +kernel, 4095, ⟨400000, 5, 0, 0, none, 0, true, false⟩, _, by decide +kernel, rfl, by decide +kernel⟩,
  ⟨{ setBkt 4095 (some ⟨400000, 5, 0, 0, none, 0, true, false⟩) ((State.reset).setReg .ftCc 0 0 (1 * 65536 + 2 ^ 24)) with tb := { State.reset.tb with ticks := 999999 } },
    65535, by decide +kernel, 4095, ⟨400000, 5, 0, 0, none, 0, true, false⟩, _, by decide +kernel, rfl, by decide +kernel⟩,
  ⟨State.reset, 65535, by decide +kernel, 4095, by decide +kernel⟩⟩

/-- States and operands that meet the hypotheses of `Transport_Reception`, clause by clause. -/
theorem witness_Transport_Reception :
    (∃ (s p u : State) (fr : Frame) (rest : List Frame) (b pay : Bytes) (h : FtHdr) (path : Nat) (marked sum : Bool), (s.power.running = true ∧
      ftOn s = true ∧ s.net.ftIn = fr :: rest) ∧ ftIncoming s fr = (b, marked, sum) ∧ h = { ftHeader b with ce := marked } ∧ pay = ftPayload b ∧
      path = (if 32 ≤ fr.mac then 64 + (fr.mac - 32) else h.path) ∧ p = { s with net := { s.net with ftIn := rest } } ∧
      u = (if marked then p.count .ftCe 0 0 1 else p) ∧ ∃ (cmd : Instr) (op : Nat), ((cmd,
      op) ∈ [(Instr.ftRxWrite, 1), (.ftRxRead, 2), (.ftRxReadResp, 3), (.ftRxSend, 4), (.ftRxAtomic, 5), (.ftRxAtomicResp, 6), (.ftRxAck, 7), (.ftRxNak, 8), (.ftRxClose, 9), (.ftRxSignal, 0x0A)]) ∧
      (sum = false ∨ ftBad s b = true)) ∧
    (∃ (s p u : State) (fr : Frame) (rest : List Frame) (b pay : Bytes) (h : FtHdr) (path : Nat) (marked sum : Bool), (s.power.running = true ∧
      ftOn s = true ∧ s.net.ftIn = fr :: rest) ∧ ftIncoming s fr = (b, marked, sum) ∧ h = { ftHeader b with ce := marked } ∧ pay = ftPayload b ∧
      path = (if 32 ≤ fr.mac then 64 + (fr.mac - 32) else h.path) ∧ p = { s with net := { s.net with ftIn := rest } } ∧
      u = (if marked then p.count .ftCe 0 0 1 else p) ∧ ∃ (cmd : Instr) (op : Nat), ((cmd,
      op) ∈ [(Instr.ftRxWrite, 1), (.ftRxRead, 2), (.ftRxReadResp, 3), (.ftRxSend, 4), (.ftRxAtomic, 5), (.ftRxAtomicResp, 6), (.ftRxAck, 7), (.ftRxNak, 8), (.ftRxClose, 9), (.ftRxSignal, 0x0A)]) ∧
      sum = true ∧ ftBad s b = false ∧ h.op ≠ op) ∧
    (∃ (s p u : State) (fr : Frame) (rest : List Frame) (b pay : Bytes) (h : FtHdr) (path : Nat) (marked sum : Bool), (s.power.running = true ∧
      ftOn s = true ∧ s.net.ftIn = fr :: rest) ∧ ftIncoming s fr = (b, marked, sum) ∧ h = { ftHeader b with ce := marked } ∧ pay = ftPayload b ∧
      path = (if 32 ≤ fr.mac then 64 + (fr.mac - 32) else h.path) ∧ p = { s with net := { s.net with ftIn := rest } } ∧
      u = (if marked then p.count .ftCe 0 0 1 else p) ∧ ∃ (cmd : Instr) (op : Nat), ((cmd,
      op) ∈ [(Instr.ftRxWrite, 1), (.ftRxRead, 2), (.ftRxReadResp, 3), (.ftRxSend, 4), (.ftRxAtomic, 5), (.ftRxAtomicResp, 6), (.ftRxAck, 7), (.ftRxNak, 8), (.ftRxClose, 9), (.ftRxSignal, 0x0A)]) ∧
      ∃ (a : Nat) (n : _), sum = true ∧ ftBad s b = false ∧ h.op = op ∧ (ftTargets s (ftHeader b)).find? (fun e => memWaits s e.1 e.2) = some (a,
      n)) ∧
    (∃ (s p u : State) (fr : Frame) (rest : List Frame) (b pay : Bytes) (h : FtHdr) (path : Nat) (marked sum : Bool), (s.power.running = true ∧
      ftOn s = true ∧ s.net.ftIn = fr :: rest) ∧ ftIncoming s fr = (b, marked, sum) ∧ h = { ftHeader b with ce := marked } ∧ pay = ftPayload b ∧
      path = (if 32 ≤ fr.mac then 64 + (fr.mac - 32) else h.path) ∧ p = { s with net := { s.net with ftIn := rest } } ∧
      u = (if marked then p.count .ftCe 0 0 1 else p) ∧ ∃ (cmd : Instr) (op : Nat), ((cmd,
      op) ∈ [(Instr.ftRxWrite, 1), (.ftRxRead, 2), (.ftRxReadResp, 3), (.ftRxSend, 4), (.ftRxAtomic, 5), (.ftRxAtomicResp, 6), (.ftRxAck, 7), (.ftRxNak, 8), (.ftRxClose, 9), (.ftRxSignal, 0x0A)]) ∧
      sum = true ∧ ftBad s b = false ∧ h.op = op ∧ (ftTargets s (ftHeader b)).find? (fun e => memWaits s e.1 e.2) = none ∧
      ftMaxAge s * 1000 < Int.natAbs ((s.now : Int) - h.time)) ∧
    (∃ (s p u : State) (fr : Frame) (rest : List Frame) (b pay : Bytes) (h : FtHdr) (path : Nat) (marked sum : Bool), (s.power.running = true ∧
      ftOn s = true ∧ s.net.ftIn = fr :: rest) ∧ ftIncoming s fr = (b, marked, sum) ∧ h = { ftHeader b with ce := marked } ∧ pay = ftPayload b ∧
      path = (if 32 ≤ fr.mac then 64 + (fr.mac - 32) else h.path) ∧ p = { s with net := { s.net with ftIn := rest } } ∧
      u = (if marked then p.count .ftCe 0 0 1 else p) ∧ (sum = true ∧ ftBad s b = false ∧
      (ftTargets s (ftHeader b)).find? (fun e => memWaits s e.1 e.2) = none ∧ Int.natAbs ((s.now : Int) - h.time) ≤ ftMaxAge s * 1000) ∧
      ∃ (cmd : Instr) (op : Nat), (((cmd, op) ∈ [(Instr.ftRxWrite, 1), (.ftRxSend, 4), (.ftRxAtomic, 5), (.ftRxSignal, 0x0A)]) ∧ h.op = op) ∧
      ftFind u h.src h.msg = none ∧ 65536 ≤ u.ft.rx.length) ∧
    (∃ (s p u : State) (fr : Frame) (rest : List Frame) (b pay : Bytes) (h : FtHdr) (path : Nat) (marked sum : Bool), (s.power.running = true ∧
      ftOn s = true ∧ s.net.ftIn = fr :: rest) ∧ ftIncoming s fr = (b, marked, sum) ∧ h = { ftHeader b with ce := marked } ∧ pay = ftPayload b ∧
      path = (if 32 ≤ fr.mac then 64 + (fr.mac - 32) else h.path) ∧ p = { s with net := { s.net with ftIn := rest } } ∧
      u = (if marked then p.count .ftCe 0 0 1 else p) ∧ (sum = true ∧ ftBad s b = false ∧
      (ftTargets s (ftHeader b)).find? (fun e => memWaits s e.1 e.2) = none ∧ Int.natAbs ((s.now : Int) - h.time) ≤ ftMaxAge s * 1000) ∧
      ∃ (cmd : Instr) (op : Nat), (((cmd, op) ∈ [(Instr.ftRxWrite, 1), (.ftRxSend, 4), (.ftRxAtomic, 5), (.ftRxSignal, 0x0A)]) ∧ h.op = op) ∧
      ∃ (e : FtRx), ftFind u h.src h.msg = some e ∧ e.st = .aborted) ∧
    (∃ (s p u : State) (fr : Frame) (rest : List Frame) (b pay : Bytes) (h : FtHdr) (path : Nat) (marked sum : Bool), (s.power.running = true ∧
      ftOn s = true ∧ s.net.ftIn = fr :: rest) ∧ ftIncoming s fr = (b, marked, sum) ∧ h = { ftHeader b with ce := marked } ∧ pay = ftPayload b ∧
      path = (if 32 ≤ fr.mac then 64 + (fr.mac - 32) else h.path) ∧ p = { s with net := { s.net with ftIn := rest } } ∧
      u = (if marked then p.count .ftCe 0 0 1 else p) ∧ (sum = true ∧ ftBad s b = false ∧
      (ftTargets s (ftHeader b)).find? (fun e => memWaits s e.1 e.2) = none ∧ Int.natAbs ((s.now : Int) - h.time) ≤ ftMaxAge s * 1000) ∧
      ∃ (cmd : Instr) (op : Nat), (((cmd, op) ∈ [(Instr.ftRxWrite, 1), (.ftRxSend, 4), (.ftRxAtomic, 5), (.ftRxSignal, 0x0A)]) ∧ h.op = op) ∧
      ∃ (e : FtRx), ftFind u h.src h.msg = some e ∧ e.st = .done ∧ e.resp = none) ∧
    (∃ (s p u : State) (fr : Frame) (rest : List Frame) (b pay : Bytes) (h : FtHdr) (path : Nat) (marked sum : Bool), (s.power.running = true ∧
      ftOn s = true ∧ s.net.ftIn = fr :: rest) ∧ ftIncoming s fr = (b, marked, sum) ∧ h = { ftHeader b with ce := marked } ∧ pay = ftPayload b ∧
      path = (if 32 ≤ fr.mac then 64 + (fr.mac - 32) else h.path) ∧ p = { s with net := { s.net with ftIn := rest } } ∧
      u = (if marked then p.count .ftCe 0 0 1 else p) ∧ (sum = true ∧ ftBad s b = false ∧
      (ftTargets s (ftHeader b)).find? (fun e => memWaits s e.1 e.2) = none ∧ Int.natAbs ((s.now : Int) - h.time) ≤ ftMaxAge s * 1000) ∧
      ∃ (cmd : Instr) (op : Nat), (((cmd, op) ∈ [(Instr.ftRxWrite, 1), (.ftRxSend, 4), (.ftRxAtomic, 5), (.ftRxSignal, 0x0A)]) ∧ h.op = op) ∧
      ∃ (e : FtRx) (st : Nat) (v : _), ftFind u h.src h.msg = some e ∧ e.st = .done ∧ e.resp = some (st, v)) ∧
    (∃ (s p u : State) (fr : Frame) (rest : List Frame) (b pay : Bytes) (h : FtHdr) (path : Nat) (marked sum : Bool), (s.power.running = true ∧
      ftOn s = true ∧ s.net.ftIn = fr :: rest) ∧ ftIncoming s fr = (b, marked, sum) ∧ h = { ftHeader b with ce := marked } ∧ pay = ftPayload b ∧
      path = (if 32 ≤ fr.mac then 64 + (fr.mac - 32) else h.path) ∧ p = { s with net := { s.net with ftIn := rest } } ∧
      u = (if marked then p.count .ftCe 0 0 1 else p) ∧ (sum = true ∧ ftBad s b = false ∧
      (ftTargets s (ftHeader b)).find? (fun e => memWaits s e.1 e.2) = none ∧ Int.natAbs ((s.now : Int) - h.time) ≤ ftMaxAge s * 1000) ∧
      ∃ (cmd : Instr) (op : Nat), (((cmd, op) ∈ [(Instr.ftRxWrite, 1), (.ftRxSend, 4), (.ftRxAtomic, 5), (.ftRxSignal, 0x0A)]) ∧ h.op = op) ∧
      ∃ (e : FtRx) (y : _) (v : _), ((ftFind u h.src h.msg = some e ∧ e.st = .active ∧ y = ftMark h u) ∨ (ftFind u h.src h.msg = none ∧
      u.ft.rx.length < 65536 ∧ ∃ w, y = ftMark h (ftAdd e w) ∧ ((op = 1 ∧ ftAdmitWrite h path u = (w, .ok e)) ∨ (op = 4 ∧ ftAdmitSend h path u = (w,
      .ok e)) ∨ (op = 5 ∧ ftAdmitAtomic (fld pay 0 1) h path u = (w, .ok e)) ∨ (op = 0x0A ∧ ftAdmitSignal h path u = (w, .ok e))))) ∧
      v = modRx h.src h.msg (fun e => { e with path := path, last := y.tb.ticks, ackDue := some (y.tb.ticks + 2000) }) y ∧
      (h.mlen ≠ e.len ∨ h.mtu ≠ e.mtu ∨ e.op ≠ op ∨ ((op = 1 ∨ op = 5) ∧ h.raddr ≠ e.addr) ∨ e.pkts ≤ h.pidx ∨ ((op = 1 ∨ op = 4) ∧
      h.plen ≠ min (2 ^ e.mtu) (e.len - h.pidx * 2 ^ e.mtu)) ∨ e.cum + 127 < h.pidx)) ∧
    (∃ (s p u : State) (fr : Frame) (rest : List Frame) (b pay : Bytes) (h : FtHdr) (path : Nat) (marked sum : Bool), (s.power.running = true ∧
      ftOn s = true ∧ s.net.ftIn = fr :: rest) ∧ ftIncoming s fr = (b, marked, sum) ∧ h = { ftHeader b with ce := marked } ∧ pay = ftPayload b ∧
      path = (if 32 ≤ fr.mac then 64 + (fr.mac - 32) else h.path) ∧ p = { s with net := { s.net with ftIn := rest } } ∧
      u = (if marked then p.count .ftCe 0 0 1 else p) ∧ (sum = true ∧ ftBad s b = false ∧
      (ftTargets s (ftHeader b)).find? (fun e => memWaits s e.1 e.2) = none ∧ Int.natAbs ((s.now : Int) - h.time) ≤ ftMaxAge s * 1000) ∧
      ∃ (cmd : Instr) (op : Nat), (((cmd, op) ∈ [(Instr.ftRxWrite, 1), (.ftRxSend, 4), (.ftRxAtomic, 5), (.ftRxSignal, 0x0A)]) ∧ h.op = op) ∧
      ∃ (e : FtRx) (y : _) (v : _), ((ftFind u h.src h.msg = some e ∧ e.st = .active ∧ y = ftMark h u) ∨ (ftFind u h.src h.msg = none ∧
      u.ft.rx.length < 65536 ∧ ∃ w, y = ftMark h (ftAdd e w) ∧ ((op = 1 ∧ ftAdmitWrite h path u = (w, .ok e)) ∨ (op = 4 ∧ ftAdmitSend h path u = (w,
      .ok e)) ∨ (op = 5 ∧ ftAdmitAtomic (fld pay 0 1) h path u = (w, .ok e)) ∨ (op = 0x0A ∧ ftAdmitSignal h path u = (w, .ok e))))) ∧
      v = modRx h.src h.msg (fun e => { e with path := path, last := y.tb.ticks, ackDue := some (y.tb.ticks + 2000) }) y ∧ h.mlen = e.len ∧
      h.mtu = e.mtu ∧ e.op = op ∧ (op = 1 ∨ op = 5 → h.raddr = e.addr) ∧ h.pidx < e.pkts ∧
      (op = 1 ∨ op = 4 → h.plen = min (2 ^ e.mtu) (e.len - h.pidx * 2 ^ e.mtu)) ∧ h.pidx ≤ e.cum + 127 ∧ e.held.contains h.pidx = true) ∧
    (∃ (s p u : State) (fr : Frame) (rest : List Frame) (b pay : Bytes) (h : FtHdr) (path : Nat) (marked sum : Bool), (s.power.running = true ∧
      ftOn s = true ∧ s.net.ftIn = fr :: rest) ∧ ftIncoming s fr = (b, marked, sum) ∧ h = { ftHeader b with ce := marked } ∧ pay = ftPayload b ∧
      path = (if 32 ≤ fr.mac then 64 + (fr.mac - 32) else h.path) ∧ p = { s with net := { s.net with ftIn := rest } } ∧
      u = (if marked then p.count .ftCe 0 0 1 else p) ∧ (sum = true ∧ ftBad s b = false ∧
      (ftTargets s (ftHeader b)).find? (fun e => memWaits s e.1 e.2) = none ∧ Int.natAbs ((s.now : Int) - h.time) ≤ ftMaxAge s * 1000) ∧
      ∃ (cmd : Instr) (op : Nat), (((cmd, op) ∈ [(Instr.ftRxWrite, 1), (.ftRxSend, 4), (.ftRxAtomic, 5), (.ftRxSignal, 0x0A)]) ∧ h.op = op) ∧
      ∃ (e : FtRx) (y : _) (v : _), ((ftFind u h.src h.msg = some e ∧ e.st = .active ∧ y = ftMark h u) ∨ (ftFind u h.src h.msg = none ∧
      u.ft.rx.length < 65536 ∧ ∃ w, y = ftMark h (ftAdd e w) ∧ ((op = 1 ∧ ftAdmitWrite h path u = (w, .ok e)) ∨ (op = 4 ∧ ftAdmitSend h path u = (w,
      .ok e)) ∨ (op = 5 ∧ ftAdmitAtomic (fld pay 0 1) h path u = (w, .ok e)) ∨ (op = 0x0A ∧ ftAdmitSignal h path u = (w, .ok e))))) ∧
      v = modRx h.src h.msg (fun e => { e with path := path, last := y.tb.ticks, ackDue := some (y.tb.ticks + 2000) }) y ∧ (h.mlen = e.len ∧
      h.mtu = e.mtu ∧ e.op = op ∧ (op = 1 ∨ op = 5 → h.raddr = e.addr) ∧ h.pidx < e.pkts ∧
      (op = 1 ∨ op = 4 → h.plen = min (2 ^ e.mtu) (e.len - h.pidx * 2 ^ e.mtu)) ∧ h.pidx ≤ e.cum + 127) ∧ ∃ (w : State) (a : Nat),
      e.held.contains h.pidx = false ∧ a = e.addr + h.pidx * 2 ^ e.mtu ∧ op = 1 ∧ writeMem v a pay = (w, none)) ∧
    (∃ (s p u : State) (fr : Frame) (rest : List Frame) (b pay : Bytes) (h : FtHdr) (path : Nat) (marked sum : Bool), (s.power.running = true ∧
      ftOn s = true ∧ s.net.ftIn = fr :: rest) ∧ ftIncoming s fr = (b, marked, sum) ∧ h = { ftHeader b with ce := marked } ∧ pay = ftPayload b ∧
      path = (if 32 ≤ fr.mac then 64 + (fr.mac - 32) else h.path) ∧ p = { s with net := { s.net with ftIn := rest } } ∧
      u = (if marked then p.count .ftCe 0 0 1 else p) ∧ (sum = true ∧ ftBad s b = false ∧
      (ftTargets s (ftHeader b)).find? (fun e => memWaits s e.1 e.2) = none ∧ Int.natAbs ((s.now : Int) - h.time) ≤ ftMaxAge s * 1000) ∧
      ∃ (cmd : Instr) (op : Nat), (((cmd, op) ∈ [(Instr.ftRxWrite, 1), (.ftRxSend, 4), (.ftRxAtomic, 5), (.ftRxSignal, 0x0A)]) ∧ h.op = op) ∧
      ∃ (e : FtRx) (y : _) (v : _), ((ftFind u h.src h.msg = some e ∧ e.st = .active ∧ y = ftMark h u) ∨ (ftFind u h.src h.msg = none ∧
      u.ft.rx.length < 65536 ∧ ∃ w, y = ftMark h (ftAdd e w) ∧ ((op = 1 ∧ ftAdmitWrite h path u = (w, .ok e)) ∨ (op = 4 ∧ ftAdmitSend h path u = (w,
      .ok e)) ∨ (op = 5 ∧ ftAdmitAtomic (fld pay 0 1) h path u = (w, .ok e)) ∨ (op = 0x0A ∧ ftAdmitSignal h path u = (w, .ok e))))) ∧
      v = modRx h.src h.msg (fun e => { e with path := path, last := y.tb.ticks, ackDue := some (y.tb.ticks + 2000) }) y ∧ (h.mlen = e.len ∧
      h.mtu = e.mtu ∧ e.op = op ∧ (op = 1 ∨ op = 5 → h.raddr = e.addr) ∧ h.pidx < e.pkts ∧
      (op = 1 ∨ op = 4 → h.plen = min (2 ^ e.mtu) (e.len - h.pidx * 2 ^ e.mtu)) ∧ h.pidx ≤ e.cum + 127) ∧ ∃ (w : State) (a : Nat),
      e.held.contains h.pidx = false ∧ a = e.addr + h.pidx * 2 ^ e.mtu ∧ op = 4 ∧ writeMem v a pay = (w, none)) ∧
    (∃ (s p u : State) (fr : Frame) (rest : List Frame) (b pay : Bytes) (h : FtHdr) (path : Nat) (marked sum : Bool), (s.power.running = true ∧
      ftOn s = true ∧ s.net.ftIn = fr :: rest) ∧ ftIncoming s fr = (b, marked, sum) ∧ h = { ftHeader b with ce := marked } ∧ pay = ftPayload b ∧
      path = (if 32 ≤ fr.mac then 64 + (fr.mac - 32) else h.path) ∧ p = { s with net := { s.net with ftIn := rest } } ∧
      u = (if marked then p.count .ftCe 0 0 1 else p) ∧ (sum = true ∧ ftBad s b = false ∧
      (ftTargets s (ftHeader b)).find? (fun e => memWaits s e.1 e.2) = none ∧ Int.natAbs ((s.now : Int) - h.time) ≤ ftMaxAge s * 1000) ∧
      ∃ (cmd : Instr) (op : Nat), (((cmd, op) ∈ [(Instr.ftRxWrite, 1), (.ftRxSend, 4), (.ftRxAtomic, 5), (.ftRxSignal, 0x0A)]) ∧ h.op = op) ∧
      ∃ (e : FtRx) (y : _) (v : _), ((ftFind u h.src h.msg = some e ∧ e.st = .active ∧ y = ftMark h u) ∨ (ftFind u h.src h.msg = none ∧
      u.ft.rx.length < 65536 ∧ ∃ w, y = ftMark h (ftAdd e w) ∧ ((op = 1 ∧ ftAdmitWrite h path u = (w, .ok e)) ∨ (op = 4 ∧ ftAdmitSend h path u = (w,
      .ok e)) ∨ (op = 5 ∧ ftAdmitAtomic (fld pay 0 1) h path u = (w, .ok e)) ∨ (op = 0x0A ∧ ftAdmitSignal h path u = (w, .ok e))))) ∧
      v = modRx h.src h.msg (fun e => { e with path := path, last := y.tb.ticks, ackDue := some (y.tb.ticks + 2000) }) y ∧ (h.mlen = e.len ∧
      h.mtu = e.mtu ∧ e.op = op ∧ (op = 1 ∨ op = 5 → h.raddr = e.addr) ∧ h.pidx < e.pkts ∧
      (op = 1 ∨ op = 4 → h.plen = min (2 ^ e.mtu) (e.len - h.pidx * 2 ^ e.mtu)) ∧ h.pidx ≤ e.cum + 127) ∧ ∃ (w : State) (a : Nat) (c : _),
      e.held.contains h.pidx = false ∧ a = e.addr + h.pidx * 2 ^ e.mtu ∧ (op = 1 ∨ op = 4) ∧ writeMem v a pay = (w, some c)) ∧
    (∃ (s p u : State) (fr : Frame) (rest : List Frame) (b pay : Bytes) (h : FtHdr) (path : Nat) (marked sum : Bool), (s.power.running = true ∧
      ftOn s = true ∧ s.net.ftIn = fr :: rest) ∧ ftIncoming s fr = (b, marked, sum) ∧ h = { ftHeader b with ce := marked } ∧ pay = ftPayload b ∧
      path = (if 32 ≤ fr.mac then 64 + (fr.mac - 32) else h.path) ∧ p = { s with net := { s.net with ftIn := rest } } ∧
      u = (if marked then p.count .ftCe 0 0 1 else p) ∧ (sum = true ∧ ftBad s b = false ∧
      (ftTargets s (ftHeader b)).find? (fun e => memWaits s e.1 e.2) = none ∧ Int.natAbs ((s.now : Int) - h.time) ≤ ftMaxAge s * 1000) ∧
      ∃ (cmd : Instr) (op : Nat), (((cmd, op) ∈ [(Instr.ftRxWrite, 1), (.ftRxSend, 4), (.ftRxAtomic, 5), (.ftRxSignal, 0x0A)]) ∧ h.op = op) ∧
      ∃ (e : FtRx) (y : _) (v : _), ((ftFind u h.src h.msg = some e ∧ e.st = .active ∧ y = ftMark h u) ∨ (ftFind u h.src h.msg = none ∧
      u.ft.rx.length < 65536 ∧ ∃ w, y = ftMark h (ftAdd e w) ∧ ((op = 1 ∧ ftAdmitWrite h path u = (w, .ok e)) ∨ (op = 4 ∧ ftAdmitSend h path u = (w,
      .ok e)) ∨ (op = 5 ∧ ftAdmitAtomic (fld pay 0 1) h path u = (w, .ok e)) ∨ (op = 0x0A ∧ ftAdmitSignal h path u = (w, .ok e))))) ∧
      v = modRx h.src h.msg (fun e => { e with path := path, last := y.tb.ticks, ackDue := some (y.tb.ticks + 2000) }) y ∧ (h.mlen = e.len ∧
      h.mtu = e.mtu ∧ e.op = op ∧ (op = 1 ∨ op = 5 → h.raddr = e.addr) ∧ h.pidx < e.pkts ∧
      (op = 1 ∨ op = 4 → h.plen = min (2 ^ e.mtu) (e.len - h.pidx * 2 ^ e.mtu)) ∧ h.pidx ≤ e.cum + 127) ∧ ∃ (w : State) (a : Nat) (c : _),
      e.held.contains h.pidx = false ∧ a = e.addr + h.pidx * 2 ^ e.mtu ∧ op = 5 ∧ readMem v e.addr e.len = (w, .error c)) ∧
    (∃ (s p u : State) (fr : Frame) (rest : List Frame) (b pay : Bytes) (h : FtHdr) (path : Nat) (marked sum : Bool), (s.power.running = true ∧
      ftOn s = true ∧ s.net.ftIn = fr :: rest) ∧ ftIncoming s fr = (b, marked, sum) ∧ h = { ftHeader b with ce := marked } ∧ pay = ftPayload b ∧
      path = (if 32 ≤ fr.mac then 64 + (fr.mac - 32) else h.path) ∧ p = { s with net := { s.net with ftIn := rest } } ∧
      u = (if marked then p.count .ftCe 0 0 1 else p) ∧ (sum = true ∧ ftBad s b = false ∧
      (ftTargets s (ftHeader b)).find? (fun e => memWaits s e.1 e.2) = none ∧ Int.natAbs ((s.now : Int) - h.time) ≤ ftMaxAge s * 1000) ∧
      ∃ (cmd : Instr) (op : Nat), (((cmd, op) ∈ [(Instr.ftRxWrite, 1), (.ftRxSend, 4), (.ftRxAtomic, 5), (.ftRxSignal, 0x0A)]) ∧ h.op = op) ∧
      ∃ (e : FtRx) (y : _) (v : _), ((ftFind u h.src h.msg = some e ∧ e.st = .active ∧ y = ftMark h u) ∨ (ftFind u h.src h.msg = none ∧
      u.ft.rx.length < 65536 ∧ ∃ w, y = ftMark h (ftAdd e w) ∧ ((op = 1 ∧ ftAdmitWrite h path u = (w, .ok e)) ∨ (op = 4 ∧ ftAdmitSend h path u = (w,
      .ok e)) ∨ (op = 5 ∧ ftAdmitAtomic (fld pay 0 1) h path u = (w, .ok e)) ∨ (op = 0x0A ∧ ftAdmitSignal h path u = (w, .ok e))))) ∧
      v = modRx h.src h.msg (fun e => { e with path := path, last := y.tb.ticks, ackDue := some (y.tb.ticks + 2000) }) y ∧ (h.mlen = e.len ∧
      h.mtu = e.mtu ∧ e.op = op ∧ (op = 1 ∨ op = 5 → h.raddr = e.addr) ∧ h.pidx < e.pkts ∧
      (op = 1 ∨ op = 4 → h.plen = min (2 ^ e.mtu) (e.len - h.pidx * 2 ^ e.mtu)) ∧ h.pidx ≤ e.cum + 127) ∧
      ∃ (w : State) (a : Nat) (d : Bytes) (x : State), e.held.contains h.pidx = false ∧ a = e.addr + h.pidx * 2 ^ e.mtu ∧ op = 5 ∧
      readMem v e.addr e.len = (w, .ok d) ∧ writeMem w e.addr (leBytes e.len (atomicOp (fld pay 0 1) (leNat d) (fld pay 8 8) (fld pay 16 8)).1) = (x,
      none)) ∧
    (∃ (s p u : State) (fr : Frame) (rest : List Frame) (b pay : Bytes) (h : FtHdr) (path : Nat) (marked sum : Bool), (s.power.running = true ∧
      ftOn s = true ∧ s.net.ftIn = fr :: rest) ∧ ftIncoming s fr = (b, marked, sum) ∧ h = { ftHeader b with ce := marked } ∧ pay = ftPayload b ∧
      path = (if 32 ≤ fr.mac then 64 + (fr.mac - 32) else h.path) ∧ p = { s with net := { s.net with ftIn := rest } } ∧
      u = (if marked then p.count .ftCe 0 0 1 else p) ∧ (sum = true ∧ ftBad s b = false ∧
      (ftTargets s (ftHeader b)).find? (fun e => memWaits s e.1 e.2) = none ∧ Int.natAbs ((s.now : Int) - h.time) ≤ ftMaxAge s * 1000) ∧
      ∃ (cmd : Instr) (op : Nat), (((cmd, op) ∈ [(Instr.ftRxWrite, 1), (.ftRxSend, 4), (.ftRxAtomic, 5), (.ftRxSignal, 0x0A)]) ∧ h.op = op) ∧
      ∃ (e : FtRx) (y : _) (v : _), ((ftFind u h.src h.msg = some e ∧ e.st = .active ∧ y = ftMark h u) ∨ (ftFind u h.src h.msg = none ∧
      u.ft.rx.length < 65536 ∧ ∃ w, y = ftMark h (ftAdd e w) ∧ ((op = 1 ∧ ftAdmitWrite h path u = (w, .ok e)) ∨ (op = 4 ∧ ftAdmitSend h path u = (w,
      .ok e)) ∨ (op = 5 ∧ ftAdmitAtomic (fld pay 0 1) h path u = (w, .ok e)) ∨ (op = 0x0A ∧ ftAdmitSignal h path u = (w, .ok e))))) ∧
      v = modRx h.src h.msg (fun e => { e with path := path, last := y.tb.ticks, ackDue := some (y.tb.ticks + 2000) }) y ∧ (h.mlen = e.len ∧
      h.mtu = e.mtu ∧ e.op = op ∧ (op = 1 ∨ op = 5 → h.raddr = e.addr) ∧ h.pidx < e.pkts ∧
      (op = 1 ∨ op = 4 → h.plen = min (2 ^ e.mtu) (e.len - h.pidx * 2 ^ e.mtu)) ∧ h.pidx ≤ e.cum + 127) ∧ ∃ (a : Nat),
      e.held.contains h.pidx = false ∧ a = e.addr + h.pidx * 2 ^ e.mtu ∧ op = 0x0A) ∧
    (∃ (s p u : State) (fr : Frame) (rest : List Frame) (b pay : Bytes) (h : FtHdr) (path : Nat) (marked sum : Bool), (s.power.running = true ∧
      ftOn s = true ∧ s.net.ftIn = fr :: rest) ∧ ftIncoming s fr = (b, marked, sum) ∧ h = { ftHeader b with ce := marked } ∧ pay = ftPayload b ∧
      path = (if 32 ≤ fr.mac then 64 + (fr.mac - 32) else h.path) ∧ p = { s with net := { s.net with ftIn := rest } } ∧
      u = (if marked then p.count .ftCe 0 0 1 else p) ∧ (sum = true ∧ ftBad s b = false ∧
      (ftTargets s (ftHeader b)).find? (fun e => memWaits s e.1 e.2) = none ∧ Int.natAbs ((s.now : Int) - h.time) ≤ ftMaxAge s * 1000 ∧
      ftFind u h.src h.msg = none ∧ u.ft.rx.length < 65536) ∧ ∃ (r : _), h.op = 1 ∧ ftRegion u h 3 h.mlen 1 = .error r) ∧
    (∃ (s p u : State) (fr : Frame) (rest : List Frame) (b pay : Bytes) (h : FtHdr) (path : Nat) (marked sum : Bool), (s.power.running = true ∧
      ftOn s = true ∧ s.net.ftIn = fr :: rest) ∧ ftIncoming s fr = (b, marked, sum) ∧ h = { ftHeader b with ce := marked } ∧ pay = ftPayload b ∧
      path = (if 32 ≤ fr.mac then 64 + (fr.mac - 32) else h.path) ∧ p = { s with net := { s.net with ftIn := rest } } ∧
      u = (if marked then p.count .ftCe 0 0 1 else p) ∧ (sum = true ∧ ftBad s b = false ∧
      (ftTargets s (ftHeader b)).find? (fun e => memWaits s e.1 e.2) = none ∧ Int.natAbs ((s.now : Int) - h.time) ≤ ftMaxAge s * 1000 ∧
      ftFind u h.src h.msg = none ∧ u.ft.rx.length < 65536) ∧ ∃ (k : Nat), ftRegion u h 3 h.mlen 1 = .ok k) ∧
    (∃ (s p u : State) (fr : Frame) (rest : List Frame) (b pay : Bytes) (h : FtHdr) (path : Nat) (marked sum : Bool), (s.power.running = true ∧
      ftOn s = true ∧ s.net.ftIn = fr :: rest) ∧ ftIncoming s fr = (b, marked, sum) ∧ h = { ftHeader b with ce := marked } ∧ pay = ftPayload b ∧
      path = (if 32 ≤ fr.mac then 64 + (fr.mac - 32) else h.path) ∧ p = { s with net := { s.net with ftIn := rest } } ∧
      u = (if marked then p.count .ftCe 0 0 1 else p) ∧ sum = true ∧ ftBad s b = false ∧
      (ftTargets s (ftHeader b)).find? (fun e => memWaits s e.1 e.2) = none ∧ Int.natAbs ((s.now : Int) - h.time) ≤ ftMaxAge s * 1000 ∧
      ftFind u h.src h.msg = none ∧ u.ft.rx.length < 65536 ∧ h.op = 4 ∧ u.ftRq (16 * h.tenant + h.raddr % 16) = none) ∧
    (∃ (s p u : State) (fr : Frame) (rest : List Frame) (b pay : Bytes) (h : FtHdr) (path : Nat) (marked sum : Bool), (s.power.running = true ∧
      ftOn s = true ∧ s.net.ftIn = fr :: rest) ∧ ftIncoming s fr = (b, marked, sum) ∧ h = { ftHeader b with ce := marked } ∧ pay = ftPayload b ∧
      path = (if 32 ≤ fr.mac then 64 + (fr.mac - 32) else h.path) ∧ p = { s with net := { s.net with ftIn := rest } } ∧
      u = (if marked then p.count .ftCe 0 0 1 else p) ∧ sum = true ∧ ftBad s b = false ∧
      (ftTargets s (ftHeader b)).find? (fun e => memWaits s e.1 e.2) = none ∧ Int.natAbs ((s.now : Int) - h.time) ≤ ftMaxAge s * 1000 ∧
      ftFind u h.src h.msg = none ∧ u.ft.rx.length < 65536 ∧ h.op = 4 ∧ 16 ≤ h.raddr) ∧
    (∃ (s p u : State) (fr : Frame) (rest : List Frame) (b pay : Bytes) (h : FtHdr) (path : Nat) (marked sum : Bool), (s.power.running = true ∧
      ftOn s = true ∧ s.net.ftIn = fr :: rest) ∧ ftIncoming s fr = (b, marked, sum) ∧ h = { ftHeader b with ce := marked } ∧ pay = ftPayload b ∧
      path = (if 32 ≤ fr.mac then 64 + (fr.mac - 32) else h.path) ∧ p = { s with net := { s.net with ftIn := rest } } ∧
      u = (if marked then p.count .ftCe 0 0 1 else p) ∧ (sum = true ∧ ftBad s b = false ∧
      (ftTargets s (ftHeader b)).find? (fun e => memWaits s e.1 e.2) = none ∧ Int.natAbs ((s.now : Int) - h.time) ≤ ftMaxAge s * 1000 ∧
      ftFind u h.src h.msg = none ∧ u.ft.rx.length < 65536) ∧ ∃ (r : FtRq), h.raddr < 16 ∧ u.ftRq (16 * h.tenant + h.raddr) = some r ∧ h.op = 4 ∧
      r.src ≠ 0xFFFFFFFF ∧ r.src ≠ h.src) ∧
    (∃ (s p u : State) (fr : Frame) (rest : List Frame) (b pay : Bytes) (h : FtHdr) (path : Nat) (marked sum : Bool), (s.power.running = true ∧
      ftOn s = true ∧ s.net.ftIn = fr :: rest) ∧ ftIncoming s fr = (b, marked, sum) ∧ h = { ftHeader b with ce := marked } ∧ pay = ftPayload b ∧
      path = (if 32 ≤ fr.mac then 64 + (fr.mac - 32) else h.path) ∧ p = { s with net := { s.net with ftIn := rest } } ∧
      u = (if marked then p.count .ftCe 0 0 1 else p) ∧ (sum = true ∧ ftBad s b = false ∧
      (ftTargets s (ftHeader b)).find? (fun e => memWaits s e.1 e.2) = none ∧ Int.natAbs ((s.now : Int) - h.time) ≤ ftMaxAge s * 1000 ∧
      ftFind u h.src h.msg = none ∧ u.ft.rx.length < 65536) ∧ ∃ (r : FtRq), h.raddr < 16 ∧ u.ftRq (16 * h.tenant + h.raddr) = some r ∧
      (r.src = 0xFFFFFFFF ∨ r.src = h.src) ∧ h.op = 4 ∧ 2 ^ r.slot < h.mlen) ∧
    (∃ (s p u : State) (fr : Frame) (rest : List Frame) (b pay : Bytes) (h : FtHdr) (path : Nat) (marked sum : Bool), (s.power.running = true ∧
      ftOn s = true ∧ s.net.ftIn = fr :: rest) ∧ ftIncoming s fr = (b, marked, sum) ∧ h = { ftHeader b with ce := marked } ∧ pay = ftPayload b ∧
      path = (if 32 ≤ fr.mac then 64 + (fr.mac - 32) else h.path) ∧ p = { s with net := { s.net with ftIn := rest } } ∧
      u = (if marked then p.count .ftCe 0 0 1 else p) ∧ (sum = true ∧ ftBad s b = false ∧
      (ftTargets s (ftHeader b)).find? (fun e => memWaits s e.1 e.2) = none ∧ Int.natAbs ((s.now : Int) - h.time) ≤ ftMaxAge s * 1000 ∧
      ftFind u h.src h.msg = none ∧ u.ft.rx.length < 65536) ∧ ∃ (r : FtRq), (h.raddr < 16 ∧ u.ftRq (16 * h.tenant + h.raddr) = some r ∧
      (r.src = 0xFFFFFFFF ∨ r.src = h.src) ∧ h.mlen ≤ 2 ^ r.slot) ∧ ∃ (a : Nat) (d : Nat), a = r.base + r.next % 2 ^ r.log2 * 2 ^ r.slot ∧
      r.seen = some d ∧ (r.next : Int) - d < (2 ^ r.log2 : Nat) ∧ h.op = 4 ∧ permits u (tenReq h.tenant 0x202) a h.mlen true = false) ∧
    (∃ (s p u : State) (fr : Frame) (rest : List Frame) (b pay : Bytes) (h : FtHdr) (path : Nat) (marked sum : Bool), (s.power.running = true ∧
      ftOn s = true ∧ s.net.ftIn = fr :: rest) ∧ ftIncoming s fr = (b, marked, sum) ∧ h = { ftHeader b with ce := marked } ∧ pay = ftPayload b ∧
      path = (if 32 ≤ fr.mac then 64 + (fr.mac - 32) else h.path) ∧ p = { s with net := { s.net with ftIn := rest } } ∧
      u = (if marked then p.count .ftCe 0 0 1 else p) ∧ (sum = true ∧ ftBad s b = false ∧
      (ftTargets s (ftHeader b)).find? (fun e => memWaits s e.1 e.2) = none ∧ Int.natAbs ((s.now : Int) - h.time) ≤ ftMaxAge s * 1000 ∧
      ftFind u h.src h.msg = none ∧ u.ft.rx.length < 65536) ∧ ∃ (r : FtRq), (h.raddr < 16 ∧ u.ftRq (16 * h.tenant + h.raddr) = some r ∧
      (r.src = 0xFFFFFFFF ∨ r.src = h.src) ∧ h.mlen ≤ 2 ^ r.slot) ∧ ∃ (a : Nat) (d : Nat), a = r.base + r.next % 2 ^ r.log2 * 2 ^ r.slot ∧
      r.seen = some d ∧ (r.next : Int) - d < (2 ^ r.log2 : Nat) ∧ permits u (tenReq h.tenant 0x202) a h.mlen true = true) ∧
    (∃ (s p u : State) (fr : Frame) (rest : List Frame) (b pay : Bytes) (h : FtHdr) (path : Nat) (marked sum : Bool), (s.power.running = true ∧
      ftOn s = true ∧ s.net.ftIn = fr :: rest) ∧ ftIncoming s fr = (b, marked, sum) ∧ h = { ftHeader b with ce := marked } ∧ pay = ftPayload b ∧
      path = (if 32 ≤ fr.mac then 64 + (fr.mac - 32) else h.path) ∧ p = { s with net := { s.net with ftIn := rest } } ∧
      u = (if marked then p.count .ftCe 0 0 1 else p) ∧ (sum = true ∧ ftBad s b = false ∧
      (ftTargets s (ftHeader b)).find? (fun e => memWaits s e.1 e.2) = none ∧ Int.natAbs ((s.now : Int) - h.time) ≤ ftMaxAge s * 1000 ∧
      ftFind u h.src h.msg = none ∧ u.ft.rx.length < 65536) ∧ ∃ (r : FtRq), (h.raddr < 16 ∧ u.ftRq (16 * h.tenant + h.raddr) = some r ∧
      (r.src = 0xFFFFFFFF ∨ r.src = h.src) ∧ h.mlen ≤ 2 ^ r.slot) ∧ (r.seen = none ∨ (∃ d, r.seen = some d ∧
      (2 ^ r.log2 : Nat) ≤ (r.next : Int) - d)) ∧ h.op = 4 ∧ permits u (tenReq h.tenant 0x202) r.done 8 false = false) ∧
    (∃ (s p u : State) (fr : Frame) (rest : List Frame) (b pay : Bytes) (h : FtHdr) (path : Nat) (marked sum : Bool), (s.power.running = true ∧
      ftOn s = true ∧ s.net.ftIn = fr :: rest) ∧ ftIncoming s fr = (b, marked, sum) ∧ h = { ftHeader b with ce := marked } ∧ pay = ftPayload b ∧
      path = (if 32 ≤ fr.mac then 64 + (fr.mac - 32) else h.path) ∧ p = { s with net := { s.net with ftIn := rest } } ∧
      u = (if marked then p.count .ftCe 0 0 1 else p) ∧ (sum = true ∧ ftBad s b = false ∧
      (ftTargets s (ftHeader b)).find? (fun e => memWaits s e.1 e.2) = none ∧ Int.natAbs ((s.now : Int) - h.time) ≤ ftMaxAge s * 1000 ∧
      ftFind u h.src h.msg = none ∧ u.ft.rx.length < 65536) ∧ ∃ (r : FtRq), (h.raddr < 16 ∧ u.ftRq (16 * h.tenant + h.raddr) = some r ∧
      (r.src = 0xFFFFFFFF ∨ r.src = h.src) ∧ h.mlen ≤ 2 ^ r.slot) ∧ (r.seen = none ∨ (∃ d, r.seen = some d ∧
      (2 ^ r.log2 : Nat) ≤ (r.next : Int) - d)) ∧ permits u (tenReq h.tenant 0x202) r.done 8 false = true ∧ ∃ (w : State) (c : _), h.op = 4 ∧
      readMem u r.done 8 = (w, .error c)) ∧
    (∃ (s p u : State) (fr : Frame) (rest : List Frame) (b pay : Bytes) (h : FtHdr) (path : Nat) (marked sum : Bool), (s.power.running = true ∧
      ftOn s = true ∧ s.net.ftIn = fr :: rest) ∧ ftIncoming s fr = (b, marked, sum) ∧ h = { ftHeader b with ce := marked } ∧ pay = ftPayload b ∧
      path = (if 32 ≤ fr.mac then 64 + (fr.mac - 32) else h.path) ∧ p = { s with net := { s.net with ftIn := rest } } ∧
      u = (if marked then p.count .ftCe 0 0 1 else p) ∧ (sum = true ∧ ftBad s b = false ∧
      (ftTargets s (ftHeader b)).find? (fun e => memWaits s e.1 e.2) = none ∧ Int.natAbs ((s.now : Int) - h.time) ≤ ftMaxAge s * 1000 ∧
      ftFind u h.src h.msg = none ∧ u.ft.rx.length < 65536) ∧ ∃ (r : FtRq), (h.raddr < 16 ∧ u.ftRq (16 * h.tenant + h.raddr) = some r ∧
      (r.src = 0xFFFFFFFF ∨ r.src = h.src) ∧ h.mlen ≤ 2 ^ r.slot) ∧ (r.seen = none ∨ (∃ d, r.seen = some d ∧
      (2 ^ r.log2 : Nat) ≤ (r.next : Int) - d)) ∧ permits u (tenReq h.tenant 0x202) r.done 8 false = true ∧ ∃ (w : State) (d : Bytes), h.op = 4 ∧
      readMem u r.done 8 = (w, .ok d) ∧ (2 ^ r.log2 : Nat) ≤ (r.next : Int) - leNat d) ∧
    (∃ (s p u : State) (fr : Frame) (rest : List Frame) (b pay : Bytes) (h : FtHdr) (path : Nat) (marked sum : Bool), (s.power.running = true ∧
      ftOn s = true ∧ s.net.ftIn = fr :: rest) ∧ ftIncoming s fr = (b, marked, sum) ∧ h = { ftHeader b with ce := marked } ∧ pay = ftPayload b ∧
      path = (if 32 ≤ fr.mac then 64 + (fr.mac - 32) else h.path) ∧ p = { s with net := { s.net with ftIn := rest } } ∧
      u = (if marked then p.count .ftCe 0 0 1 else p) ∧ (sum = true ∧ ftBad s b = false ∧
      (ftTargets s (ftHeader b)).find? (fun e => memWaits s e.1 e.2) = none ∧ Int.natAbs ((s.now : Int) - h.time) ≤ ftMaxAge s * 1000 ∧
      ftFind u h.src h.msg = none ∧ u.ft.rx.length < 65536) ∧ ∃ (r : FtRq), (h.raddr < 16 ∧ u.ftRq (16 * h.tenant + h.raddr) = some r ∧
      (r.src = 0xFFFFFFFF ∨ r.src = h.src) ∧ h.mlen ≤ 2 ^ r.slot) ∧ (r.seen = none ∨ (∃ d, r.seen = some d ∧
      (2 ^ r.log2 : Nat) ≤ (r.next : Int) - d)) ∧ permits u (tenReq h.tenant 0x202) r.done 8 false = true ∧ ∃ (w : State) (d : Bytes) (a : Nat),
      readMem u r.done 8 = (w, .ok d) ∧ (r.next : Int) - leNat d < (2 ^ r.log2 : Nat) ∧ a = r.base + r.next % 2 ^ r.log2 * 2 ^ r.slot ∧
      permits w (tenReq h.tenant 0x202) a h.mlen true = true) ∧
    (∃ (s p u : State) (fr : Frame) (rest : List Frame) (b pay : Bytes) (h : FtHdr) (path : Nat) (marked sum : Bool), (s.power.running = true ∧
      ftOn s = true ∧ s.net.ftIn = fr :: rest) ∧ ftIncoming s fr = (b, marked, sum) ∧ h = { ftHeader b with ce := marked } ∧ pay = ftPayload b ∧
      path = (if 32 ≤ fr.mac then 64 + (fr.mac - 32) else h.path) ∧ p = { s with net := { s.net with ftIn := rest } } ∧
      u = (if marked then p.count .ftCe 0 0 1 else p) ∧ sum = true ∧ ftBad s b = false ∧
      (ftTargets s (ftHeader b)).find? (fun e => memWaits s e.1 e.2) = none ∧ Int.natAbs ((s.now : Int) - h.time) ≤ ftMaxAge s * 1000 ∧
      ftFind u h.src h.msg = none ∧ u.ft.rx.length < 65536 ∧ h.op = 5 ∧ (fld pay 0 1 = 0 ∨ 6 < fld pay 0 1 ∨ h.mlen ≠ aopSize (fld pay 0 1))) ∧
    (∃ (s p u : State) (fr : Frame) (rest : List Frame) (b pay : Bytes) (h : FtHdr) (path : Nat) (marked sum : Bool), (s.power.running = true ∧
      ftOn s = true ∧ s.net.ftIn = fr :: rest) ∧ ftIncoming s fr = (b, marked, sum) ∧ h = { ftHeader b with ce := marked } ∧ pay = ftPayload b ∧
      path = (if 32 ≤ fr.mac then 64 + (fr.mac - 32) else h.path) ∧ p = { s with net := { s.net with ftIn := rest } } ∧
      u = (if marked then p.count .ftCe 0 0 1 else p) ∧ (sum = true ∧ ftBad s b = false ∧
      (ftTargets s (ftHeader b)).find? (fun e => memWaits s e.1 e.2) = none ∧ Int.natAbs ((s.now : Int) - h.time) ≤ ftMaxAge s * 1000 ∧
      ftFind u h.src h.msg = none ∧ u.ft.rx.length < 65536 ∧ 1 ≤ fld pay 0 1 ∧ fld pay 0 1 ≤ 6 ∧ h.mlen = aopSize (fld pay 0 1)) ∧ ∃ (r : _),
      h.op = 5 ∧ ftRegion u h 4 h.mlen h.mlen = .error r) ∧
    (∃ (s p u : State) (fr : Frame) (rest : List Frame) (b pay : Bytes) (h : FtHdr) (path : Nat) (marked sum : Bool), (s.power.running = true ∧
      ftOn s = true ∧ s.net.ftIn = fr :: rest) ∧ ftIncoming s fr = (b, marked, sum) ∧ h = { ftHeader b with ce := marked } ∧ pay = ftPayload b ∧
      path = (if 32 ≤ fr.mac then 64 + (fr.mac - 32) else h.path) ∧ p = { s with net := { s.net with ftIn := rest } } ∧
      u = (if marked then p.count .ftCe 0 0 1 else p) ∧ (sum = true ∧ ftBad s b = false ∧
      (ftTargets s (ftHeader b)).find? (fun e => memWaits s e.1 e.2) = none ∧ Int.natAbs ((s.now : Int) - h.time) ≤ ftMaxAge s * 1000 ∧
      ftFind u h.src h.msg = none ∧ u.ft.rx.length < 65536 ∧ 1 ≤ fld pay 0 1 ∧ fld pay 0 1 ≤ 6 ∧ h.mlen = aopSize (fld pay 0 1)) ∧ ∃ (k : Nat),
      ftRegion u h 4 h.mlen h.mlen = .ok k) ∧
    (∃ (s p u : State) (fr : Frame) (rest : List Frame) (b pay : Bytes) (h : FtHdr) (path : Nat) (marked sum : Bool), (s.power.running = true ∧
      ftOn s = true ∧ s.net.ftIn = fr :: rest) ∧ ftIncoming s fr = (b, marked, sum) ∧ h = { ftHeader b with ce := marked } ∧ pay = ftPayload b ∧
      path = (if 32 ≤ fr.mac then 64 + (fr.mac - 32) else h.path) ∧ p = { s with net := { s.net with ftIn := rest } } ∧
      u = (if marked then p.count .ftCe 0 0 1 else p) ∧ (sum = true ∧ ftBad s b = false ∧
      (ftTargets s (ftHeader b)).find? (fun e => memWaits s e.1 e.2) = none ∧ Int.natAbs ((s.now : Int) - h.time) ≤ ftMaxAge s * 1000 ∧
      ftFind u h.src h.msg = none ∧ u.ft.rx.length < 65536 ∧ h.op = 0x0A) ∧ (17408 ≤ h.raddr ∨ ctrOwner u h.raddr ≠ h.tenant + 1)) ∧
    (∃ (s p u : State) (fr : Frame) (rest : List Frame) (b pay : Bytes) (h : FtHdr) (path : Nat) (marked sum : Bool), (s.power.running = true ∧
      ftOn s = true ∧ s.net.ftIn = fr :: rest) ∧ ftIncoming s fr = (b, marked, sum) ∧ h = { ftHeader b with ce := marked } ∧ pay = ftPayload b ∧
      path = (if 32 ≤ fr.mac then 64 + (fr.mac - 32) else h.path) ∧ p = { s with net := { s.net with ftIn := rest } } ∧
      u = (if marked then p.count .ftCe 0 0 1 else p) ∧ sum = true ∧ ftBad s b = false ∧
      (ftTargets s (ftHeader b)).find? (fun e => memWaits s e.1 e.2) = none ∧ Int.natAbs ((s.now : Int) - h.time) ≤ ftMaxAge s * 1000 ∧
      ftFind u h.src h.msg = none ∧ u.ft.rx.length < 65536 ∧ h.raddr < 17408 ∧ ctrOwner u h.raddr = h.tenant + 1) ∧
    (∃ (s p u : State) (fr : Frame) (rest : List Frame) (b pay : Bytes) (h : FtHdr) (path : Nat) (marked sum : Bool), (s.power.running = true ∧
      ftOn s = true ∧ s.net.ftIn = fr :: rest) ∧ ftIncoming s fr = (b, marked, sum) ∧ h = { ftHeader b with ce := marked } ∧ pay = ftPayload b ∧
      path = (if 32 ≤ fr.mac then 64 + (fr.mac - 32) else h.path) ∧ p = { s with net := { s.net with ftIn := rest } } ∧
      u = (if marked then p.count .ftCe 0 0 1 else p) ∧ (sum = true ∧ ftBad s b = false ∧
      (ftTargets s (ftHeader b)).find? (fun e => memWaits s e.1 e.2) = none ∧ Int.natAbs ((s.now : Int) - h.time) ≤ ftMaxAge s * 1000) ∧ ∃ (r : _),
      h.op = 2 ∧ ftRegion u h 2 h.mlen 1 = .error r) ∧
    (∃ (s p u : State) (fr : Frame) (rest : List Frame) (b pay : Bytes) (h : FtHdr) (path : Nat) (marked sum : Bool), (s.power.running = true ∧
      ftOn s = true ∧ s.net.ftIn = fr :: rest) ∧ ftIncoming s fr = (b, marked, sum) ∧ h = { ftHeader b with ce := marked } ∧ pay = ftPayload b ∧
      path = (if 32 ≤ fr.mac then 64 + (fr.mac - 32) else h.path) ∧ p = { s with net := { s.net with ftIn := rest } } ∧
      u = (if marked then p.count .ftCe 0 0 1 else p) ∧ (sum = true ∧ ftBad s b = false ∧
      (ftTargets s (ftHeader b)).find? (fun e => memWaits s e.1 e.2) = none ∧ Int.natAbs ((s.now : Int) - h.time) ≤ ftMaxAge s * 1000) ∧ ∃ (k : Nat),
      h.op = 2 ∧ ftRegion u h 2 h.mlen 1 = .ok k) ∧
    (∃ (s p u : State) (fr : Frame) (rest : List Frame) (b pay : Bytes) (h : FtHdr) (path : Nat) (marked sum : Bool), (s.power.running = true ∧
      ftOn s = true ∧ s.net.ftIn = fr :: rest) ∧ ftIncoming s fr = (b, marked, sum) ∧ h = { ftHeader b with ce := marked } ∧ pay = ftPayload b ∧
      path = (if 32 ≤ fr.mac then 64 + (fr.mac - 32) else h.path) ∧ p = { s with net := { s.net with ftIn := rest } } ∧
      u = (if marked then p.count .ftCe 0 0 1 else p) ∧ (sum = true ∧ ftBad s b = false ∧
      (ftTargets s (ftHeader b)).find? (fun e => memWaits s e.1 e.2) = none ∧ Int.natAbs ((s.now : Int) - h.time) ≤ ftMaxAge s * 1000) ∧
      ∃ (cmd : Instr) (op : Nat), ((cmd, op) ∈ [(Instr.ftRxReadResp, 3), (.ftRxAtomicResp, 6), (.ftRxAck, 7)]) ∧ h.op = op ∧ ftMine u h = none) ∧
    (∃ (s p u : State) (fr : Frame) (rest : List Frame) (b pay : Bytes) (h : FtHdr) (path : Nat) (marked sum : Bool), (s.power.running = true ∧
      ftOn s = true ∧ s.net.ftIn = fr :: rest) ∧ ftIncoming s fr = (b, marked, sum) ∧ h = { ftHeader b with ce := marked } ∧ pay = ftPayload b ∧
      path = (if 32 ≤ fr.mac then 64 + (fr.mac - 32) else h.path) ∧ p = { s with net := { s.net with ftIn := rest } } ∧
      u = (if marked then p.count .ftCe 0 0 1 else p) ∧ (sum = true ∧ ftBad s b = false ∧
      (ftTargets s (ftHeader b)).find? (fun e => memWaits s e.1 e.2) = none ∧ Int.natAbs ((s.now : Int) - h.time) ≤ ftMaxAge s * 1000 ∧ h.op = 8) ∧
      (h.mlen = 0 ∨ 7 ≤ h.mlen)) ∧
    (∃ (s p u : State) (fr : Frame) (rest : List Frame) (b pay : Bytes) (h : FtHdr) (path : Nat) (marked sum : Bool), (s.power.running = true ∧
      ftOn s = true ∧ s.net.ftIn = fr :: rest) ∧ ftIncoming s fr = (b, marked, sum) ∧ h = { ftHeader b with ce := marked } ∧ pay = ftPayload b ∧
      path = (if 32 ≤ fr.mac then 64 + (fr.mac - 32) else h.path) ∧ p = { s with net := { s.net with ftIn := rest } } ∧
      u = (if marked then p.count .ftCe 0 0 1 else p) ∧ sum = true ∧ ftBad s b = false ∧
      (ftTargets s (ftHeader b)).find? (fun e => memWaits s e.1 e.2) = none ∧ Int.natAbs ((s.now : Int) - h.time) ≤ ftMaxAge s * 1000 ∧ h.op = 8 ∧
      1 ≤ h.mlen ∧ h.mlen ≤ 6 ∧ ftMine u h = none) ∧
    (∃ (s p u : State) (fr : Frame) (rest : List Frame) (b pay : Bytes) (h : FtHdr) (path : Nat) (marked sum : Bool), (s.power.running = true ∧
      ftOn s = true ∧ s.net.ftIn = fr :: rest) ∧ ftIncoming s fr = (b, marked, sum) ∧ h = { ftHeader b with ce := marked } ∧ pay = ftPayload b ∧
      path = (if 32 ≤ fr.mac then 64 + (fr.mac - 32) else h.path) ∧ p = { s with net := { s.net with ftIn := rest } } ∧
      u = (if marked then p.count .ftCe 0 0 1 else p) ∧ (sum = true ∧ ftBad s b = false ∧
      (ftTargets s (ftHeader b)).find? (fun e => memWaits s e.1 e.2) = none ∧ Int.natAbs ((s.now : Int) - h.time) ≤ ftMaxAge s * 1000) ∧
      ∃ (i : Nat) (m : FtMsg), ftMine u h = some (i, m) ∧ h.op = 3 ∧ (m.op ≠ 2 ∨ m.pkts ≤ h.pidx ∨ h.pidx < m.cum ∨ m.held.contains h.pidx = true)) ∧
    (∃ (s p u : State) (fr : Frame) (rest : List Frame) (b pay : Bytes) (h : FtHdr) (path : Nat) (marked sum : Bool), (s.power.running = true ∧
      ftOn s = true ∧ s.net.ftIn = fr :: rest) ∧ ftIncoming s fr = (b, marked, sum) ∧ h = { ftHeader b with ce := marked } ∧ pay = ftPayload b ∧
      path = (if 32 ≤ fr.mac then 64 + (fr.mac - 32) else h.path) ∧ p = { s with net := { s.net with ftIn := rest } } ∧
      u = (if marked then p.count .ftCe 0 0 1 else p) ∧ (sum = true ∧ ftBad s b = false ∧
      (ftTargets s (ftHeader b)).find? (fun e => memWaits s e.1 e.2) = none ∧ Int.natAbs ((s.now : Int) - h.time) ≤ ftMaxAge s * 1000) ∧
      ∃ (i : Nat) (m : FtMsg), ftMine u h = some (i, m) ∧ (h.op = 3 ∧ m.op = 2 ∧ h.pidx < m.pkts ∧ m.cum ≤ h.pidx ∧ m.held.contains h.pidx = false) ∧
      (h.plen ≠ min (2 ^ m.mtu) (m.len - h.pidx * 2 ^ m.mtu) ∨ h.mlen ≠ m.len)) ∧
    (∃ (s p u : State) (fr : Frame) (rest : List Frame) (b pay : Bytes) (h : FtHdr) (path : Nat) (marked sum : Bool), (s.power.running = true ∧
      ftOn s = true ∧ s.net.ftIn = fr :: rest) ∧ ftIncoming s fr = (b, marked, sum) ∧ h = { ftHeader b with ce := marked } ∧ pay = ftPayload b ∧
      path = (if 32 ≤ fr.mac then 64 + (fr.mac - 32) else h.path) ∧ p = { s with net := { s.net with ftIn := rest } } ∧
      u = (if marked then p.count .ftCe 0 0 1 else p) ∧ (sum = true ∧ ftBad s b = false ∧
      (ftTargets s (ftHeader b)).find? (fun e => memWaits s e.1 e.2) = none ∧ Int.natAbs ((s.now : Int) - h.time) ≤ ftMaxAge s * 1000) ∧
      ∃ (i : Nat) (m : FtMsg), ftMine u h = some (i, m) ∧ (h.op = 3 ∧ m.op = 2 ∧ h.pidx < m.pkts ∧ m.cum ≤ h.pidx ∧ m.held.contains h.pidx = false) ∧
      ∃ (w : State) (x : FtMsg) (r : Option Nat), (h.plen = min (2 ^ m.mtu) (m.len - h.pidx * 2 ^ m.mtu) ∧ h.mlen = m.len) ∧ ((m.data = none ∧
      writeMem u (m.laddr + h.pidx * 2 ^ m.mtu) pay = (w, r) ∧
      x = cumUp (clearPkt { m with held := m.held ++ [h.pidx], moved := w.tb.ticks } h.pidx)) ∨ ((∃ d, m.data = some d) ∧ w = u ∧ r = none ∧
      x = cumUp (clearPkt { m with got := tput [] m.got h.pidx pay, held := m.held ++ [h.pidx], moved := w.tb.ticks } h.pidx))) ∧ r.isSome = true) ∧
    (∃ (s p u : State) (fr : Frame) (rest : List Frame) (b pay : Bytes) (h : FtHdr) (path : Nat) (marked sum : Bool), (s.power.running = true ∧
      ftOn s = true ∧ s.net.ftIn = fr :: rest) ∧ ftIncoming s fr = (b, marked, sum) ∧ h = { ftHeader b with ce := marked } ∧ pay = ftPayload b ∧
      path = (if 32 ≤ fr.mac then 64 + (fr.mac - 32) else h.path) ∧ p = { s with net := { s.net with ftIn := rest } } ∧
      u = (if marked then p.count .ftCe 0 0 1 else p) ∧ (sum = true ∧ ftBad s b = false ∧
      (ftTargets s (ftHeader b)).find? (fun e => memWaits s e.1 e.2) = none ∧ Int.natAbs ((s.now : Int) - h.time) ≤ ftMaxAge s * 1000) ∧
      ∃ (i : Nat) (m : FtMsg), ftMine u h = some (i, m) ∧ (h.op = 3 ∧ m.op = 2 ∧ h.pidx < m.pkts ∧ m.cum ≤ h.pidx ∧ m.held.contains h.pidx = false) ∧
      ∃ (w : State) (x : FtMsg) (r : Option Nat), (h.plen = min (2 ^ m.mtu) (m.len - h.pidx * 2 ^ m.mtu) ∧ h.mlen = m.len) ∧ ((m.data = none ∧
      writeMem u (m.laddr + h.pidx * 2 ^ m.mtu) pay = (w, r) ∧
      x = cumUp (clearPkt { m with held := m.held ++ [h.pidx], moved := w.tb.ticks } h.pidx)) ∨ ((∃ d, m.data = some d) ∧ w = u ∧ r = none ∧
      x = cumUp (clearPkt { m with got := tput [] m.got h.pidx pay, held := m.held ++ [h.pidx], moved := w.tb.ticks } h.pidx))) ∧ r = none ∧
      m.pkts ≤ x.cum) ∧
    (∃ (s p u : State) (fr : Frame) (rest : List Frame) (b pay : Bytes) (h : FtHdr) (path : Nat) (marked sum : Bool), (s.power.running = true ∧
      ftOn s = true ∧ s.net.ftIn = fr :: rest) ∧ ftIncoming s fr = (b, marked, sum) ∧ h = { ftHeader b with ce := marked } ∧ pay = ftPayload b ∧
      path = (if 32 ≤ fr.mac then 64 + (fr.mac - 32) else h.path) ∧ p = { s with net := { s.net with ftIn := rest } } ∧
      u = (if marked then p.count .ftCe 0 0 1 else p) ∧ (sum = true ∧ ftBad s b = false ∧
      (ftTargets s (ftHeader b)).find? (fun e => memWaits s e.1 e.2) = none ∧ Int.natAbs ((s.now : Int) - h.time) ≤ ftMaxAge s * 1000) ∧
      ∃ (i : Nat) (m : FtMsg), ftMine u h = some (i, m) ∧ (h.op = 3 ∧ m.op = 2 ∧ h.pidx < m.pkts ∧ m.cum ≤ h.pidx ∧ m.held.contains h.pidx = false) ∧
      ∃ (w : State) (x : FtMsg) (r : Option Nat), (h.plen = min (2 ^ m.mtu) (m.len - h.pidx * 2 ^ m.mtu) ∧ h.mlen = m.len) ∧ ((m.data = none ∧
      writeMem u (m.laddr + h.pidx * 2 ^ m.mtu) pay = (w, r) ∧
      x = cumUp (clearPkt { m with held := m.held ++ [h.pidx], moved := w.tb.ticks } h.pidx)) ∨ ((∃ d, m.data = some d) ∧ w = u ∧ r = none ∧
      x = cumUp (clearPkt { m with got := tput [] m.got h.pidx pay, held := m.held ++ [h.pidx], moved := w.tb.ticks } h.pidx))) ∧ r = none ∧
      x.cum < m.pkts) ∧
    (∃ (s p u : State) (fr : Frame) (rest : List Frame) (b pay : Bytes) (h : FtHdr) (path : Nat) (marked sum : Bool), (s.power.running = true ∧
      ftOn s = true ∧ s.net.ftIn = fr :: rest) ∧ ftIncoming s fr = (b, marked, sum) ∧ h = { ftHeader b with ce := marked } ∧ pay = ftPayload b ∧
      path = (if 32 ≤ fr.mac then 64 + (fr.mac - 32) else h.path) ∧ p = { s with net := { s.net with ftIn := rest } } ∧
      u = (if marked then p.count .ftCe 0 0 1 else p) ∧ (sum = true ∧ ftBad s b = false ∧
      (ftTargets s (ftHeader b)).find? (fun e => memWaits s e.1 e.2) = none ∧ Int.natAbs ((s.now : Int) - h.time) ≤ ftMaxAge s * 1000) ∧
      ∃ (i : Nat) (m : FtMsg), ftMine u h = some (i, m) ∧ h.op = 6 ∧ m.op ≠ 5) ∧
    (∃ (s p u : State) (fr : Frame) (rest : List Frame) (b pay : Bytes) (h : FtHdr) (path : Nat) (marked sum : Bool), (s.power.running = true ∧
      ftOn s = true ∧ s.net.ftIn = fr :: rest) ∧ ftIncoming s fr = (b, marked, sum) ∧ h = { ftHeader b with ce := marked } ∧ pay = ftPayload b ∧
      path = (if 32 ≤ fr.mac then 64 + (fr.mac - 32) else h.path) ∧ p = { s with net := { s.net with ftIn := rest } } ∧
      u = (if marked then p.count .ftCe 0 0 1 else p) ∧ (sum = true ∧ ftBad s b = false ∧
      (ftTargets s (ftHeader b)).find? (fun e => memWaits s e.1 e.2) = none ∧ Int.natAbs ((s.now : Int) - h.time) ≤ ftMaxAge s * 1000) ∧
      ∃ (i : Nat) (m : FtMsg), ftMine u h = some (i, m) ∧ h.op = 6 ∧ m.op = 5 ∧ aopFetch m.aop = false) ∧
    (∃ (s p u : State) (fr : Frame) (rest : List Frame) (b pay : Bytes) (h : FtHdr) (path : Nat) (marked sum : Bool), (s.power.running = true ∧
      ftOn s = true ∧ s.net.ftIn = fr :: rest) ∧ ftIncoming s fr = (b, marked, sum) ∧ h = { ftHeader b with ce := marked } ∧ pay = ftPayload b ∧
      path = (if 32 ≤ fr.mac then 64 + (fr.mac - 32) else h.path) ∧ p = { s with net := { s.net with ftIn := rest } } ∧
      u = (if marked then p.count .ftCe 0 0 1 else p) ∧ (sum = true ∧ ftBad s b = false ∧
      (ftTargets s (ftHeader b)).find? (fun e => memWaits s e.1 e.2) = none ∧ Int.natAbs ((s.now : Int) - h.time) ≤ ftMaxAge s * 1000) ∧
      ∃ (i : Nat) (m : FtMsg), ftMine u h = some (i, m) ∧ ∃ (w : State), (h.op = 6 ∧ m.op = 5 ∧ aopFetch m.aop = true) ∧
      writeMem u m.laddr (leBytes 8 (leNat pay)) = (w, none)) ∧
    (∃ (s p u : State) (fr : Frame) (rest : List Frame) (b pay : Bytes) (h : FtHdr) (path : Nat) (marked sum : Bool), (s.power.running = true ∧
      ftOn s = true ∧ s.net.ftIn = fr :: rest) ∧ ftIncoming s fr = (b, marked, sum) ∧ h = { ftHeader b with ce := marked } ∧ pay = ftPayload b ∧
      path = (if 32 ≤ fr.mac then 64 + (fr.mac - 32) else h.path) ∧ p = { s with net := { s.net with ftIn := rest } } ∧
      u = (if marked then p.count .ftCe 0 0 1 else p) ∧ (sum = true ∧ ftBad s b = false ∧
      (ftTargets s (ftHeader b)).find? (fun e => memWaits s e.1 e.2) = none ∧ Int.natAbs ((s.now : Int) - h.time) ≤ ftMaxAge s * 1000) ∧
      ∃ (i : Nat) (m : FtMsg), ftMine u h = some (i, m) ∧ ∃ (w : State) (r : Nat), (h.op = 6 ∧ m.op = 5 ∧ aopFetch m.aop = true) ∧
      writeMem u m.laddr (leBytes 8 (leNat pay)) = (w, some r)) ∧
    (∃ (s p u : State) (fr : Frame) (rest : List Frame) (b pay : Bytes) (h : FtHdr) (path : Nat) (marked sum : Bool), (s.power.running = true ∧
      ftOn s = true ∧ s.net.ftIn = fr :: rest) ∧ ftIncoming s fr = (b, marked, sum) ∧ h = { ftHeader b with ce := marked } ∧ pay = ftPayload b ∧
      path = (if 32 ≤ fr.mac then 64 + (fr.mac - 32) else h.path) ∧ p = { s with net := { s.net with ftIn := rest } } ∧
      u = (if marked then p.count .ftCe 0 0 1 else p) ∧ (sum = true ∧ ftBad s b = false ∧
      (ftTargets s (ftHeader b)).find? (fun e => memWaits s e.1 e.2) = none ∧ Int.natAbs ((s.now : Int) - h.time) ≤ ftMaxAge s * 1000) ∧
      ∃ (i : Nat) (m : FtMsg), ftMine u h = some (i, m) ∧ h.op = 7 ∧ m.op = 2) ∧
    (∃ (s p u : State) (fr : Frame) (rest : List Frame) (b pay : Bytes) (h : FtHdr) (path : Nat) (marked sum : Bool), (s.power.running = true ∧
      ftOn s = true ∧ s.net.ftIn = fr :: rest) ∧ ftIncoming s fr = (b, marked, sum) ∧ h = { ftHeader b with ce := marked } ∧ pay = ftPayload b ∧
      path = (if 32 ≤ fr.mac then 64 + (fr.mac - 32) else h.path) ∧ p = { s with net := { s.net with ftIn := rest } } ∧
      u = (if marked then p.count .ftCe 0 0 1 else p) ∧ (sum = true ∧ ftBad s b = false ∧
      (ftTargets s (ftHeader b)).find? (fun e => memWaits s e.1 e.2) = none ∧ Int.natAbs ((s.now : Int) - h.time) ≤ ftMaxAge s * 1000) ∧
      ∃ (i : Nat) (m : FtMsg), ftMine u h = some (i, m) ∧ h.op = 7 ∧ m.op = 5) ∧
    (∃ (s p u : State) (fr : Frame) (rest : List Frame) (b pay : Bytes) (h : FtHdr) (path : Nat) (marked sum : Bool), (s.power.running = true ∧
      ftOn s = true ∧ s.net.ftIn = fr :: rest) ∧ ftIncoming s fr = (b, marked, sum) ∧ h = { ftHeader b with ce := marked } ∧ pay = ftPayload b ∧
      path = (if 32 ≤ fr.mac then 64 + (fr.mac - 32) else h.path) ∧ p = { s with net := { s.net with ftIn := rest } } ∧
      u = (if marked then p.count .ftCe 0 0 1 else p) ∧ (sum = true ∧ ftBad s b = false ∧
      (ftTargets s (ftHeader b)).find? (fun e => memWaits s e.1 e.2) = none ∧ Int.natAbs ((s.now : Int) - h.time) ≤ ftMaxAge s * 1000) ∧
      ∃ (i : Nat) (m : FtMsg), ftMine u h = some (i, m) ∧ ∃ (w : State), (h.op = 7 ∧ m.op ≠ 2 ∧ m.op ≠ 5) ∧ w = ftCuts m (h.mlen % 256) u ∧
      bit h.mlen 8 = true) ∧
    (∃ (s p u : State) (fr : Frame) (rest : List Frame) (b pay : Bytes) (h : FtHdr) (path : Nat) (marked sum : Bool), (s.power.running = true ∧
      ftOn s = true ∧ s.net.ftIn = fr :: rest) ∧ ftIncoming s fr = (b, marked, sum) ∧ h = { ftHeader b with ce := marked } ∧ pay = ftPayload b ∧
      path = (if 32 ≤ fr.mac then 64 + (fr.mac - 32) else h.path) ∧ p = { s with net := { s.net with ftIn := rest } } ∧
      u = (if marked then p.count .ftCe 0 0 1 else p) ∧ (sum = true ∧ ftBad s b = false ∧
      (ftTargets s (ftHeader b)).find? (fun e => memWaits s e.1 e.2) = none ∧ Int.natAbs ((s.now : Int) - h.time) ≤ ftMaxAge s * 1000) ∧
      ∃ (i : Nat) (m : FtMsg), ftMine u h = some (i, m) ∧ ∃ (w : State), (h.op = 7 ∧ m.op ≠ 2 ∧ m.op ≠ 5) ∧ w = ftCuts m (h.mlen % 256) u ∧
      bit h.mlen 8 = false) ∧
    (∃ (s p u : State) (fr : Frame) (rest : List Frame) (b pay : Bytes) (h : FtHdr) (path : Nat) (marked sum : Bool), (s.power.running = true ∧
      ftOn s = true ∧ s.net.ftIn = fr :: rest) ∧ ftIncoming s fr = (b, marked, sum) ∧ h = { ftHeader b with ce := marked } ∧ pay = ftPayload b ∧
      path = (if 32 ≤ fr.mac then 64 + (fr.mac - 32) else h.path) ∧ p = { s with net := { s.net with ftIn := rest } } ∧
      u = (if marked then p.count .ftCe 0 0 1 else p) ∧ (sum = true ∧ ftBad s b = false ∧
      (ftTargets s (ftHeader b)).find? (fun e => memWaits s e.1 e.2) = none ∧ Int.natAbs ((s.now : Int) - h.time) ≤ ftMaxAge s * 1000) ∧
      ∃ (i : Nat) (m : FtMsg), ftMine u h = some (i, m) ∧ ∃ (q : FtPkt), h.op = 8 ∧ h.mlen = 3 ∧ m.pkt h.pidx = some q) ∧
    (∃ (s p u : State) (fr : Frame) (rest : List Frame) (b pay : Bytes) (h : FtHdr) (path : Nat) (marked sum : Bool), (s.power.running = true ∧
      ftOn s = true ∧ s.net.ftIn = fr :: rest) ∧ ftIncoming s fr = (b, marked, sum) ∧ h = { ftHeader b with ce := marked } ∧ pay = ftPayload b ∧
      path = (if 32 ≤ fr.mac then 64 + (fr.mac - 32) else h.path) ∧ p = { s with net := { s.net with ftIn := rest } } ∧
      u = (if marked then p.count .ftCe 0 0 1 else p) ∧ (sum = true ∧ ftBad s b = false ∧
      (ftTargets s (ftHeader b)).find? (fun e => memWaits s e.1 e.2) = none ∧ Int.natAbs ((s.now : Int) - h.time) ≤ ftMaxAge s * 1000) ∧
      ∃ (i : Nat) (m : FtMsg), ftMine u h = some (i, m) ∧ h.op = 8 ∧ h.mlen = 3 ∧ m.pkt h.pidx = none) ∧
    (∃ (s p u : State) (fr : Frame) (rest : List Frame) (b pay : Bytes) (h : FtHdr) (path : Nat) (marked sum : Bool), (s.power.running = true ∧
      ftOn s = true ∧ s.net.ftIn = fr :: rest) ∧ ftIncoming s fr = (b, marked, sum) ∧ h = { ftHeader b with ce := marked } ∧ pay = ftPayload b ∧
      path = (if 32 ≤ fr.mac then 64 + (fr.mac - 32) else h.path) ∧ p = { s with net := { s.net with ftIn := rest } } ∧
      u = (if marked then p.count .ftCe 0 0 1 else p) ∧ (sum = true ∧ ftBad s b = false ∧
      (ftTargets s (ftHeader b)).find? (fun e => memWaits s e.1 e.2) = none ∧ Int.natAbs ((s.now : Int) - h.time) ≤ ftMaxAge s * 1000) ∧
      ∃ (i : Nat) (m : FtMsg), ftMine u h = some (i, m) ∧ h.op = 8 ∧ ∃ (st : Nat), ((h.mlen,
      st) ∈ [(1, 0x0501), (2, 0x0503), (4, 0x0401), (5, 0x0103), (6, 0x0602)])) ∧
    (∃ (s p u : State) (fr : Frame) (rest : List Frame) (b pay : Bytes) (h : FtHdr) (path : Nat) (marked sum : Bool), (s.power.running = true ∧
      ftOn s = true ∧ s.net.ftIn = fr :: rest) ∧ ftIncoming s fr = (b, marked, sum) ∧ h = { ftHeader b with ce := marked } ∧ pay = ftPayload b ∧
      path = (if 32 ≤ fr.mac then 64 + (fr.mac - 32) else h.path) ∧ p = { s with net := { s.net with ftIn := rest } } ∧
      u = (if marked then p.count .ftCe 0 0 1 else p) ∧ sum = true ∧ ftBad s b = false ∧
      (ftTargets s (ftHeader b)).find? (fun e => memWaits s e.1 e.2) = none ∧ Int.natAbs ((s.now : Int) - h.time) ≤ ftMaxAge s * 1000 ∧ h.op = 9 ∧
      ftFind u h.src h.msg = none) ∧
    (∃ (s p u : State) (fr : Frame) (rest : List Frame) (b pay : Bytes) (h : FtHdr) (path : Nat) (marked sum : Bool), (s.power.running = true ∧
      ftOn s = true ∧ s.net.ftIn = fr :: rest) ∧ ftIncoming s fr = (b, marked, sum) ∧ h = { ftHeader b with ce := marked } ∧ pay = ftPayload b ∧
      path = (if 32 ≤ fr.mac then 64 + (fr.mac - 32) else h.path) ∧ p = { s with net := { s.net with ftIn := rest } } ∧
      u = (if marked then p.count .ftCe 0 0 1 else p) ∧ (sum = true ∧ ftBad s b = false ∧
      (ftTargets s (ftHeader b)).find? (fun e => memWaits s e.1 e.2) = none ∧ Int.natAbs ((s.now : Int) - h.time) ≤ ftMaxAge s * 1000) ∧
      ∃ (e : FtRx), h.op = 9 ∧ ftFind u h.src h.msg = some e ∧ e.st = .active ∧ bit h.mlen 0 = true) ∧
    (∃ (s p u : State) (fr : Frame) (rest : List Frame) (b pay : Bytes) (h : FtHdr) (path : Nat) (marked sum : Bool), (s.power.running = true ∧
      ftOn s = true ∧ s.net.ftIn = fr :: rest) ∧ ftIncoming s fr = (b, marked, sum) ∧ h = { ftHeader b with ce := marked } ∧ pay = ftPayload b ∧
      path = (if 32 ≤ fr.mac then 64 + (fr.mac - 32) else h.path) ∧ p = { s with net := { s.net with ftIn := rest } } ∧
      u = (if marked then p.count .ftCe 0 0 1 else p) ∧ (sum = true ∧ ftBad s b = false ∧
      (ftTargets s (ftHeader b)).find? (fun e => memWaits s e.1 e.2) = none ∧ Int.natAbs ((s.now : Int) - h.time) ≤ ftMaxAge s * 1000) ∧
      ∃ (e : FtRx), h.op = 9 ∧ ftFind u h.src h.msg = some e ∧ e.st = .active ∧ bit h.mlen 0 = false) ∧
    (∃ (s p u : State) (fr : Frame) (rest : List Frame) (b pay : Bytes) (h : FtHdr) (path : Nat) (marked sum : Bool), (s.power.running = true ∧
      ftOn s = true ∧ s.net.ftIn = fr :: rest) ∧ ftIncoming s fr = (b, marked, sum) ∧ h = { ftHeader b with ce := marked } ∧ pay = ftPayload b ∧
      path = (if 32 ≤ fr.mac then 64 + (fr.mac - 32) else h.path) ∧ p = { s with net := { s.net with ftIn := rest } } ∧
      u = (if marked then p.count .ftCe 0 0 1 else p) ∧ (sum = true ∧ ftBad s b = false ∧
      (ftTargets s (ftHeader b)).find? (fun e => memWaits s e.1 e.2) = none ∧ Int.natAbs ((s.now : Int) - h.time) ≤ ftMaxAge s * 1000) ∧
      ∃ (e : FtRx), h.op = 9 ∧ ftFind u h.src h.msg = some e ∧ e.st = .done) ∧
    (∃ (s p u : State) (fr : Frame) (rest : List Frame) (b pay : Bytes) (h : FtHdr) (path : Nat) (marked sum : Bool), (s.power.running = true ∧
      ftOn s = true ∧ s.net.ftIn = fr :: rest) ∧ ftIncoming s fr = (b, marked, sum) ∧ h = { ftHeader b with ce := marked } ∧ pay = ftPayload b ∧
      path = (if 32 ≤ fr.mac then 64 + (fr.mac - 32) else h.path) ∧ p = { s with net := { s.net with ftIn := rest } } ∧
      u = (if marked then p.count .ftCe 0 0 1 else p) ∧ (sum = true ∧ ftBad s b = false ∧
      (ftTargets s (ftHeader b)).find? (fun e => memWaits s e.1 e.2) = none ∧ Int.natAbs ((s.now : Int) - h.time) ≤ ftMaxAge s * 1000) ∧
      ∃ (e : FtRx), h.op = 9 ∧ ftFind u h.src h.msg = some e ∧ e.st = .aborted) ∧
    (∃ (s : State) (src msg : Nat) (e : FtRx), (s.power.running = true ∧ ftFind s src msg = some e) ∧ ∃ (t : Nat), e.ackDue = some t ∧ 0 < e.count ∧
      t ≤ s.tb.ticks) ∧
    (∃ (s : State) (src msg : Nat) (e : FtRx), (s.power.running = true ∧ ftFind s src msg = some e) ∧ ∃ (t : Nat), e.ackDue = some t ∧
      s.tb.ticks < t) ∧
    (∃ (s : State) (src msg : Nat) (e : FtRx), s.power.running = true ∧ ftFind s src msg = some e ∧ e.st = .active ∧ e.last + 50000000 ≤ s.tb.ticks) ∧
    (∃ (s : State) (src msg : Nat) (e : FtRx), s.power.running = true ∧ ftFind s src msg = some e ∧ s.tb.ticks < e.last + 50000000) ∧
    (∃ (s : State) (src msg : Nat) (e : FtRx), (s.power.running = true ∧ ftFind s src msg = some e) ∧ (e.st = .done ∨ e.st = .aborted) ∧
      e.since + 51000000 + ftMaxAge s * 1000 ≤ s.tb.ticks) ∧
    (∃ (s : State) (src msg : Nat) (e : FtRx), (s.power.running = true ∧ ftFind s src msg = some e) ∧ ∃ (t : Nat), e.st = .done ∧ e.close = some t ∧
      t ≤ s.now) ∧
    (∃ (s : State) (src msg : Nat) (e : FtRx), (s.power.running = true ∧ ftFind s src msg = some e) ∧ ∃ (t : Nat), e.close = some t ∧ s.now < t) :=
  ⟨⟨{ State.reset.setReg .ftCtrl 0 0 1 with net := { State.reset.net with ftIn := [{ frameOf (hdrOf 1 0 1 4096) [7] with bytes := zeros 52 }] } }, _,
    _, { frameOf (hdrOf 1 0 1 4096) [7] with bytes := zeros 52 }, [], _, _, _, _, false, true, by decide +kernel, brIs (by decide +kernel), rfl, rfl,
    rfl, rfl, rfl, .ftRxRead, 2, by decide +kernel, .inr (by decide +kernel)⟩,
  ⟨recv (hdrOf 1 0 1 4096) ([7]) ({}), _, _, frameOf (hdrOf 1 0 1 4096) ([7]), [], _, _, _, _, false, true, by decide +kernel,
    brIs (by decide +kernel), rfl, rfl, rfl, rfl, rfl, .ftRxRead, 2, by decide +kernel⟩,
  ⟨{ recv (hdrOf 1 0 1 4096) ([7]) ({}) with own := { State.reset.own with fills := [(0, 16)] } }, _, _, frameOf (hdrOf 1 0 1 4096) ([7]), [], _, _,
    _, _, false, true, by decide +kernel, brIs (by decide +kernel), rfl, rfl, rfl, rfl, rfl, .ftRxWrite, 1, by decide +kernel, 0x1000, 1,
    by decide +kernel⟩,
  ⟨recv ({ hdrOf 1 0 1 4096 with time := 1000000000 }) ([7]) ({}), _, _, frameOf ({ hdrOf 1 0 1 4096 with time := 1000000000 }) ([7]), [], _, _, _,
    _, false, true, by decide +kernel, brIs (by decide +kernel), rfl, rfl, rfl, rfl, rfl, .ftRxWrite, 1, by decide +kernel⟩,
  ⟨recv (hdrOf 1 0 1 4096) ([7]) ({ rx := List.replicate 65536 { src := 2, msg := 0x10005, tenant := 15, op := 1, region := none, addr := 0x1000, len := 1, mtu := 10, cls := 7, path := 0, last := 0, since := 0 } }),
    _, _, frameOf (hdrOf 1 0 1 4096) ([7]), [], _, _, _, _, false, true, by decide +kernel, brIs (by decide +kernel), rfl, rfl, rfl, rfl, rfl,
    by decide +kernel, .ftRxWrite, 1, by decide +kernel, find_replicate (by decide +kernel) _, Nat.le_of_eq (List.length_replicate ..).symm⟩,
  ⟨recv (hdrOf 1 0 1 4096) ([7]) ({ rx := [{ src := 1, msg := 0x10005, tenant := 15, op := 1, region := none, addr := 0x1000, len := 1, mtu := 10, cls := 7, path := 0, last := 0, since := 0, st := .aborted }] }),
    _, _, frameOf (hdrOf 1 0 1 4096) ([7]), [], _, _, _, _, false, true, by decide +kernel, brIs (by decide +kernel), rfl, rfl, rfl, rfl, rfl,
    by decide +kernel, .ftRxWrite, 1, by decide +kernel,
    { src := 1, msg := 0x10005, tenant := 15, op := 1, region := none, addr := 0x1000, len := 1, mtu := 10, cls := 7, path := 0, last := 0, since := 0, st := .aborted },
    by decide +kernel⟩,
  ⟨recv (hdrOf 4 0 1 4096) ([7]) ({ rx := [{ src := 1, msg := 0x10005, tenant := 15, op := 4, region := none, addr := 0x1000, len := 1, mtu := 10, cls := 7, path := 0, last := 0, since := 0, st := .done }] }),
    _, _, frameOf (hdrOf 4 0 1 4096) ([7]), [], _, _, _, _, false, true, by decide +kernel, brIs (by decide +kernel), rfl, rfl, rfl, rfl, rfl,
    by decide +kernel, .ftRxSend, 4, by decide +kernel,
    { src := 1, msg := 0x10005, tenant := 15, op := 4, region := none, addr := 0x1000, len := 1, mtu := 10, cls := 7, path := 0, last := 0, since := 0, st := .done },
    by decide +kernel⟩,
  ⟨recv (hdrOf 4 0 1 4096) ([7]) ({ rx := [{ src := 1, msg := 0x10005, tenant := 15, op := 4, region := none, addr := 0x1000, len := 1, mtu := 10, cls := 7, path := 0, last := 0, since := 0, st := .done, resp := some (0, 7) }] }),
    _, _, frameOf (hdrOf 4 0 1 4096) ([7]), [], _, _, _, _, false, true, by decide +kernel, brIs (by decide +kernel), rfl, rfl, rfl, rfl, rfl,
    by decide +kernel, .ftRxSend, 4, by decide +kernel,
    { src := 1, msg := 0x10005, tenant := 15, op := 4, region := none, addr := 0x1000, len := 1, mtu := 10, cls := 7, path := 0, last := 0, since := 0, st := .done, resp := some (0, 7) },
    0, 7, by decide +kernel⟩,
  ⟨recv (hdrOf 1 0 1 4096) ([7]) ({ rx := [{ src := 1, msg := 0x10005, tenant := 15, op := 1, region := none, addr := 0x1000, len := 2, mtu := 10, cls := 7, path := 0, last := 0, since := 0 }] }),
    _, _, frameOf (hdrOf 1 0 1 4096) ([7]), [], _, _, _, _, false, true, by decide +kernel, brIs (by decide +kernel), rfl, rfl, rfl, rfl, rfl,
    by decide +kernel, .ftRxWrite, 1, by decide +kernel,
    { src := 1, msg := 0x10005, tenant := 15, op := 1, region := none, addr := 0x1000, len := 2, mtu := 10, cls := 7, path := 0, last := 0, since := 0 },
    _, _, .inl ⟨by decide +kernel, by decide +kernel, rfl⟩, rfl, by decide +kernel⟩,
  ⟨recv (hdrOf 1 127 130049 4096) ([7]) ({ rx := [{ src := 1, msg := 0x10005, tenant := 15, op := 1, region := none, addr := 0x1000, len := 130049, mtu := 10, cls := 7, path := 0, last := 0, since := 0, held := [127] }] }),
    _, _, frameOf (hdrOf 1 127 130049 4096) ([7]), [], _, _, _, _, false, true, by decide +kernel, brIs (by decide +kernel), rfl, rfl, rfl, rfl, rfl,
    by decide +kernel, .ftRxWrite, 1, by decide +kernel,
    { src := 1, msg := 0x10005, tenant := 15, op := 1, region := none, addr := 0x1000, len := 130049, mtu := 10, cls := 7, path := 0, last := 0, since := 0, held := [127] },
    _, _, .inl ⟨by decide +kernel, by decide +kernel, rfl⟩, rfl, by decide +kernel⟩,
  ⟨recv (hdrOf 1 1 1025 4096) ([7]) ({ rx := [{ src := 1, msg := 0x10005, tenant := 15, op := 1, region := none, addr := 0x1000, len := 1025, mtu := 10, cls := 7, path := 0, last := 0, since := 0 }] }),
    _, _, frameOf (hdrOf 1 1 1025 4096) ([7]), [], _, _, _, _, false, true, by decide +kernel, brIs (by decide +kernel), rfl, rfl, rfl, rfl, rfl,
    by decide +kernel, .ftRxWrite, 1, by decide +kernel,
    { src := 1, msg := 0x10005, tenant := 15, op := 1, region := none, addr := 0x1000, len := 1025, mtu := 10, cls := 7, path := 0, last := 0, since := 0 },
    _, _, .inl ⟨by decide +kernel, by decide +kernel, rfl⟩, rfl, by decide +kernel, _, _, by decide +kernel, rfl, by decide +kernel,
    wrOk (by decide +kernel)⟩,
  ⟨recv (hdrOf 4 1 1025 15) ([7]) ({ rx := [{ src := 1, msg := 0x10005, tenant := 15, op := 4, region := none, addr := 0x1000, len := 1025, mtu := 10, cls := 7, path := 0, last := 0, since := 0 }] }),
    _, _, frameOf (hdrOf 4 1 1025 15) ([7]), [], _, _, _, _, false, true, by decide +kernel, brIs (by decide +kernel), rfl, rfl, rfl, rfl, rfl,
    by decide +kernel, .ftRxSend, 4, by decide +kernel,
    { src := 1, msg := 0x10005, tenant := 15, op := 4, region := none, addr := 0x1000, len := 1025, mtu := 10, cls := 7, path := 0, last := 0, since := 0 },
    _, _, .inl ⟨by decide +kernel, by decide +kernel, rfl⟩, rfl, by decide +kernel, _, _, by decide +kernel, rfl, by decide +kernel,
    wrOk (by decide +kernel)⟩,
  ⟨{ recv (hdrOf 1 1 1025 4096) ([7]) ({ rx := [{ src := 1, msg := 0x10005, tenant := 15, op := 1, region := none, addr := 0x1000, len := 1025, mtu := 10, cls := 7, path := 0, last := 0, since := 0 }] }) with bad := [(160, 2)] },
    _, _, frameOf (hdrOf 1 1 1025 4096) ([7]), [], _, _, _, _, false, true, by decide +kernel, brIs (by decide +kernel), rfl, rfl, rfl, rfl, rfl,
    by decide +kernel, .ftRxWrite, 1, by decide +kernel,
    { src := 1, msg := 0x10005, tenant := 15, op := 1, region := none, addr := 0x1000, len := 1025, mtu := 10, cls := 7, path := 0, last := 0, since := 0 },
    _, _, .inl ⟨by decide +kernel, by decide +kernel, rfl⟩, rfl, by decide +kernel, _, _, 5120, by decide +kernel, rfl, by decide +kernel,
    brIs (by decide +kernel)⟩,
  ⟨{ recv (hdrOf 5 0 4 4096) ((leBytes 1 4 ++ zeros 7 ++ leBytes 8 0x3F800000 ++ zeros 8)) ({ rx := [{ src := 1, msg := 0x10005, tenant := 15, op := 5, region := none, addr := 0x1000, len := 4, mtu := 10, cls := 7, path := 0, last := 0, since := 0 }] }) with bad := [(128, 2)] },
    _, _, frameOf (hdrOf 5 0 4 4096) ((leBytes 1 4 ++ zeros 7 ++ leBytes 8 0x3F800000 ++ zeros 8)), [], _, _, _, _, false, true, by decide +kernel,
    brIs (by decide +kernel), rfl, rfl, rfl, rfl, rfl, by decide +kernel, .ftRxAtomic, 5, by decide +kernel,
    { src := 1, msg := 0x10005, tenant := 15, op := 5, region := none, addr := 0x1000, len := 4, mtu := 10, cls := 7, path := 0, last := 0, since := 0 },
    _, _, .inl ⟨by decide +kernel, by decide +kernel, rfl⟩, rfl, by decide +kernel, _, _, 4096, by decide +kernel, rfl, by decide +kernel,
    errIs (by decide +kernel)⟩,
  ⟨recv (hdrOf 5 0 4 4096) ((leBytes 1 4 ++ zeros 7 ++ leBytes 8 0x3F800000 ++ zeros 8)) ({ rx := [{ src := 1, msg := 0x10005, tenant := 15, op := 5, region := none, addr := 0x1000, len := 4, mtu := 10, cls := 7, path := 0, last := 0, since := 0 }] }),
    _, _, frameOf (hdrOf 5 0 4 4096) ((leBytes 1 4 ++ zeros 7 ++ leBytes 8 0x3F800000 ++ zeros 8)), [], _, _, _, _, false, true, by decide +kernel,
    brIs (by decide +kernel), rfl, rfl, rfl, rfl, rfl, by decide +kernel, .ftRxAtomic, 5, by decide +kernel,
    { src := 1, msg := 0x10005, tenant := 15, op := 5, region := none, addr := 0x1000, len := 4, mtu := 10, cls := 7, path := 0, last := 0, since := 0 },
    _, _, .inl ⟨by decide +kernel, by decide +kernel, rfl⟩, rfl, by decide +kernel, _, _, zeros 4, _, by decide +kernel, rfl, by decide +kernel,
    okIs (by decide +kernel), wrOk (by decide +kernel)⟩,
  ⟨recv (hdrOf 10 0 4 17407) ([1, 0, 0, 0]) ({ rx := [{ src := 1, msg := 0x10005, tenant := 15, op := 10, region := none, addr := 0x1000, len := 4, mtu := 10, cls := 7, path := 0, last := 0, since := 0 }] }),
    _, _, frameOf (hdrOf 10 0 4 17407) ([1, 0, 0, 0]), [], _, _, _, _, false, true, by decide +kernel, brIs (by decide +kernel), rfl, rfl, rfl, rfl,
    rfl, by decide +kernel, .ftRxSignal, 10, by decide +kernel,
    { src := 1, msg := 0x10005, tenant := 15, op := 10, region := none, addr := 0x1000, len := 4, mtu := 10, cls := 7, path := 0, last := 0, since := 0 },
    _, _, .inl ⟨by decide +kernel, by decide +kernel, rfl⟩, rfl, by decide +kernel, _, by decide +kernel, rfl, by decide +kernel⟩,
  ⟨recv (hdrOf 1 0 1 4096) ([7]) ({}), _, _, frameOf (hdrOf 1 0 1 4096) ([7]), [], _, _, _, _, false, true, by decide +kernel,
    brIs (by decide +kernel), rfl, rfl, rfl, rfl, rfl, by decide +kernel, 2, by decide +kernel, by rfl⟩,
  ⟨{ recv ({ hdrOf 1 0 1 4096 with gen := 0, key := 0 }) ([7]) ({}) with own := { State.reset.own with regions := [(0, { base := 0x1000, bytes := 0x1000, rights := 0x7F, st := 1, tenant := 15, world := true })] } },
    _, _, frameOf ({ hdrOf 1 0 1 4096 with gen := 0, key := 0 }) ([7]), [], _, _, _, _, false, true, by decide +kernel, brIs (by decide +kernel),
    rfl, rfl, rfl, rfl, rfl, by decide +kernel, 0, by rfl⟩,
  ⟨recv (hdrOf 4 0 1 15) ([7]) ({}), _, _, frameOf (hdrOf 4 0 1 15) ([7]), [], _, _, _, _, false, true, by decide +kernel, brIs (by decide +kernel),
    rfl, rfl, rfl, rfl, rfl, by decide +kernel⟩,
  ⟨recv (hdrOf 4 0 1 16) ([7]) ({}), _, _, frameOf (hdrOf 4 0 1 16) ([7]), [], _, _, _, _, false, true, by decide +kernel, brIs (by decide +kernel),
    rfl, rfl, rfl, rfl, rfl, by decide +kernel⟩,
  ⟨recv (hdrOf 4 0 1 15) ([7]) ({ rqs := [(255, some { log2 := 4, slot := 8, src := 2, sync := 0, base := 0x1000, cq := 0x2000, done := 0x3000, next := 0 })] }),
    _, _, frameOf (hdrOf 4 0 1 15) ([7]), [], _, _, _, _, false, true, by decide +kernel, brIs (by decide +kernel), rfl, rfl, rfl, rfl, rfl,
    by decide +kernel, { log2 := 4, slot := 8, src := 2, sync := 0, base := 0x1000, cq := 0x2000, done := 0x3000, next := 0 }, by decide +kernel⟩,
  ⟨recv (hdrOf 4 0 257 15) ([7]) ({ rqs := [(255, some { log2 := 4, slot := 8, src := 1, sync := 0, base := 0x1000, cq := 0x2000, done := 0x3000, next := 0 })] }),
    _, _, frameOf (hdrOf 4 0 257 15) ([7]), [], _, _, _, _, false, true, by decide +kernel, brIs (by decide +kernel), rfl, rfl, rfl, rfl, rfl,
    by decide +kernel, { log2 := 4, slot := 8, src := 1, sync := 0, base := 0x1000, cq := 0x2000, done := 0x3000, next := 0 }, by decide +kernel⟩,
  ⟨recv (hdrOf 4 0 1 15) ([7]) ({ rqs := [(255, some { log2 := 4, slot := 8, src := 1, sync := 0, base := 0x1000, cq := 0x2000, done := 0x3000, next := 16, seen := some 1 })] }),
    _, _, frameOf (hdrOf 4 0 1 15) ([7]), [], _, _, _, _, false, true, by decide +kernel, brIs (by decide +kernel), rfl, rfl, rfl, rfl, rfl,
    by decide +kernel, { log2 := 4, slot := 8, src := 1, sync := 0, base := 0x1000, cq := 0x2000, done := 0x3000, next := 16, seen := some 1 },
    by decide +kernel, _, 1, rfl, by decide +kernel⟩,
  ⟨{ recv (hdrOf 4 0 1 15) ([7]) ({ rqs := [(255, some { log2 := 4, slot := 8, src := 1, sync := 0, base := 0x1000, cq := 0x2000, done := 0x3000, next := 16, seen := some 1 })] }) with own := { State.reset.own with regions := [(0, { base := 0x1000, bytes := 0x4000, rights := 0x7F, st := 1, tenant := 15, world := true })] } },
    _, _, frameOf (hdrOf 4 0 1 15) ([7]), [], _, _, _, _, false, true, by decide +kernel, brIs (by decide +kernel), rfl, rfl, rfl, rfl, rfl,
    by decide +kernel, { log2 := 4, slot := 8, src := 1, sync := 0, base := 0x1000, cq := 0x2000, done := 0x3000, next := 16, seen := some 1 },
    by decide +kernel, _, 1, rfl, by decide +kernel⟩,
  ⟨recv (hdrOf 4 0 1 15) ([7]) ({ rqs := [(255, some { log2 := 4, slot := 8, src := 1, sync := 0, base := 0x1000, cq := 0x2000, done := 0x3000, next := 16, seen := none })] }),
    _, _, frameOf (hdrOf 4 0 1 15) ([7]), [], _, _, _, _, false, true, by decide +kernel, brIs (by decide +kernel), rfl, rfl, rfl, rfl, rfl,
    by decide +kernel, { log2 := 4, slot := 8, src := 1, sync := 0, base := 0x1000, cq := 0x2000, done := 0x3000, next := 16, seen := none },
    by decide +kernel, .inl rfl, by decide +kernel⟩,
  ⟨{ recv (hdrOf 4 0 1 15) ([7]) ({ rqs := [(255, some { log2 := 4, slot := 8, src := 1, sync := 0, base := 0x1000, cq := 0x2000, done := 0x3000, next := 16, seen := none })] }) with own := { State.reset.own with regions := [(0, { base := 0x1000, bytes := 0x4000, rights := 0x7F, st := 1, tenant := 15, world := true })] }, bad := [(384, 2)] },
    _, _, frameOf (hdrOf 4 0 1 15) ([7]), [], _, _, _, _, false, true, by decide +kernel, brIs (by decide +kernel), rfl, rfl, rfl, rfl, rfl,
    by decide +kernel, { log2 := 4, slot := 8, src := 1, sync := 0, base := 0x1000, cq := 0x2000, done := 0x3000, next := 16, seen := none },
    by decide +kernel, .inl rfl, by decide +kernel, _, 12288, by decide +kernel, errIs (by decide +kernel)⟩,
  ⟨{ recv (hdrOf 4 0 1 15) ([7]) ({ rqs := [(255, some { log2 := 4, slot := 8, src := 1, sync := 0, base := 0x1000, cq := 0x2000, done := 0x3000, next := 16, seen := none })] }) with own := { State.reset.own with regions := [(0, { base := 0x1000, bytes := 0x4000, rights := 0x7F, st := 1, tenant := 15, world := true })] } },
    _, _, frameOf (hdrOf 4 0 1 15) ([7]), [], _, _, _, _, false, true, by decide +kernel, brIs (by decide +kernel), rfl, rfl, rfl, rfl, rfl,
    by decide +kernel, { log2 := 4, slot := 8, src := 1, sync := 0, base := 0x1000, cq := 0x2000, done := 0x3000, next := 16, seen := none },
    by decide +kernel, .inl rfl, by decide +kernel, _, zeros 8, by decide +kernel, okIs (by decide +kernel), by decide +kernel⟩,
  ⟨{ recv (hdrOf 4 0 1 15) ([7]) ({ rqs := [(255, some { log2 := 4, slot := 8, src := 1, sync := 0, base := 0x1000, cq := 0x2000, done := 0x3000, next := 15, seen := none })] }) with own := { State.reset.own with regions := [(0, { base := 0x1000, bytes := 0x4000, rights := 0x7F, st := 1, tenant := 15, world := true })] } },
    _, _, frameOf (hdrOf 4 0 1 15) ([7]), [], _, _, _, _, false, true, by decide +kernel, brIs (by decide +kernel), rfl, rfl, rfl, rfl, rfl,
    by decide +kernel, { log2 := 4, slot := 8, src := 1, sync := 0, base := 0x1000, cq := 0x2000, done := 0x3000, next := 15, seen := none },
    by decide +kernel, .inl rfl, by decide +kernel, _, zeros 8, _, okIs (by decide +kernel), by decide +kernel, rfl, by decide +kernel⟩,
  ⟨recv (hdrOf 5 0 8 4096) ((leBytes 1 0 ++ zeros 23)) ({}), _, _, frameOf (hdrOf 5 0 8 4096) ((leBytes 1 0 ++ zeros 23)), [], _, _, _, _, false,
    true, by decide +kernel, brIs (by decide +kernel), rfl, rfl, rfl, rfl, rfl, by decide +kernel⟩,
  ⟨recv (hdrOf 5 0 4 4096) ((leBytes 1 4 ++ zeros 7 ++ leBytes 8 0x3F800000 ++ zeros 8)) ({}), _, _,
    frameOf (hdrOf 5 0 4 4096) ((leBytes 1 4 ++ zeros 7 ++ leBytes 8 0x3F800000 ++ zeros 8)), [], _, _, _, _, false, true, by decide +kernel,
    brIs (by decide +kernel), rfl, rfl, rfl, rfl, rfl, by decide +kernel, 2, by decide +kernel, by rfl⟩,
  ⟨{ recv ({ hdrOf 5 0 4 4096 with gen := 0, key := 0 }) ((leBytes 1 4 ++ zeros 7 ++ leBytes 8 0x3F800000 ++ zeros 8)) ({}) with own := { State.reset.own with regions := [(0, { base := 0x1000, bytes := 0x1000, rights := 0x7F, st := 1, tenant := 15, world := true })] } },
    _, _, frameOf ({ hdrOf 5 0 4 4096 with gen := 0, key := 0 }) ((leBytes 1 4 ++ zeros 7 ++ leBytes 8 0x3F800000 ++ zeros 8)), [], _, _, _, _,
    false, true, by decide +kernel, brIs (by decide +kernel), rfl, rfl, rfl, rfl, rfl, by decide +kernel, 0, by rfl⟩,
  ⟨recv (hdrOf 10 0 4 17408) ([1, 0, 0, 0]) ({}), _, _, frameOf (hdrOf 10 0 4 17408) ([1, 0, 0, 0]), [], _, _, _, _, false, true, by decide +kernel,
    brIs (by decide +kernel), rfl, rfl, rfl, rfl, rfl, by decide +kernel, .inl (by decide +kernel)⟩,
  ⟨{ recv (hdrOf 10 0 4 17407) ([1, 0, 0, 0]) ({}) with own := { State.reset.own with ibcs := [(15, 16)] } }, _, _,
    frameOf (hdrOf 10 0 4 17407) ([1, 0, 0, 0]), [], _, _, _, _, false, true, by decide +kernel, brIs (by decide +kernel), rfl, rfl, rfl, rfl, rfl,
    by decide +kernel⟩,
  ⟨recv (hdrOf 2 0 1 4096) ((leBytes 16 1)) ({}), _, _, frameOf (hdrOf 2 0 1 4096) ((leBytes 16 1)), [], _, _, _, _, false, true, by decide +kernel,
    brIs (by decide +kernel), rfl, rfl, rfl, rfl, rfl, by decide +kernel, 2, by decide +kernel, by rfl⟩,
  ⟨{ recv ({ hdrOf 2 0 1 8191 with key := 9 * 8192 + 5, gen := 3 }) (leBytes 16 1) {} with own := { State.reset.own with regions := [(5, { base := 0x1000, bytes := 0x1000, rights := 0x7F, st := 1, tenant := 15, world := true, key := 9 * 8192 + 5, gen := 3 })] } },
    _, _, frameOf ({ hdrOf 2 0 1 8191 with key := 9 * 8192 + 5, gen := 3 }) ((leBytes 16 1)), [], _, _, _, _, false, true, by decide +kernel,
    brIs (by decide +kernel), rfl, rfl, rfl, rfl, rfl, by decide +kernel, 5, by decide +kernel, by rfl⟩,
  ⟨recv (hdrOf 7 0 0 0) (zeros 16) ({}), _, _, frameOf (hdrOf 7 0 0 0) (zeros 16), [], _, _, _, _, false, true, by decide +kernel,
    brIs (by decide +kernel), rfl, rfl, rfl, rfl, rfl, by decide +kernel, .ftRxAck, 7, by decide +kernel⟩,
  ⟨recv (hdrOf 8 0 0 0) ([]) ({ msgs := [(5, some { gen := 1, take := 0, from_ := .ring 255 7, tenant := 15, op := 1, ord := false, cls := 7, dst := 1, raddr := 0, len := 1, mtu := 10, moved := 0, data := some [1] })] }),
    _, _, frameOf (hdrOf 8 0 0 0) ([]), [], _, _, _, _, false, true, by decide +kernel, brIs (by decide +kernel), rfl, rfl, rfl, rfl, rfl,
    by decide +kernel, .inl (by decide +kernel)⟩,
  ⟨recv (hdrOf 8 0 3 0) ([]) ({}), _, _, frameOf (hdrOf 8 0 3 0) ([]), [], _, _, _, _, false, true, by decide +kernel, brIs (by decide +kernel), rfl,
    rfl, rfl, rfl, rfl, by decide +kernel⟩,
  ⟨recv (hdrOf 3 0 1 0) ([7]) ({ msgs := [(5, some { gen := 1, take := 0, from_ := .ring 255 7, tenant := 15, op := 1, ord := false, cls := 7, dst := 1, raddr := 0, len := 1, mtu := 10, moved := 0, laddr := 0x1000 })] }),
    _, _, frameOf (hdrOf 3 0 1 0) ([7]), [], _, _, _, _, false, true, by decide +kernel, brIs (by decide +kernel), rfl, rfl, rfl, rfl, rfl,
    by decide +kernel, 5,
    { gen := 1, take := 0, from_ := .ring 255 7, tenant := 15, op := 1, ord := false, cls := 7, dst := 1, raddr := 0, len := 1, mtu := 10, moved := 0, laddr := 0x1000 },
    by rfl, by decide +kernel, .inl (by decide +kernel)⟩,
  ⟨recv (hdrOf 3 0 2 0) ([7]) ({ msgs := [(5, some { gen := 1, take := 0, from_ := .ring 255 7, tenant := 15, op := 2, ord := false, cls := 7, dst := 1, raddr := 0, len := 1, mtu := 10, moved := 0, laddr := 0x1000 })] }),
    _, _, frameOf (hdrOf 3 0 2 0) ([7]), [], _, _, _, _, false, true, by decide +kernel, brIs (by decide +kernel), rfl, rfl, rfl, rfl, rfl,
    by decide +kernel, 5,
    { gen := 1, take := 0, from_ := .ring 255 7, tenant := 15, op := 2, ord := false, cls := 7, dst := 1, raddr := 0, len := 1, mtu := 10, moved := 0, laddr := 0x1000 },
    by rfl, by decide +kernel, .inr (by decide +kernel)⟩,
  ⟨{ recv (hdrOf 3 0 1 0) ([7]) ({ msgs := [(5, some { gen := 1, take := 0, from_ := .ring 255 7, tenant := 15, op := 2, ord := false, cls := 7, dst := 1, raddr := 0, len := 1, mtu := 10, moved := 0, laddr := 0x1000 })] }) with bad := [(128, 2)] },
    _, _, frameOf (hdrOf 3 0 1 0) ([7]), [], _, _, _, _, false, true, by decide +kernel, brIs (by decide +kernel), rfl, rfl, rfl, rfl, rfl,
    by decide +kernel, 5,
    { gen := 1, take := 0, from_ := .ring 255 7, tenant := 15, op := 2, ord := false, cls := 7, dst := 1, raddr := 0, len := 1, mtu := 10, moved := 0, laddr := 0x1000 },
    by rfl, by decide +kernel, _, _, some 4096, by decide +kernel, .inl ⟨by decide +kernel, brIs (by decide +kernel), rfl⟩, by decide +kernel⟩,
  ⟨recv (hdrOf 3 0 1 0) ([7]) ({ msgs := [(5, some { gen := 1, take := 0, from_ := .ring 255 7, tenant := 15, op := 2, ord := false, cls := 7, dst := 1, raddr := 0, len := 1, mtu := 10, moved := 0, laddr := 0x1000 })] }),
    _, _, frameOf (hdrOf 3 0 1 0) ([7]), [], _, _, _, _, false, true, by decide +kernel, brIs (by decide +kernel), rfl, rfl, rfl, rfl, rfl,
    by decide +kernel, 5,
    { gen := 1, take := 0, from_ := .ring 255 7, tenant := 15, op := 2, ord := false, cls := 7, dst := 1, raddr := 0, len := 1, mtu := 10, moved := 0, laddr := 0x1000 },
    by rfl, by decide +kernel, _, _, none, by decide +kernel, .inl ⟨by decide +kernel, wrOk (by decide +kernel), rfl⟩, rfl, by decide +kernel⟩,
  ⟨recv (hdrOf 3 1 1025 0) ([7]) ({ msgs := [(5, some { gen := 1, take := 0, from_ := .ring 255 7, tenant := 15, op := 2, ord := false, cls := 7, dst := 1, raddr := 0, len := 1025, mtu := 10, moved := 0, laddr := 0x1000 })] }),
    _, _, frameOf (hdrOf 3 1 1025 0) ([7]), [], _, _, _, _, false, true, by decide +kernel, brIs (by decide +kernel), rfl, rfl, rfl, rfl, rfl,
    by decide +kernel, 5,
    { gen := 1, take := 0, from_ := .ring 255 7, tenant := 15, op := 2, ord := false, cls := 7, dst := 1, raddr := 0, len := 1025, mtu := 10, moved := 0, laddr := 0x1000 },
    by rfl, by decide +kernel, _, _, none, by decide +kernel, .inl ⟨by decide +kernel, wrOk (by decide +kernel), rfl⟩, rfl, by decide +kernel⟩,
  ⟨recv (hdrOf 6 0 0 0) ((zeros 8)) ({ msgs := [(5, some { gen := 1, take := 0, from_ := .ring 255 7, tenant := 15, op := 1, ord := false, cls := 7, dst := 1, raddr := 0, len := 8, mtu := 10, moved := 0, laddr := 0x1000 })] }),
    _, _, frameOf (hdrOf 6 0 0 0) ((zeros 8)), [], _, _, _, _, false, true, by decide +kernel, brIs (by decide +kernel), rfl, rfl, rfl, rfl, rfl,
    by decide +kernel, 5,
    { gen := 1, take := 0, from_ := .ring 255 7, tenant := 15, op := 1, ord := false, cls := 7, dst := 1, raddr := 0, len := 8, mtu := 10, moved := 0, laddr := 0x1000 },
    by rfl, by decide +kernel⟩,
  ⟨recv (hdrOf 6 0 0 0) ((zeros 8)) ({ msgs := [(5, some { gen := 1, take := 0, from_ := .ring 255 7, tenant := 15, op := 5, ord := false, cls := 7, dst := 1, raddr := 0, len := 8, mtu := 10, moved := 0, aop := 1, laddr := 0x1000 })] }),
    _, _, frameOf (hdrOf 6 0 0 0) ((zeros 8)), [], _, _, _, _, false, true, by decide +kernel, brIs (by decide +kernel), rfl, rfl, rfl, rfl, rfl,
    by decide +kernel, 5,
    { gen := 1, take := 0, from_ := .ring 255 7, tenant := 15, op := 5, ord := false, cls := 7, dst := 1, raddr := 0, len := 8, mtu := 10, moved := 0, aop := 1, laddr := 0x1000 },
    by rfl, by decide +kernel⟩,
  ⟨recv (hdrOf 6 0 0 0) ((zeros 8)) ({ msgs := [(5, some { gen := 1, take := 0, from_ := .ring 255 7, tenant := 15, op := 5, ord := false, cls := 7, dst := 1, raddr := 0, len := 8, mtu := 10, moved := 0, aop := 2, laddr := 0x1000 })] }),
    _, _, frameOf (hdrOf 6 0 0 0) ((zeros 8)), [], _, _, _, _, false, true, by decide +kernel, brIs (by decide +kernel), rfl, rfl, rfl, rfl, rfl,
    by decide +kernel, 5,
    { gen := 1, take := 0, from_ := .ring 255 7, tenant := 15, op := 5, ord := false, cls := 7, dst := 1, raddr := 0, len := 8, mtu := 10, moved := 0, aop := 2, laddr := 0x1000 },
    by rfl, _, by decide +kernel, wrOk (by decide +kernel)⟩,
  ⟨{ recv (hdrOf 6 0 0 0) ((zeros 8)) ({ msgs := [(5, some { gen := 1, take := 0, from_ := .ring 255 7, tenant := 15, op := 5, ord := false, cls := 7, dst := 1, raddr := 0, len := 8, mtu := 10, moved := 0, laddr := 0x1000, aop := 2 })] }) with bad := [(128, 2)] },
    _, _, frameOf (hdrOf 6 0 0 0) ((zeros 8)), [], _, _, _, _, false, true, by decide +kernel, brIs (by decide +kernel), rfl, rfl, rfl, rfl, rfl,
    by decide +kernel, 5,
    { gen := 1, take := 0, from_ := .ring 255 7, tenant := 15, op := 5, ord := false, cls := 7, dst := 1, raddr := 0, len := 8, mtu := 10, moved := 0, laddr := 0x1000, aop := 2 },
    by rfl, _, 4096, by decide +kernel, brIs (by decide +kernel)⟩,
  ⟨recv (hdrOf 7 0 256 0) ((zeros 16)) ({ msgs := [(5, some { gen := 1, take := 0, from_ := .ring 255 7, tenant := 15, op := 2, ord := false, cls := 7, dst := 1, raddr := 0, len := 4, mtu := 10, moved := 0, laddr := 0x1000 })] }),
    _, _, frameOf (hdrOf 7 0 256 0) ((zeros 16)), [], _, _, _, _, false, true, by decide +kernel, brIs (by decide +kernel), rfl, rfl, rfl, rfl, rfl,
    by decide +kernel, 5,
    { gen := 1, take := 0, from_ := .ring 255 7, tenant := 15, op := 2, ord := false, cls := 7, dst := 1, raddr := 0, len := 4, mtu := 10, moved := 0, laddr := 0x1000 },
    by rfl, by decide +kernel⟩,
  ⟨recv (hdrOf 7 0 256 0) (zeros 16) ({ msgs := [(5, some { gen := 1, take := 0, from_ := .ring 255 7, tenant := 15, op := 5, ord := false, cls := 7, dst := 1, raddr := 0, len := 4, mtu := 10, moved := 0, data := some [1] })] }),
    _, _, frameOf (hdrOf 7 0 256 0) (zeros 16), [], _, _, _, _, false, true, by decide +kernel, brIs (by decide +kernel), rfl, rfl, rfl, rfl, rfl,
    by decide +kernel, 5,
    { gen := 1, take := 0, from_ := .ring 255 7, tenant := 15, op := 5, ord := false, cls := 7, dst := 1, raddr := 0, len := 4, mtu := 10, moved := 0, data := some [1] },
    by rfl, by decide +kernel⟩,
  ⟨recv (hdrOf 7 0 256 0) ((zeros 16)) ({ msgs := [(5, some { gen := 1, take := 0, from_ := .ring 255 7, tenant := 15, op := 1, ord := false, cls := 7, dst := 1, raddr := 0, len := 4, mtu := 10, moved := 0, data := some [1] })] }),
    _, _, frameOf (hdrOf 7 0 256 0) ((zeros 16)), [], _, _, _, _, false, true, by decide +kernel, brIs (by decide +kernel), rfl, rfl, rfl, rfl, rfl,
    by decide +kernel, 5,
    { gen := 1, take := 0, from_ := .ring 255 7, tenant := 15, op := 1, ord := false, cls := 7, dst := 1, raddr := 0, len := 4, mtu := 10, moved := 0, data := some [1] },
    by rfl, _, by decide +kernel, rfl, by decide +kernel⟩,
  ⟨recv (hdrOf 7 0 255 0) ((zeros 16)) ({ msgs := [(5, some { gen := 1, take := 0, from_ := .ring 255 7, tenant := 15, op := 1, ord := false, cls := 7, dst := 1, raddr := 0, len := 1, mtu := 10, moved := 0, data := some [1] })] }),
    _, _, frameOf (hdrOf 7 0 255 0) ((zeros 16)), [], _, _, _, _, false, true, by decide +kernel, brIs (by decide +kernel), rfl, rfl, rfl, rfl, rfl,
    by decide +kernel, 5,
    { gen := 1, take := 0, from_ := .ring 255 7, tenant := 15, op := 1, ord := false, cls := 7, dst := 1, raddr := 0, len := 1, mtu := 10, moved := 0, data := some [1] },
    by rfl, _, by decide +kernel, rfl, by decide +kernel⟩,
  ⟨recv (hdrOf 8 0 3 0) ([]) ({ msgs := [(5, some { gen := 1, take := 0, from_ := .ring 255 7, tenant := 15, op := 1, ord := false, cls := 7, dst := 1, raddr := 0, len := 1, mtu := 10, moved := 0, data := some [1], pk := [(0, some ⟨1, 0, 10000, 7, none, true, false⟩)] })] }),
    _, _, frameOf (hdrOf 8 0 3 0) ([]), [], _, _, _, _, false, true, by decide +kernel, brIs (by decide +kernel), rfl, rfl, rfl, rfl, rfl,
    by decide +kernel, 5,
    { gen := 1, take := 0, from_ := .ring 255 7, tenant := 15, op := 1, ord := false, cls := 7, dst := 1, raddr := 0, len := 1, mtu := 10, moved := 0, data := some [1], pk := [(0, some ⟨1, 0, 10000, 7, none, true, false⟩)] },
    by rfl, ⟨1, 0, 10000, 7, none, true, false⟩, by decide +kernel⟩,
  ⟨recv (hdrOf 8 0 3 0) ([]) ({ msgs := [(5, some { gen := 1, take := 0, from_ := .ring 255 7, tenant := 15, op := 1, ord := false, cls := 7, dst := 1, raddr := 0, len := 1, mtu := 10, moved := 0, data := some [1], pk := [] })] }),
    _, _, frameOf (hdrOf 8 0 3 0) ([]), [], _, _, _, _, false, true, by decide +kernel, brIs (by decide +kernel), rfl, rfl, rfl, rfl, rfl,
    by decide +kernel, 5,
    { gen := 1, take := 0, from_ := .ring 255 7, tenant := 15, op := 1, ord := false, cls := 7, dst := 1, raddr := 0, len := 1, mtu := 10, moved := 0, data := some [1], pk := [] },
    by rfl, by decide +kernel⟩,
  ⟨recv (hdrOf 8 0 6 0) ([]) ({ msgs := [(5, some { gen := 1, take := 0, from_ := .ring 255 7, tenant := 15, op := 1, ord := false, cls := 7, dst := 1, raddr := 0, len := 1, mtu := 10, moved := 0, data := some [1] })] }),
    _, _, frameOf (hdrOf 8 0 6 0) ([]), [], _, _, _, _, false, true, by decide +kernel, brIs (by decide +kernel), rfl, rfl, rfl, rfl, rfl,
    by decide +kernel, 5,
    { gen := 1, take := 0, from_ := .ring 255 7, tenant := 15, op := 1, ord := false, cls := 7, dst := 1, raddr := 0, len := 1, mtu := 10, moved := 0, data := some [1] },
    by rfl, by decide +kernel, 0x0602, by decide +kernel⟩,
  ⟨recv (hdrOf 9 0 1 0) ([]) ({}), _, _, frameOf (hdrOf 9 0 1 0) ([]), [], _, _, _, _, false, true, by decide +kernel, brIs (by decide +kernel), rfl,
    rfl, rfl, rfl, rfl, by decide +kernel⟩,
  ⟨recv (hdrOf 9 0 1 0) ([]) ({ rx := [{ src := 1, msg := 0x10005, tenant := 15, op := 1, region := none, addr := 0x1000, len := 1, mtu := 10, cls := 7, path := 0, last := 0, since := 0 }] }),
    _, _, frameOf (hdrOf 9 0 1 0) ([]), [], _, _, _, _, false, true, by decide +kernel, brIs (by decide +kernel), rfl, rfl, rfl, rfl, rfl,
    by decide +kernel,
    { src := 1, msg := 0x10005, tenant := 15, op := 1, region := none, addr := 0x1000, len := 1, mtu := 10, cls := 7, path := 0, last := 0, since := 0 },
    by decide +kernel⟩,
  ⟨recv (hdrOf 9 0 0 0) ([]) ({ rx := [{ src := 1, msg := 0x10005, tenant := 15, op := 1, region := none, addr := 0x1000, len := 1, mtu := 10, cls := 7, path := 0, last := 0, since := 0 }] }),
    _, _, frameOf (hdrOf 9 0 0 0) ([]), [], _, _, _, _, false, true, by decide +kernel, brIs (by decide +kernel), rfl, rfl, rfl, rfl, rfl,
    by decide +kernel,
    { src := 1, msg := 0x10005, tenant := 15, op := 1, region := none, addr := 0x1000, len := 1, mtu := 10, cls := 7, path := 0, last := 0, since := 0 },
    by decide +kernel⟩,
  ⟨recv (hdrOf 9 0 0 0) ([]) ({ rx := [{ src := 1, msg := 0x10005, tenant := 15, op := 1, region := none, addr := 0x1000, len := 1, mtu := 10, cls := 7, path := 0, last := 0, since := 0, st := .done }] }),
    _, _, frameOf (hdrOf 9 0 0 0) ([]), [], _, _, _, _, false, true, by decide +kernel, brIs (by decide +kernel), rfl, rfl, rfl, rfl, rfl,
    by decide +kernel,
    { src := 1, msg := 0x10005, tenant := 15, op := 1, region := none, addr := 0x1000, len := 1, mtu := 10, cls := 7, path := 0, last := 0, since := 0, st := .done },
    by decide +kernel⟩,
  ⟨recv (hdrOf 9 0 1 0) ([]) ({ rx := [{ src := 1, msg := 0x10005, tenant := 15, op := 1, region := none, addr := 0x1000, len := 1, mtu := 10, cls := 7, path := 0, last := 0, since := 0, st := .aborted }] }),
    _, _, frameOf (hdrOf 9 0 1 0) ([]), [], _, _, _, _, false, true, by decide +kernel, brIs (by decide +kernel), rfl, rfl, rfl, rfl, rfl,
    by decide +kernel,
    { src := 1, msg := 0x10005, tenant := 15, op := 1, region := none, addr := 0x1000, len := 1, mtu := 10, cls := 7, path := 0, last := 0, since := 0, st := .aborted },
    by decide +kernel⟩,
  ⟨{ State.reset with ft := { rx := [{ src := 1, msg := 0x10005, tenant := 15, op := 1, region := none, addr := 0x1000, len := 1, mtu := 10, cls := 7, path := 0, last := 0, since := 0, ackDue := some 2000, count := 1 }] }, tb := { State.reset.tb with ticks := 2000 } },
    1, 0x10005,
    { src := 1, msg := 0x10005, tenant := 15, op := 1, region := none, addr := 0x1000, len := 1, mtu := 10, cls := 7, path := 0, last := 0, since := 0, ackDue := some 2000, count := 1 },
    by decide +kernel, 2000, by decide +kernel⟩,
  ⟨{ State.reset with ft := { rx := [{ src := 1, msg := 0x10005, tenant := 15, op := 1, region := none, addr := 0x1000, len := 1, mtu := 10, cls := 7, path := 0, last := 0, since := 0, ackDue := some 2000, count := 1 }] }, tb := { State.reset.tb with ticks := 1999 } },
    1, 0x10005,
    { src := 1, msg := 0x10005, tenant := 15, op := 1, region := none, addr := 0x1000, len := 1, mtu := 10, cls := 7, path := 0, last := 0, since := 0, ackDue := some 2000, count := 1 },
    by decide +kernel, 2000, by decide +kernel⟩,
  ⟨{ State.reset with ft := { rx := [{ src := 1, msg := 0x10005, tenant := 15, op := 1, region := none, addr := 0x1000, len := 1, mtu := 10, cls := 7, path := 0, last := 0, since := 0 }] }, tb := { State.reset.tb with ticks := 50000000 } },
    1, 0x10005,
    { src := 1, msg := 0x10005, tenant := 15, op := 1, region := none, addr := 0x1000, len := 1, mtu := 10, cls := 7, path := 0, last := 0, since := 0 },
    by decide +kernel⟩,
  ⟨{ State.reset with ft := { rx := [{ src := 1, msg := 0x10005, tenant := 15, op := 1, region := none, addr := 0x1000, len := 1, mtu := 10, cls := 7, path := 0, last := 0, since := 0 }] }, tb := { State.reset.tb with ticks := 49999999 } },
    1, 0x10005,
    { src := 1, msg := 0x10005, tenant := 15, op := 1, region := none, addr := 0x1000, len := 1, mtu := 10, cls := 7, path := 0, last := 0, since := 0 },
    by decide +kernel⟩,
  ⟨{ State.reset with ft := { rx := [{ src := 1, msg := 0x10005, tenant := 15, op := 1, region := none, addr := 0x1000, len := 1, mtu := 10, cls := 7, path := 0, last := 0, since := 0, st := .done }] }, tb := { State.reset.tb with ticks := 1000000000 } },
    1, 0x10005,
    { src := 1, msg := 0x10005, tenant := 15, op := 1, region := none, addr := 0x1000, len := 1, mtu := 10, cls := 7, path := 0, last := 0, since := 0, st := .done },
    by decide +kernel, .inl rfl, by decide +kernel⟩,
  ⟨{ State.reset with ft := { rx := [{ src := 1, msg := 0x10005, tenant := 15, op := 1, region := none, addr := 0x1000, len := 1, mtu := 10, cls := 7, path := 0, last := 0, since := 0, st := .done, close := some 0 }] }, tb := { State.reset.tb with ticks := 0 } },
    1, 0x10005,
    { src := 1, msg := 0x10005, tenant := 15, op := 1, region := none, addr := 0x1000, len := 1, mtu := 10, cls := 7, path := 0, last := 0, since := 0, st := .done, close := some 0 },
    by decide +kernel, 0, by decide +kernel⟩,
  ⟨{ State.reset with ft := { rx := [{ src := 1, msg := 0x10005, tenant := 15, op := 1, region := none, addr := 0x1000, len := 1, mtu := 10, cls := 7, path := 0, last := 0, since := 0, st := .done, close := some 1000000 }] }, tb := { State.reset.tb with ticks := 0 } },
    1, 0x10005,
    { src := 1, msg := 0x10005, tenant := 15, op := 1, region := none, addr := 0x1000, len := 1, mtu := 10, cls := 7, path := 0, last := 0, since := 0, st := .done, close := some 1000000 },
    by decide +kernel, 1000000, by decide +kernel⟩⟩

/-- States and operands that meet the hypotheses of `Storage_Control`, clause by clause. -/
theorem witness_Storage_Control :
    (∃ (s : State) (id : Nat) (c : Cmd) (i : Nat), i = 16 * c.fn + c.p 0 ∧ Ready s .sqCreate id c ∧ (s.stoQ i).active = false ∧ c.p 2 ≠ 0) ∧
    (∃ (s : State) (id : Nat) (c : Cmd) (i : Nat), i = 16 * c.fn + c.p 0 ∧ Ready s .sqCreate id c ∧ (s.stoQ i).active = false ∧ c.p 2 = 0 ∧
      (strict s c.fn = false ∨ (∀ j, j < 16 → ¬ ((s.stoQ (16 * c.fn + j)).active = true ∧ (s.stoQ (16 * c.fn + j)).ibc = true ∧
      (s.stoQ (16 * c.fn + j)).k = c.p 3)))) ∧
    (∃ (s : State) (id : Nat) (c : Cmd) (i : Nat) (q : StoQ), i = 16 * c.fn + c.p 0 ∧ ∃ (j : Nat), Ready s .sqCreate id c ∧
      ((s.stoQ i).active = false ∧ c.p 2 = 0 ∧ strict s c.fn = true ∧ j < 16) ∧ q = s.stoQ (16 * c.fn + j) ∧ q.active = true ∧ q.ibc = true ∧
      q.k = c.p 3) ∧
    (∃ (s : State) (id : Nat) (c : Cmd) (i : Nat), i = 16 * c.fn + c.p 0 ∧ Ready s .sqCreate id c ∧ (s.stoQ i).active = true) ∧
    (∃ (s : State) (id : Nat) (c : Cmd) (i : Nat), i = 16 * c.fn + c.p 0 ∧ Ready s .sqDelete id c ∧ (s.stoQ i).active = true ∧ (∀ o ∈ s.sto.ops,
      o.for_ = .queue i → o.held = false)) ∧
    (∃ (s : State) (id : Nat) (c : Cmd) (i : Nat), i = 16 * c.fn + c.p 0 ∧ ∃ (o : StoOp), Ready s .sqDelete id c ∧ (s.stoQ i).active = true ∧
      (o ∈ s.sto.ops) ∧ o.for_ = .queue i ∧ o.held = true) ∧
    (∃ (s : State) (id : Nat) (c : Cmd) (i : Nat), i = 16 * c.fn + c.p 0 ∧ Ready s .sqDelete id c ∧ (s.stoQ i).active = false) ∧
    (∃ (s u : State) (id : Nat) (c : Cmd), ∃ (ds : _), ds = maskDrives (c.p 1) ∧ Ready s .volCreate id c ∧ (s.vol (c.p 0)).st = 0 ∧
      (∀ j ∈ s.sto.jobs, j.vol ≠ c.p 0) ∧ (∀ d ∈ ds, (s.drive d).accepted = true ∧ (s.drive d).failed = false ∧
      shareOf (c.p 1) (c.p 2) d ≤ extentLen (s.drive d).dm.free) ∧
      u = { s with sto := { s.sto with jobs := s.sto.jobs ++ [⟨id, c.p 0, c.p 1, c.p 2, true, ds.length, false⟩] } }) ∧
    (∃ (s : State) (id : Nat) (c : Cmd), ∃ (ds : _), ds = maskDrives (c.p 1) ∧ Ready s .volCreate id c ∧ (s.vol (c.p 0)).st = 0 ∧ (∀ j ∈ s.sto.jobs,
      j.vol ≠ c.p 0) ∧ ∃ (d : Nat), (d ∈ ds) ∧
      ((s.drive d).accepted = false ∨ (s.drive d).failed = true ∨ extentLen (s.drive d).dm.free < shareOf (c.p 1) (c.p 2) d)) ∧
    (∃ (s : State) (c : Cmd), ∃ (d : Nat) (n : _) (x : Drive) (rest : List (Nat × Nat)) (ext : List (Nat × Nat)), x = s.drive d ∧
      takeUnits (shareOf (c.p 1) n d) x.dm.free = (ext, rest)) ∧
    (∃ (s : State) (id : Nat) (c : Cmd) (v : Vol), v = s.vol (c.p 0) ∧ Ready s .volCreate id c ∧ (v.st ≠ 0 ∨ (∃ j ∈ s.sto.jobs, j.vol = c.p 0))) ∧
    (∃ (s : State) (id : Nat) (c : Cmd) (v : Vol), v = s.vol (c.p 0) ∧ Ready s .volDelete id c ∧ (v.st ≠ 1 ∨ (∃ j ∈ s.sto.jobs, j.vol = c.p 0))) ∧
    (∃ (s u : State) (id : Nat) (c : Cmd) (v : Vol), v = s.vol (c.p 0) ∧ ∃ (ds : _), Ready s .volDelete id c ∧ v.st = 1 ∧ (∀ j ∈ s.sto.jobs,
      j.vol ≠ c.p 0) ∧ ds = (maskDrives v.mask).filter (fun d => (s.drive d).accepted && !(s.drive d).failed) ∧
      u = { s with sto := { s.sto with jobs := s.sto.jobs ++ [⟨id, c.p 0, v.mask, v.blocks, false, ds.length, false⟩] } }) ∧
    (∃ (s : State) (id : Nat) (c : Cmd) (v : Vol), v = s.vol (c.p 0) ∧ Ready s .volBind id c ∧ (c.p 1 ≠ 0xFF ∧ v.st = 1) ∧ (∀ j ∈ s.sto.jobs,
      j.vol ≠ c.p 0)) ∧
    (∃ (s : State) (id : Nat) (c : Cmd) (v : Vol), v = s.vol (c.p 0) ∧ Ready s .volBind id c ∧ c.p 1 ≠ 0xFF ∧ (v.st ≠ 1 ∨ (∃ j ∈ s.sto.jobs,
      j.vol = c.p 0))) ∧
    (∃ (s : State) (id : Nat) (c : Cmd) (v : Vol), v = s.vol (c.p 0) ∧ Ready s .volBind id c ∧ c.p 1 = 0xFF ∧ v.st = 2 ∧ (∀ o ∈ s.sto.ops,
      o.vol = c.p 0 → o.held = true → o.for_ = .gone)) ∧
    (∃ (s : State) (id : Nat) (c : Cmd) (v : Vol), v = s.vol (c.p 0) ∧ Ready s .volBind id c ∧ c.p 1 = 0xFF ∧ (v.st ≠ 2 ∨ (∃ o ∈ s.sto.ops,
      o.vol = c.p 0 ∧ o.held = true ∧ o.for_ ≠ .gone))) ∧
    (∃ (s : State) (id : Nat) (c : Cmd), Ready s .driveInfo id c ∧ (s.drive (c.p 0)).id = none) ∧
    (∃ (s u : State) (id : Nat) (c : Cmd), ∃ (x : DriveId), Ready s .driveInfo id c ∧ (s.drive (c.p 0)).id = some x ∧ ∃ (r : _),
      hostWrite s c.fn (c.p 1) (fit 4096 x.ident) = (u, .ok r)) ∧
    (∃ (s u : State) (id : Nat) (c : Cmd), ∃ (x : DriveId), Ready s .driveInfo id c ∧ (s.drive (c.p 0)).id = some x ∧ ∃ (r : _),
      hostWrite s c.fn (c.p 1) (fit 4096 x.ident) = (u, .error r)) ∧
    (∃ (s : State) (q : StoQ), ∃ (who k : Nat) (val : Word), (s.power.running = true ∧ tget 0 s.own.devs 0x0E ≠ 0 ∧ who < 18 ∧ k < 256) ∧
      q = s.stoQ k ∧ (who = k / 16 ∨ 16 ≤ who) ∧ q.active = true ∧ q.ibc = false ∧ val.toNat < 32) ∧
    (∃ (s : State) (q : StoQ), ∃ (who k : Nat) (val : Word), (s.power.running = true ∧ tget 0 s.own.devs 0x0E ≠ 0 ∧ who < 18 ∧ k < 256) ∧
      q = s.stoQ k ∧ ∃ (w : _), w < 2 ∧ (who = k / 16 ∨ 16 ≤ who) ∧ (q.active = false ∨ q.ibc = true ∨ 32 ≤ val.toNat)) ∧
    (∃ (s : State) (q : StoQ), ∃ (who k : Nat), (s.power.running = true ∧ tget 0 s.own.devs 0x0E ≠ 0 ∧ who < 18 ∧ k < 256) ∧ q = s.stoQ k ∧
      ∃ (w : _), w < 2 ∧ who < 16 ∧ who ≠ k / 16) ∧
    (∃ (s u : State), ∃ (who d : Nat) (val : Word), (s.power.running = true ∧ tget 0 s.own.devs 0x0E ≠ 0 ∧ who < 18 ∧ d < 4 ∧ 16 ≤ who) ∧
      u = s.setReg .driveCtrl d 0 (bits val.toNat 0 0) ∧ ((s.drive d).accepted = false ∨ (s.drive d).failed = true)) ∧
    (∃ (s u : State), ∃ (who d : Nat) (val : Word), (s.power.running = true ∧ tget 0 s.own.devs 0x0E ≠ 0 ∧ who < 18 ∧ d < 4 ∧ 16 ≤ who) ∧
      u = s.setReg .driveCtrl d 0 (bits val.toNat 0 0) ∧ (s.drive d).accepted = true ∧ (s.drive d).failed = false ∧ bit val.toNat 0 = true) ∧
    (∃ (s u : State), ∃ (who d : Nat) (val : Word), (s.power.running = true ∧ tget 0 s.own.devs 0x0E ≠ 0 ∧ who < 18 ∧ d < 4 ∧ 16 ≤ who) ∧
      u = s.setReg .driveCtrl d 0 (bits val.toNat 0 0) ∧ (s.drive d).accepted = true ∧ (s.drive d).failed = false ∧ bit val.toNat 0 = false) ∧
    (∃ (s : State), ∃ (who d : Nat), s.power.running = true ∧ tget 0 s.own.devs 0x0E ≠ 0 ∧ who < 18 ∧ d < 4 ∧ who < 16) :=
  ⟨⟨having (cmdOf .sqCreate 15 [15, 0xFFFF, 0x1000, 0x2000]) (State.reset), 1, cmdOf .sqCreate 15 [15, 0xFFFF, 0x1000, 0x2000], _, rfl,
    rdy (by decide +kernel), by decide +kernel⟩,
  ⟨having (cmdOf .sqCreate 15 [15, 0xFFFF, 0, 15]) (State.reset), 1, cmdOf .sqCreate 15 [15, 0xFFFF, 0, 15], _, rfl, rdy (by decide +kernel),
    by decide +kernel⟩,
  ⟨having (cmdOf .sqCreate 15 [15, 0xFFFF, 0, 15]) ({ State.reset.setReg .detCtrl 0 15 1 with sto := { queues := [(254, { active := true, ibc := true, k := 15 })] } }),
    1, cmdOf .sqCreate 15 [15, 0xFFFF, 0, 15], _, _, rfl, 14, rdy (by decide +kernel), by decide +kernel, rfl, by decide +kernel⟩,
  ⟨having (cmdOf .sqCreate 15 [15, 0xFFFF, 0x1000, 0x2000]) ({ State.reset with sto := { queues := [(255, { active := true })] } }), 1,
    cmdOf .sqCreate 15 [15, 0xFFFF, 0x1000, 0x2000], _, rfl, rdy (by decide +kernel), by decide +kernel⟩,
  ⟨having (cmdOf .sqDelete 15 [15]) ({ State.reset with sto := { queues := [(255, { active := true })] } }), 1, cmdOf .sqDelete 15 [15], _, rfl,
    rdy (by decide +kernel), by decide +kernel, fun _ h => (nomatch h)⟩,
  ⟨having (cmdOf .sqDelete 15 [15]) ({ State.reset with sto := { queues := [(255, { active := true })], ops := [{ take := 0, for_ := .queue 255, held := true, op := 3, vol := 1023 }] } }),
    1, cmdOf .sqDelete 15 [15], _, rfl, { take := 0, for_ := .queue 255, held := true, op := 3, vol := 1023 }, rdy (by decide +kernel),
    by decide +kernel⟩,
  ⟨having (cmdOf .sqDelete 15 [15]) (State.reset), 1, cmdOf .sqDelete 15 [15], _, rfl, rdy (by decide +kernel), by decide +kernel⟩,
  ⟨having (cmdOf .volCreate 16 [1023, 8, 2 ^ 16]) ({ State.reset with sto := { drives := [(3, { accepted := true, dm := ⟨[], [(5120, 2000)], [], 0⟩ })] } }),
    _, 1, cmdOf .volCreate 16 [1023, 8, 2 ^ 16], _, rfl, rdy (by decide +kernel), by decide +kernel, fun _ h => (nomatch h), by decide +kernel, rfl⟩,
  ⟨having (cmdOf .volCreate 16 [1023, 8, 2 ^ 16]) ({ State.reset with sto := { drives := [(3, { accepted := true, dm := ⟨[], [(5120, 1000)], [], 0⟩ })] } }),
    1, cmdOf .volCreate 16 [1023, 8, 2 ^ 16], _, rfl, rdy (by decide +kernel), by decide +kernel, fun _ h => (nomatch h), 3, by decide +kernel⟩,
  ⟨having (cmdOf .volCreate 16 [1023, 8, 2 ^ 16]) ({ State.reset with sto := { drives := [(3, { accepted := true, dm := ⟨[], [(5120, 2000)], [], 0⟩ })] } }),
    cmdOf .volCreate 16 [1023, 8, 2 ^ 16], 3, 2 ^ 16, _, [(6144, 976)], _, rfl, brIs (by decide +kernel)⟩,
  ⟨having (cmdOf .volCreate 16 [1023, 8, 2 ^ 16]) ({ State.reset with sto := { vols := [(1023, { st := 1, tenant := 15, mask := 8, blocks := 64 })] } }),
    1, cmdOf .volCreate 16 [1023, 8, 2 ^ 16], _, rfl, rdy (by decide +kernel), by decide +kernel⟩,
  ⟨having (cmdOf .volDelete 16 [1023]) ({ State.reset with sto := { vols := [(1023, { st := 2, tenant := 15, mask := 8, blocks := 64 })] } }), 1,
    cmdOf .volDelete 16 [1023], _, rfl, rdy (by decide +kernel), by decide +kernel⟩,
  ⟨having (cmdOf .volDelete 16 [1023]) ({ State.reset with sto := { vols := [(1023, { st := 1, tenant := 15, mask := 8, blocks := 64 })], drives := [(3, { accepted := true, dm := ⟨[], [(5120, 2000)], [], 0⟩ })] } }),
    _, 1, cmdOf .volDelete 16 [1023], _, rfl, _, rdy (by decide +kernel), by decide +kernel, fun _ h => (nomatch h), rfl, rfl⟩,
  ⟨having (cmdOf .volBind 17 [1023, 15]) ({ State.reset with sto := { vols := [(1023, { st := 1, tenant := 15, mask := 8, blocks := 64 })] } }), 1,
    cmdOf .volBind 17 [1023, 15], _, rfl, rdy (by decide +kernel), by decide +kernel, fun _ h => (nomatch h)⟩,
  ⟨having (cmdOf .volBind 17 [1023, 15]) ({ State.reset with sto := { vols := [(1023, { st := 2, tenant := 15, mask := 8, blocks := 64 })] } }), 1,
    cmdOf .volBind 17 [1023, 15], _, rfl, rdy (by decide +kernel), by decide +kernel⟩,
  ⟨having (cmdOf .volBind 17 [1023, 0xFF]) ({ State.reset with sto := { vols := [(1023, { st := 2, tenant := 15, mask := 8, blocks := 64 })] } }), 1,
    cmdOf .volBind 17 [1023, 0xFF], _, rfl, rdy (by decide +kernel), by decide +kernel⟩,
  ⟨having (cmdOf .volBind 17 [1023, 0xFF]) ({ State.reset with sto := { vols := [(1023, { st := 1, tenant := 15, mask := 8, blocks := 64 })] } }), 1,
    cmdOf .volBind 17 [1023, 0xFF], _, rfl, rdy (by decide +kernel), by decide +kernel⟩,
  ⟨having (cmdOf .driveInfo 16 [3, 0x1000]) (State.reset), 1, cmdOf .driveInfo 16 [3, 0x1000], rdy (by decide +kernel), by decide +kernel⟩,
  ⟨having (cmdOf .driveInfo 16 [3, 0x1000]) ({ (State.reset.setHost 16 { bme := true }) with sto := { drives := [(3, { id := some ⟨true, true, 2 ^ 20, true, 4, 5, [], none, []⟩ })] } }),
    _, 1, cmdOf .driveInfo 16 [3, 0x1000], ⟨true, true, 2 ^ 20, true, 4, 5, [], none, []⟩, rdy (by decide +kernel), by decide +kernel, (),
    okIs (by decide +kernel)⟩,
  ⟨having (cmdOf .driveInfo 16 [3, 0x1000]) ({ State.reset with sto := { drives := [(3, { id := some ⟨true, true, 2 ^ 20, true, 4, 5, [], none, []⟩ })] } }),
    _, 1, cmdOf .driveInfo 16 [3, 0x1000], ⟨true, true, 2 ^ 20, true, 4, 5, [], none, []⟩, rdy (by decide +kernel), by decide +kernel, HErr.off,
    errIs (by decide +kernel)⟩,
  ⟨{ ({ State.reset with own := { State.reset.own with devs := [(0x0E, 1)] } }) with sto := { queues := [(255, { active := true })] } }, _, 15, 255,
    31, by decide +kernel, rfl, .inl (by decide +kernel), by decide +kernel⟩,
  ⟨{ ({ State.reset with own := { State.reset.own with devs := [(0x0E, 1)] } }) with sto := { queues := [(255, {})] } }, _, 15, 255, 31,
    by decide +kernel, rfl, 1, by decide +kernel, .inl (by decide +kernel), .inl (by decide +kernel)⟩,
  ⟨{ ({ State.reset with own := { State.reset.own with devs := [(0x0E, 1)] } }) with sto := { queues := [(255, { active := true })] } }, _, 14, 255,
    by decide +kernel, rfl, 1, by decide +kernel⟩,
  ⟨{ ({ State.reset with own := { State.reset.own with devs := [(0x0E, 1)] } }) with sto := { drives := [(3, {})] } }, _, 17, 3, 1,
    by decide +kernel, rfl, .inl (by decide +kernel)⟩,
  ⟨{ ({ State.reset with own := { State.reset.own with devs := [(0x0E, 1)] } }) with sto := { drives := [(3, { accepted := true })] } }, _, 17, 3, 1,
    by decide +kernel, rfl, by decide +kernel⟩,
  ⟨{ ({ State.reset with own := { State.reset.own with devs := [(0x0E, 1)] } }) with sto := { drives := [(3, { accepted := true })] } }, _, 17, 3, 0,
    by decide +kernel, rfl, by decide +kernel⟩,
  ⟨({ State.reset with own := { State.reset.own with devs := [(0x0E, 1)] } }), 15, 3, by decide +kernel⟩⟩

/-- States and operands that meet the hypotheses of `Storage_Service`, clause by clause. -/
theorem witness_Storage_Service :
    (∃ (s u : State), s.power.running = true ∧ ∃ (cmd : Instr) (op : Nat), ((cmd,
      op) ∈ [(Instr.stoRead, 1), (.stoWrite, 2), (.stoFlush, 3), (.stoTrim, 4), (.stoAtomicWrite, 5), (.stoSelfTest, 6), (.stoPower, 7)]) ∧
      u = stoAsk s ∧ stoNext u = none) ∧
    (∃ (s u : State), s.power.running = true ∧ ∃ (cmd : Instr) (op i : Nat) (e : Bytes) (q : StoQ), ((cmd,
      op) ∈ [(Instr.stoRead, 1), (.stoWrite, 2), (.stoFlush, 3), (.stoTrim, 4), (.stoAtomicWrite, 5), (.stoSelfTest, 6), (.stoPower, 7)]) ∧
      u = stoAsk s ∧ stoNext u = some i ∧ q = u.stoQ i ∧ e = headEntry u i ∧ (fld e 0 1 ≠ op ∧ 1 ≤ fld e 0 1) ∧ fld e 0 1 ≤ 7) ∧
    (∃ (s u : State), s.power.running = true ∧ ∃ (cmd : Instr) (op i : Nat) (e : Bytes) (q : StoQ), ((cmd,
      op) ∈ [(Instr.stoRead, 1), (.stoWrite, 2), (.stoFlush, 3), (.stoTrim, 4), (.stoAtomicWrite, 5), (.stoSelfTest, 6), (.stoPower, 7)]) ∧
      u = stoAsk s ∧ stoNext u = some i ∧ q = u.stoQ i ∧ e = headEntry u i ∧ (fld e 0 1 = op ∨ fld e 0 1 = 0 ∨ 7 < fld e 0 1) ∧ q.ibc = true) ∧
    (∃ (s u : State), s.power.running = true ∧ ∃ (cmd : Instr) (op i : Nat) (e : Bytes) (q : StoQ), ((cmd,
      op) ∈ [(Instr.stoRead, 1), (.stoWrite, 2), (.stoFlush, 3), (.stoTrim, 4), (.stoAtomicWrite, 5), (.stoSelfTest, 6), (.stoPower, 7)]) ∧
      u = stoAsk s ∧ stoNext u = some i ∧ q = u.stoQ i ∧ e = headEntry u i ∧ (fld e 0 1 = op ∨ fld e 0 1 = 0 ∨ 7 < fld e 0 1) ∧ q.ibc = false ∧
      (.bad ∈ hostCells u (fnPort u (i / 16)) (q.sq + 64 * q.head) 64)) ∧
    (∃ (s u : State), s.power.running = true ∧ ∃ (cmd : Instr) (op i : Nat) (e : Bytes) (q : StoQ), ((cmd,
      op) ∈ [(Instr.stoRead, 1), (.stoWrite, 2), (.stoFlush, 3), (.stoTrim, 4), (.stoAtomicWrite, 5), (.stoSelfTest, 6), (.stoPower, 7)]) ∧
      u = stoAsk s ∧ stoNext u = some i ∧ q = u.stoQ i ∧ e = headEntry u i ∧ (fld e 0 1 = op ∨ fld e 0 1 = 0 ∨ 7 < fld e 0 1) ∧ q.ibc = false ∧
      .bad ∉ hostCells u (fnPort u (i / 16)) (q.sq + 64 * q.head) 64) ∧
    (∃ (s : State), s.power.running = true ∧ ∃ (i : Nat) (e : Bytes) (y : State) (o : StoOp),
      y = { s with sto := { s.sto with take := s.sto.take + 1, lastQ := i } } ∧
      o = { take := s.sto.take, for_ := .queue i, held := false, op := fld e 0 1, tag := fld e 2 1, ended := true } ∧
      (fld e 0 1 = 0 ∨ 7 < fld e 0 1)) ∧
    (∃ (s : State), s.power.running = true ∧ ∃ (i : Nat) (e : Bytes) (y : State) (o : StoOp),
      y = { s with sto := { s.sto with take := s.sto.take + 1, lastQ := i } } ∧
      o = { take := s.sto.take, for_ := .queue i, held := false, op := fld e 0 1, tag := fld e 2 1, ended := true } ∧ (1 ≤ fld e 0 1 ∧
      fld e 0 1 ≤ 7) ∧ ∃ (st : Nat) (r0 : Nat), stoForm y e = some (st, r0)) ∧
    (∃ (s : State), s.power.running = true ∧ ∃ (i : Nat) (e : Bytes) (y : State) (o : StoOp),
      y = { s with sto := { s.sto with take := s.sto.take + 1, lastQ := i } } ∧
      o = { take := s.sto.take, for_ := .queue i, held := false, op := fld e 0 1, tag := fld e 2 1, ended := true } ∧ (1 ≤ fld e 0 1 ∧
      fld e 0 1 ≤ 7) ∧ ∃ (v : Vol), stoForm y e = none ∧ v = y.vol (fld e 4 2) ∧ (v.st ≠ 2 ∨ v.tenant ≠ i / 16)) ∧
    (∃ (s : State), s.power.running = true ∧ ∃ (i : Nat) (e : Bytes) (y : State) (o : StoOp),
      y = { s with sto := { s.sto with take := s.sto.take + 1, lastQ := i } } ∧
      o = { take := s.sto.take, for_ := .queue i, held := false, op := fld e 0 1, tag := fld e 2 1, ended := true } ∧ (1 ≤ fld e 0 1 ∧
      fld e 0 1 ≤ 7) ∧ ∃ (v : Vol), stoForm y e = none ∧ v = y.vol (fld e 4 2) ∧ (v.st = 2 ∧ v.tenant = i / 16) ∧ ∃ (ok : _) (z : _),
      ((if fld e 0 1 = 1 ∨ fld e 0 1 = 2 ∨ fld e 0 1 = 5 then mayReach (i / 16) (fld e 24 8) (fld e 16 4 * 4096) (fld e 0 1 == 1) 0x212 y else (true,
      y)) = (ok, z)) ∧ ok = false) ∧
    (∃ (s : State), s.power.running = true ∧ ∃ (i : Nat) (e : Bytes) (y : State) (o : StoOp),
      y = { s with sto := { s.sto with take := s.sto.take + 1, lastQ := i } } ∧
      o = { take := s.sto.take, for_ := .queue i, held := false, op := fld e 0 1, tag := fld e 2 1, ended := true } ∧ (1 ≤ fld e 0 1 ∧
      fld e 0 1 ≤ 7) ∧ ∃ (v : Vol), stoForm y e = none ∧ v = y.vol (fld e 4 2) ∧ (v.st = 2 ∧ v.tenant = i / 16) ∧ ∃ (ok : _) (z : _),
      ((if fld e 0 1 = 1 ∨ fld e 0 1 = 2 ∨ fld e 0 1 = 5 then mayReach (i / 16) (fld e 24 8) (fld e 16 4 * 4096) (fld e 0 1 == 1) 0x212 y else (true,
      y)) = (ok, z)) ∧ ∃ (xl : _), ok = true ∧ xl = translateFor z (i / 16 + 1) (fnBind z (i / 16)) (bits (fld e 20 4) 23 0) ∧ fld e 20 4 ≠ 0 ∧
      xl = .none) ∧
    (∃ (s : State), s.power.running = true ∧ ∃ (i : Nat) (e : Bytes) (y : State) (o : StoOp),
      y = { s with sto := { s.sto with take := s.sto.take + 1, lastQ := i } } ∧
      o = { take := s.sto.take, for_ := .queue i, held := false, op := fld e 0 1, tag := fld e 2 1, ended := true } ∧ (1 ≤ fld e 0 1 ∧
      fld e 0 1 ≤ 7) ∧ ∃ (v : Vol), stoForm y e = none ∧ v = y.vol (fld e 4 2) ∧ (v.st = 2 ∧ v.tenant = i / 16) ∧ ∃ (ok : _) (z : _),
      ((if fld e 0 1 = 1 ∨ fld e 0 1 = 2 ∨ fld e 0 1 = 5 then mayReach (i / 16) (fld e 24 8) (fld e 16 4 * 4096) (fld e 0 1 == 1) 0x212 y else (true,
      y)) = (ok, z)) ∧ ∃ (xl : _), ok = true ∧ xl = translateFor z (i / 16 + 1) (fnBind z (i / 16)) (bits (fld e 20 4) 23 0) ∧
      (fld e 20 4 = 0 ∨ xl ≠ .none) ∧ ∃ (x : StoOp), (x ∈ z.sto.ops) ∧ x.for_ = .queue i ∧ x.held = true ∧ x.tag = fld e 2 1) ∧
    (∃ (s : State), s.power.running = true ∧ ∃ (i : Nat) (e : Bytes) (y : State) (o : StoOp),
      y = { s with sto := { s.sto with take := s.sto.take + 1, lastQ := i } } ∧
      o = { take := s.sto.take, for_ := .queue i, held := false, op := fld e 0 1, tag := fld e 2 1, ended := true } ∧ (1 ≤ fld e 0 1 ∧
      fld e 0 1 ≤ 7) ∧ ∃ (v : Vol), stoForm y e = none ∧ v = y.vol (fld e 4 2) ∧ (v.st = 2 ∧ v.tenant = i / 16) ∧ ∃ (ok : _) (z : _),
      ((if fld e 0 1 = 1 ∨ fld e 0 1 = 2 ∨ fld e 0 1 = 5 then mayReach (i / 16) (fld e 24 8) (fld e 16 4 * 4096) (fld e 0 1 == 1) 0x212 y else (true,
      y)) = (ok, z)) ∧ ∃ (xl : _), ok = true ∧ xl = translateFor z (i / 16 + 1) (fnBind z (i / 16)) (bits (fld e 20 4) 23 0) ∧
      (fld e 20 4 = 0 ∨ xl ≠ .none) ∧ (∀ x ∈ z.sto.ops, x.for_ = .queue i → x.held = true → x.tag ≠ fld e 2 1) ∧ fld e 20 4 ≠ 0 ∧ xl = .ue) ∧
    (∃ (s : State), s.power.running = true ∧ ∃ (i : Nat) (e : Bytes) (y : State) (o : StoOp),
      y = { s with sto := { s.sto with take := s.sto.take + 1, lastQ := i } } ∧
      o = { take := s.sto.take, for_ := .queue i, held := false, op := fld e 0 1, tag := fld e 2 1, ended := true } ∧ (1 ≤ fld e 0 1 ∧
      fld e 0 1 ≤ 7) ∧ ∃ (v : Vol), stoForm y e = none ∧ v = y.vol (fld e 4 2) ∧ (v.st = 2 ∧ v.tenant = i / 16) ∧ ∃ (ok : _) (z : _),
      ((if fld e 0 1 = 1 ∨ fld e 0 1 = 2 ∨ fld e 0 1 = 5 then mayReach (i / 16) (fld e 24 8) (fld e 16 4 * 4096) (fld e 0 1 == 1) 0x212 y else (true,
      y)) = (ok, z)) ∧ ∃ (xl : _), ok = true ∧ xl = translateFor z (i / 16 + 1) (fnBind z (i / 16)) (bits (fld e 20 4) 23 0) ∧
      ((fld e 20 4 = 0 ∨ xl ≠ .none) ∧ (∀ x ∈ z.sto.ops, x.for_ = .queue i → x.held = true → x.tag ≠ fld e 2 1)) ∧ ∃ (p : StoOp),
      (fld e 20 4 = 0 ∨ xl ≠ .ue) ∧
      p = { o with held := true, ended := false, vol := fld e 4 2, lba := fld e 8 8, count := fld e 16 4, buf := fld e 24 8, sig := if fld e 20 4 = 0 then none else some (xl, bits (fld e 20 4) 31 24) } ∧
      p.op = 3) ∧
    (∃ (s : State), s.power.running = true ∧ ∃ (i : Nat) (e : Bytes) (y : State) (o : StoOp),
      y = { s with sto := { s.sto with take := s.sto.take + 1, lastQ := i } } ∧
      o = { take := s.sto.take, for_ := .queue i, held := false, op := fld e 0 1, tag := fld e 2 1, ended := true } ∧ (1 ≤ fld e 0 1 ∧
      fld e 0 1 ≤ 7) ∧ ∃ (v : Vol), stoForm y e = none ∧ v = y.vol (fld e 4 2) ∧ (v.st = 2 ∧ v.tenant = i / 16) ∧ ∃ (ok : _) (z : _),
      ((if fld e 0 1 = 1 ∨ fld e 0 1 = 2 ∨ fld e 0 1 = 5 then mayReach (i / 16) (fld e 24 8) (fld e 16 4 * 4096) (fld e 0 1 == 1) 0x212 y else (true,
      y)) = (ok, z)) ∧ ∃ (xl : _), ok = true ∧ xl = translateFor z (i / 16 + 1) (fnBind z (i / 16)) (bits (fld e 20 4) 23 0) ∧
      ((fld e 20 4 = 0 ∨ xl ≠ .none) ∧ (∀ x ∈ z.sto.ops, x.for_ = .queue i → x.held = true → x.tag ≠ fld e 2 1)) ∧ ∃ (p : StoOp),
      (fld e 20 4 = 0 ∨ xl ≠ .ue) ∧
      p = { o with held := true, ended := false, vol := fld e 4 2, lba := fld e 8 8, count := fld e 16 4, buf := fld e 24 8, sig := if fld e 20 4 = 0 then none else some (xl, bits (fld e 20 4) 31 24) } ∧
      p.op = 4) ∧
    (∃ (s : State), s.power.running = true ∧ ∃ (d cid : Nat) (x : Drive), d < 4 ∧ x = s.drive d ∧ ∃ (n : _), n < 2 ^ 16 ∧
      takeFirst (fun c => c.cid == cid) x.cmds = none) ∧
    (∃ (s u : State), s.power.running = true ∧ ∃ (d cid : Nat) (x : Drive) (y : NCmd) (rest : List NCmd), d < 4 ∧ x = s.drive d ∧ ∃ (n : _),
      takeFirst (fun c => c.cid == cid) x.cmds = some (y, rest) ∧
      u = (s.countTv 5 n).setDrive d { x with cmds := rest, last := (s.countTv 5 n).tb.ticks }) ∧
    (∃ (s : State), s.power.running = true ∧ ∃ (d : Nat) (x : Drive), d < 4 ∧ x = s.drive d) ∧
    (∃ (s : State), s.power.running = true ∧ ∃ (d : Nat) (x : Drive), d < 4 ∧ x = s.drive d ∧ ∃ (take : Nat) (i : Nat) (o : StoOp) (p : UOp) (n : _),
      n ≠ 0 ∧ s.sto.ops.find? (fun o => o.take == take) = some o ∧ o.parts[i]? = some p) ∧
    (∃ (s : State), s.power.running = true ∧ ∃ (d : Nat) (x : Drive), d < 4 ∧ x = s.drive d) ∧
    (∃ (s : State), s.power.running = true ∧ ∃ (d : Nat) (x : Drive), d < 4 ∧ x = s.drive d) ∧
    (∃ (s : State), s.power.running = true ∧ ∃ (d cid : Nat) (x : Drive) (y : NCmd) (rest : List NCmd), d < 4 ∧ x = s.drive d ∧
      takeFirst (fun c => c.cid == cid) x.cmds = some (y, rest) ∧ s.tb.ticks < y.due) ∧
    (∃ (s u : State), s.power.running = true ∧ ∃ (d cid : Nat) (x : Drive) (y : NCmd) (rest : List NCmd), d < 4 ∧ x = s.drive d ∧
      (takeFirst (fun c => c.cid == cid) x.cmds = some (y, rest) ∧ y.due ≤ s.tb.ticks) ∧
      u = send (.nvme d x.cid 7 0 0 []) ((sticky none .driveErr d 0 2 s).setDrive d { x with cmds := [], cid := x.cid + 1, todo := nvmeKept rest ++ x.todo, last := (sticky none .driveErr d 0 2 s).tb.ticks, resetDue := some ((sticky none .driveErr d 0 2 s).tb.ticks + 10000000000), test := x.test.map fun t => { t with on := false } })) ∧
    (∃ (s : State), s.power.running = true ∧ ∃ (d : Nat) (x : Drive), d < 4 ∧ x = s.drive d) ∧
    (∃ (s : State), s.power.running = true ∧ ∃ (d : Nat) (x : Drive), d < 4 ∧ x = s.drive d ∧ ∃ (t : Nat), x.resetDue = some t ∧ x.failed = false) ∧
    (∃ (s : State), s.power.running = true ∧ ∃ (d : Nat) (x : Drive), d < 4 ∧ x = s.drive d ∧ ∃ (t : Nat), x.resetDue = some t ∧ x.failed = true) ∧
    (∃ (s : State), s.power.running = true ∧ ∃ (d : Nat) (x : Drive), d < 4 ∧ x = s.drive d ∧ ∃ (t : Nat), x.resetDue = some t ∧ t ≤ s.tb.ticks) ∧
    (∃ (s : State), s.power.running = true ∧ ∃ (d : Nat) (x : Drive), d < 4 ∧ x = s.drive d ∧ ∃ (t : Nat), x.resetDue = some t ∧ s.tb.ticks < t) ∧
    (∃ (s : State), s.power.running = true ∧ ∃ (d : Nat) (x : Drive), d < 4 ∧ x = s.drive d ∧ x.resetDue = none) ∧
    (∃ (s : State), s.power.running = true ∧ ∃ (d : Nat) (x : Drive), d < 4 ∧ x = s.drive d ∧ x.accepted = true ∧ x.failed = false) ∧
    (∃ (s : State), s.power.running = true ∧ ∃ (d : Nat) (x : Drive), d < 4 ∧ x = s.drive d ∧ x.accepted = true ∧ x.failed = true) ∧
    (∃ (s : State), s.power.running = true ∧ ∃ (d : Nat) (x : Drive), d < 4 ∧ x = s.drive d ∧ x.accepted = false) ∧
    (∃ (s : State), s.power.running = true ∧ ∃ (d : Nat) (x : Drive), d < 4 ∧ x = s.drive d ∧ ∃ (ident : DriveId) (r : Nat),
      (x.accepted = false ∨ x.failed = true) ∧ r = driveRefuse ident ∧ r ≠ 0) ∧
    (∃ (s : State), s.power.running = true ∧ ∃ (d : Nat) (x : Drive), d < 4 ∧ x = s.drive d ∧ ∃ (ident : DriveId) (r : Nat),
      (x.accepted = false ∨ x.failed = true) ∧ r = driveRefuse ident ∧ r = 0) ∧
    (∃ (s u : State), s.power.running = true ∧ ∃ (d : Nat) (x : Drive), d < 4 ∧ x = s.drive d ∧ ∃ (t : Test), (x.test = some t ∧ t.on = true) ∧
      u = s.setDrive d { x with test := none }) ∧
    (∃ (s : State), s.power.running = true ∧ ∃ (d : Nat) (x : Drive), d < 4 ∧ x = s.drive d ∧ x.test = none) ∧
    (∃ (s : State), s.power.running = true ∧ ∃ (d : Nat) (x : Drive), d < 4 ∧ x = s.drive d ∧ ∃ (t : Test), x.test = some t ∧ t.on = false) ∧
    (∃ (s : State), s.power.running = true ∧ ∃ (d : Nat) (x : Drive), d < 4 ∧ x = s.drive d ∧ ∃ (t : Test), x.test = some t ∧ t.on = false ∧
      t.ran = false ∧ driveUp x = true ∧ x.cmds = [] ∧ x.todo = [] ∧ x.last + max 1 (bits (s.reg .stoCtrl) 23 8) * 1000000 ≤ s.tb.ticks) ∧
    (∃ (s u : State), s.power.running = true ∧ ∃ (d cid : Nat) (x : Drive), d < 4 ∧ x = s.drive d ∧ ∃ (t : Test), (x.test = some t ∧ t.on = false ∧
      t.ran = true ∧ driveUp x = true ∧ x.cmds = [] ∧ x.todo = [] ∧ x.last + max 1 (bits (s.reg .stoCtrl) 23 8) * 1000000 ≤ s.tb.ticks) ∧
      u = send (.nvme d x.cid 3 t.kind 0 []) (s.setDrive d { x with test := some { t with on := true, ran := true }, cid := x.cid + 1 })) ∧
    (∃ (s : State), s.power.running = true ∧ ∃ (d : Nat) (x : Drive), d < 4 ∧ x = s.drive d ∧ ∃ (t : Test), x.test = some t ∧
      (t.on = true ∨ driveUp x = false ∨ x.cmds ≠ [] ∨ x.todo ≠ [] ∨ s.tb.ticks < x.last + max 1 (bits (s.reg .stoCtrl) 23 8) * 1000000)) ∧
    (∃ (s : State), s.power.running = true ∧ ∃ (take t : Nat) (o : StoOp), s.sto.ops.find? (fun o => o.take == take) = some o ∧ o.op = 6 ∧
      o.ended = false ∧ o.limit = some t ∧ t ≤ s.tb.ticks) ∧
    (∃ (s : State), s.power.running = true ∧ ∃ (take t : Nat) (o : StoOp), s.sto.ops.find? (fun o => o.take == take) = some o ∧ o.op = 6 ∧
      o.ended = false ∧ o.limit = some t ∧ s.tb.ticks < t) :=
  ⟨⟨State.reset, _, by decide +kernel, .stoRead, 1, by decide +kernel, rfl, by decide +kernel⟩,
  ⟨queued [(0, 1, 2)] [], _, by decide +kernel, .stoRead, 1, 255, _, _, by decide +kernel, rfl, by decide +kernel, rfl, rfl, by decide +kernel,
    by decide +kernel⟩,
  ⟨{ (State.reset.setWq 511 [⟨rec_ 64 [(0, 1, 1)], none⟩]) with sto := { queues := [(255, { active := true, ibc := true })] } }, _,
    by decide +kernel, .stoRead, 1, 255, _, _, by decide +kernel, rfl, by decide +kernel, rfl, rfl, .inl (by decide +kernel), by decide +kernel⟩,
  ⟨{ queued [(0, 1, 1)] [] with hostMem := (queued [(0, 1, 1)] []).hostMem.map fun e => if e.1 = 63 then (63, .bad) else e }, _, by decide +kernel,
    .stoRead, 1, 255, _, _, by decide +kernel, rfl, by decide +kernel, rfl, rfl, .inl (by decide +kernel), by decide +kernel⟩,
  ⟨queued [(0, 1, 2)] [], _, by decide +kernel, .stoWrite, 2, 255, _, _, by decide +kernel, rfl, by decide +kernel, rfl, rfl,
    .inl (by decide +kernel), by decide +kernel⟩,
  ⟨State.reset, by decide +kernel, 0, [], _, _, rfl, rfl, by decide +kernel⟩,
  ⟨queued [] [], by decide +kernel, 255, rec_ 64 [(0, 1, 2)], _, _, rfl, rfl, by decide +kernel, 0x0103, 16, by decide +kernel⟩,
  ⟨queued [] [], by decide +kernel, 255, rec_ 64 [(0, 1, 3), (4, 2, 1022)], _, _, rfl, rfl, by decide +kernel, _, by decide +kernel, rfl,
    by decide +kernel⟩,
  ⟨queued [] [], by decide +kernel, 255, rec_ 64 [(0, 1, 1), (4, 2, 1023), (16, 4, 1), (24, 8, 0x1000)], _, _, rfl, rfl, by decide +kernel, _,
    by decide +kernel, rfl, by decide +kernel, false, _, fstIs (by decide +kernel), by decide +kernel⟩,
  ⟨queued [] [], by decide +kernel, 255, rec_ 64 [(0, 1, 3), (4, 2, 1023), (20, 4, 0x4400)], _, _, rfl, rfl, by decide +kernel, _, by decide +kernel,
    rfl, by decide +kernel, true, _, rfl, _, by decide +kernel, rfl, by decide +kernel⟩,
  ⟨queued [] [{ take := 0, for_ := .queue 255, held := true, op := 3, vol := 1023, tag := 31 }], by decide +kernel, 255,
    rec_ 64 [(0, 1, 3), (4, 2, 1023), (2, 1, 31)], _, _, rfl, rfl, by decide +kernel, _, by decide +kernel, rfl, by decide +kernel, true, _, rfl, _,
    by decide +kernel, rfl, by decide +kernel, { take := 0, for_ := .queue 255, held := true, op := 3, vol := 1023, tag := 31 }, by decide +kernel⟩,
  ⟨{ (((queued [] []).setReg .syncCtx 0 7 0x10).setReg .syncCtxLen 0 7 1).setReg .syncFnCtx 0 15 263 with sync := { xbad := [0] } },
    by decide +kernel, 255, rec_ 64 [(0, 1, 3), (4, 2, 1023), (20, 4, 0x800000)], _, _, rfl, rfl, by decide +kernel, _, by decide +kernel, rfl,
    by decide +kernel, true, _, rfl, _, by decide +kernel, rfl, by decide +kernel⟩,
  ⟨queued [] [{ take := 0, for_ := .queue 255, held := true, op := 3, vol := 1023, tag := 31 }], by decide +kernel, 255,
    rec_ 64 [(0, 1, 3), (4, 2, 1023), (2, 1, 30)], _, _, rfl, rfl, by decide +kernel, _, by decide +kernel, rfl, by decide +kernel, true, _, rfl, _,
    by decide +kernel, rfl, by decide +kernel, _, by decide +kernel, rfl, by decide +kernel⟩,
  ⟨queued [] [{ take := 0, for_ := .queue 255, held := true, op := 3, vol := 1023, tag := 31 }], by decide +kernel, 255,
    rec_ 64 [(0, 1, 4), (4, 2, 1023), (2, 1, 30), (16, 4, 1)], _, _, rfl, rfl, by decide +kernel, _, by decide +kernel, rfl, by decide +kernel, true,
    _, rfl, _, by decide +kernel, rfl, by decide +kernel, _, by decide +kernel, rfl, by decide +kernel⟩,
  ⟨{ { State.reset with sto := { drives := [(3, {})], ops := [] } } with tb := { State.reset.tb with ticks := 0 } }, by decide +kernel, 3, 7, _,
    by decide +kernel, rfl, 0, by decide +kernel⟩,
  ⟨{ { State.reset with sto := { drives := [(3, { accepted := true, cmds := [⟨7, .part 9 0, 5⟩] })], ops := [] } } with tb := { State.reset.tb with ticks := 0 } },
    _, by decide +kernel, 3, 7, _, ⟨7, .part 9 0, 5⟩, [], by decide +kernel, rfl, 1, by decide +kernel, rfl⟩,
  ⟨{ { State.reset with sto := { drives := [(3, { accepted := true, cmds := [⟨7, .part 9 0, 5⟩] })], ops := [] } } with tb := { State.reset.tb with ticks := 0 } },
    by decide +kernel, 3, _, by decide +kernel, rfl⟩,
  ⟨{ { State.reset with sto := { drives := [(3, { accepted := true, cmds := [⟨7, .part 9 0, 5⟩] })], ops := [{ take := 9, for_ := .queue 255, held := true, op := 2, parts := [{ kind := .write, unit := 0, lo := 0, n := 1, off := 0 }] }] } } with tb := { State.reset.tb with ticks := 0 } },
    by decide +kernel, 3, _, by decide +kernel, rfl, 9, 0,
    { take := 9, for_ := .queue 255, held := true, op := 2, parts := [{ kind := .write, unit := 0, lo := 0, n := 1, off := 0 }] },
    { kind := .write, unit := 0, lo := 0, n := 1, off := 0 }, 1, by decide +kernel⟩,
  ⟨{ { State.reset with sto := { drives := [(3, { accepted := true, cmds := [⟨7, .vol 1 (.delete 1023), 5⟩] })], ops := [] } } with tb := { State.reset.tb with ticks := 0 } },
    by decide +kernel, 3, _, by decide +kernel, rfl⟩,
  ⟨{ { State.reset with sto := { drives := [(3, { accepted := true, cmds := [⟨7, .part 9 0, 5⟩] })], ops := [{ take := 9, for_ := .queue 255, held := true, op := 2, parts := [{ kind := .write, unit := 0, lo := 0, n := 1, off := 0 }] }] } } with tb := { State.reset.tb with ticks := 0 } },
    by decide +kernel, 3, _, by decide +kernel, rfl⟩,
  ⟨{ { State.reset with sto := { drives := [(3, { accepted := true, cmds := [⟨7, .apst, 5⟩] })], ops := [] } } with tb := { State.reset.tb with ticks := 4 } },
    by decide +kernel, 3, 7, _, ⟨7, .apst, 5⟩, [], by decide +kernel, rfl, by decide +kernel⟩,
  ⟨{ State.reset with sto := { drives := [(3, { accepted := true, cmds := [⟨7, .apst, 4⟩] })] }, tb := { State.reset.tb with ticks := 4 } }, _,
    by decide +kernel, 3, 7, _, ⟨7, .apst, 4⟩, [], by decide +kernel, rfl, by decide +kernel, rfl⟩,
  ⟨{ { State.reset with sto := { drives := [(3, { accepted := true, cmds := [⟨7, .vol 1 (.delete 1023), 5⟩] })], ops := [] } } with tb := { State.reset.tb with ticks := 0 } },
    by decide +kernel, 3, _, by decide +kernel, rfl⟩,
  ⟨{ { State.reset with sto := { drives := [(3, { accepted := true, resetDue := some 9 })], ops := [] } } with tb := { State.reset.tb with ticks := 0 } },
    by decide +kernel, 3, _, by decide +kernel, rfl, 9, by decide +kernel⟩,
  ⟨{ State.reset with sto := { drives := [(3, { accepted := true, failed := true, resetDue := some 9 })] } }, by decide +kernel, 3, _,
    by decide +kernel, rfl, 9, by decide +kernel⟩,
  ⟨{ { State.reset with sto := { drives := [(3, { accepted := true, resetDue := some 9 })], ops := [] } } with tb := { State.reset.tb with ticks := 9 } },
    by decide +kernel, 3, _, by decide +kernel, rfl, 9, by decide +kernel⟩,
  ⟨{ { State.reset with sto := { drives := [(3, { accepted := true, resetDue := some 9 })], ops := [] } } with tb := { State.reset.tb with ticks := 8 } },
    by decide +kernel, 3, _, by decide +kernel, rfl, 9, by decide +kernel⟩,
  ⟨{ { State.reset with sto := { drives := [(3, {})], ops := [] } } with tb := { State.reset.tb with ticks := 0 } }, by decide +kernel, 3, _,
    by decide +kernel, rfl, by decide +kernel⟩,
  ⟨{ { State.reset with sto := { drives := [(3, { accepted := true })], ops := [] } } with tb := { State.reset.tb with ticks := 0 } },
    by decide +kernel, 3, _, by decide +kernel, rfl, by decide +kernel⟩,
  ⟨{ State.reset with sto := { drives := [(3, { accepted := true, failed := true })] } }, by decide +kernel, 3, _, by decide +kernel, rfl,
    by decide +kernel⟩,
  ⟨{ { State.reset with sto := { drives := [(3, {})], ops := [] } } with tb := { State.reset.tb with ticks := 0 } }, by decide +kernel, 3, _,
    by decide +kernel, rfl, by decide +kernel⟩,
  ⟨{ { State.reset with sto := { drives := [(3, {})], ops := [] } } with tb := { State.reset.tb with ticks := 0 } }, by decide +kernel, 3, _,
    by decide +kernel, rfl, ⟨true, true, 2 ^ 19 - 1, true, 4, 5, [], none, []⟩, _, by decide +kernel, rfl, by decide +kernel⟩,
  ⟨{ { State.reset with sto := { drives := [(3, {})], ops := [] } } with tb := { State.reset.tb with ticks := 0 } }, by decide +kernel, 3, _,
    by decide +kernel, rfl, ⟨true, true, 2 ^ 19, true, 4, 5, [], none, []⟩, _, by decide +kernel, rfl, by decide +kernel⟩,
  ⟨{ { State.reset with sto := { drives := [(3, { test := some ⟨1, true, true, [9]⟩ })], ops := [] } } with tb := { State.reset.tb with ticks := 0 } },
    _, by decide +kernel, 3, _, by decide +kernel, rfl, ⟨1, true, true, [9]⟩, by decide +kernel, rfl⟩,
  ⟨{ { State.reset with sto := { drives := [(3, {})], ops := [] } } with tb := { State.reset.tb with ticks := 0 } }, by decide +kernel, 3, _,
    by decide +kernel, rfl, by decide +kernel⟩,
  ⟨{ State.reset with sto := { drives := [(3, { test := some ⟨1, false, true, [9]⟩ })] } }, by decide +kernel, 3, _, by decide +kernel, rfl, ⟨1,
    false, true, [9]⟩, by decide +kernel⟩,
  ⟨{ State.reset with sto := { drives := [(3, { accepted := true, test := some ⟨1, false, false, [9]⟩ })] }, tb := { State.reset.tb with ticks := 255000000 } },
    by decide +kernel, 3, _, by decide +kernel, rfl, ⟨1, false, false, [9]⟩, by decide +kernel⟩,
  ⟨{ { State.reset with sto := { drives := [(3, { accepted := true, test := some ⟨1, false, true, [9]⟩ })], ops := [] } } with tb := { State.reset.tb with ticks := 255000000 } },
    _, by decide +kernel, 3, 7, _, by decide +kernel, rfl, ⟨1, false, true, [9]⟩, by decide +kernel, rfl⟩,
  ⟨{ State.reset with sto := { drives := [(3, { test := some ⟨1, true, false, [9]⟩ })] } }, by decide +kernel, 3, _, by decide +kernel, rfl, ⟨1,
    true, false, [9]⟩, by decide +kernel⟩,
  ⟨{ { State.reset with sto := { ops := [{ take := 9, for_ := .queue 255, held := true, op := 6, limit := some 5 }] } } with tb := { State.reset.tb with ticks := 5 } },
    by decide +kernel, 9, 5, { take := 9, for_ := .queue 255, held := true, op := 6, limit := some 5 }, by decide +kernel⟩,
  ⟨{ { State.reset with sto := { ops := [{ take := 9, for_ := .queue 255, held := true, op := 6, limit := some 5 }] } } with tb := { State.reset.tb with ticks := 4 } },
    by decide +kernel, 9, 5, { take := 9, for_ := .queue 255, held := true, op := 6, limit := some 5 }, by decide +kernel⟩⟩

/-- States and operands that meet the hypotheses of `RegisterMap_RoundTrip`, clause by clause. -/
theorem witness_RegisterMap_RoundTrip :
    (∃ (r : Reg) (i j w : Nat), (i < blkCount (regRow r).blk ∧ j < (regRow r).count ∧ w < (regRow r).words) ∧ ∃ (n : _) (e : _),
      (regRow r).blk = .me ∧ i = 2 * n + e ∧ e < 2) :=
  ⟨.meLastZero, _, 0, 0, by decide +kernel, 31, 1, by decide +kernel, rfl, by decide +kernel⟩

end Sys2Proof.Tests
end

section
/-! PROOFS. The arithmetic of a dot product (R56 to R60, R63): exact grain sums, terms rounded to nearest even, saturating tallies, running
sums that the order of their grains does not change. -/
namespace Sys2Proof.Machine

open Sys2Proof

/-! ### Grain sums are exact (R56) -/

/-- The dyadic `g = m × 2^e` is `n` units of `2^k`, no bit of it lying below the unit. -/
def IsUnits (k : Int) (g : Int × Int) (n : Int) : Prop :=
  (g.1 = 0 ∨ k ≤ g.2) ∧ g.1 * 2 ^ (g.2 - k).toNat = n

theorem two_pow_toNat_sub_mul {k c e : Int} (hk : k ≤ c) (hc : c ≤ e) :
    (2 : Int) ^ (e - c).toNat * 2 ^ (c - k).toNat = 2 ^ (e - k).toNat := by
  rw [← Int.pow_add]
  congr 1
  omega

/-- Dyadic addition is exact in every unit that divides both sides. -/
theorem IsUnits.dyAdd {k x y : Int} {g h : Int × Int} (hg : IsUnits k g x) (hh : IsUnits k h y) :
    IsUnits k (dyAdd g h) (x + y) := by
  obtain ⟨hg, rfl⟩ := hg
  obtain ⟨hh, rfl⟩ := hh
  by_cases g0 : g.1 = 0
  · simp [Machine.dyAdd, g0, IsUnits, hh]
  by_cases h0 : h.1 = 0
  · simp [Machine.dyAdd, g0, h0, IsUnits, hg.resolve_left g0]
  have kg := hg.resolve_left g0
  have kh := hh.resolve_left h0
  have km : k ≤ min g.2 h.2 := Int.le_min.2 ⟨kg, kh⟩
  have hsum : Machine.dyAdd g h = (g.1 * 2 ^ (g.2 - min g.2 h.2).toNat + h.1 * 2 ^ (h.2 - min g.2 h.2).toNat, min g.2 h.2) := by
    simp [Machine.dyAdd, g0, h0]
  rw [hsum]
  refine ⟨.inr km, ?_⟩
  rw [Int.add_mul, Int.mul_assoc, Int.mul_assoc, two_pow_toNat_sub_mul km (Int.min_le_left ..), two_pow_toNat_sub_mul km (Int.min_le_right ..)]

/-- The product of two finite elements as the unit multiplies them: significands multiplied, exponents added. -/
def finProd (q : (Int × Int) × (Int × Int)) : Int × Int := (q.1.1 * q.2.1, q.1.2 + q.2.2)

theorem grainSum_fin (l : List ((Int × Int) × (Int × Int))) :
    grainSum (l.map fun q => .fin q.1.1 q.1.2) (l.map fun q => .fin q.2.1 q.2.2) =
      (l.foldl (fun g q => dyAdd g (finProd q)) (0, 0), 0) := by
  unfold grainSum
  rw [List.zip_map', List.foldl_map]
  exact List.foldl_hom (fun g => (g, 0)) fun _ _ => rfl

theorem isUnits_foldl_dyAdd {k : Int} : ∀ (l : List ((Int × Int) × (Int × Int))) {g : Int × Int} {x : Int}, IsUnits k g x →
    (∀ q ∈ l, k ≤ q.1.2 + q.2.2) →
    IsUnits k (l.foldl (fun g q => dyAdd g (finProd q)) g) (x + (l.map fun q => q.1.1 * q.2.1 * 2 ^ (q.1.2 + q.2.2 - k).toNat).sum)
  | [], g, x, hg, _ => by simpa using hg
  | q :: l, g, x, hg, hl => by
    obtain ⟨hq, hl⟩ := List.forall_mem_cons.1 hl
    have hp : IsUnits k (finProd q) (q.1.1 * q.2.1 * 2 ^ (q.1.2 + q.2.2 - k).toNat) := ⟨.inr hq, rfl⟩
    simpa [Int.add_assoc] using isUnits_foldl_dyAdd l (hg.dyAdd hp) hl

/-! ### Terms are rounded to nearest even (R57) -/

/-- `n × 2^k` is a multiple of `2^k` nearest to `m`, and `n` is even where two are equally near. -/
def NearestEven (k : Nat) (m n : Int) : Prop :=
  2 * (n * 2 ^ k - m).natAbs ≤ 2 ^ k ∧ (2 * (n * 2 ^ k - m).natAbs = 2 ^ k → n % 2 = 0)

theorem NearestEven.neg {k : Nat} {m n : Int} (h : NearestEven k m n) : NearestEven k (-m) (-n) := by
  have e : (-n * 2 ^ k - -m).natAbs = (n * 2 ^ k - m).natAbs := by
    rw [Int.neg_mul, ← Int.natAbs_neg, show -(-(n * 2 ^ k) - -m) = n * 2 ^ k - m by omega]
  unfold NearestEven at h ⊢
  rw [e]
  exact ⟨h.1, fun tie => by have := h.2 tie; omega⟩

/-- A nearest multiple is the number itself exactly where that is a multiple. -/
theorem NearestEven.mul_eq_iff {k : Nat} {m n : Int} (h : NearestEven k m n) : n * 2 ^ k = m ↔ 2 ^ k ∣ m := by
  refine ⟨fun e => ⟨n, by rw [← e, Int.mul_comm]⟩, ?_⟩
  rintro ⟨c, rfl⟩
  have hle := h.1
  rw [Int.mul_comm (2 ^ k) c, ← Int.sub_mul, Int.natAbs_mul, Int.natAbs_pow, ← Nat.mul_assoc] at hle
  have hc : 2 * (n - c).natAbs ≤ 1 := Nat.le_of_mul_le_mul_right (by simpa using hle) (Nat.two_pow_pos k)
  rw [Int.mul_comm (2 ^ k) c, show n = c by omega]

/-- `rneNat` keeps the quotient or takes the next one, by the remainder's place against one half. -/
theorem rneNat_cases (n k : Nat) :
    (rneNat n k = n / 2 ^ k ∧ (2 * (n % 2 ^ k) < 2 ^ k ∨ 2 * (n % 2 ^ k) = 2 ^ k ∧ n / 2 ^ k % 2 = 0)) ∨
      (rneNat n k = n / 2 ^ k + 1 ∧ (2 ^ k < 2 * (n % 2 ^ k) ∨ 2 * (n % 2 ^ k) = 2 ^ k ∧ n / 2 ^ k % 2 = 1)) := by
  unfold rneNat
  rw [Nat.shiftRight_eq_div_pow]
  by_cases k0 : k = 0
  · simp [k0, Nat.mod_one]
  rw [if_neg k0]
  by_cases above : 2 * (n % 2 ^ k) > 2 ^ k
  · exact .inr ⟨if_pos above, .inl above⟩
  rw [if_neg above]
  by_cases tie : 2 * (n % 2 ^ k) = 2 ^ k
  · rw [if_pos tie]
    obtain even | odd := Nat.mod_two_eq_zero_or_one (n / 2 ^ k)
    · exact .inl ⟨by rw [even, Nat.add_zero], .inr ⟨tie, even⟩⟩
    · exact .inr ⟨by rw [odd], .inr ⟨tie, odd⟩⟩
  · exact .inl ⟨if_neg tie, .inl (by omega)⟩

theorem nearestEven_rneNat (n k : Nat) : NearestEven k n (rneNat n k) := by
  have hn : ((n / 2 ^ k : Nat) : Int) * 2 ^ k + (n % 2 ^ k : Nat) = n := by exact_mod_cast Nat.div_add_mod' n (2 ^ k)
  have hP : ((2 ^ k : Nat) : Int) = 2 ^ k := Int.natCast_pow 2 k
  obtain ⟨hq, hr⟩ | ⟨hq, hr⟩ := rneNat_cases n k
  · have hd : ((rneNat n k : Nat) : Int) * 2 ^ k - n = -(n % 2 ^ k : Nat) := by rw [hq]; omega
    unfold NearestEven
    rw [hd]
    omega
  · have hd : ((rneNat n k : Nat) : Int) * 2 ^ k - n = (2 ^ k : Nat) - (n % 2 ^ k : Nat) := by
      rw [hq, hP, Int.natCast_add, Int.add_mul]; omega
    have hlt := Nat.mod_lt n (Nat.two_pow_pos k)
    unfold NearestEven
    rw [hd]
    omega

@[simp] theorem rneNat_zero (k : Nat) : rneNat 0 k = 0 := by
  simp [rneNat]

theorem rneInt_neg (m s : Int) : rneInt (-m) s = -rneInt m s := by
  unfold rneInt
  rw [Int.natAbs_neg]
  obtain hm | rfl | hm := Int.lt_trichotomy m 0
  · simp [hm, Int.not_lt.2 (Int.le_of_lt hm)]
  · simp
  · simp [hm, Int.not_lt.2 (Int.le_of_lt hm)]

theorem rneInt_natCast_of_neg (n : Nat) {s : Int} (hs : s < 0) : rneInt n s = rneNat n (-s).toNat := by
  rw [rneInt, if_neg (Int.not_lt.2 (Int.natCast_nonneg n)), if_neg (Int.not_le.2 hs), Int.natAbs_natCast]

theorem rneInt_natCast_of_nonneg (n : Nat) {s : Int} (hs : 0 ≤ s) : rneInt n s = n * 2 ^ s.toNat := by
  rw [rneInt, if_neg (Int.not_lt.2 (Int.natCast_nonneg n)), if_pos hs, Int.natAbs_natCast, Int.natCast_mul, Int.natCast_pow]
  rfl

/-- At or above the anchor's weight nothing is rounded. -/
theorem rneInt_of_nonneg (m : Int) {s : Int} (hs : 0 ≤ s) : rneInt m s = m * 2 ^ s.toNat := by
  obtain ⟨n, rfl | rfl⟩ := Int.eq_nat_or_neg m
  · exact rneInt_natCast_of_nonneg n hs
  · rw [rneInt_neg, rneInt_natCast_of_nonneg n hs, Int.neg_mul]

theorem nearestEven_rneInt (m : Int) {s : Int} (hs : s < 0) : NearestEven (-s).toNat m (rneInt m s) := by
  obtain ⟨n, rfl | rfl⟩ := Int.eq_nat_or_neg m
  · rw [rneInt_natCast_of_neg n hs]
    exact nearestEven_rneNat n _
  · rw [rneInt_neg, rneInt_natCast_of_neg n hs]
    exact (nearestEven_rneNat n _).neg

theorem term_of_anchor_le {m e a : Int} (h : a ≤ e) : term (m, e) a = (m * 2 ^ (e - a).toNat, false) := by
  have hs : 0 ≤ e - a := by omega
  rw [term, rneInt_of_nonneg m hs, decide_eq_false (Int.not_lt.2 hs), Bool.false_and]

theorem nearestEven_term (m : Int) {e a : Int} (h : e < a) : NearestEven (a - e).toNat m (term (m, e) a).1 := by
  have := nearestEven_rneInt m (s := e - a) (by omega)
  rwa [Int.neg_sub] at this

theorem term_neg (m e a : Int) : term (-m, e) a = (-(term (m, e) a).1, (term (m, e) a).2) := by
  simp [term, rneInt_neg]

/-- The mark of a term says that bits below the anchor's weight were discarded. -/
theorem term_marked_iff {m e a : Int} (h : e < a) : (term (m, e) a).2 = true ↔ ¬ (2 : Int) ^ (a - e).toNat ∣ m := by
  have hs : e - a < 0 := by omega
  have hd : (2 : Int) ^ (a - e).toNat ∣ m ↔ 2 ^ (a - e).toNat ∣ m.natAbs := by
    rw [← Int.natAbs_dvd_natAbs, Int.natAbs_pow]
    rfl
  rw [hd, Nat.dvd_iff_mod_eq_zero]
  simp only [term, hs, decide_true, Bool.true_and, decide_eq_true_eq, ne_eq, Int.neg_sub]

/-! ### Tallies (R58, R60) -/

/-- The range of R58. -/
def InTally (x : Int) : Prop := -2 ^ 127 ≤ x ∧ x ≤ 2 ^ 127 - 1

theorem satInt_of_inTally {x : Int} (h : InTally x) : satInt 128 x = (x, false) := by
  obtain ⟨lo, hi⟩ := h
  unfold satInt
  rw [if_neg (by omega), if_neg (by omega)]

theorem satInt_of_above {x : Int} (h : 2 ^ 127 ≤ x) : satInt 128 x = (2 ^ 127 - 1, true) := by
  unfold satInt
  rw [if_pos (by omega)]
  rfl

theorem satInt_of_below {x : Int} (h : x < -2 ^ 127) : satInt 128 x = (-2 ^ 127, true) := by
  unfold satInt
  rw [if_neg (by omega), if_pos (by omega)]
  rfl

theorem toInt_ofInt_of_inTally {x : Int} (h : InTally x) : (BitVec.ofInt 128 x).toInt = x :=
  BitVec.toInt_ofInt_eq_self (by decide) h.1 (by have := h.2; omega)

theorem Tally.add_of_sat {t : Tally} (h : t.tag.getLsbD 3 = true) (x : Int) : t.add x = t := by
  rw [Tally.add, if_pos h]

theorem Tally.add_of_not_sat {t : Tally} (h : t.tag.getLsbD 3 = false) (x : Int) :
    t.add x = { v := BitVec.ofInt 128 (satInt 128 (t.v.toInt + x)).1
                tag := if (satInt 128 (t.v.toInt + x)).2 then t.tag ||| 8 else t.tag } := by
  rw [Tally.add, h]
  rfl

/-- Inside the range an addition is addition of bit vectors, and the tag stays. -/
theorem Tally.add_of_inTally {t : Tally} {x : Int} (h : t.tag.getLsbD 3 = false) (hx : InTally (t.v.toInt + x)) :
    t.add x = { t with v := t.v + BitVec.ofInt 128 x } := by
  simp [Tally.add_of_not_sat h, satInt_of_inTally hx, BitVec.ofInt_add]

theorem toInt_add_ofInt_of_inTally {v : BitVec 128} {x : Int} (h : InTally (v.toInt + x)) :
    (v + BitVec.ofInt 128 x).toInt = v.toInt + x := by
  rw [← toInt_ofInt_of_inTally h, BitVec.ofInt_add, BitVec.ofInt_toInt]

theorem Tally.add_above {t : Tally} {x : Int} (h : t.tag.getLsbD 3 = false) (hx : 2 ^ 127 ≤ t.v.toInt + x) :
    (t.add x).v.toInt = 2 ^ 127 - 1 ∧ (t.add x).tag = t.tag ||| 8 := by
  rw [Tally.add_of_not_sat h, satInt_of_above hx]
  exact ⟨toInt_ofInt_of_inTally (by unfold InTally; omega), rfl⟩

theorem Tally.add_below {t : Tally} {x : Int} (h : t.tag.getLsbD 3 = false) (hx : t.v.toInt + x < -2 ^ 127) :
    (t.add x).v.toInt = -2 ^ 127 ∧ (t.add x).tag = t.tag ||| 8 := by
  rw [Tally.add_of_not_sat h, satInt_of_below hx]
  exact ⟨toInt_ofInt_of_inTally (by unfold InTally; omega), rfl⟩

/-- With NAN, PINF and NINF clear the element is the finite value T × 2^a. -/
theorem Tally.el_of_finite {t : Tally} (a : Int) (h : t.tag &&& 7 = 0) : t.el a = .fin t.v.toInt a := by
  have bits : ∀ g : BitVec 4, g &&& 7 = 0 → g.getLsbD 0 = false ∧ g.getLsbD 1 = false ∧ g.getLsbD 2 = false := by decide
  obtain ⟨nan, pinf, ninf⟩ := bits t.tag h
  rw [Tally.el, nan, pinf, ninf]
  rfl

/-! ### The tags of products never set SAT (R59) -/

theorem prodEl_tag_lt (x y : El) : (prodEl x y).2 < 2 ^ 3 := by
  unfold prodEl tagNan tagPinf tagNinf
  split <;> grind

theorem grainSum_tag_lt (x y : List El) : (grainSum x y).2 < 2 ^ 3 := by
  unfold grainSum
  refine List.foldlRecOn (x.zip y) _ (motive := fun g : (Int × Int) × Nat => g.2 < 2 ^ 3) (by decide) ?_
  intro g hg p _
  exact Nat.or_lt_two_pow hg (prodEl_tag_lt p.1 p.2)

theorem Tally.orTag_sat (t : Tally) {k : Nat} (hk : k < 2 ^ 3) : (t.orTag k).tag.getLsbD 3 = t.tag.getLsbD 3 := by
  rw [Tally.orTag, BitVec.getLsbD_or, BitVec.getLsbD_ofNat, Nat.testBit_lt_two_pow hk, Bool.and_false, Bool.or_false]

/-! ### Running sums (R63) -/

/-- The term of a grain pair. -/
def termOf (a : Int) (p : List El × List El) : Int := (term (grainSum p.1 p.2).1 a).1

/-- The running sum over grain pairs, as the engine takes them. -/
def dotRun (a : Int) (d : Dot) (ps : List (List El × List El)) : Dot := ps.foldl (fun d p => dotStep a d p.1 p.2) d

/-- One pair's step where no sum leaves the range: the tally adds without a test, and nothing saturates. -/
def freeStep (a : Int) (d : Dot) (p : List El × List El) : Dot :=
  let g := grainSum p.1 p.2
  { t := { v := d.t.v + BitVec.ofInt 128 (termOf a p), tag := d.t.tag ||| BitVec.ofNat 4 g.2 }
    inexact := d.inexact + if (term g.1 a).2 then 1 else 0
    zero := d.zero + if g.1.1 ≠ 0 ∧ (term g.1 a).1 = 0 then 1 else 0
    tags := d.tags ||| g.2
    inf := d.inf || p.1.any isInf || p.2.any isInf
    sat := d.sat }

theorem freeStep_right_comm (a : Int) (d : Dot) (p q : List El × List El) :
    freeStep a (freeStep a d p) q = freeStep a (freeStep a d q) p := by
  simp only [freeStep, Dot.mk.injEq, Tally.mk.injEq]
  refine ⟨⟨by ac_rfl, by ac_rfl⟩, by omega, by omega, by ac_rfl, by ac_rfl, trivial⟩

theorem dotStep_eq_freeStep {a : Int} {d : Dot} {p : List El × List El} (ht : d.t.tag.getLsbD 3 = false)
    (h : InTally (d.t.v.toInt + termOf a p)) : dotStep a d p.1 p.2 = freeStep a d p := by
  have hadd := Tally.add_of_inTally ht h
  unfold termOf at hadd
  simp [dotStep, freeStep, hadd, Tally.orTag, termOf]

theorem freeStep_not_sat {a : Int} {d : Dot} {p : List El × List El} (ht : d.t.tag.getLsbD 3 = false) :
    (freeStep a d p).t.tag.getLsbD 3 = false := by
  rw [← ht]
  exact Tally.orTag_sat d.t (grainSum_tag_lt p.1 p.2)

/-- Adding the terms one by one to `x`, every partial sum lies in the range of R58. -/
def StaysInTally (a x : Int) (ps : List (List El × List El)) : Prop := ∀ n, InTally (x + ((ps.map (termOf a)).take n).sum)

theorem StaysInTally.head {a x : Int} {p : List El × List El} {ps : List (List El × List El)} (h : StaysInTally a x (p :: ps)) :
    InTally (x + termOf a p) := by
  simpa using h 1

theorem StaysInTally.tail {a x : Int} {p : List El × List El} {ps : List (List El × List El)} (h : StaysInTally a x (p :: ps)) :
    StaysInTally a (x + termOf a p) ps := by
  intro n
  simpa [Int.add_assoc] using h (n + 1)

/-- While no sum leaves the range, the engine's sum is the sum without the test, and its tally is the integer sum of the terms. -/
theorem dotRun_of_staysInTally {a : Int} : ∀ (ps : List (List El × List El)) {d : Dot}, d.t.tag.getLsbD 3 = false →
    StaysInTally a d.t.v.toInt ps →
    dotRun a d ps = ps.foldl (freeStep a) d ∧ (dotRun a d ps).t.v.toInt = d.t.v.toInt + (ps.map (termOf a)).sum ∧
      (dotRun a d ps).sat = d.sat
  | [], d, _, _ => by simp [dotRun]
  | p :: ps, d, ht, h => by
    have hstep := dotStep_eq_freeStep ht h.head
    have hv : (freeStep a d p).t.v.toInt = d.t.v.toInt + termOf a p := toInt_add_ofInt_of_inTally h.head
    obtain ⟨hrun, hsum, hsat⟩ := dotRun_of_staysInTally ps (freeStep_not_sat ht) (hv ▸ h.tail)
    have hcons : dotRun a d (p :: ps) = dotRun a (freeStep a d p) ps := congrArg (dotRun a · ps) hstep
    rw [hcons]
    exact ⟨hrun, by rw [hsum, hv, List.map_cons, List.sum_cons, Int.add_assoc], hsat⟩

/-- Tally, tag and counts do not depend on the order of the grain pairs. -/
theorem dotRun_perm {a : Int} {ps qs : List (List El × List El)} {d : Dot} (hp : qs.Perm ps) (ht : d.t.tag.getLsbD 3 = false)
    (h : StaysInTally a d.t.v.toInt ps) (h' : StaysInTally a d.t.v.toInt qs) : dotRun a d qs = dotRun a d ps := by
  rw [(dotRun_of_staysInTally ps ht h).1, (dotRun_of_staysInTally qs ht h').1]
  exact hp.foldl_eq' (fun p _ q _ d => freeStep_right_comm a d p q) d

/-- The tally of a running sum depends on the tally it started from alone, not on the counts beside it. -/
theorem dotRun_t (a : Int) (d : Dot) (ps : List (List El × List El)) : (dotRun a d ps).t = (dotRun a { t := d.t } ps).t := by
  have tally : ∀ d : Dot, (dotRun a d ps).t = ps.foldl (fun t p => (dotStep a { t := t } p.1 p.2).t) d.t := fun d =>
    (List.foldl_hom Dot.t fun _ _ => rfl).symm
  rw [tally, tally]

theorem dotRun_append (a : Int) (d : Dot) (ps qs : List (List El × List El)) :
    dotRun a d (ps ++ qs) = dotRun a (dotRun a d ps) qs :=
  List.foldl_append

/-- Settles O27: each part of R56, R57, R58, R60 and R63 by its lemma above; the order of the grains by comparing with the sum that
never tests the range, whose steps commute. -/
theorem tally_Sums : Obligations.Tally_Sums := by
  unfold Obligations.Tally_Sums
  rintro a t w run rfl rfl
  refine ⟨fun l k hl => ?_, fun m e => ⟨term_of_anchor_le, fun h => ?_⟩, fun x ht => ⟨fun lo hi => ?_, Tally.add_above ht, Tally.add_below ht⟩,
    fun x ht => Tally.add_of_sat ht x, Tally.el_of_finite a, fun ps qs hp ht h h' => ?_, fun ps qs => ?_⟩
  · obtain ⟨hlow, hsum⟩ := isUnits_foldl_dyAdd l (k := k) (g := (0, 0)) (x := 0) ⟨.inl rfl, Int.zero_mul _⟩ hl
    exact ⟨_, _, grainSum_fin l, hlow, hsum.trans (Int.zero_add _)⟩
  · have near := nearestEven_term m h
    exact ⟨_, rfl, near.1, near.2, term_neg m e a, (term_marked_iff h).trans (not_congr near.mul_eq_iff.symm)⟩
  · rw [Tally.add_of_inTally ht ⟨lo, hi⟩]
    exact ⟨toInt_add_ofInt_of_inTally ⟨lo, hi⟩, rfl⟩
  · obtain ⟨-, hsum, hsat⟩ := dotRun_of_staysInTally (a := a) (d := { t := t }) ps ht h
    exact ⟨dotRun_perm hp ht h h', hsum, hsat⟩
  · exact (congrArg Dot.t (dotRun_append a { t := t } ps qs)).trans (dotRun_t a _ qs)

end Sys2Proof.Machine
end

section
/-! PROOFS. The register map (R10, R44, R79): a block's instances lie apart, a register's copies lie apart, the registers of a block lie
apart; so `blkOf` and `regIn` find at an offset the block, instance, register, copy and word it was built from. -/
namespace Sys2Proof.Machine

open Sys2Proof

/-! ### Where a register lies in its block -/

/-- Byte `x` of copy `j` of a register lies at offset `o` of its block. -/
def RegRow.At (row : RegRow) (o j x : Nat) : Prop :=
  o = row.off + row.stride * j + x ∧ j < row.count ∧ x < 4 * row.words

/-- The copies of a register do not overlap. -/
abbrev RegRow.Spaced (row : RegRow) : Prop :=
  row.stride = 0 ∧ row.count = 1 ∨ 4 * row.words ≤ row.stride

/-- All copies of `p` lie below those of `q`, or the two alternate at one stride, `p` first. -/
abbrev RegRow.Below (p q : RegRow) : Prop :=
  p.off + p.stride * (p.count - 1) + 4 * p.words ≤ q.off ∨
    p.stride = q.stride ∧ p.off + 4 * p.words ≤ q.off ∧ q.off + 4 * q.words ≤ p.off + p.stride

/-- Neither register's copies meet the other's. -/
abbrev RegRow.Apart (p q : RegRow) : Prop := p.Below q ∨ q.Below p

theorem RegRow.At.lt_end {row : RegRow} {o j x : Nat} (h : row.At o j x) :
    o < row.off + row.stride * (row.count - 1) + 4 * row.words := by
  obtain ⟨rfl, hj, hx⟩ := h
  have := Nat.mul_le_mul_left row.stride (Nat.le_sub_one_of_lt hj)
  omega

/-- Registers that alternate would have to meet at one remainder of the offset by their stride. -/
theorem RegRow.At.not_below {p q : RegRow} {o j x k y : Nat} (hp : p.At o j x) (hq : q.At o k y) : ¬ p.Below q := by
  rintro (hend | ⟨hs, hpq, hqp⟩)
  · have := hp.lt_end
    obtain ⟨rfl, -, -⟩ := hq
    omega
  · obtain ⟨rfl, -, hx⟩ := hp
    obtain ⟨ho, -, hy⟩ := hq
    rw [← hs] at ho
    have hmod : (p.stride * j + x) % p.stride = (p.stride * k + (q.off - p.off + y)) % p.stride := by
      congr 1
      omega
    rw [Nat.mul_add_mod, Nat.mul_add_mod, Nat.mod_eq_of_lt (by omega), Nat.mod_eq_of_lt (by omega)] at hmod
    omega

/-! ### Finding the register at an offset of its block -/

theorem regIn_cons_of_at {r : Reg} {o j x : Nat} (i : Nat) (t : List Reg) (hs : (regRow r).Spaced) (h : (regRow r).At o j x) :
    regIn (regRow r).blk i o (r :: t) = some (r, i, j, x / 4) := by
  obtain ⟨rfl, hj, hx⟩ := h
  rw [regIn, Nat.add_assoc, Nat.add_sub_cancel_left]
  obtain ⟨hz, hc⟩ | hs := hs
  · obtain rfl : j = 0 := by omega
    simp [hz, hc, hx]
  · have hlt : x < (regRow r).stride := by omega
    have hpos : 0 < (regRow r).stride := by omega
    simp [Nat.ne_of_gt hpos, Nat.mul_add_div hpos, Nat.div_eq_of_lt hlt, Nat.mod_eq_of_lt hlt, hj, hx]

theorem regIn_cons_of_not_at {r : Reg} {o : Nat} (b : Blk) (i : Nat) (t : List Reg) (h : ∀ j x, ¬ (regRow r).At o j x) :
    regIn b i o (r :: t) = regIn b i o t := by
  rw [regIn]
  refine if_neg ?_
  rintro ⟨ho, hj, hx, -⟩
  refine h _ _ ⟨?_, hj, hx⟩
  split
  · omega
  · rw [Nat.add_assoc, Nat.div_add_mod, Nat.add_sub_cancel' ho]

/-- Where no two registers of a list overlap, the search finds the one that holds the byte. -/
theorem regIn_of_mem {r : Reg} {o j x : Nat} (i : Nat) (hs : (regRow r).Spaced) (h : (regRow r).At o j x) :
    ∀ {l : List Reg}, l.Pairwise (fun p q => (regRow p).Apart (regRow q)) → r ∈ l →
      regIn (regRow r).blk i o l = some (r, i, j, x / 4)
  | q :: l, hl, hr => by
    obtain ⟨hq, hl⟩ := List.pairwise_cons.1 hl
    obtain rfl | hr := List.mem_cons.1 hr
    · exact regIn_cons_of_at i l hs h
    · have hnot : ∀ k y, ¬ (regRow q).At o k y := fun k y hk => (hq r hr).elim (hk.not_below h) (h.not_below hk)
      rw [regIn_cons_of_not_at _ i l hnot, regIn_of_mem i hs h hl hr]

/-! ### What the tables hold -/

/-- The bytes that an instance of a block has to itself (R44); of the two kinds of memory channel, the smaller number. -/
def blkSize : Blk → Nat
  | .glb | .sync | .tel => 0x100000
  | .hif => 0x100
  | .hifPort => 0x40
  | .tb => 0xFE000
  | .hbmG => 0x80000
  | .seamG => 0x1E0000
  | .prs | .ft | .lode => 0x10000
  | .ftBkt => 0x160000
  | .stoG => 0xC000
  | .stoVol => 16
  | _ => 0x1000

theorem regRow_spaced (r : Reg) : (regRow r).Spaced := by
  cases r <;> decide

theorem regRow_end_le_blkSize (r : Reg) :
    (regRow r).off + (regRow r).stride * ((regRow r).count - 1) + 4 * (regRow r).words ≤ blkSize (regRow r).blk := by
  cases r <;> decide

theorem mem_blkRegs (r : Reg) : r ∈ blkRegs (regRow r).blk := by
  cases r <;> decide

theorem blkRegs_apart (b : Blk) : (blkRegs b).Pairwise fun p q => (regRow p).Apart (regRow q) := by
  cases b <;> decide +kernel

theorem RegRow.At.lt_blkSize {r : Reg} {o j x : Nat} (h : (regRow r).At o j x) : o < blkSize (regRow r).blk :=
  Nat.lt_of_lt_of_le h.lt_end (regRow_end_le_blkSize r)

/-! ### Finding the block at an offset -/

/-- Every comparison that `blkOf` makes falls to the bounds of the instance; the division by the block's stride then gives the instance
back. -/
theorem blkOf_of_eq_blkBase_add {b : Blk} {a i o : Nat} (hi : i < blkCount b) (ho : o < blkSize b) (ha : a = blkBase b i + o) :
    blkOf a = some (b, i, o) := by
  cases b <;> simp only [blkCount, blkSize, blkBase] at hi ho ha
  case' memc | bc => split at ha
  all_goals
    simp (disch := omega) only [blkOf, ↓if_neg, ↓if_pos, Option.orElse_eq_orElse, Option.orElse_eq_or, Option.some_or,
      Option.none_or, Option.map_some, Option.map_none, Option.some.injEq, Prod.mk.injEq, true_and]
    omega

/-- The block of engine `e` of lode `n` begins where R79 says. -/
theorem blkBase_me (n : Nat) {e : Nat} (he : e < 2) : blkBase .me (2 * n + e) = 0x1000000 + n * 0x40000 + 0x10000 + e * 0x1000 := by
  simp only [blkBase]
  omega

/-! ### The round trip -/

theorem regOf_regAddr {r : Reg} {i j w : Nat} (hi : i < blkCount (regRow r).blk) (hj : j < (regRow r).count) (hw : w < (regRow r).words) :
    regOf (regAddr r i j w) = some (r, i, j, w) := by
  have hat : (regRow r).At ((regRow r).off + (regRow r).stride * j + 4 * w) j (4 * w) := ⟨rfl, hj, by omega⟩
  have hblk := blkOf_of_eq_blkBase_add hi hat.lt_blkSize (a := regAddr r i j w) (by unfold regAddr; omega)
  have hreg := regIn_of_mem i (regRow_spaced r) hat (blkRegs_apart _) (mem_blkRegs r)
  rw [Nat.mul_div_cancel_left w (by decide)] at hreg
  rw [regOf, hblk]
  exact hreg

/-- A register's word lies whole in its block instance. -/
theorem regAddr_mem_blk {r : Reg} (i : Nat) {j w : Nat} (hj : j < (regRow r).count) (hw : w < (regRow r).words) :
    blkBase (regRow r).blk i ≤ regAddr r i j w ∧ regAddr r i j w + 4 ≤ blkBase (regRow r).blk i + blkSize (regRow r).blk := by
  have hlast : (regRow r).At ((regRow r).off + (regRow r).stride * j + (4 * w + 3)) j (4 * w + 3) := ⟨rfl, hj, by omega⟩
  have hend := hlast.lt_blkSize
  unfold regAddr
  omega

/-- Settles O60: the search of the map inverts `regAddr`, by blocks and then by registers; the engines' base is R79's. -/
theorem registerMap_RoundTrip : Obligations.RegisterMap_RoundTrip := by
  unfold Obligations.RegisterMap_RoundTrip
  intro r i j w hi hj hw
  refine ⟨regOf_regAddr hi hj hw, ?_⟩
  rintro n e hme rfl he
  have hbase := blkBase_me n he
  have hmem := regAddr_mem_blk (2 * n + e) hj hw
  rw [hme, hbase] at hmem
  exact ⟨hbase, hmem⟩

end Sys2Proof.Machine
end

section
/-! PROOFS. The issue of a bundle of moves (R115, R119, R122, R123): what a clock cycle of a core that may issue does with the bundle it
fetched, the faults that come before any effect, the bundle that sets off no unit, and the guards. -/
namespace Sys2Proof.Machine

open Sys2Proof

/-! ### A clock cycle of a core that may issue -/

theorem exec_bundleIssue {s : State} {k : Nat} (late : Bool) (hrun : s.power.running = true) (hk : k < 272) :
    exec (.bundleIssue k late) s = .next (issueCycle k late s) :=
  run_next (decide_eq_true hk) hrun

section
variable {s t u : State} {k : Nat} {late : Bool}

theorem issueCycle_of_moves {ms : List MoveSlot} {len : Nat} (hbegin : coreBegin k s = (t, true)) (hnop : (t.core k).nop = 0)
    (hfetch : fetch t k (nextPc (t.core k)) = (u, .moves ms len)) :
    issueCycle k late s = issueMoves k late ms (nextPc (t.core k)) len u := by
  simp only [issueCycle, hbegin, hnop, hfetch, ne_eq, not_true_eq_false, if_false]

theorem issueCycle_of_bad {code sl p : Nat} (hbegin : coreBegin k s = (t, true)) (hnop : (t.core k).nop = 0)
    (hfetch : fetch t k (nextPc (t.core k)) = (u, .bad code sl p)) :
    issueCycle k late s = takeExc k ⟨code, sl, p, 0⟩ (nextPc (t.core k)) false u := by
  simp only [issueCycle, hbegin, hnop, hfetch, ne_eq, not_true_eq_false, if_false]

end

/-! ### Faults of a bundle of moves (R122, R123, R145)

That ports are checked before double writes, and which slot and port the exception names, are the model's readings (log entries 11 and 50). -/

/-- Only ACCESS_DENIED and UNCORRECTABLE are reported beside the exception. -/
theorem reportDenied_of_ne (s : State) (k slot port addr : Nat) {code : Nat} (hdenied : code ≠ exDenied) (huncorr : code ≠ exUncorr) :
    reportDenied s k ⟨code, slot, port, addr⟩ = s := by
  simp only [reportDenied, hdenied, huncorr, false_and, if_false]

section
variable {s : State} {k : Nat} {late : Bool} {ms : List MoveSlot} {pc len : Nat}

theorem issueMoves_of_portFault {sl p : Nat} (hport : portFault (decide (256 ≤ k)) ms = some (sl, p)) :
    issueMoves k late ms pc len s = takeExc k ⟨exPort, sl, p, 0⟩ pc false s := by
  have hreport := reportDenied_of_ne s k sl p 0 (code := exPort) (by decide) (by decide)
  simp only [issueMoves, hport, hreport]

theorem issueMoves_of_multiFault {sl p : Nat} (hport : portFault (decide (256 ≤ k)) ms = none)
    (hmulti : multiFault [] (ms.filter (enabled (s.core k))) = some (sl, p)) :
    issueMoves k late ms pc len s = takeExc k ⟨exMulti, sl, p, 0⟩ pc false s := by
  have hreport := reportDenied_of_ne s k sl p 0 (code := exMulti) (by decide) (by decide)
  simp only [issueMoves, hport, hmulti, hreport]

/-! ### A bundle whose enabled moves write no trigger port -/

/-- With no trigger there is nothing left to check, no descriptor to offer and no unit to start: the bundle only writes its ports. -/
theorem issueMoves_of_no_trigger (hport : portFault (decide (256 ≤ k)) ms = none)
    (hmulti : multiFault [] (ms.filter (enabled (s.core k))) = none)
    (hunit : ∀ m ∈ ms.filter (enabled (s.core k)), unitOf m.dst = 0)
    (hmop : (s.core k).mop ≠ .waiting) (hdmv : (s.core k).dmv ≠ .waiting) :
    issueMoves k late ms pc len s =
      coreNext k len none (s.setCore k { s.core k with ports := movePorts s k (ms.filter (enabled (s.core k))) }) := by
  have htrigs : (ms.filter (enabled (s.core k))).filter (fun m => unitOf m.dst != 0) = [] :=
    List.filter_eq_nil_iff.mpr fun m hm => by simp [hunit m hm]
  simp [issueMoves, hport, hmulti, htrigs, hmop, hdmv]

end

/-! ### Guards (R119) -/

theorem guardOf_of_ge_clear {w : Nat} (h : bit w 28 = false) : guardOf w = none := by
  simp [guardOf, h]

theorem guardOf_of_ge_set {w : Nat} (h : bit w 28 = true) : guardOf w = some (bits w 26 24, bit w 27) := by
  simp [guardOf, h]

section
variable {c : Core} {m : MoveSlot} {p : Nat}

theorem enabled_of_unguarded (h : m.guard = none) : enabled c m = true := by
  simp only [enabled, h]

theorem enabled_iff_of_sense_clear (h : m.guard = some (p, false)) : enabled c m = true ↔ tget 0 c.ports (0x50 + p) = 1 := by
  simp [enabled, h]

theorem enabled_iff_of_sense_set (h : m.guard = some (p, true)) : enabled c m = true ↔ tget 0 c.ports (0x50 + p) ≠ 1 := by
  simp [enabled, h]

end

/-- Settles O19: the fetched bundle by the cycle it is fetched in, a bundle of moves by its faults or its lack of triggers, a guard by its
two bits. -/
theorem core_Issue : Obligations.Core_Issue := by
  unfold Obligations.Core_Issue
  intro s t k late hrun hk hbegin hnop
  refine ⟨fun u ms len hfetch => ?moves, fun u code sl p hfetch => ?bad, fun u ms pc len hmop hdmv => ⟨?written, ?port, ?multi⟩,
    fun w p m x => ⟨guardOf_of_ge_clear, guardOf_of_ge_set, enabled_of_unguarded, enabled_iff_of_sense_clear, enabled_iff_of_sense_set⟩⟩
  case moves => rw [exec_bundleIssue late hrun hk, issueCycle_of_moves hbegin hnop hfetch]
  case bad => rw [exec_bundleIssue late hrun hk, issueCycle_of_bad hbegin hnop hfetch]
  case written => exact fun hport hmulti hunit => issueMoves_of_no_trigger hport hmulti hunit hmop hdmv
  case port => exact fun _ _ => issueMoves_of_portFault
  case multi => exact fun _ _ => issueMoves_of_multiFault

end Sys2Proof.Machine
end

section
/-! PROOFS. The commands of the memory controllers (R298, R302 to R305, R310, R317): an access of a line by whether it waits, a scrubber's
read by the damage of its codeword, and the commands that act only where their event can happen. -/
namespace Sys2Proof.Machine

open Sys2Proof

/-! ### A meaning that acts where its event can happen (log entry 1) -/

section
variable {ok p : Bool} {s : State} {f : State → State}

theorem run_onlyIf_of_true (hok : ok = true) (hrun : s.power.running = true) (hp : p = true) : run ok s (onlyIf p f) = .next (f s) := by
  rw [run_next hok hrun, onlyIf_true hp]

theorem run_onlyIf_of_false (hok : ok = true) (hrun : s.power.running = true) (hp : p = false) : run ok s (onlyIf p f) = .next s := by
  rw [run_next hok hrun, onlyIf_false hp]

end

/-! ### An access of a line (R298)

That its upsets come with the access, and that one which must wait only wakes the memory, are the model's choices (log entries 83 and 110). -/

/-- What a controller does with an access that need not wait: with no data it reads the line, otherwise it stores the data. -/
def serveLine (a : Nat) (bs : Bytes) (t : State) : State :=
  if bs = [] then
    match readMem t (a / 64 * 64) 64 with
    | (u, .ok b) => { u with resp := some (leNat b) }
    | (u, .error _) => { u with resp := none }
  else (writeMem t a bs).1

section
variable {a : Nat} {t u : State}

theorem serveLine_of_readable {b : Bytes} (hread : readMem t (a / 64 * 64) 64 = (u, .ok b)) :
    serveLine a [] t = { u with resp := some (leNat b) } := by
  simp only [serveLine, hread, if_true]

theorem serveLine_of_uncorrectable {e : Nat} (hread : readMem t (a / 64 * 64) 64 = (u, .error e)) :
    serveLine a [] t = { u with resp := none } := by
  simp only [serveLine, hread, if_true]

theorem serveLine_of_store {bs : Bytes} (hne : bs ≠ []) : serveLine a bs t = (writeMem t a bs).1 :=
  if_neg hne

end

/-- An access without data lies within its line. -/
theorem mod_line_add_nil_le (a : Nat) : a % 64 + ([] : Bytes).length ≤ 64 :=
  Nat.le_of_lt (Nat.mod_lt a (by decide))

/-- An access within one line of HBM or LPDDR5X, after its upsets, wakes the memory where it must wait and is served otherwise. -/
theorem exec_memoryAccess {s : State} {a : Nat} {bs : Bytes} (ups : List Upset) (hrun : s.power.running = true)
    (hplace : (place s a).1 = .hbm ∨ (place s a).1 = .lpx) (hfit : a % 64 + bs.length ≤ 64) :
    exec (.memoryAccess ⟨a, ups⟩ bs) s =
      .next (if memWaits (upsetLine (a / 64) ups s) a 1 = true then wakeAt a (upsetLine (a / 64) ups s)
        else serveLine a bs (upsetLine (a / 64) ups s)) := by
  change execMemoryAccess ⟨a, ups⟩ bs s = _
  rw [execMemoryAccess, run_next rfl hrun]
  obtain hplace | hplace := hplace <;> simp only [hplace, if_neg (Nat.not_lt.mpr hfit)] <;> rfl

section
variable {s : State} {a : Nat} {bs : Bytes} {ups : List Upset}

theorem exec_memoryAccess_of_waits (hrun : s.power.running = true) (hplace : (place s a).1 = .hbm ∨ (place s a).1 = .lpx)
    (hwaits : memWaits (upsetLine (a / 64) ups s) a 1 = true) (hfit : a % 64 + bs.length ≤ 64) :
    exec (.memoryAccess ⟨a, ups⟩ bs) s = .next (wakeAt a (upsetLine (a / 64) ups s)) := by
  rw [exec_memoryAccess ups hrun hplace hfit, if_pos hwaits]

theorem exec_memoryAccess_of_reachable (hrun : s.power.running = true) (hplace : (place s a).1 = .hbm ∨ (place s a).1 = .lpx)
    (hreach : memWaits (upsetLine (a / 64) ups s) a 1 = false) (hfit : a % 64 + bs.length ≤ 64) :
    exec (.memoryAccess ⟨a, ups⟩ bs) s = .next (serveLine a bs (upsetLine (a / 64) ups s)) := by
  rw [exec_memoryAccess ups hrun hplace hfit, if_neg (by simp [hreach])]

end

/-! ### A codeword as the scrubber reads it (R306, R310) -/

theorem cwReadAs_of_no_damage {t : State} {cw : Nat} (m : Nat) (h : damage t cw = 0) : cwReadAs m t cw = (t, true) := by
  simp only [cwReadAs, cwSt, cwOutcome, h]

theorem cwReadAs_of_two_damaged {t : State} {cw : Nat} (m : Nat) (h : damage t cw = 2) :
    cwReadAs m t cw = (uncorrectable t cw m, false) := by
  simp only [cwReadAs, cwSt, cwOutcome, h]

/-- A scrubber whose codeword is due, no refresh slot in its way, goes on to the next codeword and reads this one. The order of the codewords
and the time between two are the model's choices (log entry 93). -/
theorem exec_memoryScrubRead_of_due {s : State} {c : Nat} (hrun : s.power.running = true) (hc : c < 12) (hon : ctlOn s c = true)
    (hscrub : bit (s.reg .memScrub c) 0 = true) (hdue : (s.memc c).scrubAt ≤ s.tb.ticks)
    (hslot : slotWaits s (scrubAddr s c (s.memc c).scrub) 1 = false) :
    exec (.memoryScrubRead c) s = .next (cwReadAs 8
      (s.setMemc c { s.memc c with scrub := ((s.memc c).scrub + 1) % scrubLen c, scrubAt := (s.memc c).scrubAt + scrubStep s c })
      (scrubAddr s c (s.memc c).scrub / 32)).1 := by
  have hopens : (ctlOn s c && bit (s.reg .memScrub c) 0 && decide ((s.memc c).scrubAt ≤ s.tb.ticks)) = true := by simp [hon, hscrub, hdue]
  refine (run_onlyIf_of_true (decide_eq_true hc) hrun hopens).trans (congrArg _ ?_)
  exact if_neg (by simp [hslot])

theorem exec_memoryScrubRead_of_not_due {s : State} {c : Nat} (hrun : s.power.running = true) (hc : c < 12)
    (hlater : s.tb.ticks < (s.memc c).scrubAt) : exec (.memoryScrubRead c) s = .next s :=
  run_onlyIf_of_false (decide_eq_true hc) hrun (by simp [hlater])

/-! ### A temperature report (R302) -/

theorem exec_stackTemperatureReport {s : State} {h : Nat} (hot : Bool) (hrun : s.power.running = true) (hstack : h < 8) :
    exec (.stackTemperatureReport h hot) s = .next (s.setField .memSts h 0 2 2 (if hot then 1 else 0)) := by
  change execStackTemperatureReport h hot s = _
  rw [execStackTemperatureReport, run_next (decide_eq_true hstack) hrun]

/-- Settles O32: an access by whether it waits and what it reads, a scrubber's read by its codeword's damage, and the slot, the
recalibration and INJECT by whether their event can happen. The length that a recalibration adds is a free value (log entry 108). -/
theorem memory_Control : Obligations.Memory_Control := by
  unfold Obligations.Memory_Control
  intro s c ch hrun hc hch
  have hchannel : (decide (c < 12) && decide (ch < 32)) = true := by simp [hc, hch]
  refine ⟨fun a ups hplace => ⟨fun hreach => ⟨?readable, ?unreadable, ?store⟩, ?waits⟩, ?slot, ?noSlot, ?recal, ?noRecal, ?scrub,
    exec_memoryScrubRead_of_not_due hrun hc, fun hot => exec_stackTemperatureReport hot hrun, ?inject⟩
  case readable =>
    intro u b hread
    rw [exec_memoryAccess_of_reachable hrun hplace hreach (mod_line_add_nil_le a), serveLine_of_readable hread]
  case unreadable =>
    intro u e hread
    rw [exec_memoryAccess_of_reachable hrun hplace hreach (mod_line_add_nil_le a), serveLine_of_uncorrectable hread]
  case store =>
    intro bs hne hfit
    rw [exec_memoryAccess_of_reachable hrun hplace hreach hfit, serveLine_of_store hne]
  case waits => exact fun bs => exec_memoryAccess_of_waits hrun hplace
  case slot =>
    rintro t hopens rfl
    exact run_onlyIf_of_true hchannel hrun hopens
  case noSlot => exact run_onlyIf_of_false hchannel hrun
  case recal =>
    rintro low failed t u hopens rfl rfl
    have hlane : (failed && decide (c < 8)) = true ↔ failed = true ∧ c < 8 := by simp
    simp only [← hlane]
    exact ⟨run_onlyIf_of_true hchannel hrun hopens, run_onlyIf_of_true hchannel hrun hopens⟩
  case noRecal => exact fun _ _ _ => run_onlyIf_of_false hchannel hrun
  case scrub =>
    rintro t _ hon hscrub hdue hslot rfl
    exact ⟨exec_memoryScrubRead_of_due hrun hc hon hscrub hdue hslot, fun h => congrArg Prod.fst (cwReadAs_of_no_damage 8 h),
      fun h => congrArg Prod.fst (cwReadAs_of_two_damaged 8 h)⟩
  case inject =>
    intro who val hwho
    have hinstances : (decide (who < 19) && decide (c < 12)) = true := by simp [hwho, hc]
    exact ⟨fun hworld => run_onlyIf_of_true hinstances hrun (beq_iff_eq.mpr hworld),
      fun hworld => run_onlyIf_of_false hinstances hrun (beq_eq_false_iff_ne.mpr hworld)⟩

end Sys2Proof.Machine
end

section
/-! PROOFS. Admission of a record to a path (R502, R503): what enters the queue, what is held pending and counted, and what the path's
pending records do afterwards. -/
namespace Sys2Proof.Machine

open Sys2Proof

/-! ### Entering a queue -/

@[simp] theorem path_enqueue (p : Nat) (r : Rec) (s : State) :
    (enqueue p r s).path p = { s.path p with queue := (s.path p).queue ++ [(r, s.tb.ticks)] } := by
  unfold enqueue
  dsimp only
  split <;> exact path_setPath _ _ _

/-- Counting writes one register and nothing else. -/
theorem count_eq_setReg (s : State) (r : Reg) (i j n : Nat) : ∃ v, s.count r i j n = s.setReg r i j v := by
  unfold State.count
  split <;> exact ⟨_, rfl⟩

/-- Pending records that enter their queue write no register. -/
theorem reg_flushPath (p : Nat) (s : State) (r : Reg) (i j : Nat) : (flushPath p s).reg r i j = s.reg r i j := by
  obtain ⟨t, ht, -⟩ := flushPath_tel p s
  rw [ht]
  rfl

/-! ### The pending records of a path (R502, R503) -/

/-- What R502 and R503 let a path hold: no pending record that its occupancy lets in. -/
structure Settled (p : Nat) (x : Path) : Prop where
  alarms : x.queue.length < pathQ p → x.alarms = []
  more   : x.queue.length < pathQ p - pathA p → x.more = none
  gap    : x.queue.length + 1 < 3 * pathQ p / 4 → x.gap = none

/-! A path stays settled when a record enters its queue, and when a pending field changes that the occupancy lets no record leave. -/

section
variable {p : Nat} {x : Path}

theorem Settled.enter (h : Settled p x) (e : Rec × Nat) : Settled p { x with queue := x.queue ++ [e] } where
  alarms hn := h.alarms (by simp at hn; omega)
  more hn := h.more (by simp at hn; omega)
  gap hn := h.gap (by simp at hn; omega)

theorem Settled.hold_alarms (h : Settled p x) (hn : pathQ p ≤ x.queue.length) (l : List Rec) : Settled p { x with alarms := l } :=
  ⟨fun hlt => absurd hn (Nat.not_le.2 hlt), h.more, h.gap⟩

theorem Settled.merge_more (h : Settled p x) (hn : pathQ p - pathA p ≤ x.queue.length) (a : Option Acc) : Settled p { x with more := a } :=
  ⟨h.alarms, fun hlt => absurd hn (Nat.not_le.2 hlt), h.gap⟩

theorem Settled.add_gap (h : Settled p x) (hn : 3 * pathQ p / 4 ≤ x.queue.length + 1) (a : Option Acc) : Settled p { x with gap := a } :=
  ⟨h.alarms, h.more, fun hlt => absurd hn (Nat.not_le.2 hlt)⟩

end

/-- A fold whose step leaves its start alone gives its start. -/
theorem foldl_eq_start {α β : Type} {f : β → α → β} {b : β} (h : ∀ a, f b a = b) : ∀ l : List α, l.foldl f b = b
  | [] => rfl
  | a :: l => by rw [List.foldl_cons, h a, foldl_eq_start h l]

section
variable {p : Nat} {s : State}

theorem flushAlarm_of_idle (h : (s.path p).queue.length < pathQ p → (s.path p).alarms = []) : flushAlarm p s = s := by
  unfold flushAlarm
  split
  · rfl
  · next hpending =>
    rw [hpending] at h
    exact if_neg fun hn => nomatch h hn

theorem flushMore_of_idle (h : (s.path p).queue.length < pathQ p - pathA p → (s.path p).more = none) : flushMore p s = s := by
  unfold flushMore
  split
  · next hpending =>
    rw [hpending] at h
    exact if_neg fun hn => nomatch h hn
  · rfl

theorem flushGap_of_idle (h : (s.path p).queue.length + 1 < 3 * pathQ p / 4 → (s.path p).gap = none) : flushGap p s = s := by
  unfold flushGap
  split
  · next hpending =>
    rw [hpending] at h
    exact if_neg fun hn => nomatch h hn
  · rfl

/-- Where neither an ALARM nor the MORE record enters, only the GAP record may. -/
theorem flushPath_eq_flushGap (halarms : (s.path p).queue.length < pathQ p → (s.path p).alarms = [])
    (hmore : (s.path p).queue.length < pathQ p - pathA p → (s.path p).more = none) : flushPath p s = flushGap p s := by
  rw [flushPath, foldl_eq_start fun _ => flushAlarm_of_idle halarms, flushMore_of_idle hmore]

theorem flushPath_of_settled (h : Settled p (s.path p)) : flushPath p s = s := by
  rw [flushPath_eq_flushGap h.alarms h.more, flushGap_of_idle h.gap]

theorem path_flushGap_of_enters {a : Acc} (hgap : (s.path p).gap = some a) (hn : (s.path p).queue.length + 1 < 3 * pathQ p / 4) :
    (flushGap p s).path p = { s.path p with queue := (s.path p).queue ++ [(accRec s p a false, s.tb.ticks)], gap := none } := by
  simp [flushGap, hgap, hn]

theorem path_flushAlarm_of_enters {y : Rec} {l : List Rec} (halarms : (s.path p).alarms = y :: l) (hn : (s.path p).queue.length < pathQ p) :
    (flushAlarm p s).path p = { s.path p with queue := (s.path p).queue ++ [(y, s.tb.ticks)], alarms := l } := by
  simp [flushAlarm, halarms, hn]

/-- In a queue with one free entry the oldest pending ALARM enters, and then nothing else does. -/
theorem path_flushPath_of_last_entry {y : Rec} {l : List Rec} (halarms : (s.path p).alarms = y :: l)
    (hn : (s.path p).queue.length + 1 = pathQ p) :
    (flushPath p s).path p = { s.path p with queue := (s.path p).queue ++ [(y, s.tb.ticks)], alarms := l } := by
  have hentered := path_flushAlarm_of_enters halarms (by omega)
  have hfull : ((flushAlarm p s).path p).queue.length = pathQ p := by simp [hentered, hn]
  have hrest : l.foldl (fun s _ => flushAlarm p s) (flushAlarm p s) = flushAlarm p s :=
    foldl_eq_start (fun _ => flushAlarm_of_idle fun h => by omega) l
  rw [flushPath, halarms, List.foldl_cons, hrest, flushMore_of_idle fun h => by omega, flushGap_of_idle fun h => by omega, hentered]

end

/-! ### Holding an ALARM: one pending record per KIND and SOURCE (R502) -/

theorem takeFirst_eq_none {α : Type} {f : α → Bool} : ∀ {l : List α}, (∀ z ∈ l, f z = false) → takeFirst f l = none
  | [], _ => rfl
  | z :: l, h => by
    obtain ⟨hz, hl⟩ := List.forall_mem_cons.1 h
    simp [takeFirst, hz, takeFirst_eq_none hl]

theorem takeFirst_append_cons {α : Type} {f : α → Bool} {y : α} (b : List α) (hy : f y = true) :
    ∀ {a : List α}, (∀ z ∈ a, f z = false) → takeFirst f (a ++ y :: b) = some (y, a ++ b)
  | [], _ => by simp [takeFirst, hy]
  | z :: a, h => by
    obtain ⟨hz, ha⟩ := List.forall_mem_cons.1 h
    simp [takeFirst, hz, takeFirst_append_cons b hy ha]

theorem lmod_eq_self {α : Type} {f : α → Bool} (g : α → α) {l : List α} (h : ∀ z ∈ l, f z = false) : lmod f g l = l :=
  (List.map_congr_left fun z hz => by simp [h z hz]).trans (List.map_id l)

theorem lmod_append_cons {α : Type} {f : α → Bool} (g : α → α) {a b : List α} {y : α} (hy : f y = true)
    (ha : ∀ z ∈ a, f z = false) (hb : ∀ z ∈ b, f z = false) : lmod f g (a ++ y :: b) = a ++ g y :: b := by
  have happend : lmod f g (a ++ y :: b) = lmod f g a ++ (if f y then g y else y) :: lmod f g b := by simp [lmod]
  rw [happend, lmod_eq_self g ha, lmod_eq_self g hb, if_pos hy]

/-- Another KIND or SOURCE, as `holdAlarm` tests it. -/
theorem kind_source_test_eq_false {z r : Rec} (h : z.kind ≠ r.kind ∨ z.source ≠ r.source) :
    (z.kind == r.kind && z.source == r.source) = false := by
  simpa [Classical.or_iff_not_imp_left] using h

theorem holdAlarm_of_new {l : List Rec} {r : Rec} (h : ∀ z ∈ l, z.kind ≠ r.kind ∨ z.source ≠ r.source) : holdAlarm l r = l ++ [r] := by
  rw [holdAlarm, takeFirst_eq_none fun z hz => kind_source_test_eq_false (h z hz)]

theorem holdAlarm_of_pending {a b : List Rec} {y r : Rec} (hkind : y.kind = r.kind) (hsource : y.source = r.source)
    (h : ∀ z ∈ a ++ b, z.kind ≠ r.kind ∨ z.source ≠ r.source) :
    holdAlarm (a ++ y :: b) r = a ++ { r with count := satAdd 0xFFFFFFFF y.count r.count } :: b := by
  obtain ⟨ha, hb⟩ := List.forall_mem_append.1 h
  have hy : (y.kind == r.kind && y.source == r.source) = true := by simp [hkind, hsource]
  rw [holdAlarm, takeFirst_append_cons b hy fun z hz => kind_source_test_eq_false (ha z hz)]
  exact lmod_append_cons _ hy (fun z hz => kind_source_test_eq_false (ha z hz)) fun z hz => kind_source_test_eq_false (hb z hz)

/-! ### Offering a record (R502) -/

/-- The occupancy below which R502 admits a record of a class. -/
def admitLimit (p cls : Nat) : Nat :=
  if cls = 0 then pathQ p else if cls = 1 then pathQ p - pathA p else if cls = 2 then 3 * pathQ p / 4 else pathQ p / 2

/-- A record that does not enter is held: the path becomes `x`, and the register of the record's class counts one. -/
def holdIn (p : Nat) (x : Path) (r : Reg) (s : State) : State := (s.setPath p x).count r 0 p 1

section
variable {p : Nat} {r : Rec} {s : State}

theorem admitIn_of_admitted (h : (s.path p).queue.length < admitLimit p r.cls) : admitIn p r s = flushPath p (enqueue p r s) := by
  unfold admitLimit at h
  by_cases halarm : r.cls = 0
  · rw [if_pos halarm] at h
    simp only [admitIn, if_pos halarm, if_pos h]
  rw [if_neg halarm] at h
  by_cases herror : r.cls = 1
  · rw [if_pos herror] at h
    simp only [admitIn, if_neg halarm, if_pos herror, if_pos h]
  rw [if_neg herror] at h
  simp only [admitIn, if_neg halarm, if_neg herror, if_pos h]

theorem admitIn_of_alarm_held (hc : r.cls = 0) (hn : pathQ p ≤ (s.path p).queue.length) :
    admitIn p r s = flushPath p (holdIn p { s.path p with alarms := holdAlarm (s.path p).alarms r } .errPathAlarm s) := by
  simp [admitIn, holdIn, hc, Nat.not_lt.2 hn]

theorem admitIn_of_error_merged (hc : r.cls = 1) (hn : pathQ p - pathA p ≤ (s.path p).queue.length) :
    admitIn p r s = flushPath p (holdIn p { s.path p with more := accAdd (s.path p).more r.count r.seq } .errPathMerged s) := by
  simp [admitIn, holdIn, hc, Nat.not_lt.2 hn]

theorem admitIn_of_dropped (hc : 2 ≤ r.cls) (hn : admitLimit p r.cls ≤ (s.path p).queue.length) :
    admitIn p r s = flushPath p (holdIn p { s.path p with gap := accAdd (s.path p).gap r.count r.seq } .errPathDrop s) := by
  have h0 : r.cls ≠ 0 := by omega
  have h1 : r.cls ≠ 1 := by omega
  simp only [admitLimit, h0, h1, if_false] at hn
  simp only [admitIn, holdIn, h0, h1, if_false, if_neg (Nat.not_lt.2 hn)]

end

/-- Holding a record changes the path, the register that counts it, and nothing that a GAP record or an entry's tick is made from. -/
theorem holdIn_frame (p : Nat) (x : Path) (r : Reg) (s : State) :
    (holdIn p x r s).path p = x ∧ (holdIn p x r s).tb = s.tb ∧ ∀ a more, accRec (holdIn p x r s) p a more = accRec s p a more := by
  obtain ⟨v, hv⟩ := count_eq_setReg (s.setPath p x) r 0 p 1
  rw [holdIn, hv]
  exact ⟨path_setPath s p x, rfl, fun _ _ => rfl⟩

section
variable {p : Nat} {x : Path} {s : State}

/-- The register counts one record, whether or not a pending record enters after it. -/
theorem reg_flushPath_holdIn {r : Reg} (hr : (regRow r).words = 1) :
    (flushPath p (holdIn p x r s)).reg r 0 p = satAdd 0xFFFFFFFF (s.reg r 0 p) 1 :=
  (reg_flushPath ..).trans (reg_count32 _ _ _ _ _ hr)

theorem path_flushPath_holdIn_of_settled (r : Reg) (h : Settled p x) : (flushPath p (holdIn p x r s)).path p = x := by
  obtain ⟨hpath, -, -⟩ := holdIn_frame p x r s
  rw [flushPath_of_settled (hpath.symm ▸ h), hpath]

/-- A GAP record that the occupancy lets in enters at once (R503). -/
theorem path_flushPath_holdIn_of_gap_enters (r : Reg) (h : Settled p x) (a : Acc) (hn : x.queue.length + 1 < 3 * pathQ p / 4) :
    (flushPath p (holdIn p { x with gap := some a } r s)).path p = { x with queue := x.queue ++ [(accRec s p a false, s.tb.ticks)] } := by
  obtain ⟨hpath, htb, hrec⟩ := holdIn_frame p { x with gap := some a } r s
  rw [flushPath_eq_flushGap (by rw [hpath]; exact h.alarms) (by rw [hpath]; exact h.more),
    path_flushGap_of_enters (by rw [hpath]) (by rw [hpath]; exact hn), hpath, htb, hrec, ← h.gap hn]

end

/-- Below its class's limit a record enters, and nothing follows it. -/
theorem path_admitIn_of_admitted {p : Nat} {r : Rec} {s : State} (h : Settled p (s.path p)) (hn : (s.path p).queue.length < admitLimit p r.cls) :
    (admitIn p r s).path p = { s.path p with queue := (s.path p).queue ++ [(r, s.tb.ticks)] } := by
  have hsettled : Settled p ((enqueue p r s).path p) := by
    rw [path_enqueue]
    exact h.enter _
  rw [admitIn_of_admitted hn, flushPath_of_settled hsettled, path_enqueue]

/-- The rows of R497's table, as the model's `pathQ` and `pathA` give them. -/
theorem pathQ_pathA_of_row {p Q A : Nat}
    (h : p < 18 ∧ Q = 128 ∧ A = 8 ∨ p = 18 ∧ Q = 64 ∧ A = 8 ∨ p = 19 ∧ Q = 256 ∧ A = 8 ∨ p = 20 ∧ Q = 1024 ∧ A = 16) :
    Q = pathQ p ∧ A = pathA p := by
  obtain ⟨hp, rfl, rfl⟩ | ⟨rfl, rfl, rfl⟩ | ⟨rfl, rfl, rfl⟩ | ⟨rfl, rfl, rfl⟩ := h
  · have hp20 : p ≠ 20 := by omega
    simp [pathQ, pathA, hp, hp20]
  all_goals decide

/-- Settles O47: a record below its class's limit enters a settled path's queue and nothing follows it; beyond the limit its holding keeps
the path settled, except where the GAP record enters at once; and a last free entry is the oldest pending ALARM's. -/
theorem record_Admission : Obligations.Record_Admission := by
  unfold Obligations.Record_Admission
  rintro s p n Q A r x hrow rfl rfl
  obtain ⟨rfl, rfl⟩ := pathQ_pathA_of_row hrow
  refine ⟨fun halarms hmore hgap => ?_, fun y l => path_flushPath_of_last_entry⟩
  have h : Settled p (s.path p) := ⟨halarms, hmore, hgap⟩
  refine ⟨?admitted, ?alarm, ?error, ?dropped⟩
  case admitted =>
    intro hn
    refine path_admitIn_of_admitted h ?_
    obtain ⟨hc, hn⟩ | ⟨hc, hn⟩ | ⟨hc, hn⟩ | ⟨hc, hn⟩ := hn <;> simpa [admitLimit, hc] using hn
  case alarm =>
    intro hc hn
    rw [admitIn_of_alarm_held hc hn]
    refine ⟨reg_flushPath_holdIn rfl, fun hnew => ?_, fun a y b hlist hkind hsource hothers => ?_⟩
    · rw [path_flushPath_holdIn_of_settled _ (h.hold_alarms hn _), holdAlarm_of_new hnew]
    · rw [path_flushPath_holdIn_of_settled _ (h.hold_alarms hn _), hlist, holdAlarm_of_pending hkind hsource hothers]
  case error =>
    intro hc hn
    rw [admitIn_of_error_merged hc hn, path_flushPath_holdIn_of_settled _ (h.merge_more hn _)]
    exact ⟨reg_flushPath_holdIn rfl, fun hnone => by rw [hnone, accAdd], fun a hsome => by rw [hsome, accAdd]⟩
  case dropped =>
    intro hn
    have hc : 2 ≤ r.cls := by omega
    have hlimit : admitLimit p r.cls ≤ (s.path p).queue.length := by
      obtain ⟨hc, hn⟩ | ⟨hc, hn⟩ := hn <;> simpa [admitLimit, hc] using hn
    rw [admitIn_of_dropped hc hlimit]
    refine ⟨reg_flushPath_holdIn rfl, fun hfull hnone => ?_, fun a hsome => ?_, fun henters => ?_⟩
    · rw [path_flushPath_holdIn_of_settled _ (h.add_gap hfull _), hnone, accAdd]
    · have hfull : 3 * pathQ p / 4 ≤ (s.path p).queue.length + 1 := Nat.not_lt.1 fun hlt => by simp [hgap hlt] at hsome
      rw [path_flushPath_holdIn_of_settled _ (h.add_gap hfull _), hsome, accAdd]
    · have hnew : accAdd (s.path p).gap r.count r.seq = some ⟨r.count, r.seq, r.seq⟩ := by rw [hgap henters, accAdd]
      rw [hnew, path_flushPath_holdIn_of_gap_enters _ h _ henters]

end Sys2Proof.Machine
end

section
/-! PROOFS. What holds of every command: it answers a next state exactly where it names instances that exist, does nothing while the clocks
stand, and keeps what `Keeps` names; so every step does. -/
namespace Sys2Proof.Machine

open Sys2Proof

/-- A command that acts without clocks: an alarm of the security core, the fall of PWR_GOOD, the cold reset pins (log entry 81). -/
def actsUnclocked : Instr → Bool
  | .securityAlarm _ => true
  | .powerGoodFall => true
  | .coldReset _ => true
  | _ => false

/-- Every other command does its work under the guard of `run`. -/
theorem exec_eq_run {c : Instr} (s : State) (h : actsUnclocked c = false) : ∃ f, exec c s = run c.wf s f := by
  cases c
  case securityAlarm | powerGoodFall | coldReset => cases h
  all_goals
    simp only [exec, Instr.wf]
    exact ⟨_, rfl⟩

theorem run_refused {s : State} (f : State → State) : run false s f = .refused .noSuchInstance := rfl

theorem exec_securityAlarm (cause : Nat) (s : State) :
    exec (.securityAlarm cause) s = if cause < 32 then .next (onlyIf (cause != 0) (alarm cause) s) else .refused .noSuchInstance := rfl

/-- A command answers a next state where `wf` holds, and is refused by name otherwise. -/
theorem exec_answers (c : Instr) (s : State) :
    (c.wf = true → ∃ t, exec c s = .next t) ∧ (c.wf = false → exec c s = .refused .noSuchInstance) := by
  by_cases hc : actsUnclocked c = false
  · obtain ⟨f, hf⟩ := exec_eq_run s hc
    rw [hf]
    exact ⟨fun hwf => ⟨_, by rw [hwf]; rfl⟩, fun hwf => by rw [hwf, run_refused]⟩
  cases c
  case securityAlarm cause =>
    rw [exec_securityAlarm]
    exact ⟨fun hwf => ⟨_, if_pos (of_decide_eq_true hwf)⟩, fun hwf => if_neg (of_decide_eq_false hwf)⟩
  case powerGoodFall | coldReset => exact ⟨fun _ => ⟨_, rfl⟩, nofun⟩
  all_goals exact absurd rfl hc

/-- Settles O6: every command is guarded by its own `wf`. -/
theorem exec_Total : Obligations.Exec_Total := exec_answers

/-- Settles O7: the guard that every other command has does nothing while the clocks stand (log entry 81). -/
theorem exec_ClocksStopped : Obligations.Exec_ClocksStopped := by
  unfold Obligations.Exec_ClocksStopped
  intro c s hwf hstopped halarm hfall hcold
  have hc : actsUnclocked c = false := by
    cases c
    case securityAlarm cause => exact absurd rfl (halarm cause)
    case powerGoodFall => exact absurd rfl hfall
    case coldReset pin => exact absurd rfl (hcold pin)
    all_goals rfl
  obtain ⟨f, hf⟩ := exec_eq_run s hc
  rw [hf, run_stopped hwf hstopped]

/-- Every command keeps what `Keeps` names, by the lemma of its meaning. -/
theorem keep_exec (c : Instr) {s t : State} (h : exec c s = .next t) : Keeps s t := by
  cases c with
  | registerWrite _ _ _ _ => exact keep_execRegisterWrite _ _ _ _ h
  | fabricRequest _ _ _ _ _ => exact keep_execFabricRequest _ _ _ _ _ h
  | deviceRegisterAccess _ _ _ _ _ _ => exact keep_execDeviceRegisterAccess _ _ _ _ _ _ h
  | tbEventFire => exact keep_execTbEventFire h
  | tbStep _ _ _ => exact keep_execTbStep _ _ _ h
  | tbAdjWrite _ _ => exact keep_execTbAdjWrite _ _ h
  | tbSyncinEdge => exact keep_execTbSyncinEdge h
  | tbSyncinLoad => exact keep_execTbSyncinLoad h
  | modEnqueue _ => exact keep_execModEnqueue _ h
  | modNop _ => exact keep_execModNop _ h
  | matmul _ => exact keep_execMatmul _ h
  | grouped _ => exact keep_execGrouped _ h
  | rangeScan _ => exact keep_execRangeScan _ h
  | transposeLoad _ => exact keep_execTransposeLoad _ h
  | engineDrainStart _ => exact keep_execEngineDrainStart _ h
  | engineOpComplete _ _ => exact keep_execEngineOpComplete _ _ h
  | engineOperandUe _ _ => exact keep_execEngineOperandUe _ _ h
  | engineRmwUe _ => exact keep_execEngineRmwUe _ h
  | quiesceWrite _ _ _ => exact keep_execQuiesceWrite _ _ _ h
  | dropResident _ _ _ => exact keep_execDropResident _ _ _ h
  | bundleIssue _ _ => exact keep_execBundleIssue _ _ h
  | ctlNop _ => exact keep_execCtlNop _ h
  | repeatCtl _ _ => exact keep_execRepeatCtl _ _ h
  | halt _ => exact keep_execHalt _ h
  | haltComplete _ => exact keep_execHaltComplete _ h
  | unitResultVisible _ => exact keep_execUnitResultVisible _ h
  | loadDataArrival _ => exact keep_execLoadDataArrival _ h
  | delayedUncorrectable _ => exact keep_execDelayedUncorrectable _ h
  | bcHoldWrite _ _ _ => exact keep_execBcHoldWrite _ _ _ h
  | coreHoldTaken _ => exact keep_execCoreHoldTaken _ h
  | coreStart _ _ _ => exact keep_execCoreStart _ _ _ h
  | coreClear _ _ _ => exact keep_execCoreClear _ _ _ h
  | imemWrite _ _ _ _ => exact keep_execImemWrite _ _ _ _ h
  | strataBankAccess _ _ _ => exact keep_execStrataBankAccess _ _ _ h
  | strataScrubRead _ => exact keep_execStrataScrubRead _ h
  | lodeZeroingDone _ => exact keep_execLodeZeroingDone _ h
  | moveEnqueue _ => exact keep_execMoveEnqueue _ h
  | moveNop _ => exact keep_execMoveNop _ h
  | moveCopy _ => exact keep_execMoveCopy _ h
  | moveFill _ => exact keep_execMoveFill _ h
  | moveSourceUe _ _ => exact keep_execMoveSourceUe _ _ h
  | moveComplete _ _ => exact keep_execMoveComplete _ _ h
  | lodeCtrlReset _ _ _ => exact keep_execLodeCtrlReset _ _ _ h
  | lodeCtrlHold _ _ _ => exact keep_execLodeCtrlHold _ _ _ h
  | lockGroupStart _ => exact keep_execLockGroupStart _ h
  | sqTailWrite _ _ _ _ => exact keep_execSqTailWrite _ _ _ _ h
  | cqHeadWrite _ _ _ _ => exact keep_execCqHeadWrite _ _ _ _ h
  | admqEnable _ _ _ => exact keep_execAdmqEnable _ _ _ h
  | submissionFetch => exact keep_execSubmissionFetch h
  | commandDispatch _ => exact keep_execCommandDispatch _ h
  | replyWrite _ => exact keep_execReplyWrite _ h
  | hello _ => exact keep_execHello _ h
  | identify _ => exact keep_execIdentify _ h
  | fwUpdate _ => exact keep_execFwUpdate _ h
  | qpCreate _ => exact keep_execQpCreate _ h
  | qpDelete _ => exact keep_execQpDelete _ h
  | abort _ => exact keep_execAbort _ h
  | heartbeat _ => exact keep_execHeartbeat _ h
  | goodbye _ => exact keep_execGoodbye _ h
  | regionCreate _ => exact keep_execRegionCreate _ h
  | regionRevoke _ => exact keep_execRegionRevoke _ h
  | regionDrainEnd _ => exact keep_execRegionDrainEnd _ h
  | copy _ => exact keep_execCopy _ h
  | fill _ => exact keep_execFill _ h
  | windowMap _ => exact keep_execWindowMap _ h
  | crypt _ => exact keep_execCrypt _ h
  | cipherOpComplete _ => exact keep_execCipherOpComplete _ h
  | imemLoad _ => exact keep_execImemLoad _ h
  | coresRun _ => exact keep_execCoresRun _ h
  | modChain _ => exact keep_execModChain _ h
  | moveChain _ => exact keep_execMoveChain _ h
  | lockForm _ => exact keep_execLockForm _ h
  | lockStart _ => exact keep_execLockStart _ h
  | lockDissolve _ => exact keep_execLockDissolve _ h
  | lodeReset _ => exact keep_execLodeReset _ h
  | lodeHold _ => exact keep_execLodeHold _ h
  | syncSignal _ => exact keep_execSyncSignal _ h
  | syncWait _ => exact keep_execSyncWait _ h
  | syncRead _ => exact keep_execSyncRead _ h
  | syncSet _ => exact keep_execSyncSet _ h
  | syncEpoch _ => exact keep_execSyncEpoch _ h
  | epochRebase _ => exact keep_execEpochRebase _ h
  | epochTimeout _ => exact keep_execEpochTimeout _ h
  | vmap _ => exact keep_execVmap _ h
  | commCreate _ => exact keep_execCommCreate _ h
  | commDestroy _ => exact keep_execCommDestroy _ h
  | allReduce _ => exact keep_execAllReduce _ h
  | reduceScatter _ => exact keep_execReduceScatter _ h
  | allGather _ => exact keep_execAllGather _ h
  | broadcast _ => exact keep_execBroadcast _ h
  | allToAll _ => exact keep_execAllToAll _ h
  | collectiveContribution _ => exact keep_execCollectiveContribution _ h
  | portMode _ => exact keep_execPortMode _ h
  | rulesCommit _ => exact keep_execRulesCommit _ h
  | rulesCommitApply _ => exact keep_execRulesCommitApply _ h
  | ruleVersionRetire _ => exact keep_execRuleVersionRetire _ h
  | patternsLoad _ => exact keep_execPatternsLoad _ h
  | streamOpen _ => exact keep_execStreamOpen _ h
  | streamClose _ => exact keep_execStreamClose _ h
  | gatesLoad _ => exact keep_execGatesLoad _ h
  | shaperSet _ => exact keep_execShaperSet _ h
  | policerSet _ => exact keep_execPolicerSet _ h
  | ftRingCreate _ => exact keep_execFtRingCreate _ h
  | ftRingDelete _ => exact keep_execFtRingDelete _ h
  | ftRqBind _ => exact keep_execFtRqBind _ h
  | ftRqUnbind _ => exact keep_execFtRqUnbind _ h
  | sqCreate _ => exact keep_execSqCreate _ h
  | sqDelete _ => exact keep_execSqDelete _ h
  | volCreate _ => exact keep_execVolCreate _ h
  | volDelete _ => exact keep_execVolDelete _ h
  | volBind _ => exact keep_execVolBind _ h
  | driveInfo _ => exact keep_execDriveInfo _ h
  | poolAdd _ => exact keep_execPoolAdd _ h
  | save _ => exact keep_execSave _ h
  | saveStepDone _ => exact keep_execSaveStepDone _ h
  | restore _ => exact keep_execRestore _ h
  | restoreStageDone _ => exact keep_execRestoreStageDone _ h
  | drain _ => exact keep_execDrain _ h
  | drainDone _ => exact keep_execDrainDone _ h
  | slotStatus _ => exact keep_execSlotStatus _ h
  | rankTake _ => exact keep_execRankTake _ h
  | rankTakeDiscovered _ => exact keep_execRankTakeDiscovered _ h
  | stageWrite _ _ _ _ => exact keep_execStageWrite _ _ _ _ h
  | layoutDefine _ => exact keep_execLayoutDefine _ h
  | layoutDrop _ => exact keep_execLayoutDrop _ h
  | reshardMove _ => exact keep_execReshardMove _ h
  | assign _ => exact keep_execAssign _ h
  | keyLoad _ => exact keep_execKeyLoad _ h
  | keyErase _ => exact keep_execKeyErase _ h
  | attest _ => exact keep_execAttest _ h
  | debugUnlock _ => exact keep_execDebugUnlock _ h
  | countersRead _ => exact keep_execCountersRead _ h
  | errorsRead _ => exact keep_execErrorsRead _ h
  | errorsClear _ => exact keep_execErrorsClear _ h
  | logRing _ => exact keep_execLogRing _ h
  | traceSet _ => exact keep_execTraceSet _ h
  | opPoint _ => exact keep_execOpPoint _ h
  | lodePower _ => exact keep_execLodePower _ h
  | clockLock _ => exact keep_execClockLock _ h
  | clockLockDone => exact keep_execClockLockDone h
  | tbAdj _ => exact keep_execTbAdj _ h
  | tbSyncArm _ => exact keep_execTbSyncArm _ h
  | deep _ => exact keep_execDeep _ h
  | deepEntryDone => exact keep_execDeepEntryDone h
  | deepExitDone => exact keep_execDeepExitDone h
  | limitsRead _ => exact keep_execLimitsRead _ h
  | signalArrival _ _ => exact keep_execSignalArrival _ _ h
  | waiterJoin _ _ => exact keep_execWaiterJoin _ _ h
  | passNotice _ => exact keep_execPassNotice _ h
  | waitTimeout _ _ => exact keep_execWaitTimeout _ _ h
  | remoteSignalSend => exact keep_execRemoteSignalSend h
  | coreCtxWrite _ _ _ => exact keep_execCoreCtxWrite _ _ _ h
  | fnCtxWrite _ _ _ => exact keep_execFnCtxWrite _ _ _ h
  | watchdogExpiry _ => exact keep_execWatchdogExpiry _ h
  | fwCrash _ _ => exact keep_execFwCrash _ _ h
  | fwRestartDone _ => exact keep_execFwRestartDone _ h
  | controlCoreNotRecovered _ => exact keep_execControlCoreNotRecovered _ h
  | strictWrite _ _ _ => exact keep_execStrictWrite _ _ _ h
  | strictLockWrite _ _ _ => exact keep_execStrictLockWrite _ _ _ h
  | memoryAccess _ _ => exact keep_execMemoryAccess _ _ h
  | refreshSlot _ _ => exact keep_execRefreshSlot _ _ h
  | recalibration _ _ _ _ _ => exact keep_execRecalibration _ _ _ _ _ h
  | memoryScrubRead _ => exact keep_execMemoryScrubRead _ h
  | stackTemperatureReport _ _ => exact keep_execStackTemperatureReport _ _ h
  | segModeWrite _ _ _ => exact keep_execSegModeWrite _ _ _ h
  | segmentFillDone _ => exact keep_execSegmentFillDone _ h
  | blockZeroFillDone _ => exact keep_execBlockZeroFillDone _ h
  | injectArm _ _ _ => exact keep_execInjectArm _ _ _ h
  | regionShareWrite _ _ _ => exact keep_execRegionShareWrite _ _ _ h
  | seamDataFlit _ _ _ => exact keep_execSeamDataFlit _ _ _ h
  | seamCtrlFlit _ _ => exact keep_execSeamCtrlFlit _ _ h
  | seamAckTimeout _ => exact keep_execSeamAckTimeout _ h
  | seamLaneFault _ => exact keep_execSeamLaneFault _ h
  | seamSerWindow _ => exact keep_execSeamSerWindow _ h
  | seamRetrainWrite _ _ _ => exact keep_execSeamRetrainWrite _ _ _ h
  | seamRewidenWrite _ _ _ => exact keep_execSeamRewidenWrite _ _ _ h
  | seamEnableWrite _ _ _ _ => exact keep_execSeamEnableWrite _ _ _ _ h
  | seamTrained _ _ => exact keep_execSeamTrained _ _ h
  | seamCheckDone _ _ => exact keep_execSeamCheckDone _ _ h
  | seamTrainTimeout _ => exact keep_execSeamTrainTimeout _ h
  | seamRetrainTimeout _ => exact keep_execSeamRetrainTimeout _ h
  | seamRetryInterval _ _ => exact keep_execSeamRetryInterval _ _ h
  | seamTransaction _ _ _ => exact keep_execSeamTransaction _ _ _ h
  | seamTransactionAck _ _ _ => exact keep_execSeamTransactionAck _ _ _ h
  | seamBundleTimeout _ => exact keep_execSeamBundleTimeout _ h
  | tbSkewSample _ => exact keep_execTbSkewSample _ h
  | frameReceive _ _ => exact keep_execFrameReceive _ _ h
  | policerRefill => exact keep_execPolicerRefill h
  | ptpMessage => exact keep_execPtpMessage h
  | parseHandoff => exact keep_execParseHandoff h
  | reorderRelease _ => exact keep_execReorderRelease _ h
  | streamPlace _ => exact keep_execStreamPlace _ h
  | streamRecordComplete _ => exact keep_execStreamRecordComplete _ h
  | consumedWrite _ _ _ => exact keep_execConsumedWrite _ _ _ h
  | tenantMapWrite _ _ _ => exact keep_execTenantMapWrite _ _ _ h
  | profileWrite _ _ _ _ => exact keep_execProfileWrite _ _ _ _ h
  | ethEnableWrite _ _ _ _ => exact keep_execEthEnableWrite _ _ _ _ h
  | macLinkChange _ _ => exact keep_execMacLinkChange _ _ h
  | frameTransmit _ => exact keep_execFrameTransmit _ h
  | shaperRefill _ => exact keep_execShaperRefill _ h
  | gateIntervalEnd _ => exact keep_execGateIntervalEnd _ h
  | ftWrite => exact keep_execFtWrite h
  | ftRead => exact keep_execFtRead h
  | ftSend => exact keep_execFtSend h
  | ftAtomic => exact keep_execFtAtomic h
  | ftSignal => exact keep_execFtSignal h
  | ftPacketSend _ => exact keep_execFtPacketSend _ h
  | ftRxWrite => exact keep_execFtRxWrite h
  | ftRxRead => exact keep_execFtRxRead h
  | ftRxReadResp => exact keep_execFtRxReadResp h
  | ftRxSend => exact keep_execFtRxSend h
  | ftRxAtomic => exact keep_execFtRxAtomic h
  | ftRxAtomicResp => exact keep_execFtRxAtomicResp h
  | ftRxAck => exact keep_execFtRxAck h
  | ftRxNak => exact keep_execFtRxNak h
  | ftRxClose => exact keep_execFtRxClose h
  | ftRxSignal => exact keep_execFtRxSignal h
  | ftAckTimer _ _ => exact keep_execFtAckTimer _ _ h
  | ftRtoExpiry _ _ => exact keep_execFtRtoExpiry _ _ h
  | ftRetryLimit _ => exact keep_execFtRetryLimit _ h
  | ftEntryIdleAbort _ _ => exact keep_execFtEntryIdleAbort _ _ h
  | ftEntryLinger _ _ => exact keep_execFtEntryLinger _ _ h
  | ftCloseAgeExpiry _ _ => exact keep_execFtCloseAgeExpiry _ _ h
  | ftRateIncrease _ => exact keep_execFtRateIncrease _ h
  | ftBucketIdle _ => exact keep_execFtBucketIdle _ h
  | stoDoorbellWrite _ _ _ _ => exact keep_execStoDoorbellWrite _ _ _ _ h
  | stoRead => exact keep_execStoRead h
  | stoWrite => exact keep_execStoWrite h
  | stoFlush => exact keep_execStoFlush h
  | stoTrim => exact keep_execStoTrim h
  | stoAtomicWrite => exact keep_execStoAtomicWrite h
  | stoSelfTest => exact keep_execStoSelfTest h
  | stoPower => exact keep_execStoPower h
  | nvmeCommandComplete _ _ _ _ => exact keep_execNvmeCommandComplete _ _ _ _ h
  | nvmeCommandTimeout _ _ => exact keep_execNvmeCommandTimeout _ _ h
  | driveReadyTimeout _ => exact keep_execDriveReadyTimeout _ h
  | drivePresenceChange _ _ => exact keep_execDrivePresenceChange _ _ h
  | selfTestRestart _ => exact keep_execSelfTestRestart _ h
  | selfTestLimit _ => exact keep_execSelfTestLimit _ h
  | apstWrite _ _ _ => exact keep_execApstWrite _ _ _ h
  | bar2Read _ _ _ _ => exact keep_execBar2Read _ _ _ _ h
  | bar2Write _ _ _ _ => exact keep_execBar2Write _ _ _ _ h
  | xlatEntryWrite _ _ _ _ => exact keep_execXlatEntryWrite _ _ _ _ h
  | busMasterEnableChange _ _ => exact keep_execBusMasterEnableChange _ _ h
  | memorySpaceEnableChange _ _ => exact keep_execMemorySpaceEnableChange _ _ h
  | upstreamCompletion _ _ _ _ => exact keep_execUpstreamCompletion _ _ _ _ h
  | upstreamTimeout _ _ _ => exact keep_execUpstreamTimeout _ _ _ h
  | functionLevelReset _ => exact keep_execFunctionLevelReset _ h
  | hostPortReset _ => exact keep_execHostPortReset _ h
  | dlDown _ => exact keep_execDlDown _ h
  | pcieConfigRequest _ => exact keep_execPcieConfigRequest _ h
  | perstChange _ _ => exact keep_execPerstChange _ _ h
  | tenPortWrite _ _ => exact keep_execTenPortWrite _ _ h
  | heartbeatExpiry _ => exact keep_execHeartbeatExpiry _ h
  | securityAlarm _ => exact keep_execSecurityAlarm _ h
  | rngHealthFail => exact keep_execRngHealthFail h
  | jtagTapAccess _ => exact keep_execJtagTapAccess _ h
  | coldReset _ => exact keep_execColdReset _ h
  | startupStepDone _ _ _ _ _ _ _ _ => exact keep_execStartupStepDone _ _ _ _ _ _ _ _ h
  | powerGoodFall => exact keep_execPowerGoodFall h
  | warmReset _ => exact keep_execWarmReset _ h
  | pmSample _ _ _ _ => exact keep_execPmSample _ _ _ _ h
  | frequencySwitch _ _ _ => exact keep_execFrequencySwitch _ _ _ h
  | thermalClamp _ => exact keep_execThermalClamp _ h
  | clampRelease _ => exact keep_execClampRelease _ h
  | thermalTrip _ => exact keep_execThermalTrip _ h
  | lodeIdleExit _ => exact keep_execLodeIdleExit _ h
  | logRingWrite _ => exact keep_execLogRingWrite _ h
  | logHeadWrite _ _ _ => exact keep_execLogHeadWrite _ _ _ h
  | sidebandRecordRead _ => exact keep_execSidebandRecordRead _ h
  | exportPacketSend => exact keep_execExportPacketSend h
  | msiXUnmask _ _ => exact keep_execMsiXUnmask _ _ h
  | pcieLinkUp _ _ _ => exact keep_execPcieLinkUp _ _ _ h
  | entropyStartUpTestsPass => exact keep_execEntropyStartUpTestsPass h
  | entropyWaitTimeout _ => exact keep_execEntropyWaitTimeout _ h
  | deviceSelfTestComplete _ _ => exact keep_execDeviceSelfTestComplete _ _ h
  | driveReady _ => exact keep_execDriveReady _ h

theorem step_of_idle {s : State} (h : s.pending = []) : step s = .next (tick s) := by
  simp only [step, h]

theorem step_of_cons {s : State} {c : Instr} {rest : List Instr} (h : s.pending = c :: rest) : step s = exec c { s with pending := rest } := by
  simp only [step, h]

/-- A step is a command of the queue, taken off it first, or a tick; either keeps what `Keeps` names. -/
theorem keep_step {s t : State} (h : step s = .next t) : Keeps { s with pending := s.pending.tail } t := by
  cases hqueue : s.pending with
  | nil =>
    rw [step_of_idle hqueue] at h
    cases h
    rw [List.tail_nil, ← hqueue]
    exact (Keeps.refl s).same rfl
  | cons c rest =>
    rw [step_of_cons hqueue] at h
    exact keep_exec c h

theorem Sound.of_fields {a s : State} (h : a.Sound) (hmem : s.memWf = a.memWf) (hhost : s.hostWf = a.hostWf) (hregs : s.regsWf = a.regsWf)
    (hpaths : s.pathsOk = a.pathsOk) : s.Sound :=
  ⟨hmem ▸ h.mem, hhost ▸ h.host, hregs ▸ h.regs, hpaths ▸ h.paths⟩

/-- Settles O3: soundness is part of what every step keeps. -/
theorem step_KeepsSound : Obligations.Step_KeepsSound := by
  unfold Obligations.Step_KeepsSound
  intro s t hs hstep
  exact (keep_step hstep).sound (Sound.of_fields hs rfl rfl rfl rfl)

/-- Settles O5: so are the queue without its front, the draws and the wire. -/
theorem step_QueueAndWire : Obligations.Step_QueueAndWire := by
  unfold Obligations.Step_QueueAndWire
  intro s t hstep
  have hkeeps := keep_step hstep
  exact ⟨hkeeps.pending, hkeeps.fresh, hkeeps.wire⟩

/-- Settles O1: `step` is defined by that equation. -/
theorem step_RunsFront : Obligations.Step_RunsFront := fun _ _ _ => rfl

/-- Settles O2: with the queue empty a step is `tick`, which is that update. -/
theorem step_IdleTicks : Obligations.Step_IdleTicks := fun _ h => step_of_idle h

end Sys2Proof.Machine
end

section
/-! PROOFS. The state after reset: the registers are those of the register map's reset column. -/
namespace Sys2Proof.Machine

open Sys2Proof

theorem reg_reset (r : Reg) (i j : Nat) : State.reset.reg r i j = regReset r i j := rfl

/-- FT.PATH[p] alone has a reset value that depends on its copy. -/
theorem regReset_eq_reset {r : Reg} (h : r ≠ .ftPath) (i j : Nat) : regReset r i j = (regRow r).reset := by
  cases r
  case ftPath => exact absurd rfl h
  all_goals rfl

theorem reset_of_mem_resetNonzero : ∀ e ∈ resetNonzero, e.1 ≠ .ftPath ∧ (regRow e.1).reset = e.2 := by
  decide

theorem reset_eq_zero_of_not_mem {r : Reg} (hp : r ≠ .ftPath) (h : r ∉ resetNonzero.map Prod.fst) : (regRow r).reset = 0 := by
  cases r
  case ftPath => exact absurd rfl hp
  all_goals revert h; decide

/-- Settles O4: nothing is written yet, so every register reads its reset value. -/
theorem reset_State : Obligations.Reset_State := by
  unfold Obligations.Reset_State
  refine ⟨⟨rfl, rfl, rfl, rfl⟩, rfl, fun r v i j h => ?_, fun i p => rfl, fun r i j hp h => ?_⟩
  · obtain ⟨hpath, hreset⟩ := reset_of_mem_resetNonzero _ h
    rw [reg_reset, regReset_eq_reset hpath, hreset]
  · rw [reg_reset, regReset_eq_reset hp, reset_eq_zero_of_not_mem hp h]

end Sys2Proof.Machine
end

section
/-! PROOFS. SESSION commands (R203, R205, R210, R434). -/
namespace Sys2Proof.Machine

open Sys2Proof

section
variable {s : State} {id : Nat} {c : Cmd}

theorem exec_hello_of_closed {v : Nat} (h : Ready s .hello id c) (hfn : c.fn < 16) (hclosed : sessOpen s c.fn = false)
    (hver : helloVer s c.fn (c.p 0) (c.p 1) (c.p 2) = some v) :
    let t := beginHb c.fn (c.p 3) (c.p 4) (s.setReg .cmdSession c.fn 0 (1 + v * 256))
    exec (.hello id) s = .next (finish id 0x0000 v (bundleNow t) (s.reg .cmdDevRange c.fn) 0 t) := by
  have htenant : ¬ 16 ≤ c.fn := by omega
  refine (h.exec _).trans ?_
  simp only [hclosed, hver, htenant]
  rfl

theorem restartHb_of_open {fn : Nat} (h : sessOpen s fn = true) :
    restartHb fn s = s.setHost fn { s.host fn with hbDue := some (s.tb.ticks + (tget {} s.cmd.sessions fn).hbMs * 1000000) } :=
  if_pos h

theorem exec_goodbye_of_free (h : Ready s .goodbye id c) (hqps : ∀ q, 0 < q → q < 64 → (s.qp c.fn q).st = 0)
    (hothers : 16 ≤ c.fn → ∀ i, i < 18 → i ≠ c.fn → sessOpen s i = false) :
    exec (.goodbye id) s = .next (finish0 id 0x0000 (endHb c.fn (s.setReg .cmdSession c.fn 0 0))) := by
  have hidle : ((List.range 63).any fun q => (s.qp c.fn (q + 1)).st != 0) = false := by
    simpa using fun q hq => hqps (q + 1) (by omega) (by omega)
  have halone : (decide (16 ≤ c.fn) && (List.range 18).any fun i => i != c.fn && sessOpen s i) = false := by
    simpa using hothers
  refine (h.exec _).trans ?_
  simp only [hidle, halone]
  rfl

end

/-- Settles O8: each clause is its command's meaning, with the tests that it makes decided. -/
theorem session_Commands : Obligations.Session_Commands := by
  unfold Obligations.Session_Commands
  refine fun s id c => ⟨fun v h hfn hclosed hver => exec_hello_of_closed h hfn hclosed hver, fun h hopen => ?_,
    fun h hqps hothers => exec_goodbye_of_free h hqps hothers⟩
  rw [← restartHb_of_open hopen]
  exact h.exec _

end Sys2Proof.Machine
end

section
/-! PROOFS. QUEUE commands (R211, R216 to R218, R427). -/
namespace Sys2Proof.Machine

open Sys2Proof

section
variable {s : State} {id : Nat} {c : Cmd}

theorem exec_qpCreate_of_absent (h : Ready s .qpCreate id c) (hst : (s.qp c.fn (c.p 0)).st = 0) :
    exec (.qpCreate id) s = .next (finish0 id 0x0000 (s.setQp c.fn (c.p 0)
      { st := 1, log2 := c.p 1, prio := c.p 2, vector := c.p 3, sq := c.p 4, cq := c.p 5 })) := by
  refine (h.exec _).trans ?_
  simp only [hst]
  rfl

theorem exec_qpCreate_of_present (h : Ready s .qpCreate id c) (hst : (s.qp c.fn (c.p 0)).st ≠ 0) :
    exec (.qpCreate id) s = .next (finish id 0x0201 (0x02 + c.p 0 * 256) (s.qp c.fn (c.p 0)).st 0 0 s) :=
  (h.exec _).trans (congrArg _ (if_pos hst))

theorem mayDelete_of_error {fn q : Nat} (self : Option Nat) (h : (s.qp fn q).st = 2) : mayDelete s fn q self = true := by
  simp only [mayDelete, h]

theorem exec_qpDelete_of_error (h : Ready s .qpDelete id c) (hst : (s.qp c.fn (c.p 0)).st = 2) :
    exec (.qpDelete id) s = .next (finish0 id 0x0000 (removeQp c.fn (c.p 0) s)) :=
  (h.exec _).trans (congrArg _ (if_pos (mayDelete_of_error none hst)))

/-- The command that an ABORT names: the function's own, waiting, and not about to end by itself (R218). -/
def abortTarget (s : State) (c : Cmd) : Option Cmd :=
  s.cmd.cmds.find? fun d => d.fn == c.fn && d.q == c.p 0 && d.tag == c.p 1 && waits d && !released s d

theorem exec_abort_of_found {d : Cmd} (h : Ready s .abort id c) (hd : abortTarget s c = some d) :
    exec (.abort id) s = .next (finish id 0x0000 1 0 0 0 (finish0 d.id 0x0701 (cancelCmd d s))) := by
  unfold abortTarget at hd
  refine (h.exec _).trans ?_
  simp only [hd]
  rfl

theorem exec_abort_of_none (h : Ready s .abort id c) (hd : abortTarget s c = none) : exec (.abort id) s = .next (finish0 id 0x0000 s) := by
  unfold abortTarget at hd
  refine (h.exec _).trans ?_
  simp only [hd]
  rfl

theorem exec_identify_of_reachable (h : Ready s .identify id c) (hbme : (s.host c.fn).bme = true)
    (hok : ∀ i, i < 4096 → tget .unknown s.hostMem (hostKey (fnPort s c.fn) (c.p 1 + i)) ≠ .bad) :
    exec (.identify id) s = .next (finish id 0x0000 partId 0 0 0 { s with
      hostMem := hostPut s.hostMem (fnPort s c.fn) (c.p 1) (fit 4096 ((identifyWords s c.fn (c.p 0)).flatMap (leBytes 4))) }) := by
  refine (h.exec _).trans ?_
  rw [hostWrite_ok hbme (by simpa using hok)]
  rfl

/-- One translation entry for each block of a WINDOW_MAP (R211, R427). -/
def mapEntries (b n a : Nat) (t : Tbl Nat) : Tbl Nat := (List.range n).foldl (fun t i => tput 0 t (b + i) (1 + (a + i * 2 ^ 21) % 2 ^ 52)) t

theorem tget_mapEntries (b n a : Nat) (t : Tbl Nat) (k : Nat) :
    tget 0 (mapEntries b n a t) k = if b ≤ k ∧ k < b + n then 1 + (a + (k - b) * 0x200000) % 0x10000000000000 else tget 0 t k :=
  tget_fill b 0 (fun i => 1 + (a + i * 2 ^ 21) % 2 ^ 52) n t k

theorem exec_windowMap_of_translated (h : Ready s .windowMap id c) (hmode : s.reg .hifCfg % 2 = 1) :
    exec (.windowMap id) s = .next (finish0 id 0x0000 (s.setHost c.fn { s.host c.fn with
      xlat := mapEntries (c.p 0) (c.p 1) (c.p 2) (s.host c.fn).xlat })) := by
  refine (h.exec _).trans (congrArg _ (if_neg ?_))
  simp [hmode]

end

/-- Settles O9: each clause is its command's meaning; the entries of WINDOW_MAP read back as a run. -/
theorem queue_Commands : Obligations.Queue_Commands := by
  unfold Obligations.Queue_Commands
  refine fun s id c => ⟨exec_qpCreate_of_absent, exec_qpCreate_of_present, exec_qpDelete_of_error, fun d => exec_abort_of_found,
    exec_abort_of_none, exec_identify_of_reachable, fun h hmode => ⟨_, exec_windowMap_of_translated h hmode, fun fn hfn => ?_, fun b => ?_⟩⟩
  · exact host_setHost_other s c.fn _ hfn
  · rw [host_setHost]
    exact tget_mapEntries ..

end Sys2Proof.Machine
end

section
/-! PROOFS. Doorbells and the admin queue (R186, R189, R217). -/
namespace Sys2Proof.Machine

open Sys2Proof

@[simp] theorem qp_setReg (s : State) (r : Reg) (i j v fn q : Nat) : (s.setReg r i j v).qp fn q = s.qp fn q := rfl

@[simp] theorem qp_orReg (s : State) (r : Reg) (i j m fn q : Nat) : (s.orReg r i j m).qp fn q = s.qp fn q := rfl

section
variable {s : State} {fn q : Nat}

theorem restartHb_of_closed (h : sessOpen s fn = false) : restartHb fn s = s := by
  simp [restartHb, h]

theorem sqTail_of_active {v : Nat} (hclosed : sessOpen s fn = false) (hst : (s.qp fn q).st = 1) (hv : v < 2 ^ (s.qp fn q).log2) :
    sqTail fn q v s = s.setQp fn q { s.qp fn q with tail := v } := by
  unfold sqTail
  dsimp only
  rw [if_neg (by omega), restartHb_of_closed hclosed, if_neg (by omega), if_neg (Nat.not_le.2 hv)]

theorem sqTail_of_beyond {v : Nat} (hclosed : sessOpen s fn = false) (hst : (s.qp fn q).st = 1) (hv : 2 ^ (s.qp fn q).log2 ≤ v) :
    sqTail fn q v s = qpError fn q 0 s := by
  unfold sqTail
  dsimp only
  rw [if_neg (by omega), restartHb_of_closed hclosed, if_neg (by omega), if_pos hv]

theorem qp_qpError (k : Nat) (hq : q < 64) : ((qpError fn q k s).qp fn q).st = 2 := by
  unfold qpError
  dsimp only
  split
  · rw [qp_orReg, qp_setQp _ _ hq]
  · rw [qp_setReg, qp_orReg, qp_setQp _ _ hq]

theorem bit_cmdErr_qpError {k : Nat} (hk : k < 32) : bit ((qpError fn q k s).reg .cmdErr fn) k = true := by
  have hor (u : State) : bit ((u.orReg .cmdErr fn 0 (2 ^ k)).reg .cmdErr fn) k = true := by
    rw [reg_orReg]
    exact (bit_mod _ 32 _ hk).trans (bit_or ..)
  unfold qpError
  dsimp only
  split
  · exact hor _
  · rw [reg_setReg_other _ _ (by simp [regAddr, regRow]), hor]

theorem cqHead_of_used {v : Nat} (hclosed : sessOpen s fn = false) (hst : (s.qp fn q).st = 1) (hv : v < 2 ^ (s.qp fn q).log2)
    (hn : (v + 2 ^ (s.qp fn q).log2 - (s.qp fn q).cqHead) % 2 ^ (s.qp fn q).log2 ≤ (s.qp fn q).cqUsed) :
    cqHead fn q v s = s.setQp fn q { s.qp fn q with
      cqHead := v, cqUsed := (s.qp fn q).cqUsed - (v + 2 ^ (s.qp fn q).log2 - (s.qp fn q).cqHead) % 2 ^ (s.qp fn q).log2 } := by
  simp [cqHead, restartHb_of_closed hclosed, hst, Nat.not_le.2 hv, Nat.not_lt.2 hn]

/-- Enabling the admin queue with a legal LOG2 makes queue 0 ACTIVE over the registers' rings (R189). -/
theorem qp_admqWrite_of_enable {v k : Nat} (hk : k = bits v 7 4) (hoff : bit (s.reg .cmdAdmq fn) 0 = false) (hon : bit v 0 = true)
    (hlo : 4 ≤ k) (hhi : k ≤ 12) :
    (admqWrite fn v s).qp fn 0 = { st := 1, log2 := k, sq := s.reg .cmdAdmqSq fn, cq := s.reg .cmdAdmqCq fn } := by
  have hsq (u : State) (h l x : Nat) : (u.setField .cmdAdmq fn 0 h l x).reg .cmdAdmqSq fn = u.reg .cmdAdmqSq fn :=
    reg_setField_other _ _ _ _ (by simp [regAddr, regRow])
  have hcq (u : State) (h l x : Nat) : (u.setField .cmdAdmq fn 0 h l x).reg .cmdAdmqCq fn = u.reg .cmdAdmqCq fn :=
    reg_setField_other _ _ _ _ (by simp [regAddr, regRow])
  have hlegal : ¬ (k < 4 ∨ 12 < k) := by omega
  simp only [admqWrite, hoff, hon, ← hk, if_neg hlegal, hsq, hcq]
  exact qp_setQp _ _ (by decide)

end

/-- Settles O10: each doorbell's operation, on the function that the window's BAR belongs to. -/
theorem doorbells : Obligations.Doorbells := by
  unfold Obligations.Doorbells
  intro s p v q fn val hrun hp hv hbar hclosed hst
  have hinstances : (decide (p < 2) && decide (v < 17)) = true := by simp [hp, hv]
  have htail : exec (.sqTailWrite p v q val) s = .next (sqTail fn q val.toNat s) := by
    show execSqTailWrite p v q val s = _
    unfold execSqTailWrite
    rw [run_next hinstances hrun, hbar]
  have hhead : exec (.cqHeadWrite p v q val) s = .next (cqHead fn q val.toNat s) := by
    show execCqHeadWrite p v q val s = _
    unfold execCqHeadWrite
    rw [run_next hinstances hrun, hbar]
  refine ⟨fun hval => ?_, fun hval => ?_, fun hval hn => ?_, fun w k hk hoff hon hlo hhi hfn => ?_⟩
  · rw [htail, sqTail_of_active hclosed hst hval]
  · rw [htail, sqTail_of_beyond hclosed hst hval]
    exact ⟨_, rfl, qp_qpError 0, bit_cmdErr_qpError (by decide)⟩
  · rw [hhead, cqHead_of_used hclosed hst hval hn]
  · refine ⟨_, (run_next (by simp [hfn]) hrun).trans (congrArg _ (onlyIf_true (by simp))), ?_⟩
    exact qp_admqWrite_of_enable hk hoff hon hlo hhi

end Sys2Proof.Machine
end

section
/-! PROOFS. Taking, dispatch and replies (R187, R188, R191, R195, R201, R240), and the heartbeat's expiry (R435). -/
namespace Sys2Proof.Machine

open Sys2Proof

section
variable {s : State}

theorem exec_submissionFetch_of_found {fn q : Nat} {t : State} (hrun : s.power.running = true)
    (hfn : (fnOrder (askRings s)).find? (fun fn => takeQps (askRings s) fn != []) = some fn)
    (hpick : pickQp fn (takeQps (askRings s) fn) (askRings s) = (q, t)) :
    exec .submissionFetch s = .next (takeFrom fn q t) := by
  show execSubmissionFetch s = _
  unfold execSubmissionFetch
  rw [run_next rfl hrun]
  simp only [hfn, hpick]

/-- A management function's command enters as soon as all its entries are known. -/
theorem takeFrom_of_known {fn q : Nat} {b bs : Bytes} {u : State} (hu : u = { s with cmd := { s.cmd with lastFn := fn } })
    (hread : hostRead u fn ((s.qp fn q).sq + 64 * (s.qp fn q).head) 64 = (u, .ok b))
    (hring : ringRead fn (s.qp fn q) (spanOf (s.qp fn q) (fld b 3 1)) (s.qp fn q).head u = (u, .ok bs)) (hfn : 16 ≤ fn) :
    let head := ((s.qp fn q).head + spanOf (s.qp fn q) (fld b 3 1)) % 2 ^ (s.qp fn q).log2
    let t := u.setQp fn q { s.qp fn q with head := head, credit := (s.qp fn q).credit - 1 }
    takeFrom fn q s = continueHold fn (admitCmd { id := s.cmd.nextId, fn := fn, q := q, head := head, bytes := bs, phase := .ready }
      (restartHb fn { t with cmd := { t.cmd with nextId := s.cmd.nextId + 1 } })) := by
  subst hu
  unfold takeFrom
  simp only [hread, hring, if_neg (Nat.not_lt.2 hfn)]
  rfl

theorem exec_commandDispatch_of_eligible {id : Nat} {c : Cmd} (hrun : s.power.running = true) (hc : findCmd s id = some c)
    (hlisted : c.phase = .listed) (hfw : (s.fwp 32).st = .running) (heligible : cmdEligible s c = true) :
    exec (.commandDispatch id) s = .next (modCmd id (fun c => { c with phase := .ready }) s) := by
  show execCommandDispatch id s = _
  unfold execCommandDispatch
  rw [run_next rfl hrun]
  simp only [hc]
  rw [if_pos ⟨hlisted, hfw, heligible⟩]

theorem replyWrite_of_reachable {id : Nat} {c : Cmd} (hc : findCmd s id = some c) (hnext : replyNext s c = true)
    (hst : (s.qp c.fn c.q).st ≠ 0) (hbme : (s.host c.fn).bme = true) (hfn : 16 ≤ c.fn)
    (hok : ∀ i, i < (replyBytes c (s.qp c.fn c.q).phase s.now).length →
      tget .unknown s.hostMem (hostKey (fnPort s c.fn) ((s.qp c.fn c.q).cq + 32 * (s.qp c.fn c.q).cqTail + i)) ≠ .bad) :
    let x := s.qp c.fn c.q
    let wrap := x.cqTail + 1 = 2 ^ x.log2
    let t := ({ s with hostMem := hostPut s.hostMem (fnPort s c.fn) (x.cq + 32 * x.cqTail) (replyBytes c x.phase s.now) } : State).setQp c.fn c.q
      { x with cqTail := if wrap then 0 else x.cqTail + 1, phase := if wrap then !x.phase else x.phase, cqUsed := x.cqUsed + 1 }
    replyWrite id s = signalVector c.fn (qpVector t c.fn c.q) (dropCmds (fun d => d.id == id) t) := by
  have hguard : (!replyNext s c || (s.qp c.fn c.q).st == 0 || !fnBme s c.fn) = false := by simp [hnext, hst, fnBme, hbme]
  unfold replyWrite
  simp only [hc, hguard, hostWrite_ok hbme hok, if_neg (Nat.not_lt.2 hfn)]
  rfl

theorem exec_heartbeatExpiry_of_due {i due : Nat} (hrun : s.power.running = true) (hi : i < 16) (hhb : (s.host i).hbDue = some due)
    (hdue : due ≤ s.tb.ticks) (hpolicy : (tget {} s.cmd.sessions i).policy = 0) :
    exec (.heartbeatExpiry i) s = .next (continueHold i (raise 2 (some i) (regAddr .hifSts i 0 0) 0x8009 (zeros 2 ++ leBytes 4 i)
      (s.setHost i { s.host i with hbDue := none, hbLost := true }))) := by
  have hinstance : decide (i < 18) = true := by simp; omega
  show execHeartbeatExpiry i s = _
  unfold execHeartbeatExpiry
  rw [run_next hinstance hrun]
  simp only [hhb, if_neg (Nat.not_lt.2 hdue), hpolicy, if_pos hi]
  simp

end

/-- Settles O11: each clause is its command's meaning, with the tests that it makes decided. -/
theorem take_Dispatch_Reply : Obligations.Take_Dispatch_Reply := by
  unfold Obligations.Take_Dispatch_Reply
  exact fun s hrun => ⟨fun fn q t => exec_submissionFetch_of_found hrun, fun fn q b bs => takeFrom_of_known rfl,
    fun id c => exec_commandDispatch_of_eligible hrun,
    fun id c hc hnext hst hbme hfn hok => (run_next rfl hrun).trans (congrArg _ (replyWrite_of_reachable hc hnext hst hbme hfn hok)),
    fun i due => exec_heartbeatExpiry_of_due hrun⟩

end Sys2Proof.Machine
end

section
/-! PROOFS. A matrix engine's queue and the acceptance of its head (R82 to R84, R87, R89, R95, R100, R102, R103). -/
namespace Sys2Proof.Machine

open Sys2Proof

theorem foldl_eq_start_of_mem {α β : Type} {f : β → α → β} {b : β} : ∀ {l : List α}, (∀ a ∈ l, f b a = b) → l.foldl f b = b
  | [], _ => rfl
  | a :: l, h => by
    obtain ⟨ha, hl⟩ := List.forall_mem_cons.1 h
    rw [List.foldl_cons, ha, foldl_eq_start_of_mem hl]

/-! ### Enqueueing (R82, R83) -/

section
variable {s : State} {n : Nat}

theorem enqueueAt_of_full (pos : Nat) (h : 8 ≤ (s.engine n).queue.length) : enqueueAt n pos s = s :=
  if_neg (Nat.not_lt.2 h)

theorem enqueueAt_of_no_offer {pos : Nat} (h : ∀ m ∈ (s.engine n).offers, m.pos ≠ pos) : enqueueAt n pos s = s := by
  have hnone : takeFirst (fun m => m.pos == pos) (s.engine n).offers = none := takeFirst_eq_none fun m hm => beq_eq_false_iff_ne.2 (h m hm)
  simp only [enqueueAt, hnone, ite_self]

/-- Where every chain has offered all its descriptors, a queue that takes one asks for no other (R109). -/
theorem offerChains_of_exhausted (moves : Bool) (unit : Nat) (h : ∀ c ∈ s.chains, c.count ≤ c.next) : offerChains moves unit s = s := by
  have hnone : (s.chains.find? fun c => c.moves == moves && c.unit == unit && decide (c.next < c.count) && c.stop.isNone) = none := by
    rw [List.find?_eq_none]
    intro c hc
    simp [Nat.not_lt.2 (h c hc)]
  refine foldl_eq_start (fun _ => ?_) _
  unfold offerNext
  simp only [hnone, ite_self]

/-- The state once the one offer has entered its queue, and the core that made it may issue its bundle. -/
def enqueued (n : Nat) (m : Mod) (s : State) : State :=
  let t := s.setEngine n { s.engine n with offers := [], queue := (s.engine n).queue ++ [m], rr := (m.pos + 1) % 10 }
  match m.issuer with
  | .core k => offerTaken k false t
  | _ => t

theorem enqueueAt_of_offer {m : Mod} (hoffers : (s.engine n).offers = [m]) (hroom : (s.engine n).queue.length < 8)
    (hchains : m.issuer = .ctl ∨ ∀ c ∈ s.chains, c.count ≤ c.next) : enqueueAt n m.pos s = enqueued n m s := by
  unfold enqueueAt enqueued
  simp only [if_pos hroom, hoffers, takeFirst, beq_self_eq_true, if_true]
  cases hissuer : m.issuer
  case core | ctl => rfl
  case fn => exact offerChains_of_exhausted false n (hchains.resolve_left (by simp [hissuer]))

theorem offers_enqueued (m : Mod) : ((enqueued n m s).engine n).offers = [] := by
  have htaken (k : Nat) (t : State) : (offerTaken k false t).engine n = t.engine n := rfl
  unfold enqueued
  cases m.issuer <;> simp [htaken]

/-- A round over the positions enqueues the one offer there is, wherever the pointer stands. -/
theorem enqueue_round_of_offer {m : Mod} (hoffers : (s.engine n).offers = [m]) (hpos : m.pos < 10) {rr : Nat} (hrr : rr < 10)
    (hroom : (s.engine n).queue.length < 8) (hchains : m.issuer = .ctl ∨ ∀ c ∈ s.chains, c.count ≤ c.next) :
    (List.range 10).foldl (fun s i => enqueueAt n ((rr + i) % 10) s) s = enqueued n m s := by
  have hmem : m.pos ∈ (List.range 10).map fun i => (rr + i) % 10 :=
    List.mem_map.2 ⟨(m.pos + 10 - rr) % 10, List.mem_range.2 (by omega), by omega⟩
  obtain ⟨before, after, hsplit, hnew⟩ := List.eq_append_cons_of_mem hmem
  have hbefore : before.foldl (fun s pos => enqueueAt n pos s) s = s := by
    refine foldl_eq_start_of_mem fun pos hp => enqueueAt_of_no_offer ?_
    rw [hoffers, List.forall_mem_singleton]
    rintro rfl
    exact hnew hp
  have hafter : after.foldl (fun s pos => enqueueAt n pos s) (enqueued n m s) = enqueued n m s :=
    foldl_eq_start (fun pos => enqueueAt_of_no_offer (by simp [offers_enqueued])) after
  calc (List.range 10).foldl (fun s i => enqueueAt n ((rr + i) % 10) s) s
      = (before ++ m.pos :: after).foldl (fun s pos => enqueueAt n pos s) s := by rw [← hsplit, List.foldl_map]
    _ = enqueued n m s := by rw [List.foldl_append, hbefore, List.foldl_cons, enqueueAt_of_offer hoffers hroom hchains, hafter]

theorem exec_modEnqueue (q : Enqueue) (hrun : s.power.running = true) (hn : q.unit < 64) :
    exec (.modEnqueue q) s = .next ((List.range 10).foldl
      (fun t i => enqueueAt q.unit ((((ctlOffer q.unit q.ctl s).engine q.unit).rr + i) % 10) t) (ctlOffer q.unit q.ctl s)) := by
  show execModEnqueue q s = _
  unfold execModEnqueue
  rw [run_next (decide_eq_true hn) hrun]

end

/-! ### Acceptance (R84, R89) -/

section
variable {s : State} {n : Nat} {d : Mod} {rest : List Mod} {mine : Nat → Bool}

/-- What is tested of the head that an engine may accept: its checks, the resident shape it continues, the memory that it touches. -/
theorem acceptHead_of_head (hqueue : (s.engine n).queue = d :: rest) (hfree : engFree s n = true) (hmine : mine (modFields d.bytes).op = true)
    (hwaits : modWaits s n (modFields d.bytes) (modXl s n d) = false) :
    acceptHead n mine s =
      let m := modFields d.bytes
      let t := takeHead n d rest s
      let o := opOfMod n d (modXl s n d) t
      match modCheck t n m (modXl s n d) with
      | some (st, f) => failOp n o st f t
      | none => if !contOk (s.engine n) m then failOp n o stConflict 0 t else beginOp n m o t := by
  unfold acceptHead
  simp only [hqueue, hfree, hmine, hwaits, Bool.and_self, if_true]
  rfl

theorem acceptHead_of_passing (hqueue : (s.engine n).queue = d :: rest) (hfree : engFree s n = true) (hmine : mine (modFields d.bytes).op = true)
    (hcheck : modCheck (takeHead n d rest s) n (modFields d.bytes) (modXl s n d) = none)
    (hcont : contOk (s.engine n) (modFields d.bytes) = true) (hready : ∀ x, x ∈ opExts s n (modFields d.bytes) → rowsWait s x = false) :
    acceptHead n mine s = beginOp n (modFields d.bytes) (opOfMod n d (modXl s n d) (takeHead n d rest s)) (takeHead n d rest s) := by
  have hwaits : modWaits s n (modFields d.bytes) (modXl s n d) = false := by
    have hrows : (opExts s n (modFields d.bytes)).any (rowsWait s) = false := by simpa using hready
    simp [modWaits, hrows]
  rw [acceptHead_of_head hqueue hfree hmine hwaits]
  simp only [hcheck, hcont]
  rfl

theorem acceptHead_of_failing {st f : Nat} (hqueue : (s.engine n).queue = d :: rest) (hfree : engFree s n = true)
    (hmine : mine (modFields d.bytes).op = true) (hbefore : modCheck s n (modFields d.bytes) (modXl s n d) = some (st, f))
    (hcheck : modCheck (takeHead n d rest s) n (modFields d.bytes) (modXl s n d) = some (st, f)) :
    acceptHead n mine s = failOp n (opOfMod n d (modXl s n d) (takeHead n d rest s)) st f (takeHead n d rest s) := by
  have hwaits : modWaits s n (modFields d.bytes) (modXl s n d) = false := by simp [modWaits, hbefore]
  rw [acceptHead_of_head hqueue hfree hmine hwaits]
  simp only [hcheck]

theorem exec_acceptHead (hrun : s.power.running = true) (hn : n < 64) (mine : Nat → Bool) :
    run (n < 64) s (acceptHead n mine) = .next (acceptHead n mine s) :=
  run_next (decide_eq_true hn) hrun

end

/-- Settles O12: a round over the positions enqueues the one offer; the head is taken under the checks that `acceptHead_of_head` names. -/
theorem engine_Accepts : Obligations.Engine_Accepts := by
  unfold Obligations.Engine_Accepts
  intro s n hrun hn
  refine ⟨fun m hoffers hrr hpos hchains hroom => ?_, fun hfull => ?_, fun b hfw hoffers hrr hroom => ?_,
    fun d rest hqueue hfree => ⟨fun hbefore hcheck hcont hready => ?_, fun st f hbefore hcheck hop => ?_⟩⟩
  · exact (exec_modEnqueue ⟨n, none⟩ hrun hn).trans
      (congrArg _ (enqueue_round_of_offer hoffers hpos (hrr ▸ hpos) hroom (.inr hchains)))
  · exact (exec_modEnqueue ⟨n, none⟩ hrun hn).trans (congrArg _ (foldl_eq_start (fun i => enqueueAt_of_full _ hfull) _))
  · have hoffer : ctlOffer n (some b) s = s.setEngine n { s.engine n with offers := [⟨fit 64 b, 9, .ctl, none⟩] } := by
      simp [ctlOffer, hfw, hoffers]
    rw [exec_modEnqueue ⟨n, some b⟩ hrun hn, hoffer, engine_setEngine,
      enqueue_round_of_offer (m := ⟨fit 64 b, 9, .ctl, none⟩) (by simp) (by simp) hrr (by simpa using hroom) (.inl rfl)]
    simp only [enqueued, engine_setEngine, hoffers]
  · have hbegin {mine : Nat → Bool} (hmine : mine (modFields d.bytes).op = true) :
        acceptHead n mine s = beginOp n (modFields d.bytes) (opOfMod n d (modXl s n d) (takeHead n d rest s)) (takeHead n d rest s) :=
      acceptHead_of_passing hqueue hfree hmine hcheck hcont hready
    refine ⟨fun hop => ?_, fun hop => ?_, fun u es seed hop hslices => ?_, fun hop => ?_, fun hop => ?_⟩
    all_goals
      refine (exec_acceptHead hrun hn _).trans (congrArg _ ((hbegin (by simp [hop])).trans ?_))
      simp only [beginOp, hop]
    rw [hslices]
  · exact (exec_acceptHead hrun hn _).trans (congrArg _ (acceptHead_of_failing hqueue hfree (by simp [hop]) hbefore hcheck))

end Sys2Proof.Machine
end

section
/-! PROOFS. How a matrix engine's operation produces and ends, and the writes of its CTRL (R95, R98, R106, R108, R110, R111). That the rows
already written are an operand is log entry 12, that DROP_RESIDENT acts in every state log entry 113. -/
namespace Sys2Proof.Machine

open Sys2Proof

/-- A write of a register by the tenant that owns it takes effect (R45). -/
theorem instWrite_of_owner {who owner : Nat} (f : State → State) (s : State) (hwho : who < 16) (howner : owner = who + 1) :
    instWrite who owner f s = f s := by
  unfold instWrite
  rw [if_neg (by omega), if_neg (by omega), if_pos (.inr howner)]

theorem bit_toNat (val : Word) (k : Nat) : bit val.toNat k = val.getLsbD k := bit_testBit ..

section
variable {s : State} {n : Nat}

theorem exec_engineDrainStart_of_complete {o : EngOp} {u : State} {fl : Nat} (hrun : s.power.running = true) (hn : n < 64)
    (hop : (s.engine n).op = some o) (hphase : (s.engine n).phase = .running) (hfault : o.fault = 0) (hstatus : o.status = 0x0000)
    (hue : o.ue = none) (hsums : (modFields o.mod.bytes).op = 1 ∨ (modFields o.mod.bytes).op = 2)
    (hkeep : (modFields o.mod.bytes).isKeep = false) (hrows : writeRows (modFields o.mod.bytes) o.seed o.rows 0 s = (u, fl, none)) :
    exec (.engineDrainStart n) s = .next (arithEv n fl (u.setEngine n { u.engine n with
      phase := .draining, op := some { o with rows := [], arith := o.arith ||| fl, resFlag := true } })) := by
  show execEngineDrainStart n s = _
  unfold execEngineDrainStart
  rw [run_next (decide_eq_true hn) hrun]
  simp only [hop]
  rw [if_pos ⟨hphase, hfault, .inl hstatus, hue, hsums, hkeep⟩, hrows]

/-- An operation that ends UNCORRECTABLE with its FAULT, and what is resident with it (R98, R111). -/
def EndsUncorrectable (n cw : Nat) (t : State) : Prop :=
  (t.engine n).shape = none ∧ (t.engine n).store = [] ∧ ∃ o, (t.engine n).op = some o ∧ o.status = 0x0401 ∧ o.fault = cw

theorem endsUncorrectable_endUe (o : EngOp) (cw : Nat) (t : State) : EndsUncorrectable n cw (endUe n o cw t) := by
  unfold EndsUncorrectable endUe
  rw [engine_setEngine]
  exact ⟨rfl, rfl, _, rfl, rfl, rfl⟩

theorem exec_engineOperandUe_of_written {o : EngOp} {cw rows : Nat} {u : State} (hrun : s.power.running = true) (hn : n < 64)
    (hop : (s.engine n).op = some o) (hue : o.ue = some cw)
    (hwrites : if (modFields o.mod.bytes).op = 4 then writePieces s (o.writes.take (rows * (modFields o.mod.bytes).rowWrites)) = (u, none)
      else ∃ fl, writeRows (modFields o.mod.bytes) o.seed (if (modFields o.mod.bytes).isKeep then [] else o.rows.take (max rows o.sure)) 0 s =
        (u, fl, none)) :
    ∃ t, exec (.engineOperandUe n rows) s = .next t ∧ EndsUncorrectable n cw t := by
  show ∃ t, execEngineOperandUe n rows s = _ ∧ _
  unfold execEngineOperandUe
  rw [run_next (decide_eq_true hn) hrun]
  refine ⟨_, rfl, ?_⟩
  simp only [hop, hue]
  split at hwrites
  · next htrans =>
    rw [if_pos htrans, hwrites]
    exact endsUncorrectable_endUe ..
  · next htrans =>
    obtain ⟨fl, hwrites⟩ := hwrites
    rw [if_neg htrans, hwrites]
    exact endsUncorrectable_endUe ..

theorem exec_engineRmwUe {o : EngOp} {cw : Nat} (hrun : s.power.running = true) (hn : n < 64)
    (hop : (s.engine n).op = some o) (hrmw : o.rmw = some cw) : exec (.engineRmwUe n) s = .next (endUe n o cw s) := by
  show execEngineRmwUe n s = _
  unfold execEngineRmwUe
  rw [run_next (decide_eq_true hn) hrun]
  simp only [hop, hrmw]

theorem exec_engineOpComplete_of_done {o : EngOp} {cycles : Nat} {u : State} (hrun : s.power.running = true) (hn : n < 64)
    (hop : (s.engine n).op = some o) (hdone : opDone (s.engine n) o = true) (hcycles : leastCycles (modFields o.mod.bytes) o ≤ cycles)
    (hwrites : writePieces s o.writes = (u, none)) : exec (.engineOpComplete n cycles) s = .next (completeOp n o cycles u) := by
  show execEngineOpComplete n cycles s = _
  unfold execEngineOpComplete
  rw [run_next (decide_eq_true hn) hrun]
  simp only [hop]
  rw [if_neg (by simp [hdone, hcycles]), hwrites]

theorem exec_engineOpComplete_of_early {o : EngOp} {cycles : Nat} (hrun : s.power.running = true) (hn : n < 64)
    (hop : (s.engine n).op = some o) (hcycles : cycles < leastCycles (modFields o.mod.bytes) o) :
    exec (.engineOpComplete n cycles) s = .next s := by
  show execEngineOpComplete n cycles s = _
  unfold execEngineOpComplete
  rw [run_next (decide_eq_true hn) hrun]
  simp only [hop]
  rw [if_pos (by simp [hcycles])]

theorem meCtrlWrite_of_owner {t : Nat} {val : Word} (ht : t < 16) (howner : lodeOwner s (n / 2) = t + 1) :
    meCtrlWrite t n val.toNat s =
      let u := s.setField .meCtrl n 0 0 0 val.toNat
      holdReplies (if val.getLsbD 1 then u.setEngine n { u.engine n with shape := none, store := [] } else u) := by
  rw [← bit_toNat]
  exact instWrite_of_owner _ s ht howner

end

/-- Settles O13: each clause is its command's meaning, with the tests that it makes decided. -/
theorem engine_Ends : Obligations.Engine_Ends := by
  unfold Obligations.Engine_Ends
  intro s n hrun hn
  have hinstances {t : Nat} (ht : t < 16) : (decide (t < 19) && decide (n < 64)) = true := by simp [hn]; omega
  refine ⟨fun o u fl => exec_engineDrainStart_of_complete hrun hn, fun o cw rows u => exec_engineOperandUe_of_written hrun hn,
    fun o cw hop hrmw => ⟨_, exec_engineRmwUe hrun hn hop hrmw, endsUncorrectable_endUe o cw s⟩,
    fun o cycles u => exec_engineOpComplete_of_done hrun hn, fun o cycles => exec_engineOpComplete_of_early hrun hn,
    fun t val ht howner hdrop => ?quiesce, fun t val ht howner hdrop => ?drop⟩
  case quiesce =>
    refine (run_next (hinstances ht) hrun).trans ?_
    rw [meCtrlWrite_of_owner ht howner, hdrop]
    rfl
  case drop =>
    refine (run_onlyIf_of_true (hinstances ht) hrun hdrop).trans ?_
    rw [meCtrlWrite_of_owner ht howner, hdrop]
    rfl

end Sys2Proof.Machine
end

section
/-! PROOFS. The movers' queue, dispatch and moves (R169, R171, R172). -/
namespace Sys2Proof.Machine

open Sys2Proof

/-! ### The queue (R169) -/

section
variable {s : State} {n : Nat}

theorem exec_moveEnqueue (q : Enqueue) (hrun : s.power.running = true) (hn : q.unit < 32) :
    exec (.moveEnqueue q) s = .next (moveIn q.unit (ctlMove q.unit q.ctl s)) := by
  show execMoveEnqueue q s = _
  unfold execMoveEnqueue
  rw [run_next (decide_eq_true hn) hrun]

theorem moveIn_of_full (h : 16 ≤ (s.lode n).queue.length) : moveIn n s = s := by
  unfold moveIn
  dsimp only
  split
  · rfl
  · exact if_neg (Nat.not_lt.2 h)

theorem moveIn_of_offer {d : Move} {rest : List Move} (hoffers : (s.lode n).offers = d :: rest) (hroom : (s.lode n).queue.length < 16)
    (hchains : d.issuer = .ctl ∨ ∀ c ∈ s.chains, c.count ≤ c.next) :
    moveIn n s =
      let t := s.setLode n { s.lode n with offers := rest, queue := (s.lode n).queue ++ [d] }
      match d.issuer with
      | .core k => offerTaken k true t
      | _ => t := by
  unfold moveIn
  simp only [hoffers, if_pos hroom]
  cases hissuer : d.issuer
  case core | ctl => rfl
  case fn => exact offerChains_of_exhausted true n (hchains.resolve_left (by simp [hissuer]))

end

/-! ### Dispatch (R169, R171) -/

section
variable {s : State} {n m : Nat} {d : Move} {rest : List Move} {mine : Nat → Bool}

/-- What becomes of the head that a free mover takes: it fails with its check's status, has nothing to move, or moves. -/
def dispatched (n m : Nat) (d : Move) (rest : List Move) (s : State) : State :=
  let x := mvFields d.bytes
  let t := takeMove n d rest s
  let o := moveOpOf n m (s.lode n).seq d (mvXl s n d) t
  match mvCheck t n m d (mvXl s n d) with
  | some (st, deny) => setMover n m (some { o with status := st }) (if deny then refuseOf t (moverReq t n m) (mvRanges x) else t)
  | none => if x.op = 0 then setMover n m (some o) t else runMove n m o t

theorem dispatchMove_of_ready (hqueue : (s.lode n).queue = d :: rest) (hfree : freeMover s n = some m)
    (hmine : mine (mvFields d.bytes).op = true) (hready : mvReady s n (mvFields d.bytes) = true)
    (hwaits : mvWaits s (mvFields d.bytes) = false) : dispatchMove n mine s = dispatched n m d rest s := by
  have hguard : (mine (mvFields d.bytes).op && mvReady s n (mvFields d.bytes) && !mvWaits s (mvFields d.bytes)) = true := by
    simp [hmine, hready, hwaits]
  unfold dispatchMove
  simp only [hqueue, hfree, if_pos hguard]
  rfl

theorem dispatched_of_failing {st : Nat} {deny : Bool} (h : mvCheck (takeMove n d rest s) n m d (mvXl s n d) = some (st, deny)) :
    dispatched n m d rest s =
      let t := takeMove n d rest s
      setMover n m (some { moveOpOf n m (s.lode n).seq d (mvXl s n d) t with status := st })
        (if deny then refuseOf t (moverReq t n m) (mvRanges (mvFields d.bytes)) else t) := by
  simp only [dispatched, h]

theorem dispatched_of_nop (h : mvCheck (takeMove n d rest s) n m d (mvXl s n d) = none) (hop : (mvFields d.bytes).op = 0) :
    dispatched n m d rest s = setMover n m (some (moveOpOf n m (s.lode n).seq d (mvXl s n d) (takeMove n d rest s))) (takeMove n d rest s) := by
  simp only [dispatched, h, if_pos hop]

theorem dispatched_of_moving (h : mvCheck (takeMove n d rest s) n m d (mvXl s n d) = none) (hop : (mvFields d.bytes).op ≠ 0) :
    dispatched n m d rest s = runMove n m (moveOpOf n m (s.lode n).seq d (mvXl s n d) (takeMove n d rest s)) (takeMove n d rest s) := by
  simp only [dispatched, h, if_neg hop]

end

/-! ### A row within one line (R171) -/

section
variable {x : MvF} {s t u : State} {bs : Bytes}

/-- After the one piece the row is done, and with it the move. -/
theorem mvRun_of_line {f : Nat} (hrows : x.rows = 1) (hpos : 0 < x.len) (hline : x.len ≤ 64 - x.dst % 64)
    (hdata : mvData x 0 0 x.len s = (t, .ok bs)) (hwrite : lineWrite x.dst bs t = (u, none)) :
    mvRun x (f + 3) 0 0 0 s = (u, { n := x.len }) := by
  have hpiece : min (x.len - 0) (64 - (x.dst + 0 * x.ds + 0) % 64) = x.len := by simp; omega
  rw [mvRun, if_neg (by omega), if_neg (by omega)]
  simp only [hpiece, hdata]
  rw [show x.dst + 0 * x.ds + 0 = x.dst by omega, hwrite]
  simp only [Nat.zero_add]
  rw [mvRun, if_neg (by omega), if_pos (Nat.le_refl _), mvRun, if_pos (by omega)]

theorem mvRun_of_unreadable {f cw : Nat} (hrows : x.rows = 1) (hpos : 0 < x.len) (hline : x.len ≤ 64 - x.dst % 64)
    (hdata : mvData x 0 0 x.len s = (t, .error cw)) : mvRun x (f + 3) 0 0 0 s = (t, { n := 0, stop := some (0x0401, some cw) }) := by
  have hpiece : min (x.len - 0) (64 - (x.dst + 0 * x.ds + 0) % 64) = x.len := by simp; omega
  rw [mvRun, if_neg (by omega), if_neg (by omega)]
  simp only [hpiece, hdata]
  rfl

theorem mvData_of_copy (hop : x.op = 1) (s : State) : mvData x 0 0 x.len s = readMem s x.src x.len := by
  simp [mvData, hop]

theorem mvData_of_fill (hop : x.op = 2) (s : State) :
    mvData x 0 0 x.len s = (s, .ok ((List.range x.len).map fun i => BitVec.ofNat 8 (x.pat >>> (8 * (i % 4))))) := by
  simp [mvData, hop]

theorem runMove_of_line {n m : Nat} {o : MoveOp} (hx : x = mvFields o.mv.bytes) (hrows : x.rows = 1) (hpos : 0 < x.len)
    (hline : x.len ≤ 64 - x.dst % 64) (hdata : mvData x 0 0 x.len s = (t, .ok bs)) (hwrite : lineWrite x.dst bs t = (u, none)) :
    runMove n m o s = setMover n m (some { o with bytes := x.len }) u := by
  subst hx
  unfold runMove
  simp only [hrows, Nat.one_mul, mvRun_of_line hrows hpos hline hdata hwrite]

theorem runMove_of_unreadable {n m cw : Nat} {o : MoveOp} (hx : x = mvFields o.mv.bytes) (hrows : x.rows = 1) (hpos : 0 < x.len)
    (hline : x.len ≤ 64 - x.dst % 64) (hdata : mvData x 0 0 x.len s = (t, .error cw)) :
    runMove n m o s = setMover n m (some { o with bytes := 0, ue := some cw }) t := by
  subst hx
  unfold runMove
  simp only [hrows, Nat.one_mul, mvRun_of_unreadable hrows hpos hline hdata]

end

/-- Settles O14: the offer enters, the head is dispatched under its checks, and a move within one line is one piece (the end of a move on a
failed read at `MOVE_SOURCE_UE` is the model's choice, log entry 105). -/
theorem movers : Obligations.Movers := by
  unfold Obligations.Movers
  intro s n m hrun hn hm
  have hinstances : (decide (n < 32) && decide (m < 4)) = true := by simp [hn, hm]
  refine ⟨fun d rest hoffers hroom hchains => ?_, fun hfull => ?_, fun b hfw hoffers hroom => ?_, fun d rest hqueue hfree hready hwaits => ?_,
    fun o cw hop hue => ?_, fun o hop hue => ?_⟩
  · exact (exec_moveEnqueue ⟨n, none⟩ hrun hn).trans (congrArg _ (moveIn_of_offer hoffers hroom (.inr hchains)))
  · exact (exec_moveEnqueue ⟨n, none⟩ hrun hn).trans (congrArg _ (moveIn_of_full hfull))
  · have hoffer : ctlMove n (some b) s = s.setLode n { s.lode n with offers := [⟨fit 64 b, .ctl, none⟩] } := by
      simp [ctlMove, hfw, hoffers]
    rw [exec_moveEnqueue ⟨n, some b⟩ hrun hn, hoffer,
      moveIn_of_offer (d := ⟨fit 64 b, .ctl, none⟩) (rest := []) (by simp) (by simpa using hroom) (.inl rfl)]
    simp only [lode_setLode, hoffers]
  · have hexec (mine : Nat → Bool) (hmine : mine (mvFields d.bytes).op = true) :
        run (n < 32) s (dispatchMove n mine) = .next (dispatched n m d rest s) := by
      rw [run_next (decide_eq_true hn) hrun, dispatchMove_of_ready hqueue hfree hmine hready hwaits]
    have hnop (hop : (mvFields d.bytes).op = 0 ∨ 2 < (mvFields d.bytes).op) : exec (.moveNop n) s = .next (dispatched n m d rest s) :=
      hexec _ (by simpa using hop)
    have hcopy (hop : (mvFields d.bytes).op = 1) : exec (.moveCopy n) s = .next (dispatched n m d rest s) := hexec _ (by simp [hop])
    have hfill (hop : (mvFields d.bytes).op = 2) : exec (.moveFill n) s = .next (dispatched n m d rest s) := hexec _ (by simp [hop])
    refine ⟨fun st deny hcheck => ?_, fun hcheck => ⟨fun hop => ?_, fun hop => ?_, fun hop => ?_, fun hrows hpos hline =>
      ⟨fun u v bs hop hread hwrite => ?_, fun v cw hop hread => ?_, fun u hop hwrite => ?_⟩⟩⟩
    · rw [dispatched_of_failing hcheck] at hnop hcopy hfill
      exact ⟨hnop, hcopy, hfill⟩
    · rw [hnop (.inl hop), dispatched_of_nop hcheck hop]
    · rw [hcopy hop, dispatched_of_moving hcheck (by omega)]
    · rw [hfill hop, dispatched_of_moving hcheck (by omega)]
    · rw [hcopy hop, dispatched_of_moving hcheck (by omega)]
      exact congrArg _ (runMove_of_line (x := mvFields d.bytes) rfl hrows hpos hline ((mvData_of_copy hop _).trans hread) hwrite)
    · rw [hcopy hop, dispatched_of_moving hcheck (by omega)]
      exact congrArg _ (runMove_of_unreadable (x := mvFields d.bytes) rfl hrows hpos hline ((mvData_of_copy hop _).trans hread))
    · rw [hfill hop, dispatched_of_moving hcheck (by omega)]
      exact congrArg _ (runMove_of_line (x := mvFields d.bytes) rfl hrows hpos hline (mvData_of_fill hop _) hwrite)
  · show execMoveSourceUe n m s = _
    unfold execMoveSourceUe
    rw [run_next hinstances hrun]
    simp only [hop, hue, Option.isSome_some, if_true]
    rfl
  · show execMoveComplete n m s = _
    unfold execMoveComplete
    rw [run_next hinstances hrun]
    simp [hop, hue]

end Sys2Proof.Machine
end

section
/-! PROOFS. Strata banks: arbitration, line accesses, the scrubber, and the end of a zero-fill (R158 to R161, R165, R167, R168, R173). -/
namespace Sys2Proof.Machine

open Sys2Proof

section
variable {s : State} {n : Nat}

/-! ### A cycle of a bank -/

theorem exec_strataBankAccess_of_filled {bank : Nat} (reqs : List BankReq) (hrun : s.power.running = true) (hn : n < 32) (hbank : bank < 48)
    (hzero : tget 0 s.own.zeroing n = 0) :
    exec (.strataBankAccess n bank reqs) s = .next (bankServe n bank (bankReqs bank reqs) s) := by
  show execStrataBankAccess n bank reqs s = _
  unfold execStrataBankAccess
  rw [run_next (by simp [hn, hbank]) hrun, hzero]
  rfl

theorem bankServe_of_busy {bank : Nat} (rs : List BankReq) (h : (s.lode n).rmw.contains bank = true) :
    bankServe n bank rs s = (s.count .strConflict n 0 rs.length).setLode n { s.lode n with rmw := (s.lode n).rmw.filter (· != bank) } :=
  if_pos h

theorem bankServe_of_grant {bank : Nat} {rs : List BankReq} {r : BankReq} (hfree : (s.lode n).rmw.contains bank = false)
    (hgrant : grantOf s n bank rs = some r) :
    let k := bank * 8 + r.cls
    bankServe n bank rs s = lineAccess n r ((s.count .strConflict n 0 (rs.length - 1)).setLode n { s.lode n with
      rr := tput 0 (s.lode n).rr k ((tget 0 (s.lode n).rr k + 1) % classSources r.cls)
      rmw := if partialWrite r then bank :: (s.lode n).rmw else (s.lode n).rmw }) := by
  unfold bankServe
  simp only [hfree, hgrant, Bool.false_eq_true, if_false]

theorem lineAccess_of_read {r : BankReq} {t : State} {d : Bytes} (hstore : r.store = none)
    (hread : readMem s (lineAddr n r.line) 64 = (t, .ok d)) : lineAccess n r s = { t with resp := some (leNat d) } := by
  unfold lineAccess
  rw [hread, hstore]

theorem lineAccess_of_store {r : BankReq} {o : Nat} {bs : Bytes} (hstore : r.store = some (o, bs)) (hline : o + bs.length ≤ 64) :
    lineAccess n r s = (writeMem s (lineAddr n r.line + o) bs).1 := by
  simp only [lineAccess, hstore, if_pos hline]

/-! ### The scrubber -/

theorem exec_strataScrubRead_of_shut (hrun : s.power.running = true) (hn : n < 32) (hslot : slotAdmits s n 6 0 = false) :
    exec (.strataScrubRead n) s = .next s := by
  show execStrataScrubRead n s = _
  unfold execStrataScrubRead
  rw [run_next (decide_eq_true hn) hrun]
  simp [hslot]

/-- In a slot that it may use, over a filled lode, the scrubber writes back what is queued before it reads on. -/
theorem exec_strataScrubRead_of_open (hrun : s.power.running = true) (hn : n < 32) (hslot : slotAdmits s n 6 0 = true)
    (hzero : tget 0 s.own.zeroing n = 0) :
    exec (.strataScrubRead n) s = .next (match (s.lode n).wb with
      | cw :: t => rewrite cw (s.setLode n { s.lode n with wb := t })
      | [] => if bit (s.reg .strScrub n) 0 && decide ((s.lode n).scrubDue ≤ s.tb.ticks) then patrolLine n s else s) := by
  show execStrataScrubRead n s = _
  unfold execStrataScrubRead
  rw [run_next (decide_eq_true hn) hrun]
  simp only [hslot, hzero]
  rfl

/-! ### The end of a zero-fill -/

theorem exec_lodeZeroingDone_of_filling {o : Nat} (hrun : s.power.running = true) (hn : n < 32) (ho : tget 0 s.own.zeroing n = o + 1) :
    exec (.lodeZeroingDone n) s = .next (holdReplies (lodeZeroed n o s)) := by
  show execLodeZeroingDone n s = _
  unfold execLodeZeroingDone
  rw [run_next (decide_eq_true hn) hrun]
  simp only [ho]

theorem own_lodeZeroed (o : Nat) : tget 0 (lodeZeroed n o s).own.zeroing n = 0 ∧ tget 0 (lodeZeroed n o s).own.lodes n = o := by
  simp [lodeZeroed]

end

/-- Settles O15: each clause is a lemma above. -/
theorem strata_Access : Obligations.Strata_Access := by
  unfold Obligations.Strata_Access
  intro s n hrun hn
  refine ⟨fun bank reqs r hbank hzero hfree hgrant => ?_, fun bank reqs hbank hzero hbusy => ?_, fun r t d => lineAccess_of_read,
    fun r o bs => lineAccess_of_store, fun cw rest hslot hzero hwb => ?_, exec_strataScrubRead_of_shut hrun hn,
    fun hslot hzero hwb hon hdue => ?_, fun o ho => ⟨exec_lodeZeroingDone_of_filling hrun hn ho, own_lodeZeroed o⟩⟩
  · exact (exec_strataBankAccess_of_filled reqs hrun hn hbank hzero).trans (congrArg _ (bankServe_of_grant hfree hgrant))
  · exact (exec_strataBankAccess_of_filled reqs hrun hn hbank hzero).trans (congrArg _ (bankServe_of_busy _ hbusy))
  · rw [exec_strataScrubRead_of_open hrun hn hslot hzero, hwb]
  · rw [exec_strataScrubRead_of_open hrun hn hslot hzero, hwb]
    simp [hon, hdue]

end Sys2Proof.Machine
end

section
/-! PROOFS. COMP commands that load and run: chains, IMEM_LOAD, CORES_RUN (R109, R150, R151, R212). -/
namespace Sys2Proof.Machine

open Sys2Proof

theorem needLode_of_awake {s : State} {n : Nat} (f : State → State) (h : awake s n = true) : needLode n f s = f s := if_pos h

/-- A body that needs its lode awake where the core has a lode. -/
theorem ite_needLode_of_awake {p : Prop} [Decidable p] {s : State} {n : Nat} (f : State → State) (h : p → awake s n = true) :
    (if p then needLode n f else f) s = f s := by
  split
  · next hp => exact needLode_of_awake f (h hp)
  · rfl

theorem ite_needLode_else_of_awake {p : Prop} [Decidable p] {s : State} {n : Nat} (f : State → State) (h : ¬ p → awake s n = true) :
    (if p then f else needLode n f) s = f s := by
  split
  · rfl
  · next hp => exact needLode_of_awake f (h hp)

/-! ### Chains (R109) -/

section
variable {s t : State} {unit : Nat} {ch : Chain} {d : Bytes}

/-- A chain's next descriptor, read and offered to its engine. -/
def chainToEngine (ch : Chain) (d : Bytes) (t : State) : State :=
  let u := modChainBy ch.id (fun c => { c with next := c.next + 1 }) t
  u.setEngine ch.unit { u.engine ch.unit with
    offers := (u.engine ch.unit).offers ++ [⟨d, 8, .fn (cmdFn t ch.id), some (ch.id, ch.next)⟩] }

/-- A chain's next descriptor, read and offered to its lode's movers. -/
def chainToMovers (ch : Chain) (d : Bytes) (t : State) : State :=
  let u := modChainBy ch.id (fun c => { c with next := c.next + 1 }) t
  u.setLode ch.unit { u.lode ch.unit with
    offers := (u.lode ch.unit).offers ++ [⟨d, .fn (cmdFn t ch.id), some (ch.id, ch.next)⟩] }

/-- The only chain there is has its turn while it has descriptors left and none of its own waits. -/
theorem offerChains_of_only_chain (moves : Bool) (hchains : s.chains = [ch]) : offerChains moves unit s = offerNext moves unit s := by
  rw [offerChains, hchains]
  rfl

theorem find_only_chain (hmore : ch.next < ch.count) (hstop : ch.stop = none) :
    ([ch].find? fun c => c.moves == ch.moves && c.unit == ch.unit && decide (c.next < c.count) && c.stop.isNone) = some ch := by
  simp [hmore, hstop]

theorem offerChains_false_of_only_chain (hchains : s.chains = [ch]) (hoffers : (s.engine ch.unit).offers = []) (hmoves : ch.moves = false)
    (hmore : ch.next < ch.count) (hstop : ch.stop = none) (hread : readMem s (strataBase + chainOff ch ch.next) 64 = (t, .ok d)) :
    offerChains false ch.unit s = chainToEngine ch d t := by
  have hidle : chainOffered false ch.unit s = false := by simp [chainOffered, hoffers]
  have hfind := find_only_chain hmore hstop
  rw [hmoves] at hfind
  rw [offerChains_of_only_chain false hchains]
  unfold offerNext
  rw [hidle, hchains, hfind]
  dsimp only
  rw [hread]
  rfl

theorem offerChains_true_of_only_chain (hchains : s.chains = [ch]) (hoffers : (s.lode ch.unit).offers = []) (hmoves : ch.moves = true)
    (hmore : ch.next < ch.count) (hstop : ch.stop = none) (hread : readMem s (strataBase + chainOff ch ch.next) 64 = (t, .ok d)) :
    offerChains true ch.unit s = chainToMovers ch d t := by
  have hidle : chainOffered true ch.unit s = false := by simp [chainOffered, hoffers]
  have hfind := find_only_chain hmore hstop
  rw [hmoves] at hfind
  rw [offerChains_of_only_chain true hchains]
  unfold offerNext
  rw [hidle, hchains, hfind]
  dsimp only
  rw [hread]
  rfl

end

section
variable {s : State} {id : Nat} {c : Cmd}

theorem exec_modChain_of_awake (h : Ready s .modChain id c) (hawake : awake s (c.p 0 / 2) = true) :
    exec (.modChain id) s = .next (offerChains false (c.p 0)
      (working id { s with chains := s.chains ++ [⟨id, c.p 0, c.p 1, c.p 2, 0, 0, false, none⟩] })) :=
  (h.exec _).trans (congrArg _ (needLode_of_awake _ hawake))

theorem exec_moveChain_of_awake (h : Ready s .moveChain id c) (hawake : awake s (c.p 0) = true) :
    exec (.moveChain id) s = .next (offerChains true (c.p 0)
      (working id { s with chains := s.chains ++ [⟨id, c.p 0, c.p 1, c.p 2, 0, 0, true, none⟩] })) :=
  (h.exec _).trans (congrArg _ (needLode_of_awake _ hawake))

/-! ### IMEM_LOAD and CORES_RUN (R150, R151, R212) -/

theorem exec_imemLoad_of_open {t u : State} {bs : Bytes} (h : Ready s .imemLoad id c) (hawake : c.p 0 < 256 → awake s (c.p 0 / 8) = true)
    (hopen : imemOpen s (c.p 0) = true) (hread : readAddr s c.fn (c.p 3) (c.p 1) = (t, .ok bs))
    (hwrite : imemWrites (cwSplit (bs.length + 1) (imemBase + c.p 0 * 0x10000 + c.p 2) bs) t = (u, none)) :
    exec (.imemLoad id) s = .next (finish0 id 0x0000 u) := by
  refine (h.exec _).trans (congrArg _ ((ite_needLode_of_awake _ hawake).trans ?_))
  rw [hopen, hread]
  dsimp only
  rw [hwrite]
  rfl

theorem exec_imemLoad_of_running (h : Ready s .imemLoad id c) (hawake : c.p 0 < 256 → awake s (c.p 0 / 8) = true)
    (hst : (s.core (c.p 0)).st = .running) (hshut : imemOpen s (c.p 0) = false) :
    exec (.imemLoad id) s = .next (finish id 0x0201 (0x04 + c.p 0 * 256) 1 0 0 s) := by
  refine (h.exec _).trans (congrArg _ ((ite_needLode_of_awake _ hawake).trans ?_))
  have hcode : coreCode s (c.p 0) = 1 := by simp [coreCode, hst]
  rw [hshut, hcode]
  rfl

theorem exec_coresRun_of_halted (h : Ready s .coresRun id c) (hawake : c.p 0 ≠ 0x80 → awake s (c.p 0) = true) (hsome : runCores c ≠ [])
    (hhalted : ∀ k, k ∈ runCores c → (s.core k).st = .halted) :
    exec (.coresRun id) s = .next ((runCores c).foldl (fun s k => startCore k (some id) s) (working id s)) := by
  have hnone : (runCores c).find? (fun k => (s.core k).st != .halted) = none := by
    rw [List.find?_eq_none]
    intro k hk
    simp [hhalted k hk]
  refine (h.exec _).trans (congrArg _ ((ite_needLode_else_of_awake _ hawake).trans ?_))
  rw [hnone]
  exact if_neg hsome

theorem exec_coresRun_of_busy {k : Nat} (h : Ready s .coresRun id c) (hawake : c.p 0 ≠ 0x80 → awake s (c.p 0) = true)
    (hbusy : (runCores c).find? (fun k => (s.core k).st != .halted) = some k) :
    exec (.coresRun id) s = .next (finish id 0x0201 (0x04 + k * 256) (coreCode s k) 0 0 s) := by
  refine (h.exec _).trans (congrArg _ ((ite_needLode_else_of_awake _ hawake).trans ?_))
  rw [hbusy]
  rfl

end

/-- Settles O16: each clause is its command's meaning; the first descriptor of the only chain is offered at once. -/
theorem chain_And_Load_Commands : Obligations.Chain_And_Load_Commands := by
  unfold Obligations.Chain_And_Load_Commands
  refine fun s id c => ⟨exec_modChain_of_awake, fun t d h hawake hnone hoffers hcount hread => ?_, exec_moveChain_of_awake,
    fun t d h hawake hnone hoffers hcount hread => ?_, fun t bs u => exec_imemLoad_of_open, exec_imemLoad_of_running,
    exec_coresRun_of_halted, fun k => exec_coresRun_of_busy⟩
  · rw [exec_modChain_of_awake h hawake, hnone]
    exact congrArg _ (offerChains_false_of_only_chain (ch := ⟨id, c.p 0, c.p 1, c.p 2, 0, 0, false, none⟩) rfl hoffers rfl hcount rfl hread)
  · rw [exec_moveChain_of_awake h hawake, hnone]
    exact congrArg _ (offerChains_true_of_only_chain (ch := ⟨id, c.p 0, c.p 1, c.p 2, 0, 0, true, none⟩) rfl hoffers rfl hcount rfl hread)

end Sys2Proof.Machine
end

section
/-! PROOFS. Lock groups (R174, R175, R178). -/
namespace Sys2Proof.Machine

open Sys2Proof

section
variable {s : State} {id : Nat} {c : Cmd}

/-- The lodes that a LOCK_FORM names. -/
def formMembers (c : Cmd) : List Nat := (List.range 32).filter (bit (c.p 1))

/-- What R174 asks of a lode that joins a group. -/
structure MayJoin (s : State) (fn n : Nat) : Prop where
  awake  : awake s n = true
  owner  : lodeOwner s n = fn + 1
  group  : groupOf s n = none
  idle   : lodeIdle s n = true
  filled : tget 0 s.own.zeroing n = 0

theorem find_not_eq_none {l : List Nat} {p : Nat → Bool} (h : ∀ n ∈ l, p n = true) : l.find? (fun n => !p n) = none := by
  rw [List.find?_eq_none]
  intro n hn
  simp [h n hn]

theorem exec_lockForm_of_mayJoin (h : Ready s .lockForm id c) (hjoin : ∀ n ∈ formMembers c, MayJoin s c.fn n)
    (hfree : (s.grp (c.p 0)).st = .free) (hlocked : crossDie (formMembers c) = true → clocksLocked s = true) :
    exec (.lockForm id) s = .next (finish0 id 0x0000 (s.setGrp (c.p 0) { st := .formed, members := formMembers c, tenant := c.fn })) := by
  have hawake := find_not_eq_none fun n hn => (hjoin n hn).awake
  have hidle := find_not_eq_none fun n hn => (hjoin n hn).idle
  have howner : (formMembers c).any (fun n => lodeOwner s n != c.fn + 1) = false := by
    simpa using fun n hn => (hjoin n hn).owner
  have hgroup : (formMembers c).findSome? (groupOf s) = none := List.findSome?_eq_none_iff.2 fun n hn => (hjoin n hn).group
  have hclocks : (crossDie (formMembers c) && !clocksLocked s) = false := by
    cases hcross : crossDie (formMembers c)
    · rfl
    · simp [hlocked hcross]
  have hfilled : (formMembers c).find? (fun n => tget 0 s.own.zeroing n != 0) = none := by
    rw [List.find?_eq_none]
    intro n hn
    simp [(hjoin n hn).filled]
  refine (h.exec _).trans (congrArg _ ?_)
  unfold formMembers at *
  simp only [hawake, howner, hfree, hgroup, hidle, hclocks, hfilled]
  rfl

theorem exec_lockForm_of_foreign (h : Ready s .lockForm id c) (hawake : ∀ n ∈ formMembers c, awake s n = true)
    (hforeign : ∃ n, n ∈ formMembers c ∧ lodeOwner s n ≠ c.fn + 1) : exec (.lockForm id) s = .next (finish id 0x0501 20 0 0 0 s) := by
  have hawake := find_not_eq_none hawake
  have howner : (formMembers c).any (fun n => lodeOwner s n != c.fn + 1) = true := by simpa using hforeign
  refine (h.exec _).trans (congrArg _ ?_)
  unfold formMembers at *
  simp only [hawake, howner, if_true, failAt, h.id_eq]
  rfl

theorem exec_lockStart_of_formed (h : Ready s .lockStart id c) (hst : (s.grp (c.p 0)).st = .formed) (htenant : (s.grp (c.p 0)).tenant = c.fn) :
    exec (.lockStart id) s = .next (working id (arm (.lock (c.p 0)) (c.p 1)
      (s.setGrp (c.p 0) { s.grp (c.p 0) with st := .armed, target := c.p 1, late := false, fired := none, cmd := some id }))) :=
  (h.exec _).trans (congrArg _ (if_neg (by simp [hst, htenant])))

theorem exec_lockGroupStart_of_fired {g t : Nat} (hrun : s.power.running = true) (hg : g < 32) (hfired : (s.grp g).fired = some t) :
    exec (.lockGroupStart g) s = .next (if (s.grp g).st ≠ .armed ∨ s.tb.ticks < t + 10 then s else startGroup g s) := by
  show execLockGroupStart g s = _
  unfold execLockGroupStart
  rw [run_next (decide_eq_true hg) hrun, hfired]

theorem freeGroup_of_formed {g : Nat} (hst : (s.grp g).st = .formed) (hcmd : (s.grp g).cmd = none) :
    freeGroup g s = (disarm (.lock g) s).setGrp g {} := by
  unfold freeGroup
  simp only [hst, hcmd]
  rfl

theorem exec_lockDissolve_of_idle (h : Ready s .lockDissolve id c) (hst : (s.grp (c.p 0)).st = .formed)
    (htenant : (s.grp (c.p 0)).tenant = c.fn) (hidle : ∀ n, n ∈ (s.grp (c.p 0)).members → lodeIdle s n = true) :
    exec (.lockDissolve id) s = .next (finish0 id 0x0000 (freeGroup (c.p 0) s)) :=
  (h.exec _).trans (congrArg _ (if_pos ⟨.inl hst, htenant, List.all_eq_true.2 hidle⟩))

end

/-- Settles O17: each clause is its command's meaning, with the tests that it makes decided. -/
theorem lock_Groups : Obligations.Lock_Groups := by
  unfold Obligations.Lock_Groups
  refine fun s id c => ⟨fun h hjoin => exec_lockForm_of_mayJoin h fun n hn => ?_, exec_lockForm_of_foreign, exec_lockStart_of_formed,
    fun g t hrun hg hfired hst hdue => ?_, fun g t hrun hg hfired hearly => ?_, fun h hst htenant hidle hcmd => ?_⟩
  · obtain ⟨hawake, howner, hgroup, hidle, hfilled⟩ := hjoin n hn
    exact ⟨hawake, howner, hgroup, hidle, hfilled⟩
  · rw [exec_lockGroupStart_of_fired hrun hg hfired, if_neg (by simp [hst]; omega)]
  · rw [exec_lockGroupStart_of_fired hrun hg hfired, if_pos (.inr hearly)]
  · rw [exec_lockDissolve_of_idle h hst htenant hidle, freeGroup_of_formed hst hcmd]
    rfl

end Sys2Proof.Machine
end

section
/-! PROOFS. Holding, resetting and idling lodes (R177, R182, R212, R482, R487). -/
namespace Sys2Proof.Machine

open Sys2Proof

/-! ### Writes of CTRL, and the commands that hold and reset (R177, R182, R212) -/

section
variable {s : State} {id : Nat} {c : Cmd}

theorem exec_lodeHold_of_filled (h : Ready s .lodeHold id c) (hawake : awake s (c.p 0) = true) (hzero : tget 0 s.own.zeroing (c.p 0) = 0) :
    exec (.lodeHold id) s = .next (if c.p 1 = 0 then finish0 id 0x0000 (holdsChanged (s.setField .lodeCtrl (c.p 0) 0 1 1 0))
      else holdsChanged (working id (s.setField .lodeCtrl (c.p 0) 0 1 1 1))) :=
  (h.exec _).trans (congrArg _ ((needLode_of_awake _ hawake).trans (if_neg (by simp [hzero]))))

theorem exec_lodeReset_of_awake (h : Ready s .lodeReset id c) (hawake : awake s (c.p 0) = true) :
    exec (.lodeReset id) s = .next (resetLode (c.p 0) (working id s)) :=
  (h.exec _).trans (congrArg _ (needLode_of_awake _ hawake))

/-- A write of an owned register by a tenant that is not its owner has no effect (R45). -/
theorem instWrite_of_foreign {who owner : Nat} (f : State → State) (s : State) (hwho : who < 16) (hnone : owner ≠ 0) (hforeign : owner ≠ who + 1) :
    instWrite who owner f s = s := by
  unfold instWrite
  rw [if_neg (by omega), if_neg hnone, if_neg (by omega)]

theorem lodeCtrlWrite_of_owner {t n v : Nat} (ht : t < 16) (howner : lodeOwner s n = t + 1) :
    lodeCtrlWrite t n v s =
      let u := holdsChanged (s.setField .lodeCtrl n 0 1 1 (bits v 1 1))
      if bit v 0 then resetLode n u else u :=
  instWrite_of_owner _ s ht howner

theorem lodeCtrlWrite_of_foreign {t n v : Nat} (ht : t < 16) (hnone : lodeOwner s n ≠ 0) (hforeign : lodeOwner s n ≠ t + 1) :
    lodeCtrlWrite t n v s = s :=
  instWrite_of_foreign _ s ht hnone hforeign

/-- HOLD and RESET are bits of one register, so a write of either is the write of CTRL. -/
theorem exec_lodeCtrl {t n : Nat} (val : Word) (hrun : s.power.running = true) (ht : t < 16) (hn : n < 32) :
    exec (.lodeCtrlHold t n val) s = .next (lodeCtrlWrite t n val.toNat s) ∧
      exec (.lodeCtrlReset t n val) s = .next (lodeCtrlWrite t n val.toNat s) := by
  have hinstances : (decide (t < 19) && decide (n < 32)) = true := by simp [hn]; omega
  exact ⟨run_next hinstances hrun, run_next hinstances hrun⟩

end

/-! ### What a reset clears (R482) -/

/-- A register whose address lies in the reset range reads its reset value. -/
theorem reg_resetRegs_of_mem {lo hi : Nat} (s : State) {r : Reg} {i j : Nat} (h : lo ≤ regAddr r i j 0 ∧ regAddr r i j 0 < hi) :
    (resetRegs lo hi s).reg r i j = regReset r i j := by
  unfold resetRegs State.reg
  rw [tget_tdrop, if_pos (by simp [h])]

section
variable (n : Nat) (s : State)

theorem reg_lodeCtrl_resetOneLode : (resetOneLode n s).reg .lodeCtrl n = 0 :=
  reg_resetRegs_of_mem _ (by simp only [regAddr, regRow, blkBase]; omega)

theorem engine_resetOneLode : (resetOneLode n s).engine (2 * n) = {} ∧ (resetOneLode n s).engine (2 * n + 1) = {} := by
  have hframe (lo hi : Nat) (own : Nat → Bool) (x : Lode) (u : State) (k : Nat) :
      (resetRegs lo hi (zeroCounters own (u.setLode n x))).engine k = u.engine k := rfl
  unfold resetOneLode
  dsimp only
  rw [hframe, hframe, engine_setEngine, engine_setEngine_other _ _ _ (by omega), engine_setEngine]
  exact ⟨rfl, rfl⟩

theorem lode_resetOneLode : ((resetOneLode n s).lode n).queue = [] ∧ ((resetOneLode n s).lode n).movers = [] := by
  have hframe (lo hi : Nat) (own : Nat → Bool) (u : State) : (resetRegs lo hi (zeroCounters own u)).lode n = u.lode n := rfl
  unfold resetOneLode
  dsimp only
  rw [hframe, lode_setLode]
  exact ⟨rfl, rfl⟩

end

/-! ### Idle (R487) -/

section
variable {s : State} {id : Nat} {c : Cmd}

theorem exec_lodePower_of_enter (h : Ready s .lodePower id c) (henter : c.p 1 = 1) (hgroup : groupOf s (c.p 0) = none) :
    exec (.lodePower id) s = .next (if lodeCode s (c.p 0) ≠ 0 then finish id 0x0201 (0x03 + c.p 0 * 256) (lodeCode s (c.p 0)) 0 0 s
      else finish0 id 0x0000 (s.setLode (c.p 0) { s.lode (c.p 0) with idle := true, wake := none })) := by
  refine (h.exec _).trans (congrArg _ ((if_pos henter).trans ?_))
  rw [hgroup]
  rfl

theorem exec_lodePower_of_leave (h : Ready s .lodePower id c) (hleave : c.p 1 = 0) :
    exec (.lodePower id) s = .next (if (s.lode (c.p 0)).idle then wakeLode (c.p 0) (working id s) else finish0 id 0x0000 s) :=
  (h.exec _).trans (congrArg _ (if_neg (by omega)))

/-- The exit of an idle lode begins with the first request for it, and ends 200 µs later. -/
theorem wakeLode_of_asleep {n : Nat} (hon : s.power.dstate = .on) (hidle : (s.lode n).idle = true) (hwake : (s.lode n).wake = none) :
    wakeLode n s = s.setLode n { s.lode n with wake := some (s.tb.ticks + 200000) } := by
  unfold wakeLode
  rw [if_neg (by simp [hon]), if_pos ⟨hidle, hwake⟩]
  rfl

theorem lode_foldl_finish0 (f : Cmd → Prop) [DecidablePred f] (n st : Nat) (l : List Cmd) (s : State) :
    (l.foldl (fun s c => if f c then finish0 c.id st s else s) s).lode n = s.lode n := by
  refine List.foldlRecOn l _ (motive := fun t : State => t.lode n = s.lode n) rfl fun t ht c _ => ?_
  split
  · exact ht
  · exact ht

theorem exec_lodeIdleExit_of_due {n t : Nat} (hrun : s.power.running = true) (hn : n < 32) (hwake : (s.lode n).wake = some t)
    (hdue : t ≤ s.tb.ticks) : ∃ u, exec (.lodeIdleExit n) s = .next u ∧ (u.lode n).idle = false ∧ (u.lode n).wake = none := by
  show ∃ u, execLodeIdleExit n s = _ ∧ _
  unfold execLodeIdleExit
  rw [run_next (decide_eq_true hn) hrun]
  refine ⟨_, rfl, ?_⟩
  dsimp only
  rw [hwake]
  dsimp only
  rw [if_neg (Nat.not_lt.2 hdue), lode_foldl_finish0 (fun c => c.phase = .working ∧ cmdOp c = some .lodePower ∧ c.p 0 = n), lode_setLode]
  exact ⟨rfl, rfl⟩

theorem exec_lodeIdleExit_of_early {n t : Nat} (hrun : s.power.running = true) (hn : n < 32) (hwake : (s.lode n).wake = some t)
    (hearly : s.tb.ticks < t) : exec (.lodeIdleExit n) s = .next s := by
  show execLodeIdleExit n s = _
  unfold execLodeIdleExit
  rw [run_next (decide_eq_true hn) hrun]
  dsimp only
  rw [hwake]
  exact congrArg _ (if_pos hearly)

end

/-- Settles O18: each clause is its command's meaning, with the tests that it makes decided. -/
theorem lode_States : Obligations.Lode_States := by
  unfold Obligations.Lode_States
  intro s id c
  refine ⟨⟨fun h hawake hzero => ?hold, fun t n val hrun ht hn howner hbit => ?_, fun t n val hrun ht hn howner hbit => ?_,
      fun t n val hrun ht hn hnone hforeign => ?_, exec_lodeReset_of_awake,
      fun n hn => ⟨reg_lodeCtrl_resetOneLode n s, (engine_resetOneLode n s).1, (engine_resetOneLode n s).2, lode_resetOneLode n s⟩⟩,
    fun h henter hgroup hcode => ?_, fun h henter hgroup hcode => ?_, fun h hleave hidle hwake => ?_, fun h hleave hidle => ?_,
    fun n t => exec_lodeIdleExit_of_due, fun n t => exec_lodeIdleExit_of_early⟩
  case hold =>
    rw [exec_lodeHold_of_filled h hawake hzero]
    exact ⟨fun hclear => congrArg _ (if_pos hclear), fun hset => congrArg _ (if_neg hset)⟩
  · rw [(exec_lodeCtrl val hrun ht hn).1, lodeCtrlWrite_of_owner ht howner, hbit]
    rfl
  · rw [(exec_lodeCtrl val hrun ht hn).2, lodeCtrlWrite_of_owner ht howner, hbit]
    rfl
  · have hsame := lodeCtrlWrite_of_foreign (v := val.toNat) ht hnone hforeign
    rw [(exec_lodeCtrl val hrun ht hn).1, (exec_lodeCtrl val hrun ht hn).2, hsame]
    exact ⟨rfl, rfl⟩
  · rw [exec_lodePower_of_enter h henter hgroup, if_neg (by simp [hcode])]
  · rw [exec_lodePower_of_enter h henter hgroup, if_pos hcode]
  · rw [exec_lodePower_of_leave h hleave, if_pos hidle]
    exact congrArg _ (wakeLode_of_asleep h.on hidle hwake)
  · rw [exec_lodePower_of_leave h hleave, hidle]
    rfl

end Sys2Proof.Machine
end

section
/-! PROOFS. Control bundles of a bead core: NOP, HALT and REPEAT (R120, R141, R142). -/
namespace Sys2Proof.Machine

open Sys2Proof

section
variable {s t u v : State} {k : Nat}

theorem nopStep_of_one (hbegin : coreBegin k s = (t, true)) (hnop : (t.core k).nop = 0) (hrep : (t.core k).rep = none)
    (hfetch : fetch t k (t.core k).pc = (u, .ctl (.nop 1))) : nopStep k s = (nopCycle k 1 u, false) := by
  simp [nopStep, hbegin, hnop, hrep, hfetch]

theorem nopRun_of_done {f : Nat} (h : nopStep k s = (t, false)) : nopRun k (f + 1) s = t := by
  simp only [nopRun, h]

theorem exec_ctlNop_of_one (hrun : s.power.running = true) (hk : k < 272) (hbegin : coreBegin k s = (t, true)) (hnop : (t.core k).nop = 0)
    (hrep : (t.core k).rep = none) (hfetch : fetch t k (t.core k).pc = (u, .ctl (.nop 1))) :
    exec (.ctlNop k) s = .next (nopCycle k 1 u) :=
  (run_next (decide_eq_true hk) hrun).trans (congrArg _ (nopRun_of_done (nopStep_of_one hbegin hnop hrep hfetch)))

theorem exec_halt_of_fetched (hrun : s.power.running = true) (hk : k < 272) (hbegin : coreBegin k s = (t, true)) (hnop : (t.core k).nop = 0)
    (hrep : (t.core k).rep = none) (hfetch : fetch t k (t.core k).pc = (u, .ctl .halt)) (hbranch : (t.core k).branch = none) :
    exec (.halt k) s = .next ((coreNext k 4 none u).setCore k { (coreNext k 4 none u).core k with halting := true }) := by
  show execHalt k s = _
  unfold execHalt
  rw [run_next (decide_eq_true hk) hrun]
  simp [hbegin, hnop, hrep, hfetch, hbranch]

theorem drainFlights_of_empty (f : Nat) (h : (s.core k).flight = []) : drainFlights k f s = s := by
  cases f with
  | zero => rfl
  | succ f => simp only [drainFlights, h]

theorem exec_haltComplete_of_drained (hrun : s.power.running = true) (hk : k < 272) (hhalting : (s.core k).halting = true)
    (hst : (s.core k).st = .running) (hflight : (s.core k).flight = []) (hcmd : (s.core k).cmd = none) :
    exec (.haltComplete k) s = .next (s.setCore k { s.core k with st := .halted, halting := false, stall := false, why := 0, cmd := none }) := by
  refine (run_onlyIf_of_true (decide_eq_true hk) hrun (by simp [hhalting, hst])).trans (congrArg _ ?_)
  simp only [drainFlights_of_empty 16 hflight, hst, hflight, hcmd, and_self, if_true]

/-- The count that a REPEAT takes: its register's value, or the immediate (R141). -/
def repeatCount (c : Core) (reg : Option Nat) (count : Nat) : Nat :=
  match reg with
  | some g => tget 0 c.ports g
  | none => count

section
variable {intr : Bool} {reg : Option Nat} {count len : Nat} {ms : List MoveSlot}

/-- What a REPEAT before a bundle that may follow it does, by its count (R141, R142). -/
theorem beginRepeat_of_repeatable (hbranch : (u.core k).branch = none) (hfetch : fetch u k ((u.core k).pc + 4) = (v, .moves ms len))
    (hrepeatable : repeatable intr (.moves ms len) = true) :
    beginRepeat k intr reg count u =
      let n := repeatCount (u.core k) reg count
      if 4096 < n then (takeExc k ⟨0x0C, 0, 0, n⟩ (u.core k).pc false v, false)
      else if n = 0 then (coreNext k (4 + len) none v, false)
      else (v.setCore k { u.core k with rep := some ⟨(u.core k).pc + 4, (u.core k).pc + 4 + len, n, 0, intr⟩ }, true) := by
  simp only [beginRepeat, hbranch, hfetch, hrepeatable]
  rfl

theorem exec_repeatCtl_of_fetched {late : Bool} (hrun : s.power.running = true) (hk : k < 272) (hrep : (s.core k).rep = none)
    (hbegin : coreBegin k s = (t, true)) (hnop : (t.core k).nop = 0) (hfetch : fetch t k (t.core k).pc = (u, .ctl (.rep intr reg count))) :
    exec (.repeatCtl k late) s = .next (match beginRepeat k intr reg count u with
      | (s, true) => repeatRun k late 4096 s
      | (s, false) => s) := by
  show execRepeatCtl k late s = _
  unfold execRepeatCtl
  rw [run_next (decide_eq_true hk) hrun]
  simp only [hrep, hbegin, hnop, hfetch]
  rfl

end

end

/-- Settles O20: each clause is its bundle's cycle, with the tests that it makes decided. -/
theorem core_Control : Obligations.Core_Control := by
  unfold Obligations.Core_Control
  intro s t k hrun hk
  refine ⟨fun u hbegin hnop hrep hfetch => exec_ctlNop_of_one hrun hk hbegin hnop hrep hfetch,
    fun u hbegin hnop hrep hfetch hbranch => exec_halt_of_fetched hrun hk hbegin hnop hrep hfetch hbranch,
    exec_haltComplete_of_drained hrun hk, fun late u v intr reg count ms len hbegin hrep hnop hfetch hbranch hnext hrepeatable => ?_⟩
  have hbeginRep := beginRepeat_of_repeatable (reg := reg) (count := count) hbranch hnext hrepeatable
  have hexec := exec_repeatCtl_of_fetched (late := late) hrun hk hrep hbegin hnop hfetch
  refine ⟨fun (hzero : repeatCount (u.core k) reg count = 0) => ?_, fun (hpos : 0 < repeatCount (u.core k) reg count)
      (hle : repeatCount (u.core k) reg count ≤ 4096) => ?_,
    fun (hover : 4096 < repeatCount (u.core k) reg count) => ?_⟩
  · rw [hexec, hbeginRep]
    simp only [hzero]
    rfl
  · rw [hexec, hbeginRep]
    dsimp only
    rw [if_neg (Nat.not_lt.2 hle), if_neg (by omega)]
    rfl
  · rw [hexec, hbeginRep]
    dsimp only
    rw [if_pos hover]
    rfl

end Sys2Proof.Machine
end

section
/-! PROOFS. Results, late data and exceptions of a bead core (R137, R138, R145 to R147). -/
namespace Sys2Proof.Machine

open Sys2Proof

/-- Registers of one copy of a block at different offsets do not meet. -/
theorem reg_setReg_of_off_ne {r r' : Reg} (h : (regRow r').blk = (regRow r).blk ∧ (regRow r').off ≠ (regRow r).off) (s : State)
    (i v : Nat) : (s.setReg r i 0 v).reg r' i = s.reg r' i := by
  refine reg_setReg_other s v ?_
  obtain ⟨hblk, hoff⟩ := h
  simp only [regAddr, hblk]
  omega

theorem reg_orReg_of_off_ne {r r' : Reg} (h : (regRow r').blk = (regRow r).blk ∧ (regRow r').off ≠ (regRow r).off) (s : State)
    (i v : Nat) : (s.orReg r i 0 v).reg r' i = s.reg r' i :=
  reg_setReg_of_off_ne h s i _

/-- Registers of bead cores lie outside block TEL. -/
theorem regAddr_bc_outside_tel {r : Reg} {k : Nat} (hblk : (regRow r).blk = .bc) (hk : k < 272) (hoff : (regRow r).off < 0x1000) :
    regAddr r k 0 0 < 0x500000 ∨ 0x600000 ≤ regAddr r k 0 0 := by
  simp only [regAddr, hblk, blkBase]
  split <;> omega

/-! ### Results and late data (R137, R138) -/

section
variable {s : State} {k : Nat}

theorem core_applyDue_of_single {f : Flight} {p v : Nat} (hflight : (s.core k).flight = [f]) (hdue : f.due ≤ (s.core k).cyc)
    (hlate : f.late = false) (hue : f.ue = none) (houts : f.outs = [(p, v)]) :
    ((applyDue k s).core k).flight = [] ∧ ((applyDue k s).core k).ports = tput 0 (s.core k).ports p v := by
  unfold applyDue
  rw [core_setCore]
  simp [hflight, Flight.isDue, hdue, hlate, hue, houts]

/-- Data that come end the stall that waited for them. -/
theorem exec_loadDataArrival_of_ready {f : Flight} {rest : List Flight} (hrun : s.power.running = true) (hk : k < 272)
    (hflight : (s.core k).flight = f :: rest) (hlate : f.late = true) (hready : dataReady s f = true) (hwhy : (s.core k).why = 1) :
    exec (.loadDataArrival k) s = .next (s.setCore k { s.core k with flight := { f with late := false } :: rest, stall := false, why := 0 }) := by
  have hfirst : takeFirst (fun f => f.late) (f :: rest) = some (f, rest) := by simp [takeFirst, hlate]
  show execLoadDataArrival k s = _
  unfold execLoadDataArrival
  rw [run_next (decide_eq_true hk) hrun]
  simp only [hflight, hfirst, hready, hwhy, if_true, execLoadDataArrival.go, hlate]
  rfl

theorem exec_delayedUncorrectable_of_due {e : Site} (hrun : s.power.running = true) (hk : k < 272) (hst : (s.core k).st = .running)
    (hlate : lateDue (s.core k) = false) (hue : ueDue (s.core k) = some e) :
    exec (.delayedUncorrectable k) s = .next (takeExc k ⟨0x07, e.slot, e.port, e.addr⟩ e.pc true s) := by
  refine (run_onlyIf_of_true (decide_eq_true hk) hrun (by simp [hst, hlate])).trans ?_
  rw [hue]
  rfl

end

/-! ### Exceptions (R145, R147) -/

/-- What R145 and R147 say an exception leaves of the core and its registers. -/
structure Faulted (a : Core) (k : Nat) (e : Exc) (pc : Nat) (delayed : Bool) (t : State) : Prop where
  st     : (t.core k).st = .faulted
  flight : (t.core k).flight = []
  ports  : (t.core k).ports = a.ports
  exc    : (t.core k).exc = e.code
  excPc  : t.reg .bcExcPc k = pc % 2 ^ 16
  info   : t.reg .bcExcInfo k = (e.slot + (if delayed then 4 else 0) + 8 * e.port) % 2 ^ 32
  addr   : t.reg .bcExcAddr k = e.addr % 2 ^ 32
  err    : bit (t.reg .bcErr k) 0 = true

section
variable {a : Core} {k pc : Nat} {e : Exc} {delayed : Bool} {s t : State}

/-- A record changes none of it. -/
theorem Faulted.tells (h : Faulted a k e pc delayed s) (ht : Tells s t) (hk : k < 272) : Faulted a k e pc delayed t := by
  have hcore : t.core k = s.core k := by
    unfold State.core
    rw [ht.cores]
  have hreg {r : Reg} (hblk : (regRow r).blk = .bc) (hoff : (regRow r).off < 0x1000) : t.reg r k = s.reg r k :=
    ht.reg (regAddr_bc_outside_tel hblk hk hoff)
  refine ⟨hcore ▸ h.st, hcore ▸ h.flight, hcore ▸ h.ports, hcore ▸ h.exc, ?_, ?_, ?_, ?_⟩
  · exact (hreg rfl (by decide)).trans h.excPc
  · exact (hreg rfl (by decide)).trans h.info
  · exact (hreg rfl (by decide)).trans h.addr
  · rw [hreg rfl (by decide)]
    exact h.err

theorem tget_mapVal {α : Type} {d : α} (g : α → α) (hd : g d = d) : ∀ (t : Tbl α) (k : Nat), tget d (t.map fun x => (x.1, g x.2)) k = g (tget d t k)
  | [], _ => hd.symm
  | (k0, x) :: t, k => by
    simp only [List.map_cons, tget]
    split
    · rfl
    · exact tget_mapVal g hd t k

/-- A core that a CORES_RUN no longer waits for. -/
def freed (id : Nat) (c : Core) : Core := if c.cmd = some id then { c with cmd := none } else c

theorem core_freeCores (id k : Nat) (s : State) : (freeCores id s).core k = freed id (s.core k) :=
  tget_mapVal (freed id) (by simp [freed]) s.cores k

/-- The reply of a CORES_RUN changes none of it. -/
theorem Faulted.coresReply (h : Faulted a k e pc delayed s) (id code at_ : Nat) :
    Faulted a k e pc delayed (coresReply id k (some (code, at_)) s) := by
  have hcore : (Machine.coresReply id k (some (code, at_)) s).core k = freed id (s.core k) := core_freeCores id k s
  have hfreed (c : Core) : (freed id c).st = c.st ∧ (freed id c).flight = c.flight ∧ (freed id c).ports = c.ports ∧ (freed id c).exc = c.exc := by
    unfold freed
    split <;> exact ⟨rfl, rfl, rfl, rfl⟩
  obtain ⟨hst, hflight, hports, hexc⟩ := hfreed (s.core k)
  exact ⟨by rw [hcore, hst, h.st], by rw [hcore, hflight, h.flight], by rw [hcore, hports, h.ports], by rw [hcore, hexc, h.exc],
    h.excPc, h.info, h.addr, h.err⟩

end

/-- The ports of a core whose offers and waits are withdrawn. -/
theorem core_withdrawn (k : Nat) (s : State) :
    ((withdraw k none (withdrawOffers k s)).core k).ports = (s.core k).ports ∧
      (withdraw k none (withdrawOffers k s)).own = s.own := by
  rw [withdraw_rest]
  refine ⟨?_, rfl⟩
  show ((withdrawOffers k s).core k).ports = _
  unfold withdrawOffers
  rw [core_setCore]

theorem coreOwner_congr {s t : State} (h : t.own = s.own) (k : Nat) : coreOwner t k = coreOwner s k := by
  simp only [coreOwner, lodeOwner, h]

/-- A core as an exception leaves it. -/
def excCore (code : Nat) (c : Core) : Core :=
  { c with
    st := .faulted, flight := [], wait := none, paused := none, exc := code
    repLeft := match c.rep with | some r => r.total - r.done | none => 0
    stall := false, why := 0, cmd := none, mop := .none, dmv := .none, nop := 0, halting := false }

/-- The core and its registers as an exception sets them, before its record and the reply of its CORES_RUN. -/
def excSet (k : Nat) (e : Exc) (pc : Nat) (delayed : Bool) (x : Core) (s : State) : State :=
  ((((s.setCore k x).setReg .bcExcPc k 0 (pc % 2 ^ 16)).setReg .bcExcInfo k 0
    (e.slot + (if delayed then 4 else 0) + 8 * e.port)).setReg .bcExcAddr k 0 e.addr).orReg .bcErr k 0 1

theorem faulted_excSet {a x : Core} (k : Nat) {e : Exc} (pc : Nat) (delayed : Bool) (s : State) (hst : x.st = .faulted) (hflight : x.flight = [])
    (hports : x.ports = a.ports) (hexc : x.exc = e.code) : Faulted a k e pc delayed (excSet k e pc delayed x s) := by
  have hcore : (excSet k e pc delayed x s).core k = x := core_setCore s k x
  refine ⟨by rw [hcore, hst], by rw [hcore, hflight], by rw [hcore, hports], by rw [hcore, hexc], ?_, ?_, ?_, ?_⟩
  all_goals unfold excSet
  · rw [reg_orReg_of_off_ne (by decide), reg_setReg_of_off_ne (by decide), reg_setReg_of_off_ne (by decide), reg_setReg]
    exact Nat.mod_eq_of_lt (Nat.lt_trans (Nat.mod_lt _ (by decide)) (by decide))
  · rw [reg_orReg_of_off_ne (by decide), reg_setReg_of_off_ne (by decide), reg_setReg]
    rfl
  · rw [reg_orReg_of_off_ne (by decide), reg_setReg]
    rfl
  · rw [reg_orReg]
    exact (bit_mod _ 32 0 (by decide)).trans (bit_or _ 0)

/-- An exception is recorded once its core and registers are set, and ends the CORES_RUN that waits for the core. -/
theorem takeExc_eq (k : Nat) (e : Exc) (pc : Nat) (delayed : Bool) (s : State) :
    takeExc k e pc delayed s =
      let w := withdraw k none (withdrawOffers k s)
      let u := raise 1 (if coreOwner w k = 0 then none else some (coreOwner w k - 1)) (regAddr .bcSts k 0 0) 0x8002
        (zeros 1 ++ leBytes 1 e.code ++ leBytes 4 k ++ leBytes 4 pc ++ leBytes 4 e.addr) (excSet k e pc delayed (excCore e.code (w.core k)) w)
      match (w.core k).cmd with
      | some id => coresReply id k (some (e.code, pc)) u
      | none => u :=
  rfl

theorem faulted_takeExc (s : State) {k : Nat} (e : Exc) (pc : Nat) (delayed : Bool) (hk : k < 272) (howner : coreOwner s k ≤ 16) :
    Faulted (s.core k) k e pc delayed (takeExc k e pc delayed s) := by
  obtain ⟨hports, hown⟩ := core_withdrawn k s
  rw [← coreOwner_congr hown k] at howner
  rw [takeExc_eq]
  generalize withdraw k none (withdrawOffers k s) = w at hports howner
  have htenant : ∀ t, (if coreOwner w k = 0 then none else some (coreOwner w k - 1)) = some t → t < 0xF00 := by
    intro t ht
    split at ht
    · cases ht
    · cases ht
      omega
  have hset : Faulted (s.core k) k e pc delayed (excSet k e pc delayed (excCore e.code (w.core k)) w) :=
    faulted_excSet k pc delayed w rfl rfl hports rfl
  have hraised := hset.tells (tells_raise 1 _ (regAddr .bcSts k 0 0) 0x8002
    (zeros 1 ++ leBytes 1 e.code ++ leBytes 4 k ++ leBytes 4 pc ++ leBytes 4 e.addr) _ htenant) hk
  dsimp only
  split
  · exact hraised.coresReply _ _ _
  · exact hraised

/-- Settles O21: results and late data by the core's flight, the exception by what its state, its registers and its record are. -/
theorem core_Results : Obligations.Core_Results := by
  unfold Obligations.Core_Results
  intro s k hrun hk
  refine ⟨fun f p v hst hflight hdue hlate hue houts => ?_, fun f rest => exec_loadDataArrival_of_ready hrun hk,
    fun e => exec_delayedUncorrectable_of_due hrun hk, fun e pc delayed howner => ?_⟩
  · obtain ⟨hempty, hports⟩ := core_applyDue_of_single hflight hdue hlate hue houts
    refine ⟨_, run_onlyIf_of_true (decide_eq_true hk) hrun (by simp [hst]), hempty, fun q => ?_⟩
    rw [hports]
    split
    · next h => rw [h, tget_tput_same]
    · next h => exact tget_tput_other _ _ _ h
  · obtain ⟨hst, hflight, hports, hexc, hpc, hinfo, haddr, herr⟩ := faulted_takeExc s e pc delayed hk howner
    exact ⟨hst, hflight, hports, hexc, hpc, hinfo, haddr, herr⟩

end Sys2Proof.Machine
end

section
/-! PROOFS. Starts, clears, holds and loads of bead cores (R143, R150, R151). -/
namespace Sys2Proof.Machine

open Sys2Proof

section
variable {s : State} {k t v : Nat}

/-! ### Writes of CTRL (R143, R151) -/

/-- The core after a CTRL write's START bit, of a core that was in `st`. -/
def ctrlStarted (k v : Nat) (st : CoreSt) (u : State) : State :=
  if bit v 0 then (if st = .halted then startCore k none u else u.orReg .bcErr k 0 2) else u

/-- A tenant's write of its own core's CTRL sets HOLD, acts on START, then on CLEAR. -/
theorem bcCtrlWrite_of_owner (ht : t < 16) (howner : coreOwner s k = t + 1) :
    bcCtrlWrite t k v s =
      let u := ctrlStarted k v (s.core k).st (s.setField .bcCtrl k 0 1 1 (bits v 1 1))
      holdsChanged (if bit v 2 ∧ (s.core k).st = .faulted then u.setCore k { u.core k with st := .halted } else u) :=
  instWrite_of_owner _ s ht howner

theorem bit_of_mod8 {x : Nat} {j : Nat} (h : v % 8 = x) (hj : j < 3) : bit v j = bit x j := by
  rw [← h]
  exact (bit_mod v 3 j hj).symm

theorem exec_bcCtrl (val : Word) (hrun : s.power.running = true) (ht : t < 16) (hk : k < 272) :
    exec (.coreStart t k val) s = .next (bcCtrlWrite t k val.toNat s) ∧
      exec (.coreClear t k val) s = .next (bcCtrlWrite t k val.toNat s) ∧
      exec (.bcHoldWrite t k val) s = .next (bcCtrlWrite t k val.toNat s) := by
  have hinstances : (decide (t < 19) && decide (k < 272)) = true := by simp [hk]; omega
  exact ⟨run_next hinstances hrun, run_next hinstances hrun, run_next hinstances hrun⟩

theorem bcCtrlWrite_of_start (ht : t < 16) (howner : coreOwner s k = t + 1) (hv : v % 8 = 1) :
    bcCtrlWrite t k v s = holdsChanged (ctrlStarted k v (s.core k).st (s.setField .bcCtrl k 0 1 1 (bits v 1 1))) := by
  have hclear : bit v 2 = false := bit_of_mod8 hv (by decide)
  rw [bcCtrlWrite_of_owner ht howner]
  simp only [hclear, Bool.false_eq_true, false_and, if_false]

theorem ctrlStarted_of_start (st : CoreSt) (u : State) (hv : v % 8 = 1) :
    ctrlStarted k v st u = if st = .halted then startCore k none u else u.orReg .bcErr k 0 2 :=
  if_pos (bit_of_mod8 hv (by decide))

theorem bcCtrlWrite_of_clear (ht : t < 16) (howner : coreOwner s k = t + 1) (hv : v % 8 = 4) (hst : (s.core k).st = .faulted) :
    bcCtrlWrite t k v s = holdsChanged ((s.setField .bcCtrl k 0 1 1 (bits v 1 1)).setCore k { s.core k with st := .halted }) := by
  have hstart : bit v 0 = false := bit_of_mod8 hv (by decide)
  have hclear : bit v 2 = true := bit_of_mod8 hv (by decide)
  rw [bcCtrlWrite_of_owner ht howner]
  simp only [ctrlStarted, hstart, hclear, hst, Bool.false_eq_true, and_self, if_true, if_false]
  rfl

theorem bcCtrlWrite_of_hold (ht : t < 16) (howner : coreOwner s k = t + 1) (hv : v % 8 < 4) (hstart : bit v 0 = false) :
    bcCtrlWrite t k v s = holdsChanged (s.setField .bcCtrl k 0 1 1 (bits v 1 1)) := by
  have hclear : bit v 2 = false := by
    rw [bit_of_mod8 rfl (by decide), bit_testBit, Nat.testBit_lt_two_pow hv]
  rw [bcCtrlWrite_of_owner ht howner]
  simp only [ctrlStarted, hstart, hclear, Bool.false_eq_true, false_and, if_false]

theorem core_startCore (cmd : Option Nat) :
    ((startCore k cmd s).core k).st = .running ∧ ((startCore k cmd s).core k).pc = s.reg .bcStartPc k % 2 ^ 16 ∧
      ((startCore k cmd s).core k).cyc = 0 ∧ ((startCore k cmd s).core k).ports = (s.core k).ports := by
  unfold startCore
  rw [core_setCore]
  refine ⟨rfl, ?_, rfl, rfl⟩
  dsimp only
  rw [reg_setReg_of_off_ne (by decide), reg_setReg_of_off_ne (by decide), reg_setReg_of_off_ne (by decide)]

/-! ### Writes to instruction memory (R150) -/

theorem exec_imemWrite {req : Requester} {off : Nat} {data : Bytes} (hrun : s.power.running = true) (hk : k < 272) (hdata : data ≠ [])
    (hoff : off + data.length ≤ 0x10000) :
    exec (.imemWrite req k off data) s = .next (
      let a := imemBase + k * 0x10000 + off
      if permits s req a data.length true then (imemWrites (cwSplit (data.length + 1) a data) s).1 else addrDenied req s) := by
  have hinstances : (decide (k < 272) && decide (off + data.length ≤ 0x10000)) = true := by simp [hk, hoff]
  show execImemWrite req k off data s = _
  unfold execImemWrite
  rw [run_next hinstances hrun]
  exact congrArg _ (if_neg hdata)

theorem imemWrites_of_shut {a : Nat} {bs : Bytes} (rest : List (Nat × Bytes)) (hk : (a - imemBase) / 0x10000 = k) (hshut : imemOpen s k = false) :
    imemWrites ((a, bs) :: rest) s = (s.orReg .bcErr k 0 4, some .running) := by
  simp only [imemWrites, hk, hshut]
  rfl

end

/-- Settles O22: START, CLEAR and HOLD by the bits of the value that CTRL is written with. -/
theorem core_Run_Control : Obligations.Core_Run_Control := by
  unfold Obligations.Core_Run_Control
  intro s k t val hrun hk ht howner
  obtain ⟨hstart, hclear, hhold⟩ := exec_bcCtrl val hrun ht hk
  refine ⟨fun hv hst => ?_, fun hv hst => ?_, fun hv hst => ?_, fun hv hbit => ?_, fun cmd => core_startCore cmd,
    fun hst hhalting hhold hpoint hue hwait hclock => ?_, fun req off data hdata hoff => ?_,
    fun a bs rest hcore hshut => imemWrites_of_shut rest hcore hshut⟩
  · rw [hstart, bcCtrlWrite_of_start ht howner hv, ctrlStarted_of_start _ _ hv, if_pos hst]
  · rw [hstart, bcCtrlWrite_of_start ht howner hv, ctrlStarted_of_start _ _ hv, if_neg hst]
  · rw [hclear, bcCtrlWrite_of_clear ht howner hv hst]
  · rw [hhold, bcCtrlWrite_of_hold ht howner hv hbit]
  · exact run_onlyIf_of_true (decide_eq_true hk) hrun (by simp [hst, hhalting, hhold, hpoint, hue, hwait, hclock])
  · rw [exec_imemWrite hrun hk hdata hoff]
    exact ⟨fun hpermits => congrArg _ (if_pos hpermits), fun hpermits => congrArg _ (if_neg (by simp [hpermits]))⟩

end Sys2Proof.Machine
end

section
/-! PROOFS. Watchdogs, crashes and restarts of firmware processors (R242 to R244). -/
namespace Sys2Proof.Machine

open Sys2Proof

section
variable {s : State} {p : Nat}

/-! ### A crash is captured and leaves the processor RESTARTING -/

/-- A register write and a record of no tenant leave the time base alone. -/
theorem tb_raise_setReg (cls source kind v : Nat) (body : Bytes) (r : Reg) (s : State) :
    (raise cls none source kind body (s.setReg r 0 0 v)).tb = s.tb :=
  (tells_raise cls none source kind body (s.setReg r 0 0 v) nofun).tb

/-- A crash of a RUNNING control core or of the command processor, with no cause captured before it. -/
theorem crash_of_running {cause : Nat} {t : State} (hp : p < 33) (hst : (s.fwp p).st = .running) (hfree : bit (s.reg .glbFwCause) 31 = false)
    (ht : t = raise 1 none (regAddr .glbFwCause 0 0 0) 0x8004 (leBytes 1 p ++ leBytes 1 cause) (s.setReg .glbFwCause 0 0 (p + cause * 64 + 2 ^ 31))) :
    crash p cause s =
      let u := countRestart p (t.setFw p { s.fwp p with st := .restarting, first := s.tb.ticks })
      if p < 32 then holdsChanged u else u := by
  have hticks : t.tb = s.tb := by
    rw [ht, tb_raise_setReg]
  have hclass : p ≠ 34 := by omega
  have hpm : p ≠ 33 := by omega
  simp only [crash, hst, hfree, hclass, hpm, reduceCtorEq, Bool.false_eq_true, if_true, if_false, ← ht, hticks]

theorem exec_watchdogExpiry (kicked : Nat) (hrun : s.power.running = true) (hp : p < 33) :
    exec (.watchdogExpiry ⟨p, kicked⟩) s = .next (onlyIf (wdExpired s ⟨p, kicked⟩) (crash p 0) s) :=
  run_next (decide_eq_true (by omega : p < 35)) hrun

theorem exec_fwCrash {cause : Nat} (hrun : s.power.running = true) (hp : p < 33) (h1 : 0 < cause) (h3 : cause ≤ 3) :
    exec (.fwCrash p cause) s = .next (crash p cause s) :=
  run_onlyIf_of_true (decide_eq_true (by omega : p < 35)) hrun (by simp [h3]; omega)

/-! ### Restarts (R243) -/

/-- The restart of a control core or of the command processor: it runs its part of the image store. -/
theorem fwRestart_of_lt (hp : p < 33) : fwRestart p s =
    let t := s.setFw p { wd := s.tb.ticks, sram := Config.fwPart s.sec.store p }
    if p < 32 then holdsChanged t else t := by
  have hpm : p ≠ 33 := by omega
  simp only [fwRestart, hpm, if_false]

theorem exec_fwRestartDone (bad : Bool) (hrun : s.power.running = true) (hp : p < 33) (hst : (s.fwp p).st = .restarting) :
    exec (.fwRestartDone ⟨p, bad⟩) s =
      .next (if bad then (match refillStore s with | some s => fwRestart p s | none => s) else fwRestart p s) :=
  (run_next (decide_eq_true (by omega : p < 35)) hrun).trans (congrArg _ (if_pos (.inl hst)))

theorem exec_fwRestartDone_of_running (bad : Bool) (hrun : s.power.running = true) (hp : p < 33) (hst : (s.fwp p).st = .running) :
    exec (.fwRestartDone ⟨p, bad⟩) s = .next s :=
  (run_next (decide_eq_true (by omega : p < 35)) hrun).trans (congrArg _ (if_neg (by simp [hst])))

/-- A refill of the image store changes nothing but the store. -/
theorem refillStore_tb {u : State} (h : refillStore s = some u) : u.tb = s.tb := by
  simp only [refillStore] at h
  split at h
  · cases h
    rfl
  · cases h

/-! ### Cores that do not recover (R244) -/

theorem exec_controlCoreNotRecovered (hrun : s.power.running = true) (hp : p < 32) (hst : (s.fwp p).st = .restarting)
    (hlate : (s.fwp p).first + 500 * msTicks ≤ s.tb.ticks) (hgroup : groupOf s p = none) :
    exec (.controlCoreNotRecovered p) s = .next (loseLode p (s.setFw p { s.fwp p with st := .lost })) := by
  have hdue : ¬((s.fwp p).st ≠ .restarting ∨ s.tb.ticks < (s.fwp p).first + 500 * msTicks) := by
    simp only [hst, ne_eq, not_true_eq_false, false_or]
    omega
  have hsame : groupOf (s.setFw p { s.fwp p with st := .lost }) p = none := hgroup
  show execControlCoreNotRecovered p s = _
  unfold execControlCoreNotRecovered
  rw [run_next (decide_eq_true hp) hrun]
  dsimp only
  rw [if_neg hdue, hsame]

theorem exec_controlCoreNotRecovered_of_early (hrun : s.power.running = true) (hp : p < 32)
    (hearly : s.tb.ticks < (s.fwp p).first + 500 * msTicks) : exec (.controlCoreNotRecovered p) s = .next s := by
  have hsoon : (s.fwp p).st ≠ .restarting ∨ s.tb.ticks < (s.fwp p).first + 500 * msTicks := .inr hearly
  show execControlCoreNotRecovered p s = _
  unfold execControlCoreNotRecovered
  rw [run_next (decide_eq_true hp) hrun]
  dsimp only
  rw [if_pos hsoon]

end

/-- Settles O23: a watchdog and a crash share `crash`, and the two ways a restart ends share `fwRestart`. That GLB.FW_RESTARTS counts when a
restart begins, and that when the firmware last restarted its watchdog and whether the store's copy is bad are operands, are the model's choices
(log entries 92 and 102). -/
theorem firmware_Restarts : Obligations.Firmware_Restarts := by
  unfold Obligations.Firmware_Restarts
  intro s p hrun hp
  refine ⟨fun cause t u v hst hfree hcause ht hu hv => ?_, fun kicked hwd hperiod => ?_, fun kicked hearly => ?_, fun hst => ?_,
    fun bad hst => exec_fwRestartDone_of_running bad hrun hp hst,
    fun hcore hst hlate hgroup => exec_controlCoreNotRecovered hrun hcore hst hlate hgroup,
    fun hcore _ hearly => exec_controlCoreNotRecovered_of_early hrun hcore hearly⟩
  · have hcrash : crash p cause s = v := by rw [hv, hu, crash_of_running hp hst hfree ht]
    refine ⟨fun kicked hzero hexpired => ?_, fun hpos => ?_⟩
    · rw [exec_watchdogExpiry kicked hrun hp, onlyIf_true hexpired, ← hcrash, hzero]
    · rw [exec_fwCrash hrun hp hpos hcause, hcrash]
  · simp [wdExpired, hwd, hperiod]
  · rw [exec_watchdogExpiry kicked hrun hp, onlyIf_false (by simp [wdExpired]; omega)]
  · refine ⟨?_, fun u hrefill => ?_, fun hrefill => ?_⟩
    · rw [exec_fwRestartDone false hrun hp hst, if_neg (by decide), fwRestart_of_lt hp]
    · rw [exec_fwRestartDone true hrun hp hst, if_pos rfl, hrefill]
      dsimp only
      rw [fwRestart_of_lt hp, refillStore_tb hrefill]
    · rw [exec_fwRestartDone true hrun hp hst, if_pos rfl, hrefill]

end Sys2Proof.Machine
end

section
/-! PROOFS. STRICT and STRICT_LOCK of a tenant (R269). -/
namespace Sys2Proof.Machine

open Sys2Proof

section
variable {s : State} {who t v : Nat}

theorem exec_strictWrite (val : Word) (hrun : s.power.running = true) (hwho : who < 19) (ht : t < 16) :
    exec (.strictWrite who t val) s = .next (onlyIf (who == t || decide (16 ≤ who)) (detWrite who t val.toNat) s) ∧
      exec (.strictLockWrite who t val) s = .next (onlyIf (who == t || decide (16 ≤ who)) (detWrite who t val.toNat) s) := by
  have hinstances : (decide (who < 19) && decide (t < 16)) = true := by simp [hwho, ht]
  exact ⟨run_next hinstances hrun, run_next hinstances hrun⟩

theorem detWrite_of_tenant (hwho : who < 16) :
    detWrite who t v s = if bit (s.reg .detCtrl 0 t) 1 then s else s.setField .detCtrl 0 t 0 0 (bits v 0 0) :=
  if_neg (by omega)

/-- A management function may lock: STRICT takes the value's bit 0 and STRICT_LOCK is set. -/
theorem detWrite_of_management (hwho : 16 ≤ who) (hopen : bit (s.reg .detCtrl 0 t) 1 = false) (hlock : bit v 1 = true) :
    detWrite who t v s = (s.setField .detCtrl 0 t 0 0 (bits v 0 0)).setField .detCtrl 0 t 1 1 1 := by
  simp only [detWrite, hopen, hwho, hlock, and_self, Bool.false_eq_true, if_true, if_false]

theorem bit_setField_of_within {r : Reg} {i j h l x k : Nat} (hk : k < 32 * (regRow r).words) (hlo : l ≤ k) (hhi : k < h + 1) :
    bit ((s.setField r i j h l x).reg r i j) k = bit x (k - l) := by
  rw [reg_setField, bit_mod _ _ _ hk, bit_putBits, if_pos ⟨hlo, hhi⟩]

theorem bit_setField_of_outside {r : Reg} {i j h l x k : Nat} (hk : k < 32 * (regRow r).words) (hout : k < l ∨ h < k) :
    bit ((s.setField r i j h l x).reg r i j) k = bit (s.reg r i j) k := by
  rw [reg_setField, bit_mod _ _ _ hk, bit_putBits, if_neg (by omega)]

theorem bit_bits_zero : bit (bits v 0 0) 0 = bit v 0 := by
  rw [bit_testBit, bit_testBit, testBit_bits]
  simp

end

/-- Settles O24: who may write is decided before `detWrite`, and STRICT_LOCK within it. -/
theorem strict_Mode : Obligations.Strict_Mode := by
  unfold Obligations.Strict_Mode
  intro s t val hrun ht
  have hown : (t == t || decide (16 ≤ t)) = true := by simp
  obtain ⟨hstrict, hlock⟩ := exec_strictWrite val hrun (by omega : t < 19) ht
  rw [onlyIf_true hown, detWrite_of_tenant ht] at hstrict hlock
  refine ⟨fun hopen => ?_, fun hlocked => ?_, fun m hm hopen hbit => ?_, fun o ho hother => ?_⟩
  · rw [hstrict, hopen]
    rfl
  · rw [hstrict, hlock, if_pos hlocked]
    exact ⟨rfl, rfl⟩
  · have hmanager : (m == t || decide (16 ≤ m)) = true := by simp; omega
    rw [(exec_strictWrite val hrun (by omega : m < 19) ht).2, onlyIf_true hmanager, detWrite_of_management (by omega) hopen hbit]
    refine ⟨_, rfl, ?_, ?_⟩
    · exact bit_setField_of_within (by decide) (by decide) (by decide)
    · rw [bit_setField_of_outside (by decide) (by decide), bit_setField_of_within (by decide) (by decide) (by decide), bit_bits_zero]
  · have hnone : (o == t || decide (16 ≤ o)) = false := by simp [hother]; omega
    obtain ⟨hstrict, hlock⟩ := exec_strictWrite val hrun (by omega : o < 19) ht
    rw [hstrict, hlock, onlyIf_false hnone]
    exact ⟨rfl, rfl⟩

end Sys2Proof.Machine
end

section
/-! PROOFS. Loads, steps and rate writes of the time base (R30, R33, R478, R480). -/
namespace Sys2Proof.Machine

open Sys2Proof

theorem bit_orReg {s : State} {r : Reg} {i j m k : Nat} (hk : k < 32 * (regRow r).words) :
    bit ((s.orReg r i j m).reg r i j) k = (bit (s.reg r i j) k || bit m k) := by
  rw [reg_orReg, bit_mod _ _ _ hk, bit_testBit, bit_testBit, bit_testBit, Nat.testBit_or]

section
variable {s : State} {v : Nat}

/-! ### The counter takes a value (R33) -/

/-- The counter passes an event's target when it goes to `v`. -/
def passedBy (s : State) (v : Nat) (e : ArmedEv) : Bool := decide (s.tb.master.toNat < v) && decide (e.target * 2 ^ 16 < v)

/-- An armed event after the counter has gone to `v`. -/
def movedTo (s : State) (v : Nat) (e : ArmedEv) : ArmedEv :=
  { e with
    late := e.late || passedBy s v e
    start := if s.tb.master.toNat < e.target * 2 ^ 16 ∧ e.target * 2 ^ 16 ≤ v then s.tb.ticks + 1 else e.start }

/-- The state in which the counter has taken `v`. -/
def tbTook (v : Nat) (s : State) : State :=
  { (if s.tb.armed.any (passedBy s v) then s.orReg .tbSts 0 0 tbLateFire else s) with
    tb := { s.tb with master := BitVec.ofNat 80 v, armed := s.tb.armed.map (movedTo s v) } }

theorem tbTake_of_held (hback : v < s.tb.master.toNat) (hheld : tbHeld s = true) :
    tbTake v s = (false, s.orReg .tbSts 0 0 tbBackRefused) :=
  if_pos ⟨hback, hheld⟩

theorem tbTake_of_free (hfree : s.tb.master.toNat ≤ v ∨ tbHeld s = false) : tbTake v s = (true, tbTook v s) := by
  have hok : ¬(v < s.tb.master.toNat ∧ tbHeld s = true) := by
    rintro ⟨hback, hheld⟩
    rcases hfree with hge | hnot
    · omega
    · simp [hheld] at hnot
  refine (if_neg hok).trans ?_
  unfold tbTook movedTo
  simp only [Bool.and_eq_true, decide_eq_true_eq]
  rfl

theorem tb_tbTook : (tbTook v s).tb = { s.tb with master := BitVec.ofNat 80 v, armed := s.tb.armed.map (movedTo s v) } := rfl

/-- LATE_FIRE is set where an event was passed; the other bits of the status stay. -/
theorem bit_tbTook {k : Nat} (hk : k < 32) :
    bit ((tbTook v s).reg .tbSts) k = (bit (s.reg .tbSts) k || (bit tbLateFire k && s.tb.armed.any (passedBy s v))) := by
  show bit (State.reg (if s.tb.armed.any (passedBy s v) then s.orReg .tbSts 0 0 tbLateFire else s) .tbSts) k = _
  cases s.tb.armed.any (passedBy s v) with
  | true => rw [if_pos rfl, bit_orReg hk, Bool.and_true]
  | false => rw [if_neg (by decide), Bool.and_false, Bool.or_false]

theorem tbTook_of_none_armed (hnone : s.tb.armed = []) : tbTook v s = { s with tb := { s.tb with master := BitVec.ofNat 80 v } } := by
  unfold tbTook
  rw [hnone]
  show { s with tb := { s.tb with master := BitVec.ofNat 80 v, armed := [] } } = _
  rw [← hnone]

/-! ### The load of an edge of TB_SYNCIN (R30, R33) -/

/-- The state after a load that the counter took or refused. -/
def tbLoaded (ok : Bool) (s : State) : State :=
  let t := s.setField .tbSts 0 0 0 0 0
  let u := if ok then t.orReg .tbSts 0 0 tbSyncDone else t
  { u with tb := { u.tb with edge := none, loadTick := some u.tb.ticks } }

theorem exec_tbSyncinLoad {d : Nat} (hrun : s.power.running = true) (hedge : s.tb.edge = some d) (hdue : d ≤ s.tb.ticks) :
    exec .tbSyncinLoad s =
      .next (tbLoaded (tbTake (s.reg .tbSyncLoad * 2 ^ 16) s).1 (tbTake (s.reg .tbSyncLoad * 2 ^ 16) s).2) := by
  show execTbSyncinLoad s = _
  unfold execTbSyncinLoad
  rw [run_next rfl hrun]
  dsimp only
  rw [hedge]
  dsimp only
  rw [if_neg (by omega)]
  rfl

theorem tb_tbLoaded (ok : Bool) (s : State) : (tbLoaded ok s).tb = { s.tb with edge := none, loadTick := some s.tb.ticks } := by
  cases ok <;> rfl

/-- A load clears ARMED and, once the counter took the value, sets DONE; the bits above stay. -/
theorem bit_tbLoaded (ok : Bool) {s : State} {k : Nat} (hk : k < 32) :
    bit ((tbLoaded ok s).reg .tbSts) k = ((decide (k ≠ 0) && bit (s.reg .tbSts) k) || (ok && bit tbSyncDone k)) := by
  have hcleared : bit ((s.setField .tbSts 0 0 0 0 0).reg .tbSts) k = (decide (k ≠ 0) && bit (s.reg .tbSts) k) := by
    by_cases h : k = 0
    · subst h
      rw [bit_setField_of_within (by decide) (by decide) (by decide)]
      rfl
    · rw [bit_setField_of_outside hk (by omega)]
      simp [h]
  cases ok with
  | true =>
    refine Eq.trans ?_ (congr (congrArg or hcleared) (Bool.true_and _).symm)
    exact bit_orReg hk
  | false => rw [Bool.false_and, Bool.or_false, ← hcleared]; rfl

theorem tbSyncinLoad_of_held {d : Nat} (hrun : s.power.running = true) (hedge : s.tb.edge = some d) (hdue : d ≤ s.tb.ticks)
    (hback : s.reg .tbSyncLoad * 2 ^ 16 < s.tb.master.toNat) (hheld : tbHeld s = true) :
    ∃ u, exec .tbSyncinLoad s = .next u ∧ u.tb = { s.tb with edge := none, loadTick := some s.tb.ticks } ∧
      bit (u.reg .tbSts) 3 = true ∧ bit (u.reg .tbSts) 0 = false := by
  rw [exec_tbSyncinLoad hrun hedge hdue, tbTake_of_held hback hheld]
  refine ⟨_, rfl, tb_tbLoaded _ _, ?_, ?_⟩
  · rw [bit_tbLoaded _ (by decide), bit_orReg (by decide)]
    simp [show bit tbBackRefused 3 = true from rfl]
  · rw [bit_tbLoaded _ (by decide)]
    rfl

theorem tbSyncinLoad_of_free {d : Nat} (hrun : s.power.running = true) (hedge : s.tb.edge = some d) (hdue : d ≤ s.tb.ticks)
    (hv : v = s.reg .tbSyncLoad * 2 ^ 16) (hfree : s.tb.master.toNat ≤ v ∨ tbHeld s = false) :
    ∃ u, exec .tbSyncinLoad s = .next u ∧ u.tb.master = BitVec.ofNat 80 v ∧ u.tb.armed = s.tb.armed.map (movedTo s v) ∧ u.tb.edge = none ∧
      bit (u.reg .tbSts) 2 = (bit (s.reg .tbSts) 2 || s.tb.armed.any (passedBy s v)) ∧ bit (u.reg .tbSts) 0 = false ∧
      bit (u.reg .tbSts) 1 = true := by
  rw [exec_tbSyncinLoad hrun hedge hdue, ← hv, tbTake_of_free hfree]
  have hbase := tb_tbLoaded true (tbTook v s)
  refine ⟨_, rfl, ?_, ?_, ?_, ?_, ?_, ?_⟩
  · rw [hbase, tb_tbTook]
  · rw [hbase, tb_tbTook]
  · rw [hbase]
  · rw [bit_tbLoaded _ (by decide), bit_tbTook (by decide)]
    simp [show bit tbSyncDone 2 = false from rfl, show bit tbLateFire 2 = true from rfl]
  · rw [bit_tbLoaded _ (by decide)]
    rfl
  · rw [bit_tbLoaded _ (by decide)]
    simp [show bit tbSyncDone 1 = true from rfl]

/-! ### TB.STEP and TB.ADJ (R33) -/

theorem exec_tbStep (hi : Bool) (val : Word) (hrun : s.power.running = true) :
    exec (.tbStep 16 hi val) s = .next (onlyIf (!servoOn s) (tbStepWrite hi val) s) ∧
      exec (.tbAdjWrite 16 val) s = .next (onlyIf (!servoOn s) (fun s => s.setReg .tbAdj 0 0 (clampAdj (sext 8 val.toNat))) s) :=
  ⟨run_next rfl hrun, run_next rfl hrun⟩

theorem tbStepWrite_of_load (val : Word) (hload : loadHere s = true) : tbStepWrite true val s = s.orReg .tbSts 0 0 tbStepLost := by
  show (tbStepOr _ s).2 = _
  unfold tbStepOr
  rw [if_pos hload]

theorem tbStepWrite_of_negative (val : Word) (hload : loadHere s = false)
    (hneg : (s.tb.master.toNat : Int) + tbStepWord val s.tb.stepLow < 0) :
    tbStepWrite true val s = s.orReg .tbSts 0 0 tbBackRefused := by
  show (tbStepOr _ s).2 = _
  unfold tbStepOr tbStepBy
  dsimp only
  rw [if_neg (by simp [hload]), if_pos hneg]

/-- A step whose sum the counter can hold gives it that value, or is refused as a load of it would be. -/
theorem tbStepWrite_of_value (val : Word) (hload : loadHere s = false)
    (hv : (s.tb.master.toNat : Int) + tbStepWord val s.tb.stepLow = v) (hwide : v < 2 ^ 80) :
    tbStepWrite true val s = (tbTake v s).2 := by
  have hpos : ¬((v : Int) < 0) := by omega
  have hnarrow : ¬((2 : Int) ^ 80 ≤ v) := by omega
  show (tbStepOr _ s).2 = _
  unfold tbStepOr tbStepBy
  dsimp only
  rw [if_neg (by simp [hload]), hv, if_neg hpos, if_neg hnarrow, Int.toNat_natCast]

theorem tbStepWrite_of_free (val : Word) (hload : loadHere s = false)
    (hv : (s.tb.master.toNat : Int) + tbStepWord val s.tb.stepLow = v) (hwide : v < 2 ^ 80)
    (hfree : s.tb.master.toNat ≤ v ∨ tbHeld s = false) : tbStepWrite true val s = tbTook v s := by
  rw [tbStepWrite_of_value val hload hv hwide, tbTake_of_free hfree]

/-! ### The commands TB_ADJ and TB_SYNC_ARM -/

theorem exec_tbAdj {id : Nat} {c : Cmd} (h : Ready s .tbAdj id c) :
    exec (.tbAdj id) s = .next
      (if servoOn s then conflict id 0x17 0 1 0 s else finish0 id stOk (s.setReg .tbAdj 0 0 (clampAdj (sext 16 (c.p 0))))) :=
  h.exec _

/-- The state in which TB_SYNC_ARM has armed the load of `v`. -/
def tbSyncArmed (v : Nat) (s : State) : State :=
  { (s.setReg .tbSyncLoad 0 0 v).orReg .tbSts 0 0 tbArmed with tb := { s.tb with edge := none, armTick := s.tb.ticks } }

theorem exec_tbSyncArm {id : Nat} {c : Cmd} (h : Ready s .tbSyncArm id c) :
    exec (.tbSyncArm id) s = .next (if servoOn s then conflict id 0x17 0 1 0 s else finish0 id stOk (tbSyncArmed (c.p 0) s)) :=
  h.exec _

end

/-- Settles O25: a load and a step that the counter takes both leave `tbTook`. -/
theorem timeBase_Writes : Obligations.TimeBase_Writes := by
  unfold Obligations.TimeBase_Writes
  rintro s val id c passed moved hrun rfl rfl
  obtain ⟨hhigh, hadj⟩ := exec_tbStep true val hrun
  obtain ⟨hlow, -⟩ := exec_tbStep false val hrun
  refine ⟨fun v d hv hedge hdue => ⟨fun hback hheld => ?_, fun hfree => ?_⟩, fun hservo => ?_, fun hservo => ?_⟩
  · exact tbSyncinLoad_of_held hrun hedge hdue (hv ▸ hback) hheld
  · exact tbSyncinLoad_of_free hrun hedge hdue hv hfree
  · have hwrites : (!servoOn s) = true := by simp [hservo]
    rw [onlyIf_true hwrites] at hhigh hlow hadj
    refine ⟨hadj, hlow, fun hload hneg => ?_, fun v hload hv hwide => ⟨fun hback hheld => ?_, fun hfree => ?_⟩, fun hload => ?_,
      fun h => ?_, fun h => ?_⟩
    · rw [hhigh, tbStepWrite_of_negative val hload hneg]
      rfl
    · rw [hhigh, tbStepWrite_of_value val hload hv hwide, tbTake_of_held hback hheld]
      rfl
    · rw [hhigh, tbStepWrite_of_free val hload hv hwide hfree]
      refine ⟨_, rfl, rfl, rfl, ?_, tbTook_of_none_armed⟩
      rw [bit_tbTook (by decide), show bit tbLateFire 2 = true from rfl, Bool.true_and]
      rfl
    · rw [hhigh, tbStepWrite_of_load val hload]
      rfl
    · rw [exec_tbAdj h, if_neg (by simp [hservo])]
      rfl
    · rw [exec_tbSyncArm h, if_neg (by simp [hservo])]
      rfl
  · have hwrites : (!servoOn s) = false := by simp [hservo]
    rw [onlyIf_false hwrites] at hhigh hadj
    refine ⟨hadj, hhigh, fun h => ?_, fun h => ?_⟩
    · rw [exec_tbAdj h, if_pos hservo]
      rfl
    · rw [exec_tbSyncArm h, if_pos hservo]
      rfl

end Sys2Proof.Machine
end

section
/-! PROOFS. Armed events, TB_SYNCIN and PTP messages (R32, R175, R478, R480). -/
namespace Sys2Proof.Machine

open Sys2Proof

section
variable {s : State}

/-! ### Armed events (R32, R175) -/

/-- What firing an event does, by its owner, once it is off the list. -/
def eventFires (e : ArmedEv) (s : State) : State :=
  match e.owner with
  | .lock g => s.setGrp g { s.grp g with fired := some s.tb.ticks, late := (s.grp g).late || e.late }
  | .timed id => release id e.late s
  | .gate m => gateTakes m e.late s

theorem exec_tbEventFire {e : ArmedEv} (hrun : s.power.running = true) (hleast : leastEvent (s.tb.armed.filter fun e => e.due s) = some e) :
    exec .tbEventFire s = .next (eventFires e { s with tb := { s.tb with armed := s.tb.armed.erase e } }) := by
  show execTbEventFire s = _
  unfold execTbEventFire
  rw [run_next rfl hrun, hleast]
  rfl

theorem exec_tbEventFire_of_none_due (hrun : s.power.running = true) (hnone : ∀ e ∈ s.tb.armed, s.now < e.target ∨ s.tb.ticks < e.start) :
    exec .tbEventFire s = .next s := by
  have hempty : (s.tb.armed.filter fun e => e.due s) = [] := by
    refine List.filter_eq_nil_iff.mpr fun e he => ?_
    have := hnone e he
    simp only [ArmedEv.due, Bool.and_eq_true, decide_eq_true_eq]
    omega
  show execTbEventFire s = _
  unfold execTbEventFire
  rw [run_next rfl hrun, hempty]
  rfl

/-! ### A PTP message of the servo's sender (R480) -/

/-- The PTP message in a frame. -/
def ptpBody (bytes : Bytes) : Bytes := bytes.drop (if (parse bytes).etype = 0x88F7 then (parse bytes).l3 else (parse bytes).p.getD 0)

theorem exec_ptpMessage_of_twoStep {p : PtpMsg} {rest : List PtpMsg} {q : Bytes} {due : Nat} (hrun : s.power.running = true) (hin : s.net.ptp = p :: rest)
    (hservo : servoOn s = true) (hmac : p.mac = bits (s.reg .tbCtrl) 5 1) (hversion : fld (ptpBody p.bytes) 1 1 % 16 = 2)
    (hdomain : fld (ptpBody p.bytes) 4 1 = bits (s.reg .tbCtrl) 13 6)
    (hbest : s.tb.servo.best = some (q, slice (ptpBody p.bytes) 20 10, due)) (hheard : s.tb.ticks < due)
    (hsync : fld (ptpBody p.bytes) 0 1 % 16 = 0) (htwo : bit (fld (ptpBody p.bytes) 6 1) 1 = true) :
    exec .ptpMessage s = .next { s with net := { s.net with ptp := rest }, tb := { s.tb with servo := { s.tb.servo with
      sync := some (beNat (slice (ptpBody p.bytes) 30 2), ((p.time * 2 ^ 16 : Nat) : Int) - ptpCorr (ptpBody p.bytes)) } } } := by
  have hservo' : servoOn { s with net := { s.net with ptp := rest } } = true := hservo

  have haccepted : (!servoOn { s with net := { s.net with ptp := rest } } || p.mac != bits (s.reg .tbCtrl) 5 1 ||
      fld (ptpBody p.bytes) 1 1 % 16 != 2 || fld (ptpBody p.bytes) 4 1 != bits (s.reg .tbCtrl) 13 6) = false := by
    simp [hservo', hmac, hversion, hdomain]
  show execPtpMessage s = _
  unfold execPtpMessage
  rw [run_next rfl hrun, hin]
  dsimp only
  unfold ptpBody at *
  generalize p.bytes.drop (if (parse p.bytes).etype = 0x88F7 then (parse p.bytes).l3 else (parse p.bytes).p.getD 0) = b at *
  rw [if_neg (by exact Bool.eq_false_iff.mp haccepted), hsync]
  refine congrArg _ ((if_neg ?_).trans (if_pos htwo))
  rw [hbest]
  simp [hheard]

end

/-- Settles O26: the event that fires is the least that is due, by its owner; the load is that of `TimeBase_Writes`. The byte offsets of a PTP
message are PRESUMED, from outside the spec (log entry 53). -/
theorem timeBase_Events : Obligations.TimeBase_Events := by
  unfold Obligations.TimeBase_Events
  intro s hrun
  refine ⟨fun e g hleast howner => ?_, fun e id hleast howner => ?_, fun e m hleast howner => ?_, exec_tbEventFire_of_none_due hrun,
    fun harmed hedge hlater => ?_, fun d hedge hdue hheld => ?_,
    fun p rest q due hin hservo hmac hversion hdomain hbest hheard hsync htwo =>
      exec_ptpMessage_of_twoStep hrun hin hservo hmac hversion hdomain hbest hheard hsync htwo⟩
  · rw [exec_tbEventFire hrun hleast]
    simp only [eventFires, howner]
    rfl
  · rw [exec_tbEventFire hrun hleast]
    simp only [eventFires, howner]
  · rw [exec_tbEventFire hrun hleast]
    simp only [eventFires, howner]
  · exact run_onlyIf_of_true rfl hrun (by simp [harmed, hedge, hlater])
  · obtain ⟨t, ht, hmaster, -, hedge', -, harmed, hdone⟩ := tbSyncinLoad_of_free hrun hedge hdue rfl (.inr hheld)
    exact ⟨t, ht, hmaster, hedge', harmed, hdone⟩

end Sys2Proof.Machine
end

section
/-! PROOFS. Signals, waiters, notices and timeouts of sync counters (R222 to R231). -/
namespace Sys2Proof.Machine

open Sys2Proof

section
variable {s : State} {p : Nat}

/-! ### Testing the waiters of counters (R223, R224) -/

theorem passes_of_no_waiters (hnone : (s.ctr p).waiters = []) : passes s p = none := by
  simp only [passes, hnone]

theorem passes_of_below {w : Waiter} {l : List Waiter} (hhead : (s.ctr p).waiters = w :: l) (hbelow : (s.ctr p).count.toNat < w.target) :
    passes s p = none := by
  have hfails : ¬w.target ≤ (s.ctr p).count.toNat := by omega
  simp [passes, hhead, hfails]

theorem passes_of_reached {w : Waiter} {l : List Waiter} (hhead : (s.ctr p).waiters = w :: l) (hsat : (s.ctr p).sat = false)
    (hreached : w.target ≤ (s.ctr p).count.toNat) : passes s p = some w := by
  simp [passes, hhead, hsat, hreached]

theorem headTurn_of_none {ps : List Nat} (hnone : ∀ q ∈ ps, passes s q = none) : headTurn s ps = none := by
  have hfind : ∀ f : Nat → Bool, (∀ q ∈ ps, f q = false) → ps.find? f = none := fun f hf =>
    List.find?_eq_none.mpr fun q hq => by simp [hf q hq]
  unfold headTurn
  dsimp only
  rw [hfind _ fun q hq => by rw [hnone q hq], hfind _ fun q hq => by rw [hnone q hq]]
  rfl

theorem settleN_of_none {ps : List Nat} (hnone : ∀ q ∈ ps, passes s q = none) : ∀ f, settleN f ps s = s
  | 0 => rfl
  | f + 1 => by
    unfold settleN
    rw [headTurn_of_none hnone]

theorem settle_of_none {ps : List Nat} (hnone : ∀ q ∈ ps, passes s q = none) : settle ps s = s := settleN_of_none hnone _

/-- The head of a counter that waits on it alone passes first. -/
theorem headTurn_of_single {w : Waiter} (hpasses : passes s p = some w) (hany : w.any = none) : headTurn s [p] = some p := by
  simp [headTurn, hpasses, hany, winner]

/-- A counter with one waiter, on it alone, that passes: the target is subtracted and the notice leaves. -/
theorem settle_of_single {w : Waiter} (hpasses : passes s p = some w) (hwaiters : (s.ctr p).waiters = [w]) (hany : w.any = none) :
    settle [p] s = (passHead p s).2 ∧ ((passHead p s).2).ctr p = { s.ctr p with count := (s.ctr p).count - BitVec.ofNat 24 w.target, waiters := [] } ∧
      (passHead p s).2.sync.notices = s.sync.notices ++ [⟨w.src, 0, p, w.tag⟩] := by
  have hhead : passHead p s = ([p],
      let t := s.setCtr p { s.ctr p with count := (s.ctr p).count - BitVec.ofNat 24 w.target, waiters := [] }
      { t with sync := { t.sync with notices := t.sync.notices ++ [⟨w.src, 0, p, w.tag⟩] } }) := by
    simp only [passHead, hwaiters, hany]
    rfl
  have hctr : ((passHead p s).2).ctr p = { s.ctr p with count := (s.ctr p).count - BitVec.ofNat 24 w.target, waiters := [] } := by
    rw [hhead]
    exact ctr_setCtr _ _ _
  refine ⟨?_, hctr, by rw [hhead]; rfl⟩
  unfold settle settleN
  rw [headTurn_of_single hpasses hany]
  refine settleN_of_none (fun q hq => ?_) _
  obtain rfl : q = p := by simpa [hhead] using hq
  exact passes_of_no_waiters (by rw [hctr])

theorem rebaseReady_of_no_epochs (hnone : s.sync.epochs = []) : rebaseReady p s = ([], s) := by
  simp only [rebaseReady, hnone, List.foldl_nil]

/-! ### One signal arrives (R222, R224, R229) -/

/-- The state in which the signals under way have been taken. -/
def noFlight (s : State) : State := { s with sync := { s.sync with flight := [] } }

/-- A signal that is not a command's, alone under way, is added, and the counter's waiters are tested. -/
theorem exec_signalArrival {a v : Nat} (hrun : s.power.running = true) (hp : p < 17408) (hflight : s.sync.flight = [⟨a, p, v, none⟩]) :
    exec (.signalArrival p [a]) s =
      .next (let r := rebaseReady p (addSigs p [⟨a, p, v, none⟩] (noFlight s)); settle (p :: r.1) r.2) := by
  have htake : takeSigs p [a] s.sync.flight = ([⟨a, p, v, none⟩], []) := by
    simp [hflight, takeSigs, sigTurn, takeFirst]
  show execSignalArrival p [a] s = _
  unfold execSignalArrival
  rw [run_next (decide_eq_true hp) hrun]
  unfold counterCycle
  rw [htake]
  rfl

/-- With no epoch outstanding and no waiter listed, the counter cycle is the sum alone. -/
theorem exec_signalArrival_of_no_waiters {a v : Nat} (hrun : s.power.running = true) (hp : p < 17408) (hflight : s.sync.flight = [⟨a, p, v, none⟩])
    (hepochs : (addSigs p [⟨a, p, v, none⟩] (noFlight s)).sync.epochs = [])
    (hwaiters : ((addSigs p [⟨a, p, v, none⟩] (noFlight s)).ctr p).waiters = []) :
    exec (.signalArrival p [a]) s = .next (addSigs p [⟨a, p, v, none⟩] (noFlight s)) := by
  rw [exec_signalArrival hrun hp hflight, rebaseReady_of_no_epochs hepochs]
  exact congrArg _ (settle_of_none (by simpa using passes_of_no_waiters hwaiters))

theorem addSigs_of_sum {a v : Nat} (hsat : (s.ctr p).sat = false) (hsum : (s.ctr p).count.toNat + v ≤ 0xFFFFFF) :
    addSigs p [⟨a, p, v, none⟩] s = s.setCtr p { s.ctr p with count := BitVec.ofNat 24 ((s.ctr p).count.toNat + v) } := by
  simp [addSigs, hsat, maxCount, hsum, endSigs]

theorem addSigs_of_saturated {a v : Nat} (hsat : (s.ctr p).sat = true) : addSigs p [⟨a, p, v, none⟩] s = s := by
  simp [addSigs, hsat, endSigs]

/-- A sum beyond the range leaves the greatest count with SAT, and raises a record besides. -/
theorem addSigs_of_overflow {a v : Nat} (hsat : (s.ctr p).sat = false) (hsum : 0xFFFFFF < (s.ctr p).count.toNat + v) (howner : ctrOwner s p ≤ 16) :
    Tells ((s.setCtr p { s.ctr p with count := 0xFFFFFF, sat := true }).orReg .syncErr 0 0 1) (addSigs p [⟨a, p, v, none⟩] s) := by
  have hover : ¬(s.ctr p).count.toNat + v ≤ maxCount := by simp [maxCount]; omega
  simp only [addSigs, hsat, endSigs, List.map_cons, List.map_nil, List.sum_cons, List.sum_nil, Nat.add_zero, hover, List.foldl_cons, List.foldl_nil,
    Bool.false_eq_true, if_false, reduceCtorEq]
  refine tells_raise _ _ _ _ _ _ fun t ht => ?_
  split at ht
  · cases ht
  · cases ht
    exact Nat.lt_of_le_of_lt (Nat.sub_le _ _) (Nat.lt_of_le_of_lt howner (by decide))

/-! ### A waiter joins (R223) -/

theorem exec_waiterJoin {w : Waiter} {t : State} (hrun : s.power.running = true) (hp : p < 17408) (hepochs : s.sync.epochs = [])
    (hwaiters : (s.ctr p).waiters = []) (hjoining : s.sync.joining = [(p, w)]) (hsrc : 272 ≤ w.src)
    (ht : t = { s with sync := { s.sync with joining := [] } }) :
    exec (.waiterJoin p [w.src]) s =
      .next (settle [p] (t.setCtr p { s.ctr p with waiters := [{ w with deadline := deadlineOf s w.tmo }] })) := by
  have htake : takeJoins p [w.src] s.sync.joining = ([w], []) := by
    simp [hjoining, takeJoins, takeFirst]
  have hstart : startTimeout w t = ({ w with deadline := deadlineOf s w.tmo }, t) := by
    subst ht
    exact if_neg (by omega)
  have hsame : t.ctr p = s.ctr p := ht ▸ rfl
  have hnoEpochs : t.sync.epochs = [] := ht ▸ hepochs
  show execWaiterJoin p [w.src] s = _
  unfold execWaiterJoin
  rw [run_next (decide_eq_true hp) hrun, htake]
  dsimp only [List.foldl_cons, List.foldl_nil, insWaiter]
  rw [← ht, hstart]
  dsimp only
  rw [hsame, hwaiters]
  rw [rebaseReady_of_no_epochs (s := t.setCtr p _) hnoEpochs]
  rfl

theorem waiterJoin_of_reached {w : Waiter} (hrun : s.power.running = true) (hp : p < 17408) (hepochs : s.sync.epochs = [])
    (hwaiters : (s.ctr p).waiters = []) (hjoining : s.sync.joining = [(p, w)]) (hsrc : 272 ≤ w.src) (hany : w.any = none)
    (hsat : (s.ctr p).sat = false) (hreached : w.target ≤ (s.ctr p).count.toNat) :
    ∃ u, exec (.waiterJoin p [w.src]) s = .next u ∧ u.ctr p = { s.ctr p with count := (s.ctr p).count - BitVec.ofNat 24 w.target } ∧
      u.sync.notices = s.sync.notices ++ [⟨w.src, 0, p, w.tag⟩] := by
  rw [exec_waiterJoin hrun hp hepochs hwaiters hjoining hsrc rfl]
  let v : Waiter := { w with deadline := deadlineOf s w.tmo }
  let t : State := ({ s with sync := { s.sync with joining := [] } } : State).setCtr p { s.ctr p with waiters := [v] }
  have hctr : t.ctr p = { s.ctr p with waiters := [v] } := ctr_setCtr _ _ _
  have hhead : (t.ctr p).waiters = [v] := by rw [hctr]
  have hpasses : passes t p = some v := passes_of_reached hhead (by rw [hctr]; exact hsat) (by rw [hctr]; exact hreached)
  obtain ⟨hsettle, hleft, hnotices⟩ := settle_of_single hpasses hhead hany
  refine ⟨_, congrArg _ hsettle, ?_, hnotices⟩
  rw [hleft, hctr, ← hwaiters]

theorem waiterJoin_of_below {w : Waiter} {t : State} (hrun : s.power.running = true) (hp : p < 17408) (hepochs : s.sync.epochs = [])
    (hwaiters : (s.ctr p).waiters = []) (hjoining : s.sync.joining = [(p, w)]) (hsrc : 272 ≤ w.src)
    (ht : t = { s with sync := { s.sync with joining := [] } }) (hbelow : (s.ctr p).count.toNat < w.target) :
    exec (.waiterJoin p [w.src]) s = .next (t.setCtr p { s.ctr p with waiters := [{ w with deadline := deadlineOf s w.tmo }] }) := by
  rw [exec_waiterJoin hrun hp hepochs hwaiters hjoining hsrc ht]
  refine congrArg _ (settle_of_none fun q hq => ?_)
  obtain rfl : q = p := by simpa using hq
  exact passes_of_below (w := { w with deadline := deadlineOf s w.tmo }) (by rw [ctr_setCtr]) (by rw [ctr_setCtr]; exact hbelow)

/-! ### Notices and timeouts (R227, R231) -/

theorem exec_passNotice_of_command {i id : Nat} {n : Notice} (hrun : s.power.running = true) (hn : s.sync.notices[i]? = some n) (hsrc : n.src = 0x200)
    (htag : n.tag = some id) :
    exec (.passNotice i) s = .next (finish0 id 0x0000 { s with sync := { s.sync with notices := s.sync.notices.eraseIdx i } }) := by
  show execPassNotice i s = _
  unfold execPassNotice
  rw [run_next rfl hrun, hn]
  dsimp only
  rw [if_neg (by omega), htag]
  dsimp only
  rw [if_pos hsrc]
  rfl

theorem exec_waitTimeout_of_command {i d id : Nat} {w : Waiter} (hrun : s.power.running = true) (hp : p < 17408) (hw : (s.ctr p).waiters[i]? = some w)
    (hdeadline : w.deadline = some d) (hdue : d ≤ s.tb.ticks) (hany : w.any = none) (hsrc : 272 ≤ w.src) (htag : w.tag = some id) :
    exec (.waitTimeout p i) s = .next (finish id 0x0302 w.ident p (s.ctr p).count.toNat 0 (withdraw w.src w.tag
      (raise 1 (if w.tenant = 0xFF then none else some w.tenant) (regAddr .syncErr 0 0 0) 0x0302 (timeoutBody s 2 w (cmdUnit s id) p)
        (s.orReg .syncErr 0 0 2)))) := by
  have hexpired : ¬((!expired s w.deadline) = true ∨ 0 < w.any.getD 0) := by
    simp [hdeadline, expired, hdue, hany]
  show execWaitTimeout p i s = _
  unfold execWaitTimeout
  rw [run_next (decide_eq_true hp) hrun, hw]
  dsimp only
  rw [if_neg hexpired, htag, if_neg (by omega : ¬w.src < 272), if_neg (by omega : ¬w.src < 272), if_neg (by omega : ¬w.src < 256),
    if_neg (by omega : ¬w.src < 272)]
  rfl

theorem exec_waitTimeout_of_early {i : Nat} {w : Waiter} (hrun : s.power.running = true) (hp : p < 17408) (hw : (s.ctr p).waiters[i]? = some w)
    (hearly : expired s w.deadline = false) : exec (.waitTimeout p i) s = .next s := by
  have hwaits : (!expired s w.deadline) = true ∨ 0 < w.any.getD 0 := .inl (by simp [hearly])
  show execWaitTimeout p i s = _
  unfold execWaitTimeout
  rw [run_next (decide_eq_true hp) hrun, hw]
  dsimp only
  rw [if_pos hwaits]

end

/-- Settles O28: a counter cycle is its sum, then the test of the waiters that it lists. -/
theorem counter_Cycles : Obligations.Counter_Cycles := by
  unfold Obligations.Counter_Cycles
  intro s p hrun hp
  refine ⟨fun a v t hepochs hwaiters hflight ht => ?_, fun w t hepochs hwaiters hjoining hsrc hany ht => ⟨fun hsat hreached => ?_, fun hbelow => ?_⟩,
    fun i n id hn hsrc htag => exec_passNotice_of_command hrun hn hsrc htag,
    fun i w d id hw hdeadline hdue hany hsrc htag => exec_waitTimeout_of_command hrun hp hw hdeadline hdue hany hsrc htag,
    fun i w hw hearly => exec_waitTimeout_of_early hrun hp hw hearly⟩
  · subst ht
    refine ⟨fun hsat hsum => ?_, fun hsat hsum howner => ?_, fun hsat => ?_⟩
    · have hsums : addSigs p [⟨a, p, v, none⟩] (noFlight s) = _ := addSigs_of_sum (s := noFlight s) hsat hsum
      rw [exec_signalArrival_of_no_waiters hrun hp hflight (by rw [hsums]; exact hepochs) (by rw [hsums, ctr_setCtr]; exact hwaiters), hsums]
      rfl
    · have htells := addSigs_of_overflow (s := noFlight s) (a := a) hsat hsum howner
      have hctr : (addSigs p [⟨a, p, v, none⟩] (noFlight s)).ctr p = { count := 0xFFFFFF, sat := true } := by
        have hsame : (addSigs p [⟨a, p, v, none⟩] (noFlight s)).ctr p = _ := congrArg (fun y : Sync => tget ({} : Counter) y.counters p) htells.sync
        rw [hsame]
        refine (ctr_setCtr (noFlight s) p _).trans ?_
        exact congrArg (Counter.mk 0xFFFFFF true) hwaiters
      refine ⟨_, exec_signalArrival_of_no_waiters hrun hp hflight (by rw [htells.sync]; exact hepochs) (by rw [hctr]), hctr, ?_⟩
      rw [htells.reg (by decide), bit_orReg (by decide)]
      simp [show bit 1 0 = true from rfl]
    · have hsame : addSigs p [⟨a, p, v, none⟩] (noFlight s) = noFlight s := addSigs_of_saturated hsat
      rw [exec_signalArrival_of_no_waiters hrun hp hflight (by rw [hsame]; exact hepochs) (by rw [hsame]; exact hwaiters), hsame]
      rfl
  · exact waiterJoin_of_reached hrun hp hepochs hwaiters hjoining hsrc hany hsat hreached
  · exact waiterJoin_of_below hrun hp hepochs hwaiters hjoining hsrc ht hbelow
end Sys2Proof.Machine
end

section
/-! PROOFS. The SYNC commands (R213, R228, R230, R233). -/
namespace Sys2Proof.Machine

open Sys2Proof

section
variable {s : State} {id p : Nat} {c : Cmd}

/-! ### Commands of one counter (R228) -/

theorem cmdCounter_of_phys {o : Op} {remote : Bool} {f : Xl → State → State}
    (hphys : translateFor s (c.fn + 1) (fnBind s c.fn) (c.p 0) = .phys p) : cmdCounter c o remote f s = f (.phys p) s := by
  simp only [cmdCounter, hphys]

theorem cmdCounter_of_none {o : Op} {remote : Bool} {f : Xl → State → State}
    (hnone : translateFor s (c.fn + 1) (fnBind s c.fn) (c.p 0) = .none) : cmdCounter c o remote f s = failAt c stDenied o 0 s := by
  simp only [cmdCounter, hnone]

theorem exec_syncSignal (h : Ready s .syncSignal id c) (hphys : translateFor s (c.fn + 1) (fnBind s c.fn) (c.p 0) = .phys p) :
    exec (.syncSignal id) s = .next (working id { s with sync := { s.sync with flight := s.sync.flight ++ [⟨0x200, p, c.p 1, some id⟩] } }) :=
  (h.exec _).trans (congrArg _ (cmdCounter_of_phys hphys))

/-- The waiter of a SYNC WAIT. -/
def cmdWaiter (s : State) (id : Nat) (c : Cmd) : Waiter :=
  ⟨0x200, c.p 1, none, c.p 0, if bit (c.p 0) 23 then (fnBind s c.fn).getD 0xFFFF else 0xFFFF, tmoOf s c.fn (fnBind s c.fn) (c.p 0) (c.p 2),
    c.fn, none, some id⟩

theorem exec_syncWait (h : Ready s .syncWait id c) (hphys : translateFor s (c.fn + 1) (fnBind s c.fn) (c.p 0) = .phys p) :
    exec (.syncWait id) s =
      .next (if 1024 ≤ waitsOut s then finish0 id stNoResource s else working id (sendWait p (cmdWaiter s id c) s)) :=
  (h.exec _).trans (congrArg _ (cmdCounter_of_phys hphys))

theorem exec_syncRead (h : Ready s .syncRead id c) (hphys : translateFor s (c.fn + 1) (fnBind s c.fn) (c.p 0) = .phys p) :
    exec (.syncRead id) s = .next (finish id stOk (s.ctr p).count.toNat 0 0 0 s) :=
  (h.exec _).trans (congrArg _ (cmdCounter_of_phys hphys))

theorem exec_syncRead_of_none (h : Ready s .syncRead id c) (hnone : translateFor s (c.fn + 1) (fnBind s c.fn) (c.p 0) = .none) :
    exec (.syncRead id) s = .next (finish id 0x0501 16 0 0 0 s) := by
  refine (h.exec _).trans (congrArg _ ((cmdCounter_of_none hnone).trans ?_))
  unfold failAt
  rw [h.id_eq]
  rfl

/-- The state in which a SYNC SET has replaced the count. -/
def syncSet (id p v : Nat) (s : State) : State := finish0 id stOk (s.setCtr p { s.ctr p with count := BitVec.ofNat 24 v, sat := false })

theorem exec_syncSet (h : Ready s .syncSet id c) (hphys : translateFor s (c.fn + 1) (fnBind s c.fn) (c.p 0) = .phys p) :
    exec (.syncSet id) s = .next
      (if hasWaiter s p then conflict id 0x08 p 1 0 s
       else settle (p :: (rebaseReady p (syncSet id p (c.p 1) s)).1) (rebaseReady p (syncSet id p (c.p 1) s)).2) :=
  (h.exec _).trans (congrArg _ (cmdCounter_of_phys hphys))

theorem waiters_of_not_hasWaiter (hnone : hasWaiter s p = false) : (s.ctr p).waiters = [] := by
  simp only [hasWaiter, Bool.or_eq_false_iff] at hnone
  simpa using hnone.1

theorem exec_syncSet_of_no_waiter (h : Ready s .syncSet id c) (hphys : translateFor s (c.fn + 1) (fnBind s c.fn) (c.p 0) = .phys p)
    (hnone : hasWaiter s p = false) (hepochs : s.sync.epochs = []) : exec (.syncSet id) s = .next (syncSet id p (c.p 1) s) := by
  have hctr : (syncSet id p (c.p 1) s).ctr p = { s.ctr p with count := BitVec.ofNat 24 (c.p 1), sat := false } := ctr_setCtr s p _
  have hstuck : passes (syncSet id p (c.p 1) s) p = none :=
    passes_of_no_waiters (by rw [hctr]; exact waiters_of_not_hasWaiter hnone)
  have hnoEpochs : (syncSet id p (c.p 1) s).sync.epochs = [] := hepochs
  rw [exec_syncSet h hphys, if_neg (by simp [hnone]), rebaseReady_of_no_epochs hnoEpochs]
  exact congrArg _ (settle_of_none (by simpa using hstuck))

/-! ### Epochs (R230, R233) -/

theorem exec_syncEpoch {t : State} {b : Bytes} {es : List (Nat × Nat)} (h : Ready s .syncEpoch id c)
    (hread : readMem s (c.p 0) (16 + 8 * leNat (memBytes s (c.p 0 + 4) 2)) = (t, .ok b)) (hentries : epochEntries t c.fn b = .ok es)
    (hsat : (es.filter fun e => (t.ctr e.1).sat) = []) :
    exec (.syncEpoch id) s = .next (working id { t with sync := { t.sync with
      epochs := t.sync.epochs ++ [⟨id, c.fn, fld b 0 4, es, deadlineOf t (epochTmo t c.fn (fld b 8 4)), 0⟩] } }) := by
  show execSyncEpoch id s = _
  unfold execSyncEpoch
  rw [h.exec, hread]
  dsimp only
  rw [hentries]
  dsimp only
  rw [hsat]
  rfl

theorem exec_epochRebase {e : Epoch} (hrun : s.power.running = true) (hfind : (s.sync.epochs.find? fun e => e.id == id) = some e) :
    exec (.epochRebase id) s = .next (if epochMet s e then settle (e.entries.map (·.1)) (rebase e s) else s) := by
  show execEpochRebase id s = _
  unfold execEpochRebase
  rw [run_next rfl hrun, hfind]

/-- The re-basing of an epoch over one counter. -/
theorem rebase_of_single {e : Epoch} {q b : Nat} (hentries : e.entries = [(q, b)]) :
    (rebase e s).ctr q = { s.ctr q with count := (s.ctr q).count - BitVec.ofNat 24 b } ∧
      (rebase e s).reg .syncEpoch 0 e.tenant = e.number % 2 ^ 32 ∧
      ∀ d, findCmd s e.id = some d → Ended (rebase e s) e.id 0x0000 (e.number % 2 ^ 32) 0 (e.w2 % 2 ^ 32) 0 := by
  refine ⟨?_, ?_, fun d hd => ?_⟩
  · unfold rebase
    rw [hentries]
    exact ctr_setCtr s q _
  · exact reg_setReg _ _ _ _ _
  · refine ⟨_, (findCmd_finish _ _ _ _ _ _ _).trans (congrArg _ (?_ : _ = some d)), rfl, rfl, rfl, rfl, rfl, rfl⟩
    rw [hentries]
    exact hd

theorem exec_epochRebase_of_single {e : Epoch} {q b : Nat} (hrun : s.power.running = true)
    (hfind : (s.sync.epochs.find? fun e => e.id == id) = some e) (hentries : e.entries = [(q, b)]) (hwaiters : (s.ctr q).waiters = [])
    (hmet : epochMet s e = true) : exec (.epochRebase id) s = .next (rebase e s) := by
  rw [exec_epochRebase hrun hfind, if_pos hmet, hentries]
  have hstuck : passes (rebase e s) q = none := passes_of_no_waiters (by rw [(rebase_of_single hentries).1]; exact hwaiters)
  exact congrArg _ (settle_of_none (by simpa using hstuck))

theorem exec_epochTimeout_of_single {e : Epoch} {q b : Nat} (hrun : s.power.running = true)
    (hfind : (s.sync.epochs.find? fun e => e.id == id) = some e) (hentries : e.entries = [(q, b)]) (hmet : epochMet s e = false)
    (hexpired : expired s e.deadline = true) (hbelow : (s.ctr q).count.toNat < b) :
    exec (.epochTimeout id) s = .next (finish id 0x0302 0 (s.ctr q).count.toNat e.w2 0
      { s with sync := { s.sync with epochs := s.sync.epochs.filter fun x => x.id != id } }) := by
  have hlate : ¬(!expired s e.deadline || epochMet s e) = true := by simp [hexpired, hmet]
  show execEpochTimeout id s = _
  unfold execEpochTimeout
  rw [run_next rfl hrun, hfind]
  dsimp only
  rw [if_neg hlate, hentries]
  simp only [List.zipIdx_cons, List.zipIdx_nil, List.find?_cons, hbelow, decide_true, Bool.true_or, Option.map_some, Option.getD_some]
  rfl

end

/-- Settles O29: the identifier translates before any SYNC command acts; an epoch over one counter re-bases it alone. -/
theorem sync_Commands : Obligations.Sync_Commands := by
  unfold Obligations.Sync_Commands
  intro s id c p
  refine ⟨fun hphys => ⟨fun h => exec_syncSignal h hphys, fun w h hroom hw => ?_, fun h hfull => ?_, fun h => exec_syncRead h hphys,
      fun h hnone hepochs => exec_syncSet_of_no_waiter h hphys hnone hepochs, fun h hwaits => ?_⟩,
    fun hnone h => exec_syncRead_of_none h hnone, fun t b es h hread hentries hsat => exec_syncEpoch h hread hentries hsat,
    fun e q b hrun hfind hentries hwaiters => ⟨fun hmet _ => ?_, fun hmet => ?_,
      fun hmet hexpired hbelow => exec_epochTimeout_of_single hrun hfind hentries hmet hexpired hbelow⟩⟩
  · rw [exec_syncWait h hphys, if_neg (by omega), hw]
    rfl
  · rw [exec_syncWait h hphys, if_pos hfull]
    rfl
  · rw [exec_syncSet h hphys, if_pos hwaits]
    rfl
  · obtain ⟨hctr, hreg, hended⟩ := rebase_of_single (s := s) hentries
    exact ⟨_, exec_epochRebase_of_single hrun hfind hentries hwaiters hmet, by rw [hctr], hreg, hended⟩
  · rw [exec_epochRebase hrun hfind, if_neg (by simp [hmet])]

end Sys2Proof.Machine
end

section
/-! PROOFS. VMAP and the context bindings of cores and functions (R235 to R237). -/
namespace Sys2Proof.Machine

open Sys2Proof

section
variable {s : State} {id k t : Nat} {c : Cmd}

/-! ### VMAP (R236) -/

theorem exec_vmap_of_free (h : Ready s .vmap id c) (hnone : c.p 1 = 0) :
    exec (.vmap id) s = .next (finish0 id stOk ((s.setReg .syncCtx 0 (c.p 0) 0).setReg .syncCtxLen 0 (c.p 0) 0)) :=
  (h.exec _).trans (congrArg _ (if_pos hnone))

theorem exec_vmap_of_no_run (h : Ready s .vmap id c) (hsome : c.p 1 ≠ 0) (hrun : findRun s (c.p 1) = none) :
    exec (.vmap id) s = .next (finish0 id stNoResource s) := by
  show execVmap id s = _
  unfold execVmap
  rw [h.exec]
  dsimp only
  rw [if_neg hsome, hrun]

/-- Translation memory with a run of entries written from bytes. -/
def xmemWith (b n : Nat) (d : Bytes) (s : State) : State :=
  { s with sync := { s.sync with
    xmem := (List.range n).foldl (fun t i => tput 0 t (b + i) (fld d (8 * i) 8)) s.sync.xmem
    xbad := s.sync.xbad.filter fun e => !(decide (b ≤ e) && decide (e < b + n)) } }

theorem exec_vmap_of_run {b : Nat} {u : State} {d : Bytes} (h : Ready s .vmap id c) (hsome : c.p 1 ≠ 0) (hrun : findRun s (c.p 1) = some b)
    (hread : readMem s (c.p 2) (8 * c.p 1) = (u, .ok d)) :
    exec (.vmap id) s = .next (finish0 id stOk (((xmemWith b (c.p 1) d u).setReg .syncCtx 0 (c.p 0) (c.fn + 16 + b * 65536)).setReg
      .syncCtxLen 0 (c.p 0) (c.p 1))) := by
  show execVmap id s = _
  unfold execVmap
  rw [h.exec]
  dsimp only
  rw [if_neg hsome, hrun]
  dsimp only
  rw [hread]
  rfl

/-! ### The binding registers (R235, R237) -/

theorem ctxForeign_of_mod (val : Word) : ctxForeign s (val.toNat % 512 % 256) t = ctxForeign s (val.toNat % 256) t := by
  rw [Nat.mod_mod_of_dvd _ (by decide : 256 ∣ 512)]

theorem exec_coreCtxWrite (val : Word) (hrun : s.power.running = true) (ht : t < 16) (hk : k < 272) (howner : coreOwner s k = t + 1) :
    exec (.coreCtxWrite t k val) s = .next
      (if (ctxForeign s (val.toNat % 256) t || !imemOpen s k) = true then s.orReg .syncErr 0 0 0x20
       else s.setReg .syncCoreCtx 0 k (val.toNat % 512)) := by
  have hinstances : (decide (t < 19) && decide (k < 272)) = true := by simp [hk]; omega
  refine (run_next hinstances hrun).trans (congrArg _ ((instWrite_of_owner _ s ht howner).trans ?_))
  dsimp only
  rw [howner, Nat.add_sub_cancel, ctxForeign_of_mod]
  simp

theorem exec_fnCtxWrite (val : Word) (hrun : s.power.running = true) (ht : t < 16) :
    exec (.fnCtxWrite t t val) s = .next
      (if ctxForeign s (val.toNat % 256) t = true then s.orReg .syncErr 0 0 0x20 else s.setReg .syncFnCtx 0 t (val.toNat % 512)) := by
  have hinstances : (decide (t < 19) && decide (t < 18)) = true := by simp; omega
  refine (run_onlyIf_of_true hinstances hrun (by simp)).trans (congrArg _ ?_)
  dsimp only
  rw [ctxForeign_of_mod]
  simp [ht]

end

/-- Settles O30: VMAP by the number of entries and the run found; a binding by the context's tenant and the core's state. -/
theorem sync_Contexts : Obligations.Sync_Contexts := by
  unfold Obligations.Sync_Contexts
  intro s id c k t val
  refine ⟨exec_vmap_of_free, fun b u d h hsome hrun hread => ?_, exec_vmap_of_no_run, fun hrun ht hk howner => ?_, fun hrun ht => ?_⟩
  · exact ⟨xmemWith b (c.p 1) d u, exec_vmap_of_run h hsome hrun hread, rfl,
      fun e => tget_fill b 0 (fun i => fld d (8 * i) 8) (c.p 1) u.sync.xmem e⟩
  · rw [exec_coreCtxWrite val hrun ht hk howner]
    refine ⟨fun hopen hours => ?_, fun hrefused => ?_⟩
    · rw [if_neg (by simp [hopen, hours])]
    · rw [if_pos (by simpa [or_comm] using hrefused)]
  · rw [exec_fnCtxWrite val hrun ht]
    exact ⟨fun hours => by rw [if_neg (by simp [hours])], fun hforeign => by rw [if_pos hforeign]⟩

end Sys2Proof.Machine
end

section
/-! PROOFS. Memory holds what was written (R298, R308). -/
namespace Sys2Proof.Machine

open Sys2Proof

section
variable {s : State} {a n cw : Nat}

/-- No lane has failed. -/
def NoDeadLane (s : State) : Prop := ∀ h, (s.memc h).dead = []

theorem damage_of_undamaged (hlanes : NoDeadLane s) (hbad : tget 0 s.bad cw = 0) : damage s cw = 0 := by
  have hlane : laneDamage s cw = 0 := by
    unfold laneDamage
    split
    · simp [hlanes _]
    · rfl
  rw [damage, hbad, hlane]

/-! ### Reads (R308) -/

theorem cwReads_of_no_damage : ∀ {l : List Nat}, (∀ cw ∈ l, damage s cw = 0) → cwReads s l = (s, none)
  | [], _ => rfl
  | cw :: l, h => by
    have hhead : cwRead s cw = (s, true) := cwReadAs_of_no_damage 2 (h cw (List.mem_cons_self ..))
    simp only [cwReads, hhead]
    exact cwReads_of_no_damage fun x hx => h x (List.mem_cons_of_mem _ hx)

theorem readBeside_of_no_damage {l : List Nat} (h : ∀ cw ∈ l, damage s cw = 0) : readBeside l s = s := by
  refine foldl_eq_start_of_mem fun cw hcw => ?_
  have hread : cwRead s cw = (s, true) := cwReadAs_of_no_damage 2 (h cw hcw)
  rw [hread]

/-- The codewords of a range, and those beside its ends in their lines, lie in the lines of the range. -/
theorem le_of_mem_cwsOf (h : cw ∈ cwsOf a n) : a / 64 * 2 ≤ cw := by
  unfold cwsOf at h
  split at h
  · cases h
  · obtain ⟨i, -, rfl⟩ := List.mem_map.mp h
    omega

/-- The codeword before an odd first one, and the one after an even last one, are in the same lines. -/
theorem le_of_mem_mates
    (h : cw ∈ (if a / 32 % 2 = 1 then [a / 32 - 1] else []) ∨ cw ∈ (if (a + n - 1) / 32 % 2 = 0 then [(a + n - 1) / 32 + 1] else [])) :
    a / 64 * 2 ≤ cw := by
  rcases h with h | h
  · split at h
    · obtain rfl := List.mem_singleton.mp h
      omega
    · cases h
  · split at h
    · obtain rfl := List.mem_singleton.mp h
      omega
    · cases h

theorem le_of_mem_lineMates (h : cw ∈ (lineMates s a n).1 ∨ cw ∈ (lineMates s a n).2) : a / 64 * 2 ≤ cw := by
  by_cases hn : n = 0
  · unfold lineMates at h
    split at h <;> simp [hn] at h
  · unfold lineMates at h
    split at h
    · rw [if_neg hn] at h
      exact le_of_mem_mates h
    · rw [if_neg hn] at h
      exact le_of_mem_mates h
    · simp at h

theorem memBytes_of_undamaged (hbad : ∀ cw, a / 64 * 2 ≤ cw → tget 0 s.bad cw = 0) :
    memBytes s a n = (List.range n).map fun i => tget 0 s.mem (a + i) := by
  refine List.map_congr_left fun i _ => if_neg ?_
  simp [hbad ((a + i) / 32) (by omega)]

theorem readMem_of_undamaged (hlanes : NoDeadLane s) (hbad : ∀ cw, a / 64 * 2 ≤ cw → tget 0 s.bad cw = 0) :
    readMem s a n = (s, .ok ((List.range n).map fun i => tget 0 s.mem (a + i))) := by
  have hclean : ∀ cw, a / 64 * 2 ≤ cw → damage s cw = 0 := fun cw hcw => damage_of_undamaged hlanes (hbad cw hcw)
  unfold readMem
  dsimp only
  rw [readBeside_of_no_damage fun cw hcw => hclean cw (le_of_mem_lineMates (.inl hcw)),
    cwReads_of_no_damage fun cw hcw => hclean cw (le_of_mem_cwsOf hcw)]
  dsimp only
  rw [readBeside_of_no_damage fun cw hcw => hclean cw (le_of_mem_lineMates (.inr hcw)), memBytes_of_undamaged hbad]

/-! ### Writes (R298, R308) -/

/-- An injection into a codeword that is written counts in its register alone. -/
theorem injected_rest (s : State) (a : Nat) : (injected s a).2 = { s with regs := (injected s a).2.regs } := by
  unfold injected
  split
  · dsimp only
    split <;> rfl
  · dsimp only
    split <;> rfl
  · rfl

/-- A write within an undamaged codeword writes its bytes and damages that codeword alone, and only by an injection. -/
theorem cwWrite_of_no_damage (bs : Bytes) (h : damage s (a / 32) = 0) :
    ∃ t, cwWrite s a bs = (t, none) ∧ t.mem = memWrite s.mem a bs ∧ t.memctl = s.memctl ∧
      ∀ cw, cw ≠ a / 32 → tget 0 t.bad cw = tget 0 s.bad cw := by
  rcases hinjected : injected s a with ⟨k, u⟩
  have hrest : u = { s with regs := u.regs } := by
    have := injected_rest s a
    rwa [hinjected] at this
  by_cases hwhole : bs.length = 32
  · refine ⟨{ u with mem := memWrite u.mem a bs, bad := tput 0 u.bad (a / 32) k, again := tdel u.again (a / 32) }, ?_, ?_, ?_, fun cw hcw => ?_⟩
    · unfold cwWrite
      dsimp only
      rw [if_pos hwhole, hinjected]
    · rw [hrest]
    · rw [hrest]
    · refine (tget_tput_other _ _ _ hcw).trans ?_
      rw [hrest]
  · exact ⟨_, (if_neg hwhole).trans (if_pos h), rfl, rfl, fun _ _ => rfl⟩

/-- What a table of bytes reads after `bs` was put at `a`. -/
def byteAfter (m : Tbl Byte) (a : Nat) (bs : Bytes) (k : Nat) : Byte := if a ≤ k ∧ k < a + bs.length then bs.getD (k - a) 0 else tget 0 m k

theorem tget_memWrite_eq_byteAfter (m : Tbl Byte) (bs : Bytes) (k : Nat) : tget 0 (memWrite m a bs) k = byteAfter m a bs k := by
  rw [tget_memWrite, byteAfter]
  split
  next h => rw [List.getD_eq_getElem?_getD, List.getElem?_eq_getElem, Option.getD_some]
  next h => rfl

theorem byteAfter_nil (m : Tbl Byte) (a k : Nat) : byteAfter m a [] k = tget 0 m k := if_neg (by simp)

/-- Bytes put in two pieces. -/
theorem byteAfter_split (m : Tbl Byte) (bs : Bytes) (i k : Nat) :
    byteAfter (memWrite m a (bs.take i)) (a + i) (bs.drop i) k = byteAfter m a bs k := by
  by_cases hi : i ≤ bs.length
  case neg => rw [List.drop_of_length_le (by omega), List.take_of_length_le (by omega), byteAfter_nil, tget_memWrite_eq_byteAfter]
  rw [byteAfter, tget_memWrite_eq_byteAfter, byteAfter, byteAfter, List.length_drop, List.length_take, Nat.min_eq_left hi]
  by_cases hlater : a + i ≤ k
  · rw [if_neg (by omega : ¬(a ≤ k ∧ k < a + i))]
    refine ite_congr (propext (by omega)) (fun _ => ?_) fun _ => rfl
    rw [List.getD_eq_getElem?_getD, List.getElem?_drop, List.getD_eq_getElem?_getD]
    congr 3
    omega
  · rw [if_neg (by omega : ¬(a + i ≤ k ∧ k < a + i + (bs.length - i)))]
    by_cases hfirst : a ≤ k
    · rw [if_pos (by omega : a ≤ k ∧ k < a + i), if_pos (by omega : a ≤ k ∧ k < a + bs.length), List.getD_eq_getElem?_getD,
        List.getElem?_take_of_lt (by omega), List.getD_eq_getElem?_getD]
    · rw [if_neg (by omega : ¬(a ≤ k ∧ k < a + i)), if_neg (by omega : ¬(a ≤ k ∧ k < a + bs.length))]

/-- A store over undamaged codewords, cut into its codewords, stores every byte. -/
theorem cwWrites_of_undamaged : ∀ (f a : Nat) (bs : Bytes) (s : State), bs.length < f → NoDeadLane s →
    (∀ cw, a / 32 ≤ cw → tget 0 s.bad cw = 0) →
    (cwWrites s (cwSplit f a bs)).2 = none ∧ ∀ k, tget 0 (cwWrites s (cwSplit f a bs)).1.mem k = byteAfter s.mem a bs k
  | 0, _, _, _, h, _, _ => absurd h (Nat.not_lt_zero _)
  | f + 1, a, [], s, _, _, _ => ⟨rfl, fun k => (byteAfter_nil ..).symm⟩
  | f + 1, a, b :: bs, s, hlen, hlanes, hbad => by
    obtain ⟨t, hwrite, hmem, hctl, hkeep⟩ :=
      cwWrite_of_no_damage ((b :: bs).take (32 - a % 32)) (damage_of_undamaged hlanes (hbad (a / 32) (Nat.le_refl _)))
    have hrest := cwWrites_of_undamaged f (a + (32 - a % 32)) ((b :: bs).drop (32 - a % 32)) t
      (by simp only [List.length_drop, List.length_cons] at hlen ⊢; omega)
      (fun h => by unfold State.memc; rw [hctl]; exact hlanes h)
      (fun cw hcw => by rw [hkeep cw (by omega)]; exact hbad cw (by omega))
    have hsplit : cwWrites s (cwSplit (f + 1) a (b :: bs)) =
        cwWrites t (cwSplit f (a + (32 - a % 32)) ((b :: bs).drop (32 - a % 32))) := by
      simp only [cwSplit, List.isEmpty_cons, Bool.false_eq_true, if_false, cwWrites, hwrite]
    rw [hsplit]
    refine ⟨hrest.1, fun k => (hrest.2 k).trans ?_⟩
    rw [hmem, byteAfter_split]

end

/-- Settles O31: a store is cut into codewords that read clean, and a read meets no other codeword than those of its lines. -/
theorem memory_ReadBack : Obligations.Memory_ReadBack := by
  unfold Obligations.Memory_ReadBack
  exact ⟨fun s a bs hlanes hbad => cwWrites_of_undamaged (bs.length + 1) a bs s (Nat.lt_succ_self _) hlanes hbad,
    fun s a n hlanes hbad => readMem_of_undamaged hlanes hbad⟩
end Sys2Proof.Machine
end

section
/-! PROOFS. Modes and owners change over zeroed memory (R297, R311). -/
namespace Sys2Proof.Machine

open Sys2Proof

section
variable {s : State} {g b m o : Nat}

/-! ### Writes of SEG_MODE (R297) -/

theorem exec_segModeWrite_of_refused {who : Nat} (val : Word) (hrun : s.power.running = true) (hwho : who < 19) (hg : g < 64)
    (hrefused : who ≠ 18 ∨ segInS s g = false) : exec (.segModeWrite who g val) s = .next (s.orReg .hbmGerr 0 0 1) := by
  have hinstances : (decide (who < 19) && decide (g < 64)) = true := by simp [hwho, hg]
  show execSegModeWrite who g val s = _
  unfold execSegModeWrite
  rw [run_next hinstances hrun]
  exact congrArg _ (if_pos hrefused)

theorem exec_segModeWrite_of_new (val : Word) (hrun : s.power.running = true) (hg : g < 64) (hworld : segInS s g = true) (hlegal : val.toNat % 4 ≠ 3)
    (hidle : tget 0 s.own.segFill g = 0) (hnew : val.toNat % 4 ≠ s.reg .segMode 0 g % 4) :
    exec (.segModeWrite 18 g val) s = .next { s with own := { s.own with segFill := tput 0 s.own.segFill g (val.toNat % 4 + 1) } } := by
  show execSegModeWrite 18 g val s = _
  unfold execSegModeWrite
  rw [run_next (by simp [hg]) hrun]
  dsimp only
  rw [if_neg (by simp [hworld]), if_neg hlegal, hidle]
  dsimp only
  rw [if_neg hnew]

/-! ### Fills that end (R297, R311) -/

/-- A segment that has been zeroed under its new mode. -/
def segFilled (g m : Nat) (s : State) : State :=
  let t := zeroMem s (g * 2 ^ 33) (2 ^ 33)
  { t.setReg .segMode 0 g m with own := { t.own with segFill := tput 0 t.own.segFill g 0 } }

theorem exec_segmentFillDone (hrun : s.power.running = true) (hg : g < 64) (hfill : tget 0 s.own.segFill g = m + 1) :
    exec (.segmentFillDone g) s = .next (segFilled g m s) := by
  show execSegmentFillDone g s = _
  unfold execSegmentFillDone
  rw [run_next (decide_eq_true hg) hrun, hfill]
  rfl

theorem reg_segFilled : (segFilled g m s).reg .segMode 0 g = m % 2 ^ 32 :=
  reg_setReg (zeroMem s (g * 2 ^ 33) (2 ^ 33)) .segMode 0 g m

theorem segFill_segFilled : tget 0 (segFilled g m s).own.segFill g = 0 := by
  show tget 0 (tput 0 s.own.segFill g 0) g = 0
  rw [tget_tput_same]

theorem tget_mem_segFilled (a : Nat) :
    tget 0 (segFilled g m s).mem a = if g * 2 ^ 33 ≤ a ∧ a < g * 2 ^ 33 + 2 ^ 33 then 0 else tget 0 s.mem a :=
  tget_memZero _ _ _ a

/-- A block that has been zeroed for its new owner. -/
def blockFilled (b o : Nat) (s : State) : State :=
  let t := zeroMem s (b * 2 ^ 21) (2 ^ 21)
  { t with own := { t.own with fills := tput 0 t.own.fills b 0, blocks := tput 0 t.own.blocks b o } }

theorem exec_blockZeroFillDone (hrun : s.power.running = true) (hfill : tget 0 s.own.fills b = o + 1) :
    exec (.blockZeroFillDone b) s = .next (blockFilled b o s) := by
  show execBlockZeroFillDone b s = _
  unfold execBlockZeroFillDone
  rw [run_next rfl hrun, hfill]
  rfl

theorem own_blockFilled : tget 0 (blockFilled b o s).own.blocks b = o ∧ tget 0 (blockFilled b o s).own.fills b = 0 := by
  show tget 0 (tput 0 s.own.blocks b o) b = o ∧ tget 0 (tput 0 s.own.fills b 0) b = 0
  rw [tget_tput_same, tget_tput_same]
  exact ⟨rfl, rfl⟩

theorem tget_mem_blockFilled (a : Nat) :
    tget 0 (blockFilled b o s).mem a = if b * 2 ^ 21 ≤ a ∧ a < b * 2 ^ 21 + 2 ^ 21 then 0 else tget 0 s.mem a :=
  tget_memZero _ _ _ a

end

/-- Settles O33: a fill that ends zeroes its range of memory and nothing else. -/
theorem memory_Fills : Obligations.Memory_Fills := by
  unfold Obligations.Memory_Fills
  intro s g hrun hg
  refine ⟨fun val hworld hlegal hidle hnew => exec_segModeWrite_of_new val hrun hg hworld hlegal hidle hnew,
    fun who val hwho hrefused => exec_segModeWrite_of_refused val hrun hwho hg hrefused, fun m hfill => ?_, fun b o hfill => ?_⟩
  · exact ⟨segFilled g m s, exec_segmentFillDone hrun hg hfill, reg_segFilled, segFill_segFilled, tget_mem_segFilled⟩
  · exact ⟨blockFilled b o s, exec_blockZeroFillDone hrun hfill, own_blockFilled.1, own_blockFilled.2, tget_mem_blockFilled⟩

end Sys2Proof.Machine
end

section
/-! PROOFS. Regions and entropy (R312 to R314, R395, R448). -/
namespace Sys2Proof.Machine

open Sys2Proof

section
variable {s : State} {id e : Nat} {c : Cmd}

/-! ### Creation (R312, R448) -/

theorem lt_of_freeEntry (h : freeEntry s = some e) : e < 8192 := by
  unfold freeEntry at h
  have hmem := List.mem_of_find?_eq_some h
  rwa [List.mem_range] at hmem

/-- The key of an entry: its index below the random bits. -/
def regionKey (s : State) (e : Nat) : Nat := e + Config.random s.fresh % 2 ^ 19 * 2 ^ 13

theorem regionKey_mod (he : e < 8192) : regionKey s e % 8192 = e := by
  unfold regionKey
  omega

theorem regionKey_lt (he : e < 8192) : regionKey s e < 2 ^ 32 := by
  unfold regionKey
  omega

/-- A region of a legal range that the tenant owns and no other region touches waits for the entropy source or enters the lowest ABSENT entry. -/
theorem createRegion_of_legal (hlegal : regionBad s (c.p 0) (c.p 1) (c.p 2) (c.p 3) = none) (howned : rangeOwned s c.fn (c.p 0) (c.p 1) = true)
    (hue : ownerUe s (c.p 0) (c.p 1) = false) (htouch : regionTouch s (c.p 0) (c.p 1) = none) (hfree : freeEntry s = some e) :
    createRegion c s =
      if s.sec.rngFail then working c.id { s with sec := { s.sec with rngWait := s.sec.rngWait ++ [(c.id, s.tb.ticks + 10 * msTicks)] } }
      else enterRegion c e s := by
  unfold createRegion
  rw [hlegal]
  dsimp only
  rw [if_neg (by simp [hue]), if_neg (by simp [howned]), htouch]
  dsimp only
  rw [hfree]

theorem enterRegion_eq : enterRegion c e s = finish c.id 0x0000 (regionKey s e) (s.region e).gen 0 0
    (State.setRegion { s with fresh := s.fresh + 1, own := { s.own with tableBad := tdel s.own.tableBad e } } e
      { base := c.p 0, bytes := c.p 1, key := regionKey s e, gen := (s.region e).gen, rights := c.p 2, ilv := c.p 3, st := 1, tenant := c.fn,
        world := true }) := rfl

theorem exec_regionCreate (h : Ready s .regionCreate id c) : exec (.regionCreate id) s = .next (createRegion c s) := h.exec _

/-! ### Revocation and the end of a drain (R313, R314) -/

theorem exec_regionRevoke_of_active (h : Ready s .regionRevoke id c) (he : e = c.p 0 % 8192) (hst : (s.region e).st = 1)
    (hkey : (s.region e).key = c.p 0) (htenant : (s.region e).tenant = c.fn) :
    exec (.regionRevoke id) s = .next (working id (s.setRegion e { s.region e with st := 2, cmd := some id })) := by
  subst he
  exact (h.exec _).trans (congrArg _ (if_neg (by simp [keyEntry, hst, hkey, htenant])))

theorem exec_regionRevoke_of_other_key (h : Ready s .regionRevoke id c) (he : e = c.p 0 % 8192) (hkey : (s.region e).key ≠ c.p 0) :
    exec (.regionRevoke id) s = .next (finish id 0x0201 (0x07 + e * 256) 0 0 0 s) := by
  subst he
  refine (h.exec _).trans (congrArg _ ((if_pos (.inr (.inl hkey))).trans ?_))
  rw [if_neg (by simp [keyEntry, hkey])]
  rfl

/-- The state in which an entry has become ABSENT, its generation one on. -/
def regionAbsent (e : Nat) (s : State) : State :=
  State.setRegion { s with own := { s.own with tableBad := tdel s.own.tableBad e } } e { gen := ((s.region e).gen + 1) % 256 }

theorem exec_regionDrainEnd (hrun : s.power.running = true) (he : e < 8192) (hst : (s.region e).st = 2) (huses : (s.region e).uses = 0)
    (hidle : regionBusy s (s.region e) = false) (hcmd : (s.region e).cmd = some id) :
    exec (.regionDrainEnd e) s = .next (finish0 id 0x0000 (regionAbsent e s)) := by
  show execRegionDrainEnd e s = _
  unfold execRegionDrainEnd
  rw [run_next (decide_eq_true he) hrun]
  dsimp only
  rw [if_neg (by simp [hst, huses, hidle]), hcmd]
  rfl

theorem exec_regionDrainEnd_of_waits (hrun : s.power.running = true) (he : e < 8192) (hwaits : (s.region e).st ≠ 2 ∨ (s.region e).uses ≠ 0) :
    exec (.regionDrainEnd e) s = .next s := by
  have hnot : (s.region e).st ≠ 2 ∨ (s.region e).uses ≠ 0 ∨ regionBusy s (s.region e) = true := hwaits.imp_right .inl
  show execRegionDrainEnd e s = _
  unfold execRegionDrainEnd
  rw [run_next (decide_eq_true he) hrun]
  exact congrArg _ (if_pos hnot)

theorem exec_regionShareWrite (val : Word) (hrun : s.power.running = true) (he : e < 8192) (hst : (s.region e).st ≠ 0) :
    exec (.regionShareWrite 18 e val) s = .next (s.setRegion e { s.region e with share := bits val.toNat 31 16 }) :=
  (run_onlyIf_of_true (by simp [he] : (decide (18 < 19) && decide (e < 8192)) = true) hrun rfl).trans (congrArg _ (if_neg hst))

theorem exec_regionShareWrite_of_world_n {who : Nat} (val : Word) (hrun : s.power.running = true) (he : e < 8192) (hwho : who < 18) :
    exec (.regionShareWrite who e val) s = .next s :=
  run_onlyIf_of_false (by simp [he]; omega : (decide (who < 19) && decide (e < 8192)) = true) hrun (by simp; omega)

/-! ### The entropy source (R448) -/

theorem exec_rngHealthFail (hrun : s.power.running = true) :
    exec .rngHealthFail s = .next (sticky none .glbSecSts 0 0 0x2000
      { s with sec := { s.sec with rngFail := true, rngSince := if s.sec.rngFail then s.sec.rngSince else s.tb.ticks } }) := by
  show execRngHealthFail s = _
  unfold execRngHealthFail
  rw [run_next rfl hrun]

theorem exec_entropyStartUpTestsPass_of_no_wait (hrun : s.power.running = true) (hfail : s.sec.rngFail = true) (hnone : s.sec.rngWait = []) :
    exec .entropyStartUpTestsPass s = .next { s with sec := { s.sec with rngFail := false } } := by
  refine (run_onlyIf_of_true rfl hrun hfail).trans (congrArg _ ?_)
  dsimp only
  rw [hnone]
  show { s with sec := { s.sec with rngFail := false, rngWait := [] } } = _
  rw [← hnone]

theorem exec_entropyWaitTimeout {due : Nat} (hrun : s.power.running = true) (hfind : (s.sec.rngWait.find? fun e => e.1 == id) = some (id, due)) :
    exec (.entropyWaitTimeout id) s = .next
      (if due < s.tb.ticks then finish0 id stNoResource { s with sec := { s.sec with rngWait := s.sec.rngWait.filter fun e => e.1 != id } } else s) := by
  show execEntropyWaitTimeout id s = _
  unfold execEntropyWaitTimeout
  rw [run_next rfl hrun, hfind]

end

/-- Settles O34. Which ABSENT entry REGION_CREATE takes, the lowest, and that GEN is kept while the entry is ABSENT are the model's choices (log
entry 88), as is the state code 0 in the STATE_CONFLICT of a REGION_REVOKE whose KEY is not the entry's. -/
theorem regions : Obligations.Regions := by
  unfold Obligations.Regions
  intro s id c e
  refine ⟨fun h hlegal howned hue htouch hfree => ?_, exec_regionRevoke_of_active, exec_regionRevoke_of_other_key,
    fun hrun he => ⟨fun id hst huses hidle hcmd => exec_regionDrainEnd hrun he hst huses hidle hcmd,
      fun hst => exec_regionDrainEnd_of_waits hrun he (.inl hst), fun huses => exec_regionDrainEnd_of_waits hrun he (.inr huses),
      fun val hst => exec_regionShareWrite val hrun he hst, fun who val hwho => exec_regionShareWrite_of_world_n val hrun he hwho,
      exec_rngHealthFail hrun, exec_entropyStartUpTestsPass_of_no_wait hrun, fun due hfind => ⟨fun hlate => ?_, fun hearly => ?_⟩⟩⟩
  · rw [exec_regionCreate h, createRegion_of_legal hlegal howned hue htouch hfree, h.id_eq]
    refine ⟨fun hrng => ⟨regionKey s e, regionKey_mod (lt_of_freeEntry hfree), regionKey_lt (lt_of_freeEntry hfree), ?_⟩, fun hrng => ?_⟩
    · rw [if_neg (by simp [hrng]), enterRegion_eq, h.id_eq]
    · rw [if_pos hrng]
  · rw [exec_entropyWaitTimeout hrun hfind, if_pos hlate]
    rfl
  · rw [exec_entropyWaitTimeout hrun hfind, if_neg (by omega)]

end Sys2Proof.Machine
end

section
/-! PROOFS. COPY and FILL (R211). -/
namespace Sys2Proof.Machine

open Sys2Proof

section
variable {s t u : State} {id : Nat} {c : Cmd}

/-- The status of a refused range whose region entry can be read. -/
theorem refusedSt_of_readable {r : Requester} {a n : Nat} (h : tableUe t r a n = false) : refusedSt t r a n = stDenied := by
  simp [refusedSt, h]

/-! ### COPY -/

/-- The bytes of a COPY that cannot overwrite what it has yet to read are those of its source. -/
theorem exec_copy {bs : Bytes} (h : Ready s .copy id c) (hsrc : rangeWaits s (c.p 0) (c.p 2) = false) (hdst : rangeWaits s (c.p 1) (c.p 2) = false)
    (hread : mayReach c.fn (c.p 0) (c.p 2) false 0x200 s = (true, s)) (hwrite : mayReach c.fn (c.p 1) (c.p 2) true 0x200 s = (true, s))
    (hpart : readPart s c.fn (c.p 0) (c.p 2) = (t, bs, none)) (hapart : overlaps (c.p 0) (c.p 2) (c.p 1) (c.p 2) = false ∨ c.p 0 = c.p 1) :
    exec (.copy id) s = .next (copyOut c (c.p 1) bs none { t with fresh := t.fresh + 1 }) := by
  have hknown : ¬(overlaps (c.p 0) (c.p 2) (c.p 1) (c.p 2) && c.p 0 != c.p 1) = true := by
    rcases hapart with hout | hsame
    · simp [hout]
    · simp [hsame]
  show execCopy id s = _
  unfold execCopy
  rw [h.exec]
  dsimp only
  rw [if_neg (by simp [hsrc, hdst]), hread]
  dsimp only
  rw [if_neg (by decide), hwrite]
  dsimp only
  rw [if_neg (by decide), hpart]
  dsimp only [draw]
  rw [if_neg (by decide), if_neg hknown]

theorem exec_copy_of_source_denied (h : Ready s .copy id c) (hsrc : rangeWaits s (c.p 0) (c.p 2) = false)
    (hdst : rangeWaits s (c.p 1) (c.p 2) = false) (hread : mayReach c.fn (c.p 0) (c.p 2) false 0x200 s = (false, t))
    (htable : tableUe t (tenReq c.fn 0x200) (c.p 0) (c.p 2) = false) : exec (.copy id) s = .next (finish id 0x0501 16 0 0 0 t) := by
  show execCopy id s = _
  unfold execCopy
  rw [h.exec]
  dsimp only
  rw [if_neg (by simp [hsrc, hdst]), hread]
  dsimp only
  rw [if_pos (by decide), refusedSt_of_readable htable, failAt, h.id_eq]
  rfl

theorem exec_copy_of_destination_denied (h : Ready s .copy id c) (hsrc : rangeWaits s (c.p 0) (c.p 2) = false)
    (hdst : rangeWaits s (c.p 1) (c.p 2) = false) (hread : mayReach c.fn (c.p 0) (c.p 2) false 0x200 s = (true, s))
    (hwrite : mayReach c.fn (c.p 1) (c.p 2) true 0x200 s = (false, t)) (htable : tableUe t (tenReq c.fn 0x200) (c.p 1) (c.p 2) = false) :
    exec (.copy id) s = .next (finish id 0x0501 24 0 0 0 t) := by
  show execCopy id s = _
  unfold execCopy
  rw [h.exec]
  dsimp only
  rw [if_neg (by simp [hsrc, hdst]), hread]
  dsimp only
  rw [if_neg (by decide), hwrite]
  dsimp only
  rw [if_pos (by decide), refusedSt_of_readable htable, failAt, h.id_eq]
  rfl

/-! ### FILL -/

/-- The bytes of a FILL: its pattern, over and over. -/
def fillBytes (c : Cmd) : Bytes := (List.range (c.p 1)).map fun i => (leBytes 4 (c.p 2)).getD (i % 4) 0

theorem exec_fill (h : Ready s .fill id c) (hdst : rangeWaits s (c.p 0) (c.p 1) = false)
    (hwrite : mayReach c.fn (c.p 0) (c.p 1) true 0x200 s = (true, s)) : exec (.fill id) s = .next (copyOut c (c.p 0) (fillBytes c) none s) := by
  show execFill id s = _
  unfold execFill
  rw [h.exec]
  dsimp only
  rw [if_neg (by simp [hdst]), hwrite]
  dsimp only
  rw [if_neg (by decide)]
  rfl

theorem exec_fill_of_denied (h : Ready s .fill id c) (hdst : rangeWaits s (c.p 0) (c.p 1) = false)
    (hwrite : mayReach c.fn (c.p 0) (c.p 1) true 0x200 s = (false, t)) (htable : tableUe t (tenReq c.fn 0x200) (c.p 0) (c.p 1) = false) :
    exec (.fill id) s = .next (finish id 0x0501 16 0 0 0 t) := by
  show execFill id s = _
  unfold execFill
  rw [h.exec]
  dsimp only
  rw [if_neg (by simp [hdst]), hwrite]
  dsimp only
  rw [if_pos (by decide), refusedSt_of_readable htable, failAt, h.id_eq]
  rfl

/-! ### What is written (R211) -/

theorem copyOut_of_written {dst : Nat} {bs : Bytes} (hdevice : isHost dst = false) (hwrite : devWrite dst bs s = (u, none)) :
    copyOut c dst bs none s = finish c.id 0x0000 (bs.length % 2 ^ 32) (bs.length / 2 ^ 32) 0 0 u := by
  unfold copyOut
  dsimp only
  rw [if_neg (by simp [hdevice]), hwrite]
  rfl

theorem copyOut_of_uncorrectable {dst e : Nat} {bs : Bytes} (hdevice : isHost dst = false) (hwrite : devWrite dst bs s = (u, some (.ue e))) :
    copyOut c dst bs none s = finish c.id 0x0401 ((e - dst) % 2 ^ 32) ((e - dst) / 2 ^ 32) 0 0 u := by
  unfold copyOut
  dsimp only
  rw [if_neg (by simp [hdevice]), hwrite]
  rfl

end

/-- Settles O35: both commands check their ranges in the order of their parameters and then write through `copyOut`. -/
theorem copy_And_Fill : Obligations.Copy_And_Fill := by
  unfold Obligations.Copy_And_Fill
  intro s t u id c
  exact ⟨fun h hsrc hdst => ⟨fun bs hread hwrite hpart hapart => exec_copy h hsrc hdst hread hwrite hpart hapart,
      exec_copy_of_source_denied h hsrc hdst, exec_copy_of_destination_denied h hsrc hdst⟩,
    fun h hdst => ⟨exec_fill h hdst, exec_fill_of_denied h hdst⟩,
    fun dst bs hdevice hwrite => copyOut_of_written hdevice hwrite, fun dst bs e hdevice hwrite => copyOut_of_uncorrectable hdevice hwrite⟩
end Sys2Proof.Machine
end

section
/-! PROOFS. Commands of the security core (R441, R444, R452, R454, R456, R457, R465). -/
namespace Sys2Proof.Machine

open Sys2Proof

section
variable {s t u : State} {id : Nat} {c : Cmd} {b : Bytes}

/-! ### A running security core and its tokens (R441, R452) -/

theorem needSec_of_running {f : State → State} (hsec : (s.fwp 34).st = .running) : needSec c f s = f s := by
  unfold needSec
  rw [if_neg (by simp [secHalted, hsec])]

/-- A token that proves its authority is spent before the command acts. -/
theorem withToken_of_good {o : Op} {k : Nat} {blocks : Bool} {f : Bytes → State → State} (hread : hostRead s c.fn (c.p k) 4811 = (t, .ok b))
    (hgood : tokenOk t c o k blocks b = true) : withToken c o k blocks f s = f b (t.setReg .glbTokenSeq 0 0 (fld b 32 8)) := by
  unfold withToken
  rw [hread]
  dsimp only
  rw [if_pos hgood]

theorem withToken_of_bad {o : Op} {k : Nat} {blocks : Bool} {f : Bytes → State → State} (hread : hostRead s c.fn (c.p k) 4811 = (t, .ok b))
    (hbad : tokenOk t c o k blocks b = false) : withToken c o k blocks f s = finish0 c.id stAuth (t.count .glbTokenFail 0 0 1) := by
  unfold withToken
  rw [hread]
  dsimp only
  rw [if_neg (by simp [hbad])]

/-! ### ASSIGN (R454) -/

/-- What an ASSIGN asks for. -/
def assignmentOf (c : Cmd) (b : Bytes) : Assignment := ⟨c.p 0, c.p 1, c.p 2, c.p 3, fld b 104 4, fld b 108 4⟩

/-- What an ASSIGN does once its token is spent. -/
def assignOrRefuse (c : Cmd) (b : Bytes) (s : State) : State :=
  match assignNo s (assignmentOf c b) with
  | some (.conflict ty i code) => conflict c.id ty i code 0 s
  | some .denied => finish0 c.id stDenied s
  | none => finish0 c.id stOk (extend 6 (assignDigest (assignmentOf c b) (slice b 104 64)) (assign (assignmentOf c b) s))

theorem exec_assign (hsec : (s.fwp 34).st = .running) (h : Ready s .assign id c) :
    exec (.assign id) s = .next (withToken c .assign 4 (c.p 0 == 3) (assignOrRefuse c) s) :=
  (h.exec _).trans (congrArg _ (needSec_of_running hsec))

theorem exec_assign_of_good (hsec : (s.fwp 34).st = .running) (h : Ready s .assign id c) (hread : hostRead s c.fn (c.p 4) 4811 = (t, .ok b))
    (hgood : tokenOk t c .assign 4 (c.p 0 == 3) b = true) :
    exec (.assign id) s = .next (assignOrRefuse c b (t.setReg .glbTokenSeq 0 0 (fld b 32 8))) := by
  rw [exec_assign hsec h, withToken_of_good hread hgood]

/-! ### Keys (R456, R457) -/


def keyLoads (id : Nat) (c : Cmd) (b : Bytes) (s : State) : State :=
  match unwrapKey s (c.p 0) b with
  | some k => finish0 id stOk { s with keys := tput {} s.keys (c.p 0) k }
  | none => finish0 id stAuth (s.count .glbTokenFail 0 0 1)

theorem keyLoads_of_unwrapped {k : KeySlot} (hkey : unwrapKey s (c.p 0) b = some k) :
    keyLoads id c b s = finish0 id stOk { s with keys := tput {} s.keys (c.p 0) k } := by
  unfold keyLoads
  rw [hkey]

theorem keyLoads_of_failed (hkey : unwrapKey s (c.p 0) b = none) : keyLoads id c b s = finish0 id stAuth (s.count .glbTokenFail 0 0 1) := by
  unfold keyLoads
  rw [hkey]

theorem exec_keyLoad_of_loaded (hsec : (s.fwp 34).st = .running) (h : Ready s .keyLoad id c) (hfull : (tget {} s.keys (c.p 0)).mode ≠ 0) :
    exec (.keyLoad id) s = .next (finish id 0x0201 (0x11 + c.p 0 * 256) 1 0 0 s) :=
  (h.exec _).trans (congrArg _ ((needSec_of_running hsec).trans (if_pos hfull)))

theorem exec_keyLoad_of_empty (hsec : (s.fwp 34).st = .running) (h : Ready s .keyLoad id c) (hempty : (tget {} s.keys (c.p 0)).mode = 0)
    (hread : hostRead s c.fn (c.p 1) 128 = (t, .ok b)) :
    exec (.keyLoad id) s = .next (keyLoads id c b t) := by
  show execKeyLoad id s = _
  unfold execKeyLoad
  rw [h.exec, needSec_of_running hsec, if_neg (by simp [hempty]), hread]
  rfl

theorem exec_keyErase_of_good (hsec : (s.fwp 34).st = .running) (h : Ready s .keyErase id c) (hread : hostRead s c.fn (c.p 1) 4811 = (t, .ok b))
    (hgood : tokenOk t c .keyErase 1 false b = true) :
    exec (.keyErase id) s = .next (finish0 id stOk (eraseSlots (· == c.p 0) (t.setReg .glbTokenSeq 0 0 (fld b 32 8)))) := by
  refine (h.exec _).trans (congrArg _ ((needSec_of_running hsec).trans ((withToken_of_good hread hgood).trans ?_)))
  rw [h.id_eq]

/-- With no cipher operation, save or restore under way, only the slots change. -/
theorem eraseSlots_of_idle {p : Nat → Bool} (hctxs : s.sec.ctxs = []) (hsaves : s.ckpt.saves = []) (hrests : s.ckpt.rests = []) :
    eraseSlots p s = { s with keys := tdrop s.keys p } := by
  unfold eraseSlots
  dsimp only
  rw [hctxs, List.foldl_nil, hsaves, List.foldl_nil, hrests, List.foldl_nil]

theorem tdrop_all {α : Type} (m : Tbl α) : tdrop m (fun _ => true) = [] := by
  simp [tdrop]

/-! ### ATTEST and DEBUG_UNLOCK (R444, R465) -/

theorem exec_attest (hsec : (s.fwp 34).st = .running) (h : Ready s .attest id c) (hrng : s.sec.rngFail = false)
    (hread : hostRead s c.fn (c.p 0) 64 = (t, .ok b))
    (hwrite : hostWrite t c.fn (c.p 1) (attestBody t b ++ fit 4627 (Config.dsaSign (attestBody t b))) = (u, .ok ())) :
    exec (.attest id) s = .next (finish0 id stOk u) := by
  show execAttest id s = _
  unfold execAttest
  rw [h.exec, needSec_of_running hsec, if_neg (by simp [hrng]), hread]
  dsimp only
  rw [hwrite]

theorem exec_attest_of_no_entropy (hsec : (s.fwp 34).st = .running) (h : Ready s .attest id c) (hrng : s.sec.rngFail = true) :
    exec (.attest id) s = .next s :=
  (h.exec _).trans (congrArg _ ((needSec_of_running hsec).trans (if_pos hrng)))

theorem exec_debugUnlock_of_good (hsec : (s.fwp 34).st = .running) (h : Ready s .debugUnlock id c)
    (hread : hostRead s c.fn (c.p 0) 4811 = (t, .ok b)) (hgood : tokenOk t c .debugUnlock 0 false b = true)
    (hu : u = t.setReg .glbTokenSeq 0 0 (fld b 32 8)) :
    exec (.debugUnlock id) s = .next
      (if bit (u.reg .glbSecSts) 6 then finish0 id stOk u
       else finish0 id stOk ((extend 7 (sha3 b) (eraseSlots (fun _ => true) u)).orReg .glbSecSts 0 0 0x40)) := by
  refine (h.exec _).trans (congrArg _ ((needSec_of_running hsec).trans ((withToken_of_good hread hgood).trans ?_)))
  rw [← hu, h.id_eq]

end

/-- Settles O36. That a KEY_LOAD that fails its check counts in TOKEN_FAIL and a second DEBUG_UNLOCK spends its token again, and what M6 and M7
are extended with, are the model's choices (log entries 89 and 90). -/
theorem security_Commands : Obligations.Security_Commands := by
  unfold Obligations.Security_Commands
  intro s t u id c b hsec
  refine ⟨fun a h ha hread hgood hu => ?_, fun h hread hbad => ?_, fun k h hempty hread hkey => ?_, fun h hfull => exec_keyLoad_of_loaded hsec h hfull,
    fun h hempty hread hkey => ?_, fun h hread hgood hu => ?_, fun h hrng hread hwrite => exec_attest hsec h hrng hread hwrite,
    fun h hrng => exec_attest_of_no_entropy hsec h hrng, fun h hread hgood hu => ?_⟩
  · rw [exec_assign_of_good hsec h hread hgood, ← hu, assignOrRefuse, ← ha.trans (rfl : _ = assignmentOf c b), h.id_eq]
    refine ⟨fun hno => ?_, fun ty i code hno => ?_, fun hno => ?_, fun hkind => ?_, fun hkind => ?_⟩
    · rw [hno]
      rfl
    · rw [hno]
      rfl
    · rw [hno]
      rfl
    · unfold assign
      rw [hkind]
      rfl
    · unfold assign
      rw [hkind]
      rfl
  · rw [exec_assign hsec h, withToken_of_bad hread hbad, h.id_eq]
    rfl
  · rw [exec_keyLoad_of_empty hsec h hempty hread, keyLoads_of_unwrapped hkey]
    rfl
  · rw [exec_keyLoad_of_empty hsec h hempty hread, keyLoads_of_failed hkey]
    rfl
  · rw [exec_keyErase_of_good hsec h hread hgood, ← hu]
    refine ⟨rfl, fun hctxs hsaves hrests => ?_⟩
    subst hu
    exact eraseSlots_of_idle hctxs hsaves hrests
  · rw [exec_debugUnlock_of_good hsec h hread hgood hu]
    refine ⟨fun hclosed => by rw [if_neg (by simp [hclosed])]; rfl, fun hopen => by rw [if_pos hopen]; rfl, fun hctxs hsaves hrests => ?_⟩
    subst hu
    refine (eraseSlots_of_idle (s := t.setReg .glbTokenSeq 0 0 (fld b 32 8)) hctxs hsaves hrests).trans ?_
    rw [tdrop_all]

end Sys2Proof.Machine
end

section
/-! PROOFS. The cipher engine, FW_UPDATE, alarms and the test port (R449, R451, R458 to R464, R520). -/
namespace Sys2Proof.Machine

open Sys2Proof

section
variable {s t u : State} {id : Nat} {c : Cmd} {b : Bytes}

/-! ### An alarm (R464) -/

/-- What each step of a fold leaves alone, the fold does. -/
theorem foldl_fixes {α β γ : Type} (g : β → γ) {f : β → α → β} (h : ∀ s x, g (f s x) = g s) : ∀ (l : List α) (s : β), g (l.foldl f s) = g s
  | [], _ => rfl
  | x :: l, s => (foldl_fixes g h l (f s x)).trans (h s x)

/-- The key slots and the firmware processors. -/
def secrets (s : State) : Tbl KeySlot × Tbl Fw := (s.keys, s.fw)

theorem secrets_groupLapse (g : Grp) (s : State) : secrets (groupLapse g s) = secrets s :=
  foldl_fixes secrets (f := fun s n => s.orReg .lodeLock n 0 0x400) (fun _ _ => rfl) g.members s

theorem secrets_syncGroups (s : State) : secrets (syncGroups s) = secrets s := by
  refine foldl_fixes secrets (fun s x => ?_) s.groups s
  dsimp only
  split
  · exact secrets_groupLapse _ _
  · split
    · split <;> rfl
    · rfl

theorem secrets_resumeWaits (src : Nat) (left : Option Nat) (s : State) : secrets (resumeWaits src left s) = secrets s := by
  unfold resumeWaits
  split <;> rfl

theorem secrets_releaseCore (k : Nat) (s : State) : secrets (releaseCore k s) = secrets s := by
  unfold releaseCore
  dsimp only
  split
  · exact secrets_resumeWaits _ _ _
  · rfl

theorem secrets_holdReplies (s : State) : secrets (holdReplies s) = secrets s := by
  refine foldl_fixes secrets (fun s c => ?_) s.cmd.cmds s
  split <;> rfl

/-- Holds that begin or end leave the key slots and the firmware processors alone. -/
theorem secrets_holdsChanged (s : State) : secrets (holdsChanged s) = secrets s :=
  calc secrets (holdsChanged s)
    _ = secrets ((syncGroups s).cores.foldl (fun s (x : Nat × Core) => releaseCore x.1 s) (syncGroups s)) := secrets_holdReplies _
    _ = secrets (syncGroups s) := foldl_fixes secrets (fun s (x : Nat × Core) => secrets_releaseCore x.1 s) _ _
    _ = secrets s := secrets_syncGroups s

/-- The state in which the security core has halted, before its alarm is recorded. -/
def coreHalted (s : State) : State := holdsChanged (State.setFw (eraseSlots (fun _ => true) s) 34 { (eraseSlots (fun _ => true) s).fwp 34 with st := .halted })

/-- The record of an alarm changes nothing but telemetry. -/
theorem tells_alarm (cause : Nat) (s : State) : Tells ((coreHalted s).orReg .glbSecSts 0 0 (0x80 + cause % 32 * 256)) (alarm cause s) := by
  unfold alarm
  dsimp only
  split
  · exact tells_raise _ _ _ _ _ _ nofun
  · exact Tells.refl _

theorem alarm_of_idle (cause : Nat) (hctxs : s.sec.ctxs = []) (hsaves : s.ckpt.saves = []) (hrests : s.ckpt.rests = []) :
    (alarm cause s).keys = [] ∧ ((alarm cause s).fwp 34).st = .halted ∧ bit ((alarm cause s).reg .glbSecSts) 7 = true := by
  have herased : eraseSlots (fun _ => true) s = { s with keys := [] } := by
    rw [eraseSlots_of_idle hctxs hsaves hrests, tdrop_all]
  have hsecrets : secrets (coreHalted s) = secrets (State.setFw { s with keys := [] } 34 { s.fwp 34 with st := .halted }) := by
    unfold coreHalted
    rw [secrets_holdsChanged, herased]
    rfl
  obtain ⟨hkeys, hfw⟩ := Prod.mk.inj hsecrets
  have htells := tells_alarm cause s
  refine ⟨?_, ?_, ?_⟩
  · rw [htells.keys]
    exact hkeys
  · have hsame : (alarm cause s).fw = (State.setFw { s with keys := [] } 34 { s.fwp 34 with st := .halted }).fw := by
      rw [htells.fw]
      exact hfw
    unfold State.fwp
    rw [hsame]
    exact congrArg Fw.st (fwp_setFw { s with keys := [] } 34 { s.fwp 34 with st := .halted })
  · rw [htells.reg (by decide), bit_orReg (by decide)]
    have hbit : bit (0x80 + cause % 32 * 256) 7 = true := by
      rw [bit_testBit, Nat.testBit_eq_decide_div_mod_eq, decide_eq_true_eq]
      omega
    rw [hbit, Bool.or_true]



/-! ### The test port (R520) -/

theorem exec_jtagTapAccess (idcode : Bool) (hrun : s.power.running = true) :
    exec (.jtagTapAccess idcode) s = .next { s with pins := { s.pins with
      tapBypass := !idcode && !bit (s.reg .glbSecSts) 6
      tapOut := if idcode then 0x16400A6B else s.pins.tapOut } } := by
  show execJtagTapAccess idcode s = _
  unfold execJtagTapAccess
  rw [run_next rfl hrun]

/-! ### CRYPT enters a context (R458, R459) -/

theorem exec_crypt_of_full (h : Ready s .crypt id c) (hsec : (s.fwp 34).st = .running) (hfull : 16 ≤ s.sec.ctxs.length)
    (hnew : s.sec.ctxWait.contains id = false) :
    exec (.crypt id) s = .next { s with sec := { s.sec with ctxWait := s.sec.ctxWait ++ [id] } } := by
  show execCrypt id s = _
  unfold execCrypt
  rw [h.exec, needSec_of_running hsec]
  dsimp only
  rw [if_pos (.inl hfull), if_neg (by rw [hnew]; decide)]

/-- The operation of a CRYPT, with its descriptor. -/
def cryptOp (s : State) (id : Nat) (c : Cmd) (b : Bytes) : CipherOp :=
  ⟨id, c.fn, c.p 0, c.p 1, c.p 2, c.p 3, c.p 4, b, c.p 5, (tget {} s.keys (c.p 1)).key, syncOf s c (c.p 6)⟩

section
variable (h : Ready s .crypt id c) (hsec : (s.fwp 34).st = .running) (hroom : s.sec.ctxs.length < 16) (hturn : ctxTurn s c = true)
  (hsrc : rangeWaits s (c.p 2) (c.p 4) = false) (hdst : rangeWaits s (c.p 3) (c.p 4) = false)
include h hsec hroom hturn hsrc hdst

theorem exec_crypt_of_slot_refused {w : Nat} (hslot : slotNo s c.fn (c.p 1) (cryptMode (c.p 0)) = some w) :
    exec (.crypt id) s = .next (finish id 0x0501 (paramOff .crypt 1) w 0 0 s) := by
  have henters : ¬(16 ≤ s.sec.ctxs.length ∨ (!ctxTurn s c) = true) := by simp [hturn, hroom]
  show execCrypt id s = _
  unfold execCrypt
  rw [h.exec, needSec_of_running hsec]
  dsimp only
  rw [if_neg henters, if_neg (by simp [hsrc, hdst]), hslot]
  rfl

theorem exec_crypt (hslot : slotNo s c.fn (c.p 1) (cryptMode (c.p 0)) = none)
    (hread : 0 < c.p 4 → mayReach c.fn (c.p 2) (c.p 4) false 0x214 s = (true, s))
    (hwrite : 0 < c.p 4 → mayReach c.fn (c.p 3) (c.p 4) true 0x214 s = (true, s))
    (hdesc : mayReach c.fn (c.p 5) 64 false 0x214 s = (true, s)) (hbytes : readMem s (c.p 5) 64 = (t, .ok b)) :
    exec (.crypt id) s = .next (working id { t with sec := { t.sec with
      ctxs := t.sec.ctxs ++ [cryptOp s id c b], ctxLast := c.fn, ctxWait := t.sec.ctxWait.filter fun k => k != id } }) := by
  have henters : ¬(16 ≤ s.sec.ctxs.length ∨ (!ctxTurn s c) = true) := by simp [hturn, hroom]
  have hsource : (if c.p 4 = 0 then (true, s) else mayReach c.fn (c.p 2) (c.p 4) false 0x214 s) = (true, s) := by
    split
    · rfl
    · exact hread (by omega)
  have hdestination : (if c.p 4 = 0 then (true, s) else mayReach c.fn (c.p 3) (c.p 4) true 0x214 s) = (true, s) := by
    split
    · rfl
    · exact hwrite (by omega)
  show execCrypt id s = _
  unfold execCrypt
  rw [h.exec, needSec_of_running hsec]
  dsimp only
  rw [if_neg henters, if_neg (by simp [hsrc, hdst]), hslot]
  dsimp only
  rw [hsource]
  dsimp only
  rw [hdestination]
  dsimp only
  rw [hdesc]
  dsimp only
  rw [if_neg (by simp), if_neg (by simp), if_neg (by simp), hbytes]
  rfl

end

/-! ### An operation ends by itself (R460 to R463) -/

/-- The output of an operation over its input. -/
def cipherOut (o : CipherOp) (x : Bytes) : Bytes :=
  if o.mode ≤ 1 then gcmCrypt o.key (slice o.desc 0 12) x
  else xtsRun (o.mode == 2) o.key (fld o.desc 16 4) (o.bytes + 1) (fld o.desc 0 16) x

/-- The last step of an operation whose output is written: an encryption's tag, then its end. -/
def cipherFinish (o : CipherOp) (aad out : Bytes) (s : State) : State :=
  if o.mode = 0 then
    match writeMem s (o.descAt + 32) (gcmTag o.key (slice o.desc 0 12) aad out) with
    | (s, none) => cipherEnd o stOk (o.bytes % 2 ^ 32) (o.bytes / 2 ^ 32) 0 s
    | (s, some e) => cipherStop o stUncorr (e % 2 ^ 32) (e / 2 ^ 32) s
  else cipherEnd o stOk (o.bytes % 2 ^ 32) (o.bytes / 2 ^ 32) 0 s

section
variable {i : Nat} {o : CipherOp} (hrun : s.power.running = true) (hop : s.sec.ctxs[i]? = some o)
include hrun hop

theorem exec_cipherOpComplete_of_uncorrectable {e : Nat} (hread : cipherRead o s = (t, .error e)) :
    exec (.cipherOpComplete i) s = .next (cipherStop o 0x0401 (e % 2 ^ 32) (e / 2 ^ 32) t) := by
  show execCipherOpComplete i s = _
  unfold execCipherOpComplete
  rw [run_next rfl hrun, hop]
  dsimp only
  rw [hread]
  rfl

theorem exec_cipherOpComplete_of_written {aad x : Bytes} (hread : cipherRead o s = (t, .ok (aad, x))) (hwrite : writeMem t o.dst (cipherOut o x) = (u, none))
    (hsome : cipherOut o x ≠ []) (htag : o.mode = 1 → gcmTag o.key (slice o.desc 0 12) aad x = slice o.desc 32 16) :
    exec (.cipherOpComplete i) s = .next (cipherFinish o aad (cipherOut o x) u) := by
  have hgood : ¬(o.mode = 1 ∧ gcmTag o.key (slice o.desc 0 12) aad x ≠ slice o.desc 32 16) := fun hbad => hbad.2 (htag hbad.1)
  show execCipherOpComplete i s = _
  unfold execCipherOpComplete
  rw [run_next rfl hrun, hop]
  dsimp only
  rw [hread]
  dsimp only
  rw [if_neg hgood]
  unfold cipherOut at *
  rw [if_neg hsome, hwrite]
  rfl

theorem exec_cipherOpComplete_of_bad_tag {aad x : Bytes} (hread : cipherRead o s = (t, .ok (aad, x))) (hmode : o.mode = 1)
    (htag : gcmTag o.key (slice o.desc 0 12) aad x ≠ slice o.desc 32 16) :
    exec (.cipherOpComplete i) s = .next (if o.bytes ≤ 65536 then cipherEnd o stAuth 0 0 0 t
      else cipherEnd o stAuth 0 0 o.bytes (writeMem t o.dst (zeros o.bytes)).1) := by
  show execCipherOpComplete i s = _
  unfold execCipherOpComplete
  rw [run_next rfl hrun, hop]
  dsimp only
  rw [hread]
  dsimp only
  rw [if_pos ⟨hmode, htag⟩]

end

theorem cipherFinish_of_no_tag {o : CipherOp} {aad out : Bytes} (hmode : o.mode ≠ 0) :
    cipherFinish o aad out s = cipherEnd o 0x0000 (o.bytes % 2 ^ 32) (o.bytes / 2 ^ 32) 0 s := if_neg hmode

theorem cipherFinish_of_tag {o : CipherOp} {aad out : Bytes} (hmode : o.mode = 0)
    (hwrite : writeMem s (o.descAt + 32) (gcmTag o.key (slice o.desc 0 12) aad out) = (u, none)) :
    cipherFinish o aad out s = cipherEnd o 0x0000 (o.bytes % 2 ^ 32) (o.bytes / 2 ^ 32) 0 u := by
  unfold cipherFinish
  rw [if_pos hmode, hwrite]
  rfl

/-! ### FW_UPDATE (R451) -/

theorem exec_fwUpdate {k : Nat} (h : Ready s .fwUpdate id c) (hsec : (s.fwp 34).st = .running) (hk : k = inactiveSlot s)
    (hpart : readPart s c.fn (hostBase + c.p 0) (c.p 1) = (t, b, none)) (hsome : b ≠ [])
    (hu : u = { t with sec := { t.sec with images := tput none t.sec.images k (some b), unusable := t.sec.unusable ||| 2 ^ k } }) :
    exec (.fwUpdate id) s = .next
      (if imageOk u (Config.bootImage b) then finish id stOk (Config.bootImage b).version 0 0 0
        { u with sec := { u.sec with unusable := u.sec.unusable &&& (3 - 2 ^ k), active := if c.p 2 = 1 then some k else u.sec.active } }
       else finish0 id stAuth u) := by
  show execFwUpdate id s = _
  unfold execFwUpdate
  rw [h.exec, needSec_of_running hsec]
  dsimp only
  rw [hpart, ← hk]
  dsimp only
  rw [if_neg (by decide : ¬(none : Option RdErr) = some .wait), if_neg hsome, ← hu]

end

/-- Settles O37. That a TAP instruction other than IDCODE leaves an open port out of bypass and does nothing else, and that the bytes of an image
enter the inactive slot as they come, are the model's choices (log entries 54 and 91). -/
theorem security_Engine : Obligations.Security_Engine := by
  unfold Obligations.Security_Engine
  intro s t u id c b
  refine ⟨fun h hsec hroom hturn hsrc hdst => ⟨fun hslot hread hwrite hdesc hbytes => ?_, fun w hslot => ?_⟩, fun h hsec hfull hnew => ?_,
    fun hrun => ⟨fun i o aad x hop hread => ⟨fun out hout hwrite hsome => ?_, fun hmode htag => ?_⟩, fun i o e hop hread => ?_, ?_, fun hclosed => ?_⟩,
    fun hopen hrun => ?_, fun k h hsec hk hpart hsome hu => ?_, fun cause hpos hcause => ⟨?_, ?_⟩, rfl⟩
  · exact exec_crypt h hsec hroom hturn hsrc hdst hslot hread hwrite hdesc hbytes
  · exact exec_crypt_of_slot_refused h hsec hroom hturn hsrc hdst hslot
  · exact exec_crypt_of_full h hsec hfull hnew
  · obtain rfl : out = cipherOut o x := hout
    refine ⟨fun hmode htag => ?_, fun v hmode htagged => ?_⟩
    · rw [exec_cipherOpComplete_of_written hrun hop hread hwrite hsome htag, cipherFinish_of_no_tag hmode]
    · rw [exec_cipherOpComplete_of_written hrun hop hread hwrite hsome (by omega), cipherFinish_of_tag hmode htagged]
  · rw [exec_cipherOpComplete_of_bad_tag hrun hop hread hmode htag]
    exact ⟨fun hshort => congrArg _ (if_pos hshort), fun hlong => congrArg _ (if_neg (by omega))⟩
  · exact exec_cipherOpComplete_of_uncorrectable hrun hop hread
  · exact exec_jtagTapAccess true hrun
  · rw [exec_jtagTapAccess false hrun, hclosed]
    rfl
  · rw [exec_jtagTapAccess false hrun, hopen]
    rfl
  · rw [exec_fwUpdate h hsec hk hpart hsome hu]
    exact ⟨fun hgood => congrArg _ (if_pos hgood), fun hbad => congrArg _ (if_neg (by simp [hbad]))⟩
  · rw [exec_securityAlarm, if_pos hcause, onlyIf_true (by simp; omega)]
  · exact alarm_of_idle cause
end Sys2Proof.Machine
end

section
/-! PROOFS. Communicators, collectives, layouts and MOVE (R216, R254, R258, R259, R265, R289, R291). -/
namespace Sys2Proof.Machine

open Sys2Proof

section
variable {s t : State} {id : Nat} {c : Cmd} {cm : Comm} {b : Bytes}

theorem need6_of_met {ok : Bool} {ty idx code : Nat} {k : State → State} (h : ok = true) : need6 ok c ty idx code k s = k s := by
  rw [h, need6_true]

/-! ### Communicators (R216, R254) -/

theorem exec_commCreate (h : Ready s .commCreate id c) (hnone : s.comm (tkey c.fn (c.p 0)) = none)
    (hread : readMem s (c.p 3) (8 * c.p 1) = (t, .ok b)) :
    exec (.commCreate id) s =
      .next (finish0 id 0x0000 (t.setComm (tkey c.fn (c.p 0)) (some { ranks := c.p 1, rank := c.p 2, map := c.p 3 }))) := by
  show execCommCreate id s = _
  unfold execCommCreate
  rw [h.exec]
  rw [need6_of_met (by rw [hnone]; rfl), hread]
  rfl

theorem exec_commDestroy (h : Ready s .commDestroy id c) (hready : commCode s (tkey c.fn (c.p 0)) = 1) :
    exec (.commDestroy id) s = .next (finish0 id 0x0000 (s.setComm (tkey c.fn (c.p 0)) none)) := by
  show execCommDestroy id s = _
  unfold execCommDestroy
  rw [h.exec]
  rw [need6_of_met (by rw [hready]; rfl)]
  rfl

/-! ### Collectives (R258, R259, R265) -/

section
variable {o : Op}

theorem run_collStart_of_no_comm (h : Ready s o id c) (hnone : s.comm (tkey c.fn (c.p 0)) = none) :
    run true s (collStart o id) = .next (finish id 0x0201 (0x09 + c.p 0 * 256) 0 0 0 s) := by
  unfold collStart
  rw [h.exec]
  dsimp only
  rw [hnone]
  rfl

variable (h : Ready s o id c) (hcomm : s.comm (tkey c.fn (c.p 0)) = some cm) (hroot : o = .broadcast → c.p 1 < cm.ranks)
include h hcomm hroot

theorem run_collStart_of_overlap (hover : collOverlap c o cm = true) :
    run true s (collStart o id) = .next (finish id 0x0103 (paramOff o (collParams o).1) 0 0 0 s) := by
  have hrank : ¬(o = .broadcast ∧ cm.ranks ≤ c.p 1) := fun hbad => absurd (hroot hbad.1) (by omega)
  unfold collStart
  rw [h.exec]
  dsimp only
  rw [hcomm]
  dsimp only
  rw [if_neg hrank, if_pos hover, failAt, h.id_eq]
  rfl

/-- A collective that passes its checks is refused for strict mode, or joins its communicator; one whose order varies is counted. -/
theorem run_collStart_of_good (hover : collOverlap c o cm = false) (hreach : collDenied s c o cm = none) :
    run true s (collStart o id) = .next
      (if isReduction o ∧ c.p 1 = 2 ∧ strict s c.fn then finish0 id stDetRefused (varRefuse c.fn s)
       else
        let u := if isReduction o ∧ c.p 1 = 2 then varCount c.fn (some id) s else s
        collJoin c (c.p 0) { id := id, tenant := c.fn, comm := c.p 0, sig := syncOf u c (c.p (collParams o).2.2) } u) := by
  have hrank : ¬(o = .broadcast ∧ cm.ranks ≤ c.p 1) := fun hbad => absurd (hroot hbad.1) (by omega)
  unfold collStart
  rw [h.exec]
  dsimp only
  rw [hcomm]
  dsimp only
  rw [if_neg hrank, if_neg (by simp [hover]), hreach]

end

theorem exec_collective {o : Op} {i : Instr}
    (hi : o = .allReduce ∧ i = .allReduce id ∨ o = .reduceScatter ∧ i = .reduceScatter id ∨ o = .allGather ∧ i = .allGather id ∨
      o = .broadcast ∧ i = .broadcast id ∨ o = .allToAll ∧ i = .allToAll id) (s : State) : exec i s = run true s (collStart o id) := by
  rcases hi with ⟨rfl, rfl⟩ | ⟨rfl, rfl⟩ | ⟨rfl, rfl⟩ | ⟨rfl, rfl⟩ | ⟨rfl, rfl⟩ <;> rfl

/-! ### Layouts and MOVE (R289, R291) -/

theorem exec_layoutDefine (h : Ready s .layoutDefine id c) (habsent : layoutCode s c.fn (c.p 0) = 0) (hread : readMem s (c.p 1) 64 = (t, .ok b)) :
    exec (.layoutDefine id) s =
      .next (finish0 id 0x0000 { t with ckpt := { t.ckpt with layouts := tput [] t.ckpt.layouts (tkey c.fn (c.p 0)) b } }) := by
  show execLayoutDefine id s = _
  unfold execLayoutDefine
  rw [h.exec]
  dsimp only
  rw [need6_of_met (by rw [habsent]; rfl), hread]
  rfl

theorem exec_layoutDrop (h : Ready s .layoutDrop id c) (hready : layoutCode s c.fn (c.p 0) = 1) :
    exec (.layoutDrop id) s =
      .next (finish0 id 0x0000 { s with ckpt := { s.ckpt with layouts := tput [] s.ckpt.layouts (tkey c.fn (c.p 0)) [] } }) := by
  show execLayoutDrop id s = _
  unfold execLayoutDrop
  rw [h.exec, need6_of_met (by rw [hready]; rfl)]
  rfl

theorem exec_reshardMove {l : Bytes} (h : Ready s .reshardMove id c) (hfrom : layoutCode s c.fn (c.p 0) ≠ 0) (hto : layoutCode s c.fn (c.p 1) ≠ 0)
    (hcomm : s.comm (tkey c.fn (layoutAt s c.fn (c.p 0)).comm) = some cm) (hread : readMem s (c.p 3) (32 * c.p 2) = (t, .ok l))
    (hgood : moveBad t c l cm = none) :
    exec (.reshardMove id) s = .next (collJoin c (layoutAt s c.fn (c.p 0)).comm
      { id := id, tenant := c.fn, comm := (layoutAt s c.fn (c.p 0)).comm, sig := syncOf t c (c.p 4), list := l } t) := by
  show execReshardMove id s = _
  unfold execReshardMove
  rw [h.exec]
  dsimp only
  rw [need6_of_met (by simp [hfrom]), need6_of_met (by simp [hto]), hcomm]
  dsimp only
  rw [hread]
  dsimp only
  rw [hgood]

theorem collJoin_of_comm {comm : Nat} {j : CollJob} (hcomm : s.comm (tkey c.fn comm) = some cm) :
    collJoin c comm j s = collsGo (working c.id
      (let u := s.setComm (tkey c.fn comm) (some { cm with jobs := cm.jobs ++ [c.id] })
       { u with ckpt := { u.ckpt with colls := u.ckpt.colls ++ [j] } })) := by
  unfold collJoin
  dsimp only
  rw [hcomm]

end

/-- Settles O38: the five collectives start alike; what they and MOVE start joins its communicator. -/
theorem collectives : Obligations.Collectives := by
  unfold Obligations.Collectives
  intro s t id c cm
  refine ⟨fun b h hnone hread => exec_commCreate h hnone hread, exec_commDestroy, fun o i hi h => ⟨fun hnone => ?_, fun hcomm hroot hover hreach => ?_,
      fun cm hcomm hroot hover => ?_⟩, fun b h habsent hread => exec_layoutDefine h habsent hread, exec_layoutDrop,
    fun l h hfrom hto hcomm hread hgood => exec_reshardMove h hfrom hto hcomm hread hgood, fun comm j hcomm => collJoin_of_comm hcomm⟩
  · rw [exec_collective hi, run_collStart_of_no_comm h hnone]
  · rw [exec_collective hi, run_collStart_of_good h hcomm hroot hover hreach]
    refine ⟨fun hreduces hmode hstrict => ?_, fun hplain => ?_, fun hreduces hmode hstrict => ?_⟩
    · rw [if_neg (by simp [hstrict])]
      dsimp only
      rw [if_pos ⟨hreduces, hmode⟩]
    · rw [if_neg fun hbad => hplain ⟨hbad.1, hbad.2.1⟩]
      dsimp only
      rw [if_neg hplain]
    · rw [if_pos ⟨hreduces, hmode, hstrict⟩]
      rfl
  · rw [exec_collective hi, run_collStart_of_overlap h hcomm hroot hover]

end Sys2Proof.Machine
end

section
/-! PROOFS. Pools, ranks, saves, restores and drains (R214, R274, R278, R279, R282, R284, R287, R288, R292). -/
namespace Sys2Proof.Machine

open Sys2Proof

section
variable {s t : State} {id : Nat} {c : Cmd} {b : Bytes}

/-! ### POOL_ADD and SLOT_STATUS (R214, R274) -/

theorem exec_poolAdd (h : Ready s .poolAdd id c) (hroom : (poolsOf s c.fn).length < 64) :
    exec (.poolAdd id) s = .next (finish id 0x0000 (poolsOf s c.fn).length 0 0 0
      { s with ckpt := { s.ckpt with pools := tput [] s.ckpt.pools c.fn (poolsOf s c.fn ++ [⟨c.p 0, c.p 1, c.p 2⟩]) } }) :=
  (h.exec _).trans (congrArg _ (if_pos (decide_eq_true hroom)))

theorem exec_poolAdd_of_full (h : Ready s .poolAdd id c) (hfull : 64 ≤ (poolsOf s c.fn).length) :
    exec (.poolAdd id) s = .next (finish0 id 0x0301 s) := by
  have hnone : ¬decide ((poolsOf s c.fn).length < 64) = true := by simp; omega
  show execPoolAdd id s = _
  unfold execPoolAdd
  rw [h.exec]
  unfold need7
  rw [if_neg hnone, h.id_eq]
  rfl

theorem exec_slotStatus (h : Ready s .slotStatus id c) :
    exec (.slotStatus id) s =
      .next (finish id 0x0000 (s.ckSlot c.fn (c.p 0)).st ((s.ckSlot c.fn (c.p 0)).step % 2 ^ 32) ((s.ckSlot c.fn (c.p 0)).step / 2 ^ 32) 0 s) :=
  h.exec _

/-! ### SAVE (R278, R279) -/

/-- What a SAVE that passes its tests does: its slot is SAVING under `iv`, and the commit records of its pools are voided first. -/
def saveBegins (id iv : Nat) (c : Cmd) (b : Bytes) (s : State) : State :=
  let u := (s.setReg .ckpIvTb 0 0 iv).setCkSlot c.fn (c.p 0) { st := 1, step := 0, pools := fld b 8 8, man := [], cls := fld b 2 1, draining := false }
  let x : Save :=
    { id := id, tenant := c.fn, slot := c.p 0, phase := 2, left := (maskPools (fld b 8 8)).length, list := b, step := c.p 2, iv := iv
      shards := placeShards (maskPools (fld b 8 8)) b, sig := syncOf u c (fld b 4 4) }
  (maskPools (fld b 8 8)).foldl (fun s p => poolWrite id p c.fn (fld b 2 1) p (c.p 0) 0 (commitVoid (c.p 0)) s)
    (ckptTrace x 1 (working id { u with ckpt := { u.ckpt with saves := u.ckpt.saves ++ [x] } }))

section
variable (h : Ready s .save id c) (hread : readMem s (c.p 3) (64 + 32 * c.p 1) = (t, .ok b))
include h hread

theorem exec_save (hok : saveNo t c b (placeShards (maskPools (fld b 8 8)) b) = .ok) :
    exec (.save id) s = .next (saveBegins id (max t.now (t.reg .ckpIvTb + 1)) c b t) := by
  show execSave id s = _
  unfold execSave
  rw [h.exec]
  dsimp only
  rw [hread]
  dsimp only
  rw [hok]
  rfl

theorem exec_save_of_rank (hno : saveNo t c b (placeShards (maskPools (fld b 8 8)) b) = .rank) :
    exec (.save id) s = .next (finish0 id 0x0203 t) := by
  show execSave id s = _
  unfold execSave
  rw [h.exec]
  dsimp only
  rw [hread]
  dsimp only
  rw [hno]
  rfl

theorem exec_save_of_room (hno : saveNo t c b (placeShards (maskPools (fld b 8 8)) b) = .room) :
    exec (.save id) s = .next (finish0 id 0x0301 t) := by
  show execSave id s = _
  unfold execSave
  rw [h.exec]
  dsimp only
  rw [hread]
  dsimp only
  rw [hno]
  rfl

end

/-! ### The steps of a save (R282) -/

/-- What follows a step of a save whose writes are all acknowledged. -/
def saveGoesOn (x : Save) (id : Nat) (s : State) : State :=
  if x.phase = 2 then saveHold x (ckptTrace x 2 s)
  else if x.phase = 6 then (if x.todo = [] then ckptTrace x 7 (saveDone x (ckptTrace x 6 s)) else s)
  else if !keyServes s x.tenant (fld x.list 0 2) then saveStop x stDenied 0 0 s
  else match x.phase with
    | 3 => saveCapture x s
    | 4 => saveManifest x (ckptTrace x 4 s)
    | 5 =>
      let t := modSave id (fun y => { y with phase := 6, todo := maskPools (fld x.list 8 8) }) (ckptTrace x 5 s)
      saveCommit { x with phase := 6, todo := maskPools (fld x.list 8 8) } t
    | _ => s

section
variable {x : Save} (hrun : s.power.running = true) (hfind : findSave s id = some x)
include hrun hfind

theorem exec_saveStepDone : exec (.saveStepDone id) s = .next (if x.left ≠ 0 ∨ x.fail.isSome then s else saveGoesOn x id s) := by
  show execSaveStepDone id s = _
  unfold execSaveStepDone
  rw [run_next rfl hrun, hfind]
  rfl

theorem exec_saveStepDone_of_written (hleft : x.left = 0) (hfail : x.fail = none) : exec (.saveStepDone id) s = .next (saveGoesOn x id s) := by
  rw [exec_saveStepDone hrun hfind, if_neg (by simp [hleft, hfail])]

end

theorem saveGoesOn_of_refused {x : Save} (hphase : x.phase = 3 ∨ x.phase = 4 ∨ x.phase = 5) (hkey : keyServes s x.tenant (fld x.list 0 2) = false) :
    saveGoesOn x id s = saveStop x 0x0501 0 0 s := by
  unfold saveGoesOn
  rw [if_neg (by omega), if_neg (by omega), if_pos (by simp [hkey])]
  rfl

theorem saveGoesOn_of_capture {x : Save} (hphase : x.phase = 3) (hkey : keyServes s x.tenant (fld x.list 0 2) = true) :
    saveGoesOn x id s = saveCapture x s := by
  unfold saveGoesOn
  rw [if_neg (by omega), if_neg (by omega), if_neg (by simp [hkey]), hphase]
  rfl

theorem saveGoesOn_of_manifest {x : Save} (hphase : x.phase = 4) (hkey : keyServes s x.tenant (fld x.list 0 2) = true) :
    saveGoesOn x id s = saveManifest x (ckptTrace x 4 s) := by
  unfold saveGoesOn
  rw [if_neg (by omega), if_neg (by omega), if_neg (by simp [hkey]), hphase]
  rfl

theorem saveGoesOn_of_committed {x : Save} (hphase : x.phase = 6) (htodo : x.todo = []) :
    saveGoesOn x id s = ckptTrace x 7 (saveDone x (ckptTrace x 6 s)) := by
  unfold saveGoesOn
  rw [if_neg (by omega), if_pos hphase, if_pos htodo]

/-! ### RESTORE (R284) -/

section
variable (h : Ready s .restore id c)
  (hgranted : listGranted s c.fn (manList (s.ckSlot c.fn (c.p 0)).man) = true)
  (hstage : stageNeed (manSizes (s.ckSlot c.fn (c.p 0)).man) ≤ stageSize s c.fn →
    stageGranted s c.fn (stageNeed (manSizes (s.ckSlot c.fn (c.p 0)).man)) = true)
include h hgranted hstage

theorem exec_restore_of_other_state (hvalid : (s.ckSlot c.fn (c.p 0)).st ≠ 2) (hdraining : (s.ckSlot c.fn (c.p 0)).st ≠ 4) :
    exec (.restore id) s = .next (finish id 0x0201 (0x0E + c.p 0 * 256) (s.ckSlot c.fn (c.p 0)).st 0 0 s) := by
  show execRestore id s = _
  unfold execRestore
  rw [h.exec]
  dsimp only
  rw [if_neg (by rw [hgranted]; simpa using hstage), if_pos ⟨hvalid, hdraining⟩]
  rfl

/-- The restore that a RESTORE begins. -/
def restoreOf (s : State) (id : Nat) (c : Cmd) (b : Bytes) : Restore :=
  { id := id, tenant := c.fn, slot := c.p 0, phase := 0, step := c.p 1, sig := sha3 b, cand := maskPools (s.ckSlot c.fn (c.p 0)).pools }

omit hstage in
theorem exec_restore (hst : (s.ckSlot c.fn (c.p 0)).st = 2 ∨ (s.ckSlot c.fn (c.p 0)).st = 4)
    (hclosed : listOpen s (manList (s.ckSlot c.fn (c.p 0)).man) = none)
    (hroom : stageNeed (manSizes (s.ckSlot c.fn (c.p 0)).man) ≤ stageSize s c.fn)
    (hreach : stageGranted s c.fn (stageNeed (manSizes (s.ckSlot c.fn (c.p 0)).man)) = true)
    (hread : readMem s (c.p 2) (shapeLen s (c.p 2)) = (t, .ok b)) :
    exec (.restore id) s = .next (restTry (restoreOf s id c b) (working id
      (let u := t.setCkSlot c.fn (c.p 0) { s.ckSlot c.fn (c.p 0) with st := 3 }
       { u with ckpt := { u.ckpt with rests := u.ckpt.rests ++ [restoreOf s id c b] } }))) := by
  show execRestore id s = _
  unfold execRestore
  rw [h.exec]
  dsimp only
  rw [if_neg (by rw [hgranted, hreach]; simp), if_neg (by omega), hclosed]
  dsimp only
  rw [if_neg (by omega), hread]
  rfl

end

theorem exec_restoreStageDone_of_written {x : Restore} {n : Nat} (hrun : s.power.running = true) (hfind : findRest s id = some x)
    (hphase : x.phase = 3)
    (hwrite : restWrite x (manList x.man) (manSizes x.man) (List.range (listCount (manList x.man))) 0 s = (t, n, none)) :
    exec (.restoreStageDone id) s = .next (restEnd x 0x0000 (manShards x.man) (x.step % 2 ^ 32) (x.step / 2 ^ 32) t) := by
  show execRestoreStageDone id s = _
  unfold execRestoreStageDone
  rw [run_next rfl hrun, hfind]
  dsimp only
  rw [if_neg (by simp [hphase]), hwrite]
  rfl

theorem exec_restoreStageDone_of_uncorrectable {x : Restore} {n e : Nat} (hrun : s.power.running = true) (hfind : findRest s id = some x)
    (hphase : x.phase = 3)
    (hwrite : restWrite x (manList x.man) (manSizes x.man) (List.range (listCount (manList x.man))) 0 s = (t, n, some e)) :
    exec (.restoreStageDone id) s = .next (restEnd x 0x0401 n 0 0 t) := by
  show execRestoreStageDone id s = _
  unfold execRestoreStageDone
  rw [run_next rfl hrun, hfind]
  dsimp only
  rw [if_neg (by simp [hphase]), hwrite]
  rfl

/-! ### DRAIN (R287) -/

theorem exec_drain {x : DrainJob} (h : Ready s .drain id c) (hst : (s.ckSlot c.fn (c.p 0)).st = 2) (hvol : (s.vol (c.p 1)).st = 2)
    (htenant : (s.vol (c.p 1)).tenant = c.fn) (hroom : drainBytes s c.fn (s.ckSlot c.fn (c.p 0)) ≤ (s.vol (c.p 1)).blocks * 4096)
    (hx : x = { id := id, tenant := c.fn, slot := c.p 0, vol := c.p 1, todo := drainPieces s c.fn (c.p 0) (s.ckSlot c.fn (c.p 0)) }) :
    exec (.drain id) s = .next (drainNext x (working id
      (let u := s.setCkSlot c.fn (c.p 0) { s.ckSlot c.fn (c.p 0) with st := 4, draining := true }
       { u with ckpt := { u.ckpt with drains := u.ckpt.drains ++ [x] } }))) := by
  show execDrain id s = _
  unfold execDrain
  rw [h.exec]
  dsimp only
  rw [if_neg (by simp [hst]), if_neg (by simp [hvol, htenant]), if_neg (by omega), hx]

theorem exec_drainDone {x : DrainJob} (hrun : s.power.running = true) (hfind : (s.ckpt.drains.find? fun x => x.id == id) = some x) (htodo : x.todo = [])
    (hwrite : x.write = none) (hok : x.st = 0x0000) (hst : (s.ckSlot x.tenant x.slot).st = 4) :
    exec (.drainDone id) s = .next (finish id 0x0000 x.r0 x.r1 0 0
      (State.setCkSlot { s with ckpt := { s.ckpt with drains := s.ckpt.drains.filter fun y => y.id != id } } x.tenant x.slot
        { s.ckSlot x.tenant x.slot with st := 2, draining := false })) := by
  show execDrainDone id s = _
  unfold execDrainDone
  rw [run_next rfl hrun, hfind]
  dsimp only
  rw [if_neg (by simp [htodo, hwrite]), if_pos hst, hok]
  rfl

/-! ### RANK_TAKE (R292) -/

/-- A RANK_TAKE begins: the rank and the signature are kept, and every pool is asked for the commit records of both slots. -/
def rankTakes (id : Nat) (c : Cmd) (b : Bytes) (s : State) : State :=
  let u := State.setReg { s with ckpt := { s.ckpt with
    ranks := tput none s.ckpt.ranks c.fn (some (c.p 0)), sigs := tput [] s.ckpt.sigs c.fn (sha3 b) } } .ckpRank c.fn 0 (c.p 0)
  let n := (poolsOf s c.fn).length
  let x : TakeJob := { id := id, tenant := c.fn, rank := c.p 0, sig := sha3 b, phase := if n = 0 then 1 else 0, left := 2 * n }
  (List.range 2).foldl (fun s slot => (List.range n).foldl (fun s p => poolRead id (slot * 64 + p) c.fn 0 p slot 0 128 s) s)
    (working id { u with ckpt := { u.ckpt with takes := u.ckpt.takes ++ [x] } })

theorem exec_rankTake (h : Ready s .rankTake id c) (hfirst : (s.ckSlot c.fn 0).st = 0) (hsecond : (s.ckSlot c.fn 1).st = 0)
    (hread : readMem s (c.p 1) (shapeLen s (c.p 1)) = (t, .ok b)) : exec (.rankTake id) s = .next (rankTakes id c b t) := by
  show execRankTake id s = _
  unfold execRankTake
  rw [h.exec]
  dsimp only
  rw [if_neg (by simp [hfirst]), if_neg (by simp [hsecond]), hread]
  rfl

/-- A slot after the discovery of its newest record, or of none. -/
def adoptSlot (x : TakeJob) (slot : Nat) (g : Option (Bytes × Bytes)) (s : State) : State :=
  let r : Reg := if slot = 0 then .ckpStepA else .ckpStepB
  match g with
  | some (b, m) =>
    (s.setCkSlot x.tenant slot { st := 2, step := fld b 8 8, pools := fld m 40 8, man := m, cls := 0, draining := false }).setReg r x.tenant 0 (fld b 8 8)
  | none => (s.setCkSlot x.tenant slot {}).setReg r x.tenant 0 0

section
variable {x : TakeJob} {u : State} (hrun : s.power.running = true) (hfind : (s.ckpt.takes.find? fun x => x.id == id) = some x) (hphase : x.phase = 1)
  (hleft : x.left = 0) (hu : u = { s with ckpt := { s.ckpt with takes := s.ckpt.takes.filter fun y => y.id != id } })
include hrun hfind hphase hleft hu

theorem exec_rankTakeDiscovered_of_failed (hst : x.st ≠ 0x0000) : exec (.rankTakeDiscovered id) s = .next (finish0 id x.st u) := by
  show execRankTakeDiscovered id s = _
  unfold execRankTakeDiscovered
  rw [run_next rfl hrun, hfind]
  dsimp only
  rw [if_neg (by simp [hphase, hleft]), ← hu]
  exact congrArg _ (if_pos hst)

theorem exec_rankTakeDiscovered (hst : x.st = 0x0000)
    (hshape : ¬(takeFound x ≠ [] ∧ (takeFound x).all (fun k => slice (tget [] x.man k) 64 64 != x.sig) = true)) :
    exec (.rankTakeDiscovered id) s = .next (finish id stOk
      ((if (newest (adoptable x 0)).isSome then 1 else 0) + (if (newest (adoptable x 1)).isSome then 2 else 0))
      ((([newest (adoptable x 0), newest (adoptable x 1)].filterMap fun g => g.map fun p => fld p.1 8 8).foldl max 0) % 2 ^ 32)
      ((([newest (adoptable x 0), newest (adoptable x 1)].filterMap fun g => g.map fun p => fld p.1 8 8).foldl max 0) / 2 ^ 32) 0
      (adoptSlot x 1 (newest (adoptable x 1)) (adoptSlot x 0 (newest (adoptable x 0)) u))) := by
  have hok : ¬x.st ≠ stOk := fun hbad => hbad hst
  show execRankTakeDiscovered id s = _
  unfold execRankTakeDiscovered
  rw [run_next rfl hrun, hfind]
  dsimp only
  rw [if_neg (by simp [hphase, hleft]), ← hu, if_neg hok, if_neg hshape]
  rfl

end

theorem adoptable_of_none_found {x : TakeJob} (hnone : takeFound x = []) (slot : Nat) : adoptable x slot = [] := by
  simp [adoptable, hnone]

/-! ### Staging registers (R288) -/

section
variable {who tn : Nat} (hrun : s.power.running = true) (hwho : who < 19) (htn : tn < 16) (hown : who = tn ∨ 16 ≤ who)
include hrun hwho htn hown

theorem exec_stageWrite_of_idle (val : Word) (hfirst : (s.ckSlot tn 0).st = 0) (hsecond : (s.ckSlot tn 1).st = 0) :
    exec (.stageWrite who tn 0x18 val) s = .next (s.setField .ckpStageBase tn 0 31 21 (val.toNat / 2 ^ 21)) ∧
      exec (.stageWrite who tn 0x24 val) s = .next (s.setField .ckpStageBytes tn 0 41 32 val.toNat) := by
  have hinstances : ∀ off, off = 0x18 ∨ off = 0x24 →
      (decide (who < 19) && decide (tn < 16) && (off == 0x18 || off == 0x1C || off == 0x20 || off == 0x24)) = true := by
    rintro off (rfl | rfl) <;> simp [hwho, htn]
  have hwriter : (who == tn || decide (16 ≤ who)) = true := by simpa using hown
  have hidle : ¬(((s.ckSlot tn 0).st == 1 || (s.ckSlot tn 0).st == 3) || ((s.ckSlot tn 1).st == 1 || (s.ckSlot tn 1).st == 3)) = true := by
    simp [hfirst, hsecond]
  exact ⟨(run_onlyIf_of_true (hinstances 0x18 (.inl rfl)) hrun hwriter).trans (congrArg _ (if_neg hidle)),
    (run_onlyIf_of_true (hinstances 0x24 (.inr rfl)) hrun hwriter).trans (congrArg _ (if_neg hidle))⟩

theorem exec_stageWrite_of_saving (val : Word) (hst : (s.ckSlot tn 0).st = 1) : exec (.stageWrite who tn 0x18 val) s = .next (ckptErr tn 32 s) := by
  have hinstances : (decide (who < 19) && decide (tn < 16) && ((0x18 == 0x18 || 0x18 == 0x1C) || 0x18 == 0x20 || 0x18 == 0x24)) = true := by
    simp [hwho, htn]
  have hwriter : (who == tn || decide (16 ≤ who)) = true := by simpa using hown
  have hbusy : (((s.ckSlot tn 0).st == 1 || (s.ckSlot tn 0).st == 3) || ((s.ckSlot tn 1).st == 1 || (s.ckSlot tn 1).st == 3)) = true := by
    simp [hst]
  exact (run_onlyIf_of_true hinstances hrun hwriter).trans (congrArg _ (if_pos hbusy))

end

end

/-- Settles O39, command by command; what a save does next is read off its phase by `saveGoesOn`. -/
theorem checkpoints : Obligations.Checkpoints := by
  unfold Obligations.Checkpoints
  intro s t id c b
  refine ⟨exec_poolAdd, exec_poolAdd_of_full, fun h hread => ⟨fun u x iv hok hiv hu hx => ?_, exec_save_of_rank h hread, exec_save_of_room h hread⟩,
    fun hrun => ⟨fun x hfind hwaits => ?_, fun x hfind hleft hfail hphase => ?_, fun x hfind hleft hfail hphase htodo => ?_,
      fun x hfind hleft hfail hkey => ⟨fun hphase => ?_, fun hphase => ?_⟩, fun x hfind hleft hfail hphase hkey => ?_,
      fun x n hfind hphase hwrite => exec_restoreStageDone_of_written hrun hfind hphase hwrite,
      fun x n a hfind hphase hwrite => exec_restoreStageDone_of_uncorrectable hrun hfind hphase hwrite,
      fun x hfind htodo hwrite hok hst => exec_drainDone hrun hfind htodo hwrite hok hst,
      fun x u hfind hphase hleft hu => ⟨exec_rankTakeDiscovered_of_failed hrun hfind hphase hleft hu, fun hst hnone => ?_, fun p hst hfirst hsecond hshape => ?_⟩,
      fun who tn val hwho htn hown hfirst hsecond => exec_stageWrite_of_idle hrun hwho htn hown val hfirst hsecond,
      fun who tn val hwho htn hown hst => exec_stageWrite_of_saving hrun hwho htn hown val hst⟩,
    fun h hvalid hdraining hgranted hstage => exec_restore_of_other_state h hgranted hstage hvalid hdraining,
    fun u x l h hst hl hgranted hclosed hroom hreach hread hu hx => ?_,
    fun x h hst hvol htenant hroom hx => exec_drain h hst hvol htenant hroom hx, exec_slotStatus,
    fun u n x h hfirst hsecond hread hu hn hx => ?_⟩
  · rw [exec_save h hread hok, ← hiv, saveBegins]
    dsimp only
    rw [← hu, ← hx]
  · rw [exec_saveStepDone hrun hfind, if_pos hwaits]
  · rw [exec_saveStepDone_of_written hrun hfind hleft hfail, saveGoesOn, if_pos hphase]
  · rw [exec_saveStepDone_of_written hrun hfind hleft hfail, saveGoesOn_of_committed hphase htodo]
  · rw [exec_saveStepDone_of_written hrun hfind hleft hfail, saveGoesOn_of_capture hphase hkey]
  · rw [exec_saveStepDone_of_written hrun hfind hleft hfail, saveGoesOn_of_manifest hphase hkey]
  · rw [exec_saveStepDone_of_written hrun hfind hleft hfail, saveGoesOn_of_refused hphase hkey]
  · rw [exec_rankTakeDiscovered hrun hfind hphase hleft hu hst (by simp [hnone]), adoptable_of_none_found hnone, adoptable_of_none_found hnone]
    rfl
  · rw [exec_rankTakeDiscovered hrun hfind hphase hleft hu hst (by simp [hshape]), hfirst, hsecond]
    obtain ⟨q, m⟩ := p
    show Host.Outcome.next (finish id stOk 1 (max 0 (fld q 8 8) % 2 ^ 32) (max 0 (fld q 8 8) / 2 ^ 32) 0 _) = _
    rw [Nat.zero_max]
    rfl
  · subst hl
    rw [exec_restore h hgranted hst hclosed hroom hreach hread, hu, hx]
    rfl
  · rw [exec_rankTake h hfirst hsecond hread, rankTakes]
    dsimp only
    rw [← hu, ← hn, ← hx]
end Sys2Proof.Machine
end

section
/-! PROOFS. Flits, acknowledgements and replay of seam links (R319 to R323). -/
namespace Sys2Proof.Machine

open Sys2Proof

section
variable {s : State} {l : Nat}

/-! ### DATA flits (R319, R320) -/

/-- What the receiver of an UP link does with a DATA or IDLE flit. -/
def dataFlit (l : Nat) (fec : Bool) (flit : Bytes) (s : State) : State :=
  let readable := fec && flit.length == 256 && fld flit 252 4 == crc32c (flit.take 252)
  let seq := bits (fld flit 0 4) 13 2
  if readable && (fld flit 0 4 % 4 == 0 || fld flit 0 4 % 4 == 2) then (if flitGood fec flit then s else s.count .seamCrc l 0 1)
  else if flitGood fec flit && seq == (s.link l).rxSeq then ctrlSlot l (s.setLink l { s.link l with rxSeq := ((s.link l).rxSeq + 1) % 4096 })
  else if flitGood fec flit && decide (((s.link l).rxSeq + 4096 - seq) % 4096 ≤ 512) then s
  else sendCtrl l true s

theorem exec_seamDataFlit (fec : Bool) (flit : Bytes) (hrun : s.power.running = true) (hl : l < 24) (hup : (s.link l).st = .up) :
    exec (.seamDataFlit l fec flit) s = .next (dataFlit l fec flit s) :=
  run_onlyIf_of_true (decide_eq_true hl) hrun (by rw [hup]; rfl)

theorem dataFlit_of_data {flit : Bytes} (hgood : flitGood true flit = true) (hkind : fld flit 0 4 % 4 = 1) :
    dataFlit l true flit s =
      if bits (fld flit 0 4) 13 2 = (s.link l).rxSeq then ctrlSlot l (s.setLink l { s.link l with rxSeq := ((s.link l).rxSeq + 1) % 4096 })
      else if ((s.link l).rxSeq + 4096 - bits (fld flit 0 4) 13 2) % 4096 ≤ 512 then s
      else sendCtrl l true s := by
  simp [dataFlit, hgood, hkind]

theorem dataFlit_of_idle {flit : Bytes} (hgood : flitGood true flit = true) (hkind : fld flit 0 4 % 4 = 0) : dataFlit l true flit s = s := by
  have hreadable : (true && flit.length == 256 && fld flit 252 4 == crc32c (flit.take 252)) = true := by
    simp only [flitGood, Bool.and_eq_true] at hgood
    simp [hgood]
  unfold dataFlit
  dsimp only
  rw [if_pos (by rw [hreadable, hkind]; rfl), if_pos hgood]

theorem dataFlit_of_unreadable (flit : Bytes) : dataFlit l false flit s = sendCtrl l true s := by
  simp [dataFlit, flitGood]

/-! ### CTRL flits (R321, R322) -/

/-- What a good CTRL flit leaves before its NAK is looked at: what it acknowledges is out of the buffer, its credits and times are taken. -/
def ctrlTaken (l : Nat) (flit : CtrlFlit) (s : State) : State :=
  let u := ackFlits l flit.ack s
  u.setLink l { u.link l with
    credits := flit.credits.take 3
    skew := (u.link l).t1.elim (u.link l).skew fun t1 => some (skewOf t1 flit.arrived flit.left u.tb.master.toNat)
    t4 := some u.tb.master.toNat }

/-- What the NAK of a flit in the buffer does. -/
def ctrlNak (l n : Nat) (s : State) : State :=
  let w := ackFlits l ((n + 4095) % 4096) s
  if (w.link l).buf.any fun f => decide (16 ≤ f.sends) then startRetrain l w
  else resend l n ((w.count .seamReplay l 0 1).countTv 3 1)

section
variable {flit : CtrlFlit} (hrun : s.power.running = true) (hl : l < 24) (hup : (s.link l).st = .up)
include hrun hl hup

theorem exec_seamCtrlFlit_of_bad (hbad : ctrlOk flit = false) : exec (.seamCtrlFlit l flit) s = .next (s.count .seamCrc l 0 1) :=
  (run_onlyIf_of_true (decide_eq_true hl) hrun (by rw [hup]; rfl)).trans (congrArg _ (if_pos (by rw [hbad]; rfl)))

theorem exec_seamCtrlFlit_of_no_nak (hok : ctrlOk flit = true) (hnak : flit.nak = none) :
    exec (.seamCtrlFlit l flit) s = .next (bundlesGo (ctrlSlot l (linkGo l (ctrlTaken l flit s)))) := by
  show execSeamCtrlFlit l flit s = _
  unfold execSeamCtrlFlit
  rw [run_onlyIf_of_true (decide_eq_true hl) hrun (by rw [hup]; rfl), if_neg (by rw [hok]; decide)]
  dsimp only
  rw [hnak]
  rfl

theorem exec_seamCtrlFlit_of_nak {n : Nat} (hok : ctrlOk flit = true) (hnak : flit.nak = some n)
    (hheld : ((ctrlTaken l flit s).link l).buf.any (fun f => f.seq == n) = true) :
    exec (.seamCtrlFlit l flit) s = .next (bundlesGo (ctrlSlot l (linkGo l (ctrlNak l n (ctrlTaken l flit s))))) := by
  show execSeamCtrlFlit l flit s = _
  unfold execSeamCtrlFlit
  rw [run_onlyIf_of_true (decide_eq_true hl) hrun (by rw [hup]; rfl), if_neg (by rw [hok]; decide)]
  dsimp only
  rw [hnak]
  dsimp only
  unfold ctrlTaken at hheld ⊢
  dsimp only at hheld ⊢
  rw [if_pos hheld]
  rfl

end

theorem ctrlNak_of_few_sends {n : Nat} (hfew : ((ackFlits l ((n + 4095) % 4096) s).link l).buf.any (fun f => decide (16 ≤ f.sends)) = false) :
    ctrlNak l n s = resend l n (((ackFlits l ((n + 4095) % 4096) s).count .seamReplay l 0 1).countTv 3 1) := by
  unfold ctrlNak
  dsimp only
  rw [if_neg (by rw [hfew]; decide)]

/-! ### Retrains (R322, R323) -/

theorem exec_seamAckTimeout (hrun : s.power.running = true) (hl : l < 24) :
    exec (.seamAckTimeout l) s = .next (onlyIf ((s.link l).st == .up && (s.link l).buf != [] && decide ((s.link l).acked + 100 * usTicks ≤ s.tb.ticks))
      (startRetrain l) s) :=
  run_next (decide_eq_true hl) hrun

theorem devInst_of_allowed {who d : Nat} {f : State → State} (hallowed : who = 18 ∨ tget 0 s.own.devs d ≠ 0) : devInst who d f s = f s :=
  if_neg fun hbad => hallowed.elim hbad.1 fun hworld => hworld hbad.2

theorem exec_seamRetrainWrite {who : Nat} (val : Word) (hrun : s.power.running = true) (hl : l < 24) (hwho : who < 19)
    (hallowed : who = 18 ∨ tget 0 s.own.devs 0x0A ≠ 0) :
    exec (.seamRetrainWrite who l val) s = .next (onlyIf (seamWriter who && bit val.toNat 1 && (s.link l).st == .up) (startRetrain l) s) ∧
      exec (.seamRewidenWrite who l val) s = .next (onlyIf (seamWriter who && bit val.toNat 2 && (s.link l).st == .up) (rewiden l) s) := by
  have hinstances : (decide (who < 19) && decide (l < 24)) = true := by simp [hwho, hl]
  exact ⟨(run_next hinstances hrun).trans (congrArg _ (devInst_of_allowed hallowed)),
    (run_next hinstances hrun).trans (congrArg _ (devInst_of_allowed hallowed))⟩

theorem seam_count (s : State) (r : Reg) (i j n : Nat) : (s.count r i j n).seam = s.seam := by
  obtain ⟨v, hv⟩ := count_eq_setReg s r i j n
  rw [hv]
  rfl

theorem tb_count (s : State) (r : Reg) (i j n : Nat) : (s.count r i j n).tb = s.tb := by
  obtain ⟨v, hv⟩ := count_eq_setReg s r i j n
  rw [hv]
  rfl

/-- The counts of a retrain. -/
def retrainCounted (l : Nat) (s : State) : State := ((s.count .seamReplay l 0 1).countTv 3 1).count .seamRetrain l 0 1

theorem link_retrainCounted (l : Nat) (s : State) : (retrainCounted l s).link l = s.link l := by
  unfold State.link retrainCounted State.countTv
  rw [seam_count, seam_count, seam_count]

theorem tb_retrainCounted (l : Nat) (s : State) : (retrainCounted l s).tb = s.tb := by
  unfold retrainCounted State.countTv
  rw [tb_count, tb_count, tb_count]

/-- A retrain after its counts. -/
def retrainBegins (l : Nat) (s : State) : State :=
  let t := s.setLink l { s.link l with st := .retrain, cause := s.tb.ticks, attempt := s.tb.ticks, deal := dealing s (linkMap s l).1 }
  if linkOn t l then bundleGo (linkMap t l).1 t else t

theorem startRetrain_eq : startRetrain l s = retrainBegins l (retrainCounted l s) := rfl

theorem linkOn_setLink (s : State) (n : Nat) (x : Link) : linkOn (s.setLink n x) l = linkOn s l := rfl

/-- The retrain of a link that is in no bundle of the board is the link's alone. -/
theorem retrainBegins_of_off_board (hoff : linkOn s l = false) :
    retrainBegins l s = s.setLink l { s.link l with
      st := .retrain, cause := s.tb.ticks, attempt := s.tb.ticks, deal := dealing s (linkMap s l).1 } := by
  unfold retrainBegins
  dsimp only
  rw [if_neg (by rw [linkOn_setLink, hoff]; decide)]

end

/-- Settles O40. When CTRL flits leave, and that a flit whose header cannot be read is answered with a NAK as a DATA flit, are the model's choices
(log entry 112). -/
theorem seam_Flits : Obligations.Seam_Flits := by
  unfold Obligations.Seam_Flits
  rintro s u l x hrun hl rfl hup
  refine ⟨fun flit hgood hkind => ⟨fun hnext => ?_, fun hother hold => ?_, fun hother hfar => ?_⟩, fun flit hgood hkind => ?_, fun flit => ?_,
    fun flit hbad => exec_seamCtrlFlit_of_bad hrun hl hup hbad, fun flit v hok hu hv => ⟨fun hnak => ?_, fun n w hnak hheld hw hfew => ?_⟩,
    fun hbuf hlate => ?_, fun hbuf => ?_, fun hearly => ?_, run_onlyIf_of_true (decide_eq_true hl) hrun (by rw [hup]; rfl),
    run_onlyIf_of_true (decide_eq_true hl) hrun (by rw [hup]; rfl), fun who val hwho => ?_, fun who val hwho hworld => ?_, fun hu hoff => ?_⟩
  · rw [exec_seamDataFlit true flit hrun hl hup, dataFlit_of_data hgood hkind, if_pos hnext]
  · rw [exec_seamDataFlit true flit hrun hl hup, dataFlit_of_data hgood hkind, if_neg hother, if_pos hold]
  · rw [exec_seamDataFlit true flit hrun hl hup, dataFlit_of_data hgood hkind, if_neg hother, if_neg (by omega)]
  · rw [exec_seamDataFlit true flit hrun hl hup, dataFlit_of_idle hgood hkind]
  · rw [exec_seamDataFlit false flit hrun hl hup, dataFlit_of_unreadable]
  · subst hu
    obtain rfl : v = ctrlTaken l flit s := hv
    rw [exec_seamCtrlFlit_of_no_nak hrun hl hup hok hnak]
  · subst hu hw
    obtain rfl : v = ctrlTaken l flit s := hv
    rw [exec_seamCtrlFlit_of_nak hrun hl hup hok hnak hheld, ctrlNak_of_few_sends hfew]
  · rw [exec_seamAckTimeout hrun hl, onlyIf_true (by simp [hup, hbuf, hlate])]
  · rw [exec_seamAckTimeout hrun hl, onlyIf_false (by simp [hbuf])]
  · rw [exec_seamAckTimeout hrun hl, onlyIf_false (by simp; omega)]
  · obtain ⟨hretrain, hrewiden⟩ := exec_seamRetrainWrite val hrun hl (by omega : who < 19) (by omega)
    have hwriter : seamWriter who = true := decide_eq_true (by omega)
    rw [hretrain, hrewiden]
    exact ⟨fun hbit => by rw [onlyIf_true (by simp [hwriter, hbit, hup])], fun hbit => by rw [onlyIf_true (by simp [hwriter, hbit, hup])]; rfl⟩
  · obtain ⟨hretrain, hrewiden⟩ := exec_seamRetrainWrite val hrun hl (by omega : who < 19) (.inr hworld)
    have hwriter : seamWriter who = false := decide_eq_false (by omega)
    rw [hretrain, hrewiden, onlyIf_false (by simp [hwriter]), onlyIf_false (by simp [hwriter])]
    exact ⟨rfl, rfl⟩
  · obtain rfl : u = retrainCounted l s := hu
    rw [startRetrain_eq, retrainBegins_of_off_board hoff, link_retrainCounted, tb_retrainCounted]
end Sys2Proof.Machine
end

section
/-! PROOFS. Training and state of seam links (R323 to R325, R332, R335, R337). -/
namespace Sys2Proof.Machine

open Sys2Proof

section
variable {s u v : State} {l : Nat}

/-! ### A write of a link, twice -/

theorem setLink_setLink (s : State) (l : Nat) (x y : Link) : (s.setLink l x).setLink l y = s.setLink l y := by
  unfold State.setLink
  rw [tput_tput]

/-! ### Training begins (R323, R332, R335) -/

theorem exec_seamEnableWrite (val : Word) (cable : Bytes) (hrun : s.power.running = true) (hl : l < 24) :
    exec (.seamEnableWrite 18 l val cable) s = .next
      (let t := s.setReg .seamCtrl l 0 (bits val.toNat 0 0)
       if bit val.toNat 0 then (if (t.link l).st == .disabled then startTraining l cable t else t) else linkStop l .disabled t) := by
  have hinstances : (decide (18 < 19) && decide (l < 24)) = true := by simp [hl]
  exact run_next hinstances hrun

theorem startTraining_of_accepted {cable : Bytes} (hmapped : linkOn s l = true ∨ linkOff s l = true)
    (hcable : linkOff s l = true → cableOk cable = true) :
    startTraining l cable s = s.setLink l { s.link l with st := .training, attempt := s.tb.ticks, cable := cable, lanes := 0xF, widen := true } := by
  have hgood : ¬(linkOff s l = true ∧ cableOk cable = false) := by
    rintro ⟨hoff, hbad⟩
    simp [hcable hoff] at hbad
  exact (if_neg hgood).trans (if_pos hmapped.symm)

theorem startTraining_of_bad_cable {cable : Bytes} (hoff : linkOff s l = true) (hcable : cableOk cable = false) :
    startTraining l cable s =
      stickyRec 1 none 0 .seamErr l 0 8 (s.setLink l { s.link l with st := .down, retry := s.tb.ticks + 100 * msTicks }) :=
  if_pos ⟨hoff, hcable⟩

/-! ### Lanes have trained (R323) -/

/-- A link that is up again sends again from the oldest flit in its buffer. -/
def replayFrom (l : Nat) (s : State) : State := match (s.link l).buf with | f :: _ => resend l f.seq s | [] => s

theorem exec_seamTrained {lanes m : Nat} (hrun : s.power.running = true) (hl : l < 24)
    (hpick : pickLanes ((s.link l).widen || (s.link l).lanes == 15) lanes = some m) :
    exec (.seamTrained l lanes) s = .next
      (if (s.link l).st = .training then send (.ident l (myIdent s l)) (setLanes l m (s.setLink l { s.link l with st := .check }))
       else if (s.link l).st = .retrain ∧ s.tb.ticks < (s.link l).cause + 50 * msTicks then
        let t := setLanes l m (s.setLink l { s.link l with st := .up, acked := s.tb.ticks })
        bundlesGo (markUp l (linkGo l (replayFrom l t)))
       else s) := by
  show execSeamTrained l lanes s = _
  unfold execSeamTrained
  rw [run_next (decide_eq_true hl) hrun]
  dsimp only
  rw [hpick]
  rfl

/-- A link with fewer lanes than all sets ERR bit 0. -/
theorem setLanes_setLink (m : Nat) (y : Link) :
    setLanes l m (s.setLink l y) =
      let v := s.setLink l { y with lanes := m, widen := false }
      if m = 15 then v else v.orReg .seamErr l 0 1 := by
  unfold setLanes
  dsimp only
  rw [link_setLink, setLink_setLink]

theorem link_setLanes_setLink (m : Nat) (y : Link) : (setLanes l m (s.setLink l y)).link l = { y with lanes := m, widen := false } := by
  rw [setLanes_setLink]
  dsimp only
  split
  · rw [link_setLink]
  · exact link_setLink s l _

theorem replayFrom_of_nil (hbuf : (s.link l).buf = []) : replayFrom l s = s := by
  unfold replayFrom
  rw [hbuf]

theorem replayFrom_of_cons {f : Flit} {r : List Flit} (hbuf : (s.link l).buf = f :: r) : replayFrom l s = resend l f.seq s := by
  unfold replayFrom
  rw [hbuf]

/-! ### The check of the peer (R324, R325) -/

/-- The peer is the one that the board's record names, or another device on a cable. -/
def peerNamed (s : State) (l : Nat) (p : SeamIdent) : Bool :=
  if linkOn s l then p.serial == fld s.seam.board 12 8 && p.pos == (linkMap s l).1 && p.link == (linkMap s l).2
  else p.cable == fld (s.link l).cable 8 8 && p.tip != fld (s.link l).cable 16 1 && (boardPeer s p.fdid).isNone && p.fdid != myFdid s

/-- A link that its check has brought up. -/
def checkedUp (s : State) (x : Link) : Link :=
  { x with
    st := .up, wasUp := true, acked := s.tb.ticks, credits := []
    txSeq := if x.wasUp then x.txSeq else 0, rxSeq := if x.wasUp then x.rxSeq else 0, buf := []
    wait := [], t1 := none, t4 := none, skew := none, slot := 0, ctrlAt := s.tb.ticks }

theorem exec_seamCheckDone (p : SeamIdent) (hrun : s.power.running = true) (hl : l < 24) (hst : (s.link l).st = .check) :
    exec (.seamCheckDone l p) s = .next
      (if peerNamed s l p then
        let t := s.setLink l (checkedUp s (s.link l))
        markUp l (if linkOff s l then t.setReg .seamPeerFdid l 0 p.fdid else t)
       else linkDown l (stickyRec 1 none 0 .seamErr l 0 4 s)) :=
  run_onlyIf_of_true (decide_eq_true hl) hrun (by rw [hst]; rfl)

theorem peerNamed_of_named {p : SeamIdent}
    (h : (linkOn s l = true ∧ p.serial = fld s.seam.board 12 8 ∧ p.pos = (linkMap s l).1 ∧ p.link = (linkMap s l).2) ∨
      (linkOn s l = false ∧ p.cable = fld (s.link l).cable 8 8 ∧ p.tip ≠ fld (s.link l).cable 16 1 ∧ boardPeer s p.fdid = none ∧ p.fdid ≠ myFdid s)) :
    peerNamed s l p = true := by
  unfold peerNamed
  rcases h with ⟨hon, hserial, hpos, hlink⟩ | ⟨hoff, hcable, htip, hpeer, hfdid⟩
  · simp [hon, hserial, hpos, hlink]
  · simp [hoff, hcable, htip, hpeer, hfdid]

theorem peerNamed_of_other_board {p : SeamIdent} (hon : linkOn s l = true) (hserial : p.serial ≠ fld s.seam.board 12 8) :
    peerNamed s l p = false := by
  simp [peerNamed, hon, hserial]

/-! ### Timeouts and retries (R323) -/

theorem exec_seamTrainTimeout_of_training (hrun : s.power.running = true) (hl : l < 24) (hst : (s.link l).st = .training)
    (hlate : (s.link l).attempt + 10 * msTicks ≤ s.tb.ticks) : exec (.seamTrainTimeout l) s = .next (linkDown l s) :=
  (run_onlyIf_of_true (decide_eq_true hl) hrun (decide_eq_true hlate)).trans (congrArg _ (if_pos hst))

theorem exec_seamTrainTimeout_of_early (hrun : s.power.running = true) (hl : l < 24) (hearly : s.tb.ticks < (s.link l).attempt + 10 * msTicks) :
    exec (.seamTrainTimeout l) s = .next s :=
  run_onlyIf_of_false (decide_eq_true hl) hrun (decide_eq_false (by omega))

theorem exec_seamRetrainTimeout (hrun : s.power.running = true) (hl : l < 24) :
    exec (.seamRetrainTimeout l) s =
      .next (onlyIf ((s.link l).st == .retrain && decide ((s.link l).cause + 50 * msTicks ≤ s.tb.ticks)) (linkDown l) s) :=
  run_next (decide_eq_true hl) hrun

theorem exec_seamRetryInterval (cable : Bytes) (hrun : s.power.running = true) (hl : l < 24) :
    exec (.seamRetryInterval l cable) s = .next
      (onlyIf ((s.link l).st == .down && bit (s.reg .seamCtrl l) 0 && decide ((s.link l).retry ≤ s.tb.ticks)) (startTraining l cable) s) :=
  run_next (decide_eq_true hl) hrun

/-! ### The offset to the peer (R337) -/

section
variable (hrun : s.power.running = true) (hl : l < 24) (hup : (s.link l).st = .up) (hdue : (s.link l).sample ≤ s.tb.ticks)
include hrun hl hup hdue

theorem exec_tbSkewSample_of_none (hnone : (s.link l).skew = none) :
    exec (.tbSkewSample l) s = .next (s.setLink l { s.link l with sample := s.tb.ticks + msTicks }) := by
  show execTbSkewSample l s = _
  unfold execTbSkewSample
  rw [run_onlyIf_of_true (decide_eq_true hl) hrun (by rw [hup, decide_eq_true hdue]; rfl)]
  dsimp only
  rw [hnone]

theorem exec_tbSkewSample_of_unlimited {d : Int} (hskew : (s.link l).skew = some d) (hlimit : s.reg .seamTbLimit = 0) :
    exec (.tbSkewSample l) s =
      .next ((s.setLink l { s.link l with sample := s.tb.ticks + msTicks }).setReg .seamSkew l 0 (wrapInt 32 d)) := by
  have haddr : regAddr .seamTbLimit 0 0 0 ≠ regAddr .seamSkew l 0 0 := by
    simp only [regAddr, regRow, blkBase]
    omega
  have hsame : ∀ y : Link, ((s.setLink l y).setReg .seamSkew l 0 (wrapInt 32 d)).reg .seamTbLimit = 0 := fun y =>
    (reg_setReg_other (s.setLink l y) _ haddr).trans hlimit
  show execTbSkewSample l s = _
  unfold execTbSkewSample
  rw [run_onlyIf_of_true (decide_eq_true hl) hrun (by rw [hup, decide_eq_true hdue]; rfl)]
  dsimp only
  split
  next hnone => rw [hskew] at hnone; cases hnone
  next e hsome =>
    obtain rfl : d = e := Option.some.inj (hskew.symm.trans hsome)
    rw [hsame]
    exact congrArg _ (if_neg (by simp))

end

end

/-- Settles O41, state by state of the link. -/
theorem seam_Links : Obligations.Seam_Links := by
  unfold Obligations.Seam_Links
  rintro s u v l x hrun hl rfl
  refine ⟨fun val cable hst hbit => ?_, fun val cable hbit => ?_, fun cable hmapped hcable => startTraining_of_accepted hmapped hcable,
    fun cable hoff hcable => startTraining_of_bad_cable hoff hcable, fun lanes m hpick => ⟨fun hst hv hu => ?_, fun hst hsoon hv hu => ⟨fun hbuf => ?_, fun f r hbuf => ?_⟩⟩,
    fun p hst hnamed hu => ?_, fun p hst hon hserial => ?_, exec_seamTrainTimeout_of_training hrun hl, exec_seamTrainTimeout_of_early hrun hl,
    fun hst hlate => ?_, fun hearly => ?_, fun cable hst hbit hdue => ?_, fun cable hst hearly => ?_,
    fun d hup hdue hskew hlimit => exec_tbSkewSample_of_unlimited hrun hl hup hdue hskew hlimit,
    fun hup hdue hnone => exec_tbSkewSample_of_none hrun hl hup hdue hnone⟩
  · have hsame : ((s.setReg .seamCtrl l 0 (bits val.toNat 0 0)).link l).st = .disabled := hst
    rw [exec_seamEnableWrite val cable hrun hl]
    dsimp only
    rw [if_pos hbit, hsame]
    rfl
  · rw [exec_seamEnableWrite val cable hrun hl]
    dsimp only
    rw [if_neg (by simp [hbit])]
  · rw [exec_seamTrained hrun hl hpick, if_pos hst, setLanes_setLink]
    dsimp only
    rw [← hv, ← hu]
    rfl
  · rw [exec_seamTrained hrun hl hpick, if_neg (by simp [hst]), if_pos ⟨hst, hsoon⟩]
    dsimp only
    rw [replayFrom_of_nil (by rw [link_setLanes_setLink]; exact hbuf), setLanes_setLink]
    dsimp only
    rw [← hv, ← hu]
  · rw [exec_seamTrained hrun hl hpick, if_neg (by simp [hst]), if_pos ⟨hst, hsoon⟩]
    dsimp only
    rw [replayFrom_of_cons (by rw [link_setLanes_setLink]; exact hbuf), setLanes_setLink]
    dsimp only
    rw [← hv, ← hu]
  · rw [exec_seamCheckDone p hrun hl hst, if_pos (peerNamed_of_named hnamed), hu]
    rfl
  · rw [exec_seamCheckDone p hrun hl hst, if_neg (by simp [peerNamed_of_other_board hon hserial])]
  · rw [exec_seamRetrainTimeout hrun hl, onlyIf_true (by simp [hst, hlate])]
  · rw [exec_seamRetrainTimeout hrun hl, onlyIf_false (by simp; omega)]
  · rw [exec_seamRetryInterval cable hrun hl, onlyIf_true (by simp [hst, hbit, hdue])]
  · rw [exec_seamRetryInterval cable hrun hl, onlyIf_false (by simp; omega)]
end Sys2Proof.Machine
end

section
/-! PROOFS. Transactions over seam links (R238, R258, R327, R338, R340, R341). -/
namespace Sys2Proof.Machine

open Sys2Proof

section
variable {s t : State} {l q seq : Nat}

/-! ### A transaction arrives (R327, R338) -/

/-- A transaction's number and status are remembered and acknowledged. -/
def seamNote (l q seq st : Nat) (s : State) : State :=
  linkOut l (.ack seq st) (s.setBundle q { s.bundle q with seen := ((seq, st) :: (s.bundle q).seen).take 65536 })

section
variable (hrun : s.power.running = true) (hl : l < 24) (hup : (s.link l).st = .up) (hdeep : s.power.dstate = .on)
include hrun hl hup hdeep

theorem exec_seamTransaction_of_packet (b : Bytes) (hoff : linkOff s l = true) :
    exec (.seamTransaction l seq (.packet b)) s = .next
      { s with net := { s.net with ftIn := s.net.ftIn ++ [{ mac := 32 + l, bytes := b, time := s.now, cls := 0, ft := true }] } } := by
  show execSeamTransaction l seq (.packet b) s = _
  unfold execSeamTransaction
  rw [run_onlyIf_of_true (decide_eq_true hl) hrun (by rw [hup]; rfl), if_neg (by simp [hdeep])]
  exact congrArg _ (if_pos hoff)

variable (hon : linkOn s l = true) (hq : q = (linkMap s l).1)
include hon hq

theorem exec_seamTransaction_of_seen {e : Nat × Nat} {m : SeamMsg} (hseen : (s.bundle q).seen.find? (fun e => e.1 == seq) = some e)
    (hmsg : ∀ b, m ≠ .packet b) : exec (.seamTransaction l seq m) s = .next (linkOut l (.ack seq e.2) s) := by
  subst hq
  have hmapped : ¬(!linkOn s l) = true := by simp [hon]
  show execSeamTransaction l seq m s = _
  unfold execSeamTransaction
  rw [run_onlyIf_of_true (decide_eq_true hl) hrun (by rw [hup]; rfl), if_neg (by simp [hdeep])]
  cases m with
  | packet b => exact absurd rfl (hmsg b)
  | signal | write | coll | ack =>
    dsimp only
    rw [if_neg hmapped, hseen]

section
variable (hnew : (s.bundle q).seen.find? (fun e => e.1 == seq) = none)
include hnew

theorem exec_seamTransaction_of_signal (ctr val tn : Nat) :
    exec (.seamTransaction l seq (.signal ctr val tn)) s =
      .next (seamNote l q seq 0x0000 (remoteApply 0x204 (fld s.seam.board 8 4 + q) ctr val tn s).1) := by
  subst hq
  show execSeamTransaction l seq (.signal ctr val tn) s = _
  unfold execSeamTransaction
  rw [run_onlyIf_of_true (decide_eq_true hl) hrun (by rw [hup]; rfl), if_neg (by simp [hdeep])]
  dsimp only
  rw [if_neg (by simp [hon]), hnew]
  rfl

/-- What a write that was not seen does. -/
def seamWrite (l q seq tn a : Nat) (d : Bytes) (s : State) : State :=
  if seamWriteCheck s tn a d.length = stOk ∧ memWaits s a d.length then wakeSpan a d.length s
  else if seamWriteCheck s tn a d.length = stOk then
    workGo (moveLanded tn a d.length (seamNote l q seq (if (writeMem s a d).2.isSome then stUncorr else stOk) (writeMem s a d).1))
  else seamNote l q seq (seamWriteCheck s tn a d.length) s

theorem exec_seamTransaction_of_write (tn a : Nat) (d : Bytes) :
    exec (.seamTransaction l seq (.write tn a d)) s = .next (seamWrite l q seq tn a d s) := by
  subst hq
  show execSeamTransaction l seq (.write tn a d) s = _
  unfold execSeamTransaction
  rw [run_onlyIf_of_true (decide_eq_true hl) hrun (by rw [hup]; rfl), if_neg (by simp [hdeep])]
  dsimp only
  rw [if_neg (by simp [hon]), hnew]
  rfl

theorem exec_seamTransaction_of_coll (p : Contrib) :
    exec (.seamTransaction l seq (.coll p)) s = .next (if contribReady s p then contribLand p (seamNote l q seq 0x0000 s) else s) := by
  subst hq
  show execSeamTransaction l seq (.coll p) s = _
  unfold execSeamTransaction
  rw [run_onlyIf_of_true (decide_eq_true hl) hrun (by rw [hup]; rfl), if_neg (by simp [hdeep])]
  dsimp only
  rw [if_neg (by simp [hon]), hnew]
  rfl

end

end

theorem seamWrite_of_refused {tn a st : Nat} {d : Bytes} (hst : seamWriteCheck s tn a d.length = st) (hbad : st ≠ 0x0000) :
    seamWrite l q seq tn a d s = seamNote l q seq st s := by
  have hno : ¬seamWriteCheck s tn a d.length = stOk := by rw [hst]; exact hbad
  unfold seamWrite
  rw [if_neg fun h => hno h.1, if_neg hno, hst]

theorem seamWrite_of_written {tn a : Nat} {d : Bytes} (hok : seamWriteCheck s tn a d.length = 0x0000) (hreach : memWaits s a d.length = false)
    (hwrite : writeMem s a d = (t, none)) : seamWrite l q seq tn a d s = workGo (moveLanded tn a d.length (seamNote l q seq 0x0000 t)) := by
  unfold seamWrite
  rw [if_neg (by simp [hreach]), if_pos (by exact hok), hwrite]
  rfl

theorem seamWrite_of_waits {tn a : Nat} {d : Bytes} (hok : seamWriteCheck s tn a d.length = 0x0000) (hwaits : memWaits s a d.length = true) :
    seamWrite l q seq tn a d s = wakeSpan a d.length s := if_pos ⟨hok, hwaits⟩

/-! ### Acknowledgements and lost bundles (R340, R341) -/

section
variable {st : Nat} {x : SeamTx} {rest : List SeamTx} (hrun : s.power.running = true) (hq : q < 8)
  (htake : takeFirst (fun (t : SeamTx) => t.seq == some seq) (s.bundle q).txs = some (x, rest))
  (ht : t = bundleGo q (s.setBundle q { s.bundle q with
    txs := rest, lost := (s.bundle q).lost.filter fun (_, gone, _) => rest.any fun t => t.seq.isSome && t.resent == some gone }))
include hrun hq htake ht

theorem exec_seamTransactionAck_of_signal {g : RemoteSig} (hfor : x.for_ = .signal g) : exec (.seamTransactionAck q seq st) s = .next t := by
  show execSeamTransactionAck q seq st s = _
  unfold execSeamTransactionAck
  rw [run_next (decide_eq_true hq) hrun]
  dsimp only
  rw [htake]
  dsimp only
  rw [hfor, ht]

theorem exec_seamTransactionAck_of_work {id : Nat} (hfor : x.for_ = .work id) :
    exec (.seamTransactionAck q seq st) s = .next (workGo { t with ft := { t.ft with ends := t.ft.ends ++ [⟨id, 0, st, []⟩] } }) := by
  show execSeamTransactionAck q seq st s = _
  unfold execSeamTransactionAck
  rw [run_next (decide_eq_true hq) hrun]
  dsimp only
  rw [htake]
  dsimp only
  rw [hfor, ht]

end

section
variable {d : Nat} (hrun : s.power.running = true) (hq : q < 8) (hdown : (s.bundle q).downAt = some d) (hlinks : upLinks s q = [])
include hrun hq hdown hlinks

theorem exec_seamBundleTimeout_of_late (hlate : d + 50 * msTicks ≤ s.tb.ticks) :
    exec (.seamBundleTimeout q) s = .next (txsLost (s.bundle q).txs (s.setBundle q { s.bundle q with txs := [], lost := [] })) := by
  show execSeamBundleTimeout q s = _
  unfold execSeamBundleTimeout
  rw [run_next (decide_eq_true hq) hrun]
  refine congrArg _ (if_pos ?_)
  rw [hdown]
  simp [hlinks, hlate]

theorem exec_seamBundleTimeout_of_early (hearly : s.tb.ticks < d + 50 * msTicks) : exec (.seamBundleTimeout q) s = .next s := by
  show execSeamBundleTimeout q s = _
  unfold execSeamBundleTimeout
  rw [run_next (decide_eq_true hq) hrun]
  refine congrArg _ ((if_neg ?_).trans (if_pos hlinks))
  rw [hdown]
  simp [hearly]

end

/-! ### Contributions (R258) -/

theorem exec_collectiveContribution (p : Contrib) (hrun : s.power.running = true) :
    exec (.collectiveContribution p) s = .next (onlyIf (contribReady s p) (contribLand p) s) := run_next rfl hrun

theorem contribLand_of_new {p : Contrib} {x : Comm} (hcomm : s.comm (tkey p.tenant p.comm) = some x)
    (hlive : x.next ≤ p.op ∨ (s.ckpt.colls.any fun j => j.tenant == p.tenant && j.comm == p.comm && j.begun == some p.op) = true)
    (hnew : (x.parts.any fun y => y.rank == p.rank && y.op == p.op && y.off == p.off) = false) :
    contribLand p s = workGo (s.setComm (tkey p.tenant p.comm) (some { x with parts := x.parts ++ [p] })) := by
  unfold contribLand
  dsimp only
  rw [hcomm]
  refine if_neg ?_
  rw [hnew, Bool.or_false]
  rcases hlive with hnext | hbegun
  · rw [decide_eq_false (Nat.not_lt.2 hnext), Bool.false_and]
    exact Bool.false_ne_true
  · rw [hbegun, Bool.not_true, Bool.and_false]
    exact Bool.false_ne_true

/-! ### Remote signals (R238) -/

section
variable {g : RemoteSig} {rest : List RemoteSig} (hrun : s.power.running = true)
  (htake : takeFirst (unitWritesDone s) s.sync.remote = some (g, rest)) (ht : t = { s with sync := { s.sync with remote := rest } })
include hrun htake ht

theorem exec_remoteSignalSend_of_peer {p : Nat} (hpeer : boardPeer t g.fdid = some p) :
    exec .remoteSignalSend s = .next (seamSend p g.src (g.ctr / 1024) (.signal g.ctr g.val g.tenant) (.signal g) t) := by
  show execRemoteSignalSend s = _
  unfold execRemoteSignalSend
  rw [run_next rfl hrun, htake]
  dsimp only
  rw [← ht, hpeer]

/-- The packet of a signal to a device that is on no board has class 0 (log entry 18). -/
theorem exec_remoteSignalSend_of_no_peer (hpeer : boardPeer t g.fdid = none) :
    exec .remoteSignalSend s = .next (ftStart {
      gen := 0, take := 0, from_ := .signal g, tenant := g.tenant, op := 0x0A, ord := true, cls := 0, dst := g.fdid, raddr := g.ctr, len := 4
      operand := g.val, mtu := ftMtu t, moved := t.tb.ticks } t) := by
  have htb : t.tb = s.tb := by rw [ht]
  show execRemoteSignalSend s = _
  unfold execRemoteSignalSend
  rw [run_next rfl hrun, htake]
  dsimp only
  rw [← ht, hpeer, htb]

end

theorem exec_remoteSignalSend_of_none (hrun : s.power.running = true) (hnone : takeFirst (unitWritesDone s) s.sync.remote = none) :
    exec .remoteSignalSend s = .next s := by
  show execRemoteSignalSend s = _
  unfold execRemoteSignalSend
  rw [run_next rfl hrun, hnone]

end

/-- Settles O42: a transaction is acknowledged once and performed once. The class 0 in the packet of a remote signal is the model's choice (log
entry 18). -/
theorem seam_Traffic : Obligations.Seam_Traffic := by
  unfold Obligations.Seam_Traffic
  intro s t l q seq hrun hl hq
  refine ⟨fun hup hdeep hon hmap => ⟨fun e m hseen hmsg => exec_seamTransaction_of_seen hrun hl hup hdeep hon hmap hseen hmsg,
      fun hnew => ⟨fun ctr val tn ht => ?_, fun tn a d st hst hbad => ?_, fun tn a d hok hreach hwrite => ?_, fun tn a d hok hwaits => ?_, fun p => ?_⟩⟩,
    fun b hup hdeep hoff => exec_seamTransaction_of_packet hrun hl hup hdeep b hoff,
    fun st x rest htake ht => ⟨fun g hfor => exec_seamTransactionAck_of_signal hrun hq htake ht hfor,
      fun id hfor => exec_seamTransactionAck_of_work hrun hq htake ht hfor⟩,
    fun d hdown hlinks => ⟨exec_seamBundleTimeout_of_late hrun hq hdown hlinks, exec_seamBundleTimeout_of_early hrun hq hdown hlinks⟩,
    fun p x hready hcomm hlive hnew => ?_, fun p hready => ?_,
    fun g rest htake ht => ⟨fun p hpeer => exec_remoteSignalSend_of_peer hrun htake ht hpeer, exec_remoteSignalSend_of_no_peer hrun htake ht⟩,
    exec_remoteSignalSend_of_none hrun⟩
  · rw [exec_seamTransaction_of_signal hrun hl hup hdeep hon hmap hnew, ← ht]
    rfl
  · rw [exec_seamTransaction_of_write hrun hl hup hdeep hon hmap hnew, seamWrite_of_refused hst hbad]
    rfl
  · rw [exec_seamTransaction_of_write hrun hl hup hdeep hon hmap hnew, seamWrite_of_written hok hreach hwrite]
    rfl
  · rw [exec_seamTransaction_of_write hrun hl hup hdeep hon hmap hnew, seamWrite_of_waits hok hwaits]
  · rw [exec_seamTransaction_of_coll hrun hl hup hdeep hon hmap hnew]
    exact ⟨fun hno => by rw [if_neg (by simp [hno])], fun hready => by rw [if_pos hready]; rfl⟩
  · rw [exec_collectiveContribution p hrun, onlyIf_true hready, contribLand_of_new hcomm hlive hnew]
  · rw [exec_collectiveContribution p hrun, onlyIf_false hready]

end Sys2Proof.Machine
end

section
/-! PROOFS. Commands and configuration of the frame path (R344, R346, R349, R354 to R357, R361, R364, R367 to R370). -/
namespace Sys2Proof.Machine

open Sys2Proof

section
variable {s : State} {id : Nat} {c : Cmd}

/-! ### PORT_MODE (R344) -/

/-- What PORT_MODE does with a DOWN port. -/
def portModeSets (id : Nat) (c : Cmd) (s : State) : State :=
  match modeRefused s (c.p 0) (c.p 1) with
  | some t => finish0 id stDetRefused (varRefuse t s)
  | none => finish0 id stOk (s.setField .ethSts (c.p 0) 0 1 0 (c.p 1))

theorem exec_portMode (h : Ready s .portMode id c) :
    exec (.portMode id) s = .next (if portDown s (c.p 0) then portModeSets id c s else conflict id 0x0B (c.p 0) 1 0 s) := by
  refine (h.exec _).trans (congrArg _ ?_)
  unfold need6
  rw [h.id_eq]
  rfl

theorem portModeSets_of_allowed (hnone : modeRefused s (c.p 0) (c.p 1) = none) :
    portModeSets id c s = finish0 id stOk (s.setField .ethSts (c.p 0) 0 1 0 (c.p 1)) := by
  unfold portModeSets
  rw [hnone]

theorem portModeSets_of_refused {t : Nat} (hrefused : modeRefused s (c.p 0) (c.p 1) = some t) :
    portModeSets id c s = finish0 id stDetRefused (varRefuse t s) := by
  unfold portModeSets
  rw [hrefused]

/-! ### RULES_COMMIT (R354, R355) -/

/-- The rules of a descriptor. -/
def rulesOf (c : Cmd) (d : Bytes) : List Bytes := (List.range (c.p 0)).map fun i => slice d (16 + 64 * i) 64

theorem exec_rulesCommit {u : State} {d : Bytes} (h : Ready s .rulesCommit id c) (hread : readMem s (c.p 1) (16 + 64 * c.p 0) = (u, .ok d)) :
    exec (.rulesCommit id) s = .next
      (if strict u c.fn && rulesMulti u (rulesOf c d) (fld d 0 1) then finish0 id stDetRefused (varRefuse c.fn u)
       else if decide (rulesElse u c.fn + c.p 0 ≤ 16384) then
        working id { u with net := { u.net with commits := u.net.commits ++ [⟨id, c.fn, rulesOf c d, fld d 0 1⟩] } }
       else finish0 id stNoResource u) := by
  show execRulesCommit id s = _
  unfold execRulesCommit
  rw [h.exec]
  dsimp only
  rw [hread]
  unfold need7
  rw [h.id_eq]
  rfl

/-- The rule sets of a tenant end with a version. -/
def endSets (t v : Nat) (l : List RuleSet) : List RuleSet := l.map fun r => if r.tenant = t ∧ r.until_ = none then { r with until_ := some v } else r

/-- The patterns of a tenant's staging area that are freed. -/
def patFreed (s : State) (t i : Nat) : Bool := match tget [] s.net.staged (t * 256 + i) with | [] => false | e => fld e 0 1 == 0

/-- A commit takes effect under version `v`. -/
def commitTakes (t v slow : Nat) (rules : List Bytes) (s : State) : State :=
  State.setReg { s with net := { s.net with
    commits := []
    sets := endSets t v s.net.sets ++ [(⟨t, v, rules, slow, commitPats s t, none⟩ : RuleSet)]
    patOwner := s.net.patOwner.filter fun (i, o) => !(o == t + 1 && patFreed s t i)
    staged := tdrop s.net.staged fun k => k / 256 == t } } .prsVersion 0 0 v

section
variable {rules : List Bytes} {slow t : Nat} (hrun : s.power.running = true) (hcommits : s.net.commits = [⟨id, t, rules, slow⟩])
include hrun hcommits

theorem exec_rulesCommitApply :
    exec (.rulesCommitApply id) s = .next
      (if strict s t && rulesMulti s rules slow then finish0 id stDetRefused (varRefuse t { s with net := { s.net with commits := [] } })
       else if (s.net.sets.map (·.rules.length)).sum + rules.length ≤ 32768 then
        finish id stOk ((s.reg .prsVersion + 1) % 2 ^ 32) 0 0 0 (commitTakes t ((s.reg .prsVersion + 1) % 2 ^ 32) slow rules s)
       else s) := by
  have htake : takeFirst (fun c => c.id == id) s.net.commits = some (⟨id, t, rules, slow⟩, []) := by
    rw [hcommits]
    simp [takeFirst]
  have hfirst : ((s.net.commits.find? fun x => x.tenant == t).map (·.id) == some id) = true := by
    rw [hcommits]
    simp
  show execRulesCommitApply id s = _
  unfold execRulesCommitApply
  rw [run_next rfl hrun, htake]
  dsimp only
  rw [hfirst, Bool.true_and, Bool.true_and]
  simp only [decide_eq_true_eq]
  rfl

end

/-- The set of a tenant among the sets: the one that no version has ended. -/
theorem find_endSets_of_other {k t : Nat} (v : Nat) (hk : k ≠ t) : ∀ l : List RuleSet,
    (endSets t v l).find? (fun r => r.tenant == k && r.until_.isNone) = l.find? fun r => r.tenant == k && r.until_.isNone
  | [] => rfl
  | r :: l => by
    have ih := find_endSets_of_other v hk l
    unfold endSets at ih ⊢
    rw [List.map_cons, List.find?_cons, List.find?_cons, ih]
    by_cases hended : r.tenant = t ∧ r.until_ = none
    · have hother : (t == k) = false := by simpa using Ne.symm hk
      simp [hended, hother]
    · rw [if_neg hended]

theorem find_endSets_of_same (t v : Nat) (l : List RuleSet) : (endSets t v l).find? (fun r => r.tenant == t && r.until_.isNone) = none := by
  refine List.find?_eq_none.mpr fun r hr => ?_
  obtain ⟨q, -, rfl⟩ := List.mem_map.mp hr
  by_cases hended : q.tenant = t ∧ q.until_ = none
  · simp [hended]
  · rw [if_neg hended]
    simpa using hended

theorem ruleSet_commitTakes_same (t v slow : Nat) (rules : List Bytes) (s : State) :
    ruleSet (commitTakes t v slow rules s) t = ⟨t, v, rules, slow, commitPats s t, none⟩ := by
  have hfind : (commitTakes t v slow rules s).net.sets.find? (fun r => r.tenant == t && r.until_.isNone) =
      some ⟨t, v, rules, slow, commitPats s t, none⟩ := by
    show (endSets t v s.net.sets ++ _).find? _ = _
    rw [List.find?_append, find_endSets_of_same]
    simp
  unfold ruleSet
  rw [hfind]

theorem ruleSet_commitTakes_other {k t : Nat} (v slow : Nat) (rules : List Bytes) (s : State) (hk : k ≠ t) :
    ruleSet (commitTakes t v slow rules s) k = ruleSet s k := by
  have hfind : (commitTakes t v slow rules s).net.sets.find? (fun r => r.tenant == k && r.until_.isNone) =
      s.net.sets.find? fun r => r.tenant == k && r.until_.isNone := by
    show (endSets t v s.net.sets ++ _).find? _ = _
    rw [List.find?_append, find_endSets_of_other v hk]
    simp [Ne.symm hk]
  unfold ruleSet
  rw [hfind]

theorem staged_commitTakes (t v slow : Nat) (rules : List Bytes) (s : State) {i : Nat} (hi : i < 256) :
    tget [] (commitTakes t v slow rules s).net.staged (t * 256 + i) = [] := by
  show tget [] (tdrop s.net.staged fun k => k / 256 == t) (t * 256 + i) = []
  rw [tget_tdrop]
  have hmine : (t * 256 + i) / 256 = t := by omega
  simp [hmine]

theorem reg_commitTakes (t slow x : Nat) (rules : List Bytes) (s : State) :
    (commitTakes t (x % 2 ^ 32) slow rules s).reg .prsVersion = x % 2 ^ 32 :=
  (reg_setReg _ _ _ _ _).trans (Nat.mod_mod _ _)

/-! ### PATTERNS_LOAD (R356) -/

/-- One entry enters a tenant's staging area, and the pattern's place is the tenant's if it was nobody's. -/
def stagePattern (t b : Nat) (d : Bytes) (s : State) (i : Nat) : State :=
  { s with net := { s.net with
    staged := tput [] s.net.staged (t * 256 + (b + i)) (slice d (64 * i) 64)
    patOwner := if tget 0 s.net.patOwner (b + i) = 0 then tput 0 s.net.patOwner (b + i) (t + 1) else s.net.patOwner } }

theorem exec_patternsLoad {r : State} {d : Bytes} (h : Ready s .patternsLoad id c) (hread : readMem s (c.p 2) (64 * c.p 1) = (r, .ok d)) :
    exec (.patternsLoad id) s = .next (finish0 id stOk ((List.range (c.p 1)).foldl (stagePattern c.fn (c.p 0) d) r)) := by
  show execPatternsLoad id s = _
  unfold execPatternsLoad
  rw [h.exec]
  dsimp only
  rw [hread]
  rfl

theorem staged_foldl_stagePattern (t b : Nat) (d : Bytes) : ∀ (l : List Nat) (s : State),
    (l.foldl (stagePattern t b d) s).net.staged = l.foldl (fun m i => tput [] m (t * 256 + b + i) (slice d (64 * i) 64)) s.net.staged
  | [], _ => rfl
  | i :: l, s => by
    rw [List.foldl_cons, List.foldl_cons, staged_foldl_stagePattern t b d l, Nat.add_assoc]
    rfl

theorem tget_staged_stagePattern (t b n : Nat) (d : Bytes) (s : State) (k : Nat) :
    tget [] ((List.range n).foldl (stagePattern t b d) s).net.staged k =
      if t * 256 + b ≤ k ∧ k < t * 256 + b + n then slice d (64 * (k - (t * 256 + b))) 64 else tget [] s.net.staged k := by
  rw [staged_foldl_stagePattern]
  exact tget_fill (t * 256 + b) [] (fun i => slice d (64 * i) 64) n s.net.staged k

theorem patOwner_stagePattern (t b i : Nat) (d : Bytes) (s : State) :
    (stagePattern t b d s i).net.patOwner =
      if tget 0 s.net.patOwner (b + i) = 0 then tput 0 s.net.patOwner (b + i) (t + 1) else s.net.patOwner := rfl

theorem tget_patOwner_stagePattern (t b : Nat) (d : Bytes) (s : State) (k : Nat) : ∀ n,
    tget 0 ((List.range n).foldl (stagePattern t b d) s).net.patOwner k =
      if b ≤ k ∧ k < b + n ∧ tget 0 s.net.patOwner k = 0 then t + 1 else tget 0 s.net.patOwner k
  | 0 => by
    rw [if_neg (by omega)]
    rfl
  | n + 1 => by
    have ih := tget_patOwner_stagePattern t b d s k n
    rw [List.range_succ, List.foldl_append, List.foldl_cons, List.foldl_nil]
    rw [patOwner_stagePattern]
    by_cases hlast : k = b + n
    · subst hlast
      rw [if_neg (by omega)] at ih
      by_cases hfree : tget 0 s.net.patOwner (b + n) = 0
      · rw [if_pos (by rw [ih, hfree]), tget_tput_same, if_pos ⟨by omega, by omega, hfree⟩]
      · rw [if_neg (by rw [ih]; exact hfree), ih, if_neg fun h => hfree h.2.2]
    · have hsame : tget 0 (if tget 0 ((List.range n).foldl (stagePattern t b d) s).net.patOwner (b + n) = 0 then
          tput 0 ((List.range n).foldl (stagePattern t b d) s).net.patOwner (b + n) (t + 1)
          else ((List.range n).foldl (stagePattern t b d) s).net.patOwner) k = tget 0 ((List.range n).foldl (stagePattern t b d) s).net.patOwner k := by
        split
        · exact tget_tput_other _ _ _ hlast
        · rfl
      rw [hsame, ih]
      exact ite_congr (propext (by omega)) (fun _ => rfl) fun _ => rfl

theorem mem_stagePattern (t b n : Nat) (d : Bytes) (s : State) : ((List.range n).foldl (stagePattern t b d) s).mem = s.mem :=
  foldl_fixes State.mem (f := stagePattern t b d) (fun _ _ => rfl) _ s

/-! ### Streams (R361, R364) -/

theorem exec_streamOpen (h : Ready s .streamOpen id c) :
    exec (.streamOpen id) s = .next
      (if !(s.stream (c.p 0)).isOpen then
        finish0 id stOk ((s.setStream (c.p 0) { s.stream (c.p 0) with
          owner := some c.fn, isOpen := true, dst := c.p 2, bytes := c.p 3, pat := tget [] (ruleSet s c.fn).pats (c.p 1), pidx := c.p 1 }).setReg
          .strmConsumed 0 (c.p 0) (s.reg .strmOffset 0 (c.p 0)))
       else conflict id 0x0A (c.p 0) 1 0 s) := by
  refine (h.exec _).trans (congrArg _ ?_)
  unfold need6
  rw [h.id_eq]
  rfl

/-- What the frames of a stream that closes leave alone as they are dropped. -/
theorem streams_pfc (m k : Nat) (s : State) : (pfc m k s).net.streams = s.net.streams ∧ (pfc m k s).regs = s.regs := by
  unfold pfc
  dsimp only
  split
  · split <;> exact ⟨rfl, rfl⟩
  · split <;> exact ⟨rfl, rfl⟩

theorem streams_dropWaiting (st : Nat) (s : State) : (dropWaiting st s).net.streams = s.net.streams := by
  unfold dropWaiting
  dsimp only
  rw [foldl_fixes (fun s : State => s.net.streams) (fun s (f : Frame) => (streams_pfc f.mac f.cls s).1)]
  obtain ⟨v, hv⟩ := count_eq_setReg s .strmDrops 0 st (s.net.frames.filter (frameWaits st)).length
  rw [hv]
  rfl

/-- The frames that a stream drops are counted in its DROPS alone. -/
theorem reg_dropWaiting {r : Reg} {j st : Nat} (s : State) (hr : regAddr r 0 j 0 ≠ regAddr .strmDrops 0 st 0) :
    (dropWaiting st s).reg r 0 j = s.reg r 0 j := by
  have hregs : (dropWaiting st s).regs = (s.count .strmDrops 0 st (s.net.frames.filter (frameWaits st)).length).regs := by
    unfold dropWaiting
    dsimp only
    rw [foldl_fixes State.regs (fun s (f : Frame) => (streams_pfc f.mac f.cls s).2)]
  obtain ⟨v, hv⟩ := count_eq_setReg s .strmDrops 0 st (s.net.frames.filter (frameWaits st)).length
  rw [reg_congr hregs, hv, reg_setReg_other _ _ hr]

theorem regAddr_strm_ne_drops (j st : Nat) :
    regAddr .strmOffset 0 j 0 ≠ regAddr .strmDrops 0 st 0 ∧ regAddr .strmRecords 0 j 0 ≠ regAddr .strmDrops 0 st 0 := by
  simp only [regAddr, regRow, blkBase]
  omega

/-- A stream that has been closed, with the STREAM_CLOSE that waits for its records. -/
def streamClosing (id st : Nat) (s : State) : State :=
  working id ((closeStream st s).setStream st { (closeStream st s).stream st with closing := some id })

theorem stream_closeStream (st : Nat) (s : State) : (closeStream st s).stream st = { s.stream st with isOpen := false } := by
  have hstreams : (closeStream st s).net.streams = (s.setStream st { s.stream st with isOpen := false }).net.streams := streams_dropWaiting _ _
  unfold State.stream at hstreams ⊢
  rw [hstreams]
  exact stream_setStream s st _

theorem stream_streamClosing (id st : Nat) (s : State) :
    (streamClosing id st s).stream st = { s.stream st with isOpen := false, closing := some id } := by
  refine (stream_setStream (closeStream st s) st _).trans ?_
  rw [stream_closeStream]

theorem reg_streamClosing (id st j : Nat) (s : State) :
    (streamClosing id st s).reg .strmOffset 0 j = s.reg .strmOffset 0 j ∧ (streamClosing id st s).reg .strmRecords 0 j = s.reg .strmRecords 0 j := by
  obtain ⟨hoffset, hrecords⟩ := regAddr_strm_ne_drops j st
  have hregs : (streamClosing id st s).regs = (dropWaiting st (s.setStream st { s.stream st with isOpen := false })).regs := rfl
  have hsame : (s.setStream st { s.stream st with isOpen := false }).regs = s.regs := rfl
  constructor
  · rw [reg_congr hregs, reg_dropWaiting _ hoffset, reg_congr hsame]
  · rw [reg_congr hregs, reg_dropWaiting _ hrecords, reg_congr hsame]

/-- The close of a stream without unfinished records. -/
theorem closeReady_of_done {st : Nat} (hclosing : (s.stream st).closing = some id) (hheld : (s.stream st).held = false)
    (hclosed : (s.stream st).isOpen = false) (hrecs : (s.stream st).recs = 0) :
    closeReady st s = closeReply id st (s.setStream st { s.stream st with closing := none }) := by
  unfold closeReady
  dsimp only
  split
  next id' hid =>
    obtain rfl : id = id' := Option.some.inj (hclosing.symm.trans hid)
    have hnotHeld : ¬(s.stream st).held = true := by simp [hheld]
    have hnotOpen : ¬(s.stream st).isOpen = true := by simp [hclosed]
    rw [if_neg hnotHeld, if_neg hnotOpen, if_pos hrecs]
  next hnone => rw [hclosing] at hnone; cases hnone

theorem exec_streamClose (h : Ready s .streamClose id c) (hopen : (s.stream (c.p 0)).isOpen = true) (hheld : (s.stream (c.p 0)).held = false)
    (hrecs : (s.stream (c.p 0)).recs = 0) :
    exec (.streamClose id) s = .next (closeReply id (c.p 0) ((streamClosing id (c.p 0) s).setStream (c.p 0)
      { s.stream (c.p 0) with isOpen := false, closing := none })) := by
  have hstream := stream_streamClosing id (c.p 0) s
  have hclose : closeReady (c.p 0) (streamClosing id (c.p 0) s) =
      closeReply id (c.p 0) ((streamClosing id (c.p 0) s).setStream (c.p 0) { s.stream (c.p 0) with isOpen := false, closing := none }) := by
    rw [closeReady_of_done (id := id) (by rw [hstream]) (by rw [hstream]; exact hheld) (by rw [hstream]) (by rw [hstream]; exact hrecs), hstream]
  show execStreamClose id s = _
  unfold execStreamClose
  rw [h.exec, need6_of_met (by simp [hopen, hheld]), if_neg (by simp [hheld])]
  exact congrArg _ hclose

/-! ### POLICER_SET, SHAPER_SET and GATES_LOAD (R346, R357, R367) -/

theorem exec_gatesLoad {r u : State} {d : Bytes} (h : Ready s .gatesLoad id c) (hread : readMem s (c.p 2) (8 * c.p 1) = (r, .ok d))
    (hu : u = r.setMac (c.p 0) { r.mac (c.p 0) with pend := some ⟨gateEntries d (c.p 1), c.p 3⟩ }) :
    exec (.gatesLoad id) s = .next (finish0 id 0x0000 { u with tb := { u.tb with
      armed := (r.tb.armed.filter fun e => e.owner != .gate (c.p 0)) ++ [⟨.gate (c.p 0), c.p 3, decide (c.p 3 ≤ r.now), r.tb.ticks + 1⟩] } }) := by
  subst hu
  show execGatesLoad id s = _
  unfold execGatesLoad
  rw [h.exec]
  dsimp only
  rw [hread]
  rfl

/-! ### Writes of the tenant map, of the profiles and of a MAC's enables (R349, R354, R368) -/

section
variable {who k : Nat} (val : Word) (hrun : s.power.running = true) (hwho : who < 18) (hworld : tget 0 s.own.devs 0x0C ≠ 0)
include hrun hwho hworld

theorem exec_tenantMapWrite (hk : k < 4128) :
    exec (.tenantMapWrite who k val) s = .next (onlyIf (decide (16 ≤ who)) (fun s =>
      let r : Reg := if k < 4096 then .prsTmap else .prsUntagged
      let j := if k < 4096 then k else k - 4096
      if val.toNat % 32 = s.reg r 0 j then s else (s.setReg r 0 j (val.toNat % 32)).setReg .prsVersion 0 0 (s.reg .prsVersion + 1)) s) := by
  have hinstances : (decide (who < 19) && decide (k < 4128)) = true := by simp [hk]; omega
  exact (run_next hinstances hrun).trans (congrArg _ (devInst_of_allowed (.inr hworld)))

/-- The next version, where a write changed anything. -/
def bumpVersion (s t : State) : State := if t.regs = s.regs then t else t.setReg .prsVersion 0 0 (t.reg .prsVersion + 1)

/-- A management write of a word of a profile. -/
def profileWrites (k w v : Nat) (s : State) : State :=
  if w = 0 then bumpVersion s (s.setReg .prsProfile0 0 k (v % 2 ^ 28))
  else if bit (s.reg .prsProfile0 0 k) 27 then s
  else if w = 1 then bumpVersion s (s.setReg .prsProfile1 0 k (v % 65536))
  else bumpVersion s (s.setField .prsProfileF 0 k (32 * (w - 2) + 31) (32 * (w - 2)) (v &&& 0x3FFF3FFF))

theorem exec_profileWrite {w : Nat} (hk : k < 64) (hw : w < 10) :
    exec (.profileWrite who k w val) s = .next (onlyIf (decide (16 ≤ who)) (profileWrites k w val.toNat) s) := by
  have hinstances : (decide (who < 19) && decide (k < 64) && decide (w < 10)) = true := by simp [hk, hw]; omega
  exact (run_next hinstances hrun).trans (congrArg _ (devInst_of_allowed (.inr hworld)))

theorem exec_ethEnableWrite_of_tenant {m : Nat} (ok : Bool) (hwho : who < 16) (hm : m < 8) : exec (.ethEnableWrite who m val ok) s = .next s := by
  have hinstances : (decide (who < 19) && decide (m < 8)) = true := by simp [hm]; omega
  exact (run_next hinstances hrun).trans (congrArg _ ((devInst_of_allowed (.inr hworld)).trans (onlyIf_false (decide_eq_false (by omega)))))

end

theorem profileWrites_of_locked {k w v : Nat} (hw : 0 < w) (hlocked : bit (s.reg .prsProfile0 0 k) 27 = true) : profileWrites k w v s = s := by
  unfold profileWrites
  rw [if_neg (by omega), if_pos hlocked]

theorem profileWrites_of_new {k v : Nat} (hopen : bit (s.reg .prsProfile0 0 k) 27 = false) (hnew : v % 65536 ≠ s.reg .prsProfile1 0 k) :
    profileWrites k 1 v s = (s.setReg .prsProfile1 0 k (v % 65536)).setReg .prsVersion 0 0 (s.reg .prsVersion + 1) := by
  have hchanged : (s.setReg .prsProfile1 0 k (v % 65536)).regs ≠ s.regs := by
    intro hsame
    have hread : v % 65536 % 2 ^ 32 = s.reg .prsProfile1 0 k := (reg_setReg s .prsProfile1 0 k (v % 65536)).symm.trans (reg_congr hsame _ _ _)
    rw [Nat.mod_eq_of_lt (by omega)] at hread
    exact hnew hread
  have haddr : regAddr .prsVersion 0 0 0 ≠ regAddr .prsProfile1 0 k 0 := by
    simp only [regAddr, regRow, blkBase]
    omega
  unfold profileWrites bumpVersion
  rw [if_neg (by decide), if_neg (by simp [hopen]), if_pos rfl, if_neg hchanged, reg_setReg_other _ _ haddr]

end

/-- Settles O43. A commit's set stands last among the sets, and every earlier set of its tenant ends with its version. -/
theorem net_Commands : Obligations.Net_Commands := by
  unfold Obligations.Net_Commands
  intro s id c t m st
  refine ⟨fun h hdown hmode => ?_, fun h hup => ?_, fun h hdown hmode => ?_,
    fun d u rules h hread hrules => ⟨fun hallowed => ⟨fun hroom => ?_, fun hfull => ?_⟩, fun hstrict hmulti => ?_⟩,
    fun rules slow hrun hcommits => ⟨fun hstrict hmulti => ?_, fun hallowed hroom => ?_, fun hallowed hfull => ?_⟩, fun d r h hread => ?_,
    fun h hst hclosed => ?_, fun h hst hopen => ?_, fun h hst hopen hheld hrecs => ?_, fun h => h.exec _, fun h => h.exec _,
    fun d r u h hread hu => exec_gatesLoad h hread hu, fun who k val hrun hwho hworld => ⟨fun hk hnew => ?_, fun hk hsame => ?_,
      fun w hk hpos hw hlocked => ?_, fun hk hopen hnew => ?_⟩, fun k val hrun ht hworld => ⟨fun hk => ?_, fun w hk hw => ?_, fun ok hm => ?_⟩⟩
  · rw [exec_portMode h, if_pos hdown, portModeSets_of_allowed hmode]
    rfl
  · rw [exec_portMode h, if_neg (by simp [hup])]
    rfl
  · rw [exec_portMode h, if_pos hdown, portModeSets_of_refused hmode]
    rfl
  · obtain rfl : rules = rulesOf c d := hrules
    rw [exec_rulesCommit h hread, if_neg (by rw [hallowed]; decide), if_pos (decide_eq_true hroom)]
  · obtain rfl : rules = rulesOf c d := hrules
    rw [exec_rulesCommit h hread, if_neg (by rw [hallowed]; decide), if_neg (by simp; omega)]
    rfl
  · obtain rfl : rules = rulesOf c d := hrules
    rw [exec_rulesCommit h hread, if_pos (by rw [hstrict, hmulti]; rfl)]
    rfl
  · rw [exec_rulesCommitApply hrun hcommits, if_pos (by rw [hstrict, hmulti]; rfl)]
    rfl
  · rw [exec_rulesCommitApply hrun hcommits, if_neg (by rw [hallowed]; decide), if_pos hroom]
    exact ⟨_, _, rfl, rfl, reg_commitTakes _ _ _ _ _, ruleSet_commitTakes_same _ _ _ _ _, fun k hk => ruleSet_commitTakes_other _ _ _ _ hk, rfl,
      fun i hi => staged_commitTakes _ _ _ _ _ hi⟩
  · rw [exec_rulesCommitApply hrun hcommits, if_neg (by rw [hallowed]; decide), if_neg (by omega)]
  · rw [exec_patternsLoad h hread]
    refine ⟨_, rfl, fun i hi => ⟨?_, ?_⟩, fun k hk => ?_, mem_stagePattern _ _ _ _ _⟩
    · rw [tget_staged_stagePattern, if_pos (by omega), ← Nat.add_assoc, Nat.add_sub_cancel_left]
    · rw [tget_patOwner_stagePattern]
      exact ite_congr (propext (by omega)) (fun _ => rfl) fun _ => rfl
    · rw [tget_staged_stagePattern, if_neg fun hin => hk (k - (c.fn * 256 + c.p 0)) (by omega) (by omega)]
  · subst hst
    rw [exec_streamOpen h, if_pos (by simp [hclosed])]
    rfl
  · subst hst
    rw [exec_streamOpen h, if_neg (by simp [hopen])]
    rfl
  · subst hst
    let v : State := (streamClosing id (c.p 0) s).setStream (c.p 0) { s.stream (c.p 0) with isOpen := false, closing := none }
    have hoffset : ∀ j, v.reg .strmOffset 0 j = s.reg .strmOffset 0 j := fun j => (reg_streamClosing id (c.p 0) j s).1
    have hrecords : v.reg .strmRecords 0 (c.p 0) = s.reg .strmRecords 0 (c.p 0) := (reg_streamClosing id (c.p 0) (c.p 0) s).2
    refine ⟨v, ?_, stream_setStream _ _ _, hoffset⟩
    rw [exec_streamClose h hopen hheld hrecs, ← hoffset, ← hrecords]
    rfl
  · rw [exec_tenantMapWrite val hrun (by omega : who < 18) hworld (by omega), onlyIf_true (decide_eq_true (by omega))]
    dsimp only
    rw [if_pos hk, if_pos hk, if_neg hnew]
  · rw [exec_tenantMapWrite val hrun (by omega : who < 18) hworld (by omega), onlyIf_true (decide_eq_true (by omega))]
    dsimp only
    rw [if_pos hk, if_pos hk, if_pos hsame]
  · rw [exec_profileWrite val hrun (by omega : who < 18) hworld hk hw, onlyIf_true (decide_eq_true (by omega)), profileWrites_of_locked hpos hlocked]
  · rw [exec_profileWrite val hrun (by omega : who < 18) hworld hk (by decide), onlyIf_true (decide_eq_true (by omega)), profileWrites_of_new hopen hnew]
  · rw [exec_tenantMapWrite val hrun (by omega : t < 18) hworld hk, onlyIf_false (decide_eq_false (by omega))]
  · rw [exec_profileWrite val hrun (by omega : t < 18) hworld hk hw, onlyIf_false (decide_eq_false (by omega))]
  · exact exec_ethEnableWrite_of_tenant val hrun (by omega) hworld ok ht hm

end Sys2Proof.Machine
end

section
/-! PROOFS. Reception of frames: MAC, parser and classification (R345 to R349, R357, R363). -/
namespace Sys2Proof.Machine

open Sys2Proof

section
variable {s u : State} {m : Nat}

/-! ### Links of MACs (R345) -/

theorem exec_macLinkChange (up : Bool) (hrun : s.power.running = true) (hm : m < 32) :
    exec (.macLinkChange m up) s = .next
      (if up then (if macOn s m && bit (s.reg .ethSts (m / 4)) 6 then s.orReg .ethSts (m / 4) 0 (2 ^ (2 + m % 4)) else s)
       else if bit (s.reg .ethSts (m / 4)) (2 + m % 4) then
        stickyRec 1 none 0 .ethErr (m / 4) 0 2 (s.setField .ethSts (m / 4) 0 (2 + m % 4) (2 + m % 4) 0)
       else s) := by
  show execMacLinkChange m up s = _
  unfold execMacLinkChange
  rw [run_next (decide_eq_true hm) hrun]
  rfl

/-! ### ENABLE of the MACs of a module (R345, R349) -/

/-- The enables of a module that its mode uses. -/
def usedMacs (s : State) (p x : Nat) : Nat := ((modeMacs (portMode s p) p).map fun m => if bit x (m % 4) then 2 ^ (m % 4) else 0).sum

theorem usedMacs_of_one {p x : Nat} (hmode : portMode s p = 0) : usedMacs s p x = if bit x 0 then 1 else 0 := by
  have hmac : 4 * p % 4 = 0 := by omega
  simp [usedMacs, modeMacs, hmode, hmac]

/-- A write of a module's enables, the greatest frame length `mf` with it. -/
def ethEnabled (p v mf : Nat) (s : State) : State :=
  let t := s.setReg .ethCtrl p 0 (v % 16 + bits v 15 8 * 256 + mf * 65536)
  t.setField .ethSts p 0 5 2 (bits (t.reg .ethSts p) 5 2 &&& usedMacs s p v)

/-- A module whose MAC is newly enabled is accepted, or refused with ETH.ERR bit 0. -/
def moduleJudged (p : Nat) (ok : Bool) (s : State) : State :=
  let t := s.setField .ethSts p 0 6 6 (if ok then 1 else 0)
  if ok then t else sticky none .ethErr p 0 1 (t.setField .ethSts p 0 5 2 0)

theorem exec_ethEnableWrite (val : Word) (ok : Bool) (hrun : s.power.running = true) (hm : m < 8) :
    exec (.ethEnableWrite 18 m val ok) s = .next
      (let mf := if usedMacs s m (s.reg .ethCtrl m) ≠ 0 then bits (s.reg .ethCtrl m) 29 16 else clampNat 1518 9216 (bits val.toNat 29 16)
       if usedMacs s m val.toNat &&& (usedMacs s m val.toNat ^^^ usedMacs s m (s.reg .ethCtrl m)) ≠ 0 then moduleJudged m ok (ethEnabled m val.toNat mf s)
       else ethEnabled m val.toNat mf s) := by
  have hinstances : (decide (18 < 19) && decide (m < 8)) = true := by simp [hm]
  exact (run_next hinstances hrun).trans (congrArg _ ((devInst_of_allowed (.inl rfl)).trans (onlyIf_true rfl)))

theorem exec_ethEnableWrite_of_new (val : Word) (ok : Bool) (hrun : s.power.running = true) (hm : m < 8) (hmode : portMode s m = 0)
    (hold : s.reg .ethCtrl m % 16 = 0) (hbit : bit val.toNat 0 = true) (hlen : bits val.toNat 29 16 = 1518)
    (hu : u = (s.setReg .ethCtrl m 0 (val.toNat % 16 + bits val.toNat 15 8 * 256 + 1518 * 65536)).setField .ethSts m 0 5 2
      (bits (s.reg .ethSts m) 5 2 &&& 1)) :
    exec (.ethEnableWrite 18 m val ok) s = .next (moduleJudged m ok u) := by
  have hidle : bit (s.reg .ethCtrl m) 0 = false := by
    rw [bit_testBit, Nat.testBit_zero, decide_eq_false_iff_not]
    omega
  have hwas : usedMacs s m (s.reg .ethCtrl m) = 0 := by rw [usedMacs_of_one hmode, if_neg (by simp [hidle])]
  have hnow : usedMacs s m val.toNat = 1 := by rw [usedMacs_of_one hmode, if_pos hbit]
  have henabled : ethEnabled m val.toNat 1518 s = u := by
    rw [hu, ethEnabled, hnow, reg_setReg_of_off_ne (by decide)]
  have hclamp : clampNat 1518 9216 1518 = 1518 := rfl
  rw [exec_ethEnableWrite val ok hrun hm]
  dsimp only
  rw [hwas, hnow, hlen, if_neg (by decide : ¬(0 : Nat) ≠ 0), if_pos (by decide), hclamp, henabled]

/-! ### A frame is received (R346 to R348, R357, R363) -/

/-- A frame with a bad FCS or of a length outside the limits. -/
def badFrame (s : State) (m : Nat) (frame : Bytes) : Bool :=
  frame.length < 64 || maxFrame s (m / 4) < frame.length || leNat (frame.drop (frame.length - 4)) != crc32 (frame.take (frame.length - 4))

/-- A frame of a tenant, or a datagram of the transport, is buffered while its class is within its share, and dropped otherwise. -/
def bufferFrame (m t colour : Nat) (ft : Bool) (g : Bytes) (s : State) : State :=
  let o := occupancy s m (frameClass g) + g.length
  let sh := classShare s m
  if sh < o || (colour = 1 && 3 * sh < 4 * occupancy s m (frameClass g)) then ingressDrop t m ft g s
  else
    let fr : Frame := { mac := m, bytes := g, time := s.now, cls := frameClass g, colour := colour, tenant := t, ft := ft }
    pfc m (frameClass g) { s with net := { s.net with frames := s.net.frames ++ [fr] } }

/-- What a good frame that is no flow control does. -/
def frameUp (m : Nat) (g : Bytes) (s : State) : State :=
  if isPtp (parse g) then { s with net := { s.net with ptp := s.net.ptp ++ [⟨m, g, s.now⟩] } }
  else
    let ft := (parse g).dport == some (s.reg .ftUdpPort % 65536)
    match (if ft then some 0 else mapTenant s m g) with
    | none => s.count .ethNoTenant (m / 4) 0 1
    | some t =>
      let p := if ft then (s, 0) else police t g s
      if p.2 = 2 then p.1.count .prsRed 0 t 1 else bufferFrame m t p.2 ft g p.1

section
variable {frame g : Bytes} (hrun : s.power.running = true) (hm : m < 32) (hup : macUp s m = true)
include hrun hm hup

theorem exec_frameReceive_of_bad (hbad : badFrame s m frame = true) :
    exec (.frameReceive m frame) s = .next (s.count .ethErrCount (m / 4) 0 1) := by
  show execFrameReceive m frame s = _
  unfold execFrameReceive
  rw [run_onlyIf_of_true (decide_eq_true hm) hrun hup]
  refine congrArg _ (if_pos ?_)
  rw [Bool.or_eq_true]
  exact .inl hbad

variable (hgood : badFrame s m frame = false) (hg : g = frame.take (frame.length - 4))
include hgood hg

theorem exec_frameReceive_of_good (hplain : be16 g 12 ≠ 0x8808) : exec (.frameReceive m frame) s = .next (frameUp m g s) := by
  subst hg
  have hctl : (be16 (frame.take (frame.length - 4)) 12 == 0x8808) = false := by simpa using hplain
  show execFrameReceive m frame s = _
  unfold execFrameReceive
  rw [run_onlyIf_of_true (decide_eq_true hm) hrun hup]
  unfold badFrame at hgood
  dsimp only
  rw [hctl, hgood, if_neg (by simp), if_neg (by simp)]
  generalize frame.take (frame.length - 4) = g
  unfold frameUp bufferFrame
  rfl

theorem exec_frameReceive_of_pause (hctl : be16 g 12 = 0x8808) (hop : be16 g 14 = 1) :
    exec (.frameReceive m frame) s = .next (s.count .ethErrCount (m / 4) 0 1) := by
  subst hg
  have hpause : (be16 (frame.take (frame.length - 4)) 12 == 0x8808 && be16 (frame.take (frame.length - 4)) 14 == 1) = true := by rw [hctl, hop]; rfl
  show execFrameReceive m frame s = _
  unfold execFrameReceive
  rw [run_onlyIf_of_true (decide_eq_true hm) hrun hup]
  unfold badFrame at hgood
  dsimp only
  rw [hpause, hgood, if_pos (by rfl)]

theorem exec_frameReceive_of_pfc (hctl : be16 g 12 = 0x8808) (hop : be16 g 14 = 0x0101) :
    exec (.frameReceive m frame) s = .next (pfcReceive m g s) := by
  subst hg
  have hnot : (be16 (frame.take (frame.length - 4)) 12 == 0x8808 && be16 (frame.take (frame.length - 4)) 14 == 1) = false := by rw [hctl, hop]; rfl
  have hpfc : (be16 (frame.take (frame.length - 4)) 12 == 0x8808 && be16 (frame.take (frame.length - 4)) 14 == 0x0101) = true := by
    rw [hctl, hop]
    rfl
  show execFrameReceive m frame s = _
  unfold execFrameReceive
  rw [run_onlyIf_of_true (decide_eq_true hm) hrun hup]
  unfold badFrame at hgood
  dsimp only
  rw [hnot, hgood, hpfc, if_neg (by decide), if_pos rfl]

end

/-! ### Where a good frame goes -/

section
variable {g : Bytes}

theorem frameUp_of_ptp (hptp : isPtp (parse g) = true) :
    frameUp m g s = { s with net := { s.net with ptp := s.net.ptp ++ [⟨m, g, s.now⟩] } } := if_pos hptp

variable (hptp : isPtp (parse g) = false)
include hptp

theorem frameUp_of_transport (hport : (parse g).dport = some (s.reg .ftUdpPort % 65536)) : frameUp m g s = bufferFrame m 0 0 true g s := by
  unfold frameUp
  dsimp only
  rw [if_neg (by simp [hptp]), hport, beq_self_eq_true]
  rfl

variable (hport : (parse g).dport ≠ some (s.reg .ftUdpPort % 65536))
include hport

theorem frameUp_of_no_tenant (hmap : mapTenant s m g = none) : frameUp m g s = s.count .ethNoTenant (m / 4) 0 1 := by
  have hplain : ((parse g).dport == some (s.reg .ftUdpPort % 65536)) = false := by simpa using hport
  unfold frameUp
  dsimp only
  rw [if_neg (by simp [hptp]), hplain, if_neg (by decide), hmap]

theorem frameUp_of_tenant {t col : Nat} (hmap : mapTenant s m g = some t) (hpolice : police t g s = (u, col)) :
    frameUp m g s = if col = 2 then u.count .prsRed 0 t 1 else bufferFrame m t col false g u := by
  have hplain : ((parse g).dport == some (s.reg .ftUdpPort % 65536)) = false := by simpa using hport
  unfold frameUp
  dsimp only
  rw [if_neg (by simp [hptp]), hplain, if_neg (by decide), hmap]
  dsimp only
  rw [if_neg Bool.false_ne_true, hpolice]

end

theorem bufferFrame_of_room {t col : Nat} {ft : Bool} {g : Bytes} (hroom : occupancy s m (frameClass g) + g.length ≤ classShare s m)
    (hyellow : col = 1 → 4 * occupancy s m (frameClass g) ≤ 3 * classShare s m) :
    bufferFrame m t col ft g s = pfc m (frameClass g) { s with net := { s.net with frames := s.net.frames ++
      [{ mac := m, bytes := g, time := s.tb.master.toNat / 2 ^ 16, cls := frameClass g, colour := col, tenant := t, ft := ft }] } } := by
  refine if_neg ?_
  simp only [Bool.or_eq_true, Bool.and_eq_true, decide_eq_true_eq]
  omega

theorem bufferFrame_of_full {t col : Nat} {ft : Bool} {g : Bytes}
    (hfull : classShare s m < occupancy s m (frameClass g) + g.length ∨ (col = 1 ∧ 3 * classShare s m < 4 * occupancy s m (frameClass g))) :
    bufferFrame m t col ft g s = ingressDrop t m ft g s := by
  refine if_pos ?_
  simpa only [Bool.or_eq_true, Bool.and_eq_true, decide_eq_true_eq] using hfull

/-! ### The policers refill (R357) -/

/-- A policer whose microsecond is over. -/
def policerRefilled (x : Policer) : Policer :=
  let off := x.c.rate == 0 && x.p.rate == 0
  { aware := x.next.getD x.aware, next := none, c := fillIf off (refill 1000000 false x.c), p := fillIf off (refill 1000000 false x.p) }

theorem exec_policerRefill_of_early (hrun : s.power.running = true) (hearly : s.tb.ticks < s.net.polDue) : exec .policerRefill s = .next s :=
  run_onlyIf_of_false rfl hrun (decide_eq_false (by omega))

theorem exec_policerRefill_of_single {t : Nat} {x : Policer} (hrun : s.power.running = true) (hdue : s.net.polDue ≤ s.tb.ticks)
    (hpolicers : s.net.policers = [(t, x)]) :
    ∃ v, exec .policerRefill s = .next v ∧ v.policer t = policerRefilled x ∧ s.tb.ticks < v.net.polDue := by
  show ∃ v, execPolicerRefill s = .next v ∧ _
  unfold execPolicerRefill
  rw [run_onlyIf_of_true rfl hrun (decide_eq_true hdue), hpolicers]
  refine ⟨_, rfl, policer_setPolicer s t _, ?_⟩
  exact Nat.lt_of_lt_of_le (Nat.lt_succ_self _) (Nat.le_max_right _ _)

end

/-- Settles O44: the checks of a received frame in their order, then the buffer's share. -/
theorem net_Reception : Obligations.Net_Reception := by
  unfold Obligations.Net_Reception
  intro s u m hrun hm
  refine ⟨fun hon hmodule => ?_, fun hoff => ?_, fun hlink => ?_, fun val hm8 hmode hold hbit hlen hu => ⟨?_, ?_⟩, fun f hdown => ?_,
    fun f hup hbad => ?_, fun f g hup hmin hmax hg hfcs => ?_, exec_policerRefill_of_early hrun, fun t x off hdue hpolicers hoff => ?_⟩
  · rw [exec_macLinkChange true hrun hm, if_pos rfl, if_pos (by rw [hon, hmodule]; rfl)]
  · rw [exec_macLinkChange true hrun hm, if_pos rfl, if_neg (by simp [hoff])]
  · rw [exec_macLinkChange false hrun hm, if_neg (by decide), if_pos hlink]
  · exact exec_ethEnableWrite_of_new val true hrun hm8 hmode hold hbit hlen hu
  · exact exec_ethEnableWrite_of_new val false hrun hm8 hmode hold hbit hlen hu
  · exact run_onlyIf_of_false (decide_eq_true hm) hrun hdown
  · exact exec_frameReceive_of_bad hrun hm hup (by simpa [badFrame, or_assoc] using hbad)
  · have hgood : badFrame s m f = false := by simp [badFrame, ← hg, hfcs, hmin, hmax]
    have hreceive := exec_frameReceive_of_good hrun hm hup hgood hg
    refine ⟨exec_frameReceive_of_pause hrun hm hup hgood hg, exec_frameReceive_of_pfc hrun hm hup hgood hg,
      fun hplain => ⟨fun hptp => ?_, fun hptp hport => ⟨fun hroom => ?_, fun hfull => ?_⟩,
        fun hptp hport => ⟨fun hmap => ?_, fun t hmap => ⟨fun hpolice => ?_, fun col hpolice hcol => ⟨fun hroom hyellow => ?_, fun hfull => ?_⟩⟩⟩⟩⟩
    · rw [hreceive hplain, frameUp_of_ptp hptp]
      rfl
    · rw [hreceive hplain, frameUp_of_transport hptp hport, bufferFrame_of_room hroom (by simp)]
    · rw [hreceive hplain, frameUp_of_transport hptp hport, bufferFrame_of_full (.inl hfull)]
      rfl
    · rw [hreceive hplain, frameUp_of_no_tenant hptp hport hmap]
    · rw [hreceive hplain, frameUp_of_tenant hptp hport hmap hpolice, if_pos rfl]
    · rw [hreceive hplain, frameUp_of_tenant hptp hport hmap hpolice, if_neg hcol, bufferFrame_of_room hroom hyellow]
    · rw [hreceive hplain, frameUp_of_tenant hptp hport hmap hpolice, if_neg hcol, bufferFrame_of_full hfull]
  · subst hoff
    exact exec_policerRefill_of_single hrun hdue hpolicers

end Sys2Proof.Machine
end

section
/-! PROOFS. Delivery, streams, scheduling and gates of frames (R350, R354, R355, R359, R360, R362, R365 to R368). -/
namespace Sys2Proof.Machine

open Sys2Proof

section
variable {s u v w : State} {m st t q n : Nat} {f : Frame} {rest : List Frame}

/-! ### A frame enters a pipeline (R354) -/

/-- What the tables then current say of a frame: its profile, its verdict and its tenant. -/
def judged (s : State) (f : Frame) : Nat × Verdict × Nat :=
  if f.ft then (0xFF, .transport, 0)
  else match mapTenant s f.mac f.bytes with
    | none => (0xFF, .noTenant, 0)
    | some t => ((judge s t f.mac f.bytes).1, (judge s t f.mac f.bytes).2, t)

/-- The frame `f` enters the next pipeline, judged as `j`. -/
def handedOff (s : State) (f : Frame) (rest : List Frame) (j : Nat × Verdict × Nat) : State :=
  { s with net := { s.net with
    frames := rest ++ [{ f with piped := true, version := s.reg .prsVersion, profile := j.1, verdict := j.2.1, tenant := j.2.2 }]
    pipe := (s.net.pipe + 1) % 8 } }

theorem exec_parseHandoff (hrun : s.power.running = true) (hroom : (s.net.frames.filter inPipes).length < 1024)
    (htake : takeFirst (fun f => !f.piped) s.net.frames = some (f, rest)) :
    exec .parseHandoff s = .next (pfc f.mac f.cls (handedOff s f rest (judged s f))) := by
  show execParseHandoff s = _
  unfold execParseHandoff
  rw [run_next rfl hrun]
  dsimp only
  rw [if_pos hroom, htake]
  rfl

theorem exec_parseHandoff_of_full (hrun : s.power.running = true) (hfull : 1024 ≤ (s.net.frames.filter inPipes).length) :
    exec .parseHandoff s = .next s :=
  (run_next rfl hrun).trans (congrArg _ (if_neg (by omega)))

theorem judged_of_tenant (hft : f.ft = false) (hmap : mapTenant s f.mac f.bytes = some t) :
    judged s f = ((judge s t f.mac f.bytes).1, (judge s t f.mac f.bytes).2, t) := by
  rw [judged, if_neg (by simp [hft]), hmap]

theorem judged_of_transport (hft : f.ft = true) : judged s f = (0xFF, .transport, 0) := if_pos hft

/-! ### A frame is released in the order of its MAC (R355) -/

/-- Where a released frame goes. -/
def frameReleased (m : Nat) (f : Frame) (s : State) : State :=
  match f.verdict with
  | .transport => { s with net := { s.net with ftIn := s.net.ftIn ++ [f] } }
  | .noTenant => s.count .ethNoTenant (m / 4) 0 1
  | .noMatch => s.count .prsNomatch 0 f.tenant 1
  | .drop => s
  | .queue k rule => rxDeliver f (8 * f.tenant + k) 0 rule s
  | .slow c rule => slowDeliver f c rule (if c = 7 then strmErrSet (longStream s f rule) 8 s else s)
  | .stream x _ =>
    if (s.stream x).isOpen then { s with net := { s.net with frames := s.net.frames ++ [{ f with waiting := true }] } }
    else pfc m f.cls (strmDrop x s)

theorem exec_reorderRelease (hrun : s.power.running = true) (hm : m < 32)
    (htake : takeFirst (fun f => f.mac == m && inPipes f) s.net.frames = some (f, rest)) :
    exec (.reorderRelease m) s = .next (frameReleased m f { s with net := { s.net with frames := rest } }) := by
  show execReorderRelease m s = _
  unfold execReorderRelease
  rw [run_next (decide_eq_true hm) hrun]
  dsimp only
  rw [htake]
  rfl

/-! ### A stream places a payload (R359, R360) -/

/-- The stream `st`, whose record is `x`, takes the payload `pay` of the frame `f`, the frames `rest` left. -/
def placed (st t : Nat) (x : Stream) (f : Frame) (rest : List Frame) (pay : Bytes) (s : State) : State :=
  let v := { s with net := { s.net with frames := rest } }
  let u := ringWrite x.dst x.bytes (s.reg .strmOffset 0 st) pay (if streamMulti v st then varCount t none v else v)
  let (tail, n) := matchRun x.pat x.tail pay 0
  pfc f.mac f.cls ((u.setReg .strmOffset 0 st (s.reg .strmOffset 0 st + pay.length)).setStream st { x with tail := tail, recs := x.recs + n })

/-- What a stream with a frame waiting does: it ends where its ring may not be reached, places what fits, and waits otherwise. -/
def placeNext (st t : Nat) (f : Frame) (rest : List Frame) (s : State) : State :=
  let x := s.stream st
  let pay := f.bytes.drop ((parse f.bytes).p.getD 0)
  if !x.isOpen || x.held || x.closing.isSome then s
  else if !permits s (tenReq t 0x213) x.dst x.bytes true then
    strmErrSet st 2 (closeStream st (if tableUe s (tenReq t 0x213) x.dst x.bytes then tableErr s else s))
  else if s.reg .strmOffset 0 st + pay.length ≤ s.reg .strmConsumed 0 st + x.bytes then placed st t x f rest pay s
  else s

theorem exec_streamPlace (hrun : s.power.running = true) (hst : st < 256) (howner : (s.stream st).owner = some t)
    (htake : takeFirst (frameWaits st) s.net.frames = some (f, rest)) :
    exec (.streamPlace st) s = .next (placeNext st t f rest s) := by
  show execStreamPlace st s = _
  unfold execStreamPlace
  rw [run_next (decide_eq_true hst) hrun]
  dsimp only
  rw [howner, htake]
  unfold placeNext placed
  dsimp only
  rw [howner]

section
variable (hopen : (s.stream st).isOpen = true) (hheld : (s.stream st).held = false) (hclosing : (s.stream st).closing = none)
include hopen hheld hclosing

theorem placeNext_of_permitted (hpermits : permits s (tenReq t 0x213) (s.stream st).dst (s.stream st).bytes true = true) :
    placeNext st t f rest s =
      if s.reg .strmOffset 0 st + (f.bytes.drop ((parse f.bytes).p.getD 0)).length ≤ s.reg .strmConsumed 0 st + (s.stream st).bytes then
        placed st t (s.stream st) f rest (f.bytes.drop ((parse f.bytes).p.getD 0)) s
      else s := by
  unfold placeNext
  dsimp only
  rw [if_neg (by simp [hopen, hheld, hclosing]), if_neg (by simp [hpermits])]

theorem placeNext_of_denied (hdenied : permits s (tenReq t 0x213) (s.stream st).dst (s.stream st).bytes true = false)
    (hue : tableUe s (tenReq t 0x213) (s.stream st).dst (s.stream st).bytes = false) :
    placeNext st t f rest s = strmErrSet st 2 (closeStream st s) := by
  unfold placeNext
  dsimp only
  rw [if_neg (by simp [hopen, hheld, hclosing]), if_pos (by simp [hdenied]), if_neg (by simp [hue])]

end

/-! ### Completed records and the consumed position (R362) -/

theorem exec_streamRecordComplete (hrun : s.power.running = true) (hst : st < 256) (howner : (s.stream st).owner = some t)
    (hrecs : 0 < (s.stream st).recs) (hu : u = (s.setStream st { s.stream st with recs := (s.stream st).recs - 1 }).count .strmRecords 0 st 1) :
    exec (.streamRecordComplete st) s = .next (closeReady st (tenSync t 0x213 (u.reg .strmSync 0 st) u)) := by
  subst hu
  show execStreamRecordComplete st s = _
  unfold execStreamRecordComplete
  rw [run_next (decide_eq_true hst) hrun]
  dsimp only
  rw [howner]
  exact congrArg _ (if_neg (by omega))

theorem stream_count (i : Reg) (c k a d : Nat) (s : State) : (s.count i c k a).stream d = s.stream d := by
  unfold State.count
  split <;> rfl

theorem closeReady_of_open (hclosing : (s.stream st).closing = none) : closeReady st s = s := by
  unfold closeReady
  dsimp only
  rw [hclosing]

theorem tenSync_of_none (h : bits n 31 24 = 0) : tenSync t q n s = s := if_pos h

section
variable {who : Nat} {val : BitVec 64} (hrun : s.power.running = true) (hst : st < 256) (hwho : who < 19) (hworld : tget 0 s.own.devs 0x0C ≠ 0)
include hrun hst hwho hworld

theorem exec_consumedWrite : exec (.consumedWrite who st val) s = .next
    (onlyIf (ownsStream s who st) (fun s => if s.reg .strmConsumed 0 st ≤ val.toNat ∧ val.toNat ≤ s.reg .strmOffset 0 st then
      s.setReg .strmConsumed 0 st val.toNat else strmErrSet st 4 s) s) := by
  have hinstances : (decide (who < 19) && decide (st < 256)) = true := by simp [hwho, hst]
  exact (run_next hinstances hrun).trans (congrArg _ (devInst_of_allowed (.inr hworld)))

end

theorem ownsStream_iff {who : Nat} : ownsStream s who st = true ↔ 16 ≤ who ∨ (s.stream st).owner = some who := by
  simp [ownsStream]

/-! ### Versions, gates and buckets (R350, R365 to R367) -/

theorem exec_ruleVersionRetire_of_idle {ver : Nat} (hrun : s.power.running = true) (hidle : ∀ g, g ∈ s.net.frames → inPipes g = false) :
    exec (.ruleVersionRetire ver) s = .next
      { s with net := { s.net with sets := s.net.sets.filter fun r => !(r.version == ver && r.until_.isSome) } } := by
  have hnone (p : Frame → Bool) : (s.net.frames.any fun f => inPipes f && p f) = false := by
    rw [List.any_eq_false]
    intro g hg
    simp [hidle g hg]
  show execRuleVersionRetire ver s = _
  unfold execRuleVersionRetire
  rw [run_next rfl hrun]
  simp only [Bool.and_assoc, hnone, Bool.not_false, Bool.and_true]

theorem exec_gateIntervalEnd_of_list {g : GateL} (hrun : s.power.running = true) (hm : m < 32) (hgates : (s.mac m).gates = some g) :
    exec (.gateIntervalEnd m) s = .next (s.setMac m { s.mac m with entry := (gateAt g s.now).1 }) := by
  show execGateIntervalEnd m s = _
  unfold execGateIntervalEnd
  rw [run_next (decide_eq_true hm) hrun]
  dsimp only
  rw [hgates]

theorem exec_gateIntervalEnd_of_none (hrun : s.power.running = true) (hm : m < 32) (hgates : (s.mac m).gates = none) :
    exec (.gateIntervalEnd m) s = .next s := by
  show execGateIntervalEnd m s = _
  unfold execGateIntervalEnd
  rw [run_next (decide_eq_true hm) hrun]
  dsimp only
  rw [hgates]

theorem exec_shaperRefill_of_early (hrun : s.power.running = true) (hm : m < 32) (hearly : s.tb.ticks < (s.mac m).due) :
    exec (.shaperRefill m) s = .next s :=
  run_onlyIf_of_false (decide_eq_true hm) hrun (decide_eq_false (by omega))

/-- A bucket without a rate is full after a refill. -/
theorem level_refill_of_unlimited {unit : Nat} {b : Bucket} (hnext : b.next = none) (hrate : b.rate = 0) :
    (refill unit true b).level = (b.burst * unit : Nat) := by
  simp [refill, hnext, hrate]

theorem exec_shaperRefill_of_unlimited {b : Bucket} (hrun : s.power.running = true) (hm : m < 32) (hdue : (s.mac m).due ≤ s.tb.ticks)
    (hqueues : (s.mac m).qb = [(q, b)]) (hnext : b.next = none) (hrate : b.rate = 0) :
    ∃ v, exec (.shaperRefill m) s = .next v ∧ (tget {} (v.mac m).qb q).level = (b.burst * 8000000 : Nat) ∧ s.tb.ticks < (v.mac m).due := by
  show ∃ v, execShaperRefill m s = .next v ∧ _
  unfold execShaperRefill
  rw [run_onlyIf_of_true (decide_eq_true hm) hrun (decide_eq_true hdue)]
  dsimp only
  rw [hqueues]
  refine ⟨_, rfl, ?_, ?_⟩
  · rw [mac_setMac]
    show (tget ({} : Bucket) (tput {} [] q (refill 8000000 true b)) q).level = _
    rw [tget_tput_same, level_refill_of_unlimited hnext hrate]
  · rw [mac_setMac]
    exact Nat.lt_of_lt_of_le (Nat.lt_succ_self _) (Nat.le_max_right _ _)

/-! ### A MAC sends (R366 to R368) -/

/-- The frame of `n` bytes of queue `q` is paid for from both buckets, with the deficits `d`. -/
def paidFor (m q n : Nat) (d : Tbl Nat) (s : State) : State :=
  let x := s.mac m
  let pay (b : Bucket) : Bucket := { b with level := b.level - (((n + 20) * 8000000 : Nat) : Int) }
  s.setMac m { x with
    ptr := q, visit := true, deficit := tput 0 d q (tget 0 d q - n)
    qb := tput {} x.qb q (pay (tget {} x.qb q)), cb := tput {} x.cb (q / 16) (pay (tget {} x.cb (q / 16))) }

/-- The head of queue `q` leaves the part. -/
def headSent (m q : Nat) (s : State) : State :=
  match tget [] s.net.txq (m * 128 + q) with
  | f :: rest => send (.frame m (withFcs f)) { s with net := { s.net with txq := tput [] s.net.txq (m * 128 + q) rest } }
  | [] => txDequeue m q s

/-- A queue left empty gives its deficit up, and the pointer moves on. -/
def turnEnded (m q : Nat) (s : State) : State :=
  if (headLen s m q).isNone then
    let x := s.mac m
    s.setMac m { x with deficit := tput 0 x.deficit q 0, ptr := (q + 1) % 128, visit := false }
  else s

theorem exec_frameTransmit_of_no_queue (hrun : s.power.running = true) (hm : m < 32) (hup : macUp s m = true)
    (hnone : (List.range 128).any (eligible s m) = false) : exec (.frameTransmit m) s = .next s :=
  (run_onlyIf_of_true (decide_eq_true hm) hrun hup).trans (congrArg _ (if_neg (by rw [hnone]; exact Bool.false_ne_true)))

theorem exec_frameTransmit_of_down (hrun : s.power.running = true) (hm : m < 32) (hdown : macUp s m = false) :
    exec (.frameTransmit m) s = .next s :=
  run_onlyIf_of_false (decide_eq_true hm) hrun hdown

theorem exec_frameTransmit_of_pick {d : Tbl Nat} (hrun : s.power.running = true) (hm : m < 32) (hup : macUp s m = true)
    (hsome : (List.range 128).any (eligible s m) = true)
    (hpick : drr s m 32768 (s.mac m).ptr (s.mac m).visit (s.mac m).deficit = some (q, d)) (hlen : headLen s m q = some n) :
    exec (.frameTransmit m) s = .next (turnEnded m q (headSent m q (paidFor m q n d s))) := by
  show execFrameTransmit m s = _
  unfold execFrameTransmit
  rw [run_onlyIf_of_true (decide_eq_true hm) hrun hup]
  dsimp only
  rw [if_pos hsome, hpick]
  dsimp only
  rw [hlen]
  rfl

theorem headSent_of_work (htxq : tget [] s.net.txq (m * 128 + q) = []) : headSent m q s = txDequeue m q s := by
  unfold headSent
  rw [htxq]

theorem headSent_of_frame {fr : Bytes} {more : List Bytes} (htxq : tget [] s.net.txq (m * 128 + q) = fr :: more) :
    headSent m q s = { s with wire := .frame m (withFcs fr) :: s.wire, net := { s.net with txq := tput [] s.net.txq (m * 128 + q) more } } := by
  unfold headSent
  rw [htxq]
  rfl

theorem turnEnded_of_more (hmore : headLen s m q ≠ none) : turnEnded m q s = s :=
  if_neg (by rwa [Option.isNone_iff_eq_none])

theorem turnEnded_of_empty (hempty : headLen s m q = none) :
    turnEnded m q s = s.setMac m { s.mac m with deficit := tput 0 (s.mac m).deficit q 0, ptr := (q + 1) % 128, visit := false } :=
  if_pos (by rw [hempty]; rfl)

end

/-- Settles O45: each frame's next place, by its verdict, its stream's room and its MAC's deficit round robin. -/
theorem net_Frames : Obligations.Net_Frames := by
  intro s u m st t f rest hrun hm hst
  refine ⟨fun htake hroom hft hmap hu => ?_, fun htake hroom hft hu => ?_, exec_parseHandoff_of_full hrun, fun htake hu => ?_,
    fun x pay htake hx howner hopen hheld hclosing hpay => ?_, fun howner hrecs hu => ?_, fun who val hwho hworld => ?_,
    fun ver => exec_ruleVersionRetire_of_idle hrun, fun g => exec_gateIntervalEnd_of_list hrun hm, exec_gateIntervalEnd_of_none hrun hm,
    exec_shaperRefill_of_early hrun hm, fun q b hdue hqueues hnext hrate _ => exec_shaperRefill_of_unlimited hrun hm hdue hqueues hnext hrate,
    exec_frameTransmit_of_no_queue hrun hm, exec_frameTransmit_of_down hrun hm, fun x q d n v w hx hup hsome hpick hlen hv hw => ?_⟩
  · rw [exec_parseHandoff hrun hroom htake, judged_of_tenant hft hmap, hu]
    rfl
  · rw [exec_parseHandoff hrun hroom htake, judged_of_transport hft, hu]
    rfl
  · have hrelease := exec_reorderRelease hrun hm htake
    rw [← hu] at hrelease
    refine ⟨fun hv => ?_, fun hv => ?_, fun hv => ?_, fun hv => ?_, fun k rule hv => ?_, fun cause rule hv hcause => ?_, fun rule hv => ?_,
      fun x rule hv hopen => ?_, fun x rule hv hclosed => ?_⟩ <;> rw [hrelease] <;> unfold frameReleased <;> rw [hv] <;> dsimp only
    · rw [hu]
    · rw [if_neg hcause]
    · rw [if_pos rfl]
    · rw [if_pos (by rw [hu]; exact hopen), hu]
    · rw [if_neg (by rw [hu]; exact ne_true_of_eq_false hclosed)]
  · subst hx hpay
    rw [exec_streamPlace hrun hst howner htake]
    refine ⟨fun hpermits => ⟨fun hfull => ?_, fun hfits v hv hu => ?_⟩, fun hdenied hue => ?_⟩
    · rw [placeNext_of_permitted hopen hheld hclosing hpermits, if_neg (by omega)]
    · rw [placeNext_of_permitted hopen hheld hclosing hpermits, if_pos hfits, hu, hv]
      rfl
    · rw [placeNext_of_denied hopen hheld hclosing hdenied hue]
  · refine ⟨exec_streamRecordComplete hrun hst howner hrecs hu, fun hsync hclosing => ?_⟩
    have hreg : u.reg .strmSync 0 st = s.reg .strmSync 0 st := by
      obtain ⟨k, hcount⟩ := count_eq_setReg (s.setStream st { s.stream st with recs := (s.stream st).recs - 1 }) .strmRecords 0 st 1
      rw [hu, hcount, reg_setReg_other _ _ (by simp only [regAddr, regRow, blkBase]; omega)]
      rfl
    have hstill : (u.stream st).closing = none := by rw [hu, stream_count, stream_setStream]; exact hclosing
    rw [hreg, tenSync_of_none hsync, closeReady_of_open hstill]
  · refine ⟨fun howns => ⟨fun hlow hhigh => ?_, fun hout => ?_⟩, fun htenant hforeign => ?_⟩ <;> rw [exec_consumedWrite hrun hst hwho hworld]
    · rw [onlyIf_true (ownsStream_iff.2 howns), if_pos ⟨hlow, hhigh⟩]
    · rw [onlyIf_true (ownsStream_iff.2 howns), if_neg (by omega)]
    · have hnot : ¬ ownsStream s who st = true := fun howns => (ownsStream_iff.1 howns).elim (by omega) hforeign
      rw [onlyIf_false (Bool.eq_false_iff.2 hnot)]
  · subst hx hv
    rw [exec_frameTransmit_of_pick hrun hm hup hsome hpick hlen]
    have hsent : headSent m q (paidFor m q n d s) = w := by
      rcases hw with ⟨htxq, hw⟩ | ⟨fr, more, htxq, hw⟩
      · rw [headSent_of_work (s := paidFor m q n d s) htxq, hw]
        rfl
      · rw [headSent_of_frame (s := paidFor m q n d s) htxq, hw]
        rfl
    rw [hsent]
    exact ⟨fun hmore => congrArg _ (turnEnded_of_more hmore), fun hempty => congrArg _ (turnEnded_of_empty hempty)⟩

end Sys2Proof.Machine
end

section
/-! PROOFS. Telemetry commands, log rings, the sideband and records sent on (R492, R498 to R503, R507, R509, R510). -/
namespace Sys2Proof.Machine

open Sys2Proof

section
variable {s t : State} {id i k : Nat} {c : Cmd} {r : Rec}

/-! ### The commands (R498, R500, R507, R509) -/

theorem hostWrite_of_off {fn a : Nat} {bs : Bytes} (hoff : (s.host fn).bme = false) : hostWrite s fn a bs = (s, .error .off) := by
  have hnot : (!fnBme s fn) = true := by simp [fnBme, hoff]
  rw [hostWrite, if_pos hnot]

theorem length_leBytes (n v : Nat) : (leBytes n v).length = n := by
  induction n generalizing v with
  | zero => rfl
  | succ n ih => rw [leBytes, List.length_cons, ih]

theorem length_flatMap_leBytes (n : Nat) (l : List Nat) : (l.flatMap (leBytes n)).length = n * l.length := by
  induction l with
  | nil => rfl
  | cons v l ih => rw [List.flatMap_cons, List.length_append, length_leBytes, ih, List.length_cons, Nat.mul_succ, Nat.add_comm]

theorem length_counters (n m : Nat) (l : List Nat) :
    (leBytes 2 n ++ leBytes 2 m ++ zeros 4 ++ l.flatMap (leBytes 8)).length = 8 + 8 * l.length := by
  have hheader : (leBytes 2 n ++ leBytes 2 m ++ zeros 4).length = 8 := rfl
  rw [List.length_append, hheader, length_flatMap_leBytes]

section
variable {l : List Nat} (h : Ready s .countersRead id c)
include h

theorem exec_countersRead_of_written (hl : l = counterSet s c.fn (c.p 0)) (hbme : (s.host c.fn).bme = true)
    (hgood : ∀ j, j < 8 + 8 * l.length → tget .unknown s.hostMem (hostKey (fnPort s c.fn) (c.p 1 + j)) ≠ .bad) :
    exec (.countersRead id) s = .next (finish0 id 0x0000
      { s with hostMem := hostPut s.hostMem (fnPort s c.fn) (c.p 1) (leBytes 2 (c.p 0) ++ leBytes 2 l.length ++ zeros 4 ++ l.flatMap (leBytes 8)) }) := by
  subst hl
  show execCountersRead id s = _
  unfold execCountersRead
  rw [h.exec]
  dsimp only
  rw [hostWrite_ok hbme (by rwa [length_counters])]
  rfl

theorem exec_countersRead_of_off (hoff : (s.host c.fn).bme = false) : exec (.countersRead id) s = .next (finish0 id 0x0601 s) := by
  show execCountersRead id s = _
  unfold execCountersRead
  rw [h.exec]
  dsimp only
  rw [hostWrite_of_off hoff]
  rfl

end

section
variable (h : Ready s .errorsRead id c)
include h

theorem exec_errorsRead_of_none (hnone : c.p 0 = 0) : exec (.errorsRead id) s = .next (finish0 id 0x0000 s) :=
  (h.exec _).trans (congrArg _ (if_pos hnone))

theorem exec_errorsRead_of_written {l : List Rec} (hsome : c.p 0 ≠ 0) (hl : l = (errorLogOf s c.fn).take (c.p 0 - 1)) (hbme : (s.host c.fn).bme = true)
    (hgood : ∀ j, j < (firstCapture s c.fn ++ l.flatMap (recBytes false)).length →
      tget .unknown s.hostMem (hostKey (fnPort s c.fn) (c.p 1 + j)) ≠ .bad) :
    exec (.errorsRead id) s = .next (finish id 0x0000 (1 + l.length) ((l.filter (·.kind == 0x800B)).map (·.count)).sum 0 0
      { s with hostMem := hostPut s.hostMem (fnPort s c.fn) (c.p 1) (firstCapture s c.fn ++ l.flatMap (recBytes false)) }) := by
  subst hl
  show execErrorsRead id s = _
  unfold execErrorsRead
  rw [h.exec]
  dsimp only
  rw [if_neg hsome, hostWrite_ok hbme hgood]
  rfl

theorem exec_errorsRead_of_off (hsome : c.p 0 ≠ 0) (hoff : (s.host c.fn).bme = false) :
    exec (.errorsRead id) s = .next (finish0 id 0x0601 s) := by
  show execErrorsRead id s = _
  unfold execErrorsRead
  rw [h.exec]
  dsimp only
  rw [if_neg hsome, hostWrite_of_off hoff]
  rfl

end

/-- The error log empty and the first capture ended. -/
def errorsCleared (s : State) : State := (s.setReg .errFirstCtl 0 0 0).setPath 20 { s.path 20 with queue := [] }

theorem exec_errorsClear (h : Ready s .errorsClear id c) : exec (.errorsClear id) s = .next (finish0 id 0x0000 (flushPath 20 (errorsCleared s))) :=
  h.exec _

theorem reg_errorsCleared (s : State) : (errorsCleared s).reg .errFirstCtl = 0 := reg_setReg s .errFirstCtl 0 0 0

section
variable {b : Bytes} {a : Nat} (h : Ready s .traceSet id c)
include h

theorem exec_traceSet_of_unread (hread : readMem s (c.p 0) 64 = (t, .error a)) : exec (.traceSet id) s = .next (failAddr id (.ue a) t) := by
  show execTraceSet id s = _
  unfold execTraceSet
  rw [h.exec]
  dsimp only
  rw [hread]

theorem exec_traceSet_of_read (hread : readMem s (c.p 0) 64 = (t, .ok b)) :
    exec (.traceSet id) s = .next (finish0 id 0x0000 { t with tel := { t.tel with
      traces := tput {} t.tel.traces c.fn { points := fld b 0 4, lodes := fld b 4 4, divide := fld b 8 2, dest := fld b 10 1 } } }) := by
  show execTraceSet id s = _
  unfold execTraceSet
  rw [h.exec]
  dsimp only
  rw [hread]
  rfl

end

/-! ### Log rings (R499, R500) -/

section
variable (hrun : s.power.running = true) (hi : i < 18)
include hrun hi

/-- The record `r` at the head of a path goes to the tail of its ring `g`. -/
def recordWritten (i : Nat) (g : LogRing) (rest : List (Rec × Nat)) (s : State) : State :=
  let wrap := g.tail + 1 = 2 ^ g.log2
  let s := s.setLogRing i { g with tail := if wrap then 0 else g.tail + 1, used := g.used + 1, phase := if wrap then !g.phase else g.phase }
  s.setPath i { s.path i with queue := rest }

omit hrun hi in
theorem recordWritten_eq {g : LogRing} {rest : List (Rec × Nat)} (cells : Tbl HCell) :
    recordWritten i g rest { s with hostMem := cells } = { s with
      hostMem := cells
      tel := { s.tel with
        rings := tput {} s.tel.rings i { g with
          tail := if g.tail + 1 = 2 ^ g.log2 then 0 else g.tail + 1, used := g.used + 1, phase := if g.tail + 1 = 2 ^ g.log2 then !g.phase else g.phase }
        paths := tput {} s.tel.paths i { s.path i with queue := rest } } } := rfl

theorem exec_logRingWrite_of_room {rest : List (Rec × Nat)} (hqueue : (s.path i).queue = (r, k) :: rest) (hon : (s.logRing i).on = true)
    (hbme : (s.host i).bme = true) (hroom : (s.logRing i).used < 2 ^ (s.logRing i).log2)
    (hgood : ∀ j, j < 64 → tget .unknown s.hostMem (hostKey (fnPort s i) ((s.logRing i).base + 64 * (s.logRing i).tail + j)) ≠ .bad) :
    exec (.logRingWrite i) s = .next (signalVector i (s.logRing i).vector (flushPath i (recordWritten i (s.logRing i) rest
      { s with
        hostMem := hostPut s.hostMem (fnPort s i) ((s.logRing i).base + 64 * (s.logRing i).tail) (recBytes (s.logRing i).phase r) }))) := by
  have hlen : (recBytes (s.logRing i).phase r).length = 64 := length_fit _ 64
  have hfree : ¬ ((!(s.logRing i).on || !fnBme s i || decide (2 ^ (s.logRing i).log2 ≤ (s.logRing i).used)) = true) := by
    simp [hon, fnBme, hbme, hroom]
  show execLogRingWrite i s = _
  unfold execLogRingWrite
  rw [run_next (decide_eq_true hi) hrun]
  dsimp only
  rw [hqueue]
  dsimp only
  rw [if_neg hfree, hostWrite_ok hbme (by rwa [hlen])]
  rfl

theorem exec_logRingWrite_of_empty (hqueue : (s.path i).queue = []) : exec (.logRingWrite i) s = .next s := by
  show execLogRingWrite i s = _
  unfold execLogRingWrite
  rw [run_next (decide_eq_true hi) hrun]
  dsimp only
  rw [hqueue]

theorem exec_logRingWrite_of_full (hfull : 2 ^ (s.logRing i).log2 ≤ (s.logRing i).used) : exec (.logRingWrite i) s = .next s := by
  show execLogRingWrite i s = _
  unfold execLogRingWrite
  rw [run_next (decide_eq_true hi) hrun]
  dsimp only
  have hstays : (!(s.logRing i).on || !fnBme s i || decide (2 ^ (s.logRing i).log2 ≤ (s.logRing i).used)) = true := by simp [hfull]
  split
  · rfl
  · exact congrArg _ (if_pos hstays)

/-- A write of HEAD frees the records up to it, and one that would free more than the ring holds is ignored with HEAD_BAD. -/
def headMoved (i h : Nat) (s : State) : State :=
  let g := s.logRing i
  let n := (h + 2 ^ g.log2 - g.head) % 2 ^ g.log2
  if 2 ^ g.log2 ≤ h ∨ g.used < n then s.orReg .errPathSts 0 i 0x2000
  else s.setLogRing i { g with head := h, used := g.used - n }

theorem exec_logHeadWrite_of_owner (val : Word) : exec (.logHeadWrite i i val) s = .next (headMoved i (val.toNat % 65536) s) :=
  run_onlyIf_of_true (by simp [hi]; omega) hrun (by simp)

theorem exec_logHeadWrite_of_foreign {who : Nat} (val : Word) (hwho : who < 16) (hforeign : who ≠ i) :
    exec (.logHeadWrite who i val) s = .next s :=
  run_onlyIf_of_false (by simp [hi]; omega) hrun (by simp [hforeign]; omega)

end

/-! ### The sideband and records sent on (R501, R503, R510) -/

section
variable (hrun : s.power.running = true)
include hrun

theorem exec_sidebandRecordRead_of_record {rest : List (Rec × Nat)} (hqueue : (s.path 18).queue = (r, k) :: rest) :
    exec (.sidebandRecordRead 0x44) s = .next (flushPath 18 { s with
      wire := .sideband (recBytes false r) :: s.wire, tel := { s.tel with paths := tput {} s.tel.paths 18 { s.path 18 with queue := rest } } }) := by
  show execSidebandRecordRead 0x44 s = _
  unfold execSidebandRecordRead
  rw [run_next rfl hrun]
  dsimp only
  rw [hqueue]
  rfl

theorem exec_sidebandRecordRead_of_empty (hqueue : (s.path 18).queue = []) :
    exec (.sidebandRecordRead 0x44) s = .next { s with wire := .sideband (zeros 64) :: s.wire } := by
  show execSidebandRecordRead 0x44 s = _
  unfold execSidebandRecordRead
  rw [run_next rfl hrun]
  dsimp only
  rw [hqueue]
  rfl

theorem exec_sidebandRecordRead_capture :
    exec (.sidebandRecordRead 4) s = .next { s with wire := .sideband (firstCapture s 16) :: s.wire } :=
  run_next rfl hrun

theorem exec_sidebandRecordRead_status :
    exec (.sidebandRecordRead 0) s = .next { s with wire := .sideband (leBytes 4 ((s.path 18).queue.length + (if sidebandHas s 0 then 256 else 0) +
      (if alertPin s then 512 else 0) + (if faultPin s then 1024 else 0))) :: s.wire } :=
  run_next rfl hrun

theorem exec_exportPacketSend_of_off (hoff : bit (s.reg .exportCtl) 0 = false) : exec .exportPacketSend s = .next s := by
  show execExportPacketSend s = _
  unfold execExportPacketSend
  rw [run_next rfl hrun]
  dsimp only
  rw [if_pos (by rw [hoff]; rfl)]

/-- The packet of the first 22 records, the `n`-th of its millisecond. -/
def exported (n : Nat) (s : State) : State :=
  let w := s.reg .exportCtl
  let q := (s.path 19).queue
  let u := { s with tel := { s.tel with exportNo := (s.tel.exportNo + 1) % 2 ^ 32, exportMs := s.tb.ticks / msTicks, exportCnt := n + 1 } }
  let v := send (.exported (bits w 5 1) (bits w 8 6) (s.reg .exportDmac) (s.reg .exportSmac) (ftAddr s (s.reg .seamFdid))
    (if ftV6 s then beBytes 16 (s.reg .exportDip) else beBytes 4 (s.reg .exportDip)) (s.reg .exportPort) (exportPayload s (q.take 22))) u
  v.setPath 19 { s.path 19 with queue := q.drop 22 }

omit hrun in
theorem path_exported (n : Nat) : (exported n s).path 19 = { s.path 19 with queue := (s.path 19).queue.drop 22 } :=
  tget_tput_same ({} : Path) s.tel.paths 19 _

theorem exec_exportPacketSend_of_due {n : Nat} (hon : bit (s.reg .exportCtl) 0 = true) (hup : macUp s (bits (s.reg .exportCtl) 5 1) = true)
    (hdue : 22 ≤ (s.path 19).queue.length ∨ ∃ r k rest, (s.path 19).queue = (r, k) :: rest ∧ k + 10 * usTicks ≤ s.tb.ticks)
    (hn : n = (if s.tel.exportMs = s.tb.ticks / msTicks then s.tel.exportCnt else 0)) (hpps : n < bits (s.reg .exportCtl) 28 13) :
    exec .exportPacketSend s = .next (flushPath 19 (exported n s)) := by
  subst hn
  show execExportPacketSend s = _
  unfold execExportPacketSend
  rw [run_next rfl hrun]
  dsimp only
  rw [if_neg ?_]
  · rfl
  · rcases hq : (s.path 19).queue with _ | ⟨⟨r, k⟩, rest⟩
    · simp [hq] at hdue
    · simp only [hq] at hdue ⊢
      have hlate : (decide (22 ≤ ((r, k) :: rest).length) || decide (k + 10 * usTicks ≤ s.tb.ticks)) = true := by
        rcases hdue with hlong | ⟨_, _, _, hhead, hold⟩
        · rw [decide_eq_true hlong, Bool.true_or]
        · cases hhead
          simp [hold]
      rw [hlate]
      simp [hon, hup, hpps]

end

end

/-- Settles O46: the sources' bytes and each ring's room. A HEAD equal to the last one frees nothing, of a full ring also: the model's choice
(log entry 86). -/
theorem telemetry_Paths : Obligations.Telemetry_Paths := by
  intro s id c i r k x
  refine ⟨fun l h => exec_countersRead_of_written h, exec_countersRead_of_off, exec_errorsRead_of_none, fun l h => exec_errorsRead_of_written h,
    exec_errorsRead_of_off, fun h => ⟨_, exec_errorsClear h, reg_errorsCleared s, ?_⟩, fun t a => exec_traceSet_of_unread,
    fun t b => exec_traceSet_of_read, fun h => h.exec _, fun hrun hi hx => ?_, fun hrun hx => ?_, exec_exportPacketSend_of_off,
    fun q n hrun hon hup hq hdue hn hpps => ?_⟩
  · exact tget_tput_same {} s.tel.paths 20 { s.path 20 with queue := [] }
  · subst hx
    refine ⟨fun g rest hg hqueue hon hbme hroom hgood => ?_, exec_logRingWrite_of_empty hrun hi, fun _ => exec_logRingWrite_of_full hrun hi,
      fun val h hh => ⟨fun n hn hlow hfits => ?_, fun hhigh => ?_, fun who hwho => exec_logHeadWrite_of_foreign hrun hi val hwho⟩⟩
    · subst hg
      rw [exec_logRingWrite_of_room hrun hi hqueue hon hbme hroom hgood, recordWritten_eq]
    · subst hh hn
      rw [exec_logHeadWrite_of_owner hrun hi, headMoved]
      dsimp only
      rw [if_neg (by omega)]
    · subst hh
      rw [exec_logHeadWrite_of_owner hrun hi, headMoved, if_pos (.inl hhigh)]
  · subst hx
    exact ⟨fun rest => exec_sidebandRecordRead_of_record hrun, exec_sidebandRecordRead_of_empty hrun, exec_sidebandRecordRead_capture hrun,
      exec_sidebandRecordRead_status hrun⟩
  · subst hq
    exact ⟨exported n s, exec_exportPacketSend_of_due hrun hon hup hdue hn hpps, path_exported n, rfl, rfl, rfl, rfl⟩

end Sys2Proof.Machine
end

section
/-! PROOFS. Operating points, clock lock, limits and deep state (R470 to R475, R477, R487 to R489): the commands. -/
namespace Sys2Proof.Machine

open Sys2Proof

section
variable {s t : State} {id : Nat} {c : Cmd}

/-! ### OP_POINT, CLOCK_LOCK and LIMITS_READ (R470, R475, R489) -/

theorem exec_opPoint (h : Ready s .opPoint id c) (ht : t = { s with power := { s.power with wantPoint := c.p 0 } }) :
    exec (.opPoint id) s = .next (if s.power.point = c.p 0 ∧ atPoint (c.p 0) (cclkMhz s) = true ∧ s.power.change = none then finish0 id 0x0000 t
      else wantPoint (working id { t with power := { t.power with opCmds := s.power.opCmds ++ [id] } })) := by
  subst ht
  exact h.exec _

theorem exec_clockLock (h : Ready s .clockLock id c) : exec (.clockLock id) s = .next
    (if s.power.locking.isSome then s
    else if clocksLocked s = (c.p 0 == 1) then finish0 id 0x0000 s
    else if !(c.p 0 == 1) && crossGroup s then finish id 0x0201 0x10 1 0 0 s
    else working id { (s.orReg .clkSts 0 0 2) with power := { s.power with locking := some (id, c.p 0 == 1) } }) :=
  h.exec _

section
variable (h : Ready s .limitsRead id c)
include h

theorem exec_limitsRead_of_written (hbme : (s.host c.fn).bme = true)
    (hgood : ∀ i, i < 64 → tget .unknown s.hostMem (hostKey (fnPort s c.fn) (c.p 0 + i)) ≠ .bad) :
    exec (.limitsRead id) s = .next (finish0 id 0x0000 { s with hostMem := hostPut s.hostMem (fnPort s c.fn) (c.p 0) (limitsRecord s) }) := by
  have hlen : (limitsRecord s).length = 64 := length_fit _ 64
  show execLimitsRead id s = _
  unfold execLimitsRead
  rw [h.exec, hostWrite_ok hbme (by rwa [hlen])]
  rfl

theorem exec_limitsRead_of_off (hoff : (s.host c.fn).bme = false) : exec (.limitsRead id) s = .next (finish0 id 0x0601 s) := by
  show execLimitsRead id s = _
  unfold execLimitsRead
  rw [h.exec, hostWrite_of_off hoff]
  rfl

end

/-! ### DEEP (R487, R488) -/

/-- Every lode in idle, or none, and nothing that waits for an exit. -/
def lodesIdle (idle : Bool) (s : State) : State :=
  (List.range 32).foldl (fun s n => s.setLode n { s.lode n with idle := idle, wake := none }) s

theorem lode_foldl_setLode (f : Lode → Lode) (s : State) (k : Nat) : ∀ n,
    ((List.range n).foldl (fun s n => s.setLode n (f (s.lode n))) s).lode k = if k < n then f (s.lode k) else s.lode k
  | 0 => rfl
  | n + 1 => by
    rw [List.range_succ, List.foldl_append, List.foldl_cons, List.foldl_nil]
    have ih := lode_foldl_setLode f s k n
    by_cases heq : k = n
    · subst heq
      rw [lode_setLode, ih, if_neg (Nat.lt_irrefl k), if_pos (Nat.lt_succ_self k)]
    · rw [lode_setLode_other _ _ _ heq, ih]
      exact ite_congr (propext (by omega)) (fun _ => rfl) fun _ => rfl

theorem lode_lodesIdle (idle : Bool) (s : State) {n : Nat} (hn : n < 32) : (lodesIdle idle s).lode n = { s.lode n with idle := idle, wake := none } :=
  (lode_foldl_setLode (fun x => { x with idle := idle, wake := none }) s n 32).trans (if_pos hn)

/-- Lodes in idle are no concern of the rest of the state. -/
theorem lodesIdle_fixes {γ : Type} (g : State → γ) (h : ∀ s n x, g (State.setLode s n x) = g s) (idle : Bool) (s : State) : g (lodesIdle idle s) = g s :=
  foldl_fixes (f := fun s n => s.setLode n { s.lode n with idle := idle, wake := none }) g (fun _ _ => h ..) _ s

theorem power_lodesIdle (idle : Bool) (s : State) : (lodesIdle idle s).power = s.power := lodesIdle_fixes State.power (fun _ _ _ => rfl) idle s

section
variable (h : Ready s .deep id c)
include h

theorem exec_deep_of_illegal (henter : c.p 0 = 1) (hillegal : deepLegal s = false) :
    exec (.deep id) s = .next (finish id 0x0201 0x18 0 0 0 s) := by
  refine (h.exec _).trans (congrArg _ ((if_pos henter).trans ((if_neg (by simp [hillegal])).trans ?_)))
  rw [h.on]
  rfl

theorem exec_deep_of_legal (henter : c.p 0 = 1) (hlegal : deepLegal s = true) :
    exec (.deep id) s = .next (lodesIdle true (working id { s with power := { s.power with dstate := .entering, deepCmd := some id } })) :=
  (h.exec _).trans (congrArg _ ((if_pos henter).trans (if_pos hlegal)))

theorem exists_exec_deep_of_legal (henter : c.p 0 = 1) (hlegal : deepLegal s = true) :
    ∃ u, exec (.deep id) s = .next u ∧ u.power.dstate = .entering ∧ u.power.deepCmd = some id ∧
      ∀ n, n < 32 → u.lode n = { s.lode n with idle := true, wake := none } := by
  refine ⟨_, exec_deep_of_legal h henter hlegal, ?_, ?_, fun n hn => lode_lodesIdle true _ hn⟩
  · rw [power_lodesIdle]
    rfl
  · rw [power_lodesIdle]
    rfl

theorem exec_deep_of_on (hexit : c.p 0 ≠ 1) : exec (.deep id) s = .next (finish0 id 0x0000 s) :=
  (h.exec _).trans (congrArg _ ((if_neg hexit).trans (if_pos h.on)))

end

section
variable (hrun : s.power.running = true)
include hrun

/-- DEEP needs no memory, so it is served in every deep state. -/
theorem exec_deep_of_off (hfind : findCmd s id = some c) (hop : cmdOp c = some .deep) (hphase : c.phase = .ready) (hturn : unitTurn s c = true)
    (hoff : s.power.dstate ≠ .on) : exec (.deep id) s = .next
      (if c.p 0 = 1 then conflict id 0x18 0 (dCode s.power.dstate) 0 s
      else
        let u := wakeDeep (working id s)
        { u with power := { u.power with exitCmds := u.power.exitCmds ++ [id] } }) := by
  have hillegal : deepLegal s ≠ true := by simp [deepLegal, hoff]
  show execDeep id s = _
  unfold execDeep startOp
  rw [run_next rfl hrun]
  dsimp only
  rw [hfind]
  dsimp only
  rw [if_pos ⟨hop, hphase, hturn⟩, if_neg hillegal, if_neg hoff]
  rfl

/-- The memories are in deep state: nothing of them is due. -/
def memoriesDeep (s : State) : State :=
  (List.range 12).foldl (fun s c => s.setMemc c { s.memc c with slot := [], long := [] })
    { s with power := { s.power with dstate := .deep, deepCmd := none } }

omit hrun in
theorem memc_foldl_setMemc (f : MemCtl → MemCtl) (s : State) (k : Nat) : ∀ n,
    ((List.range n).foldl (fun s n => s.setMemc n (f (s.memc n))) s).memc k = if k < n then f (s.memc k) else s.memc k
  | 0 => rfl
  | n + 1 => by
    rw [List.range_succ, List.foldl_append, List.foldl_cons, List.foldl_nil]
    have ih := memc_foldl_setMemc f s k n
    by_cases heq : k = n
    · subst heq
      rw [memc_setMemc, ih, if_neg (Nat.lt_irrefl k), if_pos (Nat.lt_succ_self k)]
    · rw [memc_setMemc_other _ _ _ heq, ih]
      exact ite_congr (propext (by omega)) (fun _ => rfl) fun _ => rfl

omit hrun in
theorem memc_memoriesDeep {n : Nat} (hn : n < 12) : (memoriesDeep s).memc n = { s.memc n with slot := [], long := [] } :=
  (memc_foldl_setMemc (fun x : MemCtl => { x with slot := [], long := [] }) _ n 12).trans (if_pos hn)

omit hrun in
theorem power_memoriesDeep : (memoriesDeep s).power = { s.power with dstate := .deep, deepCmd := none } :=
  foldl_fixes (f := fun s c => s.setMemc c { s.memc c with slot := [], long := [] }) State.power (fun _ _ => rfl) _ _

theorem exec_deepEntryDone_of_command (hdeep : s.power.dstate = .entering) (hcmd : s.power.deepCmd = some id) :
    exec .deepEntryDone s = .next (finish0 id 0x0000 (memoriesDeep s)) := by
  show execDeepEntryDone s = _
  unfold execDeepEntryDone
  rw [run_onlyIf_of_true rfl hrun (by rw [hdeep]; rfl)]
  dsimp only
  rw [hcmd]
  rfl

theorem exec_deepEntryDone_of_none (hdeep : s.power.dstate = .entering) (hcmd : s.power.deepCmd = none) :
    exec .deepEntryDone s = .next (memoriesDeep s) := by
  show execDeepEntryDone s = _
  unfold execDeepEntryDone
  rw [run_onlyIf_of_true rfl hrun (by rw [hdeep]; rfl)]
  dsimp only
  rw [hcmd]
  rfl

theorem exec_deepEntryDone_of_other (hother : s.power.dstate ≠ .entering) : exec .deepEntryDone s = .next s :=
  run_onlyIf_of_false rfl hrun (by simp [hother])

/-- The memories are on again, their calibrations due anew. -/
def memoriesOn (s : State) : State :=
  (List.range 12).foldl (fun s c => recalRest c s) { s with power := { s.power with dstate := .on, exitCmds := [] } }

theorem exec_deepExitDone (hexit : s.power.dstate = .exiting) :
    exec .deepExitDone s = .next (s.power.exitCmds.foldl (fun s id => finish0 id 0x0000 s)
      ((lodesIdle false (memoriesOn s)).cmd.cmds.foldl (fun s c => if c.phase = .working ∧ cmdOp c = some .lodePower then finish0 c.id 0x0000 s else s)
        (lodesIdle false (memoriesOn s)))) :=
  run_onlyIf_of_true rfl hrun (by rw [hexit]; rfl)

theorem exec_deepExitDone_of_other (hother : s.power.dstate ≠ .exiting) : exec .deepExitDone s = .next s :=
  run_onlyIf_of_false rfl hrun (by simp [hother])

omit hrun in
/-- A recalibration of a memory is no concern of power, lodes or commands. -/
theorem recalRest_rest (k : Nat) (s : State) :
    (recalRest k s).power = s.power ∧ (recalRest k s).lodes = s.lodes ∧ (recalRest k s).cmd = s.cmd := by
  unfold recalRest State.countTv State.count
  dsimp only
  repeat' split
  all_goals exact ⟨rfl, rfl, rfl⟩

omit hrun in
theorem memoriesOn_rest : (memoriesOn s).power = { s.power with dstate := .on, exitCmds := [] } ∧ (memoriesOn s).lodes = s.lodes ∧
    (memoriesOn s).cmd = s.cmd := by
  unfold memoriesOn
  refine ⟨foldl_fixes (f := fun s c => recalRest c s) State.power (fun s k => ?_) _ _,
    foldl_fixes (f := fun s c => recalRest c s) State.lodes (fun s k => ?_) _ _,
    foldl_fixes (f := fun s c => recalRest c s) State.cmd (fun s k => ?_) _ _⟩
  · exact (recalRest_rest k s).1
  · exact (recalRest_rest k s).2.1
  · exact (recalRest_rest k s).2.2

theorem exists_exec_deepExitDone {u : State} (hexit : s.power.dstate = .exiting)
    (hu : u = (List.range 12).foldl (fun s c => recalRest c s) { s with power := { s.power with dstate := .on, exitCmds := [] } }) :
    ∃ v, exec .deepExitDone s = .next (s.power.exitCmds.foldl (fun s id => finish0 id 0x0000 s)
        (s.cmd.cmds.foldl (fun s c => if c.phase = .working ∧ cmdOp c = some .lodePower then finish0 c.id 0x0000 s else s) v)) ∧
      v.memctl = u.memctl ∧ v.regs = u.regs ∧ v.power.dstate = .on ∧ v.power.exitCmds = [] ∧
      ∀ n, n < 32 → v.lode n = { s.lode n with idle := false, wake := none } := by
  obtain ⟨hpower, hlodes, hcmd⟩ := memoriesOn_rest (s := s)
  have hu : u = memoriesOn s := hu
  subst hu
  refine ⟨lodesIdle false (memoriesOn s), ?_, lodesIdle_fixes State.memctl (fun _ _ _ => rfl) false _,
    lodesIdle_fixes State.regs (fun _ _ _ => rfl) false _,
    ?_, ?_, fun n hn => ?_⟩
  · rw [exec_deepExitDone hrun hexit, lodesIdle_fixes State.cmd (fun _ _ _ => rfl), hcmd]
  · rw [power_lodesIdle, hpower]
  · rw [power_lodesIdle, hpower]
  · rw [lode_lodesIdle false _ hn, State.lode, hlodes]
    rfl

end

end

end Sys2Proof.Machine
end

section
/-! PROOFS. The PM core, the clamp and the trips (R470 to R475, R477), and what O48 says of power as a whole. -/
namespace Sys2Proof.Machine

open Sys2Proof

section
variable {s t : State} {id mhz mv : Nat}

/-! ### The end of CLOCK_LOCK (R475) -/

/-- The clocks locked or unlocked, each running group lapsed, for the CLOCK_LOCK `id`. -/
def lockTaken (id : Nat) (lock : Bool) (s : State) : State :=
  if !lock && crossGroup s then conflict id 0x10 0 1 0 s
  else finish0 id 0x0000
    ((s.groups.foldl (fun s (_, g) => if g.st = .running then groupLapse g s else s) s).setField .clkSts 0 0 0 0 (if lock then 1 else 0))

section
variable (hrun : s.power.running = true)
include hrun

theorem exec_clockLockDone_of_none (hnone : s.power.locking = none) : exec .clockLockDone s = .next s := by
  show execClockLockDone s = _
  unfold execClockLockDone
  rw [run_next rfl hrun]
  dsimp only
  rw [hnone]

theorem exec_clockLockDone {lock : Bool} (hlocking : s.power.locking = some (id, lock)) :
    exec .clockLockDone s = .next (if s.power.change.isSome && !clamped s then s
      else lockTaken id lock { (s.setField .clkSts 0 0 1 1 0) with power := { s.power with locking := none } }) := by
  show execClockLockDone s = _
  unfold execClockLockDone
  rw [run_next rfl hrun]
  dsimp only
  rw [hlocking]
  rfl

/-! ### Frequency changes (R470, R471, R474) -/

variable {ack : Bool} (hpm : pmRuns s = true)
include hpm

theorem exec_frequencySwitch_of_limit (hlimit : 1650 < mhz ∨ 800 < mv) : exec (.frequencySwitch mhz mv ack) s = .next (s.orReg .pwrErr 0 0 8) :=
  (run_onlyIf_of_true rfl hrun hpm).trans (congrArg _ (if_pos hlimit))

theorem exec_frequencySwitch_of_none (hmhz : mhz ≤ 1650) (hmv : mv ≤ 800) (hnone : s.power.change = none) :
    exec (.frequencySwitch mhz mv ack) s = .next s := by
  show execFrequencySwitch mhz mv ack s = _
  unfold execFrequencySwitch
  rw [run_onlyIf_of_true rfl hrun hpm]
  dsimp only
  rw [if_neg (by omega), hnone]

theorem exec_frequencySwitch_of_wanted {want : Nat} (hmhz : mhz ≤ 1650) (hmv : mv ≤ 800) (hchange : s.power.change = some want)
    (hwant : mhz = want ∨ (s.power.wantPoint = 1 ∧ atPoint 1 mhz = true ∧ atPoint 1 want = true)) (hfree : clamped s = false) (hmin : vcdMin mhz ≤ mv) :
    exec (.frequencySwitch mhz mv ack) s = .next
      (if !ack && decide (cclkMhz (railsSet mv ack s) < mhz) then railsSet mv ack s else frequencyTaken mhz (railsSet mv ack s)) := by
  have hok : (mhz == want || (s.power.wantPoint == 1 && atPoint 1 mhz && atPoint 1 want)) = true := by
    rcases hwant with rfl | ⟨hpoint, hnow, hthen⟩
    · simp
    · simp [hpoint, hnow, hthen]
  show execFrequencySwitch mhz mv ack s = _
  unfold execFrequencySwitch
  rw [run_onlyIf_of_true rfl hrun hpm]
  dsimp only
  rw [if_neg (by omega), hchange]
  dsimp only
  rw [hok, hfree, if_neg (by simp [hmin])]

end

/-- The point that was wanted holds, and no command waits for it. -/
def pointHeld (s : State) : State := { s with power := { s.power with point := s.power.wantPoint, powLow := false, opCmds := [] } }

/-- No change is under way. -/
def changeDone (s : State) : State := { s with power := { s.power with change := none } }

/-- CCLK at `mhz`, and no safe point. -/
def mhzSet (mhz : Nat) (s : State) : State := ((changeDone s).setField .pwrSts 0 0 10 0 mhz).setField .pwrSts 0 0 12 12 0

theorem cclkMhz_congr (h : t.regs = s.regs) : cclkMhz t = cclkMhz s := by
  unfold cclkMhz
  rw [reg_congr h]

theorem cclkMhz_setField_high {k v : Nat} (hk : 10 < k) : cclkMhz (s.setField .pwrSts 0 0 k k v) = cclkMhz s :=
  bits_setField_other _ _ _ _ _ _ _ _ _ (by decide) (.inr hk)

theorem cclkMhz_setField {v : Nat} (hv : v < 2048) : cclkMhz (s.setField .pwrSts 0 0 10 0 v) = v :=
  (bits_setField _ _ _ _ _ _ _ (by decide)).trans (Nat.mod_eq_of_lt hv)

theorem cclkMhz_mhzSet (hmhz : mhz < 2048) : cclkMhz (mhzSet mhz s) = mhz :=
  (cclkMhz_setField_high (by decide)).trans (cclkMhz_setField hmhz)

theorem cclkMhz_pointHeld : cclkMhz (pointHeld s) = cclkMhz s := cclkMhz_congr rfl

theorem pointReached_of_one (hat : atPoint s.power.wantPoint (cclkMhz s) = true) (hcmds : s.power.opCmds = [id]) :
    pointReached s = finish0 id 0x0000 (pointHeld s) := by
  unfold pointReached
  rw [if_pos hat]
  dsimp only
  rw [hcmds]
  rfl

theorem setMhz_of_no_group (hgroups : s.groups = []) : setMhz mhz s = s.setField .pwrSts 0 0 10 0 mhz := by
  unfold setMhz
  rw [hgroups]
  dsimp only [List.foldl]
  rw [show (s.setField .pwrSts 0 0 10 0 mhz).groups = [] from hgroups]
  exact ite_self _

theorem frequencyTaken_of_no_group (hgroups : s.groups = []) (hpoint : s.power.point ≠ 2) :
    frequencyTaken mhz s = pointReached (mhzSet mhz s) := by
  have hmhz : setMhz mhz (changeDone s) = (changeDone s).setField .pwrSts 0 0 10 0 mhz := setMhz_of_no_group hgroups
  have htaken : frequencyTaken mhz s = (fun u : State => pointReached (if u.power.point = 2 then
      { u with power := { u.power with point := u.power.wantPoint } } else u)) ((setMhz mhz (changeDone s)).setField .pwrSts 0 0 12 12 0) := rfl
  rw [htaken, hmhz]
  exact congrArg pointReached (if_neg hpoint)

theorem frequencyTaken_of_zero (hgroups : s.groups = []) (hpoint : s.power.point = 0) (hwant : s.power.wantPoint = 0)
    (hcmds : s.power.opCmds = [id]) : frequencyTaken 1500 s = finish0 id 0x0000 (pointHeld (mhzSet 1500 s)) := by
  have hat : atPoint (mhzSet 1500 s).power.wantPoint (cclkMhz (mhzSet 1500 s)) = true := by
    rw [cclkMhz_mhzSet (by decide), show (mhzSet 1500 s).power.wantPoint = 0 from hwant]
    rfl
  rw [frequencyTaken_of_no_group hgroups (by omega), pointReached_of_one hat hcmds]

/-! ### Samples of the PM core (R472, R473) -/

/-- A sample of power and temperatures, before the throttle follows it. -/
def sampled (watts : Nat) (cd0 cd1 idc : Int) (s : State) : State :=
  let avg := pmMean watts s
  let u := { s with power := { s.power with
    samples := (watts :: s.power.samples).take 10, sampleDue := s.tb.ticks + 100 * usTicks
    hotAt := if 100 ≤ max cd0 (max cd1 idc) then s.tb.ticks else s.power.hotAt
    powLow := decide (s.reg .pwrLimit < avg) || (s.power.powLow && decide (s.reg .pwrLimit * 95 < avg * 100)) } }
  (u.setReg .pwrPower 0 0 (min avg 2047)).setReg .pwrTemp 0 0 (wrapInt 8 cd0 + wrapInt 8 cd1 * 256 + wrapInt 8 idc * 65536)

/-- Throttled from 100 °C on, and until below 98 °C. -/
def throttleSet (hottest : Int) (s : State) : State :=
  if 100 ≤ hottest then s.setField .pwrSts 0 0 13 13 1 else if hottest < 98 then s.setField .pwrSts 0 0 13 13 0 else s

theorem pmRecord_eq (w : Nat) (a b d : Int) (s : State) : pmRecord w a b d s = throttleSet (max a (max b d)) (sampled w a b d s) := by
  unfold pmRecord throttleSet sampled
  dsimp only
  simp only [decide_eq_true_eq]

section
variable {watts : Nat} {cd0 cd1 idc hottest : Int}

theorem reg_sampled_power : (sampled watts cd0 cd1 idc s).reg .pwrPower = min (pmMean watts s) 2047 := by
  unfold sampled
  dsimp only
  rw [reg_setReg_of_off_ne (by decide), reg_setReg]
  exact Nat.mod_eq_of_lt (Nat.lt_of_le_of_lt (Nat.min_le_right ..) (by decide))

theorem reg_sampled_sts : (sampled watts cd0 cd1 idc s).reg .pwrSts = s.reg .pwrSts := by
  unfold sampled
  dsimp only
  rw [reg_setReg_of_off_ne (by decide), reg_setReg_of_off_ne (by decide)]
  rfl

theorem reg_throttleSet_power : (throttleSet hottest s).reg .pwrPower = s.reg .pwrPower := by
  unfold throttleSet
  split
  · exact reg_setReg_of_off_ne (by decide) _ _ _
  · split
    · exact reg_setReg_of_off_ne (by decide) _ _ _
    · rfl

theorem power_throttleSet : (throttleSet hottest s).power = s.power := by
  unfold throttleSet
  split
  · exact setField_power ..
  · split
    · exact setField_power ..
    · rfl

/-- The throttle changes its own bit only. -/
theorem bits_throttleSet {hi lo : Nat} (hother : 13 < lo ∨ hi < 13) (hw : hi < 32) :
    bits ((throttleSet hottest s).reg .pwrSts) hi lo = bits (s.reg .pwrSts) hi lo := by
  unfold throttleSet
  split
  · exact bits_setField_other _ _ _ _ _ _ _ _ _ hw hother
  · split
    · exact bits_setField_other _ _ _ _ _ _ _ _ _ hw hother
    · rfl

theorem bit_throttleSet {k : Nat} (hother : k ≠ 13) (hw : k < 32) : bit ((throttleSet hottest s).reg .pwrSts) k = bit (s.reg .pwrSts) k := by
  unfold throttleSet
  split
  · exact bit_setField_of_outside hw (by omega)
  · split
    · exact bit_setField_of_outside hw (by omega)
    · rfl

theorem throttled_throttleSet : throttled (throttleSet hottest s) = if 100 ≤ hottest then true else if hottest < 98 then false else throttled s := by
  unfold throttleSet
  split
  · exact bit_setField_of_within (by decide) (by decide) (by decide)
  · split
    · exact bit_setField_of_within (by decide) (by decide) (by decide)
    · rfl

theorem pmAct_eq (down : Bool) (s : State) : pmAct down s = { s with power := { s.power with change := (pmAct down s).power.change } } := by
  unfold pmAct
  dsimp only
  repeat' split
  all_goals rfl

theorem pmAct_of_held {down : Bool} (hheld : clamped s = true ∨ safeHeld s = true) : pmAct down s = s :=
  if_pos (by simpa using hheld)

theorem change_pmAct_of_down (hclamp : clamped s = false) (hsafe : safeHeld s = false) (hfast : 750 < cclkMhz s) :
    (pmAct true s).power.change = some (max 750 (cclkMhz s - 25)) := by
  unfold pmAct
  dsimp only
  rw [if_neg (by simp [hclamp, hsafe]), if_pos rfl, if_pos hfast]

end

theorem exec_pmSample {w : Nat} {a b d : Int} (hrun : s.power.running = true) (hpm : pmRuns s = true) (hdue : s.power.sampleDue ≤ s.tb.ticks) :
    exec (.pmSample w a b d) s = .next (pmAct (decide (100 ≤ max a (max b d)) || decide (s.reg .pwrLimit < pmMean w s))
      (throttleSet (max a (max b d)) (sampled w a b d s))) := by
  rw [← pmRecord_eq]
  exact run_onlyIf_of_true rfl hrun (by rw [hpm, decide_eq_true hdue]; rfl)

section
variable {w : Nat} {a b d : Int} {down : Bool}

/-- What a sample leaves of the bits that the PM core does not move. -/
theorem sts_recorded : clamped (throttleSet hottest (sampled w a b d s)) = clamped s ∧ safeHeld (throttleSet hottest (sampled w a b d s)) = safeHeld s ∧
    cclkMhz (throttleSet hottest (sampled w a b d s)) = cclkMhz s := by
  refine ⟨?_, ?_, ?_⟩
  · rw [clamped, bit_throttleSet (by decide) (by decide), reg_sampled_sts]
    rfl
  · rw [safeHeld, bit_throttleSet (by decide) (by decide), reg_sampled_sts]
    rfl
  · rw [cclkMhz, bits_throttleSet (by decide) (by decide), reg_sampled_sts]
    rfl

theorem reg_pmAct (r : Reg) (i j : Nat) : (pmAct down s).reg r i j = s.reg r i j := by
  rw [pmAct_eq]
  rfl

theorem throttled_recorded : throttled (pmAct down (throttleSet hottest (sampled w a b d s))) =
    if 100 ≤ hottest then true else if hottest < 98 then false else throttled s := by
  have hbefore : throttled (sampled w a b d s) = throttled s := by
    rw [throttled, reg_sampled_sts]
    rfl
  rw [throttled, reg_pmAct, ← hbefore]
  exact throttled_throttleSet

/-- A sample's record, and the change of frequency that it asks for. -/
theorem exists_exec_pmSample {avg : Nat} {l : List Nat} (hrun : s.power.running = true) (hpm : pmRuns s = true) (hdue : s.power.sampleDue ≤ s.tb.ticks)
    (hl : l = (w :: s.power.samples).take 10) (havg : avg = pmMean w s) :
    ∃ u, exec (.pmSample w a b d) s = .next u ∧ u.reg .pwrPower = min avg 2047 ∧
      u.power.samples = l ∧ u.power.sampleDue = s.tb.ticks + 100 * usTicks ∧
      (100 ≤ max a (max b d) → u.power.hotAt = s.tb.ticks ∧ throttled u = true) ∧ (max a (max b d) < 98 → throttled u = false) ∧
      (98 ≤ max a (max b d) → max a (max b d) < 100 → throttled u = throttled s) ∧
      (clamped s = true ∨ safeHeld s = true → u.power.change = s.power.change) ∧
      (clamped s = false → safeHeld s = false → 100 ≤ max a (max b d) ∨ s.reg .pwrLimit < avg → 750 < cclkMhz s →
        u.power.change = some (max 750 (cclkMhz s - 25))) := by
  subst hl havg
  generalize hhottest : max a (max b d) = hottest
  have hexec := exec_pmSample (w := w) (a := a) (b := b) (d := d) hrun hpm hdue
  rw [hhottest] at hexec
  obtain ⟨hclamped, hsafe, hmhz⟩ := sts_recorded (s := s) (hottest := hottest) (w := w) (a := a) (b := b) (d := d)
  refine ⟨_, hexec, ?_, ?_, ?_, fun hhot => ⟨?_, ?_⟩, fun hcool => ?_, fun hwarm hcool => ?_, fun hheld => ?_, fun hfree hrelease hdown hfast => ?_⟩
  · rw [reg_pmAct, reg_throttleSet_power, reg_sampled_power]
  · rw [pmAct_eq, power_throttleSet]
    rfl
  · rw [pmAct_eq, power_throttleSet]
    rfl
  · rw [pmAct_eq, power_throttleSet]
    show (if 100 ≤ max a (max b d) then s.tb.ticks else s.power.hotAt) = _
    rw [hhottest, if_pos hhot]
  · rw [throttled_recorded, if_pos hhot]
  · rw [throttled_recorded, if_neg (by omega), if_pos hcool]
  · rw [throttled_recorded, if_neg (by omega), if_neg (by omega)]
  · rw [pmAct_of_held (by rwa [hclamped, hsafe]), power_throttleSet]
    rfl
  · have hasks : (decide (100 ≤ hottest) || decide (s.reg .pwrLimit < pmMean w s)) = true := by simpa using hdown
    rw [hasks, change_pmAct_of_down (by rw [hclamped, hfree]) (by rw [hsafe, hrelease]) (by rwa [hmhz]), hmhz]

end

/-! ### The clamp and the trip (R474, R477) -/

theorem exec_thermalClamp {deg : Int} (hrun : s.power.running = true) (hhot : 105 ≤ deg) (hfree : clamped s = false) :
    exec (.thermalClamp deg) s = .next (limitRec 0 ((lapseAll 1 (clampPoint s)).countTv 7 1)) :=
  run_onlyIf_of_true rfl hrun (by simp [hhot, hfree])

theorem exec_thermalClamp_of_stays {deg : Int} (hrun : s.power.running = true) (hstays : deg < 105 ∨ clamped s = true) :
    exec (.thermalClamp deg) s = .next s :=
  run_onlyIf_of_false rfl hrun (Bool.and_eq_false_iff.2
    (hstays.imp (fun hcool => decide_eq_false (by omega)) fun hclamped => congrArg not hclamped))

/-- A change of frequency writes registers, and the cycles of groups. -/
theorem setMhz_fixes {γ : Type} (f : State → γ) (hreg : ∀ s r i j v, f (State.setReg s r i j v) = f s) (hgrp : ∀ s g x, f (State.setGrp s g x) = f s)
    (mhz : Nat) (s : State) : f (setMhz mhz s) = f s := by
  have hcycles (t : State) (l : List (Nat × Grp)) :
      f (l.foldl (fun s (i, _) => let g := s.grp i; if g.st = .running then s.setGrp i (foldCycles s g) else s) t) = f t :=
    foldl_fixes f (fun s x => (apply_ite f ..).trans (ite_eq_right_iff.2 fun _ => hgrp ..)) l t
  have hlapses (t : State) (l : List (Nat × Grp)) : f (l.foldl (fun s (_, g) => if g.st = .running then s.orReg .detSts 0 g.tenant 4 else s) t) = f t :=
    foldl_fixes f (fun s x => (apply_ite f ..).trans (ite_eq_right_iff.2 fun _ => hreg ..)) l t
  unfold setMhz
  dsimp only
  split
  · exact (hreg ..).trans (hcycles ..)
  · exact (hlapses ..).trans ((hreg ..).trans (hcycles ..))

theorem pmRuns_goSafe (s : State) : pmRuns (goSafe s) = pmRuns s := by
  have hmhz : pmRuns (setMhz 1000 (s.orReg .pwrSts 0 0 0x1000)) = pmRuns s :=
    setMhz_fixes pmRuns (fun _ _ _ _ _ => rfl) (fun _ _ _ => rfl) 1000 _
  exact hmhz

theorem pmRuns_clampOff (s : State) : pmRuns (s.setField .pwrSts 0 0 11 11 0) = pmRuns s := rfl

/-- The clamp released: the safe point that waited is taken, or the point that was wanted before. -/
def clampEnded (s : State) : State :=
  let s := s.setField .pwrSts 0 0 11 11 0
  if s.power.safePending then
    let s := goSafe s
    if pmRuns s then wantPoint s else s
  else { s with power := { s.power with point := s.power.wantPoint } }

theorem clampEnded_of_none (hsafe : s.power.safePending = false) :
    clampEnded s = { s.setField .pwrSts 0 0 11 11 0 with power := { s.power with point := s.power.wantPoint } } :=
  if_neg (ne_true_of_eq_false hsafe)

theorem clampEnded_of_pending (hsafe : s.power.safePending = true) : clampEnded s =
    if pmRuns s then wantPoint (goSafe (s.setField .pwrSts 0 0 11 11 0)) else goSafe (s.setField .pwrSts 0 0 11 11 0) := by
  refine (if_pos hsafe).trans ?_
  rw [pmRuns_goSafe, pmRuns_clampOff]

theorem exec_clampRelease {cool : Nat} (hrun : s.power.running = true) (hcool : 10 * msTicks ≤ cool) (hsince : s.power.hotAt + cool ≤ s.tb.ticks)
    (hclamped : clamped s = true) : exec (.clampRelease cool) s = .next (clampEnded s) := by
  have hguard : (decide (10 * msTicks ≤ cool) && decide (s.power.hotAt + cool ≤ s.tb.ticks) && clamped s) = true := by
    rw [decide_eq_true hcool, decide_eq_true hsince, hclamped]
    rfl
  exact run_onlyIf_of_true rfl hrun hguard

/-- The clamp's own bits, its point and its frequency, with no group to lapse. -/
theorem clampPoint_of_no_group (hgroups : s.groups = []) : (clampPoint s).power.point = 3 ∧ cclkMhz (clampPoint s) = 750 ∧ clamped (clampPoint s) = true ∧
    bit ((clampPoint s).reg .pwrErr) 0 = true ∧ (clampPoint s).power.change = none ∧ (clampPoint s).power.hotAt = s.tb.ticks := by
  have hmhz : setMhz 750 (s.orReg .pwrSts 0 0 0x800) = (s.orReg .pwrSts 0 0 0x800).setField .pwrSts 0 0 10 0 750 := setMhz_of_no_group hgroups
  let u := ((s.orReg .pwrSts 0 0 0x800).setField .pwrSts 0 0 10 0 750).orReg .pwrErr 0 0 1
  let v : State := { u with power := { u.power with
    point := 3, change := none, safePending := u.power.safePending || safeHeld u, hotAt := u.tb.ticks } }
  have hclamp : clampPoint s = v.setField .pwrSts 0 0 12 12 0 := by
    unfold clampPoint
    rw [hmhz]
  have hregs : v.regs = u.regs := rfl
  have hsts : u.reg .pwrSts = ((s.orReg .pwrSts 0 0 0x800).setField .pwrSts 0 0 10 0 750).reg .pwrSts := reg_orReg_of_off_ne (by decide) _ _ _
  rw [hclamp]
  refine ⟨rfl, ?_, ?_, ?_, rfl, rfl⟩
  · rw [cclkMhz_setField_high (by decide), cclkMhz_congr hregs, cclkMhz, hsts]
    exact cclkMhz_setField (by decide)
  · rw [clamped, bit_setField_of_outside (by decide) (by decide), reg_congr hregs, hsts, bit_setField_of_outside (by decide) (by decide),
      bit_orReg (by decide), Bool.or_eq_true]
    exact .inr (by decide)
  · rw [State.setField, reg_setReg_of_off_ne (by decide), reg_congr hregs, bit_orReg (by decide), Bool.or_eq_true]
    exact .inr (by decide)

/-- The record, the time-variant count and the lapses of the clamp are telemetry. -/
theorem tells_clamp (s : State) : Tells s (limitRec 0 ((lapseAll 1 s).countTv 7 1)) := by
  have hlapse : Tells s (lapseAll 1 s) :=
    Tells.foldlIn (P := fun t => t < 16) (fun s t ht => tells_setReg _ _ _ _ _ (by simp only [regAddr, regRow, blkBase]; omega)) _
      (fun t => List.mem_range.1) s
  obtain ⟨v, hcount⟩ := count_eq_setReg (lapseAll 1 s) .telTv 0 7 1
  have hcounted : Tells (lapseAll 1 s) ((lapseAll 1 s).countTv 7 1) := by
    rw [State.countTv, hcount]
    exact tells_setReg _ _ _ _ _ (by decide)
  exact hlapse.trans (hcounted.trans (tells_raise 0 none _ _ _ _ nofun))

end

/-- Settles O48: each command and each event of power, by the state's point, clamp and deep state. GROUP_LAPSE at the end of CLOCK_LOCK (log entry 28) and
OK to DEEP ENTER 0 in ON (log entry 29) are the model's choices. -/
theorem power_Commands : Obligations.Power_Commands := by
  intro s t id c
  refine ⟨fun p h hp ht => ?_, fun h => ⟨fun hlocking => ?_, fun hlocking hsame => ?_, fun hlocking hopen hlock => ?_, fun hlocking hlocked hunlock hcross => ?_,
    fun hlocking hlocked hunlock hcross => ?_⟩, exec_limitsRead_of_written, exec_limitsRead_of_off, exec_deep_of_illegal,
    exists_exec_deep_of_legal, exec_deep_of_on,
    fun hrun hfind hop hphase hturn hoff => ⟨fun henter => ?_, fun hexit ht => ?_⟩, fun hrun => ⟨fun hentering =>
    ⟨memoriesDeep s, ?_, ?_, fun n hn => memc_memoriesDeep hn, exec_deepEntryDone_of_command hrun hentering, exec_deepEntryDone_of_none hrun hentering⟩,
    exec_deepEntryDone_of_other hrun, fun u => exists_exec_deepExitDone hrun, exec_deepExitDone_of_other hrun,
    exec_clockLockDone_of_none hrun, fun lock hlocking ht => ⟨?_, ?_⟩, fun mhz mv ack hpm => ⟨exec_frequencySwitch_of_limit hrun hpm,
    exec_frequencySwitch_of_none hrun hpm, fun want hchange hmhz hmv hwant hfree hmin ht => ⟨?_, ?_⟩⟩, fun hchange hpm hfree hgroups hpoint hwant hcmds => ?_,
    fun w a b d avg l => exists_exec_pmSample hrun, fun w a b d hearly => ?_, fun deg hhot hfree => ⟨exec_thermalClamp hrun hhot hfree, fun hgroups =>
    ⟨_, exec_thermalClamp hrun hhot hfree, ?_⟩⟩, fun deg => exec_thermalClamp_of_stays hrun, fun cool hcool hsince hclamped ht => ⟨?_, ?_, ?_⟩, fun cool hstays => ?_,
    fun deg hhot => ?_, fun deg hcool => ?_⟩, rfl⟩
  · subst hp
    rw [exec_opPoint h ht]
    exact ⟨fun hat => by rw [if_pos hat], fun haway => by rw [if_neg haway]⟩
  · rw [exec_clockLock h, if_pos (Option.isSome_iff_ne_none.2 hlocking)]
  · rw [exec_clockLock h, if_neg (by simp [hlocking]), if_pos hsame]
  · rw [exec_clockLock h, if_neg (by simp [hlocking]), if_neg (by simp [hopen, hlock]), if_neg (by simp [hlock]), hlock]
    rfl
  · rw [exec_clockLock h, if_neg (by simp [hlocking]), if_neg (by simp [hlocked, hunlock]), if_neg (by simp [hcross]), hunlock]
    rfl
  · rw [exec_clockLock h, if_neg (by simp [hlocking]), if_neg (by simp [hlocked, hunlock]), if_pos (by simp [hunlock, hcross])]

  · rw [exec_deep_of_off hrun hfind hop hphase hturn hoff, if_pos henter]
  · rw [exec_deep_of_off hrun hfind hop hphase hturn hoff, if_neg hexit, ht]
  · exact congrArg Power.dstate power_memoriesDeep
  · exact congrArg Power.deepCmd power_memoriesDeep

  · intro hchange hfree
    rw [exec_clockLockDone hrun hlocking, if_pos (by simp [hchange, hfree, Option.isSome_iff_ne_none])]
  · intro hidle
    have hends : ¬ (s.power.change.isSome && !clamped s) = true := by
      rcases hidle with hnone | hclamped
      · simp [hnone]
      · simp [hclamped]
    rw [exec_clockLockDone hrun hlocking, if_neg hends, ← ht]
    refine ⟨fun ⟨hlock, hcross⟩ => ?_, fun hok => ?_⟩
    · rw [lockTaken, if_pos (by simp [hlock, hcross])]
      rfl
    · have hgoes : ¬ (!lock && crossGroup t) = true := by
        rcases hok with hlock | hcross
        · simp [hlock]
        · simp [hcross]
      rw [lockTaken, if_neg hgoes]
  · intro hup
    have hgoes : ¬ (!ack && decide (cclkMhz t < mhz)) = true := by
      rcases hup with hack | hslow
      · simp [hack]
      · simp [Nat.not_lt.2 hslow]
    rw [exec_frequencySwitch_of_wanted hrun hpm hmhz hmv hchange hwant hfree hmin, ← ht, if_neg hgoes]
  · intro hack hfast
    rw [exec_frequencySwitch_of_wanted hrun hpm hmhz hmv hchange hwant hfree hmin, ← ht, if_pos (by simp [hack, hfast])]
  · have hswitch := exec_frequencySwitch_of_wanted (mv := 700) (ack := true) hrun hpm (by decide) (by decide) hchange (.inl rfl) hfree (by decide)
    rw [if_neg (by simp), frequencyTaken_of_zero (s := railsSet 700 true s) hgroups hpoint hwant hcmds] at hswitch
    exact ⟨_, hswitch, cclkMhz_pointHeld.trans (cclkMhz_mhzSet (by decide)), rfl, rfl, rfl, rfl, hwant⟩
  · exact run_onlyIf_of_false rfl hrun (by simp [hearly])
  · have htells := tells_clamp (clampPoint s)
    obtain ⟨hpoint, hmhz, hclamped, herr, hchange, hhot⟩ := clampPoint_of_no_group hgroups
    have hsts := htells.reg (r := .pwrSts) (i := 0) (j := 0) (by decide)
    rw [htells.power, cclkMhz, clamped, hsts, htells.reg (r := .pwrErr) (i := 0) (j := 0) (by decide)]
    exact ⟨hpoint, hmhz, hclamped, herr, hchange, hhot⟩
  · intro hsafe
    rw [exec_clampRelease hrun hcool hsince hclamped, clampEnded_of_none hsafe, ht]
  · intro hsafe hpm
    rw [exec_clampRelease hrun hcool hsince hclamped, clampEnded_of_pending hsafe, if_pos hpm, ht]
  · intro hsafe hpm
    rw [exec_clampRelease hrun hcool hsince hclamped, clampEnded_of_pending hsafe, if_neg (by simp [hpm]), ht]
  · refine run_onlyIf_of_false rfl hrun ?_
    rcases hstays with hshort | hsince | hfree
    · rw [decide_eq_false (Nat.not_le.2 hshort), Bool.false_and, Bool.false_and]
    · rw [decide_eq_false (Nat.not_le.2 hsince), Bool.and_false, Bool.false_and]
    · rw [hfree, Bool.and_false]
  · exact run_onlyIf_of_true rfl hrun (decide_eq_true hhot)
  · exact run_onlyIf_of_false rfl hrun (decide_eq_false (by omega))

end Sys2Proof.Machine
end

section
/-! PROOFS. BAR2 windows and accesses of the host (R425 to R430). -/
namespace Sys2Proof.Machine

open Sys2Proof

section
variable {s t : State} {p v off fn a n len : Nat} {data : Bytes}

/-! ### An access takes its parts in turn (R426 to R429) -/

section
variable (hrun : s.power.running = true) (hp : p < 2) (hv : 0 < v) (hv17 : v < 17)
include hrun hp hv hv17

section
variable (hvfs : v ≤ (tget {} s.ports p).numVfs) (hbar : barFn s p v = some fn) (hlen : 0 < len)
include hvfs hbar hlen

theorem exec_bar2Read_of_waits (hwaits : (apParts s fn off len).findSome? (apWaits s fn false) = some (a, n)) :
    exec (.bar2Read p v off len) s = .next (wakeSpan a n s) := by
  show execBar2Read p v off len s = _
  unfold execBar2Read
  rw [run_next (by simp [hp, hv17]) hrun]
  dsimp only
  rw [if_neg (by omega), hbar]
  dsimp only
  rw [hwaits]

theorem exec_bar2Read (hready : (apParts s fn off len).findSome? (apWaits s fn false) = none) :
    exec (.bar2Read p v off len) s = .next (apRead fn (apParts s fn off len) s) := by
  show execBar2Read p v off len s = _
  unfold execBar2Read
  rw [run_next (by simp [hp, hv17]) hrun]
  dsimp only
  rw [if_neg (by omega), hbar]
  dsimp only
  rw [hready]

end

/-- An inert virtual function reads zeros. -/
theorem exec_bar2Read_of_inert (hvfs : v ≤ (tget {} s.ports p).numVfs) (hinert : portFn s p v = none) (hlen : 0 < len) :
    exec (.bar2Read p v off len) s = .next { s with wire := .bar2 (v - 1) (some (zeros len)) :: s.wire } := by
  have hbar : barFn s p v = none := by
    unfold barFn
    rw [hinert]
  show execBar2Read p v off len s = _
  unfold execBar2Read
  rw [run_next (by simp [hp, hv17]) hrun]
  dsimp only
  rw [if_neg (by omega), hbar]
  exact congrArg _ (if_pos hinert)

section
variable (hbar : barFn s p v = some fn) (hdata : data ≠ [])
include hbar hdata

theorem exec_bar2Write_of_waits (hwaits : (apParts s fn off data.length).findSome? (apWaits s fn true) = some (a, n)) :
    exec (.bar2Write p v off data) s = .next (wakeSpan a n s) := by
  have hnot : ¬ (v = 0 ∨ data = []) := not_or.2 ⟨by omega, hdata⟩
  show execBar2Write p v off data s = _
  unfold execBar2Write
  rw [run_next (by simp [hp, hv17]) hrun]
  dsimp only
  rw [if_neg hnot, hbar]
  dsimp only
  rw [hwaits]

theorem exec_bar2Write (hready : (apParts s fn off data.length).findSome? (apWaits s fn true) = none) :
    exec (.bar2Write p v off data) s = .next (apWrite fn (apParts s fn off data.length) data s) := by
  have hnot : ¬ (v = 0 ∨ data = []) := not_or.2 ⟨by omega, hdata⟩
  show execBar2Write p v off data s = _
  unfold execBar2Write
  rw [run_next (by simp [hp, hv17]) hrun]
  dsimp only
  rw [if_neg hnot, hbar]
  dsimp only
  rw [hready]

end

end

/-! ### One part (R427 to R429) -/

theorem findSome?_apWaits_of_ready {wr ro : Bool} (hready : memWaits s a len = false) : [⟨some a, len, ro⟩].findSome? (apWaits s fn wr) = none := by
  simp [apWaits, hready]

theorem findSome?_apWaits_of_denied {x : ApPart} {wr : Bool} (hdenied : apOk s fn x wr = false) : [x].findSome? (apWaits s fn wr) = none := by
  unfold apWaits
  rw [List.findSome?_cons]
  cases x.addr <;> simp [hdenied]

theorem apRead_of_denied {x : ApPart} (hdenied : apOk s fn x false = false) :
    apRead fn [x] s = send (.bar2 fn (some (List.replicate x.n 0xFF))) (s.orReg .hifFnErr fn 0 1) := by
  unfold apRead
  rw [hdenied]
  cases x.addr <;> rfl

section
variable (hok : apOk s fn ⟨some a, len, false⟩ false = true)
include hok

theorem apRead_of_read {b : Bytes} (hread : readMem s a len = (t, .ok b)) : apRead fn [⟨some a, len, false⟩] s = send (.bar2 fn (some b)) t := by
  unfold apRead
  rw [hok]
  dsimp only
  rw [hread]
  rfl

theorem apRead_of_unread {e : Nat} (hread : readMem s a len = (t, .error e)) :
    apRead fn [⟨some a, len, false⟩] s = send (.bar2 fn none) (sticky (some fn) .hifFnErr fn 0 2 t) := by
  unfold apRead
  rw [hok]
  dsimp only
  rw [hread]
  rfl

end

theorem apWrite_of_denied {x : ApPart} (hdenied : apOk s fn x true = false) : apWrite fn [x] data s = s.orReg .hifFnErr fn 0 1 := by
  unfold apWrite
  rw [hdenied]
  cases x.addr <;> rfl

theorem apWrite_of_ok (hok : apOk s fn ⟨some a, data.length, false⟩ true = true) :
    apWrite fn [⟨some a, data.length, false⟩] data s = putLines (data.length / 64 + 2) a data s := by
  unfold apWrite
  rw [hok]
  dsimp only
  rw [List.take_length]
  rfl

/-! ### Translation (R427, R430) -/

/-- An access within a block of 2 MiB is one part, at the block that its entry gives. -/
theorem apParts_of_block {x : Nat} (hmode : bit (s.reg .hifCfg) 0 = true) (hlen : 0 < len) (hblock : off % 2 ^ 21 + len ≤ 2 ^ 21) (hoff : off < 2 ^ 33)
    (hx : x = tget 0 (s.host fn).xlat (off / 2 ^ 21)) (hwin : bit (s.reg .hifWinEn fn) (off / 2 ^ 29) = true) (hvalid : bit x 0 = true) :
    apParts s fn off len = [⟨some (bits x 51 21 * 2 ^ 21 + off % 2 ^ 21), len, bit x 1⟩] := by
  have hmin : min len (2 ^ 21 - off % 2 ^ 21) = len := Nat.min_eq_left (by omega)
  have hrest (o f : Nat) : apSplit s fn f o 0 = [] := by
    cases f
    · rfl
    · exact if_pos rfl
  have hentry : apEntry s fn off len = ⟨some (bits x 51 21 * 2 ^ 21 + off % 2 ^ 21), len, bit x 1⟩ := by
    subst hx
    exact if_pos (by rw [hvalid, hwin, decide_eq_true hoff]; rfl)
  rw [apParts, if_pos hmode, apSplit, if_neg (by omega)]
  dsimp only
  rw [hmin, Nat.sub_self, hrest, hentry]

theorem exec_xlatEntryWrite {who i e : Nat} {val : BitVec 64} (hrun : s.power.running = true) (hwho : who < 19) (hi : i < 18) (he : e < 4096) :
    exec (.xlatEntryWrite who i e val) s = .next (onlyIf (ownTable s who i) (xlatWrite i e val.toNat) s) :=
  run_next (by simp [hwho, hi, he]) hrun

end

/-- Settles O49: each part by its entry, its region and its memory. That a waiting access only wakes its memory (log entry 110) and how an access is cut
(log entry 66) are the model's choices. -/
theorem host_Aperture : Obligations.Host_Aperture := by
  intro s t p v off hrun hp hv hv17
  refine ⟨fun fn len hvfs hbar hlen => ⟨fun a n => exec_bar2Read_of_waits hrun hp hv hv17 hvfs hbar hlen, exec_bar2Read hrun hp hv hv17 hvfs hbar hlen⟩,
    fun fn data hbar hdata => ⟨fun a n => exec_bar2Write_of_waits hrun hp hv hv17 hbar hdata, exec_bar2Write hrun hp hv hv17 hbar hdata⟩,
    fun fn a len b hvfs hbar hlen hparts hok hready hread => ?_, fun fn a len e hvfs hbar hlen hparts hok hready hread => ?_,
    fun fn ad len hvfs hbar hlen hparts hdenied => ?_, fun len hvfs hinert => exec_bar2Read_of_inert hrun hp hv hv17 hvfs hinert,
    fun fn a data hbar hdata hparts hok hready => ?_, fun fn ad ro data hbar hdata hparts hdenied => ?_, fun fn x len => apParts_of_block,
    fun who i e val hwho hi he => ⟨fun hown hlow hhigh => ?_, fun hown hbad => ?_, fun hforeign => ?_⟩⟩
  · rw [exec_bar2Read hrun hp hv hv17 hvfs hbar hlen (by rw [hparts, findSome?_apWaits_of_ready hready]), hparts, apRead_of_read hok hread]
    rfl
  · rw [exec_bar2Read hrun hp hv hv17 hvfs hbar hlen (by rw [hparts, findSome?_apWaits_of_ready hready]), hparts, apRead_of_unread hok hread]
  · rw [exec_bar2Read hrun hp hv hv17 hvfs hbar hlen (by rw [hparts, findSome?_apWaits_of_denied hdenied]), hparts, apRead_of_denied hdenied]
  · rw [exec_bar2Write hrun hp hv hv17 hbar hdata (by rw [hparts, findSome?_apWaits_of_ready hready]), hparts, apWrite_of_ok hok]
  · rw [exec_bar2Write hrun hp hv hv17 hbar hdata (by rw [hparts, findSome?_apWaits_of_denied hdenied]), hparts, apWrite_of_denied hdenied]
  · rw [exec_xlatEntryWrite hrun hwho hi he, onlyIf_true hown, xlatWrite, if_neg (by omega)]
  · rw [exec_xlatEntryWrite hrun hwho hi he, onlyIf_true hown, xlatWrite, if_pos hbad]
  · rw [exec_xlatEntryWrite hrun hwho hi he, onlyIf_false hforeign]

end Sys2Proof.Machine
end

section
/-! PROOFS. PCIe ports, functions, vectors and replays (R188, R421 to R424, R430, R432, R437, R484, R515). -/
namespace Sys2Proof.Machine

open Sys2Proof

section
variable {s t u : State} {i p vec a len : Nat} {data : Bytes}

/-! ### Vectors (R188, R421) -/

theorem flushMsix_of_off (h : HostFn) (hoff : h.bme = false) : flushMsix i (s.setHost i h) = s.setHost i h := by
  unfold flushMsix
  dsimp only
  rw [host_setHost, if_pos (by rw [hoff]; exact Bool.or_true _)]

/-- A table of one row, its row rewritten. -/
theorem tput_singleton {α : Type} [DecidableEq α] {d x y : α} {k : Nat} (hx : x ≠ d) : tput d [(k, y)] k x = [(k, x)] := by
  simp [tput, tdel, tins, hx]

theorem setHost_setHost (h g : HostFn) : (s.setHost i h).setHost i g = s.setHost i g := by
  unfold State.setHost
  rw [tput_tput]

theorem flushMsix_of_pending {e : Msix} (h : HostFn) (hopen : h.funcMask = false) (hbme : h.bme = true) (hpending : e.pending = true)
    (htable : h.msix = [(vec, { e with masked := false })]) :
    flushMsix i (s.setHost i h) =
      { s.setHost i { h with msix := tput {} h.msix vec { e with masked := false, pending := false } } with wire := .msix i vec :: s.wire } := by
  have hdue : (([(vec, { e with masked := false })].filter fun e : Nat × Msix => e.2.pending && !e.2.masked).map (·.1)) = [vec] := by
    simp [hpending]
  have hrow : tget ({} : Msix) [(vec, { e with masked := false })] vec = { e with masked := false } := if_pos rfl
  unfold flushMsix
  dsimp only
  rw [host_setHost, hopen, hbme, if_neg (by decide), htable, hdue, setHost_setHost]
  dsimp only [List.foldl, tmod]
  rw [hrow]
  rfl

section
variable (hrun : s.power.running = true) (hi : i < 18)
include hrun hi

theorem exec_busMasterEnableChange (on : Bool) :
    exec (.busMasterEnableChange i on) s = .next (flushMsix i (s.setHost i { s.host i with bme := on })) := by
  show execBusMasterEnableChange i on s = _
  unfold execBusMasterEnableChange
  rw [run_next (decide_eq_true hi) hrun]

theorem exec_memorySpaceEnableChange (on : Bool) : exec (.memorySpaceEnableChange i on) s = .next (s.setHost i { s.host i with mse := on }) := by
  show execMemorySpaceEnableChange i on s = _
  unfold execMemorySpaceEnableChange
  rw [run_next (decide_eq_true hi) hrun]

theorem exec_msiXUnmask (hvec : vec < 2048) : exec (.msiXUnmask i vec) s =
    .next (flushMsix i (s.setHost i { s.host i with msix := tmod {} (s.host i).msix vec fun e => { e with masked := false } })) := by
  show execMsiXUnmask i vec s = _
  unfold execMsiXUnmask
  rw [run_next (by simp [hi]; omega) hrun]
  dsimp only
  rw [if_neg (by omega)]

theorem exec_msiXUnmask_function : exec (.msiXUnmask i 2048) s = .next (flushMsix i (s.setHost i { s.host i with funcMask := false })) := by
  show execMsiXUnmask i 2048 s = _
  unfold execMsiXUnmask
  rw [run_next (by simp [hi]) hrun]
  dsimp only
  rw [if_pos rfl]

/-- A pending message is sent when its vector is unmasked. -/
theorem exec_msiXUnmask_of_pending {e : Msix} (hvec : vec < 2048) (htable : (s.host i).msix = [(vec, e)]) (hpending : e.pending = true)
    (hopen : (s.host i).funcMask = false) (hbme : (s.host i).bme = true) :
    exec (.msiXUnmask i vec) s = .next { s.setHost i { s.host i with
      msix := tput {} [(vec, { e with masked := false })] vec { e with masked := false, pending := false } } with wire := .msix i vec :: s.wire } := by
  have hrow : { e with masked := false } ≠ ({} : Msix) := fun heq => by
    have := congrArg Msix.pending heq
    simp [hpending] at this
  have hunmasked : tmod {} (s.host i).msix vec (fun e => { e with masked := false }) = [(vec, { e with masked := false })] := by
    have hget : tget {} [(vec, e)] vec = e := if_pos rfl
    rw [htable, tmod, hget, tput_singleton hrow]
  rw [exec_msiXUnmask hrun hi hvec, hunmasked]
  exact congrArg _ (flushMsix_of_pending { s.host i with msix := _ } hopen hbme hpending rfl)

/-! ### Upstream reads (R422, R430) -/

end

theorem setCells_eq (port : Nat) : ∀ (l : List HCell) (a : Nat) (s : State), setCells port a l s = { s with hostMem := (setCells port a l s).hostMem }
  | [], _, _ => rfl
  | c :: l, a, s => by
    rw [setCells]
    exact setCells_eq port l (a + 1) _

theorem hostKey_ne {port a b : Nat} (ha : a < 2 ^ 50) (hb : b < 2 ^ 50) (hne : a ≠ b) : hostKey port a ≠ hostKey port b := by
  unfold hostKey
  omega

theorem tget_setCells_before {port : Nat} : ∀ (l : List HCell) {a b : Nat} (s : State), b < a → a + l.length ≤ 2 ^ 50 →
    tget .unknown (setCells port a l s).hostMem (hostKey port b) = tget .unknown s.hostMem (hostKey port b)
  | [], _, _, _, _, _ => rfl
  | c :: l, a, b, s, hlt, hend => by
    rw [List.length_cons] at hend
    rw [setCells, tget_setCells_before l _ (by omega) (by omega)]
    exact tget_tput_other _ _ _ (hostKey_ne (by omega) (by omega) (by omega))

theorem tget_setCells {port k : Nat} (l : List HCell) (s : State) (hk : k < l.length) (hend : a + l.length ≤ 2 ^ 50) :
    tget .unknown (setCells port a l s).hostMem (hostKey port (a + k)) = l.getD k .unknown := by
  induction l generalizing a k s with
  | nil => exact absurd hk (Nat.not_lt_zero k)
  | cons c l ih =>
    rw [List.length_cons] at hk hend
    rw [setCells]
    rcases k with _ | k
    · show tget .unknown (setCells port (a + 1) l _).hostMem (hostKey port a) = c
      rw [tget_setCells_before l _ (by omega) (by omega), tget_tput_same]
    · rw [show a + (k + 1) = a + 1 + k by omega, ih _ (by omega) (by omega)]
      rfl

section
variable (hrun : s.power.running = true) (hi : i < 18)
include hrun hi

theorem exec_upstreamTimeout_of_none (hnone : (s.host i).reads.find? (fun r => r.1 == a && r.2.1 == len) = none) :
    exec (.upstreamTimeout i a len) s = .next s := by
  show execUpstreamTimeout i a len s = _
  unfold execUpstreamTimeout
  rw [run_next (decide_eq_true hi) hrun]
  dsimp only
  rw [hnone]

section
variable {r : Nat × Nat × Nat} (hfind : (s.host i).reads.find? (fun r => r.1 == a && r.2.1 == len) = some r)
include hfind

theorem exec_upstreamTimeout_of_early (hearly : s.tb.ticks < r.2.2 + 10 * msTicks) : exec (.upstreamTimeout i a len) s = .next s := by
  show execUpstreamTimeout i a len s = _
  unfold execUpstreamTimeout
  rw [run_next (decide_eq_true hi) hrun]
  dsimp only
  rw [hfind]
  exact congrArg _ (if_pos hearly)

theorem exec_upstreamTimeout_of_late (hlate : r.2.2 + 10 * msTicks ≤ s.tb.ticks)
    (ht : t = s.setHost i { s.host i with reads := (s.host i).reads.filter fun x => x != r }) :
    exec (.upstreamTimeout i a len) s = .next (if fnBme t i then
      setCells (fnPort t i) a ((hostCells t (fnPort t i) a len).map fun c => if c = .unknown then .bad else c) t else t) := by
  subst ht
  show execUpstreamTimeout i a len s = _
  unfold execUpstreamTimeout
  rw [run_next (decide_eq_true hi) hrun]
  dsimp only
  rw [hfind]
  exact congrArg _ (if_neg (by omega))

theorem exec_upstreamTimeout_of_off (hlate : r.2.2 + 10 * msTicks ≤ s.tb.ticks) (hoff : (s.host i).bme = false) :
    exec (.upstreamTimeout i a len) s = .next (s.setHost i { s.host i with reads := (s.host i).reads.filter fun x => x != r }) := by
  rw [exec_upstreamTimeout_of_late hrun hi hfind hlate rfl, if_neg]
  rw [fnBme, host_setHost]
  simp [hoff]

/-- A read that ends with an error leaves no byte of it unknown. -/
theorem exists_exec_upstreamTimeout (hlate : r.2.2 + 10 * msTicks ≤ s.tb.ticks) (hbme : (s.host i).bme = true) (hend : a + len ≤ 2 ^ 50) :
    ∃ u, exec (.upstreamTimeout i a len) s = .next u ∧
      u.host i = { s.host i with reads := (s.host i).reads.filter fun x => x != r } ∧
      ∀ k, k < len → tget .unknown u.hostMem (hostKey (fnPort s i) (a + k)) =
        if tget .unknown s.hostMem (hostKey (fnPort s i) (a + k)) = .unknown then .bad else tget .unknown s.hostMem (hostKey (fnPort s i) (a + k)) := by
  have hexec := exec_upstreamTimeout_of_late hrun hi hfind hlate rfl
  rw [if_pos (by rw [fnBme, host_setHost]; exact hbme)] at hexec
  refine ⟨_, hexec, ?_, fun k hk => ?_⟩
  · rw [setCells_eq]
    exact host_setHost ..
  · have hlen : ((hostCells s (fnPort s i) a len).map fun c => if c = .unknown then .bad else c).length = len := by simp [hostCells]
    refine (tget_setCells _ _ (hlen.symm ▸ hk) (hlen.symm ▸ hend)).trans ?_
    show ((hostCells s (fnPort s i) a len).map _).getD k HCell.unknown = _
    simp [hostCells, hk]

end

end

theorem fnPort_setCells {port j : Nat} (l : List HCell) (a : Nat) (s : State) : fnPort (setCells port a l s) j = fnPort s j := by
  rw [setCells_eq]
  rfl

/-! ### Upstream completions and replays (R422, R424) -/

/-- The link's replays counted. -/
def replaysCounted (i n : Nat) (s : State) : State := (s.count .hifPortReplay (fnPort s i) 0 n).countTv 5 n

theorem replaysCounted_rest (n : Nat) : ∃ r, replaysCounted i n s = { s with regs := r } ∧ fnPort (replaysCounted i n s) i = fnPort s i := by
  obtain ⟨v, hv⟩ := count_eq_setReg s .hifPortReplay (fnPort s i) 0 n
  obtain ⟨w, hw⟩ := count_eq_setReg (s.setReg .hifPortReplay (fnPort s i) 0 v) .telTv 0 5 n
  have heq : replaysCounted i n s = (s.setReg .hifPortReplay (fnPort s i) 0 v).setReg .telTv 0 5 w := by rw [replaysCounted, hv, State.countTv, hw]
  have hport : (replaysCounted i n s).reg .hifTenPort = s.reg .hifTenPort := by
    rw [heq, reg_setReg_other _ _ (by decide), reg_setReg_other _ _ (by simp only [regAddr, regRow, blkBase]; omega)]
  refine ⟨_, heq, ?_⟩
  rw [fnPort, hport]
  rfl

/-- The bytes of a completion, each its value or bad. -/
def cellsOf (ok : Bool) (data : Bytes) : List HCell := data.map fun b => if ok then .val b else .bad

/-- A completion's bytes arrive, and the reads that wait for no byte more end; with Bus Master Enable clear they are dropped. -/
def completed (i a : Nat) (data : Bytes) (ok : Bool) (s : State) : State :=
  let off := !fnBme s i
  let s := if off then s else setCells (fnPort s i) a (cellsOf ok data) s
  let h := s.host i
  s.setHost i { h with reads := h.reads.filter fun r =>
    if off then !overlaps r.1 r.2.1 a data.length else (hostCells s (fnPort s i) r.1 r.2.1).contains .unknown }

/-- The reads of a function that wait for no byte more end. -/
def readsEnded (i port : Nat) (s : State) : State :=
  s.setHost i { s.host i with reads := (s.host i).reads.filter fun r => (hostCells s port r.1 r.2.1).contains .unknown }

theorem exec_upstreamCompletion {n : Nat} {ok : Bool} (hrun : s.power.running = true) (hi : i < 18) :
    exec (.upstreamCompletion ⟨i, n⟩ a data ok) s = .next (completed i a data ok (replaysCounted i n s)) := by
  show execUpstreamCompletion ⟨i, n⟩ a data ok s = _
  unfold execUpstreamCompletion
  rw [run_next (decide_eq_true hi) hrun]
  rfl

section
variable {n : Nat} {ok : Bool} (hrun : s.power.running = true) (hi : i < 18)
include hrun hi

theorem exists_exec_upstreamCompletion_of_off (hoff : (s.host i).bme = false) :
    ∃ u, exec (.upstreamCompletion ⟨i, n⟩ a data ok) s = .next u ∧ u.hostMem = s.hostMem ∧
      (u.host i).reads = (s.host i).reads.filter (fun r => !overlaps r.1 r.2.1 a data.length) ∧ u.mem = s.mem ∧ u.cmd = s.cmd := by
  obtain ⟨regs, hcounted, -⟩ := replaysCounted_rest (s := s) (i := i) n
  have hbme : fnBme (replaysCounted i n s) i = false := by
    rw [hcounted]
    exact hoff
  have hdone : completed i a data ok (replaysCounted i n s) = (replaysCounted i n s).setHost i { (replaysCounted i n s).host i with
      reads := ((replaysCounted i n s).host i).reads.filter fun r => !overlaps r.1 r.2.1 a data.length } := by
    unfold completed
    rw [hbme]
    rfl
  refine ⟨_, exec_upstreamCompletion hrun hi, ?_⟩
  rw [hdone, hcounted]
  exact ⟨rfl, congrArg HostFn.reads (host_setHost ..), rfl, rfl⟩

theorem exists_exec_upstreamCompletion (hbme : (s.host i).bme = true) (hend : a + data.length ≤ 2 ^ 50) :
    ∃ u, exec (.upstreamCompletion ⟨i, n⟩ a data ok) s = .next u ∧
      (∀ k, k < data.length → tget .unknown u.hostMem (hostKey (fnPort s i) (a + k)) = if ok then .val (data.getD k 0) else .bad) ∧
      (u.host i).reads = (s.host i).reads.filter (fun r => (hostCells u (fnPort s i) r.1 r.2.1).contains .unknown) ∧
      u.regs = (replaysCounted i n s).regs ∧ u.mem = s.mem ∧ u.cmd = s.cmd := by
  obtain ⟨regs, hcounted, hport⟩ := replaysCounted_rest (s := s) (i := i) n
  have hsends : fnBme (replaysCounted i n s) i = true := by
    rw [hcounted]
    exact hbme
  have hdone : completed i a data ok (replaysCounted i n s) =
      readsEnded i (fnPort s i) (setCells (fnPort s i) a (cellsOf ok data) (replaysCounted i n s)) := by
    unfold completed
    rw [hsends]
    simp only [Bool.not_true, Bool.false_eq_true, if_false, fnPort_setCells, hport]
    rfl
  have hrest : (setCells (fnPort s i) a (cellsOf ok data) (replaysCounted i n s)).regs = (replaysCounted i n s).regs ∧
      (setCells (fnPort s i) a (cellsOf ok data) (replaysCounted i n s)).mem = s.mem ∧
      (setCells (fnPort s i) a (cellsOf ok data) (replaysCounted i n s)).cmd = s.cmd ∧
      (setCells (fnPort s i) a (cellsOf ok data) (replaysCounted i n s)).hosts = s.hosts := by
    rw [setCells_eq, hcounted]
    exact ⟨rfl, rfl, rfl, rfl⟩
  obtain ⟨hregs, hmem, hcmd, hhosts⟩ := hrest
  have hlen : (cellsOf ok data).length = data.length := List.length_map ..
  refine ⟨_, exec_upstreamCompletion hrun hi, ?_⟩
  rw [hdone]
  refine ⟨fun k hk => (tget_setCells _ _ (hlen.symm ▸ hk) (hlen.symm ▸ hend)).trans ?_, ?_, hregs, hmem, hcmd⟩
  · simp [cellsOf, hk]
  · rw [readsEnded, host_setHost, State.host, hhosts]
    rfl

end

/-! ### A link that goes down (R423, R432) -/

/-- What a link that is lost leaves of a function. -/
def configLost (h : HostFn) : HostFn := { h with bme := false, mse := false, msix := [], funcMask := false, reads := [] }

theorem host_foldl_configReset (fn : Nat) : ∀ (l : List Nat) (s : State),
    (l.foldl (fun s fn => configReset fn s) s).host fn = if fn ∈ l then configLost (s.host fn) else s.host fn
  | [], _ => rfl
  | k :: l, s => by
    rw [List.foldl_cons, host_foldl_configReset fn l]
    by_cases heq : fn = k
    · subst heq
      rw [configReset, host_setHost, if_pos (List.mem_cons_self ..)]
      exact ite_self _
    · rw [configReset, host_setHost_other _ _ _ heq]
      exact ite_congr (propext (by simp [heq])) (fun _ => rfl) fun _ => rfl

theorem configResets_fix {γ : Type} (g : State → γ) (h : ∀ s n x, g (State.setHost s n x) = g s) (l : List Nat) (s : State) :
    g (l.foldl (fun s fn => configReset fn s) s) = g s :=
  foldl_fixes (f := fun s fn => configReset fn s) g (fun _ _ => h ..) l s

theorem mem_portFns {fn : Nat} (hfn : fn < 18) (hother : fn ≠ 16 + (1 - p)) (hp : p < 2) (hport : fnPort s fn = p) : fn ∈ portFns s p := by
  unfold portFns
  rw [List.mem_cons, List.mem_filter, List.mem_range, beq_iff_eq]
  omega

theorem hosts_count (s : State) (r : Reg) (i j n : Nat) : (s.count r i j n).hosts = s.hosts := by
  unfold State.count
  split <;> rfl

theorem exists_exec_dlDown (hrun : s.power.running = true) (hp : p < 2) (hup : linkUp s p = true) :
    ∃ t, exec (.dlDown p) s = .next t ∧ t.reg .hifPortSts p = 0 ∧
      t.reg .hifPortLinkDowns p = satAdd 0xFFFFFFFF (s.reg .hifPortLinkDowns p) 1 ∧ t.mem = s.mem ∧ t.cmd = s.cmd ∧ t.cores = s.cores ∧
      ∀ fn, fn < 18 → fn ≠ 16 + (1 - p) → fnPort s fn = p → (t.host fn).bme = false ∧ (t.host fn).mse = false ∧ (t.host fn).msix = [] ∧
        (t.host fn).reads = [] ∧ (t.host fn).xlat = (s.host fn).xlat := by
  have hexec : exec (.dlDown p) s = .next (hostLinkLost p s) := run_onlyIf_of_true (decide_eq_true hp) hrun hup
  obtain ⟨v, hcount⟩ := count_eq_setReg s .hifPortLinkDowns p 0 1
  have hdowns : (s.setReg .hifPortLinkDowns p 0 v).reg .hifPortLinkDowns p = satAdd 0xFFFFFFFF (s.reg .hifPortLinkDowns p) 1 := by
    rw [← hcount]
    exact reg_count32 _ _ _ _ _ rfl
  have hlost : hostLinkLost p s = (portFns s p).foldl (fun s fn => configReset fn s) ((s.setReg .hifPortLinkDowns p 0 v).setReg .hifPortSts p 0 0) := by
    rw [hostLinkLost, hcount]
  refine ⟨_, hexec, ?_, ?_, ?_, ?_, ?_, fun fn hfn hother hport => ?_⟩ <;> rw [hlost]
  · rw [configResets_fix (fun s => s.reg .hifPortSts p) (fun _ _ _ => rfl), reg_setReg]
    rfl
  · rw [configResets_fix (fun s => s.reg .hifPortLinkDowns p) (fun _ _ _ => rfl), reg_setReg_of_off_ne (by decide), hdowns]
  · exact configResets_fix State.mem (fun _ _ _ => rfl) _ _
  · exact configResets_fix State.cmd (fun _ _ _ => rfl) _ _
  · exact configResets_fix State.cores (fun _ _ _ => rfl) _ _
  · rw [host_foldl_configReset, if_pos (mem_portFns hfn hother hp hport)]
    exact ⟨rfl, rfl, rfl, rfl, rfl⟩

/-! ### Ports and TEN_PORT (R424, R484, R515) -/

section
variable (hrun : s.power.running = true) (hp : p < 2)
include hrun hp

theorem exec_pcieLinkUp_of_trains {speed width : Nat} (hmay : mayTrain s p = true) (hdown : linkUp s p = false) (hslow : 1 ≤ speed) (hfast : speed ≤ 6)
    (hwidth : width ∈ [1, 2, 4, 8, 16]) : exec (.pcieLinkUp p speed width) s = .next (s.setReg .hifPortSts p 0 (1 + speed * 2 + width * 16)) := by
  refine run_onlyIf_of_true (decide_eq_true hp) hrun ?_
  rw [hmay, hdown, decide_eq_true hslow, decide_eq_true hfast, List.contains_iff_mem.2 hwidth]
  rfl

theorem exec_pcieLinkUp_of_stays {speed width : Nat} (hstays : mayTrain s p = false ∨ linkUp s p = true) :
    exec (.pcieLinkUp p speed width) s = .next s := by
  refine run_onlyIf_of_false (decide_eq_true hp) hrun ?_
  rcases hstays with hnot | hup
  · simp [hnot]
  · simp [hup]

theorem exec_perstChange {high : Bool} (ht : t = { s with pins := if p = 0 then { s.pins with perst0N := high } else { s.pins with perst1N := high } }) :
    exec (.perstChange p high) s = .next (if !high && linkUp s p then hostLinkLost p t else t) := by
  subst ht
  show execPerstChange p high s = _
  unfold execPerstChange
  rw [run_next (decide_eq_true hp) hrun]
  rfl

end

section
variable {val : Word} (hrun : s.power.running = true)
include hrun

theorem exec_tenPortWrite_of_free (hval : val.toNat < 65536) (hidle : ∀ t, t < 16 → sessOpen s t = false) :
    exec (.tenPortWrite 18 val) s = .next (s.setReg .hifTenPort 0 0 val.toNat) := by
  have hnone : ¬ ((List.range 16).any fun t => bit (s.reg .hifTenPort) t != bit val.toNat t && sessOpen s t) = true := by
    rw [Bool.not_eq_true, List.any_eq_false]
    intro t ht
    simp [hidle t (List.mem_range.1 ht)]
  refine (run_onlyIf_of_true rfl hrun rfl).trans (congrArg _ ((if_neg hnone).trans ?_))
  rw [Nat.mod_eq_of_lt hval]

theorem exec_tenPortWrite_of_open {j : Nat} (hj : j < 16) (hopen : sessOpen s j = true) (hmoves : bit (s.reg .hifTenPort) j ≠ bit val.toNat j) :
    exec (.tenPortWrite 18 val) s = .next (s.orReg .hifErr 0 0 1) := by
  have hsome : ((List.range 16).any fun t => bit (s.reg .hifTenPort) t != bit val.toNat t && sessOpen s t) = true :=
    List.any_eq_true.2 ⟨j, List.mem_range.2 hj, by simp [hopen, hmoves]⟩
  exact (run_onlyIf_of_true rfl hrun rfl).trans (congrArg _ (if_pos hsome))

theorem exec_tenPortWrite_of_foreign {who : Nat} (hwho : who < 18) : exec (.tenPortWrite who val) s = .next s :=
  run_onlyIf_of_false (decide_eq_true (by omega)) hrun (beq_false_of_ne (by omega))

end

end

/-- Settles O50: each function's own state, its port's link and the port map. That PERST counts as a link loss (log entry 67) and that a TEN_PORT write is
ignored whole (log entry 66) are the model's choices. -/
theorem host_Ports : Obligations.Host_Ports := by
  intro s i p hrun hi hp
  refine ⟨?_, exec_busMasterEnableChange hrun hi, exec_memorySpaceEnableChange hrun hi, fun vec => exec_msiXUnmask hrun hi,
    exec_msiXUnmask_function hrun hi, fun vec e => exec_msiXUnmask_of_pending hrun hi, fun n a data ok => exists_exec_upstreamCompletion hrun hi,
    fun n a data ok => exists_exec_upstreamCompletion_of_off hrun hi, fun a len => exec_upstreamTimeout_of_none hrun hi,
    fun a len r hfind => ⟨exec_upstreamTimeout_of_early hrun hi hfind, exec_upstreamTimeout_of_off hrun hi hfind,
      exists_exec_upstreamTimeout hrun hi hfind⟩, exists_exec_dlDown hrun hp, ?_, fun hup => ?_, fun hdown => ?_,
    fun speed width => exec_pcieLinkUp_of_trains hrun hp, fun speed width => exec_pcieLinkUp_of_stays hrun hp,
    fun high t ht => ⟨fun hstays => ?_, fun hlow hup => ?_⟩,
    fun val hval => ⟨exec_tenPortWrite_of_free hrun hval, fun t => exec_tenPortWrite_of_open hrun, fun who => exec_tenPortWrite_of_foreign hrun⟩⟩
  · rw [exec_busMasterEnableChange hrun hi, flushMsix_of_off _ rfl]
  · exact run_onlyIf_of_false (decide_eq_true hp) hrun
  · exact run_onlyIf_of_true (decide_eq_true hp) hrun hup
  · exact run_onlyIf_of_false (decide_eq_true hp) hrun hdown
  · rw [exec_perstChange hrun hp ht, if_neg (by rcases hstays with hhigh | hdown <;> simp [*])]
  · rw [exec_perstChange hrun hp ht, if_pos (by simp [hlow, hup])]

end Sys2Proof.Machine
end

section
/-! PROOFS. Cold, warm, function and tenant resets (R431, R432, R469, R481 to R483). -/
namespace Sys2Proof.Machine

open Sys2Proof

section
variable {s : State} {i p : Nat}

/-! ### What the parts of a function's reset leave -/

theorem reg_resetWhere {hit : Reg → Nat → Nat → Bool} {r : Reg} {i j : Nat} (hi : i < blkCount (regRow r).blk) (hj : j < (regRow r).count)
    (hw : 0 < (regRow r).words) (hhit : hit r i j = true) : (resetWhere hit s).reg r i j = regReset r i j := by
  have hat := regOf_regAddr hi hj hw
  unfold resetWhere State.reg
  dsimp only
  rw [tget_tdrop, hat, if_pos hhit]

/-- Emptying a path is telemetry, which leaves rings and traces. -/
theorem emptyPath_rest (p : Nat) (s : State) : (∃ r t, emptyPath p s = { s with regs := r, tel := t }) ∧
    (emptyPath p s).tel.rings = s.tel.rings ∧ (emptyPath p s).tel.traces = s.tel.traces := by
  obtain ⟨v, hcount⟩ := count_eq_setReg (s.setPath p { s.path p with queue := [] }) .errPathDrop 0 p (s.path p).queue.length
  have hempty : emptyPath p s = flushPath p ((s.setPath p { s.path p with queue := [] }).setReg .errPathDrop 0 p v) := by rw [emptyPath, ← hcount]
  obtain ⟨t, htel, hrings, htraces⟩ := flushPath_tel p ((s.setPath p { s.path p with queue := [] }).setReg .errPathDrop 0 p v)
  rw [hempty, htel]
  exact ⟨⟨_, _, rfl⟩, hrings, htraces⟩

/-- The queues and the session of function `i` gone. -/
def noQueues (i : Nat) (s : State) : State :=
  { s with cmd := { s.cmd with qps := tdrop s.cmd.qps fun k => k / 64 == i, sessions := tdrop s.cmd.sessions (· == i) } }

/-- The pages of function `i` at their reset values. -/
def pagesReset (i : Nat) (s : State) : State := resetWhere (fun r k _ => fnPage i r k) (noQueues i s)

/-- The log ring of a management function goes with it; a tenant's goes with the tenant. -/
def ringsLeft (i : Nat) (t : Telemetry) : Telemetry := if i < 16 then t else { t with rings := tdrop t.rings (· == i) }

/-- A function's reset, a warm one aside, clears its queues, its session, its pages and its host state. -/
theorem fnHold_eq (i : Nat) (s : State) :
    fnHold i false s = { (pagesReset i s).setHost i {} with tel := ringsLeft i s.tel } := by
  have hheld : fnHold i false s = (fun u : State => if i < 16 then u else { u with tel := { u.tel with rings := tdrop u.tel.rings (· == i) } })
      (configReset i ((pagesReset i s).setHost i { bme := ((pagesReset i s).host i).bme, mse := ((pagesReset i s).host i).mse
                                                   msix := ((pagesReset i s).host i).msix, funcMask := ((pagesReset i s).host i).funcMask })) := rfl
  have hclear (h : HostFn) : configReset i ((pagesReset i s).setHost i { bme := h.bme, mse := h.mse, msix := h.msix, funcMask := h.funcMask }) =
      (pagesReset i s).setHost i {} := by
    rw [configReset, host_setHost, setHost_setHost]
  rw [hheld, hclear]
  unfold ringsLeft
  split <;> rfl

theorem fnHold_rest (i : Nat) (s : State) : (fnHold i false s).net = s.net ∧ (fnHold i false s).sec = s.sec ∧ (fnHold i false s).tel = ringsLeft i s.tel := by
  rw [fnHold_eq]
  exact ⟨rfl, rfl, rfl⟩

theorem fnHold_cleared (hi : i < 18) (s : State) : (∀ q, q < 64 → ((fnHold i false s).qp i q).st = 0) ∧ tget {} (fnHold i false s).cmd.sessions i = {} ∧
    (fnHold i false s).host i = {} ∧ (fnHold i false s).reg .cmdSession i = 0 ∧ (fnHold i false s).reg .hifApBase i = 0 := by
  rw [fnHold_eq]
  refine ⟨fun q hq => ?_, ?_, host_setHost (pagesReset i s) i {}, ?_, ?_⟩
  · have hkey : ((i * 64 + q) / 64 == i) = true := by
      rw [beq_iff_eq]
      omega
    have hqp : tget {} (tdrop s.cmd.qps fun k => k / 64 == i) (i * 64 + q) = ({} : QPair) := by rw [tget_tdrop, if_pos hkey]
    exact congrArg QPair.st ((if_pos hq).trans hqp)
  · exact (tget_tdrop {} (· == i) s.cmd.sessions i).trans (if_pos (beq_self_eq_true i))
  · exact reg_resetWhere hi (by decide) (by decide) (by simp [fnPage, regRow, sinceCold])
  · exact reg_resetWhere hi (by decide) (by decide) (by simp [fnPage, regRow, sinceCold])

/-! ### A tenant's function (R431, R432) -/

/-- A tenant's cipher contexts gone. -/
def noContexts (t : Nat) (s : State) : State := { s with sec := { s.sec with ctxs := s.sec.ctxs.filter fun o => o.tenant != t } }

/-- A tenant's log ring and trace configuration gone. -/
def noRing (t : Nat) (s : State) : State :=
  { s with tel := { s.tel with rings := tdrop s.tel.rings (· == t), traces := tdrop s.tel.traces (· == t) } }

/-- A tenant reset ends with the frame path, the cipher engine and telemetry. -/
theorem tenantReset_ends (t : Nat) (s : State) : ∃ u, tenantReset t s = emptyPath t (noRing t (noContexts t (netTenantReset t u))) := ⟨_, rfl⟩

theorem exists_mem_of_tget_ne {α : Type} {d : α} {k : Nat} : ∀ {l : Tbl α}, tget d l k ≠ d → (k, tget d l k) ∈ l
  | [], h => absurd rfl h
  | (j, x) :: l, h => by
    unfold tget at h ⊢
    split
    next hkey =>
      subst hkey
      exact List.mem_cons_self ..
    next hkey =>
      rw [if_neg hkey] at h
      exact List.mem_cons_of_mem _ (exists_mem_of_tget_ne h)

theorem netTenantReset_streams (t st : Nat) (s : State) : ((netTenantReset t s).stream st).owner ≠ some t := by
  have hstreams : (netTenantReset t s).net.streams = tdrop s.net.streams
      ((s.net.streams.filter fun e => e.2.owner == some t).map (·.1)).contains := by
    unfold netTenantReset
    dsimp only
    rw [foldl_fixes (f := fun s st => dropWaiting st s) (fun s : State => s.net.streams) (fun s st => streams_dropWaiting st s)]
  rw [State.stream, hstreams, tget_tdrop]
  split
  next => exact nofun
  next hout =>
    intro howner
    have hmem : (st, tget {} s.net.streams st) ∈ s.net.streams := exists_mem_of_tget_ne fun heq => by
      rw [heq] at howner
      exact absurd howner nofun
    refine hout (List.contains_iff_mem.2 (List.mem_map.2 ⟨_, List.mem_filter.2 ⟨hmem, ?_⟩, rfl⟩))
    exact beq_iff_eq.2 howner

theorem netTenantReset_queues {t q : Nat} (hlow : 8 * t ≤ q) (hhigh : q < 8 * t + 8) (s : State) : (netTenantReset t s).wq q = [] := by
  unfold netTenantReset State.wq
  dsimp only
  rw [tget_tdrop, decide_eq_true hlow, decide_eq_true hhigh]
  rfl

theorem netTenantReset_sets {t : Nat} {x : RuleSet} (s : State) (hx : x ∈ (netTenantReset t s).net.sets) : x.tenant ≠ t := by
  have hkept := (List.mem_filter.1 hx).2
  simpa using hkept

theorem tenantReset_cleared (t : Nat) (s : State) : (∀ st, ((tenantReset t s).stream st).owner ≠ some t) ∧
    (∀ q, 8 * t ≤ q → q < 8 * t + 8 → (tenantReset t s).wq q = []) ∧ (∀ x, x ∈ (tenantReset t s).net.sets → x.tenant ≠ t) ∧
    (∀ x, x ∈ (tenantReset t s).sec.ctxs → x.tenant ≠ t) ∧ (tenantReset t s).logRing t = {} ∧ tget {} (tenantReset t s).tel.traces t = {} := by
  obtain ⟨u, hu⟩ := tenantReset_ends t s
  obtain ⟨⟨r, tel, hrest⟩, hrings, htraces⟩ := emptyPath_rest t (noRing t (noContexts t (netTenantReset t u)))
  have hdropped {α : Type} (d : α) (l : Tbl α) : tget d (tdrop l (· == t)) t = d := by rw [tget_tdrop, if_pos (beq_self_eq_true t)]
  rw [hu, State.logRing, hrings, htraces, hrest]
  refine ⟨fun st => netTenantReset_streams t st u, fun q hlow hhigh => netTenantReset_queues hlow hhigh u, fun x hx => netTenantReset_sets u hx,
    fun x hx => ?_, hdropped ({} : LogRing) _, hdropped ({} : Trace) _⟩
  have hkept := (List.mem_filter.1 hx).2
  simpa using hkept

/-- What a function-level reset of a tenant's function leaves, before the holds of others change. -/
theorem exists_exec_functionLevelReset_of_tenant (hrun : s.power.running = true) (hi : i < 16) :
    ∃ u, exec (.functionLevelReset i) s = .next (holdsChanged u) ∧ (∀ q, q < 64 → (u.qp i q).st = 0) ∧
      tget {} u.cmd.sessions i = {} ∧ u.host i = {} ∧ u.reg .cmdSession i = 0 ∧ u.reg .hifApBase i = 0 ∧ (∀ st, (u.stream st).owner ≠ some i) ∧
      (∀ q, 8 * i ≤ q → q < 8 * i + 8 → u.wq q = []) ∧ (∀ x, x ∈ u.net.sets → x.tenant ≠ i) ∧ (∀ x, x ∈ u.sec.ctxs → x.tenant ≠ i) ∧
      u.logRing i = {} ∧ tget {} u.tel.traces i = {} := by
  have hexec : exec (.functionLevelReset i) s = .next (functionReset i s) := run_next (decide_eq_true (by omega)) hrun
  have hreset : functionReset i s = holdsChanged (fnHold i false (tenantReset i (fnEnd i false s))) := if_pos hi
  obtain ⟨hqps, hsession, hhost, hopen, hbase⟩ := fnHold_cleared (i := i) (by omega) (tenantReset i (fnEnd i false s))
  obtain ⟨hstreams, hqueues, hsets, hctxs, hring, htrace⟩ := tenantReset_cleared i (fnEnd i false s)
  obtain ⟨hnet, hsec, htel⟩ := fnHold_rest i (tenantReset i (fnEnd i false s))
  rw [ringsLeft, if_pos hi] at htel
  refine ⟨_, hexec.trans (congrArg _ hreset), hqps, hsession, hhost, hopen, hbase, ?_, ?_, ?_, ?_, ?_, ?_⟩
  · intro st
    rw [State.stream, hnet]
    exact hstreams st
  · intro q hlow hhigh
    rw [State.wq, hnet]
    exact hqueues q hlow hhigh
  · rw [hnet]
    exact hsets
  · rw [hsec]
    exact hctxs
  · rw [State.logRing, htel]
    exact hring
  · rw [htel]
    exact htrace

/-! ### A management function and a port (R431, R432) -/

theorem fnEnd_of_idle (hidle : ∀ c, c ∈ s.cmd.cmds → c.fn ≠ i) : fnEnd i false s = s.count .hifFlrAborted i 0 0 := by
  have hnone : (s.cmd.cmds.filter fun c => c.fn == i) = [] := by simpa using hidle
  have hall : (s.cmd.cmds.filter fun c => !(c.fn == i)) = s.cmd.cmds := List.filter_eq_self.2 (by simpa using hidle)
  unfold fnEnd dropCmds
  rw [hnone]
  dsimp only [List.foldl, List.filter_nil, List.length_nil]
  rw [hall]
  rfl

/-- The reset of a management function that has no command is of its registers, its queues and its host state only. -/
theorem functionReset_of_management (hi : i = 16 ∨ i = 17) (hidle : ∀ c, c ∈ s.cmd.cmds → c.fn ≠ i) :
    (∃ r l c t, functionReset i s = { s with regs := r, latch := l, cmd := c, hosts := tput {} s.hosts i {}, tel := t }) ∧
      (functionReset i s).cmd.cmds = s.cmd.cmds ∧ (∀ q, q < 64 → ((functionReset i s).qp i q).st = 0) := by
  obtain ⟨v, hcount⟩ := count_eq_setReg s .hifFlrAborted i 0 0
  have hreset : functionReset i s = emptyPath i (fnHold i false (s.setReg .hifFlrAborted i 0 v)) := by
    rw [functionReset, if_neg (by omega), fnEnd_of_idle hidle, hcount]
  obtain ⟨⟨r, t, hpath⟩, -, -⟩ := emptyPath_rest i (fnHold i false (s.setReg .hifFlrAborted i 0 v))
  obtain ⟨hqps, -⟩ := fnHold_cleared (i := i) (by omega) (s.setReg .hifFlrAborted i 0 v)
  rw [hreset, hpath]
  refine ⟨?_, ?_, hqps⟩
  · rw [fnHold_eq]
    exact ⟨_, _, _, _, rfl⟩
  · rw [fnHold_eq]
    rfl

theorem exists_exec_functionLevelReset_of_management (hrun : s.power.running = true) (hi : i = 16 ∨ i = 17) (hidle : ∀ c, c ∈ s.cmd.cmds → c.fn ≠ i) :
    ∃ u, exec (.functionLevelReset i) s = .next u ∧
      u.host i = {} ∧ (∀ fn, fn ≠ i → u.host fn = s.host fn) ∧ (∀ q, q < 64 → (u.qp i q).st = 0) ∧
      u.mem = s.mem ∧ u.lodes = s.lodes ∧ u.cores = s.cores ∧
      u.eng = s.eng ∧ u.own = s.own ∧ u.sync = s.sync ∧ u.net = s.net ∧ u.sto = s.sto ∧ u.ft = s.ft ∧ u.ckpt = s.ckpt ∧ u.cmd.cmds = s.cmd.cmds := by
  obtain ⟨⟨r, l, c, t, hreset⟩, hcmds, hqps⟩ := functionReset_of_management hi hidle
  have hexec : exec (.functionLevelReset i) s = .next (functionReset i s) := run_next (decide_eq_true (by omega)) hrun
  refine ⟨_, hexec, ?_, fun fn hfn => ?_, hqps, ?_, ?_, ?_, ?_, ?_, ?_, ?_, ?_, ?_, ?_, hcmds⟩ <;> rw [hreset]
  · exact tget_tput_same ({} : HostFn) s.hosts i {}
  · exact tget_tput_other ({} : HostFn) s.hosts {} hfn

theorem exec_hostPortReset (hrun : s.power.running = true) (hp : p < 2) : exec (.hostPortReset p) s = .next
    (((portFns s p).foldl (fun s fn => functionReset fn s) s).setReg .hifPortSts p 0 0) := by
  show execHostPortReset p s = _
  unfold execHostPortReset
  rw [run_next (decide_eq_true hp) hrun]

theorem exists_exec_hostPortReset_of_alone (hrun : s.power.running = true) (hp : p < 2) (halone : ∀ fn, fn < 16 → fnPort s fn ≠ p)
    (hidle : ∀ c, c ∈ s.cmd.cmds → c.fn ≠ 16 + p) : ∃ u, exec (.hostPortReset p) s = .next u ∧
      u.host (16 + p) = {} ∧ (u.reg .hifPortSts p = 0) ∧ u.mem = s.mem ∧ u.lodes = s.lodes ∧ u.own = s.own := by
  have hfns : portFns s p = [16 + p] := by simpa [portFns] using halone
  obtain ⟨⟨r, l, c, t, hreset⟩, -, -⟩ := functionReset_of_management (s := s) (i := 16 + p) (by omega) hidle
  have hexec := exec_hostPortReset hrun hp
  rw [hfns, List.foldl_cons, List.foldl_nil, hreset] at hexec
  exact ⟨_, hexec, tget_tput_same ({} : HostFn) s.hosts (16 + p) {}, reg_setReg .., rfl, rfl, rfl⟩

/-! ### Warm resets (R482, R483) -/

/-- What a warm reset leaves of a state whose functions and tenants have been reset. -/
def warmCleared (s : State) : State :=
  let halted := (s.fwp 34).st == .halted
  { s with
    tb := { s.tb with armed := [] }
    power := { s.power with opCmds := [], deepCmd := none, exitCmds := [], dstate := .on, noFirmware := true, noSession := false, warm := true }
    cmd := { nextId := s.cmd.nextId, ended := s.cmd.ended }
    sync := {}
    fw := if halted then tput {} [] 34 { st := .halted } else []
    own := { regions := s.own.regions.filterMap fun ((e, g) : Nat × Region) =>
      let k := if g.st = 0 then g.gen else (g.gen + 1) % 256
      if k = 0 then none else some (e, { gen := k }) }
    eng := []
    chains := []
    cores := []
    lodes := []
    groups := []
    net := {}
    sto := {}
    seam := { board := s.seam.board }
    ft := { gens := s.ft.gens }
    ckpt := {}
    keys := []
    sec := { s.sec with image := none, toRaise := false, rngWait := [], ctxs := [] } }

theorem warmReset_eq (s : State) : ∃ u, warmReset s = (warmCleared u).setField .glbBootSts 0 0 3 0 4 := ⟨_, rfl⟩

theorem st_region_warmCleared (e : Nat) : ((warmCleared s).region e).st = 0 := by
  refine Decidable.byContradiction fun hne => ?_
  have hmem : (e, (warmCleared s).region e) ∈ (warmCleared s).own.regions := exists_mem_of_tget_ne fun heq => by
    rw [State.region, heq] at hne
    exact hne rfl
  obtain ⟨⟨k, g⟩, -, hkept⟩ := List.mem_filterMap.1 hmem
  dsimp only at hkept
  generalize (if g.st = 0 then g.gen else (g.gen + 1) % 256) = gen at hkept
  split at hkept
  · exact absurd hkept nofun
  · simp only [Option.some.injEq, Prod.mk.injEq] at hkept
    rw [← hkept.2] at hne
    exact hne rfl

theorem bootStep_setField (v : Nat) (hv : v < 16) : bootStep (s.setField .glbBootSts 0 0 3 0 v) = v :=
  (bits_setField _ _ _ _ _ _ _ (by decide)).trans (Nat.mod_eq_of_lt hv)

theorem warmReset_cleared (s : State) : bootStep (warmReset s) = 4 ∧ (warmReset s).power.warm = true ∧ (warmReset s).power.noFirmware = true ∧
    (∀ fn, tget {} (warmReset s).cmd.sessions fn = {}) ∧ (warmReset s).cmd.cmds = [] ∧ (warmReset s).cmd.qps = [] ∧ (warmReset s).groups = [] ∧
    (warmReset s).lodes = [] ∧ (warmReset s).cores = [] ∧ (warmReset s).eng = [] ∧ (warmReset s).sync = {} ∧ (warmReset s).net = {} ∧
    (warmReset s).sto = {} ∧ (warmReset s).keys = [] ∧ (warmReset s).own.lodes = [] ∧ (warmReset s).own.blocks = [] ∧ (warmReset s).tb.armed = [] ∧
    ∀ e, ((warmReset s).region e).st = 0 := by
  obtain ⟨u, hu⟩ := warmReset_eq s
  rw [hu]
  exact ⟨bootStep_setField 4 (by decide), rfl, rfl, fun _ => rfl, rfl, rfl, rfl, rfl, rfl, rfl, rfl, rfl, rfl, rfl, rfl, rfl, rfl, st_region_warmCleared⟩

/-- The pin of warm reset follows its own edges. -/
def warmPin (src : Nat) (s : State) : State :=
  if src = 19 then { s with pins := { s.pins with warmN := false } } else if src = 21 then { s with pins := { s.pins with warmN := true } } else s

theorem exec_warmReset {src : Nat} (hrun : s.power.running = true) (hsrc : src < 22) : exec (.warmReset src) s = .next
    (if src < 16 ∨ src = 21 ∨ s.power.warm = true ∨ (tget {} s.ports 0).up = false then warmPin src s else warmReset (warmPin src s)) := by
  have hpower : (warmPin src s).power = s.power ∧ (warmPin src s).ports = s.ports := by
    unfold warmPin
    repeat' split
    all_goals exact ⟨rfl, rfl⟩
  obtain ⟨hpower, hports⟩ := hpower
  rw [← hpower, ← hports]
  show execWarmReset src s = _
  unfold execWarmReset
  rw [run_next (decide_eq_true hsrc) hrun]
  rfl

/-! ### Cold resets (R469, R481) -/

theorem coldReset_cleared (s : State) : bootStep (coldReset s) = 1 ∧ (coldReset s).mem = [] ∧ (coldReset s).cmd = {} ∧ (coldReset s).sync = {} ∧
    (coldReset s).lodes = [] ∧ (coldReset s).cores = [] ∧ (coldReset s).groups = [] ∧ (coldReset s).own = {} ∧ (coldReset s).power.running = true ∧
    (coldReset s).tb = {} ∧ (coldReset s).tel = {} ∧ (coldReset s).sec.images = s.sec.images ∧ (coldReset s).sec.counters = s.sec.counters ∧
    (coldReset s).hostMem = s.hostMem ∧ (coldReset s).wire = s.wire ∧ (coldReset s).fresh = s.fresh + 1 ∧
    (coldReset s).reg .glbBootNonce = Config.random s.fresh % 2 ^ 64 := by
  refine ⟨bootStep_setField 1 (by decide), rfl, rfl, rfl, rfl, rfl, rfl, rfl, rfl, rfl, rfl, rfl, rfl, rfl, rfl, rfl, ?_⟩
  exact (reg_setField_other _ _ _ _ (by decide)).trans (reg_setReg ..)

end

/-- Settles O51: each reset's own fields. That a warm reset before HOLD or while one runs is ignored (log entry 55), that COLD_RESET_N does nothing with PWR_GOOD
low or after a trip (log entry 81), and how start-up is entered (log entry 72) are the model's choices. -/
theorem resets : Obligations.Resets := by
  intro s i p hp
  refine ⟨exists_exec_functionLevelReset_of_tenant, exists_exec_functionLevelReset_of_management, fun hrun hi => run_next (decide_eq_true hi) hrun,
    fun hrun => exec_hostPortReset hrun hp, fun hrun => exists_exec_hostPortReset_of_alone hrun hp, fun hrun hcold hup hlow hhigh => ?_, fun hrun => ?_,
    fun hrun hnot => ?_, fun hrun hnot hi hother => ?_, ⟨coldReset s, rfl, coldReset_cleared s⟩, fun t ht hgood htrip => ?_, fun hbad => ?_, rfl⟩
  · rw [exec_warmReset hrun (by omega), if_neg (by rw [hcold, hup]; simp; omega)]
    exact ⟨_, rfl, warmReset_cleared _⟩
  · rw [exec_warmReset hrun (by omega), if_pos (by simp)]
    rfl
  · rw [exec_warmReset hrun (by omega), if_pos (Or.inr (Or.inr hnot))]
    rfl
  · rw [exec_warmReset hrun (by omega), if_pos (hnot.imp_right .inr), warmPin, if_neg hother, if_neg (by omega)]
  · subst ht
    have hboth : s.pins.pwrGood = true ∧ s.power.tripped = false := ⟨hgood, htrip⟩
    exact congrArg Host.Outcome.next (if_pos hboth)
  · have hnot : ¬ (s.pins.pwrGood = true ∧ s.power.tripped = false) := by
      rintro ⟨hgood, htrip⟩
      rcases hbad with hlow | htripped
      · simp [hlow] at hgood
      · simp [htripped] at htrip
    exact congrArg Host.Outcome.next (if_neg hnot)

end Sys2Proof.Machine
end

section
/-! PROOFS. Start-up (R484 to R486). -/
namespace Sys2Proof.Machine

open Sys2Proof

section
variable {s t : State} {ok : Bool} {straps trained : Nat} {scan : Scan} {board : Bytes} {idents cables : List Bytes} {drives : List (Option DriveId)}

/-! ### What a step does, by its number -/

/-- The PUF's record is read, or drawn and enrolled. -/
def pufDerived (s : State) : State :=
  let s := { s with sec := { s.sec with derived := true } }
  if helper s = [] then
    let (k, s) := draw s
    let s := { s with sec := { s.sec with helper := Config.enrolRecord k } }
    setStep 4 (extend 1 (sha3 (helper s)) (s.orReg .glbSecSts 0 0 8))
  else setStep 4 (extend 1 (sha3 (helper s)) s)

/-- The straps are latched. -/
def strapped (straps : Nat) (s : State) : State :=
  let s := { s with pins := { s.pins with posId := straps % 8, apMode := bits straps 3 3 } }
  (s.setReg .hifCfg 0 0 (bits straps 3 3)).setReg .seamBoard 0 0 (straps % 8)

/-- The processors of `straps` crash, and the step fails. -/
def firmwareFailed (straps : Nat) (s : State) : State := (List.range 34).foldl (fun s p => if bit straps p then crash p 0 s else s) (bootFail 5 s)

/-- What the end of step `n` does. -/
def startupStep (n : Nat) (ok : Bool) (straps : Nat) (board : Bytes) (scan : Scan) (idents cables : List Bytes) (trained : Nat)
    (drives : List (Option DriveId)) (s : State) : State :=
  match n with
  | 0 | 1 => if !s.pins.coldN then s else if ok then setStep 2 (strapped straps s) else setStep 1 (bootFail 1 s)
  | 2 =>
    if !ok || (s.sec.rngFail && decide (s.sec.rngSince + 10 * msTicks ≤ s.tb.ticks)) then setStep 6 (bootFail 2 s)
    else if s.sec.rngFail then s
    else setStep 3 (extend 0 (fit 64 Config.romDigest) s)
  | 3 => if ok then pufDerived s else setStep 6 (s.orReg .glbSecSts 0 0 4)
  | 4 => if ok then bootImages s else setStep 6 (bootFail 4 s)
  | 5 => setStep 6 (if ok then bootFirmware s else firmwareFailed straps (bootFirmware s))
  | 6 => setStep 7 (bootScan (s.pins.posId + s.pins.apMode * 8) board scan idents s)
  | 7 => setStep 8 (bootTrain trained s)
  | 8 => if (bootSerdes cables drives s).power.warm then bootZero (bootSerdes cables drives s) else setStep 9 (bootSerdes cables drives s)
  | 9 => bootZero s
  | _ => if (s.power.warm || !(tget {} s.ports 0).up) && (List.range 32).all (fun n => tget 0 s.own.zeroing n == 0) then bootHold s else s

theorem exec_startupStepDone (hrun : s.power.running = true) : exec (.startupStepDone ok straps board scan idents cables trained drives) s =
    .next (startupStep (bootStep s) ok straps board scan idents cables trained drives s) := by
  show execStartupStepDone ok straps board scan idents cables trained drives s = _
  unfold execStartupStepDone
  rw [run_next rfl hrun]
  rfl

theorem startupStep_of_pll {n : Nat} (hn : n ≤ 1) : startupStep n ok straps board scan idents cables trained drives s =
    if !s.pins.coldN then s else if ok then setStep 2 (strapped straps s) else setStep 1 (bootFail 1 s) := by
  rcases Nat.le_one_iff_eq_zero_or_eq_one.1 hn with rfl | rfl
  · rfl
  · rfl

theorem startupStep_of_zeroing {n : Nat} (hn : 10 ≤ n) : startupStep n ok straps board scan idents cables trained drives s =
    if (s.power.warm || !(tget {} s.ports 0).up) && (List.range 32).all (fun n => tget 0 s.own.zeroing n == 0) then bootHold s else s := by
  obtain ⟨k, rfl⟩ := Nat.exists_eq_add_of_le' hn
  rfl

/-! ### The number of a step and its failure code (R485) -/

theorem bootStep_setStep {n : Nat} (hn : n < 16) : bootStep (setStep n s) = n := bootStep_setField n hn

theorem reg_setStep {r : Reg} {n : Nat} (hr : regAddr r 0 0 0 ≠ regAddr .glbBootSts 0 0 0) : (setStep n s).reg r = s.reg r :=
  reg_setField_other _ _ _ _ hr

theorem code_setStep {n : Nat} : bits ((setStep n s).reg .glbBootSts) 11 4 = bits (s.reg .glbBootSts) 11 4 :=
  bits_setField_other _ _ _ _ _ _ _ _ _ (by decide) (by decide)

/-- The first failure is kept, with its record. -/
theorem tells_bootFail {code : Nat} (hfirst : bits (s.reg .glbBootSts) 11 4 = 0) : Tells (s.setField .glbBootSts 0 0 11 4 code) (bootFail code s) := by
  unfold bootFail
  rw [if_neg (by simp [hfirst])]
  exact tells_raise _ none _ _ _ _ nofun

theorem code_bootFail {code : Nat} (hcode : code < 256) (hfirst : bits (s.reg .glbBootSts) 11 4 = 0) :
    bits ((bootFail code s).reg .glbBootSts) 11 4 = code := by
  rw [(tells_bootFail hfirst).reg (by decide)]
  exact (bits_setField _ _ _ _ _ _ _ (by decide)).trans (Nat.mod_eq_of_lt hcode)

theorem power_bootFail (code : Nat) (s : State) : (bootFail code s).power = s.power := by
  by_cases hfirst : bits (s.reg .glbBootSts) 11 4 = 0
  · exact (tells_bootFail hfirst).power
  · rw [bootFail, if_pos hfirst]

theorem mem_bootFail (code : Nat) (s : State) : (bootFail code s).mem = s.mem := by
  by_cases hfirst : bits (s.reg .glbBootSts) 11 4 = 0
  · rw [(tells_bootFail hfirst).rest]
    rfl
  · rw [bootFail, if_pos hfirst]

/-! ### The steps (R484, R486) -/

theorem pufDerived_sec : bootStep (pufDerived s) = 4 ∧ (pufDerived s).sec.derived = true := by
  unfold pufDerived
  dsimp only
  split
  · exact ⟨bootStep_setStep (by decide), rfl⟩
  · exact ⟨bootStep_setStep (by decide), rfl⟩

theorem strapped_cfg : (strapped straps s).reg .hifCfg = bits straps 3 3 := by
  have hbit : bits straps 3 3 < 2 ^ 32 := Nat.lt_of_lt_of_le (Nat.mod_lt _ (by decide)) (by decide)
  unfold strapped
  dsimp only
  rw [reg_setReg_other _ _ (by decide), reg_setReg]
  exact Nat.mod_eq_of_lt hbit

theorem bootImages_of_halted (hhalted : secHalted s = true) : bootImages s = setStep 6 s := if_pos (by rw [hhalted]; rfl)

theorem bootImages_of_good {m : BootImage} {k : Nat} (hruns : secHalted s = false) (hderived : s.sec.derived = true)
    (hk : k = s.sec.active.getD Config.flashActive % 2) (hboots : slotBoots s k = some m) : bootImages s = setStep 5 (takeImage k m s) := by
  subst hk
  unfold bootImages
  dsimp only
  rw [if_neg (by simp [hruns, hderived]), hboots]

theorem noFirmware_bootFirmware (s : State) : (bootFirmware s).power.noFirmware = false := by
  have hprocs (l : List Nat) (u : State) : (l.foldl (fun s p =>
      if (s.fwp p).st = .running then s.setFw p { wd := s.tb.ticks, sram := Config.fwPart s.sec.store p } else s) u).power = u.power :=
    foldl_fixes State.power (fun s p => by split <;> rfl) l u
  have hkeys (l : List (Nat × Bytes)) (u : State) : (l.foldl (fun s (k, key) =>
      if 1016 ≤ k ∧ k < 1024 then { s with keys := tput {} s.keys k { mode := 3, key := key } } else s) u).power = u.power :=
    foldl_fixes State.power (fun s c => by dsimp only; split <;> rfl) l u
  unfold bootFirmware
  dsimp only
  split
  · rw [hkeys, hprocs]
  · rw [hprocs]

theorem noSession_bootTrain (hbad : trained % 256 ≠ 255) : (bootTrain trained s).power.noSession = true := by
  unfold bootTrain
  dsimp only
  rw [if_neg hbad, power_bootFail]

theorem bootStep_bootZero : bootStep (bootZero s) = 10 := bootStep_setStep (by decide)

theorem bootHold_up : (tget {} (bootHold s).ports 0).up = true ∧ (tget {} (bootHold s).ports 1).up = true ∧ (bootHold s).power.warm = false := by
  obtain ⟨u, hu⟩ : ∃ u, bootHold s = portsUp u := ⟨_, rfl⟩
  rw [hu]
  refine ⟨?_, ?_, rfl⟩
  · unfold portsUp
    dsimp only
    rw [tmod, tget_tput_same]
  · unfold portsUp
    dsimp only
    rw [tmod, tget_tput_other _ _ _ (by decide), tmod, tget_tput_same]

end

/-- Settles O52: each step's end by its number. How an operand spells what a step finds (log entries 72 and 74) is the model's choice. -/
theorem start_Up : Obligations.Start_Up := by
  intro s ok straps trained scan board idents cables drives hrun
  dsimp only
  rw [exec_startupStepDone hrun]
  refine ⟨fun hstep hcold => ?_, fun hstep hcold hok => ?_, fun hstep hcold hok hfirst => ?_, fun hstep hok hrng => ?_, fun hstep hok hrng hearly => ?_,
    fun hstep hbad hfirst => ?_, fun hstep hok => ?_, fun hstep hok => ?_, fun hstep hok hfirst => ?_, fun hstep hok => ?_,
    fun m k hstep hok hruns hderived hk hboots => ?_, fun hstep hok hhalted => ?_, fun hstep hok => ?_, fun hstep hok => ?_, fun hstep => ?_, fun hstep => ?_,
    fun t hstep ht => ⟨fun hcold => ?_, fun hwarm => ?_⟩, fun hstep => ?_, fun hstep hstarts hzero => ?_, fun hstep hstays => ?_⟩
  · rw [startupStep_of_pll hstep, if_pos (by rw [hcold]; rfl)]
  · rw [startupStep_of_pll hstep, if_neg (by simp [hcold]), if_pos hok]
    exact ⟨_, rfl, bootStep_setStep (by decide), rfl, (reg_setStep (by decide)).trans strapped_cfg⟩
  · rw [startupStep_of_pll hstep, if_neg (by simp [hcold]), if_neg (by simp [hok])]
    exact ⟨_, rfl, bootStep_setStep (by decide), code_setStep.trans (code_bootFail (by decide) hfirst), mem_bootFail 1 s⟩
  · rw [hstep]
    refine ⟨_, congrArg _ ((if_neg (by simp [hok, hrng])).trans (if_neg (by simp [hrng]))), bootStep_setStep (by decide)⟩
  · rw [hstep]
    refine congrArg _ ((if_neg ?_).trans (if_pos hrng))
    rw [hok, decide_eq_false (by omega)]
    simp
  · have hfails : (!ok || (s.sec.rngFail && decide (s.sec.rngSince + 10 * msTicks ≤ s.tb.ticks))) = true := by
      rcases hbad with hok | ⟨hrng, hlate⟩
      · rw [hok]
        rfl
      · rw [hrng, decide_eq_true hlate, Bool.and_self, Bool.or_true]
    rw [hstep]
    exact ⟨_, congrArg _ (if_pos hfails), bootStep_setStep (by decide), code_setStep.trans (code_bootFail (by decide) hfirst),
      congrArg Power.noFirmware (power_bootFail 2 s)⟩
  · rw [hstep]
    exact ⟨_, congrArg _ (if_pos hok), pufDerived_sec⟩
  · rw [hstep]
    refine ⟨_, congrArg _ (if_neg (by simp [hok])), bootStep_setStep (by decide), ?_⟩
    rw [reg_setStep (by decide), bit_orReg (by decide), Bool.or_eq_true]
    exact .inr (by decide)
  · rw [hstep]
    exact ⟨_, congrArg _ (if_neg (by simp [hok])), bootStep_setStep (by decide), code_setStep.trans (code_bootFail (by decide) hfirst),
      congrArg Power.noFirmware (power_bootFail 4 s)⟩
  · rw [hstep]
    exact congrArg _ (if_pos hok)
  · rw [hstep]
    exact ⟨_, congrArg _ ((if_pos hok).trans (bootImages_of_good hruns hderived hk hboots)), bootStep_setStep (by decide), rfl⟩
  · rw [hstep]
    exact ⟨_, congrArg _ ((if_pos hok).trans (bootImages_of_halted hhalted)), bootStep_setStep (by decide), rfl⟩
  · rw [hstep]
    exact ⟨_, congrArg (fun u => Host.Outcome.next (setStep 6 u)) (if_pos hok), bootStep_setStep (by decide),
      (congrArg Power.noFirmware (setField_power ..)).trans (noFirmware_bootFirmware s)⟩
  · rw [hstep]
    show Host.Outcome.next (setStep 6 (if ok = true then bootFirmware s else firmwareFailed straps (bootFirmware s))) = _
    rw [hok, if_neg Bool.false_ne_true, firmwareFailed]
  · rw [hstep]
    exact ⟨_, rfl, bootStep_setStep (by decide)⟩
  · rw [hstep]
    exact ⟨_, rfl, bootStep_setStep (by decide), noSession_bootTrain⟩
  · subst ht
    rw [hstep]
    exact ⟨_, congrArg _ (if_neg (by simp [hcold])), bootStep_setStep (by decide), rfl, rfl⟩
  · subst ht
    rw [hstep]
    exact congrArg _ (if_pos hwarm)
  · rw [hstep]
    exact ⟨rfl, bootStep_bootZero⟩
  · have hall : (List.range 32).all (fun n => tget 0 s.own.zeroing n == 0) = true := by simpa using hzero
    refine ⟨_, congrArg _ ((startupStep_of_zeroing hstep).trans (if_pos ?_)), bootHold_up⟩
    rw [hall]
    rcases hstarts with hwarm | hdown
    · simp [hwarm]
    · simp [hdown]
  · refine congrArg _ ((startupStep_of_zeroing hstep).trans (if_neg ?_))
    rcases hstays with ⟨hup, hcold⟩ | ⟨n, hn, hfills⟩
    · simp [hup, hcold]
    · rw [Bool.and_eq_true, List.all_eq_true]
      rintro ⟨-, hall⟩
      exact hfills (by simpa using hall n (List.mem_range.2 hn))

end Sys2Proof.Machine
end

section
/-! PROOFS. Register writes and device accesses by access type (R11, R13, R42, R45, R440, R473). -/
namespace Sys2Proof.Machine

open Sys2Proof

section
variable {s t : State} {who off i j w : Nat} {r : Reg} {val : Word} {ext : Bytes}

/-! ### Writes by offset (R11, R42) -/

theorem exec_registerWrite (hrun : s.power.running = true) (hwho : who < 19) :
    exec (.registerWrite who off val ext) s = .next (onlyIf (off % 4 == 0) (writeReg who off val ext) s) :=
  run_next (decide_eq_true hwho) hrun

section
variable (hout : off < 0x140000 ∨ 0x150100 ≤ off)
include hout

theorem writeReg_of_none (hnone : regOf off = none) : writeReg who off val ext s = s := by
  unfold writeReg
  rw [if_neg (by omega), hnone]

variable (hreg : regOf off = some (r, i, j, w))
include hreg

theorem writeReg_of_takes (htakes : regTakes s who r i j = true) : writeReg who off val ext s = regWrite who r i j w val ext s := by
  unfold writeReg
  rw [if_neg (by omega), hreg]
  exact if_pos htakes

theorem writeReg_of_refuses (hrefuses : regTakes s who r i j = false) : writeReg who off val ext s =
    if who ≠ 18 ∧ instInS s r i = true then sticky none .glbSecSts 0 0 1 s else if r = .segMode then s.orReg .hbmGerr 0 0 1 else s := by
  unfold writeReg
  rw [if_neg (by omega), hreg]
  exact if_neg (ne_true_of_eq_false hrefuses)

end

/-- The registers with a behaviour of their own. -/
def ownBehaviour : List Reg :=
  [.tbStep, .tbAdj, .hifTenPort, .cmdAdmq, .ckpStageBase, .ckpStageBytes, .syncCoreCtx, .syncFnCtx, .detCtrl, .logHead, .memInject, .segMode,
    .regionWin, .seamCtrl, .ethCtrl, .prsTmap, .prsUntagged, .prsProfile0, .prsProfile1, .prsProfileF, .strmConsumed, .driveCtrl, .stoSqTail,
    .stoCqHead, .lodeCtrl, .meCtrl, .bcCtrl, .glbReset]

/-- Any other register takes the word by its access types, within the limits of its fields. -/
theorem regWrite_of_plain (hplain : r ∉ ownBehaviour) :
    regWrite who r i j w val ext s = s.setReg r i j (regLimit s r i j (s.reg r i j) (accessWrite r (s.reg r i j) w val.toNat)) := by
  unfold regWrite
  split
  case h_29 => rfl
  all_goals exact absurd (by simp [ownBehaviour]) hplain

/-! ### Access types (R13) -/

theorem testBit_sub_and (x y k : Nat) : (x - (x &&& y)).testBit k = (x.testBit k && !y.testBit k) := by
  induction k generalizing x y with
  | zero =>
    have hparity := @Nat.and_mod_two_eq_one x y
    have hle := @Nat.and_le_left x y
    rw [Nat.testBit_zero, Nat.testBit_zero, Nat.testBit_zero, Bool.eq_iff_iff]
    simp only [Bool.and_eq_true, decide_eq_true_eq, Bool.not_eq_true', decide_eq_false_iff_not]
    omega
  | succ k ih =>
    have hparity := @Nat.and_mod_two_eq_one x y
    have hhalf : (x - (x &&& y)) / 2 = x / 2 - (x / 2 &&& y / 2) := by
      rw [← Nat.and_div_two]
      omega
    rw [Nat.testBit_succ, Nat.testBit_succ, Nat.testBit_succ, hhalf, ih]

theorem bit_accessWrite {old v k : Nat} (hk : k < 32) : bit (accessWrite r old 0 v) k =
    (((bit old k && !(bit (regRow r).rw k || (bit (regRow r).w1c k && bit v k))) || (bit v k && bit (regRow r).rw k)) || (bit v k && bit (regRow r).w1s k)) := by
  have hmask : (2 ^ 32 - 1 : Nat).testBit k = true := by rw [Nat.testBit_two_pow_sub_one, decide_eq_true hk]
  unfold accessWrite
  simp only [bit_testBit, Nat.mul_zero, Nat.pow_zero, Nat.mul_one, Nat.testBit_or, Nat.testBit_and, testBit_sub_and, hmask, Bool.and_true]

/-! ### Device accesses (R11, R42, R440) -/

theorem place_regs (hoff : off < 0x4000000) : (place s (regBase + off)).1 = .regs := by
  have hmodules : (modules s).length ≤ 4 := Nat.le_trans (List.length_filter_le _ _) (Nat.le_of_eq List.length_range)
  generalize hn : (modules s).length = n at hmodules
  have hhbm : ¬ regBase + off < hbmBytes := by unfold regBase hbmBytes; omega
  have hlpx : ¬ (lpxBase ≤ regBase + off ∧ regBase + off < lpxBase + n * 56 * 2 ^ 30) := by unfold regBase lpxBase; omega
  have hstrata : ¬ (strataBase ≤ regBase + off ∧ regBase + off < strataBase + 0x20000000) := by unfold regBase strataBase; omega
  have himem : ¬ (imemBase ≤ regBase + off ∧ regBase + off < imemBase + 0x1100000) := by unfold regBase imemBase; omega
  have hregs : regBase ≤ regBase + off ∧ regBase + off < regBase + 0x4000000 := ⟨Nat.le_add_right .., Nat.add_lt_add_left hoff _⟩
  unfold place
  rw [hn, if_neg hhbm, if_neg hlpx, if_neg hstrata, if_neg himem, if_pos hregs]

theorem exec_deviceRegisterAccess {req : Requester} {len : Nat} {wr : Bool} (hrun : s.power.running = true) (hoff : off < 0x4000000) :
    exec (.deviceRegisterAccess req (regBase + off) len wr val ext) s = .next (deviceReg req (regBase + off) len wr val ext s) := by
  show execDeviceRegisterAccess req (regBase + off) len wr val ext s = _
  unfold execDeviceRegisterAccess
  rw [run_next rfl hrun]
  exact congrArg _ (if_pos (place_regs hoff))

theorem aligned_iff : (regBase + off) % 4 = 0 ↔ off % 4 = 0 := by
  simp only [regBase]
  omega

theorem deviceReg_of_denied {req : Requester} {len : Nat} {wr : Bool} (hbad : len ≠ 4 ∨ off % 4 ≠ 0) :
    deviceReg req (regBase + off) len wr val ext s = addrDenied req { s with resp := none, ended := some 0x0501 } :=
  if_neg (by rw [aligned_iff]; omega)

theorem deviceReg_of_write {req : Requester} (hoff : off % 4 = 0) :
    deviceReg req (regBase + off) 4 true val ext s = writeReg (reqWho req) off val ext { s with ended := some 0x0000 } := by
  unfold deviceReg
  rw [if_pos ⟨rfl, aligned_iff.2 hoff⟩, Nat.add_sub_cancel_left]
  rfl

theorem deviceReg_of_read {req : Requester} (hoff : off % 4 = 0) (hlow : off < 0x140000) (ht : t = { s with ended := some 0x0000 }) (hworld : req.world = .s)
    (hreg : regOf off = some (r, i, j, w)) (hlatch : (regRow r).latch = false) :
    deviceReg req (regBase + off) 4 false val ext s = { t with resp := some (regLive t r i j / 2 ^ (32 * w) % 2 ^ 32) } := by
  have hwho : reqWho req = 18 := by
    unfold reqWho
    rw [hworld]
  have hread : readReg 18 off t = (regLive t r i j / 2 ^ (32 * w) % 2 ^ 32, t) := by
    unfold readReg
    rw [if_neg (by omega), hreg]
    dsimp only
    rw [hlatch]
    rfl
  have hdevice : deviceReg req (regBase + off) 4 false val ext s =
      { (readReg (reqWho req) off t).2 with resp := some (readReg (reqWho req) off t).1 } := by
    subst ht
    unfold deviceReg
    rw [if_pos ⟨rfl, aligned_iff.2 hoff⟩, Nat.add_sub_cancel_left]
    rfl
  rw [hdevice, hwho, hread]

/-! ### PWR.LIMIT (R473) -/

theorem bits_accessWrite_limit (old v : Nat) : bits (accessWrite .pwrLimit old 0 v) 10 0 = v % 2 ^ 11 := by
  have hsame : bits (accessWrite .pwrLimit old 0 v) 10 0 = bits v 10 0 := by
    refine bits_congr fun k _ hk => ?_
    have hrw : bit 0x7ff k = true := by
      rw [bit_testBit, show (0x7ff : Nat) = 2 ^ 11 - 1 from rfl, Nat.testBit_two_pow_sub_one]
      exact decide_eq_true (by omega)
    have hnone : bit 0 k = false := by rw [bit_testBit, Nat.zero_testBit]
    rw [bit_accessWrite (by omega)]
    show ((bit old k && !(bit 0x7ff k || (bit 0 k && bit v k))) || (bit v k && bit 0x7ff k) || (bit v k && bit 0 k)) = bit v k
    rw [hrw, hnone]
    simp
  exact hsame

theorem clampNat_eq (x : Nat) : clampNat 600 1800 x = max 600 (min 1800 x) := by
  unfold clampNat
  split
  · omega
  · split <;> omega

theorem exec_registerWrite_limit (hrun : s.power.running = true) : exec (.registerWrite 16 0x400008 val ext) s =
    .next (s.setReg .pwrLimit 0 0 (clampField (accessWrite .pwrLimit (s.reg .pwrLimit) 0 val.toNat) 10 0 600 1800)) := by
  have hreg : regOf 0x400008 = some (.pwrLimit, 0, 0, 0) := regOf_regAddr (r := .pwrLimit) (i := 0) (j := 0) (w := 0) (by decide) (by decide) (by decide)
  have hplain : Reg.pwrLimit ∉ ownBehaviour := by decide
  rw [exec_registerWrite hrun (by decide), onlyIf_true (by decide), writeReg_of_takes (.inr (by decide)) hreg rfl, regWrite_of_plain hplain]
  rfl

theorem limit_of_write (x : Nat) : bits ((s.setReg .pwrLimit 0 0 (clampField x 10 0 600 1800)).reg .pwrLimit) 10 0 = max 600 (min 1800 (bits x 10 0)) := by
  have hlow : bits (putBits x 10 0 (clampNat 600 1800 (bits x 10 0)) % 2 ^ 32) 10 0 = bits (putBits x 10 0 (clampNat 600 1800 (bits x 10 0))) 10 0 :=
    bits_congr fun k _ hk => bit_mod _ _ _ (by omega)
  rw [reg_setReg]
  refine hlow.trans ?_
  rw [bits_putBits, clampNat_eq]
  exact Nat.mod_eq_of_lt (by omega)

end

/-- Settles O53: the writer, the offset and the access types of the bits. That a device access to the upper half of the register space answers OK (log entry
101) and how an access is refused (log entry 78) are the model's choices. -/
theorem register_Writes : Obligations.Register_Writes := by
  refine ⟨fun s who off i j w r val ext hrun hwho => ⟨fun hodd => ?_, fun hoff hlow hhigh => ⟨fun hview => ?_, fun hview => ?_⟩,
    fun hoff hout => ⟨fun hreg htakes => ?_, fun hnone => ?_, fun hreg htakes hplain => ?_, fun hreg hrefuses hfree hseg => ?_,
      fun hreg hsoft hrefuses hworld => ?_⟩, fun req len wr hbad hoff => ?_, fun req hoff hlow => ?_, fun req a len wr hplace => ?_,
    fun req t ht hworld hoff hlow hreg hlatch => ?_⟩, fun r old val k hwords hk => ⟨fun hset => ?_, fun hset hrw hclear => ?_⟩, fun s val ext hrun =>
    ⟨_, exec_registerWrite_limit hrun, ?_, rfl, rfl⟩⟩
  · rw [exec_registerWrite hrun hwho, onlyIf_false (by simpa using hodd)]
  · rw [exec_registerWrite hrun hwho, onlyIf_true (by simpa using hoff)]
    exact congrArg _ ((if_pos ⟨hlow, hhigh⟩).trans (if_pos hview))
  · rw [exec_registerWrite hrun hwho, onlyIf_true (by simpa using hoff)]
    exact congrArg _ ((if_pos ⟨hlow, hhigh⟩).trans (if_neg (by omega)))
  · rw [exec_registerWrite hrun hwho, onlyIf_true (by simpa using hoff), writeReg_of_takes hout hreg htakes]
  · rw [exec_registerWrite hrun hwho, onlyIf_true (by simpa using hoff), writeReg_of_none hout hnone]
  · rw [exec_registerWrite hrun hwho, onlyIf_true (by simpa using hoff), writeReg_of_takes hout hreg htakes, regWrite_of_plain hplain]
  · have hquiet : ¬ (who ≠ 18 ∧ instInS s r i = true) := by
      rintro ⟨hsoft, hworld⟩
      rcases hfree with heq | hworldN
      · exact hsoft heq
      · simp [hworldN] at hworld
    rw [exec_registerWrite hrun hwho, onlyIf_true (by simpa using hoff), writeReg_of_refuses hout hreg hrefuses, if_neg hquiet, if_neg hseg]
  · rw [exec_registerWrite hrun hwho, onlyIf_true (by simpa using hoff), writeReg_of_refuses hout hreg hrefuses, if_pos ⟨hsoft, hworld⟩]
    rfl
  · rw [exec_deviceRegisterAccess hrun hoff, deviceReg_of_denied hbad]
  · rw [exec_deviceRegisterAccess hrun hlow, deviceReg_of_write hoff]
  · show execDeviceRegisterAccess req a len wr val ext s = _
    unfold execDeviceRegisterAccess
    rw [run_next rfl hrun]
    exact congrArg _ (if_neg hplace)
  · rw [exec_deviceRegisterAccess hrun (by omega), deviceReg_of_read hoff hlow ht hworld hreg hlatch]
  · rw [bit_accessWrite hk, hset, Bool.and_false, Bool.or_false]
    cases bit (regRow r).rw k <;> cases bit (regRow r).w1c k <;> simp
  · rw [bit_accessWrite hk, hset, hrw, hclear]
    simp
  · rw [limit_of_write, bits_accessWrite_limit]

end Sys2Proof.Machine
end

section
/-! PROOFS. Requests on the fabric are checked at their target (R23, R36, R42, R297, R308, R527). -/
namespace Sys2Proof.Machine

open Sys2Proof

section
variable {s t z : State} {q : FabricReq} {a n : Nat} {wr : Bool} {d b : Bytes}

/-! ### No answer is made by a refusal or a wake -/

theorem resp_capture (r : Rec) (s : State) : (capture r s).resp = s.resp := by
  unfold capture
  rcases r.tenant with _ | t
  · simp only [apply_ite State.resp, setReg_resp, ite_self]
  · simp only [apply_ite State.resp, setReg_resp, ite_self]

theorem resp_raise (cls : Nat) (ten : Option Nat) (source kind : Nat) (body : Bytes) (s : State) : (raise cls ten source kind body s).resp = s.resp := by
  have hadmit (r : Rec) (s : State) : Tells s ((List.range 21).foldl (fun s p => if selects s p r then admitIn p r s else s) s) := by
    refine Tells.foldlIn (P := fun p => p < 21) (fun s p hp => ?_) _ (fun p hp => List.mem_range.1 hp) s
    split
    · exact tells_admit _ _ _ hp
    · exact Tells.refl s
  unfold raise
  exact (hadmit _ _).resp.trans (resp_capture _ _)

theorem resp_stickyRec (cls : Nat) (ten : Option Nat) (cap : Nat) (r : Reg) (i j m : Nat) (s : State) : (stickyRec cls ten cap r i j m s).resp = s.resp := by
  unfold stickyRec
  dsimp only
  split
  · rfl
  · exact resp_raise ..

theorem resp_refuse (r : Requester) (a n : Nat) (s : State) : (refuse r a n s).resp = s.resp := by
  unfold refuse
  split
  · exact resp_stickyRec ..
  · exact resp_stickyRec ..

theorem resp_wakeDeep (s : State) : (wakeDeep s).resp = s.resp := by
  unfold wakeDeep
  split <;> rfl

theorem resp_wakeLode (k : Nat) (s : State) : (wakeLode k s).resp = s.resp := by
  unfold wakeLode
  dsimp only
  split
  · exact resp_wakeDeep s
  · split <;> rfl

theorem resp_wakeSpan (a n : Nat) (s : State) : (wakeSpan a n s).resp = s.resp := by
  unfold wakeSpan wakeAt
  split
  · exact foldl_fixes State.resp (fun s i => resp_wakeLode _ s) _ s
  · split
    · exact resp_wakeLode _ s
    · exact resp_wakeDeep s
    · exact resp_wakeDeep s
    · rfl

theorem resp_wakeRange (a n : Nat) (s : State) : (wakeRange s a n).resp = s.resp := by
  unfold wakeRange
  split
  · rfl
  · exact resp_wakeSpan a n s

/-! ### Bytes as a number and back -/

theorem leBytes_leNat : ∀ b : Bytes, leBytes b.length (leNat b) = b
  | [] => rfl
  | x :: b => by
    have hhead : BitVec.ofNat 8 (x.toNat + 256 * leNat b) = x := by
      apply BitVec.eq_of_toNat_eq
      rw [BitVec.toNat_ofNat, Nat.add_mul_mod_self_left]
      exact Nat.mod_eq_of_lt x.isLt
    have htail : (x.toNat + 256 * leNat b) / 256 = leNat b := by
      have := x.isLt
      omega
    rw [leNat, List.length_cons, leBytes, hhead, htail, leBytes_leNat b]

theorem length_of_readMem (hread : readMem s a n = (t, .ok b)) : b.length = n := by
  unfold readMem at hread
  dsimp only at hread
  split at hread
  · cases hread
    simp [memBytes]
  · cases hread

/-! ### Requests (R23, R36, R42, R297, R308) -/

/-- What an answer is after it has crossed back whole. -/
def answered (n : Nat) (s : State) : State := if s.resp.isSome then { s with resp := some (leNat (leBytes n (s.resp.getD 0))) } else s

theorem answered_of_none (hresp : s.resp = none) : answered n s = s := if_neg (by rw [hresp]; exact Bool.false_ne_true)

theorem answered_of_bytes (hresp : s.resp = some (leNat b)) (hlen : b.length = n) : answered n s = s := by
  subst hlen
  unfold answered
  rw [hresp, Option.isSome_some, if_pos rfl, Option.getD_some, leBytes_leNat, ← hresp]

theorem bridgeCross_of_none (src dst : Nat) (back : Bool) (data : Bytes) (s : State) : bridgeCross src dst back [] data s = (s, some data) := by
  unfold bridgeCross
  split <;> rfl

theorem tableUpset_of_none (htable : q.table = 0) : tableUpset q a s = s := if_pos htable

theorem exec_fabricRequest_of_empty (hrun : s.power.running = true) (hz : z = { s with resp := none, ended := none }) (hempty : (if wr then d.length else n) = 0) :
    exec (.fabricRequest q a n wr d) s = .next z := by
  subst hz
  show execFabricRequest q a n wr d s = _
  unfold execFabricRequest
  rw [run_next rfl hrun]
  exact congrArg _ (if_pos hempty)

/-- An answer taken back is no concern of the target's checks. -/
theorem unanswered_same (hz : z = { s with resp := none, ended := none }) : z.resp = none ∧ place z a = place s a ∧
    (∀ n wr, permits z q.who a n wr = permits s q.who a n wr) ∧ (∀ n, rangeWaits z a n = rangeWaits s a n) := by
  have hown : z.own = s.own := by rw [hz]
  have hplace (b : Nat) : place z b = place s b := by
    rw [hz]
    rfl
  refine ⟨by rw [hz], hplace a, fun n wr => permits_congr hown hplace q.who a n wr, fun n => ?_⟩
  rw [rangeWaits, rangeWaits, memWaits, memWaits, hplace, hz]
  rfl

theorem resp_count (r : Reg) (i j n : Nat) (s : State) : (s.count r i j n).resp = s.resp := by
  unfold State.count
  split <;> rfl

section
variable (hrun : s.power.running = true) (hz : z = { s with resp := none, ended := none })
include hrun hz

theorem exec_fabricRequest {k : Nat} (hclean : q.errs = []) (htable : q.table = 0) (hk : k = if wr then d.length else n) (hsome : k ≠ 0) :
    exec (.fabricRequest q a n wr d) s = .next (answered k (fabricServe q.who a k wr d q.ext z)) := by
  subst hz hk
  show execFabricRequest q a n wr d s = _
  unfold execFabricRequest
  rw [run_next rfl hrun]
  dsimp only
  rw [if_neg hsome, hclean, bridgeCross_of_none]
  dsimp only
  rw [tableUpset_of_none htable, bridgeCross_of_none]
  rfl

/-! ### A unit with two wrong symbols (R527) -/

theorem exec_fabricRequest_of_wrong {k v : Nat} (hcross : bridgeDir (unitDie q.who.unit) (addrDie s a) = some k) (herrs : q.errs = [⟨false, v, 2⟩])
    (hsome : 0 < (if wr then d.length else n)) : exec (.fabricRequest q a n wr d) s =
      .next { stickyRec 1 none k .errGlbSts 0 0 2 ((draw z).2.count .errBridgeUe 0 k 1) with ended := some 0x0401 } := by
  have hbridge : bridgeCross (unitDie q.who.unit) (addrDie z a) false q.errs d z =
      (stickyRec 1 none k .errGlbSts 0 0 2 ((draw z).2.count .errBridgeUe 0 k 1), none) := by
    unfold bridgeCross
    rw [show addrDie z a = addrDie s a by rw [hz]; rfl, hcross, herrs]
    rfl
  rw [hz] at hbridge ⊢
  show execFabricRequest q a n wr d s = _
  unfold execFabricRequest
  rw [run_next rfl hrun]
  dsimp only
  rw [if_neg (by omega), hbridge]
  rfl

end

/-! ### What the target does (R36, R297, R308) -/

section
variable {req : Requester} {ext : Bytes} (hregs : (place s a).1 ≠ .regs) (hhost : (place s a).1 ≠ .host)
include hregs hhost

theorem fabricServe_of_denied (hdenied : permits s req a n wr = false) :
    fabricServe req a n wr d ext s = { refuse req a n s with ended := some (refusedSt s req a n) } := by
  unfold fabricServe
  split
  next h => exact absurd h hregs
  next h => exact absurd h hhost
  next => exact if_pos (by rw [hdenied]; rfl)

variable (hpermits : permits s req a n wr = true)
include hpermits

theorem fabricServe_of_waits (hwaits : rangeWaits s a n = true) : fabricServe req a n wr d ext s = wakeRange s a n := by
  unfold fabricServe
  split
  next h => exact absurd h hregs
  next h => exact absurd h hhost
  next => exact (if_neg (by rw [hpermits]; exact Bool.false_ne_true)).trans (if_pos hwaits)

variable (hready : rangeWaits s a n = false)
include hready

theorem fabricServe_of_read (hrd : wr = false) (hread : readMem s a n = (t, .ok b)) :
    fabricServe req a n wr d ext s = { t with resp := some (leNat b), ended := some 0x0000 } := by
  subst hrd
  unfold fabricServe
  split
  next h => exact absurd h hregs
  next h => exact absurd h hhost
  next =>
    rw [hpermits, hready, hread]
    rfl

theorem fabricServe_of_write (hwr : wr = true) (hwrite : devWrite a d s = (t, none)) :
    fabricServe req a n wr d ext s = { t with ended := some 0x0000 } := by
  subst hwr
  unfold fabricServe
  split
  next h => exact absurd h hregs
  next h => exact absurd h hhost
  next =>
    rw [hpermits, hready, hwrite]
    rfl

end

end

/-- Settles O54: the bridge, then the range, then the memory. That a waiting request only wakes its memory (log entry 110), that a request of no bytes does
nothing, and how a refusal is counted (log entry 78) are the model's choices. -/
theorem fabric_Requests : Obligations.Fabric_Requests := by
  intro s t z q a n wr d b hrun hz
  refine ⟨⟨exec_fabricRequest_of_empty hrun hz rfl, exec_fabricRequest_of_empty hrun hz rfl⟩, fun hclean htable hsome hregs hhost => ?_,
    fun hclean htable hsome hregs hhost => ?_, fun k v hcross hk herrs hsome => ⟨exec_fabricRequest_of_wrong hrun hz hcross herrs hsome, ?_⟩⟩
  · obtain ⟨hresp, hplace, hgrant, hwait⟩ := unanswered_same (q := q) (a := a) hz
    rw [← hplace] at hregs hhost
    rw [exec_fabricRequest (k := n) hrun hz hclean htable rfl (Nat.ne_of_gt hsome), ← hgrant, ← hwait]
    refine ⟨fun hdenied => ?_, fun hpermits hwaits => ⟨_, ?_, rfl⟩, fun hpermits hready hread => ?_⟩
    · rw [fabricServe_of_denied hregs hhost hdenied]
      exact congrArg _ (answered_of_none ((resp_refuse ..).trans hresp))
    · rw [fabricServe_of_waits hregs hhost hpermits hwaits, answered_of_none ((resp_wakeRange ..).trans hresp)]
    · rw [fabricServe_of_read hregs hhost hpermits hready rfl hread]
      exact congrArg _ (answered_of_bytes rfl (length_of_readMem hread))
  · obtain ⟨hresp, hplace, hgrant, hwait⟩ := unanswered_same (q := q) (a := a) hz
    have hlen : d.length ≠ 0 := fun hzero => hsome (List.eq_nil_of_length_eq_zero hzero)
    rw [← hplace] at hregs hhost
    rw [exec_fabricRequest (k := d.length) hrun hz hclean htable rfl hlen, ← hgrant, ← hwait]
    refine ⟨fun hdenied => ?_, fun hpermits hready hwrite hnone => ?_⟩
    · rw [fabricServe_of_denied hregs hhost hdenied]
      exact congrArg _ (answered_of_none ((resp_refuse ..).trans hresp))
    · rw [fabricServe_of_write hregs hhost hpermits hready rfl hwrite]
      exact congrArg _ (answered_of_none hnone)
  · rw [resp_stickyRec, resp_count, hz]
    rfl

end Sys2Proof.Machine
end

section
/-! PROOFS. The fabric transport takes ring entries (R376 to R379, R381, R386). -/
namespace Sys2Proof.Machine

open Sys2Proof

section
variable {s u v t : State} {id i p : Nat} {c : Cmd} {r : FtRing}

/-! ### FT_RING_CREATE and FT_RING_DELETE (R376) -/

section
variable (hi : i = 16 * c.fn + c.p 0)
include hi

/-- A ring is made where the doorbell counter translates. -/
def ringMade (id : Nat) (c : Cmd) (i : Nat) (s : State) : Xl → State
  | .phys p =>
    finish0 id 0x0000 (sendWait p ⟨0x202, 1, none, bits (c.p 2) 23 0,
      if bit (bits (c.p 2) 23 0) 23 then (fnBind s c.fn).getD 0xFFFF else 0xFFFF, 0xFFFFFFFF, c.fn, none, some i⟩
      (s.setFtRing i (some { log2 := c.p 1, ctr := p, base := c.p 3, cq := c.p 4 })))
  | .ue => failAt c 0x0401 .ftRingCreate 2 s
  | _ => failAt c 0x0501 .ftRingCreate 2 s

theorem exec_ftRingCreate (h : Ready s .ftRingCreate id c) (habsent : s.ftRing i = none) :
    exec (.ftRingCreate id) s = .next (ringMade id c i s (translateFor s (c.fn + 1) (fnBind s c.fn) (bits (c.p 2) 23 0))) := by
  subst hi
  show execFtRingCreate id s = _
  unfold execFtRingCreate
  rw [h.exec, need6_of_met (by rw [habsent]; rfl)]
  rfl

theorem exec_ftRingCreate_of_active (h : Ready s .ftRingCreate id c) (hactive : (s.ftRing i).isSome = true) :
    exec (.ftRingCreate id) s = .next (finish id 0x0201 (0x12 + c.p 0 * 256) 1 0 0 s) := by
  subst hi
  show execFtRingCreate id s = _
  unfold execFtRingCreate need6
  rw [h.exec, if_neg (by rw [Option.isNone_iff_eq_none]; intro heq; simp [heq] at hactive), h.id_eq]
  rfl

omit hi in
/-- A message of the ring is in flight. -/
def ringBusy (i : Nat) (s : State) : Bool :=
  s.ft.msgs.any fun (_, m) => match m with | some m => (match m.from_ with | .ring k _ => k == i | _ => false) | none => false

omit hi in
theorem ringBusy_of_free (hfree : ∀ k m n, (k, some m) ∈ s.ft.msgs → m.from_ ≠ .ring i n) : ringBusy i s = false := by
  unfold ringBusy
  rw [List.any_eq_false]
  rintro ⟨k, m⟩ hmem
  dsimp only
  split
  next x =>
    split
    next j n hfrom =>
      rw [beq_iff_eq]
      rintro rfl
      exact hfree k x n hmem hfrom
    next => exact Bool.false_ne_true
  next => exact Bool.false_ne_true

omit hi in
theorem ringBusy_of_mem {k n : Nat} {m : FtMsg} (hmem : (k, some m) ∈ s.ft.msgs) (hfrom : m.from_ = .ring i n) : ringBusy i s = true := by
  refine List.any_eq_true.2 ⟨_, hmem, ?_⟩
  dsimp only
  rw [hfrom]
  exact beq_self_eq_true i

theorem exec_ftRingDelete_of_free (h : Ready s .ftRingDelete id c) (hactive : s.ftRing i = some r) (hfree : ringBusy i s = false) :
    exec (.ftRingDelete id) s = .next (finish0 id 0x0000 (withdraw 0x202 (some i) (s.setFtRing i none))) := by
  subst hi
  have hmet : ((s.ftRing (16 * c.fn + c.p 0)).isSome && !ringBusy (16 * c.fn + c.p 0) s) = true := by rw [hactive, hfree]; rfl
  show execFtRingDelete id s = _
  unfold execFtRingDelete
  rw [h.exec]
  exact congrArg _ (need6_of_met hmet)

theorem exec_ftRingDelete_of_absent (h : Ready s .ftRingDelete id c) (habsent : s.ftRing i = none) :
    exec (.ftRingDelete id) s = .next (finish id 0x0201 (0x12 + c.p 0 * 256) 0 0 0 s) := by
  subst hi
  show execFtRingDelete id s = _
  unfold execFtRingDelete need6
  rw [h.exec]
  dsimp only
  rw [habsent, h.id_eq]
  rfl

theorem exec_ftRingDelete_of_busy (h : Ready s .ftRingDelete id c) (hactive : s.ftRing i = some r) (hbusy : ringBusy i s = true) :
    exec (.ftRingDelete id) s = .next (finish id 0x0201 (0x12 + c.p 0 * 256) 1 0 0 s) := by
  subst hi
  have hunmet : ¬ ((s.ftRing (16 * c.fn + c.p 0)).isSome && !ringBusy (16 * c.fn + c.p 0) s) = true := by rw [hbusy]; simp
  show execFtRingDelete id s = _
  unfold execFtRingDelete need6
  rw [h.exec]
  refine congrArg _ ((if_neg hunmet).trans ?_)
  rw [hactive, h.id_eq]
  rfl

/-! ### FT_RQ_BIND and FT_RQ_UNBIND (R377) -/

theorem exec_ftRqBind (h : Ready s .ftRqBind id c) (habsent : s.ftRq i = none) : exec (.ftRqBind id) s = .next
    (if c.p 3 = 0xFFFFFFFF ∧ strict s c.fn = true then finish0 id 0x0105 (varRefuse c.fn s)
    else finish0 id 0x0000 (s.setFtRq i (some
      { log2 := c.p 1, slot := c.p 2, src := c.p 3, sync := c.p 4, base := c.p 5, cq := c.p 6, done := c.p 7 }))) := by
  subst hi
  show execFtRqBind id s = _
  unfold execFtRqBind
  rw [h.exec, need6_of_met (by rw [habsent]; rfl)]
  rfl

theorem exec_ftRqBind_of_bound (h : Ready s .ftRqBind id c) (hbound : (s.ftRq i).isSome = true) :
    exec (.ftRqBind id) s = .next (finish id 0x0201 (0x13 + c.p 0 * 256) 1 0 0 s) := by
  subst hi
  show execFtRqBind id s = _
  unfold execFtRqBind need6
  rw [h.exec, if_neg (by rw [Option.isNone_iff_eq_none]; intro heq; simp [heq] at hbound), h.id_eq]
  rfl

omit hi in
/-- A message for the queue is ACTIVE at the receiver. -/
def queueBusy (i : Nat) (s : State) : Bool := s.ft.rx.any fun e => e.st == .active && (match e.rq with | some (q, _) => q == i | none => false)

omit hi in
theorem queueBusy_of_free (hfree : ∀ e ∈ s.ft.rx, e.st = .active → ∀ q, e.rq = some q → q.1 ≠ i) : queueBusy i s = false := by
  unfold queueBusy
  rw [List.any_eq_false]
  intro e hmem hbusy
  rw [Bool.and_eq_true, beq_iff_eq] at hbusy
  obtain ⟨hactive, hqueue⟩ := hbusy
  split at hqueue
  next q n hrq => exact hfree e hmem hactive _ hrq (beq_iff_eq.1 hqueue)
  next => exact Bool.false_ne_true hqueue

omit hi in
theorem queueBusy_of_mem {e : FtRx} {n : Nat} (hmem : e ∈ s.ft.rx) (hactive : e.st = .active) (hrq : e.rq = some (i, n)) : queueBusy i s = true := by
  refine List.any_eq_true.2 ⟨e, hmem, ?_⟩
  rw [hactive, hrq]
  simp

theorem exec_ftRqUnbind_of_free {x : FtRq} (h : Ready s .ftRqUnbind id c) (hbound : s.ftRq i = some x) (hfree : queueBusy i s = false) :
    exec (.ftRqUnbind id) s = .next (finish0 id 0x0000 (s.setFtRq i none)) := by
  subst hi
  have hmet : ((s.ftRq (16 * c.fn + c.p 0)).isSome && !queueBusy (16 * c.fn + c.p 0) s) = true := by rw [hbound, hfree]; rfl
  show execFtRqUnbind id s = _
  unfold execFtRqUnbind
  rw [h.exec]
  exact congrArg _ (need6_of_met hmet)

theorem exec_ftRqUnbind_of_busy {x : FtRq} (h : Ready s .ftRqUnbind id c) (hbound : s.ftRq i = some x) (hbusy : queueBusy i s = true) :
    exec (.ftRqUnbind id) s = .next (finish id 0x0201 (0x13 + c.p 0 * 256) 1 0 0 s) := by
  subst hi
  have hunmet : ¬ ((s.ftRq (16 * c.fn + c.p 0)).isSome && !queueBusy (16 * c.fn + c.p 0) s) = true := by rw [hbusy]; simp
  show execFtRqUnbind id s = _
  unfold execFtRqUnbind need6
  rw [h.exec]
  refine congrArg _ ((if_neg hunmet).trans ?_)
  rw [hbound, h.id_eq]
  rfl

theorem exec_ftRqUnbind_of_unbound (h : Ready s .ftRqUnbind id c) (hunbound : s.ftRq i = none) :
    exec (.ftRqUnbind id) s = .next (finish id 0x0201 (0x13 + c.p 0 * 256) 0 0 0 s) := by
  subst hi
  show execFtRqUnbind id s = _
  unfold execFtRqUnbind need6
  rw [h.exec]
  dsimp only
  rw [hunbound, h.id_eq]
  rfl

end

/-! ### A take (R379, R381) -/

/-- The opcodes that have a take. -/
def takeOps : List Nat := [1, 2, 4, 5, 0x0A]

theorem takeOps_iff (code : Nat) : (code == 1 || code == 2 || code == 4 || code == 5 || code == 0x0A) = true ↔ code ∈ takeOps := by
  simp [takeOps, or_assoc]

/-- The ring's next entry is taken. -/
def entryTaken (i : Nat) (r : FtRing) (s : State) : State :=
  { s with ft := { s.ft with
    last := i, rings := tput none s.ft.rings i (some { r with next := (r.next + 1) % 2 ^ 32, credit := r.credit - 1 }) } }

/-- What becomes of the entry at `a`, the ring's next, once it has left the ring. -/
def takenServed (i : Nat) (r : FtRing) (a code : Nat) (s : State) : State :=
  if !permits s (tenReq (i / 16) 0x202) a 64 false then
    ftRingEnd i r.next (refusedSt s (tenReq (i / 16) 0x202) a 64) code 0 0 none (refuse (tenReq (i / 16) 0x202) a 64 s)
  else match readMem s a 64 with
  | (s, .ok e) => ftTakeEntry i r e s
  | (s, .error _) => ftRingEnd i r.next 0x0401 code 0 0 none s

theorem ftTake_of_none {op : Nat} (hnone : ftNext s = none) : ftTake op s = s := by
  unfold ftTake
  rw [hnone]

section
variable {a op : Nat} (hnext : ftNext s = some (i, r)) (ha : a = r.base + r.next % 2 ^ r.log2 * 64)
include hnext ha

theorem ftTake_eq : ftTake op s = if memWaits s a 64 then wakeSpan a 64 s
    else if (memByte s a).toNat = op ∨ (memByte s a).toNat ∉ takeOps then takenServed i r a (memByte s a).toNat (entryTaken i r s) else s := by
  have hops : ((!((memByte s a).toNat == 1 || (memByte s a).toNat == 2 || (memByte s a).toNat == 4 || (memByte s a).toNat == 5 ||
      (memByte s a).toNat == 0x0A)) = true) = ((memByte s a).toNat ∉ takeOps) := by
    rw [Bool.not_eq_true', ← Bool.not_eq_true, takeOps_iff]
  subst ha
  unfold ftTake
  rw [hnext]
  dsimp only
  simp only [hops]
  rfl

theorem ftTake_of_mine (hready : memWaits s a 64 = false) (hmine : (memByte s a).toNat = op ∨ (memByte s a).toNat ∉ takeOps) :
    ftTake op s = takenServed i r a (memByte s a).toNat (entryTaken i r s) := by
  rw [ftTake_eq hnext ha, if_neg (ne_true_of_eq_false hready), if_pos hmine]

end

theorem takenServed_of_denied {a code : Nat} (hdenied : permits s (tenReq (i / 16) 0x202) a 64 false = false) : takenServed i r a code s =
    ftRingEnd i r.next (refusedSt s (tenReq (i / 16) 0x202) a 64) code 0 0 none (refuse (tenReq (i / 16) 0x202) a 64 s) :=
  if_pos (by rw [hdenied]; rfl)

section
variable {a code : Nat} (hpermits : permits s (tenReq (i / 16) 0x202) a 64 false = true)
include hpermits

theorem takenServed_of_unread {x : Nat} (hread : readMem s a 64 = (v, .error x)) : takenServed i r a code s = ftRingEnd i r.next 0x0401 code 0 0 none v := by
  unfold takenServed
  rw [hpermits, hread]
  rfl

theorem takenServed_of_read {e : Bytes} (hread : readMem s a 64 = (v, .ok e)) : takenServed i r a code s = ftTakeEntry i r e v := by
  unfold takenServed
  rw [hpermits, hread]
  rfl

end

theorem exec_ftTake {cmd : Instr} {op : Nat} (hcmd : (cmd, op) ∈ [(Instr.ftWrite, 1), (.ftRead, 2), (.ftSend, 4), (.ftAtomic, 5), (.ftSignal, 0x0A)])
    (hrun : s.power.running = true) : exec cmd s = .next (ftTake op s) := by
  simp only [List.mem_cons, Prod.mk.injEq, List.not_mem_nil, or_false] at hcmd
  rcases hcmd with ⟨rfl, rfl⟩ | ⟨rfl, rfl⟩ | ⟨rfl, rfl⟩ | ⟨rfl, rfl⟩ | ⟨rfl, rfl⟩
  · exact run_next rfl hrun
  · exact run_next rfl hrun
  · exact run_next rfl hrun
  · exact run_next rfl hrun
  · exact run_next rfl hrun

/-! ### An entry's checks, in the order of R379 -/

/-- The memory that an entry's operation touches at its own device. -/
def entryExtent (e : Bytes) : Nat :=
  if fld e 0 1 = 5 then (if aopFetch (fld e 3 1) then 8 else 0) else if fld e 0 1 = 0x0A then 0 else fld e 32 4

/-- The ring's tenant may reach that memory. -/
def entryReaches (i : Nat) (e : Bytes) (s : State) : Bool :=
  entryExtent e == 0 || permits s (tenReq (i / 16) 0x202) (fld e 16 8) (entryExtent e) (fld e 0 1 == 2 || fld e 0 1 == 5)

/-- The message of an entry that signals no counter. -/
def entryMsg (i : Nat) (r : FtRing) (e : Bytes) (s : State) : FtMsg where
  gen := 0
  take := 0
  from_ := .ring i r.next
  tenant := i / 16
  op := fld e 0 1
  ord := bit (fld e 1 1) 0
  cls := fld e 2 1
  aop := fld e 3 1
  dst := fld e 4 4
  key := fld e 8 4
  kgen := fld e 12 1
  laddr := fld e 16 8
  raddr := fld e 24 8
  len := fld e 32 4
  operand := fld e 36 8
  cmp := fld e 44 8
  sig := none
  mtu := ftMtu s
  moved := s.tb.ticks

/-- The message begins, its variable operation counted. -/
def entryStarted (i : Nat) (r : FtRing) (e : Bytes) (s : State) : State :=
  let v := if fld e 0 1 = 5 ∧ aopCounted (fld e 3 1) then varCount (i / 16) none s else s
  ftStart (entryMsg i r e v) v

section
variable {e : Bytes} (hsync : fld e 52 4 = 0)
include hsync

theorem ftTakeEntry_of_no_signal : ftTakeEntry i r e s =
    if !(fld e 0 1 == 1 || fld e 0 1 == 2 || fld e 0 1 == 4 || fld e 0 1 == 5 || fld e 0 1 == 0x0A) then ftRingEnd i r.next 0x0101 (fld e 0 1) 0 0 none s
    else if !entryZeroOk e then ftRingEnd i r.next 0x0102 (fld e 0 1) 0 0 none s
    else if !entryLegal s e then ftRingEnd i r.next 0x0103 (fld e 0 1) 0 0 none s
    else if !entryReaches i e s then
      ftRingEnd i r.next (refusedSt s (tenReq (i / 16) 0x202) (fld e 16 8) (entryExtent e)) (fld e 0 1) 0 0 none
        (refuse (tenReq (i / 16) 0x202) (fld e 16 8) (entryExtent e) s)
    else if fld e 0 1 = 5 ∧ aopCounted (fld e 3 1) = true ∧ strict s (i / 16) = true then
      ftRingEnd i r.next 0x0105 (fld e 0 1) 0 0 none (varRefuse (i / 16) s)
    else entryStarted i r e s := by
  unfold ftTakeEntry
  rw [hsync]
  simp only [ne_eq, not_true_eq_false, false_and, if_false, if_true]
  rfl

theorem ftTakeEntry_of_opcode (hop : fld e 0 1 ∉ takeOps) : ftTakeEntry i r e s = ftRingEnd i r.next 0x0101 (fld e 0 1) 0 0 none s := by
  rw [ftTakeEntry_of_no_signal hsync, if_pos (by rwa [Bool.not_eq_true', ← Bool.not_eq_true, takeOps_iff])]

variable (hop : fld e 0 1 ∈ takeOps)
include hop

theorem ftTakeEntry_of_reserved (hzero : entryZeroOk e = false) : ftTakeEntry i r e s = ftRingEnd i r.next 0x0102 (fld e 0 1) 0 0 none s := by
  rw [ftTakeEntry_of_no_signal hsync, if_neg (by rw [(takeOps_iff _).2 hop]; exact Bool.false_ne_true), if_pos (by rw [hzero]; rfl)]

variable (hzero : entryZeroOk e = true)
include hzero

theorem ftTakeEntry_of_illegal (hlegal : entryLegal s e = false) : ftTakeEntry i r e s = ftRingEnd i r.next 0x0103 (fld e 0 1) 0 0 none s := by
  rw [ftTakeEntry_of_no_signal hsync, if_neg (by rw [(takeOps_iff _).2 hop]; exact Bool.false_ne_true),
    if_neg (by rw [hzero]; exact Bool.false_ne_true), if_pos (by rw [hlegal]; rfl)]

variable (hlegal : entryLegal s e = true)
include hlegal

theorem ftTakeEntry_of_legal : ftTakeEntry i r e s =
    if !entryReaches i e s then
      ftRingEnd i r.next (refusedSt s (tenReq (i / 16) 0x202) (fld e 16 8) (entryExtent e)) (fld e 0 1) 0 0 none
        (refuse (tenReq (i / 16) 0x202) (fld e 16 8) (entryExtent e) s)
    else if fld e 0 1 = 5 ∧ aopCounted (fld e 3 1) = true ∧ strict s (i / 16) = true then
      ftRingEnd i r.next 0x0105 (fld e 0 1) 0 0 none (varRefuse (i / 16) s)
    else entryStarted i r e s := by
  rw [ftTakeEntry_of_no_signal hsync, if_neg (by rw [(takeOps_iff _).2 hop]; exact Bool.false_ne_true),
    if_neg (by rw [hzero]; exact Bool.false_ne_true), if_neg (by rw [hlegal]; exact Bool.false_ne_true)]

end

section
variable {e : Bytes}

theorem entryExtent_of_data (hop : fld e 0 1 = 1 ∨ fld e 0 1 = 2 ∨ fld e 0 1 = 4) : entryExtent e = fld e 32 4 := by
  rw [entryExtent, if_neg (by omega), if_neg (by omega)]

theorem entryReaches_of_data (hop : fld e 0 1 = 1 ∨ fld e 0 1 = 2 ∨ fld e 0 1 = 4) : entryReaches i e s =
    (fld e 32 4 == 0 || permits s (tenReq (i / 16) 0x202) (fld e 16 8) (fld e 32 4) (fld e 0 1 == 2)) := by
  have hnot : (fld e 0 1 == 5) = false := beq_false_of_ne (by omega)
  rw [entryReaches, entryExtent_of_data hop, hnot, Bool.or_false]

theorem entryReaches_of_atomic (hop : fld e 0 1 = 5) : entryReaches i e s =
    (!aopFetch (fld e 3 1) || permits s (tenReq (i / 16) 0x202) (fld e 16 8) 8 true) := by
  have hextent : entryExtent e = if aopFetch (fld e 3 1) then 8 else 0 := if_pos hop
  rw [entryReaches, hextent, hop]
  cases aopFetch (fld e 3 1) <;> simp

theorem entryReaches_of_signal (hop : fld e 0 1 = 0x0A) : entryReaches i e s = true := by
  have hextent : entryExtent e = 0 := by rw [entryExtent, if_neg (by omega), if_pos hop]
  rw [entryReaches, hextent]
  rfl

/-- An entry whose checks pass begins a message in the first free place. -/
theorem ftStart_of_free {m : FtMsg} {j : Nat} (hfree : (List.range 65536).find? (fun k => (s.ftMsg k).isNone) = some j) :
    ftStart m s = { s with ft := { s.ft with
      msgs := tput none s.ft.msgs j (some { m with gen := tget 0 s.ft.gens j, take := s.ft.take })
      gens := tput 0 s.ft.gens j ((tget 0 s.ft.gens j + 1) % 65536), take := s.ft.take + 1 } } := by
  unfold ftStart
  rw [hfree]

end

end

/-- Settles O55: the objects' states, then the entry's checks. Which place of the sender table a message takes, and when a ring's entries are read (log entry
31), are the model's choices. -/
theorem transport_Takes : Obligations.Transport_Takes := by
  intro s u id c i
  refine ⟨fun hi => ⟨fun p ctx h habsent hphys hctx => ?_, fun x h habsent hxl => ⟨fun hue => ?_, fun hno => ?_⟩, exec_ftRingCreate_of_active hi,
    fun r h hactive hfree => exec_ftRingDelete_of_free hi h hactive (ringBusy_of_free hfree), exec_ftRingDelete_of_absent hi,
    fun r k m n h hactive hmem hfrom => exec_ftRingDelete_of_busy hi h hactive (ringBusy_of_mem hmem hfrom), fun h habsent hok => ?_,
    fun h habsent hany hstrict => ?_, exec_ftRqBind_of_bound hi,
    fun r h hbound hfree => exec_ftRqUnbind_of_free hi h hbound (queueBusy_of_free hfree),
    fun r e q h hbound hmem hactive hrq => exec_ftRqUnbind_of_busy hi h hbound (queueBusy_of_mem hmem hactive hrq), exec_ftRqUnbind_of_unbound hi⟩,
    fun cmd op hcmd hrun => ⟨fun hnone => ?_, fun r a hnext ha hu => ⟨fun hwaits => ?_, fun hready hother htake => ?_, fun code hready hcode hmine =>
      ⟨fun hdenied => ?_, fun v x hpermits hread => ?_, fun v e hpermits hread => ?_⟩⟩⟩,
    fun r e op aop t ht hop haop hsync => ⟨fun hbad => ?_, fun hgood => ⟨fun hzero => ?_, fun hzero hlegal => ?_, fun hzero hlegal hdata hlen hdenied => ?_,
      fun hzero hlegal hatomic hreach hcounted hstrict => ?_, fun v j hzero hlegal hreach hv hfree => ?_⟩⟩⟩
  · rw [exec_ftRingCreate hi h habsent, hphys, ringMade, hctx]
  · rw [exec_ftRingCreate hi h habsent, hxl, hue]
    rfl
  · rw [exec_ftRingCreate hi h habsent, hxl]
    rcases hno with rfl | ⟨d, k, rfl⟩
    · rfl
    · rfl
  · rw [exec_ftRqBind hi h habsent, if_neg]
    rintro ⟨hany, hstrict⟩
    rcases hok with hone | hfree
    · exact hone hany
    · rw [hfree] at hstrict
      exact Bool.false_ne_true hstrict
  · rw [exec_ftRqBind hi h habsent, if_pos ⟨hany, hstrict⟩]
  · rw [exec_ftTake hcmd hrun, ftTake_of_none hnone]
  · rw [exec_ftTake hcmd hrun, ftTake_eq hnext ha, if_pos hwaits]
  · rw [exec_ftTake hcmd hrun, ftTake_eq hnext ha, if_neg (ne_true_of_eq_false hready), if_neg]
    rintro (heq | hnot)
    · exact hother heq
    · exact hnot htake
  · subst hcode
    rw [exec_ftTake hcmd hrun, ftTake_of_mine hnext ha hready hmine, hu]
    rw [hu] at hdenied
    exact congrArg _ (takenServed_of_denied hdenied)
  · subst hcode
    rw [exec_ftTake hcmd hrun, ftTake_of_mine hnext ha hready hmine]
    rw [hu] at hpermits hread
    exact congrArg _ (takenServed_of_unread hpermits hread)
  · subst hcode
    rw [exec_ftTake hcmd hrun, ftTake_of_mine hnext ha hready hmine]
    rw [hu] at hpermits hread
    exact congrArg _ (takenServed_of_read hpermits hread)
  · subst ht hop haop
    exact ftTakeEntry_of_opcode hsync hbad
  · subst ht hop haop
    exact ftTakeEntry_of_reserved hsync hgood hzero
  · subst ht hop haop
    exact ftTakeEntry_of_illegal hsync hgood hzero hlegal
  · subst ht hop haop
    have hreach : entryReaches i e u = false := by
      rw [entryReaches_of_data hdata, hdenied, beq_false_of_ne hlen]
      rfl
    rw [ftTakeEntry_of_legal hsync hgood hzero hlegal, if_pos (by rw [hreach]; rfl), entryExtent_of_data hdata]
  · subst ht hop haop
    have hreaches : entryReaches i e u = true := by
      rw [entryReaches_of_atomic hatomic]
      rcases hreach with hfetch | hpermits
      · simp [hfetch]
      · simp [hpermits]
    rw [ftTakeEntry_of_legal hsync hgood hzero hlegal, if_neg (by rw [hreaches]; exact Bool.false_ne_true), if_pos ⟨hatomic, hcounted, hstrict⟩]
  · subst ht hop haop
    obtain ⟨hdata, hfetch, hcalm⟩ := hreach
    have hreaches : entryReaches i e u = true := by
      by_cases hatomic : fld e 0 1 = 5
      · rw [entryReaches_of_atomic hatomic]
        cases hreads : aopFetch (fld e 3 1)
        · rfl
        · rw [hfetch hatomic hreads]
          rfl
      · by_cases hsignal : fld e 0 1 = 0x0A
        · exact entryReaches_of_signal hsignal
        · have hkind : fld e 0 1 = 1 ∨ fld e 0 1 = 2 ∨ fld e 0 1 = 4 := by
            simp only [List.mem_cons, List.not_mem_nil, or_false] at hgood
            omega
          rw [entryReaches_of_data hkind, hdata hkind, Bool.or_true]
    have hok : ¬ (fld e 0 1 = 5 ∧ aopCounted (fld e 3 1) = true ∧ strict u (i / 16) = true) := by
      rintro ⟨hatomic, hcounted, hstrict⟩
      rw [hcalm hatomic hcounted] at hstrict
      exact Bool.false_ne_true hstrict
    rw [ftTakeEntry_of_legal hsync hgood hzero hlegal, if_neg (by rw [hreaches]; exact Bool.false_ne_true), if_neg hok, entryStarted, ← hv]
    exact ftStart_of_free hfree

end Sys2Proof.Machine
end

section
/-! PROOFS. The fabric transport sends, paces and retransmits (R380 to R382, R385, R390, R391, R394). -/
namespace Sys2Proof.Machine

open Sys2Proof

/-! ### The packet that leaves next (R380, R381) -/

section
variable {s u : State} {m i p : Nat} {x : FtMsg} (hm : m < 65536) (hrun : s.power.running = true)
include hm hrun

theorem exec_ftPacketSend_of_off (hoff : ftOn s = false) : exec (.ftPacketSend m) s = .next s :=
  run_onlyIf_of_false (decide_eq_true hm) hrun hoff

theorem exec_ftPacketSend_of_no_message (hnone : s.ftMsg m = none) : exec (.ftPacketSend m) s = .next s := by
  cases hon : ftOn s with
  | false => exact exec_ftPacketSend_of_off hm hrun hon
  | true =>
    refine (run_onlyIf_of_true (decide_eq_true hm) hrun hon).trans ?_
    rw [hnone]

variable (hon : ftOn s = true) (hmsg : s.ftMsg m = some x)
include hon hmsg

theorem exec_ftPacketSend_of_no_packet (hnext : nextPkt x = none) : exec (.ftPacketSend m) s = .next s := by
  refine (run_onlyIf_of_true (decide_eq_true hm) hrun hon).trans ?_
  rw [hmsg]
  dsimp only
  rw [hnext]

theorem exec_ftPacketSend_of_no_path (hnext : nextPkt x = some i) (hpath : ftPathOf s x i = none) :
    exec (.ftPacketSend m) s = .next s := by
  refine (run_onlyIf_of_true (decide_eq_true hm) hrun hon).trans ?_
  rw [hmsg]
  dsimp only
  rw [hnext]
  dsimp only
  rw [hpath]

/-- What becomes of the packet that is next, on the path chosen for it. -/
def packetOnPath (m : Nat) (x : FtMsg) (i p : Nat) (s : State) : State :=
  if ordWaits s x then s
  else if srcWaits s x i then wakeSpan (x.laddr + i * 2 ^ x.mtu) (2 ^ x.mtu) s
  else match pktOf s m x i (ftWant x i) with
    | (s, .error _) => workGo (ftAbort m stUncorr 0 s)
    | (s, .ok (h, b)) => ftLaunch m x p (ftWant x i) h b s

theorem exec_ftPacketSend (hnext : nextPkt x = some i) (hpath : ftPathOf s x i = some p) :
    exec (.ftPacketSend m) s = .next (packetOnPath m x i p s) := by
  refine (run_onlyIf_of_true (decide_eq_true hm) hrun hon).trans ?_
  rw [hmsg]
  dsimp only
  rw [hnext]
  dsimp only
  rw [hpath]
  rfl

theorem exec_ftPacketSend_of_ordered (hwaits : ordWaits s x = true) : exec (.ftPacketSend m) s = .next s := by
  cases hnext : nextPkt x with
  | none => exact exec_ftPacketSend_of_no_packet hm hrun hon hmsg hnext
  | some i =>
    cases hpath : ftPathOf s x i with
    | none => exact exec_ftPacketSend_of_no_path hm hrun hon hmsg hnext hpath
    | some p => exact (exec_ftPacketSend hm hrun hon hmsg hnext hpath).trans (congrArg _ (if_pos hwaits))

end

section
variable {s u : State} {m i p : Nat} {x : FtMsg} (hfree : ordWaits s x = false)
include hfree

theorem packetOnPath_of_waiting (hsrc : srcWaits s x i = true) :
    packetOnPath m x i p s = wakeSpan (x.laddr + i * 2 ^ x.mtu) (2 ^ x.mtu) s :=
  (if_neg (ne_true_of_eq_false hfree)).trans (if_pos hsrc)

theorem packetOnPath_of_unreadable {a : Nat} (hsrc : srcWaits s x i = false) (hread : pktOf s m x i (ftWant x i) = (u, .error a)) :
    packetOnPath m x i p s = workGo (ftAbort m 0x0401 0 u) := by
  unfold packetOnPath
  rw [if_neg (ne_true_of_eq_false hfree), if_neg (ne_true_of_eq_false hsrc), hread]
  rfl

theorem packetOnPath_of_read {h : FtHdr} {b : Bytes} (hsrc : srcWaits s x i = false)
    (hread : pktOf s m x i (ftWant x i) = (u, .ok (h, b))) : packetOnPath m x i p s = ftLaunch m x p (ftWant x i) h b u := by
  unfold packetOnPath
  rw [if_neg (ne_true_of_eq_false hfree), if_neg (ne_true_of_eq_false hsrc), hread]

end

theorem ftWant_of_not_read {x : FtMsg} {i : Nat} (hop : x.op ≠ 2) : ftWant x i = [i] := if_neg hop

/-! ### Room on the path, and the packet's account (R381, R385, R390) -/

section
variable {s u : State} {m i p l k : Nat} {x : FtMsg} {h : FtHdr} {b pkt : Bytes} {v : FtBkt} {q : FtPkt}

section
variable (hfirst : x.pkt i = none) (hpkt : pkt = ftPacket { h with path := p, retx := false, time := s.now } b)
include hfirst hpkt

theorem ftLaunch_of_no_link_room (hseam : (ftSeam s x.dst)[p]? = some l) (hroom : linkRoom s l (.packet pkt) = false) :
    ftLaunch m x p [i] h b s = s := by
  subst hpkt
  simp [ftLaunch, hfirst, hseam, hroom]

theorem ftLaunch_of_link_room (hseam : (ftSeam s x.dst)[p]? = some l) (hroom : linkRoom s l (.packet pkt) = true) :
    ftLaunch m x p [i] h b s = ftOut x.dst p x.tenant x.cls pkt (s.setFtMsg m (some { x with
      pk := tput none x.pk i (some ⟨1, s.tb.ticks + ftRtoTicks s, ftRtoTicks s, p, none, false, false⟩), next := max x.next (i + 1)
      moved := if x.next = 0 then s.tb.ticks else x.moved })) := by
  subst hpkt
  simp [ftLaunch, hfirst, hseam, hroom]

variable (hpath : (ftSeam s x.dst)[p]? = none) (hbkt : k = bktOf x.dst p) (hnow : v = bktNow s k)
include hpath hbkt hnow

theorem ftLaunch_of_few_tokens (hfew : v.level < (8 * pkt.length : Nat)) : ftLaunch m x p [i] h b s = s := by
  subst hbkt
  have hroom : decide ((8 * pkt.length : Nat) ≤ v.level) = false := decide_eq_false (by omega)
  simp only [ftLaunch, List.filter_cons, hfirst, Bool.false_eq_true, if_false, List.filter_nil, List.isEmpty_nil, Bool.not_true, hpath, ← hpkt,
    ← hnow, hroom, Bool.not_false, if_true]

theorem ftLaunch_of_tokens (htokens : (8 * pkt.length : Nat) ≤ v.level) :
    ftLaunch m x p [i] h b s = ftOut x.dst p x.tenant x.cls pkt
      ((setBkt k (some { v with level := v.level - (8 * pkt.length : Nat), used := s.tb.ticks, sent := true }) s).setFtMsg m (some { x with
        pk := tput none x.pk i (some ⟨1, s.tb.ticks + ftRtoTicks s, ftRtoTicks s, p, some k, false, false⟩), next := max x.next (i + 1)
        moved := if x.next = 0 then s.tb.ticks else x.moved })) := by
  subst hbkt
  simp only [ftLaunch, List.filter_cons, hfirst, Bool.false_eq_true, if_false, List.filter_nil, List.isEmpty_nil, Bool.not_true, hpath, ← hpkt,
    ← hnow, decide_eq_true htokens, if_true, List.foldl_cons, List.foldl_nil]
  rfl

end

theorem ftLaunch_of_resend (hsent : x.pkt i = some q) (hbefore : 0 < q.sent) (hpath : (ftSeam s x.dst)[p]? = none)
    (hpkt : pkt = ftPacket { h with path := p, retx := true, time := s.now } b) (hbkt : k = bktOf x.dst p) (hnow : v = bktNow s k)
    (htokens : (8 * pkt.length : Nat) ≤ v.level) :
    ftLaunch m x p [i] h b s = ftOut x.dst p x.tenant x.cls pkt
      ((((setBkt k (some { v with level := v.level - (8 * pkt.length : Nat), used := s.tb.ticks, sent := true }) s).count .ftRetx 0 0 1).countTv 4
        1).setFtMsg m (some { x with
          pk := tput none x.pk i (some ⟨q.sent + 1, s.tb.ticks + q.rto, q.rto, p, some k, false, false⟩), next := max x.next (i + 1)
          retx := x.retx + 1, moved := if x.next = 0 then s.tb.ticks else x.moved })) := by
  subst hbkt
  simp only [ftLaunch, List.filter_cons, hsent, decide_eq_true hbefore, if_true, List.filter_nil, List.isEmpty_cons, Bool.not_false, hpath, ← hpkt,
    ← hnow, decide_eq_true htokens, Bool.not_true, Bool.false_eq_true, if_false, List.foldl_cons, List.foldl_nil, Nat.ne_of_gt hbefore]
  rfl

/-! ### Timeouts (R382, R390) -/

section
variable (hm : m < 65536) (hrun : s.power.running = true)
include hm hrun

theorem exec_ftRtoExpiry_of_no_message (hnone : s.ftMsg m = none) : exec (.ftRtoExpiry m i) s = .next s := by
  show execFtRtoExpiry m i s = _
  unfold execFtRtoExpiry
  rw [run_next (decide_eq_true hm) hrun, hnone]

/-- The packet after its interval: due again, at twice the interval unless an RNR set it. -/
def dueAgain (q : FtPkt) : FtPkt := { q with again := true, rto := if q.rnr then q.rto else min (2 * q.rto) (10 * msTicks) }

/-- A message's packet is given new marks. -/
def setPkt (m i : Nat) (x : FtMsg) (q : FtPkt) (s : State) : State := s.setFtMsg m (some { x with pk := tput none x.pk i (some q) })

variable (hmsg : s.ftMsg m = some x) (hpkt : x.pkt i = some q)
include hmsg hpkt

theorem exec_ftRtoExpiry_of_early (hearly : q.again = true ∨ s.tb.ticks < q.due) : exec (.ftRtoExpiry m i) s = .next s := by
  show execFtRtoExpiry m i s = _
  unfold execFtRtoExpiry
  rw [run_next (decide_eq_true hm) hrun, hmsg]
  dsimp only
  rw [hpkt]
  exact congrArg _ (if_pos hearly)

variable (hagain : q.again = false) (hdue : q.due ≤ s.tb.ticks)
include hagain hdue

/-- An expiry that no RNR set halves the rate of the packet's bucket. -/
def rtoCut (q : FtPkt) (s : State) : State :=
  match q.bkt with
  | some k => if q.rnr then s else cutRate k (· / 2) s
  | none => s

theorem exec_ftRtoExpiry : exec (.ftRtoExpiry m i) s = .next (rtoCut q (setPkt m i x (dueAgain q) s)) := by
  have hlate : ¬ (q.again = true ∨ s.tb.ticks < q.due) := by rw [hagain]; simpa using hdue
  show execFtRtoExpiry m i s = _
  unfold execFtRtoExpiry
  rw [run_next (decide_eq_true hm) hrun, hmsg]
  dsimp only
  rw [hpkt]
  exact congrArg _ (if_neg hlate)

end

theorem dueAgain_of_rnr (hrnr : q.rnr = true) : dueAgain q = { q with again := true } := by
  unfold dueAgain
  rw [hrnr]
  rfl

theorem dueAgain_of_timeout (hrnr : q.rnr = false) : dueAgain q = { q with again := true, rto := min (2 * q.rto) 10000000 } := by
  unfold dueAgain
  rw [hrnr]
  rfl

theorem rtoCut_of_rnr (hrnr : q.rnr = true) : rtoCut q s = s := by
  unfold rtoCut
  rw [hrnr]
  split <;> rfl

theorem rtoCut_of_link (hlink : q.bkt = none) : rtoCut q s = s := by
  unfold rtoCut
  rw [hlink]

theorem rtoCut_of_timeout (hrnr : q.rnr = false) (hbkt : q.bkt = some k) :
    rtoCut q s = setBkt k (some { bktNow s k with rate := max (rateMin s) ((bktNow s k).rate / 2) }) s := by
  unfold rtoCut
  rw [hbkt, hrnr]
  rfl

end

/-! ### The limits of retransmission (R382, R391) -/

section
variable {s : State} {m : Nat} {x : FtMsg}

/-- A packet of the message has been retransmitted 12 times. -/
def sentOften (x : FtMsg) : Bool := x.pk.any fun (_, p) => match p with | some p => decide (13 ≤ p.sent) | none => false

theorem sentOften_of_mem {i : Nat} {q : FtPkt} (hmem : (i, some q) ∈ x.pk) (hoften : 13 ≤ q.sent) : sentOften x = true :=
  List.any_eq_true.2 ⟨_, hmem, decide_eq_true hoften⟩

theorem sentOften_of_all (hall : ∀ j y, (j, some y) ∈ x.pk → y.sent < 13) : sentOften x = false := by
  unfold sentOften
  rw [List.any_eq_false]
  rintro ⟨j, y⟩ hmem
  cases y with
  | none => exact Bool.false_ne_true
  | some y => exact ne_true_of_eq_false (decide_eq_false (Nat.not_le.2 (hall j y hmem)))

/-- The message has met a limit. -/
def peerSilent (x : FtMsg) (s : State) : Prop := sentOften x = true ∨ (ordWaits s x = false ∧ x.moved + 50000000 ≤ s.tb.ticks)

/-- Who the record of an unreachable peer names. -/
def lostBy (x : FtMsg) : Nat :=
  match x.from_ with
  | .ring i _ => i % 16
  | .signal g => g.src
  | .work _ _ => 0x210

/-- The record of a peer that is not reached. -/
def peerRecord (x : FtMsg) (s : State) : State :=
  raise 1 (some x.tenant) (regAddr .ftErr 0 0 0) 0x8008 (zeros 2 ++ leBytes 4 x.dst ++ zeros 4 ++ leBytes 4 (lostBy x)) (s.orReg .ftErr 0 0 1)

/-- A remote signal that is lost has a record of its own. -/
def lostSignal (x : FtMsg) (s : State) : State :=
  match x.from_ with
  | .signal g => remoteLost g s
  | _ => s

theorem lostBy_of_ring {r n : Nat} (hfrom : x.from_ = .ring r n) : lostBy x = r % 16 := by
  unfold lostBy
  rw [hfrom]

theorem lostBy_of_work {a b : Nat} (hfrom : x.from_ = .work a b) : lostBy x = 0x210 := by
  unfold lostBy
  rw [hfrom]

theorem lostBy_of_signal {g : RemoteSig} (hfrom : x.from_ = .signal g) : lostBy x = g.src := by
  unfold lostBy
  rw [hfrom]

theorem lostSignal_of_signal {g : RemoteSig} (hfrom : x.from_ = .signal g) : lostSignal x s = remoteLost g s := by
  unfold lostSignal
  rw [hfrom]

theorem lostSignal_of_other (hfrom : ∀ g, x.from_ ≠ .signal g) : lostSignal x s = s := by
  unfold lostSignal
  split
  next g heq => exact absurd heq (hfrom g)
  next => rfl

variable (hm : m < 65536) (hrun : s.power.running = true)
include hm hrun

theorem exec_ftRetryLimit_of_no_message (hnone : s.ftMsg m = none) : exec (.ftRetryLimit m) s = .next s := by
  show execFtRetryLimit m s = _
  unfold execFtRetryLimit
  rw [run_next (decide_eq_true hm) hrun, hnone]

variable (hmsg : s.ftMsg m = some x)
include hmsg

theorem exec_ftRetryLimit_of_silent (hsilent : peerSilent x s) :
    exec (.ftRetryLimit m) s = .next (workGo (ftAbort m 0x0602 0 (lostSignal x (peerRecord x s)))) := by
  have hlimit : sentOften x = true ∨ ((!ordWaits s x) = true ∧ x.moved + 50 * msTicks ≤ s.tb.ticks) :=
    hsilent.imp_right (And.imp_left fun h => by rw [h]; rfl)
  show execFtRetryLimit m s = _
  unfold execFtRetryLimit
  rw [run_next (decide_eq_true hm) hrun, hmsg]
  exact congrArg _ (if_pos hlimit)

theorem exec_ftRetryLimit_of_progress (hprogress : ¬ peerSilent x s) : exec (.ftRetryLimit m) s = .next s := by
  have hlimit : ¬ (sentOften x = true ∨ ((!ordWaits s x) = true ∧ x.moved + 50 * msTicks ≤ s.tb.ticks)) := fun h =>
    hprogress (h.imp_right (And.imp_left fun hfree => by simpa using hfree))
  show execFtRetryLimit m s = _
  unfold execFtRetryLimit
  rw [run_next (decide_eq_true hm) hrun, hmsg]
  exact congrArg _ (if_neg hlimit)

end

/-! ### The path's bucket (R390) -/

section
variable {s : State} {k : Nat} (hk : k < 4096) (hrun : s.power.running = true)
include hk hrun

theorem exec_ftRateIncrease_of_unused (hnone : tget none s.ft.bkts k = none) : exec (.ftRateIncrease k) s = .next s := by
  show execFtRateIncrease k s = _
  unfold execFtRateIncrease
  rw [run_next (decide_eq_true hk) hrun, hnone]

theorem exec_ftBucketIdle_of_unused (hnone : tget none s.ft.bkts k = none) : exec (.ftBucketIdle k) s = .next s := by
  show execFtBucketIdle k s = _
  unfold execFtBucketIdle
  rw [run_next (decide_eq_true hk) hrun, hnone]

variable {y : FtBkt} (hbkt : tget none s.ft.bkts k = some y)
include hbkt

theorem exec_ftRateIncrease_of_early (hearly : s.tb.ticks < y.start + bits (s.reg .ftCc) 23 16 * 1000) :
    exec (.ftRateIncrease k) s = .next s := by
  show execFtRateIncrease k s = _
  unfold execFtRateIncrease
  rw [run_next (decide_eq_true hk) hrun, hbkt]
  exact congrArg _ (if_pos hearly)

/-- The rate after an interval: higher by the step, within the line's, where the interval saw traffic and no mark. -/
def raisedRate (k : Nat) (y : FtBkt) (s : State) : Nat :=
  if y.sent && !y.mark then min (lineRate s (k % 8)) (y.rate + bits (s.reg .ftCc) 31 24 * 1000) else y.rate

theorem exec_ftRateIncrease (hover : y.start + bits (s.reg .ftCc) 23 16 * 1000 ≤ s.tb.ticks) :
    exec (.ftRateIncrease k) s =
      .next (setBkt k (some { bktNow s k with rate := raisedRate k y s, start := s.tb.ticks, sent := false, mark := false }) s) := by
  show execFtRateIncrease k s = _
  unfold execFtRateIncrease
  rw [run_next (decide_eq_true hk) hrun, hbkt]
  exact congrArg _ (if_neg (Nat.not_lt.2 hover))

theorem exec_ftBucketIdle_of_idle (hidle : y.used + 1000000 ≤ s.tb.ticks) : exec (.ftBucketIdle k) s = .next (setBkt k none s) := by
  show execFtBucketIdle k s = _
  unfold execFtBucketIdle
  rw [run_next (decide_eq_true hk) hrun, hbkt]
  exact congrArg _ (if_pos hidle)

theorem exec_ftBucketIdle_of_used (hused : s.tb.ticks < y.used + 1000000) : exec (.ftBucketIdle k) s = .next s := by
  show execFtBucketIdle k s = _
  unfold execFtBucketIdle
  rw [run_next (decide_eq_true hk) hrun, hbkt]
  exact congrArg _ (if_neg (Nat.not_le.2 hused))

omit hk hrun hbkt in
theorem raisedRate_of_traffic (hsent : y.sent = true) (hmark : y.mark = false) :
    raisedRate k y s = min (lineRate s (k % 8)) (y.rate + bits (s.reg .ftCc) 31 24 * 1000) :=
  if_pos (by rw [hsent, hmark]; rfl)

omit hk hrun hbkt in
theorem raisedRate_of_quiet (hquiet : y.sent = false ∨ y.mark = true) : raisedRate k y s = y.rate := by
  refine if_neg ?_
  obtain h | h := hquiet <;> simp [h]

end
section
variable {s u : State} {m i p : Nat} {x : FtMsg} {h : FtHdr} {b pkt : Bytes}

theorem launch_of_first (hfirst : x.pkt i = none) (hpkt : pkt = ftPacket { h with path := p, retx := false, time := s.now } b) :
    (∀ l, (ftSeam s x.dst)[p]? = some l → linkRoom s l (.packet pkt) = false → ftLaunch m x p [i] h b s = s) ∧
    (∀ l, (ftSeam s x.dst)[p]? = some l → linkRoom s l (.packet pkt) = true →
      u = s.setFtMsg m (some { x with
        pk := tput none x.pk i (some ⟨1, s.tb.ticks + ftRtoTicks s, ftRtoTicks s, p, none, false, false⟩), next := max x.next (i + 1)
        moved := if x.next = 0 then s.tb.ticks else x.moved }) →
      ftLaunch m x p [i] h b s = ftOut x.dst p x.tenant x.cls pkt u) ∧
    (∀ k v, (ftSeam s x.dst)[p]? = none → k = bktOf x.dst p → v = bktNow s k →
      (v.level < (8 * pkt.length : Nat) → ftLaunch m x p [i] h b s = s) ∧
      ((8 * pkt.length : Nat) ≤ v.level →
        u = (setBkt k (some { v with level := v.level - (8 * pkt.length : Nat), used := s.tb.ticks, sent := true }) s).setFtMsg m (some { x with
          pk := tput none x.pk i (some ⟨1, s.tb.ticks + ftRtoTicks s, ftRtoTicks s, p, some k, false, false⟩), next := max x.next (i + 1)
          moved := if x.next = 0 then s.tb.ticks else x.moved }) →
        ftLaunch m x p [i] h b s = ftOut x.dst p x.tenant x.cls pkt u)) := by
  refine ⟨fun l => ftLaunch_of_no_link_room hfirst hpkt, ?_, fun k v hpath hbkt hnow => ⟨ftLaunch_of_few_tokens hfirst hpkt hpath hbkt hnow, ?_⟩⟩
  · rintro l hseam hroom rfl
    exact ftLaunch_of_link_room hfirst hpkt hseam hroom
  · rintro htokens rfl
    exact ftLaunch_of_tokens hfirst hpkt hpath hbkt hnow htokens

theorem exec_sending (hrun : s.power.running = true) (hm : m < 65536) (hon : ftOn s = true) (hmsg : s.ftMsg m = some x) :
    (nextPkt x = none → exec (.ftPacketSend m) s = .next s) ∧
    (ordWaits s x = true → exec (.ftPacketSend m) s = .next s) ∧
    (nextPkt x = some i → ftPathOf s x i = none → exec (.ftPacketSend m) s = .next s) ∧
    (nextPkt x = some i → ftPathOf s x i = some p → ordWaits s x = false →
      (srcWaits s x i = true → exec (.ftPacketSend m) s = .next (wakeSpan (x.laddr + i * 2 ^ x.mtu) (2 ^ x.mtu) s)) ∧
      (∀ a, srcWaits s x i = false → pktOf s m x i (ftWant x i) = (u, .error a) →
        exec (.ftPacketSend m) s = .next (workGo (ftAbort m 0x0401 0 u))) ∧
      (∀ h b, srcWaits s x i = false → pktOf s m x i (ftWant x i) = (u, .ok (h, b)) →
        exec (.ftPacketSend m) s = .next (ftLaunch m x p (ftWant x i) h b u))) := by
  refine ⟨exec_ftPacketSend_of_no_packet hm hrun hon hmsg, exec_ftPacketSend_of_ordered hm hrun hon hmsg,
    exec_ftPacketSend_of_no_path hm hrun hon hmsg, fun hnext hpath hfree => ?_⟩
  rw [exec_ftPacketSend hm hrun hon hmsg hnext hpath]
  exact ⟨fun hsrc => congrArg _ (packetOnPath_of_waiting hfree hsrc),
    fun a hsrc hread => congrArg _ (packetOnPath_of_unreadable hfree hsrc hread),
    fun h b hsrc hread => congrArg _ (packetOnPath_of_read hfree hsrc hread)⟩

theorem exec_rtoExpiry {q : FtPkt} (hrun : s.power.running = true) (hm : m < 65536) (hmsg : s.ftMsg m = some x) (hpkt : x.pkt i = some q) :
    (q.again = true ∨ s.tb.ticks < q.due → exec (.ftRtoExpiry m i) s = .next s) ∧
    (q.again = false → q.due ≤ s.tb.ticks → q.rnr = true → exec (.ftRtoExpiry m i) s =
      .next (s.setFtMsg m (some { x with pk := tput none x.pk i (some { q with again := true }) }))) ∧
    (q.again = false → q.due ≤ s.tb.ticks → q.rnr = false →
      u = s.setFtMsg m (some { x with pk := tput none x.pk i (some { q with again := true, rto := min (2 * q.rto) 10000000 }) }) →
      (q.bkt = none → exec (.ftRtoExpiry m i) s = .next u) ∧
      (∀ k, q.bkt = some k → exec (.ftRtoExpiry m i) s =
        .next (setBkt k (some { bktNow u k with rate := max (rateMin u) ((bktNow u k).rate / 2) }) u))) := by
  refine ⟨exec_ftRtoExpiry_of_early hm hrun hmsg hpkt, fun hagain hdue hrnr => ?_, fun hagain hdue hrnr hu => ?_⟩
  · rw [exec_ftRtoExpiry hm hrun hmsg hpkt hagain hdue, rtoCut_of_rnr hrnr, dueAgain_of_rnr hrnr]
    rfl
  · have hset : setPkt m i x (dueAgain q) s = u := by rw [dueAgain_of_timeout hrnr, hu]; rfl
    rw [exec_ftRtoExpiry hm hrun hmsg hpkt hagain hdue, hset]
    exact ⟨fun hlink => congrArg _ (rtoCut_of_link hlink), fun k hbkt => congrArg _ (rtoCut_of_timeout hrnr hbkt)⟩

theorem exec_retryLimit (hrun : s.power.running = true) (hm : m < 65536) (hmsg : s.ftMsg m = some x) (hsilent : peerSilent x s) :
    (∀ r n w, x.from_ = .ring r n ∨ (∃ a b, x.from_ = .work a b) → w = (if x.from_ = .ring r n then r % 16 else 0x210) →
      exec (.ftRetryLimit m) s = .next (workGo (ftAbort m 0x0602 0 (raise 1 (some x.tenant) (regAddr .ftErr 0 0 0) 0x8008
        (zeros 2 ++ leBytes 4 x.dst ++ zeros 4 ++ leBytes 4 w) (s.orReg .ftErr 0 0 1))))) ∧
    (∀ g, x.from_ = .signal g → exec (.ftRetryLimit m) s =
      .next (workGo (ftAbort m 0x0602 0 (remoteLost g (raise 1 (some x.tenant) (regAddr .ftErr 0 0 0) 0x8008
        (zeros 2 ++ leBytes 4 x.dst ++ zeros 4 ++ leBytes 4 g.src) (s.orReg .ftErr 0 0 1)))))) := by
  rw [exec_ftRetryLimit_of_silent hm hrun hmsg hsilent]
  refine ⟨fun r n w hfrom hw => ?_, fun g hfrom => ?_⟩
  · have hother : ∀ g, x.from_ ≠ .signal g := by
      rintro g heq
      obtain h | ⟨a, b, h⟩ := hfrom <;> rw [heq] at h <;> exact nomatch h
    have hwho : lostBy x = w := by
      obtain h | ⟨a, b, h⟩ := hfrom
      · rw [lostBy_of_ring h, hw, if_pos h]
      · rw [lostBy_of_work h, hw, if_neg (by rw [h]; exact nofun)]
    rw [lostSignal_of_other hother, peerRecord, hwho]
  · rw [lostSignal_of_signal hfrom, peerRecord, lostBy_of_signal hfrom]

theorem not_peerSilent (hfew : ∀ j y, (j, some y) ∈ x.pk → y.sent < 13)
    (hmoves : ordWaits s x = true ∨ s.tb.ticks < x.moved + 50000000) : ¬ peerSilent x s := by
  rintro (hoften | ⟨hfree, hlate⟩)
  · exact absurd hoften (ne_true_of_eq_false (sentOften_of_all hfew))
  · obtain hwaits | hsoon := hmoves
    · exact absurd hwaits (ne_true_of_eq_false hfree)
    · omega

end

/-- Settles O56: each command of the sender by the state of its message, and a launch by the path's room. That the interval after an RNR leaves the
packet's interval and its bucket's rate alone (log entry 109), and that an unused bucket is full and at line rate (log entry 40), are the
model's choices. -/
theorem transport_Sending : Obligations.Transport_Sending := by
  unfold Obligations.Transport_Sending
  intro s u m i p x hrun hm
  refine ⟨exec_ftPacketSend_of_off hm hrun, fun hnone => ⟨exec_ftPacketSend_of_no_message hm hrun hnone,
      exec_ftRtoExpiry_of_no_message hm hrun hnone, exec_ftRetryLimit_of_no_message hm hrun hnone⟩,
    exec_sending hrun hm, ftWant_of_not_read,
    fun h b pkt => ⟨launch_of_first, ?_⟩, fun q => exec_rtoExpiry hrun hm, fun q hmsg => ⟨fun hlimit => ?_, fun hfew hmoves => ?_⟩,
    fun k y v hk hbkt hv => ?_, fun k hk hnone => ⟨exec_ftRateIncrease_of_unused hk hrun hnone, exec_ftBucketIdle_of_unused hk hrun hnone⟩⟩
  · rintro q k v hsent hbefore hpath hpkt hbkt hnow htokens rfl
    exact ftLaunch_of_resend hsent hbefore hpath hpkt hbkt hnow htokens
  · exact exec_retryLimit hrun hm hmsg (hlimit.imp_left fun ⟨hmem, hoften⟩ => sentOften_of_mem hmem hoften)
  · exact exec_ftRetryLimit_of_progress hm hrun hmsg (not_peerSilent hfew hmoves)
  · subst hv
    refine ⟨exec_ftRateIncrease_of_early hk hrun hbkt, fun hover hsent hmark => ?_, fun hover hquiet => ?_,
      exec_ftBucketIdle_of_idle hk hrun hbkt, exec_ftBucketIdle_of_used hk hrun hbkt⟩
    · rw [exec_ftRateIncrease hk hrun hbkt hover, raisedRate_of_traffic hsent hmark]
    · rw [exec_ftRateIncrease hk hrun hbkt hover, raisedRate_of_quiet hquiet]

end Sys2Proof.Machine
end

section
/-! PROOFS. The fabric transport receives, and the sender's answers (R374, R375, R383 to R390, R392). -/
namespace Sys2Proof.Machine

open Sys2Proof

/-! ### The checks that every packet meets first (R383, R388) -/

section
variable {s p u : State} {fr : Frame} {rest : List Frame} {b pay : Bytes} {h : FtHdr} {op path : Nat} {marked sum : Bool}
  {f : Bytes → FtHdr → Nat → State → State} {c : Instr}

/-- The command `c` is the row of the packets of type `op`, which `f` handles. -/
def HandlesType (c : Instr) (op : Nat) (f : Bytes → FtHdr → Nat → State → State) : Prop := ∀ s, exec c s = run true s (ftRx op f)

variable (hrun : s.power.running = true) (hon : ftOn s = true) (hin : s.net.ftIn = fr :: rest) (hinc : ftIncoming s fr = (b, marked, sum))
  (hrow : HandlesType c op f)
include hrun hon hin hinc hrow

theorem exec_row_of_bad (hbad : sum = false ∨ ftBad s b = true) : exec c s = .next (ftDiscard { s with net := { s.net with ftIn := rest } }) := by
  have hfails : (!sum || ftBad s b) = true := by obtain h | h := hbad <;> simp [h]
  rw [hrow s, run_next rfl hrun]
  unfold ftRx
  simp only [hon, Bool.not_true, Bool.false_eq_true, if_false, hin, hinc, hfails, Bool.false_and, if_true]

variable (hsum : sum = true) (hgood : ftBad s b = false)
include hsum hgood

theorem exec_row_of_other (hother : (ftHeader b).op ≠ op) : exec c s = .next s := by
  rw [hrow s, run_next rfl hrun]
  unfold ftRx
  simp [hon, hin, hinc, hsum, hgood, hother]

variable (htype : (ftHeader b).op = op)
include htype

theorem exec_row_of_waiting {a n : Nat} (hwait : (ftTargets s (ftHeader b)).find? (fun e => memWaits s e.1 e.2) = some (a, n)) :
    exec c s = .next (wakeSpan a n s) := by
  rw [hrow s, run_next rfl hrun]
  unfold ftRx
  simp [hon, hin, hinc, hsum, hgood, htype, hwait]

variable (hwait : (ftTargets s (ftHeader b)).find? (fun e => memWaits s e.1 e.2) = none) (hp : p = { s with net := { s.net with ftIn := rest } })
include hwait hp

theorem exec_row_of_stale (hstale : ftMaxAge s * 1000 < Int.natAbs ((s.now : Int) - (ftHeader b).time)) :
    exec c s = .next (sticky none .ftErr 0 0 4 (p.count .ftStale 0 0 1)) := by
  subst hp
  rw [hrow s, run_next rfl hrun]
  unfold ftRx
  simp only [hon, Bool.not_true, Bool.false_eq_true, if_false, hin, hinc, hsum, hgood, Bool.or_false, Bool.not_false, htype, bne_self_eq_false,
    Bool.and_false, hwait]
  exact congrArg _ (if_pos hstale)

variable (hh : h = { ftHeader b with ce := marked }) (hpay : pay = ftPayload b) (hpath : path = if 32 ≤ fr.mac then 64 + (fr.mac - 32) else h.path)
  (hu : u = if marked then p.count .ftCe 0 0 1 else p) (hfresh : Int.natAbs ((s.now : Int) - h.time) ≤ ftMaxAge s * 1000)
include hh hpay hpath hu hfresh

theorem exec_row : exec c s = .next (f pay h path u) := by
  subst hh hp hpay hpath hu
  rw [hrow s, run_next rfl hrun]
  unfold ftRx
  simp only [hon, Bool.not_true, Bool.false_eq_true, if_false, hin, hinc, hsum, hgood, Bool.or_false, Bool.not_false, htype, bne_self_eq_false,
    Bool.and_false, hwait]
  exact congrArg _ (if_neg (Nat.not_lt.2 hfresh))

end
/-! ### Packets of messages (R384, R389, R392) -/

/-- The admission of a message of type `op`. -/
def admits (op : Nat) (pay : Bytes) (h : FtHdr) (path : Nat) : State → State × Except Nat FtRx :=
  match op with
  | 1 => ftAdmitWrite h path
  | 4 => ftAdmitSend h path
  | 5 => ftAdmitAtomic (fld pay 0 1) h path
  | _ => ftAdmitSignal h path

/-- A WRITE packet's bytes are placed, and a MOVE that waits for them goes on. -/
def placeWrite (pay : Bytes) (h : FtHdr) (path : Nat) (e : FtRx) (s : State) : State :=
  match writeMem s (e.addr + h.pidx * 2 ^ e.mtu) pay with
  | (s, some _) => ftNak path h 4 s
  | (s, none) => workGo (moveLanded h.tenant (e.addr + h.pidx * 2 ^ e.mtu) pay.length (ftHold h s))

/-- A SEND packet's bytes are placed. -/
def placeSend (pay : Bytes) (h : FtHdr) (path : Nat) (e : FtRx) (s : State) : State :=
  match writeMem s (e.addr + h.pidx * 2 ^ e.mtu) pay with
  | (s, some _) => ftNak path h 4 s
  | (s, none) => ftHold h s

/-- The answer of an ATOMIC is saved with its entry and sent. -/
def atomicAnswered (h : FtHdr) (path : Nat) (e : FtRx) (st res : Nat) (s : State) : State :=
  ftHold h (ftAnswer { e with path := path } 6 0 st (leBytes 8 res) (modRx h.src h.msg (fun e => { e with resp := some (st, res) }) s))

/-- An ATOMIC is applied once. -/
def placeAtomic (pay : Bytes) (h : FtHdr) (path : Nat) (e : FtRx) (s : State) : State :=
  match readMem s e.addr e.len with
  | (s, .error _) => ftNak path h 4 s
  | (s, .ok b) =>
    let v := atomicOp (fld pay 0 1) (leNat b) (fld pay 8 8) (fld pay 16 8)
    let w := writeMem s e.addr (leBytes e.len v.1)
    if w.2.isSome then ftNak path h 4 w.1
    else atomicAnswered h path e v.2 (if aopFetch (fld pay 0 1) then leNat b else 0) w.1

/-- A SIGNAL is added to its counter. -/
def placeSignal (pay : Bytes) (h : FtHdr) (_ : FtRx) (s : State) : State :=
  ftHold h (remoteApply 0x203 h.src h.raddr (leNat pay % 2 ^ 24) h.tenant s).1

/-- What is done with a packet of type `op` that its entry does not hold yet. -/
def places (op : Nat) (pay : Bytes) (h : FtHdr) (path : Nat) : FtRx → State → State :=
  match op with
  | 1 => placeWrite pay h path
  | 4 => placeSend pay h path
  | 5 => placeAtomic pay h path
  | _ => placeSignal pay h

theorem handlesType_of_mem_messages {c : Instr} {op : Nat}
    (hmem : (c, op) ∈ [(Instr.ftRxWrite, 1), (.ftRxSend, 4), (.ftRxAtomic, 5), (.ftRxSignal, 0x0A)]) :
    HandlesType c op fun pay h path => ftMessage h path (admits op pay h path) (places op pay h path) := by
  simp only [List.mem_cons, Prod.mk.injEq, List.not_mem_nil, or_false] at hmem
  obtain ⟨rfl, rfl⟩ | ⟨rfl, rfl⟩ | ⟨rfl, rfl⟩ | ⟨rfl, rfl⟩ := hmem <;> exact fun _ => rfl

section
variable {u w y v x : State} {h : FtHdr} {path op a c : Nat} {pay d : Bytes} {e : FtRx} {admitIn : State → State × Except Nat FtRx}
  {place : FtRx → State → State}

section
variable (hnew : ftFind u h.src h.msg = none)
include hnew

theorem ftMessage_of_full (hfull : 65536 ≤ u.ft.rx.length) :
    ftMessage h path admitIn place u = ftNak path h 3 (sticky none .ftErr 0 0 8 u) := by
  unfold ftMessage
  rw [hnew]
  exact if_pos hfull

variable (hroom : u.ft.rx.length < 65536)
include hroom

theorem ftMessage_of_refused {r : Nat} (hadmit : admitIn u = (w, .error r)) : ftMessage h path admitIn place u = ftNak path h r w := by
  unfold ftMessage
  rw [hnew]
  dsimp only
  rw [if_neg (Nat.not_le.2 hroom), hadmit]

theorem ftMessage_of_admitted (hadmit : admitIn u = (w, .ok e)) :
    ftMessage h path admitIn place u = ftGo h path place e (ftMark h (ftAdd e w)) := by
  unfold ftMessage
  rw [hnew]
  dsimp only
  rw [if_neg (Nat.not_le.2 hroom), hadmit]

end

section
variable (hfind : ftFind u h.src h.msg = some e)
include hfind

theorem ftMessage_of_active (hst : e.st = .active) : ftMessage h path admitIn place u = ftGo h path place e (ftMark h u) := by
  unfold ftMessage
  rw [hfind]
  dsimp only
  rw [hst]

theorem ftMessage_of_aborted (hst : e.st = .aborted) : ftMessage h path admitIn place u = ftNak path h 6 (ftMark h u) := by
  unfold ftMessage
  rw [hfind]
  dsimp only
  rw [hst]

theorem ftMessage_of_done (hst : e.st = .done) (hresp : e.resp = none) :
    ftMessage h path admitIn place u = ftAck h.src h.msg (modRx h.src h.msg (fun e => { e with path := path }) (ftMark h u)) := by
  unfold ftMessage
  rw [hfind]
  dsimp only
  rw [hst]
  dsimp only
  rw [hresp]

theorem ftMessage_of_answered {st v : Nat} (hst : e.st = .done) (hresp : e.resp = some (st, v)) :
    ftMessage h path admitIn place u = ftAck h.src h.msg (ftAnswer { e with path := path } 6 0 st (leBytes 8 v)
      (modRx h.src h.msg (fun e => { e with path := path }) (ftMark h u))) := by
  unfold ftMessage
  rw [hfind]
  dsimp only
  rw [hst]
  dsimp only
  rw [hresp]

end

/-- The packet disagrees with its message's entry, or lies outside its window. -/
def disagrees (op : Nat) (h : FtHdr) (e : FtRx) : Prop :=
  h.mlen ≠ e.len ∨ h.mtu ≠ e.mtu ∨ e.op ≠ op ∨ ((op = 1 ∨ op = 5) ∧ h.raddr ≠ e.addr) ∨ e.pkts ≤ h.pidx ∨
    ((op = 1 ∨ op = 4) ∧ h.plen ≠ min (2 ^ e.mtu) (e.len - h.pidx * 2 ^ e.mtu)) ∨ e.cum + 127 < h.pidx

/-- The entry takes note of a packet's arrival. -/
def noted (h : FtHdr) (path : Nat) (y : State) : State :=
  modRx h.src h.msg (fun e => { e with path := path, last := y.tb.ticks, ackDue := some (y.tb.ticks + 2000) }) y

section
variable (hop : h.op = op) (hkind : op = 1 ∨ op = 4 ∨ op = 5 ∨ op = 0x0A)
include hop hkind

theorem disagrees_iff : disagrees op h e ↔ (h.mlen ≠ e.len ∨ h.mtu ≠ e.mtu ∨ h.op ≠ e.op ∨ (e.op ≠ 4 ∧ e.op ≠ 0x0A ∧ h.raddr ≠ e.addr) ∨
    e.pkts ≤ h.pidx ∨ ((e.op = 1 ∨ e.op = 4) ∧ h.plen ≠ min (2 ^ e.mtu) (e.len - h.pidx * 2 ^ e.mtu)) ∨ e.cum + 127 < h.pidx) := by
  by_cases hsame : e.op = op
  · have haddressed : op = 1 ∨ op = 5 ↔ op ≠ 4 ∧ op ≠ 0x0A := by omega
    rw [disagrees, hop, hsame, haddressed, and_assoc]
  · exact iff_of_true (Or.inr (Or.inr (Or.inl hsame))) (Or.inr (Or.inr (Or.inl (by rw [hop]; exact Ne.symm hsame))))

theorem ftGo_of_disagrees (hdis : disagrees op h e) : ftGo h path place e y = ftDiscard y := if_pos ((disagrees_iff hop hkind).1 hdis)

theorem ftGo_of_held (hagree : ¬ disagrees op h e) (hheld : e.held.contains h.pidx = true) :
    ftGo h path place e y = ftAck h.src h.msg (noted h path y) :=
  (if_neg (mt (disagrees_iff hop hkind).2 hagree)).trans (if_pos hheld)

theorem ftGo_of_fresh (hagree : ¬ disagrees op h e) (hheld : e.held.contains h.pidx = false) :
    ftGo h path place e y = place e (noted h path y) :=
  (if_neg (mt (disagrees_iff hop hkind).2 hagree)).trans (if_neg (ne_true_of_eq_false hheld))

end

theorem placeWrite_of_ok (hwrite : writeMem v (e.addr + h.pidx * 2 ^ e.mtu) pay = (w, none)) :
    placeWrite pay h path e v = workGo (moveLanded h.tenant (e.addr + h.pidx * 2 ^ e.mtu) pay.length (ftHold h w)) := by
  unfold placeWrite
  rw [hwrite]

theorem placeWrite_of_error (hwrite : writeMem v (e.addr + h.pidx * 2 ^ e.mtu) pay = (w, some c)) : placeWrite pay h path e v = ftNak path h 4 w := by
  unfold placeWrite
  rw [hwrite]

theorem placeSend_of_ok (hwrite : writeMem v (e.addr + h.pidx * 2 ^ e.mtu) pay = (w, none)) : placeSend pay h path e v = ftHold h w := by
  unfold placeSend
  rw [hwrite]

theorem placeSend_of_error (hwrite : writeMem v (e.addr + h.pidx * 2 ^ e.mtu) pay = (w, some c)) : placeSend pay h path e v = ftNak path h 4 w := by
  unfold placeSend
  rw [hwrite]

theorem placeAtomic_of_error (hread : readMem v e.addr e.len = (w, .error c)) : placeAtomic pay h path e v = ftNak path h 4 w := by
  unfold placeAtomic
  rw [hread]

theorem placeAtomic_of_ok (hread : readMem v e.addr e.len = (w, .ok d))
    (hwrite : writeMem w e.addr (leBytes e.len (atomicOp (fld pay 0 1) (leNat d) (fld pay 8 8) (fld pay 16 8)).1) = (x, none)) :
    placeAtomic pay h path e v = atomicAnswered h path e (atomicOp (fld pay 0 1) (leNat d) (fld pay 8 8) (fld pay 16 8)).2
      (if aopFetch (fld pay 0 1) then leNat d else 0) x := by
  unfold placeAtomic
  rw [hread]
  dsimp only
  rw [hwrite]
  rfl

/-! ### Admission (R383, R387) -/

section
variable {k r : Nat} {q : FtRq}

theorem ftAdmitWrite_of_error (hregion : ftRegion u h 3 h.mlen 1 = .error r) : ftAdmitWrite h path u = (u, .error r) := by
  unfold ftAdmitWrite
  rw [hregion]

theorem ftAdmitWrite_of_ok (hregion : ftRegion u h 3 h.mlen 1 = .ok k) : ftAdmitWrite h path u = (u, .ok (rxEntryOf u h path (some k) h.raddr)) := by
  unfold ftAdmitWrite
  rw [hregion]

theorem ftAdmitAtomic_of_form (hform : a = 0 ∨ 6 < a ∨ h.mlen ≠ aopSize a) : ftAdmitAtomic a h path u = (u, .error 5) := if_pos hform

section
variable (hlow : 1 ≤ a) (hhigh : a ≤ 6) (hlen : h.mlen = aopSize a)
include hlow hhigh hlen

theorem ftAdmitAtomic_of_error (hregion : ftRegion u h 4 h.mlen h.mlen = .error r) : ftAdmitAtomic a h path u = (u, .error r) := by
  unfold ftAdmitAtomic
  rw [if_neg (by omega), hregion]

theorem ftAdmitAtomic_of_ok (hregion : ftRegion u h 4 h.mlen h.mlen = .ok k) :
    ftAdmitAtomic a h path u = (u, .ok (rxEntryOf u h path (some k) h.raddr)) := by
  unfold ftAdmitAtomic
  rw [if_neg (by omega), hregion]

end

theorem ftAdmitSignal_of_other (hother : 17408 ≤ h.raddr ∨ ctrOwner u h.raddr ≠ h.tenant + 1) :
    ftAdmitSignal h path u = ((remoteApply 0x203 h.src h.raddr 0 h.tenant u).1, .error 1) := if_pos hother

theorem ftAdmitSignal_of_own (hctr : h.raddr < 17408) (hown : ctrOwner u h.raddr = h.tenant + 1) :
    ftAdmitSignal h path u = (u, .ok (rxEntryOf u h path none h.raddr)) := if_neg (by rw [hown]; omega)

theorem ftAdmitSend_of_unbound (hnone : u.ftRq (16 * h.tenant + h.raddr % 16) = none) : ftAdmitSend h path u = (u, .error 1) := by
  unfold ftAdmitSend
  dsimp only
  rw [hnone]

theorem ftAdmitSend_of_beyond (hbeyond : 16 ≤ h.raddr) : ftAdmitSend h path u = (u, .error 1) := by
  cases hq : u.ftRq (16 * h.tenant + h.raddr % 16) with
  | none => exact ftAdmitSend_of_unbound hq
  | some q =>
    unfold ftAdmitSend
    dsimp only
    rw [hq]
    exact if_pos (.inl hbeyond)

section
variable (hlow : h.raddr < 16) (hq : u.ftRq (16 * h.tenant + h.raddr) = some q)
include hlow hq

/-- The admission of a SEND to a queue that takes its sender. -/
def sendToQueue (h : FtHdr) (path : Nat) (r : FtRq) (s : State) : State × Except Nat FtRx :=
  if 2 ^ r.slot < h.mlen then (s, .error 5)
  else if r.room r.seen then ftAdmitSlot h path r r.seen s
  else if !permits s (tenReq h.tenant 0x202) r.done 8 false then (refuse (tenReq h.tenant 0x202) r.done 8 s, .error 1)
  else match readMem s r.done 8 with
    | (s, .error _) => (s, .error 4)
    | (s, .ok d) =>
      if r.room (some (leNat d)) then ftAdmitSlot h path r (some (leNat d)) s
      else (s.setFtRq (16 * h.tenant + h.raddr % 16) (some { r with seen := some (leNat d) }), .error 3)

theorem ftAdmitSend_of_other_sender (hfixed : q.src ≠ 0xFFFFFFFF) (hsrc : q.src ≠ h.src) : ftAdmitSend h path u = (u, .error 1) := by
  unfold ftAdmitSend
  dsimp only
  rw [Nat.mod_eq_of_lt hlow, hq]
  exact if_pos (.inr ⟨hfixed, hsrc⟩)

theorem ftAdmitSend_of_sender (hsrc : q.src = 0xFFFFFFFF ∨ q.src = h.src) : ftAdmitSend h path u = sendToQueue h path q u := by
  have hmine : ¬ (16 ≤ h.raddr ∨ (q.src ≠ 0xFFFFFFFF ∧ q.src ≠ h.src)) := by
    rintro (hbeyond | ⟨hfixed, hother⟩)
    · omega
    · exact hsrc.elim hfixed hother
  unfold ftAdmitSend sendToQueue
  dsimp only
  rw [Nat.mod_eq_of_lt hlow, hq]
  exact if_neg hmine

omit hlow hq in
theorem ftAdmitSlot_of_denied {n : Option Nat} (hdenied : permits u (tenReq h.tenant 0x202) (q.base + q.next % 2 ^ q.log2 * 2 ^ q.slot) h.mlen true = false) :
    ftAdmitSlot h path q n u = (refuse (tenReq h.tenant 0x202) (q.base + q.next % 2 ^ q.log2 * 2 ^ q.slot) h.mlen u, .error 1) :=
  if_pos (by rw [hdenied]; rfl)

omit hq in
theorem ftAdmitSlot_of_permitted {n : Option Nat} (hpermit : permits u (tenReq h.tenant 0x202) (q.base + q.next % 2 ^ q.log2 * 2 ^ q.slot) h.mlen true = true) :
    ftAdmitSlot h path q n u = (u.setFtRq (16 * h.tenant + h.raddr) (some { q with next := q.next + 1, seen := n }),
      .ok { rxEntryOf u h path none (q.base + q.next % 2 ^ q.log2 * 2 ^ q.slot) with rq := some (16 * h.tenant + h.raddr, q.next) }) := by
  unfold ftAdmitSlot
  rw [Nat.mod_eq_of_lt hlow]
  exact if_neg (by rw [hpermit]; exact Bool.false_ne_true)

end

theorem sendToQueue_of_long (hlong : 2 ^ q.slot < h.mlen) : sendToQueue h path q u = (u, .error 5) := if_pos hlong

section
variable (hfits : h.mlen ≤ 2 ^ q.slot)
include hfits

theorem sendToQueue_of_room (hroom : q.room q.seen = true) : sendToQueue h path q u = ftAdmitSlot h path q q.seen u :=
  (if_neg (Nat.not_lt.2 hfits)).trans (if_pos hroom)

variable (hfull : q.room q.seen = false)
include hfull

theorem sendToQueue_of_denied (hdenied : permits u (tenReq h.tenant 0x202) q.done 8 false = false) :
    sendToQueue h path q u = (refuse (tenReq h.tenant 0x202) q.done 8 u, .error 1) :=
  (if_neg (Nat.not_lt.2 hfits)).trans ((if_neg (ne_true_of_eq_false hfull)).trans (if_pos (by rw [hdenied]; rfl)))

variable (hpermit : permits u (tenReq h.tenant 0x202) q.done 8 false = true)
include hpermit

theorem sendToQueue_of_unreadable (hread : readMem u q.done 8 = (w, .error c)) : sendToQueue h path q u = (w, .error 4) := by
  unfold sendToQueue
  rw [if_neg (Nat.not_lt.2 hfits), if_neg (ne_true_of_eq_false hfull), hpermit, hread]
  rfl

theorem sendToQueue_of_full (hread : readMem u q.done 8 = (w, .ok d)) (hstill : q.room (some (leNat d)) = false) :
    sendToQueue h path q u = (w.setFtRq (16 * h.tenant + h.raddr % 16) (some { q with seen := some (leNat d) }), .error 3) := by
  unfold sendToQueue
  rw [if_neg (Nat.not_lt.2 hfits), if_neg (ne_true_of_eq_false hfull), hpermit, hread]
  exact if_neg (ne_true_of_eq_false hstill)

theorem sendToQueue_of_freed (hread : readMem u q.done 8 = (w, .ok d)) (hroom : q.room (some (leNat d)) = true) :
    sendToQueue h path q u = ftAdmitSlot h path q (some (leNat d)) w := by
  unfold sendToQueue
  rw [if_neg (Nat.not_lt.2 hfits), if_neg (ne_true_of_eq_false hfull), hpermit, hread]
  exact if_pos hroom

end

theorem room_of_lt {n : Nat} (hlt : (q.next : Int) - n < (2 ^ q.log2 : Nat)) : q.room (some n) = true := decide_eq_true hlt

theorem room_of_le {n : Nat} (hle : (2 ^ q.log2 : Nat) ≤ (q.next : Int) - n) : q.room (some n) = false := decide_eq_false (Int.not_lt.2 hle)

theorem room_of_seen (hseen : q.seen = none ∨ ∃ d, q.seen = some d ∧ (2 ^ q.log2 : Nat) ≤ (q.next : Int) - d) : q.room q.seen = false := by
  obtain hnone | ⟨d, hsome, hle⟩ := hseen
  · rw [hnone]
    rfl
  · rw [hsome]
    exact room_of_le hle

end
end

/-! ### Answers to a sender (R384, R386, R389, R392) -/

/-- A READ is answered with the packets that its bitmap asks for. -/
def answerRead (pay : Bytes) (h : FtHdr) (path : Nat) (s : State) : State :=
  match ftRegion s h 2 h.mlen 1 with
  | .error r => ftNak path h r s
  | .ok _ => ((List.range 128).filter fun i => bit (leNat pay) i && decide (h.pidx + i < ftCount h.mlen h.mtu)).foldl (fun s i => ftReadPkt path h i s) s

/-- The message after a packet of its data: where the message keeps its data, the bytes are kept, else they are in memory. -/
def withPacket (m : FtMsg) (pidx : Nat) (pay : Bytes) (ticks : Nat) : FtMsg :=
  cumUp (clearPkt { { m with got := if m.data.isSome then tput [] m.got pidx pay else m.got } with held := m.held ++ [pidx], moved := ticks } pidx)

/-- What follows a packet of a READ's data that was stored, or not. -/
def readGoesOn (i : Nat) (x : FtMsg) (bad : Bool) (s : State) : State :=
  if bad then workGo (ftAbort i 0x0401 0 (s.setFtMsg i (some x)))
  else if x.pkts ≤ x.cum then workGo (ftEndMsg i 0x0000 0 (s.setFtMsg i (some x)))
  else s.setFtMsg i (some x)

/-- The state after the data of a READ is stored in memory, unless the message keeps its data, and whether it failed. -/
def storeRead (m : FtMsg) (pidx : Nat) (pay : Bytes) (s : State) : State × Bool :=
  match m.data with
  | some _ => (s, false)
  | none =>
    let (s, r) := writeMem s (m.laddr + pidx * 2 ^ m.mtu) pay
    (s, r.isSome)

/-- The data of a READ reaches its message. -/
def readAnswered (i : Nat) (m : FtMsg) (pay : Bytes) (h : FtHdr) (s : State) : State :=
  if m.op ≠ 2 ∨ m.pkts ≤ h.pidx ∨ h.pidx < m.cum ∨ m.held.contains h.pidx = true then s
  else if h.plen ≠ min (2 ^ m.mtu) (m.len - h.pidx * 2 ^ m.mtu) ∨ h.mlen ≠ m.len then ftDiscard s
  else readGoesOn i (withPacket m h.pidx pay (storeRead m h.pidx pay s).1.tb.ticks) (storeRead m h.pidx pay s).2 (storeRead m h.pidx pay s).1

/-- The value of an ATOMIC is stored where its operation fetches one. -/
def storeFetched (m : FtMsg) (v : Nat) (s : State) : State × Bool :=
  if aopFetch m.aop then
    let (s, r) := writeMem s m.laddr (leBytes 8 v)
    (s, r.isSome)
  else (s, false)

/-- The answer of an ATOMIC ends its message. -/
def atomicEnds (i : Nat) (m : FtMsg) (pay : Bytes) (h : FtHdr) (s : State) : State :=
  if m.op ≠ 5 then s
  else workGo (ftEndMsg i (if (storeFetched m (leNat pay) s).2 then 0x0401 else h.mlen % 65536) (if aopFetch m.aop then leNat pay else 0)
    (ftClose i m false (storeFetched m (leNat pay) s).1))

/-- An ACK advances its message, or ends it. -/
def acknowledged (i : Nat) (m : FtMsg) (pay : Bytes) (h : FtHdr) (s : State) : State :=
  if m.op = 2 then s
  else
    let w := ftCuts m (h.mlen % 256) s
    if m.op = 5 then w
    else if bit h.mlen 8 then workGo (ftEndMsg i 0x0000 0 (ftClose i m false w))
    else w.setFtMsg i (some (ftAcked m h.pidx (leNat pay) w.tb.ticks))

/-- A packet that an RNR answers is due again after its interval. -/
def notReady (i : Nat) (m : FtMsg) (pidx : Nat) (s : State) : State :=
  match m.pkt pidx with
  | some p => s.setFtMsg i (some { m with pk := tput none m.pk pidx (some { p with due := s.tb.ticks + p.rto, again := false, rnr := true }) })
  | none => s

/-- A NAK ends its message, or an RNR puts the packet off. -/
def refusedBy (i : Nat) (m : FtMsg) (_ : Bytes) (h : FtHdr) (s : State) : State :=
  if h.mlen = 3 then notReady i m h.pidx (s.count .ftRnr 0 0 1)
  else match nakStatus h.mlen with
    | some st => workGo (ftAbort i st 0 s)
    | none => s

/-- An answer goes to the message that it names, as `g` says, and to none otherwise. -/
def toSender (g : Nat → FtMsg → Bytes → FtHdr → State → State) (pay : Bytes) (h : FtHdr) (_ : Nat) (s : State) : State :=
  match ftMine s h with
  | none => s
  | some (i, m) => g i m pay h s

/-- A NAK of a reason that there is none of is discarded. -/
def nakked (pay : Bytes) (h : FtHdr) (path : Nat) (s : State) : State :=
  if h.mlen = 0 ∨ 6 < h.mlen then ftDiscard s else toSender refusedBy pay h path s

/-- CLOSE aborts, or ages, its entry. -/
def closeEntry (h : FtHdr) (path : Nat) (e : FtRx) (s : State) : FtRxSt → State
  | .active => if bit h.mlen 0 then ftRelease e (modRx h.src h.msg (fun e => { e with st := .aborted, since := s.tb.ticks, ackDue := none }) s) else s
  | .done => modRx h.src h.msg (fun e => { e with close := some (h.time + ftMaxAge s * 1000) }) s
  | .aborted => ftNak path h 6 s

/-- CLOSE of a message that has an entry. -/
def closed (_ : Bytes) (h : FtHdr) (path : Nat) (s : State) : State :=
  match ftFind s h.src h.msg with
  | none => s
  | some e => closeEntry h path e s e.st

section
variable {s u w : State} {h : FtHdr} {path i : Nat} {pay : Bytes} {m : FtMsg} {g : Nat → FtMsg → Bytes → FtHdr → State → State}

theorem handlesType_ftRxRead : HandlesType .ftRxRead 2 answerRead := fun _ => rfl

theorem handlesType_ftRxReadResp : HandlesType .ftRxReadResp 3 (toSender readAnswered) := fun _ => rfl

theorem handlesType_ftRxAtomicResp : HandlesType .ftRxAtomicResp 6 (toSender atomicEnds) := fun _ => rfl

theorem handlesType_ftRxAck : HandlesType .ftRxAck 7 (toSender acknowledged) := fun _ => rfl

theorem handlesType_ftRxNak : HandlesType .ftRxNak 8 nakked := fun _ => rfl

theorem handlesType_ftRxClose : HandlesType .ftRxClose 9 closed := fun _ => rfl

/-- The rows of the packets, each with what it does. -/
theorem exists_handlesType {c : Instr} {op : Nat}
    (hmem : (c, op) ∈ [(Instr.ftRxWrite, 1), (.ftRxRead, 2), (.ftRxReadResp, 3), (.ftRxSend, 4), (.ftRxAtomic, 5), (.ftRxAtomicResp, 6),
      (.ftRxAck, 7), (.ftRxNak, 8), (.ftRxClose, 9), (.ftRxSignal, 0x0A)]) : ∃ f, HandlesType c op f := by
  simp only [List.mem_cons, Prod.mk.injEq, List.not_mem_nil, or_false] at hmem
  obtain ⟨rfl, rfl⟩ | ⟨rfl, rfl⟩ | ⟨rfl, rfl⟩ | ⟨rfl, rfl⟩ | ⟨rfl, rfl⟩ | ⟨rfl, rfl⟩ | ⟨rfl, rfl⟩ | ⟨rfl, rfl⟩ | ⟨rfl, rfl⟩ | ⟨rfl, rfl⟩ := hmem <;>
    exact ⟨_, fun _ => rfl⟩

theorem answerRead_of_error {r : Nat} (hregion : ftRegion u h 2 h.mlen 1 = .error r) : answerRead pay h path u = ftNak path h r u := by
  unfold answerRead
  rw [hregion]

theorem answerRead_of_ok {k : Nat} (hregion : ftRegion u h 2 h.mlen 1 = .ok k) :
    answerRead pay h path u = ((List.range 128).filter fun i =>
      bit (leNat pay) i && decide (h.pidx + i < ftCount h.mlen h.mtu)).foldl (fun s i => ftReadPkt path h i s) u := by
  unfold answerRead
  rw [hregion]

theorem toSender_of_none (hnone : ftMine u h = none) : toSender g pay h path u = u := by
  unfold toSender
  rw [hnone]

theorem toSender_of_some (hmine : ftMine u h = some (i, m)) : toSender g pay h path u = g i m pay h u := by
  unfold toSender
  rw [hmine]

section
variable (hop : m.op = 2) (hlow : m.cum ≤ h.pidx) (hhigh : h.pidx < m.pkts) (hnew : m.held.contains h.pidx = false)
include hop hlow hhigh hnew

theorem readAnswered_of_fresh : readAnswered i m pay h u =
    if h.plen ≠ min (2 ^ m.mtu) (m.len - h.pidx * 2 ^ m.mtu) ∨ h.mlen ≠ m.len then ftDiscard u
    else readGoesOn i (withPacket m h.pidx pay (storeRead m h.pidx pay u).1.tb.ticks) (storeRead m h.pidx pay u).2 (storeRead m h.pidx pay u).1 := by
  refine if_neg ?_
  rw [hnew]
  simp only [Bool.false_eq_true, or_false]
  omega

theorem readAnswered_of_wrong (hwrong : h.plen ≠ min (2 ^ m.mtu) (m.len - h.pidx * 2 ^ m.mtu) ∨ h.mlen ≠ m.len) :
    readAnswered i m pay h u = ftDiscard u :=
  (readAnswered_of_fresh hop hlow hhigh hnew).trans (if_pos hwrong)

theorem readAnswered_of_right {bad : Bool} (hplen : h.plen = min (2 ^ m.mtu) (m.len - h.pidx * 2 ^ m.mtu)) (hmlen : h.mlen = m.len)
    (hstore : storeRead m h.pidx pay u = (w, bad)) :
    readAnswered i m pay h u = readGoesOn i (withPacket m h.pidx pay w.tb.ticks) bad w := by
  rw [readAnswered_of_fresh hop hlow hhigh hnew, if_neg (by rw [hplen, hmlen]; omega), hstore]

end

theorem readAnswered_of_repeated (hrepeat : m.op ≠ 2 ∨ m.pkts ≤ h.pidx ∨ h.pidx < m.cum ∨ m.held.contains h.pidx = true) :
    readAnswered i m pay h u = u := if_pos hrepeat

theorem storeRead_of_memory {r : Option Nat} {pidx : Nat} (hdata : m.data = none)
    (hwrite : writeMem u (m.laddr + pidx * 2 ^ m.mtu) pay = (w, r)) : storeRead m pidx pay u = (w, r.isSome) := by
  unfold storeRead
  rw [hdata]
  dsimp only
  rw [hwrite]

theorem storeRead_of_kept {d : Bytes} {pidx : Nat} (hdata : m.data = some d) : storeRead m pidx pay u = (u, false) := by
  unfold storeRead
  rw [hdata]

theorem withPacket_of_memory {pidx ticks : Nat} (hdata : m.data = none) :
    withPacket m pidx pay ticks = cumUp (clearPkt { m with held := m.held ++ [pidx], moved := ticks } pidx) := by
  unfold withPacket
  rw [hdata]
  rfl

theorem withPacket_of_kept {d : Bytes} {pidx ticks : Nat} (hdata : m.data = some d) :
    withPacket m pidx pay ticks = cumUp (clearPkt { m with got := tput [] m.got pidx pay, held := m.held ++ [pidx], moved := ticks } pidx) := by
  unfold withPacket
  rw [hdata]
  rfl

theorem pkts_withPacket {x : FtMsg} {pidx ticks : Nat} (hx : x = withPacket m pidx pay ticks) : x.pkts = m.pkts := by rw [hx]; rfl

theorem readGoesOn_of_bad {x : FtMsg} : readGoesOn i x true w = workGo (ftAbort i 0x0401 0 (w.setFtMsg i (some x))) := rfl

theorem readGoesOn_of_all {x : FtMsg} (hall : x.pkts ≤ x.cum) :
    readGoesOn i x false w = workGo (ftEndMsg i 0x0000 0 (w.setFtMsg i (some x))) := if_pos hall

theorem readGoesOn_of_part {x : FtMsg} (hpart : x.cum < x.pkts) : readGoesOn i x false w = w.setFtMsg i (some x) := if_neg (Nat.not_le.2 hpart)

theorem atomicEnds_of_other (hop : m.op ≠ 5) : atomicEnds i m pay h u = u := if_pos hop

theorem atomicEnds_of_plain (hop : m.op = 5) (hfetch : aopFetch m.aop = false) :
    atomicEnds i m pay h u = workGo (ftEndMsg i (h.mlen % 65536) 0 (ftClose i m false u)) := by
  unfold atomicEnds storeFetched
  rw [if_neg (not_not_intro hop), hfetch]
  rfl

theorem atomicEnds_of_fetch {r : Option Nat} (hop : m.op = 5) (hfetch : aopFetch m.aop = true)
    (hwrite : writeMem u m.laddr (leBytes 8 (leNat pay)) = (w, r)) :
    atomicEnds i m pay h u = workGo (ftEndMsg i (if r.isSome then 0x0401 else h.mlen % 65536) (leNat pay) (ftClose i m false w)) := by
  have hstore : storeFetched m (leNat pay) u = (w, r.isSome) := by
    unfold storeFetched
    rw [hfetch, if_pos rfl, hwrite]
  unfold atomicEnds
  rw [if_neg (not_not_intro hop), hstore, hfetch]
  rfl

theorem atomicEnds_of_stored (hop : m.op = 5) (hfetch : aopFetch m.aop = true)
    (hwrite : writeMem u m.laddr (leBytes 8 (leNat pay)) = (w, none)) :
    atomicEnds i m pay h u = workGo (ftEndMsg i (h.mlen % 65536) (leNat pay) (ftClose i m false w)) := by
  rw [atomicEnds_of_fetch hop hfetch hwrite, Option.isSome_none, if_neg Bool.false_ne_true]

theorem atomicEnds_of_unstored {r : Nat} (hop : m.op = 5) (hfetch : aopFetch m.aop = true)
    (hwrite : writeMem u m.laddr (leBytes 8 (leNat pay)) = (w, some r)) :
    atomicEnds i m pay h u = workGo (ftEndMsg i 0x0401 (leNat pay) (ftClose i m false w)) := by
  rw [atomicEnds_of_fetch hop hfetch hwrite, Option.isSome_some, if_pos rfl]

theorem acknowledged_of_read (hop : m.op = 2) : acknowledged i m pay h u = u := if_pos hop

theorem acknowledged_of_atomic (hop : m.op = 5) : acknowledged i m pay h u = ftCuts m (h.mlen % 256) u :=
  (if_neg (by rw [hop]; decide)).trans (if_pos hop)

section
variable (hread : m.op ≠ 2) (hatomic : m.op ≠ 5)
include hread hatomic

theorem acknowledged_of_final (hfinal : bit h.mlen 8 = true) :
    acknowledged i m pay h u = workGo (ftEndMsg i 0x0000 0 (ftClose i m false (ftCuts m (h.mlen % 256) u))) :=
  (if_neg hread).trans ((if_neg hatomic).trans (if_pos hfinal))

theorem acknowledged_of_part (hpart : bit h.mlen 8 = false) (hw : w = ftCuts m (h.mlen % 256) u) :
    acknowledged i m pay h u = w.setFtMsg i (some (ftAcked m h.pidx (leNat pay) w.tb.ticks)) := by
  subst hw
  exact (if_neg hread).trans ((if_neg hatomic).trans (if_neg (ne_true_of_eq_false hpart)))

end

theorem notReady_of_some {q : FtPkt} {pidx : Nat} (hpkt : m.pkt pidx = some q) :
    notReady i m pidx w = w.setFtMsg i (some { m with
      pk := tput none m.pk pidx (some { q with due := w.tb.ticks + q.rto, again := false, rnr := true }) }) := by
  unfold notReady
  rw [hpkt]

theorem notReady_of_none {pidx : Nat} (hpkt : m.pkt pidx = none) : notReady i m pidx w = w := by
  unfold notReady
  rw [hpkt]

theorem refusedBy_of_rnr (hrnr : h.mlen = 3) : refusedBy i m pay h u = notReady i m h.pidx (u.count .ftRnr 0 0 1) := if_pos hrnr

theorem refusedBy_of_reason {st : Nat} (hmem : (h.mlen, st) ∈ [(1, 0x0501), (2, 0x0503), (4, 0x0401), (5, 0x0103), (6, 0x0602)]) :
    refusedBy i m pay h u = workGo (ftAbort i st 0 u) := by
  unfold refusedBy
  simp only [List.mem_cons, Prod.mk.injEq, List.not_mem_nil, or_false] at hmem
  obtain ⟨hr, rfl⟩ | ⟨hr, rfl⟩ | ⟨hr, rfl⟩ | ⟨hr, rfl⟩ | ⟨hr, rfl⟩ := hmem <;> rw [hr] <;> rfl

theorem nakked_of_bad (hbad : h.mlen = 0 ∨ 7 ≤ h.mlen) : nakked pay h path u = ftDiscard u := if_pos hbad

theorem nakked_of_reason (hlow : 1 ≤ h.mlen) (hhigh : h.mlen ≤ 6) : nakked pay h path u = toSender refusedBy pay h path u :=
  if_neg (show ¬ (h.mlen = 0 ∨ 6 < h.mlen) by omega)

theorem closed_of_none (hnone : ftFind u h.src h.msg = none) : closed pay h path u = u := by
  unfold closed
  rw [hnone]

theorem closed_of_some {e : FtRx} {st : FtRxSt} (hfind : ftFind u h.src h.msg = some e) (hst : e.st = st) :
    closed pay h path u = closeEntry h path e u st := by
  unfold closed
  rw [hfind]
  dsimp only
  rw [hst]

/-! ### What an ACK leaves of a message (R389) -/

/-- The packets that an ACK's bitmap acknowledges. -/
def sackedBy (pidx sack : Nat) : List Nat := ((List.range 128).filter fun k => decide (0 < k) && bit sack k).map (· + pidx)

theorem mem_sackedBy {pidx sack k : Nat} : k ∈ sackedBy pidx sack ↔ pidx < k ∧ k < pidx + 128 ∧ bit sack (k - pidx) = true := by
  simp only [sackedBy, List.mem_map, List.mem_filter, List.mem_range, Bool.and_eq_true, decide_eq_true_eq]
  constructor
  · rintro ⟨j, ⟨hlt, hpos, hbit⟩, rfl⟩
    exact ⟨by omega, by omega, by rwa [Nat.add_sub_cancel]⟩
  · rintro ⟨hlow, hhigh, hbit⟩
    exact ⟨k - pidx, ⟨by omega, by omega, hbit⟩, by omega⟩

theorem held_ftAcked (m : FtMsg) (pidx sack ticks : Nat) : (ftAcked m pidx sack ticks).held =
    (m.held ++ (sackedBy pidx sack).filter fun k => !m.held.contains k).filter fun k => decide (max m.cum pidx < k) := rfl

theorem mem_held_ftAcked {pidx sack ticks k : Nat} : k ∈ (ftAcked m pidx sack ticks).held ↔
    max m.cum pidx < k ∧ (k ∈ m.held ∨ (pidx < k ∧ k < pidx + 128 ∧ bit sack (k - pidx) = true)) := by
  rw [held_ftAcked, List.mem_filter, List.mem_append, List.mem_filter, mem_sackedBy, decide_eq_true_eq, and_comm]
  refine and_congr_right fun _ => ?_
  by_cases hheld : k ∈ m.held <;> simp [hheld]

/-! ### The timers of an entry (R389, R392, R394) -/

section
variable {src msg t : Nat} {e : FtRx} (hrun : s.power.running = true) (hfind : ftFind s src msg = some e)
include hrun hfind

theorem exec_ftAckTimer_of_due (hdue : e.ackDue = some t) (hcount : 0 < e.count) (ht : t ≤ s.tb.ticks) :
    exec (.ftAckTimer src msg) s = .next (ftAck src msg s) := by
  show execFtAckTimer src msg s = _
  unfold execFtAckTimer
  rw [run_next rfl hrun, hfind]
  refine congrArg _ (if_pos ⟨by rw [hdue]; rfl, hcount, ?_⟩)
  rw [hdue]
  exact decide_eq_true ht

theorem exec_ftAckTimer_of_early (hdue : e.ackDue = some t) (ht : s.tb.ticks < t) : exec (.ftAckTimer src msg) s = .next s := by
  show execFtAckTimer src msg s = _
  unfold execFtAckTimer
  rw [run_next rfl hrun, hfind]
  refine congrArg _ (if_neg ?_)
  rintro ⟨-, -, hexpired⟩
  rw [hdue] at hexpired
  exact Nat.not_le.2 ht (of_decide_eq_true hexpired)

theorem exec_ftEntryIdleAbort_of_idle (hst : e.st = .active) (hidle : e.last + 50000000 ≤ s.tb.ticks) :
    exec (.ftEntryIdleAbort src msg) s = .next (sticky none .ftErr 0 0 16 (ftRelease e
      (modRx src msg (fun e => { e with st := .aborted, since := s.tb.ticks, ackDue := none }) s))) := by
  show execFtEntryIdleAbort src msg s = _
  unfold execFtEntryIdleAbort
  rw [run_next rfl hrun, hfind]
  exact congrArg _ (if_pos ⟨hst, hidle⟩)

theorem exec_ftEntryIdleAbort_of_early (hearly : s.tb.ticks < e.last + 50000000) : exec (.ftEntryIdleAbort src msg) s = .next s := by
  show execFtEntryIdleAbort src msg s = _
  unfold execFtEntryIdleAbort
  rw [run_next rfl hrun, hfind]
  exact congrArg _ (if_neg fun h => absurd h.2 (Nat.not_le.2 hearly))

theorem exec_ftEntryLinger_of_over (hst : e.st ≠ .active) (hover : e.since + 51000000 + ftMaxAge s * 1000 ≤ s.tb.ticks) :
    exec (.ftEntryLinger src msg) s = .next (delRx src msg s) := by
  show execFtEntryLinger src msg s = _
  unfold execFtEntryLinger
  rw [run_next rfl hrun, hfind]
  exact congrArg _ (if_pos ⟨hst, hover⟩)

theorem exec_ftEntryLinger_of_active (hst : e.st = .active) : exec (.ftEntryLinger src msg) s = .next s := by
  show execFtEntryLinger src msg s = _
  unfold execFtEntryLinger
  rw [run_next rfl hrun, hfind]
  exact congrArg _ (if_neg fun h => h.1 hst)

theorem exec_ftCloseAgeExpiry_of_over (hst : e.st = .done) (hclose : e.close = some t) (ht : t ≤ s.now) :
    exec (.ftCloseAgeExpiry src msg) s = .next (delRx src msg s) := by
  show execFtCloseAgeExpiry src msg s = _
  unfold execFtCloseAgeExpiry
  rw [run_next rfl hrun, hfind]
  dsimp only
  rw [hclose]
  exact congrArg _ (if_pos ⟨hst, ht⟩)

theorem exec_ftCloseAgeExpiry_of_early (hclose : e.close = some t) (ht : s.now < t) : exec (.ftCloseAgeExpiry src msg) s = .next s := by
  show execFtCloseAgeExpiry src msg s = _
  unfold execFtCloseAgeExpiry
  rw [run_next rfl hrun, hfind]
  dsimp only
  rw [hclose]
  exact congrArg _ (if_neg fun h => absurd h.2 (Nat.not_le.2 ht))

theorem exec_ftCloseAgeExpiry_of_active (hst : e.st = .active) : exec (.ftCloseAgeExpiry src msg) s = .next s := by
  show execFtCloseAgeExpiry src msg s = _
  unfold execFtCloseAgeExpiry
  rw [run_next rfl hrun, hfind]
  dsimp only
  cases hclose : e.close with
  | none => rfl
  | some t => exact congrArg _ (if_neg fun h => by rw [hst] at h; exact nomatch h.1)

end
end

/-! ### The packets of each type, over every state -/

section
variable {s u : State} {c : Instr} {op path : Nat} {pay : Bytes} {h : FtHdr}

theorem not_disagrees {e : FtRx} (hlen : h.mlen = e.len) (hmtu : h.mtu = e.mtu) (hop : e.op = op) (haddr : op = 1 ∨ op = 5 → h.raddr = e.addr)
    (hpkt : h.pidx < e.pkts) (hplen : op = 1 ∨ op = 4 → h.plen = min (2 ^ e.mtu) (e.len - h.pidx * 2 ^ e.mtu)) (hwindow : h.pidx ≤ e.cum + 127) :
    ¬ disagrees op h e := by
  rintro (h1 | h1 | h1 | ⟨hk, h1⟩ | h1 | ⟨hk, h1⟩ | h1)
  · exact h1 hlen
  · exact h1 hmtu
  · exact h1 hop
  · exact h1 (haddr hk)
  · omega
  · exact h1 (hplen hk)
  · omega

theorem admits_of_cases {w : State} {e : FtRx} (hadmit : (op = 1 ∧ ftAdmitWrite h path u = (w, .ok e)) ∨ (op = 4 ∧ ftAdmitSend h path u = (w, .ok e)) ∨
    (op = 5 ∧ ftAdmitAtomic (fld pay 0 1) h path u = (w, .ok e)) ∨ (op = 0x0A ∧ ftAdmitSignal h path u = (w, .ok e))) :
    admits op pay h path u = (w, .ok e) := by
  obtain ⟨rfl, hw⟩ | ⟨rfl, hw⟩ | ⟨rfl, hw⟩ | ⟨rfl, hw⟩ := hadmit <;> exact hw

/-- A packet that its entry does not hold is placed by its type. -/
theorem exec_placed {v w x : State} {e : FtRx} {a cd : Nat} {d : Bytes} (hgo : exec c s = .next (places op pay h path e v))
    (ha : a = e.addr + h.pidx * 2 ^ e.mtu) :
    (op = 1 → writeMem v a pay = (w, none) → exec c s = .next (workGo (moveLanded h.tenant a pay.length (ftHold h w)))) ∧
    (op = 4 → writeMem v a pay = (w, none) → exec c s = .next (ftHold h w)) ∧
    (op = 1 ∨ op = 4 → writeMem v a pay = (w, some cd) → exec c s = .next (ftNak path h 4 w)) ∧
    (op = 5 → readMem v e.addr e.len = (w, .error cd) → exec c s = .next (ftNak path h 4 w)) ∧
    (op = 5 → readMem v e.addr e.len = (w, .ok d) →
      writeMem w e.addr (leBytes e.len (atomicOp (fld pay 0 1) (leNat d) (fld pay 8 8) (fld pay 16 8)).1) = (x, none) →
      exec c s = .next (ftHold h (ftAnswer { e with path := path } 6 0 (atomicOp (fld pay 0 1) (leNat d) (fld pay 8 8) (fld pay 16 8)).2
        (leBytes 8 (if aopFetch (fld pay 0 1) then leNat d else 0)) (modRx h.src h.msg (fun e => { e with
          resp := some ((atomicOp (fld pay 0 1) (leNat d) (fld pay 8 8) (fld pay 16 8)).2, if aopFetch (fld pay 0 1) then leNat d else 0) }) x)))) ∧
    (op = 0x0A → exec c s = .next (ftHold h (remoteApply 0x203 h.src h.raddr (leNat pay % 2 ^ 24) h.tenant v).1)) := by
  subst ha
  refine ⟨?_, ?_, ?_, ?_, ?_, ?_⟩
  · rintro rfl hwrite
    exact hgo.trans (congrArg _ (placeWrite_of_ok hwrite))
  · rintro rfl hwrite
    exact hgo.trans (congrArg _ (placeSend_of_ok hwrite))
  · rintro (rfl | rfl) hwrite
    · exact hgo.trans (congrArg _ (placeWrite_of_error hwrite))
    · exact hgo.trans (congrArg _ (placeSend_of_error hwrite))
  · rintro rfl hread
    exact hgo.trans (congrArg _ (placeAtomic_of_error hread))
  · rintro rfl hread hwrite
    exact hgo.trans (congrArg _ (placeAtomic_of_ok hread hwrite))
  · rintro rfl
    exact hgo

section
variable (hexec : exec c s = .next (ftMessage h path (admits op pay h path) (places op pay h path) u))
include hexec

theorem exec_message_of_entry {e : FtRx} {y : State} (hentry : (ftFind u h.src h.msg = some e ∧ e.st = .active ∧ y = ftMark h u) ∨
      (ftFind u h.src h.msg = none ∧ u.ft.rx.length < 65536 ∧ ∃ w, y = ftMark h (ftAdd e w) ∧
        ((op = 1 ∧ ftAdmitWrite h path u = (w, .ok e)) ∨ (op = 4 ∧ ftAdmitSend h path u = (w, .ok e)) ∨
          (op = 5 ∧ ftAdmitAtomic (fld pay 0 1) h path u = (w, .ok e)) ∨ (op = 0x0A ∧ ftAdmitSignal h path u = (w, .ok e))))) :
    exec c s = .next (ftGo h path (places op pay h path) e y) := by
  obtain ⟨hfind, hst, rfl⟩ | ⟨hnew, hroom, w, rfl, hadmit⟩ := hentry
  · exact hexec.trans (congrArg _ (ftMessage_of_active hfind hst))
  · exact hexec.trans (congrArg _ (ftMessage_of_admitted hnew hroom (admits_of_cases hadmit)))

theorem exec_message :
    (ftFind u h.src h.msg = none → 65536 ≤ u.ft.rx.length → exec c s = .next (ftNak path h 3 (sticky none .ftErr 0 0 8 u))) ∧
    (∀ e, ftFind u h.src h.msg = some e → e.st = .aborted → exec c s = .next (ftNak path h 6 (ftMark h u))) ∧
    (∀ e, ftFind u h.src h.msg = some e → e.st = .done → e.resp = none →
      exec c s = .next (ftAck h.src h.msg (modRx h.src h.msg (fun e => { e with path := path }) (ftMark h u)))) ∧
    (∀ e st v, ftFind u h.src h.msg = some e → e.st = .done → e.resp = some (st, v) →
      exec c s = .next (ftAck h.src h.msg (ftAnswer { e with path := path } 6 0 st (leBytes 8 v)
        (modRx h.src h.msg (fun e => { e with path := path }) (ftMark h u))))) :=
  ⟨fun hnew hfull => hexec.trans (congrArg _ (ftMessage_of_full hnew hfull)),
    fun _ hfind hst => hexec.trans (congrArg _ (ftMessage_of_aborted hfind hst)),
    fun _ hfind hst hresp => hexec.trans (congrArg _ (ftMessage_of_done hfind hst hresp)),
    fun _ _ _ hfind hst hresp => hexec.trans (congrArg _ (ftMessage_of_answered hfind hst hresp))⟩

end

/-! ### Admission, over every state -/

section
variable (hnew : ftFind u h.src h.msg = none) (hroom : u.ft.rx.length < 65536)
include hnew hroom

theorem exec_refused {w : State} {r : Nat} (hexec : exec c s = .next (ftMessage h path (admits op pay h path) (places op pay h path) u))
    (hadmit : admits op pay h path u = (w, .error r)) : exec c s = .next (ftNak path h r w) :=
  hexec.trans (congrArg _ (ftMessage_of_refused hnew hroom hadmit))

variable {r : FtRq} (hexec : h.op = 4 → exec .ftRxSend s = .next (ftMessage h path (ftAdmitSend h path) (placeSend pay h path) u))
  (hlow : h.raddr < 16) (hq : u.ftRq (16 * h.tenant + h.raddr) = some r)
include hexec hlow hq

/-- A SEND to a queue of the sender's, whose buffers take the message. -/
theorem exec_send_to_queue (hsrc : r.src = 0xFFFFFFFF ∨ r.src = h.src) (hfits : h.mlen ≤ 2 ^ r.slot) :
    (∀ a d, a = r.base + r.next % 2 ^ r.log2 * 2 ^ r.slot → r.seen = some d → (r.next : Int) - d < (2 ^ r.log2 : Nat) →
      (h.op = 4 → permits u (tenReq h.tenant 0x202) a h.mlen true = false →
        exec .ftRxSend s = .next (ftNak path h 1 (refuse (tenReq h.tenant 0x202) a h.mlen u))) ∧
      (permits u (tenReq h.tenant 0x202) a h.mlen true = true → ftAdmitSend h path u =
        (u.setFtRq (16 * h.tenant + h.raddr) (some { r with next := r.next + 1, seen := some d }),
          .ok { rxEntryOf u h path none a with rq := some (16 * h.tenant + h.raddr, r.next) }))) ∧
    (r.seen = none ∨ (∃ d, r.seen = some d ∧ (2 ^ r.log2 : Nat) ≤ (r.next : Int) - d) →
      (h.op = 4 → permits u (tenReq h.tenant 0x202) r.done 8 false = false →
        exec .ftRxSend s = .next (ftNak path h 1 (refuse (tenReq h.tenant 0x202) r.done 8 u))) ∧
      (permits u (tenReq h.tenant 0x202) r.done 8 false = true →
        (∀ w c, h.op = 4 → readMem u r.done 8 = (w, .error c) → exec .ftRxSend s = .next (ftNak path h 4 w)) ∧
        (∀ w d, h.op = 4 → readMem u r.done 8 = (w, .ok d) → (2 ^ r.log2 : Nat) ≤ (r.next : Int) - leNat d →
          exec .ftRxSend s = .next (ftNak path h 3 (w.setFtRq (16 * h.tenant + h.raddr) (some { r with seen := some (leNat d) })))) ∧
        (∀ w d a, readMem u r.done 8 = (w, .ok d) → (r.next : Int) - leNat d < (2 ^ r.log2 : Nat) →
          a = r.base + r.next % 2 ^ r.log2 * 2 ^ r.slot → permits w (tenReq h.tenant 0x202) a h.mlen true = true →
          ftAdmitSend h path u = (w.setFtRq (16 * h.tenant + h.raddr) (some { r with next := r.next + 1, seen := some (leNat d) }),
            .ok { rxEntryOf w h path none a with rq := some (16 * h.tenant + h.raddr, r.next) })))) := by
  have hadmit := ftAdmitSend_of_sender (path := path) hlow hq hsrc
  refine ⟨?_, fun hseen => ⟨fun hop hdenied => ?_, fun hpermit => ⟨fun w cd hop hread => ?_, fun w d hop hread hstill => ?_, ?_⟩⟩⟩
  · rintro _ d rfl hseen hfree
    have hslot := hadmit.trans (sendToQueue_of_room hfits (by rw [hseen]; exact room_of_lt hfree))
    rw [hseen] at hslot
    exact ⟨fun hop hdenied => exec_refused (op := 4) hnew hroom (hexec hop) (hslot.trans (ftAdmitSlot_of_denied hdenied)),
      fun hpermit => hslot.trans (ftAdmitSlot_of_permitted hlow hpermit)⟩
  · exact exec_refused (op := 4) hnew hroom (hexec hop) (hadmit.trans (sendToQueue_of_denied hfits (room_of_seen hseen) hdenied))
  · exact exec_refused (op := 4) hnew hroom (hexec hop) (hadmit.trans (sendToQueue_of_unreadable hfits (room_of_seen hseen) hpermit hread))
  · refine exec_refused (op := 4) hnew hroom (hexec hop) (hadmit.trans ?_)
    rw [sendToQueue_of_full hfits (room_of_seen hseen) hpermit hread (room_of_le hstill), Nat.mod_eq_of_lt hlow]
  · rintro w d _ hread hfree rfl hslot
    exact hadmit.trans ((sendToQueue_of_freed hfits (room_of_seen hseen) hpermit hread (room_of_lt hfree)).trans
      (ftAdmitSlot_of_permitted hlow hslot))

end

/-! ### Answers, over every state -/

section
variable {i : Nat} {m : FtMsg}

theorem storeRead_of_cases {w : State} {x : FtMsg} {r : Option Nat}
    (hstore : (m.data = none ∧ writeMem u (m.laddr + h.pidx * 2 ^ m.mtu) pay = (w, r) ∧
        x = cumUp (clearPkt { m with held := m.held ++ [h.pidx], moved := w.tb.ticks } h.pidx)) ∨
      ((∃ d, m.data = some d) ∧ w = u ∧ r = none ∧ x = cumUp (clearPkt
        { m with got := tput [] m.got h.pidx pay, held := m.held ++ [h.pidx], moved := w.tb.ticks } h.pidx))) :
    storeRead m h.pidx pay u = (w, r.isSome) ∧ x = withPacket m h.pidx pay w.tb.ticks := by
  obtain ⟨hdata, hwrite, rfl⟩ | ⟨⟨d, hdata⟩, rfl, rfl, rfl⟩ := hstore
  · exact ⟨storeRead_of_memory hdata hwrite, (withPacket_of_memory hdata).symm⟩
  · exact ⟨storeRead_of_kept hdata, (withPacket_of_kept hdata).symm⟩

theorem exec_readAnswered (hexec : h.op = 3 → exec .ftRxReadResp s = .next (readAnswered i m pay h u)) :
    (h.op = 3 → m.op ≠ 2 ∨ m.pkts ≤ h.pidx ∨ h.pidx < m.cum ∨ m.held.contains h.pidx = true → exec .ftRxReadResp s = .next u) ∧
    (h.op = 3 → m.op = 2 → h.pidx < m.pkts → m.cum ≤ h.pidx → m.held.contains h.pidx = false →
      (h.plen ≠ min (2 ^ m.mtu) (m.len - h.pidx * 2 ^ m.mtu) ∨ h.mlen ≠ m.len → exec .ftRxReadResp s = .next (ftDiscard u)) ∧
      (∀ w x r, h.plen = min (2 ^ m.mtu) (m.len - h.pidx * 2 ^ m.mtu) → h.mlen = m.len →
        (m.data = none ∧ writeMem u (m.laddr + h.pidx * 2 ^ m.mtu) pay = (w, r) ∧
            x = cumUp (clearPkt { m with held := m.held ++ [h.pidx], moved := w.tb.ticks } h.pidx)) ∨
          ((∃ d, m.data = some d) ∧ w = u ∧ r = none ∧ x = cumUp (clearPkt
            { m with got := tput [] m.got h.pidx pay, held := m.held ++ [h.pidx], moved := w.tb.ticks } h.pidx)) →
        (r.isSome = true → exec .ftRxReadResp s = .next (workGo (ftAbort i 0x0401 0 (w.setFtMsg i (some x))))) ∧
        (r = none → m.pkts ≤ x.cum → exec .ftRxReadResp s = .next (workGo (ftEndMsg i 0x0000 0 (w.setFtMsg i (some x))))) ∧
        (r = none → x.cum < m.pkts → exec .ftRxReadResp s = .next (w.setFtMsg i (some x))))) := by
  refine ⟨fun htype hrepeat => (hexec htype).trans (congrArg _ (readAnswered_of_repeated hrepeat)), fun htype hop hhigh hlow hnew => ⟨fun hwrong =>
    (hexec htype).trans (congrArg _ (readAnswered_of_wrong hop hlow hhigh hnew hwrong)), fun w x r hplen hmlen hcases => ?_⟩⟩
  obtain ⟨hstore, hx⟩ := storeRead_of_cases hcases
  have hpkts : x.pkts = m.pkts := pkts_withPacket hx
  have hgoes : exec .ftRxReadResp s = .next (readGoesOn i x r.isSome w) :=
    (hexec htype).trans (congrArg _ ((readAnswered_of_right hop hlow hhigh hnew hplen hmlen hstore).trans (by rw [hx])))
  rw [← hpkts, hgoes]
  refine ⟨fun hbad => ?_, fun hgood hall => ?_, fun hgood hpart => ?_⟩
  · rw [hbad, readGoesOn_of_bad]
  · rw [hgood]
    exact congrArg _ (readGoesOn_of_all hall)
  · rw [hgood]
    exact congrArg _ (readGoesOn_of_part hpart)

theorem exec_atomicEnds (hexec : h.op = 6 → exec .ftRxAtomicResp s = .next (atomicEnds i m pay h u)) :
    (h.op = 6 → m.op ≠ 5 → exec .ftRxAtomicResp s = .next u) ∧
    (h.op = 6 → m.op = 5 → aopFetch m.aop = false →
      exec .ftRxAtomicResp s = .next (workGo (ftEndMsg i (h.mlen % 65536) 0 (ftClose i m false u)))) ∧
    (∀ w, h.op = 6 → m.op = 5 → aopFetch m.aop = true → writeMem u m.laddr (leBytes 8 (leNat pay)) = (w, none) →
      exec .ftRxAtomicResp s = .next (workGo (ftEndMsg i (h.mlen % 65536) (leNat pay) (ftClose i m false w)))) ∧
    (∀ w r, h.op = 6 → m.op = 5 → aopFetch m.aop = true → writeMem u m.laddr (leBytes 8 (leNat pay)) = (w, some r) →
      exec .ftRxAtomicResp s = .next (workGo (ftEndMsg i 0x0401 (leNat pay) (ftClose i m false w)))) :=
  ⟨fun htype hop => (hexec htype).trans (congrArg _ (atomicEnds_of_other hop)),
    fun htype hop hfetch => (hexec htype).trans (congrArg _ (atomicEnds_of_plain hop hfetch)),
    fun _ htype hop hfetch hwrite => (hexec htype).trans (congrArg _ (atomicEnds_of_stored hop hfetch hwrite)),
    fun _ _ htype hop hfetch hwrite => (hexec htype).trans (congrArg _ (atomicEnds_of_unstored hop hfetch hwrite))⟩

theorem exec_acknowledged (hexec : h.op = 7 → exec .ftRxAck s = .next (acknowledged i m pay h u)) :
    (h.op = 7 → m.op = 2 → exec .ftRxAck s = .next u) ∧
    (h.op = 7 → m.op = 5 → exec .ftRxAck s = .next (ftCuts m (h.mlen % 256) u)) ∧
    (∀ w, h.op = 7 → m.op ≠ 2 → m.op ≠ 5 → w = ftCuts m (h.mlen % 256) u →
      (bit h.mlen 8 = true → exec .ftRxAck s = .next (workGo (ftEndMsg i 0x0000 0 (ftClose i m false w)))) ∧
      (bit h.mlen 8 = false → exec .ftRxAck s = .next (w.setFtMsg i (some (ftAcked m h.pidx (leNat pay) w.tb.ticks))))) := by
  refine ⟨fun htype hop => (hexec htype).trans (congrArg _ (acknowledged_of_read hop)),
    fun htype hop => (hexec htype).trans (congrArg _ (acknowledged_of_atomic hop)), ?_⟩
  rintro _ htype hread hatomic rfl
  exact ⟨fun hfinal => (hexec htype).trans (congrArg _ (acknowledged_of_final hread hatomic hfinal)),
    fun hpart => (hexec htype).trans (congrArg _ (acknowledged_of_part hread hatomic hpart rfl))⟩

theorem exec_refusedBy (hexec : h.op = 8 → 1 ≤ h.mlen → h.mlen ≤ 6 → exec .ftRxNak s = .next (refusedBy i m pay h u)) :
    (∀ q, h.op = 8 → h.mlen = 3 → m.pkt h.pidx = some q → exec .ftRxNak s = .next ((u.count .ftRnr 0 0 1).setFtMsg i (some { m with
      pk := tput none m.pk h.pidx (some { q with due := (u.count .ftRnr 0 0 1).tb.ticks + q.rto, again := false, rnr := true }) }))) ∧
    (h.op = 8 → h.mlen = 3 → m.pkt h.pidx = none → exec .ftRxNak s = .next (u.count .ftRnr 0 0 1)) ∧
    (h.op = 8 → ∀ st, (h.mlen, st) ∈ [(1, 0x0501), (2, 0x0503), (4, 0x0401), (5, 0x0103), (6, 0x0602)] →
      exec .ftRxNak s = .next (workGo (ftAbort i st 0 u))) := by
  refine ⟨fun q htype hrnr hpkt => ?_, fun htype hrnr hpkt => ?_, fun htype st hmem => ?_⟩
  · exact (hexec htype (by omega) (by omega)).trans (congrArg _ ((refusedBy_of_rnr hrnr).trans (notReady_of_some hpkt)))
  · exact (hexec htype (by omega) (by omega)).trans (congrArg _ ((refusedBy_of_rnr hrnr).trans (notReady_of_none hpkt)))
  · have hreason : 1 ≤ h.mlen ∧ h.mlen ≤ 6 := by
      simp only [List.mem_cons, Prod.mk.injEq, List.not_mem_nil, or_false] at hmem
      omega
    exact (hexec htype hreason.1 hreason.2).trans (congrArg _ (refusedBy_of_reason hmem))

theorem exec_closed {e : FtRx} (hexec : h.op = 9 → exec .ftRxClose s = .next (closed pay h path u)) (htype : h.op = 9)
    (hfind : ftFind u h.src h.msg = some e) :
    (e.st = .active → bit h.mlen 0 = true → exec .ftRxClose s = .next (ftRelease e (modRx h.src h.msg (fun e => { e with
      st := .aborted, since := u.tb.ticks, ackDue := none }) u))) ∧
    (e.st = .active → bit h.mlen 0 = false → exec .ftRxClose s = .next u) ∧
    (e.st = .done → exec .ftRxClose s = .next (modRx h.src h.msg (fun e => { e with close := some (h.time + ftMaxAge u * 1000) }) u)) ∧
    (e.st = .aborted → exec .ftRxClose s = .next (ftNak path h 6 u)) :=
  ⟨fun hst habort => (hexec htype).trans (congrArg _ ((closed_of_some hfind hst).trans (if_pos habort))),
    fun hst hkeep => (hexec htype).trans (congrArg _ ((closed_of_some hfind hst).trans (if_neg (ne_true_of_eq_false hkeep)))),
    fun hst => (hexec htype).trans (congrArg _ (closed_of_some hfind hst)),
    fun hst => (hexec htype).trans (congrArg _ (closed_of_some hfind hst))⟩

end

end

/-- Settles O57: the checks that every row makes, then each row on a packet that passes them, an ACK's effect on the message, and the timers of an
entry. That a slot or a DONE word that the tenant may not reach answers NAK 1, and that an RNR's interval is the packet's own, are the model's
choices (log entry 109). -/
theorem transport_Reception : Obligations.Transport_Reception := by
  unfold Obligations.Transport_Reception
  refine ⟨fun s p u fr rest b pay h path marked sum hrun hon hin hinc hh hpay hpath hp hu => ⟨fun c op hmem => ?_, fun hsum hgood hwait hage => ?_⟩,
    fun m pidx sack ticks => ⟨rfl, fun k => mem_held_ftAcked⟩, fun s src msg e hrun hfind => ⟨fun t => exec_ftAckTimer_of_due hrun hfind,
      fun t => exec_ftAckTimer_of_early hrun hfind, exec_ftEntryIdleAbort_of_idle hrun hfind, exec_ftEntryIdleAbort_of_early hrun hfind,
      fun hst => exec_ftEntryLinger_of_over hrun hfind (by obtain h | h := hst <;> rw [h] <;> exact nofun),
      fun hst => ⟨exec_ftEntryLinger_of_active hrun hfind hst, exec_ftCloseAgeExpiry_of_active hrun hfind hst⟩,
      fun t => exec_ftCloseAgeExpiry_of_over hrun hfind, fun t => exec_ftCloseAgeExpiry_of_early hrun hfind⟩⟩
  · obtain ⟨f, hrow⟩ := exists_handlesType hmem
    have hop : h.op = (ftHeader b).op := by rw [hh]
    have htime : h.time = (ftHeader b).time := by rw [hh]
    rw [hop, htime, hp]
    exact ⟨exec_row_of_bad hrun hon hin hinc hrow, exec_row_of_other hrun hon hin hinc hrow,
      fun a n hsum hgood htype hwait => exec_row_of_waiting hrun hon hin hinc hrow hsum hgood htype hwait,
      fun hsum hgood htype hwait hstale => exec_row_of_stale hrun hon hin hinc hrow hsum hgood htype hwait rfl hstale⟩
  · have hexec : ∀ {c op f}, HandlesType c op f → h.op = op → exec c s = .next (f pay h path u) := fun hrow htype =>
      exec_row hrun hon hin hinc hrow hsum hgood (by rw [← htype, hh]) hwait hp hh hpay hpath hu hage
    have hsender : ∀ {c op g}, HandlesType c op (toSender g) → ∀ {i m}, ftMine u h = some (i, m) → h.op = op → exec c s = .next (g i m pay h u) :=
      fun hrow _ _ hmine htype => (hexec hrow htype).trans (congrArg _ (toSender_of_some hmine))
    have hmessage : ∀ {c op}, (c, op) ∈ [(Instr.ftRxWrite, 1), (.ftRxSend, 4), (.ftRxAtomic, 5), (.ftRxSignal, 0x0A)] → h.op = op →
        exec c s = .next (ftMessage h path (admits op pay h path) (places op pay h path) u) := fun hmem =>
      hexec (handlesType_of_mem_messages hmem)
    refine ⟨fun c op hmem htype => ?_, fun hnew hroom => ?_,
      fun r htype hregion => (hexec handlesType_ftRxRead htype).trans (congrArg _ (answerRead_of_error hregion)),
      fun k htype hregion => (hexec handlesType_ftRxRead htype).trans (congrArg _ (answerRead_of_ok hregion)), fun c op hmem htype hnone => ?_,
      fun htype hbad => (hexec handlesType_ftRxNak htype).trans (congrArg _ (nakked_of_bad hbad)),
      fun htype hlow hhigh hnone => (hexec handlesType_ftRxNak htype).trans (congrArg _ ((nakked_of_reason hlow hhigh).trans (toSender_of_none hnone))),
      fun i m hmine => ?_, fun htype hnone => (hexec handlesType_ftRxClose htype).trans (congrArg _ (closed_of_none hnone)),
      fun e => exec_closed (hexec handlesType_ftRxClose)⟩
    · obtain ⟨hfull, haborted, hdone, hanswered⟩ := exec_message (hmessage hmem htype)
      refine ⟨hfull, haborted, hdone, hanswered, ?_⟩
      rintro e y v hentry rfl
      have hgo := exec_message_of_entry (hmessage hmem htype) hentry
      have hkind : op = 1 ∨ op = 4 ∨ op = 5 ∨ op = 0x0A := by
        simp only [List.mem_cons, Prod.mk.injEq, List.not_mem_nil, or_false] at hmem
        omega
      refine ⟨fun hdis => hgo.trans (congrArg _ (ftGo_of_disagrees htype hkind hdis)), fun hlen hmtu hop haddr hpkt hplen hwindow => ?_⟩
      have hagree := not_disagrees hlen hmtu hop haddr hpkt hplen hwindow
      exact ⟨fun hheld => hgo.trans (congrArg _ (ftGo_of_held htype hkind hagree hheld)), fun w a d x c hfresh =>
        exec_placed (hgo.trans (congrArg _ (ftGo_of_fresh htype hkind hagree hfresh)))⟩
    · have hwrite := hmessage (c := .ftRxWrite) (op := 1) (by simp)
      have hsend := hmessage (c := .ftRxSend) (op := 4) (by simp)
      have hatomic := hmessage (c := .ftRxAtomic) (op := 5) (by simp)
      have hsignal := hmessage (c := .ftRxSignal) (op := 0x0A) (by simp)
      refine ⟨fun r htype hregion => exec_refused hnew hroom (hwrite htype) (ftAdmitWrite_of_error hregion), fun k => ftAdmitWrite_of_ok,
        fun htype hnone => ?_, fun htype hbeyond => exec_refused hnew hroom (hsend htype) (ftAdmitSend_of_beyond hbeyond), fun r hlow hq => ?_,
        fun htype hform => exec_refused hnew hroom (hatomic htype) (ftAdmitAtomic_of_form hform), fun hlow hhigh hlen => ?_,
        fun htype hother => exec_refused hnew hroom (hsignal htype) (ftAdmitSignal_of_other hother), ftAdmitSignal_of_own⟩
      · exact exec_refused hnew hroom (hsend htype) (ftAdmitSend_of_unbound hnone)
      · refine ⟨fun htype hfixed hsrc => exec_refused hnew hroom (hsend htype) (ftAdmitSend_of_other_sender hlow hq hfixed hsrc),
          fun hsrc => ⟨fun htype hlong => ?_, exec_send_to_queue hnew hroom hsend hlow hq hsrc⟩⟩
        exact exec_refused hnew hroom (hsend htype) ((ftAdmitSend_of_sender hlow hq hsrc).trans (sendToQueue_of_long hlong))
      · exact ⟨fun r htype hregion => exec_refused hnew hroom (hatomic htype) (ftAdmitAtomic_of_error hlow hhigh hlen hregion),
          fun k => ftAdmitAtomic_of_ok hlow hhigh hlen⟩
    · simp only [List.mem_cons, Prod.mk.injEq, List.not_mem_nil, or_false] at hmem
      obtain ⟨rfl, rfl⟩ | ⟨rfl, rfl⟩ | ⟨rfl, rfl⟩ := hmem
      · exact (hexec handlesType_ftRxReadResp htype).trans (congrArg _ (toSender_of_none hnone))
      · exact (hexec handlesType_ftRxAtomicResp htype).trans (congrArg _ (toSender_of_none hnone))
      · exact (hexec handlesType_ftRxAck htype).trans (congrArg _ (toSender_of_none hnone))
    · obtain ⟨hread1, hread2⟩ := exec_readAnswered (hsender handlesType_ftRxReadResp hmine)
      obtain ⟨hatomic1, hatomic2, hatomic3, hatomic4⟩ := exec_atomicEnds (hsender handlesType_ftRxAtomicResp hmine)
      obtain ⟨hack1, hack2, hack3⟩ := exec_acknowledged (hsender handlesType_ftRxAck hmine)
      refine ⟨hread1, hread2, hatomic1, hatomic2, hatomic3, hatomic4, hack1, hack2, hack3, exec_refusedBy (pay := pay) fun htype hlow hhigh => ?_⟩
      exact (hexec handlesType_ftRxNak htype).trans (congrArg _ ((nakked_of_reason hlow hhigh).trans (toSender_of_some hmine)))

end Sys2Proof.Machine
end

section
/-! PROOFS. Storage queues, volumes and drives under command (R214, R216, R401, R403, R404, R416, R420). -/
namespace Sys2Proof.Machine

open Sys2Proof

section
variable {s u : State} {id i : Nat} {c : Cmd} {q : StoQ}

theorem need6_of_unmet {ok : Bool} {ty idx code : Nat} {k : State → State} (h : ok = false) :
    need6 ok c ty idx code k s = finish c.id 0x0201 (ty + idx * 256) code 0 0 s := if_neg (ne_true_of_eq_false h)

/-! ### SQ_CREATE and SQ_DELETE (R404) -/

section
variable (hi : i = 16 * c.fn + c.p 0)
include hi

/-- A queue of the tenant in device memory names the completion work queue already. -/
def sharesWorkQueue (s : State) (c : Cmd) : Bool :=
  (List.range 16).any fun j => (s.stoQ (16 * c.fn + j)).active && (s.stoQ (16 * c.fn + j)).ibc && (s.stoQ (16 * c.fn + j)).k == c.p 3

/-- SQ_CREATE of an ABSENT queue, by the form that its SQ chooses. -/
def queueMade (id i : Nat) (c : Cmd) (s : State) : State :=
  if c.p 2 = 0 then
    if sharesWorkQueue s c && strict s c.fn then finish0 id 0x0105 (varRefuse c.fn s)
    else finish0 id 0x0000 (s.setStoQ i { active := true, ibc := true, k := c.p 3 })
  else finish0 id 0x0000 (s.setStoQ i { active := true, sq := c.p 2, cq := c.p 3, vector := c.p 1 })

theorem exec_sqCreate (h : Ready s .sqCreate id c) (habsent : (s.stoQ i).active = false) :
    exec (.sqCreate id) s = .next (queueMade id i c s) := by
  subst hi
  show execSqCreate id s = _
  unfold execSqCreate
  rw [h.exec]
  exact congrArg _ (need6_of_met (by rw [habsent]; rfl))

theorem exec_sqCreate_of_active (h : Ready s .sqCreate id c) (hactive : (s.stoQ i).active = true) :
    exec (.sqCreate id) s = .next (finish id 0x0201 (0x0C + c.p 0 * 256) 1 0 0 s) := by
  subst hi
  show execSqCreate id s = _
  unfold execSqCreate
  rw [h.exec, ← h.id_eq]
  exact congrArg _ (need6_of_unmet (by rw [hactive]; rfl))

omit hi in
theorem queueMade_of_ring (hring : c.p 2 ≠ 0) :
    queueMade id i c s = finish0 id 0x0000 (s.setStoQ i { active := true, sq := c.p 2, cq := c.p 3, vector := c.p 1 }) := if_neg hring

omit hi in
theorem queueMade_of_memory (hmemory : c.p 2 = 0) (hfree : strict s c.fn = false ∨ sharesWorkQueue s c = false) :
    queueMade id i c s = finish0 id 0x0000 (s.setStoQ i { active := true, ibc := true, k := c.p 3 }) := by
  refine (if_pos hmemory).trans (if_neg ?_)
  obtain h | h := hfree <;> simp [h]

omit hi in
theorem queueMade_of_shared (hmemory : c.p 2 = 0) (hstrict : strict s c.fn = true) (hshared : sharesWorkQueue s c = true) :
    queueMade id i c s = finish0 id 0x0105 (varRefuse c.fn s) :=
  (if_pos hmemory).trans (if_pos (by rw [hshared, hstrict]; rfl))

omit hi in
theorem sharesWorkQueue_of_none (hnone : ∀ j, j < 16 → ¬ ((s.stoQ (16 * c.fn + j)).active = true ∧ (s.stoQ (16 * c.fn + j)).ibc = true ∧
    (s.stoQ (16 * c.fn + j)).k = c.p 3)) : sharesWorkQueue s c = false := by
  unfold sharesWorkQueue
  rw [List.any_eq_false]
  intro j hj hsame
  simp only [Bool.and_eq_true, beq_iff_eq, and_assoc] at hsame
  exact hnone j (List.mem_range.1 hj) hsame

omit hi in
theorem sharesWorkQueue_of_mem {j : Nat} (hj : j < 16) (hq : q = s.stoQ (16 * c.fn + j)) (hactive : q.active = true) (hibc : q.ibc = true)
    (hk : q.k = c.p 3) : sharesWorkQueue s c = true := by
  refine List.any_eq_true.2 ⟨j, List.mem_range.2 hj, ?_⟩
  rw [← hq, hactive, hibc, hk]
  exact beq_self_eq_true _

omit hi in
/-- A command of the queue has its tag outstanding. -/
def tagsOut (i : Nat) (s : State) : Bool := (stoTags s i).any (·.held)

omit hi in
theorem tagsOut_of_none (hnone : ∀ o ∈ s.sto.ops, o.for_ = .queue i → o.held = false) : tagsOut i s = false := by
  unfold tagsOut stoTags
  rw [List.any_eq_false]
  intro o hmem hheld
  rw [List.mem_filter, beq_iff_eq] at hmem
  exact absurd hheld (ne_true_of_eq_false (hnone o hmem.1 hmem.2))

omit hi in
theorem tagsOut_of_mem {o : StoOp} (hmem : o ∈ s.sto.ops) (hfor : o.for_ = .queue i) (hheld : o.held = true) : tagsOut i s = true :=
  List.any_eq_true.2 ⟨o, List.mem_filter.2 ⟨hmem, by rw [hfor]; exact beq_self_eq_true _⟩, hheld⟩

theorem exec_sqDelete (h : Ready s .sqDelete id c) (hactive : (s.stoQ i).active = true) (hfree : tagsOut i s = false) :
    exec (.sqDelete id) s = .next (finish0 id 0x0000 { s with
      sto := { s.sto with queues := tdel s.sto.queues i, ops := s.sto.ops.filter fun o => o.for_ != .queue i }
      net := { s.net with wq := tdel s.net.wq (256 + i) } }) := by
  subst hi
  show execSqDelete id s = _
  unfold execSqDelete
  rw [h.exec]
  refine congrArg _ (need6_of_met ?_)
  rw [hactive]
  exact congrArg not hfree

theorem exec_sqDelete_of_outstanding (h : Ready s .sqDelete id c) (hactive : (s.stoQ i).active = true) (hout : tagsOut i s = true) :
    exec (.sqDelete id) s = .next (finish id 0x0201 (0x0C + c.p 0 * 256) 1 0 0 s) := by
  subst hi
  show execSqDelete id s = _
  unfold execSqDelete
  rw [h.exec, ← h.id_eq]
  dsimp only
  rw [hactive]
  exact congrArg _ (need6_of_unmet (congrArg not hout))

theorem exec_sqDelete_of_absent (h : Ready s .sqDelete id c) (habsent : (s.stoQ i).active = false) :
    exec (.sqDelete id) s = .next (finish id 0x0201 (0x0C + c.p 0 * 256) 0 0 0 s) := by
  subst hi
  show execSqDelete id s = _
  unfold execSqDelete
  rw [h.exec, ← h.id_eq]
  dsimp only
  rw [habsent]
  exact congrArg _ (need6_of_unmet rfl)

end

/-! ### VOL_CREATE, VOL_DELETE and VOL_BIND (R401, R403) -/

/-- A job of the volume is under way. -/
def hasJob (v : Nat) (s : State) : Bool := s.sto.jobs.any (·.vol == v)

theorem hasJob_of_none {v : Nat} (hnone : ∀ j ∈ s.sto.jobs, j.vol ≠ v) : hasJob v s = false := by
  unfold hasJob
  rw [List.any_eq_false]
  intro j hmem heq
  exact hnone j hmem (beq_iff_eq.1 heq)

theorem hasJob_of_mem {v : Nat} (hsome : ∃ j ∈ s.sto.jobs, j.vol = v) : hasJob v s = true := by
  obtain ⟨j, hmem, heq⟩ := hsome
  exact List.any_eq_true.2 ⟨j, hmem, beq_iff_eq.2 heq⟩

/-- The volume is in state `st` and no job of it is under way. -/
theorem steady_of {v st : Nat} (hst : (s.vol v).st = st) (hfree : ∀ j ∈ s.sto.jobs, j.vol ≠ v) : ((s.vol v).st == st && !hasJob v s) = true := by
  rw [hst, hasJob_of_none hfree, beq_self_eq_true]
  rfl

theorem not_steady_of {v st : Nat} (h : (s.vol v).st ≠ st ∨ ∃ j ∈ s.sto.jobs, j.vol = v) : ((s.vol v).st == st && !hasJob v s) = false := by
  obtain hst | hjob := h
  · rw [beq_false_of_ne hst]
    rfl
  · rw [hasJob_of_mem hjob]
    exact Bool.and_false _

/-- The drive takes its share of a volume. -/
def mayHold (s : State) (c : Cmd) (d : Nat) : Bool :=
  (s.drive d).accepted && !(s.drive d).failed && decide (shareOf (c.p 1) (c.p 2) d ≤ extentLen (s.drive d).dm.free)

theorem mayHold_of {d : Nat} (haccepted : (s.drive d).accepted = true) (hfailed : (s.drive d).failed = false)
    (hfits : shareOf (c.p 1) (c.p 2) d ≤ extentLen (s.drive d).dm.free) : mayHold s c d = true := by
  unfold mayHold
  rw [haccepted, hfailed, decide_eq_true hfits]
  rfl

theorem not_mayHold_of {d : Nat} (h : (s.drive d).accepted = false ∨ (s.drive d).failed = true ∨
    extentLen (s.drive d).dm.free < shareOf (c.p 1) (c.p 2) d) : mayHold s c d = false := by
  unfold mayHold
  obtain h | h | h := h
  · rw [h]
    rfl
  · rw [h]
    exact congrArg (· && _) (Bool.and_false _)
  · rw [decide_eq_false (Nat.not_le.2 h), Bool.and_false]

section
variable (h : Ready s .volCreate id c)
include h

theorem exec_volCreate (hst : (s.vol (c.p 0)).st = 0) (hfree : ∀ j ∈ s.sto.jobs, j.vol ≠ c.p 0)
    (hdrives : ∀ d ∈ maskDrives (c.p 1), mayHold s c d = true)
    (hu : u = { s with sto := { s.sto with jobs := s.sto.jobs ++ [⟨id, c.p 0, c.p 1, c.p 2, true, (maskDrives (c.p 1)).length, false⟩] } }) :
    exec (.volCreate id) s = .next (stoRun (working id ((maskDrives (c.p 1)).foldl (fun s d => volTake id (c.p 0) (c.p 1) (c.p 2) d s) u))) := by
  subst hu
  show execVolCreate id s = _
  unfold execVolCreate
  rw [h.exec]
  refine congrArg _ ((need6_of_met (steady_of hst hfree)).trans (if_pos ?_))
  exact List.all_eq_true.2 hdrives

theorem exec_volCreate_of_missing {d : Nat} (hst : (s.vol (c.p 0)).st = 0) (hfree : ∀ j ∈ s.sto.jobs, j.vol ≠ c.p 0)
    (hd : d ∈ maskDrives (c.p 1)) (hmissing : mayHold s c d = false) : exec (.volCreate id) s = .next (finish0 id 0x0301 s) := by
  show execVolCreate id s = _
  unfold execVolCreate
  rw [h.exec]
  refine congrArg _ ((need6_of_met (steady_of hst hfree)).trans ((if_neg ?_).trans ?_))
  · exact fun hall => absurd (List.all_eq_true.1 hall d hd) (ne_true_of_eq_false hmissing)
  · rw [h.id_eq]
    rfl

theorem exec_volCreate_of_conflict (hunsteady : (s.vol (c.p 0)).st ≠ 0 ∨ ∃ j ∈ s.sto.jobs, j.vol = c.p 0) :
    exec (.volCreate id) s = .next (finish id 0x0201 (0x0D + c.p 0 * 256) (s.vol (c.p 0)).st 0 0 s) := by
  show execVolCreate id s = _
  unfold execVolCreate
  rw [h.exec]
  exact congrArg _ ((need6_of_unmet (not_steady_of hunsteady)).trans (by rw [h.id_eq]))

end

theorem volTake_eq {v mask n d : Nat} {x : Drive} {ext rest : List (Nat × Nat)} (hx : x = s.drive d)
    (htake : takeUnits (shareOf mask n d) x.dm.free = (ext, rest)) :
    volTake id v mask n d s = s.setDrive d { x with dm := { x.dm with free := rest }, todo := x.todo ++ [.vol id (.create v mask n ext)] } := by
  subst hx
  unfold volTake
  dsimp only
  rw [htake]

section
variable (h : Ready s .volDelete id c)
include h

theorem exec_volDelete {v : Vol} {ds : List Nat} (hv : v = s.vol (c.p 0)) (hst : v.st = 1) (hfree : ∀ j ∈ s.sto.jobs, j.vol ≠ c.p 0)
    (hds : ds = (maskDrives v.mask).filter fun d => (s.drive d).accepted && !(s.drive d).failed)
    (hu : u = { s with sto := { s.sto with jobs := s.sto.jobs ++ [⟨id, c.p 0, v.mask, v.blocks, false, ds.length, false⟩] } }) :
    exec (.volDelete id) s = .next (endJob id (stoRun (working id (ds.foldl (fun s d =>
      s.setDrive d { s.drive d with todo := (s.drive d).todo ++ [.vol id (.delete (c.p 0))] }) u)))) := by
  subst hu hds hv
  show execVolDelete id s = _
  unfold execVolDelete
  rw [h.exec]
  exact congrArg _ (need6_of_met (steady_of hst hfree))

theorem exec_volDelete_of_conflict (hunsteady : (s.vol (c.p 0)).st ≠ 1 ∨ ∃ j ∈ s.sto.jobs, j.vol = c.p 0) :
    exec (.volDelete id) s = .next (finish id 0x0201 (0x0D + c.p 0 * 256) (s.vol (c.p 0)).st 0 0 s) := by
  show execVolDelete id s = _
  unfold execVolDelete
  rw [h.exec]
  exact congrArg _ ((need6_of_unmet (not_steady_of hunsteady)).trans (by rw [h.id_eq]))

end

theorem volBusy_of_none {v : Nat} (hnone : ∀ o ∈ s.sto.ops, o.vol = v → o.held = true → o.for_ = .gone) : volBusy s v = false := by
  unfold volBusy
  rw [List.any_eq_false]
  intro o hmem hbusy
  rw [Bool.and_eq_true, Bool.and_eq_true, beq_iff_eq, bne_iff_ne] at hbusy
  obtain ⟨⟨hvol, hheld⟩, hfor⟩ := hbusy
  exact hfor (hnone o hmem hvol hheld)

theorem volBusy_of_mem {v : Nat} (hsome : ∃ o ∈ s.sto.ops, o.vol = v ∧ o.held = true ∧ o.for_ ≠ .gone) : volBusy s v = true := by
  obtain ⟨o, hmem, hvol, hheld, hfor⟩ := hsome
  refine List.any_eq_true.2 ⟨o, hmem, ?_⟩
  rw [hvol, hheld, beq_self_eq_true, bne_iff_ne.2 hfor]
  rfl

section
variable {v : Vol} (h : Ready s .volBind id c) (hv : v = s.vol (c.p 0))
include h hv

section
variable (hbind : c.p 1 ≠ 0xFF)
include hbind

theorem exec_volBind (hst : v.st = 1) (hfree : ∀ j ∈ s.sto.jobs, j.vol ≠ c.p 0) : exec (.volBind id) s =
    .next (finish0 id 0x0000 (stoRun (allPower (s.setVol (c.p 0) { v with st := 2, tenant := c.p 1, preq := none })))) := by
  subst hv
  show execVolBind id s = _
  unfold execVolBind
  rw [h.exec]
  exact congrArg _ ((if_neg hbind).trans (need6_of_met (steady_of hst hfree)))

theorem exec_volBind_of_conflict (hunsteady : v.st ≠ 1 ∨ ∃ j ∈ s.sto.jobs, j.vol = c.p 0) :
    exec (.volBind id) s = .next (finish id 0x0201 (0x0D + c.p 0 * 256) v.st 0 0 s) := by
  subst hv
  show execVolBind id s = _
  unfold execVolBind
  rw [h.exec]
  exact congrArg _ ((if_neg hbind).trans ((need6_of_unmet (not_steady_of hunsteady)).trans (by rw [h.id_eq])))

end

section
variable (hunbind : c.p 1 = 0xFF)
include hunbind

theorem exec_volUnbind (hst : v.st = 2) (hfree : ∀ o ∈ s.sto.ops, o.vol = c.p 0 → o.held = true → o.for_ = .gone) : exec (.volBind id) s =
    .next (finish0 id 0x0000 (stoRun (allPower (s.setVol (c.p 0) { v with st := 1, tenant := 0, preq := none })))) := by
  subst hv
  show execVolBind id s = _
  unfold execVolBind
  rw [h.exec]
  refine congrArg _ ((if_pos hunbind).trans (need6_of_met ?_))
  rw [hst, volBusy_of_none hfree]
  rfl

theorem exec_volUnbind_of_conflict (hbusy : v.st ≠ 2 ∨ ∃ o ∈ s.sto.ops, o.vol = c.p 0 ∧ o.held = true ∧ o.for_ ≠ .gone) :
    exec (.volBind id) s = .next (finish id 0x0201 (0x0D + c.p 0 * 256) v.st 0 0 s) := by
  subst hv
  show execVolBind id s = _
  unfold execVolBind
  rw [h.exec]
  refine congrArg _ ((if_pos hunbind).trans ((need6_of_unmet ?_).trans (by rw [h.id_eq])))
  obtain hst | hop := hbusy
  · rw [beq_false_of_ne hst]
    rfl
  · rw [volBusy_of_mem hop]
    exact Bool.and_false _

end
end

/-! ### DRIVE_INFO (R420) -/

section
variable (h : Ready s .driveInfo id c)
include h

theorem exec_driveInfo_of_absent (habsent : (s.drive (c.p 0)).id = none) :
    exec (.driveInfo id) s = .next (finish id 0x0201 (0x15 + c.p 0 * 256) (driveCode s (c.p 0)) 0 0 s) := by
  show execDriveInfo id s = _
  unfold execDriveInfo
  rw [h.exec]
  rw [habsent]
  rfl

variable {x : DriveId} (hpresent : (s.drive (c.p 0)).id = some x)
include hpresent

theorem exec_driveInfo_of_written {r : Unit} (hwrite : hostWrite s c.fn (c.p 1) (fit 4096 x.ident) = (u, .ok r)) :
    exec (.driveInfo id) s = .next (finish0 id 0x0000 u) := by
  show execDriveInfo id s = _
  unfold execDriveInfo
  rw [h.exec]
  rw [hpresent]
  dsimp only
  rw [hwrite]
  rfl

theorem exec_driveInfo_of_error {r : HErr} (hwrite : hostWrite s c.fn (c.p 1) (fit 4096 x.ident) = (u, .error r)) :
    exec (.driveInfo id) s = .next (if r = .wait then u else finish0 id 0x0601 u) := by
  show execDriveInfo id s = _
  unfold execDriveInfo
  rw [h.exec]
  rw [hpresent]
  dsimp only
  rw [hwrite]
  rfl

end

/-! ### Doorbells and CTRL of a drive (R404, R416) -/

section
variable {who k d : Nat} {val : Word} (hrun : s.power.running = true) (hworld : tget 0 s.own.devs 0x0E ≠ 0) (hwho : who < 18)
include hrun hworld hwho

section
variable (hk : k < 256)
include hk

/-- The effect of a doorbell that the writer may ring. -/
def stoRung (k w : Nat) (val : Word) (s : State) : State :=
  if 32 ≤ val.toNat ∨ (s.stoQ k).active = false ∨ (s.stoQ k).ibc = true then sticky (some (k / 16)) .stoTenErr (k / 16) 0 1 s
  else if w = 0 then s.setStoQ k { s.stoQ k with tail := val.toNat }
  else stoRun (s.setStoQ k { s.stoQ k with used := ((s.stoQ k).cqTail + 32 - val.toNat) % 32 })

variable {w : Nat} (hw : w < 2)
include hw

theorem exec_stoDoorbellWrite (hmine : who = k / 16 ∨ 16 ≤ who) : exec (.stoDoorbellWrite who k w val) s = .next (stoRung k w val s) := by
  have hinstances : (decide (who < 19) && decide (k < 256) && decide (w < 2)) = true := by
    rw [decide_eq_true (by omega : who < 19), decide_eq_true hk, decide_eq_true hw]
    rfl
  have hmay : (decide (16 ≤ who) || who == k / 16) = true := by
    rw [Bool.or_eq_true, decide_eq_true_iff, beq_iff_eq]
    exact hmine.symm
  exact (run_next hinstances hrun).trans (congrArg _ ((devInst_of_allowed (.inr hworld)).trans (onlyIf_true hmay)))

theorem exec_stoDoorbellWrite_of_other (htenant : who < 16) (hother : who ≠ k / 16) : exec (.stoDoorbellWrite who k w val) s = .next s := by
  have hinstances : (decide (who < 19) && decide (k < 256) && decide (w < 2)) = true := by
    rw [decide_eq_true (by omega : who < 19), decide_eq_true hk, decide_eq_true hw]
    rfl
  have hmay : (decide (16 ≤ who) || who == k / 16) = false := by
    rw [decide_eq_false (by omega), beq_false_of_ne hother]
    rfl
  exact (run_next hinstances hrun).trans (congrArg _ ((devInst_of_allowed (.inr hworld)).trans (onlyIf_false hmay)))

end

section
variable (hactive : (s.stoQ k).active = true) (hring : (s.stoQ k).ibc = false) (hval : val.toNat < 32)
include hactive hring hval

omit hrun hworld hwho in
theorem stoRung_of_good {w : Nat} : stoRung k w val s = if w = 0 then s.setStoQ k { s.stoQ k with tail := val.toNat }
    else stoRun (s.setStoQ k { s.stoQ k with used := ((s.stoQ k).cqTail + 32 - val.toNat) % 32 }) :=
  if_neg (by rw [hactive, hring]; simpa using hval)

end

omit hrun hworld hwho in
theorem stoRung_of_bad {w : Nat} (hbad : (s.stoQ k).active = false ∨ (s.stoQ k).ibc = true ∨ 32 ≤ val.toNat) :
    stoRung k w val s = sticky (some (k / 16)) .stoTenErr (k / 16) 0 1 s := if_pos (by
    rcases hbad with hidle | hibc | hval
    · exact .inr (.inl hidle)
    · exact .inr (.inr hibc)
    · exact .inl hval)

section
variable (hd : d < 4)
include hd

theorem exec_apstWrite_of_tenant (htenant : who < 16) : exec (.apstWrite who d val) s = .next s := by
  have hinstances : (decide (who < 19) && decide (d < 4)) = true := by rw [decide_eq_true (by omega : who < 19), decide_eq_true hd]; rfl
  exact (run_next hinstances hrun).trans (congrArg _ ((devInst_of_allowed (.inr hworld)).trans (onlyIf_false (decide_eq_false (by omega)))))

/-- The effect of CTRL on its drive, once the register holds it. -/
def apstApplied (d : Nat) (val : Word) (s : State) : State :=
  if !(s.drive d).accepted || (s.drive d).failed then s
  else if bit val.toNat 0 then stoRun (s.setDrive d { s.drive d with todo := (s.drive d).todo ++ [.apst] })
  else stoRun (drivePower d s)

theorem exec_apstWrite (hmay : 16 ≤ who) : exec (.apstWrite who d val) s = .next (apstApplied d val (s.setReg .driveCtrl d 0 (bits val.toNat 0 0))) := by
  have hinstances : (decide (who < 19) && decide (d < 4)) = true := by rw [decide_eq_true (by omega : who < 19), decide_eq_true hd]; rfl
  exact (run_next hinstances hrun).trans (congrArg _ ((devInst_of_allowed (.inr hworld)).trans (onlyIf_true (decide_eq_true hmay))))

end

omit hrun hworld hwho in
theorem apstApplied_of_out (hout : (s.drive d).accepted = false ∨ (s.drive d).failed = true) : apstApplied d val s = s := by
  refine if_pos ?_
  obtain h | h := hout <;> simp [h]

omit hrun hworld hwho in
theorem apstApplied_of_in (haccepted : (s.drive d).accepted = true) (hfailed : (s.drive d).failed = false) :
    apstApplied d val s = if bit val.toNat 0 then stoRun (s.setDrive d { s.drive d with todo := (s.drive d).todo ++ [.apst] })
      else stoRun (drivePower d s) :=
  if_neg (by rw [haccepted, hfailed]; exact Bool.false_ne_true)

end
end

/-! ### The commands together -/

section
variable {s u : State} {id : Nat} {c : Cmd}

theorem exec_queueCommands {i : Nat} {q : StoQ} (hi : i = 16 * c.fn + c.p 0) :
    (Ready s .sqCreate id c → (s.stoQ i).active = false → c.p 2 ≠ 0 → exec (.sqCreate id) s = .next (finish0 id 0x0000 (s.setStoQ i
      { active := true, sq := c.p 2, cq := c.p 3, vector := c.p 1 }))) ∧
    (Ready s .sqCreate id c → (s.stoQ i).active = false → c.p 2 = 0 → strict s c.fn = false ∨
        (∀ j, j < 16 → ¬ ((s.stoQ (16 * c.fn + j)).active = true ∧ (s.stoQ (16 * c.fn + j)).ibc = true ∧ (s.stoQ (16 * c.fn + j)).k = c.p 3)) →
      exec (.sqCreate id) s = .next (finish0 id 0x0000 (s.setStoQ i
        { active := true, ibc := true, k := c.p 3 }))) ∧
    (∀ j, Ready s .sqCreate id c → (s.stoQ i).active = false → c.p 2 = 0 → strict s c.fn = true → j < 16 → q = s.stoQ (16 * c.fn + j) →
      q.active = true → q.ibc = true → q.k = c.p 3 → exec (.sqCreate id) s = .next (finish0 id 0x0105 (varRefuse c.fn s))) ∧
    (Ready s .sqCreate id c → (s.stoQ i).active = true → exec (.sqCreate id) s = .next (finish id 0x0201 (0x0C + c.p 0 * 256) 1 0 0 s)) ∧
    (Ready s .sqDelete id c → (s.stoQ i).active = true → (∀ o ∈ s.sto.ops, o.for_ = .queue i → o.held = false) →
      exec (.sqDelete id) s = .next (finish0 id 0x0000 { s with
        sto := { s.sto with queues := tdel s.sto.queues i, ops := s.sto.ops.filter fun o => o.for_ != .queue i }
        net := { s.net with wq := tdel s.net.wq (256 + i) } })) ∧
    (∀ o, Ready s .sqDelete id c → (s.stoQ i).active = true → o ∈ s.sto.ops → o.for_ = .queue i → o.held = true →
      exec (.sqDelete id) s = .next (finish id 0x0201 (0x0C + c.p 0 * 256) 1 0 0 s)) ∧
    (Ready s .sqDelete id c → (s.stoQ i).active = false → exec (.sqDelete id) s = .next (finish id 0x0201 (0x0C + c.p 0 * 256) 0 0 0 s)) := by
  refine ⟨fun h habsent hring => (exec_sqCreate hi h habsent).trans (congrArg _ (queueMade_of_ring hring)), fun h habsent hmemory hfree => ?_,
    fun j h habsent hmemory hstrict hj hq hactive hibc hk => ?_, exec_sqCreate_of_active hi,
    fun h hactive hfree => exec_sqDelete hi h hactive (tagsOut_of_none hfree),
    fun o h hactive hmem hfor hheld => exec_sqDelete_of_outstanding hi h hactive (tagsOut_of_mem hmem hfor hheld), exec_sqDelete_of_absent hi⟩
  · exact (exec_sqCreate hi h habsent).trans (congrArg _ (queueMade_of_memory hmemory (hfree.imp_right sharesWorkQueue_of_none)))
  · exact (exec_sqCreate hi h habsent).trans
      (congrArg _ (queueMade_of_shared hmemory hstrict (sharesWorkQueue_of_mem hj hq hactive hibc hk)))

theorem exec_stoDoorbells {q : StoQ} {who k : Nat} {val : Word} (hrun : s.power.running = true) (hworld : tget 0 s.own.devs 0x0E ≠ 0)
    (hwho : who < 18) (hk : k < 256) (hq : q = s.stoQ k) :
    (who = k / 16 ∨ 16 ≤ who → q.active = true → q.ibc = false → val.toNat < 32 →
      exec (.stoDoorbellWrite who k 0 val) s = .next (s.setStoQ k { q with tail := val.toNat }) ∧
      exec (.stoDoorbellWrite who k 1 val) s = .next (stoRun (s.setStoQ k { q with used := (q.cqTail + 32 - val.toNat) % 32 }))) ∧
    (∀ w, w < 2 → who = k / 16 ∨ 16 ≤ who → q.active = false ∨ q.ibc = true ∨ 32 ≤ val.toNat →
      exec (.stoDoorbellWrite who k w val) s = .next (sticky (some (k / 16)) .stoTenErr (k / 16) 0 1 s)) ∧
    (∀ w, w < 2 → who < 16 → who ≠ k / 16 → exec (.stoDoorbellWrite who k w val) s = .next s) := by
  subst hq
  refine ⟨fun hmay hactive hring hval => ⟨?_, ?_⟩, fun w hw hmay hbad => ?_, fun w hw => exec_stoDoorbellWrite_of_other hrun hworld hwho hk hw⟩
  · rw [exec_stoDoorbellWrite hrun hworld hwho hk (by decide) hmay, stoRung_of_good hactive hring hval, if_pos rfl]
  · rw [exec_stoDoorbellWrite hrun hworld hwho hk (by decide) hmay, stoRung_of_good hactive hring hval, if_neg (by decide)]
  · rw [exec_stoDoorbellWrite hrun hworld hwho hk hw hmay, stoRung_of_bad hbad]

theorem exec_driveCtrl {who d : Nat} {val : Word} (hrun : s.power.running = true) (hworld : tget 0 s.own.devs 0x0E ≠ 0) (hwho : who < 18) (hd : d < 4)
    (hmay : 16 ≤ who) (hu : u = s.setReg .driveCtrl d 0 (bits val.toNat 0 0)) :
    ((s.drive d).accepted = false ∨ (s.drive d).failed = true → exec (.apstWrite who d val) s = .next u) ∧
    ((s.drive d).accepted = true → (s.drive d).failed = false → bit val.toNat 0 = true →
      exec (.apstWrite who d val) s = .next (stoRun (u.setDrive d { s.drive d with todo := (s.drive d).todo ++ [.apst] }))) ∧
    ((s.drive d).accepted = true → (s.drive d).failed = false → bit val.toNat 0 = false →
      exec (.apstWrite who d val) s = .next (stoRun (drivePower d u))) := by
  have hdrive : u.drive d = s.drive d := by rw [hu]; rfl
  rw [exec_apstWrite hrun hworld hwho hd hmay, ← hu, ← hdrive]
  refine ⟨fun hout => congrArg _ (apstApplied_of_out hout), fun haccepted hfailed hbit => ?_, fun haccepted hfailed hbit => ?_⟩
  · rw [apstApplied_of_in haccepted hfailed, hbit, if_pos rfl]
  · rw [apstApplied_of_in haccepted hfailed, hbit, if_neg Bool.false_ne_true]

end

/-- Settles O58: each command by the state of the object that it names. That DRIVE_INFO of an absent drive answers STATE_CONFLICT with object type
0x15 is the model's choice (log entry 43). -/
theorem storage_Control : Obligations.Storage_Control := by
  unfold Obligations.Storage_Control
  refine fun s u id c i q v => ⟨exec_queueCommands, fun ds hds h hst hfree => ⟨fun hdrives hu => ?_, fun d hd hmissing => ?_⟩,
    fun d n x rest ext => volTake_eq, fun hv => ⟨?_, ?_, fun ds h hst hfree => exec_volDelete h hv hst hfree, fun h => exec_volBind h hv,
      fun h => exec_volBind_of_conflict h hv, fun h => exec_volUnbind h hv, fun h => exec_volUnbind_of_conflict h hv⟩,
    exec_driveInfo_of_absent, fun x h hpresent => ⟨fun r => exec_driveInfo_of_written h hpresent, fun r => exec_driveInfo_of_error h hpresent⟩,
    fun who k val hrun hworld hwho hk hq => exec_stoDoorbells hrun hworld hwho hk hq,
    fun who d val hrun hworld hwho hd => ⟨exec_driveCtrl hrun hworld hwho hd, exec_apstWrite_of_tenant hrun hworld hwho hd⟩⟩
  · subst hds
    refine exec_volCreate h hst hfree (fun d hd => ?_) hu
    obtain ⟨haccepted, hfailed, hfits⟩ := hdrives d hd
    exact mayHold_of haccepted hfailed hfits
  · subst hds
    exact exec_volCreate_of_missing h hst hfree hd (not_mayHold_of hmissing)
  · subst hv
    exact exec_volCreate_of_conflict
  · subst hv
    exact exec_volDelete_of_conflict

end Sys2Proof.Machine
end

section
/-! PROOFS. The storage service and the NVMe drives (R399, R400, R405, R406, R408, R410, R415). -/
namespace Sys2Proof.Machine

open Sys2Proof

/-! ### Takes (R405) -/

section
variable {s u : State} {c : Instr} {op i : Nat} {e : Bytes} {q : StoQ}

/-- The command `c` is the row of the entries of operation `op`. -/
def TakesOp (c : Instr) (op : Nat) : Prop := ∀ s, exec c s = run true s (stoTake op)

theorem takesOp_of_mem (hmem : (c, op) ∈ [(Instr.stoRead, 1), (.stoWrite, 2), (.stoFlush, 3), (.stoTrim, 4), (.stoAtomicWrite, 5), (.stoSelfTest, 6),
    (.stoPower, 7)]) : TakesOp c op := by
  simp only [List.mem_cons, Prod.mk.injEq, List.not_mem_nil, or_false] at hmem
  obtain ⟨rfl, rfl⟩ | ⟨rfl, rfl⟩ | ⟨rfl, rfl⟩ | ⟨rfl, rfl⟩ | ⟨rfl, rfl⟩ | ⟨rfl, rfl⟩ | ⟨rfl, rfl⟩ := hmem <;> exact fun _ => rfl

/-- The entry at the head of queue `i` leaves its queue and is taken. -/
def headTaken (i : Nat) (e : Bytes) (u : State) : State :=
  if (u.stoQ i).ibc then stoRun (stoTakeEntry i e (u.setWq (256 + i) ((u.wq (256 + i)).drop 1)))
  else if (hostCells u (fnPort u (i / 16)) ((u.stoQ i).sq + 64 * (u.stoQ i).head) 64).contains .bad then
    sticky (some (i / 16)) .stoTenErr (i / 16) 0 2 (u.setStoQ i { u.stoQ i with failed := true })
  else stoRun (stoTakeEntry i e (u.setStoQ i { u.stoQ i with head := ((u.stoQ i).head + 1) % 32 }))

section
variable (hrow : TakesOp c op) (hrun : s.power.running = true) (hask : u = stoAsk s)
include hrow hrun hask

theorem exec_take_of_none (hnone : stoNext u = none) : exec c s = .next (stoWake u) := by
  subst hask
  rw [hrow s, run_next rfl hrun]
  unfold stoTake
  dsimp only
  rw [hnone]

variable (hnext : stoNext u = some i) (he : e = headEntry u i)
include hnext he

theorem exec_take_of_other (hother : fld e 0 1 ≠ op) (hlow : 1 ≤ fld e 0 1) (hhigh : fld e 0 1 ≤ 7) : exec c s = .next u := by
  subst hask he
  rw [hrow s, run_next rfl hrun]
  unfold stoTake
  dsimp only
  rw [hnext]
  refine congrArg _ (if_neg ?_)
  omega

theorem exec_take (hmine : fld e 0 1 = op ∨ fld e 0 1 = 0 ∨ 7 < fld e 0 1) : exec c s = .next (headTaken i e u) := by
  subst hask he
  rw [hrow s, run_next rfl hrun]
  unfold stoTake
  dsimp only
  rw [hnext]
  exact congrArg _ (if_pos hmine)

end

variable (hq : q = u.stoQ i)
include hq

theorem headTaken_of_memory (hibc : q.ibc = true) :
    headTaken i e u = stoRun (stoTakeEntry i e (u.setWq (256 + i) ((u.wq (256 + i)).drop 1))) := if_pos (hq ▸ hibc)

variable (hring : q.ibc = false)
include hring

theorem headTaken_of_bad (hbad : .bad ∈ hostCells u (fnPort u (i / 16)) (q.sq + 64 * q.head) 64) :
    headTaken i e u = sticky (some (i / 16)) .stoTenErr (i / 16) 0 2 (u.setStoQ i { q with failed := true }) := by
  subst hq
  exact (if_neg (ne_true_of_eq_false hring)).trans (if_pos (List.contains_iff_mem.2 hbad))

theorem headTaken_of_ring (hgood : .bad ∉ hostCells u (fnPort u (i / 16)) (q.sq + 64 * q.head) 64) :
    headTaken i e u = stoRun (stoTakeEntry i e (u.setStoQ i { q with head := (q.head + 1) % 32 })) := by
  subst hq
  exact (if_neg (ne_true_of_eq_false hring)).trans (if_neg fun hbad => hgood (List.contains_iff_mem.1 hbad))

end

/-! ### The checks of an entry that is taken (R405, R406) -/

section
variable {s y z : State} {i : Nat} {e : Bytes} {o p : StoOp} {v : Vol} {xl : Xl}

/-- The command that an entry asks for, before its checks. -/
def entryOp (i : Nat) (e : Bytes) (s : State) : StoOp :=
  { take := s.sto.take, for_ := .queue i, held := false, op := fld e 0 1, tag := fld e 2 1, ended := true }

/-- A take number is given to queue `i`. -/
def takeNumbered (i : Nat) (s : State) : State := { s with sto := { s.sto with take := s.sto.take + 1, lastQ := i } }

/-- The command holds its tag, with what its entry says of its blocks, buffer and signal. -/
def heldOp (o : StoOp) (e : Bytes) (xl : Xl) : StoOp :=
  { o with
    held := true, ended := false, vol := fld e 4 2, lba := fld e 8 8, count := fld e 16 4, buf := fld e 24 8
    sig := if fld e 20 4 = 0 then none else some (xl, bits (fld e 20 4) 31 24) }

/-- The entry's volume is BOUND to the queue's tenant. -/
def entryBound (i : Nat) (e : Bytes) (y : State) : Bool := (y.vol (fld e 4 2)).st == 2 && (y.vol (fld e 4 2)).tenant == i / 16

/-- The checks after the buffer's: the signal's counter, the tag, and the counter's translation. -/
def entryReached (i : Nat) (e : Bytes) (o : StoOp) (z : State) (xl : Xl) : State :=
  if !(fld e 20 4 == 0 || xl != .none) then stoAdd { o with st := 0x0501 } (addrDenied (tenReq (i / 16) 0x212) z)
  else if (stoTags z i).any fun x => x.held && x.tag == o.tag then stoAdd { o with st := 0x0201, r0 := 0x14 + o.tag * 256, r1 := 1 } z
  else if fld e 20 4 ≠ 0 ∧ xl = .ue then stoAdd { o with st := 0x0401 } (z.orReg .syncErr 0 0 16)
  else stoStart (i / 16) (heldOp o e xl) e (stoAdd (heldOp o e xl) z)

/-- The test of the entry's volume and buffer. -/
def entryReach (i : Nat) (e : Bytes) (bound : Bool) (y : State) : Bool × State :=
  if !bound then (false, addrDenied (tenReq (i / 16) 0x212) y)
  else if fld e 0 1 = 1 ∨ fld e 0 1 = 2 ∨ fld e 0 1 = 5 then mayReach (i / 16) (fld e 24 8) (fld e 16 4 * 4096) (fld e 0 1 == 1) 0x212 y
  else (true, y)

/-- What follows the test of the entry's volume and buffer. -/
def entryTested (i : Nat) (e : Bytes) (o : StoOp) (bound ok : Bool) (z : State) : State :=
  if !ok then stoAdd { o with st := if bound then refusedSt z (tenReq (i / 16) 0x212) (fld e 24 8) (fld e 16 4 * 4096) else 0x0501 } z
  else entryReached i e o z (translateFor z (i / 16 + 1) (fnBind z (i / 16)) (bits (fld e 20 4) 23 0))

/-- The checks of an entry whose form is good. -/
def entryFormed (i : Nat) (e : Bytes) (o : StoOp) (y : State) : State :=
  let (ok, z) := entryReach i e (entryBound i e y) y
  entryTested i e o (entryBound i e y) ok z

/-- An entry's form decides what its checks are. -/
def entryByForm (i : Nat) (e : Bytes) (o : StoOp) (y : State) : Option (Nat × Nat) → State
  | some (st, r0) => stoAdd { o with st := st, r0 := r0 } y
  | none => entryFormed i e o y

theorem stoTakeEntry_eq : stoTakeEntry i e s = if fld e 0 1 = 0 ∨ 7 < fld e 0 1 then stoAdd { entryOp i e s with st := 0x0101 } (takeNumbered i s)
    else entryByForm i e (entryOp i e s) (takeNumbered i s) (stoForm (takeNumbered i s) e) := rfl

theorem stoTakeEntry_of_opcode (hop : fld e 0 1 = 0 ∨ 7 < fld e 0 1) :
    stoTakeEntry i e s = stoAdd { entryOp i e s with st := 0x0101 } (takeNumbered i s) := if_pos hop

section
variable (hlow : 1 ≤ fld e 0 1) (hhigh : fld e 0 1 ≤ 7)
include hlow hhigh

theorem stoTakeEntry_of_known :
    stoTakeEntry i e s = entryByForm i e (entryOp i e s) (takeNumbered i s) (stoForm (takeNumbered i s) e) := by
  rw [stoTakeEntry_eq, if_neg (by omega)]

theorem stoTakeEntry_of_form {st r0 : Nat} (hform : stoForm (takeNumbered i s) e = some (st, r0)) :
    stoTakeEntry i e s = stoAdd { entryOp i e s with st := st, r0 := r0 } (takeNumbered i s) := by
  rw [stoTakeEntry_of_known hlow hhigh, hform]
  rfl

theorem stoTakeEntry_of_formed (hform : stoForm (takeNumbered i s) e = none) :
    stoTakeEntry i e s = entryFormed i e (entryOp i e s) (takeNumbered i s) := by
  rw [stoTakeEntry_of_known hlow hhigh, hform]
  rfl

end

theorem entryFormed_of_unbound (hv : v = y.vol (fld e 4 2)) (hunbound : v.st ≠ 2 ∨ v.tenant ≠ i / 16) :
    entryFormed i e o y = stoAdd { o with st := 0x0501 } (addrDenied (tenReq (i / 16) 0x212) y) := by
  have hbound : entryBound i e y = false := by
    unfold entryBound
    rw [← hv, Bool.and_eq_false_iff, beq_eq_false_iff_ne, beq_eq_false_iff_ne]
    exact hunbound
  unfold entryFormed
  rw [hbound]
  rfl

theorem entryFormed_of_bound {ok : Bool} (hv : v = y.vol (fld e 4 2)) (hst : v.st = 2) (htenant : v.tenant = i / 16)
    (hreach : (if fld e 0 1 = 1 ∨ fld e 0 1 = 2 ∨ fld e 0 1 = 5 then
      mayReach (i / 16) (fld e 24 8) (fld e 16 4 * 4096) (fld e 0 1 == 1) 0x212 y else (true, y)) = (ok, z)) :
    entryFormed i e o y = entryTested i e o true ok z := by
  have hbound : entryBound i e y = true := by
    unfold entryBound
    rw [← hv, hst, htenant, beq_self_eq_true, beq_self_eq_true]
    rfl
  have htest : entryReach i e true y = (ok, z) := hreach
  unfold entryFormed
  rw [hbound, htest]

theorem entryReached_of_counter (hsync : fld e 20 4 ≠ 0) (hnone : xl = .none) :
    entryReached i e o z xl = stoAdd { o with st := 0x0501 } (addrDenied (tenReq (i / 16) 0x212) z) := by
  refine if_pos ?_
  rw [beq_false_of_ne hsync, hnone]
  rfl

section
variable (hsync : fld e 20 4 = 0 ∨ xl ≠ .none)
include hsync

theorem entryReached_of_counted : entryReached i e o z xl =
    if (stoTags z i).any fun x => x.held && x.tag == o.tag then stoAdd { o with st := 0x0201, r0 := 0x14 + o.tag * 256, r1 := 1 } z
    else if fld e 20 4 ≠ 0 ∧ xl = .ue then stoAdd { o with st := 0x0401 } (z.orReg .syncErr 0 0 16)
    else stoStart (i / 16) (heldOp o e xl) e (stoAdd (heldOp o e xl) z) := by
  refine if_neg ?_
  rw [Bool.not_eq_true, Bool.not_eq_false', Bool.or_eq_true, beq_iff_eq, bne_iff_ne]
  exact hsync

theorem entryReached_of_tag {x : StoOp} (hmem : x ∈ z.sto.ops) (hfor : x.for_ = .queue i) (hheld : x.held = true) (htag : x.tag = o.tag) :
    entryReached i e o z xl = stoAdd { o with st := 0x0201, r0 := 0x14 + o.tag * 256, r1 := 1 } z := by
  refine (entryReached_of_counted hsync).trans (if_pos (List.any_eq_true.2 ⟨x, List.mem_filter.2 ⟨hmem, ?_⟩, ?_⟩))
  · rw [hfor]
    exact beq_self_eq_true _
  · rw [hheld, htag]
    exact beq_self_eq_true _

variable (hfree : ∀ x ∈ z.sto.ops, x.for_ = .queue i → x.held = true → x.tag ≠ o.tag)
include hfree

theorem entryReached_of_free : entryReached i e o z xl =
    if fld e 20 4 ≠ 0 ∧ xl = .ue then stoAdd { o with st := 0x0401 } (z.orReg .syncErr 0 0 16)
    else stoStart (i / 16) (heldOp o e xl) e (stoAdd (heldOp o e xl) z) := by
  refine (entryReached_of_counted hsync).trans (if_neg fun hany => ?_)
  obtain ⟨x, hmem, hsame⟩ := List.any_eq_true.1 hany
  rw [stoTags, List.mem_filter, beq_iff_eq] at hmem
  rw [Bool.and_eq_true, beq_iff_eq] at hsame
  exact hfree x hmem.1 hmem.2 hsame.1 hsame.2

theorem entryReached_of_ue (hue : fld e 20 4 ≠ 0 ∧ xl = .ue) :
    entryReached i e o z xl = stoAdd { o with st := 0x0401 } (z.orReg .syncErr 0 0 16) := (entryReached_of_free hsync hfree).trans (if_pos hue)

theorem entryReached_of_good (hgood : fld e 20 4 = 0 ∨ xl ≠ .ue) :
    entryReached i e o z xl = stoStart (i / 16) (heldOp o e xl) e (stoAdd (heldOp o e xl) z) :=
  (entryReached_of_free hsync hfree).trans (if_neg fun h => hgood.elim h.1 fun hne => hne h.2)

end

theorem stoStart_of_flush {t : Nat} (hop : p.op = 3) : stoStart t p e z = z := by
  unfold stoStart
  rw [hop]
  rfl

theorem stoStart_of_trim {t : Nat} (hop : p.op = 4) : stoStart t p e z = modOp p.take (fun x => { x with parts := writeParts 4 p.lba p.count }) z := by
  unfold stoStart
  rw [hop]
  rfl

end

/-! ### NVMe commands and their answers (R408, R410) -/

section
variable {s u : State} {d cid : Nat} {x : Drive} {y : NCmd} {rest : List NCmd} {data : Bytes}

theorem drive_countTv (c n d : Nat) : (s.countTv c n).drive d = s.drive d := by
  obtain ⟨v, hcount⟩ := count_eq_setReg s .telTv 0 c n
  calc (s.countTv c n).drive d = (s.setReg .telTv 0 c v).drive d := congrArg (·.drive d) hcount
    _ = s.drive d := rfl

section
variable (hd : d < 4) (hrun : s.power.running = true) (hx : x = s.drive d)
include hd hrun hx

theorem exec_nvmeCommandComplete_of_none {n status : Nat} (hnone : takeFirst (fun c => c.cid == cid) x.cmds = none) :
    exec (.nvmeCommandComplete ⟨d, n⟩ cid status data) s = .next (s.countTv 5 n) := by
  subst hx
  show execNvmeCommandComplete ⟨d, n⟩ cid status data s = _
  unfold execNvmeCommandComplete
  rw [run_next (decide_eq_true hd) hrun]
  dsimp only
  rw [drive_countTv, hnone]

theorem exec_nvmeCommandComplete {n status : Nat} (hsome : takeFirst (fun c => c.cid == cid) x.cmds = some (y, rest))
    (hu : u = (s.countTv 5 n).setDrive d { x with cmds := rest, last := (s.countTv 5 n).tb.ticks }) :
    exec (.nvmeCommandComplete ⟨d, n⟩ cid status data) s = .next (workGo (stoRun (nvmeEnd d (status % 2 ^ 16) data y.why u))) := by
  subst hx hu
  show execNvmeCommandComplete ⟨d, n⟩ cid status data s = _
  unfold execNvmeCommandComplete
  rw [run_next (decide_eq_true hd) hrun]
  dsimp only
  rw [drive_countTv, hsome]

theorem exec_nvmeCommandTimeout_of_none (hnone : takeFirst (fun c => c.cid == cid) x.cmds = none) :
    exec (.nvmeCommandTimeout d cid) s = .next s := by
  subst hx
  show execNvmeCommandTimeout d cid s = _
  unfold execNvmeCommandTimeout
  rw [run_next (decide_eq_true hd) hrun]
  dsimp only
  rw [hnone]

section
variable (hsome : takeFirst (fun c => c.cid == cid) x.cmds = some (y, rest))
include hsome

theorem exec_nvmeCommandTimeout_of_early (hearly : s.tb.ticks < y.due) : exec (.nvmeCommandTimeout d cid) s = .next s := by
  subst hx
  show execNvmeCommandTimeout d cid s = _
  unfold execNvmeCommandTimeout
  rw [run_next (decide_eq_true hd) hrun]
  dsimp only
  rw [hsome]
  exact congrArg _ (if_pos hearly)

/-- A time limit resets the controller: what it had issued is forgotten, but for the parts it is issued again. -/
def controllerReset (d : Nat) (x : Drive) (rest : List NCmd) (s : State) : State :=
  send (.nvme d x.cid 7 0 0 []) (s.setDrive d { x with
    cmds := [], cid := x.cid + 1, todo := nvmeKept rest ++ x.todo, last := s.tb.ticks
    resetDue := some (s.tb.ticks + 10000000000), test := x.test.map fun t => { t with on := false } })

theorem exec_nvmeCommandTimeout (hdue : y.due ≤ s.tb.ticks) (hu : u = controllerReset d x rest (sticky none .driveErr d 0 2 s)) :
    exec (.nvmeCommandTimeout d cid) s = .next (workGo (stoRun (nvmeLate d y.why (nvmeRedo rest u)))) := by
  subst hu hx
  show execNvmeCommandTimeout d cid s = _
  unfold execNvmeCommandTimeout
  rw [run_next (decide_eq_true hd) hrun]
  dsimp only
  rw [hsome]
  exact congrArg _ (if_neg (Nat.not_lt.2 hdue))

end

/-! ### Readiness and presence (R399, R410) -/

theorem exec_driveReady_of_waiting {t : Nat} (hdue : x.resetDue = some t) (hfailed : x.failed = false) :
    exec (.driveReady d) s = .next (stoRun (s.setDrive d { x with resetDue := none, last := s.tb.ticks })) := by
  subst hx
  exact run_onlyIf_of_true (decide_eq_true hd) hrun (by rw [hdue, hfailed]; rfl)

theorem exec_driveReady_of_not_waiting (hnot : x.resetDue = none ∨ x.failed = true) : exec (.driveReady d) s = .next s := by
  subst hx
  refine run_onlyIf_of_false (decide_eq_true hd) hrun ?_
  obtain h | h := hnot <;> simp [h]

theorem exec_driveReadyTimeout_of_late {t : Nat} (hdue : x.resetDue = some t) (hlate : t ≤ s.tb.ticks) :
    exec (.driveReadyTimeout d) s = .next (driveFail d s) := by
  subst hx
  refine run_onlyIf_of_true (decide_eq_true hd) hrun ?_
  rw [hdue]
  simpa [expired] using hlate

theorem exec_driveReadyTimeout_of_early {t : Nat} (hdue : x.resetDue = some t) (hearly : s.tb.ticks < t) :
    exec (.driveReadyTimeout d) s = .next s := by
  subst hx
  refine run_onlyIf_of_false (decide_eq_true hd) hrun ?_
  rw [hdue]
  simpa [expired] using hearly

theorem exec_driveReadyTimeout_of_ready (hnone : x.resetDue = none) : exec (.driveReadyTimeout d) s = .next s := by
  subst hx
  refine run_onlyIf_of_false (decide_eq_true hd) hrun ?_
  rw [hnone]
  rfl

theorem exec_drivePresenceChange_of_appeared {ident : DriveId} : exec (.drivePresenceChange d (some ident)) s =
    .next (driveAccept d ident (if x.accepted && !x.failed then driveFail d s else s)) := by
  subst hx
  show execDrivePresenceChange d (some ident) s = _
  unfold execDrivePresenceChange
  rw [run_next (decide_eq_true hd) hrun]

theorem exec_drivePresenceChange_of_left : exec (.drivePresenceChange d none) s =
    .next (if x.accepted then (if x.failed then s.setDrive d { x with id := none } else driveFail d (s.setDrive d { x with id := none }))
      else s.setDrive d { cid := x.cid }) := by
  subst hx
  show execDrivePresenceChange d none s = _
  unfold execDrivePresenceChange
  rw [run_next (decide_eq_true hd) hrun]

omit hd hrun in
theorem driveAccept_of_refused {ident : DriveId} {r : Nat} (hr : r = driveRefuse ident) (hrefused : r ≠ 0) :
    driveAccept d ident s = s.setDrive d { id := some ident, refuse := r, cid := x.cid } := by
  subst hx hr
  exact if_pos hrefused

end

/-! ### What an answer, or its want, ends (R408, R410) -/

theorem nvmeEnd_of_media {take i n : Nat} {o : StoOp} {p : UOp} (hn : n ≠ 0) (hop : s.sto.ops.find? (fun o => o.take == take) = some o)
    (hpart : o.parts[i]? = some p) :
    nvmeEnd d n data (.part take i) s = stopPart d take i (stoMedia d take (d + n * 256) ((o.lba + p.off) % 2 ^ 32) s) := by
  unfold nvmeEnd
  dsimp only
  rw [if_pos hn, hop]
  dsimp only
  rw [hpart]

/-! ### Device self-tests (R400, R415) -/

section
variable {t : Test} (hd : d < 4) (hrun : s.power.running = true) (hx : x = s.drive d)
include hd hrun hx

theorem exec_selfTest_of_none (hnone : x.test = none) (result : Nat) :
    exec (.deviceSelfTestComplete d result) s = .next s ∧ exec (.selfTestRestart d) s = .next s := by
  subst hx
  constructor
  · show execDeviceSelfTestComplete d result s = _
    unfold execDeviceSelfTestComplete
    rw [run_next (decide_eq_true hd) hrun, hnone]
  · show execSelfTestRestart d s = _
    unfold execSelfTestRestart
    rw [run_next (decide_eq_true hd) hrun]
    dsimp only
    rw [hnone]

variable (htest : x.test = some t)
include htest

theorem exec_deviceSelfTestComplete {result : Nat} (hon : t.on = true) (hu : u = s.setDrive d { x with test := none }) :
    exec (.deviceSelfTestComplete d result) s =
      .next (stoRun (t.for_.foldl (fun s k => modOp k (fun o => { o with r0 := putBits o.r0 (4 * d + 3) (4 * d) result }) s) u)) := by
  subst hx hu
  show execDeviceSelfTestComplete d result s = _
  unfold execDeviceSelfTestComplete
  rw [run_next (decide_eq_true hd) hrun, htest]
  exact congrArg _ (if_pos hon)

theorem exec_deviceSelfTestComplete_of_stopped {result : Nat} (hoff : t.on = false) : exec (.deviceSelfTestComplete d result) s = .next s := by
  subst hx
  show execDeviceSelfTestComplete d result s = _
  unfold execDeviceSelfTestComplete
  rw [run_next (decide_eq_true hd) hrun, htest]
  exact congrArg _ (if_neg (ne_true_of_eq_false hoff))

/-- The drive has been idle for the time after which a test starts again. -/
def mayRestart (t : Test) (x : Drive) (s : State) : Bool :=
  !t.on && driveUp x && x.cmds.isEmpty && x.todo.isEmpty && decide (x.last + max 1 (bits (s.reg .stoCtrl) 23 8) * 1000000 ≤ s.tb.ticks)

/-- The test starts on the drive. -/
def testStarted (d : Nat) (t : Test) (x : Drive) (s : State) : State :=
  send (.nvme d x.cid 3 t.kind 0 []) (s.setDrive d { x with test := some { t with on := true, ran := true }, cid := x.cid + 1 })

/-- A test that ran before is counted as a restart for each command that waits for it. -/
def restartCounted (d : Nat) (t : Test) (s : State) : State :=
  if t.ran then t.for_.foldl (fun s k => modOp k (fun o => { o with restarts := o.restarts + 1 }) s) (s.count .driveStRestarts d 0 1) else s

theorem exec_selfTestRestart_of_idle (hmay : mayRestart t x s = true) :
    exec (.selfTestRestart d) s = .next (restartCounted d t (testStarted d t x s)) := by
  subst hx
  show execSelfTestRestart d s = _
  unfold execSelfTestRestart
  rw [run_next (decide_eq_true hd) hrun]
  dsimp only
  rw [htest]
  exact congrArg _ (if_pos hmay)

theorem exec_selfTestRestart_of_busy (hmay : mayRestart t x s = false) : exec (.selfTestRestart d) s = .next s := by
  subst hx
  show execSelfTestRestart d s = _
  unfold execSelfTestRestart
  rw [run_next (decide_eq_true hd) hrun]
  dsimp only
  rw [htest]
  exact congrArg _ (if_neg (ne_true_of_eq_false hmay))

omit hd hrun hx htest in
theorem mayRestart_of (hoff : t.on = false) (hup : driveUp x = true) (hcmds : x.cmds = []) (htodo : x.todo = [])
    (hidle : x.last + max 1 (bits (s.reg .stoCtrl) 23 8) * 1000000 ≤ s.tb.ticks) : mayRestart t x s = true := by
  unfold mayRestart
  rw [hoff, hup, hcmds, htodo, decide_eq_true hidle]
  rfl

omit hd hrun hx htest in
theorem not_mayRestart_of (hbusy : t.on = true ∨ driveUp x = false ∨ x.cmds ≠ [] ∨ x.todo ≠ [] ∨
    s.tb.ticks < x.last + max 1 (bits (s.reg .stoCtrl) 23 8) * 1000000) : mayRestart t x s = false := by
  rw [← Bool.not_eq_true]
  intro hmay
  simp only [mayRestart, Bool.and_eq_true, Bool.not_eq_true', List.isEmpty_iff, decide_eq_true_eq] at hmay
  obtain ⟨⟨⟨⟨hoff, hup⟩, hcmds⟩, htodo⟩, hidle⟩ := hmay
  obtain h | h | h | h | h := hbusy
  · exact absurd h (ne_true_of_eq_false hoff)
  · exact absurd hup (ne_true_of_eq_false h)
  · exact h hcmds
  · exact h htodo
  · omega

end

section
variable {take t : Nat} {o : StoOp} (hrun : s.power.running = true) (hop : s.sto.ops.find? (fun o => o.take == take) = some o)
  (hlimit : o.limit = some t)
include hrun hop hlimit

theorem exec_selfTestLimit_of_over (htest : o.op = 6) (hended : o.ended = false) (hover : t ≤ s.tb.ticks) :
    exec (.selfTestLimit take) s = .next (stoRun (modOp take (fun o => { o with st := 0x0301, r0 := 0, r1 := o.restarts })
      ((List.range 4).foldl (fun s d => leaveTest take d s) s))) := by
  show execSelfTestLimit take s = _
  unfold execSelfTestLimit
  rw [run_next rfl hrun, hop]
  refine congrArg _ (if_pos ⟨htest, hended, by rw [hlimit]; rfl, ?_⟩)
  rw [hlimit]
  exact decide_eq_true hover

theorem exec_selfTestLimit_of_early (hearly : s.tb.ticks < t) : exec (.selfTestLimit take) s = .next s := by
  show execSelfTestLimit take s = _
  unfold execSelfTestLimit
  rw [run_next rfl hrun, hop]
  refine congrArg _ (if_neg ?_)
  rintro ⟨-, -, -, hexpired⟩
  rw [hlimit] at hexpired
  exact Nat.not_le.2 hearly (of_decide_eq_true hexpired)

end
end

/-! ### The rows together -/

section
variable {s u : State}

theorem exec_takes {c : Instr} {op i : Nat} {e : Bytes} {q : StoQ} (hrun : s.power.running = true)
    (hmem : (c, op) ∈ [(Instr.stoRead, 1), (.stoWrite, 2), (.stoFlush, 3), (.stoTrim, 4), (.stoAtomicWrite, 5), (.stoSelfTest, 6), (.stoPower, 7)])
    (hask : u = stoAsk s) :
    (stoNext u = none → exec c s = .next (stoWake u)) ∧
    (stoNext u = some i → q = u.stoQ i → e = headEntry u i →
      (fld e 0 1 ≠ op → 1 ≤ fld e 0 1 → fld e 0 1 ≤ 7 → exec c s = .next u) ∧
      (fld e 0 1 = op ∨ fld e 0 1 = 0 ∨ 7 < fld e 0 1 →
        (q.ibc = true → exec c s = .next (stoRun (stoTakeEntry i e (u.setWq (256 + i) ((u.wq (256 + i)).drop 1))))) ∧
        (q.ibc = false → .bad ∈ hostCells u (fnPort u (i / 16)) (q.sq + 64 * q.head) 64 →
          exec c s = .next (sticky (some (i / 16)) .stoTenErr (i / 16) 0 2 (u.setStoQ i { q with failed := true }))) ∧
        (q.ibc = false → .bad ∉ hostCells u (fnPort u (i / 16)) (q.sq + 64 * q.head) 64 →
          exec c s = .next (stoRun (stoTakeEntry i e (u.setStoQ i { q with head := (q.head + 1) % 32 })))))) := by
  have hrow := takesOp_of_mem hmem
  refine ⟨exec_take_of_none hrow hrun hask, fun hnext hq he => ⟨exec_take_of_other hrow hrun hask hnext he, fun hmine => ?_⟩⟩
  rw [exec_take hrow hrun hask hnext he hmine]
  exact ⟨fun hibc => congrArg _ (headTaken_of_memory hq hibc), fun hring hbad => congrArg _ (headTaken_of_bad hq hring hbad),
    fun hring hgood => congrArg _ (headTaken_of_ring hq hring hgood)⟩

/-- An entry whose volume and buffer the tenant may use, by its signal's counter and its tag. -/
theorem entryReached_cases {z : State} {i : Nat} {e : Bytes} {o : StoOp} {xl : Xl} (htag : o.tag = fld e 2 1) :
    (fld e 20 4 ≠ 0 → xl = .none → entryReached i e o z xl = stoAdd { o with st := 0x0501 } (addrDenied (tenReq (i / 16) 0x212) z)) ∧
    (fld e 20 4 = 0 ∨ xl ≠ .none →
      (∀ x ∈ z.sto.ops, x.for_ = .queue i → x.held = true → x.tag = fld e 2 1 →
        entryReached i e o z xl = stoAdd { o with st := 0x0201, r0 := 0x14 + o.tag * 256, r1 := 1 } z) ∧
      ((∀ x ∈ z.sto.ops, x.for_ = .queue i → x.held = true → x.tag ≠ fld e 2 1) →
        (fld e 20 4 ≠ 0 → xl = .ue → entryReached i e o z xl = stoAdd { o with st := 0x0401 } (z.orReg .syncErr 0 0 16)) ∧
        (∀ p : StoOp, fld e 20 4 = 0 ∨ xl ≠ .ue → p = heldOp o e xl →
          entryReached i e o z xl = stoStart (i / 16) p e (stoAdd p z) ∧
          (p.op = 3 → entryReached i e o z xl = stoAdd p z) ∧
          (p.op = 4 → entryReached i e o z xl =
            modOp p.take (fun x => { x with parts := writeParts 4 (fld e 8 8) (fld e 16 4) }) (stoAdd p z))))) := by
  rw [← htag]
  refine ⟨entryReached_of_counter, fun hsync => ⟨fun x hmem hfor hheld => entryReached_of_tag hsync hmem hfor hheld, fun hfree =>
    ⟨fun hcounter hue => entryReached_of_ue hsync hfree ⟨hcounter, hue⟩, ?_⟩⟩⟩
  rintro _ hgood rfl
  rw [entryReached_of_good hsync hfree hgood]
  exact ⟨rfl, stoStart_of_flush, stoStart_of_trim⟩

theorem stoTakeEntry_cases {i : Nat} {e : Bytes} {y : State} {o : StoOp} (hy : y = takeNumbered i s) (ho : o = entryOp i e s) :
    (fld e 0 1 = 0 ∨ 7 < fld e 0 1 → stoTakeEntry i e s = stoAdd { o with st := 0x0101 } y) ∧
    (1 ≤ fld e 0 1 → fld e 0 1 ≤ 7 →
      (∀ st r0, stoForm y e = some (st, r0) → stoTakeEntry i e s = stoAdd { o with st := st, r0 := r0 } y) ∧
      (∀ v, stoForm y e = none → v = y.vol (fld e 4 2) →
        (v.st ≠ 2 ∨ v.tenant ≠ i / 16 → stoTakeEntry i e s = stoAdd { o with st := 0x0501 } (addrDenied (tenReq (i / 16) 0x212) y)) ∧
        (v.st = 2 → v.tenant = i / 16 → ∀ ok z, (if fld e 0 1 = 1 ∨ fld e 0 1 = 2 ∨ fld e 0 1 = 5 then
            mayReach (i / 16) (fld e 24 8) (fld e 16 4 * 4096) (fld e 0 1 == 1) 0x212 y else (true, y)) = (ok, z) →
          (ok = false → stoTakeEntry i e s = stoAdd { o with st := refusedSt z (tenReq (i / 16) 0x212) (fld e 24 8) (fld e 16 4 * 4096) } z) ∧
          (ok = true → stoTakeEntry i e s = entryReached i e o z (translateFor z (i / 16 + 1) (fnBind z (i / 16)) (bits (fld e 20 4) 23 0)))))) := by
  subst hy ho
  refine ⟨stoTakeEntry_of_opcode, fun hlow hhigh => ⟨fun st r0 => stoTakeEntry_of_form hlow hhigh, fun v hform hv => ⟨fun hunbound => ?_,
    fun hst htenant ok z hreach => ?_⟩⟩⟩
  · exact (stoTakeEntry_of_formed hlow hhigh hform).trans (entryFormed_of_unbound hv hunbound)
  · rw [stoTakeEntry_of_formed hlow hhigh hform, entryFormed_of_bound hv hst htenant hreach]
    constructor
    · rintro rfl
      rfl
    · rintro rfl
      rfl

/-- A drive appears, is replaced, or leaves. -/
theorem exec_presence {d : Nat} {x : Drive} (hrun : s.power.running = true) (hd : d < 4) (hx : x = s.drive d) :
    (∀ ident, x.accepted = true → x.failed = false → exec (.drivePresenceChange d (some ident)) s = .next (driveAccept d ident (driveFail d s))) ∧
    (x.accepted = true → x.failed = true → exec (.drivePresenceChange d none) s = .next (s.setDrive d { x with id := none })) ∧
    (x.accepted = false → exec (.drivePresenceChange d none) s = .next (s.setDrive d { cid := x.cid })) ∧
    (∀ ident r, x.accepted = false ∨ x.failed = true → r = driveRefuse ident →
      (r ≠ 0 → exec (.drivePresenceChange d (some ident)) s = .next (s.setDrive d { id := some ident, refuse := r, cid := x.cid })) ∧
      (r = 0 → exec (.drivePresenceChange d (some ident)) s = .next (driveAccept d ident s))) ∧
    (x.accepted = true → x.failed = false → exec (.drivePresenceChange d none) s = .next (driveFail d (s.setDrive d { x with id := none }))) := by
  refine ⟨fun ident haccepted hfailed => ?_, fun haccepted hfailed => ?_, fun haccepted => ?_, fun ident r hout hr => ?_, fun haccepted hfailed => ?_⟩
  · rw [exec_drivePresenceChange_of_appeared hd hrun hx, haccepted, hfailed]
    rfl
  · rw [exec_drivePresenceChange_of_left hd hrun hx, if_pos haccepted, if_pos hfailed]
  · rw [exec_drivePresenceChange_of_left hd hrun hx, if_neg (ne_true_of_eq_false haccepted)]
  · have hkeeps : (x.accepted && !x.failed) = false := by obtain h | h := hout <;> simp [h]
    rw [exec_drivePresenceChange_of_appeared hd hrun hx, if_neg (ne_true_of_eq_false hkeeps)]
    exact ⟨fun hrefused => congrArg _ (driveAccept_of_refused hx hr hrefused), fun _ => rfl⟩
  · rw [exec_drivePresenceChange_of_left hd hrun hx, if_pos haccepted, if_neg (ne_true_of_eq_false hfailed)]

/-- A self-test that is due to start again. -/
theorem exec_restart {d : Nat} {x : Drive} {t : Test} (hrun : s.power.running = true) (hd : d < 4) (hx : x = s.drive d) (htest : x.test = some t)
    (hoff : t.on = false) (hup : driveUp x = true) (hcmds : x.cmds = []) (htodo : x.todo = [])
    (hidle : x.last + max 1 (bits (s.reg .stoCtrl) 23 8) * 1000000 ≤ s.tb.ticks) :
    exec (.selfTestRestart d) s = .next (restartCounted d t (testStarted d t x s)) :=
  exec_selfTestRestart_of_idle hd hrun hx htest (mayRestart_of hoff hup hcmds htodo hidle)

end

/-- Settles O59: takes by the queue whose turn it is, an entry by its checks in their order, and each event of a drive. That any row takes an entry
of an undefined OP (log entry 31), what a controller reset loses and starts again (log entry 34), and that LIMIT counts from the take (log entry
36), are the model's choices. -/
theorem storage_Service : Obligations.Storage_Service := by
  unfold Obligations.Storage_Service
  refine fun s u hrun => ⟨fun c op i e q => exec_takes hrun, fun i e y o hy ho => ?_, fun d cid status data x y rest hd hx => ?_,
    fun take t o hop htest hended hlimit => ⟨exec_selfTestLimit_of_over hrun hop hlimit htest hended, exec_selfTestLimit_of_early hrun hop hlimit⟩⟩
  · obtain ⟨hopcode, hknown⟩ := stoTakeEntry_cases hy ho
    refine ⟨hopcode, fun hlow hhigh => ?_⟩
    obtain ⟨hform, hformed⟩ := hknown hlow hhigh
    refine ⟨hform, fun v hgood hv => ?_⟩
    obtain ⟨hunbound, hbound⟩ := hformed v hgood hv
    refine ⟨hunbound, fun hst htenant ok z hreach => ?_⟩
    obtain ⟨hdenied, hreached⟩ := hbound hst htenant ok z hreach
    refine ⟨hdenied, ?_⟩
    rintro xl hok rfl
    rw [hreached hok]
    exact entryReached_cases (by rw [ho])
  · obtain ⟨hreplaced, hgone, hempty, hnew, hleft⟩ := exec_presence hrun hd hx
    refine ⟨fun n _ hnone => ⟨exec_nvmeCommandComplete_of_none hd hrun hx hnone, exec_nvmeCommandTimeout_of_none hd hrun hx hnone⟩,
      fun n hsome hu => exec_nvmeCommandComplete hd hrun hx hsome hu, fun _ _ => rfl, fun take i o p n hn hop hpart => nvmeEnd_of_media hn hop hpart,
      fun _ _ _ => rfl, fun _ => by rw [hx]; rfl, fun hsome => ⟨exec_nvmeCommandTimeout_of_early hd hrun hx hsome, exec_nvmeCommandTimeout hd hrun hx hsome⟩,
      fun _ _ => rfl, fun _ _ => rfl, fun t hdue => ⟨exec_driveReady_of_waiting hd hrun hx hdue,
        fun hfailed => exec_driveReady_of_not_waiting hd hrun hx (.inr hfailed), exec_driveReadyTimeout_of_late hd hrun hx hdue,
        exec_driveReadyTimeout_of_early hd hrun hx hdue⟩,
      fun hnone => ⟨exec_driveReady_of_not_waiting hd hrun hx (.inl hnone), exec_driveReadyTimeout_of_ready hd hrun hx hnone⟩,
      hreplaced, hgone, hempty, hnew, hleft, fun t result htest => exec_deviceSelfTestComplete hd hrun hx htest,
      exec_selfTest_of_none hd hrun hx, fun t result htest => exec_deviceSelfTestComplete_of_stopped hd hrun hx htest,
      fun t htest hoff hran hup hcmds htodo hidle => ?_, fun t htest hoff hran hup hcmds htodo hidle hu => ?_,
      fun t htest hbusy => exec_selfTestRestart_of_busy hd hrun hx htest (not_mayRestart_of hbusy)⟩
    · exact (exec_restart hrun hd hx htest hoff hup hcmds htodo hidle).trans (congrArg _ (if_neg (ne_true_of_eq_false hran)))
    · subst hu
      exact (exec_restart hrun hd hx htest hoff hup hcmds htodo hidle).trans (congrArg _ (if_pos hran))

end Sys2Proof.Machine
end
